-- ==== Sys2Proof/Word.lean ====
section
/-! DEFINITION. The word types of the Nolhosy and their plainest arithmetic (spec/00_scope.md R2, R3), and
the names and records that instructions carry. -/

namespace Sys2Proof

/-- Eight bits, the smallest addressable unit. -/
abbrev Byte := BitVec 8
/-- A 32-bit word: an instruction word, an FP32 pattern, a copy-block word. -/
abbrev Word32 := BitVec 32
/-- A 64-bit word: an x or y register, a control register. -/
abbrev Word64 := BitVec 64

/-- The six issue queues (R86). -/
inductive Queue where
  | ld | mx | vx | fx | rx | st
  deriving DecidableEq, Repr, Inhabited

/-- The three engines of the token ring (R91). -/
inductive Engine where
  | ld | cmp | st
  deriving DecidableEq, Repr, Inhabited

/-- The five barrier levels (R345, R348). -/
inductive Level where
  | cluster | die | device | herd | job
  deriving DecidableEq, Repr, Inhabited

/-- The operand types of the atomics (R45, bits 6:4 of the minor). -/
inductive AType where
  | i32 | n32 | i64 | n64 | f32 | f64
  deriving DecidableEq, Repr, Inhabited

/-- What an engine word carries beside its operands: token bits and delay (R31), and the STAMP and META
payloads that stand before it (R36, R38). -/
structure EngBits where
  popP  : Bool
  popN  : Bool
  pushP : Bool
  pushN : Bool
  delay : BitVec 5
  stamp : Option (BitVec 24)
  metaP : Option (BitVec 24)
  deriving DecidableEq, Repr, Inhabited

/-- A fabric fragment as it arrives (R304): four header words, payload, CRC. `port` is the fabric port
that received it (R303, R310). -/
structure Fragment where
  w0 : BitVec 64
  w1 : BitVec 64
  w2 : BitVec 64
  w3 : BitVec 64
  payload : List (BitVec 8)
  crc  : BitVec 32
  port : BitVec 6
  deriving DecidableEq, Repr, Inhabited

/-- An access that reaches the version controller (R286): the frame of its vb page, the byte offset in the
64 KiB page, the bytes of a write (or how many bytes a read wants), and the epoch a write is tagged with. -/
structure VAccess where
  write : Bool
  frame : Nat
  off   : Nat
  len   : Nat
  data  : List (BitVec 8)
  epoch : Option Nat
  deriving DecidableEq, Repr, Inhabited

/-- The kinds of firmware image (R411, R412). -/
inductive ImageKind where
  | monitor | coefficients | bitmap | scheduler
  deriving DecidableEq, Repr, Inhabited

/-- A firmware image on the control link (R406, R411): the function that its transaction names, its bytes, its two signatures, each with
the public key it comes with, its security version, and the data it installs (one coefficient a charge class of R360, or line-disable
bits of R395). -/
structure Image where
  fn      : BitVec 5
  kind    : ImageKind
  bytes   : List (BitVec 8)
  ecdsaKey : List (BitVec 8)
  ecdsaSig : List (BitVec 8)
  lmsKey  : List (BitVec 8)
  lmsSig  : List (BitVec 8)
  version : BitVec 32
  cset    : BitVec 16
  coefs   : List Nat
  ways    : List Nat
  deriving DecidableEq, Repr, Inhabited

/-- The control-link registers with no behaviour of their own (R408). A group entry is written whole: the
value written is its word 0 and `rest` its words 1 to 7 (R315). -/
inductive Reg where
  | ptroot | vsbase | vsize | dlallow | ctxbase | ctxn | equota | estat
  | bp (n : BitVec 3) (hi : Bool)
  | group (g : BitVec 8) (rest : List (BitVec 64))
  | drainctl | retire | ident | ready (hi : Bool) | mr (n : BitVec 2)
  | queueRec (q : BitVec 15) (w : BitVec 3)
  | progress (q : BitVec 15)
  | ctrBase (vc : BitVec 10) | ctrSize (vc : BitVec 10) | ctrPtr (vc : BitVec 10) | ctrWrap (vc : BitVec 10)
  deriving DecidableEq, Repr, Inhabited

/-- The partition counters (R397). -/
inductive Counter where
  | discarded | corrected (resource : BitVec 8) | uncorrectable (resource : BitVec 8)
  | orphan (cause : BitVec 8) | traceDrops
  deriving DecidableEq, Repr, Inhabited

end Sys2Proof
end

