-- ==== Sys2Proof/Syntax.lean ====
section
/-! DEFINITION. The instructions and events of the Nolhosy: one constructor of `Instr` for each row of the
table of operations (spec/opcode_table.json). A word's constructor carries the fields of its encoding (02_encoding R27-R48);
an event's constructor carries what the outside, or the unit that causes it, decides. The order is the table's but for this: compiled code can build at most 245 constructors that carry
fields, so the words with fields stand first, the function words of major 0x39 after them, and the events last. -/

namespace Sys2Proof

/-- One step of the machine: a row of the table of operations. -/
inductive Instr where
  /-- ADD, R117: xd := (xa + xb) mod 2^64. -/
  | add (rd : BitVec 6) (ra : BitVec 6) (rb : BitVec 6)
  /-- SUB, R117: xd := (xa - xb) mod 2^64. -/
  | sub (rd : BitVec 6) (ra : BitVec 6) (rb : BitVec 6)
  /-- AND, R117: Bitwise AND of xa and xb. -/
  | and (rd : BitVec 6) (ra : BitVec 6) (rb : BitVec 6)
  /-- OR, R117: Bitwise OR of xa and xb. -/
  | or (rd : BitVec 6) (ra : BitVec 6) (rb : BitVec 6)
  /-- XOR, R117: Bitwise XOR of xa and xb. -/
  | xor (rd : BitVec 6) (ra : BitVec 6) (rb : BitVec 6)
  /-- ANDN, R117: xd := xa and not xb. -/
  | andn (rd : BitVec 6) (ra : BitVec 6) (rb : BitVec 6)
  /-- SLL, R117: Shift xa left by xb[5:0]. -/
  | sll (rd : BitVec 6) (ra : BitVec 6) (rb : BitVec 6)
  /-- SRL, R117: Logical right shift of xa by xb[5:0]. -/
  | srl (rd : BitVec 6) (ra : BitVec 6) (rb : BitVec 6)
  /-- SRA, R117: Arithmetic right shift of xa by xb[5:0]. -/
  | sra (rd : BitVec 6) (ra : BitVec 6) (rb : BitVec 6)
  /-- ROL, R117: Rotate xa left by xb[5:0]. -/
  | rol (rd : BitVec 6) (ra : BitVec 6) (rb : BitVec 6)
  /-- ROR, R117: Rotate xa right by xb[5:0]. -/
  | ror (rd : BitVec 6) (ra : BitVec 6) (rb : BitVec 6)
  /-- SLT, R117: xd := 1 if xa < xb signed, else 0. -/
  | slt (rd : BitVec 6) (ra : BitVec 6) (rb : BitVec 6)
  /-- SLTN, R117: xd := 1 if xa < xb unsigned, else 0. -/
  | sltn (rd : BitVec 6) (ra : BitVec 6) (rb : BitVec 6)
  /-- MIN, R117: Signed minimum of xa and xb. -/
  | min (rd : BitVec 6) (ra : BitVec 6) (rb : BitVec 6)
  /-- MAX, R117: Signed maximum of xa and xb. -/
  | max (rd : BitVec 6) (ra : BitVec 6) (rb : BitVec 6)
  /-- MINN, R117: Unsigned minimum of xa and xb. -/
  | minn (rd : BitVec 6) (ra : BitVec 6) (rb : BitVec 6)
  /-- MAXN, R117: Unsigned maximum of xa and xb. -/
  | maxn (rd : BitVec 6) (ra : BitVec 6) (rb : BitVec 6)
  /-- ADDW, R117: 32-bit add, result sign-extended from bit 31. -/
  | addw (rd : BitVec 6) (ra : BitVec 6) (rb : BitVec 6)
  /-- SUBW, R117: 32-bit subtract, result sign-extended from bit 31. -/
  | subw (rd : BitVec 6) (ra : BitVec 6) (rb : BitVec 6)
  /-- CLZ, R117: Count of leading zero bits of xa. -/
  | clz (rd : BitVec 6) (ra : BitVec 6)
  /-- CTZ, R117: Count of trailing zero bits of xa. -/
  | ctz (rd : BitVec 6) (ra : BitVec 6)
  /-- POPC, R117: Number of one bits in xa. -/
  | popc (rd : BitVec 6) (ra : BitVec 6)
  /-- BSWAP, R117: Reverses the eight bytes of xa. -/
  | bswap (rd : BitVec 6) (ra : BitVec 6)
  /-- ADDI, R118: xd := (xa + imm) mod 2^64. -/
  | addi (rd : BitVec 6) (ra : BitVec 6) (imm : BitVec 14) (ext : Option (BitVec 24))
  /-- ANDI, R118: xd := xa and sign-extended imm. -/
  | andi (rd : BitVec 6) (ra : BitVec 6) (imm : BitVec 14) (ext : Option (BitVec 24))
  /-- ORI, R118: xd := xa or sign-extended imm. -/
  | ori (rd : BitVec 6) (ra : BitVec 6) (imm : BitVec 14) (ext : Option (BitVec 24))
  /-- XORI, R118: xd := xa xor sign-extended imm. -/
  | xori (rd : BitVec 6) (ra : BitVec 6) (imm : BitVec 14) (ext : Option (BitVec 24))
  /-- SLLI, R118: Shift xa left by a 6-bit immediate amount. -/
  | slli (rd : BitVec 6) (ra : BitVec 6) (sh : BitVec 6)
  /-- SRLI, R118: Logical right shift of xa by a 6-bit immediate amount. -/
  | srli (rd : BitVec 6) (ra : BitVec 6) (sh : BitVec 6)
  /-- SRAI, R118: Arithmetic right shift of xa by a 6-bit immediate amount. -/
  | srai (rd : BitVec 6) (ra : BitVec 6) (sh : BitVec 6)
  /-- SLTI, R118: xd := 1 if xa < imm signed, else 0. -/
  | slti (rd : BitVec 6) (ra : BitVec 6) (imm : BitVec 14) (ext : Option (BitVec 24))
  /-- LIH, R118: xd := sext(imm20) << 14. -/
  | lih (rd : BitVec 6) (imm : BitVec 20) (ext : Option (BitVec 24))
  /-- ADDPC, R118: xd := A + (sext(imm20) << 14). -/
  | addpc (rd : BitVec 6) (imm : BitVec 20) (ext : Option (BitVec 24))
  /-- MUL, R119: Low 64 bits of xa times xb. -/
  | mul (rd : BitVec 6) (ra : BitVec 6) (rb : BitVec 6)
  /-- MULH, R119: High 64 bits of the signed 128-bit product. -/
  | mulh (rd : BitVec 6) (ra : BitVec 6) (rb : BitVec 6)
  /-- MULHN, R119: High 64 bits of the unsigned 128-bit product. -/
  | mulhn (rd : BitVec 6) (ra : BitVec 6) (rb : BitVec 6)
  /-- DIV, R119: Signed quotient truncated toward zero; borderline cases set iz. -/
  | div (rd : BitVec 6) (ra : BitVec 6) (rb : BitVec 6)
  /-- DIVN, R119: Unsigned quotient; divide by zero sets iz. -/
  | divn (rd : BitVec 6) (ra : BitVec 6) (rb : BitVec 6)
  /-- REM, R119: Signed remainder with the sign of xa. -/
  | rem (rd : BitVec 6) (ra : BitVec 6) (rb : BitVec 6)
  /-- REMN, R119: Unsigned remainder. -/
  | remn (rd : BitVec 6) (ra : BitVec 6) (rb : BitVec 6)
  /-- FADD, R125: Floating add of xa and xb rounded in FRM, f32 or f64 by bit p. -/
  | fadd (rd : BitVec 6) (ra : BitVec 6) (rb : BitVec 6) (f64 : Bool)
  /-- FSUB, R125: Floating subtract rounded in FRM. -/
  | fsub (rd : BitVec 6) (ra : BitVec 6) (rb : BitVec 6) (f64 : Bool)
  /-- FMUL, R125: Floating multiply rounded in FRM. -/
  | fmul (rd : BitVec 6) (ra : BitVec 6) (rb : BitVec 6) (f64 : Bool)
  /-- FDIV, R125: Floating divide rounded in FRM, setting dz on division by zero. -/
  | fdiv (rd : BitVec 6) (ra : BitVec 6) (rb : BitVec 6) (f64 : Bool)
  /-- FSQRT, R125: Floating square root rounded in FRM. -/
  | fsqrt (rd : BitVec 6) (ra : BitVec 6) (f64 : Bool)
  /-- FMAC, R125: xd := xa*xb + xd with one rounding. -/
  | fmac (rd : BitVec 6) (ra : BitVec 6) (rb : BitVec 6) (f64 : Bool)
  /-- FMIN, R127: Floating minimum by the shared NaN and signed-zero rule. -/
  | fmin (rd : BitVec 6) (ra : BitVec 6) (rb : BitVec 6) (f64 : Bool)
  /-- FMAX, R127: Floating maximum by the shared NaN and signed-zero rule. -/
  | fmax (rd : BitVec 6) (ra : BitVec 6) (rb : BitVec 6) (f64 : Bool)
  /-- FCEQ, R128: Writes 1 if xa equals xb, else 0. -/
  | fceq (rd : BitVec 6) (ra : BitVec 6) (rb : BitVec 6) (f64 : Bool)
  /-- FCLT, R128: Writes 1 if xa < xb, else 0; NaN sets nv. -/
  | fclt (rd : BitVec 6) (ra : BitVec 6) (rb : BitVec 6) (f64 : Bool)
  /-- FCLE, R128: Writes 1 if xa <= xb, else 0; NaN sets nv. -/
  | fcle (rd : BitVec 6) (ra : BitVec 6) (rb : BitVec 6) (f64 : Bool)
  /-- FCLASS, R128: Writes the class code of xa. -/
  | fclass (rd : BitVec 6) (ra : BitVec 6) (f64 : Bool)
  /-- FABS, R125: Clears the sign of xa; NaN gives the canonical NaN. -/
  | fabs (rd : BitVec 6) (ra : BitVec 6) (f64 : Bool)
  /-- FNEG, R125: Inverts the sign of xa; NaN gives the canonical NaN. -/
  | fneg (rd : BitVec 6) (ra : BitVec 6) (f64 : Bool)
  /-- FCPYS, R126: Magnitude of xa with the sign of xb. -/
  | fcpys (rd : BitVec 6) (ra : BitVec 6) (rb : BitVec 6) (f64 : Bool)
  /-- FCVT_I64_T, R129: Converts a float to a signed 64-bit integer in FRM, saturating. -/
  | fcvtI64T (rd : BitVec 6) (ra : BitVec 6) (f64 : Bool)
  /-- FCVT_N64_T, R129: Converts a float to an unsigned 64-bit integer in FRM, saturating. -/
  | fcvtN64T (rd : BitVec 6) (ra : BitVec 6) (f64 : Bool)
  /-- FCVT_T_I64, R129: Converts a signed 64-bit integer to a float in FRM. -/
  | fcvtTI64 (rd : BitVec 6) (ra : BitVec 6) (f64 : Bool)
  /-- FCVT_T_N64, R129: Converts an unsigned 64-bit integer to a float in FRM. -/
  | fcvtTN64 (rd : BitVec 6) (ra : BitVec 6) (f64 : Bool)
  /-- FCVT_F64_F32, R129: Exact conversion of f32 to f64. -/
  | fcvtF64F32 (rd : BitVec 6) (ra : BitVec 6)
  /-- FCVT_F32_F64, R129: Conversion of f64 to f32 rounded in FRM. -/
  | fcvtF32F64 (rd : BitVec 6) (ra : BitVec 6)
  /-- LD_I8, R120: Loads a byte, sign-extended. -/
  | ldI8 (rd : BitVec 6) (ra : BitVec 6) (imm : BitVec 14) (ext : Option (BitVec 24))
  /-- LD_N8, R120: Loads a byte, zero-extended. -/
  | ldN8 (rd : BitVec 6) (ra : BitVec 6) (imm : BitVec 14) (ext : Option (BitVec 24))
  /-- LD_I16, R120: Loads 16 bits, sign-extended. -/
  | ldI16 (rd : BitVec 6) (ra : BitVec 6) (imm : BitVec 14) (ext : Option (BitVec 24))
  /-- LD_N16, R120: Loads 16 bits, zero-extended. -/
  | ldN16 (rd : BitVec 6) (ra : BitVec 6) (imm : BitVec 14) (ext : Option (BitVec 24))
  /-- LD_I32, R120: Loads 32 bits, sign-extended. -/
  | ldI32 (rd : BitVec 6) (ra : BitVec 6) (imm : BitVec 14) (ext : Option (BitVec 24))
  /-- LD_N32, R120: Loads 32 bits, zero-extended. -/
  | ldN32 (rd : BitVec 6) (ra : BitVec 6) (imm : BitVec 14) (ext : Option (BitVec 24))
  /-- LD_64, R120: Loads 64 bits. -/
  | ld64 (rd : BitVec 6) (ra : BitVec 6) (imm : BitVec 14) (ext : Option (BitVec 24))
  /-- ST_8, R120: Stores the low byte of xs. -/
  | st8 (rs : BitVec 6) (ra : BitVec 6) (imm : BitVec 14) (ext : Option (BitVec 24))
  /-- ST_16, R120: Stores the low 16 bits of xs. -/
  | st16 (rs : BitVec 6) (ra : BitVec 6) (imm : BitVec 14) (ext : Option (BitVec 24))
  /-- ST_32, R120: Stores the low 32 bits of xs. -/
  | st32 (rs : BitVec 6) (ra : BitVec 6) (imm : BitVec 14) (ext : Option (BitVec 24))
  /-- ST_64, R120: Stores all 64 bits of xs. -/
  | st64 (rs : BitVec 6) (ra : BitVec 6) (imm : BitVec 14) (ext : Option (BitVec 24))
  /-- BEQ, R123: Branches when xa equals xb. -/
  | beq (ra : BitVec 6) (rb : BitVec 6) (off : BitVec 14) (ext : Option (BitVec 24))
  /-- BNE, R123: Branches when xa differs from xb. -/
  | bne (ra : BitVec 6) (rb : BitVec 6) (off : BitVec 14) (ext : Option (BitVec 24))
  /-- BLT, R123: Branches when xa < xb signed. -/
  | blt (ra : BitVec 6) (rb : BitVec 6) (off : BitVec 14) (ext : Option (BitVec 24))
  /-- BGE, R123: Branches when xa >= xb signed. -/
  | bge (ra : BitVec 6) (rb : BitVec 6) (off : BitVec 14) (ext : Option (BitVec 24))
  /-- BLTN, R123: Branches when xa < xb unsigned. -/
  | bltn (ra : BitVec 6) (rb : BitVec 6) (off : BitVec 14) (ext : Option (BitVec 24))
  /-- BGEN, R123: Branches when xa >= xb unsigned. -/
  | bgen (ra : BitVec 6) (rb : BitVec 6) (off : BitVec 14) (ext : Option (BitVec 24))
  /-- J, R124: Jumps to A + 4*sext(off26). -/
  | j (off : BitVec 26) (ext : Option (BitVec 24))
  /-- JAL, R124: Jumps to A + 4*sext(off26) and links in x1. -/
  | jal (off : BitVec 26) (ext : Option (BitVec 24))
  /-- JALR, R124: Jumps to xa + imm, linking A + 4 in xd; misaligned target faults. -/
  | jalr (rd : BitVec 6) (ra : BitVec 6) (imm : BitVec 14) (ext : Option (BitVec 24))
  /-- CSR_RD, R130: Reads a CSR into xd. -/
  | csrRd (rd : BitVec 6) (csr : BitVec 12)
  /-- CSR_WR, R130: Exchanges a CSR with xa. -/
  | csrWr (rd : BitVec 6) (ra : BitVec 6) (csr : BitVec 12)
  /-- CSR_OR, R130: Sets CSR bits that are 1 in xa, returning the old value. -/
  | csrOr (rd : BitVec 6) (ra : BitVec 6) (csr : BitVec 12)
  /-- CSR_ANDN, R130: Clears CSR bits that are 1 in xa, returning the old value. -/
  | csrAndn (rd : BitVec 6) (ra : BitVec 6) (csr : BitVec 12)
  /-- TRAP, R134: Raises a software trap with number n. -/
  | trap (n : BitVec 6)
  /-- ACQ_CORE, R267: Acquire on a sync object at core scope. -/
  | acqCore (ra : BitVec 6)
  /-- ACQ_CLUSTER, R267: Acquire on a sync object at cluster scope. -/
  | acqCluster (ra : BitVec 6)
  /-- ACQ_DIE, R267: Acquire on a sync object at die scope. -/
  | acqDie (ra : BitVec 6)
  /-- ACQ_DEVICE, R267: Acquire on a sync object at device scope. -/
  | acqDevice (ra : BitVec 6)
  /-- ACQ_LAUNCH, R267: Acquire on a sync object at launch scope. -/
  | acqLaunch (ra : BitVec 6)
  /-- REL_CORE, R266: Release on a sync object at core scope. -/
  | relCore (ra : BitVec 6)
  /-- REL_CLUSTER, R266: Release on a sync object at cluster scope. -/
  | relCluster (ra : BitVec 6)
  /-- REL_DIE, R266: Release on a sync object at die scope. -/
  | relDie (ra : BitVec 6)
  /-- REL_DEVICE, R266: Release on a sync object at device scope. -/
  | relDevice (ra : BitVec 6)
  /-- REL_LAUNCH, R266: Release at launch scope, also flushing reduction windows. -/
  | relLaunch (ra : BitVec 6)
  /-- QFENCE, R134: CTL waits until earlier words of the named queues have completed. -/
  | qfence (m : BitVec 7)
  /-- AADD, R273: Returning atomic add at the home port. -/
  | aadd (rd : BitVec 6) (ra : BitVec 6) (rb : BitVec 6) (t : AType)
  /-- AAND, R273: Returning atomic AND. -/
  | aand (rd : BitVec 6) (ra : BitVec 6) (rb : BitVec 6) (t : AType)
  /-- AOR, R273: Returning atomic OR. -/
  | aor (rd : BitVec 6) (ra : BitVec 6) (rb : BitVec 6) (t : AType)
  /-- AXOR, R273: Returning atomic XOR. -/
  | axor (rd : BitVec 6) (ra : BitVec 6) (rb : BitVec 6) (t : AType)
  /-- AMIN, R273: Returning atomic minimum. -/
  | amin (rd : BitVec 6) (ra : BitVec 6) (rb : BitVec 6) (t : AType)
  /-- AMAX, R273: Returning atomic maximum. -/
  | amax (rd : BitVec 6) (ra : BitVec 6) (rb : BitVec 6) (t : AType)
  /-- ASWAP, R273: Returning atomic swap. -/
  | aswap (rd : BitVec 6) (ra : BitVec 6) (rb : BitVec 6) (t : AType)
  /-- ACAS, R273: Returning atomic compare-and-swap with compare value in xd. -/
  | acas (rd : BitVec 6) (ra : BitVec 6) (rb : BitVec 6) (t : AType)
  /-- ARED_ADD, R273: No-return atomic add, performed later at the home port or window engine. -/
  | aredAdd (ra : BitVec 6) (rb : BitVec 6) (t : AType)
  /-- ARED_AND, R273: No-return atomic AND. -/
  | aredAnd (ra : BitVec 6) (rb : BitVec 6) (t : AType)
  /-- ARED_OR, R273: No-return atomic OR. -/
  | aredOr (ra : BitVec 6) (rb : BitVec 6) (t : AType)
  /-- ARED_XOR, R273: No-return atomic XOR. -/
  | aredXor (ra : BitVec 6) (rb : BitVec 6) (t : AType)
  /-- ARED_MIN, R273: No-return atomic minimum. -/
  | aredMin (ra : BitVec 6) (rb : BitVec 6) (t : AType)
  /-- ARED_MAX, R273: No-return atomic maximum. -/
  | aredMax (ra : BitVec 6) (rb : BitVec 6) (t : AType)
  /-- TOK_PUSH, R106: Pushes a token into FIFO f. -/
  | tokPush (f : BitVec 2)
  /-- TOK_POP, R106: Waits for and pops a token of FIFO f. -/
  | tokPop (f : BitVec 2)
  /-- TOK_READ, R106: Reads the count of FIFO f. -/
  | tokRead (rd : BitVec 6) (f : BitVec 2)
  /-- EV_WAIT, R106: Waits until the event queue holds a record, returning the count. -/
  | evWait (rd : BitVec 6)
  /-- EV_POP, R106: Removes the oldest event record into an even register pair. -/
  | evPop (rd : BitVec 6)
  /-- EV_COUNT, R106: Returns the number of event records. -/
  | evCount (rd : BitVec 6)
  /-- FRAME, R106: Reads the 48-bit frame counter. -/
  | frame (rd : BitVec 6)
  /-- TBL_LOAD, R142: Loads a table into the control store and sets its directory entry. -/
  | tblLoad (n : BitVec 6) (ra : BitVec 6) (rb : BitVec 6)
  /-- TBL_RUN, R145: Starts a run of table n, taking stream versions and slot copies. -/
  | tblRun (n : BitVec 6) (ra : BitVec 6)
  /-- TBL_STOP, R146: Ends the active run at the end of its current iteration. -/
  | tblStop (n : BitVec 6)
  /-- TBL_REBASE, R143: Sets the offset of an idle loaded table. -/
  | tblRebase (n : BitVec 6) (ra : BitVec 6)
  /-- TBL_PARAM, R144: Writes parameter slot Pk. -/
  | tblParam (k : BitVec 2) (ra : BitVec 6)
  /-- TBL_WAIT, R147: Waits until the latest run of table n is finished. -/
  | tblWait (n : BitVec 6)
  /-- ZSET_BASE, R64: Writes word 0 of a stream descriptor. -/
  | zsetBase (z : BitVec 4) (ra : BitVec 6)
  /-- ZSET_STRIDE, R64: Writes word 1 of a stream descriptor. -/
  | zsetStride (z : BitVec 4) (ra : BitVec 6)
  /-- ZSET_COUNT, R64: Writes word 2 of a stream descriptor. -/
  | zsetCount (z : BitVec 4) (ra : BitVec 6)
  /-- ZSET_FMT, R63: Writes word 3 of a stream descriptor, checking format rules. -/
  | zsetFmt (z : BitVec 4) (ra : BitVec 6)
  /-- ZSET_SCALE, R64: Writes word 4 of a stream descriptor. -/
  | zsetScale (z : BitVec 4) (ra : BitVec 6)
  /-- ZSET_RING, R64: Writes word 5 of a stream descriptor. -/
  | zsetRing (z : BitVec 4) (ra : BitVec 6)
  /-- ZSET_ADV, R64: Writes word 6 of a stream descriptor. -/
  | zsetAdv (z : BitVec 4) (ra : BitVec 6)
  /-- ZGET, R65: Reads word k of the newest version of a stream descriptor. -/
  | zget (rd : BitVec 6) (z : BitVec 4) (k : BitVec 3)
  /-- TXOPEN, R291: Opens a step transaction from an opening record. -/
  | txopen (ra : BitVec 6)
  /-- TXLOSS, R293: Folds a loss into the vote and flags a spike. -/
  | txloss (ra : BitVec 6)
  /-- TXWAIT, R296: Waits for the outcome and returns TXOUT, moving to idle. -/
  | txwait (rd : BitVec 6)
  /-- TXRD, R296: Reads a transaction register, or fetches and advances a cursor. -/
  | txrd (rd : BitVec 6) (k : BitVec 4)
  /-- RNGK, R296: Writes the generator key TXK. -/
  | rngk (ra : BitVec 6)
  /-- RNGN, R296: Writes the generator counter TXN. -/
  | rngn (ra : BitVec 6)
  /-- DOM_SET, R348: Writes the DOM register. -/
  | domSet (ra : BitVec 6)
  /-- DOM_GET, R348: Reads the DOM register. -/
  | domGet (rd : BitVec 6)
  /-- COLL_RED, R325: Exact reduction of every member's stream delivered to every member. -/
  | collRed (ra : BitVec 6) (rb : BitVec 6)
  /-- COLL_BCAST, R325: Broadcast of the root's stream to every member. -/
  | collBcast (ra : BitVec 6) (rb : BitVec 6)
  /-- COLL_GATH, R325: Gather of every member's stream at the root. -/
  | collGath (ra : BitVec 6) (rb : BitVec 6)
  /-- COLL_NORM, R326: Global norm and clip multiplier written to a mailbox. -/
  | collNorm (ra : BitVec 6) (rb : BitVec 6)
  /-- COLL_EXP, R319: Exponent pass over every chunk, written to the hint array. -/
  | collExp (ra : BitVec 6) (rb : BitVec 6)
  /-- COLL_WAIT, R325: Waits for earlier collectives of a group to be delivered or fail. -/
  | collWait (rd : BitVec 6) (ra : BitVec 6)
  /-- WIN_REG, R328: Registers a reduction window. -/
  | winReg (ra : BitVec 6) (rb : BitVec 6)
  /-- WIN_DROP, R328: Flushes and removes a reduction window. -/
  | winDrop (ra : BitVec 6)
  /-- MBCLR, R327: Clears a mailbox. -/
  | mbclr (k : BitVec 3)
  /-- YWR, R137: Writes a y register from xa. -/
  | ywr (y : BitVec 4) (ra : BitVec 6)
  /-- YRD, R137: Reads a y register into xd. -/
  | yrd (rd : BitVec 6) (y : BitVec 4)
  /-- MBRD, R137: Reads a mailbox into xd. -/
  | mbrd (rd : BitVec 6) (m : BitVec 3)
  /-- CCB_WR, R223: Writes word w of a copy control block. -/
  | ccbWr (k : BitVec 4) (ra : BitVec 6) (w : BitVec 4)
  /-- CCB_RD, R223: Reads word w of a copy control block. -/
  | ccbRd (rd : BitVec 6) (k : BitVec 4) (w : BitVec 4)
  /-- CCB_LD, R223: Loads a copy control block from memory. -/
  | ccbLd (k : BitVec 4) (ra : BitVec 6)
  /-- CCB_ST, R223: Stores a copy control block to memory. -/
  | ccbSt (k : BitVec 4) (ra : BitVec 6)
  /-- SAFEPT, R352: Safe point: when honoured, saves the live state and parks. -/
  | safept (ra : BitVec 6)
  /-- PCHK, R351: Reads the launch's pre-emption request flag. -/
  | pchk (rd : BitVec 6)
  /-- CPY_IN, R228: Copy from memory into the scratchpad. -/
  | cpyIn (e : EngBits) (d : BitVec 4)
  /-- CPY_IN_T, R228: Transposed copy from memory into the scratchpad. -/
  | cpyInT (e : EngBits) (d : BitVec 4)
  /-- CPY_GATH, R228: Copy in with rows taken from an index stream. -/
  | cpyGath (e : EngBits) (d : BitVec 4) (a : BitVec 4)
  /-- CPY_PF, R251: Prefetches lines into L2 and translations into the cluster TLB. -/
  | cpyPf (e : EngBits) (d : BitVec 4)
  /-- GPUSH, R160: Packs a stream into the tail slot of a ring. -/
  | gpush (e : EngBits) (d : BitVec 4) (a : BitVec 4)
  /-- GGATH, R160: Gathers elements by index into the tail slot of a ring. -/
  | ggath (e : EngBits) (d : BitVec 4) (a : BitVec 4) (b : BitVec 4)
  /-- GRESET, R159: Resets a ring's head, tail and count. -/
  | greset (e : EngBits) (d : BitVec 4)
  /-- RECV, R161: Posts a receive landing at a stream's layout. -/
  | recv (e : EngBits) (d : BitVec 4)
  /-- RECV_G, R161: Posts a receive landing in a ring's tail slot. -/
  | recvG (e : EngBits) (d : BitVec 4)
  /-- RECV_M, R161: Posts a receive landing in a mailbox. -/
  | recvM (e : EngBits) (d : BitVec 4)
  /-- WAIT_LD, R100: LD wait word of n beats. -/
  | waitLd (e : EngBits) (n : BitVec 12)
  /-- QFENCE_LD, R271: LD queue fence on the named queues. -/
  | qfenceLd (e : EngBits) (m : BitVec 7)
  /-- MMA, R202: Matrix multiply-accumulate of two ring slots into a tile, popping both rings. -/
  | mma (e : EngBits) (t : BitVec 8) (a : BitVec 4) (b : BitVec 4)
  /-- MMA_KB, R202: Matrix multiply-accumulate keeping the B slot. -/
  | mmaKb (e : EngBits) (t : BitVec 8) (a : BitVec 4) (b : BitVec 4)
  /-- MDRAIN, R206: Drains a tile into a stream with the tile's rounding mode. -/
  | mdrain (e : EngBits) (t : BitVec 8) (z : BitVec 4)
  /-- MZERO, R208: Zeroes every element of a tile. -/
  | mzero (e : EngBits) (t : BitVec 8)
  /-- MTPB_LD, R208: Loads a tile parameter block from a stream. -/
  | mtpbLd (e : EngBits) (t : BitVec 8) (z : BitVec 4)
  /-- MTPB_ST, R208: Stores a tile parameter block to a stream. -/
  | mtpbSt (e : EngBits) (t : BitVec 8) (z : BitVec 4)
  /-- MLSF_TEST, R208: Counts set lost-significance bits into a y register. -/
  | mlsfTest (e : EngBits) (t : BitVec 8) (y : BitVec 4)
  /-- MLSF_RD, R208: Reads the lost-significance mask into a stream. -/
  | mlsfRd (e : EngBits) (t : BitVec 8) (z : BitVec 4)
  /-- MLSF_CLR, R208: Clears the lost-significance mask. -/
  | mlsfClr (e : EngBits) (t : BitVec 8)
  /-- MAUDIT, R208: Reads the AUDIT register into a y register. -/
  | maudit (e : EngBits) (y : BitVec 4)
  /-- VADD, R178: Element-wise a + b. -/
  | vadd (e : EngBits) (d : BitVec 4) (a : BitVec 4) (b : BitVec 4)
  /-- VSUB, R178: Element-wise a - b. -/
  | vsub (e : EngBits) (d : BitVec 4) (a : BitVec 4) (b : BitVec 4)
  /-- VMUL, R178: Element-wise a * b. -/
  | vmul (e : EngBits) (d : BitVec 4) (a : BitVec 4) (b : BitVec 4)
  /-- VFMA, R178: Element-wise a*b + d with one rounding. -/
  | vfma (e : EngBits) (d : BitVec 4) (a : BitVec 4) (b : BitVec 4)
  /-- VMIN, R178: Element-wise minimum. -/
  | vmin (e : EngBits) (d : BitVec 4) (a : BitVec 4) (b : BitVec 4)
  /-- VMAX, R178: Element-wise maximum. -/
  | vmax (e : EngBits) (d : BitVec 4) (a : BitVec 4) (b : BitVec 4)
  /-- VABS, R178: Element-wise absolute value. -/
  | vabs (e : EngBits) (d : BitVec 4) (a : BitVec 4)
  /-- VNEG, R178: Element-wise negation. -/
  | vneg (e : EngBits) (d : BitVec 4) (a : BitVec 4)
  /-- VADD_Y, R178: Adds a y value to every element. -/
  | vaddY (e : EngBits) (d : BitVec 4) (a : BitVec 4) (b : BitVec 4)
  /-- VMUL_Y, R178: Multiplies every element by a y value. -/
  | vmulY (e : EngBits) (d : BitVec 4) (a : BitVec 4) (b : BitVec 4)
  /-- VFMA_Y, R178: a*y + d with one rounding. -/
  | vfmaY (e : EngBits) (d : BitVec 4) (a : BitVec 4) (b : BitVec 4)
  /-- VMUL_M, R178: Multiplies every element by a mailbox value. -/
  | vmulM (e : EngBits) (d : BitVec 4) (a : BitVec 4) (b : BitVec 4)
  /-- VMAX_Y, R178: Maximum of each element and a y value. -/
  | vmaxY (e : EngBits) (d : BitVec 4) (a : BitVec 4) (b : BitVec 4)
  /-- VMIN_Y, R178: Minimum of each element and a y value. -/
  | vminY (e : EngBits) (d : BitVec 4) (a : BitVec 4) (b : BitVec 4)
  /-- VCEQ, R179: Element-wise equality compare. -/
  | vceq (e : EngBits) (d : BitVec 4) (a : BitVec 4) (b : BitVec 4)
  /-- VCNE, R179: Element-wise inequality compare. -/
  | vcne (e : EngBits) (d : BitVec 4) (a : BitVec 4) (b : BitVec 4)
  /-- VCLT, R179: Element-wise less-than compare. -/
  | vclt (e : EngBits) (d : BitVec 4) (a : BitVec 4) (b : BitVec 4)
  /-- VCLE, R179: Element-wise less-or-equal compare. -/
  | vcle (e : EngBits) (d : BitVec 4) (a : BitVec 4) (b : BitVec 4)
  /-- VSEL, R179: Writes b into lanes whose mask is nonzero. -/
  | vsel (e : EngBits) (d : BitVec 4) (a : BitVec 4) (b : BitVec 4)
  /-- VAND, R179: Element-wise bitwise AND. -/
  | vand (e : EngBits) (d : BitVec 4) (a : BitVec 4) (b : BitVec 4)
  /-- VOR, R179: Element-wise bitwise OR. -/
  | vor (e : EngBits) (d : BitVec 4) (a : BitVec 4) (b : BitVec 4)
  /-- VXOR, R179: Element-wise bitwise XOR. -/
  | vxor (e : EngBits) (d : BitVec 4) (a : BitVec 4) (b : BitVec 4)
  /-- VNOT, R179: Element-wise bitwise complement. -/
  | vnot (e : EngBits) (d : BitVec 4) (a : BitVec 4)
  /-- VSHL, R179: Element-wise left shift by a y amount. -/
  | vshl (e : EngBits) (d : BitVec 4) (a : BitVec 4) (b : BitVec 4)
  /-- VSHR, R179: Element-wise logical right shift by a y amount. -/
  | vshr (e : EngBits) (d : BitVec 4) (a : BitVec 4) (b : BitVec 4)
  /-- VSRA, R179: Element-wise arithmetic right shift by a y amount. -/
  | vsra (e : EngBits) (d : BitVec 4) (a : BitVec 4) (b : BitVec 4)
  /-- VADDSAT, R179: Saturating integer add. -/
  | vaddsat (e : EngBits) (d : BitVec 4) (a : BitVec 4) (b : BitVec 4)
  /-- VSUBSAT, R179: Saturating integer subtract. -/
  | vsubsat (e : EngBits) (d : BitVec 4) (a : BitVec 4) (b : BitVec 4)
  /-- VMULHI, R179: High half of the exact integer product. -/
  | vmulhi (e : EngBits) (d : BitVec 4) (a : BitVec 4) (b : BitVec 4)
  /-- VCLASS, R179: Writes the class code of each element. -/
  | vclass (e : EngBits) (d : BitVec 4) (a : BitVec 4)
  /-- VCVT, R180: Converts each element between formats. -/
  | vcvt (e : EngBits) (d : BitVec 4) (a : BitVec 4)
  /-- VMOV, R181: Copies element codes without decoding. -/
  | vmov (e : EngBits) (d : BitVec 4) (a : BitVec 4)
  /-- VFILL_Y, R182: Fills a stream with a y value. -/
  | vfillY (e : EngBits) (d : BitVec 4) (b : BitVec 4)
  /-- VGATH, R183: Gathers elements by index. -/
  | vgath (e : EngBits) (d : BitVec 4) (a : BitVec 4) (b : BitVec 4)
  /-- VSCAT, R183: Scatters elements by index. -/
  | vscat (e : EngBits) (d : BitVec 4) (a : BitVec 4) (b : BitVec 4)
  /-- VRNG, R187: Fills a stream from the counter-based generator. -/
  | vrng (e : EngBits) (d : BitVec 4)
  /-- VDROP, R188: Dropout of a floating stream using the generator. -/
  | vdrop (e : EngBits) (d : BitVec 4) (a : BitVec 4) (b : BitVec 4)
  /-- VSPLIT3, R184: Splits f32 elements into three bf16 terms. -/
  | vsplit3 (e : EngBits) (d : BitVec 4) (a : BitVec 4)
  /-- VIOTA, R182: Writes each element's index. -/
  | viota (e : EngBits) (d : BitVec 4)
  /-- RSUM, R190: Tree sum of a stream into a y register. -/
  | rsum (e : EngBits) (d : BitVec 4) (a : BitVec 4)
  /-- RMAX, R190: Maximum of a stream into a y register. -/
  | rmax (e : EngBits) (d : BitVec 4) (a : BitVec 4)
  /-- RMIN, R190: Minimum of a stream into a y register. -/
  | rmin (e : EngBits) (d : BitVec 4) (a : BitVec 4)
  /-- RSUMSQ, R190: Sum of squares into a y register. -/
  | rsumsq (e : EngBits) (d : BitVec 4) (a : BitVec 4)
  /-- SCAN_SUM, R191: Inclusive prefix sums. -/
  | scanSum (e : EngBits) (d : BitVec 4) (a : BitVec 4)
  /-- SCAN_MAX, R191: Inclusive prefix maxima. -/
  | scanMax (e : EngBits) (d : BitVec 4) (a : BitVec 4)
  /-- RDOT, R190: Dot product of two streams into a y register. -/
  | rdot (e : EngBits) (d : BitVec 4) (a : BitVec 4) (b : BitVec 4)
  /-- RARGMAX, R190: Lowest index of the greatest element. -/
  | rargmax (e : EngBits) (d : BitVec 4) (a : BitVec 4)
  /-- RCNT, R190: Count of nonzero elements. -/
  | rcnt (e : EngBits) (d : BitVec 4) (a : BitVec 4)
  /-- WAIT_CMP, R101: Wait word shared by the four column queues. -/
  | waitCmp (e : EngBits) (n : BitVec 12)
  /-- QFENCE_CMP, R271: Queue fence shared by the four column queues. -/
  | qfenceCmp (e : EngBits) (m : BitVec 7)
  /-- CPY_OUT, R232: Copy from the scratchpad to memory. -/
  | cpyOut (e : EngBits) (d : BitVec 4)
  /-- CPY_SCAT, R228: Copy out with rows taken from an index stream. -/
  | cpyScat (e : EngBits) (d : BitVec 4) (a : BitVec 4)
  /-- STASH, R235: Out-copy writing a plain and a transposed image. -/
  | stash (e : EngBits) (d : BitVec 4)
  /-- CPY_XC, R236: Copy into another virtual core's on-chip map window. -/
  | cpyXc (e : EngBits) (d : BitVec 4)
  /-- SEND, R161: Sends a stream as a message to a peer virtual core. -/
  | send (e : EngBits) (a : BitVec 4)
  /-- SEND_G, R161: Sends a ring's head slot as a message. -/
  | sendG (e : EngBits) (a : BitVec 4)
  /-- EVPOST, R104: Posts an ST progress record to the event queue. -/
  | evpost (e : EngBits)
  /-- WAIT_ST, R100: ST wait word of n beats. -/
  | waitSt (e : EngBits) (n : BitVec 12)
  /-- QFENCE_ST, R271: ST queue fence on the named queues. -/
  | qfenceSt (e : EngBits) (m : BitVec 7)
  /-- TRET, R381: Returns from a handler, applying skip and drop and resuming the cut. -/
  | tret
  /-- HALT, R135: Stops fetch for the virtual core; aborts an open step. -/
  | halt
  /-- FENCE, R136: Waits until earlier CTL accesses are performed and dirty lines have left the FIFO. -/
  | fence
  /-- IFB, R278: Discards the instruction-cache share and fetched words. -/
  | ifb
  /-- TXVOTE, R292: Waits for earlier work, freezes the vote and moves to voted. -/
  | txvote
  /-- TXABORT, R294: Sets the software-abort vote flag and votes at once. -/
  | txabort
  /-- SSTEP_CLUSTER, R349: Barrier at cluster level. -/
  | sstepCluster
  /-- SSTEP_DIE, R349: Barrier at die level. -/
  | sstepDie
  /-- SSTEP_DEVICE, R349: Barrier at device level. -/
  | sstepDevice
  /-- SSTEP_HERD, R349: Barrier at herd level. -/
  | sstepHerd
  /-- SSTEP_JOB, R349: Barrier at job level. -/
  | sstepJob
  /-- YIELD, R353: Runs choose() and sets the request flag if another queue would win. -/
  | yield
  /-- SF_EXP2, R216: Table exp2 on FX. -/
  | sfExp2 (e : EngBits) (d : BitVec 4) (a : BitVec 4)
  /-- SF_LOG2, R216: Table log2 on FX. -/
  | sfLog2 (e : EngBits) (d : BitVec 4) (a : BitVec 4)
  /-- SF_RCP, R216: Table reciprocal on FX. -/
  | sfRcp (e : EngBits) (d : BitVec 4) (a : BitVec 4)
  /-- SF_RSQRT, R216: Table reciprocal square root on FX. -/
  | sfRsqrt (e : EngBits) (d : BitVec 4) (a : BitVec 4)
  /-- SF_SQRT, R216: Table square root on FX. -/
  | sfSqrt (e : EngBits) (d : BitVec 4) (a : BitVec 4)
  /-- SF_SINPI, R216: Table sin(pi x) on FX. -/
  | sfSinpi (e : EngBits) (d : BitVec 4) (a : BitVec 4)
  /-- SF_COSPI, R216: Table cos(pi x) on FX. -/
  | sfCospi (e : EngBits) (d : BitVec 4) (a : BitVec 4)
  /-- SF_TANH, R216: Table tanh on FX. -/
  | sfTanh (e : EngBits) (d : BitVec 4) (a : BitVec 4)
  /-- SF_LOGISTIC, R216: Table logistic on FX. -/
  | sfLogistic (e : EngBits) (d : BitVec 4) (a : BitVec 4)
  /-- EF_EXP2, R218: exp2 on the cluster's exact function unit. -/
  | efExp2 (e : EngBits) (d : BitVec 4) (a : BitVec 4)
  /-- EF_LOG2, R218: log2 on the exact unit. -/
  | efLog2 (e : EngBits) (d : BitVec 4) (a : BitVec 4)
  /-- EF_RCP, R218: Reciprocal on the exact unit. -/
  | efRcp (e : EngBits) (d : BitVec 4) (a : BitVec 4)
  /-- EF_RSQRT, R218: Reciprocal square root on the exact unit. -/
  | efRsqrt (e : EngBits) (d : BitVec 4) (a : BitVec 4)
  /-- EF_SQRT, R218: Square root on the exact unit. -/
  | efSqrt (e : EngBits) (d : BitVec 4) (a : BitVec 4)
  /-- EF_SINPI, R218: sin(pi x) on the exact unit. -/
  | efSinpi (e : EngBits) (d : BitVec 4) (a : BitVec 4)
  /-- EF_COSPI, R218: cos(pi x) on the exact unit. -/
  | efCospi (e : EngBits) (d : BitVec 4) (a : BitVec 4)
  /-- EF_TANH, R218: tanh on the exact unit. -/
  | efTanh (e : EngBits) (d : BitVec 4) (a : BitVec 4)
  /-- EF_LOGISTIC, R218: Logistic on the exact unit. -/
  | efLogistic (e : EngBits) (d : BitVec 4) (a : BitVec 4)
  /-- ATOMIC_HOME_PORT_PERFORM, R275: An atomic or acquire read is performed indivisibly on its granule at the home port. -/
  | atomicHomePortPerform (n : Nat)
  /-- TABLE_ENTRY_PLACE, R145: Entry places the next micro-order of a run into the home engine's queues. -/
  | tableEntryPlace (home : Engine)
  /-- ENGINE_WORD_ROUTE, R86: CTL places an engine word, with its prefixes and stream versions, into its queue. -/
  | engineWordRoute
  /-- OVERRUN, R96: At a Lockstep word's scheduled beat a late word, missing token or behind stamp raises an overrun fault. -/
  | overrun (u : Queue)
  /-- ENGINE_WORD_COMPLETION, R94: An engine word completes: token pushes, ring moves, flags and stream version release. -/
  | engineWordCompletion (id : Nat)
  /-- EVENT_RECORD_HELD_POST, R103: In Elastic, a held record is posted once an entry frees, with its pushes. -/
  | eventRecordHeldPost
  /-- COPY_LINE_LANDING, R231: A copy line lands in the scratchpad, at its timed beat or on arrival. -/
  | copyLineLanding (id : Nat)
  /-- COPY_MEMORY_WRITE_PERFORM, R232: A line of an out-copy is performed at its home port. -/
  | copyMemoryWritePerform (id : Nat)
  /-- MESSAGE_PIECE_LANDING, R163: A 128-byte piece of a message lands at the receiver. -/
  | messagePieceLanding (n : Nat)
  /-- MAP_ACCESS_LANDING, R169: A map access or cpy.xc piece lands on the target virtual core. -/
  | mapAccessLanding (n : Nat)
  /-- TRANSLATION_WALK_COMPLETE, R248: A page walk ends, returning a translation or fault to its waiters. -/
  | translationWalkComplete (va : BitVec 64)
  /-- VERSIONED_ACCESS, R286: An access reaches the version controller, touches its block and picks a slot. -/
  | versionedAccess (acc : VAccess)
  /-- FIRST_WRITE_LINE_COPY, R287: The controller copies a missing line from slot c to the tentative slot. -/
  | firstWriteLineCopy (block : Nat)
  /-- SWEEPER_RESOLVE, R288: The sweeper resolves a block of a closed epoch in the background. -/
  | sweeperResolve (block : Nat)
  /-- DEVICE_VOTE_SEND, R298: The device sends its combined vote into the commit tree. -/
  | deviceVoteSend
  /-- OUTCOME_ARRIVAL, R299: The step outcome arrives: TXOUT, state, restore or commit, epoch closes. -/
  | outcomeArrival (w : BitVec 64)
  /-- DRAIN_ENGINE_TRANSFER, R301: The drain engine sends a block or register record to the buddy. -/
  | drainEngineTransfer
  /-- DRAIN_ACKNOWLEDGE, R301: The buddy confirms the last byte; a completion record is posted. -/
  | drainAcknowledge
  /-- FRAGMENT_ARRIVAL, R309: A fabric fragment arrives and is held, combined or disposed of. -/
  | fragmentArrival (f : Fragment)
  /-- DARN_DECODE, R309: A buffer holding k fragments finishes decoding and becomes Ready. -/
  | darnDecode (n : Nat)
  /-- MESSAGE_DELIVERY, R309: A Ready buffer delivers at its delivery beat and is freed. -/
  | messageDelivery (n : Nat)
  /-- UNRECOVERABLE_LOSS, R311: A buffer or watched chunk misses its deadline and faults. -/
  | unrecoverableLoss (n : Nat)
  /-- COLLECTIVE_SOURCE_READ, R325: A collective reads its source pieces from its stamp beat and contributes. -/
  | collectiveSourceRead (n : Nat)
  /-- COLLECTIVE_DELIVERY, R325: A collective's result lands, mailbox written and record posted. -/
  | collectiveDelivery (n : Nat)
  /-- WINDOW_FLUSH_APPLY, R329: The home applies a darned window flush in one write. -/
  | windowFlushApply (n : Nat)
  /-- OPENING_ALIGNMENT_BARRIER, R347: The opening barrier releases: frame counters, L and credits reset. -/
  | openingAlignmentBarrier
  /-- BARRIER_RELEASE, R349: A domain barrier instance releases at B or when all arrive, toggling phase. -/
  | barrierRelease (level : Level)
  /-- QUEUE_TAIL_WRITE, R332: A host tail write is checked and advances a work queue's tail. -/
  | queueTailWrite (fn : BitVec 5) (q : BitVec 15) (v : BitVec 32)
  /-- QUANTUM_END, R338: A quantum of 2^18 beats ends and triggers a decision. -/
  | quantumEnd
  /-- SCHEDULER_DECISION, R339: The scheduler chooses a queue by stride and may request pre-emption. -/
  | schedulerDecision
  /-- LAUNCH_DISPATCH, R335: A slot is read, checked and its virtual cores started or resumed. -/
  | launchDispatch (q : BitVec 15)
  /-- LAUNCH_PACKET_RECEIVE, R344: A device appends a received herd launch record to its queue. -/
  | launchPacketReceive (q : BitVec 15) (words : List (BitVec 64))
  /-- LAUNCH_COMPLETION, R336: A finished launch writes its completion record and advances progress. -/
  | launchCompletion
  /-- PREEMPTION_REQUEST, R351: The launch's request flag is set and the deadline starts. -/
  | preemptionRequest
  /-- FORCED_SAVE, R385: At deadline Z the launch is frozen and its whole context saved. -/
  | forcedSave
  /-- TRAP_ENTRY, R374: Once a stop forms the trap is entered and the frame written. -/
  | trapEntry
  /-- COLLIE_COMPARE, R389: The Collie re-executes an instruction 3 beats later and compares its effects. -/
  | collieCompare (bad : Option (BitVec 4))
  /-- STRETCH_CHANGE, R110: The power manager applies a new clock stretch to a die. -/
  | stretchChange (die : BitVec 2) (k : BitVec 5)
  /-- STRETCH_FORCED, R110: A deferred stretch times out after 65,536 beats and is applied with faults. -/
  | stretchForced (die : BitVec 2)
  /-- CHARGE_ENTRY, R359: A metered charge enters its account. -/
  | chargeEntry
  /-- ACCOUNTING_INTERVAL_END, R364: Shared refresh, leakage and port-idle totals are split over bound VFs. -/
  | accountingIntervalEnd (ref : Nat) (leak : Nat) (pidle : Nat)
  /-- COEFFICIENT_SET_EFFECT, R363: A new coefficient set takes effect on a partition with no open epoch. -/
  | coefficientSetEffect
  /-- BREAKPOINT_HIT, R403: An entry matching a breakpoint reaches its head or retires. -/
  | breakpointHit (n : BitVec 3)
  /-- TRACE_STOP, R399: Cycle trace recording stops after its beat count. -/
  | traceStop (die : BitVec 2)
  /-- DEBUG_RESUME, R404: A write to RESUME ends a debug stop. -/
  | debugResume (fn : BitVec 5)
  /-- TRCTL_WRITE, R399: Write of the trace control register selecting cluster and mode. -/
  | trctlWrite (fn : BitVec 5) (die : BitVec 2) (v : BitVec 64)
  /-- TLBINV_PARTITION, R252: TLBINV kind 0 drops every translation of the partition. -/
  | tlbinvPartition (fn : BitVec 5) (v : BitVec 64)
  /-- TLBINV_PAGE, R252: TLBINV kind 1 drops every entry translating vpage. -/
  | tlbinvPage (fn : BitVec 5) (v : BitVec 64)
  /-- TLBINV_DONE, R252: The in-flight walks finish and busy returns to 0. -/
  | tlbinvDone
  /-- HMASK_WRITE, R241: Checked write of a hash mask; the memory behind it counts as scrubbed. -/
  | hmaskWrite (fn : BitVec 5) (n : BitVec 4) (v : BitVec 64)
  /-- PLAYOUT_WRITE, R354: Changes the partition layout, tearing down and recreating partitions. -/
  | playoutWrite (fn : BitVec 5) (v : BitVec 64)
  /-- PCTL_BIND, R356: Binds an idle partition to its VF. -/
  | pctlBind (fn : BitVec 5) (q : BitVec 4) (v : BitVec 64)
  /-- PCTL_UNBIND, R356: Unbinds a partition with no running or saved launch. -/
  | pctlUnbind (fn : BitVec 5) (q : BitVec 4) (v : BitVec 64)
  /-- PCTL_RESET, R357: Starts a function-level reset: stop, halt and drain. -/
  | pctlReset (fn : BitVec 5) (q : BitVec 4) (v : BitVec 64)
  /-- FUNCTION_RESET_COMPLETE, R357: The reset's caches, scrub, queues and control-block steps finish. -/
  | functionResetComplete
  /-- EUSED_CLEAR, R365: A write of zero to EUSED clears the partition's energy sums. -/
  | eusedClear (fn : BitVec 5) (v : BitVec 64)
  /-- COUNTER_CLEAR, R397: A write of zero clears a partition counter. -/
  | counterClear (fn : BitVec 5) (c : Counter) (v : BitVec 64)
  /-- REGISTER_WRITE, R241: Checked control-link write of a register with no behaviour of its own. -/
  | registerWrite (fn : BitVec 5) (r : Reg) (v : BitVec 64)
  /-- CONTROL_LINK_MEMORY_WRITE, R406: Writes partition-physical memory over the control link. -/
  | controlLinkMemoryWrite (fn : BitVec 5) (pa : Nat) (data : List (BitVec 8))
  /-- CONTROL_LINK_MEMORY_READ, R406: Reads partition-physical memory over the control link. -/
  | controlLinkMemoryRead (fn : BitVec 5) (pa : Nat) (n : Nat)
  /-- FIRMWARE_IMAGE, R411: The root verifies, measures and installs a signed image. -/
  | firmwareImage (img : Image)
  /-- QUOTE_REQUEST, R412: The root signs a quote over the measurement registers and a nonce. -/
  | quoteRequest (nonce : List (BitVec 8))
  /-- POWER_ON, R412: Power-on boot: monitor, training, coefficient set and scheduler firmware. -/
  | powerOn
  /-- LINK_DOWN, R409: A fabric port link fails and its READY bit clears. -/
  | linkDown (port : BitVec 6)
  /-- MANAGEMENT_RESET_REQUEST, R413: A management-bus reset restarts the device from the boot ROM. -/
  | managementResetRequest
  /-- LINK_UP, R409: A fabric port's link comes up, or comes back after a failure, and its READY1 link-up bit is set so its plane carries fragments again. -/
  | linkUp (port : BitVec 6)
  /-- CORRECTED_ERROR_WINDOW_END, R395: A window of 2^32 reference beats closes, and the per-way corrected-error counts of the L2 slices and CTL caches, and the per-row counts of the scratchpad, start a new window. -/
  | correctedErrorWindowEnd
  deriving DecidableEq, Repr, Inhabited

end Sys2Proof
end

