-- ==== Sys2Proof/WellFormed.lean ====
section
/-! DEFINITION. What the encoding asks of an instruction beyond the widths of its fields: the field-value rules of
02_encoding (R30-R45) and of the chapters that own a group (R106, R200, R131). A word that breaks one is no
instruction. Events have no encoding and are always well formed. -/

namespace Sys2Proof

/-- The CSRs that csr.rd may name (R131). -/
def csrListed (c : BitVec 12) : Bool :=
  [0x000#12, 0x001#12, 0x008#12, 0x010#12, 0x030#12, 0x031#12, 0x032#12, 0x033#12, 0x034#12, 0x035#12, 0x036#12,
   0x040#12, 0x041#12, 0x050#12, 0x060#12].contains c

/-- The CSRs that csr.wr, csr.or and csr.andn may name (R131). -/
def csrWritable (c : BitVec 12) : Bool :=
  [0x000#12, 0x001#12, 0x030#12, 0x031#12, 0x035#12, 0x040#12, 0x050#12].contains c

/-- Bitwise and compare-and-swap atomics take no float type (R45). -/
def AType.isInt : AType → Bool
  | .f32 | .f64 => false
  | _ => true

/-- A stamped word has a zero delay (R36). -/
def EngBits.stampOk (e : EngBits) : Bool := e.stamp.isNone || e.delay == 0

/-- A word that takes no META (R38). -/
def EngBits.plain (e : EngBits) : Bool := e.stampOk && e.metaP.isNone

/-- An MMA: META kind 0 makes it sparse (R38). -/
def EngBits.mmaOk (e : EngBits) : Bool :=
  e.stampOk && (match e.metaP with
                | none => true
                | some m => m.extractLsb' 22 2 == 0)

/-- A copy: META kind 1 names its block image, and its d field is then zero (R38). -/
def EngBits.copyOk (e : EngBits) (d : BitVec 4) : Bool :=
  e.stampOk && (match e.metaP with
                | none => true
                | some m => m.extractLsb' 22 2 == 1 && d == 0)

/-- The checks of one instruction. -/
def Instr.wf : Instr → Bool
  | .add _ _ _ => true
  | .sub _ _ _ => true
  | .and _ _ _ => true
  | .or _ _ _ => true
  | .xor _ _ _ => true
  | .andn _ _ _ => true
  | .sll _ _ _ => true
  | .srl _ _ _ => true
  | .sra _ _ _ => true
  | .rol _ _ _ => true
  | .ror _ _ _ => true
  | .slt _ _ _ => true
  | .sltn _ _ _ => true
  | .min _ _ _ => true
  | .max _ _ _ => true
  | .minn _ _ _ => true
  | .maxn _ _ _ => true
  | .addw _ _ _ => true
  | .subw _ _ _ => true
  | .clz _ _ => true
  | .ctz _ _ => true
  | .popc _ _ => true
  | .bswap _ _ => true
  | .addi _ _ _ _ => true
  | .andi _ _ _ _ => true
  | .ori _ _ _ _ => true
  | .xori _ _ _ _ => true
  | .slli _ _ _ => true
  | .srli _ _ _ => true
  | .srai _ _ _ => true
  | .slti _ _ _ _ => true
  | .lih _ _ _ => true
  | .addpc _ _ _ => true
  | .mul _ _ _ => true
  | .mulh _ _ _ => true
  | .mulhn _ _ _ => true
  | .div _ _ _ => true
  | .divn _ _ _ => true
  | .rem _ _ _ => true
  | .remn _ _ _ => true
  | .fadd _ _ _ _ => true
  | .fsub _ _ _ _ => true
  | .fmul _ _ _ _ => true
  | .fdiv _ _ _ _ => true
  | .fsqrt _ _ _ => true
  | .fmac _ _ _ _ => true
  | .fmin _ _ _ _ => true
  | .fmax _ _ _ _ => true
  | .fceq _ _ _ _ => true
  | .fclt _ _ _ _ => true
  | .fcle _ _ _ _ => true
  | .fclass _ _ _ => true
  | .fabs _ _ _ => true
  | .fneg _ _ _ => true
  | .fcpys _ _ _ _ => true
  | .fcvtI64T _ _ _ => true
  | .fcvtN64T _ _ _ => true
  | .fcvtTI64 _ _ _ => true
  | .fcvtTN64 _ _ _ => true
  | .fcvtF64F32 _ _ => true
  | .fcvtF32F64 _ _ => true
  | .ldI8 _ _ _ _ => true
  | .ldN8 _ _ _ _ => true
  | .ldI16 _ _ _ _ => true
  | .ldN16 _ _ _ _ => true
  | .ldI32 _ _ _ _ => true
  | .ldN32 _ _ _ _ => true
  | .ld64 _ _ _ _ => true
  | .st8 _ _ _ _ => true
  | .st16 _ _ _ _ => true
  | .st32 _ _ _ _ => true
  | .st64 _ _ _ _ => true
  | .beq _ _ _ _ => true
  | .bne _ _ _ _ => true
  | .blt _ _ _ _ => true
  | .bge _ _ _ _ => true
  | .bltn _ _ _ _ => true
  | .bgen _ _ _ _ => true
  | .j _ _ => true
  | .jal _ _ => true
  | .jalr _ _ _ _ => true
  | .csrRd _ csr => csrListed csr
  | .csrWr _ _ csr => csrWritable csr
  | .csrOr _ _ csr => csrWritable csr
  | .csrAndn _ _ csr => csrWritable csr
  | .trap _ => true
  | .acqCore _ => true
  | .acqCluster _ => true
  | .acqDie _ => true
  | .acqDevice _ => true
  | .acqLaunch _ => true
  | .relCore _ => true
  | .relCluster _ => true
  | .relDie _ => true
  | .relDevice _ => true
  | .relLaunch _ => true
  | .qfence m => m != 0
  | .aadd _ _ _ _ => true
  | .aand _ _ _ t => t.isInt
  | .aor _ _ _ t => t.isInt
  | .axor _ _ _ t => t.isInt
  | .amin _ _ _ _ => true
  | .amax _ _ _ _ => true
  | .aswap _ _ _ _ => true
  | .acas _ _ _ t => t.isInt
  | .aredAdd _ _ _ => true
  | .aredAnd _ _ t => t.isInt
  | .aredOr _ _ t => t.isInt
  | .aredXor _ _ t => t.isInt
  | .aredMin _ _ _ => true
  | .aredMax _ _ _ => true
  | .tokPush _ => true
  | .tokPop _ => true
  | .tokRead _ _ => true
  | .evWait _ => true
  | .evPop rd => !rd.getLsbD 0
  | .evCount _ => true
  | .frame _ => true
  | .tblLoad _ _ _ => true
  | .tblRun _ _ => true
  | .tblStop _ => true
  | .tblRebase _ _ => true
  | .tblParam _ _ => true
  | .tblWait _ => true
  | .zsetBase _ _ => true
  | .zsetStride _ _ => true
  | .zsetCount _ _ => true
  | .zsetFmt _ _ => true
  | .zsetScale _ _ => true
  | .zsetRing _ _ => true
  | .zsetAdv _ _ => true
  | .zget _ _ k => k != 7
  | .txopen _ => true
  | .txloss _ => true
  | .txwait _ => true
  | .txrd _ k => decide (k.toNat < 14)
  | .rngk _ => true
  | .rngn _ => true
  | .domSet _ => true
  | .domGet _ => true
  | .collRed _ _ => true
  | .collBcast _ _ => true
  | .collGath _ _ => true
  | .collNorm _ _ => true
  | .collExp _ _ => true
  | .collWait _ _ => true
  | .winReg _ _ => true
  | .winDrop _ => true
  | .mbclr _ => true
  | .ywr _ _ => true
  | .yrd _ _ => true
  | .mbrd _ _ => true
  | .ccbWr _ _ _ => true
  | .ccbRd _ _ _ => true
  | .ccbLd _ _ => true
  | .ccbSt _ _ => true
  | .safept _ => true
  | .pchk _ => true
  | .cpyIn e d => e.copyOk d
  | .cpyInT e d => e.copyOk d
  | .cpyGath e d _ => e.copyOk d
  | .cpyPf e d => e.copyOk d
  | .gpush e _ _ => e.plain
  | .ggath e _ _ _ => e.plain
  | .greset e _ => e.plain
  | .recv e _ => e.plain
  | .recvG e _ => e.plain
  | .recvM e d => e.plain && decide (d.toNat < 8)
  | .waitLd e _ => e.plain
  | .qfenceLd e m => e.plain && m != 0
  | .mma e _ a b => e.mmaOk && a != b
  | .mmaKb e _ a b => e.mmaOk && a != b
  | .mdrain e _ _ => e.plain
  | .mzero e _ => e.plain
  | .mtpbLd e _ _ => e.plain
  | .mtpbSt e _ _ => e.plain
  | .mlsfTest e _ _ => e.plain
  | .mlsfRd e _ _ => e.plain
  | .mlsfClr e _ => e.plain
  | .maudit e _ => e.plain
  | .vadd e _ _ _ => e.plain
  | .vsub e _ _ _ => e.plain
  | .vmul e _ _ _ => e.plain
  | .vfma e _ _ _ => e.plain
  | .vmin e _ _ _ => e.plain
  | .vmax e _ _ _ => e.plain
  | .vabs e _ _ => e.plain
  | .vneg e _ _ => e.plain
  | .vaddY e _ _ _ => e.plain
  | .vmulY e _ _ _ => e.plain
  | .vfmaY e _ _ _ => e.plain
  | .vmulM e _ _ b => e.plain && decide (b.toNat < 8)
  | .vmaxY e _ _ _ => e.plain
  | .vminY e _ _ _ => e.plain
  | .vceq e _ _ _ => e.plain
  | .vcne e _ _ _ => e.plain
  | .vclt e _ _ _ => e.plain
  | .vcle e _ _ _ => e.plain
  | .vsel e _ _ _ => e.plain
  | .vand e _ _ _ => e.plain
  | .vor e _ _ _ => e.plain
  | .vxor e _ _ _ => e.plain
  | .vnot e _ _ => e.plain
  | .vshl e _ _ _ => e.plain
  | .vshr e _ _ _ => e.plain
  | .vsra e _ _ _ => e.plain
  | .vaddsat e _ _ _ => e.plain
  | .vsubsat e _ _ _ => e.plain
  | .vmulhi e _ _ _ => e.plain
  | .vclass e _ _ => e.plain
  | .vcvt e _ _ => e.plain
  | .vmov e _ _ => e.plain
  | .vfillY e _ _ => e.plain
  | .vgath e _ _ _ => e.plain
  | .vscat e _ _ _ => e.plain
  | .vrng e _ => e.plain
  | .vdrop e _ _ _ => e.plain
  | .vsplit3 e _ _ => e.plain
  | .viota e _ => e.plain
  | .rsum e _ _ => e.plain
  | .rmax e _ _ => e.plain
  | .rmin e _ _ => e.plain
  | .rsumsq e _ _ => e.plain
  | .scanSum e _ _ => e.plain
  | .scanMax e _ _ => e.plain
  | .rdot e _ _ _ => e.plain
  | .rargmax e _ _ => e.plain
  | .rcnt e _ _ => e.plain
  | .waitCmp e _ => e.plain
  | .qfenceCmp e m => e.plain && m != 0
  | .cpyOut e d => e.copyOk d
  | .cpyScat e d _ => e.copyOk d
  | .stash e d => e.copyOk d
  | .cpyXc e d => e.copyOk d
  | .send e _ => e.plain
  | .sendG e _ => e.plain
  | .evpost e => e.plain
  | .waitSt e _ => e.plain
  | .qfenceSt e m => e.plain && m != 0
  | .tret => true
  | .halt => true
  | .fence => true
  | .ifb => true
  | .txvote => true
  | .txabort => true
  | .sstepCluster => true
  | .sstepDie => true
  | .sstepDevice => true
  | .sstepHerd => true
  | .sstepJob => true
  | .yield => true
  | .sfExp2 e _ _ => e.plain
  | .sfLog2 e _ _ => e.plain
  | .sfRcp e _ _ => e.plain
  | .sfRsqrt e _ _ => e.plain
  | .sfSqrt e _ _ => e.plain
  | .sfSinpi e _ _ => e.plain
  | .sfCospi e _ _ => e.plain
  | .sfTanh e _ _ => e.plain
  | .sfLogistic e _ _ => e.plain
  | .efExp2 e _ _ => e.plain
  | .efLog2 e _ _ => e.plain
  | .efRcp e _ _ => e.plain
  | .efRsqrt e _ _ => e.plain
  | .efSqrt e _ _ => e.plain
  | .efSinpi e _ _ => e.plain
  | .efCospi e _ _ => e.plain
  | .efTanh e _ _ => e.plain
  | .efLogistic e _ _ => e.plain
  | .atomicHomePortPerform _ => true
  | .tableEntryPlace _ => true
  | .engineWordRoute => true
  | .overrun _ => true
  | .engineWordCompletion _ => true
  | .eventRecordHeldPost => true
  | .copyLineLanding _ => true
  | .copyMemoryWritePerform _ => true
  | .messagePieceLanding _ => true
  | .mapAccessLanding _ => true
  | .translationWalkComplete _ => true
  | .versionedAccess _ => true
  | .firstWriteLineCopy _ => true
  | .sweeperResolve _ => true
  | .deviceVoteSend => true
  | .outcomeArrival _ => true
  | .drainEngineTransfer => true
  | .drainAcknowledge => true
  | .fragmentArrival _ => true
  | .darnDecode _ => true
  | .messageDelivery _ => true
  | .unrecoverableLoss _ => true
  | .collectiveSourceRead _ => true
  | .collectiveDelivery _ => true
  | .windowFlushApply _ => true
  | .openingAlignmentBarrier => true
  | .barrierRelease _ => true
  | .queueTailWrite _ _ _ => true
  | .quantumEnd => true
  | .schedulerDecision => true
  | .launchDispatch _ => true
  | .launchPacketReceive _ _ => true
  | .launchCompletion => true
  | .preemptionRequest => true
  | .forcedSave => true
  | .trapEntry => true
  | .collieCompare _ => true
  | .stretchChange _ _ => true
  | .stretchForced _ => true
  | .chargeEntry => true
  | .accountingIntervalEnd _ _ _ => true
  | .coefficientSetEffect => true
  | .breakpointHit _ => true
  | .traceStop _ => true
  | .debugResume _ => true
  | .trctlWrite _ _ _ => true
  | .tlbinvPartition _ _ => true
  | .tlbinvPage _ _ => true
  | .tlbinvDone => true
  | .hmaskWrite _ _ _ => true
  | .playoutWrite _ _ => true
  | .pctlBind _ _ _ => true
  | .pctlUnbind _ _ _ => true
  | .pctlReset _ _ _ => true
  | .functionResetComplete => true
  | .eusedClear _ _ => true
  | .counterClear _ _ _ => true
  | .registerWrite _ _ _ => true
  | .controlLinkMemoryWrite _ _ _ => true
  | .controlLinkMemoryRead _ _ _ => true
  | .firmwareImage _ => true
  | .quoteRequest _ => true
  | .powerOn => true
  | .linkDown _ => true
  | .managementResetRequest => true
  | .linkUp _ => true
  | .correctedErrorWindowEnd => true

end Sys2Proof
end

