-- ==== Sys2Proof/Decode.lean ====
section
/-! DEFINITION. Words and instructions (02_encoding): the decoder, total on any bytes and rejecting by name, and after
it the encoder, written from the same tables. -/

namespace Sys2Proof

/-- Why a word is no instruction (R30-R49). Every one is an illegal-instruction fault where R49 says, but
`truncated`, which a fetch never meets. -/
inductive DecodeError where
  | truncated
  | reservedMajor
  | unlistedMinor
  | badField
  | badAtomicType
  | badPrefix
  | illFormed
  deriving DecidableEq, Repr, Inhabited

/-- The prefixes before a word (R34), each at most once (R39). -/
structure Prefixes where
  imm   : Option (BitVec 24)
  stamp : Option (BitVec 24)
  param : Option (BitVec 24)
  metaP : Option (BitVec 24)
  deriving DecidableEq, Repr, Inhabited

/-- No prefix. -/
def Prefixes.empty : Prefixes := ⟨none, none, none, none⟩

/-! ### Fields of a word -/

/-- The major opcode, bits 31:26 (R27). -/
def majorOf (w : Word32) : BitVec 6 := w.extractLsb' 26 6
/-- Bits 25:20 of a CTL word (R28). -/
def fd (w : Word32) : BitVec 6 := w.extractLsb' 20 6
/-- Bits 19:14 of a CTL word (R28). -/
def fa (w : Word32) : BitVec 6 := w.extractLsb' 14 6
/-- Bits 13:8 of an A-format word (R28). -/
def fb (w : Word32) : BitVec 6 := w.extractLsb' 8 6
/-- The minor of an A-format word (R28). -/
def fm (w : Word32) : BitVec 8 := w.extractLsb' 0 8
/-- Minor bit 7. -/
def fm7 (w : Word32) : Bool := w.getLsbD 7
/-- Minor bits 6:0. -/
def fm60 (w : Word32) : BitVec 7 := w.extractLsb' 0 7
/-- Minor bits 6:4. -/
def fm64 (w : Word32) : BitVec 3 := w.extractLsb' 4 3
/-- Minor bits 3:0. -/
def fm30 (w : Word32) : BitVec 4 := w.extractLsb' 0 4
/-- Minor bits 7:2. -/
def fm72 (w : Word32) : BitVec 6 := w.extractLsb' 2 6
/-- Minor bits 1:0. -/
def fm10 (w : Word32) : BitVec 2 := w.extractLsb' 0 2
/-- imm14 and off14 (R28). -/
def fi (w : Word32) : BitVec 14 := w.extractLsb' 0 14
/-- imm20 (R28). -/
def fu (w : Word32) : BitVec 20 := w.extractLsb' 0 20
/-- off26 (R28). -/
def fj (w : Word32) : BitVec 26 := w.extractLsb' 0 26
/-- An engine word's minor, bits 16:12 (R31). -/
def emin (w : Word32) : BitVec 5 := w.extractLsb' 12 5
/-- An engine word's d (R31). -/
def ed (w : Word32) : BitVec 4 := w.extractLsb' 8 4
/-- An engine word's a (R31). -/
def ea (w : Word32) : BitVec 4 := w.extractLsb' 4 4
/-- An engine word's b (R31). -/
def eb (w : Word32) : BitVec 4 := w.extractLsb' 0 4
/-- The 12-bit count d:a:b of a wait word (R47). -/
def en (w : Word32) : BitVec 12 := w.extractLsb' 0 12
/-- The tile of a matrix misc word, bits 11:4 (R32). -/
def et (w : Word32) : BitVec 8 := w.extractLsb' 4 8
/-- An engine word's delay, bits 21:17 (R31). -/
def edelay (w : Word32) : BitVec 5 := w.extractLsb' 17 5

/-- The token bits and delay of an engine word, with the prefixes that stand before it (R31, R36, R38). -/
def engBits (p : Prefixes) (w : Word32) : EngBits :=
  { popP := w.getLsbD 25, popN := w.getLsbD 24, pushP := w.getLsbD 23, pushN := w.getLsbD 22,
    delay := edelay w, stamp := p.stamp, metaP := p.metaP }

/-- The type of an atomic from minor bits 6:4 (R45). -/
def AType.ofBits (t : BitVec 3) : Option AType :=
  match t.toNat with
  | 0 => some .i32
  | 1 => some .n32
  | 2 => some .i64
  | 3 => some .n64
  | 4 => some .f32
  | 5 => some .f64
  | _ => none

/-- Minor bits 6:4 of an atomic of this type (R45). -/
def AType.bits : AType → BitVec 3
  | .i32 => 0 | .n32 => 1 | .i64 => 2 | .n64 => 3 | .f32 => 4 | .f64 => 5

/-- Go on when `c` holds, else reject with `e`. -/
def guardErr (c : Bool) (e : DecodeError) (k : Except DecodeError Instr) : Except DecodeError Instr :=
  if c then k else .error e

/-- The instruction when its field checks hold (R30, R33), else the rejection of its fields. -/
def guardField (c : Bool) (i : Instr) : Except DecodeError Instr := if c then .ok i else .error .badField

/-! ### Words by major -/

/-- Major 0x01 (A format) by its minor. -/
def decodeAlu (w : Word32) : Except DecodeError Instr :=
  match (fm w).toNat with
  | 0 => .ok (.add (fd w) (fa w) (fb w))
  | 1 => .ok (.sub (fd w) (fa w) (fb w))
  | 2 => .ok (.and (fd w) (fa w) (fb w))
  | 3 => .ok (.or (fd w) (fa w) (fb w))
  | 4 => .ok (.xor (fd w) (fa w) (fb w))
  | 5 => .ok (.andn (fd w) (fa w) (fb w))
  | 6 => .ok (.sll (fd w) (fa w) (fb w))
  | 7 => .ok (.srl (fd w) (fa w) (fb w))
  | 8 => .ok (.sra (fd w) (fa w) (fb w))
  | 9 => .ok (.rol (fd w) (fa w) (fb w))
  | 10 => .ok (.ror (fd w) (fa w) (fb w))
  | 11 => .ok (.slt (fd w) (fa w) (fb w))
  | 12 => .ok (.sltn (fd w) (fa w) (fb w))
  | 13 => .ok (.min (fd w) (fa w) (fb w))
  | 14 => .ok (.max (fd w) (fa w) (fb w))
  | 15 => .ok (.minn (fd w) (fa w) (fb w))
  | 16 => .ok (.maxn (fd w) (fa w) (fb w))
  | 17 => .ok (.addw (fd w) (fa w) (fb w))
  | 18 => .ok (.subw (fd w) (fa w) (fb w))
  | 19 => guardField (fb w == 0) (.clz (fd w) (fa w))
  | 20 => guardField (fb w == 0) (.ctz (fd w) (fa w))
  | 21 => guardField (fb w == 0) (.popc (fd w) (fa w))
  | 22 => guardField (fb w == 0) (.bswap (fd w) (fa w))
  | _ => .error .unlistedMinor

/-- Major 0x0A (A format) by its minor. -/
def decodeMulDiv (w : Word32) : Except DecodeError Instr :=
  match (fm w).toNat with
  | 0 => .ok (.mul (fd w) (fa w) (fb w))
  | 1 => .ok (.mulh (fd w) (fa w) (fb w))
  | 2 => .ok (.mulhn (fd w) (fa w) (fb w))
  | 3 => .ok (.div (fd w) (fa w) (fb w))
  | 4 => .ok (.divn (fd w) (fa w) (fb w))
  | 5 => .ok (.rem (fd w) (fa w) (fb w))
  | 6 => .ok (.remn (fd w) (fa w) (fb w))
  | _ => .error .unlistedMinor

/-- Major 0x25 (A format) by its minor. -/
def decodeTables (w : Word32) : Except DecodeError Instr :=
  match (fm w).toNat with
  | 0 => .ok (.tblLoad (fd w) (fa w) (fb w))
  | 1 => guardField (fb w == 0) (.tblRun (fd w) (fa w))
  | 2 => guardField (fa w == 0 && fb w == 0) (.tblStop (fd w))
  | 3 => guardField (fb w == 0) (.tblRebase (fd w) (fa w))
  | 4 => guardField (decide ((fd w).toNat < 4) && fb w == 0) (.tblParam ((fd w).setWidth 2) (fa w))
  | 5 => guardField (fa w == 0 && fb w == 0) (.tblWait (fd w))
  | _ => .error .unlistedMinor

/-- Major 0x26 (A format) by its minor. -/
def decodeStreams (w : Word32) : Except DecodeError Instr :=
  match (fm w).toNat with
  | 0 => guardField (decide ((fd w).toNat < 16) && fb w == 0) (.zsetBase ((fd w).setWidth 4) (fa w))
  | 1 => guardField (decide ((fd w).toNat < 16) && fb w == 0) (.zsetStride ((fd w).setWidth 4) (fa w))
  | 2 => guardField (decide ((fd w).toNat < 16) && fb w == 0) (.zsetCount ((fd w).setWidth 4) (fa w))
  | 3 => guardField (decide ((fd w).toNat < 16) && fb w == 0) (.zsetFmt ((fd w).setWidth 4) (fa w))
  | 4 => guardField (decide ((fd w).toNat < 16) && fb w == 0) (.zsetScale ((fd w).setWidth 4) (fa w))
  | 5 => guardField (decide ((fd w).toNat < 16) && fb w == 0) (.zsetRing ((fd w).setWidth 4) (fa w))
  | 6 => guardField (decide ((fd w).toNat < 16) && fb w == 0) (.zsetAdv ((fd w).setWidth 4) (fa w))
  | 8 => guardField (decide ((fa w).toNat < 16) && decide ((fb w).toNat < 8)) (.zget (fd w) ((fa w).setWidth 4) ((fb w).setWidth 3))
  | _ => .error .unlistedMinor

/-- Major 0x27 (A format) by its minor. -/
def decodeTx (w : Word32) : Except DecodeError Instr :=
  match (fm w).toNat with
  | 0 => guardField (fd w == 0 && fb w == 0) (.txopen (fa w))
  | 2 => guardField (fd w == 0 && fb w == 0) (.txloss (fa w))
  | 3 => guardField (fa w == 0 && fb w == 0) (.txwait (fd w))
  | 5 => guardField (fa w == 0 && decide ((fb w).toNat < 16)) (.txrd (fd w) ((fb w).setWidth 4))
  | 6 => guardField (fd w == 0 && fb w == 0) (.rngk (fa w))
  | 7 => guardField (fd w == 0 && fb w == 0) (.rngn (fa w))
  | 1 => guardField (fd w == 0 && fa w == 0 && fb w == 0) (.txvote)
  | 4 => guardField (fd w == 0 && fa w == 0 && fb w == 0) (.txabort)
  | _ => .error .unlistedMinor

/-- Major 0x28 (A format) by its minor. -/
def decodeDomains (w : Word32) : Except DecodeError Instr :=
  match (fm w).toNat with
  | 8 => guardField (fd w == 0 && fb w == 0) (.domSet (fa w))
  | 9 => guardField (fa w == 0 && fb w == 0) (.domGet (fd w))
  | 0 => guardField (fd w == 0 && fa w == 0 && fb w == 0) (.sstepCluster)
  | 1 => guardField (fd w == 0 && fa w == 0 && fb w == 0) (.sstepDie)
  | 2 => guardField (fd w == 0 && fa w == 0 && fb w == 0) (.sstepDevice)
  | 3 => guardField (fd w == 0 && fa w == 0 && fb w == 0) (.sstepHerd)
  | 4 => guardField (fd w == 0 && fa w == 0 && fb w == 0) (.sstepJob)
  | _ => .error .unlistedMinor

/-- Major 0x29 (A format) by its minor. -/
def decodeColl (w : Word32) : Except DecodeError Instr :=
  match (fm w).toNat with
  | 0 => guardField (fd w == 0) (.collRed (fa w) (fb w))
  | 1 => guardField (fd w == 0) (.collBcast (fa w) (fb w))
  | 2 => guardField (fd w == 0) (.collGath (fa w) (fb w))
  | 3 => guardField (fd w == 0) (.collNorm (fa w) (fb w))
  | 4 => guardField (fd w == 0) (.collExp (fa w) (fb w))
  | 6 => guardField (fb w == 0) (.collWait (fd w) (fa w))
  | 7 => guardField (fd w == 0) (.winReg (fa w) (fb w))
  | 8 => guardField (fd w == 0 && fb w == 0) (.winDrop (fa w))
  | 9 => guardField (decide ((fd w).toNat < 8) && fa w == 0 && fb w == 0) (.mbclr ((fd w).setWidth 3))
  | _ => .error .unlistedMinor

/-- Major 0x2A (A format) by its minor. -/
def decodeMoves (w : Word32) : Except DecodeError Instr :=
  match (fm w).toNat with
  | 0 => guardField (decide ((fd w).toNat < 16) && fb w == 0) (.ywr ((fd w).setWidth 4) (fa w))
  | 1 => guardField (decide ((fa w).toNat < 16) && fb w == 0) (.yrd (fd w) ((fa w).setWidth 4))
  | 2 => guardField (decide ((fa w).toNat < 8) && fb w == 0) (.mbrd (fd w) ((fa w).setWidth 3))
  | _ => .error .unlistedMinor

/-- Major 0x2B (A format) by its minor. -/
def decodeBlocks (w : Word32) : Except DecodeError Instr :=
  match (fm w).toNat with
  | 0 => guardField (decide ((fd w).toNat < 16) && decide ((fb w).toNat < 16)) (.ccbWr ((fd w).setWidth 4) (fa w) ((fb w).setWidth 4))
  | 1 => guardField (decide ((fa w).toNat < 16) && decide ((fb w).toNat < 16)) (.ccbRd (fd w) ((fa w).setWidth 4) ((fb w).setWidth 4))
  | 2 => guardField (decide ((fd w).toNat < 16) && fb w == 0) (.ccbLd ((fd w).setWidth 4) (fa w))
  | 3 => guardField (decide ((fd w).toNat < 16) && fb w == 0) (.ccbSt ((fd w).setWidth 4) (fa w))
  | _ => .error .unlistedMinor

/-- Major 0x2C (A format) by its minor. -/
def decodeSafe (w : Word32) : Except DecodeError Instr :=
  match (fm w).toNat with
  | 0 => guardField (fd w == 0 && fb w == 0) (.safept (fa w))
  | 2 => guardField (fa w == 0 && fb w == 0) (.pchk (fd w))
  | 1 => guardField (fd w == 0 && fa w == 0 && fb w == 0) (.yield)
  | _ => .error .unlistedMinor

/-- Major 0x0B: minor bit 7 is the precision, bits 6:0 the operation (R43). -/
def decodeFloat (w : Word32) : Except DecodeError Instr :=
  match (fm60 w).toNat with
  | 0 => .ok (.fadd (fd w) (fa w) (fb w) (fm7 w))
  | 1 => .ok (.fsub (fd w) (fa w) (fb w) (fm7 w))
  | 2 => .ok (.fmul (fd w) (fa w) (fb w) (fm7 w))
  | 3 => .ok (.fdiv (fd w) (fa w) (fb w) (fm7 w))
  | 4 => guardField (fb w == 0) (.fsqrt (fd w) (fa w) (fm7 w))
  | 5 => .ok (.fmac (fd w) (fa w) (fb w) (fm7 w))
  | 6 => .ok (.fmin (fd w) (fa w) (fb w) (fm7 w))
  | 7 => .ok (.fmax (fd w) (fa w) (fb w) (fm7 w))
  | 8 => .ok (.fceq (fd w) (fa w) (fb w) (fm7 w))
  | 9 => .ok (.fclt (fd w) (fa w) (fb w) (fm7 w))
  | 10 => .ok (.fcle (fd w) (fa w) (fb w) (fm7 w))
  | 11 => guardField (fb w == 0) (.fclass (fd w) (fa w) (fm7 w))
  | 12 => guardField (fb w == 0) (.fabs (fd w) (fa w) (fm7 w))
  | 13 => guardField (fb w == 0) (.fneg (fd w) (fa w) (fm7 w))
  | 14 => .ok (.fcpys (fd w) (fa w) (fb w) (fm7 w))
  | 15 => guardField (fb w == 0) (.fcvtI64T (fd w) (fa w) (fm7 w))
  | 16 => guardField (fb w == 0) (.fcvtN64T (fd w) (fa w) (fm7 w))
  | 17 => guardField (fb w == 0) (.fcvtTI64 (fd w) (fa w) (fm7 w))
  | 18 => guardField (fb w == 0) (.fcvtTN64 (fd w) (fa w) (fm7 w))
  | 19 => guardField (fb w == 0) (if fm7 w then .fcvtF64F32 (fd w) (fa w) else .fcvtF32F64 (fd w) (fa w))
  | _ => .error .unlistedMinor

/-- Major 0x23: minor bit 7 the no-return form, 6:4 the type, 3:0 the operation (R45). -/
def decodeAtomic (w : Word32) : Except DecodeError Instr :=
  match AType.ofBits (fm64 w) with
  | none => .error .badAtomicType
  | some t =>
    if fm7 w then
      match (fm30 w).toNat with
      | 0 => guardField (fd w == 0) (.aredAdd (fa w) (fb w) t)
      | 1 => guardField (fd w == 0) (.aredAnd (fa w) (fb w) t)
      | 2 => guardField (fd w == 0) (.aredOr (fa w) (fb w) t)
      | 3 => guardField (fd w == 0) (.aredXor (fa w) (fb w) t)
      | 4 => guardField (fd w == 0) (.aredMin (fa w) (fb w) t)
      | 5 => guardField (fd w == 0) (.aredMax (fa w) (fb w) t)
      | _ => .error .unlistedMinor
    else
      match (fm30 w).toNat with
      | 0 => .ok (.aadd (fd w) (fa w) (fb w) t)
      | 1 => .ok (.aand (fd w) (fa w) (fb w) t)
      | 2 => .ok (.aor (fd w) (fa w) (fb w) t)
      | 3 => .ok (.axor (fd w) (fa w) (fb w) t)
      | 4 => .ok (.amin (fd w) (fa w) (fb w) t)
      | 5 => .ok (.amax (fd w) (fa w) (fb w) t)
      | 6 => .ok (.aswap (fd w) (fa w) (fb w) t)
      | 7 => .ok (.acas (fd w) (fa w) (fb w) t)
      | _ => .error .unlistedMinor

/-- Major 0x24: tokens carry the FIFO in minor bits 1:0 (R46). -/
def decodeTokens (w : Word32) : Except DecodeError Instr :=
  match (fm72 w).toNat with
  | 0 => guardField (fd w == 0 && fa w == 0 && fb w == 0) (.tokPush (fm10 w))
  | 1 => guardField (fd w == 0 && fa w == 0 && fb w == 0) (.tokPop (fm10 w))
  | 2 => guardField (fa w == 0 && fb w == 0) (.tokRead (fd w) (fm10 w))
  | 3 =>
    match (fm10 w).toNat with
    | 0 => guardField (fa w == 0 && fb w == 0) (.evWait (fd w))
    | 1 => guardField (fa w == 0 && fb w == 0) (.evPop (fd w))
    | 2 => guardField (fa w == 0 && fb w == 0) (.evCount (fd w))
    | _ => guardField (fa w == 0 && fb w == 0) (.frame (fd w))
  | _ => .error .unlistedMinor

/-- Major 0x22 (R44). -/
def decodeSystem (w : Word32) : Except DecodeError Instr :=
  if fm7 w then guardField (fd w == 0 && fa w == 0 && fb w == 0) (.qfence (fm60 w)) else
    match (fm60 w).toNat with
    | 0 => guardField (fd w == 0 && fa w == 0) (.trap (fb w))
    | 1 => guardField (fd w == 0 && fa w == 0 && fb w == 0) .tret
    | 2 => guardField (fd w == 0 && fa w == 0 && fb w == 0) .halt
    | 3 => guardField (fd w == 0 && fa w == 0 && fb w == 0) .fence
    | 4 => guardField (fd w == 0 && fa w == 0 && fb w == 0) .ifb
    | 16 => guardField (fd w == 0 && fb w == 0) (.acqCore (fa w))
    | 17 => guardField (fd w == 0 && fb w == 0) (.acqCluster (fa w))
    | 18 => guardField (fd w == 0 && fb w == 0) (.acqDie (fa w))
    | 19 => guardField (fd w == 0 && fb w == 0) (.acqDevice (fa w))
    | 20 => guardField (fd w == 0 && fb w == 0) (.acqLaunch (fa w))
    | 24 => guardField (fd w == 0 && fb w == 0) (.relCore (fa w))
    | 25 => guardField (fd w == 0 && fb w == 0) (.relCluster (fa w))
    | 26 => guardField (fd w == 0 && fb w == 0) (.relDie (fa w))
    | 27 => guardField (fd w == 0 && fb w == 0) (.relDevice (fa w))
    | 28 => guardField (fd w == 0 && fb w == 0) (.relLaunch (fa w))
    | _ => .error .unlistedMinor

/-- Major 0x06: bits 13:8 zero, 7:6 the kind, 5:0 the shift amount (R29). -/
def decodeShift (w : Word32) : Except DecodeError Instr :=
  guardErr ((fi w).extractLsb' 8 6 == 0) .badField <|
    match ((fi w).extractLsb' 6 2).toNat with
    | 0 => .ok (.slli (fd w) (fa w) ((fi w).extractLsb' 0 6))
    | 1 => .ok (.srli (fd w) (fa w) ((fi w).extractLsb' 0 6))
    | 2 => .ok (.srai (fd w) (fa w) ((fi w).extractLsb' 0 6))
    | _ => .error .unlistedMinor

/-- Major 0x21: bits 13:12 the operation, 11:0 the CSR number (R44). -/
def decodeCsr (w : Word32) : Except DecodeError Instr :=
  match ((fi w).extractLsb' 12 2).toNat with
  | 0 => guardField (fa w == 0) (.csrRd (fd w) ((fi w).extractLsb' 0 12))
  | 1 => .ok (.csrWr (fd w) (fa w) ((fi w).extractLsb' 0 12))
  | 2 => .ok (.csrOr (fd w) (fa w) ((fi w).extractLsb' 0 12))
  | _ => .ok (.csrAndn (fd w) (fa w) ((fi w).extractLsb' 0 12))

/-- A CTL word by its major (R41); `x` is the payload of an IMM prefix. -/
def decodeCtl (w : Word32) (x : Option (BitVec 24)) : Except DecodeError Instr :=
  match (majorOf w).toNat with
  | 1 => decodeAlu w
  | 2 => .ok (.addi (fd w) (fa w) (fi w) x)
  | 3 => .ok (.andi (fd w) (fa w) (fi w) x)
  | 4 => .ok (.ori (fd w) (fa w) (fi w) x)
  | 5 => .ok (.xori (fd w) (fa w) (fi w) x)
  | 6 => decodeShift w
  | 7 => .ok (.slti (fd w) (fa w) (fi w) x)
  | 8 => .ok (.lih (fd w) (fu w) x)
  | 9 => .ok (.addpc (fd w) (fu w) x)
  | 10 => decodeMulDiv w
  | 11 => decodeFloat w
  | 12 => .ok (.ldI8 (fd w) (fa w) (fi w) x)
  | 13 => .ok (.ldN8 (fd w) (fa w) (fi w) x)
  | 14 => .ok (.ldI16 (fd w) (fa w) (fi w) x)
  | 15 => .ok (.ldN16 (fd w) (fa w) (fi w) x)
  | 16 => .ok (.ldI32 (fd w) (fa w) (fi w) x)
  | 17 => .ok (.ldN32 (fd w) (fa w) (fi w) x)
  | 18 => .ok (.ld64 (fd w) (fa w) (fi w) x)
  | 20 => .ok (.st8 (fd w) (fa w) (fi w) x)
  | 21 => .ok (.st16 (fd w) (fa w) (fi w) x)
  | 22 => .ok (.st32 (fd w) (fa w) (fi w) x)
  | 23 => .ok (.st64 (fd w) (fa w) (fi w) x)
  | 24 => .ok (.beq (fd w) (fa w) (fi w) x)
  | 25 => .ok (.bne (fd w) (fa w) (fi w) x)
  | 26 => .ok (.blt (fd w) (fa w) (fi w) x)
  | 27 => .ok (.bge (fd w) (fa w) (fi w) x)
  | 28 => .ok (.bltn (fd w) (fa w) (fi w) x)
  | 29 => .ok (.bgen (fd w) (fa w) (fi w) x)
  | 30 => .ok (.j (fj w) x)
  | 31 => .ok (.jal (fj w) x)
  | 32 => .ok (.jalr (fd w) (fa w) (fi w) x)
  | 33 => decodeCsr w
  | 34 => decodeSystem w
  | 35 => decodeAtomic w
  | 36 => decodeTokens w
  | 37 => decodeTables w
  | 38 => decodeStreams w
  | 39 => decodeTx w
  | 40 => decodeDomains w
  | 41 => decodeColl w
  | 42 => decodeMoves w
  | 43 => decodeBlocks w
  | 44 => decodeSafe w
  | _ => .error .reservedMajor

/-- Major 0x30 by its minor (R47). -/
def decodeCopyIn (w : Word32) (e : EngBits) : Except DecodeError Instr :=
  match (emin w).toNat with
  | 0 => guardField (ea w == 0 && eb w == 0) (.cpyIn e (ed w))
  | 1 => guardField (ea w == 0 && eb w == 0) (.cpyInT e (ed w))
  | 2 => guardField (eb w == 0) (.cpyGath e (ed w) (ea w))
  | 3 => guardField (ea w == 0 && eb w == 0) (.cpyPf e (ed w))
  | _ => .error .unlistedMinor

/-- Major 0x31 by its minor (R47). -/
def decodeRing (w : Word32) (e : EngBits) : Except DecodeError Instr :=
  match (emin w).toNat with
  | 0 => guardField (eb w == 0) (.gpush e (ed w) (ea w))
  | 1 => .ok (.ggath e (ed w) (ea w) (eb w))
  | 2 => guardField (ea w == 0 && eb w == 0) (.greset e (ed w))
  | _ => .error .unlistedMinor

/-- Major 0x32 by its minor (R47). -/
def decodeRecv (w : Word32) (e : EngBits) : Except DecodeError Instr :=
  match (emin w).toNat with
  | 0 => guardField (ea w == 0 && eb w == 0) (.recv e (ed w))
  | 1 => guardField (ea w == 0 && eb w == 0) (.recvG e (ed w))
  | 2 => guardField (ea w == 0 && eb w == 0) (.recvM e (ed w))
  | _ => .error .unlistedMinor

/-- Major 0x33 by its minor (R47). -/
def decodeLdWait (w : Word32) (e : EngBits) : Except DecodeError Instr :=
  match (emin w).toNat with
  | 0 => .ok (.waitLd e (en w))
  | 1 => guardField (w.extractLsb' 7 5 == 0) (.qfenceLd e (w.extractLsb' 0 7))
  | _ => .error .unlistedMinor

/-- Major 0x36 by its minor (R47). -/
def decodeArith (w : Word32) (e : EngBits) : Except DecodeError Instr :=
  match (emin w).toNat with
  | 0 => .ok (.vadd e (ed w) (ea w) (eb w))
  | 1 => .ok (.vsub e (ed w) (ea w) (eb w))
  | 2 => .ok (.vmul e (ed w) (ea w) (eb w))
  | 3 => .ok (.vfma e (ed w) (ea w) (eb w))
  | 4 => .ok (.vmin e (ed w) (ea w) (eb w))
  | 5 => .ok (.vmax e (ed w) (ea w) (eb w))
  | 6 => guardField (eb w == 0) (.vabs e (ed w) (ea w))
  | 7 => guardField (eb w == 0) (.vneg e (ed w) (ea w))
  | 8 => .ok (.vaddY e (ed w) (ea w) (eb w))
  | 9 => .ok (.vmulY e (ed w) (ea w) (eb w))
  | 10 => .ok (.vfmaY e (ed w) (ea w) (eb w))
  | 11 => .ok (.vmulM e (ed w) (ea w) (eb w))
  | 12 => .ok (.vmaxY e (ed w) (ea w) (eb w))
  | 13 => .ok (.vminY e (ed w) (ea w) (eb w))
  | _ => .error .unlistedMinor

/-- Major 0x37 by its minor (R47). -/
def decodeLogic (w : Word32) (e : EngBits) : Except DecodeError Instr :=
  match (emin w).toNat with
  | 0 => .ok (.vceq e (ed w) (ea w) (eb w))
  | 1 => .ok (.vcne e (ed w) (ea w) (eb w))
  | 2 => .ok (.vclt e (ed w) (ea w) (eb w))
  | 3 => .ok (.vcle e (ed w) (ea w) (eb w))
  | 4 => .ok (.vsel e (ed w) (ea w) (eb w))
  | 5 => .ok (.vand e (ed w) (ea w) (eb w))
  | 6 => .ok (.vor e (ed w) (ea w) (eb w))
  | 7 => .ok (.vxor e (ed w) (ea w) (eb w))
  | 8 => guardField (eb w == 0) (.vnot e (ed w) (ea w))
  | 9 => .ok (.vshl e (ed w) (ea w) (eb w))
  | 10 => .ok (.vshr e (ed w) (ea w) (eb w))
  | 11 => .ok (.vsra e (ed w) (ea w) (eb w))
  | 12 => .ok (.vaddsat e (ed w) (ea w) (eb w))
  | 13 => .ok (.vsubsat e (ed w) (ea w) (eb w))
  | 14 => .ok (.vmulhi e (ed w) (ea w) (eb w))
  | 15 => guardField (eb w == 0) (.vclass e (ed w) (ea w))
  | _ => .error .unlistedMinor

/-- Major 0x38 by its minor (R47). -/
def decodeConvert (w : Word32) (e : EngBits) : Except DecodeError Instr :=
  match (emin w).toNat with
  | 0 => guardField (eb w == 0) (.vcvt e (ed w) (ea w))
  | 1 => guardField (eb w == 0) (.vmov e (ed w) (ea w))
  | 2 => guardField (ea w == 0) (.vfillY e (ed w) (eb w))
  | 3 => .ok (.vgath e (ed w) (ea w) (eb w))
  | 4 => .ok (.vscat e (ed w) (ea w) (eb w))
  | 5 => guardField (ea w == 0 && eb w == 0) (.vrng e (ed w))
  | 6 => .ok (.vdrop e (ed w) (ea w) (eb w))
  | 7 => guardField (eb w == 0) (.vsplit3 e (ed w) (ea w))
  | 8 => guardField (ea w == 0 && eb w == 0) (.viota e (ed w))
  | _ => .error .unlistedMinor

/-- Major 0x39 by its minor (R47). -/
noncomputable def decodeFunc (w : Word32) (e : EngBits) : Except DecodeError Instr :=
  match (emin w).toNat with
  | 0 => guardField (eb w == 0) (.sfExp2 e (ed w) (ea w))
  | 1 => guardField (eb w == 0) (.sfLog2 e (ed w) (ea w))
  | 2 => guardField (eb w == 0) (.sfRcp e (ed w) (ea w))
  | 3 => guardField (eb w == 0) (.sfRsqrt e (ed w) (ea w))
  | 4 => guardField (eb w == 0) (.sfSqrt e (ed w) (ea w))
  | 5 => guardField (eb w == 0) (.sfSinpi e (ed w) (ea w))
  | 6 => guardField (eb w == 0) (.sfCospi e (ed w) (ea w))
  | 7 => guardField (eb w == 0) (.sfTanh e (ed w) (ea w))
  | 8 => guardField (eb w == 0) (.sfLogistic e (ed w) (ea w))
  | 16 => guardField (eb w == 0) (.efExp2 e (ed w) (ea w))
  | 17 => guardField (eb w == 0) (.efLog2 e (ed w) (ea w))
  | 18 => guardField (eb w == 0) (.efRcp e (ed w) (ea w))
  | 19 => guardField (eb w == 0) (.efRsqrt e (ed w) (ea w))
  | 20 => guardField (eb w == 0) (.efSqrt e (ed w) (ea w))
  | 21 => guardField (eb w == 0) (.efSinpi e (ed w) (ea w))
  | 22 => guardField (eb w == 0) (.efCospi e (ed w) (ea w))
  | 23 => guardField (eb w == 0) (.efTanh e (ed w) (ea w))
  | 24 => guardField (eb w == 0) (.efLogistic e (ed w) (ea w))
  | _ => .error .unlistedMinor

/-- Major 0x3A by its minor (R47). -/
def decodeReduce (w : Word32) (e : EngBits) : Except DecodeError Instr :=
  match (emin w).toNat with
  | 0 => guardField (eb w == 0) (.rsum e (ed w) (ea w))
  | 1 => guardField (eb w == 0) (.rmax e (ed w) (ea w))
  | 2 => guardField (eb w == 0) (.rmin e (ed w) (ea w))
  | 3 => guardField (eb w == 0) (.rsumsq e (ed w) (ea w))
  | 4 => guardField (eb w == 0) (.scanSum e (ed w) (ea w))
  | 5 => guardField (eb w == 0) (.scanMax e (ed w) (ea w))
  | 6 => .ok (.rdot e (ed w) (ea w) (eb w))
  | 7 => guardField (eb w == 0) (.rargmax e (ed w) (ea w))
  | 8 => guardField (eb w == 0) (.rcnt e (ed w) (ea w))
  | _ => .error .unlistedMinor

/-- Major 0x3B by its minor (R47). -/
def decodeCmpWait (w : Word32) (e : EngBits) : Except DecodeError Instr :=
  match (emin w).toNat with
  | 0 => .ok (.waitCmp e (en w))
  | 1 => guardField (w.extractLsb' 7 5 == 0) (.qfenceCmp e (w.extractLsb' 0 7))
  | _ => .error .unlistedMinor

/-- Major 0x3C by its minor (R47). -/
def decodeCopyOut (w : Word32) (e : EngBits) : Except DecodeError Instr :=
  match (emin w).toNat with
  | 0 => guardField (ea w == 0 && eb w == 0) (.cpyOut e (ed w))
  | 1 => guardField (eb w == 0) (.cpyScat e (ed w) (ea w))
  | 2 => guardField (ea w == 0 && eb w == 0) (.stash e (ed w))
  | 3 => guardField (ea w == 0 && eb w == 0) (.cpyXc e (ed w))
  | _ => .error .unlistedMinor

/-- Major 0x3D by its minor (R47). -/
def decodeSend (w : Word32) (e : EngBits) : Except DecodeError Instr :=
  match (emin w).toNat with
  | 0 => guardField (ed w == 0 && eb w == 0) (.send e (ea w))
  | 1 => guardField (ed w == 0 && eb w == 0) (.sendG e (ea w))
  | 2 => guardField (ed w == 0 && ea w == 0 && eb w == 0) (.evpost e)
  | 8 => .ok (.waitSt e (en w))
  | 9 => guardField (w.extractLsb' 7 5 == 0) (.qfenceSt e (w.extractLsb' 0 7))
  | _ => .error .unlistedMinor

/-- Major 0x35: minor 16:12, tile 11:4, operand 3:0 (R32, R47). -/
def decodeMx (w : Word32) (e : EngBits) : Except DecodeError Instr :=
  match (emin w).toNat with
  | 0 => .ok (.mdrain e (et w) (eb w))
  | 1 => guardField (eb w == 0) (.mzero e (et w))
  | 2 => .ok (.mtpbLd e (et w) (eb w))
  | 3 => .ok (.mtpbSt e (et w) (eb w))
  | 4 => .ok (.mlsfTest e (et w) (eb w))
  | 5 => .ok (.mlsfRd e (et w) (eb w))
  | 6 => guardField (eb w == 0) (.mlsfClr e (et w))
  | 7 => guardField (et w == 0) (.maudit e (eb w))
  | _ => .error .unlistedMinor

/-- Major 0x34: bit 16 keep-B, 15:8 the tile, 7:4 ring A, 3:0 ring B (R32). -/
def decodeMma (w : Word32) (e : EngBits) : Except DecodeError Instr :=
  if w.getLsbD 16 then .ok (.mmaKb e (w.extractLsb' 8 8) (ea w) (eb w))
  else .ok (.mma e (w.extractLsb' 8 8) (ea w) (eb w))

/-- An engine word by its major (R41), but for the function words of major 0x39. -/
def decodeEngineCore (w : Word32) (e : EngBits) : Except DecodeError Instr :=
  match (majorOf w).toNat with
  | 48 => decodeCopyIn w e
  | 49 => decodeRing w e
  | 50 => decodeRecv w e
  | 51 => decodeLdWait w e
  | 52 => decodeMma w e
  | 53 => decodeMx w e
  | 54 => decodeArith w e
  | 55 => decodeLogic w e
  | 56 => decodeConvert w e
  | 58 => decodeReduce w e
  | 59 => decodeCmpWait w e
  | 60 => decodeCopyOut w e
  | 61 => decodeSend w e
  | _ => .error .reservedMajor

/-- An engine word by its major (R41). -/
noncomputable def decodeEngine (w : Word32) (e : EngBits) : Except DecodeError Instr :=
  if (majorOf w).toNat = 0x39 then decodeFunc w e else decodeEngineCore w e

/-! ### Prefixes -/

/-- Majors that CTL executes itself (R41). -/
def ctlMajor (n : Nat) : Bool := decide (0x01 ≤ n) && decide (n ≤ 0x2C) && decide (n ≠ 0x13)

/-- Majors that CTL passes to a queue (R41). -/
def engMajor (n : Nat) : Bool := decide (0x30 ≤ n) && decide (n ≤ 0x3D)

/-- Majors of format I, S, B, J or U that take an IMM (R39). -/
def immMajor (n : Nat) : Bool :=
  (decide (0x02 ≤ n) && decide (n ≤ 0x12) && decide (n ≠ 0x06) && decide (n ≠ 0x0A) && decide (n ≠ 0x0B))
    || (decide (0x14 ≤ n) && decide (n ≤ 0x20))

/-- Words that META kind 1 may precede: the copy words (R38). -/
def copyWord (w : Word32) : Bool :=
  ((majorOf w).toNat == 0x30 || (majorOf w).toNat == 0x3C) && decide ((emin w).toNat ≤ 3)

/-- META's kind and the word it stands before agree (R38). -/
def metaLegal (w : Word32) (m : BitVec 24) : Bool :=
  match (m.extractLsb' 22 2).toNat with
  | 0 => (majorOf w).toNat == 0x34
  | 1 => copyWord w && ed w == 0
  | _ => false

/-- The legal arrangements of R39 before word `w` of the CTL stream, with the payload rules of R36 and R38. -/
def prefixLegal (p : Prefixes) (w : Word32) : Bool :=
  p.param.isNone
    && (p.imm.isNone || (immMajor (majorOf w).toNat && p.stamp.isNone && p.metaP.isNone))
    && (p.stamp.isNone || (engMajor (majorOf w).toNat && edelay w == 0))
    && (match p.metaP with
        | none => true
        | some m => metaLegal w m)

/-- An instruction's own checks come after its fields are read. -/
def wfOr (r : Except DecodeError Instr) : Except DecodeError Instr :=
  match r with
  | .ok i => if i.wf then .ok i else .error .illFormed
  | .error e => .error e

/-- The instruction that word `w` is with prefixes `p` before it. The function words' constructors have numbers that
compiled code cannot build, so this is `noncomputable`; `step` uses its computable parts. -/
noncomputable def decodeWord (p : Prefixes) (w : Word32) : Except DecodeError Instr :=
  if prefixLegal p w then
    wfOr (if engMajor (majorOf w).toNat then decodeEngine w (engBits p w) else decodeCtl w p.imm)
  else .error .badPrefix

/-- Add the prefix word `w` to `p`; none when that kind is already there (R39). -/
def Prefixes.add (p : Prefixes) (w : Word32) : Option Prefixes :=
  let v := w.extractLsb' 0 24
  match (w.extractLsb' 24 2).toNat with
  | 0 => if p.imm.isNone then some { p with imm := some v } else none
  | 1 => if p.stamp.isNone then some { p with stamp := some v } else none
  | 2 => if p.param.isNone then some { p with param := some v } else none
  | _ => if p.metaP.isNone then some { p with metaP := some v } else none

/-- A prefix word (R34). -/
def isExt (w : Word32) : Bool := (majorOf w).toNat == 0x3E

/-- Prefixes and word of the instruction at the head of a list of words, with how many words it has; at most two
prefixes (R39). -/
def splitWords : List Word32 → Except DecodeError (Prefixes × Word32 × Nat)
  | [] => .error .truncated
  | w0 :: r0 =>
    if isExt w0 then
      match Prefixes.empty.add w0 with
      | none => .error .badPrefix
      | some p1 =>
        match r0 with
        | [] => .error .truncated
        | w1 :: r1 =>
          if isExt w1 then
            match p1.add w1 with
            | none => .error .badPrefix
            | some p2 =>
              match r1 with
              | [] => .error .truncated
              | w2 :: _ => if isExt w2 then .error .badPrefix else .ok (p2, w2, 3)
          else .ok (p1, w1, 2)
    else .ok (Prefixes.empty, w0, 1)

/-- The instruction at the head of a list of words, with how many words it has. -/
noncomputable def decodeWords (ws : List Word32) : Except DecodeError (Instr × Nat) :=
  match splitWords ws with
  | .error e => .error e
  | .ok (p, w, n) =>
    match decodeWord p w with
    | .ok i => .ok (i, n)
    | .error e => .error e

/-- A little-endian word from four bytes (R3). -/
def wordOfBytes (b0 b1 b2 b3 : Byte) : Word32 := b3 ++ b2 ++ b1 ++ b0

/-- The whole words at the head of a list of bytes, at most `fuel` of them. -/
def wordsOfBytes : Nat → List Byte → List Word32
  | 0, _ => []
  | fuel + 1, b0 :: b1 :: b2 :: b3 :: r => wordOfBytes b0 b1 b2 b3 :: wordsOfBytes fuel r
  | _ + 1, _ => []

/-- The instruction at the head of a list of bytes and its length in bytes; an instruction has at most three words
(R27, R39). -/
noncomputable def decode (bs : List Byte) : Except DecodeError (Instr × Nat) :=
  match decodeWords (wordsOfBytes 3 bs) with
  | .ok (i, n) => .ok (i, 4 * n)
  | .error e => .error e

/-! ### The encoder -/

/-- Format A (R28). -/
def mkA (m : BitVec 6) (d a b : BitVec 6) (mn : BitVec 8) : Word32 := m ++ d ++ a ++ b ++ mn
/-- Format A with the minor split at bit 7. -/
def mkA7 (m : BitVec 6) (d a b : BitVec 6) (h : Bool) (mn : BitVec 7) : Word32 :=
  m ++ d ++ a ++ b ++ BitVec.ofBool h ++ mn
/-- A scalar float word (R43). -/
def mkF (d a b : BitVec 6) (f64 : Bool) (op : BitVec 7) : Word32 := mkA7 0x0B d a b f64 op
/-- An atomic (R45). -/
def mkAt (d a b : BitVec 6) (nr : Bool) (t : AType) (op : BitVec 4) : Word32 :=
  0x23#6 ++ d ++ a ++ b ++ BitVec.ofBool nr ++ t.bits ++ op
/-- Major 0x24 (R46). -/
def mkTok (d : BitVec 6) (op : BitVec 6) (f : BitVec 2) : Word32 := 0x24#6 ++ d ++ 0#6 ++ 0#6 ++ op ++ f
/-- Formats I, S and B (R28). -/
def mkI (m d a : BitVec 6) (i : BitVec 14) : Word32 := m ++ d ++ a ++ i
/-- imm14 of a shift (R29). -/
def mkSh (k : BitVec 2) (s : BitVec 6) : BitVec 14 := 0#6 ++ k ++ s
/-- imm14 of a CSR word (R44). -/
def mkCsr (op : BitVec 2) (c : BitVec 12) : BitVec 14 := op ++ c
/-- Format U (R28). -/
def mkU (m d : BitVec 6) (i : BitVec 20) : Word32 := m ++ d ++ i
/-- Format J (R28). -/
def mkJ (m : BitVec 6) (i : BitVec 26) : Word32 := m ++ i
/-- Bits 25:17 of an engine word (R31). -/
def EngBits.bits (e : EngBits) : BitVec 9 :=
  BitVec.ofBool e.popP ++ BitVec.ofBool e.popN ++ BitVec.ofBool e.pushP ++ BitVec.ofBool e.pushN ++ e.delay
/-- An engine word (R31). -/
def mkE (m : BitVec 6) (e : EngBits) (mn : BitVec 5) (d a b : BitVec 4) : Word32 := m ++ e.bits ++ mn ++ d ++ a ++ b
/-- An engine word whose low twelve bits are one field (R47). -/
def mkN (m : BitVec 6) (e : EngBits) (mn : BitVec 5) (n : BitVec 12) : Word32 := m ++ e.bits ++ mn ++ n
/-- A matrix misc word (R32). -/
def mkX (e : EngBits) (mn : BitVec 5) (t : BitVec 8) (o : BitVec 4) : Word32 := 0x35#6 ++ e.bits ++ mn ++ t ++ o
/-- An MMA word (R32). -/
def mkM (e : EngBits) (kb : Bool) (t : BitVec 8) (a b : BitVec 4) : Word32 :=
  0x34#6 ++ e.bits ++ BitVec.ofBool kb ++ t ++ a ++ b

/-- The word of an instruction, without its prefixes, by the encoding tables of 02 (R28-R32, R42-R47). An event
has no word. -/
def encodeWord : Instr → Option Word32
  | .add rd ra rb => some (mkA 1 rd ra rb 0)
  | .sub rd ra rb => some (mkA 1 rd ra rb 1)
  | .and rd ra rb => some (mkA 1 rd ra rb 2)
  | .or rd ra rb => some (mkA 1 rd ra rb 3)
  | .xor rd ra rb => some (mkA 1 rd ra rb 4)
  | .andn rd ra rb => some (mkA 1 rd ra rb 5)
  | .sll rd ra rb => some (mkA 1 rd ra rb 6)
  | .srl rd ra rb => some (mkA 1 rd ra rb 7)
  | .sra rd ra rb => some (mkA 1 rd ra rb 8)
  | .rol rd ra rb => some (mkA 1 rd ra rb 9)
  | .ror rd ra rb => some (mkA 1 rd ra rb 10)
  | .slt rd ra rb => some (mkA 1 rd ra rb 11)
  | .sltn rd ra rb => some (mkA 1 rd ra rb 12)
  | .min rd ra rb => some (mkA 1 rd ra rb 13)
  | .max rd ra rb => some (mkA 1 rd ra rb 14)
  | .minn rd ra rb => some (mkA 1 rd ra rb 15)
  | .maxn rd ra rb => some (mkA 1 rd ra rb 16)
  | .addw rd ra rb => some (mkA 1 rd ra rb 17)
  | .subw rd ra rb => some (mkA 1 rd ra rb 18)
  | .clz rd ra => some (mkA 1 rd ra 0 19)
  | .ctz rd ra => some (mkA 1 rd ra 0 20)
  | .popc rd ra => some (mkA 1 rd ra 0 21)
  | .bswap rd ra => some (mkA 1 rd ra 0 22)
  | .addi rd ra imm _ => some (mkI 2 rd ra imm)
  | .andi rd ra imm _ => some (mkI 3 rd ra imm)
  | .ori rd ra imm _ => some (mkI 4 rd ra imm)
  | .xori rd ra imm _ => some (mkI 5 rd ra imm)
  | .slli rd ra sh => some (mkI 6 rd ra (mkSh 0 sh))
  | .srli rd ra sh => some (mkI 6 rd ra (mkSh 1 sh))
  | .srai rd ra sh => some (mkI 6 rd ra (mkSh 2 sh))
  | .slti rd ra imm _ => some (mkI 7 rd ra imm)
  | .lih rd imm _ => some (mkU 8 rd imm)
  | .addpc rd imm _ => some (mkU 9 rd imm)
  | .mul rd ra rb => some (mkA 10 rd ra rb 0)
  | .mulh rd ra rb => some (mkA 10 rd ra rb 1)
  | .mulhn rd ra rb => some (mkA 10 rd ra rb 2)
  | .div rd ra rb => some (mkA 10 rd ra rb 3)
  | .divn rd ra rb => some (mkA 10 rd ra rb 4)
  | .rem rd ra rb => some (mkA 10 rd ra rb 5)
  | .remn rd ra rb => some (mkA 10 rd ra rb 6)
  | .fadd rd ra rb f64 => some (mkF rd ra rb f64 0)
  | .fsub rd ra rb f64 => some (mkF rd ra rb f64 1)
  | .fmul rd ra rb f64 => some (mkF rd ra rb f64 2)
  | .fdiv rd ra rb f64 => some (mkF rd ra rb f64 3)
  | .fsqrt rd ra f64 => some (mkF rd ra 0 f64 4)
  | .fmac rd ra rb f64 => some (mkF rd ra rb f64 5)
  | .fmin rd ra rb f64 => some (mkF rd ra rb f64 6)
  | .fmax rd ra rb f64 => some (mkF rd ra rb f64 7)
  | .fceq rd ra rb f64 => some (mkF rd ra rb f64 8)
  | .fclt rd ra rb f64 => some (mkF rd ra rb f64 9)
  | .fcle rd ra rb f64 => some (mkF rd ra rb f64 10)
  | .fclass rd ra f64 => some (mkF rd ra 0 f64 11)
  | .fabs rd ra f64 => some (mkF rd ra 0 f64 12)
  | .fneg rd ra f64 => some (mkF rd ra 0 f64 13)
  | .fcpys rd ra rb f64 => some (mkF rd ra rb f64 14)
  | .fcvtI64T rd ra f64 => some (mkF rd ra 0 f64 15)
  | .fcvtN64T rd ra f64 => some (mkF rd ra 0 f64 16)
  | .fcvtTI64 rd ra f64 => some (mkF rd ra 0 f64 17)
  | .fcvtTN64 rd ra f64 => some (mkF rd ra 0 f64 18)
  | .fcvtF64F32 rd ra => some (mkF rd ra 0 true 19)
  | .fcvtF32F64 rd ra => some (mkF rd ra 0 false 19)
  | .ldI8 rd ra imm _ => some (mkI 12 rd ra imm)
  | .ldN8 rd ra imm _ => some (mkI 13 rd ra imm)
  | .ldI16 rd ra imm _ => some (mkI 14 rd ra imm)
  | .ldN16 rd ra imm _ => some (mkI 15 rd ra imm)
  | .ldI32 rd ra imm _ => some (mkI 16 rd ra imm)
  | .ldN32 rd ra imm _ => some (mkI 17 rd ra imm)
  | .ld64 rd ra imm _ => some (mkI 18 rd ra imm)
  | .st8 rs ra imm _ => some (mkI 20 rs ra imm)
  | .st16 rs ra imm _ => some (mkI 21 rs ra imm)
  | .st32 rs ra imm _ => some (mkI 22 rs ra imm)
  | .st64 rs ra imm _ => some (mkI 23 rs ra imm)
  | .beq ra rb off _ => some (mkI 24 ra rb off)
  | .bne ra rb off _ => some (mkI 25 ra rb off)
  | .blt ra rb off _ => some (mkI 26 ra rb off)
  | .bge ra rb off _ => some (mkI 27 ra rb off)
  | .bltn ra rb off _ => some (mkI 28 ra rb off)
  | .bgen ra rb off _ => some (mkI 29 ra rb off)
  | .j off _ => some (mkJ 30 off)
  | .jal off _ => some (mkJ 31 off)
  | .jalr rd ra imm _ => some (mkI 32 rd ra imm)
  | .csrRd rd csr => some (mkI 0x21 rd 0 (mkCsr 0 csr))
  | .csrWr rd ra csr => some (mkI 0x21 rd ra (mkCsr 1 csr))
  | .csrOr rd ra csr => some (mkI 0x21 rd ra (mkCsr 2 csr))
  | .csrAndn rd ra csr => some (mkI 0x21 rd ra (mkCsr 3 csr))
  | .trap n => some (mkA 0x22 0 0 n 0)
  | .acqCore ra => some (mkA 0x22 0 ra 0 16)
  | .acqCluster ra => some (mkA 0x22 0 ra 0 17)
  | .acqDie ra => some (mkA 0x22 0 ra 0 18)
  | .acqDevice ra => some (mkA 0x22 0 ra 0 19)
  | .acqLaunch ra => some (mkA 0x22 0 ra 0 20)
  | .relCore ra => some (mkA 0x22 0 ra 0 24)
  | .relCluster ra => some (mkA 0x22 0 ra 0 25)
  | .relDie ra => some (mkA 0x22 0 ra 0 26)
  | .relDevice ra => some (mkA 0x22 0 ra 0 27)
  | .relLaunch ra => some (mkA 0x22 0 ra 0 28)
  | .qfence m => some (mkA7 0x22 0 0 0 true m)
  | .aadd rd ra rb t => some (mkAt rd ra rb false t 0)
  | .aand rd ra rb t => some (mkAt rd ra rb false t 1)
  | .aor rd ra rb t => some (mkAt rd ra rb false t 2)
  | .axor rd ra rb t => some (mkAt rd ra rb false t 3)
  | .amin rd ra rb t => some (mkAt rd ra rb false t 4)
  | .amax rd ra rb t => some (mkAt rd ra rb false t 5)
  | .aswap rd ra rb t => some (mkAt rd ra rb false t 6)
  | .acas rd ra rb t => some (mkAt rd ra rb false t 7)
  | .aredAdd ra rb t => some (mkAt 0 ra rb true t 0)
  | .aredAnd ra rb t => some (mkAt 0 ra rb true t 1)
  | .aredOr ra rb t => some (mkAt 0 ra rb true t 2)
  | .aredXor ra rb t => some (mkAt 0 ra rb true t 3)
  | .aredMin ra rb t => some (mkAt 0 ra rb true t 4)
  | .aredMax ra rb t => some (mkAt 0 ra rb true t 5)
  | .tokPush f => some (mkTok 0 0 f)
  | .tokPop f => some (mkTok 0 1 f)
  | .tokRead rd f => some (mkTok rd 2 f)
  | .evWait rd => some (mkTok rd 3 0)
  | .evPop rd => some (mkTok rd 3 1)
  | .evCount rd => some (mkTok rd 3 2)
  | .frame rd => some (mkTok rd 3 3)
  | .tblLoad n ra rb => some (mkA 37 n ra rb 0)
  | .tblRun n ra => some (mkA 37 n ra 0 1)
  | .tblStop n => some (mkA 37 n 0 0 2)
  | .tblRebase n ra => some (mkA 37 n ra 0 3)
  | .tblParam k ra => some (mkA 37 (k.setWidth 6) ra 0 4)
  | .tblWait n => some (mkA 37 n 0 0 5)
  | .zsetBase z ra => some (mkA 38 (z.setWidth 6) ra 0 0)
  | .zsetStride z ra => some (mkA 38 (z.setWidth 6) ra 0 1)
  | .zsetCount z ra => some (mkA 38 (z.setWidth 6) ra 0 2)
  | .zsetFmt z ra => some (mkA 38 (z.setWidth 6) ra 0 3)
  | .zsetScale z ra => some (mkA 38 (z.setWidth 6) ra 0 4)
  | .zsetRing z ra => some (mkA 38 (z.setWidth 6) ra 0 5)
  | .zsetAdv z ra => some (mkA 38 (z.setWidth 6) ra 0 6)
  | .zget rd z k => some (mkA 38 rd (z.setWidth 6) (k.setWidth 6) 8)
  | .txopen ra => some (mkA 39 0 ra 0 0)
  | .txloss ra => some (mkA 39 0 ra 0 2)
  | .txwait rd => some (mkA 39 rd 0 0 3)
  | .txrd rd k => some (mkA 39 rd 0 (k.setWidth 6) 5)
  | .rngk ra => some (mkA 39 0 ra 0 6)
  | .rngn ra => some (mkA 39 0 ra 0 7)
  | .domSet ra => some (mkA 40 0 ra 0 8)
  | .domGet rd => some (mkA 40 rd 0 0 9)
  | .collRed ra rb => some (mkA 41 0 ra rb 0)
  | .collBcast ra rb => some (mkA 41 0 ra rb 1)
  | .collGath ra rb => some (mkA 41 0 ra rb 2)
  | .collNorm ra rb => some (mkA 41 0 ra rb 3)
  | .collExp ra rb => some (mkA 41 0 ra rb 4)
  | .collWait rd ra => some (mkA 41 rd ra 0 6)
  | .winReg ra rb => some (mkA 41 0 ra rb 7)
  | .winDrop ra => some (mkA 41 0 ra 0 8)
  | .mbclr k => some (mkA 41 (k.setWidth 6) 0 0 9)
  | .ywr y ra => some (mkA 42 (y.setWidth 6) ra 0 0)
  | .yrd rd y => some (mkA 42 rd (y.setWidth 6) 0 1)
  | .mbrd rd m => some (mkA 42 rd (m.setWidth 6) 0 2)
  | .ccbWr k ra w => some (mkA 43 (k.setWidth 6) ra (w.setWidth 6) 0)
  | .ccbRd rd k w => some (mkA 43 rd (k.setWidth 6) (w.setWidth 6) 1)
  | .ccbLd k ra => some (mkA 43 (k.setWidth 6) ra 0 2)
  | .ccbSt k ra => some (mkA 43 (k.setWidth 6) ra 0 3)
  | .safept ra => some (mkA 44 0 ra 0 0)
  | .pchk rd => some (mkA 44 rd 0 0 2)
  | .cpyIn e d => some (mkE 48 e 0 d 0 0)
  | .cpyInT e d => some (mkE 48 e 1 d 0 0)
  | .cpyGath e d a => some (mkE 48 e 2 d a 0)
  | .cpyPf e d => some (mkE 48 e 3 d 0 0)
  | .gpush e d a => some (mkE 49 e 0 d a 0)
  | .ggath e d a b => some (mkE 49 e 1 d a b)
  | .greset e d => some (mkE 49 e 2 d 0 0)
  | .recv e d => some (mkE 50 e 0 d 0 0)
  | .recvG e d => some (mkE 50 e 1 d 0 0)
  | .recvM e d => some (mkE 50 e 2 d 0 0)
  | .waitLd e n => some (mkN 51 e 0 n)
  | .qfenceLd e m => some (mkN 51 e 1 ((0#5 ++ m : BitVec 12)))
  | .mma e t a b => some (mkM e false t a b)
  | .mmaKb e t a b => some (mkM e true t a b)
  | .mdrain e t z => some (mkX e 0 t z)
  | .mzero e t => some (mkX e 1 t 0)
  | .mtpbLd e t z => some (mkX e 2 t z)
  | .mtpbSt e t z => some (mkX e 3 t z)
  | .mlsfTest e t y => some (mkX e 4 t y)
  | .mlsfRd e t z => some (mkX e 5 t z)
  | .mlsfClr e t => some (mkX e 6 t 0)
  | .maudit e y => some (mkX e 7 0 y)
  | .vadd e d a b => some (mkE 54 e 0 d a b)
  | .vsub e d a b => some (mkE 54 e 1 d a b)
  | .vmul e d a b => some (mkE 54 e 2 d a b)
  | .vfma e d a b => some (mkE 54 e 3 d a b)
  | .vmin e d a b => some (mkE 54 e 4 d a b)
  | .vmax e d a b => some (mkE 54 e 5 d a b)
  | .vabs e d a => some (mkE 54 e 6 d a 0)
  | .vneg e d a => some (mkE 54 e 7 d a 0)
  | .vaddY e d a b => some (mkE 54 e 8 d a b)
  | .vmulY e d a b => some (mkE 54 e 9 d a b)
  | .vfmaY e d a b => some (mkE 54 e 10 d a b)
  | .vmulM e d a b => some (mkE 54 e 11 d a b)
  | .vmaxY e d a b => some (mkE 54 e 12 d a b)
  | .vminY e d a b => some (mkE 54 e 13 d a b)
  | .vceq e d a b => some (mkE 55 e 0 d a b)
  | .vcne e d a b => some (mkE 55 e 1 d a b)
  | .vclt e d a b => some (mkE 55 e 2 d a b)
  | .vcle e d a b => some (mkE 55 e 3 d a b)
  | .vsel e d a b => some (mkE 55 e 4 d a b)
  | .vand e d a b => some (mkE 55 e 5 d a b)
  | .vor e d a b => some (mkE 55 e 6 d a b)
  | .vxor e d a b => some (mkE 55 e 7 d a b)
  | .vnot e d a => some (mkE 55 e 8 d a 0)
  | .vshl e d a b => some (mkE 55 e 9 d a b)
  | .vshr e d a b => some (mkE 55 e 10 d a b)
  | .vsra e d a b => some (mkE 55 e 11 d a b)
  | .vaddsat e d a b => some (mkE 55 e 12 d a b)
  | .vsubsat e d a b => some (mkE 55 e 13 d a b)
  | .vmulhi e d a b => some (mkE 55 e 14 d a b)
  | .vclass e d a => some (mkE 55 e 15 d a 0)
  | .vcvt e d a => some (mkE 56 e 0 d a 0)
  | .vmov e d a => some (mkE 56 e 1 d a 0)
  | .vfillY e d b => some (mkE 56 e 2 d 0 b)
  | .vgath e d a b => some (mkE 56 e 3 d a b)
  | .vscat e d a b => some (mkE 56 e 4 d a b)
  | .vrng e d => some (mkE 56 e 5 d 0 0)
  | .vdrop e d a b => some (mkE 56 e 6 d a b)
  | .vsplit3 e d a => some (mkE 56 e 7 d a 0)
  | .viota e d => some (mkE 56 e 8 d 0 0)
  | .rsum e d a => some (mkE 58 e 0 d a 0)
  | .rmax e d a => some (mkE 58 e 1 d a 0)
  | .rmin e d a => some (mkE 58 e 2 d a 0)
  | .rsumsq e d a => some (mkE 58 e 3 d a 0)
  | .scanSum e d a => some (mkE 58 e 4 d a 0)
  | .scanMax e d a => some (mkE 58 e 5 d a 0)
  | .rdot e d a b => some (mkE 58 e 6 d a b)
  | .rargmax e d a => some (mkE 58 e 7 d a 0)
  | .rcnt e d a => some (mkE 58 e 8 d a 0)
  | .waitCmp e n => some (mkN 59 e 0 n)
  | .qfenceCmp e m => some (mkN 59 e 1 ((0#5 ++ m : BitVec 12)))
  | .cpyOut e d => some (mkE 60 e 0 d 0 0)
  | .cpyScat e d a => some (mkE 60 e 1 d a 0)
  | .stash e d => some (mkE 60 e 2 d 0 0)
  | .cpyXc e d => some (mkE 60 e 3 d 0 0)
  | .send e a => some (mkE 61 e 0 0 a 0)
  | .sendG e a => some (mkE 61 e 1 0 a 0)
  | .evpost e => some (mkE 61 e 2 0 0 0)
  | .waitSt e n => some (mkN 61 e 8 n)
  | .qfenceSt e m => some (mkN 61 e 9 ((0#5 ++ m : BitVec 12)))
  | .tret => some (mkA 0x22 0 0 0 1)
  | .halt => some (mkA 0x22 0 0 0 2)
  | .fence => some (mkA 0x22 0 0 0 3)
  | .ifb => some (mkA 0x22 0 0 0 4)
  | .txvote  => some (mkA 39 0 0 0 1)
  | .txabort  => some (mkA 39 0 0 0 4)
  | .sstepCluster  => some (mkA 40 0 0 0 0)
  | .sstepDie  => some (mkA 40 0 0 0 1)
  | .sstepDevice  => some (mkA 40 0 0 0 2)
  | .sstepHerd  => some (mkA 40 0 0 0 3)
  | .sstepJob  => some (mkA 40 0 0 0 4)
  | .yield  => some (mkA 44 0 0 0 1)
  | .sfExp2 e d a => some (mkE 57 e 0 d a 0)
  | .sfLog2 e d a => some (mkE 57 e 1 d a 0)
  | .sfRcp e d a => some (mkE 57 e 2 d a 0)
  | .sfRsqrt e d a => some (mkE 57 e 3 d a 0)
  | .sfSqrt e d a => some (mkE 57 e 4 d a 0)
  | .sfSinpi e d a => some (mkE 57 e 5 d a 0)
  | .sfCospi e d a => some (mkE 57 e 6 d a 0)
  | .sfTanh e d a => some (mkE 57 e 7 d a 0)
  | .sfLogistic e d a => some (mkE 57 e 8 d a 0)
  | .efExp2 e d a => some (mkE 57 e 16 d a 0)
  | .efLog2 e d a => some (mkE 57 e 17 d a 0)
  | .efRcp e d a => some (mkE 57 e 18 d a 0)
  | .efRsqrt e d a => some (mkE 57 e 19 d a 0)
  | .efSqrt e d a => some (mkE 57 e 20 d a 0)
  | .efSinpi e d a => some (mkE 57 e 21 d a 0)
  | .efCospi e d a => some (mkE 57 e 22 d a 0)
  | .efTanh e d a => some (mkE 57 e 23 d a 0)
  | .efLogistic e d a => some (mkE 57 e 24 d a 0)
  | .atomicHomePortPerform _ => none
  | .tableEntryPlace _ => none
  | .engineWordRoute => none
  | .overrun _ => none
  | .engineWordCompletion _ => none
  | .eventRecordHeldPost => none
  | .copyLineLanding _ => none
  | .copyMemoryWritePerform _ => none
  | .messagePieceLanding _ => none
  | .mapAccessLanding _ => none
  | .translationWalkComplete _ => none
  | .versionedAccess _ => none
  | .firstWriteLineCopy _ => none
  | .sweeperResolve _ => none
  | .deviceVoteSend => none
  | .outcomeArrival _ => none
  | .drainEngineTransfer => none
  | .drainAcknowledge => none
  | .fragmentArrival _ => none
  | .darnDecode _ => none
  | .messageDelivery _ => none
  | .unrecoverableLoss _ => none
  | .collectiveSourceRead _ => none
  | .collectiveDelivery _ => none
  | .windowFlushApply _ => none
  | .openingAlignmentBarrier => none
  | .barrierRelease _ => none
  | .queueTailWrite _ _ _ => none
  | .quantumEnd => none
  | .schedulerDecision => none
  | .launchDispatch _ => none
  | .launchPacketReceive _ _ => none
  | .launchCompletion => none
  | .preemptionRequest => none
  | .forcedSave => none
  | .trapEntry => none
  | .collieCompare _ => none
  | .stretchChange _ _ => none
  | .stretchForced _ => none
  | .chargeEntry => none
  | .accountingIntervalEnd _ _ _ => none
  | .coefficientSetEffect => none
  | .breakpointHit _ => none
  | .traceStop _ => none
  | .debugResume _ => none
  | .trctlWrite _ _ _ => none
  | .tlbinvPartition _ _ => none
  | .tlbinvPage _ _ => none
  | .tlbinvDone => none
  | .hmaskWrite _ _ _ => none
  | .playoutWrite _ _ => none
  | .pctlBind _ _ _ => none
  | .pctlUnbind _ _ _ => none
  | .pctlReset _ _ _ => none
  | .functionResetComplete => none
  | .eusedClear _ _ => none
  | .counterClear _ _ _ => none
  | .registerWrite _ _ _ => none
  | .controlLinkMemoryWrite _ _ _ => none
  | .controlLinkMemoryRead _ _ _ => none
  | .firmwareImage _ => none
  | .quoteRequest _ => none
  | .powerOn => none
  | .linkDown _ => none
  | .managementResetRequest => none
  | .linkUp _ => none
  | .correctedErrorWindowEnd => none

/-- A prefix word of kind `k` (R34). -/
def mkExt (k : BitVec 2) (v : BitVec 24) : Word32 := 0x3E#6 ++ k ++ v

/-- The IMM payload of an instruction that can carry one (R35). -/
def Instr.immOf : Instr → Option (BitVec 24)
  | .addi _ _ _ ext => ext
  | .andi _ _ _ ext => ext
  | .ori _ _ _ ext => ext
  | .xori _ _ _ ext => ext
  | .slti _ _ _ ext => ext
  | .lih _ _ ext => ext
  | .addpc _ _ ext => ext
  | .ldI8 _ _ _ ext => ext
  | .ldN8 _ _ _ ext => ext
  | .ldI16 _ _ _ ext => ext
  | .ldN16 _ _ _ ext => ext
  | .ldI32 _ _ _ ext => ext
  | .ldN32 _ _ _ ext => ext
  | .ld64 _ _ _ ext => ext
  | .st8 _ _ _ ext => ext
  | .st16 _ _ _ ext => ext
  | .st32 _ _ _ ext => ext
  | .st64 _ _ _ ext => ext
  | .beq _ _ _ ext => ext
  | .bne _ _ _ ext => ext
  | .blt _ _ _ ext => ext
  | .bge _ _ _ ext => ext
  | .bltn _ _ _ ext => ext
  | .bgen _ _ _ ext => ext
  | .j _ ext => ext
  | .jal _ ext => ext
  | .jalr _ _ _ ext => ext
  | _ => none

/-- The engine bits of an engine word. -/
def Instr.engOf : Instr → Option EngBits
  | .cpyIn e _ => some e
  | .cpyInT e _ => some e
  | .cpyGath e _ _ => some e
  | .cpyPf e _ => some e
  | .gpush e _ _ => some e
  | .ggath e _ _ _ => some e
  | .greset e _ => some e
  | .recv e _ => some e
  | .recvG e _ => some e
  | .recvM e _ => some e
  | .waitLd e _ => some e
  | .qfenceLd e _ => some e
  | .mma e _ _ _ => some e
  | .mmaKb e _ _ _ => some e
  | .mdrain e _ _ => some e
  | .mzero e _ => some e
  | .mtpbLd e _ _ => some e
  | .mtpbSt e _ _ => some e
  | .mlsfTest e _ _ => some e
  | .mlsfRd e _ _ => some e
  | .mlsfClr e _ => some e
  | .maudit e _ => some e
  | .vadd e _ _ _ => some e
  | .vsub e _ _ _ => some e
  | .vmul e _ _ _ => some e
  | .vfma e _ _ _ => some e
  | .vmin e _ _ _ => some e
  | .vmax e _ _ _ => some e
  | .vabs e _ _ => some e
  | .vneg e _ _ => some e
  | .vaddY e _ _ _ => some e
  | .vmulY e _ _ _ => some e
  | .vfmaY e _ _ _ => some e
  | .vmulM e _ _ _ => some e
  | .vmaxY e _ _ _ => some e
  | .vminY e _ _ _ => some e
  | .vceq e _ _ _ => some e
  | .vcne e _ _ _ => some e
  | .vclt e _ _ _ => some e
  | .vcle e _ _ _ => some e
  | .vsel e _ _ _ => some e
  | .vand e _ _ _ => some e
  | .vor e _ _ _ => some e
  | .vxor e _ _ _ => some e
  | .vnot e _ _ => some e
  | .vshl e _ _ _ => some e
  | .vshr e _ _ _ => some e
  | .vsra e _ _ _ => some e
  | .vaddsat e _ _ _ => some e
  | .vsubsat e _ _ _ => some e
  | .vmulhi e _ _ _ => some e
  | .vclass e _ _ => some e
  | .vcvt e _ _ => some e
  | .vmov e _ _ => some e
  | .vfillY e _ _ => some e
  | .vgath e _ _ _ => some e
  | .vscat e _ _ _ => some e
  | .vrng e _ => some e
  | .vdrop e _ _ _ => some e
  | .vsplit3 e _ _ => some e
  | .viota e _ => some e
  | .rsum e _ _ => some e
  | .rmax e _ _ => some e
  | .rmin e _ _ => some e
  | .rsumsq e _ _ => some e
  | .scanSum e _ _ => some e
  | .scanMax e _ _ => some e
  | .rdot e _ _ _ => some e
  | .rargmax e _ _ => some e
  | .rcnt e _ _ => some e
  | .waitCmp e _ => some e
  | .qfenceCmp e _ => some e
  | .cpyOut e _ => some e
  | .cpyScat e _ _ => some e
  | .stash e _ => some e
  | .cpyXc e _ => some e
  | .send e _ => some e
  | .sendG e _ => some e
  | .evpost e => some e
  | .waitSt e _ => some e
  | .qfenceSt e _ => some e
  | .sfExp2 e _ _ => some e
  | .sfLog2 e _ _ => some e
  | .sfRcp e _ _ => some e
  | .sfRsqrt e _ _ => some e
  | .sfSqrt e _ _ => some e
  | .sfSinpi e _ _ => some e
  | .sfCospi e _ _ => some e
  | .sfTanh e _ _ => some e
  | .sfLogistic e _ _ => some e
  | .efExp2 e _ _ => some e
  | .efLog2 e _ _ => some e
  | .efRcp e _ _ => some e
  | .efRsqrt e _ _ => some e
  | .efSqrt e _ _ => some e
  | .efSinpi e _ _ => some e
  | .efCospi e _ _ => some e
  | .efTanh e _ _ => some e
  | .efLogistic e _ _ => some e
  | _ => none

/-- The prefix words of an instruction: IMM, or STAMP and META in this order (R54). -/
def encodePrefixes (i : Instr) : List Word32 :=
  (match i.immOf with
   | some v => [mkExt 0 v]
   | none => [])
  ++ (match i.engOf with
   | none => []
   | some e =>
     (match e.stamp with
      | some v => [mkExt 1 v]
      | none => [])
     ++ (match e.metaP with
      | some v => [mkExt 3 v]
      | none => []))

/-- The words of an instruction, prefixes first. -/
def encode (i : Instr) : Option (List Word32) :=
  match encodeWord i with
  | some w => some (encodePrefixes i ++ [w])
  | none => none

/-- The bytes of a word, little-endian (R3). -/
def bytesOfWord (w : Word32) : List Byte :=
  [w.extractLsb' 0 8, w.extractLsb' 8 8, w.extractLsb' 16 8, w.extractLsb' 24 8]

/-- The bytes of an instruction. -/
def encodeBytes (i : Instr) : Option (List Byte) :=
  match encode i with
  | some ws => some (ws.flatMap bytesOfWord)
  | none => none

/-- The instruction the decoder reads from the table's word `w` of `nbits` bits. Words are 32 bits, so one word holds
the row; what stands above it is zero. -/
noncomputable def decodeTableWord (nbits w : Nat) : Option Instr :=
  match decode (bytesOfWord (BitVec.ofNat 32 (w % 2 ^ nbits))) with
  | .ok (i, _) => some i
  | .error _ => none

end Sys2Proof
end

