-- ==== Sys2Proof/Config.lean ====
section
/-! DEFINITION. What an implementation fixes, and the values that the spec leaves open. An `opaque` constant has no
body: no proof and no evaluation can see its value. -/

namespace Sys2Proof.Config

/-- The device that keeps a device's checkpoints: system software sets it, and the spec names no register for it (R301). -/
opaque buddy : Nat → BitVec 18

/-- The address in the buddy's plain region that bytes of a drain message go to, by source device and message number: set by system
software, with no register of the spec (R301, R309). -/
opaque drainHome : Nat → Nat → Nat

/-- How many beats before q the lead of a launch on several devices sends its report of a request at q: before q, and no more is said
(R382). -/
opaque reportLead : Nat

/-- The refresh commands of the 512 pseudo-channels, and the idle port beats, of an accounting interval: a matter of memory timing and of
what the fabric carries (R360, R364). The argument numbers the interval. -/
opaque refreshes : Nat → Nat
opaque idleBeats : Nat → Nat

/-- A byte of a line whose dirty copy a reset has dropped: the spec does not say what memory holds there (R357). The first
argument is a number drawn from the state's counter, the second the byte's place in the line. -/
opaque lostByte : Nat → Nat → BitVec 8

/-! What the trusted root holds in fuses and computes with its device key (R410-R412): the spec gives no values. -/

/-- The fused SHA-384 digests of the public keys that images are verified against: of the ECDSA key and of the LMS key. -/
opaque fusedEcdsa : List (BitVec 8)
opaque fusedLms : List (BitVec 8)
/-- The fused minimum security version of a kind of image. -/
opaque fusedMin : ImageKind → BitVec 32
/-- The signed quote over measurement registers, identification word and nonce. -/
opaque quote : List (List (BitVec 8)) → BitVec 32 → List (BitVec 8) → List (BitVec 64)

end Sys2Proof.Config
end

