-- ==== Sys2Proof/Machine/Maps.lean ====
section
/-! DEFINITION. Sparse tables with a default: lists of (key, value) in one canonical form, keys strictly rising and no
value equal to the default. Memories, register files and directories of the state are all of this form. -/

namespace Sys2Proof.Machine

/-- A sparse table. -/
abbrev SMap (α : Type) := List (Nat × α)

/-- The value at `k`, `d` where the table lists nothing. -/
def mget {α : Type} (d : α) : SMap α → Nat → α
  | [], _ => d
  | (k', v) :: r, k => if k' = k then v else mget d r k

/-- The table without `k`. -/
def mdrop {α : Type} : SMap α → Nat → SMap α
  | [], _ => []
  | (k', v) :: r, k => if k' = k then mdrop r k else (k', v) :: mdrop r k

/-- The table with `v` at `k`; the default is never listed. -/
def mput {α : Type} [DecidableEq α] (d : α) : SMap α → Nat → α → SMap α
  | [], k, v => if v = d then [] else [(k, v)]
  | (k', v') :: r, k, v =>
    if k' = k then mput d r k v
    else if k < k' then (if v = d then (k', v') :: mdrop r k else (k, v) :: (k', v') :: mdrop r k)
    else (k', v') :: mput d r k v

/-- Every key lies above `lo` and rises, and no value is the default. -/
def mwfAbove {α : Type} [DecidableEq α] (d : α) : Nat → SMap α → Bool
  | _, [] => true
  | lo, (k, v) :: r => decide (lo ≤ k) && decide (v ≠ d) && mwfAbove d (k + 1) r

/-- The canonical form. -/
def mwf {α : Type} [DecidableEq α] (d : α) (m : SMap α) : Bool := mwfAbove d 0 m

/-- Write a list of values from key `k` on. -/
def mputs {α : Type} [DecidableEq α] (d : α) (m : SMap α) (k : Nat) : List α → SMap α
  | [] => m
  | v :: r => mputs d (mput d m k v) (k + 1) r

/-- Read `n` values from key `k` on. -/
def mgets {α : Type} (d : α) (m : SMap α) (k : Nat) : Nat → List α
  | 0 => []
  | n + 1 => mget d m k :: mgets d m (k + 1) n

/-- Drop every key of `[lo, hi)`. -/
def mclear {α : Type} (m : SMap α) (lo hi : Nat) : SMap α := m.filter (fun p => p.1 < lo || hi ≤ p.1)

/-- A byte of memory that nothing has written reads zero. -/
def byteDefault : Byte := 0

/-- The canonical form of a byte memory. -/
def Memory.wf (m : List Host.Cell) : Bool := mwf byteDefault m

end Sys2Proof.Machine
end

