-- ==== Sys2Proof/Machine/Bits.lean ====
section
/-! DEFINITION. Bit fields, byte order and sign extension (00_scope R2, R3, R7). -/

namespace Sys2Proof.Machine

/-- Bits hi:lo of a number (R3). -/
def bits (v hi lo : Nat) : Nat := v / 2 ^ lo % 2 ^ (hi + 1 - lo)

/-- Bit i of a number. -/
def bit (v i : Nat) : Bool := v / 2 ^ i % 2 == 1

/-- Bits hi:lo of a 64-bit word as a number (R3). -/
def fld (w : Word64) (hi lo : Nat) : Nat := bits w.toNat hi lo

/-- A flag as a number. -/
def b2n (b : Bool) : Nat := if b then 1 else 0

/-- The w-bit two's-complement reading of a number. -/
def signed (w v : Nat) : Int := if v % 2 ^ w < 2 ^ (w - 1) then (v % 2 ^ w : Int) else (v % 2 ^ w : Int) - 2 ^ w

/-- The w-bit pattern of an integer. -/
def pat (w : Nat) (v : Int) : Nat := (v % (2 ^ w : Int)).toNat

/-- A 64-bit word from a number. -/
def w64 (v : Nat) : Word64 := BitVec.ofNat 64 v

/-- The number of a byte list, little-endian (R3). -/
def leNat : List Byte → Nat
  | [] => 0
  | b :: r => b.toNat + 256 * leNat r

/-- The low n bytes of a number, little-endian (R3). -/
def leBytes (v : Nat) : Nat → List Byte
  | 0 => []
  | n + 1 => BitVec.ofNat 8 v :: leBytes (v / 256) n

/-- The value of a list at `i`, `d` beyond its end. -/
def listAt {α : Type} (d : α) : List α → Nat → α
  | [], _ => d
  | x :: _, 0 => x
  | _ :: r, n + 1 => listAt d r n

/-- The list with `v` at `i`. -/
def listSet {α : Type} : List α → Nat → α → List α
  | [], _, _ => []
  | _ :: r, 0, v => v :: r
  | x :: r, n + 1, v => x :: listSet r n v

/-- The numbers lo, lo+1, …, lo+n−1. -/
def countUp (lo : Nat) : Nat → List Nat
  | 0 => []
  | n + 1 => lo :: countUp (lo + 1) n

/-- floor(a/b) rounded up, 0 for b = 0. -/
def ceilDiv (a b : Nat) : Nat := if b = 0 then 0 else (a + b - 1) / b

end Sys2Proof.Machine
end

