-- ==== Sys2Proof/Machine/Num.lean ====
section
/-! DEFINITION. Numbers exactly, and their roundings: the floating, logarithmic, integer and residue formats of
03_streams_formats (R61-R85) and the scalar floating rules of 05_control (R125-R129). A finite value is
(−1)^neg · m · 2^e; every operation is computed exactly and rounded once, at the end. -/

namespace Sys2Proof.Machine

/-- A value that an element or a register holds. -/
inductive Val where
  | nan (signalling : Bool)
  | inf (neg : Bool)
  | fin (neg : Bool) (m : Nat) (e : Int)
  deriving DecidableEq, Repr, Inhabited

/-- Rounding modes, in FRM's order (R133). -/
inductive Rm where
  | rne | rtn | rtp | rtz
  deriving DecidableEq, Repr, Inhabited

/-- The mode of an FRM value (R133). -/
def Rm.ofCode (n : Nat) : Rm :=
  match n % 4 with
  | 0 => .rne
  | 1 => .rtn
  | 2 => .rtp
  | _ => .rtz

/-- A linear floating format (R72): exponent and fraction widths, bias, and whether infinity exists. -/
structure Fp where
  eb : Nat
  fb : Nat
  bias : Nat
  hasInf : Bool
  deriving DecidableEq, Repr, Inhabited

def fpF64 : Fp := ⟨11, 52, 1023, true⟩
def fpF32 : Fp := ⟨8, 23, 127, true⟩
def fpF16 : Fp := ⟨5, 10, 15, true⟩
def fpBf16 : Fp := ⟨8, 7, 127, true⟩
def fpE4m3 : Fp := ⟨4, 3, 7, false⟩
def fpE5m2 : Fp := ⟨5, 2, 15, true⟩

/-- Bits of the format. -/
def Fp.width (f : Fp) : Nat := 1 + f.eb + f.fb
/-- The exponent of the smallest subnormal. -/
def Fp.emin (f : Fp) : Int := 1 - (f.bias : Int) - f.fb
/-- The largest exponent code. -/
def Fp.emax (f : Fp) : Nat := 2 ^ f.eb - 1
/-- The canonical NaN (R72, R126). -/
def Fp.canonNan (f : Fp) : Nat :=
  if f.hasInf then f.emax * 2 ^ f.fb + 2 ^ (f.fb - 1) else 2 ^ (f.eb + f.fb) - 1
/-- The pattern of infinity, or of the largest magnitude where there is none. -/
def Fp.infPat (f : Fp) (neg : Bool) : Nat := b2n neg * 2 ^ (f.eb + f.fb) + f.emax * 2 ^ f.fb
/-- The pattern of the largest finite value. -/
def Fp.maxPat (f : Fp) (neg : Bool) : Nat :=
  b2n neg * 2 ^ (f.eb + f.fb) + (if f.hasInf then f.emax * 2 ^ f.fb - 1 else 2 ^ (f.eb + f.fb) - 2)

/-- Decode a pattern (R72, R73). -/
def Fp.decode (f : Fp) (v : Nat) : Val :=
  let neg := bit v (f.eb + f.fb)
  let ex := v / 2 ^ f.fb % 2 ^ f.eb
  let fr := v % 2 ^ f.fb
  if f.hasInf && ex == f.emax then
    (if fr == 0 then .inf neg else .nan (!bit fr (f.fb - 1)))
  else if !f.hasInf && ex == f.emax && fr == 2 ^ f.fb - 1 then .nan false
  else if ex == 0 then .fin neg fr (if fr == 0 then 0 else f.emin)
  else .fin neg (2 ^ f.fb + fr) (f.emin + ex - 1)

/-- floor(log2 v) of v = num/den for num > 0. -/
def ratLog (num den : Nat) : Int :=
  let l : Int := (Nat.log2 num : Int) - Nat.log2 den
  let ge : Bool := if 0 ≤ l then den * 2 ^ l.toNat ≤ num else den ≤ num * 2 ^ (-l).toNat
  if ge then l else l - 1

/-- Round a magnitude: is the integer below kept, given remainder r of divisor d? -/
def roundUp (rm : Rm) (neg : Bool) (q r d : Nat) : Bool :=
  match rm with
  | .rne => decide (d < 2 * r) || (2 * r == d && q % 2 == 1)
  | .rtn => neg && decide (0 < r)
  | .rtp => !neg && decide (0 < r)
  | .rtz => false

/-- The multiple q of 2^x nearest to num/den · 2^e by the mode, and whether it is inexact. -/
def roundAt (rm : Rm) (neg : Bool) (num den : Nat) (e x : Int) : Nat × Bool :=
  let n := if x ≤ e then num * 2 ^ (e - x).toNat else num
  let d := if x ≤ e then den else den * 2 ^ (x - e).toNat
  let q := n / d
  let r := n % d
  (if roundUp rm neg q r d then q + 1 else q, decide (0 < r))

/-- Round num/den · 2^e to p bits with exponent at least lo: significand, exponent, inexact. -/
def roundBits (rm : Rm) (neg : Bool) (p : Nat) (lo : Option Int) (num den : Nat) (e : Int) : Nat × Int × Bool :=
  if num = 0 then (0, 0, false) else
    let x0 := ratLog num den + e - p + 1
    let x := match lo with
      | some l => if x0 < l then l else x0
      | none => x0
    let (q, i) := roundAt rm neg num den e x
    if q = 2 ^ p then (2 ^ (p - 1), x + 1, i) else (q, x, i)

/-- The pattern of (−1)^neg · q · 2^x, a value of the format with q of at most fb+1 bits. -/
def Fp.pack (f : Fp) (neg : Bool) (q : Nat) (x : Int) : Nat :=
  let s := b2n neg * 2 ^ (f.eb + f.fb)
  if q < 2 ^ f.fb then s + q else s + ((x - f.emin).toNat + 1) * 2 ^ f.fb + (q - 2 ^ f.fb)

/-- (−1)^neg · q · 2^x lies beyond the largest finite value. -/
def Fp.over (f : Fp) (q : Nat) (x : Int) : Bool :=
  if q < 2 ^ f.fb then false
  else
    let ex := (x - f.emin).toNat + 1
    if f.hasInf then decide (f.emax ≤ ex)
    else decide (f.emax < ex) || (ex == f.emax && q == 2 ^ (f.fb + 1) - 1)

/-- The mode rounds a finite overflow to infinity (R125). -/
def Rm.toInf (rm : Rm) (neg : Bool) : Bool :=
  match rm with
  | .rne => true
  | .rtn => neg
  | .rtp => !neg
  | .rtz => false

/-! ### Flags (R132) -/

def fNv : Nat := 1
def fOf : Nat := 2
def fNs : Nat := 4
def fDz : Nat := 8
def fUf : Nat := 16
def fNx : Nat := 32
def fLs : Nat := 64
def fRo : Nat := 128
def fIz : Nat := 256

/-- The union of two flag sets. -/
def fOr (a b : Nat) : Nat := a ||| b

/-! ### Scalar rounding (R125, R126) -/

/-- A scalar result: num/den · 2^e rounded in the mode, with of, uf and nx. -/
def Fp.scalarRound (f : Fp) (rm : Rm) (neg : Bool) (num den : Nat) (e : Int) : Nat × Nat :=
  let (q, x, i) := roundBits rm neg (f.fb + 1) (some f.emin) num den e
  let (qu, xu, _) := roundBits rm neg (f.fb + 1) none num den e
  let tiny := decide (qu ≠ 0) && decide (ratLog qu 1 + xu < f.emin + f.fb)
  if f.over q x then
    (if rm.toInf neg then f.infPat neg else f.maxPat neg, fOr fOf fNx)
  else (f.pack neg q x, fOr (if i then fNx else 0) (if tiny && i then fUf else 0))

/-- The exact sum of two finite values: sign, magnitude, exponent; the sign of an exact zero by IEEE 754. -/
def addFin (rm : Rm) (n1 : Bool) (m1 : Nat) (e1 : Int) (n2 : Bool) (m2 : Nat) (e2 : Int) : Bool × Nat × Int :=
  let e := if e1 ≤ e2 then e1 else e2
  let a : Int := (m1 * 2 ^ (e1 - e).toNat : Nat)
  let b : Int := (m2 * 2 ^ (e2 - e).toNat : Nat)
  let s := (if n1 then -a else a) + (if n2 then -b else b)
  if s = 0 then
    (if m1 = 0 && m2 = 0 && n1 == n2 then n1 else decide (rm = .rtn), 0, 0)
  else (decide (s < 0), s.natAbs, e)

/-- A signalling NaN sets nv. -/
def Val.sigFlag : Val → Nat
  | .nan true => fNv
  | _ => 0

/-- xa + xb (R125). -/
def Fp.add (f : Fp) (rm : Rm) (a b : Nat) : Nat × Nat :=
  let x := f.decode a
  let y := f.decode b
  let sf := fOr x.sigFlag y.sigFlag
  match x, y with
  | .nan _, _ => (f.canonNan, sf)
  | _, .nan _ => (f.canonNan, sf)
  | .inf n1, .inf n2 => if n1 == n2 then (f.infPat n1, 0) else (f.canonNan, fNv)
  | .inf n, _ => (f.infPat n, 0)
  | _, .inf n => (f.infPat n, 0)
  | .fin n1 m1 e1, .fin n2 m2 e2 =>
    let (n, m, e) := addFin rm n1 m1 e1 n2 m2 e2
    f.scalarRound rm n m 1 e

/-- The pattern with its sign bit inverted. -/
def Fp.flip (f : Fp) (a : Nat) : Nat :=
  if bit a (f.eb + f.fb) then a - 2 ^ (f.eb + f.fb) else a + 2 ^ (f.eb + f.fb)

/-- xa − xb (R125). -/
def Fp.sub (f : Fp) (rm : Rm) (a b : Nat) : Nat × Nat := f.add rm a (f.flip b)

/-- xa · xb (R125). -/
def Fp.mul (f : Fp) (rm : Rm) (a b : Nat) : Nat × Nat :=
  let x := f.decode a
  let y := f.decode b
  let sf := fOr x.sigFlag y.sigFlag
  match x, y with
  | .nan _, _ => (f.canonNan, sf)
  | _, .nan _ => (f.canonNan, sf)
  | .inf n1, .inf n2 => (f.infPat (n1 != n2), 0)
  | .inf n1, .fin n2 m _ => if m = 0 then (f.canonNan, fNv) else (f.infPat (n1 != n2), 0)
  | .fin n1 m _, .inf n2 => if m = 0 then (f.canonNan, fNv) else (f.infPat (n1 != n2), 0)
  | .fin n1 m1 e1, .fin n2 m2 e2 => f.scalarRound rm (n1 != n2) (m1 * m2) 1 (e1 + e2)

/-- xa / xb (R125, R126). -/
def Fp.div (f : Fp) (rm : Rm) (a b : Nat) : Nat × Nat :=
  let x := f.decode a
  let y := f.decode b
  let sf := fOr x.sigFlag y.sigFlag
  match x, y with
  | .nan _, _ => (f.canonNan, sf)
  | _, .nan _ => (f.canonNan, sf)
  | .inf _, .inf _ => (f.canonNan, fNv)
  | .inf n1, .fin n2 _ _ => (f.infPat (n1 != n2), 0)
  | .fin n1 _ _, .inf n2 => (f.pack (n1 != n2) 0 0, 0)
  | .fin n1 m1 e1, .fin n2 m2 e2 =>
    if m2 = 0 then (if m1 = 0 then (f.canonNan, fNv) else (f.infPat (n1 != n2), fDz))
    else f.scalarRound rm (n1 != n2) m1 m2 (e1 - e2)

/-- One Newton step of the integer square root, `fuel` times. -/
def isqrtGo (n : Nat) : Nat → Nat → Nat
  | 0, x => x
  | fuel + 1, x =>
    let y := (x + n / x) / 2
    if x ≤ y then x else isqrtGo n fuel y

/-- floor(√n). -/
def isqrt (n : Nat) : Nat := if n = 0 then 0 else isqrtGo n (Nat.log2 n + 4) (2 ^ (Nat.log2 n / 2 + 1))

/-- √(m·2^e) to at least p+3 bits with a sticky half: (s', e') with the root in s'·2^e' exactly when s' is even, and
strictly between the neighbours when odd. -/
def sqrtSticky (p m : Nat) (e : Int) : Nat × Int :=
  let odd := e % 2 == 1
  let m1 := if odd then 2 * m else m
  let e1 := if odd then e - 1 else e
  let k := p + 3
  let n := m1 * 4 ^ k
  let s := isqrt n
  (2 * s + (if s * s = n then 0 else 1), e1 / 2 - k - 1)

/-- √xa (R125, R126). -/
def Fp.sqrt (f : Fp) (rm : Rm) (a : Nat) : Nat × Nat :=
  match f.decode a with
  | .nan s => (f.canonNan, if s then fNv else 0)
  | .inf n => if n then (f.canonNan, fNv) else (f.infPat false, 0)
  | .fin n m e =>
    if m = 0 then (f.pack n 0 0, 0)
    else if n then (f.canonNan, fNv)
    else
      let (s, x) := sqrtSticky (f.fb + 1) m e
      f.scalarRound rm false s 1 x

/-- xa · xb + xd with one rounding (R125). -/
def Fp.fma (f : Fp) (rm : Rm) (a b c : Nat) : Nat × Nat :=
  let x := f.decode a
  let y := f.decode b
  let z := f.decode c
  let sf := fOr (fOr x.sigFlag y.sigFlag) z.sigFlag
  let badProd := match x, y with
    | .inf _, .fin _ m _ => m == 0
    | .fin _ m _, .inf _ => m == 0
    | _, _ => false
  if badProd then (f.canonNan, fNv)
  else
    match x, y, z with
    | .nan _, _, _ => (f.canonNan, sf)
    | _, .nan _, _ => (f.canonNan, sf)
    | _, _, .nan _ => (f.canonNan, sf)
    | .fin n1 m1 e1, .fin n2 m2 e2, .fin n3 m3 e3 =>
      let (n, m, e) := addFin rm (n1 != n2) (m1 * m2) (e1 + e2) n3 m3 e3
      f.scalarRound rm n m 1 e
    | .fin _ _ _, .fin _ _ _, .inf n3 => (f.infPat n3, 0)
    | .inf n1, .inf n2, z | .inf n1, .fin n2 _ _, z | .fin n1 _ _, .inf n2, z =>
      match z with
      | .inf n3 => if (n1 != n2) == n3 then (f.infPat n3, 0) else (f.canonNan, fNv)
      | _ => (f.infPat (n1 != n2), 0)

/-- The order of two values that are no NaN, −0 below +0: true when x is below y (R127). -/
def Val.lessTotal : Val → Val → Bool
  | .inf n, .inf k => n && !k
  | .inf n, _ => n
  | _, .inf k => !k
  | .fin n1 m1 e1, .fin n2 m2 e2 =>
    if m1 = 0 && m2 = 0 then n1 && !n2
    else
      let e := if e1 ≤ e2 then e1 else e2
      let a : Int := (m1 * 2 ^ (e1 - e).toNat : Nat)
      let b : Int := (m2 * 2 ^ (e2 - e).toNat : Nat)
      decide ((if n1 then -a else a) < (if n2 then -b else b))
  | _, _ => false

/-- x < y as reals, both zeros equal. -/
def Val.less (x y : Val) : Bool :=
  match x, y with
  | .fin _ m1 _, .fin _ m2 _ => if m1 = 0 && m2 = 0 then false else x.lessTotal y
  | _, _ => x.lessTotal y

/-- A NaN. -/
def Val.isNan : Val → Bool
  | .nan _ => true
  | _ => false

/-- The minimum and maximum rule shared by the scalar, vector and atomic forms (R127). -/
def Fp.minmax (f : Fp) (mx : Bool) (a b : Nat) : Nat × Nat :=
  let x := f.decode a
  let y := f.decode b
  match x, y with
  | .nan true, _ => (f.canonNan, fNv)
  | _, .nan true => (f.canonNan, fNv)
  | .nan _, .nan _ => (f.canonNan, 0)
  | .nan _, _ => (b % 2 ^ f.width, 0)
  | _, .nan _ => (a % 2 ^ f.width, 0)
  | _, _ =>
    let r := if mx then (if x.lessTotal y then b else a) else (if y.lessTotal x then b else a)
    (r % 2 ^ f.width, 0)

/-- fceq: 1 when equal; nv for a signalling NaN only (R128). -/
def Fp.ceq (f : Fp) (a b : Nat) : Bool × Nat :=
  let x := f.decode a
  let y := f.decode b
  (!x.isNan && !y.isNan && !x.less y && !y.less x, fOr x.sigFlag y.sigFlag)

/-- fclt: any NaN gives 0 and sets nv (R128). -/
def Fp.clt (f : Fp) (a b : Nat) : Bool × Nat :=
  let x := f.decode a
  let y := f.decode b
  if x.isNan || y.isNan then (false, fNv) else (x.less y, 0)

/-- fcle: any NaN gives 0 and sets nv (R128). -/
def Fp.cle (f : Fp) (a b : Nat) : Bool × Nat :=
  let x := f.decode a
  let y := f.decode b
  if x.isNan || y.isNan then (false, fNv) else (!y.less x, 0)

/-- The class code of a pattern (R128). -/
def Fp.classCode (f : Fp) (a : Nat) : Nat :=
  match f.decode a with
  | .nan s => if s then 10 else 8
  | .inf n => 6 + b2n n
  | .fin n m _ =>
    if m = 0 then b2n n else (if a / 2 ^ f.fb % 2 ^ f.eb = 0 then 2 else 4) + b2n n

/-- A finite value rounded to an integer by the mode, and whether it was inexact. -/
def roundInt (rm : Rm) (neg : Bool) (m : Nat) (e : Int) : Int × Bool :=
  let (q, i) := roundAt rm neg m 1 e 0
  (if neg then -(q : Int) else q, i)

/-- fcvt.i64.T and fcvt.n64.T: round and saturate (R129). -/
def Fp.toInt64 (f : Fp) (rm : Rm) (sgn : Bool) (a : Nat) : Nat × Nat :=
  let lo : Int := if sgn then -(2 ^ 63) else 0
  let hi : Int := if sgn then 2 ^ 63 - 1 else 2 ^ 64 - 1
  match f.decode a with
  | .nan _ => (0, fNv)
  | .inf n => (pat 64 (if n then lo else hi), fNs)
  | .fin n m e =>
    let (v, i) := roundInt rm n m e
    if v < lo then (pat 64 lo, fNs)
    else if hi < v then (pat 64 hi, fNs)
    else (pat 64 v, if i then fNx else 0)

/-- An integer rounded to T (R129). -/
def Fp.ofInt (f : Fp) (rm : Rm) (v : Int) : Nat × Nat :=
  f.scalarRound rm (decide (v < 0)) v.natAbs 1 0

/-- A scalar value of another format rounded to this one (R129). -/
def Fp.convert (f g : Fp) (rm : Rm) (a : Nat) : Nat × Nat :=
  match g.decode a with
  | .nan s => (f.canonNan, if s then fNv else 0)
  | .inf n => (f.infPat n, 0)
  | .fin n m e => if m = 0 then (f.pack n 0 0, 0) else f.scalarRound rm n m 1 e

/-! ### Stream formats (R61) -/

/-- The format codes of R61. -/
inductive Fmt where
  | f32 | f16 | bf16 | e4m3 | e5m2 | l6 | l4 | e8 | i8 | n8 | i16 | n16 | i32 | n32 | i64 | n64 | m31 | m61
  deriving DecidableEq, Repr, Inhabited

/-- A format from its code (R61). -/
def Fmt.ofCode (n : Nat) : Option Fmt :=
  match n with
  | 0 => some .f32 | 1 => some .f16 | 2 => some .bf16 | 3 => some .e4m3 | 4 => some .e5m2 | 5 => some .l6
  | 6 => some .l4 | 7 => some .e8 | 8 => some .i8 | 9 => some .n8 | 10 => some .i16 | 11 => some .n16
  | 12 => some .i32 | 13 => some .n32 | 14 => some .i64 | 15 => some .n64 | 16 => some .m31 | 17 => some .m61
  | _ => none

/-- A format's code (R61). -/
def Fmt.code : Fmt → Nat
  | .f32 => 0 | .f16 => 1 | .bf16 => 2 | .e4m3 => 3 | .e5m2 => 4 | .l6 => 5 | .l4 => 6 | .e8 => 7 | .i8 => 8
  | .n8 => 9 | .i16 => 10 | .n16 => 11 | .i32 => 12 | .n32 => 13 | .i64 => 14 | .n64 => 15 | .m31 => 16 | .m61 => 17

/-- The classes of R61. -/
inductive Class where
  | floating | scale | integer | residue
  deriving DecidableEq, Repr, Inhabited

def Fmt.cls : Fmt → Class
  | .f32 | .f16 | .bf16 | .e4m3 | .e5m2 | .l6 | .l4 => .floating
  | .e8 => .scale
  | .m31 | .m61 => .residue
  | _ => .integer

/-- Element bits (R61). -/
def Fmt.bits : Fmt → Nat
  | .f32 | .i32 | .n32 | .m31 => 32
  | .f16 | .bf16 | .i16 | .n16 => 16
  | .e4m3 | .e5m2 | .e8 | .i8 | .n8 => 8
  | .l6 => 6
  | .l4 => 4
  | .i64 | .n64 | .m61 => 64

/-- Bytes per element in the scratchpad; a natural L4 element is a nibble and is handled apart (R61, R69). -/
def Fmt.bytes (f : Fmt) : Nat := if f.bits < 8 then 1 else f.bits / 8

/-- The linear floating formats. -/
def Fmt.fp : Fmt → Option Fp
  | .f32 => some fpF32 | .f16 => some fpF16 | .bf16 => some fpBf16 | .e4m3 => some fpE4m3 | .e5m2 => some fpE5m2
  | _ => none

/-- Signed integer formats. -/
def Fmt.isSigned : Fmt → Bool
  | .i8 | .i16 | .i32 | .i64 => true
  | _ => false

/-- The modulus of a residue format (R79). -/
def Fmt.modulus : Fmt → Nat
  | .m31 => 2 ^ 31 - 1
  | _ => 2 ^ 61 - 1

/-- The frozen significands of R75. -/
def logT (f : Nat) : Nat :=
  match f with
  | 0 => 2048
  | 1 => 2435
  | 2 => 2896
  | _ => 3444

/-- logval(E, sign) of R76. -/
def logval (E : Int) (neg : Bool) : Val := .fin neg (logT (E % 4).toNat) (E / 4 - 11)

/-- A log-format code's quarter-exponent: none for zero and NaV (R74). -/
def logQuarter (f : Fmt) (v : Nat) : Option Int :=
  if f = .l6 then (if v % 32 = 0 then none else some ((v % 32 : Nat) - 16 : Int))
  else (if v % 8 = 0 then none else some (2 * (((v % 8 : Nat) : Int) - 4)))

/-- The sign bit of a log-format code (R74). -/
def logSign (f : Fmt) (v : Nat) : Bool := if f = .l6 then bit v 5 else bit v 3

/-- Decode an element of the floating class; NaV is a quiet NaN (R72-R76). -/
def Fmt.decode (f : Fmt) (v : Nat) : Val :=
  match f.fp with
  | some p => p.decode v
  | none =>
    match logQuarter f v with
    | some q => logval q (logSign f v)
    | none => if logSign f v then .nan false else .fin false 0 0

/-- An integer element's value (R78); a residue is decoded centred (R79). -/
def Fmt.toInt (f : Fmt) (v : Nat) : Int :=
  match f.cls with
  | .residue =>
    let r := v % 2 ^ f.bits % f.modulus
    if 2 * r ≤ f.modulus - 1 then (r : Int) else (r : Int) - f.modulus
  | _ => if f.isSigned then signed f.bits v else ((v % 2 ^ f.bits : Nat) : Int)

/-- Multiply a value by 2^k. -/
def Val.scale (v : Val) (k : Int) : Val :=
  match v with
  | .fin n m e => .fin n m (if m = 0 then e else e + k)
  | x => x

/-- The count of boundaries 2^((2c+1)/8), c from lo on, at or below m·2^e (L6; R83). -/
def l6Code (m : Nat) (e : Int) : Nat :=
  -- m^8·2^(8e) against 2^(2c+1)
  let m8 := m ^ 8
  let above (c : Int) : Bool :=
    let d := 2 * c + 1 - 8 * e
    if 0 ≤ d then decide (2 ^ d.toNat < m8) else decide (1 < m8 * 2 ^ (-d).toNat)
  (countUp 0 32).foldl (fun acc (i : Nat) => if above ((i : Int) - 16) then acc + 1 else acc) 0

/-- The same for L4 with boundaries 2^((2c−7)/4), c from 0 (R83). -/
def l4Code (m : Nat) (e : Int) : Nat :=
  let m4 := m ^ 4
  let above (c : Int) : Bool :=
    let d := 2 * c - 7 - 4 * e
    if 0 ≤ d then decide (2 ^ d.toNat < m4) else decide (1 < m4 * 2 ^ (-d).toNat)
  (countUp 0 8).foldl (fun acc (i : Nat) => if above (i : Int) then acc + 1 else acc) 0

/-- A conversion of num/den·2^e (den 1) to L6 or L4 (R83): code and flags. -/
def toLog (f : Fmt) (ovf : Bool) (v : Val) : Nat × Nat :=
  let top := if f = .l6 then 31 else 7
  let sb := if f = .l6 then 32 else 8
  let ovr (n : Bool) : Nat × Nat := if ovf then (sb, fOf) else (b2n n * sb + top, fNs)
  match v with
  | .nan s => (sb, if s then fNv else 0)
  | .inf n => ovr n
  | .fin n m e =>
    if m = 0 then (0, 0)
    else
      let c := if f = .l6 then l6Code m e else l4Code m e
      if c = 0 then (0, 0) else if top < c then ovr n else (b2n n * sb + c, 0)

/-- A conversion of an exact value to a linear floating format (R82): pattern and flags. -/
def Fp.ofExact (f : Fp) (rm : Rm) (ovf : Bool) (neg : Bool) (num den : Nat) (e : Int) : Nat × Nat :=
  let (q, x, _) := roundBits rm neg (f.fb + 1) (some f.emin) num den e
  if f.over q x then (if ovf then (f.canonNan, fOf) else (f.maxPat neg, fNs)) else (f.pack neg q x, 0)

/-- R82 for any value. -/
def Fp.ofVal (f : Fp) (rm : Rm) (ovf : Bool) (v : Val) : Nat × Nat :=
  match v with
  | .nan s => (f.canonNan, if s then fNv else 0)
  | .inf n => if f.hasInf then (f.infPat n, 0) else (if ovf then (f.canonNan, fOf) else (f.maxPat n, fNs))
  | .fin n m e => f.ofExact rm ovf n m 1 e

/-- An integer within the range of an integer format, saturated (R84). -/
def Fmt.satInt (f : Fmt) (v : Int) : Nat × Nat :=
  let lo : Int := if f.isSigned then -(2 ^ (f.bits - 1)) else 0
  let hi : Int := if f.isSigned then 2 ^ (f.bits - 1) - 1 else 2 ^ f.bits - 1
  if v < lo then (pat f.bits lo, fNs) else if hi < v then (pat f.bits hi, fNs) else (pat f.bits v, 0)

/-- A floating value to an integer format (R84). -/
def Fmt.intOfVal (f : Fmt) (rm : Rm) (v : Val) : Nat × Nat :=
  let lo : Int := if f.isSigned then -(2 ^ (f.bits - 1)) else 0
  let hi : Int := if f.isSigned then 2 ^ (f.bits - 1) - 1 else 2 ^ f.bits - 1
  match v with
  | .nan _ => (0, fNv)
  | .inf n => (pat f.bits (if n then lo else hi), fNs)
  | .fin n m e => f.satInt (roundInt rm n m e).1

/-- A residue's canonical pattern (R79). -/
def Fmt.ofResidue (f : Fmt) (v : Int) : Nat := (v % (f.modulus : Int)).toNat

/-- A floating value into any format of the floating or integer class. -/
def Fmt.ofVal (f : Fmt) (rm : Rm) (ovf : Bool) (v : Val) : Nat × Nat :=
  match f.fp with
  | some p => p.ofVal rm ovf v
  | none => if f.cls = .floating then toLog f ovf v else f.intOfVal rm v

/-- A rounding of an exact real to f32 by nearest-even with infinity on overflow; no flags. -/
def f32OfFin (neg : Bool) (m : Nat) (e : Int) : Nat := (fpF32.scalarRound .rne neg m 1 e).1

/-! ### Exact sums and products of values -/

/-- x + y exactly; NaN for ∞ − ∞. -/
def Val.add (rm : Rm) (x y : Val) : Val :=
  match x, y with
  | .nan a, .nan b => .nan (a || b)
  | .nan a, _ => .nan a
  | _, .nan b => .nan b
  | .inf a, .inf b => if a == b then .inf a else .nan true
  | .inf a, _ => .inf a
  | _, .inf b => .inf b
  | .fin n1 m1 e1, .fin n2 m2 e2 =>
    let (n, m, e) := addFin rm n1 m1 e1 n2 m2 e2
    .fin n m e

/-- x · y exactly; NaN for 0 · ∞. -/
def Val.mul (x y : Val) : Val :=
  match x, y with
  | .nan a, .nan b => .nan (a || b)
  | .nan a, _ => .nan a
  | _, .nan b => .nan b
  | .inf a, .inf b => .inf (a != b)
  | .inf a, .fin b m _ => if m = 0 then .nan true else .inf (a != b)
  | .fin a m _, .inf b => if m = 0 then .nan true else .inf (a != b)
  | .fin n1 m1 e1, .fin n2 m2 e2 => .fin (n1 != n2) (m1 * m2) (if m1 * m2 = 0 then 0 else e1 + e2)

/-- The value with its sign inverted. -/
def Val.neg : Val → Val
  | .inf n => .inf (!n)
  | .fin n m e => .fin (!n) m e
  | x => x

end Sys2Proof.Machine
end

