-- ==== Sys2Proof/Machine/State.lean ====
section
/-! DEFINITION. The machine's state as plain data: everything the spec gives the Nolhosy, and the few fields of the
model's own (`mover`, `inbox`, `upsets`, `fresh`). A register file or memory is a sparse table (Maps) whose unlisted
entries read zero. -/

namespace Sys2Proof.Machine

/-- A launch's mode (R22). -/
inductive Mode where
  | lockstep | elastic
  deriving DecidableEq, Repr, Inhabited

/-- What a virtual core's CTL is doing (R135, R347, R352). -/
inductive Run where
  | idle | aligning | running | halted | parked
  deriving DecidableEq, Repr, Inhabited

/-- A stream operand version (R67): which z register, which version. -/
abbrev ZVer := Nat × Nat

/-- Operations of the vector column (R178-R188). -/
inductive VOp where
  | add | sub | mul | fma | min | max | abs | neg | addY | mulY | fmaY | mulM | maxY | minY
  | ceq | cne | clt | cle | sel | and | or | xor | not | shl | shr | sra | addsat | subsat | mulhi | cls
  | cvt | mov | fillY | gath | scat | rng | drop | split3 | iota
  deriving DecidableEq, Repr, Inhabited

/-- Operations of the reduction column (R190, R191). -/
inductive ROp where
  | sum | max | min | sumsq | scanSum | scanMax | dot | argmax | cnt
  deriving DecidableEq, Repr, Inhabited

/-- The special functions (R212). -/
inductive Fn where
  | exp2 | log2 | rcp | rsqrt | sqrt | sinpi | cospi | tanh | logistic
  deriving DecidableEq, Repr, Inhabited

/-- A stream operand as a word uses it: the fields of its descriptor (R60), with the base of its ring slot when it is
bound to a ring, and the slot's bounds (R157). `pad` is packing 1 (R62). -/
structure Str where
  base    : Int
  stride  : Int
  count   : Nat
  fmt     : Fmt
  pad     : Bool
  block   : Nat
  axis    : Bool
  sen     : Bool
  ovf     : Bool
  sbase   : Nat
  sstride : Int
  ren     : Bool
  ring    : Nat
  peer    : Nat
  slot    : Option (Nat × Nat)
  deriving DecidableEq, Repr, Inhabited

/-- A scratchpad access that a word still has to make, from beat `beat` on (R153): the addresses it reads, or the bytes it
writes, each with the bits it changes. `tag` tells the word which of its groups this is. -/
structure Acc where
  tag : Nat
  beat : Nat
  rd  : List Nat
  wr  : List (Nat × Byte × Byte)
  deriving DecidableEq, Repr, Inhabited

/-- A row access that a bank performs at this beat: whether it reads, and whose it is (R153). -/
structure Claim where
  bank  : Nat
  row   : Nat
  read  : Bool
  owner : Nat
  deriving DecidableEq, Repr, Inhabited

/-- The configuration that an MMA reads at its issue (R201): tile, slot bases, parameter words, metadata. -/
structure MmaCfg where
  tile   : Nat
  a      : Nat
  b      : Nat
  w0     : Word64
  w1     : Word64
  sparse : Bool
  masks  : List Nat
  segs   : Nat
  deriving DecidableEq, Repr, Inhabited

/-- A copy whose META image has not been served (R228): its kind, at its issue beat the credit and the copies in flight, and what
its issue changed: L + 1 of its queue before it, whether its step had been counted, the token FIFOs it popped, the credit it drew,
and its source span by the image as it stood then: whether it lies in memory, its first byte and the one past its last (R238). -/
structure ImageJob where
  op      : Nat
  credit  : Nat
  copies  : Nat
  next    : Nat
  counted : Bool
  popped  : List Nat
  drawn   : Nat
  source  : Option (Bool × Nat × Nat)
  deriving DecidableEq, Repr, Inhabited

/-- What a word in flight does with the bytes it reads. A receive's kind is 0 for a stream, 1 for a ring slot, 2 for
mailbox `mbox` (R161). -/
inductive Work where
  | idle
  | vec (op : VOp) (y key ctr : Word64)
  | red (op : ROp)
  | sf (f : Fn)
  | ef (f : Fn)
  | gpush
  | mma (c : MmaCfg)
  | drain (rmode : Nat) (dtr : Bool) (step : Nat)
  | tpb (tile : Nat)
  | copy
  | image (i : ImageJob)
  | send (dst chan fmt bytes : Nat)
  | recv (kind mbox : Nat)
  | event (tag frame : Nat)
  | ggath (limit : Nat)
  deriving DecidableEq, Repr, Inhabited

/-- An entry of an issue queue, or the word of an operation in flight (R86). `seq` numbers the words of a virtual core
in the order they were placed; `name` is the entry name of R376; `zs` holds the stream descriptors the word took
(R67), word k of z n at 8n+k, and `zv` the versions it holds; `ready` is the first beat at which it can be at the head;
`bad` marks a faulting entry of a table (R140); `shared` an entry of all four column queues (R101); `run` the table
run that placed it; `retry` a word that a handler has returned to (R381); `counted` a word counted in its step
counter already (R105); `stood` the beat at which a fence first stood at its head (R271); `reached` an entry that has become the head
of its queue with its head checks passed (R88, R403); `follow` the copy that a follow-on word waits for (R234). -/
structure QEntry where
  seq    : Nat
  word   : Word32
  stamp  : Option (BitVec 24)
  metaP  : Option (BitVec 24)
  name   : Nat
  zs     : SMap Word64
  zv     : List ZVer
  placed : Nat
  ready  : Nat
  bad    : Bool
  shared : Bool
  run    : Option Nat
  retry  : Bool
  counted : Bool
  stood : Option Nat
  reached : Bool
  follow : Option Nat
  deriving DecidableEq, Repr, Inhabited

/-- An issue queue: its entries oldest first, and L+1, the beat after its last issue (R90). -/
structure QState where
  entries : List QEntry
  next    : Nat
  deriving DecidableEq, Repr, Inhabited

/-- What an operation in flight still does at the end of a beat: rings it pops, bytes of tiles and parameter blocks,
the sums that a matrix segment adds (R203), a fault of its indices (R183). -/
inductive Effect where
  | pops (rings : List Nat)
  | opcnt (tile : Nat)
  | seg (tile : Nat) (sums : List Val) (lost : Nat)
  | tile (off : Nat) (data : List Byte)
  | raise (cause detail : Nat)
  deriving DecidableEq, Repr, Inhabited

/-- One line of a copy (R227): its virtual address and length, the row of the copy and the offset in the row's bytes it
stands at, whether it belongs to the second image of stash, its bytes once read, whether it has landed or been
performed, and the beat from which it may. -/
structure CLine where
  va    : Int
  len   : Nat
  row   : Nat
  off   : Nat
  second : Bool
  data  : List Byte
  done  : Bool
  due   : Nat
  deriving DecidableEq, Repr, Inhabited

/-- A copy in flight (R222-R238): its kind (0 in, 1 in.t, 2 gath, 3 pf, 4 out, 5 scat, 6 stash, 7 xc), its sixteen
control words, the scratchpad base taken, its row indices in gathers and scatters, its lines, the epoch that its writes
carry, and its source span (R238). -/
structure CopyJob where
  op     : Nat
  ccb    : List Word32
  base   : Nat
  idx    : List Int
  lines  : List CLine
  epoch  : Option Nat
  posted : Bool
  srcMem : Bool
  srcLo  : Nat
  srcHi  : Nat
  deriving DecidableEq, Repr, Inhabited

/-- An issued, unfinished word or operation (R94, R370). `done` is its completion beat when that is fixed; `accs` the
scratchpad accesses to come; `dues` the effects to come; `buf` the bytes read, byte a of group g at g·2^23 + a; `strs`
its streams (destination, a, b); `toks` the token FIFOs it pushes; `pops` and `pushes` the rings it moves at completion (R158); `flags` enter at
completion + 1; `y` its y result; `faulted` marks a replay entry of state faulted (R377); `ended` a word whose
completion has taken place while its memory writes are still to come (R232); `audit` the column or the count that names its
audit lane (R202, R392). -/
structure Flight where
  seq     : Nat
  q       : Queue
  entry   : QEntry
  issued  : Nat
  done    : Option Nat
  accs    : List Acc
  dues    : List (Nat × Effect)
  buf     : SMap Byte
  work    : Work
  strs    : List Str
  flags   : Nat
  pops    : List Nat
  pushes  : List Nat
  y       : Option (Nat × Word64)
  toks    : List Nat
  faulted : Bool
  ended   : Bool
  chan    : Option Nat
  land    : Option (Nat × Nat)
  got     : List Byte
  copy    : Option CopyJob
  audit   : Nat
  deriving DecidableEq, Repr, Inhabited

/-- A physical error that the device's checks find: the next MMA or vector word to complete differs from its audit (R210,
R392); an error of the resource `res` of R394 at `place` that cannot be corrected, met by the unit `src` (R371); an error at
`place` that is corrected (R395). -/
inductive Upset where
  | audit (vx : Bool)
  | uncorrectable (res src place : Nat)
  | corrected (res place : Nat)
  deriving DecidableEq, Repr, Inhabited

/-- A physical error to come: where it is found, and the beat of the virtual core from which it is. -/
structure Hit where
  part : Nat
  vc   : Nat
  beat : Nat
  what : Upset
  deriving DecidableEq, Repr, Inhabited

/-- A fault raised and not yet reported (R372): source code of TCAUSE, cause, detail, TVAL, the beat, the entry name,
the sequence number of its word, and TEPC where the rule gives it (R374). -/
structure FaultRec where
  src    : Nat
  cause  : Nat
  detail : Nat
  tval   : Word64
  beat   : Nat
  name   : Nat
  seq    : Option Nat
  tepc   : Option Word64
  deriving DecidableEq, Repr, Inhabited

/-- A ring register (R157). -/
structure Ring where
  w0   : Word64
  head : Nat
  tail : Nat
  cnt  : Nat
  deriving DecidableEq, Repr, Inhabited

/-- An entry of the table directory (R139); length 0 marks an unloaded one. -/
structure DirEntry where
  offset  : Nat
  length  : Nat
  home    : Nat
  running : Bool
  deriving DecidableEq, Repr, Inhabited

/-- A table run (R145-R149): its table, home, count, the iteration and word entry stands at, its copies of the
parameter slots and streams, which streams CTL has written since, and whether entry has ended. -/
structure TRun where
  id     : Nat
  table  : Nat
  home   : Engine
  count  : Nat
  iter   : Nat
  word   : Nat
  start  : Nat
  slots  : SMap Word64
  zs     : SMap Word64
  zv     : List ZVer
  ctlBase  : List Nat
  ctlScale : List Nat
  stop   : Bool
  ended  : Bool
  pc     : Word64
  lastDone : Nat
  deriving DecidableEq, Repr, Inhabited

/-- A CTL cache line (R253): its partition-physical line number, its bytes, which of them are dirty (R263), and the way of its set
that holds it (R395). -/
structure CLn where
  line  : Nat
  data  : List Byte
  dirty : BitVec 128
  way   : Nat
  deriving DecidableEq, Repr, Inhabited

/-- A line that L2 holds (R256): its partition-physical number, whether it is dirty, and the way of its set that holds it (R395). -/
structure L2Line where
  line  : Nat
  dirty : Bool
  way   : Nat
  deriving DecidableEq, Repr, Inhabited

/-- A translation (R249): the partition, page number and page-size exponent it matches, frame, and permissions. -/
structure TlbE where
  page  : Nat
  size  : Nat
  frame : Nat
  vb : Bool
  x  : Bool
  w  : Bool
  rd : Bool
  deriving DecidableEq, Repr, Inhabited

/-- A walk that runs at this beat: the die and 64 KiB page of the miss that started it, and its result, a translation or a fault's cause
and detail (R250). -/
structure Walk where
  die    : Nat
  page   : Nat
  entry  : Option TlbE
  cause  : Nat
  detail : Nat
  deriving DecidableEq, Repr, Inhabited

/-- A no-return atomic retired and not yet performed (R275): operation, type, address, operand, epoch tag, whether
it goes to a reduction window, its number among the operations of its virtual core, its retire beat, the CTL beat from which it may
be performed, when the Collie has matched it (R390), and whether it is a replay entry of state faulted (R377). -/
structure PendAtomic where
  op    : Nat
  t     : AType
  va    : Nat
  pa    : Nat
  vb    : Bool
  v     : Nat
  epoch : Option Nat
  window : Option Nat
  name  : Nat
  seq   : Nat
  issued  : Nat
  after   : Nat
  faulted : Bool
  deriving DecidableEq, Repr, Inhabited

/-- A chunk of a collective: its hint, its exponent, what it waits for (0 a first exponent pass, 1 its sum or data, 2 the pass of a
replay, 3 the sum of a replay, 4 nothing more), and the beat at which that is delivered or missed (R309, R319, R325). -/
structure CChunk where
  hint  : Nat
  e     : Nat
  stage : Nat
  due   : Nat
  deriving DecidableEq, Repr, Inhabited

/-- A landing of a collective to come (R325): its beat, its offset, its bytes, and the chunk it belongs to. -/
structure CLand where
  beat  : Nat
  off   : Nat
  data  : List Byte
  chunk : Nat
  deriving DecidableEq, Repr, Inhabited

/-- A collective in flight (R322-R326): the word's minor, group, cseq, descriptor, the beat at which reading starts, the
source pieces and bytes read, its chunks, the landings to come, a mailbox write to come, whether a chunk was replayed, whether it
has failed and is a replay entry of state faulted (R311, R377), its number among the operations of its virtual core and its retire
beat. -/
structure Coll where
  op     : Nat
  group  : Nat
  seq    : Nat
  desc   : List Word64
  start  : Nat
  read   : Nat
  src    : List Byte
  sent   : Bool
  chunks : List CChunk
  lands  : List CLand
  mbox   : Option (Nat × Word64)
  replayed : Bool
  failed : Bool
  name   : Nat
  num    : Nat
  issued : Nat
  deriving DecidableEq, Repr, Inhabited

/-- A virtual core's transaction registers and step state (R289, R290). `adv` is what the words that drew at this beat
add to TXN at its end (R186); `openAt` is the address of the txopen of the open or aborted step, and `preempted` marks a
step that a pre-emption met, which restarts there (R300, R386). -/
structure Tx where
  k     : Word64
  n     : Word64
  c     : SMap Word64
  state : Nat
  g     : Nat
  dr    : Bool
  vote  : Word64
  out   : Word64
  preempted : Bool
  adv    : Nat
  restore : Option (Word64 × Word64 × SMap Word64)
  openAt  : Option Word64
  deriving DecidableEq, Repr, Inhabited

/-- The latest sstep that retired (R352): its level, the number of the first word routed after it, its B, INSTRET after
it, and whether every virtual core of the launch is a member of its instance. -/
structure LastSstep where
  level   : Level
  seq     : Nat
  b       : Nat
  instret : Nat
  whole   : Bool
  deriving DecidableEq, Repr, Inhabited

/-- A virtual core's control sequencer (R112-R138, R369-R376). x0 is never listed. `fenceSeq` holds
what a CTL qfence that waits has to wait for (R134); `matched` the CTL beat at which the Collie has matched the instruction at pc, one
whose effect leaves CTL only then (R390); `cur` is the fault that the handler in progress was entered for, and `was` what
CTL did before it (R135, R374). -/
structure Ctl where
  x  : SMap Word64
  y  : SMap Word64
  m  : SMap Word64
  pc : Word64
  flags   : Word64
  flagsIn : List (Nat × Nat)
  frm     : Word64
  instret : Nat
  tvec : Word64
  tepc : Word64
  tcause : Word64
  tval : Word64
  tscratch : Word64
  h     : Bool
  tstep : Bool
  tokmap : Word64
  lossLimit : Word64
  fenceSeq : Option (Nat × List Nat)
  matched : Option Nat
  lastSstep : Option LastSstep
  dom : Word64
  cur : Option FaultRec
  was : Run
  deriving DecidableEq, Repr, Inhabited

/-- A completion record that is posted, or held, and has not been delivered (R102, R103): the beat of its posting, its two words
(word 0 of a held one without its beat), its source, the operation that posts it as a fault names it (R371), and, in a held
one, 1 + the number of the word whose completion waits with it, or 0. -/
structure EvRec where
  beat : Nat
  w0   : Word64
  w1   : Word64
  src  : Nat
  tval : Word64
  name : Nat
  seq  : Option Nat
  hold : Nat
  deriving DecidableEq, Repr, Inhabited

/-- A push that waits for room in FIFO `fifo` (R95), and the queue it holds: all four columns for a shared entry. -/
structure HeldPush where
  q      : Queue
  shared : Bool
  fifo   : Nat
  deriving DecidableEq, Repr, Inhabited

/-- A virtual core's queues, tokens, events and what it has in flight (R86-R105, R370). `popped` counts the pops that the queues
made at this beat (R94), and `credit` is the timed credit (R230). -/
structure Eng where
  ld : QState
  mx : QState
  vx : QState
  fx : QState
  rx : QState
  st : QState
  nextSeq : Nat
  flights : List Flight
  tokens  : SMap Nat
  pushIn  : List (Nat × Nat)
  popped  : SMap Nat
  heldPush : List HeldPush
  stepc   : SMap Nat
  events  : List (Word64 × Word64)
  heldEv  : List EvRec
  evIn    : List EvRec
  credit  : Nat
  vxCount : Nat
  deriving DecidableEq, Repr, Inhabited

/-- A virtual core's tables (R139-R149). -/
structure Tables where
  store : SMap Word32
  dir   : SMap DirEntry
  slots : SMap Word64
  runs  : List TRun
  nextRun : Nat
  latest  : SMap Nat
  deriving DecidableEq, Repr, Inhabited

/-- A virtual core's sstep at a level whose instance has not been released (R348-R350): its B, the first word number and the first
table run that it does not wait for, the collectives (group, cseq) that it does, whether it is a member's, and whether an Elastic
release has taken place. -/
structure Arrival where
  level  : Level
  b      : Nat
  seq    : Nat
  run    : Nat
  colls  : List (Nat × Nat)
  member : Bool
  done   : Bool
  deriving DecidableEq, Repr, Inhabited

/-- What a virtual core's CTL had before an instruction that it executed less than four CTL beats ago, which the Collie has still to
match (R389-R391): the CTL beat and the beat of the frame counter, the registers, the data cache and its FIFO, the atomics not yet
performed, the numbers of the next word and the next table run, the barriers arrived at, the transaction registers; and the FIFOs from
which the instruction took a token or into which it put one, and the records that it took from the event queue. -/
structure Past where
  beat    : Nat
  now     : Nat
  ctl     : Ctl
  dcache  : List CLn
  fifo    : List Nat
  atomics : List PendAtomic
  nextSeq : Nat
  nextRun : Nat
  arrived : List Arrival
  tx      : Tx
  took    : List Nat
  gave    : List Nat
  records : List (Word64 × Word64)
  deriving DecidableEq, Repr, Inhabited

/-- A virtual core: its whole context (R20). `chip` is its memory, by offset in its window of the on-chip map (R167):
scratchpad, tiles and tile parameter blocks. `now` is its beat: the frame counter is now mod 2^48 (R89). `memb` has a bit for each level whose open instance it is a member of
(R346); `claims`, `lostNow` and `ywrote` are of this beat: the row accesses, the cells of the conflict matrix that have counted it
(R153), and the y registers that CTL wrote (R138, R169). `sentColls` the collectives of
an Elastic launch that are over here and may be awaited elsewhere (R317); `creditB` the timed credit at the last release (R352). `retired` is the address of the instruction that CTL retired at this beat and `lost` says that an access lost a
bank at it, for the traces (R400, R401); `ctrLast` is the time and address of the last compatible record and `ctrBuf` the
words that wait for their line, each with whether a record begins with it. `stop` lists the units that debug stops hold, and `held` says that the stop of an Elastic launch has
formed: the frame counter stands (R404). `pulse` counts CTL's beats, also while the launch is frozen (R389). `issuedNow` has a bit for
each queue that issued at this beat, `raised` the cause of the first fault raised at it (R400), `heads` the entries that became heads
at it, by unit, name and scheduled beat, and `ctlSeen` says that breakpoints have seen the instruction at pc (R403). -/
structure VC where
  id   : Nat
  run  : Run
  now  : Nat
  ctl  : Ctl
  eng  : Eng
  tbl  : Tables
  z    : SMap Word64
  zver : SMap Nat
  g    : SMap Ring
  b    : SMap Word32
  chip : SMap Byte
  audit : Word64
  tx   : Tx
  dcache : List CLn
  fifo   : List Nat
  icache : List CLn
  tlb    : List TlbE
  atomics : List PendAtomic
  colls   : List Coll
  sentColls : List Coll
  latestColl : SMap Nat
  mapsOut : Nat
  faults  : List FaultRec
  acct    : Nat
  conflicts : SMap Nat
  claims  : List Claim
  lostNow : List Nat
  ywrote  : List Nat
  snaps   : List (SMap Nat)
  arrived : List Arrival
  memb    : Nat
  creditB : Nat
  past    : List Past
  retired : Option Word64
  lost    : Bool
  stop    : List Nat
  held    : Bool
  pulse   : Nat
  issuedNow : Nat
  raised  : Nat
  heads   : List (Nat × Nat × Nat)
  ctlSeen : Bool
  ctrLast : Option (Nat × Nat)
  ctrBuf  : List (Bool × Word32)
  ctrBase : Word64
  ctrSize : Word64
  ctrPtr : Word64
  ctrWrap : Word64
  deriving DecidableEq, Repr, Inhabited

/-- A binding of a region to a sync object (R258, R259). -/
structure Bind where
  rbase : Nat
  rsize : Nat
  sync  : Nat
  deriving DecidableEq, Repr, Inhabited

/-- A message between virtual cores on its way (R161-R163): `data` the bytes read so far of its `bytes`, `sent` its
send's issue beat, `piece` the next piece to land, `target` the receive that it has matched or claimed. -/
structure Msg where
  src  : Nat
  dst  : Nat
  chan : Nat
  fmt  : Nat
  bytes : Nat
  data : List Byte
  sent : Nat
  seqS : Nat
  piece : Nat
  target : Option Nat
  deriving DecidableEq, Repr, Inhabited

/-- A write to an on-chip map window that has not landed (R169): `seqS` and `piece` name the cpy.xc and the piece of it that the write
is of (R236). -/
structure MapAcc where
  src  : Nat
  dst  : Nat
  off  : Nat
  data : List Byte
  due  : Nat
  seqS : Option Nat
  piece : Nat
  deriving DecidableEq, Repr, Inhabited

/-- The launch that a partition runs (R334-R353). `req` is the beat of the request for pre-emption, `frozen` the last beat
before a freeze, `resume` the B of the honoured safe point, and `passed` the greatest B whose safe point a virtual core has
passed unhonoured (R352). `inPlace` marks a launch that found no free slot and waits parked or frozen on its cores (R387), and `kept` a
launch that a forced save froze, whose alignment barrier restores every counter, L and credit (R385). `pause` counts the beats that the
countdown to the forced save has stood still in debug stops (R404). -/
structure Launch where
  live   : Bool
  mode   : Mode
  queue  : Nat
  slot   : Nat
  args   : Word64
  hsize  : Nat
  hcount : Nat
  hidx   : Nat
  startgen : Nat
  fsp : Nat
  ftile : Nat
  fcs : Nat
  fev : Nat
  reserve : Nat
  binds  : List Bind
  req    : Option Nat
  frozen : Option Nat
  msgs   : List Msg
  maps   : List MapAcc
  resume : Option Nat
  passed : Nat
  inPlace : Bool
  kept   : Bool
  pause  : Nat
  deriving DecidableEq, Repr, Inhabited

/-- A launch, by the queue and the counter of its slot (R331, R361). -/
abbrev LaunchTag := Nat × Nat

/-- A version block's metadata (R285); the default is a clean block with c = 0. `copy` marks a first write's copy that is
not complete, `writer` and `owner` the virtual core and the launch it is charged to (R287, R288, R361), and `gen` the generation of the committed version, none when
no step has written it (R302). -/
structure Block where
  c   : Nat
  e   : Option Nat
  map : BitVec 16
  pin : List (Nat × Nat)
  touched : Nat
  copy : Bool
  writer : Nat
  owner : Option LaunchTag
  gen  : Option Nat
  deriving DecidableEq, Repr, Inhabited

/-- A drain that is pending (R301): its generation, its place among the commits, the blocks still to read, how many were sent, the
opening records still to send, as the commit left the registers, the messages sent, whose blocks go again when one is lost
(R312), and the launch it is charged to (R361). -/
structure Drain where
  owner  : Option LaunchTag
  gen    : Nat
  order  : Nat
  left   : List Nat
  sent   : Nat
  recs   : List (List Byte)
  out    : List (List Byte)
  deriving DecidableEq, Repr, Inhabited

/-- A saved launch (R384-R387): which queue it belongs to, its X (R281, R289), the launch and its virtual cores. -/
structure Saved where
  queue  : Nat
  x      : Nat
  launch : Launch
  vcs    : List VC
  forced : Bool
  deriving DecidableEq, Repr, Inhabited

/-- A reduction window (R328, R329): its group, the virtual core that registered it, its record, its accumulators, whether
a contribution overflowed, the number of its next flush, how many flushes its home has not applied, with what each of them carried (number,
ov bit, accumulators; R317), whether it has been dropped, and the launch that registered it. -/
structure Window where
  owner : Option LaunchTag
  group : Nat
  vc    : Nat
  w     : List Word64
  acc   : SMap Nat
  ov    : Bool
  flush : Nat
  sent  : Nat
  held  : List (Nat × Bool × SMap Nat)
  dropped : Bool
  deriving DecidableEq, Repr, Inhabited

/-- The states of a darning buffer in use (R309). -/
inductive DarnState where
  | filling | decoding | ready | delivering
  deriving DecidableEq, Repr, Inhabited

/-- A darning buffer in use (R309): its key, the launch it is for, die, destination, the header of its first fragment, the fragments
held, the beat at which it was taken, and the message once decoded. -/
structure Darn where
  key   : List Nat
  owner : Option LaunchTag
  die   : Nat
  vc    : Option Nat
  head  : List Word64
  frags : List (Nat × List Byte)
  ov    : Bool
  taken : Nat
  state : DarnState
  data  : List Byte
  deriving DecidableEq, Repr, Inhabited

/-- A charge on its way to an account (R359): amount, the launch whose request caused it, and the virtual core or none for the
device's overhead. -/
structure Charge where
  owner  : Option LaunchTag
  amount : Nat
  cls    : Nat
  vc     : Option Nat
  deriving DecidableEq, Repr, Inhabited

/-- A partition (R25, R355): memory, translation, versions, fabric state, energy and its control block. `slow` lists the
lines that have not arrived from memory, a matter of HBM's own timing (R231); `pcNext` has the first eighth of a reference beat at which
each pseudo-channel can take another line (R422). `endVoted` says that the open step's virtual cores of a launch that has ended had all voted
(R298); `stepTag` names the launch of the open step, and `stepRecs` holds its opening records when that launch has ended (R301). `late`
lists what other devices reported of barriers of the launch: level, B and detail (R349); `reports` the reports still to be sent, and `asked` says that another device
has asked the lead to request a pre-emption (R382). -/
structure Part where
  idx     : Nat
  bound   : Bool
  reset   : Option Nat
  wasBound : Bool
  scrub   : Bool
  mem     : List Host.Cell
  l2      : List L2Line
  poison  : List Nat
  slow    : List Nat
  pcNext  : SMap Nat
  hmask   : SMap Nat
  ptroot : Word64
  vsbase : Word64
  vsize : Word64
  tlbinv  : Word64
  tlbBusy : Bool
  walks   : List Walk
  ctlb    : List (Nat × TlbE)
  dlallow : Nat
  ctxbase : Word64
  ctxn : Word64
  saved   : List Saved
  equota  : Word64
  shared  : Nat
  spent   : Nat
  pw : Nat
  cset : Nat
  ex      : Bool
  x       : Nat
  openEp  : Option (Nat × Nat × Bool)
  epSeqs  : SMap Nat
  nextEp  : Nat
  outcomes : List (Nat × Nat × Bool × Nat)
  commits : Nat
  blocks  : SMap Block
  drainQ  : List (Nat × Nat × List Byte)
  drains  : List Drain
  acked   : List Nat
  voted   : Bool
  devVote : Nat
  devLoss : Nat
  endVoted : Bool
  stepTag : Option LaunchTag
  stepRecs : List (List Byte)
  late    : List (Nat × Nat × Nat)
  reports : List Nat
  asked   : Bool
  groups  : SMap Word64
  windows : List Window
  darns   : List Darn
  closed  : List (List Nat)
  outbox  : List Fragment
  msgsIn  : List (List Nat × List Byte)
  waits   : List Nat
  copies  : List (Nat × Nat)
  bp      : SMap Word64
  dstops  : List (Nat × List Nat)
  samples : List (Nat × List Nat)
  chosen  : Option Nat
  decision : Bool
  counts  : SMap Nat
  vu : Nat
  vn : Nat
  quantum : Nat
  charges : List Charge
  coefs   : List Nat
  nextCoefs : Option (Nat × List Nat)
  deriving DecidableEq, Repr, Inhabited

/-- One partition with the launch and virtual cores on it. -/
structure Slice where
  part   : Part
  launch : Launch
  vc     : VC
  peers  : List VC
  deriving DecidableEq, Repr, Inhabited

/-- Per-die debug state: trace control, trace beat and trace memory, each record with its beat and its core's c, whether a
trigger has come, and the beats left until the recording stops (R399, R400). -/
structure Trace where
  ctl  : Word64
  beat : Nat
  recs : List (Nat × Nat × Nat)
  armed : Bool
  left : Option Nat
  deriving DecidableEq, Repr, Inhabited

/-- A stretch factor, the one that waits, and the beat from which it has waited, per die (R109-R111). -/
structure Stretch where
  k    : Nat
  pend : Option Nat
  since : Nat
  deriving DecidableEq, Repr, Inhabited

/-- What the device holds beyond its partitions. `replies` is the record of answers it gave on the control link; `marked`
lists the cores marked for retirement (R393); `msgNo` numbers
the drain and launch messages it has sent (R303). `enabled` lists the 16 physical cores enabled in each cluster, in ascending order, and
`dead` the cores retired, numbered 18·cluster + physical core (R14, R15, R393). `wire` holds the fragments handed to the ports, the newest
first (R303). `training` lists the READY bits that the monitor has still to set, while it brings the device up (R412), `busReplies` the answers on the management bus,
`temps` and `power` what the sensors give: die temperatures and package power in watts (R413). `ways` is the line-disable bitmap, with numbers of its own for the ways of
L2 and of the CTL caches; `retired` lists the L2 slices retired (R257), `rows` the scratchpad rows marked, and `rowSpares`
counts the spare rows that each bank has used (R395). `classes` holds word 3 of a queue's record as the scheduler still takes it
while a change of tickets or urgent waits for the next decision (R331). -/
structure Dev where
  ident    : Word32
  num      : Nat
  lq       : Nat
  retire   : Word64
  drainctl : Word64
  ready    : SMap Bool
  mr       : SMap (List Byte)
  stretch  : SMap Stretch
  trace    : SMap Trace
  darnCounts : SMap Nat
  queues   : SMap Word64
  classes  : SMap Word64
  silent   : SMap Nat
  overhead : Nat
  corrected : SMap Nat
  marked   : List Nat
  enabled  : SMap (List Nat)
  dead     : List Nat
  wire     : List Fragment
  msgNo    : Nat
  ways     : List Nat
  retired  : List Nat
  rows     : List Nat
  rowSpares : SMap Nat
  versions : SMap Nat
  links    : List Nat
  images   : List Image
  refbeat  : Nat
  replies  : List (Nat × List Word64)
  powered  : Bool
  training : Option (List Nat)
  busReplies : List (List Word64)
  temps    : SMap Nat
  power    : Nat
  deriving DecidableEq, Repr, Inhabited

/-- Which agent of the virtual core in focus moves next: the model's own field. -/
inductive Mover where
  | hub | table (e : Engine) | queue (q : Queue) | inbound | serve | land | ctl | post | late
  deriving DecidableEq, Repr, Inhabited

/-- A row that the outside causes, with the partition and the virtual core that it comes to. -/
structure Row where
  part : Nat
  vc   : Nat
  row  : Instr
  deriving DecidableEq, Repr

/-- What a register read on the control link names (R406, R408): the device block, a partition's control block, group entries and
queue registers. A virtual core is named where a partition's register belongs to one. -/
inductive ReadReg where
  | ident | ready (hi : Bool) | mr (i : Nat) | playout | retire | drainctl
  | trctl (die : Nat) | trbeat (die : Nat) | traceRec (die i : Nat) | darnCount (die code : Nat) | silent (core : Nat)
  | pctl | hmask (i : Nat) | ptroot | tlbinv | vsbase | vsize | dlallow | ctxbase | ctxn | equota | eused | estat
  | bp (n : Nat) (hi : Bool) | counter (c : Counter) | conflicts (vc : Nat) | snapshot (vc i : Nat)
  | ctrBase (vc : Nat) | ctrSize (vc : Nat) | ctrPtr (vc : Nat) | ctrWrap (vc : Nat) | stopRec (vc : Nat) | sample (i : Nat)
  | group (g : Nat) | tail (q : Nat) | progress (q : Nat) | queueRec (q : Nat)
  deriving DecidableEq, Repr, Inhabited

/-- What the management bus reads (R413). -/
inductive BusReg where
  | ident | ready (hi : Bool) | temperature (die : Nat) | power
  deriving DecidableEq, Repr, Inhabited

/-- An input of the machine: a row that the outside causes, a register read by a function of the control link (R406), a read on the
management bus (R413), the root's write of RETIRE (R410), or what the package's sensors give (R413). -/
inductive Input where
  | row (r : Row)
  | read (fn : BitVec 5) (r : ReadReg)
  | bus (r : BusReg)
  | retire (v : BitVec 64)
  | sensors (temps : List Nat) (power : Nat)
  deriving DecidableEq, Repr

/-- The machine. `vc` is the virtual core in focus, `peers` the others of its launch in turn order, `part` its
partition, `others` the other partitions; `inbox` holds what the outside causes and `upsets` the physical errors to come,
both inputs; `fresh` counts the free values drawn. -/
structure State where
  vc     : VC
  peers  : List VC
  launch : Launch
  part   : Part
  others : List Slice
  dev    : Dev
  inbox  : List Input
  upsets : List Hit
  mover  : Mover
  fresh  : Nat
  deriving DecidableEq, Repr, Inhabited

/-- Why the machine stops. -/
inductive Fault where
  /-- Raised by the scheduler's read of a slot, or its write of a completion record, that lies at or beyond the
  partition's capacity (R244): the spec says no such address exists and gives this access no fault of its own. Safe. -/
  | noSuchAddress
  deriving DecidableEq, Repr, Inhabited

/-- Why the machine gives an instruction no meaning. -/
inductive Refusal where
  /-- An instruction of the table that this model has not reached. Raised by the dispatch only. Safe. -/
  | notModelled (mnemonic : String)
  deriving DecidableEq, Repr, Inhabited

/-! ### The state right after reset

Every register reads zero where the spec gives no value at power-on (assumption log 2); memory lists nothing. -/

/-- An empty queue: L = −1, so L + 1 = 0 (R90). -/
def QState.empty : QState := ⟨[], 0⟩

def Ctl.init : Ctl :=
  { x := [], y := [], m := [], pc := 0, flags := 0, flagsIn := [], frm := 0, instret := 0, tvec := 0, tepc := 0,
    tcause := 0, tval := 0, tscratch := 0, h := false, tstep := false, tokmap := 0, lossLimit := 0, fenceSeq := none,
    matched := none, lastSstep := none, dom := 0, cur := none, was := .idle }

def Eng.init : Eng :=
  { ld := .empty, mx := .empty, vx := .empty, fx := .empty, rx := .empty, st := .empty, nextSeq := 0, flights := [],
    tokens := [], pushIn := [], popped := [], heldPush := [], stepc := [], events := [], heldEv := [], evIn := [], credit := 0,
    vxCount := 0 }

def Tables.init : Tables := { store := [], dir := [], slots := [], runs := [], nextRun := 0, latest := [] }

def Tx.init : Tx :=
  { k := 0, n := 0, c := [], state := 0, g := 0, dr := false, vote := 0, out := 0, preempted := false, adv := 0, restore := none,
    openAt := none }

/-- A virtual core with every register zero and nothing queued or in flight. -/
def VC.init (id : Nat) : VC :=
  { id := id, run := .idle, now := 0, ctl := .init, eng := .init, tbl := .init, z := [], zver := [], g := [], b := [],
    chip := [], audit := 0, tx := .init, dcache := [], fifo := [], icache := [], tlb := [], atomics := [], colls := [], sentColls := [],
    latestColl := [], mapsOut := 0, faults := [], acct := 0, conflicts := [], claims := [], lostNow := [], ywrote := [], snaps := [], arrived := [],
    memb := 0, creditB := 0, past := [], retired := none, lost := false, stop := [], held := false, pulse := 0, issuedNow := 0,
    raised := 0, heads := [], ctlSeen := false, ctrLast := none, ctrBuf := [], ctrBase := 0,
    ctrSize := 0, ctrPtr := 0, ctrWrap := 0 }

/-- No launch. -/
def Launch.init : Launch :=
  { live := false, mode := .lockstep, queue := 0, slot := 0, args := 0, hsize := 0, hcount := 0, hidx := 0,
    startgen := 0, fsp := 0, ftile := 0, fcs := 0, fev := 0, reserve := 0, binds := [], req := none, frozen := none,
    msgs := [], maps := [], resume := none, passed := 0, inPlace := false, kept := false, pause := 0 }

/-- An idle partition, as at its creation (R241, R247, R282, R340, R365, R382, R387). -/
def Part.init : Part :=
  { idx := 0, bound := false, reset := none, wasBound := false, scrub := false, mem := [], l2 := [], poison := [], slow := [], pcNext := [], hmask := [],
    ptroot := 0, vsbase := 0, vsize := 0, tlbinv := 0, tlbBusy := false, walks := [], ctlb := [], dlallow := 1048576, ctxbase := 0,
    ctxn := 0, saved := [], equota := BitVec.allOnes 64, shared := 0, spent := 0, pw := 0, cset := 0, ex := false,
    x := 0, openEp := none, epSeqs := [], nextEp := 0, outcomes := [], commits := 0, blocks := [], drainQ := [],
    drains := [], acked := [], voted := false, devVote := 0, devLoss := 0xFF800000, endVoted := false, stepTag := none, stepRecs := [],
    late := [], reports := [], asked := false, groups := [], windows := [], darns := [],
    closed := [], outbox := [], msgsIn := [], waits := [], copies := [], bp := [], dstops := [], samples := [], chosen := none, decision := false, counts := [], vu := 0,
    vn := 0, quantum := 0, charges := [], coefs := [], nextCoefs := none }

/-- The device at power-on (R1, R312, R354, R393, R409): DRAINCTL holds lat 2^20, kmax 32 and m 4. -/
def Dev.init : Dev :=
  { ident := 0x4E4C0B00, num := 0, lq := 0, retire := 2, drainctl := 0x1000000000000204, ready := [], mr := [], stretch := [], trace := [],
    darnCounts := [], queues := [], classes := [], silent := [], overhead := 0, corrected := [], marked := [], enabled := [], dead := [], wire := [], msgNo := 0, ways := [],
    retired := [], rows := [], rowSpares := [],
    versions := [], links := [], images := [], refbeat := 0, replies := [], powered := false, training := none, busReplies := [], temps := [], power := 0 }

/-- The machine right after reset: one partition, idle, its 1,024 virtual cores idle and every register zero. -/
def State.reset : State :=
  { vc := VC.init 0, peers := (List.range 1023).map (fun i => VC.init (i + 1)), launch := .init, part := .init,
    others := [], dev := .init, inbox := [], upsets := [], mover := .hub, fresh := 0 }

end Sys2Proof.Machine
end

