-- ==== Sys2Proof/Machine/Base.lean ====
section
/-! DEFINITION. What every operation stands on: registers, the share of a virtual core, charges, tokens,
event records, queues, and the record of a fault. Ops.lean takes the trap. -/

namespace Sys2Proof.Machine

/-- What exec and step answer. -/
abbrev Out := Host.Outcome State Fault Refusal

/-! ### The share of a virtual core (R19, R20) -/

/-- m, the virtual cores on a physical core: 1024/P with P = 1024/Q (R19, R354). -/
def State.m (s : State) : Nat := 2 ^ s.dev.lq
/-- Bytes of the scratchpad share (R20). -/
def State.share (s : State) : Nat := 4194304 / s.m
/-- Tiles of the share (R20). -/
def State.tiles (s : State) : Nat := 256 / s.m
/-- Control-store words of the share (R20). -/
def State.storeWords (s : State) : Nat := 4096 / s.m
/-- Event-queue records of the share (R20). -/
def State.evCap (s : State) : Nat := 256 / s.m
/-- Pseudo-channels of the partition (R355). -/
def State.np (s : State) : Nat := 512 / s.m
/-- The partition's capacity in bytes (R244). -/
def State.cp (s : State) : Nat := 1000000000 * s.np

/-! ### Scalar registers (R112, R113) -/

/-- xr: x0 reads zero. -/
def xr (s : State) (r : BitVec 6) : Word64 := if r = 0 then 0 else mget 0 s.vc.ctl.x r.toNat

/-- Write xr; a write to x0 is discarded. -/
def setX (s : State) (r : BitVec 6) (v : Word64) : State :=
  if r = 0 then s else { s with vc.ctl.x := mput 0 s.vc.ctl.x r.toNat v }

/-- y register n. -/
def yr (s : State) (n : Nat) : Word64 := mget 0 s.vc.ctl.y n
/-- Write y register n. -/
def setY (s : State) (n : Nat) (v : Word64) : State := { s with vc.ctl.y := mput 0 s.vc.ctl.y n v }
/-- Mailbox n. -/
def mr (s : State) (n : Nat) : Word64 := mget 0 s.vc.ctl.m n
/-- Write mailbox n. -/
def setM (s : State) (n : Nat) (v : Word64) : State := { s with vc.ctl.m := mput 0 s.vc.ctl.m n v }

/-- OR flags into FLAGS (R132). -/
def orFlags (s : State) (f : Nat) : State := { s with vc.ctl.flags := s.vc.ctl.flags ||| w64 f }

/-- Go to `pc` and count the instruction (R115, R131). -/
def retireTo (s : State) (pc : Word64) : State :=
  { s with vc.ctl.pc := pc, vc.ctl.instret := (s.vc.ctl.instret + 1) % 2 ^ 48 }

/-- Go on after an instruction of one word. -/
def retire (s : State) : State := retireTo s (s.vc.ctl.pc + 4)

/-- The bytes of an instruction that may carry an IMM prefix (R27). -/
def extLen (ext : Option (BitVec 24)) : Word64 := if ext.isSome then 8 else 4

/-- A, the address of the word that holds the field: past the IMM prefix (R29). -/
def wordAddr (s : State) (ext : Option (BitVec 24)) : Word64 := s.vc.ctl.pc + (if ext.isSome then 4 else 0)

/-- imm14, widened by an IMM payload (R29, R35). -/
def imm14 (i : BitVec 14) (ext : Option (BitVec 24)) : Word64 :=
  match ext with
  | none => i.signExtend 64
  | some p => (p ++ i : BitVec 38).signExtend 64

/-- imm20 << 14, widened by an IMM payload (R29, R35). -/
def imm20 (i : BitVec 20) (ext : Option (BitVec 24)) : Word64 :=
  match ext with
  | none => i.signExtend 64 <<< 14
  | some p => (p ++ i : BitVec 44).signExtend 64 <<< 14

/-- off26 in bytes, widened by an IMM payload (R29, R35). -/
def off26 (i : BitVec 26) (ext : Option (BitVec 24)) : Word64 :=
  match ext with
  | none => i.signExtend 64 <<< 2
  | some p => (p ++ i : BitVec 50).signExtend 64 <<< 2

/-! ### Virtual cores by number -/

/-- The virtual cores of the launch, the one in focus first. -/
def State.vcs (s : State) : List VC := s.vc :: s.peers

/-- Virtual core n of the launch. -/
def getVC (s : State) (n : Nat) : Option VC := s.vcs.find? (fun v => v.id == n)

/-- Change virtual core n of the launch. -/
def updVC (s : State) (n : Nat) (f : VC → VC) : State :=
  if s.vc.id = n then { s with vc := f s.vc }
  else { s with peers := s.peers.map (fun v => if v.id = n then f v else v) }

/-- Change every virtual core of the launch. -/
def allVC (s : State) (f : VC → VC) : State := { s with vc := f s.vc, peers := s.peers.map f }

/-- Bring virtual core n of the launch into focus, the one in focus taking its place. -/
def focusVC (s : State) (n : Nat) : Option State :=
  if s.vc.id = n then some s
  else
    match s.peers.find? (fun v => v.id == n) with
    | none => none
    | some v => some { s with vc := v, peers := s.peers.map (fun x => if x.id = n then s.vc else x) }

/-- Act on virtual core n and bring the focus back; nothing when the launch has none such. -/
def onVC (s : State) (n : Nat) (f : State → Out) : Out :=
  match focusVC s n with
  | none => .next s
  | some s1 =>
    match f s1 with
    | .next s2 =>
      (match focusVC s2 s.vc.id with
       | some s3 => .next s3
       | none => .next s2)
    | r => r

/-- Act on virtual core n and bring the focus back. -/
def inVC (s : State) (n : Nat) (f : State → State) : State :=
  match focusVC s n with
  | none => s
  | some s1 =>
    match focusVC (f s1) s.vc.id with
    | some s3 => s3
    | none => f s1

/-- The slice in focus. -/
def State.slice (s : State) : Slice := ⟨s.part, s.launch, s.vc, s.peers⟩

/-- Bring partition q into focus. -/
def focusPart (s : State) (q : Nat) : Option State :=
  if s.part.idx = q then some s
  else
    match s.others.find? (fun x => x.part.idx == q) with
    | none => none
    | some x => some { s with part := x.part, launch := x.launch, vc := x.vc, peers := x.peers,
                              others := s.others.map (fun y => if y.part.idx = q then s.slice else y) }

/-- Act on partition q and bring the focus back; nothing when the layout has none such. -/
def onPart (s : State) (q : Nat) (f : State → Out) : Out :=
  match focusPart s q with
  | none => .next s
  | some s1 =>
    match f s1 with
    | .next s2 =>
      (match focusPart s2 s.part.idx with
       | some s3 => .next s3
       | none => .next s2)
    | r => r

/-- Act on partition q and bring the focus back. -/
def inPart (s : State) (q : Nat) (f : State → State) : State :=
  match focusPart s q with
  | none => s
  | some s1 =>
    match focusPart (f s1) s.part.idx with
    | some s3 => s3
    | none => f s1

/-! ### Saved launches (R384-R388) -/

/-- The launch that a context slot holds. -/
def Saved.tag (x : Saved) : LaunchTag := (x.queue, x.launch.slot)

/-- Flags posted to a saved virtual core are in its flag word (R388). -/
def VC.foldFlags (v : VC) : VC :=
  v.ctl.flagsIn.foldl (fun u p => { u with ctl.flags := u.ctl.flags ||| w64 p.2 }) { v with ctl.flagsIn := [] }

/-- Act on the saved launch `t` as if its virtual cores stood on the cores; nothing when no slot holds it (R380, R388). -/
def inSaved (s : State) (t : LaunchTag) (f : State → State) : State :=
  match s.part.saved.find? (fun x => x.tag == t) with
  | none => s
  | some x =>
    match x.vcs with
    | [] => s
    | v :: r =>
      let u := f { s with vc := v, peers := r, launch := x.launch }
      { u with
        vc := s.vc, peers := s.peers, launch := s.launch,
        part.saved := u.part.saved.map (fun y =>
          if y.tag = t then { y with launch := u.launch, vcs := (u.vc :: u.peers).map VC.foldFlags } else y) }

/-- Act on a launch of the partition, running or saved. -/
def inLaunch (s : State) (o : Option LaunchTag) (f : State → State) : State :=
  if o = (if s.launch.live then some (s.launch.queue, s.launch.slot) else none) then f s
  else
    match o with
    | some t => inSaved s t f
    | none => f s

/-! ### Energy (R359-R361) -/

/-- The charge classes in R360's order. -/
inductive EClass where
  | eint | mul | div | fp | fpl | ld | st | csr | sys | atm | ring | xfer | vx | vcv | rng | rx | fx | ef | mxd | mxm
  | cpy | coll | mm16 | mm8 | mm6 | mm4 | sp | l2 | hbm | frag | vote | ref | leak | pidle
  deriving DecidableEq, Repr, Inhabited

/-- A class's place in the coefficient set (R360). -/
def EClass.code : EClass → Nat
  | .eint => 0 | .mul => 1 | .div => 2 | .fp => 3 | .fpl => 4 | .ld => 5 | .st => 6 | .csr => 7 | .sys => 8
  | .atm => 9 | .ring => 10 | .xfer => 11 | .vx => 12 | .vcv => 13 | .rng => 14 | .rx => 15 | .fx => 16 | .ef => 17
  | .mxd => 18 | .mxm => 19 | .cpy => 20 | .coll => 21 | .mm16 => 22 | .mm8 => 23 | .mm6 => 24 | .mm4 => 25
  | .sp => 26 | .l2 => 27 | .hbm => 28 | .frag => 29 | .vote => 30 | .ref => 31 | .leak => 32 | .pidle => 33

/-- The coefficient of a class in the set in use, in 1/256 pJ (R363). -/
def coef (s : State) (c : EClass) : Nat := listAt 0 s.part.coefs c.code

/-- The running launch (R361). -/
def launchTag (s : State) : Option LaunchTag := if s.launch.live then some (s.launch.queue, s.launch.slot) else none

/-- Put n events of a class on their way to the account of a virtual core of a launch, or of the device (R359, R361). -/
def chargeFor (s : State) (owner : Option LaunchTag) (who : Option Nat) (c : EClass) (n : Nat) : State :=
  if coef s c * n = 0 then s
  else { s with part.charges := s.part.charges ++ [{ owner := owner, amount := coef s c * n, cls := c.code, vc := who }] }

/-- Put n events of a class on their way to the account of a virtual core of the running launch, or of the device (R359). -/
def chargeTo (s : State) (who : Option Nat) (c : EClass) (n : Nat) : State := chargeFor s (launchTag s) who c n

/-- Charge the virtual core in focus. -/
def charge (s : State) (c : EClass) (n : Nat := 1) : State := chargeTo s (some s.vc.id) c n

/-! ### Queues (R86) -/

/-- A queue of a virtual core. -/
def Eng.q (e : Eng) : Queue → QState
  | .ld => e.ld | .mx => e.mx | .vx => e.vx | .fx => e.fx | .rx => e.rx | .st => e.st

/-- Set a queue. -/
def Eng.setQ (e : Eng) (q : Queue) (v : QState) : Eng :=
  match q with
  | .ld => { e with ld := v } | .mx => { e with mx := v } | .vx => { e with vx := v }
  | .fx => { e with fx := v } | .rx => { e with rx := v } | .st => { e with st := v }

/-- A queue's length (R86). -/
def qCap : Queue → Nat
  | .ld | .st => 64
  | _ => 32

/-- The engine of a queue (R91). -/
def qEngine : Queue → Engine
  | .ld => .ld
  | .st => .st
  | _ => .cmp

/-- A queue's number in cuts and overrun words (R96, R376). -/
def qCode : Queue → Nat
  | .ld => 0 | .mx => 1 | .vx => 2 | .fx => 3 | .rx => 4 | .st => 5

/-- An engine's code in TOKMAP and directories (R92, R139). -/
def engCode : Engine → Nat
  | .ld => 0 | .cmp => 1 | .st => 2

/-- The engine of a code (R139). -/
def engOfCode (n : Nat) : Engine :=
  match n with
  | 0 => .ld
  | 1 => .cmp
  | _ => .st

def allQueues : List Queue := [.ld, .mx, .vx, .fx, .rx, .st]
def columns : List Queue := [.mx, .vx, .fx, .rx]

/-- The queue of an engine major (R86); 0x3B is shared by the columns and stands in each. -/
def queueOfMajor (n : Nat) : Option Queue :=
  if 0x30 ≤ n ∧ n ≤ 0x33 then some .ld
  else if n = 0x34 ∨ n = 0x35 then some .mx
  else if 0x36 ≤ n ∧ n ≤ 0x38 then some .vx
  else if n = 0x39 then some .fx
  else if n = 0x3A then some .rx
  else if n = 0x3C ∨ n = 0x3D then some .st
  else none

/-- The engine of an engine major (R140). -/
def engineOfMajor (n : Nat) : Option Engine :=
  if 0x30 ≤ n ∧ n ≤ 0x33 then some .ld
  else if 0x34 ≤ n ∧ n ≤ 0x3B then some .cmp
  else if n = 0x3C ∨ n = 0x3D then some .st
  else none

/-- The head entry of a queue. -/
def headOf (s : State) (q : Queue) : Option QEntry := (s.vc.eng.q q).entries.head?

/-- The entry is the head of all four columns (R101). -/
def sharedAtHead (s : State) (e : QEntry) : Bool :=
  columns.all (fun q => match headOf s q with
                        | some h => h.seq == e.seq
                        | none => false)

/-- Remove the head entry e: of its queue, or of all four columns when it is shared. -/
def popHead (s : State) (q : Queue) (e : QEntry) : State :=
  let drop1 (en : Eng) (u : Queue) : Eng :=
    en.setQ u { en.q u with entries := (en.q u).entries.filter (fun x => x.seq != e.seq) }
  if e.shared then { s with vc.eng := columns.foldl drop1 s.vc.eng } else { s with vc.eng := drop1 s.vc.eng q }

/-! ### Tokens (R91-R95) -/

/-- The engine before and after in the ring LD → CMP → ST → LD (R91). -/
def engPrev : Engine → Engine
  | .ld => .st | .cmp => .ld | .st => .cmp
def engNext : Engine → Engine
  | .ld => .cmp | .cmp => .st | .st => .ld

/-- srcf and sinkf of FIFO f (R92). -/
def tokSrc (map : Word64) (f : Nat) : Nat := fld map (4 * f + 1) (4 * f)
def tokSink (map : Word64) (f : Nat) : Nat := fld map (4 * f + 3) (4 * f + 2)

/-- The FIFO with this source and sink (R91). -/
def fifoOf (map : Word64) (src sink : Engine) : Option Nat :=
  (countUp 0 4).find? (fun f => tokSrc map f == engCode src && tokSink map f == engCode sink)

/-- The FIFOs that a word's pop bits name, previous first; none where a bit resolves to no FIFO (R91, R93). -/
def popFifos (s : State) (e : Engine) (b : EngBits) : Option (List Nat) :=
  let mp := s.vc.ctl.tokmap
  let p := if b.popP then (fifoOf mp (engPrev e) e).map (fun f => [f]) else some []
  let n := if b.popN then (fifoOf mp (engNext e) e).map (fun f => [f]) else some []
  match p, n with
  | some x, some y => some (x ++ y)
  | _, _ => none

/-- The FIFOs that a word's push bits name (R91, R93). -/
def pushFifos (s : State) (e : Engine) (b : EngBits) : Option (List Nat) :=
  let mp := s.vc.ctl.tokmap
  let p := if b.pushP then (fifoOf mp e (engPrev e)).map (fun f => [f]) else some []
  let n := if b.pushN then (fifoOf mp e (engNext e)).map (fun f => [f]) else some []
  match p, n with
  | some x, some y => some (x ++ y)
  | _, _ => none

/-- The tokens of FIFO f that are left at this point of the beat: its count less the pops made so far at the beat (R94). -/
def tokCount (s : State) (f : Nat) : Nat := mget 0 s.vc.eng.tokens f

/-- The count of FIFO f at this beat, the pops that the queues made at it not taken off (R94). -/
def tokAtBeat (s : State) (f : Nat) : Nat := tokCount s f + mget 0 s.vc.eng.popped f

/-- Take a token from FIFO f. -/
def tokTake (s : State) (f : Nat) : State :=
  { s with vc.eng.tokens := mput 0 s.vc.eng.tokens f (tokCount s f - 1) }

/-- The FIFOs' first that lacks a token, taking them in order (R94, R96). -/
def tokMissing (s : State) : List Nat → Option Nat
  | [] => none
  | f :: r => if tokCount s f = 0 then some f else tokMissing (tokTake s f) r

/-- Pushes of FIFO f that are not yet visible. -/
def tokPending (s : State) (f : Nat) : Nat := (s.vc.eng.pushIn.filter (fun p => p.2 == f)).length

/-- A push would take the count above 15 (R95). -/
def tokFull (s : State) (f : Nat) : Bool := decide (15 ≤ tokCount s f + tokPending s f)

/-- Push a token into FIFO f at this beat, visible from the next (R94). -/
def tokPut (s : State) (f : Nat) : State := { s with vc.eng.pushIn := s.vc.eng.pushIn ++ [(s.vc.now + 1, f)] }

/-! ### Steps and votes (R289, R297, R298) -/

/-- The virtual core's step is open. -/
def VC.stepOpen (v : VC) : Bool := v.tx.state == 1

/-- Set vote flag f of a virtual core whose step is open; TXVOTE is frozen once it has voted (R292, R297). -/
def VC.voteFlag (v : VC) (f : Nat) : VC :=
  if v.tx.state = 1 then { v with tx.vote := v.tx.vote ||| w64 (2 ^ f) } else v

/-- The flags of, nv and ro that enter FLAGS during an open step set vote flags 1 and 2 (R297). -/
def VC.voteFlagsOf (v : VC) (f : Nat) : VC :=
  let v1 := if f &&& (fNv ||| fOf) ≠ 0 ∧ v.tx.state = 1 then v.voteFlag 1 else v
  if f &&& fRo ≠ 0 ∧ v1.tx.state = 1 then v1.voteFlag 2 else v1

/-- FLAGS take f at the end of a beat (R132). -/
def VC.enterFlags (v : VC) (f : Nat) : VC :=
  { v.voteFlagsOf f with ctl.flags := v.ctl.flags ||| w64 f }

/-- Flags of a CTL word enter when it retires (R125, R132). -/
def raiseFlags (s : State) (f : Nat) : State := { s with vc := s.vc.enterFlags f }

/-! ### Event records (R102, R103) -/

/-- Who posts a record: TVAL, entry name and word number of a fault against it (R371). -/
structure Poster where
  tval : Word64
  name : Nat
  seq  : Option Nat
  deriving DecidableEq, Repr, Inhabited

/-- An entry of an issue queue as poster of a record. -/
def QEntry.poster (e : QEntry) : Poster := ⟨e.word.setWidth 64, e.name, some e.seq⟩

/-- An operation with no word, as poster of a record. -/
def posterOf (name : Nat) : Poster := ⟨0, name, none⟩

/-- Word 0 of a record, without its beat (R102). -/
def recWord (src status tag kind : Nat) : Nat :=
  (tag % 2 ^ 16) * 2 ^ 24 + (status % 256) * 2 ^ 16 + src * 2 ^ 12 + kind % 256

/-- A completion record to be posted at beat b with this source (R102). -/
def postAt (s : State) (p : Poster) (b src status tag kind : Nat) (detail : Word64) : State :=
  { s with vc.eng.evIn := s.vc.eng.evIn ++
      [⟨b, w64 (b % 2 ^ 24 * 2 ^ 40 + recWord src status tag kind), detail, src, p.tval, p.name, p.seq, 0⟩] }

/-- Hold a completion record (R103); the completion of word `hold` − 1 waits with it. -/
def holdRecord (s : State) (p : Poster) (src status tag kind : Nat) (detail : Word64) (hold : Nat) : State :=
  { s with vc.eng.heldEv := s.vc.eng.heldEv ++
      [⟨0, w64 (recWord src status tag kind), detail, src, p.tval, p.name, p.seq, hold⟩] }

/-! ### Faults (R369-R380) -/

/-- The entry name of a CTL instruction or of a word it routed (R376). -/
def nameOfPc (pc : Word64) : Nat := 2 ^ 54 + fld pc 55 2

/-- The entry name of a table micro-order (R376). -/
def nameOfTable (t iter off : Nat) : Nat := 2 * 2 ^ 54 + t * 2 ^ 48 + (iter % 2 ^ 32) * 2 ^ 16 + off * 16

/-- Timing faults among the causes (R108, R369). -/
def timingCause (cause detail : Nat) : Bool :=
  [0x0E, 0x11, 0x12, 0x14, 0x15, 0x16, 0x26, 0x27].contains cause || (cause == 0x25 && detail == 4)

/-- TCAUSE of a fault (R371). -/
def FaultRec.tcause (f : FaultRec) : Word64 :=
  w64 (f.src * 2 ^ 20 + b2n (timingCause f.cause f.detail) * 2 ^ 19 + (f.detail % 256) * 256 + f.cause)

/-- The order in which faults of one beat are reported (R372): corruption, ECC, CTL, the queues, in flight. -/
def FaultRec.rank (f : FaultRec) : Nat :=
  if f.cause = 0x2A then 0
  else if f.cause = 0x28 then 1
  else if f.src = 0 then 2
  else if f.src = 1 then 3
  else if f.src = 2 ∨ f.src = 8 then 4
  else if f.src = 3 then 5
  else if f.src = 4 then 6
  else if f.src = 5 then 7
  else if f.src = 6 then 8
  else 9

/-- The fault reported next: the least beat, then the least rank, then the first raised (R372). -/
def nextFault : List FaultRec → Option FaultRec
  | [] => none
  | f :: r =>
    match nextFault r with
    | none => some f
    | some g => if g.beat < f.beat ∨ (g.beat = f.beat ∧ g.rank < f.rank) then some g else some f

/-- The launch runs on more than one device (R379). -/
def Launch.multi (l : Launch) : Bool := decide (l.hsize ≠ 0) || decide (l.hcount ≠ 0)

/-- A partition counter goes up by one; it saturates (R397). -/
def bumpCount (s : State) (k : Nat) : State :=
  { s with part.counts := mput 0 s.part.counts k (Nat.min (2 ^ 64 - 1) (mget 0 s.part.counts k + 1)) }

/-- An uncorrectable error enters its counter (R397). -/
def countError (s : State) (cause detail : Nat) : State := if cause = 0x28 then bumpCount s (0x200 + detail) else s

/-- Vote flag 9, and the flag that a fault's cause has of its own: 5 an uncorrectable error, 4 an audit, 3 the Collie
(R297). -/
def VC.voteFault (v : VC) (cause : Nat) : VC :=
  let v1 := v.voteFlag 9
  if cause = 0x28 then v1.voteFlag 5 else if cause = 0x29 then v1.voteFlag 4 else if cause = 0x2A then v1.voteFlag 3 else v1

/-- An uncorrectable error that the virtual core n meets outside an open step of its own sets flag 5 of the device's vote (R297, R394). -/
def eccOutside (s : State) (n cause : Nat) : State :=
  if cause = 0x28 ∧ s.part.openEp.isSome ∧ (getVC s n).any VC.stepOpen = false then { s with part.devVote := s.part.devVote ||| 32 } else s

/-- Record a fault against virtual core n (R372): it stays until its trap; in a Lockstep launch it freezes the launch
at this beat (R378); in an open step it sets vote flag 9 and its own (R297). The first of the beat is the trace's (R400). -/
def raiseAt (s : State) (n : Nat) (f : FaultRec) : State :=
  let s1 := updVC (eccOutside (countError s f.cause f.detail) n f.cause) n (fun v =>
    { v.voteFault f.cause with faults := v.faults ++ [f], raised := if v.raised = 0 then f.cause else v.raised })
  match s1.launch.mode, s1.launch.frozen with
  | .lockstep, none => { s1 with launch.frozen := some s1.vc.now }
  | .lockstep, some g => { s1 with launch.frozen := some (Nat.min g s1.vc.now) }
  | .elastic, _ => s1

/-- Record a fault against a queue: src is the queue's, or 8 for an entry shared by the columns (R371). -/
def queueFault (s : State) (q : Queue) (e : QEntry) (cause detail : Nat) (tval : Word64) : State :=
  raiseAt s s.vc.id
    { src := if e.shared then 8 else qCode q + 1, cause := cause, detail := detail, tval := tval,
      beat := s.vc.now, name := e.name, seq := some e.seq, tepc := none }

/-- TVAL of a queue fault that names no address: the faulting word (R371). -/
def wordTval (e : QEntry) : Word64 := e.word.setWidth 64

/-- The logical number of the core that a virtual core runs on (R343, R355). -/
def coreOf (s : State) (n : Nat) : Nat := 1024 / s.m * s.part.idx + n / s.m

/-- The physical cores enabled in cluster u of the device, in ascending order. DESIGN CHOICE (log 84): the first 16 of the 18 until a core
is replaced, the other two being healthy (R14, R15). -/
def enabledCores (s : State) (u : Nat) : List Nat :=
  match s.dev.enabled.find? (fun p => p.1 == u) with
  | some p => p.2
  | none => countUp 0 16

/-- The physical core that has logical number c: 18·cluster + its place in the cluster (R14, R15). -/
def physCore (s : State) (c : Nat) : Nat := 18 * (c / 16) + listAt 0 (enabledCores s (c / 16)) (c % 16)

/-- A corruption or audit fault counts against its physical core, which the root marks at RETIRE (R393). -/
def countSilent (s : State) : State :=
  let c := physCore s (coreOf s s.vc.id)
  let n := Nat.min 255 (mget 0 s.dev.silent c + 1)
  { s with dev.silent := mput 0 s.dev.silent c n,
           dev.marked := if s.dev.retire.toNat ≤ n ∧ s.dev.marked.contains c = false then s.dev.marked ++ [c]
                         else s.dev.marked }

/-- Record a fault of an operation in flight (R380). -/
def flightFault (s : State) (n cause detail : Nat) (tval : Word64) (name : Nat) (seq : Option Nat) : State :=
  raiseAt s n { src := 7, cause := cause, detail := detail, tval := tval, beat := s.vc.now, name := name, seq := seq,
                tepc := none }

/-- A virtual core's registers and its work are gone; what belongs to its core's debug block stays (R357, R375, R402). -/
def VC.clear (v : VC) : VC :=
  { VC.init v.id with
    pulse := v.pulse, raised := v.raised, ctrLast := v.ctrLast, ctrBuf := v.ctrBuf, ctrBase := v.ctrBase, ctrSize := v.ctrSize,
    ctrPtr := v.ctrPtr, ctrWrap := v.ctrWrap }

/-- The virtual core of a launch that has completed: it does nothing, and its registers and its share hold what they held (R336). -/
def VC.rest (v : VC) : VC :=
  { v.clear with
    ctl := { v.ctl with h := false, cur := none, fenceSeq := none, matched := none, lastSstep := none, flagsIn := [] }, z := v.z, zver := v.zver,
    g := v.g, b := v.b, chip := v.chip, audit := v.audit, tx := v.tx, tbl := { v.tbl with runs := [] },
    eng := { Eng.init with tokens := v.eng.tokens, events := v.eng.events, stepc := v.eng.stepc }, conflicts := v.conflicts,
    snaps := v.snaps }

/-- The debug block of the core that the virtual core comes to stays with the core (R402). -/
def VC.onCoreOf (v old : VC) : VC :=
  { v with
    pulse := old.pulse, past := [], issuedNow := 0, raised := 0, heads := [], ctlSeen := false, ctrLast := old.ctrLast, ctrBuf := old.ctrBuf,
    ctrBase := old.ctrBase, ctrSize := old.ctrSize, ctrPtr := old.ctrPtr, ctrWrap := old.ctrWrap }

/-- A collective of an Elastic launch is over here. What it sent is kept while another member may await it (R317): until the fourth one
after it in its group is over, which no member can have issued before (R325). -/
def VC.keepColl (v : VC) (c : Coll) : VC :=
  let wanted (x : Coll) : Bool :=
    x.group != c.group || decide ((c.seq + 2 ^ 32 - x.seq) % 2 ^ 32 < 4) || decide (2 ^ 31 ≤ (c.seq + 2 ^ 32 - x.seq) % 2 ^ 32)
  { v with sentColls := v.sentColls.filter wanted ++ [c] }

/-! ### The Collie's match (R389, R390) -/

/-- The Collie has matched every instruction that the virtual core's CTL retired before (R390). -/
def VC.settled (v : VC) : Bool := v.past.all (fun p => decide (p.beat + 3 ≤ v.pulse))

/-- The Collie has matched the instruction at pc: what it does may leave CTL (R390). -/
def matchedNow (s : State) : Bool :=
  match s.vc.ctl.matched with
  | some k => decide (k ≤ s.vc.pulse)
  | none => false

/-- CTL has executed the instruction at pc, and the Collie matches it 3 CTL beats later (R389). -/
def awaitMatch (s : State) : State :=
  if s.vc.ctl.matched.isSome then s else { s with vc.ctl.matched := some (s.vc.pulse + 3) }

/-- The Collie has matched every instruction that the CTL in focus retired before. -/
def settled (s : State) : Bool := s.vc.settled

/-- The frame counter as programs see it: 48 bits, standing at the fault beat while the launch is frozen (R89, R378). -/
def frameCount (s : State) : Nat :=
  match s.launch.frozen with
  | some f => (if s.vc.now ≤ f then s.vc.now else f) % 2 ^ 48
  | none => s.vc.now % 2 ^ 48

end Sys2Proof.Machine
end

