-- ==== Sys2Proof/Machine/Mem.lean ====
section
/-! DEFINITION. Memory: the pseudo-channels and L2 (R240-R242, R256), page tables and lookaside buffers (R243-R252), the
versioned store (R282-R288), the CTL caches (R253-R255, R263), the on-chip map (R166-R169), and the CTL accesses over
them (R120-R122). -/

namespace Sys2Proof.Machine

/-- What an access answers: it is done, it meets a fault (cause, detail), or it waits; with what it has done to the caches and
charges by then. -/
inductive MemR (α : Type) where
  | ok (s : State) (v : α)
  | fault (s : State) (cause detail : Nat)
  | wait (s : State)
  deriving Repr, Inhabited

/-! ### Lines and slices (R240, R256) -/

/-- The parity of a number's bits, over `n` bits. -/
def parity (v : Nat) : Nat → Bool
  | 0 => false
  | n + 1 => xor (bit v n) (parity v n)

/-- The default mask i of a partition with w index bits: bits 7 + i + w·k (R242). -/
def defaultMask (w i : Nat) : Nat :=
  if i < w then (countUp 0 49).foldl (fun a b => if b % w = i then a + 2 ^ (7 + b) else a) 0 else 0

/-- HMASK i: what was written, else the default (R241, R242). -/
def hmaskOf (s : State) (i : Nat) : Nat :=
  match s.part.hmask.find? (fun p => p.1 == i) with
  | some p => p.2
  | none => defaultMask (Nat.log2 s.np) i

/-- The pseudo-channel of a partition-physical address (R240). -/
def pcOf (s : State) (pa : Nat) : Nat :=
  (countUp 0 (Nat.log2 s.np)).foldl (fun a i => a + b2n (parity (pa &&& hmaskOf s i) 56) * 2 ^ i) 0

/-- The slice that homes the lines of slice i of the partition: itself, or the next one that is not retired (R257). -/
def liveSlice (s : State) (i : Nat) : Nat :=
  let n := s.np / 8
  match (countUp 0 n).find? (fun d => !s.dev.retired.contains (n * s.part.idx + (i + d) % n)) with
  | some d => (i + d) % n
  | none => i

/-- The L2 set of a line: slice, then (j mod 8) + 8·(k mod 256) (R256). -/
def l2SetOf (s : State) (line : Nat) : Nat :=
  let pa := line * 128
  let j := pcOf s pa
  let k := pa / 2 ^ (7 + Nat.log2 s.np)
  liveSlice s (j / 8) * 2048 + (j % 8) + 8 * (k % 256)

/-- The number of an L2 set of the partition among the device's sets. -/
def l2SetNo (s : State) (set : Nat) : Nat := s.np / 8 * 2048 * s.part.idx + set

/-- The ways that a set may allocate: 16 less those of the line-disable bitmap (R257). -/
def l2Ways (s : State) (set : Nat) : Nat := 16 - (s.dev.ways.filter (fun w => w / 16 == l2SetNo s set)).length

/-- A line enters L2 as the most recent one of its set, in a way that is free; in a full set in that of the least recently used line, the
last of the list, which leaves. The answer says whether a dirty line left. -/
def l2Fill (s : State) (set line : Nat) (dirty : Bool) (l : List L2Line) : List L2Line × Bool :=
  let mine := l.filter (fun p => l2SetOf s p.line == set)
  let free := (countUp 0 16).find? (fun w =>
    !s.dev.ways.contains (l2SetNo s set * 16 + w) && !mine.any (fun p => p.way == w))
  match free, mine.getLast? with
  | some w, _ => (⟨line, dirty, w⟩ :: l, false)
  | none, some v => (⟨line, dirty, v.way⟩ :: l.filter (fun p => p.line != v.line), v.dirty)
  | none, none => (l, false)

/-- An access to a line through its home slice (R256), with the line charges of R360 and R361 to the account of `who`: e.l2 for
each of the `moved` lines that go between a core and L2; a set with fewer than two ways is not allocated (R257). -/
def l2Access (s : State) (who : Option Nat) (moved : Nat) (line : Nat) (write : Bool) : State :=
  if l2Ways s (l2SetOf s line) < 2 then chargeTo (chargeTo s who .l2 moved) who .hbm 1 else
  let s1 := chargeTo s who .l2 moved
  match s.part.l2.find? (fun p => p.line == line) with
  | some p => { s1 with part.l2 := { p with dirty := p.dirty || write } :: s.part.l2.filter (fun x => x.line != line) }
  | none =>
    let (l, wb) := l2Fill s (l2SetOf s line) line write s.part.l2
    { chargeTo s1 who .hbm (1 + b2n wb) with part.l2 := l }

/-- An access of the virtual core in focus to a line through its home slice (R256). -/
def l2Touch (s : State) (line : Nat) (write : Bool) : State := l2Access s (some s.vc.id) 1 line write

/-- Bytes of partition memory. -/
def physRead (s : State) (pa n : Nat) : List Byte := mgets byteDefault s.part.mem pa n
/-- One byte of partition memory. -/
def physByte (s : State) (pa : Nat) : Byte := mget byteDefault s.part.mem pa
/-- Write bytes of partition memory. -/
def physWrite (s : State) (pa : Nat) (d : List Byte) : State :=
  { s with part.mem := mputs byteDefault s.part.mem pa d }

/-- Read through the home slice. -/
def homeRead (s : State) (pa n : Nat) : State × List Byte := (l2Touch s (pa / 128) false, physRead s pa n)
/-- Write through the home slice. -/
def homeWrite (s : State) (pa : Nat) (d : List Byte) : State := physWrite (l2Touch s (pa / 128) true) pa d

/-- The lines that n bytes from pa on meet. -/
def linesMet (pa n : Nat) : List Nat := if n = 0 then [] else countUp (pa / 128) ((pa + n - 1) / 128 + 1 - pa / 128)

/-- Read n bytes through their home slices for no context (R256, R361). -/
def deviceRead (s : State) (pa n : Nat) : State × List Byte :=
  ((linesMet pa n).foldl (fun t l => l2Access t none 1 l false) s, physRead s pa n)
/-- Write bytes through their home slices for no context (R256, R361). -/
def deviceWrite (s : State) (pa : Nat) (d : List Byte) : State :=
  physWrite ((linesMet pa d.length).foldl (fun t l => l2Access t none 1 l true) s) pa d

/-- A read of the line from HBM meets an uncorrectable error (R394, code 0x08): L2 does not hold it. -/
def poisoned (s : State) (pa : Nat) : Bool :=
  s.part.poison.contains (pa / 128) && !s.part.l2.any (fun p => p.line == pa / 128)

/-! ### Page tables (R245-R248, R283) -/

/-- The kinds of access that permissions tell apart (R248). -/
inductive AccKind where
  | read | write | atomic | fetch
  deriving DecidableEq, Repr, Inhabited

/-- Where the frame area of the versioned store lies: base and end (R282). -/
def frameArea (s : State) : Nat × Nat :=
  let base := fld s.part.vsbase 55 17 * 131072
  let size := fld s.part.vsize 55 17 * 131072
  let md := ceilDiv (ceilDiv size 256) 131072 * 131072
  (base, base + size - md - 8388608)

/-- The page-size exponent of a leaf at a level (R245). -/
def leafSize (level : Nat) : Nat :=
  match level with
  | 0 => 16
  | 1 => 21
  | _ => 30

/-- The index of a virtual address at a level (R245). -/
def levelIndex (level va : Nat) : Nat :=
  match level with
  | 0 => bits va 20 16
  | 1 => bits va 29 21
  | 2 => bits va 38 30
  | 3 => bits va 47 39
  | _ => bits va 55 48

/-- The bytes of a table at a level (R245). -/
def tableSize (level : Nat) : Nat :=
  match level with
  | 0 => 256
  | 4 => 2048
  | _ => 4096

/-- The checks of one entry, and what it names (R246, R248, R283): the next table or a translation. -/
def pteCheck (s : State) (level va pte : Nat) : Except Nat (Nat ⊕ TlbE) :=
  let leaf := bit pte 1
  let addr := bits pte 55 12 * 4096
  let vb := bit pte 5
  let size := leafSize level
  let (fb, fe) := frameArea s
  if !bit pte 0 then .error 1
  else if bits pte 63 56 ≠ 0 ∨ bits pte 11 6 ≠ 0 then .error 2
  else if leaf && decide (3 ≤ level) then .error 2
  else if !leaf && level == 0 then .error 2
  else if !leaf && decide (bits pte 5 2 ≠ 0) then .error 2
  else if leaf && decide (addr % 2 ^ size ≠ 0) then .error 2
  else if leaf && vb && decide (level ≠ 0 ∨ addr % 131072 ≠ 0) then .error 2
  else if !leaf then (if s.cp < addr + tableSize (level - 1) then .error 3 else .ok (.inl addr))
  else if s.cp < addr + 2 ^ size then .error 3
  else if vb && decide (addr < fb ∨ fe < addr + 131072) then .error 3
  else .ok (.inr { page := va / 2 ^ size, size := size, frame := addr, vb := vb, x := bit pte 4, w := bit pte 3,
                   rd := bit pte 2 })

/-- The entry at pa as a walk reads it (R248): a fault's cause and detail where it fails its checks, or where an uncorrectable error
hides it (R394). -/
def pteRead (s : State) (level va pa : Nat) (b : List Byte) : Except (Nat × Nat) (Nat ⊕ TlbE) :=
  if poisoned s pa then .error (0x28, 8)
  else
    match pteCheck s level va (leNat b) with
    | .error d => .error (5, d)
    | .ok x => .ok x

/-- A walk from `level` down (R248): one entry per level, through L2; a translation, or a fault's cause and detail. -/
def walkGo (s : State) (table va : Nat) : Nat → State × Except (Nat × Nat) TlbE
  | 0 =>
    let (s1, b) := homeRead s (table + 8 * levelIndex 0 va) 8
    match pteRead s 0 va (table + 8 * levelIndex 0 va) b with
    | .error d => (s1, .error d)
    | .ok (.inr e) => (s1, .ok e)
    | .ok (.inl _) => (s1, .error (5, 2))
  | level + 1 =>
    let (s1, b) := homeRead s (table + 8 * levelIndex (level + 1) va) 8
    match pteRead s (level + 1) va (table + 8 * levelIndex (level + 1) va) b with
    | .error d => (s1, .error d)
    | .ok (.inr e) => (s1, .ok e)
    | .ok (.inl t) => walkGo s1 t va level

/-- A whole walk of a virtual address from PTROOT (R247, R248). -/
def walk (s : State) (va : Nat) : State × Except (Nat × Nat) TlbE :=
  let root := fld s.part.ptroot 55 11 * 2048
  if s.cp < root + tableSize 4 then (s, .error (5, 3)) else walkGo s root va 4

/-- A translation matches an address. -/
def TlbE.hits (e : TlbE) (va : Nat) : Bool := e.page == va / 2 ^ e.size

/-- The cluster of the virtual core in focus, within its partition (R343). -/
def clusterOf (s : State) : Nat := s.vc.id / s.m / 16

/-- The die of the virtual core in focus (R343, R355). -/
def dieOf (s : State) : Nat := (64 / s.m * s.part.idx + clusterOf s) / 16

/-- The core TLB with e most recent, 64/m entries (R249). -/
def coreTlbPut (s : State) (e : TlbE) : List TlbE :=
  (e :: s.vc.tlb.filter (fun x => x != e)).take (64 / s.m)

/-- The cluster TLB with e most recent in its set of 16 ways (R249). -/
def clusterTlbPut (s : State) (e : TlbE) : List (Nat × TlbE) :=
  let c := clusterOf s
  let same (p : Nat × TlbE) : Bool := p.1 == c && p.2.page % 64 == e.page % 64
  let l := (c, e) :: s.part.ctlb.filter (fun p => p != (c, e))
  let keep := (l.filter same).take 16
  l.filter (fun p => !same p || keep.contains p)

/-- The translation e enters both TLBs (R249). -/
def tlbFill (s : State) (e : TlbE) : State := { s with vc.tlb := coreTlbPut s e, part.ctlb := clusterTlbPut s e }

/-- The walk of the page of an address that runs on this die (R250). -/
def walkOf (s : State) (va : Nat) : Option Walk :=
  s.part.walks.find? (fun w => w.die == dieOf s && (match w.entry with
    | some e => e.hits va
    | none => w.page == va / 65536))

/-- A walk that has begun at this beat, with its result. -/
def walkNote (s : State) (va : Nat) (e : Option TlbE) (cause detail : Nat) : State :=
  { s with part.walks := { die := dieOf s, page := va / 65536, entry := e, cause := cause, detail := detail } :: s.part.walks }

/-- Look a translation up in the core TLB, the cluster TLB and the tables, filling on the way (R249). A miss takes the result of a walk that
runs for its page on its die (R250); a walk runs for the beat that starts it (log 8). -/
def lookup (s : State) (va : Nat) : State × Except (Nat × Nat) TlbE :=
  match s.vc.tlb.find? (fun e => e.hits va) with
  | some e => ({ s with vc.tlb := coreTlbPut s e }, .ok e)
  | none =>
    match s.part.ctlb.find? (fun p => p.1 == clusterOf s && p.2.hits va) with
    | some p => (tlbFill s p.2, .ok p.2)
    | none =>
      match walkOf s va with
      | some w =>
        (match w.entry with
         | some e => (tlbFill s e, .ok e)
         | none => (s, .error (w.cause, w.detail)))
      | none =>
        match walk s va with
        | (s1, .ok e) => (walkNote (tlbFill s1 e) va (some e) 0 0, .ok e)
        | (s1, .error d) => (walkNote s1 va none d.1 d.2, .error d)

/-- Permissions (R248, R273): none when the translation grants the access. -/
def denied (e : TlbE) (k : AccKind) : Option Nat :=
  match k with
  | .read => if e.rd then none else some 4
  | .write => if e.w then none else some 4
  | .atomic => if e.rd && e.w then none else some 4
  | .fetch => if e.x && !e.vb then none else some 5

/-- Neither TLB holds a translation of the address. -/
def tlbMiss (s : State) (va : Nat) : Bool :=
  !s.vc.tlb.any (fun e => e.hits va) && !s.part.ctlb.any (fun p => p.1 == clusterOf s && p.2.hits va)

/-- The state after an access that its translation denies: what a walk of it found is not kept (R249). -/
def afterDenied (s s1 : State) (va : Nat) : State :=
  if tlbMiss s va then { s1 with vc.tlb := s.vc.tlb, part.ctlb := s.part.ctlb } else s1

/-- Translate a virtual address for an access: the address and the page's translation. -/
def translate (s : State) (va : Nat) (k : AccKind) : MemR (Nat × TlbE) :=
  match lookup s va with
  | (s1, .error (c, d)) => .fault s1 c d
  | (s1, .ok e) =>
    match denied e k with
    | some d => .fault (afterDenied s s1 va) 5 d
    | none => .ok s1 (e.frame + va % 2 ^ e.size, e)

/-- The physical line of a virtual address, when a translation names one: what the home port compares. -/
def lineOf (s : State) (va : Nat) : Option Nat :=
  match (lookup s va).2 with
  | .ok e => some ((e.frame + va % 2 ^ e.size) / 128)
  | .error _ => none

/-! ### The on-chip map (R166-R169) -/

def mapBase : Nat := 0xF00000000000
def mapEnd : Nat := 0xF10000000000
/-- The address lies in the map range (R243). -/
def inMap (va : Nat) : Bool := decide (mapBase ≤ va) && decide (va < mapEnd)

/-- Where tiles and parameter blocks stand in a window (R167). -/
def tileOff : Nat := 0x800000
def tpbOff : Nat := 0xC02000

/-- Where ring word, stream word and block word images stand (R167). -/
inductive MapWhat where
  | bytes | x (n : Nat) | y (n : Nat) | m (n : Nat) | z (n k : Nat) | g (n w : Nat) | b (n w : Nat) | tpb (t w : Nat)
  deriving DecidableEq, Repr, Inhabited

/-- What an offset of a window holds, with its width rule; none where R167 lists nothing. -/
def mapWhat (s : State) (off : Nat) : Option MapWhat :=
  if off < s.share then some .bytes
  else if tileOff ≤ off ∧ off < tileOff + 0x400 * s.tiles then some .bytes
  else if 0xC00000 ≤ off ∧ off < 0xC00200 then some (.x ((off - 0xC00000) / 8))
  else if 0xC00200 ≤ off ∧ off < 0xC00280 then some (.y ((off - 0xC00200) / 8))
  else if 0xC00280 ≤ off ∧ off < 0xC002C0 then some (.m ((off - 0xC00280) / 8))
  else if 0xC00400 ≤ off ∧ off < 0xC00800 ∧ (off - 0xC00400) % 64 < 56 then
    some (.z ((off - 0xC00400) / 64) ((off - 0xC00400) % 64 / 8))
  else if 0xC00800 ≤ off ∧ off < 0xC00900 then some (.g ((off - 0xC00800) / 16) ((off - 0xC00800) % 16 / 8))
  else if 0xC01000 ≤ off ∧ off < 0xC01400 then some (.b ((off - 0xC01000) / 64) ((off - 0xC01000) % 64 / 4))
  else if tpbOff ≤ off ∧ off < tpbOff + 64 * s.tiles then some (.tpb ((off - tpbOff) / 64) ((off - tpbOff) % 64 / 8))
  else none

/-- The width and alignment that R167 lists. -/
def mapWidthOk (w : MapWhat) (off n : Nat) : Bool :=
  let nat := decide (off % n = 0)
  match w with
  | .bytes => if off < tileOff then nat && [1, 2, 4, 8].contains n else nat && (n == 4 || n == 8)
  | .b _ _ => nat && n == 4
  | _ => nat && n == 8

/-- A value that zset would accept for word k (R60, R63, R64). -/
def zsetOk (k : Nat) (v : Word64) : Bool :=
  match k with
  | 0 => decide (v.toNat < 2 ^ 22)
  | 1 => decide (-32768 ≤ v.toInt) && decide (v.toInt ≤ 32767)
  | 2 => decide (v.toNat < 65536) && decide (v.toNat ≠ 0)
  | 3 =>
    let f := fld v 4 0
    let p := fld v 6 5
    decide (v.toNat < 2048) && decide (f ≤ 0x11) && (p == 0 || (p == 1 && f == 6))
      && (fld v 10 10 == 0 || decide (f ≤ 6)) && (fld v 9 9 == 0 || decide (f ≤ 6))
  | 4 => fld v 63 48 == 0 && fld v 31 22 == 0
  | 5 => fld v 63 42 == 0 && fld v 31 5 == 0
  | _ => true

/-- A value that ring word 0 accepts (R157). -/
def ringOk (v : Word64) : Bool := fld v 63 58 == 0 && fld v 39 32 == 0 && fld v 5 0 == 0

/-- Word k of stream register z of a virtual core. -/
def VC.zword (v : VC) (z k : Nat) : Word64 := mget 0 v.z (8 * z + k)

/-- A zero ring: one slot of 64 bytes at offset 0 (R157). -/
def ringZero : Ring := ⟨0, 0, 0, 0⟩

/-- Ring n of a virtual core. -/
def VC.ring (v : VC) (n : Nat) : Ring := mget ringZero v.g n

/-- Ring word 1 as it reads (R157). -/
def Ring.word1 (r : Ring) : Word64 := w64 (r.cnt * 65536 + r.tail * 256 + r.head)

/-- The map's target and offset, or its fault (R168): checks 1 to 4 in order. `data` is what a write brings. -/
def mapCheck (s : State) (va n : Nat) (data : Option (List Byte)) : Except Nat (Nat × Nat × MapWhat) :=
  let v := (va - mapBase) / 0x1000000
  let off := (va - mapBase) % 0x1000000
  match getVC s v, mapWhat s off with
  | some _, some w =>
    let ro := match w with
      | .x _ => true
      | .g _ 1 => true
      | _ => false
    if data.isSome && ro then .error 2
    else if !mapWidthOk w off n then .error 3
    else
      match data, w with
      | some d, .z _ k => if zsetOk k (w64 (leNat d)) then .ok (v, off, w) else .error 4
      | some d, .g _ _ => if ringOk (w64 (leNat d)) then .ok (v, off, w) else .error 4
      | _, _ => .ok (v, off, w)
  | _, _ => .error 1

/-- The bytes a map read returns. A copy block's word reads as it was written (log 79). -/
def mapValue (t : VC) (off n : Nat) (w : MapWhat) : List Byte :=
  match w with
  | .bytes => mgets byteDefault t.chip off n
  | .tpb _ _ => mgets byteDefault t.chip off n
  | .x k => leBytes (if k = 0 then 0 else (mget 0 t.ctl.x k).toNat) 8
  | .y k => leBytes (mget 0 t.ctl.y k).toNat 8
  | .m k => leBytes (mget 0 t.ctl.m k).toNat 8
  | .z z k => leBytes (t.zword z k).toNat 8
  | .g k 0 => leBytes (t.ring k).w0.toNat 8
  | .g k _ => leBytes (t.ring k).word1.toNat 8
  | .b k j => leBytes (mget 0 t.b (16 * k + j)).toNat 4

/-- The bits of a parameter-block word that a write changes (R195). -/
def tpbMask (w : Nat) : Nat :=
  match w with
  | 0 => 2 ^ 27 - 1
  | 1 => (2 ^ 16 - 1) * 2 ^ 32 + (2 ^ 16 - 1)
  | 2 => 2 ^ 32 - 1
  | 3 => 0
  | _ => 2 ^ 64 - 1

/-- Write bytes of a virtual core's window memory. -/
def VC.putChip (v : VC) (off : Nat) (d : List Byte) : VC := { v with chip := mputs byteDefault v.chip off d }

/-! ### Versioned pages (R282-R288) -/

/-- The number of the block that offset `off` of the frame at `frame` lies in. -/
def blockOf (frame off : Nat) : Nat := frame / 131072 * 32 + off / 2048
/-- The partition-physical address of a slot of a block (R283). -/
def slotAddr (bk slot : Nat) : Nat := bk / 32 * 131072 + slot * 65536 + bk % 32 * 2048

/-- A clean block with c = 0 (R285). -/
def blockZero : Block := ⟨0, none, 0, [], 0, false, 0, none, none⟩
def blockAt (s : State) (bk : Nat) : Block := mget blockZero s.part.blocks bk
def setBlock (s : State) (bk : Nat) (b : Block) : State := { s with part.blocks := mput blockZero s.part.blocks bk b }

/-- Copy the lines of slot c that the map lacks into the other slot (R286, R287). -/
def copyLines (s : State) (bk : Nat) (b : Block) : State :=
  (countUp 0 16).foldl
    (fun t i => if b.map.getLsbD i then t
                else physWrite t (slotAddr bk (1 - b.c) + 128 * i) (physRead t (slotAddr bk b.c + 128 * i) 128)) s

/-- The outcome of an epoch, when it is known: true for committed (R288). -/
def outcomeOf (s : State) (e : Nat) : Option Bool :=
  (s.part.outcomes.find? (fun o => o.1 == e % 256 && o.2.1 == e)).map (fun o => o.2.2.1)

/-- The generation of a closed epoch. -/
def genOf (s : State) (e : Nat) : Option Nat :=
  (s.part.outcomes.find? (fun o => o.1 == e % 256 && o.2.1 == e)).map (fun o => o.2.2.2)

/-- Pins of the pending drains whose outcome came after the block's last touch (R301). -/
def applyPins (s : State) (b : Block) : Block :=
  let gens := (s.part.drains.filter (fun d => decide (b.touched < d.order))).map (fun d => d.gen)
  { gens.foldl (fun (x : Block) g => { x with pin := (x.c, g) :: x.pin.filter (fun p => p.1 != x.c) }) b with
    touched := s.part.commits }

/-- A touch (R286): resolve a closed block by its epoch's outcome, then apply the pending pins. -/
def touch (s : State) (bk : Nat) : State :=
  let b := blockAt s bk
  let s1 := match b.e with
    | none => s
    | some e =>
      match outcomeOf s e with
      | none => s
      | some true => setBlock (copyLines (chargeTo s none .hbm (2 * (16 - (countUp 0 16).foldl (fun a i => a + b2n (b.map.getLsbD i)) 0))) bk b) bk
                       { b with c := 1 - b.c, e := none, map := 0, copy := false, gen := genOf s e }
      | some false => setBlock s bk { b with e := none, map := 0, copy := false }
  setBlock s1 bk (applyPins s1 (blockAt s1 bk))

/-- The slot that a read of a line comes from (R286). -/
def readSlot (b : Block) (line : Nat) : Nat := if b.e.isSome && b.map.getLsbD line then 1 - b.c else b.c

/-- A read of a vb page within one line (R286). -/
def vRead (s : State) (frame off n : Nat) : State × List Byte :=
  let bk := blockOf frame off
  let s1 := touch s bk
  let b := blockAt s1 bk
  (charge s1 .hbm, physRead s1 (slotAddr bk (readSlot b (off % 2048 / 128)) + off % 2048) n)

/-- A read of a vb page meets an uncorrectable error in the slot that it comes from (R286, R394). -/
def vPoisoned (s : State) (frame off : Nat) : Bool :=
  let bk := blockOf frame off
  let b := blockAt (touch s bk) bk
  s.part.poison.contains ((slotAddr bk (readSlot b (off % 2048 / 128)) + off % 2048) / 128)

/-- A write of n bytes of a vb page has first to read its line, and meets an uncorrectable error there (R286, R394). -/
def vPoisonedWrite (s : State) (frame off n : Nat) : Bool :=
  let bk := blockOf frame off
  let b := blockAt (touch s bk) bk
  let held := decide (b.e = s.part.openEp.map (fun o => o.1)) && b.map.getLsbD (off % 2048 / 128)
  decide (n ≠ 128) && !held && s.part.poison.contains ((slotAddr bk b.c + off % 2048) / 128)

/-- Entries the drain queue holds: 8 MiB of 2 KiB blocks (R282, R287). -/
def drainCap : Nat := 4096

/-- A write of a vb page within one line, tagged with an epoch (R286, R287); none when it waits for the drain queue.
A tag whose epoch is no longer open is discarded and counted. A partial line is first read from slot c, and a pinned slot goes to the
drain queue line by line: both are lines that the version logic moves (R360). -/
def vWrite (s : State) (frame off : Nat) (d : List Byte) (tag : Option Nat) : Option State :=
  let bk := blockOf frame off
  let line := off % 2048 / 128
  let ep := s.part.openEp.map (fun o => o.1)
  if tag.isNone ∨ tag ≠ ep then
    some (bumpCount s 0)
  else
    let s1 := touch s bk
    let b := blockAt s1 bk
    let first := decide (b.e ≠ ep)
    let pinned := b.pin.find? (fun p => p.1 == 1 - b.c)
    if first && pinned.isSome && decide (drainCap ≤ s1.part.drainQ.length) then none
    else
      let s2 := match first, pinned with
        | true, some p =>
          charge { s1 with part.drainQ := s1.part.drainQ ++ [(bk, p.2, physRead s1 (slotAddr bk p.1) 2048)] } .hbm 32
        | _, _ => s1
      let b2 := if first then { b with e := ep, map := 0, copy := true, writer := s.vc.id, owner := launchTag s, pin := b.pin.filter (fun p => p.1 != 1 - b.c) } else b
      let whole := d.length == 128
      let s3 := if b2.map.getLsbD line || whole then s2
                else physWrite (charge s2 .hbm) (slotAddr bk (1 - b.c) + 128 * line) (physRead s2 (slotAddr bk b.c + 128 * line) 128)
      let s4 := physWrite (charge s3 .hbm) (slotAddr bk (1 - b.c) + off % 2048) d
      some (setBlock s4 bk { b2 with map := b2.map ||| BitVec.ofNat 16 (2 ^ line) })

/-! ### The CTL caches (R253-R255, R263) -/

/-- Sets of a CTL cache share: 64/m KiB, 4 ways of 128 bytes (R253). -/
def ctlSets (s : State) : Nat := 128 / s.m

/-- The dirty bytes of a line as (address, byte) writes. -/
def dirtyBytes (l : CLn) : List (Nat × Byte) :=
  ((countUp 0 128).filter (fun i => l.dirty.getLsbD i)).map (fun i => (l.line * 128 + i, listAt 0 l.data i))

/-- Write the dirty bytes of a line to its home slice (R254, R263). -/
def writeLine (s : State) (l : CLn) : State :=
  if l.dirty = 0 then s
  else (dirtyBytes l).foldl (fun t p => physWrite t p.1 [p.2]) (l2Touch s l.line true)

/-- Write a line of the data cache back: it stays, clean, and leaves the dirty-line FIFO (R254). -/
def writeBack (s : State) (line : Nat) : State :=
  match s.vc.dcache.find? (fun l => l.line == line) with
  | none => { s with vc.fifo := s.vc.fifo.filter (fun x => x != line) }
  | some l =>
    let s1 := writeLine s l
    { s1 with vc.dcache := s1.vc.dcache.map (fun x => if x.line = line then { x with dirty := 0 } else x),
              vc.fifo := s1.vc.fifo.filter (fun x => x != line) }

/-- Drop a line of the data cache, writing it back when dirty. -/
def dropLine (s : State) (line : Nat) : State :=
  let s1 := writeBack s line
  { s1 with vc.dcache := s1.vc.dcache.filter (fun l => l.line != line) }

/-- Write back every dirty line, oldest first (R136, R266). -/
def flushFifo (s : State) : State := s.vc.fifo.foldl writeBack s

/-- The first way of a set of a CTL cache in the line-disable bitmap, by its physical core: cache 0 holds data, cache 1 instructions
(R253, R395). -/
def ctlWayNo (s : State) (cache set : Nat) : Nat :=
  2 ^ 40 + ((physCore s (coreOf s s.vc.id) * 2 + cache) * 128 + s.vc.id % s.m * ctlSets s + set) * 4

/-- The ways of the set of a line that are not disabled (R253, R395). -/
def ctlWays (s : State) (cache line : Nat) : Nat :=
  4 - (s.dev.ways.filter (fun w => w / 4 == ctlWayNo s cache (line % ctlSets s) / 4)).length

/-- A way of a line's set that is neither disabled nor holds one of these lines (R253, R395). -/
def ctlFreeWay (s : State) (cache line : Nat) (c : List CLn) : Nat :=
  let set := line % ctlSets s
  match (countUp 0 4).find? (fun w => !s.dev.ways.contains (ctlWayNo s cache set + w)
      && !c.any (fun l => l.line % ctlSets s == set && l.way == w)) with
  | some w => w
  | none => 0

/-- Make room for a line in its set: the least recently used line of a full set is evicted (R254). -/
def evictFor (s : State) (line : Nat) : State :=
  let mine := s.vc.dcache.filter (fun l => l.line % ctlSets s == line % ctlSets s)
  if mine.length < ctlWays s 0 line then s
  else
    match mine.getLast? with
    | none => s
    | some v => dropLine s v.line

/-- A line enters the data cache as the most recent one; a set whose ways are all disabled keeps none (R254, R395). -/
def dcFill (s : State) (l : CLn) : State :=
  if ctlWays s 0 l.line = 0 then s else { s with vc.dcache := l :: s.vc.dcache }

/-- The data-cache line of an address, filled from the home slice on a miss and most recent afterwards (R254). -/
def dcLine (s : State) (line : Nat) : State × CLn :=
  match s.vc.dcache.find? (fun l => l.line == line) with
  | some l => ({ s with vc.dcache := l :: s.vc.dcache.filter (fun x => x.line != line) }, l)
  | none =>
    let s1 := evictFor s line
    let (s2, d) := homeRead s1 (line * 128) 128
    let l : CLn := ⟨line, d, 0, ctlFreeWay s1 0 line s1.vc.dcache⟩
    (dcFill s2 l, l)

/-- A cache holds a line. -/
def holds (c : List CLn) (line : Nat) : Bool := c.any (fun l => l.line == line)

/-- The bytes of a line's list from `i` on, n of them. -/
def cut {α : Type} (l : List α) (i n : Nat) : List α := (l.drop i).take n

/-- A line's bytes with `d` written from `i` on. -/
def splice (l : List Byte) (i : Nat) (d : List Byte) : List Byte :=
  (countUp 0 128).map (fun j => if i ≤ j ∧ j < i + d.length then listAt 0 d (j - i) else listAt 0 l j)

/-- The bits i to i + n − 1. -/
def maskBits (i n : Nat) : BitVec 128 := BitVec.ofNat 128 ((2 ^ n - 1) * 2 ^ i)

/-- The line is cached nowhere: a store to it leaves CTL at once, as each set whose ways are all disabled serves it (R395). -/
def dcBypass (s : State) (line : Nat) : Bool := decide (ctlWays s 0 line = 0) && !holds s.vc.dcache line

/-- Store into the data cache: the line enters the dirty FIFO when it first becomes dirty (R254, R263). -/
def dcStore (s : State) (pa : Nat) (d : List Byte) : State :=
  let line := pa / 128
  if dcBypass s line then homeWrite s pa d else
  let (s1, l) := dcLine s line
  let s2 := if s1.vc.fifo.contains line then s1
            else
              let s' := match s1.vc.fifo with
                | f :: _ => if 64 / s1.m ≤ s1.vc.fifo.length then writeBack s1 f else s1
                | [] => s1
              { s' with vc.fifo := s'.vc.fifo ++ [line] }
  let l2 : CLn := ⟨line, splice l.data (pa % 128) d, l.dirty ||| maskBits (pa % 128) d.length, l.way⟩
  { s2 with vc.dcache := s2.vc.dcache.map (fun x => if x.line = line then l2 else x) }

/-! ### CTL accesses (R120-R122) -/

/-- The epoch tag of the focus virtual core's writes: the open epoch while its step is open (R295). -/
def epochTag (s : State) : Option Nat := if s.vc.tx.state = 1 then s.part.openEp.map (fun o => o.1) else none

/-- The checks of R121 before translation: range, then alignment. -/
def addrCheck (va : Word64) (n : Nat) : Option (Nat × Nat) :=
  if fld va 63 56 ≠ 0 then some (4, 0) else if va.toNat % n ≠ 0 then some (3, 0) else none

/-- The source span of a copy in flight: whether it lies in memory, its first byte and the one past its last; that of a copy whose
image is still read is taken from the image as it stood at the issue beat (R228, R238). -/
def Flight.source (f : Flight) : Option (Bool × Nat × Nat) :=
  match f.copy, f.work with
  | some c, _ => some (c.srcMem, c.srcLo, c.srcHi)
  | none, .image i => i.source
  | none, _ => none

/-- The memory source span of a copy in flight meets [va, va + n) (R238). -/
def memHazard (s : State) (va n : Nat) : Bool :=
  s.vc.eng.flights.any (fun f => match f.source with
    | some (m, lo, hi) => m && decide (va < hi) && decide (lo < va + n)
    | none => false)

/-- The scratchpad source span of a copy in flight meets [lo, hi) (R238). -/
def spHazard (v : VC) (lo hi : Nat) : Bool :=
  v.eng.flights.any (fun f => match f.source with
    | some (m, a, b) => !m && decide (lo < b) && decide (a < hi)
    | none => false)

/-- A no-return atomic of the virtual core on this granule of partition memory is still to be performed (R275). -/
def granuleBusy (s : State) (pa : Nat) : Bool := s.vc.atomics.any (fun a => a.pa / 8 == pa / 8)

/-! ### Banks of the scratchpad (R152, R153, R398) -/

/-- The bank of a share offset (R152). -/
def bankOf (a : Nat) : Nat := a / 64 % 64
/-- The row of a share offset. -/
def rowOf (a : Nat) : Nat := a / 4096

/-- CTL's claims have owners from here on: one for each virtual core. -/
def ctlOwner : Nat := 2 ^ 60

/-- Ask for the row of byte a: none when its bank serves another access at this beat. Reads of one row merge; what one owner
writes in a row is one access, and the accesses of one CTL word follow each other (R153). -/
def claim (cl : List Claim) (a : Nat) (read : Bool) (owner : Nat) : Option (List Claim) :=
  match cl.find? (fun c => c.bank == bankOf a) with
  | none => some (⟨bankOf a, rowOf a, read, owner⟩ :: cl)
  | some c =>
    if (c.row = rowOf a ∧ c.read = true ∧ read = true) ∨ (c.owner = owner ∧ c.read = read ∧ (c.row = rowOf a ∨ ctlOwner ≤ owner))
    then some cl else none

/-- A beat lost in these banks (R153, R398): one more in each cell of the requester, once a beat, saturating at 32 bits. -/
def loseBanks (v : VC) (rank : Nat) (banks : List Nat) : VC :=
  let keys := ((banks.eraseDups).map (fun b => rank * 64 + b)).filter (fun k => !v.lostNow.contains k)
  let bump (m : SMap Nat) (k : Nat) : SMap Nat := mput 0 m k (Nat.min (2 ^ 32 - 1) (mget 0 m k + 1))
  { v with lost := true, lostNow := keys ++ v.lostNow, conflicts := keys.foldl bump v.conflicts }

/-- A CTL read of target t's window lands (R169): scratchpad bytes take their bank, at inbound rank in another virtual core and
last in CTL's own; none when the bank is taken at this beat (R153). -/
def mapRead (s : State) (t : VC) (off n : Nat) (w : MapWhat) : State × Option (List Byte) :=
  if w = .bytes ∧ off < tileOff then
    match claim t.claims off true (ctlOwner + s.vc.id) with
    | some cl => (updVC s t.id (fun v => { v with claims := cl }), some (mapValue t off n w))
    | none => (updVC s t.id (fun v => loseBanks v (if t.id = s.vc.id then 7 else 0) [bankOf off]), none)
  else (s, some (mapValue t off n w))

/-- A map write of the virtual core to this window has not landed (R122, R169). -/
def mapBusy (s : State) (va : Nat) : Bool :=
  s.launch.maps.any (fun a => a.src == s.vc.id && a.dst == (va - mapBase) / 0x1000000)

/-- A CTL load of n bytes (R121, R122): range, alignment, translation; the map uncached; vb pages at the home port;
everything else through the data cache. -/
def ctlLoad (s : State) (va : Word64) (n : Nat) : MemR Nat :=
  match addrCheck va n with
  | some (c, d) => .fault s c d
  | none =>
    let a := va.toNat
    if inMap a then
      match mapCheck s a n none with
      | .error d => .fault s 6 d
      | .ok (v, off, w) =>
        if mapBusy s a then .wait s
        else
          match getVC s v with
          | none => .fault s 6 1
          | some t =>
            match mapRead s t off n w with
            | (s1, some d) => .ok s1 (leNat d)
            | (s1, none) => .wait s1
    else
      match translate s a .read with
      | .fault s1 c d => .fault s1 c d
      | .wait s1 => .wait s1
      | .ok s1 (pa, e) =>
        if granuleBusy s1 pa then .wait s1
        else if (e.vb && vPoisoned s1 e.frame (pa - e.frame)) || (!e.vb && poisoned s1 pa && !holds s1.vc.dcache (pa / 128)) then
          .fault s1 0x28 8
        else if e.vb then
          let (s2, b) := vRead s1 e.frame (pa - e.frame) n
          .ok s2 (leNat b)
        else
          let (s2, l) := dcLine s1 (pa / 128)
          .ok s2 (leNat (cut l.data (pa % 128) n))

/-- A CTL store of n bytes (R121, R122, R169, R238, R295). One that the data cache does not take leaves CTL when the Collie has matched it
(R390): a write of the map lands from the fourth beat on (log 7), another waits in CTL. -/
def ctlStore (s : State) (va : Word64) (d : List Byte) : MemR Unit :=
  match addrCheck va d.length with
  | some (c, e) => .fault s c e
  | none =>
    let a := va.toNat
    if inMap a then
      match mapCheck s a d.length (some d) with
      | .error e => .fault s 6 e
      | .ok (v, off, w) =>
        if v = s.vc.id ∧ w = .bytes ∧ off < s.share ∧ spHazard s.vc off (off + d.length) = true then .fault s 0x1A 0
        else
          .ok { s with launch.maps := s.launch.maps ++
                  [{ src := s.vc.id, dst := v, off := off, data := d, due := s.vc.now + 4, seqS := none, piece := 0 }] } ()
    else
      match translate s a .write with
      | .fault s1 c e => .fault s1 c e
      | .wait s1 => .wait s1
      | .ok s1 (pa, e) =>
        if memHazard s1 a d.length then .fault s1 0x1A 0
        else if e.vb then
          if (epochTag s1).isNone then .fault s1 0x21 4
          else if vPoisonedWrite s1 e.frame (pa - e.frame) d.length then .fault s1 0x28 8
          else if !matchedNow s1 then .wait (awaitMatch s1)
          else
            match vWrite s1 e.frame (pa - e.frame) d (epochTag s1) with
            | some s2 => .ok s2 ()
            | none => .wait s1
        else if poisoned s1 pa && !holds s1.vc.dcache (pa / 128) then .fault s1 0x28 8
        else if dcBypass s1 (pa / 128) && !matchedNow s1 then .wait (awaitMatch s1)
        else .ok (dcStore s1 pa d) ()

/-- Read `n` consecutive 8-byte words with CTL loads; the first fault ends them. -/
def ctlLoadWords (s : State) (va : Word64) : Nat → MemR (List Word64)
  | 0 => .ok s []
  | n + 1 =>
    match ctlLoad s va 8 with
    | .fault s1 c d => .fault s1 c d
    | .wait s1 => .wait s1
    | .ok s1 v =>
      match ctlLoadWords s1 (va + 8) n with
      | .fault s2 c d => .fault s2 c d
      | .wait s2 => .wait s2
      | .ok s2 r => .ok s2 (w64 v :: r)

/-- The address at which the first of `n` loads of `w` bytes from va on faults, for TVAL. -/
def firstFault (s : State) (va : Word64) (w : Nat) : Nat → Word64
  | 0 => va
  | n + 1 =>
    match ctlLoad s va w with
    | .ok s1 _ => firstFault s1 (va + w64 w) w n
    | _ => va

/-! ### Instruction fetch (R243, R248, R255) -/

/-- The instruction-cache line of an address, filled from L2 on a miss; stores are never watched (R255). -/
def icLine (s : State) (line : Nat) : State × CLn :=
  match s.vc.icache.find? (fun l => l.line == line) with
  | some l => ({ s with vc.icache := l :: s.vc.icache.filter (fun x => x.line != line) }, l)
  | none =>
    let (s1, d) := homeRead s (line * 128) 128
    let mine := s1.vc.icache.filter (fun x => x.line % ctlSets s == line % ctlSets s)
    let victim := if mine.length < ctlWays s 1 line then none else mine.getLast?
    let keep := s1.vc.icache.filter (fun x => match victim with
      | some v => x.line != v.line
      | none => true)
    let l : CLn := ⟨line, d, 0, ctlFreeWay s1 1 line keep⟩
    ({ s1 with vc.icache := if ctlWays s 1 line = 0 then s1.vc.icache else l :: keep }, l)

/-- Fetch one word of the instruction stream. -/
def fetchWord (s : State) (va : Word64) : MemR Word32 :=
  if fld va 63 56 ≠ 0 then .fault s 4 0
  else if inMap va.toNat then .fault s 5 5
  else
    match translate s va.toNat .fetch with
    | .fault s1 c d => .fault s1 c d
    | .wait s1 => .wait s1
    | .ok s1 (pa, _) =>
      if poisoned s1 pa && !holds s1.vc.icache (pa / 128) then .fault s1 0x28 8
      else
        let (s2, l) := icLine s1 (pa / 128)
        .ok s2 (BitVec.ofNat 32 (leNat (cut l.data (pa % 128) 4)))

end Sys2Proof.Machine
end

