-- ==== Sys2Proof/Machine/Ops.lean ====
section
/-! DEFINITION. Taking a trap and returning from it (R369-R381), the end of a launch (R336, R375), and the wrappers that
the meanings of CTL instructions are written with. -/

namespace Sys2Proof.Machine

/-! ### Queue records and the end of a launch (R331, R336, R375) -/

/-- Word w of the record of queue q (R331). -/
def qword (s : State) (q w : Nat) : Word64 := mget 0 s.dev.queues (8 * q + w)
/-- Set word w of the record of queue q. -/
def setQword (s : State) (q w : Nat) (v : Word64) : State :=
  { s with dev.queues := mput 0 s.dev.queues (8 * q + w) v }
/-- N, the slots of a queue (R331). -/
def qslots (s : State) (q : Nat) : Nat := 2 ^ fld (qword s q 0) 63 60
def qtail (s : State) (q : Nat) : Nat := fld (qword s q 2) 31 0
def qprogress (s : State) (q : Nat) : Nat := fld (qword s q 2) 63 32
/-- The partition that runs a queue's launches (R331). -/
def qPart (s : State) (q : Nat) : Nat := fld (qword s q 3) 49 46

/-- Write the completion record of slot c of queue q, for no context (R361), then advance progress past it (R333, R336). -/
def completeSlot (s : State) (q c status cause detail : Nat) : Out :=
  let cb := fld (qword s q 1) 55 0 + 16 * (c % qslots s q)
  if s.cp < cb + 16 then .fault .noSuchAddress
  else
    let w0 := c % 2 ^ 32 * 2 ^ 32 + status * 2 ^ 24 + cause * 2 ^ 16 + detail
    let s1 := deviceWrite s cb (leBytes w0 8 ++ leBytes 0 8)
    .next (setQword s1 q 2 (w64 ((c + 1) % 2 ^ 32 * 2 ^ 32 + qtail s1 q)))

/-- The class of a fragment is one whose messages belong to a launch's virtual cores: data, reductions, window flushes (R308). -/
def launchClass (tc : Nat) : Bool := decide (tc < 2) || tc == 5

/-- How far generation a is at or above g, mod 2^16. -/
def genAbove (g a : Nat) : Nat := (a + 65536 - g) % 65536

/-- Pending checkpoint drains that are not kept are cancelled, with the entries of the drain queue and the pins that none of the others
reads (R301, R357 step 3). -/
def keepDrains (s : State) (keep : Drain → Bool) : State :=
  let left := s.part.drains.filter keep
  let needed (g : Nat) : Bool := left.any (fun d => decide (genAbove d.gen g < 32768))
  if left.length = s.part.drains.length then s
  else
    { s with
      part.drains := left, part.drainQ := s.part.drainQ.filter (fun q => needed q.2.1),
      part.blocks := s.part.blocks.map (fun p => (p.1, { p.2 with pin := p.2.pin.filter (fun x => needed x.2) })) }

/-- Discard the launch's state. After a fault: what is in flight, the CTL caches without write-back, every register, memory share, window
and darning buffer of its virtual cores, the fragments not handed to a port and its pending drains (R375, by steps 3 to 5 of R357). A
launch that has completed leaves its registers and shares as they are until the next one starts. What the scheduler had chosen is decided
anew (R338), its queue waits on no other device (R344), and no stop holds it (R404). -/
def discardLaunch (s : State) (failed : Bool) : State :=
  let mine (o : Option LaunchTag) : Bool := decide (o = launchTag s)
  let core (v : VC) : VC := if failed then v.clear else v.rest
  let s1 := if failed then keepDrains s (fun d => !mine d.owner) else s
  { s1 with vc := core s1.vc, peers := s1.peers.map core, launch := .init, part.chosen := none,
            part.waits := s1.part.waits.filter (fun q => !(s.launch.live && q == s.launch.queue)),
            part.late := [], part.asked := false, part.dstops := [],
            part.windows := s1.part.windows.filter (fun w => !mine w.owner),
            part.darns := s1.part.darns.filter (fun b => !(launchClass (listAt 0 b.key 0) && mine b.owner)),
            part.outbox := if failed then s1.part.outbox.filter (fun f => !launchClass (fld f.w0 17 14)) else s1.part.outbox }

/-- The combined flags of the virtual cores in the step and the device's own (R298). -/
def voteFlags (s : State) : Nat :=
  (s.vcs.filter (fun v => v.tx.state == 1 || v.tx.state == 2)).foldl (fun a v => a ||| fld v.tx.vote 12 0) s.part.devVote

/-- The greater loss (R127, R293). -/
def lossMax (a b : Nat) : Nat := (fpF32.minmax true a b).1

/-- The combined loss (R298). -/
def voteLoss (s : State) : Nat :=
  (s.vcs.filter (fun v => v.tx.state == 1 || v.tx.state == 2)).foldl (fun a v => lossMax a (fld v.tx.vote 63 32)) s.part.devLoss

/-- A list in ascending order of a key, equal ones as they stand: insert after the equal ones. -/
def insertBy {α : Type} (key : α → Nat) (a : α) : List α → List α
  | [] => [a]
  | b :: r => if key a < key b then a :: b :: r else b :: insertBy key a r

/-- A list in ascending order of a key. -/
def ascending {α : Type} (key : α → Nat) (l : List α) : List α := l.foldl (fun acc a => insertBy key a acc) []

/-- The opening record that a drain of generation g keeps of a virtual core, as the commit leaves its registers (R301). -/
def drainRecord (g : Nat) (v : VC) : List Byte :=
  let w0 : Nat := 131072 + (g + 1) % 65536
  leBytes w0 8 ++ leBytes v.tx.k.toNat 8 ++ leBytes (v.tx.n + w64 v.tx.adv).toNat 8
    ++ (countUp 0 4).flatMap (fun i => leBytes (mget 0 v.tx.c i).toNat 8) ++ leBytes 0 8

/-- The opening records of every virtual core of the launch, by number. -/
def drainRecords (s : State) (g : Nat) : List (List Byte) := (ascending VC.id s.vcs).map (drainRecord g)

/-- What the device keeps of an open step whose launch ends: the flags and the loss of its virtual cores, with flag 9 after a fault,
whether all had voted, and their opening records (R297, R298, R301). -/
def keepStep (s : State) (failed : Bool) : State :=
  let s1 : State := { s with
    part.devVote := if s.part.openEp.isSome ∧ failed = true then voteFlags s ||| 512 else voteFlags s, part.devLoss := voteLoss s }
  match s.part.openEp with
  | none => s1
  | some (_, g, _) =>
    if s.part.stepTag = launchTag s then
      { s1 with part.endVoted := s.vcs.all (fun v => v.tx.state == 2), part.stepRecs := drainRecords s g }
    else s1

/-- The payload of a report to the other devices of the job. DESIGN CHOICE (log 72): kind 0 a request for pre-emption at beat v, kind 1 a
barrier, of the herd or (bit 46) of the job, at beat `v div 4 mod 2^44`, with the detail of its fault in bits 1:0 or zero, kind 2 a request
put to the lead. A failure at beat 0 stands for every barrier to come. -/
def reportWord (kind v : Nat) : Nat := v % 2 ^ 48 * 65536 + 0x4000 + kind

/-- A launch on several devices that a fault ends here reaches no further herd or job barrier: the others are told so (R379). -/
def tellEnd (s : State) : State :=
  if s.launch.live && s.launch.multi && decide (s.launch.mode = .lockstep) then
    { s with part.reports := s.part.reports ++ [reportWord 1 2] }
  else s

/-- A fault that ends the launch is the trace's first of the beat when no other was raised at it (R399, R400). -/
def endCause (v : VC) (cause : Nat) : Nat := if v.raised = 0 ∧ v.faults.all (fun f => f.cause != cause) then cause else v.raised

/-- The state of a launch whose completion record is written, before it is discarded: the votes of its virtual cores in the step stay in
the device's vote, with flag 9 after a fault, which the trace and the other devices hear of (R297, R298, R379, R399). -/
def beforeEnd (s : State) (status cause : Nat) : State :=
  if status = 3 then tellEnd (keepStep { s with vc.raised := endCause s.vc cause } true) else keepStep s false

/-- The launch ends on its device with this completion status (R336, R375). -/
def endLaunch (s : State) (status cause detail : Nat) : Out :=
  match completeSlot s s.launch.queue s.launch.slot status cause detail with
  | .next s1 => .next (discardLaunch (beforeEnd s1 status cause) (decide (status ≠ 0)))
  | r => r

/-- The launch's request flag is set at this beat (R351, R382). -/
def reqSet (s : State) : Bool :=
  match s.launch.req with
  | some q => decide (q ≤ s.vc.now)
  | none => false

/-! ### The trap frame (R376) -/

/-- The stop of a Lockstep launch holds what is in flight (R378). -/
def heldAll (s : State) : Bool := decide (s.launch.mode = .lockstep) && s.launch.frozen.isSome

/-- A word is a replay entry (R377, R378): it has faulted, or the freeze holds it unfinished, an out-copy whose writes are still to
come too. -/
def Flight.replay (s : State) (f : Flight) : Bool := f.faulted || (heldAll s && (!f.ended || f.copy.isSome))

/-- A no-return atomic is a replay entry (R377, R378): it has faulted, or the freeze has found it in flight; one that a handler has issued
since is not. -/
def PendAtomic.replay (s : State) (a : PendAtomic) : Bool :=
  a.faulted || (heldAll s && (match s.launch.frozen with
    | some f => decide (a.issued ≤ f)
    | none => false))

/-- The replay queue of the virtual core in focus, oldest issue first: headers (unit, state, name) (R376). -/
def replayHeads (s : State) : List Nat :=
  (ascending (fun (p : Nat × Nat) => p.1)
    (((s.vc.eng.flights.filter (Flight.replay s)).map
        (fun f => (f.issued, qCode f.q * 2 ^ 60 + b2n f.faulted * 2 ^ 56 + f.entry.name)))
      ++ ((s.vc.atomics.filter (PendAtomic.replay s)).map
        (fun a => (a.issued, 6 * 2 ^ 60 + b2n a.faulted * 2 ^ 56 + a.name)))
      ++ ((s.vc.colls.filter (fun c => c.failed || heldAll s)).map
        (fun c => (c.issued, 6 * 2 ^ 60 + b2n c.failed * 2 ^ 56 + c.name))))).map (fun p => p.2)

/-- TSTATUS (R376). -/
def tstatus (s : State) : Word64 :=
  w64 ((replayHeads s).length * 2 ^ 16 + b2n (!s.vc.faults.isEmpty) * 2 ^ 9 + b2n s.vc.ctl.tstep * 2 ^ 8
    + b2n s.launch.frozen.isSome * 8 + b2n (decide (s.launch.mode = .elastic)) * 4 + b2n s.vc.ctl.h)

/-- The cut of a queue: entries held and the name of the head (R376). -/
def cutWord (s : State) (q : Queue) : Nat :=
  let es := (s.vc.eng.q q).entries
  es.length * 2 ^ 56 + (match es.head? with
    | some e => e.name
    | none => 0)

/-- Runs in entry, one bit an engine (R376). -/
def entryBits (s : State) : Nat :=
  let has (e : Engine) : Nat := b2n (s.vc.tbl.runs.any (fun r => !r.ended && decide (r.home = e)))
  has .ld + 2 * has .cmp + 4 * has .st

/-- The event records posted by this beat: those in the queue, and those that enter it at the end of the beat (R102; log 19). -/
def recordsPosted (s : State) : Nat :=
  s.vc.eng.events.length + (s.vc.eng.evIn.filter (fun r => decide (r.beat ≤ s.vc.now))).length

/-- Word 10 of the frame: token counts, event records, runs in entry. -/
def frameWord10 (s : State) : Nat :=
  tokCount s 0 + 16 * tokCount s 1 + 256 * tokCount s 2 + 4096 * tokCount s 3
    + recordsPosted s * 2 ^ 16 + entryBits s * 2 ^ 25

/-- The 80 words of the trap frame for fault f (R376). -/
def frameWords (s : State) (f : FaultRec) : List Nat :=
  [s.vc.ctl.tcause.toNat, s.vc.ctl.tval.toNat, f.name, f.beat % 2 ^ 48]
  ++ allQueues.map (cutWord s)
  ++ [frameWord10 s, (tstatus s).toNat, 0, 0, 0, 0]
  ++ (replayHeads s ++ List.replicate 64 0).take 64

/-- Store words one after another as plain CTL stores (R374). -/
def storeWords (s : State) (va : Word64) : List Nat → MemR Unit
  | [] => .ok s ()
  | w :: r =>
    match ctlStore s va (leBytes w 8) with
    | .ok s1 _ => storeWords s1 (va + 8) r
    | x => x

/-! ### Taking a trap (R372-R375) -/

/-- Where the frame goes: floor(x2/64)·64 − 640 (R374). -/
def frameAddr (s : State) : Word64 := w64 ((xr s 2).toNat / 64 * 64) - 640

/-- A TVEC of zero means no handler (R373). -/
def handlerPc (v : Word64) : Word64 := w64 (fld v 55 2 * 4)

/-- The detail of the completion record of a launch that a fault ends: n of a software trap, else zero (R336, R375). -/
def endDetail (cause detail : Nat) : Nat := if cause = 0x30 then detail else 0

/-- Enter the trap of fault f (R374): TCAUSE, TVAL and TSTATUS, TEPC, the frame, and the handler's address, which CTL executes from
even where it had halted. With no handler the launch ends (R375); so it does when a frame store faults. -/
def enterTrap (s : State) (f : FaultRec) : Out :=
  if s.vc.ctl.tvec = 0 then endLaunch s 3 f.cause (endDetail f.cause f.detail)
  else
    let pc := match f.tepc with
      | some p => p
      | none => s.vc.ctl.pc
    let s1 : State := { s with
      vc.faults := s.vc.faults.filter (fun g => g != f),
      vc.ctl.tcause := f.tcause, vc.ctl.tval := f.tval, vc.ctl.h := true, vc.ctl.tstep := s.vc.stepOpen,
      vc.ctl.tepc := w64 (fld pc 55 2 * 4), vc.ctl.cur := some f, vc.ctl.fenceSeq := none, vc.ctl.matched := some 0,
      vc.ctl.was := s.vc.run, vc.run := .running, vc.ctlSeen := false }
    match storeWords s1 (frameAddr s1) (frameWords s1 f) with
    | .ok s2 _ => .next { s2 with vc.ctl.pc := handlerPc s2.vc.ctl.tvec, vc.ctl.matched := none }
    | .fault s2 c _ => endLaunch s2 3 c 0
    | .wait _ => .next s

/-- Enter the trap of the fault that R372 puts first. -/
def takeTrap (s : State) : Out :=
  match nextFault s.vc.faults with
  | none => .next s
  | some f => if s.vc.ctl.h then .next s else enterTrap s f

/-- The stop has formed without looking at queue heads: in a Lockstep launch only the freeze forms it, at the end of the beat (R378);
in Elastic mode nothing may be queued, in entry or unfinished, but for what waits on another party (R377). -/
def stopFormedNow (s : State) : Bool :=
  match s.launch.mode with
  | .lockstep => false
  | .elastic =>
    allQueues.all (fun q => (s.vc.eng.q q).entries.isEmpty) && s.vc.tbl.runs.all (fun r => r.ended)
      && s.vc.eng.flights.all (fun f => f.faulted || f.chan.isSome || f.ended)

/-- A fault of the CTL instruction at pc (R115, R375, R379): in a handler, and in a Lockstep launch of several devices,
the launch ends; else the fault is recorded and its trap taken once the stop has formed (R374): in a Lockstep launch after the beat,
when every fault of the beat is known (R372). -/
def ctlFaultTo (s : State) (cause detail : Nat) (tval tepc : Word64) : Out :=
  if s.vc.ctl.h then endLaunch (countError s cause detail) 3 cause (endDetail cause detail)
  else
    let s1 := raiseAt s s.vc.id { src := 0, cause := cause, detail := detail, tval := tval, beat := s.vc.now,
                                  name := nameOfPc s.vc.ctl.pc, seq := none, tepc := some tepc }
    if s1.launch.mode = .lockstep ∧ s1.launch.multi = true then endLaunch s1 3 cause (endDetail cause detail)
    else if stopFormedNow s1 then takeTrap s1
    else .next s1

/-- A precise fault of the instruction at pc (R115). -/
def ctlFault (s : State) (cause detail : Nat) (tval : Word64) : Out := ctlFaultTo s cause detail tval s.vc.ctl.pc

/-- An illegal-instruction fault against CTL (R49). -/
def illegal (s : State) : Out := ctlFault s 0x01 0 0

/-- The causes whose TVAL is the faulting virtual address (R371). -/
def addrCause (cause : Nat) : Bool := (decide (2 ≤ cause) && decide (cause ≤ 6)) || cause == 0x1A || cause == 0x23

/-- TVAL of a CTL access: the virtual address for the causes of R371, else zero. -/
def tvalOf (cause : Nat) (va : Word64) : Word64 := if addrCause cause then va else 0

/-- Go on with an access's result, take its fault, or wait: the instruction has not retired. -/
def memThen {α : Type} (_ : State) (va : Word64) (r : MemR α) (k : State → α → Out) : Out :=
  match r with
  | .ok s1 v => k s1 v
  | .fault s1 c d => ctlFault s1 c d (tvalOf c va)
  | .wait s1 => .next s1

/-- Words that a handler may not execute end the launch (R375). -/
def restricted (s : State) (k : Out) : Out := if s.vc.ctl.h then endLaunch s 3 0x01 0 else k

/-! ### Return from a trap (R381) -/

/-- Remove the entry a fault names: the head of its queue, or its replay entry (R381). -/
def dropFaulting (v : VC) (f : FaultRec) : VC :=
  match f.seq with
  | none => v
  | some n =>
    let strip (q : QState) : QState := { q with entries := q.entries.filter (fun e => e.seq != n) }
    { v with
      atomics := v.atomics.filter (fun a => a.seq != n), colls := v.colls.filter (fun c => c.num != n),
      eng := { v.eng with
        flights := v.eng.flights.filter (fun x => x.seq != n),
        ld := strip v.eng.ld, mx := strip v.eng.mx, vx := strip v.eng.vx, fx := strip v.eng.fx,
        rx := strip v.eng.rx, st := strip v.eng.st } }

/-- Mark the word of a fault to be taken again at its first chance (R381); a word that was late, or whose stamp was
behind, is so still (R96). -/
def retryFaulting (v : VC) (f : FaultRec) : VC :=
  match (if f.cause = 0x14 ∧ f.detail ≠ 2 then none else f.seq) with
  | none => v
  | some n =>
    let mark (q : QState) : QState :=
      { q with entries := q.entries.map (fun e => if e.seq = n then { e with retry := true } else e) }
    { v with eng := { v.eng with
        ld := mark v.eng.ld, mx := mark v.eng.mx, vx := mark v.eng.vx, fx := mark v.eng.fx,
        rx := mark v.eng.rx, st := mark v.eng.st } }

/-- The replay entry that a fault names resumes from its progress (R381); those whose fault is still pending stay (R372). A
collective that has failed is over with its report: nothing of it is still to come (R311, R325; log 78). -/
def resumeEntry (v : VC) (f : FaultRec) : VC :=
  match f.seq with
  | none => v
  | some n =>
    { v with
      eng.flights := v.eng.flights.map (fun x => if x.seq = n then { x with faulted := false } else x),
      atomics := v.atomics.map (fun a => if a.seq = n then { a with faulted := false } else a),
      colls := v.colls.filter (fun c => !(c.num == n && c.failed)) }

/-- Discard the whole replay queue (R381). -/
def dropReplay (s : State) (v : VC) : VC :=
  { v with eng.flights := v.eng.flights.filter (fun f => !Flight.replay s f),
           atomics := v.atomics.filter (fun a => !PendAtomic.replay s a),
           colls := v.colls.filter (fun c => !(c.failed || heldAll s)) }

/-- No virtual core of the launch is in a handler or has a fault to report. -/
def allReturned (s : State) : Bool := s.vcs.all (fun v => !v.ctl.h && v.faults.isEmpty)

/-- The effect of tret in a handler (R381). A frozen launch goes on once its last handler has returned (thaw). -/
def trapReturn (s : State) : State :=
  let skip := s.vc.ctl.tepc.getLsbD 1
  let drop := s.vc.ctl.tepc.getLsbD 0
  let v0 := s.vc
  let v1 := match v0.ctl.cur with
    | some f => if skip then dropFaulting v0 f else retryFaulting v0 f
    | none => v0
  let v2 := if drop then dropReplay s v1 else v1
  let v3 := match v0.ctl.cur with
    | some f => resumeEntry v2 f
    | none => v2
  let v4 : VC := { v3 with ctl.h := false, ctl.cur := none, run := v0.ctl.was }
  retireTo { s with vc := v4 } (handlerPc s.vc.ctl.tepc)

end Sys2Proof.Machine
end

