-- ==== Sys2Proof/Machine/System.lean ====
section
/-! DEFINITION. System words of major 0x22 and moves of major 0x2A (05_control R134-R138; acquire and release 13_ordering R265-R269, R278). -/

namespace Sys2Proof.Machine

/-- A system word that only goes on. -/
def sysNext (s : State) : Out := .next (retire (charge s .sys))

/-- trap n: the software-trap cause with n as detail; TEPC takes A + 4 (R116, R134, R374). DESIGN CHOICE (log 37): it does not count
in INSTRET. -/
def execTrap (n : BitVec 6) (s : State) : Out := ctlFaultTo (charge s .sys) 0x30 n.toNat 0 (s.vc.ctl.pc + 4)

/-- tret: return from the handler; outside one an illegal-instruction fault (R134, R381). -/
def execTret (s : State) : Out := if s.vc.ctl.h then .next (trapReturn (charge s .sys)) else illegal s

/-- halt: CTL fetches nothing more; in an open step it vetoes with flag 11 (R135, R297). -/
def execHalt (s : State) : Out :=
  .next (retire { charge s .sys with
    vc := { (if s.vc.stepOpen then s.vc.voteFlag 11 else s.vc) with run := .halted } })

/-- Earlier CTL accesses that are still to be performed: no-return atomics and map writes (R136). -/
def ctlPending (s : State) : Bool :=
  !s.vc.atomics.isEmpty || s.launch.maps.any (fun a => a.src == s.vc.id && a.seqS.isNone)

/-- fence: wait until every earlier CTL access is performed, write the dirty lines back, go on (R136). What it writes back leaves CTL once
the Collie has matched the stores (R390). -/
def execFence (s : State) : Out := if ctlPending s || !settled s then .next s else sysNext (flushFifo s)

/-- ifb: discard the instruction-cache lines and what is fetched (R278). -/
def execIfb (s : State) : Out := sysNext { s with vc.icache := [] }

/-- Every word placed in queue q before sequence number n has completed (R134, R271). -/
def queueClear (s : State) (q : Queue) (n : Nat) : Bool :=
  (s.vc.eng.q q).entries.all (fun e => decide (n ≤ e.seq))
    && s.vc.eng.flights.all (fun f => f.ended || decide (n ≤ f.seq)
      || !(f.q == q || (f.entry.shared && columns.contains q)))

/-- The queues a fence mask names (R44). -/
def maskQueues (m : BitVec 7) : List Queue :=
  (if m.getLsbD 0 then [Queue.ld] else []) ++ (if m.getLsbD 1 then [.mx] else []) ++ (if m.getLsbD 2 then [.vx] else [])
    ++ (if m.getLsbD 3 then [.fx] else []) ++ (if m.getLsbD 4 then [.rx] else []) ++ (if m.getLsbD 5 then [.st] else [])

/-- A copy in flight that writes memory: out-copies, scatters, stashes and cpy.xc (R228). -/
def Flight.writesOut (f : Flight) : Bool :=
  match f.copy, f.work with
  | some j, _ => decide (4 ≤ j.op)
  | none, .image i => decide (4 ≤ i.op)
  | none, _ => false

/-- The copies in flight that have memory writes to perform, by sequence number. -/
def copySeqs (v : VC) : List Nat := (v.eng.flights.filter Flight.writesOut).map (fun f => f.seq)

/-- A fence's condition: the named queues' earlier words are complete, and for cpy the copies issued before it have
performed their memory writes (R134, R271). -/
def fenceHolds (s : State) (m : BitVec 7) (n : Nat) (copies : List Nat) : Bool :=
  (maskQueues m).all (fun q => queueClear s q n)
    && (!m.getLsbD 6 || s.vc.eng.flights.all (fun f => !copies.contains f.seq))

/-- qfence: CTL waits for the words placed, and the copies issued, before it starts (R134). -/
def execQfence (m : BitVec 7) (s : State) : Out :=
  let (n, cs) := match s.vc.ctl.fenceSeq with
    | some p => p
    | none => (s.vc.eng.nextSeq, copySeqs s.vc)
  if fenceHolds s m n cs then sysNext { s with vc.ctl.fenceSeq := none }
  else .next { s with vc.ctl.fenceSeq := some (n, cs) }

/-! ### Acquire and release -/

/-- The checks of acq and rel on the sync object's address (R265): done, or a fault. -/
def syncCheck (s : State) (a : Word64) : MemR (Nat × TlbE) :=
  match addrCheck a 8 with
  | some (c, d) => .fault s c d
  | none =>
    if inMap a.toNat then .fault s 6 3
    else
      match translate s a.toNat .read with
      | .ok s1 (pa, e) => if e.vb then .fault s1 0x23 0 else .ok s1 (pa, e)
      | r => r

/-- The regions bound to the sync object at a (R258). -/
def boundTo (s : State) (a : Nat) : List Bind := s.launch.binds.filter (fun b => b.sync == a)

/-- The partition-physical lines of a region, as ranges [first, last), page by page of 64 KiB; the translations are taken as a load
takes them, and a page with no readable one gives no line (R267). -/
def regionLines (s : State) (b : Bind) : State × List (Nat × Nat) :=
  (countUp 0 (b.rsize / 65536 + 2)).foldl (fun (x : State × List (Nat × Nat)) i =>
    let va := b.rbase / 65536 * 65536 + 65536 * i
    if b.rbase + b.rsize ≤ va then x
    else
      match translate x.1 va .read with
      | .ok t (pa, _) =>
        let page := pa / 128
        let first := (if va < b.rbase then b.rbase - va else 0) / 128
        let last := (if b.rbase + b.rsize < va + 65536 then b.rbase + b.rsize - va else 65536) / 128
        (t, (page + first, page + last) :: x.2)
      | .fault t _ _ => (t, x.2)
      | .wait t => (t, x.2)) (s, [])

/-- The lines of every region bound to the sync object at a (R267). -/
def acqRegions (s : State) (a : Nat) : State × List (Nat × Nat) :=
  (boundTo s a).foldl (fun (x : State × List (Nat × Nat)) b =>
    let (t, l) := regionLines x.1 b
    (t, x.2 ++ l)) (s, [])

/-- Discard every data-cache line that meets a bound region, writing dirty ones back first (R267). -/
def acqDiscard (s : State) (a : Nat) : State :=
  let (s1, rs) := acqRegions s a
  (s1.vc.dcache.filter (fun l => rs.any (fun r => decide (r.1 ≤ l.line) && decide (l.line < r.2)))).foldl
    (fun t l => dropLine t l.line) s1

/-- acq.S: the four scopes up to device, and launch, act in one way (R265, R267, R268), once the Collie has matched it (R390). -/
def acqOp (s : State) (ra : BitVec 6) : Out :=
  let a := xr s ra
  memThen s a (syncCheck s a) (fun s1 p =>
    if granuleBusy s1 p.1 then .next s1
    else if poisoned s1 p.1 then ctlFault s1 0x28 8 0
    else if !matchedNow s1 then .next (awaitMatch s1)
    else sysNext (acqDiscard (homeRead s1 p.1 8).1 a.toNat))

/-- The memory span of a copy: its lowest byte and one past its highest (R238). -/
def copySpan (ls : List CLine) : Int × Int :=
  match ls with
  | [] => (0, 0)
  | l :: r => r.foldl (fun (x : Int × Int) k =>
      (if k.va < x.1 then k.va else x.1, if x.2 < k.va + k.len then k.va + k.len else x.2)) (l.va, l.va + l.len)

/-- Copies that a rel of the sync object at a waits for (R265, R266): issued out-copies and stashes whose memory span meets a bound
region, until their last write, and every issued cpy.xc until it has landed; none when no binding names a. -/
def relCopies (s : State) (a : Nat) : Bool :=
  !(boundTo s a).isEmpty && s.vc.eng.flights.any (fun f => match f.copy with
    | none => f.writesOut
    | some c => c.op == 7 || (decide (4 ≤ c.op) && (boundTo s a).any (fun b =>
        decide ((b.rbase : Int) < (copySpan c.lines).2) && decide ((copySpan c.lines).1 < ((b.rbase + b.rsize : Nat) : Int)))))

/-- rel.S for the scopes core to device (R266, R268), once the Collie has matched it (R390): write back the dirty lines, then wait for
CTL's accesses and the copies that meet the bound regions, then go on. -/
def relOp (s : State) (ra : BitVec 6) : Out :=
  let a := xr s ra
  memThen s a (syncCheck s a) (fun s1 _ =>
    if !matchedNow s1 then .next (awaitMatch s1)
    else
      let s2 := flushFifo s1
      if ctlPending s2 || relCopies s2 a.toNat then .next s2 else sysNext s2)

/-- acq.core (R265, R267). -/
def execAcqCore (ra : BitVec 6) (s : State) : Out := acqOp s ra

/-- acq.cluster (R265, R267). -/
def execAcqCluster (ra : BitVec 6) (s : State) : Out := acqOp s ra

/-- acq.die (R265, R267). -/
def execAcqDie (ra : BitVec 6) (s : State) : Out := acqOp s ra

/-- acq.device (R265, R267). -/
def execAcqDevice (ra : BitVec 6) (s : State) : Out := acqOp s ra

/-- acq.launch (R265, R267). -/
def execAcqLaunch (ra : BitVec 6) (s : State) : Out := acqOp s ra

/-- rel.core (R265, R266). -/
def execRelCore (ra : BitVec 6) (s : State) : Out := relOp s ra

/-- rel.cluster (R265, R266). -/
def execRelCluster (ra : BitVec 6) (s : State) : Out := relOp s ra

/-- rel.die (R265, R266). -/
def execRelDie (ra : BitVec 6) (s : State) : Out := relOp s ra

/-- rel.device (R265, R266). -/
def execRelDevice (ra : BitVec 6) (s : State) : Out := relOp s ra

/-! ### Moves (R137, R138) -/

/-- ywr: yd := xa at this beat; an engine write that falls on the same y at this beat loses, and so does a map write that lands on it
at this beat (`ywrote`, R137, R138, R169). -/
def execYwr (y : BitVec 4) (ra : BitVec 6) (s : State) : Out :=
  let s1 := setY (charge s .sys) y.toNat (xr s ra)
  .next (retire { s1 with
    vc.ywrote := y.toNat :: s1.vc.ywrote,
    vc.eng.flights := s1.vc.eng.flights.map (fun f =>
      match f.y with
      | some (n, _) => if n = y.toNat ∧ f.done = some s.vc.now then { f with y := none } else f
      | none => f) })

/-- yrd: xd := ya (R137). -/
def execYrd (rd : BitVec 6) (y : BitVec 4) (s : State) : Out :=
  .next (retire (setX (charge s .sys) rd (yr s y.toNat)))

/-- mbrd: xd := ma (R137). -/
def execMbrd (rd : BitVec 6) (m : BitVec 3) (s : State) : Out :=
  .next (retire (setX (charge s .sys) rd (mr s m.toNat)))

end Sys2Proof.Machine
end

