-- ==== Sys2Proof/Machine/Streams.lean ====
section
/-! DEFINITION. Stream registers: major 0x26 (03_streams_formats R60-R68). -/

namespace Sys2Proof.Machine

/-- The version number of the newest descriptor of z. -/
def VC.zverOf (v : VC) (z : Nat) : Nat := mget 0 v.zver z

/-- The versions of z that entries, words not yet complete and runs hold (R67). -/
def VC.zInUse (v : VC) (z : Nat) : List Nat :=
  let ofL (l : List ZVer) : List Nat := (l.filter (fun p => p.1 == z)).map (fun p => p.2)
  ((allQueues.flatMap (fun q => (v.eng.q q).entries.flatMap (fun e => ofL e.zv)))
    ++ (v.eng.flights.filter (fun f => !f.ended)).flatMap (fun f => ofL f.entry.zv) ++ v.tbl.runs.flatMap (fun r => ofL r.zv)).eraseDups

/-- A new version of z would be a fifth beside the four in use (R67). -/
def VC.zFull (v : VC) (z : Nat) : Bool := decide (4 ≤ (v.zInUse z).length)

/-- Write word k of z as a new newest version (R64, R67); a run in progress notes that CTL wrote its base or scale
(R68). -/
def VC.zset (v : VC) (z k : Nat) (w : Word64) : VC :=
  { v with
    z := mput 0 v.z (8 * z + k) w,
    zver := mput 0 v.zver z (v.zverOf z + 1),
    tbl.runs := v.tbl.runs.map (fun r =>
      { r with ctlBase := if k = 0 then z :: r.ctlBase else r.ctlBase,
               ctlScale := if k = 4 then z :: r.ctlScale else r.ctlScale }) }

/-- zset of word k: a format fault for a rejected value; a wait while a fifth version would be needed (R64, R67). -/
def zsetOp (s : State) (k : Nat) (z : BitVec 4) (ra : BitVec 6) : Out :=
  restricted s <|
    if !zsetOk k (xr s ra) then ctlFault s 0x08 0 0
    else if s.vc.zFull z.toNat then .next s
    else sysNext { s with vc := s.vc.zset z.toNat k (xr s ra) }

/-- zset.base: word 0 of zd (R64). -/
def execZsetBase (z : BitVec 4) (ra : BitVec 6) (s : State) : Out := zsetOp s 0 z ra

/-- zset.stride: word 1 of zd (R64). -/
def execZsetStride (z : BitVec 4) (ra : BitVec 6) (s : State) : Out := zsetOp s 1 z ra

/-- zset.count: word 2 of zd (R64). -/
def execZsetCount (z : BitVec 4) (ra : BitVec 6) (s : State) : Out := zsetOp s 2 z ra

/-- zset.fmt: word 3 of zd (R64). -/
def execZsetFmt (z : BitVec 4) (ra : BitVec 6) (s : State) : Out := zsetOp s 3 z ra

/-- zset.scale: word 4 of zd (R64). -/
def execZsetScale (z : BitVec 4) (ra : BitVec 6) (s : State) : Out := zsetOp s 4 z ra

/-- zset.ring: word 5 of zd (R64). -/
def execZsetRing (z : BitVec 4) (ra : BitVec 6) (s : State) : Out := zsetOp s 5 z ra

/-- zset.adv: word 6 of zd (R64). -/
def execZsetAdv (z : BitVec 4) (ra : BitVec 6) (s : State) : Out := zsetOp s 6 z ra

/-- zget: word k of the newest version of za (R65). -/
def execZget (rd : BitVec 6) (z : BitVec 4) (k : BitVec 3) (s : State) : Out :=
  restricted s <| .next (retire (setX (charge s .sys) rd (s.vc.zword z.toNat k.toNat)))

end Sys2Proof.Machine
end

