-- ==== Sys2Proof/Machine/Tables.lean ====
section
/-! DEFINITION. The control store, its directory and table runs: major 0x25 and table entry (06_tables R139-R149; PARAM, R37). -/

namespace Sys2Proof.Machine

/-- Directory entry n; unloaded by default (R139). -/
def dirZero : DirEntry := ⟨0, 0, 0, false⟩
def dirOf (s : State) (n : Nat) : DirEntry := mget dirZero s.vc.tbl.dir n
def setDir (v : VC) (n : Nat) (d : DirEntry) : VC := { v with tbl.dir := mput dirZero v.tbl.dir n d }

/-- A table fault (R142-R145). -/
def tableFault (s : State) (detail : Nat) : Out := ctlFault s 0x1E detail 0
/-- A table-busy fault. -/
def tableBusy (s : State) : Out := ctlFault s 0x1F 0 0

/-- Words [a, a + n) overlap the words of a running table (R142). -/
def overlapsRunning (s : State) (a n : Nat) : Bool :=
  s.vc.tbl.dir.any (fun p => p.2.running && decide (a < p.2.offset + p.2.length) && decide (p.2.offset < a + n))

/-- Read `n` words of a table; the data cache sees them as 4-byte loads (R142). -/
def loadTable (s : State) (va : Word64) (n : Nat) : MemR (List Nat) :=
  match n with
  | 0 => .ok s []
  | n + 1 =>
    match ctlLoad s va 4 with
    | .fault s1 c d => .fault s1 c d
    | .wait s1 => .wait s1
    | .ok s1 v =>
      match loadTable s1 (va + 4) n with
      | .fault s2 c d => .fault s2 c d
      | .wait s2 => .wait s2
      | .ok s2 r => .ok s2 (v :: r)

/-- tbl.load n, xa, xb (R142). A fault of an address check leaves entry n unloaded and the store unchanged. -/
def execTblLoad (n ra rb : BitVec 6) (s : State) : Out :=
  restricted s <|
    let b := xr s rb
    let home := fld b 31 30
    let len := fld b 28 16
    let off := fld b 11 0
    if fld b 63 32 ≠ 0 ∨ home = 3 ∨ fld b 29 29 ≠ 0 ∨ fld b 15 12 ≠ 0 then tableFault s 3
    else if len = 0 ∨ s.storeWords < off + len then tableFault s 1
    else if (dirOf s n.toNat).running || overlapsRunning s off len then tableBusy s
    else
      match loadTable s (xr s ra) len with
      | .wait s1 => .next s1
      | .fault s1 c d =>
        ctlFault { s1 with vc := setDir s1.vc n.toNat dirZero } c d (tvalOf c (firstFault s (xr s ra) 4 len))
      | .ok s1 ws =>
        let s2 := charge (charge s1 .sys) .ld len
        let v := { s2.vc with tbl.store := mputs 0 s2.vc.tbl.store off (ws.map (fun w => BitVec.ofNat 32 w)) }
        .next (retire { s2 with vc := setDir v n.toNat ⟨off, len, home, false⟩ })

/-- The run of an engine whose entry has not ended (R145, R146). -/
def activeRun (s : State) (e : Engine) : Option TRun :=
  s.vc.tbl.runs.find? (fun r => !r.ended && decide (r.home = e))

/-- The newest version of every stream (R67). -/
def zvAll (v : VC) : List ZVer := (countUp 0 16).map (fun z => (z, v.zverOf z))

/-- tbl.run n, xa (R145): the checks, the wait for the engine's earlier run, then the run's copies are taken, the entry
is marked running and entry starts at the next beat. -/
def execTblRun (n ra : BitVec 6) (s : State) : Out :=
  restricted s <|
    let d := dirOf s n.toNat
    if fld (xr s ra) 63 32 ≠ 0 then tableFault s 3
    else if d.length = 0 then tableFault s 2
    else
      match activeRun s (engOfCode d.home) with
      | some r => if r.count = 0 then tableBusy s else .next s
      | none =>
        let run : TRun :=
          { id := s.vc.tbl.nextRun, table := n.toNat, home := engOfCode d.home, count := fld (xr s ra) 31 0, iter := 0,
            word := 0, start := s.vc.now + 1, slots := s.vc.tbl.slots, zs := s.vc.z, zv := zvAll s.vc, ctlBase := [],
            ctlScale := [], stop := false, ended := false, pc := s.vc.ctl.pc, lastDone := 0 }
        let v := { s.vc with tbl.runs := s.vc.tbl.runs ++ [run], tbl.nextRun := s.vc.tbl.nextRun + 1,
                             tbl.latest := mput 0 s.vc.tbl.latest n.toNat (s.vc.tbl.nextRun + 1) }
        sysNext { s with vc := setDir v n.toNat { d with running := true } }

/-- tbl.stop n: the active run of n ends with its current iteration; no effect on an idle entry (R146). -/
def execTblStop (n : BitVec 6) (s : State) : Out :=
  restricted s <|
    sysNext { s with vc.tbl.runs := s.vc.tbl.runs.map (fun r =>
      if r.table = n.toNat ∧ r.ended = false then { r with stop := true } else r) }

/-- tbl.rebase n, xa (R143). -/
def execTblRebase (n ra : BitVec 6) (s : State) : Out :=
  restricted s <|
    let d := dirOf s n.toNat
    let a := xr s ra
    if fld a 63 12 ≠ 0 then tableFault s 3
    else if d.length = 0 then tableFault s 2
    else if d.running then tableBusy s
    else if s.storeWords < a.toNat + d.length then tableFault s 1
    else sysNext { s with vc := setDir s.vc n.toNat { d with offset := a.toNat } }

/-- tbl.param k, xa: slot Pk := xa; bits 63:32 have to be zero (R144). -/
def execTblParam (k : BitVec 2) (ra : BitVec 6) (s : State) : Out :=
  restricted s <|
    if fld (xr s ra) 63 32 ≠ 0 then tableFault s 3
    else sysNext { s with vc.tbl.slots := mput 0 s.vc.tbl.slots k.toNat (xr s ra) }

/-- tbl.wait n: wait until the latest run of n is finished (R147). -/
def execTblWait (n : BitVec 6) (s : State) : Out :=
  restricted s <|
    if s.vc.tbl.runs.any (fun r => r.id + 1 == mget 0 s.vc.tbl.latest n.toNat) then .next s else sysNext s

/-! ### Entry (R140, R144-R146) -/

/-- What slot k supplies in iteration i: (val + i·inc) mod 2^16 (R144). -/
def slotValue (slots : SMap Word64) (k i : Nat) : Nat :=
  let p := mget 0 slots k
  pat 16 ((fld p 15 0 : Int) + (i : Int) * signed 16 (fld p 31 16))

/-- Replace field [lo, lo + w) of a word by the low bits of v. -/
def putField (x : Word32) (lo w v : Nat) : Word32 :=
  BitVec.ofNat 32 (x.toNat - bits x.toNat (lo + w - 1) lo * 2 ^ lo + v % 2 ^ w * 2 ^ lo)

/-- The places of F0, F1 and F2 in a word of this major: (low bit, width) (R37). -/
def paramField (major i : Nat) : Option (Nat × Nat) :=
  if major = 0x34 then (match i with | 0 => some (0, 4) | 1 => some (4, 4) | _ => some (8, 8))
  else if major = 0x35 then (match i with | 0 => some (0, 4) | 1 => none | _ => some (4, 8))
  else (match i with | 0 => some (0, 4) | 1 => some (4, 4) | _ => some (8, 4))

/-- Apply the fields of a PARAM payload one by one; none when a rule of R37 fails. -/
def applyParam (p : BitVec 24) (slots : SMap Word64) (iter : Nat) (w : Word32) : Option Word32 :=
  let en (i : Nat) : Bool := p.getLsbD i
  let sl (i : Nat) : Nat := (p.extractLsb' (4 + 2 * i) 2).toNat
  let bad := p.extractLsb' 0 3 == 0 || p.extractLsb' 10 14 != 0 || p.getLsbD 3
    || (countUp 0 3).any (fun i => !en i && sl i != 0)
  if bad then none
  else
    (countUp 0 3).foldl (fun (acc : Option Word32) i =>
      match acc with
      | none => none
      | some x =>
        if !en i then some x
        else
          match paramField (majorOf w).toNat i with
          | none => none
          | some (lo, wd) =>
            if bits w.toNat (lo + wd - 1) lo ≠ 0 then none else some (putField x lo wd (slotValue slots (sl i) iter))) (some w)

/-- The micro-order at the head of a list of table words: prefixes, word when there is one, words taken, and whether its
prefixes are arranged as R39 allows. An IMM prefix stands for a word of its own (R49, R140). -/
def takeMicro (p : Prefixes) (ok : Bool) : List Word32 → Prefixes × Option Word32 × Nat × Bool
  | [] => (p, none, 0, ok)
  | w :: r =>
    if isExt w then
      match p.add w with
      | some p1 =>
        if p1.imm.isSome then (p, some w, 1, ok)
        else
          let (q, x, n, k) := takeMicro p1 ok r
          (q, x, n + 1, k)
      | none =>
        let (q, x, n, _) := takeMicro p false r
        (q, x, n + 1, false)
    else (p, some w, 1, ok)

/-- How many prefixes stand before a word. -/
def prefixCount (p : Prefixes) : Nat :=
  b2n p.imm.isSome + b2n p.stamp.isSome + b2n p.param.isSome + b2n p.metaP.isSome

/-- The streams that an engine word names, by number (R31, R47, R67). -/
def zNamed (w : Word32) : List Nat :=
  let d := (ed w).toNat
  let a := (ea w).toNat
  let b := (eb w).toNat
  let mn := (emin w).toNat
  match (majorOf w).toNat with
  | 0x30 => if mn = 2 then [a] else []
  | 0x31 => if mn = 0 then [a] else if mn = 1 then [a, b] else []
  | 0x32 => if mn = 0 then [d] else []
  | 0x35 => if mn = 0 ∨ mn = 2 ∨ mn = 3 ∨ mn = 5 then [b] else []
  | 0x36 => if mn ≤ 5 then [d, a, b] else [d, a]
  | 0x37 => if mn ≤ 7 ∨ (12 ≤ mn ∧ mn ≤ 14) then [d, a, b] else [d, a]
  | 0x38 =>
    if mn ≤ 1 ∨ mn = 6 then [d, a]
    else if mn = 3 ∨ mn = 4 then [d, a, b]
    else if mn = 7 then [d, d + 1, d + 2, a]
    else [d]
  | 0x39 => [d, a]
  | 0x3A => if mn = 4 ∨ mn = 5 then [d, a] else if mn = 6 then [a, b] else [a]
  | 0x3C => if mn = 1 then [a] else []
  | 0x3D => if mn = 0 then [a] else []
  | _ => []

/-- Put an entry into its queue, or into the four columns when it is shared. -/
def placeEntry (v : VC) (q : Queue) (e : QEntry) : VC :=
  let put (en : Eng) (u : Queue) : Eng := en.setQ u { en.q u with entries := (en.q u).entries ++ [e] }
  let en := if e.shared then columns.foldl put v.eng else put v.eng q
  { v with eng := { en with nextSeq := v.eng.nextSeq + 1 } }

/-- The destination queues have room (R86). -/
def hasRoom (v : VC) (q : Queue) (shared : Bool) : Bool :=
  if shared then columns.all (fun u => decide ((v.eng.q u).entries.length < qCap u))
  else decide ((v.eng.q q).entries.length < qCap q)

/-- Word k of stream z in a table of descriptors. -/
def zOf (zs : SMap Word64) (z k : Nat) : Word64 := mget 0 zs (8 * z + k)

/-- The run's copy of each stream at the next iteration (R68). -/
def advanceStreams (zs : SMap Word64) : SMap Word64 :=
  (countUp 0 16).foldl (fun m z =>
    let adv := zOf zs z 6
    let base := pat 22 ((fld (zOf zs z 0) 21 0 : Int) + signed 32 (fld adv 31 0))
    let sc := zOf zs z 4
    let sbase := pat 22 ((fld sc 21 0 : Int) + signed 32 (fld adv 63 32))
    mput 0 (mput 0 m (8 * z) (w64 base)) (8 * z + 4) (w64 (sc.toNat - fld sc 21 0 + sbase))) zs

/-- Write the advanced base and sbase back as new newest versions, but where CTL wrote since (R68). DESIGN CHOICE (log 60): the
write-back does not wait where the new version is a fifth; R67 gives a wait to zset only. -/
def writeBackStreams (v : VC) (r : TRun) (zs : SMap Word64) : VC :=
  (countUp 0 16).foldl (fun (u : VC) z =>
    let adv := zOf zs z 6
    let u1 := if fld adv 31 0 ≠ 0 ∧ r.ctlBase.contains z = false then
        { u with z := mput 0 u.z (8 * z) (zOf zs z 0), zver := mput 0 u.zver z (u.zverOf z + 1) }
      else u
    if fld adv 63 32 ≠ 0 ∧ r.ctlScale.contains z = false then
      let sc := u1.zword z 4
      { u1 with z := mput 0 u1.z (8 * z + 4) (w64 (sc.toNat - fld sc 21 0 + fld (zOf zs z 4) 21 0)),
                zver := mput 0 u1.zver z (u1.zverOf z + 1) }
    else u1) v

/-- The end of an iteration or of entry after the last word of an iteration is placed (R145, R146). -/
def endIteration (v : VC) (r : TRun) : VC :=
  let zs := advanceStreams r.zs
  if r.stop ∨ (r.count ≠ 0 ∧ r.iter + 1 = r.count) then
    let r1 := { r with word := 0, iter := r.iter + 1, zs := zs, ended := true }
    let d := mget dirZero v.tbl.dir r.table
    let v1 := setDir { v with tbl.runs := v.tbl.runs.map (fun x => if x.id = r.id then r1 else x) } r.table
      { d with running := false }
    writeBackStreams v1 r zs
  else
    { v with tbl.runs := v.tbl.runs.map (fun x =>
        if x.id = r.id then { r with word := 0, iter := r.iter + 1, zs := zs } else x) }

/-- A micro-order of the run has faulted, and its fault is pending (R149). DEDUCED (log 34): the fault's name tells the table and not
the run, so one of an earlier run of the table pauses entry too. -/
def entryPaused (v : VC) (r : TRun) : Bool := v.faults.any (fun f => f.name / 2 ^ 48 == 128 + r.table)

/-- Entry of an engine's run may place at this beat: it has started, no fault of a micro-order of its own pauses it, no
handler runs (R149), the launch is not frozen. -/
def entryReady (s : State) (r : TRun) : Bool :=
  decide (r.start ≤ s.vc.now) && !entryPaused s.vc r && !s.vc.ctl.h
    && (match s.launch.frozen with
        | none => true
        | some f => decide (s.vc.now ≤ f))

/-- TABLE_ENTRY_PLACE: the next micro-order of the engine's run enters its queue, PARAM applied; a word that R140 names
enters as a faulting entry; entry waits for room (R145). DEDUCED (log 61): the word offset of its name (R149) counts from the
table's first word. -/
def placeMicro (s : State) (r : TRun) : State :=
  let d := dirOf s r.table
  let ws := mgets 0 s.vc.tbl.store (d.offset + r.word) (d.length - r.word)
  let (p, x, n, ok) := takeMicro Prefixes.empty true ws
  let raw := match x with
    | some w => w
    | none => listAt 0 ws (n - 1)
  let mj := (majorOf raw).toNat
  let legalHome := match engineOfMajor mj with
    | some e => decide (e = r.home)
    | none => false
  let w1 := match p.param with
    | none => some raw
    | some pl => applyParam pl r.slots r.iter raw
  let arranged := ok && decide (prefixCount p ≤ 2) && p.imm.isNone && (p.stamp.isNone || edelay raw == 0)
    && (match p.metaP with
        | none => true
        | some m => metaLegal raw m)
  let bad := x.isNone || !legalHome || !arranged || w1.isNone
  let word := match w1 with
    | some w => w
    | none => raw
  let shared := decide (r.home = .cmp) && (!legalHome || x.isNone || mj == 0x3B)
  let q := match r.home with
    | .ld => Queue.ld
    | .st => .st
    | .cmp => match queueOfMajor mj with
      | some u => if legalHome then u else .mx
      | none => .mx
  if !hasRoom s.vc q shared then s
  else
    let e : QEntry :=
      { seq := s.vc.eng.nextSeq, word := word, stamp := p.stamp, metaP := p.metaP,
        name := nameOfTable r.table r.iter r.word, zs := r.zs,
        zv := (zNamed word).filterMap (fun z => r.zv.find? (fun a => a.1 == z)), placed := s.vc.now, ready := s.vc.now,
        bad := bad, shared := shared, run := some r.id, retry := false, counted := false, stood := none, reached := false, follow := none }
    let v := placeEntry s.vc q e
    let r1 := { r with word := r.word + n }
    let v1 := { v with tbl.runs := v.tbl.runs.map (fun x => if x.id = r.id then r1 else x) }
    { s with vc := if d.length ≤ r1.word then endIteration v1 r1 else v1 }

/-- TABLE_ENTRY_PLACE: the next micro-order of the engine's run enters its queue (R145). -/
def execTableEntryPlace (home : Engine) (s : State) : Out :=
  match activeRun s home with
  | none => .next s
  | some r => if entryReady s r then .next (placeMicro s r) else .next s

/-! ### Routing an engine word (R86, R88, R146) -/

/-- Fetch the words of the instruction at pc: its prefixes and word; a fetch fault is reported at the instruction's
address (R40). -/
def fetchWords (s : State) (pc : Word64) : Nat → MemR (List Word32)
  | 0 => .ok s []
  | n + 1 =>
    match fetchWord s pc with
    | .fault s1 c d => .fault s1 c d
    | .wait s1 => .wait s1
    | .ok s1 w =>
      if isExt w then
        match fetchWords s1 (pc + 4) n with
        | .fault s2 c d => .fault s2 c d
        | .wait s2 => .wait s2
        | .ok s2 r => .ok s2 (w :: r)
      else .ok s1 [w]

/-- An entry for a word that CTL routes: it takes the newest versions of its streams, and can reach its head three beats
later, when the Collie has matched it (R67, R390). -/
def routedEntry (s : State) (p : Prefixes) (w : Word32) : QEntry :=
  { seq := s.vc.eng.nextSeq, word := w, stamp := p.stamp, metaP := p.metaP, name := nameOfPc s.vc.ctl.pc, zs := s.vc.z,
    zv := (zNamed w).map (fun z => (z, s.vc.zverOf z)), placed := s.vc.now, ready := s.vc.now + 3, bad := false,
    shared := (majorOf w).toNat == 0x3B, run := none, retry := false, counted := false, stood := none, reached := false, follow := none }

/-- Place an engine word of the stream (R86): a run in entry on its engine, and a full queue, make CTL wait. -/
def routeWord (s : State) (p : Prefixes) (w : Word32) (n : Nat) : Out :=
  match engineOfMajor (majorOf w).toNat with
  | none => illegal s
  | some e =>
    if !prefixLegal p w then illegal s
    else
      match activeRun s e with
      | some r => if r.count = 0 then tableBusy s else .next s
      | none =>
        let shared := (majorOf w).toNat == 0x3B
        let q := match queueOfMajor (majorOf w).toNat with
          | some u => u
          | none => .mx
        if !hasRoom s.vc q shared then .next s
        else
          .next (retireTo { s with vc := placeEntry s.vc q (routedEntry s p w) } (s.vc.ctl.pc + w64 (4 * n)))

/-- ENGINE_WORD_ROUTE: the engine word at pc, with its prefixes, enters its queue (R86). -/
def execEngineWordRoute (s : State) : Out :=
  restricted s <|
    match fetchWords s s.vc.ctl.pc 3 with
    | .wait s1 => .next s1
    | .fault s1 c d => ctlFault s1 c d (tvalOf c s.vc.ctl.pc)
    | .ok s1 ws =>
      match splitWords ws with
      | .error _ => illegal s1
      | .ok (p, w, n) => routeWord s1 p w n

end Sys2Proof.Machine
end

