-- ==== Sys2Proof/Machine/Operands.lean ====
section
/-! DEFINITION. Operand forms of engine words: streams, where their elements lie, what they hold, and the checks that
bear on them (03_streams_formats R60-R85; 07_scratchpad R154-R158). -/

namespace Sys2Proof.Machine

/-! ### Streams (R60, R69) -/

/-- A stream from the descriptor words a word took (R60, R67). -/
def strOf (zs : SMap Word64) (z : Nat) : Str :=
  let w (k : Nat) : Word64 := zOf zs z k
  let f := fld (w 3) 4 0
  { base := (fld (w 0) 21 0 : Nat), stride := (w 1).toInt, count := fld (w 2) 15 0,
    fmt := (match Fmt.ofCode f with
      | some x => x
      | none => .f32),
    pad := fld (w 3) 6 5 == 1, block := if fld (w 3) 7 7 = 1 then 32 else 16, axis := fld (w 3) 8 8 == 1,
    sen := fld (w 3) 9 9 == 1, ovf := fld (w 3) 10 10 == 1, sbase := fld (w 4) 21 0,
    sstride := signed 16 (fld (w 4) 47 32), ren := fld (w 5) 4 4 == 1, ring := fld (w 5) 3 0, peer := fld (w 5) 41 32,
    slot := none }

/-- Two elements share a byte: L4 in natural packing (R62). -/
def Str.nib (z : Str) : Bool := decide (z.fmt = .l4) && !z.pad

/-- The byte of element i, its first (R69). -/
def Str.addr (z : Str) (i : Nat) : Int :=
  if z.nib then (2 * z.base + z.stride * i) / 2 else z.base + z.fmt.bytes * (z.stride * i)

/-- Element i lies in bits 7:4 of its byte (R69). -/
def Str.high (z : Str) (i : Nat) : Bool := z.nib && (2 * z.base + z.stride * i) % 2 == 1

/-- The bytes of element i. -/
def Str.addrs (z : Str) (i : Nat) : List Nat := countUp (z.addr i).toNat z.fmt.bytes

/-- scale_index of R69, for block length B. -/
def scaleIndex (axis : Bool) (b i : Nat) : Nat := if axis then i / (b * b) * b + i % b else i / b

/-- The scale byte of element i (R69). -/
def Str.scaleAddr (z : Str) (i : Nat) : Int := z.sbase + z.sstride * scaleIndex z.axis z.block i

/-- The scale bytes of a group of elements, each once (R69, R70). -/
def Str.scaleReads (z : Str) (is : List Nat) : List Nat :=
  if z.sen then (is.map (fun i => (z.scaleAddr i).toNat)).eraseDups else []

/-- The bytes that reading a group of elements takes: their own, then their scale bytes. -/
def Str.reads (z : Str) (is : List Nat) : List Nat := is.flatMap z.addrs ++ z.scaleReads is

/-- The code of element i in a memory (R80). -/
def Str.code (z : Str) (rd : Nat → Byte) (i : Nat) : Nat :=
  if z.nib then
    let b := (rd (z.addr i).toNat).toNat
    if z.high i then b / 16 else b % 16
  else leNat ((z.addrs i).map rd) % 2 ^ z.fmt.bits

/-- The scale byte of element i in a memory. -/
def Str.scaleByte (z : Str) (rd : Nat → Byte) (i : Nat) : Nat := if z.sen then (rd (z.scaleAddr i).toNat).toNat else 127

/-- Another element of the stream lies in the other nibble of element i's byte (R80). -/
def Str.mate (z : Str) (i : Nat) : Bool :=
  (decide (z.stride = 1) && (z.high i || decide (i + 1 < z.count)))
    || (decide (z.stride = -1) && (if z.high i then decide (i + 1 < z.count) else decide (1 ≤ i)))

/-- The bytes that writing a code to element i changes, each with its mask; a nibble of its byte that no element of the stream
occupies is written as zero (R80). -/
def Str.put (z : Str) (i code : Nat) : List (Nat × Byte × Byte) :=
  if z.nib then
    (if z.high i then [((z.addr i).toNat, if z.mate i then 0xF0 else 0xFF, BitVec.ofNat 8 (code % 16 * 16))]
     else [((z.addr i).toNat, if z.mate i then 0x0F else 0xFF, BitVec.ofNat 8 (code % 16))])
  else ((z.addrs i).zip (leBytes code z.fmt.bytes)).map (fun p => (p.1, 0xFF, p.2))

/-- The lowest and one past the highest byte that the elements touch (R155). -/
def Str.span (z : Str) : Int × Int :=
  let a := z.addr 0
  let b := z.addr (z.count - 1)
  (if a ≤ b then a else b, (if a ≤ b then b else a) + z.fmt.bytes)

/-- The greatest scale index of the stream. -/
def Str.maxScale (z : Str) : Nat :=
  let n := z.count - 1
  if z.axis then
    let k := n / (z.block * z.block)
    let r := n % (z.block * z.block)
    k * z.block + (if r < z.block then r else z.block - 1)
  else n / z.block

/-- Every scale byte lies in the share; a stream of no element has none (R69). -/
def Str.scalesIn (z : Str) (share : Nat) : Bool :=
  let e := z.sbase + z.sstride * z.maxScale
  !z.sen || decide (z.count = 0) || (decide (z.sbase < share) && decide (0 ≤ e) && decide (e < share))

/-- Every byte lies in the share; the base of a ring-bound stream is taken at issue (R69, R157). -/
def Str.inShare (z : Str) (share : Nat) : Bool :=
  z.scalesIn share && (z.ren || decide (z.count = 0) || (decide (0 ≤ z.span.1) && decide (z.span.2 ≤ share)))

/-- The packed bytes of a stream's elements (R160, R162). -/
def packedBytes (f : Fmt) (pad : Bool) (n : Nat) : Nat := if f = .l4 ∧ pad = false then (n + 1) / 2 else n * f.bytes

def Str.packed (z : Str) : Nat := packedBytes z.fmt z.pad z.count

/-! ### Values of elements (R70, R73, R79) -/

/-- The canonical NaN of a floating format, NaV for L6 and L4. -/
def nanCode (f : Fmt) : Nat :=
  match f.fp with
  | some p => p.canonNan
  | none => if f = .l6 then 32 else 8

/-- A scaled value: v · 2^(s − 127), NaN for s = 0xFF (R70). -/
def scaleVal (v : Val) (s : Nat) : Val :=
  match v with
  | .nan x => .nan x
  | _ => if s = 255 then .nan false else v.scale ((s : Int) - 127)

/-- The exact value of element i of a floating stream (R70, R73). -/
def Str.val (z : Str) (rd : Nat → Byte) (i : Nat) : Val :=
  let v := z.fmt.decode (z.code rd i)
  if z.sen then scaleVal v (z.scaleByte rd i) else v

/-- The exact value of element i of an integer stream, or the canonical residue of a residue stream (R78, R79). -/
def Str.int (z : Str) (rd : Nat → Byte) (i : Nat) : Int :=
  if z.fmt.cls = .residue then ((z.code rd i % z.fmt.modulus : Nat) : Int) else z.fmt.toInt (z.code rd i)

/-- The product of two log-format codes: quarter-exponents are added; a product with a zero is +0, with a NaV NaN (R76). -/
def logProduct (f g : Fmt) (ca cb : Nat) : Val :=
  match f.decode ca, g.decode cb with
  | .nan _, _ => .nan false
  | _, .nan _ => .nan false
  | _, _ =>
    match logQuarter f ca, logQuarter g cb with
    | some p, some q => logval (p + q) (logSign f ca != logSign g cb)
    | _, _ => .fin false 0 0

/-- L6 or L4 (R74). -/
def Fmt.isLog (f : Fmt) : Bool := decide (f = .l6) || decide (f = .l4)

/-- The scales of two elements applied to their product (R70). -/
def scaleBoth (a b : Str) (rd : Nat → Byte) (i j : Nat) (v : Val) : Val :=
  let x := if a.sen then scaleVal v (a.scaleByte rd i) else v
  if b.sen then scaleVal x (b.scaleByte rd j) else x

/-- The exact product of element i of one stream and element j of another (R70, R76, R173). -/
def prodVal (a b : Str) (rd : Nat → Byte) (i j : Nat) : Val :=
  if a.fmt.isLog && b.fmt.isLog then scaleBoth a b rd i j (logProduct a.fmt b.fmt (a.code rd i) (b.code rd j))
  else (a.val rd i).mul (b.val rd j)

/-- A value written to a floating element with scale byte s: code and flags (R70, R82, R83). -/
def Str.encode (z : Str) (rm : Rm) (s : Nat) (v : Val) : Nat × Nat :=
  if z.sen then
    if s = 255 then (nanCode z.fmt, fNv) else z.fmt.ofVal rm z.ovf (v.scale (127 - (s : Int)))
  else z.fmt.ofVal rm z.ovf v

/-- An integer written by R84 (saturating), R79 (residue) or to a floating stream (R82). -/
def Str.encodeInt (z : Str) (s : Nat) (v : Int) : Nat × Nat :=
  match z.fmt.cls with
  | .residue => (z.fmt.ofResidue v, 0)
  | .floating => z.encode .rne s (.fin (decide (v < 0)) v.natAbs 0)
  | _ => z.fmt.satInt v

/-- An integer result taken mod 2^w, or mod p (R173). -/
def Str.wrap (z : Str) (v : Int) : Nat := if z.fmt.cls = .residue then z.fmt.ofResidue v else pat z.fmt.bits v

/-- The order of R127 on exact values, with its NaN rules: the minimum, or the maximum. -/
def Val.minmax (mx : Bool) (x y : Val) : Val :=
  match x, y with
  | .nan true, _ => .nan true
  | _, .nan true => .nan true
  | .nan false, .nan false => .nan false
  | .nan false, v => v
  | v, .nan false => v
  | v, w => if mx then (if v.lessTotal w then w else v) else (if w.lessTotal v then w else v)

/-- The exact value of an f32 pattern (R113). -/
def f32Val (w : Word64) : Val := fpF32.decode (fld w 31 0)

/-- A y operand read by an integer stream's type, or as a residue (R176). -/
def yInt (f : Fmt) (y : Word64) : Int :=
  if f.cls = .residue then ((y.toNat % f.modulus : Nat) : Int) else if f.isSigned then y.toInt else (y.toNat : Int)

/-! ### Checks -/

/-- What a check finds: all is well, a fault, a fault at a virtual address (R371), or a state that an Elastic launch waits for. -/
inductive Chk where
  | ok | fault (cause detail : Nat) | faultAt (cause detail va : Nat) | wait (cause : Nat)
  deriving DecidableEq, Repr, Inhabited

/-- The first that is not ok. -/
def firstChk : List Chk → Chk
  | [] => .ok
  | .ok :: r => firstChk r
  | c :: _ => c

/-- A condition whose failure is a fault. -/
def need (c : Bool) (cause : Nat) (detail : Nat := 0) : Chk := if c then .ok else .fault cause detail

/-- A condition whose failure is a fault in Lockstep and a wait in Elastic mode. -/
def await (c : Bool) (cause : Nat) : Chk := if c then .ok else .wait cause

/-- Slots of a ring, bytes of a slot, and where slot k starts (R157). -/
def Ring.slots (r : Ring) : Nat := fld r.w0 47 40 + 1
def Ring.size (r : Ring) : Nat := 64 * (fld r.w0 31 22 + 1)
def Ring.at (r : Ring) (k : Nat) : Nat := fld r.w0 21 0 + r.size * k
/-- The ring's last slot ends within the share (R157). -/
def Ring.fits (r : Ring) (share : Nat) : Bool := decide (r.at r.slots ≤ share)

/-- The ring that a stream is bound to ends within the share (R157). -/
def ringInShare (s : State) (r : Nat) : Bool := (s.vc.ring r).fits s.share

/-- The head checks common to the streams of a word: operand range, then a set stream (R66, R69, R157, R193). DESIGN CHOICE (log 62):
in this order. -/
def headStreams (s : State) (zs : List Str) : Chk :=
  firstChk [need (zs.all (fun z => z.inShare s.share && (!z.ren || ringInShare s z.ring))) 7,
    need (zs.all (fun z => decide (z.count ≠ 0))) 8]

/-- A stream with its base taken from its ring's slot: the head slot of a source, the tail slot of a destination
(R157). -/
def Str.bind (z : Str) (v : VC) (dst : Bool) : Str :=
  if z.ren then
    let r := v.ring z.ring
    let b := r.at (if dst then r.tail else r.head)
    { z with base := (b : Nat), slot := some (b, b + r.size) }
  else z

/-- Every element lies in the slot of a ring-bound stream (R157). -/
def Str.fits (z : Str) : Bool :=
  match z.slot with
  | none => true
  | some (lo, hi) => decide ((lo : Int) ≤ z.span.1) && decide (z.span.2 ≤ (hi : Int))

/-- The alignment of R154. -/
def Str.aligned (z : Str) : Bool := decide (z.base % (if z.stride = 1 then 128 else 64) = 0)

/-- A destination exactly overlaps a source (R155). -/
def Str.same (d a : Str) : Bool :=
  decide (d.base = a.base) && decide (d.stride = a.stride) && decide (d.count = a.count)
    && decide (d.fmt.bytes = a.fmt.bytes) && d.nib == a.nib

/-- Two spans meet. -/
def spansMeet (a b : Int × Int) : Bool := decide (a.1 < b.2) && decide (b.1 < a.2)

/-- The overlap rule of R155 for destinations and sources. -/
def overlapOk (ds as : List Str) : Bool :=
  ds.all (fun d => as.all (fun a => d.same a || !spansMeet d.span a.span))
    && (countUp 0 ds.length).all (fun i => (countUp 0 ds.length).all (fun j =>
      decide (j ≤ i) || !spansMeet (listAt default ds i).span (listAt default ds j).span))

/-- The rings of a list of streams, each once. -/
def ringsOf (zs : List Str) : List Nat := ((zs.filter (fun z => z.ren)).map (fun z => z.ring)).eraseDups

/-- The virtual address of a scratchpad byte of a virtual core (R166). -/
def windowVa (v : VC) (off : Nat) : Nat := mapBase + v.id * 0x1000000 + off

/-- Writes to these byte ranges [lo, hi) of the scratchpad meet no source span of a copy in flight (R238). DEDUCED (log 65): TVAL
holds the address, in the virtual core's own window, of the first range that does. -/
def hazardRanges (v : VC) (rs : List (Nat × Nat)) : Chk :=
  match rs.find? (fun r => spHazard v r.1 r.2) with
  | some r => .faultAt 0x1A 0 (windowVa v r.1)
  | none => .ok

/-- The same for the elements of a destination. -/
def hazardChk (v : VC) (z : Str) : Chk :=
  if spHazard v z.span.1.toNat z.span.2.toNat then
    hazardRanges v ((countUp 0 z.count).map (fun i => ((z.addr i).toNat, (z.addr i).toNat + z.fmt.bytes)))
  else .ok

/-- The issue checks of R154-R158 and R238 for a word with destinations `ds` and sources `as`, already bound. DESIGN CHOICE
(log 62): of several that fail, the first of this list is reported; in an Elastic launch one that faults goes before a wait for a
ring. -/
def issueStreams (s : State) (aligned : Bool) (ds as : List Str) : Chk :=
  firstChk [need (!aligned || (ds ++ as).all Str.aligned) 9, need (overlapOk ds as) 0x0A,
    need ((ds ++ as).all Str.fits) 7, firstChk (ds.map (hazardChk s.vc)),
    await ((ringsOf as).all (fun r => decide (1 ≤ (s.vc.ring r).cnt))) 0x0B,
    await ((ringsOf ds).all (fun r => decide ((s.vc.ring r).cnt < (s.vc.ring r).slots))) 0x0C]

end Sys2Proof.Machine
end

