-- ==== Sys2Proof/Machine/Flags.lean ====
section
/-! DEFINITION. How numeric flags reach FLAGS (05_control R132; 03_streams_formats R85; 14_generations R297). -/

namespace Sys2Proof.Machine

/-- The flags that vector, reduction, function and drain words may set: nv, of and ns (R85, R173, R206, R213). -/
def streamMask : Nat := fNv ||| fOf ||| fNs

/-- Flags f are to enter FLAGS at a beat (R132). -/
def flagsAt (v : VC) (beat f : Nat) : VC :=
  if f = 0 then v else { v with ctl.flagsIn := v.ctl.flagsIn ++ [(beat, f)] }

/-- The flags whose entry beat has come are ORed in, after CTL's access of that beat (R132). -/
def flagsEnter (v : VC) : VC :=
  (v.ctl.flagsIn.filter (fun p => decide (p.1 ≤ v.now))).foldl (fun u p => u.enterFlags p.2)
    { v with ctl.flagsIn := v.ctl.flagsIn.filter (fun p => decide (v.now < p.1)) }

/-- The union of the flags of a list of results. -/
def flagsOf (l : List (Nat × Nat)) : Nat := l.foldl (fun a p => a ||| p.2) 0

end Sys2Proof.Machine
end

