-- ==== Sys2Proof/Machine/Access.lean ====
section
/-! DEFINITION. Banks of the scratchpad and who is served at a beat (07_scratchpad R151-R153; 19_assurance R398). -/

namespace Sys2Proof.Machine

/-- The rank of a requester (R153): the queue whose word makes the access. -/
def rankOf : Queue → Nat
  | .mx => 1 | .vx => 2 | .fx => 3 | .rx => 4 | .ld => 5 | .st => 6

/-- Serve reads in order, up to the first that loses its bank: claims, bytes read (at base + address), and the addresses left
(R153). -/
def readAll (chip : SMap Byte) (base : Nat) : List Nat → List Claim → SMap Byte → List Claim × SMap Byte × List Nat
  | [], cl, buf => (cl, buf, [])
  | a :: r, cl, buf =>
    match claim cl a true 0 with
    | some cl1 => readAll chip base r cl1 (mput 0 buf (base + a) (mget 0 chip a))
    | none => (cl, buf, a :: r)

/-- A byte with the bits of `m` taken from `v`. -/
def mix (old m v : Byte) : Byte := (old &&& ~~~m) ||| (v &&& m)

/-- Serve writes in order, up to the first that loses its bank. -/
def writeAll (owner : Nat) : List (Nat × Byte × Byte) → List Claim → SMap Byte →
    List Claim × SMap Byte × List (Nat × Byte × Byte)
  | [], cl, chip => (cl, chip, [])
  | (a, m, v) :: r, cl, chip =>
    match claim cl a false owner with
    | some cl1 => writeAll owner r cl1 (mput 0 chip a (mix (mget 0 chip a) m v))
    | none => (cl, chip, (a, m, v) :: r)

/-- The banks that accesses left over have lost at this beat: those that serve another access (R153). -/
def lostBanks (cl : List Claim) (rd : List Nat) (wr : List Nat) (owner : Nat) : List Nat :=
  (rd.filter (fun a => (claim cl a true 0).isNone)).map bankOf ++ (wr.filter (fun a => (claim cl a false owner).isNone)).map bankOf

/-- The bytes of a list of addresses; neighbours that share one count once. -/
def bytesMoved : List Nat → Nat
  | [] => 0
  | [_] => 1
  | a :: b :: r => b2n (a != b) + bytesMoved (b :: r)

/-- The key of byte a of group g in a word's buffer. -/
def bufKey (g : Nat) : Nat := g * 8388608
/-- Read a byte of group g from a word's buffer. -/
def bufRd (buf : SMap Byte) (g : Nat) : Nat → Byte := fun a => mget 0 buf (bufKey g + a)

/-- The owner of the writes of access `tag` of word `seq`. -/
def accOwner (seq tag : Nat) : Nat := seq * 65536 + tag + 1

/-- Serve one access of a word for a requester: the virtual core with the lost beats counted, the word's buffer, what is left, and
the bytes moved (R153, R177). -/
def serveAcc (v : VC) (rank : Nat) (f : Flight) (a : Acc) : VC × SMap Byte × Acc × Nat :=
  let (cl, buf, rl) := readAll v.chip (bufKey a.tag) a.rd v.claims f.buf
  let (cl2, chip, wl) := if rl.isEmpty then writeAll (accOwner f.seq a.tag) a.wr cl v.chip else (cl, v.chip, a.wr)
  let left : Acc := { a with rd := rl, wr := wl }
  let moved := bytesMoved (a.rd.take (a.rd.length - rl.length))
    + bytesMoved (((a.wr.take (a.wr.length - wl.length)).filter (fun t => t.2.1 != 0)).map (fun t => t.1))
  let v1 := { v with claims := cl2, chip := chip }
  let v2 := if rl.isEmpty && wl.isEmpty then v1
            else loseBanks v1 rank (lostBanks cl2 rl (wl.map (fun t => t.1)) (accOwner f.seq a.tag))
  (v2, buf, left, moved)

/-- Nothing of the access is left. -/
def Acc.isDone (a : Acc) : Bool := a.rd.isEmpty && a.wr.isEmpty

/-- Lines of a copy that have not landed move a beat later. -/
def delayCopy (c : CopyJob) : CopyJob :=
  { c with lines := c.lines.map (fun l => if l.done then l else { l with due := l.due + 1 }) }

/-- Every access that a word still has to make, and its completion, move a beat later after a lost beat; what it has planned from
accesses made already stays (R153, R174, R202). -/
def delayFlight (f : Flight) : Flight :=
  { f with accs := f.accs.map (fun a => { a with beat := a.beat + 1 }), done := f.done.map (fun d => d + 1),
           copy := f.copy.map (fun j => if j.op < 4 then delayCopy j else j) }

/-- The word still has accesses of the scratchpad to make at its queue's rank: a receive's are inbound. -/
def Flight.accesses (f : Flight) : Bool :=
  !f.faulted && f.chan.isNone && (!f.accs.isEmpty || (match f.copy with
    | some j => decide (j.op < 4) && j.lines.any (fun l => !l.done)
    | none => false))

/-- A requester that has lost a beat makes its later accesses a beat later (R153). DEDUCED (log 59): those of its other words in
flight too. -/
def stallQueue (s : State) (q : Queue) : State :=
  { s with vc.eng.flights := s.vc.eng.flights.map (fun f => if f.q == q && f.accesses then delayFlight f else f) }

end Sys2Proof.Machine
end

