-- ==== Sys2Proof/Machine/Issue.lean ====
section
/-! DEFINITION. How an engine word issues and completes (04_time_tokens R86-R101, R105; 18_traps R370). -/

namespace Sys2Proof.Machine

/-- E = L + 1 of a queue, the largest of the columns for a shared entry (R90, R101). -/
def queueNext (s : State) (q : Queue) (shared : Bool) : Nat :=
  if shared then columns.foldl (fun a u => Nat.max a (s.vc.eng.q u).next) 0 else (s.vc.eng.q q).next

/-- The scheduled beat S of a word, and whether its stamp is behind (R90). -/
def sched (e delay : Nat) (stamp : Option (BitVec 24)) : Nat × Bool :=
  match stamp with
  | none => (e + delay, false)
  | some t =>
    let d := (t.toNat + 2 ^ 24 - e % 2 ^ 24) % 2 ^ 24
    (e + d, decide (2 ^ 23 ≤ d))

/-- The launch is frozen at this beat (R378). -/
def frozenNow (s : State) : Bool :=
  match s.launch.frozen with
  | none => false
  | some f => decide (f < s.vc.now)

/-- The virtual core's units stand: the launch is frozen, or its own debug stop has formed (R378, R404). -/
def standing (s : State) : Bool := frozenNow s || s.vc.held

/-- A copy whose META image has not been served (R228). -/
def Flight.imaging (f : Flight) : Bool :=
  match f.work with
  | .image _ => true
  | _ => false

/-- A queue issues nothing: in a handler, after a fault of its own (R377), with a push held (R95), past the freeze
(R378), at a debug stop (R404), or, in an Elastic launch, behind a copy whose image has not been served (R228). -/
def queueHeld (s : State) (q : Queue) : Bool :=
  s.vc.ctl.h || standing s
    || s.vc.faults.any (fun f => f.src == qCode q + 1 || (f.src == 8 && columns.contains q))
    || s.vc.eng.heldPush.any (fun p => p.q == q || (p.shared && columns.contains q))
    || s.vc.stop.contains (qCode q + 1) || (s.vc.stop.contains 8 && columns.contains q)
    || (decide (s.launch.mode = .elastic) && s.vc.eng.flights.any (fun f => f.q == q && f.imaging))

/-- The overrun detail word (R96). -/
def overrunWord (sb reach fifo q kind : Nat) : Word64 :=
  w64 (sb % 2 ^ 24 * 2 ^ 40 + reach % 2 ^ 24 * 2 ^ 16 + fifo * 64 + q * 8 + kind)

/-- The queue field of the overrun detail word (R96). -/
def overrunQueue (q : Queue) (e : QEntry) : Nat := if e.shared then 6 else qCode q

/-- Record an overrun fault (R96). -/
def overrun (s : State) (q : Queue) (e : QEntry) (sb reach fifo kind : Nat) : State :=
  queueFault s q e 0x14 kind (overrunWord sb reach fifo (overrunQueue q e) kind)

/-- Change the entry in its queue, or in the four columns. -/
def setEntry (s : State) (e : QEntry) : State :=
  let upd (en : Eng) (u : Queue) : Eng :=
    en.setQ u { en.q u with entries := (en.q u).entries.map (fun x => if x.seq = e.seq then e else x) }
  { s with vc.eng := allQueues.foldl upd s.vc.eng }

/-- Issued, unfinished words and operations in flight (R370). -/
def inFlight (v : VC) : Nat := v.eng.flights.length + v.atomics.length + v.colls.length

/-- The tokens of a word are taken at its issue beat (R94). -/
def takeTokens (s : State) (fs : List Nat) : State :=
  fs.foldl (fun t f => { tokTake t f with vc.eng.popped := mput 0 t.vc.eng.popped f (mget 0 t.vc.eng.popped f + 1) }) s

/-- Count an issued word in its engine's step counter, once (R105). -/
def countStep (s : State) (q : Queue) (e : QEntry) : State :=
  let k := engCode (qEngine q)
  if e.counted then s else { s with vc.eng.stepc := mput 0 s.vc.eng.stepc k ((mget 0 s.vc.eng.stepc k + 1) % 2 ^ 32) }

/-- L := I, or I + n for a wait word, in the queue or the four columns (R90, R101). -/
def setLast (s : State) (q : Queue) (shared : Bool) (n : Nat) : State :=
  let put (en : Eng) (u : Queue) : Eng := en.setQ u { en.q u with next := s.vc.now + n + 1 }
  { s with vc.eng := if shared then columns.foldl put s.vc.eng else put s.vc.eng q }

/-- The word leaves its queue at this beat: tokens, L, step counter, charge (R90, R94, R105, R361). -/
def leaveQueue (s : State) (q : Queue) (e : QEntry) (pops : List Nat) (n : Nat) (cls : Option EClass) : State :=
  let s1 := countStep (setLast (popHead (takeTokens s pops) q e) q e.shared n) q e
  match cls with
  | some c => charge s1 c
  | none => s1

/-- The FIFOs a word's token bits resolve to: those it pops and those it pushes; none for a token-map fault (R93). -/
def tokenFifos (s : State) (q : Queue) (b : EngBits) : Option (List Nat × List Nat) :=
  match popFifos s (qEngine q) b, pushFifos s (qEngine q) b with
  | some p, some u => some (p, u)
  | _, _ => none

/-- The last gate (R156, R370): the issue checks and the in-flight limit. Lockstep faults, Elastic waits. -/
def issueGate (s : State) (q : Queue) (e : QEntry) (c : Chk) (k : State → State) : Out :=
  match c with
  | .fault d x => .next (queueFault s q e d x (wordTval e))
  | .faultAt d x va => .next (queueFault s q e d x (w64 va))
  | .wait d =>
    (match s.launch.mode with
     | .lockstep => .next (queueFault s q e d 0 (wordTval e))
     | .elastic => .next s)
  | .ok =>
    if 128 ≤ inFlight s.vc then
      (match s.launch.mode with
       | .lockstep => .next (queueFault s q e 0x2B 0 (wordTval e))
       | .elastic => .next s)
    else .next (k s)

/-- The beat at which the entry first stood at its head with its head checks passed. -/
def stoodBeat (s : State) (e : QEntry) : Nat :=
  match e.stood with
  | some b => b
  | none => s.vc.now

/-- What a Lockstep word at its head meets at its scheduled beat `sb` (R96): the overrun fault for a stamp that is behind,
for a word that was or is late (`late`), or for a missing token; none when it issues or its beat has not come. DEDUCED (log 56):
a stamp that is behind faults when the word stands at its head, not at `sb`. -/
def overrunNow (s : State) (q : Queue) (e : QEntry) (sb stood : Nat) (behind late : Bool) (pops : List Nat) :
    Option State :=
  if behind then some (overrun s q e sb 0 0 3)
  else if s.vc.now < sb then none
  else if late || (decide (sb < s.vc.now) && !e.retry) then some (overrun s q e sb stood 0 1)
  else (tokMissing s pops).map (fun f => overrun s q e sb 0 f 2)

/-! ### Breakpoints at queue heads (R403) -/

/-- A word of breakpoint n of the partition. -/
def bpWord (s : State) (n : Nat) (hi : Bool) : Word64 := mget 0 s.part.bp (2 * n + b2n hi)

/-- The name of a breakpoint is that of an entry; with bit 11 any iteration of a table's micro-order will do (R376, R403). -/
def bpName (s : State) (n name : Nat) : Bool :=
  let w := fld (bpWord s n false) 55 0
  if fld (bpWord s n true) 11 11 = 1 ∧ bits name 55 54 = 2 then bits w 55 48 == bits name 55 48 && bits w 15 0 == bits name 15 0
  else w == name

/-- Breakpoint n is set for this unit, virtual core and name. -/
def bpMatches (s : State) (n unit name : Nat) : Bool :=
  let w0 := bpWord s n false
  let w1 := bpWord s n true
  fld w0 62 60 != 0 && fld w0 59 56 == unit && (fld w1 10 10 == 1 || fld w1 9 0 == s.vc.id) && bpName s n name

/-- A breakpoint stops the virtual core at this entry: it has no hits left to pass over. -/
def bpStops (s : State) (unit name : Nat) : Bool :=
  !s.part.bp.isEmpty && (countUp 0 8).any (fun n =>
    bpMatches s n unit name && fld (bpWord s n false) 62 60 == 1 && fld (bpWord s n true) 63 32 == 0)

/-- The unit of an entry's queue as TCAUSE numbers it (R371). -/
def unitOf (q : Queue) (e : QEntry) : Nat := if e.shared then 8 else qCode q + 1

/-- The head word of queue q issues, waits or faults (R88, R96, R98): `head` its head checks (a wait keeps it from
reaching its head, R234, R271), `check` its issue checks, `n` what a wait word adds to L, `go` what it does once
issued, with the FIFOs it will push. In an Elastic launch a breakpoint that stops at the entry holds it (R404). -/
def issueWord (s : State) (q : Queue) (b : EngBits) (head check : QEntry → Chk) (n : Nat) (cls : Option EClass)
    (go : QEntry → List Nat → State → State) : Out :=
  match headOf s q with
  | none => .next s
  | some e =>
    if queueHeld s q || (e.shared && !sharedAtHead s e) || decide (s.vc.now < e.ready) then .next s
    else
      let hc := firstChk [need (!e.bad) 1, match head e with
        | .wait c => .wait c
        | c => c]
      match hc, tokenFifos s q b with
      | .fault c d, _ => .next (queueFault s q e c d (wordTval e))
      | .faultAt c d va, _ => .next (queueFault s q e c d (w64 va))
      | _, none => .next (queueFault s q e 0x10 0 (wordTval e))
      | h, some (pops, pushes) =>
        let stood := stoodBeat s e
        let s1 := setEntry s { e with stood := some stood, reached := e.reached || decide (h = .ok) }
        let (sb, behind) := sched (queueNext s q e.shared) b.delay.toNat b.stamp
        let run : Out := issueGate s1 q e (check e) (fun t => go e pushes (leaveQueue t q e pops n cls))
        match s.launch.mode with
        | .lockstep =>
          match overrunNow s1 q e sb stood behind (decide (h ≠ .ok)) pops with
          | some t => .next t
          | none => if s.vc.now < sb then .next s1 else run
        | .elastic =>
          let lo := if behind then queueNext s q e.shared else sb
          if decide (s.vc.now < lo) || decide (h ≠ .ok) || (tokMissing s pops).isSome || (!e.reached && bpStops s (unitOf q e) e.name) then .next s1
          else run

/-! ### Words in flight -/

/-- A word that has just issued, with nothing planned. -/
def flightOf (s : State) (q : Queue) (e : QEntry) (toks : List Nat) : Flight :=
  { seq := e.seq, q := q, entry := { e with counted := true }, issued := s.vc.now, done := none, accs := [], dues := [],
    buf := [], work := .idle, strs := [], flags := 0, pops := [], pushes := [], y := none, toks := toks,
    faulted := false, ended := false, chan := none, land := none, got := [], copy := none, audit := 0 }

/-- Put a word in flight. -/
def addFlight (s : State) (f : Flight) : State := { s with vc.eng.flights := s.vc.eng.flights ++ [f] }

/-- A word that completes at its issue beat + n and touches no data. -/
def plainFlight (s : State) (q : Queue) (e : QEntry) (toks : List Nat) (n : Nat) : State :=
  addFlight s { flightOf s q e toks with done := some (s.vc.now + n) }

/-- Replace the flight of a word. -/
def setFlight (s : State) (f : Flight) : State :=
  { s with vc.eng.flights := s.vc.eng.flights.map (fun x => if x.seq = f.seq then f else x) }

/-- Drop a flight. -/
def dropFlight (s : State) (seq : Nat) : State :=
  { s with vc.eng.flights := s.vc.eng.flights.filter (fun x => x.seq != seq) }

/-- The flight with this sequence number. -/
def flightAt (s : State) (seq : Nat) : Option Flight := s.vc.eng.flights.find? (fun f => f.seq == seq)

/-- Pop one slot of ring r (R158). DESIGN CHOICE (log 58): cnt stays 0 where two words in flight pop its last full slot. -/
def ringPop (v : VC) (r : Nat) : VC :=
  let g := v.ring r
  { v with g := mput ringZero v.g r { g with head := (g.head + 1) % g.slots, cnt := g.cnt - 1 } }

/-- Push one slot of ring r (R158). DESIGN CHOICE (log 58): cnt goes past `slots` where two words in flight push its last free one. -/
def ringPush (v : VC) (r : Nat) : VC :=
  let g := v.ring r
  { v with g := mput ringZero v.g r { g with tail := (g.tail + 1) % g.slots, cnt := g.cnt + 1 } }

/-- head, tail and cnt become zero; pops and pushes of words issued before are discarded, those that an MMA makes at its last
read among them (R159). DEDUCED (log 63): a word that completes at the beat of the reset counts as one that completes after
it. -/
def ringReset (v : VC) (r : Nat) : VC :=
  let strip (l : List Nat) : List Nat := l.filter (fun x => x != r)
  { v with
    g := mput ringZero v.g r { v.ring r with head := 0, tail := 0, cnt := 0 },
    eng.flights := v.eng.flights.map (fun f =>
      { f with pops := strip f.pops, pushes := strip f.pushes,
               got := (match f.work with
                 | .mma _ => f.got.filter (fun x => x.toNat != r)
                 | _ => f.got),
               dues := f.dues.map (fun d => match d.2 with
                 | .pops rs => (d.1, .pops (strip rs))
                 | _ => d) }) }

/-- Push the tokens of a completing word (R94, R95): in Lockstep the first that overflows faults and the earlier ones
stand; in Elastic mode it and the rest are held. -/
def pushTokens (s : State) (f : Flight) : List Nat → State
  | [] => s
  | t :: r =>
    if tokFull s t then
      (match s.launch.mode with
       | .lockstep => queueFault s f.q f.entry 0x11 0 (wordTval f.entry)
       | .elastic => { s with vc.eng.heldPush := s.vc.eng.heldPush ++ (t :: r).map (fun x => ⟨f.q, f.entry.shared, x⟩) })
    else pushTokens (tokPut s t) f r

/-- A held push takes effect when the count has fallen below 15 (R95). DESIGN CHOICE (log 57): at one beat the pushes of the words
that complete come before the pushes held from earlier beats. -/
def releasePushes (s : State) : State :=
  s.vc.eng.heldPush.foldl
    (fun t p => if tokFull t p.fifo then { t with vc.eng.heldPush := t.vc.eng.heldPush ++ [p] } else tokPut t p.fifo)
    { s with vc.eng.heldPush := [] }

/-- A micro-order or run in flight or queued belongs to run `id`. -/
def runBusy (v : VC) (id : Nat) : Bool :=
  allQueues.any (fun q => (v.eng.q q).entries.any (fun e => e.run == some id))
    || v.eng.flights.any (fun f => f.entry.run == some id && !f.ended)

/-- The matrix as a snapshot: 512 cells, then table number, sequence number and exit beat (R398). -/
def snapshotOf (v : VC) (table exit : Nat) : SMap Nat :=
  let n := match v.snaps.getLast? with
    | some p => (mget 0 p 513 + 1) % 2 ^ 32
    | none => 0
  mput 0 (mput 0 (mput 0 v.conflicts 512 table) 513 n) 514 (exit % 2 ^ 48)

/-- Runs whose entry has ended and whose words have all completed are finished; each takes its snapshot at its exit
beat, the beat after this one (R147, R398). DESIGN CHOICE (log 81): of runs with one exit beat, the one whose last word completes
first in the order of the beat goes first, then the one that started first. -/
def finishRuns (s : State) : State :=
  (s.vc.tbl.runs.filter (fun r => r.ended && !runBusy s.vc r.id)).foldl
    (fun t r =>
      let snaps := t.vc.snaps ++ [snapshotOf t.vc r.table (t.vc.now + 1)]
      { t with vc.snaps := snaps.drop (snaps.length - 4),
               vc.tbl.runs := t.vc.tbl.runs.filter (fun x => x.id != r.id) }) s

/-- The event queue has room for one more record posted at beat b, counting those posted by then and the held ones (R103). -/
def eventRoomAt (s : State) (b : Nat) : Bool :=
  decide (s.vc.eng.events.length + (s.vc.eng.evIn.filter (fun r => decide (r.beat ≤ b))).length + s.vc.eng.heldEv.length < s.evCap)

/-- The event queue has room for one more record posted at this beat. -/
def eventRoom (s : State) : Bool := eventRoomAt s s.vc.now

/-- The follow-on word of a copy that has completed waits for it no more (R234). -/
def followOn (s : State) (n : Nat) : State :=
  { s with vc.eng.mx := { s.vc.eng.mx with
      entries := s.vc.eng.mx.entries.map (fun e => if e.follow = some n then { e with follow := none } else e) } }

/-- The completion of a word at this beat (R94, R132, R138, R158): ring moves, y result, flags from the next beat on,
token pushes; its stream versions are released with it. A word with accesses or memory writes still to come stays in
flight (R232). -/
def completeFlight (s : State) (f : Flight) : State :=
  let v1 := f.pushes.foldl ringPush (f.pops.foldl ringPop s.vc)
  let v2 := match f.y with
    | some (n, w) => { v1 with ctl.y := mput 0 v1.ctl.y n w }
    | none => v1
  let s1 : State := { s with vc := flagsAt v2 (s.vc.now + 1) f.flags }
  let more := !f.accs.isEmpty || (match f.copy with
    | some c => decide (4 ≤ c.op)
    | none => false)
  let s2 := if more then setFlight s1 { f with ended := true, pops := [], pushes := [], toks := [], flags := 0, y := none }
            else dropFlight s1 f.seq
  finishRuns (pushTokens (followOn s2 f.seq) f f.toks)

end Sys2Proof.Machine
end

