-- ==== Sys2Proof/Machine/VectorOps.lean ====
section
/-! DEFINITION. What the vector column computes, element by element (08_vector R170-R188). -/

namespace Sys2Proof.Machine

/-! ### The hash and the generator (R185) -/

/-- h32 of R185. -/
def h32 (a b : BitVec 32) : BitVec 32 :=
  let h0 := a ^^^ (b * 0x9E3779B1)
  let h1 := h0 ^^^ (h0 >>> 16)
  let h2 := h1 * 0x85EBCA6B
  let h3 := h2 ^^^ (h2 >>> 13)
  let h4 := h3 * 0xC2B2AE35
  h4 ^^^ (h4 >>> 16)

/-- The counter-based generator of R185. -/
def gen (key ctr : Word64) : BitVec 32 :=
  h32 (h32 (ctr.setWidth 32) (key.setWidth 32) ^^^ ctr.extractLsb' 32 32) (key.extractLsb' 32 32)

/-! ### Results by class (R173, R178, R179) -/

/-- The exact result of a floating arithmetic word; `p` is the product of a and b (R76, R173, R178). -/
def vecFloat (op : VOp) (a b d p : Val) : Val :=
  match op with
  | .add | .addY => Val.add .rne a b
  | .sub => Val.add .rne a b.neg
  | .mul | .mulY | .mulM => p
  | .fma | .fmaY => Val.add .rne p d
  | .min | .minY => Val.minmax false a b
  | .max | .maxY => Val.minmax true a b
  | .abs =>
    (match a with
     | .inf _ => .inf false
     | .fin _ m e => .fin false m e
     | x => x)
  | .neg => a.neg
  | _ => a

/-- The exact result of an integer or residue arithmetic word (R173, R178). -/
def vecInt (op : VOp) (a b d : Int) : Int :=
  match op with
  | .add | .addY | .addsat => a + b
  | .sub | .subsat => a - b
  | .mul | .mulY | .mulM => a * b
  | .fma | .fmaY => a * b + d
  | .min | .minY => if b < a then b else a
  | .max | .maxY => if a < b then b else a
  | .abs => if a < 0 then -a else a
  | .neg => -a
  | _ => a

/-- Integer results that saturate (R172, R179). -/
def satOp (op : VOp) : Bool := [VOp.min, .max, .minY, .maxY, .addsat, .subsat].contains op

/-- A floating compare: result and flags (R128, R179). -/
def cmpFloat (op : VOp) (a b : Val) : Bool × Nat :=
  let sig := fOr a.sigFlag b.sigFlag
  let bad := a.isNan || b.isNan
  match op with
  | .ceq => (!bad && !a.less b && !b.less a, sig)
  | .cne => (bad || a.less b || b.less a, sig)
  | .clt => if bad then (false, fNv) else (a.less b, 0)
  | _ => if bad then (false, fNv) else (!b.less a, 0)

/-- An integer or residue compare (R179). -/
def cmpInt (op : VOp) (a b : Int) : Bool :=
  match op with
  | .ceq => decide (a = b)
  | .cne => decide (a ≠ b)
  | .clt => decide (a < b)
  | _ => decide (a ≤ b)

/-- A bitwise or shift word on patterns of width w, with s the shift amount and sgn the source's signedness (R179). -/
def vecBits (op : VOp) (w : Nat) (sgn : Bool) (a b s : Nat) : Nat :=
  match op with
  | .and => a &&& b
  | .or => a ||| b
  | .xor => a ^^^ b
  | .not => 2 ^ w - 1 - a % 2 ^ w
  | .shl => if w ≤ s then 0 else a * 2 ^ s % 2 ^ w
  | .shr => if w ≤ s then 0 else a % 2 ^ w / 2 ^ s
  | .sra =>
    let v : Int := if sgn then signed w a else ((a % 2 ^ w : Nat) : Int)
    if w ≤ s then pat w (if v < 0 then -1 else 0) else pat w (v / (2 ^ s : Nat))
  | _ => a

/-- vclass of a stored code (R179). -/
def vecClass (f : Fmt) (c : Nat) : Nat :=
  match f.fp with
  | some p => p.classCode c
  | none =>
    match logQuarter f c with
    | none => if logSign f c then 0xC else 0
    | some _ => 4 + b2n (logSign f c)

/-- vcvt of element i (R81-R84, R180). -/
def vecCvt (z a : Str) (rd : Nat → Byte) (i s : Nat) : Nat × Nat :=
  match a.fmt.cls, z.fmt.cls with
  | .floating, .floating => z.encode .rne s (a.val rd i)
  | .floating, _ => z.fmt.intOfVal .rne (a.val rd i)
  | _, _ => z.encodeInt s (a.fmt.toInt (a.code rd i))

/-- vrng of element i with key and counter (R187). -/
def vecRng (z : Str) (key ctr : Word64) (i s : Nat) : Nat :=
  if z.fmt.cls = .floating then
    let v := gen key (ctr + w64 i)
    (z.encode .rtz s (.fin false (v.toNat / 256) (-24))).1
  else if z.fmt.bits = 64 then
    (gen key (ctr + w64 (2 * i))).toNat + (gen key (ctr + w64 (2 * i + 1))).toNat * 2 ^ 32
  else (gen key (ctr + w64 i)).toNat % 2 ^ z.fmt.bits

/-- Numbers drawn by a word (R187, R188). -/
def drawCount (op : VOp) (z : Str) : Nat :=
  match op with
  | .rng => if z.fmt.cls ≠ .floating ∧ z.fmt.bits = 64 then 2 * z.count else z.count
  | .drop => z.count
  | _ => 0

/-- vdrop of element i (R188). -/
def vecDrop (z a : Str) (rd : Nat → Byte) (y key ctr : Word64) (i s : Nat) : Nat × Nat :=
  let x := a.val rd i
  if (gen key (ctr + w64 i)).toNat < fld y 31 0 then ((z.encode .rne s (.fin false 0 0)).1, x.sigFlag)
  else z.encode .rne s (x.mul (fpF32.decode (fld y 63 32)))

/-- The three terms of vsplit3 as exact values (R184): rounded with the ovf of its destination. -/
def splitTerms (x : Val) (h m l : Str) : List (Nat × Nat) :=
  let step (z : Str) (v : Val) : Nat × Nat := fpBf16.ofVal .rne z.ovf v
  match x with
  | .fin _ _ _ =>
    let hi := step h x
    let r1 := Val.add .rne x (fpBf16.decode hi.1).neg
    let mid := step m r1
    let r2 := Val.add .rne r1 (fpBf16.decode mid.1).neg
    [hi, mid, step l r2]
  | _ => [step h x, (0, 0), (0, 0)]

/-! ### Elements -/

/-- Words whose second operand is a y register or a mailbox (R176). -/
def scalarOp (op : VOp) : Bool := [VOp.addY, .mulY, .fmaY, .mulM, .maxY, .minY].contains op

/-- The result of element i: none where vsel writes nothing. `rd` reads the bytes of the element's group; streams are
z = zd, a and b; y the scalar operand. -/
def vecElem (op : VOp) (z a b : Str) (y key ctr : Word64) (rd : Nat → Byte) (i : Nat) : Option (Nat × Nat) :=
  let s := z.scaleByte rd i
  match op with
  | .ceq | .cne | .clt | .cle =>
    let (r, f) := if a.fmt.cls = .floating then cmpFloat op (a.val rd i) (b.val rd i)
                  else (cmpInt op (a.int rd i) (b.int rd i), 0)
    some (b2n r, f)
  | .sel =>
    if a.int rd i = 0 then none
    else if z.fmt.cls = .floating then some (z.encode .rne s (b.val rd i))
    else some (z.encodeInt s (b.int rd i))
  | .and | .or | .xor => some (vecBits op z.fmt.bits false (a.code rd i) (b.code rd i) 0, 0)
  | .not | .shl | .shr | .sra => some (vecBits op z.fmt.bits z.fmt.isSigned (a.code rd i) 0 y.toNat, 0)
  | .mulhi => some (pat z.fmt.bits (a.int rd i * b.int rd i / (2 ^ z.fmt.bits : Nat)), 0)
  | .cls => some (vecClass a.fmt (a.code rd i), 0)
  | .cvt => some (vecCvt z a rd i s)
  | .mov => some (a.code rd i, 0)
  | .fillY =>
    if z.fmt.cls = .floating then some (z.encode .rne s (f32Val y)) else some (z.encodeInt s (yInt z.fmt y))
  | .iota => some (z.encodeInt s (i : Int))
  | .rng => some (vecRng z key ctr i s, 0)
  | .drop => some (vecDrop z a rd y key ctr i s)
  | .gath | .scat | .split3 => none
  | _ =>
    if z.fmt.cls = .floating then
      let av := a.val rd i
      let bv := if scalarOp op then f32Val y else b.val rd i
      let p := if scalarOp op then av.mul bv else prodVal a b rd i i
      some (z.encode .rne s (vecFloat op av bv (if op = .fma ∨ op = .fmaY then z.val rd i else .fin false 0 0) p))
    else
      let bi := if scalarOp op then yInt a.fmt y else b.int rd i
      let v := vecInt op (a.int rd i) bi (if op = .fma ∨ op = .fmaY then z.int rd i else 0)
      if satOp op && decide (z.fmt.cls = .integer) then some (z.fmt.satInt v) else some (z.wrap v, 0)

/-! ### Which streams a word has, and their classes (R171, R172) -/

def readsA (op : VOp) : Bool := !([VOp.fillY, .rng, .iota].contains op)
def readsB (op : VOp) : Bool :=
  [VOp.add, .sub, .mul, .fma, .min, .max, .ceq, .cne, .clt, .cle, .sel, .and, .or, .xor, .addsat, .subsat, .mulhi,
   .gath, .scat].contains op
def readsD (op : VOp) : Bool := [VOp.fma, .fmaY].contains op
/-- Words that copy or classify codes and ignore scales (R179, R181, R183). -/
def rawOp (op : VOp) : Bool := [VOp.mov, .gath, .scat, .cls].contains op

/-- The streams are of one class, and residues of one modulus. -/
def oneClass (l : List Str) : Bool :=
  match l with
  | [] => true
  | x :: r => r.all (fun z => decide (z.fmt.cls = x.fmt.cls) && (decide (x.fmt.cls ≠ .residue) || decide (z.fmt = x.fmt)))

/-- An index stream's format (R160, R183). -/
def indexFmt (f : Fmt) : Bool := [Fmt.n16, .n32, .i32].contains f

/-- The class table of R172, with e8 excluded but for vmov (R77). -/
def vecClassOk (op : VOp) (z a b : Str) : Bool :=
  let srcs := (if readsA op then [a] else []) ++ (if readsB op then [b] else [])
  let noE8 := (z :: srcs).all (fun x => decide (x.fmt ≠ .e8))
  let isC (c : Class) (x : Str) : Bool := decide (x.fmt.cls = c)
  match op with
  | .add | .sub | .mul | .neg | .addY | .mulY | .mulM => noE8 && oneClass (z :: srcs)
  | .fma | .fmaY | .abs | .min | .max | .minY | .maxY => noE8 && oneClass (z :: srcs) && !isC .residue z
  | .ceq | .cne => noE8 && oneClass srcs && isC .integer z
  | .clt | .cle => noE8 && oneClass srcs && isC .integer z && !isC .residue a
  | .sel => noE8 && isC .integer a && oneClass [z, b]
  | .and | .or | .xor | .not | .shl | .shr | .sra | .addsat | .subsat | .mulhi =>
    isC .integer z && srcs.all (fun x => decide (x.fmt = z.fmt))
  | .cls => isC .floating a && isC .integer z
  | .cvt => noE8 && !(isC .floating a && isC .residue z) && !(isC .residue a && isC .floating z)
  | .mov => decide (z.fmt = a.fmt)
  | .gath | .scat => noE8 && indexFmt a.fmt && decide (z.fmt = b.fmt)
  | .fillY | .iota => noE8
  | .rng => noE8 && !isC .residue z
  | .drop => isC .floating z && isC .floating a
  | .split3 => decide (a.fmt = .f32)

/-- The count rule of R171 and R183. -/
def vecCountOk (op : VOp) (z a b : Str) : Bool :=
  match op with
  | .gath => decide (a.count = z.count)
  | .scat => decide (a.count = b.count)
  | _ => (!readsA op || decide (a.count = z.count)) && (!readsB op || decide (b.count = z.count))

/-- The lane count L of R174 over the word's streams. -/
def lanes (l : List Str) : Nat :=
  if l.any (fun z => decide (z.fmt.bits = 64)) then 16
  else if l.any (fun z => decide (z.fmt.bits = 32)) then 32
  else 64

/-- Elements lo to hi − 1 of group g. -/
def groupElems (n l g : Nat) : List Nat := countUp (g * l) (if n < (g + 1) * l then n - g * l else l)

end Sys2Proof.Machine
end

