-- ==== Sys2Proof/Machine/Vector.lean ====
section
/-! DEFINITION. The words of the vector column, majors 0x36 to 0x38: checks, groups and beats (08_vector R170-R188,
R193). -/

namespace Sys2Proof.Machine

/-! ### Plans (R174) -/

/-- A list element, the first when there is none. -/
def strAt (f : Flight) (i : Nat) : Str := listAt default f.strs i

/-- The streams of a vector word, from the descriptors the entry took: d, a, b, and for vsplit3 d+1 and d+2. -/
def vecStrs (op : VOp) (e : QEntry) (d a b : BitVec 4) : List Str :=
  let z (n : Nat) : Str := strOf e.zs n
  let base := [z d.toNat, if readsA op then z a.toNat else default, if readsB op then z b.toNat else default]
  match op with
  | .split3 => base ++ [z (d.toNat + 1), z (d.toNat + 2)]
  | _ => base

/-- The destinations and the sources among them. -/
def vecDsts (op : VOp) (l : List Str) : List Str :=
  match op with
  | .split3 => [listAt default l 0, listAt default l 3, listAt default l 4]
  | _ => [listAt default l 0]
def vecSrcs (op : VOp) (l : List Str) : List Str :=
  (if readsA op then [listAt default l 1] else []) ++ (if readsB op then [listAt default l 2] else [])

/-- n of R171 and R183. -/
def vecCount (op : VOp) (l : List Str) : Nat :=
  match op with
  | .gath | .scat => (listAt default l 1).count
  | _ => (listAt default l 0).count

/-- Head checks of a vector word (R47, R69, R171, R172, R184). -/
def vecHead (s : State) (op : VOp) (d a b : BitVec 4) (e : QEntry) : Chk :=
  let l := vecStrs op e d a b
  let z := listAt default l 0
  let sa := listAt default l 1
  let sb := listAt default l 2
  firstChk [
    need (decide (op ≠ .split3) || decide (d.toNat ≤ 13)) 7,
    headStreams s (vecDsts op l ++ vecSrcs op l),
    need (vecCountOk op z sa sb) 8,
    need (vecClassOk op z sa sb) 8,
    need (decide (op ≠ .split3) || (vecDsts op l).all (fun x => decide (x.fmt = .bf16) && decide (x.count = sa.count))) 8]

/-- The streams with their ring slots taken (R157). -/
def vecBound (s : State) (op : VOp) (l : List Str) : List Str :=
  match l with
  | z :: a :: b :: r => z.bind s.vc true :: a.bind s.vc false :: b.bind s.vc false :: r.map (fun x => x.bind s.vc true)
  | x => if readsA op then x else x

/-- Issue checks of a vector word (R154-R158). -/
def vecCheck (s : State) (op : VOp) (d a b : BitVec 4) (e : QEntry) : Chk :=
  let l := vecBound s op (vecStrs op e d a b)
  issueStreams s true (vecDsts op l) (vecSrcs op l)

/-- The bytes that group g of an element-wise word reads, in operand order a, b, d (R153, R174). -/
def vecReads (op : VOp) (z a b : Str) (is : List Nat) : List Nat :=
  let one (x : Str) : List Nat := if rawOp op then is.flatMap x.addrs else x.reads is
  (if readsA op then one a else []) ++ (if readsB op then one b else [])
    ++ (if readsD op then one z else if rawOp op then [] else z.scaleReads is)

/-- The read accesses of an element-wise word that issues at beat I (R174); `more` are the further destinations of vsplit3. -/
def vecAccs (op : VOp) (z a b : Str) (more : List Str) (n l i0 : Nat) : List Acc :=
  (countUp 0 (ceilDiv n l)).map (fun g =>
    ⟨g, i0 + g, vecReads op z a b (groupElems n l g) ++ more.flatMap (fun x => x.scaleReads (groupElems n l g)), []⟩)

/-- The index reads of vgath and vscat, groups at I + g (R174, R183). -/
def indexAccs (a : Str) (n l i0 : Nat) : List Acc :=
  (countUp 0 (ceilDiv n l)).map (fun g => ⟨g, i0 + g, (groupElems n l g).flatMap a.addrs, []⟩)

/-- Start a vector word in flight. -/
def vecStart (op : VOp) (d a b : BitVec 4) (y : Word64) (e : QEntry) (toks : List Nat) (s : State) : State :=
  let l := vecBound s op (vecStrs op e d a b)
  let z := listAt default l 0
  let sa := listAt default l 1
  let sb := listAt default l 2
  let n := vecCount op l
  let w := lanes (vecDsts op l ++ vecSrcs op l)
  let g := ceilDiv n w
  let idx := decide (op = .gath) || decide (op = .scat)
  let draws := drawCount op z
  let s1 : State := { s with vc.eng.vxCount := s.vc.eng.vxCount + 1,
                             vc.tx.adv := draws }
  addFlight s1 { flightOf s .vx e toks with
    done := some (s.vc.now + 3 + (if idx then 2 * g else g)),
    accs := if idx then indexAccs sa n w s.vc.now else vecAccs op z sa sb (l.drop 3) n w s.vc.now,
    work := .vec op y s.vc.tx.k s.vc.tx.n, strs := l, audit := s.vc.eng.vxCount % w,
    pops := ringsOf (vecSrcs op l), pushes := ringsOf (vecDsts op l) }

/-- A vector word at the head of VX. -/
def vecOp (s : State) (op : VOp) (cls : EClass) (e : EngBits) (d a b : BitVec 4) (y : State → Word64) : Out :=
  issueWord s .vx e (vecHead s op d a b) (vecCheck s op d a b) 0 (some cls)
    (fun q toks t => vecStart op d a b (y t) q toks t)

/-- A vector word without a scalar operand. -/
def noY : State → Word64 := fun _ => 0

/-! ### When a group has been read -/

/-- Write tags stand above read tags. -/
def writeTag (g : Nat) : Nat := 8192 + g
/-- Tags of the data groups of gathers and scatters. -/
def dataTag (g : Nat) : Nat := 16384 + g

/-- The write of the results of group g, its bytes and flags. The lanes that vsel masks occupy their banks and change nothing
(R179). DESIGN CHOICE (log 87): the terms of vsplit3 are split off unscaled, and each is then encoded with the scale of its element. -/
def vecWrite (f : Flight) (op : VOp) (y key ctr : Word64) (g : Nat) (is : List Nat) : List (Nat × Byte × Byte) × Nat :=
  let z := strAt f 0
  let rd := bufRd f.buf g
  match op with
  | .split3 =>
    is.foldl (fun acc i =>
      let t := splitTerms ((strAt f 1).val rd i) z (strAt f 3) (strAt f 4)
      let code (x : Str) (k : Nat) : Nat × Nat :=
        if x.sen then x.encode .rne (x.scaleByte rd i) (fpBf16.decode (listAt (0, 0) t k).1) else (listAt (0, 0) t k)
      let ds := [(z, code z 0), (strAt f 3, code (strAt f 3) 1), (strAt f 4, code (strAt f 4) 2)]
      (acc.1 ++ ds.flatMap (fun p => p.1.put i p.2.1), acc.2 ||| flagsOf t ||| flagsOf (ds.map (fun p => p.2)))) ([], 0)
  | _ =>
    is.foldl (fun acc i =>
      match vecElem op z (strAt f 1) (strAt f 2) y key ctr rd i with
      | none => (acc.1 ++ (z.put i 0).map (fun t => (t.1, 0, 0)), acc.2)
      | some (c, fl) => (acc.1 ++ z.put i c, acc.2 ||| fl)) ([], 0)

/-- Add a planned access. -/
def plan (f : Flight) (a : Acc) : Flight := { f with accs := f.accs ++ [a] }

/-- The index that element k of za names, read in its index group. -/
def indexOf (f : Flight) (w k : Nat) : Int := (strAt f 1).int (bufRd f.buf (k / w)) k

/-- A fault of the indices at a beat; the word writes and pushes nothing. Its index reads stand ready for the case that
a handler takes it up again (R160, R183, R381). -/
def indexFault (f : Flight) (n w beat : Nat) : Flight :=
  { f with accs := indexAccs (strAt f 1) n w (beat + 1), done := none, dues := [(beat, .raise 7 0)] }

/-- Some index of the word lies outside 0 to lim − 1. -/
def indexBad (f : Flight) (n w lim : Nat) : Bool :=
  (countUp 0 n).any (fun k => decide (indexOf f w k < 0) || decide ((lim : Int) ≤ indexOf f w k))

/-- Once the last index group is read, the data groups of vgath and vscat are planned (R174, R183). DESIGN CHOICE (log 86): at the beats of
R174 the data groups from the fifth on are read after the first has been written, although R183 puts every read before every write. -/
def planData (f : Flight) (op : VOp) (n w now : Nat) : Flight :=
  if indexBad f n w (if op = .gath then (strAt f 2).count else (strAt f 0).count) then indexFault f n w (now + 1)
  else
    { f with
      done := some (match f.done with
        | some d => d
        | none => now + 4 + ceilDiv n w),
      accs := f.accs ++ (countUp 0 (ceilDiv n w)).map (fun g =>
        ⟨dataTag g, now + 1 + g,
          (groupElems n w g).flatMap (fun k => (strAt f 2).addrs (if op = .gath then (indexOf f w k).toNat else k)), []⟩) }

/-- The write of data group g of a gather or scatter: codes are copied (R183). -/
def moveGroup (f : Flight) (op : VOp) (n w g : Nat) : List (Nat × Byte × Byte) :=
  (groupElems n w g).flatMap (fun k =>
    let i := (indexOf f w k).toNat
    let c := (strAt f 2).code (bufRd f.buf (dataTag g)) (if op = .gath then i else k)
    (strAt f 0).put (if op = .gath then k else i) c)

/-- A vector word has read the access with this tag at this beat: results are written four beats later (R174). -/
def vecGroup (f : Flight) (op : VOp) (y key ctr : Word64) (tag now : Nat) : Flight :=
  let n := vecCount op f.strs
  let w := lanes (vecDsts op f.strs ++ vecSrcs op f.strs)
  let g := ceilDiv n w
  match op with
  | .gath | .scat =>
    if tag < 8192 then (if tag + 1 = g then planData f op n w now else f)
    else if tag < 16384 then f
    else plan f ⟨writeTag (tag - 16384), now + 4, [], moveGroup f op n w (tag - 16384)⟩
  | _ =>
    if tag < 8192 then
      let (ws, fl) := vecWrite f op y key ctr tag (groupElems n w tag)
      plan { f with flags := f.flags ||| (fl &&& streamMask) } ⟨writeTag tag, now + 4, [], ws⟩
    else f

/-! ### Arithmetic, major 0x36 (R178) -/

/-- vadd: a + b. -/
def execVadd (e : EngBits) (d a b : BitVec 4) (s : State) : Out := vecOp s .add .vx e d a b noY

/-- vsub: a − b. -/
def execVsub (e : EngBits) (d a b : BitVec 4) (s : State) : Out := vecOp s .sub .vx e d a b noY

/-- vmul: a · b. -/
def execVmul (e : EngBits) (d a b : BitVec 4) (s : State) : Out := vecOp s .mul .vx e d a b noY

/-- vfma: a · b + d, one rounding. -/
def execVfma (e : EngBits) (d a b : BitVec 4) (s : State) : Out := vecOp s .fma .vx e d a b noY

/-- vmin: min(a, b) by R127. -/
def execVmin (e : EngBits) (d a b : BitVec 4) (s : State) : Out := vecOp s .min .vx e d a b noY

/-- vmax: max(a, b) by R127. -/
def execVmax (e : EngBits) (d a b : BitVec 4) (s : State) : Out := vecOp s .max .vx e d a b noY

/-- vabs: |a|. -/
def execVabs (e : EngBits) (d a : BitVec 4) (s : State) : Out := vecOp s .abs .vx e d a 0 noY

/-- vneg: −a. -/
def execVneg (e : EngBits) (d a : BitVec 4) (s : State) : Out := vecOp s .neg .vx e d a 0 noY

/-- vadd.y: a + y. -/
def execVaddY (e : EngBits) (d a b : BitVec 4) (s : State) : Out :=
  vecOp s .addY .vx e d a 0 (fun t => yr t b.toNat)

/-- vmul.y: a · y. -/
def execVmulY (e : EngBits) (d a b : BitVec 4) (s : State) : Out :=
  vecOp s .mulY .vx e d a 0 (fun t => yr t b.toNat)

/-- vfma.y: a · y + d, one rounding. -/
def execVfmaY (e : EngBits) (d a b : BitVec 4) (s : State) : Out :=
  vecOp s .fmaY .vx e d a 0 (fun t => yr t b.toNat)

/-- vmul.m: a · mb; mailboxes are m0 to m7 (R170, R176). -/
def execVmulM (e : EngBits) (d a b : BitVec 4) (s : State) : Out :=
  vecOp s .mulM .vx e d a 0 (fun t => mr t b.toNat)

/-- vmax.y: max(a, y) by R127. -/
def execVmaxY (e : EngBits) (d a b : BitVec 4) (s : State) : Out :=
  vecOp s .maxY .vx e d a 0 (fun t => yr t b.toNat)

/-- vmin.y: min(a, y) by R127. -/
def execVminY (e : EngBits) (d a b : BitVec 4) (s : State) : Out :=
  vecOp s .minY .vx e d a 0 (fun t => yr t b.toNat)

/-! ### Compare, select, logic and integer words, major 0x37 (R179) -/

/-- vceq: 1 where a = b. -/
def execVceq (e : EngBits) (d a b : BitVec 4) (s : State) : Out := vecOp s .ceq .vx e d a b noY

/-- vcne: 0 where a = b. -/
def execVcne (e : EngBits) (d a b : BitVec 4) (s : State) : Out := vecOp s .cne .vx e d a b noY

/-- vclt: 1 where a < b. -/
def execVclt (e : EngBits) (d a b : BitVec 4) (s : State) : Out := vecOp s .clt .vx e d a b noY

/-- vcle: 1 where a ≤ b. -/
def execVcle (e : EngBits) (d a b : BitVec 4) (s : State) : Out := vecOp s .cle .vx e d a b noY

/-- vsel: b where the mask a is not zero. -/
def execVsel (e : EngBits) (d a b : BitVec 4) (s : State) : Out := vecOp s .sel .vx e d a b noY

/-- vand. -/
def execVand (e : EngBits) (d a b : BitVec 4) (s : State) : Out := vecOp s .and .vx e d a b noY

/-- vor. -/
def execVor (e : EngBits) (d a b : BitVec 4) (s : State) : Out := vecOp s .or .vx e d a b noY

/-- vxor. -/
def execVxor (e : EngBits) (d a b : BitVec 4) (s : State) : Out := vecOp s .xor .vx e d a b noY

/-- vnot: complement. -/
def execVnot (e : EngBits) (d a : BitVec 4) (s : State) : Out := vecOp s .not .vx e d a 0 noY

/-- vshl: left shift by y. -/
def execVshl (e : EngBits) (d a b : BitVec 4) (s : State) : Out :=
  vecOp s .shl .vx e d a 0 (fun t => yr t b.toNat)

/-- vshr: logical right shift by y. -/
def execVshr (e : EngBits) (d a b : BitVec 4) (s : State) : Out :=
  vecOp s .shr .vx e d a 0 (fun t => yr t b.toNat)

/-- vsra: arithmetic right shift by y. -/
def execVsra (e : EngBits) (d a b : BitVec 4) (s : State) : Out :=
  vecOp s .sra .vx e d a 0 (fun t => yr t b.toNat)

/-- vaddsat: a + b saturated. -/
def execVaddsat (e : EngBits) (d a b : BitVec 4) (s : State) : Out := vecOp s .addsat .vx e d a b noY

/-- vsubsat: a − b saturated. -/
def execVsubsat (e : EngBits) (d a b : BitVec 4) (s : State) : Out := vecOp s .subsat .vx e d a b noY

/-- vmulhi: high half of the product. -/
def execVmulhi (e : EngBits) (d a b : BitVec 4) (s : State) : Out := vecOp s .mulhi .vx e d a b noY

/-- vclass: class codes. -/
def execVclass (e : EngBits) (d a : BitVec 4) (s : State) : Out := vecOp s .cls .vx e d a 0 noY

/-! ### Convert, move, fill, gather and split words, major 0x38 (R180-R188) -/

/-- vcvt (R180). -/
def execVcvt (e : EngBits) (d a : BitVec 4) (s : State) : Out := vecOp s .cvt .vcv e d a 0 noY

/-- vmov (R181). -/
def execVmov (e : EngBits) (d a : BitVec 4) (s : State) : Out := vecOp s .mov .vcv e d a 0 noY

/-- vfill.y: the value of yb in every element (R182). -/
def execVfillY (e : EngBits) (d b : BitVec 4) (s : State) : Out := vecOp s .fillY .vcv e d 0 0 (fun t => yr t b.toNat)

/-- vgath (R183). -/
def execVgath (e : EngBits) (d a b : BitVec 4) (s : State) : Out := vecOp s .gath .vcv e d a b noY

/-- vscat (R183). -/
def execVscat (e : EngBits) (d a b : BitVec 4) (s : State) : Out := vecOp s .scat .vcv e d a b noY

/-- vrng: TXN numbers of the generator (R186, R187). -/
def execVrng (e : EngBits) (d : BitVec 4) (s : State) : Out := vecOp s .rng .rng e d 0 0 noY

/-- vdrop (R186, R188). -/
def execVdrop (e : EngBits) (d a b : BitVec 4) (s : State) : Out :=
  vecOp s .drop .rng e d a 0 (fun t => yr t b.toNat)

/-- vsplit3 (R184). -/
def execVsplit3 (e : EngBits) (d a : BitVec 4) (s : State) : Out := vecOp s .split3 .vcv e d a 0 noY

/-- viota: element i := i (R182). -/
def execViota (e : EngBits) (d : BitVec 4) (s : State) : Out := vecOp s .iota .vcv e d 0 0 noY

end Sys2Proof.Machine
end

