-- ==== Sys2Proof/Machine/Reduce.lean ====
section
/-! DEFINITION. The reduction column, major 0x3A (08_vector R171, R172, R189-R191). -/

namespace Sys2Proof.Machine

/-! ### Trees and folds (R189) -/

/-- One level of the tree: neighbours are combined, a lone last node passes. -/
def treePass {β : Type} (f : β → β → β) : List β → List β
  | a :: b :: r => f a b :: treePass f r
  | l => l

/-- The tree over at most 32 present lanes. -/
def tree {β : Type} (f : β → β → β) (l : List β) : List β :=
  treePass f (treePass f (treePass f (treePass f (treePass f l))))

/-- Groups of 32. -/
def chunks {β : Type} (l : List β) : Nat → List (List β)
  | 0 => []
  | n + 1 => if l.isEmpty then [] else l.take 32 :: chunks (l.drop 32) n

/-- reduce() of R189: a left fold over the groups' trees. -/
def reduceAll {β : Type} (f : β → β → β) (l : List β) : Option β :=
  match (chunks l l.length).flatMap (fun c => tree f c) with
  | [] => none
  | x :: r => some (r.foldl f x)

/-- The inclusive prefix at element i (R191). -/
def prefixAt {β : Type} (f : β → β → β) (l : List β) (i : Nat) : Option β :=
  let k := i / 32
  match (tree f ((l.drop (32 * k)).take (i % 32 + 1))), reduceAll f (l.take (32 * k)) with
  | p :: _, some a => some (f a p)
  | p :: _, none => some p
  | [], _ => none

/-! ### Values (R189, R190) -/

/-- A partial result: an FP32 pattern, or an integer, with the flags met. -/
structure Part32 where
  v : Int
  flags : Nat
  deriving DecidableEq, Repr, Inhabited

/-- A floating comb. -/
def combF (f : Nat → Nat → Nat × Nat) (x y : Part32) : Part32 :=
  let (r, fl) := f x.v.toNat y.v.toNat
  ⟨(r : Int), x.flags ||| y.flags ||| (fl &&& streamMask)⟩

/-- An integer comb. -/
def combI (f : Int → Int → Int) (x y : Part32) : Part32 := ⟨f x.v y.v, 0⟩

/-- The combining step of a word (R190, R191). -/
def redComb (op : ROp) (floating : Bool) : Part32 → Part32 → Part32 :=
  match op, floating with
  | .max, true | .scanMax, true => combF (fpF32.minmax true)
  | .min, true => combF (fpF32.minmax false)
  | _, true => combF (fpF32.add .rne)
  | .max, false | .scanMax, false => combI (fun a b => if a < b then b else a)
  | .min, false => combI (fun a b => if b < a then b else a)
  | _, false => combI (fun a b => a + b)

/-- An element as FP32, converted as into an f32 stream with ovf = 0 (R189). -/
def enter32 (v : Val) : Nat × Nat := fpF32.ofVal .rne false v

/-- rne32 of an exact value as an f32 pattern, with the flags of a product (R189). -/
def rneF32 (v : Val) : Nat × Nat :=
  match v with
  | .nan s => (fpF32.canonNan, if s then fNv else 0)
  | .inf n => (fpF32.infPat n, 0)
  | .fin n m e => fpF32.scalarRound .rne n m 1 e

/-- The value with which element i enters the combination (R189, R190); the product of two elements of the log formats is that
of R76. -/
def redElem (op : ROp) (a b : Str) (rd : Nat → Byte) (i : Nat) : Part32 :=
  if a.fmt.cls = .floating then
    let x := enter32 (a.val rd i)
    let mulWith (y : Nat × Nat) : Part32 :=
      let (r, fl) := fpF32.mul .rne x.1 y.1
      ⟨(r : Int), (x.2 ||| y.2 ||| fl) &&& streamMask⟩
    let logMul (c : Str) : Part32 :=
      let (r, fl) := rneF32 (prodVal a c rd i i)
      ⟨(r : Int), fl &&& streamMask⟩
    match op with
    | .sumsq => if a.fmt.isLog then logMul a else mulWith x
    | .dot => if a.fmt.isLog && b.fmt.isLog then logMul b else mulWith (enter32 (b.val rd i))
    | _ => ⟨(x.1 : Int), x.2 &&& streamMask⟩
  else
    match op with
    | .sumsq => ⟨a.int rd i * a.int rd i, 0⟩
    | .dot => ⟨a.int rd i * b.int rd i, 0⟩
    | _ => ⟨a.int rd i, 0⟩

/-- The lowest index whose value is greatest, with NaNs passed over (R190). -/
def argmaxGo (less : Int → Int → Bool) (skip : Int → Bool) : List Part32 → Nat → Option (Nat × Int) → Option (Nat × Int)
  | [], _, best => best
  | p :: r, i, best =>
    let nb := if skip p.v then best
      else match best with
        | none => some (i, p.v)
        | some (j, w) => if less w p.v then some (i, p.v) else some (j, w)
    argmaxGo less skip r (i + 1) nb

/-- rargmax over the entered values. -/
def argmax (floating : Bool) (l : List Part32) : Nat :=
  let less (x y : Int) : Bool :=
    if floating then (fpF32.decode x.toNat).lessTotal (fpF32.decode y.toNat) else decide (x < y)
  let skip (x : Int) : Bool := floating && (fpF32.decode x.toNat).isNan
  match argmaxGo less skip l 0 none with
  | some (i, _) => i
  | none => 2 ^ 64 - 1

/-- Element i counts for rcnt: it is not ±0 (R190). -/
def countsOne (a : Str) (rd : Nat → Byte) (i : Nat) : Bool :=
  if a.fmt.cls = .floating then
    (match a.val rd i with
     | .fin _ m _ => decide (m ≠ 0)
     | _ => true)
  else decide (a.int rd i ≠ 0)

/-- The y result and flags of a reduction, from how each element of its stream reads (R190). -/
def redResult (op : ROp) (a b : Str) (rdOf : Nat → Nat → Byte) (n : Nat) : Word64 × Nat :=
  let fl := decide (a.fmt.cls = .floating)
  let es := (countUp 0 n).map (fun i => redElem op a b (rdOf i) i)
  match op with
  | .cnt => (w64 ((countUp 0 n).filter (fun i => countsOne a (rdOf i) i)).length, 0)
  | .argmax => (w64 (argmax fl es), es.foldl (fun x p => x ||| p.flags) 0)
  | _ =>
    match reduceAll (redComb op fl) es with
    | none => (0, 0)
    | some p =>
      if fl then (w64 p.v.toNat, p.flags)
      else if a.fmt.cls = .residue then (w64 (a.fmt.ofResidue p.v), 0)
      else (w64 (pat 64 p.v), 0)

/-! ### The words -/

def isScan (op : ROp) : Bool := [ROp.scanSum, .scanMax].contains op
def redReadsB (op : ROp) : Bool := decide (op = .dot)

/-- Streams d, a, b of a reduction word. -/
def redStrs (op : ROp) (e : QEntry) (d a b : BitVec 4) : List Str :=
  [if isScan op then strOf e.zs d.toNat else default, strOf e.zs a.toNat,
   if redReadsB op then strOf e.zs b.toNat else default]

def redDsts (op : ROp) (l : List Str) : List Str := if isScan op then [listAt default l 0] else []
def redSrcs (op : ROp) (l : List Str) : List Str :=
  listAt default l 1 :: (if redReadsB op then [listAt default l 2] else [])

/-- Head checks (R69, R171, R172). -/
def redHead (s : State) (op : ROp) (d a b : BitVec 4) (e : QEntry) : Chk :=
  let l := redStrs op e d a b
  let all := redDsts op l ++ redSrcs op l
  let sa := listAt default l 1
  let resOk := decide (op = .sum) || decide (op = .cnt)
  firstChk [headStreams s all, need (all.all (fun z => decide (z.count = sa.count))) 8,
    need (all.all (fun z => decide (z.fmt ≠ .e8)) && oneClass all && (resOk || decide (sa.fmt.cls ≠ .residue))) 8]

/-- The streams with their ring slots taken. -/
def redBound (s : State) (l : List Str) : List Str :=
  [(listAt default l 0).bind s.vc true, (listAt default l 1).bind s.vc false, (listAt default l 2).bind s.vc false]

/-- Issue checks (R154-R158). -/
def redCheck (s : State) (op : ROp) (d a b : BitVec 4) (e : QEntry) : Chk :=
  let l := redBound s (redStrs op e d a b)
  issueStreams s true (redDsts op l) (redSrcs op l)

/-- Start a reduction word: reads at I + g, completion at I + 6 + G (R190, R191). -/
def redStart (op : ROp) (d a b : BitVec 4) (e : QEntry) (toks : List Nat) (s : State) : State :=
  let l := redBound s (redStrs op e d a b)
  let sa := listAt default l 1
  let n := sa.count
  let w := lanes (redDsts op l ++ redSrcs op l)
  let acc (g : Nat) : Acc :=
    ⟨g, s.vc.now + g,
      (redSrcs op l).flatMap (fun z => z.reads (groupElems n w g))
        ++ (redDsts op l).flatMap (fun z => z.scaleReads (groupElems n w g)), []⟩
  addFlight s { flightOf s .rx e toks with
    done := some (s.vc.now + 6 + ceilDiv n w), accs := (countUp 0 (ceilDiv n w)).map acc, work := .red op, strs := l,
    y := if isScan op then none else some (d.toNat, 0), pops := ringsOf (redSrcs op l), pushes := ringsOf (redDsts op l) }

/-- A reduction word at the head of RX. -/
def redOp (s : State) (op : ROp) (e : EngBits) (d a b : BitVec 4) : Out :=
  issueWord s .rx e (redHead s op d a b) (redCheck s op d a b) 0 (some .rx) (fun q toks t => redStart op d a b q toks t)

/-- How element i of a word's streams reads: from the bytes of its own group. -/
def groupRd (f : Flight) (w : Nat) (i : Nat) : Nat → Byte := bufRd f.buf (i / w)

/-- The prefix at element i as it is written to zd (R191): code and flags. DESIGN CHOICE (log 49): a prefix of scan.max saturates in zd's
format, with ns. -/
def scanCode (f : Flight) (op : ROp) (w i : Nat) : Nat × Nat :=
  let z := strAt f 0
  let a := strAt f 1
  let fl := decide (a.fmt.cls = .floating)
  let es := (countUp 0 (i + 1)).map (fun j => redElem op a default (groupRd f w j) j)
  match prefixAt (redComb op fl) es i with
  | none => (0, 0)
  | some p =>
    if fl then
      let (c, g) := z.encode .rne (z.scaleByte (groupRd f w i) i) (fpF32.decode p.v.toNat)
      (c, p.flags ||| (g &&& streamMask))
    else if op = .scanMax then z.fmt.satInt p.v
    else (z.wrap p.v, 0)

/-- A reduction word has read a group (R190, R191): a scan's writes come eight beats after its reads; the last group of
a reduction gives the y result. -/
def redGroup (f : Flight) (op : ROp) (tag now : Nat) : Flight :=
  let n := (strAt f 1).count
  let w := lanes (redDsts op f.strs ++ redSrcs op f.strs)
  if 8192 ≤ tag then f
  else if isScan op then
    let cs := (groupElems n w tag).map (fun i => (i, scanCode f op w i))
    plan { f with flags := f.flags ||| flagsOf (cs.map (fun p => p.2)) }
      ⟨writeTag tag, now + 8, [], cs.flatMap (fun p => (strAt f 0).put p.1 p.2.1)⟩
  else if tag + 1 = ceilDiv n w then
    let (y, fl) := redResult op (strAt f 1) (strAt f 2) (groupRd f w) n
    { f with flags := f.flags ||| fl, y := f.y.map (fun p => (p.1, y)) }
  else f

/-- rsum: the sum into yd (R190). -/
def execRsum (e : EngBits) (d a : BitVec 4) (s : State) : Out := redOp s .sum e d a 0

/-- rmax: the maximum (R190). -/
def execRmax (e : EngBits) (d a : BitVec 4) (s : State) : Out := redOp s .max e d a 0

/-- rmin: the minimum (R190). -/
def execRmin (e : EngBits) (d a : BitVec 4) (s : State) : Out := redOp s .min e d a 0

/-- rsumsq: the sum of squares (R190). -/
def execRsumsq (e : EngBits) (d a : BitVec 4) (s : State) : Out := redOp s .sumsq e d a 0

/-- scan.sum: inclusive prefix sums (R191). -/
def execScanSum (e : EngBits) (d a : BitVec 4) (s : State) : Out := redOp s .scanSum e d a 0

/-- scan.max: inclusive prefix maxima (R191). -/
def execScanMax (e : EngBits) (d a : BitVec 4) (s : State) : Out := redOp s .scanMax e d a 0

/-- rdot: the dot product (R190). -/
def execRdot (e : EngBits) (d a b : BitVec 4) (s : State) : Out := redOp s .dot e d a b

/-- rargmax: the lowest index of the greatest element (R190). -/
def execRargmax (e : EngBits) (d a : BitVec 4) (s : State) : Out := redOp s .argmax e d a 0

/-- rcnt: the count of elements that are not zero (R190). -/
def execRcnt (e : EngBits) (d a : BitVec 4) (s : State) : Out := redOp s .cnt e d a 0

end Sys2Proof.Machine
end

