-- ==== Sys2Proof/Machine/Special.lean ====
section
/-! DEFINITION. The nine special functions as numbers: the frozen tables and their interpolation, the exact value, and
the polynomial of the exact unit (10_functions R213-R219). Real values are computed in fixed point with 288 fraction
bits; a value that is not exact carries a sticky bit below them. -/

namespace Sys2Proof.Machine

/-! ### Fixed-point reals -/

/-- Fraction bits of the fixed-point reals. -/
def fxBits : Nat := 288
/-- 1 in fixed point. -/
def fxOne : Nat := 2 ^ fxBits

/-- Σ 1/(k·2^k), k from `k` on: ln 2. -/
def ln2Go : Nat → Nat → Nat
  | 0, _ => 0
  | n + 1, k => fxOne / (k * 2 ^ k) + ln2Go n (k + 1)
/-- ln 2 in fixed point. -/
def fxLn2 : Nat := ln2Go 300 1

/-- Σ (−1)^j x^(2j+1)/(2j+1) for x = 1/d: arctan(1/d). -/
def atanGo (d : Nat) : Nat → Nat → Nat → Int
  | 0, _, _ => 0
  | n + 1, j, p => (p / (2 * j + 1) : Nat) - atanGo d n (j + 1) (p / (d * d))
/-- π in fixed point, by Machin's formula. -/
def fxPi : Int := 16 * atanGo 5 130 0 (fxOne / 5) - 4 * atanGo 239 40 0 (fxOne / 239)

/-- Σ t·x^j/j! from term `t` (index k) on. -/
def expGo (x : Int) : Nat → Nat → Int → Int
  | 0, _, _ => 0
  | n + 1, k, t => t + expGo x n (k + 1) (t * x / (fxOne : Int) / (k + 1 : Nat))
/-- e^x for 0 ≤ x < 1 in fixed point. -/
def fxExp (x : Int) : Int := expGo x 80 0 fxOne

/-- Σ of z^(2j+1)/(2j+1) with p = z^(2j+1). -/
def atanhGo (z2 : Int) : Nat → Nat → Int → Int
  | 0, _, _ => 0
  | n + 1, j, p => p / (2 * j + 1 : Nat) + atanhGo z2 n (j + 1) (p * z2 / (fxOne : Int))
/-- log2(1 + u) for 0 ≤ u ≤ 1 in fixed point. -/
def fxLog2 (u : Int) : Int :=
  let z := u * fxOne / (2 * (fxOne : Int) + u)
  2 * atanhGo (z * z / (fxOne : Int)) 100 0 z * fxOne / fxLn2

/-- Alternating series of sine (start with p = x, k = 1) or cosine (p = 1, k = 0). -/
def sinGo (x2 : Int) : Nat → Nat → Int → Int
  | 0, _, _ => 0
  | n + 1, k, p => p - sinGo x2 n (k + 2) (p * x2 / (fxOne : Int) / ((k + 1) * (k + 2) : Nat))
/-- sin x and cos x for 0 ≤ x ≤ π/2 in fixed point. -/
def fxSin (x : Int) : Int := sinGo (x * x / (fxOne : Int)) 50 1 x
def fxCos (x : Int) : Int := sinGo (x * x / (fxOne : Int)) 50 0 fxOne

/-- A fixed-point magnitude times 2^e, not exact: a sticky bit stands below it. -/
def sticky (neg : Bool) (v : Int) (e : Int) : Val := .fin neg (2 * v.toNat + 1) (e - fxBits - 1)

/-! ### Dyadic operands -/

/-- An operand m/2^k, with its sign in m. -/
structure Dyad where
  m : Int
  k : Nat
  deriving DecidableEq, Repr, Inhabited

/-- A finite value as a dyadic number. -/
def dyadOf (neg : Bool) (m : Nat) (e : Int) : Dyad :=
  let s : Int := if neg then -(m : Int) else m
  if 0 ≤ e then ⟨s * (2 ^ e.toNat : Nat), 0⟩ else ⟨s, (-e).toNat⟩

/-- floor, and the fraction that it leaves. -/
def Dyad.floor (d : Dyad) : Int := d.m / (2 ^ d.k : Nat)
def Dyad.frac (d : Dyad) : Dyad := ⟨d.m - d.floor * (2 ^ d.k : Nat), d.k⟩
/-- In fixed point, truncated. -/
def Dyad.fx (d : Dyad) : Int := d.m * fxOne / (2 ^ d.k : Nat)
/-- The exact value. -/
def Dyad.val (d : Dyad) : Val := .fin (decide (d.m < 0)) d.m.natAbs (-(d.k : Int))
/-- The dyadic number half as large. -/
def Dyad.half (d : Dyad) : Dyad := ⟨d.m, d.k + 1⟩
/-- x + 1/2. -/
def Dyad.addHalf (d : Dyad) : Dyad := if d.k = 0 then ⟨2 * d.m + 1, 1⟩ else ⟨d.m + (2 ^ (d.k - 1) : Nat), d.k⟩

/-- x = 2^e·(1 + u) for x > 0: e and u (R216). -/
def splitPow (d : Dyad) : Int × Dyad :=
  let n := d.m.natAbs
  let l := Nat.log2 n
  ((l : Int) - d.k, ⟨(n : Int) - (2 ^ l : Nat), l⟩)

/-- x = 4^k·v with 1 ≤ v < 4: k and v (R216). -/
def splitFour (d : Dyad) : Int × Dyad :=
  let (e, u) := splitPow d
  let k := e / 2
  let one : Dyad := ⟨u.m + (2 ^ u.k : Nat), u.k⟩
  (k, if e % 2 = 1 then ⟨2 * one.m, one.k⟩ else one)

/-- The reduction of sinpi (R216): σ is −1, and u. -/
def sinReduce (d : Dyad) : Bool × Dyad :=
  let two : Int := 2 * (2 ^ d.k : Nat)
  let t := d.m % two
  let neg := decide ((2 ^ d.k : Nat) ≤ t)
  let t1 := if neg then t - (2 ^ d.k : Nat) else t
  let t2 := if (2 ^ d.k : Nat) < 2 * t1 then (2 ^ d.k : Nat) - t1 else t1
  (neg, ⟨2 * t2, d.k⟩)

/-! ### The frozen tables (R215) -/

/-- The functions tabulated. -/
inductive Tab where
  | exp2 | log2 | rcp | rsqrt | sqrt | sin | tanh
  deriving DecidableEq, Repr, Inhabited

/-- Node a_i as num/256 (R215). -/
def nodeNum (t : Tab) (i : Nat) : Nat :=
  match t with
  | .rsqrt | .sqrt => if i ≤ 128 then 256 + 2 * i else 512 + 4 * (i - 128)
  | _ => i

/-- tanh x for a dyadic x ≥ 0 in fixed point, by e^(−2x). -/
def fxTanh (x : Int) : Int :=
  let y := 2 * x
  let n := y / fxLn2
  let r := fxExp (y - n * fxLn2)
  let ex := (fxOne : Int) * fxOne / r / (2 ^ (Nat.min n.toNat 2000) : Nat)
  (fxOne - ex) * fxOne / (fxOne + ex)

/-- f at node i in fixed point (R215). -/
def nodeVal (t : Tab) (i : Nat) : Int :=
  let a := nodeNum t i
  let ax : Int := (a : Int) * fxOne / 256
  match t with
  | .exp2 => fxExp (ax * fxLn2 / fxOne)
  | .log2 => fxLog2 ax
  | .rcp => (fxOne : Int) * 256 / (256 + a : Nat)
  | .rsqrt => (isqrt (fxOne * fxOne * 256 / a) : Nat)
  | .sqrt => (isqrt (fxOne * fxOne * a / 256) : Nat)
  | .sin => fxSin (ax * fxPi / (2 * (fxOne : Int)))
  | .tanh => fxTanh (8 * ax)

/-- RNE of a fixed-point value times 2^27, for values that are no tie. -/
def rne27 (v : Int) : Int := (v + (2 ^ (fxBits - 28) : Nat)) / (2 ^ (fxBits - 27) : Nat)

/-- c0 and c1 of entry i (R215). -/
def tabC0 (t : Tab) (i : Nat) : Int := rne27 (nodeVal t i)
def tabC1 (t : Tab) (i : Nat) : Int := rne27 (nodeVal t (i + 1) - nodeVal t i)

/-- Index and offset of a table argument: i, and 2^24·(s − floor s) kept exactly as a dyadic s (R216). -/
def tabIndex (t : Tab) (d : Dyad) : Nat × Dyad :=
  match t with
  | .rsqrt | .sqrt =>
    let p := if 2 * (2 ^ d.k : Nat) ≤ d.m then 1 else 0
    -- s = 128·w with v = 2^p·(1 + w)
    let s : Dyad := ⟨128 * (d.m - (2 ^ (d.k + p) : Nat)), d.k + p⟩
    (128 * p + s.floor.toNat, s.frac)
  | _ =>
    let s : Dyad := ⟨256 * d.m, d.k⟩
    (s.floor.toNat, s.frac)

/-- interp of R216: g, exactly. -/
def interp (t : Tab) (d : Dyad) : Dyad :=
  let (i, f) := tabIndex t d
  let delta := f.m * 65536 / (2 ^ f.k : Nat)
  ⟨tabC0 t i * 65536 + tabC1 t i * delta, 43⟩

/-! ### Special operands (R214) -/

/-- R214: the value of a special operand, none for the others. A NaN result of an invalid operation is signalling, so
that its conversion sets nv. -/
def fnSpecial (f : Fn) (x : Val) : Option Val :=
  let one : Val := .fin false 1 0
  match x with
  | .nan s => some (.nan s)
  | .inf n =>
    (match f with
     | .exp2 => some (if n then .fin false 0 0 else .inf false)
     | .log2 | .sqrt => some (if n then .nan true else .inf false)
     | .rcp => some (.fin n 0 0)
     | .rsqrt => some (if n then .nan true else .fin false 0 0)
     | .sinpi | .cospi => some (.nan true)
     | .tanh => some (.fin n 1 0)
     | .logistic => some (if n then .fin false 0 0 else one))
  | .fin n m _ =>
    if m = 0 then
      (match f with
       | .exp2 => some one
       | .log2 => some (.inf true)
       | .rcp | .rsqrt => some (.inf n)
       | .sqrt | .sinpi | .tanh => some (.fin n 0 0)
       | .cospi => some one
       | .logistic => some (.fin false 1 (-1)))
    else if n then
      (match f with
       | .log2 | .rsqrt | .sqrt => some (.nan true)
       | _ => none)
    else none

/-- An exponent kept within the range that any format can tell apart. -/
def clampExp (n : Int) : Int := if n < -5000 then -5000 else if 5000 < n then 5000 else n

/-! ### FX: reduction and interpolation (R216) -/

/-- The FX tanh of a dyadic number, exactly (R216). -/
def sfTanh (d : Dyad) : Dyad :=
  let n : Dyad := ⟨d.m.natAbs, d.k + 3⟩
  let g := if (2 ^ n.k : Nat) ≤ n.m then (⟨2 ^ 43, 43⟩ : Dyad) else interp .tanh n
  ⟨if d.m < 0 then -g.m else g.m, g.k⟩

/-- A value's sign applied to a magnitude. -/
def signVal (neg : Bool) (d : Dyad) (e : Int) : Val := .fin neg d.m.natAbs (e - d.k)

/-- The FX result r of a finite operand that is not special (R216). -/
def sfValue (f : Fn) (neg : Bool) (m : Nat) (e : Int) : Val :=
  let d := dyadOf neg m e
  match f with
  | .exp2 => signVal false (interp .exp2 d.frac) (clampExp d.floor)
  | .log2 =>
    let (x, u) := splitPow d
    let g := interp .log2 u
    Dyad.val ⟨x * (2 ^ g.k : Nat) + g.m, g.k⟩
  | .rcp =>
    let (x, u) := splitPow d
    signVal neg (interp .rcp u) (-x)
  | .rsqrt =>
    let (k, v) := splitFour d
    signVal false (interp .rsqrt v) (-k)
  | .sqrt =>
    let (k, v) := splitFour d
    signVal false (interp .sqrt v) k
  | .sinpi | .cospi =>
    let (sg, u) := sinReduce (if f = .cospi then d.addHalf else d)
    if u.m = 0 then .fin false 0 0
    else if u.m = (2 ^ u.k : Nat) then .fin sg 1 0
    else signVal sg (interp .sin u) 0
  | .tanh =>
    let t := sfTanh d
    .fin neg t.m.natAbs (-(t.k : Int))
  | .logistic =>
    let t := sfTanh d.half
    Dyad.val ⟨(2 ^ t.k : Nat) + t.m, t.k + 1⟩

/-! ### The exact value (R218) -/

/-- e^x = (fixed-point value in [1, 2))·2^n for fixed-point x. -/
def expRel (x : Int) : Int × Int :=
  let n := x / (fxLn2 : Int)
  (fxExp (x - n * fxLn2), n)

/-- Just below a magnitude m·2^e. -/
def justBelow (neg : Bool) (m : Nat) (e : Int) : Val := .fin neg (m * 2 ^ 80 - 1) (e - 80)

/-- E/(1 + E) for E = v·2^n, fixed-point v in [1, 2), n < 0. -/
def logisticTail (v n : Int) : Val :=
  if n < -400 then justBelow false v.toNat (clampExp n - fxBits)
  else
    let big := v.toNat * 2 ^ fxBits
    let den := fxOne * 2 ^ (-n).toNat + v.toNat
    .fin false (2 * (big / den) + 1) (-(fxBits : Int) - 1)

/-- The exact mathematical value of a finite operand that is not special: exact, or with a sticky bit (R218). Powers of two at eighths may
lie on a boundary of R83. DESIGN CHOICE (log 85): those below 1 count as above it, so that the lowest boundary gives the least code, and
those above 1 as not above it. -/
def efExact (f : Fn) (neg : Bool) (m : Nat) (e : Int) : Val :=
  let d := dyadOf neg m e
  match f with
  | .exp2 =>
    let v := fxExp (d.frac.fx * fxLn2 / fxOne)
    if d.frac.m = 0 then .fin false 1 (clampExp d.floor)
    else if d.m < 0 ∧ 8 * d.m % (2 ^ d.k : Nat) = 0 then sticky false (v + 2 ^ 20) (clampExp d.floor)
    else sticky false v (clampExp d.floor)
  | .log2 =>
    let (x, u) := splitPow d
    if u.m = 0 then .fin (decide (x < 0)) x.natAbs 0
    else
      let r := x * fxOne + fxLog2 u.fx
      sticky (decide (r < 0)) r.natAbs 0
  | .rcp =>
    let q := 2 ^ (fxBits + Nat.log2 m)
    .fin neg (2 * (q / m) + (if q % m = 0 then 0 else 1)) (-(fxBits : Int) - Nat.log2 m - 1 - e)
  | .rsqrt =>
    let (k, v) := splitFour d
    let n := fxOne * fxOne * 2 ^ v.k
    let s := isqrt (n / v.m.toNat)
    .fin false (2 * s + (if s * s * v.m.toNat = n then 0 else 1)) (-(fxBits : Int) - 1 - k)
  | .sqrt =>
    let (s, x) := sqrtSticky 256 m e
    .fin false s x
  | .sinpi | .cospi =>
    let (sg, u) := sinReduce (if f = .cospi then d.addHalf else d)
    if u.m = 0 then .fin false 0 0
    else if u.m = (2 ^ u.k : Nat) then .fin sg 1 0
    else if 64 * u.m < (2 ^ u.k : Nat) ∧ 100 < u.k - Nat.log2 u.m.natAbs then
      -- sin(θ) just below θ = u·π/2
      justBelow sg (u.m.natAbs * fxPi.toNat) (-(u.k : Int) - fxBits - 1)
    else sticky sg (min (fxSin (u.fx * fxPi / (2 * (fxOne : Int)))) (fxOne - 1)) 0
  | .tanh =>
    if (e + Nat.log2 m : Int) < -60 then justBelow neg m e
    else if 5 < (e + Nat.log2 m : Int) then justBelow neg 1 0
    else sticky neg (fxTanh (d.fx.natAbs : Int)) 0
  | .logistic =>
    if 12 < (e + Nat.log2 m : Int) then (if neg then logisticTail fxOne (-5000) else justBelow false 1 0)
    else if !neg && decide (6 < (e + Nat.log2 m : Int)) then justBelow false 1 0
    else
      let x : Int := d.fx
      if x < 0 then
        let (v, n) := expRel x
        if n < 0 then logisticTail v n else sticky false (v * fxOne / (v + fxOne)) 0
      else
        let (v, n) := expRel (-x)
        let ex := if n < 0 then v / (2 ^ (Nat.min (-n).toNat 2000) : Nat) else v
        sticky false ((fxOne : Int) * fxOne / (fxOne + ex)) 0

/-! ### FP32 results of the exact unit (R219) -/

/-- rne32 of a fixed-point value that is exact or no tie. -/
def fx32 (v : Int) : Val := fpF32.decode (f32OfFin (decide (v < 0)) v.natAbs (-(fxBits : Int)))

/-- rne32 of an exact value. -/
def rne32 (v : Val) : Val :=
  match v with
  | .fin n m e => fpF32.decode (if m = 0 then fpF32.pack n 0 0 else f32OfFin n m e)
  | x => x

/-- c_k[i] = rne32(f^(k)(a_i)/k!) (R219). -/
def polyC (t : Tab) (k i : Nat) : Val :=
  let a := nodeNum t i
  let one : Int := fxOne
  let mulx (x y : Int) : Int := x * y / one
  let v := nodeVal t i
  match t with
  | .exp2 =>
    let c := (countUp 1 k).foldl (fun (x : Int) j => mulx x fxLn2 / (j : Nat)) one
    fx32 (mulx v c)
  | .log2 =>
    if k = 0 then fx32 v
    else
      let inv := (countUp 0 k).foldl (fun (x : Int) _ => x * 256 / (256 + a : Nat)) (one * one / fxLn2)
      fx32 ((if k % 2 = 1 then inv else -inv) / (k : Nat))
  | .rcp =>
    let inv := (countUp 0 (k + 1)).foldl (fun (x : Int) _ => x * 256 / (256 + a : Nat)) one
    fx32 (if k % 2 = 0 then inv else -inv)
  | .rsqrt | .sqrt =>
    -- binomial(±1/2, k)·a^(±1/2 − k)
    let step (x : Int) (j : Nat) : Int :=
      let num : Int := if t = .sqrt then 1 - 2 * (j : Int) else -1 - 2 * (j : Int)
      x * num * 256 / (2 * (j + 1) * a : Nat)
    fx32 ((countUp 0 k).foldl step v)
  | .sin =>
    let th := (a : Int) * fxPi / 512
    let base := match k % 4 with
      | 0 => fxSin th
      | 1 => fxCos th
      | 2 => -fxSin th
      | _ => -fxCos th
    fx32 ((countUp 1 k).foldl (fun (x : Int) j => mulx x (fxPi / 2) / (j : Nat)) base)
  | .tanh =>
    let s := one - mulx v v
    let dk := match k with
      | 0 => v
      | 1 => s
      | 2 => -2 * mulx v s
      | 3 => mulx s (6 * mulx v v - 2 * one)
      | _ => mulx s (16 * v - 24 * mulx v (mulx v v))
    let fact : Nat := match k with
      | 0 => 1
      | 1 => 1
      | 2 => 2
      | 3 => 6
      | _ => 24
    fx32 (dk * (8 ^ k : Nat) / (fact : Int))

/-- The polynomial of R219 at a table argument. -/
def poly (t : Tab) (d : Dyad) : Val :=
  let (i, f) := tabIndex t d
  let a := nodeNum t i
  -- h = argument − a_i, exactly
  let h : Val := Dyad.val ⟨256 * d.m - (a : Int) * (2 ^ d.k : Nat), d.k + 8⟩
  let stepP (p : Val) (k : Nat) : Val := rne32 (Val.add .rne (p.mul h) (polyC t k i))
  if f.m < 0 then .nan false else stepP (stepP (stepP (stepP (polyC t 4 i) 3) 2) 1) 0

/-- The exact unit's FP32 tanh of a dyadic number (R219). -/
def ef32Tanh (neg : Bool) (d : Dyad) : Val :=
  let n : Dyad := ⟨d.m.natAbs, d.k + 3⟩
  let p : Val := if (2 ^ n.k : Nat) ≤ n.m then .fin false 1 0 else poly .tanh n
  if neg then p.neg else p

/-- The exact unit's FP32 exp2 before its conversion (R219). -/
def ef32Exp2 (d : Dyad) : Val := (poly .exp2 d.frac).scale (clampExp d.floor)

/-- A finite value's dyadic number. -/
def Val.dyad : Val → Dyad
  | .fin n m e => dyadOf n m e
  | _ => ⟨0, 0⟩

/-- x/y rounded to FP32. -/
def div32 (x y : Val) : Val :=
  match x, y with
  | .fin n1 m1 e1, .fin n2 m2 e2 =>
    if m2 = 0 then .nan false else fpF32.decode ((fpF32.scalarRound .rne (n1 != n2) m1 m2 (e1 - e2)).1)
  | _, _ => .nan false

/-- The result r of the exact unit for an f32 destination (R219). -/
def ef32Value (f : Fn) (neg : Bool) (m : Nat) (e : Int) : Val :=
  let d := dyadOf neg m e
  match f with
  | .exp2 => ef32Exp2 d
  | .log2 =>
    let (x, u) := splitPow d
    rne32 (Val.add .rne (.fin (decide (x < 0)) x.natAbs 0) (poly .log2 u))
  | .rcp =>
    let (x, u) := splitPow d
    let r := (poly .rcp u).scale (-x)
    if neg then r.neg else r
  | .rsqrt =>
    let (k, v) := splitFour d
    (poly .rsqrt v).scale (-k)
  | .sqrt =>
    let (k, v) := splitFour d
    (poly .sqrt v).scale k
  | .sinpi | .cospi =>
    let (sg, u) := sinReduce (if f = .cospi then d.addHalf else d)
    if u.m = 0 then .fin false 0 0
    else
      let p : Val := if u.m = (2 ^ u.k : Nat) then .fin false 1 0 else poly .sin u
      if sg then p.neg else p
  | .tanh => ef32Tanh neg d
  | .logistic =>
    if !neg then rne32 (Val.add .rne ((ef32Tanh neg d.half).scale (-1)) (.fin false 1 (-1)))
    else
      let y := rne32 ((Dyad.val ⟨-d.m, d.k⟩).mul (fpF32.decode 0x3FB8AA3B))
      match y with
      | .fin _ _ _ =>
        let dd := rne32 (ef32Exp2 y.neg.dyad)
        div32 dd (rne32 (Val.add .rne (.fin false 1 0) dd))
      | _ => .fin false 0 0  -- y has overflowed: exp2(−∞) is +0

/-- The result of a function word's element: FX, or the exact unit for a destination format (R213-R219). -/
def fnValue (exact : Bool) (dst : Fmt) (f : Fn) (x : Val) : Val :=
  match fnSpecial f x with
  | some r => r
  | none =>
    match x with
    | .fin n m e => if !exact then sfValue f n m e else if dst = .f32 then ef32Value f n m e else efExact f n m e
    | y => y

end Sys2Proof.Machine
end

