-- ==== Sys2Proof/Machine/Functions.lean ====
section
/-! DEFINITION. The function words, major 0x39: FX and the cluster's exact unit (10_functions R212, R213, R217, R220). -/

namespace Sys2Proof.Machine

/-- Streams d and a of a function word. -/
def fnStrs (e : QEntry) (d a : BitVec 4) : List Str := [strOf e.zs d.toNat, strOf e.zs a.toNat]

/-- Head checks (R69, R212). -/
def fnHead (s : State) (d a : BitVec 4) (e : QEntry) : Chk :=
  let l := fnStrs e d a
  let z := listAt default l 0
  let x := listAt default l 1
  firstChk [headStreams s l, need (decide (z.count = x.count)) 8,
    need (decide (z.fmt.cls = .floating) && decide (x.fmt.cls = .floating)) 8]

/-- The streams with their ring slots taken. -/
def fnBound (s : State) (l : List Str) : List Str :=
  [(listAt default l 0).bind s.vc true, (listAt default l 1).bind s.vc false]

/-- A word of the exact unit in flight. -/
def efHeld (v : VC) : Bool :=
  v.eng.flights.any (fun f => match f.work with
    | .ef _ => !f.ended
    | _ => false)

/-- Issue checks (R154-R158), and the hold of the exact unit (R220). -/
def fnCheck (s : State) (exact : Bool) (d a : BitVec 4) (e : QEntry) : Chk :=
  let l := fnBound s (fnStrs e d a)
  firstChk [issueStreams s true (l.take 1) (l.drop 1), await (!(exact && efHeld s.vc)) 0x1D]

/-- Elements of a group: L of R174, or 32 for the exact unit (R217, R220). -/
def fnLanes (exact : Bool) (l : List Str) : Nat := if exact then 32 else lanes l

/-- Start a function word: reads at I + g; completion at I + 5 + G, or I + 16G + 8 (R217, R220). -/
def fnStart (exact : Bool) (f : Fn) (d a : BitVec 4) (e : QEntry) (toks : List Nat) (s : State) : State :=
  let l := fnBound s (fnStrs e d a)
  let z := listAt default l 0
  let x := listAt default l 1
  let n := z.count
  let w := fnLanes exact l
  let g := ceilDiv n w
  let acc (k : Nat) : Acc :=
    ⟨k, s.vc.now + k, x.reads (groupElems n w k) ++ z.scaleReads (groupElems n w k), []⟩
  addFlight s { flightOf s .fx e toks with
    done := some (s.vc.now + (if exact then 16 * g + 8 else 5 + g)), accs := (countUp 0 g).map acc,
    work := if exact then .ef f else .sf f, strs := l, pops := ringsOf [x], pushes := ringsOf [z] }

/-- A function word at the head of FX. -/
def fnOp (s : State) (exact : Bool) (f : Fn) (e : EngBits) (d a : BitVec 4) : Out :=
  issueWord s .fx e (fnHead s d a) (fnCheck s exact d a) 0 (some (if exact then .ef else .fx))
    (fun q toks t => fnStart exact f d a q toks t)

/-- A function word has read group `tag` (R213): it writes it at I + 6 + g, or at I + 16g + 24 (R217, R220). -/
def fnGroup (fl : Flight) (exact : Bool) (f : Fn) (tag now : Nat) : Flight :=
  if 8192 ≤ tag then fl
  else
    let z := strAt fl 0
    let x := strAt fl 1
    let w := fnLanes exact fl.strs
    let rd := bufRd fl.buf tag
    let cs := (groupElems z.count w tag).map (fun i =>
      (i, z.encode .rne (z.scaleByte rd i) (fnValue exact z.fmt f (x.val rd i))))
    plan { fl with flags := fl.flags ||| (flagsOf (cs.map (fun p => p.2)) &&& streamMask) }
      ⟨writeTag tag, now + (if exact then 15 * tag + 24 else 6), [], cs.flatMap (fun p => z.put p.1 p.2.1)⟩

/-- sf.exp2: exp2 on FX (R216). -/
def execSfExp2 (e : EngBits) (d a : BitVec 4) (s : State) : Out := fnOp s false .exp2 e d a

/-- sf.log2: log2 on FX (R216). -/
def execSfLog2 (e : EngBits) (d a : BitVec 4) (s : State) : Out := fnOp s false .log2 e d a

/-- sf.rcp: rcp on FX (R216). -/
def execSfRcp (e : EngBits) (d a : BitVec 4) (s : State) : Out := fnOp s false .rcp e d a

/-- sf.rsqrt: rsqrt on FX (R216). -/
def execSfRsqrt (e : EngBits) (d a : BitVec 4) (s : State) : Out := fnOp s false .rsqrt e d a

/-- sf.sqrt: sqrt on FX (R216). -/
def execSfSqrt (e : EngBits) (d a : BitVec 4) (s : State) : Out := fnOp s false .sqrt e d a

/-- sf.sinpi: sinpi on FX (R216). -/
def execSfSinpi (e : EngBits) (d a : BitVec 4) (s : State) : Out := fnOp s false .sinpi e d a

/-- sf.cospi: cospi on FX (R216). -/
def execSfCospi (e : EngBits) (d a : BitVec 4) (s : State) : Out := fnOp s false .cospi e d a

/-- sf.tanh: tanh on FX (R216). -/
def execSfTanh (e : EngBits) (d a : BitVec 4) (s : State) : Out := fnOp s false .tanh e d a

/-- sf.logistic: logistic on FX (R216). -/
def execSfLogistic (e : EngBits) (d a : BitVec 4) (s : State) : Out := fnOp s false .logistic e d a

/-- ef.exp2: exp2 on the exact unit (R218, R219). -/
def execEfExp2 (e : EngBits) (d a : BitVec 4) (s : State) : Out := fnOp s true .exp2 e d a

/-- ef.log2: log2 on the exact unit (R218, R219). -/
def execEfLog2 (e : EngBits) (d a : BitVec 4) (s : State) : Out := fnOp s true .log2 e d a

/-- ef.rcp: rcp on the exact unit (R218, R219). -/
def execEfRcp (e : EngBits) (d a : BitVec 4) (s : State) : Out := fnOp s true .rcp e d a

/-- ef.rsqrt: rsqrt on the exact unit (R218, R219). -/
def execEfRsqrt (e : EngBits) (d a : BitVec 4) (s : State) : Out := fnOp s true .rsqrt e d a

/-- ef.sqrt: sqrt on the exact unit (R218, R219). -/
def execEfSqrt (e : EngBits) (d a : BitVec 4) (s : State) : Out := fnOp s true .sqrt e d a

/-- ef.sinpi: sinpi on the exact unit (R218, R219). -/
def execEfSinpi (e : EngBits) (d a : BitVec 4) (s : State) : Out := fnOp s true .sinpi e d a

/-- ef.cospi: cospi on the exact unit (R218, R219). -/
def execEfCospi (e : EngBits) (d a : BitVec 4) (s : State) : Out := fnOp s true .cospi e d a

/-- ef.tanh: tanh on the exact unit (R218, R219). -/
def execEfTanh (e : EngBits) (d a : BitVec 4) (s : State) : Out := fnOp s true .tanh e d a

/-- ef.logistic: logistic on the exact unit (R218, R219). -/
def execEfLogistic (e : EngBits) (d a : BitVec 4) (s : State) : Out := fnOp s true .logistic e d a

end Sys2Proof.Machine
end

