-- ==== Sys2Proof/Machine/Matrix.lean ====
section
/-! DEFINITION. The matrix array, tiles and their parameter blocks, majors 0x34 and 0x35 (09_matrix R194-R211). -/

namespace Sys2Proof.Machine

/-! ### Tiles and blocks (R194, R195) -/

/-- Offset of tile element e = 16r + c in the window. -/
def tileAt (t e : Nat) : Nat := tileOff + 0x400 * t + 4 * e
/-- Offset of word w of a tile's parameter block. -/
def tpbAt (t w : Nat) : Nat := tpbOff + 64 * t + 8 * w
/-- A parameter-block word. -/
def VC.tpb (v : VC) (t w : Nat) : Word64 := w64 (leNat (mgets 0 v.chip (tpbAt t w) 8))
/-- A tile element's pattern. -/
def VC.tileElem (v : VC) (t e : Nat) : Nat := leNat (mgets 0 v.chip (tileAt t e) 4)

/-! ### Operands of an MMA (R197-R199, R205) -/

/-- Kseg of a pair of formats (R197). -/
def kseg (a b : Fmt) : Option Nat :=
  let h (f : Fmt) : Bool := decide (f = .bf16) || decide (f = .f16)
  let q (f : Fmt) : Bool := decide (f = .e4m3) || decide (f = .e5m2)
  if h a && h b then some 16
  else if q a && q b then some 32
  else if decide (a = .l4) && decide (b = .l4) then some 128
  else if (decide (a = .l6) || decide (a = .l4)) && (decide (b = .l6) || decide (b = .l4)) then some 64
  else none

/-- A format code of a block, f32 for a code that R61 does not list. -/
def fmtOr (n : Nat) : Fmt :=
  match Fmt.ofCode n with
  | some f => f
  | none => .f32

/-- The formats, Kseg, segments, window and N that a block gives. -/
def MmaCfg.fa (c : MmaCfg) : Fmt := fmtOr (fld c.w0 4 0)
def MmaCfg.fb (c : MmaCfg) : Fmt := fmtOr (fld c.w0 9 5)
def MmaCfg.kseg (c : MmaCfg) : Nat :=
  match Sys2Proof.Machine.kseg c.fa c.fb with
  | some k => k
  | none => 0
def MmaCfg.n (c : MmaCfg) : Nat := fld c.w0 19 16 + 1
def MmaCfg.window (c : MmaCfg) : Nat := 24 + 8 * fld c.w0 22 20
def MmaCfg.nz (c : MmaCfg) : Nat := if fld c.w0 23 23 = 1 then 4 else 8
/-- Ks and Kl of R198. -/
def MmaCfg.ks (c : MmaCfg) : Nat := c.kseg * c.n
def MmaCfg.kl (c : MmaCfg) : Nat := if c.sparse then c.ks * 16 / c.nz else c.ks

/-- An operand slot as a stream of contiguous elements with its scales (R198, R199). -/
def slotStr (f : Fmt) (base count : Nat) (sen blk axis : Bool) (soff : Nat) : Str :=
  { base := (base : Nat), stride := 1, count := count, fmt := f, pad := false, block := if blk then 32 else 16,
    axis := axis, sen := sen, ovf := false, sbase := base + soff, sstride := 1, ren := false, ring := 0, peer := 0,
    slot := none }
def MmaCfg.strA (c : MmaCfg) : Str :=
  slotStr c.fa c.a (16 * c.ks) (fld c.w0 10 10 == 1) (fld c.w0 11 11 == 1) (fld c.w0 12 12 == 1) (fld c.w1 15 0)
def MmaCfg.strB (c : MmaCfg) : Str :=
  slotStr c.fb c.b (16 * c.kl) (fld c.w0 13 13 == 1) (fld c.w0 14 14 == 1) (fld c.w0 15 15 == 1) (fld c.w1 47 32)

/-- The logical positions of row r's stored elements, in order (R205): mask q of the row covers 16q to 16q + 15. -/
def rowPositions (masks : List Nat) (g r : Nat) : List Nat :=
  (countUp 0 g).flatMap (fun q =>
    ((countUp 0 16).filter (fun b => bit (listAt 0 masks (r * g + q)) b)).map (fun b => 16 * q + b))

/-- The pairs (position in A's row, logical k) of segment j of row r. -/
def segPairs (c : MmaCfg) (r j : Nat) : List (Nat × Nat) :=
  let ks := countUp (j * c.kseg) c.kseg
  if c.sparse then
    let pos := rowPositions c.masks (c.kl / 16) r
    ks.map (fun k => (k, listAt 0 pos k))
  else ks.map (fun k => (k, k))

/-- The logical positions of B that segment j needs, over all rows. -/
def segB (c : MmaCfg) (j : Nat) : List Nat :=
  if c.sparse then countUp (j * c.kseg / c.nz * 16) (c.kseg / c.nz * 16) else countUp (j * c.kseg) c.kseg

/-- The bytes that segment j reads, A then B (R202). -/
def segReads (c : MmaCfg) (j : Nat) : List Nat :=
  let ia := (countUp 0 16).flatMap (fun r => (countUp (j * c.kseg) c.kseg).map (fun k => r * c.ks + k))
  let ib := (countUp 0 16).flatMap (fun q => (segB c j).map (fun k => q * c.kl + k))
  c.strA.reads ia ++ c.strB.reads ib

/-! ### Products and segment sums (R76, R199, R203) -/

/-- An exact product of two scaled elements (R70, R76, R199, R204): log formats add quarter-exponents. -/
def product (a b : Str) (rd : Nat → Byte) (i j : Nat) : Val := prodVal a b rd i j

/-- floor(log2 |p|) of a nonzero finite value. -/
def valLog (m : Nat) (e : Int) : Int := (Nat.log2 m : Int) + e

/-- The windowed exact sum of R203: s, and whether a term lost bits. -/
def segSum (w : Nat) (ps : List Val) : Val × Bool :=
  let sig := ps.any (fun p => match p with
    | .nan s => s
    | _ => false)
  let pinf := ps.contains (.inf false)
  let ninf := ps.contains (.inf true)
  if ps.any Val.isNan then (.nan (sig || (pinf && ninf)), false)
  else if pinf && ninf then (.nan true, false)
  else if pinf then (.inf false, false)
  else if ninf then (.inf true, false)
  else
    let f := ps.filterMap (fun p => match p with
      | .fin n m e => if m = 0 then none else some (n, m, e)
      | _ => none)
    match f with
    | [] =>
      (.fin (ps.all (fun p => match p with
        | .fin n _ _ => n
        | _ => false)) 0 0, false)
    | (n0, m0, e0) :: r =>
      let emax := r.foldl (fun (x : Int) t => if x < valLog t.2.1 t.2.2 then valLog t.2.1 t.2.2 else x) (valLog m0 e0)
      let u : Int := emax - w + 1
      let q (t : Bool × Nat × Int) : Nat × Bool :=
        if u ≤ t.2.2 then (t.2.1 * 2 ^ (t.2.2 - u).toNat, false)
        else (t.2.1 / 2 ^ (u - t.2.2).toNat, t.2.1 % 2 ^ (u - t.2.2).toNat != 0)
      let all := (n0, m0, e0) :: r
      let s := all.foldl (fun (x : Int) t => x + (if t.1 then -((q t).1 : Int) else ((q t).1 : Int))) 0
      (.fin (decide (s < 0)) s.natAbs (if s = 0 then 0 else u), all.any (fun t => (q t).2))

/-- Segment j's sums for the 256 outputs, and the mask of outputs that lost bits (R203). -/
def segSums (c : MmaCfg) (rd : Nat → Byte) (j : Nat) : List (Val × Bool) :=
  (countUp 0 16).flatMap (fun r =>
    let pairs := segPairs c r j
    (countUp 0 16).map (fun q =>
      segSum c.window (pairs.map (fun p => product c.strA c.strB rd (r * c.ks + p.1) (q * c.kl + p.2)))))

/-- rne32 of acc + s: pattern and flags nv, of (R189, R203, R204). -/
def accAdd (acc : Nat) (x : Val) : Nat × Nat :=
  match Val.add .rne (fpF32.decode acc) x with
  | .nan s => (fpF32.canonNan, if s then fNv else 0)
  | .inf n => (fpF32.infPat n, 0)
  | .fin n m e =>
    let (p, f) := fpF32.scalarRound .rne n m 1 e
    (p, f &&& fOf)

/-- Add a segment into its tile (R203): tile, lsf bits, and the flags. -/
def applySeg (v : VC) (tile : Nat) (sums : List Val) (lost : Nat) : VC × Nat :=
  let rs := (sums.zip (countUp 0 256)).map (fun p => accAdd (v.tileElem tile p.2) p.1)
  let chip := mputs 0 v.chip (tileAt tile 0) (rs.flatMap (fun r => leBytes r.1 4))
  let old := leNat (mgets 0 v.chip (tpbAt tile 4) 32)
  let chip2 := mputs 0 chip (tpbAt tile 4) (leBytes (old ||| lost) 32)
  ({ v with chip := chip2 }, flagsOf rs ||| (if lost = 0 then 0 else fLs))

/-- opcnt + 1 (R202). -/
def bumpOpcnt (v : VC) (tile : Nat) : VC :=
  let w := v.tpb tile 2
  { v with chip := mputs 0 v.chip (tpbAt tile 2) (leBytes ((fld w 31 0 + 1) % 2 ^ 32) 4) }

/-! ### MMA (R200-R202) -/

/-- The scratchpad offset that a META prefix of kind 0 names (R38). -/
def metaRec (m : BitVec 24) : Nat := (m.extractLsb' 0 22).toNat * 256

/-- The metadata masks of a sparse MMA, rows in order (R205). -/
def readMasks (v : VC) (off n : Nat) : List Nat := (countUp 0 n).map (fun i => leNat (mgets 0 v.chip (off + 2 * i) 2))

/-- The configuration that an MMA reads at its issue (R201). -/
def mmaCfg (s : State) (t : Nat) (ga gb : Nat) (mt : Option (BitVec 24)) : MmaCfg :=
  let c : MmaCfg :=
    { tile := t, a := (s.vc.ring ga).at (s.vc.ring ga).head, b := (s.vc.ring gb).at (s.vc.ring gb).head,
      w0 := s.vc.tpb t 0, w1 := s.vc.tpb t 1, sparse := mt.isSome, masks := [], segs := 0 }
  match mt with
  | none => c
  | some m => { c with masks := readMasks s.vc (metaRec m) (16 * (c.kl / 16)) }

/-- Head checks: the rings differ, the tile and the metadata offset are in the share, and a follow-on's copy has completed: an
entry whose copy has not names it (R33, R49, R200, R234). -/
def mmaHead (s : State) (t : BitVec 8) (a b : BitVec 4) (mt : Option (BitVec 24)) (e : QEntry) : Chk :=
  firstChk [need (decide (a ≠ b)) 1, need (decide (t.toNat < s.tiles)) 7,
    (match mt with
     | some m => need (decide (metaRec m < s.share)) 7
     | none => .ok),
    await e.follow.isNone 0x14]

/-- The array is held by an MMA that still reads (R202). -/
def arrayHeld (v : VC) : Bool :=
  v.eng.flights.any (fun f => match f.work with
    | .mma _ => !f.accs.isEmpty
    | _ => false)

/-- Elements and scales of an operand lie in its slot (R201). -/
def inSlot (z : Str) (lo hi : Nat) : Bool :=
  decide ((lo : Int) ≤ z.span.1) && decide (z.span.2 ≤ (hi : Int))
    && (!z.sen || (decide (lo ≤ z.sbase) && decide (z.sbase + z.maxScale < hi)))

/-- Issue checks of R201, in their order. -/
def mmaCheck (s : State) (t : BitVec 8) (a b : BitVec 4) (mt : Option (BitVec 24)) : Chk :=
  let c := mmaCfg s t.toNat a.toNat b.toNat mt
  let ra := s.vc.ring a.toNat
  let rb := s.vc.ring b.toNat
  let rec0 := match mt with
    | some m => metaRec m
    | none => 0
  firstChk [
    need ((kseg c.fa c.fb).isSome && decide (fld c.w0 4 0 ≤ 17) && decide (fld c.w0 9 5 ≤ 17)
      && decide (fld c.w0 22 20 ≤ 5)) 8,
    await (!arrayHeld s.vc) 0x1C,
    await (decide (1 ≤ ra.cnt) && decide (1 ≤ rb.cnt)) 0x0B,
    need (ra.fits s.share && rb.fits s.share && inSlot c.strA c.a (c.a + ra.size) && inSlot c.strB c.b (c.b + rb.size)) 7,
    need (!c.sparse || decide (rec0 + 2 * (16 * (c.kl / 16)) ≤ s.share)) 7,
    need (!c.sparse || c.masks.all (fun m => (countUp 0 16).foldl (fun x i => x + b2n (bit m i)) 0 == c.nz)) 8]

/-- The charge class of a segment beat (R209). -/
def mmaClass (k : Nat) : EClass :=
  match k with
  | 16 => .mm16
  | 32 => .mm8
  | 64 => .mm6
  | _ => .mm4

/-- Start an MMA (R202), with the charges of its segment beats and of the metadata record that it reads (R209). -/
def mmaStart (keepB : Bool) (t : BitVec 8) (a b : BitVec 4) (mt : Option (BitVec 24)) (e : QEntry) (toks : List Nat)
    (s : State) : State :=
  let c := mmaCfg s t.toNat a.toNat b.toNat mt
  addFlight (charge (charge s (mmaClass c.kseg) c.n) .sp (2 * c.masks.length)) { flightOf s .mx e toks with
    done := some (s.vc.now + c.n + 4),
    accs := (countUp 0 c.n).map (fun j => ⟨j, s.vc.now + j, segReads c j, []⟩),
    dues := [(s.vc.now, .opcnt t.toNat)],
    work := .mma { c with segs := c.n }, audit := fld (s.vc.tpb t.toNat 2) 31 0 % 16,
    pops := [], got := if keepB then [a.setWidth 8] else [a.setWidth 8, b.setWidth 8] }

/-- An MMA at the head of MX. -/
def mmaOp (s : State) (keepB : Bool) (e : EngBits) (t : BitVec 8) (a b : BitVec 4) : Out :=
  issueWord s .mx e (mmaHead s t a b e.metaP) (fun _ => mmaCheck s t a b e.metaP) 0 none
    (fun q toks u => mmaStart keepB t a b e.metaP q toks u)

/-- An MMA has read segment `tag` (R202): its sums enter the tile five beats later; the last read pops the rings. -/
def mmaGroup (f : Flight) (c : MmaCfg) (tag now : Nat) : Flight :=
  let sums := segSums c (bufRd f.buf tag) tag
  let lost := (sums.zip (countUp 0 256)).foldl (fun x p => if p.1.2 then x + 2 ^ p.2 else x) 0
  let popsNow : List (Nat × Effect) := if tag + 1 = c.n then [(now, .pops (f.got.map (fun b => b.toNat)))] else []
  { f with dues := f.dues ++ (now + 5, .seg c.tile (sums.map (fun p => p.1)) lost) :: popsNow }

/-- mma: multiply-accumulate, popping both rings (R200-R204). -/
def execMma (e : EngBits) (t : BitVec 8) (a b : BitVec 4) (s : State) : Out := mmaOp s false e t a b

/-- mma.kb: as mma, keeping the B slot (R200, R202). -/
def execMmaKb (e : EngBits) (t : BitVec 8) (a b : BitVec 4) (s : State) : Out := mmaOp s true e t a b

/-! ### Draining (R206, R207) -/

/-- The exact scaled value of a drained element (R70, R206). -/
def drainVal (z : Str) (s pat : Nat) : Val :=
  let v := fpF32.decode pat
  if z.sen then
    (match v with
     | .nan x => .nan x
     | _ => if s = 255 then .nan false else v.scale (127 - (s : Int)))
  else v

/-- tz, u and d of R207: the truncated value as q·2^x, u = 2^x, and the 32 discarded bits. -/
def stochParts (f : Fp) (m : Nat) (e : Int) : Nat × Int × Nat :=
  if m = 0 then (0, f.emin, 0)
  else
    let x0 := valLog m e - f.fb
    let x := if x0 < f.emin then f.emin else x0
    let sh := (x - e).toNat
    if x ≤ e then (m * 2 ^ (e - x).toNat, x, 0)
    else (m / 2 ^ sh, x, m % 2 ^ sh * 2 ^ 32 / 2 ^ sh)

/-- The discarded bits d[c] of a lane (R207). -/
def laneBits (z : Str) (v : Val) : Nat :=
  match v, z.fmt.fp with
  | .fin _ m e, some f => if z.fmt = .f32 then 0 else (stochParts f m e).2.2
  | _, _ => 0

/-- One lane of a stochastic row: its value, its own discarded bits and its neighbour's (R207). -/
def stochLane (z : Str) (v : Val) (d nb step : Nat) : Nat × Nat :=
  if d = 0 then z.fmt.ofVal .rne z.ovf v
  else
    match v, z.fmt.fp with
    | .fin n m e, some f =>
      let (q, x, _) := stochParts f m e
      let up := decide (2 ^ 32 ≤ d + (h32 (BitVec.ofNat 32 nb) (BitVec.ofNat 32 step)).toNat)
      f.ofVal .rne z.ovf (.fin n (if up then q + 1 else q) x)
    | _, _ => z.fmt.ofVal .rne z.ovf v

/-- Row r of a drain: the 16 codes by lane, with flags (R206, R207). `el` gives a tile element, `sc` the scale byte of
a destination element, `at` the destination element of (r, c). -/
def drainRow (z : Str) (rmode step : Nat) (el : Nat → Nat) (sc : Nat → Nat) (pos : Nat → Nat) (r : Nat) :
    List (Nat × Nat × Nat) :=
  let x (c : Nat) : Val := drainVal z (sc (pos (16 * r + c))) (el (16 * r + c))
  let bad (c : Nat) : Bool := z.sen && sc (pos (16 * r + c)) == 255
  (countUp 0 16).map (fun c =>
    let (code, fl) :=
      if bad c then (nanCode z.fmt, fNv)
      else if rmode = 2 then
        stochLane z (x c) (laneBits z (x c)) (laneBits z (x ((c + 1) % 16))) step
      else z.fmt.ofVal (if rmode = 1 then .rtz else .rne) z.ovf (x c)
    (pos (16 * r + c), code, fl &&& streamMask))

/-- The writes of a drain, sixteen destination elements a beat from I + 2 on (R206). -/
def drainWrites (f : Flight) (rmode : Nat) (dtr : Bool) (step now : Nat) : Flight :=
  let z := strAt f 0
  let el (e : Nat) : Nat := leNat ((f.got.drop (4 * e)).take 4)
  let sc (i : Nat) : Nat := z.scaleByte (bufRd f.buf 0) i
  let pos (e : Nat) : Nat := if dtr then 16 * (e % 16) + e / 16 else e
  let cells := (countUp 0 16).flatMap (fun r => drainRow z rmode step el sc pos r)
  { f with
    flags := f.flags ||| cells.foldl (fun x p => x ||| p.2.2) 0,
    accs := f.accs ++ (countUp 0 16).map (fun k =>
      ⟨writeTag k, now + 2 + k, [],
        (cells.filter (fun p => p.1 / 16 == k)).flatMap (fun p => z.put p.1 p.2.1)⟩) }

/-- Head checks of mdrain (R206). -/
def drainHead (s : State) (t : BitVec 8) (z : BitVec 4) (e : QEntry) : Chk :=
  let x := strOf e.zs z.toNat
  firstChk [need (decide (t.toNat < s.tiles)) 7, headStreams s [x],
    need (decide (x.count = 256) && decide (x.fmt.cls = .floating)) 8]

/-- TXSTAT.g while the step is open or voted, else 0 (R207). -/
def drainStep (v : VC) : Nat := if v.tx.state = 1 ∨ v.tx.state = 2 then v.tx.g else 0

/-- Start a drain: the tile, its block and the scale bytes are read at I (R206). -/
def drainStart (t : BitVec 8) (z : BitVec 4) (e : QEntry) (toks : List Nat) (s : State) : State :=
  let x := (strOf e.zs z.toNat).bind s.vc true
  let w := s.vc.tpb t.toNat 0
  let f := { flightOf s .mx e toks with
    done := some (s.vc.now + 17), work := .drain (fld w 25 24) (fld w 26 26 == 1) (drainStep s.vc), strs := [x],
    got := mgets 0 s.vc.chip (tileAt t.toNat 0) 1024, pushes := ringsOf [x] }
  addFlight s (if x.sen then plan f ⟨0, s.vc.now, x.scaleReads (countUp 0 256), []⟩
               else drainWrites f (fld w 25 24) (fld w 26 26 == 1) (drainStep s.vc) s.vc.now)

/-- mdrain: the tile into a stream (R206, R207). -/
def execMdrain (e : EngBits) (t : BitVec 8) (z : BitVec 4) (s : State) : Out :=
  issueWord s .mx e (drainHead s t z)
    (fun q => firstChk [need (decide (fld (s.vc.tpb t.toNat 0) 25 24 ≠ 3)) 8,
      issueStreams s false [(strOf q.zs z.toNat).bind s.vc true] []]) 0 (some .mxd)
    (fun q toks u => drainStart t z q toks u)

/-! ### The other matrix words (R208) -/

/-- Head check of a tile operand (R33). -/
def tileHead (s : State) (t : BitVec 8) : Chk := need (decide (t.toNat < s.tiles)) 7

/-- Head checks of a word that moves n n64 elements of z (R208). -/
def wordsHead (s : State) (t : BitVec 8) (z : BitVec 4) (n : Nat) (e : QEntry) : Chk :=
  let x := strOf e.zs z.toNat
  firstChk [tileHead s t, headStreams s [x], need (decide (x.fmt = .n64) && decide (x.count = n)) 8]

/-- A matrix word whose effect on a tile or block falls at its issue beat, where it completes. -/
def tileWord (s : State) (e : EngBits) (t : BitVec 8) (eff : Effect) : Out :=
  issueWord s .mx e (fun _ => tileHead s t) (fun _ => .ok) 0 (some .mxm)
    (fun q toks u => addFlight u { flightOf u .mx q toks with
      done := some u.vc.now, dues := [(u.vc.now, eff)] })

/-- mzero: every element := +0 at I (R208). -/
def execMzero (e : EngBits) (t : BitVec 8) (s : State) : Out :=
  tileWord s e t (.tile (tileAt t.toNat 0) (List.replicate 1024 0))

/-- mlsf.clr: the lsf mask := 0 at I (R208). -/
def execMlsfClr (e : EngBits) (t : BitVec 8) (s : State) : Out :=
  tileWord s e t (.tile (tpbAt t.toNat 4) (List.replicate 32 0))

/-- mtpb.ld: the block from a stream; it is written at I + 1 (R208). -/
def execMtpbLd (e : EngBits) (t : BitVec 8) (z : BitVec 4) (s : State) : Out :=
  issueWord s .mx e (wordsHead s t z 8)
    (fun q => issueStreams s false [] [(strOf q.zs z.toNat).bind s.vc false]) 0 (some .mxm)
    (fun q toks u =>
      let x := (strOf q.zs z.toNat).bind u.vc false
      addFlight u { flightOf u .mx q toks with
        done := some (u.vc.now + 1), accs := [⟨0, u.vc.now, x.reads (countUp 0 8), []⟩], work := .tpb t.toNat,
        strs := [x], pops := ringsOf [x] })

/-- The block that mtpb.ld writes, reserved bits zero (R195, R208). -/
def tpbGroup (f : Flight) (t now : Nat) : Flight :=
  let w (i : Nat) : Nat := (strAt f 0).code (bufRd f.buf 0) i &&& tpbMask i
  { f with dues := f.dues ++ [(now + 1, .tile (tpbAt t 0) ((countUp 0 8).flatMap (fun i => leBytes (w i) 8)))] }

/-- A matrix word that writes block words from `w` on to a stream at I + 1 (R208). -/
def blockOut (s : State) (e : EngBits) (t : BitVec 8) (z : BitVec 4) (w n : Nat) : Out :=
  issueWord s .mx e (wordsHead s t z n)
    (fun q => issueStreams s false [(strOf q.zs z.toNat).bind s.vc true] []) 0 (some .mxm)
    (fun q toks u =>
      let x := (strOf q.zs z.toNat).bind u.vc true
      let ws := (countUp 0 n).flatMap (fun i => x.put i (u.vc.tpb t.toNat (w + i)).toNat)
      addFlight u { flightOf u .mx q toks with
        done := some (u.vc.now + 1), accs := [⟨writeTag 0, u.vc.now + 1, [], ws⟩], strs := [x], pushes := ringsOf [x] })

/-- mtpb.st: the block to a stream (R208). -/
def execMtpbSt (e : EngBits) (t : BitVec 8) (z : BitVec 4) (s : State) : Out := blockOut s e t z 0 8

/-- mlsf.rd: the lsf mask to a stream (R208). -/
def execMlsfRd (e : EngBits) (t : BitVec 8) (z : BitVec 4) (s : State) : Out := blockOut s e t z 4 4

/-- The number of set lsf bits of a tile (R208). -/
def lsfCount (v : VC) (t : Nat) : Nat :=
  let m := leNat (mgets 0 v.chip (tpbAt t 4) 32)
  (countUp 0 256).foldl (fun x i => x + b2n (bit m i)) 0

/-- A matrix word that writes y at I + 1 (R208). -/
def matrixY (s : State) (e : EngBits) (head : Chk) (y : BitVec 4) (val : VC → Word64) : Out :=
  issueWord s .mx e (fun _ => head) (fun _ => .ok) 0 (some .mxm)
    (fun q toks u => addFlight u { flightOf u .mx q toks with
      done := some (u.vc.now + 1), y := some (y.toNat, val u.vc) })

/-- mlsf.test: the count of set lsf bits into y (R208). -/
def execMlsfTest (e : EngBits) (t : BitVec 8) (y : BitVec 4) (s : State) : Out :=
  matrixY s e (tileHead s t) y (fun v => w64 (lsfCount v t.toNat))

/-- maudit: AUDIT into y (R208, R210). -/
def execMaudit (e : EngBits) (y : BitVec 4) (s : State) : Out := matrixY s e .ok y (fun v => v.audit)

/-- An MMA has been audited: the low 16 bits of AUDIT count on; the audit column's sums are those of the array (R210). -/
def auditOne (v : VC) : VC :=
  { v with audit := w64 (v.audit.toNat / 65536 * 65536 + (v.audit.toNat + 1) % 65536) }

end Sys2Proof.Machine
end

