-- ==== Sys2Proof/Machine/CopyDesc.lean ====
section
/-! DEFINITION. Copy control blocks as descriptors: rows, lines, elements and the checks of a copy
(11_copy_hbm R222-R230, R235, R238, R239). -/

namespace Sys2Proof.Machine

/-- Field hi:lo of word w of a block. -/
def ccbFld (c : List Word32) (w hi lo : Nat) : Nat := bits (listAt (0 : Word32) c w).toNat hi lo

/-- addr, addr2, the counts c0 to c6 and the strides s1 to s6 (R222). -/
def ccbAddr (c : List Word32) : Nat := ccbFld c 1 31 0 + ccbFld c 2 23 0 * 2 ^ 32
def ccbAddr2 (c : List Word32) : Nat := ccbFld c 14 31 0 + ccbFld c 15 23 0 * 2 ^ 32
def ccbCount (c : List Word32) (i : Nat) : Nat := ccbFld c (4 + i / 2) (if i % 2 = 1 then 31 else 15) (if i % 2 = 1 then 16 else 0)
def ccbStride (c : List Word32) (i : Nat) : Int := signed 32 (ccbFld c (7 + i) 31 0)
def ccbFmt (c : List Word32) : Fmt := fmtOr (ccbFld c 0 6 2)
/-- ev, fo, class and tag. -/
def ccbEv (c : List Word32) : Bool := ccbFld c 0 12 12 == 1
def ccbFo (c : List Word32) : Bool := ccbFld c 0 13 13 == 1
def ccbTimed (c : List Word32) : Bool := ccbFld c 0 15 14 == 1
def ccbRen (c : List Word32) : Bool := ccbFld c 3 31 31 == 1
def ccbRing (c : List Word32) : Nat := ccbFld c 3 30 27
/-- L4 in natural packing on the memory side, on the scratchpad side; L6 tight in memory. -/
def memNib (c : List Word32) : Bool := decide (ccbFmt c = .l4) && ccbFld c 0 1 0 == 0
def spNib (c : List Word32) : Bool := decide (ccbFmt c = .l4) && ccbFld c 3 26 25 == 0
def memTight (c : List Word32) : Bool := decide (ccbFmt c = .l6) && ccbFld c 0 1 0 == 2

/-- The rows of a copy: the product of c1 to c6 (R225). -/
def ccbRows (c : List Word32) : Nat := (countUp 1 6).foldl (fun x i => x * ccbCount c i) 1

/-- The bytes of n elements that start a row in memory (R80, R226). -/
def memBytes (c : List Word32) (n : Nat) : Nat :=
  if memNib c then (n + 1) / 2 else if memTight c then n / 4 * 3 else n * (ccbFmt c).bytes

/-- rowaddr of R225 for a row number, row i1 of gathers and scatters taken from the index. -/
def rowAddr (c : List Word32) (idx : List Int) (row : Nat) : Int :=
  let i1 := row % ccbCount c 1
  let r1 : Int := if idx.isEmpty then (i1 : Int) else listAt 0 idx i1
  let go := (countUp 2 5).foldl (fun (x : Int × Nat) d =>
    (x.1 + ((x.2 % ccbCount c d : Nat) : Int) * ccbStride c d, x.2 / ccbCount c d)) (0, row / ccbCount c 1)
  (ccbAddr c : Int) + r1 * ccbStride c 1 + go.1

/-- The 128-byte lines that `len` bytes from `a` on meet (R227). -/
def linesOf (a : Int) (len row : Nat) (second : Bool) : List CLine :=
  let first := a / 128
  let last := (a + len - 1) / 128
  if len = 0 then []
  else (countUp 0 ((last - first).toNat + 1)).map (fun (i : Nat) =>
    let lo := if (first + i) * 128 < a then a else (first + i) * 128
    let hi := if a + len < (first + i + 1) * 128 then a + len else (first + i + 1) * 128
    { va := lo, len := (hi - lo).toNat, row := row, off := (lo - a).toNat, second := second, data := [], done := false,
      due := 0 })

/-- Bits of an element in the dense second image of stash. -/
def elemBits (c : List Word32) : Nat := if memNib c then 4 else (ccbFmt c).bytes * 8

/-- The first element and the bytes of row r2 of the transposed image (R235): c1 elements from element c1·r2 on. -/
def imageRow (c : List Word32) (r2 : Nat) : Nat × Nat :=
  let p := ccbCount c 1 * r2
  let lo := p * elemBits c / 8
  let hi := ((p + ccbCount c 1) * elemBits c + 7) / 8
  (lo, hi - lo)

/-- The lines of a copy, in descriptor order (R227, R235). -/
def ccbLines (c : List Word32) (idx : List Int) (op : Nat) : List CLine :=
  let plain := (countUp 0 (ccbRows c)).flatMap (fun r => linesOf (rowAddr c idx r) (memBytes c (ccbCount c 0)) r false)
  if op = 6 then
    plain ++ (countUp 0 (ccbRows c / ccbCount c 1 * ccbCount c 0)).flatMap (fun r =>
      let (lo, n) := imageRow c r
      linesOf ((ccbAddr2 c : Int) + lo) n r true)
  else plain

/-- The scratchpad side of a copy as a stream over one run, and the position of its element k: run `row` has `len`
elements (spos of R225). -/
def sposStr (c : List Word32) (base row : Nat) : Str :=
  let pitch := ccbFld c 7 31 16
  { base := (base + (if pitch = 0 then 0 else 64 * pitch * row) : Nat), stride := 1, count := 1, fmt := ccbFmt c,
    pad := !spNib c, block := 16, axis := false, sen := false, ovf := false, sbase := 0, sstride := 0, ren := false,
    ring := 0, peer := 0, slot := none }
def sposIdx (c : List Word32) (row len k : Nat) : Nat := if ccbFld c 7 31 16 = 0 then row * len + k else k

/-- Run, length and position of element i0 of row `row` in the scratchpad: plain or transposed (R225). -/
def spos (c : List Word32) (op row i0 : Nat) : Nat × Nat × Nat :=
  if op = 1 then (i0 + ccbCount c 0 * (row / ccbCount c 1), ccbCount c 1, row % ccbCount c 1) else (row, ccbCount c 0, i0)

/-- Runs of the scratchpad side, and elements of a run. -/
def spRuns (c : List Word32) (op : Nat) : Nat × Nat :=
  if op = 1 then (ccbRows c / ccbCount c 1 * ccbCount c 0, ccbCount c 1) else (ccbRows c, ccbCount c 0)

/-- The span of the scratchpad side (R238). -/
def spSpan (c : List Word32) (op base : Nat) : Nat × Nat :=
  let (runs, len) := spRuns c op
  let z := sposStr c base (runs - 1)
  let last := sposIdx c (runs - 1) len (len - 1)
  (base, (z.addr last).toNat + z.fmt.bytes)

/-- The span of the memory side (R238). -/
def memSpan (ls : List CLine) : Nat × Nat :=
  match ls with
  | [] => (0, 0)
  | l :: r => r.foldl (fun (x : Nat × Nat) k =>
      (Nat.min x.1 k.va.toNat, Nat.max x.2 (k.va.toNat + k.len))) (l.va.toNat, l.va.toNat + l.len)

/-! ### Descriptor checks (R226, R229) -/

/-- R226: formats and packings. -/
def packOk (c : List Word32) (op : Nat) : Bool :=
  let mf := ccbFld c 0 11 7
  let sf := ccbFld c 0 6 2
  let mp := ccbFld c 0 1 0
  let sp := ccbFld c 3 26 25
  let f := ccbFmt c
  let pair :=
    if f = .l4 then decide (mp ≤ 1) && decide (sp ≤ 1)
    else if f = .l6 then (mp == 0 || mp == 2) && sp == 0
    else mp == 0 && sp == 0
  decide (mf = sf) && decide (sf ≤ 17) && pair && (!memTight c || ccbCount c 0 % 4 == 0)
    && (!(op == 1 || op == 6) || !spNib c) && (op != 6 || mp == 0)
    && (op != 1 || (decide (ccbCount c 0 ≤ 256) && decide (ccbCount c 1 ≤ 256)))

/-- The element size that addresses, strides and soff are multiples of (R226). -/
def alignOk (c : List Word32) (op : Nat) : Bool :=
  let n := (ccbFmt c).bytes
  ccbAddr c % n == 0 && (countUp 1 6).all (fun i => ccbStride c i % (n : Int) == 0)
    && (op != 6 || ccbAddr2 c % n == 0)
    && (ccbRen c || ccbFld c 7 31 16 != 0 || ccbFld c 3 21 0 % n == 0)

/-- Some byte of the memory side lies in the map (R236). -/
def memInMap (ls : List CLine) : Bool :=
  ls.any (fun l => decide (l.va < (mapEnd : Int)) && decide ((mapBase : Int) < l.va + l.len))

/-- The first copy-descriptor detail that applies (R229). -/
def copyDetail (c : List Word32) (op : Nat) (ls : List CLine) : Option Nat :=
  let cls := ccbFld c 0 15 14
  let fw := listAt (0 : Word32) c 14
  let rsv := ccbFld c 2 31 24 != 0 || ccbFld c 3 24 22 != 0 || ccbFld c 15 31 24 != 0
  let pfBad := op == 3 && (ccbFld c 3 31 0 != 0 || ccbFld c 14 31 0 != 0 || ccbFld c 15 31 0 != 0)
  if rsv || decide (2 ≤ cls) || (cls == 1 && decide (3 ≤ op)) || pfBad then some 1
  else if (countUp 0 7).any (fun i => ccbCount c i == 0) then some 2
  else if !packOk c op then some 3
  else if !alignOk c op || (op != 7 && memInMap ls) then some 4
  else if ccbFo c && (decide (3 ≤ op) || majorOf fw != 0x34 || fw.getLsbD 25 || fw.getLsbD 24 || edelay fw != 0) then some 5
  else if ccbTimed c && decide (256 < ls.length) then some 6
  else none

/-- The scratchpad side lies in the share, or in its ring slot (R225). -/
def spIn (s : State) (c : List Word32) (op base : Nat) : Bool :=
  let (lo, hi) := spSpan c op base
  if op = 3 then true
  else if ccbRen c then
    let r := s.vc.ring (ccbRing c)
    r.fits s.share && decide (base ≤ lo) && decide (hi ≤ base + r.size)
  else decide (hi ≤ s.share)

/-- cpy.xc: every byte in the scratchpad or accumulator range of one window of the launch; f32 for accumulators
(R236). The fault is at the first line that is not. -/
def xcChk (s : State) (c : List Word32) (ls : List CLine) : Chk :=
  match ls with
  | [] => .ok
  | l0 :: _ =>
    let v := (l0.va.toNat - mapBase) / 0x1000000
    let w := mapBase + v * 0x1000000
    let acc := decide (w + tileOff ≤ l0.va.toNat)
    let lo : Int := if acc then ((w + tileOff : Nat) : Int) else (w : Int)
    let hi : Int := if acc then ((w + tileOff + 0x400 * s.tiles : Nat) : Int) else ((w + s.share : Nat) : Int)
    match ls.find? (fun l => (getVC s v).isNone || decide (l.va < lo) || decide (hi < l.va + l.len)) with
    | some l => .faultAt 6 1 (pat 64 l.va)
    | none => if acc && decide (ccbFmt c ≠ .f32) then .faultAt 6 3 (pat 64 l0.va) else .ok

/-- Where the scratchpad side starts: soff, the tail slot of in-copies, the head slot of out-copies (R225). -/
def copyBase (v : VC) (c : List Word32) (op : Nat) : Nat :=
  if ccbRen c then
    let r := v.ring (ccbRing c)
    r.at (if op < 4 then r.tail else r.head)
  else ccbFld c 3 21 0

/-- The byte ranges that an in-copy writes in the scratchpad: its runs, or the whole of a dense image (R225). -/
def spRanges (c : List Word32) (op base : Nat) : List (Nat × Nat) :=
  if ccbFld c 7 31 16 = 0 then [spSpan c op base]
  else
    let (runs, len) := spRuns c op
    (countUp 0 runs).map (fun r =>
      let z := sposStr c base r
      (z.base.toNat, (z.addr (len - 1)).toNat + z.fmt.bytes))

/-- Lines that are written meet no memory span of a copy in flight (R238). -/
def memHazardLines (v : VC) (ls : List CLine) : Chk :=
  let meets (l : CLine) (f : Flight) : Bool := match f.source with
    | some (m, lo, hi) => m && decide (l.va < (hi : Int)) && decide ((lo : Int) < l.va + l.len)
    | none => false
  match ls.find? (fun l => v.eng.flights.any (meets l)) with
  | some l => .faultAt 0x1A 0 (pat 64 l.va)
  | none => .ok

/-- Copies in flight (R238, R239). -/
def copiesInFlight (v : VC) : Nat := (v.eng.flights.filter (fun f => f.copy.isSome || f.imaging)).length

/-- The offset of a META image (R38). -/
def imageAt (m : BitVec 24) : Nat := (m.extractLsb' 0 22).toNat * 64

/-- Sixteen control words in a memory of bytes. -/
def wordsAt (rd : Nat → Byte) (a : Nat) : List Word32 :=
  (countUp 0 16).map (fun i => BitVec.ofNat 32 (leNat ((countUp (a + 4 * i) 4).map rd)))

/-- The control words of a copy at this beat: its block, or the image that META names as it stands (R38, R222). -/
def copyWords (v : VC) (d : BitVec 4) (mt : Option (BitVec 24)) : List Word32 :=
  match mt with
  | none => mgets 0 v.b (16 * d.toNat) 16
  | some m => wordsAt (fun a => mget 0 v.chip a) (imageAt m)

/-- Index elements read a beat: 128 bytes (R228). -/
def idxLanes (z : Str) : Nat := 128 / z.fmt.bytes

/-- The row indices of a gather or scatter: element i of za, from the bytes that group q holds (R228). -/
def copyIdx (za : Option Str) (rd : Nat → Nat → Byte) : List Int :=
  match za with
  | none => []
  | some z => (countUp 0 z.count).map (fun i => z.int (rd (i / idxLanes z)) i)

/-- The row indices as the scratchpad holds them at this beat. DEDUCED (log 66): the checks of the issue beat take them so; the
lines are those of the indices as they are read. -/
def idxNow (v : VC) (za : Option Str) : List Int := copyIdx za (fun _ a => mget 0 v.chip a)

/-- Checks of a copy with control words c, in the order of R229: `tok` a token bit of its word, `credit` and `copies` as at its
issue beat. The slot fit of a ring-bound index stream comes before its ring (R156, R157). -/
def copyCheck (s : State) (op : Nat) (tok : Bool) (c : List Word32) (za : Option Str) (credit copies : Nat) : Chk :=
  let idx := idxNow s.vc za
  let ls := if (countUp 0 7).any (fun i => ccbCount c i == 0) then [] else ccbLines c idx op
  let base := copyBase s.vc c op
  let ring := s.vc.ring (ccbRing c)
  let untimed := !ccbTimed c
  match copyDetail c op ls with
  | some k => .fault 0x18 k
  | none =>
    firstChk [
      need (!(decide (s.launch.mode = .lockstep) && untimed && decide (op < 4) && (tok || ccbFo c))) 0x19,
      need (spIn s c op base) 7,
      if op = 7 then xcChk s c ls else .ok,
      (match za with
       | some z => need z.fits 7
       | none => .ok),
      if op < 3 then hazardRanges s.vc (spRanges c op base) else .ok,
      if 4 ≤ op ∧ op ≠ 7 then memHazardLines s.vc ls else .ok,
      (match za with
       | some z => if z.ren then await (decide (1 ≤ (s.vc.ring z.ring).cnt)) 0x0B else .ok
       | none => .ok),
      if ccbRen c && op != 3 then
        (if op < 4 then await (decide (ring.cnt < ring.slots)) 0x0C else await (decide (1 ≤ ring.cnt)) 0x0B)
      else .ok,
      await (decide (copies < 32)) 0x1B,
      await (untimed || decide (128 * ls.length ≤ credit)) 0x17]

end Sys2Proof.Machine
end

