-- ==== Sys2Proof/Machine/CopyEngine.lean ====
section
/-! DEFINITION. The copy words and what the copy engine does after they issue, majors 0x30 and 0x3C
(11_copy_hbm R225-R239). -/

namespace Sys2Proof.Machine

/-! ### Elements on both sides -/

/-- Source elements read a beat: 128 source bytes (R232). -/
def perBeat (c : List Word32) : Nat := if spNib c then 256 else 128 / (ccbFmt c).bytes

/-- Element n of a copy in element order: its row and place in the row. -/
def elemRow (c : List Word32) (n : Nat) : Nat × Nat := (n / ccbCount c 0, n % ccbCount c 0)

/-- The scratchpad stream and index of element n of an out-copy. -/
def outSpot (c : List Word32) (base n : Nat) : Str × Nat :=
  let (row, i0) := elemRow c n
  (sposStr c base row, sposIdx c row (ccbCount c 0) i0)

/-- Elements in all. -/
def copyTotal (c : List Word32) : Nat := ccbRows c * ccbCount c 0

/-- The source reads of an out-copy from beat I on (R232). -/
def outReads (c : List Word32) (base i0 : Nat) : List Acc :=
  let n := copyTotal c
  let w := perBeat c
  (countUp 0 (ceilDiv n w)).map (fun q =>
    ⟨q, i0 + q, (groupElems n w q).flatMap (fun k => (outSpot c base k).1.addrs (outSpot c base k).2), []⟩)

/-- The code of element n that an out-copy has read. -/
def outCode (f : Flight) (j : CopyJob) (n : Nat) : Nat :=
  let (z, i) := outSpot j.ccb j.base n
  z.code (bufRd f.buf (n / perBeat j.ccb)) i

/-- Byte b of a row of n elements with these codes, as it stands in memory (R80). -/
def rowByte (c : List Word32) (n : Nat) (code : Nat → Nat) (b : Nat) : Byte :=
  let at0 (k : Nat) : Nat := if k < n then code k else 0
  if memNib c then BitVec.ofNat 8 (at0 (2 * b) % 16 + at0 (2 * b + 1) % 16 * 16)
  else if memTight c then
    let g := b / 3
    let v := at0 (4 * g) + at0 (4 * g + 1) * 64 + at0 (4 * g + 2) * 4096 + at0 (4 * g + 3) * 262144
    BitVec.ofNat 8 (v / 256 ^ (b % 3))
  else
    let w := (ccbFmt c).bytes
    BitVec.ofNat 8 (at0 (b / w) / 256 ^ (b % w))

/-- The code of element k of a row from its bytes in memory (R80). -/
def rowCode (c : List Word32) (byte : Nat → Byte) (k : Nat) : Nat :=
  if memNib c then (if k % 2 = 1 then (byte (k / 2)).toNat / 16 else (byte (k / 2)).toNat % 16)
  else if memTight c then
    let g := 3 * (k / 4)
    ((byte g).toNat + (byte (g + 1)).toNat * 256 + (byte (g + 2)).toNat * 65536) / 64 ^ (k % 4) % 64
  else
    let w := (ccbFmt c).bytes
    leNat ((countUp (k * w) w).map byte) % 2 ^ (ccbFmt c).bits

/-- The last byte of element k in its row's memory bytes. -/
def lastByte (c : List Word32) (k : Nat) : Nat :=
  if memNib c then k / 2 else if memTight c then (6 * (k % 4) + 5) / 8 + 3 * (k / 4) else (k + 1) * (ccbFmt c).bytes - 1

/-- The bytes that a line of an out-copy carries, from either image (R232, R235). -/
def lineBytes (f : Flight) (j : CopyJob) (l : CLine) : List Byte :=
  let c0 := ccbCount j.ccb 0
  let c1 := ccbCount j.ccb 1
  if l.second then
    let (lo, _) := imageRow j.ccb l.row
    -- dense element p is (i0, rownum) with p = rownum mod c1 + c1·i0 + c0·c1·(rownum div c1)
    let code (p : Nat) : Nat := outCode f j ((p / (c0 * c1) * c1 + p % c1) * c0 + p % (c0 * c1) / c1)
    (countUp (lo + l.off) l.len).map (rowByte j.ccb (copyTotal j.ccb) code)
  else (countUp l.off l.len).map (rowByte j.ccb c0 (fun k => outCode f j (l.row * c0 + k)))

/-! ### Issue -/

/-- The index stream of a gather or scatter has as many elements as the copy has rows (R228). -/
def idxCounts (c : List Word32) (za : Option Str) : Bool :=
  match za with
  | none => true
  | some z => decide (z.count = ccbCount c 1)

/-- Head checks of a copy word (R38, R88, R157, R228, R234): the image in the share, the index stream, room for a follow-on. DESIGN CHOICE
(log 66): the count of an index stream is held against an image's c1 once the image is served; whether an image has a follow-on is
looked at in the bytes that stand there. -/
def copyHead (s : State) (e : EngBits) (d : BitVec 4) (za : Option Str) : Chk :=
  let c := copyWords s.vc d e.metaP
  firstChk [
    (match e.metaP with
     | none => .ok
     | some m => need (decide (imageAt m + 64 ≤ s.share)) 7),
    (match za with
     | none => .ok
     | some z => firstChk [headStreams s [z],
         need (indexFmt z.fmt && (e.metaP.isSome || idxCounts c za)) 8]),
    await (!ccbFo c || hasRoom s.vc .mx false) 0x14]

/-- The follow-on word enters MX at the copy's issue beat i0, ahead of the words that CTL has placed since (R234). -/
def placeFollow (s : State) (e : QEntry) (c : List Word32) (i0 : Nat) : State :=
  let w : QEntry :=
    { e with seq := s.vc.eng.nextSeq, word := listAt 0 c 14, stamp := some (BitVec.ofNat 24 (ccbFld c 15 23 0)),
             metaP := none, placed := i0, ready := i0, shared := false, zv := [], retry := false,
             counted := false, stood := none, follow := some e.seq }
  let older (x : QEntry) : Bool := decide (x.placed < i0) || (x.placed == i0 && x.run.isSome)
  let es := s.vc.eng.mx.entries
  if ccbFo c then
    { s with vc.eng := { s.vc.eng with nextSeq := s.vc.eng.nextSeq + 1,
                                       mx := { s.vc.eng.mx with entries := es.filter older ++ [w] ++ es.filter (fun x => !older x) } } }
  else s

/-- Groups of a copy's accesses from here on are its index reads; the one before is its image. -/
def idxTag : Nat := 4000000

/-- The index reads of a copy, from beat i0 on (R228). -/
def idxReads (za : Option Str) (i0 : Nat) : List Acc :=
  match za with
  | none => []
  | some z => (countUp 0 (ceilDiv z.count (idxLanes z))).map (fun q =>
      ⟨idxTag + q, i0 + q, (groupElems z.count (idxLanes z) q).flatMap z.addrs, []⟩)

/-- The landings of a copy have fixed beats: a timed in-copy of a Lockstep launch (R231). -/
def landFixed (s : State) (c : List Word32) : Bool := ccbTimed c && decide (s.launch.mode = .lockstep)

/-- Lines of a copy, of which line 0 is due at beat d0 (R231, R232). -/
def dueLines (s : State) (c : List Word32) (idx : List Int) (op d0 : Nat) : List CLine :=
  let ls := ccbLines c idx op
  (ls.zip (countUp 0 ls.length)).map (fun p => { p.1 with due := d0 + (if landFixed s c then 8 else 1) * p.2 })

/-- A copy's job with these lines: its memory span, when it reads memory, is theirs (R238). -/
def CopyJob.withLines (j : CopyJob) (ls : List CLine) : CopyJob :=
  let (lo, hi) := memSpan ls
  { j with lines := ls, srcLo := if j.srcMem then lo else j.srcLo, srcHi := if j.srcMem then hi else j.srcHi }

/-- The job of a copy with control words c whose accesses begin at beat i0 (R225, R231, R232). -/
def copyJobOf (s : State) (op : Nat) (c : List Word32) (za : Option Str) (i0 : Nat) : CopyJob :=
  let base := copyBase s.vc c op
  let idx := idxNow s.vc za
  let (lo, hi) := spSpan c op base
  CopyJob.withLines
    { op := op, ccb := c, base := base, idx := idx, lines := [], epoch := epochTag s, posted := false,
      srcMem := decide (op < 4), srcLo := lo, srcHi := hi }
    (dueLines s c idx op (i0 + (if landFixed s c then 600 else 1)))

/-- What a copy of n lines does at its issue beat besides its accesses: its follow-on word enters MX, and a timed one draws its credit
(R230, R234). -/
def copyDraw (s : State) (e : QEntry) (c : List Word32) (n : Nat) : State :=
  let s1 := placeFollow s e c s.vc.now
  if ccbTimed c then { s1 with vc.eng.credit := s1.vc.eng.credit - 128 * n } else s1

/-- Start a copy that issued at beat i0 and was served with its control words `late` beats later (R225, R228, R231-R233). -/
def copyStart (op : Nat) (q : Queue) (c : List Word32) (za : Option Str) (i0 late : Nat) (e : QEntry) (toks : List Nat)
    (s : State) : State :=
  let job := copyJobOf s op c za (i0 + late)
  let reads := if 4 ≤ op then outReads c job.base (i0 + late) else []
  let ring := if ccbRen c && op != 3 then [ccbRing c] else []
  let zr := match za with
    | some z => ringsOf [z]
    | none => []
  let done : Option Nat :=
    if 4 ≤ op then some (i0 + late + reads.length - 1)
    else if landFixed s c then some (i0 + late + 600 + 8 * (job.lines.length - 1))
    else none
  addFlight s { flightOf s q e toks with
    issued := i0, done := done, accs := idxReads za (i0 + late) ++ reads, work := .copy, copy := some job,
    strs := (match za with
      | some z => [z]
      | none => []),
    pops := if op < 4 then zr else (zr ++ ring).eraseDups, pushes := if op < 4 then ring else [] }

/-- The index stream of a gather or scatter, with its ring slot taken. -/
def copyZa (s : State) (e : QEntry) (a : Option (BitVec 4)) (bound : Bool) : Option Str :=
  a.map (fun n => if bound then (strOf e.zs n.toNat).bind s.vc false else strOf e.zs n.toNat)

/-- Post a completion record, or hold it while an Elastic launch's event queue is full (R103). `hold` is 1 + the number of the
word whose completion waits with it, or 0. The record carries its completion beat, at whose end it enters the queue (log 19). -/
def postRecord (s : State) (p : Poster) (b src status tag kind : Nat) (detail : Word64) (hold : Nat) : State :=
  if s.launch.mode = .elastic ∧ eventRoom s = false then holdRecord s p src status tag kind detail hold
  else postAt s p b src status tag kind detail

/-- The record of a copy with control words c (R102, R233). -/
def copyPost (s : State) (e : QEntry) (op : Nat) (c : List Word32) (status detail hold : Nat) : State :=
  postRecord s e.poster s.vc.now (if op < 4 then 0 else 1) status (ccbFld c 0 31 16) (op % 4) (w64 detail) hold

/-- The record of a copy in flight. -/
def copyRecord (s : State) (f : Flight) (j : CopyJob) (status detail hold : Nat) : State :=
  copyPost s f.entry j.op j.ccb status detail hold

/-- A cpy.xc that its checks have just stopped with a map-access fault posts its record too, with the faulting line (R168, R233).
`n` is the number of faults before. -/
def mapRefused (s : State) (n : Nat) (e : QEntry) (c : List Word32) : State :=
  match s.vc.faults[n]? with
  | some f =>
    if f.cause = 6 then
      copyPost s e 7 c 6 ((ccbLines c [] 7).findIdx (fun l => pat 64 l.va == f.tval.toNat)) 0
    else s
  | none => s

/-- A copy that META gives an image passes its checks with the control words c (R156, R228, R229). -/
def imageCheck (s : State) (i : ImageJob) (toks : List Nat) (c : List Word32) (za : Option Str) : Chk :=
  firstChk [need (idxCounts c za) 8, copyCheck s i.op (!i.popped.isEmpty || !toks.isEmpty) c za i.credit i.copies]

/-- A copy that META gives an image issues: the image is read at once, or after the beats it loses (R228). DESIGN CHOICE (log 66): its
follow-on word, its credit and its source span are those of the image as it stands at the issue beat (R230, R234, R238). -/
def imageStart (i : ImageJob) (m : BitVec 24) (c : List Word32) (q : Queue) (za : Option Str) (e : QEntry) (toks : List Nat)
    (s : State) : State :=
  let sound := decide (imageCheck s i toks c za = .ok)
  let j := copyJobOf s i.op c za s.vc.now
  let s1 := if sound then copyDraw s e c j.lines.length else s
  addFlight s1 { flightOf s1 q e toks with
    accs := [⟨idxTag - 1, s1.vc.now, countUp (imageAt m) 64, []⟩],
    work := .image { i with drawn := s.vc.eng.credit - s1.vc.eng.credit,
                            source := if sound then some (j.srcMem, j.srcLo, j.srcHi) else none },
    strs := (match za with
      | some z => [z]
      | none => []) }

/-- A copy whose image fails its checks is at the head of its queue again: it has popped no token, drawn no credit, placed no follow-on
word and issued nowhere (R156, R228). -/
def unissue (s : State) (f : Flight) (i : ImageJob) : State :=
  let e := { f.entry with counted := i.counted }
  let now := decide (f.issued = s.vc.now)
  let back (m : SMap Nat) (k : Nat) : SMap Nat := mput 0 m k (mget 0 m k + 1)
  let less (m : SMap Nat) (k : Nat) : SMap Nat := mput 0 m k (mget 0 m k - 1)
  let s1 := dropFlight s f.seq
  let k := engCode (qEngine f.q)
  let en := s1.vc.eng
  let en1 := { en with
    credit := Nat.min 32768 (en.credit + i.drawn),
    mx := { en.mx with entries := en.mx.entries.filter (fun x => x.follow != some f.seq) },
    tokens := i.popped.foldl back en.tokens, popped := if now then i.popped.foldl less en.popped else en.popped,
    stepc := if i.counted then en.stepc else mput 0 en.stepc k ((mget 0 en.stepc k + (2 ^ 32 - 1)) % 2 ^ 32) }
  { s1 with vc.eng := en1.setQ f.q { entries := e :: (en1.q f.q).entries, next := i.next } }

/-- The image of a copy has been served: its checks are made now (R156, R228, R229). -/
def imageServed (s : State) (f : Flight) (i : ImageJob) : State :=
  match f.entry.metaP with
  | none => s
  | some m =>
    let c := wordsAt (bufRd f.buf (idxTag - 1)) (imageAt m)
    let za := f.strs.head?
    let s0 := unissue s f i
    let fail (cause detail : Nat) (tval : Word64) : State :=
      let t := queueFault s0 f.q f.entry cause detail tval
      if i.op = 7 then mapRefused t s0.vc.faults.length f.entry c else t
    let s1 := dropFlight s f.seq
    match imageCheck s1 i f.toks c za with
    | .ok =>
      let s2 := if i.source.isSome then s1 else copyDraw s1 f.entry c (copyJobOf s1 i.op c za s1.vc.now).lines.length
      copyStart i.op f.q c za f.issued (s.vc.now - f.issued) f.entry f.toks (charge s2 .cpy)
    | .fault x d => fail x d (wordTval f.entry)
    | .faultAt x d va => fail x d (w64 va)
    | .wait x =>
      match s.launch.mode with
      | .lockstep => fail x 0 (wordTval f.entry)
      | .elastic => s0

/-- A copy word at the head of LD or ST. -/
def copyOp (s : State) (op : Nat) (q : Queue) (e : EngBits) (d : BitVec 4) (a : Option (BitVec 4)) : Out :=
  let head (h : QEntry) : Chk := copyHead s e d (copyZa s h a false)
  match e.metaP with
  | some m =>
    let i (h : QEntry) : ImageJob :=
      { op := op, credit := s.vc.eng.credit, copies := copiesInFlight s.vc, next := (s.vc.eng.q q).next, counted := h.counted,
        drawn := 0, source := none, popped := match tokenFifos s q e with
          | some p => p.1
          | none => [] }
    issueWord s q e head (fun _ => .ok) 0 none (fun h toks t => imageStart (i h) m (copyWords t.vc d e.metaP) q (copyZa t h a true) h toks t)
  | none =>
    let c := copyWords s.vc d none
    let out := issueWord s q e head
      (fun h => copyCheck s op (e.popP || e.popN || e.pushP || e.pushN) c (copyZa s h a true) s.vc.eng.credit
        (copiesInFlight s.vc)) 0 (some .cpy) (fun h toks t => let za := copyZa t h a true
                                copyStart op q c za t.vc.now 0 h toks (copyDraw t h c (copyJobOf t op c za t.vc.now).lines.length))
    match out, headOf s q with
    | .next t, some h => .next (if op = 7 then mapRefused t s.vc.faults.length h c else t)
    | o, _ => o

/-- cpy.in: memory to scratchpad (R228). -/
def execCpyIn (e : EngBits) (d : BitVec 4) (s : State) : Out := copyOp s 0 .ld e d none

/-- cpy.in.t: memory to scratchpad, transposed (R225, R228). -/
def execCpyInT (e : EngBits) (d : BitVec 4) (s : State) : Out := copyOp s 1 .ld e d none

/-- cpy.gath: rows taken from an index stream (R228). -/
def execCpyGath (e : EngBits) (d a : BitVec 4) (s : State) : Out := copyOp s 2 .ld e d (some a)

/-- cpy.pf: lines into L2, translations into the cluster TLB (R228, R251). -/
def execCpyPf (e : EngBits) (d : BitVec 4) (s : State) : Out := copyOp s 3 .ld e d none

/-- cpy.out: scratchpad to memory (R228, R232). -/
def execCpyOut (e : EngBits) (d : BitVec 4) (s : State) : Out := copyOp s 4 .st e d none

/-- cpy.scat: rows placed by an index stream (R228). -/
def execCpyScat (e : EngBits) (d a : BitVec 4) (s : State) : Out := copyOp s 5 .st e d (some a)

/-- stash: a plain and a transposed image (R235). -/
def execStash (e : EngBits) (d : BitVec 4) (s : State) : Out := copyOp s 6 .st e d none

/-- cpy.xc: into a window of the map (R236). -/
def execCpyXc (e : EngBits) (d : BitVec 4) (s : State) : Out := copyOp s 7 .st e d none

/-! ### After issue -/

/-- The last element of its row, of n, that byte b of the row's memory holds (R80, R226). -/
def lastElem (c : List Word32) (n b : Nat) : Nat :=
  if memNib c then Nat.min (2 * b + 1) (n - 1) else if memTight c then 4 * (b / 3) + b % 3 + 1 else b / (ccbFmt c).bytes

/-- The bytes of its row in memory whose last element is element k of n. -/
def bytesEndedBy (c : List Word32) (n k : Nat) : List Nat :=
  let lo := if memTight c then 3 * (k / 4) else if memNib c then k / 2 else k * (ccbFmt c).bytes
  (countUp lo (ccbFmt c).bytes ++ countUp (lo + (ccbFmt c).bytes) 2).filter (fun b =>
    decide (b < memBytes c n) && lastElem c n b == k)

/-- The writes that piece `tag` of a cpy.xc makes in its target window, 72 beats after its read and behind the pieces before
it: each byte is in the piece that holds its last element (R236). -/
def xcPieces (s : State) (f : Flight) (j : CopyJob) (tag : Nat) : List MapAcc :=
  let mine := s.launch.maps.filter (fun x => x.src == s.vc.id && x.seqS == some f.seq)
  let due := mine.foldl (fun d x => Nat.max d (x.due + 1)) (s.vc.now + 72)
  let c0 := ccbCount j.ccb 0
  (groupElems (copyTotal j.ccb) (perBeat j.ccb) tag).filterMap (fun k =>
    let (row, i0) := elemRow j.ccb k
    let a : Nat := (rowAddr j.ccb [] row).toNat - mapBase
    match bytesEndedBy j.ccb c0 i0 with
    | [] => none
    | b :: r => some
      { src := s.vc.id, dst := (a + b) / 0x1000000, off := (a + b) % 0x1000000,
        data := (b :: r).map (rowByte j.ccb c0 (fun x => outCode f j (row * c0 + x))), due := due,
        seqS := some f.seq, piece := tag + 1 })

/-- An index read of a copy has been served: after the last one its lines are those of the indices read (R228). -/
def indexServed (s : State) (f : Flight) (j : CopyJob) : Flight :=
  if f.accs.any (fun a => decide (idxTag ≤ a.tag)) then f
  else
    let idx := copyIdx f.strs.head? (fun q => bufRd f.buf (idxTag + q))
    let d0 := match j.lines.head? with
      | some l => l.due
      | none => s.vc.now
    let lines := dueLines s j.ccb idx j.op d0
    { f with copy := some { j.withLines lines with idx := idx },
             done := if j.op < 4 ∧ landFixed s j.ccb = true then some (d0 + 8 * (lines.length - 1)) else f.done }

/-- A copy's indices have all been read. -/
def Flight.indexed (f : Flight) : Bool := !f.accs.any (fun a => decide (idxTag ≤ a.tag))

/-- A fault that a copy meets at line `k` (R233, R380): the record, the fault, and the copy in the replay queue; its
follow-on entry is removed (R234). TVAL holds the address for the causes of R371. -/
def copyFault (s : State) (f : Flight) (j : CopyJob) (k cause detail : Nat) (va : Word64) : State :=
  let s1 := copyRecord s f j cause k 0
  let s2 := if f.ended then flightFault s1 s1.vc.id cause detail (tvalOf cause va) f.entry.name (some f.seq)
            else queueFault s1 f.q f.entry cause detail (if addrCause cause then va else wordTval f.entry)
  let s3 := setFlight s2 { f with faulted := true, done := if f.ended then f.done else none }
  { s3 with vc.eng.mx := { s3.vc.eng.mx with entries := s3.vc.eng.mx.entries.filter (fun e => e.follow != some f.seq) } }

/-- A line's physical place, or the fault that its access meets (R233). -/
def lineTranslate (s : State) (l : CLine) (k : AccKind) : MemR (Nat × TlbE) :=
  if l.va < 0 ∨ (2 ^ 56 : Int) ≤ l.va then .fault s 4 0
  else if (countUp 0 l.len).any (fun i => inMap (l.va.toNat + i)) then .fault s 0x18 4
  else
    match translate s l.va.toNat k with
    | .ok s1 (pa, e) =>
      let bad := if !e.vb then poisoned s1 pa
                 else if k = .write then vPoisonedWrite s1 e.frame (pa - e.frame) l.len
                 else vPoisoned s1 e.frame (pa - e.frame)
      if bad then .fault s1 0x28 8 else .ok s1 (pa, e)
    | r => r

/-- Two lines lie on one line of memory. -/
def sameLine (s : State) (a b : CLine) : Bool :=
  a.va / 128 == b.va / 128
    || (a.va / 128 % 512 == b.va / 128 % 512 && (lineOf s a.va.toNat).isSome && lineOf s a.va.toNat == lineOf s b.va.toNat)

/-- The accesses that older copies of the same queue have still to make at this line, as word and number of the line, oldest first
(R237). -/
def olderLines (s : State) (f : Flight) (l : CLine) : List (Nat × Nat) :=
  s.vc.eng.flights.flatMap (fun g => match g.copy with
    | some j =>
      if g.q = f.q ∧ g.seq < f.seq ∧ g.faulted = false ∧ j.op ≠ 7 then
        ((j.lines.zip (countUp 0 j.lines.length)).filter (fun p => !p.1.done && p.1.data.isEmpty && sameLine s p.1 l)).map
          (fun p => (g.seq, p.2))
      else []
    | none => [])

/-- The first line of a copy that has not landed or been performed, with its number. -/
def nextLine (j : CopyJob) : Option (CLine × Nat) :=
  (j.lines.zip (countUp 0 j.lines.length)).find? (fun p => !p.1.done)

/-- The job with line k landed or performed. -/
def lineDone (j : CopyJob) (k : Nat) (d : List Byte) : CopyJob :=
  match j.lines[k]? with
  | some l => { j with lines := listSet j.lines k { l with done := true, data := d } }
  | none => j

/-- Byte b of a row from the lines that have been read. -/
def readByte (j : CopyJob) (row b : Nat) : Byte :=
  match j.lines.find? (fun l => l.done && !l.second && l.row == row && decide (l.off ≤ b) && decide (b < l.off + l.len)) with
  | some l => listAt 0 l.data (b - l.off)
  | none => 0

/-- The scratchpad bytes drawn from a line: the elements whose last byte it holds (R225, R226, R231). -/
def lineWrites (j : CopyJob) (l : CLine) : List (Nat × Byte × Byte) :=
  let c := j.ccb
  let (runs, total) := spRuns c j.op
  ((countUp 0 (ccbCount c 0)).filter (fun k =>
      decide (l.off ≤ lastByte c k) && decide (lastByte c k < l.off + l.len))).flatMap (fun k =>
    let (run, len, pos) := spos c j.op l.row k
    let z := sposStr c j.base run
    let i := sposIdx c run len pos
    let last := if ccbFld c 7 31 16 = 0 then runs * total else total
    let w := z.put i (rowCode c (readByte j l.row) k)
    if z.nib && i % 2 == 0 && decide (i + 1 = last) then w.map (fun t => (t.1, 0xFF, t.2.2)) else w)

/-- Write bytes of a landing at this beat; what loses its bank follows on the next beats, and the requester's later accesses with
it (R153). -/
def landBytes (s : State) (f : Flight) (tag : Nat) (ws : List (Nat × Byte × Byte)) : State :=
  let (v, buf, left, moved) := serveAcc s.vc (rankOf f.q) f ⟨tag, s.vc.now, [], ws⟩
  let s1 := charge { s with vc := v } .sp moved
  if left.isDone then setFlight s1 { f with buf := buf }
  else stallQueue (setFlight s1 { f with buf := buf, accs := f.accs ++ [left] }) f.q

/-- The transfer of a line between memory and L2 takes its pseudo-channel for 2.5 ns, 17 eighths of a reference beat (R422); none while
the channel is busy with an earlier one. A line that L2 holds needs none. -/
def pcTake (s : State) (line : Nat) : Option State :=
  let k := pcOf s (128 * line)
  let t := 8 * s.dev.refbeat
  if s.part.l2.any (fun p => p.line == line) then some s
  else if t < mget 0 s.part.pcNext k then none
  else some { s with part.pcNext := mput 0 s.part.pcNext k (t + 17) }

/-- Read a line of an in-copy from memory (R228, R251, R422): a cpy.pf fills L2, with its translation in the cluster TLB. -/
def readLine (s : State) (j : CopyJob) (l : CLine) : MemR (List Byte) :=
  match lineTranslate s l .read with
  | .wait s1 => .wait s1
  | .fault s1 c d => .fault s1 c d
  | .ok s1 (pa, e) =>
    let s2 := if j.op = 3 then { s1 with part.ctlb := clusterTlbPut s1 e } else s1
    if s2.part.slow.contains (pa / 128) then .wait s2
    else
      match (if ccbTimed j.ccb then some s2 else pcTake s2 (pa / 128)) with
      | none => .wait s2
      | some s3 =>
        if e.vb then let (s4, d) := vRead s3 e.frame (pa - e.frame) l.len; .ok s4 d
        else if j.op = 3 then .ok (l2Access s3 (some s3.vc.id) 0 (pa / 128) false) (physRead s3 pa l.len)
        else let (s4, d) := homeRead s3 pa l.len; .ok s4 d

/-- Line k of copy `seq` is read ahead of its landing; the answer says whether its read has been made, or will never be, since it faults
at its own beat. -/
def readAhead (s : State) (seq k : Nat) : State × Bool :=
  match flightAt s seq with
  | none => (s, true)
  | some g =>
    match g.copy with
    | none => (s, true)
    | some j =>
      match j.lines[k]? with
      | none => (s, true)
      | some x =>
        match readLine s j x with
        | .ok s1 d => (setFlight s1 { g with copy := some { j with lines := listSet j.lines k { x with data := d } } }, true)
        | .fault s1 _ _ => (s1, true)
        | .wait s1 => (s1, false)

/-- The lines that older copies of the queue have still to read at the place of line l are read before it (R237); they land at their
own beats. The answer says that none waits. -/
def readOlder (s : State) (f : Flight) (l : CLine) : State × Bool :=
  (olderLines s f l).foldl (fun (t : State × Bool) p => if t.2 then readAhead t.1 p.1 p.2 else t) (s, true)

/-- COPY_LINE_LANDING: the next line of in-copy `id` lands at its beat (R231-R233). A line still on its way from memory
is a landing fault in a timed copy of a Lockstep launch, else it lands a beat later. -/
def execCopyLineLanding (id : Nat) (s : State) : Out :=
  match flightAt s id with
  | none => .next s
  | some f =>
    match f.copy with
    | none => .next s
    | some j =>
      match nextLine j with
      | none => .next s
      | some (l, k) =>
        if f.faulted || frozenNow s || decide (4 ≤ j.op) || decide (s.vc.now < l.due) || !f.indexed then .next s
        else
          let older := readOlder s f l
          let got := if !l.data.isEmpty then .ok s l.data else if older.2 then readLine older.1 j l else .wait older.1
          match got with
          | .wait s1 =>
            if landFixed s1 j.ccb then .next (copyFault s1 f j k 0x16 0 0)
            else .next (setFlight s1 { f with copy := some (delayCopy j) })
          | .fault s1 c d => .next (copyFault s1 f j k c d (BitVec.ofInt 64 l.va))
          | .ok s2 d =>
            let j2 := lineDone j k d
            let last := (nextLine j2).isNone
            let f2 := { f with copy := some j2, done := if last && f.done.isNone then some s2.vc.now else f.done }
            .next (if j.op = 3 then setFlight s2 f2 else landBytes s2 f2 (writeTag k) (lineWrites j2 l))

/-- The last write of an out-copy has been performed: its record, and it is no longer in flight (R232, R233). -/
def outDone (s : State) (f : Flight) (j : CopyJob) : State :=
  let s1 := dropFlight s f.seq
  if ccbEv j.ccb then copyRecord s1 f j 0 j.lines.length 0 else s1

/-- COPY_MEMORY_WRITE_PERFORM: the next line of out-copy `id` is performed at its home port; after the last one the
record asked for is posted and the copy is no longer in flight (R232, R233, R286). -/
def execCopyMemoryWritePerform (id : Nat) (s : State) : Out :=
  match flightAt s id with
  | none => .next s
  | some f =>
    match f.copy with
    | none => .next s
    | some j =>
      if f.faulted || !f.ended || frozenNow s || decide (j.op < 4) || j.op == 7 || !f.indexed then .next s
      else
        match nextLine j with
        | none => .next (outDone s f j)
        | some (l, k) =>
          if !(olderLines s f l).isEmpty then .next s
          else
            let va := BitVec.ofInt 64 l.va
            let d := lineBytes f j l
            match lineTranslate s l .write with
            | .wait s1 => .next s1
            | .fault s1 c x => .next (copyFault s1 f j k c x va)
            | .ok s1 (pa, e) =>
              let go (t : State) : Out :=
                let j2 := lineDone j k []
                .next (if (nextLine j2).isNone then outDone t f j else setFlight t { f with copy := some j2 })
              if e.vb then
                if j.epoch.isNone then .next (copyFault s1 f j k 0x21 4 va)
                else
                  match vWrite s1 e.frame (pa - e.frame) d j.epoch with
                  | some t => go t
                  | none => .next s1
              else
                match pcTake s1 (pa / 128) with
                | some t => go (homeWrite t pa d)
                | none => .next s1

end Sys2Proof.Machine
end

