-- ==== Sys2Proof/Machine/Rings.lean ====
section
/-! DEFINITION. The ring words of major 0x31 (07_scratchpad R157-R160). -/

namespace Sys2Proof.Machine

/-- n contiguous elements of format f from `lo` on, in natural packing, in the slot [lo, hi) (R160). -/
def slotOf (f : Fmt) (n lo hi : Nat) : Str :=
  { base := (lo : Nat), stride := 1, count := n, fmt := f, pad := false, block := 16, axis := false, sen := false,
    ovf := false, sbase := 0, sstride := 0, ren := false, ring := 0, peer := 0, slot := some (lo, hi) }

/-- The tail slot of ring d holding n elements of format f. -/
def tailStr (v : VC) (d : Nat) (f : Fmt) (n : Nat) : Str :=
  let r := v.ring d
  slotOf f n (r.at r.tail) (r.at r.tail + r.size)

/-- The destination fits the tail slot (R157). -/
def tailFits (s : State) (d : Nat) (z : Str) : Bool := decide (packedBytes z.fmt false z.count ≤ (s.vc.ring d).size)

/-- Issue checks of gpush and ggath: overlap, slots, hazards, then the rings (R155-R158, R238). -/
def ringCheck (s : State) (d : Nat) (z : Str) (as : List Str) : Chk :=
  firstChk [need (overlapOk [z] as) 0x0A, need (as.all Str.fits && tailFits s d z) 7,
    hazardChk s.vc z,
    await ((ringsOf as).all (fun r => decide (1 ≤ (s.vc.ring r).cnt))) 0x0B,
    await (decide ((s.vc.ring d).cnt < (s.vc.ring d).slots)) 0x0C]

/-- Elements that gpush moves a beat: 512 packed bytes (R160). -/
def pushLanes (f : Fmt) : Nat := if f = .l4 then 1024 else 512 / f.bytes

/-- gpush's streams: the tail slot and the source. -/
def gpushStrs (s : State) (d a : BitVec 4) (e : QEntry) (bound : Bool) : List Str :=
  let z0 := strOf e.zs a.toNat
  let z := if bound then z0.bind s.vc false else z0
  [tailStr s.vc d.toNat z.fmt z.count, z]

/-- Start gpush: 512 packed bytes a beat are read and written (R160). -/
def gpushStart (d a : BitVec 4) (e : QEntry) (toks : List Nat) (s : State) : State :=
  let l := gpushStrs s d a e true
  let z := listAt default l 1
  let w := pushLanes z.fmt
  let g := ceilDiv z.count w
  addFlight s { flightOf s .ld e toks with
    done := some (s.vc.now + ceilDiv (packedBytes z.fmt false z.count) 512 - 1),
    accs := (countUp 0 g).map (fun k => ⟨k, s.vc.now + k, (groupElems z.count w k).flatMap z.addrs, []⟩),
    work := .gpush, strs := l, pops := ringsOf [z], pushes := [d.toNat] }

/-- gpush has read a group: it is written at the same beat. DESIGN CHOICE (log 64): R160 gives the completion beat only. -/
def gpushGroup (f : Flight) (tag now : Nat) : Flight :=
  let z := strAt f 1
  let w := pushLanes z.fmt
  if 8192 ≤ tag then f
  else
    plan f ⟨writeTag tag, now, [],
      (groupElems z.count w tag).flatMap (fun i => (strAt f 0).put i (z.code (bufRd f.buf tag) i))⟩

/-- gpush gd, za: za's elements, packed, into the tail slot of gd (R160). -/
def execGpush (e : EngBits) (d a : BitVec 4) (s : State) : Out :=
  issueWord s .ld e
    (fun q => firstChk [need (ringInShare s d.toNat) 7, headStreams s [strOf q.zs a.toNat], need (decide ((strOf q.zs a.toNat).fmt ≠ .e8)) 8])
    (fun q => let l := gpushStrs s d a q true
              ringCheck s d.toNat (listAt default l 0) [listAt default l 1]) 0 (some .ring)
    (fun q toks t => gpushStart d a q toks t)

/-- ggath's streams: the tail slot, the indices and the elements. -/
def ggathStrs (s : State) (d a b : BitVec 4) (e : QEntry) : List Str :=
  let za := (strOf e.zs a.toNat).bind s.vc false
  let zb := (strOf e.zs b.toNat).bind s.vc false
  [tailStr s.vc d.toNat zb.fmt za.count, za, zb]

/-- Head checks of ggath (R69, R157, R160). -/
def ggathHead (s : State) (d a b : BitVec 4) (e : QEntry) : Chk :=
  let za := strOf e.zs a.toNat
  let zb := strOf e.zs b.toNat
  firstChk [need (ringInShare s d.toNat) 7, headStreams s [za, zb], need (indexFmt za.fmt && decide (zb.fmt ≠ .e8)) 8]

/-- Start ggath: the indices are read first, 64 a beat (R160). -/
def ggathStart (d a b : BitVec 4) (e : QEntry) (toks : List Nat) (s : State) : State :=
  let l := ggathStrs s d a b e
  let za := listAt default l 1
  addFlight s { flightOf s .ld e toks with
    done := some (s.vc.now + ceilDiv za.count 64), accs := indexAccs za za.count 64 s.vc.now,
    work := .ggath (listAt default l 2).count, strs := l, pops := ringsOf (l.drop 1), pushes := [d.toNat] }

/-- ggath has read a group of indices, or of elements: each group of elements is read a beat after its indices, and
everything is written at the completion beat, once every index has been found in range (R160). DESIGN CHOICE (log 64): R160
gives the completion beat only. -/
def ggathGroup (f : Flight) (limit tag now : Nat) : Flight :=
  let n := (strAt f 1).count
  let g := ceilDiv n 64
  let good (k : Nat) : Bool := decide (0 ≤ indexOf f 64 k) && decide (indexOf f 64 k < (limit : Int))
  if tag < 8192 then
    if tag + 1 = g ∧ indexBad f n 64 limit = true then indexFault f n 64 (now + 1)
    else
      plan { f with done := some (match f.done with
               | some d => d
               | none => now + g - tag) }
        ⟨dataTag tag, now + 1, ((groupElems n 64 tag).filter good).flatMap (fun i =>
          (strAt f 2).addrs (indexOf f 64 i).toNat), []⟩
  else if tag < 16384 then f
  else if tag + 1 ≠ dataTag g then f
  else
    { f with accs := f.accs ++ (countUp 0 g).map (fun k => ⟨writeTag k, now, [],
        (groupElems n 64 k).flatMap (fun i =>
          (strAt f 0).put i ((strAt f 2).code (bufRd f.buf (dataTag k)) (indexOf f 64 i).toNat))⟩) }

/-- ggath gd, za, zb: elements of zb by index into the tail slot of gd (R160). -/
def execGgath (e : EngBits) (d a b : BitVec 4) (s : State) : Out :=
  issueWord s .ld e (ggathHead s d a b)
    (fun q => let l := ggathStrs s d a b q
              ringCheck s d.toNat (listAt default l 0) (l.drop 1)) 0 (some .ring)
    (fun q toks t => ggathStart d a b q toks t)

/-- greset gd: head, tail and cnt become zero at the issue beat (R159, R160). -/
def execGreset (e : EngBits) (d : BitVec 4) (s : State) : Out :=
  issueWord s .ld e (fun _ => .ok) (fun _ => .ok) 0 (some .ring)
    (fun q toks t => plainFlight { t with vc := ringReset t.vc d.toNat } .ld q toks 0)

end Sys2Proof.Machine
end

