-- ==== Sys2Proof/Machine/Messages.lean ====
section
/-! DEFINITION. Sends and receives between virtual cores: majors 0x32 and 0x3D (07_scratchpad R161-R165). -/

namespace Sys2Proof.Machine

/-! ### Receives -/

/-- A posted receive on channel c that no message has matched and that has not faulted (R162, R164). -/
def Flight.posted (f : Flight) (c : Nat) : Bool := f.chan == some c && f.land.isNone && !f.faulted

/-- The posted receive of a channel. -/
def postedOn (v : VC) (c : Nat) : Option Flight := v.eng.flights.find? (Flight.posted · c)

/-- A landing of more than 65,536 packed bytes fails its head checks (R162). -/
def messageSize (n : Nat) : Chk := need (decide (n ≤ 65536)) 7

/-- The channel holds no posted receive (R162). -/
def channelFree (v : VC) (c : Nat) : Chk := need (postedOn v c).isNone 0x0D

/-- A receive word: it is posted at its issue beat and completes when its last byte has landed (R162). -/
def recvOp (s : State) (e : EngBits) (head check : QEntry → Chk) (c kind mbox : Nat) (strs : QEntry → State → List Str)
    (rings : QEntry → List Nat) : Out :=
  issueWord s .ld e head (fun q => firstChk [check q, channelFree s.vc c]) 0 (some .xfer)
    (fun q toks t => addFlight t { flightOf t .ld q toks with
      work := .recv kind mbox, strs := strs q t, pushes := rings q, chan := some c })

/-- A stream that a message carries: the common head checks, a format other than e8, and its size (R66, R69, R77, R162). -/
def messageHead (s : State) (z : Str) : Chk :=
  firstChk [headStreams s [z], need (decide (z.fmt ≠ .e8)) 8, messageSize z.packed]

/-- recv zd: lands at zd's layout, in the tail slot of zd.ring when zd.ren = 1; the channel is zd.ring (R161). -/
def execRecv (e : EngBits) (d : BitVec 4) (s : State) : Out :=
  let z (q : QEntry) : Str := strOf q.zs d.toNat
  let c := match headOf s .ld with
    | some q => (z q).ring
    | none => 0
  recvOp s e (fun q => messageHead s (z q))
    (fun q => issueStreams s false [(z q).bind s.vc true] []) c 0 0 (fun q t => [(z q).bind t.vc true])
    (fun q => ringsOf [z q])

/-- recv.g gd: lands in the tail slot of gd; the channel is d (R161). -/
def execRecvG (e : EngBits) (d : BitVec 4) (s : State) : Out :=
  let z (t : State) : Str := tailStr t.vc d.toNat .n8 (t.vc.ring d.toNat).size
  recvOp s e (fun _ => need (ringInShare s d.toNat) 7)
    (fun _ => firstChk [need (tailFits s d.toNat (z s)) 7, hazardChk s.vc (z s),
      await (decide ((s.vc.ring d.toNat).cnt < (s.vc.ring d.toNat).slots)) 0x0C]) d.toNat 1 0 (fun _ t => [z t])
    (fun _ => [d.toNat])

/-- recv.m md: lands in mailbox md, d at most 7; the channel is d (R161, R162). -/
def execRecvM (e : EngBits) (d : BitVec 4) (s : State) : Out :=
  recvOp s e (fun _ => need (decide (d.toNat ≤ 7)) 1) (fun _ => .ok) d.toNat 2 d.toNat (fun _ _ => []) (fun _ => [])

/-! ### Sends -/

/-- A receive that stands ready at virtual core dst (R165). -/
def receiveReady (s : State) (dst c : Nat) : Bool :=
  match getVC s dst with
  | some v => (postedOn v c).isSome
  | none => false

/-- An Elastic send waits for its receive (R165). -/
def sendGate (s : State) (dst c : Nat) : Chk :=
  if s.launch.mode = .elastic ∧ receiveReady s dst c = false then .wait 0x0E else .ok

/-- Mark the receive of a channel as taken by a message (R163, R165). -/
def claimReceive (v : VC) (seq src seqS : Nat) : VC :=
  { v with eng.flights := v.eng.flights.map (fun f => if f.seq = seq then { f with land := some (src, seqS) } else f) }

/-- Start a send: 128 source bytes are read a beat; an Elastic send claims its receive (R162, R163, R165). -/
def sendStart (z : Str) (dst c : Nat) (pops : List Nat) (e : QEntry) (toks : List Nat) (s : State) : State :=
  let w := if z.nib then 256 else 128 / z.fmt.bytes
  let b := z.packed
  let claimed := if s.launch.mode = .elastic then (getVC s dst).bind (postedOn · c) else none
  let t0 := match s.launch.mode, getVC s dst with
    | .elastic, some v => v.now
    | _, _ => s.vc.now
  let m : Msg := { src := s.vc.id, dst := dst, chan := c, fmt := z.fmt.code, bytes := b, data := [], sent := t0,
                   seqS := e.seq, piece := 0, target := claimed.map (fun f => f.seq) }
  let s1 := match claimed with
    | some f => updVC s dst (claimReceive · f.seq s.vc.id e.seq)
    | none => s
  addFlight { s1 with launch.msgs := s1.launch.msgs ++ [m] } { flightOf s1 .st e toks with
    done := some (s.vc.now + ceilDiv b 128 - 1),
    accs := (countUp 0 (ceilDiv z.count w)).map (fun k => ⟨k, s.vc.now + k, (groupElems z.count w k).flatMap z.addrs, []⟩),
    work := .send dst c z.fmt.code b, strs := [default, z], pops := pops }

/-- The source of send: za from its own base (R161). -/
def sendStr (e : QEntry) (a : BitVec 4) : Str := { strOf e.zs a.toNat with ren := false }

/-- send za: to za.peer on channel za.ring (R161). -/
def execSend (e : EngBits) (a : BitVec 4) (s : State) : Out :=
  issueWord s .st e (fun q => messageHead s (sendStr q a))
    (fun q => sendGate s (sendStr q a).peer (sendStr q a).ring) 0 (some .xfer)
    (fun q toks t => sendStart (sendStr q a) (sendStr q a).peer (sendStr q a).ring [] q toks t)

/-- The head slot of ring g, whole, as n8 (R161). -/
def headSlot (v : VC) (g : Nat) : Str :=
  let r := v.ring g
  slotOf .n8 r.size (r.at r.head) (r.at r.head + r.size)

/-- The destination of send.g (R157). -/
def Ring.peer (r : Ring) : Nat := fld r.w0 57 48

/-- send.g ga: the head slot of ga to ga.peer on channel a; it is popped at completion (R161). -/
def execSendG (e : EngBits) (a : BitVec 4) (s : State) : Out :=
  let g := a.toNat
  issueWord s .st e (fun _ => need (ringInShare s g) 7)
    (fun _ => firstChk [await (decide (1 ≤ (s.vc.ring g).cnt)) 0x0B,
      sendGate s (s.vc.ring g).peer g]) 0 (some .xfer)
    (fun q toks t => sendStart (headSlot t.vc g) (t.vc.ring g).peer g [g] q toks t)

/-- A send has read a group of its source: the bytes follow those read before (R162). -/
def sendGroup (s : State) (f : Flight) (tag : Nat) : State :=
  let z := strAt f 1
  let w := if z.nib then 256 else 128 / z.fmt.bytes
  let cs := (groupElems z.count w tag).map (z.code (bufRd f.buf tag))
  let pair (k : Nat) : Byte := BitVec.ofNat 8 (listAt 0 cs (2 * k) + 16 * listAt 0 cs (2 * k + 1))
  let d := if z.nib then (countUp 0 (ceilDiv cs.length 2)).map pair else cs.flatMap (fun c => leBytes c z.fmt.bytes)
  { s with launch.msgs := s.launch.msgs.map (fun m =>
      if m.src = s.vc.id ∧ m.seqS = f.seq then { m with data := m.data ++ d } else m) }

/-! ### Landing (R163, R164) -/

/-- Bytes of piece q. -/
def Msg.pieceLen (m : Msg) : Nat := Nat.min 128 (m.bytes - 128 * m.piece)

/-- The piece may land at this beat of the receiver: 64 beats and its place after the send, and read. -/
def Msg.due (m : Msg) (now : Nat) : Bool :=
  decide (m.sent + 64 + m.piece ≤ now) && decide (128 * m.piece + m.pieceLen ≤ m.data.length)

/-- The message fits its landing (R164). -/
def landingOk (m : Msg) (f : Flight) : Bool :=
  match f.work with
  | .recv 0 _ => decide (m.bytes = (strAt f 0).packed) && decide (m.fmt = (strAt f 0).fmt.code)
  | .recv 1 _ => decide (m.bytes ≤ (strAt f 0).count)
  | _ => decide (m.bytes = 8)

/-- The scratchpad bytes that a piece writes. -/
def pieceWrites (m : Msg) (z : Str) : List (Nat × Byte × Byte) :=
  let b (k : Nat) : Nat := (listAt 0 m.data k).toNat
  let w := if z.nib then 256 else 128 / z.fmt.bytes
  let code (i : Nat) : Nat :=
    if z.nib then (if i % 2 = 1 then b (i / 2) / 16 else b (i / 2) % 16)
    else leNat ((countUp (i * z.fmt.bytes) z.fmt.bytes).map (fun k => listAt 0 m.data k))
  ((groupElems z.count w m.piece).filter (fun i => decide (if z.nib then i / 2 < m.bytes else (i + 1) * z.fmt.bytes ≤ m.bytes))).flatMap
    (fun i => z.put i (code i))

/-- Remove a message. -/
def dropMsg (s : State) (m : Msg) : State :=
  { s with launch.msgs := s.launch.msgs.filter (fun x => !(x.src == m.src && x.seqS == m.seqS)) }

/-- Replace a message. -/
def setMsg (s : State) (m : Msg) : State :=
  { s with launch.msgs := s.launch.msgs.map (fun x => if x.src = m.src ∧ x.seqS = m.seqS then m else x) }

/-- Serve inbound bytes of a receive at this beat; what loses its bank stays with the receive (R153). -/
def inboundBytes (s : State) (f : Flight) (a : Acc) : State × Flight :=
  let (v, buf, left, moved) := serveAcc s.vc 0 f a
  let s1 := charge { s with vc := v } .sp moved
  if left.isDone then (s1, { f with buf := buf })
  else (s1, { f with buf := buf, accs := f.accs ++ [{ left with beat := left.beat + 1 }] })

/-- A landing that has lost its bank: the later pieces of its message come a beat later (R153; log 59). -/
def delayPieces (s : State) (f : Flight) : State :=
  { s with launch.msgs := s.launch.msgs.map (fun m =>
      if m.dst = s.vc.id ∧ f.land = some (m.src, m.seqS) then { m with sent := m.sent + 1 } else m) }

/-- A receive whose last byte has landed completes at this beat. -/
def finishReceive (f : Flight) (now : Nat) : Flight :=
  if f.accs.isEmpty then { f with done := some now } else f

/-- Land the next piece of message m in receive f. -/
def landPiece (s : State) (m : Msg) (f : Flight) : State :=
  let last := decide (m.bytes ≤ 128 * m.piece + 128)
  let s1 := if last then dropMsg s m else setMsg s { m with piece := m.piece + 1, target := some f.seq }
  let f1 := { f with land := some (m.src, m.seqS) }
  match f.work with
  | .recv 2 _ => setFlight s1 { f1 with got := m.data.take 8, done := some s.vc.now }
  | _ =>
    let (s2, f2) := inboundBytes s1 f1 ⟨m.piece, s.vc.now, [], pieceWrites m (strAt f 0)⟩
    setFlight (if f2.accs.isEmpty then s2 else delayPieces s2 f2) (if last then finishReceive f2 s.vc.now else f2)

/-- The receive that a message lands in: the one it has matched or claimed, or the posted one of its channel (R163). -/
def msgTarget (s : State) (m : Msg) : Option Flight :=
  match m.target with
  | some q => flightAt s q
  | none => postedOn s.vc m.chan

/-- An unexpected arrival, against LD; no word of the receiver is involved (R164, R371). -/
def unexpected (s : State) : State :=
  raiseAt s s.vc.id { src := 1, cause := 0x0E, detail := 0, tval := 0, beat := s.vc.now, name := 0, seq := none,
                      tepc := none }

/-- MESSAGE_PIECE_LANDING: the next piece of the launch's message n lands on its receiver (R163, R164). A first piece
that meets no posted receive faults in a Lockstep launch alone (R164, R165); any other piece whose receive is gone is
discarded (DESIGN CHOICE, log entry 90). -/
def execMessagePieceLanding (n : Nat) (s : State) : Out :=
  match s.launch.msgs[n]? with
  | none => .next s
  | some m =>
    if decide (m.dst ≠ s.vc.id) || frozenNow s || !m.due s.vc.now then .next s
    else
      match msgTarget s m with
      | none =>
        if s.launch.mode = .lockstep ∧ m.piece = 0 then .next (unexpected (dropMsg s m)) else .next (dropMsg s m)
      | some f =>
        if m.piece = 0 ∧ landingOk m f = false then
          .next (setFlight (queueFault (dropMsg s m) .ld f.entry 0x0F 0 (wordTval f.entry))
            { f with faulted := true, land := none })
        else .next (landPiece s m f)

end Sys2Proof.Machine
end

