-- ==== Sys2Proof/Machine/Waits.lean ====
section
/-! DEFINITION. Wait words, queue fences and evpost: majors 0x33, 0x3B and 0x3D (04_time_tokens R100, R101, R104;
13_ordering R271). -/

namespace Sys2Proof.Machine

/-- A wait word: it completes at I + n and sets L := I + n (R100). -/
def waitOp (s : State) (q : Queue) (e : EngBits) (n : BitVec 12) : Out :=
  issueWord s q e (fun _ => .ok) (fun _ => .ok) n.toNat none (fun h toks t => plainFlight t q h toks n.toNat)

/-- wait.ld n. -/
def execWaitLd (e : EngBits) (n : BitVec 12) (s : State) : Out := waitOp s .ld e n

/-- wait.cmp n: one entry of the four columns, issued once (R101). -/
def execWaitCmp (e : EngBits) (n : BitVec 12) (s : State) : Out := waitOp s .mx e n

/-- wait.st n. -/
def execWaitSt (e : EngBits) (n : BitVec 12) (s : State) : Out := waitOp s .st e n

/-- Every word placed in queue u at the beat of fence h or before it has completed (R271). -/
def placedClear (s : State) (u : Queue) (h : QEntry) : Bool :=
  (s.vc.eng.q u).entries.all (fun e => e.seq == h.seq || decide (h.placed < e.placed))
    && s.vc.eng.flights.all (fun f => f.ended || decide (h.placed < f.entry.placed)
      || !(f.q == u || (f.entry.shared && columns.contains u)))

/-- The condition of a queue fence (R271): for cpy, the copies issued before it was placed have performed their memory
writes. -/
def qfenceHolds (s : State) (m : BitVec 7) (h : QEntry) : Bool :=
  (maskQueues m).all (fun u => placedClear s u h)
    && (!m.getLsbD 6 || s.vc.eng.flights.all (fun f => !f.writesOut || decide (h.placed ≤ f.issued)))

/-- A queue fence (R271): a mask of zero is illegal; until its condition holds it has not reached its head. -/
def qfenceOp (s : State) (q : Queue) (e : EngBits) (m : BitVec 7) : Out :=
  issueWord s q e (fun h => firstChk [need (decide (m ≠ 0)) 1, await (qfenceHolds s m h) 0x14]) (fun _ => .ok) 0
    (some .sys) (fun h toks t => plainFlight t q h toks 0)

/-- qfence.ld. -/
def execQfenceLd (e : EngBits) (m : BitVec 7) (s : State) : Out := qfenceOp s .ld e m

/-- qfence.cmp: one entry of the four columns (R101, R271). -/
def execQfenceCmp (e : EngBits) (m : BitVec 7) (s : State) : Out := qfenceOp s .mx e m

/-- qfence.st. -/
def execQfenceSt (e : EngBits) (m : BitVec 7) (s : State) : Out := qfenceOp s .st e m

/-- Start evpost (R104): the record is posted at I + 1. With a full queue an Elastic launch holds it, and with it the
word's completion. -/
def evpostStart (e : QEntry) (toks : List Nat) (s : State) : State :=
  let tag := if e.counted then mget 0 s.vc.eng.stepc 2 else mget 0 s.vc.eng.stepc 2 + (2 ^ 32 - 1)
  let f := flightOf s .st e toks
  if s.launch.mode = .elastic ∧ eventRoomAt s (s.vc.now + 1) = false then
    addFlight (holdRecord s e.poster 2 0 tag 2 (w64 (frameCount s)) (e.seq + 1)) f
  else addFlight (postAt s e.poster (s.vc.now + 1) 2 0 tag 2 (w64 (frameCount s))) { f with done := some s.vc.now }

/-- evpost: a record of how far ST has come (R104). -/
def execEvpost (e : EngBits) (s : State) : Out :=
  issueWord s .st e (fun _ => .ok) (fun _ => .ok) 0 none (fun h toks t => evpostStart h toks t)

end Sys2Proof.Machine
end

