-- ==== Sys2Proof/Machine/Serve.lean ====
section
/-! DEFINITION. What happens to words in flight at a beat: scratchpad service, effects that fall due, completions, held
records, overruns, and landings of the on-chip map (04_time_tokens R94-R104; 07_scratchpad R153, R166-R169). -/

namespace Sys2Proof.Machine

/-! ### Service of the scratchpad (R153) -/

/-- What a word does when all bytes of the read access `tag` are there. -/
def groupDone (s : State) (f : Flight) (tag : Nat) : State :=
  let now := s.vc.now
  match f.work with
  | .vec op y k c => setFlight s (vecGroup f op y k c tag now)
  | .red op => setFlight s (redGroup f op tag now)
  | .sf fn => setFlight s (fnGroup f false fn tag now)
  | .ef fn => setFlight s (fnGroup f true fn tag now)
  | .gpush => setFlight s (gpushGroup f tag now)
  | .mma c => setFlight s (mmaGroup f c tag now)
  | .drain m d k => setFlight s (if tag = 0 then drainWrites f m d k now else f)
  | .tpb t => setFlight s (tpbGroup f t now)
  | .copy =>
    (match f.copy with
     | some j =>
       if idxTag ≤ tag then setFlight s (indexServed s f j)
       else
         let s1 := setFlight s f
         if j.op = 7 then { s1 with launch.maps := s1.launch.maps ++ xcPieces s1 f j tag } else s1
     | none => setFlight s f)
  | .image i => imageServed s f i
  | .send _ _ _ _ => sendGroup (setFlight s f) f tag
  | .ggath n => setFlight s (ggathGroup f n tag now)
  | .recv _ _ => setFlight s f
  | .event _ _ => setFlight s f
  | .idle => setFlight s f

/-- Serve access a of flight f: after a lost bank, its requester's accesses move a beat later. -/
def serveOne (s : State) (f : Flight) (a : Acc) : State :=
  let (v, buf, left, moved) := serveAcc s.vc (rankOf f.q) f a
  let s1 := charge { s with vc := v } .sp moved
  let rest := f.accs.erase a
  if left.isDone then
    let f1 := { f with buf := buf, accs := rest }
    if a.wr.isEmpty then groupDone s1 f1 a.tag else setFlight s1 f1
  else stallQueue (setFlight s1 { f with buf := buf, accs := left :: rest }) f.q

/-- The first access of a word that is due at this beat. -/
def dueAcc (f : Flight) (now : Nat) : Option Acc := f.accs.find? (fun a => decide (a.beat ≤ now))

/-- Serve the accesses of a word that are due, those that a served one brings with them too. -/
def serveFlight (s : State) (seq : Nat) : Nat → State
  | 0 => s
  | n + 1 =>
    match flightAt s seq with
    | none => s
    | some f =>
      if f.faulted then s
      else
        match dueAcc f s.vc.now with
        | none => s
        | some a => serveFlight (serveOne s f a) seq n

/-- Accesses that one word can make at one beat: the bound of `serveFlight`. -/
def serveFuel : Nat := 2048

/-- Serve the words of a queue, oldest first. -/
def serveQueue (s : State) (q : Queue) : State :=
  ((s.vc.eng.flights.filter (fun f => f.q == q && !f.accs.isEmpty)).map (fun f => f.seq)).foldl
    (fun t n => serveFlight t n serveFuel) s

/-- The landings of messages from virtual core `src` that lost a bank, at inbound rank (R153). -/
def serveInbound (src : Nat) (s : State) : State :=
  (s.vc.eng.flights.filter (fun f => f.chan.isSome && !f.accs.isEmpty && (match f.land with
    | some p => p.1 == src
    | none => false))).foldl
    (fun t f =>
      let (t1, f1) := f.accs.foldl
        (fun (p : State × Flight) a => inboundBytes p.1 { p.2 with accs := p.2.accs.erase a } { a with beat := p.1.vc.now }) (t, f)
      let more := t1.launch.msgs.any (fun m => m.dst == t1.vc.id && m.target == some f.seq)
      setFlight (if f1.accs.isEmpty then t1 else delayPieces t1 f1) (if more then f1 else finishReceive f1 t1.vc.now)) s

/-! ### Effects that fall due -/

/-- The adds of a matrix segment and the count of MMAs come before the other effects of a beat (R196). -/
def Effect.first : Effect → Bool
  | .seg _ _ _ => true
  | .opcnt _ => true
  | _ => false

/-- Apply an effect of a word. -/
def applyEffect (s : State) (seq : Nat) (e : Effect) : State :=
  match flightAt s seq with
  | none => s
  | some f =>
    match e with
    | .pops rs => { s with vc := rs.foldl ringPop s.vc }
    | .opcnt t => { s with vc := bumpOpcnt s.vc t }
    | .seg t sums lost =>
      let (v, fl) := applySeg s.vc t sums lost
      setFlight { s with vc := v } { f with flags := f.flags ||| fl }
    | .tile off d => { s with vc := s.vc.putChip off d }
    | .raise c d =>
      setFlight (queueFault s f.q f.entry c d (wordTval f.entry)) { f with faulted := true, done := none }

/-- The effects that are due at this beat. -/
def dueEffects (v : VC) : List (Nat × Effect) :=
  (v.eng.flights.filter (fun f => !f.faulted)).flatMap (fun f =>
    (f.dues.filter (fun d => decide (d.1 ≤ v.now))).map (fun d => (f.seq, d.2)))

/-- Take the due effects off their words. -/
def dropDues (v : VC) : VC :=
  { v with eng.flights := v.eng.flights.map (fun f =>
      if f.faulted then f else { f with dues := f.dues.filter (fun d => decide (v.now < d.1)) }) }

/-- The effects of this beat, in the order of R196. -/
def applyDues (s : State) : State :=
  let es := dueEffects s.vc
  let s1 : State := { s with vc := dropDues s.vc }
  (es.filter (fun p => p.2.first) ++ es.filter (fun p => !p.2.first)).foldl (fun t p => applyEffect t p.1 p.2) s1

/-! ### Completion (R94, R103) -/

/-- A copy that posts its record when it completes: an in-copy with ev = 1 (R233). -/
def recordAtEnd (f : Flight) : Option CopyJob :=
  match f.copy with
  | some j => if ccbEv j.ccb && decide (j.op < 4) && !j.posted then some j else none
  | none => none

/-- A physical error that has been found leaves the list of those to come. -/
def dropHit (s : State) (h : Hit) : State := { s with upsets := s.upsets.erase h }

/-- The oldest physical error that the virtual core in focus has reached, of those that p picks. -/
def nextHit (s : State) (p : Upset → Bool) : Option Hit :=
  s.upsets.find? (fun h => h.part == s.part.idx && h.vc == s.vc.id && decide (h.beat ≤ s.vc.now) && p h.what)

/-- A word that was audited completes: where its audit differs, AUDIT counts the mismatch with tile and column, and the fault
stops the queue after the word (R210, R392). -/
def auditEnd (s : State) (f : Flight) (vx : Bool) (tile detail : Nat) : State :=
  match nextHit s (fun u => u == .audit vx) with
  | none => s
  | some h =>
    let a := s.vc.audit
    let n := Nat.min 65535 (fld a 47 32 + 1)
    let s1 := countSilent { dropHit s h with
      vc.audit := w64 (n * 2 ^ 32 + tile * 2 ^ 24 + detail % 16 * 2 ^ 20 + fld a 15 0) }
    queueFault s1 f.q f.entry 0x29 detail (wordTval f.entry)

/-- What a word leaves besides R94: the mailbox of a recv.m, the audit of an MMA (R164, R210). -/
def completeExtra (s : State) (f : Flight) : State :=
  match f.work with
  | .recv 2 k => setM s k (w64 (leNat f.got))
  | .mma c => auditEnd { s with vc := auditOne s.vc } f false c.tile f.audit
  | .vec _ _ _ _ => auditEnd s f true 255 (0x40 + f.audit)
  | _ => s

/-- The word completes at this beat; an Elastic launch holds it while its record finds no room (R103). -/
def completeWord (s : State) (f : Flight) : State :=
  match recordAtEnd f with
  | none => completeFlight (completeExtra s f) f
  | some j =>
    let f1 := { f with copy := some { j with posted := true } }
    if s.launch.mode = .elastic ∧ eventRoom s = false then
      copyRecord (setFlight s { f1 with done := none }) f j 0 j.lines.length (f.seq + 1)
    else completeFlight (copyRecord s f j 0 j.lines.length 0) f1

/-- The word completes at this beat. -/
def Flight.dueNow (f : Flight) (now : Nat) : Bool :=
  !f.faulted && !f.ended && (match f.done with
    | some d => decide (d ≤ now)
    | none => false)

/-- ENGINE_WORD_COMPLETION: word `id` completes (R94). -/
def execEngineWordCompletion (id : Nat) (s : State) : Out :=
  match flightAt s id with
  | none => .next s
  | some f => if f.dueNow s.vc.now && !frozenNow s then .next (completeWord s f) else .next s

/-- Words of the virtual core that complete at this beat, by queue and age (R94). -/
def dueWords (v : VC) : List Nat :=
  allQueues.flatMap (fun q => (v.eng.flights.filter (fun f => f.q == q && f.dueNow v.now)).map (fun f => f.seq))

/-- A cpy.xc whose pieces have all landed posts its record (R233, R236). -/
def finishXc (s : State) : State :=
  (s.vc.eng.flights.filter (fun f => f.ended && f.accs.isEmpty && (match f.copy with
      | some j => j.op == 7 && !s.launch.maps.any (fun a => a.src == s.vc.id && a.seqS == some f.seq)
      | none => false))).foldl
    (fun t f =>
      let t1 := dropFlight t f.seq
      match f.copy with
      | some j => if ccbEv j.ccb then copyRecord t1 f j 0 j.lines.length 0 else t1
      | none => t1) s

/-- Words that have completed and made their last write are gone. -/
def sweepEnded (s : State) : State :=
  { s with vc.eng.flights := s.vc.eng.flights.filter (fun f => !(f.ended && f.accs.isEmpty && f.copy.isNone)) }

/-- EVENT_RECORD_HELD_POST: an entry has been freed; the oldest held record is posted at the next beat, and the word or the
collective that it holds completes at this one (R103, R104). -/
def execEventRecordHeldPost (s : State) : Out :=
  match s.vc.eng.heldEv with
  | [] => .next s
  | h :: r =>
    if s.evCap ≤ s.vc.eng.events.length + s.vc.eng.evIn.length then .next s
    else
      let b := s.vc.now + 1
      let s1 : State := { s with
        vc.eng.heldEv := r,
        vc.eng.evIn := s.vc.eng.evIn ++ [{ h with beat := b, w0 := w64 (b % 2 ^ 24 * 2 ^ 40 + h.w0.toNat), hold := 0 }] }
      if h.hold = 0 then .next s1
      else
        .next { s1 with
          vc.eng.flights := s1.vc.eng.flights.map (fun f =>
            if f.seq + 1 = h.hold then { f with done := some s.vc.now } else f),
          vc.colls := s1.vc.colls.filter (fun c => c.num + 1 != h.hold),
          vc.sentColls := ((s1.vc.colls.filter (fun c => c.num + 1 == h.hold)).foldl VC.keepColl s1.vc).sentColls }

/-! ### Overruns (R96) -/

/-- The fence mask of an engine word, when it is a queue fence (R271). -/
def fenceMask (w : Word32) : Option (BitVec 7) :=
  let mj := (majorOf w).toNat
  let mn := (emin w).toNat
  if (mj = 0x33 ∧ mn = 1) ∨ (mj = 0x3B ∧ mn = 1) ∨ (mj = 0x3D ∧ mn = 9) then some (w.extractLsb' 0 7) else none

/-- The token bits of an entry. -/
def entryBits9 (e : QEntry) : EngBits := engBits { imm := none, stamp := e.stamp, param := none, metaP := e.metaP } e.word

/-- OVERRUN: the head word of queue u of a Lockstep launch meets its scheduled beat late, without its token, or with a
stamp that is behind (R96, R271). -/
def execOverrun (u : Queue) (s : State) : Out :=
  match headOf s u with
  | none => .next s
  | some e =>
    let b := entryBits9 e
    if queueHeld s u || (e.shared && !sharedAtHead s e) || decide (s.vc.now < e.ready)
        || decide (s.launch.mode = .elastic) || e.bad then .next s
    else
      match tokenFifos s u b with
      | none => .next s
      | some (pops, _) =>
        let (sb, behind) := sched (queueNext s u e.shared) b.delay.toNat b.stamp
        let late := match fenceMask e.word with
          | some m => !qfenceHolds s m e
          | none => false
        match overrunNow s u e sb (stoodBeat s e) behind late pops with
        | some t => .next t
        | none => .next s

/-! ### Landings of the on-chip map (R169) -/

/-- Remove map access number n. -/
def dropMap (s : State) (n : Nat) : State := { s with launch.maps := s.launch.maps.eraseIdx n }

/-- The effect of a landing write on its target, but for scratchpad bytes (R159, R169, R195). -/
def mapLand (v : VC) (a : MapAcc) (w : MapWhat) : VC :=
  let x := w64 (leNat a.data)
  match w with
  | .bytes => v.putChip a.off a.data
  | .x _ => v
  | .y n => if v.ywrote.contains n then v else { v with ctl.y := mput 0 v.ctl.y n x }
  | .m n => { v with ctl.m := mput 0 v.ctl.m n x }
  | .z z k => v.zset z k x
  | .g n 0 => let u := ringReset v n
              { u with g := mput ringZero u.g n { u.ring n with w0 := x } }
  | .g _ _ => v
  | .b n k => { v with b := mput 0 v.b (16 * n + k) (BitVec.ofNat 32 x.toNat) }
  | .tpb t k =>
    let old := (v.tpb t k).toNat
    let m := tpbMask k
    v.putChip (tpbAt t k) (leBytes ((old - (old &&& m)) + (x.toNat &&& m)) 8)

/-- Whose the bytes of a landing are (R153): those of a piece of a cpy.xc are one access, every other write is one of its own. -/
def MapAcc.owner (a : MapAcc) (k : Nat) : Nat :=
  match a.seqS with
  | some q => 2 ^ 59 + (a.src * 2 ^ 32 + q % 2 ^ 32) * 2 ^ 16 + a.piece % 2 ^ 16
  | none => 2 ^ 50 + k

/-- A piece of a cpy.xc that has lost its bank at beat b makes the later ones a beat later, each in its turn (R153; log 59). -/
def MapAcc.behind (a : MapAcc) (b : Nat) (x : MapAcc) : MapAcc :=
  if a.seqS.isSome ∧ x.src = a.src ∧ x.seqS = a.seqS ∧ a.piece < x.piece then { x with due := Nat.max x.due (b + 1 + (x.piece - a.piece)) } else x

/-- Bytes of a landing in the scratchpad, at inbound rank; a busy bank delays it a beat (R153). DESIGN CHOICE (log 81): CTL's stores to
its own window land at inbound rank too, as R169 says, not at rank 7 of R153. -/
def mapBytes (s : State) (n : Nat) (a : MapAcc) : State :=
  let ws := (a.data.zip (countUp a.off a.data.length)).map (fun p => (p.2, (0xFF : Byte), p.1))
  let owner := a.owner s.vc.claims.length
  let (cl, chip, lost) := writeAll owner ws s.vc.claims s.vc.chip
  if lost.isEmpty then charge (dropMap { s with vc.claims := cl, vc.chip := chip } n) .sp a.data.length
  else
    let v := loseBanks s.vc 0 (lostBanks s.vc.claims [] (lost.map (fun t => t.1)) owner)
    { s with vc := v, launch.maps := (s.launch.maps.map (a.behind s.vc.now)).set n { a with due := s.vc.now + 1 } }

/-- An earlier access of the same source to the same window has not landed (R169). -/
def mapEarlier (s : State) (n : Nat) (a : MapAcc) : Bool :=
  (s.launch.maps.take n).any (fun x => x.src == a.src && x.dst == a.dst && x.seqS.isNone && a.seqS.isNone)

/-- MAP_ACCESS_LANDING: map access n of the launch lands on its target; a new version of a stream waits while it would be
the fifth (R67, R169). -/
def execMapAccessLanding (n : Nat) (s : State) : Out :=
  match s.launch.maps[n]? with
  | none => .next s
  | some a =>
    if decide (a.dst ≠ s.vc.id) || decide (s.vc.now < a.due) || frozenNow s || mapEarlier s n a then .next s
    else
      match mapWhat s a.off with
      | none => .next (dropMap s n)
      | some .bytes =>
        if a.off < s.share then .next (mapBytes s n a)
        else .next (charge (dropMap { s with vc := mapLand s.vc a .bytes } n) .sp a.data.length)
      | some (.z z k) =>
        if s.vc.zFull z then .next s else .next (dropMap { s with vc := mapLand s.vc a (.z z k) } n)
      | some w => .next (dropMap { s with vc := mapLand s.vc a w } n)

end Sys2Proof.Machine
end

