-- ==== Sys2Proof/Machine/Fabric.lean ====
section
/-! DEFINITION. Fragments, their check word and their codes, and the exact contributions of reductions (15_fabric
R303-R308, R318-R321). -/

namespace Sys2Proof.Machine

/-! ### CRC-32C (R304) -/

/-- One bit of the reflected Castagnoli division. -/
def crcBit (c : Nat) : Nat := if c % 2 = 1 then (c / 2) ^^^ 0x82F63B78 else c / 2
/-- One byte. -/
def crcByte (c : Nat) (b : Byte) : Nat := (countUp 0 8).foldl (fun x _ => crcBit x) (c ^^^ b.toNat)
/-- CRC-32C of a list of bytes. -/
def crc32c (d : List Byte) : Nat := (d.foldl crcByte (2 ^ 32 - 1)) ^^^ (2 ^ 32 - 1)

/-! ### Fields (R79, R306) -/

/-- The moduli of M31 and M61; 0 stands for GF(2^8). -/
def fieldP (field : Nat) : Nat := if field = 1 then 2 ^ 31 - 1 else if field = 2 then 2 ^ 61 - 1 else 0

/-- Twice an element of GF(2^8) on 0x11D. -/
def gfTwice (a : Nat) : Nat := if 256 ≤ 2 * a then (2 * a) ^^^ 0x11D else 2 * a
/-- The product in GF(2^8). -/
def gfMul (a b : Nat) : Nat :=
  ((countUp 0 8).foldl (fun (x : Nat × Nat) i => (if bit b i then x.1 ^^^ x.2 else x.1, gfTwice x.2)) (0, a)).1

/-- Sum, difference and product in the field with modulus p, or GF(2^8) for p = 0. -/
def fAdd (p a b : Nat) : Nat := if p = 0 then a ^^^ b else (a + b) % p
def fSub (p a b : Nat) : Nat := if p = 0 then a ^^^ b else (a % p + p - b % p) % p
def fMul (p a b : Nat) : Nat := if p = 0 then gfMul a b else a * b % p
/-- a^n, for n below 2^61. -/
def fPow (p a n : Nat) : Nat :=
  ((countUp 0 61).foldl (fun (x : Nat × Nat) i => (if bit n i then fMul p x.1 x.2 else x.1, fMul p x.2 x.2)) (1, a)).1
/-- The inverse of a nonzero element. -/
def fInv (p a : Nat) : Nat := fPow p a (if p = 0 then 254 else p - 2)

/-- G(j, i) = y_i / (y_i − j), y_i = 8 + i (R306). -/
def codeG (p j i : Nat) : Nat := fMul p (8 + i) (fInv p (fSub p (8 + i) j))

/-- Bytes of a symbol of a payload: 1, 4 or 8 (R306). -/
def symBytes (field : Nat) : Nat := if field = 1 then 4 else if field = 2 then 8 else 1

/-- A payload's symbols. -/
def symbols (field : Nat) (d : List Byte) : List Nat :=
  let w := symBytes field
  (countUp 0 (256 / w)).map (fun t => leNat ((countUp (t * w) w).map (listAt 0 d)))

/-- A payload from its symbols. -/
def payloadOf (field : Nat) (l : List Nat) : List Byte := l.flatMap (fun v => leBytes v (symBytes field))

/-- The m code payloads of k data payloads (R306). -/
def codePayloads (field m : Nat) (ds : List (List Byte)) : List (List Byte) :=
  if field = 3 then (countUp 0 m).map (fun _ => listAt [] ds 0)
  else
    let p := fieldP field
    let syms := ds.map (symbols field)
    (countUp 0 m).map (fun j =>
      payloadOf field ((countUp 0 (256 / symBytes field)).map (fun t =>
        (syms.zip (countUp 0 syms.length)).foldl (fun a x => fAdd p a (fMul p (codeG p j x.2) (listAt 0 x.1 t))) 0)))

/-- The row of fragment i among k data fragments. -/
def codeRow (p k i : Nat) : List Nat :=
  (countUp 0 k).map (fun c => if i < k then b2n (decide (i = c)) else codeG p (i - k) c)

/-- Remove the first row with a nonzero entry in column c. -/
def pivotRow (c : Nat) : List (List Nat × List Nat) → Option ((List Nat × List Nat) × List (List Nat × List Nat))
  | [] => none
  | r :: rest =>
    if listAt 0 r.1 c ≠ 0 then some (r, rest)
    else
      match pivotRow c rest with
      | some (x, l) => some (x, r :: l)
      | none => none

/-- Subtract f times row x from row r. -/
def rowSub (p f : Nat) (r x : List Nat) : List Nat := (r.zip x).map (fun q => fSub p q.1 (fMul p f q.2))

/-- Solve rows of coefficients and payload symbols: the rows of the identity, in order. -/
def solveRows (p : Nat) : List Nat → List (List Nat × List Nat) → List (List Nat × List Nat) → List (List Nat)
  | [], _, done => done.map (fun r => r.2)
  | c :: cs, todo, done =>
    match pivotRow c todo with
    | none => done.map (fun r => r.2)
    | some (x, rest) =>
      let inv := fInv p (listAt 0 x.1 c)
      let x1 := (x.1.map (fMul p inv), x.2.map (fMul p inv))
      let clear (r : List Nat × List Nat) : List Nat × List Nat :=
        let f := listAt 0 r.1 c
        (rowSub p f r.1 x1.1, rowSub p f r.2 x1.2)
      solveRows p cs (rest.map clear) (done.map clear ++ [x1])

/-- The k data payloads of a message from any k of its fragments (R309). -/
def darnPayloads (field k : Nat) (frags : List (Nat × List Byte)) : List (List Byte) :=
  if field = 3 then [(match frags.head? with
    | some f => f.2
    | none => [])]
  else
    let p := fieldP field
    (solveRows p (countUp 0 k) ((frags.take k).map (fun f => (codeRow p k f.1, symbols field f.2))) []).map (payloadOf field)

/-! ### Headers (R304) -/

/-- The fields of a header but the index. -/
structure Head where
  dst  : Nat
  src  : Nat
  dvc  : Nat
  tc   : Nat
  k    : Nat
  msg  : Nat
  m    : Nat
  rot  : Nat
  field : Nat
  len  : Nat
  grp  : Nat
  cseq : Nat
  e    : Nat
  ov   : Bool
  chunk : Nat
  dl   : Nat
  ncon : Nat
  deriving DecidableEq, Repr, Inhabited

/-- The four header words of fragment i. -/
def Head.words (h : Head) (i : Nat) : List Word64 :=
  [w64 (h.dst % 2 ^ 18 * 2 ^ 46 + h.src % 2 ^ 18 * 2 ^ 28 + h.dvc % 1024 * 2 ^ 18 + h.tc % 16 * 2 ^ 14 + i * 256
     + (h.k - 1) * 8),
   w64 (h.msg % 2 ^ 32 * 2 ^ 32 + h.m * 2 ^ 28 + h.rot * 2 ^ 22 + h.field * 2 ^ 20 + (h.len - 1) * 128),
   w64 (h.grp * 2 ^ 56 + h.cseq % 2 ^ 32 * 2 ^ 24 + h.e * 2 ^ 16 + b2n h.ov * 2 ^ 15 + h.chunk % 2 ^ 15),
   w64 (h.dl % 2 ^ 24 * 2 ^ 40 + (h.ncon % 2 ^ 19) * 2 ^ 21)]

/-- A fragment's header words. -/
def fragWords (f : Fragment) : List Word64 := [f.w0, f.w1, f.w2, f.w3]

/-- The header of a fragment. -/
def headOfFrag (f : Fragment) : Head :=
  { dst := fld f.w0 63 46, src := fld f.w0 45 28, dvc := fld f.w0 27 18, tc := fld f.w0 17 14, k := fld f.w0 7 3 + 1,
    msg := fld f.w1 63 32, m := fld f.w1 31 28, rot := fld f.w1 27 22, field := fld f.w1 21 20, len := fld f.w1 19 7 + 1,
    grp := fld f.w2 63 56, cseq := fld f.w2 55 24, e := fld f.w2 23 16, ov := fld f.w2 15 15 == 1,
    chunk := fld f.w2 14 0, dl := fld f.w3 63 40, ncon := fld f.w3 39 21 }

/-- The index of a fragment. -/
def fragIdx (f : Fragment) : Nat := fld f.w0 13 8

/-- The bytes that the check word covers. -/
def fragBytes (f : Fragment) : List Byte := (fragWords f).flatMap (fun w => leBytes w.toNat 8) ++ f.payload

/-- The check word and the reserved fields hold (R305). -/
def fragSound (f : Fragment) : Bool :=
  f.crc.toNat == crc32c (fragBytes f) && fld f.w0 2 0 == 0 && fld f.w1 6 0 == 0 && fld f.w3 20 0 == 0
    && f.payload.length == 256

/-- Fragment i of a message. -/
def mkFrag (h : Head) (i : Nat) (d : List Byte) : Fragment :=
  let ws := h.words i
  let f : Fragment := { w0 := listAt 0 ws 0, w1 := listAt 0 ws 1, w2 := listAt 0 ws 2, w3 := listAt 0 ws 3,
                        payload := d, crc := 0, port := BitVec.ofNat 6 ((i + h.rot) % 36) }
  { f with crc := BitVec.ofNat 32 (crc32c (fragBytes f)) }

/-- A message cut into payloads of 256 bytes, the last padded with zeros (R306). -/
def cutPayloads (d : List Byte) (k : Nat) : List (List Byte) :=
  (countUp 0 k).map (fun i => (countUp (256 * i) 256).map (listAt 0 d))

/-! ### Combining (R307, R330) -/

/-- Two fragments carry the same key, index and class, and a field that is combined (R307). -/
def combines (a b : Fragment) : Bool :=
  let x := headOfFrag a
  let y := headOfFrag b
  x.tc == y.tc && (x.tc == 1 || x.tc == 2 || x.tc == 5) && x.grp == y.grp && x.cseq == y.cseq && x.chunk == y.chunk
    && x.dst == y.dst && x.field == y.field && x.field != 0 && fragIdx a == fragIdx b && x.src != y.src

/-- Two vote packets become one (R330): the flags are ORed, bit 12 is set where the other bits differ, and the greater loss is
taken. -/
def mergeVotes (a b : Nat) : Nat :=
  let lo := (a ||| b) % 2 ^ 13 ||| (if bits a 31 16 = bits b 31 16 then 0 else 4096)
  (fpF32.minmax true (bits a 63 32) (bits b 63 32)).1 * 2 ^ 32 + bits a 31 16 * 65536 + (lo ||| (bits a 15 15 * 32768))

/-- The payload of a combined fragment: lanes added mod p, exponents by their maximum, votes merged (R307, R319, R330). -/
def combinePayloads (tc field : Nat) (a b : List Byte) : List Byte :=
  if field = 3 then
    (if tc = 2 then leBytes (mergeVotes (leNat (a.take 8)) (leNat (b.take 8))) 8 ++ a.drop 8
     else leBytes (Nat.max (leNat (a.take 4)) (leNat (b.take 4))) 4 ++ a.drop 4)
  else payloadOf field (((symbols field a).zip (symbols field b)).map (fun p => fAdd (fieldP field) p.1 p.2))

/-- Two fragments combined (R304, R307): the contributions are added and a new check word is written. -/
def combine (a b : Fragment) : Fragment :=
  let x := headOfFrag a
  let y := headOfFrag b
  { mkFrag { x with src := Nat.min x.src y.src, ncon := x.ncon + y.ncon, ov := x.ov || y.ov } (fragIdx a)
      (combinePayloads x.tc x.field a.payload b.payload) with port := a.port }

/-- A fragment joins those that the fabric engine has still to send: it is combined with one of its key, index and class (R307). -/
def joinOut (l : List Fragment) (f : Fragment) : List Fragment :=
  match l.find? (combines f) with
  | some g => l.map (fun x => if x = g then combine g f else x)
  | none => l ++ [f]

/-- Send a message: its fragments leave on the planes of R303 whose links are up, and are charged to `who` of the launch `owner` (R322). -/
def sendFor (s : State) (owner : Option LaunchTag) (who : Option Nat) (h : Head) (d : List Byte) : State :=
  let ds := cutPayloads d h.k
  let all := ds ++ codePayloads h.field h.m ds
  let fs := (all.zip (countUp 0 all.length)).map (fun p => mkFrag h p.2 p.1)
  let up := fs.filter (fun f => s.dev.links.contains f.port.toNat)
  chargeFor { s with part.outbox := up.foldl joinOut s.part.outbox } owner who .frag fs.length

/-- Send a message of the running launch, or of the device. -/
def sendMessage (s : State) (who : Option Nat) (h : Head) (d : List Byte) : State := sendFor s (launchTag s) who h d

/-! ### Exact contributions (R318-R321) -/

/-- A contribution of R318: its residue, its flags, and whether it overflows the exponent. -/
def contribute (v : Val) (e : Nat) (f : Int) (p : Nat) : Nat × Nat × Bool :=
  match v with
  | .nan _ => (0, fNv, false)
  | .inf _ => (0, fOf, false)
  | .fin n m x =>
    if m = 0 then (0, 0, false)
    else if (e : Int) - 127 ≤ (Nat.log2 m : Int) + x then (0, 0, true)
    else
      let sh := x + f
      let q := if 0 ≤ sh then m * 2 ^ sh.toNat else m / 2 ^ (-sh).toNat
      let lost := decide (sh < 0) && decide (m % 2 ^ (-sh).toNat ≠ 0)
      ((if n then (p - q % p) % p else q % p), if lost then fLs else 0, false)

/-- floor(log2 max |x|) + 128 over the finite nonzero elements, 0 without any, at most 255 (R319, R320). -/
def ecOf (vs : List Val) : Nat :=
  vs.foldl (fun a v => match v with
    | .fin _ m x =>
      if m = 0 then a
      else
        let c : Int := (Nat.log2 m : Int) + x + 128
        Nat.max a (if 255 ≤ c then 255 else c.toNat)
    | _ => a) 0

/-- The centred decode of a residue (R79). -/
def centred (p v : Nat) : Int := if 2 * (v % p) ≤ p - 1 then ((v % p : Nat) : Int) else ((v % p : Nat) : Int) - p

/-- S·2^−f as an exact value. -/
def laneVal (S : Int) (f : Int) : Val := .fin (decide (S < 0)) S.natAbs (if S = 0 then 0 else -f)

end Sys2Proof.Machine
end

