-- ==== Sys2Proof/Machine/Atomics.lean ====
section
/-! DEFINITION. Atomics: major 0x23, and their performance at the home port (13_ordering R272-R277; 15_fabric R329). -/

namespace Sys2Proof.Machine

/-! ### The operation (R272, R273) -/

/-- The operations of R272. -/
inductive AOp where
  | add | and | or | xor | min | max | swap | cas
  deriving DecidableEq, Repr, Inhabited

def AOp.code : AOp → Nat
  | .add => 0 | .and => 1 | .or => 2 | .xor => 3 | .min => 4 | .max => 5 | .swap => 6 | .cas => 7
def AOp.ofCode (n : Nat) : AOp :=
  match n with
  | 0 => .add | 1 => .and | 2 => .or | 3 => .xor | 4 => .min | 5 => .max | 6 => .swap | _ => .cas

/-- Bytes of a type (R273). -/
def atomBytes : AType → Nat
  | .i32 | .n32 | .f32 => 4
  | _ => 8
def atomFp : AType → Option Fp
  | .f32 => some fpF32 | .f64 => some fpF64 | _ => none
def atomSigned : AType → Bool
  | .i32 | .i64 => true
  | _ => false

/-- new of R273, its flags, and whether it is written: op on old and v, with `cmp` the comparand of cas. -/
def atomNew (op : AOp) (t : AType) (old v cmp : Nat) : Nat × Nat × Bool :=
  let w := 8 * atomBytes t
  let less (x y : Nat) : Bool := if atomSigned t then decide (signed w x < signed w y) else decide (x < y)
  match op with
  | .add =>
    (match atomFp t with
     | some f => let r := f.add .rne old v
                 (r.1, r.2, true)
     | none => ((old + v) % 2 ^ w, 0, true))
  | .and => (old &&& v, 0, true)
  | .or => (old ||| v, 0, true)
  | .xor => (old ^^^ v, 0, true)
  | .min =>
    (match atomFp t with
     | some f => let r := f.minmax false old v
                 (r.1, r.2, true)
     | none => (if less v old then v else old, 0, true))
  | .max =>
    (match atomFp t with
     | some f => let r := f.minmax true old v
                 (r.1, r.2, true)
     | none => (if less old v then v else old, 0, true))
  | .swap => (v, 0, true)
  | .cas => (v, 0, decide (old = cmp))

/-- What xd takes from old: sign-extended, zero-extended, or f32 by R113 (R273). -/
def atomResult (t : AType) (old : Nat) : Word64 :=
  match t with
  | .i32 => w64 (pat 64 (signed 32 old))
  | _ => w64 old

/-! ### Windows (R328, R329) -/

/-- Words of a window's record. -/
def Window.base (w : Window) : Nat := fld (listAt 0 w.w 0) 55 0
def Window.size (w : Window) : Nat := fld (listAt 0 w.w 1) 12 0
def Window.shadow (w : Window) : Nat := fld (listAt 0 w.w 2) 55 0
def Window.e (w : Window) : Nat := fld (listAt 0 w.w 3) 31 24
def Window.mode (w : Window) : Nat := fld (listAt 0 w.w 3) 19 18
def Window.home (w : Window) : Nat := fld (listAt 0 w.w 3) 17 0
/-- Bytes and number of the window's elements. -/
def Window.elem (w : Window) : Nat := if w.mode = 2 then 8 else 4
def Window.count (w : Window) : Nat := w.size / w.elem

/-- The registered window that holds an address. -/
def windowAt (s : State) (a : Nat) : Option Window :=
  s.part.windows.find? (fun w => !w.dropped && decide (w.base ≤ a) && decide (a < w.base + w.size))

/-- The virtual core in focus registered the window: it is the member on this device. -/
def Window.mine (s : State) (w : Window) : Bool := w.vc == s.vc.id && decide (w.owner = launchTag s)

/-- The window combines a member's no-return adds of this type (R329). -/
def Window.takes (w : Window) (t : AType) : Bool :=
  match t with
  | .i32 | .n32 => w.mode == 0
  | .f32 => w.mode == 1
  | .f64 => w.mode == 2
  | _ => false

/-- Word k of group g of the partition (R315). -/
def groupWord (s : State) (g k : Nat) : Word64 := mget 0 s.part.groups (8 * g + k)
/-- H of a group (R315). -/
def groupH (s : State) (g : Nat) : Nat := fld (groupWord s g 3) 36 32

/-- f of a window (R329). -/
def windowF (s : State) (w : Window) : Int := 59 - (groupH s w.group : Int) - 20 - ((w.e : Int) - 127)

/-- An add into a window (R329): the accumulator of its element takes the contribution; its flags. -/
def windowAdd (s : State) (w : Window) (t : AType) (a v : Nat) : State × Nat :=
  let p := fieldP 2
  let (q, fl, ov) : Nat × Nat × Bool := match atomFp t with
    | some f => contribute (f.decode v) w.e (windowF s w) p
    | none => (((if atomSigned t then signed 32 v else (v : Int)) % (p : Int)).toNat, 0, false)
  let i := (a - w.base) / w.elem
  let w1 := { w with acc := mput 0 w.acc i ((mget 0 w.acc i + q) % p), ov := w.ov || ov }
  ({ s with part.windows := s.part.windows.map (fun x => if x = w then w1 else x) }, fl)

/-! ### At the home port (R273-R275) -/

/-- Perform an atomic on its granule at the home port, to which no line moves (R360): the old value and its flags; it waits when a first
write waits for the drain queue (R274, R287). -/
def homeAtomic (s : State) (pa : Nat) (e : TlbE) (op : AOp) (t : AType) (v cmp : Nat) (tag : Option Nat) :
    MemR (Nat × Nat) :=
  let n := atomBytes t
  if (if e.vb then vPoisoned s e.frame (pa - e.frame) else poisoned s pa) then .fault s 0x28 8
  else
    let (s1, b) := if e.vb then vRead s e.frame (pa - e.frame) n
                   else (l2Access s (some s.vc.id) 0 (pa / 128) false, physRead s pa n)
    let old := leNat b
    let (new, fl, wr) := atomNew op t old v cmp
    if !wr then .ok s1 (old, fl)
    else if e.vb then
      match vWrite s1 e.frame (pa - e.frame) (leBytes new n) tag with
      | some s2 => .ok s2 (old, fl)
      | none => .wait s1
    else .ok (physWrite (l2Access s1 (some s1.vc.id) 0 (pa / 128) true) pa (leBytes new n)) (old, fl)

/-- The checks of R273 in their order: those of R121, then the map, which is not translated, then translation. -/
def atomicCheck (s : State) (a : Word64) (n : Nat) : MemR (Nat × TlbE) :=
  match addrCheck a n with
  | some (c, d) => .fault s c d
  | none => if inMap a.toNat then .fault s 6 3 else translate s a.toNat .atomic

/-- The order faults of R273. -/
def orderFault (s : State) (a : Nat) (op : AOp) (t : AType) (ret : Bool) : Bool :=
  let w := windowAt s a
  let exact := match w with
    | some x => x.mode == 1 || x.mode == 2
    | none => false
  (decide (op = .add) && (atomFp t).isSome && decide (s.launch.mode = .lockstep) && (ret || !exact)) || (ret && w.isSome)

/-- The line of the granule leaves the data cache before the atomic leaves CTL (R273). -/
def atomicDrop (s : State) (pa : Nat) (e : TlbE) : State := if e.vb then s else dropLine s (pa / 128)

/-- The data cache holds bytes of a line that stores have dirtied which the Collie has still to match (R390). -/
def unmatchedLine (s : State) (line : Nat) : Bool := !settled s && s.vc.dcache.any (fun l => l.line == line && l.dirty != 0)

/-- An atomic has passed its checks; `k` goes on with its place. One that returns a value leaves CTL once the Collie has matched it
(R390). -/
def atomicOp (s : State) (ra : BitVec 6) (t : AType) (op : AOp) (ret : Bool) (k : State → Nat → TlbE → Out) : Out :=
  let a := xr s ra
  memThen s a (atomicCheck s a (atomBytes t)) (fun s1 p =>
    if orderFault s1 a.toNat op t ret then ctlFault s1 0x24 0 0
    else if p.2.vb && (epochTag s1).isNone then ctlFault s1 0x21 4 0
    else if granuleBusy s1 p.1 || (!ret && unmatchedLine s1 (p.1 / 128)) then .next s1
    else if ret && !matchedNow s1 then .next (awaitMatch s1)
    else k (atomicDrop s1 p.1 p.2) p.1 p.2)

/-- A returning atomic: it retires when its value returns (R273, R275). -/
def aretOp (s : State) (rd ra rb : BitVec 6) (t : AType) (op : AOp) : Out :=
  let n := atomBytes t
  atomicOp s ra t op true (fun s1 pa e =>
    memThen s (xr s ra) (homeAtomic s1 pa e op t ((xr s rb).toNat % 2 ^ (8 * n)) ((xr s rd).toNat % 2 ^ (8 * n)) (epochTag s1))
      (fun s2 r => .next (retire (raiseFlags (setX (charge s2 .atm) rd (atomResult t r.1)) r.2))))

/-- A no-return atomic: it retires once its checks pass, and is performed later (R275, R370), when the Collie has matched it (R390). An add
into a window that another virtual core registered is performed at the home port (R329; log 88). -/
def aredOp (s : State) (ra rb : BitVec 6) (t : AType) (op : AOp) : Out :=
  let a := xr s ra
  atomicOp s ra t op false (fun s1 pa e =>
    if 128 ≤ inFlight s1.vc then
      (match s1.launch.mode with
       | .lockstep => ctlFault s1 0x2B 0 0
       | .elastic => .next s1)
    else
      let win := match windowAt s1 a.toNat with
        | some w => if decide (op = .add) && w.takes t && w.mine s1 then some w.base else none
        | none => none
      let p : PendAtomic :=
        { op := op.code, t := t, va := a.toNat, pa := pa, vb := e.vb, v := (xr s rb).toNat % 2 ^ (8 * atomBytes t),
          epoch := epochTag s1, window := win, name := nameOfPc s.vc.ctl.pc, seq := s1.vc.eng.nextSeq, issued := s1.vc.now,
          after := s1.vc.pulse + 3, faulted := false }
      .next (retire { charge s1 .atm with vc.atomics := s1.vc.atomics ++ [p], vc.eng.nextSeq := s1.vc.eng.nextSeq + 1 }))

/-- aadd (R273). -/
def execAadd (rd ra rb : BitVec 6) (t : AType) (s : State) : Out := aretOp s rd ra rb t .add

/-- aand (R273). -/
def execAand (rd ra rb : BitVec 6) (t : AType) (s : State) : Out := aretOp s rd ra rb t .and

/-- aor (R273). -/
def execAor (rd ra rb : BitVec 6) (t : AType) (s : State) : Out := aretOp s rd ra rb t .or

/-- axor (R273). -/
def execAxor (rd ra rb : BitVec 6) (t : AType) (s : State) : Out := aretOp s rd ra rb t .xor

/-- amin (R273). -/
def execAmin (rd ra rb : BitVec 6) (t : AType) (s : State) : Out := aretOp s rd ra rb t .min

/-- amax (R273). -/
def execAmax (rd ra rb : BitVec 6) (t : AType) (s : State) : Out := aretOp s rd ra rb t .max

/-- aswap (R273). -/
def execAswap (rd ra rb : BitVec 6) (t : AType) (s : State) : Out := aretOp s rd ra rb t .swap

/-- acas: the comparand is xd (R273). -/
def execAcas (rd ra rb : BitVec 6) (t : AType) (s : State) : Out := aretOp s rd ra rb t .cas

/-- ared.add: into a window it is combined there (R273, R329). -/
def execAredAdd (ra rb : BitVec 6) (t : AType) (s : State) : Out := aredOp s ra rb t .add

/-- ared.and (R273). -/
def execAredAnd (ra rb : BitVec 6) (t : AType) (s : State) : Out := aredOp s ra rb t .and

/-- ared.or (R273). -/
def execAredOr (ra rb : BitVec 6) (t : AType) (s : State) : Out := aredOp s ra rb t .or

/-- ared.xor (R273). -/
def execAredXor (ra rb : BitVec 6) (t : AType) (s : State) : Out := aredOp s ra rb t .xor

/-- ared.min (R273). -/
def execAredMin (ra rb : BitVec 6) (t : AType) (s : State) : Out := aredOp s ra rb t .min

/-- ared.max (R273). -/
def execAredMax (ra rb : BitVec 6) (t : AType) (s : State) : Out := aredOp s ra rb t .max

/-! ### Later performance (R275, R277) -/

/-- Pending atomic number n is gone; its flags enter at the beat after this one (R273). -/
def atomicDone (s : State) (n fl : Nat) : State :=
  { s with vc := flagsAt { s.vc with atomics := s.vc.atomics.eraseIdx n } (s.vc.now + 1) fl }

/-- An earlier atomic of the virtual core on the same granule comes first (R275). -/
def atomicEarlier (s : State) (n : Nat) (p : PendAtomic) : Bool :=
  (s.vc.atomics.take n).any (fun x => x.pa / 8 == p.pa / 8)

/-- The Collie has matched the atomic (R390), and it is no replay entry. -/
def PendAtomic.free (s : State) (a : PendAtomic) : Bool := 
  decide (a.after ≤ s.vc.pulse) && !a.faulted && !(frozenNow s && PendAtomic.replay s a)

/-- The oldest no-return atomic of the virtual core in focus that may be performed. -/
def firstAtomic (s : State) : Nat := s.vc.atomics.findIdx (PendAtomic.free s)

/-- ATOMIC_HOME_PORT_PERFORM: no-return atomic n of the virtual core is performed; a fault there leaves the granule as it
is and is raised as an operation in flight, and the atomic stays as a replay entry (R275, R277, R377). DESIGN CHOICE (log 89): one that a
handler issues while its Lockstep launch is frozen is performed during the freeze, which holds only what was in flight (R378). -/
def execAtomicHomePortPerform (n : Nat) (s : State) : Out :=
  match s.vc.atomics[n]? with
  | none => .next s
  | some p =>
    if !p.free s || atomicEarlier s n p then .next s
    else
      match p.window.bind (fun b => s.part.windows.find? (fun w => !w.dropped && w.base == b)) with
      | some w =>
        let (s1, fl) := windowAdd s w p.t p.va p.v
        .next (atomicDone s1 n fl)
      | none =>
        let e : TlbE := { page := 0, size := 16, frame := p.pa / 131072 * 131072, vb := p.vb, x := false, w := true, rd := true }
        match homeAtomic s p.pa e (AOp.ofCode p.op) p.t p.v 0 p.epoch with
        | .ok s1 r => .next (atomicDone s1 n r.2)
        | .fault s1 c d =>
          .next (flightFault { s1 with vc.atomics := s1.vc.atomics.set n { p with faulted := true } } s.vc.id c d
            (tvalOf c (w64 p.va)) p.name (some p.seq))
        | .wait s1 => .next s1

end Sys2Proof.Machine
end

