-- ==== Sys2Proof/Machine/Groups.lean ====
section
/-! DEFINITION. Groups and collective descriptors (15_fabric R313-R316, R318-R320, R323). -/

namespace Sys2Proof.Machine

/-! ### The group table (R314, R315) -/

/-- Entries of the group table that the partition owns (R314). -/
def groupCount (s : State) : Nat := 256 / s.m
/-- The device-wide number of group g (R314). -/
def groupEntry (s : State) (g : Nat) : Nat := groupCount s * s.part.idx + g
/-- Fields of a group entry (R315). -/
def groupCseq (s : State) (g : Nat) : Nat := fld (groupWord s g 0) 63 32
def groupSize (s : State) (g : Nat) : Nat := fld (groupWord s g 0) 17 0 + 1
def groupLat (s : State) (g : Nat) : Nat := fld (groupWord s g 3) 63 40
def groupSelf (s : State) (g : Nat) : Nat := fld (groupWord s g 3) 17 0
def groupValid (s : State) (g : Nat) : Bool := fld (groupWord s g 4) 0 0 == 1
/-- kmax and m of class 0, 1, 3 or 5 in slot 0 to 3 of word 2. -/
def groupK (s : State) (g slot : Nat) : Nat := fld (groupWord s g 2) (16 * slot + 9) (16 * slot + 4)
def groupM (s : State) (g slot : Nat) : Nat := fld (groupWord s g 2) (16 * slot + 3) (16 * slot)
/-- Entry i of a group's member list: virtual core and device. -/
def groupMember (s : State) (g i : Nat) : Nat × Nat :=
  let w := leNat (physRead s (fld (groupWord s g 1) 55 0 + 4 * i) 4)
  (bits w 27 18, bits w 17 0)
/-- Entry i of a group's member list is read through the home slice of its line, for the virtual core in focus (R256, R361). -/
def touchMember (s : State) (g i : Nat) : State :=
  l2Access s (some s.vc.id) 1 ((fld (groupWord s g 1) 55 0 + 4 * i) / 128) false
/-- The first n entries of a group's member list are read through the home slices of their lines. -/
def touchMembers (s : State) (g n : Nat) : State :=
  (linesMet (fld (groupWord s g 1) 55 0) (4 * n)).foldl (fun t l => l2Access t (some s.vc.id) 1 l false) s
/-- The member index of a device. -/
def memberOf (s : State) (g dev : Nat) : Option Nat :=
  (countUp 0 (groupSize s g)).find? (fun i => (groupMember s g i).2 == dev)
/-- Set word k of group g. -/
def setGroupWord (s : State) (g k : Nat) (v : Word64) : State :=
  { s with part.groups := mput 0 s.part.groups (8 * g + k) v }
/-- How far the group's cseq has moved beyond a number (R310). -/
def cseqBeyond (s : State) (g n : Nat) : Nat := (groupCseq s g + 2 ^ 32 - n % 2 ^ 32) % 2 ^ 32

/-- Keys of the group stay closed while its cseq has moved 1 to 2^31 beyond them (R310). -/
def pruneClosed (s : State) (g : Nat) : State :=
  let keep (k : List Nat) : Bool :=
    !(decide (listAt 0 k 0 < 2) && listAt 0 k 1 == groupEntry s g)
      || (decide (1 ≤ cseqBeyond s g (listAt 0 k 2)) && decide (cseqBeyond s g (listAt 0 k 2) ≤ 2 ^ 31))
  { s with part.closed := s.part.closed.filter keep }

/-- The group's cseq becomes n. -/
def setCseq (s : State) (g n : Nat) : State :=
  pruneClosed (setGroupWord s g 0 (w64 (n % 2 ^ 32 * 2 ^ 32 + fld (groupWord s g 0) 31 0))) g

/-- Take the group's cseq: it counts on (R325). -/
def takeCseq (s : State) (g : Nat) : State := setCseq s g (groupCseq s g + 1)

/-! ### Descriptors (R323) -/

def descW (d : List Word64) (i : Nat) : Word64 := listAt 0 d i
def descCount (d : List Word64) : Nat := fld (descW d 0) 15 0
def descFld (d : List Word64) : Bool := fld (descW d 0) 18 18 == 1
def descPass (d : List Word64) : Bool := fld (descW d 0) 19 19 == 1
def descEv (d : List Word64) : Bool := fld (descW d 0) 20 20 == 1
def descRoot (d : List Word64) : Nat := fld (descW d 0) 47 30
def descTag (d : List Word64) : Nat := fld (descW d 0) 63 48
def descSfmt (d : List Word64) : Option Fmt := Fmt.ofCode (fld (descW d 1) 26 22)
def descSoff (d : List Word64) : Nat := fld (descW d 1) 21 0
def descDfmt (d : List Word64) : Option Fmt := Fmt.ofCode (fld (descW d 2) 26 22)
def descDoff (d : List Word64) : Nat := fld (descW d 2) 21 0
def descHaddr (d : List Word64) : Nat := fld (descW d 3) 55 0
def descClip (d : List Word64) : Nat := fld (descW d 4) 63 32
def descMbox (d : List Word64) : Nat := fld (descW d 4) 2 0
def descStamp (d : List Word64) : Nat := fld (descW d 5) 23 0

/-- The reserved fields are zero and the count is not. -/
def descSound (d : List Word64) : Bool :=
  fld (descW d 0) 29 21 == 0 && fld (descW d 0) 17 16 == 0 && descCount d != 0 && fld (descW d 1) 63 27 == 0
    && fld (descW d 2) 63 27 == 0 && fld (descW d 3) 63 56 == 0 && fld (descW d 4) 31 3 == 0
    && fld (descW d 5) 63 24 == 0 && descW d 6 == 0 && descW d 7 == 0

/-- A floating format a reduction may take. -/
def redFmt (f : Fmt) : Bool := [Fmt.f32, .f16, .bf16].contains f

/-- The legal formats of R323. -/
def descFormats (op : Nat) (d : List Word64) : Bool :=
  match descSfmt d with
  | none => false
  | some sf =>
    if op ≤ 2 then
      (match descDfmt d with
       | none => false
       | some df =>
         if op = 0 then (redFmt sf && redFmt df) || (decide (sf = .i32) && (decide (df = .i32) || decide (df = .i64)))
           || (decide (sf.cls = .residue) && decide (df = sf))
         else decide (sf = df) && decide (sf ≠ .l4))
    else decide (sf.cls = .floating) && fld (descW d 2) 26 0 == 0

/-- The source and destination as dense streams of n elements. -/
def descStr (f : Option Fmt) (off n : Nat) : Str :=
  slotOf (match f with
    | some x => x
    | none => .f32) n off off

/-- The member reads a source: all but the receivers of a broadcast. -/
def collSends (op : Nat) (d : List Word64) (self : Nat) : Bool := decide (op ≠ 1) || descRoot d == self
/-- The member takes a result in its scratchpad. -/
def collTakes (op : Nat) (d : List Word64) (self : Nat) : Bool := decide (op ≤ 1) || (decide (op = 2) && descRoot d == self)

/-- Elements of the destination. -/
def collDstCount (s : State) (op g : Nat) (d : List Word64) : Nat :=
  if op = 2 then descCount d * groupSize s g else descCount d

/-- Every source and destination byte lies in the share (R324). -/
def descInShare (s : State) (op g : Nat) (d : List Word64) : Bool :=
  let self := groupSelf s g
  let fits (f : Option Fmt) (off n : Nat) : Bool := decide (off + (descStr f off n).packed ≤ s.share)
  (!collSends op d self || fits (descSfmt d) (descSoff d) (descCount d))
    && (!collTakes op d self || fits (descDfmt d) (descDoff d) (collDstCount s op g d))

/-! ### Chunks (R308, R318, R326) -/

/-- The prime field of a collective: 1 M31, 2 M61 (R318, R323, R326). -/
def collField (op : Nat) (d : List Word64) : Nat :=
  if op = 3 then 2
  else
    match descSfmt d with
    | some .i32 => 2
    | some .m61 => 2
    | some .m31 => 1
    | _ => if descFld d then 2 else 1

/-- Exponents apply: floating sources of reductions (R318). -/
def collFloat (op : Nat) (d : List Word64) : Bool :=
  decide (op ≠ 1) && decide (op ≠ 2) && (match descSfmt d with
    | some f => decide (f.cls = .floating)
    | none => false)

/-- Elements of a chunk: lanes of a reduction, or elements of 256·kmax bytes of data (R308). -/
def chunkLanes (s : State) (op g : Nat) (d : List Word64) : Nat :=
  if op = 3 then descCount d
  else if op = 1 ∨ op = 2 then
    256 * groupK s g 0 / (match descSfmt d with
      | some f => f.bytes
      | none => 1)
  else (if collField op d = 1 then 64 else 32) * groupK s g 1

/-- Chunks of one member's stream. -/
def chunkCount (s : State) (op g : Nat) (d : List Word64) : Nat := ceilDiv (descCount d) (chunkLanes s op g d)

/-- f of a chunk under exponent e (R318, R326). -/
def chunkF (s : State) (op g : Nat) (d : List Word64) (e : Nat) : Int :=
  if collFloat op d then
    (if collField op d = 1 then 29 else 59) - (groupH s g : Int) - (if op = 3 then 16 else 0) - ((e : Int) - 127)
  else 0

end Sys2Proof.Machine
end

