-- ==== Sys2Proof/Machine/Collectives.lean ====
section
/-! DEFINITION. The collective words of major 0x29, their source reads and deliveries (15_fabric R318-R327). -/

namespace Sys2Proof.Machine

/-! ### Contributions -/

/-- The group of a collective has this latency. -/
def collLat (s : State) (c : Coll) : Nat := groupLat s c.group

/-- A byte of the source that has been read. -/
def srcByte (c : Coll) (a : Nat) : Byte := listAt 0 c.src (a - descSoff c.desc)

/-- The source stream. -/
def collStr (c : Coll) : Str := descStr (descSfmt c.desc) (descSoff c.desc) (descCount c.desc)

/-- The elements of chunk k. -/
def chunkElems (s : State) (c : Coll) (k : Nat) : List Nat :=
  groupElems (descCount c.desc) (chunkLanes s c.op c.group c.desc) k

/-- Exact values of the elements of a chunk, squared for coll.norm, in the log formats by their quarter-exponents (R76, R326). -/
def chunkVals (s : State) (c : Coll) (k : Nat) : List Val :=
  (chunkElems s c k).map (fun i =>
    if c.op = 3 then prodVal (collStr c) (collStr c) (srcByte c) i i else (collStr c).val (srcByte c) i)

/-- The lanes that a chunk contributes under exponent e, with flags and overflow (R318, R326). -/
def chunkLanesOf (s : State) (c : Coll) (k e : Nat) : List Nat × Nat × Bool :=
  let p := fieldP (collField c.op c.desc)
  if collFloat c.op c.desc then
    let rs := (chunkVals s c k).map (fun v => contribute v e (chunkF s c.op c.group c.desc e) p)
    let fl := rs.foldl (fun a r => a ||| r.2.1) 0
    let ov := rs.any (fun r => r.2.2)
    if c.op = 3 then ([rs.foldl (fun a r => (a + r.1) % p) 0], fl, ov) else (rs.map (fun r => r.1), fl, ov)
  else ((chunkElems s c k).map (fun i => ((collStr c).int (srcByte c) i % (p : Int)).toNat), 0, false)

/-- The header of what a collective sends for chunk k (R303, R304). -/
def collHead (s : State) (c : Coll) (tc field kf m len e : Nat) (ov : Bool) (chunk dl : Nat) : Head :=
  let self := groupMember s c.group (groupSelf s c.group)
  let root := groupMember s c.group (descRoot c.desc)
  let dst := if c.op = 2 then root else self
  let grp := groupEntry s c.group
  { dst := dst.2, src := self.2, dvc := dst.1, tc := tc, k := kf, msg := 0, m := m, rot := (grp + chunk) % 36,
    field := field, len := len, grp := grp, cseq := c.seq, e := e, ov := ov, chunk := chunk,
    dl := if s.launch.mode = .lockstep then dl % 2 ^ 24 else 0, ncon := 1 }

/-- Send the exponent pass of chunk k: ec stands in lane 0 (R319). -/
def sendPass (s : State) (c : Coll) (k dl : Nat) : State :=
  sendMessage s (some s.vc.id) (collHead s c 1 3 1 (groupM s c.group 1) 4 0 false k dl) (leBytes (ecOf (chunkVals s c k)) 4)

/-- The flags of a contribution that do not depend on the exponent (R318). -/
def valueFlags (vs : List Val) : Nat :=
  vs.foldl (fun a v => a ||| (match v with
    | .nan _ => fNv
    | .inf _ => fOf
    | .fin _ _ _ => 0)) 0

/-- Send the sum of chunk k under exponent e; its flags enter at the next beat (R318). DEDUCED (log 68): after an exponent pass
only ls is new, since nv and of entered when the source had been read. -/
def sendSum (s : State) (c : Coll) (k e dl : Nat) (after : Bool) : State :=
  let fd := collField c.op c.desc
  let (ls, fl, ov) := chunkLanesOf s c k e
  let d := payloadOf fd ls
  let s1 := sendMessage s (some s.vc.id)
    (collHead s c 1 fd (ceilDiv d.length 256) (groupM s c.group 1) d.length e ov k dl) d
  { s1 with vc := flagsAt s1.vc (s1.vc.now + 1) (if after then fl &&& fLs else fl) }

/-- Send the bytes of chunk k of a broadcast or gather (R308). -/
def sendData (s : State) (c : Coll) (k dl : Nat) : State :=
  let w := (collStr c).fmt.bytes
  let d := (chunkElems s c k).flatMap (fun i => (countUp (descSoff c.desc + i * w) w).map (srcByte c))
  sendMessage s (some s.vc.id) (collHead s c 0 0 (ceilDiv d.length 256) (groupM s c.group 0) d.length 0 false k dl) d

/-! ### Issue (R324, R325) -/

/-- The hint byte of chunk k: 0 without a hint array (R319). An address in no page, or in one with vb = 1, is a collective fault
(R324, step 4); a page that grants no read is a translation fault. -/
def hintByte (s : State) (h k : Nat) : MemR Nat :=
  if h = 0 then .ok s 0
  else if inMap (h + k) then .fault s 0x25 3
  else
    match translate s (h + k) .read with
    | .ok s1 (pa, e) =>
      if e.vb then .fault s1 0x25 3
      else if poisoned s1 pa then .fault s1 0x28 8
      else
        let (s2, b) := homeRead s1 pa 1
        .ok s2 (leNat b)
    | .fault s1 c d => if d = 4 then .fault s1 c d else .fault s1 0x25 3
    | .wait s1 => .wait s1

/-- The hint bytes of a list of chunks. -/
def hintBytes (s : State) (h : Nat) : List Nat → MemR (List Nat)
  | [] => .ok s []
  | k :: r =>
    match hintByte s h k with
    | .fault s1 c d => .fault s1 c d
    | .wait s1 => .wait s1
    | .ok s1 b =>
      match hintBytes s1 h r with
      | .fault s2 c d => .fault s2 c d
      | .wait s2 => .wait s2
      | .ok s2 l => .ok s2 (b :: l)

/-- A chunk runs an exponent pass first (R319). -/
def passFirst (op : Nat) (d : List Word64) (hint : Nat) : Bool :=
  collFloat op d && (decide (op = 4) || descPass d || descHaddr d == 0 || hint == 0 || hint == 255)

/-- Chunks that the member waits for, from beat `from`: one a chunk of a reduction or broadcast, one a chunk and member for the root
of a gather. -/
def startChunks (s : State) (op g : Nat) (d : List Word64) (hints : List Nat) (start : Nat) : List CChunk :=
  let due := start + groupLat s g
  let n := chunkCount s op g d
  if op = 2 then
    (if descRoot d = groupSelf s g then List.replicate (n * groupSize s g) ⟨0, 0, 1, due⟩ else [])
  else hints.map (fun h => ⟨h, h, if passFirst op d h then 0 else 1, due⟩)

/-- The read beat of a stamp: the next beat that matches; in an Elastic launch a stamp behind is this beat, at which the collective
retires (R325). -/
def readBeat (s : State) (stamp : Nat) : Nat × Bool :=
  let d := (stamp + 2 ^ 24 - s.vc.now % 2 ^ 24) % 2 ^ 24
  let ok := decide (d ≠ 0) && decide (d < 2 ^ 23)
  (if ok then s.vc.now + d else s.vc.now, ok)

/-- The beat from which lat counts for chunks with no buffer: the stamp in a Lockstep launch, the retire beat in an Elastic one
(R311). -/
def watchFrom (s : State) (start : Nat) : Nat := if s.launch.mode = .elastic then s.vc.now else start

/-- Check 4 of R324: format and fields, then the hint array, then the share. -/
def descCheck (s : State) (op g : Nat) (d : List Word64) : MemR (List Nat) :=
  if !descSound d || !descFormats op d then .fault s 0x25 3
  else
    match hintBytes s (descHaddr d) (countUp 0 (if op = 1 ∨ op = 2 then 1 else chunkCount s op g d)) with
    | .fault s1 c x => .fault s1 c x
    | .wait s1 => .wait s1
    | .ok s1 h => if descInShare s1 op g d then .ok s1 h else .fault s1 7 0

/-- Steps 1 to 3 of R324: the record at xb, a valid group, and its local member. -/
def groupChecks (s : State) (xa xb : Word64) (n align : Nat) (k : State → Nat → List Word64 → Out) : Out :=
  if fld xb 63 56 ≠ 0 then ctlFault s 4 0 xb
  else if xb.toNat % align ≠ 0 then ctlFault s 3 0 xb
  else
    memThen s (firstFault s xb 8 n) (ctlLoadWords s xb n) (fun s1 d =>
      let s2 := touchMember s1 xa.toNat (groupSelf s xa.toNat)
      if groupCount s ≤ xa.toNat ∨ groupValid s xa.toNat = false then ctlFault s1 0x25 1 0
      else if (groupMember s xa.toNat (groupSelf s xa.toNat)).1 ≠ s.vc.id then ctlFault s2 0x25 2 0
      else k s2 xa.toNat d)

/-- A collective word (R324, R325): its checks; then it takes the group's cseq and retires. -/
def collOp (s : State) (op : Nat) (ra rb : BitVec 6) : Out :=
  restricted s <|
    groupChecks s (xr s ra) (xr s rb) 8 64 (fun s1 g d =>
      match descCheck s1 op g d with
      | .wait s2 => .next s2
      | .fault s2 c x => ctlFault s2 c x (tvalOf c (w64 (descHaddr d)))
      | .ok s2 hints =>
        let (start, ahead) := readBeat s (descStamp d)
        if 4 ≤ (s.vc.colls.filter (fun c => c.group == g && !c.failed)).length then
          (match s.launch.mode with
           | .lockstep => ctlFault s2 0x25 5 0
           | .elastic => .next s2)
        else if decide (s.launch.mode = .lockstep) && !ahead then ctlFault s2 0x25 4 0
        else if 128 ≤ inFlight s.vc then
          (match s.launch.mode with
           | .lockstep => ctlFault s2 0x2B 0 0
           | .elastic => .next s2)
        else
          let c : Coll :=
            { op := op, group := g, seq := groupCseq s2 g, desc := d, start := start, read := 0, src := [],
              sent := !collSends op d (groupSelf s2 g), chunks := startChunks s2 op g d hints (watchFrom s start), lands := [],
              mbox := none, replayed := false, failed := false, name := nameOfPc s.vc.ctl.pc, num := s.vc.eng.nextSeq,
              issued := s.vc.now }
          let s3 := takeCseq (charge s2 .coll) g
          .next (retire { s3 with vc.colls := s3.vc.colls ++ [c], vc.eng.nextSeq := s3.vc.eng.nextSeq + 1,
                                  vc.latestColl := mput 0 s3.vc.latestColl g (c.seq * 2 ^ 32) }))

/-- coll.red: the exact sum of every member's stream, delivered to every member (R322). -/
def execCollRed (ra rb : BitVec 6) (s : State) : Out := collOp s 0 ra rb

/-- coll.bcast: the root's stream to every member (R322). -/
def execCollBcast (ra rb : BitVec 6) (s : State) : Out := collOp s 1 ra rb

/-- coll.gath: every member's stream, in member order, at the root (R322). -/
def execCollGath (ra rb : BitVec 6) (s : State) : Out := collOp s 2 ra rb

/-- coll.norm: the norm and clip multiplier into a mailbox (R326). -/
def execCollNorm (ra rb : BitVec 6) (s : State) : Out := collOp s 3 ra rb

/-- coll.exp: an exponent pass over every chunk, into the hint array (R322). -/
def execCollExp (ra rb : BitVec 6) (s : State) : Out := collOp s 4 ra rb

/-- coll.wait: wait until the group's earlier collectives of this virtual core are delivered or have failed (R325). -/
def execCollWait (rd ra : BitVec 6) (s : State) : Out :=
  restricted s <|
    let g := (xr s ra).toNat
    if groupCount s ≤ g then ctlFault s 0x25 1 0
    else if s.vc.colls.any (fun c => c.group == g && !c.failed) then .next s
    else .next (retire (setX (charge s .coll) rd (w64 (mget 0 s.vc.latestColl g))))

/-- mbclr mk: the mailbox becomes zero, over a landing of this beat (R327). -/
def execMbclr (k : BitVec 3) (s : State) : Out :=
  restricted s <|
    let s1 := setM (charge s .coll) k.toNat 0
    let mine (c : Coll) : Bool := match c.mbox with
      | some (b, _) => decide (b ≤ s.vc.now) && descMbox c.desc == k.toNat
      | none => false
    let off := 0xC00280 + 8 * k.toNat
    .next (retire { s1 with
      vc.colls := s1.vc.colls.map (fun c => if mine c then { c with mbox := none } else c),
      launch.maps := s1.launch.maps.filter (fun a => !(a.dst == s.vc.id && decide (a.due ≤ s.vc.now) && a.off == off)),
      vc.eng.flights := s1.vc.eng.flights.map (fun f => match f.work with
        | .recv 2 m => if m = k.toNat ∧ f.done = some s.vc.now then { f with work := .recv 2 8 } else f
        | _ => f) })

/-! ### Reading (R325) -/

/-- Replace collective n of the virtual core. -/
def setColl (s : State) (n : Nat) (c : Coll) : State := { s with vc.colls := s.vc.colls.set n c }

/-- Bytes of the source. -/
def srcBytes (c : Coll) : Nat := (collStr c).packed

/-- The fabric engine reads the list entries of the sender, and of the root of a gather (R256, R303). -/
def touchSelf (s : State) (c : Coll) : State :=
  let t := touchMember s c.group (groupSelf s c.group)
  if c.op = 2 then touchMember t c.group (descRoot c.desc) else t

/-- Everything that the member sends once its source is read (R318, R319). A coll.exp contributes nothing to a sum and enters no flags
(R322). -/
def sendAll (s0 : State) (c : Coll) : State :=
  let s := touchSelf s0 c
  if c.op = 1 ∨ c.op = 2 then
    (countUp 0 (chunkCount s c.op c.group c.desc)).foldl (fun t k => sendData t c k (c.start + collLat s c)) s
  else
    (c.chunks.zip (countUp 0 c.chunks.length)).foldl
      (fun t x =>
        if x.1.stage = 0 then
          let t1 := sendPass t c x.2 x.1.due
          if c.op = 4 then t1 else { t1 with vc := flagsAt t1.vc (t1.vc.now + 1) (valueFlags (chunkVals s c x.2)) }
        else sendSum t c x.2 x.1.e x.1.due false) s

/-- COLLECTIVE_SOURCE_READ: collective n reads its next source piece of 128 bytes, from its stamp on, at ST rank; after
the last it contributes (R153, R325). -/
def execCollectiveSourceRead (n : Nat) (s : State) : Out :=
  match s.vc.colls[n]? with
  | none => .next s
  | some c =>
    if c.sent || c.failed || decide (s.vc.now < c.start + c.read) || frozenNow s then .next s
    else
      let lo := 128 * c.read
      let as := countUp (descSoff c.desc + lo) (Nat.min 128 (srcBytes c - lo))
      let (cl, _, lost) := readAll s.vc.chip 0 as s.vc.claims []
      if !lost.isEmpty then .next { s with vc := loseBanks s.vc (rankOf .st) (lostBanks s.vc.claims lost [] 0) }
      else
        let s1 := charge { s with vc.claims := cl } .sp as.length
        let last := decide (srcBytes c ≤ lo + 128)
        let c1 := { c with read := c.read + 1, src := c.src ++ as.map (fun a => mget 0 s.vc.chip a), sent := last }
        let s2 := setColl s1 n c1
        .next (if last then sendAll s2 c1 else s2)

/-! ### Results (R319-R321, R326) -/

/-- The codes of a reduced chunk from its lanes: code and flags (R321). -/
def resultCode (s : State) (c : Coll) (e lane : Nat) : Nat × Nat :=
  let p := fieldP (collField c.op c.desc)
  match descDfmt c.desc with
  | none => (0, 0)
  | some df =>
    if collFloat c.op c.desc then df.ofVal .rne false (laneVal (centred p lane) (chunkF s c.op c.group c.desc e))
    else if df.cls = .residue then (lane % p, 0)
    else df.satInt (centred p lane)

/-- The landings of the bytes d of chunk k at destination offset off: a piece of 128 bytes a beat, in the order of the destination
(R325). -/
def landings (s : State) (c : Coll) (k T off : Nat) (d : List Byte) : List CLand :=
  let base := descDoff c.desc
  let q0 := (off - base) / 128
  (countUp q0 ((off - base + d.length + 127) / 128 - q0)).map (fun q =>
    let lo := if base + 128 * q < off then off else base + 128 * q
    let hi := Nat.min (base + 128 * q + 128) (off + d.length)
    { beat := T + (if s.launch.mode = .lockstep then q else q - q0), off := lo, data := cut d (lo - off) (hi - lo), chunk := k })

/-- rne32 of a nonnegative value. -/
def rneOf (v : Val) : Nat := (fpF32.ofVal .rne false v).1

/-- √v of a nonnegative exact value, with a sticky bit below its last place. -/
def valSqrt (v : Val) : Val :=
  match v with
  | .fin _ m e => if m = 0 then v else
      let (r, x) := sqrtSticky 128 m e
      .fin false r x
  | x => x

/-- clip / max(N, clip) where N² is given, rounded once: the multiplier of coll.norm (R326). -/
def clipRatio (clip : Nat) (sq : Val) : Nat :=
  match fpF32.decode clip, sq with
  | .inf false, _ => 0x3F800000
  | .fin false cm ce, .fin _ m e =>
    -- clip² against N²
    if Val.less sq (.fin false (cm * cm) (2 * ce)) then 0x3F800000
    else if m = 0 then 0x3F800000
    else
      -- √(clip² / N²) to 128 bits, the quotient carrying a sticky bit
      let num := cm * cm * 2 ^ 512
      let q := num / m * 2 + b2n (decide (num % m ≠ 0))
      rneOf (valSqrt (.fin false q (2 * ce - e - 513)))
  | _, _ => fpF32.canonNan

/-- The mailbox of coll.norm: word and flags (R326). -/
def normWord (s : State) (c : Coll) (e lane : Nat) : Word64 × Nat :=
  let S := centred (fieldP 2) lane
  let nan2 : Word64 := w64 (fpF32.canonNan * 2 ^ 32 + fpF32.canonNan)
  if S < 0 then (nan2, fNv)
  else
    let sq := laneVal S (chunkF s c.op c.group c.desc e)
    let bad := match fpF32.decode (descClip c.desc) with
      | .inf false => false
      | .fin false m _ => m == 0
      | _ => true
    (w64 (rneOf (valSqrt sq) * 2 ^ 32 + (if bad then fpF32.canonNan else clipRatio (descClip c.desc) sq)), if bad then fNv else 0)

/-- Write the hint byte of a chunk at its home port (R319); the tables that a walk has read stay read (R250). -/
def writeHint (s : State) (c : Coll) (k e : Nat) : State :=
  if descHaddr c.desc = 0 then s
  else
    match translate s (descHaddr c.desc + k) .write with
    | .ok s1 (pa, t) => if t.vb then s1 else homeWrite s1 pa [BitVec.ofNat 8 e]
    | .fault s1 _ _ => s1
    | .wait s1 => s1

/-- Set chunk k of a collective. -/
def setChunk (c : Coll) (k : Nat) (x : CChunk) : Coll := { c with chunks := listSet c.chunks k x }

/-- A chunk that no exponent bounds: NaN everywhere at the beat a replay would land, with of and ro (R320). -/
def saturate (s : State) (n : Nat) (c : Coll) (k : Nat) (x : CChunk) : State :=
  let lat := collLat s c
  let T := if s.launch.mode = .elastic then s.vc.now
           else if x.stage = 0 then c.start + 4 * lat else x.due + lat
  let L := chunkLanes s c.op c.group c.desc
  let els := (chunkElems s c k).length
  let c1 := setChunk c k { x with stage := 4 }
  let c2 := match c.op, descDfmt c.desc with
    | 0, some df =>
      let d := (countUp 0 els).flatMap (fun _ => leBytes (nanCode df) df.bytes)
      { c1 with lands := c1.lands ++ landings s c k T (descDoff c.desc + k * L * df.bytes) d }
    | 3, _ => { c1 with mbox := some (T, w64 (fpF32.canonNan * 2 ^ 32 + fpF32.canonNan)) }
    | _, _ => c1
  let s1 := setColl (writeHint s c k 255) n c2
  { s1 with vc := flagsAt s1.vc (s1.vc.now + 1) (fOf ||| fRo) }

/-- An exponent pass of chunk k of collective n has been delivered with ec (R319, R320). -/
def passDone (s : State) (n : Nat) (c : Coll) (k : Nat) (x : CChunk) (ec : Nat) : State :=
  let e := Nat.max ec 1
  if c.op = 4 then setColl (writeHint s c k (if ec = 255 then 255 else e)) n (setChunk c k { x with e := e, stage := 4 })
  else if ec = 255 then saturate s n c k x
  else
    let due := if s.launch.mode = .lockstep then x.due + collLat s c else s.vc.now + collLat s c
    let c1 := setChunk c k { x with e := e, stage := x.stage + 1, due := due }
    sendSum (setColl s n c1) c1 k e due true

/-- The sum of chunk k of collective n has been delivered (R319, R321, R325, R326). -/
def sumDone (s : State) (n : Nat) (c : Coll) (k : Nat) (x : CChunk) (lanes : List Nat) (ov : Bool) : State :=
  if ov then
    let due := if s.launch.mode = .lockstep then x.due + collLat s c else s.vc.now + collLat s c
    let c1 := { setChunk c k { x with stage := 2, due := due } with replayed := true }
    let s1 := setColl s n c1
    sendPass { s1 with vc := flagsAt s1.vc (s1.vc.now + 1) fRo } c1 k due
  else
    let T := if s.launch.mode = .lockstep then x.due else s.vc.now
    let c1 := setChunk c k { x with stage := 4 }
    let s1 := if collFloat c.op c.desc then writeHint s c k x.e else s
    if c.op = 3 then
      let (w, fl) := normWord s c x.e (listAt 0 lanes 0)
      let s2 := setColl s1 n { c1 with mbox := some (T, w) }
      { s2 with vc := flagsAt s2.vc (s2.vc.now + 1) fl }
    else
      let df := match descDfmt c.desc with
        | some f => f
        | none => .f32
      let rs := ((chunkElems s c k).zip lanes).map (fun p => resultCode s c x.e p.2)
      let off := descDoff c.desc + k * chunkLanes s c.op c.group c.desc * df.bytes
      let d := rs.flatMap (fun r => leBytes r.1 df.bytes)
      let s2 := setColl s1 n { c1 with lands := c1.lands ++ landings s c k T off d }
      { s2 with vc := flagsAt s2.vc (s2.vc.now + 1) (flagsOf rs &&& streamMask) }

/-- The bytes of chunk k of member i of a broadcast or gather have been delivered. -/
def dataDone (s : State) (n : Nat) (c : Coll) (i k : Nat) (d : List Byte) : State :=
  let per := chunkCount s c.op c.group c.desc
  let at0 := if c.op = 2 then i * per + k else k
  match c.chunks[at0]? with
  | none => s
  | some x =>
    let T := if s.launch.mode = .lockstep then x.due else s.vc.now
    let w := (collStr c).fmt.bytes
    let off := descDoff c.desc + (if c.op = 2 then i * descCount c.desc * w else 0)
      + k * chunkLanes s c.op c.group c.desc * w
    setColl s n { setChunk c at0 { x with stage := 4 } with lands := c.lands ++ landings s c at0 T off d }

/-! ### Delivery (R311, R325) -/

/-- What coll.wait answers of a collective that is over, when it is the group's latest (R325). -/
def collStatus (s : State) (c : Coll) (status : Nat) : State :=
  let v := c.seq * 2 ^ 32 + status * 256 + b2n c.replayed
  { s with vc.latestColl :=
      if mget 0 s.vc.latestColl c.group / 2 ^ 32 = c.seq then mput 0 s.vc.latestColl c.group v else s.vc.latestColl }

/-- Post the record of a collective (R102, R311, R325). -/
def collRecord (s : State) (c : Coll) (status hold : Nat) : State :=
  postRecord s ⟨0, c.name, some c.num⟩ s.vc.now 3 status (descTag c.desc) c.op (w64 c.seq) hold

/-- Its record waits for room, and with it the completion of the collective (R103). -/
def collHeld (s : State) (c : Coll) : Bool := s.vc.eng.heldEv.any (fun r => r.hold == c.num + 1)

/-- Collective n is delivered: it is over, and posts its record when ev = 1; in an Elastic launch with no room for the record its
completion is held with it (R103, R325). -/
def collOver (s : State) (n : Nat) (c : Coll) : State :=
  let s1 := collStatus s c 0
  if descEv c.desc && decide (s.launch.mode = .elastic) && !eventRoom s then collRecord s1 c 0 (c.num + 1)
  else
    let s2 : State := { s1 with
      vc := { (if s.launch.mode = .elastic then s1.vc.keepColl c else s1.vc) with colls := s1.vc.colls.eraseIdx n } }
    if descEv c.desc then collRecord s2 c 0 0 else s2

/-- Collective n has failed: it stays as a replay entry of state faulted, and posts its record whatever its ev holds (R311,
R377). -/
def collFails (s : State) (n : Nat) (c : Coll) : State :=
  collRecord (setColl (collStatus s c 0x27) n { c with failed := true }) c 0x27 0

/-- Nothing of the collective is still to come. -/
def collDelivered (c : Coll) : Bool :=
  c.sent && c.lands.isEmpty && c.mbox.isNone && c.chunks.all (fun x => x.stage == 4)

/-- Land one piece at inbound rank; a busy bank delays it (R153). No two landings of a beat merge. -/
def landOne (s : State) (c : Coll) (p : CLand) : State × Coll :=
  let ws := (p.data.zip (countUp p.off p.data.length)).map (fun q => (q.2, (0xFF : Byte), q.1))
  let owner := 2 ^ 51 + s.vc.claims.length
  let (cl, chip, lost) := writeAll owner ws s.vc.claims s.vc.chip
  if lost.isEmpty then
    (charge { s with vc.claims := cl, vc.chip := chip } .sp ws.length, { c with lands := c.lands.erase p })
  else
    ({ s with vc := loseBanks s.vc 0 (lostBanks s.vc.claims [] (lost.map (fun t => t.1)) owner) },
     { c with lands := c.lands.map (fun q => if q = p then { p with beat := s.vc.now + 1 } else q) })

/-- A mailbox write at T is visible from T + 1: it takes place after CTL's turn of the beat (R325). -/
def collMailbox (s : State) (c : Coll) : State × Coll :=
  match c.mbox with
  | some (b, w) =>
    if b ≤ s.vc.now ∧ s.mover ≠ .inbound then (setM s (descMbox c.desc) w, { c with mbox := none }) else (s, c)
  | none => (s, c)

/-- COLLECTIVE_DELIVERY: what collective n lands at this beat: pieces at inbound rank, a mailbox at the end of the beat; with its
last landing it is delivered, and posts its record when ev = 1 (R325). -/
def execCollectiveDelivery (n : Nat) (s : State) : Out :=
  match s.vc.colls[n]? with
  | none => .next s
  | some c =>
    if c.failed || collHeld s c || frozenNow s then .next s
    else
      let due := c.lands.filter (fun p => decide (p.beat ≤ s.vc.now))
      let (s1, c1) := due.foldl (fun (q : State × Coll) p => landOne q.1 q.2 p) (s, c)
      let (s2, c2) := collMailbox s1 c1
      let s3 := setColl s2 n c2
      .next (if collDelivered c2 then collOver s3 n c2 else s3)

/-! ### New trees (R317) -/

/-- Elements of a chunk of a window's flush: 32·kmax M61 lanes (R308). -/
def winLanes (s : State) (w : Window) : Nat := 32 * groupK s w.group 3

/-- Chunks of a flush. -/
def winChunks (s : State) (w : Window) : Nat := ceilDiv w.count (winLanes s w)

/-- What a header holds as cseq for a flush of a window: the flush number and the base. DESIGN CHOICE (log 16). -/
def winNo (w : Window) (flush : Nat) : Nat := flush % 256 * 2 ^ 24 + w.base / 128 % 2 ^ 24

/-- Send chunk k of a flush of a window: its number, its ov bit and its accumulators (R329). -/
def sendWinChunk (s : State) (w : Window) (x : Nat × Bool × SMap Nat) (k : Nat) : State :=
  let g := w.group
  let home := groupMember s g w.home
  let self := groupMember s g (groupSelf s g)
  let d := payloadOf 2 ((groupElems w.count (winLanes s w) k).map (fun i => mget 0 x.2.2 i))
  let grp := groupEntry s g
  sendFor s w.owner (some w.vc)
    { dst := home.2, src := self.2, dvc := home.1, tc := 5, k := ceilDiv d.length 256, msg := 0, m := groupM s g 3,
      rot := (grp + k) % 36, field := 2, len := d.length, grp := grp, cseq := winNo w x.1, e := w.e,
      ov := x.2.1, chunk := k,
      dl := if s.launch.mode = .lockstep then (s.vc.now + groupLat s g) % 2 ^ 24 else 0, ncon := 1 } d

/-- Send a flush of a window, chunk by chunk. -/
def sendFlush (s : State) (w : Window) (x : Nat × Bool × SMap Nat) : State :=
  (countUp 0 (winChunks s w)).foldl (fun t k => sendWinChunk t w x k)
    (touchMember (touchMember s w.group w.home) w.group (groupSelf s w.group))

/-- The flushes of the windows of group g that their home has not applied go out anew. -/
def replayFlushes (s : State) (g : Nat) : State :=
  (s.part.windows.filter (fun w => w.group == g)).foldl (fun t w => w.held.foldl (fun u x => sendFlush u w x) t) s

/-- The chunks of collective n of an Elastic launch are replayed on the group's new tree, whatever they delivered before. -/
def replayColl (s : State) (n : Nat) (c : Coll) : State :=
  let due := s.vc.now + collLat s c
  let again (x : CChunk) : CChunk :=
    { x with e := x.hint, stage := if c.op ≠ 2 ∧ passFirst c.op c.desc x.hint = true then 0 else 1, due := due }
  let c1 := { c with chunks := c.chunks.map again, lands := [], mbox := none }
  let s1 := setColl s n c1
  if c.sent && collSends c.op c.desc (groupSelf s c.group) then sendAll s1 c1 else s1

/-- What collective c, which is over here, sent goes out once more for the members that await it: its data, or each chunk's exponent pass
and its sum under the exponent that the chunk had. Its flags have entered. -/
def resendColl (s : State) (c : Coll) : State :=
  let t := if !collSends c.op c.desc (groupSelf s c.group) then s
           else if c.op = 1 ∨ c.op = 2 then sendAll s c
           else (c.chunks.zip (countUp 0 c.chunks.length)).foldl (fun u x =>
             let u1 := if passFirst c.op c.desc x.1.hint then sendPass u c x.2 0 else u
             if c.op = 4 then u1 else sendSum u1 c x.2 x.1.e 0 true) (touchSelf s c)
  { t with vc.ctl.flagsIn := s.vc.ctl.flagsIn }

/-- The trees of group g have been rebuilt (R317): chunks of collectives and of window flushes go out anew. In a Lockstep launch nothing
changes. -/
def treesRebuilt (s : State) (g : Nat) : State :=
  if s.launch.mode = .lockstep then s
  else
    let own (k : List Nat) : Bool := decide (listAt 0 k 0 < 2) && listAt 0 k 1 == groupEntry s g
    let s0 : State := { s with part.darns := s.part.darns.filter (fun b => !own b.key),
                               part.closed := s.part.closed.filter (fun k => !own k) }
    s.vcs.foldl (fun t v => inVC t v.id (fun u =>
      let u1 := (countUp 0 u.vc.colls.length).foldl (fun w n => match w.vc.colls[n]? with
        | some c => if c.group = g ∧ c.failed = false then replayColl w n c else w
        | none => w) u
      (u1.vc.sentColls.filter (fun c => c.group == g)).foldl resendColl u1)) (replayFlushes s0 g)

end Sys2Proof.Machine
end

