-- ==== Sys2Proof/Machine/Windows.lean ====
section
/-! DEFINITION. Reduction windows: registration, flush and application, and the release at launch scope that flushes them
(13_ordering R266; 15_fabric R328, R329). -/

namespace Sys2Proof.Machine

/-! ### The record (R328) -/

/-- The reserved fields, ranges and alignments of a window's record. -/
def winRecOk (d : List Word64) (members : Nat) : Bool :=
  let size := fld (descW d 1) 12 0
  let e := fld (descW d 3) 31 24
  fld (descW d 0) 63 56 == 0 && fld (descW d 0) 6 0 == 0 && fld (descW d 1) 63 13 == 0 && decide (128 ≤ size)
    && decide (size ≤ 4096) && decide (size % 128 = 0) && fld (descW d 2) 63 56 == 0 && fld (descW d 3) 63 32 == 0
    && decide (1 ≤ e) && decide (e ≤ 254) && fld (descW d 3) 23 20 == 0 && fld (descW d 3) 19 18 != 3
    && decide (fld (descW d 3) 17 0 < members)

/-- The page of an address has vb = 0. -/
def plainPage (s : State) (va : Nat) : State × Bool :=
  if inMap va then (s, false)
  else
    match lookup s va with
    | (s1, .ok e) => (s1, !e.vb)
    | (s1, .error _) => (s1, false)

/-- The home's shadow array, 8 bytes an element, lies in pages with vb = 0, as the home's tables say: it meets two at most. -/
def shadowPlain (s : State) (g : Nat) (d : List Word64) : State × Bool :=
  if fld (descW d 3) 17 0 = groupSelf s g ∧ fld (descW d 3) 19 18 ≠ 0 then
    let first := fld (descW d 2) 55 0
    let last := first + 8 * (fld (descW d 1) 12 0 / (if fld (descW d 3) 19 18 = 2 then 8 else 4)) - 1
    let (s1, a) := plainPage s first
    let (s2, b) := plainPage s1 last
    (s2, a && b)
  else (s, true)

/-- The windows that are registered. -/
def liveWindows (s : State) : List Window := s.part.windows.filter (fun w => !w.dropped)

/-- A new window of a launch. -/
def winOf (owner : Option LaunchTag) (g vc : Nat) (d : List Word64) : Window :=
  { owner := owner, group := g, vc := vc, w := d, acc := [], ov := false, flush := 0, sent := 0, held := [], dropped := false }

/-- The key of a flush, but for its chunk (R307, R329). -/
def winKey (s : State) (w : Window) (flush : Nat) : List Nat := [5, groupEntry s w.group, winNo w flush]

/-- The key is one of a flush of the window. -/
def winOwns (s : State) (w : Window) (k : List Nat) : Bool :=
  k.take 2 == (winKey s w 0).take 2 && listAt 0 k 2 % 2 ^ 24 == winNo w 0

/-- win.reg: register a window of a group (R328). -/
def execWinReg (ra rb : BitVec 6) (s : State) : Out :=
  restricted s <|
    groupChecks s (xr s ra) (xr s rb) 4 64 (fun s1 g d =>
      let w := winOf (launchTag s) g s.vc.id d
      let (s2, plain) := if winRecOk d (groupSize s1 g) then shadowPlain s1 g d else (s1, false)
      if plain = false then ctlFault s2 0x25 3 0
      else if 64 ≤ (liveWindows s2).length
          ∨ (liveWindows s2).any (fun x => decide (x.base < w.base + w.size) && decide (w.base < x.base + x.size)) then
        ctlFault s2 0x25 6 0
      else
        let s3 := charge s2 .coll
        .next (retire { s3 with
          part.windows := s3.part.windows ++ [w], part.closed := s3.part.closed.filter (fun k => !winOwns s3 w k) }))

/-! ### Flush (R329) -/

/-- Flush a window: every accumulator is sent and cleared, a flush of zeros too (R329). -/
def flushWindow (s : State) (w : Window) : State :=
  let x := (w.flush, w.ov, w.acc)
  let s1 := sendFlush s w x
  let w1 := { w with acc := [], ov := false, flush := w.flush + 1, sent := w.sent + 1, held := w.held ++ [x] }
  { s1 with part.windows := s1.part.windows.map (fun x => if x = w then w1 else x) }

/-- The windows that the virtual core in focus has registered. -/
def myWindows (s : State) : List Window := (liveWindows s).filter (Window.mine s)

/-- win.drop: flush the window whose base is xa, then remove it; it stays until its home has applied what was sent
(R328, R329). The group of steps 2 and 3 of R324 is the window's. -/
def execWinDrop (ra : BitVec 6) (s : State) : Out :=
  restricted s <|
    match (liveWindows s).find? (fun w => decide (w.base = (xr s ra).toNat)) with
    | none => ctlFault s 0x25 7 0
    | some w =>
      if groupValid s w.group = false then ctlFault s 0x25 1 0
      else if (groupMember s w.group (groupSelf s w.group)).1 ≠ s.vc.id then ctlFault (touchMember s w.group (groupSelf s w.group)) 0x25 2 0
      else
        let s1 := flushWindow (charge s .coll) w
        .next (retire { s1 with part.windows := s1.part.windows.map (fun x =>
          if x.dropped = false ∧ x.base = w.base then { x with dropped := true } else x) })

/-! ### rel.launch (R266, R329) -/

/-- A flush of the virtual core in focus has not been applied by its home (R329). -/
def windowsOut (s : State) : Bool := s.part.windows.any (fun w => w.mine s && w.sent != 0)

/-- rel.launch: the steps of rel, then flush the windows and wait until their homes have applied every flush (R266); `fenceSeq` marks
the last wait. -/
def execRelLaunch (ra : BitVec 6) (s : State) : Out :=
  let a := xr s ra
  memThen s a (syncCheck s a) (fun s1 _ =>
    match s.vc.ctl.fenceSeq with
    | some _ => if windowsOut s1 then .next s1 else sysNext { s1 with vc.ctl.fenceSeq := none }
    | none =>
      if !matchedNow s1 then .next (awaitMatch s1) else
      let s2 := flushFifo s1
      if ctlPending s2 || relCopies s2 a.toNat then .next s2
      else
        let s3 := (myWindows s2).foldl flushWindow s2
        if windowsOut s3 then .next { s3 with vc.ctl.fenceSeq := some (0, []) } else sysNext s3)

/-! ### Application (R329) -/

/-- The darned chunks of the oldest flush that the home has not applied, in order; none while one is not ready. -/
def readyFlush (s : State) (w : Window) : Option (List Darn) :=
  let key := winKey s w (w.flush - w.sent)
  (countUp 0 (winChunks s w)).mapM (fun k =>
    s.part.darns.find? (fun b => decide (b.state = .ready) && b.key == key ++ [k]))

/-- The lanes of a flush. -/
def flushLanes (ds : List Darn) : List Nat :=
  ds.flatMap (fun d => (countUp 0 (d.data.length / 8)).map (fun i => leNat (cut d.data (8 * i) 8)))

/-- Read n bytes at a virtual address through its home port. -/
def homeLoad (s : State) (va n : Nat) : MemR Nat :=
  match translate s va .read with
  | .ok s1 (pa, e) =>
    if (if e.vb then vPoisoned s1 e.frame (pa - e.frame) else poisoned s1 pa) then .fault s1 0x28 8
    else
      let (s2, b) := if e.vb then vRead s1 e.frame (pa - e.frame) n else homeRead s1 pa n
      .ok s2 (leNat b)
  | .fault s1 c d => .fault s1 c d
  | .wait s1 => .wait s1

/-- Write bytes at a virtual address through its home port (R286, R295). -/
def homeStore (s : State) (va : Nat) (d : List Byte) : MemR Unit :=
  match translate s va .write with
  | .ok s1 (pa, e) =>
    if e.vb then
      if (epochTag s1).isNone then .fault s1 0x21 4
      else if vPoisonedWrite s1 e.frame (pa - e.frame) d.length then .fault s1 0x28 8
      else
        match vWrite s1 e.frame (pa - e.frame) d (epochTag s1) with
        | some s2 => .ok s2 ()
        | none => .wait s1
    else if poisoned s1 pa then .fault s1 0x28 8
    else .ok (homeWrite s1 pa d) ()
  | .fault s1 c d => .fault s1 c d
  | .wait s1 => .wait s1

/-- Go on with the result of an access. -/
def MemR.andThen {α β : Type} (r : MemR α) (k : State → α → MemR β) : MemR β :=
  match r with
  | .ok s v => k s v
  | .fault s c d => .fault s c d
  | .wait s => .wait s

/-- Apply lane q to element i of a window (R329). -/
def applyLane (w : Window) (s : State) (q i : Nat) : MemR Unit :=
  let prime := fieldP 2
  let va := w.base + w.elem * i
  if w.mode = 0 then
    (homeLoad s va 4).andThen (fun s1 x => homeStore s1 va (leBytes (((x : Int) + centred prime q) % 2 ^ 32).toNat 4))
  else
    (homeLoad s (w.shadow + 8 * i) 8).andThen (fun s1 x =>
      let sh := (x + q) % prime
      let v := laneVal (centred prime sh) (windowF s w)
      let code := if w.mode = 1 then (fpF32.ofVal .rne false v).1 else (fpF64.ofVal .rne false v).1
      (homeStore s1 (w.shadow + 8 * i) (leBytes sh 8)).andThen (fun s2 _ => homeStore s2 va (leBytes code w.elem)))

/-- Apply lanes to the elements from i on. -/
def applyLanes (w : Window) (s : State) : Nat → List Nat → MemR Unit
  | _, [] => .ok s ()
  | i, q :: r => (applyLane w s q i).andThen (fun s1 _ => applyLanes w s1 (i + 1) r)

/-- The buffers of a flush are free and their keys closed; keys of the window's flushes of long ago open again (R309, R310). -/
def freeFlush (s : State) (w : Window) (ds : List Darn) : State :=
  let keys := ds.map (fun d => d.key)
  let old (k : List Nat) : Bool := winOwns s w k && decide (128 < (w.flush % 256 + 256 - listAt 0 k 2 / 2 ^ 24) % 256)
  { s with part.darns := s.part.darns.filter (fun d => !keys.contains d.key),
           part.closed := s.part.closed.filter (fun k => !old k) ++ keys }

/-- Apply the oldest flush of window n at its home: every element at once (R329); a contribution that overflowed sets ro
in the FLAGS of the local member (R319). None when a first write has to wait (R287). DESIGN CHOICE (log 67): an application that a
fault meets changes nothing, and the fault is raised against the local member as an operation in flight. -/
def applyFlush (s : State) (w : Window) (ds : List Darn) : Option State :=
  match applyLanes w s 0 ((flushLanes ds).take w.count) with
  | .ok s1 _ =>
    let s2 := freeFlush s1 w ds
    some (if ds.any (fun d => d.ov) then updVC s2 w.vc (fun v => flagsAt v (v.now + 1) fRo) else s2)
  | .fault _ c d => some (flightFault (freeFlush s w ds) w.vc c d (tvalOf c (w64 w.base)) 0 none)
  | .wait _ => none

/-- One flush of window n is done; a dropped window with none to come is gone. -/
def flushDone (s : State) (w : Window) : State :=
  let w1 := { w with sent := w.sent - 1, held := w.held.drop 1 }
  { s with part.windows :=
      (s.part.windows.map (fun x => if x = w then w1 else x)).filter (fun x => !(x.dropped && x.sent == 0)) }

/-- This device is the home of the window. -/
def Window.atHome (s : State) (w : Window) : Bool := w.home == groupSelf s w.group

/-- WINDOW_FLUSH_APPLY: the oldest flush of window n. At its home it is applied once every member's has been darned, with the launch
that registered the window, which a context slot may hold (R388); elsewhere the home's answer arrives (R329). -/
def execWindowFlushApply (n : Nat) (s : State) : Out :=
  match s.part.windows[n]? with
  | none => .next s
  | some w =>
    if w.sent = 0 then .next s
    else if w.atHome s then
      .next (inLaunch s w.owner (fun t => match (readyFlush t w).bind (applyFlush t w) with
        | none => t
        | some s1 => flushDone s1 w))
    else .next (flushDone s w)

end Sys2Proof.Machine
end

