-- ==== Sys2Proof/Machine/Tx.lean ====
section
/-! DEFINITION. Step transactions: the words of major 0x27, the device's vote, the outcome and the checkpoint drain
(14_generations R280-R301; 17_partitions_energy R365, R366). -/

namespace Sys2Proof.Machine

/-! ### Energy that remains (R365, R366) -/

/-- EUSED in nJ (R365). -/
def energyUsed (p : Part) : Nat := (p.spent + p.shared) / 256000
/-- No quota is set. -/
def noQuota (p : Part) : Bool := p.equota == BitVec.allOnes 64
/-- The remaining energy in nJ (R365). -/
def energyLeft (p : Part) : Int := ((p.equota.toNat * 1000 : Nat) : Int) - (energyUsed p : Nat)
/-- The launch's reserve fits (R366). -/
def reserveFits (s : State) : Bool :=
  noQuota s.part || (decide (0 < energyLeft s.part) && decide (((s.launch.reserve * 1000 : Nat) : Int) ≤ energyLeft s.part))

/-! ### Opening (R291) -/

/-- A transaction-state fault (R295). -/
def txFault (s : State) (d : Nat) : Out := ctlFault s 0x21 d 0

/-- The reserved fields of an opening record are zero (R291). -/
def openSound (d : List Word64) : Bool := fld (descW d 0) 63 18 == 0 && descW d 7 == 0

/-- A block still holds the epoch 256 before the next one (R288, R291). -/
def sweeperBusy (s : State) : Bool :=
  s.part.blocks.any (fun b => b.2.e == some ((s.part.nextEp + 65280) % 65536))

/-- The group sequence numbers that an abort takes back (R289). -/
def seqSnapshot (s : State) : SMap Nat := (countUp 0 (groupCount s)).foldl (fun m g => mput 0 m g (groupCseq s g)) []

/-- Open an epoch on the partition (R291); the outcome of its generation, which is a retry's too, is to come (R330, log 70). -/
def openEpoch (s : State) (g : Nat) (dr : Bool) : State :=
  let ep := s.part.nextEp
  { s with
    part.openEp := some (ep, g, dr), part.nextEp := (ep + 1) % 65536, part.voted := false, part.devVote := 0,
    part.devLoss := 0xFF800000, part.endVoted := false, part.stepTag := launchTag s, part.stepRecs := [],
    part.outcomes := s.part.outcomes.filter (fun o => o.1 != ep % 256), part.epSeqs := seqSnapshot s,
    part.closed := s.part.closed.filter (fun k => !(listAt 0 k 0 == 2 && listAt 0 k 2 == g)) }

/-- The virtual core opens the step (R291): its registers, its restore set, its vote. -/
def openStep (s : State) (d : List Word64) : State :=
  let g := fld (descW d 0) 15 0
  let v := flagsEnter s.vc
  let t := v.tx
  let t1 : Tx := if fld (descW d 0) 17 17 = 1 then
      { t with k := descW d 1, n := descW d 2, adv := 0,
               c := (countUp 0 4).foldl (fun m i => mput 0 m i (descW d (3 + i))) [] }
    else t
  { s with vc := { v with tx := { t1 with
      restore := some (t1.k, t1.n + w64 t1.adv, t1.c), vote := w64 (0xFF800000 * 2 ^ 32 + g * 65536), g := g,
      dr := fld (descW d 0) 16 16 == 1, state := 1, openAt := some s.vc.ctl.pc, preempted := false } } }

/-- Steps 5 and 6 of R291, the sweeper's wait, and the opening itself. -/
def txopenRest (s1 : State) (d : List Word64) : Out :=
  let g := fld (descW d 0) 15 0
  match s1.part.openEp with
  | some o =>
    if g ≠ s1.part.x ∨ o.2.1 ≠ g then txFault s1 3
    else .next (retire (openStep (charge (charge s1 .sys) .ld 8) d))
  | none =>
    if g ≠ s1.part.x then txFault s1 3
    else if reserveFits s1 = false then ctlFault s1 0x22 0 0
    else if sweeperBusy s1 then .next s1
    else .next (retire (openStep (openEpoch (charge (charge s1 .sys) .ld 8) g (fld (descW d 0) 16 16 == 1)) d))

/-- txopen: open a step from the record at xa (R291). -/
def execTxopen (ra : BitVec 6) (s : State) : Out :=
  let a := xr s ra
  restricted s <|
    if s.launch.mode = .elastic then ctlFault s 0x20 0 0
    else if s.vc.tx.state ≠ 0 then txFault s 1
    else if fld a 63 56 ≠ 0 then ctlFault s 4 0 a
    else if a.toNat % 64 ≠ 0 then ctlFault s 3 0 a
    else
      memThen s (firstFault s a 8 8) (ctlLoadWords s a 8) (fun s1 d =>
        if openSound d then txopenRest s1 d else txFault s1 2)

/-! ### Inside the step (R292-R294, R296) -/

/-- Nothing that the virtual core routed before is under way: queues, table runs, words and copies in flight (R292,
R348). -/
def engineQuiet (s : State) : Bool :=
  allQueues.all (fun q => (s.vc.eng.q q).entries.isEmpty) && s.vc.tbl.runs.all (fun r => r.ended)
    && s.vc.eng.flights.isEmpty

/-- What txvote waits for (R292). -/
def voteReady (s : State) : Bool :=
  engineQuiet s && s.vc.ctl.flagsIn.isEmpty && !s.vc.atomics.any (fun a => a.vb)

/-- txvote: wait, freeze TXVOTE, vote (R292). -/
def execTxvote (s : State) : Out :=
  restricted s <|
    if s.vc.tx.state ≠ 1 then txFault s 1
    else if voteReady s then sysNext { s with vc.tx.state := 2 }
    else .next s

/-- txloss: the loss enters the vote; a loss that is NaN or above TX_LOSS_LIMIT sets flag 0 (R293). -/
def execTxloss (ra : BitVec 6) (s : State) : Out :=
  restricted s <|
    if s.vc.tx.state ≠ 1 then txFault s 1
    else
      let x := fld (xr s ra) 31 0
      let lim := fld s.vc.ctl.lossLimit 31 0
      let field := lossMax (fld s.vc.tx.vote 63 32) x
      let spike := (fpF32.decode x).isNan || (fpF32.clt lim x).1
      let vote := w64 (field * 2 ^ 32 + fld s.vc.tx.vote 31 0)
      let v1 : VC := { s.vc with tx.vote := vote }
      sysNext { s with vc := if spike then v1.voteFlag 0 else v1 }

/-- txabort: flag 10, vote at once without the waits of txvote (R294). -/
def execTxabort (s : State) : Out :=
  restricted s <|
    if s.vc.tx.state ≠ 1 then txFault s 1
    else sysNext { s with vc := { s.vc.voteFlag 10 with tx.state := 2 } }

/-- txwait: the outcome word into xd (R296). -/
def execTxwait (rd : BitVec 6) (s : State) : Out :=
  restricted s <|
    match s.vc.tx.state with
    | 0 => .next (retire (setX (charge s .sys) rd s.vc.tx.out))
    | 1 => txFault s 5
    | 2 => .next s
    | _ => .next (retire (setX { charge s .sys with vc.tx.state := 0 } rd s.vc.tx.out))

/-- TXSTAT (R290). -/
def txstat (s : State) : Word64 :=
  w64 (s.part.x * 2 ^ 32 + b2n s.vc.tx.dr * 2 ^ 18 + s.vc.tx.state * 2 ^ 16 + s.vc.tx.g)

/-- TXDRAIN (R301). -/
def txdrain (s : State) : Word64 :=
  match s.part.drains with
  | [] => 0
  | d :: _ => w64 (d.left.length % 2 ^ 32 * 2 ^ 32 + 65536 + d.gen)

/-- The registers of txrd that are only read (R296). -/
def txReg (s : State) (k : Nat) : Word64 :=
  match k with
  | 0 => s.vc.tx.k
  | 1 => s.vc.tx.n
  | 6 => txstat s
  | 7 => s.vc.tx.out
  | 8 => s.vc.tx.vote
  | 9 => txdrain s
  | k => mget 0 s.vc.tx.c (k - 2)

/-- txrd: a transaction register; k = 10 to 13 fetch a cursor and advance it (R296). -/
def execTxrd (rd : BitVec 6) (k : BitVec 4) (s : State) : Out :=
  restricted s <|
    if 14 ≤ k.toNat then illegal s
    else if 10 ≤ k.toNat then
      let c := mget 0 s.vc.tx.c (k.toNat - 10)
      .next (retire (setX { charge s .sys with vc.tx.c := mput 0 s.vc.tx.c (k.toNat - 10) (c + 1) } rd c))
    else .next (retire (setX (charge s .sys) rd (txReg s k.toNat)))

/-- rngk: TXK := xa, in any state (R296). -/
def execRngk (ra : BitVec 6) (s : State) : Out :=
  restricted s <| sysNext { s with vc.tx.k := xr s ra }

/-- rngn: TXN := xa, in any state; it remains over an advance of this beat (R186, R296). -/
def execRngn (ra : BitVec 6) (s : State) : Out :=
  restricted s <| sysNext { s with vc.tx.n := xr s ra, vc.tx.adv := 0 }

/-! ### The vote (R297, R298, R330) -/

/-- The drain hold (R298): the drain of g − 2 is not acknowledged. -/
def drainHold (s : State) (g : Nat) : Bool := s.part.drains.any (fun d => d.gen == (g + 65534) % 65536)

/-- The partition whose group entries a packet of its vote names in grp. -/
def partGrp (s : State) : Nat := groupEntry s 0

/-- DEVICE_VOTE_SEND: the device's vote goes into the commit tree when every virtual core has voted, the Collie has matched that (R390), and the
hold is satisfied, or at once when a flag is set; not while the launch is stopped (R298, R330, R404). It goes too when they had all voted and
the launch has ended since. -/
def execDeviceVoteSend (s : State) : Out :=
  match s.part.openEp with
  | none => .next s
  | some (_, g, _) =>
    let fl := voteFlags s
    let all := (s.part.endVoted || (s.launch.live && s.vcs.all (fun v => v.tx.state == 2 && v.settled))) && !drainHold s g
    if s.part.voted || !s.part.dstops.isEmpty || (fl == 0 && !all) then .next s
    else
      let w := voteLoss s * 2 ^ 32 + g * 65536 + fl
      let h : Head := { dst := s.dev.num, src := s.dev.num, dvc := 0, tc := 2, k := 1, msg := 0, m := 8, rot := g % 36,
                        field := 3, len := 8, grp := partGrp s, cseq := 0, e := 0, ov := false, chunk := 0, dl := 0,
                        ncon := 1 }
      .next (sendFor (chargeFor { s with part.voted := true } s.part.stepTag (some 0) .vote 1) s.part.stepTag (some 0) h (leBytes w 8))

/-! ### The outcome (R299, R301) -/

/-- The blocks of the frame area, in ascending order (R283). -/
def frameBlocks (s : State) : List Nat :=
  let (lo, hi) := frameArea s
  countUp (blockOf lo 0) ((hi - lo) / 131072 * 32)

/-- Take back the restore set of an aborted step (R289, R299). -/
def takeBack (t : Tx) : Tx :=
  match t.restore with
  | some (k, n, c) => { t with k := k, n := n, c := c, adv := 0, restore := none, vote := 0 }
  | none => { t with vote := 0 }

/-- The outcome on a virtual core that opened the step (R299). -/
def outcomeVC (commit : Bool) (w : Word64) (v : VC) : VC :=
  if v.tx.state = 1 ∨ v.tx.state = 2 then
    let t : Tx := if commit then { v.tx with restore := none, openAt := none } else takeBack v.tx
    { v with tx := { t with state := 3, out := w } }
  else v

/-- The groups take back their sequence numbers (R289): the numbers of the aborted attempt are used again. -/
def takeBackSeqs (s : State) : State :=
  (countUp 0 (groupCount s)).foldl (fun t g => setCseq t g (mget 0 s.part.epSeqs g)) s

/-- The open epoch closes with an outcome (R288, R299): its record, the generation expected next, and a drain when the
step asked for one (R301). -/
def closeEpoch (s : State) (commit : Bool) : State :=
  match s.part.openEp with
  | none => s
  | some (ep, g, dr) =>
    let n := s.part.commits + 1
    let d : Drain := { owner := s.part.stepTag, gen := g, order := n, left := frameBlocks s, sent := 0,
                       recs := if s.part.stepTag = launchTag s then drainRecords s g else s.part.stepRecs, out := [] }
    let s1 : State := { s with
      part.openEp := none, part.voted := false, part.devVote := 0, part.devLoss := 0xFF800000, part.endVoted := false,
      part.stepTag := none, part.stepRecs := [],
      part.outcomes := (ep % 256, ep, commit, g) :: s.part.outcomes.filter (fun o => o.1 != ep % 256),
      part.commits := if commit then n else s.part.commits,
      part.x := if commit then (g + 1) % 65536 else s.part.x,
      part.drains := if commit && dr then s.part.drains ++ [d] else s.part.drains }
    if commit then s1 else takeBackSeqs s1

/-- The outcome word w reaches the device (R299). A packet without bit 15, or of another generation, is no outcome of the
open step. -/
def outcomeAt (s : State) (w : Word64) : State :=
  match s.part.openEp with
  | none => s
  | some (_, g, _) =>
    if fld w 15 15 = 0 ∨ fld w 31 16 ≠ g then s
    else
      let commit := decide (fld w 12 0 = 0)
      closeEpoch (allVC s (outcomeVC commit w)) commit

/-- OUTCOME_ARRIVAL: the outcome of the open step arrives (R299). -/
def execOutcomeArrival (w : BitVec 64) (s : State) : Out := .next (outcomeAt s w)

/-! ### The drain (R301) -/

/-- The tag at or above g that is least among those of a block: in the drain queue (true) or in a pinned slot (R301). -/
def drainSource (s : State) (bk g : Nat) : Option (Bool × Nat × List Byte) :=
  let b := blockAt s bk
  let queued := (s.part.drainQ.filter (fun q => q.1 == bk && decide (genAbove g q.2.1 < 32768))).map
    (fun q => (true, q.2.1, q.2.2))
  let pins := (b.pin.filter (fun p => decide (genAbove g p.2 < 32768))).map
    (fun p => (false, p.2, physRead s (slotAddr bk p.1) 2048))
  (queued ++ pins).foldl
    (fun best x => match best with
      | none => some x
      | some y => if genAbove g x.2.1 < genAbove g y.2.1 then some x else some y) none

/-- A line of the slot that serves the drain meets an uncorrectable error of HBM (R394). -/
def drainPoisoned (s : State) (bk : Nat) (src : Bool × Nat × List Byte) : Bool :=
  let b := blockAt s bk
  !src.1 && (b.pin.filter (fun p => p.2 == src.2.1)).any (fun p => (countUp 0 16).any (fun i => poisoned s (slotAddr bk p.1 + 128 * i)))

/-- Reading a slot or an entry for the drain that its tag names clears it (R301). -/
def drainClear (s : State) (bk g : Nat) (src : Bool × Nat × List Byte) : State :=
  if src.2.1 ≠ g then s
  else if src.1 then { s with part.drainQ := s.part.drainQ.filter (fun q => !(q.1 == bk && q.2.1 == g)) }
  else
    let b := blockAt s bk
    setBlock s bk { b with pin := b.pin.filter (fun p => p.2 != g) }

/-- The entry of the drain queue serves the drain: it is what its block's read for the drain comes from (R301). -/
def queueServes (s : State) (d : Drain) (q : Nat × Nat × List Byte) : Bool :=
  d.left.contains q.1 && (match drainSource (touch s q.1) q.1 d.gen with
    | some x => x.1 && x.2.1 == q.2.1
    | none => false)

/-- The block that the oldest drain reads next: one whose content stands in the drain queue first, then the lowest (R301). -/
def drainNext (s : State) (d : Drain) : Option Nat :=
  match s.part.drainQ.find? (queueServes s d) with
  | some q => some q.1
  | none => d.left.head?

/-- The messages that bytes of a drain are cut into, of at most kmax fragments each (R308, R312). -/
def drainPieces (s : State) (data : List Byte) : List (List Byte) :=
  let n := 256 * fld s.dev.drainctl 9 4
  (countUp 0 (ceilDiv data.length n)).map (fun i => cut data (n * i) n)

/-- Send a message of a drain to the buddy under the next message number (R301, R303, R308). -/
def drainMessage (owner : Option LaunchTag) (s : State) (d : List Byte) : State :=
  let h : Head := { dst := (Config.buddy s.dev.num).toNat, src := s.dev.num, dvc := 0, tc := 3,
                    k := ceilDiv d.length 256, msg := s.dev.msgNo, m := fld s.dev.drainctl 3 0,
                    rot := (s.dev.num + s.dev.msgNo) % 36, field := 0, len := d.length, grp := partGrp s, cseq := 0,
                    e := 0, ov := false, chunk := 0, dl := 0, ncon := 1 }
  let s1 := sendFor s owner (some 0) h d
  { s1 with dev.msgNo := (s1.dev.msgNo + 1) % 2 ^ 32 }

/-- Replace the oldest drain. -/
def setDrain (s : State) (d : Drain) : State := { s with part.drains := d :: s.part.drains.drop 1 }

/-- The oldest drain d sends bytes; it remembers its messages until it is acknowledged (R312). -/
def drainSend (s : State) (d : Drain) (data : List (List Byte)) : State :=
  let ps := data.flatMap (drainPieces s)
  setDrain (ps.foldl (drainMessage d.owner) s) { d with out := d.out ++ ps }

/-- DRAIN_ENGINE_TRANSFER: the oldest pending drain sends its next block, or after the last its register records (R301). DESIGN CHOICE
(log 91): a block that cannot be read is not sent, and the fault is one of an operation in flight of the drain's launch (R394). -/
def execDrainEngineTransfer (s : State) : Out :=
  match s.part.drains with
  | [] => .next s
  | d :: _ =>
    match drainNext s d with
    | none => if d.recs.isEmpty then .next s else .next (drainSend s { d with recs := [] } d.recs)
    | some bk =>
      let s1 := touch s bk
      match drainSource s1 bk d.gen with
      | none => .next (setDrain s1 { d with left := d.left.erase bk })
      | some src =>
        if drainPoisoned s1 bk src then
          .next (inLaunch (setDrain (drainClear s1 bk d.gen src) { d with left := d.left.erase bk }) d.owner
            (fun t => flightFault t 0 0x28 8 0 0 none))
        else
        .next (drainSend (drainClear (chargeFor s1 d.owner (some 0) .hbm 16) bk d.gen src)
          { d with left := d.left.erase bk, sent := d.sent + 1 } [src.2.2])

/-- Message k of the oldest drain was lost at the buddy: its blocks are sent again under a new message number (R312). -/
def drainAgain (s : State) (k : Nat) : State :=
  match s.part.drains with
  | [] => s
  | d :: _ =>
    match d.out[k]? with
    | some p => drainMessage d.owner s p
    | none => s

/-- DRAIN_ACKNOWLEDGE: the buddy confirms the last byte of the oldest drain; its record is posted to the lowest-numbered
virtual core of its launch, on the cores or saved; that of a launch that has ended is posted nowhere (R301). -/
def execDrainAcknowledge (s : State) : Out :=
  match s.part.drains with
  | [] => .next s
  | d :: rest =>
    if d.left.isEmpty && d.recs.isEmpty then
      let s1 : State := { s with part.drains := rest, part.acked := s.part.acked ++ [d.gen] }
      .next (if d.owner.isSome then
          inLaunch s1 d.owner (fun u => inVC u 0 (fun t => postRecord t (posterOf 0) t.vc.now 4 0 d.gen 1 (w64 d.sent) 0))
        else s1)
    else .next s

/-- The generation of the committed version of a block, a closed epoch's outcome that no touch has applied yet counted (R285,
R302). -/
def committedGen (s : State) (b : Block) : Option Nat :=
  match b.e with
  | some e => if outcomeOf s e = some true then genOf s e else b.gen
  | none => b.gen

/-- The blocks that a survivor reloads when the job recovers to generation gr: those whose committed version is newer, as the
controller finds from the epochs of the block metadata (R302). -/
def newerBlocks (s : State) (gr : Nat) : List Nat :=
  (s.part.blocks.filter (fun p => match committedGen s p.2 with
    | some g => decide (1 ≤ genAbove gr g) && decide (genAbove gr g < 32768)
    | none => false)).map (fun p => p.1)

/-! ### Blocks (R286-R288) -/

/-- SWEEPER_RESOLVE: a block of a closed epoch is resolved in the background (R288). -/
def execSweeperResolve (block : Nat) (s : State) : Out :=
  match (blockAt s block).e with
  | none => .next s
  | some e => if (outcomeOf s e).isSome then .next (touch s block) else .next s

/-- The lowest line of a block that the tentative slot lacks. -/
def missingLine (b : Block) : Option Nat := (countUp 0 16).find? (fun i => !b.map.getLsbD i)

/-- FIRST_WRITE_LINE_COPY: the controller copies the next missing line of slot c into the tentative slot (R287, R288). -/
def execFirstWriteLineCopy (block : Nat) (s : State) : Out :=
  let b := blockAt s block
  if b.e.isNone || !b.copy then .next s
  else
    match missingLine b with
    | none => .next (setBlock s block { b with copy := false })
    | some i =>
      let s1 := physWrite (chargeFor s b.owner (some b.writer) .hbm 2) (slotAddr block (1 - b.c) + 128 * i)
        (physRead s (slotAddr block b.c + 128 * i) 128)
      .next (setBlock s1 block { b with map := b.map ||| BitVec.ofNat 16 (2 ^ i) })

/-- VERSIONED_ACCESS: an access reaches the version controller, which touches its block and picks the slot (R286). -/
def execVersionedAccess (acc : VAccess) (s : State) : Out :=
  if acc.write then
    (match vWrite s acc.frame acc.off acc.data acc.epoch with
     | some s1 => .next s1
     | none => .next s)
  else .next (vRead s acc.frame acc.off acc.len).1

end Sys2Proof.Machine
end

