-- ==== Sys2Proof/Machine/Darning.lean ====
section
/-! DEFINITION. Fragments that arrive, darning buffers, deliveries and losses (15_fabric R305, R307, R309-R312). -/

namespace Sys2Proof.Machine

/-! ### Dies and counters (R309, R310) -/

/-- The die of cluster u of the partition (R355). -/
def dieOfCluster (s : State) (u : Nat) : Nat := (64 / s.m * s.part.idx + u) / 16
/-- The die of a virtual core (R343). -/
def dieOfVC (s : State) (n : Nat) : Nat := dieOfCluster s (n / s.m / 16)
/-- The die of a partition-physical address: that of its pseudo-channel's cluster (R240, R355). -/
def dieOfMem (s : State) (pa : Nat) : Nat := dieOfCluster s (pcOf s pa / 8)
/-- Buffers of the partition on a die (R25, R309). -/
def darnShare (s : State) : Nat := Nat.min 512 (2048 / s.m)

/-- The reasons for which a fragment is disposed of (R310). -/
inductive Disposal where
  | late | duplicate | mismatch | corrupt | partialSum | noBuffer | stale
  deriving DecidableEq, Repr, Inhabited

def Disposal.code : Disposal → Nat
  | .late => 0 | .duplicate => 1 | .mismatch => 2 | .corrupt => 3 | .partialSum => 4 | .noBuffer => 5 | .stale => 6

/-- A fragment is disposed of: counted on its die, charged to the device (R310, R361). -/
def dispose (s : State) (die : Nat) (d : Disposal) : State :=
  let k := 8 * die + d.code
  chargeTo { s with dev.darnCounts := mput 0 s.dev.darnCounts k (mget 0 s.dev.darnCounts k + 1) } none .frag 1

/-- The die whose port received a fragment: nine ports a die. -/
def dieOfPort (port : Nat) : Nat := port / 9

/-! ### Keys (R307, R329) -/

/-- A commit-tree packet is a report of the launch's devices to each other (R349, R382). DESIGN CHOICE (log 72): bit 15 is 0, bit 14 is 1,
bits 13:0 hold its kind and bits 63:16 what it says. -/
def isReport (w : Nat) : Bool := bits w 15 14 == 1

/-- The key of a commit-tree packet: its generation and bit 15, or what a report says. -/
def voteKey (grp w : Nat) : List Nat :=
  if isReport w then [2, grp, 2 ^ 16 + bits w 63 16, bits w 13 0] else [2, grp, bits w 31 16, bits w 15 15]

/-- The key of a fragment with payload d; a launch packet names its queue in `chunk` (log 27). -/
def keyOf (h : Head) (d : List Byte) : List Nat :=
  match h.tc with
  | 0 => [0, h.grp, h.cseq, h.chunk, h.src]
  | 1 => [1, h.grp, h.cseq, h.chunk]
  | 2 => voteKey h.grp (leNat (d.take 8))
  | 5 => [5, h.grp, h.cseq, h.chunk]
  | t => [t, h.grp, h.src, h.msg, h.chunk]

/-- The window of the partition that a class-5 fragment belongs to. -/
def windowOf (s : State) (h : Head) : Option Window :=
  s.part.windows.find? (fun w => decide (groupEntry s w.group = h.grp) && winNo w 0 == h.cseq % 2 ^ 24)

/-- The die on which a fragment takes its buffer (R309): of the destination virtual core, or of the home memory. Where a drain's
bytes go is a matter of system software (R301): a free value (log 69). -/
def fragDie (s : State) (h : Head) : Nat :=
  match h.tc with
  | 3 => dieOfMem s (Config.drainHome h.src h.msg % s.cp)
  | 5 =>
    (match (windowOf s h).bind (fun w => lineOf s w.base) with
     | some line => dieOfMem s (128 * line)
     | none => dieOfVC s h.dvc)
  | _ => dieOfVC s h.dvc

/-- The group's number within the partition. -/
def localGroup (s : State) (h : Head) : Nat := h.grp % groupCount s

/-- The virtual cores of a launch hold the collective that a message of class 0 or 1 belongs to. -/
def hasColl (s : State) (h : Head) (vs : List VC) : Bool :=
  vs.any (fun v => v.id == h.dvc && v.colls.any (fun c => c.group == localGroup s h && c.seq == h.cseq))

/-- The launch that a fragment is for: the one whose collective or window it belongs to, else the running one (R385, R388). -/
def ownerOf (s : State) (h : Head) : Option LaunchTag :=
  match h.tc with
  | 3 => none
  | 4 => none
  | 5 =>
    (match windowOf s h with
     | some w => w.owner
     | none => launchTag s)
  | _ =>
    match (if hasColl s h s.vcs then none else s.part.saved.find? (fun x => hasColl s h x.vcs)) with
    | some x => some x.tag
    | none => launchTag s

/-- The partition as a launch sees it: with its virtual cores in focus, those of a saved one too. -/
def viewOf (s : State) (o : Option LaunchTag) : State :=
  if o = launchTag s then s
  else
    match s.part.saved.find? (fun x => some x.tag == o) with
    | none => s
    | some x =>
      match x.vcs with
      | [] => s
      | v :: r => { s with vc := v, peers := r, launch := x.launch }

/-- The deadline lies in the past (R310). -/
def dlPast (s : State) (h : Head) : Bool :=
  decide (h.tc = 0 ∨ h.tc = 1 ∨ h.tc = 5) && s.launch.live && decide (s.launch.mode = .lockstep)
    && decide (2 ^ 23 ≤ (h.dl + 2 ^ 24 - frameCount s % 2 ^ 24) % 2 ^ 24)

/-- A chunk waits for this kind of message: the exponent pass, or the sum or data (R309, R319). -/
def CChunk.waits (x : CChunk) (pass : Bool) : Bool :=
  if pass then x.stage == 0 || x.stage == 2 else x.stage == 1 || x.stage == 3

/-- The collective of the virtual core in focus that a message belongs to. -/
def collOf (s : State) (h : Head) : Option (Nat × Coll) :=
  ((countUp 0 s.vc.colls.length).zip s.vc.colls).find? (fun p => p.2.group == localGroup s h && p.2.seq == h.cseq)

/-- The pass or the sum of a chunk is over, while the other is to come (R309, R319). -/
def phaseOver (s : State) (h : Head) : Bool :=
  h.tc == 1 && (match (s.vcs.find? (fun v => v.id == h.dvc)).bind (fun v => (collOf { s with vc := v } h)) with
    | some (_, c) =>
      (match c.chunks[h.chunk]? with
       | some x => !x.waits (h.field == 3)
       | none => false)
    | none => false)

/-- The key is closed; an outcome is taken once, while a step is open (R309, R330). -/
def keyClosed (s : State) (h : Head) (d : List Byte) : Bool :=
  s.part.closed.contains (keyOf h d) || phaseOver s h
    || (h.tc == 2 && s.part.openEp.isNone && !isReport (leNat (d.take 8)))

/-- Fields that every fragment of a message shares (R310). -/
def sameMessage (b : Darn) (h : Head) : Bool :=
  match b.head with
  | [w0, w1, w2, _] =>
    fld w0 7 3 + 1 == h.k && fld w1 31 28 == h.m && fld w1 21 20 == h.field && fld w1 19 7 + 1 == h.len
      && fld w2 23 16 == h.e
  | _ => false

/-- The state of a buffer that holds n of k fragments (R309, R312). -/
def fillState (h : Head) (n : Nat) : DarnState :=
  if n < h.k then .filling else if h.tc = 2 ∨ h.tc = 4 then .ready else .decoding

/-- The header of a buffer's first fragment. -/
def Darn.hd (b : Darn) : Head :=
  headOfFrag { w0 := listAt 0 b.head 0, w1 := listAt 0 b.head 1, w2 := listAt 0 b.head 2, w3 := listAt 0 b.head 3,
               payload := [], crc := 0, port := 0 }

/-- The message of a buffer from k of its fragments (R309). -/
def darnMessage (b : Darn) : List Byte :=
  ((darnPayloads b.hd.field b.hd.k b.frags).flatMap id).take b.hd.len

/-- A buffer with one more fragment (R309): the ov bits are ORed. -/
def Darn.add (b : Darn) (h : Head) (i : Nat) (d : List Byte) : Darn :=
  let b1 := { b with frags := b.frags ++ [(i, d)], ov := b.ov || h.ov,
                     state := fillState h (b.frags.length + 1) }
  if b1.state = .ready then { b1 with data := darnMessage b1 } else b1

/-- The beat from which a buffer's lat counts: of the destination virtual core, or of the device's reference. -/
def takenBeat (s : State) (h : Head) : Nat :=
  if h.tc = 3 then s.dev.refbeat
  else
    match getVC s h.dvc with
    | some v => v.now
    | none => s.vc.now

/-- The fragments that a buffer's decode uses are charged to the launch they are for; those of drains and launch packets, which no
context here caused, to the device (R322, R361). -/
def chargeDarn (s : State) (b : Darn) : State := chargeFor s b.owner b.vc .frag b.hd.k

/-- Buffer b takes a fragment; one that is Ready with it is charged at once (R312). -/
def fillDarn (s : State) (b : Darn) (h : Head) (f : Fragment) : State :=
  let b1 := b.add h (fragIdx f) f.payload
  let l := if s.part.darns.contains b then s.part.darns.map (fun x => if x = b then b1 else x) else s.part.darns ++ [b1]
  let s1 : State := { s with part.darns := l }
  if b1.state = .ready then chargeDarn s1 b1 else s1

/-- A new buffer. -/
def newDarn (s : State) (h : Head) (f : Fragment) (die : Nat) (o : Option LaunchTag) : Darn :=
  { key := keyOf h f.payload, owner := o, die := die,
    vc := if h.tc = 3 ∨ h.tc = 4 then none else if h.tc = 2 then some 0 else some h.dvc,
    head := fragWords f, frags := [], ov := false, taken := takenBeat (viewOf s o) h, state := .filling, data := [] }

/-- A fragment with a sound check word arrives for the partition in focus (R307, R309, R310). A cseq more than 2^31 behind the
group's is one ahead of it in the 32 bits of the field, and is taken as such (log 70). -/
def arrive (s : State) (f : Fragment) : State :=
  let h := headOfFrag f
  let die := fragDie s h
  let o := ownerOf s h
  if 6 ≤ h.tc ∨ s.part.reset.isSome = true then dispose s die .stale
  else if (h.tc = 1 ∨ h.tc = 5) ∧ h.ncon ≠ groupSize s (localGroup s h) then dispose s die .partialSum
  else if dlPast (viewOf s o) h then dispose s die .late
  else
    match s.part.darns.find? (fun b => b.key == keyOf h f.payload) with
    | some b =>
      if b.state ≠ .filling then dispose s die .late
      else if b.frags.any (fun p => p.1 == fragIdx f) then dispose s die .duplicate
      else if sameMessage b h = false ∨ h.k + h.m ≤ fragIdx f then dispose s die .mismatch
      else fillDarn s b h f
    | none =>
      if keyClosed (viewOf s o) h f.payload then dispose s die .late
      else if h.k + h.m ≤ fragIdx f then dispose s die .mismatch
      else if darnShare s ≤ (s.part.darns.filter (fun b => b.die == die)).length then dispose s die .noBuffer
      else fillDarn s (newDarn s h f die o) h f

/-- The partition that a fragment belongs to: its entry number tells it (R314), or a launch packet's queue (R309). -/
def fragPart (s : State) (h : Head) : Nat := if h.tc = 4 then qPart s h.chunk else h.grp / groupCount s

/-- FRAGMENT_ARRIVAL: a fragment arrives (R305, R309, R310). -/
def execFragmentArrival (f : Fragment) (s : State) : Out :=
  if fragSound f then .next (inPart s (fragPart s (headOfFrag f)) (fun t => arrive t f))
  else .next (dispose s (dieOfPort f.port.toNat) .corrupt)

/-- DARN_DECODE: buffer n, which holds k fragments, becomes Ready; the fragments used are charged (R309, R322). -/
def execDarnDecode (n : Nat) (s : State) : Out :=
  match s.part.darns[n]? with
  | none => .next s
  | some b =>
    if b.state ≠ .decoding then .next s
    else .next (chargeDarn { s with part.darns := s.part.darns.set n { b with state := .ready, data := darnMessage b } } b)

/-! ### Delivery (R309, R325) -/

/-- A closed key of the same source opens again: the source's message number has moved more than 2^31 beyond it (R310). -/
def keyPassed (k old : List Nat) : Bool :=
  let d := (listAt 0 k 3 + 2 ^ 32 - listAt 0 old 3) % 2 ^ 32
  decide (3 ≤ listAt 0 k 0) && decide (listAt 0 k 0 ≤ 4) && old.take 3 == k.take 3 && decide (2 ^ 31 < d) && decide (d ≤ 3 * 2 ^ 30)

/-- Free a buffer; its key closes unless its message is to be sent anew (R309, R310, R319). -/
def freeDarn (s : State) (b : Darn) (close : Bool) : State :=
  { s with part.darns := s.part.darns.filter (fun x => x.key != b.key),
           part.closed := if close then s.part.closed.filter (fun k => !keyPassed b.key k) ++ [b.key] else s.part.closed }

/-- The place of the chunk in the collective's list: broadcast and gather by member, reductions by chunk. -/
def chunkPlace (s : State) (c : Coll) (h : Head) : Nat :=
  if c.op = 2 then
    (match memberOf s c.group h.src with
     | some i => i
     | none => 0) * chunkCount s c.op c.group c.desc + h.chunk
  else h.chunk

/-- The chunk waits for this message, and its beat has come (R309, R325). -/
def chunkWaits (s : State) (h : Head) (x : CChunk) : Bool :=
  x.waits (decide (h.tc = 1 ∧ h.field = 3)) && (decide (s.launch.mode = .elastic) || decide (x.due ≤ s.vc.now))

/-- Delivery of a buffer starts (R309); one whose message brings another under the same key, an exponent pass or a sum that
overflowed, is free with it (R319). -/
def startDelivery (s : State) (b : Darn) (again : Bool) : State :=
  if again then freeDarn s b false
  else { s with part.darns := s.part.darns.map (fun x => if x = b then { b with state := .delivering } else x) }

/-- The pass of a chunk is followed by its sum: not for coll.exp, nor when no exponent bounds the chunk (R319, R320). -/
def passGoesOn (c : Coll) (b : Darn) : Bool := decide (c.op ≠ 4) && leNat (b.data.take 4) != 255

/-- Deliver a Ready message of class 0 or 1 to the collective of the virtual core in focus. -/
def deliverColl (s : State) (b : Darn) : State :=
  let h := b.hd
  match collOf s h with
  | none =>
    -- issued already and over: the message has no reader; not yet issued: it waits
    if (groupCseq s (localGroup s h) + 2 ^ 32 - h.cseq) % 2 ^ 32 - 1 < 2 ^ 31
        ∧ groupCseq s (localGroup s h) ≠ h.cseq then freeDarn s b true else s
  | some (n, c) =>
    match c.chunks[chunkPlace s c h]? with
    | none => freeDarn s b true
    | some x =>
      if chunkWaits s h x && !c.failed then
        let s1 := startDelivery s b (h.tc == 1 && (if h.field = 3 then passGoesOn c b else b.ov))
        if h.tc = 0 then
          let i := match memberOf s c.group h.src with
            | some i => i
            | none => 0
          dataDone (if c.op = 2 then touchMembers s1 c.group (i + 1) else s1) n c i h.chunk b.data
        else if h.field = 3 then passDone s1 n c h.chunk x (leNat (b.data.take 4))
        else
          let w := symBytes h.field
          sumDone s1 n c h.chunk x ((countUp 0 (b.data.length / w)).map (fun i => leNat (cut b.data (w * i) w))) b.ov
      else s

/-- The last byte of a buffer that delivers to the virtual core in focus has been written: it is free, and its key is closed
(R309). -/
def freeDelivered (s : State) : State :=
  let written (b : Darn) : Bool :=
    decide (b.state = .delivering) && b.vc == some s.vc.id && decide (b.owner = launchTag s)
      && (match collOf s b.hd with
          | some (_, c) => c.mbox.isNone && c.lands.all (fun l => l.chunk != chunkPlace s c b.hd)
          | none => true)
  (s.part.darns.filter written).foldl (fun t b => freeDarn t b true) s

/-- The launch that a buffer is for stands on the cores. -/
def Darn.resident (s : State) (b : Darn) : Bool := decide (b.owner = launchTag s)

/-- The lead's report of a request at beat q reaches this device: the launch's flag is set from q on (R382). -/
def requestReport (s : State) (q : Nat) : State := if s.launch.req.isNone then { s with launch.req := some q } else s

/-- A report of the launch's devices arrives: the beat of a request, what a device says of a barrier, or a request that the lead is to
make (R349, R382; log 72). It is acted on once the partition's units come to it. -/
def reportAt (s : State) (w : Nat) : State :=
  let v := bits w 63 16
  if !(s.launch.live && s.launch.multi) then s
  else
    match bits w 13 0 with
    | 0 => requestReport s v
    | 1 => if v % 4 = 0 then s else { s with part.late := s.part.late ++ [(3 + v / 2 ^ 46 % 2, v / 4 % 2 ^ 44, v % 4)] }
    | _ => { s with part.asked := true }

/-- A commit-tree packet: a report, or the outcome of the step. -/
def commitPacket (s : State) (w : Nat) : State := if isReport w then reportAt s w else outcomeAt s (w64 w)

/-- MESSAGE_DELIVERY: Ready buffer n delivers at its delivery beat (R309): to its collective, as the outcome of the step or the report
of a request, or to the drain and launch messages held; a window's flush waits for its application (R329). -/
def execMessageDelivery (n : Nat) (s : State) : Out :=
  match s.part.darns[n]? with
  | none => .next s
  | some b =>
    if b.state ≠ .ready then .next s
    else
      match b.hd.tc with
      | 5 => .next s
      | 2 => .next (commitPacket (freeDarn s b true) (leNat (b.data.take 8)))
      | 3 => .next { freeDarn s b true with part.msgsIn := s.part.msgsIn ++ [(b.key, b.data)] }
      | 4 => .next { freeDarn s b true with part.msgsIn := s.part.msgsIn ++ [(b.key, b.data)] }
      | _ => if b.owner = launchTag s then .next (inVC s b.hd.dvc (fun t => deliverColl t b)) else .next s

/-! ### Losses (R309, R311, R312) -/

/-- A Filling buffer has passed its deadline or its timeout (R309, R311, R312). -/
def darnFailed (s : State) (b : Darn) : Bool :=
  let h := b.hd
  decide (b.state = .filling) &&
    (if h.tc = 3 then decide (b.taken + fld s.dev.drainctl 63 40 ≤ s.dev.refbeat)
     else if s.launch.mode = .lockstep then decide ((frameCount s + 2 ^ 24 - h.dl) % 2 ^ 24 < 2 ^ 23)
     else decide (b.taken + groupLat s (localGroup s h) ≤ s.vc.now))

/-- A buffer holds something of chunk place k of a collective. -/
def chunkHeld (s : State) (c : Coll) (k : Nat) : Bool :=
  s.part.darns.any (fun b => decide (b.hd.tc < 2) && b.hd.grp == groupEntry s c.group && b.hd.cseq == c.seq
    && chunkPlace s c b.hd == k)

/-- A chunk of a collective has met its deadline with no buffer (R311). -/
def collFailed (s : State) (c : Coll) : Bool :=
  (c.chunks.zip (countUp 0 c.chunks.length)).any (fun p =>
    p.1.stage != 4 && decide (p.1.due ≤ s.vc.now) && !chunkHeld s c p.2)

/-- A fault that belongs to no context is counted, and vetoes an open step with flag 6 (R297, R380, R397). -/
def orphanFault (s : State) (cause : Nat) : State :=
  { bumpCount s (0x300 + cause) with
    part.devVote := if s.part.openEp.isSome then s.part.devVote ||| 64 else s.part.devVote }

/-- An unrecoverable loss against the virtual core in focus; the collective fails with it, once (R311, R377). -/
def lossFault (s : State) (n : Option (Nat × Coll)) : State :=
  let s1 : State := { s with vc := s.vc.voteFlag 6 }
  match n with
  | some (i, c) =>
    let s2 := flightFault s1 s1.vc.id 0x27 0 0 c.name (some c.num)
    if c.failed then s2 else collFails s2 i c
  | none => flightFault s1 s1.vc.id 0x27 0 0 0 none

/-- UNRECOVERABLE_LOSS: buffer n, or past the buffers collective n of the virtual core in focus, has missed its deadline (R311); past
both, message n of the oldest drain was lost at the buddy, and its blocks are sent again (R312). -/
def execUnrecoverableLoss (n : Nat) (s : State) : Out :=
  match s.part.darns[n]? with
  | some b =>
    if darnFailed s b = false ∨ (b.vc.isSome ∧ b.owner ≠ launchTag s) then .next s
    else
      let s1 := freeDarn s b true
      match b.vc with
      | none => .next (orphanFault s1 0x27)
      | some v =>
        if (getVC s1 v).isNone then .next (orphanFault s1 0x27)
        else .next (inVC s1 v (fun t => lossFault t (if b.hd.tc < 2 then collOf t b.hd else none)))
  | none =>
    match s.vc.colls[n - s.part.darns.length]? with
    | none => .next (drainAgain s (n - s.part.darns.length - s.vc.colls.length))
    | some c => if collFailed s c && !c.failed then .next (lossFault s (some (n - s.part.darns.length, c))) else .next s

end Sys2Proof.Machine
end

