-- ==== Sys2Proof/Machine/Domains.lean ====
section
/-! DEFINITION. Domains, barriers and DOM: major 0x28, the opening alignment barrier and the release of an instance
(16_scheduling R345-R350). -/

namespace Sys2Proof.Machine

/-- A level's place in DOM (R346). -/
def levelCode : Level → Nat
  | .cluster => 0 | .die => 1 | .device => 2 | .herd => 3 | .job => 4

/-- Virtual cores of one domain of the level (R345). -/
def domainSize : Level → Nat
  | .cluster => 16 | .die => 256 | _ => 1024

/-- The notice of a level, in beats (R349). -/
def notice : Level → Nat
  | .cluster => 16 | .die => 48 | .device => 96 | .herd => 2048 | .job => 16384

/-- The virtual core is a member of the open instance of the level (R346). -/
def VC.isMember (v : VC) (l : Level) : Bool := bit v.memb (levelCode l)

/-- The membership that DOM asks for. -/
def VC.domMem (v : VC) : Nat := fld v.ctl.dom 4 0

/-! ### Arrival (R348) -/

/-- The messages of sends of virtual core n with a number below seq that have not landed. -/
def sendsOut (s : State) (n seq : Nat) : Bool := s.launch.msgs.any (fun m => m.src == n && decide (m.seqS < seq))

/-- An entry that CTL routed, or a table run placed that CTL started, before word number seq and run number `run` (R348). -/
def QEntry.before (seq run : Nat) (e : QEntry) : Bool :=
  match e.run with
  | some k => decide (k < run)
  | none => decide (e.seq < seq)

/-- The virtual core has done what it routed before an arrival: engine words, table runs, copies, sends, and the collectives listed
(R348). -/
def arrivedBefore (s : State) (v : VC) (a : Arrival) : Bool :=
  allQueues.all (fun q => (v.eng.q q).entries.all (fun e => !e.before a.seq a.run))
    && v.tbl.runs.all (fun r => r.ended || decide (a.run ≤ r.id)) && v.eng.flights.all (fun f => !f.entry.before a.seq a.run)
    && !sendsOut s v.id a.seq && v.colls.all (fun c => !a.colls.contains (c.group, c.seq))

/-- The collectives that the virtual core has issued. -/
def collKeys (v : VC) : List (Nat × Nat) := v.colls.map (fun c => (c.group, c.seq))

/-- An arrival of the virtual core in focus that waits for everything routed until now. -/
def arrivalNow (s : State) (l : Level) (b : Nat) (member : Bool) : Arrival :=
  { level := l, b := b, seq := s.vc.eng.nextSeq, run := s.vc.tbl.nextRun, colls := collKeys s.vc, member := member, done := false }

/-- The virtual core in focus has arrived now (R348, R352). -/
def arrivedNow (s : State) : Bool := arrivedBefore s s.vc (arrivalNow s .cluster 0 true)

/-! ### sstep (R348-R350) -/

/-- B of R349: the next beat after r that matches the stamp. -/
def releaseBeat (s : State) : Nat :=
  let d := (fld s.vc.ctl.dom 63 40 + 2 ^ 24 - s.vc.now % 2 ^ 24) % 2 ^ 24
  s.vc.now + (if d = 0 then 2 ^ 24 else d)

/-- The instance that an sstep of the virtual core in focus is for has every virtual core of the launch as a member: the open one, or
with an earlier arrival pending the next, whose membership DOM asks for (R346, R352). -/
def allMembers (s : State) (l : Level) : Bool :=
  if s.vc.arrived.any (fun a => decide (a.level = l)) then s.vcs.all (fun v => bit v.domMem (levelCode l))
  else s.vcs.all (fun v => v.isMember l)

/-- The first arrival of a virtual core at the open instance of a level. -/
def arrivalAt (v : VC) (l : Level) : Option Arrival := v.arrived.find? (fun a => decide (a.level = l) && a.member)

/-- A barrier between the devices of the launch: a level whose domain is wider than the device (R345, R349). -/
def acrossDevices (s : State) (l : Level) : Bool :=
  s.launch.multi && match l with
    | .herd => true
    | .job => true
    | _ => false

/-- What the device reports of a herd or job barrier: its B, and detail 0 or that of a barrier fault (R349; log 72). -/
def barrierReport (s : State) (l : Level) (b detail : Nat) : State :=
  if acrossDevices s l then
    { s with part.reports := s.part.reports ++ [reportWord 1 ((levelCode l - 3) * 2 ^ 46 + b % 2 ^ 44 * 4 + detail)] }
  else s

/-- The report of a barrier once every member on the device has an arrival at it. -/
def reportArrivals (s : State) (l : Level) (b : Nat) : State :=
  if (s.vcs.filter (fun v => v.isMember l)).all (fun v => (arrivalAt v l).isSome) then barrierReport s l b 0 else s

/-- sstep of a Lockstep launch: it retires at once; too short a notice is a barrier fault. Whether it is a member's is seen when its
instance is checked (R346, R349). -/
def sstepLock (s : State) (l : Level) : Out :=
  let b := releaseBeat s
  if b - s.vc.now < notice l then ctlFault s 0x26 1 0
  else
    let s1 := retire (charge s .sys)
    .next (reportArrivals { s1 with
      vc.ctl.lastSstep := some { level := l, seq := s.vc.eng.nextSeq, b := b, instret := s1.vc.ctl.instret, whole := allMembers s l },
      vc.arrived := s.vc.arrived ++ [arrivalNow s l b true] } l b)

/-- sstep of an Elastic launch: CTL waits in it until the instance releases (R350). -/
def sstepElastic (s : State) (l : Level) : Out :=
  match s.vc.arrived.find? (fun a => decide (a.level = l)) with
  | some a =>
    if a.done then
      sysNext { s with vc.arrived := s.vc.arrived.filter (fun x => decide (x.level ≠ l)) }
    else .next s
  | none =>
    let m := s.vc.isMember l
    if m && !arrivedNow s then .next s
    else
      .next { s with vc.arrived := s.vc.arrived ++ [{ arrivalNow s l 0 m with colls := [] }] }

/-- A barrier at a level. -/
def sstepOp (s : State) (l : Level) : Out :=
  restricted s <|
    match s.launch.mode with
    | .lockstep => sstepLock s l
    | .elastic => sstepElastic s l

/-- sstep.cluster (R348). -/
def execSstepCluster (s : State) : Out := sstepOp s .cluster

/-- sstep.die (R348). -/
def execSstepDie (s : State) : Out := sstepOp s .die

/-- sstep.device (R348). -/
def execSstepDevice (s : State) : Out := sstepOp s .device

/-- sstep.herd (R348). -/
def execSstepHerd (s : State) : Out := sstepOp s .herd

/-- sstep.job (R348). -/
def execSstepJob (s : State) : Out := sstepOp s .job

/-! ### DOM (R346, R348) -/

/-- The bits of DOM that dom.set writes: stamp and mem. -/
def domMask : Word64 := 0xFFFFFF000000001F

/-- dom.set: DOM := xa, but for the read-only and reserved fields (R346). -/
def execDomSet (ra : BitVec 6) (s : State) : Out :=
  restricted s <|
    sysNext { s with vc.ctl.dom := (s.vc.ctl.dom &&& ~~~domMask) ||| (xr s ra &&& domMask) }

/-- dom.get: xd := DOM (R346). -/
def execDomGet (rd : BitVec 6) (s : State) : Out :=
  restricted s <| .next (retire (setX (charge s .sys) rd s.vc.ctl.dom))

/-! ### Release (R346, R349, R350) -/

/-- The instance releases on a virtual core of its domain: the phase bit toggles and the next instance opens with the
membership that DOM asks for; in a Lockstep launch a member's first arrival and those up to B are over, in an Elastic one the ssteps
go on. -/
def releaseVC (lock : Bool) (l : Level) (b : Nat) (v : VC) : VC :=
  let k := levelCode l
  let first := if v.isMember l then v.arrived.find? (fun a => decide (a.level = l)) else none
  { v with
    ctl.dom := v.ctl.dom ^^^ w64 (2 ^ (5 + k)),
    memb := v.memb - b2n (bit v.memb k) * 2 ^ k + b2n (bit v.domMem k) * 2 ^ k,
    creditB := v.eng.credit,
    arrived := if lock then v.arrived.filter (fun a => decide (a.level ≠ l) || (decide (b < a.b) && decide (some a ≠ first)))
               else v.arrived.map (fun a => if a.level = l then { a with done := true } else a) }

/-- The virtual core lies in domain d of the level. -/
def inDomain (l : Level) (d : Nat) (v : VC) : Bool := v.id / domainSize l == d

/-- Release domain d of the level. -/
def releaseDomain (s : State) (l : Level) (d b : Nat) : State :=
  let lock := decide (s.launch.mode = .lockstep)
  allVC s (fun v => if inDomain l d v then releaseVC lock l b v else v)

/-- A barrier fault against every member of a domain (R349, R371). -/
def barrierFaults (s : State) (vs : List VC) (d : Nat) : State :=
  vs.foldl (fun t v => flightFault t v.id 0x26 d 0 0 none) s

/-- The detail that another device of the launch has reported for the barrier of a level at beat b; B = 0 stands for every one to come
(R349, R379; log 72). -/
def lateDetail (s : State) (l : Level) (b : Nat) : Nat :=
  let ds := s.part.late.filter (fun x => x.2.1 == 0 || (x.1 == levelCode l && decide (x.2.1 ≤ b % 2 ^ 44)))
  if !acrossDevices s l then 0 else if ds.any (fun x => x.2.2 == 2) then 2 else if ds.isEmpty then 0 else 3

/-- What was reported of the barrier of a level by beat b has been looked at. -/
def takeLate (s : State) (l : Level) (b : Nat) : State :=
  { s with part.late := s.part.late.filter (fun x => x.2.1 == 0 || x.1 != levelCode l || decide (b % 2 ^ 44 < x.2.1)) }

/-- The check of R349 at beat B of domain d: every member has arrived, under the same B; at herd and job level so have those of the
launch's other devices, as their reports say. -/
def checkLock (s : State) (l : Level) (d : Nat) : State :=
  let members := s.vcs.filter (fun v => inDomain l d v && v.isMember l)
  let due := members.filterMap (fun v => (arrivalAt v l).bind (fun a => if a.b ≤ v.now then some a.b else none))
  match due.min? with
  | none => s
  | some b =>
    let missing := members.any (fun v => match arrivalAt v l with
      | none => true
      | some a => a.b == b && !arrivedBefore s v a)
    let differ := members.any (fun v => match arrivalAt v l with
      | none => false
      | some a => a.b != b)
    let here := if missing then 2 else if differ then 3 else 0
    let s1 := releaseDomain (if here = 0 then s else barrierReport s l b here) l d b
    let detail := if here = 0 then lateDetail s l b else here
    takeLate (if detail = 0 then s1 else barrierFaults s1 members detail) l b

/-- The release of R350 for domain d: every member waits in its sstep; an instance without members releases when it opens, which is
looked at once a beat (log 48). -/
def checkElastic (s : State) (l : Level) (d : Nat) : State :=
  let vs := s.vcs.filter (inDomain l d)
  let members := vs.filter (fun v => v.isMember l)
  let waiting (v : VC) : Bool := v.arrived.any (fun a => decide (a.level = l) && !a.done)
  if members.all waiting then releaseDomain s l d 0 else s

/-- BARRIER_RELEASE: the open instances of a level that are due release (R349, R350). -/
def execBarrierRelease (level : Level) (s : State) : Out :=
  let one (t : State) (d : Nat) : State := match s.launch.mode with
    | .lockstep => checkLock t level d
    | .elastic => checkElastic t level d
  .next ((countUp 0 (1024 / domainSize level)).foldl one s)

/-! ### The opening alignment barrier (R347, R352, R385) -/

/-- Every queue's L becomes b − 1. -/
def alignQueues (e : Eng) (b : Nat) : Eng :=
  allQueues.foldl (fun (x : Eng) q => x.setQ q { x.q q with next := b }) e

/-- A virtual core passes the barrier: at a launch's opening its counter, its L and its credit are set; at the return to a
safe point they stand as at B; after a forced save they are as they were saved (R385). -/
def alignVC (kept : Bool) (resume : Option Nat) (v : VC) : VC :=
  let w : VC := { v with run := if v.run = .aligning then .running else v.run }
  if kept then w
  else
  match resume with
  | none => { w with now := 0, eng := { alignQueues v.eng 0 with credit := 32768 }, memb := v.domMem }
  | some b => { w with now := b, eng := { alignQueues v.eng b with credit := v.creditB } }

/-- OPENING_ALIGNMENT_BARRIER: every virtual core of the launch waits in it, or has ended before it (also every one of a
launch that was saved by force, R385), and the device releases (R347). -/
def execOpeningAlignmentBarrier (s : State) : Out :=
  if s.launch.live && s.vcs.all (fun v => decide (v.run ≠ .running))
      && (s.launch.kept || s.vcs.any (fun v => decide (v.run = .aligning))) then
    let s1 := allVC s (alignVC s.launch.kept s.launch.resume)
    .next { s1 with launch.resume := if s.launch.kept then s.launch.resume else none, launch.kept := false,
                    part.waits := s1.part.waits.filter (fun q => q != s.launch.queue) }
  else .next s

end Sys2Proof.Machine
end

