-- ==== Sys2Proof/Machine/Energy.lean ====
section
/-! DEFINITION. Charges, shared costs, coefficient sets and quotas (17_partitions_energy R359-R367). -/

namespace Sys2Proof.Machine

/-- A report goes into the commit tree, which takes it to every device of the job (R349, R382). DESIGN CHOICE (log 72): its form. -/
def sendReport (s : State) (w : Nat) : State :=
  sendMessage s (some 0)
    { dst := s.dev.num, src := s.dev.num, dvc := 0, tc := 2, k := 1, msg := 0, m := 8, rot := 0, field := 3, len := 8,
      grp := partGrp s, cseq := 0, e := 0, ov := false, chunk := 0, dl := 0, ncon := 1 } (leBytes w 8)

/-- The reports that wait go out. -/
def flushReports (s : State) : State := s.part.reports.foldl sendReport { s with part.reports := [] }

/-- The device's queue holds the slot of the running launch: it is the lead of its herd (R344). -/
def isLead (s : State) : Bool := !s.part.copies.contains (s.launch.queue, s.launch.slot)

/-- The lead of the first herd is the lead of the job. DESIGN CHOICE (log 72). -/
def isJobLead (s : State) : Bool := isLead s && s.launch.hidx == 0

/-- The launch is asked at beat b to yield its cores (R351). That of a launch on several devices is one beat number for all of them: the
lead names it, and a device that is not the lead asks the lead (R382; log 72). -/
def requestAt (s : State) (b : Nat) : State :=
  if s.launch.live && s.launch.req.isNone then
    if !s.launch.multi then { s with launch.req := some b }
    else if isJobLead s then
      let q := b + Config.reportLead
      { s with launch.req := some q, part.reports := s.part.reports ++ [reportWord 0 q] }
    else { s with part.reports := s.part.reports ++ [reportWord 2 b] }
  else s

/-- The launch is asked to yield its cores at this beat. -/
def request (s : State) : State := requestAt s s.vc.now

/-! ### Quotas (R365, R367) -/

/-- A VF becomes exhausted at beat b, when the writes and the charges of the beat are in: the open step is vetoed with flag 8 and the
running launch asked to yield (R365, R367). -/
def checkQuota (s : State) (b : Nat) : State :=
  if s.part.ex || noQuota s.part || decide (0 < energyLeft s.part) then s
  else
    requestAt { s with part.ex := true,
                       part.devVote := if s.part.openEp.isSome then s.part.devVote ||| 256 else s.part.devVote } b

/-! ### Accounts (R359, R361) -/

/-- Add to the account of virtual core n of a launch, running or saved (R361). The partition's sum keeps what an ended launch has
used. -/
def addAccount (s : State) (owner : Option LaunchTag) (n amount : Nat) : State :=
  let add (v : VC) : VC := { v with acct := v.acct + amount }
  let s1 : State := { s with part.spent := s.part.spent + amount }
  if owner.isNone then s1
  else if owner = launchTag s then updVC s1 n add
  else
    { s1 with part.saved := s1.part.saved.map (fun x =>
        if some x.tag = owner then { x with vcs := x.vcs.map (fun v => if v.id = n then add v else v) } else x) }

/-- A charge enters its account (R359). -/
def enterCharge (s : State) (c : Charge) : State :=
  match c.vc with
  | some n => addAccount s c.owner n c.amount
  | none => { s with dev.overhead := s.dev.overhead + c.amount }

/-- Every charge under way enters its account (R359). -/
def enterCharges (s : State) : State := s.part.charges.foldl enterCharge { s with part.charges := [] }

/-- CHARGE_ENTRY: the oldest charge of the partition in focus enters its account (R359). -/
def execChargeEntry (s : State) : Out :=
  match s.part.charges with
  | [] => .next s
  | c :: r => .next (enterCharge { s with part.charges := r } c)

/-! ### Shared costs (R364) -/

/-- Every partition's number. -/
def State.partIds (s : State) : List Nat := s.part.idx :: s.others.map (fun x => x.part.idx)

/-- A partition's share of the three totals: floor of each. -/
def sharesOf (s : State) (p : Part) (ref leak pidle : Nat) : Nat :=
  if p.bound then ref * s.np / 512 + leak * (64 / s.m) / 64 + pidle * p.pw / 256 else 0

/-- ACCOUNTING_INTERVAL_END: the totals of an interval of 65,536 reference beats, in units of charge, are split over the bound VFs; the
device keeps the remainder (R364). -/
def execAccountingIntervalEnd (ref leak pidle : Nat) (s : State) : Out :=
  let parts := s.part :: s.others.map (fun x => x.part)
  let given := parts.foldl (fun a p => a + sharesOf s p ref leak pidle) 0
  let s1 := s.partIds.foldl
    (fun t q => inPart t q (fun u => { u with part.shared := u.part.shared + sharesOf u u.part ref leak pidle })) s
  .next { s1 with dev.overhead := s1.dev.overhead + (ref + leak + pidle - given) }

/-- The device's coefficient of a class: of the set accepted last. DESIGN CHOICE (log 73): the shared totals, which no partition's set
prices, are priced by it. -/
def devCoef (s : State) (c : EClass) : Nat :=
  match s.dev.images.find? (fun i => decide (i.kind = .coefficients)) with
  | some i => listAt 0 i.coefs c.code
  | none => 0

/-- Reference beats of an accounting interval (R364). -/
def intervalBeats : Nat := 65536

/-- An accounting interval ends when the reference clock has come this far: the counts of e.ref and e.pidle are the memory's and the
fabric's own, e.leak counts the beats of four dies (R360, R364). -/
def closeInterval (s : State) (before : Nat) : Out :=
  let n := s.dev.refbeat / intervalBeats
  if before / intervalBeats = n then .next s
  else
    execAccountingIntervalEnd (Config.refreshes n * devCoef s .ref) (4 * intervalBeats * devCoef s .leak)
      (Config.idleBeats n * devCoef s .pidle) s

/-- An installed set takes effect on the partition in focus while no epoch is open (R363). -/
def takeCoefs (s : State) : State :=
  match s.part.nextCoefs, s.part.openEp with
  | some (n, l), none => { s with part.cset := n, part.coefs := l, part.nextCoefs := none }
  | _, _ => s

/-- COEFFICIENT_SET_EFFECT: an installed set takes effect on the partition in focus (R363). -/
def execCoefficientSetEffect (s : State) : Out := .next (takeCoefs s)

/-- The end of beat b of the partition in focus: its charges are in, so its quota is looked at, and a new coefficient set prices what
follows (R363, R365, R368). -/
def endPartBeat (s : State) (b : Nat) : State := takeCoefs (checkQuota s b)

end Sys2Proof.Machine
end

