-- ==== Sys2Proof/Machine/Scheduler.lean ====
section
/-! DEFINITION. Work queues, eligibility and selection by stride (16_scheduling R331-R333, R338-R342, R351). -/

namespace Sys2Proof.Machine

/-! ### Queue records (R331) -/

def qValid (s : State) (q : Nat) : Bool := fld (qword s q 3) 50 50 == 1
/-- Word 3 as selection takes it: tickets and urgent change at a decision (R331). -/
def qClass (s : State) (q : Nat) : Word64 :=
  match s.dev.classes.find? (fun p => p.1 == q) with
  | some p => p.2
  | none => qword s q 3
def qUrgent (s : State) (q : Nat) : Bool := fld (qClass s q) 51 51 == 1
def qTickets (s : State) (q : Nat) : Nat := fld (qClass s q) 63 52
def qPass (s : State) (q : Nat) : Nat := (qword s q 4).toNat
/-- The stride of a queue (R340). -/
def qStride (s : State) (q : Nat) : Nat := 2 ^ 20 / qTickets s q

/-- The queues with a record. -/
def queueIds (s : State) : List Nat := (s.dev.queues.filter (fun p => p.1 % 8 == 3)).map (fun p => p.1 / 8)

/-- The queue is eligible; an energy that is used up bars a dispatch at its own beat, before the partition is marked
(R332, R357, R367). -/
def eligible (s : State) (q : Nat) : Bool :=
  qValid s q && qprogress s q != qtail s q && qPart s q == s.part.idx && s.part.bound && s.part.reset.isNone
    && !s.part.ex && (noQuota s.part || decide (0 < energyLeft s.part)) && !s.part.waits.contains q

/-- The queue of the running launch. -/
def runningQueue (s : State) : Option Nat := if s.launch.live then some s.launch.queue else none

/-- A queue that becomes eligible takes at least the V of its class; an urgent one asks for a decision while a normal
launch runs (R338, R341). -/
def catchUpOne (old : State) (s : State) (q : Nat) : State :=
  if eligible s q && !eligible old q then
    let v := if qUrgent s q then s.part.vu else s.part.vn
    let s1 := setQword s q 4 (w64 (Nat.max (qPass s q) v))
    match runningQueue s1 with
    | some r => if qUrgent s1 q && !qUrgent s1 r then { s1 with part.decision := true } else s1
    | none => s1
  else s

/-- The queues that a change of the partition in focus has made eligible (R341). -/
def catchUp (old s : State) : State := (queueIds s).foldl (catchUpOne old) s

/-! ### Selection (R339, R340) -/

/-- The queue with the least pass, the lowest number among equals. -/
def leastPass (s : State) : List Nat → Option Nat
  | [] => none
  | q :: r =>
    match leastPass s r with
    | none => some q
    | some p => if qPass s p < qPass s q ∨ (qPass s p = qPass s q ∧ p < q) then some p else some q

/-- The candidates of a decision: the eligible queues and the running one (R339). -/
def candidates (s : State) : List Nat := (queueIds s).filter (fun q => eligible s q || runningQueue s == some q)

/-- choose() of R339. -/
def choose (s : State) : Option Nat :=
  let c := candidates s
  let u := c.filter (qUrgent s)
  leastPass s (if u.isEmpty then c else u)

/-- A queue begins a quantum (R340). -/
def beginQuantum (s : State) (q : Nat) : State :=
  let s1 : State := if qUrgent s q then { s with part.vu := qPass s q, part.quantum := 0 }
                    else { s with part.vn := qPass s q, part.quantum := 0 }
  setQword s1 q 4 (w64 (qPass s q + qStride s q))

/-- A context slot is free (R387). -/
def slotFree (s : State) : Bool := decide (s.part.saved.length < fld s.part.ctxn 7 0)

/-- A virtual core that a pre-emption met in an open step, now ended, goes back to its txopen, after its handler when it is in one; what
it had queued and in flight is discarded (R300, R386). The step's state stays as the outcome left it (R299). DESIGN CHOICE (log 22): its
table runs, which R386 does not name, go on. -/
def restartVC (v : VC) : VC :=
  if v.tx.preempted then
    let p := match v.tx.openAt with
      | some p => p
      | none => v.ctl.pc
    { v with
      ctl.pc := if v.ctl.h then v.ctl.pc else p, ctl.tepc := if v.ctl.h then w64 (fld p 55 2 * 4) else v.ctl.tepc,
      arrived := [],
      eng.ld := { v.eng.ld with entries := [] }, eng.mx := { v.eng.mx with entries := [] },
      eng.vx := { v.eng.vx with entries := [] }, eng.fx := { v.eng.fx with entries := [] },
      eng.rx := { v.eng.rx with entries := [] }, eng.st := { v.eng.st with entries := [] },
      eng.flights := [], atomics := [], colls := [] }
  else v

/-- On resumption of a step that a pre-emption met, state ended is taken as idle (R300). -/
def VC.stepOver (v : VC) : VC :=
  if v.tx.preempted then { v with tx.state := 0, tx.preempted := false, tx.openAt := none } else v

/-- A virtual core of a launch that resumes: a parked one goes on, in a Lockstep launch through the alignment barrier, which those that
a forced save froze (`kept`) pass too (R352, R385). -/
def unpark (mode : Mode) (kept : Bool) (v : VC) : VC :=
  let on : Bool := decide (v.run = .parked) || (kept && decide (v.run = .running))
  let w := (restartVC v).stepOver
  if on then
    { w with run := (match mode with
        | .lockstep => .aligning
        | .elastic => .running) }
  else w

/-- Every virtual core that runs is parked, what its CTL stored has been matched, and no step is open on them (R300, R352, R390). -/
def allParked (s : State) : Bool :=
  s.launch.live && s.vcs.any (fun v => decide (v.run = .parked))
    && s.vcs.all (fun v => decide (v.run = .parked) || decide (v.run = .halted))
    && s.vcs.all (fun v => v.tx.state != 1 && v.tx.state != 2 && (v.fifo.isEmpty || v.settled))

/-- The launch on the cores resumes, from a context slot or in place: a Lockstep launch that a forced save froze stays frozen until its
alignment barrier, an Elastic one goes on at once (R352, R385, R387). -/
def resumeLaunch (s : State) : State :=
  let kept := decide (s.launch.mode = .lockstep) && s.launch.frozen.isSome
  let s1 := allVC s (unpark s.launch.mode kept)
  { s1 with launch.kept := kept, launch.inPlace := false,
            launch.frozen := if kept then s1.launch.frozen else none }

/-- Tickets and classes that were written since the last decision of the partition take effect (R331). -/
def takeClasses (s : State) : State :=
  { s with dev.classes := s.dev.classes.filter (fun p => decide (qPart s p.1 ≠ s.part.idx)) }

/-- The running queue begins the next quantum; a launch that waited in place goes on (R339, R340, R387). -/
def runOn (s : State) (r : Nat) : State :=
  let s1 := beginQuantum s r
  if s1.launch.inPlace then resumeLaunch s1 else s1

/-- A save of the running launch is pending: it has been asked for, or its safe point is honoured and it has not parked (R338, R352). -/
def savePending (s : State) : Bool := s.launch.req.isSome || (s.launch.resume.isSome && !s.launch.inPlace)

/-- A decision (R339). While a save is pending only the choice is made anew (R338). -/
def decision (s : State) : State :=
  let s0 := takeClasses { s with part.decision := false }
  if s.part.ex then s0
  else
    match choose s0, runningQueue s0 with
    | none, _ => s0
    | some q, none => { s0 with part.chosen := some q }
    | some q, some r =>
      if savePending s0 then { s0 with part.chosen := some q }
      else if q = r ∨ slotFree s0 = false then runOn s0 r
      else { request s0 with part.chosen := some q }

/-- SCHEDULER_DECISION: the scheduler of the partition in focus decides (R338, R339). -/
def execSchedulerDecision (s : State) : Out := .next (decision s)

/-- QUANTUM_END: 2^18 beats of the quantum are over; a decision follows (R338). The beats spent waiting for a save that has been
requested belong to the quantum (R340). -/
def execQuantumEnd (s : State) : Out :=
  if decide (2 ^ 18 ≤ s.part.quantum) && !savePending s && s.part.chosen.isNone then .next (decision s)
  else .next s

/-! ### The control link's answers (R406) -/

/-- The statuses of a response (R406). -/
inductive Status where
  | done | refused | noRegister | notPermitted
  deriving DecidableEq, Repr, Inhabited

def Status.code : Status → Nat
  | .done => 0 | .refused => 1 | .noRegister => 2 | .notPermitted => 3

/-- Answer a request. -/
def reply (s : State) (st : Status) (d : List Word64 := []) : State :=
  { s with dev.replies := s.dev.replies ++ [(st.code, d)] }

/-- The management function is number 0, VF q number q + 1 (R406). -/
def isVF (fn : BitVec 5) (q : Nat) : Bool := fn.toNat == q + 1
def isMgmt (fn : BitVec 5) : Bool := fn.toNat == 0

/-- Act on partition q, bringing the focus back, and answer. -/
def inPartReply (s : State) (q : Nat) (f : State → State × Status) : State :=
  match focusPart s q with
  | none => reply s .notPermitted
  | some s1 =>
    let (s2, st) := f s1
    match focusPart s2 s.part.idx with
    | some s3 => reply s3 st
    | none => reply s2 st

/-- A tail value is accepted (R332). -/
def tailOk (s : State) (q v : Nat) : Bool :=
  decide ((v + 2 ^ 32 - qprogress s q) % 2 ^ 32 ≤ qslots s q) && decide ((v + 2 ^ 32 - qtail s q) % 2 ^ 32 < 2 ^ 31)

/-- QUEUE_TAIL_WRITE: a write of a queue's tail register by the VF of its partition (R332, R341, R408). -/
def execQueueTailWrite (fn : BitVec 5) (q : BitVec 15) (v : BitVec 32) (s : State) : Out :=
  let n := q.toNat
  if isVF fn (qPart s n) = false then .next (reply s .notPermitted)
  else
    .next (inPartReply s (qPart s n) (fun t =>
      if tailOk t n v.toNat then (catchUp t (setQword t n 2 (w64 (qprogress t n * 2 ^ 32 + v.toNat))), .done)
      else (t, .refused)))

/-- PREEMPTION_REQUEST: the launch's request flag is set (R351). -/
def execPreemptionRequest (s : State) : Out := .next (request s)

end Sys2Proof.Machine
end

