-- ==== Sys2Proof/Machine/Safe.lean ====
section
/-! DEFINITION. Safe points, yield and pchk, and the saves of a launch: major 0x2C (16_scheduling R351-R353; 18_traps
R382-R387). -/

namespace Sys2Proof.Machine

/-! ### The live mask (R383, R384) -/

/-- The reserved fields and the tile range of a live-mask record (R383). -/
def maskSound (s : State) (d : List Word64) : Bool :=
  fld (descW d 1) 63 32 == 0 && fld (descW d 2) 63 32 == 0 && (countUp 3 5).all (fun i => descW d i == 0)
    && (decide (fld (descW d 2) 31 16 < fld (descW d 2) 15 0) || decide (fld (descW d 2) 31 16 < s.tiles))

/-- Offset o of the window survives a safe point: the first fsp bytes of the scratchpad, and the live tiles with their
blocks (R384). -/
def chipLive (s : State) (d : List Word64) (o : Nat) : Bool :=
  let live (t : Nat) : Bool := decide (fld (descW d 2) 15 0 ≤ t) && decide (t ≤ fld (descW d 2) 31 16)
  if o < tileOff then decide (o < s.launch.fsp)
  else if o < tpbOff then live ((o - tileOff) / 1024)
  else live ((o - tpbOff) / 64)

/-- Dead registers, dead tiles and the scratchpad above fsp read zero (R384). -/
def keepLive (s : State) (d : List Word64) (v : VC) : VC :=
  { v with
    ctl.x := v.ctl.x.filter (fun p => bit (descW d 0).toNat p.1),
    ctl.y := v.ctl.y.filter (fun p => bit (descW d 1).toNat p.1),
    z := v.z.filter (fun p => bit (descW d 1).toNat (16 + p.1 / 8)),
    chip := v.chip.filter (fun p => chipLive s d p.1) }

/-- A pre-emption meets the virtual core: an open step is vetoed with flag 7, and restarts at its txopen (R300, R386). -/
def VC.preempt (v : VC) : VC := if v.tx.state = 1 then { v.voteFlag 7 with tx.preempted := true } else v

/-- The virtual core parks at a safe point; a step open there is vetoed with flag 7 (R300, R352, R384). -/
def park (s : State) (d : List Word64) : State :=
  let s1 := retire (charge s .sys)
  let v := keepLive s d s1.vc
  { s1 with vc := { v.preempt with run := .parked } }

/-! ### safept (R352) -/

/-- The level whose domain is the whole launch (R352). -/
def wholeLevel (l : Launch) : Level := if l.hcount ≠ 0 then .job else if l.hsize ≠ 0 then .herd else .device

/-- The B of the sstep that a safept directly follows, with nothing routed between (R352). -/
def safeB (s : State) : Option Nat :=
  match s.vc.ctl.lastSstep with
  | none => none
  | some a =>
    if a.level = wholeLevel s.launch ∧ a.whole = true ∧ a.instret = s.vc.ctl.instret ∧ a.seq = s.vc.eng.nextSeq then some a.b
    else none

/-- The flag was set before B, and no virtual core has passed this safe point unhonoured; or the launch honours it
already (R352, R382). -/
def lockHonoured (s : State) (b : Nat) : Bool :=
  s.launch.resume == some b
    || (match s.launch.req with
        | some q => decide (q < b) && decide (s.launch.passed < b)
        | none => false)

/-- An honoured safept: its record, precisely; then the wait for its virtual core's arrival, the save and the park
(R352, R383, R384). -/
def safeGo (s : State) (a : Word64) (done : State → State) : Out :=
  if fld a 63 56 ≠ 0 then ctlFault s 4 0 a
  else if a.toNat % 64 ≠ 0 then ctlFault s 3 0 a
  else
    memThen s (firstFault s a 8 8) (ctlLoadWords s a 8) (fun s1 d =>
      if maskSound s1 d = false then ctlFault s1 8 0 0
      else if arrivedNow s then .next (done (park s1 d))
      else .next s1)

/-- safept: a safe point with the live mask at xa (R352). -/
def execSafept (ra : BitVec 6) (s : State) : Out :=
  restricted s <|
    match s.launch.mode with
    | .elastic => if reqSet s then safeGo s (xr s ra) id else sysNext s
    | .lockstep =>
      match safeB s with
      | none => sysNext s
      | some b =>
        if lockHonoured s b then
          safeGo s (xr s ra) (fun t => { t with launch.resume := some b, launch.req := none })
        else sysNext { s with launch.passed := Nat.max s.launch.passed b }

/-- yield: ask for a pre-emption when another queue would be chosen (R353). -/
def execYield (s : State) : Out :=
  restricted s <|
    match choose s with
    | none => sysNext s
    | some q =>
      if runningQueue s = some q ∨ s.launch.req.isSome = true then sysNext s
      else sysNext { request s with part.chosen := some q }

/-- pchk: xd := 1 while the launch's request flag is set (R351). -/
def execPchk (rd : BitVec 6) (s : State) : Out :=
  restricted s <| .next (retire (setX (charge s .sys) rd (w64 (b2n (reqSet s)))))

/-! ### Saves (R384-R388) -/

/-- A virtual core leaves its core: dirty lines go home, its caches and translations are dropped. -/
def leaveCore (s : State) : State :=
  let s1 := flushFifo s
  { s1 with vc.dcache := [], vc.fifo := [], vc.icache := [], vc.tlb := [] }

/-- The credit as it will be at beat b of a virtual core that issues nothing until then (R230, R352). -/
def VC.creditAt (v : VC) (b : Nat) : Nat :=
  if v.now < b then Nat.min 32768 (v.eng.credit + 16 * (b - v.now)) else v.creditB

/-- A step is open on the partition, some of the launch's virtual cores have voted in it, and none of the others will: they have not opened
it (R298). -/
def voteStuck (s : State) : Bool :=
  s.part.openEp.isSome && s.vcs.any (fun v => v.tx.state == 2) && s.vcs.all (fun v => v.tx.state != 1)
    && s.vcs.any (fun v => v.tx.state != 2)

/-- A pre-emption meets a step in which virtual cores wait for the outcome while others have not opened it: the device's vote takes flag 7,
and the step aborts (R298, R300, R386). -/
def preemptStep (s : State) : State := if voteStuck s then { s with part.devVote := s.part.devVote ||| 128 } else s

/-- What a virtual core's image holds (R384-R388): of a parked one, flags still to enter are in its flag word; the credit of the B that
it returns to. A rel.launch that a save meets starts again from its first step (R269). -/
def imageOf (resume : Option Nat) (v : VC) : VC :=
  let w := if v.run = .parked then
      v.ctl.flagsIn.foldl (fun u p => u.enterFlags p.2) { v with ctl.flagsIn := [] }
    else v
  restartVC { w with ctl.fenceSeq := none, creditB := (match resume with
    | some b => w.creditAt b
    | none => w.creditB),
                     ctl.matched := none, past := [], atomics := w.atomics.map (fun a => { a with after := 0 }) }

/-- The launch leaves the partition's cores into a context slot (R384, R385). -/
def switchOut (s : State) (forced : Bool) : State :=
  let s1 := enterCharges (s.vcs.foldl (fun t v => inVC t v.id leaveCore) s)
  let l := { s1.launch with req := none, inPlace := false }
  { s1 with
    part.saved := s1.part.saved ++ [{ queue := l.queue, x := s1.part.x, launch := l, vcs := s1.vcs.map (imageOf l.resume),
                                      forced := forced }],
    part.waits := s1.part.waits.filter (fun q => q != l.queue),
    launch := .init, vc := s1.vc.clear, peers := s1.peers.map VC.clear }

/-- With no free slot the launch waits in place, and the scheduler decides when it goes on (R387); the credit is noted as it will be at the
B of its safe point (R352). -/
def stayInPlace (s : State) : State :=
  let s1 := match s.launch.resume with
    | some b => allVC s (fun v => { v with creditB := v.creditAt b })
    | none => s
  { s1 with launch.req := none, launch.inPlace := true, part.chosen := none, part.decision := true }

/-- A launch whose virtual cores have all parked is saved, once its step's outcome is known; one that waited in place, when a slot is
free and another queue has been chosen (R300, R352, R382, R387). -/
def saveIfParked (s : State) : State :=
  if s.launch.inPlace then
    (if s.launch.req.isSome && slotFree s then switchOut s s.launch.frozen.isSome else s)
  else if !(s.launch.req.isSome || s.launch.resume.isSome) then s
  else if allParked s then (if slotFree s then switchOut s false else stayInPlace s)
  else if s.vcs.all (fun v => decide (v.run = .parked) || decide (v.run = .halted) || v.tx.state == 2) then preemptStep s
  else s

/-- The beat of the forced save has passed (R382); a stopped launch's countdown is frozen, and goes on where it stood (R404). -/
def deadlinePassed (s : State) : Bool :=
  s.launch.live && s.part.dstops.isEmpty && !s.launch.inPlace
    && (match s.launch.req with
        | some q => decide (q + s.part.dlallow + s.launch.pause < s.vc.now)
        | none => false)

/-- FORCED_SAVE: at the end of beat Z the launch is frozen; a step open there is vetoed with flag 7, and the launch is
saved once its outcome is in and what its CTLs stored has been matched (R385, R386, R390). -/
def execForcedSave (s : State) : Out :=
  if deadlinePassed s = false then .next s
  else
    let s1 : State := match s.launch.frozen with
      | none => { s with launch.frozen := some (s.vc.now - 1) }
      | some _ => s
    if s1.vcs.any (fun v => v.tx.state == 1 || v.tx.state == 2) then .next (preemptStep (allVC s1 VC.preempt))
    else if s1.vcs.any (fun v => !v.fifo.isEmpty && !v.settled) then .next s1
    else .next (if slotFree s1 then switchOut s1 true else stayInPlace s1)

/-- An acq, a rel or a CTL qfence that a freeze or a stop met starts again from its first step (R269, R378). -/
def VC.fenceAnew (v : VC) : VC := { v with ctl.fenceSeq := none }

/-- A frozen launch goes on at its next beat, all its virtual cores at one, once the last handler has returned and no stop
or forced save holds it (R381, R385, R387, R404). -/
def thaw (s : State) : State :=
  if s.launch.frozen.isSome && allReturned s && s.part.dstops.isEmpty && !deadlinePassed s && !s.launch.inPlace && !s.launch.kept then
    { allVC s VC.fenceAnew with launch.frozen := none }
  else s

end Sys2Proof.Machine
end

