-- ==== Sys2Proof/Machine/Dispatcher.lean ====
section
/-! DEFINITION. Launch records, the init directory, the binding table, dispatch, launch packets and completion
(13_ordering R258-R260; 16_scheduling R334-R337, R344, R347). -/

namespace Sys2Proof.Machine

/-! ### The launch record (R334, R335) -/

/-- The reserved fields, the alignment and the ranges of word i of a launch record. -/
def slotWordOk (d : List Word64) (i : Nat) : Bool :=
  let w := descW d i
  match i with
  | 0 => fld w 63 56 == 0 && fld w 1 0 == 0
  | 1 => fld w 63 56 == 0
  | 2 => fld w 63 56 == 0
  | 3 => fld w 63 54 == 0
  | 4 => fld w 47 39 == 0 && fld w 10 1 == 0 && decide (fld w 38 30 ≤ 455) && decide (fld w 29 21 ≤ fld w 38 30)
      && decide (fld w 20 11 ≤ 575)
  | 5 => true
  | _ => w == 0

/-- The footprint fits the share (R20, R335). -/
def footprintOk (s : State) (d : List Word64) : Bool :=
  decide (fld (descW d 3) 22 0 ≤ s.share) && decide (fld (descW d 3) 31 23 ≤ s.tiles)
    && decide (fld (descW d 3) 44 32 ≤ s.storeWords) && decide (fld (descW d 3) 53 45 ≤ s.evCap)

/-! ### The scheduler's reads (R335) -/

/-- What a read of the scheduler's has charged goes to the device: no context caused it (R361). -/
def asDevice (s t : State) : State :=
  let n := s.part.charges.length
  { t with part.charges := t.part.charges.take n ++ (t.part.charges.drop n).map (fun c => { c with owner := none, vc := none }) }

/-- Bytes of one line at a virtual address, or the cause of the fault that their read meets. -/
def schedLine (s : State) (va n : Nat) : State × Except Nat (List Byte) :=
  if 2 ^ 56 ≤ va then (s, .error 4)
  else if inMap va then (s, .error 5)
  else
    match translate s va .read with
    | .ok s1 (pa, e) =>
      if poisoned s1 pa then (s1, .error 0x28)
      else
        let (s2, d) := if e.vb then vRead s1 e.frame (pa - e.frame) n else homeRead s1 pa n
        (s2, .ok d)
    | .fault s1 c _ => (s1, .error c)
    | .wait s1 => (s1, .error 5)

/-- n bytes from va on, a line after another; the last argument bounds the lines. -/
def schedLines (s : State) (va n : Nat) : Nat → State × Except Nat (List Byte)
  | 0 => (s, .ok [])
  | fuel + 1 =>
    if n = 0 then (s, .ok [])
    else
      let k := Nat.min n (128 - va % 128)
      match schedLine s va k with
      | (s1, .error c) => (s1, .error c)
      | (s1, .ok d) =>
        match schedLines s1 (va + k) (n - k) fuel with
        | (s2, .error c) => (s2, .error c)
        | (s2, .ok r) => (s2, .ok (d ++ r))

/-- The scheduler reads n bytes through the page tables and the home slices (R256, R335). -/
def schedRead (s : State) (va n : Nat) : State × Except Nat (List Byte) :=
  let (t, r) := schedLines s va n (n / 128 + 2)
  (asDevice s t, r)

/-- The little-endian words of w bytes of a list. -/
def wordsOf (w : Nat) (d : List Byte) : List Nat := (countUp 0 (d.length / w)).map (fun i => leNat (cut d (w * i) w))

/-! ### The init directory (R337) -/

/-- An entry of the init directory with its images' bytes. -/
structure InitE where
  kind  : Nat
  first : Nat
  count : Nat
  data  : List Byte
  deriving DecidableEq, Repr, Inhabited

/-- Bytes of an image of each kind. -/
def imageBytes (kind : Nat) : Nat :=
  match kind with
  | 1 => 56
  | 2 => 16
  | 3 => 64
  | _ => 32

/-- The values that zset and a ring write would accept (R337). -/
def imageOk (kind : Nat) (d : List Byte) : Bool :=
  let ws := wordsOf 8 d
  match kind with
  | 1 => (ws.zip (countUp 0 ws.length)).all (fun p => zsetOk (p.2 % 7) (w64 p.1))
  | 2 => (ws.zip (countUp 0 ws.length)).all (fun p => p.2 % 2 == 1 || ringOk (w64 p.1))
  | _ => true

/-- The images of an entry that are read: of binding records one beyond the 256 at most, which fails R260. -/
def takenCount (kind count bound : Nat) : Nat := if kind = 4 then Nat.min count (257 - bound) else count

/-- Entry i of the directory, after `bound` binding records: none at its end; an error carries the cause field (R335, R337). -/
def initEntry (s : State) (base i bound : Nat) : State × Except Nat (Option InitE) :=
  match schedRead s (base + 16 * i) 16 with
  | (s1, .error c) => (s1, .error c)
  | (s1, .ok b) =>
    let w0 := w64 (leNat (b.take 8))
    let w1 := w64 (leNat (b.drop 8))
    let kind := fld w0 63 60
    let first := fld w1 39 32
    let count := fld w1 31 0
    if kind = 0 then (s1, .ok none)
    else if fld w0 59 56 ≠ 0 ∨ fld w1 63 40 ≠ 0 ∨ 4 < kind ∨ (if kind = 4 then first ≠ 0 else 16 < first + count) then (s1, .error 0)
    else
      let n := takenCount kind count bound
      match schedRead s1 (fld w0 55 0) (imageBytes kind * n) with
      | (s2, .error c) => (s2, .error c)
      | (s2, .ok d) => (s2, if imageOk kind d then .ok (some ⟨kind, first, n, d⟩) else .error 0)

/-- The directory from entry i on: its entries, or the entry that fails and the cause (R335). -/
def initEntries (s : State) (base : Nat) (i bound : Nat) : Nat → State × Except (Nat × Nat) (List InitE)
  | 0 => (s, .ok [])
  | n + 1 =>
    match initEntry s base i bound with
    | (s1, .error c) => (s1, .error (i, c))
    | (s1, .ok none) => (s1, .ok [])
    | (s1, .ok (some e)) =>
      match initEntries s1 base (i + 1) (if e.kind = 4 then bound + e.count else bound) n with
      | (s2, .error x) => (s2, .error x)
      | (s2, .ok r) => (s2, .ok (e :: r))

/-! ### The binding table (R259, R260) -/

/-- The words of the binding records. -/
def bindWords (es : List InitE) : List (List Nat) :=
  (es.filter (fun e => e.kind == 4)).flatMap (fun e => (countUp 0 e.count).map (fun i => wordsOf 8 (cut e.data (32 * i) 32)))

/-- The binding of a record. -/
def bindOf (w : List Nat) : Bind := ⟨listAt 0 w 0, listAt 0 w 1, listAt 0 w 2⟩

/-- Record w, after the records before it, obeys R260. -/
def bindOk (all before : List Bind) (w : List Nat) : Bool :=
  let b := bindOf w
  decide (b.rbase < 2 ^ 56) && decide (b.rsize < 2 ^ 56) && decide (b.sync < 2 ^ 56) && listAt 0 w 3 == 0
    && b.rbase % 128 == 0 && b.rsize % 128 == 0 && decide (128 ≤ b.rsize) && b.sync % 8 == 0
    && decide (b.rbase + b.rsize ≤ 2 ^ 56)
    && (decide (mapEnd ≤ b.rbase) || decide (b.rbase + b.rsize ≤ mapBase))
    && before.all (fun x => decide (x.rbase + x.rsize ≤ b.rbase) || decide (b.rbase + b.rsize ≤ x.rbase))
    && all.all (fun x => decide (b.sync + 8 ≤ x.rbase) || decide (x.rbase + x.rsize ≤ b.sync))

/-- The first record that fails: one beyond the 256 of the table does (R260). -/
def badBind (ws : List (List Nat)) : Option Nat :=
  let all := ws.map bindOf
  (countUp 0 ws.length).find? (fun i => decide (256 ≤ i) || !bindOk all (all.take i) (listAt [] ws i))

/-! ### Starting a launch (R337, R347) -/

/-- An image into a virtual core's registers. -/
def loadInit (v : VC) (e : InitE) : VC :=
  match e.kind with
  | 1 =>
    (countUp 0 (7 * e.count)).foldl
      (fun u j => { u with z := mput 0 u.z (8 * (e.first + j / 7) + j % 7) (w64 (leNat (cut e.data (8 * j) 8))) }) v
  | 2 =>
    (countUp 0 e.count).foldl
      (fun u j => { u with g := mput ringZero u.g (e.first + j) ⟨w64 (leNat (cut e.data (16 * j) 8)), 0, 0, 0⟩ }) v
  | 3 =>
    (countUp 0 (16 * e.count)).foldl
      (fun u j => { u with b := mput 0 u.b (16 * e.first + j) (BitVec.ofNat 32 (leNat (cut e.data (4 * j) 4))) }) v
  | _ => v

/-- What every virtual core holds at a launch's start: entry, x3 and x4, TOKMAP, TX_LOSS_LIMIT, DOM, the full credit
(R92, R112, R230, R293, R337, R346). -/
def launchVC (mode : Mode) (entry args hidx id : Nat) : VC :=
  let v := VC.init id
  { v with
    run := (match mode with
      | .lockstep => .aligning
      | .elastic => .running),
    ctl.pc := w64 entry, ctl.x := mput 0 (mput 0 [] 3 (w64 args)) 4 (w64 hidx), ctl.tokmap := 0x6194,
    ctl.lossLimit := 0x7F800000, ctl.dom := 0x1F, memb := 31, eng.credit := 32768 }

/-- A buffer, or a closed key, that nothing of the launch that starts is meant by: messages of classes 0 and 1 that came while none ran,
and the reports of an earlier launch's requests (R309, log 72). -/
def staleKey (k : List Nat) : Bool := listAt 0 k 0 == 2 && decide (2 ^ 16 ≤ listAt 0 k 2)

/-- Start the launch of slot c of queue q (R337). Until the job is aligned, the queue of a launch on several devices is not eligible for
further slots (R344). -/
def startLaunch (s : State) (q c : Nat) (d : List Word64) (es : List InitE) : State :=
  let w3 := descW d 3
  let w4 := descW d 4
  let mode : Mode := if fld w4 0 0 = 1 then .elastic else .lockstep
  let l : Launch :=
    { Launch.init with
      live := true, mode := mode, queue := q, slot := c, args := w64 (fld (descW d 1) 55 0), hsize := fld w4 20 11,
      hcount := fld w4 38 30, hidx := fld w4 29 21, startgen := fld w4 63 48, fsp := fld w3 22 0, ftile := fld w3 31 23,
      fcs := fld w3 44 32, fev := fld w3 53 45, reserve := (descW d 5).toNat, binds := (bindWords es).map bindOf }
  let start (v : VC) : VC :=
    (es.foldl loadInit (launchVC mode (fld (descW d 0) 55 0) (fld (descW d 1) 55 0) (fld w4 29 21) v.id)).onCoreOf v
  allVC { s with
    launch := l, part.x := fld w4 63 48, part.late := [], part.asked := false,
    part.darns := s.part.darns.filter (fun b => !(decide (b.hd.tc < 2) && b.owner.isNone)),
    part.closed := s.part.closed.filter (fun k => !staleKey k),
    part.waits := if l.multi && decide (mode = .lockstep) then q :: s.part.waits else s.part.waits } start

/-- A class-4 message of queue q to a device, charged to a launch's virtual core 0 or, with none, to the device (R361). DESIGN CHOICE (log
27): the header's chunk field names the queue. -/
def sendLaunchMsg (owner : Option LaunchTag) (s : State) (q dst : Nat) (d : List Byte) : State :=
  let s1 := sendFor s owner (owner.map (fun _ => 0))
    { dst := dst, src := s.dev.num, dvc := 0, tc := 4, k := 1, msg := s.dev.msgNo, m := 8, rot := (s.dev.num + s.dev.msgNo) % 36,
      field := 3, len := d.length, grp := partGrp s, cseq := 0, e := 0, ov := false, chunk := q, dl := 0, ncon := 1 } d
  { s1 with dev.msgNo := (s1.dev.msgNo + 1) % 2 ^ 32 }

/-- The lead sends the record to the other devices of the herd launch; a device that received it does not (R344). -/
def sendPackets (s : State) (q c : Nat) (d : List Word64) : State :=
  if s.launch.hsize = 0 ∨ s.part.copies.contains (q, c) then s
  else
    (countUp 1 s.launch.hsize).foldl (fun t i => sendLaunchMsg (launchTag t) t q (t.dev.num + i) (d.flatMap (fun w => leBytes w.toNat 8))) s

/-- Scheduler firmware runs and a coefficient set is installed (R409). -/
def mayDispatch (s : State) : Bool := mget false s.dev.ready (64 + 46) && mget false s.dev.ready (64 + 47)

/-- The slot's record read from partition memory, through the home slice (R256, R335). -/
def slotWords (s : State) (pa : Nat) : State × List Word64 :=
  let (s1, d) := deviceRead s pa 64
  (s1, (wordsOf 8 d).map w64)

/-- Read slot c of queue q, check it, and start its virtual cores (R335). DESIGN CHOICE (log 92): a slot that an uncorrectable error hides
is one that cannot be read: it completes with status 2 and the cause of R394. -/
def dispatchSlot (s : State) (q : Nat) : Out :=
  let c := qprogress s q
  let pa := fld (qword s q 0) 55 0 + 64 * (c % qslots s q)
  if s.cp < pa + 64 then .fault .noSuchAddress
  else if poisoned s pa then completeSlot { s with part.chosen := none } q c 2 0x28 0
  else
    let (s1, d) := slotWords { s with part.chosen := none } pa
    match (countUp 0 8).find? (fun i => !slotWordOk d i) with
    | some i => completeSlot s1 q c 2 0 i
    | none =>
      if footprintOk s1 d = false then completeSlot s1 q c 1 0 0xFFFF
      else
        match (if fld (descW d 2) 55 0 = 0 then (s1, .ok []) else initEntries s1 (fld (descW d 2) 55 0) 0 0 64) with
        | (s2, .error (i, cause)) => completeSlot s2 q c 2 cause (0x100 + i)
        | (s2, .ok es) =>
          match badBind (bindWords es) with
          | some i => completeSlot s2 q c 1 0 i
          | none => .next (sendPackets (beginQuantum (startLaunch s2 q c d es) q) q c d)

/-- A saved launch comes back to the cores, with its X (R289, R339, R352, R385). -/
def resumeSaved (s : State) (x : Saved) : State :=
  let s1 : State := { s with
    part.saved := s.part.saved.filter (fun y => y.queue != x.queue), part.chosen := none, part.x := x.x, launch := x.launch }
  let home (v : VC) : VC := match getVC s v.id with
    | some old => v.onCoreOf old
    | none => v
  match x.vcs with
  | [] => s1
  | v :: r => beginQuantum (resumeLaunch { s1 with vc := home v, peers := r.map home }) x.queue

/-- LAUNCH_DISPATCH: the chosen queue q of an idle partition resumes its saved launch, or has its next slot read, checked
and started (R335, R339). -/
def execLaunchDispatch (q : BitVec 15) (s : State) : Out :=
  let n := q.toNat
  if s.launch.live || !mayDispatch s then .next s
  else if eligible s n = false then .next { s with part.chosen := none }
  else
    match s.part.saved.find? (fun x => x.queue == n) with
    | some x => .next (resumeSaved s x)
    | none => dispatchSlot s n

/-- The queue of the same number takes a herd launch record: its partition is bound and the tail may advance (R344). -/
def packetOk (s : State) (q : Nat) : Bool :=
  s.part.bound && tailOk s q ((qtail s q + 1) % 2 ^ 32) && decide (fld (qword s q 0) 55 0 + 64 * (qtail s q % qslots s q) + 64 ≤ s.cp)

/-- A herd launch record is appended to queue q of the partition in focus (R344). -/
def appendPacket (s : State) (q : Nat) (d : List Byte) : State :=
  let o := qtail s q
  let s1 := deviceWrite s (fld (qword s q 0) 55 0 + 64 * (o % qslots s q)) d
  let s2 : State := { s1 with part.copies := s1.part.copies ++ [(q, o)] }
  catchUp s (setQword s2 q 2 (w64 (qprogress s q * 2 ^ 32 + (o + 1) % 2 ^ 32)))

/-- LAUNCH_PACKET_RECEIVE: a herd launch record is appended to the queue of the same number, or refused (R344). -/
def execLaunchPacketReceive (q : BitVec 15) (words : List (BitVec 64)) (s : State) : Out :=
  let n := q.toNat
  .next (inPart s (qPart s n) (fun t =>
    if packetOk t n then appendPacket t n ((words.take 8).flatMap (fun w => leBytes w.toNat 8)) else t))

/-- The lead's launch of queue q, running or saved, was refused by another device: it ends with status 2, detail 4 (R344). -/
def packetRefused (s : State) (q : Nat) : Out :=
  if s.launch.live && decide (s.launch.queue = q) && decide (s.launch.hsize ≠ 0) && isLead s then endLaunch s 2 0 4
  else
    match s.part.saved.find? (fun x => x.queue == q && x.launch.hsize != 0 && !s.part.copies.contains (q, x.launch.slot)) with
    | some x => completeSlot (keepDrains { s with
        part.saved := s.part.saved.filter (fun y => y.tag != x.tag),
        part.windows := s.part.windows.filter (fun w => decide (w.owner ≠ some x.tag)),
        part.darns := s.part.darns.filter (fun b => !(launchClass (listAt 0 b.key 0) && decide (b.owner = some x.tag))) }
          (fun d => decide (d.owner ≠ some x.tag))) q x.launch.slot 2 0 4
    | none => .next s

/-- A class-4 message held by the partition in focus is acted on: a launch record, or the refusal of one. DESIGN CHOICE (log 27): a
device that refuses answers with a message of one byte. -/
def launchMsg (s : State) (m : List Nat × List Byte) : Out :=
  let q := listAt 0 m.1 4
  if m.2.length = 1 then packetRefused s q
  else if packetOk s q then .next (appendPacket s q m.2)
  else .next (sendLaunchMsg none s q (listAt 0 m.1 2) [0])

/-- A message of class 4, by its key. -/
def isLaunchMsg (m : List Nat × List Byte) : Bool := listAt 0 m.1 0 == 4

/-- The oldest class-4 message that the partition in focus holds is acted on (R344). -/
def packetsIn (s : State) : Out :=
  match s.part.msgsIn.find? isLaunchMsg with
  | none => .next s
  | some m => launchMsg { s with part.msgsIn := s.part.msgsIn.erase m } m

/-! ### Completion (R135, R336) -/

/-- The operation is a copy, a send, or posts an event record (R135). -/
def Flight.owed (f : Flight) : Bool :=
  f.copy.isSome || (match f.work with
    | .image _ => true
    | .send _ _ _ _ => true
    | .event _ _ => true
    | _ => false)

/-- A virtual core is finished: CTL has halted, its six queues are empty, and all its copies, sends and event records have completed
(R135). A fault that it has to report comes first (R374). -/
def VC.finished (s : State) (v : VC) : Bool :=
  decide (v.run = .halted) && allQueues.all (fun q => (v.eng.q q).entries.isEmpty) && !v.eng.flights.any Flight.owed
    && v.eng.evIn.isEmpty && v.eng.heldEv.isEmpty && v.faults.isEmpty
    && !s.launch.msgs.any (fun m => m.src == v.id) && !s.launch.maps.any (fun a => a.src == v.id && a.seqS.isSome)

/-- The no-return atomics of the virtual core in focus are performed: they have retired (R275). -/
def settleAtomics (s : State) : State :=
  (countUp 0 s.vc.atomics.length).foldl (fun t _ => match execAtomicHomePortPerform (firstAtomic t) t with
    | .next u => u
    | _ => t) s

/-- What the virtual cores of saved launches retired goes on being performed, a no-return atomic of each a beat; its flags enter the saved
flag word, and a fault is kept for the resumption (R380, R388). -/
def savedAtomics (s : State) : State :=
  s.part.saved.foldl (fun t x => inSaved t x.tag (fun u =>
    u.vcs.foldl (fun w v => inVC w v.id (fun y => match execAtomicHomePortPerform (firstAtomic y) y with
      | .next z => z
      | _ => y)) u)) s

/-- LAUNCH_COMPLETION: the launch is finished when every virtual core is, and what they retired has been matched and performed; its
completion record is written and progress advances (R336, R390). -/
def execLaunchCompletion (s : State) : Out :=
  if s.launch.live && s.vcs.all (fun v => v.finished s && (v.fifo.isEmpty || v.settled)) then
    let s0 := s.vcs.foldl (fun t v => inVC t v.id settleAtomics) s
    if s0.vcs.any (fun v => !v.atomics.isEmpty) then .next s0
    else
      let s1 := s0.vcs.foldl (fun t v => inVC t v.id leaveCore) s0
      endLaunch { s1 with part.copies := s1.part.copies.filter (fun c => c != (s.launch.queue, s.launch.slot)) } 0 0 0
  else .next s

end Sys2Proof.Machine
end

