-- ==== Sys2Proof/Machine/Link.lean ====
section
/-! DEFINITION. The control link: registers, memory, TLBINV, layouts, binding and resets, and the stretch of a die's clock
(04_time_tokens R109, R110; 11_copy_hbm R241; 12_address R247-R252; 15_fabric R312, R315, R316; 16_scheduling R331;
17_partitions_energy R354-R358, R365; 18_traps R382, R387; 19_assurance R393, R397, R402, R403; 20_host_bringup
R406-R409). -/

namespace Sys2Proof.Machine

/-! ### Acceptance (R241, R356) -/

/-- No launch is bound to the partition: it is idle, or bound without a running or saved launch (R241, R356). -/
def partQuiet (s : State) : Bool := s.part.reset.isNone && (!s.part.bound || (!s.launch.live && s.part.saved.isEmpty))

/-- Act on the partition of the VF that asks (R406, R408). -/
def vfReply (s : State) (fn : BitVec 5) (f : State → State × Status) : State :=
  if isMgmt fn then reply s .notPermitted else inPartReply s (fn.toNat - 1) f

/-- Take a register's value, or refuse it. -/
def accept (s : State) (ok : Bool) (t : State) : State × Status := if ok then (t, .done) else (s, .refused)

/-! ### HMASK and TLBINV (R241, R252) -/

/-- A value of HMASK i (R241). -/
def hmaskOk (s : State) (i : Nat) (v : Word64) : Bool :=
  let w := Nat.log2 s.np
  if w ≤ i then v == 0
  else fld v 63 56 == 0 && fld v 6 0 == 0 && bits v.toNat (6 + w) 7 == 2 ^ i

/-- HMASK_WRITE: the memory behind it counts as scrubbed afterwards (R241). -/
def execHmaskWrite (fn : BitVec 5) (i : BitVec 4) (v : BitVec 64) (s : State) : Out :=
  if 9 ≤ i.toNat then .next (reply s .notPermitted)
  else
    .next (vfReply s fn (fun t =>
      accept t (partQuiet t && hmaskOk t i.toNat v)
        { t with part.hmask := mput 0 t.part.hmask i.toNat v.toNat, part.mem := [], part.l2 := [], part.poison := [],
                 part.blocks := [] }))

/-- The reserved fields of TLBINV are zero, and no invalidation runs (R252). -/
def tlbinvOk (s : State) (v : Word64) : Bool :=
  !s.part.tlbBusy && fld v 63 56 == 0 && fld v 15 3 == 0 && decide (fld v 1 0 < 2)

/-- A translation that an invalidation drops: every one, or those of vpage (R252). -/
def tlbDrops (v : Word64) (e : TlbE) : Bool := fld v 1 0 == 0 || e.hits (fld v 55 16 * 65536)

/-- A write of TLBINV: every core and cluster TLB of the partition is cleared of what it names (R252). -/
def tlbinvWrite (s : State) (fn : BitVec 5) (v : Word64) : State :=
  vfReply s fn (fun t =>
    let t1 := allVC t (fun c => { c with tlb := c.tlb.filter (fun e => !tlbDrops v e) })
    accept t (tlbinvOk t v)
      { t1 with part.ctlb := t1.part.ctlb.filter (fun p => !tlbDrops v p.2), part.tlbBusy := true, part.tlbinv := v &&& ~~~4 })

/-- TLBINV_PARTITION: kind 0 (R252). -/
def execTlbinvPartition (fn : BitVec 5) (v : BitVec 64) (s : State) : Out := .next (tlbinvWrite s fn v)

/-- TLBINV_PAGE: kind 1 (R252). -/
def execTlbinvPage (fn : BitVec 5) (v : BitVec 64) (s : State) : Out := .next (tlbinvWrite s fn v)

/-- TLBINV_DONE: every walk that was in flight has finished; busy returns to 0 (R252). -/
def execTlbinvDone (s : State) : Out := .next { s with part.tlbBusy := false, part.walks := [] }

/-- TRANSLATION_WALK_COMPLETE: a walk of va ends; a successful one fills the TLBs, unless an invalidation has started since
(R248, R249, R252). -/
def execTranslationWalkComplete (va : BitVec 64) (s : State) : Out :=
  if fld va 63 56 ≠ 0 ∨ s.part.tlbBusy = true then .next s else .next (lookup s va.toNat).1

/-! ### Registers with no behaviour of their own (R408) -/

/-- A rate of a group entry (R316). -/
def rateOk (r : Nat) : Bool :=
  let kmax := bits r 9 4
  let m := bits r 3 0
  decide (1 ≤ kmax) && decide (kmax ≤ 32) && decide (m ≤ 8) && decide (kmax + m ≤ 36) && decide (bits r 15 10 = 0)

/-- ceil(log2 n). -/
def log2Up (n : Nat) : Nat := if n ≤ 1 then 0 else Nat.log2 (n - 1) + 1

/-- A collective of the group, of the running launch or a saved one, or a window of it is in flight; a window that has been dropped is
until its home has applied its flush (R316, R329). -/
def groupBusy (s : State) (g : Nat) : Bool :=
  let has (vs : List VC) : Bool := vs.any (fun v => v.colls.any (fun c => c.group == g))
  has s.vcs || s.part.saved.any (fun x => has x.vcs) || s.part.windows.any (fun w => w.group == g)

/-- A write changes nothing of the entry but its tree generation. -/
def onlyTgen (s : State) (g : Nat) (d : List Word64) : Bool :=
  (countUp 0 8).all (fun i =>
    if i = 4 then fld (descW d 4) 31 0 == fld (groupWord s g 4) 31 0 else descW d i == groupWord s g i)

/-- A group entry that R315 and R316 accept. DEDUCED (log 74): R317 has the tree generation incremented while chunks are in flight, so a
write of that field alone is accepted then. -/
def groupOk (s : State) (g : Nat) (d : List Word64) : Bool :=
  d.length == 8 && fld (descW d 0) 31 18 == 0 && fld (descW d 1) 63 56 == 0
    && (countUp 0 4).all (fun i => rateOk (fld (descW d 2) (16 * i + 15) (16 * i)))
    && fld (descW d 3) 39 37 == 0 && fld (descW d 3) 31 18 == 0
    && decide (log2Up (fld (descW d 0) 17 0 + 1) ≤ fld (descW d 3) 36 32) && decide (fld (descW d 3) 36 32 ≤ 18)
    && fld (descW d 4) 31 1 == 0 && (countUp 5 3).all (fun i => descW d i == 0) && (!(groupValid s g && groupBusy s g) || onlyTgen s g d)

/-- Write the eight words of a group entry; with a new tree generation its trees have been rebuilt (R316, R317). -/
def setGroup (s : State) (g : Nat) (d : List Word64) : State :=
  let s1 := (d.zip (countUp 0 8)).foldl (fun t p => setGroupWord t g p.2 p.1) s
  if fld (descW d 4) 63 32 = fld (groupWord s g 4) 63 32 then s1
  else s1.part.saved.foldl (fun t x => inSaved t x.tag (fun u => treesRebuilt u g)) (treesRebuilt s1 g)

/-- DRAINCTL's ranges (R312). -/
def drainctlOk (v : Word64) : Bool :=
  let kmax := fld v 9 4
  decide (4096 ≤ fld v 63 40) && fld v 39 10 == 0 && decide (1 ≤ kmax) && decide (kmax ≤ 32) && decide (fld v 3 0 ≤ 8)
    && decide (kmax + fld v 3 0 ≤ 36)

/-- A drain is pending on some partition. -/
def anyDrain (s : State) : Bool := !s.part.drains.isEmpty || s.others.any (fun x => !x.part.drains.isEmpty)

/-- The queue holds a running or saved launch of the partition in focus (R331). -/
def queueBusy (s : State) (q : Nat) : Bool := runningQueue s == some q || s.part.saved.any (fun x => x.queue == q)

/-- A word of a queue record that R331 accepts; the focus is on the queue's partition. -/
def queueWordOk (s : State) (q w : Nat) (v : Word64) : Bool :=
  match w with
  | 0 => fld v 63 60 != 0 && fld v 59 56 == 0 && fld v 5 0 == 0 && !queueBusy s q
  | 1 => fld v 63 56 == 0 && fld v 3 0 == 0 && !queueBusy s q
  | 2 => false
  | 3 => fld v 63 52 != 0 && fld v 45 0 == 0 && (!queueBusy s q || fld v 49 46 == qPart s q)
  | 4 => false
  | _ => v == 0

/-- The action and the unit of a breakpoint word 0 (R403). -/
def bpOk (hi : Bool) (v : Word64) : Bool :=
  hi || (decide (fld v 62 60 ≤ 3) && (decide (fld v 59 56 ≤ 6) || fld v 59 56 == 8))

/-- The bits of a breakpoint word that are not reserved; the others ignore writes (R6, R403). -/
def bpMask (hi : Bool) : Word64 := if hi then 0xFFFFFFFF00000FFF else 0x7FFFFFFFFFFFFFFF

/-- The sum of the port weights of the other bound VFs (R365). -/
def otherWeights (s : State) : Nat :=
  s.others.foldl (fun a x => if x.part.bound || x.part.wasBound then a + x.part.pw else a) 0

/-- ESTAT accepts a port weight (R365). -/
def estatOk (s : State) (v : Word64) : Bool :=
  fld v 63 32 == 0 && fld v 7 1 == 0
    && decide (otherWeights s + (if s.part.bound || s.part.wasBound then fld v 15 8 else 0) ≤ 256)

/-- A quota takes effect: exhaustion ends when the remaining energy is positive, and a launch that waits in place for it is decided on;
whether it starts is seen at the end of the beat (R365, R367). -/
def setQuota (s : State) (v : Word64) : State :=
  let s1 : State := { s with part.equota := v }
  if s1.part.ex && (noQuota s1.part || decide (0 < energyLeft s1.part)) then
    catchUp s { s1 with part.ex := false, part.decision := s1.part.decision || s1.launch.inPlace }
  else s1

/-- Write a register of a VF's control block, group entries or debug block (R408). -/
def writeVF (s : State) (r : Reg) (v : Word64) : State × Status :=
  let quiet := partQuiet s
  match r with
  | .ptroot => accept s (quiet && fld v 63 56 == 0 && fld v 10 0 == 0) { s with part.ptroot := v }
  | .vsbase => accept s (quiet && fld v 63 56 == 0 && fld v 16 0 == 0) { s with part.vsbase := v }
  | .vsize => accept s (quiet && fld v 63 56 == 0 && fld v 16 0 == 0) { s with part.vsize := v }
  | .dlallow => accept s (quiet && fld v 63 24 == 0 && decide (4096 ≤ v.toNat)) { s with part.dlallow := v.toNat }
  | .ctxbase => accept s (quiet && fld v 63 56 == 0 && fld v 15 0 == 0) { s with part.ctxbase := v }
  | .ctxn => accept s quiet { s with part.ctxn := v &&& 0xFF }
  | .equota => (setQuota s v, .done)
  | .estat => accept s (estatOk s v) { s with part.pw := fld v 15 8 }
  | .bp n hi => accept s (bpOk hi v) { s with part.bp := mput 0 s.part.bp (2 * n.toNat + b2n hi) (v &&& bpMask hi) }
  | .group g rest =>
    if groupCount s ≤ g.toNat then (s, .notPermitted)
    else accept s (groupOk s g.toNat (v :: rest)) (setGroup s g.toNat (v :: rest))
  | .ctrBase n => accept s (fld v 5 0 == 0) (updVC s n.toNat (fun c => { c with ctrBase := v, ctrPtr := v, ctrLast := none, ctrBuf := [] }))
  | .ctrSize n => accept s (fld v 5 0 == 0) (updVC s n.toNat (fun c => { c with ctrSize := v, ctrPtr := c.ctrBase, ctrLast := none, ctrBuf := [] }))
  | .ctrPtr _ => (s, .refused)
  | .ctrWrap n => accept s true (updVC s n.toNat (fun c => { c with ctrWrap := v &&& 1 }))
  | _ => (s, .noRegister)

/-- Word w of the record of queue q becomes v. Tickets and urgent of a queue that had a record stay in use as they were until the next
decision (R331). -/
def putQueueWord (s : State) (q w : Nat) (v : Word64) : State :=
  if 3 < w then s
  else
    let old := qword s q 3
    let s1 := setQword s q w v
    if w = 3 ∧ old ≠ 0 ∧ s.dev.classes.all (fun p => p.1 != q) then { s1 with dev.classes := s1.dev.classes ++ [(q, old)] } else s1

/-- The record word is acceptable, as the queue's partition sees it when there is one (R331). -/
def recordOk (s : State) (q w : Nat) (v : Word64) : Bool :=
  match focusPart s (qPart s q) with
  | some t => queueWordOk t q w v
  | none => queueWordOk s q w v

/-- Write a word of a queue record; a queue that becomes eligible with it does so in the partition that the record then names
(R331, R341). -/
def queueRecWrite (s : State) (q w : Nat) (v : Word64) : State :=
  if recordOk s q w v then
    let part := if w = 3 then fld v 49 46 else qPart s q
    match focusPart s part with
    | some _ => reply (inPart s part (fun t => catchUp t (putQueueWord t q w v))) .done
    | none => reply (putQueueWord s q w v) .done
  else reply s .refused

/-- REGISTER_WRITE: a write of a register with no behaviour of its own, by the functions of R408. Identification word,
READY and progress are read only; RETIRE and the measurement registers are the trusted root's (R410). -/
def execRegisterWrite (fn : BitVec 5) (r : Reg) (v : BitVec 64) (s : State) : Out :=
  match r with
  | .ident => .next (reply s .refused)
  | .ready _ => .next (reply s .refused)
  | .mr _ => .next (reply s .notPermitted)
  | .retire => .next (reply s .notPermitted)
  | .drainctl =>
    if isMgmt fn = false then .next (reply s .notPermitted)
    else if drainctlOk v && !anyDrain s then .next (reply { s with dev.drainctl := v } .done)
    else .next (reply s .refused)
  | .queueRec q w => if isMgmt fn then .next (queueRecWrite s q.toNat w.toNat v) else .next (reply s .notPermitted)
  | .progress q => if isVF fn (qPart s q.toNat) then .next (reply s .refused) else .next (reply s .notPermitted)
  | _ => .next (vfReply s fn (fun t => writeVF t r v))

/-- EUSED_CLEAR: a write of zero clears both sums; any other value is refused (R365). -/
def execEusedClear (fn : BitVec 5) (v : BitVec 64) (s : State) : Out :=
  .next (vfReply s fn (fun t =>
    accept t (v == 0) (setQuota { t with part.spent := 0, part.shared := 0 } t.part.equota)))

/-- A partition counter's place in the table (R397). -/
def counterKey : Counter → Nat
  | .discarded => 0
  | .traceDrops => 1
  | .corrected r => 0x100 + r.toNat
  | .uncorrectable r => 0x200 + r.toNat
  | .orphan c => 0x300 + c.toNat

/-- COUNTER_CLEAR: a write of zero clears a partition counter (R397). -/
def execCounterClear (fn : BitVec 5) (c : Counter) (v : BitVec 64) (s : State) : Out :=
  .next (vfReply s fn (fun t => accept t (v == 0) { t with part.counts := mput 0 t.part.counts (counterKey c) 0 }))

/-! ### Memory (R406, R407) -/

/-- The range lies below the capacity of the VF's partition (R406). -/
def linkRange (s : State) (pa n : Nat) : Bool := decide (pa + n ≤ s.cp)

/-- CONTROL_LINK_MEMORY_WRITE (R406), through the home slices (R256); charged to the device (R361). -/
def execControlLinkMemoryWrite (fn : BitVec 5) (pa : Nat) (data : List (BitVec 8)) (s : State) : Out :=
  .next (vfReply s fn (fun t =>
    if linkRange t pa data.length then (deviceWrite t pa data, .done) else (t, .notPermitted)))

/-- CONTROL_LINK_MEMORY_READ: the answer holds the bytes, eight to a word (R406). -/
def execControlLinkMemoryRead (fn : BitVec 5) (pa : Nat) (n : Nat) (s : State) : Out :=
  if isMgmt fn then .next (reply s .notPermitted)
  else
    match focusPart s (fn.toNat - 1) with
    | none => .next (reply s .notPermitted)
    | some t =>
      if linkRange t pa n then
        let d := physRead t pa n
        .next (reply (inPart s (fn.toNat - 1) (fun u => (deviceRead u pa n).1)) .done
          ((countUp 0 (ceilDiv n 8)).map (fun i => w64 (leNat (cut d (8 * i) 8)))))
      else .next (reply s .notPermitted)

/-! ### Places of memory (R240, R242, R355) -/

/-- Where a partition-physical line lies: the device's pseudo-channel and the line slot (R240, R355). -/
def placeOf (s : State) (line : Nat) : Nat × Nat :=
  (s.part.idx * s.np + pcOf s (line * 128), line / s.np)

/-- The line of the partition that lies in slot k of its pseudo-channel j, under the default masks (R242). -/
def lineAt (np j k : Nat) : Nat :=
  let w := Nat.log2 np
  (countUp 0 w).foldl
    (fun a i => a + b2n (xor (bit j i) (parity (k * np * 128 &&& defaultMask w i) 56)) * 2 ^ i) (k * np)

/-- Bytes as the device holds them: pseudo-channel, slot, offset, byte. -/
def devBytes (s : State) : List (Nat × Nat × Nat × Byte) :=
  s.part.mem.map (fun c => let p := placeOf s (c.1 / 128)
                           (p.1, p.2, c.1 % 128, c.2))

/-- The memory of partition q of a layout with np pseudo-channels each, under the default masks. -/
def memFrom (np q : Nat) (l : List (Nat × Nat × Nat × Byte)) : List Host.Cell :=
  (l.filter (fun x => x.1 / np == q)).foldl
    (fun m x => mput byteDefault m (128 * lineAt np (x.1 % np) x.2.1 + x.2.2.1) x.2.2.2) []

/-! ### Ports (R303, R357) -/

/-- Every fragment that waits for a port is handed to it. -/
def handAll (s : State) : State := { s with part.outbox := [], dev.wire := s.part.outbox.reverse ++ s.dev.wire }

/-- At each beat of the partition, each port takes the oldest fragment that waits for it. DESIGN CHOICE (log 94): the pace. -/
def handOut (s : State) : State :=
  let (sent, left) := s.part.outbox.foldl
    (fun (p : List Fragment × List Fragment) f => if p.1.any (fun x => x.port == f.port) then (p.1, f :: p.2) else (f :: p.1, p.2)) ([], [])
  { s with part.outbox := left.reverse, dev.wire := sent ++ s.dev.wire }

/-! ### Teardown (R257, R357, R393) -/

/-- A line of memory holds free bytes: the spec does not state what it holds. -/
def loseLine (s : State) (line : Nat) : State :=
  { physWrite s (128 * line) ((countUp 0 128).map (fun i => Config.lostByte s.fresh i)) with fresh := s.fresh + 1 }

/-- Free bytes for the lines that a reset drops dirty from L2: what memory behind them holds is not stated. -/
def loseDirty (s : State) : State :=
  (s.part.l2.filter (fun p => p.dirty)).foldl (fun t p => loseLine t p.line) s

/-- HBM rows with an error that cannot be corrected are repaired. DESIGN CHOICE (log 93): there are repair resources enough, and the lines
hold free bytes afterwards (R395). -/
def repairRows (s : State) : State := { s.part.poison.foldl loseLine s with part.poison := [] }

/-- The physical core c, numbered 18·cluster + core, stands in a cluster of the partition in focus (R355). -/
def inPartition (s : State) (c : Nat) : Bool := decide (c / 18 / (64 / s.m) = s.part.idx)

/-- The cores of cluster u that take part: each of them is sound. -/
def clusterSound (s : State) (u : Nat) : Bool := (enabledCores s u).all (fun k => !s.dev.dead.contains (18 * u + k))

/-- Core k of cluster u is retired: a healthy fused-off core of the cluster takes its place, and R15 numbers the cores anew. DESIGN CHOICE
(log 84): the lowest such core. A cluster without one loses its readiness (R393). -/
def replaceCore (s : State) (u k : Nat) : State :=
  let on := enabledCores s u
  let s1 : State := { s with dev.dead := s.dev.dead ++ [18 * u + k], dev.marked := s.dev.marked.filter (fun x => x != 18 * u + k) }
  match (countUp 0 18).find? (fun x => !on.contains x && !s1.dev.dead.contains (18 * u + x)) with
  | some x =>
    { s1 with dev.enabled := s1.dev.enabled.filter (fun p => p.1 != u) ++ [(u, (countUp 0 18).filter (fun y => y == x || (on.contains y && y != k)))] }
  | none => { s1 with dev.ready := mput false s1.dev.ready u false }

/-- Cores marked for retirement give way to spares of their clusters (R393). -/
def replaceMarked (s : State) : State :=
  (s.dev.marked.filter (inPartition s)).foldl (fun t c => replaceCore t (c / 18) (c % 18)) s

/-- A scratchpad row that is marked gives way to one of the 8 spare rows of its bank; a bank with none left marks its core
(R395). Rows are numbered through the device: physical core, bank, row. -/
def replaceRows (s : State) : State :=
  (s.dev.rows.filter (fun k => inPartition s (k / 65536))).foldl
    (fun t k =>
      let used := mget 0 t.dev.rowSpares (k / 1024)
      let c := k / 65536
      let t1 : State := { t with dev.rows := t.dev.rows.filter (fun x => x != k) }
      if used < 8 then { t1 with dev.rowSpares := mput 0 t1.dev.rowSpares (k / 1024) (used + 1) }
      else if t1.dev.marked.contains c then t1
      else { t1 with dev.marked := t1.dev.marked ++ [c] }) s

/-- The slices of the partition in focus that have a set with fewer than two ways are retired (R257). -/
def retireSlices (s : State) : State :=
  let n := s.np / 8
  let l2 := s.dev.ways.filter (fun w => decide (w < 2 ^ 40) && w / 32768 / n == s.part.idx)
  let few := l2.filter (fun w => decide (14 < (l2.filter (fun x => x / 16 == w / 16)).length))
  { s with dev.retired := few.foldl (fun r w => if r.contains (w / 32768) then r else r ++ [w / 32768]) s.dev.retired }

/-- Step 4 and 5 of R357: caches and TLBs without write-back; registers, shares, groups, windows, darning buffers and
counters; with scrub, memory and block metadata, at the device's expense (R361). No first write's copy goes on after step 3. Rows, cores
and slices are repaired, replaced and retired (R257, R393, R395). -/
def wipePart (s : State) : State :=
  let s1 := if s.part.scrub then
      chargeTo { s with part.mem := [], part.poison := [], part.blocks := [] } none .hbm (s.cp / 128)
    else repairRows { loseDirty s with part.blocks := s.part.blocks.map (fun p => (p.1, { p.2 with copy := false })) }
  retireSlices <| replaceMarked <| replaceRows { s1 with
    part.l2 := [], part.ctlb := [], part.walks := [], part.slow := [], part.late := [], part.reports := [], part.asked := false,
    part.stepTag := none, part.stepRecs := [], part.endVoted := false, part.groups := [], part.windows := [], part.darns := [], part.closed := [],
    part.counts := [], part.msgsIn := [], part.chosen := none, part.copies := [], part.waits := [], part.dstops := [],
    part.samples := [],
    vc := VC.init s1.vc.id, peers := s1.peers.map (fun v => VC.init v.id) }

/-- Every queue of the partition has valid := 0 (R357 step 6). -/
def clearValid (s : State) : State :=
  ((queueIds s).filter (fun q => qPart s q == s.part.idx)).foldl
    (fun t q => setQword t q 3 (qword t q 3 &&& ~~~(w64 (2 ^ 50)))) s

/-- End the running and saved launches with status 4 (R336, R357 step 6). -/
def endAll (s : State) : Out :=
  let slots := (if s.launch.live then [(s.launch.queue, s.launch.slot)] else [])
    ++ s.part.saved.map (fun x => (x.queue, x.launch.slot))
  slots.foldl (fun (o : Out) p => match o with
    | .next t => completeSlot t p.1 p.2 4 0 0
    | r => r) (.next s)

/-- Step 7 of R357: HMASK takes its default values, so memory is seen through them; PTROOT, VSBASE and VSIZE are zero. -/
def resetBlock (s : State) : State :=
  let mem := if s.part.hmask.isEmpty then s.part.mem else memFrom s.np s.part.idx (devBytes s)
  { s with part.mem := mem, part.hmask := [], part.ptroot := 0, part.vsbase := 0, part.vsize := 0 }

/-- FUNCTION_RESET_COMPLETE: steps 4 to 7 of a reset end; the partition returns to its former state (R357). -/
def execFunctionResetComplete (s : State) : Out :=
  if s.part.reset.isNone then .next s
  else
    match endAll (wipePart s) with
    | .next t =>
      let t1 := resetBlock (clearValid t)
      .next { t1 with part.saved := [], part.outbox := [], launch := .init, part.reset := none, part.bound := s.part.wasBound,
                      part.wasBound := false }
    | r => r

/-! ### Layouts (R354) -/

/-- A fresh idle partition, its HBM contents and the bitmap of poisoned lines aside. -/
def freshSlice (i : Nat) (mem : List Host.Cell) : Slice :=
  { part := { Part.init with idx := i, mem := mem }, launch := .init, vc := VC.init 0,
    peers := (List.range 1023).map (fun k => VC.init (k + 1)) }

/-- Every partition is idle and no reset runs (R354, R356). -/
def allIdle (s : State) : Bool :=
  !s.part.bound && s.part.reset.isNone && s.others.all (fun x => !x.part.bound && x.part.reset.isNone)

/-- Tear the partitions down and create those of the new layout (R354, R357 steps 4 to 7). Every charge under way enters its account
first, and a coefficient set that waits goes on waiting (R359, R363). -/
def newLayout (s : State) (lq : Nat) : State :=
  let wiped := s.partIds.foldl (fun t q => inPart t q (fun u => enterCharges (clearValid (wipePart (handAll u))))) s
  let all := wiped.partIds.flatMap (fun q => match focusPart wiped q with
    | some u => devBytes u
    | none => [])
  let np := 512 / 2 ^ lq
  let coefs := s.part.coefs
  let cset := s.part.cset
  let waiting := s.part.nextCoefs
  let slices := (countUp 0 (2 ^ lq)).map (fun i =>
    let x := freshSlice i (memFrom np i all)
    { x with part.coefs := coefs, part.cset := cset, part.nextCoefs := waiting })
  match slices with
  | [] => s
  | x :: r => { wiped with part := x.part, launch := x.launch, vc := x.vc, peers := x.peers, others := r, dev.lq := lq,
                           mover := .hub }

/-- Every partition has an L2 slice that is not retired (R257). -/
def slicesLive (s : State) : Bool :=
  let n := 64 / s.m
  (countUp 0 s.m).all (fun q => (countUp (n * q) n).any (fun u => !s.dev.retired.contains u))

/-- PLAYOUT_WRITE: a new layout, by the management function (R354, R408). DESIGN CHOICE (log 39): a layout in which a partition cannot be
created, every slice of it being retired, is refused (R257). -/
def execPlayoutWrite (fn : BitVec 5) (v : BitVec 64) (s : State) : Out :=
  if isMgmt fn = false then .next (reply s .notPermitted)
  else if 5 ≤ v.toNat ∨ allIdle s = false then .next (reply s .refused)
  else
    let t := newLayout s v.toNat
    .next (if slicesLive t then reply t .done else reply s .refused)

/-! ### PCTL (R356, R357, R409) -/

/-- The partition's clusters and the stacks behind its pseudo-channels are ready (R409), and an L2 slice of it is live
(R257). -/
def partReady (s : State) : Bool :=
  let n := 64 / s.m
  (countUp (n * s.part.idx) n).all (fun u => mget false s.dev.ready u && mget false s.dev.ready (64 + u / 8))
    && (countUp (n * s.part.idx) n).any (fun u => !s.dev.retired.contains u)

/-- bind (R356): the port weight takes its default (R365). -/
def bindPart (s : State) : State × Status :=
  let pw := Nat.min (256 / s.m) (256 - otherWeights s)
  accept s (!s.part.bound && s.part.reset.isNone && partReady s) (catchUp s { s with part.bound := true, part.pw := pw })

/-- unbind (R356). -/
def unbindPart (s : State) : State × Status :=
  accept s (s.part.bound && s.part.reset.isNone && !s.launch.live && s.part.saved.isEmpty)
    { s with part.bound := false }

/-- Steps 1 to 3 of a reset (R357): the open step is voted down at once and resolves as aborted; what the cores and the partition's
requests had under way is discarded, with the fragments not handed to a port; the partition is resetting. -/
def startReset (s : State) : State :=
  let s0 : State := { s with part.outbox := [], part.reports := [] }
  let s1 := if s.part.openEp.isSome then
      (match execDeviceVoteSend { s0 with part.devVote := s0.part.devVote ||| 512 } with
       | .next t => { closeEpoch (handAll t) false with part.epSeqs := [] }
       | _ => s0)
    else s0
  { s1 with
    part.reset := some s1.vc.now, part.wasBound := s1.part.bound, part.drains := [], part.drainQ := [],
    part.waits := [], launch.msgs := [], launch.maps := [], launch.req := none, launch.frozen := none,
    vc := VC.init s1.vc.id, peers := s1.peers.map (fun v => VC.init v.id) }

/-- reset (R356, R357). -/
def resetPart (s : State) : State × Status := accept s s.part.reset.isNone (startReset s)

/-- A write of PCTL by the VF or the management function: reserved fields, state and command (R356, R408). -/
def pctlWrite (s : State) (fn : BitVec 5) (q : BitVec 4) (v : Word64) : State :=
  if isMgmt fn || isVF fn q.toNat then
    match focusPart s q.toNat with
    | none => reply s .refused
    | some _ =>
      inPartReply s q.toNat (fun t =>
        if fld v 63 8 ≠ 0 ∨ fld v 4 2 ≠ 0 ∨ t.part.reset.isSome = true then (t, .refused)
        else
          let u : State := { t with part.scrub := fld v 5 5 == 1 }
          let r := match fld v 1 0 with
            | 0 => (u, Status.done)
            | 1 => bindPart u
            | 2 => unbindPart u
            | _ => resetPart u
          match r.2 with
          | .done => r
          | st => (t, st))
  else reply s .notPermitted

/-- PCTL_BIND (R356). -/
def execPctlBind (fn : BitVec 5) (q : BitVec 4) (v : BitVec 64) (s : State) : Out := .next (pctlWrite s fn q v)

/-- PCTL_UNBIND (R356). -/
def execPctlUnbind (fn : BitVec 5) (q : BitVec 4) (v : BitVec 64) (s : State) : Out := .next (pctlWrite s fn q v)

/-- PCTL_RESET (R356, R357). -/
def execPctlReset (fn : BitVec 5) (q : BitVec 4) (v : BitVec 64) (s : State) : Out := .next (pctlWrite s fn q v)

/-! ### The clock of a die (R109, R110) -/

/-- No stretch. -/
def stretchZero : Stretch := ⟨0, none, 0⟩

/-- The virtual core of the partition in focus stands on the die, in a communication phase at die level or above
(R110, R346). -/
def commVC (s : State) (die : Nat) (v : VC) : Bool := dieOfVC s v.id == die && fld v.ctl.dom 9 6 != 0

/-- The partition in focus runs a Lockstep launch on the die inside such a phase (R110). -/
def commPhase (s : State) (die : Nat) : Bool :=
  s.launch.live && decide (s.launch.mode = .lockstep) && s.vcs.any (commVC s die)

/-- Some partition does. -/
def dieBusy (s : State) (die : Nat) : Bool :=
  s.partIds.any (fun q => match focusPart s q with
    | some t => commPhase t die
    | none => false)

/-- STRETCH_CHANGE: the power manager applies a change of k, or defers it to the end of the communication phase
(R109, R110). DESIGN CHOICE (log 75): a second change that comes while one waits takes its place, and the wait is that of the first. -/
def execStretchChange (die : BitVec 2) (k : BitVec 5) (s : State) : Out :=
  let d := die.toNat
  let old := mget stretchZero s.dev.stretch d
  if 16 < k.toNat then .next s
  else if dieBusy s d then
    .next { s with dev.stretch := mput stretchZero s.dev.stretch d { old with pend := some k.toNat, since :=
      (if old.pend.isSome then old.since else s.dev.refbeat) } }
  else .next { s with dev.stretch := mput stretchZero s.dev.stretch d ⟨k.toNat, none, 0⟩ }

/-- A stretch-forced fault against every queue of the virtual core in focus (R110, R369). -/
def stretchFaults (s : State) : State :=
  allQueues.foldl (fun t q => raiseAt t t.vc.id
    { src := qCode q + 1, cause := 0x15, detail := 0, tval := 0, beat := t.vc.now, name := 0, seq := none, tepc := none }) s

/-- STRETCH_FORCED: a change that has waited 65,536 beats is applied, with a fault against every Lockstep launch on the die
that is still in such a phase (R110). -/
def execStretchForced (die : BitVec 2) (s : State) : Out :=
  let d := die.toNat
  let old := mget stretchZero s.dev.stretch d
  match old.pend with
  | none => .next s
  | some k =>
    if s.dev.refbeat < old.since + 65536 then .next s
    else
      let s1 : State := { s with dev.stretch := mput stretchZero s.dev.stretch d ⟨k, none, 0⟩ }
      .next (s1.partIds.foldl
        (fun t q => inPart t q (fun u =>
          if commPhase u d then u.vcs.foldl (fun w v => inVC w v.id stretchFaults) u else u)) s1)

end Sys2Proof.Machine
end

