-- ==== Sys2Proof/Machine/Assurance.lean ====
section
/-! DEFINITION. Trap entry, the Collie, the traces, breakpoints and debug stops (18_traps R373-R380; 19_assurance
R389-R393, R395, R398-R405). -/

namespace Sys2Proof.Machine

/-! ### Trap entry (R374, R377, R378) -/

/-- The head of queue q cannot issue, after the queues have had this beat (R377): the queue is empty or issues nothing, the
entry shares columns that are behind, or its beat has come and it still stands there. -/
def headBlocked (s : State) (q : Queue) : Bool :=
  match headOf s q with
  | none => true
  | some e =>
    let b := entryBits9 e
    let (sb, behind) := sched (queueNext s q e.shared) b.delay.toNat b.stamp
    queueHeld s q || (e.shared && !sharedAtHead s e)
      || (decide (e.ready ≤ s.vc.now) && (behind || decide (sb ≤ s.vc.now)) && e.stood.isSome)

/-- Table entry places nothing more for now: no run is in entry, a fault pauses it, or its queue is full (R146, R149,
R377). -/
def entryBlocked (s : State) : Bool :=
  s.vc.tbl.runs.all (fun r => r.ended || entryPaused s.vc r
    || allQueues.any (fun q => qEngine q == r.home && decide (qCap q ≤ (s.vc.eng.q q).entries.length)))

/-- The stop has formed (R377, R378). -/
def stopFormed (s : State) : Bool :=
  match s.launch.mode with
  | .lockstep => frozenNow s
  | .elastic =>
    s.vc.eng.flights.all (fun f => f.faulted || f.chan.isSome || f.ended) && allQueues.all (headBlocked s) && entryBlocked s

/-- TRAP_ENTRY: the stop has formed, and the virtual core in focus enters the trap of the fault that R372 puts first; a
Lockstep launch of several devices ends (R374, R379). -/
def execTrapEntry (s : State) : Out :=
  if s.vc.faults.isEmpty || s.vc.ctl.h || !stopFormed s then .next s
  else if s.launch.mode = .lockstep ∧ s.launch.multi = true then
    endLaunch s 3 (match nextFault s.vc.faults with
      | some f => f.cause
      | none => 0) 0
  else takeTrap s

/-! ### The Collie (R389-R391, R393) -/

/-- What stood before the instruction whose copy the Collie compares at this beat: CTL executed it three CTL beats ago (R389). -/
def comparedPast (v : VC) : Option Past := v.past.find? (fun p => p.beat + 3 == v.pulse)

/-- The queues hold no word that CTL routed, and no micro-order of a table run that it started, at or after p (R391). -/
def unroute (p : Past) (e : Eng) : Eng :=
  let old (x : QEntry) : Bool := match x.run with
    | some r => decide (r < p.nextRun)
    | none => decide (x.seq < p.nextSeq)
  allQueues.foldl (fun (en : Eng) q => en.setQ q { en.q q with entries := (en.q q).entries.filter old })
    { e with flights := e.flights.filter (fun f => old f.entry) }

/-- The table runs that CTL started at or after p are gone, and their tables run no longer. -/
def unrun (p : Past) (t : Tables) : Tables :=
  let gone := t.runs.filter (fun r => decide (p.nextRun ≤ r.id))
  { t with runs := t.runs.filter (fun r => decide (r.id < p.nextRun)), nextRun := p.nextRun,
           dir := gone.foldl (fun d r => mput dirZero d r.table { mget dirZero d r.table with running := false }) t.dir }

/-- The tokens that instructions took are back, those that they put are gone, and the records that they took stand first in the event
queue. -/
def untoken (ps : List Past) (e : Eng) : Eng :=
  let back (m : SMap Nat) (f : Nat) : SMap Nat := mput 0 m f (mget 0 m f + 1)
  let less (en : Eng) (f : Nat) : Eng :=
    match en.pushIn.find? (fun x => x.2 == f) with
    | some x => { en with pushIn := en.pushIn.erase x }
    | none => { en with tokens := mput 0 en.tokens f (mget 0 en.tokens f - 1) }
  let e1 := (ps.flatMap (fun p => p.gave)).foldl less { e with tokens := (ps.flatMap (fun p => p.took)).foldl back e.tokens }
  { e1 with events := ps.flatMap (fun p => p.records) ++ e1.events }

/-- The control registers with the Collie's values from before an instruction, and what CTL keeps of its own with them. One that was
executed in a handler leaves CTL in it. -/
def ctlBefore (p c : Ctl) : Ctl :=
  { c with
    x := p.x, flags := p.flags, frm := p.frm, tvec := p.tvec, tepc := p.tepc, tscratch := p.tscratch, tokmap := p.tokmap,
    lossLimit := p.lossLimit, pc := p.pc, instret := p.instret, h := c.h || p.h, fenceSeq := none, matched := none,
    lastSstep := p.lastSstep, dom := (c.dom &&& ~~~domMask) ||| (p.dom &&& domMask) }

/-- The virtual core as it stood before a mismatching instruction (R391). DESIGN CHOICE (log 95): what the instructions since have done to
tokens, records, arrivals, transaction registers, table runs and INSTRET is undone with the registers that the rule names. -/
def VC.rollBack (v : VC) (p : Past) : VC :=
  let since := v.past.filter (fun x => decide (p.beat ≤ x.beat))
  { v with
    ctl := ctlBefore p.ctl v.ctl, dcache := p.dcache, fifo := p.fifo, atomics := v.atomics.filter (fun a => decide (a.seq < p.nextSeq)),
    colls := v.colls.filter (fun c => decide (c.num < p.nextSeq)), tx := if v.tx.state = 3 ∧ p.tx.state ≠ 3 then v.tx else p.tx,
    arrived := v.arrived.filter (fun a => p.arrived.any (fun b => b.level == a.level && b.b == a.b && b.seq == a.seq)),
    tbl := unrun p v.tbl, eng := untoken since (unroute p v.eng), past := [], ctlSeen := true }

/-- The virtual core in focus as it stood before a mismatching instruction: also the groups' cseqs and the stores to the on-chip map that
it has not let out (R390, R391). -/
def rollBack (s : State) (p : Past) : State :=
  let late := (s.vc.colls.filter (fun c => decide (p.nextSeq ≤ c.num))).reverse
  let s1 := late.foldl (fun t c => if groupCseq t c.group = (c.seq + 1) % 2 ^ 32 then setCseq t c.group c.seq else t) s
  { s1 with
    vc := s1.vc.rollBack p,
    launch.maps := s1.launch.maps.filter (fun a => !(a.src == s.vc.id && a.seqS.isNone && decide (p.now + 4 ≤ a.due))) }

/-- COLLIE_COMPARE: the instruction of three beats ago is compared; a mismatch at the place `bad`, CTL or a queue, raises a corruption
fault, with everything as before the instruction (R389-R391). -/
def execCollieCompare (bad : Option (BitVec 4)) (s : State) : Out :=
  match bad, comparedPast s.vc with
  | some c, some p =>
    if c.toNat = 7 ∨ 9 ≤ c.toNat then .next s
    else
      let s1 := rollBack s p
      ctlFault (countSilent { s1 with vc := s1.vc.voteFlag 3 }) 0x2A c.toNat 0
  | _, _ => .next s

/-! ### The cycle trace (R399, R400) -/

/-- A die that records nothing. -/
def traceZero : Trace := ⟨0, 0, [], false, none⟩
def traceOf (s : State) (die : Nat) : Trace := mget traceZero s.dev.trace die
def setTrace (s : State) (die : Nat) (t : Trace) : State := { s with dev.trace := mput traceZero s.dev.trace die t }
def Trace.mode (t : Trace) : Nat := fld t.ctl 5 4
def Trace.recording (t : Trace) : Bool := fld t.ctl 7 7 == 1
def Trace.record (t : Trace) (on : Bool) : Trace :=
  { t with ctl := if on then t.ctl ||| 128 else t.ctl &&& ~~~(128 : Word64) }

/-- A trigger (R399). -/
def Trace.trigger (t : Trace) (beat : Nat) : Trace :=
  if t.armed then t
  else
    match t.mode with
    | 1 => { t with armed := true, left := some 32768 }
    | 2 => { t.record true with armed := true, left := some 65536, beat := beat }
    | 3 => { t.record false with armed := true }
    | _ => t

/-- TRCTL_WRITE: cluster and mode of a die's trace, by the management function (R399, R408). -/
def execTrctlWrite (fn : BitVec 5) (die : BitVec 2) (v : BitVec 64) (s : State) : Out :=
  if isMgmt fn = false then .next (reply s .notPermitted)
  else if fld v 63 8 ≠ 0 then .next (reply s .refused)
  else
    let t : Trace := { ctl := v &&& 0x7F, beat := s.dev.refbeat, recs := [], armed := false, left := none }
    .next (reply (setTrace s die.toNat (t.record (t.mode == 1 || t.mode == 3))) .done)

/-- TRACE_STOP: the beats after the trigger are over (R399). -/
def execTraceStop (die : BitVec 2) (s : State) : Out :=
  let t := traceOf s die.toNat
  if t.left = some 0 then .next (setTrace s die.toNat { t.record false with left := none }) else .next s

/-- The record of the virtual core in focus for this beat (R400). -/
def traceWord (s : State) : Nat :=
  let addr := match s.vc.retired with
    | some p => fld p 17 2 * 65536 + 64
    | none => 0
  addr + s.vc.raised * 256 + b2n s.vc.lost * 128 + s.vc.issuedNow % 64

/-- The cluster of the device that the virtual core in focus runs in (R355). -/
def devCluster (s : State) : Nat := 64 / s.m * s.part.idx + clusterOf s

/-- Records that the trace memory holds: 65,536 beats of 16 cores (R399). -/
def traceCap : Nat := 1048576

/-- A record takes its place among those of its beats, by beat and core (R400). -/
def Trace.add (t : Trace) (beat c word : Nat) : Trace :=
  let later := (t.recs.reverse.takeWhile (fun r => decide (beat < r.1) || (r.1 == beat && decide (c < r.2.1)))).length
  let k := t.recs.length - later
  let r := t.recs.take k ++ [(beat, c, word)] ++ t.recs.drop k
  { t with recs := r.drop (r.length - traceCap) }

/-- The beat's record of the virtual core in focus, by the die's schedule beat, and the trigger of a fault raised at it (R399, R400). The
schedule beat of virtual core j of a core is the j-th of the device's m in the beat of its partition (R19). -/
def traceBeat (s : State) : State :=
  let die := devCluster s / 16
  let t := traceOf s die
  if fld t.ctl 3 0 ≠ devCluster s % 16 ∨ t.mode = 0 then s
  else
    let t1 := if t.recording then t.add (s.dev.refbeat + s.vc.id % s.m) (s.vc.id / s.m % 16) (traceWord s) else t
    let hit := fld t.ctl 6 6 == 1 && s.vc.raised != 0
    setTrace s die (if hit then t1.trigger s.dev.refbeat else t1)

/-- One beat less to record. -/
def traceTick (s : State) : State :=
  { s with dev.trace := s.dev.trace.map (fun p => match p.2.left with
      | some (n + 1) => (p.1, { p.2 with left := some n })
      | _ => p) }

/-! ### The compatible trace (R401, R402) -/

/-- The virtual core emits records: its buffer has a size and room (R402). -/
def VC.tracing (v : VC) : Bool := v.ctrSize != 0 && decide (v.ctrPtr.toNat < v.ctrBase.toNat + v.ctrSize.toNat)

/-- The address of the instruction behind a word in flight: a table micro-order's is its tbl.run (R401). -/
def flightAddr (v : VC) (f : Flight) : Nat :=
  match f.entry.run with
  | some id =>
    (match v.tbl.runs.find? (fun r => r.id == id) with
     | some r => fld r.pc 55 2 * 4
     | none => 0)
  | none => f.entry.name % 2 ^ 54 * 4

/-- What issued and retired at this beat, as port and address (R401). -/
def traceEvents (v : VC) : List (Nat × Nat) :=
  allQueues.flatMap (fun q =>
    (v.eng.flights.filter (fun f => f.q == q && f.issued == v.now)).map (fun f => (qCode q + 1, flightAddr v f)))
  ++ (match v.retired with
      | some p => [(0, fld p 55 2 * 4)]
      | none => [])

/-- A record, or its escape, and the time and address it counts from (R401). -/
def traceRecord (last : Option (Nat × Nat)) (time port addr : Nat) : List Word32 :=
  let escape : List Word32 :=
    [BitVec.ofNat 32 (7 * 2 ^ 29 + port * 2 ^ 26 + addr / 2 ^ 34), BitVec.ofNat 32 (addr / 4), BitVec.ofNat 32 time]
  match last with
  | none => escape
  | some (t0, a0) =>
    let da : Int := ((addr / 4 : Nat) : Int) - ((a0 / 4 : Nat) : Int)
    if 8191 < time - t0 ∨ da < -32768 ∨ 32767 < da then escape
    else [BitVec.ofNat 32 (port * 2 ^ 29 + (time - t0) * 2 ^ 16 + pat 16 da)]

/-- Records of the compatible trace are lost (R397). -/
def traceDrop (s : State) (n : Nat) : State :=
  { s with part.counts := mput 0 s.part.counts 1 (Nat.min (2 ^ 64 - 1) (mget 0 s.part.counts 1 + n)) }

/-- Where a line of the compatible trace goes: none while its pseudo-channel is busy or its translation waits, and an error where no
memory takes it. The walk is the device's own (R361, R402). -/
def tracePlace (s : State) (p : Word64) : Option (State × Except Unit Nat) :=
  if fld p 63 56 ≠ 0 ∨ inMap p.toNat = true then some (s, .error ())
  else
    match translate s p.toNat .write with
    | .wait _ => none
    | .fault t _ _ => some (asDevice s t, .error ())
    | .ok t (pa, e) => if e.vb then some (asDevice s t, .error ()) else (pcTake (asDevice s t) (pa / 128)).map (fun u => (u, .ok pa))

/-- Write a full line at CTRPTR (R402). DESIGN CHOICE (log 96): the records that begin in a line which no memory takes are lost. -/
def traceLine (s : State) : State :=
  let d : List (Bool × Word32) := s.vc.ctrBuf.take 16
  match tracePlace s s.vc.ctrPtr with
  | none => s
  | some (s1, r) =>
    let s2 : State := match r with
      | .ok pa => deviceWrite s1 pa (d.flatMap (fun (w : Bool × Word32) => leBytes w.2.toNat 4))
      | .error _ => traceDrop s1 (d.filter (fun (w : Bool × Word32) => w.1)).length
    let next := s2.vc.ctrPtr + 64
    let full := decide (s2.vc.ctrBase.toNat + s2.vc.ctrSize.toNat ≤ next.toNat)
    { s2 with vc.ctrBuf := s2.vc.ctrBuf.drop 16, vc.ctrPtr := if full && s2.vc.ctrWrap != 0 then s2.vc.ctrBase else next }

/-- A record enters the line buffers. DESIGN CHOICE (log 96): there are two, of 64 bytes; a record that finds no room in them is lost
(R397, R402). -/
def tracePut (s : State) (e : Nat × Nat) : State :=
  let time := frameCount s
  let r := traceRecord s.vc.ctrLast time e.1 e.2
  if 32 < s.vc.ctrBuf.length + r.length then traceDrop s 1
  else { s with vc.ctrBuf := s.vc.ctrBuf ++ (r.zip (countUp 0 r.length)).map (fun w => (w.2 == 0, w.1)), vc.ctrLast := some (time, e.2) }

/-- The records of this beat of the virtual core in focus; then a full line is written (R401, R402). -/
def compatTrace (s : State) : State :=
  if s.vc.tracing = false then s
  else
    let s1 := (traceEvents s.vc).foldl tracePut s
    if 16 ≤ s1.vc.ctrBuf.length then traceLine s1 else s1

/-! ### Breakpoints and stops (R403-R405) -/

/-- The entry that breakpoint n hits among those that became heads at this beat, or next to retire: unit, name and scheduled beat
(R403). -/
def bpHead (s : State) (n : Nat) : Option (Nat × Nat × Nat) := s.vc.heads.find? (fun h => bpMatches s n h.1 h.2.1)

/-- Words 2 to 10 of the trap frame, for a stop or a sample (R404, R405). -/
def stopRecord (s : State) (name : Nat) : List Nat :=
  name :: frameCount s :: allQueues.map (cutWord s) ++ [frameWord10 s]

/-- The units held by stops, with one more. -/
def VC.holdUnit (v : VC) (unit : Nat) : VC := { v with stop := if v.stop.contains unit then v.stop else v.stop ++ [unit] }

/-- The stop record of each virtual core of a list, to be written once the stop has formed: virtual core n's names its entry, unless an
earlier hit has named one (R404). -/
def stopsWith (old : List (Nat × List Nat)) (ids : List Nat) (n name : Nat) : List (Nat × List Nat) :=
  ids.map (fun i => match old.find? (fun p => p.1 == i) with
    | some p => if i = n ∧ p.2 = [0] then (i, [name]) else p
    | none => (i, [if i = n then name else 0]))

/-- A stop begins (R404): a Lockstep launch freezes at the end of the beat before the entry's scheduled beat, or of this beat when that
is here; an Elastic virtual core stops with the entry held. DESIGN CHOICE (log 54): a CTL instruction has no scheduled beat: it is held,
and a Lockstep launch freezes at the end of this one. -/
def beginStop (s : State) (unit name sb : Nat) : State :=
  match s.launch.mode with
  | .elastic =>
    let others := (s.part.dstops.map (fun p => p.1)).filter (fun i => i != s.vc.id)
    { s with vc := s.vc.holdUnit unit, part.dstops := stopsWith s.part.dstops (others ++ [s.vc.id]) s.vc.id name }
  | .lockstep =>
    let late := decide (unit ≠ 0 ∧ sb ≤ s.vc.now)
    let f := if unit = 0 ∨ late = true then s.vc.now else sb - 1
    let s1 := if unit = 0 then { s with vc := s.vc.holdUnit 0 } else s
    { s1 with
      launch.frozen := some (match s.launch.frozen with
        | some g => Nat.min g f
        | none => f),
      part.dstops := stopsWith s.part.dstops (s.vcs.map VC.id) s.vc.id (if late then name + 2 ^ 63 else name) }

/-- Stop records and samples of the virtual core in focus are written once their beat is over; in an Elastic launch its frame counter
stands from then on (R404, R405). -/
def fillRecords (s : State) : State :=
  let fill (p : Nat × List Nat) : Nat × List Nat := match p.2 with
    | [name] => if p.1 = s.vc.id then (p.1, stopRecord s name) else p
    | _ => p
  let mine := s.part.dstops.any (fun p => p.1 == s.vc.id) && stopFormed s
  { s with part.dstops := if mine then s.part.dstops.map fill else s.part.dstops, part.samples := s.part.samples.map fill,
           vc.held := s.vc.held || (mine && decide (s.launch.mode = .elastic)) }

/-- BREAKPOINT_HIT: breakpoint n of the partition hits at the virtual core in focus: it counts down, or acts (R403). -/
def execBreakpointHit (n : BitVec 3) (s : State) : Out :=
  let k := n.toNat
  match bpHead s k with
  | none => .next s
  | some (unit, name, sb) =>
    let w1 := bpWord s k true
    if fld w1 63 32 ≠ 0 then .next { s with part.bp := mput 0 s.part.bp (2 * k + 1) (w1 - w64 (2 ^ 32)) }
    else
      match fld (bpWord s k false) 62 60 with
      | 1 => .next (beginStop s unit name sb)
      | 2 =>
        let l := s.part.samples ++ [(s.vc.id, [name])]
        .next { s with part.samples := l.drop (l.length - 16) }
      | 3 =>
        let die := devCluster s / 16
        .next (setTrace s die ((traceOf s die).trigger s.dev.refbeat))
      | _ => .next s

/-- A virtual core that a debug stop holds goes on (R269, R404). -/
def VC.resumeStop (v : VC) : VC := { v.fenceAnew with stop := [], held := false }

/-- DEBUG_RESUME: a write to RESUME ends the stop of the VF's partition (R404, R408). -/
def execDebugResume (fn : BitVec 5) (s : State) : Out :=
  .next (vfReply s fn (fun t =>
    if t.part.dstops.isEmpty then (t, .done)
    else
      let t1 := allVC { t with part.dstops := [] } VC.resumeStop
      (if allReturned t1 then { t1 with launch.frozen := none } else t1, .done)))

/-! ### Errors in storage (R394, R395) -/

/-- An error in what the words of queue q read is a fault against the queue (R394): against its word in flight, for a copy with
the record of R233, else against the head that waits, else with no word. -/
def queueError (s : State) (q : Queue) (res : Nat) : State :=
  match s.vc.eng.flights.find? (fun f => f.q == q && !f.faulted && !f.ended && f.chan.isNone) with
  | some f =>
    (match f.copy with
     | some j => copyFault s f j (match nextLine j with
         | some (_, k) => k
         | none => 0) 0x28 res 0
     | none => setFlight (queueFault s q f.entry 0x28 res (wordTval f.entry)) { f with faulted := true, done := none })
  | none =>
    match headOf s q with
    | some e => queueFault s q e 0x28 res (wordTval e)
    | none =>
      raiseAt s s.vc.id { src := qCode q + 1, cause := 0x28, detail := res, tval := 0, beat := s.vc.now, name := 0,
                          seq := none, tepc := none }

/-- An error that cannot be corrected is a fault against the unit that meets it, numbered as in TCAUSE (R371, R394). -/
def unitError (s : State) (res src : Nat) : Out :=
  if !s.launch.live || decide (s.vc.run = .idle) then .next s
  else
    match src with
    | 0 => ctlFault s 0x28 res 0
    | 7 => .next (flightFault s s.vc.id 0x28 res 0 0 none)
    | 8 => .next (queueError s .vx res)
    | n =>
      match allQueues[n - 1]? with
      | some q => .next (queueError s q res)
      | none => .next s

/-- An uncorrectable error in a darning buffer sets vote flag 5 in an open step: of the virtual core that it is for, or of the device
(R297, R394). -/
def eccVote (s : State) (b : Darn) : State :=
  match (if b.owner = launchTag s then b.vc.bind (getVC s) else none) with
  | some v =>
    if v.stepOpen then updVC s v.id (fun u => u.voteFlag 5)
    else { s with part.devVote := if s.part.openEp.isSome then s.part.devVote ||| 32 else s.part.devVote }
  | none => { s with part.devVote := if s.part.openEp.isSome then s.part.devVote ||| 32 else s.part.devVote }

/-- The unit whose queue a micro-order at this place of the control store goes to, or 0 where no table holds the place (R394, code 5). -/
def tableUnit (s : State) (place : Nat) : Nat :=
  let w := mget 0 s.vc.tbl.store place
  match s.vc.tbl.dir.find? (fun p => decide (p.2.offset ≤ place) && decide (place < p.2.offset + p.2.length)) with
  | none => 0
  | some d =>
    match engOfCode d.2.home with
    | .ld => 1
    | .st => 6
    | .cmp =>
      if (majorOf w).toNat = 0x3B then 8
      else
        match queueOfMajor (majorOf w).toNat with
        | some q => if qEngine q = .cmp then qCode q + 1 else 2
        | none => 2

/-- An error that cannot be corrected, by resource (R394): a clean line is fetched again and counts as corrected; block
metadata end the launch; a darning buffer loses its latest fragment; a trace record reads as ones. Lines are named by
number, buffers and records by place. -/
def storageError (s : State) (res src place : Nat) : Out :=
  match res with
  | 1 =>
    if holds s.vc.icache place then
      .next (bumpCount { s with vc.icache := s.vc.icache.filter (fun l => l.line != place) } 0x101)
    else .next s
  | 2 =>
    (match s.vc.dcache.find? (fun l => l.line == place) with
     | none => .next s
     | some l =>
       if l.dirty = 0 then .next (bumpCount { s with vc.dcache := s.vc.dcache.filter (fun x => x.line != place) } 0x102)
       else unitError s 2 0)
  | 4 => unitError s 4 2
  | 5 => if tableUnit s place = 0 then .next s else unitError s 5 (tableUnit s place)
  | 7 =>
    (match s.part.l2.find? (fun p => p.line == place) with
     | none => .next s
     | some p => if p.dirty then unitError s 7 src else .next (bumpCount (chargeTo s none .hbm 1) 0x107))
  | 8 =>
    .next { s with part.poison := if s.part.poison.contains place then s.part.poison else place :: s.part.poison }
  | 9 =>
    let vote := if s.part.openEp.isSome then s.part.devVote ||| 32 else s.part.devVote
    if s.launch.live then
      (match endLaunch (countError s 0x28 9) 3 0x28 9 with
       | .next t => .next { t with part.devVote := t.part.devVote ||| vote }
       | r => r)
    else .next { s with part.devVote := vote }
  | 10 =>
    (match s.part.darns[place]? with
     | none => .next s
     | some b =>
       if b.state = .filling then
         .next (eccVote { s with part.darns := s.part.darns.set place { b with frags := b.frags.dropLast } } b)
       else .next s)
  | 11 =>
    let die := devCluster s / 16
    let t := traceOf s die
    (match t.recs[place]? with
     | none => .next s
     | some r => .next (setTrace s die { t with recs := t.recs.set place (r.1, r.2.1, 0xFFFFFFFF) }))
  | _ => unitError s res src

/-- A way of L2 is disabled: the line that it holds leaves, written back when dirty; of a set with fewer than two ways left every line
does (R257, R395). -/
def disableL2 (s : State) (way : Nat) : State :=
  let set := way / 16
  let s1 : State := { s with dev.ways := s.dev.ways ++ [l2SetNo s set * 16 + way % 16] }
  let out := s1.part.l2.filter (fun p => l2SetOf s1 p.line == set && (p.way == way % 16 || decide (l2Ways s1 set < 2)))
  chargeTo { s1 with part.l2 := s1.part.l2.filter (fun p => !out.contains p) } none .hbm (out.filter (fun p => p.dirty)).length

/-- A way of a CTL cache of the virtual core in focus is disabled; the line that it holds leaves, written back when dirty (R395). -/
def disableCtl (s : State) (cache way : Nat) : State :=
  let set := way / 4
  let s1 : State := { s with dev.ways := s.dev.ways ++ [ctlWayNo s cache set + way % 4] }
  let out (l : CLn) : Bool := l.line % ctlSets s1 == set && l.way == way % 4
  if cache = 0 then ((s1.vc.dcache.filter out).map (fun l => l.line)).foldl dropLine s1
  else { s1 with vc.icache := s1.vc.icache.filter (fun l => !out l) }

/-- The number of a scratchpad row of the share among the device's rows: physical core, bank, row. -/
def rowNo (s : State) (off : Nat) : Nat :=
  let a := s.vc.id % s.m * s.share + off
  (physCore s (coreOf s s.vc.id) * 64 + bankOf a) * 1024 + rowOf a

/-- An error of `res` that is corrected: it is counted, and the way or row that reaches 4 within a window is disabled or
marked (R395). A way's place is its set times the ways plus the way, a row's its offset in the share. -/
def correctedError (s : State) (res place : Nat) : State :=
  let s1 := bumpCount s (0x100 + res)
  let no : Option Nat := match res with
    | 1 => if place < 4 * ctlSets s then some (ctlWayNo s 1 (place / 4) + place % 4) else none
    | 2 => if place < 4 * ctlSets s then some (ctlWayNo s 0 (place / 4) + place % 4) else none
    | 3 => if place < s.share then some (2 ^ 50 + rowNo s place) else none
    | 7 => if place < s.np / 8 * 32768 then some (l2SetNo s (place / 16) * 16 + place % 16) else none
    | _ => none
  match no with
  | none => s1
  | some k =>
    let n := mget 0 s1.dev.corrected k + 1
    let s2 : State := { s1 with dev.corrected := mput 0 s1.dev.corrected k n }
    if n < 4 || s2.dev.ways.contains k || s2.dev.rows.contains (k - 2 ^ 50) && decide (res = 3) then s2
    else
      match res with
      | 1 => disableCtl s2 1 place
      | 2 => disableCtl s2 0 place
      | 3 => { s2 with dev.rows := s2.dev.rows ++ [k - 2 ^ 50] }
      | _ => disableL2 s2 place

/-- The oldest physical error that the virtual core has reached, of those that no word's completion finds, is found. -/
def hitBeat (s : State) : Out :=
  match nextHit s (fun u => match u with
      | .audit _ => false
      | _ => true) with
  | none => .next s
  | some h =>
    let s1 := dropHit s h
    match h.what with
    | .uncorrectable res src place => storageError s1 res src place
    | .corrected res place => .next (correctedError s1 res place)
    | .audit _ => .next s1

/-- CORRECTED_ERROR_WINDOW_END: a window of 2^32 reference beats closes and the counts start anew (R395). -/
def execCorrectedErrorWindowEnd (s : State) : Out := .next { s with dev.corrected := [] }

end Sys2Proof.Machine
end

