-- ==== Sys2Proof/Machine/Branch.lean ====
section
/-! DEFINITION. Branches and jumps of majors 0x18 to 0x20 (05_control R123, R124). -/

namespace Sys2Proof.Machine

/-- A branch: to A + 4·sext(off) when the condition holds, else on (R123). -/
def branchOp (s : State) (c : Bool) (off : BitVec 14) (ext : Option (BitVec 24)) : Out :=
  .next (retireTo (charge s .eint)
    (if c then wordAddr s ext + (imm14 off ext <<< 2) else s.vc.ctl.pc + extLen ext))

/-- beq: equal (R123). -/
def execBeq (ra rb : BitVec 6) (off : BitVec 14) (ext : Option (BitVec 24)) (s : State) : Out :=
  branchOp s (xr s ra == xr s rb) off ext

/-- bne: not equal (R123). -/
def execBne (ra rb : BitVec 6) (off : BitVec 14) (ext : Option (BitVec 24)) (s : State) : Out :=
  branchOp s (xr s ra != xr s rb) off ext

/-- blt: less than, signed (R123). -/
def execBlt (ra rb : BitVec 6) (off : BitVec 14) (ext : Option (BitVec 24)) (s : State) : Out :=
  branchOp s ((xr s ra).slt (xr s rb)) off ext

/-- bge: greater or equal, signed (R123). -/
def execBge (ra rb : BitVec 6) (off : BitVec 14) (ext : Option (BitVec 24)) (s : State) : Out :=
  branchOp s (!(xr s ra).slt (xr s rb)) off ext

/-- bltn: less than, unsigned (R123). -/
def execBltn (ra rb : BitVec 6) (off : BitVec 14) (ext : Option (BitVec 24)) (s : State) : Out :=
  branchOp s ((xr s ra).ult (xr s rb)) off ext

/-- bgen: greater or equal, unsigned (R123). -/
def execBgen (ra rb : BitVec 6) (off : BitVec 14) (ext : Option (BitVec 24)) (s : State) : Out :=
  branchOp s (!(xr s ra).ult (xr s rb)) off ext

/-- j: to A + 4·sext(off) (R124). -/
def execJ (off : BitVec 26) (ext : Option (BitVec 24)) (s : State) : Out :=
  .next (retireTo (charge s .eint) (wordAddr s ext + off26 off ext))

/-- jal: as j, with x1 := A + 4 (R124). -/
def execJal (off : BitVec 26) (ext : Option (BitVec 24)) (s : State) : Out :=
  .next (retireTo (setX (charge s .eint) 1 (wordAddr s ext + 4)) (wordAddr s ext + off26 off ext))

/-- jalr: to t = xa + imm, with xd := A + 4; a fetch-alignment fault that writes nothing when t[1:0] ≠ 0 (R29, R124). -/
def execJalr (rd ra : BitVec 6) (imm : BitVec 14) (ext : Option (BitVec 24)) (s : State) : Out :=
  let t := xr s ra + imm14 imm ext
  if t.extractLsb' 0 2 ≠ 0 then ctlFault s 0x02 0 t
  else .next (retireTo (setX (charge s .eint) rd (wordAddr s ext + 4)) t)

end Sys2Proof.Machine
end

