-- ==== Sys2Proof/Machine/CopyBlocks.lean ====
section
/-! DEFINITION. Copy control blocks: major 0x2B (11_copy_hbm R222-R224). -/

namespace Sys2Proof.Machine

/-- Word w of block k. -/
def VC.ccbWord (v : VC) (k w : Nat) : Word32 := mget 0 v.b (16 * k + w)

/-- ccb.wr: word w of bd := xa[31:0] (R223). -/
def execCcbWr (k : BitVec 4) (ra : BitVec 6) (w : BitVec 4) (s : State) : Out :=
  restricted s <| sysNext { s with vc.b := mput 0 s.vc.b (16 * k.toNat + w.toNat) ((xr s ra).setWidth 32) }

/-- ccb.rd: word w of ba, zero-extended (R223). DEDUCED (log 79): reserved bits read as they were written. -/
def execCcbRd (rd : BitVec 6) (k : BitVec 4) (w : BitVec 4) (s : State) : Out :=
  restricted s <| .next (retire (setX (charge s .sys) rd ((s.vc.ccbWord k.toNat w.toNat).setWidth 64)))

/-- Sixteen 4-byte CTL loads from va on (R223). -/
def loadWords32 (s : State) (va : Word64) : Nat → MemR (List Nat)
  | 0 => .ok s []
  | n + 1 =>
    match ctlLoad s va 4 with
    | .fault s1 c d => .fault s1 c d
    | .wait s1 => .wait s1
    | .ok s1 v =>
      match loadWords32 s1 (va + 4) n with
      | .fault s2 c d => .fault s2 c d
      | .wait s2 => .wait s2
      | .ok s2 r => .ok s2 (v :: r)

/-- The state after the translation of va for a store, with its walk charged and kept (R249, R250). -/
def translated (s : State) (va : Nat) : State :=
  if inMap va then s
  else
    match translate s va .write with
    | .ok s1 _ => s1
    | .fault s1 _ _ => s1
    | .wait s1 => s1

/-- Sixteen 4-byte CTL stores from va on; a fault or a wait leaves memory as it was (R223). -/
def storeWords32 (s : State) (va : Word64) : List Nat → MemR Unit
  | [] => .ok s ()
  | w :: r =>
    match ctlStore s va (leBytes w 4) with
    | .ok s1 _ =>
      (match storeWords32 s1 (va + 4) r with
       | .ok s2 _ => .ok s2 ()
       | .fault _ c d => .fault (translated s va.toNat) c d
       | .wait s2 => .wait { translated s va.toNat with vc.ctl.matched := s2.vc.ctl.matched })
    | x => x

/-- ccb.ld: bd := the 64 bytes at xa; a fault at any word leaves bd unchanged (R223). -/
def execCcbLd (k : BitVec 4) (ra : BitVec 6) (s : State) : Out :=
  restricted s <|
    let a := xr s ra
    if fld a 63 56 ≠ 0 then ctlFault s 4 0 a
    else if a.toNat % 64 ≠ 0 then ctlFault s 3 0 a
    else
      memThen s (firstFault s a 4 16) (loadWords32 s a 16) (fun t ws =>
        sysNext { t with vc.b := mputs 0 t.vc.b (16 * k.toNat) (ws.map (fun w => BitVec.ofNat 32 w)) })

/-- The address at which the first of the sixteen stores faults, for TVAL. -/
def firstStoreFault (s : State) (va : Word64) : List Nat → Word64
  | [] => va
  | w :: r =>
    match ctlStore s va (leBytes w 4) with
    | .ok s1 _ => firstStoreFault s1 (va + 4) r
    | _ => va

/-- ccb.st: the 64 bytes at xa := bd; a fault at any word leaves memory unchanged (R223). -/
def execCcbSt (k : BitVec 4) (ra : BitVec 6) (s : State) : Out :=
  restricted s <|
    let a := xr s ra
    let ws := (mgets 0 s.vc.b (16 * k.toNat) 16).map (fun w => w.toNat)
    if fld a 63 56 ≠ 0 then ctlFault s 4 0 a
    else if a.toNat % 64 ≠ 0 then ctlFault s 3 0 a
    else memThen s (firstStoreFault s a ws) (storeWords32 s a ws) (fun t _ => sysNext t)

end Sys2Proof.Machine
end

