-- ==== Sys2Proof/Machine/Csr.lean ====
section
/-! DEFINITION. Control and status registers: major 0x21 (05_control R130-R133; R92, R111, R293, R362, R371-R382). -/

namespace Sys2Proof.Machine

/-- STRETCH of the die (R111). -/
def stretchWord (s : State) : Word64 :=
  let t := mget ⟨0, none, 0⟩ s.dev.stretch (dieOf s)
  w64 (b2n t.pend.isSome * 256 + t.k)

/-- DEADLINE: the request flag, and the beats left or the allowance (R382). -/
def deadlineWord (s : State) : Word64 :=
  match s.launch.req with
  | none => w64 s.part.dlallow
  | some q => if reqSet s then w64 (2 ^ 63 + (q + s.part.dlallow - frameCount s) % 2 ^ 24) else w64 s.part.dlallow

/-- The value of a CSR (R131). -/
def csrGet (s : State) (c : BitVec 12) : Word64 :=
  match c.toNat with
  | 0x000 => s.vc.ctl.flags
  | 0x001 => s.vc.ctl.frm
  | 0x008 => w64 s.vc.ctl.instret
  | 0x010 => w64 s.vc.id
  | 0x030 => s.vc.ctl.tvec
  | 0x031 => s.vc.ctl.tepc
  | 0x032 => s.vc.ctl.tcause
  | 0x033 => s.vc.ctl.tval
  | 0x034 => tstatus s
  | 0x035 => s.vc.ctl.tscratch
  | 0x036 => deadlineWord s
  | 0x040 => s.vc.ctl.tokmap
  | 0x041 => stretchWord s
  | 0x050 => s.vc.ctl.lossLimit
  | 0x060 => w64 (s.vc.acct / 256000)
  | _ => 0

/-- Two FIFOs of a map share source and sink, neither code 3 (R92). -/
def mapClash (v : Word64) : Bool :=
  (countUp 0 4).any (fun f => (countUp 0 4).any (fun g =>
    decide (f < g) && tokSrc v f == tokSrc v g && tokSink v f == tokSink v g
      && tokSrc v f != 3 && tokSink v f != 3))

/-- A FIFO's source equals its sink, not code 3 (R92). -/
def mapSelf (v : Word64) : Bool := (countUp 0 4).any (fun f => tokSrc v f == tokSink v f && tokSrc v f != 3)

/-- TOKMAP rejects a value: a reserved bit, a bad map, a nonzero count, or a word in a queue (R92, R94). -/
def tokmapBad (s : State) (v : Word64) : Bool :=
  decide (fld v 63 16 ≠ 0) || mapSelf v || mapClash v || (countUp 0 4).any (fun f => tokAtBeat s f != 0)
    || allQueues.any (fun q => !(s.vc.eng.q q).entries.isEmpty)

/-- The bits that a write to a CSR changes; its reserved bits read zero and ignore writes (R6, R132, R133, R293,
R373). -/
def csrMask (c : BitVec 12) : Word64 :=
  match c.toNat with
  | 0x000 => 0x1FF
  | 0x001 => 3
  | 0x030 => 0x00FFFFFFFFFFFFFC
  | 0x031 => 0x00FFFFFFFFFFFFFF
  | 0x050 => 0xFFFFFFFF
  | _ => 0xFFFFFFFFFFFFFFFF

/-- Write a read-write CSR. -/
def csrSet (s : State) (c : BitVec 12) (v : Word64) : State :=
  let w := v &&& csrMask c
  match c.toNat with
  | 0x000 => { s with vc.ctl.flags := w }
  | 0x001 => { s with vc.ctl.frm := w }
  | 0x030 => { s with vc.ctl.tvec := w }
  | 0x031 => { s with vc.ctl.tepc := w }
  | 0x035 => { s with vc.ctl.tscratch := w }
  | 0x040 => { s with vc.ctl.tokmap := w }
  | 0x050 => { s with vc.ctl.lossLimit := w }
  | _ => s

/-- A CSR word that writes `v`: xd takes the old value; a rejected TOKMAP value raises a token-map fault and changes
nothing (R92, R130). -/
def csrOp (s : State) (rd : BitVec 6) (c : BitVec 12) (v : Word64) : Out :=
  if c = 0x040 ∧ tokmapBad s v = true then ctlFault s 0x10 0 0
  else .next (retire (setX (csrSet (charge s .csr) c v) rd (csrGet s c)))

/-- csr.rd: xd := the CSR; nothing else changes (R130). -/
def execCsrRd (rd : BitVec 6) (csr : BitVec 12) (s : State) : Out :=
  .next (retire (setX (charge s .csr) rd (csrGet s csr)))

/-- csr.wr: exchange (R130). -/
def execCsrWr (rd ra : BitVec 6) (csr : BitVec 12) (s : State) : Out := csrOp s rd csr (xr s ra)

/-- csr.or: set the bits that are 1 in xa (R130). -/
def execCsrOr (rd ra : BitVec 6) (csr : BitVec 12) (s : State) : Out := csrOp s rd csr (csrGet s csr ||| xr s ra)

/-- csr.andn: clear the bits that are 1 in xa (R130). -/
def execCsrAndn (rd ra : BitVec 6) (csr : BitVec 12) (s : State) : Out := csrOp s rd csr (csrGet s csr &&& ~~~xr s ra)

end Sys2Proof.Machine
end

