-- ==== Sys2Proof/Machine/Digest.lean ====
section
/-! DEFINITION. The digests that the trusted root computes (20_host_bringup R411, R412): SHA-256 and SHA-384. PRESUMED (log 83): the
spec names them and does not write them out; they are those of FIPS 180-4. -/

namespace Sys2Proof.Machine

/-! ### The constants: first bits of the fractions of roots of primes -/

/-- n is prime. -/
def isPrime (n : Nat) : Bool := decide (2 ≤ n) && (countUp 2 (n - 2)).all (fun d => n % d != 0)

/-- The first n primes, none of them above 409 for n up to 80. -/
def firstPrimes (n : Nat) : List Nat := ((countUp 2 408).filter isPrime).take n

/-- The greatest x below 2^k with x^e ≤ v. -/
def rootBelow (e v : Nat) : Nat → Nat
  | 0 => 0
  | k + 1 =>
    let r := rootBelow e (v / 2 ^ e) k
    if (2 * r + 1) ^ e ≤ v then 2 * r + 1 else 2 * r

/-- The first w bits of the fraction of the e-th root of p. -/
def rootBits (e w p : Nat) : Nat := rootBelow e (p * 2 ^ (e * w)) (w + 8) % 2 ^ w

/-! ### The compression function -/

/-- What tells the two families apart: the word's bits, the rounds, and the rotations of their four functions. -/
structure ShaKind where
  w      : Nat
  rounds : Nat
  big0   : List Nat
  big1   : List Nat
  small0 : List Nat
  small1 : List Nat
  deriving DecidableEq, Repr, Inhabited

def sha256Kind : ShaKind := ⟨32, 64, [2, 13, 22], [6, 11, 25], [7, 18, 3], [17, 19, 10]⟩
def sha512Kind : ShaKind := ⟨64, 80, [28, 34, 39], [14, 18, 41], [1, 8, 7], [19, 61, 6]⟩

/-- x rotated right by n bits. -/
def ShaKind.rotr (k : ShaKind) (x n : Nat) : Nat := (x / 2 ^ n + x * 2 ^ (k.w - n)) % 2 ^ k.w

/-- Three rotations of x, or two and a shift. -/
def ShaKind.sigma (k : ShaKind) (r : List Nat) (shift : Bool) (x : Nat) : Nat :=
  let last := if shift then x / 2 ^ listAt 0 r 2 else k.rotr x (listAt 0 r 2)
  k.rotr x (listAt 0 r 0) ^^^ k.rotr x (listAt 0 r 1) ^^^ last

/-- The message schedule, the newest word first, from the sixteen words of the block. -/
def ShaKind.schedule (k : ShaKind) (ws : List Nat) : List Nat :=
  (countUp 16 (k.rounds - 16)).foldl
    (fun l _ => (k.sigma k.small1 true (listAt 0 l 1) + listAt 0 l 6 + k.sigma k.small0 true (listAt 0 l 14) + listAt 0 l 15)
      % 2 ^ k.w :: l) ws.reverse

/-- One round on the eight working variables, with its constant and schedule word. -/
def ShaKind.round (k : ShaKind) (h : List Nat) (c w : Nat) : List Nat :=
  let m := 2 ^ k.w
  let v (i : Nat) : Nat := listAt 0 h i
  let ch := (v 4 &&& v 5) ^^^ ((m - 1 - v 4) &&& v 6)
  let maj := (v 0 &&& v 1) ^^^ (v 0 &&& v 2) ^^^ (v 1 &&& v 2)
  let t1 := v 7 + k.sigma k.big1 false (v 4) + ch + c + w
  let t2 := k.sigma k.big0 false (v 0) + maj
  [(t1 + t2) % m, v 0, v 1, v 2, (v 3 + t1) % m, v 4, v 5, v 6]

/-- The hash value after a block of sixteen words. -/
def ShaKind.block (k : ShaKind) (h ws : List Nat) : List Nat :=
  let cs := (firstPrimes k.rounds).map (rootBits 3 k.w)
  let out := (cs.zip (k.schedule ws).reverse).foldl (fun x p => k.round x p.1 p.2) h
  (h.zip out).map (fun p => (p.1 + p.2) % 2 ^ k.w)

/-- A number as n bytes, the most significant first. -/
def beBytes (v n : Nat) : List Byte := (leBytes v n).reverse

/-- The number of a byte list, the most significant first. -/
def beNat (d : List Byte) : Nat := leNat d.reverse

/-- The message padded to whole blocks: a one bit, zeros, its length in bits in two words. -/
def ShaKind.pad (k : ShaKind) (d : List Byte) : List Byte :=
  let b := 2 * k.w
  let zeros := (2 * b - (d.length + 1 + k.w / 4) % b) % b
  d ++ [0x80] ++ List.replicate zeros 0 ++ beBytes (8 * d.length) (k.w / 4)

/-- The hash value of a message from an initial one, as bytes. -/
def ShaKind.digest (k : ShaKind) (init : List Nat) (d : List Byte) : List Byte :=
  let m := k.pad d
  let n := k.w / 8
  let word (j i : Nat) : Nat := beNat ((m.drop (16 * n * j + n * i)).take n)
  ((countUp 0 (m.length / (16 * n))).foldl (fun h j => k.block h ((countUp 0 16).map (word j))) init).flatMap
    (fun x => beBytes x n)

/-- SHA-256: the square roots of the first eight primes. -/
def sha256 (d : List Byte) : List Byte := sha256Kind.digest ((firstPrimes 8).map (rootBits 2 32)) d

/-- SHA-384: the square roots of the ninth to the sixteenth prime, and the first 48 bytes. -/
def sha384 (d : List Byte) : List Byte := (sha512Kind.digest (((firstPrimes 16).drop 8).map (rootBits 2 64)) d).take 48

end Sys2Proof.Machine
end

