-- ==== Sys2Proof/Machine/Signature.lean ====
section
/-! DEFINITION. The two signatures that an image carries (20_host_bringup R411): ECDSA over P-384 and LMS with SHA-256, H20 and W8.
PRESUMED (log 83): the spec names the schemes and does not write them out; they are those of FIPS 186-5 and RFC 8554, with a public key of
the two coordinates and a signature of r and s, 48 bytes each, the most significant byte first. -/

namespace Sys2Proof.Machine

/-! ### Arithmetic mod a prime -/

/-- b^e mod m, over k bits of e. -/
def powMod (b e m : Nat) : Nat → Nat
  | 0 => 1 % m
  | k + 1 =>
    let h := powMod (b * b % m) (e / 2) m k
    if e % 2 = 1 then b * h % m else h

/-- The inverse of a mod the prime m of 384 bits. -/
def invMod (a m : Nat) : Nat := powMod a (m - 2) m 384

/-! ### The curve P-384 -/

def p384 : Nat := 2 ^ 384 - 2 ^ 128 - 2 ^ 96 + 2 ^ 32 - 1
/-- The order of the base point. -/
def n384 : Nat := 0xffffffffffffffffffffffffffffffffffffffffffffffffc7634d81f4372ddf581a0db248b0a77aecec196accc52973
def b384 : Nat := 0xb3312fa7e23ee7e4988e056be3f82d19181d9c6efe8141120314088f5013875ac656398d8a2ed19d2a85c8edd3ec2aef

/-- A point of the curve; none is the point at infinity. -/
abbrev CurvePoint := Option (Nat × Nat)

/-- The base point. -/
def base384 : CurvePoint :=
  some (0xaa87ca22be8b05378eb1c71ef320ad746e1d3b628ba79b9859f741e082542a385502f25dbf55296c3a545e3872760ab7,
    0x3617de4a96262c6f5d9e98bf9292dc29f8f41dbd289a147ce9da3113b5f0b8c00a60b1ce1d7e819d7a431d7c90ea0e5f)

/-- y² = x³ − 3x + b. -/
def onCurve (x y : Nat) : Bool :=
  decide (x < p384) && decide (y < p384) && decide (y * y % p384 = (x * x * x + (p384 - 3) * x + b384) % p384)

/-- The sum of two points. -/
def curveAdd (a b : CurvePoint) : CurvePoint :=
  match a, b with
  | none, q => q
  | p, none => p
  | some (x1, y1), some (x2, y2) =>
    if x1 = x2 ∧ (y1 + y2) % p384 = 0 then none
    else
      let l := if x1 = x2 then (3 * x1 * x1 + (p384 - 3)) * invMod (2 * y1 % p384) p384 % p384
        else (y2 + p384 - y1) * invMod ((x2 + p384 - x1) % p384) p384 % p384
      let x3 := (l * l + 2 * p384 - x1 - x2) % p384
      some (x3, (l * (x1 + p384 - x3) + (p384 - y1)) % p384)

/-- k times a point, over n bits of k. -/
def curveMul (k : Nat) (p : CurvePoint) : Nat → CurvePoint
  | 0 => none
  | n + 1 =>
    let h := curveMul (k / 2) (curveAdd p p) n
    if k % 2 = 1 then curveAdd p h else h

/-- The ECDSA signature of a message verifies under a public key. -/
def ecdsaVerify (key msg sig : List Byte) : Bool :=
  let x := beNat (key.take 48)
  let y := beNat (key.drop 48)
  let r := beNat (sig.take 48)
  let s := beNat (sig.drop 48)
  let w := invMod s n384
  let u1 := beNat (sha384 msg) * w % n384
  let u2 := r * w % n384
  key.length == 96 && sig.length == 96 && onCurve x y && decide (1 ≤ r) && decide (r < n384) && decide (1 ≤ s) && decide (s < n384)
    && (match curveAdd (curveMul u1 base384 384) (curveMul u2 (some (x, y)) 384) with
        | none => false
        | some p => p.1 % n384 == r)

/-! ### LMS -/

/-- Field k of 32 bytes of a list, from byte `o` on. -/
def lmsField (d : List Byte) (o k : Nat) : List Byte := (d.drop (o + 32 * k)).take 32

/-- A chain of hashes, from step j on. -/
def lmsChain (pre : List Byte) (i : Nat) (x : List Byte) : Nat → Nat → List Byte
  | _, 0 => x
  | j, n + 1 => lmsChain pre i (sha256 (pre ++ beBytes i 2 ++ beBytes j 1 ++ x)) (j + 1) n

/-- The digest with its checksum: one digit of the chains a byte (W8). -/
def lmsDigits (q : List Byte) : List Nat :=
  let ds := q.map (fun b => b.toNat)
  let sum := ds.foldl (fun a d => a + (255 - d)) 0
  ds ++ [sum / 256, sum % 256]

/-- The root that a path leads to from node n. -/
def lmsClimb (id : List Byte) (x : List Byte) : Nat → List (List Byte) → List Byte
  | _, [] => x
  | n, p :: r =>
    lmsClimb id (sha256 (id ++ beBytes (n / 2) 4 ++ [0x83, 0x83] ++ (if n % 2 = 1 then p ++ x else x ++ p))) (n / 2) r

/-- The LMS signature of a message verifies under a public key: type 8 (SHA-256, H20), one-time type 4 (W8). -/
def lmsVerify (key msg sig : List Byte) : Bool :=
  let id := (key.drop 8).take 16
  let q := beNat (sig.take 4)
  let pre := id ++ sig.take 4
  let digest := sha256 (pre ++ [0x81, 0x81] ++ (sig.drop 8).take 32 ++ msg)
  let digits := lmsDigits digest
  let ends := (countUp 0 34).flatMap (fun i => lmsChain pre i (lmsField sig 40 i) (listAt 0 digits i) (255 - listAt 0 digits i))
  let one := sha256 (pre ++ [0x80, 0x80] ++ ends)
  let leaf := sha256 (id ++ beBytes (2 ^ 20 + q) 4 ++ [0x82, 0x82] ++ one)
  let path := (countUp 0 20).map (lmsField sig 1132)
  key.length == 56 && sig.length == 1772 && beNat (key.take 4) == 8 && beNat ((key.drop 4).take 4) == 4 && decide (q < 2 ^ 20)
    && beNat ((sig.drop 4).take 4) == 4 && beNat ((sig.drop 1128).take 4) == 8
    && lmsClimb id leaf (2 ^ 20 + q) path == key.drop 24

end Sys2Proof.Machine
end

