-- ==== Sys2Proof/Machine/Firmware.lean ====
section
/-! DEFINITION. Power-on, firmware images, quotes, link changes and the management bus (20_host_bringup R409-R413). -/

namespace Sys2Proof.Machine

/-! ### Measurement and images (R411, R412) -/

/-- A kind of image as a number. -/
def imageKind : ImageKind → Nat
  | .monitor => 0 | .coefficients => 1 | .bitmap => 2 | .scheduler => 3

/-- The measurement register of a kind of image (R412). -/
def imageMr : ImageKind → Nat
  | .monitor => 0 | .coefficients => 1 | .bitmap => 1 | .scheduler => 2

/-- Measurement register i: 48 bytes, zero at power-on (R412). -/
def mrOf (s : State) (i : Nat) : List Byte := mget (List.replicate 48 0) s.dev.mr i

/-- MRi := SHA-384(MRi :: SHA-384(image)) (R412). -/
def extendMr (s : State) (i : Nat) (img : List Byte) : State :=
  { s with dev.mr := mput (List.replicate 48 0) s.dev.mr i (sha384 (mrOf s i ++ sha384 img)) }

/-- The root accepts an image: both signatures verify, against keys whose digests are fused, and its version is not below the fused minimum
(R411). -/
def imageOkay (img : Image) : Bool :=
  sha384 img.ecdsaKey == Config.fusedEcdsa && sha384 img.lmsKey == Config.fusedLms && ecdsaVerify img.ecdsaKey img.bytes img.ecdsaSig
    && lmsVerify img.lmsKey img.bytes img.lmsSig && decide ((Config.fusedMin img.kind).toNat ≤ img.version.toNat)

/-- Set a bit of READY1 (R409). -/
def setReady (s : State) (bit : Nat) (v : Bool) : State := { s with dev.ready := mput false s.dev.ready (64 + bit) v }

/-- A coefficient set is installed: each partition takes it at its first beat without an open epoch (R363). -/
def installCoefs (s : State) (img : Image) : State :=
  s.partIds.foldl (fun t q => inPart t q (fun u => { u with part.nextCoefs := some (img.cset.toNat, img.coefs) })) s

/-- An accepted image takes effect (R363, R395, R409, R412). -/
def installImage (s : State) (img : Image) : State :=
  let s1 := extendMr { s with dev.versions := mput 0 s.dev.versions (imageKind img.kind) img.version.toNat } (imageMr img.kind)
    img.bytes
  match img.kind with
  | .monitor => s1
  | .coefficients => setReady (installCoefs s1 img) 46 true
  | .bitmap => { s1 with dev.ways := img.ways }
  | .scheduler => setReady s1 47 true

/-- The images that the device starts from: of each kind the one accepted last. -/
def keepImage (l : List Image) (img : Image) : List Image := l.filter (fun i => decide (i.kind ≠ img.kind)) ++ [img]

/-- QUOTE_REQUEST: the root signs MR0 to MR3, the identification word and the nonce (R412). -/
def execQuoteRequest (nonce : List (BitVec 8)) (s : State) : Out :=
  if nonce.length = 32 then
    .next (reply s .done (Config.quote ((countUp 0 4).map (mrOf s)) s.dev.ident nonce))
  else .next (reply s .refused)

/-! ### Power-on (R409, R412) -/

/-- The images of a kind that the device holds and the root accepts. -/
def bootImages (s : State) (k : ImageKind) : List Image :=
  s.dev.images.filter (fun i => decide (i.kind = k) && imageOkay i)

/-- Step 2 of R412: the READY bits that the monitor sets, one after another; a cluster with a core that has failed stays out (R393). DESIGN
CHOICE (log 97): the stacks first, and a bit at each beat of the device. -/
def startTraining (s : State) : State :=
  { s with dev.training := some (countUp 64 8 ++ (countUp 0 64).filter (clusterSound s)) }

/-- Steps 3 and 4 of R412: the coefficient set and the bitmaps are installed, and the scheduler firmware starts. -/
def endTraining (s : State) : State :=
  (bootImages s .coefficients ++ bootImages s .bitmap ++ bootImages s .scheduler).foldl installImage { s with dev.training := none }

/-- The monitor's next step while it brings the device up (R409, R412). A fabric link comes up with its own event. -/
def trainBeat (s : State) : State :=
  match s.dev.training with
  | none => s
  | some [] => endTraining s
  | some (b :: r) => { s with dev.ready := mput false s.dev.ready b true, dev.training := some r }

/-- The boot ROM verifies and measures the monitor, which then brings the device up; with none verified nothing goes on (R412). -/
def boot (s : State) : State :=
  let s1 : State := { s with dev.mr := [], dev.powered := true }
  match bootImages s1 .monitor with
  | [] => s1
  | m => startTraining (m.foldl installImage s1)

/-- POWER_ON (R412): every measurement register is zero. -/
def execPowerOn (s : State) : Out := if s.dev.powered then .next s else .next (boot s)

/-- An accepted image takes effect, when the monitor is there to install it: the first monitor brings the device up, and other images wait
for that (R412). -/
def takeImage (s : State) (img : Image) : State :=
  let kept : State := { s with dev.images := keepImage s.dev.images img }
  let up := !(bootImages s .monitor).isEmpty
  match img.kind with
  | .monitor => if up then installImage kept img else startTraining (installImage kept img)
  | _ => if up && s.dev.training.isNone then installImage kept img else kept

/-- FIRMWARE_IMAGE: the root verifies, measures and installs an image of the management function, or rejects it with status 1 (R406, R411,
R412). DESIGN CHOICE (log 98): one that names a VF is not permitted, and a device that is not powered takes none. -/
def execFirmwareImage (img : Image) (s : State) : Out :=
  if s.dev.powered = false then .next s
  else if isMgmt img.fn = false then .next (reply s .notPermitted)
  else if imageOkay img then .next (reply (takeImage s img) .done)
  else .next (reply s .refused)

/-- LINK_DOWN: a port's link fails; its READY bit clears and its plane loses fragments (R409). -/
def execLinkDown (port : BitVec 6) (s : State) : Out :=
  if 36 ≤ port.toNat then .next s
  else .next (setReady { s with dev.links := s.dev.links.filter (fun p => p != port.toNat) } (8 + port.toNat) false)

/-- LINK_UP: a port's link comes up; its READY bit is set and its plane carries fragments (R409). -/
def execLinkUp (port : BitVec 6) (s : State) : Out :=
  if 36 ≤ port.toNat then .next s
  else
    .next (setReady { s with dev.links := port.toNat :: s.dev.links.filter (fun p => p != port.toNat) } (8 + port.toNat) true)

/-- MANAGEMENT_RESET_REQUEST: the device restarts from the boot ROM; every partition's state is lost (R413). DESIGN CHOICE (log 99): the
images, the line-disable bitmap, what replaces failed cores, rows and slices, the cores marked, and what the sensors give outlast it. -/
def execManagementResetRequest (s : State) : Out :=
  .next (boot { State.reset with
    dev := { Dev.init with
      num := s.dev.num, images := s.dev.images, ways := s.dev.ways, retired := s.dev.retired, rows := s.dev.rows,
      rowSpares := s.dev.rowSpares, enabled := s.dev.enabled, dead := s.dev.dead, marked := s.dev.marked, temps := s.dev.temps,
      power := s.dev.power },
    inbox := s.inbox, upsets := s.upsets, fresh := s.fresh })

end Sys2Proof.Machine
end

