-- ==== Sys2Proof/Machine/LoadStore.lean ====
section
/-! DEFINITION. Loads and stores of majors 0x0C to 0x17 (05_control R120-R122). -/

namespace Sys2Proof.Machine

/-- The effective address (R120). -/
def effAddr (s : State) (ra : BitVec 6) (imm : BitVec 14) (ext : Option (BitVec 24)) : Word64 :=
  xr s ra + imm14 imm ext

/-- A load of n bytes: the value is extended by `f` into xd (R120, R121). -/
def loadOp (s : State) (rd ra : BitVec 6) (imm : BitVec 14) (ext : Option (BitVec 24)) (n : Nat)
    (f : Nat → Word64) : Out :=
  let a := effAddr s ra imm ext
  memThen s a (ctlLoad s a n) (fun t v =>
    .next (retireTo (setX (charge t .ld) rd (f v)) (s.vc.ctl.pc + extLen ext)))

/-- A store of the low n bytes of xs (R120, R121). -/
def storeOp (s : State) (rs ra : BitVec 6) (imm : BitVec 14) (ext : Option (BitVec 24)) (n : Nat) : Out :=
  let a := effAddr s ra imm ext
  memThen s a (ctlStore s a (leBytes (xr s rs).toNat n)) (fun t _ =>
    .next (retireTo (charge t .st) (s.vc.ctl.pc + extLen ext)))

/-- A load of 1 byte, sign-extended (R120). -/
def execLdI8 (rd ra : BitVec 6) (imm : BitVec 14) (ext : Option (BitVec 24)) (s : State) : Out :=
  loadOp s rd ra imm ext 1 (fun v => w64 (pat 64 (signed 8 v)))

/-- A load of 1 byte, zero-extended (R120). -/
def execLdN8 (rd ra : BitVec 6) (imm : BitVec 14) (ext : Option (BitVec 24)) (s : State) : Out :=
  loadOp s rd ra imm ext 1 (w64)

/-- A load of 2 bytes, sign-extended (R120). -/
def execLdI16 (rd ra : BitVec 6) (imm : BitVec 14) (ext : Option (BitVec 24)) (s : State) : Out :=
  loadOp s rd ra imm ext 2 (fun v => w64 (pat 64 (signed 16 v)))

/-- A load of 2 bytes, zero-extended (R120). -/
def execLdN16 (rd ra : BitVec 6) (imm : BitVec 14) (ext : Option (BitVec 24)) (s : State) : Out :=
  loadOp s rd ra imm ext 2 (w64)

/-- A load of 4 bytes, sign-extended (R120). -/
def execLdI32 (rd ra : BitVec 6) (imm : BitVec 14) (ext : Option (BitVec 24)) (s : State) : Out :=
  loadOp s rd ra imm ext 4 (fun v => w64 (pat 64 (signed 32 v)))

/-- A load of 4 bytes, zero-extended (R120). -/
def execLdN32 (rd ra : BitVec 6) (imm : BitVec 14) (ext : Option (BitVec 24)) (s : State) : Out :=
  loadOp s rd ra imm ext 4 (w64)

/-- A load of 8 bytes, zero-extended (R120). -/
def execLd64 (rd ra : BitVec 6) (imm : BitVec 14) (ext : Option (BitVec 24)) (s : State) : Out :=
  loadOp s rd ra imm ext 8 (w64)

/-- A store of 1 byte (R120). -/
def execSt8 (rs ra : BitVec 6) (imm : BitVec 14) (ext : Option (BitVec 24)) (s : State) : Out :=
  storeOp s rs ra imm ext 1

/-- A store of 2 bytes (R120). -/
def execSt16 (rs ra : BitVec 6) (imm : BitVec 14) (ext : Option (BitVec 24)) (s : State) : Out :=
  storeOp s rs ra imm ext 2

/-- A store of 4 bytes (R120). -/
def execSt32 (rs ra : BitVec 6) (imm : BitVec 14) (ext : Option (BitVec 24)) (s : State) : Out :=
  storeOp s rs ra imm ext 4

/-- A store of 8 bytes (R120). -/
def execSt64 (rs ra : BitVec 6) (imm : BitVec 14) (ext : Option (BitVec 24)) (s : State) : Out :=
  storeOp s rs ra imm ext 8

end Sys2Proof.Machine
end

