-- ==== Sys2Proof/Machine/ScalarFp.lean ====
section
/-! DEFINITION. Scalar floating point of major 0x0B (05_control R125-R129); the arithmetic stands in Num. -/

namespace Sys2Proof.Machine

/-- The rounding mode in FRM (R133). -/
def frmMode (s : State) : Rm := Rm.ofCode (fld s.vc.ctl.frm 1 0)

/-- The format that minor bit 7 selects (R43). -/
def fpOf (f64 : Bool) : Fp := if f64 then fpF64 else fpF32

/-- An operand: bits 31:0 for f32, all 64 for f64 (R113). -/
def fpArg (s : State) (f64 : Bool) (r : BitVec 6) : Nat := if f64 then (xr s r).toNat else (xr s r).toNat % 2 ^ 32

/-- A floating word: charge, write xd, OR its flags when it retires (R113, R125). -/
def fpOp (s : State) (rd : BitVec 6) (c : EClass) (r : Nat × Nat) : Out :=
  .next (retire (raiseFlags (setX (charge s c) rd (w64 r.1)) r.2))

/-- fadd: xa + xb, rounded once in the FRM mode (R125, R126). -/
def execFadd (rd ra rb : BitVec 6) (f64 : Bool) (s : State) : Out :=
  fpOp s rd .fp ((fpOf f64).add (frmMode s) (fpArg s f64 ra) (fpArg s f64 rb))

/-- fsub: xa - xb, rounded once in the FRM mode (R125, R126). -/
def execFsub (rd ra rb : BitVec 6) (f64 : Bool) (s : State) : Out :=
  fpOp s rd .fp ((fpOf f64).sub (frmMode s) (fpArg s f64 ra) (fpArg s f64 rb))

/-- fmul: xa · xb, rounded once in the FRM mode (R125, R126). -/
def execFmul (rd ra rb : BitVec 6) (f64 : Bool) (s : State) : Out :=
  fpOp s rd .fp ((fpOf f64).mul (frmMode s) (fpArg s f64 ra) (fpArg s f64 rb))

/-- fdiv: xa / xb, rounded once in the FRM mode (R125, R126). -/
def execFdiv (rd ra rb : BitVec 6) (f64 : Bool) (s : State) : Out :=
  fpOp s rd .fpl ((fpOf f64).div (frmMode s) (fpArg s f64 ra) (fpArg s f64 rb))

/-- fsqrt: √xa, rounded once in the FRM mode (R125, R126). -/
def execFsqrt (rd ra : BitVec 6) (f64 : Bool) (s : State) : Out :=
  fpOp s rd .fpl ((fpOf f64).sqrt (frmMode s) (fpArg s f64 ra))

/-- fmac: xd := rnd(xa · xb + xd), one rounding (R125). -/
def execFmac (rd ra rb : BitVec 6) (f64 : Bool) (s : State) : Out :=
  fpOp s rd .fp ((fpOf f64).fma (frmMode s) (fpArg s f64 ra) (fpArg s f64 rb) (fpArg s f64 rd))

/-- fmin: the lesser operand by R127. -/
def execFmin (rd ra rb : BitVec 6) (f64 : Bool) (s : State) : Out :=
  fpOp s rd .fp ((fpOf f64).minmax false (fpArg s f64 ra) (fpArg s f64 rb))

/-- fmax: the greater operand by R127. -/
def execFmax (rd ra rb : BitVec 6) (f64 : Bool) (s : State) : Out :=
  fpOp s rd .fp ((fpOf f64).minmax true (fpArg s f64 ra) (fpArg s f64 rb))

/-- A truth value and its flags as a result. -/
def boolRes (r : Bool × Nat) : Nat × Nat := (b2n r.1, r.2)

/-- fceq: 1 when equal (R128). -/
def execFceq (rd ra rb : BitVec 6) (f64 : Bool) (s : State) : Out :=
  fpOp s rd .fp (boolRes ((fpOf f64).ceq (fpArg s f64 ra) (fpArg s f64 rb)))

/-- fclt: 1 when xa < xb (R128). -/
def execFclt (rd ra rb : BitVec 6) (f64 : Bool) (s : State) : Out :=
  fpOp s rd .fp (boolRes ((fpOf f64).clt (fpArg s f64 ra) (fpArg s f64 rb)))

/-- fcle: 1 when xa ≤ xb (R128). -/
def execFcle (rd ra rb : BitVec 6) (f64 : Bool) (s : State) : Out :=
  fpOp s rd .fp (boolRes ((fpOf f64).cle (fpArg s f64 ra) (fpArg s f64 rb)))

/-- fclass: the class code; no flag (R128). -/
def execFclass (rd ra : BitVec 6) (f64 : Bool) (s : State) : Out :=
  fpOp s rd .fp ((fpOf f64).classCode (fpArg s f64 ra), 0)

/-- A sign operation: a NaN gives the canonical NaN, nv when it signals (R125, R126). -/
def signOp (f : Fp) (a r : Nat) : Nat × Nat :=
  match f.decode a with
  | .nan sg => (f.canonNan, if sg then fNv else 0)
  | _ => (r, 0)

/-- fabs: the sign cleared (R125, R126). -/
def execFabs (rd ra : BitVec 6) (f64 : Bool) (s : State) : Out :=
  let f := fpOf f64
  let a := fpArg s f64 ra
  fpOp s rd .fp (signOp f a (a % 2 ^ (f.eb + f.fb)))

/-- fneg: the sign inverted (R125, R126). -/
def execFneg (rd ra : BitVec 6) (f64 : Bool) (s : State) : Out :=
  let f := fpOf f64
  let a := fpArg s f64 ra
  fpOp s rd .fp (signOp f a (f.flip a))

/-- fcpys: the magnitude of xa with the sign bit of xb, a NaN's too (R125, R126). -/
def execFcpys (rd ra rb : BitVec 6) (f64 : Bool) (s : State) : Out :=
  let f := fpOf f64
  let a := fpArg s f64 ra
  fpOp s rd .fp (signOp f a (a % 2 ^ (f.eb + f.fb) + b2n (bit (fpArg s f64 rb) (f.eb + f.fb)) * 2 ^ (f.eb + f.fb)))

/-- fcvt.i64.T: to a signed integer in the FRM mode, saturating (R129). -/
def execFcvtI64T (rd ra : BitVec 6) (f64 : Bool) (s : State) : Out :=
  fpOp s rd .fp ((fpOf f64).toInt64 (frmMode s) true (fpArg s f64 ra))

/-- fcvt.n64.T: to an unsigned integer in the FRM mode, saturating (R129). -/
def execFcvtN64T (rd ra : BitVec 6) (f64 : Bool) (s : State) : Out :=
  fpOp s rd .fp ((fpOf f64).toInt64 (frmMode s) false (fpArg s f64 ra))

/-- fcvt.T.i64: the signed integer in xa rounded to T (R129). -/
def execFcvtTI64 (rd ra : BitVec 6) (f64 : Bool) (s : State) : Out :=
  fpOp s rd .fp ((fpOf f64).ofInt (frmMode s) (xr s ra).toInt)

/-- fcvt.T.n64: the unsigned integer in xa rounded to T (R129). -/
def execFcvtTN64 (rd ra : BitVec 6) (f64 : Bool) (s : State) : Out :=
  fpOp s rd .fp ((fpOf f64).ofInt (frmMode s) ((xr s ra).toNat : Int))

/-- fcvt.f64.f32: exact (R129). -/
def execFcvtF64F32 (rd ra : BitVec 6) (s : State) : Out :=
  fpOp s rd .fp (fpF64.convert fpF32 (frmMode s) (fpArg s false ra))

/-- fcvt.f32.f64: rounded in the FRM mode (R129). -/
def execFcvtF32F64 (rd ra : BitVec 6) (s : State) : Out :=
  fpOp s rd .fp (fpF32.convert fpF64 (frmMode s) (fpArg s true ra))

end Sys2Proof.Machine
end

