-- ==== Sys2Proof/Machine/ScalarInt.lean ====
section
/-! DEFINITION. Integer words of majors 0x01 to 0x0A (05_control R117-R119). -/

namespace Sys2Proof.Machine

/-- A one-beat integer word: charge, write xd, go on (R116). -/
def intOp (s : State) (rd : BitVec 6) (v : Word64) : Out := .next (retire (setX (charge s .eint) rd v))

/-- The same for a word that may carry IMM. -/
def intOpExt (s : State) (rd : BitVec 6) (v : Word64) (ext : Option (BitVec 24)) : Out :=
  .next (retireTo (setX (charge s .eint) rd v) (s.vc.ctl.pc + extLen ext))

/-- A truth value in a register. -/
def ofBool64 (b : Bool) : Word64 := if b then 1 else 0

/-- Count leading zero bits of the low n bits. -/
def clzGo (v : Word64) : Nat → Nat
  | 0 => 0
  | n + 1 => if v.getLsbD n then 0 else clzGo v n + 1

/-- Count trailing zero bits from bit i, n bits left. -/
def ctzGo (v : Word64) : Nat → Nat → Nat
  | _, 0 => 0
  | i, n + 1 => if v.getLsbD i then 0 else ctzGo v (i + 1) n + 1

/-- Count one bits among the low n. -/
def popGo (v : Word64) : Nat → Nat
  | 0 => 0
  | n + 1 => b2n (v.getLsbD n) + popGo v n

/-- The eight bytes reversed. -/
def bswap64 (v : Word64) : Word64 :=
  (v.extractLsb' 0 8 : Byte) ++ (v.extractLsb' 8 8 : Byte) ++ (v.extractLsb' 16 8 : Byte) ++ (v.extractLsb' 24 8 : Byte)
    ++ (v.extractLsb' 32 8 : Byte) ++ (v.extractLsb' 40 8 : Byte) ++ (v.extractLsb' 48 8 : Byte)
    ++ (v.extractLsb' 56 8 : Byte)

/-- xb[5:0], a shift or rotate amount (R117). -/
def shAmt (v : Word64) : Nat := v.toNat % 64

/-- add: sum mod 2^64 (R117). -/
def execAdd (rd ra rb : BitVec 6) (s : State) : Out :=
  let a := xr s ra
  let b := xr s rb
  intOp s rd (a + b)

/-- sub: difference mod 2^64 (R117). -/
def execSub (rd ra rb : BitVec 6) (s : State) : Out :=
  let a := xr s ra
  let b := xr s rb
  intOp s rd (a - b)

/-- and: bitwise and (R117). -/
def execAnd (rd ra rb : BitVec 6) (s : State) : Out :=
  let a := xr s ra
  let b := xr s rb
  intOp s rd (a &&& b)

/-- or: bitwise or (R117). -/
def execOr (rd ra rb : BitVec 6) (s : State) : Out :=
  let a := xr s ra
  let b := xr s rb
  intOp s rd (a ||| b)

/-- xor: bitwise exclusive or (R117). -/
def execXor (rd ra rb : BitVec 6) (s : State) : Out :=
  let a := xr s ra
  let b := xr s rb
  intOp s rd (a ^^^ b)

/-- andn: xa and not xb (R117). -/
def execAndn (rd ra rb : BitVec 6) (s : State) : Out :=
  let a := xr s ra
  let b := xr s rb
  intOp s rd (a &&& ~~~b)

/-- sll: shift left by xb[5:0] (R117). -/
def execSll (rd ra rb : BitVec 6) (s : State) : Out :=
  let a := xr s ra
  let b := xr s rb
  intOp s rd (a <<< shAmt b)

/-- srl: logical shift right by xb[5:0] (R117). -/
def execSrl (rd ra rb : BitVec 6) (s : State) : Out :=
  let a := xr s ra
  let b := xr s rb
  intOp s rd (a >>> shAmt b)

/-- sra: arithmetic shift right by xb[5:0] (R117). -/
def execSra (rd ra rb : BitVec 6) (s : State) : Out :=
  let a := xr s ra
  let b := xr s rb
  intOp s rd (a.sshiftRight (shAmt b))

/-- rol: rotate left by xb[5:0] (R117). -/
def execRol (rd ra rb : BitVec 6) (s : State) : Out :=
  let a := xr s ra
  let b := xr s rb
  intOp s rd (a.rotateLeft (shAmt b))

/-- ror: rotate right by xb[5:0] (R117). -/
def execRor (rd ra rb : BitVec 6) (s : State) : Out :=
  let a := xr s ra
  let b := xr s rb
  intOp s rd (a.rotateRight (shAmt b))

/-- slt: 1 when below, signed (R117). -/
def execSlt (rd ra rb : BitVec 6) (s : State) : Out :=
  let a := xr s ra
  let b := xr s rb
  intOp s rd (ofBool64 (a.slt b))

/-- sltn: 1 when below, unsigned (R117). -/
def execSltn (rd ra rb : BitVec 6) (s : State) : Out :=
  let a := xr s ra
  let b := xr s rb
  intOp s rd (ofBool64 (a.ult b))

/-- min: signed minimum (R117). -/
def execMin (rd ra rb : BitVec 6) (s : State) : Out :=
  let a := xr s ra
  let b := xr s rb
  intOp s rd (if b.slt a then b else a)

/-- max: signed maximum (R117). -/
def execMax (rd ra rb : BitVec 6) (s : State) : Out :=
  let a := xr s ra
  let b := xr s rb
  intOp s rd (if a.slt b then b else a)

/-- minn: unsigned minimum (R117). -/
def execMinn (rd ra rb : BitVec 6) (s : State) : Out :=
  let a := xr s ra
  let b := xr s rb
  intOp s rd (if b.ult a then b else a)

/-- maxn: unsigned maximum (R117). -/
def execMaxn (rd ra rb : BitVec 6) (s : State) : Out :=
  let a := xr s ra
  let b := xr s rb
  intOp s rd (if a.ult b then b else a)

/-- addw: 32-bit sum, sign-extended (R117). -/
def execAddw (rd ra rb : BitVec 6) (s : State) : Out :=
  let a := xr s ra
  let b := xr s rb
  intOp s rd (((a + b).setWidth 32).signExtend 64)

/-- subw: 32-bit difference, sign-extended (R117). -/
def execSubw (rd ra rb : BitVec 6) (s : State) : Out :=
  let a := xr s ra
  let b := xr s rb
  intOp s rd (((a - b).setWidth 32).signExtend 64)

/-- clz: leading zero bits, 64 for 0 (R117). -/
def execClz (rd ra : BitVec 6) (s : State) : Out := intOp s rd (w64 (clzGo (xr s ra) 64))

/-- ctz: trailing zero bits, 64 for 0 (R117). -/
def execCtz (rd ra : BitVec 6) (s : State) : Out := intOp s rd (w64 (ctzGo (xr s ra) 0 64))

/-- popc: one bits (R117). -/
def execPopc (rd ra : BitVec 6) (s : State) : Out := intOp s rd (w64 (popGo (xr s ra) 64))

/-- bswap: the bytes reversed (R117). -/
def execBswap (rd ra : BitVec 6) (s : State) : Out := intOp s rd (bswap64 (xr s ra))

/-- addi: xa + imm mod 2^64 (R118). -/
def execAddi (rd ra : BitVec 6) (imm : BitVec 14) (ext : Option (BitVec 24)) (s : State) : Out :=
  intOpExt s rd (xr s ra + imm14 imm ext) ext

/-- andi: xa and imm (R118). -/
def execAndi (rd ra : BitVec 6) (imm : BitVec 14) (ext : Option (BitVec 24)) (s : State) : Out :=
  intOpExt s rd (xr s ra &&& imm14 imm ext) ext

/-- ori: xa or imm (R118). -/
def execOri (rd ra : BitVec 6) (imm : BitVec 14) (ext : Option (BitVec 24)) (s : State) : Out :=
  intOpExt s rd (xr s ra ||| imm14 imm ext) ext

/-- xori: xa xor imm (R118). -/
def execXori (rd ra : BitVec 6) (imm : BitVec 14) (ext : Option (BitVec 24)) (s : State) : Out :=
  intOpExt s rd (xr s ra ^^^ imm14 imm ext) ext

/-- slti: 1 when xa is below imm, signed (R118). -/
def execSlti (rd ra : BitVec 6) (imm : BitVec 14) (ext : Option (BitVec 24)) (s : State) : Out :=
  intOpExt s rd (ofBool64 ((xr s ra).slt (imm14 imm ext))) ext

/-- slli: shift left by the amount in the word (R118). -/
def execSlli (rd ra sh : BitVec 6) (s : State) : Out := intOp s rd (xr s ra <<< sh.toNat)

/-- srli: logical shift right by the amount in the word (R118). -/
def execSrli (rd ra sh : BitVec 6) (s : State) : Out := intOp s rd (xr s ra >>> sh.toNat)

/-- srai: arithmetic shift right by the amount in the word (R118). -/
def execSrai (rd ra sh : BitVec 6) (s : State) : Out := intOp s rd ((xr s ra).sshiftRight sh.toNat)

/-- lih: xd := sext(imm20) << 14 (R29, R35). -/
def execLih (rd : BitVec 6) (imm : BitVec 20) (ext : Option (BitVec 24)) (s : State) : Out :=
  intOpExt s rd (imm20 imm ext) ext

/-- addpc: xd := A + (sext(imm20) << 14), A the address of the word itself (R29, R35). -/
def execAddpc (rd : BitVec 6) (imm : BitVec 20) (ext : Option (BitVec 24)) (s : State) : Out :=
  intOpExt s rd (wordAddr s ext + imm20 imm ext) ext

/-- A multiply word: charge e.mul, write xd (R116, R119). -/
def mulOp (s : State) (rd : BitVec 6) (v : Word64) : Out := .next (retire (setX (charge s .mul) rd v))

/-- mul: the low 64 bits of the product (R119). -/
def execMul (rd ra rb : BitVec 6) (s : State) : Out := mulOp s rd (xr s ra * xr s rb)

/-- mulh: the high 64 bits of the signed product (R119). -/
def execMulh (rd ra rb : BitVec 6) (s : State) : Out :=
  mulOp s rd (w64 (pat 64 ((xr s ra).toInt * (xr s rb).toInt / 2 ^ 64)))

/-- mulhn: the high 64 bits of the unsigned product (R119). -/
def execMulhn (rd ra rb : BitVec 6) (s : State) : Out :=
  mulOp s rd (w64 ((xr s ra).toNat * (xr s rb).toNat / 2 ^ 64))

/-- A divide word: charge e.div, write xd; a borderline case sets flag iz and no fault (R119, R132). -/
def divOp (s : State) (rd : BitVec 6) (border : Bool) (v : Word64) : Out :=
  .next (retire (raiseFlags (setX (charge s .div) rd v) (if border then fIz else 0)))

/-- The signed case −2^63 / −1 (R119). -/
def divOverflow (a b : Word64) : Bool := a == BitVec.intMin 64 && b == BitVec.allOnes 64

/-- div: signed quotient truncated toward zero; all ones for xb = 0, −2^63 for the overflow (R119). -/
def execDiv (rd ra rb : BitVec 6) (s : State) : Out :=
  let a := xr s ra
  let b := xr s rb
  divOp s rd (b == 0 || divOverflow a b)
    (if b = 0 then BitVec.allOnes 64 else if divOverflow a b then a else a.sdiv b)

/-- divn: unsigned quotient; 2^64 − 1 for xb = 0 (R119). -/
def execDivn (rd ra rb : BitVec 6) (s : State) : Out :=
  let a := xr s ra
  let b := xr s rb
  divOp s rd (b == 0) (if b = 0 then BitVec.allOnes 64 else a / b)

/-- rem: signed remainder with the sign of xa; xa for xb = 0, 0 for the overflow (R119). -/
def execRem (rd ra rb : BitVec 6) (s : State) : Out :=
  let a := xr s ra
  let b := xr s rb
  divOp s rd (b == 0 || divOverflow a b) (if b = 0 then a else if divOverflow a b then 0 else a.srem b)

/-- remn: unsigned remainder; xa for xb = 0 (R119). -/
def execRemn (rd ra rb : BitVec 6) (s : State) : Out :=
  let a := xr s ra
  let b := xr s rb
  divOp s rd (b == 0) (if b = 0 then a else a % b)

end Sys2Proof.Machine
end

