-- ==== Sys2Proof/Machine/Tokens.lean ====
section
/-! DEFINITION. Tokens, events and the frame counter: major 0x24 (04_time_tokens R94, R95, R102, R103, R106). -/

namespace Sys2Proof.Machine

/-- A word of major 0x24 that writes xd and goes on. -/
def tokNext (s : State) (rd : BitVec 6) (v : Word64) : Out := .next (retire (setX (charge s .sys) rd v))

/-- The words that complete at this beat: those whose beat it is and that no fault of their indices stops, and the one whose
record is posted at the next (R94, R103, R104). -/
def completing (s : State) : List Flight :=
  s.vc.eng.flights.filter (fun f => !f.faulted && !f.ended
    && ((match f.done with
         | some d => decide (d ≤ s.vc.now)
         | none => false)
        || (match s.vc.eng.heldEv.head? with
            | some r => r.hold == f.seq + 1 && decide (s.vc.eng.events.length + s.vc.eng.evIn.length < s.evCap)
            | none => false))
    && !f.dues.any (fun d => decide (d.1 ≤ s.vc.now) && (match d.2 with
         | .raise _ _ => true
         | _ => false)))

/-- The pushes of FIFO f that the queues make at this beat; they come before CTL's (R94, R95). -/
def queuePushes (s : State) (f : Nat) : Nat := ((completing s).map (fun x => x.toks.count f)).sum

/-- CTL's push of FIFO f, the last of its beat, would take the count above 15 (R94, R95). DESIGN CHOICE (log 57): it goes before a
push that a queue holds from an earlier beat. -/
def ctlPushFull (s : State) (f : Nat) : Bool := decide (15 ≤ tokCount s f + tokPending s f + queuePushes s f)

/-- tok.push f: one token, visible from the next beat. A push above 15 faults in Lockstep mode and is held, CTL with it,
in Elastic mode (R95, R106). -/
def execTokPush (f : BitVec 2) (s : State) : Out :=
  restricted s <|
    if ctlPushFull s f.toNat then
      (match s.launch.mode with
       | .lockstep => ctlFault s 0x11 0 0
       | .elastic => .next s)
    else sysNext (tokPut s f.toNat)

/-- tok.pop f: wait until the FIFO has a token, then take it (R106). -/
def execTokPop (f : BitVec 2) (s : State) : Out :=
  restricted s <| if tokCount s f.toNat = 0 then .next s else sysNext (tokTake s f.toNat)

/-- tok.read: the count of FIFO f (R106). -/
def execTokRead (rd : BitVec 6) (f : BitVec 2) (s : State) : Out :=
  restricted s <| tokNext s rd (w64 (tokAtBeat s f.toNat))

/-- ev.wait: wait until the event queue holds a record, then its number of records (R106). -/
def execEvWait (rd : BitVec 6) (s : State) : Out :=
  restricted s <| if s.vc.eng.events.isEmpty then .next s else tokNext s rd (w64 s.vc.eng.events.length)

/-- ev.pop: the oldest record into xd and x(d+1); with xd = 0 no register is written; on an empty queue an
event-underflow fault (R106). -/
def execEvPop (rd : BitVec 6) (s : State) : Out :=
  restricted s <|
    match s.vc.eng.events with
    | [] => ctlFault s 0x13 0 0
    | (a, b) :: r =>
      let s1 : State := { s with vc.eng.events := r }
      if rd = 0 then sysNext s1 else tokNext (setX s1 (rd + 1) b) rd a

/-- ev.count: the number of records (R106). -/
def execEvCount (rd : BitVec 6) (s : State) : Out := restricted s <| tokNext s rd (w64 s.vc.eng.events.length)

/-- frame: the frame counter (R89, R106). -/
def execFrame (rd : BitVec 6) (s : State) : Out := restricted s <| tokNext s rd (w64 (frameCount s))

end Sys2Proof.Machine
end

