-- ==== Sys2Proof/Machine/Dispatch.lean ====
section
/-! DEFINITION. What each instruction does: one arm per constructor, each a call of its meaning. -/

namespace Sys2Proof.Machine

/-- The effect of an instruction on a state. -/
def exec (i : Instr) (s : State) : Host.Outcome State Fault Refusal :=
  match i with
  | .add rd ra rb => Sys2Proof.Machine.execAdd rd ra rb s
  | .sub rd ra rb => Sys2Proof.Machine.execSub rd ra rb s
  | .and rd ra rb => Sys2Proof.Machine.execAnd rd ra rb s
  | .or rd ra rb => Sys2Proof.Machine.execOr rd ra rb s
  | .xor rd ra rb => Sys2Proof.Machine.execXor rd ra rb s
  | .andn rd ra rb => Sys2Proof.Machine.execAndn rd ra rb s
  | .sll rd ra rb => Sys2Proof.Machine.execSll rd ra rb s
  | .srl rd ra rb => Sys2Proof.Machine.execSrl rd ra rb s
  | .sra rd ra rb => Sys2Proof.Machine.execSra rd ra rb s
  | .rol rd ra rb => Sys2Proof.Machine.execRol rd ra rb s
  | .ror rd ra rb => Sys2Proof.Machine.execRor rd ra rb s
  | .slt rd ra rb => Sys2Proof.Machine.execSlt rd ra rb s
  | .sltn rd ra rb => Sys2Proof.Machine.execSltn rd ra rb s
  | .min rd ra rb => Sys2Proof.Machine.execMin rd ra rb s
  | .max rd ra rb => Sys2Proof.Machine.execMax rd ra rb s
  | .minn rd ra rb => Sys2Proof.Machine.execMinn rd ra rb s
  | .maxn rd ra rb => Sys2Proof.Machine.execMaxn rd ra rb s
  | .addw rd ra rb => Sys2Proof.Machine.execAddw rd ra rb s
  | .subw rd ra rb => Sys2Proof.Machine.execSubw rd ra rb s
  | .clz rd ra => Sys2Proof.Machine.execClz rd ra s
  | .ctz rd ra => Sys2Proof.Machine.execCtz rd ra s
  | .popc rd ra => Sys2Proof.Machine.execPopc rd ra s
  | .bswap rd ra => Sys2Proof.Machine.execBswap rd ra s
  | .addi rd ra imm ext => Sys2Proof.Machine.execAddi rd ra imm ext s
  | .andi rd ra imm ext => Sys2Proof.Machine.execAndi rd ra imm ext s
  | .ori rd ra imm ext => Sys2Proof.Machine.execOri rd ra imm ext s
  | .xori rd ra imm ext => Sys2Proof.Machine.execXori rd ra imm ext s
  | .slli rd ra sh => Sys2Proof.Machine.execSlli rd ra sh s
  | .srli rd ra sh => Sys2Proof.Machine.execSrli rd ra sh s
  | .srai rd ra sh => Sys2Proof.Machine.execSrai rd ra sh s
  | .slti rd ra imm ext => Sys2Proof.Machine.execSlti rd ra imm ext s
  | .lih rd imm ext => Sys2Proof.Machine.execLih rd imm ext s
  | .addpc rd imm ext => Sys2Proof.Machine.execAddpc rd imm ext s
  | .mul rd ra rb => Sys2Proof.Machine.execMul rd ra rb s
  | .mulh rd ra rb => Sys2Proof.Machine.execMulh rd ra rb s
  | .mulhn rd ra rb => Sys2Proof.Machine.execMulhn rd ra rb s
  | .div rd ra rb => Sys2Proof.Machine.execDiv rd ra rb s
  | .divn rd ra rb => Sys2Proof.Machine.execDivn rd ra rb s
  | .rem rd ra rb => Sys2Proof.Machine.execRem rd ra rb s
  | .remn rd ra rb => Sys2Proof.Machine.execRemn rd ra rb s
  | .fadd rd ra rb f64 => Sys2Proof.Machine.execFadd rd ra rb f64 s
  | .fsub rd ra rb f64 => Sys2Proof.Machine.execFsub rd ra rb f64 s
  | .fmul rd ra rb f64 => Sys2Proof.Machine.execFmul rd ra rb f64 s
  | .fdiv rd ra rb f64 => Sys2Proof.Machine.execFdiv rd ra rb f64 s
  | .fsqrt rd ra f64 => Sys2Proof.Machine.execFsqrt rd ra f64 s
  | .fmac rd ra rb f64 => Sys2Proof.Machine.execFmac rd ra rb f64 s
  | .fmin rd ra rb f64 => Sys2Proof.Machine.execFmin rd ra rb f64 s
  | .fmax rd ra rb f64 => Sys2Proof.Machine.execFmax rd ra rb f64 s
  | .fceq rd ra rb f64 => Sys2Proof.Machine.execFceq rd ra rb f64 s
  | .fclt rd ra rb f64 => Sys2Proof.Machine.execFclt rd ra rb f64 s
  | .fcle rd ra rb f64 => Sys2Proof.Machine.execFcle rd ra rb f64 s
  | .fclass rd ra f64 => Sys2Proof.Machine.execFclass rd ra f64 s
  | .fabs rd ra f64 => Sys2Proof.Machine.execFabs rd ra f64 s
  | .fneg rd ra f64 => Sys2Proof.Machine.execFneg rd ra f64 s
  | .fcpys rd ra rb f64 => Sys2Proof.Machine.execFcpys rd ra rb f64 s
  | .fcvtI64T rd ra f64 => Sys2Proof.Machine.execFcvtI64T rd ra f64 s
  | .fcvtN64T rd ra f64 => Sys2Proof.Machine.execFcvtN64T rd ra f64 s
  | .fcvtTI64 rd ra f64 => Sys2Proof.Machine.execFcvtTI64 rd ra f64 s
  | .fcvtTN64 rd ra f64 => Sys2Proof.Machine.execFcvtTN64 rd ra f64 s
  | .fcvtF64F32 rd ra => Sys2Proof.Machine.execFcvtF64F32 rd ra s
  | .fcvtF32F64 rd ra => Sys2Proof.Machine.execFcvtF32F64 rd ra s
  | .ldI8 rd ra imm ext => Sys2Proof.Machine.execLdI8 rd ra imm ext s
  | .ldN8 rd ra imm ext => Sys2Proof.Machine.execLdN8 rd ra imm ext s
  | .ldI16 rd ra imm ext => Sys2Proof.Machine.execLdI16 rd ra imm ext s
  | .ldN16 rd ra imm ext => Sys2Proof.Machine.execLdN16 rd ra imm ext s
  | .ldI32 rd ra imm ext => Sys2Proof.Machine.execLdI32 rd ra imm ext s
  | .ldN32 rd ra imm ext => Sys2Proof.Machine.execLdN32 rd ra imm ext s
  | .ld64 rd ra imm ext => Sys2Proof.Machine.execLd64 rd ra imm ext s
  | .st8 rs ra imm ext => Sys2Proof.Machine.execSt8 rs ra imm ext s
  | .st16 rs ra imm ext => Sys2Proof.Machine.execSt16 rs ra imm ext s
  | .st32 rs ra imm ext => Sys2Proof.Machine.execSt32 rs ra imm ext s
  | .st64 rs ra imm ext => Sys2Proof.Machine.execSt64 rs ra imm ext s
  | .beq ra rb off ext => Sys2Proof.Machine.execBeq ra rb off ext s
  | .bne ra rb off ext => Sys2Proof.Machine.execBne ra rb off ext s
  | .blt ra rb off ext => Sys2Proof.Machine.execBlt ra rb off ext s
  | .bge ra rb off ext => Sys2Proof.Machine.execBge ra rb off ext s
  | .bltn ra rb off ext => Sys2Proof.Machine.execBltn ra rb off ext s
  | .bgen ra rb off ext => Sys2Proof.Machine.execBgen ra rb off ext s
  | .j off ext => Sys2Proof.Machine.execJ off ext s
  | .jal off ext => Sys2Proof.Machine.execJal off ext s
  | .jalr rd ra imm ext => Sys2Proof.Machine.execJalr rd ra imm ext s
  | .csrRd rd csr => Sys2Proof.Machine.execCsrRd rd csr s
  | .csrWr rd ra csr => Sys2Proof.Machine.execCsrWr rd ra csr s
  | .csrOr rd ra csr => Sys2Proof.Machine.execCsrOr rd ra csr s
  | .csrAndn rd ra csr => Sys2Proof.Machine.execCsrAndn rd ra csr s
  | .trap n => Sys2Proof.Machine.execTrap n s
  | .acqCore ra => Sys2Proof.Machine.execAcqCore ra s
  | .acqCluster ra => Sys2Proof.Machine.execAcqCluster ra s
  | .acqDie ra => Sys2Proof.Machine.execAcqDie ra s
  | .acqDevice ra => Sys2Proof.Machine.execAcqDevice ra s
  | .acqLaunch ra => Sys2Proof.Machine.execAcqLaunch ra s
  | .relCore ra => Sys2Proof.Machine.execRelCore ra s
  | .relCluster ra => Sys2Proof.Machine.execRelCluster ra s
  | .relDie ra => Sys2Proof.Machine.execRelDie ra s
  | .relDevice ra => Sys2Proof.Machine.execRelDevice ra s
  | .relLaunch ra => Sys2Proof.Machine.execRelLaunch ra s
  | .qfence m => Sys2Proof.Machine.execQfence m s
  | .aadd rd ra rb t => Sys2Proof.Machine.execAadd rd ra rb t s
  | .aand rd ra rb t => Sys2Proof.Machine.execAand rd ra rb t s
  | .aor rd ra rb t => Sys2Proof.Machine.execAor rd ra rb t s
  | .axor rd ra rb t => Sys2Proof.Machine.execAxor rd ra rb t s
  | .amin rd ra rb t => Sys2Proof.Machine.execAmin rd ra rb t s
  | .amax rd ra rb t => Sys2Proof.Machine.execAmax rd ra rb t s
  | .aswap rd ra rb t => Sys2Proof.Machine.execAswap rd ra rb t s
  | .acas rd ra rb t => Sys2Proof.Machine.execAcas rd ra rb t s
  | .aredAdd ra rb t => Sys2Proof.Machine.execAredAdd ra rb t s
  | .aredAnd ra rb t => Sys2Proof.Machine.execAredAnd ra rb t s
  | .aredOr ra rb t => Sys2Proof.Machine.execAredOr ra rb t s
  | .aredXor ra rb t => Sys2Proof.Machine.execAredXor ra rb t s
  | .aredMin ra rb t => Sys2Proof.Machine.execAredMin ra rb t s
  | .aredMax ra rb t => Sys2Proof.Machine.execAredMax ra rb t s
  | .tokPush f => Sys2Proof.Machine.execTokPush f s
  | .tokPop f => Sys2Proof.Machine.execTokPop f s
  | .tokRead rd f => Sys2Proof.Machine.execTokRead rd f s
  | .evWait rd => Sys2Proof.Machine.execEvWait rd s
  | .evPop rd => Sys2Proof.Machine.execEvPop rd s
  | .evCount rd => Sys2Proof.Machine.execEvCount rd s
  | .frame rd => Sys2Proof.Machine.execFrame rd s
  | .tblLoad n ra rb => Sys2Proof.Machine.execTblLoad n ra rb s
  | .tblRun n ra => Sys2Proof.Machine.execTblRun n ra s
  | .tblStop n => Sys2Proof.Machine.execTblStop n s
  | .tblRebase n ra => Sys2Proof.Machine.execTblRebase n ra s
  | .tblParam k ra => Sys2Proof.Machine.execTblParam k ra s
  | .tblWait n => Sys2Proof.Machine.execTblWait n s
  | .zsetBase z ra => Sys2Proof.Machine.execZsetBase z ra s
  | .zsetStride z ra => Sys2Proof.Machine.execZsetStride z ra s
  | .zsetCount z ra => Sys2Proof.Machine.execZsetCount z ra s
  | .zsetFmt z ra => Sys2Proof.Machine.execZsetFmt z ra s
  | .zsetScale z ra => Sys2Proof.Machine.execZsetScale z ra s
  | .zsetRing z ra => Sys2Proof.Machine.execZsetRing z ra s
  | .zsetAdv z ra => Sys2Proof.Machine.execZsetAdv z ra s
  | .zget rd z k => Sys2Proof.Machine.execZget rd z k s
  | .txopen ra => Sys2Proof.Machine.execTxopen ra s
  | .txloss ra => Sys2Proof.Machine.execTxloss ra s
  | .txwait rd => Sys2Proof.Machine.execTxwait rd s
  | .txrd rd k => Sys2Proof.Machine.execTxrd rd k s
  | .rngk ra => Sys2Proof.Machine.execRngk ra s
  | .rngn ra => Sys2Proof.Machine.execRngn ra s
  | .domSet ra => Sys2Proof.Machine.execDomSet ra s
  | .domGet rd => Sys2Proof.Machine.execDomGet rd s
  | .collRed ra rb => Sys2Proof.Machine.execCollRed ra rb s
  | .collBcast ra rb => Sys2Proof.Machine.execCollBcast ra rb s
  | .collGath ra rb => Sys2Proof.Machine.execCollGath ra rb s
  | .collNorm ra rb => Sys2Proof.Machine.execCollNorm ra rb s
  | .collExp ra rb => Sys2Proof.Machine.execCollExp ra rb s
  | .collWait rd ra => Sys2Proof.Machine.execCollWait rd ra s
  | .winReg ra rb => Sys2Proof.Machine.execWinReg ra rb s
  | .winDrop ra => Sys2Proof.Machine.execWinDrop ra s
  | .mbclr k => Sys2Proof.Machine.execMbclr k s
  | .ywr y ra => Sys2Proof.Machine.execYwr y ra s
  | .yrd rd y => Sys2Proof.Machine.execYrd rd y s
  | .mbrd rd m => Sys2Proof.Machine.execMbrd rd m s
  | .ccbWr k ra w => Sys2Proof.Machine.execCcbWr k ra w s
  | .ccbRd rd k w => Sys2Proof.Machine.execCcbRd rd k w s
  | .ccbLd k ra => Sys2Proof.Machine.execCcbLd k ra s
  | .ccbSt k ra => Sys2Proof.Machine.execCcbSt k ra s
  | .safept ra => Sys2Proof.Machine.execSafept ra s
  | .pchk rd => Sys2Proof.Machine.execPchk rd s
  | .cpyIn e d => Sys2Proof.Machine.execCpyIn e d s
  | .cpyInT e d => Sys2Proof.Machine.execCpyInT e d s
  | .cpyGath e d a => Sys2Proof.Machine.execCpyGath e d a s
  | .cpyPf e d => Sys2Proof.Machine.execCpyPf e d s
  | .gpush e d a => Sys2Proof.Machine.execGpush e d a s
  | .ggath e d a b => Sys2Proof.Machine.execGgath e d a b s
  | .greset e d => Sys2Proof.Machine.execGreset e d s
  | .recv e d => Sys2Proof.Machine.execRecv e d s
  | .recvG e d => Sys2Proof.Machine.execRecvG e d s
  | .recvM e d => Sys2Proof.Machine.execRecvM e d s
  | .waitLd e n => Sys2Proof.Machine.execWaitLd e n s
  | .qfenceLd e m => Sys2Proof.Machine.execQfenceLd e m s
  | .mma e t a b => Sys2Proof.Machine.execMma e t a b s
  | .mmaKb e t a b => Sys2Proof.Machine.execMmaKb e t a b s
  | .mdrain e t z => Sys2Proof.Machine.execMdrain e t z s
  | .mzero e t => Sys2Proof.Machine.execMzero e t s
  | .mtpbLd e t z => Sys2Proof.Machine.execMtpbLd e t z s
  | .mtpbSt e t z => Sys2Proof.Machine.execMtpbSt e t z s
  | .mlsfTest e t y => Sys2Proof.Machine.execMlsfTest e t y s
  | .mlsfRd e t z => Sys2Proof.Machine.execMlsfRd e t z s
  | .mlsfClr e t => Sys2Proof.Machine.execMlsfClr e t s
  | .maudit e y => Sys2Proof.Machine.execMaudit e y s
  | .vadd e d a b => Sys2Proof.Machine.execVadd e d a b s
  | .vsub e d a b => Sys2Proof.Machine.execVsub e d a b s
  | .vmul e d a b => Sys2Proof.Machine.execVmul e d a b s
  | .vfma e d a b => Sys2Proof.Machine.execVfma e d a b s
  | .vmin e d a b => Sys2Proof.Machine.execVmin e d a b s
  | .vmax e d a b => Sys2Proof.Machine.execVmax e d a b s
  | .vabs e d a => Sys2Proof.Machine.execVabs e d a s
  | .vneg e d a => Sys2Proof.Machine.execVneg e d a s
  | .vaddY e d a b => Sys2Proof.Machine.execVaddY e d a b s
  | .vmulY e d a b => Sys2Proof.Machine.execVmulY e d a b s
  | .vfmaY e d a b => Sys2Proof.Machine.execVfmaY e d a b s
  | .vmulM e d a b => Sys2Proof.Machine.execVmulM e d a b s
  | .vmaxY e d a b => Sys2Proof.Machine.execVmaxY e d a b s
  | .vminY e d a b => Sys2Proof.Machine.execVminY e d a b s
  | .vceq e d a b => Sys2Proof.Machine.execVceq e d a b s
  | .vcne e d a b => Sys2Proof.Machine.execVcne e d a b s
  | .vclt e d a b => Sys2Proof.Machine.execVclt e d a b s
  | .vcle e d a b => Sys2Proof.Machine.execVcle e d a b s
  | .vsel e d a b => Sys2Proof.Machine.execVsel e d a b s
  | .vand e d a b => Sys2Proof.Machine.execVand e d a b s
  | .vor e d a b => Sys2Proof.Machine.execVor e d a b s
  | .vxor e d a b => Sys2Proof.Machine.execVxor e d a b s
  | .vnot e d a => Sys2Proof.Machine.execVnot e d a s
  | .vshl e d a b => Sys2Proof.Machine.execVshl e d a b s
  | .vshr e d a b => Sys2Proof.Machine.execVshr e d a b s
  | .vsra e d a b => Sys2Proof.Machine.execVsra e d a b s
  | .vaddsat e d a b => Sys2Proof.Machine.execVaddsat e d a b s
  | .vsubsat e d a b => Sys2Proof.Machine.execVsubsat e d a b s
  | .vmulhi e d a b => Sys2Proof.Machine.execVmulhi e d a b s
  | .vclass e d a => Sys2Proof.Machine.execVclass e d a s
  | .vcvt e d a => Sys2Proof.Machine.execVcvt e d a s
  | .vmov e d a => Sys2Proof.Machine.execVmov e d a s
  | .vfillY e d b => Sys2Proof.Machine.execVfillY e d b s
  | .vgath e d a b => Sys2Proof.Machine.execVgath e d a b s
  | .vscat e d a b => Sys2Proof.Machine.execVscat e d a b s
  | .vrng e d => Sys2Proof.Machine.execVrng e d s
  | .vdrop e d a b => Sys2Proof.Machine.execVdrop e d a b s
  | .vsplit3 e d a => Sys2Proof.Machine.execVsplit3 e d a s
  | .viota e d => Sys2Proof.Machine.execViota e d s
  | .rsum e d a => Sys2Proof.Machine.execRsum e d a s
  | .rmax e d a => Sys2Proof.Machine.execRmax e d a s
  | .rmin e d a => Sys2Proof.Machine.execRmin e d a s
  | .rsumsq e d a => Sys2Proof.Machine.execRsumsq e d a s
  | .scanSum e d a => Sys2Proof.Machine.execScanSum e d a s
  | .scanMax e d a => Sys2Proof.Machine.execScanMax e d a s
  | .rdot e d a b => Sys2Proof.Machine.execRdot e d a b s
  | .rargmax e d a => Sys2Proof.Machine.execRargmax e d a s
  | .rcnt e d a => Sys2Proof.Machine.execRcnt e d a s
  | .waitCmp e n => Sys2Proof.Machine.execWaitCmp e n s
  | .qfenceCmp e m => Sys2Proof.Machine.execQfenceCmp e m s
  | .cpyOut e d => Sys2Proof.Machine.execCpyOut e d s
  | .cpyScat e d a => Sys2Proof.Machine.execCpyScat e d a s
  | .stash e d => Sys2Proof.Machine.execStash e d s
  | .cpyXc e d => Sys2Proof.Machine.execCpyXc e d s
  | .send e a => Sys2Proof.Machine.execSend e a s
  | .sendG e a => Sys2Proof.Machine.execSendG e a s
  | .evpost e => Sys2Proof.Machine.execEvpost e s
  | .waitSt e n => Sys2Proof.Machine.execWaitSt e n s
  | .qfenceSt e m => Sys2Proof.Machine.execQfenceSt e m s
  | .tret => Sys2Proof.Machine.execTret s
  | .halt => Sys2Proof.Machine.execHalt s
  | .fence => Sys2Proof.Machine.execFence s
  | .ifb => Sys2Proof.Machine.execIfb s
  | .txvote => Sys2Proof.Machine.execTxvote s
  | .txabort => Sys2Proof.Machine.execTxabort s
  | .sstepCluster => Sys2Proof.Machine.execSstepCluster s
  | .sstepDie => Sys2Proof.Machine.execSstepDie s
  | .sstepDevice => Sys2Proof.Machine.execSstepDevice s
  | .sstepHerd => Sys2Proof.Machine.execSstepHerd s
  | .sstepJob => Sys2Proof.Machine.execSstepJob s
  | .yield => Sys2Proof.Machine.execYield s
  | .sfExp2 e d a => Sys2Proof.Machine.execSfExp2 e d a s
  | .sfLog2 e d a => Sys2Proof.Machine.execSfLog2 e d a s
  | .sfRcp e d a => Sys2Proof.Machine.execSfRcp e d a s
  | .sfRsqrt e d a => Sys2Proof.Machine.execSfRsqrt e d a s
  | .sfSqrt e d a => Sys2Proof.Machine.execSfSqrt e d a s
  | .sfSinpi e d a => Sys2Proof.Machine.execSfSinpi e d a s
  | .sfCospi e d a => Sys2Proof.Machine.execSfCospi e d a s
  | .sfTanh e d a => Sys2Proof.Machine.execSfTanh e d a s
  | .sfLogistic e d a => Sys2Proof.Machine.execSfLogistic e d a s
  | .efExp2 e d a => Sys2Proof.Machine.execEfExp2 e d a s
  | .efLog2 e d a => Sys2Proof.Machine.execEfLog2 e d a s
  | .efRcp e d a => Sys2Proof.Machine.execEfRcp e d a s
  | .efRsqrt e d a => Sys2Proof.Machine.execEfRsqrt e d a s
  | .efSqrt e d a => Sys2Proof.Machine.execEfSqrt e d a s
  | .efSinpi e d a => Sys2Proof.Machine.execEfSinpi e d a s
  | .efCospi e d a => Sys2Proof.Machine.execEfCospi e d a s
  | .efTanh e d a => Sys2Proof.Machine.execEfTanh e d a s
  | .efLogistic e d a => Sys2Proof.Machine.execEfLogistic e d a s
  | .atomicHomePortPerform n => Sys2Proof.Machine.execAtomicHomePortPerform n s
  | .tableEntryPlace home => Sys2Proof.Machine.execTableEntryPlace home s
  | .engineWordRoute => Sys2Proof.Machine.execEngineWordRoute s
  | .overrun u => Sys2Proof.Machine.execOverrun u s
  | .engineWordCompletion id => Sys2Proof.Machine.execEngineWordCompletion id s
  | .eventRecordHeldPost => Sys2Proof.Machine.execEventRecordHeldPost s
  | .copyLineLanding id => Sys2Proof.Machine.execCopyLineLanding id s
  | .copyMemoryWritePerform id => Sys2Proof.Machine.execCopyMemoryWritePerform id s
  | .messagePieceLanding n => Sys2Proof.Machine.execMessagePieceLanding n s
  | .mapAccessLanding n => Sys2Proof.Machine.execMapAccessLanding n s
  | .translationWalkComplete va => Sys2Proof.Machine.execTranslationWalkComplete va s
  | .versionedAccess acc => Sys2Proof.Machine.execVersionedAccess acc s
  | .firstWriteLineCopy block => Sys2Proof.Machine.execFirstWriteLineCopy block s
  | .sweeperResolve block => Sys2Proof.Machine.execSweeperResolve block s
  | .deviceVoteSend => Sys2Proof.Machine.execDeviceVoteSend s
  | .outcomeArrival w => Sys2Proof.Machine.execOutcomeArrival w s
  | .drainEngineTransfer => Sys2Proof.Machine.execDrainEngineTransfer s
  | .drainAcknowledge => Sys2Proof.Machine.execDrainAcknowledge s
  | .fragmentArrival f => Sys2Proof.Machine.execFragmentArrival f s
  | .darnDecode n => Sys2Proof.Machine.execDarnDecode n s
  | .messageDelivery n => Sys2Proof.Machine.execMessageDelivery n s
  | .unrecoverableLoss n => Sys2Proof.Machine.execUnrecoverableLoss n s
  | .collectiveSourceRead n => Sys2Proof.Machine.execCollectiveSourceRead n s
  | .collectiveDelivery n => Sys2Proof.Machine.execCollectiveDelivery n s
  | .windowFlushApply n => Sys2Proof.Machine.execWindowFlushApply n s
  | .openingAlignmentBarrier => Sys2Proof.Machine.execOpeningAlignmentBarrier s
  | .barrierRelease level => Sys2Proof.Machine.execBarrierRelease level s
  | .queueTailWrite fn q v => Sys2Proof.Machine.execQueueTailWrite fn q v s
  | .quantumEnd => Sys2Proof.Machine.execQuantumEnd s
  | .schedulerDecision => Sys2Proof.Machine.execSchedulerDecision s
  | .launchDispatch q => Sys2Proof.Machine.execLaunchDispatch q s
  | .launchPacketReceive q words => Sys2Proof.Machine.execLaunchPacketReceive q words s
  | .launchCompletion => Sys2Proof.Machine.execLaunchCompletion s
  | .preemptionRequest => Sys2Proof.Machine.execPreemptionRequest s
  | .forcedSave => Sys2Proof.Machine.execForcedSave s
  | .trapEntry => Sys2Proof.Machine.execTrapEntry s
  | .collieCompare bad => Sys2Proof.Machine.execCollieCompare bad s
  | .stretchChange die k => Sys2Proof.Machine.execStretchChange die k s
  | .stretchForced die => Sys2Proof.Machine.execStretchForced die s
  | .chargeEntry => Sys2Proof.Machine.execChargeEntry s
  | .accountingIntervalEnd ref leak pidle => Sys2Proof.Machine.execAccountingIntervalEnd ref leak pidle s
  | .coefficientSetEffect => Sys2Proof.Machine.execCoefficientSetEffect s
  | .breakpointHit n => Sys2Proof.Machine.execBreakpointHit n s
  | .traceStop die => Sys2Proof.Machine.execTraceStop die s
  | .debugResume fn => Sys2Proof.Machine.execDebugResume fn s
  | .trctlWrite fn die v => Sys2Proof.Machine.execTrctlWrite fn die v s
  | .tlbinvPartition fn v => Sys2Proof.Machine.execTlbinvPartition fn v s
  | .tlbinvPage fn v => Sys2Proof.Machine.execTlbinvPage fn v s
  | .tlbinvDone => Sys2Proof.Machine.execTlbinvDone s
  | .hmaskWrite fn n v => Sys2Proof.Machine.execHmaskWrite fn n v s
  | .playoutWrite fn v => Sys2Proof.Machine.execPlayoutWrite fn v s
  | .pctlBind fn q v => Sys2Proof.Machine.execPctlBind fn q v s
  | .pctlUnbind fn q v => Sys2Proof.Machine.execPctlUnbind fn q v s
  | .pctlReset fn q v => Sys2Proof.Machine.execPctlReset fn q v s
  | .functionResetComplete => Sys2Proof.Machine.execFunctionResetComplete s
  | .eusedClear fn v => Sys2Proof.Machine.execEusedClear fn v s
  | .counterClear fn c v => Sys2Proof.Machine.execCounterClear fn c v s
  | .registerWrite fn r v => Sys2Proof.Machine.execRegisterWrite fn r v s
  | .controlLinkMemoryWrite fn pa data => Sys2Proof.Machine.execControlLinkMemoryWrite fn pa data s
  | .controlLinkMemoryRead fn pa n => Sys2Proof.Machine.execControlLinkMemoryRead fn pa n s
  | .firmwareImage img => Sys2Proof.Machine.execFirmwareImage img s
  | .quoteRequest nonce => Sys2Proof.Machine.execQuoteRequest nonce s
  | .powerOn => Sys2Proof.Machine.execPowerOn s
  | .linkDown port => Sys2Proof.Machine.execLinkDown port s
  | .managementResetRequest => Sys2Proof.Machine.execManagementResetRequest s
  | .linkUp port => Sys2Proof.Machine.execLinkUp port s
  | .correctedErrorWindowEnd => Sys2Proof.Machine.execCorrectedErrorWindowEnd s

end Sys2Proof.Machine
end

