-- ==== Sys2Proof/Machine/Readout.lean ====
section
/-! DEFINITION. Register reads on the control link (15_fabric R310, R314; 16_scheduling R331-R333; 17_partitions_energy R354, R356,
R365; 19_assurance R393, R397-R405; 20_host_bringup R406, R408). -/

namespace Sys2Proof.Machine

/-- What a read is answered with. -/
abbrev Answer := Status × List Word64

/-- Sixty-four bits of READY from bit `lo` of the device's on (R409). -/
def readyWord (s : State) (lo : Nat) : Word64 :=
  w64 ((countUp 0 64).foldl (fun a i => a + b2n (mget false s.dev.ready (lo + i)) * 2 ^ i) 0)

/-- A read on the management bus (R413). -/
def busRead (s : State) (r : BusReg) : State :=
  let d : List Word64 := match r with
    | .ident => [s.dev.ident.setWidth 64]
    | .ready hi => [readyWord s (if hi then 64 else 0)]
    | .temperature die => if die < 4 then [w64 (mget 0 s.dev.temps die)] else []
    | .power => [w64 s.dev.power]
  { s with dev.busReplies := s.dev.busReplies ++ [d] }

/-- What the package's sensors give: die temperatures and power (R413). -/
def senseNow (s : State) (temps : List Nat) (power : Nat) : State :=
  { s with dev.temps := (temps.zip (countUp 0 4)).foldl (fun m p => mput 0 m p.2 p.1) s.dev.temps, dev.power := power }

/-- PCTL: state and scrub; cmd reads zero (R356). -/
def pctlWord (p : Part) : Word64 :=
  w64 ((if p.reset.isSome then 3 else if p.bound then 2 else 1) * 64 + b2n p.scrub * 32)

/-- ESTAT (R365). -/
def estatWord (p : Part) : Word64 := w64 (p.cset % 2 ^ 16 * 65536 + p.pw % 256 * 256 + b2n p.ex)

/-- Bytes as words of eight. -/
def byteWords (d : List Byte) : List Word64 := (countUp 0 (ceilDiv d.length 8)).map (fun i => w64 (leNat (cut d (8 * i) 8)))

/-- The device block; the management function asks, but for the identification word and READY (R408). -/
def readDevice (s : State) (r : ReadReg) : Answer :=
  match r with
  | .playout => (.done, [w64 s.dev.lq])
  | .retire => (.done, [s.dev.retire])
  | .drainctl => (.done, [s.dev.drainctl])
  | .mr i => if i < 4 then (.done, byteWords (mrOf s i)) else (.notPermitted, [])
  | .trctl d => if d < 4 then (.done, [(traceOf s d).ctl]) else (.notPermitted, [])
  | .trbeat d =>
    if d < 4 then
      (.done, [w64 (match (traceOf s d).recs.head? with
        | some x => x.1
        | none => (traceOf s d).beat)])
    else (.notPermitted, [])
  | .traceRec d i =>
    if 4 ≤ d then (.notPermitted, [])
    else if (traceOf s d).recording then (.refused, [])
    else
      (match (traceOf s d).recs[i]? with
       | some x => (.done, [w64 x.2.2])
       | none => (.noRegister, []))
  | .darnCount d k => if d < 4 ∧ k < 7 then (.done, [w64 (mget 0 s.dev.darnCounts (8 * d + k))]) else (.notPermitted, [])
  | .queueRec q => if q < 32768 then (.done, (countUp 0 8).map (qword s q)) else (.notPermitted, [])
  | _ => (.notPermitted, [])

/-- A register of virtual core n of the partition in focus. -/
def readVC (s : State) (n : Nat) (f : VC → List Word64) : Answer :=
  match getVC s n with
  | some v => (.done, f v)
  | none => (.noRegister, [])

/-- Words 2 to 10 of a frame, once they are written (R404, R405). -/
def recordWords (l : List Nat) : Answer := if l.length < 2 then (.noRegister, []) else (.done, l.map w64)

/-- The control block, the debug block and the group entries of the partition in focus, whose VF asks (R408). -/
def readVF (s : State) (r : ReadReg) : Answer :=
  let p := s.part
  match r with
  | .pctl => (.done, [pctlWord p])
  | .hmask i => if i < 9 then (.done, [w64 (if Nat.log2 s.np ≤ i then 0 else hmaskOf s i)]) else (.notPermitted, [])
  | .ptroot => (.done, [p.ptroot])
  | .tlbinv => (.done, [p.tlbinv ||| w64 (4 * b2n p.tlbBusy)])
  | .vsbase => (.done, [p.vsbase])
  | .vsize => (.done, [p.vsize])
  | .dlallow => (.done, [w64 p.dlallow])
  | .ctxbase => (.done, [p.ctxbase])
  | .ctxn => (.done, [p.ctxn])
  | .equota => (.done, [p.equota])
  | .eused => (.done, [w64 (energyUsed p)])
  | .estat => (.done, [estatWord p])
  | .bp n hi => if n < 8 then (.done, [bpWord s n hi]) else (.notPermitted, [])
  | .counter c => (.done, [w64 (mget 0 p.counts (counterKey c))])
  | .conflicts n => readVC s n (fun v => (countUp 0 512).map (fun i => w64 (mget 0 v.conflicts i)))
  | .snapshot n i =>
    (match (getVC s n).bind (fun v => v.snaps[i]?) with
     | some m => (.done, (countUp 0 515).map (fun k => w64 (mget 0 m k)))
     | none => (.noRegister, []))
  | .ctrBase n => readVC s n (fun v => [v.ctrBase])
  | .ctrSize n => readVC s n (fun v => [v.ctrSize])
  | .ctrPtr n => readVC s n (fun v => [v.ctrPtr])
  | .ctrWrap n => readVC s n (fun v => [v.ctrWrap])
  | .stopRec n =>
    (match p.dstops.find? (fun x => x.1 == n) with
     | some x => recordWords x.2
     | none => (.noRegister, []))
  | .sample i =>
    (match p.samples[i]? with
     | some x => recordWords x.2
     | none => (.noRegister, []))
  | .silent c => if c / (1024 / s.m) = p.idx then (.done, [w64 (mget 0 s.dev.silent c)]) else (.notPermitted, [])
  | .group g =>
    if g < groupCount s then (.done, (countUp 0 8).map (groupWord s g)) else (.notPermitted, [])
  | _ => (.notPermitted, [])

/-- The registers of the device block that a VF may not read, and queue records (R408). -/
def mgmtOnly (r : ReadReg) : Bool :=
  match r with
  | .playout | .retire | .drainctl | .mr _ | .trctl _ | .trbeat _ | .traceRec _ _ | .darnCount _ _ | .queueRec _ => true
  | _ => false

/-- The answer to a register read by function fn (R406, R408). The PCTL of a partition beyond Q reads state 0 (R356). -/
def readReg (s : State) (fn : BitVec 5) (r : ReadReg) : Answer :=
  match r with
  | .ident => (.done, [s.dev.ident.setWidth 64])
  | .ready hi => (.done, [readyWord s (if hi then 64 else 0)])
  | .tail q => if q < 32768 ∧ isVF fn (qPart s q) then (.done, [w64 (qtail s q)]) else (.notPermitted, [])
  | .progress q => if q < 32768 ∧ isVF fn (qPart s q) then (.done, [w64 (qprogress s q)]) else (.notPermitted, [])
  | _ =>
    if isMgmt fn then readDevice s r
    else if mgmtOnly r then (.notPermitted, [])
    else
      match focusPart s (fn.toNat - 1) with
      | some t => readVF t r
      | none => if r = .pctl then (.done, [0]) else (.notPermitted, [])

/-- A register read and its response (R406). -/
def registerRead (s : State) (fn : BitVec 5) (r : ReadReg) : State :=
  let a := readReg s fn r
  reply s a.1 a.2

end Sys2Proof.Machine
end

