-- ==== Sys2Proof/Machine/Beat.lean ====
section
/-! DEFINITION. What the agents of a virtual core do at a beat, in the order of R94 and R153: the table engines, the heads
of the queues, inbound landings, the columns' scratchpad accesses, LD and ST, CTL, completions, and the end of the beat;
before them, once a beat, the partition's own units. Which agent moves next is State.mover (assumption log 4). -/

namespace Sys2Proof.Machine

/-! ### Sequencing -/

/-- Go on with a next state. -/
def andThen (o : Out) (k : State → Out) : Out :=
  match o with
  | .next s => k s
  | r => r

/-- One after another. -/
def forEach {α : Type} (s : State) (f : α → State → Out) : List α → Out
  | [] => .next s
  | a :: r => andThen (f a s) (fun t => forEach t f r)

/-- Go through a list of the state by index, from k on: an item that `f` removes gives its place to the next. -/
def sweep (len : State → Nat) (f : Nat → State → Out) (s : State) (k : Nat) : Nat → Out
  | 0 => .next s
  | n + 1 =>
    if len s ≤ k then .next s
    else andThen (f k s) (fun t => sweep len f t (if len t < len s then k else k + 1) n)

/-- Go through a whole list of the state. -/
def sweepAll (len : State → Nat) (f : Nat → State → Out) (s : State) : Out := sweep len f s 0 (len s)

/-! ### The head of a queue (R88, R96, R98, R101) -/

/-- The word at the head is no legal one: it fails its head checks with an illegal-instruction fault (R49, R140). -/
def execBadHead (q : Queue) (e : QEntry) (s : State) : Out :=
  issueWord s q (entryBits9 e) (fun _ => .fault 1 0) (fun _ => .ok) 0 none (fun _ _ t => t)

/-- A function word at the head of FX (R47, R212): it is exec of decodeFunc's instruction. -/
def execFuncWord (q : Queue) (x : QEntry) (s : State) : Out :=
  let e := entryBits9 x
  let d := ed x.word
  let a := ea x.word
  if eb x.word ≠ 0 ∨ e.plain = false then execBadHead q x s
  else
    match (emin x.word).toNat with
    | 0 => execSfExp2 e d a s
    | 1 => execSfLog2 e d a s
    | 2 => execSfRcp e d a s
    | 3 => execSfRsqrt e d a s
    | 4 => execSfSqrt e d a s
    | 5 => execSfSinpi e d a s
    | 6 => execSfCospi e d a s
    | 7 => execSfTanh e d a s
    | 8 => execSfLogistic e d a s
    | 16 => execEfExp2 e d a s
    | 17 => execEfLog2 e d a s
    | 18 => execEfRcp e d a s
    | 19 => execEfRsqrt e d a s
    | 20 => execEfSqrt e d a s
    | 21 => execEfSinpi e d a s
    | 22 => execEfCospi e d a s
    | 23 => execEfTanh e d a s
    | 24 => execEfLogistic e d a s
    | _ => execBadHead q x s

/-- What the head entry of a queue does: exec of the instruction that its word is. -/
def execHead (q : Queue) (x : QEntry) (s : State) : Out :=
  if x.bad then execBadHead q x s
  else if (majorOf x.word).toNat = 0x39 then execFuncWord q x s
  else
    match wfOr (decodeEngineCore x.word (entryBits9 x)) with
    | .ok i => exec i s
    | .error _ => execBadHead q x s

/-- A shared word of the columns has issued at this beat: their next entries are looked at from the next on (R101). -/
def sharedIssued (s : State) : Bool := s.vc.eng.flights.any (fun f => f.entry.shared && f.issued == s.vc.now)

/-- The breakpoints look at an entry that has become a head, or the instruction next to retire: unit, name and scheduled beat (R403). -/
def breakAt (h : Nat × Nat × Nat) (s : State) : Out :=
  if s.part.bp.isEmpty then .next s
  else
    andThen (forEach { s with vc.heads := [h] } (fun n t => execBreakpointHit (BitVec.ofNat 3 n) t) (countUp 0 8))
      (fun t => .next { t with vc.heads := [] })

/-- The entry of the head x in queue q, if it is still there. -/
def stillHead (s : State) (q : Queue) (x : QEntry) : Option QEntry :=
  match headOf s q with
  | some y => if y.seq = x.seq then some y else none
  | none => none

/-- The queues at which an entry issues: bits of R400. -/
def issueBits (q : Queue) (x : QEntry) : Nat := if x.shared then 30 else 2 ^ qCode q

/-- What the head x of queue q did from s to t is noted: its issue for the trace, and, when its head checks passed for the first time, a hit
(R400, R403). -/
def noteHead (q : Queue) (x : QEntry) (s t : State) : Out :=
  let left := stillHead t q x
  let t1 : State := if left.isNone then { t with vc.issuedNow := t.vc.issuedNow ||| issueBits q x } else t
  let reached := match left with
    | some y => y.reached
    | none => true
  if reached && !x.reached then
    breakAt (unitOf q x, x.name, (sched (queueNext s q x.shared) (entryBits9 x).delay.toNat x.stamp).1) t1
  else .next t1

/-- The head of queue q at this beat; an entry shared by the columns is looked at once, in MX (R101). -/
def queueBeat (q : Queue) (s : State) : Out :=
  match headOf s q with
  | none => .next s
  | some x =>
    if [Queue.vx, .fx, .rx].contains q && (x.shared || sharedIssued s) then .next s
    else andThen (execHead q x s) (noteHead q x s)

/-! ### Table entry (R145) -/

/-- The engine's run places its next micro-order. -/
def tableBeat (e : Engine) (s : State) : Out := if standing s then .next s else execTableEntryPlace e s

/-! ### Inbound landings (R153, R163, R169, R325) -/

/-- A darning buffer's place. -/
def darnIdx (s : State) (key : List Nat) : Nat := s.part.darns.findIdx (fun b => b.key == key)

/-- Ready messages are delivered: those of the collectives of the virtual core in focus, or (hub) the others (R309). -/
def deliverBeat (hub : Bool) (s : State) : Out :=
  let mine (b : Darn) : Bool := decide (b.state = .ready)
    && (if hub then 2 ≤ b.hd.tc else b.hd.tc < 2 && b.vc == some s.vc.id && b.resident s)
  forEach s (fun k t => execMessageDelivery (darnIdx t k) t) ((s.part.darns.filter mine).map (fun b => b.key))

/-- The next pieces of the messages from virtual core `src` to the one in focus land (R163). -/
def pieceBeat (src : Nat) (s : State) : Out :=
  let mine := s.launch.msgs.filter (fun m => m.dst == s.vc.id && m.src == src)
  forEach s (fun m t => execMessagePieceLanding (t.launch.msgs.findIdx (fun x => x.src == m.src && x.seqS == m.seqS)) t) mine

/-- Writes to the window of the virtual core in focus land: those of `src` to the scratchpad, or all the others (R169). -/
def mapBeat (src : Option Nat) (s : State) : Out :=
  sweepAll (fun t => t.launch.maps.length)
    (fun n t => match t.launch.maps[n]? with
      | some a =>
        if a.dst == t.vc.id && (match src with
            | some k => a.src == k && decide (a.off < t.share)
            | none => decide (t.share ≤ a.off)) then execMapAccessLanding n t else .next t
      | none => .next t) s

/-- The virtual cores from which something lands in the one in focus, in ascending order (R153). -/
def inboundSources (s : State) : List Nat :=
  (ascending (fun n => n) ((s.launch.msgs.filter (fun m => m.dst == s.vc.id)).map (fun m => m.src)
    ++ (s.launch.maps.filter (fun a => a.dst == s.vc.id && decide (a.off < s.share))).map (fun a => a.src)
    ++ s.vc.eng.flights.filterMap (fun f => f.land.map (fun p => p.1)))).eraseDups

/-- What comes in from outside the virtual core, with the first claim on the banks. -/
def inboundBeat (s : State) : Out :=
  if standing s then .next s
  else
    andThen (deliverBeat false s) fun s1 =>
    andThen (forEach s1 (fun k t => andThen (pieceBeat k (serveInbound k t)) (mapBeat (some k))) (inboundSources s1)) fun s3 =>
    sweepAll (fun t => t.vc.colls.length) execCollectiveDelivery s3

/-! ### Accesses of the scratchpad (R153) -/

/-- The columns' accesses, by rank. -/
def serveBeat (s : State) : Out :=
  if standing s then .next s
  else .next (serveQueue (serveQueue (serveQueue (serveQueue s .mx) .vx) .fx) .rx)

/-- The lines of an in-copy that are due land (R231, R232). -/
def copyLand (id : Nat) (s : State) : Nat → Out
  | 0 => .next s
  | n + 1 =>
    match (flightAt s id).bind (fun f => f.copy) with
    | none => .next s
    | some j =>
      match nextLine j with
      | none => .next s
      | some (l, _) => if s.vc.now < l.due then .next s else andThen (execCopyLineLanding id s) (fun t => copyLand id t n)

/-- A copy whose lines the copy engine of the core moves in the untimed class (R422). -/
def CopyJob.engineMoves (j : CopyJob) : Bool := !ccbTimed j.ccb && j.op != 7

/-- Copies in flight, out-copies or the others, that the engine moves or not. -/
def copyFlights (s : State) (out engine : Bool) : List Flight :=
  s.vc.eng.flights.filter (fun f => match f.copy with
    | some j => decide (4 ≤ j.op) == out && j.engineMoves == engine
    | none => false)

/-- What is left of a copy: nothing once it is over or has faulted. -/
def copyLeft (s : State) (id : Nat) : Nat :=
  match flightAt s id with
  | some f => if f.faulted then 0 else 1 + (match f.copy with
      | some j => (j.lines.filter (fun l => !l.done)).length
      | none => 0)
  | none => 0

/-- The first copy of a list that can move a line moves one. -/
def moveFirst (mv : Nat → State → Out) (s : State) : List Nat → Out
  | [] => .next s
  | id :: r => andThen (mv id s) (fun t => if copyLeft t id = copyLeft s id then moveFirst mv t r else .next t)

/-- The untimed in-copies that the engine turns to before the oldest out-copy that has read its source. -/
def enginePicks (s : State) : List Nat :=
  ((s.vc.eng.flights.takeWhile (fun f => !(f.ended && !f.faulted && (match f.copy with
      | some j => decide (4 ≤ j.op) && j.engineMoves
      | none => false)))).filter (fun f => match f.copy with
    | some j => decide (j.op < 4) && j.engineMoves
    | none => false)).map (fun f => f.seq)

/-- LD and ST: landings of copies, the accesses of their words, the sources of collectives, and the memory writes of
out-copies. The copy engine moves one line of the untimed class a beat, of the copy that issued first among those that can move one: the m
virtual cores of a core each have a beat in m physical ones (R19, R422; log 8). -/
def landBeat (s : State) : Out :=
  if standing s then .next s
  else
    andThen (forEach s (fun (f : Flight) t => copyLand f.seq t (match f.copy with
      | some j => j.lines.length
      | none => 0)) (copyFlights s false false)) fun s1 =>
    let ids := enginePicks s1
    andThen (moveFirst execCopyLineLanding s1 ids) fun s2 =>
    andThen (sweepAll (fun t => t.vc.colls.length) execCollectiveSourceRead (serveQueue (serveQueue s2 .ld) .st)) fun s3 =>
    andThen (forEach s3 (fun (f : Flight) t => execCopyMemoryWritePerform f.seq t) (copyFlights s3 true false)) fun s4 =>
    if ids.any (fun id => copyLeft s1 id != copyLeft s2 id) then .next s4
    else moveFirst execCopyMemoryWritePerform s4 ((copyFlights s4 true true).map (fun f => f.seq))

/-! ### Event records (R102, R103) -/

/-- An event record that finds the queue full: in a Lockstep launch it is lost with a fault against its poster, whose detail is
the record's source code; in an Elastic one it is held (R103, R369, R371). -/
def recordFull (s : State) (r : EvRec) : State :=
  match s.launch.mode with
  | .lockstep =>
    let src := if r.src = 0 then 1 else if r.src ≤ 2 then 6 else 7
    raiseAt s s.vc.id { src := src, cause := 0x12, detail := r.src, tval := if src = 7 then 0 else r.tval, beat := s.vc.now,
                        name := r.name, seq := r.seq, tepc := none }
  | .elastic => { s with vc.eng.heldEv := s.vc.eng.heldEv ++ [{ r with w0 := w64 (r.w0.toNat % 2 ^ 40), hold := 0 }] }

/-- Deliver a record posted at this beat (R102, R103). -/
def recordIn (s : State) (r : EvRec) : State :=
  if s.vc.eng.events.length < s.evCap then { s with vc.eng.events := s.vc.eng.events ++ [(r.w0, r.w1)] } else recordFull s r

/-- The records posted at this beat are delivered, by source code (R102). DESIGN CHOICE (log 19): they enter the queue at the end of the
beat, so CTL sees them from the next beat on, and an ev.pop of their own beat has made room for them. -/
def recordsIn (s : State) : State :=
  let due := s.vc.eng.evIn.filter (fun r => decide (r.beat ≤ s.vc.now))
  (ascending EvRec.src due).foldl recordIn
    { s with vc.eng.evIn := s.vc.eng.evIn.filter (fun r => decide (s.vc.now < r.beat)) }

/-! ### CTL (R112-R116) -/

/-- CTL may execute at this beat: it runs, no debug stop holds it, and it is in a handler, or no fault and no freeze has stopped it (R115, R377,
R378, R404). -/
def ctlRuns (s : State) : Bool :=
  decide (s.vc.run = .running) && s.vc.stop.isEmpty && !s.vc.held
    && (s.vc.ctl.h || (s.vc.faults.isEmpty && !frozenNow s))

/-- The instruction at pc has retired, from s to t. -/
def retiredNow (s t : State) : Bool := decide (t.vc.run ≠ .idle) && decide (t.vc.ctl.instret ≠ s.vc.ctl.instret)

/-- A CTL instruction that has retired at this beat, for the traces; a word that CTL passes on is its queue's (R400, R401). -/
def tellRetired (s t : State) : State := if retiredNow s t then { t with vc.retired := some s.vc.ctl.pc } else t

/-- The instruction of a list of words: CTL executes it, or passes it on (R41). -/
def ctlWord (s s1 : State) (ws : List Word32) : Out :=
  match splitWords ws with
  | .error _ => illegal s1
  | .ok (p, w, _) =>
    if engMajor (majorOf w).toNat then execEngineWordRoute s
    else if prefixLegal p w then
      match wfOr (decodeCtl w p.imm) with
      | .ok i => andThen (exec i s1) (fun t => .next (tellRetired s t))
      | .error _ => illegal s1
    else illegal s1

/-- CTL fetches the instruction at pc and executes it (R40, R112). DESIGN CHOICE (log 82): a fault of the fetch of a later word of the
instruction has the instruction's address in TVAL, as R40 has it reported there. -/
def ctlExec (s : State) : Out :=
  match fetchWords s s.vc.ctl.pc 3 with
  | .wait s1 => .next s1
  | .fault s1 c d => ctlFault s1 c d (tvalOf c s.vc.ctl.pc)
  | .ok s1 ws => ctlWord s s1 ws

/-- What CTL had before the instruction that it has executed from s to t, and what that took of tokens and records (R389). -/
def pastOf (s t : State) : Past :=
  let pushes (u : State) (f : Nat) : Nat := (u.vc.eng.pushIn.filter (fun p => p.2 == f)).length
  { beat := s.vc.pulse, now := s.vc.now, ctl := s.vc.ctl, dcache := s.vc.dcache, fifo := s.vc.fifo, atomics := s.vc.atomics,
    nextSeq := s.vc.eng.nextSeq, nextRun := s.vc.tbl.nextRun, arrived := s.vc.arrived, tx := s.vc.tx,
    took := (countUp 0 4).filter (fun f => decide (tokCount t f < tokCount s f)),
    gave := (countUp 0 4).filter (fun f => decide (pushes s f < pushes t f)),
    records := s.vc.eng.events.take (s.vc.eng.events.length - t.vc.eng.events.length) }

/-- What stood before is kept for three beats more. -/
def VC.keepPast (v : VC) (p : Past) : VC := { v with past := v.past.filter (fun x => decide (v.pulse < x.beat + 3)) ++ [p] }

/-- Note what CTL did from s to t: an instruction that it has executed, retired or waiting for its match, is the Collie's to compare; after
one that has retired another is next (R389, R390, R403). -/
def noteRetired (s t : State) : State :=
  if t.vc.run = .idle then t
  else if retiredNow s t then
    let u : State := { t with vc.ctl.matched := none, vc.ctlSeen := false }
    if s.vc.ctl.matched.isSome then u else { u with vc := u.vc.keepPast (pastOf s t) }
  else if t.vc.ctl.matched.isSome && s.vc.ctl.matched.isNone then { t with vc := t.vc.keepPast (pastOf s t) }
  else t

/-- The breakpoints look at the instruction at pc once, when it is the next to retire (R403). -/
def seeNext (s : State) : Out :=
  if s.vc.ctlSeen then .next s
  else breakAt (0, nameOfPc s.vc.ctl.pc, s.vc.now) { s with vc.ctlSeen := true }

/-- CTL executes an instruction, unless a breakpoint holds it. -/
def ctlGoes (s : State) : Out :=
  andThen (seeNext s) fun t => if ctlRuns t then andThen (ctlExec t) (fun u => .next (noteRetired t u)) else .next t

/-- Physical errors that are due are found before CTL's turn (R372); then a trap that has formed is taken, or an instruction is executed
(R374). -/
def ctlTurn (s : State) : Out :=
  andThen (if standing s then .next s else hitBeat s) fun s1 =>
  if s1.vc.ctl.h && !s.vc.ctl.h then .next s1
  else if !s1.vc.faults.isEmpty && !s1.vc.ctl.h && decide (s1.vc.run ≠ .idle) then execTrapEntry s1
  else if ctlRuns s1 then ctlGoes s1
  else .next s1

/-! ### The end of a beat (R94, R95, R103, R132, R230) -/

/-- Collective n of an Elastic launch that retired at this beat with its stamp behind reads its first piece at it (R325). -/
def newSource (n : Nat) (s : State) : Out :=
  match s.vc.colls[n]? with
  | some c => if c.issued = s.vc.now then execCollectiveSourceRead n s else .next s
  | none => .next s

/-- Completions and what follows them: effects due, held records, the words that complete, atomics performed (R94, R275). In a freeze only
atomics that a handler has issued are (log 89). -/
def postBeat (s : State) : Out :=
  if standing s then execAtomicHomePortPerform (firstAtomic s) s
  else
    andThen (execEventRecordHeldPost (applyDues (compatTrace s))) fun s1 =>
    andThen (forEach s1 execEngineWordCompletion (dueWords s1.vc)) fun s2 =>
    andThen (sweepAll (fun t => t.vc.colls.length)
      (fun n t => if t.vc.colls.any (fun c => c.issued == t.vc.now) then newSource n t else .next t) s2) fun s3 =>
    let s4 := finishRuns (releasePushes (sweepEnded (finishXc s3)))
    execAtomicHomePortPerform (firstAtomic s4) s4

/-- Darning buffers of the virtual core in focus; those that no virtual core on the cores waits for are the hub's. -/
def myDarn (s : State) (n : Nat) : Bool :=
  match s.part.darns[n]? with
  | some b => b.vc == some s.vc.id && b.resident s
  | none => true

/-- The buffer is for no virtual core of the running launch. -/
def hubDarn (s : State) (n : Nat) : Bool :=
  match s.part.darns[n]? with
  | some b => b.vc.isNone || !b.resident s
  | none => false

/-- The flushes of a window are applied at this device: it is the window's home. -/
def homeWindow (s : State) (n : Nat) (mine : Bool) : Bool :=
  match s.part.windows[n]? with
  | some w => w.atHome s && (if mine then w.mine s else decide (w.owner ≠ launchTag s))
  | none => false

/-- Landings outside the scratchpad and mailboxes, buffers decoded and freed, losses, and flushes of its windows (R169, R309, R311, R325,
R329). -/
def lateBeat (s : State) : Out :=
  if standing s then .next s
  else
    andThen (mapBeat none s) fun s1 =>
    andThen (forEach s1 (fun n t => if myDarn t n then execDarnDecode n t else .next t) (countUp 0 s1.part.darns.length)) fun s2 =>
    andThen (sweepAll (fun t => t.part.darns.length)
      (fun n t => if myDarn t n then execUnrecoverableLoss n t else .next t) s2) fun s3 =>
    andThen (sweepAll (fun t => t.vc.colls.length) (fun n t => execUnrecoverableLoss (t.part.darns.length + n) t) s3) fun s4 =>
    andThen (sweepAll (fun t => t.vc.colls.length) execCollectiveDelivery s4) fun s5 =>
    sweepAll (fun t => t.part.windows.length) (fun n t => if homeWindow t n true then execWindowFlushApply n t else .next t)
      (freeDelivered s5)

/-- The pushes that become visible at the next beat (R94). -/
def pushesIn (v : VC) : VC :=
  (v.eng.pushIn.filter (fun p => decide (p.1 ≤ v.now + 1))).foldl
    (fun (u : VC) p => { u with eng.tokens := mput 0 u.eng.tokens p.2 (mget 0 u.eng.tokens p.2 + 1) })
    { v with eng.pushIn := v.eng.pushIn.filter (fun p => decide (v.now + 1 < p.1)) }

/-- What belongs to one beat is over; CTL's own count goes on, also in a freeze (R153, R389, R400). -/
def VC.beatOver (v : VC) : VC :=
  { v with pulse := v.pulse + 1, claims := [], lostNow := [], lost := false, retired := none, issuedNow := 0, raised := 0, heads := [] }

/-- The beat of a virtual core is over: flags and tokens enter, TXN advances, the credit grows, its counter goes on
(R89, R94, R132, R186, R230). -/
def VC.nextBeat (v : VC) : VC :=
  let u := (pushesIn (flagsEnter v)).beatOver
  { u with now := v.now + 1, ywrote := [], eng.popped := [],
           tx.n := u.tx.n + w64 u.tx.adv, tx.adv := 0, eng.credit := Nat.min 32768 (u.eng.credit + 16) }

/-- The end of the beat of the virtual core in focus; in a freeze or a stop its counter stands (R89, R378, R404). -/
def tick (s : State) : State :=
  let s1 := enterCharges (fillRecords (traceBeat s))
  if standing s1 then { s1 with vc := s1.vc.beatOver }
  else
    let s2 := recordsIn s1
    { s2 with vc := s2.vc.nextBeat }

/-- The next virtual core of the launch comes into focus. -/
def nextVC (s : State) : State :=
  match s.peers with
  | [] => s
  | v :: r => { s with vc := v, peers := r ++ [s.vc] }

/-- The next partition comes into focus. -/
def nextPart (s : State) : State :=
  match s.others with
  | [] => s
  | x :: r => { s with part := x.part, launch := x.launch, vc := x.vc, peers := x.peers, others := r ++ [s.slice] }

/-- The end of a virtual core's turn: the next one's begins, after the last one the partition's beat ends and the next partition's
begins (log 4). -/
def handOver (s : State) : State :=
  let s1 := nextVC (tick s)
  if s1.vc.id = 0 then { nextPart (endPartBeat s1 s.vc.now) with mover := .hub } else { s1 with mover := .table .ld }

/-! ### The partition's own units -/

/-- Rows that the outside may cause, or whose moment the spec leaves to something outside the partition. -/
def outsideRow (i : Instr) : Bool :=
  match i with
  | .translationWalkComplete _ | .firstWriteLineCopy _ | .sweeperResolve _ | .outcomeArrival _ | .drainEngineTransfer
  | .drainAcknowledge | .fragmentArrival _ | .openingAlignmentBarrier | .barrierRelease _ | .queueTailWrite _ _ _
  | .launchPacketReceive _ _ | .preemptionRequest | .collieCompare _ | .stretchChange _ _ | .stretchForced _
  | .unrecoverableLoss _ | .windowFlushApply _ | .traceStop _ | .debugResume _ | .trctlWrite _ _ _ | .tlbinvPartition _ _
  | .tlbinvPage _ _ | .hmaskWrite _ _ _ | .playoutWrite _ _ | .pctlBind _ _ _ | .pctlUnbind _ _ _ | .pctlReset _ _ _
  | .eusedClear _ _ | .counterClear _ _ _ | .registerWrite _ _ _ | .controlLinkMemoryWrite _ _ _
  | .controlLinkMemoryRead _ _ _ | .firmwareImage _ | .quoteRequest _ | .powerOn | .linkDown _ | .managementResetRequest
  | .linkUp _ | .correctedErrorWindowEnd => true
  | _ => false

/-- A row of the inbox takes place at the partition and virtual core it comes to. -/
def inboxRow (r : Row) (s : State) : Out :=
  if outsideRow r.row then onPart s r.part (fun t => onVC t r.vc (exec r.row)) else .next s

/-- A level whose instances are released here; those of herd and job of a launch on more devices are released by what
arrives from them (R349, R350). -/
def releasesHere (s : State) (l : Level) : Bool :=
  match l with
  | .herd => decide (s.launch.mode = .lockstep) || decide (s.launch.hsize = 0)
  | .job => decide (s.launch.mode = .lockstep) || decide (s.launch.hcount = 0)
  | _ => true

/-- Barriers of the launch (R347-R350); one that a forced save froze passes its alignment barrier frozen (R385). -/
def barrierBeat (s : State) : Out :=
  if s.launch.live = false then .next s
  else
    andThen (if s.launch.multi then .next s else execOpeningAlignmentBarrier s) fun s1 =>
    if frozenNow s1 then .next s1
    else forEach s1 (fun l t => if releasesHere t l then execBarrierRelease l t else .next t)
      [.cluster, .die, .device, .herd, .job]

/-- The partition is idle with an eligible queue, or an urgent one has become eligible: a decision is due (R338). -/
def decisionDue (s : State) : Bool :=
  s.part.decision
    || (!s.launch.live && s.part.chosen.isNone && mayDispatch s && (queueIds s).any (eligible s))

/-- The scheduler: the end of a quantum, a decision, saves, the end of a launch, and the next dispatch (R335-R341,
R382-R387). -/
def schedulerBeat (s : State) : Out :=
  andThen (if s.launch.live then execQuantumEnd { s with part.quantum := s.part.quantum + s.m } else .next s) fun s1 =>
  andThen (if decisionDue s1 then execSchedulerDecision s1 else .next s1) fun s2 =>
  andThen (execForcedSave (saveIfParked s2)) fun s3 =>
  andThen (if frozenNow s3 then .next s3 else execLaunchCompletion s3) fun s4 =>
  match s4.part.chosen with
  | some q => execLaunchDispatch (BitVec.ofNat 15 q) s4
  | none => .next s4

/-- The version controller: the oldest drain sends a block, the sweeper resolves one, a first write copies a line (R287,
R288, R301). -/
def versionBeat (s : State) : Out :=
  andThen (execDrainEngineTransfer s) fun s1 =>
  andThen (match s1.part.blocks.find? (fun p => match p.2.e with
      | some e => (outcomeOf s1 e).isSome
      | none => false) with
    | some p => execSweeperResolve p.1 s1
    | none => .next s1) fun s2 =>
  match s2.part.blocks.find? (fun p => p.2.copy) with
  | some p => execFirstWriteLineCopy p.1 s2
  | none => .next s2

/-- A window of corrected errors closes when the reference clock has come this far (R395). -/
def closeWindow (s : State) (before : Nat) : Out :=
  if before / 2 ^ 32 = s.dev.refbeat / 2 ^ 32 then .next s else execCorrectedErrorWindowEnd s

/-- The device's units, once a beat of partition 0: the reference beat, accounting intervals, windows of corrected errors, the monitor,
changes of stretch, the traces (R109, R110, R364, R395, R399, R412). -/
def deviceBeat (s : State) : Out :=
  if s.part.idx ≠ 0 then .next s
  else
    let s1 := (countUp 0 s.m).foldl (fun t _ => traceTick t) { s with dev.refbeat := s.dev.refbeat + s.m }
    andThen (closeInterval s1 s.dev.refbeat) fun s2 =>
    andThen (closeWindow s2 s.dev.refbeat) fun s3 =>
    forEach (trainBeat s3) (fun d t =>
      andThen (execTraceStop (BitVec.ofNat 2 d) t) fun t1 =>
      andThen (match (mget stretchZero t1.dev.stretch d).pend with
        | some k => execStretchChange (BitVec.ofNat 2 d) (BitVec.ofNat 5 k) t1
        | none => .next t1) fun t2 =>
      execStretchForced (BitVec.ofNat 2 d) t2) (countUp 0 4)

/-- Buffers that are for no virtual core on the cores: decoded, lost, and the flushes of a saved launch's windows (R309, R311, R388). -/
def hubDarns (s : State) : Out :=
  andThen (forEach s (fun n t => if hubDarn t n then execDarnDecode n t else .next t) (countUp 0 s.part.darns.length)) fun s1 =>
  andThen (sweepAll (fun t => t.part.darns.length) (fun n t => if hubDarn t n then execUnrecoverableLoss n t else .next t) s1) fun s2 =>
  sweepAll (fun t => t.part.windows.length) (fun n t => if homeWindow t n false then execWindowFlushApply n t else .next t) s2

/-- The countdown to the forced save stands still while the launch is stopped, but the beats of virtual core 0 go on (R404). -/
def pauseBeat (s : State) : State :=
  if s.vcs.any (fun v => v.held) && !standing s && reqSet s then { s with launch.pause := s.launch.pause + 1 } else s

/-- Another device has asked the lead of the job for a pre-emption: it makes the request (R382; log 72). -/
def askedBeat (s : State) : State :=
  let s1 : State := { s with part.asked := false }
  if s.part.asked && isJobLead s then requestAt s1 s.vc.now else s1

/-- The partition's own units, before the beat of its first virtual core. A partition that resets does nothing else
(R357). -/
def partBeat (s : State) : Out :=
  andThen (deviceBeat s) fun s0 =>
  let s1 : State := handOut (flushReports (askedBeat (pauseBeat { s0 with part.walks := [] })))
  if s1.part.reset.isSome then execFunctionResetComplete s1
  else
    andThen (deliverBeat true (thaw s1)) fun s2 =>
    andThen (packetsIn s2) fun s3 =>
    andThen (hubDarns s3) fun s4 =>
    andThen (barrierBeat (savedAtomics s4)) fun s5 =>
    andThen (execDeviceVoteSend s5) fun s6 =>
    andThen (if s6.part.tlbBusy then execTlbinvDone s6 else .next s6) fun s7 =>
    andThen (versionBeat s7) schedulerBeat

/-- The hub's turn: the oldest input takes place, and when there is none the partition's own units move. -/
def hubBeat (s : State) : Out :=
  match s.inbox with
  | .row r :: rest => inboxRow r { s with inbox := rest }
  | .read fn r :: rest => .next (registerRead { s with inbox := rest } fn r)
  | .bus r :: rest => .next (busRead { s with inbox := rest } r)
  | .retire v :: rest => .next { s with inbox := rest, dev.retire := v }
  | .sensors ts p :: rest => .next (senseNow { s with inbox := rest } ts p)
  | [] => andThen (partBeat s) (fun t => .next { t with mover := .table .ld })

/-! ### One step -/

/-- After the agent that has moved comes this one; the hub sets its own successor, and after `late` the turn ends. -/
def Mover.after : Mover → Mover
  | .hub => .hub
  | .table .ld => .table .cmp
  | .table .cmp => .table .st
  | .table .st => .queue .ld
  | .queue .ld => .queue .mx
  | .queue .mx => .queue .vx
  | .queue .vx => .queue .fx
  | .queue .fx => .queue .rx
  | .queue .rx => .queue .st
  | .queue .st => .inbound
  | .inbound => .serve
  | .serve => .land
  | .land => .ctl
  | .ctl => .post
  | .post => .late
  | .late => .late

/-- What an agent does at its turn. -/
def agentBeat (m : Mover) (s : State) : Out :=
  match m with
  | .hub => hubBeat s
  | .table e => tableBeat e s
  | .queue q => queueBeat q s
  | .inbound => inboundBeat s
  | .serve => serveBeat s
  | .land => landBeat s
  | .ctl => ctlTurn s
  | .post => postBeat s
  | .late => lateBeat s

/-- The turn passes on. -/
def passOn (m : Mover) (s : State) : State :=
  match m with
  | .hub => s
  | .late => handOver s
  | _ => { s with mover := m.after }

/-! ### Placing an instruction where the next step runs it -/

/-- The bytes of an instruction whose bits are w, zeros above, up to three words. -/
def tableBytes (nbits w : Nat) : List Byte := leBytes (w % 2 ^ nbits) 12

/-- A queue entry that can issue at this beat. -/
def placedEntry (s : State) (w : Word32) : QEntry :=
  { routedEntry s Prefixes.empty w with ready := s.vc.now }

/-- The word stands alone in its queue, or in the four columns, whose last issue was at the beat before. -/
def placeAtHead (s : State) (q : Queue) (w : Word32) : State :=
  let e := placedEntry s w
  let put (en : Eng) (u : Queue) : Eng := en.setQ u { entries := [e], next := s.vc.now }
  let en := if e.shared then columns.foldl put s.vc.eng else put s.vc.eng q
  { s with vc.eng := { en with nextSeq := s.vc.eng.nextSeq + 1 }, mover := .queue q }

/-- The bytes stand at pc, in a page that CTL may execute, and CTL runs. -/
def placeAtPc (s : State) (d : List Byte) : State :=
  let pc := s.vc.ctl.pc.toNat
  let e : TlbE := { page := pc / 65536, size := 16, frame := 0, vb := false, x := true, w := false, rd := true }
  physWrite { s with vc.run := .running, vc.faults := [], vc.stop := [], vc.held := false, launch.frozen := none, vc.icache := [],
                     vc.tlb := [e], mover := .ctl } (pc % 65536) d

/-- The instruction stands where the next step runs it: at pc, or at the head of its queue. -/
def placeWord (s : State) (nbits w : Nat) : State :=
  let d := tableBytes nbits w
  let x : Word32 := BitVec.ofNat 32 (leNat (d.take 4))
  if engMajor (majorOf x).toNat then
    placeAtHead s (match queueOfMajor (majorOf x).toNat with
      | some q => q
      | none => .mx) x
  else placeAtPc s d

end Sys2Proof.Machine
end

