-- ==== Sys2Proof/Machine/Step.lean ====
section
/-! DEFINITION. One step of the machine: the agent whose turn it is moves (Beat.lean), and the turn passes on. -/

namespace Sys2Proof.Machine

/-- One step. -/
def step (s : State) : Host.Outcome State Fault Refusal :=
  match agentBeat s.mover s with
  | .next t => .next (passOn s.mover t)
  | r => r

/-- The instruction whose bits are w stands where the next step runs it (assumption log 6). -/
def State.withFetchWord (s : State) (nbits w : Nat) : State := placeWord s nbits w

end Sys2Proof.Machine
end

