-- ==== Sys2Proof/Laws/Fields.lean ====
section
/-! SUPPORT. What the fields of an encoded word read: one lemma per format and field. -/

set_option Elab.async false
set_option linter.unusedSimpArgs false

namespace Sys2Proof.Laws

/-- Two bit strings side by side as a number. -/
theorem toNat_app {v w : Nat} (x : BitVec v) (y : BitVec w) : (x ++ y).toNat = x.toNat * 2 ^ w + y.toNat := by
  rw [BitVec.toNat_append, ← Nat.shiftLeft_add_eq_or_of_lt y.isLt, Nat.shiftLeft_eq]

/-- A bit as a number's digit. -/
theorem getLsbD_digit {w : Nat} (x : BitVec w) (i : Nat) : x.getLsbD i = decide (x.toNat / 2 ^ i % 2 = 1) := by
  rw [BitVec.getLsbD, Nat.testBit_eq_decide_div_mod_eq]

/-- The number of the five control fields of an engine word. -/
theorem engBits_toNat (e : EngBits) :
    e.bits.toNat = e.popP.toNat * 256 + e.popN.toNat * 128 + e.pushP.toNat * 64 + e.pushN.toNat * 32 + e.delay.toNat := by
  simp only [EngBits.bits, toNat_app, BitVec.toNat_ofBool]; omega

@[simp] theorem majorOf_mkA (m d a b : BitVec 6) (n : BitVec 8) : majorOf (mkA m d a b n) = m := by
  apply BitVec.eq_of_toNat_eq
  simp only [majorOf, mkA, BitVec.extractLsb'_toNat, toNat_app, Nat.shiftRight_eq_div_pow]; omega

@[simp] theorem fd_mkA (m d a b : BitVec 6) (n : BitVec 8) : fd (mkA m d a b n) = d := by
  apply BitVec.eq_of_toNat_eq
  simp only [fd, mkA, BitVec.extractLsb'_toNat, toNat_app, Nat.shiftRight_eq_div_pow]; omega

@[simp] theorem fa_mkA (m d a b : BitVec 6) (n : BitVec 8) : fa (mkA m d a b n) = a := by
  apply BitVec.eq_of_toNat_eq
  simp only [fa, mkA, BitVec.extractLsb'_toNat, toNat_app, Nat.shiftRight_eq_div_pow]; omega

@[simp] theorem fb_mkA (m d a b : BitVec 6) (n : BitVec 8) : fb (mkA m d a b n) = b := by
  apply BitVec.eq_of_toNat_eq
  simp only [fb, mkA, BitVec.extractLsb'_toNat, toNat_app, Nat.shiftRight_eq_div_pow]; omega

@[simp] theorem fm_mkA (m d a b : BitVec 6) (n : BitVec 8) : fm (mkA m d a b n) = n := by
  apply BitVec.eq_of_toNat_eq
  simp only [fm, mkA, BitVec.extractLsb'_toNat, toNat_app, Nat.shiftRight_eq_div_pow]; omega

@[simp] theorem majorOf_mkA7 (m d a b : BitVec 6) (h : Bool) (n : BitVec 7) : majorOf (mkA7 m d a b h n) = m := by
  apply BitVec.eq_of_toNat_eq
  simp only [majorOf, mkA7, BitVec.extractLsb'_toNat, toNat_app, Nat.shiftRight_eq_div_pow, BitVec.toNat_ofBool]
  have := h.toNat_lt
  omega

@[simp] theorem fd_mkA7 (m d a b : BitVec 6) (h : Bool) (n : BitVec 7) : fd (mkA7 m d a b h n) = d := by
  apply BitVec.eq_of_toNat_eq
  simp only [fd, mkA7, BitVec.extractLsb'_toNat, toNat_app, Nat.shiftRight_eq_div_pow, BitVec.toNat_ofBool]
  have := h.toNat_lt
  omega

@[simp] theorem fa_mkA7 (m d a b : BitVec 6) (h : Bool) (n : BitVec 7) : fa (mkA7 m d a b h n) = a := by
  apply BitVec.eq_of_toNat_eq
  simp only [fa, mkA7, BitVec.extractLsb'_toNat, toNat_app, Nat.shiftRight_eq_div_pow, BitVec.toNat_ofBool]
  have := h.toNat_lt
  omega

@[simp] theorem fb_mkA7 (m d a b : BitVec 6) (h : Bool) (n : BitVec 7) : fb (mkA7 m d a b h n) = b := by
  apply BitVec.eq_of_toNat_eq
  simp only [fb, mkA7, BitVec.extractLsb'_toNat, toNat_app, Nat.shiftRight_eq_div_pow, BitVec.toNat_ofBool]
  have := h.toNat_lt
  omega

@[simp] theorem fm60_mkA7 (m d a b : BitVec 6) (h : Bool) (n : BitVec 7) : fm60 (mkA7 m d a b h n) = n := by
  apply BitVec.eq_of_toNat_eq
  simp only [fm60, mkA7, BitVec.extractLsb'_toNat, toNat_app, Nat.shiftRight_eq_div_pow, BitVec.toNat_ofBool]
  have := h.toNat_lt
  omega

@[simp] theorem fm7_mkA7 (m d a b : BitVec 6) (h : Bool) (n : BitVec 7) : fm7 (mkA7 m d a b h n) = h := by
  simp only [fm7, mkA7, getLsbD_digit, toNat_app, BitVec.toNat_ofBool]; cases h <;> simp <;> omega

@[simp] theorem majorOf_mkAt (d a b : BitVec 6) (h : Bool) (t : AType) (n : BitVec 4) : majorOf (mkAt d a b h t n) = 0x23#6 := by
  apply BitVec.eq_of_toNat_eq
  simp only [majorOf, mkAt, BitVec.extractLsb'_toNat, toNat_app, Nat.shiftRight_eq_div_pow, BitVec.toNat_ofBool, BitVec.reduceToNat]
  have := h.toNat_lt
  omega

@[simp] theorem fd_mkAt (d a b : BitVec 6) (h : Bool) (t : AType) (n : BitVec 4) : fd (mkAt d a b h t n) = d := by
  apply BitVec.eq_of_toNat_eq
  simp only [fd, mkAt, BitVec.extractLsb'_toNat, toNat_app, Nat.shiftRight_eq_div_pow, BitVec.toNat_ofBool, BitVec.reduceToNat]
  have := h.toNat_lt
  omega

@[simp] theorem fa_mkAt (d a b : BitVec 6) (h : Bool) (t : AType) (n : BitVec 4) : fa (mkAt d a b h t n) = a := by
  apply BitVec.eq_of_toNat_eq
  simp only [fa, mkAt, BitVec.extractLsb'_toNat, toNat_app, Nat.shiftRight_eq_div_pow, BitVec.toNat_ofBool, BitVec.reduceToNat]
  have := h.toNat_lt
  omega

@[simp] theorem fb_mkAt (d a b : BitVec 6) (h : Bool) (t : AType) (n : BitVec 4) : fb (mkAt d a b h t n) = b := by
  apply BitVec.eq_of_toNat_eq
  simp only [fb, mkAt, BitVec.extractLsb'_toNat, toNat_app, Nat.shiftRight_eq_div_pow, BitVec.toNat_ofBool, BitVec.reduceToNat]
  have := h.toNat_lt
  omega

@[simp] theorem fm30_mkAt (d a b : BitVec 6) (h : Bool) (t : AType) (n : BitVec 4) : fm30 (mkAt d a b h t n) = n := by
  apply BitVec.eq_of_toNat_eq
  simp only [fm30, mkAt, BitVec.extractLsb'_toNat, toNat_app, Nat.shiftRight_eq_div_pow, BitVec.toNat_ofBool, BitVec.reduceToNat]
  have := h.toNat_lt
  omega

@[simp] theorem fm64_mkAt (d a b : BitVec 6) (h : Bool) (t : AType) (n : BitVec 4) : fm64 (mkAt d a b h t n) = t.bits := by
  apply BitVec.eq_of_toNat_eq
  simp only [fm64, mkAt, BitVec.extractLsb'_toNat, toNat_app, Nat.shiftRight_eq_div_pow, BitVec.toNat_ofBool, BitVec.reduceToNat]
  have := h.toNat_lt
  omega

@[simp] theorem fm7_mkAt (d a b : BitVec 6) (h : Bool) (t : AType) (n : BitVec 4) : fm7 (mkAt d a b h t n) = h := by
  simp only [fm7, mkAt, getLsbD_digit, toNat_app, BitVec.toNat_ofBool]; cases h <;> simp <;> omega

@[simp] theorem majorOf_mkTok (d n : BitVec 6) (f : BitVec 2) : majorOf (mkTok d n f) = 0x24#6 := by
  apply BitVec.eq_of_toNat_eq
  simp only [majorOf, mkTok, BitVec.extractLsb'_toNat, toNat_app, Nat.shiftRight_eq_div_pow, BitVec.reduceToNat]; omega

@[simp] theorem fd_mkTok (d n : BitVec 6) (f : BitVec 2) : fd (mkTok d n f) = d := by
  apply BitVec.eq_of_toNat_eq
  simp only [fd, mkTok, BitVec.extractLsb'_toNat, toNat_app, Nat.shiftRight_eq_div_pow, BitVec.reduceToNat]; omega

@[simp] theorem fa_mkTok (d n : BitVec 6) (f : BitVec 2) : fa (mkTok d n f) = 0#6 := by
  apply BitVec.eq_of_toNat_eq
  simp only [fa, mkTok, BitVec.extractLsb'_toNat, toNat_app, Nat.shiftRight_eq_div_pow, BitVec.reduceToNat]; omega

@[simp] theorem fb_mkTok (d n : BitVec 6) (f : BitVec 2) : fb (mkTok d n f) = 0#6 := by
  apply BitVec.eq_of_toNat_eq
  simp only [fb, mkTok, BitVec.extractLsb'_toNat, toNat_app, Nat.shiftRight_eq_div_pow, BitVec.reduceToNat]; omega

@[simp] theorem fm72_mkTok (d n : BitVec 6) (f : BitVec 2) : fm72 (mkTok d n f) = n := by
  apply BitVec.eq_of_toNat_eq
  simp only [fm72, mkTok, BitVec.extractLsb'_toNat, toNat_app, Nat.shiftRight_eq_div_pow, BitVec.reduceToNat]; omega

@[simp] theorem fm10_mkTok (d n : BitVec 6) (f : BitVec 2) : fm10 (mkTok d n f) = f := by
  apply BitVec.eq_of_toNat_eq
  simp only [fm10, mkTok, BitVec.extractLsb'_toNat, toNat_app, Nat.shiftRight_eq_div_pow, BitVec.reduceToNat]; omega

@[simp] theorem majorOf_mkI (m d a : BitVec 6) (i : BitVec 14) : majorOf (mkI m d a i) = m := by
  apply BitVec.eq_of_toNat_eq
  simp only [majorOf, mkI, BitVec.extractLsb'_toNat, toNat_app, Nat.shiftRight_eq_div_pow]; omega

@[simp] theorem fd_mkI (m d a : BitVec 6) (i : BitVec 14) : fd (mkI m d a i) = d := by
  apply BitVec.eq_of_toNat_eq
  simp only [fd, mkI, BitVec.extractLsb'_toNat, toNat_app, Nat.shiftRight_eq_div_pow]; omega

@[simp] theorem fa_mkI (m d a : BitVec 6) (i : BitVec 14) : fa (mkI m d a i) = a := by
  apply BitVec.eq_of_toNat_eq
  simp only [fa, mkI, BitVec.extractLsb'_toNat, toNat_app, Nat.shiftRight_eq_div_pow]; omega

@[simp] theorem fi_mkI (m d a : BitVec 6) (i : BitVec 14) : fi (mkI m d a i) = i := by
  apply BitVec.eq_of_toNat_eq
  simp only [fi, mkI, BitVec.extractLsb'_toNat, toNat_app, Nat.shiftRight_eq_div_pow]; omega

@[simp] theorem majorOf_mkU (m d : BitVec 6) (i : BitVec 20) : majorOf (mkU m d i) = m := by
  apply BitVec.eq_of_toNat_eq
  simp only [majorOf, mkU, BitVec.extractLsb'_toNat, toNat_app, Nat.shiftRight_eq_div_pow]; omega

@[simp] theorem fd_mkU (m d : BitVec 6) (i : BitVec 20) : fd (mkU m d i) = d := by
  apply BitVec.eq_of_toNat_eq
  simp only [fd, mkU, BitVec.extractLsb'_toNat, toNat_app, Nat.shiftRight_eq_div_pow]; omega

@[simp] theorem fu_mkU (m d : BitVec 6) (i : BitVec 20) : fu (mkU m d i) = i := by
  apply BitVec.eq_of_toNat_eq
  simp only [fu, mkU, BitVec.extractLsb'_toNat, toNat_app, Nat.shiftRight_eq_div_pow]; omega

@[simp] theorem majorOf_mkJ (m : BitVec 6) (i : BitVec 26) : majorOf (mkJ m i) = m := by
  apply BitVec.eq_of_toNat_eq
  simp only [majorOf, mkJ, BitVec.extractLsb'_toNat, toNat_app, Nat.shiftRight_eq_div_pow]; omega

@[simp] theorem fj_mkJ (m : BitVec 6) (i : BitVec 26) : fj (mkJ m i) = i := by
  apply BitVec.eq_of_toNat_eq
  simp only [fj, mkJ, BitVec.extractLsb'_toNat, toNat_app, Nat.shiftRight_eq_div_pow]; omega

@[simp] theorem majorOf_mkE (m : BitVec 6) (e : EngBits) (n : BitVec 5) (d a b : BitVec 4) : majorOf (mkE m e n d a b) = m := by
  apply BitVec.eq_of_toNat_eq
  simp only [majorOf, mkE, BitVec.extractLsb'_toNat, toNat_app, Nat.shiftRight_eq_div_pow, engBits_toNat]
  have := e.popP.toNat_lt
  have := e.popN.toNat_lt
  have := e.pushP.toNat_lt
  have := e.pushN.toNat_lt
  omega

@[simp] theorem emin_mkE (m : BitVec 6) (e : EngBits) (n : BitVec 5) (d a b : BitVec 4) : emin (mkE m e n d a b) = n := by
  apply BitVec.eq_of_toNat_eq
  simp only [emin, mkE, BitVec.extractLsb'_toNat, toNat_app, Nat.shiftRight_eq_div_pow, engBits_toNat]
  have := e.popP.toNat_lt
  have := e.popN.toNat_lt
  have := e.pushP.toNat_lt
  have := e.pushN.toNat_lt
  omega

@[simp] theorem ed_mkE (m : BitVec 6) (e : EngBits) (n : BitVec 5) (d a b : BitVec 4) : ed (mkE m e n d a b) = d := by
  apply BitVec.eq_of_toNat_eq
  simp only [ed, mkE, BitVec.extractLsb'_toNat, toNat_app, Nat.shiftRight_eq_div_pow, engBits_toNat]
  have := e.popP.toNat_lt
  have := e.popN.toNat_lt
  have := e.pushP.toNat_lt
  have := e.pushN.toNat_lt
  omega

@[simp] theorem ea_mkE (m : BitVec 6) (e : EngBits) (n : BitVec 5) (d a b : BitVec 4) : ea (mkE m e n d a b) = a := by
  apply BitVec.eq_of_toNat_eq
  simp only [ea, mkE, BitVec.extractLsb'_toNat, toNat_app, Nat.shiftRight_eq_div_pow, engBits_toNat]
  have := e.popP.toNat_lt
  have := e.popN.toNat_lt
  have := e.pushP.toNat_lt
  have := e.pushN.toNat_lt
  omega

@[simp] theorem eb_mkE (m : BitVec 6) (e : EngBits) (n : BitVec 5) (d a b : BitVec 4) : eb (mkE m e n d a b) = b := by
  apply BitVec.eq_of_toNat_eq
  simp only [eb, mkE, BitVec.extractLsb'_toNat, toNat_app, Nat.shiftRight_eq_div_pow, engBits_toNat]
  have := e.popP.toNat_lt
  have := e.popN.toNat_lt
  have := e.pushP.toNat_lt
  have := e.pushN.toNat_lt
  omega

@[simp] theorem edelay_mkE (m : BitVec 6) (e : EngBits) (n : BitVec 5) (d a b : BitVec 4) : edelay (mkE m e n d a b) = e.delay := by
  apply BitVec.eq_of_toNat_eq
  simp only [edelay, mkE, BitVec.extractLsb'_toNat, toNat_app, Nat.shiftRight_eq_div_pow, engBits_toNat]
  have := e.popP.toNat_lt
  have := e.popN.toNat_lt
  have := e.pushP.toNat_lt
  have := e.pushN.toNat_lt
  omega

@[simp] theorem majorOf_mkN (m : BitVec 6) (e : EngBits) (n : BitVec 5) (i : BitVec 12) : majorOf (mkN m e n i) = m := by
  apply BitVec.eq_of_toNat_eq
  simp only [majorOf, mkN, BitVec.extractLsb'_toNat, toNat_app, Nat.shiftRight_eq_div_pow, engBits_toNat]
  have := e.popP.toNat_lt
  have := e.popN.toNat_lt
  have := e.pushP.toNat_lt
  have := e.pushN.toNat_lt
  omega

@[simp] theorem emin_mkN (m : BitVec 6) (e : EngBits) (n : BitVec 5) (i : BitVec 12) : emin (mkN m e n i) = n := by
  apply BitVec.eq_of_toNat_eq
  simp only [emin, mkN, BitVec.extractLsb'_toNat, toNat_app, Nat.shiftRight_eq_div_pow, engBits_toNat]
  have := e.popP.toNat_lt
  have := e.popN.toNat_lt
  have := e.pushP.toNat_lt
  have := e.pushN.toNat_lt
  omega

@[simp] theorem en_mkN (m : BitVec 6) (e : EngBits) (n : BitVec 5) (i : BitVec 12) : en (mkN m e n i) = i := by
  apply BitVec.eq_of_toNat_eq
  simp only [en, mkN, BitVec.extractLsb'_toNat, toNat_app, Nat.shiftRight_eq_div_pow, engBits_toNat]
  have := e.popP.toNat_lt
  have := e.popN.toNat_lt
  have := e.pushP.toNat_lt
  have := e.pushN.toNat_lt
  omega

@[simp] theorem edelay_mkN (m : BitVec 6) (e : EngBits) (n : BitVec 5) (i : BitVec 12) : edelay (mkN m e n i) = e.delay := by
  apply BitVec.eq_of_toNat_eq
  simp only [edelay, mkN, BitVec.extractLsb'_toNat, toNat_app, Nat.shiftRight_eq_div_pow, engBits_toNat]
  have := e.popP.toNat_lt
  have := e.popN.toNat_lt
  have := e.pushP.toNat_lt
  have := e.pushN.toNat_lt
  omega

@[simp] theorem majorOf_mkX (e : EngBits) (n : BitVec 5) (t : BitVec 8) (o : BitVec 4) : majorOf (mkX e n t o) = 0x35#6 := by
  apply BitVec.eq_of_toNat_eq
  simp only [majorOf, mkX, BitVec.extractLsb'_toNat, toNat_app, Nat.shiftRight_eq_div_pow, engBits_toNat, BitVec.reduceToNat]
  have := e.popP.toNat_lt
  have := e.popN.toNat_lt
  have := e.pushP.toNat_lt
  have := e.pushN.toNat_lt
  omega

@[simp] theorem emin_mkX (e : EngBits) (n : BitVec 5) (t : BitVec 8) (o : BitVec 4) : emin (mkX e n t o) = n := by
  apply BitVec.eq_of_toNat_eq
  simp only [emin, mkX, BitVec.extractLsb'_toNat, toNat_app, Nat.shiftRight_eq_div_pow, engBits_toNat, BitVec.reduceToNat]
  have := e.popP.toNat_lt
  have := e.popN.toNat_lt
  have := e.pushP.toNat_lt
  have := e.pushN.toNat_lt
  omega

@[simp] theorem et_mkX (e : EngBits) (n : BitVec 5) (t : BitVec 8) (o : BitVec 4) : et (mkX e n t o) = t := by
  apply BitVec.eq_of_toNat_eq
  simp only [et, mkX, BitVec.extractLsb'_toNat, toNat_app, Nat.shiftRight_eq_div_pow, engBits_toNat, BitVec.reduceToNat]
  have := e.popP.toNat_lt
  have := e.popN.toNat_lt
  have := e.pushP.toNat_lt
  have := e.pushN.toNat_lt
  omega

@[simp] theorem eb_mkX (e : EngBits) (n : BitVec 5) (t : BitVec 8) (o : BitVec 4) : eb (mkX e n t o) = o := by
  apply BitVec.eq_of_toNat_eq
  simp only [eb, mkX, BitVec.extractLsb'_toNat, toNat_app, Nat.shiftRight_eq_div_pow, engBits_toNat, BitVec.reduceToNat]
  have := e.popP.toNat_lt
  have := e.popN.toNat_lt
  have := e.pushP.toNat_lt
  have := e.pushN.toNat_lt
  omega

@[simp] theorem edelay_mkX (e : EngBits) (n : BitVec 5) (t : BitVec 8) (o : BitVec 4) : edelay (mkX e n t o) = e.delay := by
  apply BitVec.eq_of_toNat_eq
  simp only [edelay, mkX, BitVec.extractLsb'_toNat, toNat_app, Nat.shiftRight_eq_div_pow, engBits_toNat, BitVec.reduceToNat]
  have := e.popP.toNat_lt
  have := e.popN.toNat_lt
  have := e.pushP.toNat_lt
  have := e.pushN.toNat_lt
  omega

@[simp] theorem majorOf_mkM (e : EngBits) (k : Bool) (t : BitVec 8) (a b : BitVec 4) : majorOf (mkM e k t a b) = 0x34#6 := by
  apply BitVec.eq_of_toNat_eq
  simp only [majorOf, mkM, BitVec.extractLsb'_toNat, toNat_app, Nat.shiftRight_eq_div_pow, BitVec.toNat_ofBool, engBits_toNat, BitVec.reduceToNat]
  have := e.popP.toNat_lt
  have := e.popN.toNat_lt
  have := e.pushP.toNat_lt
  have := e.pushN.toNat_lt
  have := k.toNat_lt
  omega

@[simp] theorem ea_mkM (e : EngBits) (k : Bool) (t : BitVec 8) (a b : BitVec 4) : ea (mkM e k t a b) = a := by
  apply BitVec.eq_of_toNat_eq
  simp only [ea, mkM, BitVec.extractLsb'_toNat, toNat_app, Nat.shiftRight_eq_div_pow, BitVec.toNat_ofBool, engBits_toNat, BitVec.reduceToNat]
  have := e.popP.toNat_lt
  have := e.popN.toNat_lt
  have := e.pushP.toNat_lt
  have := e.pushN.toNat_lt
  have := k.toNat_lt
  omega

@[simp] theorem eb_mkM (e : EngBits) (k : Bool) (t : BitVec 8) (a b : BitVec 4) : eb (mkM e k t a b) = b := by
  apply BitVec.eq_of_toNat_eq
  simp only [eb, mkM, BitVec.extractLsb'_toNat, toNat_app, Nat.shiftRight_eq_div_pow, BitVec.toNat_ofBool, engBits_toNat, BitVec.reduceToNat]
  have := e.popP.toNat_lt
  have := e.popN.toNat_lt
  have := e.pushP.toNat_lt
  have := e.pushN.toNat_lt
  have := k.toNat_lt
  omega

@[simp] theorem edelay_mkM (e : EngBits) (k : Bool) (t : BitVec 8) (a b : BitVec 4) : edelay (mkM e k t a b) = e.delay := by
  apply BitVec.eq_of_toNat_eq
  simp only [edelay, mkM, BitVec.extractLsb'_toNat, toNat_app, Nat.shiftRight_eq_div_pow, BitVec.toNat_ofBool, engBits_toNat, BitVec.reduceToNat]
  have := e.popP.toNat_lt
  have := e.popN.toNat_lt
  have := e.pushP.toNat_lt
  have := e.pushN.toNat_lt
  have := k.toNat_lt
  omega

@[simp] theorem bit16_mkM (e : EngBits) (k : Bool) (t : BitVec 8) (a b : BitVec 4) :
    (mkM e k t a b)[16] = k := by
  rw [BitVec.getElem_eq_testBit_toNat, Nat.testBit_eq_decide_div_mod_eq]
  simp only [mkM, getLsbD_digit, toNat_app, BitVec.toNat_ofBool, engBits_toNat]; cases k <;> simp <;> omega

@[simp] theorem tile_mkM (e : EngBits) (k : Bool) (t : BitVec 8) (a b : BitVec 4) :
    (mkM e k t a b).extractLsb' 8 8 = t := by
  apply BitVec.eq_of_toNat_eq
  simp only [mkM, BitVec.extractLsb'_toNat, toNat_app, Nat.shiftRight_eq_div_pow, BitVec.toNat_ofBool, engBits_toNat]
  omega

@[simp] theorem fm60_mkA (m d a b : BitVec 6) (n : BitVec 8) : fm60 (mkA m d a b n) = n.extractLsb' 0 7 := by
  apply BitVec.eq_of_toNat_eq
  simp only [fm60, mkA, BitVec.extractLsb'_toNat, toNat_app, Nat.shiftRight_eq_div_pow]; omega

@[simp] theorem fm7_mkA (m d a b : BitVec 6) (n : BitVec 8) : fm7 (mkA m d a b n) = n.getLsbD 7 := by
  simp only [fm7, mkA, getLsbD_digit, toNat_app, decide_eq_decide]; omega

/-- The control fields of a word whose bits 25:17 are those of `e`. -/
theorem engBits_of (p : Prefixes) (e : EngBits) (w : Word32) (hi lo : Nat) (hl : lo < 2 ^ 17)
    (h : w.toNat = hi * 2 ^ 26 + e.bits.toNat * 2 ^ 17 + lo) :
    engBits p w = { e with stamp := p.stamp, metaP := p.metaP } := by
  have h1 := e.delay.isLt
  have hd : edelay w = e.delay := by
    apply BitVec.eq_of_toNat_eq
    have := e.popP.toNat_lt
    simp only [edelay, BitVec.extractLsb'_toNat, Nat.shiftRight_eq_div_pow, h, engBits_toNat]
    omega
  have hb : w.getLsbD 25 = e.popP ∧ w.getLsbD 24 = e.popN ∧ w.getLsbD 23 = e.pushP ∧ w.getLsbD 22 = e.pushN := by
    simp only [getLsbD_digit, h, engBits_toNat]
    rcases e with ⟨x1, x2, x3, x4, x5, x6, x7⟩
    simp only at h1 ⊢
    cases x1 <;> cases x2 <;> cases x3 <;> cases x4 <;>
      simp only [Bool.toNat_true, Bool.toNat_false, decide_eq_true_eq, decide_eq_false_iff_not] <;> omega
  simp only [engBits, hd, hb.1, hb.2.1, hb.2.2.1, hb.2.2.2]

/-- The control fields of an encoded engine word read back. -/
@[simp] theorem engBits_mkE (p : Prefixes) (m : BitVec 6) (e : EngBits) (n : BitVec 5) (d a b : BitVec 4) :
    engBits p (mkE m e n d a b) = { e with stamp := p.stamp, metaP := p.metaP } := by
  refine engBits_of p e _ (m.toNat) (n.toNat * 4096 + d.toNat * 256 + a.toNat * 16 + b.toNat) (by omega) ?_
  simp only [mkE, toNat_app]; omega

/-- The control fields of an encoded engine word read back. -/
@[simp] theorem engBits_mkN (p : Prefixes) (m : BitVec 6) (e : EngBits) (n : BitVec 5) (i : BitVec 12) :
    engBits p (mkN m e n i) = { e with stamp := p.stamp, metaP := p.metaP } := by
  refine engBits_of p e _ (m.toNat) (n.toNat * 4096 + i.toNat) (by omega) ?_
  simp only [mkN, toNat_app]; omega

/-- The control fields of an encoded engine word read back. -/
@[simp] theorem engBits_mkX (p : Prefixes) (e : EngBits) (n : BitVec 5) (t : BitVec 8) (o : BitVec 4) :
    engBits p (mkX e n t o) = { e with stamp := p.stamp, metaP := p.metaP } := by
  refine engBits_of p e _ (0x35) (n.toNat * 4096 + t.toNat * 16 + o.toNat) (by omega) ?_
  simp only [mkX, toNat_app, BitVec.reduceToNat]; omega

/-- The control fields of an encoded engine word read back. -/
@[simp] theorem engBits_mkM (p : Prefixes) (e : EngBits) (k : Bool) (t : BitVec 8) (a b : BitVec 4) :
    engBits p (mkM e k t a b) = { e with stamp := p.stamp, metaP := p.metaP } := by
  have := k.toNat_lt
  refine engBits_of p e _ (0x34) (k.toNat * 65536 + t.toNat * 256 + a.toNat * 16 + b.toNat) (by omega) ?_
  simp only [mkM, toNat_app, BitVec.toNat_ofBool, BitVec.reduceToNat]; omega

end Sys2Proof.Laws
end

