-- ==== Sys2Proof/Laws/PerInstr.lean ====
section
/-! SUPPORT. For each instruction: decoding the words that encode it gives it back, every operand at every value. -/

set_option Elab.async false
set_option linter.unusedSimpArgs false

namespace Sys2Proof.Laws

/-- Decoding the words of an instruction gives it back. -/
def RoundTrip.Statement (i : Instr) : Prop :=
  ∀ ws, i.wf = true → encode i = some ws → decodeWords ws = .ok (i, ws.length)

theorem ext_major (k : BitVec 2) (v : BitVec 24) : isExt (mkExt k v) = true := by
  have : majorOf (mkExt k v) = 0x3E#6 := by
    apply BitVec.eq_of_toNat_eq
    simp only [majorOf, mkExt, BitVec.extractLsb'_toNat, toNat_app, Nat.shiftRight_eq_div_pow, BitVec.reduceToNat]
    omega
  simp [isExt, this]
theorem ext_kind (k : BitVec 2) (v : BitVec 24) : (mkExt k v).extractLsb' 24 2 = k := by
  apply BitVec.eq_of_toNat_eq
  simp only [mkExt, BitVec.extractLsb'_toNat, toNat_app, Nat.shiftRight_eq_div_pow, BitVec.reduceToNat]
  omega
theorem ext_payload (k : BitVec 2) (v : BitVec 24) : (mkExt k v).extractLsb' 0 24 = v := by
  apply BitVec.eq_of_toNat_eq
  simp only [mkExt, BitVec.extractLsb'_toNat, toNat_app, Nat.shiftRight_eq_div_pow, BitVec.reduceToNat]
  omega

/-- A word of another major is no prefix. -/
theorem isExt_of {w : Word32} {m : BitVec 6} (h : majorOf w = m) (hm : m ≠ 0x3E#6) : isExt w = false := by
  have : m.toNat ≠ 0x3E := fun e => hm (BitVec.eq_of_toNat_eq e)
  simp [isExt, h, this]

/-- A CTL word, with or without IMM. -/
theorem decodeWord_ctl (i : Instr) (w : Word32) (p : Prefixes) (m : BitVec 6) (hm : majorOf w = m)
    (he : engMajor m.toNat = false) (hp : prefixLegal p w = true) (hd : decodeCtl w p.imm = .ok i) (hw : i.wf = true) :
    decodeWord p w = .ok i := by
  simp [decodeWord, hp, hm, he, hd, wfOr, hw]

/-- An instruction of CTL that takes no prefix. -/
theorem roundTrip_ctl (i : Instr) (w : Word32) (m : BitVec 6) (hw : encodeWord i = some w) (hp : encodePrefixes i = [])
    (hm : majorOf w = m) (hx : m ≠ 0x3E#6) (he : engMajor m.toNat = false)
    (hd : i.wf = true → decodeCtl w none = .ok i) : RoundTrip.Statement i := by
  intro ws h e
  simp only [encode, hw, hp, List.nil_append, Option.some.injEq] at e
  subst e
  have := decodeWord_ctl i w Prefixes.empty m hm he rfl (hd h) h
  simp [decodeWords, splitWords, isExt_of hm hx, this]

/-- An instruction of CTL that may carry IMM. -/
theorem roundTrip_imm (i : Instr) (w : Word32) (m : BitVec 6) (x : Option (BitVec 24)) (hw : encodeWord i = some w)
    (hi : i.immOf = x) (hn : i.engOf = none) (hm : majorOf w = m) (hx : m ≠ 0x3E#6) (he : engMajor m.toNat = false)
    (hl : immMajor m.toNat = true) (hd : decodeCtl w x = .ok i) : RoundTrip.Statement i := by
  intro ws h e
  have hp : prefixLegal ⟨x, none, none, none⟩ w = true := by simp [prefixLegal, hm, hl]
  have := decodeWord_ctl i w ⟨x, none, none, none⟩ m hm he hp hd h
  cases x with
  | none =>
    simp only [encode, hw, encodePrefixes, hi, hn, List.nil_append, Option.some.injEq] at e
    subst e
    simp [decodeWords, splitWords, isExt_of hm hx, Prefixes.empty, this]
  | some v =>
    simp only [encode, hw, encodePrefixes, hi, hn, Option.some.injEq] at e
    subst e
    simp [decodeWords, splitWords, isExt_of hm hx, ext_major, Prefixes.add, ext_kind, ext_payload, Prefixes.empty, this]

/-- An engine word. -/
theorem roundTrip_eng (i : Instr) (w : Word32) (m : BitVec 6) (x : EngBits) (hw : encodeWord i = some w)
    (hi : i.immOf = none) (hn : i.engOf = some x) (hm : majorOf w = m) (hx : m ≠ 0x3E#6)
    (hd : i.wf = true → decodeWord ⟨none, x.stamp, none, x.metaP⟩ w = .ok i) : RoundTrip.Statement i := by
  intro ws h e
  have := hd h
  obtain ⟨e1, e2, e3, e4, e5, st, mt⟩ := x
  cases st <;> cases mt <;>
    (simp only [encode, hw, encodePrefixes, hi, hn, List.nil_append, Option.some.injEq] at e this
     subst e
     simp [decodeWords, splitWords, isExt_of hm hx, ext_major, Prefixes.add, ext_kind, ext_payload, Prefixes.empty, this])

theorem small2 (k : BitVec 2) : k.toNat % 64 < 4 := by
  have := k.isLt
  omega
theorem small3 (k : BitVec 3) : k.toNat % 64 < 8 := by
  have := k.isLt
  omega
theorem small4 (k : BitVec 4) : k.toNat % 64 < 16 := by
  have := k.isLt
  omega
/-- A field put into six bits reads back. -/
theorem back {n : Nat} (h : n ≤ 6) (k : BitVec n) : BitVec.setWidth n (BitVec.setWidth 6 k) = k := by
  apply BitVec.eq_of_toNat_eq
  have := k.isLt
  have h6 : 2 ^ n ≤ 2 ^ 6 := Nat.pow_le_pow_right (by omega) h
  simp only [BitVec.toNat_setWidth]
  rw [Nat.mod_eq_of_lt (show k.toNat < 2 ^ 6 by omega), Nat.mod_eq_of_lt this]
theorem csr_op (o : BitVec 2) (c : BitVec 12) : (mkCsr o c).extractLsb' 12 2 = o := by
  apply BitVec.eq_of_toNat_eq
  simp only [mkCsr, BitVec.extractLsb'_toNat, toNat_app, Nat.shiftRight_eq_div_pow]; omega
theorem csr_num (o : BitVec 2) (c : BitVec 12) : (mkCsr o c).extractLsb' 0 12 = c := by
  apply BitVec.eq_of_toNat_eq
  simp only [mkCsr, BitVec.extractLsb'_toNat, toNat_app, Nat.shiftRight_eq_div_pow]; omega
theorem sh_top (k : BitVec 2) (n : BitVec 6) : (mkSh k n).extractLsb' 8 6 = 0#6 := by
  apply BitVec.eq_of_toNat_eq
  simp only [mkSh, BitVec.extractLsb'_toNat, toNat_app, Nat.shiftRight_eq_div_pow, BitVec.reduceToNat]; omega
theorem sh_kind (k : BitVec 2) (n : BitVec 6) : (mkSh k n).extractLsb' 6 2 = k := by
  apply BitVec.eq_of_toNat_eq
  simp only [mkSh, BitVec.extractLsb'_toNat, toNat_app, Nat.shiftRight_eq_div_pow, BitVec.reduceToNat]; omega
theorem sh_amt (k : BitVec 2) (n : BitVec 6) : (mkSh k n).extractLsb' 0 6 = n := by
  apply BitVec.eq_of_toNat_eq
  simp only [mkSh, BitVec.extractLsb'_toNat, toNat_app, Nat.shiftRight_eq_div_pow, BitVec.reduceToNat]; omega
theorem ofBits_bits (t : AType) : AType.ofBits t.bits = some t := by cases t <;> decide
/-- The mask of a queue fence reads back, and the bits above it are zero. -/
theorem mask_top (m : BitVec 6) (e : EngBits) (n : BitVec 5) (k : BitVec 7) :
    (mkN m e n (0#5 ++ k)).extractLsb' 7 5 = 0#5 := by
  apply BitVec.eq_of_toNat_eq
  simp only [mkN, BitVec.extractLsb'_toNat, toNat_app, Nat.shiftRight_eq_div_pow, BitVec.reduceToNat, engBits_toNat]; omega
theorem mask_low (m : BitVec 6) (e : EngBits) (n : BitVec 5) (k : BitVec 7) :
    (mkN m e n (0#5 ++ k)).extractLsb' 0 7 = k := by
  apply BitVec.eq_of_toNat_eq
  simp only [mkN, BitVec.extractLsb'_toNat, toNat_app, Nat.shiftRight_eq_div_pow, BitVec.reduceToNat, engBits_toNat]; omega

/-- A stamped word has a zero delay. -/
theorem stampOk_delay {e : EngBits} {w : Word32} (hd : edelay w = e.delay) (h : e.stampOk = true) :
    (e.stamp.isNone || edelay w == 0) = true := by
  rw [hd]; exact h

/-- The prefixes of an engine word are legal when its stamp and META are. -/
theorem prefixLegal_eng (e : EngBits) (w : Word32) (hm : engMajor (majorOf w).toNat = true)
    (hd : edelay w = e.delay) (hs : e.stampOk = true) (hl : ∀ m, e.metaP = some m → metaLegal w m = true) :
    prefixLegal ⟨none, e.stamp, none, e.metaP⟩ w = true := by
  have h1 := stampOk_delay hd hs
  cases hq : e.metaP with
  | none => simp only [prefixLegal, hm]; simpa using h1
  | some m => simp only [prefixLegal, hm, hl m hq]; simpa using h1

/-- An engine word whose prefixes are legal. -/
theorem decodeWord_eng (i : Instr) (e : EngBits) (w : Word32) (m : BitVec 6) (hm : majorOf w = m)
    (hg : engMajor m.toNat = true) (he : engBits ⟨none, e.stamp, none, e.metaP⟩ w = e) (hd : edelay w = e.delay)
    (hs : e.stampOk = true) (hl : ∀ m, e.metaP = some m → metaLegal w m = true)
    (hi : decodeEngine w e = .ok i) (hw : i.wf = true) : decodeWord ⟨none, e.stamp, none, e.metaP⟩ w = .ok i := by
  have hq := prefixLegal_eng e w (hm ▸ hg) hd hs hl
  simp [decodeWord, hq, hm, hg, he, hi, wfOr, hw]

/-- A word that takes no META. -/
theorem plain_parts {e : EngBits} (h : e.plain = true) :
    e.stampOk = true ∧ ∀ w m, e.metaP = some m → metaLegal w m = true := by
  simp only [EngBits.plain, Bool.and_eq_true, Option.isNone_iff_eq_none] at h
  exact ⟨h.1, fun _ m hm => by simp [h.2] at hm⟩

/-- An MMA word. -/
theorem mma_parts {e : EngBits} (h : e.mmaOk = true) :
    e.stampOk = true ∧ ∀ w m, (majorOf w).toNat = 0x34 → e.metaP = some m → metaLegal w m = true := by
  simp only [EngBits.mmaOk, Bool.and_eq_true] at h
  refine ⟨h.1, fun w m hw hm => ?_⟩
  have h2 := h.2
  rw [hm] at h2
  simp only [beq_iff_eq] at h2
  simp [metaLegal, h2, hw]

/-- A copy word. -/
theorem copy_parts {e : EngBits} {d : BitVec 4} (h : e.copyOk d = true) :
    e.stampOk = true ∧ ∀ w m, copyWord w = true → ed w = d → e.metaP = some m → metaLegal w m = true := by
  simp only [EngBits.copyOk, Bool.and_eq_true] at h
  refine ⟨h.1, fun w m hc hed hm => ?_⟩
  have h2 := h.2
  rw [hm] at h2
  simp only [Bool.and_eq_true, beq_iff_eq] at h2
  simp [metaLegal, h2.1, hc, hed, h2.2]

/-- A check that holds. -/
theorem guard_ok {c : Bool} {i : Instr} (h : c = true) : guardField c i = .ok i := by simp [guardField, h]

/-! ### The decoder by major -/

theorem ctl_1 (w : Word32) (x : Option (BitVec 24)) (h : majorOf w = 1#6) :
    decodeCtl w x = decodeAlu w := by
  simp only [decodeCtl, h, BitVec.reduceToNat]
theorem ctl_2 (w : Word32) (x : Option (BitVec 24)) (h : majorOf w = 2#6) :
    decodeCtl w x = .ok (.addi (fd w) (fa w) (fi w) x) := by
  simp only [decodeCtl, h, BitVec.reduceToNat]
theorem ctl_3 (w : Word32) (x : Option (BitVec 24)) (h : majorOf w = 3#6) :
    decodeCtl w x = .ok (.andi (fd w) (fa w) (fi w) x) := by
  simp only [decodeCtl, h, BitVec.reduceToNat]
theorem ctl_4 (w : Word32) (x : Option (BitVec 24)) (h : majorOf w = 4#6) :
    decodeCtl w x = .ok (.ori (fd w) (fa w) (fi w) x) := by
  simp only [decodeCtl, h, BitVec.reduceToNat]
theorem ctl_5 (w : Word32) (x : Option (BitVec 24)) (h : majorOf w = 5#6) :
    decodeCtl w x = .ok (.xori (fd w) (fa w) (fi w) x) := by
  simp only [decodeCtl, h, BitVec.reduceToNat]
theorem ctl_6 (w : Word32) (x : Option (BitVec 24)) (h : majorOf w = 6#6) :
    decodeCtl w x = decodeShift w := by
  simp only [decodeCtl, h, BitVec.reduceToNat]
theorem ctl_7 (w : Word32) (x : Option (BitVec 24)) (h : majorOf w = 7#6) :
    decodeCtl w x = .ok (.slti (fd w) (fa w) (fi w) x) := by
  simp only [decodeCtl, h, BitVec.reduceToNat]
theorem ctl_8 (w : Word32) (x : Option (BitVec 24)) (h : majorOf w = 8#6) :
    decodeCtl w x = .ok (.lih (fd w) (fu w) x) := by
  simp only [decodeCtl, h, BitVec.reduceToNat]
theorem ctl_9 (w : Word32) (x : Option (BitVec 24)) (h : majorOf w = 9#6) :
    decodeCtl w x = .ok (.addpc (fd w) (fu w) x) := by
  simp only [decodeCtl, h, BitVec.reduceToNat]
theorem ctl_10 (w : Word32) (x : Option (BitVec 24)) (h : majorOf w = 10#6) :
    decodeCtl w x = decodeMulDiv w := by
  simp only [decodeCtl, h, BitVec.reduceToNat]
theorem ctl_11 (w : Word32) (x : Option (BitVec 24)) (h : majorOf w = 11#6) :
    decodeCtl w x = decodeFloat w := by
  simp only [decodeCtl, h, BitVec.reduceToNat]
theorem ctl_12 (w : Word32) (x : Option (BitVec 24)) (h : majorOf w = 12#6) :
    decodeCtl w x = .ok (.ldI8 (fd w) (fa w) (fi w) x) := by
  simp only [decodeCtl, h, BitVec.reduceToNat]
theorem ctl_13 (w : Word32) (x : Option (BitVec 24)) (h : majorOf w = 13#6) :
    decodeCtl w x = .ok (.ldN8 (fd w) (fa w) (fi w) x) := by
  simp only [decodeCtl, h, BitVec.reduceToNat]
theorem ctl_14 (w : Word32) (x : Option (BitVec 24)) (h : majorOf w = 14#6) :
    decodeCtl w x = .ok (.ldI16 (fd w) (fa w) (fi w) x) := by
  simp only [decodeCtl, h, BitVec.reduceToNat]
theorem ctl_15 (w : Word32) (x : Option (BitVec 24)) (h : majorOf w = 15#6) :
    decodeCtl w x = .ok (.ldN16 (fd w) (fa w) (fi w) x) := by
  simp only [decodeCtl, h, BitVec.reduceToNat]
theorem ctl_16 (w : Word32) (x : Option (BitVec 24)) (h : majorOf w = 16#6) :
    decodeCtl w x = .ok (.ldI32 (fd w) (fa w) (fi w) x) := by
  simp only [decodeCtl, h, BitVec.reduceToNat]
theorem ctl_17 (w : Word32) (x : Option (BitVec 24)) (h : majorOf w = 17#6) :
    decodeCtl w x = .ok (.ldN32 (fd w) (fa w) (fi w) x) := by
  simp only [decodeCtl, h, BitVec.reduceToNat]
theorem ctl_18 (w : Word32) (x : Option (BitVec 24)) (h : majorOf w = 18#6) :
    decodeCtl w x = .ok (.ld64 (fd w) (fa w) (fi w) x) := by
  simp only [decodeCtl, h, BitVec.reduceToNat]
theorem ctl_20 (w : Word32) (x : Option (BitVec 24)) (h : majorOf w = 20#6) :
    decodeCtl w x = .ok (.st8 (fd w) (fa w) (fi w) x) := by
  simp only [decodeCtl, h, BitVec.reduceToNat]
theorem ctl_21 (w : Word32) (x : Option (BitVec 24)) (h : majorOf w = 21#6) :
    decodeCtl w x = .ok (.st16 (fd w) (fa w) (fi w) x) := by
  simp only [decodeCtl, h, BitVec.reduceToNat]
theorem ctl_22 (w : Word32) (x : Option (BitVec 24)) (h : majorOf w = 22#6) :
    decodeCtl w x = .ok (.st32 (fd w) (fa w) (fi w) x) := by
  simp only [decodeCtl, h, BitVec.reduceToNat]
theorem ctl_23 (w : Word32) (x : Option (BitVec 24)) (h : majorOf w = 23#6) :
    decodeCtl w x = .ok (.st64 (fd w) (fa w) (fi w) x) := by
  simp only [decodeCtl, h, BitVec.reduceToNat]
theorem ctl_24 (w : Word32) (x : Option (BitVec 24)) (h : majorOf w = 24#6) :
    decodeCtl w x = .ok (.beq (fd w) (fa w) (fi w) x) := by
  simp only [decodeCtl, h, BitVec.reduceToNat]
theorem ctl_25 (w : Word32) (x : Option (BitVec 24)) (h : majorOf w = 25#6) :
    decodeCtl w x = .ok (.bne (fd w) (fa w) (fi w) x) := by
  simp only [decodeCtl, h, BitVec.reduceToNat]
theorem ctl_26 (w : Word32) (x : Option (BitVec 24)) (h : majorOf w = 26#6) :
    decodeCtl w x = .ok (.blt (fd w) (fa w) (fi w) x) := by
  simp only [decodeCtl, h, BitVec.reduceToNat]
theorem ctl_27 (w : Word32) (x : Option (BitVec 24)) (h : majorOf w = 27#6) :
    decodeCtl w x = .ok (.bge (fd w) (fa w) (fi w) x) := by
  simp only [decodeCtl, h, BitVec.reduceToNat]
theorem ctl_28 (w : Word32) (x : Option (BitVec 24)) (h : majorOf w = 28#6) :
    decodeCtl w x = .ok (.bltn (fd w) (fa w) (fi w) x) := by
  simp only [decodeCtl, h, BitVec.reduceToNat]
theorem ctl_29 (w : Word32) (x : Option (BitVec 24)) (h : majorOf w = 29#6) :
    decodeCtl w x = .ok (.bgen (fd w) (fa w) (fi w) x) := by
  simp only [decodeCtl, h, BitVec.reduceToNat]
theorem ctl_30 (w : Word32) (x : Option (BitVec 24)) (h : majorOf w = 30#6) :
    decodeCtl w x = .ok (.j (fj w) x) := by
  simp only [decodeCtl, h, BitVec.reduceToNat]
theorem ctl_31 (w : Word32) (x : Option (BitVec 24)) (h : majorOf w = 31#6) :
    decodeCtl w x = .ok (.jal (fj w) x) := by
  simp only [decodeCtl, h, BitVec.reduceToNat]
theorem ctl_32 (w : Word32) (x : Option (BitVec 24)) (h : majorOf w = 32#6) :
    decodeCtl w x = .ok (.jalr (fd w) (fa w) (fi w) x) := by
  simp only [decodeCtl, h, BitVec.reduceToNat]
theorem ctl_33 (w : Word32) (x : Option (BitVec 24)) (h : majorOf w = 33#6) :
    decodeCtl w x = decodeCsr w := by
  simp only [decodeCtl, h, BitVec.reduceToNat]
theorem ctl_34 (w : Word32) (x : Option (BitVec 24)) (h : majorOf w = 34#6) :
    decodeCtl w x = decodeSystem w := by
  simp only [decodeCtl, h, BitVec.reduceToNat]
theorem ctl_35 (w : Word32) (x : Option (BitVec 24)) (h : majorOf w = 35#6) :
    decodeCtl w x = decodeAtomic w := by
  simp only [decodeCtl, h, BitVec.reduceToNat]
theorem ctl_36 (w : Word32) (x : Option (BitVec 24)) (h : majorOf w = 36#6) :
    decodeCtl w x = decodeTokens w := by
  simp only [decodeCtl, h, BitVec.reduceToNat]
theorem ctl_37 (w : Word32) (x : Option (BitVec 24)) (h : majorOf w = 37#6) :
    decodeCtl w x = decodeTables w := by
  simp only [decodeCtl, h, BitVec.reduceToNat]
theorem ctl_38 (w : Word32) (x : Option (BitVec 24)) (h : majorOf w = 38#6) :
    decodeCtl w x = decodeStreams w := by
  simp only [decodeCtl, h, BitVec.reduceToNat]
theorem ctl_39 (w : Word32) (x : Option (BitVec 24)) (h : majorOf w = 39#6) :
    decodeCtl w x = decodeTx w := by
  simp only [decodeCtl, h, BitVec.reduceToNat]
theorem ctl_40 (w : Word32) (x : Option (BitVec 24)) (h : majorOf w = 40#6) :
    decodeCtl w x = decodeDomains w := by
  simp only [decodeCtl, h, BitVec.reduceToNat]
theorem ctl_41 (w : Word32) (x : Option (BitVec 24)) (h : majorOf w = 41#6) :
    decodeCtl w x = decodeColl w := by
  simp only [decodeCtl, h, BitVec.reduceToNat]
theorem ctl_42 (w : Word32) (x : Option (BitVec 24)) (h : majorOf w = 42#6) :
    decodeCtl w x = decodeMoves w := by
  simp only [decodeCtl, h, BitVec.reduceToNat]
theorem ctl_43 (w : Word32) (x : Option (BitVec 24)) (h : majorOf w = 43#6) :
    decodeCtl w x = decodeBlocks w := by
  simp only [decodeCtl, h, BitVec.reduceToNat]
theorem ctl_44 (w : Word32) (x : Option (BitVec 24)) (h : majorOf w = 44#6) :
    decodeCtl w x = decodeSafe w := by
  simp only [decodeCtl, h, BitVec.reduceToNat]
theorem eng_48 (w : Word32) (e : EngBits) (h : majorOf w = 48#6) :
    decodeEngine w e = decodeCopyIn w e := by
  simp [decodeEngine, decodeEngineCore, h]
theorem eng_49 (w : Word32) (e : EngBits) (h : majorOf w = 49#6) :
    decodeEngine w e = decodeRing w e := by
  simp [decodeEngine, decodeEngineCore, h]
theorem eng_50 (w : Word32) (e : EngBits) (h : majorOf w = 50#6) :
    decodeEngine w e = decodeRecv w e := by
  simp [decodeEngine, decodeEngineCore, h]
theorem eng_51 (w : Word32) (e : EngBits) (h : majorOf w = 51#6) :
    decodeEngine w e = decodeLdWait w e := by
  simp [decodeEngine, decodeEngineCore, h]
theorem eng_52 (w : Word32) (e : EngBits) (h : majorOf w = 52#6) :
    decodeEngine w e = decodeMma w e := by
  simp [decodeEngine, decodeEngineCore, h]
theorem eng_53 (w : Word32) (e : EngBits) (h : majorOf w = 53#6) :
    decodeEngine w e = decodeMx w e := by
  simp [decodeEngine, decodeEngineCore, h]
theorem eng_54 (w : Word32) (e : EngBits) (h : majorOf w = 54#6) :
    decodeEngine w e = decodeArith w e := by
  simp [decodeEngine, decodeEngineCore, h]
theorem eng_55 (w : Word32) (e : EngBits) (h : majorOf w = 55#6) :
    decodeEngine w e = decodeLogic w e := by
  simp [decodeEngine, decodeEngineCore, h]
theorem eng_56 (w : Word32) (e : EngBits) (h : majorOf w = 56#6) :
    decodeEngine w e = decodeConvert w e := by
  simp [decodeEngine, decodeEngineCore, h]
theorem eng_58 (w : Word32) (e : EngBits) (h : majorOf w = 58#6) :
    decodeEngine w e = decodeReduce w e := by
  simp [decodeEngine, decodeEngineCore, h]
theorem eng_59 (w : Word32) (e : EngBits) (h : majorOf w = 59#6) :
    decodeEngine w e = decodeCmpWait w e := by
  simp [decodeEngine, decodeEngineCore, h]
theorem eng_60 (w : Word32) (e : EngBits) (h : majorOf w = 60#6) :
    decodeEngine w e = decodeCopyOut w e := by
  simp [decodeEngine, decodeEngineCore, h]
theorem eng_61 (w : Word32) (e : EngBits) (h : majorOf w = 61#6) :
    decodeEngine w e = decodeSend w e := by
  simp [decodeEngine, decodeEngineCore, h]
theorem eng_57 (w : Word32) (e : EngBits) (h : majorOf w = 57#6) :
    decodeEngine w e = decodeFunc w e := by
  simp [decodeEngine, h]


theorem RoundTrip.add (rd : BitVec 6) (ra : BitVec 6) (rb : BitVec 6) : RoundTrip.Statement (.add rd ra rb) :=
  roundTrip_ctl _ (mkA 1 rd ra rb 0) 1 rfl rfl (majorOf_mkA ..) (by decide) (by decide) (fun _ =>
    (ctl_1 _ _ (majorOf_mkA ..)).trans (by simp [decodeAlu, fd_mkA, fa_mkA, fb_mkA, fm_mkA]))

theorem RoundTrip.sub (rd : BitVec 6) (ra : BitVec 6) (rb : BitVec 6) : RoundTrip.Statement (.sub rd ra rb) :=
  roundTrip_ctl _ (mkA 1 rd ra rb 1) 1 rfl rfl (majorOf_mkA ..) (by decide) (by decide) (fun _ =>
    (ctl_1 _ _ (majorOf_mkA ..)).trans (by simp [decodeAlu, fd_mkA, fa_mkA, fb_mkA, fm_mkA]))

theorem RoundTrip.and (rd : BitVec 6) (ra : BitVec 6) (rb : BitVec 6) : RoundTrip.Statement (.and rd ra rb) :=
  roundTrip_ctl _ (mkA 1 rd ra rb 2) 1 rfl rfl (majorOf_mkA ..) (by decide) (by decide) (fun _ =>
    (ctl_1 _ _ (majorOf_mkA ..)).trans (by simp [decodeAlu, fd_mkA, fa_mkA, fb_mkA, fm_mkA]))

theorem RoundTrip.or (rd : BitVec 6) (ra : BitVec 6) (rb : BitVec 6) : RoundTrip.Statement (.or rd ra rb) :=
  roundTrip_ctl _ (mkA 1 rd ra rb 3) 1 rfl rfl (majorOf_mkA ..) (by decide) (by decide) (fun _ =>
    (ctl_1 _ _ (majorOf_mkA ..)).trans (by simp [decodeAlu, fd_mkA, fa_mkA, fb_mkA, fm_mkA]))

theorem RoundTrip.xor (rd : BitVec 6) (ra : BitVec 6) (rb : BitVec 6) : RoundTrip.Statement (.xor rd ra rb) :=
  roundTrip_ctl _ (mkA 1 rd ra rb 4) 1 rfl rfl (majorOf_mkA ..) (by decide) (by decide) (fun _ =>
    (ctl_1 _ _ (majorOf_mkA ..)).trans (by simp [decodeAlu, fd_mkA, fa_mkA, fb_mkA, fm_mkA]))

theorem RoundTrip.andn (rd : BitVec 6) (ra : BitVec 6) (rb : BitVec 6) : RoundTrip.Statement (.andn rd ra rb) :=
  roundTrip_ctl _ (mkA 1 rd ra rb 5) 1 rfl rfl (majorOf_mkA ..) (by decide) (by decide) (fun _ =>
    (ctl_1 _ _ (majorOf_mkA ..)).trans (by simp [decodeAlu, fd_mkA, fa_mkA, fb_mkA, fm_mkA]))

theorem RoundTrip.sll (rd : BitVec 6) (ra : BitVec 6) (rb : BitVec 6) : RoundTrip.Statement (.sll rd ra rb) :=
  roundTrip_ctl _ (mkA 1 rd ra rb 6) 1 rfl rfl (majorOf_mkA ..) (by decide) (by decide) (fun _ =>
    (ctl_1 _ _ (majorOf_mkA ..)).trans (by simp [decodeAlu, fd_mkA, fa_mkA, fb_mkA, fm_mkA]))

theorem RoundTrip.srl (rd : BitVec 6) (ra : BitVec 6) (rb : BitVec 6) : RoundTrip.Statement (.srl rd ra rb) :=
  roundTrip_ctl _ (mkA 1 rd ra rb 7) 1 rfl rfl (majorOf_mkA ..) (by decide) (by decide) (fun _ =>
    (ctl_1 _ _ (majorOf_mkA ..)).trans (by simp [decodeAlu, fd_mkA, fa_mkA, fb_mkA, fm_mkA]))

theorem RoundTrip.sra (rd : BitVec 6) (ra : BitVec 6) (rb : BitVec 6) : RoundTrip.Statement (.sra rd ra rb) :=
  roundTrip_ctl _ (mkA 1 rd ra rb 8) 1 rfl rfl (majorOf_mkA ..) (by decide) (by decide) (fun _ =>
    (ctl_1 _ _ (majorOf_mkA ..)).trans (by simp [decodeAlu, fd_mkA, fa_mkA, fb_mkA, fm_mkA]))

theorem RoundTrip.rol (rd : BitVec 6) (ra : BitVec 6) (rb : BitVec 6) : RoundTrip.Statement (.rol rd ra rb) :=
  roundTrip_ctl _ (mkA 1 rd ra rb 9) 1 rfl rfl (majorOf_mkA ..) (by decide) (by decide) (fun _ =>
    (ctl_1 _ _ (majorOf_mkA ..)).trans (by simp [decodeAlu, fd_mkA, fa_mkA, fb_mkA, fm_mkA]))

theorem RoundTrip.ror (rd : BitVec 6) (ra : BitVec 6) (rb : BitVec 6) : RoundTrip.Statement (.ror rd ra rb) :=
  roundTrip_ctl _ (mkA 1 rd ra rb 10) 1 rfl rfl (majorOf_mkA ..) (by decide) (by decide) (fun _ =>
    (ctl_1 _ _ (majorOf_mkA ..)).trans (by simp [decodeAlu, fd_mkA, fa_mkA, fb_mkA, fm_mkA]))

theorem RoundTrip.slt (rd : BitVec 6) (ra : BitVec 6) (rb : BitVec 6) : RoundTrip.Statement (.slt rd ra rb) :=
  roundTrip_ctl _ (mkA 1 rd ra rb 11) 1 rfl rfl (majorOf_mkA ..) (by decide) (by decide) (fun _ =>
    (ctl_1 _ _ (majorOf_mkA ..)).trans (by simp [decodeAlu, fd_mkA, fa_mkA, fb_mkA, fm_mkA]))

theorem RoundTrip.sltn (rd : BitVec 6) (ra : BitVec 6) (rb : BitVec 6) : RoundTrip.Statement (.sltn rd ra rb) :=
  roundTrip_ctl _ (mkA 1 rd ra rb 12) 1 rfl rfl (majorOf_mkA ..) (by decide) (by decide) (fun _ =>
    (ctl_1 _ _ (majorOf_mkA ..)).trans (by simp [decodeAlu, fd_mkA, fa_mkA, fb_mkA, fm_mkA]))

theorem RoundTrip.min (rd : BitVec 6) (ra : BitVec 6) (rb : BitVec 6) : RoundTrip.Statement (.min rd ra rb) :=
  roundTrip_ctl _ (mkA 1 rd ra rb 13) 1 rfl rfl (majorOf_mkA ..) (by decide) (by decide) (fun _ =>
    (ctl_1 _ _ (majorOf_mkA ..)).trans (by simp [decodeAlu, fd_mkA, fa_mkA, fb_mkA, fm_mkA]))

theorem RoundTrip.max (rd : BitVec 6) (ra : BitVec 6) (rb : BitVec 6) : RoundTrip.Statement (.max rd ra rb) :=
  roundTrip_ctl _ (mkA 1 rd ra rb 14) 1 rfl rfl (majorOf_mkA ..) (by decide) (by decide) (fun _ =>
    (ctl_1 _ _ (majorOf_mkA ..)).trans (by simp [decodeAlu, fd_mkA, fa_mkA, fb_mkA, fm_mkA]))

theorem RoundTrip.minn (rd : BitVec 6) (ra : BitVec 6) (rb : BitVec 6) : RoundTrip.Statement (.minn rd ra rb) :=
  roundTrip_ctl _ (mkA 1 rd ra rb 15) 1 rfl rfl (majorOf_mkA ..) (by decide) (by decide) (fun _ =>
    (ctl_1 _ _ (majorOf_mkA ..)).trans (by simp [decodeAlu, fd_mkA, fa_mkA, fb_mkA, fm_mkA]))

theorem RoundTrip.maxn (rd : BitVec 6) (ra : BitVec 6) (rb : BitVec 6) : RoundTrip.Statement (.maxn rd ra rb) :=
  roundTrip_ctl _ (mkA 1 rd ra rb 16) 1 rfl rfl (majorOf_mkA ..) (by decide) (by decide) (fun _ =>
    (ctl_1 _ _ (majorOf_mkA ..)).trans (by simp [decodeAlu, fd_mkA, fa_mkA, fb_mkA, fm_mkA]))

theorem RoundTrip.addw (rd : BitVec 6) (ra : BitVec 6) (rb : BitVec 6) : RoundTrip.Statement (.addw rd ra rb) :=
  roundTrip_ctl _ (mkA 1 rd ra rb 17) 1 rfl rfl (majorOf_mkA ..) (by decide) (by decide) (fun _ =>
    (ctl_1 _ _ (majorOf_mkA ..)).trans (by simp [decodeAlu, fd_mkA, fa_mkA, fb_mkA, fm_mkA]))

theorem RoundTrip.subw (rd : BitVec 6) (ra : BitVec 6) (rb : BitVec 6) : RoundTrip.Statement (.subw rd ra rb) :=
  roundTrip_ctl _ (mkA 1 rd ra rb 18) 1 rfl rfl (majorOf_mkA ..) (by decide) (by decide) (fun _ =>
    (ctl_1 _ _ (majorOf_mkA ..)).trans (by simp [decodeAlu, fd_mkA, fa_mkA, fb_mkA, fm_mkA]))

theorem RoundTrip.clz (rd : BitVec 6) (ra : BitVec 6) : RoundTrip.Statement (.clz rd ra) :=
  roundTrip_ctl _ (mkA 1 rd ra 0 19) 1 rfl rfl (majorOf_mkA ..) (by decide) (by decide) (fun _ =>
    (ctl_1 _ _ (majorOf_mkA ..)).trans (by simp [decodeAlu, fd_mkA, fa_mkA, fb_mkA, fm_mkA, guardField]))

theorem RoundTrip.ctz (rd : BitVec 6) (ra : BitVec 6) : RoundTrip.Statement (.ctz rd ra) :=
  roundTrip_ctl _ (mkA 1 rd ra 0 20) 1 rfl rfl (majorOf_mkA ..) (by decide) (by decide) (fun _ =>
    (ctl_1 _ _ (majorOf_mkA ..)).trans (by simp [decodeAlu, fd_mkA, fa_mkA, fb_mkA, fm_mkA, guardField]))

theorem RoundTrip.popc (rd : BitVec 6) (ra : BitVec 6) : RoundTrip.Statement (.popc rd ra) :=
  roundTrip_ctl _ (mkA 1 rd ra 0 21) 1 rfl rfl (majorOf_mkA ..) (by decide) (by decide) (fun _ =>
    (ctl_1 _ _ (majorOf_mkA ..)).trans (by simp [decodeAlu, fd_mkA, fa_mkA, fb_mkA, fm_mkA, guardField]))

theorem RoundTrip.bswap (rd : BitVec 6) (ra : BitVec 6) : RoundTrip.Statement (.bswap rd ra) :=
  roundTrip_ctl _ (mkA 1 rd ra 0 22) 1 rfl rfl (majorOf_mkA ..) (by decide) (by decide) (fun _ =>
    (ctl_1 _ _ (majorOf_mkA ..)).trans (by simp [decodeAlu, fd_mkA, fa_mkA, fb_mkA, fm_mkA, guardField]))

theorem RoundTrip.addi (rd : BitVec 6) (ra : BitVec 6) (imm : BitVec 14) (ext : Option (BitVec 24)) : RoundTrip.Statement (.addi rd ra imm ext) :=
  roundTrip_imm _ (mkI 2 rd ra imm) 2 ext rfl rfl rfl (majorOf_mkI ..) (by decide) (by decide) (by decide)
    ((ctl_2 _ _ (majorOf_mkI ..)).trans (by simp only [fd_mkI, fa_mkI, fi_mkI]))

theorem RoundTrip.andi (rd : BitVec 6) (ra : BitVec 6) (imm : BitVec 14) (ext : Option (BitVec 24)) : RoundTrip.Statement (.andi rd ra imm ext) :=
  roundTrip_imm _ (mkI 3 rd ra imm) 3 ext rfl rfl rfl (majorOf_mkI ..) (by decide) (by decide) (by decide)
    ((ctl_3 _ _ (majorOf_mkI ..)).trans (by simp only [fd_mkI, fa_mkI, fi_mkI]))

theorem RoundTrip.ori (rd : BitVec 6) (ra : BitVec 6) (imm : BitVec 14) (ext : Option (BitVec 24)) : RoundTrip.Statement (.ori rd ra imm ext) :=
  roundTrip_imm _ (mkI 4 rd ra imm) 4 ext rfl rfl rfl (majorOf_mkI ..) (by decide) (by decide) (by decide)
    ((ctl_4 _ _ (majorOf_mkI ..)).trans (by simp only [fd_mkI, fa_mkI, fi_mkI]))

theorem RoundTrip.xori (rd : BitVec 6) (ra : BitVec 6) (imm : BitVec 14) (ext : Option (BitVec 24)) : RoundTrip.Statement (.xori rd ra imm ext) :=
  roundTrip_imm _ (mkI 5 rd ra imm) 5 ext rfl rfl rfl (majorOf_mkI ..) (by decide) (by decide) (by decide)
    ((ctl_5 _ _ (majorOf_mkI ..)).trans (by simp only [fd_mkI, fa_mkI, fi_mkI]))

theorem RoundTrip.slli (rd : BitVec 6) (ra : BitVec 6) (sh : BitVec 6) : RoundTrip.Statement (.slli rd ra sh) :=
  roundTrip_ctl _ (mkI 6 rd ra (mkSh 0 sh)) 6 rfl rfl (majorOf_mkI ..) (by decide) (by decide) (fun _ =>
    (ctl_6 _ _ (majorOf_mkI ..)).trans (by simp [decodeShift, fd_mkI, fa_mkI, fi_mkI, guardErr, sh_top, sh_kind, sh_amt]))

theorem RoundTrip.srli (rd : BitVec 6) (ra : BitVec 6) (sh : BitVec 6) : RoundTrip.Statement (.srli rd ra sh) :=
  roundTrip_ctl _ (mkI 6 rd ra (mkSh 1 sh)) 6 rfl rfl (majorOf_mkI ..) (by decide) (by decide) (fun _ =>
    (ctl_6 _ _ (majorOf_mkI ..)).trans (by simp [decodeShift, fd_mkI, fa_mkI, fi_mkI, guardErr, sh_top, sh_kind, sh_amt]))

theorem RoundTrip.srai (rd : BitVec 6) (ra : BitVec 6) (sh : BitVec 6) : RoundTrip.Statement (.srai rd ra sh) :=
  roundTrip_ctl _ (mkI 6 rd ra (mkSh 2 sh)) 6 rfl rfl (majorOf_mkI ..) (by decide) (by decide) (fun _ =>
    (ctl_6 _ _ (majorOf_mkI ..)).trans (by simp [decodeShift, fd_mkI, fa_mkI, fi_mkI, guardErr, sh_top, sh_kind, sh_amt]))

theorem RoundTrip.slti (rd : BitVec 6) (ra : BitVec 6) (imm : BitVec 14) (ext : Option (BitVec 24)) : RoundTrip.Statement (.slti rd ra imm ext) :=
  roundTrip_imm _ (mkI 7 rd ra imm) 7 ext rfl rfl rfl (majorOf_mkI ..) (by decide) (by decide) (by decide)
    ((ctl_7 _ _ (majorOf_mkI ..)).trans (by simp only [fd_mkI, fa_mkI, fi_mkI]))

theorem RoundTrip.lih (rd : BitVec 6) (imm : BitVec 20) (ext : Option (BitVec 24)) : RoundTrip.Statement (.lih rd imm ext) :=
  roundTrip_imm _ (mkU 8 rd imm) 8 ext rfl rfl rfl (majorOf_mkU ..) (by decide) (by decide) (by decide)
    ((ctl_8 _ _ (majorOf_mkU ..)).trans (by simp only [fd_mkU, fu_mkU]))

theorem RoundTrip.addpc (rd : BitVec 6) (imm : BitVec 20) (ext : Option (BitVec 24)) : RoundTrip.Statement (.addpc rd imm ext) :=
  roundTrip_imm _ (mkU 9 rd imm) 9 ext rfl rfl rfl (majorOf_mkU ..) (by decide) (by decide) (by decide)
    ((ctl_9 _ _ (majorOf_mkU ..)).trans (by simp only [fd_mkU, fu_mkU]))

theorem RoundTrip.mul (rd : BitVec 6) (ra : BitVec 6) (rb : BitVec 6) : RoundTrip.Statement (.mul rd ra rb) :=
  roundTrip_ctl _ (mkA 10 rd ra rb 0) 10 rfl rfl (majorOf_mkA ..) (by decide) (by decide) (fun _ =>
    (ctl_10 _ _ (majorOf_mkA ..)).trans (by simp [decodeMulDiv, fd_mkA, fa_mkA, fb_mkA, fm_mkA]))

theorem RoundTrip.mulh (rd : BitVec 6) (ra : BitVec 6) (rb : BitVec 6) : RoundTrip.Statement (.mulh rd ra rb) :=
  roundTrip_ctl _ (mkA 10 rd ra rb 1) 10 rfl rfl (majorOf_mkA ..) (by decide) (by decide) (fun _ =>
    (ctl_10 _ _ (majorOf_mkA ..)).trans (by simp [decodeMulDiv, fd_mkA, fa_mkA, fb_mkA, fm_mkA]))

theorem RoundTrip.mulhn (rd : BitVec 6) (ra : BitVec 6) (rb : BitVec 6) : RoundTrip.Statement (.mulhn rd ra rb) :=
  roundTrip_ctl _ (mkA 10 rd ra rb 2) 10 rfl rfl (majorOf_mkA ..) (by decide) (by decide) (fun _ =>
    (ctl_10 _ _ (majorOf_mkA ..)).trans (by simp [decodeMulDiv, fd_mkA, fa_mkA, fb_mkA, fm_mkA]))

theorem RoundTrip.div (rd : BitVec 6) (ra : BitVec 6) (rb : BitVec 6) : RoundTrip.Statement (.div rd ra rb) :=
  roundTrip_ctl _ (mkA 10 rd ra rb 3) 10 rfl rfl (majorOf_mkA ..) (by decide) (by decide) (fun _ =>
    (ctl_10 _ _ (majorOf_mkA ..)).trans (by simp [decodeMulDiv, fd_mkA, fa_mkA, fb_mkA, fm_mkA]))

theorem RoundTrip.divn (rd : BitVec 6) (ra : BitVec 6) (rb : BitVec 6) : RoundTrip.Statement (.divn rd ra rb) :=
  roundTrip_ctl _ (mkA 10 rd ra rb 4) 10 rfl rfl (majorOf_mkA ..) (by decide) (by decide) (fun _ =>
    (ctl_10 _ _ (majorOf_mkA ..)).trans (by simp [decodeMulDiv, fd_mkA, fa_mkA, fb_mkA, fm_mkA]))

theorem RoundTrip.rem (rd : BitVec 6) (ra : BitVec 6) (rb : BitVec 6) : RoundTrip.Statement (.rem rd ra rb) :=
  roundTrip_ctl _ (mkA 10 rd ra rb 5) 10 rfl rfl (majorOf_mkA ..) (by decide) (by decide) (fun _ =>
    (ctl_10 _ _ (majorOf_mkA ..)).trans (by simp [decodeMulDiv, fd_mkA, fa_mkA, fb_mkA, fm_mkA]))

theorem RoundTrip.remn (rd : BitVec 6) (ra : BitVec 6) (rb : BitVec 6) : RoundTrip.Statement (.remn rd ra rb) :=
  roundTrip_ctl _ (mkA 10 rd ra rb 6) 10 rfl rfl (majorOf_mkA ..) (by decide) (by decide) (fun _ =>
    (ctl_10 _ _ (majorOf_mkA ..)).trans (by simp [decodeMulDiv, fd_mkA, fa_mkA, fb_mkA, fm_mkA]))

theorem RoundTrip.fadd (rd : BitVec 6) (ra : BitVec 6) (rb : BitVec 6) (f64 : Bool) : RoundTrip.Statement (.fadd rd ra rb f64) :=
  roundTrip_ctl _ (mkF rd ra rb f64 0) 11 rfl rfl (majorOf_mkA7 ..) (by decide) (by decide) (fun _ =>
    (ctl_11 _ _ (majorOf_mkA7 ..)).trans (by simp [decodeFloat, mkF, fd_mkA7, fa_mkA7, fb_mkA7, fm7_mkA7, fm60_mkA7]))

theorem RoundTrip.fsub (rd : BitVec 6) (ra : BitVec 6) (rb : BitVec 6) (f64 : Bool) : RoundTrip.Statement (.fsub rd ra rb f64) :=
  roundTrip_ctl _ (mkF rd ra rb f64 1) 11 rfl rfl (majorOf_mkA7 ..) (by decide) (by decide) (fun _ =>
    (ctl_11 _ _ (majorOf_mkA7 ..)).trans (by simp [decodeFloat, mkF, fd_mkA7, fa_mkA7, fb_mkA7, fm7_mkA7, fm60_mkA7]))

theorem RoundTrip.fmul (rd : BitVec 6) (ra : BitVec 6) (rb : BitVec 6) (f64 : Bool) : RoundTrip.Statement (.fmul rd ra rb f64) :=
  roundTrip_ctl _ (mkF rd ra rb f64 2) 11 rfl rfl (majorOf_mkA7 ..) (by decide) (by decide) (fun _ =>
    (ctl_11 _ _ (majorOf_mkA7 ..)).trans (by simp [decodeFloat, mkF, fd_mkA7, fa_mkA7, fb_mkA7, fm7_mkA7, fm60_mkA7]))

theorem RoundTrip.fdiv (rd : BitVec 6) (ra : BitVec 6) (rb : BitVec 6) (f64 : Bool) : RoundTrip.Statement (.fdiv rd ra rb f64) :=
  roundTrip_ctl _ (mkF rd ra rb f64 3) 11 rfl rfl (majorOf_mkA7 ..) (by decide) (by decide) (fun _ =>
    (ctl_11 _ _ (majorOf_mkA7 ..)).trans (by simp [decodeFloat, mkF, fd_mkA7, fa_mkA7, fb_mkA7, fm7_mkA7, fm60_mkA7]))

theorem RoundTrip.fsqrt (rd : BitVec 6) (ra : BitVec 6) (f64 : Bool) : RoundTrip.Statement (.fsqrt rd ra f64) :=
  roundTrip_ctl _ (mkF rd ra 0 f64 4) 11 rfl rfl (majorOf_mkA7 ..) (by decide) (by decide) (fun _ =>
    (ctl_11 _ _ (majorOf_mkA7 ..)).trans (by simp [decodeFloat, mkF, fd_mkA7, fa_mkA7, fb_mkA7, fm7_mkA7, fm60_mkA7, guardField]))

theorem RoundTrip.fmac (rd : BitVec 6) (ra : BitVec 6) (rb : BitVec 6) (f64 : Bool) : RoundTrip.Statement (.fmac rd ra rb f64) :=
  roundTrip_ctl _ (mkF rd ra rb f64 5) 11 rfl rfl (majorOf_mkA7 ..) (by decide) (by decide) (fun _ =>
    (ctl_11 _ _ (majorOf_mkA7 ..)).trans (by simp [decodeFloat, mkF, fd_mkA7, fa_mkA7, fb_mkA7, fm7_mkA7, fm60_mkA7]))

theorem RoundTrip.fmin (rd : BitVec 6) (ra : BitVec 6) (rb : BitVec 6) (f64 : Bool) : RoundTrip.Statement (.fmin rd ra rb f64) :=
  roundTrip_ctl _ (mkF rd ra rb f64 6) 11 rfl rfl (majorOf_mkA7 ..) (by decide) (by decide) (fun _ =>
    (ctl_11 _ _ (majorOf_mkA7 ..)).trans (by simp [decodeFloat, mkF, fd_mkA7, fa_mkA7, fb_mkA7, fm7_mkA7, fm60_mkA7]))

theorem RoundTrip.fmax (rd : BitVec 6) (ra : BitVec 6) (rb : BitVec 6) (f64 : Bool) : RoundTrip.Statement (.fmax rd ra rb f64) :=
  roundTrip_ctl _ (mkF rd ra rb f64 7) 11 rfl rfl (majorOf_mkA7 ..) (by decide) (by decide) (fun _ =>
    (ctl_11 _ _ (majorOf_mkA7 ..)).trans (by simp [decodeFloat, mkF, fd_mkA7, fa_mkA7, fb_mkA7, fm7_mkA7, fm60_mkA7]))

theorem RoundTrip.fceq (rd : BitVec 6) (ra : BitVec 6) (rb : BitVec 6) (f64 : Bool) : RoundTrip.Statement (.fceq rd ra rb f64) :=
  roundTrip_ctl _ (mkF rd ra rb f64 8) 11 rfl rfl (majorOf_mkA7 ..) (by decide) (by decide) (fun _ =>
    (ctl_11 _ _ (majorOf_mkA7 ..)).trans (by simp [decodeFloat, mkF, fd_mkA7, fa_mkA7, fb_mkA7, fm7_mkA7, fm60_mkA7]))

theorem RoundTrip.fclt (rd : BitVec 6) (ra : BitVec 6) (rb : BitVec 6) (f64 : Bool) : RoundTrip.Statement (.fclt rd ra rb f64) :=
  roundTrip_ctl _ (mkF rd ra rb f64 9) 11 rfl rfl (majorOf_mkA7 ..) (by decide) (by decide) (fun _ =>
    (ctl_11 _ _ (majorOf_mkA7 ..)).trans (by simp [decodeFloat, mkF, fd_mkA7, fa_mkA7, fb_mkA7, fm7_mkA7, fm60_mkA7]))

theorem RoundTrip.fcle (rd : BitVec 6) (ra : BitVec 6) (rb : BitVec 6) (f64 : Bool) : RoundTrip.Statement (.fcle rd ra rb f64) :=
  roundTrip_ctl _ (mkF rd ra rb f64 10) 11 rfl rfl (majorOf_mkA7 ..) (by decide) (by decide) (fun _ =>
    (ctl_11 _ _ (majorOf_mkA7 ..)).trans (by simp [decodeFloat, mkF, fd_mkA7, fa_mkA7, fb_mkA7, fm7_mkA7, fm60_mkA7]))

theorem RoundTrip.fclass (rd : BitVec 6) (ra : BitVec 6) (f64 : Bool) : RoundTrip.Statement (.fclass rd ra f64) :=
  roundTrip_ctl _ (mkF rd ra 0 f64 11) 11 rfl rfl (majorOf_mkA7 ..) (by decide) (by decide) (fun _ =>
    (ctl_11 _ _ (majorOf_mkA7 ..)).trans (by simp [decodeFloat, mkF, fd_mkA7, fa_mkA7, fb_mkA7, fm7_mkA7, fm60_mkA7, guardField]))

theorem RoundTrip.fabs (rd : BitVec 6) (ra : BitVec 6) (f64 : Bool) : RoundTrip.Statement (.fabs rd ra f64) :=
  roundTrip_ctl _ (mkF rd ra 0 f64 12) 11 rfl rfl (majorOf_mkA7 ..) (by decide) (by decide) (fun _ =>
    (ctl_11 _ _ (majorOf_mkA7 ..)).trans (by simp [decodeFloat, mkF, fd_mkA7, fa_mkA7, fb_mkA7, fm7_mkA7, fm60_mkA7, guardField]))

theorem RoundTrip.fneg (rd : BitVec 6) (ra : BitVec 6) (f64 : Bool) : RoundTrip.Statement (.fneg rd ra f64) :=
  roundTrip_ctl _ (mkF rd ra 0 f64 13) 11 rfl rfl (majorOf_mkA7 ..) (by decide) (by decide) (fun _ =>
    (ctl_11 _ _ (majorOf_mkA7 ..)).trans (by simp [decodeFloat, mkF, fd_mkA7, fa_mkA7, fb_mkA7, fm7_mkA7, fm60_mkA7, guardField]))

theorem RoundTrip.fcpys (rd : BitVec 6) (ra : BitVec 6) (rb : BitVec 6) (f64 : Bool) : RoundTrip.Statement (.fcpys rd ra rb f64) :=
  roundTrip_ctl _ (mkF rd ra rb f64 14) 11 rfl rfl (majorOf_mkA7 ..) (by decide) (by decide) (fun _ =>
    (ctl_11 _ _ (majorOf_mkA7 ..)).trans (by simp [decodeFloat, mkF, fd_mkA7, fa_mkA7, fb_mkA7, fm7_mkA7, fm60_mkA7]))

theorem RoundTrip.fcvtI64T (rd : BitVec 6) (ra : BitVec 6) (f64 : Bool) : RoundTrip.Statement (.fcvtI64T rd ra f64) :=
  roundTrip_ctl _ (mkF rd ra 0 f64 15) 11 rfl rfl (majorOf_mkA7 ..) (by decide) (by decide) (fun _ =>
    (ctl_11 _ _ (majorOf_mkA7 ..)).trans (by simp [decodeFloat, mkF, fd_mkA7, fa_mkA7, fb_mkA7, fm7_mkA7, fm60_mkA7, guardField]))

theorem RoundTrip.fcvtN64T (rd : BitVec 6) (ra : BitVec 6) (f64 : Bool) : RoundTrip.Statement (.fcvtN64T rd ra f64) :=
  roundTrip_ctl _ (mkF rd ra 0 f64 16) 11 rfl rfl (majorOf_mkA7 ..) (by decide) (by decide) (fun _ =>
    (ctl_11 _ _ (majorOf_mkA7 ..)).trans (by simp [decodeFloat, mkF, fd_mkA7, fa_mkA7, fb_mkA7, fm7_mkA7, fm60_mkA7, guardField]))

theorem RoundTrip.fcvtTI64 (rd : BitVec 6) (ra : BitVec 6) (f64 : Bool) : RoundTrip.Statement (.fcvtTI64 rd ra f64) :=
  roundTrip_ctl _ (mkF rd ra 0 f64 17) 11 rfl rfl (majorOf_mkA7 ..) (by decide) (by decide) (fun _ =>
    (ctl_11 _ _ (majorOf_mkA7 ..)).trans (by simp [decodeFloat, mkF, fd_mkA7, fa_mkA7, fb_mkA7, fm7_mkA7, fm60_mkA7, guardField]))

theorem RoundTrip.fcvtTN64 (rd : BitVec 6) (ra : BitVec 6) (f64 : Bool) : RoundTrip.Statement (.fcvtTN64 rd ra f64) :=
  roundTrip_ctl _ (mkF rd ra 0 f64 18) 11 rfl rfl (majorOf_mkA7 ..) (by decide) (by decide) (fun _ =>
    (ctl_11 _ _ (majorOf_mkA7 ..)).trans (by simp [decodeFloat, mkF, fd_mkA7, fa_mkA7, fb_mkA7, fm7_mkA7, fm60_mkA7, guardField]))

theorem RoundTrip.fcvtF64F32 (rd : BitVec 6) (ra : BitVec 6) : RoundTrip.Statement (.fcvtF64F32 rd ra) :=
  roundTrip_ctl _ (mkF rd ra 0 true 19) 11 rfl rfl (majorOf_mkA7 ..) (by decide) (by decide) (fun _ =>
    (ctl_11 _ _ (majorOf_mkA7 ..)).trans (by simp [decodeFloat, mkF, fd_mkA7, fa_mkA7, fb_mkA7, fm7_mkA7, fm60_mkA7, guardField]))

theorem RoundTrip.fcvtF32F64 (rd : BitVec 6) (ra : BitVec 6) : RoundTrip.Statement (.fcvtF32F64 rd ra) :=
  roundTrip_ctl _ (mkF rd ra 0 false 19) 11 rfl rfl (majorOf_mkA7 ..) (by decide) (by decide) (fun _ =>
    (ctl_11 _ _ (majorOf_mkA7 ..)).trans (by simp [decodeFloat, mkF, fd_mkA7, fa_mkA7, fb_mkA7, fm7_mkA7, fm60_mkA7, guardField]))

theorem RoundTrip.ldI8 (rd : BitVec 6) (ra : BitVec 6) (imm : BitVec 14) (ext : Option (BitVec 24)) : RoundTrip.Statement (.ldI8 rd ra imm ext) :=
  roundTrip_imm _ (mkI 12 rd ra imm) 12 ext rfl rfl rfl (majorOf_mkI ..) (by decide) (by decide) (by decide)
    ((ctl_12 _ _ (majorOf_mkI ..)).trans (by simp only [fd_mkI, fa_mkI, fi_mkI]))

theorem RoundTrip.ldN8 (rd : BitVec 6) (ra : BitVec 6) (imm : BitVec 14) (ext : Option (BitVec 24)) : RoundTrip.Statement (.ldN8 rd ra imm ext) :=
  roundTrip_imm _ (mkI 13 rd ra imm) 13 ext rfl rfl rfl (majorOf_mkI ..) (by decide) (by decide) (by decide)
    ((ctl_13 _ _ (majorOf_mkI ..)).trans (by simp only [fd_mkI, fa_mkI, fi_mkI]))

theorem RoundTrip.ldI16 (rd : BitVec 6) (ra : BitVec 6) (imm : BitVec 14) (ext : Option (BitVec 24)) : RoundTrip.Statement (.ldI16 rd ra imm ext) :=
  roundTrip_imm _ (mkI 14 rd ra imm) 14 ext rfl rfl rfl (majorOf_mkI ..) (by decide) (by decide) (by decide)
    ((ctl_14 _ _ (majorOf_mkI ..)).trans (by simp only [fd_mkI, fa_mkI, fi_mkI]))

theorem RoundTrip.ldN16 (rd : BitVec 6) (ra : BitVec 6) (imm : BitVec 14) (ext : Option (BitVec 24)) : RoundTrip.Statement (.ldN16 rd ra imm ext) :=
  roundTrip_imm _ (mkI 15 rd ra imm) 15 ext rfl rfl rfl (majorOf_mkI ..) (by decide) (by decide) (by decide)
    ((ctl_15 _ _ (majorOf_mkI ..)).trans (by simp only [fd_mkI, fa_mkI, fi_mkI]))

theorem RoundTrip.ldI32 (rd : BitVec 6) (ra : BitVec 6) (imm : BitVec 14) (ext : Option (BitVec 24)) : RoundTrip.Statement (.ldI32 rd ra imm ext) :=
  roundTrip_imm _ (mkI 16 rd ra imm) 16 ext rfl rfl rfl (majorOf_mkI ..) (by decide) (by decide) (by decide)
    ((ctl_16 _ _ (majorOf_mkI ..)).trans (by simp only [fd_mkI, fa_mkI, fi_mkI]))

theorem RoundTrip.ldN32 (rd : BitVec 6) (ra : BitVec 6) (imm : BitVec 14) (ext : Option (BitVec 24)) : RoundTrip.Statement (.ldN32 rd ra imm ext) :=
  roundTrip_imm _ (mkI 17 rd ra imm) 17 ext rfl rfl rfl (majorOf_mkI ..) (by decide) (by decide) (by decide)
    ((ctl_17 _ _ (majorOf_mkI ..)).trans (by simp only [fd_mkI, fa_mkI, fi_mkI]))

theorem RoundTrip.ld64 (rd : BitVec 6) (ra : BitVec 6) (imm : BitVec 14) (ext : Option (BitVec 24)) : RoundTrip.Statement (.ld64 rd ra imm ext) :=
  roundTrip_imm _ (mkI 18 rd ra imm) 18 ext rfl rfl rfl (majorOf_mkI ..) (by decide) (by decide) (by decide)
    ((ctl_18 _ _ (majorOf_mkI ..)).trans (by simp only [fd_mkI, fa_mkI, fi_mkI]))

theorem RoundTrip.st8 (rs : BitVec 6) (ra : BitVec 6) (imm : BitVec 14) (ext : Option (BitVec 24)) : RoundTrip.Statement (.st8 rs ra imm ext) :=
  roundTrip_imm _ (mkI 20 rs ra imm) 20 ext rfl rfl rfl (majorOf_mkI ..) (by decide) (by decide) (by decide)
    ((ctl_20 _ _ (majorOf_mkI ..)).trans (by simp only [fd_mkI, fa_mkI, fi_mkI]))

theorem RoundTrip.st16 (rs : BitVec 6) (ra : BitVec 6) (imm : BitVec 14) (ext : Option (BitVec 24)) : RoundTrip.Statement (.st16 rs ra imm ext) :=
  roundTrip_imm _ (mkI 21 rs ra imm) 21 ext rfl rfl rfl (majorOf_mkI ..) (by decide) (by decide) (by decide)
    ((ctl_21 _ _ (majorOf_mkI ..)).trans (by simp only [fd_mkI, fa_mkI, fi_mkI]))

theorem RoundTrip.st32 (rs : BitVec 6) (ra : BitVec 6) (imm : BitVec 14) (ext : Option (BitVec 24)) : RoundTrip.Statement (.st32 rs ra imm ext) :=
  roundTrip_imm _ (mkI 22 rs ra imm) 22 ext rfl rfl rfl (majorOf_mkI ..) (by decide) (by decide) (by decide)
    ((ctl_22 _ _ (majorOf_mkI ..)).trans (by simp only [fd_mkI, fa_mkI, fi_mkI]))

theorem RoundTrip.st64 (rs : BitVec 6) (ra : BitVec 6) (imm : BitVec 14) (ext : Option (BitVec 24)) : RoundTrip.Statement (.st64 rs ra imm ext) :=
  roundTrip_imm _ (mkI 23 rs ra imm) 23 ext rfl rfl rfl (majorOf_mkI ..) (by decide) (by decide) (by decide)
    ((ctl_23 _ _ (majorOf_mkI ..)).trans (by simp only [fd_mkI, fa_mkI, fi_mkI]))

theorem RoundTrip.beq (ra : BitVec 6) (rb : BitVec 6) (off : BitVec 14) (ext : Option (BitVec 24)) : RoundTrip.Statement (.beq ra rb off ext) :=
  roundTrip_imm _ (mkI 24 ra rb off) 24 ext rfl rfl rfl (majorOf_mkI ..) (by decide) (by decide) (by decide)
    ((ctl_24 _ _ (majorOf_mkI ..)).trans (by simp only [fd_mkI, fa_mkI, fi_mkI]))

theorem RoundTrip.bne (ra : BitVec 6) (rb : BitVec 6) (off : BitVec 14) (ext : Option (BitVec 24)) : RoundTrip.Statement (.bne ra rb off ext) :=
  roundTrip_imm _ (mkI 25 ra rb off) 25 ext rfl rfl rfl (majorOf_mkI ..) (by decide) (by decide) (by decide)
    ((ctl_25 _ _ (majorOf_mkI ..)).trans (by simp only [fd_mkI, fa_mkI, fi_mkI]))

theorem RoundTrip.blt (ra : BitVec 6) (rb : BitVec 6) (off : BitVec 14) (ext : Option (BitVec 24)) : RoundTrip.Statement (.blt ra rb off ext) :=
  roundTrip_imm _ (mkI 26 ra rb off) 26 ext rfl rfl rfl (majorOf_mkI ..) (by decide) (by decide) (by decide)
    ((ctl_26 _ _ (majorOf_mkI ..)).trans (by simp only [fd_mkI, fa_mkI, fi_mkI]))

theorem RoundTrip.bge (ra : BitVec 6) (rb : BitVec 6) (off : BitVec 14) (ext : Option (BitVec 24)) : RoundTrip.Statement (.bge ra rb off ext) :=
  roundTrip_imm _ (mkI 27 ra rb off) 27 ext rfl rfl rfl (majorOf_mkI ..) (by decide) (by decide) (by decide)
    ((ctl_27 _ _ (majorOf_mkI ..)).trans (by simp only [fd_mkI, fa_mkI, fi_mkI]))

theorem RoundTrip.bltn (ra : BitVec 6) (rb : BitVec 6) (off : BitVec 14) (ext : Option (BitVec 24)) : RoundTrip.Statement (.bltn ra rb off ext) :=
  roundTrip_imm _ (mkI 28 ra rb off) 28 ext rfl rfl rfl (majorOf_mkI ..) (by decide) (by decide) (by decide)
    ((ctl_28 _ _ (majorOf_mkI ..)).trans (by simp only [fd_mkI, fa_mkI, fi_mkI]))

theorem RoundTrip.bgen (ra : BitVec 6) (rb : BitVec 6) (off : BitVec 14) (ext : Option (BitVec 24)) : RoundTrip.Statement (.bgen ra rb off ext) :=
  roundTrip_imm _ (mkI 29 ra rb off) 29 ext rfl rfl rfl (majorOf_mkI ..) (by decide) (by decide) (by decide)
    ((ctl_29 _ _ (majorOf_mkI ..)).trans (by simp only [fd_mkI, fa_mkI, fi_mkI]))

theorem RoundTrip.j (off : BitVec 26) (ext : Option (BitVec 24)) : RoundTrip.Statement (.j off ext) :=
  roundTrip_imm _ (mkJ 30 off) 30 ext rfl rfl rfl (majorOf_mkJ ..) (by decide) (by decide) (by decide)
    ((ctl_30 _ _ (majorOf_mkJ ..)).trans (by simp only [fj_mkJ]))

theorem RoundTrip.jal (off : BitVec 26) (ext : Option (BitVec 24)) : RoundTrip.Statement (.jal off ext) :=
  roundTrip_imm _ (mkJ 31 off) 31 ext rfl rfl rfl (majorOf_mkJ ..) (by decide) (by decide) (by decide)
    ((ctl_31 _ _ (majorOf_mkJ ..)).trans (by simp only [fj_mkJ]))

theorem RoundTrip.jalr (rd : BitVec 6) (ra : BitVec 6) (imm : BitVec 14) (ext : Option (BitVec 24)) : RoundTrip.Statement (.jalr rd ra imm ext) :=
  roundTrip_imm _ (mkI 32 rd ra imm) 32 ext rfl rfl rfl (majorOf_mkI ..) (by decide) (by decide) (by decide)
    ((ctl_32 _ _ (majorOf_mkI ..)).trans (by simp only [fd_mkI, fa_mkI, fi_mkI]))

theorem RoundTrip.csrRd (rd : BitVec 6) (csr : BitVec 12) : RoundTrip.Statement (.csrRd rd csr) :=
  roundTrip_ctl _ (mkI 0x21 rd 0 (mkCsr 0 csr)) 33 rfl rfl (majorOf_mkI ..) (by decide) (by decide) (fun _ =>
    (ctl_33 _ _ (majorOf_mkI ..)).trans (by simp [decodeCsr, fd_mkI, fa_mkI, fi_mkI, csr_op, csr_num, guardField]))

theorem RoundTrip.csrWr (rd : BitVec 6) (ra : BitVec 6) (csr : BitVec 12) : RoundTrip.Statement (.csrWr rd ra csr) :=
  roundTrip_ctl _ (mkI 0x21 rd ra (mkCsr 1 csr)) 33 rfl rfl (majorOf_mkI ..) (by decide) (by decide) (fun _ =>
    (ctl_33 _ _ (majorOf_mkI ..)).trans (by simp [decodeCsr, fd_mkI, fa_mkI, fi_mkI, csr_op, csr_num]))

theorem RoundTrip.csrOr (rd : BitVec 6) (ra : BitVec 6) (csr : BitVec 12) : RoundTrip.Statement (.csrOr rd ra csr) :=
  roundTrip_ctl _ (mkI 0x21 rd ra (mkCsr 2 csr)) 33 rfl rfl (majorOf_mkI ..) (by decide) (by decide) (fun _ =>
    (ctl_33 _ _ (majorOf_mkI ..)).trans (by simp [decodeCsr, fd_mkI, fa_mkI, fi_mkI, csr_op, csr_num]))

theorem RoundTrip.csrAndn (rd : BitVec 6) (ra : BitVec 6) (csr : BitVec 12) : RoundTrip.Statement (.csrAndn rd ra csr) :=
  roundTrip_ctl _ (mkI 0x21 rd ra (mkCsr 3 csr)) 33 rfl rfl (majorOf_mkI ..) (by decide) (by decide) (fun _ =>
    (ctl_33 _ _ (majorOf_mkI ..)).trans (by simp [decodeCsr, fd_mkI, fa_mkI, fi_mkI, csr_op, csr_num]))

theorem RoundTrip.trap (n : BitVec 6) : RoundTrip.Statement (.trap n) :=
  roundTrip_ctl _ (mkA 0x22 0 0 n 0) 34 rfl rfl (majorOf_mkA ..) (by decide) (by decide) (fun _ =>
    (ctl_34 _ _ (majorOf_mkA ..)).trans (by simp [decodeSystem, fd_mkA, fa_mkA, fb_mkA, fm_mkA, fm7_mkA, fm60_mkA, guardField]))

theorem RoundTrip.acqCore (ra : BitVec 6) : RoundTrip.Statement (.acqCore ra) :=
  roundTrip_ctl _ (mkA 0x22 0 ra 0 16) 34 rfl rfl (majorOf_mkA ..) (by decide) (by decide) (fun _ =>
    (ctl_34 _ _ (majorOf_mkA ..)).trans (by simp [decodeSystem, fd_mkA, fa_mkA, fb_mkA, fm_mkA, fm7_mkA, fm60_mkA, guardField]))

theorem RoundTrip.acqCluster (ra : BitVec 6) : RoundTrip.Statement (.acqCluster ra) :=
  roundTrip_ctl _ (mkA 0x22 0 ra 0 17) 34 rfl rfl (majorOf_mkA ..) (by decide) (by decide) (fun _ =>
    (ctl_34 _ _ (majorOf_mkA ..)).trans (by simp [decodeSystem, fd_mkA, fa_mkA, fb_mkA, fm_mkA, fm7_mkA, fm60_mkA, guardField]))

theorem RoundTrip.acqDie (ra : BitVec 6) : RoundTrip.Statement (.acqDie ra) :=
  roundTrip_ctl _ (mkA 0x22 0 ra 0 18) 34 rfl rfl (majorOf_mkA ..) (by decide) (by decide) (fun _ =>
    (ctl_34 _ _ (majorOf_mkA ..)).trans (by simp [decodeSystem, fd_mkA, fa_mkA, fb_mkA, fm_mkA, fm7_mkA, fm60_mkA, guardField]))

theorem RoundTrip.acqDevice (ra : BitVec 6) : RoundTrip.Statement (.acqDevice ra) :=
  roundTrip_ctl _ (mkA 0x22 0 ra 0 19) 34 rfl rfl (majorOf_mkA ..) (by decide) (by decide) (fun _ =>
    (ctl_34 _ _ (majorOf_mkA ..)).trans (by simp [decodeSystem, fd_mkA, fa_mkA, fb_mkA, fm_mkA, fm7_mkA, fm60_mkA, guardField]))

theorem RoundTrip.acqLaunch (ra : BitVec 6) : RoundTrip.Statement (.acqLaunch ra) :=
  roundTrip_ctl _ (mkA 0x22 0 ra 0 20) 34 rfl rfl (majorOf_mkA ..) (by decide) (by decide) (fun _ =>
    (ctl_34 _ _ (majorOf_mkA ..)).trans (by simp [decodeSystem, fd_mkA, fa_mkA, fb_mkA, fm_mkA, fm7_mkA, fm60_mkA, guardField]))

theorem RoundTrip.relCore (ra : BitVec 6) : RoundTrip.Statement (.relCore ra) :=
  roundTrip_ctl _ (mkA 0x22 0 ra 0 24) 34 rfl rfl (majorOf_mkA ..) (by decide) (by decide) (fun _ =>
    (ctl_34 _ _ (majorOf_mkA ..)).trans (by simp [decodeSystem, fd_mkA, fa_mkA, fb_mkA, fm_mkA, fm7_mkA, fm60_mkA, guardField]))

theorem RoundTrip.relCluster (ra : BitVec 6) : RoundTrip.Statement (.relCluster ra) :=
  roundTrip_ctl _ (mkA 0x22 0 ra 0 25) 34 rfl rfl (majorOf_mkA ..) (by decide) (by decide) (fun _ =>
    (ctl_34 _ _ (majorOf_mkA ..)).trans (by simp [decodeSystem, fd_mkA, fa_mkA, fb_mkA, fm_mkA, fm7_mkA, fm60_mkA, guardField]))

theorem RoundTrip.relDie (ra : BitVec 6) : RoundTrip.Statement (.relDie ra) :=
  roundTrip_ctl _ (mkA 0x22 0 ra 0 26) 34 rfl rfl (majorOf_mkA ..) (by decide) (by decide) (fun _ =>
    (ctl_34 _ _ (majorOf_mkA ..)).trans (by simp [decodeSystem, fd_mkA, fa_mkA, fb_mkA, fm_mkA, fm7_mkA, fm60_mkA, guardField]))

theorem RoundTrip.relDevice (ra : BitVec 6) : RoundTrip.Statement (.relDevice ra) :=
  roundTrip_ctl _ (mkA 0x22 0 ra 0 27) 34 rfl rfl (majorOf_mkA ..) (by decide) (by decide) (fun _ =>
    (ctl_34 _ _ (majorOf_mkA ..)).trans (by simp [decodeSystem, fd_mkA, fa_mkA, fb_mkA, fm_mkA, fm7_mkA, fm60_mkA, guardField]))

theorem RoundTrip.relLaunch (ra : BitVec 6) : RoundTrip.Statement (.relLaunch ra) :=
  roundTrip_ctl _ (mkA 0x22 0 ra 0 28) 34 rfl rfl (majorOf_mkA ..) (by decide) (by decide) (fun _ =>
    (ctl_34 _ _ (majorOf_mkA ..)).trans (by simp [decodeSystem, fd_mkA, fa_mkA, fb_mkA, fm_mkA, fm7_mkA, fm60_mkA, guardField]))

theorem RoundTrip.qfence (m : BitVec 7) : RoundTrip.Statement (.qfence m) :=
  roundTrip_ctl _ (mkA7 0x22 0 0 0 true m) 34 rfl rfl (majorOf_mkA7 ..) (by decide) (by decide) (fun _ =>
    (ctl_34 _ _ (majorOf_mkA7 ..)).trans (by simp [decodeSystem, fd_mkA7, fa_mkA7, fb_mkA7, fm7_mkA7, fm60_mkA7, guardField]))

theorem RoundTrip.aadd (rd : BitVec 6) (ra : BitVec 6) (rb : BitVec 6) (t : AType) : RoundTrip.Statement (.aadd rd ra rb t) :=
  roundTrip_ctl _ (mkAt rd ra rb false t 0) 35 rfl rfl (majorOf_mkAt ..) (by decide) (by decide) (fun _ =>
    (ctl_35 _ _ (majorOf_mkAt ..)).trans (by simp [decodeAtomic, fd_mkAt, fa_mkAt, fb_mkAt, fm7_mkAt, fm30_mkAt, fm64_mkAt, ofBits_bits]))

theorem RoundTrip.aand (rd : BitVec 6) (ra : BitVec 6) (rb : BitVec 6) (t : AType) : RoundTrip.Statement (.aand rd ra rb t) :=
  roundTrip_ctl _ (mkAt rd ra rb false t 1) 35 rfl rfl (majorOf_mkAt ..) (by decide) (by decide) (fun _ =>
    (ctl_35 _ _ (majorOf_mkAt ..)).trans (by simp [decodeAtomic, fd_mkAt, fa_mkAt, fb_mkAt, fm7_mkAt, fm30_mkAt, fm64_mkAt, ofBits_bits]))

theorem RoundTrip.aor (rd : BitVec 6) (ra : BitVec 6) (rb : BitVec 6) (t : AType) : RoundTrip.Statement (.aor rd ra rb t) :=
  roundTrip_ctl _ (mkAt rd ra rb false t 2) 35 rfl rfl (majorOf_mkAt ..) (by decide) (by decide) (fun _ =>
    (ctl_35 _ _ (majorOf_mkAt ..)).trans (by simp [decodeAtomic, fd_mkAt, fa_mkAt, fb_mkAt, fm7_mkAt, fm30_mkAt, fm64_mkAt, ofBits_bits]))

theorem RoundTrip.axor (rd : BitVec 6) (ra : BitVec 6) (rb : BitVec 6) (t : AType) : RoundTrip.Statement (.axor rd ra rb t) :=
  roundTrip_ctl _ (mkAt rd ra rb false t 3) 35 rfl rfl (majorOf_mkAt ..) (by decide) (by decide) (fun _ =>
    (ctl_35 _ _ (majorOf_mkAt ..)).trans (by simp [decodeAtomic, fd_mkAt, fa_mkAt, fb_mkAt, fm7_mkAt, fm30_mkAt, fm64_mkAt, ofBits_bits]))

theorem RoundTrip.amin (rd : BitVec 6) (ra : BitVec 6) (rb : BitVec 6) (t : AType) : RoundTrip.Statement (.amin rd ra rb t) :=
  roundTrip_ctl _ (mkAt rd ra rb false t 4) 35 rfl rfl (majorOf_mkAt ..) (by decide) (by decide) (fun _ =>
    (ctl_35 _ _ (majorOf_mkAt ..)).trans (by simp [decodeAtomic, fd_mkAt, fa_mkAt, fb_mkAt, fm7_mkAt, fm30_mkAt, fm64_mkAt, ofBits_bits]))

theorem RoundTrip.amax (rd : BitVec 6) (ra : BitVec 6) (rb : BitVec 6) (t : AType) : RoundTrip.Statement (.amax rd ra rb t) :=
  roundTrip_ctl _ (mkAt rd ra rb false t 5) 35 rfl rfl (majorOf_mkAt ..) (by decide) (by decide) (fun _ =>
    (ctl_35 _ _ (majorOf_mkAt ..)).trans (by simp [decodeAtomic, fd_mkAt, fa_mkAt, fb_mkAt, fm7_mkAt, fm30_mkAt, fm64_mkAt, ofBits_bits]))

theorem RoundTrip.aswap (rd : BitVec 6) (ra : BitVec 6) (rb : BitVec 6) (t : AType) : RoundTrip.Statement (.aswap rd ra rb t) :=
  roundTrip_ctl _ (mkAt rd ra rb false t 6) 35 rfl rfl (majorOf_mkAt ..) (by decide) (by decide) (fun _ =>
    (ctl_35 _ _ (majorOf_mkAt ..)).trans (by simp [decodeAtomic, fd_mkAt, fa_mkAt, fb_mkAt, fm7_mkAt, fm30_mkAt, fm64_mkAt, ofBits_bits]))

theorem RoundTrip.acas (rd : BitVec 6) (ra : BitVec 6) (rb : BitVec 6) (t : AType) : RoundTrip.Statement (.acas rd ra rb t) :=
  roundTrip_ctl _ (mkAt rd ra rb false t 7) 35 rfl rfl (majorOf_mkAt ..) (by decide) (by decide) (fun _ =>
    (ctl_35 _ _ (majorOf_mkAt ..)).trans (by simp [decodeAtomic, fd_mkAt, fa_mkAt, fb_mkAt, fm7_mkAt, fm30_mkAt, fm64_mkAt, ofBits_bits]))

theorem RoundTrip.aredAdd (ra : BitVec 6) (rb : BitVec 6) (t : AType) : RoundTrip.Statement (.aredAdd ra rb t) :=
  roundTrip_ctl _ (mkAt 0 ra rb true t 0) 35 rfl rfl (majorOf_mkAt ..) (by decide) (by decide) (fun _ =>
    (ctl_35 _ _ (majorOf_mkAt ..)).trans (by simp [decodeAtomic, fd_mkAt, fa_mkAt, fb_mkAt, fm7_mkAt, fm30_mkAt, fm64_mkAt, ofBits_bits, guardField]))

theorem RoundTrip.aredAnd (ra : BitVec 6) (rb : BitVec 6) (t : AType) : RoundTrip.Statement (.aredAnd ra rb t) :=
  roundTrip_ctl _ (mkAt 0 ra rb true t 1) 35 rfl rfl (majorOf_mkAt ..) (by decide) (by decide) (fun _ =>
    (ctl_35 _ _ (majorOf_mkAt ..)).trans (by simp [decodeAtomic, fd_mkAt, fa_mkAt, fb_mkAt, fm7_mkAt, fm30_mkAt, fm64_mkAt, ofBits_bits, guardField]))

theorem RoundTrip.aredOr (ra : BitVec 6) (rb : BitVec 6) (t : AType) : RoundTrip.Statement (.aredOr ra rb t) :=
  roundTrip_ctl _ (mkAt 0 ra rb true t 2) 35 rfl rfl (majorOf_mkAt ..) (by decide) (by decide) (fun _ =>
    (ctl_35 _ _ (majorOf_mkAt ..)).trans (by simp [decodeAtomic, fd_mkAt, fa_mkAt, fb_mkAt, fm7_mkAt, fm30_mkAt, fm64_mkAt, ofBits_bits, guardField]))

theorem RoundTrip.aredXor (ra : BitVec 6) (rb : BitVec 6) (t : AType) : RoundTrip.Statement (.aredXor ra rb t) :=
  roundTrip_ctl _ (mkAt 0 ra rb true t 3) 35 rfl rfl (majorOf_mkAt ..) (by decide) (by decide) (fun _ =>
    (ctl_35 _ _ (majorOf_mkAt ..)).trans (by simp [decodeAtomic, fd_mkAt, fa_mkAt, fb_mkAt, fm7_mkAt, fm30_mkAt, fm64_mkAt, ofBits_bits, guardField]))

theorem RoundTrip.aredMin (ra : BitVec 6) (rb : BitVec 6) (t : AType) : RoundTrip.Statement (.aredMin ra rb t) :=
  roundTrip_ctl _ (mkAt 0 ra rb true t 4) 35 rfl rfl (majorOf_mkAt ..) (by decide) (by decide) (fun _ =>
    (ctl_35 _ _ (majorOf_mkAt ..)).trans (by simp [decodeAtomic, fd_mkAt, fa_mkAt, fb_mkAt, fm7_mkAt, fm30_mkAt, fm64_mkAt, ofBits_bits, guardField]))

theorem RoundTrip.aredMax (ra : BitVec 6) (rb : BitVec 6) (t : AType) : RoundTrip.Statement (.aredMax ra rb t) :=
  roundTrip_ctl _ (mkAt 0 ra rb true t 5) 35 rfl rfl (majorOf_mkAt ..) (by decide) (by decide) (fun _ =>
    (ctl_35 _ _ (majorOf_mkAt ..)).trans (by simp [decodeAtomic, fd_mkAt, fa_mkAt, fb_mkAt, fm7_mkAt, fm30_mkAt, fm64_mkAt, ofBits_bits, guardField]))

theorem RoundTrip.tokPush (f : BitVec 2) : RoundTrip.Statement (.tokPush f) :=
  roundTrip_ctl _ (mkTok 0 0 f) 36 rfl rfl (majorOf_mkTok ..) (by decide) (by decide) (fun _ =>
    (ctl_36 _ _ (majorOf_mkTok ..)).trans (by simp [decodeTokens, fd_mkTok, fa_mkTok, fb_mkTok, fm72_mkTok, fm10_mkTok, guardField]))

theorem RoundTrip.tokPop (f : BitVec 2) : RoundTrip.Statement (.tokPop f) :=
  roundTrip_ctl _ (mkTok 0 1 f) 36 rfl rfl (majorOf_mkTok ..) (by decide) (by decide) (fun _ =>
    (ctl_36 _ _ (majorOf_mkTok ..)).trans (by simp [decodeTokens, fd_mkTok, fa_mkTok, fb_mkTok, fm72_mkTok, fm10_mkTok, guardField]))

theorem RoundTrip.tokRead (rd : BitVec 6) (f : BitVec 2) : RoundTrip.Statement (.tokRead rd f) :=
  roundTrip_ctl _ (mkTok rd 2 f) 36 rfl rfl (majorOf_mkTok ..) (by decide) (by decide) (fun _ =>
    (ctl_36 _ _ (majorOf_mkTok ..)).trans (by simp [decodeTokens, fd_mkTok, fa_mkTok, fb_mkTok, fm72_mkTok, fm10_mkTok, guardField]))

theorem RoundTrip.evWait (rd : BitVec 6) : RoundTrip.Statement (.evWait rd) :=
  roundTrip_ctl _ (mkTok rd 3 0) 36 rfl rfl (majorOf_mkTok ..) (by decide) (by decide) (fun _ =>
    (ctl_36 _ _ (majorOf_mkTok ..)).trans (by simp [decodeTokens, fd_mkTok, fa_mkTok, fb_mkTok, fm72_mkTok, fm10_mkTok, guardField]))

theorem RoundTrip.evPop (rd : BitVec 6) : RoundTrip.Statement (.evPop rd) :=
  roundTrip_ctl _ (mkTok rd 3 1) 36 rfl rfl (majorOf_mkTok ..) (by decide) (by decide) (fun _ =>
    (ctl_36 _ _ (majorOf_mkTok ..)).trans (by simp [decodeTokens, fd_mkTok, fa_mkTok, fb_mkTok, fm72_mkTok, fm10_mkTok, guardField]))

theorem RoundTrip.evCount (rd : BitVec 6) : RoundTrip.Statement (.evCount rd) :=
  roundTrip_ctl _ (mkTok rd 3 2) 36 rfl rfl (majorOf_mkTok ..) (by decide) (by decide) (fun _ =>
    (ctl_36 _ _ (majorOf_mkTok ..)).trans (by simp [decodeTokens, fd_mkTok, fa_mkTok, fb_mkTok, fm72_mkTok, fm10_mkTok, guardField]))

theorem RoundTrip.frame (rd : BitVec 6) : RoundTrip.Statement (.frame rd) :=
  roundTrip_ctl _ (mkTok rd 3 3) 36 rfl rfl (majorOf_mkTok ..) (by decide) (by decide) (fun _ =>
    (ctl_36 _ _ (majorOf_mkTok ..)).trans (by simp [decodeTokens, fd_mkTok, fa_mkTok, fb_mkTok, fm72_mkTok, fm10_mkTok, guardField]))

theorem RoundTrip.tblLoad (n : BitVec 6) (ra : BitVec 6) (rb : BitVec 6) : RoundTrip.Statement (.tblLoad n ra rb) :=
  roundTrip_ctl _ (mkA 37 n ra rb 0) 37 rfl rfl (majorOf_mkA ..) (by decide) (by decide) (fun _ =>
    (ctl_37 _ _ (majorOf_mkA ..)).trans (by simp [decodeTables, fd_mkA, fa_mkA, fb_mkA, fm_mkA]))

theorem RoundTrip.tblRun (n : BitVec 6) (ra : BitVec 6) : RoundTrip.Statement (.tblRun n ra) :=
  roundTrip_ctl _ (mkA 37 n ra 0 1) 37 rfl rfl (majorOf_mkA ..) (by decide) (by decide) (fun _ =>
    (ctl_37 _ _ (majorOf_mkA ..)).trans (by simp [decodeTables, fd_mkA, fa_mkA, fb_mkA, fm_mkA, guardField]))

theorem RoundTrip.tblStop (n : BitVec 6) : RoundTrip.Statement (.tblStop n) :=
  roundTrip_ctl _ (mkA 37 n 0 0 2) 37 rfl rfl (majorOf_mkA ..) (by decide) (by decide) (fun _ =>
    (ctl_37 _ _ (majorOf_mkA ..)).trans (by simp [decodeTables, fd_mkA, fa_mkA, fb_mkA, fm_mkA, guardField]))

theorem RoundTrip.tblRebase (n : BitVec 6) (ra : BitVec 6) : RoundTrip.Statement (.tblRebase n ra) :=
  roundTrip_ctl _ (mkA 37 n ra 0 3) 37 rfl rfl (majorOf_mkA ..) (by decide) (by decide) (fun _ =>
    (ctl_37 _ _ (majorOf_mkA ..)).trans (by simp [decodeTables, fd_mkA, fa_mkA, fb_mkA, fm_mkA, guardField]))

theorem RoundTrip.tblParam (k : BitVec 2) (ra : BitVec 6) : RoundTrip.Statement (.tblParam k ra) :=
  roundTrip_ctl _ (mkA 37 (k.setWidth 6) ra 0 4) 37 rfl rfl (majorOf_mkA ..) (by decide) (by decide) (fun _ =>
    (ctl_37 _ _ (majorOf_mkA ..)).trans (by simp [decodeTables, fd_mkA, fa_mkA, fb_mkA, fm_mkA, small2, small3, small4, back, guardField]))

theorem RoundTrip.tblWait (n : BitVec 6) : RoundTrip.Statement (.tblWait n) :=
  roundTrip_ctl _ (mkA 37 n 0 0 5) 37 rfl rfl (majorOf_mkA ..) (by decide) (by decide) (fun _ =>
    (ctl_37 _ _ (majorOf_mkA ..)).trans (by simp [decodeTables, fd_mkA, fa_mkA, fb_mkA, fm_mkA, guardField]))

theorem RoundTrip.zsetBase (z : BitVec 4) (ra : BitVec 6) : RoundTrip.Statement (.zsetBase z ra) :=
  roundTrip_ctl _ (mkA 38 (z.setWidth 6) ra 0 0) 38 rfl rfl (majorOf_mkA ..) (by decide) (by decide) (fun _ =>
    (ctl_38 _ _ (majorOf_mkA ..)).trans (by simp [decodeStreams, fd_mkA, fa_mkA, fb_mkA, fm_mkA, small2, small3, small4, back, guardField]))

theorem RoundTrip.zsetStride (z : BitVec 4) (ra : BitVec 6) : RoundTrip.Statement (.zsetStride z ra) :=
  roundTrip_ctl _ (mkA 38 (z.setWidth 6) ra 0 1) 38 rfl rfl (majorOf_mkA ..) (by decide) (by decide) (fun _ =>
    (ctl_38 _ _ (majorOf_mkA ..)).trans (by simp [decodeStreams, fd_mkA, fa_mkA, fb_mkA, fm_mkA, small2, small3, small4, back, guardField]))

theorem RoundTrip.zsetCount (z : BitVec 4) (ra : BitVec 6) : RoundTrip.Statement (.zsetCount z ra) :=
  roundTrip_ctl _ (mkA 38 (z.setWidth 6) ra 0 2) 38 rfl rfl (majorOf_mkA ..) (by decide) (by decide) (fun _ =>
    (ctl_38 _ _ (majorOf_mkA ..)).trans (by simp [decodeStreams, fd_mkA, fa_mkA, fb_mkA, fm_mkA, small2, small3, small4, back, guardField]))

theorem RoundTrip.zsetFmt (z : BitVec 4) (ra : BitVec 6) : RoundTrip.Statement (.zsetFmt z ra) :=
  roundTrip_ctl _ (mkA 38 (z.setWidth 6) ra 0 3) 38 rfl rfl (majorOf_mkA ..) (by decide) (by decide) (fun _ =>
    (ctl_38 _ _ (majorOf_mkA ..)).trans (by simp [decodeStreams, fd_mkA, fa_mkA, fb_mkA, fm_mkA, small2, small3, small4, back, guardField]))

theorem RoundTrip.zsetScale (z : BitVec 4) (ra : BitVec 6) : RoundTrip.Statement (.zsetScale z ra) :=
  roundTrip_ctl _ (mkA 38 (z.setWidth 6) ra 0 4) 38 rfl rfl (majorOf_mkA ..) (by decide) (by decide) (fun _ =>
    (ctl_38 _ _ (majorOf_mkA ..)).trans (by simp [decodeStreams, fd_mkA, fa_mkA, fb_mkA, fm_mkA, small2, small3, small4, back, guardField]))

theorem RoundTrip.zsetRing (z : BitVec 4) (ra : BitVec 6) : RoundTrip.Statement (.zsetRing z ra) :=
  roundTrip_ctl _ (mkA 38 (z.setWidth 6) ra 0 5) 38 rfl rfl (majorOf_mkA ..) (by decide) (by decide) (fun _ =>
    (ctl_38 _ _ (majorOf_mkA ..)).trans (by simp [decodeStreams, fd_mkA, fa_mkA, fb_mkA, fm_mkA, small2, small3, small4, back, guardField]))

theorem RoundTrip.zsetAdv (z : BitVec 4) (ra : BitVec 6) : RoundTrip.Statement (.zsetAdv z ra) :=
  roundTrip_ctl _ (mkA 38 (z.setWidth 6) ra 0 6) 38 rfl rfl (majorOf_mkA ..) (by decide) (by decide) (fun _ =>
    (ctl_38 _ _ (majorOf_mkA ..)).trans (by simp [decodeStreams, fd_mkA, fa_mkA, fb_mkA, fm_mkA, small2, small3, small4, back, guardField]))

theorem RoundTrip.zget (rd : BitVec 6) (z : BitVec 4) (k : BitVec 3) : RoundTrip.Statement (.zget rd z k) :=
  roundTrip_ctl _ (mkA 38 rd (z.setWidth 6) (k.setWidth 6) 8) 38 rfl rfl (majorOf_mkA ..) (by decide) (by decide) (fun _ =>
    (ctl_38 _ _ (majorOf_mkA ..)).trans (by simp [decodeStreams, fd_mkA, fa_mkA, fb_mkA, fm_mkA, small2, small3, small4, back, guardField]))

theorem RoundTrip.txopen (ra : BitVec 6) : RoundTrip.Statement (.txopen ra) :=
  roundTrip_ctl _ (mkA 39 0 ra 0 0) 39 rfl rfl (majorOf_mkA ..) (by decide) (by decide) (fun _ =>
    (ctl_39 _ _ (majorOf_mkA ..)).trans (by simp [decodeTx, fd_mkA, fa_mkA, fb_mkA, fm_mkA, guardField]))

theorem RoundTrip.txloss (ra : BitVec 6) : RoundTrip.Statement (.txloss ra) :=
  roundTrip_ctl _ (mkA 39 0 ra 0 2) 39 rfl rfl (majorOf_mkA ..) (by decide) (by decide) (fun _ =>
    (ctl_39 _ _ (majorOf_mkA ..)).trans (by simp [decodeTx, fd_mkA, fa_mkA, fb_mkA, fm_mkA, guardField]))

theorem RoundTrip.txwait (rd : BitVec 6) : RoundTrip.Statement (.txwait rd) :=
  roundTrip_ctl _ (mkA 39 rd 0 0 3) 39 rfl rfl (majorOf_mkA ..) (by decide) (by decide) (fun _ =>
    (ctl_39 _ _ (majorOf_mkA ..)).trans (by simp [decodeTx, fd_mkA, fa_mkA, fb_mkA, fm_mkA, guardField]))

theorem RoundTrip.txrd (rd : BitVec 6) (k : BitVec 4) : RoundTrip.Statement (.txrd rd k) :=
  roundTrip_ctl _ (mkA 39 rd 0 (k.setWidth 6) 5) 39 rfl rfl (majorOf_mkA ..) (by decide) (by decide) (fun _ =>
    (ctl_39 _ _ (majorOf_mkA ..)).trans (by simp [decodeTx, fd_mkA, fa_mkA, fb_mkA, fm_mkA, small2, small3, small4, back, guardField]))

theorem RoundTrip.rngk (ra : BitVec 6) : RoundTrip.Statement (.rngk ra) :=
  roundTrip_ctl _ (mkA 39 0 ra 0 6) 39 rfl rfl (majorOf_mkA ..) (by decide) (by decide) (fun _ =>
    (ctl_39 _ _ (majorOf_mkA ..)).trans (by simp [decodeTx, fd_mkA, fa_mkA, fb_mkA, fm_mkA, guardField]))

theorem RoundTrip.rngn (ra : BitVec 6) : RoundTrip.Statement (.rngn ra) :=
  roundTrip_ctl _ (mkA 39 0 ra 0 7) 39 rfl rfl (majorOf_mkA ..) (by decide) (by decide) (fun _ =>
    (ctl_39 _ _ (majorOf_mkA ..)).trans (by simp [decodeTx, fd_mkA, fa_mkA, fb_mkA, fm_mkA, guardField]))

theorem RoundTrip.domSet (ra : BitVec 6) : RoundTrip.Statement (.domSet ra) :=
  roundTrip_ctl _ (mkA 40 0 ra 0 8) 40 rfl rfl (majorOf_mkA ..) (by decide) (by decide) (fun _ =>
    (ctl_40 _ _ (majorOf_mkA ..)).trans (by simp [decodeDomains, fd_mkA, fa_mkA, fb_mkA, fm_mkA, guardField]))

theorem RoundTrip.domGet (rd : BitVec 6) : RoundTrip.Statement (.domGet rd) :=
  roundTrip_ctl _ (mkA 40 rd 0 0 9) 40 rfl rfl (majorOf_mkA ..) (by decide) (by decide) (fun _ =>
    (ctl_40 _ _ (majorOf_mkA ..)).trans (by simp [decodeDomains, fd_mkA, fa_mkA, fb_mkA, fm_mkA, guardField]))

theorem RoundTrip.collRed (ra : BitVec 6) (rb : BitVec 6) : RoundTrip.Statement (.collRed ra rb) :=
  roundTrip_ctl _ (mkA 41 0 ra rb 0) 41 rfl rfl (majorOf_mkA ..) (by decide) (by decide) (fun _ =>
    (ctl_41 _ _ (majorOf_mkA ..)).trans (by simp [decodeColl, fd_mkA, fa_mkA, fb_mkA, fm_mkA, guardField]))

theorem RoundTrip.collBcast (ra : BitVec 6) (rb : BitVec 6) : RoundTrip.Statement (.collBcast ra rb) :=
  roundTrip_ctl _ (mkA 41 0 ra rb 1) 41 rfl rfl (majorOf_mkA ..) (by decide) (by decide) (fun _ =>
    (ctl_41 _ _ (majorOf_mkA ..)).trans (by simp [decodeColl, fd_mkA, fa_mkA, fb_mkA, fm_mkA, guardField]))

theorem RoundTrip.collGath (ra : BitVec 6) (rb : BitVec 6) : RoundTrip.Statement (.collGath ra rb) :=
  roundTrip_ctl _ (mkA 41 0 ra rb 2) 41 rfl rfl (majorOf_mkA ..) (by decide) (by decide) (fun _ =>
    (ctl_41 _ _ (majorOf_mkA ..)).trans (by simp [decodeColl, fd_mkA, fa_mkA, fb_mkA, fm_mkA, guardField]))

theorem RoundTrip.collNorm (ra : BitVec 6) (rb : BitVec 6) : RoundTrip.Statement (.collNorm ra rb) :=
  roundTrip_ctl _ (mkA 41 0 ra rb 3) 41 rfl rfl (majorOf_mkA ..) (by decide) (by decide) (fun _ =>
    (ctl_41 _ _ (majorOf_mkA ..)).trans (by simp [decodeColl, fd_mkA, fa_mkA, fb_mkA, fm_mkA, guardField]))

theorem RoundTrip.collExp (ra : BitVec 6) (rb : BitVec 6) : RoundTrip.Statement (.collExp ra rb) :=
  roundTrip_ctl _ (mkA 41 0 ra rb 4) 41 rfl rfl (majorOf_mkA ..) (by decide) (by decide) (fun _ =>
    (ctl_41 _ _ (majorOf_mkA ..)).trans (by simp [decodeColl, fd_mkA, fa_mkA, fb_mkA, fm_mkA, guardField]))

theorem RoundTrip.collWait (rd : BitVec 6) (ra : BitVec 6) : RoundTrip.Statement (.collWait rd ra) :=
  roundTrip_ctl _ (mkA 41 rd ra 0 6) 41 rfl rfl (majorOf_mkA ..) (by decide) (by decide) (fun _ =>
    (ctl_41 _ _ (majorOf_mkA ..)).trans (by simp [decodeColl, fd_mkA, fa_mkA, fb_mkA, fm_mkA, guardField]))

theorem RoundTrip.winReg (ra : BitVec 6) (rb : BitVec 6) : RoundTrip.Statement (.winReg ra rb) :=
  roundTrip_ctl _ (mkA 41 0 ra rb 7) 41 rfl rfl (majorOf_mkA ..) (by decide) (by decide) (fun _ =>
    (ctl_41 _ _ (majorOf_mkA ..)).trans (by simp [decodeColl, fd_mkA, fa_mkA, fb_mkA, fm_mkA, guardField]))

theorem RoundTrip.winDrop (ra : BitVec 6) : RoundTrip.Statement (.winDrop ra) :=
  roundTrip_ctl _ (mkA 41 0 ra 0 8) 41 rfl rfl (majorOf_mkA ..) (by decide) (by decide) (fun _ =>
    (ctl_41 _ _ (majorOf_mkA ..)).trans (by simp [decodeColl, fd_mkA, fa_mkA, fb_mkA, fm_mkA, guardField]))

theorem RoundTrip.mbclr (k : BitVec 3) : RoundTrip.Statement (.mbclr k) :=
  roundTrip_ctl _ (mkA 41 (k.setWidth 6) 0 0 9) 41 rfl rfl (majorOf_mkA ..) (by decide) (by decide) (fun _ =>
    (ctl_41 _ _ (majorOf_mkA ..)).trans (by simp [decodeColl, fd_mkA, fa_mkA, fb_mkA, fm_mkA, small2, small3, small4, back, guardField]))

theorem RoundTrip.ywr (y : BitVec 4) (ra : BitVec 6) : RoundTrip.Statement (.ywr y ra) :=
  roundTrip_ctl _ (mkA 42 (y.setWidth 6) ra 0 0) 42 rfl rfl (majorOf_mkA ..) (by decide) (by decide) (fun _ =>
    (ctl_42 _ _ (majorOf_mkA ..)).trans (by simp [decodeMoves, fd_mkA, fa_mkA, fb_mkA, fm_mkA, small2, small3, small4, back, guardField]))

theorem RoundTrip.yrd (rd : BitVec 6) (y : BitVec 4) : RoundTrip.Statement (.yrd rd y) :=
  roundTrip_ctl _ (mkA 42 rd (y.setWidth 6) 0 1) 42 rfl rfl (majorOf_mkA ..) (by decide) (by decide) (fun _ =>
    (ctl_42 _ _ (majorOf_mkA ..)).trans (by simp [decodeMoves, fd_mkA, fa_mkA, fb_mkA, fm_mkA, small2, small3, small4, back, guardField]))

theorem RoundTrip.mbrd (rd : BitVec 6) (m : BitVec 3) : RoundTrip.Statement (.mbrd rd m) :=
  roundTrip_ctl _ (mkA 42 rd (m.setWidth 6) 0 2) 42 rfl rfl (majorOf_mkA ..) (by decide) (by decide) (fun _ =>
    (ctl_42 _ _ (majorOf_mkA ..)).trans (by simp [decodeMoves, fd_mkA, fa_mkA, fb_mkA, fm_mkA, small2, small3, small4, back, guardField]))

theorem RoundTrip.ccbWr (k : BitVec 4) (ra : BitVec 6) (w : BitVec 4) : RoundTrip.Statement (.ccbWr k ra w) :=
  roundTrip_ctl _ (mkA 43 (k.setWidth 6) ra (w.setWidth 6) 0) 43 rfl rfl (majorOf_mkA ..) (by decide) (by decide) (fun _ =>
    (ctl_43 _ _ (majorOf_mkA ..)).trans (by simp [decodeBlocks, fd_mkA, fa_mkA, fb_mkA, fm_mkA, small2, small3, small4, back, guardField]))

theorem RoundTrip.ccbRd (rd : BitVec 6) (k : BitVec 4) (w : BitVec 4) : RoundTrip.Statement (.ccbRd rd k w) :=
  roundTrip_ctl _ (mkA 43 rd (k.setWidth 6) (w.setWidth 6) 1) 43 rfl rfl (majorOf_mkA ..) (by decide) (by decide) (fun _ =>
    (ctl_43 _ _ (majorOf_mkA ..)).trans (by simp [decodeBlocks, fd_mkA, fa_mkA, fb_mkA, fm_mkA, small2, small3, small4, back, guardField]))

theorem RoundTrip.ccbLd (k : BitVec 4) (ra : BitVec 6) : RoundTrip.Statement (.ccbLd k ra) :=
  roundTrip_ctl _ (mkA 43 (k.setWidth 6) ra 0 2) 43 rfl rfl (majorOf_mkA ..) (by decide) (by decide) (fun _ =>
    (ctl_43 _ _ (majorOf_mkA ..)).trans (by simp [decodeBlocks, fd_mkA, fa_mkA, fb_mkA, fm_mkA, small2, small3, small4, back, guardField]))

theorem RoundTrip.ccbSt (k : BitVec 4) (ra : BitVec 6) : RoundTrip.Statement (.ccbSt k ra) :=
  roundTrip_ctl _ (mkA 43 (k.setWidth 6) ra 0 3) 43 rfl rfl (majorOf_mkA ..) (by decide) (by decide) (fun _ =>
    (ctl_43 _ _ (majorOf_mkA ..)).trans (by simp [decodeBlocks, fd_mkA, fa_mkA, fb_mkA, fm_mkA, small2, small3, small4, back, guardField]))

theorem RoundTrip.safept (ra : BitVec 6) : RoundTrip.Statement (.safept ra) :=
  roundTrip_ctl _ (mkA 44 0 ra 0 0) 44 rfl rfl (majorOf_mkA ..) (by decide) (by decide) (fun _ =>
    (ctl_44 _ _ (majorOf_mkA ..)).trans (by simp [decodeSafe, fd_mkA, fa_mkA, fb_mkA, fm_mkA, guardField]))

theorem RoundTrip.pchk (rd : BitVec 6) : RoundTrip.Statement (.pchk rd) :=
  roundTrip_ctl _ (mkA 44 rd 0 0 2) 44 rfl rfl (majorOf_mkA ..) (by decide) (by decide) (fun _ =>
    (ctl_44 _ _ (majorOf_mkA ..)).trans (by simp [decodeSafe, fd_mkA, fa_mkA, fb_mkA, fm_mkA, guardField]))

theorem RoundTrip.cpyIn (e : EngBits) (d : BitVec 4) : RoundTrip.Statement (.cpyIn e d) :=
  roundTrip_eng _ (mkE 48 e 0 d 0 0) 48 e rfl rfl rfl (majorOf_mkE ..) (by decide) (fun h =>
    decodeWord_eng _ e _ 48 (majorOf_mkE ..) (by decide) (engBits_mkE ..) (edelay_mkE ..) (copy_parts (e := e) (d := d) h).1
      (fun m => (copy_parts (e := e) (d := d) h).2 _ m (by simp only [copyWord, majorOf_mkE, emin_mkE]; decide) (ed_mkE ..))
      ((eng_48 _ _ (majorOf_mkE ..)).trans (by simp [decodeCopyIn, emin_mkE, ed_mkE, ea_mkE, eb_mkE, guardField])) h)

theorem RoundTrip.cpyInT (e : EngBits) (d : BitVec 4) : RoundTrip.Statement (.cpyInT e d) :=
  roundTrip_eng _ (mkE 48 e 1 d 0 0) 48 e rfl rfl rfl (majorOf_mkE ..) (by decide) (fun h =>
    decodeWord_eng _ e _ 48 (majorOf_mkE ..) (by decide) (engBits_mkE ..) (edelay_mkE ..) (copy_parts (e := e) (d := d) h).1
      (fun m => (copy_parts (e := e) (d := d) h).2 _ m (by simp only [copyWord, majorOf_mkE, emin_mkE]; decide) (ed_mkE ..))
      ((eng_48 _ _ (majorOf_mkE ..)).trans (by simp [decodeCopyIn, emin_mkE, ed_mkE, ea_mkE, eb_mkE, guardField])) h)

theorem RoundTrip.cpyGath (e : EngBits) (d : BitVec 4) (a : BitVec 4) : RoundTrip.Statement (.cpyGath e d a) :=
  roundTrip_eng _ (mkE 48 e 2 d a 0) 48 e rfl rfl rfl (majorOf_mkE ..) (by decide) (fun h =>
    decodeWord_eng _ e _ 48 (majorOf_mkE ..) (by decide) (engBits_mkE ..) (edelay_mkE ..) (copy_parts (e := e) (d := d) h).1
      (fun m => (copy_parts (e := e) (d := d) h).2 _ m (by simp only [copyWord, majorOf_mkE, emin_mkE]; decide) (ed_mkE ..))
      ((eng_48 _ _ (majorOf_mkE ..)).trans (by simp [decodeCopyIn, emin_mkE, ed_mkE, ea_mkE, eb_mkE, guardField])) h)

theorem RoundTrip.cpyPf (e : EngBits) (d : BitVec 4) : RoundTrip.Statement (.cpyPf e d) :=
  roundTrip_eng _ (mkE 48 e 3 d 0 0) 48 e rfl rfl rfl (majorOf_mkE ..) (by decide) (fun h =>
    decodeWord_eng _ e _ 48 (majorOf_mkE ..) (by decide) (engBits_mkE ..) (edelay_mkE ..) (copy_parts (e := e) (d := d) h).1
      (fun m => (copy_parts (e := e) (d := d) h).2 _ m (by simp only [copyWord, majorOf_mkE, emin_mkE]; decide) (ed_mkE ..))
      ((eng_48 _ _ (majorOf_mkE ..)).trans (by simp [decodeCopyIn, emin_mkE, ed_mkE, ea_mkE, eb_mkE, guardField])) h)

theorem RoundTrip.gpush (e : EngBits) (d : BitVec 4) (a : BitVec 4) : RoundTrip.Statement (.gpush e d a) :=
  roundTrip_eng _ (mkE 49 e 0 d a 0) 49 e rfl rfl rfl (majorOf_mkE ..) (by decide) (fun h =>
    decodeWord_eng _ e _ 49 (majorOf_mkE ..) (by decide) (engBits_mkE ..) (edelay_mkE ..) (plain_parts h).1 ((plain_parts h).2 _)
      ((eng_49 _ _ (majorOf_mkE ..)).trans (by simp [decodeRing, emin_mkE, ed_mkE, ea_mkE, eb_mkE, guardField])) h)

theorem RoundTrip.ggath (e : EngBits) (d : BitVec 4) (a : BitVec 4) (b : BitVec 4) : RoundTrip.Statement (.ggath e d a b) :=
  roundTrip_eng _ (mkE 49 e 1 d a b) 49 e rfl rfl rfl (majorOf_mkE ..) (by decide) (fun h =>
    decodeWord_eng _ e _ 49 (majorOf_mkE ..) (by decide) (engBits_mkE ..) (edelay_mkE ..) (plain_parts h).1 ((plain_parts h).2 _)
      ((eng_49 _ _ (majorOf_mkE ..)).trans (by simp [decodeRing, emin_mkE, ed_mkE, ea_mkE, eb_mkE])) h)

theorem RoundTrip.greset (e : EngBits) (d : BitVec 4) : RoundTrip.Statement (.greset e d) :=
  roundTrip_eng _ (mkE 49 e 2 d 0 0) 49 e rfl rfl rfl (majorOf_mkE ..) (by decide) (fun h =>
    decodeWord_eng _ e _ 49 (majorOf_mkE ..) (by decide) (engBits_mkE ..) (edelay_mkE ..) (plain_parts h).1 ((plain_parts h).2 _)
      ((eng_49 _ _ (majorOf_mkE ..)).trans (by simp [decodeRing, emin_mkE, ed_mkE, ea_mkE, eb_mkE, guardField])) h)

theorem RoundTrip.recv (e : EngBits) (d : BitVec 4) : RoundTrip.Statement (.recv e d) :=
  roundTrip_eng _ (mkE 50 e 0 d 0 0) 50 e rfl rfl rfl (majorOf_mkE ..) (by decide) (fun h =>
    decodeWord_eng _ e _ 50 (majorOf_mkE ..) (by decide) (engBits_mkE ..) (edelay_mkE ..) (plain_parts h).1 ((plain_parts h).2 _)
      ((eng_50 _ _ (majorOf_mkE ..)).trans (by simp [decodeRecv, emin_mkE, ed_mkE, ea_mkE, eb_mkE, guardField])) h)

theorem RoundTrip.recvG (e : EngBits) (d : BitVec 4) : RoundTrip.Statement (.recvG e d) :=
  roundTrip_eng _ (mkE 50 e 1 d 0 0) 50 e rfl rfl rfl (majorOf_mkE ..) (by decide) (fun h =>
    decodeWord_eng _ e _ 50 (majorOf_mkE ..) (by decide) (engBits_mkE ..) (edelay_mkE ..) (plain_parts h).1 ((plain_parts h).2 _)
      ((eng_50 _ _ (majorOf_mkE ..)).trans (by simp [decodeRecv, emin_mkE, ed_mkE, ea_mkE, eb_mkE, guardField])) h)

theorem RoundTrip.recvM (e : EngBits) (d : BitVec 4) : RoundTrip.Statement (.recvM e d) :=
  roundTrip_eng _ (mkE 50 e 2 d 0 0) 50 e rfl rfl rfl (majorOf_mkE ..) (by decide) (fun h =>
    decodeWord_eng _ e _ 50 (majorOf_mkE ..) (by decide) (engBits_mkE ..) (edelay_mkE ..) (plain_parts (by simp only [Instr.wf, Bool.and_eq_true] at h; exact h.1)).1 ((plain_parts (by simp only [Instr.wf, Bool.and_eq_true] at h; exact h.1)).2 _)
      ((eng_50 _ _ (majorOf_mkE ..)).trans (by simp [decodeRecv, emin_mkE, ed_mkE, ea_mkE, eb_mkE, guardField])) h)

theorem RoundTrip.waitLd (e : EngBits) (n : BitVec 12) : RoundTrip.Statement (.waitLd e n) :=
  roundTrip_eng _ (mkN 51 e 0 n) 51 e rfl rfl rfl (majorOf_mkN ..) (by decide) (fun h =>
    decodeWord_eng _ e _ 51 (majorOf_mkN ..) (by decide) (engBits_mkN ..) (edelay_mkN ..) (plain_parts h).1 ((plain_parts h).2 _)
      ((eng_51 _ _ (majorOf_mkN ..)).trans (by simp [decodeLdWait, emin_mkN, en_mkN])) h)

theorem RoundTrip.qfenceLd (e : EngBits) (m : BitVec 7) : RoundTrip.Statement (.qfenceLd e m) :=
  roundTrip_eng _ (mkN 51 e 1 ((0#5 ++ m : BitVec 12))) 51 e rfl rfl rfl (majorOf_mkN ..) (by decide) (fun h =>
    decodeWord_eng _ e _ 51 (majorOf_mkN ..) (by decide) (engBits_mkN ..) (edelay_mkN ..) (plain_parts (by simp only [Instr.wf, Bool.and_eq_true] at h; exact h.1)).1 ((plain_parts (by simp only [Instr.wf, Bool.and_eq_true] at h; exact h.1)).2 _)
      ((eng_51 _ _ (majorOf_mkN ..)).trans (by simp [decodeLdWait, emin_mkN, mask_top, mask_low, guardField])) h)

theorem RoundTrip.mma (e : EngBits) (t : BitVec 8) (a : BitVec 4) (b : BitVec 4) : RoundTrip.Statement (.mma e t a b) :=
  roundTrip_eng _ (mkM e false t a b) 52 e rfl rfl rfl (majorOf_mkM ..) (by decide) (fun h =>
    decodeWord_eng _ e _ 52 (majorOf_mkM ..) (by decide) (engBits_mkM ..) (edelay_mkM ..) (mma_parts (by simp only [Instr.wf, Bool.and_eq_true] at h; exact h.1)).1 (fun m => (mma_parts (by simp only [Instr.wf, Bool.and_eq_true] at h; exact h.1)).2 _ m (by simp only [majorOf_mkM, BitVec.reduceToNat]))
      ((eng_52 _ _ (majorOf_mkM ..)).trans (by simp [decodeMma, ea_mkM, eb_mkM, bit16_mkM, tile_mkM])) h)

theorem RoundTrip.mmaKb (e : EngBits) (t : BitVec 8) (a : BitVec 4) (b : BitVec 4) : RoundTrip.Statement (.mmaKb e t a b) :=
  roundTrip_eng _ (mkM e true t a b) 52 e rfl rfl rfl (majorOf_mkM ..) (by decide) (fun h =>
    decodeWord_eng _ e _ 52 (majorOf_mkM ..) (by decide) (engBits_mkM ..) (edelay_mkM ..) (mma_parts (by simp only [Instr.wf, Bool.and_eq_true] at h; exact h.1)).1 (fun m => (mma_parts (by simp only [Instr.wf, Bool.and_eq_true] at h; exact h.1)).2 _ m (by simp only [majorOf_mkM, BitVec.reduceToNat]))
      ((eng_52 _ _ (majorOf_mkM ..)).trans (by simp [decodeMma, ea_mkM, eb_mkM, bit16_mkM, tile_mkM])) h)

theorem RoundTrip.mdrain (e : EngBits) (t : BitVec 8) (z : BitVec 4) : RoundTrip.Statement (.mdrain e t z) :=
  roundTrip_eng _ (mkX e 0 t z) 53 e rfl rfl rfl (majorOf_mkX ..) (by decide) (fun h =>
    decodeWord_eng _ e _ 53 (majorOf_mkX ..) (by decide) (engBits_mkX ..) (edelay_mkX ..) (plain_parts h).1 ((plain_parts h).2 _)
      ((eng_53 _ _ (majorOf_mkX ..)).trans (by simp [decodeMx, emin_mkX, et_mkX, eb_mkX])) h)

theorem RoundTrip.mzero (e : EngBits) (t : BitVec 8) : RoundTrip.Statement (.mzero e t) :=
  roundTrip_eng _ (mkX e 1 t 0) 53 e rfl rfl rfl (majorOf_mkX ..) (by decide) (fun h =>
    decodeWord_eng _ e _ 53 (majorOf_mkX ..) (by decide) (engBits_mkX ..) (edelay_mkX ..) (plain_parts h).1 ((plain_parts h).2 _)
      ((eng_53 _ _ (majorOf_mkX ..)).trans (by simp [decodeMx, emin_mkX, et_mkX, eb_mkX, guardField])) h)

theorem RoundTrip.mtpbLd (e : EngBits) (t : BitVec 8) (z : BitVec 4) : RoundTrip.Statement (.mtpbLd e t z) :=
  roundTrip_eng _ (mkX e 2 t z) 53 e rfl rfl rfl (majorOf_mkX ..) (by decide) (fun h =>
    decodeWord_eng _ e _ 53 (majorOf_mkX ..) (by decide) (engBits_mkX ..) (edelay_mkX ..) (plain_parts h).1 ((plain_parts h).2 _)
      ((eng_53 _ _ (majorOf_mkX ..)).trans (by simp [decodeMx, emin_mkX, et_mkX, eb_mkX])) h)

theorem RoundTrip.mtpbSt (e : EngBits) (t : BitVec 8) (z : BitVec 4) : RoundTrip.Statement (.mtpbSt e t z) :=
  roundTrip_eng _ (mkX e 3 t z) 53 e rfl rfl rfl (majorOf_mkX ..) (by decide) (fun h =>
    decodeWord_eng _ e _ 53 (majorOf_mkX ..) (by decide) (engBits_mkX ..) (edelay_mkX ..) (plain_parts h).1 ((plain_parts h).2 _)
      ((eng_53 _ _ (majorOf_mkX ..)).trans (by simp [decodeMx, emin_mkX, et_mkX, eb_mkX])) h)

theorem RoundTrip.mlsfTest (e : EngBits) (t : BitVec 8) (y : BitVec 4) : RoundTrip.Statement (.mlsfTest e t y) :=
  roundTrip_eng _ (mkX e 4 t y) 53 e rfl rfl rfl (majorOf_mkX ..) (by decide) (fun h =>
    decodeWord_eng _ e _ 53 (majorOf_mkX ..) (by decide) (engBits_mkX ..) (edelay_mkX ..) (plain_parts h).1 ((plain_parts h).2 _)
      ((eng_53 _ _ (majorOf_mkX ..)).trans (by simp [decodeMx, emin_mkX, et_mkX, eb_mkX])) h)

theorem RoundTrip.mlsfRd (e : EngBits) (t : BitVec 8) (z : BitVec 4) : RoundTrip.Statement (.mlsfRd e t z) :=
  roundTrip_eng _ (mkX e 5 t z) 53 e rfl rfl rfl (majorOf_mkX ..) (by decide) (fun h =>
    decodeWord_eng _ e _ 53 (majorOf_mkX ..) (by decide) (engBits_mkX ..) (edelay_mkX ..) (plain_parts h).1 ((plain_parts h).2 _)
      ((eng_53 _ _ (majorOf_mkX ..)).trans (by simp [decodeMx, emin_mkX, et_mkX, eb_mkX])) h)

theorem RoundTrip.mlsfClr (e : EngBits) (t : BitVec 8) : RoundTrip.Statement (.mlsfClr e t) :=
  roundTrip_eng _ (mkX e 6 t 0) 53 e rfl rfl rfl (majorOf_mkX ..) (by decide) (fun h =>
    decodeWord_eng _ e _ 53 (majorOf_mkX ..) (by decide) (engBits_mkX ..) (edelay_mkX ..) (plain_parts h).1 ((plain_parts h).2 _)
      ((eng_53 _ _ (majorOf_mkX ..)).trans (by simp [decodeMx, emin_mkX, et_mkX, eb_mkX, guardField])) h)

theorem RoundTrip.maudit (e : EngBits) (y : BitVec 4) : RoundTrip.Statement (.maudit e y) :=
  roundTrip_eng _ (mkX e 7 0 y) 53 e rfl rfl rfl (majorOf_mkX ..) (by decide) (fun h =>
    decodeWord_eng _ e _ 53 (majorOf_mkX ..) (by decide) (engBits_mkX ..) (edelay_mkX ..) (plain_parts h).1 ((plain_parts h).2 _)
      ((eng_53 _ _ (majorOf_mkX ..)).trans (by simp [decodeMx, emin_mkX, et_mkX, eb_mkX, guardField])) h)

theorem RoundTrip.vadd (e : EngBits) (d : BitVec 4) (a : BitVec 4) (b : BitVec 4) : RoundTrip.Statement (.vadd e d a b) :=
  roundTrip_eng _ (mkE 54 e 0 d a b) 54 e rfl rfl rfl (majorOf_mkE ..) (by decide) (fun h =>
    decodeWord_eng _ e _ 54 (majorOf_mkE ..) (by decide) (engBits_mkE ..) (edelay_mkE ..) (plain_parts h).1 ((plain_parts h).2 _)
      ((eng_54 _ _ (majorOf_mkE ..)).trans (by simp [decodeArith, emin_mkE, ed_mkE, ea_mkE, eb_mkE])) h)

theorem RoundTrip.vsub (e : EngBits) (d : BitVec 4) (a : BitVec 4) (b : BitVec 4) : RoundTrip.Statement (.vsub e d a b) :=
  roundTrip_eng _ (mkE 54 e 1 d a b) 54 e rfl rfl rfl (majorOf_mkE ..) (by decide) (fun h =>
    decodeWord_eng _ e _ 54 (majorOf_mkE ..) (by decide) (engBits_mkE ..) (edelay_mkE ..) (plain_parts h).1 ((plain_parts h).2 _)
      ((eng_54 _ _ (majorOf_mkE ..)).trans (by simp [decodeArith, emin_mkE, ed_mkE, ea_mkE, eb_mkE])) h)

theorem RoundTrip.vmul (e : EngBits) (d : BitVec 4) (a : BitVec 4) (b : BitVec 4) : RoundTrip.Statement (.vmul e d a b) :=
  roundTrip_eng _ (mkE 54 e 2 d a b) 54 e rfl rfl rfl (majorOf_mkE ..) (by decide) (fun h =>
    decodeWord_eng _ e _ 54 (majorOf_mkE ..) (by decide) (engBits_mkE ..) (edelay_mkE ..) (plain_parts h).1 ((plain_parts h).2 _)
      ((eng_54 _ _ (majorOf_mkE ..)).trans (by simp [decodeArith, emin_mkE, ed_mkE, ea_mkE, eb_mkE])) h)

theorem RoundTrip.vfma (e : EngBits) (d : BitVec 4) (a : BitVec 4) (b : BitVec 4) : RoundTrip.Statement (.vfma e d a b) :=
  roundTrip_eng _ (mkE 54 e 3 d a b) 54 e rfl rfl rfl (majorOf_mkE ..) (by decide) (fun h =>
    decodeWord_eng _ e _ 54 (majorOf_mkE ..) (by decide) (engBits_mkE ..) (edelay_mkE ..) (plain_parts h).1 ((plain_parts h).2 _)
      ((eng_54 _ _ (majorOf_mkE ..)).trans (by simp [decodeArith, emin_mkE, ed_mkE, ea_mkE, eb_mkE])) h)

theorem RoundTrip.vmin (e : EngBits) (d : BitVec 4) (a : BitVec 4) (b : BitVec 4) : RoundTrip.Statement (.vmin e d a b) :=
  roundTrip_eng _ (mkE 54 e 4 d a b) 54 e rfl rfl rfl (majorOf_mkE ..) (by decide) (fun h =>
    decodeWord_eng _ e _ 54 (majorOf_mkE ..) (by decide) (engBits_mkE ..) (edelay_mkE ..) (plain_parts h).1 ((plain_parts h).2 _)
      ((eng_54 _ _ (majorOf_mkE ..)).trans (by simp [decodeArith, emin_mkE, ed_mkE, ea_mkE, eb_mkE])) h)

theorem RoundTrip.vmax (e : EngBits) (d : BitVec 4) (a : BitVec 4) (b : BitVec 4) : RoundTrip.Statement (.vmax e d a b) :=
  roundTrip_eng _ (mkE 54 e 5 d a b) 54 e rfl rfl rfl (majorOf_mkE ..) (by decide) (fun h =>
    decodeWord_eng _ e _ 54 (majorOf_mkE ..) (by decide) (engBits_mkE ..) (edelay_mkE ..) (plain_parts h).1 ((plain_parts h).2 _)
      ((eng_54 _ _ (majorOf_mkE ..)).trans (by simp [decodeArith, emin_mkE, ed_mkE, ea_mkE, eb_mkE])) h)

theorem RoundTrip.vabs (e : EngBits) (d : BitVec 4) (a : BitVec 4) : RoundTrip.Statement (.vabs e d a) :=
  roundTrip_eng _ (mkE 54 e 6 d a 0) 54 e rfl rfl rfl (majorOf_mkE ..) (by decide) (fun h =>
    decodeWord_eng _ e _ 54 (majorOf_mkE ..) (by decide) (engBits_mkE ..) (edelay_mkE ..) (plain_parts h).1 ((plain_parts h).2 _)
      ((eng_54 _ _ (majorOf_mkE ..)).trans (by simp [decodeArith, emin_mkE, ed_mkE, ea_mkE, eb_mkE, guardField])) h)

theorem RoundTrip.vneg (e : EngBits) (d : BitVec 4) (a : BitVec 4) : RoundTrip.Statement (.vneg e d a) :=
  roundTrip_eng _ (mkE 54 e 7 d a 0) 54 e rfl rfl rfl (majorOf_mkE ..) (by decide) (fun h =>
    decodeWord_eng _ e _ 54 (majorOf_mkE ..) (by decide) (engBits_mkE ..) (edelay_mkE ..) (plain_parts h).1 ((plain_parts h).2 _)
      ((eng_54 _ _ (majorOf_mkE ..)).trans (by simp [decodeArith, emin_mkE, ed_mkE, ea_mkE, eb_mkE, guardField])) h)

theorem RoundTrip.vaddY (e : EngBits) (d : BitVec 4) (a : BitVec 4) (b : BitVec 4) : RoundTrip.Statement (.vaddY e d a b) :=
  roundTrip_eng _ (mkE 54 e 8 d a b) 54 e rfl rfl rfl (majorOf_mkE ..) (by decide) (fun h =>
    decodeWord_eng _ e _ 54 (majorOf_mkE ..) (by decide) (engBits_mkE ..) (edelay_mkE ..) (plain_parts h).1 ((plain_parts h).2 _)
      ((eng_54 _ _ (majorOf_mkE ..)).trans (by simp [decodeArith, emin_mkE, ed_mkE, ea_mkE, eb_mkE])) h)

theorem RoundTrip.vmulY (e : EngBits) (d : BitVec 4) (a : BitVec 4) (b : BitVec 4) : RoundTrip.Statement (.vmulY e d a b) :=
  roundTrip_eng _ (mkE 54 e 9 d a b) 54 e rfl rfl rfl (majorOf_mkE ..) (by decide) (fun h =>
    decodeWord_eng _ e _ 54 (majorOf_mkE ..) (by decide) (engBits_mkE ..) (edelay_mkE ..) (plain_parts h).1 ((plain_parts h).2 _)
      ((eng_54 _ _ (majorOf_mkE ..)).trans (by simp [decodeArith, emin_mkE, ed_mkE, ea_mkE, eb_mkE])) h)

theorem RoundTrip.vfmaY (e : EngBits) (d : BitVec 4) (a : BitVec 4) (b : BitVec 4) : RoundTrip.Statement (.vfmaY e d a b) :=
  roundTrip_eng _ (mkE 54 e 10 d a b) 54 e rfl rfl rfl (majorOf_mkE ..) (by decide) (fun h =>
    decodeWord_eng _ e _ 54 (majorOf_mkE ..) (by decide) (engBits_mkE ..) (edelay_mkE ..) (plain_parts h).1 ((plain_parts h).2 _)
      ((eng_54 _ _ (majorOf_mkE ..)).trans (by simp [decodeArith, emin_mkE, ed_mkE, ea_mkE, eb_mkE])) h)

theorem RoundTrip.vmulM (e : EngBits) (d : BitVec 4) (a : BitVec 4) (b : BitVec 4) : RoundTrip.Statement (.vmulM e d a b) :=
  roundTrip_eng _ (mkE 54 e 11 d a b) 54 e rfl rfl rfl (majorOf_mkE ..) (by decide) (fun h =>
    decodeWord_eng _ e _ 54 (majorOf_mkE ..) (by decide) (engBits_mkE ..) (edelay_mkE ..) (plain_parts (by simp only [Instr.wf, Bool.and_eq_true] at h; exact h.1)).1 ((plain_parts (by simp only [Instr.wf, Bool.and_eq_true] at h; exact h.1)).2 _)
      ((eng_54 _ _ (majorOf_mkE ..)).trans (by simp [decodeArith, emin_mkE, ed_mkE, ea_mkE, eb_mkE])) h)

theorem RoundTrip.vmaxY (e : EngBits) (d : BitVec 4) (a : BitVec 4) (b : BitVec 4) : RoundTrip.Statement (.vmaxY e d a b) :=
  roundTrip_eng _ (mkE 54 e 12 d a b) 54 e rfl rfl rfl (majorOf_mkE ..) (by decide) (fun h =>
    decodeWord_eng _ e _ 54 (majorOf_mkE ..) (by decide) (engBits_mkE ..) (edelay_mkE ..) (plain_parts h).1 ((plain_parts h).2 _)
      ((eng_54 _ _ (majorOf_mkE ..)).trans (by simp [decodeArith, emin_mkE, ed_mkE, ea_mkE, eb_mkE])) h)

theorem RoundTrip.vminY (e : EngBits) (d : BitVec 4) (a : BitVec 4) (b : BitVec 4) : RoundTrip.Statement (.vminY e d a b) :=
  roundTrip_eng _ (mkE 54 e 13 d a b) 54 e rfl rfl rfl (majorOf_mkE ..) (by decide) (fun h =>
    decodeWord_eng _ e _ 54 (majorOf_mkE ..) (by decide) (engBits_mkE ..) (edelay_mkE ..) (plain_parts h).1 ((plain_parts h).2 _)
      ((eng_54 _ _ (majorOf_mkE ..)).trans (by simp [decodeArith, emin_mkE, ed_mkE, ea_mkE, eb_mkE])) h)

theorem RoundTrip.vceq (e : EngBits) (d : BitVec 4) (a : BitVec 4) (b : BitVec 4) : RoundTrip.Statement (.vceq e d a b) :=
  roundTrip_eng _ (mkE 55 e 0 d a b) 55 e rfl rfl rfl (majorOf_mkE ..) (by decide) (fun h =>
    decodeWord_eng _ e _ 55 (majorOf_mkE ..) (by decide) (engBits_mkE ..) (edelay_mkE ..) (plain_parts h).1 ((plain_parts h).2 _)
      ((eng_55 _ _ (majorOf_mkE ..)).trans (by simp [decodeLogic, emin_mkE, ed_mkE, ea_mkE, eb_mkE])) h)

theorem RoundTrip.vcne (e : EngBits) (d : BitVec 4) (a : BitVec 4) (b : BitVec 4) : RoundTrip.Statement (.vcne e d a b) :=
  roundTrip_eng _ (mkE 55 e 1 d a b) 55 e rfl rfl rfl (majorOf_mkE ..) (by decide) (fun h =>
    decodeWord_eng _ e _ 55 (majorOf_mkE ..) (by decide) (engBits_mkE ..) (edelay_mkE ..) (plain_parts h).1 ((plain_parts h).2 _)
      ((eng_55 _ _ (majorOf_mkE ..)).trans (by simp [decodeLogic, emin_mkE, ed_mkE, ea_mkE, eb_mkE])) h)

theorem RoundTrip.vclt (e : EngBits) (d : BitVec 4) (a : BitVec 4) (b : BitVec 4) : RoundTrip.Statement (.vclt e d a b) :=
  roundTrip_eng _ (mkE 55 e 2 d a b) 55 e rfl rfl rfl (majorOf_mkE ..) (by decide) (fun h =>
    decodeWord_eng _ e _ 55 (majorOf_mkE ..) (by decide) (engBits_mkE ..) (edelay_mkE ..) (plain_parts h).1 ((plain_parts h).2 _)
      ((eng_55 _ _ (majorOf_mkE ..)).trans (by simp [decodeLogic, emin_mkE, ed_mkE, ea_mkE, eb_mkE])) h)

theorem RoundTrip.vcle (e : EngBits) (d : BitVec 4) (a : BitVec 4) (b : BitVec 4) : RoundTrip.Statement (.vcle e d a b) :=
  roundTrip_eng _ (mkE 55 e 3 d a b) 55 e rfl rfl rfl (majorOf_mkE ..) (by decide) (fun h =>
    decodeWord_eng _ e _ 55 (majorOf_mkE ..) (by decide) (engBits_mkE ..) (edelay_mkE ..) (plain_parts h).1 ((plain_parts h).2 _)
      ((eng_55 _ _ (majorOf_mkE ..)).trans (by simp [decodeLogic, emin_mkE, ed_mkE, ea_mkE, eb_mkE])) h)

theorem RoundTrip.vsel (e : EngBits) (d : BitVec 4) (a : BitVec 4) (b : BitVec 4) : RoundTrip.Statement (.vsel e d a b) :=
  roundTrip_eng _ (mkE 55 e 4 d a b) 55 e rfl rfl rfl (majorOf_mkE ..) (by decide) (fun h =>
    decodeWord_eng _ e _ 55 (majorOf_mkE ..) (by decide) (engBits_mkE ..) (edelay_mkE ..) (plain_parts h).1 ((plain_parts h).2 _)
      ((eng_55 _ _ (majorOf_mkE ..)).trans (by simp [decodeLogic, emin_mkE, ed_mkE, ea_mkE, eb_mkE])) h)

theorem RoundTrip.vand (e : EngBits) (d : BitVec 4) (a : BitVec 4) (b : BitVec 4) : RoundTrip.Statement (.vand e d a b) :=
  roundTrip_eng _ (mkE 55 e 5 d a b) 55 e rfl rfl rfl (majorOf_mkE ..) (by decide) (fun h =>
    decodeWord_eng _ e _ 55 (majorOf_mkE ..) (by decide) (engBits_mkE ..) (edelay_mkE ..) (plain_parts h).1 ((plain_parts h).2 _)
      ((eng_55 _ _ (majorOf_mkE ..)).trans (by simp [decodeLogic, emin_mkE, ed_mkE, ea_mkE, eb_mkE])) h)

theorem RoundTrip.vor (e : EngBits) (d : BitVec 4) (a : BitVec 4) (b : BitVec 4) : RoundTrip.Statement (.vor e d a b) :=
  roundTrip_eng _ (mkE 55 e 6 d a b) 55 e rfl rfl rfl (majorOf_mkE ..) (by decide) (fun h =>
    decodeWord_eng _ e _ 55 (majorOf_mkE ..) (by decide) (engBits_mkE ..) (edelay_mkE ..) (plain_parts h).1 ((plain_parts h).2 _)
      ((eng_55 _ _ (majorOf_mkE ..)).trans (by simp [decodeLogic, emin_mkE, ed_mkE, ea_mkE, eb_mkE])) h)

theorem RoundTrip.vxor (e : EngBits) (d : BitVec 4) (a : BitVec 4) (b : BitVec 4) : RoundTrip.Statement (.vxor e d a b) :=
  roundTrip_eng _ (mkE 55 e 7 d a b) 55 e rfl rfl rfl (majorOf_mkE ..) (by decide) (fun h =>
    decodeWord_eng _ e _ 55 (majorOf_mkE ..) (by decide) (engBits_mkE ..) (edelay_mkE ..) (plain_parts h).1 ((plain_parts h).2 _)
      ((eng_55 _ _ (majorOf_mkE ..)).trans (by simp [decodeLogic, emin_mkE, ed_mkE, ea_mkE, eb_mkE])) h)

theorem RoundTrip.vnot (e : EngBits) (d : BitVec 4) (a : BitVec 4) : RoundTrip.Statement (.vnot e d a) :=
  roundTrip_eng _ (mkE 55 e 8 d a 0) 55 e rfl rfl rfl (majorOf_mkE ..) (by decide) (fun h =>
    decodeWord_eng _ e _ 55 (majorOf_mkE ..) (by decide) (engBits_mkE ..) (edelay_mkE ..) (plain_parts h).1 ((plain_parts h).2 _)
      ((eng_55 _ _ (majorOf_mkE ..)).trans (by simp [decodeLogic, emin_mkE, ed_mkE, ea_mkE, eb_mkE, guardField])) h)

theorem RoundTrip.vshl (e : EngBits) (d : BitVec 4) (a : BitVec 4) (b : BitVec 4) : RoundTrip.Statement (.vshl e d a b) :=
  roundTrip_eng _ (mkE 55 e 9 d a b) 55 e rfl rfl rfl (majorOf_mkE ..) (by decide) (fun h =>
    decodeWord_eng _ e _ 55 (majorOf_mkE ..) (by decide) (engBits_mkE ..) (edelay_mkE ..) (plain_parts h).1 ((plain_parts h).2 _)
      ((eng_55 _ _ (majorOf_mkE ..)).trans (by simp [decodeLogic, emin_mkE, ed_mkE, ea_mkE, eb_mkE])) h)

theorem RoundTrip.vshr (e : EngBits) (d : BitVec 4) (a : BitVec 4) (b : BitVec 4) : RoundTrip.Statement (.vshr e d a b) :=
  roundTrip_eng _ (mkE 55 e 10 d a b) 55 e rfl rfl rfl (majorOf_mkE ..) (by decide) (fun h =>
    decodeWord_eng _ e _ 55 (majorOf_mkE ..) (by decide) (engBits_mkE ..) (edelay_mkE ..) (plain_parts h).1 ((plain_parts h).2 _)
      ((eng_55 _ _ (majorOf_mkE ..)).trans (by simp [decodeLogic, emin_mkE, ed_mkE, ea_mkE, eb_mkE])) h)

theorem RoundTrip.vsra (e : EngBits) (d : BitVec 4) (a : BitVec 4) (b : BitVec 4) : RoundTrip.Statement (.vsra e d a b) :=
  roundTrip_eng _ (mkE 55 e 11 d a b) 55 e rfl rfl rfl (majorOf_mkE ..) (by decide) (fun h =>
    decodeWord_eng _ e _ 55 (majorOf_mkE ..) (by decide) (engBits_mkE ..) (edelay_mkE ..) (plain_parts h).1 ((plain_parts h).2 _)
      ((eng_55 _ _ (majorOf_mkE ..)).trans (by simp [decodeLogic, emin_mkE, ed_mkE, ea_mkE, eb_mkE])) h)

theorem RoundTrip.vaddsat (e : EngBits) (d : BitVec 4) (a : BitVec 4) (b : BitVec 4) : RoundTrip.Statement (.vaddsat e d a b) :=
  roundTrip_eng _ (mkE 55 e 12 d a b) 55 e rfl rfl rfl (majorOf_mkE ..) (by decide) (fun h =>
    decodeWord_eng _ e _ 55 (majorOf_mkE ..) (by decide) (engBits_mkE ..) (edelay_mkE ..) (plain_parts h).1 ((plain_parts h).2 _)
      ((eng_55 _ _ (majorOf_mkE ..)).trans (by simp [decodeLogic, emin_mkE, ed_mkE, ea_mkE, eb_mkE])) h)

theorem RoundTrip.vsubsat (e : EngBits) (d : BitVec 4) (a : BitVec 4) (b : BitVec 4) : RoundTrip.Statement (.vsubsat e d a b) :=
  roundTrip_eng _ (mkE 55 e 13 d a b) 55 e rfl rfl rfl (majorOf_mkE ..) (by decide) (fun h =>
    decodeWord_eng _ e _ 55 (majorOf_mkE ..) (by decide) (engBits_mkE ..) (edelay_mkE ..) (plain_parts h).1 ((plain_parts h).2 _)
      ((eng_55 _ _ (majorOf_mkE ..)).trans (by simp [decodeLogic, emin_mkE, ed_mkE, ea_mkE, eb_mkE])) h)

theorem RoundTrip.vmulhi (e : EngBits) (d : BitVec 4) (a : BitVec 4) (b : BitVec 4) : RoundTrip.Statement (.vmulhi e d a b) :=
  roundTrip_eng _ (mkE 55 e 14 d a b) 55 e rfl rfl rfl (majorOf_mkE ..) (by decide) (fun h =>
    decodeWord_eng _ e _ 55 (majorOf_mkE ..) (by decide) (engBits_mkE ..) (edelay_mkE ..) (plain_parts h).1 ((plain_parts h).2 _)
      ((eng_55 _ _ (majorOf_mkE ..)).trans (by simp [decodeLogic, emin_mkE, ed_mkE, ea_mkE, eb_mkE])) h)

theorem RoundTrip.vclass (e : EngBits) (d : BitVec 4) (a : BitVec 4) : RoundTrip.Statement (.vclass e d a) :=
  roundTrip_eng _ (mkE 55 e 15 d a 0) 55 e rfl rfl rfl (majorOf_mkE ..) (by decide) (fun h =>
    decodeWord_eng _ e _ 55 (majorOf_mkE ..) (by decide) (engBits_mkE ..) (edelay_mkE ..) (plain_parts h).1 ((plain_parts h).2 _)
      ((eng_55 _ _ (majorOf_mkE ..)).trans (by simp [decodeLogic, emin_mkE, ed_mkE, ea_mkE, eb_mkE, guardField])) h)

theorem RoundTrip.vcvt (e : EngBits) (d : BitVec 4) (a : BitVec 4) : RoundTrip.Statement (.vcvt e d a) :=
  roundTrip_eng _ (mkE 56 e 0 d a 0) 56 e rfl rfl rfl (majorOf_mkE ..) (by decide) (fun h =>
    decodeWord_eng _ e _ 56 (majorOf_mkE ..) (by decide) (engBits_mkE ..) (edelay_mkE ..) (plain_parts h).1 ((plain_parts h).2 _)
      ((eng_56 _ _ (majorOf_mkE ..)).trans (by simp [decodeConvert, emin_mkE, ed_mkE, ea_mkE, eb_mkE, guardField])) h)

theorem RoundTrip.vmov (e : EngBits) (d : BitVec 4) (a : BitVec 4) : RoundTrip.Statement (.vmov e d a) :=
  roundTrip_eng _ (mkE 56 e 1 d a 0) 56 e rfl rfl rfl (majorOf_mkE ..) (by decide) (fun h =>
    decodeWord_eng _ e _ 56 (majorOf_mkE ..) (by decide) (engBits_mkE ..) (edelay_mkE ..) (plain_parts h).1 ((plain_parts h).2 _)
      ((eng_56 _ _ (majorOf_mkE ..)).trans (by simp [decodeConvert, emin_mkE, ed_mkE, ea_mkE, eb_mkE, guardField])) h)

theorem RoundTrip.vfillY (e : EngBits) (d : BitVec 4) (b : BitVec 4) : RoundTrip.Statement (.vfillY e d b) :=
  roundTrip_eng _ (mkE 56 e 2 d 0 b) 56 e rfl rfl rfl (majorOf_mkE ..) (by decide) (fun h =>
    decodeWord_eng _ e _ 56 (majorOf_mkE ..) (by decide) (engBits_mkE ..) (edelay_mkE ..) (plain_parts h).1 ((plain_parts h).2 _)
      ((eng_56 _ _ (majorOf_mkE ..)).trans (by simp [decodeConvert, emin_mkE, ed_mkE, ea_mkE, eb_mkE, guardField])) h)

theorem RoundTrip.vgath (e : EngBits) (d : BitVec 4) (a : BitVec 4) (b : BitVec 4) : RoundTrip.Statement (.vgath e d a b) :=
  roundTrip_eng _ (mkE 56 e 3 d a b) 56 e rfl rfl rfl (majorOf_mkE ..) (by decide) (fun h =>
    decodeWord_eng _ e _ 56 (majorOf_mkE ..) (by decide) (engBits_mkE ..) (edelay_mkE ..) (plain_parts h).1 ((plain_parts h).2 _)
      ((eng_56 _ _ (majorOf_mkE ..)).trans (by simp [decodeConvert, emin_mkE, ed_mkE, ea_mkE, eb_mkE])) h)

theorem RoundTrip.vscat (e : EngBits) (d : BitVec 4) (a : BitVec 4) (b : BitVec 4) : RoundTrip.Statement (.vscat e d a b) :=
  roundTrip_eng _ (mkE 56 e 4 d a b) 56 e rfl rfl rfl (majorOf_mkE ..) (by decide) (fun h =>
    decodeWord_eng _ e _ 56 (majorOf_mkE ..) (by decide) (engBits_mkE ..) (edelay_mkE ..) (plain_parts h).1 ((plain_parts h).2 _)
      ((eng_56 _ _ (majorOf_mkE ..)).trans (by simp [decodeConvert, emin_mkE, ed_mkE, ea_mkE, eb_mkE])) h)

theorem RoundTrip.vrng (e : EngBits) (d : BitVec 4) : RoundTrip.Statement (.vrng e d) :=
  roundTrip_eng _ (mkE 56 e 5 d 0 0) 56 e rfl rfl rfl (majorOf_mkE ..) (by decide) (fun h =>
    decodeWord_eng _ e _ 56 (majorOf_mkE ..) (by decide) (engBits_mkE ..) (edelay_mkE ..) (plain_parts h).1 ((plain_parts h).2 _)
      ((eng_56 _ _ (majorOf_mkE ..)).trans (by simp [decodeConvert, emin_mkE, ed_mkE, ea_mkE, eb_mkE, guardField])) h)

theorem RoundTrip.vdrop (e : EngBits) (d : BitVec 4) (a : BitVec 4) (b : BitVec 4) : RoundTrip.Statement (.vdrop e d a b) :=
  roundTrip_eng _ (mkE 56 e 6 d a b) 56 e rfl rfl rfl (majorOf_mkE ..) (by decide) (fun h =>
    decodeWord_eng _ e _ 56 (majorOf_mkE ..) (by decide) (engBits_mkE ..) (edelay_mkE ..) (plain_parts h).1 ((plain_parts h).2 _)
      ((eng_56 _ _ (majorOf_mkE ..)).trans (by simp [decodeConvert, emin_mkE, ed_mkE, ea_mkE, eb_mkE])) h)

theorem RoundTrip.vsplit3 (e : EngBits) (d : BitVec 4) (a : BitVec 4) : RoundTrip.Statement (.vsplit3 e d a) :=
  roundTrip_eng _ (mkE 56 e 7 d a 0) 56 e rfl rfl rfl (majorOf_mkE ..) (by decide) (fun h =>
    decodeWord_eng _ e _ 56 (majorOf_mkE ..) (by decide) (engBits_mkE ..) (edelay_mkE ..) (plain_parts h).1 ((plain_parts h).2 _)
      ((eng_56 _ _ (majorOf_mkE ..)).trans (by simp [decodeConvert, emin_mkE, ed_mkE, ea_mkE, eb_mkE, guardField])) h)

theorem RoundTrip.viota (e : EngBits) (d : BitVec 4) : RoundTrip.Statement (.viota e d) :=
  roundTrip_eng _ (mkE 56 e 8 d 0 0) 56 e rfl rfl rfl (majorOf_mkE ..) (by decide) (fun h =>
    decodeWord_eng _ e _ 56 (majorOf_mkE ..) (by decide) (engBits_mkE ..) (edelay_mkE ..) (plain_parts h).1 ((plain_parts h).2 _)
      ((eng_56 _ _ (majorOf_mkE ..)).trans (by simp [decodeConvert, emin_mkE, ed_mkE, ea_mkE, eb_mkE, guardField])) h)

theorem RoundTrip.rsum (e : EngBits) (d : BitVec 4) (a : BitVec 4) : RoundTrip.Statement (.rsum e d a) :=
  roundTrip_eng _ (mkE 58 e 0 d a 0) 58 e rfl rfl rfl (majorOf_mkE ..) (by decide) (fun h =>
    decodeWord_eng _ e _ 58 (majorOf_mkE ..) (by decide) (engBits_mkE ..) (edelay_mkE ..) (plain_parts h).1 ((plain_parts h).2 _)
      ((eng_58 _ _ (majorOf_mkE ..)).trans (by simp [decodeReduce, emin_mkE, ed_mkE, ea_mkE, eb_mkE, guardField])) h)

theorem RoundTrip.rmax (e : EngBits) (d : BitVec 4) (a : BitVec 4) : RoundTrip.Statement (.rmax e d a) :=
  roundTrip_eng _ (mkE 58 e 1 d a 0) 58 e rfl rfl rfl (majorOf_mkE ..) (by decide) (fun h =>
    decodeWord_eng _ e _ 58 (majorOf_mkE ..) (by decide) (engBits_mkE ..) (edelay_mkE ..) (plain_parts h).1 ((plain_parts h).2 _)
      ((eng_58 _ _ (majorOf_mkE ..)).trans (by simp [decodeReduce, emin_mkE, ed_mkE, ea_mkE, eb_mkE, guardField])) h)

theorem RoundTrip.rmin (e : EngBits) (d : BitVec 4) (a : BitVec 4) : RoundTrip.Statement (.rmin e d a) :=
  roundTrip_eng _ (mkE 58 e 2 d a 0) 58 e rfl rfl rfl (majorOf_mkE ..) (by decide) (fun h =>
    decodeWord_eng _ e _ 58 (majorOf_mkE ..) (by decide) (engBits_mkE ..) (edelay_mkE ..) (plain_parts h).1 ((plain_parts h).2 _)
      ((eng_58 _ _ (majorOf_mkE ..)).trans (by simp [decodeReduce, emin_mkE, ed_mkE, ea_mkE, eb_mkE, guardField])) h)

theorem RoundTrip.rsumsq (e : EngBits) (d : BitVec 4) (a : BitVec 4) : RoundTrip.Statement (.rsumsq e d a) :=
  roundTrip_eng _ (mkE 58 e 3 d a 0) 58 e rfl rfl rfl (majorOf_mkE ..) (by decide) (fun h =>
    decodeWord_eng _ e _ 58 (majorOf_mkE ..) (by decide) (engBits_mkE ..) (edelay_mkE ..) (plain_parts h).1 ((plain_parts h).2 _)
      ((eng_58 _ _ (majorOf_mkE ..)).trans (by simp [decodeReduce, emin_mkE, ed_mkE, ea_mkE, eb_mkE, guardField])) h)

theorem RoundTrip.scanSum (e : EngBits) (d : BitVec 4) (a : BitVec 4) : RoundTrip.Statement (.scanSum e d a) :=
  roundTrip_eng _ (mkE 58 e 4 d a 0) 58 e rfl rfl rfl (majorOf_mkE ..) (by decide) (fun h =>
    decodeWord_eng _ e _ 58 (majorOf_mkE ..) (by decide) (engBits_mkE ..) (edelay_mkE ..) (plain_parts h).1 ((plain_parts h).2 _)
      ((eng_58 _ _ (majorOf_mkE ..)).trans (by simp [decodeReduce, emin_mkE, ed_mkE, ea_mkE, eb_mkE, guardField])) h)

theorem RoundTrip.scanMax (e : EngBits) (d : BitVec 4) (a : BitVec 4) : RoundTrip.Statement (.scanMax e d a) :=
  roundTrip_eng _ (mkE 58 e 5 d a 0) 58 e rfl rfl rfl (majorOf_mkE ..) (by decide) (fun h =>
    decodeWord_eng _ e _ 58 (majorOf_mkE ..) (by decide) (engBits_mkE ..) (edelay_mkE ..) (plain_parts h).1 ((plain_parts h).2 _)
      ((eng_58 _ _ (majorOf_mkE ..)).trans (by simp [decodeReduce, emin_mkE, ed_mkE, ea_mkE, eb_mkE, guardField])) h)

theorem RoundTrip.rdot (e : EngBits) (d : BitVec 4) (a : BitVec 4) (b : BitVec 4) : RoundTrip.Statement (.rdot e d a b) :=
  roundTrip_eng _ (mkE 58 e 6 d a b) 58 e rfl rfl rfl (majorOf_mkE ..) (by decide) (fun h =>
    decodeWord_eng _ e _ 58 (majorOf_mkE ..) (by decide) (engBits_mkE ..) (edelay_mkE ..) (plain_parts h).1 ((plain_parts h).2 _)
      ((eng_58 _ _ (majorOf_mkE ..)).trans (by simp [decodeReduce, emin_mkE, ed_mkE, ea_mkE, eb_mkE])) h)

theorem RoundTrip.rargmax (e : EngBits) (d : BitVec 4) (a : BitVec 4) : RoundTrip.Statement (.rargmax e d a) :=
  roundTrip_eng _ (mkE 58 e 7 d a 0) 58 e rfl rfl rfl (majorOf_mkE ..) (by decide) (fun h =>
    decodeWord_eng _ e _ 58 (majorOf_mkE ..) (by decide) (engBits_mkE ..) (edelay_mkE ..) (plain_parts h).1 ((plain_parts h).2 _)
      ((eng_58 _ _ (majorOf_mkE ..)).trans (by simp [decodeReduce, emin_mkE, ed_mkE, ea_mkE, eb_mkE, guardField])) h)

theorem RoundTrip.rcnt (e : EngBits) (d : BitVec 4) (a : BitVec 4) : RoundTrip.Statement (.rcnt e d a) :=
  roundTrip_eng _ (mkE 58 e 8 d a 0) 58 e rfl rfl rfl (majorOf_mkE ..) (by decide) (fun h =>
    decodeWord_eng _ e _ 58 (majorOf_mkE ..) (by decide) (engBits_mkE ..) (edelay_mkE ..) (plain_parts h).1 ((plain_parts h).2 _)
      ((eng_58 _ _ (majorOf_mkE ..)).trans (by simp [decodeReduce, emin_mkE, ed_mkE, ea_mkE, eb_mkE, guardField])) h)

theorem RoundTrip.waitCmp (e : EngBits) (n : BitVec 12) : RoundTrip.Statement (.waitCmp e n) :=
  roundTrip_eng _ (mkN 59 e 0 n) 59 e rfl rfl rfl (majorOf_mkN ..) (by decide) (fun h =>
    decodeWord_eng _ e _ 59 (majorOf_mkN ..) (by decide) (engBits_mkN ..) (edelay_mkN ..) (plain_parts h).1 ((plain_parts h).2 _)
      ((eng_59 _ _ (majorOf_mkN ..)).trans (by simp [decodeCmpWait, emin_mkN, en_mkN])) h)

theorem RoundTrip.qfenceCmp (e : EngBits) (m : BitVec 7) : RoundTrip.Statement (.qfenceCmp e m) :=
  roundTrip_eng _ (mkN 59 e 1 ((0#5 ++ m : BitVec 12))) 59 e rfl rfl rfl (majorOf_mkN ..) (by decide) (fun h =>
    decodeWord_eng _ e _ 59 (majorOf_mkN ..) (by decide) (engBits_mkN ..) (edelay_mkN ..) (plain_parts (by simp only [Instr.wf, Bool.and_eq_true] at h; exact h.1)).1 ((plain_parts (by simp only [Instr.wf, Bool.and_eq_true] at h; exact h.1)).2 _)
      ((eng_59 _ _ (majorOf_mkN ..)).trans (by simp [decodeCmpWait, emin_mkN, mask_top, mask_low, guardField])) h)

theorem RoundTrip.cpyOut (e : EngBits) (d : BitVec 4) : RoundTrip.Statement (.cpyOut e d) :=
  roundTrip_eng _ (mkE 60 e 0 d 0 0) 60 e rfl rfl rfl (majorOf_mkE ..) (by decide) (fun h =>
    decodeWord_eng _ e _ 60 (majorOf_mkE ..) (by decide) (engBits_mkE ..) (edelay_mkE ..) (copy_parts (e := e) (d := d) h).1
      (fun m => (copy_parts (e := e) (d := d) h).2 _ m (by simp only [copyWord, majorOf_mkE, emin_mkE]; decide) (ed_mkE ..))
      ((eng_60 _ _ (majorOf_mkE ..)).trans (by simp [decodeCopyOut, emin_mkE, ed_mkE, ea_mkE, eb_mkE, guardField])) h)

theorem RoundTrip.cpyScat (e : EngBits) (d : BitVec 4) (a : BitVec 4) : RoundTrip.Statement (.cpyScat e d a) :=
  roundTrip_eng _ (mkE 60 e 1 d a 0) 60 e rfl rfl rfl (majorOf_mkE ..) (by decide) (fun h =>
    decodeWord_eng _ e _ 60 (majorOf_mkE ..) (by decide) (engBits_mkE ..) (edelay_mkE ..) (copy_parts (e := e) (d := d) h).1
      (fun m => (copy_parts (e := e) (d := d) h).2 _ m (by simp only [copyWord, majorOf_mkE, emin_mkE]; decide) (ed_mkE ..))
      ((eng_60 _ _ (majorOf_mkE ..)).trans (by simp [decodeCopyOut, emin_mkE, ed_mkE, ea_mkE, eb_mkE, guardField])) h)

theorem RoundTrip.stash (e : EngBits) (d : BitVec 4) : RoundTrip.Statement (.stash e d) :=
  roundTrip_eng _ (mkE 60 e 2 d 0 0) 60 e rfl rfl rfl (majorOf_mkE ..) (by decide) (fun h =>
    decodeWord_eng _ e _ 60 (majorOf_mkE ..) (by decide) (engBits_mkE ..) (edelay_mkE ..) (copy_parts (e := e) (d := d) h).1
      (fun m => (copy_parts (e := e) (d := d) h).2 _ m (by simp only [copyWord, majorOf_mkE, emin_mkE]; decide) (ed_mkE ..))
      ((eng_60 _ _ (majorOf_mkE ..)).trans (by simp [decodeCopyOut, emin_mkE, ed_mkE, ea_mkE, eb_mkE, guardField])) h)

theorem RoundTrip.cpyXc (e : EngBits) (d : BitVec 4) : RoundTrip.Statement (.cpyXc e d) :=
  roundTrip_eng _ (mkE 60 e 3 d 0 0) 60 e rfl rfl rfl (majorOf_mkE ..) (by decide) (fun h =>
    decodeWord_eng _ e _ 60 (majorOf_mkE ..) (by decide) (engBits_mkE ..) (edelay_mkE ..) (copy_parts (e := e) (d := d) h).1
      (fun m => (copy_parts (e := e) (d := d) h).2 _ m (by simp only [copyWord, majorOf_mkE, emin_mkE]; decide) (ed_mkE ..))
      ((eng_60 _ _ (majorOf_mkE ..)).trans (by simp [decodeCopyOut, emin_mkE, ed_mkE, ea_mkE, eb_mkE, guardField])) h)

theorem RoundTrip.send (e : EngBits) (a : BitVec 4) : RoundTrip.Statement (.send e a) :=
  roundTrip_eng _ (mkE 61 e 0 0 a 0) 61 e rfl rfl rfl (majorOf_mkE ..) (by decide) (fun h =>
    decodeWord_eng _ e _ 61 (majorOf_mkE ..) (by decide) (engBits_mkE ..) (edelay_mkE ..) (plain_parts h).1 ((plain_parts h).2 _)
      ((eng_61 _ _ (majorOf_mkE ..)).trans (by simp [decodeSend, emin_mkE, ed_mkE, ea_mkE, eb_mkE, guardField])) h)

theorem RoundTrip.sendG (e : EngBits) (a : BitVec 4) : RoundTrip.Statement (.sendG e a) :=
  roundTrip_eng _ (mkE 61 e 1 0 a 0) 61 e rfl rfl rfl (majorOf_mkE ..) (by decide) (fun h =>
    decodeWord_eng _ e _ 61 (majorOf_mkE ..) (by decide) (engBits_mkE ..) (edelay_mkE ..) (plain_parts h).1 ((plain_parts h).2 _)
      ((eng_61 _ _ (majorOf_mkE ..)).trans (by simp [decodeSend, emin_mkE, ed_mkE, ea_mkE, eb_mkE, guardField])) h)

theorem RoundTrip.evpost (e : EngBits) : RoundTrip.Statement (.evpost e) :=
  roundTrip_eng _ (mkE 61 e 2 0 0 0) 61 e rfl rfl rfl (majorOf_mkE ..) (by decide) (fun h =>
    decodeWord_eng _ e _ 61 (majorOf_mkE ..) (by decide) (engBits_mkE ..) (edelay_mkE ..) (plain_parts h).1 ((plain_parts h).2 _)
      ((eng_61 _ _ (majorOf_mkE ..)).trans (by simp [decodeSend, emin_mkE, ed_mkE, ea_mkE, eb_mkE, guardField])) h)

theorem RoundTrip.waitSt (e : EngBits) (n : BitVec 12) : RoundTrip.Statement (.waitSt e n) :=
  roundTrip_eng _ (mkN 61 e 8 n) 61 e rfl rfl rfl (majorOf_mkN ..) (by decide) (fun h =>
    decodeWord_eng _ e _ 61 (majorOf_mkN ..) (by decide) (engBits_mkN ..) (edelay_mkN ..) (plain_parts h).1 ((plain_parts h).2 _)
      ((eng_61 _ _ (majorOf_mkN ..)).trans (by simp [decodeSend, emin_mkN, en_mkN])) h)

theorem RoundTrip.qfenceSt (e : EngBits) (m : BitVec 7) : RoundTrip.Statement (.qfenceSt e m) :=
  roundTrip_eng _ (mkN 61 e 9 ((0#5 ++ m : BitVec 12))) 61 e rfl rfl rfl (majorOf_mkN ..) (by decide) (fun h =>
    decodeWord_eng _ e _ 61 (majorOf_mkN ..) (by decide) (engBits_mkN ..) (edelay_mkN ..) (plain_parts (by simp only [Instr.wf, Bool.and_eq_true] at h; exact h.1)).1 ((plain_parts (by simp only [Instr.wf, Bool.and_eq_true] at h; exact h.1)).2 _)
      ((eng_61 _ _ (majorOf_mkN ..)).trans (by simp [decodeSend, emin_mkN, mask_top, mask_low, guardField])) h)

theorem RoundTrip.tret : RoundTrip.Statement .tret :=
  roundTrip_ctl _ (mkA 0x22 0 0 0 1) 34 rfl rfl (majorOf_mkA ..) (by decide) (by decide) (fun _ =>
    (ctl_34 _ _ (majorOf_mkA ..)).trans (by simp [decodeSystem, fd_mkA, fa_mkA, fb_mkA, fm_mkA, fm7_mkA, fm60_mkA, guardField]))

theorem RoundTrip.halt : RoundTrip.Statement .halt :=
  roundTrip_ctl _ (mkA 0x22 0 0 0 2) 34 rfl rfl (majorOf_mkA ..) (by decide) (by decide) (fun _ =>
    (ctl_34 _ _ (majorOf_mkA ..)).trans (by simp [decodeSystem, fd_mkA, fa_mkA, fb_mkA, fm_mkA, fm7_mkA, fm60_mkA, guardField]))

theorem RoundTrip.fence : RoundTrip.Statement .fence :=
  roundTrip_ctl _ (mkA 0x22 0 0 0 3) 34 rfl rfl (majorOf_mkA ..) (by decide) (by decide) (fun _ =>
    (ctl_34 _ _ (majorOf_mkA ..)).trans (by simp [decodeSystem, fd_mkA, fa_mkA, fb_mkA, fm_mkA, fm7_mkA, fm60_mkA, guardField]))

theorem RoundTrip.ifb : RoundTrip.Statement .ifb :=
  roundTrip_ctl _ (mkA 0x22 0 0 0 4) 34 rfl rfl (majorOf_mkA ..) (by decide) (by decide) (fun _ =>
    (ctl_34 _ _ (majorOf_mkA ..)).trans (by simp [decodeSystem, fd_mkA, fa_mkA, fb_mkA, fm_mkA, fm7_mkA, fm60_mkA, guardField]))

theorem RoundTrip.txvote : RoundTrip.Statement .txvote :=
  roundTrip_ctl _ (mkA 39 0 0 0 1) 39 rfl rfl (majorOf_mkA ..) (by decide) (by decide) (fun _ =>
    (ctl_39 _ _ (majorOf_mkA ..)).trans (by simp [decodeTx, fd_mkA, fa_mkA, fb_mkA, fm_mkA, guardField]))

theorem RoundTrip.txabort : RoundTrip.Statement .txabort :=
  roundTrip_ctl _ (mkA 39 0 0 0 4) 39 rfl rfl (majorOf_mkA ..) (by decide) (by decide) (fun _ =>
    (ctl_39 _ _ (majorOf_mkA ..)).trans (by simp [decodeTx, fd_mkA, fa_mkA, fb_mkA, fm_mkA, guardField]))

theorem RoundTrip.sstepCluster : RoundTrip.Statement .sstepCluster :=
  roundTrip_ctl _ (mkA 40 0 0 0 0) 40 rfl rfl (majorOf_mkA ..) (by decide) (by decide) (fun _ =>
    (ctl_40 _ _ (majorOf_mkA ..)).trans (by simp [decodeDomains, fd_mkA, fa_mkA, fb_mkA, fm_mkA, guardField]))

theorem RoundTrip.sstepDie : RoundTrip.Statement .sstepDie :=
  roundTrip_ctl _ (mkA 40 0 0 0 1) 40 rfl rfl (majorOf_mkA ..) (by decide) (by decide) (fun _ =>
    (ctl_40 _ _ (majorOf_mkA ..)).trans (by simp [decodeDomains, fd_mkA, fa_mkA, fb_mkA, fm_mkA, guardField]))

theorem RoundTrip.sstepDevice : RoundTrip.Statement .sstepDevice :=
  roundTrip_ctl _ (mkA 40 0 0 0 2) 40 rfl rfl (majorOf_mkA ..) (by decide) (by decide) (fun _ =>
    (ctl_40 _ _ (majorOf_mkA ..)).trans (by simp [decodeDomains, fd_mkA, fa_mkA, fb_mkA, fm_mkA, guardField]))

theorem RoundTrip.sstepHerd : RoundTrip.Statement .sstepHerd :=
  roundTrip_ctl _ (mkA 40 0 0 0 3) 40 rfl rfl (majorOf_mkA ..) (by decide) (by decide) (fun _ =>
    (ctl_40 _ _ (majorOf_mkA ..)).trans (by simp [decodeDomains, fd_mkA, fa_mkA, fb_mkA, fm_mkA, guardField]))

theorem RoundTrip.sstepJob : RoundTrip.Statement .sstepJob :=
  roundTrip_ctl _ (mkA 40 0 0 0 4) 40 rfl rfl (majorOf_mkA ..) (by decide) (by decide) (fun _ =>
    (ctl_40 _ _ (majorOf_mkA ..)).trans (by simp [decodeDomains, fd_mkA, fa_mkA, fb_mkA, fm_mkA, guardField]))

theorem RoundTrip.yield : RoundTrip.Statement .yield :=
  roundTrip_ctl _ (mkA 44 0 0 0 1) 44 rfl rfl (majorOf_mkA ..) (by decide) (by decide) (fun _ =>
    (ctl_44 _ _ (majorOf_mkA ..)).trans (by simp [decodeSafe, fd_mkA, fa_mkA, fb_mkA, fm_mkA, guardField]))

theorem RoundTrip.sfExp2 (e : EngBits) (d : BitVec 4) (a : BitVec 4) : RoundTrip.Statement (.sfExp2 e d a) :=
  roundTrip_eng _ (mkE 57 e 0 d a 0) 57 e rfl rfl rfl (majorOf_mkE ..) (by decide) (fun h =>
    decodeWord_eng _ e _ 57 (majorOf_mkE ..) (by decide) (engBits_mkE ..) (edelay_mkE ..) (plain_parts h).1 ((plain_parts h).2 _)
      ((eng_57 _ _ (majorOf_mkE ..)).trans (by simp [decodeFunc, emin_mkE, ed_mkE, ea_mkE, eb_mkE, guardField])) h)

theorem RoundTrip.sfLog2 (e : EngBits) (d : BitVec 4) (a : BitVec 4) : RoundTrip.Statement (.sfLog2 e d a) :=
  roundTrip_eng _ (mkE 57 e 1 d a 0) 57 e rfl rfl rfl (majorOf_mkE ..) (by decide) (fun h =>
    decodeWord_eng _ e _ 57 (majorOf_mkE ..) (by decide) (engBits_mkE ..) (edelay_mkE ..) (plain_parts h).1 ((plain_parts h).2 _)
      ((eng_57 _ _ (majorOf_mkE ..)).trans (by simp [decodeFunc, emin_mkE, ed_mkE, ea_mkE, eb_mkE, guardField])) h)

theorem RoundTrip.sfRcp (e : EngBits) (d : BitVec 4) (a : BitVec 4) : RoundTrip.Statement (.sfRcp e d a) :=
  roundTrip_eng _ (mkE 57 e 2 d a 0) 57 e rfl rfl rfl (majorOf_mkE ..) (by decide) (fun h =>
    decodeWord_eng _ e _ 57 (majorOf_mkE ..) (by decide) (engBits_mkE ..) (edelay_mkE ..) (plain_parts h).1 ((plain_parts h).2 _)
      ((eng_57 _ _ (majorOf_mkE ..)).trans (by simp [decodeFunc, emin_mkE, ed_mkE, ea_mkE, eb_mkE, guardField])) h)

theorem RoundTrip.sfRsqrt (e : EngBits) (d : BitVec 4) (a : BitVec 4) : RoundTrip.Statement (.sfRsqrt e d a) :=
  roundTrip_eng _ (mkE 57 e 3 d a 0) 57 e rfl rfl rfl (majorOf_mkE ..) (by decide) (fun h =>
    decodeWord_eng _ e _ 57 (majorOf_mkE ..) (by decide) (engBits_mkE ..) (edelay_mkE ..) (plain_parts h).1 ((plain_parts h).2 _)
      ((eng_57 _ _ (majorOf_mkE ..)).trans (by simp [decodeFunc, emin_mkE, ed_mkE, ea_mkE, eb_mkE, guardField])) h)

theorem RoundTrip.sfSqrt (e : EngBits) (d : BitVec 4) (a : BitVec 4) : RoundTrip.Statement (.sfSqrt e d a) :=
  roundTrip_eng _ (mkE 57 e 4 d a 0) 57 e rfl rfl rfl (majorOf_mkE ..) (by decide) (fun h =>
    decodeWord_eng _ e _ 57 (majorOf_mkE ..) (by decide) (engBits_mkE ..) (edelay_mkE ..) (plain_parts h).1 ((plain_parts h).2 _)
      ((eng_57 _ _ (majorOf_mkE ..)).trans (by simp [decodeFunc, emin_mkE, ed_mkE, ea_mkE, eb_mkE, guardField])) h)

theorem RoundTrip.sfSinpi (e : EngBits) (d : BitVec 4) (a : BitVec 4) : RoundTrip.Statement (.sfSinpi e d a) :=
  roundTrip_eng _ (mkE 57 e 5 d a 0) 57 e rfl rfl rfl (majorOf_mkE ..) (by decide) (fun h =>
    decodeWord_eng _ e _ 57 (majorOf_mkE ..) (by decide) (engBits_mkE ..) (edelay_mkE ..) (plain_parts h).1 ((plain_parts h).2 _)
      ((eng_57 _ _ (majorOf_mkE ..)).trans (by simp [decodeFunc, emin_mkE, ed_mkE, ea_mkE, eb_mkE, guardField])) h)

theorem RoundTrip.sfCospi (e : EngBits) (d : BitVec 4) (a : BitVec 4) : RoundTrip.Statement (.sfCospi e d a) :=
  roundTrip_eng _ (mkE 57 e 6 d a 0) 57 e rfl rfl rfl (majorOf_mkE ..) (by decide) (fun h =>
    decodeWord_eng _ e _ 57 (majorOf_mkE ..) (by decide) (engBits_mkE ..) (edelay_mkE ..) (plain_parts h).1 ((plain_parts h).2 _)
      ((eng_57 _ _ (majorOf_mkE ..)).trans (by simp [decodeFunc, emin_mkE, ed_mkE, ea_mkE, eb_mkE, guardField])) h)

theorem RoundTrip.sfTanh (e : EngBits) (d : BitVec 4) (a : BitVec 4) : RoundTrip.Statement (.sfTanh e d a) :=
  roundTrip_eng _ (mkE 57 e 7 d a 0) 57 e rfl rfl rfl (majorOf_mkE ..) (by decide) (fun h =>
    decodeWord_eng _ e _ 57 (majorOf_mkE ..) (by decide) (engBits_mkE ..) (edelay_mkE ..) (plain_parts h).1 ((plain_parts h).2 _)
      ((eng_57 _ _ (majorOf_mkE ..)).trans (by simp [decodeFunc, emin_mkE, ed_mkE, ea_mkE, eb_mkE, guardField])) h)

theorem RoundTrip.sfLogistic (e : EngBits) (d : BitVec 4) (a : BitVec 4) : RoundTrip.Statement (.sfLogistic e d a) :=
  roundTrip_eng _ (mkE 57 e 8 d a 0) 57 e rfl rfl rfl (majorOf_mkE ..) (by decide) (fun h =>
    decodeWord_eng _ e _ 57 (majorOf_mkE ..) (by decide) (engBits_mkE ..) (edelay_mkE ..) (plain_parts h).1 ((plain_parts h).2 _)
      ((eng_57 _ _ (majorOf_mkE ..)).trans (by simp [decodeFunc, emin_mkE, ed_mkE, ea_mkE, eb_mkE, guardField])) h)

theorem RoundTrip.efExp2 (e : EngBits) (d : BitVec 4) (a : BitVec 4) : RoundTrip.Statement (.efExp2 e d a) :=
  roundTrip_eng _ (mkE 57 e 16 d a 0) 57 e rfl rfl rfl (majorOf_mkE ..) (by decide) (fun h =>
    decodeWord_eng _ e _ 57 (majorOf_mkE ..) (by decide) (engBits_mkE ..) (edelay_mkE ..) (plain_parts h).1 ((plain_parts h).2 _)
      ((eng_57 _ _ (majorOf_mkE ..)).trans (by simp [decodeFunc, emin_mkE, ed_mkE, ea_mkE, eb_mkE, guardField])) h)

theorem RoundTrip.efLog2 (e : EngBits) (d : BitVec 4) (a : BitVec 4) : RoundTrip.Statement (.efLog2 e d a) :=
  roundTrip_eng _ (mkE 57 e 17 d a 0) 57 e rfl rfl rfl (majorOf_mkE ..) (by decide) (fun h =>
    decodeWord_eng _ e _ 57 (majorOf_mkE ..) (by decide) (engBits_mkE ..) (edelay_mkE ..) (plain_parts h).1 ((plain_parts h).2 _)
      ((eng_57 _ _ (majorOf_mkE ..)).trans (by simp [decodeFunc, emin_mkE, ed_mkE, ea_mkE, eb_mkE, guardField])) h)

theorem RoundTrip.efRcp (e : EngBits) (d : BitVec 4) (a : BitVec 4) : RoundTrip.Statement (.efRcp e d a) :=
  roundTrip_eng _ (mkE 57 e 18 d a 0) 57 e rfl rfl rfl (majorOf_mkE ..) (by decide) (fun h =>
    decodeWord_eng _ e _ 57 (majorOf_mkE ..) (by decide) (engBits_mkE ..) (edelay_mkE ..) (plain_parts h).1 ((plain_parts h).2 _)
      ((eng_57 _ _ (majorOf_mkE ..)).trans (by simp [decodeFunc, emin_mkE, ed_mkE, ea_mkE, eb_mkE, guardField])) h)

theorem RoundTrip.efRsqrt (e : EngBits) (d : BitVec 4) (a : BitVec 4) : RoundTrip.Statement (.efRsqrt e d a) :=
  roundTrip_eng _ (mkE 57 e 19 d a 0) 57 e rfl rfl rfl (majorOf_mkE ..) (by decide) (fun h =>
    decodeWord_eng _ e _ 57 (majorOf_mkE ..) (by decide) (engBits_mkE ..) (edelay_mkE ..) (plain_parts h).1 ((plain_parts h).2 _)
      ((eng_57 _ _ (majorOf_mkE ..)).trans (by simp [decodeFunc, emin_mkE, ed_mkE, ea_mkE, eb_mkE, guardField])) h)

theorem RoundTrip.efSqrt (e : EngBits) (d : BitVec 4) (a : BitVec 4) : RoundTrip.Statement (.efSqrt e d a) :=
  roundTrip_eng _ (mkE 57 e 20 d a 0) 57 e rfl rfl rfl (majorOf_mkE ..) (by decide) (fun h =>
    decodeWord_eng _ e _ 57 (majorOf_mkE ..) (by decide) (engBits_mkE ..) (edelay_mkE ..) (plain_parts h).1 ((plain_parts h).2 _)
      ((eng_57 _ _ (majorOf_mkE ..)).trans (by simp [decodeFunc, emin_mkE, ed_mkE, ea_mkE, eb_mkE, guardField])) h)

theorem RoundTrip.efSinpi (e : EngBits) (d : BitVec 4) (a : BitVec 4) : RoundTrip.Statement (.efSinpi e d a) :=
  roundTrip_eng _ (mkE 57 e 21 d a 0) 57 e rfl rfl rfl (majorOf_mkE ..) (by decide) (fun h =>
    decodeWord_eng _ e _ 57 (majorOf_mkE ..) (by decide) (engBits_mkE ..) (edelay_mkE ..) (plain_parts h).1 ((plain_parts h).2 _)
      ((eng_57 _ _ (majorOf_mkE ..)).trans (by simp [decodeFunc, emin_mkE, ed_mkE, ea_mkE, eb_mkE, guardField])) h)

theorem RoundTrip.efCospi (e : EngBits) (d : BitVec 4) (a : BitVec 4) : RoundTrip.Statement (.efCospi e d a) :=
  roundTrip_eng _ (mkE 57 e 22 d a 0) 57 e rfl rfl rfl (majorOf_mkE ..) (by decide) (fun h =>
    decodeWord_eng _ e _ 57 (majorOf_mkE ..) (by decide) (engBits_mkE ..) (edelay_mkE ..) (plain_parts h).1 ((plain_parts h).2 _)
      ((eng_57 _ _ (majorOf_mkE ..)).trans (by simp [decodeFunc, emin_mkE, ed_mkE, ea_mkE, eb_mkE, guardField])) h)

theorem RoundTrip.efTanh (e : EngBits) (d : BitVec 4) (a : BitVec 4) : RoundTrip.Statement (.efTanh e d a) :=
  roundTrip_eng _ (mkE 57 e 23 d a 0) 57 e rfl rfl rfl (majorOf_mkE ..) (by decide) (fun h =>
    decodeWord_eng _ e _ 57 (majorOf_mkE ..) (by decide) (engBits_mkE ..) (edelay_mkE ..) (plain_parts h).1 ((plain_parts h).2 _)
      ((eng_57 _ _ (majorOf_mkE ..)).trans (by simp [decodeFunc, emin_mkE, ed_mkE, ea_mkE, eb_mkE, guardField])) h)

theorem RoundTrip.efLogistic (e : EngBits) (d : BitVec 4) (a : BitVec 4) : RoundTrip.Statement (.efLogistic e d a) :=
  roundTrip_eng _ (mkE 57 e 24 d a 0) 57 e rfl rfl rfl (majorOf_mkE ..) (by decide) (fun h =>
    decodeWord_eng _ e _ 57 (majorOf_mkE ..) (by decide) (engBits_mkE ..) (edelay_mkE ..) (plain_parts h).1 ((plain_parts h).2 _)
      ((eng_57 _ _ (majorOf_mkE ..)).trans (by simp [decodeFunc, emin_mkE, ed_mkE, ea_mkE, eb_mkE, guardField])) h)

theorem RoundTrip.atomicHomePortPerform (n : Nat) : RoundTrip.Statement (.atomicHomePortPerform n) :=
  fun _ _ e => nomatch e

theorem RoundTrip.tableEntryPlace (home : Engine) : RoundTrip.Statement (.tableEntryPlace home) :=
  fun _ _ e => nomatch e

theorem RoundTrip.engineWordRoute : RoundTrip.Statement .engineWordRoute :=
  fun _ _ e => nomatch e

theorem RoundTrip.overrun (u : Queue) : RoundTrip.Statement (.overrun u) :=
  fun _ _ e => nomatch e

theorem RoundTrip.engineWordCompletion (id : Nat) : RoundTrip.Statement (.engineWordCompletion id) :=
  fun _ _ e => nomatch e

theorem RoundTrip.eventRecordHeldPost : RoundTrip.Statement .eventRecordHeldPost :=
  fun _ _ e => nomatch e

theorem RoundTrip.copyLineLanding (id : Nat) : RoundTrip.Statement (.copyLineLanding id) :=
  fun _ _ e => nomatch e

theorem RoundTrip.copyMemoryWritePerform (id : Nat) : RoundTrip.Statement (.copyMemoryWritePerform id) :=
  fun _ _ e => nomatch e

theorem RoundTrip.messagePieceLanding (n : Nat) : RoundTrip.Statement (.messagePieceLanding n) :=
  fun _ _ e => nomatch e

theorem RoundTrip.mapAccessLanding (n : Nat) : RoundTrip.Statement (.mapAccessLanding n) :=
  fun _ _ e => nomatch e

theorem RoundTrip.translationWalkComplete (va : BitVec 64) : RoundTrip.Statement (.translationWalkComplete va) :=
  fun _ _ e => nomatch e

theorem RoundTrip.versionedAccess (acc : VAccess) : RoundTrip.Statement (.versionedAccess acc) :=
  fun _ _ e => nomatch e

theorem RoundTrip.firstWriteLineCopy (block : Nat) : RoundTrip.Statement (.firstWriteLineCopy block) :=
  fun _ _ e => nomatch e

theorem RoundTrip.sweeperResolve (block : Nat) : RoundTrip.Statement (.sweeperResolve block) :=
  fun _ _ e => nomatch e

theorem RoundTrip.deviceVoteSend : RoundTrip.Statement .deviceVoteSend :=
  fun _ _ e => nomatch e

theorem RoundTrip.outcomeArrival (w : BitVec 64) : RoundTrip.Statement (.outcomeArrival w) :=
  fun _ _ e => nomatch e

theorem RoundTrip.drainEngineTransfer : RoundTrip.Statement .drainEngineTransfer :=
  fun _ _ e => nomatch e

theorem RoundTrip.drainAcknowledge : RoundTrip.Statement .drainAcknowledge :=
  fun _ _ e => nomatch e

theorem RoundTrip.fragmentArrival (f : Fragment) : RoundTrip.Statement (.fragmentArrival f) :=
  fun _ _ e => nomatch e

theorem RoundTrip.darnDecode (n : Nat) : RoundTrip.Statement (.darnDecode n) :=
  fun _ _ e => nomatch e

theorem RoundTrip.messageDelivery (n : Nat) : RoundTrip.Statement (.messageDelivery n) :=
  fun _ _ e => nomatch e

theorem RoundTrip.unrecoverableLoss (n : Nat) : RoundTrip.Statement (.unrecoverableLoss n) :=
  fun _ _ e => nomatch e

theorem RoundTrip.collectiveSourceRead (n : Nat) : RoundTrip.Statement (.collectiveSourceRead n) :=
  fun _ _ e => nomatch e

theorem RoundTrip.collectiveDelivery (n : Nat) : RoundTrip.Statement (.collectiveDelivery n) :=
  fun _ _ e => nomatch e

theorem RoundTrip.windowFlushApply (n : Nat) : RoundTrip.Statement (.windowFlushApply n) :=
  fun _ _ e => nomatch e

theorem RoundTrip.openingAlignmentBarrier : RoundTrip.Statement .openingAlignmentBarrier :=
  fun _ _ e => nomatch e

theorem RoundTrip.barrierRelease (level : Level) : RoundTrip.Statement (.barrierRelease level) :=
  fun _ _ e => nomatch e

theorem RoundTrip.queueTailWrite (fn : BitVec 5) (q : BitVec 15) (v : BitVec 32) : RoundTrip.Statement (.queueTailWrite fn q v) :=
  fun _ _ e => nomatch e

theorem RoundTrip.quantumEnd : RoundTrip.Statement .quantumEnd :=
  fun _ _ e => nomatch e

theorem RoundTrip.schedulerDecision : RoundTrip.Statement .schedulerDecision :=
  fun _ _ e => nomatch e

theorem RoundTrip.launchDispatch (q : BitVec 15) : RoundTrip.Statement (.launchDispatch q) :=
  fun _ _ e => nomatch e

theorem RoundTrip.launchPacketReceive (q : BitVec 15) (words : List (BitVec 64)) : RoundTrip.Statement (.launchPacketReceive q words) :=
  fun _ _ e => nomatch e

theorem RoundTrip.launchCompletion : RoundTrip.Statement .launchCompletion :=
  fun _ _ e => nomatch e

theorem RoundTrip.preemptionRequest : RoundTrip.Statement .preemptionRequest :=
  fun _ _ e => nomatch e

theorem RoundTrip.forcedSave : RoundTrip.Statement .forcedSave :=
  fun _ _ e => nomatch e

theorem RoundTrip.trapEntry : RoundTrip.Statement .trapEntry :=
  fun _ _ e => nomatch e

theorem RoundTrip.collieCompare (bad : Option (BitVec 4)) : RoundTrip.Statement (.collieCompare bad) :=
  fun _ _ e => nomatch e

theorem RoundTrip.stretchChange (die : BitVec 2) (k : BitVec 5) : RoundTrip.Statement (.stretchChange die k) :=
  fun _ _ e => nomatch e

theorem RoundTrip.stretchForced (die : BitVec 2) : RoundTrip.Statement (.stretchForced die) :=
  fun _ _ e => nomatch e

theorem RoundTrip.chargeEntry : RoundTrip.Statement .chargeEntry :=
  fun _ _ e => nomatch e

theorem RoundTrip.accountingIntervalEnd (ref : Nat) (leak : Nat) (pidle : Nat) : RoundTrip.Statement (.accountingIntervalEnd ref leak pidle) :=
  fun _ _ e => nomatch e

theorem RoundTrip.coefficientSetEffect : RoundTrip.Statement .coefficientSetEffect :=
  fun _ _ e => nomatch e

theorem RoundTrip.breakpointHit (n : BitVec 3) : RoundTrip.Statement (.breakpointHit n) :=
  fun _ _ e => nomatch e

theorem RoundTrip.traceStop (die : BitVec 2) : RoundTrip.Statement (.traceStop die) :=
  fun _ _ e => nomatch e

theorem RoundTrip.debugResume (fn : BitVec 5) : RoundTrip.Statement (.debugResume fn) :=
  fun _ _ e => nomatch e

theorem RoundTrip.trctlWrite (fn : BitVec 5) (die : BitVec 2) (v : BitVec 64) : RoundTrip.Statement (.trctlWrite fn die v) :=
  fun _ _ e => nomatch e

theorem RoundTrip.tlbinvPartition (fn : BitVec 5) (v : BitVec 64) : RoundTrip.Statement (.tlbinvPartition fn v) :=
  fun _ _ e => nomatch e

theorem RoundTrip.tlbinvPage (fn : BitVec 5) (v : BitVec 64) : RoundTrip.Statement (.tlbinvPage fn v) :=
  fun _ _ e => nomatch e

theorem RoundTrip.tlbinvDone : RoundTrip.Statement .tlbinvDone :=
  fun _ _ e => nomatch e

theorem RoundTrip.hmaskWrite (fn : BitVec 5) (n : BitVec 4) (v : BitVec 64) : RoundTrip.Statement (.hmaskWrite fn n v) :=
  fun _ _ e => nomatch e

theorem RoundTrip.playoutWrite (fn : BitVec 5) (v : BitVec 64) : RoundTrip.Statement (.playoutWrite fn v) :=
  fun _ _ e => nomatch e

theorem RoundTrip.pctlBind (fn : BitVec 5) (q : BitVec 4) (v : BitVec 64) : RoundTrip.Statement (.pctlBind fn q v) :=
  fun _ _ e => nomatch e

theorem RoundTrip.pctlUnbind (fn : BitVec 5) (q : BitVec 4) (v : BitVec 64) : RoundTrip.Statement (.pctlUnbind fn q v) :=
  fun _ _ e => nomatch e

theorem RoundTrip.pctlReset (fn : BitVec 5) (q : BitVec 4) (v : BitVec 64) : RoundTrip.Statement (.pctlReset fn q v) :=
  fun _ _ e => nomatch e

theorem RoundTrip.functionResetComplete : RoundTrip.Statement .functionResetComplete :=
  fun _ _ e => nomatch e

theorem RoundTrip.eusedClear (fn : BitVec 5) (v : BitVec 64) : RoundTrip.Statement (.eusedClear fn v) :=
  fun _ _ e => nomatch e

theorem RoundTrip.counterClear (fn : BitVec 5) (c : Counter) (v : BitVec 64) : RoundTrip.Statement (.counterClear fn c v) :=
  fun _ _ e => nomatch e

theorem RoundTrip.registerWrite (fn : BitVec 5) (r : Reg) (v : BitVec 64) : RoundTrip.Statement (.registerWrite fn r v) :=
  fun _ _ e => nomatch e

theorem RoundTrip.controlLinkMemoryWrite (fn : BitVec 5) (pa : Nat) (data : List (BitVec 8)) : RoundTrip.Statement (.controlLinkMemoryWrite fn pa data) :=
  fun _ _ e => nomatch e

theorem RoundTrip.controlLinkMemoryRead (fn : BitVec 5) (pa : Nat) (n : Nat) : RoundTrip.Statement (.controlLinkMemoryRead fn pa n) :=
  fun _ _ e => nomatch e

theorem RoundTrip.firmwareImage (img : Image) : RoundTrip.Statement (.firmwareImage img) :=
  fun _ _ e => nomatch e

theorem RoundTrip.quoteRequest (nonce : List (BitVec 8)) : RoundTrip.Statement (.quoteRequest nonce) :=
  fun _ _ e => nomatch e

theorem RoundTrip.powerOn : RoundTrip.Statement .powerOn :=
  fun _ _ e => nomatch e

theorem RoundTrip.linkDown (port : BitVec 6) : RoundTrip.Statement (.linkDown port) :=
  fun _ _ e => nomatch e

theorem RoundTrip.managementResetRequest : RoundTrip.Statement .managementResetRequest :=
  fun _ _ e => nomatch e

theorem RoundTrip.linkUp (port : BitVec 6) : RoundTrip.Statement (.linkUp port) :=
  fun _ _ e => nomatch e

theorem RoundTrip.correctedErrorWindowEnd : RoundTrip.Statement .correctedErrorWindowEnd :=
  fun _ _ e => nomatch e

end Sys2Proof.Laws
end

