-- ==== Sys2Proof/Safety.lean ====
section
/-! DEFINITION. What the statements speak of: safe states and runs, what an instruction leaves as it was, and the values that
the spec's tables name. -/

namespace Sys2Proof.Machine

/-! ### Safe states and runs -/

/-- The memory of every partition stands in its canonical form. -/
def State.memWf (s : State) : Bool :=
  Memory.wf s.part.mem && s.others.all (fun x => Memory.wf x.part.mem)

/-- A step that goes on. -/
def goesOn (s : State) : Bool :=
  match step s with
  | .next _ => true
  | _ => false

/-- The state after n steps, none once a step stops. -/
def run : Nat → State → Option State
  | 0, s => some s
  | n + 1, s =>
    match step s with
    | .next t => run n t
    | _ => none

/-! ### Frames of CTL words -/

/-- x register d holds v afterwards, x0 reads zero, and every other x register reads what it did (R112). -/
def writesX (s t : State) (d : BitVec 6) (v : Word64) : Prop :=
  xr t d = (if d = 0 then 0 else v) ∧ ∀ r, r ≠ d → xr t r = xr s r

/-- Every x register reads what it did. -/
def keepsX (s t : State) : Prop := ∀ r, xr t r = xr s r

/-- Every byte of the partition's memory, and of the scratchpad, tiles and parameter blocks of the virtual core in focus,
reads what it did. -/
def keepsBytes (s t : State) : Prop :=
  (∀ a, physByte t a = physByte s a) ∧ ∀ a, mget byteDefault t.vc.chip a = mget byteDefault s.vc.chip a

/-- t is s after one CTL instruction of n bytes with one event of class c charged: nothing but the x registers differs
otherwise. -/
def ctlStep (s t : State) (c : EClass) (n : Word64) : Prop :=
  t = { charge s c with vc.ctl.x := t.vc.ctl.x, vc.ctl.pc := s.vc.ctl.pc + n,
                        vc.ctl.instret := (s.vc.ctl.instret + 1) % 2 ^ 48 }

/-- t is s after one CTL instruction that goes on at `pc` and charges one event of class c, apart from the x registers. -/
def ctlJump (s t : State) (c : EClass) (pc : Word64) : Prop :=
  t = { charge s c with vc.ctl.x := t.vc.ctl.x, vc.ctl.pc := pc, vc.ctl.instret := (s.vc.ctl.instret + 1) % 2 ^ 48 }

/-- As ctlStep, with the flags f entered into FLAGS, and into the vote of an open step (R132, R297). -/
def ctlStepFlags (s t : State) (c : EClass) (f : Nat) (n : Word64) : Prop :=
  t = { charge s c with vc := { s.vc.enterFlags f with
          ctl.x := t.vc.ctl.x, ctl.pc := s.vc.ctl.pc + n, ctl.instret := (s.vc.ctl.instret + 1) % 2 ^ 48 } }

/-! ### CTL accesses -/

/-- The address translates, for this kind of access, to the partition-physical address pa of a page that is versioned or
not (R248, R283). -/
def placesAt (s : State) (va : Nat) (k : AccKind) (pa : Nat) (vb : Bool) : Prop :=
  ∃ u e, translate s va k = .ok u (pa, e) ∧ e.vb = vb

/-- One translation places all n bytes from va on, within 64 KiB, for this kind of access in a page that is not versioned, at pa and
what follows it, where no line is poisoned (R245, R248, R394). -/
def spanPlaces (s : State) (va : Nat) (n : Nat) (k : AccKind) (pa : Nat) : Prop :=
  s.dev.lq ≤ 4 ∧ va % 65536 + n ≤ 65536 ∧ (∃ u e, translate s va k = .ok u (pa, e) ∧ e.vb = false ∧ 16 ≤ e.size) ∧
  ∀ i, i < n → s.part.poison.contains ((pa + i) / 128) = false

/-- n bytes from va on that CTL can load one after another (R121, R122, R275). -/
def loadable (s : State) (va : Word64) (n : Nat) : Prop :=
  va.toNat + n ≤ 2 ^ 56 ∧ inMap va.toNat = false ∧
  ∃ pa, spanPlaces s va.toNat n .read pa ∧ ∀ i, i < n → granuleBusy s (pa + i) = false

/-- n bytes from va on that CTL can store one after another (R121, R238). -/
def storable (s : State) (va : Word64) (n : Nat) : Prop :=
  va.toNat + n ≤ 2 ^ 56 ∧ inMap va.toNat = false ∧ memHazard s va.toNat n = false ∧ ∃ pa, spanPlaces s va.toNat n .write pa

/-- The byte at a partition-physical address as the CTL in focus reads it: its data cache's, else memory's (R254). -/
def cachedByte (s : State) (a : Nat) : Byte :=
  match s.vc.dcache.find? (fun l => l.line == a / 128) with
  | some l => listAt 0 l.data (a % 128)
  | none => physByte s a

/-- The double words d stand from va on, in one line that CTL can read (R121, R245, R254). -/
def recordAt (s : State) (va : Word64) (d : List Word64) : Prop :=
  let n := 8 * d.length
  va.toNat + n ≤ 2 ^ 56 ∧ inMap va.toNat = false ∧ n ≤ 64 ∧
  ∃ pa, spanPlaces s va.toNat n .read pa ∧ pa % 64 = 0 ∧ (∀ i, i < n → granuleBusy s (pa + i) = false) ∧
    ∀ k, k < d.length → listAt 0 d k = w64 (leNat ((List.range 8).map (fun i => cachedByte s (pa + 8 * k + i))))

/-- The byte at a partition-physical address once the dirty bytes of the data cache in focus are in memory. -/
def homeByte (s : State) (a : Nat) : Byte :=
  match s.vc.dcache.find? (fun l => l.line == a / 128) with
  | some l => if l.dirty.getLsbD (a % 128) then listAt 0 l.data (a % 128) else physByte s a
  | none => physByte s a

/-- The queues that an engine word enters (R86). -/
def queuesOf (w : Word32) : List Queue :=
  if w.toNat / 2 ^ 26 = 0x3B then columns
  else
    match queueOfMajor (w.toNat / 2 ^ 26) with
    | some q => [q]
    | none => []

/-- The byte at a partition-physical address as CTL fetches it: its instruction cache's, else memory's (R255). -/
def codeByte (s : State) (a : Nat) : Byte :=
  match s.vc.icache.find? (fun l => l.line == a / 128) with
  | some l => listAt 0 l.data (a % 128)
  | none => physByte s a

/-- The words ws stand at pc, in one line of a page that CTL may execute from (R40, R248, R255). -/
def codeAt (s : State) (ws : List Word32) : Prop :=
  let pc := s.vc.ctl.pc.toNat
  let n := 4 * ws.length
  pc % 4 = 0 ∧ pc + n ≤ 2 ^ 56 ∧ inMap pc = false ∧ pc % 128 + n ≤ 128 ∧
  ∃ pa, spanPlaces s pc n .fetch pa ∧ pa % 128 = pc % 128 ∧
    ∀ k, k < ws.length → listAt 0 ws k = BitVec.ofNat 32 (leNat ((List.range 4).map (fun i => codeByte s (pa + 4 * k + i))))

/-- t is s after one CTL access of an instruction of n bytes: apart from the x registers, nothing but the CTL caches,
lookaside buffers, L2, memory and the charges on their way may differ otherwise. -/
def accessStep (s t : State) (n : Word64) : Prop :=
  t = { s with vc.ctl.x := t.vc.ctl.x, vc.ctl.pc := s.vc.ctl.pc + n,
               vc.ctl.instret := (s.vc.ctl.instret + 1) % 2 ^ 48, vc.dcache := t.vc.dcache, vc.fifo := t.vc.fifo,
               vc.tlb := t.vc.tlb, part.mem := t.part.mem, part.l2 := t.part.l2, part.ctlb := t.part.ctlb,
               part.walks := t.part.walks,
               part.charges := t.part.charges }

/-- The byte of memory at a is as it was, or a dirty byte of the CTL's data cache has been written back to it (R254,
R263). -/
def wroteBack (s t : State) (a : Nat) : Prop :=
  physByte t a = physByte s a ∨
    ∃ l ∈ s.vc.dcache, l.line = a / 128 ∧ l.dirty.getLsbD (a % 128) = true ∧ physByte t a = listAt 0 l.data (a % 128)

/-- Memory differs only where a dirty byte of the CTL's data cache has been written back. -/
def onlyWritesBack (s t : State) : Prop := ∀ a, wroteBack s t a

/-- The integer that a 14-bit immediate stands for, widened by an IMM payload (R29, R35). -/
def immValue (i : BitVec 14) (ext : Option (BitVec 24)) : Int :=
  match ext with
  | none => i.toInt
  | some p => (p ++ i : BitVec 38).toInt

/-- The integer that a 20-bit immediate stands for, widened by an IMM payload (R29, R35). -/
def immHigh (i : BitVec 20) (ext : Option (BitVec 24)) : Int :=
  match ext with
  | none => i.toInt
  | some p => (p ++ i : BitVec 44).toInt

/-- The integer that a 26-bit offset stands for, widened by an IMM payload (R29, R35). -/
def immJump (i : BitVec 26) (ext : Option (BitVec 24)) : Int :=
  match ext with
  | none => i.toInt
  | some p => (p ++ i : BitVec 50).toInt

/-- The bytes of an instruction that may carry IMM (R27). -/
def lengthOf (ext : Option (BitVec 24)) : Word64 := if ext.isSome then 8 else 4

/-- A, the address of the word behind its prefix (R29). -/
def addressOf (s : State) (ext : Option (BitVec 24)) : Word64 :=
  match ext with
  | none => s.vc.ctl.pc
  | some _ => s.vc.ctl.pc + 4

/-! ### Issue of engine words -/

/-- Entry e stands at the head of queue q, nothing holds the queue, its tokens are there, the core has room for one more
operation in flight, and its beat has come: its scheduled beat in a Lockstep launch, the least beat of R98 or a later one
in an Elastic launch, where no breakpoint stops at it when it first stands there (R88, R96, R98, R370, R404). -/
def standsReady (s : State) (q : Queue) (b : EngBits) (e : QEntry) (pops pushes : List Nat) : Prop :=
  headOf s q = some e ∧ e.bad = false ∧ e.shared = false ∧ queueHeld s q = false ∧ e.ready ≤ s.vc.now ∧
  tokenFifos s q b = some (pops, pushes) ∧ tokMissing s pops = none ∧ inFlight s.vc < 128 ∧
  (s.launch.mode = .lockstep → sched (s.vc.eng.q q).next b.delay.toNat b.stamp = (s.vc.now, false)) ∧
  (s.launch.mode = .elastic →
    (if (sched (s.vc.eng.q q).next b.delay.toNat b.stamp).2 then (s.vc.eng.q q).next
     else (sched (s.vc.eng.q q).next b.delay.toNat b.stamp).1) ≤ s.vc.now ∧ (e.reached = true ∨ bpStops s (unitOf q e) e.name = false))

/-- As standsReady, for an entry that stands at the head of all four columns of CMP, for which L is their latest (R90, R101). -/
def sharedReady (s : State) (b : EngBits) (e : QEntry) (pops pushes : List Nat) : Prop :=
  let next := columns.foldl (fun a c => max a (s.vc.eng.q c).next) 0
  let due := sched next b.delay.toNat b.stamp
  headOf s .mx = some e ∧ e.bad = false ∧ e.shared = true ∧ sharedAtHead s e = true ∧ queueHeld s .mx = false ∧ e.ready ≤ s.vc.now ∧
  tokenFifos s .mx b = some (pops, pushes) ∧ tokMissing s pops = none ∧ inFlight s.vc < 128 ∧
  (s.launch.mode = .lockstep → due = (s.vc.now, false)) ∧
  (s.launch.mode = .elastic → (if due.2 then next else due.1) ≤ s.vc.now ∧ (e.reached = true ∨ bpStops s 8 e.name = false))

/-- Word e has issued from queue q at this beat: it has left its queue, whose L stands n beats on, its pops are taken, its
engine's step counter has counted it, and it is in flight as f, to push the FIFOs of `pushes`. Nothing else of the queues,
tokens and events differs (R90, R94, R105). -/
def issuedFrom (s t : State) (q : Queue) (e : QEntry) (pops pushes : List Nat) (n : Nat) (f : Flight) : Prop :=
  (t.vc.eng.q q).entries = (s.vc.eng.q q).entries.filter (fun x => x.seq != e.seq) ∧
  (∀ u, u ≠ q → (t.vc.eng.q u).entries.map (fun x => x.seq) = (s.vc.eng.q u).entries.map (fun x => x.seq)) ∧
  (t.vc.eng.q q).next = s.vc.now + n + 1 ∧
  (∀ u, u ≠ q → (t.vc.eng.q u).next = (s.vc.eng.q u).next) ∧
  (∀ k, mget 0 t.vc.eng.tokens k = mget 0 s.vc.eng.tokens k - pops.count k) ∧
  (∀ k, mget 0 t.vc.eng.popped k = mget 0 s.vc.eng.popped k + pops.count k) ∧
  (∀ k, mget 0 t.vc.eng.stepc k = if k = engCode (qEngine q) ∧ e.counted = false then (mget 0 s.vc.eng.stepc k + 1) % 2 ^ 32
                                  else mget 0 s.vc.eng.stepc k) ∧
  f.seq = e.seq ∧ f.q = q ∧ f.issued = s.vc.now ∧ f.toks = pushes

/-- The engine state of t is that of s but for the queues, the flights, the tokens, with what this beat has popped, and the step counters. -/
def engineRest (s t : State) : Prop :=
  t.vc.eng = { s.vc.eng with
    ld := t.vc.eng.ld, mx := t.vc.eng.mx, vx := t.vc.eng.vx, fx := t.vc.eng.fx, rx := t.vc.eng.rx, st := t.vc.eng.st,
    flights := t.vc.eng.flights, tokens := t.vc.eng.tokens, popped := t.vc.eng.popped, stepc := t.vc.eng.stepc }

/-- Nothing of t but the engine state and the charges on their way differs from s. -/
def engineStep (s t : State) : Prop := t = { s with vc.eng := t.vc.eng, part.charges := t.part.charges }

/-! ### Numbers -/

/-- The rational that a finite value stands for. -/
def Val.toRat : Val → ℚ
  | .fin neg m e => (if neg then -1 else 1) * (m : ℚ) * (2 : ℚ) ^ e
  | _ => 0

/-- A finite value. -/
def Val.isFin : Val → Bool
  | .fin _ _ _ => true
  | _ => false

/-- v is the value of a finite pattern of the format. -/
def Fp.hasValue (f : Fp) (v : ℝ) : Prop := ∃ c, (f.decode c).isFin = true ∧ ((f.decode c).toRat : ℝ) = v

/-- The real x, rounded in the mode as if the exponent had no lower bound, has a magnitude below the smallest normal value (R126). -/
def Fp.tiny (f : Fp) (rm : Rm) (x : ℝ) : Prop :=
  let least : ℝ := 2 ^ (f.emin + f.fb)
  let step : ℝ := 2 ^ (f.emin - 1)
  let away := (rm = .rtn ∧ x < 0) ∨ (rm = .rtp ∧ 0 < x)
  (rm = .rne ∧ |x| < least - step / 2) ∨ (away ∧ |x| ≤ least - step) ∨ (rm ≠ .rne ∧ ¬away ∧ |x| < least)

/-- Pattern r and the flags fl are what rounding the real x once in the mode gives (R125, R126, R132): a zero keeps the sign of x, or
the sign z where x is zero; nx says that the value is not x, uf that it is tiny too, and of that x, rounded as if the exponent had no
upper bound, lies beyond the largest finite value, where only a mode that rounds x away from zero gives infinity. -/
def Fp.roundsTo (f : Fp) (rm : Rm) (x : ℝ) (z : Bool) (r fl : Nat) : Prop :=
  let v : ℝ := ((f.decode r).toRat : ℝ)
  fl < 64 ∧ fl &&& 13 = 0 ∧
  ((f.decode r).isFin = true →
    (rm = .rne → ∀ c, f.hasValue c → |v - x| ≤ |c - x| ∧ (c ≠ v → |v - x| = |c - x| → r % 2 = 0)) ∧
    (rm = .rtn → v ≤ x ∧ ∀ c, f.hasValue c → c ≤ x → c ≤ v) ∧
    (rm = .rtp → x ≤ v ∧ ∀ c, f.hasValue c → x ≤ c → v ≤ c) ∧
    (rm = .rtz → 0 ≤ v * x ∧ |v| ≤ |x| ∧ ∀ c, f.hasValue c → |c| ≤ |x| → |c| ≤ |v|) ∧
    (v = 0 → (bit r (f.eb + f.fb) = true ↔ x < 0 ∨ (x = 0 ∧ z = true))) ∧
    (bit fl 5 = true ↔ v ≠ x) ∧ (bit fl 4 = true ↔ v ≠ x ∧ f.tiny rm x) ∧
    (bit fl 1 = true ↔ (2 : ℝ) ^ ((f.emax : Int) - f.bias) ≤ |x|)) ∧
  ((f.decode r).isFin = false →
    fl = 34 ∧ (∀ c, f.hasValue c → |c| < |x|) ∧
    ((f.decode r = .inf false ∧ 0 < x ∧ (rm = .rne ∨ rm = .rtp)) ∨ (f.decode r = .inf true ∧ x < 0 ∧ (rm = .rne ∨ rm = .rtn))))

/-- Pattern r and the flags fl are the sum of the patterns a and b in the mode (R125, R126). -/
def Fp.sumsTo (f : Fp) (rm : Rm) (a b r fl : Nat) : Prop :=
  let x := f.decode a
  let y := f.decode b
  let m := bit a (f.eb + f.fb)
  let n := bit b (f.eb + f.fb)
  (x.isFin = true → y.isFin = true →
    f.roundsTo rm ((x.toRat : ℝ) + (y.toRat : ℝ)) (if m = n then m else decide (rm = .rtn)) r fl) ∧
  (x.isNan = true ∨ y.isNan = true → r = f.canonNan ∧ fl = if Val.nan true ∈ [x, y] then 1 else 0) ∧
  (∀ k, x = .inf k → y = .inf (!k) → r = f.canonNan ∧ fl = 1) ∧
  ∀ k, (x = .inf k ∧ y.isNan = false ∧ y ≠ .inf (!k)) ∨ (y = .inf k ∧ x.isFin = true) → f.decode r = .inf k ∧ fl = 0

/-- Pattern r and the flags fl are the lesser of the patterns a and b, or the greater, by the rule that the scalar, vector and atomic
forms share (R127). -/
def Fp.picks (f : Fp) (greater : Bool) (a b r fl : Nat) : Prop :=
  let x := f.decode a
  let y := f.decode b
  let zero (v : Val) : Prop := v.isFin = true ∧ v.toRat = 0
  let neg (k : Nat) : Prop := bit k (f.eb + f.fb) = true
  let below (u v : Val) (k : Nat) : Prop :=
    u = .inf true ∨ v = .inf false ∨ (u.isFin = true ∧ v.isFin = true ∧ u.toRat < v.toRat) ∨ (zero u ∧ zero v ∧ neg k)
  (x = .nan true ∨ y = .nan true → r = f.canonNan ∧ fl = 1) ∧
  (x = .nan false → y = .nan false → r = f.canonNan ∧ fl = 0) ∧
  (x = .nan false → y.isNan = false → r = b ∧ fl = 0) ∧
  (x.isNan = false → y = .nan false → r = a ∧ fl = 0) ∧
  (x.isNan = false → y.isNan = false → fl = 0 ∧
    (below x y a → r = if greater then b else a) ∧ (below y x b → r = if greater then a else b) ∧ (a = b → r = a))

end Sys2Proof.Machine
end

