-- ==== Sys2Proof/Certificates/Slice0/Obligations.lean ====
section
/-! DEFINITION. The statements for the provers, from the spec's numbered rules. -/

open Sys2Proof Sys2Proof.Machine

/-! ### Integer words -/

/-- R117: what each integer word of major 0x01 computes, its completion and its frame. -/
def Obligations.IntRegisterWords : Prop :=
  ∀ (s : State) (d a b : BitVec 6),
    let A := xr s a
    let B := xr s b
    let k := B.toNat % 64
    (∀ p ∈ ([(.add d a b, w64 ((A.toNat + B.toNat) % 2 ^ 64)),
             (.sub d a b, w64 ((A.toNat + 2 ^ 64 - B.toNat) % 2 ^ 64)),
             (.and d a b, w64 (A.toNat &&& B.toNat)),
             (.or d a b, w64 (A.toNat ||| B.toNat)),
             (.xor d a b, w64 (A.toNat ^^^ B.toNat)),
             (.andn d a b, w64 (A.toNat &&& (2 ^ 64 - 1 - B.toNat))),
             (.sll d a b, w64 (A.toNat * 2 ^ k % 2 ^ 64)),
             (.srl d a b, w64 (A.toNat / 2 ^ k)),
             (.sra d a b, BitVec.ofInt 64 (A.toInt / 2 ^ k)),
             (.rol d a b, w64 ((A.toNat * 2 ^ k + A.toNat / 2 ^ (64 - k)) % 2 ^ 64)),
             (.ror d a b, w64 ((A.toNat / 2 ^ k + A.toNat * 2 ^ (64 - k)) % 2 ^ 64)),
             (.slt d a b, if A.toInt < B.toInt then 1 else 0),
             (.sltn d a b, if A.toNat < B.toNat then 1 else 0),
             (.min d a b, BitVec.ofInt 64 (min A.toInt B.toInt)),
             (.max d a b, BitVec.ofInt 64 (max A.toInt B.toInt)),
             (.minn d a b, w64 (min A.toNat B.toNat)),
             (.maxn d a b, w64 (max A.toNat B.toNat)),
             (.addw d a b, BitVec.ofInt 64 (Int.bmod (A.toInt + B.toInt) (2 ^ 32))),
             (.subw d a b, BitVec.ofInt 64 (Int.bmod (A.toInt - B.toInt) (2 ^ 32)))] : List (Instr × Word64)),
      ∃ t, exec p.1 s = .next t ∧ writesX s t d p.2 ∧ ctlStep s t .eint 4 ∧ keepsBytes s t ∧
        t.vc.ctl.flags = s.vc.ctl.flags) ∧
    (∃ t n, exec (.clz d a) s = .next t ∧ writesX s t d (w64 n) ∧ ctlStep s t .eint 4 ∧
      n ≤ 64 ∧ A.toNat < 2 ^ (64 - n) ∧ (n < 64 → 2 ^ (63 - n) ≤ A.toNat)) ∧
    (∃ t n, exec (.ctz d a) s = .next t ∧ writesX s t d (w64 n) ∧ ctlStep s t .eint 4 ∧
      n ≤ 64 ∧ A.toNat % 2 ^ n = 0 ∧ (n < 64 → A.toNat / 2 ^ n % 2 = 1)) ∧
    (∃ t, exec (.popc d a) s = .next t ∧ ctlStep s t .eint 4 ∧
      writesX s t d (w64 ((List.range 64).filter (fun i => A.getLsbD i)).length)) ∧
    (∃ t v, exec (.bswap d a) s = .next t ∧ writesX s t d v ∧ ctlStep s t .eint 4 ∧
      ∀ i, i < 8 → v.extractLsb' (8 * i) 8 = A.extractLsb' (8 * (7 - i)) 8)

/-- R118, with the immediates of R29 and R35: the immediate words of majors 0x02 to 0x09. -/
def Obligations.IntImmediateWords : Prop :=
  ∀ (s : State) (d a n : BitVec 6) (i : BitVec 14) (u : BitVec 20) (ext : Option (BitVec 24)),
    let A := xr s a
    let v := immValue i ext
    let h := immHigh u ext
    (∀ p ∈ ([(.addi d a i ext, BitVec.ofInt 64 (A.toInt + v)),
             (.andi d a i ext, A &&& BitVec.ofInt 64 v),
             (.ori d a i ext, A ||| BitVec.ofInt 64 v),
             (.xori d a i ext, A ^^^ BitVec.ofInt 64 v),
             (.slti d a i ext, if A.toInt < v then 1 else 0),
             (.lih d u ext, BitVec.ofInt 64 (h * 2 ^ 14)),
             (.addpc d u ext, BitVec.ofInt 64 ((addressOf s ext).toInt + h * 2 ^ 14))] : List (Instr × Word64)),
      ∃ t, exec p.1 s = .next t ∧ writesX s t d p.2 ∧ ctlStep s t .eint (lengthOf ext) ∧ keepsBytes s t) ∧
    ∀ p ∈ ([(.slli d a n, w64 (A.toNat * 2 ^ n.toNat % 2 ^ 64)),
            (.srli d a n, w64 (A.toNat / 2 ^ n.toNat)),
            (.srai d a n, BitVec.ofInt 64 (A.toInt / 2 ^ n.toNat))] : List (Instr × Word64)),
      ∃ t, exec p.1 s = .next t ∧ writesX s t d p.2 ∧ ctlStep s t .eint 4 ∧ keepsBytes s t

/-- R119: products, quotients, remainders, and the borderline cases with the integer-divide flag, bit 8 of FLAGS. -/
def Obligations.MultiplyDivideWords : Prop :=
  ∀ (s : State) (d a b : BitVec 6),
    let A := xr s a
    let B := xr s b
    let low := A = BitVec.intMin 64 ∧ B = BitVec.allOnes 64
    (∀ p ∈ ([(.mul d a b, w64 (A.toNat * B.toNat % 2 ^ 64)),
             (.mulh d a b, BitVec.ofInt 64 (A.toInt * B.toInt / 2 ^ 64)),
             (.mulhn d a b, w64 (A.toNat * B.toNat / 2 ^ 64))] : List (Instr × Word64)),
      ∃ t, exec p.1 s = .next t ∧ writesX s t d p.2 ∧ ctlStep s t .mul 4 ∧ keepsBytes s t) ∧
    (∃ t v, exec (.div d a b) s = .next t ∧ writesX s t d v ∧
      ctlStepFlags s t .div (if B = 0 ∨ low then 256 else 0) 4 ∧ keepsBytes s t ∧
      (B = 0 → v = BitVec.allOnes 64) ∧ (low → v = BitVec.intMin 64) ∧
      (B ≠ 0 → ¬low → v.toInt = A.toInt.tdiv B.toInt)) ∧
    (∃ t v, exec (.divn d a b) s = .next t ∧ writesX s t d v ∧ ctlStepFlags s t .div (if B = 0 then 256 else 0) 4 ∧
      keepsBytes s t ∧ (B = 0 → v = BitVec.allOnes 64) ∧ (B ≠ 0 → v.toNat = A.toNat / B.toNat)) ∧
    (∃ t v, exec (.rem d a b) s = .next t ∧ writesX s t d v ∧
      ctlStepFlags s t .div (if B = 0 ∨ low then 256 else 0) 4 ∧ keepsBytes s t ∧
      (B = 0 → v = A) ∧ (low → v = 0) ∧
      (B ≠ 0 → ¬low → v.toInt = A.toInt - B.toInt * A.toInt.tdiv B.toInt)) ∧
    (∃ t v, exec (.remn d a b) s = .next t ∧ writesX s t d v ∧ ctlStepFlags s t .div (if B = 0 then 256 else 0) 4 ∧
      keepsBytes s t ∧ (B = 0 → v = A) ∧ (B ≠ 0 → v.toNat = A.toNat % B.toNat))

/-- R123, R124: where each branch and jump goes, what it links, and that a branch writes no register; jalr reads xa before it writes xd. -/
def Obligations.ControlFlow : Prop :=
  (∀ (s : State) (a b : BitVec 6) (o : BitVec 14) (ext : Option (BitVec 24)),
      let A := xr s a
      let B := xr s b
      ∀ p ∈ ([(.beq a b o ext, decide (A = B)), (.bne a b o ext, decide (A ≠ B)),
              (.blt a b o ext, decide (A.toInt < B.toInt)), (.bge a b o ext, decide (B.toInt ≤ A.toInt)),
              (.bltn a b o ext, decide (A.toNat < B.toNat)), (.bgen a b o ext, decide (B.toNat ≤ A.toNat))]
              : List (Instr × Bool)),
        ∃ t, exec p.1 s = .next t ∧ keepsX s t ∧ keepsBytes s t ∧
          ctlJump s t .eint (if p.2 then BitVec.ofInt 64 ((addressOf s ext).toInt + 4 * immValue o ext)
                             else s.vc.ctl.pc + lengthOf ext)) ∧
  (∀ (s : State) (d a : BitVec 6) (o : BitVec 26) (i : BitVec 14) (ext : Option (BitVec 24)),
      (∃ t, exec (.j o ext) s = .next t ∧ keepsX s t ∧ keepsBytes s t ∧
        ctlJump s t .eint (BitVec.ofInt 64 ((addressOf s ext).toInt + 4 * immJump o ext))) ∧
      (∃ t, exec (.jal o ext) s = .next t ∧ writesX s t 1 (addressOf s ext + 4) ∧ keepsBytes s t ∧
        ctlJump s t .eint (BitVec.ofInt 64 ((addressOf s ext).toInt + 4 * immJump o ext))) ∧
      (let target := BitVec.ofInt 64 ((xr s a).toInt + immValue i ext)
       (target.toNat % 4 = 0 →
        ∃ t, exec (.jalr d a i ext) s = .next t ∧ writesX s t d (addressOf s ext + 4) ∧ keepsBytes s t ∧
          ctlJump s t .eint target) ∧
       (target.toNat % 4 ≠ 0 → exec (.jalr d a i ext) s = ctlFault s 0x02 0 target)))

/-! ### Scalar floating point -/


/-- R125 in part: every word of major 0x0B completes, writes xd alone and enters its flags, and a result of format f32 leaves bits
63:32 zero. -/
def Obligations.FloatWordsComplete : Prop :=
  ∀ (s : State) (d a b : BitVec 6) (f : Bool),
    (∀ p ∈ ([(.fadd d a b f, .fp), (.fsub d a b f, .fp), (.fmul d a b f, .fp), (.fdiv d a b f, .fpl),
             (.fsqrt d a f, .fpl), (.fmac d a b f, .fp), (.fmin d a b f, .fp), (.fmax d a b f, .fp),
             (.fabs d a f, .fp), (.fneg d a f, .fp), (.fcpys d a b f, .fp), (.fcvtTI64 d a f, .fp),
             (.fcvtTN64 d a f, .fp)] : List (Instr × EClass)),
      ∃ t v fl, exec p.1 s = .next t ∧ writesX s t d v ∧ ctlStepFlags s t p.2 fl 4 ∧ keepsBytes s t ∧
        (f = false → v.toNat < 2 ^ 32)) ∧
    (∀ i ∈ ([.fceq d a b f, .fclt d a b f, .fcle d a b f] : List Instr),
      ∃ t v fl, exec i s = .next t ∧ writesX s t d v ∧ ctlStepFlags s t .fp fl 4 ∧ keepsBytes s t ∧
        (v = 0 ∨ v = 1) ∧ (fl = 0 ∨ fl = 1)) ∧
    (∃ t v, exec (.fclass d a f) s = .next t ∧ writesX s t d v ∧ ctlStep s t .fp 4 ∧ keepsBytes s t ∧ v.toNat < 16) ∧
    (∀ i ∈ ([.fcvtI64T d a f, .fcvtN64T d a f, .fcvtF64F32 d a] : List Instr),
      ∃ t v fl, exec i s = .next t ∧ writesX s t d v ∧ ctlStepFlags s t .fp fl 4 ∧ keepsBytes s t) ∧
    (∃ t v fl, exec (.fcvtF32F64 d a) s = .next t ∧ writesX s t d v ∧ ctlStepFlags s t .fp fl 4 ∧ keepsBytes s t ∧
      v.toNat < 2 ^ 32)

/-- R125, R126, R129: on finite operands, in every mode of FRM and in both formats, each sum, difference, product, quotient by a value
other than zero, multiply-add, square root and conversion into a floating format writes the exact result rounded once, with the sign that IEEE 754 gives a zero,
and enters the flags of that rounding. -/
def Obligations.FloatNearest : Prop :=
  ∀ (s : State) (d a b : BitVec 6) (f : Bool), d ≠ 0 →
    let F := if f then fpF64 else fpF32
    let rm := Rm.ofCode (fld s.vc.ctl.frm 1 0)
    let opd (r : BitVec 6) : Nat := if f then (xr s r).toNat else (xr s r).toNat % 2 ^ 32
    let val (r : BitVec 6) : ℝ := ((F.decode (opd r)).toRat : ℝ)
    let fin (r : BitVec 6) : Prop := (F.decode (opd r)).isFin = true
    let sg (r : BitVec 6) : Bool := bit (opd r) (F.eb + F.fb)
    let zsum (m n : Bool) : Bool := if m = n then m else decide (rm = .rtn)
    let rounds (i : Instr) (G : Fp) (x : ℝ) (z : Bool) : Prop :=
      ∃ t fl, exec i s = .next t ∧ (xr t d).toNat < 2 ^ G.width ∧ t.vc.ctl.flags = s.vc.ctl.flags ||| w64 fl ∧
        G.roundsTo rm x z (xr t d).toNat fl
    (fin a → fin b →
      rounds (.fadd d a b f) F (val a + val b) (zsum (sg a) (sg b)) ∧
      rounds (.fsub d a b f) F (val a - val b) (zsum (sg a) (!sg b)) ∧
      rounds (.fmul d a b f) F (val a * val b) (sg a != sg b) ∧
      (val b ≠ 0 → rounds (.fdiv d a b f) F (val a / val b) (sg a != sg b)) ∧
      (fin d → rounds (.fmac d a b f) F (val a * val b + val d) (zsum (sg a != sg b) (sg d)))) ∧
    (fin a → 0 ≤ val a → rounds (.fsqrt d a f) F (Real.sqrt (val a)) (sg a)) ∧
    rounds (.fcvtTI64 d a f) F ((xr s a).toInt : ℝ) false ∧
    rounds (.fcvtTN64 d a f) F ((xr s a).toNat : ℝ) false ∧
    (f = true → fin a → rounds (.fcvtF32F64 d a) fpF32 (val a) (sg a)) ∧
    (f = false → fin a → rounds (.fcvtF64F32 d a) fpF64 (val a) (sg a))

/-- R125 to R129 where operands are not both finite, and the words that round nothing: the compare words by the values of their operands;
NaN operands, invalid operations, infinities and division by zero; the sign words, fmin and fmax, fclass; and the
conversions to integers, which round in the FRM mode and saturate. -/
def Obligations.FloatCompares : Prop :=
  ∀ (s : State) (d a b : BitVec 6) (f : Bool), d ≠ 0 →
    let F := if f then fpF64 else fpF32
    let opd (r : BitVec 6) : Nat := if f then (xr s r).toNat else (xr s r).toNat % 2 ^ 32
    let x := F.decode (opd a)
    let y := F.decode (opd b)
    let w := F.decode (opd d)
    let top : Nat := if f then 2 ^ 63 else 2 ^ 31
    let nan : Nat := if f then 0x7FF8000000000000 else 0x7FC00000
    let inf (n : Bool) : Nat := (if f then 0x7FF0000000000000 else 0x7F800000) + (if n then top else 0)
    let zero (v : Val) : Prop := v.isFin = true ∧ v.toRat = 0
    let isInf (v : Val) : Prop := v = .inf false ∨ v = .inf true
    let sg (r : BitVec 6) : Bool := bit (opd r) (F.eb + F.fb)
    let nv (l : List Val) : Nat := if Val.nan true ∈ l then 1 else 0
    let gives (i : Instr) (v fl : Nat) : Prop :=
      ∃ t, exec i s = .next t ∧ (xr t d).toNat = v ∧ t.vc.ctl.flags = s.vc.ctl.flags ||| w64 fl
    let badProd := (zero x ∧ isInf y) ∨ (isInf x ∧ zero y)
    -- compares
    (x.isNan = true ∨ y.isNan = true →
      gives (.fceq d a b f) 0 (nv [x, y]) ∧ gives (.fclt d a b f) 0 1 ∧ gives (.fcle d a b f) 0 1) ∧
    (x.isFin = true → y.isFin = true →
      ∀ p ∈ ([(.fceq d a b f, decide (x.toRat = y.toRat)), (.fclt d a b f, decide (x.toRat < y.toRat)),
              (.fcle d a b f, decide (x.toRat ≤ y.toRat))] : List (Instr × Bool)), gives p.1 (if p.2 then 1 else 0) 0) ∧
    (∀ n, x = .inf n → y.isNan = false →
      gives (.fceq d a b f) (if y = x then 1 else 0) 0 ∧ gives (.fclt d a b f) (if n = true ∧ y ≠ x then 1 else 0) 0 ∧
      gives (.fcle d a b f) (if n = true ∨ y = x then 1 else 0) 0) ∧
    (∀ n, y = .inf n → x.isNan = false →
      gives (.fceq d a b f) (if x = y then 1 else 0) 0 ∧ gives (.fclt d a b f) (if n = false ∧ x ≠ y then 1 else 0) 0 ∧
      gives (.fcle d a b f) (if n = false ∨ x = y then 1 else 0) 0) ∧
    -- NaN operands and invalid operations
    (x.isNan = true ∨ y.isNan = true →
      ∀ i ∈ ([.fadd d a b f, .fsub d a b f, .fmul d a b f, .fdiv d a b f] : List Instr), gives i nan (nv [x, y])) ∧
    (x.isNan = true ∨ y.isNan = true ∨ (w.isNan = true ∧ ¬badProd) → gives (.fmac d a b f) nan (nv [x, y, w])) ∧
    (badProd → gives (.fmul d a b f) nan 1 ∧ gives (.fmac d a b f) nan 1) ∧
    ((zero x ∧ zero y) ∨ (isInf x ∧ isInf y) → gives (.fdiv d a b f) nan 1) ∧
    (∀ n, x = .inf n → y = .inf (!n) → gives (.fadd d a b f) nan 1) ∧
    (∀ n, x = .inf n → y = .inf n → gives (.fsub d a b f) nan 1) ∧
    (isInf x ∨ isInf y → x.isNan = false → y.isNan = false → ¬badProd →
      (w = .inf (sg a == sg b) → gives (.fmac d a b f) nan 1) ∧
      (w.isNan = false → w ≠ .inf (sg a == sg b) → gives (.fmac d a b f) (inf (sg a != sg b)) 0)) ∧
    (x = .inf true ∨ (x.isFin = true ∧ x.toRat < 0) → gives (.fsqrt d a f) nan 1) ∧
    (x.isNan = true →
      (∀ i ∈ ([.fsqrt d a f, .fabs d a f, .fneg d a f, .fcpys d a b f] : List Instr), gives i nan (nv [x])) ∧
      (f = true → gives (.fcvtF32F64 d a) 0x7FC00000 (nv [x])) ∧
      (f = false → gives (.fcvtF64F32 d a) 0x7FF8000000000000 (nv [x]))) ∧
    -- infinities and division by zero
    (∀ n, x = .inf n → y.isNan = false →
      (y ≠ .inf (!n) → gives (.fadd d a b f) (inf n) 0) ∧ (y ≠ .inf n → gives (.fsub d a b f) (inf n) 0) ∧
      (¬zero y → gives (.fmul d a b f) (inf (sg a != sg b)) 0) ∧
      (y.isFin = true → gives (.fdiv d a b f) (inf (sg a != sg b)) 0)) ∧
    (∀ n, y = .inf n → x.isFin = true →
      gives (.fadd d a b f) (inf n) 0 ∧ gives (.fsub d a b f) (inf (!n)) 0 ∧
      (¬zero x → gives (.fmul d a b f) (inf (sg a != sg b)) 0) ∧
      gives (.fdiv d a b f) (if sg a != sg b then top else 0) 0) ∧
    (∀ n, w = .inf n → x.isFin = true → y.isFin = true → gives (.fmac d a b f) (inf n) 0) ∧
    (x.isFin = true → ¬zero x → zero y → gives (.fdiv d a b f) (inf (sg a != sg b)) 8) ∧
    (x = .inf false → gives (.fsqrt d a f) (inf false) 0) ∧
    (∀ n, x = .inf n →
      (f = true → gives (.fcvtF32F64 d a) (0x7F800000 + if n then 2 ^ 31 else 0) 0) ∧
      (f = false → gives (.fcvtF64F32 d a) (0x7FF0000000000000 + if n then 2 ^ 63 else 0) 0)) ∧
    -- signs, fmin and fmax, fclass
    (x.isNan = false →
      gives (.fabs d a f) (opd a % top) 0 ∧ gives (.fneg d a f) (opd a ^^^ top) 0 ∧
      gives (.fcpys d a b f) (opd a % top + opd b / top * top) 0) ∧
    (∃ v fl, gives (.fmin d a b f) v fl ∧ F.picks false (opd a) (opd b) v fl) ∧
    (∃ v fl, gives (.fmax d a b f) v fl ∧ F.picks true (opd a) (opd b) v fl) ∧
    (let normal : ℚ := 2 ^ (F.emin + F.fb)
     let kind : Nat := if x = .nan true then 5 else if x = .nan false then 4 else if x.isFin = false then 3
       else if x.toRat = 0 then 0 else if |x.toRat| < normal then 1 else 2
     gives (.fclass d a f) (2 * kind + if x.isNan = false ∧ sg a = true then 1 else 0) 0) ∧
    -- conversions to integers
    ∀ p ∈ ([(.fcvtI64T d a f, -(2 ^ 63), 2 ^ 63 - 1), (.fcvtN64T d a f, 0, 2 ^ 64 - 1)] : List (Instr × Int × Int)),
      let word (v : Int) : Nat := (BitVec.ofInt 64 v).toNat
      (x.isNan = true → gives p.1 0 1) ∧
      (x = .inf true → gives p.1 (word p.2.1) 4) ∧ (x = .inf false → gives p.1 (word p.2.2) 4) ∧
      (x.isFin = true → ∃ v : Int,
        (match Rm.ofCode (fld s.vc.ctl.frm 1 0) with
         | .rne => |(v : ℚ) - x.toRat| ≤ 1 / 2 ∧ (|(v : ℚ) - x.toRat| = 1 / 2 → v % 2 = 0)
         | .rtn => v = ⌊x.toRat⌋
         | .rtp => v = ⌈x.toRat⌉
         | .rtz => v = if x.toRat < 0 then ⌈x.toRat⌉ else ⌊x.toRat⌋) ∧
        (v < p.2.1 → gives p.1 (word p.2.1) 4) ∧ (p.2.2 < v → gives p.1 (word p.2.2) 4) ∧
        (p.2.1 ≤ v → v ≤ p.2.2 → gives p.1 (word v) (if (v : ℚ) = x.toRat then 0 else 32)))

/-! ### Loads and stores -/

/-- R120, R121, R254: a load from a page that is not versioned reads its bytes as its data cache holds them, else memory. -/
def Obligations.LoadsFromPages : Prop :=
  ∀ (s : State) (d a : BitVec 6) (i : BitVec 14) (ext : Option (BitVec 24)) (pa : Nat),
    let va := BitVec.ofInt 64 ((xr s a).toInt + immValue i ext)
    ∀ p ∈ ([(.ldI8 d a i ext, 1, true), (.ldN8 d a i ext, 1, false), (.ldI16 d a i ext, 2, true),
            (.ldN16 d a i ext, 2, false), (.ldI32 d a i ext, 4, true), (.ldN32 d a i ext, 4, false),
            (.ld64 d a i ext, 8, false)] : List (Instr × Nat × Bool)),
      let n := p.2.1
      va.toNat < 2 ^ 56 → va.toNat % n = 0 → inMap va.toNat = false → placesAt s va.toNat .read pa false → pa % n = 0 →
      granuleBusy s pa = false → s.part.poison.contains (pa / 128) = false →
      let v := leNat ((List.range n).map (fun k => cachedByte s (pa + k)))
      ∃ t, exec p.1 s = .next t ∧
        writesX s t d (if p.2.2 then BitVec.ofInt 64 (Int.bmod v (2 ^ (8 * n))) else w64 v) ∧
        accessStep s t (lengthOf ext) ∧ onlyWritesBack s t

/-- R120, R153, R166, R168, R169: a load from the on-chip map reads the register or bytes that stand there, where its bank is free at
this beat, and waits where it is taken; a store to it changes no byte yet: it is on its way, and lands from the fourth beat on, which is the
model's choice (log entry 7). -/
def Obligations.MapAccesses : Prop :=
  (∀ (s : State) (d a : BitVec 6) (i : BitVec 14) (ext : Option (BitVec 24)) (v off : Nat) (w : MapWhat) (u : VC),
      let va := BitVec.ofInt 64 ((xr s a).toInt + immValue i ext)
      ∀ p ∈ ([(.ldI8 d a i ext, 1, true), (.ldN8 d a i ext, 1, false), (.ldI16 d a i ext, 2, true),
              (.ldN16 d a i ext, 2, false), (.ldI32 d a i ext, 4, true), (.ldN32 d a i ext, 4, false),
              (.ld64 d a i ext, 8, false)] : List (Instr × Nat × Bool)),
        let n := p.2.1
        va.toNat < 2 ^ 56 → va.toNat % n = 0 → inMap va.toNat = true → mapCheck s va.toNat n none = .ok (v, off, w) →
        mapBusy s va.toNat = false → getVC s v = some u →
        let x := leNat (mapValue u off n w)
        let got (s1 : State) : Prop :=
          ∃ t, exec p.1 s = .next t ∧
            writesX s t d (if p.2.2 then BitVec.ofInt 64 (Int.bmod x (2 ^ (8 * n))) else w64 x) ∧
            ctlStep s1 t .ld (lengthOf ext) ∧ keepsBytes s t
        (¬(w = .bytes ∧ off < tileOff) → got s) ∧
        (w = .bytes → off < tileOff →
          (∀ cl, claim u.claims off true (ctlOwner + s.vc.id) = some cl →
            got (updVC s v (fun y => { y with claims := cl }))) ∧
          (claim u.claims off true (ctlOwner + s.vc.id) = none →
            ∃ t, exec p.1 s = .next t ∧ keepsX s t ∧ keepsBytes s t ∧ t.vc.ctl = s.vc.ctl))) ∧
  (∀ (s : State) (x a : BitVec 6) (i : BitVec 14) (ext : Option (BitVec 24)) (v off : Nat) (w : MapWhat),
      let va := BitVec.ofInt 64 ((xr s a).toInt + immValue i ext)
      ∀ p ∈ ([(.st8 x a i ext, 1), (.st16 x a i ext, 2), (.st32 x a i ext, 4), (.st64 x a i ext, 8)]
              : List (Instr × Nat)),
        let n := p.2
        let b := leBytes (xr s x).toNat n
        va.toNat < 2 ^ 56 → va.toNat % n = 0 → inMap va.toNat = true →
        mapCheck s va.toNat n (some b) = .ok (v, off, w) →
        ¬(v = s.vc.id ∧ w = .bytes ∧ off < s.share ∧ spHazard s.vc off (off + n) = true) →
        ∃ t, exec p.1 s = .next t ∧ keepsX s t ∧ keepsBytes s t ∧
          t = { charge s .st with
            vc.ctl.pc := s.vc.ctl.pc + lengthOf ext, vc.ctl.instret := (s.vc.ctl.instret + 1) % 2 ^ 48,
            launch.maps := s.launch.maps ++
              [{ src := s.vc.id, dst := v, off := off, data := b, due := s.vc.now + 4, seqS := none, piece := 0 }] })

/-- R120, R121, R254, R263: a store to a page that is not versioned puts the low bytes of its register, lowest first, into the
data cache, and memory changes only where a dirty byte of the cache is written back. Where every way of its set is disabled the store
leaves CTL at once, and for that it waits until the Collie has matched it (R390, R395; the wait is the model's reading, log entry 7). -/
def Obligations.StoresToPages : Prop :=
  ∀ (s : State) (x a : BitVec 6) (i : BitVec 14) (ext : Option (BitVec 24)) (pa : Nat),
    let va := BitVec.ofInt 64 ((xr s a).toInt + immValue i ext)
    ∀ p ∈ ([(.st8 x a i ext, 1), (.st16 x a i ext, 2), (.st32 x a i ext, 4), (.st64 x a i ext, 8)]
            : List (Instr × Nat)),
      let n := p.2
      va.toNat < 2 ^ 56 → va.toNat % n = 0 → inMap va.toNat = false → placesAt s va.toNat .write pa false → pa % n = 0 →
      memHazard s va.toNat n = false → s.part.poison.contains (pa / 128) = false →
      (dcBypass s (pa / 128) = true → matchedNow s = false → ∃ u, exec p.1 s = .next (awaitMatch u) ∧ keepsX s u ∧ keepsBytes s u ∧
        u.vc.ctl = s.vc.ctl) ∧
      (dcBypass s (pa / 128) = false ∨ matchedNow s = true →
        ∃ t, exec p.1 s = .next t ∧ keepsX s t ∧ accessStep s t (lengthOf ext) ∧
          (∀ b, b < pa ∨ pa + n ≤ b → wroteBack s t b) ∧
          (∀ k, k < n → cachedByte t (pa + k) = (xr s x).extractLsb' (8 * k) 8) ∧
          ∀ b, b < pa ∨ pa + n ≤ b → cachedByte t b = cachedByte s b ∨ cachedByte t b = physByte s b)

/-- R121, R168, R238: the faults of loads and stores, in the order of their checks; a translation that fails gives a page fault, or,
where no walk of the same beat is shared, an error of memory that hides an entry of the tables (R394). -/
def Obligations.AccessFaults : Prop :=
  ∀ (s : State) (d a : BitVec 6) (i : BitVec 14) (ext : Option (BitVec 24)),
    let va := BitVec.ofInt 64 ((xr s a).toInt + immValue i ext)
    ∀ p ∈ ([(.ldI8 d a i ext, 1, true), (.ldN8 d a i ext, 1, true), (.ldI16 d a i ext, 2, true),
            (.ldN16 d a i ext, 2, true), (.ldI32 d a i ext, 4, true), (.ldN32 d a i ext, 4, true),
            (.ld64 d a i ext, 8, true), (.st8 d a i ext, 1, false), (.st16 d a i ext, 2, false),
            (.st32 d a i ext, 4, false), (.st64 d a i ext, 8, false)] : List (Instr × Nat × Bool)),
      let n := p.2.1
      let b := if p.2.2 then none else some (leBytes (xr s d).toNat n)
      let k : AccKind := if p.2.2 then .read else .write
      (2 ^ 56 ≤ va.toNat → exec p.1 s = ctlFault s 0x04 0 va) ∧
      (va.toNat < 2 ^ 56 → va.toNat % n ≠ 0 → exec p.1 s = ctlFault s 0x03 0 va) ∧
      (va.toNat < 2 ^ 56 → va.toNat % n = 0 →
        (∀ f, inMap va.toNat = true → mapCheck s va.toNat n b = .error f → exec p.1 s = ctlFault s 0x06 f va) ∧
        (∀ u c f, inMap va.toNat = false → translate s va.toNat k = .fault u c f →
          exec p.1 s = ctlFault u c f (if addrCause c then va else 0) ∧ (s.part.walks = [] → c = 0x05 ∨ (c = 0x28 ∧ f = 8))) ∧
        (p.2.2 = false → ∀ u x, inMap va.toNat = false → translate s va.toNat .write = .ok u x →
          memHazard s va.toNat n = true → exec p.1 s = ctlFault u 0x1A 0 va))


/-! ### Control and status registers, tokens, events, streams -/

/-- R92, R130 to R133, R373: csr.rd takes each register's value and changes nothing but xd; the writing words take the value before into xd, reserved bits ignore writes, and a TOKMAP value that R92 rejects raises a token-map fault. -/
def Obligations.CsrWords : Prop :=
  (∀ (s : State) (d : BitVec 6),
      ∀ p ∈ ([(0x000, s.vc.ctl.flags), (0x001, s.vc.ctl.frm), (0x008, w64 s.vc.ctl.instret), (0x010, w64 s.vc.id),
              (0x030, s.vc.ctl.tvec), (0x031, s.vc.ctl.tepc), (0x032, s.vc.ctl.tcause), (0x033, s.vc.ctl.tval),
              (0x034, tstatus s), (0x035, s.vc.ctl.tscratch), (0x036, deadlineWord s), (0x040, s.vc.ctl.tokmap),
              (0x041, stretchWord s), (0x050, s.vc.ctl.lossLimit), (0x060, w64 (s.vc.acct / 256000))]
              : List (BitVec 12 × Word64)),
        ∃ t, exec (.csrRd d p.1) s = .next t ∧ writesX s t d p.2 ∧ ctlStep s t .csr 4 ∧ keepsBytes s t) ∧
  (∀ (s : State) (d a : BitVec 6),
      let A := xr s a
      ∀ p ∈ ([(0x000, s.vc.ctl.flags, 0x1FF), (0x001, s.vc.ctl.frm, 3), (0x030, s.vc.ctl.tvec, 0x00FFFFFFFFFFFFFC),
              (0x031, s.vc.ctl.tepc, 0x00FFFFFFFFFFFFFF), (0x035, s.vc.ctl.tscratch, 0xFFFFFFFFFFFFFFFF),
              (0x040, s.vc.ctl.tokmap, 0xFFFFFFFFFFFFFFFF), (0x050, s.vc.ctl.lossLimit, 0xFFFFFFFF)]
              : List (BitVec 12 × Word64 × Word64)),
        let old := p.2.1
        ∀ q ∈ ([(.csrWr d a p.1, A), (.csrOr d a p.1, old ||| A), (.csrAndn d a p.1, old &&& ~~~A)]
                : List (Instr × Word64)),
          (p.1 = 0x040 → tokmapBad s q.2 = true → exec q.1 s = ctlFault s 0x10 0 0) ∧
          ((p.1 = 0x040 → tokmapBad s q.2 = false) →
            ∃ t, exec q.1 s = .next t ∧ writesX s t d old ∧ csrGet t p.1 = q.2 &&& p.2.2 ∧ keepsBytes s t ∧
              t = { charge s .csr with
                vc.ctl.x := t.vc.ctl.x, vc.ctl.pc := s.vc.ctl.pc + 4,
                vc.ctl.instret := (s.vc.ctl.instret + 1) % 2 ^ 48,
                vc.ctl.flags := if p.1 = 0x000 then t.vc.ctl.flags else s.vc.ctl.flags,
                vc.ctl.frm := if p.1 = 0x001 then t.vc.ctl.frm else s.vc.ctl.frm,
                vc.ctl.tvec := if p.1 = 0x030 then t.vc.ctl.tvec else s.vc.ctl.tvec,
                vc.ctl.tepc := if p.1 = 0x031 then t.vc.ctl.tepc else s.vc.ctl.tepc,
                vc.ctl.tscratch := if p.1 = 0x035 then t.vc.ctl.tscratch else s.vc.ctl.tscratch,
                vc.ctl.tokmap := if p.1 = 0x040 then t.vc.ctl.tokmap else s.vc.ctl.tokmap,
                vc.ctl.lossLimit := if p.1 = 0x050 then t.vc.ctl.lossLimit else s.vc.ctl.lossLimit }))

/-- R94, R95, R106: CTL's token and event words outside a handler. A push comes after the queues' pushes of its beat, is visible from the next beat and overflows above 15; a pop of an empty FIFO waits; tok.read reads the count that the beat began with, less only pops of earlier beats; ev.pop takes the oldest record into an even xd and the register after it, with x0 it writes none; on an empty event queue it faults, and ev.wait waits. That these words charge e.sys is the model's reading (log entry 37). -/
def Obligations.TokenAndEventWords : Prop :=
  (∀ (s : State) (d : BitVec 6) (f : BitVec 2), s.vc.ctl.h = false →
      let n := mget 0 s.vc.eng.tokens f.toNat
      let coming := (s.vc.eng.pushIn.filter (fun p => p.2 == f.toNat)).length + queuePushes s f.toNat
      let after (u : State) : State :=
        { charge u .sys with vc.ctl.pc := s.vc.ctl.pc + 4, vc.ctl.instret := (s.vc.ctl.instret + 1) % 2 ^ 48 }
      (n + coming < 15 →
        exec (.tokPush f) s = .next (after { s with vc.eng.pushIn := s.vc.eng.pushIn ++ [(s.vc.now + 1, f.toNat)] })) ∧
      (15 ≤ n + coming → s.launch.mode = .lockstep → exec (.tokPush f) s = ctlFault s 0x11 0 0) ∧
      (15 ≤ n + coming → s.launch.mode = .elastic → exec (.tokPush f) s = .next s) ∧
      (n = 0 → exec (.tokPop f) s = .next s) ∧
      (n ≠ 0 → ∃ t, exec (.tokPop f) s = .next (after { s with vc.eng.tokens := t }) ∧ mget 0 t f.toNat = n - 1 ∧
        ∀ g, g ≠ f.toNat → mget 0 t g = mget 0 s.vc.eng.tokens g) ∧
      (∃ t, exec (.tokRead d f) s = .next t ∧ writesX s t d (w64 (n + mget 0 s.vc.eng.popped f.toNat)) ∧ ctlStep s t .sys 4 ∧
        keepsBytes s t) ∧
      (∃ t, exec (.frame d) s = .next t ∧ ctlStep s t .sys 4 ∧ keepsBytes s t ∧
        (s.launch.frozen = none → writesX s t d (w64 (s.vc.now % 2 ^ 48))))) ∧
  (∀ (s : State) (d : BitVec 6), s.vc.ctl.h = false →
      let n := w64 s.vc.eng.events.length
      (∃ t, exec (.evCount d) s = .next t ∧ writesX s t d n ∧ ctlStep s t .sys 4 ∧ keepsBytes s t) ∧
      (s.vc.eng.events = [] → exec (.evWait d) s = .next s ∧ exec (.evPop d) s = ctlFault s 0x13 0 0) ∧
      (s.vc.eng.events ≠ [] →
        ∃ t, exec (.evWait d) s = .next t ∧ writesX s t d n ∧ ctlStep s t .sys 4 ∧ keepsBytes s t) ∧
      ∀ a b r, s.vc.eng.events = (a, b) :: r → d.toNat % 2 = 0 →
        ∃ t, exec (.evPop d) s = .next t ∧ keepsBytes s t ∧
          ctlStep { s with vc.eng.events := r } t .sys 4 ∧
          (d = 0 → keepsX s t) ∧
          (d ≠ 0 → xr t d = a ∧ xr t (d + 1) = b ∧ ∀ q, q ≠ d → q ≠ d + 1 → xr t q = xr s q))

/-- R64, R65, R67: zset takes a value that its word of the descriptor accepts, as a new newest version; it faults on any other
and waits for a fifth version; zget reads the newest. That they charge e.sys is the model's reading (log entry 37). -/
def Obligations.StreamWords : Prop :=
  ∀ (s : State) (d a : BitVec 6) (z : BitVec 4) (j : BitVec 3), s.vc.ctl.h = false →
    (∃ t, exec (.zget d z j) s = .next t ∧ writesX s t d (mget 0 s.vc.z (8 * z.toNat + j.toNat)) ∧ ctlStep s t .sys 4 ∧
      keepsBytes s t) ∧
    ∀ p ∈ ([(.zsetBase z a, 0), (.zsetStride z a, 1), (.zsetCount z a, 2), (.zsetFmt z a, 3), (.zsetScale z a, 4),
            (.zsetRing z a, 5), (.zsetAdv z a, 6)] : List (Instr × Nat)),
      let k := p.2
      let v := xr s a
      (zsetOk k v = false → exec p.1 s = ctlFault s 0x08 0 0) ∧
      (zsetOk k v = true → s.vc.zFull z.toNat = true → exec p.1 s = .next s) ∧
      (zsetOk k v = true → s.vc.zFull z.toNat = false →
        ∃ t, exec p.1 s = .next t ∧ keepsX s t ∧ keepsBytes s t ∧
          mget 0 t.vc.z (8 * z.toNat + k) = v ∧
          (∀ i, i ≠ 8 * z.toNat + k → mget 0 t.vc.z i = mget 0 s.vc.z i) ∧
          mget 0 t.vc.zver z.toNat = mget 0 s.vc.zver z.toNat + 1 ∧
          (∀ i, i ≠ z.toNat → mget 0 t.vc.zver i = mget 0 s.vc.zver i) ∧
          ctlStep { s with vc.z := t.vc.z, vc.zver := t.vc.zver, vc.tbl.runs := t.vc.tbl.runs } t .sys 4)

/-- R135, R136, R137, R138, R278, R390: halt, fence, ifb and the moves between CTL and its y registers and mailboxes. A fence waits for
CTL's own accesses, and until the Collie has matched the stores that it writes back. -/
def Obligations.SystemWords : Prop :=
  ∀ (s : State) (d a : BitVec 6) (y : BitVec 4) (m : BitVec 3),
    let after (u : State) : State :=
      { charge u .sys with vc.ctl.pc := s.vc.ctl.pc + 4, vc.ctl.instret := (s.vc.ctl.instret + 1) % 2 ^ 48 }
    (s.vc.tx.state ≠ 1 → exec .halt s = .next (after { s with vc.run := .halted })) ∧
    (s.vc.tx.state = 1 →
      exec .halt s = .next (after { s with vc.run := .halted, vc.tx.vote := s.vc.tx.vote ||| 2048 })) ∧
    (s.vc.atomics ≠ [] ∨ (∃ w ∈ s.launch.maps, w.src = s.vc.id ∧ w.seqS = none) ∨ settled s = false → exec .fence s = .next s) ∧
    (s.vc.atomics = [] → (∀ w ∈ s.launch.maps, w.src = s.vc.id → w.seqS ≠ none) → settled s = true →
      ∃ t, exec .fence s = .next t ∧ keepsX s t ∧ accessStep s t 4 ∧ onlyWritesBack s t ∧ t.vc.fifo = []) ∧
    exec .ifb s = .next (after { s with vc.icache := [] }) ∧
    (∃ t, exec (.yrd d y) s = .next t ∧ writesX s t d (mget 0 s.vc.ctl.y y.toNat) ∧ ctlStep s t .sys 4 ∧ keepsBytes s t) ∧
    (∃ t, exec (.mbrd d m) s = .next t ∧ writesX s t d (mget 0 s.vc.ctl.m m.toNat) ∧ ctlStep s t .sys 4 ∧
      keepsBytes s t) ∧
    (∃ t, exec (.ywr y a) s = .next t ∧ keepsX s t ∧ keepsBytes s t ∧
      mget 0 t.vc.ctl.y y.toNat = xr s a ∧
      (∀ r, r ≠ y.toNat → mget 0 t.vc.ctl.y r = mget 0 s.vc.ctl.y r) ∧
      ctlStep { s with vc.ctl.y := t.vc.ctl.y, vc.ywrote := y.toNat :: s.vc.ywrote, vc.eng.flights := t.vc.eng.flights } t
        .sys 4)

/-- R134: qfence waits until every engine word placed in its queues before it started has completed, and for cpy until the
out-copies issued before it have performed their memory writes; it then goes on. -/
def Obligations.QueueFence : Prop :=
  ∀ (s : State) (m : BitVec 7), s.vc.ctl.fenceSeq = none →
    let waitsOn (f : Flight) : Prop := f.ended = false ∧
      (f.q ∈ maskQueues m ∨ (f.entry.shared = true ∧ ∃ q ∈ columns, q ∈ maskQueues m))
    ((∀ q ∈ maskQueues m, (s.vc.eng.q q).entries = []) → (∀ f ∈ s.vc.eng.flights, ¬waitsOn f) →
      (m.getLsbD 6 = true → ∀ f ∈ s.vc.eng.flights, f.writesOut = false) →
        ∃ t, exec (.qfence m) s = .next t ∧ keepsX s t ∧ ctlStep s t .sys 4 ∧ keepsBytes s t) ∧
    ((∃ q ∈ maskQueues m, ∃ e ∈ (s.vc.eng.q q).entries, e.seq < s.vc.eng.nextSeq) ∨
      (∃ f ∈ s.vc.eng.flights, waitsOn f ∧ f.seq < s.vc.eng.nextSeq) ∨
      (m.getLsbD 6 = true ∧ ∃ f ∈ s.vc.eng.flights, f.writesOut = true) →
        ∃ t, exec (.qfence m) s = .next t ∧
          t = { s with vc.ctl.fenceSeq := t.vc.ctl.fenceSeq } ∧ t.vc.ctl.fenceSeq ≠ none)

/-- R265 to R268, R390: acquire and release at every scope, which wait until the Collie has matched them. An acquire waits for the virtual core's own atomics on the sync object's granule;
it leaves no line of the data cache that meets a region bound to its sync object; a release writes every dirty line back and waits
for CTL's own accesses and the copies whose writes meet a bound region. -/
def Obligations.AcquireRelease : Prop :=
  ∀ (s : State) (a : BitVec 6) (pa : Nat),
    let va := xr s a
    let acqs : List Instr := [.acqCore a, .acqCluster a, .acqDie a, .acqDevice a, .acqLaunch a]
    let rels : List Instr := [.relCore a, .relCluster a, .relDie a, .relDevice a]
    va.toNat < 2 ^ 56 → va.toNat % 8 = 0 → inMap va.toNat = false → placesAt s va.toNat .read pa false →
    (granuleBusy s pa = false → s.part.poison.contains (pa / 128) = false → matchedNow s = true → ∀ i ∈ acqs,
      ∃ t, exec i s = .next t ∧ keepsX s t ∧ accessStep s t 4 ∧ onlyWritesBack s t ∧
        ∀ u x, translate s va.toNat .read = .ok u x → ∀ l ∈ s.vc.dcache,
          (∃ r ∈ (acqRegions (homeRead u pa 8).1 va.toNat).2, r.1 ≤ l.line ∧ l.line < r.2) → ∀ y ∈ t.vc.dcache, y.line ≠ l.line) ∧
    (granuleBusy s pa = true → ∀ i ∈ acqs, ∃ t, exec i s = .next t ∧ t.vc.ctl = s.vc.ctl ∧ keepsBytes s t) ∧
    (granuleBusy s pa = false → s.part.poison.contains (pa / 128) = false → matchedNow s = false → ∀ i ∈ acqs ++ rels,
      ∃ t, exec i s = .next t ∧ t.vc.ctl = (awaitMatch s).vc.ctl ∧ keepsBytes s t) ∧
    (ctlPending s = false → relCopies s va.toNat = false → matchedNow s = true → ∀ i ∈ rels,
      ∃ t, exec i s = .next t ∧ keepsX s t ∧ accessStep s t 4 ∧ onlyWritesBack s t ∧ t.vc.fifo = []) ∧
    (ctlPending s = true ∨ relCopies s va.toNat = true → matchedNow s = true → ∀ i ∈ rels,
      ∃ t, exec i s = .next t ∧ t.vc.ctl = s.vc.ctl ∧ onlyWritesBack s t ∧ t.vc.fifo = [])

/-! ### Traps -/

/-- R374, R378: the instruction trap n outside a handler. In an Elastic launch with nothing to wait for, with a handler address in
TVEC and a frame whose stores go through, it enters the handler: s0 is s with the fault raised, s1 what steps 1 and 2 leave, u what
the 80 stores leave. In a Lockstep launch of one device it freezes the launch, whose stop then enters the trap. -/
def Obligations.SoftwareTrap : Prop :=
  ∀ (s : State) (n : BitVec 6),
    let f : FaultRec := { src := 0, cause := 0x30, detail := n.toNat, tval := 0, beat := s.vc.now,
                          name := nameOfPc s.vc.ctl.pc, seq := none, tepc := some (s.vc.ctl.pc + 4) }
    let s0 := raiseAt (charge s .sys) s.vc.id f
    let s1 : State := { s0 with vc.faults := [], vc.ctl.tcause := w64 (0x30 + 256 * n.toNat), vc.ctl.tval := 0, vc.ctl.h := true,
                                vc.ctl.tstep := s0.vc.stepOpen,
                                vc.ctl.tepc := w64 ((s.vc.ctl.pc + 4).toNat % 2 ^ 56 / 4 * 4),
                                vc.ctl.cur := some f, vc.ctl.fenceSeq := none, vc.ctl.matched := some 0,
                                vc.ctl.was := s.vc.run, vc.run := .running, vc.ctlSeen := false }
    let frame := w64 ((xr s 2).toNat / 64 * 64) - 640
    s.vc.ctl.h = false → s.vc.faults = [] → s.vc.ctl.tvec ≠ 0 →
    (s.launch.mode = .elastic → (∀ q, (s.vc.eng.q q).entries = []) → s.vc.eng.flights = [] → s.vc.tbl.runs = [] →
      let entered (t : State) : Prop :=
        keepsX s t ∧ t.vc.ctl.flags = s.vc.ctl.flags ∧ t.vc.ctl.frm = s.vc.ctl.frm ∧
        t.vc.ctl.tcause = w64 (0x30 + 256 * n.toNat) ∧ t.vc.ctl.tval = 0 ∧ t.vc.ctl.h = true ∧
        t.vc.ctl.tepc = w64 ((s.vc.ctl.pc + 4).toNat % 2 ^ 56 / 4 * 4) ∧ t.vc.run = .running ∧
        t.vc.ctl.pc = w64 (s.vc.ctl.tvec.toNat % 2 ^ 56 / 4 * 4)
      (storable s frame 640 → ∃ t, exec (.trap n) s = .next t ∧ entered t) ∧
      ∀ u, storeWords s1 frame (frameWords s1 f) = .ok u () →
        ∃ t, exec (.trap n) s = .next t ∧ entered t ∧ t.part.mem = u.part.mem ∧ t.vc.dcache = u.vc.dcache ∧
          t.launch.maps = u.launch.maps) ∧
    (s.launch.mode = .lockstep → s.launch.multi = false →
      exec (.trap n) s = .next s0 ∧ s0.vc.faults = [f] ∧ keepsX s s0 ∧ keepsBytes s s0 ∧
        (s.launch.frozen = none → s0.launch.frozen = some s.vc.now))

/-- R376: the frame is 80 words: the cause, the value, the entry, the beat, the cuts of the six queues, word 10, TSTATUS, zeros, and
the replay entries with zeros behind them; and TSTATUS is laid out so. Word 10 counts the event records posted by this beat, those that
enter the queue at its end too, which is the model's reading (log entry 19). -/
def Obligations.TrapFrame : Prop :=
  ∀ (s : State) (f : FaultRec),
    let w := frameWords s f
    w.length = 80 ∧
    listAt 0 w 0 = s.vc.ctl.tcause.toNat ∧ listAt 0 w 1 = s.vc.ctl.tval.toNat ∧ listAt 0 w 2 = f.name ∧
    listAt 0 w 3 = f.beat % 2 ^ 48 ∧
    (∀ p ∈ ([(4, .ld), (5, .mx), (6, .vx), (7, .fx), (8, .rx), (9, .st)] : List (Nat × Queue)),
      ((s.vc.eng.q p.2).entries = [] → listAt 0 w p.1 = 0) ∧
      ∀ e r, (s.vc.eng.q p.2).entries = e :: r → listAt 0 w p.1 = (r.length + 1) * 2 ^ 56 + e.name) ∧
    (let posted := s.vc.eng.events.length + (s.vc.eng.evIn.filter (fun r => decide (r.beat ≤ s.vc.now))).length
     (∀ i, mget 0 s.vc.eng.tokens i ≤ 15) → posted < 512 →
      (∀ i, i < 4 → listAt 0 w 10 / 2 ^ (4 * i) % 16 = mget 0 s.vc.eng.tokens i) ∧
      listAt 0 w 10 / 2 ^ 16 % 512 = posted) ∧
    listAt 0 w 11 = (tstatus s).toNat ∧
    (∀ i, 12 ≤ i → i < 16 → listAt 0 w i = 0) ∧
    (∀ i, i < 64 → listAt 0 w (16 + i) = listAt 0 (replayHeads s) i) ∧
    (tstatus s).getLsbD 0 = s.vc.ctl.h ∧
    (tstatus s).getLsbD 1 = false ∧
    (tstatus s).getLsbD 2 = decide (s.launch.mode = .elastic) ∧
    (tstatus s).getLsbD 3 = s.launch.frozen.isSome ∧
    (tstatus s).getLsbD 8 = s.vc.ctl.tstep ∧
    (tstatus s).getLsbD 9 = !s.vc.faults.isEmpty ∧
    ((replayHeads s).length < 2 ^ 16 → (tstatus s).toNat / 2 ^ 16 = (replayHeads s).length)

/-- R375, R379 in part: a software trap in a handler, a word that a handler may not execute, a software trap of a context without
a handler, and one in a Lockstep launch of several devices end the launch, which writes its completion record (R336) and is discarded. The detail of the last is n, which the
model reads from "in this way" (log entry 20). That no dirty line of the discarded launch reaches memory, which so changes in the 16 bytes of the
record alone, is the model's reading (log entry 25). -/
def Obligations.TrapsThatEndLaunches : Prop :=
  ∀ (s : State),
    (∀ n, s.vc.ctl.h = true → exec (.trap n) s = endLaunch (charge s .sys) 3 0x30 n.toNat) ∧
    (∀ i ws w, i.wf = true → encode i = some ws → ws.getLast? = some w →
      0x24 ≤ w.toNat / 2 ^ 26 → w.toNat / 2 ^ 26 < 0x30 → w.toNat / 2 ^ 26 ≠ 0x2A → s.vc.ctl.h = true →
        exec i s = endLaunch s 3 0x01 0) ∧
    (∀ (u : State) n, s.vc.ctl.h = false → s.vc.faults = [] →
      (s.launch.mode = .elastic ∧ s.vc.ctl.tvec = 0 ∧ (∀ q, (s.vc.eng.q q).entries = []) ∧ s.vc.eng.flights = [] ∧
        s.vc.tbl.runs = []) ∨ (s.launch.mode = .lockstep ∧ s.launch.multi = true) →
      u = raiseAt (charge s .sys) s.vc.id ⟨0, 0x30, n.toNat, 0, s.vc.now, nameOfPc s.vc.ctl.pc, none, some (s.vc.ctl.pc + 4)⟩ →
        exec (.trap n) s = endLaunch u 3 0x30 n.toNat) ∧
    ∀ c d, c < 256 → d < 2 ^ 16 →
      let q := s.launch.queue
      let at_ := fld (qword s q 1) 55 0 + 16 * (s.launch.slot % qslots s q)
      at_ + 16 ≤ s.cp →
        ∃ t, endLaunch s 3 c d = .next t ∧
          leNat (physRead t at_ 8) = s.launch.slot % 2 ^ 32 * 2 ^ 32 + 3 * 2 ^ 24 + c * 2 ^ 16 + d ∧
          leNat (physRead t (at_ + 8) 8) = 0 ∧
          (∀ b, b < at_ ∨ at_ + 16 ≤ b → physByte t b = physByte s b) ∧
          qprogress t q = (s.launch.slot + 1) % 2 ^ 32 ∧ qtail t q = qtail s q ∧
          t.launch = .init ∧ t.vc = VC.clear { s.vc with raised := t.vc.raised } ∧ t.peers = s.peers.map VC.clear

/-- R381: tret outside a handler is an illegal instruction; in one it goes on at TEPC outside the handler, and drops the
faulting entry where skip is set and the replay queue where drop is set. -/
def Obligations.TrapReturn : Prop :=
  ∀ (s : State),
    (s.vc.ctl.h = false → exec .tret s = ctlFault s 0x01 0 0) ∧
    (s.vc.ctl.h = true → ∃ t, exec .tret s = .next t ∧ keepsX s t ∧ keepsBytes s t ∧
      t.vc.ctl = { s.vc.ctl with h := false, cur := none, pc := w64 (s.vc.ctl.tepc.toNat % 2 ^ 56 / 4 * 4),
                                 instret := (s.vc.ctl.instret + 1) % 2 ^ 48 } ∧
      t.launch = s.launch ∧ t.peers = s.peers ∧ t.dev = s.dev ∧ t.vc.run = s.vc.ctl.was ∧
      (∀ f n, s.vc.ctl.cur = some f → f.seq = some n → s.vc.ctl.tepc.getLsbD 1 = true →
        (∀ x ∈ t.vc.eng.flights, x.seq ≠ n) ∧ ∀ q, ∀ e ∈ (t.vc.eng.q q).entries, e.seq ≠ n) ∧
      (s.vc.ctl.tepc.getLsbD 0 = true → ∀ x ∈ t.vc.eng.flights, ∃ y ∈ s.vc.eng.flights, y.seq = x.seq ∧
        Flight.replay s y = false) ∧
      (s.vc.ctl.tepc.getLsbD 0 = false → s.vc.ctl.tepc.getLsbD 1 = false →
        t.vc.eng.flights.map (fun x => x.seq) = s.vc.eng.flights.map (fun x => x.seq) ∧
        (∀ f n, s.vc.ctl.cur = some f → f.seq = some n → ∀ x ∈ t.vc.eng.flights, x.seq = n → x.faulted = false) ∧
        ∀ q, (t.vc.eng.q q).entries.map (fun e => e.seq) = (s.vc.eng.q q).entries.map (fun e => e.seq)))

/-! ### Encodings -/

/-- R27 to R56: what decode reads from the word of any well-formed instruction is the instruction, with every operand. -/
def Obligations.DecodeOfEncode : Prop := ∀ i : Instr, Laws.RoundTrip.Statement i

/-- R27 to R56: a word that decodes without a prefix is the word of the instruction it decodes to, so no two instructions share a
word and no bit of one is dropped. -/
def Obligations.EncodeOfDecode : Prop :=
  ∀ (w : Word32) (i : Instr), decodeWords [w] = .ok (i, 1) → encode i = some [w] ∧ i.wf = true


/-! ### Atomics -/

/-- R272, R273, R275, R390: a returning atomic on a page that is not versioned, once the Collie has matched it; before that it waits. old
is the granule as memory holds it once the CTL's own dirty bytes are written back; the granule takes the operation's result, and xd takes
old. The floating forms, add in an Elastic launch alone, take the nearest sum or the pick of R127, and enter its flags. -/
def Obligations.ReturningAtomics : Prop :=
  ∀ (s : State) (d a b : BitVec 6) (t : AType) (pa : Nat),
    let va := xr s a
    let n := atomBytes t
    va.toNat < 2 ^ 56 → inMap va.toNat = false → va.toNat % n = 0 → placesAt s va.toNat .atomic pa false → pa % n = 0 →
    windowAt s va.toNat = none → granuleBusy s pa = false → s.part.poison.contains (pa / 128) = false →
    let old := leNat ((List.range n).map (fun k => homeByte s (pa + k)))
    let v := (xr s b).toNat % 2 ^ (8 * n)
    let cmp := (xr s d).toNat % 2 ^ (8 * n)
    let less (x y : Nat) : Prop :=
      if t = .i32 ∨ t = .i64 then (BitVec.ofNat (8 * n) x).toInt < (BitVec.ofNat (8 * n) y).toInt else x < y
    let others (u : State) : Prop := ∀ c, c < pa ∨ pa + n ≤ c → physByte u c = physByte s c ∨ physByte u c = homeByte s c
    (matchedNow s = false → t ≠ .f32 → t ≠ .f64 →
      ∀ i ∈ ([.aadd d a b t, .aand d a b t, .aor d a b t, .axor d a b t, .amin d a b t, .amax d a b t, .aswap d a b t,
              .acas d a b t] : List Instr),
        ∃ u, exec i s = .next u ∧ u.vc.ctl = (awaitMatch s).vc.ctl ∧ keepsBytes s u) ∧
    (matchedNow s = true → t ≠ .f32 → t ≠ .f64 →
     ∀ p ∈ ([(.aadd d a b t, fun new => new = (old + v) % 2 ^ (8 * n)), (.aand d a b t, fun new => new = old &&& v),
            (.aor d a b t, fun new => new = old ||| v), (.axor d a b t, fun new => new = old ^^^ v),
            (.amin d a b t, fun new => (less v old → new = v) ∧ (¬less v old → new = old)),
            (.amax d a b t, fun new => (less old v → new = v) ∧ (¬less old v → new = old)),
            (.aswap d a b t, fun new => new = v),
            (.acas d a b t, fun new => (old = cmp → new = v) ∧ (old ≠ cmp → new = old))]
            : List (Instr × (Nat → Prop))),
      ∃ u, exec p.1 s = .next u ∧
        writesX s u d (if t = .i32 then BitVec.ofInt 64 (Int.bmod old (2 ^ 32)) else w64 old) ∧
        p.2 (leNat (physRead u pa n)) ∧ accessStep s u 4 ∧ others u) ∧
    (matchedNow s = true → t = .f32 ∨ t = .f64 →
     let F := if t = .f64 then fpF64 else fpF32
     ∀ p ∈ ([(.aadd d a b t, fun new fl => F.sumsTo .rne old v new fl), (.amin d a b t, fun new fl => F.picks false old v new fl),
             (.amax d a b t, fun new fl => F.picks true old v new fl), (.aswap d a b t, fun new fl => new = v ∧ fl = 0)]
             : List (Instr × (Nat → Nat → Prop))),
      (p.1 = .aadd d a b t → s.launch.mode = .lockstep →
        ∀ u x, translate s va.toNat .atomic = .ok u x → exec p.1 s = ctlFault u 0x24 0 0) ∧
      ((p.1 = .aadd d a b t → s.launch.mode = .elastic) →
        ∃ u fl, exec p.1 s = .next u ∧ writesX s u d (w64 old) ∧ p.2 (leNat (physRead u pa n)) fl ∧
          accessStep { s with vc := s.vc.enterFlags fl } u 4 ∧ u.vc.ctl.flags = s.vc.ctl.flags ||| w64 fl ∧ others u))

/-- R275: an atomic without a return retires once its checks pass, changes no byte but by writing its line back, and is on its way
to its home port; it waits while an atomic of its own on the granule, or stores of its own to the line that the Collie has still to match,
are on their way (R390). A floating add does so in an Elastic launch alone. -/
def Obligations.AtomicsWithoutReturn : Prop :=
  ∀ (s : State) (a b : BitVec 6) (t : AType) (pa : Nat),
    let va := xr s a
    let n := atomBytes t
    let float := t = .f32 ∨ t = .f64
    va.toNat < 2 ^ 56 → inMap va.toNat = false → va.toNat % n = 0 → placesAt s va.toNat .atomic pa false →
    windowAt s va.toNat = none →
    ∀ p ∈ ([(.aredAdd a b t, 0), (.aredAnd a b t, 1), (.aredOr a b t, 2), (.aredXor a b t, 3), (.aredMin a b t, 4),
            (.aredMax a b t, 5)] : List (Instr × Nat)),
      (float → p.2 = 0 ∨ 4 ≤ p.2) →
      (float → p.2 = 0 → s.launch.mode = .lockstep →
        ∀ u x, translate s va.toNat .atomic = .ok u x → exec p.1 s = ctlFault u 0x24 0 0) ∧
      ((float → p.2 = 0 → s.launch.mode = .elastic) →
       (granuleBusy s pa = true ∨ unmatchedLine s (pa / 128) = true →
        ∃ u, exec p.1 s = .next u ∧ u.vc.ctl = s.vc.ctl ∧ keepsBytes s u) ∧
       (granuleBusy s pa = false → unmatchedLine s (pa / 128) = false → inFlight s.vc < 128 →
      ∃ u, exec p.1 s = .next u ∧ keepsX s u ∧ onlyWritesBack s u ∧
        u.vc.atomics = s.vc.atomics ++ [{ op := p.2, t := t, va := va.toNat, pa := pa, vb := false,
                                          v := (xr s b).toNat % 2 ^ (8 * n), epoch := epochTag s, window := none,
                                          name := nameOfPc s.vc.ctl.pc, seq := s.vc.eng.nextSeq, issued := s.vc.now,
                                          after := s.vc.pulse + 3, faulted := false }] ∧
        accessStep { s with vc.atomics := u.vc.atomics, vc.eng.nextSeq := s.vc.eng.nextSeq + 1 } u 4))

/-- R275, R277, R390: the oldest pending atomic of a granule performs at its home port: its bytes take the result, its flags enter at the
next beat (R273) and it leaves the list; before the Collie has matched it, and while a freeze holds it, it waits (one that a handler has
issued since the freeze is not held, the model's choice of log entry 89); one whose line is lost faults, and stays as a replay entry of
state faulted (R377). -/
def Obligations.AtomicPerforms : Prop :=
  ∀ (s : State) (p : PendAtomic) (r : List PendAtomic), s.vc.atomics = p :: r → p.vb = false → p.window = none → p.faulted = false →
    (s.vc.pulse < p.after ∨ (frozenNow s = true ∧ ∀ f, s.launch.frozen = some f → p.issued ≤ f) →
      exec (.atomicHomePortPerform 0) s = .next s) ∧
    (p.after ≤ s.vc.pulse → frozenNow s = false ∨ (∃ f, s.launch.frozen = some f ∧ f < p.issued) → poisoned s p.pa = false →
      let n := atomBytes p.t
      let old := leNat (physRead s p.pa n)
      let new := (atomNew (AOp.ofCode p.op) p.t old p.v 0).1 % 2 ^ (8 * n)
      let fl := (atomNew (AOp.ofCode p.op) p.t old p.v 0).2.1
      (p.op < 7 → ∃ t, exec (.atomicHomePortPerform 0) s = .next t ∧ t.vc.atomics = r ∧ leNat (physRead t p.pa n) = new ∧
        (∀ b, b < p.pa ∨ p.pa + n ≤ b → physByte t b = physByte s b) ∧
        t.vc.ctl = { s.vc.ctl with flagsIn := s.vc.ctl.flagsIn ++ (if fl = 0 then [] else [(s.vc.now + 1, fl)]) })) ∧
    (p.after ≤ s.vc.pulse → frozenNow s = false ∨ (∃ f, s.launch.frozen = some f ∧ f < p.issued) → poisoned s p.pa = true →
      ∃ t, exec (.atomicHomePortPerform 0) s = .next t ∧ t.vc.atomics = { p with faulted := true } :: r ∧
        t.part.mem = s.part.mem ∧ ∃ f ∈ t.vc.faults, f.cause = 0x28 ∧ f.detail = 8 ∧ f.src = 7)

/-- R142: tbl.load checks its operand word, waits for nothing, reads the table with 4-byte loads, and takes it into the store and
the directory. -/
def Obligations.TableLoad : Prop :=
  ∀ (s : State) (n a b : BitVec 6), s.vc.ctl.h = false →
    let A := xr s a
    let B := (xr s b).toNat
    let home := B / 2 ^ 30 % 4
    let len := B / 2 ^ 16 % 2 ^ 13
    let off := B % 2 ^ 12
    (B ≥ 2 ^ 32 ∨ home = 3 ∨ B / 2 ^ 29 % 2 = 1 ∨ B / 2 ^ 12 % 16 ≠ 0 → exec (.tblLoad n a b) s = ctlFault s 0x1E 3 0) ∧
    (B < 2 ^ 32 → home ≠ 3 → B / 2 ^ 29 % 2 = 0 → B / 2 ^ 12 % 16 = 0 →
      (len = 0 ∨ s.storeWords < off + len → exec (.tblLoad n a b) s = ctlFault s 0x1E 1 0) ∧
      (0 < len → off + len ≤ s.storeWords →
        ((dirOf s n.toNat).running = true ∨ overlapsRunning s off len = true →
          exec (.tblLoad n a b) s = ctlFault s 0x1F 0 0) ∧
        ((dirOf s n.toNat).running = false → overlapsRunning s off len = false →
          let loaded (t : State) : Prop :=
            keepsX s t ∧ (∀ k, k < off ∨ off + len ≤ k → mget 0 t.vc.tbl.store k = mget 0 s.vc.tbl.store k) ∧
              dirOf t n.toNat = ⟨off, len, home, false⟩ ∧ (∀ k, k ≠ n.toNat → dirOf t k = dirOf s k) ∧
              t.vc.ctl.pc = s.vc.ctl.pc + 4
          (A.toNat % 4 = 0 → loadable s A (4 * len) → ∃ t, exec (.tblLoad n a b) s = .next t ∧ loaded t ∧ onlyWritesBack s t) ∧
          ∀ u ws, loadTable s A len = .ok u ws →
            ∃ t, exec (.tblLoad n a b) s = .next t ∧ loaded t ∧ t.part.mem = u.part.mem ∧
              ∀ k, k < len → mget 0 t.vc.tbl.store (off + k) = BitVec.ofNat 32 (listAt 0 ws k))))

/-- R143 to R147: what the other table words do outside a handler. -/
def Obligations.TableWords : Prop :=
  ∀ (s : State) (n a : BitVec 6) (k : BitVec 2), s.vc.ctl.h = false →
    let d := dirOf s n.toNat
    let A := xr s a
    (2 ^ 32 ≤ A.toNat → exec (.tblParam k a) s = ctlFault s 0x1E 3 0 ∧ exec (.tblRun n a) s = ctlFault s 0x1E 3 0) ∧
    (A.toNat < 2 ^ 32 → ∃ t, exec (.tblParam k a) s = .next t ∧ mget 0 t.vc.tbl.slots k.toNat = A ∧
      (∀ j, j ≠ k.toNat → mget 0 t.vc.tbl.slots j = mget 0 s.vc.tbl.slots j) ∧ keepsX s t ∧ keepsBytes s t ∧
      ctlStep { s with vc.tbl.slots := t.vc.tbl.slots } t .sys 4) ∧
    (A.toNat < 2 ^ 12 → d.length ≠ 0 → d.running = false → A.toNat + d.length ≤ s.storeWords →
      ∃ t, exec (.tblRebase n a) s = .next t ∧ dirOf t n.toNat = { d with offset := A.toNat } ∧
        (∀ j, j ≠ n.toNat → dirOf t j = dirOf s j) ∧ keepsX s t ∧ keepsBytes s t ∧
        ctlStep { s with vc.tbl.dir := t.vc.tbl.dir } t .sys 4) ∧
    (A.toNat < 2 ^ 12 → d.length ≠ 0 → d.running = false → s.storeWords < A.toNat + d.length →
      exec (.tblRebase n a) s = ctlFault s 0x1E 1 0) ∧
    (2 ^ 12 ≤ A.toNat → exec (.tblRebase n a) s = ctlFault s 0x1E 3 0) ∧
    (A.toNat < 2 ^ 12 → d.length = 0 → exec (.tblRebase n a) s = ctlFault s 0x1E 2 0) ∧
    (A.toNat < 2 ^ 12 → d.length ≠ 0 → d.running = true → exec (.tblRebase n a) s = ctlFault s 0x1F 0 0) ∧
    (A.toNat < 2 ^ 32 → d.length = 0 → exec (.tblRun n a) s = ctlFault s 0x1E 2 0) ∧
    (A.toNat < 2 ^ 32 → d.length ≠ 0 → ∀ l r q, s.vc.tbl.runs = l ++ r :: q → r.ended = false → r.home = engOfCode d.home →
      (∀ x ∈ l, x.ended = false → x.home ≠ engOfCode d.home) →
        (r.count = 0 → exec (.tblRun n a) s = ctlFault s 0x1F 0 0) ∧ (r.count ≠ 0 → exec (.tblRun n a) s = .next s)) ∧
    (A.toNat < 2 ^ 32 → d.length ≠ 0 → (∀ r ∈ s.vc.tbl.runs, r.ended = false → r.home ≠ engOfCode d.home) →
      ∃ t r, exec (.tblRun n a) s = .next t ∧ t.vc.tbl.runs = s.vc.tbl.runs ++ [r] ∧ r.table = n.toNat ∧
        r.home = engOfCode d.home ∧ r.count = A.toNat ∧ r.iter = 0 ∧ r.word = 0 ∧ r.start = s.vc.now + 1 ∧
        r.slots = s.vc.tbl.slots ∧ r.zs = s.vc.z ∧ r.stop = false ∧ r.ended = false ∧
        dirOf t n.toNat = { d with running := true } ∧ (∀ j, j ≠ n.toNat → dirOf t j = dirOf s j) ∧
        keepsX s t ∧ keepsBytes s t ∧ t.vc.ctl.pc = s.vc.ctl.pc + 4) ∧
    (∃ t, exec (.tblStop n) s = .next t ∧ keepsX s t ∧ keepsBytes s t ∧
      ctlStep { s with vc.tbl.runs := t.vc.tbl.runs } t .sys 4 ∧
      t.vc.tbl.runs = s.vc.tbl.runs.map (fun r =>
        if r.table = n.toNat ∧ r.ended = false then { r with stop := true } else r)) ∧
    ((∀ r ∈ s.vc.tbl.runs, r.id + 1 ≠ mget 0 s.vc.tbl.latest n.toNat) →
      ∃ t, exec (.tblWait n) s = .next t ∧ keepsX s t ∧ keepsBytes s t ∧ ctlStep s t .sys 4) ∧
    ((∃ r ∈ s.vc.tbl.runs, r.id + 1 = mget 0 s.vc.tbl.latest n.toNat) → exec (.tblWait n) s = .next s)

/-- R86, R88, R67, R145: an engine word that CTL routes, and a micro-order that a table run places when its engine's queues have room,
enter their queues behind what stands there, a word of major 0x3B all four columns of CMP. -/
def Obligations.QueuePlacement : Prop :=
  (∀ (s : State) (ws : List Word32) (p : Prefixes) (w : Word32) (n : Nat) (e : Engine),
    s.vc.ctl.h = false → splitWords ws = .ok (p, w, n) → engineOfMajor (w.toNat / 2 ^ 26) = some e → prefixLegal p w = true →
    (∀ r ∈ s.vc.tbl.runs, r.ended = false → r.home ≠ e) →
    (∀ q ∈ queuesOf w, ((s.vc.eng.q q).entries.length < qCap q)) →
      let routes : Prop :=
        ∃ t x, exec .engineWordRoute s = .next t ∧ x.word = w ∧ x.stamp = p.stamp ∧ x.metaP = p.metaP ∧ x.zs = s.vc.z ∧
          x.ready = s.vc.now + 3 ∧ x.name = nameOfPc s.vc.ctl.pc ∧ x.bad = false ∧
          (∀ q, (t.vc.eng.q q).entries = (s.vc.eng.q q).entries ++ (if q ∈ queuesOf w then [x] else [])) ∧
          t.vc.ctl.pc = s.vc.ctl.pc + w64 (4 * n) ∧ keepsX s t ∧ keepsBytes s t
      (codeAt s ws → n = ws.length → n ≤ 3 → routes) ∧ (∀ u, fetchWords s s.vc.ctl.pc 3 = .ok u ws → routes)) ∧
  (∀ (s : State) (e : Engine) (r : TRun), activeRun s e = some r → entryReady s r = true →
    (∀ q, qEngine q = e → (s.vc.eng.q q).entries.length < qCap q) →
      ∃ t x q, exec (.tableEntryPlace e) s = .next t ∧ qEngine q = e ∧
        (∀ u, (t.vc.eng.q u).entries =
          (s.vc.eng.q u).entries ++ (if u = q ∨ (x.shared = true ∧ u ∈ columns) then [x] else [])) ∧
        x.run = some r.id ∧ x.ready = s.vc.now ∧ x.zs = r.zs ∧ x.name = nameOfTable r.table r.iter r.word ∧
        (x.shared = true → e = .cmp ∧ q ∈ columns) ∧ t.vc.ctl = s.vc.ctl ∧ keepsBytes s t) ∧
  ∀ (s : State) (e : Engine), activeRun s e = none → exec (.tableEntryPlace e) s = .next s

/-- R223: the copy-block words outside a handler: one word written or read, sixteen loaded or stored. -/
def Obligations.CopyBlockWords : Prop :=
  ∀ (s : State) (d a : BitVec 6) (k w : BitVec 4), s.vc.ctl.h = false →
    let A := xr s a
    let base := 16 * k.toNat
    (∃ t, exec (.ccbWr k a w) s = .next t ∧ mget 0 t.vc.b (base + w.toNat) = A.setWidth 32 ∧
      (∀ j, j ≠ base + w.toNat → mget 0 t.vc.b j = mget 0 s.vc.b j) ∧ keepsX s t ∧ keepsBytes s t ∧
      ctlStep { s with vc.b := t.vc.b } t .sys 4) ∧
    (∃ t, exec (.ccbRd d k w) s = .next t ∧ writesX s t d ((mget 0 s.vc.b (base + w.toNat)).setWidth 64) ∧
      ctlStep s t .sys 4 ∧ keepsBytes s t) ∧
    (∀ i ∈ ([.ccbLd k a, .ccbSt k a] : List Instr),
      (2 ^ 56 ≤ A.toNat → exec i s = ctlFault s 0x04 0 A) ∧
      (A.toNat < 2 ^ 56 → A.toNat % 64 ≠ 0 → exec i s = ctlFault s 0x03 0 A)) ∧
    (A.toNat % 64 = 0 → loadable s A 64 →
      ∃ t, exec (.ccbLd k a) s = .next t ∧ keepsX s t ∧ onlyWritesBack s t ∧
        (∀ j, j < base ∨ base + 16 ≤ j → mget 0 t.vc.b j = mget 0 s.vc.b j) ∧ t.vc.ctl.pc = s.vc.ctl.pc + 4) ∧
    (A.toNat % 64 = 0 → storable s A 64 →
      ∃ t, exec (.ccbSt k a) s = .next t ∧ keepsX s t ∧ t.vc.b = s.vc.b ∧ t.vc.ctl.pc = s.vc.ctl.pc + 4) ∧
    (∀ u ws, A.toNat < 2 ^ 56 → A.toNat % 64 = 0 → loadWords32 s A 16 = .ok u ws →
      ∃ t, exec (.ccbLd k a) s = .next t ∧ keepsX s t ∧ t.part.mem = u.part.mem ∧
        (∀ j, j < 16 → mget 0 t.vc.b (base + j) = BitVec.ofNat 32 (listAt 0 ws j)) ∧
        (∀ j, j < base ∨ base + 16 ≤ j → mget 0 t.vc.b j = mget 0 s.vc.b j) ∧ t.vc.ctl.pc = s.vc.ctl.pc + 4) ∧
    (∀ u, A.toNat < 2 ^ 56 → A.toNat % 64 = 0 →
      storeWords32 s A ((List.range 16).map (fun j => (mget 0 s.vc.b (base + j)).toNat)) = .ok u () →
      ∃ t, exec (.ccbSt k a) s = .next t ∧ keepsX s t ∧ t.part.mem = u.part.mem ∧ t.vc.dcache = u.vc.dcache ∧
        t.launch.maps = u.launch.maps ∧ t.vc.b = s.vc.b ∧ t.vc.ctl.pc = s.vc.ctl.pc + 4)

/-! ### Domains, safe points, transactions -/

/-- R346, R348, R349, R350: the barrier words and the DOM words outside a handler. In a Lockstep launch an sstep retires at once
where its notice is long enough, and its arrival at B stands, which the check of its instance looks at when it is a member's; in an Elastic one it stays until its instance releases. -/
def Obligations.BarrierWords : Prop :=
  ∀ (s : State) (d a : BitVec 6), s.vc.ctl.h = false →
    (∃ t, exec (.domGet d) s = .next t ∧ writesX s t d s.vc.ctl.dom ∧ ctlStep s t .sys 4 ∧ keepsBytes s t) ∧
    (∃ t, exec (.domSet a) s = .next t ∧ keepsX s t ∧ keepsBytes s t ∧
      t.vc.ctl.dom.toNat % 32 = (xr s a).toNat % 32 ∧ t.vc.ctl.dom.toNat / 2 ^ 40 = (xr s a).toNat / 2 ^ 40 ∧
      t.vc.ctl.dom.toNat / 32 % 2 ^ 35 = s.vc.ctl.dom.toNat / 32 % 2 ^ 35 ∧
      ctlStep { s with vc.ctl.dom := t.vc.ctl.dom } t .sys 4) ∧
    ∀ p ∈ ([(.sstepCluster, .cluster, 16), (.sstepDie, .die, 48), (.sstepDevice, .device, 96), (.sstepHerd, .herd, 2048),
            (.sstepJob, .job, 16384)] : List (Instr × Level × Nat)),
      let l := p.2.1
      let wait := (s.vc.ctl.dom.toNat / 2 ^ 40 + 2 ^ 24 - s.vc.now % 2 ^ 24) % 2 ^ 24
      let B := s.vc.now + if wait = 0 then 2 ^ 24 else wait
      (s.launch.mode = .lockstep → B < s.vc.now + p.2.2 → exec p.1 s = ctlFault s 0x26 1 0) ∧
      (s.launch.mode = .lockstep → s.vc.now + p.2.2 ≤ B →
        ∃ t, exec p.1 s = .next t ∧ keepsX s t ∧ keepsBytes s t ∧
          (∃ r, t.vc.arrived = s.vc.arrived ++ [r] ∧ r.level = l ∧ r.b = B ∧ r.seq = s.vc.eng.nextSeq ∧
            r.run = s.vc.tbl.nextRun ∧ r.member = true) ∧
          (s.launch.multi = false → t.part.reports = s.part.reports) ∧
          ctlStep { s with vc.arrived := t.vc.arrived, vc.ctl.lastSstep := t.vc.ctl.lastSstep, part.reports := t.part.reports } t
            .sys 4) ∧
      (s.launch.mode = .elastic →
        (∀ r, s.vc.arrived.find? (fun r => decide (r.level = l)) = some r →
          (r.done = false → exec p.1 s = .next s) ∧
          (r.done = true → ∃ t, exec p.1 s = .next t ∧ keepsX s t ∧ keepsBytes s t ∧
            t.vc.arrived = s.vc.arrived.filter (fun x => decide (x.level ≠ l)) ∧
            ctlStep { s with vc.arrived := t.vc.arrived } t .sys 4)) ∧
        (s.vc.arrived.find? (fun r => decide (r.level = l)) = none → s.vc.isMember l = true → arrivedNow s = false →
          exec p.1 s = .next s) ∧
        (s.vc.arrived.find? (fun r => decide (r.level = l)) = none → s.vc.isMember l = false ∨ arrivedNow s = true →
          ∃ r, exec p.1 s = .next { s with vc.arrived := s.vc.arrived ++ [r] } ∧ r.level = l ∧ r.done = false ∧
            r.member = s.vc.isMember l))

/-- R349, R350: the release of an instance. In an Elastic launch a domain releases once all its members wait, and one without members
as it opens; their ssteps may then retire and the phase bit of the level toggles on every virtual core of the domain. -/
def Obligations.BarrierRelease : Prop :=
  ∀ (s : State) (l : Level) (d : Nat), d < 1024 / domainSize l →
    let here (v : VC) : Prop := v.id / domainSize l = d
    s.launch.mode = .elastic →
    (∀ v ∈ s.vcs, here v → v.isMember l = true → ∃ a ∈ v.arrived, a.level = l ∧ a.done = false) →
      ∃ t, exec (.barrierRelease l) s = .next t ∧ t.part = s.part ∧ t.vcs.length = s.vcs.length ∧
        ∀ (n : Nat) (v w : VC), s.vcs[n]? = some v → t.vcs[n]? = some w → here v →
          (∀ a ∈ w.arrived, a.level = l → a.done = true) ∧
          w.ctl.dom = v.ctl.dom ^^^ w64 (2 ^ (5 + levelCode l)) ∧ w.ctl.x = v.ctl.x ∧ w.ctl.pc = v.ctl.pc

/-- R351, R352, R353: pchk reads the request flag; a safe point that is not honoured only goes on, and one that is honoured, in an Elastic
launch or in a Lockstep one, parks once its virtual core has arrived, a Lockstep launch then being due back at its B; yield goes on, and sets the request flag at its
beat when a queue other than the running one would be chosen and no request stands. -/
def Obligations.SafePoints : Prop :=
  ∀ (s u : State) (d a : BitVec 6) (m : List Word64), s.vc.ctl.h = false →
    (∃ t, exec (.pchk d) s = .next t ∧ writesX s t d (if reqSet s then 1 else 0) ∧ ctlStep s t .sys 4 ∧
      keepsBytes s t) ∧
    let checked (more : State → Prop) : Prop :=
      (2 ^ 56 ≤ (xr s a).toNat → exec (.safept a) s = ctlFault s 0x04 0 (xr s a)) ∧
      ((xr s a).toNat < 2 ^ 56 → (xr s a).toNat % 64 ≠ 0 → exec (.safept a) s = ctlFault s 0x03 0 (xr s a)) ∧
      ((xr s a).toNat < 2 ^ 56 → (xr s a).toNat % 64 = 0 → ctlLoadWords s (xr s a) 8 = .ok u m →
        (maskSound u m = false → exec (.safept a) s = ctlFault u 0x08 0 0) ∧
        (maskSound u m = true →
          (arrivedNow s = false → exec (.safept a) s = .next u) ∧
          (arrivedNow s = true → ∃ t, exec (.safept a) s = .next t ∧ t.vc.run = .parked ∧
            t.vc.ctl.pc = s.vc.ctl.pc + 4 ∧
            (∀ r : BitVec 6, xr t r = if (listAt 0 m 0).getLsbD r.toNat then xr s r else 0) ∧
            (∀ y, mget 0 t.vc.ctl.y y = if (listAt 0 m 1).toNat.testBit y then mget 0 s.vc.ctl.y y else 0) ∧ more t)))
    (s.launch.mode = .elastic → reqSet s = false →
      ∃ t, exec (.safept a) s = .next t ∧ keepsX s t ∧ keepsBytes s t ∧ ctlStep s t .sys 4) ∧
    (s.launch.mode = .elastic → reqSet s = true → checked (fun t => t.launch = u.launch)) ∧
    (s.launch.mode = .lockstep → safeB s = none →
      ∃ t, exec (.safept a) s = .next t ∧ keepsX s t ∧ keepsBytes s t ∧ ctlStep s t .sys 4) ∧
    (s.launch.mode = .lockstep → ∀ b, safeB s = some b →
      let honoured := s.launch.resume = some b ∨ ∃ q, s.launch.req = some q ∧ q < b ∧ s.launch.passed < b
      (¬honoured → ∃ t, exec (.safept a) s = .next t ∧ keepsX s t ∧ keepsBytes s t ∧
        ctlStep { s with launch.passed := max s.launch.passed b } t .sys 4) ∧
      (honoured → checked (fun t => t.launch = { u.launch with resume := some b, req := none }))) ∧
    (∃ t, exec .yield s = .next t ∧ keepsX s t ∧ keepsBytes s t ∧
      ctlStep { s with launch.req := t.launch.req, part.chosen := t.part.chosen, part.reports := t.part.reports } t .sys 4 ∧
      (choose s = none → ctlStep s t .sys 4) ∧
      ∀ q, choose s = some q →
        (runningQueue s = some q ∨ s.launch.req ≠ none → ctlStep s t .sys 4) ∧
        (s.launch.live = true → runningQueue s ≠ some q → s.launch.req = none → s.launch.multi = false →
          t.launch.req = some s.vc.now ∧ t.part.chosen = some q ∧ t.part.reports = s.part.reports))

/-- R291: the checks of txopen, and the step that it opens: its vote word, its state, its generation, and the epoch. -/
def Obligations.TxOpen : Prop :=
  ∀ (s u : State) (a : BitVec 6) (d : List Word64), s.vc.ctl.h = false →
    (s.launch.mode = .elastic → exec (.txopen a) s = ctlFault s 0x20 0 0) ∧
    (s.launch.mode = .lockstep →
      (s.vc.tx.state ≠ 0 → exec (.txopen a) s = ctlFault s 0x21 1 0) ∧
      (s.vc.tx.state = 0 → 2 ^ 56 ≤ (xr s a).toNat → exec (.txopen a) s = ctlFault s 0x04 0 (xr s a)) ∧
      (s.vc.tx.state = 0 → (xr s a).toNat < 2 ^ 56 → (xr s a).toNat % 64 ≠ 0 →
        exec (.txopen a) s = ctlFault s 0x03 0 (xr s a)) ∧
      (s.vc.tx.state = 0 → (xr s a).toNat < 2 ^ 56 → (xr s a).toNat % 64 = 0 →
        let w0 := (listAt 0 d 0).toNat
        let g := w0 % 2 ^ 16
        let opened (t : State) : Prop :=
          keepsX s t ∧ t.vc.ctl.pc = s.vc.ctl.pc + 4 ∧ t.vc.tx.state = 1 ∧ t.vc.tx.g = g ∧ t.vc.tx.dr = w0.testBit 16 ∧
          t.vc.tx.vote = w64 (0xFF800000 * 2 ^ 32 + g * 2 ^ 16) ∧
          t.part.openEp = some (s.part.nextEp, g, w0.testBit 16) ∧ t.part.nextEp = (s.part.nextEp + 1) % 65536 ∧
          (w0.testBit 17 = true → t.vc.tx.k = listAt 0 d 1 ∧ t.vc.tx.n = listAt 0 d 2 ∧
            ∀ i, i < 4 → mget 0 t.vc.tx.c i = listAt 0 d (3 + i)) ∧
          (w0.testBit 17 = false → t.vc.tx.k = s.vc.tx.k ∧ t.vc.tx.n = s.vc.tx.n ∧ t.vc.tx.c = s.vc.tx.c)
        (recordAt s (xr s a) d → d.length = 8 → w0 < 2 ^ 18 → listAt 0 d 7 = 0 → g = s.part.x → s.part.openEp = none →
          reserveFits s = true → sweeperBusy s = false →
          ∃ t, exec (.txopen a) s = .next t ∧ opened t ∧ onlyWritesBack s t) ∧
        (ctlLoadWords s (xr s a) 8 = .ok u d →
          (2 ^ 18 ≤ w0 ∨ listAt 0 d 7 ≠ 0 → exec (.txopen a) s = ctlFault u 0x21 2 0) ∧
          (w0 < 2 ^ 18 → listAt 0 d 7 = 0 → g ≠ u.part.x → exec (.txopen a) s = ctlFault u 0x21 3 0) ∧
          (w0 < 2 ^ 18 → listAt 0 d 7 = 0 → g = u.part.x → u.part.openEp = none → reserveFits u = false →
            exec (.txopen a) s = ctlFault u 0x22 0 0) ∧
          (w0 < 2 ^ 18 → listAt 0 d 7 = 0 → g = u.part.x → u.part.openEp = none → reserveFits u = true →
            sweeperBusy u = false →
            ∃ t, exec (.txopen a) s = .next t ∧ opened t ∧ t.part.mem = u.part.mem))))

/-- R292, R293, R294, R296: the other words of a step outside a handler: txvote waits for its virtual core and votes, txabort votes with flag 10 at once, txwait waits for the outcome and takes it, txrd reads, rngk and rngn write, and txloss enters a loss into the vote: the greater of two numbers, and flag 0 for a NaN or a loss above the limit. -/
def Obligations.StepWords : Prop :=
  (∀ (s : State) (d a : BitVec 6) (k : BitVec 4), s.vc.ctl.h = false →
      (s.vc.tx.state ≠ 1 → exec .txvote s = ctlFault s 0x21 1 0 ∧ exec .txabort s = ctlFault s 0x21 1 0 ∧
        exec (.txloss a) s = ctlFault s 0x21 1 0) ∧
      (s.vc.tx.state = 1 → voteReady s = false → exec .txvote s = .next s) ∧
      (s.vc.tx.state = 1 → voteReady s = true →
        ∃ t, exec .txvote s = .next t ∧ keepsX s t ∧ keepsBytes s t ∧ ctlStep { s with vc.tx.state := 2 } t .sys 4) ∧
      (s.vc.tx.state = 1 → ∃ t, exec .txabort s = .next t ∧ keepsX s t ∧ keepsBytes s t ∧
        ctlStep { s with vc.tx.state := 2, vc.tx.vote := s.vc.tx.vote ||| 1024 } t .sys 4) ∧
      (s.vc.tx.state = 1 → exec (.txwait d) s = ctlFault s 0x21 5 0) ∧
      (s.vc.tx.state = 2 → exec (.txwait d) s = .next s) ∧
      (s.vc.tx.state = 0 ∨ s.vc.tx.state = 3 → ∃ t, exec (.txwait d) s = .next t ∧ writesX s t d s.vc.tx.out ∧
        keepsBytes s t ∧ ctlStep { s with vc.tx.state := 0 } t .sys 4) ∧
      (k.toNat < 10 → ∃ t, exec (.txrd d k) s = .next t ∧ writesX s t d (txReg s k.toNat) ∧ ctlStep s t .sys 4 ∧
        keepsBytes s t) ∧
      (10 ≤ k.toNat → k.toNat < 14 →
        let i := k.toNat - 10
        ∃ t, exec (.txrd d k) s = .next t ∧ writesX s t d (mget 0 s.vc.tx.c i) ∧ keepsBytes s t ∧
          mget 0 t.vc.tx.c i = mget 0 s.vc.tx.c i + 1 ∧ (∀ j, j ≠ i → mget 0 t.vc.tx.c j = mget 0 s.vc.tx.c j) ∧
          ctlStep { s with vc.tx.c := t.vc.tx.c } t .sys 4) ∧
      (∃ t, exec (.rngk a) s = .next t ∧ keepsX s t ∧ keepsBytes s t ∧ ctlStep { s with vc.tx.k := xr s a } t .sys 4) ∧
      (∃ t, exec (.rngn a) s = .next t ∧ keepsX s t ∧ keepsBytes s t ∧
        ctlStep { s with vc.tx.n := xr s a, vc.tx.adv := 0 } t .sys 4)) ∧
  (∀ (s : State) (a : BitVec 6), s.vc.ctl.h = false → s.vc.tx.state = 1 →
      let x := (xr s a).toNat % 2 ^ 32
      let was := s.vc.tx.vote.toNat / 2 ^ 32
      let X := fpF32.decode x
      let L := fpF32.decode (s.vc.ctl.lossLimit.toNat % 2 ^ 32)
      let W := fpF32.decode was
      ∃ t, exec (.txloss a) s = .next t ∧ keepsX s t ∧ keepsBytes s t ∧ ctlStep { s with vc.tx.vote := t.vc.tx.vote } t .sys 4 ∧
        t.vc.tx.vote.toNat / 2 % 2 ^ 31 = s.vc.tx.vote.toNat / 2 % 2 ^ 31 ∧
        (X.isNan = true → t.vc.tx.vote.getLsbD 0 = true) ∧
        (X.isFin = true → L.isFin = true → L.toRat < X.toRat → t.vc.tx.vote.getLsbD 0 = true) ∧
        (X.isFin = true → L.isFin = true → X.toRat ≤ L.toRat → t.vc.tx.vote.getLsbD 0 = s.vc.tx.vote.getLsbD 0) ∧
        (X.isFin = true → W.isFin = true → W.toRat < X.toRat → t.vc.tx.vote.toNat / 2 ^ 32 = x) ∧
        (X.isFin = true → W.isFin = true → X.toRat < W.toRat → t.vc.tx.vote.toNat / 2 ^ 32 = was))

/-- R299: an outcome of the open step. A commit raises the generation that the partition expects; every virtual core in the step
takes the outcome word, and an abort takes back what the step drew. A packet without bit 15 is no outcome (R330), and one of another
generation changes nothing, which is the model's reading (log entry 70). -/
def Obligations.StepOutcome : Prop :=
  ∀ (s : State) (w : BitVec 64) (ep g : Nat) (dr : Bool), s.part.openEp = some (ep, g, dr) →
    (w.toNat / 2 ^ 15 % 2 = 0 ∨ w.toNat / 2 ^ 16 % 2 ^ 16 ≠ g → exec (.outcomeArrival w) s = .next s) ∧
    (w.toNat / 2 ^ 15 % 2 = 1 → w.toNat / 2 ^ 16 % 2 ^ 16 = g →
      ∃ t, exec (.outcomeArrival w) s = .next t ∧ t.part.openEp = none ∧ t.part.mem = s.part.mem ∧
        (∀ (n : Nat) (u v : VC), s.vcs[n]? = some u → t.vcs[n]? = some v → u.tx.state = 1 ∨ u.tx.state = 2 →
          v.tx.state = 3 ∧ v.tx.out = w ∧ v.ctl = u.ctl ∧
          (w.toNat % 2 ^ 13 ≠ 0 → ∀ k m c, u.tx.restore = some (k, m, c) → v.tx.k = k ∧ v.tx.n = m ∧ v.tx.c = c)) ∧
        (w.toNat % 2 ^ 13 = 0 → t.part.x = (g + 1) % 2 ^ 16 ∧ t.part.commits = s.part.commits + 1 ∧
          outcomeOf t ep = some true) ∧
        (w.toNat % 2 ^ 13 ≠ 0 → t.part.x = s.part.x ∧ t.part.commits = s.part.commits ∧ outcomeOf t ep = some false))

/-! ### Collectives and windows -/

/-- R324, R325: the checks of a collective in their order, and its issue: it takes the group's sequence number, waits for its read
beat, and CTL goes on. -/
def Obligations.CollectiveIssue : Prop :=
  ∀ (s u v : State) (a b : BitVec 6) (d : List Word64) (hints : List Nat), s.vc.ctl.h = false →
    let g := (xr s a).toNat
    ∀ p ∈ ([(.collRed a b, 0), (.collBcast a b, 1), (.collGath a b, 2), (.collNorm a b, 3), (.collExp a b, 4)]
            : List (Instr × Nat)),
      (2 ^ 56 ≤ (xr s b).toNat → exec p.1 s = ctlFault s 0x04 0 (xr s b)) ∧
      ((xr s b).toNat < 2 ^ 56 → (xr s b).toNat % 64 ≠ 0 → exec p.1 s = ctlFault s 0x03 0 (xr s b)) ∧
      ((xr s b).toNat < 2 ^ 56 → (xr s b).toNat % 64 = 0 →
        let stamp := (listAt 0 d 5).toNat % 2 ^ 24
        let ahead := (stamp + 2 ^ 24 - s.vc.now % 2 ^ 24) % 2 ^ 24
        let free := (s.vc.colls.filter (fun c => c.group == g && !c.failed)).length < 4 ∧ inFlight s.vc < 128
        let issued (t : State) (c : Coll) : Prop :=
          keepsX s t ∧ t.vc.ctl.pc = s.vc.ctl.pc + 4 ∧ t.vc.colls = s.vc.colls ++ [c] ∧ c.op = p.2 ∧ c.group = g ∧
          c.seq = groupCseq s g ∧ c.desc = d ∧
          c.start = s.vc.now + (if ahead ≠ 0 ∧ ahead < 2 ^ 23 then ahead else 0) ∧
          groupCseq t g = (groupCseq s g + 1) % 2 ^ 32
        (recordAt s (xr s b) d → d.length = 8 → g < 256 / s.m → groupValid s g = true →
          (groupMember s g (groupSelf s g)).1 = s.vc.id → descSound d = true → descFormats p.2 d = true → descHaddr d = 0 →
          descInShare s p.2 g d = true → free → s.launch.mode = .elastic ∨ (ahead ≠ 0 ∧ ahead < 2 ^ 23) →
          ∃ t c, exec p.1 s = .next t ∧ issued t c ∧ onlyWritesBack s t) ∧
        (ctlLoadWords s (xr s b) 8 = .ok u d →
          (256 / s.m ≤ g ∨ groupValid s g = false → exec p.1 s = ctlFault u 0x25 1 0) ∧
          (g < 256 / s.m → groupValid s g = true →
            let x := touchMember u g (groupSelf s g)
            ((groupMember s g (groupSelf s g)).1 ≠ s.vc.id → exec p.1 s = ctlFault x 0x25 2 0) ∧
            ((groupMember s g (groupSelf s g)).1 = s.vc.id → descCheck x p.2 g d = .ok v hints → free →
              (s.launch.mode = .lockstep → ahead = 0 ∨ 2 ^ 23 ≤ ahead → exec p.1 s = ctlFault v 0x25 4 0) ∧
              (s.launch.mode = .elastic ∨ (ahead ≠ 0 ∧ ahead < 2 ^ 23) →
                ∃ t c, exec p.1 s = .next t ∧ issued t c ∧ t.part.mem = v.part.mem)))))

/-- R266, R325, R327, R328, R329: coll.wait waits for the group's collectives of its virtual core and reads the latest; mbclr clears a mailbox; win.reg adds a window whose record is sound, which overlaps none and finds fewer than 64; win.drop flushes its window, whose accumulators are then zero, and marks it dropped; rel.launch, once the Collie has matched it, goes on where the virtual core has no window, else flushes its windows and waits until none has a flush that its home has not applied. -/
def Obligations.CollectiveAndWindowWords : Prop :=
  (∀ (s : State) (d a : BitVec 6) (k : BitVec 3), s.vc.ctl.h = false →
      let g := (xr s a).toNat
      (256 / s.m ≤ g → exec (.collWait d a) s = ctlFault s 0x25 1 0) ∧
      (g < 256 / s.m → (∃ c ∈ s.vc.colls, c.group = g ∧ c.failed = false) → exec (.collWait d a) s = .next s) ∧
      (g < 256 / s.m → (∀ c ∈ s.vc.colls, c.group = g → c.failed = true) →
        ∃ t, exec (.collWait d a) s = .next t ∧ writesX s t d (w64 (mget 0 s.vc.latestColl g)) ∧ ctlStep s t .coll 4 ∧
          keepsBytes s t) ∧
      (∃ t, exec (.mbclr k) s = .next t ∧ keepsX s t ∧ keepsBytes s t ∧ mget 0 t.vc.ctl.m k.toNat = 0 ∧
        (∀ j, j ≠ k.toNat → mget 0 t.vc.ctl.m j = mget 0 s.vc.ctl.m j) ∧ t.vc.ctl.pc = s.vc.ctl.pc + 4)) ∧
  (∀ (s u : State) (a b : BitVec 6) (d : List Word64), s.vc.ctl.h = false →
      (let g := (xr s a).toNat
       let base := (listAt 0 d 0).toNat % 2 ^ 56
       let size := (listAt 0 d 1).toNat % 2 ^ 13
       let fits (ws : List Window) : Prop :=
         ws.length < 64 ∧ ∀ x ∈ ws, x.base + x.size ≤ base ∨ base + size ≤ x.base
       let added (t : State) (ws : List Window) : Prop :=
         keepsX s t ∧ t.vc.ctl.pc = s.vc.ctl.pc + 4 ∧
         ∃ w, t.part.windows = ws ++ [w] ∧ w.group = g ∧ w.vc = s.vc.id ∧ w.owner = launchTag s ∧ w.w = d ∧ w.acc = [] ∧
           w.held = [] ∧ w.sent = 0 ∧ w.dropped = false
       (xr s b).toNat < 2 ^ 56 → (xr s b).toNat % 64 = 0 →
       g < 256 / s.m → groupValid s g = true → (groupMember s g (groupSelf s g)).1 = s.vc.id →
         (recordAt s (xr s b) d → d.length = 4 → winRecOk d (groupSize s g) = true → fits (liveWindows s) →
           fld (listAt 0 d 3) 17 0 ≠ groupSelf s g ∨ fld (listAt 0 d 3) 19 18 = 0 →
           ∃ t, exec (.winReg a b) s = .next t ∧ added t s.part.windows ∧ onlyWritesBack s t) ∧
         (ctlLoadWords s (xr s b) 4 = .ok u d →
           let y := touchMember u g (groupSelf s g)
           (winRecOk d (groupSize u g) = false → exec (.winReg a b) s = ctlFault y 0x25 3 0) ∧
           (winRecOk d (groupSize u g) = true →
             (∀ x, shadowPlain y g d = (x, false) → exec (.winReg a b) s = ctlFault x 0x25 3 0) ∧
             (∀ x, shadowPlain y g d = (x, true) → ¬fits (liveWindows x) → exec (.winReg a b) s = ctlFault x 0x25 6 0) ∧
             ∀ x, shadowPlain y g d = (x, true) → fits (liveWindows x) →
               ∃ t, exec (.winReg a b) s = .next t ∧ added t x.part.windows ∧ t.part.mem = x.part.mem))) ∧
      ((∀ w ∈ s.part.windows, w.dropped = true ∨ w.base ≠ (xr s a).toNat) → exec (.winDrop a) s = ctlFault s 0x25 7 0) ∧
      (∀ w ∈ s.part.windows, w.dropped = false → w.base = (xr s a).toNat →
        (∀ y ∈ s.part.windows, y.dropped = false → y.base = (xr s a).toNat → y = w) →
        (groupValid s w.group = false → exec (.winDrop a) s = ctlFault s 0x25 1 0) ∧
        (groupValid s w.group = true → (groupMember s w.group (groupSelf s w.group)).1 ≠ s.vc.id →
          exec (.winDrop a) s = ctlFault (touchMember s w.group (groupSelf s w.group)) 0x25 2 0) ∧
        (groupValid s w.group = true → (groupMember s w.group (groupSelf s w.group)).1 = s.vc.id →
          ∃ t, exec (.winDrop a) s = .next t ∧ keepsX s t ∧ t.part.mem = s.part.mem ∧ t.vc.ctl.pc = s.vc.ctl.pc + 4 ∧
            t.part.windows = s.part.windows.map (fun y => if y = w then
              { w with acc := [], ov := false, flush := w.flush + 1, sent := w.sent + 1,
                       held := w.held ++ [(w.flush, w.ov, w.acc)], dropped := true } else y))) ∧
      ∀ pa, (xr s a).toNat < 2 ^ 56 → (xr s a).toNat % 8 = 0 → inMap (xr s a).toNat = false →
        placesAt s (xr s a).toNat .read pa false →
        (s.vc.ctl.fenceSeq = none →
          (matchedNow s = false → ∃ t, exec (.relLaunch a) s = .next t ∧ t.vc.ctl = (awaitMatch s).vc.ctl ∧ keepsBytes s t) ∧
          (matchedNow s = true → ctlPending s = true ∨ relCopies s (xr s a).toNat = true →
            ∃ t, exec (.relLaunch a) s = .next t ∧ t.vc.ctl = s.vc.ctl ∧ onlyWritesBack s t ∧ t.vc.fifo = []) ∧
          (matchedNow s = true → ctlPending s = false → relCopies s (xr s a).toNat = false →
            ((∀ w ∈ s.part.windows, w.mine s = false) →
              ∃ t, exec (.relLaunch a) s = .next t ∧ keepsX s t ∧ accessStep s t 4 ∧ onlyWritesBack s t ∧ t.vc.fifo = []) ∧
            ((∃ w ∈ s.part.windows, w.mine s = true ∧ w.dropped = false) →
              ∃ t, exec (.relLaunch a) s = .next t ∧ onlyWritesBack s t ∧ t.vc.fifo = [] ∧
                t.vc.ctl = { s.vc.ctl with fenceSeq := t.vc.ctl.fenceSeq } ∧ t.vc.ctl.fenceSeq ≠ none ∧
                ∀ w ∈ t.part.windows, w.mine s = true → w.dropped = false → w.acc = []))) ∧
        (s.vc.ctl.fenceSeq ≠ none →
          (windowsOut s = true → ∃ t, exec (.relLaunch a) s = .next t ∧ t.vc.ctl = s.vc.ctl ∧ keepsBytes s t) ∧
          (windowsOut s = false → ∃ t, exec (.relLaunch a) s = .next t ∧ keepsX s t ∧ keepsBytes s t ∧
            t.vc.ctl = { s.vc.ctl with fenceSeq := none, pc := s.vc.ctl.pc + 4,
                                       instret := (s.vc.ctl.instret + 1) % 2 ^ 48 })))


/-! ### The vector, reduction and function columns -/

/-- R170, R174, R178 to R188: every word of VX whose checks pass issues at its beat: it takes its scalar operand, reads group g
of its operands at I + g, and completes at I + 3 + G, or I + 3 + 2G for the gathers and scatters. -/
def Obligations.VectorIssue : Prop :=
  ∀ (s : State) (e : EngBits) (d a b : BitVec 4) (q : QEntry) (pops pushes : List Nat),
    standsReady s .vx e q pops pushes →
    ∀ p ∈ ([(.vadd e d a b, .add, a, b, 0), (.vsub e d a b, .sub, a, b, 0), (.vmul e d a b, .mul, a, b, 0),
            (.vfma e d a b, .fma, a, b, 0), (.vmin e d a b, .min, a, b, 0), (.vmax e d a b, .max, a, b, 0),
            (.vceq e d a b, .ceq, a, b, 0), (.vcne e d a b, .cne, a, b, 0), (.vclt e d a b, .clt, a, b, 0),
            (.vcle e d a b, .cle, a, b, 0), (.vsel e d a b, .sel, a, b, 0), (.vand e d a b, .and, a, b, 0),
            (.vor e d a b, .or, a, b, 0), (.vxor e d a b, .xor, a, b, 0), (.vaddsat e d a b, .addsat, a, b, 0),
            (.vsubsat e d a b, .subsat, a, b, 0), (.vmulhi e d a b, .mulhi, a, b, 0),
            (.vgath e d a b, .gath, a, b, 0), (.vscat e d a b, .scat, a, b, 0), (.vabs e d a, .abs, a, 0, 0),
            (.vneg e d a, .neg, a, 0, 0), (.vnot e d a, .not, a, 0, 0), (.vclass e d a, .cls, a, 0, 0),
            (.vcvt e d a, .cvt, a, 0, 0), (.vmov e d a, .mov, a, 0, 0), (.vsplit3 e d a, .split3, a, 0, 0),
            (.vaddY e d a b, .addY, a, 0, yr s b.toNat), (.vmulY e d a b, .mulY, a, 0, yr s b.toNat),
            (.vfmaY e d a b, .fmaY, a, 0, yr s b.toNat), (.vmaxY e d a b, .maxY, a, 0, yr s b.toNat),
            (.vminY e d a b, .minY, a, 0, yr s b.toNat), (.vshl e d a b, .shl, a, 0, yr s b.toNat),
            (.vshr e d a b, .shr, a, 0, yr s b.toNat), (.vsra e d a b, .sra, a, 0, yr s b.toNat),
            (.vdrop e d a b, .drop, a, 0, yr s b.toNat), (.vmulM e d a b, .mulM, a, 0, mr s b.toNat),
            (.vfillY e d b, .fillY, 0, 0, yr s b.toNat), (.vrng e d, .rng, 0, 0, 0),
            (.viota e d, .iota, 0, 0, 0)]
            : List (Instr × VOp × BitVec 4 × BitVec 4 × Word64)),
      let op := p.2.1
      let l := vecBound s op (vecStrs op q d p.2.2.1 p.2.2.2.1)
      let L := lanes (vecDsts op l ++ vecSrcs op l)
      let G := ceilDiv (vecCount op l) L
      vecHead s op d p.2.2.1 p.2.2.2.1 q = .ok → vecCheck s op d p.2.2.1 p.2.2.2.1 q = .ok →
        ∃ t f, exec p.1 s = .next t ∧ t.vc.eng.flights = s.vc.eng.flights ++ [f] ∧ issuedFrom s t .vx q pops pushes 0 f ∧
          f.work = .vec op p.2.2.2.2 s.vc.tx.k s.vc.tx.n ∧ f.strs = l ∧
          f.done = some (s.vc.now + 3 + (if op = .gath ∨ op = .scat then 2 * G else G)) ∧
          f.pops = ringsOf (vecSrcs op l) ∧ f.pushes = ringsOf (vecDsts op l) ∧
          f.accs.map (fun x => (x.tag, x.beat)) = (List.range G).map (fun g => (g, s.vc.now + g)) ∧
          (∀ x ∈ f.accs, x.wr = []) ∧
          engineStep { s with vc.tx.adv := drawCount op (listAt default l 0) } t ∧
          engineRest { s with vc.eng.vxCount := s.vc.eng.vxCount + 1 } t

/-- R76, R173, R178: what the arithmetic words compute on floating elements that are finite: the exact result, which the element's
conversion then rounds once, but for the product of two elements of the log formats, which is that of R76; and on integer elements the exact result, which wraps, or saturates in the minimum and the
maximum. -/
def Obligations.VectorElements : Prop :=
  ∀ (z a b : Str) (y key ctr : Word64) (rd : Nat → Byte) (i : Nat),
    (z.fmt.cls = .floating →
      let x := a.val rd i
      let w := b.val rd i
      let u := z.val rd i
      x.isFin = true → w.isFin = true → u.isFin = true →
      let gives (op : VOp) (r : ℚ) : Prop :=
        ∃ v : Val, v.isFin = true ∧ v.toRat = r ∧ vecElem op z a b y key ctr rd i = some (z.encode .rne (z.scaleByte rd i) v)
      (∀ p ∈ ([(.add, x.toRat + w.toRat), (.sub, x.toRat - w.toRat), (.abs, |x.toRat|), (.neg, -x.toRat),
               (.min, min x.toRat w.toRat), (.max, max x.toRat w.toRat)] : List (VOp × ℚ)), gives p.1 p.2) ∧
      (a.fmt.isLog = false ∨ b.fmt.isLog = false →
        gives .mul (x.toRat * w.toRat) ∧ gives .fma (x.toRat * w.toRat + u.toRat)) ∧
      (a.fmt.isLog = true → b.fmt.isLog = true → a.sen = false → b.sen = false →
        ((logQuarter a.fmt (a.code rd i) = none ∨ logQuarter b.fmt (b.code rd i) = none) → gives .mul 0) ∧
        ∀ p q, logQuarter a.fmt (a.code rd i) = some p → logQuarter b.fmt (b.code rd i) = some q →
          gives .mul (logval (p + q) (logSign a.fmt (a.code rd i) != logSign b.fmt (b.code rd i))).toRat)) ∧
    (z.fmt.cls = .integer →
      let x := a.int rd i
      let w := b.int rd i
      let u := z.int rd i
      let lo : Int := if z.fmt.isSigned then -2 ^ (z.fmt.bits - 1) else 0
      let hi : Int := if z.fmt.isSigned then 2 ^ (z.fmt.bits - 1) - 1 else 2 ^ z.fmt.bits - 1
      (∀ p ∈ ([(.add, x + w), (.sub, x - w), (.mul, x * w), (.fma, x * w + u), (.abs, |x|), (.neg, -x)] : List (VOp × ℤ)),
        vecElem p.1 z a b y key ctr rd i = some (z.wrap p.2, 0)) ∧
      ∀ p ∈ ([(.min, min x w), (.max, max x w)] : List (VOp × ℤ)),
        vecElem p.1 z a b y key ctr rd i =
          some (z.wrap (max lo (min hi p.2)), if p.2 < lo ∨ hi < p.2 then 4 else 0))

/-- R174, R179: when a word of VX other than a gather, scatter or split has read a group, the results of that group are written four
beats later, each element's code at the place of the element in zd; an element that vsel masks keeps its bits, though the write
occupies its bytes (R179). -/
def Obligations.VectorGroups : Prop :=
  ∀ (f : Flight) (op : VOp) (y key ctr : Word64) (g now : Nat), g < 8192 → op ≠ .gath → op ≠ .scat → op ≠ .split3 →
    let z := listAt default f.strs 0
    let L := lanes (vecDsts op f.strs ++ vecSrcs op f.strs)
    ∃ acc, (vecGroup f op y key ctr g now).accs = f.accs ++ [acc] ∧ acc.beat = now + 4 ∧ acc.rd = [] ∧
      acc.wr = (groupElems (vecCount op f.strs) L g).flatMap (fun i =>
        match vecElem op z (listAt default f.strs 1) (listAt default f.strs 2) y key ctr (bufRd f.buf g) i with
        | some c => z.put i c.1
        | none => (z.put i 0).map (fun x => (x.1, 0, 0)))

/-- R190, R191, R212, R217, R220: every word of RX and FX whose checks pass issues at its beat and reads group g at I + g; a reduction or scan completes at I + 6 + G, a function word at I + 5 + G on FX, or I + 16G + 8 on the exact unit. -/
def Obligations.ReductionAndFunctionIssue : Prop :=
  (∀ (s : State) (e : EngBits) (d a b : BitVec 4) (q : QEntry) (pops pushes : List Nat),
      standsReady s .rx e q pops pushes →
      ∀ p ∈ ([(.rsum e d a, .sum, 0), (.rmax e d a, .max, 0), (.rmin e d a, .min, 0), (.rsumsq e d a, .sumsq, 0),
              (.scanSum e d a, .scanSum, 0), (.scanMax e d a, .scanMax, 0), (.rargmax e d a, .argmax, 0),
              (.rcnt e d a, .cnt, 0), (.rdot e d a b, .dot, b)]
              : List (Instr × ROp × BitVec 4)),
        let op := p.2.1
        let l := redBound s (redStrs op q d a p.2.2)
        let G := ceilDiv (listAt default l 1).count (lanes (redDsts op l ++ redSrcs op l))
        redHead s op d a p.2.2 q = .ok → redCheck s op d a p.2.2 q = .ok →
          ∃ t f, exec p.1 s = .next t ∧ t.vc.eng.flights = s.vc.eng.flights ++ [f] ∧ issuedFrom s t .rx q pops pushes 0 f ∧
            f.work = .red op ∧ f.strs = l ∧ f.done = some (s.vc.now + 6 + G) ∧
            f.accs.map (fun x => (x.tag, x.beat)) = (List.range G).map (fun g => (g, s.vc.now + g)) ∧
            f.y.map (fun x => x.1) = (if op = .scanSum ∨ op = .scanMax then none else some d.toNat) ∧
            engineStep s t ∧ engineRest s t) ∧
  (∀ (s : State) (e : EngBits) (d a : BitVec 4) (q : QEntry) (pops pushes : List Nat),
      standsReady s .fx e q pops pushes →
      ∀ p ∈ ([(.sfExp2 e d a, .exp2, false), (.sfLog2 e d a, .log2, false), (.sfRcp e d a, .rcp, false),
              (.sfRsqrt e d a, .rsqrt, false), (.sfSqrt e d a, .sqrt, false), (.sfSinpi e d a, .sinpi, false),
              (.sfCospi e d a, .cospi, false), (.sfTanh e d a, .tanh, false),
              (.sfLogistic e d a, .logistic, false), (.efExp2 e d a, .exp2, true), (.efLog2 e d a, .log2, true),
              (.efRcp e d a, .rcp, true), (.efRsqrt e d a, .rsqrt, true), (.efSqrt e d a, .sqrt, true),
              (.efSinpi e d a, .sinpi, true), (.efCospi e d a, .cospi, true), (.efTanh e d a, .tanh, true),
              (.efLogistic e d a, .logistic, true)]
              : List (Instr × Fn × Bool)),
        let l := fnBound s (fnStrs q d a)
        let n := (listAt default l 0).count
        let G := ceilDiv n (if p.2.2 then 32 else lanes l)
        fnHead s d a q = .ok → fnCheck s p.2.2 d a q = .ok →
          ∃ t f, exec p.1 s = .next t ∧ t.vc.eng.flights = s.vc.eng.flights ++ [f] ∧ issuedFrom s t .fx q pops pushes 0 f ∧
            f.work = (if p.2.2 then .ef p.2.1 else .sf p.2.1) ∧ f.strs = l ∧
            f.done = some (s.vc.now + (if p.2.2 then 16 * G + 8 else 5 + G)) ∧
            f.accs.map (fun x => (x.tag, x.beat)) = (List.range G).map (fun g => (g, s.vc.now + g)) ∧
            engineStep s t ∧ engineRest s t)

/-- R190: the results of the integer reductions: the sum, the extremes, the sums of squares and of products, the number of
elements that are not zero, and the lowest index of the greatest element. -/
def Obligations.ReductionResults : Prop :=
  ∀ (a b : Str) (rd : Nat → Nat → Byte) (n : Nat), a.fmt.cls = .integer → b.fmt.cls = .integer → 0 < n →
    let x (i : Nat) : Int := a.int (rd i) i
    let y (i : Nat) : Int := b.int (rd i) i
    (redResult .sum a b rd n).1 = BitVec.ofInt 64 (((List.range n).map x).sum) ∧
    (redResult .sumsq a b rd n).1 = BitVec.ofInt 64 (((List.range n).map (fun i => x i * x i)).sum) ∧
    (redResult .dot a b rd n).1 = BitVec.ofInt 64 (((List.range n).map (fun i => x i * y i)).sum) ∧
    (redResult .cnt a b rd n).1 = w64 ((List.range n).filter (fun i => decide (x i ≠ 0))).length ∧
    (∃ m, m < n ∧ (redResult .max a b rd n).1 = BitVec.ofInt 64 (x m) ∧ ∀ i, i < n → x i ≤ x m) ∧
    (∃ m, m < n ∧ (redResult .min a b rd n).1 = BitVec.ofInt 64 (x m) ∧ ∀ i, i < n → x m ≤ x i) ∧
    (∃ m, m < n ∧ (redResult .argmax a b rd n).1 = w64 m ∧ (∀ i, i < n → x i ≤ x m) ∧ ∀ i, i < m → x i < x m)

/-- R214 in part: the operands that both units settle alike before any table: NaN, the infinities, the zeros, and the negative
operands of log2, rsqrt and sqrt. -/
def Obligations.FunctionCases : Prop :=
  ∀ (exact : Bool) (z : Fmt) (n : Bool) (e : Int) (m : Nat),
    let r (f : Fn) (x : Val) : Val := fnValue exact z f x
    let zero := Val.fin n 0 e
    (∀ f g, r f (.nan g) = .nan g) ∧
    r .exp2 (.inf false) = .inf false ∧ r .exp2 (.inf true) = .fin false 0 0 ∧ (r .exp2 zero).toRat = 1 ∧
    r .log2 zero = .inf true ∧ r .log2 (.inf false) = .inf false ∧ r .log2 (.inf true) = .nan true ∧
    r .rcp zero = .inf n ∧ r .rcp (.inf n) = .fin n 0 0 ∧
    r .rsqrt zero = .inf n ∧ r .rsqrt (.inf false) = .fin false 0 0 ∧ r .rsqrt (.inf true) = .nan true ∧
    r .sqrt zero = .fin n 0 0 ∧ r .sqrt (.inf false) = .inf false ∧ r .sqrt (.inf true) = .nan true ∧
    r .sinpi zero = .fin n 0 0 ∧ r .sinpi (.inf n) = .nan true ∧ r .cospi (.inf n) = .nan true ∧ (r .cospi zero).toRat = 1 ∧
    r .tanh zero = .fin n 0 0 ∧ (r .tanh (.inf n)).toRat = (if n then -1 else 1) ∧
    (r .logistic (.inf false)).toRat = 1 ∧ r .logistic (.inf true) = .fin false 0 0 ∧ (r .logistic zero).toRat = 1 / 2 ∧
    (m ≠ 0 → r .log2 (.fin true m e) = .nan true ∧ r .rsqrt (.fin true m e) = .nan true ∧
      r .sqrt (.fin true m e) = .nan true)

/-! ### The matrix column -/

/-- R200 to R202: an mma whose checks pass issues at its beat, reads segment j at I + j and completes at I + n + 4, n the number of
its segments; the count of operations of its tile rises at I. -/
def Obligations.MatrixIssue : Prop :=
  ∀ (s : State) (e : EngBits) (t : BitVec 8) (a b : BitVec 4) (q : QEntry) (pops pushes : List Nat),
    standsReady s .mx e q pops pushes → mmaHead s t a b e.metaP q = .ok → mmaCheck s t a b e.metaP = .ok →
    let c := mmaCfg s t.toNat a.toNat b.toNat e.metaP
    ∀ p ∈ ([(.mma e t a b, [a, b]), (.mmaKb e t a b, [a])] : List (Instr × List (BitVec 4))),
      ∃ u f, exec p.1 s = .next u ∧ u.vc.eng.flights = s.vc.eng.flights ++ [f] ∧ issuedFrom s u .mx q pops pushes 0 f ∧
        f.work = .mma { c with segs := c.n } ∧ f.done = some (s.vc.now + c.n + 4) ∧
        f.accs.map (fun x => (x.tag, x.beat)) = (List.range c.n).map (fun j => (j, s.vc.now + j)) ∧
        f.dues = [(s.vc.now, .opcnt t.toNat)] ∧ f.got.map (fun x => x.toNat) = p.2.map (fun x => x.toNat) ∧
        engineStep s u ∧ engineRest s u

/-- R206, R208: the other words of MX whose checks pass issue at their beat, with the completion beats of the rules and what they do
then: a tile or its mask is cleared at I, a block is taken or given at I + 1, a y register is written at I + 1, and a drain gives
its rows until I + 17. -/
def Obligations.MatrixWords : Prop :=
  ∀ (s : State) (e : EngBits) (t : BitVec 8) (z y : BitVec 4) (q : QEntry) (pops pushes : List Nat),
    standsReady s .mx e q pops pushes →
    let src := (strOf q.zs z.toNat).bind s.vc false
    let dst := (strOf q.zs z.toNat).bind s.vc true
    let word (i : Instr) (k : Nat) (P : Flight → Prop) : Prop :=
      ∃ u f, exec i s = .next u ∧ u.vc.eng.flights = s.vc.eng.flights ++ [f] ∧ issuedFrom s u .mx q pops pushes 0 f ∧
        f.done = some (s.vc.now + k) ∧ P f ∧ engineStep s u ∧ engineRest s u
    (t.toNat < s.tiles →
      word (.mzero e t) 0 (fun f => f.dues = [(s.vc.now, .tile (tileOff + 1024 * t.toNat) (List.replicate 1024 0))]) ∧
      word (.mlsfClr e t) 0 (fun f => f.dues = [(s.vc.now, .tile (tpbOff + 64 * t.toNat + 32) (List.replicate 32 0))]) ∧
      word (.mlsfTest e t y) 1 (fun f => f.y = some (y.toNat, w64 ((List.range 256).filter (fun i =>
        (leNat (mgets byteDefault s.vc.chip (tpbOff + 64 * t.toNat + 32) 32)).testBit i)).length))) ∧
    word (.maudit e y) 1 (fun f => f.y = some (y.toNat, s.vc.audit)) ∧
    (wordsHead s t z 8 q = .ok → issueStreams s false [] [src] = .ok →
      word (.mtpbLd e t z) 1 (fun f => f.work = .tpb t.toNat ∧ f.strs = [src] ∧ f.pops = ringsOf [src])) ∧
    (wordsHead s t z 8 q = .ok → issueStreams s false [dst] [] = .ok →
      word (.mtpbSt e t z) 1 (fun f => f.pushes = ringsOf [dst] ∧ ∃ x, f.accs = [x] ∧ x.beat = s.vc.now + 1 ∧
        x.wr = (List.range 8).flatMap (fun i =>
          dst.put i (leNat (mgets byteDefault s.vc.chip (tpbOff + 64 * t.toNat + 8 * i) 8))))) ∧
    (wordsHead s t z 4 q = .ok → issueStreams s false [dst] [] = .ok →
      word (.mlsfRd e t z) 1 (fun f => f.pushes = ringsOf [dst] ∧ ∃ x, f.accs = [x] ∧ x.beat = s.vc.now + 1 ∧
        x.wr = (List.range 4).flatMap (fun i =>
          dst.put i (leNat (mgets byteDefault s.vc.chip (tpbOff + 64 * t.toNat + 32 + 8 * i) 8))))) ∧
    (drainHead s t z q = .ok → (s.vc.tpb t.toNat 0).toNat / 2 ^ 24 % 4 ≠ 3 → issueStreams s false [dst] [] = .ok →
      word (.mdrain e t z) 17 (fun f => f.strs = [dst] ∧ f.pushes = ringsOf [dst] ∧
        f.got = mgets byteDefault s.vc.chip (tileOff + 1024 * t.toNat) 1024))

/-- R159, R160: the ring words whose checks pass. greset empties its ring at once; gpush completes after one beat for each 512
packed bytes, ggath after one for each 64 indices more; both push the ring they fill and pop those they read. -/
def Obligations.RingWords : Prop :=
  ∀ (s : State) (e : EngBits) (d a b : BitVec 4) (q : QEntry) (pops pushes : List Nat),
    standsReady s .ld e q pops pushes →
    (∃ t f, exec (.greset e d) s = .next t ∧ t.vc.eng.flights.length = s.vc.eng.flights.length + 1 ∧
      t.vc.eng.flights.getLast? = some f ∧ issuedFrom s t .ld q pops pushes 0 f ∧ f.done = some s.vc.now ∧
      (t.vc.ring d.toNat).cnt = 0 ∧ (t.vc.ring d.toNat).head = 0 ∧ (t.vc.ring d.toNat).tail = 0 ∧
      (t.vc.ring d.toNat).w0 = (s.vc.ring d.toNat).w0 ∧ (∀ r, r ≠ d.toNat → t.vc.ring r = s.vc.ring r) ∧
      engineStep { s with vc.g := t.vc.g } t) ∧
    (let z := (strOf q.zs a.toNat).bind s.vc false
     ringInShare s d.toNat = true → headStreams s [strOf q.zs a.toNat] = .ok → (strOf q.zs a.toNat).fmt ≠ .e8 →
     ringCheck s d.toNat (tailStr s.vc d.toNat z.fmt z.count) [z] = .ok →
       ∃ t f, exec (.gpush e d a) s = .next t ∧ t.vc.eng.flights = s.vc.eng.flights ++ [f] ∧
         issuedFrom s t .ld q pops pushes 0 f ∧ f.work = .gpush ∧
         f.done = some (s.vc.now + ceilDiv (packedBytes z.fmt false z.count) 512 - 1) ∧
         f.pops = ringsOf [z] ∧ f.pushes = [d.toNat] ∧ engineStep s t ∧ engineRest s t) ∧
    (let za := (strOf q.zs a.toNat).bind s.vc false
     let zb := (strOf q.zs b.toNat).bind s.vc false
     ggathHead s d a b q = .ok → ringCheck s d.toNat (tailStr s.vc d.toNat zb.fmt za.count) [za, zb] = .ok →
       ∃ t f, exec (.ggath e d a b) s = .next t ∧ t.vc.eng.flights = s.vc.eng.flights ++ [f] ∧
         issuedFrom s t .ld q pops pushes 0 f ∧ f.work = .ggath zb.count ∧ f.done = some (s.vc.now + ceilDiv za.count 64) ∧
         f.pops = ringsOf [za, zb] ∧ f.pushes = [d.toNat] ∧ engineStep s t ∧ engineRest s t)

/-- R161, R162, R165: the receives whose checks pass are posted on their channels at their beat and have no completion beat yet; the sends whose checks pass: the message is on its way at once, with its channel, format and length, and the word completes when its last 128 source bytes are read. In an Elastic launch a send claims the receive posted for it, and waits at its head while there is none. -/
def Obligations.MessageWords : Prop :=
  (∀ (s : State) (e : EngBits) (d : BitVec 4) (q : QEntry) (pops pushes : List Nat),
      standsReady s .ld e q pops pushes →
      let z := strOf q.zs d.toNat
      let r := s.vc.ring d.toNat
      let slot := tailStr s.vc d.toNat .n8 r.size
      let posts (i : Instr) (c kind mbox : Nat) (P : Flight → Prop) : Prop :=
        postedOn s.vc c = none →
        ∃ t f, exec i s = .next t ∧ t.vc.eng.flights = s.vc.eng.flights ++ [f] ∧ issuedFrom s t .ld q pops pushes 0 f ∧
          f.work = .recv kind mbox ∧ f.chan = some c ∧ f.done = none ∧ f.land = none ∧ P f ∧ engineStep s t ∧ engineRest s t
      (messageHead s z = .ok → issueStreams s false [z.bind s.vc true] [] = .ok →
        posts (.recv e d) z.ring 0 0 (fun f => f.strs = [z.bind s.vc true] ∧ f.pushes = ringsOf [z])) ∧
      (ringInShare s d.toNat = true → tailFits s d.toNat slot = true → hazardChk s.vc slot = .ok → r.cnt < r.slots →
        posts (.recvG e d) d.toNat 1 0 (fun f => f.strs = [slot] ∧ f.pushes = [d.toNat])) ∧
      (d.toNat ≤ 7 → posts (.recvM e d) d.toNat 2 d.toNat (fun f => f.strs = [] ∧ f.pushes = []))) ∧
  (∀ (s : State) (e : EngBits) (a : BitVec 4) (q : QEntry) (pops pushes : List Nat),
      standsReady s .st e q pops pushes →
      let sends (i : Instr) (z : Str) (dst c : Nat) (P : Flight → Prop) : Prop :=
        let sent (t : State) (f : Flight) (m : Msg) : Prop :=
          issuedFrom s t .st q pops pushes 0 f ∧ f.work = .send dst c z.fmt.code z.packed ∧
          f.done = some (s.vc.now + ceilDiv z.packed 128 - 1) ∧ P f ∧
          t.launch.msgs = s.launch.msgs ++ [m] ∧ m.src = s.vc.id ∧ m.dst = dst ∧ m.chan = c ∧ m.fmt = z.fmt.code ∧
          m.bytes = z.packed ∧ m.piece = 0 ∧ m.seqS = q.seq ∧ m.data = []
        (s.launch.mode = .lockstep →
          ∃ t f m, exec i s = .next t ∧ t.vc.eng.flights = s.vc.eng.flights ++ [f] ∧ sent t f m ∧ m.sent = s.vc.now ∧
            m.target = none ∧ engineStep { s with launch.msgs := t.launch.msgs } t ∧ engineRest s t) ∧
        (s.launch.mode = .elastic → receiveReady s dst c = false →
          ∃ t, exec i s = .next t ∧ t.vc.eng.flights = s.vc.eng.flights ∧ t.vc.faults = s.vc.faults ∧ t.launch = s.launch ∧
            ∀ k, (t.vc.eng.q k).entries.map (fun x => x.seq) = (s.vc.eng.q k).entries.map (fun x => x.seq)) ∧
        (s.launch.mode = .elastic → ∀ v r, getVC s dst = some v → postedOn v c = some r →
          ∃ t f m w, exec i s = .next t ∧ f ∈ t.vc.eng.flights ∧ sent t f m ∧ m.sent = v.now ∧ m.target = some r.seq ∧
            t.vc.eng.flights.length = s.vc.eng.flights.length + 1 ∧ t.vc.ctl = s.vc.ctl ∧ t.vc.chip = s.vc.chip ∧
            getVC t dst = some w ∧ w.chip = v.chip ∧ ∃ y ∈ w.eng.flights, y.seq = r.seq ∧ y.land = some (s.vc.id, q.seq))
      let z := { strOf q.zs a.toNat with ren := false }
      (messageHead s z = .ok → sends (.send e a) z z.peer z.ring (fun f => f.pops = [])) ∧
      (let r := s.vc.ring a.toNat
       r.fits s.share = true → 1 ≤ r.cnt →
         sends (.sendG e a) (headSlot s.vc a.toNat) (r.w0.toNat / 2 ^ 48 % 2 ^ 10) a.toNat (fun f => f.pops = [a.toNat])))

/-- R100, R101, R104, R271: the waits and fences of the queues, and evpost. A wait of n beats completes at I + n and L stands at
I + n; a fence completes at I once its condition holds; evpost posts at I + 1, and in an Elastic launch whose event queue is full then its
record is held, and its completion with it. A word of CMP leaves its four columns at once. -/
def Obligations.WaitWords : Prop :=
  ∀ (s : State) (e : EngBits) (n : BitVec 12) (m : BitVec 7) (q : QEntry) (pops pushes : List Nat),
    (∀ p ∈ ([(.ld, .waitLd e n, .qfenceLd e m), (.st, .waitSt e n, .qfenceSt e m)] : List (Queue × Instr × Instr)),
      standsReady s p.1 e q pops pushes →
        (∃ t f, exec p.2.1 s = .next t ∧ t.vc.eng.flights = s.vc.eng.flights ++ [f] ∧
          issuedFrom s t p.1 q pops pushes n.toNat f ∧ f.done = some (s.vc.now + n.toNat) ∧ engineStep s t ∧ engineRest s t) ∧
        (m = 0 → exec p.2.2 s = .next (queueFault s p.1 q 0x01 0 (q.word.setWidth 64))) ∧
        (m ≠ 0 → qfenceHolds s m q = true →
          ∃ t f, exec p.2.2 s = .next t ∧ t.vc.eng.flights = s.vc.eng.flights ++ [f] ∧
            issuedFrom s t p.1 q pops pushes 0 f ∧ f.done = some s.vc.now ∧ engineStep s t ∧ engineRest s t) ∧
        (m ≠ 0 → qfenceHolds s m q = false → s.launch.mode = .elastic →
          ∃ t, exec p.2.2 s = .next t ∧ t.vc.eng.flights = s.vc.eng.flights ∧ t.vc.faults = s.vc.faults ∧
            ∀ k, (t.vc.eng.q k).entries.map (fun x => x.seq) = (s.vc.eng.q k).entries.map (fun x => x.seq))) ∧
    (standsReady s .st e q pops pushes → s.launch.mode = .elastic → eventRoomAt s (s.vc.now + 1) = false →
      ∃ t f x, exec (.evpost e) s = .next t ∧ t.vc.eng.flights = s.vc.eng.flights ++ [f] ∧
        issuedFrom s t .st q pops pushes 0 f ∧ f.done = none ∧ t.vc.eng.evIn = s.vc.eng.evIn ∧
        t.vc.eng.heldEv = s.vc.eng.heldEv ++ [x] ∧ x.src = 2 ∧ x.hold = q.seq + 1) ∧
    (standsReady s .st e q pops pushes → s.launch.mode = .lockstep ∨ eventRoomAt s (s.vc.now + 1) = true →
      ∃ t f x, exec (.evpost e) s = .next t ∧ t.vc.eng.flights = s.vc.eng.flights ++ [f] ∧
        issuedFrom s t .st q pops pushes 0 f ∧ f.done = some s.vc.now ∧ t.vc.eng.evIn = s.vc.eng.evIn ++ [x] ∧
        x.beat = s.vc.now + 1 ∧ x.src = 2 ∧ x.w0.toNat % 2 ^ 8 = 2 ∧ x.w0.toNat / 2 ^ 12 % 16 = 2 ∧
        (q.counted = false → x.w0.toNat / 2 ^ 24 % 2 ^ 16 = mget 0 s.vc.eng.stepc 2 % 2 ^ 16) ∧
        (s.launch.frozen = none → x.w1 = w64 (s.vc.now % 2 ^ 48))) ∧
    (sharedReady s e q pops pushes →
        (∃ t f, exec (.waitCmp e n) s = .next t ∧ t.vc.eng.flights = s.vc.eng.flights ++ [f] ∧ f.seq = q.seq ∧
          f.done = some (s.vc.now + n.toNat) ∧ engineStep s t ∧
          ∀ c ∈ columns, (t.vc.eng.q c).next = s.vc.now + n.toNat + 1 ∧
            (t.vc.eng.q c).entries = (s.vc.eng.q c).entries.filter (fun x => x.seq != q.seq)) ∧
        (m ≠ 0 → qfenceHolds s m q = false → s.launch.mode = .elastic →
          ∃ t, exec (.qfenceCmp e m) s = .next t ∧ t.vc.eng.flights = s.vc.eng.flights ∧ t.vc.faults = s.vc.faults ∧
            ∀ k, (t.vc.eng.q k).entries.map (fun x => x.seq) = (s.vc.eng.q k).entries.map (fun x => x.seq)) ∧
        (m ≠ 0 → qfenceHolds s m q = true →
          ∃ t f, exec (.qfenceCmp e m) s = .next t ∧ t.vc.eng.flights = s.vc.eng.flights ++ [f] ∧ f.seq = q.seq ∧
            f.done = some s.vc.now ∧ engineStep s t ∧
            ∀ c ∈ columns, (t.vc.eng.q c).next = s.vc.now + 1 ∧
              (t.vc.eng.q c).entries = (s.vc.eng.q c).entries.filter (fun x => x.seq != q.seq)))

/-- R225, R228, R230 to R232: the copies whose checks pass issue at their beat and take their descriptor and their lines: an in-copy
that is timed completes at I + 600 + 8(lines − 1), another with its last line, an out-copy when its last source byte is read. A copy
whose control words META names issues and reads that image, and its checks follow when it has been read. A follow-on word (R234) enters MX
with the copy's issue, behind the words that stood there, ahead of one that CTL places at that beat. -/
def Obligations.CopyIssue : Prop :=
  ∀ (s : State) (e : EngBits) (d a : BitVec 4) (q : QEntry) (pops pushes : List Nat),
    ∀ p ∈ ([(.cpyIn e d, .ld, 0, none), (.cpyInT e d, .ld, 1, none), (.cpyGath e d a, .ld, 2, some a),
            (.cpyPf e d, .ld, 3, none), (.cpyOut e d, .st, 4, none), (.cpyScat e d a, .st, 5, some a),
            (.stash e d, .st, 6, none), (.cpyXc e d, .st, 7, none)] : List (Instr × Queue × Nat × Option (BitVec 4))),
      let op := p.2.2.1
      let c := copyWords s.vc d none
      let za := copyZa s q p.2.2.2 true
      let n := (ccbLines c (idxNow s.vc za) op).length
      let tok := e.popP || e.popN || e.pushP || e.pushN
      standsReady s p.2.1 e q pops pushes → copyHead s e d (copyZa s q p.2.2.2 false) = .ok →
      (∀ m, e.metaP = some m → ccbFo (copyWords s.vc d e.metaP) = false →
        ∃ t f i x, exec p.1 s = .next t ∧ t.vc.eng.flights = s.vc.eng.flights ++ [f] ∧ issuedFrom s t p.2.1 q pops pushes 0 f ∧
          f.work = .image i ∧ i.op = op ∧ f.copy = none ∧ f.done = none ∧ f.accs = [x] ∧ x.beat = s.vc.now ∧ x.wr = [] ∧
          x.rd = (List.range 64).map (fun k => (m.extractLsb' 0 22).toNat * 64 + k) ∧ engineStep s t) ∧
      (e.metaP = none → copyCheck s op tok c za s.vc.eng.credit (copiesInFlight s.vc) = .ok → ccbFo c = false →
        ∃ t f j, exec p.1 s = .next t ∧ t.vc.eng.flights = s.vc.eng.flights ++ [f] ∧
          issuedFrom s t p.2.1 q pops pushes 0 f ∧ f.work = .copy ∧ f.copy = some j ∧ j.op = op ∧ j.ccb = c ∧
          j.lines.length = n ∧ (∀ l ∈ j.lines, l.done = false) ∧
          (op < 4 → ccbTimed c = true → s.launch.mode = .lockstep → f.done = some (s.vc.now + 600 + 8 * (n - 1))) ∧
          (op < 4 → (ccbTimed c = false ∨ s.launch.mode = .elastic) → f.done = none) ∧
          (4 ≤ op → f.done = some (s.vc.now + (outReads c j.base s.vc.now).length - 1)) ∧
          (ccbTimed c = true → t.vc.eng.credit = s.vc.eng.credit - 128 * n) ∧
          engineStep s t) ∧
      (e.metaP = none → copyCheck s op tok c za s.vc.eng.credit (copiesInFlight s.vc) = .ok → ccbFo c = true →
        (∀ x ∈ (s.vc.eng.q .mx).entries, x.seq ≠ q.seq) →
        let older (x : QEntry) : Bool := decide (x.placed < s.vc.now ∨ (x.placed = s.vc.now ∧ x.run ≠ none))
        let es := (s.vc.eng.q .mx).entries
        ∃ t f j w, exec p.1 s = .next t ∧ t.vc.eng.flights = s.vc.eng.flights ++ [f] ∧ f.seq = q.seq ∧ f.issued = s.vc.now ∧
          f.toks = pushes ∧ f.work = .copy ∧ f.copy = some j ∧ j.op = op ∧ j.ccb = c ∧ j.lines.length = n ∧
          (t.vc.eng.q p.2.1).entries = (s.vc.eng.q p.2.1).entries.filter (fun x => x.seq != q.seq) ∧
          (t.vc.eng.q p.2.1).next = s.vc.now + 1 ∧
          (t.vc.eng.q .mx).entries = es.filter older ++ [w] ++ es.filter (fun x => !older x) ∧
          w.word = listAt 0 c 14 ∧ w.stamp = some ((listAt 0 c 15).setWidth 24) ∧ w.ready = s.vc.now ∧ w.follow = some q.seq ∧
          (ccbTimed c = true → t.vc.eng.credit = s.vc.eng.credit - 128 * n) ∧ engineStep s t)

/-- R94, R103, R96, R231, R232, R163, R164, R169: what the engines' events do. A word that completes leaves its flight, moves its
rings, writes its y register or mailbox, pushes its tokens and raises its flags for the next beat; a held record is posted at
the next beat; a late word, one without its token or one whose stamp is behind faults; a line of a copy lands or is performed; a
message lands, or faults in a Lockstep launch alone; a map write lands. The model's choices: the beats at which map writes and
lines of untimed copies land (logs 7, 8), what a bank that is taken delays (log 59), the beat of the overrun of a stamp that is behind
(log 56), the counts of a ring whose words overlap (log 58), the unit of an arrival that no word expects (log 50), when a record is seen
(log 19), and the discard of a message whose receive is gone (log 90). -/
def Obligations.EngineEvents : Prop :=
  (∀ (s : State) (id : Nat) (f : Flight),
      flightAt s id = some f → f.dueNow s.vc.now = true → frozenNow s = false → f.copy = none → f.accs = [] →
      f.toks.Nodup → (∀ k ∈ f.toks, tokFull s k = false) →
      s.upsets = [] →
        ∃ t, exec (.engineWordCompletion id) s = .next t ∧
          t.vc.eng.flights.map (fun x => x.seq) = (s.vc.eng.flights.map (fun x => x.seq)).filter (fun x => x != id) ∧
          t.vc.eng.pushIn = s.vc.eng.pushIn ++ f.toks.map (fun k => (s.vc.now + 1, k)) ∧
          (∀ n w, f.y = some (n, w) → yr t n = w) ∧
          (∀ k, f.work = .recv 2 k → mr t k = w64 (leNat f.got)) ∧
          (∀ r, f.pops = [r] → f.pushes = [] → (t.vc.ring r).cnt = (s.vc.ring r).cnt - 1 ∧
            (t.vc.ring r).head = ((s.vc.ring r).head + 1) % (s.vc.ring r).slots ∧ (t.vc.ring r).tail = (s.vc.ring r).tail) ∧
          (∀ r, f.pops = [] → f.pushes = [r] → (t.vc.ring r).cnt = (s.vc.ring r).cnt + 1 ∧
            (t.vc.ring r).tail = ((s.vc.ring r).tail + 1) % (s.vc.ring r).slots ∧ (t.vc.ring r).head = (s.vc.ring r).head) ∧
          (f.flags ≠ 0 → t.vc.ctl.flagsIn = s.vc.ctl.flagsIn ++ [(s.vc.now + 1, f.flags)]) ∧
          t.part = s.part ∧ t.vc.chip = s.vc.chip ∧ t.vc.ctl.x = s.vc.ctl.x) ∧
  (∀ (s : State) (h : EvRec) (r : List EvRec),
      s.vc.eng.heldEv = h :: r → s.vc.eng.events.length + s.vc.eng.evIn.length < s.evCap →
        ∃ t, exec .eventRecordHeldPost s = .next t ∧ t.vc.eng.heldEv = r ∧
          t.vc.eng.evIn = s.vc.eng.evIn ++
            [{ h with beat := s.vc.now + 1, w0 := w64 ((s.vc.now + 1) % 2 ^ 24 * 2 ^ 40 + h.w0.toNat), hold := 0 }] ∧
          (h.hold = 0 → t.vc.eng.flights = s.vc.eng.flights ∧ t.vc.colls = s.vc.colls) ∧
          (∀ f ∈ t.vc.eng.flights, f.seq + 1 = h.hold → f.done = some s.vc.now) ∧
          (h.hold ≠ 0 → t.vc.colls = s.vc.colls.filter (fun c => c.num + 1 != h.hold)) ∧
          t = { s with vc.eng.heldEv := t.vc.eng.heldEv, vc.eng.evIn := t.vc.eng.evIn,
                       vc.eng.flights := t.vc.eng.flights, vc.colls := t.vc.colls, vc.sentColls := t.vc.sentColls }) ∧
  (∀ (s : State) (u : Queue) (e : QEntry) (pops pushes : List Nat),
      headOf s u = some e → s.launch.mode = .lockstep → queueHeld s u = false → e.shared = false → e.bad = false →
      e.ready ≤ s.vc.now → tokenFifos s u (entryBits9 e) = some (pops, pushes) → fenceMask e.word = none →
        let S := sched (s.vc.eng.q u).next (entryBits9 e).delay.toNat e.stamp
        let faults (kind : Nat) (tval : Word64) : Prop :=
          ∃ t g, exec (.overrun u) s = .next t ∧ t.vc.faults = s.vc.faults ++ [g] ∧ g.cause = 0x14 ∧ g.detail = kind ∧
            g.tval = tval ∧ g.beat = s.vc.now ∧ g.name = e.name ∧ g.src = qCode u + 1 ∧ t.launch.frozen.isSome = true ∧
            t.vc.eng = s.vc.eng
        (S.2 = true → faults 3 (overrunWord S.1 0 0 (qCode u) 3)) ∧
        (S.2 = false → S.1 < s.vc.now → e.retry = false → faults 1 (overrunWord S.1 (stoodBeat s e) 0 (qCode u) 1)) ∧
        (S.2 = false → S.1 = s.vc.now → ∀ f, tokMissing s pops = some f → faults 2 (overrunWord S.1 0 f (qCode u) 2)) ∧
        (S.2 = false → S.1 = s.vc.now → tokMissing s pops = none → exec (.overrun u) s = .next s) ∧
        (S.2 = false → s.vc.now < S.1 → exec (.overrun u) s = .next s)) ∧
  (∀ (s : State) (id : Nat) (f : Flight) (j : CopyJob) (l : CLine) (k pa : Nat),
      let places (k : AccKind) : Prop := ∃ u e, lineTranslate s l k = .ok u (pa, e) ∧ e.vb = false
      let channelFree : Prop := mget 0 s.part.pcNext (pcOf s (128 * (pa / 128))) ≤ 8 * s.dev.refbeat
      flightAt s id = some f → f.copy = some j → f.faulted = false → frozenNow s = false → nextLine j = some (l, k) →
      f.indexed = true → olderLines s f l = [] →
        (j.op < 4 → l.due ≤ s.vc.now → l.data = [] → places .read → s.part.slow.contains (pa / 128) = false →
          (ccbTimed j.ccb = true ∨ channelFree) →
            ∃ t f2 j2 l2, exec (.copyLineLanding id) s = .next t ∧ flightAt t id = some f2 ∧ f2.copy = some j2 ∧
              j2.lines[k]? = some l2 ∧ l2.done = true ∧ l2.data = physRead s pa l.len ∧ l2.va = l.va ∧
              (∀ a, physByte t a = physByte s a) ∧
              (j.op = 3 → t.vc.chip = s.vc.chip) ∧
              ∀ a, (∀ w ∈ lineWrites (lineDone j k l2.data) l, w.1 ≠ a) → mget 0 t.vc.chip a = mget 0 s.vc.chip a) ∧
        (4 ≤ j.op → j.op ≠ 7 → f.ended = true → places .write → channelFree →
          ∃ t, exec (.copyMemoryWritePerform id) s = .next t ∧
            (∀ i, i < l.len → physByte t (pa + i) = listAt 0 (lineBytes f j l) i) ∧
            (∀ a, a < pa ∨ pa + l.len ≤ a → physByte t a = physByte s a) ∧
            (nextLine (lineDone j k []) = none → flightAt t id = none) ∧ t.vc.chip = s.vc.chip)) ∧
  (∀ (s : State) (n : Nat) (m : Msg),
      s.launch.msgs[n]? = some m → m.dst = s.vc.id → frozenNow s = false → m.due s.vc.now = true →
        (msgTarget s m = none → s.launch.mode = .lockstep → m.piece = 0 →
          ∃ t g, exec (.messagePieceLanding n) s = .next t ∧ t.vc.faults = s.vc.faults ++ [g] ∧ g.cause = 0x0E ∧ g.src = 1 ∧
            g.beat = s.vc.now ∧ t.vc.chip = s.vc.chip) ∧
        (msgTarget s m = none → s.launch.mode = .elastic ∨ m.piece ≠ 0 →
          exec (.messagePieceLanding n) s = .next { s with
            launch.msgs := s.launch.msgs.filter (fun x => !(x.src == m.src && x.seqS == m.seqS)) }) ∧
        (∀ f, msgTarget s m = some f → m.piece = 0 → landingOk m f = false →
          ∃ t g, exec (.messagePieceLanding n) s = .next t ∧ t.vc.faults = s.vc.faults ++ [g] ∧ g.cause = 0x0F ∧
            g.seq = some f.entry.seq ∧ t.vc.chip = s.vc.chip) ∧
        (∀ f b, msgTarget s m = some f → f.work = .recv 2 b → m.piece = 0 → landingOk m f = true →
          ∃ t f2, exec (.messagePieceLanding n) s = .next t ∧
            (f ∈ s.vc.eng.flights → flightAt t f.seq = some f2) ∧ f2.got = m.data.take 8 ∧ f2.done = some s.vc.now ∧
            (∀ x ∈ t.launch.msgs, x.src ≠ m.src ∨ x.seqS ≠ m.seqS) ∧ t.vc.chip = s.vc.chip)) ∧
  (∀ (s : State) (n : Nat) (a : MapAcc),
      s.launch.maps[n]? = some a → a.dst = s.vc.id → a.due ≤ s.vc.now → frozenNow s = false → mapEarlier s n a = false →
        let lands (P : State → Prop) : Prop :=
          ∃ t, exec (.mapAccessLanding n) s = .next t ∧ t.launch.maps = s.launch.maps.eraseIdx n ∧ P t
        (∀ k, mapWhat s a.off = some (.y k) → lands (fun t => t.vc.chip = s.vc.chip ∧
          yr t k = if s.vc.ywrote.contains k then yr s k else w64 (leNat a.data))) ∧
        (∀ k, mapWhat s a.off = some (.m k) → lands (fun t => mr t k = w64 (leNat a.data) ∧ t.vc.chip = s.vc.chip)) ∧
        (∀ z k, mapWhat s a.off = some (.z z k) → s.vc.zFull z = false →
          lands (fun t => t.vc.zword z k = w64 (leNat a.data) ∧ t.vc.chip = s.vc.chip)) ∧
        (∀ k, mapWhat s a.off = some (.g k 0) → lands (fun t => (t.vc.ring k).w0 = w64 (leNat a.data) ∧
          (t.vc.ring k).cnt = 0 ∧ (t.vc.ring k).head = 0 ∧ (t.vc.ring k).tail = 0)) ∧
        (mapWhat s a.off = some .bytes → s.share ≤ a.off →
          lands (fun t => (∀ i, i < a.data.length → mget 0 t.vc.chip (a.off + i) = listAt 0 a.data i) ∧
            ∀ o, o < a.off ∨ a.off + a.data.length ≤ o → mget 0 t.vc.chip o = mget 0 s.vc.chip o)) ∧
        (mapWhat s a.off = some .bytes → a.off < s.share → s.vc.claims = [] → a.off % 64 + a.data.length ≤ 64 →
          lands (fun t => (∀ i, i < a.data.length → mget 0 t.vc.chip (a.off + i) = listAt 0 a.data i) ∧
            ∀ o, o < a.off ∨ a.off + a.data.length ≤ o → mget 0 t.vc.chip o = mget 0 s.vc.chip o)))

/-- R241, R248, R252, R286 to R288, R406: what the events of memory do: the walk that fills the lookaside buffers, the reads and
writes of versioned blocks, the copy of a first write, the resolution of a closed block, the invalidations, the hash masks and
the memory accesses of the control link. -/
def Obligations.MemoryEvents : Prop :=
  (∀ (s : State) (va : Word64), s.dev.lq ≤ 4 →
      ∃ t, exec (.translationWalkComplete va) s = .next t ∧ (∀ a, physByte t a = physByte s a) ∧ t.vc.chip = s.vc.chip ∧
        t.vc.ctl = s.vc.ctl ∧ (s.part.tlbBusy = true → t = s) ∧
        ∀ e, va.toNat < 2 ^ 56 → s.part.tlbBusy = false → (lookup s va.toNat).2 = .ok e →
          t.vc.tlb.head? = some e ∧ (∀ x ∈ t.vc.tlb, x = e ∨ x ∈ s.vc.tlb) ∧
            e.page = va.toNat / 2 ^ e.size) ∧
  (∀ (s : State) (x : VAccess) (ep g : Nat) (dr : Bool),
      let bk := blockOf x.frame x.off
      s.part.openEp = some (ep, g, dr) → x.off % 128 + x.data.length ≤ 128 → x.write = true →
        (x.epoch = some ep → (vWrite s x.frame x.off x.data (some ep)).isSome = true →
          ∃ t, exec (.versionedAccess x) s = .next t ∧
            (blockAt t bk).e = some ep ∧ (blockAt t bk).map.getLsbD (x.off % 2048 / 128) = true ∧
            (∀ i, i < x.data.length →
              physByte t (slotAddr bk (1 - (blockAt t bk).c) + x.off % 2048 + i) = listAt 0 x.data i) ∧
            ∀ i, i < 2048 → physByte t (slotAddr bk (blockAt t bk).c + i) =
              physByte (touch s bk) (slotAddr bk (blockAt t bk).c + i)) ∧
        (x.epoch ≠ some ep → exec (.versionedAccess x) s =
          .next { s with part.counts := mput 0 s.part.counts 0 (Nat.min (2 ^ 64 - 1) (mget 0 s.part.counts 0 + 1)) })) ∧
  (∀ (s : State) (x : VAccess), x.write = false →
      ∃ t, exec (.versionedAccess x) s = .next t ∧ t.vc = s.vc ∧
        ∀ a, physByte t a = physByte (touch s (blockOf x.frame x.off)) a) ∧
  (∀ (s : State) (bk : Nat), (blockAt s bk).e.isSome = true → (blockAt s bk).copy = true →
      let c := (blockAt s bk).c
      (∀ i, missingLine (blockAt s bk) = some i →
        ∃ t, exec (.firstWriteLineCopy bk) s = .next t ∧ (blockAt t bk).map.getLsbD i = true ∧ (blockAt t bk).c = c ∧
          (∀ j, j < 128 → physByte t (slotAddr bk (1 - c) + 128 * i + j) = physByte s (slotAddr bk c + 128 * i + j)) ∧
          ∀ a, a < slotAddr bk (1 - c) + 128 * i ∨ slotAddr bk (1 - c) + 128 * i + 128 ≤ a → physByte t a = physByte s a) ∧
      (missingLine (blockAt s bk) = none →
        ∃ t, exec (.firstWriteLineCopy bk) s = .next t ∧ (blockAt t bk).copy = false ∧ t.part.mem = s.part.mem)) ∧
  (∀ (s : State) (bk ep : Nat) (ok : Bool), (blockAt s bk).e = some ep → outcomeOf s ep = some ok →
      let b := blockAt s bk
      ∃ t, exec (.sweeperResolve bk) s = .next t ∧ (blockAt t bk).e = none ∧
        (blockAt t bk).c = (if ok then 1 - b.c else b.c) ∧
        (ok = false → t.part.mem = s.part.mem) ∧
        (ok = true → ∀ i j, i < 16 → j < 128 →
          physByte t (slotAddr bk (1 - b.c) + 128 * i + j) = physByte s (slotAddr bk (readSlot b i) + 128 * i + j))) ∧
  (∀ (s : State) (fn : BitVec 5) (v : Word64), fn.toNat = s.part.idx + 1 →
      ∀ i ∈ [Instr.tlbinvPartition fn v, .tlbinvPage fn v],
        (tlbinvOk s v = true →
          ∃ t, exec i s = .next t ∧ t.part.tlbBusy = true ∧ t.dev.replies = s.dev.replies ++ [(0, [])] ∧
            t.vc.tlb = s.vc.tlb.filter (fun e => !tlbDrops v e) ∧
            t.peers.map (fun (c : VC) => c.tlb) = s.peers.map (fun (c : VC) => c.tlb.filter (fun e => !tlbDrops v e)) ∧
            t.part.ctlb = s.part.ctlb.filter (fun p => !tlbDrops v p.2) ∧ t.part.mem = s.part.mem) ∧
        (tlbinvOk s v = false → exec i s = .next (reply s .refused))) ∧
  (∀ (s : State), ∃ t, exec .tlbinvDone s = .next t ∧ t.part.tlbBusy = false ∧ t.part.mem = s.part.mem ∧ t.vc = s.vc) ∧
  (∀ (s : State) (fn : BitVec 5) (i : BitVec 4) (v : Word64), fn.toNat = s.part.idx + 1 → i.toNat < 9 →
      (partQuiet s = true → hmaskOk s i.toNat v = true →
        ∃ t, exec (.hmaskWrite fn i v) s = .next t ∧ hmaskOf t i.toNat = v.toNat ∧
          t.dev.replies = s.dev.replies ++ [(0, [])] ∧ ∀ k, k ≠ i.toNat → hmaskOf t k = hmaskOf s k) ∧
      (partQuiet s = false ∨ hmaskOk s i.toNat v = false → exec (.hmaskWrite fn i v) s = .next (reply s .refused))) ∧
  (∀ (s : State) (fn : BitVec 5) (pa n : Nat) (d : List (BitVec 8)), fn.toNat = s.part.idx + 1 →
      (pa + d.length ≤ s.cp →
        ∃ t, exec (.controlLinkMemoryWrite fn pa d) s = .next t ∧ t.dev.replies = s.dev.replies ++ [(0, [])] ∧
          (∀ i, i < d.length → physByte t (pa + i) = listAt 0 d i) ∧
          ∀ a, a < pa ∨ pa + d.length ≤ a → physByte t a = physByte s a) ∧
      (s.cp < pa + d.length → exec (.controlLinkMemoryWrite fn pa d) s = .next (reply s .notPermitted)) ∧
      (pa + n ≤ s.cp →
        ∃ t, exec (.controlLinkMemoryRead fn pa n) s = .next t ∧ t.part.mem = s.part.mem ∧
          t.dev.replies = s.dev.replies ++
            [(0, (countUp 0 (ceilDiv n 8)).map (fun i => w64 (leNat (cut (physRead s pa n) (8 * i) 8))))]) ∧
      (s.cp < pa + n → exec (.controlLinkMemoryRead fn pa n) s = .next (reply s .notPermitted)))

/-- R298, R301, R305, R309 to R312, R325, R329, R330, R409: what the events of the fabric do: a fragment that arrives opens its
buffer or is disposed of, a buffer is decoded, delivered or lost, a collective reads its source and lands its results, a flush is
applied, a link goes down or up, a drain sends and is acknowledged, and the device votes. The model's choices: the keys of packets that
carry no number of their own (log 15), the port's die (log 17), the pieces and records of a drain (log 45) and which closed keys a
delivery passes (log 71). -/
def Obligations.FabricEvents : Prop :=
  (∀ (s : State) (f : Fragment),
      let h := headOfFrag f
      (fragSound f = false →
        ∃ t, exec (.fragmentArrival f) s = .next t ∧ t.part.darns = s.part.darns ∧
          mget 0 t.dev.darnCounts (8 * (f.port.toNat / 9) + 3) = mget 0 s.dev.darnCounts (8 * (f.port.toNat / 9) + 3) + 1) ∧
      (fragSound f = true → fragPart s h = s.part.idx → h.tc < 6 → s.part.reset = none →
       (h.tc = 1 ∨ h.tc = 5 → h.ncon = groupSize s (localGroup s h)) → dlPast (viewOf s (ownerOf s h)) h = false →
       (∀ b ∈ s.part.darns, b.key ≠ keyOf h f.payload) → keyClosed (viewOf s (ownerOf s h)) h f.payload = false →
       fragIdx f < h.k + h.m → (s.part.darns.filter (fun b => b.die == fragDie s h)).length < darnShare s →
        ∃ t b, exec (.fragmentArrival f) s = .next t ∧ t.part.darns = s.part.darns ++ [b] ∧ b.key = keyOf h f.payload ∧
          b.frags = [(fragIdx f, f.payload)] ∧ b.ov = h.ov ∧ b.state = fillState h 1 ∧ b.die = fragDie s h ∧
          b.owner = ownerOf s h)) ∧
  (∀ (s : State) (n : Nat) (b : Darn), s.part.darns[n]? = some b →
      (b.state = .decoding →
        ∃ t, exec (.darnDecode n) s = .next t ∧
          t.part.darns = s.part.darns.set n { b with state := .ready, data := darnMessage b }) ∧
      (b.state = .ready → b.hd.tc = 3 ∨ b.hd.tc = 4 →
        ∃ t, exec (.messageDelivery n) s = .next t ∧ t.part.msgsIn = s.part.msgsIn ++ [(b.key, b.data)] ∧
          t.part.darns = s.part.darns.filter (fun x => x.key != b.key) ∧
          t.part.closed = s.part.closed.filter (fun k => !keyPassed b.key k) ++ [b.key]) ∧
      (b.state = .ready → b.hd.tc = 2 → isReport (leNat (b.data.take 8)) = false →
        exec (.messageDelivery n) s = exec (.outcomeArrival (w64 (leNat (b.data.take 8)))) (freeDarn s b true)) ∧
      (∀ i c x, b.state = .ready → b.hd.tc = 0 → b.hd.dvc = s.vc.id → b.owner = launchTag s → collOf s b.hd = some (i, c) →
        c.failed = false → c.chunks[chunkPlace s c b.hd]? = some x → chunkWaits s b.hd x = true →
          ∃ t c2 l, exec (.messageDelivery n) s = .next t ∧
            t.part.darns = s.part.darns.map (fun y => if y = b then { b with state := .delivering } else y) ∧
            t.vc.colls = s.vc.colls.set i c2 ∧ c2.lands = c.lands ++ l ∧
            c2.chunks = listSet c.chunks (chunkPlace s c b.hd) { x with stage := 4 }) ∧
      (darnFailed s b = true → b.vc = some s.vc.id → b.owner = launchTag s →
        ∃ t g, exec (.unrecoverableLoss n) s = .next t ∧ t.vc.faults = s.vc.faults ++ [g] ∧ g.cause = 0x27 ∧ g.src = 7 ∧
          t.part.darns = s.part.darns.filter (fun x => x.key != b.key)) ∧
      (darnFailed s b = true → b.vc = none →
        ∃ t, exec (.unrecoverableLoss n) s = .next t ∧ t.vc.faults = s.vc.faults ∧
          mget 0 t.part.counts 0x327 = Nat.min (2 ^ 64 - 1) (mget 0 s.part.counts 0x327 + 1))) ∧
  (∀ (s : State) (n : Nat) (c : Coll), s.vc.colls[n]? = some c →
      (collFailed s c = true → c.failed = false →
        ∃ t g, exec (.unrecoverableLoss (s.part.darns.length + n)) s = .next t ∧ t.vc.faults = s.vc.faults ++ [g] ∧
          g.cause = 0x27 ∧ g.name = c.name ∧ t.vc.colls = s.vc.colls.set n { c with failed := true }) ∧
      (c.sent = false → c.failed = false → c.start + c.read ≤ s.vc.now → frozenNow s = false → s.vc.claims = [] →
        let lo := 128 * c.read
        ∃ t c2, exec (.collectiveSourceRead n) s = .next t ∧ t.vc.colls = s.vc.colls.set n c2 ∧ c2.read = c.read + 1 ∧
          c2.src = c.src ++ (countUp (descSoff c.desc + lo) (Nat.min 128 (srcBytes c - lo))).map (fun a => mget 0 s.vc.chip a) ∧
          c2.sent = decide (srcBytes c ≤ lo + 128) ∧ t.vc.chip = s.vc.chip ∧
          (lo + 128 < srcBytes c → t.part.outbox = s.part.outbox)) ∧
      (∀ b w, frozenNow s = false → c.failed = false → collHeld s c = false → s.mover ≠ .inbound → c.lands = [] →
        c.mbox = some (b, w) → b ≤ s.vc.now →
        ∃ t, exec (.collectiveDelivery n) s = .next t ∧ mr t (descMbox c.desc) = w ∧ t.vc.chip = s.vc.chip) ∧
      (∀ p : CLand, frozenNow s = false → c.failed = false → collHeld s c = false → s.vc.claims = [] → c.lands = [p] →
        p.beat ≤ s.vc.now → p.data.length ≤ 128 → c.mbox = none →
        ∃ t, exec (.collectiveDelivery n) s = .next t ∧
          (∀ i, i < p.data.length → mget 0 t.vc.chip (p.off + i) = listAt 0 p.data i) ∧
          (∀ o, o < p.off ∨ p.off + p.data.length ≤ o → mget 0 t.vc.chip o = mget 0 s.vc.chip o) ∧
          (c.sent = true → (∀ x ∈ c.chunks, x.stage = 4) → descEv c.desc = false → t.vc.colls = s.vc.colls.eraseIdx n))) ∧
  (∀ (s : State) (n : Nat) (w : Window), s.part.windows[n]? = some w → w.sent ≠ 0 →
      let after := (s.part.windows.map (fun x => if x = w then { w with sent := w.sent - 1, held := w.held.drop 1 } else x)).filter
        (fun x => !(x.dropped && x.sent == 0))
      (w.atHome s = false →
        ∃ t, exec (.windowFlushApply n) s = .next t ∧ t.part.windows = after ∧ t.part.mem = s.part.mem) ∧
      (∀ ds, w.atHome s = true → w.owner = launchTag s → readyFlush s w = some ds → (applyFlush s w ds).isSome = true →
        ∃ t, exec (.windowFlushApply n) s = .next t ∧ t.part.windows = after ∧
          t.part.darns = s.part.darns.filter (fun d => !(ds.map (fun d => d.key)).contains d.key) ∧
          ∀ d ∈ ds, d.key ∈ t.part.closed)) ∧
  (∀ (s : State) (port : BitVec 6), port.toNat < 36 →
      (∃ t, exec (.linkDown port) s = .next t ∧ mget false t.dev.ready (72 + port.toNat) = false ∧
        t.dev.links = s.dev.links.filter (fun p => p != port.toNat) ∧
        ∀ k, k ≠ 72 + port.toNat → mget false t.dev.ready k = mget false s.dev.ready k) ∧
      (∃ t, exec (.linkUp port) s = .next t ∧ mget false t.dev.ready (72 + port.toNat) = true ∧ port.toNat ∈ t.dev.links ∧
        ∀ k, k ≠ 72 + port.toNat → mget false t.dev.ready k = mget false s.dev.ready k)) ∧
  (∀ (s : State) (d : Drain) (rest : List Drain), s.part.drains = d :: rest →
      (∀ bk, drainNext s d = some bk →
        (∀ src, drainSource (touch s bk) bk d.gen = some src → drainPoisoned (touch s bk) bk src = false) →
        ∃ t d2, exec .drainEngineTransfer s = .next t ∧ t.part.drains = d2 :: rest ∧ d2.left = d.left.erase bk ∧
          d2.gen = d.gen ∧ d2.sent = d.sent + (if (drainSource (touch s bk) bk d.gen).isSome then 1 else 0)) ∧
      (d.left = [] → d.recs ≠ [] → drainNext s d = none →
        ∃ t d2, exec .drainEngineTransfer s = .next t ∧ t.part.drains = d2 :: rest ∧ d2.recs = [] ∧ d2.left = [] ∧
          d2.gen = d.gen ∧ d2.sent = d.sent ∧ d2.out = d.out ++ d.recs.flatMap (drainPieces s)) ∧
      (d.left = [] → d.recs = [] → s.vc.id = 0 → s.launch.live = true → s.launch.mode = .lockstep →
       d.owner = launchTag s →
        ∃ t x, exec .drainAcknowledge s = .next t ∧ t.part.drains = rest ∧ t.part.acked = s.part.acked ++ [d.gen] ∧
          t.vc.eng.evIn = s.vc.eng.evIn ++ [x] ∧ x.beat = s.vc.now ∧ x.w1 = w64 d.sent ∧ fld x.w0 15 12 = 4 ∧
          fld x.w0 7 0 = 1 ∧ fld x.w0 39 24 = d.gen % 2 ^ 16)) ∧
  (∀ (s : State) (ep g : Nat) (dr : Bool), s.part.openEp = some (ep, g, dr) → s.part.voted = false → s.part.dstops = [] →
      (voteFlags s ≠ 0 ∨ (s.launch.live = true ∧ (∀ v ∈ s.vcs, v.tx.state = 2 ∧ v.settled = true) ∧ drainHold s g = false) →
        (∀ f ∈ s.part.outbox, (headOfFrag f).tc ≠ 2) →
        ∃ t fs, exec .deviceVoteSend s = .next t ∧ t.part.voted = true ∧ t.part.outbox = s.part.outbox ++ fs ∧
          ∀ f ∈ fs, (headOfFrag f).tc = 2 ∧
            f.payload.take 8 = leBytes (voteLoss s * 2 ^ 32 + g * 65536 + voteFlags s) 8) ∧
      (voteFlags s = 0 → s.part.endVoted = false → (∃ v ∈ s.vcs, v.tx.state ≠ 2) → exec .deviceVoteSend s = .next s))

/-- R332, R335 to R340, R344, R347, R351, R385, R387: what the events of the scheduler do: the opening alignment, a write of a
tail, a decision and the end of a quantum, a dispatch, a launch packet, the end of a launch, a request and a forced save. The model's
choices: what a device of a launch on several devices does about a request (log 72), a dispatch that an unreadable slot ends (log 92,
shut out here), and that a forced save which meets an open step leaves the launch live and frozen, its waiting device vote with flag 7
(log 22). -/
def Obligations.LaunchEvents : Prop :=
  (∀ (s : State), s.launch.live = true → (∀ v ∈ s.vcs, v.run ≠ .running) → (∃ v ∈ s.vcs, v.run = .aligning) →
      s.launch.resume = none → s.launch.kept = false →
        ∃ t, exec .openingAlignmentBarrier s = .next t ∧ t.vcs.map (fun (v : VC) => v.id) = s.vcs.map (fun (v : VC) => v.id) ∧
          ∀ v ∈ t.vcs, v.run ≠ .aligning ∧ v.now = 0 ∧ v.eng.credit = 32768 ∧ ∀ q, (v.eng.q q).next = 0) ∧
  (∀ (s : State) (fn : BitVec 5) (q : BitVec 15) (v : BitVec 32), fn.toNat = s.part.idx + 1 → qPart s q.toNat = s.part.idx →
      (tailOk s q.toNat v.toNat = true →
        ∃ t, exec (.queueTailWrite fn q v) s = .next t ∧ qtail t q.toNat = v.toNat ∧
          qprogress t q.toNat = qprogress s q.toNat ∧ t.dev.replies = s.dev.replies ++ [(0, [])] ∧ t.part.mem = s.part.mem) ∧
      (tailOk s q.toNat v.toNat = false → exec (.queueTailWrite fn q v) s = .next (reply s .refused))) ∧
  (∀ (s : State) (i : Instr), i = .schedulerDecision ∨ (i = .quantumEnd ∧ 2 ^ 18 ≤ s.part.quantum) →
      s.part.ex = false → s.launch.req = none → s.launch.resume = none → s.launch.inPlace = false → s.part.chosen = none →
        let s0 := takeClasses { s with part.decision := false }
        (∀ q, s.launch.live = false → choose s0 = some q →
          ∃ t, exec i s = .next t ∧ t.part.chosen = some q ∧ t.launch = s.launch ∧ t.dev.classes = s0.dev.classes) ∧
        (∀ q, s.launch.live = true → choose s0 = some q → q ≠ s.launch.queue → slotFree s = true → s.launch.multi = false →
          ∃ t, exec i s = .next t ∧ t.part.chosen = some q ∧ t.launch.req = some s.vc.now ∧ t.dev.classes = s0.dev.classes) ∧
        (∀ q, s.launch.live = true → choose s0 = some q → q = s.launch.queue ∨ slotFree s = false →
          ∃ t, exec i s = .next t ∧ t.part.chosen = none ∧ t.launch.req = none ∧ t.part.quantum = 0 ∧
            qPass t s.launch.queue = (qPass s s.launch.queue + qStride s0 s.launch.queue) % 2 ^ 64)) ∧
  (∀ (s : State) (q : BitVec 15),
      let n := q.toNat
      let c := qprogress s n
      let pa := fld (qword s n 0) 55 0 + 64 * (c % qslots s n)
      let r := slotWords { s with part.chosen := none } pa
      let d := r.2
      s.launch.live = false → mayDispatch s = true → eligible s n = true → (∀ x ∈ s.part.saved, x.queue ≠ n) →
      pa + 64 ≤ s.cp → poisoned s pa = false → (∀ i, i < 8 → slotWordOk d i = true) → footprintOk r.1 d = true → fld (descW d 2) 55 0 = 0 →
        ∃ t, exec (.launchDispatch q) s = .next t ∧ t.launch.live = true ∧ t.launch.queue = n ∧ t.launch.slot = c ∧
          t.launch.mode = (if fld (descW d 4) 0 0 = 1 then .elastic else .lockstep) ∧
          t.part.x = fld (descW d 4) 63 48 ∧ t.vcs.map (fun (v : VC) => v.id) = s.vcs.map (fun (v : VC) => v.id) ∧
          qPass t n = (qPass s n + qStride s n) % 2 ^ 64 ∧
          ∀ v ∈ t.vcs, v.ctl.pc = w64 (fld (descW d 0) 55 0) ∧ v.run ≠ .idle ∧
            mget 0 v.ctl.x 3 = w64 (fld (descW d 1) 55 0) ∧ mget 0 v.ctl.x 4 = w64 (fld (descW d 4) 29 21) ∧
            (∀ r, r ≠ 3 → r ≠ 4 → mget 0 v.ctl.x r = 0) ∧ v.ctl.tokmap = 0x6194 ∧ v.ctl.lossLimit = 0x7F800000 ∧
            v.chip = [] ∧ v.z = [] ∧ v.g = [] ∧ v.b = [] ∧ v.eng.flights = [] ∧ v.faults = []) ∧
  (∀ (s : State) (q : BitVec 15) (ws : List Word64),
      let n := q.toNat
      let o := qtail s n
      let pa := fld (qword s n 0) 55 0 + 64 * (o % qslots s n)
      qPart s n = s.part.idx → s.part.bound = true → tailOk s n ((o + 1) % 2 ^ 32) = true → pa + 64 ≤ s.cp → ws.length = 8 →
        ∃ t, exec (.launchPacketReceive q ws) s = .next t ∧ qtail t n = (o + 1) % 2 ^ 32 ∧
          qprogress t n = qprogress s n ∧ (slotWords t pa).2 = ws ∧
          (∀ a, a < pa ∨ pa + 64 ≤ a → physByte t a = physByte s a)) ∧
  (∀ (s : State), s.launch.live = true → (∀ v ∈ s.vcs, v.finished s = true ∧ v.atomics = [] ∧ (v.fifo = [] ∨ v.settled = true)) →
      let q := s.launch.queue
      let cb := fld (qword s q 1) 55 0 + 16 * (s.launch.slot % qslots s q)
      cb + 16 ≤ s.cp →
        ∃ t, exec .launchCompletion s = .next t ∧ t.launch.live = false ∧ qprogress t q = (s.launch.slot + 1) % 2 ^ 32 ∧
          qtail t q = qtail s q ∧ leNat (physRead t cb 16) = s.launch.slot % 2 ^ 32 * 2 ^ 32 ∧
          (∀ v ∈ t.vcs, v.run = .idle) ∧ t.vc.ctl.x = s.vc.ctl.x ∧ t.vc.chip = s.vc.chip) ∧
  (∀ (s : State), s.launch.live = true → s.launch.req = none →
      (s.launch.multi = false → exec .preemptionRequest s = .next { s with launch.req := some s.vc.now }) ∧
      (s.launch.multi = true → isJobLead s = true →
        exec .preemptionRequest s = .next { s with
          launch.req := some (s.vc.now + Config.reportLead),
          part.reports := s.part.reports ++ [reportWord 0 (s.vc.now + Config.reportLead)] }) ∧
      (s.launch.multi = true → isJobLead s = false →
        exec .preemptionRequest s = .next { s with part.reports := s.part.reports ++ [reportWord 2 s.vc.now] })) ∧
  (∀ (s : State), deadlinePassed s = true →
      ((∀ v ∈ s.vcs, v.tx.state ≠ 1 ∧ v.tx.state ≠ 2 ∧ (v.fifo = [] ∨ v.settled = true)) → slotFree s = true →
        ∃ t x, exec .forcedSave s = .next t ∧ x ∈ t.part.saved ∧
          t.part.saved.map (fun (y : Saved) => y.tag) = s.part.saved.map (fun (y : Saved) => y.tag) ++ [x.tag] ∧ x.forced = true ∧
          x.queue = s.launch.queue ∧ x.launch.frozen.isSome = true ∧ x.vcs.length = s.vcs.length ∧ t.launch.live = false) ∧
      ((∃ v ∈ s.vcs, v.tx.state = 1 ∨ v.tx.state = 2) →
        ∃ t, exec .forcedSave s = .next t ∧ t.launch.live = true ∧ t.launch.frozen.isSome = true ∧
          (∀ v ∈ t.vcs, v.tx.state = 1 → v.tx.vote.getLsbD 7 = true ∧ v.tx.preempted = true) ∧
          (∀ v ∈ s.vcs, v.tx.state = 2 → v ∈ t.vcs) ∧ (voteStuck s = true → t.part.devVote.testBit 7 = true)))

/-- R312, R331, R354, R356, R357, R365, R382, R387, R395, R397, R403, R406, R409, R411 to R413: what the control link and the
root do: the registers that their values enter, those that are read only, PCTL, a reset's end, a new layout, the energy and the
counters, quotes, images, power-on and the restart of the device. The model's choices: a reset's scrub leaves memory as bytes that read
zero (log 3), the identification word's low byte (log 1), what is quoted (log 10), which steps of a reset follow at once (log 28), that a
write of a register that is read only is refused (log 29), the refusal of a layout without a live slice (log 39), a write of the tree generation alone while
collectives run (log 74), keys and signatures (log 83), the images of a VF or of an unpowered device (log 98), and the order in which the
monitor brings the device up (log 97). -/
def Obligations.RegisterEvents : Prop :=
  (∀ (s : State) (fn : BitVec 5) (v : Word64), fn.toNat = s.part.idx + 1 → partQuiet s = true →
      let takes (r : Reg) (P : State → Prop) : Prop :=
        ∃ t, exec (.registerWrite fn r v) s = .next t ∧ P t ∧ t.dev.replies = s.dev.replies ++ [(0, [])] ∧
          t.part.mem = s.part.mem
      (v.toNat < 2 ^ 56 → v.toNat % 2 ^ 11 = 0 → takes .ptroot (fun t => t.part.ptroot = v)) ∧
      (v.toNat < 2 ^ 56 → v.toNat % 2 ^ 17 = 0 → takes .vsbase (fun t => t.part.vsbase = v)) ∧
      (v.toNat < 2 ^ 56 → v.toNat % 2 ^ 17 = 0 → takes .vsize (fun t => t.part.vsize = v)) ∧
      (4096 ≤ v.toNat → v.toNat < 2 ^ 24 → takes .dlallow (fun t => t.part.dlallow = v.toNat)) ∧
      (v.toNat < 2 ^ 56 → v.toNat % 2 ^ 16 = 0 → takes .ctxbase (fun t => t.part.ctxbase = v)) ∧
      takes .ctxn (fun t => t.part.ctxn = v &&& 0xFF) ∧
      takes .equota (fun t => t.part.equota = v) ∧
      (∀ n hi, bpOk hi v = true →
        takes (.bp n hi) (fun t => mget 0 t.part.bp (2 * n.toNat + b2n hi) = v &&& bpMask hi)) ∧
      (∀ g rest, g.toNat < groupCount s → groupOk s g.toNat (v :: rest) = true →
        (groupBusy s g.toNat = false →
          takes (.group g rest) (fun t => ∀ i, i < 8 → groupWord t g.toNat i = listAt 0 (v :: rest) i)) ∧
        ∃ t, exec (.registerWrite fn (.group g rest) v) s = .next t ∧
          ∀ i, i < 8 → groupWord t g.toNat i = listAt 0 (v :: rest) i) ∧
      (∀ r ∈ [Reg.ident, .ready false, .ready true], exec (.registerWrite fn r v) s = .next (reply s .refused)) ∧
      (∀ r ∈ [Reg.retire, .drainctl, .mr 0], exec (.registerWrite fn r v) s = .next (reply s .notPermitted))) ∧
  (∀ (s : State) (fn : BitVec 5) (v : Word64), fn = 0 →
      (drainctlOk v = true → anyDrain s = false →
        ∃ t, exec (.registerWrite fn .drainctl v) s = .next t ∧ t.dev.drainctl = v) ∧
      (∀ q : BitVec 15, qPart s q.toNat = s.part.idx → queueWordOk s q.toNat 0 v = true →
        ∃ t, exec (.registerWrite fn (.queueRec q 0) v) s = .next t ∧ qword t q.toNat 0 = v) ∧
      exec (.registerWrite fn .ptroot v) s = .next (reply s .notPermitted)) ∧
  (∀ (s : State) (fn : BitVec 5) (q : BitVec 4) (v : Word64), fn = 0 ∨ fn.toNat = q.toNat + 1 → q.toNat = s.part.idx →
      v.toNat < 2 ^ 8 → v.toNat / 4 % 8 = 0 → s.part.reset = none →
        (v.toNat % 4 = 1 → s.part.bound = false → partReady s = true → otherWeights s ≤ 256 →
          ∃ t, exec (.pctlBind fn q v) s = .next t ∧ t.part.bound = true ∧ t.part.scrub = v.getLsbD 5 ∧
            t.part.pw = Nat.min (256 / s.m) (256 - otherWeights s) ∧ t.dev.replies = s.dev.replies ++ [(0, [])]) ∧
        (v.toNat % 4 = 2 → s.part.bound = true → s.launch.live = false → s.part.saved = [] →
          ∃ t, exec (.pctlUnbind fn q v) s = .next t ∧ t.part.bound = false ∧ t.dev.replies = s.dev.replies ++ [(0, [])]) ∧
        (v.toNat % 4 = 3 →
          ∃ t, exec (.pctlReset fn q v) s = .next t ∧ t.part.reset = some s.vc.now ∧ t.part.wasBound = s.part.bound ∧
            t.part.openEp = none ∧ t.part.drains = [] ∧ (∀ c ∈ t.vcs, c.run = .idle ∧ c.ctl.x = [] ∧ c.chip = []) ∧
            t.dev.replies = s.dev.replies ++ [(0, [])])) ∧
  (∀ (s : State) (b : Nat), s.part.reset = some b → s.launch.live = false → s.part.saved = [] →
      ∃ t, exec .functionResetComplete s = .next t ∧ t.part.reset = none ∧ t.part.bound = s.part.wasBound ∧
        t.part.ptroot = 0 ∧ t.part.vsbase = 0 ∧ t.part.vsize = 0 ∧ t.part.hmask = [] ∧ t.part.groups = [] ∧
        t.part.windows = [] ∧ t.part.darns = [] ∧ t.part.counts = [] ∧
        (s.part.scrub = true → ∀ a, physByte t a = 0) ∧ ∀ c ∈ t.vcs, c.run = .idle ∧ c.ctl.x = [] ∧ c.chip = []) ∧
  (∀ (s : State) (fn : BitVec 5) (v : Word64),
      (fn = 0 → v.toNat < 5 → allIdle s = true → slicesLive (newLayout s v.toNat) = true →
        ∃ t, exec (.playoutWrite fn v) s = .next t ∧ t.dev.lq = v.toNat ∧ t.others.length + 1 = 2 ^ v.toNat ∧
          t.part.bound = false ∧ t.dev.replies = s.dev.replies ++ [(0, [])]) ∧
      (fn = 0 → 5 ≤ v.toNat ∨ allIdle s = false ∨ slicesLive (newLayout s v.toNat) = false → exec (.playoutWrite fn v) s = .next (reply s .refused)) ∧
      (fn ≠ 0 → exec (.playoutWrite fn v) s = .next (reply s .notPermitted))) ∧
  (∀ (s : State) (fn : BitVec 5) (c : Counter) (v : Word64), fn.toNat = s.part.idx + 1 →
      (v = 0 →
        (∃ t, exec (.eusedClear fn v) s = .next t ∧ t.part.spent = 0 ∧ t.part.shared = 0 ∧
          t.dev.replies = s.dev.replies ++ [(0, [])]) ∧
        (∃ t, exec (.counterClear fn c v) s = .next t ∧ mget 0 t.part.counts (counterKey c) = 0 ∧
          (∀ k, k ≠ counterKey c → mget 0 t.part.counts k = mget 0 s.part.counts k))) ∧
      (v ≠ 0 → exec (.eusedClear fn v) s = .next (reply s .refused) ∧
        exec (.counterClear fn c v) s = .next (reply s .refused))) ∧
  (∀ (s : State) (nonce : List (BitVec 8)),
      (nonce.length = 32 → exec (.quoteRequest nonce) s =
        .next (reply s .done (Config.quote [mrOf s 0, mrOf s 1, mrOf s 2, mrOf s 3] s.dev.ident nonce))) ∧
      (nonce.length ≠ 32 → exec (.quoteRequest nonce) s = .next (reply s .refused))) ∧
  (∀ (s : State) (img : Image), s.dev.powered = true →
      (img.fn = 0 → imageOkay img = true →
        ∃ t, exec (.firmwareImage img) s = .next t ∧ img ∈ t.dev.images ∧ t.dev.replies = s.dev.replies ++ [(0, [])] ∧
          (img.kind = .monitor ∨ (bootImages s .monitor ≠ [] ∧ s.dev.training = none) →
            mget 0 t.dev.versions (imageKind img.kind) = img.version.toNat ∧
            mrOf t (imageMr img.kind) = sha384 (mrOf s (imageMr img.kind) ++ sha384 img.bytes))) ∧
      (img.fn = 0 → imageOkay img = false → exec (.firmwareImage img) s = .next (reply s .refused)) ∧
      (img.fn ≠ 0 → exec (.firmwareImage img) s = .next (reply s .notPermitted))) ∧
  (∀ (s : State) (img : Image), s.dev.powered = false → exec (.firmwareImage img) s = .next s) ∧
  (∀ (s : State),
      (s.dev.powered = false →
        (bootImages s .monitor = [] → exec .powerOn s = .next { s with dev.mr := [], dev.powered := true }) ∧
        ∀ m, bootImages s .monitor = [m] →
          ∃ t, exec .powerOn s = .next t ∧ t.dev.powered = true ∧ t.dev.ready = s.dev.ready ∧
            mrOf t 0 = sha384 (List.replicate 48 0 ++ sha384 m.bytes) ∧ (∀ i, i ≠ 0 → mrOf t i = List.replicate 48 0) ∧
            t.dev.training = some (countUp 64 8 ++ (countUp 0 64).filter (clusterSound s))) ∧
      (s.dev.powered = true → exec .powerOn s = .next s) ∧
      (∃ t, exec .managementResetRequest s = .next t ∧ t.dev.powered = true ∧ t.dev.lq = 0 ∧ t.dev.ident = 0x4E4C0B00 ∧
        t.part.bound = false ∧ t.part.mem = [] ∧ t.launch.live = false ∧ t.others = [] ∧ t.inbox = s.inbox ∧
        t.dev.images = s.dev.images) ∧
      (∃ t, exec .correctedErrorWindowEnd s = .next t ∧ t = { s with dev.corrected := [] }) ∧
      (∀ fn : BitVec 5, fn.toNat = s.part.idx + 1 → ∃ w x, registerRead s fn .pctl = reply s .done [w] ∧
        fld w 7 6 = (if s.part.reset.isSome then 3 else if s.part.bound then 2 else 1) ∧ fld w 5 5 = b2n s.part.scrub ∧
        fld w 1 0 = 0 ∧ fld w 4 2 = 0 ∧ fld w 63 8 = 0 ∧
        registerRead s fn .estat = reply s .done [x] ∧ fld x 0 0 = b2n s.part.ex ∧ fld x 7 1 = 0 ∧ fld x 63 32 = 0 ∧
        (s.part.pw < 256 → fld x 15 8 = s.part.pw) ∧ (s.part.cset < 2 ^ 16 → fld x 31 16 = s.part.cset)) ∧
      (∀ (fn : BitVec 5) (q : Nat), fn.toNat = qPart s q + 1 → q < 32768 →
        registerRead s fn (.progress q) = reply s .done [w64 (qprogress s q)] ∧
        registerRead s fn (.tail q) = reply s .done [w64 (qtail s q)]) ∧
      (∀ (fn : BitVec 5) (g : Nat), fn.toNat = s.part.idx + 1 → g < groupCount s →
        registerRead s fn (.group g) = reply s .done ((List.range 8).map (groupWord s g))))

/-- R109, R110, R359, R363, R364, R374, R389, R391, R393, R399, R403, R404: what the events of energy, trace and debug do: charges
and shares enter their accounts, a coefficient set takes effect, a breakpoint counts or acts, a trace is set or stops, a stop
ends, a die's clock stretches, a trap is entered once its stop has formed, and the Collie's mismatch puts CTL back. The model's choices:
what the Collie's roll-back restores beside the registers that the rule names (logs 32, 95), that a second change of stretch takes the
place of one that waits (log 75), and where a debug stop holds a CTL instruction (log 54). -/
def Obligations.EnergyAndDebug : Prop :=
  (∀ (s : State) (c : Charge) (r : List Charge), s.part.charges = c :: r →
      (c.vc = some s.vc.id → c.owner = launchTag s → s.launch.live = true →
        ∃ t, exec .chargeEntry s = .next t ∧ t.vc.acct = s.vc.acct + c.amount ∧ t.part.spent = s.part.spent + c.amount ∧
          t.part.charges = r ∧ t.dev.overhead = s.dev.overhead) ∧
      (∀ n x, c.vc = some n → s.part.saved = [x] → c.owner = some x.tag → c.owner ≠ launchTag s →
        ∃ t y, exec .chargeEntry s = .next t ∧ t.vc = s.vc ∧ t.part.spent = s.part.spent + c.amount ∧ t.part.charges = r ∧
          t.part.saved = [y] ∧
          y.vcs.map (fun (v : VC) => v.acct) = x.vcs.map (fun (v : VC) => if v.id = n then v.acct + c.amount else v.acct)) ∧
      (c.vc = none →
        ∃ t, exec .chargeEntry s = .next t ∧ t.dev.overhead = s.dev.overhead + c.amount ∧ t.part.charges = r ∧
          t.part.spent = s.part.spent ∧ t.vc.acct = s.vc.acct)) ∧
  (∀ (s : State) (ref leak pidle : Nat), s.others = [] →
      let share := sharesOf s s.part ref leak pidle
      ∃ t, exec (.accountingIntervalEnd ref leak pidle) s = .next t ∧ t.part.shared = s.part.shared + share ∧
        t.dev.overhead = s.dev.overhead + (ref + leak + pidle - share)) ∧
  (∀ (s : State) (n : Nat) (l : List Nat), s.part.nextCoefs = some (n, l) →
      (s.part.openEp = none → exec .coefficientSetEffect s =
        .next { s with part.cset := n, part.coefs := l, part.nextCoefs := none }) ∧
      (s.part.openEp ≠ none → exec .coefficientSetEffect s = .next s)) ∧
  (∀ (s : State) (n : BitVec 3),
      let w0 := bpWord s n.toNat false
      let w1 := bpWord s n.toNat true
      (bpHead s n.toNat = none → exec (.breakpointHit n) s = .next s) ∧
      (bpHead s n.toNat ≠ none → fld w1 63 32 ≠ 0 →
        ∃ t, exec (.breakpointHit n) s = .next t ∧ bpWord t n.toNat true = w1 - w64 (2 ^ 32) ∧
          t = { s with part.bp := t.part.bp }) ∧
      (∀ unit name sb, bpHead s n.toNat = some (unit, name, sb) → fld w1 63 32 = 0 →
        (fld w0 62 60 = 2 → s.part.samples.length < 16 →
          ∃ t, exec (.breakpointHit n) s = .next t ∧ t = { s with part.samples := s.part.samples ++ [(s.vc.id, [name])] }) ∧
        (fld w0 62 60 = 1 → s.launch.mode = .elastic →
          ∃ t, exec (.breakpointHit n) s = .next t ∧ unit ∈ t.vc.stop ∧ (∀ u ∈ t.vc.stop, u = unit ∨ u ∈ s.vc.stop) ∧
            (s.part.dstops = [] → t.part.dstops = [(s.vc.id, [name])]) ∧
            t = { s with vc.stop := t.vc.stop, part.dstops := t.part.dstops }) ∧
        (fld w0 62 60 = 1 → s.launch.mode = .lockstep →
          ∃ t, exec (.breakpointHit n) s = .next t ∧ (unit = 0 → 0 ∈ t.vc.stop) ∧ (unit ≠ 0 → t.vc = s.vc) ∧
            (s.launch.frozen = none → t.launch.frozen = some (if unit = 0 ∨ sb ≤ s.vc.now then s.vc.now else sb - 1)) ∧
            t.part.dstops.map (fun p => p.1) = s.vcs.map (fun (v : VC) => v.id)))) ∧
  (∀ (s : State) (die : BitVec 2),
      ((traceOf s die.toNat).left = some 0 →
        ∃ t, exec (.traceStop die) s = .next t ∧ (traceOf t die.toNat).recording = false ∧ (traceOf t die.toNat).left = none ∧
          (traceOf t die.toNat).recs = (traceOf s die.toNat).recs) ∧
      ((traceOf s die.toNat).left ≠ some 0 → exec (.traceStop die) s = .next s)) ∧
  (∀ (s : State) (fn : BitVec 5) (die : BitVec 2) (v : Word64),
      (fn = 0 → v.toNat < 2 ^ 8 →
        ∃ t, exec (.trctlWrite fn die v) s = .next t ∧ (traceOf t die.toNat).ctl &&& 0x7F = v &&& 0x7F ∧
          (traceOf t die.toNat).recording = (v.toNat / 16 % 4 == 1 || v.toNat / 16 % 4 == 3) ∧
          (traceOf t die.toNat).recs = [] ∧ t.dev.replies = s.dev.replies ++ [(0, [])]) ∧
      (fn = 0 → 2 ^ 8 ≤ v.toNat → exec (.trctlWrite fn die v) s = .next (reply s .refused)) ∧
      (fn ≠ 0 → exec (.trctlWrite fn die v) s = .next (reply s .notPermitted))) ∧
  (∀ (s : State) (fn : BitVec 5), fn.toNat = s.part.idx + 1 →
      (s.part.dstops = [] → exec (.debugResume fn) s = .next (reply s .done)) ∧
      (s.part.dstops ≠ [] →
        ∃ t, exec (.debugResume fn) s = .next t ∧ t.part.dstops = [] ∧ (∀ v ∈ t.vcs, v.stop = [] ∧ v.held = false) ∧
          t.dev.replies = s.dev.replies ++ [(0, [])] ∧ t.vc.ctl = { s.vc.ctl with fenceSeq := none })) ∧
  (∀ (s : State) (die : BitVec 2) (k : BitVec 5), k.toNat ≤ 16 →
      let old := mget stretchZero s.dev.stretch die.toNat
      ∃ t, exec (.stretchChange die k) s = .next t ∧
        (dieBusy s die.toNat = false → mget stretchZero t.dev.stretch die.toNat = ⟨k.toNat, none, 0⟩) ∧
        (dieBusy s die.toNat = true → (mget stretchZero t.dev.stretch die.toNat).k = old.k ∧
          (mget stretchZero t.dev.stretch die.toNat).pend = some k.toNat) ∧
        (∀ d, d ≠ die.toNat → mget stretchZero t.dev.stretch d = mget stretchZero s.dev.stretch d) ∧ t.vc = s.vc) ∧
  (∀ (s : State) (die : BitVec 2) (k : Nat),
      let old := mget stretchZero s.dev.stretch die.toNat
      old.pend = some k →
      (old.since + 65536 ≤ s.dev.refbeat →
        ∃ t, exec (.stretchForced die) s = .next t ∧ mget stretchZero t.dev.stretch die.toNat = ⟨k, none, 0⟩) ∧
      (s.dev.refbeat < old.since + 65536 → exec (.stretchForced die) s = .next s)) ∧
  (∀ (s : State) (f : FaultRec), s.vc.ctl.h = false → stopFormed s = true → nextFault s.vc.faults = some f →
      (s.launch.mode = .elastic ∨ s.launch.multi = false) → s.vc.ctl.tvec ≠ 0 →
      let pc := match f.tepc with
        | some p => p
        | none => s.vc.ctl.pc
      let s1 : State := { s with vc.faults := s.vc.faults.filter (fun g => g != f), vc.ctl.tcause := f.tcause,
                                 vc.ctl.tval := f.tval, vc.ctl.h := true, vc.ctl.tstep := s.vc.stepOpen,
                                 vc.ctl.tepc := w64 (pc.toNat % 2 ^ 56 / 4 * 4), vc.ctl.cur := some f,
                                 vc.ctl.fenceSeq := none, vc.ctl.matched := some 0, vc.ctl.was := s.vc.run,
                                 vc.run := .running, vc.ctlSeen := false }
      let frame := w64 ((xr s 2).toNat / 64 * 64) - 640
      let entered (t : State) : Prop :=
        keepsX s t ∧ t.vc.run = .running ∧ t.vc.ctl.was = s.vc.run ∧ t.vc.ctl.tcause = f.tcause ∧ t.vc.ctl.tval = f.tval ∧
          t.vc.ctl.h = true ∧ t.vc.ctl.tepc = w64 (pc.toNat % 2 ^ 56 / 4 * 4) ∧
          t.vc.ctl.pc = w64 (s.vc.ctl.tvec.toNat % 2 ^ 56 / 4 * 4)
      (storable s frame 640 → ∃ t, exec .trapEntry s = .next t ∧ entered t) ∧
      ∀ u, storeWords s1 frame (frameWords s1 f) = .ok u () →
        ∃ t, exec .trapEntry s = .next t ∧ entered t ∧ t.part.mem = u.part.mem ∧
          t.vc.dcache = u.vc.dcache ∧ t.launch.maps = u.launch.maps) ∧
  (∀ (s : State) (c : BitVec 4) (p : Past), comparedPast s.vc = some p → s.vc.ctl.h = false → p.ctl.h = false → s.launch.mode = .elastic →
      (∃ f ∈ s.vc.eng.flights, f.faulted = false ∧ f.chan = none ∧ f.ended = false ∧ f.entry.run = none ∧ f.entry.seq < p.nextSeq) →
      let core := physCore s (coreOf s s.vc.id)
      let n := Nat.min 255 (mget 0 s.dev.silent core + 1)
      (c.toNat ≠ 7 → c.toNat < 9 → ∃ t g, exec (.collieCompare (some c)) s = .next t ∧ t.vc.ctl.x = p.ctl.x ∧ t.vc.ctl.pc = p.ctl.pc ∧
        t.vc.ctl.flags = p.ctl.flags ∧ t.vc.ctl.instret = p.ctl.instret ∧ t.vc.dcache = p.dcache ∧ t.vc.faults = s.vc.faults ++ [g] ∧ g.cause = 0x2A ∧
        g.detail = c.toNat ∧ g.tepc = some p.ctl.pc ∧ mget 0 t.dev.silent core = n ∧
        (s.dev.retire.toNat ≤ n → core ∈ t.dev.marked)) ∧
      (c.toNat = 7 ∨ 9 ≤ c.toNat → exec (.collieCompare (some c)) s = .next s) ∧
      exec (.collieCompare none) s = .next s)

/-- R27 to R48: words written out field by field decode to the instruction they stand for, and a reserved major decodes to
none. -/
def Obligations.DecodeSamples : Prop :=
  let e : EngBits := { popP := false, popN := false, pushP := false, pushN := false, delay := 0, stamp := none, metaP := none }
  (∀ p ∈ ([(0x04304200, .add 3 1 2), (0x0854BFFF, .addi 5 18 0x3FFF none), (0x2C30E100, .fadd 3 3 33 false),
           (0x46180000, .ldN32 33 32 0 none), (0x84015001, .csrWr 0 5 1), (0x98314003, .zsetFmt 3 5),
           (0x9890C308, .zget 9 3 3), (0xA8214000, .ywr 2 5), (0xAC314200, .ccbWr 3 5 2), (0x8C208345, .amax 2 2 3 .f32),
           (0xF4002000, .evpost e), (0xE4011310, .efLog2 e 3 1),
           (0xD8065433, .vmax { e with delay := 3 } 4 3 3)] : List (Nat × Instr)),
    decodeTableWord 32 p.1 = some p.2) ∧
  ∀ m ∈ [0x00, 0x13, 0x2D, 0x2E, 0x2F, 0x3E, 0x3F], ∀ x, x < 2 ^ 26 → decodeTableWord 32 (m * 2 ^ 26 + x) = none

/-- A step runs the decoded instruction. CTL: where the words at pc decode to a CTL instruction, the step is its exec, with the
record of what retired after it (R389, R401), and the turn passes on; an engine word is routed. The breakpoints have looked at the
instruction (R403); with none set that changes nothing. A queue: where its head entry's word decodes to a well-formed instruction, the step
is its exec, with the note of what issued (R400) and the breakpoints after it, and the turn passes on. The hub: the oldest input from
outside takes place. -/
def Obligations.StepRuns : Prop :=
  (∀ (s s1 : State) (ws : List Word32) (p : Prefixes) (w : Word32) (n : Nat),
      s.mover = .ctl → s.vc.run = .running → s.vc.faults = [] → s.vc.stop = [] → s.vc.held = false → frozenNow s = false →
      s.upsets = [] → s.vc.ctlSeen = true → fetchWords s s.vc.ctl.pc 3 = .ok s1 ws → splitWords ws = .ok (p, w, n) →
      let after (o : Host.Outcome State Fault Refusal) : Host.Outcome State Fault Refusal :=
        andThen o (fun t => .next { noteRetired s t with mover := .post })
      (∀ i, engMajor (majorOf w).toNat = false → decodeWord p w = .ok i →
        step s = after (andThen (exec i s1) (fun t => .next (tellRetired s t)))) ∧
      (engMajor (majorOf w).toNat = true → step s = after (exec .engineWordRoute s)) ∧
      (s.part.bp = [] → step { s with vc.ctlSeen := false } = step s)) ∧
  (∀ (s : State) (q : Queue) (x : QEntry) (i : Instr),
      s.mover = .queue q → headOf s q = some x → x.bad = false →
      (q = .vx ∨ q = .fx ∨ q = .rx → x.shared = false ∧ sharedIssued s = false) →
      engMajor (majorOf x.word).toNat = true →
      decodeWord { imm := none, stamp := x.stamp, param := none, metaP := x.metaP } x.word = .ok i →
        (∀ t, exec i s = .next t →
          step s = andThen (noteHead q x s t) (fun u => .next { u with mover := (Mover.queue q).after }) ∧
          (t.part.bp = [] → ∃ k, noteHead q x s t = .next { t with vc.issuedNow := k })) ∧
        (∀ f, exec i s = .fault f → step s = .fault f) ∧ ∀ r, exec i s = .refused r → step s = .refused r) ∧
  (∀ (s t : State) (r : Row) (rest : List Input),
      s.mover = .hub → s.inbox = .row r :: rest → outsideRow r.row = true → r.part = s.part.idx → r.vc = s.vc.id →
      exec r.row { s with inbox := rest } = .next t → t.part.idx = s.part.idx → t.vc.id = s.vc.id → step s = .next t) ∧
  (∀ (s : State) (fn : BitVec 5) (r : ReadReg) (rest : List Input),
      s.mover = .hub → s.inbox = .read fn r :: rest → step s = .next (registerRead { s with inbox := rest } fn r)) ∧
  (∀ (s : State) (v : Word64) (rest : List Input),
      s.mover = .hub → s.inbox = .retire v :: rest → step s = .next { s with inbox := rest, dev.retire := v })

/-- Every step keeps the memory of every partition in its canonical form: addresses rise and no byte that reads zero is listed. -/
def Obligations.MemInvariant : Prop :=
  ∀ s t : State, s.memWf = true → step s = .next t → t.memWf = true

/-- R1, R242, R312, R354, R365, R382, R387, R393, R412: what the device holds at power-on: one partition, unbound, with no launch and
no reset under way, HMASK at its default, the identification word's low byte zero (the model's choice, log 1), PTROOT zero (the model's choice, log 2), DLALLOW 1,048,576, CTXBASE and CTXN zero, no quota, DRAINCTL with lat
1,048,576, kmax 32 and m 4, RETIRE 2, the measurement registers zero; and its memory stands in canonical form. -/
def Obligations.ResetState : Prop :=
  let s := State.reset
  s.dev.ident = 0x4E4C0B00 ∧ s.dev.lq = 0 ∧ s.dev.retire = 2 ∧ fld s.dev.drainctl 63 40 = 1048576 ∧
  fld s.dev.drainctl 9 4 = 32 ∧ fld s.dev.drainctl 3 0 = 4 ∧ (∀ i, mrOf s i = List.replicate 48 0) ∧
  s.others = [] ∧ s.part.bound = false ∧ s.part.reset = none ∧ s.launch.live = false ∧ s.part.saved = [] ∧
  (∀ i, hmaskOf s i = defaultMask 9 i) ∧ s.part.ptroot = 0 ∧ s.part.dlallow = 1048576 ∧ s.part.ctxbase = 0 ∧
  s.part.ctxn = 0 ∧ s.part.equota = BitVec.allOnes 64 ∧ s.part.openEp = none ∧ s.part.blocks = [] ∧
  (∀ v ∈ s.vcs, v.run = .idle) ∧ s.vcs.length = 1024 ∧ s.memWf = true
end

