-- ==== Sys2Proof/Laws/Maps.lean ====
section
/-! SUPPORT. The laws of sparse tables: a read after a write, and the canonical form. -/

set_option Elab.async false

namespace Sys2Proof.Laws

open Sys2Proof.Machine

variable {α : Type}

/-- What a table without k reads. -/
theorem mget_mdrop (d : α) (m : SMap α) (k j : Nat) : mget d (mdrop m k) j = if j = k then d else mget d m j := by
  induction m with
  | nil => simp [mdrop, mget]
  | cons p r ih =>
    obtain ⟨k', v⟩ := p
    by_cases h : k' = k <;> by_cases h2 : k' = j <;> simp_all [mdrop, mget]

/-- What a table reads after a write, whatever the table. -/
@[simp] theorem mget_mput [DecidableEq α] (d : α) (m : SMap α) (k j : Nat) (v : α) :
    mget d (mput d m k v) j = if j = k then v else mget d m j := by
  induction m with
  | nil => by_cases h : v = d <;> by_cases h2 : k = j <;> simp_all [mput, mget, eq_comm]
  | cons p r ih =>
    obtain ⟨k', w⟩ := p
    by_cases h : k' = k
    · by_cases h2 : j = k <;> simp_all [mput, mget]
      exact fun e => absurd e.symm h2
    · by_cases h3 : k < k' <;> simp only [mput, h, h3, if_true, if_false]
      · by_cases h5 : j = k
        · subst h5
          by_cases h4 : v = d <;> simp [h4, mget, mget_mdrop, h]
        · by_cases h4 : v = d <;> simp [h4, mget, mget_mdrop, h5, Ne.symm h5]
      · by_cases h2 : k' = j
        · subst h2; simp [mget, h]
        · simp [mget, h2, ih]

theorem mget_mput_same [DecidableEq α] (d : α) (m : SMap α) (k : Nat) (v : α) : mget d (mput d m k v) k = v := by simp

theorem mget_mput_ne [DecidableEq α] (d : α) (m : SMap α) {k j : Nat} (v : α) (h : j ≠ k) :
    mget d (mput d m k v) j = mget d m j := by simp [h]

/-! ### The canonical form -/

theorem mwfAbove_mono [DecidableEq α] (d : α) {lo lo' : Nat} (h : lo' ≤ lo) (m : SMap α) (hm : mwfAbove d lo m = true) :
    mwfAbove d lo' m = true := by
  cases m with
  | nil => rfl
  | cons p r =>
    obtain ⟨k, v⟩ := p
    simp only [mwfAbove, Bool.and_eq_true, decide_eq_true_eq] at hm ⊢
    exact ⟨⟨by omega, hm.1.2⟩, hm.2⟩

theorem mdrop_below [DecidableEq α] (d : α) {lo k : Nat} (m : SMap α) (hm : mwfAbove d lo m = true) (h : k < lo) :
    mdrop m k = m := by
  induction m generalizing lo with
  | nil => rfl
  | cons p r ih =>
    obtain ⟨k', v⟩ := p
    simp only [mwfAbove, Bool.and_eq_true, decide_eq_true_eq] at hm
    have : k' ≠ k := by omega
    simp [mdrop, this, ih hm.2 (by omega)]

theorem mwfAbove_mput [DecidableEq α] (d : α) {lo : Nat} (m : SMap α) (k : Nat) (v : α) (hm : mwfAbove d lo m = true) :
    mwfAbove d (min lo k) (mput d m k v) = true := by
  induction m generalizing lo with
  | nil => by_cases h : v = d <;> simp [mput, mwfAbove, h]
  | cons p r ih =>
    obtain ⟨k', w⟩ := p
    simp only [mwfAbove, Bool.and_eq_true, decide_eq_true_eq] at hm
    by_cases h : k' = k
    · subst h
      have := ih hm.2
      simp only [mput, if_true]
      exact mwfAbove_mono d (by omega) _ this
    · by_cases h3 : k < k'
      · have hd := mdrop_below d r hm.2 (show k < k' + 1 by omega)
        by_cases h4 : v = d
        · simp [mput, h, h3, h4, hd, mwfAbove, hm.1.2, hm.2]; omega
        · simp [mput, h, h3, h4, hd, mwfAbove, hm.1.2, hm.2]
      · have := ih hm.2
        simp only [mput, h, h3, if_false, mwfAbove, Bool.and_eq_true, decide_eq_true_eq]
        exact ⟨⟨by omega, hm.1.2⟩, mwfAbove_mono d (by omega) _ this⟩

/-- A write keeps the canonical form. -/
theorem mwf_mput [DecidableEq α] (d : α) (m : SMap α) (k : Nat) (v : α) (hm : mwf d m = true) :
    mwf d (mput d m k v) = true :=
  mwfAbove_mono d (Nat.zero_le _) _ (mwfAbove_mput d m k v hm)

theorem mwf_mputs [DecidableEq α] (d : α) (vs : List α) (m : SMap α) (k : Nat) (hm : mwf d m = true) :
    mwf d (mputs d m k vs) = true := by
  induction vs generalizing m k with
  | nil => exact hm
  | cons v r ih => exact ih _ _ (mwf_mput d m k v hm)

theorem mwfAbove_filter [DecidableEq α] (d : α) (f : Nat × α → Bool) {lo : Nat} (m : SMap α)
    (hm : mwfAbove d lo m = true) : mwfAbove d lo (m.filter f) = true := by
  induction m generalizing lo with
  | nil => rfl
  | cons p r ih =>
    obtain ⟨k, v⟩ := p
    simp only [mwfAbove, Bool.and_eq_true, decide_eq_true_eq] at hm
    by_cases h : f (k, v) = true
    · simp [List.filter, h, mwfAbove, hm.1, ih hm.2]
    · simp only [List.filter, h]
      exact mwfAbove_mono d (by omega) _ (ih hm.2)

/-- Dropping a range keeps the canonical form. -/
theorem mwf_mclear [DecidableEq α] (d : α) (m : SMap α) (lo hi : Nat) (hm : mwf d m = true) :
    mwf d (mclear m lo hi) = true := mwfAbove_filter d _ m hm

/-- Two canonical tables that read the same everywhere are the same data. -/
theorem mwf_ext [DecidableEq α] (d : α) (m n : SMap α) (hm : mwf d m = true) (hn : mwf d n = true)
    (h : ∀ k, mget d m k = mget d n k) : m = n := by
  have low : ∀ (lo : Nat) (m : SMap α), mwfAbove d lo m = true → ∀ k, k < lo → mget d m k = d := by
    intro lo m
    induction m generalizing lo with
    | nil => intros; rfl
    | cons p r ih =>
      obtain ⟨k', v⟩ := p
      intro hw k hk
      simp only [mwfAbove, Bool.and_eq_true, decide_eq_true_eq] at hw
      have : k' ≠ k := by omega
      simp [mget, this, ih _ hw.2 k (by omega)]
  have main : ∀ (m n : SMap α) (lo lo' : Nat), mwfAbove d lo m = true → mwfAbove d lo' n = true →
      (∀ k, mget d m k = mget d n k) → m = n := by
    intro m
    induction m with
    | nil =>
      intro n lo lo' _ hn h
      cases n with
      | nil => rfl
      | cons q r =>
        obtain ⟨k, v⟩ := q
        simp only [mwfAbove, Bool.and_eq_true, decide_eq_true_eq] at hn
        have := h k
        simp [mget] at this
        exact absurd this.symm hn.1.2
    | cons p r ih =>
      obtain ⟨k, v⟩ := p
      intro n lo lo' hm hn h
      cases n with
      | nil =>
        simp only [mwfAbove, Bool.and_eq_true, decide_eq_true_eq] at hm
        have := h k
        simp [mget] at this
        exact absurd this hm.1.2
      | cons q r' =>
        obtain ⟨k', v'⟩ := q
        simp only [mwfAbove, Bool.and_eq_true, decide_eq_true_eq] at hm hn
        have hk : k = k' := by
          rcases Nat.lt_trichotomy k k' with hlt | heq | hgt
          · have := h k
            have h2 : k' ≠ k := by omega
            simp only [mget, if_true, h2, if_false] at this
            rw [low _ _ hn.2 k (by omega)] at this
            exact absurd this hm.1.2
          · exact heq
          · have := h k'
            have h2 : k ≠ k' := by omega
            simp only [mget, if_true, h2, if_false] at this
            rw [low _ _ hm.2 k' (by omega)] at this
            exact absurd this.symm hn.1.2
        subst hk
        have hv : v = v' := by
          have := h k
          simpa [mget] using this
        subst hv
        have hr : ∀ j, mget d r j = mget d r' j := by
          intro j
          by_cases hj : k = j
          · subst hj
            rw [low _ _ hm.2 k (by omega), low _ _ hn.2 k (by omega)]
          · have := h j
            simpa [mget, hj] using this
        rw [ih r' _ _ hm.2 hn.2 hr]
  exact main m n 0 0 hm hn h

end Sys2Proof.Laws
end

