-- ==== Sys2Proof/Laws/State.lean ====
section
/-! SUPPORT. What each named update of the state leaves as it was, one lemma per field; all are true by unfolding. -/

set_option Elab.async false

namespace Sys2Proof.Machine

/-! ### Registers -/

@[simp] theorem setX_peers (s : State) (r : BitVec 6) (v : Word64) : (setX s r v).peers = s.peers := by
  unfold setX; split <;> rfl
@[simp] theorem setX_launch (s : State) (r : BitVec 6) (v : Word64) : (setX s r v).launch = s.launch := by
  unfold setX; split <;> rfl
@[simp] theorem setX_part (s : State) (r : BitVec 6) (v : Word64) : (setX s r v).part = s.part := by
  unfold setX; split <;> rfl
@[simp] theorem setX_others (s : State) (r : BitVec 6) (v : Word64) : (setX s r v).others = s.others := by
  unfold setX; split <;> rfl
@[simp] theorem setX_dev (s : State) (r : BitVec 6) (v : Word64) : (setX s r v).dev = s.dev := by
  unfold setX; split <;> rfl
@[simp] theorem setX_inbox (s : State) (r : BitVec 6) (v : Word64) : (setX s r v).inbox = s.inbox := by
  unfold setX; split <;> rfl
@[simp] theorem setX_upsets (s : State) (r : BitVec 6) (v : Word64) : (setX s r v).upsets = s.upsets := by
  unfold setX; split <;> rfl
@[simp] theorem setX_mover (s : State) (r : BitVec 6) (v : Word64) : (setX s r v).mover = s.mover := by
  unfold setX; split <;> rfl
@[simp] theorem setX_fresh (s : State) (r : BitVec 6) (v : Word64) : (setX s r v).fresh = s.fresh := by
  unfold setX; split <;> rfl
@[simp] theorem setX_vc_id (s : State) (r : BitVec 6) (v : Word64) : (setX s r v).vc.id = s.vc.id := by
  unfold setX; split <;> rfl
@[simp] theorem setX_vc_run (s : State) (r : BitVec 6) (v : Word64) : (setX s r v).vc.run = s.vc.run := by
  unfold setX; split <;> rfl
@[simp] theorem setX_vc_now (s : State) (r : BitVec 6) (v : Word64) : (setX s r v).vc.now = s.vc.now := by
  unfold setX; split <;> rfl
@[simp] theorem setX_vc_ctl_y (s : State) (r : BitVec 6) (v : Word64) : (setX s r v).vc.ctl.y = s.vc.ctl.y := by
  unfold setX; split <;> rfl
@[simp] theorem setX_vc_ctl_m (s : State) (r : BitVec 6) (v : Word64) : (setX s r v).vc.ctl.m = s.vc.ctl.m := by
  unfold setX; split <;> rfl
@[simp] theorem setX_vc_ctl_pc (s : State) (r : BitVec 6) (v : Word64) : (setX s r v).vc.ctl.pc = s.vc.ctl.pc := by
  unfold setX; split <;> rfl
@[simp] theorem setX_vc_ctl_flags (s : State) (r : BitVec 6) (v : Word64) : (setX s r v).vc.ctl.flags = s.vc.ctl.flags := by
  unfold setX; split <;> rfl
@[simp] theorem setX_vc_ctl_flagsIn (s : State) (r : BitVec 6) (v : Word64) : (setX s r v).vc.ctl.flagsIn = s.vc.ctl.flagsIn := by
  unfold setX; split <;> rfl
@[simp] theorem setX_vc_ctl_frm (s : State) (r : BitVec 6) (v : Word64) : (setX s r v).vc.ctl.frm = s.vc.ctl.frm := by
  unfold setX; split <;> rfl
@[simp] theorem setX_vc_ctl_instret (s : State) (r : BitVec 6) (v : Word64) : (setX s r v).vc.ctl.instret = s.vc.ctl.instret := by
  unfold setX; split <;> rfl
@[simp] theorem setX_vc_ctl_tvec (s : State) (r : BitVec 6) (v : Word64) : (setX s r v).vc.ctl.tvec = s.vc.ctl.tvec := by
  unfold setX; split <;> rfl
@[simp] theorem setX_vc_ctl_tepc (s : State) (r : BitVec 6) (v : Word64) : (setX s r v).vc.ctl.tepc = s.vc.ctl.tepc := by
  unfold setX; split <;> rfl
@[simp] theorem setX_vc_ctl_tcause (s : State) (r : BitVec 6) (v : Word64) : (setX s r v).vc.ctl.tcause = s.vc.ctl.tcause := by
  unfold setX; split <;> rfl
@[simp] theorem setX_vc_ctl_tval (s : State) (r : BitVec 6) (v : Word64) : (setX s r v).vc.ctl.tval = s.vc.ctl.tval := by
  unfold setX; split <;> rfl
@[simp] theorem setX_vc_ctl_tscratch (s : State) (r : BitVec 6) (v : Word64) : (setX s r v).vc.ctl.tscratch = s.vc.ctl.tscratch := by
  unfold setX; split <;> rfl
@[simp] theorem setX_vc_ctl_h (s : State) (r : BitVec 6) (v : Word64) : (setX s r v).vc.ctl.h = s.vc.ctl.h := by
  unfold setX; split <;> rfl
@[simp] theorem setX_vc_ctl_tstep (s : State) (r : BitVec 6) (v : Word64) : (setX s r v).vc.ctl.tstep = s.vc.ctl.tstep := by
  unfold setX; split <;> rfl
@[simp] theorem setX_vc_ctl_tokmap (s : State) (r : BitVec 6) (v : Word64) : (setX s r v).vc.ctl.tokmap = s.vc.ctl.tokmap := by
  unfold setX; split <;> rfl
@[simp] theorem setX_vc_ctl_lossLimit (s : State) (r : BitVec 6) (v : Word64) : (setX s r v).vc.ctl.lossLimit = s.vc.ctl.lossLimit := by
  unfold setX; split <;> rfl
@[simp] theorem setX_vc_ctl_fenceSeq (s : State) (r : BitVec 6) (v : Word64) : (setX s r v).vc.ctl.fenceSeq = s.vc.ctl.fenceSeq := by
  unfold setX; split <;> rfl
@[simp] theorem setX_vc_ctl_matched (s : State) (r : BitVec 6) (v : Word64) : (setX s r v).vc.ctl.matched = s.vc.ctl.matched := by
  unfold setX; split <;> rfl
@[simp] theorem setX_vc_ctl_lastSstep (s : State) (r : BitVec 6) (v : Word64) : (setX s r v).vc.ctl.lastSstep = s.vc.ctl.lastSstep := by
  unfold setX; split <;> rfl
@[simp] theorem setX_vc_ctl_dom (s : State) (r : BitVec 6) (v : Word64) : (setX s r v).vc.ctl.dom = s.vc.ctl.dom := by
  unfold setX; split <;> rfl
@[simp] theorem setX_vc_ctl_cur (s : State) (r : BitVec 6) (v : Word64) : (setX s r v).vc.ctl.cur = s.vc.ctl.cur := by
  unfold setX; split <;> rfl
@[simp] theorem setX_vc_ctl_was (s : State) (r : BitVec 6) (v : Word64) : (setX s r v).vc.ctl.was = s.vc.ctl.was := by
  unfold setX; split <;> rfl
@[simp] theorem setX_vc_eng (s : State) (r : BitVec 6) (v : Word64) : (setX s r v).vc.eng = s.vc.eng := by
  unfold setX; split <;> rfl
@[simp] theorem setX_vc_tbl (s : State) (r : BitVec 6) (v : Word64) : (setX s r v).vc.tbl = s.vc.tbl := by
  unfold setX; split <;> rfl
@[simp] theorem setX_vc_z (s : State) (r : BitVec 6) (v : Word64) : (setX s r v).vc.z = s.vc.z := by
  unfold setX; split <;> rfl
@[simp] theorem setX_vc_zver (s : State) (r : BitVec 6) (v : Word64) : (setX s r v).vc.zver = s.vc.zver := by
  unfold setX; split <;> rfl
@[simp] theorem setX_vc_g (s : State) (r : BitVec 6) (v : Word64) : (setX s r v).vc.g = s.vc.g := by
  unfold setX; split <;> rfl
@[simp] theorem setX_vc_b (s : State) (r : BitVec 6) (v : Word64) : (setX s r v).vc.b = s.vc.b := by
  unfold setX; split <;> rfl
@[simp] theorem setX_vc_chip (s : State) (r : BitVec 6) (v : Word64) : (setX s r v).vc.chip = s.vc.chip := by
  unfold setX; split <;> rfl
@[simp] theorem setX_vc_audit (s : State) (r : BitVec 6) (v : Word64) : (setX s r v).vc.audit = s.vc.audit := by
  unfold setX; split <;> rfl
@[simp] theorem setX_vc_tx (s : State) (r : BitVec 6) (v : Word64) : (setX s r v).vc.tx = s.vc.tx := by
  unfold setX; split <;> rfl
@[simp] theorem setX_vc_dcache (s : State) (r : BitVec 6) (v : Word64) : (setX s r v).vc.dcache = s.vc.dcache := by
  unfold setX; split <;> rfl
@[simp] theorem setX_vc_fifo (s : State) (r : BitVec 6) (v : Word64) : (setX s r v).vc.fifo = s.vc.fifo := by
  unfold setX; split <;> rfl
@[simp] theorem setX_vc_icache (s : State) (r : BitVec 6) (v : Word64) : (setX s r v).vc.icache = s.vc.icache := by
  unfold setX; split <;> rfl
@[simp] theorem setX_vc_tlb (s : State) (r : BitVec 6) (v : Word64) : (setX s r v).vc.tlb = s.vc.tlb := by
  unfold setX; split <;> rfl
@[simp] theorem setX_vc_atomics (s : State) (r : BitVec 6) (v : Word64) : (setX s r v).vc.atomics = s.vc.atomics := by
  unfold setX; split <;> rfl
@[simp] theorem setX_vc_colls (s : State) (r : BitVec 6) (v : Word64) : (setX s r v).vc.colls = s.vc.colls := by
  unfold setX; split <;> rfl
@[simp] theorem setX_vc_sentColls (s : State) (r : BitVec 6) (v : Word64) : (setX s r v).vc.sentColls = s.vc.sentColls := by
  unfold setX; split <;> rfl
@[simp] theorem setX_vc_latestColl (s : State) (r : BitVec 6) (v : Word64) : (setX s r v).vc.latestColl = s.vc.latestColl := by
  unfold setX; split <;> rfl
@[simp] theorem setX_vc_mapsOut (s : State) (r : BitVec 6) (v : Word64) : (setX s r v).vc.mapsOut = s.vc.mapsOut := by
  unfold setX; split <;> rfl
@[simp] theorem setX_vc_faults (s : State) (r : BitVec 6) (v : Word64) : (setX s r v).vc.faults = s.vc.faults := by
  unfold setX; split <;> rfl
@[simp] theorem setX_vc_acct (s : State) (r : BitVec 6) (v : Word64) : (setX s r v).vc.acct = s.vc.acct := by
  unfold setX; split <;> rfl
@[simp] theorem setX_vc_conflicts (s : State) (r : BitVec 6) (v : Word64) : (setX s r v).vc.conflicts = s.vc.conflicts := by
  unfold setX; split <;> rfl
@[simp] theorem setX_vc_claims (s : State) (r : BitVec 6) (v : Word64) : (setX s r v).vc.claims = s.vc.claims := by
  unfold setX; split <;> rfl
@[simp] theorem setX_vc_lostNow (s : State) (r : BitVec 6) (v : Word64) : (setX s r v).vc.lostNow = s.vc.lostNow := by
  unfold setX; split <;> rfl
@[simp] theorem setX_vc_ywrote (s : State) (r : BitVec 6) (v : Word64) : (setX s r v).vc.ywrote = s.vc.ywrote := by
  unfold setX; split <;> rfl
@[simp] theorem setX_vc_snaps (s : State) (r : BitVec 6) (v : Word64) : (setX s r v).vc.snaps = s.vc.snaps := by
  unfold setX; split <;> rfl
@[simp] theorem setX_vc_arrived (s : State) (r : BitVec 6) (v : Word64) : (setX s r v).vc.arrived = s.vc.arrived := by
  unfold setX; split <;> rfl
@[simp] theorem setX_vc_memb (s : State) (r : BitVec 6) (v : Word64) : (setX s r v).vc.memb = s.vc.memb := by
  unfold setX; split <;> rfl
@[simp] theorem setX_vc_creditB (s : State) (r : BitVec 6) (v : Word64) : (setX s r v).vc.creditB = s.vc.creditB := by
  unfold setX; split <;> rfl
@[simp] theorem setX_vc_past (s : State) (r : BitVec 6) (v : Word64) : (setX s r v).vc.past = s.vc.past := by
  unfold setX; split <;> rfl
@[simp] theorem setX_vc_retired (s : State) (r : BitVec 6) (v : Word64) : (setX s r v).vc.retired = s.vc.retired := by
  unfold setX; split <;> rfl
@[simp] theorem setX_vc_lost (s : State) (r : BitVec 6) (v : Word64) : (setX s r v).vc.lost = s.vc.lost := by
  unfold setX; split <;> rfl
@[simp] theorem setX_vc_stop (s : State) (r : BitVec 6) (v : Word64) : (setX s r v).vc.stop = s.vc.stop := by
  unfold setX; split <;> rfl
@[simp] theorem setX_vc_held (s : State) (r : BitVec 6) (v : Word64) : (setX s r v).vc.held = s.vc.held := by
  unfold setX; split <;> rfl
@[simp] theorem setX_vc_pulse (s : State) (r : BitVec 6) (v : Word64) : (setX s r v).vc.pulse = s.vc.pulse := by
  unfold setX; split <;> rfl
@[simp] theorem setX_vc_issuedNow (s : State) (r : BitVec 6) (v : Word64) : (setX s r v).vc.issuedNow = s.vc.issuedNow := by
  unfold setX; split <;> rfl
@[simp] theorem setX_vc_raised (s : State) (r : BitVec 6) (v : Word64) : (setX s r v).vc.raised = s.vc.raised := by
  unfold setX; split <;> rfl
@[simp] theorem setX_vc_heads (s : State) (r : BitVec 6) (v : Word64) : (setX s r v).vc.heads = s.vc.heads := by
  unfold setX; split <;> rfl
@[simp] theorem setX_vc_ctlSeen (s : State) (r : BitVec 6) (v : Word64) : (setX s r v).vc.ctlSeen = s.vc.ctlSeen := by
  unfold setX; split <;> rfl
@[simp] theorem setX_vc_ctrLast (s : State) (r : BitVec 6) (v : Word64) : (setX s r v).vc.ctrLast = s.vc.ctrLast := by
  unfold setX; split <;> rfl
@[simp] theorem setX_vc_ctrBuf (s : State) (r : BitVec 6) (v : Word64) : (setX s r v).vc.ctrBuf = s.vc.ctrBuf := by
  unfold setX; split <;> rfl
@[simp] theorem setX_vc_ctrBase (s : State) (r : BitVec 6) (v : Word64) : (setX s r v).vc.ctrBase = s.vc.ctrBase := by
  unfold setX; split <;> rfl
@[simp] theorem setX_vc_ctrSize (s : State) (r : BitVec 6) (v : Word64) : (setX s r v).vc.ctrSize = s.vc.ctrSize := by
  unfold setX; split <;> rfl
@[simp] theorem setX_vc_ctrPtr (s : State) (r : BitVec 6) (v : Word64) : (setX s r v).vc.ctrPtr = s.vc.ctrPtr := by
  unfold setX; split <;> rfl
@[simp] theorem setX_vc_ctrWrap (s : State) (r : BitVec 6) (v : Word64) : (setX s r v).vc.ctrWrap = s.vc.ctrWrap := by
  unfold setX; split <;> rfl

@[simp] theorem setY_peers (s : State) (n : Nat) (v : Word64) : (setY s n v).peers = s.peers := rfl
@[simp] theorem setY_launch (s : State) (n : Nat) (v : Word64) : (setY s n v).launch = s.launch := rfl
@[simp] theorem setY_part (s : State) (n : Nat) (v : Word64) : (setY s n v).part = s.part := rfl
@[simp] theorem setY_others (s : State) (n : Nat) (v : Word64) : (setY s n v).others = s.others := rfl
@[simp] theorem setY_dev (s : State) (n : Nat) (v : Word64) : (setY s n v).dev = s.dev := rfl
@[simp] theorem setY_inbox (s : State) (n : Nat) (v : Word64) : (setY s n v).inbox = s.inbox := rfl
@[simp] theorem setY_upsets (s : State) (n : Nat) (v : Word64) : (setY s n v).upsets = s.upsets := rfl
@[simp] theorem setY_mover (s : State) (n : Nat) (v : Word64) : (setY s n v).mover = s.mover := rfl
@[simp] theorem setY_fresh (s : State) (n : Nat) (v : Word64) : (setY s n v).fresh = s.fresh := rfl
@[simp] theorem setY_vc_id (s : State) (n : Nat) (v : Word64) : (setY s n v).vc.id = s.vc.id := rfl
@[simp] theorem setY_vc_run (s : State) (n : Nat) (v : Word64) : (setY s n v).vc.run = s.vc.run := rfl
@[simp] theorem setY_vc_now (s : State) (n : Nat) (v : Word64) : (setY s n v).vc.now = s.vc.now := rfl
@[simp] theorem setY_vc_ctl_x (s : State) (n : Nat) (v : Word64) : (setY s n v).vc.ctl.x = s.vc.ctl.x := rfl
@[simp] theorem setY_vc_ctl_m (s : State) (n : Nat) (v : Word64) : (setY s n v).vc.ctl.m = s.vc.ctl.m := rfl
@[simp] theorem setY_vc_ctl_pc (s : State) (n : Nat) (v : Word64) : (setY s n v).vc.ctl.pc = s.vc.ctl.pc := rfl
@[simp] theorem setY_vc_ctl_flags (s : State) (n : Nat) (v : Word64) : (setY s n v).vc.ctl.flags = s.vc.ctl.flags := rfl
@[simp] theorem setY_vc_ctl_flagsIn (s : State) (n : Nat) (v : Word64) : (setY s n v).vc.ctl.flagsIn = s.vc.ctl.flagsIn := rfl
@[simp] theorem setY_vc_ctl_frm (s : State) (n : Nat) (v : Word64) : (setY s n v).vc.ctl.frm = s.vc.ctl.frm := rfl
@[simp] theorem setY_vc_ctl_instret (s : State) (n : Nat) (v : Word64) : (setY s n v).vc.ctl.instret = s.vc.ctl.instret := rfl
@[simp] theorem setY_vc_ctl_tvec (s : State) (n : Nat) (v : Word64) : (setY s n v).vc.ctl.tvec = s.vc.ctl.tvec := rfl
@[simp] theorem setY_vc_ctl_tepc (s : State) (n : Nat) (v : Word64) : (setY s n v).vc.ctl.tepc = s.vc.ctl.tepc := rfl
@[simp] theorem setY_vc_ctl_tcause (s : State) (n : Nat) (v : Word64) : (setY s n v).vc.ctl.tcause = s.vc.ctl.tcause := rfl
@[simp] theorem setY_vc_ctl_tval (s : State) (n : Nat) (v : Word64) : (setY s n v).vc.ctl.tval = s.vc.ctl.tval := rfl
@[simp] theorem setY_vc_ctl_tscratch (s : State) (n : Nat) (v : Word64) : (setY s n v).vc.ctl.tscratch = s.vc.ctl.tscratch := rfl
@[simp] theorem setY_vc_ctl_h (s : State) (n : Nat) (v : Word64) : (setY s n v).vc.ctl.h = s.vc.ctl.h := rfl
@[simp] theorem setY_vc_ctl_tstep (s : State) (n : Nat) (v : Word64) : (setY s n v).vc.ctl.tstep = s.vc.ctl.tstep := rfl
@[simp] theorem setY_vc_ctl_tokmap (s : State) (n : Nat) (v : Word64) : (setY s n v).vc.ctl.tokmap = s.vc.ctl.tokmap := rfl
@[simp] theorem setY_vc_ctl_lossLimit (s : State) (n : Nat) (v : Word64) : (setY s n v).vc.ctl.lossLimit = s.vc.ctl.lossLimit := rfl
@[simp] theorem setY_vc_ctl_fenceSeq (s : State) (n : Nat) (v : Word64) : (setY s n v).vc.ctl.fenceSeq = s.vc.ctl.fenceSeq := rfl
@[simp] theorem setY_vc_ctl_matched (s : State) (n : Nat) (v : Word64) : (setY s n v).vc.ctl.matched = s.vc.ctl.matched := rfl
@[simp] theorem setY_vc_ctl_lastSstep (s : State) (n : Nat) (v : Word64) : (setY s n v).vc.ctl.lastSstep = s.vc.ctl.lastSstep := rfl
@[simp] theorem setY_vc_ctl_dom (s : State) (n : Nat) (v : Word64) : (setY s n v).vc.ctl.dom = s.vc.ctl.dom := rfl
@[simp] theorem setY_vc_ctl_cur (s : State) (n : Nat) (v : Word64) : (setY s n v).vc.ctl.cur = s.vc.ctl.cur := rfl
@[simp] theorem setY_vc_ctl_was (s : State) (n : Nat) (v : Word64) : (setY s n v).vc.ctl.was = s.vc.ctl.was := rfl
@[simp] theorem setY_vc_eng (s : State) (n : Nat) (v : Word64) : (setY s n v).vc.eng = s.vc.eng := rfl
@[simp] theorem setY_vc_tbl (s : State) (n : Nat) (v : Word64) : (setY s n v).vc.tbl = s.vc.tbl := rfl
@[simp] theorem setY_vc_z (s : State) (n : Nat) (v : Word64) : (setY s n v).vc.z = s.vc.z := rfl
@[simp] theorem setY_vc_zver (s : State) (n : Nat) (v : Word64) : (setY s n v).vc.zver = s.vc.zver := rfl
@[simp] theorem setY_vc_g (s : State) (n : Nat) (v : Word64) : (setY s n v).vc.g = s.vc.g := rfl
@[simp] theorem setY_vc_b (s : State) (n : Nat) (v : Word64) : (setY s n v).vc.b = s.vc.b := rfl
@[simp] theorem setY_vc_chip (s : State) (n : Nat) (v : Word64) : (setY s n v).vc.chip = s.vc.chip := rfl
@[simp] theorem setY_vc_audit (s : State) (n : Nat) (v : Word64) : (setY s n v).vc.audit = s.vc.audit := rfl
@[simp] theorem setY_vc_tx (s : State) (n : Nat) (v : Word64) : (setY s n v).vc.tx = s.vc.tx := rfl
@[simp] theorem setY_vc_dcache (s : State) (n : Nat) (v : Word64) : (setY s n v).vc.dcache = s.vc.dcache := rfl
@[simp] theorem setY_vc_fifo (s : State) (n : Nat) (v : Word64) : (setY s n v).vc.fifo = s.vc.fifo := rfl
@[simp] theorem setY_vc_icache (s : State) (n : Nat) (v : Word64) : (setY s n v).vc.icache = s.vc.icache := rfl
@[simp] theorem setY_vc_tlb (s : State) (n : Nat) (v : Word64) : (setY s n v).vc.tlb = s.vc.tlb := rfl
@[simp] theorem setY_vc_atomics (s : State) (n : Nat) (v : Word64) : (setY s n v).vc.atomics = s.vc.atomics := rfl
@[simp] theorem setY_vc_colls (s : State) (n : Nat) (v : Word64) : (setY s n v).vc.colls = s.vc.colls := rfl
@[simp] theorem setY_vc_sentColls (s : State) (n : Nat) (v : Word64) : (setY s n v).vc.sentColls = s.vc.sentColls := rfl
@[simp] theorem setY_vc_latestColl (s : State) (n : Nat) (v : Word64) : (setY s n v).vc.latestColl = s.vc.latestColl := rfl
@[simp] theorem setY_vc_mapsOut (s : State) (n : Nat) (v : Word64) : (setY s n v).vc.mapsOut = s.vc.mapsOut := rfl
@[simp] theorem setY_vc_faults (s : State) (n : Nat) (v : Word64) : (setY s n v).vc.faults = s.vc.faults := rfl
@[simp] theorem setY_vc_acct (s : State) (n : Nat) (v : Word64) : (setY s n v).vc.acct = s.vc.acct := rfl
@[simp] theorem setY_vc_conflicts (s : State) (n : Nat) (v : Word64) : (setY s n v).vc.conflicts = s.vc.conflicts := rfl
@[simp] theorem setY_vc_claims (s : State) (n : Nat) (v : Word64) : (setY s n v).vc.claims = s.vc.claims := rfl
@[simp] theorem setY_vc_lostNow (s : State) (n : Nat) (v : Word64) : (setY s n v).vc.lostNow = s.vc.lostNow := rfl
@[simp] theorem setY_vc_ywrote (s : State) (n : Nat) (v : Word64) : (setY s n v).vc.ywrote = s.vc.ywrote := rfl
@[simp] theorem setY_vc_snaps (s : State) (n : Nat) (v : Word64) : (setY s n v).vc.snaps = s.vc.snaps := rfl
@[simp] theorem setY_vc_arrived (s : State) (n : Nat) (v : Word64) : (setY s n v).vc.arrived = s.vc.arrived := rfl
@[simp] theorem setY_vc_memb (s : State) (n : Nat) (v : Word64) : (setY s n v).vc.memb = s.vc.memb := rfl
@[simp] theorem setY_vc_creditB (s : State) (n : Nat) (v : Word64) : (setY s n v).vc.creditB = s.vc.creditB := rfl
@[simp] theorem setY_vc_past (s : State) (n : Nat) (v : Word64) : (setY s n v).vc.past = s.vc.past := rfl
@[simp] theorem setY_vc_retired (s : State) (n : Nat) (v : Word64) : (setY s n v).vc.retired = s.vc.retired := rfl
@[simp] theorem setY_vc_lost (s : State) (n : Nat) (v : Word64) : (setY s n v).vc.lost = s.vc.lost := rfl
@[simp] theorem setY_vc_stop (s : State) (n : Nat) (v : Word64) : (setY s n v).vc.stop = s.vc.stop := rfl
@[simp] theorem setY_vc_held (s : State) (n : Nat) (v : Word64) : (setY s n v).vc.held = s.vc.held := rfl
@[simp] theorem setY_vc_pulse (s : State) (n : Nat) (v : Word64) : (setY s n v).vc.pulse = s.vc.pulse := rfl
@[simp] theorem setY_vc_issuedNow (s : State) (n : Nat) (v : Word64) : (setY s n v).vc.issuedNow = s.vc.issuedNow := rfl
@[simp] theorem setY_vc_raised (s : State) (n : Nat) (v : Word64) : (setY s n v).vc.raised = s.vc.raised := rfl
@[simp] theorem setY_vc_heads (s : State) (n : Nat) (v : Word64) : (setY s n v).vc.heads = s.vc.heads := rfl
@[simp] theorem setY_vc_ctlSeen (s : State) (n : Nat) (v : Word64) : (setY s n v).vc.ctlSeen = s.vc.ctlSeen := rfl
@[simp] theorem setY_vc_ctrLast (s : State) (n : Nat) (v : Word64) : (setY s n v).vc.ctrLast = s.vc.ctrLast := rfl
@[simp] theorem setY_vc_ctrBuf (s : State) (n : Nat) (v : Word64) : (setY s n v).vc.ctrBuf = s.vc.ctrBuf := rfl
@[simp] theorem setY_vc_ctrBase (s : State) (n : Nat) (v : Word64) : (setY s n v).vc.ctrBase = s.vc.ctrBase := rfl
@[simp] theorem setY_vc_ctrSize (s : State) (n : Nat) (v : Word64) : (setY s n v).vc.ctrSize = s.vc.ctrSize := rfl
@[simp] theorem setY_vc_ctrPtr (s : State) (n : Nat) (v : Word64) : (setY s n v).vc.ctrPtr = s.vc.ctrPtr := rfl
@[simp] theorem setY_vc_ctrWrap (s : State) (n : Nat) (v : Word64) : (setY s n v).vc.ctrWrap = s.vc.ctrWrap := rfl

@[simp] theorem setM_peers (s : State) (n : Nat) (v : Word64) : (setM s n v).peers = s.peers := rfl
@[simp] theorem setM_launch (s : State) (n : Nat) (v : Word64) : (setM s n v).launch = s.launch := rfl
@[simp] theorem setM_part (s : State) (n : Nat) (v : Word64) : (setM s n v).part = s.part := rfl
@[simp] theorem setM_others (s : State) (n : Nat) (v : Word64) : (setM s n v).others = s.others := rfl
@[simp] theorem setM_dev (s : State) (n : Nat) (v : Word64) : (setM s n v).dev = s.dev := rfl
@[simp] theorem setM_inbox (s : State) (n : Nat) (v : Word64) : (setM s n v).inbox = s.inbox := rfl
@[simp] theorem setM_upsets (s : State) (n : Nat) (v : Word64) : (setM s n v).upsets = s.upsets := rfl
@[simp] theorem setM_mover (s : State) (n : Nat) (v : Word64) : (setM s n v).mover = s.mover := rfl
@[simp] theorem setM_fresh (s : State) (n : Nat) (v : Word64) : (setM s n v).fresh = s.fresh := rfl
@[simp] theorem setM_vc_id (s : State) (n : Nat) (v : Word64) : (setM s n v).vc.id = s.vc.id := rfl
@[simp] theorem setM_vc_run (s : State) (n : Nat) (v : Word64) : (setM s n v).vc.run = s.vc.run := rfl
@[simp] theorem setM_vc_now (s : State) (n : Nat) (v : Word64) : (setM s n v).vc.now = s.vc.now := rfl
@[simp] theorem setM_vc_ctl_x (s : State) (n : Nat) (v : Word64) : (setM s n v).vc.ctl.x = s.vc.ctl.x := rfl
@[simp] theorem setM_vc_ctl_y (s : State) (n : Nat) (v : Word64) : (setM s n v).vc.ctl.y = s.vc.ctl.y := rfl
@[simp] theorem setM_vc_ctl_pc (s : State) (n : Nat) (v : Word64) : (setM s n v).vc.ctl.pc = s.vc.ctl.pc := rfl
@[simp] theorem setM_vc_ctl_flags (s : State) (n : Nat) (v : Word64) : (setM s n v).vc.ctl.flags = s.vc.ctl.flags := rfl
@[simp] theorem setM_vc_ctl_flagsIn (s : State) (n : Nat) (v : Word64) : (setM s n v).vc.ctl.flagsIn = s.vc.ctl.flagsIn := rfl
@[simp] theorem setM_vc_ctl_frm (s : State) (n : Nat) (v : Word64) : (setM s n v).vc.ctl.frm = s.vc.ctl.frm := rfl
@[simp] theorem setM_vc_ctl_instret (s : State) (n : Nat) (v : Word64) : (setM s n v).vc.ctl.instret = s.vc.ctl.instret := rfl
@[simp] theorem setM_vc_ctl_tvec (s : State) (n : Nat) (v : Word64) : (setM s n v).vc.ctl.tvec = s.vc.ctl.tvec := rfl
@[simp] theorem setM_vc_ctl_tepc (s : State) (n : Nat) (v : Word64) : (setM s n v).vc.ctl.tepc = s.vc.ctl.tepc := rfl
@[simp] theorem setM_vc_ctl_tcause (s : State) (n : Nat) (v : Word64) : (setM s n v).vc.ctl.tcause = s.vc.ctl.tcause := rfl
@[simp] theorem setM_vc_ctl_tval (s : State) (n : Nat) (v : Word64) : (setM s n v).vc.ctl.tval = s.vc.ctl.tval := rfl
@[simp] theorem setM_vc_ctl_tscratch (s : State) (n : Nat) (v : Word64) : (setM s n v).vc.ctl.tscratch = s.vc.ctl.tscratch := rfl
@[simp] theorem setM_vc_ctl_h (s : State) (n : Nat) (v : Word64) : (setM s n v).vc.ctl.h = s.vc.ctl.h := rfl
@[simp] theorem setM_vc_ctl_tstep (s : State) (n : Nat) (v : Word64) : (setM s n v).vc.ctl.tstep = s.vc.ctl.tstep := rfl
@[simp] theorem setM_vc_ctl_tokmap (s : State) (n : Nat) (v : Word64) : (setM s n v).vc.ctl.tokmap = s.vc.ctl.tokmap := rfl
@[simp] theorem setM_vc_ctl_lossLimit (s : State) (n : Nat) (v : Word64) : (setM s n v).vc.ctl.lossLimit = s.vc.ctl.lossLimit := rfl
@[simp] theorem setM_vc_ctl_fenceSeq (s : State) (n : Nat) (v : Word64) : (setM s n v).vc.ctl.fenceSeq = s.vc.ctl.fenceSeq := rfl
@[simp] theorem setM_vc_ctl_matched (s : State) (n : Nat) (v : Word64) : (setM s n v).vc.ctl.matched = s.vc.ctl.matched := rfl
@[simp] theorem setM_vc_ctl_lastSstep (s : State) (n : Nat) (v : Word64) : (setM s n v).vc.ctl.lastSstep = s.vc.ctl.lastSstep := rfl
@[simp] theorem setM_vc_ctl_dom (s : State) (n : Nat) (v : Word64) : (setM s n v).vc.ctl.dom = s.vc.ctl.dom := rfl
@[simp] theorem setM_vc_ctl_cur (s : State) (n : Nat) (v : Word64) : (setM s n v).vc.ctl.cur = s.vc.ctl.cur := rfl
@[simp] theorem setM_vc_ctl_was (s : State) (n : Nat) (v : Word64) : (setM s n v).vc.ctl.was = s.vc.ctl.was := rfl
@[simp] theorem setM_vc_eng (s : State) (n : Nat) (v : Word64) : (setM s n v).vc.eng = s.vc.eng := rfl
@[simp] theorem setM_vc_tbl (s : State) (n : Nat) (v : Word64) : (setM s n v).vc.tbl = s.vc.tbl := rfl
@[simp] theorem setM_vc_z (s : State) (n : Nat) (v : Word64) : (setM s n v).vc.z = s.vc.z := rfl
@[simp] theorem setM_vc_zver (s : State) (n : Nat) (v : Word64) : (setM s n v).vc.zver = s.vc.zver := rfl
@[simp] theorem setM_vc_g (s : State) (n : Nat) (v : Word64) : (setM s n v).vc.g = s.vc.g := rfl
@[simp] theorem setM_vc_b (s : State) (n : Nat) (v : Word64) : (setM s n v).vc.b = s.vc.b := rfl
@[simp] theorem setM_vc_chip (s : State) (n : Nat) (v : Word64) : (setM s n v).vc.chip = s.vc.chip := rfl
@[simp] theorem setM_vc_audit (s : State) (n : Nat) (v : Word64) : (setM s n v).vc.audit = s.vc.audit := rfl
@[simp] theorem setM_vc_tx (s : State) (n : Nat) (v : Word64) : (setM s n v).vc.tx = s.vc.tx := rfl
@[simp] theorem setM_vc_dcache (s : State) (n : Nat) (v : Word64) : (setM s n v).vc.dcache = s.vc.dcache := rfl
@[simp] theorem setM_vc_fifo (s : State) (n : Nat) (v : Word64) : (setM s n v).vc.fifo = s.vc.fifo := rfl
@[simp] theorem setM_vc_icache (s : State) (n : Nat) (v : Word64) : (setM s n v).vc.icache = s.vc.icache := rfl
@[simp] theorem setM_vc_tlb (s : State) (n : Nat) (v : Word64) : (setM s n v).vc.tlb = s.vc.tlb := rfl
@[simp] theorem setM_vc_atomics (s : State) (n : Nat) (v : Word64) : (setM s n v).vc.atomics = s.vc.atomics := rfl
@[simp] theorem setM_vc_colls (s : State) (n : Nat) (v : Word64) : (setM s n v).vc.colls = s.vc.colls := rfl
@[simp] theorem setM_vc_sentColls (s : State) (n : Nat) (v : Word64) : (setM s n v).vc.sentColls = s.vc.sentColls := rfl
@[simp] theorem setM_vc_latestColl (s : State) (n : Nat) (v : Word64) : (setM s n v).vc.latestColl = s.vc.latestColl := rfl
@[simp] theorem setM_vc_mapsOut (s : State) (n : Nat) (v : Word64) : (setM s n v).vc.mapsOut = s.vc.mapsOut := rfl
@[simp] theorem setM_vc_faults (s : State) (n : Nat) (v : Word64) : (setM s n v).vc.faults = s.vc.faults := rfl
@[simp] theorem setM_vc_acct (s : State) (n : Nat) (v : Word64) : (setM s n v).vc.acct = s.vc.acct := rfl
@[simp] theorem setM_vc_conflicts (s : State) (n : Nat) (v : Word64) : (setM s n v).vc.conflicts = s.vc.conflicts := rfl
@[simp] theorem setM_vc_claims (s : State) (n : Nat) (v : Word64) : (setM s n v).vc.claims = s.vc.claims := rfl
@[simp] theorem setM_vc_lostNow (s : State) (n : Nat) (v : Word64) : (setM s n v).vc.lostNow = s.vc.lostNow := rfl
@[simp] theorem setM_vc_ywrote (s : State) (n : Nat) (v : Word64) : (setM s n v).vc.ywrote = s.vc.ywrote := rfl
@[simp] theorem setM_vc_snaps (s : State) (n : Nat) (v : Word64) : (setM s n v).vc.snaps = s.vc.snaps := rfl
@[simp] theorem setM_vc_arrived (s : State) (n : Nat) (v : Word64) : (setM s n v).vc.arrived = s.vc.arrived := rfl
@[simp] theorem setM_vc_memb (s : State) (n : Nat) (v : Word64) : (setM s n v).vc.memb = s.vc.memb := rfl
@[simp] theorem setM_vc_creditB (s : State) (n : Nat) (v : Word64) : (setM s n v).vc.creditB = s.vc.creditB := rfl
@[simp] theorem setM_vc_past (s : State) (n : Nat) (v : Word64) : (setM s n v).vc.past = s.vc.past := rfl
@[simp] theorem setM_vc_retired (s : State) (n : Nat) (v : Word64) : (setM s n v).vc.retired = s.vc.retired := rfl
@[simp] theorem setM_vc_lost (s : State) (n : Nat) (v : Word64) : (setM s n v).vc.lost = s.vc.lost := rfl
@[simp] theorem setM_vc_stop (s : State) (n : Nat) (v : Word64) : (setM s n v).vc.stop = s.vc.stop := rfl
@[simp] theorem setM_vc_held (s : State) (n : Nat) (v : Word64) : (setM s n v).vc.held = s.vc.held := rfl
@[simp] theorem setM_vc_pulse (s : State) (n : Nat) (v : Word64) : (setM s n v).vc.pulse = s.vc.pulse := rfl
@[simp] theorem setM_vc_issuedNow (s : State) (n : Nat) (v : Word64) : (setM s n v).vc.issuedNow = s.vc.issuedNow := rfl
@[simp] theorem setM_vc_raised (s : State) (n : Nat) (v : Word64) : (setM s n v).vc.raised = s.vc.raised := rfl
@[simp] theorem setM_vc_heads (s : State) (n : Nat) (v : Word64) : (setM s n v).vc.heads = s.vc.heads := rfl
@[simp] theorem setM_vc_ctlSeen (s : State) (n : Nat) (v : Word64) : (setM s n v).vc.ctlSeen = s.vc.ctlSeen := rfl
@[simp] theorem setM_vc_ctrLast (s : State) (n : Nat) (v : Word64) : (setM s n v).vc.ctrLast = s.vc.ctrLast := rfl
@[simp] theorem setM_vc_ctrBuf (s : State) (n : Nat) (v : Word64) : (setM s n v).vc.ctrBuf = s.vc.ctrBuf := rfl
@[simp] theorem setM_vc_ctrBase (s : State) (n : Nat) (v : Word64) : (setM s n v).vc.ctrBase = s.vc.ctrBase := rfl
@[simp] theorem setM_vc_ctrSize (s : State) (n : Nat) (v : Word64) : (setM s n v).vc.ctrSize = s.vc.ctrSize := rfl
@[simp] theorem setM_vc_ctrPtr (s : State) (n : Nat) (v : Word64) : (setM s n v).vc.ctrPtr = s.vc.ctrPtr := rfl
@[simp] theorem setM_vc_ctrWrap (s : State) (n : Nat) (v : Word64) : (setM s n v).vc.ctrWrap = s.vc.ctrWrap := rfl

@[simp] theorem orFlags_peers (s : State) (f : Nat) : (orFlags s f).peers = s.peers := rfl
@[simp] theorem orFlags_launch (s : State) (f : Nat) : (orFlags s f).launch = s.launch := rfl
@[simp] theorem orFlags_part (s : State) (f : Nat) : (orFlags s f).part = s.part := rfl
@[simp] theorem orFlags_others (s : State) (f : Nat) : (orFlags s f).others = s.others := rfl
@[simp] theorem orFlags_dev (s : State) (f : Nat) : (orFlags s f).dev = s.dev := rfl
@[simp] theorem orFlags_inbox (s : State) (f : Nat) : (orFlags s f).inbox = s.inbox := rfl
@[simp] theorem orFlags_upsets (s : State) (f : Nat) : (orFlags s f).upsets = s.upsets := rfl
@[simp] theorem orFlags_mover (s : State) (f : Nat) : (orFlags s f).mover = s.mover := rfl
@[simp] theorem orFlags_fresh (s : State) (f : Nat) : (orFlags s f).fresh = s.fresh := rfl
@[simp] theorem orFlags_vc_id (s : State) (f : Nat) : (orFlags s f).vc.id = s.vc.id := rfl
@[simp] theorem orFlags_vc_run (s : State) (f : Nat) : (orFlags s f).vc.run = s.vc.run := rfl
@[simp] theorem orFlags_vc_now (s : State) (f : Nat) : (orFlags s f).vc.now = s.vc.now := rfl
@[simp] theorem orFlags_vc_ctl_x (s : State) (f : Nat) : (orFlags s f).vc.ctl.x = s.vc.ctl.x := rfl
@[simp] theorem orFlags_vc_ctl_y (s : State) (f : Nat) : (orFlags s f).vc.ctl.y = s.vc.ctl.y := rfl
@[simp] theorem orFlags_vc_ctl_m (s : State) (f : Nat) : (orFlags s f).vc.ctl.m = s.vc.ctl.m := rfl
@[simp] theorem orFlags_vc_ctl_pc (s : State) (f : Nat) : (orFlags s f).vc.ctl.pc = s.vc.ctl.pc := rfl
@[simp] theorem orFlags_vc_ctl_flagsIn (s : State) (f : Nat) : (orFlags s f).vc.ctl.flagsIn = s.vc.ctl.flagsIn := rfl
@[simp] theorem orFlags_vc_ctl_frm (s : State) (f : Nat) : (orFlags s f).vc.ctl.frm = s.vc.ctl.frm := rfl
@[simp] theorem orFlags_vc_ctl_instret (s : State) (f : Nat) : (orFlags s f).vc.ctl.instret = s.vc.ctl.instret := rfl
@[simp] theorem orFlags_vc_ctl_tvec (s : State) (f : Nat) : (orFlags s f).vc.ctl.tvec = s.vc.ctl.tvec := rfl
@[simp] theorem orFlags_vc_ctl_tepc (s : State) (f : Nat) : (orFlags s f).vc.ctl.tepc = s.vc.ctl.tepc := rfl
@[simp] theorem orFlags_vc_ctl_tcause (s : State) (f : Nat) : (orFlags s f).vc.ctl.tcause = s.vc.ctl.tcause := rfl
@[simp] theorem orFlags_vc_ctl_tval (s : State) (f : Nat) : (orFlags s f).vc.ctl.tval = s.vc.ctl.tval := rfl
@[simp] theorem orFlags_vc_ctl_tscratch (s : State) (f : Nat) : (orFlags s f).vc.ctl.tscratch = s.vc.ctl.tscratch := rfl
@[simp] theorem orFlags_vc_ctl_h (s : State) (f : Nat) : (orFlags s f).vc.ctl.h = s.vc.ctl.h := rfl
@[simp] theorem orFlags_vc_ctl_tstep (s : State) (f : Nat) : (orFlags s f).vc.ctl.tstep = s.vc.ctl.tstep := rfl
@[simp] theorem orFlags_vc_ctl_tokmap (s : State) (f : Nat) : (orFlags s f).vc.ctl.tokmap = s.vc.ctl.tokmap := rfl
@[simp] theorem orFlags_vc_ctl_lossLimit (s : State) (f : Nat) : (orFlags s f).vc.ctl.lossLimit = s.vc.ctl.lossLimit := rfl
@[simp] theorem orFlags_vc_ctl_fenceSeq (s : State) (f : Nat) : (orFlags s f).vc.ctl.fenceSeq = s.vc.ctl.fenceSeq := rfl
@[simp] theorem orFlags_vc_ctl_matched (s : State) (f : Nat) : (orFlags s f).vc.ctl.matched = s.vc.ctl.matched := rfl
@[simp] theorem orFlags_vc_ctl_lastSstep (s : State) (f : Nat) : (orFlags s f).vc.ctl.lastSstep = s.vc.ctl.lastSstep := rfl
@[simp] theorem orFlags_vc_ctl_dom (s : State) (f : Nat) : (orFlags s f).vc.ctl.dom = s.vc.ctl.dom := rfl
@[simp] theorem orFlags_vc_ctl_cur (s : State) (f : Nat) : (orFlags s f).vc.ctl.cur = s.vc.ctl.cur := rfl
@[simp] theorem orFlags_vc_ctl_was (s : State) (f : Nat) : (orFlags s f).vc.ctl.was = s.vc.ctl.was := rfl
@[simp] theorem orFlags_vc_eng (s : State) (f : Nat) : (orFlags s f).vc.eng = s.vc.eng := rfl
@[simp] theorem orFlags_vc_tbl (s : State) (f : Nat) : (orFlags s f).vc.tbl = s.vc.tbl := rfl
@[simp] theorem orFlags_vc_z (s : State) (f : Nat) : (orFlags s f).vc.z = s.vc.z := rfl
@[simp] theorem orFlags_vc_zver (s : State) (f : Nat) : (orFlags s f).vc.zver = s.vc.zver := rfl
@[simp] theorem orFlags_vc_g (s : State) (f : Nat) : (orFlags s f).vc.g = s.vc.g := rfl
@[simp] theorem orFlags_vc_b (s : State) (f : Nat) : (orFlags s f).vc.b = s.vc.b := rfl
@[simp] theorem orFlags_vc_chip (s : State) (f : Nat) : (orFlags s f).vc.chip = s.vc.chip := rfl
@[simp] theorem orFlags_vc_audit (s : State) (f : Nat) : (orFlags s f).vc.audit = s.vc.audit := rfl
@[simp] theorem orFlags_vc_tx (s : State) (f : Nat) : (orFlags s f).vc.tx = s.vc.tx := rfl
@[simp] theorem orFlags_vc_dcache (s : State) (f : Nat) : (orFlags s f).vc.dcache = s.vc.dcache := rfl
@[simp] theorem orFlags_vc_fifo (s : State) (f : Nat) : (orFlags s f).vc.fifo = s.vc.fifo := rfl
@[simp] theorem orFlags_vc_icache (s : State) (f : Nat) : (orFlags s f).vc.icache = s.vc.icache := rfl
@[simp] theorem orFlags_vc_tlb (s : State) (f : Nat) : (orFlags s f).vc.tlb = s.vc.tlb := rfl
@[simp] theorem orFlags_vc_atomics (s : State) (f : Nat) : (orFlags s f).vc.atomics = s.vc.atomics := rfl
@[simp] theorem orFlags_vc_colls (s : State) (f : Nat) : (orFlags s f).vc.colls = s.vc.colls := rfl
@[simp] theorem orFlags_vc_sentColls (s : State) (f : Nat) : (orFlags s f).vc.sentColls = s.vc.sentColls := rfl
@[simp] theorem orFlags_vc_latestColl (s : State) (f : Nat) : (orFlags s f).vc.latestColl = s.vc.latestColl := rfl
@[simp] theorem orFlags_vc_mapsOut (s : State) (f : Nat) : (orFlags s f).vc.mapsOut = s.vc.mapsOut := rfl
@[simp] theorem orFlags_vc_faults (s : State) (f : Nat) : (orFlags s f).vc.faults = s.vc.faults := rfl
@[simp] theorem orFlags_vc_acct (s : State) (f : Nat) : (orFlags s f).vc.acct = s.vc.acct := rfl
@[simp] theorem orFlags_vc_conflicts (s : State) (f : Nat) : (orFlags s f).vc.conflicts = s.vc.conflicts := rfl
@[simp] theorem orFlags_vc_claims (s : State) (f : Nat) : (orFlags s f).vc.claims = s.vc.claims := rfl
@[simp] theorem orFlags_vc_lostNow (s : State) (f : Nat) : (orFlags s f).vc.lostNow = s.vc.lostNow := rfl
@[simp] theorem orFlags_vc_ywrote (s : State) (f : Nat) : (orFlags s f).vc.ywrote = s.vc.ywrote := rfl
@[simp] theorem orFlags_vc_snaps (s : State) (f : Nat) : (orFlags s f).vc.snaps = s.vc.snaps := rfl
@[simp] theorem orFlags_vc_arrived (s : State) (f : Nat) : (orFlags s f).vc.arrived = s.vc.arrived := rfl
@[simp] theorem orFlags_vc_memb (s : State) (f : Nat) : (orFlags s f).vc.memb = s.vc.memb := rfl
@[simp] theorem orFlags_vc_creditB (s : State) (f : Nat) : (orFlags s f).vc.creditB = s.vc.creditB := rfl
@[simp] theorem orFlags_vc_past (s : State) (f : Nat) : (orFlags s f).vc.past = s.vc.past := rfl
@[simp] theorem orFlags_vc_retired (s : State) (f : Nat) : (orFlags s f).vc.retired = s.vc.retired := rfl
@[simp] theorem orFlags_vc_lost (s : State) (f : Nat) : (orFlags s f).vc.lost = s.vc.lost := rfl
@[simp] theorem orFlags_vc_stop (s : State) (f : Nat) : (orFlags s f).vc.stop = s.vc.stop := rfl
@[simp] theorem orFlags_vc_held (s : State) (f : Nat) : (orFlags s f).vc.held = s.vc.held := rfl
@[simp] theorem orFlags_vc_pulse (s : State) (f : Nat) : (orFlags s f).vc.pulse = s.vc.pulse := rfl
@[simp] theorem orFlags_vc_issuedNow (s : State) (f : Nat) : (orFlags s f).vc.issuedNow = s.vc.issuedNow := rfl
@[simp] theorem orFlags_vc_raised (s : State) (f : Nat) : (orFlags s f).vc.raised = s.vc.raised := rfl
@[simp] theorem orFlags_vc_heads (s : State) (f : Nat) : (orFlags s f).vc.heads = s.vc.heads := rfl
@[simp] theorem orFlags_vc_ctlSeen (s : State) (f : Nat) : (orFlags s f).vc.ctlSeen = s.vc.ctlSeen := rfl
@[simp] theorem orFlags_vc_ctrLast (s : State) (f : Nat) : (orFlags s f).vc.ctrLast = s.vc.ctrLast := rfl
@[simp] theorem orFlags_vc_ctrBuf (s : State) (f : Nat) : (orFlags s f).vc.ctrBuf = s.vc.ctrBuf := rfl
@[simp] theorem orFlags_vc_ctrBase (s : State) (f : Nat) : (orFlags s f).vc.ctrBase = s.vc.ctrBase := rfl
@[simp] theorem orFlags_vc_ctrSize (s : State) (f : Nat) : (orFlags s f).vc.ctrSize = s.vc.ctrSize := rfl
@[simp] theorem orFlags_vc_ctrPtr (s : State) (f : Nat) : (orFlags s f).vc.ctrPtr = s.vc.ctrPtr := rfl
@[simp] theorem orFlags_vc_ctrWrap (s : State) (f : Nat) : (orFlags s f).vc.ctrWrap = s.vc.ctrWrap := rfl

@[simp] theorem retireTo_peers (s : State) (pc : Word64) : (retireTo s pc).peers = s.peers := rfl
@[simp] theorem retireTo_launch (s : State) (pc : Word64) : (retireTo s pc).launch = s.launch := rfl
@[simp] theorem retireTo_part (s : State) (pc : Word64) : (retireTo s pc).part = s.part := rfl
@[simp] theorem retireTo_others (s : State) (pc : Word64) : (retireTo s pc).others = s.others := rfl
@[simp] theorem retireTo_dev (s : State) (pc : Word64) : (retireTo s pc).dev = s.dev := rfl
@[simp] theorem retireTo_inbox (s : State) (pc : Word64) : (retireTo s pc).inbox = s.inbox := rfl
@[simp] theorem retireTo_upsets (s : State) (pc : Word64) : (retireTo s pc).upsets = s.upsets := rfl
@[simp] theorem retireTo_mover (s : State) (pc : Word64) : (retireTo s pc).mover = s.mover := rfl
@[simp] theorem retireTo_fresh (s : State) (pc : Word64) : (retireTo s pc).fresh = s.fresh := rfl
@[simp] theorem retireTo_vc_id (s : State) (pc : Word64) : (retireTo s pc).vc.id = s.vc.id := rfl
@[simp] theorem retireTo_vc_run (s : State) (pc : Word64) : (retireTo s pc).vc.run = s.vc.run := rfl
@[simp] theorem retireTo_vc_now (s : State) (pc : Word64) : (retireTo s pc).vc.now = s.vc.now := rfl
@[simp] theorem retireTo_vc_ctl_x (s : State) (pc : Word64) : (retireTo s pc).vc.ctl.x = s.vc.ctl.x := rfl
@[simp] theorem retireTo_vc_ctl_y (s : State) (pc : Word64) : (retireTo s pc).vc.ctl.y = s.vc.ctl.y := rfl
@[simp] theorem retireTo_vc_ctl_m (s : State) (pc : Word64) : (retireTo s pc).vc.ctl.m = s.vc.ctl.m := rfl
@[simp] theorem retireTo_vc_ctl_flags (s : State) (pc : Word64) : (retireTo s pc).vc.ctl.flags = s.vc.ctl.flags := rfl
@[simp] theorem retireTo_vc_ctl_flagsIn (s : State) (pc : Word64) : (retireTo s pc).vc.ctl.flagsIn = s.vc.ctl.flagsIn := rfl
@[simp] theorem retireTo_vc_ctl_frm (s : State) (pc : Word64) : (retireTo s pc).vc.ctl.frm = s.vc.ctl.frm := rfl
@[simp] theorem retireTo_vc_ctl_tvec (s : State) (pc : Word64) : (retireTo s pc).vc.ctl.tvec = s.vc.ctl.tvec := rfl
@[simp] theorem retireTo_vc_ctl_tepc (s : State) (pc : Word64) : (retireTo s pc).vc.ctl.tepc = s.vc.ctl.tepc := rfl
@[simp] theorem retireTo_vc_ctl_tcause (s : State) (pc : Word64) : (retireTo s pc).vc.ctl.tcause = s.vc.ctl.tcause := rfl
@[simp] theorem retireTo_vc_ctl_tval (s : State) (pc : Word64) : (retireTo s pc).vc.ctl.tval = s.vc.ctl.tval := rfl
@[simp] theorem retireTo_vc_ctl_tscratch (s : State) (pc : Word64) : (retireTo s pc).vc.ctl.tscratch = s.vc.ctl.tscratch := rfl
@[simp] theorem retireTo_vc_ctl_h (s : State) (pc : Word64) : (retireTo s pc).vc.ctl.h = s.vc.ctl.h := rfl
@[simp] theorem retireTo_vc_ctl_tstep (s : State) (pc : Word64) : (retireTo s pc).vc.ctl.tstep = s.vc.ctl.tstep := rfl
@[simp] theorem retireTo_vc_ctl_tokmap (s : State) (pc : Word64) : (retireTo s pc).vc.ctl.tokmap = s.vc.ctl.tokmap := rfl
@[simp] theorem retireTo_vc_ctl_lossLimit (s : State) (pc : Word64) : (retireTo s pc).vc.ctl.lossLimit = s.vc.ctl.lossLimit := rfl
@[simp] theorem retireTo_vc_ctl_fenceSeq (s : State) (pc : Word64) : (retireTo s pc).vc.ctl.fenceSeq = s.vc.ctl.fenceSeq := rfl
@[simp] theorem retireTo_vc_ctl_matched (s : State) (pc : Word64) : (retireTo s pc).vc.ctl.matched = s.vc.ctl.matched := rfl
@[simp] theorem retireTo_vc_ctl_lastSstep (s : State) (pc : Word64) : (retireTo s pc).vc.ctl.lastSstep = s.vc.ctl.lastSstep := rfl
@[simp] theorem retireTo_vc_ctl_dom (s : State) (pc : Word64) : (retireTo s pc).vc.ctl.dom = s.vc.ctl.dom := rfl
@[simp] theorem retireTo_vc_ctl_cur (s : State) (pc : Word64) : (retireTo s pc).vc.ctl.cur = s.vc.ctl.cur := rfl
@[simp] theorem retireTo_vc_ctl_was (s : State) (pc : Word64) : (retireTo s pc).vc.ctl.was = s.vc.ctl.was := rfl
@[simp] theorem retireTo_vc_eng (s : State) (pc : Word64) : (retireTo s pc).vc.eng = s.vc.eng := rfl
@[simp] theorem retireTo_vc_tbl (s : State) (pc : Word64) : (retireTo s pc).vc.tbl = s.vc.tbl := rfl
@[simp] theorem retireTo_vc_z (s : State) (pc : Word64) : (retireTo s pc).vc.z = s.vc.z := rfl
@[simp] theorem retireTo_vc_zver (s : State) (pc : Word64) : (retireTo s pc).vc.zver = s.vc.zver := rfl
@[simp] theorem retireTo_vc_g (s : State) (pc : Word64) : (retireTo s pc).vc.g = s.vc.g := rfl
@[simp] theorem retireTo_vc_b (s : State) (pc : Word64) : (retireTo s pc).vc.b = s.vc.b := rfl
@[simp] theorem retireTo_vc_chip (s : State) (pc : Word64) : (retireTo s pc).vc.chip = s.vc.chip := rfl
@[simp] theorem retireTo_vc_audit (s : State) (pc : Word64) : (retireTo s pc).vc.audit = s.vc.audit := rfl
@[simp] theorem retireTo_vc_tx (s : State) (pc : Word64) : (retireTo s pc).vc.tx = s.vc.tx := rfl
@[simp] theorem retireTo_vc_dcache (s : State) (pc : Word64) : (retireTo s pc).vc.dcache = s.vc.dcache := rfl
@[simp] theorem retireTo_vc_fifo (s : State) (pc : Word64) : (retireTo s pc).vc.fifo = s.vc.fifo := rfl
@[simp] theorem retireTo_vc_icache (s : State) (pc : Word64) : (retireTo s pc).vc.icache = s.vc.icache := rfl
@[simp] theorem retireTo_vc_tlb (s : State) (pc : Word64) : (retireTo s pc).vc.tlb = s.vc.tlb := rfl
@[simp] theorem retireTo_vc_atomics (s : State) (pc : Word64) : (retireTo s pc).vc.atomics = s.vc.atomics := rfl
@[simp] theorem retireTo_vc_colls (s : State) (pc : Word64) : (retireTo s pc).vc.colls = s.vc.colls := rfl
@[simp] theorem retireTo_vc_sentColls (s : State) (pc : Word64) : (retireTo s pc).vc.sentColls = s.vc.sentColls := rfl
@[simp] theorem retireTo_vc_latestColl (s : State) (pc : Word64) : (retireTo s pc).vc.latestColl = s.vc.latestColl := rfl
@[simp] theorem retireTo_vc_mapsOut (s : State) (pc : Word64) : (retireTo s pc).vc.mapsOut = s.vc.mapsOut := rfl
@[simp] theorem retireTo_vc_faults (s : State) (pc : Word64) : (retireTo s pc).vc.faults = s.vc.faults := rfl
@[simp] theorem retireTo_vc_acct (s : State) (pc : Word64) : (retireTo s pc).vc.acct = s.vc.acct := rfl
@[simp] theorem retireTo_vc_conflicts (s : State) (pc : Word64) : (retireTo s pc).vc.conflicts = s.vc.conflicts := rfl
@[simp] theorem retireTo_vc_claims (s : State) (pc : Word64) : (retireTo s pc).vc.claims = s.vc.claims := rfl
@[simp] theorem retireTo_vc_lostNow (s : State) (pc : Word64) : (retireTo s pc).vc.lostNow = s.vc.lostNow := rfl
@[simp] theorem retireTo_vc_ywrote (s : State) (pc : Word64) : (retireTo s pc).vc.ywrote = s.vc.ywrote := rfl
@[simp] theorem retireTo_vc_snaps (s : State) (pc : Word64) : (retireTo s pc).vc.snaps = s.vc.snaps := rfl
@[simp] theorem retireTo_vc_arrived (s : State) (pc : Word64) : (retireTo s pc).vc.arrived = s.vc.arrived := rfl
@[simp] theorem retireTo_vc_memb (s : State) (pc : Word64) : (retireTo s pc).vc.memb = s.vc.memb := rfl
@[simp] theorem retireTo_vc_creditB (s : State) (pc : Word64) : (retireTo s pc).vc.creditB = s.vc.creditB := rfl
@[simp] theorem retireTo_vc_past (s : State) (pc : Word64) : (retireTo s pc).vc.past = s.vc.past := rfl
@[simp] theorem retireTo_vc_retired (s : State) (pc : Word64) : (retireTo s pc).vc.retired = s.vc.retired := rfl
@[simp] theorem retireTo_vc_lost (s : State) (pc : Word64) : (retireTo s pc).vc.lost = s.vc.lost := rfl
@[simp] theorem retireTo_vc_stop (s : State) (pc : Word64) : (retireTo s pc).vc.stop = s.vc.stop := rfl
@[simp] theorem retireTo_vc_held (s : State) (pc : Word64) : (retireTo s pc).vc.held = s.vc.held := rfl
@[simp] theorem retireTo_vc_pulse (s : State) (pc : Word64) : (retireTo s pc).vc.pulse = s.vc.pulse := rfl
@[simp] theorem retireTo_vc_issuedNow (s : State) (pc : Word64) : (retireTo s pc).vc.issuedNow = s.vc.issuedNow := rfl
@[simp] theorem retireTo_vc_raised (s : State) (pc : Word64) : (retireTo s pc).vc.raised = s.vc.raised := rfl
@[simp] theorem retireTo_vc_heads (s : State) (pc : Word64) : (retireTo s pc).vc.heads = s.vc.heads := rfl
@[simp] theorem retireTo_vc_ctlSeen (s : State) (pc : Word64) : (retireTo s pc).vc.ctlSeen = s.vc.ctlSeen := rfl
@[simp] theorem retireTo_vc_ctrLast (s : State) (pc : Word64) : (retireTo s pc).vc.ctrLast = s.vc.ctrLast := rfl
@[simp] theorem retireTo_vc_ctrBuf (s : State) (pc : Word64) : (retireTo s pc).vc.ctrBuf = s.vc.ctrBuf := rfl
@[simp] theorem retireTo_vc_ctrBase (s : State) (pc : Word64) : (retireTo s pc).vc.ctrBase = s.vc.ctrBase := rfl
@[simp] theorem retireTo_vc_ctrSize (s : State) (pc : Word64) : (retireTo s pc).vc.ctrSize = s.vc.ctrSize := rfl
@[simp] theorem retireTo_vc_ctrPtr (s : State) (pc : Word64) : (retireTo s pc).vc.ctrPtr = s.vc.ctrPtr := rfl
@[simp] theorem retireTo_vc_ctrWrap (s : State) (pc : Word64) : (retireTo s pc).vc.ctrWrap = s.vc.ctrWrap := rfl

@[simp] theorem retire_peers (s : State) : (retire s).peers = s.peers := rfl
@[simp] theorem retire_launch (s : State) : (retire s).launch = s.launch := rfl
@[simp] theorem retire_part (s : State) : (retire s).part = s.part := rfl
@[simp] theorem retire_others (s : State) : (retire s).others = s.others := rfl
@[simp] theorem retire_dev (s : State) : (retire s).dev = s.dev := rfl
@[simp] theorem retire_inbox (s : State) : (retire s).inbox = s.inbox := rfl
@[simp] theorem retire_upsets (s : State) : (retire s).upsets = s.upsets := rfl
@[simp] theorem retire_mover (s : State) : (retire s).mover = s.mover := rfl
@[simp] theorem retire_fresh (s : State) : (retire s).fresh = s.fresh := rfl
@[simp] theorem retire_vc_id (s : State) : (retire s).vc.id = s.vc.id := rfl
@[simp] theorem retire_vc_run (s : State) : (retire s).vc.run = s.vc.run := rfl
@[simp] theorem retire_vc_now (s : State) : (retire s).vc.now = s.vc.now := rfl
@[simp] theorem retire_vc_ctl_x (s : State) : (retire s).vc.ctl.x = s.vc.ctl.x := rfl
@[simp] theorem retire_vc_ctl_y (s : State) : (retire s).vc.ctl.y = s.vc.ctl.y := rfl
@[simp] theorem retire_vc_ctl_m (s : State) : (retire s).vc.ctl.m = s.vc.ctl.m := rfl
@[simp] theorem retire_vc_ctl_flags (s : State) : (retire s).vc.ctl.flags = s.vc.ctl.flags := rfl
@[simp] theorem retire_vc_ctl_flagsIn (s : State) : (retire s).vc.ctl.flagsIn = s.vc.ctl.flagsIn := rfl
@[simp] theorem retire_vc_ctl_frm (s : State) : (retire s).vc.ctl.frm = s.vc.ctl.frm := rfl
@[simp] theorem retire_vc_ctl_tvec (s : State) : (retire s).vc.ctl.tvec = s.vc.ctl.tvec := rfl
@[simp] theorem retire_vc_ctl_tepc (s : State) : (retire s).vc.ctl.tepc = s.vc.ctl.tepc := rfl
@[simp] theorem retire_vc_ctl_tcause (s : State) : (retire s).vc.ctl.tcause = s.vc.ctl.tcause := rfl
@[simp] theorem retire_vc_ctl_tval (s : State) : (retire s).vc.ctl.tval = s.vc.ctl.tval := rfl
@[simp] theorem retire_vc_ctl_tscratch (s : State) : (retire s).vc.ctl.tscratch = s.vc.ctl.tscratch := rfl
@[simp] theorem retire_vc_ctl_h (s : State) : (retire s).vc.ctl.h = s.vc.ctl.h := rfl
@[simp] theorem retire_vc_ctl_tstep (s : State) : (retire s).vc.ctl.tstep = s.vc.ctl.tstep := rfl
@[simp] theorem retire_vc_ctl_tokmap (s : State) : (retire s).vc.ctl.tokmap = s.vc.ctl.tokmap := rfl
@[simp] theorem retire_vc_ctl_lossLimit (s : State) : (retire s).vc.ctl.lossLimit = s.vc.ctl.lossLimit := rfl
@[simp] theorem retire_vc_ctl_fenceSeq (s : State) : (retire s).vc.ctl.fenceSeq = s.vc.ctl.fenceSeq := rfl
@[simp] theorem retire_vc_ctl_matched (s : State) : (retire s).vc.ctl.matched = s.vc.ctl.matched := rfl
@[simp] theorem retire_vc_ctl_lastSstep (s : State) : (retire s).vc.ctl.lastSstep = s.vc.ctl.lastSstep := rfl
@[simp] theorem retire_vc_ctl_dom (s : State) : (retire s).vc.ctl.dom = s.vc.ctl.dom := rfl
@[simp] theorem retire_vc_ctl_cur (s : State) : (retire s).vc.ctl.cur = s.vc.ctl.cur := rfl
@[simp] theorem retire_vc_ctl_was (s : State) : (retire s).vc.ctl.was = s.vc.ctl.was := rfl
@[simp] theorem retire_vc_eng (s : State) : (retire s).vc.eng = s.vc.eng := rfl
@[simp] theorem retire_vc_tbl (s : State) : (retire s).vc.tbl = s.vc.tbl := rfl
@[simp] theorem retire_vc_z (s : State) : (retire s).vc.z = s.vc.z := rfl
@[simp] theorem retire_vc_zver (s : State) : (retire s).vc.zver = s.vc.zver := rfl
@[simp] theorem retire_vc_g (s : State) : (retire s).vc.g = s.vc.g := rfl
@[simp] theorem retire_vc_b (s : State) : (retire s).vc.b = s.vc.b := rfl
@[simp] theorem retire_vc_chip (s : State) : (retire s).vc.chip = s.vc.chip := rfl
@[simp] theorem retire_vc_audit (s : State) : (retire s).vc.audit = s.vc.audit := rfl
@[simp] theorem retire_vc_tx (s : State) : (retire s).vc.tx = s.vc.tx := rfl
@[simp] theorem retire_vc_dcache (s : State) : (retire s).vc.dcache = s.vc.dcache := rfl
@[simp] theorem retire_vc_fifo (s : State) : (retire s).vc.fifo = s.vc.fifo := rfl
@[simp] theorem retire_vc_icache (s : State) : (retire s).vc.icache = s.vc.icache := rfl
@[simp] theorem retire_vc_tlb (s : State) : (retire s).vc.tlb = s.vc.tlb := rfl
@[simp] theorem retire_vc_atomics (s : State) : (retire s).vc.atomics = s.vc.atomics := rfl
@[simp] theorem retire_vc_colls (s : State) : (retire s).vc.colls = s.vc.colls := rfl
@[simp] theorem retire_vc_sentColls (s : State) : (retire s).vc.sentColls = s.vc.sentColls := rfl
@[simp] theorem retire_vc_latestColl (s : State) : (retire s).vc.latestColl = s.vc.latestColl := rfl
@[simp] theorem retire_vc_mapsOut (s : State) : (retire s).vc.mapsOut = s.vc.mapsOut := rfl
@[simp] theorem retire_vc_faults (s : State) : (retire s).vc.faults = s.vc.faults := rfl
@[simp] theorem retire_vc_acct (s : State) : (retire s).vc.acct = s.vc.acct := rfl
@[simp] theorem retire_vc_conflicts (s : State) : (retire s).vc.conflicts = s.vc.conflicts := rfl
@[simp] theorem retire_vc_claims (s : State) : (retire s).vc.claims = s.vc.claims := rfl
@[simp] theorem retire_vc_lostNow (s : State) : (retire s).vc.lostNow = s.vc.lostNow := rfl
@[simp] theorem retire_vc_ywrote (s : State) : (retire s).vc.ywrote = s.vc.ywrote := rfl
@[simp] theorem retire_vc_snaps (s : State) : (retire s).vc.snaps = s.vc.snaps := rfl
@[simp] theorem retire_vc_arrived (s : State) : (retire s).vc.arrived = s.vc.arrived := rfl
@[simp] theorem retire_vc_memb (s : State) : (retire s).vc.memb = s.vc.memb := rfl
@[simp] theorem retire_vc_creditB (s : State) : (retire s).vc.creditB = s.vc.creditB := rfl
@[simp] theorem retire_vc_past (s : State) : (retire s).vc.past = s.vc.past := rfl
@[simp] theorem retire_vc_retired (s : State) : (retire s).vc.retired = s.vc.retired := rfl
@[simp] theorem retire_vc_lost (s : State) : (retire s).vc.lost = s.vc.lost := rfl
@[simp] theorem retire_vc_stop (s : State) : (retire s).vc.stop = s.vc.stop := rfl
@[simp] theorem retire_vc_held (s : State) : (retire s).vc.held = s.vc.held := rfl
@[simp] theorem retire_vc_pulse (s : State) : (retire s).vc.pulse = s.vc.pulse := rfl
@[simp] theorem retire_vc_issuedNow (s : State) : (retire s).vc.issuedNow = s.vc.issuedNow := rfl
@[simp] theorem retire_vc_raised (s : State) : (retire s).vc.raised = s.vc.raised := rfl
@[simp] theorem retire_vc_heads (s : State) : (retire s).vc.heads = s.vc.heads := rfl
@[simp] theorem retire_vc_ctlSeen (s : State) : (retire s).vc.ctlSeen = s.vc.ctlSeen := rfl
@[simp] theorem retire_vc_ctrLast (s : State) : (retire s).vc.ctrLast = s.vc.ctrLast := rfl
@[simp] theorem retire_vc_ctrBuf (s : State) : (retire s).vc.ctrBuf = s.vc.ctrBuf := rfl
@[simp] theorem retire_vc_ctrBase (s : State) : (retire s).vc.ctrBase = s.vc.ctrBase := rfl
@[simp] theorem retire_vc_ctrSize (s : State) : (retire s).vc.ctrSize = s.vc.ctrSize := rfl
@[simp] theorem retire_vc_ctrPtr (s : State) : (retire s).vc.ctrPtr = s.vc.ctrPtr := rfl
@[simp] theorem retire_vc_ctrWrap (s : State) : (retire s).vc.ctrWrap = s.vc.ctrWrap := rfl

/-! ### Charges -/

@[simp] theorem chargeFor_vc (s : State) (l : Option LaunchTag) (who : Option Nat) (c : EClass) (n : Nat) : (chargeFor s l who c n).vc = s.vc := by
  unfold chargeFor; split <;> rfl
@[simp] theorem chargeFor_peers (s : State) (l : Option LaunchTag) (who : Option Nat) (c : EClass) (n : Nat) : (chargeFor s l who c n).peers = s.peers := by
  unfold chargeFor; split <;> rfl
@[simp] theorem chargeFor_launch (s : State) (l : Option LaunchTag) (who : Option Nat) (c : EClass) (n : Nat) : (chargeFor s l who c n).launch = s.launch := by
  unfold chargeFor; split <;> rfl
@[simp] theorem chargeFor_others (s : State) (l : Option LaunchTag) (who : Option Nat) (c : EClass) (n : Nat) : (chargeFor s l who c n).others = s.others := by
  unfold chargeFor; split <;> rfl
@[simp] theorem chargeFor_dev (s : State) (l : Option LaunchTag) (who : Option Nat) (c : EClass) (n : Nat) : (chargeFor s l who c n).dev = s.dev := by
  unfold chargeFor; split <;> rfl
@[simp] theorem chargeFor_inbox (s : State) (l : Option LaunchTag) (who : Option Nat) (c : EClass) (n : Nat) : (chargeFor s l who c n).inbox = s.inbox := by
  unfold chargeFor; split <;> rfl
@[simp] theorem chargeFor_upsets (s : State) (l : Option LaunchTag) (who : Option Nat) (c : EClass) (n : Nat) : (chargeFor s l who c n).upsets = s.upsets := by
  unfold chargeFor; split <;> rfl
@[simp] theorem chargeFor_mover (s : State) (l : Option LaunchTag) (who : Option Nat) (c : EClass) (n : Nat) : (chargeFor s l who c n).mover = s.mover := by
  unfold chargeFor; split <;> rfl
@[simp] theorem chargeFor_fresh (s : State) (l : Option LaunchTag) (who : Option Nat) (c : EClass) (n : Nat) : (chargeFor s l who c n).fresh = s.fresh := by
  unfold chargeFor; split <;> rfl
@[simp] theorem chargeFor_part_idx (s : State) (l : Option LaunchTag) (who : Option Nat) (c : EClass) (n : Nat) : (chargeFor s l who c n).part.idx = s.part.idx := by
  unfold chargeFor; split <;> rfl
@[simp] theorem chargeFor_part_bound (s : State) (l : Option LaunchTag) (who : Option Nat) (c : EClass) (n : Nat) : (chargeFor s l who c n).part.bound = s.part.bound := by
  unfold chargeFor; split <;> rfl
@[simp] theorem chargeFor_part_reset (s : State) (l : Option LaunchTag) (who : Option Nat) (c : EClass) (n : Nat) : (chargeFor s l who c n).part.reset = s.part.reset := by
  unfold chargeFor; split <;> rfl
@[simp] theorem chargeFor_part_wasBound (s : State) (l : Option LaunchTag) (who : Option Nat) (c : EClass) (n : Nat) : (chargeFor s l who c n).part.wasBound = s.part.wasBound := by
  unfold chargeFor; split <;> rfl
@[simp] theorem chargeFor_part_scrub (s : State) (l : Option LaunchTag) (who : Option Nat) (c : EClass) (n : Nat) : (chargeFor s l who c n).part.scrub = s.part.scrub := by
  unfold chargeFor; split <;> rfl
@[simp] theorem chargeFor_part_mem (s : State) (l : Option LaunchTag) (who : Option Nat) (c : EClass) (n : Nat) : (chargeFor s l who c n).part.mem = s.part.mem := by
  unfold chargeFor; split <;> rfl
@[simp] theorem chargeFor_part_l2 (s : State) (l : Option LaunchTag) (who : Option Nat) (c : EClass) (n : Nat) : (chargeFor s l who c n).part.l2 = s.part.l2 := by
  unfold chargeFor; split <;> rfl
@[simp] theorem chargeFor_part_poison (s : State) (l : Option LaunchTag) (who : Option Nat) (c : EClass) (n : Nat) : (chargeFor s l who c n).part.poison = s.part.poison := by
  unfold chargeFor; split <;> rfl
@[simp] theorem chargeFor_part_slow (s : State) (l : Option LaunchTag) (who : Option Nat) (c : EClass) (n : Nat) : (chargeFor s l who c n).part.slow = s.part.slow := by
  unfold chargeFor; split <;> rfl
@[simp] theorem chargeFor_part_pcNext (s : State) (l : Option LaunchTag) (who : Option Nat) (c : EClass) (n : Nat) : (chargeFor s l who c n).part.pcNext = s.part.pcNext := by
  unfold chargeFor; split <;> rfl
@[simp] theorem chargeFor_part_hmask (s : State) (l : Option LaunchTag) (who : Option Nat) (c : EClass) (n : Nat) : (chargeFor s l who c n).part.hmask = s.part.hmask := by
  unfold chargeFor; split <;> rfl
@[simp] theorem chargeFor_part_ptroot (s : State) (l : Option LaunchTag) (who : Option Nat) (c : EClass) (n : Nat) : (chargeFor s l who c n).part.ptroot = s.part.ptroot := by
  unfold chargeFor; split <;> rfl
@[simp] theorem chargeFor_part_vsbase (s : State) (l : Option LaunchTag) (who : Option Nat) (c : EClass) (n : Nat) : (chargeFor s l who c n).part.vsbase = s.part.vsbase := by
  unfold chargeFor; split <;> rfl
@[simp] theorem chargeFor_part_vsize (s : State) (l : Option LaunchTag) (who : Option Nat) (c : EClass) (n : Nat) : (chargeFor s l who c n).part.vsize = s.part.vsize := by
  unfold chargeFor; split <;> rfl
@[simp] theorem chargeFor_part_tlbinv (s : State) (l : Option LaunchTag) (who : Option Nat) (c : EClass) (n : Nat) : (chargeFor s l who c n).part.tlbinv = s.part.tlbinv := by
  unfold chargeFor; split <;> rfl
@[simp] theorem chargeFor_part_tlbBusy (s : State) (l : Option LaunchTag) (who : Option Nat) (c : EClass) (n : Nat) : (chargeFor s l who c n).part.tlbBusy = s.part.tlbBusy := by
  unfold chargeFor; split <;> rfl
@[simp] theorem chargeFor_part_walks (s : State) (l : Option LaunchTag) (who : Option Nat) (c : EClass) (n : Nat) : (chargeFor s l who c n).part.walks = s.part.walks := by
  unfold chargeFor; split <;> rfl
@[simp] theorem chargeFor_part_ctlb (s : State) (l : Option LaunchTag) (who : Option Nat) (c : EClass) (n : Nat) : (chargeFor s l who c n).part.ctlb = s.part.ctlb := by
  unfold chargeFor; split <;> rfl
@[simp] theorem chargeFor_part_dlallow (s : State) (l : Option LaunchTag) (who : Option Nat) (c : EClass) (n : Nat) : (chargeFor s l who c n).part.dlallow = s.part.dlallow := by
  unfold chargeFor; split <;> rfl
@[simp] theorem chargeFor_part_ctxbase (s : State) (l : Option LaunchTag) (who : Option Nat) (c : EClass) (n : Nat) : (chargeFor s l who c n).part.ctxbase = s.part.ctxbase := by
  unfold chargeFor; split <;> rfl
@[simp] theorem chargeFor_part_ctxn (s : State) (l : Option LaunchTag) (who : Option Nat) (c : EClass) (n : Nat) : (chargeFor s l who c n).part.ctxn = s.part.ctxn := by
  unfold chargeFor; split <;> rfl
@[simp] theorem chargeFor_part_saved (s : State) (l : Option LaunchTag) (who : Option Nat) (c : EClass) (n : Nat) : (chargeFor s l who c n).part.saved = s.part.saved := by
  unfold chargeFor; split <;> rfl
@[simp] theorem chargeFor_part_equota (s : State) (l : Option LaunchTag) (who : Option Nat) (c : EClass) (n : Nat) : (chargeFor s l who c n).part.equota = s.part.equota := by
  unfold chargeFor; split <;> rfl
@[simp] theorem chargeFor_part_shared (s : State) (l : Option LaunchTag) (who : Option Nat) (c : EClass) (n : Nat) : (chargeFor s l who c n).part.shared = s.part.shared := by
  unfold chargeFor; split <;> rfl
@[simp] theorem chargeFor_part_spent (s : State) (l : Option LaunchTag) (who : Option Nat) (c : EClass) (n : Nat) : (chargeFor s l who c n).part.spent = s.part.spent := by
  unfold chargeFor; split <;> rfl
@[simp] theorem chargeFor_part_pw (s : State) (l : Option LaunchTag) (who : Option Nat) (c : EClass) (n : Nat) : (chargeFor s l who c n).part.pw = s.part.pw := by
  unfold chargeFor; split <;> rfl
@[simp] theorem chargeFor_part_cset (s : State) (l : Option LaunchTag) (who : Option Nat) (c : EClass) (n : Nat) : (chargeFor s l who c n).part.cset = s.part.cset := by
  unfold chargeFor; split <;> rfl
@[simp] theorem chargeFor_part_ex (s : State) (l : Option LaunchTag) (who : Option Nat) (c : EClass) (n : Nat) : (chargeFor s l who c n).part.ex = s.part.ex := by
  unfold chargeFor; split <;> rfl
@[simp] theorem chargeFor_part_x (s : State) (l : Option LaunchTag) (who : Option Nat) (c : EClass) (n : Nat) : (chargeFor s l who c n).part.x = s.part.x := by
  unfold chargeFor; split <;> rfl
@[simp] theorem chargeFor_part_openEp (s : State) (l : Option LaunchTag) (who : Option Nat) (c : EClass) (n : Nat) : (chargeFor s l who c n).part.openEp = s.part.openEp := by
  unfold chargeFor; split <;> rfl
@[simp] theorem chargeFor_part_epSeqs (s : State) (l : Option LaunchTag) (who : Option Nat) (c : EClass) (n : Nat) : (chargeFor s l who c n).part.epSeqs = s.part.epSeqs := by
  unfold chargeFor; split <;> rfl
@[simp] theorem chargeFor_part_nextEp (s : State) (l : Option LaunchTag) (who : Option Nat) (c : EClass) (n : Nat) : (chargeFor s l who c n).part.nextEp = s.part.nextEp := by
  unfold chargeFor; split <;> rfl
@[simp] theorem chargeFor_part_outcomes (s : State) (l : Option LaunchTag) (who : Option Nat) (c : EClass) (n : Nat) : (chargeFor s l who c n).part.outcomes = s.part.outcomes := by
  unfold chargeFor; split <;> rfl
@[simp] theorem chargeFor_part_commits (s : State) (l : Option LaunchTag) (who : Option Nat) (c : EClass) (n : Nat) : (chargeFor s l who c n).part.commits = s.part.commits := by
  unfold chargeFor; split <;> rfl
@[simp] theorem chargeFor_part_blocks (s : State) (l : Option LaunchTag) (who : Option Nat) (c : EClass) (n : Nat) : (chargeFor s l who c n).part.blocks = s.part.blocks := by
  unfold chargeFor; split <;> rfl
@[simp] theorem chargeFor_part_drainQ (s : State) (l : Option LaunchTag) (who : Option Nat) (c : EClass) (n : Nat) : (chargeFor s l who c n).part.drainQ = s.part.drainQ := by
  unfold chargeFor; split <;> rfl
@[simp] theorem chargeFor_part_drains (s : State) (l : Option LaunchTag) (who : Option Nat) (c : EClass) (n : Nat) : (chargeFor s l who c n).part.drains = s.part.drains := by
  unfold chargeFor; split <;> rfl
@[simp] theorem chargeFor_part_acked (s : State) (l : Option LaunchTag) (who : Option Nat) (c : EClass) (n : Nat) : (chargeFor s l who c n).part.acked = s.part.acked := by
  unfold chargeFor; split <;> rfl
@[simp] theorem chargeFor_part_voted (s : State) (l : Option LaunchTag) (who : Option Nat) (c : EClass) (n : Nat) : (chargeFor s l who c n).part.voted = s.part.voted := by
  unfold chargeFor; split <;> rfl
@[simp] theorem chargeFor_part_devVote (s : State) (l : Option LaunchTag) (who : Option Nat) (c : EClass) (n : Nat) : (chargeFor s l who c n).part.devVote = s.part.devVote := by
  unfold chargeFor; split <;> rfl
@[simp] theorem chargeFor_part_devLoss (s : State) (l : Option LaunchTag) (who : Option Nat) (c : EClass) (n : Nat) : (chargeFor s l who c n).part.devLoss = s.part.devLoss := by
  unfold chargeFor; split <;> rfl
@[simp] theorem chargeFor_part_endVoted (s : State) (l : Option LaunchTag) (who : Option Nat) (c : EClass) (n : Nat) : (chargeFor s l who c n).part.endVoted = s.part.endVoted := by
  unfold chargeFor; split <;> rfl
@[simp] theorem chargeFor_part_stepTag (s : State) (l : Option LaunchTag) (who : Option Nat) (c : EClass) (n : Nat) : (chargeFor s l who c n).part.stepTag = s.part.stepTag := by
  unfold chargeFor; split <;> rfl
@[simp] theorem chargeFor_part_stepRecs (s : State) (l : Option LaunchTag) (who : Option Nat) (c : EClass) (n : Nat) : (chargeFor s l who c n).part.stepRecs = s.part.stepRecs := by
  unfold chargeFor; split <;> rfl
@[simp] theorem chargeFor_part_late (s : State) (l : Option LaunchTag) (who : Option Nat) (c : EClass) (n : Nat) : (chargeFor s l who c n).part.late = s.part.late := by
  unfold chargeFor; split <;> rfl
@[simp] theorem chargeFor_part_reports (s : State) (l : Option LaunchTag) (who : Option Nat) (c : EClass) (n : Nat) : (chargeFor s l who c n).part.reports = s.part.reports := by
  unfold chargeFor; split <;> rfl
@[simp] theorem chargeFor_part_asked (s : State) (l : Option LaunchTag) (who : Option Nat) (c : EClass) (n : Nat) : (chargeFor s l who c n).part.asked = s.part.asked := by
  unfold chargeFor; split <;> rfl
@[simp] theorem chargeFor_part_groups (s : State) (l : Option LaunchTag) (who : Option Nat) (c : EClass) (n : Nat) : (chargeFor s l who c n).part.groups = s.part.groups := by
  unfold chargeFor; split <;> rfl
@[simp] theorem chargeFor_part_windows (s : State) (l : Option LaunchTag) (who : Option Nat) (c : EClass) (n : Nat) : (chargeFor s l who c n).part.windows = s.part.windows := by
  unfold chargeFor; split <;> rfl
@[simp] theorem chargeFor_part_darns (s : State) (l : Option LaunchTag) (who : Option Nat) (c : EClass) (n : Nat) : (chargeFor s l who c n).part.darns = s.part.darns := by
  unfold chargeFor; split <;> rfl
@[simp] theorem chargeFor_part_closed (s : State) (l : Option LaunchTag) (who : Option Nat) (c : EClass) (n : Nat) : (chargeFor s l who c n).part.closed = s.part.closed := by
  unfold chargeFor; split <;> rfl
@[simp] theorem chargeFor_part_outbox (s : State) (l : Option LaunchTag) (who : Option Nat) (c : EClass) (n : Nat) : (chargeFor s l who c n).part.outbox = s.part.outbox := by
  unfold chargeFor; split <;> rfl
@[simp] theorem chargeFor_part_msgsIn (s : State) (l : Option LaunchTag) (who : Option Nat) (c : EClass) (n : Nat) : (chargeFor s l who c n).part.msgsIn = s.part.msgsIn := by
  unfold chargeFor; split <;> rfl
@[simp] theorem chargeFor_part_waits (s : State) (l : Option LaunchTag) (who : Option Nat) (c : EClass) (n : Nat) : (chargeFor s l who c n).part.waits = s.part.waits := by
  unfold chargeFor; split <;> rfl
@[simp] theorem chargeFor_part_copies (s : State) (l : Option LaunchTag) (who : Option Nat) (c : EClass) (n : Nat) : (chargeFor s l who c n).part.copies = s.part.copies := by
  unfold chargeFor; split <;> rfl
@[simp] theorem chargeFor_part_bp (s : State) (l : Option LaunchTag) (who : Option Nat) (c : EClass) (n : Nat) : (chargeFor s l who c n).part.bp = s.part.bp := by
  unfold chargeFor; split <;> rfl
@[simp] theorem chargeFor_part_dstops (s : State) (l : Option LaunchTag) (who : Option Nat) (c : EClass) (n : Nat) : (chargeFor s l who c n).part.dstops = s.part.dstops := by
  unfold chargeFor; split <;> rfl
@[simp] theorem chargeFor_part_samples (s : State) (l : Option LaunchTag) (who : Option Nat) (c : EClass) (n : Nat) : (chargeFor s l who c n).part.samples = s.part.samples := by
  unfold chargeFor; split <;> rfl
@[simp] theorem chargeFor_part_chosen (s : State) (l : Option LaunchTag) (who : Option Nat) (c : EClass) (n : Nat) : (chargeFor s l who c n).part.chosen = s.part.chosen := by
  unfold chargeFor; split <;> rfl
@[simp] theorem chargeFor_part_decision (s : State) (l : Option LaunchTag) (who : Option Nat) (c : EClass) (n : Nat) : (chargeFor s l who c n).part.decision = s.part.decision := by
  unfold chargeFor; split <;> rfl
@[simp] theorem chargeFor_part_counts (s : State) (l : Option LaunchTag) (who : Option Nat) (c : EClass) (n : Nat) : (chargeFor s l who c n).part.counts = s.part.counts := by
  unfold chargeFor; split <;> rfl
@[simp] theorem chargeFor_part_vu (s : State) (l : Option LaunchTag) (who : Option Nat) (c : EClass) (n : Nat) : (chargeFor s l who c n).part.vu = s.part.vu := by
  unfold chargeFor; split <;> rfl
@[simp] theorem chargeFor_part_vn (s : State) (l : Option LaunchTag) (who : Option Nat) (c : EClass) (n : Nat) : (chargeFor s l who c n).part.vn = s.part.vn := by
  unfold chargeFor; split <;> rfl
@[simp] theorem chargeFor_part_quantum (s : State) (l : Option LaunchTag) (who : Option Nat) (c : EClass) (n : Nat) : (chargeFor s l who c n).part.quantum = s.part.quantum := by
  unfold chargeFor; split <;> rfl
@[simp] theorem chargeFor_part_coefs (s : State) (l : Option LaunchTag) (who : Option Nat) (c : EClass) (n : Nat) : (chargeFor s l who c n).part.coefs = s.part.coefs := by
  unfold chargeFor; split <;> rfl
@[simp] theorem chargeFor_part_nextCoefs (s : State) (l : Option LaunchTag) (who : Option Nat) (c : EClass) (n : Nat) : (chargeFor s l who c n).part.nextCoefs = s.part.nextCoefs := by
  unfold chargeFor; split <;> rfl

@[simp] theorem chargeTo_vc (s : State) (who : Option Nat) (c : EClass) (n : Nat) : (chargeTo s who c n).vc = s.vc := by
  unfold chargeTo; simp
@[simp] theorem chargeTo_peers (s : State) (who : Option Nat) (c : EClass) (n : Nat) : (chargeTo s who c n).peers = s.peers := by
  unfold chargeTo; simp
@[simp] theorem chargeTo_launch (s : State) (who : Option Nat) (c : EClass) (n : Nat) : (chargeTo s who c n).launch = s.launch := by
  unfold chargeTo; simp
@[simp] theorem chargeTo_others (s : State) (who : Option Nat) (c : EClass) (n : Nat) : (chargeTo s who c n).others = s.others := by
  unfold chargeTo; simp
@[simp] theorem chargeTo_dev (s : State) (who : Option Nat) (c : EClass) (n : Nat) : (chargeTo s who c n).dev = s.dev := by
  unfold chargeTo; simp
@[simp] theorem chargeTo_inbox (s : State) (who : Option Nat) (c : EClass) (n : Nat) : (chargeTo s who c n).inbox = s.inbox := by
  unfold chargeTo; simp
@[simp] theorem chargeTo_upsets (s : State) (who : Option Nat) (c : EClass) (n : Nat) : (chargeTo s who c n).upsets = s.upsets := by
  unfold chargeTo; simp
@[simp] theorem chargeTo_mover (s : State) (who : Option Nat) (c : EClass) (n : Nat) : (chargeTo s who c n).mover = s.mover := by
  unfold chargeTo; simp
@[simp] theorem chargeTo_fresh (s : State) (who : Option Nat) (c : EClass) (n : Nat) : (chargeTo s who c n).fresh = s.fresh := by
  unfold chargeTo; simp
@[simp] theorem chargeTo_part_idx (s : State) (who : Option Nat) (c : EClass) (n : Nat) : (chargeTo s who c n).part.idx = s.part.idx := by
  unfold chargeTo; simp
@[simp] theorem chargeTo_part_bound (s : State) (who : Option Nat) (c : EClass) (n : Nat) : (chargeTo s who c n).part.bound = s.part.bound := by
  unfold chargeTo; simp
@[simp] theorem chargeTo_part_reset (s : State) (who : Option Nat) (c : EClass) (n : Nat) : (chargeTo s who c n).part.reset = s.part.reset := by
  unfold chargeTo; simp
@[simp] theorem chargeTo_part_wasBound (s : State) (who : Option Nat) (c : EClass) (n : Nat) : (chargeTo s who c n).part.wasBound = s.part.wasBound := by
  unfold chargeTo; simp
@[simp] theorem chargeTo_part_scrub (s : State) (who : Option Nat) (c : EClass) (n : Nat) : (chargeTo s who c n).part.scrub = s.part.scrub := by
  unfold chargeTo; simp
@[simp] theorem chargeTo_part_mem (s : State) (who : Option Nat) (c : EClass) (n : Nat) : (chargeTo s who c n).part.mem = s.part.mem := by
  unfold chargeTo; simp
@[simp] theorem chargeTo_part_l2 (s : State) (who : Option Nat) (c : EClass) (n : Nat) : (chargeTo s who c n).part.l2 = s.part.l2 := by
  unfold chargeTo; simp
@[simp] theorem chargeTo_part_poison (s : State) (who : Option Nat) (c : EClass) (n : Nat) : (chargeTo s who c n).part.poison = s.part.poison := by
  unfold chargeTo; simp
@[simp] theorem chargeTo_part_slow (s : State) (who : Option Nat) (c : EClass) (n : Nat) : (chargeTo s who c n).part.slow = s.part.slow := by
  unfold chargeTo; simp
@[simp] theorem chargeTo_part_pcNext (s : State) (who : Option Nat) (c : EClass) (n : Nat) : (chargeTo s who c n).part.pcNext = s.part.pcNext := by
  unfold chargeTo; simp
@[simp] theorem chargeTo_part_hmask (s : State) (who : Option Nat) (c : EClass) (n : Nat) : (chargeTo s who c n).part.hmask = s.part.hmask := by
  unfold chargeTo; simp
@[simp] theorem chargeTo_part_ptroot (s : State) (who : Option Nat) (c : EClass) (n : Nat) : (chargeTo s who c n).part.ptroot = s.part.ptroot := by
  unfold chargeTo; simp
@[simp] theorem chargeTo_part_vsbase (s : State) (who : Option Nat) (c : EClass) (n : Nat) : (chargeTo s who c n).part.vsbase = s.part.vsbase := by
  unfold chargeTo; simp
@[simp] theorem chargeTo_part_vsize (s : State) (who : Option Nat) (c : EClass) (n : Nat) : (chargeTo s who c n).part.vsize = s.part.vsize := by
  unfold chargeTo; simp
@[simp] theorem chargeTo_part_tlbinv (s : State) (who : Option Nat) (c : EClass) (n : Nat) : (chargeTo s who c n).part.tlbinv = s.part.tlbinv := by
  unfold chargeTo; simp
@[simp] theorem chargeTo_part_tlbBusy (s : State) (who : Option Nat) (c : EClass) (n : Nat) : (chargeTo s who c n).part.tlbBusy = s.part.tlbBusy := by
  unfold chargeTo; simp
@[simp] theorem chargeTo_part_walks (s : State) (who : Option Nat) (c : EClass) (n : Nat) : (chargeTo s who c n).part.walks = s.part.walks := by
  unfold chargeTo; simp
@[simp] theorem chargeTo_part_ctlb (s : State) (who : Option Nat) (c : EClass) (n : Nat) : (chargeTo s who c n).part.ctlb = s.part.ctlb := by
  unfold chargeTo; simp
@[simp] theorem chargeTo_part_dlallow (s : State) (who : Option Nat) (c : EClass) (n : Nat) : (chargeTo s who c n).part.dlallow = s.part.dlallow := by
  unfold chargeTo; simp
@[simp] theorem chargeTo_part_ctxbase (s : State) (who : Option Nat) (c : EClass) (n : Nat) : (chargeTo s who c n).part.ctxbase = s.part.ctxbase := by
  unfold chargeTo; simp
@[simp] theorem chargeTo_part_ctxn (s : State) (who : Option Nat) (c : EClass) (n : Nat) : (chargeTo s who c n).part.ctxn = s.part.ctxn := by
  unfold chargeTo; simp
@[simp] theorem chargeTo_part_saved (s : State) (who : Option Nat) (c : EClass) (n : Nat) : (chargeTo s who c n).part.saved = s.part.saved := by
  unfold chargeTo; simp
@[simp] theorem chargeTo_part_equota (s : State) (who : Option Nat) (c : EClass) (n : Nat) : (chargeTo s who c n).part.equota = s.part.equota := by
  unfold chargeTo; simp
@[simp] theorem chargeTo_part_shared (s : State) (who : Option Nat) (c : EClass) (n : Nat) : (chargeTo s who c n).part.shared = s.part.shared := by
  unfold chargeTo; simp
@[simp] theorem chargeTo_part_spent (s : State) (who : Option Nat) (c : EClass) (n : Nat) : (chargeTo s who c n).part.spent = s.part.spent := by
  unfold chargeTo; simp
@[simp] theorem chargeTo_part_pw (s : State) (who : Option Nat) (c : EClass) (n : Nat) : (chargeTo s who c n).part.pw = s.part.pw := by
  unfold chargeTo; simp
@[simp] theorem chargeTo_part_cset (s : State) (who : Option Nat) (c : EClass) (n : Nat) : (chargeTo s who c n).part.cset = s.part.cset := by
  unfold chargeTo; simp
@[simp] theorem chargeTo_part_ex (s : State) (who : Option Nat) (c : EClass) (n : Nat) : (chargeTo s who c n).part.ex = s.part.ex := by
  unfold chargeTo; simp
@[simp] theorem chargeTo_part_x (s : State) (who : Option Nat) (c : EClass) (n : Nat) : (chargeTo s who c n).part.x = s.part.x := by
  unfold chargeTo; simp
@[simp] theorem chargeTo_part_openEp (s : State) (who : Option Nat) (c : EClass) (n : Nat) : (chargeTo s who c n).part.openEp = s.part.openEp := by
  unfold chargeTo; simp
@[simp] theorem chargeTo_part_epSeqs (s : State) (who : Option Nat) (c : EClass) (n : Nat) : (chargeTo s who c n).part.epSeqs = s.part.epSeqs := by
  unfold chargeTo; simp
@[simp] theorem chargeTo_part_nextEp (s : State) (who : Option Nat) (c : EClass) (n : Nat) : (chargeTo s who c n).part.nextEp = s.part.nextEp := by
  unfold chargeTo; simp
@[simp] theorem chargeTo_part_outcomes (s : State) (who : Option Nat) (c : EClass) (n : Nat) : (chargeTo s who c n).part.outcomes = s.part.outcomes := by
  unfold chargeTo; simp
@[simp] theorem chargeTo_part_commits (s : State) (who : Option Nat) (c : EClass) (n : Nat) : (chargeTo s who c n).part.commits = s.part.commits := by
  unfold chargeTo; simp
@[simp] theorem chargeTo_part_blocks (s : State) (who : Option Nat) (c : EClass) (n : Nat) : (chargeTo s who c n).part.blocks = s.part.blocks := by
  unfold chargeTo; simp
@[simp] theorem chargeTo_part_drainQ (s : State) (who : Option Nat) (c : EClass) (n : Nat) : (chargeTo s who c n).part.drainQ = s.part.drainQ := by
  unfold chargeTo; simp
@[simp] theorem chargeTo_part_drains (s : State) (who : Option Nat) (c : EClass) (n : Nat) : (chargeTo s who c n).part.drains = s.part.drains := by
  unfold chargeTo; simp
@[simp] theorem chargeTo_part_acked (s : State) (who : Option Nat) (c : EClass) (n : Nat) : (chargeTo s who c n).part.acked = s.part.acked := by
  unfold chargeTo; simp
@[simp] theorem chargeTo_part_voted (s : State) (who : Option Nat) (c : EClass) (n : Nat) : (chargeTo s who c n).part.voted = s.part.voted := by
  unfold chargeTo; simp
@[simp] theorem chargeTo_part_devVote (s : State) (who : Option Nat) (c : EClass) (n : Nat) : (chargeTo s who c n).part.devVote = s.part.devVote := by
  unfold chargeTo; simp
@[simp] theorem chargeTo_part_devLoss (s : State) (who : Option Nat) (c : EClass) (n : Nat) : (chargeTo s who c n).part.devLoss = s.part.devLoss := by
  unfold chargeTo; simp
@[simp] theorem chargeTo_part_endVoted (s : State) (who : Option Nat) (c : EClass) (n : Nat) : (chargeTo s who c n).part.endVoted = s.part.endVoted := by
  unfold chargeTo; simp
@[simp] theorem chargeTo_part_stepTag (s : State) (who : Option Nat) (c : EClass) (n : Nat) : (chargeTo s who c n).part.stepTag = s.part.stepTag := by
  unfold chargeTo; simp
@[simp] theorem chargeTo_part_stepRecs (s : State) (who : Option Nat) (c : EClass) (n : Nat) : (chargeTo s who c n).part.stepRecs = s.part.stepRecs := by
  unfold chargeTo; simp
@[simp] theorem chargeTo_part_late (s : State) (who : Option Nat) (c : EClass) (n : Nat) : (chargeTo s who c n).part.late = s.part.late := by
  unfold chargeTo; simp
@[simp] theorem chargeTo_part_reports (s : State) (who : Option Nat) (c : EClass) (n : Nat) : (chargeTo s who c n).part.reports = s.part.reports := by
  unfold chargeTo; simp
@[simp] theorem chargeTo_part_asked (s : State) (who : Option Nat) (c : EClass) (n : Nat) : (chargeTo s who c n).part.asked = s.part.asked := by
  unfold chargeTo; simp
@[simp] theorem chargeTo_part_groups (s : State) (who : Option Nat) (c : EClass) (n : Nat) : (chargeTo s who c n).part.groups = s.part.groups := by
  unfold chargeTo; simp
@[simp] theorem chargeTo_part_windows (s : State) (who : Option Nat) (c : EClass) (n : Nat) : (chargeTo s who c n).part.windows = s.part.windows := by
  unfold chargeTo; simp
@[simp] theorem chargeTo_part_darns (s : State) (who : Option Nat) (c : EClass) (n : Nat) : (chargeTo s who c n).part.darns = s.part.darns := by
  unfold chargeTo; simp
@[simp] theorem chargeTo_part_closed (s : State) (who : Option Nat) (c : EClass) (n : Nat) : (chargeTo s who c n).part.closed = s.part.closed := by
  unfold chargeTo; simp
@[simp] theorem chargeTo_part_outbox (s : State) (who : Option Nat) (c : EClass) (n : Nat) : (chargeTo s who c n).part.outbox = s.part.outbox := by
  unfold chargeTo; simp
@[simp] theorem chargeTo_part_msgsIn (s : State) (who : Option Nat) (c : EClass) (n : Nat) : (chargeTo s who c n).part.msgsIn = s.part.msgsIn := by
  unfold chargeTo; simp
@[simp] theorem chargeTo_part_waits (s : State) (who : Option Nat) (c : EClass) (n : Nat) : (chargeTo s who c n).part.waits = s.part.waits := by
  unfold chargeTo; simp
@[simp] theorem chargeTo_part_copies (s : State) (who : Option Nat) (c : EClass) (n : Nat) : (chargeTo s who c n).part.copies = s.part.copies := by
  unfold chargeTo; simp
@[simp] theorem chargeTo_part_bp (s : State) (who : Option Nat) (c : EClass) (n : Nat) : (chargeTo s who c n).part.bp = s.part.bp := by
  unfold chargeTo; simp
@[simp] theorem chargeTo_part_dstops (s : State) (who : Option Nat) (c : EClass) (n : Nat) : (chargeTo s who c n).part.dstops = s.part.dstops := by
  unfold chargeTo; simp
@[simp] theorem chargeTo_part_samples (s : State) (who : Option Nat) (c : EClass) (n : Nat) : (chargeTo s who c n).part.samples = s.part.samples := by
  unfold chargeTo; simp
@[simp] theorem chargeTo_part_chosen (s : State) (who : Option Nat) (c : EClass) (n : Nat) : (chargeTo s who c n).part.chosen = s.part.chosen := by
  unfold chargeTo; simp
@[simp] theorem chargeTo_part_decision (s : State) (who : Option Nat) (c : EClass) (n : Nat) : (chargeTo s who c n).part.decision = s.part.decision := by
  unfold chargeTo; simp
@[simp] theorem chargeTo_part_counts (s : State) (who : Option Nat) (c : EClass) (n : Nat) : (chargeTo s who c n).part.counts = s.part.counts := by
  unfold chargeTo; simp
@[simp] theorem chargeTo_part_vu (s : State) (who : Option Nat) (c : EClass) (n : Nat) : (chargeTo s who c n).part.vu = s.part.vu := by
  unfold chargeTo; simp
@[simp] theorem chargeTo_part_vn (s : State) (who : Option Nat) (c : EClass) (n : Nat) : (chargeTo s who c n).part.vn = s.part.vn := by
  unfold chargeTo; simp
@[simp] theorem chargeTo_part_quantum (s : State) (who : Option Nat) (c : EClass) (n : Nat) : (chargeTo s who c n).part.quantum = s.part.quantum := by
  unfold chargeTo; simp
@[simp] theorem chargeTo_part_coefs (s : State) (who : Option Nat) (c : EClass) (n : Nat) : (chargeTo s who c n).part.coefs = s.part.coefs := by
  unfold chargeTo; simp
@[simp] theorem chargeTo_part_nextCoefs (s : State) (who : Option Nat) (c : EClass) (n : Nat) : (chargeTo s who c n).part.nextCoefs = s.part.nextCoefs := by
  unfold chargeTo; simp

@[simp] theorem charge_vc (s : State) (c : EClass) (n : Nat) : (charge s c n).vc = s.vc := by
  unfold charge; simp
@[simp] theorem charge_peers (s : State) (c : EClass) (n : Nat) : (charge s c n).peers = s.peers := by
  unfold charge; simp
@[simp] theorem charge_launch (s : State) (c : EClass) (n : Nat) : (charge s c n).launch = s.launch := by
  unfold charge; simp
@[simp] theorem charge_others (s : State) (c : EClass) (n : Nat) : (charge s c n).others = s.others := by
  unfold charge; simp
@[simp] theorem charge_dev (s : State) (c : EClass) (n : Nat) : (charge s c n).dev = s.dev := by
  unfold charge; simp
@[simp] theorem charge_inbox (s : State) (c : EClass) (n : Nat) : (charge s c n).inbox = s.inbox := by
  unfold charge; simp
@[simp] theorem charge_upsets (s : State) (c : EClass) (n : Nat) : (charge s c n).upsets = s.upsets := by
  unfold charge; simp
@[simp] theorem charge_mover (s : State) (c : EClass) (n : Nat) : (charge s c n).mover = s.mover := by
  unfold charge; simp
@[simp] theorem charge_fresh (s : State) (c : EClass) (n : Nat) : (charge s c n).fresh = s.fresh := by
  unfold charge; simp
@[simp] theorem charge_part_idx (s : State) (c : EClass) (n : Nat) : (charge s c n).part.idx = s.part.idx := by
  unfold charge; simp
@[simp] theorem charge_part_bound (s : State) (c : EClass) (n : Nat) : (charge s c n).part.bound = s.part.bound := by
  unfold charge; simp
@[simp] theorem charge_part_reset (s : State) (c : EClass) (n : Nat) : (charge s c n).part.reset = s.part.reset := by
  unfold charge; simp
@[simp] theorem charge_part_wasBound (s : State) (c : EClass) (n : Nat) : (charge s c n).part.wasBound = s.part.wasBound := by
  unfold charge; simp
@[simp] theorem charge_part_scrub (s : State) (c : EClass) (n : Nat) : (charge s c n).part.scrub = s.part.scrub := by
  unfold charge; simp
@[simp] theorem charge_part_mem (s : State) (c : EClass) (n : Nat) : (charge s c n).part.mem = s.part.mem := by
  unfold charge; simp
@[simp] theorem charge_part_l2 (s : State) (c : EClass) (n : Nat) : (charge s c n).part.l2 = s.part.l2 := by
  unfold charge; simp
@[simp] theorem charge_part_poison (s : State) (c : EClass) (n : Nat) : (charge s c n).part.poison = s.part.poison := by
  unfold charge; simp
@[simp] theorem charge_part_slow (s : State) (c : EClass) (n : Nat) : (charge s c n).part.slow = s.part.slow := by
  unfold charge; simp
@[simp] theorem charge_part_pcNext (s : State) (c : EClass) (n : Nat) : (charge s c n).part.pcNext = s.part.pcNext := by
  unfold charge; simp
@[simp] theorem charge_part_hmask (s : State) (c : EClass) (n : Nat) : (charge s c n).part.hmask = s.part.hmask := by
  unfold charge; simp
@[simp] theorem charge_part_ptroot (s : State) (c : EClass) (n : Nat) : (charge s c n).part.ptroot = s.part.ptroot := by
  unfold charge; simp
@[simp] theorem charge_part_vsbase (s : State) (c : EClass) (n : Nat) : (charge s c n).part.vsbase = s.part.vsbase := by
  unfold charge; simp
@[simp] theorem charge_part_vsize (s : State) (c : EClass) (n : Nat) : (charge s c n).part.vsize = s.part.vsize := by
  unfold charge; simp
@[simp] theorem charge_part_tlbinv (s : State) (c : EClass) (n : Nat) : (charge s c n).part.tlbinv = s.part.tlbinv := by
  unfold charge; simp
@[simp] theorem charge_part_tlbBusy (s : State) (c : EClass) (n : Nat) : (charge s c n).part.tlbBusy = s.part.tlbBusy := by
  unfold charge; simp
@[simp] theorem charge_part_walks (s : State) (c : EClass) (n : Nat) : (charge s c n).part.walks = s.part.walks := by
  unfold charge; simp
@[simp] theorem charge_part_ctlb (s : State) (c : EClass) (n : Nat) : (charge s c n).part.ctlb = s.part.ctlb := by
  unfold charge; simp
@[simp] theorem charge_part_dlallow (s : State) (c : EClass) (n : Nat) : (charge s c n).part.dlallow = s.part.dlallow := by
  unfold charge; simp
@[simp] theorem charge_part_ctxbase (s : State) (c : EClass) (n : Nat) : (charge s c n).part.ctxbase = s.part.ctxbase := by
  unfold charge; simp
@[simp] theorem charge_part_ctxn (s : State) (c : EClass) (n : Nat) : (charge s c n).part.ctxn = s.part.ctxn := by
  unfold charge; simp
@[simp] theorem charge_part_saved (s : State) (c : EClass) (n : Nat) : (charge s c n).part.saved = s.part.saved := by
  unfold charge; simp
@[simp] theorem charge_part_equota (s : State) (c : EClass) (n : Nat) : (charge s c n).part.equota = s.part.equota := by
  unfold charge; simp
@[simp] theorem charge_part_shared (s : State) (c : EClass) (n : Nat) : (charge s c n).part.shared = s.part.shared := by
  unfold charge; simp
@[simp] theorem charge_part_spent (s : State) (c : EClass) (n : Nat) : (charge s c n).part.spent = s.part.spent := by
  unfold charge; simp
@[simp] theorem charge_part_pw (s : State) (c : EClass) (n : Nat) : (charge s c n).part.pw = s.part.pw := by
  unfold charge; simp
@[simp] theorem charge_part_cset (s : State) (c : EClass) (n : Nat) : (charge s c n).part.cset = s.part.cset := by
  unfold charge; simp
@[simp] theorem charge_part_ex (s : State) (c : EClass) (n : Nat) : (charge s c n).part.ex = s.part.ex := by
  unfold charge; simp
@[simp] theorem charge_part_x (s : State) (c : EClass) (n : Nat) : (charge s c n).part.x = s.part.x := by
  unfold charge; simp
@[simp] theorem charge_part_openEp (s : State) (c : EClass) (n : Nat) : (charge s c n).part.openEp = s.part.openEp := by
  unfold charge; simp
@[simp] theorem charge_part_epSeqs (s : State) (c : EClass) (n : Nat) : (charge s c n).part.epSeqs = s.part.epSeqs := by
  unfold charge; simp
@[simp] theorem charge_part_nextEp (s : State) (c : EClass) (n : Nat) : (charge s c n).part.nextEp = s.part.nextEp := by
  unfold charge; simp
@[simp] theorem charge_part_outcomes (s : State) (c : EClass) (n : Nat) : (charge s c n).part.outcomes = s.part.outcomes := by
  unfold charge; simp
@[simp] theorem charge_part_commits (s : State) (c : EClass) (n : Nat) : (charge s c n).part.commits = s.part.commits := by
  unfold charge; simp
@[simp] theorem charge_part_blocks (s : State) (c : EClass) (n : Nat) : (charge s c n).part.blocks = s.part.blocks := by
  unfold charge; simp
@[simp] theorem charge_part_drainQ (s : State) (c : EClass) (n : Nat) : (charge s c n).part.drainQ = s.part.drainQ := by
  unfold charge; simp
@[simp] theorem charge_part_drains (s : State) (c : EClass) (n : Nat) : (charge s c n).part.drains = s.part.drains := by
  unfold charge; simp
@[simp] theorem charge_part_acked (s : State) (c : EClass) (n : Nat) : (charge s c n).part.acked = s.part.acked := by
  unfold charge; simp
@[simp] theorem charge_part_voted (s : State) (c : EClass) (n : Nat) : (charge s c n).part.voted = s.part.voted := by
  unfold charge; simp
@[simp] theorem charge_part_devVote (s : State) (c : EClass) (n : Nat) : (charge s c n).part.devVote = s.part.devVote := by
  unfold charge; simp
@[simp] theorem charge_part_devLoss (s : State) (c : EClass) (n : Nat) : (charge s c n).part.devLoss = s.part.devLoss := by
  unfold charge; simp
@[simp] theorem charge_part_endVoted (s : State) (c : EClass) (n : Nat) : (charge s c n).part.endVoted = s.part.endVoted := by
  unfold charge; simp
@[simp] theorem charge_part_stepTag (s : State) (c : EClass) (n : Nat) : (charge s c n).part.stepTag = s.part.stepTag := by
  unfold charge; simp
@[simp] theorem charge_part_stepRecs (s : State) (c : EClass) (n : Nat) : (charge s c n).part.stepRecs = s.part.stepRecs := by
  unfold charge; simp
@[simp] theorem charge_part_late (s : State) (c : EClass) (n : Nat) : (charge s c n).part.late = s.part.late := by
  unfold charge; simp
@[simp] theorem charge_part_reports (s : State) (c : EClass) (n : Nat) : (charge s c n).part.reports = s.part.reports := by
  unfold charge; simp
@[simp] theorem charge_part_asked (s : State) (c : EClass) (n : Nat) : (charge s c n).part.asked = s.part.asked := by
  unfold charge; simp
@[simp] theorem charge_part_groups (s : State) (c : EClass) (n : Nat) : (charge s c n).part.groups = s.part.groups := by
  unfold charge; simp
@[simp] theorem charge_part_windows (s : State) (c : EClass) (n : Nat) : (charge s c n).part.windows = s.part.windows := by
  unfold charge; simp
@[simp] theorem charge_part_darns (s : State) (c : EClass) (n : Nat) : (charge s c n).part.darns = s.part.darns := by
  unfold charge; simp
@[simp] theorem charge_part_closed (s : State) (c : EClass) (n : Nat) : (charge s c n).part.closed = s.part.closed := by
  unfold charge; simp
@[simp] theorem charge_part_outbox (s : State) (c : EClass) (n : Nat) : (charge s c n).part.outbox = s.part.outbox := by
  unfold charge; simp
@[simp] theorem charge_part_msgsIn (s : State) (c : EClass) (n : Nat) : (charge s c n).part.msgsIn = s.part.msgsIn := by
  unfold charge; simp
@[simp] theorem charge_part_waits (s : State) (c : EClass) (n : Nat) : (charge s c n).part.waits = s.part.waits := by
  unfold charge; simp
@[simp] theorem charge_part_copies (s : State) (c : EClass) (n : Nat) : (charge s c n).part.copies = s.part.copies := by
  unfold charge; simp
@[simp] theorem charge_part_bp (s : State) (c : EClass) (n : Nat) : (charge s c n).part.bp = s.part.bp := by
  unfold charge; simp
@[simp] theorem charge_part_dstops (s : State) (c : EClass) (n : Nat) : (charge s c n).part.dstops = s.part.dstops := by
  unfold charge; simp
@[simp] theorem charge_part_samples (s : State) (c : EClass) (n : Nat) : (charge s c n).part.samples = s.part.samples := by
  unfold charge; simp
@[simp] theorem charge_part_chosen (s : State) (c : EClass) (n : Nat) : (charge s c n).part.chosen = s.part.chosen := by
  unfold charge; simp
@[simp] theorem charge_part_decision (s : State) (c : EClass) (n : Nat) : (charge s c n).part.decision = s.part.decision := by
  unfold charge; simp
@[simp] theorem charge_part_counts (s : State) (c : EClass) (n : Nat) : (charge s c n).part.counts = s.part.counts := by
  unfold charge; simp
@[simp] theorem charge_part_vu (s : State) (c : EClass) (n : Nat) : (charge s c n).part.vu = s.part.vu := by
  unfold charge; simp
@[simp] theorem charge_part_vn (s : State) (c : EClass) (n : Nat) : (charge s c n).part.vn = s.part.vn := by
  unfold charge; simp
@[simp] theorem charge_part_quantum (s : State) (c : EClass) (n : Nat) : (charge s c n).part.quantum = s.part.quantum := by
  unfold charge; simp
@[simp] theorem charge_part_coefs (s : State) (c : EClass) (n : Nat) : (charge s c n).part.coefs = s.part.coefs := by
  unfold charge; simp
@[simp] theorem charge_part_nextCoefs (s : State) (c : EClass) (n : Nat) : (charge s c n).part.nextCoefs = s.part.nextCoefs := by
  unfold charge; simp

/-! ### Memory -/

@[simp] theorem physWrite_vc (s : State) (pa : Nat) (d : List Byte) : (physWrite s pa d).vc = s.vc := rfl
@[simp] theorem physWrite_peers (s : State) (pa : Nat) (d : List Byte) : (physWrite s pa d).peers = s.peers := rfl
@[simp] theorem physWrite_launch (s : State) (pa : Nat) (d : List Byte) : (physWrite s pa d).launch = s.launch := rfl
@[simp] theorem physWrite_others (s : State) (pa : Nat) (d : List Byte) : (physWrite s pa d).others = s.others := rfl
@[simp] theorem physWrite_dev (s : State) (pa : Nat) (d : List Byte) : (physWrite s pa d).dev = s.dev := rfl
@[simp] theorem physWrite_inbox (s : State) (pa : Nat) (d : List Byte) : (physWrite s pa d).inbox = s.inbox := rfl
@[simp] theorem physWrite_upsets (s : State) (pa : Nat) (d : List Byte) : (physWrite s pa d).upsets = s.upsets := rfl
@[simp] theorem physWrite_mover (s : State) (pa : Nat) (d : List Byte) : (physWrite s pa d).mover = s.mover := rfl
@[simp] theorem physWrite_fresh (s : State) (pa : Nat) (d : List Byte) : (physWrite s pa d).fresh = s.fresh := rfl
@[simp] theorem physWrite_part_idx (s : State) (pa : Nat) (d : List Byte) : (physWrite s pa d).part.idx = s.part.idx := rfl
@[simp] theorem physWrite_part_bound (s : State) (pa : Nat) (d : List Byte) : (physWrite s pa d).part.bound = s.part.bound := rfl
@[simp] theorem physWrite_part_reset (s : State) (pa : Nat) (d : List Byte) : (physWrite s pa d).part.reset = s.part.reset := rfl
@[simp] theorem physWrite_part_wasBound (s : State) (pa : Nat) (d : List Byte) : (physWrite s pa d).part.wasBound = s.part.wasBound := rfl
@[simp] theorem physWrite_part_scrub (s : State) (pa : Nat) (d : List Byte) : (physWrite s pa d).part.scrub = s.part.scrub := rfl
@[simp] theorem physWrite_part_l2 (s : State) (pa : Nat) (d : List Byte) : (physWrite s pa d).part.l2 = s.part.l2 := rfl
@[simp] theorem physWrite_part_poison (s : State) (pa : Nat) (d : List Byte) : (physWrite s pa d).part.poison = s.part.poison := rfl
@[simp] theorem physWrite_part_slow (s : State) (pa : Nat) (d : List Byte) : (physWrite s pa d).part.slow = s.part.slow := rfl
@[simp] theorem physWrite_part_pcNext (s : State) (pa : Nat) (d : List Byte) : (physWrite s pa d).part.pcNext = s.part.pcNext := rfl
@[simp] theorem physWrite_part_hmask (s : State) (pa : Nat) (d : List Byte) : (physWrite s pa d).part.hmask = s.part.hmask := rfl
@[simp] theorem physWrite_part_ptroot (s : State) (pa : Nat) (d : List Byte) : (physWrite s pa d).part.ptroot = s.part.ptroot := rfl
@[simp] theorem physWrite_part_vsbase (s : State) (pa : Nat) (d : List Byte) : (physWrite s pa d).part.vsbase = s.part.vsbase := rfl
@[simp] theorem physWrite_part_vsize (s : State) (pa : Nat) (d : List Byte) : (physWrite s pa d).part.vsize = s.part.vsize := rfl
@[simp] theorem physWrite_part_tlbinv (s : State) (pa : Nat) (d : List Byte) : (physWrite s pa d).part.tlbinv = s.part.tlbinv := rfl
@[simp] theorem physWrite_part_tlbBusy (s : State) (pa : Nat) (d : List Byte) : (physWrite s pa d).part.tlbBusy = s.part.tlbBusy := rfl
@[simp] theorem physWrite_part_walks (s : State) (pa : Nat) (d : List Byte) : (physWrite s pa d).part.walks = s.part.walks := rfl
@[simp] theorem physWrite_part_ctlb (s : State) (pa : Nat) (d : List Byte) : (physWrite s pa d).part.ctlb = s.part.ctlb := rfl
@[simp] theorem physWrite_part_dlallow (s : State) (pa : Nat) (d : List Byte) : (physWrite s pa d).part.dlallow = s.part.dlallow := rfl
@[simp] theorem physWrite_part_ctxbase (s : State) (pa : Nat) (d : List Byte) : (physWrite s pa d).part.ctxbase = s.part.ctxbase := rfl
@[simp] theorem physWrite_part_ctxn (s : State) (pa : Nat) (d : List Byte) : (physWrite s pa d).part.ctxn = s.part.ctxn := rfl
@[simp] theorem physWrite_part_saved (s : State) (pa : Nat) (d : List Byte) : (physWrite s pa d).part.saved = s.part.saved := rfl
@[simp] theorem physWrite_part_equota (s : State) (pa : Nat) (d : List Byte) : (physWrite s pa d).part.equota = s.part.equota := rfl
@[simp] theorem physWrite_part_shared (s : State) (pa : Nat) (d : List Byte) : (physWrite s pa d).part.shared = s.part.shared := rfl
@[simp] theorem physWrite_part_spent (s : State) (pa : Nat) (d : List Byte) : (physWrite s pa d).part.spent = s.part.spent := rfl
@[simp] theorem physWrite_part_pw (s : State) (pa : Nat) (d : List Byte) : (physWrite s pa d).part.pw = s.part.pw := rfl
@[simp] theorem physWrite_part_cset (s : State) (pa : Nat) (d : List Byte) : (physWrite s pa d).part.cset = s.part.cset := rfl
@[simp] theorem physWrite_part_ex (s : State) (pa : Nat) (d : List Byte) : (physWrite s pa d).part.ex = s.part.ex := rfl
@[simp] theorem physWrite_part_x (s : State) (pa : Nat) (d : List Byte) : (physWrite s pa d).part.x = s.part.x := rfl
@[simp] theorem physWrite_part_openEp (s : State) (pa : Nat) (d : List Byte) : (physWrite s pa d).part.openEp = s.part.openEp := rfl
@[simp] theorem physWrite_part_epSeqs (s : State) (pa : Nat) (d : List Byte) : (physWrite s pa d).part.epSeqs = s.part.epSeqs := rfl
@[simp] theorem physWrite_part_nextEp (s : State) (pa : Nat) (d : List Byte) : (physWrite s pa d).part.nextEp = s.part.nextEp := rfl
@[simp] theorem physWrite_part_outcomes (s : State) (pa : Nat) (d : List Byte) : (physWrite s pa d).part.outcomes = s.part.outcomes := rfl
@[simp] theorem physWrite_part_commits (s : State) (pa : Nat) (d : List Byte) : (physWrite s pa d).part.commits = s.part.commits := rfl
@[simp] theorem physWrite_part_blocks (s : State) (pa : Nat) (d : List Byte) : (physWrite s pa d).part.blocks = s.part.blocks := rfl
@[simp] theorem physWrite_part_drainQ (s : State) (pa : Nat) (d : List Byte) : (physWrite s pa d).part.drainQ = s.part.drainQ := rfl
@[simp] theorem physWrite_part_drains (s : State) (pa : Nat) (d : List Byte) : (physWrite s pa d).part.drains = s.part.drains := rfl
@[simp] theorem physWrite_part_acked (s : State) (pa : Nat) (d : List Byte) : (physWrite s pa d).part.acked = s.part.acked := rfl
@[simp] theorem physWrite_part_voted (s : State) (pa : Nat) (d : List Byte) : (physWrite s pa d).part.voted = s.part.voted := rfl
@[simp] theorem physWrite_part_devVote (s : State) (pa : Nat) (d : List Byte) : (physWrite s pa d).part.devVote = s.part.devVote := rfl
@[simp] theorem physWrite_part_devLoss (s : State) (pa : Nat) (d : List Byte) : (physWrite s pa d).part.devLoss = s.part.devLoss := rfl
@[simp] theorem physWrite_part_endVoted (s : State) (pa : Nat) (d : List Byte) : (physWrite s pa d).part.endVoted = s.part.endVoted := rfl
@[simp] theorem physWrite_part_stepTag (s : State) (pa : Nat) (d : List Byte) : (physWrite s pa d).part.stepTag = s.part.stepTag := rfl
@[simp] theorem physWrite_part_stepRecs (s : State) (pa : Nat) (d : List Byte) : (physWrite s pa d).part.stepRecs = s.part.stepRecs := rfl
@[simp] theorem physWrite_part_late (s : State) (pa : Nat) (d : List Byte) : (physWrite s pa d).part.late = s.part.late := rfl
@[simp] theorem physWrite_part_reports (s : State) (pa : Nat) (d : List Byte) : (physWrite s pa d).part.reports = s.part.reports := rfl
@[simp] theorem physWrite_part_asked (s : State) (pa : Nat) (d : List Byte) : (physWrite s pa d).part.asked = s.part.asked := rfl
@[simp] theorem physWrite_part_groups (s : State) (pa : Nat) (d : List Byte) : (physWrite s pa d).part.groups = s.part.groups := rfl
@[simp] theorem physWrite_part_windows (s : State) (pa : Nat) (d : List Byte) : (physWrite s pa d).part.windows = s.part.windows := rfl
@[simp] theorem physWrite_part_darns (s : State) (pa : Nat) (d : List Byte) : (physWrite s pa d).part.darns = s.part.darns := rfl
@[simp] theorem physWrite_part_closed (s : State) (pa : Nat) (d : List Byte) : (physWrite s pa d).part.closed = s.part.closed := rfl
@[simp] theorem physWrite_part_outbox (s : State) (pa : Nat) (d : List Byte) : (physWrite s pa d).part.outbox = s.part.outbox := rfl
@[simp] theorem physWrite_part_msgsIn (s : State) (pa : Nat) (d : List Byte) : (physWrite s pa d).part.msgsIn = s.part.msgsIn := rfl
@[simp] theorem physWrite_part_waits (s : State) (pa : Nat) (d : List Byte) : (physWrite s pa d).part.waits = s.part.waits := rfl
@[simp] theorem physWrite_part_copies (s : State) (pa : Nat) (d : List Byte) : (physWrite s pa d).part.copies = s.part.copies := rfl
@[simp] theorem physWrite_part_bp (s : State) (pa : Nat) (d : List Byte) : (physWrite s pa d).part.bp = s.part.bp := rfl
@[simp] theorem physWrite_part_dstops (s : State) (pa : Nat) (d : List Byte) : (physWrite s pa d).part.dstops = s.part.dstops := rfl
@[simp] theorem physWrite_part_samples (s : State) (pa : Nat) (d : List Byte) : (physWrite s pa d).part.samples = s.part.samples := rfl
@[simp] theorem physWrite_part_chosen (s : State) (pa : Nat) (d : List Byte) : (physWrite s pa d).part.chosen = s.part.chosen := rfl
@[simp] theorem physWrite_part_decision (s : State) (pa : Nat) (d : List Byte) : (physWrite s pa d).part.decision = s.part.decision := rfl
@[simp] theorem physWrite_part_counts (s : State) (pa : Nat) (d : List Byte) : (physWrite s pa d).part.counts = s.part.counts := rfl
@[simp] theorem physWrite_part_vu (s : State) (pa : Nat) (d : List Byte) : (physWrite s pa d).part.vu = s.part.vu := rfl
@[simp] theorem physWrite_part_vn (s : State) (pa : Nat) (d : List Byte) : (physWrite s pa d).part.vn = s.part.vn := rfl
@[simp] theorem physWrite_part_quantum (s : State) (pa : Nat) (d : List Byte) : (physWrite s pa d).part.quantum = s.part.quantum := rfl
@[simp] theorem physWrite_part_charges (s : State) (pa : Nat) (d : List Byte) : (physWrite s pa d).part.charges = s.part.charges := rfl
@[simp] theorem physWrite_part_coefs (s : State) (pa : Nat) (d : List Byte) : (physWrite s pa d).part.coefs = s.part.coefs := rfl
@[simp] theorem physWrite_part_nextCoefs (s : State) (pa : Nat) (d : List Byte) : (physWrite s pa d).part.nextCoefs = s.part.nextCoefs := rfl

@[simp] theorem setBlock_vc (s : State) (bk : Nat) (b : Block) : (setBlock s bk b).vc = s.vc := rfl
@[simp] theorem setBlock_peers (s : State) (bk : Nat) (b : Block) : (setBlock s bk b).peers = s.peers := rfl
@[simp] theorem setBlock_launch (s : State) (bk : Nat) (b : Block) : (setBlock s bk b).launch = s.launch := rfl
@[simp] theorem setBlock_others (s : State) (bk : Nat) (b : Block) : (setBlock s bk b).others = s.others := rfl
@[simp] theorem setBlock_dev (s : State) (bk : Nat) (b : Block) : (setBlock s bk b).dev = s.dev := rfl
@[simp] theorem setBlock_inbox (s : State) (bk : Nat) (b : Block) : (setBlock s bk b).inbox = s.inbox := rfl
@[simp] theorem setBlock_upsets (s : State) (bk : Nat) (b : Block) : (setBlock s bk b).upsets = s.upsets := rfl
@[simp] theorem setBlock_mover (s : State) (bk : Nat) (b : Block) : (setBlock s bk b).mover = s.mover := rfl
@[simp] theorem setBlock_fresh (s : State) (bk : Nat) (b : Block) : (setBlock s bk b).fresh = s.fresh := rfl
@[simp] theorem setBlock_part_idx (s : State) (bk : Nat) (b : Block) : (setBlock s bk b).part.idx = s.part.idx := rfl
@[simp] theorem setBlock_part_bound (s : State) (bk : Nat) (b : Block) : (setBlock s bk b).part.bound = s.part.bound := rfl
@[simp] theorem setBlock_part_reset (s : State) (bk : Nat) (b : Block) : (setBlock s bk b).part.reset = s.part.reset := rfl
@[simp] theorem setBlock_part_wasBound (s : State) (bk : Nat) (b : Block) : (setBlock s bk b).part.wasBound = s.part.wasBound := rfl
@[simp] theorem setBlock_part_scrub (s : State) (bk : Nat) (b : Block) : (setBlock s bk b).part.scrub = s.part.scrub := rfl
@[simp] theorem setBlock_part_mem (s : State) (bk : Nat) (b : Block) : (setBlock s bk b).part.mem = s.part.mem := rfl
@[simp] theorem setBlock_part_l2 (s : State) (bk : Nat) (b : Block) : (setBlock s bk b).part.l2 = s.part.l2 := rfl
@[simp] theorem setBlock_part_poison (s : State) (bk : Nat) (b : Block) : (setBlock s bk b).part.poison = s.part.poison := rfl
@[simp] theorem setBlock_part_slow (s : State) (bk : Nat) (b : Block) : (setBlock s bk b).part.slow = s.part.slow := rfl
@[simp] theorem setBlock_part_pcNext (s : State) (bk : Nat) (b : Block) : (setBlock s bk b).part.pcNext = s.part.pcNext := rfl
@[simp] theorem setBlock_part_hmask (s : State) (bk : Nat) (b : Block) : (setBlock s bk b).part.hmask = s.part.hmask := rfl
@[simp] theorem setBlock_part_ptroot (s : State) (bk : Nat) (b : Block) : (setBlock s bk b).part.ptroot = s.part.ptroot := rfl
@[simp] theorem setBlock_part_vsbase (s : State) (bk : Nat) (b : Block) : (setBlock s bk b).part.vsbase = s.part.vsbase := rfl
@[simp] theorem setBlock_part_vsize (s : State) (bk : Nat) (b : Block) : (setBlock s bk b).part.vsize = s.part.vsize := rfl
@[simp] theorem setBlock_part_tlbinv (s : State) (bk : Nat) (b : Block) : (setBlock s bk b).part.tlbinv = s.part.tlbinv := rfl
@[simp] theorem setBlock_part_tlbBusy (s : State) (bk : Nat) (b : Block) : (setBlock s bk b).part.tlbBusy = s.part.tlbBusy := rfl
@[simp] theorem setBlock_part_walks (s : State) (bk : Nat) (b : Block) : (setBlock s bk b).part.walks = s.part.walks := rfl
@[simp] theorem setBlock_part_ctlb (s : State) (bk : Nat) (b : Block) : (setBlock s bk b).part.ctlb = s.part.ctlb := rfl
@[simp] theorem setBlock_part_dlallow (s : State) (bk : Nat) (b : Block) : (setBlock s bk b).part.dlallow = s.part.dlallow := rfl
@[simp] theorem setBlock_part_ctxbase (s : State) (bk : Nat) (b : Block) : (setBlock s bk b).part.ctxbase = s.part.ctxbase := rfl
@[simp] theorem setBlock_part_ctxn (s : State) (bk : Nat) (b : Block) : (setBlock s bk b).part.ctxn = s.part.ctxn := rfl
@[simp] theorem setBlock_part_saved (s : State) (bk : Nat) (b : Block) : (setBlock s bk b).part.saved = s.part.saved := rfl
@[simp] theorem setBlock_part_equota (s : State) (bk : Nat) (b : Block) : (setBlock s bk b).part.equota = s.part.equota := rfl
@[simp] theorem setBlock_part_shared (s : State) (bk : Nat) (b : Block) : (setBlock s bk b).part.shared = s.part.shared := rfl
@[simp] theorem setBlock_part_spent (s : State) (bk : Nat) (b : Block) : (setBlock s bk b).part.spent = s.part.spent := rfl
@[simp] theorem setBlock_part_pw (s : State) (bk : Nat) (b : Block) : (setBlock s bk b).part.pw = s.part.pw := rfl
@[simp] theorem setBlock_part_cset (s : State) (bk : Nat) (b : Block) : (setBlock s bk b).part.cset = s.part.cset := rfl
@[simp] theorem setBlock_part_ex (s : State) (bk : Nat) (b : Block) : (setBlock s bk b).part.ex = s.part.ex := rfl
@[simp] theorem setBlock_part_x (s : State) (bk : Nat) (b : Block) : (setBlock s bk b).part.x = s.part.x := rfl
@[simp] theorem setBlock_part_openEp (s : State) (bk : Nat) (b : Block) : (setBlock s bk b).part.openEp = s.part.openEp := rfl
@[simp] theorem setBlock_part_epSeqs (s : State) (bk : Nat) (b : Block) : (setBlock s bk b).part.epSeqs = s.part.epSeqs := rfl
@[simp] theorem setBlock_part_nextEp (s : State) (bk : Nat) (b : Block) : (setBlock s bk b).part.nextEp = s.part.nextEp := rfl
@[simp] theorem setBlock_part_outcomes (s : State) (bk : Nat) (b : Block) : (setBlock s bk b).part.outcomes = s.part.outcomes := rfl
@[simp] theorem setBlock_part_commits (s : State) (bk : Nat) (b : Block) : (setBlock s bk b).part.commits = s.part.commits := rfl
@[simp] theorem setBlock_part_drainQ (s : State) (bk : Nat) (b : Block) : (setBlock s bk b).part.drainQ = s.part.drainQ := rfl
@[simp] theorem setBlock_part_drains (s : State) (bk : Nat) (b : Block) : (setBlock s bk b).part.drains = s.part.drains := rfl
@[simp] theorem setBlock_part_acked (s : State) (bk : Nat) (b : Block) : (setBlock s bk b).part.acked = s.part.acked := rfl
@[simp] theorem setBlock_part_voted (s : State) (bk : Nat) (b : Block) : (setBlock s bk b).part.voted = s.part.voted := rfl
@[simp] theorem setBlock_part_devVote (s : State) (bk : Nat) (b : Block) : (setBlock s bk b).part.devVote = s.part.devVote := rfl
@[simp] theorem setBlock_part_devLoss (s : State) (bk : Nat) (b : Block) : (setBlock s bk b).part.devLoss = s.part.devLoss := rfl
@[simp] theorem setBlock_part_endVoted (s : State) (bk : Nat) (b : Block) : (setBlock s bk b).part.endVoted = s.part.endVoted := rfl
@[simp] theorem setBlock_part_stepTag (s : State) (bk : Nat) (b : Block) : (setBlock s bk b).part.stepTag = s.part.stepTag := rfl
@[simp] theorem setBlock_part_stepRecs (s : State) (bk : Nat) (b : Block) : (setBlock s bk b).part.stepRecs = s.part.stepRecs := rfl
@[simp] theorem setBlock_part_late (s : State) (bk : Nat) (b : Block) : (setBlock s bk b).part.late = s.part.late := rfl
@[simp] theorem setBlock_part_reports (s : State) (bk : Nat) (b : Block) : (setBlock s bk b).part.reports = s.part.reports := rfl
@[simp] theorem setBlock_part_asked (s : State) (bk : Nat) (b : Block) : (setBlock s bk b).part.asked = s.part.asked := rfl
@[simp] theorem setBlock_part_groups (s : State) (bk : Nat) (b : Block) : (setBlock s bk b).part.groups = s.part.groups := rfl
@[simp] theorem setBlock_part_windows (s : State) (bk : Nat) (b : Block) : (setBlock s bk b).part.windows = s.part.windows := rfl
@[simp] theorem setBlock_part_darns (s : State) (bk : Nat) (b : Block) : (setBlock s bk b).part.darns = s.part.darns := rfl
@[simp] theorem setBlock_part_closed (s : State) (bk : Nat) (b : Block) : (setBlock s bk b).part.closed = s.part.closed := rfl
@[simp] theorem setBlock_part_outbox (s : State) (bk : Nat) (b : Block) : (setBlock s bk b).part.outbox = s.part.outbox := rfl
@[simp] theorem setBlock_part_msgsIn (s : State) (bk : Nat) (b : Block) : (setBlock s bk b).part.msgsIn = s.part.msgsIn := rfl
@[simp] theorem setBlock_part_waits (s : State) (bk : Nat) (b : Block) : (setBlock s bk b).part.waits = s.part.waits := rfl
@[simp] theorem setBlock_part_copies (s : State) (bk : Nat) (b : Block) : (setBlock s bk b).part.copies = s.part.copies := rfl
@[simp] theorem setBlock_part_bp (s : State) (bk : Nat) (b : Block) : (setBlock s bk b).part.bp = s.part.bp := rfl
@[simp] theorem setBlock_part_dstops (s : State) (bk : Nat) (b : Block) : (setBlock s bk b).part.dstops = s.part.dstops := rfl
@[simp] theorem setBlock_part_samples (s : State) (bk : Nat) (b : Block) : (setBlock s bk b).part.samples = s.part.samples := rfl
@[simp] theorem setBlock_part_chosen (s : State) (bk : Nat) (b : Block) : (setBlock s bk b).part.chosen = s.part.chosen := rfl
@[simp] theorem setBlock_part_decision (s : State) (bk : Nat) (b : Block) : (setBlock s bk b).part.decision = s.part.decision := rfl
@[simp] theorem setBlock_part_counts (s : State) (bk : Nat) (b : Block) : (setBlock s bk b).part.counts = s.part.counts := rfl
@[simp] theorem setBlock_part_vu (s : State) (bk : Nat) (b : Block) : (setBlock s bk b).part.vu = s.part.vu := rfl
@[simp] theorem setBlock_part_vn (s : State) (bk : Nat) (b : Block) : (setBlock s bk b).part.vn = s.part.vn := rfl
@[simp] theorem setBlock_part_quantum (s : State) (bk : Nat) (b : Block) : (setBlock s bk b).part.quantum = s.part.quantum := rfl
@[simp] theorem setBlock_part_charges (s : State) (bk : Nat) (b : Block) : (setBlock s bk b).part.charges = s.part.charges := rfl
@[simp] theorem setBlock_part_coefs (s : State) (bk : Nat) (b : Block) : (setBlock s bk b).part.coefs = s.part.coefs := rfl
@[simp] theorem setBlock_part_nextCoefs (s : State) (bk : Nat) (b : Block) : (setBlock s bk b).part.nextCoefs = s.part.nextCoefs := rfl

/-! ### Queue records -/

@[simp] theorem setQword_vc (s : State) (q w : Nat) (v : Word64) : (setQword s q w v).vc = s.vc := rfl
@[simp] theorem setQword_peers (s : State) (q w : Nat) (v : Word64) : (setQword s q w v).peers = s.peers := rfl
@[simp] theorem setQword_launch (s : State) (q w : Nat) (v : Word64) : (setQword s q w v).launch = s.launch := rfl
@[simp] theorem setQword_part (s : State) (q w : Nat) (v : Word64) : (setQword s q w v).part = s.part := rfl
@[simp] theorem setQword_others (s : State) (q w : Nat) (v : Word64) : (setQword s q w v).others = s.others := rfl
@[simp] theorem setQword_inbox (s : State) (q w : Nat) (v : Word64) : (setQword s q w v).inbox = s.inbox := rfl
@[simp] theorem setQword_upsets (s : State) (q w : Nat) (v : Word64) : (setQword s q w v).upsets = s.upsets := rfl
@[simp] theorem setQword_mover (s : State) (q w : Nat) (v : Word64) : (setQword s q w v).mover = s.mover := rfl
@[simp] theorem setQword_fresh (s : State) (q w : Nat) (v : Word64) : (setQword s q w v).fresh = s.fresh := rfl
@[simp] theorem setQword_dev_ident (s : State) (q w : Nat) (v : Word64) : (setQword s q w v).dev.ident = s.dev.ident := rfl
@[simp] theorem setQword_dev_num (s : State) (q w : Nat) (v : Word64) : (setQword s q w v).dev.num = s.dev.num := rfl
@[simp] theorem setQword_dev_lq (s : State) (q w : Nat) (v : Word64) : (setQword s q w v).dev.lq = s.dev.lq := rfl
@[simp] theorem setQword_dev_retire (s : State) (q w : Nat) (v : Word64) : (setQword s q w v).dev.retire = s.dev.retire := rfl
@[simp] theorem setQword_dev_drainctl (s : State) (q w : Nat) (v : Word64) : (setQword s q w v).dev.drainctl = s.dev.drainctl := rfl
@[simp] theorem setQword_dev_ready (s : State) (q w : Nat) (v : Word64) : (setQword s q w v).dev.ready = s.dev.ready := rfl
@[simp] theorem setQword_dev_mr (s : State) (q w : Nat) (v : Word64) : (setQword s q w v).dev.mr = s.dev.mr := rfl
@[simp] theorem setQword_dev_stretch (s : State) (q w : Nat) (v : Word64) : (setQword s q w v).dev.stretch = s.dev.stretch := rfl
@[simp] theorem setQword_dev_trace (s : State) (q w : Nat) (v : Word64) : (setQword s q w v).dev.trace = s.dev.trace := rfl
@[simp] theorem setQword_dev_darnCounts (s : State) (q w : Nat) (v : Word64) : (setQword s q w v).dev.darnCounts = s.dev.darnCounts := rfl
@[simp] theorem setQword_dev_classes (s : State) (q w : Nat) (v : Word64) : (setQword s q w v).dev.classes = s.dev.classes := rfl
@[simp] theorem setQword_dev_silent (s : State) (q w : Nat) (v : Word64) : (setQword s q w v).dev.silent = s.dev.silent := rfl
@[simp] theorem setQword_dev_overhead (s : State) (q w : Nat) (v : Word64) : (setQword s q w v).dev.overhead = s.dev.overhead := rfl
@[simp] theorem setQword_dev_corrected (s : State) (q w : Nat) (v : Word64) : (setQword s q w v).dev.corrected = s.dev.corrected := rfl
@[simp] theorem setQword_dev_marked (s : State) (q w : Nat) (v : Word64) : (setQword s q w v).dev.marked = s.dev.marked := rfl
@[simp] theorem setQword_dev_enabled (s : State) (q w : Nat) (v : Word64) : (setQword s q w v).dev.enabled = s.dev.enabled := rfl
@[simp] theorem setQword_dev_dead (s : State) (q w : Nat) (v : Word64) : (setQword s q w v).dev.dead = s.dev.dead := rfl
@[simp] theorem setQword_dev_wire (s : State) (q w : Nat) (v : Word64) : (setQword s q w v).dev.wire = s.dev.wire := rfl
@[simp] theorem setQword_dev_msgNo (s : State) (q w : Nat) (v : Word64) : (setQword s q w v).dev.msgNo = s.dev.msgNo := rfl
@[simp] theorem setQword_dev_ways (s : State) (q w : Nat) (v : Word64) : (setQword s q w v).dev.ways = s.dev.ways := rfl
@[simp] theorem setQword_dev_retired (s : State) (q w : Nat) (v : Word64) : (setQword s q w v).dev.retired = s.dev.retired := rfl
@[simp] theorem setQword_dev_rows (s : State) (q w : Nat) (v : Word64) : (setQword s q w v).dev.rows = s.dev.rows := rfl
@[simp] theorem setQword_dev_rowSpares (s : State) (q w : Nat) (v : Word64) : (setQword s q w v).dev.rowSpares = s.dev.rowSpares := rfl
@[simp] theorem setQword_dev_versions (s : State) (q w : Nat) (v : Word64) : (setQword s q w v).dev.versions = s.dev.versions := rfl
@[simp] theorem setQword_dev_links (s : State) (q w : Nat) (v : Word64) : (setQword s q w v).dev.links = s.dev.links := rfl
@[simp] theorem setQword_dev_images (s : State) (q w : Nat) (v : Word64) : (setQword s q w v).dev.images = s.dev.images := rfl
@[simp] theorem setQword_dev_refbeat (s : State) (q w : Nat) (v : Word64) : (setQword s q w v).dev.refbeat = s.dev.refbeat := rfl
@[simp] theorem setQword_dev_replies (s : State) (q w : Nat) (v : Word64) : (setQword s q w v).dev.replies = s.dev.replies := rfl
@[simp] theorem setQword_dev_powered (s : State) (q w : Nat) (v : Word64) : (setQword s q w v).dev.powered = s.dev.powered := rfl
@[simp] theorem setQword_dev_training (s : State) (q w : Nat) (v : Word64) : (setQword s q w v).dev.training = s.dev.training := rfl
@[simp] theorem setQword_dev_busReplies (s : State) (q w : Nat) (v : Word64) : (setQword s q w v).dev.busReplies = s.dev.busReplies := rfl
@[simp] theorem setQword_dev_temps (s : State) (q w : Nat) (v : Word64) : (setQword s q w v).dev.temps = s.dev.temps := rfl
@[simp] theorem setQword_dev_power (s : State) (q w : Nat) (v : Word64) : (setQword s q w v).dev.power = s.dev.power := rfl

/-! ### Flights and tokens -/

@[simp] theorem addFlight_peers (s : State) (f : Flight) : (addFlight s f).peers = s.peers := rfl
@[simp] theorem addFlight_launch (s : State) (f : Flight) : (addFlight s f).launch = s.launch := rfl
@[simp] theorem addFlight_part (s : State) (f : Flight) : (addFlight s f).part = s.part := rfl
@[simp] theorem addFlight_others (s : State) (f : Flight) : (addFlight s f).others = s.others := rfl
@[simp] theorem addFlight_dev (s : State) (f : Flight) : (addFlight s f).dev = s.dev := rfl
@[simp] theorem addFlight_inbox (s : State) (f : Flight) : (addFlight s f).inbox = s.inbox := rfl
@[simp] theorem addFlight_upsets (s : State) (f : Flight) : (addFlight s f).upsets = s.upsets := rfl
@[simp] theorem addFlight_mover (s : State) (f : Flight) : (addFlight s f).mover = s.mover := rfl
@[simp] theorem addFlight_fresh (s : State) (f : Flight) : (addFlight s f).fresh = s.fresh := rfl
@[simp] theorem addFlight_vc_id (s : State) (f : Flight) : (addFlight s f).vc.id = s.vc.id := rfl
@[simp] theorem addFlight_vc_run (s : State) (f : Flight) : (addFlight s f).vc.run = s.vc.run := rfl
@[simp] theorem addFlight_vc_now (s : State) (f : Flight) : (addFlight s f).vc.now = s.vc.now := rfl
@[simp] theorem addFlight_vc_ctl (s : State) (f : Flight) : (addFlight s f).vc.ctl = s.vc.ctl := rfl
@[simp] theorem addFlight_vc_eng_ld (s : State) (f : Flight) : (addFlight s f).vc.eng.ld = s.vc.eng.ld := rfl
@[simp] theorem addFlight_vc_eng_mx (s : State) (f : Flight) : (addFlight s f).vc.eng.mx = s.vc.eng.mx := rfl
@[simp] theorem addFlight_vc_eng_vx (s : State) (f : Flight) : (addFlight s f).vc.eng.vx = s.vc.eng.vx := rfl
@[simp] theorem addFlight_vc_eng_fx (s : State) (f : Flight) : (addFlight s f).vc.eng.fx = s.vc.eng.fx := rfl
@[simp] theorem addFlight_vc_eng_rx (s : State) (f : Flight) : (addFlight s f).vc.eng.rx = s.vc.eng.rx := rfl
@[simp] theorem addFlight_vc_eng_st (s : State) (f : Flight) : (addFlight s f).vc.eng.st = s.vc.eng.st := rfl
@[simp] theorem addFlight_vc_eng_nextSeq (s : State) (f : Flight) : (addFlight s f).vc.eng.nextSeq = s.vc.eng.nextSeq := rfl
@[simp] theorem addFlight_vc_eng_tokens (s : State) (f : Flight) : (addFlight s f).vc.eng.tokens = s.vc.eng.tokens := rfl
@[simp] theorem addFlight_vc_eng_pushIn (s : State) (f : Flight) : (addFlight s f).vc.eng.pushIn = s.vc.eng.pushIn := rfl
@[simp] theorem addFlight_vc_eng_popped (s : State) (f : Flight) : (addFlight s f).vc.eng.popped = s.vc.eng.popped := rfl
@[simp] theorem addFlight_vc_eng_heldPush (s : State) (f : Flight) : (addFlight s f).vc.eng.heldPush = s.vc.eng.heldPush := rfl
@[simp] theorem addFlight_vc_eng_stepc (s : State) (f : Flight) : (addFlight s f).vc.eng.stepc = s.vc.eng.stepc := rfl
@[simp] theorem addFlight_vc_eng_events (s : State) (f : Flight) : (addFlight s f).vc.eng.events = s.vc.eng.events := rfl
@[simp] theorem addFlight_vc_eng_heldEv (s : State) (f : Flight) : (addFlight s f).vc.eng.heldEv = s.vc.eng.heldEv := rfl
@[simp] theorem addFlight_vc_eng_evIn (s : State) (f : Flight) : (addFlight s f).vc.eng.evIn = s.vc.eng.evIn := rfl
@[simp] theorem addFlight_vc_eng_credit (s : State) (f : Flight) : (addFlight s f).vc.eng.credit = s.vc.eng.credit := rfl
@[simp] theorem addFlight_vc_eng_vxCount (s : State) (f : Flight) : (addFlight s f).vc.eng.vxCount = s.vc.eng.vxCount := rfl
@[simp] theorem addFlight_vc_tbl (s : State) (f : Flight) : (addFlight s f).vc.tbl = s.vc.tbl := rfl
@[simp] theorem addFlight_vc_z (s : State) (f : Flight) : (addFlight s f).vc.z = s.vc.z := rfl
@[simp] theorem addFlight_vc_zver (s : State) (f : Flight) : (addFlight s f).vc.zver = s.vc.zver := rfl
@[simp] theorem addFlight_vc_g (s : State) (f : Flight) : (addFlight s f).vc.g = s.vc.g := rfl
@[simp] theorem addFlight_vc_b (s : State) (f : Flight) : (addFlight s f).vc.b = s.vc.b := rfl
@[simp] theorem addFlight_vc_chip (s : State) (f : Flight) : (addFlight s f).vc.chip = s.vc.chip := rfl
@[simp] theorem addFlight_vc_audit (s : State) (f : Flight) : (addFlight s f).vc.audit = s.vc.audit := rfl
@[simp] theorem addFlight_vc_tx (s : State) (f : Flight) : (addFlight s f).vc.tx = s.vc.tx := rfl
@[simp] theorem addFlight_vc_dcache (s : State) (f : Flight) : (addFlight s f).vc.dcache = s.vc.dcache := rfl
@[simp] theorem addFlight_vc_fifo (s : State) (f : Flight) : (addFlight s f).vc.fifo = s.vc.fifo := rfl
@[simp] theorem addFlight_vc_icache (s : State) (f : Flight) : (addFlight s f).vc.icache = s.vc.icache := rfl
@[simp] theorem addFlight_vc_tlb (s : State) (f : Flight) : (addFlight s f).vc.tlb = s.vc.tlb := rfl
@[simp] theorem addFlight_vc_atomics (s : State) (f : Flight) : (addFlight s f).vc.atomics = s.vc.atomics := rfl
@[simp] theorem addFlight_vc_colls (s : State) (f : Flight) : (addFlight s f).vc.colls = s.vc.colls := rfl
@[simp] theorem addFlight_vc_sentColls (s : State) (f : Flight) : (addFlight s f).vc.sentColls = s.vc.sentColls := rfl
@[simp] theorem addFlight_vc_latestColl (s : State) (f : Flight) : (addFlight s f).vc.latestColl = s.vc.latestColl := rfl
@[simp] theorem addFlight_vc_mapsOut (s : State) (f : Flight) : (addFlight s f).vc.mapsOut = s.vc.mapsOut := rfl
@[simp] theorem addFlight_vc_faults (s : State) (f : Flight) : (addFlight s f).vc.faults = s.vc.faults := rfl
@[simp] theorem addFlight_vc_acct (s : State) (f : Flight) : (addFlight s f).vc.acct = s.vc.acct := rfl
@[simp] theorem addFlight_vc_conflicts (s : State) (f : Flight) : (addFlight s f).vc.conflicts = s.vc.conflicts := rfl
@[simp] theorem addFlight_vc_claims (s : State) (f : Flight) : (addFlight s f).vc.claims = s.vc.claims := rfl
@[simp] theorem addFlight_vc_lostNow (s : State) (f : Flight) : (addFlight s f).vc.lostNow = s.vc.lostNow := rfl
@[simp] theorem addFlight_vc_ywrote (s : State) (f : Flight) : (addFlight s f).vc.ywrote = s.vc.ywrote := rfl
@[simp] theorem addFlight_vc_snaps (s : State) (f : Flight) : (addFlight s f).vc.snaps = s.vc.snaps := rfl
@[simp] theorem addFlight_vc_arrived (s : State) (f : Flight) : (addFlight s f).vc.arrived = s.vc.arrived := rfl
@[simp] theorem addFlight_vc_memb (s : State) (f : Flight) : (addFlight s f).vc.memb = s.vc.memb := rfl
@[simp] theorem addFlight_vc_creditB (s : State) (f : Flight) : (addFlight s f).vc.creditB = s.vc.creditB := rfl
@[simp] theorem addFlight_vc_past (s : State) (f : Flight) : (addFlight s f).vc.past = s.vc.past := rfl
@[simp] theorem addFlight_vc_retired (s : State) (f : Flight) : (addFlight s f).vc.retired = s.vc.retired := rfl
@[simp] theorem addFlight_vc_lost (s : State) (f : Flight) : (addFlight s f).vc.lost = s.vc.lost := rfl
@[simp] theorem addFlight_vc_stop (s : State) (f : Flight) : (addFlight s f).vc.stop = s.vc.stop := rfl
@[simp] theorem addFlight_vc_held (s : State) (f : Flight) : (addFlight s f).vc.held = s.vc.held := rfl
@[simp] theorem addFlight_vc_pulse (s : State) (f : Flight) : (addFlight s f).vc.pulse = s.vc.pulse := rfl
@[simp] theorem addFlight_vc_issuedNow (s : State) (f : Flight) : (addFlight s f).vc.issuedNow = s.vc.issuedNow := rfl
@[simp] theorem addFlight_vc_raised (s : State) (f : Flight) : (addFlight s f).vc.raised = s.vc.raised := rfl
@[simp] theorem addFlight_vc_heads (s : State) (f : Flight) : (addFlight s f).vc.heads = s.vc.heads := rfl
@[simp] theorem addFlight_vc_ctlSeen (s : State) (f : Flight) : (addFlight s f).vc.ctlSeen = s.vc.ctlSeen := rfl
@[simp] theorem addFlight_vc_ctrLast (s : State) (f : Flight) : (addFlight s f).vc.ctrLast = s.vc.ctrLast := rfl
@[simp] theorem addFlight_vc_ctrBuf (s : State) (f : Flight) : (addFlight s f).vc.ctrBuf = s.vc.ctrBuf := rfl
@[simp] theorem addFlight_vc_ctrBase (s : State) (f : Flight) : (addFlight s f).vc.ctrBase = s.vc.ctrBase := rfl
@[simp] theorem addFlight_vc_ctrSize (s : State) (f : Flight) : (addFlight s f).vc.ctrSize = s.vc.ctrSize := rfl
@[simp] theorem addFlight_vc_ctrPtr (s : State) (f : Flight) : (addFlight s f).vc.ctrPtr = s.vc.ctrPtr := rfl
@[simp] theorem addFlight_vc_ctrWrap (s : State) (f : Flight) : (addFlight s f).vc.ctrWrap = s.vc.ctrWrap := rfl

@[simp] theorem setFlight_peers (s : State) (f : Flight) : (setFlight s f).peers = s.peers := rfl
@[simp] theorem setFlight_launch (s : State) (f : Flight) : (setFlight s f).launch = s.launch := rfl
@[simp] theorem setFlight_part (s : State) (f : Flight) : (setFlight s f).part = s.part := rfl
@[simp] theorem setFlight_others (s : State) (f : Flight) : (setFlight s f).others = s.others := rfl
@[simp] theorem setFlight_dev (s : State) (f : Flight) : (setFlight s f).dev = s.dev := rfl
@[simp] theorem setFlight_inbox (s : State) (f : Flight) : (setFlight s f).inbox = s.inbox := rfl
@[simp] theorem setFlight_upsets (s : State) (f : Flight) : (setFlight s f).upsets = s.upsets := rfl
@[simp] theorem setFlight_mover (s : State) (f : Flight) : (setFlight s f).mover = s.mover := rfl
@[simp] theorem setFlight_fresh (s : State) (f : Flight) : (setFlight s f).fresh = s.fresh := rfl
@[simp] theorem setFlight_vc_id (s : State) (f : Flight) : (setFlight s f).vc.id = s.vc.id := rfl
@[simp] theorem setFlight_vc_run (s : State) (f : Flight) : (setFlight s f).vc.run = s.vc.run := rfl
@[simp] theorem setFlight_vc_now (s : State) (f : Flight) : (setFlight s f).vc.now = s.vc.now := rfl
@[simp] theorem setFlight_vc_ctl (s : State) (f : Flight) : (setFlight s f).vc.ctl = s.vc.ctl := rfl
@[simp] theorem setFlight_vc_eng_ld (s : State) (f : Flight) : (setFlight s f).vc.eng.ld = s.vc.eng.ld := rfl
@[simp] theorem setFlight_vc_eng_mx (s : State) (f : Flight) : (setFlight s f).vc.eng.mx = s.vc.eng.mx := rfl
@[simp] theorem setFlight_vc_eng_vx (s : State) (f : Flight) : (setFlight s f).vc.eng.vx = s.vc.eng.vx := rfl
@[simp] theorem setFlight_vc_eng_fx (s : State) (f : Flight) : (setFlight s f).vc.eng.fx = s.vc.eng.fx := rfl
@[simp] theorem setFlight_vc_eng_rx (s : State) (f : Flight) : (setFlight s f).vc.eng.rx = s.vc.eng.rx := rfl
@[simp] theorem setFlight_vc_eng_st (s : State) (f : Flight) : (setFlight s f).vc.eng.st = s.vc.eng.st := rfl
@[simp] theorem setFlight_vc_eng_nextSeq (s : State) (f : Flight) : (setFlight s f).vc.eng.nextSeq = s.vc.eng.nextSeq := rfl
@[simp] theorem setFlight_vc_eng_tokens (s : State) (f : Flight) : (setFlight s f).vc.eng.tokens = s.vc.eng.tokens := rfl
@[simp] theorem setFlight_vc_eng_pushIn (s : State) (f : Flight) : (setFlight s f).vc.eng.pushIn = s.vc.eng.pushIn := rfl
@[simp] theorem setFlight_vc_eng_popped (s : State) (f : Flight) : (setFlight s f).vc.eng.popped = s.vc.eng.popped := rfl
@[simp] theorem setFlight_vc_eng_heldPush (s : State) (f : Flight) : (setFlight s f).vc.eng.heldPush = s.vc.eng.heldPush := rfl
@[simp] theorem setFlight_vc_eng_stepc (s : State) (f : Flight) : (setFlight s f).vc.eng.stepc = s.vc.eng.stepc := rfl
@[simp] theorem setFlight_vc_eng_events (s : State) (f : Flight) : (setFlight s f).vc.eng.events = s.vc.eng.events := rfl
@[simp] theorem setFlight_vc_eng_heldEv (s : State) (f : Flight) : (setFlight s f).vc.eng.heldEv = s.vc.eng.heldEv := rfl
@[simp] theorem setFlight_vc_eng_evIn (s : State) (f : Flight) : (setFlight s f).vc.eng.evIn = s.vc.eng.evIn := rfl
@[simp] theorem setFlight_vc_eng_credit (s : State) (f : Flight) : (setFlight s f).vc.eng.credit = s.vc.eng.credit := rfl
@[simp] theorem setFlight_vc_eng_vxCount (s : State) (f : Flight) : (setFlight s f).vc.eng.vxCount = s.vc.eng.vxCount := rfl
@[simp] theorem setFlight_vc_tbl (s : State) (f : Flight) : (setFlight s f).vc.tbl = s.vc.tbl := rfl
@[simp] theorem setFlight_vc_z (s : State) (f : Flight) : (setFlight s f).vc.z = s.vc.z := rfl
@[simp] theorem setFlight_vc_zver (s : State) (f : Flight) : (setFlight s f).vc.zver = s.vc.zver := rfl
@[simp] theorem setFlight_vc_g (s : State) (f : Flight) : (setFlight s f).vc.g = s.vc.g := rfl
@[simp] theorem setFlight_vc_b (s : State) (f : Flight) : (setFlight s f).vc.b = s.vc.b := rfl
@[simp] theorem setFlight_vc_chip (s : State) (f : Flight) : (setFlight s f).vc.chip = s.vc.chip := rfl
@[simp] theorem setFlight_vc_audit (s : State) (f : Flight) : (setFlight s f).vc.audit = s.vc.audit := rfl
@[simp] theorem setFlight_vc_tx (s : State) (f : Flight) : (setFlight s f).vc.tx = s.vc.tx := rfl
@[simp] theorem setFlight_vc_dcache (s : State) (f : Flight) : (setFlight s f).vc.dcache = s.vc.dcache := rfl
@[simp] theorem setFlight_vc_fifo (s : State) (f : Flight) : (setFlight s f).vc.fifo = s.vc.fifo := rfl
@[simp] theorem setFlight_vc_icache (s : State) (f : Flight) : (setFlight s f).vc.icache = s.vc.icache := rfl
@[simp] theorem setFlight_vc_tlb (s : State) (f : Flight) : (setFlight s f).vc.tlb = s.vc.tlb := rfl
@[simp] theorem setFlight_vc_atomics (s : State) (f : Flight) : (setFlight s f).vc.atomics = s.vc.atomics := rfl
@[simp] theorem setFlight_vc_colls (s : State) (f : Flight) : (setFlight s f).vc.colls = s.vc.colls := rfl
@[simp] theorem setFlight_vc_sentColls (s : State) (f : Flight) : (setFlight s f).vc.sentColls = s.vc.sentColls := rfl
@[simp] theorem setFlight_vc_latestColl (s : State) (f : Flight) : (setFlight s f).vc.latestColl = s.vc.latestColl := rfl
@[simp] theorem setFlight_vc_mapsOut (s : State) (f : Flight) : (setFlight s f).vc.mapsOut = s.vc.mapsOut := rfl
@[simp] theorem setFlight_vc_faults (s : State) (f : Flight) : (setFlight s f).vc.faults = s.vc.faults := rfl
@[simp] theorem setFlight_vc_acct (s : State) (f : Flight) : (setFlight s f).vc.acct = s.vc.acct := rfl
@[simp] theorem setFlight_vc_conflicts (s : State) (f : Flight) : (setFlight s f).vc.conflicts = s.vc.conflicts := rfl
@[simp] theorem setFlight_vc_claims (s : State) (f : Flight) : (setFlight s f).vc.claims = s.vc.claims := rfl
@[simp] theorem setFlight_vc_lostNow (s : State) (f : Flight) : (setFlight s f).vc.lostNow = s.vc.lostNow := rfl
@[simp] theorem setFlight_vc_ywrote (s : State) (f : Flight) : (setFlight s f).vc.ywrote = s.vc.ywrote := rfl
@[simp] theorem setFlight_vc_snaps (s : State) (f : Flight) : (setFlight s f).vc.snaps = s.vc.snaps := rfl
@[simp] theorem setFlight_vc_arrived (s : State) (f : Flight) : (setFlight s f).vc.arrived = s.vc.arrived := rfl
@[simp] theorem setFlight_vc_memb (s : State) (f : Flight) : (setFlight s f).vc.memb = s.vc.memb := rfl
@[simp] theorem setFlight_vc_creditB (s : State) (f : Flight) : (setFlight s f).vc.creditB = s.vc.creditB := rfl
@[simp] theorem setFlight_vc_past (s : State) (f : Flight) : (setFlight s f).vc.past = s.vc.past := rfl
@[simp] theorem setFlight_vc_retired (s : State) (f : Flight) : (setFlight s f).vc.retired = s.vc.retired := rfl
@[simp] theorem setFlight_vc_lost (s : State) (f : Flight) : (setFlight s f).vc.lost = s.vc.lost := rfl
@[simp] theorem setFlight_vc_stop (s : State) (f : Flight) : (setFlight s f).vc.stop = s.vc.stop := rfl
@[simp] theorem setFlight_vc_held (s : State) (f : Flight) : (setFlight s f).vc.held = s.vc.held := rfl
@[simp] theorem setFlight_vc_pulse (s : State) (f : Flight) : (setFlight s f).vc.pulse = s.vc.pulse := rfl
@[simp] theorem setFlight_vc_issuedNow (s : State) (f : Flight) : (setFlight s f).vc.issuedNow = s.vc.issuedNow := rfl
@[simp] theorem setFlight_vc_raised (s : State) (f : Flight) : (setFlight s f).vc.raised = s.vc.raised := rfl
@[simp] theorem setFlight_vc_heads (s : State) (f : Flight) : (setFlight s f).vc.heads = s.vc.heads := rfl
@[simp] theorem setFlight_vc_ctlSeen (s : State) (f : Flight) : (setFlight s f).vc.ctlSeen = s.vc.ctlSeen := rfl
@[simp] theorem setFlight_vc_ctrLast (s : State) (f : Flight) : (setFlight s f).vc.ctrLast = s.vc.ctrLast := rfl
@[simp] theorem setFlight_vc_ctrBuf (s : State) (f : Flight) : (setFlight s f).vc.ctrBuf = s.vc.ctrBuf := rfl
@[simp] theorem setFlight_vc_ctrBase (s : State) (f : Flight) : (setFlight s f).vc.ctrBase = s.vc.ctrBase := rfl
@[simp] theorem setFlight_vc_ctrSize (s : State) (f : Flight) : (setFlight s f).vc.ctrSize = s.vc.ctrSize := rfl
@[simp] theorem setFlight_vc_ctrPtr (s : State) (f : Flight) : (setFlight s f).vc.ctrPtr = s.vc.ctrPtr := rfl
@[simp] theorem setFlight_vc_ctrWrap (s : State) (f : Flight) : (setFlight s f).vc.ctrWrap = s.vc.ctrWrap := rfl

@[simp] theorem dropFlight_peers (s : State) (n : Nat) : (dropFlight s n).peers = s.peers := rfl
@[simp] theorem dropFlight_launch (s : State) (n : Nat) : (dropFlight s n).launch = s.launch := rfl
@[simp] theorem dropFlight_part (s : State) (n : Nat) : (dropFlight s n).part = s.part := rfl
@[simp] theorem dropFlight_others (s : State) (n : Nat) : (dropFlight s n).others = s.others := rfl
@[simp] theorem dropFlight_dev (s : State) (n : Nat) : (dropFlight s n).dev = s.dev := rfl
@[simp] theorem dropFlight_inbox (s : State) (n : Nat) : (dropFlight s n).inbox = s.inbox := rfl
@[simp] theorem dropFlight_upsets (s : State) (n : Nat) : (dropFlight s n).upsets = s.upsets := rfl
@[simp] theorem dropFlight_mover (s : State) (n : Nat) : (dropFlight s n).mover = s.mover := rfl
@[simp] theorem dropFlight_fresh (s : State) (n : Nat) : (dropFlight s n).fresh = s.fresh := rfl
@[simp] theorem dropFlight_vc_id (s : State) (n : Nat) : (dropFlight s n).vc.id = s.vc.id := rfl
@[simp] theorem dropFlight_vc_run (s : State) (n : Nat) : (dropFlight s n).vc.run = s.vc.run := rfl
@[simp] theorem dropFlight_vc_now (s : State) (n : Nat) : (dropFlight s n).vc.now = s.vc.now := rfl
@[simp] theorem dropFlight_vc_ctl (s : State) (n : Nat) : (dropFlight s n).vc.ctl = s.vc.ctl := rfl
@[simp] theorem dropFlight_vc_eng_ld (s : State) (n : Nat) : (dropFlight s n).vc.eng.ld = s.vc.eng.ld := rfl
@[simp] theorem dropFlight_vc_eng_mx (s : State) (n : Nat) : (dropFlight s n).vc.eng.mx = s.vc.eng.mx := rfl
@[simp] theorem dropFlight_vc_eng_vx (s : State) (n : Nat) : (dropFlight s n).vc.eng.vx = s.vc.eng.vx := rfl
@[simp] theorem dropFlight_vc_eng_fx (s : State) (n : Nat) : (dropFlight s n).vc.eng.fx = s.vc.eng.fx := rfl
@[simp] theorem dropFlight_vc_eng_rx (s : State) (n : Nat) : (dropFlight s n).vc.eng.rx = s.vc.eng.rx := rfl
@[simp] theorem dropFlight_vc_eng_st (s : State) (n : Nat) : (dropFlight s n).vc.eng.st = s.vc.eng.st := rfl
@[simp] theorem dropFlight_vc_eng_nextSeq (s : State) (n : Nat) : (dropFlight s n).vc.eng.nextSeq = s.vc.eng.nextSeq := rfl
@[simp] theorem dropFlight_vc_eng_tokens (s : State) (n : Nat) : (dropFlight s n).vc.eng.tokens = s.vc.eng.tokens := rfl
@[simp] theorem dropFlight_vc_eng_pushIn (s : State) (n : Nat) : (dropFlight s n).vc.eng.pushIn = s.vc.eng.pushIn := rfl
@[simp] theorem dropFlight_vc_eng_popped (s : State) (n : Nat) : (dropFlight s n).vc.eng.popped = s.vc.eng.popped := rfl
@[simp] theorem dropFlight_vc_eng_heldPush (s : State) (n : Nat) : (dropFlight s n).vc.eng.heldPush = s.vc.eng.heldPush := rfl
@[simp] theorem dropFlight_vc_eng_stepc (s : State) (n : Nat) : (dropFlight s n).vc.eng.stepc = s.vc.eng.stepc := rfl
@[simp] theorem dropFlight_vc_eng_events (s : State) (n : Nat) : (dropFlight s n).vc.eng.events = s.vc.eng.events := rfl
@[simp] theorem dropFlight_vc_eng_heldEv (s : State) (n : Nat) : (dropFlight s n).vc.eng.heldEv = s.vc.eng.heldEv := rfl
@[simp] theorem dropFlight_vc_eng_evIn (s : State) (n : Nat) : (dropFlight s n).vc.eng.evIn = s.vc.eng.evIn := rfl
@[simp] theorem dropFlight_vc_eng_credit (s : State) (n : Nat) : (dropFlight s n).vc.eng.credit = s.vc.eng.credit := rfl
@[simp] theorem dropFlight_vc_eng_vxCount (s : State) (n : Nat) : (dropFlight s n).vc.eng.vxCount = s.vc.eng.vxCount := rfl
@[simp] theorem dropFlight_vc_tbl (s : State) (n : Nat) : (dropFlight s n).vc.tbl = s.vc.tbl := rfl
@[simp] theorem dropFlight_vc_z (s : State) (n : Nat) : (dropFlight s n).vc.z = s.vc.z := rfl
@[simp] theorem dropFlight_vc_zver (s : State) (n : Nat) : (dropFlight s n).vc.zver = s.vc.zver := rfl
@[simp] theorem dropFlight_vc_g (s : State) (n : Nat) : (dropFlight s n).vc.g = s.vc.g := rfl
@[simp] theorem dropFlight_vc_b (s : State) (n : Nat) : (dropFlight s n).vc.b = s.vc.b := rfl
@[simp] theorem dropFlight_vc_chip (s : State) (n : Nat) : (dropFlight s n).vc.chip = s.vc.chip := rfl
@[simp] theorem dropFlight_vc_audit (s : State) (n : Nat) : (dropFlight s n).vc.audit = s.vc.audit := rfl
@[simp] theorem dropFlight_vc_tx (s : State) (n : Nat) : (dropFlight s n).vc.tx = s.vc.tx := rfl
@[simp] theorem dropFlight_vc_dcache (s : State) (n : Nat) : (dropFlight s n).vc.dcache = s.vc.dcache := rfl
@[simp] theorem dropFlight_vc_fifo (s : State) (n : Nat) : (dropFlight s n).vc.fifo = s.vc.fifo := rfl
@[simp] theorem dropFlight_vc_icache (s : State) (n : Nat) : (dropFlight s n).vc.icache = s.vc.icache := rfl
@[simp] theorem dropFlight_vc_tlb (s : State) (n : Nat) : (dropFlight s n).vc.tlb = s.vc.tlb := rfl
@[simp] theorem dropFlight_vc_atomics (s : State) (n : Nat) : (dropFlight s n).vc.atomics = s.vc.atomics := rfl
@[simp] theorem dropFlight_vc_colls (s : State) (n : Nat) : (dropFlight s n).vc.colls = s.vc.colls := rfl
@[simp] theorem dropFlight_vc_sentColls (s : State) (n : Nat) : (dropFlight s n).vc.sentColls = s.vc.sentColls := rfl
@[simp] theorem dropFlight_vc_latestColl (s : State) (n : Nat) : (dropFlight s n).vc.latestColl = s.vc.latestColl := rfl
@[simp] theorem dropFlight_vc_mapsOut (s : State) (n : Nat) : (dropFlight s n).vc.mapsOut = s.vc.mapsOut := rfl
@[simp] theorem dropFlight_vc_faults (s : State) (n : Nat) : (dropFlight s n).vc.faults = s.vc.faults := rfl
@[simp] theorem dropFlight_vc_acct (s : State) (n : Nat) : (dropFlight s n).vc.acct = s.vc.acct := rfl
@[simp] theorem dropFlight_vc_conflicts (s : State) (n : Nat) : (dropFlight s n).vc.conflicts = s.vc.conflicts := rfl
@[simp] theorem dropFlight_vc_claims (s : State) (n : Nat) : (dropFlight s n).vc.claims = s.vc.claims := rfl
@[simp] theorem dropFlight_vc_lostNow (s : State) (n : Nat) : (dropFlight s n).vc.lostNow = s.vc.lostNow := rfl
@[simp] theorem dropFlight_vc_ywrote (s : State) (n : Nat) : (dropFlight s n).vc.ywrote = s.vc.ywrote := rfl
@[simp] theorem dropFlight_vc_snaps (s : State) (n : Nat) : (dropFlight s n).vc.snaps = s.vc.snaps := rfl
@[simp] theorem dropFlight_vc_arrived (s : State) (n : Nat) : (dropFlight s n).vc.arrived = s.vc.arrived := rfl
@[simp] theorem dropFlight_vc_memb (s : State) (n : Nat) : (dropFlight s n).vc.memb = s.vc.memb := rfl
@[simp] theorem dropFlight_vc_creditB (s : State) (n : Nat) : (dropFlight s n).vc.creditB = s.vc.creditB := rfl
@[simp] theorem dropFlight_vc_past (s : State) (n : Nat) : (dropFlight s n).vc.past = s.vc.past := rfl
@[simp] theorem dropFlight_vc_retired (s : State) (n : Nat) : (dropFlight s n).vc.retired = s.vc.retired := rfl
@[simp] theorem dropFlight_vc_lost (s : State) (n : Nat) : (dropFlight s n).vc.lost = s.vc.lost := rfl
@[simp] theorem dropFlight_vc_stop (s : State) (n : Nat) : (dropFlight s n).vc.stop = s.vc.stop := rfl
@[simp] theorem dropFlight_vc_held (s : State) (n : Nat) : (dropFlight s n).vc.held = s.vc.held := rfl
@[simp] theorem dropFlight_vc_pulse (s : State) (n : Nat) : (dropFlight s n).vc.pulse = s.vc.pulse := rfl
@[simp] theorem dropFlight_vc_issuedNow (s : State) (n : Nat) : (dropFlight s n).vc.issuedNow = s.vc.issuedNow := rfl
@[simp] theorem dropFlight_vc_raised (s : State) (n : Nat) : (dropFlight s n).vc.raised = s.vc.raised := rfl
@[simp] theorem dropFlight_vc_heads (s : State) (n : Nat) : (dropFlight s n).vc.heads = s.vc.heads := rfl
@[simp] theorem dropFlight_vc_ctlSeen (s : State) (n : Nat) : (dropFlight s n).vc.ctlSeen = s.vc.ctlSeen := rfl
@[simp] theorem dropFlight_vc_ctrLast (s : State) (n : Nat) : (dropFlight s n).vc.ctrLast = s.vc.ctrLast := rfl
@[simp] theorem dropFlight_vc_ctrBuf (s : State) (n : Nat) : (dropFlight s n).vc.ctrBuf = s.vc.ctrBuf := rfl
@[simp] theorem dropFlight_vc_ctrBase (s : State) (n : Nat) : (dropFlight s n).vc.ctrBase = s.vc.ctrBase := rfl
@[simp] theorem dropFlight_vc_ctrSize (s : State) (n : Nat) : (dropFlight s n).vc.ctrSize = s.vc.ctrSize := rfl
@[simp] theorem dropFlight_vc_ctrPtr (s : State) (n : Nat) : (dropFlight s n).vc.ctrPtr = s.vc.ctrPtr := rfl
@[simp] theorem dropFlight_vc_ctrWrap (s : State) (n : Nat) : (dropFlight s n).vc.ctrWrap = s.vc.ctrWrap := rfl

@[simp] theorem tokTake_peers (s : State) (f : Nat) : (tokTake s f).peers = s.peers := rfl
@[simp] theorem tokTake_launch (s : State) (f : Nat) : (tokTake s f).launch = s.launch := rfl
@[simp] theorem tokTake_part (s : State) (f : Nat) : (tokTake s f).part = s.part := rfl
@[simp] theorem tokTake_others (s : State) (f : Nat) : (tokTake s f).others = s.others := rfl
@[simp] theorem tokTake_dev (s : State) (f : Nat) : (tokTake s f).dev = s.dev := rfl
@[simp] theorem tokTake_inbox (s : State) (f : Nat) : (tokTake s f).inbox = s.inbox := rfl
@[simp] theorem tokTake_upsets (s : State) (f : Nat) : (tokTake s f).upsets = s.upsets := rfl
@[simp] theorem tokTake_mover (s : State) (f : Nat) : (tokTake s f).mover = s.mover := rfl
@[simp] theorem tokTake_fresh (s : State) (f : Nat) : (tokTake s f).fresh = s.fresh := rfl
@[simp] theorem tokTake_vc_id (s : State) (f : Nat) : (tokTake s f).vc.id = s.vc.id := rfl
@[simp] theorem tokTake_vc_run (s : State) (f : Nat) : (tokTake s f).vc.run = s.vc.run := rfl
@[simp] theorem tokTake_vc_now (s : State) (f : Nat) : (tokTake s f).vc.now = s.vc.now := rfl
@[simp] theorem tokTake_vc_ctl (s : State) (f : Nat) : (tokTake s f).vc.ctl = s.vc.ctl := rfl
@[simp] theorem tokTake_vc_eng_ld (s : State) (f : Nat) : (tokTake s f).vc.eng.ld = s.vc.eng.ld := rfl
@[simp] theorem tokTake_vc_eng_mx (s : State) (f : Nat) : (tokTake s f).vc.eng.mx = s.vc.eng.mx := rfl
@[simp] theorem tokTake_vc_eng_vx (s : State) (f : Nat) : (tokTake s f).vc.eng.vx = s.vc.eng.vx := rfl
@[simp] theorem tokTake_vc_eng_fx (s : State) (f : Nat) : (tokTake s f).vc.eng.fx = s.vc.eng.fx := rfl
@[simp] theorem tokTake_vc_eng_rx (s : State) (f : Nat) : (tokTake s f).vc.eng.rx = s.vc.eng.rx := rfl
@[simp] theorem tokTake_vc_eng_st (s : State) (f : Nat) : (tokTake s f).vc.eng.st = s.vc.eng.st := rfl
@[simp] theorem tokTake_vc_eng_nextSeq (s : State) (f : Nat) : (tokTake s f).vc.eng.nextSeq = s.vc.eng.nextSeq := rfl
@[simp] theorem tokTake_vc_eng_flights (s : State) (f : Nat) : (tokTake s f).vc.eng.flights = s.vc.eng.flights := rfl
@[simp] theorem tokTake_vc_eng_pushIn (s : State) (f : Nat) : (tokTake s f).vc.eng.pushIn = s.vc.eng.pushIn := rfl
@[simp] theorem tokTake_vc_eng_popped (s : State) (f : Nat) : (tokTake s f).vc.eng.popped = s.vc.eng.popped := rfl
@[simp] theorem tokTake_vc_eng_heldPush (s : State) (f : Nat) : (tokTake s f).vc.eng.heldPush = s.vc.eng.heldPush := rfl
@[simp] theorem tokTake_vc_eng_stepc (s : State) (f : Nat) : (tokTake s f).vc.eng.stepc = s.vc.eng.stepc := rfl
@[simp] theorem tokTake_vc_eng_events (s : State) (f : Nat) : (tokTake s f).vc.eng.events = s.vc.eng.events := rfl
@[simp] theorem tokTake_vc_eng_heldEv (s : State) (f : Nat) : (tokTake s f).vc.eng.heldEv = s.vc.eng.heldEv := rfl
@[simp] theorem tokTake_vc_eng_evIn (s : State) (f : Nat) : (tokTake s f).vc.eng.evIn = s.vc.eng.evIn := rfl
@[simp] theorem tokTake_vc_eng_credit (s : State) (f : Nat) : (tokTake s f).vc.eng.credit = s.vc.eng.credit := rfl
@[simp] theorem tokTake_vc_eng_vxCount (s : State) (f : Nat) : (tokTake s f).vc.eng.vxCount = s.vc.eng.vxCount := rfl
@[simp] theorem tokTake_vc_tbl (s : State) (f : Nat) : (tokTake s f).vc.tbl = s.vc.tbl := rfl
@[simp] theorem tokTake_vc_z (s : State) (f : Nat) : (tokTake s f).vc.z = s.vc.z := rfl
@[simp] theorem tokTake_vc_zver (s : State) (f : Nat) : (tokTake s f).vc.zver = s.vc.zver := rfl
@[simp] theorem tokTake_vc_g (s : State) (f : Nat) : (tokTake s f).vc.g = s.vc.g := rfl
@[simp] theorem tokTake_vc_b (s : State) (f : Nat) : (tokTake s f).vc.b = s.vc.b := rfl
@[simp] theorem tokTake_vc_chip (s : State) (f : Nat) : (tokTake s f).vc.chip = s.vc.chip := rfl
@[simp] theorem tokTake_vc_audit (s : State) (f : Nat) : (tokTake s f).vc.audit = s.vc.audit := rfl
@[simp] theorem tokTake_vc_tx (s : State) (f : Nat) : (tokTake s f).vc.tx = s.vc.tx := rfl
@[simp] theorem tokTake_vc_dcache (s : State) (f : Nat) : (tokTake s f).vc.dcache = s.vc.dcache := rfl
@[simp] theorem tokTake_vc_fifo (s : State) (f : Nat) : (tokTake s f).vc.fifo = s.vc.fifo := rfl
@[simp] theorem tokTake_vc_icache (s : State) (f : Nat) : (tokTake s f).vc.icache = s.vc.icache := rfl
@[simp] theorem tokTake_vc_tlb (s : State) (f : Nat) : (tokTake s f).vc.tlb = s.vc.tlb := rfl
@[simp] theorem tokTake_vc_atomics (s : State) (f : Nat) : (tokTake s f).vc.atomics = s.vc.atomics := rfl
@[simp] theorem tokTake_vc_colls (s : State) (f : Nat) : (tokTake s f).vc.colls = s.vc.colls := rfl
@[simp] theorem tokTake_vc_sentColls (s : State) (f : Nat) : (tokTake s f).vc.sentColls = s.vc.sentColls := rfl
@[simp] theorem tokTake_vc_latestColl (s : State) (f : Nat) : (tokTake s f).vc.latestColl = s.vc.latestColl := rfl
@[simp] theorem tokTake_vc_mapsOut (s : State) (f : Nat) : (tokTake s f).vc.mapsOut = s.vc.mapsOut := rfl
@[simp] theorem tokTake_vc_faults (s : State) (f : Nat) : (tokTake s f).vc.faults = s.vc.faults := rfl
@[simp] theorem tokTake_vc_acct (s : State) (f : Nat) : (tokTake s f).vc.acct = s.vc.acct := rfl
@[simp] theorem tokTake_vc_conflicts (s : State) (f : Nat) : (tokTake s f).vc.conflicts = s.vc.conflicts := rfl
@[simp] theorem tokTake_vc_claims (s : State) (f : Nat) : (tokTake s f).vc.claims = s.vc.claims := rfl
@[simp] theorem tokTake_vc_lostNow (s : State) (f : Nat) : (tokTake s f).vc.lostNow = s.vc.lostNow := rfl
@[simp] theorem tokTake_vc_ywrote (s : State) (f : Nat) : (tokTake s f).vc.ywrote = s.vc.ywrote := rfl
@[simp] theorem tokTake_vc_snaps (s : State) (f : Nat) : (tokTake s f).vc.snaps = s.vc.snaps := rfl
@[simp] theorem tokTake_vc_arrived (s : State) (f : Nat) : (tokTake s f).vc.arrived = s.vc.arrived := rfl
@[simp] theorem tokTake_vc_memb (s : State) (f : Nat) : (tokTake s f).vc.memb = s.vc.memb := rfl
@[simp] theorem tokTake_vc_creditB (s : State) (f : Nat) : (tokTake s f).vc.creditB = s.vc.creditB := rfl
@[simp] theorem tokTake_vc_past (s : State) (f : Nat) : (tokTake s f).vc.past = s.vc.past := rfl
@[simp] theorem tokTake_vc_retired (s : State) (f : Nat) : (tokTake s f).vc.retired = s.vc.retired := rfl
@[simp] theorem tokTake_vc_lost (s : State) (f : Nat) : (tokTake s f).vc.lost = s.vc.lost := rfl
@[simp] theorem tokTake_vc_stop (s : State) (f : Nat) : (tokTake s f).vc.stop = s.vc.stop := rfl
@[simp] theorem tokTake_vc_held (s : State) (f : Nat) : (tokTake s f).vc.held = s.vc.held := rfl
@[simp] theorem tokTake_vc_pulse (s : State) (f : Nat) : (tokTake s f).vc.pulse = s.vc.pulse := rfl
@[simp] theorem tokTake_vc_issuedNow (s : State) (f : Nat) : (tokTake s f).vc.issuedNow = s.vc.issuedNow := rfl
@[simp] theorem tokTake_vc_raised (s : State) (f : Nat) : (tokTake s f).vc.raised = s.vc.raised := rfl
@[simp] theorem tokTake_vc_heads (s : State) (f : Nat) : (tokTake s f).vc.heads = s.vc.heads := rfl
@[simp] theorem tokTake_vc_ctlSeen (s : State) (f : Nat) : (tokTake s f).vc.ctlSeen = s.vc.ctlSeen := rfl
@[simp] theorem tokTake_vc_ctrLast (s : State) (f : Nat) : (tokTake s f).vc.ctrLast = s.vc.ctrLast := rfl
@[simp] theorem tokTake_vc_ctrBuf (s : State) (f : Nat) : (tokTake s f).vc.ctrBuf = s.vc.ctrBuf := rfl
@[simp] theorem tokTake_vc_ctrBase (s : State) (f : Nat) : (tokTake s f).vc.ctrBase = s.vc.ctrBase := rfl
@[simp] theorem tokTake_vc_ctrSize (s : State) (f : Nat) : (tokTake s f).vc.ctrSize = s.vc.ctrSize := rfl
@[simp] theorem tokTake_vc_ctrPtr (s : State) (f : Nat) : (tokTake s f).vc.ctrPtr = s.vc.ctrPtr := rfl
@[simp] theorem tokTake_vc_ctrWrap (s : State) (f : Nat) : (tokTake s f).vc.ctrWrap = s.vc.ctrWrap := rfl

@[simp] theorem tokPut_peers (s : State) (f : Nat) : (tokPut s f).peers = s.peers := rfl
@[simp] theorem tokPut_launch (s : State) (f : Nat) : (tokPut s f).launch = s.launch := rfl
@[simp] theorem tokPut_part (s : State) (f : Nat) : (tokPut s f).part = s.part := rfl
@[simp] theorem tokPut_others (s : State) (f : Nat) : (tokPut s f).others = s.others := rfl
@[simp] theorem tokPut_dev (s : State) (f : Nat) : (tokPut s f).dev = s.dev := rfl
@[simp] theorem tokPut_inbox (s : State) (f : Nat) : (tokPut s f).inbox = s.inbox := rfl
@[simp] theorem tokPut_upsets (s : State) (f : Nat) : (tokPut s f).upsets = s.upsets := rfl
@[simp] theorem tokPut_mover (s : State) (f : Nat) : (tokPut s f).mover = s.mover := rfl
@[simp] theorem tokPut_fresh (s : State) (f : Nat) : (tokPut s f).fresh = s.fresh := rfl
@[simp] theorem tokPut_vc_id (s : State) (f : Nat) : (tokPut s f).vc.id = s.vc.id := rfl
@[simp] theorem tokPut_vc_run (s : State) (f : Nat) : (tokPut s f).vc.run = s.vc.run := rfl
@[simp] theorem tokPut_vc_now (s : State) (f : Nat) : (tokPut s f).vc.now = s.vc.now := rfl
@[simp] theorem tokPut_vc_ctl (s : State) (f : Nat) : (tokPut s f).vc.ctl = s.vc.ctl := rfl
@[simp] theorem tokPut_vc_eng_ld (s : State) (f : Nat) : (tokPut s f).vc.eng.ld = s.vc.eng.ld := rfl
@[simp] theorem tokPut_vc_eng_mx (s : State) (f : Nat) : (tokPut s f).vc.eng.mx = s.vc.eng.mx := rfl
@[simp] theorem tokPut_vc_eng_vx (s : State) (f : Nat) : (tokPut s f).vc.eng.vx = s.vc.eng.vx := rfl
@[simp] theorem tokPut_vc_eng_fx (s : State) (f : Nat) : (tokPut s f).vc.eng.fx = s.vc.eng.fx := rfl
@[simp] theorem tokPut_vc_eng_rx (s : State) (f : Nat) : (tokPut s f).vc.eng.rx = s.vc.eng.rx := rfl
@[simp] theorem tokPut_vc_eng_st (s : State) (f : Nat) : (tokPut s f).vc.eng.st = s.vc.eng.st := rfl
@[simp] theorem tokPut_vc_eng_nextSeq (s : State) (f : Nat) : (tokPut s f).vc.eng.nextSeq = s.vc.eng.nextSeq := rfl
@[simp] theorem tokPut_vc_eng_flights (s : State) (f : Nat) : (tokPut s f).vc.eng.flights = s.vc.eng.flights := rfl
@[simp] theorem tokPut_vc_eng_tokens (s : State) (f : Nat) : (tokPut s f).vc.eng.tokens = s.vc.eng.tokens := rfl
@[simp] theorem tokPut_vc_eng_popped (s : State) (f : Nat) : (tokPut s f).vc.eng.popped = s.vc.eng.popped := rfl
@[simp] theorem tokPut_vc_eng_heldPush (s : State) (f : Nat) : (tokPut s f).vc.eng.heldPush = s.vc.eng.heldPush := rfl
@[simp] theorem tokPut_vc_eng_stepc (s : State) (f : Nat) : (tokPut s f).vc.eng.stepc = s.vc.eng.stepc := rfl
@[simp] theorem tokPut_vc_eng_events (s : State) (f : Nat) : (tokPut s f).vc.eng.events = s.vc.eng.events := rfl
@[simp] theorem tokPut_vc_eng_heldEv (s : State) (f : Nat) : (tokPut s f).vc.eng.heldEv = s.vc.eng.heldEv := rfl
@[simp] theorem tokPut_vc_eng_evIn (s : State) (f : Nat) : (tokPut s f).vc.eng.evIn = s.vc.eng.evIn := rfl
@[simp] theorem tokPut_vc_eng_credit (s : State) (f : Nat) : (tokPut s f).vc.eng.credit = s.vc.eng.credit := rfl
@[simp] theorem tokPut_vc_eng_vxCount (s : State) (f : Nat) : (tokPut s f).vc.eng.vxCount = s.vc.eng.vxCount := rfl
@[simp] theorem tokPut_vc_tbl (s : State) (f : Nat) : (tokPut s f).vc.tbl = s.vc.tbl := rfl
@[simp] theorem tokPut_vc_z (s : State) (f : Nat) : (tokPut s f).vc.z = s.vc.z := rfl
@[simp] theorem tokPut_vc_zver (s : State) (f : Nat) : (tokPut s f).vc.zver = s.vc.zver := rfl
@[simp] theorem tokPut_vc_g (s : State) (f : Nat) : (tokPut s f).vc.g = s.vc.g := rfl
@[simp] theorem tokPut_vc_b (s : State) (f : Nat) : (tokPut s f).vc.b = s.vc.b := rfl
@[simp] theorem tokPut_vc_chip (s : State) (f : Nat) : (tokPut s f).vc.chip = s.vc.chip := rfl
@[simp] theorem tokPut_vc_audit (s : State) (f : Nat) : (tokPut s f).vc.audit = s.vc.audit := rfl
@[simp] theorem tokPut_vc_tx (s : State) (f : Nat) : (tokPut s f).vc.tx = s.vc.tx := rfl
@[simp] theorem tokPut_vc_dcache (s : State) (f : Nat) : (tokPut s f).vc.dcache = s.vc.dcache := rfl
@[simp] theorem tokPut_vc_fifo (s : State) (f : Nat) : (tokPut s f).vc.fifo = s.vc.fifo := rfl
@[simp] theorem tokPut_vc_icache (s : State) (f : Nat) : (tokPut s f).vc.icache = s.vc.icache := rfl
@[simp] theorem tokPut_vc_tlb (s : State) (f : Nat) : (tokPut s f).vc.tlb = s.vc.tlb := rfl
@[simp] theorem tokPut_vc_atomics (s : State) (f : Nat) : (tokPut s f).vc.atomics = s.vc.atomics := rfl
@[simp] theorem tokPut_vc_colls (s : State) (f : Nat) : (tokPut s f).vc.colls = s.vc.colls := rfl
@[simp] theorem tokPut_vc_sentColls (s : State) (f : Nat) : (tokPut s f).vc.sentColls = s.vc.sentColls := rfl
@[simp] theorem tokPut_vc_latestColl (s : State) (f : Nat) : (tokPut s f).vc.latestColl = s.vc.latestColl := rfl
@[simp] theorem tokPut_vc_mapsOut (s : State) (f : Nat) : (tokPut s f).vc.mapsOut = s.vc.mapsOut := rfl
@[simp] theorem tokPut_vc_faults (s : State) (f : Nat) : (tokPut s f).vc.faults = s.vc.faults := rfl
@[simp] theorem tokPut_vc_acct (s : State) (f : Nat) : (tokPut s f).vc.acct = s.vc.acct := rfl
@[simp] theorem tokPut_vc_conflicts (s : State) (f : Nat) : (tokPut s f).vc.conflicts = s.vc.conflicts := rfl
@[simp] theorem tokPut_vc_claims (s : State) (f : Nat) : (tokPut s f).vc.claims = s.vc.claims := rfl
@[simp] theorem tokPut_vc_lostNow (s : State) (f : Nat) : (tokPut s f).vc.lostNow = s.vc.lostNow := rfl
@[simp] theorem tokPut_vc_ywrote (s : State) (f : Nat) : (tokPut s f).vc.ywrote = s.vc.ywrote := rfl
@[simp] theorem tokPut_vc_snaps (s : State) (f : Nat) : (tokPut s f).vc.snaps = s.vc.snaps := rfl
@[simp] theorem tokPut_vc_arrived (s : State) (f : Nat) : (tokPut s f).vc.arrived = s.vc.arrived := rfl
@[simp] theorem tokPut_vc_memb (s : State) (f : Nat) : (tokPut s f).vc.memb = s.vc.memb := rfl
@[simp] theorem tokPut_vc_creditB (s : State) (f : Nat) : (tokPut s f).vc.creditB = s.vc.creditB := rfl
@[simp] theorem tokPut_vc_past (s : State) (f : Nat) : (tokPut s f).vc.past = s.vc.past := rfl
@[simp] theorem tokPut_vc_retired (s : State) (f : Nat) : (tokPut s f).vc.retired = s.vc.retired := rfl
@[simp] theorem tokPut_vc_lost (s : State) (f : Nat) : (tokPut s f).vc.lost = s.vc.lost := rfl
@[simp] theorem tokPut_vc_stop (s : State) (f : Nat) : (tokPut s f).vc.stop = s.vc.stop := rfl
@[simp] theorem tokPut_vc_held (s : State) (f : Nat) : (tokPut s f).vc.held = s.vc.held := rfl
@[simp] theorem tokPut_vc_pulse (s : State) (f : Nat) : (tokPut s f).vc.pulse = s.vc.pulse := rfl
@[simp] theorem tokPut_vc_issuedNow (s : State) (f : Nat) : (tokPut s f).vc.issuedNow = s.vc.issuedNow := rfl
@[simp] theorem tokPut_vc_raised (s : State) (f : Nat) : (tokPut s f).vc.raised = s.vc.raised := rfl
@[simp] theorem tokPut_vc_heads (s : State) (f : Nat) : (tokPut s f).vc.heads = s.vc.heads := rfl
@[simp] theorem tokPut_vc_ctlSeen (s : State) (f : Nat) : (tokPut s f).vc.ctlSeen = s.vc.ctlSeen := rfl
@[simp] theorem tokPut_vc_ctrLast (s : State) (f : Nat) : (tokPut s f).vc.ctrLast = s.vc.ctrLast := rfl
@[simp] theorem tokPut_vc_ctrBuf (s : State) (f : Nat) : (tokPut s f).vc.ctrBuf = s.vc.ctrBuf := rfl
@[simp] theorem tokPut_vc_ctrBase (s : State) (f : Nat) : (tokPut s f).vc.ctrBase = s.vc.ctrBase := rfl
@[simp] theorem tokPut_vc_ctrSize (s : State) (f : Nat) : (tokPut s f).vc.ctrSize = s.vc.ctrSize := rfl
@[simp] theorem tokPut_vc_ctrPtr (s : State) (f : Nat) : (tokPut s f).vc.ctrPtr = s.vc.ctrPtr := rfl
@[simp] theorem tokPut_vc_ctrWrap (s : State) (f : Nat) : (tokPut s f).vc.ctrWrap = s.vc.ctrWrap := rfl

/-! ### What the updates write -/

@[simp] theorem retireTo_vc_ctl_pc (s : State) (pc : Word64) : (retireTo s pc).vc.ctl.pc = pc := rfl
@[simp] theorem retireTo_vc_ctl_instret (s : State) (pc : Word64) :
    (retireTo s pc).vc.ctl.instret = (s.vc.ctl.instret + 1) % 2 ^ 48 := rfl
@[simp] theorem retire_vc_ctl_pc (s : State) : (retire s).vc.ctl.pc = s.vc.ctl.pc + 4 := rfl
@[simp] theorem retire_vc_ctl_instret (s : State) : (retire s).vc.ctl.instret = (s.vc.ctl.instret + 1) % 2 ^ 48 := rfl
@[simp] theorem addFlight_flights (s : State) (f : Flight) :
    (addFlight s f).vc.eng.flights = s.vc.eng.flights ++ [f] := rfl
@[simp] theorem dropFlight_flights (s : State) (n : Nat) :
    (dropFlight s n).vc.eng.flights = s.vc.eng.flights.filter (fun x => x.seq != n) := rfl
@[simp] theorem tokPut_pushIn (s : State) (f : Nat) : (tokPut s f).vc.eng.pushIn = s.vc.eng.pushIn ++ [(s.vc.now + 1, f)] := rfl

end Sys2Proof.Machine
end

