-- ==== Sys2Proof/Laws/Memory.lean ====
section
/-! SUPPORT. What the accesses to memory can do, said once: beside the CTL caches and lookaside buffers, L2, memory, the
version blocks and the charges, nothing changes; and memory keeps its canonical form. -/

set_option Elab.async false
set_option linter.unusedSimpArgs false

namespace Sys2Proof.Machine

open Sys2Proof.Laws

/-! ### Bytes -/

theorem listAt_cons_succ {α : Type} (d x : α) (l : List α) (n : Nat) : listAt d (x :: l) (n + 1) = listAt d l n := rfl

theorem mget_mputs (m : SMap Byte) (k : Nat) (d : List Byte) (a : Nat) :
    mget byteDefault (mputs byteDefault m k d) a =
      if k ≤ a ∧ a < k + d.length then listAt 0 d (a - k) else mget byteDefault m a := by
  induction d generalizing m k with
  | nil =>
    have h : ¬ (k ≤ a ∧ a < k + 0) := by omega
    simp only [mputs, List.length_nil, h, if_false]
  | cons v r ih =>
    simp only [mputs, ih, mget_mput, List.length_cons]
    by_cases h : a = k
    · have h1 : ¬ (k + 1 ≤ a ∧ a < k + 1 + r.length) := by omega
      have h2 : k ≤ a ∧ a < k + (r.length + 1) := by omega
      rw [if_neg h1, if_pos h, if_pos h2]
      subst h
      simp [listAt]
    · by_cases h2 : k + 1 ≤ a ∧ a < k + 1 + r.length
      · have h3 : k ≤ a ∧ a < k + (r.length + 1) := by omega
        obtain ⟨n, hn⟩ : ∃ n, a - k = n + 1 := ⟨a - k - 1, by omega⟩
        have h4 : a - (k + 1) = n := by omega
        rw [if_pos h2, if_pos h3, hn, h4, listAt]
      · have h3 : ¬ (k ≤ a ∧ a < k + (r.length + 1)) := by omega
        rw [if_neg h2, if_neg h, if_neg h3]

/-- A byte after a write: of the bytes written, else as before. -/
theorem physByte_physWrite (s : State) (pa : Nat) (d : List Byte) (a : Nat) :
    physByte (physWrite s pa d) a = if pa ≤ a ∧ a < pa + d.length then listAt 0 d (a - pa) else physByte s a :=
  mget_mputs s.part.mem pa d a

@[simp] theorem physWrite_part_mem (s : State) (pa : Nat) (d : List Byte) :
    (physWrite s pa d).part.mem = mputs byteDefault s.part.mem pa d := rfl

/-- A read of x register r after a write of x register d (R112). -/
theorem xr_setX (s : State) (d r : BitVec 6) (v : Word64) : xr (setX s d v) r = if r = d ∧ r ≠ 0 then v else xr s r := by
  unfold xr
  by_cases hr : r = 0
  · rw [if_pos hr, if_neg (fun h => h.2 hr), if_pos hr]
  · rw [if_neg hr, if_neg hr]
    unfold setX
    by_cases hd : d = 0
    · rw [if_pos hd, if_neg (fun h => hr (h.1.trans hd))]
    · rw [if_neg hd]
      show mget 0 (mput 0 s.vc.ctl.x d.toNat v) r.toNat = _
      rw [mget_mput]
      by_cases h : r = d
      · rw [if_pos (congrArg BitVec.toNat h), if_pos ⟨h, hr⟩]
      · rw [if_neg (fun e => h (BitVec.eq_of_toNat_eq e)), if_neg (fun e => h e.1)]

/-! ### What an access leaves as it was -/

/-- The state without what an access of memory may change. -/
def memMask (s : State) : State :=
  { s with vc.tlb := [], vc.dcache := [], vc.fifo := [],
           part.mem := [], part.l2 := [], part.ctlb := [], part.walks := [], part.charges := [], part.blocks := [], part.drainQ := [],
           part.counts := [] }

@[simp] theorem memMask_chargeFor (s : State) (l : Option LaunchTag) (w : Option Nat) (c : EClass) (n : Nat) :
    memMask (chargeFor s l w c n) = memMask s := by
  unfold chargeFor; split <;> rfl

@[simp] theorem memMask_chargeTo (s : State) (w : Option Nat) (c : EClass) (n : Nat) :
    memMask (chargeTo s w c n) = memMask s := by
  unfold chargeTo; simp

@[simp] theorem memMask_charge (s : State) (c : EClass) (n : Nat) : memMask (charge s c n) = memMask s := by
  unfold charge; simp

@[simp] theorem memMask_l2 (s : State) (l : List L2Line) :
    memMask { s with part.l2 := l } = memMask s := rfl

@[simp] theorem memMask_l2Access (s : State) (who : Option Nat) (moved line : Nat) (w : Bool) :
    memMask (l2Access s who moved line w) = memMask s := by
  unfold l2Access
  split
  · simp
  · dsimp only
    split
    · rw [memMask_l2, memMask_chargeTo]
    · rw [memMask_l2, memMask_chargeTo, memMask_chargeTo]

@[simp] theorem memMask_l2Touch (s : State) (line : Nat) (w : Bool) : memMask (l2Touch s line w) = memMask s :=
  memMask_l2Access ..

@[simp] theorem memMask_homeRead (s : State) (pa n : Nat) : memMask (homeRead s pa n).1 = memMask s := by
  simp [homeRead]

@[simp] theorem memMask_physWrite (s : State) (pa : Nat) (d : List Byte) : memMask (physWrite s pa d) = memMask s := rfl

@[simp] theorem memMask_homeWrite (s : State) (pa : Nat) (d : List Byte) : memMask (homeWrite s pa d) = memMask s := by
  simp [homeWrite]

@[simp] theorem memMask_setBlock (s : State) (bk : Nat) (b : Block) : memMask (setBlock s bk b) = memMask s := rfl

@[simp] theorem memMask_walkGo (s : State) (table va n : Nat) : memMask (walkGo s table va n).1 = memMask s := by
  induction n generalizing s table with
  | zero =>
    rw [walkGo]
    have h := memMask_homeRead s (table + 8 * levelIndex 0 va) 8
    generalize homeRead s (table + 8 * levelIndex 0 va) 8 = r at h ⊢
    obtain ⟨r1, r2⟩ := r
    dsimp only at h ⊢
    split <;> exact h
  | succ n ih =>
    rw [walkGo]
    have h := memMask_homeRead s (table + 8 * levelIndex (n + 1) va) 8
    generalize homeRead s (table + 8 * levelIndex (n + 1) va) 8 = r at h ⊢
    obtain ⟨r1, r2⟩ := r
    dsimp only at h ⊢
    split
    · exact h
    · exact h
    · exact (ih _ _).trans h

theorem walk_low (s : State) (va : Nat) (h : s.cp < fld s.part.ptroot 55 11 * 2048 + tableSize 4) :
    walk s va = (s, .error (5, 3)) := by
  unfold walk
  exact if_pos h

theorem walk_go (s : State) (va : Nat) (h : ¬ s.cp < fld s.part.ptroot 55 11 * 2048 + tableSize 4) :
    walk s va = walkGo s (fld s.part.ptroot 55 11 * 2048) va 4 := by
  unfold walk
  exact if_neg h

@[simp] theorem memMask_walk (s : State) (va : Nat) : memMask (walk s va).1 = memMask s :=
  if h : s.cp < fld s.part.ptroot 55 11 * 2048 + tableSize 4 then congrArg (fun r => memMask r.1) (walk_low s va h)
  else (congrArg (fun r => memMask r.1) (walk_go s va h)).trans (memMask_walkGo s _ va 4)

@[simp] theorem memMask_tlb (s : State) (l : List TlbE) (c : List (Nat × TlbE)) :
    memMask { s with vc.tlb := l, part.ctlb := c } = memMask s := rfl

theorem lookup_core {s : State} {va : Nat} {e : TlbE} (h : s.vc.tlb.find? (fun e => e.hits va) = some e) :
    lookup s va = ({ s with vc.tlb := coreTlbPut s e }, .ok e) := by
  unfold lookup
  rw [h]

theorem lookup_cluster {s : State} {va : Nat} {p : Nat × TlbE} (h : s.vc.tlb.find? (fun e => e.hits va) = none)
    (hc : s.part.ctlb.find? (fun p => p.1 == clusterOf s && p.2.hits va) = some p) :
    lookup s va = (tlbFill s p.2, .ok p.2) := by
  unfold lookup
  simp only [h, hc]

theorem lookup_shared {s : State} {va : Nat} {w : Walk} (h : s.vc.tlb.find? (fun e => e.hits va) = none)
    (hc : s.part.ctlb.find? (fun p => p.1 == clusterOf s && p.2.hits va) = none) (hr : walkOf s va = some w) :
    lookup s va = match w.entry with
      | some e => (tlbFill s e, .ok e)
      | none => (s, .error (w.cause, w.detail)) := by
  unfold lookup
  cases he : w.entry <;> simp only [h, hc, hr, he]

theorem lookup_walk {s s1 : State} {va : Nat} {e : TlbE} (h : s.vc.tlb.find? (fun e => e.hits va) = none)
    (hc : s.part.ctlb.find? (fun p => p.1 == clusterOf s && p.2.hits va) = none) (hr : walkOf s va = none)
    (hw : walk s va = (s1, .ok e)) : lookup s va = (walkNote (tlbFill s1 e) va (some e) 0 0, .ok e) := by
  unfold lookup
  rw [h, hc, hr, hw]

theorem lookup_bad {s s1 : State} {va : Nat} {d : Nat × Nat} (h : s.vc.tlb.find? (fun e => e.hits va) = none)
    (hc : s.part.ctlb.find? (fun p => p.1 == clusterOf s && p.2.hits va) = none) (hr : walkOf s va = none)
    (hw : walk s va = (s1, .error d)) : lookup s va = (walkNote s1 va none d.1 d.2, .error d) := by
  unfold lookup
  rw [h, hc, hr, hw]

@[simp] theorem memMask_tlbFill (s : State) (e : TlbE) : memMask (tlbFill s e) = memMask s := rfl

@[simp] theorem memMask_walkNote (s : State) (va : Nat) (e : Option TlbE) (c d : Nat) :
    memMask (walkNote s va e c d) = memMask s := rfl

@[simp] theorem memMask_lookup (s : State) (va : Nat) : memMask (lookup s va).1 = memMask s := by
  rcases h : s.vc.tlb.find? (fun e => e.hits va) with _ | e
  · rcases hc : s.part.ctlb.find? (fun p => p.1 == clusterOf s && p.2.hits va) with _ | p
    · rcases hr : walkOf s va with _ | w
      · have hm := memMask_walk s va
        rcases hw : walk s va with ⟨s1, d | e⟩
        · rw [lookup_bad h hc hr hw]
          rw [hw] at hm
          exact hm
        · rw [lookup_walk h hc hr hw]
          rw [hw] at hm
          exact hm
      · rw [lookup_shared h hc hr]
        split <;> rfl
    · rw [lookup_cluster h hc]
      rfl
  · rw [lookup_core h]
    exact memMask_tlb s _ s.part.ctlb

/-- A translation that succeeds. -/
theorem translate_ok {s t : State} {va : Nat} {k : AccKind} {r : Nat × TlbE} (h : translate s va k = .ok t r) :
    t = (lookup s va).1 ∧ (lookup s va).2 = .ok r.2 ∧ denied r.2 k = none ∧ r.1 = r.2.frame + va % 2 ^ r.2.size := by
  unfold translate at h
  split at h
  · cases h
  · rename_i hl
    split at h
    · cases h
    · rename_i hd
      cases h
      simp [hl, hd]

theorem memMask_translate {s t : State} {va : Nat} {k : AccKind} {r : Nat × TlbE} (h : translate s va k = .ok t r) :
    memMask t = memMask s := by
  rw [(translate_ok h).1]; exact memMask_lookup s va

/-- A fold of steps that keep the mask keeps it. -/
theorem memMask_foldl {α : Type} (f : State → α → State) (hf : ∀ s a, memMask (f s a) = memMask s) (l : List α) (s : State) :
    memMask (l.foldl f s) = memMask s := by
  induction l generalizing s with
  | nil => rfl
  | cons a r ih => rw [List.foldl_cons, ih, hf]

@[simp] theorem memMask_copyLines (s : State) (bk : Nat) (b : Block) : memMask (copyLines s bk b) = memMask s := by
  refine memMask_foldl _ (fun s a => ?_) _ s
  split <;> simp

@[simp] theorem memMask_touch (s : State) (bk : Nat) : memMask (touch s bk) = memMask s := by
  unfold touch
  dsimp only
  rw [memMask_setBlock]
  split
  · rfl
  · split <;> simp

@[simp] theorem memMask_vRead (s : State) (f o n : Nat) : memMask (vRead s f o n).1 = memMask s := by simp [vRead]

/-- A write that is taken counts, writes bytes and sets its block; one whose token is stale counts alone. -/
theorem memMask_vWrite {s t : State} {f o : Nat} {d : List Byte} {tag : Option Nat} (h : vWrite s f o d tag = some t) :
    memMask t = memMask s := by
  unfold vWrite at h
  dsimp only at h
  split at h
  · cases h; rfl
  · have ht := memMask_touch s (blockOf f o)
    generalize touch s (blockOf f o) = s1 at h ht
    generalize blockAt s1 (blockOf f o) = b at h
    generalize List.find? _ b.pin = pin at h
    generalize decide (b.e ≠ s.part.openEp.map (fun o => o.1)) = first at h
    split at h
    · cases h
    · cases h
      have hq : ∀ q, memMask { s1 with part.drainQ := q } = memMask s1 := fun _ => rfl
      rw [memMask_setBlock, memMask_physWrite, memMask_charge]
      cases first <;> cases pin <;>
        simp only [apply_ite memMask, memMask_physWrite, memMask_charge, hq, ht, ite_self]

@[simp] theorem memMask_writeLine (s : State) (l : CLn) : memMask (writeLine s l) = memMask s := by
  unfold writeLine
  split
  · rfl
  · exact (memMask_foldl (fun t (p : Nat × Byte) => physWrite t p.1 [p.2]) (fun _ _ => rfl) _ _).trans (memMask_l2Touch s l.line true)

@[simp] theorem memMask_dc (s : State) (l : List CLn) (f : List Nat) :
    memMask { s with vc.dcache := l, vc.fifo := f } = memMask s := rfl
@[simp] theorem memMask_dcache (s : State) (l : List CLn) : memMask { s with vc.dcache := l } = memMask s := rfl
@[simp] theorem memMask_fifo (s : State) (f : List Nat) : memMask { s with vc.fifo := f } = memMask s := rfl

@[simp] theorem memMask_writeBack (s : State) (line : Nat) : memMask (writeBack s line) = memMask s := by
  unfold writeBack
  split <;> simp

@[simp] theorem memMask_dropLine (s : State) (line : Nat) : memMask (dropLine s line) = memMask s := by simp [dropLine]

@[simp] theorem memMask_flushFifo (s : State) : memMask (flushFifo s) = memMask s :=
  memMask_foldl _ (fun _ _ => by simp) _ s

@[simp] theorem memMask_evictFor (s : State) (line : Nat) : memMask (evictFor s line) = memMask s := by
  unfold evictFor
  dsimp only
  split
  · rfl
  · split <;> simp

@[simp] theorem memMask_dcFill (s : State) (l : CLn) : memMask (dcFill s l) = memMask s := by
  unfold dcFill
  split <;> rfl

@[simp] theorem memMask_dcLine (s : State) (line : Nat) : memMask (dcLine s line).1 = memMask s := by
  unfold dcLine
  split
  · rfl
  · simp

@[simp] theorem memMask_dcStore (s : State) (pa : Nat) (d : List Byte) : memMask (dcStore s pa d) = memMask s := by
  unfold dcStore
  dsimp only
  split
  · simp
  · rw [memMask_dcache]
    split
    · simp
    · rw [memMask_fifo]
      split
      · split <;> simp
      · simp

/-- A CTL load outside the on-chip map that answers changes nothing but the mask. -/
theorem memMask_ctlLoad {s t : State} {va : Word64} {n v : Nat} (hm : inMap va.toNat = false) (h : ctlLoad s va n = .ok t v) :
    memMask t = memMask s := by
  unfold ctlLoad at h
  split at h
  · cases h
  · dsimp only at h
    rw [hm] at h
    split at h
    · rename_i hf
      cases hf
    · split at h
      · cases h
      · cases h
      · rename_i ht
        have hm := memMask_translate ht
        split at h
        · cases h
        · split at h
          · cases h
          · split at h <;> cases h <;> simp [hm]

end Sys2Proof.Machine
end

