-- ==== Sys2Proof/Laws/Canonical.lean ====
section
/-! SUPPORT. Every operation on memory keeps it in its canonical form: addresses rise, and no byte that reads zero is
listed. -/

set_option Elab.async false
set_option linter.unusedSimpArgs false

namespace Sys2Proof.Machine

open Sys2Proof.Laws

/-- What the canonical form depends on. -/
theorem memWf_of {s t : State} (hm : t.part.mem = s.part.mem) (ho : t.others = s.others) : t.memWf = s.memWf := by
  unfold State.memWf
  rw [hm, ho]

theorem memWf_reset : State.reset.memWf = true := rfl

@[simp] theorem memWf_chargeFor (s : State) (l : Option LaunchTag) (w : Option Nat) (c : EClass) (n : Nat) :
    (chargeFor s l w c n).memWf = s.memWf := by
  unfold chargeFor
  split <;> rfl

@[simp] theorem memWf_chargeTo (s : State) (w : Option Nat) (c : EClass) (n : Nat) : (chargeTo s w c n).memWf = s.memWf :=
  memWf_chargeFor ..

@[simp] theorem memWf_charge (s : State) (c : EClass) (n : Nat) : (charge s c n).memWf = s.memWf := by
  unfold charge
  exact memWf_chargeTo ..

@[simp] theorem memWf_l2 (s : State) (l : List L2Line) : State.memWf { s with part.l2 := l } = s.memWf := rfl

@[simp] theorem memWf_l2Access (s : State) (who : Option Nat) (moved line : Nat) (w : Bool) :
    (l2Access s who moved line w).memWf = s.memWf := by
  unfold l2Access
  split
  · rw [memWf_chargeTo, memWf_chargeTo]
  · dsimp only
    split
    · rw [memWf_l2, memWf_chargeTo]
    · rw [memWf_l2, memWf_chargeTo, memWf_chargeTo]

@[simp] theorem memWf_l2Touch (s : State) (line : Nat) (w : Bool) : (l2Touch s line w).memWf = s.memWf :=
  memWf_l2Access ..

@[simp] theorem memWf_homeRead (s : State) (pa n : Nat) : (homeRead s pa n).1.memWf = s.memWf := memWf_l2Touch s _ _

theorem memWf_physWrite {s : State} (h : s.memWf = true) (pa : Nat) (d : List Byte) : (physWrite s pa d).memWf = true := by
  unfold State.memWf at h ⊢
  rw [Bool.and_eq_true] at h ⊢
  exact ⟨mwf_mputs byteDefault d s.part.mem pa h.1, h.2⟩

/-- An access of the device itself writes in canonical form. -/
theorem memWf_deviceWrite {s : State} (h : s.memWf = true) (pa : Nat) (d : List Byte) : (deviceWrite s pa d).memWf = true := by
  have hl : ∀ (l : List Nat) (t : State), t.memWf = true → (l.foldl (fun t l => l2Access t none 1 l true) t).memWf = true := by
    intro l
    induction l with
    | nil => exact fun _ ht => ht
    | cons a r ih => exact fun t ht => ih _ ((memWf_l2Access ..).trans ht)
  exact memWf_physWrite (hl _ _ h) _ _

theorem memWf_homeWrite {s : State} (h : s.memWf = true) (pa : Nat) (d : List Byte) : (homeWrite s pa d).memWf = true :=
  memWf_physWrite ((memWf_l2Touch s _ _).trans h) pa d

@[simp] theorem memWf_setBlock (s : State) (bk : Nat) (b : Block) : (setBlock s bk b).memWf = s.memWf := rfl

theorem memWf_ite {c : Prop} [Decidable c] {a b : State} (ha : a.memWf = true) (hb : b.memWf = true) :
    (if c then a else b).memWf = true := by
  split
  · exact ha
  · exact hb

/-- A fold of steps that keep the form keeps it. -/
theorem memWf_foldl {α : Type} (f : State → α → State) (hf : ∀ s a, s.memWf = true → (f s a).memWf = true) (l : List α)
    {s : State} (h : s.memWf = true) : (l.foldl f s).memWf = true := by
  induction l generalizing s with
  | nil => exact h
  | cons a r ih => exact ih (hf s a h)

theorem memWf_copyLines {s : State} (h : s.memWf = true) (bk : Nat) (b : Block) : (copyLines s bk b).memWf = true := by
  refine memWf_foldl _ (fun s a hs => ?_) _ h
  split
  · exact hs
  · exact memWf_physWrite hs _ _

theorem memWf_touch {s : State} (h : s.memWf = true) (bk : Nat) : (touch s bk).memWf = true := by
  unfold touch
  dsimp only
  rw [memWf_setBlock]
  split
  · exact h
  · split
    · exact h
    · rw [memWf_setBlock]
      exact memWf_copyLines ((memWf_chargeTo ..).trans h) _ _
    · exact h

theorem memWf_vRead {s : State} (h : s.memWf = true) (f o n : Nat) : (vRead s f o n).1.memWf = true := by
  unfold vRead
  exact (memWf_charge (touch s (blockOf f o)) .hbm 1).trans (memWf_touch h _)

theorem memWf_vWrite {s t : State} {f o : Nat} {d : List Byte} {tag : Option Nat} (hs : s.memWf = true)
    (h : vWrite s f o d tag = some t) : t.memWf = true := by
  unfold vWrite at h
  dsimp only at h
  split at h
  · cases h; exact hs
  · have ht := memWf_touch hs (blockOf f o)
    generalize touch s (blockOf f o) = s1 at h ht
    generalize blockAt s1 (blockOf f o) = b at h
    generalize List.find? _ b.pin = pin at h
    generalize decide (b.e ≠ s.part.openEp.map (fun o => o.1)) = first at h
    split at h
    · cases h
    · cases h
      have hq : ∀ q, State.memWf { s1 with part.drainQ := q } = true := fun q => (memWf_of rfl rfl).trans ht
      have hp : ∀ (u : State) pa d, u.memWf = true → (physWrite (charge u .hbm) pa d).memWf = true :=
        fun u pa d hu => memWf_physWrite ((memWf_charge ..).trans hu) pa d
      rw [memWf_setBlock]
      refine hp _ _ _ (memWf_ite ?_ (hp _ _ _ ?_)) <;> split <;>
        first | exact ht | exact (memWf_charge ..).trans (hq _)

theorem memWf_writeLine {s : State} (h : s.memWf = true) (l : CLn) : (writeLine s l).memWf = true := by
  unfold writeLine
  split
  · exact h
  · exact memWf_foldl (fun t (p : Nat × Byte) => physWrite t p.1 [p.2]) (fun _ _ hs => memWf_physWrite hs _ _) _
      ((memWf_l2Touch s l.line true).trans h)

theorem memWf_writeBack {s : State} (h : s.memWf = true) (line : Nat) : (writeBack s line).memWf = true := by
  unfold writeBack
  split
  · exact h
  · exact memWf_writeLine h _

theorem memWf_dropLine {s : State} (h : s.memWf = true) (line : Nat) : (dropLine s line).memWf = true := memWf_writeBack h line

theorem memWf_flushFifo {s : State} (h : s.memWf = true) : (flushFifo s).memWf = true :=
  memWf_foldl _ (fun _ _ hs => memWf_writeBack hs _) _ h

theorem memWf_evictFor {s : State} (h : s.memWf = true) (line : Nat) : (evictFor s line).memWf = true := by
  unfold evictFor
  dsimp only
  split
  · exact h
  · split
    · exact h
    · exact memWf_dropLine h _

theorem memWf_dcFill {s : State} (h : s.memWf = true) (l : CLn) : (dcFill s l).memWf = true :=
  memWf_ite h ((memWf_of rfl rfl).trans h)

theorem memWf_dcLine {s : State} (h : s.memWf = true) (line : Nat) : (dcLine s line).1.memWf = true := by
  unfold dcLine
  split
  · exact h
  · have hr := (memWf_homeRead (evictFor s line) (line * 128) 128).trans (memWf_evictFor h line)
    dsimp only
    generalize homeRead (evictFor s line) (line * 128) 128 = r at hr ⊢
    exact memWf_dcFill hr _

theorem memWf_dcStore {s : State} (h : s.memWf = true) (pa : Nat) (d : List Byte) : (dcStore s pa d).memWf = true := by
  unfold dcStore
  have h1 := memWf_dcLine h (pa / 128)
  have hd : ∀ (t : State) (l : List CLn), t.memWf = true → State.memWf { t with vc.dcache := l } = true :=
    fun t l ht => (memWf_of rfl rfl).trans ht
  have hf : ∀ (t : State) (l : List Nat), t.memWf = true → State.memWf { t with vc.fifo := l } = true :=
    fun t l ht => (memWf_of rfl rfl).trans ht
  refine memWf_ite (memWf_homeWrite h _ _) (hd _ _ (memWf_ite h1 (hf _ _ ?_)))
  split
  · exact memWf_ite (memWf_writeBack h1 _) h1
  · exact h1

theorem memWf_walkGo (s : State) (table va n : Nat) : (walkGo s table va n).1.memWf = s.memWf := by
  induction n generalizing s table with
  | zero =>
    rw [walkGo]
    have h := memWf_homeRead s (table + 8 * levelIndex 0 va) 8
    generalize homeRead s (table + 8 * levelIndex 0 va) 8 = r at h ⊢
    obtain ⟨r1, r2⟩ := r
    dsimp only at h ⊢
    split <;> exact h
  | succ n ih =>
    rw [walkGo]
    have h := memWf_homeRead s (table + 8 * levelIndex (n + 1) va) 8
    generalize homeRead s (table + 8 * levelIndex (n + 1) va) 8 = r at h ⊢
    obtain ⟨r1, r2⟩ := r
    dsimp only at h ⊢
    split
    · exact h
    · exact h
    · exact (ih _ _).trans h

@[simp] theorem memWf_walk (s : State) (va : Nat) : (walk s va).1.memWf = s.memWf :=
  if h : s.cp < fld s.part.ptroot 55 11 * 2048 + tableSize 4 then congrArg (fun r => r.1.memWf) (walk_low s va h)
  else (congrArg (fun r => r.1.memWf) (walk_go s va h)).trans (memWf_walkGo s _ va 4)

@[simp] theorem memWf_lookup (s : State) (va : Nat) : (lookup s va).1.memWf = s.memWf := by
  rcases h : s.vc.tlb.find? (fun e => e.hits va) with _ | e
  · rcases hc : s.part.ctlb.find? (fun p => p.1 == clusterOf s && p.2.hits va) with _ | p
    · rcases hr : walkOf s va with _ | w
      · have hm := memWf_walk s va
        rcases hw : walk s va with ⟨s1, d | e⟩
        · rw [lookup_bad h hc hr hw]
          rw [hw] at hm
          exact hm
        · rw [lookup_walk h hc hr hw]
          rw [hw] at hm
          exact hm
      · rw [lookup_shared h hc hr]
        split <;> rfl
    · rw [lookup_cluster h hc]
      rfl
  · rw [lookup_core h]
    rfl

theorem memWf_translate {s t : State} {va : Nat} {k : AccKind} {r : Nat × TlbE} (h : translate s va k = .ok t r) :
    t.memWf = s.memWf := by
  rw [(translate_ok h).1]
  exact memWf_lookup s va

@[simp] theorem memWf_updVC (s : State) (i : Nat) (f : VC → VC) : (updVC s i f).memWf = s.memWf := by
  unfold updVC
  split <;> rfl

@[simp] theorem memWf_mapRead (s : State) (t : VC) (o n : Nat) (w : MapWhat) : (mapRead s t o n w).1.memWf = s.memWf := by
  unfold mapRead
  split
  · split <;> exact memWf_updVC ..
  · rfl

theorem memWf_ctlLoad {s t : State} {va : Word64} {n v : Nat} (hs : s.memWf = true) (h : ctlLoad s va n = .ok t v) :
    t.memWf = true := by
  unfold ctlLoad at h
  split at h
  · cases h
  · dsimp only at h
    split at h
    · split at h
      · cases h
      · split at h
        · cases h
        · split at h
          · cases h
          · split at h
            · rename_i hr
              cases h
              rw [← congrArg (fun r => r.1.memWf) hr, memWf_mapRead]
              exact hs
            · cases h
    · split at h
      · cases h
      · cases h
      · rename_i ht
        have hm := (memWf_translate ht).trans hs
        split at h
        · cases h
        · split at h
          · cases h
          · split at h
            · cases h; exact memWf_vRead hm _ _ _
            · cases h; exact memWf_dcLine hm _

theorem memWf_ctlStore {s t : State} {va : Word64} {d : List Byte} {u : Unit} (hs : s.memWf = true)
    (h : ctlStore s va d = .ok t u) : t.memWf = true := by
  unfold ctlStore at h
  split at h
  · cases h
  · dsimp only at h
    split at h
    · split at h
      · cases h
      · split at h <;> cases h
        exact hs
    · split at h
      · cases h
      · cases h
      · rename_i ht
        have hm := (memWf_translate ht).trans hs
        split at h
        · cases h
        · split at h
          · split at h
            · cases h
            · split at h
              · cases h
              · split at h
                · cases h
                · split at h <;> cases h
                  rename_i hv
                  exact memWf_vWrite hm hv
          · split at h
            · cases h
            · split at h <;> cases h
              exact memWf_dcStore hm _ _

end Sys2Proof.Machine
end

