-- ==== Sys2Proof/Laws/Ops.lean ====
section
/-! SUPPORT. What the shared operations can do, said once: the wrappers of the CTL meanings, the end of a launch, the issue
of an engine word, and the head of FX. -/

set_option Elab.async false
set_option linter.unusedSimpArgs false

namespace Sys2Proof.Machine

open Sys2Proof.Laws

/-! ### The wrappers of CTL meanings -/

@[simp] theorem memThen_ok {α : Type} (s t : State) (va : Word64) (v : α) (k : State → α → Out) :
    memThen s va (.ok t v) k = k t v := rfl

@[simp] theorem memThen_fault {α : Type} (s t : State) (va : Word64) (c d : Nat) (k : State → α → Out) :
    memThen s va (.fault t c d) k = ctlFault t c d (tvalOf c va) := rfl

@[simp] theorem memThen_wait {α : Type} (s t : State) (va : Word64) (k : State → α → Out) :
    memThen s va (.wait t) k = .next t := rfl

theorem restricted_outside {s : State} (h : s.vc.ctl.h = false) (k : Out) : restricted s k = k :=
  if_neg (Bool.eq_false_iff.mp h)

theorem restricted_inside {s : State} (h : s.vc.ctl.h = true) (k : Out) : restricted s k = endLaunch s 3 0x01 0 :=
  if_pos h

/-! ### Traps and the end of a launch -/

theorem takeTrap_none {s : State} (h : nextFault s.vc.faults = none) : takeTrap s = .next s := by
  unfold takeTrap
  rw [h]

theorem takeTrap_handler {s : State} (h : s.vc.ctl.h = true) : takeTrap s = .next s := by
  unfold takeTrap
  split
  · rfl
  · exact if_pos h

theorem enterTrap_without_handler {s : State} (f : FaultRec) (h : s.vc.ctl.tvec = 0) :
    enterTrap s f = endLaunch s 3 f.cause (endDetail f.cause f.detail) := by
  unfold enterTrap
  exact if_pos h

theorem ctlFaultTo_handler {s : State} (cause detail : Nat) (tval tepc : Word64) (h : s.vc.ctl.h = true) :
    ctlFaultTo s cause detail tval tepc = endLaunch (countError s cause detail) 3 cause (endDetail cause detail) := by
  unfold ctlFaultTo
  exact if_pos h

/-- A completion record that can be written: where it goes and what it says (R333, R336). -/
theorem completeSlot_next {s t : State} {q c status cause detail : Nat} (h : completeSlot s q c status cause detail = .next t) :
    fld (qword s q 1) 55 0 + 16 * (c % qslots s q) + 16 ≤ s.cp ∧
    ∃ v, t = setQword (deviceWrite s (fld (qword s q 1) 55 0 + 16 * (c % qslots s q))
      (leBytes (c % 2 ^ 32 * 2 ^ 32 + status * 2 ^ 24 + cause * 2 ^ 16 + detail) 8 ++ leBytes 0 8)) q 2 v := by
  unfold completeSlot at h
  by_cases hc : s.cp < fld (qword s q 1) 55 0 + 16 * (c % qslots s q) + 16
  · rw [if_pos hc] at h
    cases h
  · rw [if_neg hc] at h
    exact ⟨Nat.le_of_not_lt hc, _, (Host.Outcome.next.inj h).symm⟩

theorem memWf_setQword (s : State) (q w : Nat) (v : Word64) : (setQword s q w v).memWf = s.memWf := rfl

theorem memWf_completeSlot {s t : State} {q c status cause detail : Nat} (hs : s.memWf = true)
    (h : completeSlot s q c status cause detail = .next t) : t.memWf = true := by
  obtain ⟨-, v, rfl⟩ := completeSlot_next h
  rw [memWf_setQword]
  exact memWf_deviceWrite hs _ _

@[simp] theorem memWf_keepDrains (s : State) (keep : Drain → Bool) : (keepDrains s keep).memWf = s.memWf := by
  unfold keepDrains
  dsimp only
  split <;> rfl

theorem memWf_discardLaunch (s : State) (failed : Bool) : (discardLaunch s failed).memWf = s.memWf := by
  cases failed
  · rfl
  · exact (memWf_of rfl rfl).trans (memWf_keepDrains s _)

theorem memWf_keepStep (s : State) (failed : Bool) : (keepStep s failed).memWf = s.memWf := by
  unfold keepStep
  dsimp only
  repeat' split
  all_goals rfl

theorem memWf_tellEnd (s : State) : (tellEnd s).memWf = s.memWf := by
  unfold tellEnd
  split <;> rfl

theorem memWf_beforeEnd (s : State) (status cause : Nat) : (beforeEnd s status cause).memWf = s.memWf := by
  unfold beforeEnd
  split
  · rw [memWf_tellEnd, memWf_keepStep]
    rfl
  · exact memWf_keepStep ..

/-- A launch that ends has its completion record, and then nothing of it runs (R336, R375). -/
theorem endLaunch_next {s t : State} {status cause detail : Nat} (h : endLaunch s status cause detail = .next t) :
    ∃ s1, completeSlot s s.launch.queue s.launch.slot status cause detail = .next s1 ∧
      t = discardLaunch (beforeEnd s1 status cause) (decide (status ≠ 0)) := by
  unfold endLaunch at h
  rcases hc : completeSlot s s.launch.queue s.launch.slot status cause detail with s1 | f | r
  · rw [hc] at h
    exact ⟨s1, rfl, (Host.Outcome.next.inj h).symm⟩
  · rw [hc] at h
    cases h
  · rw [hc] at h
    cases h

theorem memWf_endLaunch {s t : State} {status cause detail : Nat} (hs : s.memWf = true)
    (h : endLaunch s status cause detail = .next t) : t.memWf = true := by
  obtain ⟨s1, h1, rfl⟩ := endLaunch_next h
  rw [memWf_discardLaunch, memWf_beforeEnd]
  exact memWf_completeSlot hs h1

/-! ### The issue of an engine word -/

/-- An engine word's turn always answers a next state: it issues, waits or records its fault. -/
theorem issueGate_next (s : State) (q : Queue) (e : QEntry) (c : Chk) (k : State → State) : ∃ t, issueGate s q e c k = .next t := by
  unfold issueGate
  split
  · exact ⟨_, rfl⟩
  · exact ⟨_, rfl⟩
  · split <;> exact ⟨_, rfl⟩
  · split
    · split <;> exact ⟨_, rfl⟩
    · exact ⟨_, rfl⟩

theorem next_ite {c : Prop} [Decidable c] {a b : Out} (ha : ∃ t, a = .next t) (hb : ∃ t, b = .next t) :
    ∃ t, (if c then a else b) = .next t := by
  split
  · exact ha
  · exact hb

theorem issueWord_next (s : State) (q : Queue) (b : EngBits) (head check : QEntry → Chk) (n : Nat) (cls : Option EClass)
    (go : QEntry → List Nat → State → State) : ∃ t, issueWord s q b head check n cls go = .next t := by
  unfold issueWord
  split
  · exact ⟨_, rfl⟩
  · split
    · exact ⟨_, rfl⟩
    · dsimp only
      split
      · exact ⟨_, rfl⟩
      · exact ⟨_, rfl⟩
      · exact ⟨_, rfl⟩
      · split
        · split
          · exact ⟨_, rfl⟩
          · exact next_ite ⟨_, rfl⟩ (issueGate_next ..)
        · exact next_ite ⟨_, rfl⟩ (issueGate_next ..)

/-- An empty queue does nothing. -/
theorem issueWord_empty {s : State} {q : Queue} (b : EngBits) (head check : QEntry → Chk) (n : Nat) (cls : Option EClass)
    (go : QEntry → List Nat → State → State) (h : headOf s q = none) : issueWord s q b head check n cls go = .next s := by
  unfold issueWord
  rw [h]

/-- A queue that is held does nothing (R377, R378, R95, R404). -/
theorem issueWord_held {s : State} {q : Queue} {e : QEntry} (b : EngBits) (head check : QEntry → Chk) (n : Nat)
    (cls : Option EClass) (go : QEntry → List Nat → State → State) (h : headOf s q = some e) (hh : queueHeld s q = true) :
    issueWord s q b head check n cls go = .next s := by
  unfold issueWord
  rw [h]
  simp [hh]

@[simp] theorem inFlight_setEntry (s : State) (e : QEntry) : inFlight (setEntry s e).vc = inFlight s.vc := rfl

@[simp] theorem tokCount_setEntry (s : State) (e : QEntry) (f : Nat) : tokCount (setEntry s e) f = tokCount s f := rfl

/-! ### Lists of checks -/

@[simp] theorem firstChk_nil : firstChk [] = .ok := rfl
@[simp] theorem firstChk_ok (r : List Chk) : firstChk (.ok :: r) = firstChk r := rfl
@[simp] theorem firstChk_fault (c d : Nat) (r : List Chk) : firstChk (.fault c d :: r) = .fault c d := rfl
@[simp] theorem firstChk_wait (c : Nat) (r : List Chk) : firstChk (.wait c :: r) = .wait c := rfl
@[simp] theorem need_true (c d : Nat) : need true c d = .ok := rfl
@[simp] theorem need_false (c d : Nat) : need false c d = .fault c d := rfl
@[simp] theorem await_true (c : Nat) : await true c = .ok := rfl
@[simp] theorem await_false (c : Nat) : await false c = .wait c := rfl

/-! ### The head of a queue -/

theorem guardField_ok {c : Bool} {i j : Instr} (h : guardField c i = .ok j) : c = true ∧ i = j := by
  unfold guardField at h
  split at h
  · cases h
    exact ⟨‹_›, rfl⟩
  · cases h

theorem wfOr_ok {r : Except DecodeError Instr} {i : Instr} (h : wfOr r = .ok i) : r = .ok i ∧ i.wf = true := by
  unfold wfOr at h
  split at h
  · split at h
    · cases h
      exact ⟨rfl, ‹_›⟩
    · cases h
  · cases h

/-- A function word at the head of FX does what the decoded instruction does (R47, R212). -/
theorem execFuncWord_eq {q : Queue} {x : QEntry} {s : State} {i : Instr}
    (h : wfOr (decodeFunc x.word (entryBits9 x)) = .ok i) : execFuncWord q x s = exec i s := by
  obtain ⟨h1, hw⟩ := wfOr_ok h
  unfold decodeFunc at h1
  unfold execFuncWord
  split at h1
  case h_19 => cases h1
  all_goals
    rename_i hn
    obtain ⟨hb, rfl⟩ := guardField_ok h1
    have hb' : eb x.word = 0 := by simpa using hb
    have hp : (entryBits9 x).plain = true := by simpa [Instr.wf] using hw
    rw [if_neg (by simp [hb', hp])]
    first
    | rfl
    | (rw [hn]; rfl)

/-- The head of a queue does what the instruction of its word does. -/
theorem execHead_eq {q : Queue} {x : QEntry} {s : State} {i : Instr} (hb : x.bad = false)
    (h : wfOr (decodeEngine x.word (entryBits9 x)) = .ok i) : execHead q x s = exec i s := by
  unfold decodeEngine at h
  unfold execHead
  rw [hb]
  by_cases hm : (majorOf x.word).toNat = 0x39
  · rw [if_pos hm] at h
    simp only [Bool.false_eq_true, if_false, if_pos hm]
    exact execFuncWord_eq h
  · rw [if_neg hm] at h
    simp only [Bool.false_eq_true, if_false, if_neg hm, h]

end Sys2Proof.Machine
end

