-- ==== Sys2Proof/Tests/Slice0.lean ====
section
/-! SUPPORT. The model's own tests: words and the instructions they stand for, the checks of WellFormed, single steps with
values from the spec, and for each statement with hypotheses a state and operands that meet them. -/

set_option Elab.async false

namespace Sys2Proof.Tests

open Sys2Proof.Machine

/-! ### Words decoded: from the encoding tables of the spec (R27 to R56) and from its printed examples -/

/-- Each word decodes to the instruction beside it. -/
abbrev decodesTo (l : List (Nat × Instr)) : Prop := l.all (fun p => decodeTableWord 32 p.1 == some p.2) = true

/-- An engine word without token bits, delay or prefixes. -/
def plainBits : EngBits :=
  { popP := false, popN := false, pushP := false, pushN := false, delay := 0, stamp := none, metaP := none }

/-- Words of the majors 0x01. -/
theorem test_decode_table_0 : decodesTo
    [(0x0454A100, .add 5 18 33), (0x04856401, .sub 8 21 36), (0x04B62702, .and 11 24 39), (0x04E6EA03, .or 14 27 42),
     (0x0517AD04, .xor 17 30 45), (0x05487005, .andn 20 33 48), (0x05793306, .sll 23 36 51),
     (0x05A9F607, .srl 26 39 54), (0x05DAB908, .sra 29 42 57), (0x060B7C09, .rol 32 45 60),
     (0x063C3F0A, .ror 35 48 63), (0x066CC20B, .slt 38 51 2), (0x069D850C, .sltn 41 54 5),
     (0x06CE480D, .min 44 57 8), (0x06FF0B0E, .max 47 60 11), (0x072FCE0F, .minn 50 63 14),
     (0x07509110, .maxn 53 2 17), (0x07815411, .addw 56 5 20)] := by decide

/-- Words of the majors 0x01, 0x02, 0x03, 0x04, 0x05, 0x06, 0x07, 0x08, 0x09, 0x0A. -/
theorem test_decode_table_1 : decodesTo
    [(0x07B21712, .subw 59 8 23), (0x07E2C013, .clz 62 11), (0x04138014, .ctz 1 14), (0x04444015, .popc 4 17),
     (0x04750016, .bswap 7 20), (0x08A5EAA1, .addi 10 23 10913 none), (0x0CD6AAA4, .andi 13 26 10916 none),
     (0x11076AA7, .ori 16 29 10919 none), (0x15382AAA, .xori 19 32 10922 none), (0x1968C036, .slli 22 35 54),
     (0x19998079, .srli 25 38 57), (0x19CA40BC, .srai 28 41 60), (0x1DFB2AB6, .slti 31 44 10934 none),
     (0x22202AB9, .lih 34 10937 none), (0x26502ABC, .addpc 37 10940 none), (0x2A8D4400, .mul 40 53 4),
     (0x2ABE0701, .mulh 43 56 7), (0x2AEECA02, .mulhn 46 59 10)] := by decide

/-- Words of the majors 0x0A, 0x0B. -/
theorem test_decode_table_2 : decodesTo
    [(0x2B1F8D03, .div 49 62 13), (0x2B405004, .divn 52 1 16), (0x2B711305, .rem 55 4 19),
     (0x2BA1D606, .remn 58 7 22), (0x2FD29980, .fadd 61 10 25 true), (0x2C035C01, .fsub 0 13 28 false),
     (0x2C341F82, .fmul 3 16 31 true), (0x2C64E203, .fdiv 6 19 34 false), (0x2C958084, .fsqrt 9 22 true),
     (0x2CC66805, .fmac 12 25 40 false), (0x2CF72B86, .fmin 15 28 43 true), (0x2D27EE07, .fmax 18 31 46 false),
     (0x2D58B188, .fceq 21 34 49 true), (0x2D897409, .fclt 24 37 52 false), (0x2DBA378A, .fcle 27 40 55 true),
     (0x2DEAC00B, .fclass 30 43 false), (0x2E1B808C, .fabs 33 46 true), (0x2E4C400D, .fneg 36 49 false)] := by decide

/-- Words of the majors 0x0B, 0x0C, 0x0D, 0x0E, 0x0F, 0x10, 0x11, 0x12, 0x14, 0x15, 0x16, 0x17. -/
theorem test_decode_table_3 : decodesTo
    [(0x2E7D038E, .fcpys 39 52 3 true), (0x2EADC00F, .fcvtI64T 42 55 false), (0x2EDE8090, .fcvtN64T 45 58 true),
     (0x2F0F4011, .fcvtTI64 48 61 false), (0x2F300092, .fcvtTN64 51 0 true), (0x2F60C093, .fcvtF64F32 54 3),
     (0x2F918013, .fcvtF32F64 57 6), (0x33C26B13, .ldI8 60 9 11027 none), (0x37F32B16, .ldN8 63 12 11030 none),
     (0x3823EB19, .ldI16 2 15 11033 none), (0x3C54AB1C, .ldN16 5 18 11036 none),
     (0x40856B1F, .ldI32 8 21 11039 none), (0x44B62B22, .ldN32 11 24 11042 none),
     (0x48E6EB25, .ld64 14 27 11045 none), (0x5317AB28, .st8 49 30 11048 none), (0x57486B2B, .st16 52 33 11051 none),
     (0x5B792B2E, .st32 55 36 11054 none), (0x5FA9EB31, .st64 58 39 11057 none)] := by decide

/-- Words of the majors 0x18, 0x19, 0x1A, 0x1B, 0x1C, 0x1D, 0x1E, 0x1F, 0x20, 0x21, 0x22. -/
theorem test_decode_table_4 : decodesTo
    [(0x62AE530C, .beq 42 57 4876 none), (0x66DF130F, .bne 45 60 4879 none), (0x6B0FD312, .blt 48 63 4882 none),
     (0x6F309315, .bge 51 2 4885 none), (0x73615318, .bltn 54 5 4888 none), (0x7792131B, .bgen 57 8 4891 none),
     (0x7800131E, .j 4894 none), (0x7C001321, .jal 4897 none), (0x8350AB4C, .jalr 53 2 11084 none),
     (0x87800060, .csrRd 56 96), (0x87B21001, .csrWr 59 8 1), (0x87E2E001, .csrOr 62 11 1),
     (0x8413B001, .csrAndn 1 14 1), (0x88002800, .trap 40), (0x88000001, .tret), (0x88000002, .halt),
     (0x88000003, .fence), (0x88000004, .ifb)] := by decide

/-- Words of the majors 0x22, 0x23. -/
theorem test_decode_table_5 : decodesTo
    [(0x88080010, .acqCore 32), (0x8808C011, .acqCluster 35), (0x88098012, .acqDie 38), (0x880A4013, .acqDevice 41),
     (0x880B0014, .acqLaunch 44), (0x880BC018, .relCore 47), (0x880C8019, .relCluster 50), (0x880D401A, .relDie 53),
     (0x880E001B, .relDevice 56), (0x880EC01C, .relLaunch 59), (0x880000AA, .qfence 42),
     (0x8F405010, .aadd 52 1 16 .n32), (0x8F711301, .aand 55 4 19 .i32), (0x8FA1D612, .aor 58 7 22 .n32),
     (0x8FD29923, .axor 61 10 25 .i64), (0x8C035C34, .amin 0 13 28 .n64), (0x8C341F45, .amax 3 16 31 .f32),
     (0x8C64E256, .aswap 6 19 34 .f64)] := by decide

/-- Words of the majors 0x23, 0x24, 0x25. -/
theorem test_decode_table_6 : decodesTo
    [(0x8C95A527, .acas 9 22 37 .i64), (0x8C066890, .aredAdd 25 40 .n32), (0x8C072B81, .aredAnd 28 43 .i32),
     (0x8C07EE92, .aredOr 31 46 .n32), (0x8C08B1A3, .aredXor 34 49 .i64), (0x8C0974B4, .aredMin 37 52 .n64),
     (0x8C0A37C5, .aredMax 40 55 .f32), (0x90000001, .tokPush 1), (0x90000006, .tokPop 2),
     (0x9240000B, .tokRead 36 3), (0x9270000C, .evWait 39), (0x92A0000D, .evPop 42), (0x92D0000E, .evCount 45),
     (0x9300000F, .frame 48), (0x95700F00, .tblLoad 23 0 15), (0x95A0C001, .tblRun 26 3), (0x95D00002, .tblStop 29),
     (0x96024003, .tblRebase 32 9)] := by decide

/-- Words of the majors 0x25, 0x26, 0x27. -/
theorem test_decode_table_7 : decodesTo
    [(0x94030004, .tblParam 0 12), (0x96600005, .tblWait 38), (0x98948000, .zsetBase 9 18),
     (0x98A54001, .zsetStride 10 21), (0x98B60002, .zsetCount 11 24), (0x98C6C003, .zsetFmt 12 27),
     (0x98D78004, .zsetScale 13 30), (0x98E84005, .zsetRing 14 33), (0x98F90006, .zsetAdv 15 36),
     (0x99A00608, .zget 26 0 6), (0x9C0A8000, .txopen 42), (0x9C000001, .txvote), (0x9C0C0002, .txloss 48),
     (0x9E600003, .txwait 38), (0x9C000004, .txabort), (0x9EC00305, .txrd 44 3), (0x9C0F0006, .rngk 60),
     (0x9C0FC007, .rngn 63)] := by decide

/-- Words of the majors 0x28, 0x29, 0x2A. -/
theorem test_decode_table_8 : decodesTo
    [(0xA0000000, .sstepCluster), (0xA0000001, .sstepDie), (0xA0000002, .sstepDevice), (0xA0000003, .sstepHerd),
     (0xA0000004, .sstepJob), (0xA0044008, .domSet 17), (0xA0700009, .domGet 7), (0xA405E600, .collRed 23 38),
     (0xA406A901, .collBcast 26 41), (0xA4076C02, .collGath 29 44), (0xA4082F03, .collNorm 32 47),
     (0xA408F204, .collExp 35 50), (0xA5998006, .collWait 25 38), (0xA40A7807, .winReg 41 56),
     (0xA40B0008, .winDrop 44), (0xA4500009, .mbclr 5), (0xA8BC8000, .ywr 11 50), (0xAA830001, .yrd 40 12)] := by decide

/-- Words of the majors 0x2A, 0x2B, 0x2C, 0x30, 0x31, 0x32. -/
theorem test_decode_table_9 : decodesTo
    [(0xAAB1C002, .mbrd 43 7), (0xAC9EC000, .ccbWr 9 59 0), (0xAF128301, .ccbRd 49 10 3), (0xACB04002, .ccbLd 11 1),
     (0xACC10003, .ccbSt 12 4), (0xB001C000, .safept 7), (0xB0000001, .yield), (0xB0000002, .pchk 0),
     (0xC2CA0F00, .cpyIn ⟨true, false, true, true, 5, none, none⟩ 15),
     (0xC1101000, .cpyInT ⟨false, true, false, false, 8, none, none⟩ 0),
     (0xC2D621E0, .cpyGath ⟨true, false, true, true, 11, none, none⟩ 1 14),
     (0xC11C3200, .cpyPf ⟨false, true, false, false, 14, none, none⟩ 2),
     (0xC6E20300, .gpush ⟨true, false, true, true, 17, none, none⟩ 3 0),
     (0xC5281410, .ggath ⟨false, true, false, false, 20, none, none⟩ 4 1 0),
     (0xC6EE2500, .greset ⟨true, false, true, true, 23, none, none⟩ 5),
     (0xC9340600, .recv ⟨false, true, false, false, 26, none, none⟩ 6),
     (0xCAFA1700, .recvG ⟨true, false, true, true, 29, none, none⟩ 7),
     (0xC9002000, .recvM ⟨false, true, false, false, 0, none, none⟩ 0)] := by decide

/-- Words of the majors 0x33, 0x34, 0x35, 0x36. -/
theorem test_decode_table_10 : decodesTo
    [(0xCEC60245, .waitLd ⟨true, false, true, true, 3, none, none⟩ 581),
     (0xCD0C1024, .qfenceLd ⟨false, true, false, false, 6, none, none⟩ 36),
     (0xD2D22487, .mma ⟨true, false, true, true, 9, none, none⟩ 36 8 7),
     (0xD1192798, .mmaKb ⟨false, true, false, false, 12, none, none⟩ 39 9 8),
     (0xD6DE02A1, .mdrain ⟨true, false, true, true, 15, none, none⟩ 42 1),
     (0xD52412D0, .mzero ⟨false, true, false, false, 18, none, none⟩ 45),
     (0xD6EA2303, .mtpbLd ⟨true, false, true, true, 21, none, none⟩ 48 3),
     (0xD5303334, .mtpbSt ⟨false, true, false, false, 24, none, none⟩ 51 4),
     (0xD6F64367, .mlsfTest ⟨true, false, true, true, 27, none, none⟩ 54 7),
     (0xD53C5396, .mlsfRd ⟨false, true, false, false, 30, none, none⟩ 57 6),
     (0xD6C263C0, .mlsfClr ⟨true, false, true, true, 1, none, none⟩ 60),
     (0xD508700A, .maudit ⟨false, true, false, false, 4, none, none⟩ 10),
     (0xDACE0521, .vadd ⟨true, false, true, true, 7, none, none⟩ 5 2 1),
     (0xD9141632, .vsub ⟨false, true, false, false, 10, none, none⟩ 6 3 2),
     (0xDADA2743, .vmul ⟨true, false, true, true, 13, none, none⟩ 7 4 3),
     (0xD9203854, .vfma ⟨false, true, false, false, 16, none, none⟩ 8 5 4),
     (0xDAE64965, .vmin ⟨true, false, true, true, 19, none, none⟩ 9 6 5),
     (0xD92C5A76, .vmax ⟨false, true, false, false, 22, none, none⟩ 10 7 6)] := by decide

/-- Words of the majors 0x36, 0x37. -/
theorem test_decode_table_11 : decodesTo
    [(0xDAF26B80, .vabs ⟨true, false, true, true, 25, none, none⟩ 11 8),
     (0xD9387C90, .vneg ⟨false, true, false, false, 28, none, none⟩ 12 9),
     (0xDAFE8DA9, .vaddY ⟨true, false, true, true, 31, none, none⟩ 13 10 9),
     (0xD9049EBA, .vmulY ⟨false, true, false, false, 2, none, none⟩ 14 11 10),
     (0xDACAAFCB, .vfmaY ⟨true, false, true, true, 5, none, none⟩ 15 12 11),
     (0xD910B0D4, .vmulM ⟨false, true, false, false, 8, none, none⟩ 0 13 4),
     (0xDAD6C1ED, .vmaxY ⟨true, false, true, true, 11, none, none⟩ 1 14 13),
     (0xD91CD2FE, .vminY ⟨false, true, false, false, 14, none, none⟩ 2 15 14),
     (0xDEE2030F, .vceq ⟨true, false, true, true, 17, none, none⟩ 3 0 15),
     (0xDD281410, .vcne ⟨false, true, false, false, 20, none, none⟩ 4 1 0),
     (0xDEEE2521, .vclt ⟨true, false, true, true, 23, none, none⟩ 5 2 1),
     (0xDD343632, .vcle ⟨false, true, false, false, 26, none, none⟩ 6 3 2),
     (0xDEFA4743, .vsel ⟨true, false, true, true, 29, none, none⟩ 7 4 3),
     (0xDD005854, .vand ⟨false, true, false, false, 0, none, none⟩ 8 5 4),
     (0xDEC66965, .vor ⟨true, false, true, true, 3, none, none⟩ 9 6 5),
     (0xDD0C7A76, .vxor ⟨false, true, false, false, 6, none, none⟩ 10 7 6),
     (0xDED28B80, .vnot ⟨true, false, true, true, 9, none, none⟩ 11 8),
     (0xDD189C98, .vshl ⟨false, true, false, false, 12, none, none⟩ 12 9 8)] := by decide

/-- Words of the majors 0x37, 0x38, 0x39. -/
theorem test_decode_table_12 : decodesTo
    [(0xDEDEADA9, .vshr ⟨true, false, true, true, 15, none, none⟩ 13 10 9),
     (0xDD24BEBA, .vsra ⟨false, true, false, false, 18, none, none⟩ 14 11 10),
     (0xDEEACFCB, .vaddsat ⟨true, false, true, true, 21, none, none⟩ 15 12 11),
     (0xDD30D0DC, .vsubsat ⟨false, true, false, false, 24, none, none⟩ 0 13 12),
     (0xDEF6E1ED, .vmulhi ⟨true, false, true, true, 27, none, none⟩ 1 14 13),
     (0xDD3CF2F0, .vclass ⟨false, true, false, false, 30, none, none⟩ 2 15),
     (0xE2C20300, .vcvt ⟨true, false, true, true, 1, none, none⟩ 3 0),
     (0xE1081410, .vmov ⟨false, true, false, false, 4, none, none⟩ 4 1),
     (0xE2CE2501, .vfillY ⟨true, false, true, true, 7, none, none⟩ 5 1),
     (0xE1143632, .vgath ⟨false, true, false, false, 10, none, none⟩ 6 3 2),
     (0xE2DA4743, .vscat ⟨true, false, true, true, 13, none, none⟩ 7 4 3),
     (0xE1205800, .vrng ⟨false, true, false, false, 16, none, none⟩ 8),
     (0xE2E66965, .vdrop ⟨true, false, true, true, 19, none, none⟩ 9 6 5),
     (0xE12C7A70, .vsplit3 ⟨false, true, false, false, 22, none, none⟩ 10 7),
     (0xE2F28B00, .viota ⟨true, false, true, true, 25, none, none⟩ 11),
     (0xE5380C90, .sfExp2 ⟨false, true, false, false, 28, none, none⟩ 12 9),
     (0xE6FE1DA0, .sfLog2 ⟨true, false, true, true, 31, none, none⟩ 13 10),
     (0xE5042EB0, .sfRcp ⟨false, true, false, false, 2, none, none⟩ 14 11)] := by decide

/-- Words of the majors 0x39, 0x3A. -/
theorem test_decode_table_13 : decodesTo
    [(0xE6CA3FC0, .sfRsqrt ⟨true, false, true, true, 5, none, none⟩ 15 12),
     (0xE51040D0, .sfSqrt ⟨false, true, false, false, 8, none, none⟩ 0 13),
     (0xE6D651E0, .sfSinpi ⟨true, false, true, true, 11, none, none⟩ 1 14),
     (0xE51C62F0, .sfCospi ⟨false, true, false, false, 14, none, none⟩ 2 15),
     (0xE6E27300, .sfTanh ⟨true, false, true, true, 17, none, none⟩ 3 0),
     (0xE5288410, .sfLogistic ⟨false, true, false, false, 20, none, none⟩ 4 1),
     (0xE6EF0520, .efExp2 ⟨true, false, true, true, 23, none, none⟩ 5 2),
     (0xE5351630, .efLog2 ⟨false, true, false, false, 26, none, none⟩ 6 3),
     (0xE6FB2740, .efRcp ⟨true, false, true, true, 29, none, none⟩ 7 4),
     (0xE5013850, .efRsqrt ⟨false, true, false, false, 0, none, none⟩ 8 5),
     (0xE6C74960, .efSqrt ⟨true, false, true, true, 3, none, none⟩ 9 6),
     (0xE50D5A70, .efSinpi ⟨false, true, false, false, 6, none, none⟩ 10 7),
     (0xE6D36B80, .efCospi ⟨true, false, true, true, 9, none, none⟩ 11 8),
     (0xE5197C90, .efTanh ⟨false, true, false, false, 12, none, none⟩ 12 9),
     (0xE6DF8DA0, .efLogistic ⟨true, false, true, true, 15, none, none⟩ 13 10),
     (0xE9240EB0, .rsum ⟨false, true, false, false, 18, none, none⟩ 14 11),
     (0xEAEA1FC0, .rmax ⟨true, false, true, true, 21, none, none⟩ 15 12),
     (0xE93020D0, .rmin ⟨false, true, false, false, 24, none, none⟩ 0 13)] := by decide

/-- Words of the majors 0x3A, 0x3B, 0x3C, 0x3D. -/
theorem test_decode_table_14 : decodesTo
    [(0xEAF631E0, .rsumsq ⟨true, false, true, true, 27, none, none⟩ 1 14),
     (0xE93C42F0, .scanSum ⟨false, true, false, false, 30, none, none⟩ 2 15),
     (0xEAC25300, .scanMax ⟨true, false, true, true, 1, none, none⟩ 3 0),
     (0xE9086410, .rdot ⟨false, true, false, false, 4, none, none⟩ 4 1 0),
     (0xEACE7520, .rargmax ⟨true, false, true, true, 7, none, none⟩ 5 2),
     (0xE9148630, .rcnt ⟨false, true, false, false, 10, none, none⟩ 6 3),
     (0xEEDA032F, .waitCmp ⟨true, false, true, true, 13, none, none⟩ 815),
     (0xED20100E, .qfenceCmp ⟨false, true, false, false, 16, none, none⟩ 14),
     (0xF2E60900, .cpyOut ⟨true, false, true, true, 19, none, none⟩ 9),
     (0xF12C1A70, .cpyScat ⟨false, true, false, false, 22, none, none⟩ 10 7),
     (0xF2F22B00, .stash ⟨true, false, true, true, 25, none, none⟩ 11),
     (0xF1383C00, .cpyXc ⟨false, true, false, false, 28, none, none⟩ 12),
     (0xF6FE00A0, .send ⟨true, false, true, true, 31, none, none⟩ 10),
     (0xF50410B0, .sendG ⟨false, true, false, false, 2, none, none⟩ 11),
     (0xF6CA2000, .evpost ⟨true, false, true, true, 5, none, none⟩),
     (0xF510834A, .waitSt ⟨false, true, false, false, 8, none, none⟩ 842),
     (0xF6D69029, .qfenceSt ⟨true, false, true, true, 11, none, none⟩ 41)] := by decide

/-- The words of the spec's printed examples. -/
theorem test_decode_examples : decodesTo
    [(0x0A00C000, .addi 32 3 0 none), (0x08300000, .addi 3 0 0 none), (0x60400006, .beq 4 0 6 none),
     (0x46180000, .ldN32 33 32 0 none), (0x2C30E100, .fadd 3 3 33 false), (0x7BFFFFFB, .j 0x3FFFFFB none),
     (0x80004000, .jalr 0 1 0 none), (0xA8710001, .yrd 7 4), (0xA870C002, .mbrd 7 3), (0x98314003, .zsetFmt 3 5),
     (0x8C51C645, .amax 5 7 6 .f32), (0x8CA20032, .aor 10 8 0 .n64), (0x8C0209B0, .aredAdd 8 9 .n64),
     (0xD8003312, .vfma plainBits 3 1 2), (0xDC004987, .vsel plainBits 9 8 7), (0xE8006123, .rdot plainBits 1 2 3),
     (0xD0000401, .mma plainBits 4 0 1), (0xD0010401, .mmaKb plainBits 4 0 1), (0xD4000036, .mdrain plainBits 3 6),
     (0xF4809040, .qfenceSt { plainBits with pushP := true } 0x40)] := by decide

/-- R29, R35 to R39, with the spec's printed words: a prefix widens, stamps or attaches; one before a word that takes none,
two of a kind and IMM with a second are no instruction. -/
theorem test_decode_prefixes :
    decodeWords [0xF8000006, 0x087006A0] = .ok (.addi 7 0 0x6A0 (some 6), 2) ∧
    decodeWords [0xF90004B0, 0xD2011101] = .ok (.mmaKb { plainBits with popP := true, stamp := some 1200 } 17 0 1, 2) ∧
    decodeWords [0xFB000030, 0xD0000401] = .ok (.mma { plainBits with metaP := some 0x30 } 4 0 1, 2) ∧
    ([[0xF8000006, 0x0454A100], [0xF9000001, 0x087006A0], [0xF8000006, 0xF8000006, 0x087006A0],
      [0xF8000006, 0xF90004B0, 0xD2011101], [0xFB400000, 0xD0000401]] : List (List Word32)).all
        (fun ws => match decodeWords ws with
          | .ok _ => false
          | .error _ => true) = true := by decide

/-- R27, R28, R30, R44 to R46, R106: reserved majors and minors, unused fields that are not zero, and fields outside their range
are no instruction. -/
theorem test_decode_refused :
    ([0x00000000, 0x4C000000, 0xB4000000, 0xB8000000, 0xBC000000, 0xFC000000, 0x0454A118, 0x07E2C113, 0x84000002,
      0x84001008, 0x84004000, 0x8C51C641, 0x9890C708, 0xA0300008, 0xA401C0F0,
      0xD0000411, 0xD8008000 + 0x3328] : List Nat).all (fun w => decodeTableWord 32 w == none) = true := by decide

/-- R29 to R46, R106, R131, R200: an ill-formed term for each check of WellFormed, which the check refuses. -/
theorem test_wf_refuses :
    ([.csrRd 1 0x002, .csrRd 1 0x020, .csrWr 1 2 0x008, .csrOr 0 0 0x032, .csrAndn 0 0 0x060, .qfence 0,
      .aand 1 2 3 .f32, .aor 1 2 3 .f64, .axor 1 2 3 .f32, .acas 1 2 3 .f64, .aredAnd 1 2 .f32, .aredOr 1 2 .f64,
      .aredXor 1 2 .f32, .zget 1 2 7, .evPop 3, .txrd 1 14, .recvM plainBits 8, .vmulM plainBits 1 2 8,
      .mma plainBits 4 1 1, .mmaKb plainBits 4 2 2, .qfenceLd plainBits 0, .qfenceCmp plainBits 0, .qfenceSt plainBits 0,
      .vadd { plainBits with delay := 1, stamp := some 5 } 1 2 3, .vadd { plainBits with metaP := some 0 } 1 2 3,
      .mma { plainBits with metaP := some 0x400000 } 4 0 1, .cpyIn { plainBits with metaP := some 0 } 0,
      .cpyIn { plainBits with metaP := some 0x400001 } 1, .cpyOut { plainBits with metaP := some 0x800001 } 0,
      .send { plainBits with delay := 31, stamp := some 0 } 2] : List Instr).all (fun i => !i.wf) = true := by decide

/-- The same terms with their fields in range. -/
theorem test_wf_takes :
    ([.csrRd 1 0x060, .csrWr 1 2 0x050, .csrOr 0 0 0x000, .csrAndn 0 0 0x040, .qfence 1, .aand 1 2 3 .n64, .acas 1 2 3 .i32,
      .aredXor 1 2 .n32, .zget 1 2 6, .evPop 62, .txrd 1 13, .recvM plainBits 7, .vmulM plainBits 1 2 7, .mma plainBits 4 1 0,
      .qfenceLd plainBits 0x7F, .vadd { plainBits with delay := 0, stamp := some 5 } 1 2 3,
      .mma { plainBits with metaP := some 0x3FFFFF } 4 0 1, .cpyIn { plainBits with metaP := some 0x400001 } 0]
      : List Instr).all (fun i => i.wf) = true := by decide

/-! ### Small states -/

/-- What an instruction answers goes on, and the state it leaves has property p. -/
def goesTo (o : Out) (p : State → Bool) : Bool :=
  match o with
  | .next t => p t
  | _ => false

/-- An access goes through with value v. -/
def givesOk {α : Type} [DecidableEq α] (r : MemR α) (v : α) : Bool :=
  match r with
  | .ok _ w => decide (w = v)
  | _ => false

/-- An access meets this fault. -/
def givesFault {α : Type} (r : MemR α) (c d : Nat) : Bool :=
  match r with
  | .fault _ a b => a == c && b == d
  | _ => false

/-- A core that runs at beat 100 with pages 0 and 1 of 64 KiB in its lookaside buffer: page 0 grants everything, page 1 is
versioned. -/
def core : VC :=
  { VC.init 0 with run := .running, now := 100, tlb := [⟨0, 16, 0, false, true, true, true⟩, ⟨1, 16, 131072, true, false, true, true⟩] }

/-- A launch on one core. -/
def lone (m : Mode) (v : VC) : State :=
  { vc := v, peers := [], launch := { Launch.init with live := true, mode := m }, part := { Part.init with bound := true },
    others := [], dev := Dev.init, inbox := [], upsets := [], mover := .ctl, fresh := 0 }

/-- An Elastic launch whose x registers hold l. -/
def withX (l : SMap Word64) : State := lone .elastic { core with ctl := { Ctl.init with x := l, pc := 0x1000 } }

/-- A Lockstep launch whose x registers hold l. -/
def withXL (l : SMap Word64) : State := lone .lockstep { core with ctl := { Ctl.init with x := l, pc := 0x1000 } }

/-- The Collie has matched the instruction at pc (R390). -/
def seen (s : State) : State := { s with vc.ctl.matched := some 0 }

/-- CTL has executed an instruction at this beat, which the Collie has still to match (R390). -/
def unsettled (s : State) : State := { s with vc.past := [{ (default : Past) with beat := s.vc.pulse }] }

/-- State s with these bytes in memory. -/
def withMem (s : State) (m : List Host.Cell) : State := { s with part.mem := m }

/-- Page tables of the printed walk of 0x4000601234, the tables at 0x10000 to 0x14000, with `leaf` at level 1. -/
def walkTables (leaf : List Host.Cell) : State :=
  { withMem (withX []) ([(0x10000, 1), (0x10001, 0x10), (0x10002, 1), (0x11000, 1), (0x11001, 0x20), (0x11002, 1), (0x12800, 1), (0x12801, 0x30), (0x12802, 1)] ++ leaf ++
      [(0x14000, 0x0F), (0x14002, 3)]) with vc.tlb := [], part.ptroot := 0x10000, dev.lq := 3 }

/-! ### Single steps of CTL: values by hand from the rules cited, or printed in the spec -/

/-- R117: a sum wraps, and x0 stays zero. -/
theorem test_add_wraps : goesTo (exec (.add 3 1 2) (withX [(1, 0xFFFFFFFFFFFFFFFF), (2, 2)])) (fun t => xr t 3 == 1) = true ∧
    goesTo (exec (.add 0 1 2) (withX [(1, 5), (2, 2)])) (fun t => xr t 0 == 0 && t.vc.ctl.pc == 0x1004) = true := by
  decide +kernel

/-- R117: an arithmetic shift by xb mod 64 keeps the sign; a destination may be a source. -/
theorem test_sra_sign : goesTo (exec (.sra 1 1 2) (withX [(1, 0x8000000000000000), (2, 68)]))
    (fun t => xr t 1 == 0xF800000000000000) = true := by decide +kernel

/-- R117: clz of zero is 64, bswap turns the bytes round, addw sign-extends its 32-bit sum. -/
theorem test_bits : goesTo (exec (.clz 3 0) (withX [])) (fun t => xr t 3 == 64) = true ∧
    goesTo (exec (.bswap 3 1) (withX [(1, 0x0102030405060708)])) (fun t => xr t 3 == 0x0807060504030201) = true ∧
    goesTo (exec (.addw 3 1 2) (withX [(1, 0x7FFFFFFF), (2, 1)])) (fun t => xr t 3 == 0xFFFFFFFF80000000) = true := by
  decide +kernel

/-- R118, and the printed `addi x7, x0, 100000` with its IMM payload 6. -/
theorem test_addi_imm : goesTo (exec (.addi 7 0 0x6A0 (some 6)) (withX [])) (fun t => xr t 7 == 100000 && t.vc.ctl.pc == 0x1008)
    = true ∧ goesTo (exec (.addi 4 4 0x3FFF none) (withX [(4, 3)])) (fun t => xr t 4 == 2) = true := by decide +kernel

/-- R119: the quotient of the most negative number by −1 is itself and sets iz; a remainder by zero is the dividend. -/
theorem test_div_corner : goesTo (exec (.div 3 1 2) (withX [(1, 0x8000000000000000), (2, 0xFFFFFFFFFFFFFFFF)]))
      (fun t => xr t 3 == 0x8000000000000000 && t.vc.ctl.flags == 256) = true ∧
    goesTo (exec (.rem 3 1 0) (withX [(1, 7)])) (fun t => xr t 3 == 7 && t.vc.ctl.flags == 256) = true := by decide +kernel

/-- R119: −7 / 2 is −3 with remainder −1. -/
theorem test_div_truncates : goesTo (exec (.div 3 1 2) (withX [(1, -7), (2, 2)])) (fun t => xr t 3 == -3) = true ∧
    goesTo (exec (.rem 3 1 2) (withX [(1, -7), (2, 2)])) (fun t => xr t 3 == -1) = true ∧
    goesTo (exec (.mulh 3 1 2) (withX [(1, -7), (2, 2)])) (fun t => xr t 3 == -1) = true := by decide +kernel

/-- R123: a taken branch goes to its word plus 4·off14; jalr reads xa before it writes xd, and faults on a misaligned target. -/
theorem test_jumps : goesTo (exec (.beq 1 2 0x3FFB none) (withX [(1, 5), (2, 5)])) (fun t => t.vc.ctl.pc == 0x0FEC) = true ∧
    goesTo (exec (.jalr 1 1 8 none) (withX [(1, 0x2000)])) (fun t => t.vc.ctl.pc == 0x2008 && xr t 1 == 0x1004) = true ∧
    goesTo (exec (.jalr 1 1 2 none) { withX [(1, 0x2000), (2, 0x8000)] with vc.ctl.tvec := 0x4000 })
      (fun t => t.vc.ctl.pc == 0x4000 && t.vc.ctl.tcause == 0x02 && t.vc.ctl.tval == 0x2002 && t.vc.ctl.tepc == 0x1000) = true := by
  decide +kernel

/-- R125: 1 + 2 = 3; 1/0 is an infinity with dz; the square root of 4 is 2. -/
theorem test_float : goesTo (exec (.fadd 3 1 2 false) (withX [(1, 0x3F800000), (2, 0x40000000)])) (fun t => xr t 3 == 0x40400000)
      = true ∧
    goesTo (exec (.fdiv 3 1 2 false) (withX [(1, 0x3F800000)])) (fun t => xr t 3 == 0x7F800000 && t.vc.ctl.flags == 8) = true ∧
    goesTo (exec (.fsqrt 3 1 true) (withX [(1, 0x4010000000000000)])) (fun t => xr t 3 == 0x4000000000000000) = true := by
  decide +kernel

/-- R128, the printed classes. -/
theorem test_fclass : ([(0x80000000, 1), (0xC0B00000, 5), (0x7F800001, 0xA)] : List (Word64 × Word64)).all (fun p =>
    goesTo (exec (.fclass 3 1 false) (withX [(1, p.1)])) (fun t => xr t 3 == p.2)) = true := by decide +kernel

/-- R129, the printed conversions under RTZ: −5.5 to −5 with nx; −1.5 to 0 with ns alone. -/
theorem test_fcvt : goesTo (exec (.fcvtI64T 3 1 false) { withX [(1, 0xC0B00000)] with vc.ctl.frm := 3 })
      (fun t => xr t 3 == -5 && t.vc.ctl.flags == 32) = true ∧
    goesTo (exec (.fcvtN64T 3 1 true) { withX [(1, 0xBFF8000000000000)] with vc.ctl.frm := 3 })
      (fun t => xr t 3 == 0 && t.vc.ctl.flags == 4) = true := by decide +kernel

/-- R120: a byte is sign-extended, or not; bytes lie lowest first. -/
theorem test_loads : goesTo (exec (.ldI8 3 1 1 none) (withMem (withX [(1, 0x2000)]) [(0x2001, 0x80)]))
      (fun t => xr t 3 == 0xFFFFFFFFFFFFFF80) = true ∧
    goesTo (exec (.ldN32 3 1 0 none) (withMem (withX [(1, 0x2000)]) [(0x2001, 0x80), (0x2003, 0xFF)]))
      (fun t => xr t 3 == 0xFF008000) = true := by decide +kernel

/-- R120, R254: a store stands in the data cache, and memory is as it was. -/
theorem test_store : goesTo (exec (.st16 2 1 0 none) (withX [(1, 0x2000), (2, 0x123456)]))
    (fun t => cachedByte t 0x2000 == 0x56 && cachedByte t 0x2001 == 0x34 && cachedByte t 0x2002 == 0 && t.part.mem.isEmpty)
    = true := by decide +kernel

/-- R121: an address from 2^56 on faults before its alignment is looked at. -/
theorem test_address_range : goesTo (exec (.ld64 3 1 0 none) { withX [(1, 0x0100000000000001), (2, 0x8000)] with vc.ctl.tvec := 0x4000 })
    (fun t => t.vc.ctl.tcause == 0x04 && t.vc.ctl.tval == 0x0100000000000001) = true := by decide +kernel

/-- R130: csr.or takes the old value and sets bits. -/
theorem test_csr_or : goesTo (exec (.csrOr 3 1 0x035) { withX [(1, 0xF0)] with vc.ctl.tscratch := 0x3C })
    (fun t => xr t 3 == 0x3C && t.vc.ctl.tscratch == 0xFC) = true := by decide +kernel

/-- R94: a token pushed is visible from the next beat. -/
theorem test_token_push : goesTo (exec (.tokPush 2) (withX []))
    (fun t => t.vc.eng.pushIn == [(101, 2)] && t.vc.eng.tokens.isEmpty) = true := by decide +kernel

/-- R106: ev.pop takes the oldest record into a pair of registers. -/
theorem test_ev_pop : goesTo (exec (.evPop 4) { withX [] with vc.eng.events := [(0xA, 0xB), (0xC, 0xD)] })
    (fun t => xr t 4 == 0xA && xr t 5 == 0xB && t.vc.eng.events == [(0xC, 0xD)]) = true := by decide +kernel

/-- R64, the printed example: `zset.fmt z3, x5` with x5 = 0x0282 makes z3 a scaled bf16 stream in blocks of 32. -/
theorem test_zset_fmt : goesTo (exec (.zsetFmt 3 5) (withX [(5, 0x0282)]))
    (fun t => mget 0 t.vc.z 27 == 0x0282 && (strOf t.vc.z 3).fmt == .bf16 && (strOf t.vc.z 3).sen && (strOf t.vc.z 3).block == 32)
    = true := by decide +kernel

/-- R223: one word of a copy block is written and read. -/
theorem test_ccb : goesTo (exec (.ccbWr 3 5 2) (withX [(5, 0x1122334455667788)])) (fun t => mget 0 t.vc.b 50 == 0x55667788) = true := by
  decide +kernel

/-- R137: y and x registers exchange whole words. -/
theorem test_ywr : goesTo (exec (.ywr 2 5) (withX [(5, 0x8000000000000001)])) (fun t => yr t 2 == 0x8000000000000001) = true := by
  decide +kernel

/-- R272 to R275: a 32-bit sum wraps in its granule, and the old value returns sign-extended. -/
theorem test_aadd : goesTo (exec (.aadd 3 1 2 .i32) (seen (withMem (withX [(1, 0x2000), (2, 1)]) [(0x2000, 0xFF), (0x2001, 0xFF), (0x2002, 0xFF), (0x2003, 0xFF), (0x2004, 7)])))
    (fun t => xr t 3 == 0xFFFFFFFFFFFFFFFF && t.part.mem == [(0x2004, 7)]) = true := by decide +kernel

/-- R291, R375: a step in an Elastic launch faults; without a handler the launch ends and its completion record says why. -/
theorem test_launch_ends : goesTo (exec (.txopen 1) (withX [(1, 0x2000)]))
    (fun t => !t.launch.live && t.part.mem == [(2, 0x20), (3, 3)] && qprogress t 0 == 1) = true := by decide +kernel

/-- R374, R376: a software trap goes to the handler with its frame below x2, whose third word names the entry. -/
theorem test_trap : goesTo (exec (.trap 5) { withX [(2, 0x8010)] with vc.ctl.tvec := 0x4000 })
    (fun t => t.vc.ctl.pc == 0x4000 && t.vc.ctl.h && t.vc.ctl.tcause == 0x530 && t.vc.ctl.tepc == 0x1004 &&
      cachedByte t 0x7D80 == 0x30 && cachedByte t 0x7D81 == 0x05 && cachedByte t 0x7D91 == 0x04) = true := by decide +kernel

/-- R381: tret goes on at TEPC outside the handler. -/
theorem test_tret : goesTo (exec .tret { withX [] with vc.ctl.h := true, vc.ctl.tepc := 0x1234 })
    (fun t => t.vc.ctl.pc == 0x1234 && !t.vc.ctl.h) = true := by decide +kernel

/-! ### Operations: the spec's printed examples -/

/-- R90, the printed example: L = 16,777,300. -/
theorem test_stamp : sched 16777301 0 (some 90) = (16777306, false) ∧ sched 16777301 0 (some 16777200) = (33554416, true) := by
  decide +kernel

/-- R248, R240, R242: the printed walk gives 0x31234 on channel 60 of 64; the leaf at level 1 gives 0x201234, which no store may
write. -/
theorem test_walk :
    (match translate (walkTables [(0x13018, 1), (0x13019, 0x40), (0x1301A, 1)]) 0x4000601234 .write with
     | .ok t (pa, _) => pa == 0x31234 && pcOf t pa == 60
     | _ => false) = true ∧
    (match translate (walkTables [(0x13018, 7), (0x1301A, 0x20)]) 0x4000601234 .read with
     | .ok _ (pa, _) => pa == 0x201234
     | _ => false) = true ∧
    givesFault (translate (walkTables [(0x13018, 7), (0x1301A, 0x20)]) 0x4000601234 .write) 5 4 = true := by decide +kernel

/-- R79, R83, the printed codes: 2.4 and −0.2 in L6, −5 in m31. -/
theorem test_codes : (toLog .l6 false (.fin false 10066330 (-22))).1 = 0x15 ∧ (toLog .l6 false (.fin true 13421773 (-26))).1 = 0x27 ∧
    Fmt.m31.ofResidue (-5) = 0x7FFFFFFA ∧ Fmt.m31.ofResidue 0x7FFFFFFF = 0 := by decide +kernel

/-- R184, the printed split of 0x3EAAAAAB. -/
theorem test_split : (splitTerms (fpF32.decode 0x3EAAAAAB) { (default : Str) with fmt := .bf16 } { (default : Str) with fmt := .bf16 }
    { (default : Str) with fmt := .bf16 }) = [(0x3EAB, 0), (0xBA2B, 0), (0x35AC, 0)] := by decide +kernel

/-- R190: a sum of integers of an n8 stream, and the lowest index of its greatest. -/
theorem test_reduce : let a : Str := { (default : Str) with fmt := .n8, stride := 1, count := 3 }
    let rd (_ a : Nat) : Byte := if a = 1 then 255 else 2
    (redResult .sum a a rd 3).1 = 259 ∧ (redResult .argmax a a rd 3).1 = 1 ∧ (redResult .sumsq a a rd 3).1 = 65033 := by decide +kernel


/-- R210, R392: a vector word that differs from its audit lane completes; AUDIT counts it and VX stops. -/
theorem test_audit : goesTo (exec (.engineWordCompletion 4) { withX [] with
      upsets := [⟨0, 0, 100, .audit true⟩],
      vc.eng.flights := [{ (default : Flight) with seq := 4, q := .vx, done := some 100, work := .vec .add 0 0 0, audit := 5 }] })
    (fun t => t.vc.audit == 0x1FF500000 && queueHeld t .vx && !queueHeld t .mx && t.vc.faults.map (fun f => (f.cause, f.detail)) == [(0x29, 0x45)])
    = true := by decide +kernel

/-- R394, R397: an error in a clean line of the data cache is corrected; in a dirty line it is a fault against CTL. -/
theorem test_errors :
    (let s (d : BitVec 128) : State := { withX [(2, 0x8000)] with vc.dcache := [⟨64, [], d, 0⟩], vc.ctl.tvec := 0x4000 }
     goesTo (storageError (s 0) 2 0 64) (fun t => t.vc.dcache.isEmpty && mget 0 t.part.counts 0x102 == 1) = true ∧
     goesTo (storageError (s 1) 2 0 64) (fun t => t.vc.ctl.tcause == 0x228 && mget 0 t.part.counts 0x202 == 1) = true) := by
  decide +kernel

/-- R395: the fourth corrected error of a way within a window disables it. -/
theorem test_way_disabled :
    (let s := { withX [] with dev.corrected := [(l2SetNo (withX []) 3 * 16 + 5, 3)] }
     l2Ways s 3 = 16 ∧ l2Ways (correctedError s 7 53) 3 = 15 ∧ l2Ways (correctedError (withX []) 7 53) 3 = 16) := by decide +kernel

/-- R76, the printed product of two L6 elements, 0x15 by 0x15 = 5.65625; zero by a negative is +0. -/
theorem test_log_product : fpF32.ofVal .rne false (logProduct .l6 .l6 0x15 0x15) = (0x40B50000, 0) ∧
    fpF32.ofVal .rne false (logProduct .l6 .l6 0 0x35) = (0, 0) := by decide +kernel
/-! ### Witnesses: for each statement with hypotheses, states and operands that meet them, one for each clause -/

/-- An access goes through, and the state and the value it gives pass a test. -/
def okTest {α : Type} (r : MemR α) (P : State → α → Bool) : Bool :=
  match r with
  | .ok u v => P u v
  | _ => false

theorem ok_of {α : Type} {r : MemR α} {P : State → α → Bool} (h : okTest r P = true) :
    ∃ u v, r = .ok u v ∧ P u v = true := by
  cases r with
  | ok u v => exact ⟨u, v, rfl, h⟩
  | fault u c d => cases h
  | wait u => cases h

/-- A place that a test finds. -/
theorem places_of {s : State} {va : Nat} {k : AccKind} {pa : Nat} {vb : Bool}
    (h : okTest (translate s va k) (fun _ v => v.1 == pa && v.2.vb == vb) = true) : placesAt s va k pa vb := by
  obtain ⟨u, v, hr, hv⟩ := ok_of h
  obtain ⟨p, e⟩ := v
  simp only [Bool.and_eq_true, beq_iff_eq] at hv
  obtain ⟨rfl, hvb⟩ := hv
  exact ⟨u, e, hr, hvb⟩

/-- A span that a test places. -/
theorem span_of {s : State} {va n : Nat} {k : AccKind} {pa : Nat} (h : s.dev.lq ≤ 4 ∧ va % 65536 + n ≤ 65536)
    (ht : okTest (translate s va k) (fun _ v => v.1 == pa && !v.2.vb && decide (16 ≤ v.2.size)) = true)
    (hp : s.part.poison = []) : spanPlaces s va n k pa := by
  obtain ⟨u, v, hr, hv⟩ := ok_of ht
  obtain ⟨p, e⟩ := v
  simp only [Bool.and_eq_true, beq_iff_eq, Bool.not_eq_true', decide_eq_true_eq] at hv
  obtain ⟨⟨rfl, hvb⟩, hsz⟩ := hv
  exact ⟨h.1, h.2, ⟨u, e, hr, hvb, hsz⟩, fun i _ => by simp [hp]⟩

theorem loadable_of {s : State} {va : Word64} {n pa : Nat} (h : va.toNat + n ≤ 2 ^ 56 ∧ inMap va.toNat = false)
    (hs : spanPlaces s va.toNat n .read pa) (ha : s.vc.atomics = []) : loadable s va n :=
  ⟨h.1, h.2, pa, hs, fun i _ => by simp [granuleBusy, ha]⟩

theorem storable_of {s : State} {va : Word64} {n pa : Nat}
    (h : va.toNat + n ≤ 2 ^ 56 ∧ inMap va.toNat = false ∧ memHazard s va.toNat n = false)
    (hs : spanPlaces s va.toNat n .write pa) : storable s va n := ⟨h.1, h.2.1, h.2.2, pa, hs⟩

/-- A record that a test finds at an address of page 0. -/
theorem record_of {s : State} {va : Word64} {d : List Word64} {pa : Nat}
    (h : va.toNat + 8 * d.length ≤ 2 ^ 56 ∧ inMap va.toNat = false ∧ 8 * d.length ≤ 64 ∧ pa % 64 = 0)
    (hs : spanPlaces s va.toNat (8 * d.length) .read pa) (ha : s.vc.atomics = [])
    (hd : ∀ k, k < d.length → listAt 0 d k = w64 (leNat ((List.range 8).map (fun i => cachedByte s (pa + 8 * k + i))))) :
    recordAt s va d :=
  ⟨h.1, h.2.1, h.2.2.1, pa, hs, h.2.2.2, fun i _ => by simp [granuleBusy, ha], hd⟩

/-- An entry that stands at the head of a queue with L = 99 (R90). -/
def entry (n : Nat) (w : Word32) (zs : SMap Word64) : QEntry :=
  { seq := n, word := w, stamp := none, metaP := none, name := 2 ^ 54 + 0x400, zs := zs, zv := [], placed := 97, ready := 100,
    bad := false, shared := false, run := none, retry := false, counted := false, stood := none, reached := false, follow := none }

/-- A launch with one entry alone in queue q. -/
def queued (m : Mode) (q : Queue) (e : QEntry) : State :=
  lone m { core with eng := Eng.init.setQ q ⟨[e], 100⟩ }

/-- A flight of word n. -/
def flying (n : Nat) (q : Queue) : Flight := { (default : Flight) with seq := n, q := q, issued := 98, done := some 100 }

/-- A launch with one word in flight. -/
def withFlight (m : Mode) (f : Flight) : State := lone m { core with eng := { Eng.init with flights := [f] } }

/-- A copy in flight whose source span is [lo, hi). -/
def spanJob (mem : Bool) (lo hi : Nat) : CopyJob :=
  { op := 0, ccb := [], base := 0, idx := [], lines := [], epoch := none, posted := false, srcMem := mem, srcLo := lo, srcHi := hi }

theorem witness_MultiplyDivideWords : let s := withX [(1, BitVec.intMin 64), (2, BitVec.allOnes 64), (3, 0), (4, 7)]
    xr s 1 = BitVec.intMin 64 ∧ xr s 2 = BitVec.allOnes 64 ∧ xr s 3 = 0 ∧ xr s 4 ≠ 0 := by decide

theorem witness_ControlFlow : let s := withX [(1, 0x2000)]
    (BitVec.ofInt 64 ((xr s 1).toInt + immValue 0 none)).toNat % 4 = 0 ∧
    (BitVec.ofInt 64 ((xr s 1).toInt + immValue 2 none)).toNat % 4 ≠ 0 := by decide

/-- The least subnormal and the greatest finite number. -/
theorem witness_FloatNearest : let s := withX [(1, 1), (2, 0x7F7FFFFF), (3, 0x80000001), (4, 0x7FEFFFFFFFFFFFFF)]
    let v (r : BitVec 6) := fpF32.decode ((xr s r).toNat % 2 ^ 32)
    (3 : BitVec 6) ≠ 0 ∧ (v 1).isFin = true ∧ (v 2).isFin = true ∧ (v 3).isFin = true ∧ (v 2).toRat ≠ 0 ∧ 0 ≤ (v 1).toRat ∧
    (fpF64.decode (xr s 4).toNat).isFin = true := by decide +kernel

/-- NaNs of both kinds, infinities of both signs, zeros, a finite number below zero, and values beyond the integers. -/
theorem witness_FloatCompares :
    let v (a : Nat) := fpF32.decode a
    let zero (a : Nat) : Prop := (v a).isFin = true ∧ (v a).toRat = 0
    (3 : BitVec 6) ≠ 0 ∧ v 0x7F800001 = .nan true ∧ v 0x7FC00000 = .nan false ∧ v 0x7F800000 = .inf false ∧ v 0xFF800000 = .inf true ∧
    zero 0 ∧ zero 0x80000000 ∧ ((v 0xBF800000).isFin = true ∧ (v 0xBF800000).toRat < 0) ∧ ((v 1).isFin = true ∧ ¬zero 1) ∧
    ((v 0x7F7FFFFF).isFin = true ∧ 2 ^ 64 - 1 < (v 0x7F7FFFFF).toRat) ∧ ((v 0xFF7FFFFF).isFin = true ∧ (v 0xFF7FFFFF).toRat < -(2 ^ 63)) ∧
    (v 0x7F800000).isNan = false ∧ (v 0x3F800000).isFin = true := by decide +kernel

/-- The last word of a page, and a byte in it. -/
theorem witness_LoadsFromPages : let s := withX [(1, 0xFFF8)]
    let va := BitVec.ofInt 64 ((xr s 1).toInt + immValue 0 none)
    va.toNat < 2 ^ 56 ∧ va.toNat % 8 = 0 ∧ inMap va.toNat = false ∧ placesAt s va.toNat .read 0xFFF8 false ∧ 0xFFF8 % 8 = 0 ∧
    granuleBusy s va.toNat = false ∧ s.part.poison.contains (0xFFF8 / 128) = false :=
  ⟨by decide, by decide, by decide, places_of (by decide +kernel), by decide, by decide, by decide⟩

/-- x register 1 of the core, and the last byte of its share, read, its bank free and taken; the last word of the share written. -/
theorem witness_MapAccesses : let s := withX [(1, 0xF00000C00008), (2, 0xF000003FFFFF), (3, 0xF000003FFFF8)]
    let va (r : BitVec 6) := BitVec.ofInt 64 ((xr s r).toInt + immValue 0 none)
    (va 1).toNat < 2 ^ 56 ∧ (va 1).toNat % 8 = 0 ∧ inMap (va 1).toNat = true ∧
    mapCheck s (va 1).toNat 8 none = .ok (0, 0xC00008, .x 1) ∧ mapBusy s (va 1).toNat = false ∧ getVC s 0 = some s.vc ∧
    mapCheck s (va 2).toNat 1 none = .ok (0, 0x3FFFFF, .bytes) ∧ 0x3FFFFF < tileOff ∧
    claim s.vc.claims 0x3FFFFF true (ctlOwner + s.vc.id) = some [⟨bankOf 0x3FFFFF, rowOf 0x3FFFFF, true, ctlOwner⟩] ∧
    claim [⟨bankOf 0x3FFFFF, rowOf 0x3FFFFF, false, 4⟩] 0x3FFFFF true (ctlOwner + s.vc.id) = none ∧
    (va 3).toNat % 8 = 0 ∧ mapCheck s (va 3).toNat 8 (some (leBytes (xr s 4).toNat 8)) = .ok (0, 0x3FFFF8, .bytes) ∧
    ¬(0 = s.vc.id ∧ MapWhat.bytes = .bytes ∧ 0x3FFFF8 < s.share ∧ spHazard s.vc 0x3FFFF8 (0x3FFFF8 + 8) = true) := by
  decide +kernel

theorem witness_StoresToPages : let s := withX [(1, 0xFFF8)]
    let va := BitVec.ofInt 64 ((xr s 1).toInt + immValue 0 none)
    va.toNat < 2 ^ 56 ∧ va.toNat % 8 = 0 ∧ inMap va.toNat = false ∧ placesAt s va.toNat .write 0xFFF8 false ∧ 0xFFF8 % 8 = 0 ∧
    memHazard s va.toNat 8 = false ∧ s.part.poison.contains (0xFFF8 / 128) = false ∧ dcBypass s (0xFFF8 / 128) = false :=
  ⟨by decide, by decide, by decide, places_of (by decide +kernel), by decide, by decide, by decide, by decide +kernel⟩

/-- Both ways of every set of the data cache are disabled: the store leaves CTL at once. -/
theorem witness_StoresToPages_bypass : let s := { withX [(1, 0xFFF8)] with dev.ways := (countUp 0 1024).map (fun i => 2 ^ 40 + i) }
    dcBypass s (0xFFF8 / 128) = true ∧ matchedNow s = false ∧ matchedNow (seen s) = true := by decide +kernel

/-- An address at the end of the range, a misaligned one, offset 0xC00300 of a window, a page without a table entry, and a store
into the source of a copy. -/
theorem witness_AccessFaults : let s := { withX [(1, 0x0100000000000000), (2, 0x2001), (3, 0xF00000C00300), (4, 0x20000), (5, 0x2000)] with
      vc.eng.flights := [{ flying 1 .ld with copy := some (spanJob true 0x2007 0x3000) }] }
    let va (r : BitVec 6) := BitVec.ofInt 64 ((xr s r).toInt + immValue 0 none)
    2 ^ 56 ≤ (va 1).toNat ∧ (va 2).toNat < 2 ^ 56 ∧ (va 2).toNat % 2 ≠ 0 ∧
    inMap (va 3).toNat = true ∧ (va 3).toNat % 8 = 0 ∧ mapCheck s (va 3).toNat 8 none = .error 1 ∧
    inMap (va 4).toNat = false ∧ givesFault (translate s (va 4).toNat .read) 5 1 = true ∧
    inMap (va 5).toNat = false ∧ (va 5).toNat % 8 = 0 ∧ placesAt s (va 5).toNat .write 0x2000 false ∧
    memHazard s (va 5).toNat 8 = true ∧ s.part.walks = [] :=
  ⟨by decide, by decide, by decide, by decide, by decide, by decide +kernel, by decide, by decide +kernel, by decide, by decide,
   places_of (by decide +kernel), by decide, by decide⟩

/-- A map with two FIFOs between the same engines, and the default map. -/
theorem witness_CsrWords : tokmapBad (withX []) 0x4444 = true ∧ tokmapBad (withX []) 0x6194 = false := by decide +kernel

/-- Counts 14, 15 and 0; an empty event queue and one with a record, into x0 and into x62. -/
theorem witness_TokenAndEventWords :
    (withX []).vc.ctl.h = false ∧
    (let s := { withX [] with vc.eng.tokens := [(3, 14)] }
     mget 0 s.vc.eng.tokens 3 + ((s.vc.eng.pushIn.filter (fun p => p.2 == 3)).length + queuePushes s 3) < 15) ∧
    (15 ≤ mget 0 { withXL [] with vc.eng.tokens := [(3, 15)] }.vc.eng.tokens 3 + 0 ∧ (withXL []).launch.mode = .lockstep) ∧
    (15 ≤ mget 0 { withX [] with vc.eng.tokens := [(3, 15)] }.vc.eng.tokens 3 + 0 ∧ (withX []).launch.mode = .elastic) ∧
    mget 0 (withX []).vc.eng.tokens 3 = 0 ∧ mget 0 { withX [] with vc.eng.tokens := [(3, 1)] }.vc.eng.tokens 3 ≠ 0 ∧
    (withX []).launch.frozen = none ∧ (withX []).vc.eng.events = [] ∧
    { withX [] with vc.eng.events := [(1, 2)] }.vc.eng.events = (1, 2) :: [] ∧ (62 : BitVec 6).toNat % 2 = 0 := by decide

/-- Each word at the least value that it refuses and the greatest that it takes; a stream with four versions held. -/
theorem witness_StreamWords : (withX []).vc.ctl.h = false ∧
    ([(0, 0x400000, 0x3FFFFF), (1, 0x8000, 0x7FFF), (2, 0, 0xFFFF), (3, 0x800, 0x011), (4, 0x400000, 0x3FFFFF), (5, 0x20, 0x1F)]
      : List (Nat × Word64 × Word64)).all (fun p => !zsetOk p.1 p.2.1 && zsetOk p.1 p.2.2) = true ∧ zsetOk 6 0 = true ∧
    (withX []).vc.zFull 3 = false ∧
    { withX [] with vc.zver := [(3, 3)], vc.eng.flights := (List.range 4).map (fun i =>
        { flying i .vx with entry := { entry i 0 [] with zv := [(3, i)] } }) }.vc.zFull 3 = true := by decide +kernel

theorem witness_SystemWords : (withX []).vc.tx.state ≠ 1 ∧ { withX [] with vc.tx.state := 1 }.vc.tx.state = 1 ∧
    { withX [] with vc.atomics := [default] }.vc.atomics ≠ [] ∧
    settled (unsettled (withX [])) = false ∧ settled (withX []) = true ∧
    (let s := { withX [] with launch.maps := [⟨0, 0, 0, [1], 101, none, 0⟩] }
     ∃ w ∈ s.launch.maps, w.src = s.vc.id ∧ w.seqS = none) ∧
    (withX []).vc.atomics = [] ∧
    (let s := { withX [] with launch.maps := [⟨0, 0, 0, [1], 101, some 4, 0⟩] }
     ∀ w ∈ s.launch.maps, w.src = s.vc.id → w.seqS ≠ none) := by decide +kernel

/-- Nothing outstanding; a word still queued; one in flight; an out-copy, and a prefetch alone. -/
theorem witness_QueueFence : (withX []).vc.ctl.fenceSeq = none ∧
    (∀ q ∈ maskQueues 0x7F, ((withX []).vc.eng.q q).entries = []) ∧ (∀ f ∈ (withX []).vc.eng.flights, f.writesOut = false) ∧
    (let s := { queued .elastic .st (entry 4 0 []) with vc.eng.nextSeq := 5 }
     ∃ q ∈ maskQueues 0x20, ∃ e ∈ (s.vc.eng.q q).entries, e.seq < s.vc.eng.nextSeq) ∧
    (let s := { withFlight .elastic (flying 4 .vx) with vc.eng.nextSeq := 5 }
     ∃ f ∈ s.vc.eng.flights, (f.ended = false ∧ f.q ∈ maskQueues 0x04) ∧ f.seq < s.vc.eng.nextSeq) ∧
    (let s (op : Nat) := withFlight .elastic { flying 4 .ld with ended := true, copy := some { spanJob true 0 8 with op := op } }
     (0x40 : BitVec 7).getLsbD 6 = true ∧ (∃ f ∈ (s 4).vc.eng.flights, f.writesOut = true) ∧
       ∀ f ∈ (s 3).vc.eng.flights, f.writesOut = false) := by decide +kernel

/-- A sync object at 0x4000 with a bound region, one of whose lines stands in the data cache; a release that can go on, and one
behind an atomic, which the acquire waits for too. -/
theorem witness_AcquireRelease :
    let s := seen { withX [(1, 0x4000)] with launch.binds := [⟨0x2000, 128, 0x4000⟩], vc.dcache := [⟨0x40, List.replicate 128 7, 0, 0⟩] }
    let w := { s with vc.atomics := [{ (default : PendAtomic) with va := 0x4000, pa := 0x4000 }] }
    (xr s 1).toNat < 2 ^ 56 ∧ (xr s 1).toNat % 8 = 0 ∧ inMap (xr s 1).toNat = false ∧ placesAt s (xr s 1).toNat .read 0x4000 false ∧
    granuleBusy s 0x4000 = false ∧ s.part.poison.contains (0x4000 / 128) = false ∧
    (∃ u v, translate s (xr s 1).toNat .read = .ok u v ∧
      (acqRegions (homeRead u 0x4000 8).1 0x4000).2.any (fun r => decide (r.1 ≤ 0x40) && decide (0x40 < r.2)) = true) ∧
    ctlPending s = false ∧ relCopies s 0x4000 = false ∧ matchedNow s = true ∧ matchedNow (withX [(1, 0x4000)]) = false ∧
    placesAt w (xr w 1).toNat .read 0x4000 false ∧ granuleBusy w 0x4000 = true ∧ ctlPending w = true :=
  ⟨by decide, by decide, by decide, places_of (by decide +kernel), by decide, by decide,
   ok_of (P := fun u _ => (acqRegions (homeRead u 0x4000 8).1 0x4000).2.any (fun r => decide (r.1 ≤ 0x40) && decide (0x40 < r.2)))
     (by decide +kernel), by decide, by decide +kernel, by decide, by decide, places_of (by decide +kernel), by decide, by decide⟩
/-- Outside a handler with a handler in TVEC, in both modes, and a frame that lies within page 0. -/
theorem witness_SoftwareTrap :
    let w (m : Mode) : State := { lone m { core with ctl := { Ctl.init with x := [(2, 0x8010)], pc := 0x1000 } } with vc.ctl.tvec := 0x4000 }
    let s := w .elastic
    let f : FaultRec := { src := 0, cause := 0x30, detail := 63, tval := 0, beat := s.vc.now, name := nameOfPc s.vc.ctl.pc, seq := none,
                          tepc := some (s.vc.ctl.pc + 4) }
    let s0 := raiseAt (charge s .sys) s.vc.id f
    let s1 : State := { s0 with vc.faults := [], vc.ctl.tcause := w64 (0x30 + 256 * 63), vc.ctl.tval := 0, vc.ctl.h := true,
                                vc.ctl.tstep := s0.vc.stepOpen, vc.ctl.tepc := w64 ((s.vc.ctl.pc + 4).toNat % 2 ^ 56 / 4 * 4),
                                vc.ctl.cur := some f, vc.ctl.fenceSeq := none, vc.ctl.matched := some 0,
                                vc.ctl.was := s.vc.run, vc.run := .running, vc.ctlSeen := false }
    let frame := w64 ((xr s 2).toNat / 64 * 64) - 640
    ((w .lockstep).vc.ctl.h = false ∧ (w .lockstep).vc.faults = [] ∧ (w .lockstep).vc.ctl.tvec ≠ 0 ∧
      (w .lockstep).launch.mode = .lockstep ∧ (w .lockstep).launch.multi = false ∧ (w .lockstep).launch.frozen = none) ∧
    (∀ q ∈ allQueues, (s.vc.eng.q q).entries = []) ∧ s.vc.eng.flights = [] ∧ s.vc.tbl.runs = [] ∧ storable s frame 640 ∧
    ∃ u v, storeWords s1 frame (frameWords s1 f) = .ok u v ∧ true = true :=
  ⟨by decide +kernel, by decide +kernel, by decide +kernel, by decide +kernel,
   storable_of (by decide +kernel) (span_of (pa := 0x7D80) (by decide +kernel) (by decide +kernel) (by decide)),
   ok_of (P := fun _ _ => true) (by decide +kernel)⟩

/-- Full FIFOs and 511 records, and one entry in a queue. -/
theorem witness_TrapFrame : let s := { queued .lockstep .st (entry 4 0 []) with
      vc.eng.tokens := [(0, 15), (1, 15), (2, 15), (3, 15)], vc.eng.events := List.replicate 511 (0, 0) }
    (s.vc.eng.q .ld).entries = [] ∧ (s.vc.eng.q .st).entries = entry 4 0 [] :: [] ∧ (∀ p ∈ s.vc.eng.tokens, p.2 ≤ 15) ∧
    s.vc.eng.events.length + (s.vc.eng.evIn.filter (fun r => decide (r.beat ≤ s.vc.now))).length < 512 ∧ (replayHeads s).length < 2 ^ 16 := by decide +kernel

/-- A trap in a handler; words of the first and the last of the majors that a handler may not execute; a context without a
handler; a completion record at the end of the partition. -/
theorem witness_TrapsThatEndLaunches :
    { withX [] with vc.ctl.h := true }.vc.ctl.h = true ∧
    ([(.tokPush 0, 0x24), (.pchk 1, 0x2C)] : List (Instr × Nat)).all (fun p => p.1.wf && match encode p.1 with
      | some [w] => w.toNat / 2 ^ 26 == p.2 && decide (0x24 ≤ p.2) && decide (p.2 < 0x30) && p.2 != 0x2A
      | _ => false) = true ∧
    ((withXL []).vc.ctl.h = false ∧ (withXL []).vc.ctl.tvec = 0 ∧ (withXL []).vc.faults = [] ∧
      (withXL []).launch.mode = .lockstep ∧ (withXL []).launch.multi = false ∧ (withXL []).launch.frozen = none) ∧
    (let s := { withX [] with dev.queues := [(1, w64 (512000000000 - 16))] }
     fld (qword s s.launch.queue 1) 55 0 + 16 * (s.launch.slot % qslots s s.launch.queue) + 16 ≤ s.cp) := by decide +kernel

/-- Outside a handler; in one with skip, with drop, and with neither. -/
theorem witness_TrapReturn : (withX []).vc.ctl.h = false ∧
    (let f : FaultRec := { src := 2, cause := 0x07, detail := 0, tval := 0, beat := 100, name := 0, seq := some 4, tepc := none }
     let s := { queued .lockstep .mx (entry 4 0 []) with vc.ctl.h := true, vc.ctl.cur := some f, vc.ctl.tepc := 0x1002 }
     s.vc.ctl.h = true ∧ s.vc.ctl.cur = some f ∧ f.seq = some 4 ∧ s.vc.ctl.tepc.getLsbD 1 = true ∧ s.vc.ctl.tepc.getLsbD 0 = false) ∧
    (0x1001 : Word64).getLsbD 0 = true ∧ (0x1000 : Word64).getLsbD 0 = false ∧ (0x1000 : Word64).getLsbD 1 = false := by
  decide +kernel

theorem witness_DecodeOfEncode : let i : Instr := .vmulM { plainBits with pushN := true, stamp := some 0xFFFFFF } 15 15 7
    i.wf = true ∧ (encode i).isSome = true := by decide +kernel

theorem witness_EncodeOfDecode : decodeWords [0x0454A100] = .ok (.add 5 18 33, 1) := by decide

/-- The last granule of a page. -/
theorem witness_ReturningAtomics : let s := seen (withX [(1, 0xFFF8)])
    matchedNow s = true ∧ matchedNow (withX [(1, 0xFFF8)]) = false ∧ s.launch.mode = .elastic ∧ (withXL []).launch.mode = .lockstep ∧
    AType.n64 ≠ .f32 ∧ AType.n64 ≠ .f64 ∧ (xr s 1).toNat < 2 ^ 56 ∧ inMap (xr s 1).toNat = false ∧ (xr s 1).toNat % 8 = 0 ∧
    placesAt s (xr s 1).toNat .atomic 0xFFF8 false ∧ 0xFFF8 % 8 = 0 ∧ windowAt s (xr s 1).toNat = none ∧
    granuleBusy s (xr s 1).toNat = false ∧ s.part.poison.contains (0xFFF8 / 128) = false :=
  ⟨by decide, by decide, by decide, by decide, by decide, by decide, by decide, by decide, by decide, places_of (by decide +kernel), by decide,
   by decide, by decide, by decide⟩

/-- A floating add in a Lockstep launch: its place is found before it faults. -/
theorem witness_ReturningAtomics_order : okTest (translate (seen (withXL [(1, 0xFFF8)])) 0xFFF8 .atomic) (fun _ _ => true) = true := by
  decide +kernel

/-- One operation less in flight than the core holds. -/
theorem witness_AtomicsWithoutReturn : let s := { withX [(1, 0xFFFC)] with vc.eng.flights := List.replicate 127 (flying 1 .vx) }
    AType.i32 ≠ .f32 ∧ AType.i32 ≠ .f64 ∧ (xr s 1).toNat < 2 ^ 56 ∧ inMap (xr s 1).toNat = false ∧ (xr s 1).toNat % 4 = 0 ∧
    placesAt s (xr s 1).toNat .atomic 0xFFFC false ∧ windowAt s (xr s 1).toNat = none ∧
    granuleBusy s 0xFFFC = false ∧ unmatchedLine s (0xFFFC / 128) = false ∧ inFlight s.vc < 128 ∧
    granuleBusy { s with vc.atomics := [{ (default : PendAtomic) with va := 0xFFFC, pa := 0xFFFC }] } 0xFFFC = true ∧
    unmatchedLine (unsettled { s with vc.dcache := [⟨0xFFFC / 128, [], 1, 0⟩] }) (0xFFFC / 128) = true :=
  ⟨by decide, by decide, by decide, by decide, by decide, places_of (by decide +kernel), by decide, by decide, by decide, by decide +kernel,
   by decide, by decide⟩

/-- A pending sum: in a frozen launch, in one that runs, and on a line with an uncorrectable error. -/
theorem witness_AtomicPerforms :
    let p : PendAtomic := { op := 0, t := .n64, va := 0x2000, pa := 0x2000, vb := false, v := 1, epoch := none, window := none, name := 0, seq := 4, issued := 90, after := 3, faulted := false }
    let s := { withXL [] with vc.atomics := [p], vc.pulse := 3 }
    (2 < p.after ∧ p.after ≤ s.vc.pulse) ∧ (p.issued ≤ 99 ∧ 89 < p.issued) ∧
    s.vc.atomics = p :: [] ∧ p.faulted = false ∧ p.vb = false ∧ p.window = none ∧ p.op < 7 ∧ frozenNow s = false ∧ poisoned s p.pa = false ∧
    frozenNow { s with launch.frozen := some 99 } = true ∧ poisoned { s with part.poison := [0x40] } p.pa = true := by
  decide +kernel

/-- Operand words that break one check each; the last word of the store; a running table in the way. -/
theorem witness_TableLoad : let s := withX [(1, 0x2000), (2, 0x10FFF), (3, 0x10000), (4, 0x20FFF)]
    let r := { s with vc.tbl.dir := [(5, ⟨4095, 1, 0, true⟩)] }
    s.vc.ctl.h = false ∧ (xr s 1).toNat % 4 = 0 ∧ loadable s (xr s 1) 4 ∧
    ([0x100000000, 0xC0010000, 0x20010000, 0x11000] : List Nat).all (fun B =>
      decide (B ≥ 2 ^ 32 ∨ B / 2 ^ 30 % 4 = 3 ∨ B / 2 ^ 29 % 2 = 1 ∨ B / 2 ^ 12 % 16 ≠ 0)) = true ∧
    (let B := (xr s 2).toNat
     B < 2 ^ 32 ∧ B / 2 ^ 30 % 4 ≠ 3 ∧ B / 2 ^ 29 % 2 = 0 ∧ B / 2 ^ 12 % 16 = 0 ∧ 0 < B / 2 ^ 16 % 2 ^ 13 ∧
     B % 2 ^ 12 + B / 2 ^ 16 % 2 ^ 13 ≤ s.storeWords ∧ (dirOf s 5).running = false ∧ overlapsRunning s 4095 1 = false) ∧
    s.storeWords < (xr s 4).toNat % 2 ^ 12 + (xr s 4).toNat / 2 ^ 16 % 2 ^ 13 ∧
    (dirOf r 5).running = true ∧ overlapsRunning r 4095 1 = true ∧
    ∃ u ws, loadTable s (xr s 1) 1 = .ok u ws ∧ true = true :=
  ⟨by decide, by decide, loadable_of (by decide) (span_of (pa := 0x2000) (by decide) (by decide +kernel) (by decide)) (by decide), by decide,
   by decide +kernel, by decide, by decide, by decide, ok_of (P := fun _ _ => true) (by decide +kernel)⟩

/-- A table run that has placed nothing. -/
def run1 : TRun :=
  { (default : TRun) with id := 1, table := 5, home := .ld, count := 1, start := 100, ended := false, stop := false }

/-- Operands at the ends of their ranges; an unloaded entry, a loaded one and a running one; a run outstanding. -/
theorem witness_TableWords : let s := withX [(1, 0x100000000), (2, 0xFFF), (3, 0x1000)]
    let l := { s with vc.tbl.dir := [(5, ⟨0, 1, 0, false⟩)] }
    let r := { s with vc.tbl.dir := [(5, ⟨0, 1, 0, true⟩)], vc.tbl.runs := [run1], vc.tbl.latest := [(5, 2)] }
    s.vc.ctl.h = false ∧ 2 ^ 32 ≤ (xr s 1).toNat ∧ (xr s 2).toNat < 2 ^ 12 ∧ 2 ^ 12 ≤ (xr s 3).toNat ∧
    (dirOf s 5).length = 0 ∧ (dirOf l 5).length ≠ 0 ∧ (dirOf l 5).running = false ∧ (xr l 2).toNat + (dirOf l 5).length ≤ l.storeWords ∧
    l.storeWords < 0xFFF + (dirOf { l with vc.tbl.dir := [(5, ⟨0, 2, 0, false⟩)] } 5).length ∧
    (r.vc.tbl.runs = [] ++ run1 :: [] ∧ run1.ended = false ∧ run1.home = engOfCode (dirOf l 5).home ∧ run1.count ≠ 0) ∧
    { run1 with count := 0 }.count = 0 ∧
    (dirOf r 5).length ≠ 0 ∧ (dirOf r 5).running = true ∧ (∀ x ∈ l.vc.tbl.runs, x.ended = false → x.home ≠ engOfCode (dirOf l 5).home) ∧
    (∀ x ∈ l.vc.tbl.runs, x.id + 1 ≠ mget 0 l.vc.tbl.latest 5) ∧
    (∃ x ∈ r.vc.tbl.runs, x.id + 1 = mget 0 r.vc.tbl.latest 5) := by decide +kernel

/-- vfma z3, z1, z2 at the pc with 31 words queued before it, and a run that is in entry; none for ST. -/
theorem witness_QueuePlacement :
    let s := { withMem (withX []) [(0x1000, 0x12), (0x1001, 0x33), (0x1003, 0xD8)] with
      vc.eng.vx := ⟨List.replicate 31 (entry 4 0 []), 100⟩ }
    let r := { withX [] with vc.tbl.runs := [run1] }
    s.vc.ctl.h = false ∧
    (∃ u ws, fetchWords s s.vc.ctl.pc 3 = .ok u ws ∧
      (match splitWords ws with
       | .ok (p, w, n) => n == 1 && engineOfMajor (w.toNat / 2 ^ 26) == some .cmp && prefixLegal p w && u.vc.tbl.runs.isEmpty &&
           (queuesOf w).all (fun q => decide ((u.vc.eng.q q).entries.length < qCap q))
       | _ => false) = true) ∧
    codeAt s [0xD8003312] ∧ splitWords [0xD8003312] = .ok (Prefixes.empty, 0xD8003312, 1) ∧
    activeRun r .ld = some run1 ∧ entryReady r run1 = true ∧ (∀ q ∈ allQueues, (r.vc.eng.q q).entries.length < qCap q) ∧
    activeRun r .st = none :=
  ⟨by decide, ok_of (P := fun u ws => match splitWords ws with
       | .ok (p, w, n) => n == 1 && engineOfMajor (w.toNat / 2 ^ 26) == some .cmp && prefixLegal p w && u.vc.tbl.runs.isEmpty &&
           (queuesOf w).all (fun q => decide ((u.vc.eng.q q).entries.length < qCap q))
       | _ => false) (by decide +kernel),
   ⟨by decide, by decide, by decide, by decide, 0x1000,
    span_of (by decide) (by decide +kernel) (by decide), by decide, by decide +kernel⟩, by decide +kernel, by decide +kernel,
   by decide +kernel, by decide +kernel, by decide⟩

/-- A block at the end of a page, and addresses that fault. -/
theorem witness_CopyBlockWords : let s := withX [(1, 0xFFC0), (2, 0x2020), (3, 0x0100000000000000)]
    s.vc.ctl.h = false ∧ 2 ^ 56 ≤ (xr s 3).toNat ∧ (xr s 2).toNat < 2 ^ 56 ∧ (xr s 2).toNat % 64 ≠ 0 ∧
    (xr s 1).toNat < 2 ^ 56 ∧ (xr s 1).toNat % 64 = 0 ∧ loadable s (xr s 1) 64 ∧ storable s (xr s 1) 64 ∧ (∃ u ws, loadWords32 s (xr s 1) 16 = .ok u ws ∧ true = true) ∧
    ∃ u v, storeWords32 s (xr s 1) ((List.range 16).map (fun j => (mget 0 s.vc.b (16 * 15 + j)).toNat)) = .ok u v ∧ true = true :=
  ⟨by decide, by decide, by decide, by decide, by decide, by decide,
   loadable_of (by decide) (span_of (pa := 0xFFC0) (by decide) (by decide +kernel) (by decide)) (by decide),
   storable_of (by decide) (span_of (pa := 0xFFC0) (by decide) (by decide +kernel) (by decide)),
   ok_of (P := fun _ _ => true) (by decide +kernel), ok_of (P := fun _ _ => true) (by decide +kernel)⟩

/-- A notice one beat short and one just long enough; a member and none; records released and not; something queued. -/
theorem witness_BarrierWords :
    let at' (m : Mode) (stamp : Nat) : State := lone m { core with ctl := { Ctl.init with dom := w64 (stamp * 2 ^ 40) }, memb := 1 }
    let wait (s : State) : Nat := (s.vc.ctl.dom.toNat / 2 ^ 40 + 2 ^ 24 - s.vc.now % 2 ^ 24) % 2 ^ 24
    let B (s : State) : Nat := s.vc.now + if wait s = 0 then 2 ^ 24 else wait s
    let r (d : Bool) : Arrival := { level := .cluster, b := 0, seq := 0, run := 0, colls := [], member := true, done := d }
    let e : State := at' .elastic 0
    (at' .lockstep 115).vc.ctl.h = false ∧ B (at' .lockstep 115) < 100 + 16 ∧ 100 + 16 ≤ B (at' .lockstep 116) ∧
    100 + 16 ≤ B (at' .lockstep 100) ∧ (at' .lockstep 116).launch.multi = false ∧ (at' .lockstep 116).vc.isMember .cluster = true ∧ (at' .lockstep 116).vc.isMember .die = false ∧
    { e with vc.arrived := [r false] }.vc.arrived.find? (fun x => decide (x.level = Level.cluster)) = some (r false) ∧
    { e with vc.arrived := [r true] }.vc.arrived.find? (fun x => decide (x.level = Level.cluster)) = some (r true) ∧
    e.vc.arrived.find? (fun x => decide (x.level = Level.cluster)) = none ∧ arrivedNow e = true ∧
    arrivedNow { e with vc.eng := { Eng.init with vx := ⟨[entry 4 0 []], 100⟩, nextSeq := 5 } } = false := by decide +kernel

/-- Two cores of one cluster that both wait, and the last cluster of a partition. -/
theorem witness_BarrierRelease :
    let r : Arrival := { level := .cluster, b := 0, seq := 0, run := 0, colls := [], member := true, done := false }
    let v (n : Nat) : VC := { core with id := n, memb := 1, arrived := [r] }
    let s := { lone .elastic (v 1008) with peers := [v 1023] }
    63 < 1024 / domainSize Level.cluster ∧ s.launch.mode = .elastic ∧
    (∀ c ∈ s.vcs, c.id / domainSize Level.cluster = 63 → VC.isMember c Level.cluster = true ∧ ∃ a ∈ c.arrived, a.level = Level.cluster ∧ a.done = false) ∧
    ∃ c ∈ s.vcs, c.id / domainSize Level.cluster = 63 := by decide +kernel

/-- No request and one; a mask at the end of a page; addresses that fault; a core with and without work; no sstep before. -/
theorem witness_SafePoints :
    let s := { withX [(1, 0xFFC0), (2, 0x2020), (3, 0x0100000000000000)] with launch.req := some 90 }
    s.vc.ctl.h = false ∧ reqSet (withX []) = false ∧ reqSet s = true ∧ s.launch.mode = .elastic ∧
    2 ^ 56 ≤ (xr s 3).toNat ∧ (xr s 2).toNat < 2 ^ 56 ∧ (xr s 2).toNat % 64 ≠ 0 ∧ (xr s 1).toNat < 2 ^ 56 ∧ (xr s 1).toNat % 64 = 0 ∧
    arrivedNow s = true ∧ arrivedNow { s with vc.eng := { Eng.init with vx := ⟨[entry 4 0 []], 100⟩, nextSeq := 5 } } = false ∧
    ((withXL []).launch.mode = .lockstep ∧ safeB (withXL []) = none) ∧ choose s = none ∧
    (∃ u m, ctlLoadWords { s with part.mem := [(0xFFD8, 1)] } (xr s 1) 8 = .ok u m ∧ (!maskSound u m) = true) ∧
    ∃ u m, ctlLoadWords s (xr s 1) 8 = .ok u m ∧ maskSound u m = true :=
  ⟨by decide, by decide, by decide, by decide, by decide, by decide, by decide, by decide, by decide, by decide +kernel,
   by decide +kernel, by decide +kernel, by decide, ok_of (by decide +kernel), ok_of (by decide +kernel)⟩

/-- A Lockstep safe point after an sstep of the whole launch with B = 120: honoured by a request of beat 90, not when it has been passed;
a yield with another queue to choose, with the running one, and with a request that stands. -/
theorem witness_SafePoints_lockstep :
    let s : State := { withXL [] with vc.ctl.lastSstep := some { level := .device, whole := true, b := 120, instret := 0, seq := 0 } }
    let y (live : Bool) (q : Nat) : State :=
      { withX [] with launch.live := live, launch.queue := q, dev.queues := [(2, 1), (3, w64 (2 ^ 52 + 2 ^ 50))] }
    s.launch.mode = .lockstep ∧ safeB s = some 120 ∧ (s.launch.resume ≠ some 120 ∧ s.launch.req = none) ∧
    ({ s with launch.req := some 90 }.launch.req = some 90 ∧ 90 < 120 ∧ s.launch.passed < 120) ∧
    { s with launch.resume := some 120 }.launch.resume = some 120 ∧
    (choose (y true 5) = some 0 ∧ (y true 5).launch.live = true ∧ runningQueue (y true 5) ≠ some 0 ∧ (y true 5).launch.req = none ∧
      (y true 5).launch.multi = false) ∧
    (choose (y true 0) = some 0 ∧ runningQueue (y true 0) = some 0) := by decide +kernel

/-- Records that break one check each, one whose launch's reserve does not fit, and a sound one. -/
theorem witness_TxOpen :
    let s (m : List Host.Cell) : State := withMem (withXL [(1, 0x2000), (2, 0x2020), (3, 0x0100000000000000)]) m
    let q : State := { s [] with part.equota := 0, launch.reserve := 1 }
    (s []).vc.ctl.h = false ∧ (withX []).launch.mode = .elastic ∧ (s []).launch.mode = .lockstep ∧
    { s [] with vc.tx.state := 1 }.vc.tx.state ≠ 0 ∧ (s []).vc.tx.state = 0 ∧ 2 ^ 56 ≤ (xr (s []) 3).toNat ∧
    (xr (s []) 2).toNat < 2 ^ 56 ∧ (xr (s []) 2).toNat % 64 ≠ 0 ∧ (xr (s []) 1).toNat < 2 ^ 56 ∧ (xr (s []) 1).toNat % 64 = 0 ∧
    (∃ u d, ctlLoadWords (s [(0x2002, 4)]) 0x2000 8 = .ok u d ∧ decide (2 ^ 18 ≤ (listAt 0 d 0).toNat) = true) ∧
    (∃ u d, ctlLoadWords (s [(0x203F, 1)]) 0x2000 8 = .ok u d ∧ decide (listAt 0 d 7 ≠ 0) = true) ∧
    (∃ u d, ctlLoadWords (s [(0x2001, 0x80)]) 0x2000 8 = .ok u d ∧
      (decide ((listAt 0 d 0).toNat < 2 ^ 18) && listAt 0 d 7 == 0 && decide ((listAt 0 d 0).toNat % 2 ^ 16 ≠ u.part.x)) = true) ∧
    (∃ u d, ctlLoadWords q 0x2000 8 = .ok u d ∧ (decide ((listAt 0 d 0).toNat % 2 ^ 16 = u.part.x) && u.part.openEp.isNone &&
      !reserveFits u) = true) ∧
    (∃ u d, ctlLoadWords (s [(0x2002, 3)]) 0x2000 8 = .ok u d ∧ (decide ((listAt 0 d 0).toNat < 2 ^ 18) && listAt 0 d 7 == 0 &&
      (listAt 0 d 0).toNat.testBit 17 && (listAt 0 d 0).toNat.testBit 16 && decide ((listAt 0 d 0).toNat % 2 ^ 16 = u.part.x) &&
      u.part.openEp.isNone && reserveFits u && !sweeperBusy u) = true) ∧
    (let r := s [(0x2002, 3)]
     recordAt r (xr r 1) [0x30000, 0, 0, 0, 0, 0, 0, 0] ∧ 0 = r.part.x ∧ r.part.openEp = none ∧ reserveFits r = true ∧
       sweeperBusy r = false) :=
  ⟨by decide, by decide, by decide, by decide, by decide, by decide, by decide, by decide, by decide, by decide,
   ok_of (by decide +kernel), ok_of (by decide +kernel), ok_of (by decide +kernel), ok_of (by decide +kernel), ok_of (by decide +kernel),
   record_of (pa := 0x2000) (by decide) (span_of (by decide) (by decide +kernel) (by decide)) (by decide) (by decide +kernel),
   by decide +kernel, by decide +kernel, by decide +kernel, by decide +kernel⟩

/-- A step closed, open, voted and resolved; one that may vote and one that waits; losses that are NaN, above the limit and at
it, above and below the loss before. -/
theorem witness_StepWords :
    let s (n : Nat) : State := { withXL [(1, 0x7FC00000), (2, 0x40000000), (3, 0x3F800000)] with
      vc.tx.state := n, vc.tx.vote := 0x3FC0000000000000, vc.ctl.lossLimit := 0x3F800000 }
    let f (w : Word64) : Val := fpF32.decode (w.toNat % 2 ^ 32)
    let W := fpF32.decode ((s 1).vc.tx.vote.toNat / 2 ^ 32)
    (s 0).vc.ctl.h = false ∧ (s 0).vc.tx.state ≠ 1 ∧ (s 1).vc.tx.state = 1 ∧ (s 2).vc.tx.state = 2 ∧ (s 3).vc.tx.state = 3 ∧
    voteReady (s 1) = true ∧ voteReady { s 1 with vc.ctl.flagsIn := [(101, 1)] } = false ∧
    ((9 : BitVec 4).toNat < 10 ∧ 10 ≤ (10 : BitVec 4).toNat ∧ (13 : BitVec 4).toNat < 14) ∧
    (f (xr (s 1) 1)).isNan = true ∧ (f (xr (s 1) 2)).isFin = true ∧ (f (s 1).vc.ctl.lossLimit).isFin = true ∧ W.isFin = true ∧
    (f (s 1).vc.ctl.lossLimit).toRat < (f (xr (s 1) 2)).toRat ∧ (f (xr (s 1) 3)).toRat ≤ (f (s 1).vc.ctl.lossLimit).toRat ∧
    W.toRat < (f (xr (s 1) 2)).toRat ∧ (f (xr (s 1) 3)).toRat < W.toRat := by decide +kernel

/-- The open step, and packets: none of its outcome, a commit, an abort, and one of another generation. -/
theorem witness_StepOutcome :
    let s := { lone .lockstep { core with tx := { Tx.init with state := 2, restore := some (1, 2, []) } } with part.openEp := some (3, 9, true) }
    s.part.openEp = some (3, 9, true) ∧ (0x97FFF : BitVec 64).toNat / 2 ^ 15 % 2 = 0 ∧
    (0xA8000 : BitVec 64).toNat / 2 ^ 15 % 2 = 1 ∧ (0xA8000 : BitVec 64).toNat / 2 ^ 16 % 2 ^ 16 ≠ 9 ∧
    (0x98000 : BitVec 64).toNat / 2 ^ 15 % 2 = 1 ∧ (0x98000 : BitVec 64).toNat / 2 ^ 16 % 2 ^ 16 = 9 ∧
    (0x98000 : BitVec 64).toNat % 2 ^ 13 = 0 ∧ (0x99000 : BitVec 64).toNat % 2 ^ 13 ≠ 0 ∧ s.vcs[0]? = some s.vc ∧
    s.vc.tx.state = 2 ∧ s.vc.tx.restore = some (1, 2, []) := by decide +kernel

/-- Group 255 of two devices, whose member list lies at 0x8000; a record at 0x2000 with count 1, hints at 0x3000 and this
stamp; three collectives of the group under way. -/
def collState (m : Mode) (stamp : Byte) : State :=
  { withMem (lone m { core with ctl := { Ctl.init with x := [(1, 255), (2, 0x2000), (3, 256)] } })
      [(0x2000, 1), (0x2019, 0x30), (0x2028, stamp), (0x2041, 0x40), (0x2048, 0x80), (0x2051, 0x50), (0x205B, 0x7F), (0x8004, 1)] with
    part.groups := [(2040, 1), (2041, 0x8000), (2042, 0x0041004100410041), (2043, 0x0000100000000000), (2044, 1)],
    vc.colls := List.replicate 3 { (default : Coll) with group := 255 } }

/-- The state of collState without its hints. -/
def collPlain (m : Mode) (stamp : Byte) : State :=
  { collState m stamp with part.mem := (collState m stamp).part.mem.filter (fun c => c.1 != 0x2019) }

/-- A stamp ahead and one at the beat itself; a group number past the last; a group that is not valid; a group whose member is
another core; addresses that fault; a record without hints. -/
theorem witness_CollectiveIssue :
    let s := collState .lockstep 101
    let x (r : Word64) : State := { s with vc.ctl.x := [(1, 255), (2, r)] }
    let o : State := { s with part.mem := [(0x8002, 4)] }
    let h := collPlain .lockstep 101
    let d0 : List Word64 := [1, 0, 0, 0, 0, 101, 0, 0]
    let ahead (t : State) (d : List Word64) : Nat := ((listAt 0 d 5).toNat % 2 ^ 24 + 2 ^ 24 - t.vc.now % 2 ^ 24) % 2 ^ 24
    s.vc.ctl.h = false ∧ 2 ^ 56 ≤ (xr (x 0x0100000000000000) 2).toNat ∧ (xr (x 0x2020) 2).toNat % 64 ≠ 0 ∧
    (xr s 2).toNat < 2 ^ 56 ∧ (xr s 2).toNat % 64 = 0 ∧ 256 / s.m ≤ (xr s 3).toNat ∧ groupValid s 254 = false ∧
    (xr s 1).toNat < 256 / s.m ∧ groupValid s 255 = true ∧ (groupMember o 255 (groupSelf o 255)).1 ≠ o.vc.id ∧
    (groupMember s 255 (groupSelf s 255)).1 = s.vc.id ∧ (s.vc.colls.filter (fun c => c.group == 255 && !c.failed)).length < 4 ∧
    inFlight s.vc < 128 ∧ (collState .elastic 0).launch.mode = .elastic ∧
    (∃ u d, ctlLoadWords s (xr s 2) 8 = .ok u d ∧
      (okTest (descCheck u 0 255 d) (fun _ _ => true) && decide (ahead s d ≠ 0) && decide (ahead s d < 2 ^ 23)) = true) ∧
    (∃ u d, ctlLoadWords (collState .lockstep 100) (xr s 2) 8 = .ok u d ∧
      (okTest (descCheck u 0 255 d) (fun _ _ => true) && decide (ahead s d = 0)) = true) ∧
    recordAt h (xr h 2) d0 ∧ descSound d0 = true ∧ descFormats 0 d0 = true ∧ descHaddr d0 = 0 ∧ descInShare h 0 255 d0 = true ∧
    ahead h d0 ≠ 0 ∧ ahead h d0 < 2 ^ 23 :=
  ⟨by decide, by decide, by decide, by decide, by decide, by decide, by decide, by decide, by decide, by decide, by decide,
   by decide, by decide, by decide, ok_of (by decide +kernel), ok_of (by decide +kernel),
   record_of (pa := 0x2000) (by decide) (span_of (by decide) (by decide +kernel) (by decide)) (by decide) (by decide +kernel),
   by decide +kernel, by decide +kernel, by decide +kernel, by decide +kernel, by decide, by decide⟩

/-- A group idle and busy; a sound window record at 0x2040 and an unsound one; the window live; a sync object without windows. -/
theorem witness_CollectiveAndWindowWords :
    let s := collState .elastic 0
    let n : State := { s with vc.colls := [], vc.ctl.x := [(1, 255), (2, 0x2040), (3, 0x4000)] }
    let d : List Word64 := [0x4000, 0x80, 0x5000, 0x7F000000]
    let w : Window := winOf (launchTag n) 255 0 d
    let l : State := { n with part.windows := [w] }
    s.vc.ctl.h = false ∧ 256 / s.m ≤ (xr s 3).toNat ∧ (xr s 1).toNat < 256 / s.m ∧ (∃ c ∈ s.vc.colls, c.group = 255 ∧ c.failed = false) ∧
    (∀ c ∈ n.vc.colls, c.group = 255 → c.failed = true) ∧ (xr n 2).toNat < 2 ^ 56 ∧ (xr n 2).toNat % 64 = 0 ∧ groupValid n 255 = true ∧
    (groupMember n 255 (groupSelf n 255)).1 = n.vc.id ∧ winRecOk [0x4000, 0x40, 0x5000, 0x7F000000] 2 = false ∧
    (recordAt n (xr n 2) d ∧ winRecOk d (groupSize n 255) = true ∧ liveWindows n = [] ∧ fld (listAt 0 d 3) 19 18 = 0) ∧
    (∃ u d, ctlLoadWords n (xr n 2) 4 = .ok u d ∧
      (winRecOk d (groupSize u 255) && (shadowPlain u 255 d).2 && (liveWindows (shadowPlain u 255 d).1).isEmpty) = true) ∧
    (∀ x ∈ n.part.windows, x.dropped = true ∨ x.base ≠ (xr n 3).toNat) ∧
    l.part.windows = [w] ∧ w.dropped = false ∧ w.base = (xr l 3).toNat ∧ groupValid l w.group = true ∧
    (groupMember l w.group (groupSelf l w.group)).1 = l.vc.id ∧
    (let o : State := { l with part.mem := [(0x8002, 4)] }
     (groupMember o w.group (groupSelf o w.group)).1 ≠ o.vc.id) ∧
    n.vc.ctl.fenceSeq = none ∧ placesAt n (xr n 3).toNat .read 0x4000 false ∧ (∀ x ∈ n.part.windows, x.mine n = false) ∧
    ctlPending n = false ∧ relCopies n (xr n 3).toNat = false :=
  ⟨by decide, by decide, by decide, by decide +kernel, by decide, by decide, by decide, by decide, by decide, by decide +kernel,
   ⟨record_of (pa := 0x2040) (by decide) (span_of (by decide) (by decide +kernel) (by decide)) (by decide) (by decide +kernel),
    by decide +kernel, by decide, by decide⟩,
   ok_of (P := fun u d => winRecOk d (groupSize u 255) && (shadowPlain u 255 d).2 && (liveWindows (shadowPlain u 255 d).1).isEmpty)
     (by decide +kernel),
   by decide, by decide, by decide, by decide, by decide, by decide, by decide +kernel, by decide, places_of (by decide +kernel),
   by decide, by decide, by decide +kernel⟩

/-- A window beside the live ones, one that meets a live one, and one that finds 64; an array of its home's in a versioned page; a window
of a group that is gone; a rel.launch before and after its match, behind an atomic, with a window, and in its last wait. -/
theorem witness_CollectiveAndWindowWords_clauses :
    let s := collState .elastic 0
    let n : State := { s with vc.colls := [], vc.ctl.x := [(1, 255), (2, 0x2040), (3, 0x4000)] }
    let d (base : Word64) : List Word64 := [base, 0x80, 0x5000, 0x7F000000]
    let w : Window := winOf (launchTag n) 255 0 (d 0x4000)
    let l : State := { n with part.windows := [w] }
    let fits (ws : List Window) (base : Nat) : Prop :=
      ws.length < 64 ∧ ∀ x ∈ ws, x.base + x.size ≤ base ∨ base + 0x80 ≤ x.base
    let o : State := { l with part.windows := [{ w with sent := 1 }], vc.ctl.fenceSeq := some (0, []) }
    liveWindows l = [w] ∧ fits (liveWindows l) 0x4080 ∧ fits (liveWindows l) 0x3F80 ∧ ¬fits (liveWindows l) 0x407F ∧
    ¬fits (List.replicate 64 (winOf none 1 0 (d 0x10000))) 0x4000 ∧
    (shadowPlain { n with vc.tlb := [⟨0, 16, 131072, true, false, true, true⟩] } 255 [0x4000, 0x80, 0x5000, 0x7F040000]).2 = false ∧
    fld (listAt 0 [0x4000, 0x80, 0x5000, 0x7F040000] 3) 17 0 = groupSelf n 255 ∧
    groupValid { l with part.groups := [] } w.group = false ∧ matchedNow n = false ∧ matchedNow (seen n) = true ∧
    ctlPending { seen n with vc.atomics := [default] } = true ∧ (w.mine l = true ∧ w.dropped = false) ∧
    (o.vc.ctl.fenceSeq ≠ none ∧ windowsOut o = true) ∧ windowsOut { o with part.windows := [w] } = false := by decide +kernel

/-- Stream n with this base, stride 1, count and format code. -/
def stream (n base count fmt : Nat) : SMap Word64 :=
  [(8 * n, w64 base), (8 * n + 1, 1), (8 * n + 2, w64 count), (8 * n + 3, w64 fmt)].filter (fun p => p.2 != 0)

/-- Streams z0, z1, z2 as destination and sources, with z3 and z4 behind for a split. -/
def streams3 (d a b : Nat) : SMap Word64 :=
  stream 0 0 65 d ++ stream 1 0x1000 65 a ++ stream 2 0x2000 65 b ++ stream 3 0x3000 65 d ++ stream 4 0x4000 65 d

/-- The gate of every word that these tests put at the head of a queue, in both modes. -/
theorem witness_standsReady : ∀ q ∈ [Queue.ld, .mx, .vx, .fx, .rx, .st], ∀ m ∈ [Mode.lockstep, .elastic],
    standsReady (queued m q (entry 4 0 [])) q plainBits (entry 4 0 []) [] [] := by
  unfold standsReady
  decide +kernel

/-- A word whose tokens are there, with 127 operations in flight and its stamp at the beat. -/
theorem witness_standsReady_tokens :
    let b : EngBits := { plainBits with popP := true, pushN := true, stamp := some 100 }
    let e : QEntry := { entry 4 0 [] with stamp := some 100 }
    let s := { queued .lockstep .vx e with vc.ctl.tokmap := 0x6194, vc.eng.tokens := [(0, 1)], vc.eng.flights := List.replicate 127 (flying 1 .ld) }
    standsReady s .vx b e [0] [1] := by
  unfold standsReady
  decide +kernel

/-- Every word of VX on streams that its row of R172 takes. -/
theorem witness_VectorIssue :
    ([(.add, 2, 2, 2), (.sub, 2, 2, 2), (.mul, 9, 9, 9), (.fma, 2, 2, 2), (.min, 2, 2, 2), (.max, 9, 9, 9), (.ceq, 9, 2, 2),
      (.cne, 9, 2, 2), (.clt, 9, 2, 2), (.cle, 9, 2, 2), (.sel, 2, 9, 2), (.and, 9, 9, 9), (.or, 9, 9, 9), (.xor, 9, 9, 9),
      (.addsat, 9, 9, 9), (.subsat, 9, 9, 9), (.mulhi, 9, 9, 9), (.gath, 2, 11, 2), (.scat, 2, 11, 2), (.abs, 2, 2, 2),
      (.neg, 2, 2, 2), (.not, 9, 9, 9), (.cls, 9, 2, 2), (.cvt, 0, 2, 2), (.mov, 2, 2, 2), (.split3, 2, 0, 2), (.addY, 2, 2, 2),
      (.mulY, 2, 2, 2), (.fmaY, 2, 2, 2), (.maxY, 2, 2, 2), (.minY, 2, 2, 2), (.shl, 9, 9, 9), (.shr, 9, 9, 9), (.sra, 9, 9, 9),
      (.drop, 2, 2, 2), (.mulM, 2, 2, 2), (.fillY, 2, 2, 2), (.rng, 2, 2, 2), (.iota, 9, 9, 9)]
      : List (VOp × Nat × Nat × Nat)).all (fun p =>
        let zs := streams3 p.2.1 p.2.2.1 p.2.2.2
        let e := entry 4 0 (if p.1 = .split3 then stream 13 0 65 2 ++ stream 14 0x3000 65 2 ++ stream 15 0x4000 65 2 ++ stream 1 0x1000 65 0 else zs)
        let d : BitVec 4 := if p.1 = .split3 then 13 else 0
        let s := queued .lockstep .vx e
        vecHead s p.1 d 1 2 e == .ok && vecCheck s p.1 d 1 2 e == .ok) = true := by decide +kernel

/-- The greatest finite f32 values, and the extremes of i8. -/
theorem witness_VectorElements :
    let f : Str := { (default : Str) with fmt := .f32, stride := 1, count := 1 }
    let n : Str := { (default : Str) with fmt := .i8, stride := 1, count := 1 }
    let rd (a : Nat) : Byte := if a = 2 then 0x7F else if a = 3 then 0xFF else 0xFF
    let l : Str := { f with fmt := .l6 }
    f.fmt.cls = .floating ∧ (f.val rd 0).isFin = true ∧ n.fmt.cls = .integer ∧ n.int rd 0 = -1 ∧ f.fmt.isLog = false ∧
    l.fmt.cls = .floating ∧ l.fmt.isLog = true ∧ l.sen = false ∧ (l.val (fun _ => 0x15) 0).isFin = true ∧
    (logQuarter l.fmt (l.code (fun _ => 0x15) 0)).isSome = true ∧ logQuarter l.fmt (l.code (fun _ => 0) 0) = none := by
  decide +kernel

theorem witness_VectorGroups : 8191 < 8192 ∧ VOp.add ≠ .gath ∧ VOp.add ≠ .scat ∧ VOp.add ≠ .split3 := by decide

theorem witness_ReductionAndFunctionIssue :
    ([(.sum, 2), (.max, 2), (.min, 9), (.sumsq, 2), (.scanSum, 2), (.scanMax, 9), (.dot, 2), (.argmax, 2), (.cnt, 9)]
      : List (ROp × Nat)).all (fun p =>
        let e := entry 4 0 (streams3 p.2 p.2 p.2)
        let s := queued .lockstep .rx e
        redHead s p.1 0 1 2 e == .ok && redCheck s p.1 0 1 2 e == .ok) = true ∧
    (let e := entry 4 0 (streams3 0 2 2)
     let s := queued .elastic .fx e
     fnHead s 0 1 e = .ok ∧ fnCheck s false 0 1 e = .ok ∧ fnCheck s true 0 1 e = .ok) := by decide +kernel

theorem witness_ReductionResults : let a : Str := { (default : Str) with fmt := .i8 }
    a.fmt.cls = .integer ∧ 0 < 1 := by decide

/-- bf16 operands in rings 0 and 1, tile 255 with one segment. -/
theorem witness_MatrixIssue :
    let s := { queued .lockstep .mx (entry 4 0 []) with
      vc.g := [(0, { ringZero with w0 := w64 (7 * 2 ^ 22), cnt := 1 }), (1, { ringZero with w0 := w64 (7 * 2 ^ 22 + 4096), cnt := 1 })],
      vc.chip := [(tpbAt 255 0, 66)] }
    mmaHead s 255 0 1 none (entry 4 0 []) = .ok ∧ mmaCheck s 255 0 1 none = .ok := by decide +kernel

/-- A block of eight words, a row of four, and a drain into f32, each of the last tile. -/
theorem witness_MatrixWords :
    let e (n f : Nat) : QEntry := entry 4 0 (stream 15 0x1000 n f)
    let s (n f : Nat) : State := queued .lockstep .mx (e n f)
    let dst (n f : Nat) : Str := (strOf (e n f).zs 15).bind (s n f).vc true
    let src (n f : Nat) : Str := (strOf (e n f).zs 15).bind (s n f).vc false
    (255 : BitVec 8).toNat < (s 8 15).tiles ∧ wordsHead (s 8 15) 255 15 8 (e 8 15) = .ok ∧ issueStreams (s 8 15) false [] [src 8 15] = .ok ∧
    issueStreams (s 8 15) false [dst 8 15] [] = .ok ∧ wordsHead (s 4 15) 255 15 4 (e 4 15) = .ok ∧
    issueStreams (s 4 15) false [dst 4 15] [] = .ok ∧ drainHead (s 256 0) 255 15 (e 256 0) = .ok ∧
    ((s 256 0).vc.tpb 255 0).toNat / 2 ^ 24 % 4 ≠ 3 ∧ issueStreams (s 256 0) false [dst 256 0] [] = .ok := by decide +kernel

/-- A push into the last slot that is free, and a gather whose indices are n16. -/
theorem witness_RingWords :
    let e := entry 4 0 (stream 1 0x1000 64 2 ++ stream 2 0x2000 64 11)
    let s := { queued .elastic .ld e with vc.g := [(15, { ringZero with w0 := w64 (255 * 2 ^ 40 + 3 * 2 ^ 22 + 0x8000), cnt := 255, head := 1 })] }
    let z := (strOf e.zs 1).bind s.vc false
    let x := (strOf e.zs 2).bind s.vc false
    ringInShare s 15 = true ∧ headStreams s [strOf e.zs 1] = .ok ∧ (strOf e.zs 1).fmt ≠ .e8 ∧ ringCheck s 15 (tailStr s.vc 15 z.fmt z.count) [z] = .ok ∧
    ggathHead s 15 2 1 e = .ok ∧ ringCheck s 15 (tailStr s.vc 15 z.fmt x.count) [x, z] = .ok := by decide +kernel

/-- Receives into a stream, a ring slot and a mailbox, and sends from a stream and a ring. -/
theorem witness_MessageWords :
    let e := entry 4 0 (stream 1 0x1000 64 2)
    let s := queued .lockstep .ld e
    let z := strOf e.zs 1
    let g := { queued .lockstep .st e with vc.g := [(15, { ringZero with cnt := 1 })] }
    messageHead s z = .ok ∧ issueStreams s false [z.bind s.vc true] [] = .ok ∧ postedOn s.vc z.ring = none ∧
    (ringInShare s 15 = true ∧ tailFits s 15 (tailStr s.vc 15 .n8 (s.vc.ring 15).size) = true ∧ hazardChk s.vc (tailStr s.vc 15 .n8 (s.vc.ring 15).size) = .ok ∧
      (s.vc.ring 15).cnt < (s.vc.ring 15).slots ∧ postedOn s.vc 15 = none) ∧ (7 : BitVec 4).toNat ≤ 7 ∧
    g.launch.mode = .lockstep ∧ messageHead g { strOf e.zs 1 with ren := false } = .ok ∧ (g.vc.ring 15).fits g.share = true ∧
    1 ≤ (g.vc.ring 15).cnt := by decide +kernel

/-- An Elastic send whose receive is not there, and one whose receive is posted on another core. -/
theorem witness_MessageWords_elastic :
    let e := entry 4 0 (stream 1 0x1000 64 2)
    let r : Flight := { flying 7 .ld with chan := some 5, done := none }
    let s (fs : List Flight) : State := { queued .elastic .st e with peers := [{ VC.init 1 with eng.flights := fs }] }
    (s []).launch.mode = .elastic ∧ receiveReady (s []) 1 5 = false ∧ receiveReady (s [r]) 1 5 = true ∧
    getVC (s [r]) 1 = some { VC.init 1 with eng.flights := [r] } ∧ postedOn { VC.init 1 with eng.flights := [r] } 5 = some r ∧
    standsReady (s [r]) .st plainBits e [] [] := by
  unfold standsReady
  decide +kernel

/-- A fence with nothing before it and one behind a word in flight; a word at the head of all four columns. -/
theorem witness_WaitWords :
    let s := queued .elastic .ld (entry 4 0 [])
    let b := { s with vc.eng.flights := [{ flying 3 .vx with done := some 200 }] }
    let e : QEntry := { entry 4 0 [] with shared := true }
    let c := lone .elastic { core with eng := { Eng.init with mx := ⟨[e], 100⟩, vx := ⟨[e], 100⟩, fx := ⟨[e], 100⟩, rx := ⟨[e], 100⟩ } }
    (4 : BitVec 7) ≠ 0 ∧ qfenceHolds s 4 (entry 4 0 []) = true ∧ qfenceHolds b 4 (entry 4 0 []) = false ∧ b.launch.mode = .elastic ∧
    (queued .lockstep .st (entry 4 0 [])).launch.mode = .lockstep ∧ (entry 4 0 []).counted = false ∧
    (queued .elastic .st (entry 4 0 [])).launch.mode = .elastic ∧ eventRoomAt (queued .elastic .st (entry 4 0 [])) 101 = true ∧
    eventRoomAt { queued .elastic .st (entry 4 0 []) with vc.eng.events := List.replicate 256 (0, 0) } 101 = false ∧
    qfenceHolds c 1 e = true ∧ qfenceHolds { c with vc.eng.flights := [{ flying 3 .vx with done := some 200 }] } 4 e = false := by
  decide +kernel

/-- A word at the head of all four columns, in both modes. -/
theorem witness_sharedReady : ∀ m ∈ [Mode.lockstep, .elastic],
    let e : QEntry := { entry 4 0 [] with shared := true }
    sharedReady (lone m { core with eng := { Eng.init with mx := ⟨[e], 100⟩, vx := ⟨[e], 100⟩, fx := ⟨[e], 100⟩, rx := ⟨[e], 100⟩ } })
      plainBits e [] [] := by
  unfold sharedReady
  decide +kernel

/-- Block 15: n8 elements, all counts 1, its memory side at `addr`. -/
def block15 (cls addr hi : Nat) (second : Nat) : SMap Word32 :=
  [(240, BitVec.ofNat 32 (cls * 2 ^ 14 + 0x4A4)), (241, BitVec.ofNat 32 addr), (242, BitVec.ofNat 32 hi), (244, 0x10001),
   (245, 0x10001), (246, 0x10001), (247, 1), (254, BitVec.ofNat 32 second)].filter (fun p => p.2 != 0)

/-- Every copy word on block 15, timed for the first three, and with an image of META. -/
theorem witness_CopyIssue :
    ([(0, none, block15 1 0x2000 0 0), (1, none, block15 1 0x2000 0 0), (2, some 1, block15 1 0x2000 0 0),
      (3, none, block15 0 0x2000 0 0), (4, none, block15 0 0x2000 0 0), (5, some 1, block15 0 0x2000 0 0),
      (6, none, block15 0 0x2000 0 0x3000), (7, none, block15 0 0x1000 0xF000 0), (0, none, block15 0 0x2000 0 0)]
      : List (Nat × Option (BitVec 4) × SMap Word32)).all (fun p =>
        let e := entry 4 0 (stream 1 0x1000 1 11)
        let s := { queued .lockstep (if p.1 < 4 then .ld else .st) e with vc.b := p.2.2, vc.eng.credit := 32768 }
        copyHead s plainBits 15 (copyZa s e p.2.1 false) == .ok &&
          copyHead s { plainBits with metaP := some 0 } 15 (copyZa s e p.2.1 false) == .ok &&
          copyCheck s p.1 false (copyWords s.vc 15 none) (copyZa s e p.2.1 true) s.vc.eng.credit (copiesInFlight s.vc) == .ok &&
          !ccbFo (copyWords s.vc 15 none)) = true := by decide +kernel

/-- A copy with a follow-on word, while MX holds a word that CTL has placed at this beat. -/
theorem witness_CopyIssue_follow :
    let e := entry 4 0 (stream 1 0x1000 1 11)
    let b : SMap Word32 := (block15 1 0x2000 0 0xD0000401).map (fun p => if p.1 = 240 then (240, p.2 ||| 0x2000) else p)
    let s := { queued .lockstep .ld e with
      vc.b := b, vc.eng.credit := 32768, vc.eng.mx := ⟨[{ entry 5 0 [] with placed := 100 }], 100⟩ }
    let c := copyWords s.vc 15 none
    ccbFo c = true ∧ copyHead s plainBits 15 none = .ok ∧ copyCheck s 0 false c none s.vc.eng.credit (copiesInFlight s.vc) = .ok ∧
    (∀ x ∈ (s.vc.eng.q .mx).entries, x.seq ≠ e.seq) := by decide +kernel

/-- A word that ends at this beat, with a result, tokens and flags. -/
theorem witness_EngineEvents_completes :
    (let f : Flight := { flying 4 .rx with toks := [3], y := some (2, 7), pops := [1], flags := 1 }
     let s := withFlight .elastic f
     flightAt s 4 = some f ∧ f.dueNow s.vc.now = true ∧ frozenNow s = false ∧ f.copy = none ∧ f.accs = [] ∧ f.toks.Nodup ∧
       (∀ k ∈ f.toks, tokFull s k = false) ∧ s.upsets = []) := by decide +kernel

/-- A word that fills a mailbox and pushes a ring. -/
theorem witness_EngineEvents_receives :
    (let f : Flight := { flying 4 .ld with pushes := [1], work := .recv 2 5 }
     flightAt (withFlight .elastic f) 4 = some f ∧ f.pops = [] ∧ f.pushes = [1]) := by decide +kernel

/-- A held record, with one place left. -/
theorem witness_EngineEvents_held_record :
    (let r (n : Nat) : EvRec := { (default : EvRec) with w0 := 0x2002, w1 := 1, src := 2, hold := n }
     let s (n : Nat) := { withFlight .elastic (flying 4 .st) with vc.eng.heldEv := [r n], vc.eng.events := List.replicate 255 (0, 0) }
     (s 5).vc.eng.heldEv = r 5 :: [] ∧ (s 5).vc.eng.events.length + (s 5).vc.eng.evIn.length < (s 5).evCap ∧ (r 0).hold = 0 ∧
       (r 5).hold ≠ 0 ∧ goesTo (exec .eventRecordHeldPost (s 5)) (fun t => t.vc.eng.flights.any (fun f => f.seq + 1 == (r 5).hold))) := by decide +kernel

/-- Heads whose stamp is behind, whose beat has passed, that lack a token, that are in time, and that are early. -/
theorem witness_EngineEvents_late :
    (let e (st : Option (BitVec 24)) (w : Word32) : QEntry := { entry 4 w [] with stamp := st }
     let s (st : Option (BitVec 24)) (w : Word32) (n : Nat) : State :=
       { lone .lockstep { core with eng := { Eng.init with vx := ⟨[e st w], n⟩ } } with vc.ctl.tokmap := 0x6194 }
     let S (st : Option (BitVec 24)) (w : Word32) (n : Nat) : Nat × Bool := sched n (entryBits9 (e st w)).delay.toNat (e st w).stamp
     headOf (s none 0xD8003312 100) .vx = some (e none 0xD8003312) ∧ (s none 0xD8003312 100).launch.mode = .lockstep ∧
     queueHeld (s none 0xD8003312 100) .vx = false ∧ (e none 0xD8003312).shared = false ∧ (e none 0xD8003312).bad = false ∧
     (e none 0xD8003312).ready ≤ 100 ∧ tokenFifos (s none 0xD8003312 100) .vx (entryBits9 (e none 0xD8003312)) = some ([], []) ∧
     fenceMask (0xD8003312 : Word32) = none ∧ (S (some 0x800064) 0xD8003312 100).2 = true ∧
     ((S none 0xD8003312 99).2 = false ∧ (S none 0xD8003312 99).1 < 100 ∧ (e none 0xD8003312).retry = false) ∧
     (S none 0xDA003312 100 = (100, false) ∧ tokenFifos (s none 0xDA003312 100) .vx (entryBits9 (e none 0xDA003312)) = some ([0], []) ∧
       tokMissing (s none 0xDA003312 100) [0] = some 0) ∧
     (S none 0xD8003312 100 = (100, false) ∧ tokMissing (s none 0xD8003312 100) [] = none) ∧
     (S none 0xD8003312 101).2 = false ∧ 100 < (S none 0xD8003312 101).1) := by decide +kernel

/-- A line to read and one to write. -/
theorem witness_EngineEvents_copy_line :
    (let l : CLine := { va := 0x2000, len := 128, row := 0, off := 0, second := false, data := [], done := false, due := 100 }
     let j (op : Nat) : CopyJob := { spanJob true 0x2000 0x2080 with op := op, ccb := [0x4A4], lines := [l] }
     let f (op : Nat) : Flight := { flying 4 .ld with copy := some (j op), ended := true }
     let s := withFlight .elastic (f 0)
     flightAt s 4 = some (f 0) ∧ (f 0).copy = some (j 0) ∧ (f 0).faulted = false ∧ frozenNow s = false ∧
     (f 0).indexed = true ∧ (f 4).indexed = true ∧ olderLines s (f 0) l = [] ∧ olderLines (withFlight .elastic (f 4)) (f 4) l = [] ∧
     mget 0 s.part.pcNext (pcOf s 0x2000) ≤ 8 * s.dev.refbeat ∧ ccbTimed (j 0).ccb = false ∧ ccbTimed [0x44A4] = true ∧ l.data = [] ∧ nextLine (j 0) = some (l, 0) ∧ l.due ≤ s.vc.now ∧ nextLine (j 4) = some (l, 0) ∧ (f 4).ended = true ∧
     nextLine (lineDone (j 4) 0 []) = none ∧
     okTest (lineTranslate s l .read) (fun u v => v.1 == 0x2000 && !v.2.vb && !u.part.slow.contains (v.1 / 128)) = true ∧
     okTest (lineTranslate (withFlight .elastic (f 4)) l .write) (fun _ v => !v.2.vb) = true) := by decide +kernel

/-- A message with no receive, with one that it fits and with one that it does not. -/
theorem witness_EngineEvents_message :
    (let m (t : Option Nat) : Msg := { src := 1, dst := 0, chan := 5, fmt := 0, bytes := 8, data := List.replicate 8 1, sent := 36, seqS := 0, piece := 0, target := t }
     let f (k : Nat) : Flight := { flying 4 .ld with chan := some 5, work := .recv k 5, done := none }
     let s (g : Flight) : State := { withFlight .elastic g with launch.msgs := [m none] }
     (s (f 2)).launch.msgs[0]? = some (m none) ∧ (m none).dst = 0 ∧ (m none).due 100 = true ∧ frozenNow (s (f 2)) = false ∧
     msgTarget { s (f 2) with vc.eng.flights := [] } (m none) = none ∧ (s (f 2)).launch.mode = .elastic ∧
     { s (f 2) with launch.mode := .lockstep }.launch.mode = .lockstep ∧ (m none).piece = 0 ∧ { m none with piece := 1 }.piece ≠ 0 ∧ msgTarget (s (f 2)) (m none) = some (f 2) ∧
     landingOk (m none) (f 2) = true ∧ landingOk (m none) (f 0) = false) := by decide +kernel

/-- Map writes of each kind, at the last place of its kind. -/
theorem witness_EngineEvents_map_write :
    (let a (off : Nat) : MapAcc := ⟨0, 0, off, List.replicate 8 1, 100, none, 0⟩
     let s := { withX [] with launch.maps := [a 0xC00278] }
     s.launch.maps[0]? = some (a 0xC00278) ∧ (a 0xC00278).dst = s.vc.id ∧ (a 0xC00278).due ≤ s.vc.now ∧ frozenNow s = false ∧
     mapEarlier s 0 (a 0xC00278) = false ∧ mapWhat s 0xC00278 = some (.y 15) ∧ s.vc.ywrote.contains 15 = false ∧
     { s with vc.ywrote := [15] }.vc.ywrote.contains 15 = true ∧ mapWhat s 0xC002B8 = some (.m 7) ∧
     mapWhat s 0xC007F0 = some (.z 15 6) ∧ s.vc.zFull 15 = false ∧ mapWhat s 0xC008F0 = some (.g 15 0) ∧
     mapWhat s 0x83FFF8 = some .bytes ∧ s.share ≤ 0x83FFF8 ∧ mapWhat s 0x3FFFF8 = some .bytes ∧ 0x3FFFF8 < s.share ∧ s.vc.claims = [] ∧
     0x3FFFF8 % 64 + (a 0x3FFFF8).data.length ≤ 64) := by decide +kernel

/-- A walk that grants. -/
theorem witness_MemoryEvents_walk :
    (let s := walkTables [(0x13018, 7), (0x1301A, 0x20)]
     (0x4000601234 : Word64).toNat < 2 ^ 56 ∧ s.part.tlbBusy = false ∧ s.dev.lq ≤ 4 ∧
       (match (lookup s 0x4000601234).2 with
        | .ok _ => true
        | _ => false) = true) := by decide +kernel

/-- A write of the open epoch, of another, and a read. -/
theorem witness_MemoryEvents_versioned :
    (let s := { withXL [] with part.openEp := some (3, 9, false) }
     let x : VAccess := { write := true, frame := 0, off := 120, len := 8, data := List.replicate 8 1, epoch := some 3 }
     s.part.openEp = some (3, 9, false) ∧ x.off % 128 + x.data.length ≤ 128 ∧ x.write = true ∧ x.epoch = some 3 ∧
       (vWrite s x.frame x.off x.data (some 3)).isSome = true ∧ { x with epoch := none }.epoch ≠ some 3 ∧ { x with write := false }.write = false) := by decide +kernel

/-- Blocks to copy, copied, committed and aborted. -/
theorem witness_MemoryEvents_block :
    (let s (map : BitVec 16) (o : Bool) : State := { withXL [] with
       part.blocks := [(7, { blockZero with e := some 3, copy := true, map := map })], part.outcomes := [(3, 3, o, 0)] }
     (blockAt (s 1 true) 7).e.isSome = true ∧ (blockAt (s 1 true) 7).copy = true ∧ missingLine (blockAt (s 1 true) 7) = some 1 ∧
       missingLine (blockAt (s 0xFFFF true) 7) = none ∧ (blockAt (s 1 true) 7).e = some 3 ∧ outcomeOf (s 1 true) 3 = some true ∧
       outcomeOf (s 1 false) 3 = some false) := by decide +kernel

/-- Values that the registers take and refuse, and the last bytes of the partition. -/
theorem witness_MemoryEvents_link :
    (let s := { withX [] with launch := Launch.init }
     (1 : BitVec 5).toNat = s.part.idx + 1 ∧ tlbinvOk s 0x10001 = true ∧ tlbinvOk s 2 = false ∧ (8 : BitVec 4).toNat < 9 ∧
       partQuiet s = true ∧ hmaskOk s 8 0x8000 = true ∧ hmaskOk s 8 0x80 = false ∧ partQuiet (withX []) = false ∧
       511999999999 + [(1 : Byte)].length ≤ s.cp ∧ s.cp < 512000000000 + [(1 : Byte)].length ∧ 511999999999 + 1 ≤ s.cp ∧
       s.cp < 512000000000 + 1) := by decide +kernel

/-- A header of class tc for group 255, two data fragments. -/
def head2 (tc : Nat) : Head :=
  { (default : Head) with tc := tc, grp := 255, k := 2, m := 1, len := 512, ncon := 2, src := 1, cseq := 0 }

/-- A buffer of that header. -/
def darn2 (tc : Nat) (st : DarnState) (vc : Option Nat) : Darn :=
  { key := keyOf (head2 tc) [], owner := if tc = 3 then none else some (0, 0), die := 0, vc := vc, head := (head2 tc).words 0, frags := [(0, List.replicate 256 1)], ov := false,
    taken := 0, state := st, data := List.replicate 8 0 }

theorem crc32c_lt (d : List Byte) : crc32c d < 2 ^ 32 := by
  have fold {β : Type} (g : Nat → β → Nat) (hg : ∀ c b, c < 2 ^ 32 → g c b < 2 ^ 32) (l : List β) (c : Nat) (hc : c < 2 ^ 32) :
      l.foldl g c < 2 ^ 32 := by
    induction l generalizing c with
    | nil => exact hc
    | cons x l ih => exact ih _ (hg c x hc)
  have bit (c : Nat) (hc : c < 2 ^ 32) : crcBit c < 2 ^ 32 := by
    unfold crcBit
    split
    · exact Nat.xor_lt_two_pow (by omega) (by decide)
    · omega
  refine Nat.xor_lt_two_pow (fold _ (fun c b hc => fold _ (fun x _ hx => bit x hx) _ _ (Nat.xor_lt_two_pow hc ?_)) _ _ (by decide))
    (by decide)
  have := b.isLt
  omega

theorem crc_mkFrag (h : Head) (i : Nat) (d : List Byte) : (mkFrag h i d).crc.toNat = crc32c (fragBytes (mkFrag h i d)) := by
  have e : (mkFrag h i d).crc = BitVec.ofNat 32 (crc32c (fragBytes (mkFrag h i d))) := rfl
  rw [e, BitVec.toNat_ofNat, Nat.mod_eq_of_lt (crc32c_lt _)]

/-- A whole fragment, and one without its payload. -/
theorem witness_FabricEvents_fragment :
    (let f := mkFrag (head2 1) 2 (List.replicate 256 7)
     let s := collState .elastic 0
     let h := headOfFrag f
     fragSound f = true ∧ fragSound (mkFrag (head2 1) 2 []) = false ∧ fragPart s h = s.part.idx ∧
       h.tc < 6 ∧ s.part.reset = none ∧ h.ncon = groupSize s (localGroup s h) ∧
       dlPast (viewOf s (ownerOf s h)) h = false ∧ s.part.darns = [] ∧ keyClosed (viewOf s (ownerOf s h)) h f.payload = false ∧
       fragIdx f < h.k + h.m ∧ (s.part.darns.filter (fun b => b.die == fragDie s h)).length < darnShare s) := by
  refine ⟨?_, by simp [fragSound, mkFrag], by decide +kernel⟩
  have h := crc_mkFrag (head2 1) 2 (List.replicate 256 7)
  unfold fragSound
  rw [h, beq_self_eq_true]
  decide +kernel

/-- Buffers in each state. -/
theorem witness_FabricEvents_buffer :
    (let c : Coll := { (default : Coll) with op := 1, group := 255, seq := 0, chunks := [⟨0, 1, 1, 100⟩] }
     let b := darn2 0 .ready (some 0)
     let s := { collState .elastic 0 with vc.colls := [c], part.darns := [b] }
     s.part.darns[0]? = some b ∧ b.state = .ready ∧ b.hd.tc = 0 ∧ b.hd.dvc = s.vc.id ∧ b.owner = launchTag s ∧
       collOf s b.hd = some (0, c) ∧ c.failed = false ∧ c.chunks[chunkPlace s c b.hd]? = some ⟨0, 1, 1, 100⟩ ∧
       chunkWaits s b.hd ⟨0, 1, 1, 100⟩ = true ∧
       (darn2 1 .decoding none).state = .decoding ∧ (darn2 3 .ready none).hd.tc = 3 ∧ (darn2 2 .ready none).hd.tc = 2 ∧
       isReport (leNat ((darn2 2 .ready none).data.take 8)) = false ∧
       darnFailed s (darn2 1 .filling (some 0)) = true ∧ (darn2 1 .filling (some 0)).vc = some s.vc.id ∧
       (darn2 1 .filling (some 0)).owner = launchTag s ∧
       darnFailed s (darn2 3 .filling none) = false ∧ darnFailed s (darn2 1 .filling none) = true) := by decide +kernel

/-- Collectives that read, land and fail. -/
theorem witness_FabricEvents_collective :
    (let c : Coll := { (default : Coll) with op := 0, group := 255, chunks := [⟨0, 1, 1, 100⟩], desc := [2], start := 99, read := 1 }
     let s := { collState .elastic 0 with vc.colls := [c] }
     s.vc.colls[0]? = some c ∧ collFailed s c = true ∧ c.failed = false ∧ c.sent = false ∧ c.start + c.read ≤ s.vc.now ∧ frozenNow s = false ∧
       s.vc.claims = [] ∧ { c with mbox := some (100, 5) }.mbox = some (100, 5) ∧ c.lands = [] ∧ collHeld s c = false ∧
       s.mover ≠ .inbound ∧ { c with lands := [⟨100, 64, [1], 0⟩] }.lands = [⟨100, 64, [1], 0⟩] ∧ c.mbox = none ∧
       { c with sent := true }.sent = true ∧ (∀ x ∈ ([⟨0, 1, 4, 100⟩] : List CChunk), x.stage = 4) ∧ descEv c.desc = false) := by decide +kernel

/-- A window's flush, at its home and elsewhere. -/
theorem witness_FabricEvents_window :
    (let w : Window := { winOf (some (0, 0)) 255 0 [0x4000, 0x80, 0x5000, 0x7F000000] with flush := 1, sent := 1 }
     let b : Darn := { darn2 5 .ready none with key := winKey (collState .elastic 0) w 0 ++ [0] }
     let s := { collState .elastic 0 with part.windows := [w], part.darns := [b] }
     s.part.windows[0]? = some w ∧ w.sent ≠ 0 ∧ w.atHome s = true ∧ w.owner = launchTag s ∧ readyFlush s w = some [b] ∧
       (applyFlush s w [b]).isSome = true ∧ { w with w := [0x4000, 0x80, 0x5000, 0x7F000001] }.atHome s = false) := by decide +kernel

/-- The last port. -/
theorem witness_FabricEvents_port :
    (35 : BitVec 6).toNat < 36 := by decide +kernel

/-- A drain that sends, and one that has sent. -/
theorem witness_FabricEvents_drain :
    (let d (l : List Nat) (r : List (List Byte)) : Drain := ⟨some (0, 0), 9, 1, l, 0, r, []⟩
     let s (l : List Nat) (r : List (List Byte)) := { withXL [] with part.drains := [d l r] }
     (s [7] []).part.drains = d [7] [] :: [] ∧ drainNext (s [7] []) (d [7] []) = some 7 ∧
       (match drainSource (touch (s [7] []) 7) 7 9 with
        | some x => !drainPoisoned (touch (s [7] []) 7) 7 x
        | none => false) = true ∧ (d [] []).owner = launchTag (s [] []) ∧
       (d [] [[1]]).left = [] ∧ (d [] [[1]]).recs ≠ [] ∧ drainNext (s [] [[1]]) (d [] [[1]]) = none ∧ (d [] []).recs = [] ∧
       (s [] []).vc.id = 0 ∧ (s [] []).launch.live = true ∧ (s [] []).launch.mode = .lockstep) := by decide +kernel

/-- Votes: a veto, all cores in, one still in its step. -/
theorem witness_FabricEvents_vote :
    (let s (n : Nat) : State := { withXL [] with part.openEp := some (3, 9, false), vc.tx.state := n }
     (s 2).part.openEp = some (3, 9, false) ∧ (s 2).part.voted = false ∧ (s 2).part.dstops = [] ∧
       (s 2).part.outbox = [] ∧
       voteFlags { s 1 with vc.tx.vote := 512, part.devVote := 64 } ≠ 0 ∧
       ((s 2).launch.live = true ∧ (∀ v ∈ (s 2).vcs, v.tx.state = 2 ∧ v.settled = true) ∧ drainHold (s 2) 9 = false) ∧
       voteFlags (s 1) = 0 ∧ (s 1).part.endVoted = false ∧ ∃ v ∈ (s 1).vcs, v.tx.state ≠ 2) := by decide +kernel

/-- A launch with one queue: its ring of two slots at 0x8000, valid with one ticket, its tail and progress as given. -/
def withQueue (live : Bool) (tail progress : Nat) : State :=
  { withMem (withX []) [(0x8027, 0x10)] with
    launch.live := live, part.ctxn := 1, dev.ready := [(110, true), (111, true)],
    dev.queues := [(0, w64 (2 ^ 60 + 0x8000)), (1, 0x9000), (2, w64 (progress * 2 ^ 32 + tail)), (3, w64 (2 ^ 52 + 2 ^ 50))] }

/-- Cores that align; tails taken and refused. -/
theorem witness_LaunchEvents_queue :
    (let s := lone .lockstep { core with run := .aligning }
     s.launch.live = true ∧ (∀ v ∈ s.vcs, v.run ≠ .running) ∧ (∃ v ∈ s.vcs, v.run = .aligning) ∧ s.launch.resume = none ∧
       s.launch.kept = false) ∧
    (let s := withQueue false 1 0
     (1 : BitVec 5).toNat = s.part.idx + 1 ∧ qPart s 0 = s.part.idx ∧ tailOk s 0 2 = true ∧ tailOk s 0 3 = false ∧
       tailOk s 0 0 = false) := by decide +kernel

/-- A decision with no launch, one that displaces a launch, and one that keeps it. -/
theorem witness_LaunchEvents_decision :
    (let s (live : Bool) (q : Nat) (n : Nat) : State := { withQueue live 1 0 with launch.queue := q, part.quantum := n }
     let after (s : State) : State := takeClasses { s with part.decision := false }
     2 ^ 18 ≤ (s false 0 (2 ^ 18)).part.quantum ∧ (s true 5 0).part.ex = false ∧ (s true 5 0).launch.req = none ∧
       (s true 5 0).launch.resume = none ∧ (s true 5 0).launch.inPlace = false ∧ (s true 5 0).launch.multi = false ∧
       (s true 5 0).part.chosen = none ∧ choose (after (s false 0 0)) = some 0 ∧ choose (after (s true 5 0)) = some 0 ∧
       (s true 5 0).launch.queue = 5 ∧ slotFree (s true 5 0) = true ∧
       choose (after (s true 0 0)) = some (s true 0 0).launch.queue) := by
  decide +kernel

/-- A slot of zeros that is dispatched. -/
theorem witness_LaunchEvents_dispatch :
    (let s := withQueue false 1 0
     let r := slotWords { s with part.chosen := none } 0x8000
     let d := r.2
     fld (qword s 0 0) 55 0 + 64 * (qprogress s 0 % qslots s 0) = 0x8000 ∧ s.launch.live = false ∧ mayDispatch s = true ∧
       eligible s 0 = true ∧ s.part.saved = [] ∧ 0x8000 + 64 ≤ s.cp ∧ (∀ i, i < 8 → slotWordOk d i = true) ∧
       footprintOk r.1 d = true ∧ poisoned s 0x8000 = false ∧ fld (descW d 2) 55 0 = 0) := by decide +kernel

/-- A packet for a queue with room, and a launch that has ended. -/
theorem witness_LaunchEvents_packet :
    (let s := withQueue false 1 0
     qPart s 0 = s.part.idx ∧ s.part.bound = true ∧ tailOk s 0 ((qtail s 0 + 1) % 2 ^ 32) = true ∧
       (qtail s 0 + 1) % 2 ^ 32 = 2) ∧
    (let s := { withQueue true 1 0 with vc.run := .halted }
     s.launch.live = true ∧ (∀ v ∈ s.vcs, v.finished s = true ∧ v.atomics = [] ∧ v.fifo = []) ∧
       fld (qword s s.launch.queue 1) 55 0 + 16 * (s.launch.slot % qslots s s.launch.queue) + 16 ≤ s.cp) := by decide +kernel

/-- A deadline that has passed with a core in a step, and in none. -/
theorem witness_LaunchEvents_deadline :
    (let s (n : Nat) : State := { withXL [] with launch.req := some 50, part.dlallow := 49, part.ctxn := 1, vc.tx.state := n }
     deadlinePassed (s 0) = true ∧ (∀ v ∈ (s 0).vcs, v.tx.state ≠ 1 ∧ v.tx.state ≠ 2 ∧ v.fifo = []) ∧
       voteStuck { s 2 with part.openEp := some (3, 9, false), peers := [VC.init 1] } = true ∧ slotFree (s 0) = true ∧
       deadlinePassed (s 2) = true ∧ (∃ v ∈ (s 2).vcs, v.tx.state = 1 ∨ v.tx.state = 2)) ∧
    (let s (hcount : Nat) (l : List (Nat × Nat)) : State := { withX [] with launch.hcount := hcount, part.copies := l }
     (withX []).launch.live = true ∧ (withX []).launch.req = none ∧ (s 0 []).launch.multi = false ∧ (s 2 []).launch.multi = true ∧
       isJobLead (s 2 [(0, 0)]) = false ∧ isJobLead (s 2 []) = true) := by decide +kernel

/-- Values at the ends of what the registers take. -/
theorem witness_RegisterEvents_values :
    (let s := { withX [] with launch.live := false, dev.queues := [] }
     (1 : BitVec 5).toNat = s.part.idx + 1 ∧ partQuiet s = true ∧
     ((0xFFFFFFFFFFF800 : Word64).toNat < 2 ^ 56 ∧ (0xFFFFFFFFFFF800 : Word64).toNat % 2 ^ 11 = 0) ∧
     ((0xFFFFFFFFFE0000 : Word64).toNat < 2 ^ 56 ∧ (0xFFFFFFFFFE0000 : Word64).toNat % 2 ^ 17 = 0) ∧
     (4096 ≤ (4096 : Word64).toNat ∧ (0xFFFFFF : Word64).toNat < 2 ^ 24) ∧
     ((0xFFFFFFFFFF0000 : Word64).toNat < 2 ^ 56 ∧ (0xFFFFFFFFFF0000 : Word64).toNat % 2 ^ 16 = 0) ∧
     (255 : Word64).toNat < 2 ^ 8 ∧ bpOk false 0x3800000000000000 = true ∧ bpOk true 0xFFFFFFFF00000FFF = true ∧ groupBusy s 0 = false ∧
     groupOk s 0 [1, 0x8000, 0x0041004100410041, 0x0000100100000000, 1, 0, 0, 0] = true ∧ 0 < groupCount s) := by decide +kernel

theorem witness_RegisterEvents_device :
    (let s := { withX [] with launch.live := false, dev.queues := [] }
     drainctlOk 0x0010000000000048 = true ∧ anyDrain s = false ∧ qPart s 5 = s.part.idx ∧
       queueWordOk s 5 0 0x1000000000008000 = true) := by decide +kernel

/-- A partition to bind, one to unbind, and one whose reset ends. -/
theorem witness_RegisterEvents_pctl :
    (let s := { withX [] with launch.live := false }
     let ready : SMap Bool := (countUp 0 72).map (fun i => (i, true))
     (1 : BitVec 5).toNat = (0 : BitVec 4).toNat + 1 ∧ (0 : BitVec 4).toNat = s.part.idx ∧ s.part.reset = none ∧
       ((0x21 : Word64).toNat < 2 ^ 8 ∧ (0x21 : Word64).toNat / 4 % 8 = 0 ∧ (0x21 : Word64).toNat % 4 = 1) ∧
       (0x22 : Word64).toNat % 4 = 2 ∧ (0x23 : Word64).toNat % 4 = 3 ∧ s.part.bound = true ∧ s.part.saved = [] ∧
       partReady { s with part.bound := false, dev.ready := ready } = true ∧ otherWeights s ≤ 256 ∧
       { s with part.reset := some 9 }.part.reset = some 9) := by decide +kernel

/-- A layout at the end of its range, in and out of its conditions; nonces of both lengths. -/
theorem witness_RegisterEvents_rest :
    (let s := { withX [] with part.bound := false }
     (4 : Word64).toNat < 5 ∧ allIdle s = true ∧ slicesLive (newLayout s 0) = true ∧ 5 ≤ (5 : Word64).toNat ∧ allIdle (withX []) = false ∧
       slicesLive (newLayout { s with dev.retired := countUp 0 1024 } 0) = false ∧ (1 : BitVec 5).toNat = qPart s 32767 + 1 ∧ 32767 < 32768 ∧ 0 < groupCount s ∧ s.part.pw < 256 ∧ s.part.cset < 2 ^ 16 ∧
       (1 : BitVec 5).toNat = s.part.idx + 1 ∧ (List.replicate 32 (0 : BitVec 8)).length = 32 ∧
       (List.replicate 31 (0 : BitVec 8)).length ≠ 32 ∧ s.dev.powered = Dev.init.powered ∧
       { s with dev.powered := false }.dev.powered = false ∧ { s with dev.powered := true }.dev.powered = true) := by
  decide +kernel

/-- The keys whose digests are fused are open, so each image meets one clause or the other; images of function 0 and of a VF; a device
without power and one with it, with no monitor verified yet. -/
theorem witness_RegisterEvents_image (img : Image) : (imageOkay img = true ∨ imageOkay img = false) ∧
    { img with fn := 0 }.fn = 0 ∧ { img with fn := 1 }.fn ≠ 0 ∧ { img with kind := .monitor }.kind = .monitor ∧
    { withX [] with dev.powered := true }.dev.powered = true ∧ { withX [] with dev.powered := false }.dev.powered = false ∧
    bootImages (withX []) .monitor = [] := by
  refine ⟨?_, rfl, by simp, rfl, rfl, rfl, rfl⟩
  cases imageOkay img <;> decide

/-- A monitor that the root accepts is the one that a device starts from. -/
theorem witness_RegisterEvents_monitor (m : Image) (h : imageOkay m = true) (hk : m.kind = .monitor) :
    bootImages { withX [] with dev.images := [m] } .monitor = [m] := by simp [bootImages, h, hk]

/-- A charge to a core and one to the device; coefficients that wait. -/
theorem witness_EnergyAndDebug_charges :
    (let s (c : Charge) : State := { withX [] with part.charges := [c] }
     let c (q : Nat) (v : Option Nat) : Charge := ⟨some (q, 0), 7, 0, v⟩
     let x : Saved := { queue := 3, x := 0, launch := { Launch.init with queue := 3 }, vcs := [VC.init 0], forced := false }
     let p := { s (c 3 (some 0)) with part.saved := [x] }
     (s (c 0 (some 0))).part.charges = c 0 (some 0) :: [] ∧ (some 0 = some (s (c 0 (some 0))).vc.id) ∧
       (c 0 (some 0)).owner = launchTag (s (c 0 (some 0))) ∧ p.part.saved = [x] ∧ (c 3 (some 0)).owner = some x.tag ∧
       (c 3 (some 0)).owner ≠ launchTag p ∧
       (withX []).launch.live = true ∧ (s (c 0 none)).part.charges = c 0 none :: [] ∧ (withX []).others = [] ∧
       { withX [] with part.nextCoefs := some (1, [5]) }.part.nextCoefs = some (1, [5]) ∧ (withX []).part.openEp = none ∧
       { withX [] with part.openEp := some (3, 9, false) }.part.openEp ≠ none) := by decide +kernel

/-- A breakpoint on the instruction that has become next, and one on the head of VX: not there, counting, sampling and stopping. -/
theorem witness_EnergyAndDebug_breakpoints :
    (let s (m : Mode) (kind unit count off : Nat) : State :=
       { lone m { core with heads := [(unit, nameOfPc 0x1000, 120)] } with
         part.bp := [(0, w64 (kind * 2 ^ 60 + unit * 2 ^ 56 + nameOfPc 0x1000 + off)), (1, w64 (count * 2 ^ 32))] }
     let hit (s : State) (unit : Nat) : Prop := bpHead s 0 = some (unit, nameOfPc 0x1000, 120)
     bpHead (s .elastic 1 0 0 4) 0 = none ∧ hit (s .elastic 1 0 3 0) 0 ∧ fld (bpWord (s .elastic 1 0 3 0) 0 true) 63 32 ≠ 0 ∧
       (hit (s .elastic 2 3 0 0) 3 ∧ fld (bpWord (s .elastic 2 3 0 0) 0 true) 63 32 = 0 ∧
         fld (bpWord (s .elastic 2 3 0 0) 0 false) 62 60 = 2 ∧ (s .elastic 2 3 0 0).part.samples.length < 16) ∧
       (hit (s .elastic 1 3 0 0) 3 ∧ fld (bpWord (s .elastic 1 3 0 0) 0 false) 62 60 = 1 ∧ (s .elastic 1 3 0 0).launch.mode = .elastic ∧
         (s .elastic 1 3 0 0).part.dstops = []) ∧
       (hit (s .lockstep 1 3 0 0) 3 ∧ (s .lockstep 1 3 0 0).launch.mode = .lockstep ∧ (s .lockstep 1 3 0 0).launch.frozen = none) ∧
       hit (s .lockstep 1 0 0 0) 0 ∧ { s .elastic 1 0 0 0 with part.dstops := [(0, [1])] }.part.dstops ≠ []) := by decide +kernel

/-- A trace whose delay is over; a clock that waits, before and at its last beat; a die with and without communication. -/
theorem witness_EnergyAndDebug_dies :
    (let s := { withX [] with dev.trace := [(1, { traceZero with left := some 0 })], dev.stretch := [(2, ⟨1, some 3, 9⟩)] }
     (traceOf s 1).left = some 0 ∧ (traceOf s 0).left ≠ some 0 ∧ (255 : Word64).toNat < 2 ^ 8 ∧ 2 ^ 8 ≤ (256 : Word64).toNat ∧
       (1 : BitVec 5).toNat = s.part.idx + 1 ∧ (16 : BitVec 5).toNat ≤ 16 ∧ dieBusy s 0 = false ∧
       (mget stretchZero s.dev.stretch 2).pend = some 3 ∧
       (mget stretchZero { s with dev.refbeat := 65545 }.dev.stretch 2).since + 65536 ≤ 65545 ∧
       s.dev.refbeat < (mget stretchZero s.dev.stretch 2).since + 65536) := by decide +kernel

/-- A die with a core that communicates. -/
theorem witness_EnergyAndDebug_busy :
    dieBusy { withXL [] with vc.ctl.dom := 0x40 } 0 = true := by decide +kernel

/-- A fault of the word at 0x1000. -/
def fault5 : FaultRec :=
  { src := 1, cause := 5, detail := 1, tval := 7, beat := 90, name := 0x1000, seq := none, tepc := some 0x1000 }

/-- CTL as trap entry leaves it before the frame is written. -/
def trapped (s : State) (f : FaultRec) (pc : Word64) : State :=
  { s with vc.faults := s.vc.faults.filter (fun g => g != f), vc.ctl.tcause := f.tcause, vc.ctl.tval := f.tval, vc.ctl.h := true,
           vc.ctl.tstep := s.vc.stepOpen, vc.ctl.tepc := w64 (pc.toNat % 2 ^ 56 / 4 * 4), vc.ctl.cur := some f,
           vc.ctl.fenceSeq := none, vc.ctl.matched := some 0, vc.ctl.was := s.vc.run, vc.run := .running, vc.ctlSeen := false }

/-- A trap whose stop has formed, and the frame that it writes. -/
theorem witness_EnergyAndDebug_trap :
    let s := { withX [(2, 0x8000)] with vc.ctl.tvec := 0x4000, vc.ctl.pc := 0x1004, vc.faults := [fault5] }
    s.vc.ctl.h = false ∧ stopFormed s = true ∧ nextFault s.vc.faults = some fault5 ∧ s.launch.mode = .elastic ∧ s.vc.ctl.tvec ≠ 0 ∧
    storable s (w64 ((xr s 2).toNat / 64 * 64) - 640) 640 ∧
    okTest (storeWords (trapped s fault5 0x1000) (w64 ((xr s 2).toNat / 64 * 64) - 640) (frameWords (trapped s fault5 0x1000) fault5))
      (fun _ _ => true) = true := by
  exact ⟨by decide, by decide +kernel, by decide, by decide, by decide,
    storable_of (pa := 0x7D80) (by decide) (span_of (by decide) (by decide +kernel) (by decide)), by decide +kernel⟩

/-- A core that keeps the beat three before this one, with a word in flight. -/
theorem witness_EnergyAndDebug_collie :
    (let p : Past := { (default : Past) with beat := 97, ctl := Ctl.init, nextSeq := 4 }
     let s := { withX [] with vc.past := [p], vc.pulse := 100, vc.eng.flights := [flying 3 .vx] }
     comparedPast s.vc = some p ∧ s.vc.ctl.h = false ∧ p.ctl.h = false ∧ s.launch.mode = .elastic ∧ flying 3 .vx ∈ s.vc.eng.flights ∧
       (flying 3 .vx).faulted = false ∧ (flying 3 .vx).chan = none ∧ (flying 3 .vx).ended = false ∧ (flying 3 .vx).entry.run = none ∧
       (flying 3 .vx).entry.seq < p.nextSeq ∧ ((8 : BitVec 4).toNat ≠ 7 ∧ (8 : BitVec 4).toNat < 9) ∧ 9 ≤ (9 : BitVec 4).toNat) := by
  decide +kernel

theorem witness_FunctionCases : (1 : Nat) ≠ 0 := by decide

theorem witness_DecodeSamples : (2 ^ 26 - 1 : Nat) < 2 ^ 26 := by decide

/-- `add x3, x1, x2` at the pc. -/
theorem witness_StepRuns_ctl :
    let s := { withMem (withX []) [(0x1000, 0), (0x1001, 0x42), (0x1002, 0x30), (0x1003, 0x04)] with vc.ctlSeen := true }
    s.mover = .ctl ∧ s.vc.run = .running ∧ s.vc.faults = [] ∧ s.vc.stop = [] ∧ s.vc.held = false ∧ frozenNow s = false ∧
    s.upsets = [] ∧ s.vc.ctlSeen = true ∧ s.part.bp = [] ∧
    ∃ u ws, fetchWords s s.vc.ctl.pc 3 = .ok u ws ∧
      (match splitWords ws with
       | .ok (p, w, _) => !engMajor (majorOf w).toNat && decide (decodeWord p w = .ok (.add 3 1 2))
       | _ => false) = true :=
  ⟨by decide, by decide, by decide, by decide, by decide, by decide, by decide, by decide, by decide, ok_of (P := fun _ ws => match splitWords ws with
       | .ok (p, w, _) => !engMajor (majorOf w).toNat && decide (decodeWord p w = .ok (.add 3 1 2))
       | _ => false) (by decide +kernel)⟩

/-- A vector word alone at the head of its queue, and a row that waits at the hub. -/
theorem witness_StepRuns_queue :
    (let x := entry 4 0xD8003312 []
     let s := { queued .elastic .vx x with mover := .queue .vx }
     headOf s .vx = some x ∧ x.bad = false ∧ x.shared = false ∧ sharedIssued s = false ∧ engMajor (majorOf x.word).toNat = true ∧
       (match decodeWord { imm := none, stamp := x.stamp, param := none, metaP := x.metaP } x.word with
        | .ok _ => true
        | _ => false) = true) ∧
    (let r : Row := ⟨0, 0, .preemptionRequest⟩
     let s := { withX [] with mover := .hub, inbox := [.row r] }
     s.inbox = .row r :: [] ∧ { s with inbox := [.read 1 .pctl] }.inbox = .read 1 .pctl :: [] ∧
       { s with inbox := [.retire 3] }.inbox = .retire 3 :: [] ∧ outsideRow r.row = true ∧ r.part = s.part.idx ∧ r.vc = s.vc.id ∧
       goesTo (exec r.row { s with inbox := [] }) (fun t => t.part.idx == s.part.idx && t.vc.id == s.vc.id) = true) := by
  decide +kernel

/-- A step from a state whose memory lists a byte. -/
theorem witness_MemInvariant :
    (let s := { withMem (withX []) [(0x1001, 0x42)] with inbox := [.row ⟨0, 0, .preemptionRequest⟩], mover := .hub }
     s.memWf = true ∧ goesTo (step s) (fun t => t.part.mem == [(0x1001, 0x42)]) = true) := by decide +kernel

end Sys2Proof.Tests
end

section
/-! What the device holds at power-on. The registers are read off `State.reset`; HMASK and the measurement registers are functions of an
index and read their defaults where nothing was written, and the 1,024 virtual cores are one list of fresh ones. -/

namespace Sys2Proof.Machine

/-! ### Registers that nothing has written -/

theorem mrOf_of_unwritten {s : State} (h : s.dev.mr = []) (i : Nat) : mrOf s i = List.replicate 48 0 := by
  simp [mrOf, h, mget]

/-- R242: until software writes HMASK, a mask is the default for the index bits of the partition's pseudo-channels. -/
theorem hmaskOf_of_unwritten {s : State} (h : s.part.hmask = []) (i : Nat) :
    hmaskOf s i = defaultMask (Nat.log2 s.np) i := by
  simp [hmaskOf, h]

/-! ### The one partition of power-on -/

/-- R354: the one partition of power-on has all 512 pseudo-channels. -/
theorem np_reset : State.reset.np = 512 := rfl

theorem hmaskOf_reset (i : Nat) : hmaskOf State.reset i = defaultMask 9 i := by
  have hlog : Nat.log2 State.reset.np = 9 := by rw [np_reset]; exact Nat.log2_two_pow (n := 9)
  rw [hmaskOf_of_unwritten rfl, hlog]

/-- The core in focus and its peers are the fresh cores 0 to 1,023 in turn. -/
theorem vcs_reset : State.reset.vcs = (List.range 1024).map VC.init := by
  have hrange : List.range 1024 = 0 :: (List.range 1023).map Nat.succ := List.range_succ_eq_map
  simp only [State.vcs, State.reset, hrange, List.map_cons, List.map_map, Function.comp_def, Nat.succ_eq_add_one]

theorem length_vcs_reset : State.reset.vcs.length = 1024 := by
  rw [vcs_reset, List.length_map, List.length_range]

theorem run_of_mem_vcs_reset {v : VC} (hv : v ∈ State.reset.vcs) : v.run = .idle := by
  rw [vcs_reset] at hv
  obtain ⟨i, -, rfl⟩ := List.mem_map.mp hv
  rfl

/-- DRAINCTL at power-on holds lat 2^20 in bits 63:40, kmax 32 in bits 9:4 and m 4 in bits 3:0 (R312). -/
theorem drainctl_reset :
    fld State.reset.dev.drainctl 63 40 = 1048576 ∧ fld State.reset.dev.drainctl 9 4 = 32 ∧
    fld State.reset.dev.drainctl 3 0 = 4 := by
  decide

/-- Settles O60: the registers are read off `State.reset`; the masks, the virtual cores and the memory have a lemma each. -/
theorem resetState : Obligations.ResetState := by
  unfold Obligations.ResetState
  obtain ⟨hlat, hkmax, hm⟩ := drainctl_reset
  exact ⟨rfl, rfl, rfl, hlat, hkmax, hm, mrOf_of_unwritten rfl, rfl, rfl, rfl, rfl, rfl, hmaskOf_reset, rfl, rfl, rfl, rfl, rfl,
    rfl, rfl, fun _ hv => run_of_mem_vcs_reset hv, length_vcs_reset, memWf_reset⟩

end Sys2Proof.Machine
end

section
/-! The two directions of the encoding (R27 to R56): what decode reads from the words of an instruction, and the word of what
decode reads. The first is the round trip of each row (Laws/PerInstr.lean); the second goes decoder by decoder, where every
field that an arm reads or checks stands again at its place in the word. -/

namespace Sys2Proof.Laws

/-! ### Decoding what encode writes -/

/-- An event has no word, so there is nothing to read back. -/
theorem roundTrip_of_no_word {i : Instr} (h : encodeWord i = none) : RoundTrip.Statement i := by
  intro ws _ he
  simp [encode, h] at he

/-- Settles O22: one case for each word, by the lemma of its row; the rows that are left are events. -/
theorem decodeOfEncode : Obligations.DecodeOfEncode := by
  unfold Obligations.DecodeOfEncode
  intro i
  cases i with
  | add => exact RoundTrip.add _ _ _ | sub => exact RoundTrip.sub _ _ _ | and => exact RoundTrip.and _ _ _
  | or => exact RoundTrip.or _ _ _ | xor => exact RoundTrip.xor _ _ _ | andn => exact RoundTrip.andn _ _ _
  | sll => exact RoundTrip.sll _ _ _ | srl => exact RoundTrip.srl _ _ _ | sra => exact RoundTrip.sra _ _ _
  | rol => exact RoundTrip.rol _ _ _ | ror => exact RoundTrip.ror _ _ _ | slt => exact RoundTrip.slt _ _ _
  | sltn => exact RoundTrip.sltn _ _ _ | min => exact RoundTrip.min _ _ _ | max => exact RoundTrip.max _ _ _
  | minn => exact RoundTrip.minn _ _ _ | maxn => exact RoundTrip.maxn _ _ _ | addw => exact RoundTrip.addw _ _ _
  | subw => exact RoundTrip.subw _ _ _ | clz => exact RoundTrip.clz _ _ | ctz => exact RoundTrip.ctz _ _
  | popc => exact RoundTrip.popc _ _ | bswap => exact RoundTrip.bswap _ _ | addi => exact RoundTrip.addi _ _ _ _
  | andi => exact RoundTrip.andi _ _ _ _ | ori => exact RoundTrip.ori _ _ _ _ | xori => exact RoundTrip.xori _ _ _ _
  | slli => exact RoundTrip.slli _ _ _ | srli => exact RoundTrip.srli _ _ _ | srai => exact RoundTrip.srai _ _ _
  | slti => exact RoundTrip.slti _ _ _ _ | lih => exact RoundTrip.lih _ _ _ | addpc => exact RoundTrip.addpc _ _ _
  | mul => exact RoundTrip.mul _ _ _ | mulh => exact RoundTrip.mulh _ _ _ | mulhn => exact RoundTrip.mulhn _ _ _
  | div => exact RoundTrip.div _ _ _ | divn => exact RoundTrip.divn _ _ _ | rem => exact RoundTrip.rem _ _ _
  | remn => exact RoundTrip.remn _ _ _ | fadd => exact RoundTrip.fadd _ _ _ _ | fsub => exact RoundTrip.fsub _ _ _ _
  | fmul => exact RoundTrip.fmul _ _ _ _ | fdiv => exact RoundTrip.fdiv _ _ _ _ | fsqrt => exact RoundTrip.fsqrt _ _ _
  | fmac => exact RoundTrip.fmac _ _ _ _ | fmin => exact RoundTrip.fmin _ _ _ _ | fmax => exact RoundTrip.fmax _ _ _ _
  | fceq => exact RoundTrip.fceq _ _ _ _ | fclt => exact RoundTrip.fclt _ _ _ _ | fcle => exact RoundTrip.fcle _ _ _ _
  | fclass => exact RoundTrip.fclass _ _ _ | fabs => exact RoundTrip.fabs _ _ _ | fneg => exact RoundTrip.fneg _ _ _
  | fcpys => exact RoundTrip.fcpys _ _ _ _ | fcvtI64T => exact RoundTrip.fcvtI64T _ _ _
  | fcvtN64T => exact RoundTrip.fcvtN64T _ _ _ | fcvtTI64 => exact RoundTrip.fcvtTI64 _ _ _
  | fcvtTN64 => exact RoundTrip.fcvtTN64 _ _ _ | fcvtF64F32 => exact RoundTrip.fcvtF64F32 _ _
  | fcvtF32F64 => exact RoundTrip.fcvtF32F64 _ _ | ldI8 => exact RoundTrip.ldI8 _ _ _ _
  | ldN8 => exact RoundTrip.ldN8 _ _ _ _ | ldI16 => exact RoundTrip.ldI16 _ _ _ _
  | ldN16 => exact RoundTrip.ldN16 _ _ _ _ | ldI32 => exact RoundTrip.ldI32 _ _ _ _
  | ldN32 => exact RoundTrip.ldN32 _ _ _ _ | ld64 => exact RoundTrip.ld64 _ _ _ _ | st8 => exact RoundTrip.st8 _ _ _ _
  | st16 => exact RoundTrip.st16 _ _ _ _ | st32 => exact RoundTrip.st32 _ _ _ _ | st64 => exact RoundTrip.st64 _ _ _ _
  | beq => exact RoundTrip.beq _ _ _ _ | bne => exact RoundTrip.bne _ _ _ _ | blt => exact RoundTrip.blt _ _ _ _
  | bge => exact RoundTrip.bge _ _ _ _ | bltn => exact RoundTrip.bltn _ _ _ _ | bgen => exact RoundTrip.bgen _ _ _ _
  | j => exact RoundTrip.j _ _ | jal => exact RoundTrip.jal _ _ | jalr => exact RoundTrip.jalr _ _ _ _
  | csrRd => exact RoundTrip.csrRd _ _ | csrWr => exact RoundTrip.csrWr _ _ _ | csrOr => exact RoundTrip.csrOr _ _ _
  | csrAndn => exact RoundTrip.csrAndn _ _ _ | trap => exact RoundTrip.trap _ | acqCore => exact RoundTrip.acqCore _
  | acqCluster => exact RoundTrip.acqCluster _ | acqDie => exact RoundTrip.acqDie _
  | acqDevice => exact RoundTrip.acqDevice _ | acqLaunch => exact RoundTrip.acqLaunch _
  | relCore => exact RoundTrip.relCore _ | relCluster => exact RoundTrip.relCluster _
  | relDie => exact RoundTrip.relDie _ | relDevice => exact RoundTrip.relDevice _
  | relLaunch => exact RoundTrip.relLaunch _ | qfence => exact RoundTrip.qfence _ | aadd => exact RoundTrip.aadd _ _ _ _
  | aand => exact RoundTrip.aand _ _ _ _ | aor => exact RoundTrip.aor _ _ _ _ | axor => exact RoundTrip.axor _ _ _ _
  | amin => exact RoundTrip.amin _ _ _ _ | amax => exact RoundTrip.amax _ _ _ _ | aswap => exact RoundTrip.aswap _ _ _ _
  | acas => exact RoundTrip.acas _ _ _ _ | aredAdd => exact RoundTrip.aredAdd _ _ _
  | aredAnd => exact RoundTrip.aredAnd _ _ _ | aredOr => exact RoundTrip.aredOr _ _ _
  | aredXor => exact RoundTrip.aredXor _ _ _ | aredMin => exact RoundTrip.aredMin _ _ _
  | aredMax => exact RoundTrip.aredMax _ _ _ | tokPush => exact RoundTrip.tokPush _ | tokPop => exact RoundTrip.tokPop _
  | tokRead => exact RoundTrip.tokRead _ _ | evWait => exact RoundTrip.evWait _ | evPop => exact RoundTrip.evPop _
  | evCount => exact RoundTrip.evCount _ | frame => exact RoundTrip.frame _ | tblLoad => exact RoundTrip.tblLoad _ _ _
  | tblRun => exact RoundTrip.tblRun _ _ | tblStop => exact RoundTrip.tblStop _
  | tblRebase => exact RoundTrip.tblRebase _ _ | tblParam => exact RoundTrip.tblParam _ _
  | tblWait => exact RoundTrip.tblWait _ | zsetBase => exact RoundTrip.zsetBase _ _
  | zsetStride => exact RoundTrip.zsetStride _ _ | zsetCount => exact RoundTrip.zsetCount _ _
  | zsetFmt => exact RoundTrip.zsetFmt _ _ | zsetScale => exact RoundTrip.zsetScale _ _
  | zsetRing => exact RoundTrip.zsetRing _ _ | zsetAdv => exact RoundTrip.zsetAdv _ _
  | zget => exact RoundTrip.zget _ _ _ | txopen => exact RoundTrip.txopen _ | txloss => exact RoundTrip.txloss _
  | txwait => exact RoundTrip.txwait _ | txrd => exact RoundTrip.txrd _ _ | rngk => exact RoundTrip.rngk _
  | rngn => exact RoundTrip.rngn _ | domSet => exact RoundTrip.domSet _ | domGet => exact RoundTrip.domGet _
  | collRed => exact RoundTrip.collRed _ _ | collBcast => exact RoundTrip.collBcast _ _
  | collGath => exact RoundTrip.collGath _ _ | collNorm => exact RoundTrip.collNorm _ _
  | collExp => exact RoundTrip.collExp _ _ | collWait => exact RoundTrip.collWait _ _
  | winReg => exact RoundTrip.winReg _ _ | winDrop => exact RoundTrip.winDrop _ | mbclr => exact RoundTrip.mbclr _
  | ywr => exact RoundTrip.ywr _ _ | yrd => exact RoundTrip.yrd _ _ | mbrd => exact RoundTrip.mbrd _ _
  | ccbWr => exact RoundTrip.ccbWr _ _ _ | ccbRd => exact RoundTrip.ccbRd _ _ _ | ccbLd => exact RoundTrip.ccbLd _ _
  | ccbSt => exact RoundTrip.ccbSt _ _ | safept => exact RoundTrip.safept _ | pchk => exact RoundTrip.pchk _
  | cpyIn => exact RoundTrip.cpyIn _ _ | cpyInT => exact RoundTrip.cpyInT _ _ | cpyGath => exact RoundTrip.cpyGath _ _ _
  | cpyPf => exact RoundTrip.cpyPf _ _ | gpush => exact RoundTrip.gpush _ _ _ | ggath => exact RoundTrip.ggath _ _ _ _
  | greset => exact RoundTrip.greset _ _ | recv => exact RoundTrip.recv _ _ | recvG => exact RoundTrip.recvG _ _
  | recvM => exact RoundTrip.recvM _ _ | waitLd => exact RoundTrip.waitLd _ _ | qfenceLd => exact RoundTrip.qfenceLd _ _
  | mma => exact RoundTrip.mma _ _ _ _ | mmaKb => exact RoundTrip.mmaKb _ _ _ _ | mdrain => exact RoundTrip.mdrain _ _ _
  | mzero => exact RoundTrip.mzero _ _ | mtpbLd => exact RoundTrip.mtpbLd _ _ _ | mtpbSt => exact RoundTrip.mtpbSt _ _ _
  | mlsfTest => exact RoundTrip.mlsfTest _ _ _ | mlsfRd => exact RoundTrip.mlsfRd _ _ _
  | mlsfClr => exact RoundTrip.mlsfClr _ _ | maudit => exact RoundTrip.maudit _ _ | vadd => exact RoundTrip.vadd _ _ _ _
  | vsub => exact RoundTrip.vsub _ _ _ _ | vmul => exact RoundTrip.vmul _ _ _ _ | vfma => exact RoundTrip.vfma _ _ _ _
  | vmin => exact RoundTrip.vmin _ _ _ _ | vmax => exact RoundTrip.vmax _ _ _ _ | vabs => exact RoundTrip.vabs _ _ _
  | vneg => exact RoundTrip.vneg _ _ _ | vaddY => exact RoundTrip.vaddY _ _ _ _ | vmulY => exact RoundTrip.vmulY _ _ _ _
  | vfmaY => exact RoundTrip.vfmaY _ _ _ _ | vmulM => exact RoundTrip.vmulM _ _ _ _
  | vmaxY => exact RoundTrip.vmaxY _ _ _ _ | vminY => exact RoundTrip.vminY _ _ _ _
  | vceq => exact RoundTrip.vceq _ _ _ _ | vcne => exact RoundTrip.vcne _ _ _ _ | vclt => exact RoundTrip.vclt _ _ _ _
  | vcle => exact RoundTrip.vcle _ _ _ _ | vsel => exact RoundTrip.vsel _ _ _ _ | vand => exact RoundTrip.vand _ _ _ _
  | vor => exact RoundTrip.vor _ _ _ _ | vxor => exact RoundTrip.vxor _ _ _ _ | vnot => exact RoundTrip.vnot _ _ _
  | vshl => exact RoundTrip.vshl _ _ _ _ | vshr => exact RoundTrip.vshr _ _ _ _ | vsra => exact RoundTrip.vsra _ _ _ _
  | vaddsat => exact RoundTrip.vaddsat _ _ _ _ | vsubsat => exact RoundTrip.vsubsat _ _ _ _
  | vmulhi => exact RoundTrip.vmulhi _ _ _ _ | vclass => exact RoundTrip.vclass _ _ _
  | vcvt => exact RoundTrip.vcvt _ _ _ | vmov => exact RoundTrip.vmov _ _ _ | vfillY => exact RoundTrip.vfillY _ _ _
  | vgath => exact RoundTrip.vgath _ _ _ _ | vscat => exact RoundTrip.vscat _ _ _ _ | vrng => exact RoundTrip.vrng _ _
  | vdrop => exact RoundTrip.vdrop _ _ _ _ | vsplit3 => exact RoundTrip.vsplit3 _ _ _
  | viota => exact RoundTrip.viota _ _ | rsum => exact RoundTrip.rsum _ _ _ | rmax => exact RoundTrip.rmax _ _ _
  | rmin => exact RoundTrip.rmin _ _ _ | rsumsq => exact RoundTrip.rsumsq _ _ _
  | scanSum => exact RoundTrip.scanSum _ _ _ | scanMax => exact RoundTrip.scanMax _ _ _
  | rdot => exact RoundTrip.rdot _ _ _ _ | rargmax => exact RoundTrip.rargmax _ _ _ | rcnt => exact RoundTrip.rcnt _ _ _
  | waitCmp => exact RoundTrip.waitCmp _ _ | qfenceCmp => exact RoundTrip.qfenceCmp _ _
  | cpyOut => exact RoundTrip.cpyOut _ _ | cpyScat => exact RoundTrip.cpyScat _ _ _ | stash => exact RoundTrip.stash _ _
  | cpyXc => exact RoundTrip.cpyXc _ _ | send => exact RoundTrip.send _ _ | sendG => exact RoundTrip.sendG _ _
  | evpost => exact RoundTrip.evpost _ | waitSt => exact RoundTrip.waitSt _ _ | qfenceSt => exact RoundTrip.qfenceSt _ _
  | tret => exact RoundTrip.tret | halt => exact RoundTrip.halt | fence => exact RoundTrip.fence
  | ifb => exact RoundTrip.ifb | txvote => exact RoundTrip.txvote | txabort => exact RoundTrip.txabort
  | sstepCluster => exact RoundTrip.sstepCluster | sstepDie => exact RoundTrip.sstepDie
  | sstepDevice => exact RoundTrip.sstepDevice | sstepHerd => exact RoundTrip.sstepHerd
  | sstepJob => exact RoundTrip.sstepJob | yield => exact RoundTrip.yield | sfExp2 => exact RoundTrip.sfExp2 _ _ _
  | sfLog2 => exact RoundTrip.sfLog2 _ _ _ | sfRcp => exact RoundTrip.sfRcp _ _ _
  | sfRsqrt => exact RoundTrip.sfRsqrt _ _ _ | sfSqrt => exact RoundTrip.sfSqrt _ _ _
  | sfSinpi => exact RoundTrip.sfSinpi _ _ _ | sfCospi => exact RoundTrip.sfCospi _ _ _
  | sfTanh => exact RoundTrip.sfTanh _ _ _ | sfLogistic => exact RoundTrip.sfLogistic _ _ _
  | efExp2 => exact RoundTrip.efExp2 _ _ _ | efLog2 => exact RoundTrip.efLog2 _ _ _
  | efRcp => exact RoundTrip.efRcp _ _ _ | efRsqrt => exact RoundTrip.efRsqrt _ _ _
  | efSqrt => exact RoundTrip.efSqrt _ _ _ | efSinpi => exact RoundTrip.efSinpi _ _ _
  | efCospi => exact RoundTrip.efCospi _ _ _ | efTanh => exact RoundTrip.efTanh _ _ _
  | efLogistic => exact RoundTrip.efLogistic _ _ _
  | _ => exact roundTrip_of_no_word rfl

/-! ### Bytes and words -/

theorem wordsOfBytes_bytesOfWord (w : Word32) (n : Nat) : wordsOfBytes (n + 1) (bytesOfWord w) = [w] := by
  have hw : wordOfBytes (w.extractLsb' 0 8) (w.extractLsb' 8 8) (w.extractLsb' 16 8) (w.extractLsb' 24 8) = w := by
    apply BitVec.eq_of_toNat_eq
    simp only [wordOfBytes, toNat_app, BitVec.extractLsb'_toNat, Nat.shiftRight_eq_div_pow]
    omega
  cases n <;> simp [bytesOfWord, wordsOfBytes, hw]

theorem decode_bytesOfWord_ok {w : Word32} {i : Instr} {n : Nat} (h : decodeWords [w] = .ok (i, n)) :
    decode (bytesOfWord w) = .ok (i, 4 * n) := by
  rw [decode, wordsOfBytes_bytesOfWord, h]

theorem decode_bytesOfWord_error {w : Word32} {e : DecodeError} (h : decodeWords [w] = .error e) :
    decode (bytesOfWord w) = .error e := by
  rw [decode, wordsOfBytes_bytesOfWord, h]

/-- A word of the table that is the word of an instruction decodes to it. -/
theorem decodeTableWord_of_encode {i : Instr} {n : Nat} (he : encode i = some [BitVec.ofNat 32 (n % 2 ^ 32)])
    (hw : i.wf = true) : decodeTableWord 32 n = some i := by
  have h := decodeOfEncode i _ hw he
  rw [decodeTableWord, decode_bytesOfWord_ok h]

/-! ### Reserved majors (R41) -/

theorem majorOf_ofNat {m x : Nat} (hm : m < 64) (hx : x < 2 ^ 26) :
    (majorOf (BitVec.ofNat 32 ((m * 2 ^ 26 + x) % 2 ^ 32))).toNat = m := by
  have hlt : m * 2 ^ 26 + x < 2 ^ 32 := by omega
  rw [majorOf, BitVec.extractLsb'_toNat, BitVec.toNat_ofNat, Nat.mod_mod, Nat.mod_eq_of_lt hlt, Nat.shiftRight_eq_div_pow]
  omega

/-- A word of major 0x3E with nothing behind it is no instruction (R34, R39). -/
theorem decodeWords_of_ext_alone {w : Word32} (h : (majorOf w).toNat = 0x3E) : decodeWords [w] = .error .truncated := by
  have hx : isExt w = true := by simp [isExt, h]
  have hp : ∃ p, Prefixes.empty.add w = some p := by
    simp only [Prefixes.add, Prefixes.empty]
    split <;> exact ⟨_, rfl⟩
  obtain ⟨p, hp⟩ := hp
  simp [decodeWords, splitWords, hx, hp]

/-- A word whose major no table lists is no instruction (R41). -/
theorem decodeWords_of_reserved {w : Word32} (hx : (majorOf w).toNat ≠ 0x3E)
    (hc : ctlMajor (majorOf w).toNat = false) (he : engMajor (majorOf w).toNat = false) :
    decodeWords [w] = .error .reservedMajor := by
  have hd : decodeCtl w none = .error .reservedMajor := by
    unfold decodeCtl
    split
    case h_44 => rfl
    all_goals
      next hm =>
      rw [hm] at hc
      cases hc
  have hl : prefixLegal Prefixes.empty w = true := rfl
  simp [decodeWords, splitWords, decodeWord, isExt, hx, hl, he, show Prefixes.empty.imm = none from rfl, hd, wfOr]

theorem decodeTableWord_of_error {n : Nat} {e : DecodeError} (h : decodeWords [BitVec.ofNat 32 (n % 2 ^ 32)] = .error e) :
    decodeTableWord 32 n = none := by
  rw [decodeTableWord, decode_bytesOfWord_error h]

theorem decodeTableWord_of_reserved {m x : Nat} (hm : m ∈ [0x00, 0x13, 0x2D, 0x2E, 0x2F, 0x3E, 0x3F]) (hx : x < 2 ^ 26) :
    decodeTableWord 32 (m * 2 ^ 26 + x) = none := by
  have hlt : m < 64 ∧ (m ≠ 0x3E → ctlMajor m = false ∧ engMajor m = false) := by
    revert m
    decide
  have hmaj := majorOf_ofNat hlt.1 hx
  by_cases hp : m = 0x3E
  · exact decodeTableWord_of_error (decodeWords_of_ext_alone (hmaj.trans hp))
  · obtain ⟨hc, he⟩ := hlt.2 hp
    exact decodeTableWord_of_error
      (decodeWords_of_reserved (by rwa [hmaj]) (by rwa [hmaj]) (by rwa [hmaj]))

/-- Settles O57: each sample is the word of its instruction, which decode gives back; a reserved major has no instruction. -/
theorem decodeSamples : Obligations.DecodeSamples := by
  unfold Obligations.DecodeSamples
  refine ⟨fun p hp => decodeTableWord_of_encode ?word ?wellFormed, fun m hm x hx => decodeTableWord_of_reserved hm hx⟩
  case word => revert p; decide
  case wellFormed => revert p; decide

/-! ### Encoding what decode reads -/

/-- Where a decoder answers with an instruction for w, its only word is w. -/
def Faithful (w : Word32) (r : Except DecodeError Instr) : Prop := ∀ i, r = .ok i → encode i = some [w]

theorem faithful_error {w : Word32} {e : DecodeError} : Faithful w (.error e) := fun _ h => nomatch h

theorem faithful_ok {w v : Word32} {i : Instr} (hi : encodeWord i = some v) (hp : encodePrefixes i = []) (hv : v = w) :
    Faithful w (.ok i) := by
  rintro _ ⟨⟩
  simp [encode, hi, hp, hv]

theorem faithful_guardField {w v : Word32} {c : Bool} {i : Instr} (hi : encodeWord i = some v) (hp : encodePrefixes i = [])
    (hv : c = true → v = w) : Faithful w (guardField c i) := by
  intro j h
  obtain ⟨hc, rfl⟩ := Machine.guardField_ok h
  exact faithful_ok hi hp (hv hc) _ rfl

theorem faithful_guardErr {w : Word32} {c : Bool} {e : DecodeError} {r : Except DecodeError Instr}
    (h : c = true → Faithful w r) : Faithful w (guardErr c e r) := by
  unfold guardErr
  split
  · next hc => exact h hc
  · exact faithful_error

/-! ### A word from its fields (R28, R31, R32) -/

theorem mkA_eq {w : Word32} {m d a b : BitVec 6} {n : BitVec 8} (hm : majorOf w = m) (hd : fd w = d) (ha : fa w = a)
    (hb : fb w = b) (hn : fm w = n) : mkA m d a b n = w := by
  subst hm hd ha hb hn
  apply BitVec.eq_of_toNat_eq
  simp only [mkA, majorOf, fd, fa, fb, fm, toNat_app, BitVec.extractLsb'_toNat, Nat.shiftRight_eq_div_pow]
  omega

theorem toNat_getLsbD {n : Nat} (x : BitVec n) (i : Nat) : (x.getLsbD i).toNat = x.toNat / 2 ^ i % 2 := by
  rw [BitVec.getLsbD, Nat.toNat_testBit]

theorem mkA7_eq {w : Word32} {m d a b : BitVec 6} {h : Bool} {n : BitVec 7} (hm : majorOf w = m) (hd : fd w = d)
    (ha : fa w = a) (hb : fb w = b) (hh : fm7 w = h) (hn : fm60 w = n) : mkA7 m d a b h n = w := by
  subst hm hd ha hb hh hn
  apply BitVec.eq_of_toNat_eq
  simp only [mkA7, majorOf, fd, fa, fb, fm7, fm60, toNat_app, BitVec.extractLsb'_toNat, Nat.shiftRight_eq_div_pow,
    BitVec.toNat_ofBool, toNat_getLsbD]
  omega

theorem mkAt_eq {w : Word32} {d a b : BitVec 6} {h : Bool} {t : AType} {n : BitVec 4} (hm : majorOf w = 0x23#6)
    (hd : fd w = d) (ha : fa w = a) (hb : fb w = b) (hh : fm7 w = h) (ht : fm64 w = t.bits) (hn : fm30 w = n) :
    mkAt d a b h t n = w := by
  subst hd ha hb hh hn
  apply BitVec.eq_of_toNat_eq
  rw [mkAt, ← hm, ← ht]
  simp only [majorOf, fd, fa, fb, fm7, fm64, fm30, toNat_app, BitVec.extractLsb'_toNat, Nat.shiftRight_eq_div_pow,
    BitVec.toNat_ofBool, toNat_getLsbD]
  omega

theorem mkTok_eq {w : Word32} {d n : BitVec 6} {f : BitVec 2} (hm : majorOf w = 0x24#6) (hd : fd w = d) (ha : fa w = 0#6)
    (hb : fb w = 0#6) (hn : fm72 w = n) (hf : fm10 w = f) : mkTok d n f = w := by
  subst hd hn hf
  apply BitVec.eq_of_toNat_eq
  rw [mkTok, ← hm]
  nth_rw 1 [← ha]
  rw [← hb]
  simp only [majorOf, fd, fa, fb, fm72, fm10, toNat_app, BitVec.extractLsb'_toNat, Nat.shiftRight_eq_div_pow]
  omega

theorem mkI_eq {w : Word32} {m d a : BitVec 6} {i : BitVec 14} (hm : majorOf w = m) (hd : fd w = d) (ha : fa w = a)
    (hi : fi w = i) : mkI m d a i = w := by
  subst hm hd ha hi
  apply BitVec.eq_of_toNat_eq
  simp only [mkI, majorOf, fd, fa, fi, toNat_app, BitVec.extractLsb'_toNat, Nat.shiftRight_eq_div_pow]
  omega

theorem mkU_eq {w : Word32} {m : BitVec 6} (hm : majorOf w = m) : mkU m (fd w) (fu w) = w := by
  subst hm
  apply BitVec.eq_of_toNat_eq
  simp only [mkU, majorOf, fd, fu, toNat_app, BitVec.extractLsb'_toNat, Nat.shiftRight_eq_div_pow]
  omega

theorem mkJ_eq {w : Word32} {m : BitVec 6} (hm : majorOf w = m) : mkJ m (fj w) = w := by
  subst hm
  apply BitVec.eq_of_toNat_eq
  simp only [mkJ, majorOf, fj, toNat_app, BitVec.extractLsb'_toNat, Nat.shiftRight_eq_div_pow]
  omega

/-- The control fields that engBits reads are bits 25:17 of the word (R31). -/
theorem bits_engBits (p : Prefixes) (w : Word32) : (engBits p w).bits = w.extractLsb' 17 9 := by
  apply BitVec.eq_of_toNat_eq
  simp only [engBits_toNat, engBits, edelay, toNat_getLsbD, BitVec.extractLsb'_toNat, Nat.shiftRight_eq_div_pow]
  omega

theorem mkE_eq {w : Word32} {p : Prefixes} {m : BitVec 6} {n : BitVec 5} {d a b : BitVec 4} (hm : majorOf w = m)
    (hn : emin w = n) (hd : ed w = d) (ha : ea w = a) (hb : eb w = b) : mkE m (engBits p w) n d a b = w := by
  subst hm hn hd ha hb
  apply BitVec.eq_of_toNat_eq
  simp only [mkE, bits_engBits, majorOf, emin, ed, ea, eb, toNat_app, BitVec.extractLsb'_toNat, Nat.shiftRight_eq_div_pow]
  omega

theorem mkN_eq {w : Word32} {p : Prefixes} {m : BitVec 6} {n : BitVec 5} {i : BitVec 12} (hm : majorOf w = m)
    (hn : emin w = n) (hi : en w = i) : mkN m (engBits p w) n i = w := by
  subst hm hn hi
  apply BitVec.eq_of_toNat_eq
  simp only [mkN, bits_engBits, majorOf, emin, en, toNat_app, BitVec.extractLsb'_toNat, Nat.shiftRight_eq_div_pow]
  omega

theorem mkX_eq {w : Word32} {p : Prefixes} {n : BitVec 5} {t : BitVec 8} {o : BitVec 4} (hm : majorOf w = 0x35#6)
    (hn : emin w = n) (ht : et w = t) (ho : eb w = o) : mkX (engBits p w) n t o = w := by
  subst hn ht ho
  apply BitVec.eq_of_toNat_eq
  rw [mkX, ← hm]
  simp only [bits_engBits, majorOf, emin, et, eb, toNat_app, BitVec.extractLsb'_toNat, Nat.shiftRight_eq_div_pow]
  omega

theorem mkM_eq {w : Word32} {p : Prefixes} {k : Bool} (hm : majorOf w = 0x34#6) (hk : w.getLsbD 16 = k) :
    mkM (engBits p w) k (w.extractLsb' 8 8) (ea w) (eb w) = w := by
  subst hk
  apply BitVec.eq_of_toNat_eq
  rw [mkM, ← hm]
  simp only [bits_engBits, majorOf, ea, eb, toNat_app, BitVec.extractLsb'_toNat, Nat.shiftRight_eq_div_pow,
    BitVec.toNat_ofBool, toNat_getLsbD]
  omega

/-! ### Fields that the decoder reads in parts -/

/-- A six-bit field that fits k bits is what its k bits widen to. -/
theorem setWidth_back {k : Nat} {x : BitVec 6} (h : x.toNat < 2 ^ k) : (x.setWidth k).setWidth 6 = x := by
  apply BitVec.eq_of_toNat_eq
  rw [BitVec.toNat_setWidth, BitVec.toNat_setWidth, Nat.mod_eq_of_lt h, Nat.mod_eq_of_lt x.isLt]

/-- A minor whose bit 7 is clear is its bits 6:0. -/
theorem toNat_fm_of_clear {w : Word32} (h : fm7 w = false) : (fm w).toNat = (fm60 w).toNat := by
  have hbit := toNat_getLsbD w 7
  rw [show w.getLsbD 7 = false from h] at hbit
  simp only [fm, fm60, BitVec.extractLsb'_toNat, Nat.shiftRight_eq_div_pow, Bool.toNat_false] at hbit ⊢
  omega

theorem bits_of_ofBits {x : BitVec 3} {t : AType} (h : AType.ofBits x = some t) : x = t.bits := by
  revert x t
  decide

theorem mkSh_extract {i : BitVec 14} {k : BitVec 2} (hz : i.extractLsb' 8 6 = 0#6) (hk : i.extractLsb' 6 2 = k) :
    i = mkSh k (i.extractLsb' 0 6) := by
  apply BitVec.eq_of_toNat_eq
  rw [mkSh, ← hz, ← hk]
  simp only [toNat_app, BitVec.extractLsb'_toNat, Nat.shiftRight_eq_div_pow]
  omega

theorem mkCsr_extract {i : BitVec 14} {k : BitVec 2} (hk : i.extractLsb' 12 2 = k) : i = mkCsr k (i.extractLsb' 0 12) := by
  apply BitVec.eq_of_toNat_eq
  rw [mkCsr, ← hk]
  simp only [toNat_app, BitVec.extractLsb'_toNat, Nat.shiftRight_eq_div_pow]
  omega

/-- The mask of a queue fence below zero bits is the low field of its word. -/
theorem en_of_mask {w : Word32} (h : w.extractLsb' 7 5 = 0#5) : en w = 0#5 ++ w.extractLsb' 0 7 := by
  apply BitVec.eq_of_toNat_eq
  rw [← h]
  simp only [en, toNat_app, BitVec.extractLsb'_toNat, Nat.shiftRight_eq_div_pow]
  omega

section
variable {w : Word32}

/-- The last arm of a match on two bits. -/
theorem eq_three_of_ne {x : BitVec 2} (h0 : x.toNat ≠ 0) (h1 : x.toNat ≠ 1) (h2 : x.toNat ≠ 2) : x = 3#2 := by
  have hlt := x.isLt
  exact BitVec.eq_of_toNat_eq (show x.toNat = 3 by omega)

/-! ### CTL words in format A -/

theorem faithful_okA {i : Instr} {m : BitVec 6} {n : BitVec 8} (hi : encodeWord i = some (mkA m (fd w) (fa w) (fb w) n))
    (hp : encodePrefixes i = []) (hm : majorOf w = m) (hn : (fm w).toNat = n.toNat) : Faithful w (.ok i) :=
  faithful_ok hi hp (mkA_eq hm rfl rfl rfl (BitVec.eq_of_toNat_eq hn))

/-- A word of format A whose checks fix or narrow its operand fields. -/
theorem faithful_guardA {i : Instr} {c : Bool} {m d a b : BitVec 6} {n : BitVec 8} (hi : encodeWord i = some (mkA m d a b n))
    (hp : encodePrefixes i = []) (hm : majorOf w = m) (hn : (fm w).toNat = n.toNat)
    (hc : c = true → fd w = d ∧ fa w = a ∧ fb w = b) : Faithful w (guardField c i) := by
  refine faithful_guardField hi hp fun h => ?_
  obtain ⟨hd, ha, hb⟩ := hc h
  exact mkA_eq hm hd ha hb (BitVec.eq_of_toNat_eq hn)

theorem faithful_decodeAlu (hm : majorOf w = 1) : Faithful w (decodeAlu w) := by
  unfold decodeAlu
  split
  case h_24 => exact faithful_error
  -- clz, ctz, popc and bswap check that field b is zero.
  case h_20 | h_21 | h_22 | h_23 => next hn => exact faithful_guardA rfl rfl hm hn (by simp)
  all_goals next hn => exact faithful_okA rfl rfl hm hn

theorem faithful_decodeMulDiv (hm : majorOf w = 10) : Faithful w (decodeMulDiv w) := by
  unfold decodeMulDiv
  split
  case h_8 => exact faithful_error
  all_goals next hn => exact faithful_okA rfl rfl hm hn

theorem faithful_decodeTables (hm : majorOf w = 37) : Faithful w (decodeTables w) := by
  unfold decodeTables
  split
  case h_7 => exact faithful_error
  case h_1 hn => exact faithful_okA rfl rfl hm hn
  all_goals next hn => exact faithful_guardA rfl rfl hm hn (by simp +contextual [setWidth_back])

theorem faithful_decodeStreams (hm : majorOf w = 38) : Faithful w (decodeStreams w) := by
  unfold decodeStreams
  split
  case h_9 => exact faithful_error
  all_goals next hn => exact faithful_guardA rfl rfl hm hn (by simp +contextual [setWidth_back])

theorem faithful_decodeTx (hm : majorOf w = 39) : Faithful w (decodeTx w) := by
  unfold decodeTx
  split
  case h_9 => exact faithful_error
  all_goals next hn => exact faithful_guardA rfl rfl hm hn (by simp +contextual [setWidth_back])

theorem faithful_decodeDomains (hm : majorOf w = 40) : Faithful w (decodeDomains w) := by
  unfold decodeDomains
  split
  case h_8 => exact faithful_error
  all_goals next hn => exact faithful_guardA rfl rfl hm hn (by simp +contextual)

theorem faithful_decodeColl (hm : majorOf w = 41) : Faithful w (decodeColl w) := by
  unfold decodeColl
  split
  case h_10 => exact faithful_error
  all_goals next hn => exact faithful_guardA rfl rfl hm hn (by simp +contextual [setWidth_back])

theorem faithful_decodeMoves (hm : majorOf w = 42) : Faithful w (decodeMoves w) := by
  unfold decodeMoves
  split
  case h_4 => exact faithful_error
  all_goals next hn => exact faithful_guardA rfl rfl hm hn (by simp +contextual [setWidth_back])

theorem faithful_decodeBlocks (hm : majorOf w = 43) : Faithful w (decodeBlocks w) := by
  unfold decodeBlocks
  split
  case h_5 => exact faithful_error
  all_goals next hn => exact faithful_guardA rfl rfl hm hn (by simp +contextual [setWidth_back])

theorem faithful_decodeSafe (hm : majorOf w = 44) : Faithful w (decodeSafe w) := by
  unfold decodeSafe
  split
  case h_4 => exact faithful_error
  all_goals next hn => exact faithful_guardA rfl rfl hm hn (by simp +contextual)

/-! ### CTL words with a split minor or immediate -/

theorem faithful_decodeFloat (hm : majorOf w = 11) : Faithful w (decodeFloat w) := by
  unfold decodeFloat
  split
  case h_21 => exact faithful_error
  -- The two conversions between the formats share an operation; bit 7 tells them apart (R43).
  case h_20 hn =>
    cases hf : fm7 w
    all_goals
      exact faithful_guardField rfl rfl fun hb =>
        mkA7_eq hm rfl rfl (beq_iff_eq.1 hb) hf (BitVec.eq_of_toNat_eq hn)
  -- The words of one operand check that field b is zero.
  case h_5 | h_12 | h_13 | h_14 | h_16 | h_17 | h_18 | h_19 =>
    next hn =>
    exact faithful_guardField rfl rfl fun hb => mkA7_eq hm rfl rfl (beq_iff_eq.1 hb) rfl (BitVec.eq_of_toNat_eq hn)
  all_goals
    next hn => exact faithful_ok rfl rfl (mkA7_eq hm rfl rfl rfl rfl (BitVec.eq_of_toNat_eq hn))

theorem faithful_decodeAtomic (hm : majorOf w = 35) : Faithful w (decodeAtomic w) := by
  unfold decodeAtomic
  split
  · exact faithful_error
  next t ht =>
  have ht := bits_of_ofBits ht
  split
  · next hr =>
    split
    case h_7 => exact faithful_error
    all_goals
      next hn =>
      exact faithful_guardField rfl rfl fun hd =>
        mkAt_eq hm (beq_iff_eq.1 hd) rfl rfl hr ht (BitVec.eq_of_toNat_eq hn)
  · next hr =>
    have hr := Bool.eq_false_iff.2 hr
    split
    case h_9 => exact faithful_error
    all_goals
      next hn => exact faithful_ok rfl rfl (mkAt_eq hm rfl rfl rfl hr ht (BitVec.eq_of_toNat_eq hn))

/-- A word of major 0x24 whose checks fix its operand fields. -/
theorem faithful_guardTok {i : Instr} {c : Bool} {d n : BitVec 6} {f : BitVec 2} (hi : encodeWord i = some (mkTok d n f))
    (hp : encodePrefixes i = []) (hm : majorOf w = 36) (hn : (fm72 w).toNat = n.toNat) (hf : fm10 w = f)
    (hc : c = true → fd w = d ∧ fa w = 0 ∧ fb w = 0) : Faithful w (guardField c i) := by
  refine faithful_guardField hi hp fun h => ?_
  obtain ⟨hd, ha, hb⟩ := hc h
  exact mkTok_eq hm hd ha hb (BitVec.eq_of_toNat_eq hn) hf

theorem faithful_decodeTokens (hm : majorOf w = 36) : Faithful w (decodeTokens w) := by
  unfold decodeTokens
  split
  case h_5 => exact faithful_error
  case h_4 hn =>
    split
    case h_4 h0 h1 h2 => exact faithful_guardTok rfl rfl hm hn (eq_three_of_ne h0 h1 h2) (by simp)
    all_goals next hf => exact faithful_guardTok rfl rfl hm hn (BitVec.eq_of_toNat_eq hf) (by simp)
  all_goals next hn => exact faithful_guardTok rfl rfl hm hn rfl (by simp +contextual)

theorem faithful_decodeSystem (hm : majorOf w = 34) : Faithful w (decodeSystem w) := by
  unfold decodeSystem
  split
  · next h7 =>
    refine faithful_guardField rfl rfl fun hc => ?_
    simp only [Bool.and_eq_true, beq_iff_eq] at hc
    obtain ⟨⟨hd, ha⟩, hb⟩ := hc
    exact mkA7_eq hm hd ha hb h7 rfl
  · next h7 =>
    have hlow := toNat_fm_of_clear (Bool.eq_false_iff.2 h7)
    split
    case h_16 => exact faithful_error
    all_goals next hn => exact faithful_guardA rfl rfl hm (hlow.trans hn) (by simp +contextual)

theorem faithful_decodeShift (hm : majorOf w = 6) : Faithful w (decodeShift w) := by
  refine faithful_guardErr fun hz => ?_
  split
  case h_4 => exact faithful_error
  all_goals
    next hk =>
    exact faithful_ok rfl rfl (mkI_eq hm rfl rfl (mkSh_extract (beq_iff_eq.1 hz) (BitVec.eq_of_toNat_eq hk)))

theorem faithful_decodeCsr (hm : majorOf w = 33) : Faithful w (decodeCsr w) := by
  unfold decodeCsr
  split
  case h_1 hk =>
    exact faithful_guardField rfl rfl fun ha =>
      mkI_eq hm rfl (beq_iff_eq.1 ha) (mkCsr_extract (BitVec.eq_of_toNat_eq hk))
  case h_4 h0 h1 h2 => exact faithful_ok rfl rfl (mkI_eq hm rfl rfl (mkCsr_extract (eq_three_of_ne h0 h1 h2)))
  all_goals
    next hk => exact faithful_ok rfl rfl (mkI_eq hm rfl rfl (mkCsr_extract (BitVec.eq_of_toNat_eq hk)))

/-- Every word that CTL executes, major by major (R41). -/
theorem faithful_decodeCtl : Faithful w (decodeCtl w none) := by
  unfold decodeCtl
  split
  case h_44 => exact faithful_error
  case h_1 hm => exact faithful_decodeAlu (BitVec.eq_of_toNat_eq hm)
  case h_6 hm => exact faithful_decodeShift (BitVec.eq_of_toNat_eq hm)
  case h_10 hm => exact faithful_decodeMulDiv (BitVec.eq_of_toNat_eq hm)
  case h_11 hm => exact faithful_decodeFloat (BitVec.eq_of_toNat_eq hm)
  case h_32 hm => exact faithful_decodeCsr (BitVec.eq_of_toNat_eq hm)
  case h_33 hm => exact faithful_decodeSystem (BitVec.eq_of_toNat_eq hm)
  case h_34 hm => exact faithful_decodeAtomic (BitVec.eq_of_toNat_eq hm)
  case h_35 hm => exact faithful_decodeTokens (BitVec.eq_of_toNat_eq hm)
  case h_36 hm => exact faithful_decodeTables (BitVec.eq_of_toNat_eq hm)
  case h_37 hm => exact faithful_decodeStreams (BitVec.eq_of_toNat_eq hm)
  case h_38 hm => exact faithful_decodeTx (BitVec.eq_of_toNat_eq hm)
  case h_39 hm => exact faithful_decodeDomains (BitVec.eq_of_toNat_eq hm)
  case h_40 hm => exact faithful_decodeColl (BitVec.eq_of_toNat_eq hm)
  case h_41 hm => exact faithful_decodeMoves (BitVec.eq_of_toNat_eq hm)
  case h_42 hm => exact faithful_decodeBlocks (BitVec.eq_of_toNat_eq hm)
  case h_43 hm => exact faithful_decodeSafe (BitVec.eq_of_toNat_eq hm)
  case h_8 | h_9 => next hm => exact faithful_ok rfl rfl (mkU_eq (BitVec.eq_of_toNat_eq hm))
  case h_29 | h_30 => next hm => exact faithful_ok rfl rfl (mkJ_eq (BitVec.eq_of_toNat_eq hm))
  all_goals
    next hm => exact faithful_ok rfl rfl (mkI_eq (BitVec.eq_of_toNat_eq hm) rfl rfl rfl)

/-! ### Engine words -/

theorem faithful_okE {i : Instr} {p : Prefixes} {m : BitVec 6} {n : BitVec 5}
    (hi : encodeWord i = some (mkE m (engBits p w) n (ed w) (ea w) (eb w)))
    (hp : encodePrefixes i = []) (hm : majorOf w = m) (hn : (emin w).toNat = n.toNat) : Faithful w (.ok i) :=
  faithful_ok hi hp (mkE_eq hm (BitVec.eq_of_toNat_eq hn) rfl rfl rfl)

/-- An engine word whose checks fix some of its operand fields. -/
theorem faithful_guardE {i : Instr} {c : Bool} {p : Prefixes} {m : BitVec 6} {n : BitVec 5} {d a b : BitVec 4}
    (hi : encodeWord i = some (mkE m (engBits p w) n d a b)) (hp : encodePrefixes i = []) (hm : majorOf w = m)
    (hn : (emin w).toNat = n.toNat) (hc : c = true → ed w = d ∧ ea w = a ∧ eb w = b) : Faithful w (guardField c i) := by
  refine faithful_guardField hi hp fun h => ?_
  obtain ⟨hd, ha, hb⟩ := hc h
  exact mkE_eq hm (BitVec.eq_of_toNat_eq hn) hd ha hb

/-- A wait word takes its whole low field. -/
theorem faithful_wait {i : Instr} {p : Prefixes} {m : BitVec 6} {n : BitVec 5}
    (hi : encodeWord i = some (mkN m (engBits p w) n (en w))) (hp : encodePrefixes i = []) (hm : majorOf w = m)
    (hn : (emin w).toNat = n.toNat) : Faithful w (.ok i) :=
  faithful_ok hi hp (mkN_eq hm (BitVec.eq_of_toNat_eq hn) rfl)

/-- A queue fence has zeros above its mask. -/
theorem faithful_qfence {i : Instr} {p : Prefixes} {m : BitVec 6} {n : BitVec 5}
    (hi : encodeWord i = some (mkN m (engBits p w) n (0#5 ++ w.extractLsb' 0 7))) (hp : encodePrefixes i = [])
    (hm : majorOf w = m) (hn : (emin w).toNat = n.toNat) : Faithful w (guardField (w.extractLsb' 7 5 == 0) i) :=
  faithful_guardField hi hp fun hz => mkN_eq hm (BitVec.eq_of_toNat_eq hn) (en_of_mask (beq_iff_eq.1 hz))

theorem faithful_decodeCopyIn (hm : majorOf w = 48) : Faithful w (decodeCopyIn w (engBits .empty w)) := by
  unfold decodeCopyIn
  split
  case h_5 => exact faithful_error
  all_goals next hn => exact faithful_guardE rfl rfl hm hn (by simp +contextual)

theorem faithful_decodeRing (hm : majorOf w = 49) : Faithful w (decodeRing w (engBits .empty w)) := by
  unfold decodeRing
  split
  case h_4 => exact faithful_error
  case h_2 hn => exact faithful_okE rfl rfl hm hn
  all_goals next hn => exact faithful_guardE rfl rfl hm hn (by simp +contextual)

theorem faithful_decodeRecv (hm : majorOf w = 50) : Faithful w (decodeRecv w (engBits .empty w)) := by
  unfold decodeRecv
  split
  case h_4 => exact faithful_error
  all_goals next hn => exact faithful_guardE rfl rfl hm hn (by simp +contextual)

theorem faithful_decodeLdWait (hm : majorOf w = 51) : Faithful w (decodeLdWait w (engBits .empty w)) := by
  unfold decodeLdWait
  split
  · next hn => exact faithful_wait rfl rfl hm hn
  · next hn => exact faithful_qfence rfl rfl hm hn
  · exact faithful_error

theorem faithful_decodeMma (hm : majorOf w = 52) : Faithful w (decodeMma w (engBits .empty w)) := by
  unfold decodeMma
  split
  · next hk => exact faithful_ok rfl rfl (mkM_eq hm hk)
  · next hk => exact faithful_ok rfl rfl (mkM_eq hm (Bool.eq_false_iff.2 hk))

theorem faithful_decodeMx (hm : majorOf w = 53) : Faithful w (decodeMx w (engBits .empty w)) := by
  unfold decodeMx
  split
  case h_9 => exact faithful_error
  case h_2 | h_7 =>
    next hn =>
    exact faithful_guardField rfl rfl fun ho => mkX_eq hm (BitVec.eq_of_toNat_eq hn) rfl (beq_iff_eq.1 ho)
  case h_8 hn =>
    exact faithful_guardField rfl rfl fun ht => mkX_eq hm (BitVec.eq_of_toNat_eq hn) (beq_iff_eq.1 ht) rfl
  all_goals next hn => exact faithful_ok rfl rfl (mkX_eq hm (BitVec.eq_of_toNat_eq hn) rfl rfl)

theorem faithful_decodeArith (hm : majorOf w = 54) : Faithful w (decodeArith w (engBits .empty w)) := by
  unfold decodeArith
  split
  case h_15 => exact faithful_error
  case h_7 | h_8 => next hn => exact faithful_guardE rfl rfl hm hn (by simp)
  all_goals next hn => exact faithful_okE rfl rfl hm hn

theorem faithful_decodeLogic (hm : majorOf w = 55) : Faithful w (decodeLogic w (engBits .empty w)) := by
  unfold decodeLogic
  split
  case h_17 => exact faithful_error
  case h_9 | h_16 => next hn => exact faithful_guardE rfl rfl hm hn (by simp)
  all_goals next hn => exact faithful_okE rfl rfl hm hn

theorem faithful_decodeConvert (hm : majorOf w = 56) : Faithful w (decodeConvert w (engBits .empty w)) := by
  unfold decodeConvert
  split
  case h_10 => exact faithful_error
  case h_4 | h_5 | h_7 => next hn => exact faithful_okE rfl rfl hm hn
  all_goals next hn => exact faithful_guardE rfl rfl hm hn (by simp +contextual)

theorem faithful_decodeFunc (hm : majorOf w = 57) : Faithful w (decodeFunc w (engBits .empty w)) := by
  unfold decodeFunc
  split
  case h_19 => exact faithful_error
  all_goals next hn => exact faithful_guardE rfl rfl hm hn (by simp)

theorem faithful_decodeReduce (hm : majorOf w = 58) : Faithful w (decodeReduce w (engBits .empty w)) := by
  unfold decodeReduce
  split
  case h_10 => exact faithful_error
  case h_7 hn => exact faithful_okE rfl rfl hm hn
  all_goals next hn => exact faithful_guardE rfl rfl hm hn (by simp)

theorem faithful_decodeCmpWait (hm : majorOf w = 59) : Faithful w (decodeCmpWait w (engBits .empty w)) := by
  unfold decodeCmpWait
  split
  · next hn => exact faithful_wait rfl rfl hm hn
  · next hn => exact faithful_qfence rfl rfl hm hn
  · exact faithful_error

theorem faithful_decodeCopyOut (hm : majorOf w = 60) : Faithful w (decodeCopyOut w (engBits .empty w)) := by
  unfold decodeCopyOut
  split
  case h_5 => exact faithful_error
  all_goals next hn => exact faithful_guardE rfl rfl hm hn (by simp +contextual)

theorem faithful_decodeSend (hm : majorOf w = 61) : Faithful w (decodeSend w (engBits .empty w)) := by
  unfold decodeSend
  split
  case h_6 => exact faithful_error
  case h_4 hn => exact faithful_wait rfl rfl hm hn
  case h_5 hn => exact faithful_qfence rfl rfl hm hn
  all_goals next hn => exact faithful_guardE rfl rfl hm hn (by simp +contextual)

theorem faithful_decodeEngineCore : Faithful w (decodeEngineCore w (engBits .empty w)) := by
  unfold decodeEngineCore
  split
  case h_1 hm => exact faithful_decodeCopyIn (BitVec.eq_of_toNat_eq hm)
  case h_2 hm => exact faithful_decodeRing (BitVec.eq_of_toNat_eq hm)
  case h_3 hm => exact faithful_decodeRecv (BitVec.eq_of_toNat_eq hm)
  case h_4 hm => exact faithful_decodeLdWait (BitVec.eq_of_toNat_eq hm)
  case h_5 hm => exact faithful_decodeMma (BitVec.eq_of_toNat_eq hm)
  case h_6 hm => exact faithful_decodeMx (BitVec.eq_of_toNat_eq hm)
  case h_7 hm => exact faithful_decodeArith (BitVec.eq_of_toNat_eq hm)
  case h_8 hm => exact faithful_decodeLogic (BitVec.eq_of_toNat_eq hm)
  case h_9 hm => exact faithful_decodeConvert (BitVec.eq_of_toNat_eq hm)
  case h_10 hm => exact faithful_decodeReduce (BitVec.eq_of_toNat_eq hm)
  case h_11 hm => exact faithful_decodeCmpWait (BitVec.eq_of_toNat_eq hm)
  case h_12 hm => exact faithful_decodeCopyOut (BitVec.eq_of_toNat_eq hm)
  case h_13 hm => exact faithful_decodeSend (BitVec.eq_of_toNat_eq hm)
  case h_14 => exact faithful_error

/-- Every word that CTL passes to a queue, major by major (R41). -/
theorem faithful_decodeEngine : Faithful w (decodeEngine w (engBits .empty w)) := by
  unfold decodeEngine
  split
  · next hm => exact faithful_decodeFunc (BitVec.eq_of_toNat_eq hm)
  · exact faithful_decodeEngineCore

end

/-! ### Words of the whole decoder -/

/-- One word that is an instruction by itself is not of major 0x3E, and nothing stands before it (R34, R39). -/
theorem decodeWord_of_single {w : Word32} {i : Instr} {n : Nat} (h : decodeWords [w] = .ok (i, n)) :
    decodeWord .empty w = .ok i := by
  cases hx : isExt w with
  | true =>
    cases hp : Prefixes.empty.add w <;> simp [decodeWords, splitWords, hx, hp] at h
  | false =>
    simp only [decodeWords, splitWords, hx, Bool.false_eq_true, if_false] at h
    split at h
    · next j hj =>
      cases h
      exact hj
    · cases h

/-- A word that decodes has a legal arrangement before it, and its decoder's answer meets the instruction's own checks (R39, R41). -/
theorem decodeWord_ok {p : Prefixes} {w : Word32} {i : Instr} (h : decodeWord p w = .ok i) :
    prefixLegal p w = true ∧
      wfOr (if engMajor (majorOf w).toNat then decodeEngine w (engBits p w) else decodeCtl w p.imm) = .ok i := by
  unfold decodeWord at h
  split at h
  · next hp => exact ⟨hp, h⟩
  · cases h

/-- Settles O23: the word goes to the decoder of CTL or of the queues, each faithful, and then meets the instruction's own checks. -/
theorem encodeOfDecode : Obligations.EncodeOfDecode := by
  unfold Obligations.EncodeOfDecode
  intro w i h
  obtain ⟨-, hd⟩ := decodeWord_ok (decodeWord_of_single h)
  obtain ⟨hi, hwf⟩ := Machine.wfOr_ok hd
  refine ⟨?_, hwf⟩
  split at hi
  · exact faithful_decodeEngine i hi
  · exact faithful_decodeCtl i hi

end Sys2Proof.Laws
end

section
/-! The one-beat integer words with an immediate (R118): what a word that writes one register leaves as it was, and the model's
immediates as the integers of R29 and R35. -/

namespace Sys2Proof.Machine

/-! ### One-beat words of CTL: what they write and what they leave -/

@[simp] theorem xr_charge (s : State) (c : EClass) (n : Nat) (r : BitVec 6) : xr (charge s c n) r = xr s r := by
  simp [xr]

@[simp] theorem xr_retireTo (s : State) (pc : Word64) (r : BitVec 6) : xr (retireTo s pc) r = xr s r := rfl

theorem writesX_setX (s : State) (c : EClass) (d : BitVec 6) (v pc : Word64) :
    writesX s (retireTo (setX (charge s c) d v) pc) d v := by
  refine ⟨?_, fun r hr => ?_⟩
  · by_cases hd : d = 0#6
    · simp [hd, xr]
    · simp [xr_setX, hd]
  · simp [xr_setX, hr]

theorem keepsBytes_setX (s : State) (c : EClass) (d : BitVec 6) (v pc : Word64) :
    keepsBytes s (retireTo (setX (charge s c) d v) pc) :=
  ⟨fun a => by simp [physByte], fun a => by simp⟩

theorem ctlStep_setX (s : State) (c : EClass) (d : BitVec 6) (v n : Word64) :
    ctlStep s (retireTo (setX (charge s c) d v) (s.vc.ctl.pc + n)) c n := by
  unfold ctlStep retireTo setX
  split <;> simp

/-- A word that charges one event of class c, writes xd and goes on n bytes further. -/
theorem setX_step (s : State) (c : EClass) (d : BitVec 6) (v n : Word64) :
    let t := retireTo (setX (charge s c) d v) (s.vc.ctl.pc + n)
    writesX s t d v ∧ ctlStep s t c n ∧ keepsBytes s t :=
  ⟨writesX_setX .., ctlStep_setX .., keepsBytes_setX ..⟩

theorem retire_setX_charge (s : State) (c : EClass) (d : BitVec 6) (v : Word64) :
    retire (setX (charge s c) d v) = retireTo (setX (charge s c) d v) (s.vc.ctl.pc + 4) := by
  simp [retire]

theorem intOp_step (s : State) (d : BitVec 6) (v : Word64) :
    ∃ t, intOp s d v = .next t ∧ writesX s t d v ∧ ctlStep s t .eint 4 ∧ keepsBytes s t := by
  rw [intOp, retire_setX_charge]
  exact ⟨_, rfl, setX_step ..⟩

theorem intOpExt_step (s : State) (d : BitVec 6) (v : Word64) (ext : Option (BitVec 24)) :
    ∃ t, intOpExt s d v ext = .next t ∧ writesX s t d v ∧ ctlStep s t .eint (lengthOf ext) ∧ keepsBytes s t :=
  ⟨_, rfl, setX_step ..⟩

/-! ### Immediates as integers (R29, R35) -/

theorem toInt_imm14 (i : BitVec 14) (ext : Option (BitVec 24)) : (imm14 i ext).toInt = immValue i ext := by
  cases ext <;> exact BitVec.toInt_signExtend_of_le (by decide)

theorem ofInt_immValue (i : BitVec 14) (ext : Option (BitVec 24)) : BitVec.ofInt 64 (immValue i ext) = imm14 i ext := by
  rw [← toInt_imm14, BitVec.ofInt_toInt]

theorem ofInt_add_immValue (a : Word64) (i : BitVec 14) (ext : Option (BitVec 24)) :
    BitVec.ofInt 64 (a.toInt + immValue i ext) = a + imm14 i ext := by
  rw [BitVec.ofInt_add, BitVec.ofInt_toInt, ofInt_immValue]

theorem ofInt_shiftLeft (x : Int) (k : Nat) : BitVec.ofInt 64 x <<< k = BitVec.ofInt 64 (x * 2 ^ k) := by
  have hpow : BitVec.twoPow 64 k = BitVec.ofInt 64 (2 ^ k) := by
    apply BitVec.eq_of_toNat_eq
    rw [show (2 : Int) ^ k = ((2 ^ k : Nat) : Int) by norm_cast, BitVec.ofInt_natCast, BitVec.toNat_twoPow, BitVec.toNat_ofNat]
  rw [BitVec.shiftLeft_eq_mul_twoPow, BitVec.ofInt_mul, hpow]

/-- The model widens the immediate first and shifts it then. -/
theorem ofInt_immHigh (u : BitVec 20) (ext : Option (BitVec 24)) : BitVec.ofInt 64 (immHigh u ext * 2 ^ 14) = imm20 u ext := by
  cases ext <;> exact (ofInt_shiftLeft _ 14).symm

theorem wordAddr_eq_addressOf (s : State) (ext : Option (BitVec 24)) : wordAddr s ext = addressOf s ext := by
  cases ext
  · exact BitVec.add_zero _
  · rfl

theorem ofInt_addressOf_add_immHigh (s : State) (u : BitVec 20) (ext : Option (BitVec 24)) :
    BitVec.ofInt 64 ((addressOf s ext).toInt + immHigh u ext * 2 ^ 14) = wordAddr s ext + imm20 u ext := by
  rw [BitVec.ofInt_add, BitVec.ofInt_toInt, ofInt_immHigh, wordAddr_eq_addressOf]

/-! ### Comparisons and shifts as integers (R117, R118) -/

theorem ite_lt_immValue (a : Word64) (i : BitVec 14) (ext : Option (BitVec 24)) :
    (if a.toInt < immValue i ext then 1 else 0) = ofBool64 (a.slt (imm14 i ext)) := by
  simp [ofBool64, BitVec.slt, toInt_imm14]

theorem shiftLeft_eq_w64 (a : Word64) (k : Nat) : a <<< k = w64 (a.toNat * 2 ^ k % 2 ^ 64) := by
  apply BitVec.eq_of_toNat_eq
  simp [w64, Nat.shiftLeft_eq]

theorem ushiftRight_eq_w64 (a : Word64) (k : Nat) : a >>> k = w64 (a.toNat / 2 ^ k) := by
  rw [w64, ← Nat.shiftRight_eq_div_pow, ← BitVec.toNat_ushiftRight, BitVec.ofNat_toNat, BitVec.setWidth_eq]

theorem sshiftRight_eq_ofInt (a : Word64) (k : Nat) : a.sshiftRight k = BitVec.ofInt 64 (a.toInt / 2 ^ k) := by
  rw [BitVec.sshiftRight, Int.shiftRight_eq_div_pow]
  norm_cast

/-- Settles O2: every word is a one-beat integer word, with the value of R118 once the model's immediate is read as an integer. -/
theorem intImmediateWords : Obligations.IntImmediateWords := by
  unfold Obligations.IntImmediateWords
  intro s d a n i u ext
  dsimp only
  constructor
  · simp only [List.forall_mem_cons, ofInt_add_immValue, ofInt_immValue, ite_lt_immValue, ofInt_immHigh,
      ofInt_addressOf_add_immHigh]
    exact ⟨intOpExt_step .., intOpExt_step .., intOpExt_step .., intOpExt_step .., intOpExt_step .., intOpExt_step ..,
      intOpExt_step .., List.forall_mem_nil _⟩
  · simp only [List.forall_mem_cons, ← shiftLeft_eq_w64, ← ushiftRight_eq_w64, ← sshiftRight_eq_ofInt]
    exact ⟨intOp_step .., intOp_step .., intOp_step .., List.forall_mem_nil _⟩

end Sys2Proof.Machine
end

section
/-! What one step runs: the turns of CTL, of a queue and of the hub (R88, R112, R406). -/

namespace Sys2Proof.Machine

/-! ### Turns -/

theorem andThen_assoc (o : Out) (f g : State → Out) : andThen (andThen o f) g = andThen o (fun t => andThen (f t) g) := by
  cases o <;> rfl

/-- A step is the turn of the agent whose turn it is, and then the turn passes on. -/
theorem step_eq (s : State) : step s = andThen (agentBeat s.mover s) (fun t => .next (passOn s.mover t)) := by
  unfold step
  cases agentBeat s.mover s <;> rfl

/-- With no breakpoint set, looking for one changes nothing (R403). -/
theorem breakAt_of_no_breakpoint {s : State} (h : s.part.bp = []) (e : Nat × Nat × Nat) : breakAt e s = .next s := by
  simp [breakAt, h]

/-! ### The turn of CTL -/

theorem hitBeat_of_no_upset {s : State} (h : s.upsets = []) : hitBeat s = .next s := by
  simp [hitBeat, nextHit, h]

theorem ctlRuns_of_unstopped {s : State} (hrun : s.vc.run = .running) (hf : s.vc.faults = []) (hstop : s.vc.stop = [])
    (hheld : s.vc.held = false) (hz : frozenNow s = false) : ctlRuns s = true := by
  simp [ctlRuns, hrun, hf, hstop, hheld, hz]

/-- With no physical error and no fault, CTL's turn is an instruction (R374). -/
theorem ctlTurn_eq_ctlGoes {s : State} (hu : s.upsets = []) (hf : s.vc.faults = []) (hr : ctlRuns s = true) :
    ctlTurn s = ctlGoes s := by
  have hit : (if standing s then .next s else hitBeat s) = Host.Outcome.next s := by
    rw [hitBeat_of_no_upset hu, ite_self]
  unfold ctlTurn
  rw [hit]
  simp [andThen, hf, hr]

/-- The breakpoints have looked at the instruction: CTL executes it and notes what it did (R389, R403). -/
theorem ctlGoes_of_seen {s : State} (hs : s.vc.ctlSeen = true) (hr : ctlRuns s = true) :
    ctlGoes s = andThen (ctlExec s) (fun u => .next (noteRetired s u)) := by
  simp [ctlGoes, seeNext, andThen, hs, hr]

/-- With no breakpoint set, the look at the instruction only notes itself (R403). -/
theorem seeNext_of_no_breakpoint {s : State} (h : s.part.bp = []) : seeNext s = .next { s with vc.ctlSeen := true } := by
  unfold seeNext
  split
  · next hs => rw [← hs]
  · exact breakAt_of_no_breakpoint (s := { s with vc.ctlSeen := true }) h _

theorem ctlGoes_of_no_breakpoint {s : State} (h : s.part.bp = []) (b : Bool) :
    ctlGoes { s with vc.ctlSeen := b } = ctlGoes s := by
  unfold ctlGoes
  rw [seeNext_of_no_breakpoint (s := { s with vc.ctlSeen := b }) h, seeNext_of_no_breakpoint h]

theorem ctlExec_of_fetched {s s1 : State} {ws : List Word32} (h : fetchWords s s.vc.ctl.pc 3 = .ok s1 ws) :
    ctlExec s = ctlWord s s1 ws := by
  rw [ctlExec, h]

/-- A word of CTL that decodes: CTL executes the instruction (R41, R112). -/
theorem ctlWord_of_ctl {s s1 : State} {ws : List Word32} {p : Prefixes} {w : Word32} {n : Nat} {i : Instr}
    (hw : splitWords ws = .ok (p, w, n)) (he : engMajor (majorOf w).toNat = false) (hi : decodeWord p w = .ok i) :
    ctlWord s s1 ws = andThen (exec i s1) (fun t => .next (tellRetired s t)) := by
  obtain ⟨hp, hd⟩ := Laws.decodeWord_ok hi
  rw [if_neg (Bool.eq_false_iff.mp he)] at hd
  simp [ctlWord, hw, he, hp, hd]

/-- A word of a queue: CTL passes it on (R41, R86). -/
theorem ctlWord_of_eng {s s1 : State} {ws : List Word32} {p : Prefixes} {w : Word32} {n : Nat}
    (hw : splitWords ws = .ok (p, w, n)) (he : engMajor (majorOf w).toNat = true) :
    ctlWord s s1 ws = exec .engineWordRoute s := by
  rw [ctlWord, hw]
  exact if_pos he

/-! ### The turn of a queue -/

/-- The note of an issue with no breakpoint set: nothing but the bits of R400 can differ. -/
theorem noteHead_of_no_breakpoint {t : State} (h : t.part.bp = []) (q : Queue) (x : QEntry) (s : State) :
    ∃ k, noteHead q x s t = .next { t with vc.issuedNow := k } := by
  by_cases hl : (stillHead t q x).isNone = true
  · refine ⟨t.vc.issuedNow ||| issueBits q x, ?_⟩
    simp [noteHead, hl, breakAt, h]
  · refine ⟨t.vc.issuedNow, ?_⟩
    simp [noteHead, hl, breakAt, h]

/-- The turn of a queue is exec of the instruction at its head, and then the note of what it did (R88, R400). -/
theorem queueBeat_eq {s : State} {q : Queue} {x : QEntry} {i : Instr} (hx : headOf s q = some x) (hb : x.bad = false)
    (hq : q = .vx ∨ q = .fx ∨ q = .rx → x.shared = false ∧ sharedIssued s = false)
    (he : engMajor (majorOf x.word).toNat = true)
    (hi : decodeWord { imm := none, stamp := x.stamp, param := none, metaP := x.metaP } x.word = .ok i) :
    queueBeat q s = andThen (exec i s) (noteHead q x s) := by
  have hw : wfOr (decodeEngine x.word (entryBits9 x)) = .ok i := by
    obtain ⟨-, hd⟩ := Laws.decodeWord_ok hi
    rwa [if_pos he] at hd
  have hcol : ([Queue.vx, .fx, .rx].contains q && (x.shared || sharedIssued s)) = false := by
    cases q <;> simp_all
  unfold queueBeat
  rw [hx]
  dsimp only
  rw [if_neg (Bool.eq_false_iff.mp hcol), execHead_eq hb hw]

theorem step_queue {s : State} {q : Queue} (hm : s.mover = .queue q) :
    step s = andThen (queueBeat q s) (fun u => .next { u with mover := (Mover.queue q).after }) := by
  rw [step_eq, hm]
  rfl

theorem step_ctl {s : State} (hm : s.mover = .ctl) :
    step s = andThen (ctlTurn s) (fun u => .next { u with mover := .post }) := by
  rw [step_eq, hm]
  rfl

theorem step_hub {s : State} (hm : s.mover = .hub) : step s = hubBeat s := by
  rw [step_eq, hm]
  show andThen (hubBeat s) _ = _
  cases hubBeat s <;> rfl

/-! ### The turn of the hub -/

/-- An input for the virtual core and the partition in focus is exec of its row. -/
theorem inboxRow_in_focus {s t : State} {r : Row} (ho : outsideRow r.row = true) (hp : r.part = s.part.idx)
    (hv : r.vc = s.vc.id) (h : exec r.row s = .next t) (htp : t.part.idx = s.part.idx) (htv : t.vc.id = s.vc.id) :
    inboxRow r s = .next t := by
  simp [inboxRow, ho, onPart, onVC, focusPart, focusVC, hp, hv, h, htp, htv]

/-- Settles O58: the turns of CTL, of a queue and of the hub, each by its lemmas. Whose turn comes next, and which rows the hub
takes from outside, are the model's choices (logs 4 and 52). -/
theorem stepRuns : Obligations.StepRuns := by
  unfold Obligations.StepRuns
  refine ⟨?ctl, ?queue, ?row, ?read, ?retire⟩
  case ctl =>
    intro s s1 ws p w n hm hrun hf hstop hheld hz hu hseen hfetch hsplit
    have hr := ctlRuns_of_unstopped hrun hf hstop hheld hz
    have hstep : step s = andThen (ctlWord s s1 ws) (fun t => .next { noteRetired s t with mover := .post }) := by
      rw [step_ctl hm, ctlTurn_eq_ctlGoes hu hf hr, ctlGoes_of_seen hseen hr, ctlExec_of_fetched hfetch, andThen_assoc]
      rfl
    refine ⟨fun i he hi => ?_, fun he => ?_, fun hbp => ?_⟩
    · rw [hstep, ctlWord_of_ctl hsplit he hi]
    · rw [hstep, ctlWord_of_eng hsplit he]
    · have hr' : ctlRuns { s with vc.ctlSeen := false } = true := hr
      rw [step_ctl hm, step_ctl (s := { s with vc.ctlSeen := false }) hm, ctlTurn_eq_ctlGoes hu hf hr,
        ctlTurn_eq_ctlGoes (s := { s with vc.ctlSeen := false }) hu hf hr', ctlGoes_of_no_breakpoint hbp]
  case queue =>
    intro s q x i hm hx hb hq he hi
    have hstep := step_queue hm
    rw [queueBeat_eq hx hb hq he hi] at hstep
    refine ⟨fun t ht => ⟨?_, fun hbp => noteHead_of_no_breakpoint hbp q x s⟩, fun f hf => ?_, fun r hr => ?_⟩
    · rw [hstep, ht]
      rfl
    · rw [hstep, hf]
      rfl
    · rw [hstep, hr]
      rfl
  case row =>
    intro s t r rest hm hin ho hp hv ht htp htv
    rw [step_hub hm, hubBeat, hin]
    exact inboxRow_in_focus (s := { s with inbox := rest }) ho hp hv ht htp htv
  case read =>
    intro s fn r rest hm hin
    rw [step_hub hm, hubBeat, hin]
  case retire =>
    intro s v rest hm hin
    rw [step_hub hm, hubBeat, hin]

end Sys2Proof.Machine
end

section
/-! The stream registers (R60 to R67): what zset writes, refuses or waits for, and what zget reads. -/

namespace Sys2Proof.Machine

open Sys2Proof.Laws

/-! ### Words of CTL that write no x register -/

theorem keepsX_sysNext {s u : State} (h : u.vc.ctl.x = s.vc.ctl.x) : keepsX s (retire (charge u .sys)) :=
  fun r => by simp [xr, h]

theorem keepsBytes_sysNext {s u : State} (hm : u.part.mem = s.part.mem) (hc : u.vc.chip = s.vc.chip) :
    keepsBytes s (retire (charge u .sys)) :=
  ⟨fun a => by simp [physByte, hm], fun a => by simp [hc]⟩

theorem ctlStep_sysNext (s : State) : ctlStep s (retire (charge s .sys)) .sys 4 := by
  simp [ctlStep, retire, retireTo]

/-! ### Stream registers -/

theorem zsetOp_rejected {s : State} {k : Nat} {z : BitVec 4} {a : BitVec 6} (hh : s.vc.ctl.h = false)
    (hok : zsetOk k (xr s a) = false) : zsetOp s k z a = ctlFault s 0x08 0 0 := by
  simp [zsetOp, restricted_outside hh, hok]

theorem zsetOp_full {s : State} {k : Nat} {z : BitVec 4} {a : BitVec 6} (hh : s.vc.ctl.h = false)
    (hok : zsetOk k (xr s a) = true) (hf : s.vc.zFull z.toNat = true) : zsetOp s k z a = .next s := by
  simp [zsetOp, restricted_outside hh, hok, hf]

theorem zsetOp_taken {s : State} {k : Nat} {z : BitVec 4} {a : BitVec 6} (hh : s.vc.ctl.h = false)
    (hok : zsetOk k (xr s a) = true) (hf : s.vc.zFull z.toNat = false) :
    zsetOp s k z a = sysNext { s with vc := s.vc.zset z.toNat k (xr s a) } := by
  simp [zsetOp, restricted_outside hh, hok, hf]

/-- What a zset word leaves behind: word k of z is v in a new newest version, and the runs may note that CTL wrote it (R67, R68). -/
def zsetDone (s t : State) (z k : Nat) (v : Word64) : Prop :=
  keepsX s t ∧ keepsBytes s t ∧ mget 0 t.vc.z (8 * z + k) = v ∧
    (∀ i, i ≠ 8 * z + k → mget 0 t.vc.z i = mget 0 s.vc.z i) ∧
    mget 0 t.vc.zver z = mget 0 s.vc.zver z + 1 ∧ (∀ i, i ≠ z → mget 0 t.vc.zver i = mget 0 s.vc.zver i) ∧
    ctlStep { s with vc.z := t.vc.z, vc.zver := t.vc.zver, vc.tbl.runs := t.vc.tbl.runs } t .sys 4

theorem zsetDone_sysNext (s : State) (z k : Nat) (v : Word64) :
    zsetDone s (retire (charge { s with vc := s.vc.zset z k v } .sys)) z k v := by
  refine ⟨keepsX_sysNext rfl, keepsBytes_sysNext rfl rfl, ?word, ?words, ?version, ?versions, ?step⟩
  case word => simp [VC.zset]
  case words => exact fun i hi => by simp [VC.zset, hi]
  case version => simp [VC.zset, VC.zverOf]
  case versions => exact fun i hi => by simp [VC.zset, hi]
  case step =>
    simp only [retire_vc_z, retire_vc_zver, retire_vc_tbl, charge_vc]
    exact ctlStep_sysNext { s with vc := s.vc.zset z k v }

/-- What O14 says of a zset word, for any word of the descriptor. -/
theorem zsetOp_spec {s : State} (k : Nat) (z : BitVec 4) (a : BitVec 6) (hh : s.vc.ctl.h = false) :
    (zsetOk k (xr s a) = false → zsetOp s k z a = ctlFault s 0x08 0 0) ∧
    (zsetOk k (xr s a) = true → s.vc.zFull z.toNat = true → zsetOp s k z a = .next s) ∧
    (zsetOk k (xr s a) = true → s.vc.zFull z.toNat = false →
      ∃ t, zsetOp s k z a = .next t ∧ zsetDone s t z.toNat k (xr s a)) :=
  ⟨zsetOp_rejected hh, zsetOp_full hh, fun hok hf => ⟨_, zsetOp_taken hh hok hf, zsetDone_sysNext ..⟩⟩

theorem execZget_step {s : State} (d : BitVec 6) (z : BitVec 4) (j : BitVec 3) (hh : s.vc.ctl.h = false) :
    ∃ t, execZget d z j s = .next t ∧ writesX s t d (mget 0 s.vc.z (8 * z.toNat + j.toNat)) ∧ ctlStep s t .sys 4 ∧
      keepsBytes s t := by
  rw [execZget, restricted_outside hh, retire_setX_charge]
  exact ⟨_, rfl, setX_step ..⟩

/-- Settles O14: the seven zset words are zsetOp of their word, and zget reads the newest version. That they charge e.sys is the
model's reading (log 37). -/
theorem streamWords : Obligations.StreamWords := by
  unfold Obligations.StreamWords
  intro s d a z j hh
  refine ⟨execZget_step d z j hh, ?_⟩
  simp only [List.forall_mem_cons]
  exact ⟨zsetOp_spec 0 z a hh, zsetOp_spec 1 z a hh, zsetOp_spec 2 z a hh, zsetOp_spec 3 z a hh, zsetOp_spec 4 z a hh,
    zsetOp_spec 5 z a hh, zsetOp_spec 6 z a hh, List.forall_mem_nil _⟩

end Sys2Proof.Machine
end

section
/-! The fetch of an instruction (R40, R248, R255): what it leaves as it was, and that it finds the words that stand at pc. -/

namespace Sys2Proof.Machine

open Sys2Proof.Laws

/-! ### What a walk leaves of memory -/

@[simp] theorem l2Access_part_mem (s : State) (who : Option Nat) (moved line : Nat) (w : Bool) :
    (l2Access s who moved line w).part.mem = s.part.mem := by
  unfold l2Access
  split
  · simp
  · dsimp only
    split <;> simp

@[simp] theorem l2Access_vc (s : State) (who : Option Nat) (moved line : Nat) (w : Bool) :
    (l2Access s who moved line w).vc = s.vc := by
  unfold l2Access
  split
  · simp
  · dsimp only
    split <;> simp

@[simp] theorem homeRead_vc (s : State) (pa n : Nat) : (homeRead s pa n).1.vc = s.vc := l2Access_vc ..

@[simp] theorem homeRead_part_mem (s : State) (pa n : Nat) : (homeRead s pa n).1.part.mem = s.part.mem := l2Access_part_mem ..

@[simp] theorem walkGo_part_mem (s : State) (table va n : Nat) : (walkGo s table va n).1.part.mem = s.part.mem := by
  induction n generalizing s table with
  | zero =>
    rw [walkGo]
    dsimp only [homeRead]
    split <;> exact l2Access_part_mem ..
  | succ n ih =>
    rw [walkGo]
    dsimp only [homeRead]
    split
    · exact l2Access_part_mem ..
    · exact l2Access_part_mem ..
    · exact (ih _ _).trans (l2Access_part_mem ..)

@[simp] theorem walk_part_mem (s : State) (va : Nat) : (walk s va).1.part.mem = s.part.mem :=
  if h : s.cp < fld s.part.ptroot 55 11 * 2048 + tableSize 4 then congrArg (fun r => r.1.part.mem) (walk_low s va h)
  else (congrArg (fun r => r.1.part.mem) (walk_go s va h)).trans (walkGo_part_mem s _ va 4)

@[simp] theorem lookup_part_mem (s : State) (va : Nat) : (lookup s va).1.part.mem = s.part.mem := by
  unfold lookup
  split
  · rfl
  · split
    · rfl
    · split
      · split <;> rfl
      · have hw := walk_part_mem s va
        split
        · next h =>
          rw [h] at hw
          exact hw
        · next h =>
          rw [h] at hw
          exact hw

theorem translate_part_mem {s t : State} {va : Nat} {k : AccKind} {r : Nat × TlbE} (h : translate s va k = .ok t r) :
    t.part.mem = s.part.mem := by
  rw [(translate_ok h).1, lookup_part_mem]

/-! ### What a fetch leaves as it was -/

/-- The state without what a fetch may change: what an access of memory may change, and the instruction cache. -/
def fetchMask (s : State) : State := memMask { s with vc.icache := [] }

/-- What a fetch keeps: all but the instruction cache and what an access may change; memory keeps its bytes (R255). -/
def fetchKeeps (s u : State) : Prop := fetchMask u = fetchMask s ∧ u.part.mem = s.part.mem

theorem fetchKeeps_refl (s : State) : fetchKeeps s s := ⟨rfl, rfl⟩

theorem fetchKeeps_trans {s t u : State} (h : fetchKeeps s t) (k : fetchKeeps t u) : fetchKeeps s u :=
  ⟨k.1.trans h.1, k.2.trans h.2⟩

theorem fetchMask_of_memMask {s u : State} (h : memMask u = memMask s) : fetchMask u = fetchMask s :=
  congrArg (fun t : State => { t with vc.icache := [] }) h

theorem fetchKeeps_translate {s t : State} {va : Nat} {k : AccKind} {r : Nat × TlbE} (h : translate s va k = .ok t r) :
    fetchKeeps s t :=
  ⟨fetchMask_of_memMask (memMask_translate h), translate_part_mem h⟩

theorem fetchKeeps_homeRead (s : State) (pa n : Nat) : fetchKeeps s (homeRead s pa n).1 :=
  ⟨fetchMask_of_memMask (memMask_homeRead s pa n), homeRead_part_mem s pa n⟩

theorem fetchKeeps_icLine (s : State) (line : Nat) : fetchKeeps s (icLine s line).1 := by
  unfold icLine
  split
  · exact ⟨rfl, rfl⟩
  · exact fetchKeeps_trans (fetchKeeps_homeRead s (line * 128) 128) ⟨rfl, rfl⟩

/-- A fetch that answers has translated its address and read its line. -/
theorem fetchWord_ok {s u : State} {va : Word64} {w : Word32} (h : fetchWord s va = .ok u w) :
    ∃ s1 pa e, translate s va.toNat .fetch = .ok s1 (pa, e) ∧ u = (icLine s1 (pa / 128)).1 := by
  unfold fetchWord at h
  split at h
  · cases h
  · split at h
    · cases h
    · split at h
      · cases h
      · cases h
      · next s1 pa e ht =>
        split at h
        · cases h
        · cases h
          exact ⟨s1, pa, e, ht, rfl⟩

theorem fetchKeeps_fetchWord {s u : State} {va : Word64} {w : Word32} (h : fetchWord s va = .ok u w) : fetchKeeps s u := by
  obtain ⟨s1, pa, e, ht, rfl⟩ := fetchWord_ok h
  exact fetchKeeps_trans (fetchKeeps_translate ht) (fetchKeeps_icLine ..)

theorem fetchKeeps_fetchWords {s u : State} {pc : Word64} {n : Nat} {ws : List Word32} (h : fetchWords s pc n = .ok u ws) :
    fetchKeeps s u := by
  induction n generalizing s pc ws with
  | zero =>
    cases h
    exact fetchKeeps_refl _
  | succ n ih =>
    rw [fetchWords] at h
    split at h
    · cases h
    · cases h
    · next s1 w hw =>
      have h1 := fetchKeeps_fetchWord hw
      split at h
      · split at h
        · cases h
        · cases h
        · next hr =>
          cases h
          exact fetchKeeps_trans h1 (ih hr)
      · cases h
        exact h1

/-! ### Translations of one page -/

theorem head_coreTlbPut {s : State} (hq : s.dev.lq ≤ 4) (e : TlbE) : (coreTlbPut s e).head? = some e := by
  have hm : s.m ≤ 16 := Nat.pow_le_pow_right (by norm_num : 0 < 2) hq
  have hpos : 0 < s.m := Nat.two_pow_pos _
  have hw : 64 / s.m ≠ 0 := Nat.pos_iff_ne_zero.mp (Nat.div_pos (by omega) hpos)
  obtain ⟨k, hk⟩ := Nat.exists_eq_succ_of_ne_zero hw
  rw [coreTlbPut, hk, List.take_succ_cons, List.head?_cons]

/-- A check that has passed. -/
theorem ok_of_ite_error {ε α : Type} {c : Prop} [Decidable c] {d : ε} {r : Except ε α} {x : α}
    (h : (if c then .error d else r) = .ok x) : r = .ok x := by
  split at h
  · cases h
  · exact h

/-- The translation that a table entry gives covers the address of its walk (R246). -/
theorem hits_of_pteRead {s : State} {level va pa : Nat} {b : List Byte} {e : TlbE} (h : pteRead s level va pa b = .ok (.inr e)) :
    e.hits va = true := by
  have hc : pteCheck s level va (leNat b) = .ok (.inr e) := by
    unfold pteRead at h
    split at h
    · cases h
    · split at h
      · cases h
      · next hx =>
        cases h
        exact hx
  unfold pteCheck at hc
  dsimp only at hc
  iterate 7 replace hc := ok_of_ite_error hc
  split at hc
  · cases ok_of_ite_error hc
  · cases ok_of_ite_error (ok_of_ite_error hc)
    exact beq_self_eq_true _

theorem hits_of_walkGo {s : State} {table va n : Nat} {e : TlbE} (h : (walkGo s table va n).2 = .ok e) : e.hits va = true := by
  induction n generalizing s table with
  | zero =>
    rw [walkGo] at h
    dsimp only [homeRead] at h
    split at h
    · cases h
    · next hp =>
      cases h
      exact hits_of_pteRead hp
    · cases h
  | succ n ih =>
    rw [walkGo] at h
    dsimp only [homeRead] at h
    split at h
    · cases h
    · next hp =>
      cases h
      exact hits_of_pteRead hp
    · exact ih h

theorem hits_of_walk {s : State} {va : Nat} {e : TlbE} (h : (walk s va).2 = .ok e) : e.hits va = true := by
  unfold walk at h
  dsimp only at h
  split at h
  · cases h
  · exact hits_of_walkGo h

/-- A translation that a lookup finds covers the address and stands first in the core's lookaside buffer (R249). -/
theorem lookup_head {s : State} {va : Nat} {e : TlbE} (hq : s.dev.lq ≤ 4) (h : (lookup s va).2 = .ok e) :
    e.hits va = true ∧ (lookup s va).1.vc.tlb.head? = some e := by
  rcases hcore : s.vc.tlb.find? (fun e => e.hits va) with _ | c
  · rcases hclus : s.part.ctlb.find? (fun p => p.1 == clusterOf s && p.2.hits va) with _ | p
    · rcases hrun : walkOf s va with _ | w
      · have hdev : (walk s va).1.dev = s.dev :=
          show (memMask (walk s va).1).dev = (memMask s).dev by rw [memMask_walk]
        rcases hw : walk s va with ⟨s1, d | c⟩
        · rw [lookup_bad hcore hclus hrun hw] at h
          cases h
        · rw [lookup_walk hcore hclus hrun hw] at h ⊢
          cases h
          rw [hw] at hdev
          exact ⟨hits_of_walk (congrArg Prod.snd hw), head_coreTlbPut (s := s1) (hdev ▸ hq) e⟩
      · rw [lookup_shared hcore hclus hrun] at h ⊢
        have hfound := List.find?_some hrun
        cases hwe : w.entry with
        | none =>
          rw [hwe] at h
          cases h
        | some c =>
          rw [hwe] at h hfound
          cases h
          exact ⟨(Bool.and_eq_true_iff.mp hfound).2, head_coreTlbPut hq e⟩
    · rw [lookup_cluster hcore hclus] at h ⊢
      cases h
      have hfound := List.find?_some hclus
      exact ⟨(Bool.and_eq_true_iff.mp hfound).2, head_coreTlbPut hq _⟩
  · rw [lookup_core hcore] at h ⊢
    cases h
    exact ⟨List.find?_some (p := fun c : TlbE => c.hits va) hcore, head_coreTlbPut hq e⟩

/-- An address that the first translation of the core's lookaside buffer covers is found there. -/
theorem lookup_of_head {s : State} {va : Nat} {e : TlbE} (hh : s.vc.tlb.head? = some e) (hv : e.hits va = true) :
    (lookup s va).2 = .ok e := by
  have hfind : s.vc.tlb.find? (fun e => e.hits va) = some e := by
    obtain ⟨l, hl⟩ := List.head?_eq_some_iff.mp hh
    rw [hl]
    exact List.find?_cons_of_pos (p := fun c : TlbE => c.hits va) hv
  rw [lookup_core hfind]

theorem translate_of_lookup {s : State} {va : Nat} {k : AccKind} {e : TlbE} (h : (lookup s va).2 = .ok e)
    (hd : denied e k = none) : translate s va k = .ok (lookup s va).1 (e.frame + va % 2 ^ e.size, e) := by
  unfold translate
  rcases hl : lookup s va with ⟨s1, r⟩
  rw [hl] at h
  cases h
  dsimp only
  rw [hd]

/-! ### Lines of the instruction cache -/

theorem listAt_mgets {α : Type} (d : α) (m : SMap α) (k n j : Nat) (d' : α) (h : j < n) :
    listAt d' (mgets d m k n) j = mget d m (k + j) := by
  induction n generalizing k j with
  | zero => omega
  | succ n ih =>
    cases j with
    | zero => rfl
    | succ j =>
      rw [mgets, listAt_cons_succ, ih (k + 1) j (by omega)]
      congr 1
      omega

theorem listAt_drop {α : Type} (d : α) (l : List α) (i k : Nat) : listAt d (l.drop i) k = listAt d l (i + k) := by
  induction i generalizing l with
  | zero => rw [List.drop_zero, Nat.zero_add]
  | succ i ih =>
    cases l with
    | nil => rfl
    | cons x l => rw [List.drop_succ_cons, ih, Nat.add_right_comm, listAt_cons_succ]

/-- A number is read from a list that may end early as if zeros followed. -/
theorem leNat_take (l : List Byte) (n : Nat) : leNat (l.take n) = leNat ((List.range n).map (listAt 0 l)) := by
  induction n generalizing l with
  | zero => rfl
  | succ n ih =>
    rw [List.range_succ_eq_map, List.map_cons, List.map_map]
    cases l with
    | nil =>
      have h := ih []
      rw [List.take_nil] at h
      exact congrArg (fun k => 0 + 256 * k) h
    | cons x l => exact congrArg (fun k => x.toNat + 256 * k) (ih l)

theorem leNat_cut (l : List Byte) (i n : Nat) : leNat (cut l i n) = leNat ((List.range n).map (fun k => listAt 0 l (i + k))) := by
  rw [cut, leNat_take]
  exact congrArg leNat (List.map_congr_left fun k _ => listAt_drop 0 l i k)

theorem icLine_hit {s : State} {line : Nat} {l : CLn} (h : s.vc.icache.find? (fun l => l.line == line) = some l) :
    icLine s line = ({ s with vc.icache := l :: s.vc.icache.filter (fun x => x.line != line) }, l) := by
  unfold icLine
  rw [h]

theorem icLine_miss {s : State} {line : Nat} (h : s.vc.icache.find? (fun l => l.line == line) = none) :
    (icLine s line).2.line = line ∧ (icLine s line).2.data = physRead s (line * 128) 128 ∧
      ((icLine s line).1.vc.icache = s.vc.icache ∨ (icLine s line).1.vc.icache.head? = some (icLine s line).2) := by
  have hic : (homeRead s (line * 128) 128).1.vc.icache = s.vc.icache := by rw [homeRead_vc]
  unfold icLine
  rw [h]
  refine ⟨rfl, rfl, ?_⟩
  dsimp only
  split
  · exact Or.inl hic
  · exact Or.inr rfl

theorem icLine_tlb (s : State) (line : Nat) : (icLine s line).1.vc.tlb = s.vc.tlb := by
  unfold icLine
  split
  · rfl
  · show (homeRead s (line * 128) 128).1.vc.tlb = s.vc.tlb
    rw [homeRead_vc]

theorem codeByte_of_line {s : State} {a : Nat} {l : CLn} (h : s.vc.icache.find? (fun l => l.line == a / 128) = some l) :
    codeByte s a = listAt 0 l.data (a % 128) := by
  rw [codeByte, h]

theorem codeByte_of_no_line {s : State} {a : Nat} (h : s.vc.icache.find? (fun l => l.line == a / 128) = none) :
    codeByte s a = physByte s a := by
  rw [codeByte, h]

theorem find_line_of_head {s : State} {line : Nat} {l : CLn} (h : s.vc.icache.head? = some l) (hl : l.line = line) :
    s.vc.icache.find? (fun l => l.line == line) = some l := by
  obtain ⟨r, hr⟩ := List.head?_eq_some_iff.mp h
  rw [hr]
  exact List.find?_cons_of_pos (p := fun l : CLn => l.line == line) (beq_iff_eq.mpr hl)

/-- The line that a fetch reads holds the bytes that stand there for CTL (R255). -/
theorem listAt_icLine (s : State) (a : Nat) : listAt 0 (icLine s (a / 128)).2.data (a % 128) = codeByte s a := by
  cases h : s.vc.icache.find? (fun l => l.line == a / 128) with
  | some l => rw [icLine_hit h, codeByte_of_line h]
  | none =>
    obtain ⟨-, hdata, -⟩ := icLine_miss h
    rw [hdata, codeByte_of_no_line h, physRead, listAt_mgets _ _ _ _ _ _ (Nat.mod_lt _ (by norm_num)), Nat.div_add_mod']
    rfl

/-- Reading a line of the instruction cache leaves its bytes as CTL fetches them. -/
theorem codeByte_icLine (s : State) (a : Nat) : codeByte (icLine s (a / 128)).1 a = codeByte s a := by
  have hread := listAt_icLine s a
  cases h : s.vc.icache.find? (fun l => l.line == a / 128) with
  | some l =>
    have hline : l.line = a / 128 := by simpa using List.find?_some h
    rw [icLine_hit h] at hread ⊢
    rw [codeByte_of_line (find_line_of_head rfl hline), hread]
  | none =>
    obtain ⟨hline, -, hsame | hhead⟩ := icLine_miss h
    · rw [codeByte_of_no_line (hsame ▸ h), codeByte_of_no_line h, physByte, (fetchKeeps_icLine s _).2]
      rfl
    · rw [codeByte_of_line (find_line_of_head hhead hline), hread]

/-! ### The words at pc -/

/-- The words ws stand at va, which one translation of a page of 64 KiB or more places at pa, in one line that CTL can fetch
(R40, R248, R255): what `codeAt` says, in a form that a fetch hands on to the next word. -/
def fetchable (s : State) (va : Word64) (pa : Nat) (ws : List Word32) : Prop :=
  s.dev.lq ≤ 4 ∧ va.toNat + 4 * ws.length ≤ 2 ^ 56 ∧ va.toNat % 128 + 4 * ws.length ≤ 128 ∧ inMap va.toNat = false ∧
  pa % 128 = va.toNat % 128 ∧ s.part.poison.contains (pa / 128) = false ∧
  (∃ e, (lookup s va.toNat).2 = .ok e ∧ denied e .fetch = none ∧ pa = e.frame + va.toNat % 2 ^ e.size ∧ 16 ≤ e.size) ∧
  ∀ k, k < ws.length → listAt 0 ws k = BitVec.ofNat 32 (leNat ((List.range 4).map (fun i => codeByte s (pa + 4 * k + i))))

theorem fetchable_of_codeAt {s : State} {ws : List Word32} (h : codeAt s ws) (hne : ws ≠ []) :
    ∃ pa, fetchable s s.vc.ctl.pc pa ws := by
  obtain ⟨-, hend, hmap, hline, pa, ⟨hq, -, ⟨u, e, ht, -, hsize⟩, hpoison⟩, hpa, hwords⟩ := h
  obtain ⟨-, hlook, hden, hframe⟩ := translate_ok ht
  have hlen := List.length_pos_iff.mpr hne
  exact ⟨pa, hq, hend, hline, hmap, hpa, hpoison 0 (by omega), ⟨e, hlook, hden, hframe, hsize⟩, hwords⟩

theorem codeByte_lookup (s : State) (va a : Nat) : codeByte (lookup s va).1 a = codeByte s a := by
  have hic : (lookup s va).1.vc.icache = s.vc.icache :=
    show (memMask (lookup s va).1).vc.icache = (memMask s).vc.icache by rw [memMask_lookup]
  unfold codeByte physByte
  rw [hic, lookup_part_mem]

/-- Within a line, and so within a page, adding is adding to the offset. -/
theorem page_of_line {va n size : Nat} (hn : va % 128 + n < 128) (hs : 16 ≤ size) :
    (va + n) / 2 ^ size = va / 2 ^ size ∧ (va + n) % 2 ^ size = va % 2 ^ size + n := by
  have hpow : 2 ^ size = 128 * 2 ^ (size - 7) := by
    rw [show (128 : Nat) = 2 ^ 7 by norm_num, ← pow_add]
    congr 1
    omega
  have hdiv : (va + n) / 2 ^ size = va / 2 ^ size := by
    rw [hpow, ← Nat.div_div_eq_div_mul, ← Nat.div_div_eq_div_mul]
    congr 1
    omega
  have h1 := Nat.div_add_mod va (2 ^ size)
  have h2 := Nat.div_add_mod (va + n) (2 ^ size)
  rw [hdiv] at h2
  exact ⟨hdiv, by omega⟩

theorem inMap_of_line {va n : Nat} (hn : va % 128 + n < 128) : inMap (va + n) = inMap va := by
  unfold inMap mapBase mapEnd
  rw [Bool.eq_iff_iff]
  simp only [Bool.and_eq_true, decide_eq_true_eq]
  omega

theorem fld_of_lt {w : Word64} (h : w.toNat < 2 ^ 56) : fld w 63 56 = 0 := by
  rw [fld, bits, Nat.div_eq_of_lt h, Nat.zero_mod]

/-- The state after the fetch of a word of the line of pa, which va translates to. -/
def fetched (s : State) (va : Word64) (pa : Nat) : State := (icLine (lookup s va.toNat).1 (pa / 128)).1

theorem codeByte_fetched (s : State) (va : Word64) {a pa : Nat} (h : a / 128 = pa / 128) :
    codeByte (fetched s va pa) a = codeByte s a := by
  rw [fetched, ← h, codeByte_icLine, codeByte_lookup]

/-- The word that stands at va is what CTL fetches there. -/
theorem fetchWord_of_fetchable {s : State} {va : Word64} {pa : Nat} {w : Word32} {ws : List Word32}
    (h : fetchable s va pa (w :: ws)) : fetchWord s va = .ok (fetched s va pa) w := by
  obtain ⟨-, hend, hline, hmap, hpa, hpoison, ⟨e, hlook, hden, hframe, -⟩, hwords⟩ := h
  rw [List.length_cons] at hend hline
  have hword : BitVec.ofNat 32 (leNat (cut (icLine (lookup s va.toNat).1 (pa / 128)).2.data (pa % 128) 4)) = w := by
    rw [leNat_cut]
    refine Eq.trans (congrArg (fun l => BitVec.ofNat 32 (leNat l)) (List.map_congr_left fun i hi => ?_))
      (hwords 0 (Nat.succ_pos _)).symm
    obtain ⟨hdiv, hmod⟩ : (pa + i) / 128 = pa / 128 ∧ (pa + i) % 128 = pa % 128 + i := by
      have := List.mem_range.mp hi
      omega
    rw [← hmod, ← hdiv, listAt_icLine, codeByte_lookup]
    rfl
  have hpois : poisoned (lookup s va.toNat).1 pa = false := by
    have hp : (lookup s va.toNat).1.part.poison = s.part.poison :=
      show (memMask (lookup s va.toNat).1).part.poison = (memMask s).part.poison by rw [memMask_lookup]
    rw [poisoned, hp, hpoison, Bool.false_and]
  unfold fetchWord
  rw [if_neg (not_not_intro (fld_of_lt (by omega))), hmap, translate_of_lookup hlook hden, ← hframe]
  dsimp only
  rw [hpois]
  exact congrArg (MemR.ok _) hword

/-- After the fetch of a word the next one of the line can be fetched: its translation stands in the core's lookaside buffer, and the
line, where the instruction cache could take it, in the cache (R249, R255). -/
theorem fetchable_next {s : State} {va : Word64} {pa : Nat} {w : Word32} {ws : List Word32} (h : fetchable s va pa (w :: ws))
    (hne : ws ≠ []) : fetchable (fetched s va pa) (va + 4) (pa + 4) ws := by
  have hlen := List.length_pos_iff.mpr hne
  obtain ⟨hmask, -⟩ := fetchKeeps_fetchWord (fetchWord_of_fetchable h)
  obtain ⟨hq, hend, hline, hmap, hpa, hpoison, ⟨e, hlook, hden, hframe, hsize⟩, hwords⟩ := h
  rw [List.length_cons] at hend hline
  obtain ⟨hhits, hhead⟩ := lookup_head hq hlook
  have hva : (va + 4).toNat = va.toNat + 4 := BitVec.toNat_add_of_lt (by show va.toNat + 4 < 2 ^ 64; omega)
  obtain ⟨hpage, hoff⟩ := page_of_line (va := va.toNat) (n := 4) (size := e.size) (by omega) hsize
  have hdev := congrArg (fun t : State => t.dev.lq) hmask
  have hpoisons := congrArg (fun t : State => t.part.poison) hmask
  refine ⟨hdev.trans_le hq, by omega, by omega, ?map, by omega, ?poison, ⟨e, lookup_of_head ?head ?hits, hden, ?place, hsize⟩,
    ?words⟩
  case map => rw [hva, inMap_of_line (by omega), hmap]
  case poison =>
    rw [show (pa + 4) / 128 = pa / 128 by omega]
    exact (congrArg (fun l => l.contains (pa / 128)) hpoisons).trans hpoison
  case head => rw [fetched, icLine_tlb, hhead]
  case hits => rw [TlbE.hits, hva, hpage, ← TlbE.hits, hhits]
  case place => rw [hva, hoff, hframe, Nat.add_assoc]
  case words =>
    intro k hk
    refine (hwords (k + 1) (Nat.succ_lt_succ hk)).trans ?_
    refine congrArg (fun l => BitVec.ofNat 32 (leNat l)) (List.map_congr_left fun i hi => ?_)
    have hi4 := List.mem_range.mp hi
    rw [codeByte_fetched s va (by omega), show pa + 4 * (k + 1) + i = pa + 4 + 4 * k + i by omega]

/-- Words that make up one instruction: prefixes, and then a word that is none (R34, R39). -/
def oneInstr : List Word32 → Bool
  | [] => false
  | [w] => !isExt w
  | w :: r => isExt w && oneInstr r

theorem oneInstr_of_splitWords {ws : List Word32} {p : Prefixes} {w : Word32} (h : splitWords ws = .ok (p, w, ws.length)) :
    oneInstr ws = true := by
  match ws with
  | [] => cases h
  | [w0] => grind [splitWords, oneInstr]
  | [w0, w1] => grind [splitWords, oneInstr]
  | w0 :: w1 :: w2 :: r =>
    rw [splitWords] at h
    grind [oneInstr]

/-- The words that stand at va are what CTL fetches there (R40). -/
theorem fetchWords_of_fetchable {s : State} {va : Word64} {pa n : Nat} {ws : List Word32} (h : fetchable s va pa ws)
    (h1 : oneInstr ws = true) (hn : ws.length ≤ n) : ∃ u, fetchWords s va n = .ok u ws := by
  induction ws generalizing s va pa n with
  | nil => cases h1
  | cons w r ih =>
    obtain ⟨n, rfl⟩ : ∃ m, n = m + 1 := ⟨n - 1, by rw [List.length_cons] at hn; omega⟩
    rw [fetchWords, fetchWord_of_fetchable h]
    dsimp only
    cases r with
    | nil =>
      have hx : isExt w = false := by simpa [oneInstr] using h1
      rw [hx]
      exact ⟨_, rfl⟩
    | cons w' r =>
      obtain ⟨hx, h1'⟩ : isExt w = true ∧ oneInstr (w' :: r) = true := by simpa [oneInstr] using h1
      obtain ⟨t, ht⟩ := ih (fetchable_next h (List.cons_ne_nil _ _)) h1' (Nat.le_of_succ_le_succ hn)
      rw [if_pos hx, ht]
      exact ⟨t, rfl⟩

/-- The words of one instruction that stand at pc are what CTL fetches. -/
theorem fetchWords_of_codeAt {s : State} {ws : List Word32} {p : Prefixes} {w : Word32} {n : Nat} (h : codeAt s ws)
    (hs : splitWords ws = .ok (p, w, n)) (hn : n = ws.length) (h3 : n ≤ 3) : ∃ u, fetchWords s s.vc.ctl.pc 3 = .ok u ws := by
  subst hn
  obtain ⟨pa, hf⟩ := fetchable_of_codeAt h (fun he => by rw [he] at hs; cases hs)
  exact fetchWords_of_fetchable hf (oneInstr_of_splitWords hs) h3

end Sys2Proof.Machine
end

section
/-! The queues' entries (R86, R88, R145): an engine word that CTL routes and a micro-order of a table run enter behind what stands
there. -/

namespace Sys2Proof.Machine

open Sys2Proof.Laws

/-! ### Entering a queue -/

/-- The queues that an entry of queue q stands in: its own, or the four columns when it is shared (R86). -/
def standsIn (shared : Bool) (q : Queue) : List Queue := if shared then columns else [q]

/-- The queues with x behind what stands in u. -/
def putEntry (x : QEntry) (en : Eng) (u : Queue) : Eng := en.setQ u { en.q u with entries := (en.q u).entries ++ [x] }

theorem entries_putEntry (x : QEntry) (en : Eng) (q u : Queue) :
    ((putEntry x en q).q u).entries = (en.q u).entries ++ if u = q then [x] else [] := by
  cases q <;> cases u <;> simp [putEntry, Eng.setQ, Eng.q]

theorem placeEntry_eng (v : VC) (q : Queue) (x : QEntry) :
    (placeEntry v q x).eng =
      { (if x.shared then columns.foldl (putEntry x) v.eng else putEntry x v.eng q) with nextSeq := v.eng.nextSeq + 1 } := rfl

theorem q_nextSeq (en : Eng) (k : Nat) (u : Queue) : ({ en with nextSeq := k } : Eng).q u = en.q u := by cases u <;> rfl

theorem entries_placeEntry (v : VC) (q u : Queue) (x : QEntry) :
    ((placeEntry v q x).eng.q u).entries = (v.eng.q u).entries ++ if u ∈ standsIn x.shared q then [x] else [] := by
  rw [placeEntry_eng, q_nextSeq]
  cases x.shared with
  | true => cases u <;> simp [standsIn, columns, entries_putEntry]
  | false => simp [standsIn, entries_putEntry]

theorem hasRoom_of {v : VC} {q : Queue} {shared : Bool} (h : ∀ u ∈ standsIn shared q, (v.eng.q u).entries.length < qCap u) :
    hasRoom v q shared = true := by
  cases shared with
  | true => simpa [hasRoom, standsIn] using h
  | false => simpa [hasRoom, standsIn] using h

/-! ### Majors, queues and engines (R86, R140) -/

theorem toNat_majorOf (w : Word32) : (majorOf w).toNat = w.toNat / 2 ^ 26 := by
  simp only [majorOf, BitVec.extractLsb'_toNat, Nat.shiftRight_eq_div_pow]
  omega

theorem engineOfMajor_of_queueOfMajor {n : Nat} {q : Queue} (h : queueOfMajor n = some q) : engineOfMajor n = some (qEngine q) := by
  unfold queueOfMajor at h
  unfold engineOfMajor
  grind [qEngine]

theorem engineOfMajor_of_no_queue {n : Nat} (h : queueOfMajor n = none) : n = 0x3B ∨ engineOfMajor n = none := by
  unfold queueOfMajor at h
  unfold engineOfMajor
  grind

/-- The queue in which an engine word takes its turn: MX for a word of all four columns. -/
def routeQueue (n : Nat) : Queue :=
  match queueOfMajor n with
  | some u => u
  | none => .mx

theorem queuesOf_eq_standsIn {w : Word32} {e : Engine} (he : engineOfMajor (w.toNat / 2 ^ 26) = some e) :
    queuesOf w = standsIn ((majorOf w).toNat == 0x3B) (routeQueue (majorOf w).toNat) := by
  rw [toNat_majorOf, queuesOf, standsIn]
  by_cases h : w.toNat / 2 ^ 26 = 0x3B
  · rw [if_pos h, if_pos (beq_iff_eq.mpr h)]
  · rw [if_neg h, if_neg (fun hb => h (beq_iff_eq.mp hb)), routeQueue]
    cases hq : queueOfMajor (w.toNat / 2 ^ 26) with
    | some q => rfl
    | none =>
      rcases engineOfMajor_of_no_queue hq with h' | h'
      · exact absurd h' h
      · rw [h'] at he
        cases he

/-! ### Routed words (R86, R146) -/

theorem activeRun_none {s : State} {e : Engine} (h : ∀ r ∈ s.vc.tbl.runs, r.ended = false → r.home ≠ e) : activeRun s e = none := by
  rw [activeRun, List.find?_eq_none]
  intro r hr
  simpa using h r hr

theorem activeRun_home {s : State} {e : Engine} {r : TRun} (h : activeRun s e = some r) : r.home = e := by
  have hr := List.find?_some h
  rw [Bool.and_eq_true, decide_eq_true_eq] at hr
  exact hr.2

/-- A word whose queues have room and whose engine no run holds is placed. -/
theorem routeWord_placed {s : State} {p : Prefixes} {w : Word32} {e : Engine} (n : Nat)
    (he : engineOfMajor (w.toNat / 2 ^ 26) = some e) (hp : prefixLegal p w = true) (ha : activeRun s e = none)
    (hroom : ∀ q ∈ queuesOf w, (s.vc.eng.q q).entries.length < qCap q) :
    routeWord s p w n = .next (retireTo
      { s with vc := placeEntry s.vc (routeQueue (majorOf w).toNat) (routedEntry s p w) } (s.vc.ctl.pc + w64 (4 * n))) := by
  have hr : hasRoom s.vc (routeQueue (majorOf w).toNat) ((majorOf w).toNat == 0x3B) = true :=
    hasRoom_of fun u hu => hroom u (queuesOf_eq_standsIn he ▸ hu)
  have hem : engineOfMajor (majorOf w).toNat = some e := by rw [toNat_majorOf, he]
  unfold routeWord
  rw [hem]
  dsimp only
  rw [hp, ha]
  have hfull : (!hasRoom s.vc (routeQueue (majorOf w).toNat) ((majorOf w).toNat == 0x3B)) = false := by rw [hr]; rfl
  exact if_neg (Bool.eq_false_iff.mp hfull)

/-! ### Micro-orders of a table run (R145) -/

/-- What of a virtual core the stream registers and the table runs have no part in. -/
def vcRest (v : VC) : Eng × Ctl × SMap Byte := (v.eng, v.ctl, v.chip)

theorem foldl_keeps {α β γ : Type} {f : β → γ} {g : β → α → β} (hg : ∀ b a, f (g b a) = f b) (l : List α) (b : β) :
    f (l.foldl g b) = f b := by
  induction l generalizing b with
  | nil => rfl
  | cons a l ih => rw [List.foldl_cons, ih, hg]

theorem vcRest_writeBackStreams (v : VC) (r : TRun) (zs : SMap Word64) : vcRest (writeBackStreams v r zs) = vcRest v := by
  refine foldl_keeps (fun u z => ?_) _ v
  dsimp only
  split <;> split <;> rfl

theorem vcRest_endIteration (v : VC) (r : TRun) : vcRest (endIteration v r) = vcRest v := by
  unfold endIteration
  dsimp only
  split
  · exact vcRest_writeBackStreams ..
  · rfl

/-- The word of the micro-order at which the run stands (R140, R145). -/
def microWord (s : State) (r : TRun) : Word32 :=
  let ws := mgets 0 s.vc.tbl.store ((dirOf s r.table).offset + r.word) ((dirOf s r.table).length - r.word)
  let m := takeMicro Prefixes.empty true ws
  match m.2.1 with
  | some w => w
  | none => listAt 0 ws (m.2.2.1 - 1)

/-- Prefixes alone are left of the table (R140). -/
def microMissing (s : State) (r : TRun) : Bool :=
  (takeMicro Prefixes.empty true
    (mgets 0 s.vc.tbl.store ((dirOf s r.table).offset + r.word) ((dirOf s r.table).length - r.word))).2.1.isNone

/-- The word is one of the run's engine (R140). -/
def microAtHome (s : State) (r : TRun) : Bool :=
  match engineOfMajor (majorOf (microWord s r)).toNat with
  | some e => decide (e = r.home)
  | none => false

/-- The entry stands in all four columns: a word of major 0x3B, or one of CMP's runs that names no queue. -/
def microShared (s : State) (r : TRun) : Bool :=
  decide (r.home = .cmp) &&
    (!microAtHome s r || microMissing s r || (majorOf (microWord s r)).toNat == 0x3B)

/-- The queue in which the micro-order takes its turn. -/
def microQueue (s : State) (r : TRun) : Queue :=
  match r.home with
  | .ld => .ld
  | .st => .st
  | .cmp =>
    match queueOfMajor (majorOf (microWord s r)).toNat with
    | some u => if microAtHome s r then u else .mx
    | none => .mx

/-- The run r of a virtual core as r1. -/
def runMoved (v : VC) (r r1 : TRun) : VC := { v with tbl.runs := v.tbl.runs.map (fun x => if x.id = r.id then r1 else x) }

/-- A micro-order waits for room, or enters its queue, and its run goes on n words further. -/
theorem placeMicro_eq (s : State) (r : TRun) :
    ∃ x n, placeMicro s r =
        (if !hasRoom s.vc (microQueue s r) (microShared s r) then s
         else
          let r1 := { r with word := r.word + n }
          let v := runMoved (placeEntry s.vc (microQueue s r) x) r r1
          { s with vc := if (dirOf s r.table).length ≤ r.word + n then endIteration v r1 else v }) ∧
      x.shared = microShared s r ∧ x.run = some r.id ∧ x.ready = s.vc.now ∧ x.zs = r.zs ∧
      x.name = nameOfTable r.table r.iter r.word :=
  ⟨_, _, rfl, rfl, rfl, rfl, rfl, rfl⟩

theorem qEngine_of_mem_columns {q : Queue} (h : q ∈ columns) : qEngine q = .cmp := by
  cases q <;> simp_all [columns, qEngine]

theorem mem_columns_of_qEngine {q : Queue} (h : qEngine q = .cmp) : q ∈ columns := by
  cases q <;> simp_all [columns, qEngine]

theorem microShared_home {s : State} {r : TRun} (h : microShared s r = true) : r.home = .cmp := by
  rw [microShared, Bool.and_eq_true, decide_eq_true_eq] at h
  exact h.1

theorem qEngine_microQueue (s : State) (r : TRun) : qEngine (microQueue s r) = r.home := by
  unfold microQueue
  cases hh : r.home with
  | ld => rfl
  | st => rfl
  | cmp =>
    cases hq : queueOfMajor (majorOf (microWord s r)).toNat with
    | none => rfl
    | some u =>
      dsimp only
      split
      · next hl =>
        rw [microAtHome, engineOfMajor_of_queueOfMajor hq, decide_eq_true_eq] at hl
        rw [hl, hh]
      · rfl

theorem qEngine_of_standsIn {s : State} {r : TRun} {u : Queue} (hu : u ∈ standsIn (microShared s r) (microQueue s r)) :
    qEngine u = r.home := by
  cases hs : microShared s r with
  | true =>
    rw [hs] at hu
    rw [microShared_home hs]
    exact qEngine_of_mem_columns hu
  | false =>
    rw [hs] at hu
    rw [List.mem_singleton.mp hu, qEngine_microQueue]

theorem vcRest_ite {c : Prop} [Decidable c] {v w x : VC} (hv : vcRest v = vcRest x) (hw : vcRest w = vcRest x) :
    vcRest (if c then v else w) = vcRest x := by
  split
  · exact hv
  · exact hw

/-- With room in its engine's queues a micro-order enters; beside the queues, the runs, the directory and the streams nothing
changes. -/
theorem placeMicro_placed {s : State} {r : TRun} (hroom : ∀ q, qEngine q = r.home → (s.vc.eng.q q).entries.length < qCap q) :
    ∃ x, x.shared = microShared s r ∧ x.run = some r.id ∧ x.ready = s.vc.now ∧ x.zs = r.zs ∧
      x.name = nameOfTable r.table r.iter r.word ∧ (placeMicro s r).part = s.part ∧
      vcRest (placeMicro s r).vc = vcRest (placeEntry s.vc (microQueue s r) x) := by
  obtain ⟨x, n, hplace, hshared, hrun, hready, hzs, hname⟩ := placeMicro_eq s r
  have hr : hasRoom s.vc (microQueue s r) (microShared s r) = true := hasRoom_of fun u hu => hroom u (qEngine_of_standsIn hu)
  refine ⟨x, hshared, hrun, hready, hzs, hname, ?_⟩
  rw [hplace, hr]
  exact ⟨rfl, vcRest_ite (vcRest_endIteration ..) rfl⟩

/-- What a table run places (R145). -/
theorem tableEntryPlace_spec {s : State} {e : Engine} {r : TRun} (ha : activeRun s e = some r) (hr : entryReady s r = true)
    (hroom : ∀ q, qEngine q = e → (s.vc.eng.q q).entries.length < qCap q) :
    ∃ t x q, execTableEntryPlace e s = .next t ∧ qEngine q = e ∧
      (∀ u, (t.vc.eng.q u).entries =
        (s.vc.eng.q u).entries ++ (if u = q ∨ (x.shared = true ∧ u ∈ columns) then [x] else [])) ∧
      x.run = some r.id ∧ x.ready = s.vc.now ∧ x.zs = r.zs ∧ x.name = nameOfTable r.table r.iter r.word ∧
      (x.shared = true → e = .cmp ∧ q ∈ columns) ∧ t.vc.ctl = s.vc.ctl ∧ keepsBytes s t := by
  obtain rfl := activeRun_home ha
  obtain ⟨x, hshared, hrun, hready, hzs, hname, hpart, hrest⟩ := placeMicro_placed hroom
  simp only [vcRest, Prod.mk.injEq] at hrest
  obtain ⟨heng, hctl, hchip⟩ := hrest
  have hcol : x.shared = true → microQueue s r ∈ columns := fun h =>
    mem_columns_of_qEngine ((qEngine_microQueue s r).trans (microShared_home (hshared ▸ h)))
  refine ⟨placeMicro s r, x, microQueue s r, by rw [execTableEntryPlace, ha]; exact if_pos hr, qEngine_microQueue s r, ?entries,
    hrun, hready, hzs, hname, fun h => ⟨microShared_home (hshared ▸ h), hcol h⟩, hctl, ?bytes⟩
  case entries =>
    intro u
    rw [heng, entries_placeEntry]
    congr 1
    cases hs : x.shared with
    | false => simp [standsIn]
    | true =>
      refine if_congr ⟨fun hu => Or.inr ⟨rfl, hu⟩, fun hu => ?_⟩ rfl rfl
      rcases hu with rfl | ⟨-, hu⟩
      · exact hcol hs
      · exact hu
  case bytes => exact ⟨fun a => by rw [physByte, hpart]; rfl, fun a => by rw [hchip]; rfl⟩

end Sys2Proof.Machine
end

section
/-! Engine words and micro-orders enter their queues (R86, R88, R145). -/

namespace Sys2Proof.Machine

open Sys2Proof.Laws

/-- An engine word that CTL has fetched, with the room and the free engine that it needs, enters its queues (R86, R146, R390). -/
theorem routeWord_entered {s u : State} {p : Prefixes} {w : Word32} {e : Engine} (n : Nat) (hk : fetchKeeps s u)
    (he : engineOfMajor (w.toNat / 2 ^ 26) = some e) (hp : prefixLegal p w = true)
    (hruns : ∀ r ∈ s.vc.tbl.runs, r.ended = false → r.home ≠ e)
    (hroom : ∀ q ∈ queuesOf w, (s.vc.eng.q q).entries.length < qCap q) :
    ∃ t x, routeWord u p w n = .next t ∧ x.word = w ∧ x.stamp = p.stamp ∧ x.metaP = p.metaP ∧ x.zs = s.vc.z ∧
      x.ready = s.vc.now + 3 ∧ x.name = nameOfPc s.vc.ctl.pc ∧ x.bad = false ∧
      (∀ q, (t.vc.eng.q q).entries = (s.vc.eng.q q).entries ++ (if q ∈ queuesOf w then [x] else [])) ∧
      t.vc.ctl.pc = s.vc.ctl.pc + w64 (4 * n) ∧ keepsX s t ∧ keepsBytes s t := by
  obtain ⟨hmask, hmem⟩ := hk
  have hctl : u.vc.ctl = s.vc.ctl := (congrArg (fun t : State => t.vc.ctl) hmask :)
  have heng : u.vc.eng = s.vc.eng := (congrArg (fun t : State => t.vc.eng) hmask :)
  have htbl : u.vc.tbl = s.vc.tbl := (congrArg (fun t : State => t.vc.tbl) hmask :)
  have hz : u.vc.z = s.vc.z := (congrArg (fun t : State => t.vc.z) hmask :)
  have hnow : u.vc.now = s.vc.now := (congrArg (fun t : State => t.vc.now) hmask :)
  have hchip : u.vc.chip = s.vc.chip := (congrArg (fun t : State => t.vc.chip) hmask :)
  refine ⟨_, routedEntry u p w, routeWord_placed n he hp (activeRun_none (htbl ▸ hruns)) (heng ▸ hroom), rfl, rfl, rfl, hz,
    congrArg (· + 3) hnow, (congrArg (fun c : Ctl => nameOfPc c.pc) hctl :), rfl, fun q => ?entries,
    (congrArg (fun c : Ctl => c.pc + w64 (4 * n)) hctl :), fun r => ?regs, fun a => ?mem, fun a => ?chip⟩
  case entries =>
    rw [queuesOf_eq_standsIn he, ← heng]
    exact entries_placeEntry ..
  case regs => exact (congrArg (fun c : Ctl => if r = 0 then 0 else mget 0 c.x r.toNat) hctl :)
  case mem => exact congrArg (fun m => mget byteDefault m a) hmem
  case chip => exact congrArg (fun m => mget byteDefault m a) hchip

theorem engineWordRoute_of_fetched {s u : State} {ws : List Word32} {p : Prefixes} {w : Word32} {n : Nat}
    (hh : s.vc.ctl.h = false) (hf : fetchWords s s.vc.ctl.pc 3 = .ok u ws) (hs : splitWords ws = .ok (p, w, n)) :
    execEngineWordRoute s = routeWord u p w n := by
  rw [execEngineWordRoute, restricted_outside hh, hf]
  dsimp only
  rw [hs]

/-- Settles O29: CTL's fetch finds the words and keeps what routing them depends on; the run of an engine places its micro-order; with
no run there is nothing to place. -/
theorem queuePlacement : Obligations.QueuePlacement := by
  unfold Obligations.QueuePlacement
  refine ⟨fun s ws p w n e hh hs he hp hruns hroom => ⟨fun hcode hn h3 => ?stands, fun u hf => ?fetched⟩,
    fun s e r ha hr hroom => tableEntryPlace_spec ha hr hroom, fun s e ha => ?idle⟩
  case stands =>
    obtain ⟨u, hf⟩ := fetchWords_of_codeAt hcode hs hn h3
    obtain ⟨t, x, ht, h⟩ := routeWord_entered n (fetchKeeps_fetchWords hf) he hp hruns hroom
    exact ⟨t, x, (engineWordRoute_of_fetched hh hf hs).trans ht, h⟩
  case fetched =>
    obtain ⟨t, x, ht, h⟩ := routeWord_entered n (fetchKeeps_fetchWords hf) he hp hruns hroom
    exact ⟨t, x, (engineWordRoute_of_fetched hh hf hs).trans ht, h⟩
  case idle =>
    show execTableEntryPlace e s = .next s
    rw [execTableEntryPlace, ha]

end Sys2Proof.Machine
end

section
/-! The arithmetic words of VX, element by element (R76, R173, R178): the exact operations on values as operations on the
rationals that they stand for, and the integer results that saturate. -/

namespace Sys2Proof.Machine

open Sys2Proof.Laws

/-! ### Finite values as rationals -/

/-- The sign of a value as a factor. -/
def signOf (n : Bool) : ℚ := if n then -1 else 1

theorem signOf_not (n : Bool) : signOf (!n) = -signOf n := by
  cases n <;> simp [signOf]

theorem signOf_bne (n k : Bool) : signOf (n != k) = signOf n * signOf k := by
  cases n <;> cases k <;> simp [signOf]

theorem abs_signOf (n : Bool) : |signOf n| = 1 := by
  cases n <;> simp [signOf]

theorem toRat_fin (n : Bool) (m : Nat) (e : Int) : (Val.fin n m e).toRat = signOf n * m * 2 ^ e := rfl

theorem exists_fin_of_isFin {v : Val} (h : v.isFin = true) : ∃ n m e, v = .fin n m e := by
  cases v with
  | fin n m e => exact ⟨n, m, e, rfl⟩
  | nan _ => cases h
  | inf _ => cases h

/-- A significand with its sign, brought down from exponent e to f. -/
def alignedInt (n : Bool) (m : Nat) (e f : Int) : Int :=
  if n then -((m * 2 ^ (e - f).toNat : Nat) : Int) else ((m * 2 ^ (e - f).toNat : Nat) : Int)

theorem toRat_fin_eq_alignedInt (n : Bool) (m : Nat) {e f : Int} (h : f ≤ e) :
    (Val.fin n m e).toRat = (alignedInt n m e f : ℚ) * 2 ^ f := by
  have hpow : (2 : ℚ) ^ e = 2 ^ (e - f).toNat * 2 ^ f := by
    rw [← zpow_natCast, ← zpow_add₀ two_ne_zero]
    congr 1
    omega
  rw [toRat_fin, hpow, alignedInt]
  cases n <;> simp [signOf] <;> ring

/-- The lower of two exponents, as the model picks it. -/
def lowExp (e1 e2 : Int) : Int := if e1 ≤ e2 then e1 else e2

theorem lowExp_le_left (e1 e2 : Int) : lowExp e1 e2 ≤ e1 := by unfold lowExp; split <;> omega

theorem lowExp_le_right (e1 e2 : Int) : lowExp e1 e2 ≤ e2 := by unfold lowExp; split <;> omega

theorem toRat_fin_natAbs (s e : Int) : (Val.fin (decide (s < 0)) s.natAbs e).toRat = (s : ℚ) * 2 ^ e := by
  rw [toRat_fin, Nat.cast_natAbs]
  congr 1
  rcases lt_or_ge s 0 with hs | hs
  · simp [signOf, hs, abs_of_neg hs]
  · simp [signOf, not_lt.mpr hs, abs_of_nonneg hs]

theorem addFin_eq (rm : Rm) (n1 n2 : Bool) (m1 m2 : Nat) (e1 e2 : Int) :
    addFin rm n1 m1 e1 n2 m2 e2 =
      let s := alignedInt n1 m1 e1 (lowExp e1 e2) + alignedInt n2 m2 e2 (lowExp e1 e2)
      if s = 0 then (if m1 = 0 && m2 = 0 && n1 == n2 then n1 else decide (rm = .rtn), 0, 0)
      else (decide (s < 0), s.natAbs, lowExp e1 e2) := rfl

/-- The sum is exact whatever the mode, which only settles the sign of a zero. -/
theorem toRat_addFin {rm : Rm} {n1 n2 : Bool} {m1 m2 : Nat} {e1 e2 : Int} {r : Bool × Nat × Int}
    (h : addFin rm n1 m1 e1 n2 m2 e2 = r) :
    (Val.fin r.1 r.2.1 r.2.2).toRat = (Val.fin n1 m1 e1).toRat + (Val.fin n2 m2 e2).toRat := by
  rw [toRat_fin_eq_alignedInt n1 m1 (lowExp_le_left e1 e2), toRat_fin_eq_alignedInt n2 m2 (lowExp_le_right e1 e2), ← add_mul,
    ← Int.cast_add, ← h, addFin_eq]
  dsimp only
  split
  · next h0 => simp [h0, toRat_fin]
  · exact toRat_fin_natAbs _ _

/-- A result that is finite and stands for the rational r. -/
def Val.standsFor (v : Val) (r : ℚ) : Prop := v.isFin = true ∧ v.toRat = r

theorem add_standsFor (rm : Rm) {x y : Val} (hx : x.isFin = true) (hy : y.isFin = true) :
    (Val.add rm x y).standsFor (x.toRat + y.toRat) := by
  obtain ⟨n1, m1, e1, rfl⟩ := exists_fin_of_isFin hx
  obtain ⟨n2, m2, e2, rfl⟩ := exists_fin_of_isFin hy
  exact ⟨rfl, toRat_addFin rfl⟩

theorem neg_standsFor {x : Val} (hx : x.isFin = true) : x.neg.standsFor (-x.toRat) := by
  obtain ⟨n, m, e, rfl⟩ := exists_fin_of_isFin hx
  refine ⟨rfl, ?_⟩
  rw [Val.neg, toRat_fin, toRat_fin, signOf_not]
  ring

theorem mul_standsFor {x y : Val} (hx : x.isFin = true) (hy : y.isFin = true) : (x.mul y).standsFor (x.toRat * y.toRat) := by
  obtain ⟨n1, m1, e1, rfl⟩ := exists_fin_of_isFin hx
  obtain ⟨n2, m2, e2, rfl⟩ := exists_fin_of_isFin hy
  refine ⟨rfl, ?_⟩
  simp only [Val.mul, toRat_fin, signOf_bne]
  by_cases h0 : m1 * m2 = 0
  · rcases Nat.mul_eq_zero.mp h0 with h | h <;> simp [h]
  · rw [if_neg h0, zpow_add₀ two_ne_zero, Nat.cast_mul]
    ring

theorem sub_standsFor {x y : Val} (hx : x.isFin = true) (hy : y.isFin = true) :
    (Val.add .rne x y.neg).standsFor (x.toRat - y.toRat) := by
  obtain ⟨hfin, hrat⟩ := neg_standsFor hy
  rw [sub_eq_add_neg, ← hrat]
  exact add_standsFor .rne hx hfin

theorem mul_add_standsFor {x y d : Val} (hx : x.isFin = true) (hy : y.isFin = true) (hd : d.isFin = true) :
    (Val.add .rne (x.mul y) d).standsFor (x.toRat * y.toRat + d.toRat) := by
  obtain ⟨hfin, hrat⟩ := mul_standsFor hx hy
  rw [← hrat]
  exact add_standsFor .rne hfin hd

theorem toRat_fin_false (n : Bool) (m : Nat) (e : Int) : (Val.fin false m e).toRat = |(Val.fin n m e).toRat| := by
  rw [toRat_fin, toRat_fin, abs_mul, abs_mul, abs_signOf, abs_of_nonneg (Nat.cast_nonneg m), abs_of_pos (zpow_pos two_pos e)]
  rfl

theorem abs_standsFor {x : Val} (hx : x.isFin = true) (y d p : Val) : (vecFloat .abs x y d p).standsFor |x.toRat| := by
  obtain ⟨n, m, e, rfl⟩ := exists_fin_of_isFin hx
  exact ⟨rfl, toRat_fin_false n m e⟩

/-- The order of R127 on finite values is that of their rationals, but that it also tells the two zeros apart. -/
theorem lessTotal_le {x y : Val} (hx : x.isFin = true) (hy : y.isFin = true) :
    (x.lessTotal y = true → x.toRat ≤ y.toRat) ∧ (x.lessTotal y = false → y.toRat ≤ x.toRat) := by
  obtain ⟨n1, m1, e1, rfl⟩ := exists_fin_of_isFin hx
  obtain ⟨n2, m2, e2, rfl⟩ := exists_fin_of_isFin hy
  by_cases h0 : (m1 = 0 && m2 = 0) = true
  · obtain ⟨rfl, rfl⟩ : m1 = 0 ∧ m2 = 0 := by simpa using h0
    simp [toRat_fin]
  · have hless : (Val.fin n1 m1 e1).lessTotal (.fin n2 m2 e2) =
        decide (alignedInt n1 m1 e1 (lowExp e1 e2) < alignedInt n2 m2 e2 (lowExp e1 e2)) := if_neg h0
    have hpos : (0 : ℚ) < 2 ^ lowExp e1 e2 := zpow_pos two_pos _
    rw [toRat_fin_eq_alignedInt n1 m1 (lowExp_le_left e1 e2), toRat_fin_eq_alignedInt n2 m2 (lowExp_le_right e1 e2),
      mul_le_mul_iff_left₀ hpos, mul_le_mul_iff_left₀ hpos, Int.cast_le, Int.cast_le, hless, decide_eq_true_eq,
      decide_eq_false_iff_not]
    exact ⟨le_of_lt, le_of_not_gt⟩

theorem minmax_of_isFin (mx : Bool) {x y : Val} (hx : x.isFin = true) (hy : y.isFin = true) :
    Val.minmax mx x y = if mx then (if x.lessTotal y then y else x) else (if y.lessTotal x then y else x) := by
  obtain ⟨n1, m1, e1, rfl⟩ := exists_fin_of_isFin hx
  obtain ⟨n2, m2, e2, rfl⟩ := exists_fin_of_isFin hy
  rfl

theorem min_standsFor {x y : Val} (hx : x.isFin = true) (hy : y.isFin = true) :
    (Val.minmax false x y).standsFor (min x.toRat y.toRat) := by
  obtain ⟨hlt, hge⟩ := lessTotal_le hy hx
  rw [minmax_of_isFin false hx hy, if_neg Bool.false_ne_true]
  split
  · next h => exact ⟨hy, (min_eq_right (hlt h)).symm⟩
  · next h => exact ⟨hx, (min_eq_left (hge (Bool.eq_false_iff.mpr h))).symm⟩

theorem max_standsFor {x y : Val} (hx : x.isFin = true) (hy : y.isFin = true) :
    (Val.minmax true x y).standsFor (max x.toRat y.toRat) := by
  obtain ⟨hlt, hge⟩ := lessTotal_le hx hy
  rw [minmax_of_isFin true hx hy, if_pos rfl]
  split
  · next h => exact ⟨hy, (max_eq_right (hlt h)).symm⟩
  · next h => exact ⟨hx, (max_eq_left (hge (Bool.eq_false_iff.mpr h))).symm⟩

/-! ### Products -/

theorem prodVal_linear {a b : Str} (h : a.fmt.isLog = false ∨ b.fmt.isLog = false) (rd : Nat → Byte) (i j : Nat) :
    prodVal a b rd i j = (a.val rd i).mul (b.val rd j) := by
  rcases h with h | h <;> simp [prodVal, h]

theorem prodVal_log {a b : Str} (ha : a.fmt.isLog = true) (hb : b.fmt.isLog = true) (hsa : a.sen = false) (hsb : b.sen = false)
    (rd : Nat → Byte) (i j : Nat) : prodVal a b rd i j = logProduct a.fmt b.fmt (a.code rd i) (b.code rd j) := by
  simp [prodVal, scaleBoth, ha, hb, hsa, hsb]

theorem decode_isFin_of_val {z : Str} (hs : z.sen = false) {rd : Nat → Byte} {i : Nat} (h : (z.val rd i).isFin = true) :
    (z.fmt.decode (z.code rd i)).isFin = true := by
  simpa [Str.val, hs] using h

/-- R76 where neither code is NaV nor zero. -/
theorem logProduct_of_quarters {f g : Fmt} {c d : Nat} {p q : Int} (hf : (f.decode c).isFin = true)
    (hg : (g.decode d).isFin = true) (hp : logQuarter f c = some p) (hq : logQuarter g d = some q) :
    logProduct f g c d = logval (p + q) (logSign f c != logSign g d) := by
  obtain ⟨n1, m1, e1, h1⟩ := exists_fin_of_isFin hf
  obtain ⟨n2, m2, e2, h2⟩ := exists_fin_of_isFin hg
  simp only [logProduct, h1, h2, hp, hq]

/-- R76 where neither code is NaV and one is zero. -/
theorem logProduct_of_zero {f g : Fmt} {c d : Nat} (hf : (f.decode c).isFin = true) (hg : (g.decode d).isFin = true)
    (h : logQuarter f c = none ∨ logQuarter g d = none) : logProduct f g c d = .fin false 0 0 := by
  obtain ⟨n1, m1, e1, h1⟩ := exists_fin_of_isFin hf
  obtain ⟨n2, m2, e2, h2⟩ := exists_fin_of_isFin hg
  rcases h with h | h
  · simp only [logProduct, h1, h2, h]
  · cases hc : logQuarter f c <;> simp only [logProduct, h1, h2, h, hc]

/-! ### Elements -/

section
variable {z a b : Str} {y key ctr : Word64} {rd : Nat → Byte} {i : Nat}

/-- The arithmetic words without a scalar operand (R178). -/
def arithWords : List VOp := [.add, .sub, .mul, .fma, .min, .max, .abs, .neg]

/-- A floating element is the word's exact result, rounded once by the element's conversion (R173). -/
theorem vecElem_floating {op : VOp} (ho : op ∈ arithWords) (hz : z.fmt.cls = .floating) :
    vecElem op z a b y key ctr rd i = some (z.encode .rne (z.scaleByte rd i)
      (vecFloat op (a.val rd i) (b.val rd i) (if op = .fma then z.val rd i else .fin false 0 0) (prodVal a b rd i i))) := by
  simp only [arithWords, List.mem_cons, List.not_mem_nil, or_false] at ho
  rcases ho with rfl | rfl | rfl | rfl | rfl | rfl | rfl | rfl <;> simp [vecElem, hz, scalarOp]

/-- An integer element is the word's exact result, saturated in the minimum and the maximum, else wrapped (R173). -/
theorem vecElem_integer {op : VOp} (ho : op ∈ arithWords) (hz : z.fmt.cls = .integer) :
    vecElem op z a b y key ctr rd i =
      let v := vecInt op (a.int rd i) (b.int rd i) (if op = .fma then z.int rd i else 0)
      if satOp op then some (z.fmt.satInt v) else some (z.wrap v, 0) := by
  simp only [arithWords, List.mem_cons, List.not_mem_nil, or_false] at ho
  rcases ho with rfl | rfl | rfl | rfl | rfl | rfl | rfl | rfl <;> simp [vecElem, hz, scalarOp, satOp]

/-- The element that the word writes is the conversion of an exact value that stands for r. -/
def givesExact (op : VOp) (z a b : Str) (y key ctr : Word64) (rd : Nat → Byte) (i : Nat) (r : ℚ) : Prop :=
  ∃ v : Val, v.isFin = true ∧ v.toRat = r ∧ vecElem op z a b y key ctr rd i = some (z.encode .rne (z.scaleByte rd i) v)

theorem givesExact_of {op : VOp} (ho : op ∈ arithWords) (hz : z.fmt.cls = .floating) {r : ℚ}
    (h : (vecFloat op (a.val rd i) (b.val rd i) (if op = .fma then z.val rd i else .fin false 0 0)
      (prodVal a b rd i i)).standsFor r) : givesExact op z a b y key ctr rd i r := by
  obtain ⟨hfin, hrat⟩ := h
  exact ⟨_, hfin, hrat, vecElem_floating ho hz⟩

end

/-! ### Integer results -/

/-- The least value of an integer format (R84). -/
def Fmt.least (f : Fmt) : Int := if f.isSigned then -2 ^ (f.bits - 1) else 0

/-- The greatest value of an integer format (R84). -/
def Fmt.greatest (f : Fmt) : Int := if f.isSigned then 2 ^ (f.bits - 1) - 1 else 2 ^ f.bits - 1

theorem least_le_greatest (f : Fmt) : f.least ≤ f.greatest := by
  have h1 : (1 : Int) ≤ 2 ^ (f.bits - 1) := one_le_pow₀ (by norm_num)
  have h2 : (1 : Int) ≤ 2 ^ f.bits := one_le_pow₀ (by norm_num)
  unfold Fmt.least Fmt.greatest
  split <;> omega

theorem satInt_eq_clamp (f : Fmt) (v : Int) :
    f.satInt v = (pat f.bits (max f.least (min f.greatest v)), if v < f.least ∨ f.greatest < v then 4 else 0) := by
  have hle := least_le_greatest f
  show (if v < f.least then (pat f.bits f.least, fNs) else if f.greatest < v then (pat f.bits f.greatest, fNs) else (pat f.bits v, 0)) = _
  by_cases hlo : v < f.least
  · rw [if_pos hlo, if_pos (Or.inl hlo), max_eq_left (le_trans (min_le_right _ _) hlo.le)]
    rfl
  · by_cases hhi : f.greatest < v
    · rw [if_neg hlo, if_pos hhi, if_pos (Or.inr hhi), min_eq_left hhi.le, max_eq_right hle]
      rfl
    · rw [if_neg hlo, if_neg hhi, if_neg (by tauto), min_eq_right (not_lt.mp hhi), max_eq_right (not_lt.mp hlo)]

theorem vecInt_abs (a b d : Int) : vecInt .abs a b d = |a| := by
  show (if a < 0 then -a else a) = |a|
  split
  · next h => exact (abs_of_neg h).symm
  · next h => exact (abs_of_nonneg (not_lt.mp h)).symm

theorem vecInt_min (a b d : Int) : vecInt .min a b d = min a b := by
  show (if b < a then b else a) = min a b
  split <;> omega

theorem vecInt_max (a b d : Int) : vecInt .max a b d = max a b := by
  show (if a < b then b else a) = max a b
  split <;> omega

theorem wrap_integer {z : Str} (hz : z.fmt.cls = .integer) (v : Int) : z.wrap v = pat z.fmt.bits v := by
  simp [Str.wrap, hz]

section
variable {z a b : Str} {y key ctr : Word64} {rd : Nat → Byte} {i : Nat} {op : VOp} {v : Int}

theorem vecElem_saturated (ho : op ∈ arithWords) (hs : satOp op = true) (hz : z.fmt.cls = .integer)
    (hv : vecInt op (a.int rd i) (b.int rd i) (if op = .fma then z.int rd i else 0) = v) :
    vecElem op z a b y key ctr rd i =
      some (z.wrap (max z.fmt.least (min z.fmt.greatest v)), if v < z.fmt.least ∨ z.fmt.greatest < v then 4 else 0) := by
  rw [vecElem_integer ho hz, hv]
  simp only [hs, if_true, satInt_eq_clamp, wrap_integer hz]

theorem vecElem_wrapped (ho : op ∈ arithWords) (hs : satOp op = false) (hz : z.fmt.cls = .integer)
    (hv : vecInt op (a.int rd i) (b.int rd i) (if op = .fma then z.int rd i else 0) = v) :
    vecElem op z a b y key ctr rd i = some (z.wrap v, 0) := by
  rw [vecElem_integer ho hz, hv]
  simp [hs]

end

/-- Settles O40: on floating elements each word's exact value stands for the rational of the statement, where the product of two log
elements is that of R76; on integer elements the exact integer is wrapped or saturated. -/
theorem vectorElements : Obligations.VectorElements := by
  unfold Obligations.VectorElements
  intro z a b y key ctr rd i
  refine ⟨fun hz hx hw hu => ⟨?sums, ?products, fun hla hlb hsa hsb => ?logs⟩, fun hz => ⟨?wrapped, ?saturated⟩⟩
  case sums =>
    simp only [List.forall_mem_cons]
    exact ⟨givesExact_of (by decide) hz (add_standsFor .rne hx hw), givesExact_of (by decide) hz (sub_standsFor hx hw),
      givesExact_of (by decide) hz (abs_standsFor hx _ _ _), givesExact_of (by decide) hz (neg_standsFor hx),
      givesExact_of (by decide) hz (min_standsFor hx hw), givesExact_of (by decide) hz (max_standsFor hx hw),
      List.forall_mem_nil _⟩
  case products =>
    intro hlin
    refine ⟨givesExact_of (by decide) hz ?_, givesExact_of (by decide) hz ?_⟩
    · rw [prodVal_linear hlin]
      exact mul_standsFor hx hw
    · rw [prodVal_linear hlin]
      exact mul_add_standsFor hx hw hu
  case logs =>
    have hprod := prodVal_log hla hlb hsa hsb rd i i
    have hfa := decode_isFin_of_val hsa hx
    have hfb := decode_isFin_of_val hsb hw
    refine ⟨fun hnone => givesExact_of (by decide) hz ?_, fun p q hp hq => givesExact_of (by decide) hz ?_⟩
    · rw [hprod, logProduct_of_zero hfa hfb hnone]
      exact ⟨rfl, by simp [vecFloat, toRat_fin]⟩
    · rw [hprod, logProduct_of_quarters hfa hfb hp hq]
      exact ⟨rfl, rfl⟩
  case wrapped =>
    simp only [List.forall_mem_cons]
    exact ⟨vecElem_wrapped (by decide) rfl hz rfl, vecElem_wrapped (by decide) rfl hz rfl, vecElem_wrapped (by decide) rfl hz rfl,
      vecElem_wrapped (by decide) rfl hz rfl, vecElem_wrapped (by decide) rfl hz (vecInt_abs ..),
      vecElem_wrapped (by decide) rfl hz rfl, List.forall_mem_nil _⟩
  case saturated =>
    simp only [List.forall_mem_cons]
    exact ⟨vecElem_saturated (by decide) rfl hz (vecInt_min ..), vecElem_saturated (by decide) rfl hz (vecInt_max ..),
      List.forall_mem_nil _⟩

end Sys2Proof.Machine
end

section
/-! Control and status registers (R130 to R133): what a write sets and what it leaves. -/

namespace Sys2Proof.Machine

open Sys2Proof.Laws

theorem execCsrRd_step (s : State) (d : BitVec 6) (c : BitVec 12) :
    ∃ t, execCsrRd d c s = .next t ∧ writesX s t d (csrGet s c) ∧ ctlStep s t .csr 4 ∧ keepsBytes s t := by
  rw [execCsrRd, retire_setX_charge]
  exact ⟨_, rfl, setX_step ..⟩

/-- The CSRs that software may write (R131). -/
def writableCsrs : List (BitVec 12) := [0x000, 0x001, 0x030, 0x031, 0x035, 0x040, 0x050]

/-- t is s, with the charges of u, after a word of one beat that writes xd and CSR c. -/
def csrFrame (s u t : State) (c : BitVec 12) : Prop :=
  t = { u with
    vc.ctl.x := t.vc.ctl.x, vc.ctl.pc := s.vc.ctl.pc + 4,
    vc.ctl.instret := (s.vc.ctl.instret + 1) % 2 ^ 48,
    vc.ctl.flags := if c = 0x000 then t.vc.ctl.flags else s.vc.ctl.flags,
    vc.ctl.frm := if c = 0x001 then t.vc.ctl.frm else s.vc.ctl.frm,
    vc.ctl.tvec := if c = 0x030 then t.vc.ctl.tvec else s.vc.ctl.tvec,
    vc.ctl.tepc := if c = 0x031 then t.vc.ctl.tepc else s.vc.ctl.tepc,
    vc.ctl.tscratch := if c = 0x035 then t.vc.ctl.tscratch else s.vc.ctl.tscratch,
    vc.ctl.tokmap := if c = 0x040 then t.vc.ctl.tokmap else s.vc.ctl.tokmap,
    vc.ctl.lossLimit := if c = 0x050 then t.vc.ctl.lossLimit else s.vc.ctl.lossLimit }

/-- What a writing word leaves behind: xd holds the value before, the register the new one, and no other register differs (R130). -/
def csrWrote (s t : State) (d : BitVec 6) (c : BitVec 12) (old new : Word64) : Prop :=
  writesX s t d old ∧ csrGet t c = new ∧ keepsBytes s t ∧ csrFrame s (charge s .csr) t c

section
variable {c : BitVec 12} (hc : c ∈ writableCsrs) (u : State) (d : BitVec 6) (old v : Word64)
include hc

/-- A write changes none of the x registers, memory and the bytes of the share. -/
theorem csrSet_keeps : (csrSet u c v).vc.ctl.x = u.vc.ctl.x ∧ (csrSet u c v).part = u.part ∧ (csrSet u c v).vc.chip = u.vc.chip := by
  simp only [writableCsrs, List.mem_cons, List.not_mem_nil, or_false] at hc
  rcases hc with rfl | rfl | rfl | rfl | rfl | rfl | rfl <;> exact ⟨rfl, rfl, rfl⟩

theorem csrGet_csrSet : csrGet (retire (setX (csrSet u c v) d old)) c = v &&& csrMask c := by
  simp only [writableCsrs, List.mem_cons, List.not_mem_nil, or_false] at hc
  unfold setX
  split <;> rcases hc with rfl | rfl | rfl | rfl | rfl | rfl | rfl <;> rfl

theorem csrFrame_csrSet : csrFrame u u (retire (setX (csrSet u c v) d old)) c := by
  simp only [writableCsrs, List.mem_cons, List.not_mem_nil, or_false] at hc
  unfold csrFrame setX
  split <;> rcases hc with rfl | rfl | rfl | rfl | rfl | rfl | rfl <;> rfl

end

theorem csrWrote_next (s : State) (d : BitVec 6) {c : BitVec 12} (hc : c ∈ writableCsrs) (old v : Word64) :
    csrWrote s (retire (setX (csrSet (charge s .csr) c v) d old)) d c old (v &&& csrMask c) := by
  obtain ⟨hx, hpart, hchip⟩ := csrSet_keeps hc (charge s .csr) v
  have hxr (r : BitVec 6) : xr (csrSet (charge s .csr) c v) r = xr s r := by simp [xr, hx]
  refine ⟨⟨?_, fun r hr => ?_⟩, csrGet_csrSet hc .., ⟨fun a => ?_, fun a => ?_⟩, ?_⟩
  · rw [retire, xr_retireTo, xr_setX]
    by_cases hd : d = 0#6 <;> simp [hd, xr]
  · rw [retire, xr_retireTo, xr_setX, if_neg (fun h => hr h.1), hxr]
  · simp [physByte, hpart]
  · simp [hchip]
  · have h := csrFrame_csrSet hc (charge s .csr) d old v
    unfold csrFrame at h ⊢
    rw [charge_vc] at h
    rwa [charge_vc]

theorem csrOp_spec (s : State) (d : BitVec 6) {c : BitVec 12} (hc : c ∈ writableCsrs) (v : Word64) :
    (c = 0x040 → tokmapBad s v = true → csrOp s d c v = ctlFault s 0x10 0 0) ∧
    ((c = 0x040 → tokmapBad s v = false) → ∃ t, csrOp s d c v = .next t ∧ csrWrote s t d c (csrGet s c) (v &&& csrMask c)) := by
  refine ⟨fun h hb => if_pos ⟨h, hb⟩, fun h => ⟨_, if_neg fun ⟨h40, hb⟩ => ?_, csrWrote_next s d hc _ v⟩⟩
  rw [h h40] at hb
  exact Bool.false_ne_true hb

/-- What O12 says of the three words that write CSR c. -/
theorem csrWrites_spec (s : State) (d a : BitVec 6) {c : BitVec 12} (hc : c ∈ writableCsrs) :
    ∀ q ∈ ([(.csrWr d a c, xr s a), (.csrOr d a c, csrGet s c ||| xr s a), (.csrAndn d a c, csrGet s c &&& ~~~xr s a)]
        : List (Instr × Word64)),
      (c = 0x040 → tokmapBad s q.2 = true → exec q.1 s = ctlFault s 0x10 0 0) ∧
      ((c = 0x040 → tokmapBad s q.2 = false) →
        ∃ t, exec q.1 s = .next t ∧ csrWrote s t d c (csrGet s c) (q.2 &&& csrMask c)) := by
  simp only [List.forall_mem_cons]
  exact ⟨csrOp_spec s d hc _, csrOp_spec s d hc _, csrOp_spec s d hc _, List.forall_mem_nil _⟩

/-- Settles O12: csr.rd by the value of each register, the writing words by their register's place among the writable ones. -/
theorem csrWords : Obligations.CsrWords := by
  unfold Obligations.CsrWords
  refine ⟨fun s d => ?reads, fun s d a => ?writes⟩
  case reads =>
    simp only [List.forall_mem_cons]
    exact ⟨execCsrRd_step .., execCsrRd_step .., execCsrRd_step .., execCsrRd_step .., execCsrRd_step .., execCsrRd_step ..,
      execCsrRd_step .., execCsrRd_step .., execCsrRd_step .., execCsrRd_step .., execCsrRd_step .., execCsrRd_step ..,
      execCsrRd_step .., execCsrRd_step .., execCsrRd_step .., List.forall_mem_nil _⟩
  case writes =>
    intro A p hp
    simp only [List.mem_cons, List.not_mem_nil, or_false] at hp
    rcases hp with rfl | rfl | rfl | rfl | rfl | rfl | rfl <;> exact csrWrites_spec s d a (by simp [writableCsrs])

end Sys2Proof.Machine
end

section
/-! Token and event words of CTL (R94, R95, R106): the words of major 0x24 outside a handler. -/

namespace Sys2Proof.Machine

open Sys2Proof.Laws

/-- A word of CTL that charges e.sys to u and goes on. -/
theorem sysNext_eq (u : State) :
    sysNext u = .next { charge u .sys with
      vc.ctl.pc := u.vc.ctl.pc + 4, vc.ctl.instret := (u.vc.ctl.instret + 1) % 2 ^ 48 } := by
  simp [sysNext, retire, retireTo]

/-! ### Words that write xd -/

theorem tokNext_step (s : State) (d : BitVec 6) (v : Word64) :
    ∃ t, tokNext s d v = .next t ∧ writesX s t d v ∧ ctlStep s t .sys 4 ∧ keepsBytes s t := by
  rw [tokNext, retire_setX_charge]
  exact ⟨_, rfl, setX_step ..⟩

theorem frameCount_of_unfrozen {s : State} (h : s.launch.frozen = none) : frameCount s = s.vc.now % 2 ^ 48 := by
  rw [frameCount, h]

/-- A charge looks at nothing of a register. -/
theorem charge_setX (s : State) (d : BitVec 6) (v : Word64) (c : EClass) : charge (setX s d v) c = setX (charge s c) d v := by
  have hcoef : coef (setX s d v) c = coef s c := by simp [coef]
  unfold charge chargeTo chargeFor
  rw [hcoef]
  by_cases h : coef s c * 1 = 0
  · rw [if_pos h, if_pos h]
  · rw [if_neg h, if_neg h]
    unfold setX
    split <;> rfl

/-! ### Tokens -/

section
variable {s : State} {f : BitVec 2} (hh : s.vc.ctl.h = false)
include hh

theorem execTokPush_room (h : ctlPushFull s f.toNat = false) : execTokPush f s = sysNext (tokPut s f.toNat) := by
  simp [execTokPush, restricted_outside hh, h]

theorem execTokPush_overflow (h : ctlPushFull s f.toNat = true) (hm : s.launch.mode = .lockstep) :
    execTokPush f s = ctlFault s 0x11 0 0 := by
  simp [execTokPush, restricted_outside hh, h, hm]

theorem execTokPush_held (h : ctlPushFull s f.toNat = true) (hm : s.launch.mode = .elastic) : execTokPush f s = .next s := by
  simp [execTokPush, restricted_outside hh, h, hm]

theorem execTokPop_empty (h : tokCount s f.toNat = 0) : execTokPop f s = .next s := by
  simp [execTokPop, restricted_outside hh, h]

theorem execTokPop_takes (h : tokCount s f.toNat ≠ 0) : execTokPop f s = sysNext (tokTake s f.toNat) := by
  simp [execTokPop, restricted_outside hh, h]

end

/-! ### Event records -/

/-- What ev.pop leaves behind: the oldest record has left the queue and stands in xd and the register after it, none with x0 (R106). -/
def evPopped (s t : State) (d : BitVec 6) (a b : Word64) (r : List (Word64 × Word64)) : Prop :=
  keepsBytes s t ∧ ctlStep { s with vc.eng.events := r } t .sys 4 ∧ (d = 0 → keepsX s t) ∧
    (d ≠ 0 → xr t d = a ∧ xr t (d + 1) = b ∧ ∀ q, q ≠ d → q ≠ d + 1 → xr t q = xr s q)

theorem ctlStep_setX_setX (s : State) (d e : BitVec 6) (v w n : Word64) (c : EClass) :
    ctlStep s (retireTo (setX (setX (charge s c) e w) d v) (s.vc.ctl.pc + n)) c n := by
  unfold ctlStep retireTo setX
  split <;> split <;> simp

theorem execEvPop_spec {s : State} {d : BitVec 6} {a b : Word64} {r : List (Word64 × Word64)} (hh : s.vc.ctl.h = false)
    (he : s.vc.eng.events = (a, b) :: r) (hd : d.toNat % 2 = 0) :
    ∃ t, execEvPop d s = .next t ∧ evPopped s t d a b r := by
  simp only [execEvPop, restricted_outside hh, he]
  by_cases h0 : d = 0
  · rw [if_pos h0]
    exact ⟨_, rfl, keepsBytes_sysNext rfl rfl, ctlStep_sysNext _, fun _ => keepsX_sysNext rfl, fun h => absurd h0 h⟩
  · have hne : d + 1 ≠ 0 := by bv_omega
    have hne' : d + 1 ≠ d := by bv_omega
    rw [if_neg h0, tokNext, charge_setX, retire]
    refine ⟨_, rfl, ⟨fun x => by simp [physByte], fun x => by simp⟩, ?_, fun h => absurd h h0, fun _ => ⟨?_, ?_, fun q hq hq' => ?_⟩⟩
    · simpa using ctlStep_setX_setX { s with vc.eng.events := r } d (d + 1) a b 4 .sys
    · rw [xr_retireTo, xr_setX, if_pos ⟨rfl, h0⟩]
    · rw [xr_retireTo, xr_setX, if_neg (fun h => hne' h.1), xr_setX, if_pos ⟨rfl, hne⟩]
    · rw [xr_retireTo, xr_setX, if_neg (fun h => hq h.1), xr_setX, if_neg (fun h => hq' h.1), xr_charge]
      rfl

/-- Settles O13: each word by its equation outside a handler. That these words charge e.sys is the model's reading (log 37). -/
theorem tokenAndEventWords : Obligations.TokenAndEventWords := by
  unfold Obligations.TokenAndEventWords
  refine ⟨fun s d f hh => ?tokens, fun s d hh => ?events⟩
  case tokens =>
    have hfull : ctlPushFull s f.toNat = decide (15 ≤ mget 0 s.vc.eng.tokens f.toNat +
        ((s.vc.eng.pushIn.filter (fun p => p.2 == f.toNat)).length + queuePushes s f.toNat)) := by
      rw [← Nat.add_assoc]
      rfl
    refine ⟨fun h => ?_, fun h hm => ?_, fun h hm => ?_, fun h => ?_, fun h => ?_, ?_, ?_⟩
    · exact (execTokPush_room hh (by rw [hfull]; exact decide_eq_false (by omega))).trans (sysNext_eq _)
    · exact execTokPush_overflow hh (by rw [hfull]; exact decide_eq_true h) hm
    · exact execTokPush_held hh (by rw [hfull]; exact decide_eq_true h) hm
    · exact execTokPop_empty hh h
    · exact ⟨_, (execTokPop_takes hh h).trans (sysNext_eq _), mget_mput_same .., fun g hg => mget_mput_ne _ _ _ hg⟩
    · rw [show exec (.tokRead d f) s = _ from restricted_outside hh _]
      exact tokNext_step ..
    · rw [show exec (.frame d) s = _ from restricted_outside hh _]
      obtain ⟨t, ht, hx, hstep, hbytes⟩ := tokNext_step s d (w64 (frameCount s))
      exact ⟨t, ht, hstep, hbytes, fun hz => frameCount_of_unfrozen hz ▸ hx⟩
  case events =>
    refine ⟨?_, fun h => ⟨?_, ?_⟩, fun h => ?_, fun a b r he hd => execEvPop_spec hh he hd⟩
    · rw [show exec (.evCount d) s = _ from restricted_outside hh _]
      exact tokNext_step ..
    · show execEvWait d s = _
      simp [execEvWait, restricted_outside hh, h]
    · show execEvPop d s = _
      simp [execEvPop, restricted_outside hh, h]
    · rw [show exec (.evWait d) s = _ from restricted_outside hh _, if_neg (by simpa using h)]
      exact tokNext_step ..

end Sys2Proof.Machine
end

section
/-! The issue of an engine word (R88, R90, R94, R96, R98, R105): a word that stands ready issues, and what its leaving the queue
changes of the engine state. -/

namespace Sys2Proof.Machine

open Sys2Proof.Laws

/-! ### Queues of the engine state -/

@[simp] theorem q_setQ (en : Eng) (q u : Queue) (v : QState) : (en.setQ q v).q u = if u = q then v else en.q u := by
  cases q <;> cases u <;> rfl

/-- Changing the queues of a list one after another, each once. -/
theorem q_foldl_setQ (f : QState → QState) (l : List Queue) (hl : l.Nodup) (en : Eng) (u : Queue) :
    (l.foldl (fun e q => e.setQ q (f (e.q q))) en).q u = if u ∈ l then f (en.q u) else en.q u := by
  induction l generalizing en with
  | nil => rfl
  | cons q l ih =>
    obtain ⟨hq, hl⟩ := List.nodup_cons.mp hl
    rw [List.foldl_cons, ih hl, q_setQ]
    by_cases hu : u = q
    · simp [hu, hq]
    · simp [hu]

theorem nodup_standsIn (shared : Bool) (q : Queue) : (standsIn shared q).Nodup := by
  cases shared
  · exact List.nodup_singleton q
  · exact (by decide : columns.Nodup)

theorem mem_allQueues (u : Queue) : u ∈ allQueues := by cases u <;> decide

/-- The queue without the word numbered n. -/
def QState.without (n : Nat) (v : QState) : QState := { v with entries := v.entries.filter (fun x => x.seq != n) }

/-- The queue with x in the place of the entry of its number. -/
def QState.renew (x : QEntry) (v : QState) : QState := { v with entries := v.entries.map (fun y => if y.seq = x.seq then x else y) }

theorem seqs_renew (x : QEntry) (v : QState) : (v.renew x).entries.map (fun y => y.seq) = v.entries.map (fun y => y.seq) := by
  simp only [QState.renew, List.map_map]
  refine List.map_congr_left fun y _ => ?_
  by_cases h : y.seq = x.seq <;> simp [h]

theorem without_renew (x : QEntry) (v : QState) : (v.renew x).without x.seq = v.without x.seq := by
  have h (l : List QEntry) : (l.map (fun y => if y.seq = x.seq then x else y)).filter (fun y => y.seq != x.seq) =
      l.filter (fun y => y.seq != x.seq) := by
    induction l with
    | nil => rfl
    | cons y l ih => by_cases hy : y.seq = x.seq <;> simp [hy, ih]
  simp only [QState.without, QState.renew, h]

theorem q_setEntry (s : State) (x : QEntry) (u : Queue) : (setEntry s x).vc.eng.q u = (s.vc.eng.q u).renew x :=
  (q_foldl_setQ (fun v => v.renew x) allQueues (by decide) s.vc.eng u).trans (if_pos (mem_allQueues u))

theorem q_popHead (s : State) (q u : Queue) (e : QEntry) :
    (popHead s q e).vc.eng.q u = if u ∈ standsIn e.shared q then (s.vc.eng.q u).without e.seq else s.vc.eng.q u := by
  rw [← q_foldl_setQ (fun v => v.without e.seq) _ (nodup_standsIn ..)]
  unfold popHead standsIn
  cases e.shared <;> rfl

theorem q_setLast (s : State) (q u : Queue) (shared : Bool) (n : Nat) :
    (setLast s q shared n).vc.eng.q u =
      if u ∈ standsIn shared q then { s.vc.eng.q u with next := s.vc.now + n + 1 } else s.vc.eng.q u := by
  rw [← q_foldl_setQ (fun v => { v with next := s.vc.now + n + 1 }) _ (nodup_standsIn ..)]
  unfold setLast standsIn
  cases shared <;> rfl

/-! ### What an issue changes -/

/-- Nothing of u but the queues, the tokens, the step counters and the charges on their way differs from s. -/
def issueKeeps (s u : State) : Prop :=
  u = { s with
    vc.eng := { s.vc.eng with
      ld := u.vc.eng.ld, mx := u.vc.eng.mx, vx := u.vc.eng.vx, fx := u.vc.eng.fx, rx := u.vc.eng.rx, st := u.vc.eng.st,
      tokens := u.vc.eng.tokens, popped := u.vc.eng.popped, stepc := u.vc.eng.stepc },
    part.charges := u.part.charges }

theorem issueKeeps_trans {s t u : State} (h : issueKeeps s t) (k : issueKeeps t u) : issueKeeps s u := by
  unfold issueKeeps at h
  refine k.trans ?_
  rw [h]

theorem issueKeeps_setEntry (s : State) (x : QEntry) : issueKeeps s (setEntry s x) := rfl

theorem issueKeeps_takeTokens (s : State) (fs : List Nat) : issueKeeps s (takeTokens s fs) := by
  induction fs generalizing s with
  | nil => rfl
  | cons f fs ih => exact issueKeeps_trans (t := { tokTake s f with vc.eng.popped := _ }) rfl (ih _)

theorem issueKeeps_popHead (s : State) (q : Queue) (e : QEntry) : issueKeeps s (popHead s q e) := by
  unfold popHead
  cases e.shared
  · cases q <;> rfl
  · rfl

theorem issueKeeps_setLast (s : State) (q : Queue) (shared : Bool) (n : Nat) : issueKeeps s (setLast s q shared n) := by
  unfold setLast
  cases shared
  · cases q <;> rfl
  · rfl

theorem issueKeeps_countStep (s : State) (q : Queue) (e : QEntry) : issueKeeps s (countStep s q e) := by
  unfold countStep
  dsimp only
  split <;> rfl

theorem issueKeeps_charge (s : State) (c : EClass) : issueKeeps s (charge s c) := by
  unfold charge chargeTo chargeFor
  split <;> rfl

theorem q_takeTokens (s : State) (fs : List Nat) (u : Queue) : (takeTokens s fs).vc.eng.q u = s.vc.eng.q u := by
  induction fs generalizing s with
  | nil => rfl
  | cons f fs ih =>
    refine (ih _).trans ?_
    cases u <;> rfl

theorem q_countStep (s : State) (q u : Queue) (e : QEntry) : (countStep s q e).vc.eng.q u = s.vc.eng.q u := by
  unfold countStep
  dsimp only
  split
  · rfl
  · cases u <;> rfl

/-- The tokens that a word pops are gone (R94). -/
theorem tokens_takeTokens (s : State) (fs : List Nat) (k : Nat) :
    mget 0 (takeTokens s fs).vc.eng.tokens k = mget 0 s.vc.eng.tokens k - fs.count k ∧
    mget 0 (takeTokens s fs).vc.eng.popped k = mget 0 s.vc.eng.popped k + fs.count k := by
  induction fs generalizing s with
  | nil => exact ⟨rfl, rfl⟩
  | cons f fs ih =>
    obtain ⟨htok, hpop⟩ := ih { tokTake s f with vc.eng.popped := mput 0 s.vc.eng.popped f (mget 0 s.vc.eng.popped f + 1) }
    refine ⟨htok.trans ?_, hpop.trans ?_⟩
    · by_cases h : k = f
      · simp [h, tokTake, tokCount]
        omega
      · simp [h, Ne.symm h, tokTake]
    · by_cases h : k = f
      · simp [h]
        omega
      · simp [h, Ne.symm h]

theorem stepc_takeTokens (s : State) (fs : List Nat) : (takeTokens s fs).vc.eng.stepc = s.vc.eng.stepc := by
  induction fs generalizing s with
  | nil => rfl
  | cons f fs ih => exact ih _

theorem stepc_countStep (s : State) (q : Queue) (e : QEntry) (k : Nat) :
    mget 0 (countStep s q e).vc.eng.stepc k =
      if k = engCode (qEngine q) ∧ e.counted = false then (mget 0 s.vc.eng.stepc k + 1) % 2 ^ 32 else mget 0 s.vc.eng.stepc k := by
  unfold countStep
  cases e.counted
  · by_cases hk : k = engCode (qEngine q) <;> simp [hk]
  · simp

theorem tokens_countStep (s : State) (q : Queue) (e : QEntry) :
    (countStep s q e).vc.eng.tokens = s.vc.eng.tokens ∧ (countStep s q e).vc.eng.popped = s.vc.eng.popped := by
  unfold countStep
  dsimp only
  split <;> exact ⟨rfl, rfl⟩

/-- Where a word stands in its queue says nothing of tokens and counters. -/
theorem counters_setLast_popHead (s : State) (q : Queue) (e : QEntry) (n : Nat) :
    let u := setLast (popHead s q e) q e.shared n
    u.vc.eng.tokens = s.vc.eng.tokens ∧ u.vc.eng.popped = s.vc.eng.popped ∧ u.vc.eng.stepc = s.vc.eng.stepc := by
  unfold setLast popHead
  cases e.shared
  · cases q <;> exact ⟨rfl, rfl, rfl⟩
  · exact ⟨rfl, rfl, rfl⟩

/-! ### A word leaves its queue -/

/-- The entry that has stood at its head: what issueWord notes of it before it issues. -/
def stoodEntry (s : State) (e : QEntry) (reached : Bool) : QEntry :=
  { e with stood := some (stoodBeat s e), reached := e.reached || reached }

/-- Word e leaves queue q, as issueWord has it leave. -/
def issueLeave (s : State) (q : Queue) (e : QEntry) (pops : List Nat) (n : Nat) (cls : Option EClass) : State :=
  leaveQueue (setEntry s (stoodEntry s e true)) q e pops n cls

section
variable (s : State) (q : Queue) (e : QEntry) (pops : List Nat) (n : Nat) (cls : Option EClass)

theorem leaveQueue_vc : (leaveQueue s q e pops n cls).vc =
    (countStep (setLast (popHead (takeTokens s pops) q e) q e.shared n) q e).vc := by
  cases cls
  · rfl
  · exact charge_vc ..

theorem issueKeeps_leaveQueue : issueKeeps s (leaveQueue s q e pops n cls) := by
  have h := issueKeeps_trans (issueKeeps_trans (issueKeeps_trans (issueKeeps_takeTokens s pops) (issueKeeps_popHead _ q e))
    (issueKeeps_setLast _ q e.shared n)) (issueKeeps_countStep _ q e)
  cases cls
  · exact h
  · exact issueKeeps_trans h (issueKeeps_charge ..)

theorem issueKeeps_issueLeave : issueKeeps s (issueLeave s q e pops n cls) :=
  issueKeeps_trans (issueKeeps_setEntry ..) (issueKeeps_leaveQueue ..)

theorem q_leaveQueue (u : Queue) : (leaveQueue s q e pops n cls).vc.eng.q u =
    if u ∈ standsIn e.shared q then { (s.vc.eng.q u).without e.seq with next := s.vc.now + n + 1 } else s.vc.eng.q u := by
  have hnow : (popHead (takeTokens s pops) q e).vc.now = s.vc.now := by
    rw [issueKeeps_trans (issueKeeps_takeTokens s pops) (issueKeeps_popHead _ q e)]
  rw [leaveQueue_vc, q_countStep, q_setLast, q_popHead, q_takeTokens, hnow]
  by_cases hu : u ∈ standsIn e.shared q <;> simp [hu]

/-- The queues that the word stood in no longer have it, and their L stands n beats on (R88, R90, R101). -/
theorem q_issueLeave {u : Queue} (hu : u ∈ standsIn e.shared q) :
    (issueLeave s q e pops n cls).vc.eng.q u = { (s.vc.eng.q u).without e.seq with next := s.vc.now + n + 1 } := by
  rw [issueLeave, q_leaveQueue, if_pos hu, q_setEntry]
  exact congrArg (fun v : QState => { v with next := s.vc.now + n + 1 }) (without_renew (stoodEntry s e true) _)

theorem q_issueLeave_other {u : Queue} (hu : u ∉ standsIn e.shared q) :
    (issueLeave s q e pops n cls).vc.eng.q u = (s.vc.eng.q u).renew (stoodEntry s e true) := by
  rw [issueLeave, q_leaveQueue, if_neg hu, q_setEntry]

theorem tokens_issueLeave (k : Nat) :
    mget 0 (issueLeave s q e pops n cls).vc.eng.tokens k = mget 0 s.vc.eng.tokens k - pops.count k ∧
    mget 0 (issueLeave s q e pops n cls).vc.eng.popped k = mget 0 s.vc.eng.popped k + pops.count k := by
  obtain ⟨htok, hpop, -⟩ := counters_setLast_popHead (takeTokens (setEntry s (stoodEntry s e true)) pops) q e n
  rw [issueLeave, leaveQueue_vc, (tokens_countStep _ q e).1, (tokens_countStep _ q e).2, htok, hpop]
  exact tokens_takeTokens (setEntry s (stoodEntry s e true)) pops k

theorem stepc_issueLeave (k : Nat) :
    mget 0 (issueLeave s q e pops n cls).vc.eng.stepc k =
      if k = engCode (qEngine q) ∧ e.counted = false then (mget 0 s.vc.eng.stepc k + 1) % 2 ^ 32 else mget 0 s.vc.eng.stepc k := by
  obtain ⟨-, -, hstep⟩ := counters_setLast_popHead (takeTokens (setEntry s (stoodEntry s e true)) pops) q e n
  rw [issueLeave, leaveQueue_vc, stepc_countStep, hstep, stepc_takeTokens]
  rfl

end

/-- A word that stands in one queue has left it, and is in flight as f; t has the queues, tokens and counters of the leaving. -/
theorem issuedFrom_of_leave {s t : State} {q : Queue} {e : QEntry} {pops pushes : List Nat} {n : Nat} {cls : Option EClass} {f : Flight}
    (hs : e.shared = false) (hq : ∀ u, t.vc.eng.q u = (issueLeave s q e pops n cls).vc.eng.q u)
    (htok : t.vc.eng.tokens = (issueLeave s q e pops n cls).vc.eng.tokens)
    (hpop : t.vc.eng.popped = (issueLeave s q e pops n cls).vc.eng.popped)
    (hstep : t.vc.eng.stepc = (issueLeave s q e pops n cls).vc.eng.stepc)
    (hf : f.seq = e.seq ∧ f.q = q ∧ f.issued = s.vc.now ∧ f.toks = pushes) : issuedFrom s t q e pops pushes n f := by
  have hin : q ∈ standsIn e.shared q := by simp [standsIn, hs]
  have hout {u : Queue} (hu : u ≠ q) : u ∉ standsIn e.shared q := by simpa [standsIn, hs] using hu
  refine ⟨?_, fun u hu => ?_, ?_, fun u hu => ?_, fun k => ?_, fun k => ?_, fun k => ?_, hf⟩
  · rw [hq, q_issueLeave s q e pops n cls hin]
    rfl
  · rw [hq, q_issueLeave_other s q e pops n cls (hout hu), seqs_renew]
  · rw [hq, q_issueLeave s q e pops n cls hin]
  · rw [hq, q_issueLeave_other s q e pops n cls (hout hu)]
    rfl
  · rw [htok, (tokens_issueLeave s q e pops n cls k).1]
  · rw [hpop, (tokens_issueLeave s q e pops n cls k).2]
  · rw [hstep, stepc_issueLeave]

/-! ### A word at its head issues, waits or faults -/

theorem tokMissing_setEntry (s : State) (x : QEntry) (fs : List Nat) : tokMissing (setEntry s x) fs = tokMissing s fs := by
  have h (s t : State) (ht : t.vc.eng.tokens = s.vc.eng.tokens) : tokMissing t fs = tokMissing s fs := by
    induction fs generalizing s t with
    | nil => rfl
    | cons f fs ih =>
      have hc : tokCount t f = tokCount s f := by rw [tokCount, ht, tokCount]
      rw [tokMissing, tokMissing, hc, ih (tokTake s f) (tokTake t f) (by simp [tokTake, hc, ht])]
  exact h _ _ rfl

/-- The word stands at the head of its queue, nothing holds it, and its tokens resolve: what a turn of the queue finds before it
looks at the word's head checks and its beat (R88). -/
def atHead (s : State) (q : Queue) (b : EngBits) (e : QEntry) (pops pushes : List Nat) : Prop :=
  headOf s q = some e ∧ e.bad = false ∧ (e.shared = true → sharedAtHead s e = true) ∧ queueHeld s q = false ∧ e.ready ≤ s.vc.now ∧
  tokenFifos s q b = some (pops, pushes)

/-- The beat of the word has come (R96, R98). -/
def onTime (s : State) (q : Queue) (b : EngBits) (e : QEntry) (pops : List Nat) : Prop :=
  tokMissing s pops = none ∧ inFlight s.vc < 128 ∧
  (s.launch.mode = .lockstep → sched (queueNext s q e.shared) b.delay.toNat b.stamp = (s.vc.now, false)) ∧
  (s.launch.mode = .elastic →
    (if (sched (queueNext s q e.shared) b.delay.toNat b.stamp).2 then queueNext s q e.shared
     else (sched (queueNext s q e.shared) b.delay.toNat b.stamp).1) ≤ s.vc.now ∧
    (e.reached = true ∨ bpStops s (unitOf q e) e.name = false))

theorem ready_of_standsReady {s : State} {q : Queue} {b : EngBits} {e : QEntry} {pops pushes : List Nat}
    (h : standsReady s q b e pops pushes) : atHead s q b e pops pushes ∧ onTime s q b e pops := by
  obtain ⟨hhead, hbad, hshared, hheld, hready, htok, hmiss, hroom, hlock, hel⟩ := h
  rw [atHead, onTime, hshared]
  exact ⟨⟨hhead, hbad, fun h => absurd h Bool.false_ne_true, hheld, hready, htok⟩, hmiss, hroom, hlock, hel⟩

theorem ready_of_sharedReady {s : State} {b : EngBits} {e : QEntry} {pops pushes : List Nat} (h : sharedReady s b e pops pushes) :
    atHead s .mx b e pops pushes ∧ onTime s .mx b e pops := by
  obtain ⟨hhead, hbad, hshared, hall, hheld, hready, htok, hmiss, hroom, hlock, hel⟩ := h
  have hunit : unitOf .mx e = 8 := if_pos hshared
  rw [atHead, onTime, hunit, hshared]
  exact ⟨⟨hhead, hbad, fun _ => hall, hheld, hready, htok⟩, hmiss, hroom, hlock, hel⟩

section
variable {s : State} {q : Queue} {b : EngBits} {e : QEntry} {pops pushes : List Nat} {head check : QEntry → Chk} {n : Nat}
  {cls : Option EClass} {go : QEntry → List Nat → State → State}

theorem issueWord_turn (h : atHead s q b e pops pushes) :
    (queueHeld s q || (e.shared && !sharedAtHead s e) || decide (s.vc.now < e.ready)) = false := by
  obtain ⟨-, -, hall, hheld, hready, -⟩ := h
  cases hsh : e.shared
  · simp [hheld, hready]
  · simp [hheld, hready, hall hsh]

theorem overrunNow_onTime (h : onTime s q b e pops) (x : QEntry) (stood : Nat) :
    overrunNow (setEntry s x) q e s.vc.now stood false false pops = none := by
  obtain ⟨hmiss, -⟩ := h
  rw [overrunNow, tokMissing_setEntry, hmiss]
  simp [setEntry]

/-- A word whose checks pass issues at its beat: it leaves its queue, and `go` says what it does (R88). -/
theorem issueWord_issues (h : atHead s q b e pops pushes) (ht : onTime s q b e pops) (hhead : head e = .ok) (hcheck : check e = .ok) :
    issueWord s q b head check n cls go = .next (go e pushes (issueLeave s q e pops n cls)) := by
  have hturn := issueWord_turn h
  have hover := overrunNow_onTime ht (stoodEntry s e true) (stoodBeat s e)
  obtain ⟨hq, hbad, -, -, -, htok⟩ := h
  obtain ⟨hmiss, hroom, hlock, hel⟩ := ht
  have hgood : need (!e.bad) 1 = .ok := by rw [hbad]; rfl
  have hgate : issueGate (setEntry s (stoodEntry s e true)) q e .ok (fun t => go e pushes (leaveQueue t q e pops n cls)) =
      .next (go e pushes (issueLeave s q e pops n cls)) := if_neg (by simpa using hroom)
  unfold issueWord
  rw [hq]
  dsimp only
  rw [if_neg (Bool.eq_false_iff.mp hturn), hgood, hhead, hcheck, htok]
  cases hm : s.launch.mode with
  | lockstep =>
    dsimp only [firstChk]
    rw [hlock hm]
    dsimp only
    split
    · next t hlate => cases hlate.symm.trans hover
    · rw [if_neg (lt_irrefl _)]
      exact hgate
  | elastic =>
    obtain ⟨hlo, hbp⟩ := hel hm
    have hbreak : (!e.reached && bpStops s (unitOf q e) e.name) = false := by
      rcases hbp with hr | hb
      · rw [hr]; rfl
      · rw [hb, Bool.and_false]
    dsimp only [firstChk]
    rw [hmiss, hbreak, decide_eq_false (not_lt.mpr hlo)]
    exact hgate

/-- A head check that fails is the word's fault, before its beat comes (R88). -/
theorem issueWord_headFault {c d : Nat} (h : atHead s q b e pops pushes) (hhead : head e = .fault c d) :
    issueWord s q b head check n cls go = .next (queueFault s q e c d (wordTval e)) := by
  have hturn := issueWord_turn h
  obtain ⟨hq, hbad, -, -, -, htok⟩ := h
  have hgood : need (!e.bad) 1 = .ok := by rw [hbad]; rfl
  unfold issueWord
  rw [hq]
  dsimp only
  rw [if_neg (Bool.eq_false_iff.mp hturn), hgood, hhead, htok]
  rfl

/-- In an Elastic launch a word whose head checks wait stands at its head (R98). -/
theorem issueWord_headWaits {c : Nat} (h : atHead s q b e pops pushes) (hm : s.launch.mode = .elastic) (hhead : head e = .wait c) :
    issueWord s q b head check n cls go = .next (setEntry s (stoodEntry s e false)) := by
  have hturn := issueWord_turn h
  obtain ⟨hq, hbad, -, -, -, htok⟩ := h
  have hgood : need (!e.bad) 1 = .ok := by rw [hbad]; rfl
  unfold issueWord
  rw [hq]
  dsimp only
  rw [if_neg (Bool.eq_false_iff.mp hturn), hgood, hhead, htok, hm]
  dsimp only [firstChk]
  exact if_pos (by simp)

end

end Sys2Proof.Machine
end

section
/-! The waits and fences of the queues, and evpost (R100, R101, R104, R271). -/

namespace Sys2Proof.Machine

open Sys2Proof.Laws

/-! ### Words in flight -/

theorem flights_issueKeeps {s u : State} (h : issueKeeps s u) : u.vc.eng.flights = s.vc.eng.flights := by
  rw [h]

theorem addFlight_issueKeeps {s u : State} (h : issueKeeps s u) (f : Flight) :
    (addFlight u f).vc.eng.flights = s.vc.eng.flights ++ [f] ∧ engineStep s (addFlight u f) ∧ engineRest s (addFlight u f) := by
  refine ⟨by rw [addFlight_flights, flights_issueKeeps h], ?_, ?_⟩
  · unfold engineStep
    rw [h]
    rfl
  · unfold engineRest
    rw [h]
    rfl

theorem q_addFlight (s : State) (f : Flight) (u : Queue) : (addFlight s f).vc.eng.q u = s.vc.eng.q u := by cases u <;> rfl

/-- A word that stands in one queue and touches no data completes k beats after its issue (R90, R100). -/
theorem plainFlight_issued (s : State) (q : Queue) {e : QEntry} (pops pushes : List Nat) (n k : Nat) (cls : Option EClass)
    (hs : e.shared = false) :
    let t := plainFlight (issueLeave s q e pops n cls) q e pushes k
    ∃ f, t.vc.eng.flights = s.vc.eng.flights ++ [f] ∧ issuedFrom s t q e pops pushes n f ∧ f.done = some (s.vc.now + k) ∧
      engineStep s t ∧ engineRest s t := by
  have hk := issueKeeps_issueLeave s q e pops n cls
  have hnow : (issueLeave s q e pops n cls).vc.now = s.vc.now := by rw [hk]
  obtain ⟨hfl, hstep, hrest⟩ := addFlight_issueKeeps hk
    { flightOf (issueLeave s q e pops n cls) q e pushes with done := some ((issueLeave s q e pops n cls).vc.now + k) }
  exact ⟨_, hfl, issuedFrom_of_leave hs (q_addFlight _ _) rfl rfl rfl ⟨rfl, rfl, hnow, rfl⟩, congrArg (fun b => some (b + k)) hnow,
    hstep, hrest⟩

/-- A word that stands in all four columns and touches no data (R101). -/
theorem plainFlight_shared (s : State) {e : QEntry} (pops pushes : List Nat) (n k : Nat) (cls : Option EClass) (hs : e.shared = true) :
    let t := plainFlight (issueLeave s .mx e pops n cls) .mx e pushes k
    ∃ f, t.vc.eng.flights = s.vc.eng.flights ++ [f] ∧ f.seq = e.seq ∧ f.done = some (s.vc.now + k) ∧ engineStep s t ∧
      ∀ c ∈ columns, (t.vc.eng.q c).next = s.vc.now + n + 1 ∧
        (t.vc.eng.q c).entries = (s.vc.eng.q c).entries.filter (fun x => x.seq != e.seq) := by
  have hk := issueKeeps_issueLeave s .mx e pops n cls
  have hnow : (issueLeave s .mx e pops n cls).vc.now = s.vc.now := by rw [hk]
  obtain ⟨hfl, hstep, -⟩ := addFlight_issueKeeps hk
    { flightOf (issueLeave s .mx e pops n cls) .mx e pushes with done := some ((issueLeave s .mx e pops n cls).vc.now + k) }
  refine ⟨_, hfl, rfl, congrArg (fun b => some (b + k)) hnow, hstep, fun c hc => ?_⟩
  have hin : c ∈ standsIn e.shared .mx := by simpa [standsIn, hs] using hc
  rw [plainFlight, q_addFlight, q_issueLeave s .mx e pops n cls hin]
  exact ⟨rfl, rfl⟩

/-- A word that waits at its head has issued nothing, and the queues have the words that they had. -/
theorem setEntry_waits (s : State) (x : QEntry) :
    (setEntry s x).vc.eng.flights = s.vc.eng.flights ∧ (setEntry s x).vc.faults = s.vc.faults ∧
      ∀ k, ((setEntry s x).vc.eng.q k).entries.map (fun y => y.seq) = (s.vc.eng.q k).entries.map (fun y => y.seq) :=
  ⟨rfl, rfl, fun k => by rw [q_setEntry, seqs_renew]⟩

/-! ### Waits and fences -/

/-- The head check of a queue fence (R271). -/
def fenceHead (s : State) (m : BitVec 7) (h : QEntry) : Chk :=
  firstChk [need (decide (m ≠ 0)) 1, await (qfenceHolds s m h) 0x14]

section
variable {s : State} {q : Queue} {e : EngBits} {x : QEntry} {pops pushes : List Nat} {m : BitVec 7}

theorem waitOp_issues (n : BitVec 12) (h : atHead s q e x pops pushes) (ht : onTime s q e x pops) :
    waitOp s q e n = .next (plainFlight (issueLeave s q x pops n.toNat none) q x pushes n.toNat) :=
  issueWord_issues h ht rfl rfl

theorem fenceHead_holds (hm : m ≠ 0) (hq : qfenceHolds s m x = true) : fenceHead s m x = .ok := by
  rw [fenceHead, decide_eq_true hm, hq]
  rfl

theorem fenceHead_waits (hm : m ≠ 0) (hq : qfenceHolds s m x = false) : fenceHead s m x = .wait 0x14 := by
  rw [fenceHead, decide_eq_true hm, hq]
  rfl

theorem qfenceOp_illegal (h : atHead s q e x pops pushes) (hm : m = 0) :
    qfenceOp s q e m = .next (queueFault s q x 0x01 0 (x.word.setWidth 64)) :=
  issueWord_headFault h (show fenceHead s m x = _ by rw [hm]; rfl)

theorem qfenceOp_issues (h : atHead s q e x pops pushes) (ht : onTime s q e x pops) (hm : m ≠ 0) (hq : qfenceHolds s m x = true) :
    qfenceOp s q e m = .next (plainFlight (issueLeave s q x pops 0 (some .sys)) q x pushes 0) :=
  issueWord_issues h ht (fenceHead_holds hm hq) rfl

theorem qfenceOp_waits (h : atHead s q e x pops pushes) (hel : s.launch.mode = .elastic) (hm : m ≠ 0)
    (hq : qfenceHolds s m x = false) : qfenceOp s q e m = .next (setEntry s (stoodEntry s x false)) :=
  issueWord_headWaits h hel (fenceHead_waits hm hq)

end

/-! ### evpost -/

/-- The tag of an evpost record: the step count that the word had before it was counted itself (R104, R105). -/
def evpostTag (u : State) (x : QEntry) : Nat :=
  if x.counted then mget 0 u.vc.eng.stepc 2 else mget 0 u.vc.eng.stepc 2 + (2 ^ 32 - 1)

/-- The record that evpost holds, or posts at beat b (R102, R104): `head` is the beat's part of word 0. -/
def evpostRecord (u : State) (x : QEntry) (b head hold : Nat) : EvRec :=
  ⟨b, w64 (head + recWord 2 0 (evpostTag u x) 2), w64 (frameCount u), 2, x.poster.tval, x.poster.name, x.poster.seq, hold⟩

theorem evpostStart_held {u : State} {x : QEntry} {toks : List Nat} (hm : u.launch.mode = .elastic)
    (hr : eventRoomAt u (u.vc.now + 1) = false) :
    evpostStart x toks u =
      addFlight { u with vc.eng.heldEv := u.vc.eng.heldEv ++ [evpostRecord u x 0 0 (x.seq + 1)] } (flightOf u .st x toks) := by
  rw [evpostRecord, Nat.zero_add]
  exact if_pos ⟨hm, hr⟩

theorem evpostStart_posted {u : State} {x : QEntry} {toks : List Nat}
    (h : u.launch.mode = .lockstep ∨ eventRoomAt u (u.vc.now + 1) = true) :
    evpostStart x toks u =
      addFlight { u with vc.eng.evIn := u.vc.eng.evIn ++
          [evpostRecord u x (u.vc.now + 1) ((u.vc.now + 1) % 2 ^ 24 * 2 ^ 40) 0] }
        { flightOf u .st x toks with done := some u.vc.now } := by
  refine if_neg fun ⟨hm, hr⟩ => ?_
  rcases h with h | h
  · cases h.symm.trans hm
  · cases h.symm.trans hr

/-- The fields of word 0 of a record (R102): its kind, its source and its tag. -/
theorem recWord_fields (b src tag kind : Nat) (hs : src < 16) :
    let w := (w64 (b % 2 ^ 24 * 2 ^ 40 + recWord src 0 tag kind)).toNat
    w % 2 ^ 8 = kind % 2 ^ 8 ∧ w / 2 ^ 12 % 16 = src ∧ w / 2 ^ 24 % 2 ^ 16 = tag % 2 ^ 16 := by
  have hw : (w64 (b % 2 ^ 24 * 2 ^ 40 + recWord src 0 tag kind)).toNat = b % 2 ^ 24 * 2 ^ 40 + recWord src 0 tag kind := by
    rw [w64, BitVec.toNat_ofNat]
    unfold recWord
    omega
  dsimp only
  rw [hw]
  unfold recWord
  omega

/-- An issue looks at nothing that the event queue's room depends on. -/
theorem eventRoomAt_issueKeeps {s u : State} (h : issueKeeps s u) (b : Nat) : eventRoomAt u b = eventRoomAt s b := by
  rw [h]
  rfl

theorem evpostTag_issueLeave (s : State) {x : QEntry} (pops : List Nat) (hc : x.counted = false) :
    evpostTag (issueLeave s .st x pops 0 none) x % 2 ^ 16 = mget 0 s.vc.eng.stepc 2 % 2 ^ 16 := by
  rw [evpostTag, hc, if_neg Bool.false_ne_true, stepc_issueLeave, if_pos ⟨rfl, hc⟩]
  omega

section
variable {s : State} {e : EngBits} {q : QEntry} {pops pushes : List Nat}

theorem execEvpost_issues (h : standsReady s .st e q pops pushes) :
    execEvpost e s = .next (evpostStart q pushes (issueLeave s .st q pops 0 none)) :=
  issueWord_issues (ready_of_standsReady h).1 (ready_of_standsReady h).2 rfl rfl

/-- With no room an Elastic launch holds the record, and the word's completion with it (R103, R104). -/
theorem execEvpost_held (h : standsReady s .st e q pops pushes) (hm : s.launch.mode = .elastic)
    (hr : eventRoomAt s (s.vc.now + 1) = false) :
    ∃ t f x, execEvpost e s = .next t ∧ t.vc.eng.flights = s.vc.eng.flights ++ [f] ∧ issuedFrom s t .st q pops pushes 0 f ∧
      f.done = none ∧ t.vc.eng.evIn = s.vc.eng.evIn ∧ t.vc.eng.heldEv = s.vc.eng.heldEv ++ [x] ∧ x.src = 2 ∧
      x.hold = q.seq + 1 := by
  have hexec := execEvpost_issues h
  obtain ⟨-, -, hshared, -⟩ := h
  have hk := issueKeeps_issueLeave s .st q pops 0 none
  have hnow : (issueLeave s .st q pops 0 none).vc.now = s.vc.now := by rw [hk]
  have hfl := flights_issueKeeps hk
  have hheld : (issueLeave s .st q pops 0 none).vc.eng.heldEv = s.vc.eng.heldEv := by rw [hk]
  rw [evpostStart_held (by rw [hk]; exact hm) (by rw [eventRoomAt_issueKeeps hk, hnow]; exact hr)] at hexec
  refine ⟨_, flightOf (issueLeave s .st q pops 0 none) .st q pushes, _, hexec, congrArg (· ++ [_]) hfl,
    issuedFrom_of_leave hshared (q_addFlight _ _) rfl rfl rfl ⟨rfl, rfl, hnow, rfl⟩, rfl, ?_, congrArg (· ++ [_]) hheld, rfl, rfl⟩
  show (issueLeave s .st q pops 0 none).vc.eng.evIn = _
  rw [hk]

theorem execEvpost_posted (h : standsReady s .st e q pops pushes)
    (hr : s.launch.mode = .lockstep ∨ eventRoomAt s (s.vc.now + 1) = true) :
    ∃ t f x, execEvpost e s = .next t ∧ t.vc.eng.flights = s.vc.eng.flights ++ [f] ∧ issuedFrom s t .st q pops pushes 0 f ∧
      f.done = some s.vc.now ∧ t.vc.eng.evIn = s.vc.eng.evIn ++ [x] ∧ x.beat = s.vc.now + 1 ∧ x.src = 2 ∧
      x.w0.toNat % 2 ^ 8 = 2 ∧ x.w0.toNat / 2 ^ 12 % 16 = 2 ∧
      (q.counted = false → x.w0.toNat / 2 ^ 24 % 2 ^ 16 = mget 0 s.vc.eng.stepc 2 % 2 ^ 16) ∧
      (s.launch.frozen = none → x.w1 = w64 (s.vc.now % 2 ^ 48)) := by
  have hexec := execEvpost_issues h
  obtain ⟨-, -, hshared, -⟩ := h
  have hk := issueKeeps_issueLeave s .st q pops 0 none
  have hnow : (issueLeave s .st q pops 0 none).vc.now = s.vc.now := by rw [hk]
  have hfl := flights_issueKeeps hk
  have hin : (issueLeave s .st q pops 0 none).vc.eng.evIn = s.vc.eng.evIn := by rw [hk]
  rw [evpostStart_posted (by rw [eventRoomAt_issueKeeps hk, hnow, hk]; exact hr)] at hexec
  obtain ⟨hkind, hsrc, htag⟩ := recWord_fields ((issueLeave s .st q pops 0 none).vc.now + 1) 2
    (evpostTag (issueLeave s .st q pops 0 none) q) 2 (by decide)
  refine ⟨_, { flightOf (issueLeave s .st q pops 0 none) .st q pushes with done := some (issueLeave s .st q pops 0 none).vc.now }, _,
    hexec, congrArg (· ++ [_]) hfl, issuedFrom_of_leave hshared (q_addFlight _ _) rfl rfl rfl ⟨rfl, rfl, hnow, rfl⟩, congrArg some hnow,
    congrArg (· ++ [_]) hin, congrArg (· + 1) hnow, rfl, hkind, hsrc, fun hc => htag.trans (evpostTag_issueLeave s pops hc), fun hz => ?_⟩
  rw [← frameCount_of_unfrozen hz]
  show w64 (frameCount (issueLeave s .st q pops 0 none)) = _
  rw [hk]
  rfl

end

/-! ### The statement -/

/-- What O49 says of a wait and a fence of queue p, LD or ST. -/
theorem waitAndFence_spec (s : State) (p : Queue) (e : EngBits) (n : BitVec 12) (m : BitVec 7) (q : QEntry) (pops pushes : List Nat)
    (h : standsReady s p e q pops pushes) :
    (∃ t f, waitOp s p e n = .next t ∧ t.vc.eng.flights = s.vc.eng.flights ++ [f] ∧ issuedFrom s t p q pops pushes n.toNat f ∧
      f.done = some (s.vc.now + n.toNat) ∧ engineStep s t ∧ engineRest s t) ∧
    (m = 0 → qfenceOp s p e m = .next (queueFault s p q 0x01 0 (q.word.setWidth 64))) ∧
    (m ≠ 0 → qfenceHolds s m q = true →
      ∃ t f, qfenceOp s p e m = .next t ∧ t.vc.eng.flights = s.vc.eng.flights ++ [f] ∧ issuedFrom s t p q pops pushes 0 f ∧
        f.done = some s.vc.now ∧ engineStep s t ∧ engineRest s t) ∧
    (m ≠ 0 → qfenceHolds s m q = false → s.launch.mode = .elastic →
      ∃ t, qfenceOp s p e m = .next t ∧ t.vc.eng.flights = s.vc.eng.flights ∧ t.vc.faults = s.vc.faults ∧
        ∀ k, (t.vc.eng.q k).entries.map (fun x => x.seq) = (s.vc.eng.q k).entries.map (fun x => x.seq)) := by
  obtain ⟨hhead, htime⟩ := ready_of_standsReady h
  obtain ⟨-, -, hshared, -⟩ := h
  refine ⟨?wait, qfenceOp_illegal hhead, fun hm hq => ?holds, fun hm hq hel => ⟨_, qfenceOp_waits hhead hel hm hq, setEntry_waits ..⟩⟩
  case wait =>
    obtain ⟨f, hf⟩ := plainFlight_issued s p pops pushes n.toNat n.toNat none hshared
    exact ⟨_, f, waitOp_issues n hhead htime, hf⟩
  case holds =>
    obtain ⟨f, hf⟩ := plainFlight_issued s p pops pushes 0 0 (some .sys) hshared
    exact ⟨_, f, qfenceOp_issues hhead htime hm hq, hf⟩

/-- Settles O49: LD and ST by one lemma, evpost with and without room, and the words that stand in the four columns. -/
theorem waitWords : Obligations.WaitWords := by
  unfold Obligations.WaitWords
  intro s e n m q pops pushes
  refine ⟨?_, execEvpost_held, execEvpost_posted, fun h => ?_⟩
  · simp only [List.forall_mem_cons]
    exact ⟨waitAndFence_spec s .ld e n m q pops pushes, waitAndFence_spec s .st e n m q pops pushes, List.forall_mem_nil _⟩
  · obtain ⟨hhead, htime⟩ := ready_of_sharedReady h
    obtain ⟨-, -, hshared, -⟩ := h
    obtain ⟨f, hf⟩ := plainFlight_shared s pops pushes n.toNat n.toNat none hshared
    obtain ⟨g, hg⟩ := plainFlight_shared s pops pushes 0 0 (some .sys) hshared
    exact ⟨⟨_, f, waitOp_issues n hhead htime, hf⟩, fun hm hq hel => ⟨_, qfenceOp_waits hhead hel hm hq, setEntry_waits ..⟩,
      fun hm hq => ⟨_, g, qfenceOp_issues hhead htime hm hq, hg⟩⟩

end Sys2Proof.Machine
end

section
/-! Landings of the on-chip map and records that wait for room (R103, R153, R159, R169). -/

namespace Sys2Proof.Machine

open Sys2Proof.Laws

/-! ### Bytes that land in one row of the scratchpad -/

/-- The bytes d from offset `off` on, as a landing writes them. -/
def landing (off : Nat) (d : List Byte) : List (Nat × Byte × Byte) :=
  (d.zip (countUp off d.length)).map (fun p => (p.2, (0xFF : Byte), p.1))

theorem landing_cons (off : Nat) (v : Byte) (d : List Byte) : landing off (v :: d) = (off, 0xFF, v) :: landing (off + 1) d := rfl

theorem mix_full (old v : Byte) : mix old 0xFF v = v := by
  have h : (0xFF : Byte) = BitVec.allOnes 8 := rfl
  rw [mix, h, BitVec.not_allOnes, BitVec.and_zero, BitVec.zero_or, BitVec.and_allOnes]

theorem claim_nil (a : Nat) (read : Bool) (owner : Nat) :
    claim [] a read owner = some [⟨bankOf a, rowOf a, read, owner⟩] := rfl

/-- A row that an owner writes takes its further writes at the same beat (R153). -/
theorem claim_again {a b : Nat} (h : a / 64 = b / 64) (owner : Nat) :
    claim [⟨bankOf a, rowOf a, false, owner⟩] b false owner = some [⟨bankOf a, rowOf a, false, owner⟩] := by
  have hbank : bankOf a = bankOf b := congrArg (· % 64) h
  have hrow : rowOf a = rowOf b := by
    have hdiv (n : Nat) : n / 4096 = n / 64 / 64 := (Nat.div_div_eq_div_mul n 64 64).symm
    rw [rowOf, rowOf, hdiv, hdiv, h]
  simp [claim, hbank, hrow]

theorem writeAll_landing {cl : List Claim} {owner line : Nat} (hcl : ∀ a, a / 64 = line → claim cl a false owner = some cl)
    (d : List Byte) (off : Nat) (hd : ∀ i, i < d.length → (off + i) / 64 = line) (chip : SMap Byte) :
    writeAll owner (landing off d) cl chip = (cl, mputs byteDefault chip off d, []) := by
  induction d generalizing off chip with
  | nil => rfl
  | cons v d ih =>
    have htail (i : Nat) (hi : i < d.length) : (off + 1 + i) / 64 = line := by
      rw [Nat.add_assoc, Nat.add_comm 1 i]
      exact hd (i + 1) (Nat.succ_lt_succ hi)
    rw [landing_cons, writeAll, hcl off (hd 0 (Nat.zero_lt_succ _))]
    simp only [mix_full]
    exact ih (off + 1) htail _

/-- Where no bank serves another access, bytes of one row land (R153). -/
theorem writeAll_free (owner off : Nat) (d : List Byte) (chip : SMap Byte) (h : off % 64 + d.length ≤ 64) :
    ∃ cl, writeAll owner (landing off d) [] chip = (cl, mputs byteDefault chip off d, []) := by
  cases d with
  | nil => exact ⟨[], rfl⟩
  | cons v d =>
    have hlen : off % 64 + (d.length + 1) ≤ 64 := h
    refine ⟨[⟨bankOf off, rowOf off, false, owner⟩], ?_⟩
    rw [landing_cons, writeAll, claim_nil]
    simp only [mix_full]
    exact writeAll_landing (line := off / 64) (fun a ha => claim_again ha.symm owner) d (off + 1) (fun i hi => by omega) _

/-- Bytes put into a virtual core's window memory, and those beside them. -/
theorem chip_mputs (m : SMap Byte) (off : Nat) (d : List Byte) :
    (∀ i, i < d.length → mget 0 (mputs byteDefault m off d) (off + i) = listAt 0 d i) ∧
    ∀ o, o < off ∨ off + d.length ≤ o → mget 0 (mputs byteDefault m off d) o = mget 0 m o := by
  refine ⟨fun i hi => (mget_mputs m off d (off + i)).trans ?_, fun o ho => (mget_mputs m off d o).trans (if_neg (by omega))⟩
  rw [if_pos ⟨Nat.le_add_right .., by omega⟩, Nat.add_sub_cancel_left]

/-! ### A map access lands -/

section
variable {s : State} {n : Nat} {a : MapAcc}

/-- Map access n is due at its target, and nothing holds it. -/
def mapDue (s : State) (n : Nat) (a : MapAcc) : Prop :=
  s.launch.maps[n]? = some a ∧ a.dst = s.vc.id ∧ a.due ≤ s.vc.now ∧ frozenNow s = false ∧ mapEarlier s n a = false

theorem execMapAccessLanding_due (h : mapDue s n a) :
    execMapAccessLanding n s =
      match mapWhat s a.off with
      | none => .next (dropMap s n)
      | some .bytes =>
        if a.off < s.share then .next (mapBytes s n a)
        else .next (charge (dropMap { s with vc := mapLand s.vc a .bytes } n) .sp a.data.length)
      | some (.z z k) =>
        if s.vc.zFull z then .next s else .next (dropMap { s with vc := mapLand s.vc a (.z z k) } n)
      | some w => .next (dropMap { s with vc := mapLand s.vc a w } n) := by
  obtain ⟨hget, hdst, hdue, hfrozen, hfirst⟩ := h
  have hgo : (decide (a.dst ≠ s.vc.id) || decide (s.vc.now < a.due) || frozenNow s || mapEarlier s n a) = false := by
    simp [hdst, hdue, hfrozen, hfirst]
  unfold execMapAccessLanding
  simp only [hget, hgo]
  rfl

/-- A write into the share whose row is free lands (R153, R169). -/
theorem mapBytes_free (hcl : s.vc.claims = []) (hrow : a.off % 64 + a.data.length ≤ 64) :
    (mapBytes s n a).launch.maps = s.launch.maps.eraseIdx n ∧
    (mapBytes s n a).vc.chip = mputs byteDefault s.vc.chip a.off a.data := by
  obtain ⟨cl, hw⟩ := writeAll_free (a.owner s.vc.claims.length) a.off a.data s.vc.chip hrow
  have hm : mapBytes s n a =
      charge (dropMap { s with vc := { s.vc with claims := cl, chip := mputs byteDefault s.vc.chip a.off a.data } } n) .sp a.data.length := by
    unfold mapBytes
    rw [hcl] at hw ⊢
    rw [landing] at hw
    simp only [hw, List.isEmpty_nil, if_true]
  rw [hm]
  exact ⟨congrArg (fun l => l.maps) (charge_launch ..), congrArg (fun v => v.chip) (charge_vc ..)⟩

end

theorem zword_zset (v : VC) (z k : Nat) (w : Word64) : (v.zset z k w).zword z k = w := by
  simp [VC.zword, VC.zset]

/-- A write of ring word 0 resets the ring (R159, R169). -/
theorem ring_mapLand (v : VC) (a : MapAcc) (k : Nat) :
    (mapLand v a (.g k 0)).ring k = ⟨w64 (leNat a.data), 0, 0, 0⟩ := by
  simp [mapLand, VC.ring, ringReset]

/-- Map access n lands, and the state it leaves has property P. -/
def mapLands (s : State) (n : Nat) (P : State → Prop) : Prop :=
  ∃ t, exec (.mapAccessLanding n) s = .next t ∧ t.launch.maps = s.launch.maps.eraseIdx n ∧ P t

/-- The bytes of access a stand in the window, and those beside them are as in s. -/
def bytesStand (s : State) (a : MapAcc) (t : State) : Prop :=
  (∀ i, i < a.data.length → mget 0 t.vc.chip (a.off + i) = listAt 0 a.data i) ∧
  ∀ o, o < a.off ∨ a.off + a.data.length ≤ o → mget 0 t.vc.chip o = mget 0 s.vc.chip o

section
variable {s : State} {n : Nat} {a : MapAcc}

theorem mapLands_y (h : mapDue s n a) {k : Nat} (hw : mapWhat s a.off = some (.y k)) :
    mapLands s n (fun t => t.vc.chip = s.vc.chip ∧ yr t k = if s.vc.ywrote.contains k then yr s k else w64 (leNat a.data)) := by
  have hexec := execMapAccessLanding_due h
  rw [hw] at hexec
  refine ⟨_, hexec, rfl, ?_⟩
  show (mapLand s.vc a (.y k)).chip = s.vc.chip ∧ mget 0 (mapLand s.vc a (.y k)).ctl.y k = _
  by_cases hy : s.vc.ywrote.contains k = true
  · rw [mapLand, if_pos hy, if_pos hy]
    exact ⟨rfl, rfl⟩
  · rw [mapLand, if_neg hy, if_neg hy]
    exact ⟨rfl, mget_mput_same ..⟩

theorem mapLands_m (h : mapDue s n a) {k : Nat} (hw : mapWhat s a.off = some (.m k)) :
    mapLands s n (fun t => mr t k = w64 (leNat a.data) ∧ t.vc.chip = s.vc.chip) := by
  have hexec := execMapAccessLanding_due h
  rw [hw] at hexec
  exact ⟨_, hexec, rfl, mget_mput_same .., rfl⟩

theorem mapLands_z (h : mapDue s n a) {z k : Nat} (hw : mapWhat s a.off = some (.z z k)) (hz : s.vc.zFull z = false) :
    mapLands s n (fun t => t.vc.zword z k = w64 (leNat a.data) ∧ t.vc.chip = s.vc.chip) := by
  have hexec := execMapAccessLanding_due h
  simp only [hw, hz] at hexec
  exact ⟨_, hexec, rfl, zword_zset .., rfl⟩

theorem mapLands_g (h : mapDue s n a) {k : Nat} (hw : mapWhat s a.off = some (.g k 0)) :
    mapLands s n (fun t => (t.vc.ring k).w0 = w64 (leNat a.data) ∧
      (t.vc.ring k).cnt = 0 ∧ (t.vc.ring k).head = 0 ∧ (t.vc.ring k).tail = 0) := by
  have hexec := execMapAccessLanding_due h
  rw [hw] at hexec
  have hring := ring_mapLand s.vc a k
  exact ⟨_, hexec, rfl, congrArg Ring.w0 hring, congrArg Ring.cnt hring, congrArg Ring.head hring, congrArg Ring.tail hring⟩

/-- Bytes of a tile take no bank. -/
theorem mapLands_tile (h : mapDue s n a) (hw : mapWhat s a.off = some .bytes) (hoff : s.share ≤ a.off) :
    mapLands s n (bytesStand s a) := by
  have hexec := execMapAccessLanding_due h
  simp only [hw, Nat.not_lt.mpr hoff, if_false] at hexec
  refine ⟨_, hexec, congrArg (fun l => l.maps) (charge_launch ..), ?_⟩
  rw [bytesStand, charge_vc]
  exact chip_mputs s.vc.chip a.off a.data

theorem mapLands_share (h : mapDue s n a) (hw : mapWhat s a.off = some .bytes) (hoff : a.off < s.share)
    (hcl : s.vc.claims = []) (hrow : a.off % 64 + a.data.length ≤ 64) : mapLands s n (bytesStand s a) := by
  have hexec := execMapAccessLanding_due h
  simp only [hw, hoff, if_true] at hexec
  obtain ⟨hmaps, hchip⟩ := mapBytes_free (s := s) (n := n) (a := a) hcl hrow
  refine ⟨_, hexec, hmaps, ?_⟩
  rw [bytesStand, hchip]
  exact chip_mputs s.vc.chip a.off a.data

end

/-! ### A held record is posted -/

/-- The oldest held record is posted, and what it held completes (R103, R104). -/
theorem eventRecordHeldPost_posts (s : State) (h : EvRec) (r : List EvRec) (hheld : s.vc.eng.heldEv = h :: r)
    (hroom : s.vc.eng.events.length + s.vc.eng.evIn.length < s.evCap) :
    ∃ t, exec .eventRecordHeldPost s = .next t ∧ t.vc.eng.heldEv = r ∧
      t.vc.eng.evIn = s.vc.eng.evIn ++
        [{ h with beat := s.vc.now + 1, w0 := w64 ((s.vc.now + 1) % 2 ^ 24 * 2 ^ 40 + h.w0.toNat), hold := 0 }] ∧
      (h.hold = 0 → t.vc.eng.flights = s.vc.eng.flights ∧ t.vc.colls = s.vc.colls) ∧
      (∀ f ∈ t.vc.eng.flights, f.seq + 1 = h.hold → f.done = some s.vc.now) ∧
      (h.hold ≠ 0 → t.vc.colls = s.vc.colls.filter (fun c => c.num + 1 != h.hold)) ∧
      t = { s with vc.eng.heldEv := t.vc.eng.heldEv, vc.eng.evIn := t.vc.eng.evIn,
                   vc.eng.flights := t.vc.eng.flights, vc.colls := t.vc.colls, vc.sentColls := t.vc.sentColls } := by
  have hexec : exec .eventRecordHeldPost s = execEventRecordHeldPost s := rfl
  rw [hexec]
  unfold execEventRecordHeldPost
  rw [hheld]
  simp only [if_neg (Nat.not_le.mpr hroom)]
  by_cases hz : h.hold = 0
  · rw [if_pos hz]
    refine ⟨_, rfl, rfl, rfl, fun _ => ⟨rfl, rfl⟩, fun f _ hf => ?_, fun hne => absurd hz hne, rfl⟩
    omega
  · rw [if_neg hz]
    refine ⟨_, rfl, rfl, rfl, fun h0 => absurd h0 hz, fun f hf hseq => ?_, fun _ => rfl, rfl⟩
    obtain ⟨g, -, rfl⟩ := List.mem_map.mp hf
    by_cases hg : g.seq + 1 = h.hold
    · rw [if_pos hg]
    · rw [if_neg hg] at hseq
      exact absurd hseq hg

end Sys2Proof.Machine
end

section
/-! What recording a fault changes (R297, R372, R378), and the overruns of R96. -/

namespace Sys2Proof.Machine

open Sys2Proof.Laws

/-! ### A fault is recorded -/

theorem voteFlag_keeps (v : VC) (n : Nat) : v.voteFlag n = { v with tx.vote := (v.voteFlag n).tx.vote } := by
  unfold VC.voteFlag
  split <;> rfl

/-- Of a virtual core a fault's vote changes the vote alone. -/
theorem voteFault_keeps (v : VC) (cause : Nat) : v.voteFault cause = { v with tx.vote := (v.voteFault cause).tx.vote } := by
  have twice (n : Nat) : (v.voteFlag 9).voteFlag n = { v with tx.vote := ((v.voteFlag 9).voteFlag n).tx.vote } := by
    rw [voteFlag_keeps (v.voteFlag 9) n, voteFlag_keeps v 9]
  unfold VC.voteFault
  dsimp only
  split
  · exact twice 5
  split
  · exact twice 4
  split
  · exact twice 3
  · exact voteFlag_keeps v 9

/-- The counters that a fault enters are the partition's. -/
theorem eccOutside_countError (s : State) (n cause detail : Nat) :
    eccOutside (countError s cause detail) n cause =
      { s with part := (eccOutside (countError s cause detail) n cause).part } := by
  unfold eccOutside countError bumpCount
  split <;> split <;> rfl

/-- What a recorded fault adds to the virtual core that it is recorded against. -/
def VC.withFault (v : VC) (f : FaultRec) : VC :=
  { v.voteFault f.cause with faults := v.faults ++ [f], raised := if v.raised = 0 then f.cause else v.raised }

theorem withFault_keeps (v : VC) (f : FaultRec) :
    v.withFault f = { v with tx.vote := (v.withFault f).tx.vote, faults := v.faults ++ [f], raised := (v.withFault f).raised } := by
  unfold VC.withFault
  rw [voteFault_keeps]

/-- Fault f stands at virtual core n, and the counters have it. -/
def faultNoted (s : State) (n : Nat) (f : FaultRec) : State :=
  updVC (eccOutside (countError s f.cause f.detail) n f.cause) n (fun v => v.withFault f)

theorem faultNoted_self (s : State) (f : FaultRec) :
    faultNoted s s.vc.id f = { s with vc := s.vc.withFault f, part := (faultNoted s s.vc.id f).part } := by
  rw [faultNoted, eccOutside_countError, updVC, if_pos rfl]

theorem faultNoted_launch (s : State) (n : Nat) (f : FaultRec) : (faultNoted s n f).launch = s.launch := by
  rw [faultNoted, eccOutside_countError, updVC]
  split <;> rfl

/-- Beside noting a fault, recording it changes at most the beat at which the launch froze (R378). -/
theorem raiseAt_eq (s : State) (n : Nat) (f : FaultRec) :
    raiseAt s n f = { faultNoted s n f with launch.frozen := (raiseAt s n f).launch.frozen } := by
  unfold raiseAt
  dsimp only
  split <;> rfl

/-- A fault freezes a Lockstep launch (R378). -/
theorem raiseAt_freezes {s : State} (h : s.launch.mode = .lockstep) (n : Nat) (f : FaultRec) :
    (raiseAt s n f).launch.frozen.isSome = true := by
  have hm : (faultNoted s n f).launch.mode = .lockstep := by rw [faultNoted_launch, h]
  unfold raiseAt
  dsimp only
  split
  · rfl
  · rfl
  next he => exact nomatch he.symm.trans hm

/-- Nothing of t but the vote of the virtual core in focus, the counters of the partition and the beat of the freeze differs from s with
fault f recorded (R297, R372, R378). -/
def faultedFrom (s t : State) (f : FaultRec) : Prop :=
  t = { s with
    vc := { s.vc with tx.vote := t.vc.tx.vote, faults := s.vc.faults ++ [f], raised := t.vc.raised },
    part := t.part, launch.frozen := t.launch.frozen }

theorem raiseAt_self (s : State) (f : FaultRec) : faultedFrom s (raiseAt s s.vc.id f) f := by
  unfold faultedFrom
  rw [raiseAt_eq, faultNoted_self, withFault_keeps]

theorem queueFault_self (s : State) (q : Queue) (e : QEntry) (cause detail : Nat) (tval : Word64) :
    faultedFrom s (queueFault s q e cause detail tval)
      { src := if e.shared then 8 else qCode q + 1, cause := cause, detail := detail, tval := tval,
        beat := s.vc.now, name := e.name, seq := some e.seq, tepc := none } := raiseAt_self ..

/-! ### Overruns (R96) -/

section
variable {s : State} {u : Queue} {e : QEntry} {pops pushes : List Nat}

/-- Word e stands alone at the head of queue u of a Lockstep launch, no fence, and nothing holds it. -/
def lockstepHead (s : State) (u : Queue) (e : QEntry) (pops pushes : List Nat) : Prop :=
  headOf s u = some e ∧ s.launch.mode = .lockstep ∧ queueHeld s u = false ∧ e.shared = false ∧ e.bad = false ∧
  e.ready ≤ s.vc.now ∧ tokenFifos s u (entryBits9 e) = some (pops, pushes) ∧ fenceMask e.word = none

/-- The scheduled beat of the word, and whether its stamp is behind (R90). -/
def schedOf (s : State) (u : Queue) (e : QEntry) : Nat × Bool :=
  sched (s.vc.eng.q u).next (entryBits9 e).delay.toNat e.stamp

theorem execOverrun_of_head (h : lockstepHead s u e pops pushes) :
    execOverrun u s = match overrunNow s u e (schedOf s u e).1 (stoodBeat s e) (schedOf s u e).2 false pops with
      | some t => .next t
      | none => .next s := by
  obtain ⟨hhead, hmode, hheld, hshared, hbad, hready, htok, hfence⟩ := h
  have hgo : (queueHeld s u || (e.shared && !sharedAtHead s e) || decide (s.vc.now < e.ready)
      || decide (s.launch.mode = .elastic) || e.bad) = false := by
    simp [hheld, hshared, hready, hmode, hbad]
  have hnext : queueNext s u e.shared = (s.vc.eng.q u).next := by rw [hshared]; rfl
  unfold execOverrun
  simp only [hhead, hgo, htok, hfence, hnext]
  rfl

/-- The overrun fault of kind `kind` stands against queue u. -/
def overrunFaults (s : State) (u : Queue) (e : QEntry) (kind : Nat) (tval : Word64) : Prop :=
  ∃ t g, exec (.overrun u) s = .next t ∧ t.vc.faults = s.vc.faults ++ [g] ∧ g.cause = 0x14 ∧ g.detail = kind ∧
    g.tval = tval ∧ g.beat = s.vc.now ∧ g.name = e.name ∧ g.src = qCode u + 1 ∧ t.launch.frozen.isSome = true ∧
    t.vc.eng = s.vc.eng

theorem overrunFaults_of (h : lockstepHead s u e pops pushes) {sb reach fifo kind : Nat}
    (hov : overrunNow s u e (schedOf s u e).1 (stoodBeat s e) (schedOf s u e).2 false pops = some (overrun s u e sb reach fifo kind)) :
    overrunFaults s u e kind (overrunWord sb reach fifo (qCode u) kind) := by
  have hexec := execOverrun_of_head h
  rw [hov] at hexec
  obtain ⟨-, hmode, -, hshared, -⟩ := h
  have hf := queueFault_self s u e 0x14 kind (overrunWord sb reach fifo (overrunQueue u e) kind)
  have hfz := raiseAt_freezes hmode s.vc.id
    { src := if e.shared then 8 else qCode u + 1, cause := 0x14, detail := kind, tval := overrunWord sb reach fifo (overrunQueue u e) kind,
      beat := s.vc.now, name := e.name, seq := some e.seq, tepc := none }
  refine ⟨_, _, hexec, congrArg (fun t => t.vc.faults) hf, rfl, rfl, ?_, rfl, rfl, ?_, hfz, congrArg (fun t => t.vc.eng) hf⟩
  · rw [overrunQueue, hshared]
    rfl
  · rw [hshared]
    rfl

theorem overrun_behind (h : lockstepHead s u e pops pushes) (hb : (schedOf s u e).2 = true) :
    overrunFaults s u e 3 (overrunWord (schedOf s u e).1 0 0 (qCode u) 3) :=
  overrunFaults_of h (by rw [overrunNow, if_pos hb])

theorem overrun_late (h : lockstepHead s u e pops pushes) (hb : (schedOf s u e).2 = false) (hlate : (schedOf s u e).1 < s.vc.now)
    (hretry : e.retry = false) : overrunFaults s u e 1 (overrunWord (schedOf s u e).1 (stoodBeat s e) 0 (qCode u) 1) :=
  overrunFaults_of h (by simp [overrunNow, hb, Nat.le_of_lt hlate, hlate, hretry])

theorem overrun_token (h : lockstepHead s u e pops pushes) (hb : (schedOf s u e).2 = false) (hnow : (schedOf s u e).1 = s.vc.now)
    {f : Nat} (hf : tokMissing s pops = some f) : overrunFaults s u e 2 (overrunWord (schedOf s u e).1 0 f (qCode u) 2) :=
  overrunFaults_of h (by simp [overrunNow, hb, hnow, hf])

/-- A word on time with its tokens, and one whose beat has not come, meet no overrun. -/
theorem overrun_none (h : lockstepHead s u e pops pushes) (hb : (schedOf s u e).2 = false)
    (hon : s.vc.now < (schedOf s u e).1 ∨ ((schedOf s u e).1 = s.vc.now ∧ tokMissing s pops = none)) :
    exec (.overrun u) s = .next s := by
  have hov : overrunNow s u e (schedOf s u e).1 (stoodBeat s e) (schedOf s u e).2 false pops = none := by
    rcases hon with hwait | ⟨hnow, htok⟩
    · simp [overrunNow, hb, hwait]
    · simp [overrunNow, hb, hnow, htok]
  refine (execOverrun_of_head h).trans ?_
  rw [hov]

end

end Sys2Proof.Machine
end

section
/-! The completion of an engine word (R94, R132, R158, R164). -/

namespace Sys2Proof.Machine

open Sys2Proof.Laws

/-! ### The parts of a completion -/

theorem tokFull_tokPut {s : State} {t k : Nat} (h : k ≠ t) : tokFull (tokPut s t) k = tokFull s k := by
  have hp : tokPending (tokPut s t) k = tokPending s k := by
    simp [tokPending, Ne.symm h]
  rw [tokFull, hp, tokFull]
  rfl

/-- Tokens of distinct FIFOs with room are all pushed, and visible from the next beat (R94, R95). -/
theorem pushTokens_room (f : Flight) (toks : List Nat) (s : State) (hnd : toks.Nodup) (hroom : ∀ k ∈ toks, tokFull s k = false) :
    pushTokens s f toks = { s with vc.eng.pushIn := s.vc.eng.pushIn ++ toks.map (fun k => (s.vc.now + 1, k)) } := by
  induction toks generalizing s with
  | nil =>
    rw [List.map_nil, List.append_nil]
    rfl
  | cons k toks ih =>
    obtain ⟨hk, hnd⟩ := List.nodup_cons.mp hnd
    have hfree (j : Nat) (hj : j ∈ toks) : tokFull (tokPut s k) j = false := by
      have hne : j ≠ k := fun he => hk (he ▸ hj)
      rw [tokFull_tokPut hne]
      exact hroom j (List.mem_cons_of_mem k hj)
    rw [pushTokens, hroom k List.mem_cons_self, if_neg Bool.false_ne_true, ih (tokPut s k) hnd hfree]
    simp [tokPut]

theorem finishRuns_keeps (s : State) :
    finishRuns s = { s with vc.snaps := (finishRuns s).vc.snaps, vc.tbl.runs := (finishRuns s).vc.tbl.runs } := by
  unfold finishRuns
  refine List.foldlRecOn (motive := fun (t : State) => t = { s with vc.snaps := t.vc.snaps, vc.tbl.runs := t.vc.tbl.runs }) _ _ ?_ ?_
  · exact (rfl : s = s)
  · intro t ht r _
    dsimp only
    rw [ht]

theorem foldl_ringPop_keeps (v : VC) (l : List Nat) : l.foldl ringPop v = { v with g := (l.foldl ringPop v).g } := by
  refine List.foldlRecOn (motive := fun u => u = { v with g := u.g }) l ringPop (rfl : v = v) fun u hu r _ => ?_
  rw [ringPop, hu]

theorem foldl_ringPush_keeps (v : VC) (l : List Nat) : l.foldl ringPush v = { v with g := (l.foldl ringPush v).g } := by
  refine List.foldlRecOn (motive := fun u => u = { v with g := u.g }) l ringPush (rfl : v = v) fun u hu r _ => ?_
  rw [ringPush, hu]

/-- The rings after the moves of a word (R158). -/
def ringsAfter (v : VC) (f : Flight) : VC := f.pushes.foldl ringPush (f.pops.foldl ringPop v)

theorem ringsAfter_keeps (v : VC) (f : Flight) : ringsAfter v f = { v with g := (ringsAfter v f).g } := by
  rw [ringsAfter, foldl_ringPush_keeps, foldl_ringPop_keeps]

/-- An operation whose rings come from the rings alone gives equal rings from equal ones. -/
theorem foldl_g {op : VC → Nat → VC} (hop : ∀ v w r, v.g = w.g → (op v r).g = (op w r).g) (l : List Nat) {v w : VC} (h : v.g = w.g) :
    (l.foldl op v).g = (l.foldl op w).g := by
  induction l generalizing v w with
  | nil => exact h
  | cons r l ih => exact ih (hop v w r h)

theorem ringsAfter_g {v w : VC} (h : v.g = w.g) (f : Flight) : (ringsAfter v f).g = (ringsAfter w f).g := by
  have hpop (v w : VC) (r : Nat) (h : v.g = w.g) : (ringPop v r).g = (ringPop w r).g := by simp only [ringPop, VC.ring, h]
  have hpush (v w : VC) (r : Nat) (h : v.g = w.g) : (ringPush v r).g = (ringPush w r).g := by simp only [ringPush, VC.ring, h]
  exact foldl_g hpush f.pushes (foldl_g hpop f.pops h)

theorem ring_ringPop (v : VC) (r : Nat) : (ringPop v r).ring r =
    { v.ring r with head := ((v.ring r).head + 1) % (v.ring r).slots, cnt := (v.ring r).cnt - 1 } := mget_mput_same ..

theorem ring_ringPush (v : VC) (r : Nat) : (ringPush v r).ring r =
    { v.ring r with tail := ((v.ring r).tail + 1) % (v.ring r).slots, cnt := (v.ring r).cnt + 1 } := mget_mput_same ..

/-- The y registers after the result of a word. -/
def yAfter (v : VC) (f : Flight) : SMap Word64 :=
  match f.y with
  | some (n, w) => mput 0 v.ctl.y n w
  | none => v.ctl.y

/-- The flags on their way after those of a word (R132). -/
def flagsAfter (v : VC) (f : Flight) : List (Nat × Nat) :=
  if f.flags = 0 then v.ctl.flagsIn else v.ctl.flagsIn ++ [(v.now + 1, f.flags)]

/-- A word without accesses and copy completes: it leaves its flight, moves its rings, writes its y register, raises its flags and pushes
its tokens; the word that follows on it and the runs that it ends are the only ones it changes beside (R94). -/
theorem completeFlight_plain (s : State) (f : Flight) (hcopy : f.copy = none) (haccs : f.accs = []) (hnd : f.toks.Nodup)
    (hroom : ∀ k ∈ f.toks, tokFull s k = false) :
    let t := completeFlight s f
    t = { s with
      vc := { s.vc with g := (ringsAfter s.vc f).g, snaps := t.vc.snaps,
                        ctl.y := yAfter s.vc f, ctl.flagsIn := flagsAfter s.vc f, tbl.runs := t.vc.tbl.runs,
                        eng.flights := s.vc.eng.flights.filter (fun x => x.seq != f.seq), eng.mx := t.vc.eng.mx,
                        eng.pushIn := s.vc.eng.pushIn ++ f.toks.map (fun k => (s.vc.now + 1, k)) } } := by
  have hc : completeFlight s f = finishRuns (pushTokens (followOn (dropFlight { s with
      vc := flagsAt { ringsAfter s.vc f with ctl.y := yAfter (ringsAfter s.vc f) f } (s.vc.now + 1) f.flags } f.seq) f.seq) f f.toks) := by
    unfold completeFlight yAfter
    rw [hcopy, haccs]
    cases f.y <;> rfl
  have hv : flagsAt { ringsAfter s.vc f with ctl.y := yAfter (ringsAfter s.vc f) f } (s.vc.now + 1) f.flags =
      { s.vc with g := (ringsAfter s.vc f).g, ctl.y := yAfter s.vc f, ctl.flagsIn := flagsAfter s.vc f } := by
    rw [ringsAfter_keeps]
    unfold flagsAt flagsAfter
    split <;> rfl
  dsimp only
  rw [hc, hv, pushTokens_room f f.toks _ hnd ?_, finishRuns_keeps]
  · rfl
  · exact hroom

/-! ### A word completes -/

theorem auditEnd_of_no_upset {s : State} (h : s.upsets = []) (f : Flight) (vx : Bool) (tile detail : Nat) :
    auditEnd s f vx tile detail = s := by
  rw [auditEnd, nextHit, h]
  rfl

/-- Without a physical error to come, a word leaves its mailbox and the count of audits beside what every word leaves (R164, R210). -/
theorem completeExtra_keeps {s : State} (h : s.upsets = []) (f : Flight) :
    completeExtra s f = { s with vc.ctl.m := (completeExtra s f).vc.ctl.m, vc.audit := (completeExtra s f).vc.audit } := by
  unfold completeExtra
  split
  · rfl
  · rw [auditEnd_of_no_upset (s := { s with vc := auditOne s.vc }) h]
    rfl
  · rw [auditEnd_of_no_upset h]
  · rfl

theorem mr_completeExtra (s : State) {f : Flight} {k : Nat} (h : f.work = .recv 2 k) :
    mr (completeExtra s f) k = w64 (leNat f.got) := by
  rw [completeExtra, h]
  exact mget_mput_same ..

theorem flightAt_seq {s : State} {id : Nat} {f : Flight} (h : flightAt s id = some f) : f.seq = id :=
  beq_iff_eq.mp (List.find?_some (p := fun x : Flight => x.seq == id) h)

/-- The numbers of the words left when word n is gone. -/
theorem seqs_filter_ne (l : List Flight) (n : Nat) :
    (l.filter (fun x => x.seq != n)).map (fun x => x.seq) = (l.map (fun x => x.seq)).filter (fun x => x != n) := by
  rw [List.filter_map]
  rfl

/-- What a word that has neither accesses nor a copy leaves when it completes. -/
theorem engineWordCompletion_completes (s : State) (id : Nat) (f : Flight) (hat : flightAt s id = some f)
    (hdue : f.dueNow s.vc.now = true) (hfrozen : frozenNow s = false) (hcopy : f.copy = none) (haccs : f.accs = [])
    (hnd : f.toks.Nodup) (hroom : ∀ k ∈ f.toks, tokFull s k = false) (hup : s.upsets = []) :
    ∃ t, exec (.engineWordCompletion id) s = .next t ∧
      t.vc.eng.flights.map (fun x => x.seq) = (s.vc.eng.flights.map (fun x => x.seq)).filter (fun x => x != id) ∧
      t.vc.eng.pushIn = s.vc.eng.pushIn ++ f.toks.map (fun k => (s.vc.now + 1, k)) ∧
      (∀ n w, f.y = some (n, w) → yr t n = w) ∧
      (∀ k, f.work = .recv 2 k → mr t k = w64 (leNat f.got)) ∧
      (∀ r, f.pops = [r] → f.pushes = [] → (t.vc.ring r).cnt = (s.vc.ring r).cnt - 1 ∧
        (t.vc.ring r).head = ((s.vc.ring r).head + 1) % (s.vc.ring r).slots ∧ (t.vc.ring r).tail = (s.vc.ring r).tail) ∧
      (∀ r, f.pops = [] → f.pushes = [r] → (t.vc.ring r).cnt = (s.vc.ring r).cnt + 1 ∧
        (t.vc.ring r).tail = ((s.vc.ring r).tail + 1) % (s.vc.ring r).slots ∧ (t.vc.ring r).head = (s.vc.ring r).head) ∧
      (f.flags ≠ 0 → t.vc.ctl.flagsIn = s.vc.ctl.flagsIn ++ [(s.vc.now + 1, f.flags)]) ∧
      t.part = s.part ∧ t.vc.chip = s.vc.chip ∧ t.vc.ctl.x = s.vc.ctl.x := by
  have hexec : exec (.engineWordCompletion id) s = .next (completeFlight (completeExtra s f) f) := by
    show execEngineWordCompletion id s = _
    rw [execEngineWordCompletion, hat]
    simp only [hdue, hfrozen, completeWord, recordAtEnd, hcopy]
    rfl
  have hseq : f.seq = id := flightAt_seq hat
  have hm : ∀ k, f.work = .recv 2 k → mr (completeExtra s f) k = w64 (leNat f.got) := fun k => mr_completeExtra s
  have hu := completeExtra_keeps hup f
  generalize completeExtra s f = u at hexec hm hu
  have hroomU : ∀ k ∈ f.toks, tokFull u k = false := by
    rw [hu]
    exact hroom
  have ht := completeFlight_plain u f hcopy haccs hnd hroomU
  generalize completeFlight u f = t at hexec ht
  have hg : t.vc.g = (ringsAfter s.vc f).g := by
    rw [ht]
    exact ringsAfter_g (by rw [hu]) f
  refine ⟨t, hexec, ?_, by rw [ht, hu], fun n w hy => ?_, fun k hk => ?_, fun r hpop hpush => ?_, fun r hpop hpush => ?_, fun hf => ?_,
    by rw [ht, hu], by rw [ht, hu], by rw [ht, hu]⟩
  · rw [ht, hu, ← hseq]
    exact seqs_filter_ne ..
  · rw [yr, ht]
    simp only [yAfter, hy]
    exact mget_mput_same ..
  · rw [mr, ht]
    exact hm k hk
  · have hring : t.vc.ring r = (ringPop s.vc r).ring r := by
      rw [VC.ring, hg, ringsAfter, hpop, hpush]
      rfl
    rw [hring, ring_ringPop]
    exact ⟨rfl, rfl, rfl⟩
  · have hring : t.vc.ring r = (ringPush s.vc r).ring r := by
      rw [VC.ring, hg, ringsAfter, hpop, hpush]
      rfl
    rw [hring, ring_ringPush]
    exact ⟨rfl, rfl, rfl⟩
  · rw [ht, hu]
    exact if_neg hf

end Sys2Proof.Machine
end

section
/-! The landing of a message piece (R163, R164, R165). -/

namespace Sys2Proof.Machine

open Sys2Proof.Laws

/-- The word of a number in flight is replaced by the one set for it. -/
theorem flightAt_setFlight {s : State} {f g : Flight} (hg : g ∈ s.vc.eng.flights) (hseq : g.seq = f.seq) :
    flightAt (setFlight s f) f.seq = some f := by
  have h (l : List Flight) (hl : g ∈ l) :
      (l.map (fun x => if x.seq = f.seq then f else x)).find? (fun x => x.seq == f.seq) = some f := by
    induction l with
    | nil => cases hl
    | cons x l ih =>
      rw [List.map_cons]
      by_cases hx : x.seq = f.seq
      · rw [if_pos hx]
        exact List.find?_cons_of_pos (beq_self_eq_true f.seq)
      · have hne : g ≠ x := fun h => hx (h ▸ hseq)
        rw [if_neg hx, List.find?_cons_of_neg (by simpa using hx)]
        exact ih ((List.mem_cons.mp hl).resolve_left hne)
  exact h _ hg

section
variable {s : State} {n : Nat} {m : Msg} {f : Flight}

/-- Message n is due at its receiver, and the launch runs. -/
def pieceDue (s : State) (n : Nat) (m : Msg) : Prop :=
  s.launch.msgs[n]? = some m ∧ m.dst = s.vc.id ∧ frozenNow s = false ∧ m.due s.vc.now = true

theorem pieceDue_goes (h : pieceDue s n m) :
    s.launch.msgs[n]? = some m ∧ (decide (m.dst ≠ s.vc.id) || frozenNow s || !m.due s.vc.now) = false := by
  obtain ⟨hget, hdst, hfrozen, hdue⟩ := h
  exact ⟨hget, by simp [hdst, hfrozen, hdue]⟩

theorem messageLanding_none (h : pieceDue s n m) (ht : msgTarget s m = none) :
    exec (.messagePieceLanding n) s =
      if s.launch.mode = .lockstep ∧ m.piece = 0 then .next (unexpected (dropMsg s m)) else .next (dropMsg s m) := by
  obtain ⟨hget, hgo⟩ := pieceDue_goes h
  show execMessagePieceLanding n s = _
  unfold execMessagePieceLanding
  simp only [hget, hgo, ht]
  rfl

theorem messageLanding_some (h : pieceDue s n m) (ht : msgTarget s m = some f) :
    exec (.messagePieceLanding n) s =
      if m.piece = 0 ∧ landingOk m f = false then
        .next (setFlight (queueFault (dropMsg s m) .ld f.entry 0x0F 0 (wordTval f.entry)) { f with faulted := true, land := none })
      else .next (landPiece s m f) := by
  obtain ⟨hget, hgo⟩ := pieceDue_goes h
  show execMessagePieceLanding n s = _
  unfold execMessagePieceLanding
  simp only [hget, hgo, ht]
  rfl

/-- An arrival that no receive expects faults in a Lockstep launch (R164). -/
theorem messageLanding_unexpected (h : pieceDue s n m) (ht : msgTarget s m = none) (hmode : s.launch.mode = .lockstep)
    (hpiece : m.piece = 0) :
    ∃ t g, exec (.messagePieceLanding n) s = .next t ∧ t.vc.faults = s.vc.faults ++ [g] ∧ g.cause = 0x0E ∧ g.src = 1 ∧
      g.beat = s.vc.now ∧ t.vc.chip = s.vc.chip := by
  have hexec := messageLanding_none h ht
  rw [if_pos ⟨hmode, hpiece⟩] at hexec
  have hf := raiseAt_self (dropMsg s m)
    { src := 1, cause := 0x0E, detail := 0, tval := 0, beat := s.vc.now, name := 0, seq := none, tepc := none }
  exact ⟨_, _, hexec, congrArg (fun t => t.vc.faults) hf, rfl, rfl, rfl, congrArg (fun t => t.vc.chip) hf⟩

theorem messageLanding_discards (h : pieceDue s n m) (ht : msgTarget s m = none)
    (hno : s.launch.mode = .elastic ∨ m.piece ≠ 0) : exec (.messagePieceLanding n) s = .next (dropMsg s m) := by
  refine (messageLanding_none h ht).trans (if_neg ?_)
  rintro ⟨hmode, hpiece⟩
  rcases hno with he | hp
  · exact nomatch he.symm.trans hmode
  · exact hp hpiece

/-- A message that does not fit its landing faults (R164). -/
theorem messageLanding_unfit (h : pieceDue s n m) (ht : msgTarget s m = some f) (hpiece : m.piece = 0)
    (hfit : landingOk m f = false) :
    ∃ t g, exec (.messagePieceLanding n) s = .next t ∧ t.vc.faults = s.vc.faults ++ [g] ∧ g.cause = 0x0F ∧
      g.seq = some f.entry.seq ∧ t.vc.chip = s.vc.chip := by
  have hexec := messageLanding_some h ht
  rw [if_pos ⟨hpiece, hfit⟩] at hexec
  have hf := queueFault_self (dropMsg s m) .ld f.entry 0x0F 0 (wordTval f.entry)
  exact ⟨_, _, hexec, congrArg (fun t => t.vc.faults) hf, rfl, rfl, congrArg (fun t => t.vc.chip) hf⟩

/-- A message lands in a mailbox whole, and its receive completes (R163). -/
theorem messageLanding_mailbox {b : Nat} (h : pieceDue s n m) (ht : msgTarget s m = some f) (hwork : f.work = .recv 2 b)
    (hpiece : m.piece = 0) (hfit : landingOk m f = true) :
    ∃ t f2, exec (.messagePieceLanding n) s = .next t ∧
      (f ∈ s.vc.eng.flights → flightAt t f.seq = some f2) ∧ f2.got = m.data.take 8 ∧ f2.done = some s.vc.now ∧
      (∀ x ∈ t.launch.msgs, x.src ≠ m.src ∨ x.seqS ≠ m.seqS) ∧ t.vc.chip = s.vc.chip := by
  have hexec := messageLanding_some h ht
  rw [if_neg (fun hno => Bool.false_ne_true (hno.2.symm.trans hfit))] at hexec
  have hbytes : m.bytes = 8 := by
    rw [landingOk, hwork] at hfit
    exact of_decide_eq_true hfit
  have hland : landPiece s m f =
      setFlight (dropMsg s m) { f with land := some (m.src, m.seqS), got := m.data.take 8, done := some s.vc.now } := by
    unfold landPiece
    simp only [hwork, hbytes, hpiece]
    rfl
  rw [hland] at hexec
  refine ⟨_, _, hexec, fun hf => flightAt_setFlight (s := dropMsg s m) hf rfl, rfl, rfl, fun x hx => ?_, rfl⟩
  have hx := (List.mem_filter.mp hx).2
  by_contra hc
  rw [not_or, not_not, not_not] at hc
  simp [hc] at hx

end

end Sys2Proof.Machine
end

section
/-! Lines of copies: how one is read, landed and performed (R231-R233, R237, R422). -/

namespace Sys2Proof.Machine

open Sys2Proof.Laws

/-! ### Lists by number -/

theorem getElem?_listSet {α : Type} {l : List α} {k : Nat} {x : α} (h : l[k]? = some x) (v : α) :
    (listSet l k v)[k]? = some v := by
  induction l generalizing k with
  | nil => cases h
  | cons y l ih =>
    cases k with
    | zero => rfl
    | succ k => exact ih h

theorem getElem?_of_mem_zip_countUp {α : Type} {l : List α} {lo k : Nat} {x : α} (h : (x, k) ∈ l.zip (countUp lo l.length)) :
    lo ≤ k ∧ l[k - lo]? = some x := by
  induction l generalizing lo with
  | nil => cases h
  | cons y l ih =>
    rcases List.mem_cons.mp h with he | ht
    · cases he
      exact ⟨le_rfl, by rw [Nat.sub_self]; rfl⟩
    · obtain ⟨hlo, hget⟩ := ih ht
      have hk : k - lo = k - (lo + 1) + 1 := by omega
      exact ⟨by omega, by rw [hk]; exact hget⟩

theorem length_countUp (lo n : Nat) : (countUp lo n).length = n := by
  induction n generalizing lo with
  | zero => rfl
  | succ n ih => rw [countUp, List.length_cons, ih]

theorem nextLine_get {j : CopyJob} {l : CLine} {k : Nat} (h : nextLine j = some (l, k)) : j.lines[k]? = some l :=
  (getElem?_of_mem_zip_countUp (lo := 0) (List.mem_of_find?_eq_some h)).2

theorem lineDone_get {j : CopyJob} {k : Nat} {l : CLine} (h : j.lines[k]? = some l) (d : List Byte) :
    lineDone j k d = { j with lines := listSet j.lines k { l with done := true, data := d } } ∧
    (lineDone j k d).lines[k]? = some { l with done := true, data := d } := by
  have he : lineDone j k d = { j with lines := listSet j.lines k { l with done := true, data := d } } := by
    rw [lineDone, h]
  exact ⟨he, by rw [he]; exact getElem?_listSet h _⟩

/-- A line that has landed stays as it is when the others move a beat later. -/
theorem delayCopy_get {j : CopyJob} {k : Nat} {l : CLine} (h : j.lines[k]? = some l) (hd : l.done = true) :
    (delayCopy j).lines[k]? = some l := by
  have hm : (delayCopy j).lines = j.lines.map (fun l => if l.done then l else { l with due := l.due + 1 }) := rfl
  rw [hm, List.getElem?_map, h, Option.map_some, if_pos hd]

/-! ### A line is read -/

/-- A line of memory is not moved by an earlier transfer of its pseudo-channel (R422). -/
def channelFreeAt (s : State) (pa : Nat) : Prop :=
  mget 0 s.part.pcNext (pcOf s (128 * (pa / 128))) ≤ 8 * s.dev.refbeat

/-- The state without what an access of memory may change and without the times of the pseudo-channels. -/
def lineMask (s : State) : State := memMask { s with part.pcNext := [] }

/-- Nothing but what the access of a line may change differs, and no byte of memory does. -/
def lineKeeps (s u : State) : Prop := lineMask u = lineMask s ∧ u.part.mem = s.part.mem

theorem lineKeeps_trans {s t u : State} (h : lineKeeps s t) (k : lineKeeps t u) : lineKeeps s u :=
  ⟨k.1.trans h.1, k.2.trans h.2⟩

theorem lineKeeps_of_memMask {s u : State} (h : memMask u = memMask s) (hm : u.part.mem = s.part.mem) : lineKeeps s u := by
  refine ⟨?_, hm⟩
  show { memMask u with part.pcNext := [] } = { memMask s with part.pcNext := [] }
  rw [h]

section
variable {s u : State} (h : lineKeeps s u)
include h

theorem lineKeeps_chip : u.vc.chip = s.vc.chip := by
  show (lineMask u).vc.chip = (lineMask s).vc.chip
  rw [h.1]

theorem lineKeeps_eng : u.vc.eng = s.vc.eng := by
  show (lineMask u).vc.eng = (lineMask s).vc.eng
  rw [h.1]

theorem lineKeeps_now : u.vc.now = s.vc.now := by
  show (lineMask u).vc.now = (lineMask s).vc.now
  rw [h.1]

theorem physRead_lineKeeps (pa n : Nat) : physRead u pa n = physRead s pa n := by
  rw [physRead, h.2, physRead]

end

theorem memMask_keeps_places {s u : State} (h : memMask u = memMask s) :
    u.part.slow = s.part.slow ∧ ∀ pa, channelFreeAt s pa → channelFreeAt u pa := by
  constructor
  · show (memMask u).part.slow = (memMask s).part.slow
    rw [h]
  · intro pa hs
    have hs : channelFreeAt (memMask s) pa := hs
    rw [← h] at hs
    exact hs

theorem lineTranslate_keeps {s u : State} {l : CLine} {k : AccKind} {r : Nat × TlbE} (h : lineTranslate s l k = .ok u r) :
    memMask u = memMask s ∧ u.part.mem = s.part.mem := by
  have ht : translate s l.va.toNat k = .ok u r := by
    unfold lineTranslate at h
    split at h
    · cases h
    split at h
    · cases h
    split at h
    next u1 pa e hu =>
      have sound (bad : Bool) (hb : (if bad = true then MemR.fault u1 0x28 8 else .ok u1 (pa, e)) = .ok u r) :
          MemR.ok u1 (pa, e) = .ok u r := by
        cases bad
        · exact hb
        · cases hb
      exact hu.trans (sound _ h)
    · exact h
  exact ⟨memMask_translate ht, translate_part_mem ht⟩

/-- A transfer takes a free pseudo-channel; a line that L2 holds takes none (R422). -/
theorem pcTake_free {s : State} {pa : Nat} (h : channelFreeAt s pa) : ∃ u, pcTake s (pa / 128) = some u ∧ lineKeeps s u := by
  unfold pcTake
  dsimp only
  split
  · exact ⟨s, rfl, rfl, rfl⟩
  · rw [if_neg (Nat.not_lt.mpr h)]
    exact ⟨_, rfl, rfl, rfl⟩

/-- The line of a copy that is translated, on its way and not versioned is read: the bytes are those of memory (R228, R231). -/
theorem readLine_ok {s u : State} {j : CopyJob} {l : CLine} {pa : Nat} {e : TlbE} (ht : lineTranslate s l .read = .ok u (pa, e))
    (hvb : e.vb = false) (hslow : s.part.slow.contains (pa / 128) = false) (hfree : ccbTimed j.ccb = true ∨ channelFreeAt s pa) :
    ∃ v, readLine s j l = .ok v (physRead s pa l.len) ∧ lineKeeps s v := by
  -- the state in which the line is asked for: a prefetch has its translation in the cluster TLB
  let w : State := if j.op = 3 then { u with part.ctlb := clusterTlbPut u e } else u
  have hw : memMask w = memMask s ∧ w.part.mem = s.part.mem := by
    obtain ⟨hmask, hmem⟩ := lineTranslate_keeps ht
    show memMask (if _ then _ else _) = _ ∧ (if _ then _ else _ : State).part.mem = _
    split
    · exact ⟨hmask, hmem⟩
    · exact ⟨hmask, hmem⟩
  obtain ⟨hmask, hmem⟩ := hw
  obtain ⟨hsl, hch⟩ := memMask_keeps_places hmask
  have hkw : lineKeeps s w := lineKeeps_of_memMask hmask hmem
  obtain ⟨x, hx, hkx⟩ : ∃ x, (if ccbTimed j.ccb then some w else pcTake w (pa / 128)) = some x ∧ lineKeeps w x := by
    by_cases htimed : ccbTimed j.ccb = true
    · exact ⟨w, if_pos htimed, rfl, rfl⟩
    · rw [if_neg htimed]
      exact pcTake_free (hch pa (hfree.resolve_left htimed))
  have hread : readLine s j l = if j.op = 3 then .ok (l2Access x (some x.vc.id) 0 (pa / 128) false) (physRead x pa l.len)
      else .ok (homeRead x pa l.len).1 (homeRead x pa l.len).2 := by
    unfold readLine
    rw [ht]
    show (if w.part.slow.contains (pa / 128) then _ else _ : MemR (List Byte)) = _
    rw [hsl, hslow, if_neg Bool.false_ne_true]
    show (match (if ccbTimed j.ccb then some w else pcTake w (pa / 128)) with
      | none => _
      | some y => _ : MemR (List Byte)) = _
    rw [hx]
    show (if e.vb = true then _ else _ : MemR (List Byte)) = _
    rw [hvb, if_neg Bool.false_ne_true]
  have hk := lineKeeps_trans hkw hkx
  rw [hread, ← physRead_lineKeeps hk pa l.len]
  split
  · exact ⟨_, rfl, lineKeeps_trans hk (lineKeeps_of_memMask (memMask_l2Access ..) (l2Access_part_mem ..))⟩
  · exact ⟨_, rfl, lineKeeps_trans hk (lineKeeps_of_memMask (memMask_homeRead ..) (homeRead_part_mem ..))⟩

/-! ### Bytes of a line land -/

/-- Writes of a landing change no byte but those they name. -/
theorem writeAll_frame (owner : Nat) (ws : List (Nat × Byte × Byte)) (cl : List Claim) (chip : SMap Byte) (a : Nat)
    (h : ∀ w ∈ ws, w.1 ≠ a) : mget 0 (writeAll owner ws cl chip).2.1 a = mget 0 chip a := by
  induction ws generalizing cl chip with
  | nil => rfl
  | cons w ws ih =>
    obtain ⟨b, m, v⟩ := w
    have hb : a ≠ b := (h _ List.mem_cons_self).symm
    rw [writeAll]
    split
    · rw [ih _ _ fun w hw => h w (List.mem_cons_of_mem _ hw), mget_mput_ne _ _ _ hb]
    · rfl

theorem orLose_keeps (b : Bool) (v : VC) (rank : Nat) (banks : List Nat) :
    let u := if b = true then v else loseBanks v rank banks
    u = { v with lost := u.lost, lostNow := u.lostNow, conflicts := u.conflicts } := by
  cases b <;> rfl

/-- An access without reads changes of its virtual core the bytes it writes, its claims and the count of lost beats. -/
theorem serveAcc_writes (v : VC) (rank : Nat) (f : Flight) (tag beat : Nat) (ws : List (Nat × Byte × Byte)) :
    let u := (serveAcc v rank f ⟨tag, beat, [], ws⟩).1
    u = { v with claims := u.claims, chip := u.chip, lost := u.lost, lostNow := u.lostNow, conflicts := u.conflicts } ∧
    ∀ a, (∀ w ∈ ws, w.1 ≠ a) → mget 0 u.chip a = mget 0 v.chip a := by
  let p := writeAll (accOwner f.seq tag) ws v.claims v.chip
  let banks := lostBanks p.1 [] (p.2.2.map (fun t => t.1)) (accOwner f.seq tag)
  have h := orLose_keeps p.2.2.isEmpty { v with claims := p.1, chip := p.2.1 } rank banks
  have hu : (serveAcc v rank f ⟨tag, beat, [], ws⟩).1 =
      if p.2.2.isEmpty = true then { v with claims := p.1, chip := p.2.1 }
      else loseBanks { v with claims := p.1, chip := p.2.1 } rank banks := rfl
  dsimp only at h ⊢
  rw [← hu] at h
  generalize (serveAcc v rank f ⟨tag, beat, [], ws⟩).1 = u at h
  refine ⟨by rw [h], fun a ha => ?_⟩
  rw [h]
  exact writeAll_frame _ ws _ _ a ha

/-- Flight g is flight f, or f delayed by a lost bank. -/
def delayedFrom (f g : Flight) : Prop := g.copy = f.copy ∨ g.copy = f.copy.map (fun j => if j.op < 4 then delayCopy j else j)

theorem flightAt_stallQueue {s : State} {n : Nat} {f : Flight} (h : flightAt s n = some f) (q : Queue) :
    ∃ x, flightAt (stallQueue s q) n = some x ∧ delayedFrom f x := by
  let g (x : Flight) : Flight := if x.q == q && x.accesses then delayFlight x else x
  have hseq (x : Flight) : (g x).seq = x.seq := by
    show (if _ then _ else _ : Flight).seq = _
    split <;> rfl
  have hp : (fun x : Flight => x.seq == n) ∘ g = fun x => x.seq == n := funext fun x => by simp [hseq]
  have hat : flightAt (stallQueue s q) n = (flightAt s n).map g := by
    show (s.vc.eng.flights.map g).find? _ = _
    rw [List.find?_map, hp]
    rfl
  refine ⟨g f, by rw [hat, h]; rfl, ?_⟩
  by_cases hstalls : (f.q == q && f.accesses) = true
  · exact .inr (congrArg Flight.copy (if_pos hstalls))
  · exact .inl (congrArg Flight.copy (if_neg hstalls))

/-- The bytes of a line land: the copy has them, a lost bank delays it at most, and no other byte changes (R153, R231). -/
theorem landBytes_lands {s : State} {f g : Flight} (hg : g ∈ s.vc.eng.flights) (hseq : g.seq = f.seq) (tag : Nat)
    (ws : List (Nat × Byte × Byte)) :
    let t := landBytes s f tag ws
    (∃ x, flightAt t f.seq = some x ∧ delayedFrom f x) ∧ (∀ a, physByte t a = physByte s a) ∧
    ∀ a, (∀ w ∈ ws, w.1 ≠ a) → mget 0 t.vc.chip a = mget 0 s.vc.chip a := by
  have hserve := serveAcc_writes s.vc (rankOf f.q) f tag s.vc.now ws
  dsimp only at hserve ⊢
  unfold landBytes
  dsimp only
  generalize serveAcc s.vc (rankOf f.q) f ⟨tag, s.vc.now, [], ws⟩ = r at hserve ⊢
  obtain ⟨v, buf, left, moved⟩ := r
  obtain ⟨hv, hchip⟩ := hserve
  dsimp only at hv hchip ⊢
  have hfl : (charge { s with vc := v } .sp moved).vc.eng.flights = s.vc.eng.flights := by rw [charge_vc, hv]
  have hmem : (charge { s with vc := v } .sp moved).part.mem = s.part.mem := charge_part_mem ..
  have hvc : (charge { s with vc := v } .sp moved).vc = v := charge_vc ..
  generalize charge { s with vc := v } .sp moved = u at hfl hmem hvc
  split
  · refine ⟨⟨{ f with buf := buf }, flightAt_setFlight (hfl ▸ hg) hseq, .inl rfl⟩, fun a => ?_, fun a ha => ?_⟩
    · show mget byteDefault u.part.mem a = _
      rw [hmem]
      rfl
    · show mget 0 u.vc.chip a = _
      rw [hvc]
      exact hchip a ha
  · refine ⟨?_, fun a => ?_, fun a ha => ?_⟩
    · exact flightAt_stallQueue (s := setFlight u { f with buf := buf, accs := f.accs ++ [left] })
        (flightAt_setFlight (f := { f with buf := buf, accs := f.accs ++ [left] }) (hfl ▸ hg) hseq) f.q
    · show mget byteDefault u.part.mem a = _
      rw [hmem]
      rfl
    · show mget 0 u.vc.chip a = _
      rw [hvc]
      exact hchip a ha

/-! ### A line of an in-copy lands -/

section
variable {s : State} {id : Nat} {f : Flight} {j : CopyJob} {l : CLine} {k pa : Nat}

/-- Line k of copy `id` is the next one, and nothing of the flight, the launch or older copies holds it. -/
def lineAhead (s : State) (id : Nat) (f : Flight) (j : CopyJob) (l : CLine) (k : Nat) : Prop :=
  flightAt s id = some f ∧ f.copy = some j ∧ f.faulted = false ∧ frozenNow s = false ∧ nextLine j = some (l, k) ∧
  f.indexed = true ∧ olderLines s f l = []

/-- The line's page is found, and is not versioned. -/
def linePlaces (s : State) (l : CLine) (pa : Nat) (k : AccKind) : Prop :=
  ∃ u e, lineTranslate s l k = .ok u (pa, e) ∧ e.vb = false

/-- The flight of copy f with line k read as d. -/
def landedFlight (s : State) (f : Flight) (j : CopyJob) (k : Nat) (d : List Byte) : Flight :=
  { f with copy := some (lineDone j k d),
           done := if (nextLine (lineDone j k d)).isNone && f.done.isNone then some s.vc.now else f.done }

theorem execCopyLineLanding_reads (h : lineAhead s id f j l k) (hop : j.op < 4) (hdue : l.due ≤ s.vc.now) (hdata : l.data = [])
    {v : State} {d : List Byte} (hread : readLine s j l = .ok v d) :
    execCopyLineLanding id s = .next
      (if j.op = 3 then setFlight v (landedFlight v f j k d)
       else landBytes v (landedFlight v f j k d) (writeTag k) (lineWrites (lineDone j k d) l)) := by
  obtain ⟨hat, hcopy, hfaulted, hfrozen, hnext, hindexed, holder⟩ := h
  have hgo : (f.faulted || frozenNow s || decide (4 ≤ j.op) || decide (s.vc.now < l.due) || !f.indexed) = false := by
    simp [hfaulted, hfrozen, hop, hdue, hindexed]
  have hold : readOlder s f l = (s, true) := by rw [readOlder, holder]; rfl
  unfold execCopyLineLanding
  simp only [hat, hcopy, hnext, hgo, hold, hdata, hread]
  rfl

theorem copyLineLanding_lands (h : lineAhead s id f j l k) (hop : j.op < 4) (hdue : l.due ≤ s.vc.now) (hdata : l.data = [])
    (hpl : linePlaces s l pa .read) (hslow : s.part.slow.contains (pa / 128) = false)
    (hfree : ccbTimed j.ccb = true ∨ channelFreeAt s pa) :
    ∃ t f2 j2 l2, exec (.copyLineLanding id) s = .next t ∧ flightAt t id = some f2 ∧ f2.copy = some j2 ∧
      j2.lines[k]? = some l2 ∧ l2.done = true ∧ l2.data = physRead s pa l.len ∧ l2.va = l.va ∧
      (∀ a, physByte t a = physByte s a) ∧
      (j.op = 3 → t.vc.chip = s.vc.chip) ∧
      ∀ a, (∀ w ∈ lineWrites (lineDone j k l2.data) l, w.1 ≠ a) → mget 0 t.vc.chip a = mget 0 s.vc.chip a := by
  obtain ⟨u, e, htrans, hvb⟩ := hpl
  obtain ⟨v, hread, hkeep⟩ := readLine_ok htrans hvb hslow hfree
  have hexec := execCopyLineLanding_reads h hop hdue hdata hread
  obtain ⟨hat, -, -, -, hnext, -, -⟩ := h
  have hseq : f.seq = id := flightAt_seq hat
  have hmem : f ∈ v.vc.eng.flights := by
    rw [lineKeeps_eng hkeep]
    exact List.mem_of_find?_eq_some hat
  have hbytes (a : Nat) : physByte v a = physByte s a := by rw [physByte, hkeep.2, physByte]
  have hchip := lineKeeps_chip hkeep
  obtain ⟨-, hline⟩ := lineDone_get (nextLine_get hnext) (physRead s pa l.len)
  by_cases hpf : j.op = 3
  · rw [if_pos hpf] at hexec
    refine ⟨_, landedFlight v f j k (physRead s pa l.len), _, _, hexec, ?_, rfl, hline, rfl, rfl, rfl, hbytes, fun _ => hchip,
      fun a _ => congrArg (mget 0 · a) hchip⟩
    exact hseq ▸ flightAt_setFlight (f := landedFlight v f j k (physRead s pa l.len)) hmem rfl
  · rw [if_neg hpf] at hexec
    obtain ⟨⟨x, hx, hdelay⟩, hphys, hframe⟩ := landBytes_lands (f := landedFlight v f j k (physRead s pa l.len)) hmem rfl
      (writeTag k) (lineWrites (lineDone j k (physRead s pa l.len)) l)
    have hx : flightAt (landBytes v (landedFlight v f j k (physRead s pa l.len)) (writeTag k)
        (lineWrites (lineDone j k (physRead s pa l.len)) l)) id = some x := hseq ▸ hx
    obtain ⟨j2, hj2, hline2⟩ : ∃ j2, x.copy = some j2 ∧
        j2.lines[k]? = some { l with done := true, data := physRead s pa l.len } := by
      rcases hdelay with hsame | hlate
      · exact ⟨_, hsame, hline⟩
      · refine ⟨_, hlate, ?_⟩
        dsimp only
        split
        · exact delayCopy_get hline rfl
        · exact hline
    refine ⟨_, x, j2, _, hexec, hx, hj2, hline2, rfl, rfl, rfl, fun a => (hphys a).trans (hbytes a), fun h3 => absurd h3 hpf,
      fun a ha => ?_⟩
    rw [hframe a ha, hchip]

/-! ### A line of an out-copy is performed -/

theorem length_lineBytes (f : Flight) (j : CopyJob) (l : CLine) : (lineBytes f j l).length = l.len := by
  unfold lineBytes
  dsimp only
  split <;> rw [List.length_map, length_countUp]

/-- A posted or held record changes the event queues alone. -/
theorem copyRecord_keeps (s : State) (f : Flight) (j : CopyJob) (status detail hold : Nat) :
    let t := copyRecord s f j status detail hold
    t = { s with vc.eng.evIn := t.vc.eng.evIn, vc.eng.heldEv := t.vc.eng.heldEv } := by
  unfold copyRecord copyPost postRecord
  dsimp only
  split <;> rfl

theorem outDone_keeps (s : State) (f : Flight) (j : CopyJob) :
    let t := outDone s f j
    t = { s with vc.eng.flights := s.vc.eng.flights.filter (fun x => x.seq != f.seq),
                 vc.eng.evIn := t.vc.eng.evIn, vc.eng.heldEv := t.vc.eng.heldEv } := by
  unfold outDone
  dsimp only
  split
  · rw [copyRecord_keeps]
    rfl
  · rfl

theorem flightAt_filter_ne {t : State} {l : List Flight} {n : Nat} (h : t.vc.eng.flights = l.filter (fun x => x.seq != n)) :
    flightAt t n = none := by
  rw [flightAt, h, List.find?_eq_none]
  intro x hx
  have hne := (List.mem_filter.mp hx).2
  simpa using hne

theorem execCopyMemoryWritePerform_writes (h : lineAhead s id f j l k) (hop : 4 ≤ j.op) (hxc : j.op ≠ 7) (hended : f.ended = true)
    {u v : State} {e : TlbE} (ht : lineTranslate s l .write = .ok u (pa, e)) (hvb : e.vb = false)
    (hv : pcTake u (pa / 128) = some v) :
    execCopyMemoryWritePerform id s = .next
      (if (nextLine (lineDone j k [])).isNone then outDone (homeWrite v pa (lineBytes f j l)) f j
       else setFlight (homeWrite v pa (lineBytes f j l)) { f with copy := some (lineDone j k []) }) := by
  obtain ⟨hat, hcopy, hfaulted, hfrozen, hnext, hindexed, holder⟩ := h
  have hgo : (f.faulted || !f.ended || frozenNow s || decide (j.op < 4) || j.op == 7 || !f.indexed) = false := by
    simp [hfaulted, hended, hfrozen, hop, hxc, hindexed]
  unfold execCopyMemoryWritePerform
  simp only [hat, hcopy, hnext, hgo, holder, ht, hvb, hv]
  rfl

theorem copyMemoryWritePerform_writes (h : lineAhead s id f j l k) (hop : 4 ≤ j.op) (hxc : j.op ≠ 7) (hended : f.ended = true)
    (hpl : linePlaces s l pa .write) (hfree : channelFreeAt s pa) :
    ∃ t, exec (.copyMemoryWritePerform id) s = .next t ∧
      (∀ i, i < l.len → physByte t (pa + i) = listAt 0 (lineBytes f j l) i) ∧
      (∀ a, a < pa ∨ pa + l.len ≤ a → physByte t a = physByte s a) ∧
      (nextLine (lineDone j k []) = none → flightAt t id = none) ∧ t.vc.chip = s.vc.chip := by
  obtain ⟨u, e, htrans, hvb⟩ := hpl
  obtain ⟨hmask, hmem⟩ := lineTranslate_keeps htrans
  obtain ⟨v, hv, hkv⟩ := pcTake_free ((memMask_keeps_places hmask).2 pa hfree)
  have hkeep := lineKeeps_trans (lineKeeps_of_memMask hmask hmem) hkv
  have hexec := execCopyMemoryWritePerform_writes h hop hxc hended htrans hvb hv
  obtain ⟨hat, -, -, -, -, -, -⟩ := h
  have hseq : f.seq = id := flightAt_seq hat
  -- the line is written, and the virtual core stays as it was
  let w := homeWrite v pa (lineBytes f j l)
  have hchip : w.vc.chip = s.vc.chip := by
    show (l2Touch v (pa / 128) true).vc.chip = _
    rw [l2Touch, l2Access_vc]
    exact lineKeeps_chip hkeep
  have hbyte (a : Nat) : physByte w a = if pa ≤ a ∧ a < pa + l.len then listAt 0 (lineBytes f j l) (a - pa) else physByte s a := by
    show physByte (physWrite _ pa _) a = _
    rw [physByte_physWrite, length_lineBytes, physByte, l2Touch, l2Access_part_mem, hkeep.2, physByte]
  obtain ⟨t, ht, hpart, htc, hnone⟩ : ∃ t, exec (.copyMemoryWritePerform id) s = .next t ∧ t.part = w.part ∧
      t.vc.chip = w.vc.chip ∧ (nextLine (lineDone j k []) = none → flightAt t id = none) := by
    refine ⟨_, hexec, ?_⟩
    cases hlast : nextLine (lineDone j k []) with
    | none =>
      have hout : outDone w f j = { w with
          vc.eng.flights := w.vc.eng.flights.filter (fun x => x.seq != f.seq),
          vc.eng.evIn := (outDone w f j).vc.eng.evIn, vc.eng.heldEv := (outDone w f j).vc.eng.heldEv } := outDone_keeps w f j
      show (outDone w f j).part = _ ∧ (outDone w f j).vc.chip = _ ∧ (_ → flightAt (outDone w f j) id = none)
      exact ⟨by rw [hout], by rw [hout], fun _ => flightAt_filter_ne (l := w.vc.eng.flights) (by rw [hout, hseq])⟩
    | some p => exact ⟨rfl, rfl, fun h => nomatch h⟩
  have hb (a : Nat) : physByte t a = physByte w a := by rw [physByte, hpart, physByte]
  refine ⟨t, ht, fun i hi => ?_, fun a ha => ?_, hnone, htc.trans hchip⟩
  · rw [hb, hbyte, if_pos ⟨Nat.le_add_right .., by omega⟩, Nat.add_sub_cancel_left]
  · rw [hb, hbyte, if_neg (by omega)]

end

end Sys2Proof.Machine
end

section
/-! What the events of the engines do (R94, R96, R103, R163, R164, R169, R231, R232): the statement, put together. -/

namespace Sys2Proof.Machine

open Sys2Proof.Laws

/-- Settles O51, clause by clause: completion, held record, overrun, line of a copy, piece of a message, map access. -/
theorem engineEvents : Obligations.EngineEvents := by
  unfold Obligations.EngineEvents
  refine ⟨engineWordCompletion_completes, eventRecordHeldPost_posts,
    fun s u e pops pushes hhead hmode hheld hshared hbad hready htok hfence => ?_,
    fun s id f j l k pa hat hcopy hfaulted hfrozen hnext hindexed holder => ?_, fun s n m hget hdst hfrozen hdue => ?_,
    fun s n a hget hdst hdue hfrozen hfirst => ?_⟩
  · have h : lockstepHead s u e pops pushes := ⟨hhead, hmode, hheld, hshared, hbad, hready, htok, hfence⟩
    exact ⟨overrun_behind h, overrun_late h, fun hb hnow f hf => overrun_token h hb hnow hf,
      fun hb hnow htok => overrun_none h hb (.inr ⟨hnow, htok⟩), fun hb hwait => overrun_none h hb (.inl hwait)⟩
  · have h : lineAhead s id f j l k := ⟨hat, hcopy, hfaulted, hfrozen, hnext, hindexed, holder⟩
    exact ⟨copyLineLanding_lands h, copyMemoryWritePerform_writes h⟩
  · have h : pieceDue s n m := ⟨hget, hdst, hfrozen, hdue⟩
    exact ⟨messageLanding_unexpected h, messageLanding_discards h, fun f => messageLanding_unfit h,
      fun f b => messageLanding_mailbox h⟩
  · have h : mapDue s n a := ⟨hget, hdst, hdue, hfrozen, hfirst⟩
    exact ⟨fun k => mapLands_y h, fun k => mapLands_m h, fun z k => mapLands_z h, fun k => mapLands_g h, mapLands_tile h, mapLands_share h⟩

end Sys2Proof.Machine
end

section
/-! Charges, shared costs and coefficient sets (R359, R363, R364), and the clock of a die (R109, R110). -/

namespace Sys2Proof.Machine

open Sys2Proof.Laws

/-! ### Accounts -/

theorem addAccount_running (u : State) {o : LaunchTag} (h : some o = launchTag u) (n amount : Nat) :
    addAccount u (some o) n amount =
      updVC { u with part.spent := u.part.spent + amount } n (fun v => { v with acct := v.acct + amount }) := by
  unfold addAccount
  exact if_pos h

theorem addAccount_saved (u : State) {o : LaunchTag} (h : some o ≠ launchTag u) (n amount : Nat) :
    addAccount u (some o) n amount = { u with
      part.spent := u.part.spent + amount,
      part.saved := u.part.saved.map (fun x =>
        if some x.tag = some o then { x with vcs := x.vcs.map (fun v => if v.id = n then { v with acct := v.acct + amount } else v) }
        else x) } := by
  unfold addAccount
  exact if_neg h

section
variable {s : State} {c : Charge} {r : List Charge}

theorem chargeEntry_of_charges (h : s.part.charges = c :: r) :
    exec .chargeEntry s = .next (enterCharge { s with part.charges := r } c) := by
  show execChargeEntry s = _
  rw [execChargeEntry, h]

/-- A charge of the running launch enters the account of its virtual core (R359, R361). -/
theorem chargeEntry_running (h : s.part.charges = c :: r) (hvc : c.vc = some s.vc.id) (howner : c.owner = launchTag s)
    (hlive : s.launch.live = true) :
    ∃ t, exec .chargeEntry s = .next t ∧ t.vc.acct = s.vc.acct + c.amount ∧ t.part.spent = s.part.spent + c.amount ∧
      t.part.charges = r ∧ t.dev.overhead = s.dev.overhead := by
  have htag : launchTag s = some (s.launch.queue, s.launch.slot) := if_pos hlive
  refine ⟨_, chargeEntry_of_charges h, ?_⟩
  rw [enterCharge, hvc, howner, htag]
  dsimp only
  rw [addAccount_running { s with part.charges := r } htag.symm, updVC, if_pos rfl]
  exact ⟨rfl, rfl, rfl, rfl⟩

/-- A charge of the saved launch enters the account that its virtual core has there. -/
theorem chargeEntry_saved (h : s.part.charges = c :: r) {n : Nat} {x : Saved} (hvc : c.vc = some n) (hsaved : s.part.saved = [x])
    (howner : c.owner = some x.tag) (hother : c.owner ≠ launchTag s) :
    ∃ t y, exec .chargeEntry s = .next t ∧ t.vc = s.vc ∧ t.part.spent = s.part.spent + c.amount ∧ t.part.charges = r ∧
      t.part.saved = [y] ∧
      y.vcs.map (fun (v : VC) => v.acct) = x.vcs.map (fun (v : VC) => if v.id = n then v.acct + c.amount else v.acct) := by
  rw [howner] at hother
  refine ⟨_, { x with vcs := x.vcs.map (fun v => if v.id = n then { v with acct := v.acct + c.amount } else v) },
    chargeEntry_of_charges h, ?_⟩
  rw [enterCharge, hvc, howner]
  dsimp only
  rw [addAccount_saved { s with part.charges := r } hother]
  dsimp only
  refine ⟨rfl, rfl, rfl, ?_, ?_⟩
  · rw [hsaved, List.map_singleton, if_pos rfl]
  · rw [List.map_map]
    refine List.map_congr_left fun v _ => ?_
    by_cases hv : v.id = n <;> simp [hv]

/-- A charge of no virtual core is overhead of the device. -/
theorem chargeEntry_overhead (h : s.part.charges = c :: r) (hvc : c.vc = none) :
    ∃ t, exec .chargeEntry s = .next t ∧ t.dev.overhead = s.dev.overhead + c.amount ∧ t.part.charges = r ∧
      t.part.spent = s.part.spent ∧ t.vc.acct = s.vc.acct := by
  refine ⟨_, chargeEntry_of_charges h, ?_⟩
  rw [enterCharge, hvc]
  exact ⟨rfl, rfl, rfl, rfl⟩

end

/-! ### Acting on a partition -/

theorem focusPart_self (s : State) : focusPart s s.part.idx = some s := if_pos rfl

/-- Acting on the partition in focus acts on the state, when it stays the partition it is. -/
theorem inPart_self {s : State} {f : State → State} (h : (f s).part.idx = s.part.idx) : inPart s s.part.idx f = f s := by
  have hback : focusPart (f s) s.part.idx = some (f s) := if_pos h
  rw [inPart, focusPart_self]
  dsimp only
  rw [hback]

theorem focusPart_dev {s t : State} {q : Nat} (h : focusPart s q = some t) : t.dev = s.dev := by
  unfold focusPart at h
  split at h
  · cases h
    rfl
  · split at h
    · cases h
    · cases h
      rfl

theorem inPart_dev {f : State → State} (hf : ∀ u, (f u).dev = u.dev) (s : State) (q : Nat) : (inPart s q f).dev = s.dev := by
  unfold inPart
  split
  · rfl
  next s1 h1 =>
    have hs : (f s1).dev = s.dev := (hf s1).trans (focusPart_dev h1)
    split
    next s3 h3 => exact (focusPart_dev h3).trans hs
    · exact hs

theorem focusVC_dev {s t : State} {n : Nat} (h : focusVC s n = some t) : t.dev = s.dev := by
  unfold focusVC at h
  split at h
  · cases h
    rfl
  · split at h
    · cases h
    · cases h
      rfl

theorem inVC_dev {f : State → State} (hf : ∀ u, (f u).dev = u.dev) (s : State) (n : Nat) : (inVC s n f).dev = s.dev := by
  unfold inVC
  split
  · rfl
  next s1 h1 =>
    have hs : (f s1).dev = s.dev := (hf s1).trans (focusVC_dev h1)
    split
    next s3 h3 => exact (focusVC_dev h3).trans hs
    · exact hs

/-! ### Shared costs and coefficient sets -/

/-- With one partition the shared totals go to its VF, and the rest to the device (R364). -/
theorem accountingIntervalEnd_alone {s : State} (h : s.others = []) (ref leak pidle : Nat) :
    ∃ t, exec (.accountingIntervalEnd ref leak pidle) s = .next t ∧
      t.part.shared = s.part.shared + sharesOf s s.part ref leak pidle ∧
      t.dev.overhead = s.dev.overhead + (ref + leak + pidle - sharesOf s s.part ref leak pidle) := by
  have hids : s.partIds = [s.part.idx] := by rw [State.partIds, h]; rfl
  have hshare : inPart s s.part.idx (fun u => { u with part.shared := u.part.shared + sharesOf u u.part ref leak pidle }) =
      { s with part.shared := s.part.shared + sharesOf s s.part ref leak pidle } := inPart_self rfl
  refine ⟨_, rfl, ?_⟩
  rw [h, hids]
  simp only [List.map_nil, List.foldl_cons, List.foldl_nil, hshare, Nat.zero_add, and_self]

theorem coefficientSetEffect_closed {s : State} {n : Nat} {l : List Nat} (h : s.part.nextCoefs = some (n, l))
    (hep : s.part.openEp = none) : exec .coefficientSetEffect s =
      .next { s with part.cset := n, part.coefs := l, part.nextCoefs := none } := by
  show Host.Outcome.next (takeCoefs s) = _
  rw [takeCoefs, h, hep]

theorem coefficientSetEffect_open {s : State} (hep : s.part.openEp ≠ none) :
    exec .coefficientSetEffect s = .next s := by
  obtain ⟨e, he⟩ := Option.ne_none_iff_exists'.mp hep
  show Host.Outcome.next (takeCoefs s) = _
  rw [takeCoefs, he]
  cases s.part.nextCoefs <;> rfl

/-! ### The clock of a die (R109, R110) -/

/-- A change of stretch is applied, or waits for the end of a communication phase (R109, R110). -/
theorem stretchChange_spec (s : State) (die : BitVec 2) (k : BitVec 5) (hk : k.toNat ≤ 16) :
    let old := mget stretchZero s.dev.stretch die.toNat
    ∃ t, exec (.stretchChange die k) s = .next t ∧
      (dieBusy s die.toNat = false → mget stretchZero t.dev.stretch die.toNat = ⟨k.toNat, none, 0⟩) ∧
      (dieBusy s die.toNat = true → (mget stretchZero t.dev.stretch die.toNat).k = old.k ∧
        (mget stretchZero t.dev.stretch die.toNat).pend = some k.toNat) ∧
      (∀ d, d ≠ die.toNat → mget stretchZero t.dev.stretch d = mget stretchZero s.dev.stretch d) ∧ t.vc = s.vc := by
  have hexec : exec (.stretchChange die k) s = execStretchChange die k s := rfl
  rw [hexec]
  unfold execStretchChange
  simp only [if_neg (Nat.not_lt.mpr hk)]
  cases hbusy : dieBusy s die.toNat
  · refine ⟨_, rfl, fun _ => mget_mput_same .., fun h => absurd h Bool.false_ne_true, fun d hd => mget_mput_ne _ _ _ hd, rfl⟩
  · refine ⟨_, rfl, fun h => absurd h.symm Bool.false_ne_true, fun _ => ?_, fun d hd => mget_mput_ne _ _ _ hd, rfl⟩
    dsimp only
    rw [mget_mput_same]
    exact ⟨rfl, rfl⟩

theorem raiseAt_dev (s : State) (n : Nat) (f : FaultRec) : (raiseAt s n f).dev = s.dev := by
  rw [raiseAt_eq]
  show (faultNoted s n f).dev = _
  rw [faultNoted, eccOutside_countError, updVC]
  split <;> rfl

theorem foldl_dev {α : Type} {g : State → α → State} (hg : ∀ u a, (g u a).dev = u.dev) (l : List α) (s : State) :
    (l.foldl g s).dev = s.dev := foldl_keeps hg l s

theorem stretchFaults_dev (s : State) : (stretchFaults s).dev = s.dev := foldl_dev (fun _ _ => raiseAt_dev ..) _ _

/-- A change that has waited 65,536 beats is applied; the faults that it brings touch no clock (R110). -/
theorem stretchForced_applies {s : State} {die : BitVec 2} {k : Nat} (hpend : (mget stretchZero s.dev.stretch die.toNat).pend = some k)
    (h : (mget stretchZero s.dev.stretch die.toNat).since + 65536 ≤ s.dev.refbeat) :
    ∃ t, exec (.stretchForced die) s = .next t ∧ mget stretchZero t.dev.stretch die.toNat = ⟨k, none, 0⟩ := by
  have hexec : exec (.stretchForced die) s = execStretchForced die s := rfl
  rw [hexec]
  unfold execStretchForced
  simp only [hpend, if_neg (Nat.not_lt.mpr h)]
  refine ⟨_, rfl, ?_⟩
  rw [foldl_dev (fun t q => inPart_dev (fun u => ?_) t q)]
  · exact mget_mput_same ..
  · split
    · exact foldl_dev (fun w (v : VC) => inVC_dev stretchFaults_dev w v.id) _ _
    · rfl

theorem stretchForced_waits {s : State} {die : BitVec 2} {k : Nat} (hpend : (mget stretchZero s.dev.stretch die.toNat).pend = some k)
    (h : s.dev.refbeat < (mget stretchZero s.dev.stretch die.toNat).since + 65536) : exec (.stretchForced die) s = .next s := by
  show execStretchForced die s = _
  unfold execStretchForced
  simp only [hpend, if_pos h]

end Sys2Proof.Machine
end

section
/-! Breakpoints, traces and debug stops (R399, R403, R404). -/

namespace Sys2Proof.Machine

open Sys2Proof.Laws

/-! ### Breakpoints (R403, R404) -/

section
variable {s : State} {n : BitVec 3}

theorem breakpointHit_no_head (h : bpHead s n.toNat = none) : exec (.breakpointHit n) s = .next s := by
  show execBreakpointHit n s = _
  unfold execBreakpointHit
  simp only [h]

/-- A breakpoint with hits left to pass over counts down. -/
theorem breakpointHit_counts (h : bpHead s n.toNat ≠ none) (hleft : fld (bpWord s n.toNat true) 63 32 ≠ 0) :
    ∃ t, exec (.breakpointHit n) s = .next t ∧ bpWord t n.toNat true = bpWord s n.toNat true - w64 (2 ^ 32) ∧
      t = { s with part.bp := t.part.bp } := by
  obtain ⟨⟨unit, name, sb⟩, hhead⟩ := Option.ne_none_iff_exists'.mp h
  refine ⟨{ s with part.bp := mput 0 s.part.bp (2 * n.toNat + 1) (bpWord s n.toNat true - w64 (2 ^ 32)) }, ?_, mget_mput_same .., rfl⟩
  show execBreakpointHit n s = _
  unfold execBreakpointHit
  simp only [hhead, if_pos hleft]

variable {unit name sb : Nat}

theorem breakpointHit_stops (h : bpHead s n.toNat = some (unit, name, sb)) (hleft : fld (bpWord s n.toNat true) 63 32 = 0)
    (hact : fld (bpWord s n.toNat false) 62 60 = 1) : exec (.breakpointHit n) s = .next (beginStop s unit name sb) := by
  show execBreakpointHit n s = _
  unfold execBreakpointHit
  simp only [h, hleft, hact, ne_eq, not_true_eq_false, if_false]

/-- A sample is kept while the last sixteen have room for it (R405). -/
theorem breakpointHit_samples (h : bpHead s n.toNat = some (unit, name, sb)) (hleft : fld (bpWord s n.toNat true) 63 32 = 0)
    (hact : fld (bpWord s n.toNat false) 62 60 = 2) (hroom : s.part.samples.length < 16) :
    ∃ t, exec (.breakpointHit n) s = .next t ∧ t = { s with part.samples := s.part.samples ++ [(s.vc.id, [name])] } := by
  have hlen : (s.part.samples ++ [(s.vc.id, [name])]).length - 16 = 0 := by
    rw [List.length_append, List.length_singleton]
    omega
  refine ⟨_, ?_, rfl⟩
  show execBreakpointHit n s = _
  unfold execBreakpointHit
  simp only [h, hleft, hact, hlen, ne_eq, not_true_eq_false, if_false, List.drop_zero]

theorem mem_holdUnit (v : VC) (unit : Nat) :
    unit ∈ (v.holdUnit unit).stop ∧ ∀ u ∈ (v.holdUnit unit).stop, u = unit ∨ u ∈ v.stop := by
  show unit ∈ (if v.stop.contains unit then v.stop else v.stop ++ [unit]) ∧
    ∀ u ∈ (if v.stop.contains unit then v.stop else v.stop ++ [unit]), _
  split
  next hin => exact ⟨List.contains_iff_mem.mp hin, fun u hu => .inr hu⟩
  · refine ⟨List.mem_append_right _ (List.mem_singleton_self unit), fun u hu => ?_⟩
    exact (List.mem_append.mp hu).symm.imp List.mem_singleton.mp id

/-- An Elastic virtual core stops with the entry held (R404). -/
theorem breakpointHit_elastic (h : bpHead s n.toNat = some (unit, name, sb)) (hleft : fld (bpWord s n.toNat true) 63 32 = 0)
    (hact : fld (bpWord s n.toNat false) 62 60 = 1) (hmode : s.launch.mode = .elastic) :
    ∃ t, exec (.breakpointHit n) s = .next t ∧ unit ∈ t.vc.stop ∧ (∀ u ∈ t.vc.stop, u = unit ∨ u ∈ s.vc.stop) ∧
      (s.part.dstops = [] → t.part.dstops = [(s.vc.id, [name])]) ∧
      t = { s with vc.stop := t.vc.stop, part.dstops := t.part.dstops } := by
  have hexec := breakpointHit_stops h hleft hact
  simp only [beginStop, hmode] at hexec
  obtain ⟨hin, hall⟩ := mem_holdUnit s.vc unit
  refine ⟨_, hexec, hin, hall, fun hno => ?_, rfl⟩
  show stopsWith s.part.dstops _ s.vc.id name = _
  rw [hno]
  simp [stopsWith]

/-- The records of a stop name the virtual cores of its list, in its order. -/
theorem stopsWith_ids (old : List (Nat × List Nat)) (ids : List Nat) (n name : Nat) :
    (stopsWith old ids n name).map (fun p => p.1) = ids := by
  rw [stopsWith, List.map_map]
  refine (List.map_congr_left fun i _ => ?_).trans (List.map_id ids)
  dsimp only [Function.comp_apply, id_eq]
  split
  next p hp =>
    have hi : p.1 = i := beq_iff_eq.mp (List.find?_some (p := fun p : Nat × List Nat => p.1 == i) hp)
    split
    · rfl
    · exact hi
  · rfl

/-- A Lockstep launch freezes before the entry's beat, and every virtual core of it has a record (R404). -/
theorem breakpointHit_lockstep (h : bpHead s n.toNat = some (unit, name, sb)) (hleft : fld (bpWord s n.toNat true) 63 32 = 0)
    (hact : fld (bpWord s n.toNat false) 62 60 = 1) (hmode : s.launch.mode = .lockstep) :
    ∃ t, exec (.breakpointHit n) s = .next t ∧ (unit = 0 → 0 ∈ t.vc.stop) ∧ (unit ≠ 0 → t.vc = s.vc) ∧
      (s.launch.frozen = none → t.launch.frozen = some (if unit = 0 ∨ sb ≤ s.vc.now then s.vc.now else sb - 1)) ∧
      t.part.dstops.map (fun p => p.1) = s.vcs.map (fun (v : VC) => v.id) := by
  have hexec := breakpointHit_stops h hleft hact
  simp only [beginStop, hmode] at hexec
  refine ⟨_, hexec, fun hu => ?_, fun hu => ?_, fun hno => ?_, stopsWith_ids ..⟩
  · dsimp only
    rw [if_pos hu]
    exact (mem_holdUnit s.vc 0).1
  · dsimp only
    rw [if_neg hu]
  · dsimp only
    rw [hno]
    by_cases hu : unit = 0 <;> simp [hu]

end

/-! ### The cycle trace (R399) -/

theorem traceOf_setTrace (s : State) (die : Nat) (t : Trace) : traceOf (setTrace s die t) die = t := mget_mput_same ..

theorem recording_eq (t : Trace) : t.recording = t.ctl.getLsbD 7 := by
  have h := toNat_getLsbD t.ctl 7
  show (t.ctl.toNat / 2 ^ 7 % 2 ^ (7 + 1 - 7) == 1) = _
  rw [pow_one, ← h]
  cases t.ctl.getLsbD 7 <;> rfl

theorem recording_record (t : Trace) (on : Bool) : (t.record on).recording = on := by
  rw [recording_eq]
  cases on
  · show (t.ctl &&& ~~~(128 : Word64)).getLsbD 7 = false
    simp
  · show (t.ctl ||| (128 : Word64)).getLsbD 7 = true
    simp

/-- Recording is a bit of its own: cluster, mode and trigger stay. -/
theorem ctl_record (t : Trace) (on : Bool) : (t.record on).ctl &&& 0x7F = t.ctl &&& 0x7F := by
  cases on
  · show t.ctl &&& ~~~(128 : Word64) &&& 0x7F = _
    rw [BitVec.and_assoc]
    rfl
  · show (t.ctl ||| (128 : Word64)) &&& 0x7F = _
    rw [BitVec.and_or_distrib_right]
    exact BitVec.or_zero

theorem traceStop_over {s : State} {die : BitVec 2} (h : (traceOf s die.toNat).left = some 0) :
    ∃ t, exec (.traceStop die) s = .next t ∧ (traceOf t die.toNat).recording = false ∧ (traceOf t die.toNat).left = none ∧
      (traceOf t die.toNat).recs = (traceOf s die.toNat).recs := by
  have hexec : exec (.traceStop die) s =
      .next (setTrace s die.toNat { (traceOf s die.toNat).record false with left := none }) := by
    show execTraceStop die s = _
    unfold execTraceStop
    simp only [h, if_true]
  refine ⟨_, hexec, ?_⟩
  rw [traceOf_setTrace]
  exact ⟨recording_record _ false, rfl, rfl⟩

theorem traceStop_goes_on {s : State} {die : BitVec 2} (h : (traceOf s die.toNat).left ≠ some 0) :
    exec (.traceStop die) s = .next s := by
  show execTraceStop die s = _
  unfold execTraceStop
  simp only [if_neg h]

section
variable (s : State) {fn : BitVec 5} (die : BitVec 2) {v : Word64}

theorem trctlWrite_stranger (h : fn ≠ 0) : exec (.trctlWrite fn die v) s = .next (reply s .notPermitted) := by
  have hm : isMgmt fn = false := by
    rw [isMgmt, beq_eq_false_iff_ne]
    exact fun h0 => h (BitVec.eq_of_toNat_eq h0)
  show execTrctlWrite fn die v s = _
  rw [execTrctlWrite, if_pos hm]

theorem fld_reserved : fld v 63 8 = 0 ↔ v.toNat < 2 ^ 8 := by
  have hv := v.isLt
  simp only [fld, bits]
  omega

theorem trctlWrite_refused (h : fn = 0) (hv : 2 ^ 8 ≤ v.toNat) : exec (.trctlWrite fn die v) s = .next (reply s .refused) := by
  subst h
  show execTrctlWrite 0 die v s = _
  rw [execTrctlWrite, if_neg (by decide), if_pos (fun h => Nat.not_lt.mpr hv (fld_reserved.mp h))]

/-- An accepted write of TRCTL sets cluster, mode and trigger, and the trace begins anew (R399). -/
theorem trctlWrite_taken (h : fn = 0) (hv : v.toNat < 2 ^ 8) :
    ∃ t, exec (.trctlWrite fn die v) s = .next t ∧ (traceOf t die.toNat).ctl &&& 0x7F = v &&& 0x7F ∧
      (traceOf t die.toNat).recording = (v.toNat / 16 % 4 == 1 || v.toNat / 16 % 4 == 3) ∧
      (traceOf t die.toNat).recs = [] ∧ t.dev.replies = s.dev.replies ++ [(0, [])] := by
  let t : Trace := { ctl := v &&& 0x7F, beat := s.dev.refbeat, recs := [], armed := false, left := none }
  have hexec : exec (.trctlWrite fn die v) s =
      .next (reply (setTrace s die.toNat (t.record (t.mode == 1 || t.mode == 3))) .done) := by
    subst h
    show execTrctlWrite 0 die v s = _
    rw [execTrctlWrite, if_neg (by decide), if_neg (not_not.mpr (fld_reserved.mpr hv))]
  have hmode : t.mode = v.toNat / 16 % 4 := by
    have hand : (v &&& 0x7F).toNat = v.toNat % 2 ^ 7 :=
      (BitVec.toNat_and ..).trans (Nat.and_two_pow_sub_one_eq_mod v.toNat 7)
    show (v &&& 0x7F).toNat / 2 ^ 4 % 2 ^ (5 + 1 - 4) = _
    rw [hand]
    omega
  have htrace : traceOf (reply (setTrace s die.toNat (t.record (t.mode == 1 || t.mode == 3))) .done) die.toNat =
      t.record (t.mode == 1 || t.mode == 3) := traceOf_setTrace ..
  refine ⟨_, hexec, ?_⟩
  rw [htrace, ctl_record, recording_record, hmode]
  refine ⟨?_, rfl, rfl, rfl⟩
  show v &&& 0x7F &&& 0x7F = _
  rw [BitVec.and_assoc]
  rfl

end

/-! ### The end of a debug stop (R404) -/

/-- A VF acts on its own partition, when that is in focus and stays the partition it is. -/
theorem vfReply_self {s : State} {fn : BitVec 5} {f : State → State × Status} (hfn : fn.toNat = s.part.idx + 1)
    (hidx : (f s).1.part.idx = s.part.idx) : vfReply s fn f = reply (f s).1 (f s).2 := by
  have hm : isMgmt fn = false := by rw [isMgmt, hfn]; rfl
  have hq : fn.toNat - 1 = s.part.idx := by rw [hfn]; rfl
  have hback : focusPart (f s).1 s.part.idx = some (f s).1 := if_pos hidx
  rw [vfReply, hm, if_neg Bool.false_ne_true, inPartReply, hq, focusPart_self]
  dsimp only
  rw [hback]

theorem debugResume_no_stop {s : State} {fn : BitVec 5} (hfn : fn.toNat = s.part.idx + 1) (h : s.part.dstops = []) :
    exec (.debugResume fn) s = .next (reply s .done) := by
  show execDebugResume fn s = _
  rw [execDebugResume, vfReply_self hfn]
  · rw [h]
    rfl
  · rw [h]
    rfl

/-- What a debug stop holds goes on, and nothing else of the registers changes (R269, R404). -/
theorem debugResume_resumes {s : State} {fn : BitVec 5} (hfn : fn.toNat = s.part.idx + 1) (h : s.part.dstops ≠ []) :
    ∃ t, exec (.debugResume fn) s = .next t ∧ t.part.dstops = [] ∧ (∀ v ∈ t.vcs, v.stop = [] ∧ v.held = false) ∧
      t.dev.replies = s.dev.replies ++ [(0, [])] ∧ t.vc.ctl = { s.vc.ctl with fenceSeq := none } := by
  let u := allVC { s with part.dstops := [] } VC.resumeStop
  let w : State := if allReturned u then { u with launch.frozen := none } else u
  have hw : ∃ o, w = { u with launch.frozen := o } := by
    show ∃ o, (if allReturned u then { u with launch.frozen := none } else u) = { u with launch.frozen := o }
    split
    · exact ⟨none, rfl⟩
    · exact ⟨u.launch.frozen, rfl⟩
  obtain ⟨o, hw⟩ := hw
  have hempty : s.part.dstops.isEmpty = false := List.isEmpty_eq_false_iff.mpr h
  have hexec : exec (.debugResume fn) s = .next (reply w .done) := by
    show execDebugResume fn s = _
    rw [execDebugResume, vfReply_self hfn] <;> simp only [hempty, if_false, Bool.false_eq_true]
    · rfl
    · show w.part.idx = _
      rw [hw]
      rfl
  refine ⟨_, hexec, ?_⟩
  rw [hw]
  refine ⟨rfl, fun v hv => ?_, rfl, rfl⟩
  rcases List.mem_cons.mp hv with rfl | hp
  · exact ⟨rfl, rfl⟩
  · obtain ⟨p, -, rfl⟩ := List.mem_map.mp hp
    exact ⟨rfl, rfl⟩

end Sys2Proof.Machine
end

section
/-! Trap entry (R374): the stores of the frame, and what the entry leaves. -/

namespace Sys2Proof.Machine

open Sys2Proof.Laws

/-! ### Stores keep the core's lookaside buffer -/

theorem writeLine_vc (s : State) (l : CLn) : (writeLine s l).vc = s.vc := by
  unfold writeLine
  split
  · rfl
  · refine (foldl_keeps (f := fun t : State => t.vc) (g := fun t (p : Nat × Byte) => physWrite t p.1 [p.2]) ?_ _ _).trans
      (l2Access_vc ..)
    exact fun _ _ => rfl

theorem writeBack_tlb (s : State) (line : Nat) : (writeBack s line).vc.tlb = s.vc.tlb := by
  unfold writeBack
  split
  · rfl
  · exact congrArg (fun v => v.tlb) (writeLine_vc ..)

theorem evictFor_tlb (s : State) (line : Nat) : (evictFor s line).vc.tlb = s.vc.tlb := by
  unfold evictFor
  dsimp only
  split
  · rfl
  · split
    · rfl
    · exact writeBack_tlb ..

theorem dcLine_tlb (s : State) (line : Nat) : (dcLine s line).1.vc.tlb = s.vc.tlb := by
  unfold dcLine
  split
  · rfl
  · dsimp only
    unfold dcFill
    split <;> simp only [homeRead_vc, evictFor_tlb]

theorem dcStore_tlb (s : State) (pa : Nat) (d : List Byte) : (dcStore s pa d).vc.tlb = s.vc.tlb := by
  unfold dcStore
  dsimp only
  split
  · exact congrArg (fun v => v.tlb) (l2Access_vc ..)
  · rw [← dcLine_tlb s (pa / 128)]
    generalize (dcLine s (pa / 128)).1 = s1
    show (if _ then _ else _ : State).vc.tlb = _
    split
    · rfl
    · show (match s1.vc.fifo with
        | f :: _ => if 64 / s1.m ≤ s1.vc.fifo.length then writeBack s1 f else s1
        | [] => s1 : State).vc.tlb = _
      split
      · split
        · exact writeBack_tlb ..
        · rfl
      · rfl

/-! ### A word that CTL can store -/

/-- CTL can store n bytes from va on, one double word after another: translation e places them in a page of its own that grants them,
no line of them is poisoned, no copy reads them, and the Collie holds nothing back (R121, R238, R390, R394). -/
def canStore (s : State) (e : TlbE) (va : Word64) (n : Nat) : Prop :=
  (s.dev.lq ≤ 4 ∧ denied e .write = none ∧ e.vb = false ∧ 16 ≤ e.size) ∧
  (e.hits va.toNat = true ∧ va.toNat + n ≤ 2 ^ 56 ∧ va.toNat % 65536 + n ≤ 65536 ∧ va.toNat % 8 = 0 ∧ inMap va.toNat = false) ∧
  memHazard s va.toNat n = false ∧ (∀ i, i < n → s.part.poison.contains ((e.frame + va.toNat % 2 ^ e.size + i) / 128) = false) ∧
  matchedNow s = true

theorem canStore_memMask {s t : State} (h : memMask t = memMask s) {e : TlbE} {va : Word64} {n : Nat} (hs : canStore s e va n) :
    canStore t e va n := by
  have hs : canStore (memMask s) e va n := hs
  rw [← h] at hs
  exact hs

/-- Within 64 KiB, and so within a page, adding is adding to the offset. -/
theorem page_of_span {va n size : Nat} (hn : va % 65536 + n < 65536) (hs : 16 ≤ size) :
    (va + n) / 2 ^ size = va / 2 ^ size ∧ (va + n) % 2 ^ size = va % 2 ^ size + n := by
  have hpow : 2 ^ size = 65536 * 2 ^ (size - 16) := by
    rw [show (65536 : Nat) = 2 ^ 16 by norm_num, ← pow_add]
    congr 1
    omega
  have hdiv : (va + n) / 2 ^ size = va / 2 ^ size := by
    rw [hpow, ← Nat.div_div_eq_div_mul, ← Nat.div_div_eq_div_mul]
    congr 1
    omega
  have h1 := Nat.div_add_mod va (2 ^ size)
  have h2 := Nat.div_add_mod (va + n) (2 ^ size)
  rw [hdiv] at h2
  exact ⟨hdiv, by omega⟩

theorem inMap_of_span {va n : Nat} (hn : va % 65536 + n < 65536) : inMap (va + n) = inMap va := by
  unfold inMap mapBase mapEnd
  rw [Bool.eq_iff_iff]
  simp only [Bool.and_eq_true, decide_eq_true_eq]
  omega

theorem memHazard_within {s : State} {va n : Nat} (h : memHazard s va n = false) {a k : Nat} (ha : va ≤ a) (hk : a + k ≤ va + n) :
    memHazard s a k = false := by
  rw [memHazard, List.any_eq_false] at h ⊢
  intro f hf
  have hf := h f hf
  split
  next m lo hi hsrc =>
    rw [hsrc] at hf
    simp only [Bool.and_eq_true, decide_eq_true_eq, not_and] at hf ⊢
    intro hm hlt
    have := hf ⟨hm.1, by omega⟩
    omega
  · exact Bool.false_ne_true

theorem canStore_split {s : State} {e : TlbE} {va : Word64} {n : Nat} (h : canStore s e va (8 + n)) :
    canStore s e va 8 ∧ (0 < n → canStore s e (va + 8) n) := by
  obtain ⟨hpage, ⟨hhit, hrange, hspan, halign, hmap⟩, hhaz, hpoison, hmatch⟩ := h
  refine ⟨⟨hpage, ⟨hhit, by omega, by omega, halign, hmap⟩, memHazard_within hhaz le_rfl (by omega),
    fun i hi => hpoison i (by omega), hmatch⟩, fun hn => ?_⟩
  have hva : (va + 8).toNat = va.toNat + 8 := by bv_omega
  obtain ⟨hdiv, hmod⟩ := page_of_span (va := va.toNat) (n := 8) (by omega) hpage.2.2.2
  refine ⟨hpage, ⟨?_, ?_⟩, ?_, fun i hi => ?_, hmatch⟩
  · rw [hva, TlbE.hits, hdiv]
    exact hhit
  · rw [hva, inMap_of_span (by omega)]
    exact ⟨by omega, by omega, by omega, hmap⟩
  · rw [hva]
    exact memHazard_within hhaz (by omega) (by omega)
  · rw [hva, hmod, ← Nat.add_assoc, Nat.add_assoc _ 8 i]
    exact hpoison (8 + i) (by omega)

theorem ctlStore_ok {s : State} {e : TlbE} {va : Word64} (h : canStore s e va 8) (hl : (lookup s va.toNat).2 = .ok e)
    {d : List Byte} (hd : d.length = 8) :
    ∃ t, ctlStore s va d = .ok t () ∧ memMask t = memMask s ∧ t.vc.tlb.head? = some e := by
  obtain ⟨⟨hlq, hdenied, hvb, -⟩, ⟨-, hrange, -, halign, hmap⟩, hhaz, hpoison, hmatch⟩ := h
  have hcheck : addrCheck va 8 = none := by
    rw [addrCheck, fld_of_lt (by omega), if_neg (not_not.mpr rfl), if_neg (not_not.mpr halign)]
  have htr := translate_of_lookup hl hdenied
  have hmask := memMask_translate htr
  obtain ⟨-, htlb⟩ := lookup_head hlq hl
  generalize (lookup s va.toNat).1 = u at htr hmask htlb
  have hhazU : memHazard u va.toNat 8 = false := by
    show memHazard (memMask u) va.toNat 8 = false
    rw [hmask]
    exact hhaz
  have hmatchU : matchedNow u = true := by
    show matchedNow (memMask u) = true
    rw [hmask]
    exact hmatch
  have hpoisonU : poisoned u (e.frame + va.toNat % 2 ^ e.size) = false := by
    have hl : u.part.poison = s.part.poison := by
      show (memMask u).part.poison = (memMask s).part.poison
      rw [hmask]
    rw [poisoned, hl]
    exact Bool.and_eq_false_imp.mpr fun hc => absurd hc (by simpa using hpoison 0 (by omega))
  refine ⟨dcStore u (e.frame + va.toNat % 2 ^ e.size) d, ?_, ?_, ?_⟩
  · unfold ctlStore
    rw [hd, hcheck]
    simp only [hmap, htr, hhazU, hvb, hpoisonU, hmatchU]
    simp
  · rw [memMask_dcStore, hmask]
  · rw [dcStore_tlb, htlb]

theorem length_leBytes (v n : Nat) : (leBytes v n).length = n := by
  induction n generalizing v with
  | zero => rfl
  | succ n ih => rw [leBytes, List.length_cons, ih]

/-- Double words are stored one after another where the first is translated (R374). -/
theorem storeWords_ok {s : State} {e : TlbE} {va : Word64} {ws : List Nat} (h : canStore s e va (8 * ws.length))
    (hl : ws ≠ [] → (lookup s va.toNat).2 = .ok e) : ∃ t, storeWords s va ws = .ok t () ∧ memMask t = memMask s := by
  induction ws generalizing s va with
  | nil => exact ⟨s, rfl, rfl⟩
  | cons w ws ih =>
    have hlen : 8 * (w :: ws).length = 8 + 8 * ws.length := by rw [List.length_cons]; omega
    rw [hlen] at h
    obtain ⟨hfirst, hrest⟩ := canStore_split h
    obtain ⟨u, hu, hmask, htlb⟩ := ctlStore_ok hfirst (hl (List.cons_ne_nil w ws)) (length_leBytes w 8)
    have hstep : storeWords s va (w :: ws) = storeWords u (va + 8) ws := by rw [storeWords, hu]
    rw [hstep]
    cases ws with
    | nil => exact ⟨u, rfl, hmask⟩
    | cons x xs =>
      have hcan := canStore_memMask hmask (hrest (Nat.mul_pos (by decide) (Nat.zero_lt_succ _)))
      obtain ⟨t, ht, hm⟩ := ih hcan fun _ => lookup_of_head htlb hcan.2.1.1
      exact ⟨t, ht, hm.trans hmask⟩

/-! ### What any store leaves as it was -/

/-- A store of CTL that is made changes no register and no run state (R122). -/
theorem ctlStore_ctl {s t : State} {va : Word64} {d : List Byte} {x : Unit} (h : ctlStore s va d = .ok t x) :
    t.vc.ctl = s.vc.ctl ∧ t.vc.run = s.vc.run := by
  have of_memMask {u : State} (hm : memMask u = memMask s) : u.vc.ctl = s.vc.ctl ∧ u.vc.run = s.vc.run :=
    show (memMask u).vc.ctl = (memMask s).vc.ctl ∧ (memMask u).vc.run = (memMask s).vc.run by
      rw [hm]
      exact ⟨rfl, rfl⟩
  unfold ctlStore at h
  split at h
  · cases h
  dsimp only at h
  split at h
  · split at h
    · cases h
    split at h <;> cases h
    exact ⟨rfl, rfl⟩
  split at h
  · cases h
  · cases h
  next htr =>
    have hm := memMask_translate htr
    split at h
    · cases h
    split at h
    · split at h
      · cases h
      split at h
      · cases h
      split at h
      · cases h
      split at h <;> cases h
      next hv => exact of_memMask ((memMask_vWrite hv).trans hm)
    · split at h
      · cases h
      split at h <;> cases h
      exact of_memMask ((memMask_dcStore ..).trans hm)

theorem storeWords_ctl {s t : State} {va : Word64} {ws : List Nat} {x : Unit} (h : storeWords s va ws = .ok t x) :
    t.vc.ctl = s.vc.ctl ∧ t.vc.run = s.vc.run := by
  induction ws generalizing s va with
  | nil =>
    cases h
    exact ⟨rfl, rfl⟩
  | cons w ws ih =>
    rw [storeWords] at h
    split at h
    next u hu =>
      obtain ⟨hc, hr⟩ := ctlStore_ctl hu
      obtain ⟨hct, hrt⟩ := ih h
      exact ⟨hct.trans hc, hrt.trans hr⟩
    next hno => exact absurd h (hno t x)

/-! ### A translation reads no control register -/

/-- The state with other control registers and faults of a virtual core that runs on. -/
def trapping (s : State) (c : Ctl) (fs : List FaultRec) : State :=
  { s with vc.ctl := c, vc.faults := fs, vc.run := .running, vc.ctlSeen := false }

section
variable (s : State) (c : Ctl) (fs : List FaultRec)

theorem chargeTo_trapping (w : Option Nat) (k : EClass) (n : Nat) :
    chargeTo (trapping s c fs) w k n = trapping (chargeTo s w k n) c fs := by
  show (if coef s k * n = 0 then _ else _ : State) = trapping (if coef s k * n = 0 then _ else _) c fs
  split <;> rfl

theorem l2Access_trapping (w : Option Nat) (moved line : Nat) (write : Bool) :
    l2Access (trapping s c fs) w moved line write = trapping (l2Access s w moved line write) c fs := by
  have hways : l2Ways (trapping s c fs) (l2SetOf (trapping s c fs) line) = l2Ways s (l2SetOf s line) := rfl
  have hl2 : (trapping s c fs).part.l2 = s.part.l2 := rfl
  unfold l2Access
  rw [hways, hl2]
  split
  · rw [chargeTo_trapping, chargeTo_trapping]
  · dsimp only
    split
    · rw [chargeTo_trapping]
      rfl
    · rw [chargeTo_trapping, chargeTo_trapping]
      rfl

theorem walkGo_trapping (table va n : Nat) :
    walkGo (trapping s c fs) table va n = (trapping (walkGo s table va n).1 c fs, (walkGo s table va n).2) := by
  have hread (s : State) (pa : Nat) : homeRead (trapping s c fs) pa 8 = (trapping (homeRead s pa 8).1 c fs, (homeRead s pa 8).2) :=
    Prod.ext (l2Access_trapping s c fs ..) rfl
  have hpte (s : State) (level va pa : Nat) (b : List Byte) : pteRead (trapping s c fs) level va pa b = pteRead s level va pa b := rfl
  induction n generalizing s table with
  | zero =>
    rw [walkGo, walkGo, hread]
    dsimp only
    rw [hpte]
    generalize pteRead s 0 va _ _ = r
    rcases r with d | ⟨t⟩ | e <;> rfl
  | succ n ih =>
    rw [walkGo, walkGo, hread]
    dsimp only
    rw [hpte]
    generalize pteRead s (n + 1) va _ _ = r
    rcases r with d | ⟨t⟩ | e
    · rfl
    · exact ih ..
    · rfl

theorem lookup_trapping (va : Nat) : (lookup (trapping s c fs) va).2 = (lookup s va).2 := by
  have hwalk : walk (trapping s c fs) va = (trapping (walk s va).1 c fs, (walk s va).2) := by
    by_cases hlow : s.cp < fld s.part.ptroot 55 11 * 2048 + tableSize 4
    · rw [walk_low s va hlow, walk_low (trapping s c fs) va hlow]
    · rw [walk_go s va hlow, walk_go (trapping s c fs) va hlow]
      exact walkGo_trapping ..
  rcases hcore : s.vc.tlb.find? (fun e => e.hits va) with _ | e
  · rcases hclus : s.part.ctlb.find? (fun p => p.1 == clusterOf s && p.2.hits va) with _ | p
    · rcases hrun : walkOf s va with _ | w
      · rcases hw : walk s va with ⟨s1, d | e⟩
        · rw [hw] at hwalk
          rw [lookup_bad hcore hclus hrun hw, lookup_bad (s := trapping s c fs) hcore hclus hrun hwalk]
        · rw [hw] at hwalk
          rw [lookup_walk hcore hclus hrun hw, lookup_walk (s := trapping s c fs) hcore hclus hrun hwalk]
      · rw [lookup_shared hcore hclus hrun, lookup_shared (s := trapping s c fs) hcore hclus hrun]
        cases w.entry <;> rfl
    · rw [lookup_cluster hcore hclus, lookup_cluster (s := trapping s c fs) hcore hclus]
  · rw [lookup_core hcore, lookup_core (s := trapping s c fs) hcore]

end

/-! ### The entry (R374) -/

/-- A span that CTL can store to stays one when it enters a trap, since the Collie holds none of its frame's stores back. -/
theorem canStore_trapping {s : State} {va : Word64} {n : Nat} (h : storable s va n) (halign : va.toNat % 8 = 0) {c : Ctl}
    (hc : c.matched = some 0) (fs : List FaultRec) :
    ∃ e, canStore (trapping s c fs) e va n ∧ (lookup (trapping s c fs) va.toNat).2 = .ok e := by
  obtain ⟨hrange, hmap, hhaz, pa, hlq, hspan, ⟨u, e, htr, hvb, hsize⟩, hpoison⟩ := h
  obtain ⟨-, hl, hdenied, hpa⟩ := translate_ok htr
  have hmatch : matchedNow (trapping s c fs) = true := by
    show (match c.matched with
      | some k => decide (k ≤ s.vc.pulse)
      | none => false) = true
    rw [hc]
    exact decide_eq_true (Nat.zero_le _)
  exact ⟨e, ⟨⟨hlq, hdenied, hvb, hsize⟩, ⟨(lookup_head hlq hl).1, hrange, hspan, halign, hmap⟩, hhaz, fun i hi => hpa ▸ hpoison i hi,
    hmatch⟩, (lookup_trapping s c fs va.toNat).trans hl⟩

/-- The address of the instruction that fault f is reported at. -/
def trapPc (s : State) (f : FaultRec) : Word64 :=
  match f.tepc with
  | some p => p
  | none => s.vc.ctl.pc

/-- The control registers as the trap of fault f sets them. -/
def trapCtl (s : State) (f : FaultRec) : Ctl :=
  { s.vc.ctl with tcause := f.tcause, tval := f.tval, h := true, tstep := s.vc.stepOpen,
                  tepc := w64 ((trapPc s f).toNat % 2 ^ 56 / 4 * 4), cur := some f, fenceSeq := none, matched := some 0, was := s.vc.run }

/-- The state in which the frame of fault f is stored. -/
def trapState (s : State) (f : FaultRec) : State := trapping s (trapCtl s f) (s.vc.faults.filter (fun g => g != f))

theorem fld_pc (v : Word64) : fld v 55 2 * 4 = v.toNat % 2 ^ 56 / 4 * 4 := by
  have h : fld v 55 2 = v.toNat / 2 ^ 2 % 2 ^ (55 + 1 - 2) := rfl
  rw [h]
  omega

theorem enterTrap_of_stored {s u : State} {f : FaultRec} (htvec : s.vc.ctl.tvec ≠ 0)
    (h : storeWords (trapState s f) (frameAddr s) (frameWords (trapState s f) f) = .ok u ()) :
    enterTrap s f = .next { u with vc.ctl.pc := handlerPc u.vc.ctl.tvec, vc.ctl.matched := none } := by
  unfold enterTrap
  rw [if_neg htvec]
  simp only [fld_pc]
  show (match storeWords (trapState s f) (frameAddr s) (frameWords (trapState s f) f) with
    | .ok s2 _ => _
    | .fault s2 c _ => _
    | .wait _ => _ : Out) = _
  rw [h]

/-- What the handler of fault f finds. -/
def trapEntered (s : State) (f : FaultRec) (t : State) : Prop :=
  keepsX s t ∧ t.vc.run = .running ∧ t.vc.ctl.was = s.vc.run ∧ t.vc.ctl.tcause = f.tcause ∧ t.vc.ctl.tval = f.tval ∧
  t.vc.ctl.h = true ∧ t.vc.ctl.tepc = w64 ((trapPc s f).toNat % 2 ^ 56 / 4 * 4) ∧
  t.vc.ctl.pc = w64 (s.vc.ctl.tvec.toNat % 2 ^ 56 / 4 * 4)

theorem trapEntered_of_stored {s u : State} {f : FaultRec} {ws : List Nat} {va : Word64}
    (h : storeWords (trapState s f) va ws = .ok u ()) :
    trapEntered s f { u with vc.ctl.pc := handlerPc u.vc.ctl.tvec, vc.ctl.matched := none } := by
  obtain ⟨hctl, hrun⟩ := storeWords_ctl h
  have hctl : u.vc.ctl = trapCtl s f := hctl
  refine ⟨fun r => ?_, hrun, congrArg Ctl.was hctl, congrArg Ctl.tcause hctl, congrArg Ctl.tval hctl, congrArg Ctl.h hctl,
    congrArg Ctl.tepc hctl, ?_⟩
  · show (if r = 0 then 0 else mget 0 u.vc.ctl.x r.toNat) = _
    rw [hctl]
    rfl
  · show handlerPc u.vc.ctl.tvec = _
    rw [hctl, handlerPc, fld_pc]
    rfl

theorem length_frameWords (s : State) (f : FaultRec) : (frameWords s f).length = 80 := by
  simp [frameWords, allQueues]

section
variable {s : State} {f : FaultRec} (hh : s.vc.ctl.h = false) (hstop : stopFormed s = true) (hf : nextFault s.vc.faults = some f)
  (hmode : s.launch.mode = .elastic ∨ s.launch.multi = false)
include hh hstop hf hmode

/-- With its stop formed, a launch on one device enters the trap of the fault that comes first (R372, R374). -/
theorem trapEntry_enters : exec .trapEntry s = enterTrap s f := by
  have hfaults : s.vc.faults.isEmpty = false := by
    cases hl : s.vc.faults with
    | nil =>
      rw [hl] at hf
      cases hf
    | cons => rfl
  have hone : ¬(s.launch.mode = .lockstep ∧ s.launch.multi = true) := by
    rintro ⟨hl, hm⟩
    rcases hmode with he | hs
    · exact nomatch he.symm.trans hl
    · exact Bool.false_ne_true (hs.symm.trans hm)
  show execTrapEntry s = _
  unfold execTrapEntry takeTrap
  simp only [hfaults, hh, hstop, hone, hf]
  rfl

variable (htvec : s.vc.ctl.tvec ≠ 0)
include htvec

theorem trapEntry_stored {u : State} (h : storeWords (trapState s f) (frameAddr s) (frameWords (trapState s f) f) = .ok u ()) :
    ∃ t, exec .trapEntry s = .next t ∧ trapEntered s f t ∧ t.part.mem = u.part.mem ∧ t.vc.dcache = u.vc.dcache ∧
      t.launch.maps = u.launch.maps :=
  ⟨_, (trapEntry_enters hh hstop hf hmode).trans (enterTrap_of_stored htvec h), trapEntered_of_stored h, rfl, rfl, rfl⟩

/-- Where the frame can be stored, the trap is entered. -/
theorem trapEntry_storable (h : storable s (frameAddr s) 640) : ∃ t, exec .trapEntry s = .next t ∧ trapEntered s f t := by
  have halign : (frameAddr s).toNat % 8 = 0 := by
    have hlt : (xr s 2).toNat / 64 * 64 < 2 ^ 64 := by omega
    have hw : (w64 ((xr s 2).toNat / 64 * 64)).toNat = (xr s 2).toNat / 64 * 64 := Nat.mod_eq_of_lt hlt
    rw [frameAddr, BitVec.toNat_sub, hw]
    show (2 ^ 64 - 640 + _) % 2 ^ 64 % 8 = 0
    omega
  obtain ⟨e, hcan, hl⟩ := canStore_trapping h halign (c := trapCtl s f) rfl (s.vc.faults.filter (fun g => g != f))
  have hlen : 8 * (frameWords (trapState s f) f).length = 640 := by rw [length_frameWords]
  rw [← hlen] at hcan
  obtain ⟨u, hu, -⟩ := storeWords_ok hcan fun _ => hl
  obtain ⟨t, ht, hentered, -⟩ := trapEntry_stored hh hstop hf hmode htvec hu
  exact ⟨t, ht, hentered⟩

end

end Sys2Proof.Machine
end

section
/-! The Collie's mismatch (R389-R391, R393), and the statement on energy and debug put together. -/

namespace Sys2Proof.Machine

open Sys2Proof.Laws

/-! ### CTL is put back -/

/-- The state without what setting a group's cseq changes. -/
def groupMask (s : State) : State := { s with part.groups := [], part.closed := [] }

/-- Rolling back changes the virtual core as VC.rollBack says, and neither the device nor the launch's mode. -/
theorem rollBack_keeps (s : State) (p : Past) :
    (rollBack s p).vc = s.vc.rollBack p ∧ (rollBack s p).launch.mode = s.launch.mode ∧ (rollBack s p).dev = s.dev ∧
    (rollBack s p).part.idx = s.part.idx := by
  let late := (s.vc.colls.filter (fun c => decide (p.nextSeq ≤ c.num))).reverse
  let back (t : State) (c : Coll) : State :=
    if groupCseq t c.group = (c.seq + 1) % 2 ^ 32 then setCseq t c.group c.seq else t
  have hstep (t : State) (c : Coll) : groupMask (back t c) = groupMask t := by
    show groupMask (if _ then _ else _) = _
    split <;> rfl
  have hmask : groupMask (late.foldl back s) = groupMask s := foldl_keeps hstep late s
  show (late.foldl back s).vc.rollBack p = _ ∧ (late.foldl back s).launch.mode = _ ∧ (late.foldl back s).dev = _ ∧
    (late.foldl back s).part.idx = _
  generalize late.foldl back s = u at hmask
  show (groupMask u).vc.rollBack p = _ ∧ (groupMask u).launch.mode = _ ∧ (groupMask u).dev = _ ∧ (groupMask u).part.idx = _
  rw [hmask]
  exact ⟨rfl, rfl, rfl, rfl⟩

theorem flights_setQ (en : Eng) (q : Queue) (v : QState) : (en.setQ q v).flights = en.flights := by cases q <;> rfl

theorem flights_untoken (ps : List Past) (e : Eng) : (untoken ps e).flights = e.flights := by
  unfold untoken
  refine (foldl_keeps (f := fun en : Eng => en.flights) (fun en k => ?_) _ _).trans rfl
  split <;> rfl

/-- A word that CTL routed before p, and that no table placed, is still in flight after the roll-back (R391). -/
theorem mem_flights_rollBack {v : VC} {p : Past} {f : Flight} (hf : f ∈ v.eng.flights) (hrun : f.entry.run = none)
    (hseq : f.entry.seq < p.nextSeq) : f ∈ (v.rollBack p).eng.flights := by
  show f ∈ (untoken _ (unroute p v.eng)).flights
  rw [flights_untoken]
  unfold unroute
  dsimp only
  rw [foldl_keeps (f := fun en : Eng => en.flights) (fun en q => flights_setQ ..)]
  refine List.mem_filter.mpr ⟨hf, ?_⟩
  rw [hrun]
  exact decide_eq_true hseq

/-! ### The mismatch is counted and reported -/

/-- A corruption counts against its core, which is marked when it has come to the limit (R393). -/
theorem countSilent_counts (s : State) :
    let core := physCore s (coreOf s s.vc.id)
    let n := Nat.min 255 (mget 0 s.dev.silent core + 1)
    mget 0 (countSilent s).dev.silent core = n ∧ (s.dev.retire.toNat ≤ n → core ∈ (countSilent s).dev.marked) := by
  dsimp only
  unfold countSilent
  refine ⟨mget_mput_same .., fun hn => ?_⟩
  dsimp only
  split
  · exact List.mem_append_right _ (List.mem_singleton_self _)
  next hno =>
    rw [not_and, Bool.not_eq_false] at hno
    exact List.contains_iff_mem.mp (hno hn)

theorem physCore_congr {s u : State} (hdev : u.dev = s.dev) (hidx : u.part.idx = s.part.idx) (hid : u.vc.id = s.vc.id) :
    physCore u (coreOf u u.vc.id) = physCore s (coreOf s s.vc.id) := by
  simp only [physCore, coreOf, enabledCores, State.m, hdev, hidx, hid]

/-- A word in flight that waits on no other party keeps the stop of an Elastic launch from forming at once (R377). -/
theorem stopFormedNow_of_flight {s : State} {f : Flight} (hmode : s.launch.mode = .elastic) (hf : f ∈ s.vc.eng.flights)
    (hfaulted : f.faulted = false) (hchan : f.chan = none) (hended : f.ended = false) : stopFormedNow s = false := by
  rw [stopFormedNow, hmode]
  refine Bool.and_eq_false_imp.mpr fun _ => List.all_eq_false.mpr ⟨f, hf, ?_⟩
  rw [hfaulted, hchan, hended]
  exact Bool.false_ne_true

/-- A fault of CTL outside a handler is recorded where the stop has still to form (R374). -/
theorem ctlFault_recorded {s : State} {f : Flight} (hh : s.vc.ctl.h = false) (hmode : s.launch.mode = .elastic)
    (hf : f ∈ s.vc.eng.flights) (hfaulted : f.faulted = false) (hchan : f.chan = none) (hended : f.ended = false)
    (cause detail : Nat) (tval : Word64) :
    let g : FaultRec := { src := 0, cause := cause, detail := detail, tval := tval, beat := s.vc.now,
                          name := nameOfPc s.vc.ctl.pc, seq := none, tepc := some s.vc.ctl.pc }
    ctlFault s cause detail tval = .next (raiseAt s s.vc.id g) := by
  intro g
  have hr : faultedFrom s (raiseAt s s.vc.id g) g := raiseAt_self s g
  have hm : (raiseAt s s.vc.id g).launch.mode = .elastic := by
    rw [hr]
    exact hmode
  have hstop : stopFormedNow (raiseAt s s.vc.id g) = false := by
    refine stopFormedNow_of_flight hm ?_ hfaulted hchan hended
    rw [hr]
    exact hf
  unfold ctlFault ctlFaultTo
  rw [hh, if_neg Bool.false_ne_true]
  dsimp only
  rw [if_neg (fun h => absurd (hm.symm.trans h.1) (by decide)), hstop, if_neg Bool.false_ne_true]

section
variable {s : State} {c : BitVec 4} {p : Past}

/-- A mismatch puts CTL back to before the instruction, counts against the core and raises a corruption fault (R391, R393). -/
theorem collieCompare_mismatch (hp : comparedPast s.vc = some p) (hh : s.vc.ctl.h = false) (hph : p.ctl.h = false)
    (hmode : s.launch.mode = .elastic)
    (hfl : ∃ f ∈ s.vc.eng.flights, f.faulted = false ∧ f.chan = none ∧ f.ended = false ∧ f.entry.run = none ∧ f.entry.seq < p.nextSeq)
    (h7 : c.toNat ≠ 7) (h9 : c.toNat < 9) :
    let core := physCore s (coreOf s s.vc.id)
    let n := Nat.min 255 (mget 0 s.dev.silent core + 1)
    ∃ t g, exec (.collieCompare (some c)) s = .next t ∧ t.vc.ctl.x = p.ctl.x ∧ t.vc.ctl.pc = p.ctl.pc ∧
      t.vc.ctl.flags = p.ctl.flags ∧ t.vc.ctl.instret = p.ctl.instret ∧ t.vc.dcache = p.dcache ∧ t.vc.faults = s.vc.faults ++ [g] ∧
      g.cause = 0x2A ∧ g.detail = c.toNat ∧ g.tepc = some p.ctl.pc ∧ mget 0 t.dev.silent core = n ∧
      (s.dev.retire.toNat ≤ n → core ∈ t.dev.marked) := by
  obtain ⟨f, hf, hfaulted, hchan, hended, hrun, hseq⟩ := hfl
  obtain ⟨hvc, hmodeU, hdev, hidx⟩ := rollBack_keeps s p
  -- CTL as it was, with its vote, before the mismatch is counted
  let u : State := { rollBack s p with vc := (rollBack s p).vc.voteFlag 3 }
  have huvc : u.vc = { s.vc.rollBack p with tx.vote := u.vc.tx.vote } := by
    show (rollBack s p).vc.voteFlag 3 = { s.vc.rollBack p with tx.vote := ((rollBack s p).vc.voteFlag 3).tx.vote }
    rw [← hvc]
    exact voteFlag_keeps ..
  have hexec : exec (.collieCompare (some c)) s = ctlFault (countSilent u) 0x2A c.toNat 0 := by
    show execCollieCompare (some c) s = _
    unfold execCollieCompare
    rw [hp]
    exact if_neg (by omega)
  have hwh : (countSilent u).vc.ctl.h = false := by
    show u.vc.ctl.h = false
    rw [huvc]
    show (s.vc.ctl.h || p.ctl.h) = false
    rw [hh, hph]
    rfl
  have hwf : f ∈ (countSilent u).vc.eng.flights := by
    show f ∈ u.vc.eng.flights
    rw [huvc]
    exact mem_flights_rollBack hf hrun hseq
  have hrec := ctlFault_recorded (s := countSilent u) hwh (hmodeU.trans hmode) hwf hfaulted hchan hended 0x2A c.toNat 0
  let g : FaultRec :=
    { src := 0, cause := 0x2A, detail := c.toNat, tval := 0, beat := (countSilent u).vc.now,
      name := nameOfPc (countSilent u).vc.ctl.pc, seq := none, tepc := some (countSilent u).vc.ctl.pc }
  have hr : faultedFrom (countSilent u) (raiseAt (countSilent u) (countSilent u).vc.id g) g := raiseAt_self ..
  have hctl : (countSilent u).vc.ctl = ctlBefore p.ctl s.vc.ctl := by
    show u.vc.ctl = _
    rw [huvc]
    rfl
  have hid : u.vc.id = s.vc.id := by
    rw [huvc]
    rfl
  have hcore : physCore u (coreOf u u.vc.id) = physCore s (coreOf s s.vc.id) := physCore_congr hdev hidx hid
  obtain ⟨hsilent, hmarked⟩ := countSilent_counts u
  have hdevU : u.dev = s.dev := hdev
  rw [hcore, hdevU] at hsilent hmarked
  rw [hrec] at hexec
  have htctl := (congrArg (fun t : State => t.vc.ctl) hr).trans hctl
  refine ⟨_, g, hexec, by rw [htctl]; rfl, by rw [htctl]; rfl, by rw [htctl]; rfl, by rw [htctl]; rfl, ?_, ?_, rfl, rfl, ?_, ?_, ?_⟩
  · rw [hr]
    show u.vc.dcache = _
    rw [huvc]
    rfl
  · rw [hr]
    show u.vc.faults ++ _ = _
    rw [huvc]
    rfl
  · show some (countSilent u).vc.ctl.pc = _
    rw [hctl]
    rfl
  · rw [raiseAt_dev]
    exact hsilent
  · rw [raiseAt_dev]
    exact hmarked

theorem collieCompare_no_place (h : c.toNat = 7 ∨ 9 ≤ c.toNat) : exec (.collieCompare (some c)) s = .next s := by
  show execCollieCompare (some c) s = _
  unfold execCollieCompare
  split
  next hc _ =>
    cases hc
    exact if_pos h
  · rfl

end

/-! ### The statement -/

/-- Settles O56, clause by clause: charges, shared costs, coefficient sets, breakpoints, traces, debug stops, the clock of a die, the trap
and the Collie. -/
theorem energyAndDebug : Obligations.EnergyAndDebug := by
  unfold Obligations.EnergyAndDebug
  refine ⟨fun s c r hc => ⟨chargeEntry_running hc, fun n x => chargeEntry_saved hc, chargeEntry_overhead hc⟩,
    fun s ref leak pidle ho => accountingIntervalEnd_alone ho ref leak pidle,
    fun s n l hl => ⟨coefficientSetEffect_closed hl, coefficientSetEffect_open⟩,
    fun s n => ⟨breakpointHit_no_head, breakpointHit_counts, fun unit name sb hb h0 =>
      ⟨breakpointHit_samples hb h0, breakpointHit_elastic hb h0, breakpointHit_lockstep hb h0⟩⟩,
    fun s die => ⟨traceStop_over, traceStop_goes_on⟩,
    fun s fn die v => ⟨trctlWrite_taken s die, trctlWrite_refused s die, trctlWrite_stranger s die⟩,
    fun s fn hfn => ⟨debugResume_no_stop hfn, debugResume_resumes hfn⟩,
    stretchChange_spec,
    fun s die k hk => ⟨stretchForced_applies hk, stretchForced_waits hk⟩,
    fun s f hh hstop hf hmode htvec => ⟨trapEntry_storable hh hstop hf hmode htvec, fun u => trapEntry_stored hh hstop hf hmode htvec⟩,
    fun s c p hp hh hph hmode hfl =>
      ⟨collieCompare_mismatch hp hh hph hmode hfl, collieCompare_no_place, ?_⟩⟩
  show execCollieCompare none s = _
  rfl

end Sys2Proof.Machine
end

section
/-! The one-beat integer words of two registers (R117), and the multiply and divide words (R119). -/

namespace Sys2Proof.Machine

open Sys2Proof.Laws

/-! ### Values of the two-register words (R117) -/

section
variable (a b : Word64)

theorem add_eq_w64 : a + b = w64 ((a.toNat + b.toNat) % 2 ^ 64) := by
  apply BitVec.eq_of_toNat_eq
  simp [w64]

theorem sub_eq_w64 : a - b = w64 ((a.toNat + 2 ^ 64 - b.toNat) % 2 ^ 64) := by
  apply BitVec.eq_of_toNat_eq
  rw [BitVec.toNat_sub, w64, BitVec.toNat_ofNat, Nat.mod_mod]
  congr 1
  have := b.isLt
  omega

theorem and_eq_w64 : a &&& b = w64 (a.toNat &&& b.toNat) := by
  rw [w64, ← BitVec.toNat_and, BitVec.ofNat_toNat, BitVec.setWidth_eq]

theorem or_eq_w64 : a ||| b = w64 (a.toNat ||| b.toNat) := by
  rw [w64, ← BitVec.toNat_or, BitVec.ofNat_toNat, BitVec.setWidth_eq]

theorem xor_eq_w64 : a ^^^ b = w64 (a.toNat ^^^ b.toNat) := by
  rw [w64, ← BitVec.toNat_xor, BitVec.ofNat_toNat, BitVec.setWidth_eq]

theorem andn_eq_w64 : a &&& ~~~b = w64 (a.toNat &&& (2 ^ 64 - 1 - b.toNat)) := by
  rw [and_eq_w64, BitVec.toNat_not]

theorem ite_lt_toInt : (if a.toInt < b.toInt then 1 else 0) = ofBool64 (a.slt b) := by
  simp [ofBool64, BitVec.slt]

theorem ite_lt_toNat : (if a.toNat < b.toNat then 1 else 0) = ofBool64 (a.ult b) := by
  simp [ofBool64, BitVec.ult]

theorem ofInt_min : BitVec.ofInt 64 (min a.toInt b.toInt) = if b.slt a then b else a := by
  rw [BitVec.slt, min_comm, min_def_lt, apply_ite (BitVec.ofInt 64), BitVec.ofInt_toInt, BitVec.ofInt_toInt]
  simp

theorem ofInt_max : BitVec.ofInt 64 (max a.toInt b.toInt) = if a.slt b then b else a := by
  rw [BitVec.slt, max_def_lt, apply_ite (BitVec.ofInt 64), BitVec.ofInt_toInt, BitVec.ofInt_toInt]
  simp

theorem w64_min : w64 (min a.toNat b.toNat) = if b.ult a then b else a := by
  rw [BitVec.ult, min_comm, min_def_lt, w64, apply_ite (BitVec.ofNat 64), BitVec.ofNat_toNat, BitVec.ofNat_toNat]
  simp

theorem w64_max : w64 (max a.toNat b.toNat) = if a.ult b then b else a := by
  rw [BitVec.ult, max_def_lt, w64, apply_ite (BitVec.ofNat 64), BitVec.ofNat_toNat, BitVec.ofNat_toNat]
  simp

theorem signExtend_setWidth (v : Word64) : (v.setWidth 32).signExtend 64 = BitVec.ofInt 64 (Int.bmod v.toInt (2 ^ 32)) := by
  apply BitVec.eq_of_toInt_eq
  have h1 := Int.bmod_lt (x := v.toInt) (m := 2 ^ 32) (by decide)
  have h2 := Int.le_bmod (x := v.toInt) (m := 2 ^ 32) (by decide)
  have h : (Int.bmod v.toInt (2 ^ 32)).bmod (2 ^ 64) = Int.bmod v.toInt (2 ^ 32) :=
    Int.bmod_eq_of_le (by norm_num at h1 h2 ⊢; omega) (by norm_num at h1 h2 ⊢; omega)
  rw [BitVec.toInt_signExtend_of_le (by decide), BitVec.toInt_setWidth, BitVec.toInt_ofInt, h, BitVec.toInt_eq_toNat_bmod,
    Int.bmod_bmod_of_dvd (by decide)]

theorem addw_eq_ofInt : ((a + b).setWidth 32).signExtend 64 = BitVec.ofInt 64 (Int.bmod (a.toInt + b.toInt) (2 ^ 32)) := by
  rw [signExtend_setWidth, BitVec.toInt_add, Int.bmod_bmod_of_dvd (by decide)]

theorem subw_eq_ofInt : ((a - b).setWidth 32).signExtend 64 = BitVec.ofInt 64 (Int.bmod (a.toInt - b.toInt) (2 ^ 32)) := by
  rw [signExtend_setWidth, BitVec.toInt_sub, Int.bmod_bmod_of_dvd (by decide)]

/-- What leaves at one end of a rotation enters at the other: the two parts share no bit. -/
theorem rotated_parts {v k : Nat} (hv : v < 2 ^ 64) (hk : k ≤ 64) :
    v * 2 ^ k % 2 ^ 64 ||| v / 2 ^ (64 - k) = (v * 2 ^ k + v / 2 ^ (64 - k)) % 2 ^ 64 := by
  have hpow : (2 : Nat) ^ 64 = 2 ^ k * 2 ^ (64 - k) := by
    rw [← pow_add, Nat.add_sub_cancel' hk]
  have hlow : v / 2 ^ (64 - k) < 2 ^ k := by
    rw [Nat.div_lt_iff_lt_mul (Nat.two_pow_pos _), ← hpow]
    exact hv
  have hhigh : v * 2 ^ k % 2 ^ 64 = 2 ^ k * (v % 2 ^ (64 - k)) := by
    rw [hpow, mul_comm v, Nat.mul_mod_mul_left]
  have hlt : 2 ^ k * (v % 2 ^ (64 - k)) + v / 2 ^ (64 - k) < 2 ^ 64 := by
    have hmod := Nat.mod_lt v (Nat.two_pow_pos (64 - k))
    calc 2 ^ k * (v % 2 ^ (64 - k)) + v / 2 ^ (64 - k) < 2 ^ k * (v % 2 ^ (64 - k) + 1) := by rw [Nat.mul_succ]; omega
      _ ≤ 2 ^ 64 := by rw [hpow]; exact Nat.mul_le_mul_left _ hmod
  rw [hhigh, ← Nat.two_pow_add_eq_or_of_lt hlow, Nat.add_mod, hhigh,
    Nat.mod_eq_of_lt (lt_of_lt_of_le hlow (Nat.pow_le_pow_right two_pos hk)), Nat.mod_eq_of_lt hlt]

theorem rotateLeft_eq_w64 {k : Nat} (hk : k < 64) :
    a.rotateLeft k = w64 ((a.toNat * 2 ^ k + a.toNat / 2 ^ (64 - k)) % 2 ^ 64) := by
  apply BitVec.eq_of_toNat_eq
  rw [BitVec.toNat_rotateLeft, Nat.mod_eq_of_lt hk, Nat.shiftLeft_eq, Nat.shiftRight_eq_div_pow, rotated_parts a.isLt hk.le,
    w64, BitVec.toNat_ofNat, Nat.mod_mod]

theorem rotateRight_eq_w64 {k : Nat} (hk : k < 64) :
    a.rotateRight k = w64 ((a.toNat / 2 ^ k + a.toNat * 2 ^ (64 - k)) % 2 ^ 64) := by
  apply BitVec.eq_of_toNat_eq
  have h := rotated_parts a.isLt (Nat.sub_le 64 k)
  rw [Nat.sub_sub_self hk.le] at h
  rw [BitVec.toNat_rotateRight, Nat.mod_eq_of_lt hk, Nat.shiftLeft_eq, Nat.shiftRight_eq_div_pow, Nat.lor_comm, h,
    w64, BitVec.toNat_ofNat, Nat.mod_mod, Nat.add_comm]

end

/-! ### Counts of bits (R117) -/

theorem mod_two_pow_succ_eq (v : Word64) (n : Nat) :
    v.toNat % 2 ^ (n + 1) = v.toNat % 2 ^ n + if v.getLsbD n then 2 ^ n else 0 := by
  rw [Nat.mod_pow_succ, ← Nat.toNat_testBit, BitVec.getLsbD]
  cases v.toNat.testBit n <;> simp

/-- Of the low n bits, the highest one set stands just below the zeros that clz counts. -/
theorem clzGo_spec (v : Word64) (n : Nat) :
    clzGo v n ≤ n ∧ v.toNat % 2 ^ n < 2 ^ (n - clzGo v n) ∧ (clzGo v n < n → 2 ^ (n - 1 - clzGo v n) ≤ v.toNat % 2 ^ n) := by
  induction n with
  | zero => simp [clzGo, Nat.mod_one]
  | succ n ih =>
    obtain ⟨hle, hlt, hge⟩ := ih
    rw [clzGo, mod_two_pow_succ_eq]
    split
    · have := Nat.mod_lt v.toNat (Nat.two_pow_pos n)
      refine ⟨Nat.zero_le _, ?_, fun _ => ?_⟩
      · rw [Nat.sub_zero, pow_succ]
        omega
      · exact Nat.le_add_left _ _
    · rw [Nat.add_zero, Nat.add_sub_add_right, show n + 1 - 1 - (clzGo v n + 1) = n - 1 - clzGo v n by omega]
      exact ⟨Nat.succ_le_succ hle, hlt, fun h => hge (Nat.lt_of_succ_lt_succ h)⟩

theorem getLsbD_iff_div (v : Word64) (i : Nat) : v.getLsbD i = true ↔ v.toNat / 2 ^ i % 2 = 1 := by
  rw [BitVec.getLsbD, Nat.testBit_eq_decide_div_mod_eq, decide_eq_true_eq]

/-- From bit i on, the lowest one set stands just above the zeros that ctz counts. -/
theorem ctzGo_spec (v : Word64) (i n : Nat) :
    ctzGo v i n ≤ n ∧ v.toNat / 2 ^ i % 2 ^ ctzGo v i n = 0 ∧
      (ctzGo v i n < n → v.toNat / 2 ^ i / 2 ^ ctzGo v i n % 2 = 1) := by
  induction n generalizing i with
  | zero => simp [ctzGo, Nat.mod_one]
  | succ n ih =>
    rw [ctzGo]
    split
    next hb => exact ⟨Nat.zero_le _, Nat.mod_one _, fun _ => by rw [pow_zero, Nat.div_one]; exact (getLsbD_iff_div v i).mp hb⟩
    next hb =>
      have heven : v.toNat / 2 ^ i % 2 = 0 := by
        have := mt (getLsbD_iff_div v i).mpr hb
        omega
      obtain ⟨hle, hmod, hbit⟩ := ih (i + 1)
      rw [pow_succ, ← Nat.div_div_eq_div_mul] at hmod hbit
      refine ⟨Nat.succ_le_succ hle, ?_, fun h => ?_⟩
      · rw [pow_succ', Nat.mod_mul, hmod, heven]
      · rw [pow_succ', ← Nat.div_div_eq_div_mul]
        exact hbit (Nat.lt_of_succ_lt_succ h)

theorem popGo_eq_length (v : Word64) (n : Nat) : popGo v n = ((List.range n).filter (fun i => v.getLsbD i)).length := by
  induction n with
  | zero => rfl
  | succ n ih =>
    rw [popGo, ih, List.range_succ, List.filter_append, List.length_append, Nat.add_comm]
    cases h : v.getLsbD n <;> simp [b2n, h]

theorem bswap64_byte (v : Word64) {i : Nat} (hi : i < 8) : (bswap64 v).extractLsb' (8 * i) 8 = v.extractLsb' (8 * (7 - i)) 8 := by
  unfold bswap64
  interval_cases i
  all_goals
    simp only [BitVec.extractLsb'_append_eq_ite]
    simp

/-! ### The words of major 0x01 (R117) -/

theorem intOp_flags {s t : State} {d : BitVec 6} {v : Word64} (h : intOp s d v = .next t) :
    t.vc.ctl.flags = s.vc.ctl.flags := by
  cases h
  simp [retire]

/-- A word that computes v in one beat, the value given in another form. -/
theorem intOp_value (s : State) (d : BitVec 6) {v w : Word64} (h : v = w) :
    ∃ t, intOp s d v = .next t ∧ writesX s t d w ∧ ctlStep s t .eint 4 ∧ keepsBytes s t ∧ t.vc.ctl.flags = s.vc.ctl.flags := by
  subst h
  obtain ⟨t, ht, hx, hstep, hbytes⟩ := intOp_step s d v
  exact ⟨t, ht, hx, hstep, hbytes, intOp_flags ht⟩

/-- Settles O1: every word is a one-beat integer word; its value is the one of R117. -/
theorem intRegisterWords : Obligations.IntRegisterWords := by
  unfold Obligations.IntRegisterWords
  intro s d a b A B k
  have hk : k < 64 := Nat.mod_lt _ (by decide)
  refine ⟨?binary, ?clz, ?ctz, ?popc, ?bswap⟩
  case binary =>
    simp only [List.forall_mem_cons]
    exact ⟨intOp_value s d (add_eq_w64 A B), intOp_value s d (sub_eq_w64 A B), intOp_value s d (and_eq_w64 A B),
      intOp_value s d (or_eq_w64 A B), intOp_value s d (xor_eq_w64 A B), intOp_value s d (andn_eq_w64 A B),
      intOp_value s d (shiftLeft_eq_w64 A k), intOp_value s d (ushiftRight_eq_w64 A k), intOp_value s d (sshiftRight_eq_ofInt A k),
      intOp_value s d (rotateLeft_eq_w64 A hk), intOp_value s d (rotateRight_eq_w64 A hk),
      intOp_value s d (ite_lt_toInt A B).symm, intOp_value s d (ite_lt_toNat A B).symm, intOp_value s d (ofInt_min A B).symm,
      intOp_value s d (ofInt_max A B).symm, intOp_value s d (w64_min A B).symm, intOp_value s d (w64_max A B).symm,
      intOp_value s d (addw_eq_ofInt A B), intOp_value s d (subw_eq_ofInt A B), List.forall_mem_nil _⟩
  case clz =>
    obtain ⟨hle, hlt, hge⟩ := clzGo_spec A 64
    rw [Nat.mod_eq_of_lt A.isLt] at hlt hge
    obtain ⟨t, ht, hx, hstep, -⟩ := intOp_step s d (w64 (clzGo A 64))
    exact ⟨t, _, ht, hx, hstep, hle, hlt, hge⟩
  case ctz =>
    obtain ⟨hle, hmod, hbit⟩ := ctzGo_spec A 0 64
    rw [pow_zero, Nat.div_one] at hmod hbit
    obtain ⟨t, ht, hx, hstep, -⟩ := intOp_step s d (w64 (ctzGo A 0 64))
    exact ⟨t, _, ht, hx, hstep, hle, hmod, hbit⟩
  case popc =>
    obtain ⟨t, ht, hx, hstep, -⟩ := intOp_step s d (w64 (popGo A 64))
    rw [popGo_eq_length] at hx
    exact ⟨t, ht, hstep, hx⟩
  case bswap =>
    obtain ⟨t, ht, hx, hstep, -⟩ := intOp_step s d (bswap64 A)
    exact ⟨t, _, ht, hx, hstep, fun i hi => bswap64_byte A hi⟩

/-! ### Words that enter flags (R125, R132) -/

/-- Flags enter FLAGS and the vote, and look at no x register. -/
theorem enterFlags_x (v : VC) (m : SMap Word64) (f : Nat) :
    ({ v with ctl.x := m } : VC).enterFlags f = { v.enterFlags f with ctl.x := m } := by
  unfold VC.enterFlags VC.voteFlagsOf VC.voteFlag
  dsimp only
  split_ifs <;> rfl

/-- A write of an x register differs from what was there in the x registers alone. -/
theorem setX_eq (s : State) (d : BitVec 6) (v : Word64) : setX s d v = { s with vc.ctl.x := (setX s d v).vc.ctl.x } := by
  unfold setX
  split <;> rfl

/-- What a word of CTL leaves behind that charges one event of class c, writes v to xd and enters the flags f. -/
def flagsWord (s : State) (c : EClass) (d : BitVec 6) (v : Word64) (f : Nat) : State :=
  retire (raiseFlags (setX (charge s c) d v) f)

section
variable (s : State) (c : EClass) (d : BitVec 6) (v : Word64) (f : Nat)

/-- The word changes the x registers as a write of xd does. -/
theorem flagsWord_eq : flagsWord s c d v f = { charge s c with vc := { s.vc.enterFlags f with
    ctl.x := (setX (charge s c) d v).vc.ctl.x, ctl.pc := s.vc.ctl.pc + 4, ctl.instret := (s.vc.ctl.instret + 1) % 2 ^ 48 } } := by
  rw [flagsWord, raiseFlags, setX_eq]
  dsimp only
  rw [enterFlags_x, charge_vc]
  have hpc : (s.vc.enterFlags f).ctl.pc = s.vc.ctl.pc ∧ (s.vc.enterFlags f).ctl.instret = s.vc.ctl.instret := by
    unfold VC.enterFlags VC.voteFlagsOf VC.voteFlag
    dsimp only
    split_ifs <;> exact ⟨rfl, rfl⟩
  rw [retire, retireTo]
  dsimp only
  rw [hpc.1, hpc.2]

theorem flagsWord_xr (r : BitVec 6) : xr (flagsWord s c d v f) r = xr (setX (charge s c) d v) r := by
  rw [flagsWord_eq]
  rfl

theorem flagsWord_step :
    let t := flagsWord s c d v f
    writesX s t d v ∧ ctlStepFlags s t c f 4 ∧ keepsBytes s t := by
  obtain ⟨hd, hr⟩ := writesX_setX s c d v 0
  refine ⟨⟨(flagsWord_xr ..).trans hd, fun r h => (flagsWord_xr ..).trans (hr r h)⟩, ?_, fun a => ?_, fun a => ?_⟩
  · unfold ctlStepFlags
    rw [flagsWord_eq]
  · rw [flagsWord_eq]
    simp [physByte]
  · have hchip : (s.vc.enterFlags f).chip = s.vc.chip := by
      unfold VC.enterFlags VC.voteFlagsOf VC.voteFlag
      dsimp only
      split_ifs <;> rfl
    rw [flagsWord_eq]
    exact congrArg (fun m => mget byteDefault m a) hchip

theorem flagsWord_flags : (flagsWord s c d v f).vc.ctl.flags = s.vc.ctl.flags ||| w64 f := by
  rw [flagsWord_eq]
  rfl

end

/-! ### Multiply and divide (R119) -/

theorem mul_eq_w64 (a b : Word64) : a * b = w64 (a.toNat * b.toNat % 2 ^ 64) := by
  apply BitVec.eq_of_toNat_eq
  simp [w64]

theorem w64_pat (v : Int) : w64 (pat 64 v) = BitVec.ofInt 64 v := by
  apply BitVec.eq_of_toNat_eq
  have hpos : (0 : Int) ≤ v % 2 ^ 64 := Int.emod_nonneg _ (by norm_num)
  have hlt : v % 2 ^ 64 < 2 ^ 64 := Int.emod_lt_of_pos _ (by norm_num)
  rw [w64, pat, BitVec.toNat_ofNat, BitVec.toNat_ofInt]
  refine Nat.mod_eq_of_lt ?_
  omega

theorem mulOp_value (s : State) (d : BitVec 6) {v w : Word64} (h : v = w) :
    ∃ t, mulOp s d v = .next t ∧ writesX s t d w ∧ ctlStep s t .mul 4 ∧ keepsBytes s t := by
  subst h
  rw [mulOp, retire_setX_charge]
  exact ⟨_, rfl, setX_step ..⟩

/-- A divide word writes its result and, in a borderline case, enters the integer-divide flag. -/
theorem divOp_step (s : State) (d : BitVec 6) {border : Bool} {p : Prop} [Decidable p] (hp : border = true ↔ p) (v : Word64) :
    ∃ t, divOp s d border v = .next t ∧ writesX s t d v ∧ ctlStepFlags s t .div (if p then 256 else 0) 4 ∧ keepsBytes s t := by
  have hf : (if border then fIz else 0) = if p then 256 else 0 := by simp only [hp, fIz]
  rw [← hf]
  exact ⟨_, rfl, flagsWord_step s .div d v (if border then fIz else 0)⟩

theorem divOverflow_iff (a b : Word64) : divOverflow a b = true ↔ a = BitVec.intMin 64 ∧ b = BitVec.allOnes 64 := by
  rw [divOverflow, Bool.and_eq_true, beq_iff_eq, beq_iff_eq]

theorem signed_border_iff (a b : Word64) :
    (b == 0 || divOverflow a b) = true ↔ b = 0 ∨ a = BitVec.intMin 64 ∧ b = BitVec.allOnes 64 := by
  rw [Bool.or_eq_true, beq_iff_eq, divOverflow_iff]

theorem toInt_sdiv_of_not_low {a b : Word64} (h : ¬(a = BitVec.intMin 64 ∧ b = BitVec.allOnes 64)) :
    (a.sdiv b).toInt = a.toInt.tdiv b.toInt :=
  BitVec.toInt_sdiv_of_ne_or_ne a b (not_and_or.mp h)

/-- Settles O3: the products by their value, the quotients and remainders by the model's cases, which are those of R119. -/
theorem multiplyDivideWords : Obligations.MultiplyDivideWords := by
  unfold Obligations.MultiplyDivideWords
  intro s d a b A B low
  refine ⟨?products, ?div, ?divn, ?rem, ?remn⟩
  case products =>
    simp only [List.forall_mem_cons]
    exact ⟨mulOp_value s d (mul_eq_w64 A B), mulOp_value s d (w64_pat _), mulOp_value s d rfl, List.forall_mem_nil _⟩
  case div =>
    obtain ⟨t, ht, hx, hstep, hbytes⟩ := divOp_step s d (signed_border_iff A B)
      (if B = 0 then BitVec.allOnes 64 else if divOverflow A B then A else A.sdiv B)
    refine ⟨t, _, ht, hx, hstep, hbytes, fun h0 => if_pos h0, fun hl => ?_, fun h0 hl => ?_⟩
    · have h0 : B ≠ 0 := by
        rw [hl.2]
        decide
      rw [if_neg h0, if_pos ((divOverflow_iff A B).mpr hl)]
      exact hl.1
    · rw [if_neg h0, if_neg (mt (divOverflow_iff A B).mp hl)]
      exact toInt_sdiv_of_not_low hl
  case divn =>
    obtain ⟨t, ht, hx, hstep, hbytes⟩ := divOp_step s d (beq_iff_eq (a := B) (b := 0)) (if B = 0 then BitVec.allOnes 64 else A / B)
    refine ⟨t, _, ht, hx, hstep, hbytes, fun h0 => if_pos h0, fun h0 => ?_⟩
    rw [if_neg h0]
    exact BitVec.toNat_udiv
  case rem =>
    obtain ⟨t, ht, hx, hstep, hbytes⟩ := divOp_step s d (signed_border_iff A B)
      (if B = 0 then A else if divOverflow A B then 0 else A.srem B)
    refine ⟨t, _, ht, hx, hstep, hbytes, fun h0 => if_pos h0, fun hl => ?_, fun h0 hl => ?_⟩
    · have h0 : B ≠ 0 := by
        rw [hl.2]
        decide
      rw [if_neg h0, if_pos ((divOverflow_iff A B).mpr hl)]
    · rw [if_neg h0, if_neg (mt (divOverflow_iff A B).mp hl), BitVec.toInt_srem, Int.tmod_def]
  case remn =>
    obtain ⟨t, ht, hx, hstep, hbytes⟩ := divOp_step s d (beq_iff_eq (a := B) (b := 0)) (if B = 0 then A else A % B)
    refine ⟨t, _, ht, hx, hstep, hbytes, fun h0 => if_pos h0, fun h0 => ?_⟩
    rw [if_neg h0]
    exact BitVec.toNat_umod

end Sys2Proof.Machine
end

section
/-! Branches and jumps (R123, R124). -/

namespace Sys2Proof.Machine

open Sys2Proof.Laws

/-! ### Targets as integers (R29, R35) -/

theorem ofInt_immJump (o : BitVec 26) (ext : Option (BitVec 24)) : BitVec.ofInt 64 (immJump o ext * 4) = off26 o ext := by
  cases ext <;> exact (ofInt_shiftLeft _ 2).symm

theorem ofInt_addressOf_add_immJump (s : State) (o : BitVec 26) (ext : Option (BitVec 24)) :
    BitVec.ofInt 64 ((addressOf s ext).toInt + 4 * immJump o ext) = wordAddr s ext + off26 o ext := by
  rw [mul_comm, BitVec.ofInt_add, BitVec.ofInt_toInt, ofInt_immJump, wordAddr_eq_addressOf]

theorem ofInt_addressOf_add_immValue (s : State) (o : BitVec 14) (ext : Option (BitVec 24)) :
    BitVec.ofInt 64 ((addressOf s ext).toInt + 4 * immValue o ext) = wordAddr s ext + (imm14 o ext <<< 2) := by
  rw [mul_comm, BitVec.ofInt_add, BitVec.ofInt_toInt, wordAddr_eq_addressOf, ← ofInt_immValue, ofInt_shiftLeft]
  rfl

/-! ### Where CTL goes on -/

theorem ctlJump_setX (s : State) (d : BitVec 6) (v pc : Word64) : ctlJump s (retireTo (setX (charge s .eint) d v) pc) .eint pc := by
  unfold ctlJump retireTo
  rw [setX_eq]
  simp

/-- A jump that writes no register. -/
theorem jump_step (s : State) (pc : Word64) :
    let t := retireTo (charge s .eint) pc
    keepsX s t ∧ keepsBytes s t ∧ ctlJump s t .eint pc :=
  ⟨fun r => by simp, keepsBytes_setX s .eint 0 0 pc, ctlJump_setX s 0 0 pc⟩

/-- A jump that links. -/
theorem link_step (s : State) (d : BitVec 6) (v pc : Word64) :
    let t := retireTo (setX (charge s .eint) d v) pc
    writesX s t d v ∧ keepsBytes s t ∧ ctlJump s t .eint pc :=
  ⟨writesX_setX .., keepsBytes_setX .., ctlJump_setX ..⟩

/-- A branch goes to its target where its condition holds, else on. -/
theorem branchOp_step (s : State) {c e : Bool} (h : c = e) (o : BitVec 14) (ext : Option (BitVec 24)) :
    ∃ t, branchOp s c o ext = .next t ∧ keepsX s t ∧ keepsBytes s t ∧
      ctlJump s t .eint (if e then BitVec.ofInt 64 ((addressOf s ext).toInt + 4 * immValue o ext)
                         else s.vc.ctl.pc + lengthOf ext) := by
  subst h
  rw [ofInt_addressOf_add_immValue]
  exact ⟨_, rfl, jump_step ..⟩

/-- The two low bits of a target are those of its number. -/
theorem low_bits_iff (v : Word64) : v.extractLsb' 0 2 ≠ 0 ↔ v.toNat % 4 ≠ 0 := by
  rw [Ne, ← BitVec.toNat_inj, BitVec.extractLsb'_toNat]
  simp

/-- Settles O4: each branch by its condition, the jumps by their target. -/
theorem controlFlow : Obligations.ControlFlow := by
  unfold Obligations.ControlFlow
  refine ⟨?branches, fun s d a o i ext => ⟨?j, ?jal, ?jalr⟩⟩
  case branches =>
    intro s a b o ext A B
    simp only [List.forall_mem_cons]
    refine ⟨branchOp_step s ?_ o ext, branchOp_step s ?_ o ext, branchOp_step s ?_ o ext, branchOp_step s ?_ o ext,
      branchOp_step s ?_ o ext, branchOp_step s ?_ o ext, List.forall_mem_nil _⟩
    · exact beq_eq_decide A B
    · simp [A, B, bne, beq_eq_decide]
    · rfl
    · simp [A, B, BitVec.slt, ← decide_not]
    · rfl
    · simp [A, B, BitVec.ult, ← decide_not]
  case j =>
    rw [ofInt_addressOf_add_immJump]
    exact ⟨_, rfl, jump_step ..⟩
  case jal =>
    rw [ofInt_addressOf_add_immJump, ← wordAddr_eq_addressOf]
    exact ⟨_, rfl, link_step ..⟩
  case jalr =>
    rw [ofInt_add_immValue, ← wordAddr_eq_addressOf]
    refine ⟨fun h => ⟨_, if_neg (mt (low_bits_iff _).mp (not_not_intro h)), link_step ..⟩,
      fun h => if_pos ((low_bits_iff _).mpr h)⟩

end Sys2Proof.Machine
end

section
/-! The data cache of CTL and memory behind it (R120, R254, R263): what writing a line back, dropping it and filling it leave of each
byte as memory holds it, as CTL reads it, and as it will stand in memory once all is written back. -/

namespace Sys2Proof.Machine

open Sys2Proof.Laws

/-! ### What an access leaves of the versioned store -/

/-- What of the versioned store an access of an unversioned page must not touch. -/
def versions (s : State) : SMap Block × List (Nat × Nat × List Byte) × SMap Nat := (s.part.blocks, s.part.drainQ, s.part.counts)

@[simp] theorem versions_chargeTo (s : State) (w : Option Nat) (c : EClass) (n : Nat) : versions (chargeTo s w c n) = versions s := by
  unfold chargeTo chargeFor
  split <;> rfl

@[simp] theorem versions_l2Access (s : State) (who : Option Nat) (moved line : Nat) (w : Bool) :
    versions (l2Access s who moved line w) = versions s := by
  have twice (u v : Option Nat) (a b : EClass) (m n : Nat) : versions (chargeTo (chargeTo s u a m) v b n) = versions s :=
    (versions_chargeTo ..).trans (versions_chargeTo ..)
  unfold l2Access
  dsimp only
  split
  · exact twice ..
  · split
    · exact versions_chargeTo ..
    · exact twice ..

@[simp] theorem versions_homeRead (s : State) (pa n : Nat) : versions (homeRead s pa n).1 = versions s := versions_l2Access ..

@[simp] theorem versions_walkGo (s : State) (table va n : Nat) : versions (walkGo s table va n).1 = versions s := by
  induction n generalizing s table with
  | zero =>
    rw [walkGo]
    dsimp only [homeRead]
    split <;> exact versions_l2Access ..
  | succ n ih =>
    rw [walkGo]
    dsimp only [homeRead]
    split
    · exact versions_l2Access ..
    · exact versions_l2Access ..
    · exact (ih _ _).trans (versions_l2Access ..)

@[simp] theorem walkGo_vc (s : State) (table va n : Nat) : (walkGo s table va n).1.vc = s.vc := by
  induction n generalizing s table with
  | zero =>
    rw [walkGo]
    dsimp only [homeRead]
    split <;> exact l2Access_vc ..
  | succ n ih =>
    rw [walkGo]
    dsimp only [homeRead]
    split
    · exact l2Access_vc ..
    · exact l2Access_vc ..
    · exact (ih _ _).trans (l2Access_vc ..)

theorem walk_keeps (s : State) (va : Nat) : (walk s va).1.vc = s.vc ∧ versions (walk s va).1 = versions s := by
  by_cases h : s.cp < fld s.part.ptroot 55 11 * 2048 + tableSize 4
  · rw [walk_low s va h]
    exact ⟨rfl, rfl⟩
  · rw [walk_go s va h]
    exact ⟨walkGo_vc .., versions_walkGo ..⟩

/-- A lookup touches neither the data cache nor the versioned store. -/
theorem lookup_keeps (s : State) (va : Nat) :
    (lookup s va).1.vc.dcache = s.vc.dcache ∧ (lookup s va).1.vc.fifo = s.vc.fifo ∧ versions (lookup s va).1 = versions s := by
  rcases hcore : s.vc.tlb.find? (fun e => e.hits va) with _ | e
  · rcases hclus : s.part.ctlb.find? (fun p => p.1 == clusterOf s && p.2.hits va) with _ | p
    · rcases hrun : walkOf s va with _ | w
      · obtain ⟨hvc, hver⟩ := walk_keeps s va
        rcases hw : walk s va with ⟨s1, d | e⟩
        · rw [hw] at hvc hver
          rw [lookup_bad hcore hclus hrun hw, ← hvc]
          exact ⟨rfl, rfl, hver⟩
        · rw [hw] at hvc hver
          rw [lookup_walk hcore hclus hrun hw, ← hvc]
          exact ⟨rfl, rfl, hver⟩
      · rw [lookup_shared hcore hclus hrun]
        split <;> exact ⟨rfl, rfl, rfl⟩
    · rw [lookup_cluster hcore hclus]
      exact ⟨rfl, rfl, rfl⟩
  · rw [lookup_core hcore]
    exact ⟨rfl, rfl, rfl⟩

@[simp] theorem versions_writeLine (s : State) (l : CLn) : versions (writeLine s l) = versions s := by
  unfold writeLine
  split
  · rfl
  · exact (foldl_keeps (f := versions) (g := fun t (p : Nat × Byte) => physWrite t p.1 [p.2]) (fun _ _ => rfl) _ _).trans
      (versions_l2Access ..)

@[simp] theorem versions_writeBack (s : State) (line : Nat) : versions (writeBack s line) = versions s := by
  unfold writeBack
  split
  · rfl
  · exact versions_writeLine ..

@[simp] theorem versions_flushFifo (s : State) : versions (flushFifo s) = versions s :=
  foldl_keeps (f := versions) versions_writeBack _ s

@[simp] theorem versions_evictFor (s : State) (line : Nat) : versions (evictFor s line) = versions s := by
  unfold evictFor
  dsimp only
  split
  · rfl
  · split
    · rfl
    · exact versions_writeBack ..

@[simp] theorem versions_dcLine (s : State) (line : Nat) : versions (dcLine s line).1 = versions s := by
  unfold dcLine
  split
  · rfl
  · dsimp only
    unfold dcFill
    split
    · simp
    · exact (versions_homeRead ..).trans (versions_evictFor ..)

@[simp] theorem versions_dcStore (s : State) (pa : Nat) (d : List Byte) : versions (dcStore s pa d) = versions s := by
  unfold dcStore
  dsimp only
  split
  · exact versions_l2Access ..
  · rw [← versions_dcLine s (pa / 128)]
    generalize (dcLine s (pa / 128)).1 = s1
    show versions (if _ then _ else _ : State) = _
    split
    · rfl
    · show versions (match s1.vc.fifo with
        | f :: _ => if 64 / s1.m ≤ s1.vc.fifo.length then writeBack s1 f else s1
        | [] => s1 : State) = _
      split
      · split
        · exact versions_writeBack ..
        · rfl
      · rfl

/-! ### What an access may change -/

/-- t is s but for the caches of CTL, the lookaside buffers, L2, memory and the charges on their way. -/
def cachesDiffer (s t : State) : Prop :=
  ∃ dcache fifo tlb mem l2 ctlb walks charges, t =
    { s with vc.dcache := dcache, vc.fifo := fifo, vc.tlb := tlb, part.mem := mem, part.l2 := l2, part.ctlb := ctlb,
             part.walks := walks, part.charges := charges }

/-- The state u with all of t that `memMask` hides. -/
def unmask (t u : State) : State :=
  { u with vc.tlb := t.vc.tlb, vc.dcache := t.vc.dcache, vc.fifo := t.vc.fifo, part.mem := t.part.mem, part.l2 := t.part.l2,
           part.ctlb := t.part.ctlb, part.walks := t.part.walks, part.charges := t.part.charges, part.blocks := t.part.blocks,
           part.drainQ := t.part.drainQ, part.counts := t.part.counts }

theorem cachesDiffer_of_masks {s t : State} (hm : memMask t = memMask s) (hv : versions t = versions s) : cachesDiffer s t := by
  obtain ⟨hblocks, hrest⟩ := Prod.mk.inj hv
  obtain ⟨hdrain, hcounts⟩ := Prod.mk.inj hrest
  have h : t = unmask t (memMask s) := hm ▸ (show t = unmask t (memMask t) from rfl)
  rw [unmask, hblocks, hdrain, hcounts] at h
  exact ⟨_, _, _, _, _, _, _, _, h⟩

theorem cachesDiffer_charge {s u : State} (h : cachesDiffer s u) (c : EClass) : cachesDiffer s (charge u c) := by
  obtain ⟨_, _, _, _, _, _, _, _, rfl⟩ := h
  unfold charge chargeTo chargeFor
  split <;> exact ⟨_, _, _, _, _, _, _, _, rfl⟩

/-- A word of CTL that accesses memory, writes xd and goes on. -/
theorem accessStep_setX {s u : State} (h : cachesDiffer s u) (d : BitVec 6) (v n : Word64) :
    accessStep s (retireTo (setX u d v) (s.vc.ctl.pc + n)) n := by
  obtain ⟨_, _, _, _, _, _, _, _, rfl⟩ := h
  rw [setX_eq]
  rfl

/-- A word of CTL that accesses memory and goes on. -/
theorem accessStep_retireTo {s u : State} (h : cachesDiffer s u) (n : Word64) : accessStep s (retireTo u (s.vc.ctl.pc + n)) n :=
  accessStep_setX h 0 0 n

/-! ### Bytes written back (R254, R263) -/

theorem mem_countUp {i lo n : Nat} : i ∈ countUp lo n ↔ lo ≤ i ∧ i < lo + n := by
  induction n generalizing lo with
  | zero =>
    rw [countUp]
    simp
  | succ n ih =>
    rw [countUp, List.mem_cons, ih]
    omega

theorem physByte_writes (s : State) (base : Nat) (f : Nat → Byte) (l : List Nat) (a : Nat) :
    physByte (l.foldl (fun t i => physWrite t (base + i) [f i]) s) a =
      if base ≤ a ∧ a - base ∈ l then f (a - base) else physByte s a := by
  induction l generalizing s with
  | nil => simp
  | cons i l ih =>
    rw [List.foldl_cons, ih, physByte_physWrite]
    by_cases hl : base ≤ a ∧ a - base ∈ l
    · rw [if_pos hl, if_pos ⟨hl.1, List.mem_cons_of_mem _ hl.2⟩]
    · rw [if_neg hl]
      by_cases hi : a = base + i
      · subst hi
        simp [listAt]
      · rw [if_neg (by simp; omega), if_neg]
        rintro ⟨hb, hm⟩
        rcases List.mem_cons.mp hm with h | h
        · omega
        · exact hl ⟨hb, h⟩

theorem physByte_l2Touch (s : State) (line : Nat) (w : Bool) (a : Nat) : physByte (l2Touch s line w) a = physByte s a :=
  congrArg (fun m => mget byteDefault m a) (l2Access_part_mem ..)

/-- Writing a line back puts its dirty bytes into memory. -/
theorem physByte_writeLine (s : State) (l : CLn) (a : Nat) :
    physByte (writeLine s l) a =
      if a / 128 = l.line ∧ l.dirty.getLsbD (a % 128) = true then listAt 0 l.data (a % 128) else physByte s a := by
  unfold writeLine
  split
  next h0 =>
    rw [h0]
    simp
  · rw [dirtyBytes, List.foldl_map, physByte_writes, physByte_l2Touch]
    have hiff : (l.line * 128 ≤ a ∧ a - l.line * 128 ∈ (countUp 0 128).filter (fun i => l.dirty.getLsbD i)) ↔
        a / 128 = l.line ∧ l.dirty.getLsbD (a % 128) = true := by
      rw [List.mem_filter, mem_countUp]
      constructor
      · rintro ⟨hle, hlt, hd⟩
        rw [show a - l.line * 128 = a % 128 by omega] at hd
        exact ⟨by omega, hd⟩
      · rintro ⟨hl, hd⟩
        rw [show a - l.line * 128 = a % 128 by omega]
        exact ⟨by omega, by omega, hd⟩
    by_cases h : a / 128 = l.line ∧ l.dirty.getLsbD (a % 128) = true
    · rw [if_pos (hiff.mpr h), if_pos h, show a - l.line * 128 = a % 128 by omega]
    · rw [if_neg (mt hiff.mp h), if_neg h]

/-- The line as it stands in the cache once it is written back, if it is line n. -/
def cleaned (n : Nat) (l : CLn) : CLn := if l.line = n then { l with dirty := 0 } else l

@[simp] theorem cleaned_line (n : Nat) (l : CLn) : (cleaned n l).line = l.line := by
  unfold cleaned
  split <;> rfl

@[simp] theorem cleaned_data (n : Nat) (l : CLn) : (cleaned n l).data = l.data := by
  unfold cleaned
  split <;> rfl

/-- The line of number n in a cache. -/
def lineIn (c : List CLn) (n : Nat) : Option CLn := c.find? (fun l => l.line == n)

theorem lineIn_line {c : List CLn} {n : Nat} {l : CLn} (h : lineIn c n = some l) : l.line = n := by
  simpa using List.find?_some h

theorem lineIn_map {c : List CLn} {f : CLn → CLn} (hf : ∀ l, (f l).line = l.line) (n : Nat) :
    lineIn (c.map f) n = (lineIn c n).map f := by
  have hcomp : (fun l : CLn => l.line == n) ∘ f = fun l => l.line == n := funext fun l => by simp [hf]
  rw [lineIn, List.find?_map, hcomp, lineIn]

theorem lineIn_drop_same (c : List CLn) (n : Nat) : lineIn (c.filter (fun l => l.line != n)) n = none := by
  simp [lineIn, List.find?_eq_none]

theorem lineIn_drop_ne (c : List CLn) {n k : Nat} (h : k ≠ n) : lineIn (c.filter (fun l => l.line != n)) k = lineIn c k := by
  rw [lineIn, List.find?_filter]
  refine congrArg (fun p => c.find? p) (funext fun l => ?_)
  by_cases hl : l.line = k <;> simp [hl, h]

theorem lineIn_cons_same (c : List CLn) {l : CLn} {n : Nat} (h : l.line = n) : lineIn (l :: c) n = some l :=
  List.find?_cons_of_pos (p := fun l : CLn => l.line == n) (beq_iff_eq.mpr h)

theorem lineIn_cons_ne (c : List CLn) {l : CLn} {n : Nat} (h : l.line ≠ n) : lineIn (l :: c) n = lineIn c n :=
  List.find?_cons_of_neg (p := fun l : CLn => l.line == n) (by simpa using h)

theorem cachedByte_eq (s : State) (a : Nat) : cachedByte s a = match lineIn s.vc.dcache (a / 128) with
    | some l => listAt 0 l.data (a % 128)
    | none => physByte s a := rfl

theorem homeByte_eq (s : State) (a : Nat) : homeByte s a = match lineIn s.vc.dcache (a / 128) with
    | some l => if l.dirty.getLsbD (a % 128) then listAt 0 l.data (a % 128) else physByte s a
    | none => physByte s a := rfl

theorem writeBack_none {s : State} {n : Nat} (h : lineIn s.vc.dcache n = none) :
    writeBack s n = { s with vc.fifo := s.vc.fifo.filter (fun x => x != n) } := by
  unfold lineIn at h
  unfold writeBack
  rw [h]

theorem writeBack_some {s : State} {n : Nat} {l : CLn} (h : lineIn s.vc.dcache n = some l) :
    writeBack s n = { writeLine s l with
      vc.dcache := (writeLine s l).vc.dcache.map (cleaned n), vc.fifo := (writeLine s l).vc.fifo.filter (fun x => x != n) } := by
  unfold lineIn at h
  unfold writeBack
  rw [h]
  rfl

theorem writeBack_dcache (s : State) (n : Nat) : (writeBack s n).vc.dcache = s.vc.dcache.map (cleaned n) := by
  cases h : lineIn s.vc.dcache n with
  | none =>
    rw [writeBack_none h]
    refine (List.map_id' _).symm.trans (List.map_congr_left fun l hl => ?_)
    have hne : l.line ≠ n := by simpa using List.find?_eq_none.mp h l hl
    exact (if_neg hne).symm
  | some l =>
    rw [writeBack_some h, writeLine_vc]

theorem writeBack_fifo (s : State) (n : Nat) : (writeBack s n).vc.fifo = s.vc.fifo.filter (fun x => x != n) := by
  cases h : lineIn s.vc.dcache n with
  | none => rw [writeBack_none h]
  | some l => rw [writeBack_some h, writeLine_vc]

theorem physByte_writeBack (s : State) (n a : Nat) :
    physByte (writeBack s n) a = if a / 128 = n then homeByte s a else physByte s a := by
  rw [homeByte_eq]
  cases h : lineIn s.vc.dcache n with
  | none =>
    rw [writeBack_none h]
    split
    next ha =>
      rw [ha, h]
      rfl
    · rfl
  | some l =>
    have hw := physByte_writeLine s l a
    rw [lineIn_line h] at hw
    rw [writeBack_some h]
    refine Eq.trans hw ?_
    by_cases ha : a / 128 = n
    · rw [if_pos ha, ha, h]
      simp
    · rw [if_neg ha, if_neg (fun hc => ha hc.1)]

/-! ### What a step of the cache leaves of a byte -/

/-- From s to t the byte at a stands, or will stand once all is written back, as it did: memory holds what it held or what was dirty, and
CTL reads what it read or what memory held. -/
def settles (s t : State) (a : Nat) : Prop :=
  homeByte t a = homeByte s a ∧ (physByte t a = physByte s a ∨ physByte t a = homeByte s a) ∧
    (cachedByte t a = cachedByte s a ∨ cachedByte t a = physByte s a)

theorem homeByte_cases (s : State) (a : Nat) : homeByte s a = cachedByte s a ∨ homeByte s a = physByte s a := by
  rw [homeByte_eq, cachedByte_eq]
  split
  · split
    · exact Or.inl rfl
    · exact Or.inr rfl
  · exact Or.inr rfl

theorem settles_trans {s t u : State} {a : Nat} (h : settles s t a) (k : settles t u a) : settles s u a := by
  obtain ⟨hhome, hphys, hcached⟩ := h
  obtain ⟨khome, kphys, kcached⟩ := k
  have hcases := homeByte_cases s a
  refine ⟨khome.trans hhome, ?_, ?_⟩
  · rcases kphys with k | k <;> rw [k]
    · exact hphys
    · exact Or.inr hhome
  · rcases kcached with k | k <;> rw [k]
    · exact hcached
    · rcases hphys with h | h <;> rw [h]
      · exact Or.inr rfl
      · exact hcases

/-- A step that leaves memory and the line of the byte as they are. -/
theorem settles_of_line {s t : State} {a : Nat} (hd : lineIn t.vc.dcache (a / 128) = lineIn s.vc.dcache (a / 128))
    (hm : t.part.mem = s.part.mem) : settles s t a := by
  have hphys : physByte t a = physByte s a := by rw [physByte, hm, physByte]
  have hhome : homeByte t a = homeByte s a := by rw [homeByte_eq, hd, hphys, homeByte_eq]
  have hcached : cachedByte t a = cachedByte s a := by rw [cachedByte_eq, hd, hphys, cachedByte_eq]
  exact ⟨hhome, Or.inl hphys, Or.inl hcached⟩

/-- A step that leaves the cache and memory as they are. -/
theorem settles_of_same {s t : State} (hd : t.vc.dcache = s.vc.dcache) (hm : t.part.mem = s.part.mem) (a : Nat) : settles s t a :=
  settles_of_line (by rw [hd]) hm

theorem settles_refl (s : State) (a : Nat) : settles s s a := settles_of_same rfl rfl a

theorem settles_homeRead (s : State) (pa n a : Nat) : settles s (homeRead s pa n).1 a :=
  settles_of_same (by rw [homeRead_vc]) (homeRead_part_mem ..) a

theorem settles_translate {s t : State} {va : Nat} {k : AccKind} {r : Nat × TlbE} (h : translate s va k = .ok t r) (a : Nat) :
    settles s t a :=
  settles_of_same ((translate_ok h).1 ▸ (lookup_keeps s va).1) (translate_part_mem h) a

/-- What was dirty has been written back. -/
theorem wroteBack_of_settles {s t : State} {a : Nat} (h : settles s t a) : wroteBack s t a := by
  obtain ⟨-, hphys, -⟩ := h
  rcases hphys with h | h
  · exact Or.inl h
  · rw [homeByte_eq] at h
    split at h
    next l hl =>
      split at h
      next hd => exact Or.inr ⟨l, List.mem_of_find?_eq_some hl, lineIn_line hl, hd, h⟩
      · exact Or.inl h
    · exact Or.inl h

theorem settles_writeBack (s : State) (n a : Nat) : settles s (writeBack s n) a := by
  have hphys := physByte_writeBack s n a
  have hline : lineIn (writeBack s n).vc.dcache (a / 128) = (lineIn s.vc.dcache (a / 128)).map (cleaned n) := by
    rw [writeBack_dcache, lineIn_map (cleaned_line n)]
  unfold settles
  simp only [homeByte_eq (writeBack s n), cachedByte_eq (writeBack s n), hline, hphys]
  rw [cachedByte_eq s, homeByte_eq s]
  cases h : lineIn s.vc.dcache (a / 128) with
  | none => simp
  | some l =>
    have hl := lineIn_line h
    by_cases ha : a / 128 = n
    · simp [cleaned, hl, ha]
    · simp [cleaned, hl, ha]

/-- A line that has been written back may go. -/
theorem settles_dropLine (s : State) (n a : Nat) : settles s (dropLine s n) a := by
  have h := settles_writeBack s n a
  have hphys : physByte (dropLine s n) a = physByte (writeBack s n) a := rfl
  have hdc : (dropLine s n).vc.dcache = (writeBack s n).vc.dcache.filter (fun l => l.line != n) := rfl
  by_cases ha : a / 128 = n
  · have hnone : lineIn (dropLine s n).vc.dcache (a / 128) = none := by rw [hdc, ha, lineIn_drop_same]
    have hmem : physByte (dropLine s n) a = homeByte s a := by rw [hphys, physByte_writeBack, if_pos ha]
    refine ⟨?_, Or.inr hmem, ?_⟩
    · rw [homeByte_eq, hnone, hmem]
    · rw [cachedByte_eq (dropLine s n), hnone, hmem]
      exact homeByte_cases s a
  · have hsame : lineIn (dropLine s n).vc.dcache (a / 128) = lineIn (writeBack s n).vc.dcache (a / 128) := by
      rw [hdc, lineIn_drop_ne _ ha]
    unfold settles at h ⊢
    rwa [homeByte_eq (dropLine s n), cachedByte_eq (dropLine s n), hsame, hphys, ← homeByte_eq, ← cachedByte_eq]

theorem settles_evictFor (s : State) (n a : Nat) : settles s (evictFor s n) a := by
  unfold evictFor
  dsimp only
  split
  · exact settles_refl s a
  · split
    · exact settles_refl s a
    · exact settles_dropLine ..

theorem settles_foldl {α : Type} {f : State → α → State} {a : Nat} (hf : ∀ t x, settles t (f t x) a) (l : List α) (s : State) :
    settles s (l.foldl f s) a := by
  induction l generalizing s with
  | nil => exact settles_refl s a
  | cons x l ih => exact settles_trans (hf s x) (ih _)

theorem settles_flushFifo (s : State) (a : Nat) : settles s (flushFifo s) a :=
  settles_foldl (fun t n => settles_writeBack t n a) _ s

theorem flushFifo_fifo (s : State) : (flushFifo s).vc.fifo = [] := by
  have h (l : List Nat) (s : State) : (l.foldl writeBack s).vc.fifo = s.vc.fifo.filter (fun x => !l.contains x) := by
    induction l generalizing s with
    | nil => simp
    | cons n l ih =>
      rw [List.foldl_cons, ih, writeBack_fifo, List.filter_filter]
      refine congrArg (fun p => s.vc.fifo.filter p) (funext fun x => ?_)
      rw [List.contains_cons, Bool.not_or, Bool.and_comm]
      rfl
  refine (h s.vc.fifo s).trans (List.filter_eq_nil_iff.mpr fun x hx => ?_)
  simpa using hx

/-! ### The line of an access (R254) -/

theorem dcLine_hit {s : State} {n : Nat} {l : CLn} (h : lineIn s.vc.dcache n = some l) :
    dcLine s n = ({ s with vc.dcache := l :: s.vc.dcache.filter (fun x => x.line != n) }, l) := by
  unfold lineIn at h
  unfold dcLine
  rw [h]

/-- The line as it comes from memory. -/
def freshLine (s : State) (n : Nat) : CLn :=
  ⟨n, physRead (evictFor s n) (n * 128) 128, 0, ctlFreeWay (evictFor s n) 0 n (evictFor s n).vc.dcache⟩

theorem freshLine_line (s : State) (n : Nat) : (freshLine s n).line = n := rfl

theorem dcLine_miss {s : State} {n : Nat} (h : lineIn s.vc.dcache n = none) :
    dcLine s n = (dcFill (homeRead (evictFor s n) (n * 128) 128).1 (freshLine s n), freshLine s n) := by
  unfold lineIn at h
  unfold dcLine
  rw [h]
  rfl

theorem lineIn_evictFor {s : State} {n : Nat} (h : lineIn s.vc.dcache n = none) : lineIn (evictFor s n).vc.dcache n = none := by
  unfold evictFor
  dsimp only
  split
  · exact h
  · split
    · exact h
    next v _ =>
      show lineIn ((writeBack s v.line).vc.dcache.filter (fun l => l.line != v.line)) n = none
      by_cases hv : n = v.line
      · rw [hv, lineIn_drop_same]
      · rw [lineIn_drop_ne _ hv, writeBack_dcache, lineIn_map (cleaned_line _), h, Option.map_none]

theorem dcFill_dcache {s : State} {l : CLn} (h : ctlWays s 0 l.line ≠ 0) : (dcFill s l).vc.dcache = l :: s.vc.dcache :=
  congrArg (fun t : State => t.vc.dcache) (if_neg h)

theorem dcFill_part (s : State) (l : CLn) : (dcFill s l).part = s.part := by
  unfold dcFill
  split <;> rfl

/-- A line that is no more than what memory holds may come. -/
theorem settles_dcFill {s : State} {l : CLn} (hd : l.dirty = 0) (hnone : lineIn s.vc.dcache l.line = none)
    (hdata : ∀ a, a / 128 = l.line → listAt 0 l.data (a % 128) = physByte s a) (a : Nat) : settles s (dcFill s l) a := by
  have hmem : (dcFill s l).part.mem = s.part.mem := by rw [dcFill_part]
  by_cases h : ctlWays s 0 l.line = 0
  · exact settles_of_same (congrArg (fun t : State => t.vc.dcache) (if_pos h)) hmem a
  by_cases ha : l.line = a / 128
  · have hphys : physByte (dcFill s l) a = physByte s a := by rw [physByte, hmem, physByte]
    rw [ha] at hnone
    unfold settles
    rw [homeByte_eq, homeByte_eq, cachedByte_eq, cachedByte_eq, dcFill_dcache h, lineIn_cons_same _ ha, hnone, hphys]
    simpa [hd] using hdata a ha.symm
  · exact settles_of_line (by rw [dcFill_dcache h, lineIn_cons_ne _ ha]) hmem

theorem listAt_freshLine (s : State) (a : Nat) : listAt 0 (freshLine s (a / 128)).data (a % 128) = physByte (evictFor s (a / 128)) a := by
  rw [freshLine, physRead, listAt_mgets _ _ _ _ _ _ (Nat.mod_lt _ (by norm_num)), Nat.div_add_mod']
  rfl

theorem settles_dcLine (s : State) (n a : Nat) : settles s (dcLine s n).1 a := by
  cases h : lineIn s.vc.dcache n with
  | some l =>
    rw [dcLine_hit h]
    have hline : lineIn (l :: s.vc.dcache.filter (fun x => x.line != n)) (a / 128) = lineIn s.vc.dcache (a / 128) := by
      by_cases ha : a / 128 = n
      · rw [ha, h, lineIn_cons_same _ (lineIn_line h)]
      · rw [lineIn_cons_ne _ (fun e => ha (e.symm.trans (lineIn_line h))), lineIn_drop_ne _ ha]
    exact settles_of_line hline rfl
  | none =>
    rw [dcLine_miss h]
    refine settles_trans (settles_evictFor s n a) (settles_trans (settles_homeRead _ (n * 128) 128 a)
      (settles_dcFill rfl ?_ (fun b hb => ?_) a))
    · rw [homeRead_vc]
      exact lineIn_evictFor h
    · have hb : b / 128 = n := hb
      rw [← hb, listAt_freshLine, physByte, physByte, homeRead_part_mem]

/-- The line of an access holds the bytes that CTL reads (R254). -/
theorem listAt_dcLine (s : State) (a : Nat) : listAt 0 (dcLine s (a / 128)).2.data (a % 128) = cachedByte s a := by
  cases h : lineIn s.vc.dcache (a / 128) with
  | some l => rw [dcLine_hit h, cachedByte_eq, h]
  | none =>
    obtain ⟨-, hphys, -⟩ := settles_evictFor s (a / 128) a
    rw [homeByte_eq, h, or_self] at hphys
    rw [dcLine_miss h, listAt_freshLine, hphys, cachedByte_eq, h]

theorem dcLine_line (s : State) (n : Nat) : (dcLine s n).2.line = n := by
  cases h : lineIn s.vc.dcache n with
  | some l => rw [dcLine_hit h, lineIn_line h]
  | none =>
    rw [dcLine_miss h]
    rfl

theorem ctlWays_memMask (s : State) (cache line : Nat) : ctlWays (memMask s) cache line = ctlWays s cache line := rfl

/-- A line that the cache can take stands there after an access (R254, R395). -/
theorem lineIn_dcLine {s : State} {n : Nat} (h : dcBypass s n = false) : lineIn (dcLine s n).1.vc.dcache n = some (dcLine s n).2 := by
  cases hl : lineIn s.vc.dcache n with
  | some l =>
    rw [dcLine_hit hl]
    exact lineIn_cons_same _ (lineIn_line hl)
  | none =>
    have hholds : holds s.vc.dcache n = false := by
      rw [holds, List.any_eq_false]
      exact List.find?_eq_none.mp hl
    have hways : ctlWays (homeRead (evictFor s n) (n * 128) 128).1 0 n = ctlWays s 0 n := by
      rw [← ctlWays_memMask, memMask_homeRead, memMask_evictFor, ctlWays_memMask]
    have hroom : ctlWays (homeRead (evictFor s n) (n * 128) 128).1 0 (freshLine s n).line ≠ 0 := by
      rw [freshLine_line]
      intro h0
      simp [dcBypass, hways.symm.trans h0, hholds] at h
    rw [dcLine_miss hl, dcFill_dcache hroom]
    exact lineIn_cons_same _ (freshLine_line s n)

end Sys2Proof.Machine
end

section
/-! Loads of CTL (R120, R121, R254): the checks of an access, and what a load from an unversioned page reads and leaves. -/

namespace Sys2Proof.Machine

open Sys2Proof.Laws

/-! ### The checks of an address (R121) -/

theorem addrCheck_of_range {va : Word64} (n : Nat) (h : 2 ^ 56 ≤ va.toNat) : addrCheck va n = some (4, 0) := by
  have hfld : fld va 63 56 ≠ 0 := by
    have hlt := va.isLt
    show va.toNat / 2 ^ 56 % 2 ^ 8 ≠ 0
    omega
  rw [addrCheck, if_pos hfld]

theorem addrCheck_of_misaligned {va : Word64} {n : Nat} (h : va.toNat < 2 ^ 56) (ha : va.toNat % n ≠ 0) :
    addrCheck va n = some (3, 0) := by
  rw [addrCheck, if_neg (not_not_intro (fld_of_lt h)), if_pos ha]

theorem addrCheck_ok {va : Word64} {n : Nat} (h : va.toNat < 2 ^ 56) (ha : va.toNat % n = 0) : addrCheck va n = none := by
  rw [addrCheck, if_neg (not_not_intro (fld_of_lt h)), if_neg (not_not_intro ha)]

/-- The bytes that a load or a store of CTL may have (R120). -/
def widths : List Nat := [1, 2, 4, 8]

/-- An aligned access of 1, 2, 4 or 8 bytes lies in one line. -/
theorem within_line {n pa : Nat} (hn : n ∈ widths) (h : pa % n = 0) : pa % 128 + n ≤ 128 := by
  simp only [widths, List.mem_cons, List.not_mem_nil, or_false] at hn
  rcases hn with rfl | rfl | rfl | rfl <;> omega

/-! ### What a translation leaves as it was -/

section
variable {s u : State} {va : Nat} {k : AccKind} {r : Nat × TlbE} (h : translate s va k = .ok u r)
include h

theorem granuleBusy_translate (pa : Nat) : granuleBusy u pa = granuleBusy s pa := by
  show granuleBusy (memMask u) pa = granuleBusy (memMask s) pa
  rw [memMask_translate h]

theorem memHazard_translate (a n : Nat) : memHazard u a n = memHazard s a n := by
  show memHazard (memMask u) a n = memHazard (memMask s) a n
  rw [memMask_translate h]

theorem matchedNow_translate : matchedNow u = matchedNow s := by
  show matchedNow (memMask u) = matchedNow (memMask s)
  rw [memMask_translate h]

theorem ctl_translate : u.vc.ctl = s.vc.ctl := by
  show (memMask u).vc.ctl = (memMask s).vc.ctl
  rw [memMask_translate h]

theorem xr_translate (d : BitVec 6) : xr u d = xr s d := by
  unfold xr
  rw [ctl_translate h]

theorem keepsBytes_translate : keepsBytes s u := by
  refine ⟨fun a => congrArg (fun m => mget byteDefault m a) (translate_part_mem h), fun a => congrArg (fun m => mget byteDefault m a) ?_⟩
  show (memMask u).vc.chip = (memMask s).vc.chip
  rw [memMask_translate h]

theorem not_poisoned_translate {pa : Nat} (hp : s.part.poison.contains (pa / 128) = false) : poisoned u pa = false := by
  have hl : u.part.poison = s.part.poison := by
    show (memMask u).part.poison = (memMask s).part.poison
    rw [memMask_translate h]
  rw [poisoned, hl, hp, Bool.false_and]

theorem dcache_translate : u.vc.dcache = s.vc.dcache := (translate_ok h).1 ▸ (lookup_keeps s va).1

theorem dcBypass_translate (n : Nat) : dcBypass u n = dcBypass s n := by
  rw [dcBypass, dcBypass, dcache_translate h, ← ctlWays_memMask u, memMask_translate h, ctlWays_memMask]

theorem versions_translate : versions u = versions s := (translate_ok h).1 ▸ (lookup_keeps s va).2.2

end

/-! ### Loads (R120, R121, R254) -/

/-- A load from an unversioned page that nothing holds up reads its line (R121, R254). -/
theorem ctlLoad_page {s u : State} {va : Word64} {n pa : Nat} {e : TlbE} (hr : va.toNat < 2 ^ 56) (ha : va.toNat % n = 0)
    (hm : inMap va.toNat = false) (ht : translate s va.toNat .read = .ok u (pa, e)) (hv : e.vb = false)
    (hg : granuleBusy s pa = false) (hp : s.part.poison.contains (pa / 128) = false) :
    ctlLoad s va n = .ok (dcLine u (pa / 128)).1 (leNat (cut (dcLine u (pa / 128)).2.data (pa % 128) n)) := by
  unfold ctlLoad
  rw [addrCheck_ok hr ha]
  simp [hm, ht, granuleBusy_translate ht, hg, hv, not_poisoned_translate ht hp]

theorem leNat_dcLine {s : State} {n pa : Nat} (h : pa % 128 + n ≤ 128) :
    leNat (cut (dcLine s (pa / 128)).2.data (pa % 128) n) = leNat ((List.range n).map (fun k => cachedByte s (pa + k))) := by
  rw [leNat_cut]
  refine congrArg leNat (List.map_congr_left fun k hk => ?_)
  have hk := List.mem_range.mp hk
  rw [show pa / 128 = (pa + k) / 128 by omega, show pa % 128 + k = (pa + k) % 128 by omega, listAt_dcLine]

theorem settles_cachedByte_of_same {s t : State} (hd : t.vc.dcache = s.vc.dcache) (hm : t.part.mem = s.part.mem) (a : Nat) :
    cachedByte t a = cachedByte s a := by
  rw [cachedByte, hd, physByte, hm]
  rfl

theorem signed_eq_bmod {w : Nat} (hw : 0 < w) (v : Nat) : signed w v = Int.bmod v (2 ^ w) := by
  obtain ⟨k, rfl⟩ : ∃ k, w = k + 1 := ⟨w - 1, by omega⟩
  have hhalf : (((2 ^ (k + 1) : Nat) : Int) + 1) / 2 = 2 ^ k := by
    push_cast
    rw [pow_succ]
    omega
  have hmod : (v : Int) % ((2 ^ (k + 1) : Nat) : Int) = ((v % 2 ^ (k + 1) : Nat) : Int) := (Int.natCast_mod ..).symm
  unfold signed Int.bmod
  rw [hhalf, hmod, Nat.add_sub_cancel]
  have hiff : (v % 2 ^ (k + 1) < 2 ^ k) ↔ (((v % 2 ^ (k + 1) : Nat) : Int) < 2 ^ k) := by
    rw [show (2 : Int) ^ k = ((2 ^ k : Nat) : Int) by norm_cast, Int.ofNat_lt]
  simp only [hiff]
  split <;> push_cast <;> rfl

/-- How a load of n bytes extends what it reads (R120). -/
def extendsTo (n : Nat) (sign : Bool) (f : Nat → Word64) : Prop :=
  ∀ v : Nat, f v = if sign then BitVec.ofInt 64 (Int.bmod v (2 ^ (8 * n))) else w64 v

theorem extends_signed {n w : Nat} (hn : 0 < n) (hw : w = 8 * n) : extendsTo n true (fun v => w64 (pat 64 (signed w v))) := by
  intro v
  show w64 (pat 64 (signed w v)) = _
  rw [w64_pat, signed_eq_bmod (by omega), hw]
  rfl

theorem extends_zero (n : Nat) : extendsTo n false w64 := fun _ => rfl

/-- What O8 says of a load of n bytes. -/
theorem loadOp_page {s : State} {d a : BitVec 6} {i : BitVec 14} {ext : Option (BitVec 24)} {pa n : Nat} {sign : Bool}
    {f : Nat → Word64} (hn : n ∈ widths) (hf : extendsTo n sign f) :
    let va := BitVec.ofInt 64 ((xr s a).toInt + immValue i ext)
    va.toNat < 2 ^ 56 → va.toNat % n = 0 → inMap va.toNat = false → placesAt s va.toNat .read pa false → pa % n = 0 →
    granuleBusy s pa = false → s.part.poison.contains (pa / 128) = false →
    let v := leNat ((List.range n).map (fun k => cachedByte s (pa + k)))
    ∃ t, loadOp s d a i ext n f = .next t ∧
      writesX s t d (if sign then BitVec.ofInt 64 (Int.bmod v (2 ^ (8 * n))) else w64 v) ∧
      accessStep s t (lengthOf ext) ∧ onlyWritesBack s t := by
  intro va hr ha hm ⟨u, e, ht, hvb⟩ hpa hg hp v
  have hload := ctlLoad_page hr ha hm ht hvb hg hp
  have hv : leNat (cut (dcLine u (pa / 128)).2.data (pa % 128) n) = v := by
    rw [leNat_dcLine (within_line hn hpa)]
    exact congrArg leNat (List.map_congr_left fun k _ =>
      settles_cachedByte_of_same (dcache_translate ht) (translate_part_mem ht) (pa + k))
  rw [hv] at hload
  have heff : effAddr s a i ext = va := (ofInt_add_immValue ..).symm
  have hmask : memMask (dcLine u (pa / 128)).1 = memMask s := (memMask_dcLine ..).trans (memMask_translate ht)
  have hctl : (dcLine u (pa / 128)).1.vc.ctl = s.vc.ctl := by
    show (memMask (dcLine u (pa / 128)).1).vc.ctl = (memMask s).vc.ctl
    rw [hmask]
  have hdiffer := cachesDiffer_of_masks hmask ((versions_dcLine ..).trans (versions_translate ht))
  refine ⟨retireTo (setX (charge (dcLine u (pa / 128)).1 .ld) d (f v)) (s.vc.ctl.pc + extLen ext), ?_, ?_,
    accessStep_setX (cachesDiffer_charge hdiffer .ld) d _ _, fun b => ?_⟩
  · unfold loadOp
    dsimp only
    rw [heff, hload]
    rfl
  · rw [← hf v]
    obtain ⟨h1, h2⟩ := writesX_setX (dcLine u (pa / 128)).1 .ld d (f v) (s.vc.ctl.pc + extLen ext)
    refine ⟨h1, fun r hne => (h2 r hne).trans ?_⟩
    unfold xr
    rw [hctl]
  · have h := wroteBack_of_settles (settles_trans (settles_translate ht b) (settles_dcLine u (pa / 128) b))
    rw [wroteBack, physByte, retireTo]
    simp only [setX_part, charge_part_mem]
    exact h

/-- Settles O8: the seven loads are loadOp of their width and extension. -/
theorem loadsFromPages : Obligations.LoadsFromPages := by
  unfold Obligations.LoadsFromPages
  intro s d a i ext pa va p hp
  simp only [List.mem_cons, List.not_mem_nil, or_false] at hp
  rcases hp with rfl | rfl | rfl | rfl | rfl | rfl | rfl
  · exact loadOp_page (by simp [widths]) (extends_signed one_pos rfl)
  · exact loadOp_page (by simp [widths]) (extends_zero 1)
  · exact loadOp_page (by simp [widths]) (extends_signed two_pos rfl)
  · exact loadOp_page (by simp [widths]) (extends_zero 2)
  · exact loadOp_page (by simp [widths]) (extends_signed four_pos rfl)
  · exact loadOp_page (by simp [widths]) (extends_zero 4)
  · exact loadOp_page (by simp [widths]) (extends_zero 8)

end Sys2Proof.Machine
end

section
/-! Stores of CTL to unversioned pages (R120, R121, R254, R263, R390, R395): what the data cache and memory hold afterwards. -/

namespace Sys2Proof.Machine

open Sys2Proof.Laws

/-! ### Bytes of a number and of a line -/

theorem listAt_leBytes {n k : Nat} (h : k < n) (v : Nat) : listAt 0 (leBytes v n) k = BitVec.ofNat 8 (v / 256 ^ k) := by
  induction n generalizing k v with
  | zero => omega
  | succ n ih =>
    cases k with
    | zero => rw [leBytes, listAt, pow_zero, Nat.div_one]
    | succ k => rw [leBytes, listAt_cons_succ, ih (Nat.lt_of_succ_lt_succ h), Nat.div_div_eq_div_mul, pow_succ']

/-- Byte k of a register, as a store sends it (R3, R120). -/
theorem listAt_leBytes_toNat {n k : Nat} (h : k < n) (v : Word64) : listAt 0 (leBytes v.toNat n) k = v.extractLsb' (8 * k) 8 := by
  rw [listAt_leBytes h]
  apply BitVec.eq_of_toNat_eq
  rw [BitVec.toNat_ofNat, BitVec.extractLsb'_toNat, Nat.shiftRight_eq_div_pow, pow_mul, show (2 : Nat) ^ 8 = 256 from rfl]

theorem listAt_map_countUp {α : Type} (z : α) (f : Nat → α) {lo n j : Nat} (h : j < n) :
    listAt z ((countUp lo n).map f) j = f (lo + j) := by
  induction n generalizing lo j with
  | zero => omega
  | succ n ih =>
    cases j with
    | zero => rfl
    | succ j => rw [countUp, List.map_cons, listAt_cons_succ, ih (Nat.lt_of_succ_lt_succ h), Nat.add_assoc, Nat.add_comm 1]

/-- A byte of a line that has been written from byte i on. -/
theorem listAt_splice (l d : List Byte) (i : Nat) {j : Nat} (h : j < 128) :
    listAt 0 (splice l i d) j = if i ≤ j ∧ j < i + d.length then listAt 0 d (j - i) else listAt 0 l j := by
  rw [splice, listAt_map_countUp 0 _ h, Nat.zero_add]

/-! ### A store into the data cache (R254, R263) -/

/-- The oldest line of a full FIFO of dirty lines is written back. -/
def fifoRoom (s : State) : State :=
  match s.vc.fifo with
  | f :: _ => if 64 / s.m ≤ s.vc.fifo.length then writeBack s f else s
  | [] => s

/-- The line enters the FIFO of dirty lines when it is not there. -/
def fifoEnter (s : State) (n : Nat) : State :=
  if s.vc.fifo.contains n then s else { fifoRoom s with vc.fifo := (fifoRoom s).vc.fifo ++ [n] }

/-- The line of an access as a store of d from byte i on leaves it. -/
def storedLine (l : CLn) (i : Nat) (d : List Byte) : CLn := ⟨l.line, splice l.data i d, l.dirty ||| maskBits i d.length, l.way⟩

theorem dcStore_bypass {s : State} {pa : Nat} (h : dcBypass s (pa / 128) = true) (d : List Byte) :
    dcStore s pa d = homeWrite s pa d := by
  unfold dcStore
  exact if_pos h

/-- A store goes into the line of the access, and its other lines stay as they are. -/
theorem dcStore_dcache {s : State} {pa : Nat} (h : dcBypass s (pa / 128) = false) (d : List Byte) :
    ∃ u, u = fifoEnter (dcLine s (pa / 128)).1 (pa / 128) ∧ (dcStore s pa d).part = u.part ∧
      (dcStore s pa d).vc.dcache = u.vc.dcache.map
        (fun x => if x.line = pa / 128 then storedLine (dcLine s (pa / 128)).2 (pa % 128) d else x) := by
  refine ⟨_, rfl, ?_⟩
  have hb : ¬dcBypass s (pa / 128) = true := by simp [h]
  have hl := dcLine_line s (pa / 128)
  unfold dcStore
  dsimp only
  rw [if_neg hb]
  unfold storedLine
  rw [hl]
  exact ⟨rfl, rfl⟩

theorem settles_fifoRoom (s : State) (a : Nat) : settles s (fifoRoom s) a := by
  unfold fifoRoom
  split
  · split
    · exact settles_writeBack ..
    · exact settles_refl s a
  · exact settles_refl s a

theorem settles_fifoEnter (s : State) (n a : Nat) : settles s (fifoEnter s n) a := by
  unfold fifoEnter
  split
  · exact settles_refl s a
  · exact settles_trans (settles_fifoRoom s a) (settles_of_same rfl rfl a)

/-- The line that enters is none of those that the FIFO held, so that it is not written back. -/
theorem lineIn_fifoEnter (s : State) (n : Nat) : (lineIn (fifoEnter s n).vc.dcache n).isSome = (lineIn s.vc.dcache n).isSome := by
  unfold fifoEnter
  split
  · rfl
  · show (lineIn (fifoRoom s).vc.dcache n).isSome = _
    unfold fifoRoom
    split
    · split
      · rw [writeBack_dcache, lineIn_map (cleaned_line _), Option.isSome_map]
      · rfl
    · rfl

/-! ### What a store leaves -/

/-- From s to t the bytes d have been stored from pa on: CTL reads them there, and of any other byte memory holds what it held or what was
dirty, and CTL reads what it read or what memory held. -/
def storesAt (s t : State) (pa : Nat) (d : List Byte) : Prop :=
  (∀ k, k < d.length → cachedByte t (pa + k) = listAt 0 d k) ∧
  ∀ b, b < pa ∨ pa + d.length ≤ b → wroteBack s t b ∧ (cachedByte t b = cachedByte s b ∨ cachedByte t b = physByte s b)

theorem storesAt_bypass {s : State} {pa : Nat} {d : List Byte} (h : dcBypass s (pa / 128) = true) (hd : pa % 128 + d.length ≤ 128) :
    storesAt s (dcStore s pa d) pa d := by
  have hphys (a : Nat) : physByte (dcStore s pa d) a = if pa ≤ a ∧ a < pa + d.length then listAt 0 d (a - pa) else physByte s a := by
    rw [dcStore_bypass h, homeWrite, physByte_physWrite, physByte_l2Touch]
  have hdc : (dcStore s pa d).vc.dcache = s.vc.dcache := by
    rw [dcStore_bypass h]
    exact congrArg (fun v => v.dcache) (l2Access_vc ..)
  have hnone : lineIn s.vc.dcache (pa / 128) = none := by
    have hholds : holds s.vc.dcache (pa / 128) = false := by
      have h2 := (Bool.and_eq_true_iff.mp h).2
      simpa using h2
    exact List.find?_eq_none.mpr (List.any_eq_false.mp hholds)
  refine ⟨fun k hk => ?_, fun b hb => ?_⟩
  · rw [cachedByte_eq, hdc, show (pa + k) / 128 = pa / 128 by omega, hnone, hphys, if_pos (by omega), Nat.add_sub_cancel_left]
  · have hsame : physByte (dcStore s pa d) b = physByte s b := by rw [hphys, if_neg (by omega)]
    refine ⟨Or.inl hsame, Or.inl ?_⟩
    rw [cachedByte_eq, hdc, hsame, cachedByte_eq]

theorem storesAt_cached {s : State} {pa : Nat} {d : List Byte} (h : dcBypass s (pa / 128) = false) (hd : pa % 128 + d.length ≤ 128) :
    storesAt s (dcStore s pa d) pa d := by
  obtain ⟨u, hu, hpart, hdc⟩ := dcStore_dcache h d
  have hsettles (a : Nat) : settles s u a :=
    hu ▸ settles_trans (settles_dcLine s (pa / 128) a) (settles_fifoEnter _ (pa / 128) a)
  have hkeeps (x : CLn) : (if x.line = pa / 128 then storedLine (dcLine s (pa / 128)).2 (pa % 128) d else x).line = x.line := by
    split
    next hx => exact (dcLine_line s (pa / 128)).trans hx.symm
    · rfl
  have hline : lineIn (dcStore s pa d).vc.dcache (pa / 128) = some (storedLine (dcLine s (pa / 128)).2 (pa % 128) d) := by
    have hsome : (lineIn u.vc.dcache (pa / 128)).isSome = true := by
      rw [hu, lineIn_fifoEnter, lineIn_dcLine h, Option.isSome_some]
    obtain ⟨x, hx⟩ := Option.isSome_iff_exists.mp hsome
    rw [hdc, lineIn_map hkeeps, hx, Option.map_some, if_pos (lineIn_line hx)]
  have hread {b : Nat} (hb : b / 128 = pa / 128) : cachedByte (dcStore s pa d) b =
      if pa ≤ b ∧ b < pa + d.length then listAt 0 d (b - pa) else cachedByte s b := by
    have hsame := listAt_dcLine s b
    rw [hb] at hsame
    rw [cachedByte_eq, hb, hline]
    show listAt 0 (splice (dcLine s (pa / 128)).2.data (pa % 128) d) (b % 128) = _
    rw [listAt_splice _ _ _ (Nat.mod_lt _ (by decide)), hsame, show b % 128 - pa % 128 = b - pa by omega]
    exact if_congr (by omega) rfl rfl
  refine ⟨fun k hk => ?_, fun b hb => ?_⟩
  · rw [hread (by omega), if_pos (by omega), Nat.add_sub_cancel_left]
  · have hmem : physByte (dcStore s pa d) b = physByte u b := by rw [physByte, hpart, physByte]
    have hwrote : wroteBack s (dcStore s pa d) b := by
      have hw := wroteBack_of_settles (hsettles b)
      rwa [wroteBack, ← hmem] at hw
    refine ⟨hwrote, ?_⟩
    by_cases hb' : b / 128 = pa / 128
    · exact Or.inl ((hread hb').trans (if_neg (by omega)))
    · have hother : lineIn (dcStore s pa d).vc.dcache (b / 128) = lineIn u.vc.dcache (b / 128) := by
        rw [hdc, lineIn_map hkeeps]
        cases hx : lineIn u.vc.dcache (b / 128) with
        | none => rfl
        | some x => rw [Option.map_some, if_neg (fun e => hb' ((lineIn_line hx).symm.trans e))]
      have hcached : cachedByte (dcStore s pa d) b = cachedByte u b := by rw [cachedByte_eq, hother, hmem, cachedByte_eq]
      obtain ⟨-, -, hc⟩ := hsettles b
      rwa [hcached]

theorem storesAt_dcStore (s : State) {pa : Nat} {d : List Byte} (hd : pa % 128 + d.length ≤ 128) : storesAt s (dcStore s pa d) pa d := by
  cases h : dcBypass s (pa / 128) with
  | true => exact storesAt_bypass h hd
  | false => exact storesAt_cached h hd

theorem storesAt_of_same {s u t : State} {pa : Nat} {d : List Byte} (hd : u.vc.dcache = s.vc.dcache) (hm : u.part.mem = s.part.mem)
    (h : storesAt u t pa d) : storesAt s t pa d := by
  have hphys (a : Nat) : physByte u a = physByte s a := by rw [physByte, hm, physByte]
  obtain ⟨hbytes, hrest⟩ := h
  refine ⟨hbytes, fun b hb => ?_⟩
  obtain ⟨hw, hc⟩ := hrest b hb
  rw [wroteBack, hphys, hd] at hw
  rw [settles_cachedByte_of_same hd hm, hphys] at hc
  exact ⟨hw, hc⟩

/-! ### Stores (R120, R121, R390) -/

/-- A store to an unversioned page that nothing forbids goes into the data cache, or waits for the Collie where the cache does not take
it (R254, R390, R395). -/
theorem ctlStore_page {s u : State} {va : Word64} {pa : Nat} {e : TlbE} {d : List Byte} (hr : va.toNat < 2 ^ 56)
    (ha : va.toNat % d.length = 0) (hm : inMap va.toNat = false) (ht : translate s va.toNat .write = .ok u (pa, e)) (hv : e.vb = false)
    (hh : memHazard s va.toNat d.length = false) (hp : s.part.poison.contains (pa / 128) = false) :
    ctlStore s va d = if dcBypass s (pa / 128) = true ∧ matchedNow s = false then .wait (awaitMatch u) else .ok (dcStore u pa d) () := by
  unfold ctlStore
  rw [addrCheck_ok hr ha]
  simp [hm, ht, memHazard_translate ht, hh, hv, not_poisoned_translate ht hp, dcBypass_translate ht, matchedNow_translate ht]

/-- What O10 says of a store of n bytes. -/
theorem storeOp_page {s : State} {x a : BitVec 6} {i : BitVec 14} {ext : Option (BitVec 24)} {pa n : Nat} (hn : n ∈ widths) :
    let va := BitVec.ofInt 64 ((xr s a).toInt + immValue i ext)
    va.toNat < 2 ^ 56 → va.toNat % n = 0 → inMap va.toNat = false → placesAt s va.toNat .write pa false → pa % n = 0 →
    memHazard s va.toNat n = false → s.part.poison.contains (pa / 128) = false →
    (dcBypass s (pa / 128) = true → matchedNow s = false →
      ∃ u, storeOp s x a i ext n = .next (awaitMatch u) ∧ keepsX s u ∧ keepsBytes s u ∧ u.vc.ctl = s.vc.ctl) ∧
    (dcBypass s (pa / 128) = false ∨ matchedNow s = true →
      ∃ t, storeOp s x a i ext n = .next t ∧ keepsX s t ∧ accessStep s t (lengthOf ext) ∧
        (∀ b, b < pa ∨ pa + n ≤ b → wroteBack s t b) ∧
        (∀ k, k < n → cachedByte t (pa + k) = (xr s x).extractLsb' (8 * k) 8) ∧
        ∀ b, b < pa ∨ pa + n ≤ b → cachedByte t b = cachedByte s b ∨ cachedByte t b = physByte s b) := by
  intro va hr ha hm ⟨u, e, ht, hvb⟩ hpa hh hp
  have hlen := length_leBytes (xr s x).toNat n
  have hstore := ctlStore_page (d := leBytes (xr s x).toNat n) hr (by rwa [hlen]) hm ht hvb (by rwa [hlen]) hp
  have heff : effAddr s a i ext = va := (ofInt_add_immValue ..).symm
  unfold storeOp
  dsimp only
  rw [heff, hstore]
  refine ⟨fun hb hc => ?_, fun hbc => ?_⟩
  · rw [if_pos ⟨hb, hc⟩]
    exact ⟨u, rfl, fun r => xr_translate ht r, keepsBytes_translate ht, ctl_translate ht⟩
  · have hno : ¬(dcBypass s (pa / 128) = true ∧ matchedNow s = false) := by
      rintro ⟨h1, h2⟩
      rw [h1, h2] at hbc
      simp at hbc
    have hmask : memMask (dcStore u pa (leBytes (xr s x).toNat n)) = memMask s := (memMask_dcStore ..).trans (memMask_translate ht)
    have hstores := storesAt_of_same (dcache_translate ht) (translate_part_mem ht)
      (storesAt_dcStore u (pa := pa) (d := leBytes (xr s x).toNat n) (by rw [hlen]; exact within_line hn hpa))
    have hdiffer := cachesDiffer_of_masks hmask ((versions_dcStore ..).trans (versions_translate ht))
    have hctl : (dcStore u pa (leBytes (xr s x).toNat n)).vc.ctl = s.vc.ctl := by
      show (memMask (dcStore u pa (leBytes (xr s x).toNat n))).vc.ctl = (memMask s).vc.ctl
      rw [hmask]
    generalize dcStore u pa (leBytes (xr s x).toNat n) = w at hstores hdiffer hctl
    obtain ⟨hbytes, hrest⟩ := hstores
    have hphys (b : Nat) : physByte (retireTo (charge w .st) (s.vc.ctl.pc + extLen ext)) b = physByte w b := by simp [physByte]
    have hcached (b : Nat) : cachedByte (retireTo (charge w .st) (s.vc.ctl.pc + extLen ext)) b = cachedByte w b :=
      settles_cachedByte_of_same (by simp) (by simp) b
    rw [hlen] at hbytes hrest
    rw [if_neg hno]
    refine ⟨_, rfl, fun r => ?_, accessStep_retireTo (cachesDiffer_charge hdiffer .st) _, fun b hb => ?_, fun k hk => ?_,
      fun b hb => ?_⟩
    · rw [xr_retireTo, xr_charge, xr, hctl, xr]
    · have hw := (hrest b hb).1
      rwa [wroteBack, ← hphys] at hw
    · rw [hcached, hbytes k hk, listAt_leBytes_toNat hk]
    · rw [hcached]
      exact (hrest b hb).2

/-- Settles O10: the four stores are storeOp of their width. That a store which the cache does not take waits in CTL is the model's
reading (log 7). -/
theorem storesToPages : Obligations.StoresToPages := by
  unfold Obligations.StoresToPages
  intro s x a i ext pa va p hp
  simp only [List.mem_cons, List.not_mem_nil, or_false] at hp
  rcases hp with rfl | rfl | rfl | rfl <;> exact storeOp_page (by simp [widths])

end Sys2Proof.Machine
end

section
/-! The faults of CTL loads and stores, in the order of their checks (R121, R168, R238, R248, R394). -/

namespace Sys2Proof.Machine

open Sys2Proof.Laws

/-! ### How a translation fails (R248, R394) -/

/-- What a walk that fails reports: a page fault, or an error of memory that hides an entry of the tables (R248, R394). -/
def walkCause (d : Nat × Nat) : Prop := d.1 = 5 ∨ (d.1 = 0x28 ∧ d.2 = 8)

theorem walkCause_of_pteRead {s : State} {level va pa : Nat} {b : List Byte} {d : Nat × Nat}
    (h : pteRead s level va pa b = .error d) : walkCause d := by
  unfold pteRead at h
  split at h
  · cases h
    exact Or.inr ⟨rfl, rfl⟩
  · split at h
    · cases h
      exact Or.inl rfl
    · cases h

theorem walkCause_of_walkGo {s : State} {table va n : Nat} {d : Nat × Nat} (h : (walkGo s table va n).2 = .error d) : walkCause d := by
  induction n generalizing s table with
  | zero =>
    rw [walkGo] at h
    dsimp only [homeRead] at h
    split at h
    · next hp =>
      cases h
      exact walkCause_of_pteRead hp
    · cases h
    · cases h
      exact Or.inl rfl
  | succ n ih =>
    rw [walkGo] at h
    dsimp only [homeRead] at h
    split at h
    · next hp =>
      cases h
      exact walkCause_of_pteRead hp
    · cases h
    · exact ih h

theorem walkCause_of_walk {s : State} {va : Nat} {d : Nat × Nat} (h : (walk s va).2 = .error d) : walkCause d := by
  by_cases hlow : s.cp < fld s.part.ptroot 55 11 * 2048 + tableSize 4
  · rw [walk_low s va hlow] at h
    cases h
    exact Or.inl rfl
  · rw [walk_go s va hlow] at h
    exact walkCause_of_walkGo h

theorem walkOf_of_no_walks {s : State} (h : s.part.walks = []) (va : Nat) : walkOf s va = none := by
  rw [walkOf, h]
  rfl

/-- Where no walk of the same beat is shared, a lookup fails as its own walk does (R250). -/
theorem walkCause_of_lookup {s : State} {va : Nat} {d : Nat × Nat} (hw : s.part.walks = []) (h : (lookup s va).2 = .error d) :
    walkCause d := by
  have hrun := walkOf_of_no_walks hw va
  rcases hcore : s.vc.tlb.find? (fun e => e.hits va) with _ | e
  · rcases hclus : s.part.ctlb.find? (fun p => p.1 == clusterOf s && p.2.hits va) with _ | p
    · rcases hwalk : walk s va with ⟨s1, c | e⟩
      · rw [lookup_bad hcore hclus hrun hwalk] at h
        cases h
        exact walkCause_of_walk (s := s) (va := va) (by rw [hwalk])
      · rw [lookup_walk hcore hclus hrun hwalk] at h
        cases h
    · rw [lookup_cluster hcore hclus] at h
      cases h
  · rw [lookup_core hcore] at h
    cases h

theorem translate_fault_cause {s u : State} {va c f : Nat} {k : AccKind} (h : translate s va k = .fault u c f)
    (hw : s.part.walks = []) : c = 0x05 ∨ (c = 0x28 ∧ f = 8) := by
  unfold translate at h
  split at h
  next hl =>
    cases h
    exact walkCause_of_lookup hw (congrArg Prod.snd hl)
  · split at h
    · cases h
      exact Or.inl rfl
    · cases h

/-! ### Faults of loads and stores (R121) -/

/-- How an access of n bytes at va can fault: out of range, misaligned, at the on-chip map, in its translation, or, for a store, over the
source of a copy in flight (R121, R168, R238, R248). It answers o, and brings `data` when it is a store. -/
def faultsInOrder (s : State) (va : Word64) (n : Nat) (load : Bool) (data : Option (List Byte)) (o : Out) : Prop :=
  (2 ^ 56 ≤ va.toNat → o = ctlFault s 0x04 0 va) ∧
  (va.toNat < 2 ^ 56 → va.toNat % n ≠ 0 → o = ctlFault s 0x03 0 va) ∧
  (va.toNat < 2 ^ 56 → va.toNat % n = 0 →
    (∀ f, inMap va.toNat = true → mapCheck s va.toNat n data = .error f → o = ctlFault s 0x06 f va) ∧
    (∀ u c f, inMap va.toNat = false → translate s va.toNat (if load then .read else .write) = .fault u c f →
      o = ctlFault u c f (if addrCause c then va else 0) ∧ (s.part.walks = [] → c = 0x05 ∨ (c = 0x28 ∧ f = 8))) ∧
    (load = false → ∀ u x, inMap va.toNat = false → translate s va.toNat .write = .ok u x →
      memHazard s va.toNat n = true → o = ctlFault u 0x1A 0 va))

theorem effAddr_eq (s : State) (a : BitVec 6) (i : BitVec 14) (ext : Option (BitVec 24)) :
    effAddr s a i ext = BitVec.ofInt 64 ((xr s a).toInt + immValue i ext) := (ofInt_add_immValue ..).symm

theorem loadOp_faults (s : State) (d a : BitVec 6) (i : BitVec 14) (ext : Option (BitVec 24)) (n : Nat) (f : Nat → Word64) :
    faultsInOrder s (BitVec.ofInt 64 ((xr s a).toInt + immValue i ext)) n true none (loadOp s d a i ext n f) := by
  unfold loadOp
  dsimp only
  rw [effAddr_eq]
  generalize BitVec.ofInt 64 ((xr s a).toInt + immValue i ext) = va
  unfold ctlLoad
  refine ⟨fun hr => ?range, fun hr ha => ?aligned, fun hr ha => ⟨fun x hm hc => ?map,
    fun u c x hm ht => ⟨?translation, translate_fault_cause ht⟩, fun h => absurd h Bool.true_eq_false.mp⟩⟩
  case range =>
    rw [addrCheck_of_range n hr]
    rfl
  case aligned =>
    rw [addrCheck_of_misaligned hr ha]
    rfl
  case map =>
    rw [addrCheck_ok hr ha]
    simp only [hm, hc, if_true]
    rfl
  case translation =>
    rw [if_pos rfl] at ht
    rw [addrCheck_ok hr ha]
    simp only [hm, ht, Bool.false_eq_true, if_false]
    rfl

theorem storeOp_faults (s : State) (x a : BitVec 6) (i : BitVec 14) (ext : Option (BitVec 24)) (n : Nat) :
    faultsInOrder s (BitVec.ofInt 64 ((xr s a).toInt + immValue i ext)) n false (some (leBytes (xr s x).toNat n))
      (storeOp s x a i ext n) := by
  have hlen := length_leBytes (xr s x).toNat n
  unfold storeOp
  dsimp only
  rw [effAddr_eq]
  generalize BitVec.ofInt 64 ((xr s a).toInt + immValue i ext) = va
  generalize leBytes (xr s x).toNat n = b at hlen
  subst hlen
  unfold ctlStore
  refine ⟨fun hr => ?range, fun hr ha => ?aligned, fun hr ha => ⟨fun x hm hc => ?map,
    fun u c x hm ht => ⟨?translation, translate_fault_cause ht⟩, fun _ u r hm ht hh => ?hazard⟩⟩
  case range =>
    rw [addrCheck_of_range b.length hr]
    rfl
  case aligned =>
    rw [addrCheck_of_misaligned hr ha]
    rfl
  case map =>
    rw [addrCheck_ok hr ha]
    simp only [hm, hc, if_true]
    rfl
  case translation =>
    rw [if_neg Bool.false_ne_true] at ht
    rw [addrCheck_ok hr ha]
    simp only [hm, ht, Bool.false_eq_true, if_false]
    rfl
  case hazard =>
    rw [addrCheck_ok hr ha]
    simp only [hm, ht, memHazard_translate ht, hh, Bool.false_eq_true, if_false, if_true]
    rfl

/-- Settles O11: the seven loads are loadOp and the four stores storeOp, whose checks fault in the order of R121. -/
theorem accessFaults : Obligations.AccessFaults := by
  unfold Obligations.AccessFaults
  intro s d a i ext va p hp
  simp only [List.mem_cons, List.not_mem_nil, or_false] at hp
  rcases hp with rfl | rfl | rfl | rfl | rfl | rfl | rfl | rfl | rfl | rfl | rfl
  iterate 7 exact loadOp_faults ..
  iterate 4 exact storeOp_faults ..

end Sys2Proof.Machine
end

section
/-! CTL loads and stores of the on-chip map (R120, R153, R166 to R169). -/

namespace Sys2Proof.Machine

open Sys2Proof.Laws

/-! ### A load of the map -/

/-- A load of the map that passes its checks waits for no write of its own, and takes what its read gives (R121, R168, R169). -/
theorem ctlLoad_map {s : State} {va : Word64} {n v off : Nat} {w : MapWhat} {u : VC} (hr : va.toNat < 2 ^ 56)
    (ha : va.toNat % n = 0) (hm : inMap va.toNat = true) (hc : mapCheck s va.toNat n none = .ok (v, off, w))
    (hb : mapBusy s va.toNat = false) (hu : getVC s v = some u) :
    ctlLoad s va n = match mapRead s u off n w with
      | (s1, some d) => .ok s1 (leNat d)
      | (s1, none) => .wait s1 := by
  unfold ctlLoad
  rw [addrCheck_ok hr ha]
  simp only [hm, hc, hb, hu, if_true, Bool.false_eq_true, if_false] <;> rfl

theorem id_of_getVC {s : State} {v : Nat} {u : VC} (h : getVC s v = some u) : u.id = v := by
  simpa using List.find?_some h

/-- A read of registers and blocks takes no bank; one of the scratchpad takes its bank where it is free (R153). -/
theorem mapRead_registers {s : State} {u : VC} {off n : Nat} {w : MapWhat} (h : ¬(w = .bytes ∧ off < tileOff)) :
    mapRead s u off n w = (s, some (mapValue u off n w)) := if_neg h

theorem mapRead_claimed {s : State} {u : VC} {off n : Nat} {w : MapWhat} {cl : List Claim} (h : w = .bytes ∧ off < tileOff)
    (hcl : claim u.claims off true (ctlOwner + s.vc.id) = some cl) :
    mapRead s u off n w = (updVC s u.id (fun y => { y with claims := cl }), some (mapValue u off n w)) := by
  unfold mapRead
  rw [if_pos h, hcl]

theorem mapRead_lost {s : State} {u : VC} {off n : Nat} {w : MapWhat} (h : w = .bytes ∧ off < tileOff)
    (hcl : claim u.claims off true (ctlOwner + s.vc.id) = none) :
    mapRead s u off n w = (updVC s u.id (fun y => loseBanks y (if u.id = s.vc.id then 7 else 0) [bankOf off]), none) := by
  unfold mapRead
  rw [if_pos h, hcl]

/-- A change of a virtual core that leaves its registers and its share leaves them of the one in focus. -/
theorem updVC_keeps {s : State} {v : Nat} {f : VC → VC} (hctl : ∀ y, (f y).ctl = y.ctl) (hchip : ∀ y, (f y).chip = y.chip) :
    (updVC s v f).vc.ctl = s.vc.ctl ∧ keepsBytes s (updVC s v f) := by
  unfold updVC
  split
  · exact ⟨hctl _, fun a => rfl, fun a => congrArg (fun m => mget byteDefault m a) (hchip _)⟩
  · exact ⟨rfl, fun a => rfl, fun a => rfl⟩

/-- What a load of the map leaves behind once it has read x, the banks having been asked for by then. -/
def mapLoaded (s s1 t : State) (d : BitVec 6) (n : Nat) (sign : Bool) (ext : Option (BitVec 24)) (x : Nat) : Prop :=
  writesX s t d (if sign then BitVec.ofInt 64 (Int.bmod x (2 ^ (8 * n))) else w64 x) ∧ ctlStep s1 t .ld (lengthOf ext) ∧ keepsBytes s t

theorem mapLoaded_of {s s1 : State} {n : Nat} {sign : Bool} {f : Nat → Word64} (hf : extendsTo n sign f) (d : BitVec 6)
    (ext : Option (BitVec 24)) (x : Nat) (hctl : s1.vc.ctl = s.vc.ctl) (hbytes : keepsBytes s s1) :
    mapLoaded s s1 (retireTo (setX (charge s1 .ld) d (f x)) (s.vc.ctl.pc + extLen ext)) d n sign ext x := by
  have hxr (r : BitVec 6) : xr s1 r = xr s r := by rw [xr, hctl, xr]
  obtain ⟨⟨hd, hr⟩, hstep, hkeep⟩ := setX_step s1 .ld d (f x) (extLen ext)
  rw [hctl] at hd hr hstep hkeep
  refine ⟨⟨?_, fun r h => (hr r h).trans (hxr r)⟩, hstep, fun a => (hkeep.1 a).trans (hbytes.1 a), fun a => (hkeep.2 a).trans (hbytes.2 a)⟩
  rw [hd, hf x]

/-- What O9 says of a load of n bytes. -/
theorem loadOp_map {s : State} {d a : BitVec 6} {i : BitVec 14} {ext : Option (BitVec 24)} {v off n : Nat} {w : MapWhat} {u : VC}
    {sign : Bool} {f : Nat → Word64} (hf : extendsTo n sign f) :
    let va := BitVec.ofInt 64 ((xr s a).toInt + immValue i ext)
    va.toNat < 2 ^ 56 → va.toNat % n = 0 → inMap va.toNat = true → mapCheck s va.toNat n none = .ok (v, off, w) →
    mapBusy s va.toNat = false → getVC s v = some u →
    let x := leNat (mapValue u off n w)
    let got (s1 : State) : Prop := ∃ t, loadOp s d a i ext n f = .next t ∧ mapLoaded s s1 t d n sign ext x
    (¬(w = .bytes ∧ off < tileOff) → got s) ∧
    (w = .bytes → off < tileOff →
      (∀ cl, claim u.claims off true (ctlOwner + s.vc.id) = some cl → got (updVC s v (fun y => { y with claims := cl }))) ∧
      (claim u.claims off true (ctlOwner + s.vc.id) = none →
        ∃ t, loadOp s d a i ext n f = .next t ∧ keepsX s t ∧ keepsBytes s t ∧ t.vc.ctl = s.vc.ctl)) := by
  intro va hr ha hm hc hb hu x got
  obtain rfl := id_of_getVC hu
  have hload := ctlLoad_map hr ha hm hc hb hu
  have hop : loadOp s d a i ext n f =
      memThen s va (ctlLoad s va n) (fun t v => .next (retireTo (setX (charge t .ld) d (f v)) (s.vc.ctl.pc + extLen ext))) := by
    unfold loadOp
    dsimp only
    rw [effAddr_eq]
  refine ⟨fun h => ?registers, fun hw ho => ⟨fun cl hcl => ?claimed, fun hcl => ?lost⟩⟩
  case registers =>
    rw [mapRead_registers h] at hload
    exact ⟨_, by rw [hop, hload]; rfl, mapLoaded_of hf d ext x rfl ⟨fun _ => rfl, fun _ => rfl⟩⟩
  case claimed =>
    obtain ⟨hctl, hbytes⟩ := updVC_keeps (s := s) (v := u.id) (f := fun y => { y with claims := cl }) (fun _ => rfl) (fun _ => rfl)
    rw [mapRead_claimed ⟨hw, ho⟩ hcl] at hload
    exact ⟨_, by rw [hop, hload]; rfl, mapLoaded_of hf d ext x hctl hbytes⟩
  case lost =>
    obtain ⟨hctl, hbytes⟩ := updVC_keeps (s := s) (v := u.id)
      (f := fun y => loseBanks y (if u.id = s.vc.id then 7 else 0) [bankOf off]) (fun _ => rfl) (fun _ => rfl)
    rw [mapRead_lost ⟨hw, ho⟩ hcl] at hload
    exact ⟨_, by rw [hop, hload]; rfl, fun r => by rw [xr, hctl, xr], hbytes, hctl⟩

/-! ### A store of the map -/

/-- A store of the map is on its way when CTL goes on (R169). -/
theorem ctlStore_map {s : State} {va : Word64} {d : List Byte} {v off : Nat} {w : MapWhat} (hr : va.toNat < 2 ^ 56)
    (ha : va.toNat % d.length = 0) (hm : inMap va.toNat = true) (hc : mapCheck s va.toNat d.length (some d) = .ok (v, off, w))
    (hh : ¬(v = s.vc.id ∧ w = .bytes ∧ off < s.share ∧ spHazard s.vc off (off + d.length) = true)) :
    ctlStore s va d = .ok { s with launch.maps := s.launch.maps ++
      [{ src := s.vc.id, dst := v, off := off, data := d, due := s.vc.now + 4, seqS := none, piece := 0 }] } () := by
  unfold ctlStore
  rw [addrCheck_ok hr ha]
  simp only [hm, hc, hh, if_true, if_false]

/-- A charge looks at nothing of the accesses on their way. -/
theorem charge_maps (s : State) (c : EClass) (l : List MapAcc) :
    charge { s with launch.maps := l } c = { charge s c with launch.maps := l } := by
  have hcoef : coef { s with launch.maps := l } c = coef s c := rfl
  unfold charge chargeTo chargeFor
  rw [hcoef]
  by_cases h : coef s c * 1 = 0
  · rw [if_pos h, if_pos h]
  · rw [if_neg h, if_neg h]
    rfl

/-- What O9 says of a store of n bytes. -/
theorem storeOp_map {s : State} {x a : BitVec 6} {i : BitVec 14} {ext : Option (BitVec 24)} {v off n : Nat} {w : MapWhat} :
    let va := BitVec.ofInt 64 ((xr s a).toInt + immValue i ext)
    let b := leBytes (xr s x).toNat n
    va.toNat < 2 ^ 56 → va.toNat % n = 0 → inMap va.toNat = true → mapCheck s va.toNat n (some b) = .ok (v, off, w) →
    ¬(v = s.vc.id ∧ w = .bytes ∧ off < s.share ∧ spHazard s.vc off (off + n) = true) →
    ∃ t, storeOp s x a i ext n = .next t ∧ keepsX s t ∧ keepsBytes s t ∧
      t = { charge s .st with
        vc.ctl.pc := s.vc.ctl.pc + lengthOf ext, vc.ctl.instret := (s.vc.ctl.instret + 1) % 2 ^ 48,
        launch.maps := s.launch.maps ++
          [{ src := s.vc.id, dst := v, off := off, data := b, due := s.vc.now + 4, seqS := none, piece := 0 }] } := by
  intro va b hr ha hm hc hh
  have hlen : b.length = n := length_leBytes ..
  have hstore := ctlStore_map (d := b) hr (by rwa [hlen]) hm (by rwa [hlen]) (by rwa [hlen])
  have hop : storeOp s x a i ext n =
      memThen s va (ctlStore s va b) (fun t _ => .next (retireTo (charge t .st) (s.vc.ctl.pc + extLen ext))) := by
    unfold storeOp
    dsimp only
    rw [effAddr_eq]
  refine ⟨_, by rw [hop, hstore]; rfl, fun r => by simp [xr], ⟨fun a => by simp [physByte], fun a => by simp⟩, ?_⟩
  rw [charge_maps, retireTo]
  simp only [charge_vc]
  rfl

/-- Settles O9: the loads by what their read of the map gives, the stores by what is on its way. When a store lands is the model's choice
(log 7). -/
theorem mapAccesses : Obligations.MapAccesses := by
  unfold Obligations.MapAccesses
  refine ⟨fun s d a i ext v off w u => ?loads, fun s x a i ext v off w => ?stores⟩
  case loads =>
    intro va p hp
    simp only [List.mem_cons, List.not_mem_nil, or_false] at hp
    rcases hp with rfl | rfl | rfl | rfl | rfl | rfl | rfl
    · exact loadOp_map (extends_signed one_pos rfl)
    · exact loadOp_map (extends_zero 1)
    · exact loadOp_map (extends_signed two_pos rfl)
    · exact loadOp_map (extends_zero 2)
    · exact loadOp_map (extends_signed four_pos rfl)
    · exact loadOp_map (extends_zero 4)
    · exact loadOp_map (extends_zero 8)
  case stores =>
    intro va p hp
    simp only [List.mem_cons, List.not_mem_nil, or_false] at hp
    rcases hp with rfl | rfl | rfl | rfl <;> exact storeOp_map

end Sys2Proof.Machine
end

section
/-! System words and moves of CTL (R134 to R138, R278, R390). -/

namespace Sys2Proof.Machine

open Sys2Proof.Laws

/-! ### halt, fence and ifb -/

/-- A charge looks at nothing of a virtual core but its number. -/
theorem charge_vc_of_id (s : State) (v : VC) (hv : v.id = s.vc.id) (c : EClass) : charge { s with vc := v } c = { charge s c with vc := v } := by
  have hcoef : coef { s with vc := v } c = coef s c := rfl
  have htag : launchTag { s with vc := v } = launchTag s := rfl
  unfold charge chargeTo chargeFor
  rw [hcoef, htag, hv]
  by_cases h : coef s c * 1 = 0
  · rw [if_pos h, if_pos h]
  · rw [if_neg h, if_neg h]

theorem execHalt_eq (s : State) {v : VC} (hv : (if s.vc.stepOpen then s.vc.voteFlag 11 else s.vc) = v) (hid : v.id = s.vc.id)
    (hctl : v.ctl = s.vc.ctl) :
    execHalt s = .next { charge { s with vc := { v with run := .halted } } .sys with
      vc.ctl.pc := s.vc.ctl.pc + 4, vc.ctl.instret := (s.vc.ctl.instret + 1) % 2 ^ 48 } := by
  rw [charge_vc_of_id s { v with run := .halted } hid, execHalt, hv, retire, retireTo]
  dsimp only
  rw [hctl]

theorem stepOpen_iff (v : VC) : v.stepOpen = true ↔ v.tx.state = 1 := beq_iff_eq

theorem ctlPending_iff (s : State) :
    ctlPending s = true ↔ s.vc.atomics ≠ [] ∨ ∃ w ∈ s.launch.maps, w.src = s.vc.id ∧ w.seqS = none := by
  unfold ctlPending
  simp

theorem execFence_waits {s : State}
    (h : s.vc.atomics ≠ [] ∨ (∃ w ∈ s.launch.maps, w.src = s.vc.id ∧ w.seqS = none) ∨ settled s = false) :
    execFence s = .next s := by
  refine if_pos (Bool.or_eq_true_iff.mpr ?_)
  rcases h with h | h | h
  · exact Or.inl ((ctlPending_iff s).mpr (Or.inl h))
  · exact Or.inl ((ctlPending_iff s).mpr (Or.inr h))
  · exact Or.inr (by rw [h]; rfl)

/-- A fence that waits for nothing writes every dirty line back and goes on (R136). -/
theorem execFence_goes_on {s : State} (ha : s.vc.atomics = []) (hm : ∀ w ∈ s.launch.maps, w.src = s.vc.id → w.seqS ≠ none)
    (hs : settled s = true) :
    ∃ t, execFence s = .next t ∧ keepsX s t ∧ accessStep s t 4 ∧ onlyWritesBack s t ∧ t.vc.fifo = [] := by
  have hpend : ctlPending s = false := by
    rw [Bool.eq_false_iff, Ne, ctlPending_iff]
    rintro (h | ⟨w, hw, hsrc, hseq⟩)
    · exact h ha
    · exact hm w hw hsrc hseq
  have hctl : (flushFifo s).vc.ctl = s.vc.ctl := by
    show (memMask (flushFifo s)).vc.ctl = (memMask s).vc.ctl
    rw [memMask_flushFifo]
  have hgo : execFence s = sysNext (flushFifo s) := if_neg (by rw [hpend, hs]; exact Bool.false_ne_true)
  have hstep := accessStep_retireTo (cachesDiffer_charge (cachesDiffer_of_masks (memMask_flushFifo s) (versions_flushFifo s)) .sys) 4
  have hnext : retire (charge (flushFifo s) .sys) = retireTo (charge (flushFifo s) .sys) (s.vc.ctl.pc + 4) := by
    rw [retire, charge_vc, hctl]
  refine ⟨_, hgo, keepsX_sysNext (by rw [hctl]), hnext ▸ hstep, fun a => ?_, ?_⟩
  · have h := wroteBack_of_settles (settles_flushFifo s a)
    rw [wroteBack, physByte] at h ⊢
    simpa using h
  · simpa using flushFifo_fifo s

/-! ### Moves (R137, R138) -/

/-- A word that charges e.sys and writes xd. -/
theorem sysMove_step (s : State) (d : BitVec 6) (v : Word64) :
    ∃ t, (.next (retire (setX (charge s .sys) d v)) : Out) = .next t ∧ writesX s t d v ∧ ctlStep s t .sys 4 ∧ keepsBytes s t := by
  rw [retire_setX_charge]
  exact ⟨_, rfl, setX_step ..⟩

/-- A word in flight whose write of y register n falls on this beat has lost it (R137). -/
def losesY (n now : Nat) (f : Flight) : Flight :=
  match f.y with
  | some (k, _) => if k = n ∧ f.done = some now then { f with y := none } else f
  | none => f

/-- The virtual core once its CTL has written v to y register n. -/
def ywritten (u : VC) (n : Nat) (v : Word64) : VC :=
  { u with ctl.y := mput 0 u.ctl.y n v, ywrote := n :: u.ywrote, eng.flights := u.eng.flights.map (losesY n u.now) }

theorem execYwr_eq (s : State) (y : BitVec 4) (a : BitVec 6) :
    execYwr y a s = .next (retire (charge { s with vc := ywritten s.vc y.toNat (xr s a) } .sys)) := by
  rw [charge_vc_of_id s (ywritten s.vc y.toNat (xr s a)) rfl]
  unfold execYwr setY ywritten losesY
  simp only [charge_vc] <;> rfl

/-- ywr writes its y register, which an engine write of the same beat does not overwrite (R137). -/
theorem execYwr_step (s : State) (y : BitVec 4) (a : BitVec 6) :
    ∃ t, execYwr y a s = .next t ∧ keepsX s t ∧ keepsBytes s t ∧ mget 0 t.vc.ctl.y y.toNat = xr s a ∧
      (∀ r, r ≠ y.toNat → mget 0 t.vc.ctl.y r = mget 0 s.vc.ctl.y r) ∧
      ctlStep { s with vc.ctl.y := t.vc.ctl.y, vc.ywrote := y.toNat :: s.vc.ywrote, vc.eng.flights := t.vc.eng.flights } t .sys 4 := by
  let u : State := { s with vc := ywritten s.vc y.toNat (xr s a) }
  have hy : (retire (charge u .sys)).vc.ctl.y = mput 0 s.vc.ctl.y y.toNat (xr s a) := by simp [u, ywritten]
  have hf : (retire (charge u .sys)).vc.eng.flights = s.vc.eng.flights.map (losesY y.toNat s.vc.now) := by simp [u, ywritten]
  refine ⟨_, execYwr_eq s y a, keepsX_sysNext rfl, keepsBytes_sysNext rfl rfl, ?_, fun r hr => ?_, ?_⟩
  · rw [hy, mget_mput_same]
  · rw [hy, mget_mput_ne _ _ _ hr]
  · rw [hy, hf]
    exact ctlStep_sysNext u

/-- Settles O15, word by word. -/
theorem systemWords : Obligations.SystemWords := by
  unfold Obligations.SystemWords
  intro s d a y m after
  refine ⟨fun h => ?halt, fun h => ?veto, execFence_waits, execFence_goes_on, ?ifb, sysMove_step .., sysMove_step .., execYwr_step ..⟩
  case halt =>
    exact execHalt_eq s (if_neg (mt (stepOpen_iff _).mp h)) rfl rfl
  case veto =>
    have hflag : (if s.vc.stepOpen then s.vc.voteFlag 11 else s.vc) = { s.vc with tx.vote := s.vc.tx.vote ||| 2048 } :=
      (if_pos ((stepOpen_iff _).mpr h)).trans (if_pos h)
    exact execHalt_eq s hflag rfl rfl
  case ifb => exact sysNext_eq _

/-! ### qfence (R134) -/

/-- What a fence of the queues in m waits on: a word in flight of one of them, or one that the columns share. -/
def fenceWaitsOn (m : BitVec 7) (f : Flight) : Prop :=
  f.ended = false ∧ (f.q ∈ maskQueues m ∨ (f.entry.shared = true ∧ ∃ q ∈ columns, q ∈ maskQueues m))

theorem mem_copySeqs {v : VC} {n : Nat} : n ∈ copySeqs v ↔ ∃ f ∈ v.eng.flights, f.writesOut = true ∧ f.seq = n := by
  simp [copySeqs, and_assoc]

theorem execQfence_eq {s : State} (h : s.vc.ctl.fenceSeq = none) (m : BitVec 7) :
    execQfence m s = if fenceHolds s m s.vc.eng.nextSeq (copySeqs s.vc) then sysNext { s with vc.ctl.fenceSeq := none }
      else .next { s with vc.ctl.fenceSeq := some (s.vc.eng.nextSeq, copySeqs s.vc) } := by
  unfold execQfence
  rw [h]

theorem fenceHolds_of_nothing {s : State} {m : BitVec 7} (n : Nat) (he : ∀ q ∈ maskQueues m, (s.vc.eng.q q).entries = [])
    (hf : ∀ f ∈ s.vc.eng.flights, ¬fenceWaitsOn m f)
    (hc : m.getLsbD 6 = true → ∀ f ∈ s.vc.eng.flights, f.writesOut = false) : fenceHolds s m n (copySeqs s.vc) = true := by
  refine Bool.and_eq_true_iff.mpr ⟨List.all_eq_true.mpr fun q hq => Bool.and_eq_true_iff.mpr ⟨?entries, ?flights⟩, ?copies⟩
  case entries =>
    rw [he q hq]
    rfl
  case flights =>
    refine List.all_eq_true.mpr fun f hmem => ?_
    by_contra hno
    simp only [Bool.or_eq_true, not_or, Bool.not_eq_true, Bool.not_eq_false', Bool.and_eq_true] at hno
    obtain ⟨⟨hend, -⟩, hplace⟩ := hno
    rcases hplace with e | ⟨hsh, hcol⟩
    · exact hf f hmem ⟨hend, Or.inl (eq_of_beq e ▸ hq)⟩
    · exact hf f hmem ⟨hend, Or.inr ⟨hsh, q, by simpa using hcol, hq⟩⟩
  case copies =>
    rcases hb : m.getLsbD 6 with _ | _
    · rfl
    · refine List.all_eq_true.mpr fun f hmem => ?_
      have hnot : f.seq ∉ copySeqs s.vc := by
        rw [mem_copySeqs]
        rintro ⟨g, hg, hw, -⟩
        rw [hc hb g hg] at hw
        cases hw
      simpa using hnot

theorem fenceHolds_false {s : State} {m : BitVec 7} {n : Nat}
    (h : (∃ q ∈ maskQueues m, ∃ e ∈ (s.vc.eng.q q).entries, e.seq < n) ∨ (∃ f ∈ s.vc.eng.flights, fenceWaitsOn m f ∧ f.seq < n) ∨
      (m.getLsbD 6 = true ∧ ∃ f ∈ s.vc.eng.flights, f.writesOut = true)) : fenceHolds s m n (copySeqs s.vc) = false := by
  have hclear {q : Queue} (hq : q ∈ maskQueues m) (hno : queueClear s q n = false) : fenceHolds s m n (copySeqs s.vc) = false :=
    Bool.and_eq_false_imp.mpr fun hall => absurd (List.all_eq_true.mp hall q hq) (by rw [hno]; exact Bool.false_ne_true)
  have hflight {q : Queue} {f : Flight} (hmem : f ∈ s.vc.eng.flights) (hend : f.ended = false) (hseq : f.seq < n)
      (hplace : (f.q == q || (f.entry.shared && columns.contains q)) = true) : queueClear s q n = false := by
    refine Bool.and_eq_false_imp.mpr fun _ => List.all_eq_false.mpr ⟨f, hmem, ?_⟩
    rw [hend, hplace, decide_eq_false (by omega)]
    exact Bool.false_ne_true
  rcases h with ⟨q, hq, e, he, hlt⟩ | ⟨f, hmem, ⟨hend, hplace⟩, hseq⟩ | ⟨hb, f, hmem, hw⟩
  · refine hclear hq (Bool.and_eq_false_iff.mpr (Or.inl (List.all_eq_false.mpr ⟨e, he, ?_⟩)))
    simpa using hlt
  · rcases hplace with hq | ⟨hsh, q, hcol, hq⟩
    · exact hclear hq (hflight hmem hend hseq (by simp))
    · exact hclear hq (hflight hmem hend hseq (by simp [hsh, hcol]))
  · refine Bool.and_eq_false_iff.mpr (Or.inr (Bool.or_eq_false_iff.mpr ⟨by rw [hb]; rfl, List.all_eq_false.mpr ⟨f, hmem, ?_⟩⟩))
    simpa using mem_copySeqs.mpr ⟨f, hmem, hw, rfl⟩

/-- Settles O16: the fence's condition holds where nothing is left to wait for, and fails at each thing that its mask names. -/
theorem queueFence : Obligations.QueueFence := by
  unfold Obligations.QueueFence
  intro s m hnone waitsOn
  refine ⟨fun he hf hc => ?goesOn, fun h => ?waits⟩
  case goesOn =>
    have hsame : ({ s with vc.ctl.fenceSeq := none } : State) = s := by rw [← hnone]
    refine ⟨_, (execQfence_eq hnone m).trans (if_pos (fenceHolds_of_nothing _ he hf hc)), ?_⟩
    rw [hsame]
    exact ⟨keepsX_sysNext rfl, ctlStep_sysNext s, keepsBytes_sysNext rfl rfl⟩
  case waits =>
    refine ⟨_, (execQfence_eq hnone m).trans (if_neg ?_), rfl, Option.some_ne_none _⟩
    rw [fenceHolds_false h]
    exact Bool.false_ne_true

end Sys2Proof.Machine
end

section
/-! Rounding to a grid (R125, R126): what the model's rounding of a positive number at one exponent gives, told by the comparisons of the
number with the points of the grid and the points halfway between them. -/

namespace Sys2Proof.Machine

open Sys2Proof.Laws

/-! ### The binary logarithm -/

/-- The number that num / den · 2^e stands for. -/
noncomputable def scaled (num den : Nat) (e : Int) : ℝ := (num : ℝ) / den * 2 ^ e

theorem two_zpow_pos (e : Int) : (0 : ℝ) < 2 ^ e := zpow_pos two_pos e

theorem two_zpow_le {e k : Int} : (2 : ℝ) ^ e ≤ 2 ^ k ↔ e ≤ k := zpow_le_zpow_iff_right₀ one_lt_two

theorem two_zpow_lt {e k : Int} : (2 : ℝ) ^ e < 2 ^ k ↔ e < k := zpow_lt_zpow_iff_right₀ one_lt_two

theorem two_zpow_add (e k : Int) : (2 : ℝ) ^ (e + k) = 2 ^ e * 2 ^ k := zpow_add₀ two_ne_zero e k

theorem two_zpow_toNat {e : Int} (h : 0 ≤ e) : (2 : ℝ) ^ e.toNat = 2 ^ e := by
  rw [← zpow_natCast, Int.toNat_of_nonneg h]

theorem scaled_pos {num den : Nat} (hn : 0 < num) (hd : 0 < den) (e : Int) : 0 < scaled num den e :=
  mul_pos (div_pos (Nat.cast_pos.mpr hn) (Nat.cast_pos.mpr hd)) (two_zpow_pos e)

theorem log2_bounds {n : Nat} (h : 0 < n) : (2 : ℝ) ^ (n.log2 : Int) ≤ n ∧ (n : ℝ) < 2 ^ ((n.log2 : Int) + 1) := by
  have h1 := Nat.log2_self_le (Nat.pos_iff_ne_zero.mp h)
  have h2 := Nat.lt_log2_self (n := n)
  refine ⟨?_, ?_⟩
  · rw [zpow_natCast]
    exact_mod_cast h1
  · rw [show (n.log2 : Int) + 1 = ((n.log2 + 1 : Nat) : Int) by push_cast; rfl, zpow_natCast]
    exact_mod_cast h2

/-- `ratLog` is the exponent of the greatest power of two that is not above the quotient. -/
theorem ratLog_bounds {num den : Nat} (hn : 0 < num) (hd : 0 < den) :
    (2 : ℝ) ^ ratLog num den ≤ (num : ℝ) / den ∧ (num : ℝ) / den < 2 ^ (ratLog num den + 1) := by
  obtain ⟨hnlo, hnhi⟩ := log2_bounds hn
  obtain ⟨hdlo, hdhi⟩ := log2_bounds hd
  have hdpos : (0 : ℝ) < den := Nat.cast_pos.mpr hd
  obtain ⟨l, hl⟩ : ∃ l : Int, l = (Nat.log2 num : Int) - Nat.log2 den := ⟨_, rfl⟩
  have hup : (num : ℝ) / den < 2 ^ (l + 1) := by
    rw [div_lt_iff₀ hdpos]
    calc (num : ℝ) < 2 ^ ((num.log2 : Int) + 1) := hnhi
      _ = 2 ^ (l + 1) * 2 ^ (den.log2 : Int) := by rw [← two_zpow_add]; congr 1; omega
      _ ≤ 2 ^ (l + 1) * den := mul_le_mul_of_nonneg_left hdlo (two_zpow_pos _).le
  have hlow : (2 : ℝ) ^ (l - 1) ≤ num / den := by
    rw [le_div_iff₀ hdpos]
    calc (2 : ℝ) ^ (l - 1) * den ≤ 2 ^ (l - 1) * 2 ^ ((den.log2 : Int) + 1) := mul_le_mul_of_nonneg_left hdhi.le (two_zpow_pos _).le
      _ = 2 ^ (num.log2 : Int) := by rw [← two_zpow_add]; congr 1; omega
      _ ≤ num := hnlo
  have hge : (if 0 ≤ l then decide (den * 2 ^ l.toNat ≤ num) else decide (den ≤ num * 2 ^ (-l).toNat)) = true ↔
      (2 : ℝ) ^ l ≤ num / den := by
    rw [le_div_iff₀ hdpos]
    split
    next h0 =>
      rw [decide_eq_true_eq, ← two_zpow_toNat h0, mul_comm]
      exact_mod_cast Iff.rfl
    next h0 =>
      have hinv : (2 : ℝ) ^ l * 2 ^ (-l) = 1 := by rw [← two_zpow_add, add_neg_cancel, zpow_zero]
      rw [decide_eq_true_eq, ← mul_le_mul_iff_left₀ (two_zpow_pos (-l)), mul_right_comm, hinv, one_mul,
        ← two_zpow_toNat (show 0 ≤ -l by omega)]
      exact_mod_cast Iff.rfl
  have hlog : ratLog num den = if (if 0 ≤ l then decide (den * 2 ^ l.toNat ≤ num) else decide (den ≤ num * 2 ^ (-l).toNat)) then l
      else l - 1 := by
    rw [hl]
    rfl
  rw [hlog]
  by_cases h : (2 : ℝ) ^ l ≤ (num : ℝ) / den
  · rw [if_pos (hge.mpr h)]
    exact ⟨h, hup⟩
  · rw [if_neg (mt hge.mp h), sub_add_cancel]
    exact ⟨hlow, not_le.mp h⟩

theorem scaled_bounds {num den : Nat} (hn : 0 < num) (hd : 0 < den) (e : Int) :
    (2 : ℝ) ^ (ratLog num den + e) ≤ scaled num den e ∧ scaled num den e < 2 ^ (ratLog num den + e + 1) := by
  obtain ⟨hlo, hhi⟩ := ratLog_bounds hn hd
  rw [scaled, add_right_comm, two_zpow_add, two_zpow_add]
  exact ⟨mul_le_mul_of_nonneg_right hlo (two_zpow_pos e).le, mul_lt_mul_of_pos_right hhi (two_zpow_pos e)⟩

/-! ### Numbers that a grid cannot tell apart -/

/-- a and b compare alike with every point of the grids 2^g, g at least G. -/
def cutsAlike (G : Int) (a b : ℝ) : Prop :=
  ∀ (g : Int) (j : Nat), G ≤ g → ((j : ℝ) * 2 ^ g < a ↔ (j : ℝ) * 2 ^ g < b) ∧ ((j : ℝ) * 2 ^ g = a ↔ (j : ℝ) * 2 ^ g = b)

theorem cutsAlike_refl (G : Int) (a : ℝ) : cutsAlike G a a := fun _ _ _ => ⟨Iff.rfl, Iff.rfl⟩

theorem cutsAlike_mono {G H : Int} {a b : ℝ} (h : cutsAlike G a b) (hle : G ≤ H) : cutsAlike H a b :=
  fun g j hg => h g j (hle.trans hg)

theorem cutsAlike_le {G g : Int} {a b : ℝ} (h : cutsAlike G a b) (hg : G ≤ g) (j : Nat) :
    (j : ℝ) * 2 ^ g ≤ a ↔ (j : ℝ) * 2 ^ g ≤ b := by
  obtain ⟨hlt, heq⟩ := h g j hg
  rw [le_iff_lt_or_eq, le_iff_lt_or_eq, hlt, heq]

/-! ### Rounding at one exponent -/

/-- b lies in cell q of the grid 2^x. -/
def inCell (b : ℝ) (x : Int) (q : Nat) : Prop := (q : ℝ) * 2 ^ x ≤ b ∧ b < ((q : ℝ) + 1) * 2 ^ x

/-- The mode takes b, in cell q of the grid 2^x with this sign, to the far end of the cell (R125). -/
def goesUp (rm : Rm) (neg : Bool) (b : ℝ) (x : Int) (q : Nat) : Prop :=
  match rm with
  | .rne => ((2 * q + 1 : Nat) : ℝ) * 2 ^ (x - 1) < b ∨ (((2 * q + 1 : Nat) : ℝ) * 2 ^ (x - 1) = b ∧ q % 2 = 1)
  | .rtn => neg = true ∧ (q : ℝ) * 2 ^ x < b
  | .rtp => neg = false ∧ (q : ℝ) * 2 ^ x < b
  | .rtz => False

/-- `roundAt` divides the number by the grid's step, in whole numbers. -/
theorem roundAt_eq (rm : Rm) (neg : Bool) (num : Nat) {den : Nat} (hd : 0 < den) (e x : Int) :
    ∃ n d : Nat, 0 < d ∧ (n : ℝ) * 2 ^ x = scaled num den e * d ∧
      roundAt rm neg num den e x = (if roundUp rm neg (n / d) (n % d) d then n / d + 1 else n / d, decide (0 < n % d)) := by
  have hdpos : (0 : ℝ) < den := Nat.cast_pos.mpr hd
  by_cases h : x ≤ e
  · refine ⟨num * 2 ^ (e - x).toNat, den, hd, ?_, ?_⟩
    · rw [scaled, Nat.cast_mul, Nat.cast_pow, Nat.cast_ofNat, two_zpow_toNat (by omega), mul_assoc, ← two_zpow_add, sub_add_cancel]
      field_simp
    · unfold roundAt
      rw [if_pos h, if_pos h]
  · refine ⟨num, den * 2 ^ (x - e).toNat, Nat.mul_pos hd (Nat.two_pow_pos _), ?_, ?_⟩
    · have hx : (2 : ℝ) ^ x = 2 ^ e * 2 ^ (x - e) := by rw [← two_zpow_add, add_sub_cancel]
      rw [scaled, Nat.cast_mul, Nat.cast_pow, Nat.cast_ofNat, two_zpow_toNat (by omega), hx]
      field_simp
    · unfold roundAt
      rw [if_neg h, if_neg h]

/-- What `roundAt` gives for a number that the grid cannot tell from b: the cell of b, the end of it that the mode takes, and whether
b lies off the grid. -/
theorem roundAt_spec {rm : Rm} {neg : Bool} {num den : Nat} (hd : 0 < den) {e x : Int} {b : ℝ}
    (hb : cutsAlike (x - 1) (scaled num den e) b) :
    ∃ q, inCell b x q ∧ ((roundAt rm neg num den e x).2 = true ↔ (q : ℝ) * 2 ^ x < b) ∧
      (goesUp rm neg b x q → (roundAt rm neg num den e x).1 = q + 1) ∧ (¬goesUp rm neg b x q → (roundAt rm neg num den e x).1 = q) := by
  obtain ⟨n, d, hdp, hscale, hround⟩ := roundAt_eq rm neg num hd e x
  have hdpos : (0 : ℝ) < d := Nat.cast_pos.mpr hdp
  have hx := two_zpow_pos x
  have hdiv : ((d : ℝ) * (n / d : Nat) + (n % d : Nat)) = n := by exact_mod_cast Nat.div_add_mod n d
  have hr : n % d < d := Nat.mod_lt n hdp
  generalize hq : n / d = q at hdiv hround
  generalize hrem : n % d = r at hdiv hr hround
  have hrlt : (r : ℝ) < d := Nat.cast_lt.mpr hr
  have ha : scaled num den e = ((q : ℝ) + r / d) * 2 ^ x := by
    rw [← hdiv] at hscale
    field_simp
    linarith
  have hfrac : 0 ≤ (r : ℝ) / d ∧ (r : ℝ) / d < 1 := ⟨by positivity, (div_lt_one hdpos).mpr hrlt⟩
  have hlow : (q : ℝ) * 2 ^ x < scaled num den e ↔ 0 < r := by
    rw [ha, mul_lt_mul_iff_left₀ hx, lt_add_iff_pos_right, div_pos_iff_of_pos_right hdpos, Nat.cast_pos]
  have hhalf : (2 : ℝ) ^ x = 2 * 2 ^ (x - 1) := by
    rw [← zpow_one_add₀ two_ne_zero, add_sub_cancel]
  have hx1 := two_zpow_pos (x - 1)
  have hmid : ((2 * q + 1 : Nat) : ℝ) * 2 ^ (x - 1) < scaled num den e ↔ d < 2 * r := by
    rw [ha, hhalf, ← mul_assoc, mul_lt_mul_iff_left₀ hx1]
    push_cast
    rw [show ((q : ℝ) + r / d) * 2 = 2 * q + 2 * r / d by ring, add_lt_add_iff_left, lt_div_iff₀ hdpos, one_mul]
    exact_mod_cast Iff.rfl
  have htie : ((2 * q + 1 : Nat) : ℝ) * 2 ^ (x - 1) = scaled num den e ↔ 2 * r = d := by
    rw [ha, hhalf, ← mul_assoc, mul_left_inj' hx1.ne']
    push_cast
    rw [show ((q : ℝ) + r / d) * 2 = 2 * q + 2 * r / d by ring, add_right_inj, eq_comm, div_eq_one_iff_eq hdpos.ne']
    exact_mod_cast Iff.rfl
  have hcell : inCell b x q := by
    refine ⟨(cutsAlike_le hb (by omega) q).mp ?_, lt_of_not_ge fun h => ?_⟩
    · rw [ha]
      exact mul_le_mul_of_nonneg_right (by linarith [hfrac.1]) hx.le
    · have h1 := (cutsAlike_le hb (by omega : x - 1 ≤ x) (q + 1)).mpr (by push_cast; exact h)
      rw [ha, mul_le_mul_iff_left₀ hx] at h1
      push_cast at h1
      linarith [hfrac.2]
  have hoff : (q : ℝ) * 2 ^ x < b ↔ 0 < r := ((hb x q (by omega)).1.symm).trans hlow
  have hup : goesUp rm neg b x q ↔ roundUp rm neg q r d = true := by
    obtain ⟨hbmid, hbtie⟩ := hb (x - 1) (2 * q + 1) le_rfl
    cases rm with
    | rne =>
      show (_ ∨ (_ ∧ _)) ↔ (decide (d < 2 * r) || (2 * r == d && q % 2 == 1)) = true
      rw [← hbmid, ← hbtie, hmid, htie]
      simp
    | rtn =>
      show (_ ∧ _) ↔ (neg && decide (0 < r)) = true
      rw [hoff]
      simp
    | rtp =>
      show (_ ∧ _) ↔ (!neg && decide (0 < r)) = true
      rw [hoff]
      simp
    | rtz =>
      show False ↔ false = true
      simp
  refine ⟨q, hcell, ?_, fun h => ?_, fun h => ?_⟩
  · rw [hround, hoff]
    exact decide_eq_true_iff
  · rw [hround]
    exact if_pos (hup.mp h)
  · rw [hround]
    exact if_neg (mt hup.mpr h)

end Sys2Proof.Machine
end

section
/-! Rounding to p bits (R125, R126): the cell of the grid that `roundBits` works in, the end of it that the mode takes, and what the
value taken is among the numbers that lie on no inner point of the cell. -/

namespace Sys2Proof.Machine

open Sys2Proof.Laws

/-! ### The grid of a significand of p bits -/

/-- The grid that `roundBits` rounds to: the exponent that gives p bits, or the least exponent where that is higher. -/
def gridOf (lo : Option Int) (x : Int) : Int :=
  match lo with
  | some l => if x < l then l else x
  | none => x

theorem gridOf_some (l x : Int) : gridOf (some l) x = if x < l then l else x := rfl

theorem le_gridOf (lo : Option Int) (x : Int) : x ≤ gridOf lo x := by
  cases lo with
  | none => exact le_rfl
  | some l =>
    rw [gridOf_some]
    split <;> omega

theorem roundBits_eq (rm : Rm) (neg : Bool) (p : Nat) (lo : Option Int) {num : Nat} (den : Nat) (e : Int) (hn : 0 < num) :
    roundBits rm neg p lo num den e =
      let g := gridOf lo (ratLog num den + e - p + 1)
      let r := roundAt rm neg num den e g
      if r.1 = 2 ^ p then (2 ^ (p - 1), g + 1, r.2) else (r.1, g, r.2) := by
  unfold roundBits
  rw [if_neg (Nat.pos_iff_ne_zero.mp hn)]
  cases lo <;> rfl

/-- n is the end of cell q of the grid 2^g that the mode takes b to. -/
def takes (rm : Rm) (neg : Bool) (b : ℝ) (g : Int) (q n : Nat) : Prop :=
  (goesUp rm neg b g q → n = q + 1) ∧ (¬goesUp rm neg b g q → n = q)

theorem takes_le {rm : Rm} {neg : Bool} {b : ℝ} {g : Int} {q n : Nat} (h : takes rm neg b g q n) : q ≤ n ∧ n ≤ q + 1 := by
  obtain ⟨hup, hdown⟩ := h
  by_cases hg : goesUp rm neg b g q
  · rw [hup hg]
    omega
  · rw [hdown hg]
    omega

/-- `roundBits` gives the end n of a cell of the grid, written with at most p bits. -/
def roundsCell (p : Nat) (n : Nat) (g : Int) (b : ℝ) (q : Nat) (r : Nat × Int × Bool) : Prop :=
  (r.2.2 = true ↔ (q : ℝ) * 2 ^ g < b) ∧ ((n < 2 ^ p ∧ r.1 = n ∧ r.2.1 = g) ∨ (n = 2 ^ p ∧ r.1 = 2 ^ (p - 1) ∧ r.2.1 = g + 1))

theorem roundBits_spec {rm : Rm} {neg : Bool} {p : Nat} (hp : 1 ≤ p) (lo : Option Int) {num den : Nat} (hn : 0 < num) (hd : 0 < den)
    {e : Int} {b : ℝ} (hb : cutsAlike (ratLog num den + e - p) (scaled num den e) b) :
    ∃ q n, inCell b (gridOf lo (ratLog num den + e - p + 1)) q ∧ q < 2 ^ p ∧
      (gridOf lo (ratLog num den + e - p + 1) = ratLog num den + e - p + 1 → 2 ^ (p - 1) ≤ q) ∧
      takes rm neg b (gridOf lo (ratLog num den + e - p + 1)) q n ∧
      roundsCell p n (gridOf lo (ratLog num den + e - p + 1)) b q (roundBits rm neg p lo num den e) := by
  rw [roundBits_eq rm neg p lo den e hn]
  obtain ⟨hlo, hhi⟩ := scaled_bounds hn hd e
  have hle := le_gridOf lo (ratLog num den + e - p + 1)
  generalize gridOf lo (ratLog num den + e - p + 1) = g at hle
  generalize hL : ratLog num den + e = L at *
  have hcut (k : Int) (hk : L - p ≤ k) : (2 : ℝ) ^ k ≤ scaled num den e ↔ 2 ^ k ≤ b := by
    simpa using cutsAlike_le hb hk 1
  have hblo : (2 : ℝ) ^ L ≤ b := (hcut L (by omega)).mp hlo
  have hbhi : b < 2 ^ (L + 1) := not_le.mp (mt (hcut (L + 1) (by omega)).mpr (not_le.mpr hhi))
  obtain ⟨q, hcell, hinex, hup, hdown⟩ := roundAt_spec (rm := rm) (neg := neg) hd (cutsAlike_mono hb (by omega : L - p ≤ g - 1))
  obtain ⟨hq1, hq2⟩ := hcell
  have hg := two_zpow_pos g
  have hqlt : q < 2 ^ p := by
    have h1 : (q : ℝ) * 2 ^ g < 2 ^ (p : Int) * 2 ^ g :=
      calc (q : ℝ) * 2 ^ g ≤ b := hq1
        _ < 2 ^ (L + 1) := hbhi
        _ ≤ 2 ^ ((p : Int) + g) := two_zpow_le.mpr (by omega)
        _ = 2 ^ (p : Int) * 2 ^ g := two_zpow_add ..
    rw [mul_lt_mul_iff_left₀ hg, zpow_natCast] at h1
    exact_mod_cast h1
  have hqge (h : g = L - p + 1) : 2 ^ (p - 1) ≤ q := by
    have h1 : (2 : ℝ) ^ ((p - 1 : Nat) : Int) * 2 ^ g < ((q : ℝ) + 1) * 2 ^ g :=
      calc (2 : ℝ) ^ ((p - 1 : Nat) : Int) * 2 ^ g = 2 ^ L := by rw [← two_zpow_add, h]; congr 1; omega
        _ ≤ b := hblo
        _ < ((q : ℝ) + 1) * 2 ^ g := hq2
    rw [mul_lt_mul_iff_left₀ hg, zpow_natCast] at h1
    exact Nat.lt_succ_iff.mp (by exact_mod_cast h1)
  refine ⟨q, (roundAt rm neg num den e g).1, ⟨hq1, hq2⟩, hqlt, hqge, ⟨hup, hdown⟩, ?_⟩
  obtain ⟨-, hn2⟩ := takes_le ⟨hup, hdown⟩
  show roundsCell p _ g b q (if _ = 2 ^ p then _ else _)
  by_cases hfull : (roundAt rm neg num den e g).1 = 2 ^ p
  · rw [if_pos hfull]
    exact ⟨hinex, .inr ⟨hfull, rfl, rfl⟩⟩
  · rw [if_neg hfull]
    exact ⟨hinex, .inl ⟨by omega, rfl, rfl⟩⟩

theorem roundsCell_value {p : Nat} (hp : 1 ≤ p) {n : Nat} {g : Int} {b : ℝ} {q : Nat} {r : Nat × Int × Bool}
    (h : roundsCell p n g b q r) : (r.1 : ℝ) * 2 ^ r.2.1 = n * 2 ^ g := by
  obtain ⟨-, ⟨-, h1, h2⟩ | ⟨hn, h1, h2⟩⟩ := h
  · rw [h1, h2]
  · have hpow : 2 ^ p = 2 ^ (p - 1) * 2 := by rw [← pow_succ, Nat.sub_add_cancel hp]
    rw [h1, h2, hn, hpow, two_zpow_add, zpow_one]
    push_cast
    ring

/-! ### What the end taken is -/

/-- v lies outside the inside of cell q of the grid 2^g. -/
def clearOf (g : Int) (q : Nat) (v : ℝ) : Prop := v ≤ (q : ℝ) * 2 ^ g ∨ ((q : ℝ) + 1) * 2 ^ g ≤ v

theorem clearOf_of_abs {g : Int} {q : Nat} {v : ℝ} (h : clearOf g q |v|) : clearOf g q v ∧ clearOf g q (-v) := by
  have h0 : (0 : ℝ) ≤ (q : ℝ) * 2 ^ g := mul_nonneg (Nat.cast_nonneg q) (two_zpow_pos g).le
  rcases h with h | h
  · exact ⟨.inl ((le_abs_self v).trans h), .inl ((neg_le_abs v).trans h)⟩
  · rcases abs_cases v with ⟨hv, hs⟩ | ⟨hv, hs⟩ <;> rw [hv] at h
    · exact ⟨.inr h, .inl (by linarith)⟩
    · exact ⟨.inl (by linarith), .inr h⟩

section
variable {neg : Bool} {b : ℝ} {g : Int} {q n : Nat}

theorem two_mul_half (g : Int) : (2 : ℝ) ^ g = 2 * 2 ^ (g - 1) := by
  rw [← zpow_one_add₀ two_ne_zero, add_sub_cancel]

theorem midpoint_eq (g : Int) (q : Nat) : ((2 * q + 1 : Nat) : ℝ) * 2 ^ (g - 1) = (q : ℝ) * 2 ^ g + 2 ^ g / 2 := by
  rw [two_mul_half g]
  push_cast
  ring

/-- Only a number off the grid goes up. -/
theorem lt_of_goesUp {rm : Rm} (h : goesUp rm neg b g q) : (q : ℝ) * 2 ^ g < b := by
  have hg := two_zpow_pos g
  cases rm with
  | rne =>
    rw [goesUp, midpoint_eq] at h
    rcases h with h | ⟨h, -⟩ <;> linarith
  | rtn => exact h.2
  | rtp => exact h.2
  | rtz => exact h.elim

/-- The end taken is b itself just where b is on the grid. -/
theorem takes_ne {rm : Rm} (hc : inCell b g q) (h : takes rm neg b g q n) : (q : ℝ) * 2 ^ g < b ↔ (n : ℝ) * 2 ^ g ≠ b := by
  obtain ⟨hlo, hhi⟩ := hc
  obtain ⟨hup, hdown⟩ := h
  by_cases hg : goesUp rm neg b g q
  · rw [hup hg, Nat.cast_succ]
    exact ⟨fun _ => hhi.ne', fun _ => lt_of_goesUp hg⟩
  · rw [hdown hg]
    exact lt_iff_le_and_ne.trans (and_iff_right hlo)

/-- In the mode to nearest no number clear of the cell is nearer, and of two that are equally near the even end is taken. -/
theorem takes_nearest (hc : inCell b g q) (h : takes .rne neg b g q n) {c : ℝ} (hclear : clearOf g q c) :
    |(n : ℝ) * 2 ^ g - b| ≤ |c - b| ∧ (c ≠ n * 2 ^ g → |(n : ℝ) * 2 ^ g - b| = |c - b| → n % 2 = 0) := by
  obtain ⟨hlo, hhi⟩ := hc
  obtain ⟨hup, hdown⟩ := h
  have hg := two_zpow_pos g
  rw [add_mul, one_mul] at hhi
  rw [clearOf, add_mul, one_mul] at hclear
  simp only [goesUp, midpoint_eq] at hup hdown
  by_cases hgo : (q : ℝ) * 2 ^ g + 2 ^ g / 2 < b ∨ ((q : ℝ) * 2 ^ g + 2 ^ g / 2 = b ∧ q % 2 = 1)
  · obtain rfl := hup hgo
    have hmid : (q : ℝ) * 2 ^ g + 2 ^ g / 2 ≤ b := hgo.elim le_of_lt (fun h => h.1.le)
    rw [Nat.cast_succ, add_mul, one_mul, abs_of_pos (by linarith : 0 < (q : ℝ) * 2 ^ g + 2 ^ g - b)]
    rcases hclear with hc | hc
    · rw [abs_of_nonpos (by linarith : c - b ≤ 0)]
      refine ⟨by linarith, fun _ heq => ?_⟩
      rcases hgo with hlt | ⟨-, hodd⟩
      · linarith
      · omega
    · rw [abs_of_pos (by linarith : 0 < c - b)]
      exact ⟨by linarith, fun hne heq => absurd (by linarith) hne⟩
  · obtain rfl := hdown hgo
    rw [not_or, not_lt, not_and] at hgo
    obtain ⟨hmid, hodd⟩ := hgo
    rw [abs_of_nonpos (by linarith : (n : ℝ) * 2 ^ g - b ≤ 0)]
    rcases hclear with hc | hc
    · rw [abs_of_nonpos (by linarith : c - b ≤ 0)]
      exact ⟨by linarith, fun hne heq => absurd (by linarith) hne⟩
    · rw [abs_of_pos (by linarith : 0 < c - b)]
      refine ⟨by linarith, fun _ heq => ?_⟩
      have := hodd (by linarith)
      omega

/-- v is the greatest number clear of the cell that is not above b. -/
def floorsTo (b : ℝ) (g : Int) (q : Nat) (v : ℝ) : Prop := v ≤ b ∧ ∀ c, clearOf g q c → c ≤ b → c ≤ v

/-- v is the least number clear of the cell that is not below b. -/
def ceilsTo (b : ℝ) (g : Int) (q : Nat) (v : ℝ) : Prop := b ≤ v ∧ ∀ c, clearOf g q c → b ≤ c → v ≤ c

theorem floorsTo_of_not_goesUp {rm : Rm} (hc : inCell b g q) (h : takes rm neg b g q n) (hg : ¬goesUp rm neg b g q) :
    floorsTo b g q (n * 2 ^ g) := by
  obtain ⟨hlo, hhi⟩ := hc
  rw [h.2 hg]
  refine ⟨hlo, fun c hclear hcb => ?_⟩
  rcases hclear with h | h
  · exact h
  · linarith

/-- A mode that rounds this sign away from zero takes the end above. -/
theorem ceilsTo_of_away {rm : Rm} (hc : inCell b g q) (h : takes rm neg b g q n) (hg : goesUp rm neg b g q ↔ (q : ℝ) * 2 ^ g < b) :
    ceilsTo b g q (n * 2 ^ g) := by
  obtain ⟨hlo, hhi⟩ := hc
  obtain ⟨hup, hdown⟩ := h
  by_cases hlt : (q : ℝ) * 2 ^ g < b
  · rw [hup (hg.mpr hlt), Nat.cast_succ]
    refine ⟨hhi.le, fun c hclear hcb => ?_⟩
    rcases hclear with h | h
    · linarith
    · exact h
  · rw [hdown (mt hg.mp hlt)]
    exact ⟨not_lt.mp hlt, fun c _ hcb => hlo.trans hcb⟩

end

end Sys2Proof.Machine
end

section
/-! Patterns of the floating formats (R72, R125): a pattern as its sign, its exponent field and its fraction, the values that the
model's packed results decode to, and the numbers that the finite patterns stand for. -/

namespace Sys2Proof.Machine

open Sys2Proof.Laws

/-! ### A pattern and its fields -/

/-- A format with infinities, at least one fraction bit and at least two exponent bits, as f32 and f64 are. -/
def Fp.std (f : Fp) : Prop := f.hasInf = true ∧ 1 ≤ f.fb ∧ 2 ≤ f.eb

theorem std_fpOf (b : Bool) : (fpOf b).std := by
  cases b <;> exact ⟨rfl, by decide, by decide⟩

/-- The pattern with these fields. -/
def Fp.parts (f : Fp) (neg : Bool) (ex fr : Nat) : Nat := (b2n neg * 2 ^ f.eb + ex) * 2 ^ f.fb + fr

section
variable {f : Fp} {neg : Bool} {ex fr : Nat}

theorem bit_eq_decide (v i : Nat) : bit v i = decide (v / 2 ^ i % 2 = 1) := by
  rw [bit, Bool.beq_eq_decide_eq]

theorem parts_div (hfr : fr < 2 ^ f.fb) : f.parts neg ex fr / 2 ^ f.fb = b2n neg * 2 ^ f.eb + ex := by
  rw [Fp.parts, mul_comm, Nat.mul_add_div (Nat.two_pow_pos _), Nat.div_eq_of_lt hfr, add_zero]

theorem parts_fraction (hfr : fr < 2 ^ f.fb) : f.parts neg ex fr % 2 ^ f.fb = fr := by
  rw [Fp.parts, mul_comm, Nat.mul_add_mod, Nat.mod_eq_of_lt hfr]

theorem parts_exponent (hex : ex < 2 ^ f.eb) (hfr : fr < 2 ^ f.fb) : f.parts neg ex fr / 2 ^ f.fb % 2 ^ f.eb = ex := by
  rw [parts_div hfr, mul_comm, Nat.mul_add_mod, Nat.mod_eq_of_lt hex]

theorem parts_sign (hex : ex < 2 ^ f.eb) (hfr : fr < 2 ^ f.fb) : bit (f.parts neg ex fr) (f.eb + f.fb) = neg := by
  rw [bit_eq_decide, add_comm, pow_add, ← Nat.div_div_eq_div_mul, parts_div hfr, mul_comm, Nat.mul_add_div (Nat.two_pow_pos _),
    Nat.div_eq_of_lt hex]
  cases neg <;> rfl

theorem parts_lt (hex : ex < 2 ^ f.eb) (hfr : fr < 2 ^ f.fb) : f.parts neg ex fr < 2 ^ f.width := by
  have hs : b2n neg * 2 ^ f.eb + ex + 1 ≤ 2 * 2 ^ f.eb := by
    cases neg <;> simp [b2n] <;> omega
  calc f.parts neg ex fr < (b2n neg * 2 ^ f.eb + ex + 1) * 2 ^ f.fb := by rw [Fp.parts, add_mul _ 1]; omega
    _ ≤ 2 * 2 ^ f.eb * 2 ^ f.fb := Nat.mul_le_mul_right _ hs
    _ = 2 ^ f.width := by rw [Fp.width, pow_add, pow_add, pow_one]

theorem parts_parity (hf : f.std) : f.parts neg ex fr % 2 = fr % 2 := by
  obtain ⟨-, hfb, -⟩ := hf
  obtain ⟨k, hk⟩ := Nat.exists_eq_add_of_le hfb
  rw [Fp.parts, hk, pow_add, pow_one, mul_left_comm, Nat.mul_add_mod]

theorem emax_lt : f.emax < 2 ^ f.eb := Nat.sub_lt (Nat.two_pow_pos _) one_pos

theorem three_le_emax (hf : f.std) : 3 ≤ f.emax := by
  obtain ⟨-, -, heb⟩ := hf
  exact Nat.sub_le_sub_right (Nat.pow_le_pow_right two_pos heb) 1

/-- What the fields of a pattern of a format with infinities stand for. -/
theorem decode_of_fields (hf : f.std) {v : Nat} (hs : bit v (f.eb + f.fb) = neg) (hex : v / 2 ^ f.fb % 2 ^ f.eb = ex)
    (hfr : v % 2 ^ f.fb = fr) : f.decode v =
      if ex = f.emax then (if fr = 0 then .inf neg else .nan (!bit fr (f.fb - 1)))
      else if ex = 0 then .fin neg fr (if fr = 0 then 0 else f.emin) else .fin neg (2 ^ f.fb + fr) (f.emin + ex - 1) := by
  obtain ⟨hinf, -, -⟩ := hf
  simp [Fp.decode, hs, hex, hfr, hinf]

theorem decode_parts (hf : f.std) (hex : ex < 2 ^ f.eb) (hfr : fr < 2 ^ f.fb) : f.decode (f.parts neg ex fr) =
      if ex = f.emax then (if fr = 0 then .inf neg else .nan (!bit fr (f.fb - 1)))
      else if ex = 0 then .fin neg fr (if fr = 0 then 0 else f.emin) else .fin neg (2 ^ f.fb + fr) (f.emin + ex - 1) :=
  decode_of_fields hf (parts_sign hex hfr) (parts_exponent hex hfr) (parts_fraction hfr)

end

/-! ### The patterns of infinities, of the canonical NaN and of the largest finite values -/

section
variable {f : Fp} (hf : f.std) (neg : Bool)
include hf

omit hf in
theorem infPat_eq_parts : f.infPat neg = f.parts neg f.emax 0 := by
  rw [Fp.infPat, Fp.parts, pow_add, add_mul, mul_assoc, add_zero]

theorem decode_infPat : f.decode (f.infPat neg) = .inf neg := by
  rw [infPat_eq_parts, decode_parts hf emax_lt (Nat.two_pow_pos _), if_pos rfl, if_pos rfl]

omit hf in
theorem infPat_lt : f.infPat neg < 2 ^ f.width := by
  rw [infPat_eq_parts]
  exact parts_lt emax_lt (Nat.two_pow_pos _)

theorem canonNan_eq_parts : f.canonNan = f.parts false f.emax (2 ^ (f.fb - 1)) := by
  obtain ⟨hinf, -, -⟩ := hf
  rw [Fp.canonNan, if_pos hinf, Fp.parts, b2n, if_neg Bool.false_ne_true, zero_mul, zero_add]

theorem half_fraction_lt : 2 ^ (f.fb - 1) < 2 ^ f.fb :=
  Nat.pow_lt_pow_right one_lt_two (Nat.sub_lt hf.2.1 one_pos)

theorem canonNan_lt : f.canonNan < 2 ^ f.width := by
  rw [canonNan_eq_parts hf]
  exact parts_lt emax_lt (half_fraction_lt hf)

theorem maxPat_eq_parts : f.maxPat neg = f.parts neg (f.emax - 1) (2 ^ f.fb - 1) := by
  have hmax := three_le_emax hf
  obtain ⟨hinf, -, -⟩ := hf
  obtain ⟨k, hk⟩ := Nat.exists_eq_add_of_le (show 1 ≤ f.emax by omega)
  have hfr := Nat.two_pow_pos f.fb
  rw [Fp.maxPat, if_pos hinf, Fp.parts, pow_add, hk, Nat.add_sub_cancel_left, add_mul, add_mul, one_mul, mul_assoc]
  omega

theorem decode_maxPat : f.decode (f.maxPat neg) = .fin neg (2 ^ (f.fb + 1) - 1) (f.emin + f.emax - 2) := by
  have hmax := three_le_emax hf
  have hfr := Nat.two_pow_pos f.fb
  have hlt := emax_lt (f := f)
  rw [maxPat_eq_parts hf, decode_parts hf (by omega) (by omega), if_neg (by omega), if_neg (by omega), pow_succ]
  congr 1 <;> omega

theorem maxPat_lt : f.maxPat neg < 2 ^ f.width := by
  have hfr := Nat.two_pow_pos f.fb
  have hlt := emax_lt (f := f)
  rw [maxPat_eq_parts hf]
  exact parts_lt (by omega) (by omega)

end

/-! ### Packed results -/

/-- q · 2^x is written with at most fb + 1 bits, and with fewer than that at the least exponent alone. -/
def Fp.packable (f : Fp) (q : Nat) (x : Int) : Prop := q < 2 ^ (f.fb + 1) ∧ f.emin ≤ x ∧ (q < 2 ^ f.fb → x = f.emin)

/-- The number above the largest finite value where the magnitudes would go on without an upper bound. -/
noncomputable def Fp.top (f : Fp) : ℝ := 2 ^ ((f.emax : Int) - f.bias)

section
variable {f : Fp} (hf : f.std) {neg : Bool} {q : Nat} {x : Int}

theorem top_eq (f : Fp) : f.top = 2 ^ (f.emin + f.emax - 1 + f.fb) := by
  rw [Fp.top, Fp.emin]
  congr 1
  ring

/-- The exponent field of the packed pattern. -/
def Fp.packEx (f : Fp) (q : Nat) (x : Int) : Nat := if q < 2 ^ f.fb then 0 else (x - f.emin).toNat + 1

theorem pack_eq_parts (h : f.packable q x) : f.pack neg q x = f.parts neg (f.packEx q x) (q % 2 ^ f.fb) := by
  obtain ⟨hq, -, -⟩ := h
  rw [pow_succ] at hq
  rw [Fp.pack, Fp.packEx, Fp.parts, pow_add]
  by_cases hlt : q < 2 ^ f.fb
  · rw [if_pos hlt, if_pos hlt, Nat.mod_eq_of_lt hlt, add_zero, mul_assoc]
  · rw [if_neg hlt, if_neg hlt, Nat.mod_eq_sub_mod (not_lt.mp hlt), Nat.mod_eq_of_lt (by omega),
      add_mul (b2n neg * 2 ^ f.eb), mul_assoc]

include hf

theorem over_eq : f.over q x = true ↔ f.emax ≤ f.packEx q x := by
  have hmax := three_le_emax hf
  obtain ⟨hinf, -, -⟩ := hf
  rw [Fp.over, Fp.packEx]
  by_cases hlt : q < 2 ^ f.fb
  · simp only [if_pos hlt]
    simp
    omega
  · simp only [if_neg hlt, if_pos hinf, decide_eq_true_eq]

theorem packEx_lt (hover : f.over q x = false) : f.packEx q x < f.emax :=
  not_le.mp (mt (over_eq hf).mpr (Bool.eq_false_iff.mp hover))

theorem decode_pack (h : f.packable q x) (hover : f.over q x = false) :
    f.decode (f.pack neg q x) = .fin neg q (if q = 0 then 0 else x) := by
  have hex := packEx_lt hf hover
  have hlt := emax_lt (f := f)
  have hfr := Nat.mod_lt q (Nat.two_pow_pos f.fb)
  rw [pack_eq_parts h, decode_parts hf (by omega) hfr, if_neg hex.ne]
  obtain ⟨hq, hx, hsub⟩ := h
  rw [pow_succ] at hq
  rw [Fp.packEx]
  by_cases hq1 : q < 2 ^ f.fb
  · rw [if_pos hq1, if_pos rfl, Nat.mod_eq_of_lt hq1, hsub hq1]
  · have hpos := Nat.two_pow_pos f.fb
    rw [if_neg hq1, if_neg (Nat.succ_ne_zero _), Nat.mod_eq_sub_mod (not_lt.mp hq1), Nat.mod_eq_of_lt (by omega),
      if_neg (by omega)]
    congr 1 <;> omega

theorem pack_lt (h : f.packable q x) (hover : f.over q x = false) : f.pack neg q x < 2 ^ f.width := by
  have hex := packEx_lt hf hover
  have hlt := emax_lt (f := f)
  rw [pack_eq_parts h]
  exact parts_lt (by omega) (Nat.mod_lt q (Nat.two_pow_pos f.fb))

theorem pack_sign (h : f.packable q x) (hover : f.over q x = false) : bit (f.pack neg q x) (f.eb + f.fb) = neg := by
  have hex := packEx_lt hf hover
  have hlt := emax_lt (f := f)
  rw [pack_eq_parts h]
  exact parts_sign (by omega) (Nat.mod_lt q (Nat.two_pow_pos f.fb))

theorem pack_parity (h : f.packable q x) : f.pack neg q x % 2 = q % 2 := by
  rw [pack_eq_parts h, parts_parity hf]
  exact Nat.mod_mod_of_dvd q (dvd_pow_self 2 (Nat.pos_iff_ne_zero.mp hf.2.1))

/-- A result is over where its value is not below the power of two after the largest finite value. -/
theorem over_iff (h : f.packable q x) : f.over q x = true ↔ f.top ≤ (q : ℝ) * 2 ^ x := by
  rw [over_eq hf, top_eq]
  have hmax := three_le_emax hf
  obtain ⟨hq, hx, hsub⟩ := h
  have hx0 := two_zpow_pos x
  have hup (k : Nat) (hk : q < 2 ^ k) : (q : ℝ) * 2 ^ x < 2 ^ (x + k) := by
    rw [add_comm x, two_zpow_add, mul_lt_mul_iff_left₀ hx0, zpow_natCast]
    exact_mod_cast hk
  rw [Fp.packEx]
  by_cases hq1 : q < 2 ^ f.fb
  · rw [if_pos hq1]
    refine ⟨by omega, fun htop => ?_⟩
    have := two_zpow_lt.mp (htop.trans_lt (hup _ hq1))
    have := hsub hq1
    omega
  · rw [if_neg hq1]
    refine ⟨fun hle => ?_, fun htop => ?_⟩
    · calc (2 : ℝ) ^ (f.emin + f.emax - 1 + f.fb) ≤ 2 ^ ((f.fb : Int) + x) := two_zpow_le.mpr (by omega)
        _ = 2 ^ f.fb * 2 ^ x := by rw [two_zpow_add, zpow_natCast]
        _ ≤ q * 2 ^ x := mul_le_mul_of_nonneg_right (by exact_mod_cast not_lt.mp hq1) hx0.le
    · have := two_zpow_lt.mp (htop.trans_lt (hup _ hq))
      push_cast at this
      omega

end

/-! ### The numbers of the finite patterns -/

theorem toReal_fin (neg : Bool) (m : Nat) (e : Int) :
    ((Val.fin neg m e).toRat : ℝ) = if neg then -((m : ℝ) * 2 ^ e) else (m : ℝ) * 2 ^ e := by
  rw [toRat_fin, signOf]
  cases neg <;> push_cast <;> simp

theorem abs_toReal_fin (neg : Bool) (m : Nat) (e : Int) : |((Val.fin neg m e).toRat : ℝ)| = (m : ℝ) * 2 ^ e := by
  have h0 : (0 : ℝ) ≤ (m : ℝ) * 2 ^ e := mul_nonneg (Nat.cast_nonneg m) (two_zpow_pos e).le
  rw [toReal_fin]
  cases neg
  · exact abs_of_nonneg h0
  · rw [if_pos rfl, abs_neg, abs_of_nonneg h0]

/-- The significand and the exponent of a finite pattern. -/
theorem fin_of_decode {f : Fp} (hf : f.std) {v : Nat} (h : (f.decode v).isFin = true) :
    ∃ m e, f.decode v = .fin (bit v (f.eb + f.fb)) m e ∧ m < 2 ^ (f.fb + 1) ∧
      (m ≠ 0 → f.emin ≤ e ∧ e ≤ f.emin + f.emax - 2) := by
  have hmax := three_le_emax hf
  have hfr := Nat.mod_lt v (Nat.two_pow_pos f.fb)
  have hex := Nat.mod_lt (v / 2 ^ f.fb) (Nat.two_pow_pos f.eb)
  rw [decode_of_fields hf rfl rfl rfl] at h ⊢
  rw [pow_succ]
  by_cases h1 : v / 2 ^ f.fb % 2 ^ f.eb = f.emax
  · rw [if_pos h1] at h
    split at h <;> cases h
  · have hlt : v / 2 ^ f.fb % 2 ^ f.eb < f.emax := by
      have : f.emax = 2 ^ f.eb - 1 := rfl
      omega
    rw [if_neg h1]
    by_cases h2 : v / 2 ^ f.fb % 2 ^ f.eb = 0
    · rw [if_pos h2]
      refine ⟨_, _, rfl, by omega, fun h0 => ?_⟩
      rw [if_neg h0]
      omega
    · rw [if_neg h2]
      exact ⟨_, _, rfl, by omega, fun _ => by omega⟩

/-- The magnitude of a finite pattern. -/
theorem abs_of_hasValue {f : Fp} (hf : f.std) {c : ℝ} (h : f.hasValue c) :
    ∃ (m : Nat) (e : Int), |c| = (m : ℝ) * 2 ^ e ∧ m < 2 ^ (f.fb + 1) ∧ f.emin ≤ e ∧ e ≤ f.emin + f.emax - 2 := by
  obtain ⟨v, hfin, rfl⟩ := h
  obtain ⟨m, e, hdec, hm, he⟩ := fin_of_decode hf hfin
  rw [hdec, abs_toReal_fin]
  by_cases h0 : m = 0
  · have hmax := three_le_emax hf
    refine ⟨0, f.emin, ?_, Nat.two_pow_pos _, le_rfl, by omega⟩
    simp [h0]
  · exact ⟨m, e, rfl, hm, he h0⟩

/-- The largest finite value. -/
noncomputable def Fp.largest (f : Fp) : ℝ := ((2 ^ (f.fb + 1) - 1 : Nat) : ℝ) * 2 ^ (f.emin + f.emax - 2)

theorem abs_le_largest {f : Fp} (hf : f.std) {c : ℝ} (h : f.hasValue c) : |c| ≤ f.largest := by
  obtain ⟨m, e, hc, hm, -, he⟩ := abs_of_hasValue hf h
  rw [hc, Fp.largest]
  exact mul_le_mul (by exact_mod_cast Nat.le_sub_one_of_lt hm) (two_zpow_le.mpr he) (two_zpow_pos e).le (Nat.cast_nonneg _)

theorem largest_lt_top (f : Fp) : f.largest < f.top := by
  have hlt : 2 ^ (f.fb + 1) - 1 < 2 ^ (f.fb + 1) := Nat.sub_lt (Nat.two_pow_pos _) one_pos
  have hexp : f.emin + f.emax - 1 + f.fb = ((f.fb + 1 : Nat) : Int) + (f.emin + f.emax - 2) := by push_cast; ring
  rw [top_eq, Fp.largest, hexp, two_zpow_add, mul_lt_mul_iff_left₀ (two_zpow_pos _), zpow_natCast]
  exact_mod_cast hlt

/-- No finite value lies inside a cell of the grids that the format's results are rounded to. -/
theorem clearOf_of_hasValue {f : Fp} (hf : f.std) {g : Int} {q : Nat} (hq : q < 2 ^ f.fb → g = f.emin) {c : ℝ}
    (h : f.hasValue c) : clearOf g q c ∧ clearOf g q (-c) := by
  apply clearOf_of_abs
  obtain ⟨m, e, hc, hm, he, -⟩ := abs_of_hasValue hf h
  rw [hc, clearOf]
  have hg0 := two_zpow_pos g
  by_cases hge : g ≤ e
  · have hexp : (2 : ℝ) ^ e = 2 ^ (e - g).toNat * 2 ^ g := by rw [two_zpow_toNat (by omega), ← two_zpow_add, sub_add_cancel]
    rw [hexp, ← mul_assoc, mul_le_mul_iff_left₀ hg0, mul_le_mul_iff_left₀ hg0]
    have := le_or_gt (m * 2 ^ (e - g).toNat) q
    exact_mod_cast this
  · have hbig : 2 ^ f.fb ≤ q := not_lt.mp fun hlt => by
      have := hq hlt
      omega
    left
    calc (m : ℝ) * 2 ^ e ≤ 2 ^ (f.fb + 1) * 2 ^ e := mul_le_mul_of_nonneg_right (by exact_mod_cast hm.le) (two_zpow_pos e).le
      _ = 2 ^ f.fb * 2 ^ (e + 1) := by rw [two_zpow_add, zpow_one, pow_succ]; ring
      _ ≤ q * 2 ^ g := mul_le_mul (by exact_mod_cast hbig) (two_zpow_le.mpr (by omega)) (two_zpow_pos _).le (Nat.cast_nonneg q)

end Sys2Proof.Machine
end

section
/-! The rounding of a scalar result (R125, R126): what it gives for each mode, and the flags of, uf and nx. -/

namespace Sys2Proof.Machine

open Sys2Proof.Laws

/-! ### Signs and directions -/

/-- The number with this sign and magnitude. -/
def signedBy (neg : Bool) (b : ℝ) : ℝ := if neg then -b else b

theorem signedBy_abs {x : ℝ} {neg : Bool} (h : neg = true ↔ x < 0) : signedBy neg |x| = x := by
  rw [signedBy]
  by_cases hx : x < 0
  · rw [if_pos (h.mpr hx), abs_of_neg hx, neg_neg]
  · rw [if_neg (mt h.mp hx), abs_of_nonneg (not_lt.mp hx)]

theorem abs_signedBy {neg : Bool} {b : ℝ} (h : 0 ≤ b) : |signedBy neg b| = b := by
  cases neg
  · exact abs_of_nonneg h
  · exact (abs_neg b).trans (abs_of_nonneg h)

theorem toReal_fin_signedBy (neg : Bool) (m : Nat) (e : Int) : ((Val.fin neg m e).toRat : ℝ) = signedBy neg (m * 2 ^ e) :=
  toReal_fin neg m e

/-- The mode rounds this sign away from zero. -/
def roundsAway (rm : Rm) (neg : Bool) : Prop := (rm = .rtn ∧ neg = true) ∨ (rm = .rtp ∧ neg = false)

section
variable {rm : Rm} {neg : Bool} {b : ℝ} {g : Int} {q n : Nat}

theorem goesUp_of_away (h : roundsAway rm neg) : goesUp rm neg b g q ↔ (q : ℝ) * 2 ^ g < b := by
  obtain ⟨rfl, rfl⟩ | ⟨rfl, rfl⟩ := h <;> exact and_iff_right rfl

theorem not_goesUp_of_toward (hn : rm ≠ .rne) (h : ¬roundsAway rm neg) : ¬goesUp rm neg b g q := by
  cases rm with
  | rne => exact absurd rfl hn
  | rtn => exact fun hg => h (.inl ⟨rfl, hg.1⟩)
  | rtp => exact fun hg => h (.inr ⟨rfl, hg.1⟩)
  | rtz => exact id

theorem tiny_eq {f : Fp} {x : ℝ} (hx : x ≠ 0) (hneg : neg = true ↔ x < 0) :
    f.tiny rm x ↔ (rm = .rne ∧ |x| < 2 ^ (f.emin + f.fb) - 2 ^ (f.emin - 1) / 2) ∨
      (roundsAway rm neg ∧ |x| ≤ 2 ^ (f.emin + f.fb) - 2 ^ (f.emin - 1)) ∨
      (rm ≠ .rne ∧ ¬roundsAway rm neg ∧ |x| < 2 ^ (f.emin + f.fb)) := by
  have hpos : neg = false ↔ 0 < x := by
    rw [← Bool.not_eq_true, hneg, not_lt, lt_iff_le_and_ne]
    exact (and_iff_left hx.symm).symm
  simp only [Fp.tiny, roundsAway, hneg, hpos]

/-! ### Tininess -/

/-- The three ways to be tiny, for a magnitude and its cell in the grid without a lower bound just below the least normal value: P is the number
of its steps up to that value, S the step. -/
theorem tiny_at_boundary {P : Nat} {S : ℝ} (hS : 0 < S) (hg : (2 : ℝ) ^ g = S) (hc : inCell b g q) (hq : q < P) (hP : P % 2 = 0)
    (ht : takes rm neg b g q n) :
    ((rm = .rne ∧ b < P * S - S / 2) ∨ (roundsAway rm neg ∧ b ≤ P * S - S) ∨
      (rm ≠ .rne ∧ ¬roundsAway rm neg ∧ b < P * S)) ↔ n < P := by
  obtain ⟨hlo, hhi⟩ := hc
  have hn := takes_le ht
  obtain ⟨hup, hdown⟩ := ht
  rw [hg] at hlo hhi
  by_cases hlast : q + 1 = P
  · have hcast : (P : ℝ) = q + 1 := by rw [← hlast, Nat.cast_succ]
    have hiff : n < P ↔ ¬goesUp rm neg b g q := by
      by_cases hgo : goesUp rm neg b g q
      · have := hup hgo
        exact iff_of_false (by omega) (not_not.mpr hgo)
      · have := hdown hgo
        exact iff_of_true (by omega) hgo
    rw [hiff]
    by_cases hrne : rm = .rne
    · have hodd : q % 2 = 1 := by omega
      have haway : ¬roundsAway rm neg := by
        rw [hrne]
        simp [roundsAway]
      simp only [hrne, goesUp, midpoint_eq, hg, hodd, hcast] at haway ⊢
      simp only [haway, false_and, or_false, true_and, and_true, ne_eq, not_true_eq_false]
      rw [← le_iff_lt_or_eq, not_le]
      ring_nf
    · by_cases haway : roundsAway rm neg
      · rw [goesUp_of_away haway, hg, not_lt, hcast]
        simp only [hrne, haway, false_and, false_or, true_and, not_true_eq_false, and_false, or_false]
        ring_nf
      · simp only [hrne, haway, false_and, false_or, true_and, not_false_eq_true, ne_eq, hcast]
        exact iff_of_true hhi (not_goesUp_of_toward hrne haway)
  · have hroom : ((q : ℝ) + 1) * S ≤ P * S - S := by
      have : ((q : ℝ) + 1 + 1) ≤ P := by exact_mod_cast (by omega : q + 1 + 1 ≤ P)
      have := mul_le_mul_of_nonneg_right this hS.le
      linarith
    refine iff_of_true ?_ (by omega)
    by_cases hrne : rm = .rne
    · exact .inl ⟨hrne, by linarith⟩
    · by_cases haway : roundsAway rm neg
      · exact .inr (.inl ⟨haway, by linarith⟩)
      · exact .inr (.inr ⟨hrne, haway, by linarith⟩)

theorem tiny_iff {f : Fp} {x : ℝ} (hx : x ≠ 0) (hneg : neg = true ↔ x < 0) (hc : inCell |x| g q)
    (hge : 2 ^ f.fb ≤ q) (hq : q < 2 ^ (f.fb + 1)) (ht : takes rm neg |x| g q n) :
    f.tiny rm x ↔ (n : ℝ) * 2 ^ g < 2 ^ (f.emin + f.fb) := by
  rw [tiny_eq hx hneg]
  have hg := two_zpow_pos g
  have hn := takes_le ht
  have hstep := two_zpow_pos (f.emin - 1)
  have hlow : (2 : ℝ) ^ (g + f.fb) ≤ q * 2 ^ g := by
    rw [add_comm, two_zpow_add, zpow_natCast]
    exact mul_le_mul_of_nonneg_right (by exact_mod_cast hge) hg.le
  have hhigh : ((q : ℝ) + 1) * 2 ^ g ≤ 2 ^ (g + f.fb + 1) := by
    rw [add_assoc, add_comm g, two_zpow_add, show (f.fb : Int) + 1 = ((f.fb + 1 : Nat) : Int) by push_cast; rfl, zpow_natCast]
    exact mul_le_mul_of_nonneg_right (by exact_mod_cast Nat.succ_le_of_lt hq) hg.le
  have hnq : (q : ℝ) * 2 ^ g ≤ n * 2 ^ g := mul_le_mul_of_nonneg_right (by exact_mod_cast hn.1) hg.le
  have hnq1 : (n : ℝ) * 2 ^ g ≤ (q + 1) * 2 ^ g := mul_le_mul_of_nonneg_right (by exact_mod_cast hn.2) hg.le
  rcases lt_trichotomy g (f.emin - 1) with hlt | heq | hgt
  case inl =>
    have hhalf : (2 : ℝ) ^ (g + f.fb + 1) ≤ 2 ^ (f.emin + f.fb - 1) := two_zpow_le.mpr (by omega)
    have hleast := two_mul_half (f.emin + f.fb)
    have hsmall : (2 : ℝ) ^ (f.emin - 1) ≤ 2 ^ (f.emin + f.fb - 1) := two_zpow_le.mpr (by omega)
    obtain ⟨-, hb⟩ := hc
    refine iff_of_true ?_ (by linarith [two_zpow_pos (f.emin + f.fb - 1)])
    by_cases hrne : rm = .rne
    · exact .inl ⟨hrne, by linarith⟩
    · by_cases haway : roundsAway rm neg
      · exact .inr (.inl ⟨haway, by linarith⟩)
      · exact .inr (.inr ⟨hrne, haway, by linarith⟩)
  case inr.inl =>
    have hP : (2 : ℝ) ^ (f.emin + f.fb) = (2 ^ (f.fb + 1) : Nat) * 2 ^ (f.emin - 1) := by
      rw [Nat.cast_pow, Nat.cast_ofNat, ← zpow_natCast, ← two_zpow_add]
      congr 1
      push_cast
      ring
    rw [hP, tiny_at_boundary hstep (by rw [heq]) hc hq (Nat.pow_mod 2 (f.fb + 1) 2 ▸ by simp) ht, heq, mul_lt_mul_iff_left₀ hstep,
      Nat.cast_lt]
  case inr.inr =>
    have hbig : (2 : ℝ) ^ (f.emin + f.fb) ≤ 2 ^ (g + f.fb) := two_zpow_le.mpr (by omega)
    obtain ⟨hb, -⟩ := hc
    refine iff_of_false ?_ (by linarith)
    rintro (⟨-, h⟩ | ⟨-, h⟩ | ⟨-, -, h⟩) <;> linarith

/-- How the model compares a rounded magnitude with a power of two. -/
theorem ratLog_add_lt_iff {m : Nat} (hm : 0 < m) (x k : Int) : ratLog m 1 + x < k ↔ (m : ℝ) * 2 ^ x < 2 ^ k := by
  obtain ⟨hlo, hhi⟩ := scaled_bounds hm one_pos x
  rw [scaled, Nat.cast_one, div_one] at hlo hhi
  exact ⟨fun h => hhi.trans_le (two_zpow_le.mpr (by omega)), fun h => two_zpow_lt.mp (hlo.trans_lt h)⟩

end

/-! ### The value of a result below the largest finite value -/

section
variable {f : Fp} (hf : f.std) {rm : Rm} {neg : Bool} {x : ℝ} {g : Int} {q n : Nat} (hq : f.packable q g) (hc : inCell |x| g q)
  (hneg : neg = true ↔ x < 0)
include hf hq hc hneg

theorem nearest_of_takes (ht : takes .rne neg |x| g q n) {c : ℝ} (hv : f.hasValue c) :
    |signedBy neg (n * 2 ^ g) - x| ≤ |c - x| ∧
      (c ≠ signedBy neg (n * 2 ^ g) → |signedBy neg (n * 2 ^ g) - x| = |c - x| → n % 2 = 0) := by
  obtain ⟨hclear, hclear'⟩ := clearOf_of_hasValue hf hq.2.2 hv
  have hx := signedBy_abs hneg
  generalize |x| = b at *
  subst hx
  cases neg with
  | false => exact takes_nearest hc ht hclear
  | true =>
    obtain ⟨hle, heq⟩ := takes_nearest hc ht hclear'
    rw [signedBy, signedBy, if_pos rfl, if_pos rfl, ← neg_sub', abs_neg, sub_neg_eq_add, ← abs_neg (c + b), neg_add']
    exact ⟨hle, fun hne h => heq (fun h' => hne (by rw [← h', neg_neg])) h⟩

theorem down_of_takes (ht : takes .rtn neg |x| g q n) :
    signedBy neg (n * 2 ^ g) ≤ x ∧ ∀ c, f.hasValue c → c ≤ x → c ≤ signedBy neg (n * 2 ^ g) := by
  have hx := signedBy_abs hneg
  generalize |x| = b at *
  subst hx
  cases neg with
  | false =>
    obtain ⟨hle, hgreatest⟩ := floorsTo_of_not_goesUp hc ht (not_goesUp_of_toward Rm.noConfusion (by simp [roundsAway]))
    exact ⟨hle, fun c hv hcx => hgreatest c (clearOf_of_hasValue hf hq.2.2 hv).1 hcx⟩
  | true =>
    obtain ⟨hle, hleast⟩ := ceilsTo_of_away hc ht (goesUp_of_away (.inl ⟨rfl, rfl⟩))
    exact ⟨neg_le_neg hle, fun c hv hcx => le_neg.mpr (hleast (-c) (clearOf_of_hasValue hf hq.2.2 hv).2 (le_neg.mp hcx))⟩

theorem up_of_takes (ht : takes .rtp neg |x| g q n) :
    x ≤ signedBy neg (n * 2 ^ g) ∧ ∀ c, f.hasValue c → x ≤ c → signedBy neg (n * 2 ^ g) ≤ c := by
  have hx := signedBy_abs hneg
  generalize |x| = b at *
  subst hx
  cases neg with
  | false =>
    obtain ⟨hle, hleast⟩ := ceilsTo_of_away hc ht (goesUp_of_away (.inr ⟨rfl, rfl⟩))
    exact ⟨hle, fun c hv hcx => hleast c (clearOf_of_hasValue hf hq.2.2 hv).1 hcx⟩
  | true =>
    obtain ⟨hle, hgreatest⟩ := floorsTo_of_not_goesUp hc ht (not_goesUp_of_toward Rm.noConfusion (by simp [roundsAway]))
    exact ⟨neg_le_neg hle, fun c hv hcx => neg_le.mpr (hgreatest (-c) (clearOf_of_hasValue hf hq.2.2 hv).2 (neg_le.mp hcx))⟩

theorem toZero_of_takes (ht : takes .rtz neg |x| g q n) :
    0 ≤ signedBy neg (n * 2 ^ g) * x ∧ |signedBy neg (n * 2 ^ g)| ≤ |x| ∧
      ∀ c, f.hasValue c → |c| ≤ |x| → |c| ≤ |signedBy neg (n * 2 ^ g)| := by
  have hn0 : (0 : ℝ) ≤ (n : ℝ) * 2 ^ g := mul_nonneg (Nat.cast_nonneg n) (two_zpow_pos g).le
  obtain ⟨hle, hgreatest⟩ := floorsTo_of_not_goesUp hc ht (not_goesUp_of_toward Rm.noConfusion (by simp [roundsAway]))
  have habs (c : ℝ) (hv : f.hasValue c) : clearOf g q |c| := by
    obtain ⟨hclear, hclear'⟩ := clearOf_of_hasValue hf hq.2.2 hv
    rcases abs_choice c with h | h <;> rw [h]
    · exact hclear
    · exact hclear'
  rw [abs_signedBy hn0]
  refine ⟨?_, hle, fun c hv hcx => hgreatest _ (habs c hv) hcx⟩
  have hx := signedBy_abs hneg
  have hb := abs_nonneg x
  generalize |x| = b at *
  subst hx
  cases neg with
  | false => exact mul_nonneg hn0 hb
  | true => exact (neg_mul_neg (n * 2 ^ g : ℝ) b).symm ▸ mul_nonneg hn0 hb

end

end Sys2Proof.Machine
end

section
/-! The scalar rounding of the model meets R125 and R126: zero, a result below the largest finite value, and overflow. -/

namespace Sys2Proof.Machine

open Sys2Proof.Laws

theorem scalarRound_eq (f : Fp) (rm : Rm) (neg : Bool) (num den : Nat) (e : Int) :
    f.scalarRound rm neg num den e =
      let r := roundBits rm neg (f.fb + 1) (some f.emin) num den e
      let u := roundBits rm neg (f.fb + 1) none num den e
      if f.over r.1 r.2.1 then (if rm.toInf neg then f.infPat neg else f.maxPat neg, 34)
      else (f.pack neg r.1 r.2.1, fOr (if r.2.2 then fNx else 0)
        (if (decide (u.1 ≠ 0) && decide (ratLog u.1 1 + u.2.1 < f.emin + f.fb)) && r.2.2 then fUf else 0)) := rfl

theorem scalarRound_zero (f : Fp) (rm : Rm) (neg : Bool) (den : Nat) (e : Int) :
    f.scalarRound rm neg 0 den e = (f.pack neg 0 0, 0) := by
  rw [scalarRound_eq]
  simp [roundBits, Fp.over, fOr]

/-- The flags of a result that does not overflow. -/
theorem flags_of_rounding (i t : Bool) :
    let fl := fOr (if i then fNx else 0) (if t then fUf else 0)
    fl < 64 ∧ fl &&& 13 = 0 ∧ bit fl 5 = i ∧ bit fl 4 = t ∧ bit fl 1 = false := by
  cases i <;> cases t <;> decide

section
variable {f : Fp} (hf : f.std) {rm : Rm} {neg : Bool} {x : ℝ} {z : Bool}

theorem packable_gridOf {q : Nat} {g : Int} (hq : q < 2 ^ (f.fb + 1))
    (hfull : gridOf (some f.emin) g = g → 2 ^ (f.fb + 1 - 1) ≤ q) : f.packable q (gridOf (some f.emin) g) := by
  rw [gridOf_some] at hfull ⊢
  refine ⟨hq, by split <;> omega, fun h => ?_⟩
  by_cases hlow : g < f.emin
  · exact if_pos hlow
  · exact absurd h (not_lt.mpr (hfull (if_neg hlow)))

include hf

/-- A zero is exact, and has the sign given. -/
theorem roundsTo_zero (hneg : neg = true ↔ (0 : ℝ) < 0 ∨ ((0 : ℝ) = 0 ∧ z = true)) : f.roundsTo rm 0 z (f.pack neg 0 0) 0 := by
  have hmax := three_le_emax hf
  have hpack : f.packable 0 f.emin := ⟨Nat.two_pow_pos _, le_rfl, fun _ => rfl⟩
  have hover : f.over 0 f.emin = false := if_pos (Nat.two_pow_pos _)
  have hsame : f.pack neg 0 0 = f.pack neg 0 f.emin := by
    rw [Fp.pack, Fp.pack, if_pos (Nat.two_pow_pos _), if_pos (Nat.two_pow_pos _)]
  have hval : ((f.decode (f.pack neg 0 f.emin)).toRat : ℝ) = 0 := by
    rw [decode_pack hf hpack hover, toRat_fin, Nat.cast_zero, mul_zero, zero_mul, Rat.cast_zero]
  have hfin : (f.decode (f.pack neg 0 f.emin)).isFin = true := by rw [decode_pack hf hpack hover]; rfl
  rw [hsame]
  refine ⟨by decide, by decide, fun _ => ?_, fun h => absurd (hfin.symm.trans h) Bool.noConfusion⟩
  rw [hval]
  refine ⟨fun _ c _ => ⟨by simp, fun hc h => absurd (by simpa using h.symm) hc⟩, fun _ => ⟨le_rfl, fun c _ h => h⟩,
    fun _ => ⟨le_rfl, fun c _ h => h⟩, fun _ => ⟨by simp, le_rfl, fun c _ h => h⟩, fun _ => ?_, by simp [bit], by simp [bit], ?_⟩
  · rw [pack_sign hf hpack hover]
    exact hneg
  · rw [abs_zero]
    exact iff_of_false (by decide) (not_le.mpr (two_zpow_pos _))

theorem packable_of_roundsCell {b : ℝ} {g : Int} {q n : Nat} {r : Nat × Int × Bool} (hq : f.packable q g)
    (ht : takes rm neg b g q n) (hr : roundsCell (f.fb + 1) n g b q r) : f.packable r.1 r.2.1 ∧ r.1 % 2 = n % 2 := by
  obtain ⟨hq, hg, hsub⟩ := hq
  obtain ⟨hqn, -⟩ := takes_le ht
  obtain ⟨-, ⟨hn, h1, h2⟩ | ⟨hn, h1, h2⟩⟩ := hr
  · rw [h1, h2]
    exact ⟨⟨hn, hg, fun h => hsub (by omega)⟩, rfl⟩
  · rw [h1, h2, hn, Nat.add_sub_cancel]
    refine ⟨⟨Nat.pow_lt_pow_right one_lt_two (Nat.lt_succ_self _), by omega, fun h => absurd h (lt_irrefl _)⟩, ?_⟩
    obtain ⟨-, hfb, -⟩ := hf
    rw [Nat.pow_mod, Nat.pow_mod 2 (f.fb + 1)]
    simp [Nat.pos_iff_ne_zero.mp hfb]

/-- A cell below the power of two after the largest finite value lies below it whole. -/
theorem succ_le_top {g : Int} {q : Nat} (hq : f.packable q g) (h : (q : ℝ) * 2 ^ g < f.top) : ((q : ℝ) + 1) * 2 ^ g ≤ f.top := by
  have hmax := three_le_emax hf
  have hg := two_zpow_pos g
  obtain ⟨hq, hlo, hsub⟩ := hq
  rw [top_eq] at h ⊢
  have hle : g ≤ f.emin + f.emax - 1 + f.fb := by
    by_cases hs : q < 2 ^ f.fb
    · rw [hsub hs]
      omega
    · have h1 : (2 : ℝ) ^ ((f.fb : Int) + g) ≤ q * 2 ^ g := by
        rw [two_zpow_add, zpow_natCast]
        exact mul_le_mul_of_nonneg_right (by exact_mod_cast not_lt.mp hs) hg.le
      have := two_zpow_lt.mp (h1.trans_lt h)
      omega
  have hpow : (2 : ℝ) ^ (f.emin + f.emax - 1 + f.fb) = (2 ^ (f.emin + f.emax - 1 + f.fb - g).toNat : Nat) * 2 ^ g := by
    rw [Nat.cast_pow, Nat.cast_ofNat, two_zpow_toNat (by omega), ← two_zpow_add, sub_add_cancel]
  rw [hpow, mul_lt_mul_iff_left₀ hg, Nat.cast_lt] at h
  rw [hpow, mul_le_mul_iff_left₀ hg]
  exact_mod_cast h

section
variable (hx : x ≠ 0) (hneg : neg = true ↔ x < 0) {g : Int} {q n : Nat} (hq : f.packable q g) (hc : inCell |x| g q)
  (ht : takes rm neg |x| g q n) {r : Nat × Int × Bool} (hr : roundsCell (f.fb + 1) n g |x| q r)
include hx hneg hq hc ht hr

/-- The value taken is packed, exact or not. -/
theorem roundsTo_pack (hover : f.over r.1 r.2.1 = false) {t : Bool} (htiny : t = true ↔ f.tiny rm x) :
    f.roundsTo rm x z (f.pack neg r.1 r.2.1) (fOr (if r.2.2 then fNx else 0) (if t && r.2.2 then fUf else 0)) := by
  obtain ⟨hpack, hpar⟩ := packable_of_roundsCell hf hq ht hr
  have hval : ((f.decode (f.pack neg r.1 r.2.1)).toRat : ℝ) = signedBy neg (n * 2 ^ g) := by
    rw [decode_pack hf hpack hover, toReal_fin_signedBy, ← roundsCell_value (Nat.le_add_left 1 _) hr]
    by_cases h0 : r.1 = 0 <;> simp [h0]
  have hfin : (f.decode (f.pack neg r.1 r.2.1)).isFin = true := by rw [decode_pack hf hpack hover]; rfl
  have hinex : r.2.2 = true ↔ signedBy neg (n * 2 ^ g) ≠ x := by
    rw [hr.1, takes_ne hc ht]
    conv_rhs => rw [← signedBy_abs hneg]
    cases neg with
    | false => exact Iff.rfl
    | true => exact neg_inj.not.symm
  have hbelow : |x| < f.top := by
    have htop := mt (over_iff hf hpack).mpr (Bool.eq_false_iff.mp hover)
    rw [roundsCell_value (Nat.le_add_left 1 _) hr, not_le] at htop
    have hle : (q : ℝ) * 2 ^ g ≤ n * 2 ^ g := mul_le_mul_of_nonneg_right (by exact_mod_cast (takes_le ht).1) (two_zpow_pos g).le
    exact hc.2.trans_le (succ_le_top hf hq (hle.trans_lt htop))
  obtain ⟨hfl, hother, hnx, huf, hof⟩ := flags_of_rounding r.2.2 (t && r.2.2)
  refine ⟨hfl, hother, fun _ => ?_, fun h => absurd (hfin.symm.trans h) Bool.noConfusion⟩
  rw [hval, hnx, huf, hof]
  refine ⟨fun h c hv => ?nearest, fun h => ?down, fun h => ?up, fun h => ?toZero, fun h0 => ?sign, hinex, ?_, ?_⟩
  case nearest =>
    rw [pack_parity hf hpack, hpar]
    exact nearest_of_takes hf hq hc hneg (h ▸ ht) hv
  case down => exact down_of_takes hf hq hc hneg (h ▸ ht)
  case up => exact up_of_takes hf hq hc hneg (h ▸ ht)
  case toZero => exact toZero_of_takes hf hq hc hneg (h ▸ ht)
  case sign =>
    rw [pack_sign hf hpack hover, hneg]
    exact (or_iff_left fun hz => hx hz.1).symm
  · rw [Bool.and_eq_true, htiny, hinex, and_comm]
  · exact iff_of_false Bool.false_ne_true (not_le.mpr hbelow)

/-- Past the largest finite value a mode that rounds away from zero gives infinity, the others the largest finite value. -/
theorem roundsTo_over (hover : f.over r.1 r.2.1 = true) :
    f.roundsTo rm x z (if rm.toInf neg then f.infPat neg else f.maxPat neg) 34 := by
  obtain ⟨hpack, -⟩ := packable_of_roundsCell hf hq ht hr
  have htop := (over_iff hf hpack).mp hover
  rw [roundsCell_value (Nat.le_add_left 1 _) hr] at htop
  have hlarge := largest_lt_top f
  have hpos : neg = false → 0 < x := fun h => lt_of_le_of_ne (not_lt.mp (mt hneg.mpr (by rw [h]; decide))) hx.symm
  refine ⟨by decide, by decide, ?_, ?_⟩ <;> split
  case _ => rw [decode_infPat hf]; exact fun h => absurd h Bool.noConfusion
  case _ hmode =>
    intro _
    have hstay : ¬goesUp rm neg |x| g q := by
      cases rm with
      | rne => exact absurd rfl hmode
      | rtn => exact fun h => hmode h.1
      | rtp => exact fun h => hmode (congrArg not h.1)
      | rtz => exact id
    have hge : f.top ≤ |x| := by
      rw [ht.2 hstay] at htop
      exact htop.trans hc.1
    have hv : ((f.decode (f.maxPat neg)).toRat : ℝ) = signedBy neg f.largest := by
      rw [decode_maxPat hf, toReal_fin_signedBy, Fp.largest]
    have hlarge0 : 0 < f.largest :=
      mul_pos (Nat.cast_pos.mpr (Nat.sub_pos_of_lt (Nat.one_lt_two_pow (Nat.succ_ne_zero _)))) (two_zpow_pos _)
    have hle (c : ℝ) (hc : f.hasValue c) : -f.largest ≤ c ∧ c ≤ f.largest := abs_le.mp (abs_le_largest hf hc)
    have hne : signedBy neg f.largest ≠ x := fun h => by
      rw [← h, abs_signedBy hlarge0.le] at hge
      linarith
    have hnotiny : ¬f.tiny rm x := fun h => by
      have hbig : (2 : ℝ) ^ (f.emin + f.fb) ≤ f.top := by
        rw [top_eq]
        have := three_le_emax hf
        exact two_zpow_le.mpr (by omega)
      have := two_zpow_pos (f.emin - 1)
      rw [tiny_eq hx hneg] at h
      rcases h with ⟨-, h⟩ | ⟨-, h⟩ | ⟨-, -, h⟩ <;> linarith
    rw [hv]
    refine ⟨fun h => absurd rfl (h ▸ hmode), fun h => ?_, fun h => ?_, fun h => ?_, fun h0 => ?_, iff_of_true (by decide) hne,
      iff_of_false (by decide) fun h => hnotiny h.2, iff_of_true (by decide) hge⟩
    · obtain rfl : neg = false := by simpa [h, Rm.toInf] using hmode
      rw [abs_of_pos (hpos rfl)] at hge
      exact ⟨hlarge.le.trans hge, fun c hv _ => (hle c hv).2⟩
    · obtain rfl : neg = true := by simpa [h, Rm.toInf] using hmode
      rw [abs_of_neg (hneg.mp rfl)] at hge
      exact ⟨by show x ≤ -f.largest; linarith, fun c hv _ => (hle c hv).1⟩
    · rw [abs_signedBy hlarge0.le]
      refine ⟨?_, hlarge.le.trans hge, fun c hv _ => abs_le_largest hf hv⟩
      cases neg with
      | false => exact mul_nonneg hlarge0.le (hpos rfl).le
      | true => exact (mul_pos_of_neg_of_neg (neg_lt_zero.mpr hlarge0) (hneg.mp rfl)).le
    · have := abs_signedBy (neg := neg) hlarge0.le
      rw [h0, abs_zero] at this
      exact absurd this hlarge0.ne
  case _ hmode =>
    intro _
    refine ⟨rfl, fun c hv => ?_, ?_⟩
    · have hcq : |c| < f.top := (abs_le_largest hf hv).trans_lt hlarge
      obtain ⟨hclear, hclear'⟩ := clearOf_of_hasValue hf hq.2.2 hv
      have habs : clearOf g q |c| := by
        rcases abs_choice c with h | h <;> rw [h]
        · exact hclear
        · exact hclear'
      by_cases hgo : goesUp rm neg |x| g q
      · rw [ht.1 hgo, Nat.cast_succ] at htop
        exact (habs.resolve_right fun h => by linarith).trans_lt (lt_of_goesUp hgo)
      · rw [ht.2 hgo] at htop
        exact hcq.trans_le (htop.trans hc.1)
    · rw [decode_infPat hf]
      cases neg with
      | false =>
        refine .inl ⟨rfl, hpos rfl, ?_⟩
        cases rm with
        | rne => exact .inl rfl
        | rtp => exact .inr rfl
        | rtn => exact absurd hmode Bool.false_ne_true
        | rtz => exact absurd hmode Bool.false_ne_true
      | true =>
        refine .inr ⟨rfl, hneg.mp rfl, ?_⟩
        cases rm with
        | rne => exact .inl rfl
        | rtn => exact .inr rfl
        | rtp => exact absurd hmode Bool.false_ne_true
        | rtz => exact absurd hmode Bool.false_ne_true
  case _ => rw [decode_maxPat hf]; exact fun h => absurd h Bool.noConfusion

end

omit hf in
theorem pack_zero_lt (neg : Bool) : f.pack neg 0 0 < 2 ^ f.width := by
  rw [Fp.pack, if_pos (Nat.two_pow_pos _), Fp.width, add_zero, add_assoc, Nat.add_comm 1, pow_succ]
  have := Nat.two_pow_pos (f.eb + f.fb)
  cases neg <;> simp [b2n]

theorem scalarRound_lt {num den : Nat} (hd : 0 < den) (e : Int) : (f.scalarRound rm neg num den e).1 < 2 ^ f.width := by
  by_cases hnum : num = 0
  · rw [hnum, scalarRound_zero]
    exact pack_zero_lt neg
  · obtain ⟨q, n, -, hqlt, hfull, ht, hr⟩ := roundBits_spec (rm := rm) (neg := neg) (Nat.le_add_left 1 f.fb) (some f.emin)
      (Nat.pos_of_ne_zero hnum) hd (cutsAlike_refl (ratLog num den + e - (f.fb + 1 : Nat)) (scaled num den e))
    obtain ⟨hpack, -⟩ := packable_of_roundsCell hf (packable_gridOf hqlt hfull) ht hr
    rw [scalarRound_eq]
    dsimp only
    split
    · dsimp only
      split
      · exact infPat_lt neg
      · exact maxPat_lt hf neg
    · next hover => exact pack_lt hf hpack (Bool.eq_false_iff.mpr hover)

/-- The scalar rounding of a number that the grids of its significand cannot tell from |x| is the rounding of x. -/
theorem scalarRound_roundsTo {num den : Nat} (hd : 0 < den) {e : Int} (hneg : neg = true ↔ x < 0 ∨ (x = 0 ∧ z = true))
    (h0 : num = 0 → x = 0) (hcut : num ≠ 0 → x ≠ 0 ∧ cutsAlike (ratLog num den + e - (f.fb + 1 : Nat)) (scaled num den e) |x|) :
    f.roundsTo rm x z (f.scalarRound rm neg num den e).1 (f.scalarRound rm neg num den e).2 := by
  by_cases hnum : num = 0
  · obtain rfl := h0 hnum
    rw [hnum, scalarRound_zero]
    exact roundsTo_zero hf hneg
  · obtain ⟨hx, hcut⟩ := hcut hnum
    have hneg : neg = true ↔ x < 0 := hneg.trans (or_iff_left fun h => hx h.1)
    have hn := Nat.pos_of_ne_zero hnum
    obtain ⟨q, n, hc, hqlt, hfull, ht, hr⟩ := roundBits_spec (rm := rm) (neg := neg) (Nat.le_add_left 1 f.fb) (some f.emin) hn hd hcut
    obtain ⟨qu, nu, hcu, hqult, hfullu, htu, hru⟩ := roundBits_spec (rm := rm) (neg := neg) (Nat.le_add_left 1 f.fb) none hn hd hcut
    have hge := hfullu rfl
    have hpack := packable_gridOf hqlt hfull
    rw [scalarRound_eq]
    dsimp only
    by_cases hover : f.over (roundBits rm neg (f.fb + 1) (some f.emin) num den e).1
        (roundBits rm neg (f.fb + 1) (some f.emin) num den e).2.1 = true
    · rw [if_pos hover]
      exact roundsTo_over hf hx hneg hpack hc ht hr hover
    · rw [if_neg hover]
      refine roundsTo_pack hf hx hneg hpack hc ht hr (Bool.eq_false_iff.mpr hover) ?_
      have hvalue := roundsCell_value (Nat.le_add_left 1 f.fb) hru
      have hupos : 0 < (roundBits rm neg (f.fb + 1) none num den e).1 := by
        obtain ⟨-, ⟨-, h1, -⟩ | ⟨-, h1, -⟩⟩ := hru
        · rw [h1]
          have := (takes_le htu).1
          have := Nat.two_pow_pos f.fb
          rw [Nat.add_sub_cancel] at hge
          omega
        · rw [h1]
          exact Nat.two_pow_pos _
      rw [tiny_iff hx hneg hcu hge hqult htu, ← hvalue, Bool.and_eq_true, decide_eq_true_eq, decide_eq_true_eq,
        and_iff_right (Nat.pos_iff_ne_zero.mp hupos), ratLog_add_lt_iff hupos]

end

end Sys2Proof.Machine
end

section
/-! Square roots (R125): the integer root by Newton's steps is the floor of the root, and the root with its sticky half falls on the
same side of every grid point of a result as the root itself. -/

namespace Sys2Proof.Machine

open Sys2Proof.Laws

/-! ### Newton's steps -/

section
variable {n x : Nat}

/-- A step from above does not fall below the floor of the root. -/
theorem sqrt_le_newton (n : Nat) {x : Nat} (hx : 0 < x) : Nat.sqrt n ≤ (x + n / x) / 2 := by
  have hs := Nat.sqrt_le' n
  generalize Nat.sqrt n = s at *
  suffices 2 * s - x ≤ n / x by omega
  rw [Nat.le_div_iff_mul_le hx]
  rcases Nat.le_total (2 * s) x with h | h
  · rw [Nat.sub_eq_zero_of_le h, zero_mul]
    exact Nat.zero_le n
  · obtain ⟨z, hz⟩ := Nat.exists_eq_add_of_le h
    rw [hz, Nat.add_sub_cancel_left]
    nlinarith [sq_nonneg ((x : Int) - z)]

/-- Above the floor of the root a step halves the distance to it at least. -/
theorem newton_le (h : Nat.sqrt n < x) : (x + n / x) / 2 ≤ (x + Nat.sqrt n) / 2 := by
  have hs := Nat.lt_succ_sqrt' n
  generalize Nat.sqrt n = s at *
  suffices n / x < s + 1 by omega
  rw [Nat.div_lt_iff_lt_mul (by omega)]
  calc n < (s + 1) ^ 2 := hs
    _ = (s + 1) * (s + 1) := sq _
    _ ≤ (s + 1) * x := Nat.mul_le_mul_left _ h

theorem isqrtGo_eq_sqrt (hn : 0 < n) :
    ∀ (fuel x : Nat), Nat.sqrt n ≤ x → x - Nat.sqrt n < 2 ^ fuel → isqrtGo n fuel x = Nat.sqrt n
  | 0, x, hle, hlt => by
    rw [pow_zero] at hlt
    rw [isqrtGo]
    omega
  | fuel + 1, x, hle, hlt => by
    have hstep := sqrt_le_newton n ((Nat.sqrt_pos.mpr hn).trans_le hle)
    rw [isqrtGo]
    rcases hle.eq_or_lt with heq | hgt
    · rw [if_pos (heq ▸ hstep), heq]
    · have hhalf := newton_le hgt
      rw [pow_succ] at hlt
      rw [if_neg (by omega)]
      exact isqrtGo_eq_sqrt hn fuel _ hstep (by omega)

theorem isqrt_eq_sqrt (n : Nat) : isqrt n = Nat.sqrt n := by
  by_cases h0 : n = 0
  · rw [h0]
    rfl
  · have hn := Nat.pos_of_ne_zero h0
    rw [isqrt, if_neg h0]
    refine isqrtGo_eq_sqrt hn _ _ (Nat.sqrt_lt'.mpr ?_).le ?_
    · calc n < 2 ^ (Nat.log2 n + 1) := Nat.lt_log2_self
        _ ≤ 2 ^ ((Nat.log2 n / 2 + 1) * 2) := Nat.pow_le_pow_right two_pos (by omega)
        _ = (2 ^ (Nat.log2 n / 2 + 1)) ^ 2 := pow_mul ..
    · exact (Nat.sub_le _ _).trans_lt (Nat.pow_lt_pow_right one_lt_two (by omega))

end

/-! ### The root with its sticky half -/

/-- A whole number falls on the same side of the root of n as of the floor of the root with a half for what it leaves. -/
theorem nat_cmp_sqrt (n N : Nat) :
    let s := 2 * Nat.sqrt n + (if Nat.sqrt n * Nat.sqrt n = n then 0 else 1)
    (2 * N < s ↔ (N : ℝ) < Real.sqrt n) ∧ (2 * N = s ↔ (N : ℝ) = Real.sqrt n) := by
  have hlo := Nat.sqrt_le n
  have hhi := Nat.lt_succ_sqrt n
  have h1 : (N : ℝ) < Real.sqrt n ↔ N * N < n := by
    rw [Real.lt_sqrt (Nat.cast_nonneg N), sq]
    exact_mod_cast Iff.rfl
  have h2 : (N : ℝ) = Real.sqrt n ↔ N * N = n := by
    rw [eq_comm, Real.sqrt_eq_iff_mul_self_eq (Nat.cast_nonneg n) (Nat.cast_nonneg N)]
    exact_mod_cast eq_comm
  dsimp only
  rw [h1, h2]
  generalize Nat.sqrt n = s at *
  rcases lt_trichotomy N s with h | h | h
  · have := Nat.mul_self_lt_mul_self h
    split <;> omega
  · rw [h]
    split <;> omega
  · have := Nat.mul_self_le_mul_self (Nat.succ_le_of_lt h)
    split <;> omega

/-- The significand of a root, made even by a factor of two where the exponent is odd, with 2k more bits. -/
def rootArg (p m : Nat) (e : Int) : Nat := (if e % 2 == 1 then 2 * m else m) * 4 ^ (p + 3)

theorem sqrtSticky_eq (p m : Nat) (e : Int) :
    sqrtSticky p m e = (2 * Nat.sqrt (rootArg p m e) + (if Nat.sqrt (rootArg p m e) * Nat.sqrt (rootArg p m e) = rootArg p m e then 0 else 1),
      e / 2 - (p + 3 : Nat) - 1) := by
  rw [← isqrt_eq_sqrt, sqrtSticky]
  dsimp only [rootArg]
  congr 1
  split
  · next h =>
    have : e % 2 = 1 := by simpa using h
    omega
  · rfl

theorem sqrt_rootArg (p m : Nat) (e : Int) :
    Real.sqrt ((m : ℝ) * 2 ^ e) = Real.sqrt (rootArg p m e) * 2 ^ (e / 2 - (p + 3 : Nat)) := by
  have hpow : (m : ℝ) * 2 ^ e = rootArg p m e * (2 ^ (e / 2 - (p + 3 : Nat))) ^ 2 := by
    have h4 : (4 : ℝ) ^ (p + 3) = 2 ^ (2 * (p + 3 : Nat) : Int) := by
      rw [zpow_mul, zpow_natCast]
      norm_num
    have hodd : (if (e % 2 == 1) = true then (2 : ℝ) * m else m) = m * 2 ^ (e % 2) := by
      rcases Int.emod_two_eq_zero_or_one e with h | h <;> simp [h, mul_comm]
    rw [rootArg, Nat.cast_mul, Nat.cast_pow, Nat.cast_ite, Nat.cast_mul, Nat.cast_ofNat, Nat.cast_ofNat, hodd, h4, ← zpow_natCast,
      ← zpow_mul, mul_assoc, mul_assoc, ← two_zpow_add, ← two_zpow_add]
    congr 2
    push_cast
    omega
  rw [hpow, Real.sqrt_mul (Nat.cast_nonneg _), Real.sqrt_sq (two_zpow_pos _).le]

theorem cutsAlike_sqrtSticky {p m : Nat} (hm : 0 < m) (e : Int) :
    let r := sqrtSticky p m e
    0 < r.1 ∧ cutsAlike (ratLog r.1 1 + r.2 - p) (scaled r.1 1 r.2) (Real.sqrt ((m : ℝ) * 2 ^ e)) := by
  rw [sqrtSticky_eq, sqrt_rootArg p m e]
  dsimp only
  have hbig : 2 ^ (p + 3) ≤ Nat.sqrt (rootArg p m e) := by
    rw [Nat.le_sqrt, ← mul_pow, rootArg]
    exact Nat.le_mul_of_pos_left _ (by split <;> omega)
  have hcmp := nat_cmp_sqrt (rootArg p m e)
  dsimp only at hcmp
  generalize (if Nat.sqrt (rootArg p m e) * Nat.sqrt (rootArg p m e) = rootArg p m e then 0 else 1) = st at *
  generalize hX : e / 2 - (p + 3 : Nat) = X
  have hpos : 0 < 2 * Nat.sqrt (rootArg p m e) + st := by have := Nat.two_pow_pos (p + 3); omega
  refine ⟨hpos, fun g j hg => ?_⟩
  have hXpos := two_zpow_pos X
  have hlog : (p : Int) + 2 ≤ ratLog (2 * Nat.sqrt (rootArg p m e) + st) 1 := by
    obtain ⟨-, hup⟩ := ratLog_bounds hpos one_pos
    rw [Nat.cast_one, div_one] at hup
    have h1 : (2 : ℝ) ^ ((p + 3 : Nat) : Int) ≤ (2 * Nat.sqrt (rootArg p m e) + st : Nat) := by
      rw [zpow_natCast]
      exact_mod_cast (by omega : 2 ^ (p + 3) ≤ 2 * Nat.sqrt (rootArg p m e) + st)
    have := two_zpow_lt.mp (h1.trans_lt hup)
    push_cast at this
    omega
  have hgrid : (j : ℝ) * 2 ^ g = (j * 2 ^ (g - X).toNat : Nat) * 2 ^ X := by
    rw [Nat.cast_mul, Nat.cast_pow, Nat.cast_ofNat, two_zpow_toNat (by omega), mul_assoc, ← two_zpow_add, sub_add_cancel]
  have hscaled : scaled (2 * Nat.sqrt (rootArg p m e) + st) 1 (X - 1) = ((2 * Nat.sqrt (rootArg p m e) + st : Nat) : ℝ) / 2 * 2 ^ X := by
    rw [scaled, two_mul_half X]
    push_cast
    ring
  obtain ⟨hlt, heq⟩ := hcmp (j * 2 ^ (g - X).toNat)
  rw [hgrid, hscaled, mul_lt_mul_iff_left₀ hXpos, mul_lt_mul_iff_left₀ hXpos, mul_left_inj' hXpos.ne', mul_left_inj' hXpos.ne', ← hlt,
    ← heq, lt_div_iff₀ two_pos, eq_div_iff two_ne_zero, mul_comm _ (2 : ℝ)]
  exact ⟨by exact_mod_cast Iff.rfl, by exact_mod_cast Iff.rfl⟩

end Sys2Proof.Machine
end

section
/-! The rounding words of CTL (R125, R126, R129): on finite operands each is one rounding of its exact result. -/

namespace Sys2Proof.Machine

open Sys2Proof.Laws

/-! ### Signs of exact results -/

theorem signedBy_eq_mul (n : Bool) (b : ℝ) : signedBy n b = (signOf n : ℝ) * b := by
  cases n <;> simp [signedBy, signOf]

/-- The sign of a number that is given by its sign and magnitude, the sign of a zero included. -/
theorem signedBy_sign (n : Bool) {b : ℝ} (h : 0 ≤ b) : n = true ↔ signedBy n b < 0 ∨ (signedBy n b = 0 ∧ n = true) := by
  cases n with
  | false => exact iff_of_false Bool.false_ne_true (by simp [signedBy, h])
  | true =>
    refine iff_of_true rfl ?_
    rcases h.eq_or_lt with h0 | h0
    · exact .inr ⟨by simp [signedBy, ← h0], rfl⟩
    · exact .inl (neg_lt_zero.mpr h0)

theorem mul_two_zpow_nonneg (m : Nat) (e : Int) : (0 : ℝ) ≤ m * 2 ^ e := mul_nonneg (Nat.cast_nonneg m) (two_zpow_pos e).le

theorem scaled_one (m : Nat) (e : Int) : scaled m 1 e = m * 2 ^ e := by
  rw [scaled, Nat.cast_one, div_one]

/-- The sign of a sum that is zero (IEEE 754). -/
def zeroSumSign (rm : Rm) (m n : Bool) : Bool := if m = n then m else decide (rm = .rtn)

/-- The exact sum, its sign and its magnitude. -/
theorem addFin_spec (rm : Rm) (n1 n2 : Bool) (m1 m2 : Nat) (e1 e2 : Int) :
    let r := addFin rm n1 m1 e1 n2 m2 e2
    let x : ℝ := (Val.fin n1 m1 e1).toRat + (Val.fin n2 m2 e2).toRat
    |x| = r.2.1 * 2 ^ r.2.2 ∧ (r.1 = true ↔ x < 0 ∨ (x = 0 ∧ zeroSumSign rm n1 n2 = true)) := by
  have hsum : ((Val.fin (addFin rm n1 m1 e1 n2 m2 e2).1 (addFin rm n1 m1 e1 n2 m2 e2).2.1 (addFin rm n1 m1 e1 n2 m2 e2).2.2).toRat : ℝ)
      = (Val.fin n1 m1 e1).toRat + (Val.fin n2 m2 e2).toRat := by
    rw [toRat_addFin rfl, Rat.cast_add]
  have heq := addFin_eq rm n1 n2 m1 m2 e1 e2
  dsimp only at heq ⊢
  rw [← hsum, abs_toReal_fin]
  refine ⟨rfl, ?_⟩
  rw [toReal_fin_signedBy]
  by_cases h0 : alignedInt n1 m1 e1 (lowExp e1 e2) + alignedInt n2 m2 e2 (lowExp e1 e2) = 0
  · have hzero : (if m1 = 0 && m2 = 0 && n1 == n2 then n1 else decide (rm = .rtn)) = zeroSumSign rm n1 n2 := by
      rw [zeroSumSign]
      by_cases hn : n1 = n2
      · subst hn
        have hmag : m1 * 2 ^ (e1 - lowExp e1 e2).toNat + m2 * 2 ^ (e2 - lowExp e1 e2).toNat = 0 := by
          rw [alignedInt, alignedInt] at h0
          split at h0 <;> omega
        have hm : m1 = 0 ∧ m2 = 0 := by simpa using hmag
        simp [hm]
      · simp [hn]
    rw [heq, if_pos h0, hzero]
    simp [signedBy]
  · have hpos : 0 < (addFin rm n1 m1 e1 n2 m2 e2).2.1 := by
      rw [heq, if_neg h0]
      exact Int.natAbs_pos.mpr h0
    have hmag : (0 : ℝ) < (addFin rm n1 m1 e1 n2 m2 e2).2.1 * 2 ^ (addFin rm n1 m1 e1 n2 m2 e2).2.2 :=
      mul_pos (Nat.cast_pos.mpr hpos) (two_zpow_pos _)
    generalize (addFin rm n1 m1 e1 n2 m2 e2).1 = n
    cases n with
    | false => exact iff_of_false Bool.false_ne_true (by simp [signedBy, hmag.le, hmag.ne'])
    | true => exact iff_of_true rfl (.inl (neg_lt_zero.mpr hmag))

/-! ### One rounding of the exact result -/

section
variable {f : Fp} (hf : f.std) {rm : Rm}
include hf

/-- Rounds a number whose magnitude the model writes exactly. -/
theorem roundsTo_of_scaled {neg : Bool} {num den : Nat} {e : Int} {x : ℝ} {z : Bool} (hd : 0 < den) (hx : |x| = scaled num den e)
    (hneg : neg = true ↔ x < 0 ∨ (x = 0 ∧ z = true)) :
    f.roundsTo rm x z (f.scalarRound rm neg num den e).1 (f.scalarRound rm neg num den e).2 := by
  refine scalarRound_roundsTo hf hd hneg (fun h => ?_) (fun h => ⟨fun h0 => ?_, ?_⟩)
  · rw [h, scaled, Nat.cast_zero, zero_div, zero_mul] at hx
    exact abs_eq_zero.mp hx
  · rw [h0, abs_zero] at hx
    exact (scaled_pos (Nat.pos_of_ne_zero h) hd e).ne hx
  · rw [hx]
    exact cutsAlike_refl _ _

variable {a b c : Nat}

theorem add_roundsTo (ha : (f.decode a).isFin = true) (hb : (f.decode b).isFin = true) :
    f.roundsTo rm ((f.decode a).toRat + (f.decode b).toRat) (zeroSumSign rm (bit a (f.eb + f.fb)) (bit b (f.eb + f.fb)))
      (f.add rm a b).1 (f.add rm a b).2 := by
  obtain ⟨m1, e1, h1, -⟩ := fin_of_decode hf ha
  obtain ⟨m2, e2, h2, -⟩ := fin_of_decode hf hb
  obtain ⟨habs, hsign⟩ := addFin_spec rm (bit a (f.eb + f.fb)) (bit b (f.eb + f.fb)) m1 m2 e1 e2
  rw [Fp.add, h1, h2]
  exact roundsTo_of_scaled hf one_pos (habs.trans (scaled_one ..).symm) hsign

theorem mul_roundsTo (ha : (f.decode a).isFin = true) (hb : (f.decode b).isFin = true) :
    f.roundsTo rm ((f.decode a).toRat * (f.decode b).toRat) (bit a (f.eb + f.fb) != bit b (f.eb + f.fb))
      (f.mul rm a b).1 (f.mul rm a b).2 := by
  obtain ⟨m1, e1, h1, -⟩ := fin_of_decode hf ha
  obtain ⟨m2, e2, h2, -⟩ := fin_of_decode hf hb
  rw [Fp.mul, h1, h2]
  generalize bit a (f.eb + f.fb) = n1
  generalize bit b (f.eb + f.fb) = n2
  have hx : ((Val.fin n1 m1 e1).toRat * (Val.fin n2 m2 e2).toRat : ℝ) = signedBy (n1 != n2) (scaled (m1 * m2) 1 (e1 + e2)) := by
    rw [toReal_fin_signedBy, toReal_fin_signedBy, scaled_one, signedBy_eq_mul, signedBy_eq_mul, signedBy_eq_mul, signOf_bne, two_zpow_add]
    push_cast
    ring
  have hpos : 0 ≤ scaled (m1 * m2) 1 (e1 + e2) := by
    rw [scaled_one]
    exact mul_two_zpow_nonneg ..
  rw [hx]
  exact roundsTo_of_scaled hf one_pos (abs_signedBy hpos) (signedBy_sign _ hpos)

theorem div_roundsTo (ha : (f.decode a).isFin = true) (hb : (f.decode b).isFin = true) (h0 : ((f.decode b).toRat : ℝ) ≠ 0) :
    f.roundsTo rm ((f.decode a).toRat / (f.decode b).toRat) (bit a (f.eb + f.fb) != bit b (f.eb + f.fb))
      (f.div rm a b).1 (f.div rm a b).2 := by
  obtain ⟨m1, e1, h1, -⟩ := fin_of_decode hf ha
  obtain ⟨m2, e2, h2, -⟩ := fin_of_decode hf hb
  have hm2 : m2 ≠ 0 := fun h => h0 (by rw [h2, h, toRat_fin, Nat.cast_zero, mul_zero, zero_mul, Rat.cast_zero])
  have hm2' : (m2 : ℝ) ≠ 0 := Nat.cast_ne_zero.mpr hm2
  rw [Fp.div, h1, h2]
  dsimp only
  rw [if_neg hm2]
  generalize bit a (f.eb + f.fb) = n1
  generalize bit b (f.eb + f.fb) = n2
  have hx : ((Val.fin n1 m1 e1).toRat / (Val.fin n2 m2 e2).toRat : ℝ) = signedBy (n1 != n2) (scaled m1 m2 (e1 - e2)) := by
    have hsq : (signOf n2 : ℝ)⁻¹ = signOf n2 := by cases n2 <;> simp [signOf]
    rw [toReal_fin_signedBy, toReal_fin_signedBy, signedBy_eq_mul, signedBy_eq_mul, signedBy_eq_mul, signOf_bne, scaled,
      zpow_sub₀ two_ne_zero, Rat.cast_mul, div_eq_mul_inv, mul_inv, hsq]
    field_simp
  have hpos : 0 ≤ scaled m1 m2 (e1 - e2) :=
    mul_nonneg (div_nonneg (Nat.cast_nonneg _) (Nat.cast_nonneg _)) (two_zpow_pos _).le
  rw [hx]
  exact roundsTo_of_scaled hf (Nat.pos_of_ne_zero hm2) (abs_signedBy hpos) (signedBy_sign _ hpos)

theorem fma_roundsTo (ha : (f.decode a).isFin = true) (hb : (f.decode b).isFin = true) (hc : (f.decode c).isFin = true) :
    f.roundsTo rm ((f.decode a).toRat * (f.decode b).toRat + (f.decode c).toRat)
      (zeroSumSign rm (bit a (f.eb + f.fb) != bit b (f.eb + f.fb)) (bit c (f.eb + f.fb))) (f.fma rm a b c).1 (f.fma rm a b c).2 := by
  obtain ⟨m1, e1, h1, -⟩ := fin_of_decode hf ha
  obtain ⟨m2, e2, h2, -⟩ := fin_of_decode hf hb
  obtain ⟨m3, e3, h3, -⟩ := fin_of_decode hf hc
  rw [Fp.fma, h1, h2, h3]
  generalize bit a (f.eb + f.fb) = n1
  generalize bit b (f.eb + f.fb) = n2
  obtain ⟨habs, hsign⟩ := addFin_spec rm (n1 != n2) (bit c (f.eb + f.fb)) (m1 * m2) m3 (e1 + e2) e3
  have hprod : ((Val.fin n1 m1 e1).toRat * (Val.fin n2 m2 e2).toRat : ℝ) = (Val.fin (n1 != n2) (m1 * m2) (e1 + e2)).toRat := by
    rw [toRat_fin, toRat_fin, toRat_fin, signOf_bne]
    push_cast
    rw [two_zpow_add]
    ring
  rw [hprod]
  exact roundsTo_of_scaled hf one_pos (habs.trans (scaled_one ..).symm) hsign

theorem sqrt_roundsTo (ha : (f.decode a).isFin = true) (h0 : (0 : ℝ) ≤ (f.decode a).toRat) :
    f.roundsTo rm (Real.sqrt (f.decode a).toRat) (bit a (f.eb + f.fb)) (f.sqrt rm a).1 (f.sqrt rm a).2 := by
  obtain ⟨m, e, h, -⟩ := fin_of_decode hf ha
  rw [h, toReal_fin_signedBy] at h0
  rw [Fp.sqrt, h, toReal_fin_signedBy]
  generalize bit a (f.eb + f.fb) = n at *
  dsimp only
  by_cases hm : m = 0
  · have hz : Real.sqrt (signedBy n ((m : ℝ) * 2 ^ e)) = 0 := by cases n <;> simp [hm, signedBy]
    rw [if_pos hm, hz]
    exact roundsTo_zero hf (by simp)
  · obtain rfl : n = false := by
      refine Bool.eq_false_iff.mpr fun hn => ?_
      have hpos : (0 : ℝ) < m * 2 ^ e := mul_pos (Nat.cast_pos.mpr (Nat.pos_of_ne_zero hm)) (two_zpow_pos e)
      rw [hn, signedBy, if_pos rfl] at h0
      linarith
    have hpos : (0 : ℝ) < m * 2 ^ e := mul_pos (Nat.cast_pos.mpr (Nat.pos_of_ne_zero hm)) (two_zpow_pos e)
    obtain ⟨hs, hcut⟩ := cutsAlike_sqrtSticky (p := f.fb + 1) (Nat.pos_of_ne_zero hm) e
    have hroot := Real.sqrt_pos.mpr hpos
    rw [if_neg hm, if_neg Bool.false_ne_true]
    refine scalarRound_roundsTo hf one_pos (signedBy_sign false hroot.le) (fun h => absurd h hs.ne') (fun _ => ⟨hroot.ne', ?_⟩)
    rw [abs_of_pos (by exact hroot)]
    exact hcut

theorem ofInt_roundsTo (v : Int) : f.roundsTo rm v false (f.ofInt rm v).1 (f.ofInt rm v).2 := by
  refine roundsTo_of_scaled hf one_pos ?_ ?_
  · rw [scaled_one, zpow_zero, mul_one, Nat.cast_natAbs, Int.cast_abs]
  · simp

theorem convert_roundsTo {g : Fp} (hg : g.std) (ha : (g.decode a).isFin = true) :
    f.roundsTo rm (g.decode a).toRat (bit a (g.eb + g.fb)) (f.convert g rm a).1 (f.convert g rm a).2 := by
  obtain ⟨m, e, h, -⟩ := fin_of_decode hg ha
  rw [Fp.convert, h, toReal_fin_signedBy]
  generalize bit a (g.eb + g.fb) = n at *
  dsimp only
  by_cases hm : m = 0
  · have hz : signedBy n ((m : ℝ) * 2 ^ e) = 0 := by cases n <;> simp [hm, signedBy]
    rw [if_pos hm, hz]
    exact roundsTo_zero hf (by simp)
  · have hpos := mul_two_zpow_nonneg m e
    rw [if_neg hm]
    exact roundsTo_of_scaled hf one_pos ((abs_signedBy hpos).trans (scaled_one ..).symm) (signedBy_sign n hpos)

end

/-! ### The pattern with its sign inverted -/

section
variable {f : Fp}

/-- A pattern is made of its fields. -/
theorem eq_parts {v : Nat} (hv : v < 2 ^ f.width) :
    v = f.parts (bit v (f.eb + f.fb)) (v / 2 ^ f.fb % 2 ^ f.eb) (v % 2 ^ f.fb) := by
  have hsign : b2n (bit v (f.eb + f.fb)) = v / 2 ^ f.fb / 2 ^ f.eb := by
    have htop : v / 2 ^ f.fb / 2 ^ f.eb < 2 := by
      rw [Nat.div_div_eq_div_mul, ← pow_add, Nat.div_lt_iff_lt_mul (Nat.two_pow_pos _), ← pow_succ']
      rwa [Fp.width, show 1 + f.eb + f.fb = f.fb + f.eb + 1 by omega] at hv
    rw [bit_eq_decide, add_comm, pow_add, ← Nat.div_div_eq_div_mul, Nat.mod_eq_of_lt htop]
    generalize v / 2 ^ f.fb / 2 ^ f.eb = k at htop
    interval_cases k <;> rfl
  rw [Fp.parts, hsign, Nat.div_add_mod', Nat.div_add_mod']

theorem flip_parts {neg : Bool} {ex fr : Nat} (hex : ex < 2 ^ f.eb) (hfr : fr < 2 ^ f.fb) :
    f.flip (f.parts neg ex fr) = f.parts (!neg) ex fr := by
  rw [Fp.flip, parts_sign hex hfr, Fp.parts, Fp.parts, pow_add]
  cases neg <;> simp [b2n, add_mul] <;> omega

theorem flip_eq_parts {v : Nat} (hv : v < 2 ^ f.width) :
    f.flip v = f.parts (!bit v (f.eb + f.fb)) (v / 2 ^ f.fb % 2 ^ f.eb) (v % 2 ^ f.fb) := by
  conv_lhs => rw [eq_parts hv]
  exact flip_parts (Nat.mod_lt _ (Nat.two_pow_pos _)) (Nat.mod_lt _ (Nat.two_pow_pos _))

theorem sign_flip {v : Nat} (hv : v < 2 ^ f.width) : bit (f.flip v) (f.eb + f.fb) = !bit v (f.eb + f.fb) := by
  rw [flip_eq_parts hv]
  exact parts_sign (Nat.mod_lt _ (Nat.two_pow_pos _)) (Nat.mod_lt _ (Nat.two_pow_pos _))

theorem flip_lt {v : Nat} (hv : v < 2 ^ f.width) : f.flip v < 2 ^ f.width := by
  rw [flip_eq_parts hv]
  exact parts_lt (Nat.mod_lt _ (Nat.two_pow_pos _)) (Nat.mod_lt _ (Nat.two_pow_pos _))

/-- The value with its sign inverted; a NaN has none. -/
def negVal : Val → Val
  | .nan s => .nan s
  | .inf n => .inf (!n)
  | .fin n m e => .fin (!n) m e

theorem decode_flip (hf : f.std) {v : Nat} (hv : v < 2 ^ f.width) : f.decode (f.flip v) = negVal (f.decode v) := by
  rw [flip_eq_parts hv, decode_parts hf (Nat.mod_lt _ (Nat.two_pow_pos _)) (Nat.mod_lt _ (Nat.two_pow_pos _)),
    decode_of_fields hf rfl rfl rfl]
  split_ifs <;> rfl

theorem toRat_negVal (v : Val) : (negVal v).toRat = -v.toRat := by
  cases v with
  | nan s => exact neg_zero.symm
  | inf n => exact neg_zero.symm
  | fin n m e =>
    rw [negVal, toRat_fin, toRat_fin, signOf_not]
    ring

theorem isFin_negVal (v : Val) : (negVal v).isFin = v.isFin := by cases v <;> rfl

theorem sub_roundsTo (hf : f.std) {rm : Rm} {a b : Nat} (ha : (f.decode a).isFin = true) (hb : (f.decode b).isFin = true)
    (hlt : b < 2 ^ f.width) :
    f.roundsTo rm ((f.decode a).toRat - (f.decode b).toRat) (zeroSumSign rm (bit a (f.eb + f.fb)) (!bit b (f.eb + f.fb)))
      (f.sub rm a b).1 (f.sub rm a b).2 := by
  have h := add_roundsTo hf (rm := rm) ha (b := f.flip b) (by rw [decode_flip hf hlt, isFin_negVal, hb])
  rwa [decode_flip hf hlt, toRat_negVal, Rat.cast_neg, ← sub_eq_add_neg, sign_flip hlt] at h

end

end Sys2Proof.Machine
end

section
/-! The scalar floating words (R113, R125 to R129): every result fits its format, and the rounding words write the nearest value. -/

namespace Sys2Proof.Machine

open Sys2Proof.Laws

/-- The product of zero and infinity, which is invalid whatever is added to it (R126). -/
def badProduct : Val → Val → Bool
  | .inf _, .fin _ m _ => m == 0
  | .fin _ m _, .inf _ => m == 0
  | _, _ => false

/-! ### Results fit their format -/

section
variable {f : Fp} (hf : f.std) (rm : Rm)
include hf

theorem add_lt (a b : Nat) : (f.add rm a b).1 < 2 ^ f.width := by
  rw [Fp.add]
  cases f.decode a <;> cases f.decode b
  case inf.inf n k =>
    dsimp only
    split
    · exact infPat_lt n
    · exact canonNan_lt hf
  case fin.fin => exact scalarRound_lt hf one_pos _
  case inf.fin n _ _ _ => exact infPat_lt n
  case fin.inf _ _ _ n => exact infPat_lt n
  all_goals exact canonNan_lt hf

theorem mul_lt (a b : Nat) : (f.mul rm a b).1 < 2 ^ f.width := by
  rw [Fp.mul]
  cases f.decode a <;> cases f.decode b
  case fin.fin => exact scalarRound_lt hf one_pos _
  case inf.inf => exact infPat_lt _
  case inf.fin | fin.inf =>
    dsimp only
    split
    · exact canonNan_lt hf
    · exact infPat_lt _
  all_goals exact canonNan_lt hf

theorem div_lt (a b : Nat) : (f.div rm a b).1 < 2 ^ f.width := by
  rw [Fp.div]
  cases f.decode a <;> cases f.decode b
  case fin.fin n1 m1 e1 n2 m2 e2 =>
    dsimp only
    by_cases h2 : m2 = 0
    · rw [if_pos h2]
      split
      · exact canonNan_lt hf
      · exact infPat_lt _
    · rw [if_neg h2]
      exact scalarRound_lt hf (Nat.pos_of_ne_zero h2) _
  case inf.fin => exact infPat_lt _
  case fin.inf => exact pack_zero_lt _
  all_goals exact canonNan_lt hf

theorem sqrt_lt (a : Nat) : (f.sqrt rm a).1 < 2 ^ f.width := by
  rw [Fp.sqrt]
  cases f.decode a with
  | nan s => exact canonNan_lt hf
  | inf n =>
    cases n
    · exact infPat_lt _
    · exact canonNan_lt hf
  | fin n m e =>
    dsimp only
    split
    · exact pack_zero_lt n
    · split
      · exact canonNan_lt hf
      · exact scalarRound_lt hf one_pos _

omit hf in
theorem fma_of_badProduct {a b : Nat} (h : badProduct (f.decode a) (f.decode b) = true) (c : Nat) :
    f.fma rm a b c = (f.canonNan, fNv) := if_pos h

theorem fma_lt (a b c : Nat) : (f.fma rm a b c).1 < 2 ^ f.width := by
  by_cases hbad : badProduct (f.decode a) (f.decode b) = true
  · rw [fma_of_badProduct rm hbad]
    exact canonNan_lt hf
  · refine (congrArg Prod.fst (if_neg hbad : f.fma rm a b c = _)).trans_lt ?_
    cases f.decode a <;> cases f.decode b <;> cases f.decode c
    case fin.fin.fin => exact scalarRound_lt hf one_pos _
    case fin.fin.inf n => exact infPat_lt n
    case inf.inf.inf | inf.fin.inf | fin.inf.inf =>
      dsimp only
      split
      · exact infPat_lt _
      · exact canonNan_lt hf
    case inf.inf.fin | inf.fin.fin | fin.inf.fin => exact infPat_lt _
    all_goals exact canonNan_lt hf

theorem ofInt_lt (v : Int) : (f.ofInt rm v).1 < 2 ^ f.width := scalarRound_lt hf one_pos _

theorem convert_lt (g : Fp) (a : Nat) : (f.convert g rm a).1 < 2 ^ f.width := by
  rw [Fp.convert]
  cases g.decode a with
  | nan s => exact canonNan_lt hf
  | inf n => exact infPat_lt n
  | fin n m e =>
    dsimp only
    split
    · exact pack_zero_lt n
    · exact scalarRound_lt hf one_pos _

end

/-! ### The words -/

theorem fpArg_lt (s : State) (f : Bool) (r : BitVec 6) : fpArg s f r < 2 ^ (fpOf f).width := by
  cases f
  · exact Nat.mod_lt _ (by decide)
  · exact (xr s r).isLt

theorem width_fpOf_le (f : Bool) : (fpOf f).width ≤ 64 := by cases f <;> decide

/-- A floating word leaves its result in xd and its flags in FLAGS. -/
theorem fpOp_result (s : State) {d : BitVec 6} (hd : d ≠ 0) (c : EClass) {r : Nat × Nat} (hr : r.1 < 2 ^ 64) :
    ∃ t, fpOp s d c r = .next t ∧ (xr t d).toNat = r.1 ∧ t.vc.ctl.flags = s.vc.ctl.flags ||| w64 r.2 := by
  obtain ⟨⟨hval, -⟩, -, -⟩ := flagsWord_step s c d (w64 r.1) r.2
  refine ⟨_, rfl, ?_, flagsWord_flags ..⟩
  rw [if_neg hd] at hval
  rw [flagsWord] at hval
  rw [hval, w64, BitVec.toNat_ofNat, Nat.mod_eq_of_lt hr]

theorem rounds_of_fpOp {s : State} {d : BitVec 6} (hd : d ≠ 0) {i : Instr} {c : EClass} {r : Nat × Nat} (hi : exec i s = fpOp s d c r)
    {G : Fp} (hG : G.width ≤ 64) (hr : r.1 < 2 ^ G.width) {rm : Rm} {x : ℝ} {z : Bool} (h : G.roundsTo rm x z r.1 r.2) :
    ∃ t fl, exec i s = .next t ∧ (xr t d).toNat < 2 ^ G.width ∧ t.vc.ctl.flags = s.vc.ctl.flags ||| w64 fl ∧
      G.roundsTo rm x z (xr t d).toNat fl := by
  obtain ⟨t, ht, hval, hfl⟩ := fpOp_result s hd c (hr.trans_le (Nat.pow_le_pow_right two_pos hG))
  refine ⟨t, r.2, hi.trans ht, ?_, hfl, ?_⟩
  · rw [hval]
    exact hr
  · rw [hval]
    exact h

/-- Settles O6: every word rounds its exact result once. -/
theorem floatNearest : Obligations.FloatNearest := by
  unfold Obligations.FloatNearest
  intro s d a b f hd F rm opd val fin sg zsum rounds
  have hF : F.std := std_fpOf f
  have hw : F.width ≤ 64 := width_fpOf_le f
  refine ⟨fun ha hb => ⟨?add, ?sub, ?mul, fun h0 => ?div, fun hc => ?fma⟩, fun ha h0 => ?sqrt, ?ofI64, ?ofN64, fun hf ha => ?toF32,
    fun hf ha => ?toF64⟩
  case add => exact rounds_of_fpOp hd rfl hw (add_lt hF ..) (add_roundsTo hF ha hb)
  case sub => exact rounds_of_fpOp hd rfl hw (add_lt hF ..) (sub_roundsTo hF ha hb (fpArg_lt s f b))
  case mul => exact rounds_of_fpOp hd rfl hw (mul_lt hF ..) (mul_roundsTo hF ha hb)
  case div => exact rounds_of_fpOp hd rfl hw (div_lt hF ..) (div_roundsTo hF ha hb h0)
  case fma => exact rounds_of_fpOp hd rfl hw (fma_lt hF ..) (fma_roundsTo hF ha hb hc)
  case sqrt => exact rounds_of_fpOp hd rfl hw (sqrt_lt hF ..) (sqrt_roundsTo hF ha h0)
  case ofI64 => exact rounds_of_fpOp hd rfl hw (ofInt_lt hF ..) (ofInt_roundsTo hF _)
  case ofN64 => exact rounds_of_fpOp hd rfl hw (ofInt_lt hF ..) (by exact_mod_cast ofInt_roundsTo hF ((xr s a).toNat : Int))
  case toF32 =>
    subst hf
    exact rounds_of_fpOp hd rfl (width_fpOf_le false) (convert_lt (std_fpOf false) ..) (convert_roundsTo (std_fpOf false) (std_fpOf true) ha)
  case toF64 =>
    subst hf
    exact rounds_of_fpOp hd rfl (width_fpOf_le true) (convert_lt (std_fpOf true) ..) (convert_roundsTo (std_fpOf true) (std_fpOf false) ha)

end Sys2Proof.Machine
end

section
/-! Every scalar floating word completes (R125): it writes xd alone, with a result that fits its format, and enters its flags. -/

namespace Sys2Proof.Machine

open Sys2Proof.Laws

/-! ### The words that round nothing -/

section
variable {f : Fp}

theorem mod_width_lt (v : Nat) : v % 2 ^ f.width < 2 ^ f.width := Nat.mod_lt _ (Nat.two_pow_pos _)

theorem minmax_lt (hf : f.std) (mx : Bool) (a b : Nat) : (f.minmax mx a b).1 < 2 ^ f.width := by
  rw [Fp.minmax]
  rcases f.decode a with (_ | _) | _ | _ <;> rcases f.decode b with (_ | _) | _ | _
  case nan.false.inf | nan.false.fin | inf.nan.false | fin.nan.false | inf.inf | inf.fin | fin.inf | fin.fin => exact mod_width_lt _
  all_goals exact canonNan_lt hf

theorem signOp_lt (hf : f.std) (a : Nat) {r : Nat} (hr : r < 2 ^ f.width) : (signOp f a r).1 < 2 ^ f.width := by
  rw [signOp]
  cases f.decode a with
  | nan s => exact canonNan_lt hf
  | inf n => exact hr
  | fin n m e => exact hr

theorem magnitude_lt (a : Nat) : a % 2 ^ (f.eb + f.fb) < 2 ^ f.width :=
  (Nat.mod_lt a (Nat.two_pow_pos _)).trans (Nat.pow_lt_pow_right one_lt_two (by rw [Fp.width]; omega))

/-- A magnitude with a sign bit above it. -/
theorem add_sign_lt (a : Nat) (n : Bool) : a % 2 ^ (f.eb + f.fb) + b2n n * 2 ^ (f.eb + f.fb) < 2 ^ f.width := by
  have hpos := Nat.two_pow_pos (f.eb + f.fb)
  have hlt := Nat.mod_lt a hpos
  rw [Fp.width, add_assoc, Nat.add_comm 1, pow_succ]
  cases n <;> simp [b2n] <;> omega

theorem classCode_lt (a : Nat) : f.classCode a < 16 := by
  have hb (n : Bool) : b2n n ≤ 1 := by cases n <;> decide
  rw [Fp.classCode]
  cases f.decode a with
  | nan s =>
    dsimp only
    split <;> omega
  | inf n =>
    have := hb n
    dsimp only
    omega
  | fin n m e =>
    have := hb n
    dsimp only
    split
    · omega
    · split <;> omega

end

/-! ### What a word does -/

@[simp] theorem enterFlags_zero (v : VC) : v.enterFlags 0 = v := by
  simp [VC.enterFlags, VC.voteFlagsOf, w64]

theorem ctlStep_of_no_flags {s t : State} {c : EClass} {n : Word64} (h : ctlStepFlags s t c 0 n) : ctlStep s t c n := by
  rw [ctlStepFlags, enterFlags_zero] at h
  rw [ctlStep]
  dsimp only
  rw [charge_vc]
  exact h

section
variable {s : State} {d : BitVec 6} {i : Instr} {c : EClass} {r : Nat × Nat}

/-- A word of the floating unit writes xd alone and enters its flags. -/
theorem completes_of_fpOp (hi : exec i s = fpOp s d c r) :
    ∃ t, exec i s = .next t ∧ writesX s t d (w64 r.1) ∧ ctlStepFlags s t c r.2 4 ∧ keepsBytes s t :=
  ⟨_, hi, flagsWord_step ..⟩

theorem w64_toNat_le (v : Nat) : (w64 v).toNat ≤ v := by
  rw [w64, BitVec.toNat_ofNat]
  exact Nat.mod_le ..

theorem completes_format (hi : exec i s = fpOp s d c r) {f : Bool} (hr : r.1 < 2 ^ (fpOf f).width) :
    ∃ t v fl, exec i s = .next t ∧ writesX s t d v ∧ ctlStepFlags s t c fl 4 ∧ keepsBytes s t ∧ (f = false → v.toNat < 2 ^ 32) := by
  obtain ⟨t, ht, hwrites, hstep, hkeeps⟩ := completes_of_fpOp hi
  refine ⟨t, _, _, ht, hwrites, hstep, hkeeps, fun hf => ?_⟩
  subst hf
  exact (w64_toNat_le _).trans_lt hr

theorem completes_compare {p : Bool × Nat} (hi : exec i s = fpOp s d c (boolRes p)) (hp : p.2 = 0 ∨ p.2 = 1) :
    ∃ t v fl, exec i s = .next t ∧ writesX s t d v ∧ ctlStepFlags s t c fl 4 ∧ keepsBytes s t ∧
      (v = 0 ∨ v = 1) ∧ (fl = 0 ∨ fl = 1) := by
  obtain ⟨t, ht, hwrites, hstep, hkeeps⟩ := completes_of_fpOp hi
  refine ⟨t, _, _, ht, hwrites, hstep, hkeeps, ?_, hp⟩
  obtain ⟨b, fl⟩ := p
  cases b
  · exact .inl rfl
  · exact .inr rfl

end

section
variable (f : Fp) (a b : Nat)

theorem ceq_flags : (f.ceq a b).2 = 0 ∨ (f.ceq a b).2 = 1 := by
  show fOr (f.decode a).sigFlag (f.decode b).sigFlag = 0 ∨ fOr (f.decode a).sigFlag (f.decode b).sigFlag = 1
  have h (v : Val) : v.sigFlag = 0 ∨ v.sigFlag = 1 := by
    rcases v with (_ | _) | _ | _
    case nan.true => exact .inr rfl
    all_goals exact .inl rfl
  rcases h (f.decode a) with h1 | h1 <;> rcases h (f.decode b) with h2 | h2 <;> rw [h1, h2] <;> decide

theorem clt_flags : (f.clt a b).2 = 0 ∨ (f.clt a b).2 = 1 := by
  rw [Fp.clt]
  split
  · exact .inr rfl
  · exact .inl rfl

theorem cle_flags : (f.cle a b).2 = 0 ∨ (f.cle a b).2 = 1 := by
  rw [Fp.cle]
  split
  · exact .inr rfl
  · exact .inl rfl

end

/-- Settles O5: every word is one write of xd with its flags, and each result fits its format. -/
theorem floatWordsComplete : Obligations.FloatWordsComplete := by
  unfold Obligations.FloatWordsComplete
  intro s d a b f
  have hF := std_fpOf f
  refine ⟨fun p hp => ?results, fun i hi => ?compares, ?classes, fun i hi => ?conversions, ?narrows⟩
  case results =>
    simp only [List.mem_cons, List.not_mem_nil, or_false] at hp
    rcases hp with rfl | rfl | rfl | rfl | rfl | rfl | rfl | rfl | rfl | rfl | rfl | rfl | rfl
    · exact completes_format rfl (add_lt hF ..)
    · exact completes_format rfl (add_lt hF ..)
    · exact completes_format rfl (mul_lt hF ..)
    · exact completes_format rfl (div_lt hF ..)
    · exact completes_format rfl (sqrt_lt hF ..)
    · exact completes_format rfl (fma_lt hF ..)
    · exact completes_format rfl (minmax_lt hF ..)
    · exact completes_format rfl (minmax_lt hF ..)
    · exact completes_format rfl (signOp_lt hF _ (magnitude_lt _))
    · exact completes_format rfl (signOp_lt hF _ (flip_lt (fpArg_lt s f a)))
    · exact completes_format rfl (signOp_lt hF _ (add_sign_lt ..))
    · exact completes_format rfl (ofInt_lt hF ..)
    · exact completes_format rfl (ofInt_lt hF ..)
  case compares =>
    simp only [List.mem_cons, List.not_mem_nil, or_false] at hi
    rcases hi with rfl | rfl | rfl
    · exact completes_compare rfl (ceq_flags ..)
    · exact completes_compare rfl (clt_flags ..)
    · exact completes_compare rfl (cle_flags ..)
  case classes =>
    obtain ⟨t, ht, hwrites, hstep, hkeeps⟩ := completes_of_fpOp (s := s) (d := d) (i := .fclass d a f) rfl
    refine ⟨t, _, ht, hwrites, ?_, hkeeps, (w64_toNat_le _).trans_lt (classCode_lt _)⟩
    exact ctlStep_of_no_flags hstep
  case conversions =>
    simp only [List.mem_cons, List.not_mem_nil, or_false] at hi
    rcases hi with rfl | rfl | rfl
    · obtain ⟨t, h⟩ := completes_of_fpOp (s := s) (d := d) (i := .fcvtI64T d a f) rfl
      exact ⟨t, _, _, h⟩
    · obtain ⟨t, h⟩ := completes_of_fpOp (s := s) (d := d) (i := .fcvtN64T d a f) rfl
      exact ⟨t, _, _, h⟩
    · obtain ⟨t, h⟩ := completes_of_fpOp (s := s) (d := d) (i := .fcvtF64F32 d a) rfl
      exact ⟨t, _, _, h⟩
  case narrows =>
    obtain ⟨t, v, fl, ht, hwrites, hstep, hkeeps, hlt⟩ :=
      completes_format (s := s) (i := .fcvtF32F64 d a) (f := false) rfl (convert_lt (std_fpOf false) ..)
    exact ⟨t, v, fl, ht, hwrites, hstep, hkeeps, hlt rfl⟩

end Sys2Proof.Machine
end

section
/-! The floating compares (R128) by the values of their operands. -/

namespace Sys2Proof.Machine

open Sys2Proof.Laws

/-- The invalid flag of operands of which one is a signalling NaN (R126). -/
def nanFlag (l : List Val) : Nat := if Val.nan true ∈ l then 1 else 0

theorem sigFlag_eq (x : Val) : x.sigFlag = nanFlag [x] := by
  rcases x with (_ | _) | _ | _ <;> rfl

theorem fOr_nanFlag (l k : List Val) : fOr (nanFlag l) (nanFlag k) = nanFlag (l ++ k) := by
  by_cases hl : Val.nan true ∈ l <;> by_cases hk : Val.nan true ∈ k <;> simp [nanFlag, fOr, hl, hk]

theorem fOr_sigFlag (x y : Val) : fOr x.sigFlag y.sigFlag = nanFlag [x, y] := by
  rw [sigFlag_eq, sigFlag_eq, fOr_nanFlag]
  rfl

theorem nanFlag_of_not_nan {x y : Val} (hx : x.isNan = false) (hy : y.isNan = false) : nanFlag [x, y] = 0 := by
  refine if_neg fun h => ?_
  rcases List.mem_pair.mp h with h | h
  · rw [← h] at hx
    exact absurd hx Bool.noConfusion
  · rw [← h] at hy
    exact absurd hy Bool.noConfusion

theorem not_nan_of_isFin {x : Val} (h : x.isFin = true) : x.isNan = false := by
  obtain ⟨n, m, e, rfl⟩ := exists_fin_of_isFin h
  rfl

/-- The order of the compares on finite values is that of their rationals. -/
theorem less_of_isFin {x y : Val} (hx : x.isFin = true) (hy : y.isFin = true) : x.less y = decide (x.toRat < y.toRat) := by
  obtain ⟨n1, m1, e1, rfl⟩ := exists_fin_of_isFin hx
  obtain ⟨n2, m2, e2, rfl⟩ := exists_fin_of_isFin hy
  rw [Val.less]
  by_cases h0 : (m1 = 0 && m2 = 0) = true
  · obtain ⟨rfl, rfl⟩ : m1 = 0 ∧ m2 = 0 := by simpa using h0
    simp [toRat_fin]
  · have hless : (Val.fin n1 m1 e1).lessTotal (.fin n2 m2 e2) =
        decide (alignedInt n1 m1 e1 (lowExp e1 e2) < alignedInt n2 m2 e2 (lowExp e1 e2)) := if_neg h0
    have hpos : (0 : ℚ) < 2 ^ lowExp e1 e2 := zpow_pos two_pos _
    rw [if_neg h0, hless, toRat_fin_eq_alignedInt n1 m1 (lowExp_le_left e1 e2), toRat_fin_eq_alignedInt n2 m2 (lowExp_le_right e1 e2),
      decide_eq_decide, mul_lt_mul_iff_left₀ hpos, Int.cast_lt]

section
variable (f : Fp) {a b : Nat}

theorem ceq_eq (a b : Nat) : f.ceq a b = (!(f.decode a).isNan && !(f.decode b).isNan && !(f.decode a).less (f.decode b) &&
    !(f.decode b).less (f.decode a), nanFlag [f.decode a, f.decode b]) := by
  rw [← fOr_sigFlag]
  rfl

theorem ceq_of_nan (h : (f.decode a).isNan = true ∨ (f.decode b).isNan = true) : f.ceq a b = (false, nanFlag [f.decode a, f.decode b]) := by
  rw [ceq_eq]
  rcases h with h | h <;> simp [h]

theorem clt_of_nan (h : (f.decode a).isNan = true ∨ (f.decode b).isNan = true) : f.clt a b = (false, 1) :=
  if_pos (Bool.or_eq_true_iff.mpr h)

theorem cle_of_nan (h : (f.decode a).isNan = true ∨ (f.decode b).isNan = true) : f.cle a b = (false, 1) :=
  if_pos (Bool.or_eq_true_iff.mpr h)

section
variable (ha : (f.decode a).isNan = false) (hb : (f.decode b).isNan = false)
include ha hb

theorem ceq_of_not_nan : f.ceq a b = (!(f.decode a).less (f.decode b) && !(f.decode b).less (f.decode a), 0) := by
  rw [ceq_eq, nanFlag_of_not_nan ha hb, ha, hb]
  rfl

theorem clt_of_not_nan : f.clt a b = ((f.decode a).less (f.decode b), 0) := if_neg (by rw [ha, hb]; decide)

theorem cle_of_not_nan : f.cle a b = (!(f.decode b).less (f.decode a), 0) := if_neg (by rw [ha, hb]; decide)

end

section
variable (ha : (f.decode a).isFin = true) (hb : (f.decode b).isFin = true)
include ha hb

theorem ceq_of_isFin : f.ceq a b = (decide ((f.decode a).toRat = (f.decode b).toRat), 0) := by
  rw [ceq_of_not_nan f (not_nan_of_isFin ha) (not_nan_of_isFin hb), less_of_isFin ha hb, less_of_isFin hb ha]
  congr 1
  rw [← decide_not, ← decide_not, ← Bool.decide_and, decide_eq_decide, not_lt, not_lt, le_antisymm_iff, and_comm]

theorem clt_of_isFin : f.clt a b = (decide ((f.decode a).toRat < (f.decode b).toRat), 0) := by
  rw [clt_of_not_nan f (not_nan_of_isFin ha) (not_nan_of_isFin hb), less_of_isFin ha hb]

theorem cle_of_isFin : f.cle a b = (decide ((f.decode a).toRat ≤ (f.decode b).toRat), 0) := by
  rw [cle_of_not_nan f (not_nan_of_isFin ha) (not_nan_of_isFin hb), less_of_isFin hb ha]
  simp only [← decide_not, not_lt]

end

/-- An infinity is below all but itself where it is negative, and else above. -/
theorem inf_less (n : Bool) {y : Val} (hy : y.isNan = false) :
    (Val.inf n).less y = decide (n = true ∧ y ≠ .inf n) ∧ y.less (.inf n) = decide (n = false ∧ y ≠ .inf n) := by
  cases y with
  | nan s => cases hy
  | inf k => cases n <;> cases k <;> decide
  | fin k m e => cases n <;> simp [Val.less, Val.lessTotal]

section
variable {n : Bool} (ha : f.decode a = .inf n) (hb : (f.decode b).isNan = false)
include ha hb

theorem compares_inf_left : f.ceq a b = (decide (f.decode b = f.decode a), 0) ∧
    f.clt a b = (decide (n = true ∧ f.decode b ≠ f.decode a), 0) ∧ f.cle a b = (decide (n = true ∨ f.decode b = f.decode a), 0) := by
  have ha' : (f.decode a).isNan = false := by rw [ha]; rfl
  obtain ⟨hlt, hgt⟩ := inf_less n hb
  rw [ceq_of_not_nan f ha' hb, clt_of_not_nan f ha' hb, cle_of_not_nan f ha' hb, ha, hlt, hgt]
  by_cases h : f.decode b = .inf n <;> cases n <;> simp [h]

theorem compares_inf_right : f.ceq b a = (decide (f.decode b = f.decode a), 0) ∧
    f.clt b a = (decide (n = false ∧ f.decode b ≠ f.decode a), 0) ∧ f.cle b a = (decide (n = false ∨ f.decode b = f.decode a), 0) := by
  have ha' : (f.decode a).isNan = false := by rw [ha]; rfl
  obtain ⟨hlt, hgt⟩ := inf_less n hb
  rw [ceq_of_not_nan f hb ha', clt_of_not_nan f hb ha', cle_of_not_nan f hb ha', ha, hlt, hgt]
  by_cases h : f.decode b = .inf n <;> cases n <;> simp [h]

end

end

end Sys2Proof.Machine
end

section
/-! NaN operands, invalid operations, infinities and division by zero (R125, R126). -/

namespace Sys2Proof.Machine

open Sys2Proof.Laws

/-! ### Kinds of values -/

/-- A zero of either sign. -/
def isZero (v : Val) : Prop := v.isFin = true ∧ v.toRat = 0

/-- An infinity of either sign. -/
def isInfinite (v : Val) : Prop := v = .inf false ∨ v = .inf true

theorem isInfinite_iff {v : Val} : isInfinite v ↔ ∃ n, v = .inf n := by
  rw [isInfinite, Bool.exists_bool]

theorem toRat_fin_eq_zero {n : Bool} {m : Nat} {e : Int} : (Val.fin n m e).toRat = 0 ↔ m = 0 := by
  have hsign : signOf n ≠ 0 := by cases n <;> simp [signOf]
  rw [toRat_fin, mul_eq_zero, mul_eq_zero, or_iff_left (zpow_pos two_pos e).ne', or_iff_right hsign, Nat.cast_eq_zero]

theorem isZero_fin {n : Bool} {m : Nat} {e : Int} : isZero (.fin n m e) ↔ m = 0 := (and_iff_right rfl).trans toRat_fin_eq_zero

theorem not_isZero_inf {n : Bool} : ¬isZero (.inf n) := fun h => absurd h.1 Bool.noConfusion

theorem not_isInfinite_fin {n : Bool} {m : Nat} {e : Int} : ¬isInfinite (.fin n m e) := by simp [isInfinite]

theorem isInfinite_inf (n : Bool) : isInfinite (.inf n) := isInfinite_iff.mpr ⟨n, rfl⟩

theorem badProduct_iff {x y : Val} : badProduct x y = true ↔ (isZero x ∧ isInfinite y) ∨ (isInfinite x ∧ isZero y) := by
  cases x <;> cases y
  case inf.fin => simp [badProduct, isInfinite_inf, isZero_fin, not_isZero_inf]
  case fin.inf => simp [badProduct, isInfinite_inf, isZero_fin, not_isZero_inf]
  all_goals simp [badProduct, isZero, isInfinite, Val.isFin]

theorem exists_nan_of_isNan {v : Val} (h : v.isNan = true) : ∃ s, v = .nan s := by
  cases v with
  | nan s => exact ⟨s, rfl⟩
  | inf n => cases h
  | fin n m e => cases h

/-- Two values of which one is a NaN. -/
theorem nan_cases {x y : Val} (h : x.isNan = true ∨ y.isNan = true) :
    (∃ s, x = .nan s) ∨ (∃ n s, x = .inf n ∧ y = .nan s) ∨ ∃ n m e s, x = .fin n m e ∧ y = .nan s := by
  cases x with
  | nan s => exact .inl ⟨s, rfl⟩
  | inf n =>
    obtain ⟨s, hs⟩ := exists_nan_of_isNan (h.resolve_left Bool.noConfusion)
    exact .inr (.inl ⟨n, s, rfl, hs⟩)
  | fin n m e =>
    obtain ⟨s, hs⟩ := exists_nan_of_isNan (h.resolve_left Bool.noConfusion)
    exact .inr (.inr ⟨n, m, e, s, rfl, hs⟩)

section
variable {f : Fp} (hf : f.std) {v : Nat}
include hf

theorem sign_of_inf {n : Bool} (h : f.decode v = .inf n) : bit v (f.eb + f.fb) = n := by
  rw [decode_of_fields hf rfl rfl rfl] at h
  split_ifs at h
  exact Val.inf.inj h

theorem decode_of_not_nan (h : (f.decode v).isNan = false) :
    f.decode v = .inf (bit v (f.eb + f.fb)) ∨ ∃ m e, f.decode v = .fin (bit v (f.eb + f.fb)) m e := by
  cases hv : f.decode v with
  | nan s => simp [hv, Val.isNan] at h
  | inf n =>
    rw [sign_of_inf hf hv]
    exact .inl rfl
  | fin n m e =>
    obtain ⟨k, g, hfin, -⟩ := fin_of_decode hf (v := v) (by rw [hv]; rfl)
    exact .inr ⟨k, g, hv.symm.trans hfin⟩

theorem sign_of_fin {n : Bool} {m : Nat} {e : Int} (h : f.decode v = .fin n m e) : bit v (f.eb + f.fb) = n := by
  obtain ⟨_, _, hfin, -⟩ := fin_of_decode hf (v := v) (by rw [h]; rfl)
  rw [h] at hfin
  exact (Val.fin.inj hfin).1.symm

end

section
variable {f : Fp} (rm : Rm) {a b c : Nat}

/-- An infinity plus a value that is no NaN. -/
def infPlus (f : Fp) (n : Bool) : Val → Nat × Nat
  | .inf k => if n == k then (f.infPat k, 0) else (f.canonNan, fNv)
  | _ => (f.infPat n, 0)

/-! ### NaN operands -/

theorem add_of_nan (h : (f.decode a).isNan = true ∨ (f.decode b).isNan = true) :
    f.add rm a b = (f.canonNan, nanFlag [f.decode a, f.decode b]) := by
  rw [Fp.add, fOr_sigFlag]
  generalize f.decode a = x at *
  generalize f.decode b = y at *
  obtain ⟨s, rfl⟩ | ⟨n, s, rfl, rfl⟩ | ⟨n, m, e, s, rfl, rfl⟩ := nan_cases h <;> rfl

theorem isNan_negVal (v : Val) : (negVal v).isNan = v.isNan := by cases v <;> rfl

theorem nanFlag_negVal (x y : Val) : nanFlag [x, negVal y] = nanFlag [x, y] := by
  cases y with
  | nan s => rfl
  | inf n => simp [nanFlag, negVal]
  | fin n m e => simp [nanFlag, negVal]

theorem sub_of_nan (hf : f.std) (hb : b < 2 ^ f.width) (h : (f.decode a).isNan = true ∨ (f.decode b).isNan = true) :
    f.sub rm a b = (f.canonNan, nanFlag [f.decode a, f.decode b]) := by
  have h' : (f.decode a).isNan = true ∨ (f.decode (f.flip b)).isNan = true := by rwa [decode_flip hf hb, isNan_negVal]
  rw [Fp.sub, add_of_nan rm h', decode_flip hf hb, nanFlag_negVal]

theorem mul_of_nan (h : (f.decode a).isNan = true ∨ (f.decode b).isNan = true) :
    f.mul rm a b = (f.canonNan, nanFlag [f.decode a, f.decode b]) := by
  rw [Fp.mul, fOr_sigFlag]
  generalize f.decode a = x at *
  generalize f.decode b = y at *
  obtain ⟨s, rfl⟩ | ⟨n, s, rfl, rfl⟩ | ⟨n, m, e, s, rfl, rfl⟩ := nan_cases h <;> rfl

theorem div_of_nan (h : (f.decode a).isNan = true ∨ (f.decode b).isNan = true) :
    f.div rm a b = (f.canonNan, nanFlag [f.decode a, f.decode b]) := by
  rw [Fp.div, fOr_sigFlag]
  generalize f.decode a = x at *
  generalize f.decode b = y at *
  obtain ⟨s, rfl⟩ | ⟨n, s, rfl, rfl⟩ | ⟨n, m, e, s, rfl, rfl⟩ := nan_cases h <;> rfl

theorem fma_of_nan (hbad : badProduct (f.decode a) (f.decode b) = false)
    (h : (f.decode a).isNan = true ∨ (f.decode b).isNan = true ∨ (f.decode c).isNan = true) :
    f.fma rm a b c = (f.canonNan, nanFlag [f.decode a, f.decode b, f.decode c]) := by
  refine (if_neg (Bool.eq_false_iff.mp hbad)).trans ?_
  rw [fOr_sigFlag, sigFlag_eq (f.decode c), fOr_nanFlag]
  generalize f.decode a = x at *
  generalize f.decode b = y at *
  generalize f.decode c = w at *
  by_cases hxy : x.isNan = true ∨ y.isNan = true
  · obtain ⟨s, rfl⟩ | ⟨n, s, rfl, rfl⟩ | ⟨n, m, e, s, rfl, rfl⟩ := nan_cases hxy <;> rfl
  · have hw : w.isNan = true := (h.resolve_left fun hx => hxy (.inl hx)).resolve_left fun hy => hxy (.inr hy)
    cases w with
    | nan s => cases x <;> cases y <;> rfl
    | inf n => cases hw
    | fin n m e => cases hw

theorem sqrt_of_nan (h : (f.decode a).isNan = true) : f.sqrt rm a = (f.canonNan, nanFlag [f.decode a]) := by
  obtain ⟨s, hs⟩ := exists_nan_of_isNan h
  rw [Fp.sqrt, hs, ← sigFlag_eq]
  cases s <;> rfl

theorem convert_of_nan {g : Fp} (h : (g.decode a).isNan = true) : f.convert g rm a = (f.canonNan, nanFlag [g.decode a]) := by
  obtain ⟨s, hs⟩ := exists_nan_of_isNan h
  rw [Fp.convert, hs, ← sigFlag_eq]
  cases s <;> rfl

theorem signOp_of_nan {r : Nat} (h : (f.decode a).isNan = true) : signOp f a r = (f.canonNan, nanFlag [f.decode a]) := by
  obtain ⟨s, hs⟩ := exists_nan_of_isNan h
  rw [signOp, hs, ← sigFlag_eq]
  cases s <;> rfl

/-! ### Infinities -/

theorem add_inf_left {n : Bool} (ha : f.decode a = .inf n) (hb : (f.decode b).isNan = false) (hne : f.decode b ≠ .inf (!n)) :
    f.add rm a b = (f.infPat n, 0) := by
  rw [Fp.add, ha]
  cases hy : f.decode b with
  | nan s => simp [hy, Val.isNan] at hb
  | inf k =>
    rw [hy] at hne
    obtain rfl : n = k := by cases n <;> cases k <;> simp at hne ⊢
    exact if_pos (beq_self_eq_true n)
  | fin k m e => rfl

theorem add_inf_opposite {n : Bool} (ha : f.decode a = .inf n) (hb : f.decode b = .inf (!n)) : f.add rm a b = (f.canonNan, 1) := by
  rw [Fp.add, ha, hb]
  exact if_neg (by cases n <;> decide)

theorem add_inf_right {n : Bool} (ha : (f.decode a).isFin = true) (hb : f.decode b = .inf n) : f.add rm a b = (f.infPat n, 0) := by
  obtain ⟨k, m, e, hx⟩ := exists_fin_of_isFin ha
  rw [Fp.add, hx, hb]

theorem negVal_eq_inf {v : Val} {n : Bool} : negVal v = .inf n ↔ v = .inf (!n) := by
  cases v with
  | nan s => simp [negVal]
  | inf k => cases n <;> cases k <;> decide
  | fin k m e => simp [negVal]

section
variable (hf : f.std) (hlt : b < 2 ^ f.width)
include hf hlt

theorem sub_inf_left {n : Bool} (ha : f.decode a = .inf n) (hb : (f.decode b).isNan = false) (hne : f.decode b ≠ .inf n) :
    f.sub rm a b = (f.infPat n, 0) := by
  refine add_inf_left rm ha ?_ ?_ <;> rw [decode_flip hf hlt]
  · rwa [isNan_negVal]
  · rwa [Ne, negVal_eq_inf, Bool.not_not]

theorem sub_inf_same {n : Bool} (ha : f.decode a = .inf n) (hb : f.decode b = .inf n) : f.sub rm a b = (f.canonNan, 1) := by
  refine add_inf_opposite rm ha ?_
  rw [decode_flip hf hlt, hb]
  rfl

theorem sub_inf_right {n : Bool} (ha : (f.decode a).isFin = true) (hb : f.decode b = .inf n) : f.sub rm a b = (f.infPat (!n), 0) := by
  refine add_inf_right rm ha ?_
  rw [decode_flip hf hlt, hb]
  rfl

end

theorem mul_of_badProduct (h : badProduct (f.decode a) (f.decode b) = true) : f.mul rm a b = (f.canonNan, 1) := by
  rw [Fp.mul]
  cases hx : f.decode a <;> cases hy : f.decode b <;> rw [hx, hy] at h
  case inf.fin | fin.inf => exact if_pos (beq_iff_eq.mp h)
  all_goals cases h

/-- A product of which one factor is infinite, and none a zero or a NaN. -/
theorem mul_of_inf (hf : f.std) (h : isInfinite (f.decode a) ∨ isInfinite (f.decode b)) (ha : (f.decode a).isNan = false)
    (hb : (f.decode b).isNan = false) (hbad : badProduct (f.decode a) (f.decode b) = false) :
    f.mul rm a b = (f.infPat (bit a (f.eb + f.fb) != bit b (f.eb + f.fb)), 0) := by
  rw [Fp.mul]
  cases hx : f.decode a <;> cases hy : f.decode b <;> rw [hx, hy] at h hbad <;> rw [hx] at ha <;> rw [hy] at hb
  case inf.inf => rw [sign_of_inf hf hx, sign_of_inf hf hy]
  case inf.fin =>
    rw [sign_of_inf hf hx, sign_of_fin hf hy]
    exact if_neg (beq_eq_false_iff_ne.mp hbad)
  case fin.inf =>
    rw [sign_of_fin hf hx, sign_of_inf hf hy]
    exact if_neg (beq_eq_false_iff_ne.mp hbad)
  case fin.fin => exact absurd h (not_or.mpr ⟨not_isInfinite_fin, not_isInfinite_fin⟩)
  case nan.nan | nan.inf | nan.fin => cases ha
  case inf.nan | fin.nan => cases hb

theorem div_invalid (h : (isZero (f.decode a) ∧ isZero (f.decode b)) ∨ (isInfinite (f.decode a) ∧ isInfinite (f.decode b))) :
    f.div rm a b = (f.canonNan, 1) := by
  rcases h with ⟨ha, hb⟩ | ⟨ha, hb⟩
  · obtain ⟨n, m, e, hx⟩ := exists_fin_of_isFin ha.1
    obtain ⟨k, l, g, hy⟩ := exists_fin_of_isFin hb.1
    rw [hx, isZero_fin] at ha
    rw [hy, isZero_fin] at hb
    rw [Fp.div, hx, hy]
    exact (if_pos hb).trans (if_pos ha)
  · obtain ⟨n, hx⟩ := isInfinite_iff.mp ha
    obtain ⟨k, hy⟩ := isInfinite_iff.mp hb
    rw [Fp.div, hx, hy]
    rfl

section
variable (hf : f.std)
include hf

theorem div_inf_left (ha : isInfinite (f.decode a)) (hb : (f.decode b).isFin = true) :
    f.div rm a b = (f.infPat (bit a (f.eb + f.fb) != bit b (f.eb + f.fb)), 0) := by
  obtain ⟨n, hx⟩ := isInfinite_iff.mp ha
  obtain ⟨k, m, e, hy⟩ := exists_fin_of_isFin hb
  rw [sign_of_inf hf hx, sign_of_fin hf hy, Fp.div, hx, hy]

theorem div_inf_right (ha : (f.decode a).isFin = true) (hb : isInfinite (f.decode b)) :
    f.div rm a b = (if bit a (f.eb + f.fb) != bit b (f.eb + f.fb) then 2 ^ (f.eb + f.fb) else 0, 0) := by
  obtain ⟨n, m, e, hx⟩ := exists_fin_of_isFin ha
  obtain ⟨k, hy⟩ := isInfinite_iff.mp hb
  rw [sign_of_fin hf hx, sign_of_inf hf hy, Fp.div, hx, hy]
  dsimp only
  rw [Fp.pack, if_pos (Nat.two_pow_pos _)]
  cases n <;> cases k <;> simp [b2n]

theorem div_by_zero (ha : (f.decode a).isFin = true) (h0 : ¬isZero (f.decode a)) (hb : isZero (f.decode b)) :
    f.div rm a b = (f.infPat (bit a (f.eb + f.fb) != bit b (f.eb + f.fb)), 8) := by
  obtain ⟨n, m, e, hx⟩ := exists_fin_of_isFin ha
  obtain ⟨k, l, g, hy⟩ := exists_fin_of_isFin hb.1
  rw [sign_of_fin hf hx, sign_of_fin hf hy]
  rw [hx, isZero_fin] at h0
  rw [hy, isZero_fin] at hb
  rw [Fp.div, hx, hy]
  exact (if_pos hb).trans (if_neg h0)

/-- An infinite product, added to what is no NaN. -/
theorem fma_of_inf (h : isInfinite (f.decode a) ∨ isInfinite (f.decode b)) (ha : (f.decode a).isNan = false)
    (hb : (f.decode b).isNan = false) (hbad : badProduct (f.decode a) (f.decode b) = false) (hc : (f.decode c).isNan = false) :
    f.fma rm a b c = infPlus f (bit a (f.eb + f.fb) != bit b (f.eb + f.fb)) (f.decode c) := by
  refine (if_neg (Bool.eq_false_iff.mp hbad)).trans ?_
  rcases decode_of_not_nan hf ha with hx | ⟨m1, e1, hx⟩ <;> rcases decode_of_not_nan hf hb with hy | ⟨m2, e2, hy⟩ <;> rw [hx, hy] at h ⊢
  case inr.inr => exact absurd h (not_or.mpr ⟨not_isInfinite_fin, not_isInfinite_fin⟩)
  all_goals
    generalize f.decode c = w at *
    cases w with
    | nan s => cases hc
    | inf k => rfl
    | fin k m e => rfl

omit hf in
theorem infPlus_eq (n : Bool) (w : Val) : infPlus f n w = if w = .inf (!n) then (f.canonNan, 1) else (f.infPat n, 0) := by
  cases w with
  | nan s => simp [infPlus]
  | inf k => cases n <;> cases k <;> rfl
  | fin k m e => simp [infPlus]

end

theorem fma_add_inf {n : Bool} (ha : (f.decode a).isFin = true) (hb : (f.decode b).isFin = true) (hc : f.decode c = .inf n) :
    f.fma rm a b c = (f.infPat n, 0) := by
  obtain ⟨n1, m1, e1, hx⟩ := exists_fin_of_isFin ha
  obtain ⟨n2, m2, e2, hy⟩ := exists_fin_of_isFin hb
  rw [Fp.fma, hx, hy, hc]
  rfl

theorem sqrt_invalid (h : f.decode a = .inf true ∨ ((f.decode a).isFin = true ∧ (f.decode a).toRat < 0)) :
    f.sqrt rm a = (f.canonNan, 1) := by
  rw [Fp.sqrt]
  rcases h with h | ⟨hfin, hneg⟩
  · rw [h]
    rfl
  · obtain ⟨n, m, e, hx⟩ := exists_fin_of_isFin hfin
    rw [hx] at hneg ⊢
    have hm : m ≠ 0 := fun h => hneg.ne (toRat_fin_eq_zero.mpr h)
    have hn : n = true := by
      by_contra hn
      rw [Bool.not_eq_true] at hn
      have : (0 : ℚ) ≤ (Val.fin n m e).toRat := by
        rw [hn, toRat_fin_false false]
        exact abs_nonneg _
      linarith
    exact (if_neg hm).trans (if_pos hn)

theorem sqrt_inf (h : f.decode a = .inf false) : f.sqrt rm a = (f.infPat false, 0) := by
  rw [Fp.sqrt, h]
  rfl

theorem convert_inf {g : Fp} {n : Bool} (h : g.decode a = .inf n) : f.convert g rm a = (f.infPat n, 0) := by
  rw [Fp.convert, h]

end

end Sys2Proof.Machine
end

section
/-! The words that round nothing (R125, R127, R128): sign words, minimum and maximum, classes. -/

namespace Sys2Proof.Machine

open Sys2Proof.Laws

/-! ### Signs -/

section
variable {f : Fp} {a b : Nat}

theorem signOp_of_not_nan {r : Nat} (h : (f.decode a).isNan = false) : signOp f a r = (r, 0) := by
  rw [signOp]
  cases hx : f.decode a with
  | nan s => simp [hx, Val.isNan] at h
  | inf n => rfl
  | fin n m e => rfl

theorem xor_two_pow_of_lt {t : Nat} (h : a < 2 ^ t) : a ^^^ 2 ^ t = a + 2 ^ t := by
  apply Nat.eq_of_testBit_eq
  intro i
  rw [Nat.testBit_xor, Nat.testBit_two_pow, Nat.add_comm]
  rcases lt_trichotomy i t with hi | rfl | hi
  · rw [Nat.testBit_two_pow_add_gt hi, decide_eq_false hi.ne', Bool.xor_false]
  · rw [Nat.testBit_two_pow_add_eq, decide_eq_true rfl, Bool.xor_true]
  · have hpow : 2 ^ (t + 1) ≤ 2 ^ i := Nat.pow_le_pow_right two_pos hi
    rw [pow_succ] at hpow
    rw [Nat.testBit_lt_two_pow (by omega : a < 2 ^ i), Nat.testBit_lt_two_pow (by omega : 2 ^ t + a < 2 ^ i),
      decide_eq_false hi.ne, Bool.xor_false]

theorem b2n_sign (ha : a < 2 ^ f.width) : b2n (bit a (f.eb + f.fb)) = a / 2 ^ (f.eb + f.fb) := by
  have htop : a / 2 ^ (f.eb + f.fb) < 2 := by
    rw [Nat.div_lt_iff_lt_mul (Nat.two_pow_pos _), ← pow_succ']
    rwa [Fp.width, add_assoc, Nat.add_comm 1] at ha
  rw [bit_eq_decide, Nat.mod_eq_of_lt htop]
  generalize a / 2 ^ (f.eb + f.fb) = k at htop
  interval_cases k <;> rfl

theorem flip_eq_xor (ha : a < 2 ^ f.width) : f.flip a = a ^^^ 2 ^ (f.eb + f.fb) := by
  have hdiv := Nat.div_add_mod' a (2 ^ (f.eb + f.fb))
  have hmod := Nat.mod_lt a (Nat.two_pow_pos (f.eb + f.fb))
  rw [← b2n_sign ha] at hdiv
  rw [Fp.flip]
  cases hs : bit a (f.eb + f.fb) with
  | false =>
    rw [hs, b2n, if_neg Bool.false_ne_true, zero_mul, zero_add] at hdiv
    rw [hdiv] at hmod
    exact (xor_two_pow_of_lt hmod).symm
  | true =>
    rw [hs, b2n, if_pos rfl, one_mul, Nat.add_comm, ← xor_two_pow_of_lt hmod] at hdiv
    have hcancel : a ^^^ 2 ^ (f.eb + f.fb) = a % 2 ^ (f.eb + f.fb) := by
      conv_lhs => rw [← hdiv]
      exact Nat.xor_xor_cancel_right ..
    rw [xor_two_pow_of_lt hmod] at hdiv
    rw [hcancel, if_pos rfl]
    omega

end

/-! ### Minimum and maximum -/

section
variable {f : Fp} (hf : f.std) {a b : Nat} (ha : a < 2 ^ f.width) (hb : b < 2 ^ f.width)
include hf ha

/-- There is one pattern for each infinity. -/
theorem eq_infPat {n : Bool} (h : f.decode a = .inf n) : a = f.infPat n := by
  have hs := sign_of_inf hf h
  rw [decode_of_fields hf rfl rfl rfl] at h
  rw [infPat_eq_parts]
  conv_lhs => rw [eq_parts ha, hs]
  split_ifs at h with hex hfr
  rw [hex, hfr]

/-- There is one pattern for each zero. -/
theorem eq_parts_of_isZero (h : isZero (f.decode a)) : a = f.parts (bit a (f.eb + f.fb)) 0 0 := by
  rw [decode_of_fields hf rfl rfl rfl] at h
  conv_lhs => rw [eq_parts ha]
  by_cases hex : a / 2 ^ f.fb % 2 ^ f.eb = f.emax
  · rw [if_pos hex] at h
    split at h <;> exact absurd h.1 Bool.noConfusion
  · rw [if_neg hex] at h
    by_cases hex0 : a / 2 ^ f.fb % 2 ^ f.eb = 0
    · rw [if_pos hex0, isZero_fin] at h
      rw [hex0, h]
    · rw [if_neg hex0, isZero_fin] at h
      have := Nat.two_pow_pos f.fb
      omega

include hb

/-- The order of R127 between two patterns of which one is below the other. -/
theorem lessTotal_of_below
    (h : f.decode a = .inf true ∨ f.decode b = .inf false ∨
      ((f.decode a).isFin = true ∧ (f.decode b).isFin = true ∧ (f.decode a).toRat < (f.decode b).toRat) ∨
      (isZero (f.decode a) ∧ isZero (f.decode b) ∧ bit a (f.eb + f.fb) = true))
    (hna : (f.decode a).isNan = false) (hnb : (f.decode b).isNan = false) :
    ((f.decode a).lessTotal (f.decode b) = true ∧ (f.decode b).lessTotal (f.decode a) = false) ∨ a = b := by
  rcases h with hinf | hinf | ⟨hfa, hfb, hlt⟩ | ⟨hza, hzb, hsign⟩
  · by_cases hsame : f.decode b = .inf true
    · exact .inr ((eq_infPat hf ha hinf).trans (eq_infPat hf hb hsame).symm)
    · rw [hinf]
      generalize f.decode b = y at *
      cases y with
      | nan s => cases hnb
      | inf k =>
        cases k with
        | false => exact .inl ⟨rfl, rfl⟩
        | true => exact absurd rfl hsame
      | fin k m e => exact .inl ⟨rfl, rfl⟩
  · by_cases hsame : f.decode a = .inf false
    · exact .inr ((eq_infPat hf ha hsame).trans (eq_infPat hf hb hinf).symm)
    · rw [hinf]
      generalize f.decode a = x at *
      cases x with
      | nan s => cases hna
      | inf k =>
        cases k with
        | false => exact absurd rfl hsame
        | true => exact .inl ⟨rfl, rfl⟩
      | fin k m e => exact .inl ⟨rfl, rfl⟩
  · refine .inl ⟨?_, ?_⟩
    · by_contra h
      exact absurd ((lessTotal_le hfa hfb).2 (Bool.eq_false_iff.mpr h)) (not_le.mpr hlt)
    · by_contra h
      exact absurd ((lessTotal_le hfb hfa).1 (by simpa using h)) (not_le.mpr hlt)
  · cases hsb : bit b (f.eb + f.fb) with
    | true =>
      right
      rw [eq_parts_of_isZero hf ha hza, eq_parts_of_isZero hf hb hzb, hsign, hsb]
    | false =>
      left
      obtain ⟨m, e, hx, -⟩ := fin_of_decode hf hza.1
      obtain ⟨k, g, hy, -⟩ := fin_of_decode hf hzb.1
      rw [hx, isZero_fin] at hza
      rw [hy, isZero_fin] at hzb
      rw [hx, hy, hsign, hsb, hza, hzb]
      exact ⟨rfl, rfl⟩

omit hf in
theorem minmax_of_not_nan (mx : Bool) (hna : (f.decode a).isNan = false) (hnb : (f.decode b).isNan = false) :
    f.minmax mx a b = (if (if mx then (f.decode a).lessTotal (f.decode b) else (f.decode b).lessTotal (f.decode a)) then b else a, 0) := by
  have hr : f.minmax mx a b =
      ((if mx then (if (f.decode a).lessTotal (f.decode b) then b else a)
        else (if (f.decode b).lessTotal (f.decode a) then b else a)) % 2 ^ f.width, 0) := by
    rw [Fp.minmax]
    cases hx : f.decode a <;> cases hy : f.decode b <;> rw [hx] at hna <;> rw [hy] at hnb
    case nan.nan | nan.inf | nan.fin => cases hna
    case inf.nan | fin.nan => cases hnb
  have hmod (p : Bool) : (if p then b else a) % 2 ^ f.width = if p then b else a := Nat.mod_eq_of_lt (by split <;> assumption)
  rw [hr]
  cases mx <;> exact congrArg (·, 0) (hmod _)

/-- The minimum and the maximum of two patterns by R127. -/
theorem minmax_picks (mx : Bool) : f.picks mx a b (f.minmax mx a b).1 (f.minmax mx a b).2 := by
  refine ⟨fun h => ?signals, fun hx hy => ?quiets, fun hx hy => ?quietLeft, fun hx hy => ?quietRight, fun hna hnb => ?_⟩
  case signals =>
    have hmm : f.minmax mx a b = (f.canonNan, fNv) := by
      rw [Fp.minmax]
      rcases h with h | h
      · rw [h]
      · rw [h]
        rcases f.decode a with (_ | _) | _ | _ <;> rfl
    rw [hmm]
    exact ⟨rfl, rfl⟩
  case quiets =>
    rw [Fp.minmax, hx, hy]
    exact ⟨rfl, rfl⟩
  case quietLeft =>
    have hmm : f.minmax mx a b = (b % 2 ^ f.width, 0) := by
      rw [Fp.minmax, hx]
      generalize f.decode b = y at *
      cases y with
      | nan s => cases hy
      | inf n => rfl
      | fin n m e => rfl
    rw [hmm]
    exact ⟨Nat.mod_eq_of_lt hb, rfl⟩
  case quietRight =>
    have hmm : f.minmax mx a b = (a % 2 ^ f.width, 0) := by
      rw [Fp.minmax, hy]
      generalize f.decode a = x at *
      cases x with
      | nan s => cases hx
      | inf n => rfl
      | fin n m e => rfl
    rw [hmm]
    exact ⟨Nat.mod_eq_of_lt ha, rfl⟩
  · rw [minmax_of_not_nan ha hb mx hna hnb]
    refine ⟨rfl, fun h => ?_, fun h => ?_, fun h => ?_⟩
    · rcases lessTotal_of_below hf ha hb h hna hnb with ⟨hlt, hge⟩ | rfl
      · cases mx <;> simp [hlt, hge]
      · simp
    · rcases lessTotal_of_below hf hb ha h hnb hna with ⟨hlt, hge⟩ | rfl
      · cases mx <;> simp [hlt, hge]
      · simp
    · rw [h]
      exact ite_self _

end

/-! ### Classes -/

section
variable {f : Fp} (hf : f.std) {a : Nat}
include hf

/-- A value with exponent field zero is one below the least normal value. -/
theorem exponent_zero_iff (hfin : (f.decode a).isFin = true) (h0 : (f.decode a).toRat ≠ 0) :
    a / 2 ^ f.fb % 2 ^ f.eb = 0 ↔ |(f.decode a).toRat| < 2 ^ (f.emin + f.fb) := by
  have hfr := Nat.mod_lt a (Nat.two_pow_pos f.fb)
  have hpow (x : Int) : (0 : ℚ) < 2 ^ x := zpow_pos two_pos x
  rw [decode_of_fields hf rfl rfl rfl] at hfin h0 ⊢
  by_cases hmax : a / 2 ^ f.fb % 2 ^ f.eb = f.emax
  · rw [if_pos hmax] at hfin
    split at hfin <;> cases hfin
  · rw [if_neg hmax] at h0 ⊢
    rw [add_comm f.emin (f.fb : Int), zpow_add₀ two_ne_zero, zpow_natCast]
    by_cases hex : a / 2 ^ f.fb % 2 ^ f.eb = 0
    · rw [if_pos hex, Ne, toRat_fin_eq_zero] at h0
      rw [if_pos hex, if_neg h0, ← toRat_fin_false, toRat_fin, signOf, if_neg Bool.false_ne_true, one_mul,
        mul_lt_mul_iff_left₀ (hpow _)]
      exact iff_of_true hex (by exact_mod_cast hfr)
    · rw [if_neg hex, ← toRat_fin_false, toRat_fin, signOf, if_neg Bool.false_ne_true, one_mul]
      refine iff_of_false hex (not_lt.mpr ?_)
      refine mul_le_mul (by push_cast; linarith [Nat.cast_nonneg (α := ℚ) (a % 2 ^ f.fb)]) ?_ (hpow _).le (Nat.cast_nonneg _)
      exact zpow_le_zpow_right₀ one_le_two (by omega)

/-- The class of a value and its sign (R128). -/
theorem classCode_eq : f.classCode a =
    2 * (if f.decode a = .nan true then 5 else if f.decode a = .nan false then 4 else if (f.decode a).isFin = false then 3
      else if (f.decode a).toRat = 0 then 0 else if |(f.decode a).toRat| < 2 ^ (f.emin + f.fb) then 1 else 2) +
      (if (f.decode a).isNan = false ∧ bit a (f.eb + f.fb) = true then 1 else 0) := by
  rw [Fp.classCode]
  cases hx : f.decode a with
  | nan s => cases s <;> rfl
  | inf n =>
    rw [sign_of_inf hf hx]
    cases n <;> rfl
  | fin n m e =>
    have hnan : (Val.fin n m e).isNan = false := rfl
    have hfin : ¬(Val.fin n m e).isFin = false := Bool.noConfusion
    have hkind (s : Bool) : ¬Val.fin n m e = .nan s := Val.noConfusion
    rw [sign_of_fin hf hx, if_neg (hkind true), if_neg (hkind false), if_neg hfin]
    simp only [hnan, true_and, toRat_fin_eq_zero]
    by_cases hm : m = 0
    · rw [if_pos hm, if_pos hm]
      cases n <;> rfl
    · have hiff := exponent_zero_iff hf (a := a) (by rw [hx]; rfl) (by rwa [hx, Ne, toRat_fin_eq_zero])
      rw [hx] at hiff
      simp only [if_neg hm, hiff]
      split <;> cases n <;> rfl

end

end Sys2Proof.Machine
end

section
/-! The conversions to integers (R129): the integer that the mode takes, and its saturation. -/

namespace Sys2Proof.Machine

open Sys2Proof.Laws

/-- v is the integer that the mode rounds y to (R129). -/
def intRounds (rm : Rm) (y : ℚ) (v : Int) : Prop :=
  match rm with
  | .rne => |(v : ℚ) - y| ≤ 1 / 2 ∧ (|(v : ℚ) - y| = 1 / 2 → v % 2 = 0)
  | .rtn => v = ⌊y⌋
  | .rtp => v = ⌈y⌉
  | .rtz => v = if y < 0 then ⌈y⌉ else ⌊y⌋

/-- An integer with a sign apart. -/
def signedInt (n : Bool) (k : Nat) : Int := if n then -(k : Int) else k

theorem cast_signedInt (n : Bool) (k : Nat) : (signedInt n k : ℝ) = signedBy n k := by
  cases n <;> simp [signedInt, signedBy]

theorem signedInt_parity (n : Bool) (k : Nat) : signedInt n k % 2 = 0 ↔ k % 2 = 0 := by
  cases n <;> simp only [signedInt, if_true, if_false, Bool.false_eq_true] <;> omega

section
variable {rm : Rm} {n : Bool} {y : ℚ} {b : ℝ} {q k : Nat}

/-- The floor of a number with this sign and magnitude. -/
theorem eq_floor {v : Int} (h1 : (v : ℝ) ≤ y) (h2 : (y : ℝ) < v + 1) : v = ⌊y⌋ :=
  (Int.floor_eq_iff.mpr ⟨by exact_mod_cast h1, by exact_mod_cast h2⟩).symm

theorem eq_ceil {v : Int} (h1 : (v : ℝ) - 1 < y) (h2 : (y : ℝ) ≤ v) : v = ⌈y⌉ :=
  (Int.ceil_eq_iff.mpr ⟨by exact_mod_cast h1, by exact_mod_cast h2⟩).symm

theorem takes_away (hc : inCell b 0 q) (ht : takes rm n b 0 q k) (h : roundsAway rm n) : (k : ℝ) - 1 < b ∧ b ≤ k := by
  obtain ⟨hlo, hhi⟩ := hc
  obtain ⟨hup, hdown⟩ := ht
  rw [goesUp_of_away h] at hup hdown
  rw [zpow_zero, mul_one] at hlo hhi hup hdown
  by_cases hlt : (q : ℝ) < b
  · rw [hup hlt, Nat.cast_succ, add_sub_cancel_right]
    exact ⟨hlt, hhi.le⟩
  · rw [hdown hlt]
    exact ⟨by linarith, not_lt.mp hlt⟩

theorem takes_toward (hc : inCell b 0 q) (ht : takes rm n b 0 q k) (hn : rm ≠ .rne) (h : ¬roundsAway rm n) :
    (k : ℝ) ≤ b ∧ b < k + 1 := by
  rw [inCell, zpow_zero, mul_one, mul_one] at hc
  rwa [ht.2 (not_goesUp_of_toward hn h)]

theorem takes_half (hc : inCell b 0 q) (ht : takes .rne n b 0 q k) :
    |(k : ℝ) - b| ≤ 1 / 2 ∧ (|(k : ℝ) - b| = 1 / 2 → k % 2 = 0) := by
  obtain ⟨hlo, hhi⟩ := hc
  obtain ⟨hup, hdown⟩ := ht
  simp only [goesUp, midpoint_eq, zpow_zero, mul_one] at hlo hhi hup hdown
  by_cases hgo : (q : ℝ) + 1 / 2 < b ∨ ((q : ℝ) + 1 / 2 = b ∧ q % 2 = 1)
  · have hmid : (q : ℝ) + 1 / 2 ≤ b := hgo.elim le_of_lt (fun h => h.1.le)
    rw [hup hgo, Nat.cast_succ, abs_of_pos (by linarith)]
    refine ⟨by linarith, fun h => ?_⟩
    rcases hgo with hlt | ⟨-, hodd⟩
    · linarith
    · omega
  · have hk := hdown hgo
    rw [not_or, not_lt, not_and] at hgo
    obtain ⟨hmid, hodd⟩ := hgo
    rw [hk, abs_of_nonpos (by linarith)]
    refine ⟨by linarith, fun h => ?_⟩
    have := hodd (by linarith)
    omega

theorem intRounds_of_takes (hy : (y : ℝ) = signedBy n b) (hc : inCell b 0 q) (ht : takes rm n b 0 q k) :
    intRounds rm y (signedInt n k) := by
  have hk0 : (0 : ℝ) ≤ k := Nat.cast_nonneg k
  cases rm with
  | rne =>
    obtain ⟨hle, htie⟩ := takes_half hc ht
    have habs : ((|(signedInt n k : ℚ) - y| : ℚ) : ℝ) = |(k : ℝ) - b| := by
      rw [Rat.cast_abs, Rat.cast_sub, Rat.cast_intCast, cast_signedInt, hy]
      cases n with
      | false => rfl
      | true => exact (congrArg abs (neg_sub_neg (k : ℝ) b)).trans (abs_sub_comm b k)
    have hhalf : ((1 / 2 : ℚ) : ℝ) = 1 / 2 := by norm_num
    rw [← habs, ← hhalf] at hle htie
    exact ⟨Rat.cast_le.mp hle, fun h => (signedInt_parity n k).mpr (htie (congrArg _ h))⟩
  | rtn =>
    apply eq_floor <;> rw [cast_signedInt, hy]
    all_goals
      cases n with
      | false =>
        obtain ⟨hlo, hhi⟩ := takes_toward hc ht Rm.noConfusion (by simp [roundsAway])
        simp only [signedBy, Bool.false_eq_true, if_false]
        linarith
      | true =>
        obtain ⟨hlo, hhi⟩ := takes_away hc ht (.inl ⟨rfl, rfl⟩)
        simp only [signedBy, if_true]
        linarith
  | rtp =>
    apply eq_ceil <;> rw [cast_signedInt, hy]
    all_goals
      cases n with
      | false =>
        obtain ⟨hlo, hhi⟩ := takes_away hc ht (.inr ⟨rfl, rfl⟩)
        simp only [signedBy, Bool.false_eq_true, if_false]
        linarith
      | true =>
        obtain ⟨hlo, hhi⟩ := takes_toward hc ht Rm.noConfusion (by simp [roundsAway])
        simp only [signedBy, if_true]
        linarith
  | rtz =>
    obtain ⟨hlo, hhi⟩ := takes_toward hc ht Rm.noConfusion (by simp [roundsAway])
    show signedInt n k = if y < 0 then ⌈y⌉ else ⌊y⌋
    have hyneg : y < 0 ↔ signedBy n b < 0 := by
      rw [← hy]
      exact_mod_cast Iff.rfl
    cases n with
    | false =>
      rw [signedBy, if_neg Bool.false_ne_true] at hyneg hy
      rw [if_neg (mt hyneg.mp (by linarith))]
      apply eq_floor <;> rw [cast_signedInt, hy] <;> simp only [signedBy, Bool.false_eq_true, if_false] <;> linarith
    | true =>
      rw [signedBy, if_pos rfl] at hyneg hy
      split
      · apply eq_ceil <;> rw [cast_signedInt, hy] <;> simp only [signedBy, if_true] <;> linarith
      · next h =>
        have hb := not_lt.mp (mt hyneg.mpr h)
        apply eq_floor <;> rw [cast_signedInt, hy] <;> simp only [signedBy, if_true] <;> linarith

end

/-- The model's rounding to an integer, and when it is inexact. -/
theorem roundInt_spec (rm : Rm) (n : Bool) (m : Nat) (e : Int) :
    intRounds rm (Val.fin n m e).toRat (roundInt rm n m e).1 ∧
      ((roundInt rm n m e).2 = true ↔ ((roundInt rm n m e).1 : ℚ) ≠ (Val.fin n m e).toRat) := by
  obtain ⟨q, hc, hinex, hup, hdown⟩ := roundAt_spec (rm := rm) (neg := n) one_pos (cutsAlike_refl (0 - 1) (scaled m 1 e))
  have ht : takes rm n (scaled m 1 e) 0 q (roundAt rm n m 1 e 0).1 := ⟨hup, hdown⟩
  have hy : (((Val.fin n m e).toRat : ℚ) : ℝ) = signedBy n (scaled m 1 e) := by rw [toReal_fin_signedBy, scaled_one]
  have hval : (roundInt rm n m e).1 = signedInt n (roundAt rm n m 1 e 0).1 := rfl
  rw [hval]
  refine ⟨intRounds_of_takes hy hc ht, ?_⟩
  have hcast : ((signedInt n (roundAt rm n m 1 e 0).1 : ℚ) ≠ (Val.fin n m e).toRat) ↔
      signedBy n ((roundAt rm n m 1 e 0).1 : ℝ) ≠ signedBy n (scaled m 1 e) := by
    rw [← hy, ← cast_signedInt]
    exact_mod_cast Iff.rfl
  rw [hcast]
  refine hinex.trans ((takes_ne hc ht).trans ?_)
  rw [zpow_zero, mul_one]
  cases n with
  | false => exact Iff.rfl
  | true => exact neg_inj.not.symm

/-! ### Saturation -/

theorem toNat_ofInt_eq_pat (v : Int) : (BitVec.ofInt 64 v).toNat = pat 64 v := by
  rw [BitVec.toNat_ofInt, pat]
  rfl

theorem pat_lt (v : Int) : pat 64 v < 2 ^ 64 := by
  rw [← toNat_ofInt_eq_pat]
  exact BitVec.isLt _

/-- The least integer that the conversion gives. -/
def intLow (sgn : Bool) : Int := if sgn then -(2 ^ 63) else 0

/-- The greatest integer that the conversion gives. -/
def intHigh (sgn : Bool) : Int := if sgn then 2 ^ 63 - 1 else 2 ^ 64 - 1

theorem intLow_le_intHigh (sgn : Bool) : intLow sgn ≤ intHigh sgn := by cases sgn <;> decide

section
variable {f : Fp} (rm : Rm) (sgn : Bool) {a : Nat}

theorem toInt64_of_nan (h : (f.decode a).isNan = true) : f.toInt64 rm sgn a = (0, 1) := by
  obtain ⟨s, hs⟩ := exists_nan_of_isNan h
  rw [Fp.toInt64, hs]
  rfl

theorem toInt64_of_inf {n : Bool} (h : f.decode a = .inf n) :
    f.toInt64 rm sgn a = (pat 64 (if n then intLow sgn else intHigh sgn), 4) := by
  rw [Fp.toInt64, h]
  rfl

/-- A finite value is rounded to an integer, which saturates. -/
theorem toInt64_of_isFin (h : (f.decode a).isFin = true) :
    ∃ v : Int, intRounds rm (f.decode a).toRat v ∧ f.toInt64 rm sgn a =
      if v < intLow sgn then (pat 64 (intLow sgn), 4) else if intHigh sgn < v then (pat 64 (intHigh sgn), 4)
      else (pat 64 v, if (v : ℚ) = (f.decode a).toRat then 0 else 32) := by
  obtain ⟨n, m, e, hx⟩ := exists_fin_of_isFin h
  obtain ⟨hround, hinex⟩ := roundInt_spec rm n m e
  have hflag : (if (roundInt rm n m e).2 then fNx else 0) =
      if ((roundInt rm n m e).1 : ℚ) = (Val.fin n m e).toRat then 0 else 32 := by
    by_cases heq : ((roundInt rm n m e).1 : ℚ) = (Val.fin n m e).toRat
    · rw [if_pos heq, if_neg (fun h => hinex.mp h heq)]
    · rw [if_neg heq, if_pos (hinex.mpr heq)]
      rfl
  refine ⟨(roundInt rm n m e).1, by rw [hx]; exact hround, ?_⟩
  rw [hx, ← hflag, Fp.toInt64, hx]
  rfl

theorem toInt64_lt (f : Fp) (v : Nat) : (f.toInt64 rm sgn v).1 < 2 ^ 64 := by
  by_cases hfin : (f.decode v).isFin = true
  · obtain ⟨k, -, hk⟩ := toInt64_of_isFin rm sgn hfin
    rw [hk]
    split
    · exact pat_lt _
    · split <;> exact pat_lt _
  · cases hv : f.decode v with
    | nan s =>
      rw [toInt64_of_nan rm sgn (by rw [hv]; rfl)]
      exact Nat.two_pow_pos 64
    | inf n =>
      rw [toInt64_of_inf rm sgn hv]
      exact pat_lt _
    | fin n m e => simp [hv, Val.isFin] at hfin

end

end Sys2Proof.Machine
end

section
/-! The floating words on operands that are not both finite, and the words that round nothing (R125 to R129). -/

namespace Sys2Proof.Machine

open Sys2Proof.Laws

/-- The word completes with the result r.1 in xd and the flags r.2 in FLAGS. -/
def leaves (s : State) (d : BitVec 6) (i : Instr) (r : Nat × Nat) : Prop :=
  ∃ t, exec i s = .next t ∧ (xr t d).toNat = r.1 ∧ t.vc.ctl.flags = s.vc.ctl.flags ||| w64 r.2

/-! ### What each word leaves -/

section
variable {s : State} {d : BitVec 6} (hd : d ≠ 0) (a b : BitVec 6) (f : Bool)
include hd

theorem leaves_of_lt {i : Instr} {c : EClass} {r : Nat × Nat} (hi : exec i s = fpOp s d c r) (hr : r.1 < 2 ^ 64) : leaves s d i r := by
  obtain ⟨t, ht, hval, hflags⟩ := fpOp_result s hd c hr
  exact ⟨t, hi.trans ht, hval, hflags⟩

/-- A word whose result fits the format. -/
theorem leaves_of_format {i : Instr} {c : EClass} {r : Nat × Nat} (hi : exec i s = fpOp s d c r) (hr : r.1 < 2 ^ (fpOf f).width) :
    leaves s d i r :=
  leaves_of_lt hd hi (hr.trans_le (Nat.pow_le_pow_right two_pos (width_fpOf_le f)))

theorem leaves_fadd : leaves s d (.fadd d a b f) ((fpOf f).add (frmMode s) (fpArg s f a) (fpArg s f b)) :=
  leaves_of_format hd f rfl (add_lt (std_fpOf f) ..)

theorem leaves_fsub : leaves s d (.fsub d a b f) ((fpOf f).sub (frmMode s) (fpArg s f a) (fpArg s f b)) :=
  leaves_of_format hd f rfl (add_lt (std_fpOf f) ..)

theorem leaves_fmul : leaves s d (.fmul d a b f) ((fpOf f).mul (frmMode s) (fpArg s f a) (fpArg s f b)) :=
  leaves_of_format hd f rfl (mul_lt (std_fpOf f) ..)

theorem leaves_fdiv : leaves s d (.fdiv d a b f) ((fpOf f).div (frmMode s) (fpArg s f a) (fpArg s f b)) :=
  leaves_of_format hd f rfl (div_lt (std_fpOf f) ..)

theorem leaves_fsqrt : leaves s d (.fsqrt d a f) ((fpOf f).sqrt (frmMode s) (fpArg s f a)) :=
  leaves_of_format hd f rfl (sqrt_lt (std_fpOf f) ..)

theorem leaves_fmac : leaves s d (.fmac d a b f) ((fpOf f).fma (frmMode s) (fpArg s f a) (fpArg s f b) (fpArg s f d)) :=
  leaves_of_format hd f rfl (fma_lt (std_fpOf f) ..)

theorem leaves_fmin : leaves s d (.fmin d a b f) ((fpOf f).minmax false (fpArg s f a) (fpArg s f b)) :=
  leaves_of_format hd f rfl (minmax_lt (std_fpOf f) ..)

theorem leaves_fmax : leaves s d (.fmax d a b f) ((fpOf f).minmax true (fpArg s f a) (fpArg s f b)) :=
  leaves_of_format hd f rfl (minmax_lt (std_fpOf f) ..)

theorem leaves_fabs : leaves s d (.fabs d a f) (signOp (fpOf f) (fpArg s f a) (fpArg s f a % 2 ^ ((fpOf f).eb + (fpOf f).fb))) :=
  leaves_of_format hd f rfl (signOp_lt (std_fpOf f) _ (magnitude_lt _))

theorem leaves_fneg : leaves s d (.fneg d a f) (signOp (fpOf f) (fpArg s f a) ((fpOf f).flip (fpArg s f a))) :=
  leaves_of_format hd f rfl (signOp_lt (std_fpOf f) _ (flip_lt (fpArg_lt s f a)))

theorem leaves_fcpys : leaves s d (.fcpys d a b f) (signOp (fpOf f) (fpArg s f a) (fpArg s f a % 2 ^ ((fpOf f).eb + (fpOf f).fb) +
    b2n (bit (fpArg s f b) ((fpOf f).eb + (fpOf f).fb)) * 2 ^ ((fpOf f).eb + (fpOf f).fb))) :=
  leaves_of_format hd f rfl (signOp_lt (std_fpOf f) _ (add_sign_lt ..))

theorem leaves_fcvtF32F64 : leaves s d (.fcvtF32F64 d a) (fpF32.convert fpF64 (frmMode s) (fpArg s true a)) :=
  leaves_of_format hd false rfl (convert_lt (std_fpOf false) ..)

theorem leaves_fcvtF64F32 : leaves s d (.fcvtF64F32 d a) (fpF64.convert fpF32 (frmMode s) (fpArg s false a)) :=
  leaves_of_format hd true rfl (convert_lt (std_fpOf true) ..)

theorem leaves_fclass : leaves s d (.fclass d a f) ((fpOf f).classCode (fpArg s f a), 0) :=
  leaves_of_lt hd rfl ((classCode_lt _).trans (by decide))

omit hd in
theorem boolRes_lt (p : Bool × Nat) : (boolRes p).1 < 2 ^ 64 := by
  obtain ⟨b, fl⟩ := p
  cases b
  · exact Nat.two_pow_pos 64
  · exact Nat.one_lt_two_pow (by decide)

theorem leaves_fceq : leaves s d (.fceq d a b f) (boolRes ((fpOf f).ceq (fpArg s f a) (fpArg s f b))) :=
  leaves_of_lt hd rfl (boolRes_lt _)

theorem leaves_fclt : leaves s d (.fclt d a b f) (boolRes ((fpOf f).clt (fpArg s f a) (fpArg s f b))) :=
  leaves_of_lt hd rfl (boolRes_lt _)

theorem leaves_fcle : leaves s d (.fcle d a b f) (boolRes ((fpOf f).cle (fpArg s f a) (fpArg s f b))) :=
  leaves_of_lt hd rfl (boolRes_lt _)

omit hd in
theorem leaves_congr {i : Instr} {r p : Nat × Nat} (h : leaves s d i r) (e : r = p) : leaves s d i p := e ▸ h

omit hd in
/-- A truth value, written as the statement writes it. -/
theorem leaves_decide {i : Instr} {r : Bool × Nat} (h : leaves s d i (boolRes r)) {p : Prop} [Decidable p] {fl : Nat}
    (e : r = (decide p, fl)) : leaves s d i (if p then 1 else 0, fl) := by
  refine leaves_congr h ?_
  rw [e]
  simp [boolRes, b2n]

theorem leaves_fcvtI64T : leaves s d (.fcvtI64T d a f) ((fpOf f).toInt64 (frmMode s) true (fpArg s f a)) :=
  leaves_of_lt hd rfl (toInt64_lt ..)

theorem leaves_fcvtN64T : leaves s d (.fcvtN64T d a f) ((fpOf f).toInt64 (frmMode s) false (fpArg s f a)) :=
  leaves_of_lt hd rfl (toInt64_lt ..)

end

/-- What a conversion to an integer leaves for each kind of operand (R129). -/
theorem conversion_of_leaves {s : State} {d : BitVec 6} {i : Instr} {F : Fp} {rm : Rm} {sgn : Bool} {v : Nat}
    (h : leaves s d i (F.toInt64 rm sgn v)) :
    ((F.decode v).isNan = true → leaves s d i (0, 1)) ∧
    (F.decode v = .inf true → leaves s d i ((BitVec.ofInt 64 (intLow sgn)).toNat, 4)) ∧
    (F.decode v = .inf false → leaves s d i ((BitVec.ofInt 64 (intHigh sgn)).toNat, 4)) ∧
    ((F.decode v).isFin = true → ∃ k : Int, intRounds rm (F.decode v).toRat k ∧
      (k < intLow sgn → leaves s d i ((BitVec.ofInt 64 (intLow sgn)).toNat, 4)) ∧
      (intHigh sgn < k → leaves s d i ((BitVec.ofInt 64 (intHigh sgn)).toNat, 4)) ∧
      (intLow sgn ≤ k → k ≤ intHigh sgn →
        leaves s d i ((BitVec.ofInt 64 k).toNat, if (k : ℚ) = (F.decode v).toRat then 0 else 32))) := by
  have hrange := intLow_le_intHigh sgn
  simp only [toNat_ofInt_eq_pat]
  refine ⟨fun hv => leaves_congr h (toInt64_of_nan rm sgn hv), fun hv => leaves_congr h (toInt64_of_inf rm sgn hv),
    fun hv => leaves_congr h (toInt64_of_inf rm sgn hv), fun hv => ?_⟩
  obtain ⟨k, hround, hk⟩ := toInt64_of_isFin rm sgn hv
  refine ⟨k, hround, fun hlow => ?_, fun hhigh => ?_, fun hlow hhigh => ?_⟩
  · exact leaves_congr h (hk.trans (if_pos hlow))
  · exact leaves_congr h (hk.trans ((if_neg (by omega)).trans (if_pos hhigh)))
  · exact leaves_congr h (hk.trans ((if_neg (by omega)).trans (if_neg (by omega))))

theorem badProduct_of_nan {x y : Val} (h : x.isNan = true ∨ y.isNan = true) : badProduct x y = false := by
  obtain ⟨s, rfl⟩ | ⟨n, s, rfl, rfl⟩ | ⟨n, m, e, s, rfl, rfl⟩ := nan_cases h <;> rfl

/-- The patterns that the statement writes out are the format's. -/
theorem patterns_fpOf (f : Bool) : (fpOf f).canonNan = (if f then 0x7FF8000000000000 else 0x7FC00000) ∧
    (∀ n, (fpOf f).infPat n = (if f then 0x7FF0000000000000 else 0x7F800000) + (if n then (if f then 2 ^ 63 else 2 ^ 31) else 0)) ∧
    2 ^ ((fpOf f).eb + (fpOf f).fb) = if f then 2 ^ 63 else 2 ^ 31 := by
  cases f <;> exact ⟨rfl, fun n => by cases n <;> rfl, rfl⟩

/-- Settles O7: each clause is what the model's function gives for that kind of operands, left in xd and FLAGS by the word. -/
theorem floatCompares : Obligations.FloatCompares := by
  unfold Obligations.FloatCompares
  intro s d a b f hd F opd x y w top nan inf zero isInf sg nv gives badProd
  have hF : F.std := std_fpOf f
  obtain ⟨hnan, hinf, htop⟩ : F.canonNan = nan ∧ (∀ n, F.infPat n = inf n) ∧ 2 ^ (F.eb + F.fb) = top := patterns_fpOf f
  have hbad : badProduct x y = true ↔ badProd := badProduct_iff
  have hlta := fpArg_lt s f a
  have hltb := fpArg_lt s f b
  refine ⟨fun h => ?compareNan, fun hx hy => ?compareFinite, fun n hx hy => ?compareInfLeft, fun n hy hx => ?compareInfRight,
    fun h => ?nanPair, fun h => ?nanMac, fun h => ?badProduct, fun h => ?badQuotient, fun n hx hy => ?addOpposite,
    fun n hx hy => ?subSame, fun h hx hy hb => ?macInfProduct, fun h => ?badRoot, fun h => ?nanOne, fun n hx hy => ?infLeft,
    fun n hy hx => ?infRight, fun n hw hx hy => ?macInfAddend, fun hx h0 hy => ?divideByZero, fun hx => ?rootInf, fun n hx => ?convertInf,
    fun hx => ?signs, ⟨_, _, leaves_fmin hd a b f, minmax_picks hF hlta hltb false⟩,
    ⟨_, _, leaves_fmax hd a b f, minmax_picks hF hlta hltb true⟩, ?classes, ?integers⟩
  case compareNan =>
    exact ⟨leaves_congr (leaves_fceq hd a b f) (congrArg boolRes (ceq_of_nan F h)),
      leaves_congr (leaves_fclt hd a b f) (congrArg boolRes (clt_of_nan F h)),
      leaves_congr (leaves_fcle hd a b f) (congrArg boolRes (cle_of_nan F h))⟩
  case compareFinite =>
    intro p hp
    simp only [List.mem_cons, List.not_mem_nil, or_false] at hp
    rcases hp with rfl | rfl | rfl
    · exact leaves_congr (leaves_fceq hd a b f) (congrArg boolRes (ceq_of_isFin F hx hy))
    · exact leaves_congr (leaves_fclt hd a b f) (congrArg boolRes (clt_of_isFin F hx hy))
    · exact leaves_congr (leaves_fcle hd a b f) (congrArg boolRes (cle_of_isFin F hx hy))
  case compareInfLeft =>
    obtain ⟨heq, hlt, hle⟩ := compares_inf_left F hx hy
    exact ⟨leaves_decide (leaves_fceq hd a b f) heq, leaves_decide (leaves_fclt hd a b f) hlt, leaves_decide (leaves_fcle hd a b f) hle⟩
  case compareInfRight =>
    obtain ⟨heq, hlt, hle⟩ := compares_inf_right F hy hx
    exact ⟨leaves_decide (leaves_fceq hd a b f) heq, leaves_decide (leaves_fclt hd a b f) hlt, leaves_decide (leaves_fcle hd a b f) hle⟩
  case nanPair =>
    intro i hi
    rw [← hnan]
    simp only [List.mem_cons, List.not_mem_nil, or_false] at hi
    rcases hi with rfl | rfl | rfl | rfl
    · exact leaves_congr (leaves_fadd hd a b f) (add_of_nan _ h)
    · exact leaves_congr (leaves_fsub hd a b f) (sub_of_nan _ hF hltb h)
    · exact leaves_congr (leaves_fmul hd a b f) (mul_of_nan _ h)
    · exact leaves_congr (leaves_fdiv hd a b f) (div_of_nan _ h)
  case nanMac =>
    rw [← hnan]
    have hgood : badProduct x y = false := by
      rcases h with h | h | ⟨-, h⟩
      · exact badProduct_of_nan (.inl h)
      · exact badProduct_of_nan (.inr h)
      · exact Bool.eq_false_iff.mpr (mt hbad.mp h)
    exact leaves_congr (leaves_fmac hd a b f) (fma_of_nan _ hgood (h.imp_right (Or.imp_right And.left)))
  case badProduct =>
    rw [← hnan]
    exact ⟨leaves_congr (leaves_fmul hd a b f) (mul_of_badProduct _ (hbad.mpr h)),
      leaves_congr (leaves_fmac hd a b f) (fma_of_badProduct _ (hbad.mpr h) _)⟩
  case badQuotient =>
    rw [← hnan]
    exact leaves_congr (leaves_fdiv hd a b f) (div_invalid _ h)
  case addOpposite =>
    rw [← hnan]
    exact leaves_congr (leaves_fadd hd a b f) (add_inf_opposite _ hx hy)
  case subSame =>
    rw [← hnan]
    exact leaves_congr (leaves_fsub hd a b f) (sub_inf_same _ hF hltb hx hy)
  case macInfProduct =>
    have hgood : badProduct x y = false := Bool.eq_false_iff.mpr (mt hbad.mp hb)
    have hsign : (!(sg a != sg b)) = (sg a == sg b) := Bool.not_not _
    have hmac (hw : w.isNan = false) := (fma_of_inf (frmMode s) hF h hx hy hgood (c := opd d) hw).trans (infPlus_eq ..)
    rw [← hsign, ← hnan, ← hinf]
    refine ⟨fun hw => ?_, fun hw hne => ?_⟩
    · exact leaves_congr (leaves_fmac hd a b f) ((hmac (by rw [hw]; rfl)).trans (if_pos hw))
    · exact leaves_congr (leaves_fmac hd a b f) ((hmac hw).trans (if_neg hne))
  case badRoot =>
    rw [← hnan]
    exact leaves_congr (leaves_fsqrt hd a f) (sqrt_invalid _ h)
  case nanOne =>
    refine ⟨fun i hi => ?_, fun hf => ?_, fun hf => ?_⟩
    · rw [← hnan]
      simp only [List.mem_cons, List.not_mem_nil, or_false] at hi
      rcases hi with rfl | rfl | rfl | rfl
      · exact leaves_congr (leaves_fsqrt hd a f) (sqrt_of_nan _ h)
      · exact leaves_congr (leaves_fabs hd a f) (signOp_of_nan h)
      · exact leaves_congr (leaves_fneg hd a f) (signOp_of_nan h)
      · exact leaves_congr (leaves_fcpys hd a b f) (signOp_of_nan h)
    · subst hf
      exact leaves_congr (leaves_fcvtF32F64 hd a) (convert_of_nan _ h)
    · subst hf
      exact leaves_congr (leaves_fcvtF64F32 hd a) (convert_of_nan _ h)
  case infLeft =>
    have hxinf : isInfinite x := isInfinite_iff.mpr ⟨n, hx⟩
    have hxnan : x.isNan = false := by rw [hx]; rfl
    rw [← hinf, ← hinf]
    refine ⟨fun hne => ?_, fun hne => ?_, fun h0 => ?_, fun hfin => ?_⟩
    · exact leaves_congr (leaves_fadd hd a b f) (add_inf_left _ hx hy hne)
    · exact leaves_congr (leaves_fsub hd a b f) (sub_inf_left _ hF hltb hx hy hne)
    · have hgood : badProduct x y = false := Bool.eq_false_iff.mpr fun h =>
        (badProduct_iff.mp h).elim (fun h => not_isZero_inf (hx ▸ h.1)) (fun h => h0 h.2)
      exact leaves_congr (leaves_fmul hd a b f) (mul_of_inf _ hF (.inl hxinf) hxnan hy hgood)
    · exact leaves_congr (leaves_fdiv hd a b f) (div_inf_left _ hF hxinf hfin)
  case infRight =>
    have hyinf : isInfinite y := isInfinite_iff.mpr ⟨n, hy⟩
    have hynan : y.isNan = false := by rw [hy]; rfl
    rw [← hinf, ← hinf, ← hinf, ← htop]
    refine ⟨?_, ?_, fun h0 => ?_, ?_⟩
    · exact leaves_congr (leaves_fadd hd a b f) (add_inf_right _ hx hy)
    · exact leaves_congr (leaves_fsub hd a b f) (sub_inf_right _ hF hltb hx hy)
    · have hgood : badProduct x y = false := Bool.eq_false_iff.mpr fun h =>
        (badProduct_iff.mp h).elim (fun h => h0 h.1) (fun h => not_isZero_inf (hy ▸ h.2))
      exact leaves_congr (leaves_fmul hd a b f) (mul_of_inf _ hF (.inr hyinf) (not_nan_of_isFin hx) hynan hgood)
    · exact leaves_congr (leaves_fdiv hd a b f) (div_inf_right _ hF hx hyinf)
  case macInfAddend =>
    rw [← hinf]
    exact leaves_congr (leaves_fmac hd a b f) (fma_add_inf _ hx hy hw)
  case divideByZero =>
    rw [← hinf]
    exact leaves_congr (leaves_fdiv hd a b f) (div_by_zero _ hF hx h0 hy)
  case rootInf =>
    rw [← hinf]
    exact leaves_congr (leaves_fsqrt hd a f) (sqrt_inf _ hx)
  case convertInf =>
    refine ⟨fun hf => ?_, fun hf => ?_⟩
    · subst hf
      exact leaves_congr (leaves_fcvtF32F64 hd a) ((convert_inf _ hx).trans (congrArg (·, 0) ((patterns_fpOf false).2.1 n)))
    · subst hf
      exact leaves_congr (leaves_fcvtF64F32 hd a) ((convert_inf _ hx).trans (congrArg (·, 0) ((patterns_fpOf true).2.1 n)))
  case signs =>
    rw [← htop]
    refine ⟨?_, ?_, ?_⟩
    · exact leaves_congr (leaves_fabs hd a f) (signOp_of_not_nan hx)
    · exact leaves_congr (leaves_fneg hd a f) ((signOp_of_not_nan hx).trans (congrArg (·, 0) (flip_eq_xor hlta)))
    · have h : signOp F (opd a) (opd a % 2 ^ (F.eb + F.fb) + b2n (bit (opd b) (F.eb + F.fb)) * 2 ^ (F.eb + F.fb)) =
          (opd a % 2 ^ (F.eb + F.fb) + opd b / 2 ^ (F.eb + F.fb) * 2 ^ (F.eb + F.fb), 0) := by
        rw [signOp_of_not_nan hx]
        exact congrArg (fun k => (opd a % 2 ^ (F.eb + F.fb) + k * 2 ^ (F.eb + F.fb), 0)) (b2n_sign hltb)
      exact leaves_congr (leaves_fcpys hd a b f) h
  case classes => exact leaves_congr (leaves_fclass hd a f) (congrArg (·, 0) (classCode_eq hF))
  case integers =>
    intro p hp
    simp only [List.mem_cons, List.not_mem_nil, or_false] at hp
    rcases hp with rfl | rfl
    · exact conversion_of_leaves (leaves_fcvtI64T hd a f)
    · exact conversion_of_leaves (leaves_fcvtN64T hd a f)

end Sys2Proof.Machine
end

section
/-! tbl.load (R142): the loads of a table's words, one after another, and what they leave as it was. -/

namespace Sys2Proof.Machine

open Sys2Proof.Laws

/-! ### A list of values in a sparse table -/

theorem mget_mputs_outside {α : Type} [DecidableEq α] (z : α) (m : SMap α) {k a : Nat} {vs : List α}
    (h : a < k ∨ k + vs.length ≤ a) : mget z (mputs z m k vs) a = mget z m a := by
  induction vs generalizing m k with
  | nil => rfl
  | cons v vs ih =>
    rw [List.length_cons] at h
    rw [mputs, ih _ (by omega), mget_mput_ne _ _ _ (by omega)]

theorem mget_mputs_inside {α : Type} [DecidableEq α] (z : α) (m : SMap α) (k : Nat) {i : Nat} {vs : List α} (h : i < vs.length) :
    mget z (mputs z m k vs) (k + i) = listAt z vs i := by
  induction vs generalizing m k i with
  | nil => exact absurd h (Nat.not_lt_zero i)
  | cons v vs ih =>
    cases i with
    | zero => exact (mget_mputs_outside z _ (Or.inl (Nat.lt_succ_self k))).trans (mget_mput_same z m k v)
    | succ i => rw [mputs, show k + (i + 1) = k + 1 + i by omega, ih _ _ (Nat.lt_of_succ_lt_succ h), listAt_cons_succ]

theorem listAt_map {α β : Type} (y : α) (z : β) (f : α → β) {l : List α} {i : Nat} (h : i < l.length) :
    listAt z (l.map f) i = f (listAt y l i) := by
  induction l generalizing i with
  | nil => exact absurd h (Nat.not_lt_zero i)
  | cons x l ih =>
    cases i with
    | zero => rfl
    | succ i => exact ih (Nat.lt_of_succ_lt_succ h)

/-! ### What any load leaves as it was -/

theorem updVC_ctl_tbl {s : State} {i : Nat} {f : VC → VC} (hctl : ∀ v, (f v).ctl = v.ctl) (htbl : ∀ v, (f v).tbl = v.tbl) :
    (updVC s i f).vc.ctl = s.vc.ctl ∧ (updVC s i f).vc.tbl = s.vc.tbl := by
  unfold updVC
  split
  · exact ⟨hctl _, htbl _⟩
  · exact ⟨rfl, rfl⟩

theorem mapRead_ctl_tbl (s : State) (t : VC) (off n : Nat) (w : MapWhat) :
    (mapRead s t off n w).1.vc.ctl = s.vc.ctl ∧ (mapRead s t off n w).1.vc.tbl = s.vc.tbl := by
  unfold mapRead
  split
  · split
    · exact updVC_ctl_tbl (fun _ => rfl) (fun _ => rfl)
    · exact updVC_ctl_tbl (fun _ => rfl) (fun _ => rfl)
  · exact ⟨rfl, rfl⟩

/-- A load of CTL that answers, from memory or from the map, changes no register of CTL and none of its tables. -/
theorem ctlLoad_ctl_tbl {s t : State} {va : Word64} {n v : Nat} (h : ctlLoad s va n = .ok t v) :
    t.vc.ctl = s.vc.ctl ∧ t.vc.tbl = s.vc.tbl := by
  cases hm : inMap va.toNat with
  | false =>
    show (memMask t).vc.ctl = (memMask s).vc.ctl ∧ (memMask t).vc.tbl = (memMask s).vc.tbl
    rw [memMask_ctlLoad hm h]
    exact ⟨rfl, rfl⟩
  | true =>
    unfold ctlLoad at h
    split at h
    · cases h
    simp only [hm, if_true] at h
    split at h
    · cases h
    next i off w _ =>
      split at h
      · cases h
      split at h
      · cases h
      next u _ =>
        have hkeep := mapRead_ctl_tbl s u off n w
        split at h
        next hread =>
          cases h
          rw [hread] at hkeep
          exact hkeep
        · cases h

/-! ### The loads of a table (R142) -/

theorem loadTable_succ {s t : State} {va : Word64} {n : Nat} {ws : List Nat} :
    loadTable s va (n + 1) = .ok t ws ↔
      ∃ u v r, ctlLoad s va 4 = .ok u v ∧ loadTable u (va + 4) n = .ok t r ∧ ws = v :: r := by
  rw [loadTable]
  constructor
  · intro h
    split at h
    · cases h
    · cases h
    next u v hu =>
      split at h
      · cases h
      · cases h
      next r hr =>
        cases h
        exact ⟨u, v, r, hu, hr, rfl⟩
  · rintro ⟨u, v, r, hu, hr, rfl⟩
    simp only [hu, hr]

theorem loadTable_keeps {s t : State} {va : Word64} {n : Nat} {ws : List Nat} (h : loadTable s va n = .ok t ws) :
    t.vc.ctl = s.vc.ctl ∧ t.vc.tbl = s.vc.tbl ∧ ws.length = n := by
  induction n generalizing s va ws with
  | zero =>
    cases h
    exact ⟨rfl, rfl, rfl⟩
  | succ n ih =>
    obtain ⟨u, v, r, hu, hr, rfl⟩ := loadTable_succ.mp h
    obtain ⟨hctl, htbl⟩ := ctlLoad_ctl_tbl hu
    obtain ⟨hctl', htbl', hlen⟩ := ih hr
    exact ⟨hctl'.trans hctl, htbl'.trans htbl, congrArg (· + 1) hlen⟩

/-- CTL can load n bytes from va on, one word after another: translation e places them in a page of its own that grants them, no
line of them is poisoned, and no atomic of the virtual core is on its way to them (R121, R275, R394). -/
def canLoad (s : State) (e : TlbE) (va : Word64) (n : Nat) : Prop :=
  (s.dev.lq ≤ 4 ∧ denied e .read = none ∧ e.vb = false ∧ 16 ≤ e.size) ∧
  (e.hits va.toNat = true ∧ va.toNat + n ≤ 2 ^ 56 ∧ va.toNat % 65536 + n ≤ 65536 ∧ va.toNat % 4 = 0 ∧ inMap va.toNat = false) ∧
  ∀ i, i < n → s.part.poison.contains ((e.frame + va.toNat % 2 ^ e.size + i) / 128) = false ∧
    granuleBusy s (e.frame + va.toNat % 2 ^ e.size + i) = false

theorem canLoad_of_loadable {s : State} {va : Word64} {n : Nat} (ha : va.toNat % 4 = 0) (h : loadable s va n) :
    ∃ e, canLoad s e va n ∧ (lookup s va.toNat).2 = .ok e := by
  obtain ⟨hrange, hmap, pa, ⟨hlq, hspan, ⟨u, e, ht, hvb, hsize⟩, hpoison⟩, hfree⟩ := h
  obtain ⟨-, hlook, hgrant, hpa⟩ := translate_ok ht
  dsimp only at hlook hgrant hpa
  subst hpa
  obtain ⟨hhit, -⟩ := lookup_head hlq hlook
  exact ⟨e, ⟨⟨hlq, hgrant, hvb, hsize⟩, ⟨hhit, hrange, hspan, ha, hmap⟩, fun i hi => ⟨hpoison i hi, hfree i hi⟩⟩, hlook⟩

theorem canLoad_memMask {s t : State} (h : memMask t = memMask s) {e : TlbE} {va : Word64} {n : Nat} (hs : canLoad s e va n) :
    canLoad t e va n := by
  have hs : canLoad (memMask s) e va n := hs
  rw [← h] at hs
  exact hs

theorem canLoad_split {s : State} {e : TlbE} {va : Word64} {n : Nat} (h : canLoad s e va (4 + n)) :
    canLoad s e va 4 ∧ (0 < n → canLoad s e (va + 4) n) := by
  obtain ⟨hpage, ⟨hhit, hrange, hspan, halign, hmap⟩, hbytes⟩ := h
  refine ⟨⟨hpage, ⟨hhit, by omega, by omega, halign, hmap⟩, fun i hi => hbytes i (by omega)⟩, fun hn => ?_⟩
  have hva : (va + 4).toNat = va.toNat + 4 := by bv_omega
  obtain ⟨hdiv, hmod⟩ := page_of_span (va := va.toNat) (n := 4) (by omega) hpage.2.2.2
  refine ⟨hpage, ⟨?hits, ?range⟩, fun i hi => ?bytes⟩
  case hits =>
    rw [hva, TlbE.hits, hdiv]
    exact hhit
  case range =>
    rw [hva, inMap_of_span (by omega)]
    exact ⟨by omega, by omega, by omega, hmap⟩
  case bytes =>
    rw [hva, hmod, ← Nat.add_assoc, Nat.add_assoc _ 4 i]
    exact hbytes (4 + i) (by omega)

/-- A word that CTL can load is read; its translation stands first in the core's lookaside buffer then (R249). -/
theorem ctlLoad_ok {s : State} {e : TlbE} {va : Word64} (h : canLoad s e va 4) (hl : (lookup s va.toNat).2 = .ok e) :
    ∃ t v, ctlLoad s va 4 = .ok t v ∧ memMask t = memMask s ∧ t.vc.tlb.head? = some e ∧ ∀ a, settles s t a := by
  obtain ⟨⟨hlq, hgrant, hvb, -⟩, ⟨-, hrange, -, halign, hmap⟩, hbytes⟩ := h
  obtain ⟨hpoison, hfree⟩ := hbytes 0 (by decide)
  have htr := translate_of_lookup hl hgrant
  obtain ⟨-, htlb⟩ := lookup_head hlq hl
  exact ⟨_, _, ctlLoad_page (by omega) halign hmap htr hvb hfree hpoison, (memMask_dcLine ..).trans (memMask_translate htr),
    (congrArg List.head? (dcLine_tlb ..)).trans htlb, fun a => settles_trans (settles_translate htr a) (settles_dcLine _ _ a)⟩

/-- Words are loaded one after another where the first is translated. -/
theorem loadTable_ok {s : State} {e : TlbE} {va : Word64} {n : Nat} (h : canLoad s e va (4 * n))
    (hl : n ≠ 0 → (lookup s va.toNat).2 = .ok e) : ∃ t ws, loadTable s va n = .ok t ws ∧ ∀ a, settles s t a := by
  induction n generalizing s va with
  | zero => exact ⟨s, [], rfl, settles_refl s⟩
  | succ n ih =>
    rw [Nat.mul_succ, Nat.add_comm] at h
    obtain ⟨hfirst, hrest⟩ := canLoad_split h
    obtain ⟨u, v, hu, hmask, htlb, hsettle⟩ := ctlLoad_ok hfirst (hl (Nat.succ_ne_zero n))
    obtain rfl | hn := Nat.eq_zero_or_pos n
    · exact ⟨u, [v], loadTable_succ.mpr ⟨u, v, [], hu, rfl, rfl⟩, hsettle⟩
    · have hcan := canLoad_memMask hmask (hrest (Nat.mul_pos (by decide) hn))
      obtain ⟨t, ws, ht, hsettle'⟩ := ih hcan fun _ => lookup_of_head htlb hcan.2.1.1
      exact ⟨t, v :: ws, loadTable_succ.mpr ⟨u, v, ws, hu, ht, rfl⟩, fun a => settles_trans (hsettle a) (hsettle' a)⟩

/-! ### The operand word of tbl.load -/

/-- The operand word breaks R142: a reserved bit is set, or it names no engine. -/
def badTableWord (v : Word64) : Prop := fld v 63 32 ≠ 0 ∨ fld v 31 30 = 3 ∨ fld v 29 29 ≠ 0 ∨ fld v 15 12 ≠ 0

theorem fld_high_ne_zero (v : Word64) : fld v 63 32 ≠ 0 ↔ 2 ^ 32 ≤ v.toNat := by
  have hlt := v.isLt
  simp only [fld, bits]
  omega

theorem badTableWord_iff (v : Word64) : badTableWord v ↔
    v.toNat ≥ 2 ^ 32 ∨ v.toNat / 2 ^ 30 % 4 = 3 ∨ v.toNat / 2 ^ 29 % 2 = 1 ∨ v.toNat / 2 ^ 12 % 16 ≠ 0 := by
  have hbit : fld v 29 29 ≠ 0 ↔ v.toNat / 2 ^ 29 % 2 = 1 := by
    simp only [fld, bits]
    omega
  rw [badTableWord, fld_high_ne_zero, hbit]
  rfl

theorem fld_low_twelve (v : Word64) : fld v 11 0 = v.toNat % 2 ^ 12 := by simp only [fld, bits, pow_zero, Nat.div_one]

/-! ### tbl.load -/

/-- The state once the words ws of table n are taken into the store and the directory, from the state that their loads leave. -/
def tableTaken (u : State) (n off len home : Nat) (ws : List Nat) : State :=
  let u1 := charge (charge u .sys) .ld len
  retire { u1 with
    vc := setDir { u1.vc with tbl.store := mputs 0 u1.vc.tbl.store off (ws.map (fun w => BitVec.ofNat 32 w)) } n ⟨off, len, home, false⟩ }

section
variable {s : State} {n a b : BitVec 6} {off len home : Nat} (hh : s.vc.ctl.h = false)
include hh

theorem execTblLoad_bad (hbad : badTableWord (xr s b)) : execTblLoad n a b s = ctlFault s 0x1E 3 0 := by
  rw [execTblLoad, restricted_outside hh]
  exact if_pos hbad

variable (hgood : ¬badTableWord (xr s b)) (hoff : fld (xr s b) 11 0 = off) (hlen : fld (xr s b) 28 16 = len)
include hgood hoff hlen

theorem execTblLoad_no_room (hroom : len = 0 ∨ s.storeWords < off + len) : execTblLoad n a b s = ctlFault s 0x1E 1 0 := by
  subst hoff hlen
  rw [execTblLoad, restricted_outside hh]
  exact (if_neg hgood).trans (if_pos hroom)

variable (hroom : ¬(len = 0 ∨ s.storeWords < off + len))
include hroom

theorem execTblLoad_busy (hrun : (dirOf s n.toNat).running = true ∨ overlapsRunning s off len = true) :
    execTblLoad n a b s = ctlFault s 0x1F 0 0 := by
  subst hoff hlen
  rw [execTblLoad, restricted_outside hh]
  exact (if_neg hgood).trans ((if_neg hroom).trans (if_pos ((Bool.or_eq_true ..).mpr hrun)))

theorem execTblLoad_taken (hhome : fld (xr s b) 31 30 = home) (hrun : (dirOf s n.toNat).running = false)
    (hover : overlapsRunning s off len = false) {u : State} {ws : List Nat} (hload : loadTable s (xr s a) len = .ok u ws) :
    execTblLoad n a b s = .next (tableTaken u n.toNat off len home ws) := by
  subst hoff hlen hhome
  have hidle : ¬((dirOf s n.toNat).running || overlapsRunning s (fld (xr s b) 11 0) (fld (xr s b) 28 16)) = true := by
    rw [hrun, hover]
    exact Bool.false_ne_true
  rw [execTblLoad, restricted_outside hh]
  refine (if_neg hgood).trans ((if_neg hroom).trans ((if_neg hidle).trans ?_))
  rw [hload]
  rfl

end

/-- What tbl.load leaves in the directory, and as it was. -/
def tableLoaded (s t : State) (n off len home : Nat) : Prop :=
  keepsX s t ∧ (∀ k, k < off ∨ off + len ≤ k → mget 0 t.vc.tbl.store k = mget 0 s.vc.tbl.store k) ∧
    dirOf t n = ⟨off, len, home, false⟩ ∧ (∀ k, k ≠ n → dirOf t k = dirOf s k) ∧ t.vc.ctl.pc = s.vc.ctl.pc + 4

theorem tableTaken_part_mem (u : State) (n off len home : Nat) (ws : List Nat) :
    (tableTaken u n off len home ws).part.mem = u.part.mem := by simp [tableTaken]

theorem tableTaken_store (u : State) (n off len home : Nat) (ws : List Nat) :
    (tableTaken u n off len home ws).vc.tbl.store = mputs 0 u.vc.tbl.store off (ws.map (fun w => BitVec.ofNat 32 w)) := by
  simp [tableTaken, setDir]

theorem dirOf_tableTaken (u : State) (n off len home : Nat) (ws : List Nat) (k : Nat) :
    dirOf (tableTaken u n off len home ws) k = if k = n then ⟨off, len, home, false⟩ else dirOf u k := by
  simp [tableTaken, setDir, dirOf]

theorem tableTaken_loaded {s u : State} {va : Word64} {len : Nat} {ws : List Nat} (h : loadTable s va len = .ok u ws) (n off home : Nat) :
    tableLoaded s (tableTaken u n off len home ws) n off len home ∧
      ∀ k, k < len → mget 0 (tableTaken u n off len home ws).vc.tbl.store (off + k) = BitVec.ofNat 32 (listAt 0 ws k) := by
  obtain ⟨hctl, htbl, hlen⟩ := loadTable_keeps h
  have hmap : (ws.map (fun w => BitVec.ofNat 32 w)).length = len := (List.length_map _).trans hlen
  refine ⟨⟨fun r => ?regs, fun k hk => ?outside, ?entry, fun k hk => ?entries, ?pc⟩, fun k hk => ?words⟩
  case regs => simp [tableTaken, setDir, xr, hctl]
  case outside => rw [tableTaken_store, mget_mputs_outside 0 _ (by rwa [hmap]), htbl]
  case entry => rw [dirOf_tableTaken, if_pos rfl]
  case entries => rw [dirOf_tableTaken, if_neg hk, dirOf, htbl, dirOf]
  case pc => simp [tableTaken, setDir, hctl]
  case words => rw [tableTaken_store, mget_mputs_inside 0 _ _ (by rwa [hmap]), listAt_map 0 0 _ (by rwa [hlen])]

/-- Settles O27: the checks of the operand in their order, and then the table as its loads give it. -/
theorem tableLoad : Obligations.TableLoad := by
  unfold Obligations.TableLoad
  intro s n a b hh A B home len off
  have hoff : fld (xr s b) 11 0 = off := fld_low_twelve _
  refine ⟨fun h => execTblLoad_bad hh ((badTableWord_iff _).mpr h), fun hB hhome hbit hzero => ?_⟩
  have hgood : ¬badTableWord (xr s b) := by
    rw [badTableWord_iff]
    rintro (h | h | h | h)
    · exact absurd hB (Nat.not_lt.mpr h)
    · exact hhome h
    · exact absurd hbit (by omega)
    · exact h hzero
  refine ⟨execTblLoad_no_room hh hgood hoff rfl, fun hpos hfits => ?_⟩
  have hroom : ¬(len = 0 ∨ s.storeWords < off + len) := by omega
  refine ⟨execTblLoad_busy hh hgood hoff rfl hroom, fun hrun hover => ?_⟩
  intro loaded
  have hexec {u : State} {ws : List Nat} (h : loadTable s A len = .ok u ws) :=
    execTblLoad_taken (home := home) hh hgood hoff rfl hroom rfl hrun hover h
  refine ⟨fun halign hcan => ?memory, fun u ws h => ?any⟩
  case memory =>
    obtain ⟨e, hcan, hlook⟩ := canLoad_of_loadable halign hcan
    obtain ⟨u, ws, h, hsettle⟩ := loadTable_ok hcan fun _ => hlook
    refine ⟨_, hexec h, (tableTaken_loaded h n.toNat off home).1, fun k => ?_⟩
    rw [wroteBack, physByte, tableTaken_part_mem]
    exact wroteBack_of_settles (hsettle k)
  case any =>
    obtain ⟨hloaded, hwords⟩ := tableTaken_loaded h n.toNat off home
    exact ⟨_, hexec h, hloaded, tableTaken_part_mem .., hwords⟩

end Sys2Proof.Machine
end

section
/-! The other table words (R143 to R147): what each does where its checks pass, and how it faults or waits. -/

namespace Sys2Proof.Machine

open Sys2Proof.Laws

/-! ### A word that changes the tables alone -/

/-- t is s with tables T, after one word of CTL that charges e.sys. -/
def tablesStep (s t : State) (T : Tables) : Prop :=
  t.vc.tbl = T ∧ keepsX s t ∧ keepsBytes s t ∧ ctlStep { s with vc.tbl := T } t .sys 4

theorem sysNext_tables (s : State) (T : Tables) : ∃ t, sysNext { s with vc.tbl := T } = .next t ∧ tablesStep s t T :=
  ⟨_, rfl, by simp, keepsX_sysNext rfl, keepsBytes_sysNext rfl rfl, ctlStep_sysNext _⟩

theorem pc_of_tablesStep {s t : State} {T : Tables} (h : tablesStep s t T) : t.vc.ctl.pc = s.vc.ctl.pc + 4 := by
  obtain ⟨-, -, -, hstep⟩ := h
  rw [hstep]

/-- The tables with directory entry n set to d. -/
def withEntry (T : Tables) (n : Nat) (d : DirEntry) : Tables := { T with dir := mput dirZero T.dir n d }

theorem dirOf_of_withEntry {s t : State} {T : Tables} {n : Nat} {d : DirEntry} (h : t.vc.tbl = withEntry T n d)
    (hdir : T.dir = s.vc.tbl.dir) : dirOf t n = d ∧ ∀ j, j ≠ n → dirOf t j = dirOf s j := by
  have hput (j : Nat) : dirOf t j = if j = n then d else dirOf s j := by
    rw [dirOf, h, withEntry, hdir, mget_mput, dirOf]
  exact ⟨(hput n).trans (if_pos rfl), fun j hj => (hput j).trans (if_neg hj)⟩

/-! ### The operand of tbl.rebase (R143) -/

theorem fld_above_twelve (v : Word64) : fld v 63 12 ≠ 0 ↔ 2 ^ 12 ≤ v.toNat := by
  have hlt := v.isLt
  simp only [fld, bits]
  omega

/-! ### The last run of a table and the run of an engine (R145, R147) -/

/-- The first run of an engine that has not ended is the one that its entry serves. -/
theorem activeRun_first {s : State} {e : Engine} {l q : List TRun} {r : TRun} (hruns : s.vc.tbl.runs = l ++ r :: q)
    (hr : r.ended = false) (he : r.home = e) (hl : ∀ x ∈ l, x.ended = false → x.home ≠ e) : activeRun s e = some r := by
  have hnone : l.find? (fun r => !r.ended && decide (r.home = e)) = none := by
    rw [List.find?_eq_none]
    intro x hx
    simpa using hl x hx
  rw [activeRun, hruns, List.find?_append, hnone, Option.none_or, List.find?_cons_of_pos (by simp [hr, he])]

/-- The run of table n that tbl.run starts. -/
def freshRun (s : State) (n count : Nat) : TRun :=
  { id := s.vc.tbl.nextRun, table := n, home := engOfCode (dirOf s n).home, count := count, iter := 0, word := 0,
    start := s.vc.now + 1, slots := s.vc.tbl.slots, zs := s.vc.z, zv := zvAll s.vc, ctlBase := [], ctlScale := [],
    stop := false, ended := false, pc := s.vc.ctl.pc, lastDone := 0 }

/-- The tables with that run, the latest of table n (R147). -/
def withRun (s : State) (n count : Nat) : Tables :=
  { s.vc.tbl with runs := s.vc.tbl.runs ++ [freshRun s n count], nextRun := s.vc.tbl.nextRun + 1,
                  latest := mput 0 s.vc.tbl.latest n (s.vc.tbl.nextRun + 1) }

theorem latestRuns_iff {s : State} {n : BitVec 6} : s.vc.tbl.runs.any (fun r => r.id + 1 == mget 0 s.vc.tbl.latest n.toNat) = true ↔
    ∃ r ∈ s.vc.tbl.runs, r.id + 1 = mget 0 s.vc.tbl.latest n.toNat := by simp

section
variable {s : State} {n a : BitVec 6} (hh : s.vc.ctl.h = false)
include hh

/-! ### tbl.param (R144) -/

theorem execTblParam_wide (k : BitVec 2) (ha : 2 ^ 32 ≤ (xr s a).toNat) : execTblParam k a s = ctlFault s 0x1E 3 0 := by
  rw [execTblParam, restricted_outside hh]
  exact if_pos ((fld_high_ne_zero _).mpr ha)

theorem execTblParam_step (k : BitVec 2) (ha : (xr s a).toNat < 2 ^ 32) :
    ∃ t, execTblParam k a s = .next t ∧ tablesStep s t { s.vc.tbl with slots := mput 0 s.vc.tbl.slots k.toNat (xr s a) } := by
  have hfld : ¬fld (xr s a) 63 32 ≠ 0 := mt (fld_high_ne_zero _).mp (Nat.not_le.mpr ha)
  rw [execTblParam, restricted_outside hh]
  dsimp only
  rw [if_neg hfld]
  exact sysNext_tables s _

/-! ### tbl.rebase (R143) -/

theorem execTblRebase_wide (ha : 2 ^ 12 ≤ (xr s a).toNat) : execTblRebase n a s = ctlFault s 0x1E 3 0 := by
  rw [execTblRebase, restricted_outside hh]
  exact if_pos ((fld_above_twelve _).mpr ha)

section
variable (ha : (xr s a).toNat < 2 ^ 12)
include ha

/-- The checks of tbl.rebase after that of its operand, in their order. -/
theorem execTblRebase_eq : execTblRebase n a s =
    if (dirOf s n.toNat).length = 0 then ctlFault s 0x1E 2 0
    else if (dirOf s n.toNat).running then ctlFault s 0x1F 0 0
    else if s.storeWords < (xr s a).toNat + (dirOf s n.toNat).length then ctlFault s 0x1E 1 0
    else sysNext { s with vc.tbl := withEntry s.vc.tbl n.toNat { dirOf s n.toNat with offset := (xr s a).toNat } } := by
  rw [execTblRebase, restricted_outside hh]
  exact if_neg (mt (fld_above_twelve _).mp (Nat.not_le.mpr ha))

theorem execTblRebase_step (hlen : (dirOf s n.toNat).length ≠ 0) (hrun : (dirOf s n.toNat).running = false)
    (hroom : (xr s a).toNat + (dirOf s n.toNat).length ≤ s.storeWords) :
    ∃ t, execTblRebase n a s = .next t ∧
      tablesStep s t (withEntry s.vc.tbl n.toNat { dirOf s n.toNat with offset := (xr s a).toNat }) := by
  rw [execTblRebase_eq hh ha, if_neg hlen, if_neg (Bool.eq_false_iff.mp hrun), if_neg (Nat.not_lt.mpr hroom)]
  exact sysNext_tables s _

end

/-! ### tbl.run (R145) -/

theorem execTblRun_wide (ha : 2 ^ 32 ≤ (xr s a).toNat) : execTblRun n a s = ctlFault s 0x1E 3 0 := by
  rw [execTblRun, restricted_outside hh]
  exact if_pos ((fld_high_ne_zero _).mpr ha)

section
variable (ha : (xr s a).toNat < 2 ^ 32)
include ha

theorem execTblRun_unloaded (hlen : (dirOf s n.toNat).length = 0) : execTblRun n a s = ctlFault s 0x1E 2 0 := by
  rw [execTblRun, restricted_outside hh]
  exact (if_neg (mt (fld_high_ne_zero _).mp (Nat.not_le.mpr ha))).trans (if_pos hlen)

variable (hlen : (dirOf s n.toNat).length ≠ 0)
include hlen

/-- A run of an engine that is in entry is waited for, but one without end is a fault. -/
theorem execTblRun_active {r : TRun} (hr : activeRun s (engOfCode (dirOf s n.toNat).home) = some r) :
    execTblRun n a s = if r.count = 0 then ctlFault s 0x1F 0 0 else .next s := by
  rw [execTblRun, restricted_outside hh]
  refine (if_neg (mt (fld_high_ne_zero _).mp (Nat.not_le.mpr ha))).trans ((if_neg hlen).trans ?_)
  rw [hr]
  rfl

theorem execTblRun_step (hr : activeRun s (engOfCode (dirOf s n.toNat).home) = none) :
    ∃ t, execTblRun n a s = .next t ∧
      tablesStep s t (withEntry (withRun s n.toNat (xr s a).toNat) n.toNat { dirOf s n.toNat with running := true }) := by
  have hcount : fld (xr s a) 31 0 = (xr s a).toNat := by
    simp only [fld, bits, pow_zero, Nat.div_one]
    exact Nat.mod_eq_of_lt ha
  have hexec : execTblRun n a s = sysNext { s with
      vc.tbl := withEntry (withRun s n.toNat (fld (xr s a) 31 0)) n.toNat { dirOf s n.toNat with running := true } } := by
    rw [execTblRun, restricted_outside hh]
    refine (if_neg (mt (fld_high_ne_zero _).mp (Nat.not_le.mpr ha))).trans ((if_neg hlen).trans ?_)
    rw [hr]
    rfl
  rw [hexec, hcount]
  exact sysNext_tables s _

end

/-! ### tbl.stop and tbl.wait (R146, R147) -/

theorem execTblStop_step : ∃ t, execTblStop n s = .next t ∧ tablesStep s t { s.vc.tbl with
    runs := s.vc.tbl.runs.map (fun r => if r.table = n.toNat ∧ r.ended = false then { r with stop := true } else r) } := by
  rw [execTblStop, restricted_outside hh]
  exact sysNext_tables s _

theorem execTblWait_waits (h : ∃ r ∈ s.vc.tbl.runs, r.id + 1 = mget 0 s.vc.tbl.latest n.toNat) : execTblWait n s = .next s := by
  rw [execTblWait, restricted_outside hh]
  exact if_pos (latestRuns_iff.mpr h)

theorem execTblWait_step (h : ∀ r ∈ s.vc.tbl.runs, r.id + 1 ≠ mget 0 s.vc.tbl.latest n.toNat) :
    ∃ t, execTblWait n s = .next t ∧ tablesStep s t s.vc.tbl := by
  have hnone : ¬∃ r ∈ s.vc.tbl.runs, r.id + 1 = mget 0 s.vc.tbl.latest n.toNat := fun ⟨r, hr, he⟩ => h r hr he
  rw [execTblWait, restricted_outside hh, if_neg (mt latestRuns_iff.mp hnone)]
  exact sysNext_tables s _

end

/-- Settles O28, word by word: each by its checks in their order, and by the tables that it leaves. -/
theorem tableWords : Obligations.TableWords := by
  unfold Obligations.TableWords
  intro s n a k hh d A
  refine ⟨fun ha => ⟨execTblParam_wide hh k ha, execTblRun_wide hh ha⟩, fun ha => ?param, fun ha hlen hrun hroom => ?rebase,
    fun ha hlen hrun hroom => ?rebaseNoRoom, execTblRebase_wide hh, fun ha hlen => ?rebaseUnloaded, fun ha hlen hrun => ?rebaseBusy,
    execTblRun_unloaded hh, fun ha hlen l r q hruns hr he hl => ?runWaits, fun ha hlen hfree => ?run, ?stop, fun h => ?wait,
    execTblWait_waits hh⟩
  case param =>
    obtain ⟨t, ht, htbl, hx, hbytes, hstep⟩ := execTblParam_step hh k ha
    refine ⟨t, ht, ?_, fun j hj => ?_, hx, hbytes, ?_⟩
    · rw [htbl, mget_mput_same]
    · rw [htbl, mget_mput_ne _ _ _ hj]
    · rw [htbl]
      exact hstep
  case rebase =>
    obtain ⟨t, ht, htbl, hx, hbytes, hstep⟩ := execTblRebase_step hh ha hlen hrun hroom
    obtain ⟨hentry, hothers⟩ := dirOf_of_withEntry htbl rfl
    refine ⟨t, ht, hentry, hothers, hx, hbytes, ?_⟩
    rw [htbl]
    exact hstep
  case rebaseNoRoom =>
    exact (execTblRebase_eq hh ha).trans ((if_neg hlen).trans ((if_neg (Bool.eq_false_iff.mp hrun)).trans (if_pos hroom)))
  case rebaseUnloaded => exact (execTblRebase_eq hh ha).trans (if_pos hlen)
  case rebaseBusy => exact (execTblRebase_eq hh ha).trans ((if_neg hlen).trans (if_pos hrun))
  case runWaits =>
    have hexec := execTblRun_active hh ha hlen (activeRun_first hruns hr he hl)
    exact ⟨fun h0 => hexec.trans (if_pos h0), fun h0 => hexec.trans (if_neg h0)⟩
  case run =>
    obtain ⟨t, ht, hdone⟩ := execTblRun_step hh ha hlen (activeRun_none hfree)
    have hpc := pc_of_tablesStep hdone
    obtain ⟨htbl, hx, hbytes, -⟩ := hdone
    obtain ⟨hentry, hothers⟩ := dirOf_of_withEntry htbl rfl
    exact ⟨t, freshRun s n.toNat A.toNat, ht, congrArg Tables.runs htbl, rfl, rfl, rfl, rfl, rfl, rfl, rfl, rfl, rfl, rfl,
      hentry, hothers, hx, hbytes, hpc⟩
  case stop =>
    obtain ⟨t, ht, htbl, hx, hbytes, hstep⟩ := execTblStop_step (n := n) hh
    refine ⟨t, ht, hx, hbytes, ?_, congrArg Tables.runs htbl⟩
    rw [htbl]
    exact hstep
  case wait =>
    obtain ⟨t, ht, -, hx, hbytes, hstep⟩ := execTblWait_step hh h
    exact ⟨t, ht, hx, hbytes, hstep⟩

end Sys2Proof.Machine
end

section
/-! The ring words (R157 to R160). -/

namespace Sys2Proof.Machine

open Sys2Proof.Laws

/-! ### What an issue leaves of the operands -/

/-- An issue changes no ring. -/
theorem ring_issueKeeps {s u : State} (h : issueKeeps s u) (r : Nat) : u.vc.ring r = s.vc.ring r := by
  rw [h]
  rfl

theorem bind_issueKeeps {s u : State} (h : issueKeeps s u) (z : Str) (dst : Bool) : z.bind u.vc dst = z.bind s.vc dst := by
  rw [h]
  rfl

theorem tailStr_issueKeeps {s u : State} (h : issueKeeps s u) (d : Nat) (f : Fmt) (n : Nat) :
    tailStr u.vc d f n = tailStr s.vc d f n := by
  rw [tailStr, ring_issueKeeps h, tailStr]

theorem now_issueKeeps {s u : State} (h : issueKeeps s u) : u.vc.now = s.vc.now := by rw [h]

/-- A word that has left its queue goes in flight as f, and nothing else happens at its issue beat (R88, R90). -/
theorem addFlight_issued {s t : State} {q : Queue} {e : QEntry} {pops pushes : List Nat} {n : Nat} {cls : Option EClass} {f : Flight}
    (hs : e.shared = false) (ht : t = addFlight (issueLeave s q e pops n cls) f)
    (hf : f.seq = e.seq ∧ f.q = q ∧ f.issued = (issueLeave s q e pops n cls).vc.now ∧ f.toks = pushes) :
    t.vc.eng.flights = s.vc.eng.flights ++ [f] ∧ issuedFrom s t q e pops pushes n f ∧ engineStep s t ∧ engineRest s t := by
  have hk := issueKeeps_issueLeave s q e pops n cls
  obtain ⟨hfl, hstep, hrest⟩ := addFlight_issueKeeps hk f
  rw [now_issueKeeps hk] at hf
  rw [ht]
  exact ⟨hfl, issuedFrom_of_leave hs (q_addFlight _ f) rfl rfl rfl hf, hstep, hrest⟩

/-! ### greset -/

theorem ring_ringReset_same (v : VC) (r : Nat) : (ringReset v r).ring r = { v.ring r with head := 0, tail := 0, cnt := 0 } :=
  mget_mput_same ..

theorem ring_ringReset_ne (v : VC) {r k : Nat} (h : k ≠ r) : (ringReset v r).ring k = v.ring k := mget_mput_ne _ _ _ h

/-- A reset reaches the words in flight, and leaves those that stand in queues (R159). -/
theorem q_ringReset (v : VC) (r : Nat) (k : Queue) : (ringReset v r).eng.q k = v.eng.q k := by cases k <;> rfl

theorem length_flights_ringReset (v : VC) (r : Nat) : (ringReset v r).eng.flights.length = v.eng.flights.length := List.length_map ..

section
variable {s : State} {e : EngBits} {d a b : BitVec 4} {q : QEntry} {pops pushes : List Nat}

/-- greset empties its ring at its issue beat and completes at it (R159, R160). -/
theorem execGreset_issues (h : standsReady s .ld e q pops pushes) :
    ∃ t f, execGreset e d s = .next t ∧ t.vc.eng.flights.length = s.vc.eng.flights.length + 1 ∧
      t.vc.eng.flights.getLast? = some f ∧ issuedFrom s t .ld q pops pushes 0 f ∧ f.done = some s.vc.now ∧
      t.vc.ring d.toNat = { s.vc.ring d.toNat with head := 0, tail := 0, cnt := 0 } ∧
      (∀ r, r ≠ d.toNat → t.vc.ring r = s.vc.ring r) ∧ engineStep { s with vc.g := t.vc.g } t := by
  obtain ⟨hhead, htime⟩ := ready_of_standsReady h
  obtain ⟨-, -, hshared, -⟩ := h
  have hk := issueKeeps_issueLeave s .ld q pops 0 (some .ring)
  have hnow := now_issueKeeps hk
  refine ⟨_, _, issueWord_issues hhead htime rfl rfl, ?length, List.getLast?_concat, ?issued, congrArg some hnow, ?same,
    fun r hr => ?other, ?step⟩
  case length =>
    refine List.length_append.trans (congrArg (· + 1) ?_)
    rw [length_flights_ringReset, flights_issueKeeps hk]
  case issued => exact issuedFrom_of_leave hshared (q_ringReset _ d.toNat) rfl rfl rfl ⟨rfl, rfl, hnow, rfl⟩
  case same => exact (ring_ringReset_same _ d.toNat).trans (by rw [ring_issueKeeps hk])
  case other => exact (ring_ringReset_ne _ hr).trans (ring_issueKeeps hk r)
  case step =>
    unfold engineStep plainFlight addFlight ringReset
    rw [hk]

/-! ### gpush and ggath -/

theorem gpushHead_ok (hring : ringInShare s d.toNat = true) (hstr : headStreams s [strOf q.zs a.toNat] = .ok)
    (hfmt : (strOf q.zs a.toNat).fmt ≠ .e8) :
    firstChk [need (ringInShare s d.toNat) 7, headStreams s [strOf q.zs a.toNat], need (decide ((strOf q.zs a.toNat).fmt ≠ .e8)) 8] =
      .ok := by
  rw [hring, hstr, decide_eq_true hfmt]
  rfl

/-- gpush reads and writes 512 packed bytes a beat (R160). -/
theorem execGpush_issues (h : standsReady s .ld e q pops pushes) (hring : ringInShare s d.toNat = true)
    (hstr : headStreams s [strOf q.zs a.toNat] = .ok) (hfmt : (strOf q.zs a.toNat).fmt ≠ .e8) :
    let z := (strOf q.zs a.toNat).bind s.vc false
    ringCheck s d.toNat (tailStr s.vc d.toNat z.fmt z.count) [z] = .ok →
      ∃ t f, execGpush e d a s = .next t ∧ t.vc.eng.flights = s.vc.eng.flights ++ [f] ∧ issuedFrom s t .ld q pops pushes 0 f ∧
        f.work = .gpush ∧ f.done = some (s.vc.now + ceilDiv (packedBytes z.fmt false z.count) 512 - 1) ∧
        f.pops = ringsOf [z] ∧ f.pushes = [d.toNat] ∧ engineStep s t ∧ engineRest s t := by
  intro z hcheck
  obtain ⟨hhead, htime⟩ := ready_of_standsReady h
  obtain ⟨-, -, hshared, -⟩ := h
  have hk := issueKeeps_issueLeave s .ld q pops 0 (some .ring)
  have hz : (strOf q.zs a.toNat).bind (issueLeave s .ld q pops 0 (some .ring)).vc false = z := bind_issueKeeps hk _ _
  obtain ⟨hfl, hissued, hstep, hrest⟩ := addFlight_issued (s := s) (pops := pops) (pushes := pushes) (n := 0)
    (cls := some .ring) hshared (t := gpushStart d a q pushes _) rfl ⟨rfl, rfl, rfl, rfl⟩
  refine ⟨_, _, issueWord_issues hhead htime (gpushHead_ok hring hstr hfmt) hcheck, hfl, hissued, rfl, ?done,
    congrArg (fun x => ringsOf [x]) hz, rfl, hstep, hrest⟩
  rw [← hz, ← now_issueKeeps hk]
  rfl

/-- ggath reads its indices first, 64 a beat, and its last elements a beat after their indices (R160). -/
theorem execGgath_issues (h : standsReady s .ld e q pops pushes) (hhead : ggathHead s d a b q = .ok) :
    let za := (strOf q.zs a.toNat).bind s.vc false
    let zb := (strOf q.zs b.toNat).bind s.vc false
    ringCheck s d.toNat (tailStr s.vc d.toNat zb.fmt za.count) [za, zb] = .ok →
      ∃ t f, execGgath e d a b s = .next t ∧ t.vc.eng.flights = s.vc.eng.flights ++ [f] ∧ issuedFrom s t .ld q pops pushes 0 f ∧
        f.work = .ggath zb.count ∧ f.done = some (s.vc.now + ceilDiv za.count 64) ∧
        f.pops = ringsOf [za, zb] ∧ f.pushes = [d.toNat] ∧ engineStep s t ∧ engineRest s t := by
  intro za zb hcheck
  obtain ⟨hat, htime⟩ := ready_of_standsReady h
  obtain ⟨-, -, hshared, -⟩ := h
  have hk := issueKeeps_issueLeave s .ld q pops 0 (some .ring)
  have hza : (strOf q.zs a.toNat).bind (issueLeave s .ld q pops 0 (some .ring)).vc false = za := bind_issueKeeps hk _ _
  have hzb : (strOf q.zs b.toNat).bind (issueLeave s .ld q pops 0 (some .ring)).vc false = zb := bind_issueKeeps hk _ _
  obtain ⟨hfl, hissued, hstep, hrest⟩ := addFlight_issued (s := s) (pops := pops) (pushes := pushes) (n := 0)
    (cls := some .ring) hshared (t := ggathStart d a b q pushes _) rfl ⟨rfl, rfl, rfl, rfl⟩
  refine ⟨_, _, issueWord_issues hat htime hhead hcheck, hfl, hissued, congrArg (fun x : Str => Work.ggath x.count) hzb, ?done, ?pops,
    rfl, hstep, hrest⟩
  case done =>
    rw [← hza, ← now_issueKeeps hk]
    rfl
  case pops =>
    rw [← hza, ← hzb]
    rfl

end

/-- Settles O47: the issue of each of the three words. -/
theorem ringWords : Obligations.RingWords := by
  unfold Obligations.RingWords
  intro s e d a b q pops pushes h
  refine ⟨?greset, fun hring hstr hfmt hcheck => execGpush_issues h hring hstr hfmt hcheck,
    fun hhead hcheck => execGgath_issues h hhead hcheck⟩
  obtain ⟨t, f, hexec, hlen, hlast, hissued, hdone, hring, hother, hstep⟩ := execGreset_issues (d := d) h
  exact ⟨t, f, hexec, hlen, hlast, hissued, hdone, congrArg Ring.cnt hring, congrArg Ring.head hring, congrArg Ring.tail hring,
    (congrArg Ring.w0 hring).trans rfl, hother, hstep⟩

end Sys2Proof.Machine
end

section
/-! Sends and receives of the queues (R161, R162, R165). -/

namespace Sys2Proof.Machine

open Sys2Proof.Laws

/-! ### Virtual cores by number -/

theorem getVC_focus {s : State} {n : Nat} (h : s.vc.id = n) : getVC s n = some s.vc :=
  List.find?_cons_of_pos (beq_iff_eq.mpr h)

theorem getVC_peer {s : State} {n : Nat} (h : s.vc.id ≠ n) : getVC s n = s.peers.find? (fun v => v.id == n) :=
  List.find?_cons_of_neg (by simpa using h)

/-- A changed virtual core is found where it was. -/
theorem getVC_updVC_same {s : State} {n : Nat} {v : VC} {f : VC → VC} (hid : ∀ x, (f x).id = x.id) (hv : getVC s n = some v) :
    getVC (updVC s n f) n = some (f v) := by
  unfold updVC
  by_cases h : s.vc.id = n
  · rw [getVC_focus h] at hv
    rw [if_pos h, getVC_focus ((hid _).trans h), Option.some.inj hv]
  · have hmem : ((fun x : VC => x.id == n) ∘ fun x => if x.id = n then f x else x) = fun x => x.id == n := by
      funext x
      by_cases hx : x.id = n <;> simp [hx, hid]
    rw [if_neg h, getVC_peer (by exact h), List.find?_map, hmem, ← getVC_peer h, hv, Option.map_some, if_pos (id_of_getVC hv)]

/-- A virtual core that is found before an issue is found after it, in flight what was in flight. -/
theorem getVC_issueKeeps {s u : State} {n : Nat} {v : VC} (h : issueKeeps s u) (hv : getVC s n = some v) :
    ∃ w, getVC u n = some w ∧ w.now = v.now ∧ w.chip = v.chip ∧ w.eng.flights = v.eng.flights := by
  have hid : u.vc.id = s.vc.id := by rw [h]
  have hpeers : u.peers = s.peers := by rw [h]
  by_cases hn : s.vc.id = n
  · rw [getVC_focus hn] at hv
    obtain rfl := Option.some.inj hv
    exact ⟨u.vc, getVC_focus (hid.trans hn), now_issueKeeps h, by rw [h], flights_issueKeeps h⟩
  · refine ⟨v, ?_, rfl, rfl, rfl⟩
    rw [getVC_peer (hid ▸ hn), hpeers, ← getVC_peer hn, hv]

/-- A word that goes in flight on the core in focus takes nothing out of flight on any core. -/
theorem getVC_addFlight {s : State} {n : Nat} {v : VC} (f : Flight) (hv : getVC s n = some v) :
    ∃ w, getVC (addFlight s f) n = some w ∧ w.chip = v.chip ∧ v.eng.flights ⊆ w.eng.flights := by
  by_cases hn : s.vc.id = n
  · rw [getVC_focus hn] at hv
    obtain rfl := Option.some.inj hv
    exact ⟨_, getVC_focus (s := addFlight s f) hn, rfl, List.subset_append_left ..⟩
  · exact ⟨v, (getVC_peer (s := addFlight s f) hn).trans ((getVC_peer hn).symm.trans hv), rfl, List.Subset.refl _⟩

/-! ### A word whose issue checks wait -/

section
variable {s : State} {q : Queue} {b : EngBits} {e : QEntry} {pops pushes : List Nat} {head check : QEntry → Chk} {n : Nat}
  {cls : Option EClass} {go : QEntry → List Nat → State → State}

/-- In an Elastic launch a word whose beat has come, and whose issue checks wait, stands at its head (R98, R156). -/
theorem issueWord_checkWaits {c : Nat} (h : atHead s q b e pops pushes) (ht : onTime s q b e pops) (hm : s.launch.mode = .elastic)
    (hhead : head e = .ok) (hcheck : check e = .wait c) :
    issueWord s q b head check n cls go = .next (setEntry s (stoodEntry s e true)) := by
  have hturn := issueWord_turn h
  obtain ⟨hq, hbad, -, -, -, htok⟩ := h
  obtain ⟨hmiss, -, -, hel⟩ := ht
  obtain ⟨hlo, hbp⟩ := hel hm
  have hgood : need (!e.bad) 1 = .ok := by rw [hbad]; rfl
  have hbreak : (!e.reached && bpStops s (unitOf q e) e.name) = false := by
    rcases hbp with hr | hb
    · rw [hr]; rfl
    · rw [hb, Bool.and_false]
  have hgate : issueGate (setEntry s (stoodEntry s e true)) q e (.wait c) (fun t => go e pushes (leaveQueue t q e pops n cls)) =
      .next (setEntry s (stoodEntry s e true)) := by
    have hmode : (setEntry s (stoodEntry s e true)).launch.mode = .elastic := hm
    simp only [issueGate, hmode]
  unfold issueWord
  rw [hq]
  dsimp only
  rw [if_neg (Bool.eq_false_iff.mp hturn), hgood, hhead, hcheck, htok, hm]
  dsimp only [firstChk]
  rw [hmiss, hbreak, decide_eq_false (not_lt.mpr hlo)]
  exact hgate

end

/-! ### Receives -/

section
variable {s : State} {e : EngBits} {d : BitVec 4} {q : QEntry} {pops pushes : List Nat}

/-- What a receive leaves in flight: it is posted on its channel, with no completion beat and no message yet (R162). -/
def receivePosted (s t : State) (q : QEntry) (pops pushes : List Nat) (c kind mbox : Nat) (l : List Str) (rings : List Nat)
    (f : Flight) : Prop :=
  t.vc.eng.flights = s.vc.eng.flights ++ [f] ∧ issuedFrom s t .ld q pops pushes 0 f ∧ f.work = .recv kind mbox ∧ f.chan = some c ∧
    f.done = none ∧ f.land = none ∧ (f.strs = l ∧ f.pushes = rings) ∧ engineStep s t ∧ engineRest s t

/-- A receive whose checks pass and whose channel is free is posted at its issue beat (R162). -/
theorem recvOp_posts {head check : QEntry → Chk} {c kind mbox : Nat} {strs : QEntry → State → List Str} {rings : QEntry → List Nat}
    {l : List Str} (h : standsReady s .ld e q pops pushes) (hhead : head q = .ok) (hcheck : check q = .ok)
    (hfree : postedOn s.vc c = none) (hl : ∀ u, issueKeeps s u → strs q u = l) :
    ∃ t f, recvOp s e head check c kind mbox strs rings = .next t ∧ receivePosted s t q pops pushes c kind mbox l (rings q) f := by
  obtain ⟨hat, htime⟩ := ready_of_standsReady h
  obtain ⟨-, -, hshared, -⟩ := h
  have hchecks : firstChk [check q, channelFree s.vc c] = .ok := by
    rw [hcheck, channelFree, hfree]
    rfl
  obtain ⟨hfl, hissued, hstep, hrest⟩ := addFlight_issued (s := s) (pops := pops) (pushes := pushes) (n := 0) (cls := some .xfer)
    (f := { flightOf (issueLeave s .ld q pops 0 (some .xfer)) .ld q pushes with
      work := .recv kind mbox, strs := strs q (issueLeave s .ld q pops 0 (some .xfer)), pushes := rings q, chan := some c })
    hshared rfl ⟨rfl, rfl, rfl, rfl⟩
  exact ⟨_, _, issueWord_issues hat htime hhead hchecks, hfl, hissued, rfl, rfl, rfl, rfl,
    ⟨hl _ (issueKeeps_issueLeave s .ld q pops 0 (some .xfer)), rfl⟩, hstep, hrest⟩

/-- recv lands at the layout of its stream, on the stream's channel (R161). -/
theorem execRecv_posts (h : standsReady s .ld e q pops pushes) :
    let z := strOf q.zs d.toNat
    messageHead s z = .ok → issueStreams s false [z.bind s.vc true] [] = .ok → postedOn s.vc z.ring = none →
      ∃ t f, execRecv e d s = .next t ∧ receivePosted s t q pops pushes z.ring 0 0 [z.bind s.vc true] (ringsOf [z]) f := by
  intro z hhead hcheck hfree
  obtain ⟨hq, -⟩ := id h
  unfold execRecv
  rw [hq]
  exact recvOp_posts h hhead hcheck hfree fun u hu => congrArg (fun x => [x]) (bind_issueKeeps hu z true)

/-- recv.g lands in the tail slot of its ring, on the ring's channel (R161). -/
theorem execRecvG_posts (h : standsReady s .ld e q pops pushes) :
    let r := s.vc.ring d.toNat
    let slot := tailStr s.vc d.toNat .n8 r.size
    ringInShare s d.toNat = true → tailFits s d.toNat slot = true → hazardChk s.vc slot = .ok → r.cnt < r.slots →
      postedOn s.vc d.toNat = none →
        ∃ t f, execRecvG e d s = .next t ∧ receivePosted s t q pops pushes d.toNat 1 0 [slot] [d.toNat] f := by
  intro r slot hring hfits hhazard hroom hfree
  refine recvOp_posts h ?head ?check hfree fun u hu => ?slot
  case head =>
    rw [hring]
    rfl
  case check =>
    dsimp only
    rw [hfits, hhazard, decide_eq_true hroom]
    rfl
  case slot =>
    dsimp only
    rw [tailStr_issueKeeps hu, ring_issueKeeps hu]

/-- recv.m lands in its mailbox, on the mailbox's channel (R161). -/
theorem execRecvM_posts (h : standsReady s .ld e q pops pushes) (hd : d.toNat ≤ 7) (hfree : postedOn s.vc d.toNat = none) :
    ∃ t f, execRecvM e d s = .next t ∧ receivePosted s t q pops pushes d.toNat 2 d.toNat [] [] f :=
  recvOp_posts h (if_pos (decide_eq_true hd)) rfl hfree fun _ _ => rfl

end

/-! ### What a send starts -/

/-- m carries stream z from core src to channel c of core dst for word `seq`, and nothing of it has been read or has landed
(R161, R163). -/
def isFreshMessage (src : Nat) (z : Str) (dst c seq : Nat) (m : Msg) : Prop :=
  m.src = src ∧ m.dst = dst ∧ m.chan = c ∧ m.fmt = z.fmt.code ∧ m.bytes = z.packed ∧ m.piece = 0 ∧ m.seqS = seq ∧ m.data = []

/-- Flight f and message m are what a send starts in u: the word reads 128 bytes of its message a beat (R162). -/
def sendStarts (u : State) (z : Str) (dst c : Nat) (rings : List Nat) (q : QEntry) (pushes : List Nat) (f : Flight) (m : Msg) : Prop :=
  (f.seq = q.seq ∧ f.q = .st ∧ f.issued = u.vc.now ∧ f.toks = pushes) ∧
  f.work = .send dst c z.fmt.code z.packed ∧ f.done = some (u.vc.now + ceilDiv z.packed 128 - 1) ∧ f.pops = rings ∧
  isFreshMessage u.vc.id z dst c q.seq m

/-- u with message m on its way, behind those that were. -/
def withMessage (u : State) (m : Msg) : State := { u with launch.msgs := u.launch.msgs ++ [m] }

section
variable {s u : State} {z : Str} {dst c : Nat} {rings : List Nat} {q : QEntry} {pops pushes : List Nat}

/-- A Lockstep send claims no receive; its message counts its beats from its issue (R163). -/
theorem sendStart_lockstep (hm : u.launch.mode = .lockstep) :
    ∃ f m, sendStart z dst c rings q pushes u = addFlight (withMessage u m) f ∧ sendStarts u z dst c rings q pushes f m ∧
      m.sent = u.vc.now ∧ m.target = none := by
  unfold sendStart
  rw [hm]
  exact ⟨_, _, rfl, ⟨⟨rfl, rfl, rfl, rfl⟩, rfl, rfl, rfl, rfl, rfl, rfl, rfl, rfl, rfl, rfl, rfl⟩, rfl, rfl⟩

/-- A claim changes nothing of the core in focus but what is in flight there. -/
theorem updVC_claimReceive (n seq src seqS : Nat) :
    let t := updVC u n (claimReceive · seq src seqS)
    t.vc = { u.vc with eng.flights := t.vc.eng.flights } ∧ t.vc.eng.flights.length = u.vc.eng.flights.length ∧ t.launch = u.launch := by
  unfold updVC
  by_cases h : u.vc.id = n
  · rw [if_pos h]
    exact ⟨rfl, List.length_map .., rfl⟩
  · rw [if_neg h]
    exact ⟨rfl, rfl, rfl⟩

/-- An Elastic send claims the receive that is posted for it; its message counts its beats from the receiver's beat (R165). -/
theorem sendStart_elastic {v : VC} {r : Flight} (hm : u.launch.mode = .elastic) (hv : getVC u dst = some v)
    (hr : postedOn v c = some r) :
    ∃ f m, sendStart z dst c rings q pushes u =
        addFlight (withMessage (updVC u dst (claimReceive · r.seq u.vc.id q.seq)) m) f ∧
      sendStarts u z dst c rings q pushes f m ∧ m.sent = v.now ∧ m.target = some r.seq := by
  unfold sendStart
  have hc : (if u.launch.mode = .elastic then (getVC u dst).bind (postedOn · c) else none) = some r := by
    rw [if_pos hm, hv]
    exact hr
  obtain ⟨hvc, -⟩ := updVC_claimReceive (u := u) dst r.seq u.vc.id q.seq
  have hnow : (updVC u dst (claimReceive · r.seq u.vc.id q.seq)).vc.now = u.vc.now := (congrArg VC.now hvc).trans rfl
  rw [hc, hm, hv]
  exact ⟨_, _, rfl, ⟨⟨rfl, rfl, hnow, rfl⟩, rfl, rfl, rfl, rfl, rfl, rfl, rfl, rfl, rfl, rfl, rfl⟩, rfl, rfl⟩

/-- The claimed receive is in flight on its core, taken by the message (R163, R165). -/
theorem mem_flights_claimReceive {v : VC} {r : Flight} (hr : postedOn v c = some r) (src seqS : Nat) :
    { r with land := some (src, seqS) } ∈ (claimReceive v r.seq src seqS).eng.flights :=
  List.mem_map.mpr ⟨r, List.mem_of_find?_eq_some hr, if_pos rfl⟩

/-! ### Sends -/

/-- The send has gone from s to t: it is in flight as f, its message m on its way (R161, R162). -/
def sentAs (s t : State) (z : Str) (dst c : Nat) (rings : List Nat) (q : QEntry) (pops pushes : List Nat) (f : Flight) (m : Msg) : Prop :=
  issuedFrom s t .st q pops pushes 0 f ∧ f.work = .send dst c z.fmt.code z.packed ∧
    f.done = some (s.vc.now + ceilDiv z.packed 128 - 1) ∧ f.pops = rings ∧
    t.launch.msgs = s.launch.msgs ++ [m] ∧ isFreshMessage s.vc.id z dst c q.seq m

/-- What becomes of a send whose other checks pass: a Lockstep send goes; an Elastic send goes, and claims its receive, or waits at its
head while there is none (R162, R165). -/
def sendOutcome (s : State) (out : Out) (z : Str) (dst c : Nat) (rings : List Nat) (q : QEntry) (pops pushes : List Nat) : Prop :=
  (s.launch.mode = .lockstep →
    ∃ t f m, out = .next t ∧ t.vc.eng.flights = s.vc.eng.flights ++ [f] ∧ sentAs s t z dst c rings q pops pushes f m ∧
      m.sent = s.vc.now ∧ m.target = none ∧ engineStep { s with launch.msgs := t.launch.msgs } t ∧ engineRest s t) ∧
  (s.launch.mode = .elastic → receiveReady s dst c = false →
    ∃ t, out = .next t ∧ t.vc.eng.flights = s.vc.eng.flights ∧ t.vc.faults = s.vc.faults ∧ t.launch = s.launch ∧
      ∀ k, (t.vc.eng.q k).entries.map (fun x => x.seq) = (s.vc.eng.q k).entries.map (fun x => x.seq)) ∧
  (s.launch.mode = .elastic → ∀ v r, getVC s dst = some v → postedOn v c = some r →
    ∃ t f m w, out = .next t ∧ f ∈ t.vc.eng.flights ∧ sentAs s t z dst c rings q pops pushes f m ∧ m.sent = v.now ∧
      m.target = some r.seq ∧ t.vc.eng.flights.length = s.vc.eng.flights.length + 1 ∧ t.vc.ctl = s.vc.ctl ∧ t.vc.chip = s.vc.chip ∧
      getVC t dst = some w ∧ w.chip = v.chip ∧ ∃ y ∈ w.eng.flights, y.seq = r.seq ∧ y.land = some (s.vc.id, q.seq))

/-- A send that has left its queue, from a state that has the queues, tokens and counters of the leaving. -/
theorem sentAs_of_leave {y : State} {f : Flight} {m : Msg} (hs : q.shared = false)
    (hy : y.vc = { (issueLeave s .st q pops 0 (some .xfer)).vc with eng.flights := y.vc.eng.flights })
    (hl : y.launch = (issueLeave s .st q pops 0 (some .xfer)).launch)
    (h : sendStarts (issueLeave s .st q pops 0 (some .xfer)) z dst c rings q pushes f m) :
    sentAs s (addFlight (withMessage y m) f) z dst c rings q pops pushes f m := by
  have hk := issueKeeps_issueLeave s .st q pops 0 (some .xfer)
  have hid : (issueLeave s .st q pops 0 (some .xfer)).vc.id = s.vc.id := by rw [hk]
  have hmsgs : y.launch.msgs = s.launch.msgs := by rw [hl, hk]
  obtain ⟨hf, hwork, hdone, hpops, hm⟩ := h
  rw [now_issueKeeps hk] at hf hdone
  rw [hid] at hm
  have hq (k : Queue) : y.vc.eng.q k = (issueLeave s .st q pops 0 (some .xfer)).vc.eng.q k := by
    rw [hy]
    cases k <;> rfl
  exact ⟨issuedFrom_of_leave hs (fun k => (q_addFlight _ f k).trans (hq k)) (by rw [addFlight, withMessage, hy])
    (by rw [addFlight, withMessage, hy]) (by rw [addFlight, withMessage, hy]) hf,
    hwork, hdone, hpops, congrArg (· ++ [m]) hmsgs, hm⟩

theorem sendGate_lockstep (hm : s.launch.mode = .lockstep) : sendGate s dst c = .ok := if_neg (by simp [hm])

theorem sendGate_ready {v : VC} {r : Flight} (hv : getVC s dst = some v) (hr : postedOn v c = some r) : sendGate s dst c = .ok := by
  have hready : receiveReady s dst c = true := by
    simp only [receiveReady, hv, hr, Option.isSome_some]
  exact if_neg (by simp [hready])

theorem sendGate_waits (hm : s.launch.mode = .elastic) (hr : receiveReady s dst c = false) : sendGate s dst c = .wait 0x0E :=
  if_pos ⟨hm, hr⟩

/-- A Lockstep send is on its way at its issue beat (R162, R163). -/
theorem sendStart_sent_lockstep (hs : q.shared = false) (hm : s.launch.mode = .lockstep) :
    let t := sendStart z dst c rings q pushes (issueLeave s .st q pops 0 (some .xfer))
    ∃ f m, t.vc.eng.flights = s.vc.eng.flights ++ [f] ∧ sentAs s t z dst c rings q pops pushes f m ∧ m.sent = s.vc.now ∧
      m.target = none ∧ engineStep { s with launch.msgs := t.launch.msgs } t ∧ engineRest s t := by
  have hk := issueKeeps_issueLeave s .st q pops 0 (some .xfer)
  obtain ⟨f, m, ht, hstart, hsent, htarget⟩ := sendStart_lockstep (u := issueLeave s .st q pops 0 (some .xfer)) (z := z) (dst := dst)
    (c := c) (rings := rings) (q := q) (pushes := pushes) (by rw [hk]; exact hm)
  dsimp only
  rw [ht]
  refine ⟨f, m, ?flights, sentAs_of_leave hs rfl rfl hstart, hsent.trans (now_issueKeeps hk), htarget, ?step, ?rest⟩
  case flights =>
    rw [← flights_issueKeeps hk]
    rfl
  case step =>
    unfold engineStep addFlight withMessage
    rw [hk]
  case rest =>
    unfold engineRest addFlight withMessage
    rw [hk]

/-- An Elastic send is on its way at its issue beat, and has claimed the receive that is posted for it (R165). -/
theorem sendStart_sent_elastic {v : VC} {r : Flight} (hs : q.shared = false) (hm : s.launch.mode = .elastic)
    (hv : getVC s dst = some v) (hr : postedOn v c = some r) :
    let t := sendStart z dst c rings q pushes (issueLeave s .st q pops 0 (some .xfer))
    ∃ f m w, f ∈ t.vc.eng.flights ∧ sentAs s t z dst c rings q pops pushes f m ∧ m.sent = v.now ∧ m.target = some r.seq ∧
      t.vc.eng.flights.length = s.vc.eng.flights.length + 1 ∧ t.vc.ctl = s.vc.ctl ∧ t.vc.chip = s.vc.chip ∧
      getVC t dst = some w ∧ w.chip = v.chip ∧ ∃ y ∈ w.eng.flights, y.seq = r.seq ∧ y.land = some (s.vc.id, q.seq) := by
  have hk := issueKeeps_issueLeave s .st q pops 0 (some .xfer)
  have hid : (issueLeave s .st q pops 0 (some .xfer)).vc.id = s.vc.id := by rw [hk]
  obtain ⟨v', hv', hnow, hchip, hflights⟩ := getVC_issueKeeps hk hv
  have hr' : postedOn v' c = some r := by rw [postedOn, hflights]; exact hr
  obtain ⟨f, m, ht, hstart, hsent, htarget⟩ := sendStart_elastic (z := z) (rings := rings) (q := q) (pushes := pushes)
    (show (issueLeave s .st q pops 0 (some .xfer)).launch.mode = .elastic by rw [hk]; exact hm) hv' hr'
  rw [hid] at ht
  obtain ⟨hvc, hlen, hlaunch⟩ := updVC_claimReceive (u := issueLeave s .st q pops 0 (some .xfer)) dst r.seq s.vc.id q.seq
  have hclaimed := getVC_updVC_same (f := (claimReceive · r.seq s.vc.id q.seq)) (fun _ => rfl) hv'
  obtain ⟨w, hw, hwchip, hwflights⟩ := getVC_addFlight
    (s := withMessage (updVC (issueLeave s .st q pops 0 (some .xfer)) dst (claimReceive · r.seq s.vc.id q.seq)) m) f hclaimed
  dsimp only
  rw [ht]
  refine ⟨f, m, w, List.mem_append_right _ (List.mem_singleton_self f), sentAs_of_leave hs hvc hlaunch hstart, hsent.trans hnow,
    htarget, ?length, ?ctl, ?chip, hw, hwchip.trans hchip, _, hwflights (mem_flights_claimReceive hr' s.vc.id q.seq), rfl, rfl⟩
  case length =>
    refine List.length_append.trans (congrArg (· + 1) (hlen.trans ?_))
    rw [flights_issueKeeps hk]
  case ctl =>
    refine (congrArg VC.ctl hvc).trans ?_
    rw [hk]
  case chip =>
    refine (congrArg VC.chip hvc).trans ?_
    rw [hk]

/-- A word that goes as a send once its gate lets it, and stands at its head while the gate waits. -/
theorem sendOutcome_of {out : Out} (hs : q.shared = false)
    (hgoes : sendGate s dst c = .ok → out = .next (sendStart z dst c rings q pushes (issueLeave s .st q pops 0 (some .xfer))))
    (hwaits : s.launch.mode = .elastic → sendGate s dst c = .wait 0x0E → out = .next (setEntry s (stoodEntry s q true))) :
    sendOutcome s out z dst c rings q pops pushes := by
  refine ⟨fun hm => ?lockstep, fun hm hr => ?waits, fun hm v r hv hr => ?elastic⟩
  case lockstep =>
    obtain ⟨f, m, hsent⟩ := sendStart_sent_lockstep (z := z) (dst := dst) (c := c) (rings := rings) (pops := pops) (pushes := pushes)
      hs hm
    exact ⟨_, f, m, hgoes (sendGate_lockstep hm), hsent⟩
  case waits =>
    obtain ⟨hfl, hfaults, hseqs⟩ := setEntry_waits s (stoodEntry s q true)
    exact ⟨_, hwaits hm (sendGate_waits hm hr), hfl, hfaults, rfl, hseqs⟩
  case elastic =>
    obtain ⟨f, m, w, hsent⟩ := sendStart_sent_elastic (z := z) (rings := rings) (pops := pops) (pushes := pushes) hs hm hv hr
    exact ⟨_, f, m, w, hgoes (sendGate_ready hv hr), hsent⟩

end

section
variable {s : State} {e : EngBits} {a : BitVec 4} {q : QEntry} {pops pushes : List Nat}

/-- send goes to the peer of its stream, on the stream's channel, from the stream's own base (R161). -/
theorem execSend_outcome (h : standsReady s .st e q pops pushes) :
    let z := { strOf q.zs a.toNat with ren := false }
    messageHead s z = .ok → sendOutcome s (execSend e a s) z z.peer z.ring [] q pops pushes := by
  intro z hhead
  obtain ⟨hat, htime⟩ := ready_of_standsReady h
  obtain ⟨-, -, hshared, -⟩ := h
  exact sendOutcome_of hshared (fun hgate => issueWord_issues hat htime hhead hgate)
    fun hm hgate => issueWord_checkWaits hat htime hm hhead hgate

theorem headSlot_issueKeeps {u : State} (h : issueKeeps s u) (g : Nat) : headSlot u.vc g = headSlot s.vc g := by
  rw [headSlot, ring_issueKeeps h, headSlot]

/-- send.g goes to its ring's peer on the ring's channel, and pops the head slot (R161). -/
theorem execSendG_outcome (h : standsReady s .st e q pops pushes) :
    let r := s.vc.ring a.toNat
    r.fits s.share = true → 1 ≤ r.cnt →
      sendOutcome s (execSendG e a s) (headSlot s.vc a.toNat) r.peer a.toNat [a.toNat] q pops pushes := by
  intro r hfits hfull
  obtain ⟨hat, htime⟩ := ready_of_standsReady h
  obtain ⟨-, -, hshared, -⟩ := h
  have hk := issueKeeps_issueLeave s .st q pops 0 (some .xfer)
  have hhead : need (ringInShare s a.toNat) 7 = .ok := if_pos hfits
  have hcheck : firstChk [await (decide (1 ≤ r.cnt)) 0x0B, sendGate s r.peer a.toNat] = firstChk [sendGate s r.peer a.toNat] := by
    rw [decide_eq_true hfull]
    rfl
  unfold execSendG
  refine sendOutcome_of hshared (fun hgate => ?goes) fun hm hgate => ?waits
  case goes =>
    refine (issueWord_issues hat htime hhead (hcheck.trans ?_)).trans (congrArg Host.Outcome.next ?_)
    · rw [hgate]
      rfl
    · rw [headSlot_issueKeeps hk, ring_issueKeeps hk]
  case waits =>
    refine issueWord_checkWaits (c := 0x0E) hat htime hm hhead (hcheck.trans ?_)
    rw [hgate]
    rfl

end

/-- The peer that word 0 of a ring names (R157). -/
theorem Ring.peer_eq (r : Ring) : r.peer = r.w0.toNat / 2 ^ 48 % 2 ^ 10 := rfl

/-- Settles O48: each receive by its posting, each send by its outcome. -/
theorem messageWords : Obligations.MessageWords := by
  unfold Obligations.MessageWords
  refine ⟨fun s e d q pops pushes h => ⟨fun hhead hcheck hfree => execRecv_posts h hhead hcheck hfree,
    fun hring hfits hhazard hroom hfree => execRecvG_posts h hring hfits hhazard hroom hfree,
    fun hd hfree => execRecvM_posts h hd hfree⟩, fun s e a q pops pushes h => ⟨fun hhead => execSend_outcome h hhead,
    fun hfits hfull => ?_⟩⟩
  have hout := execSendG_outcome h hfits hfull
  rw [Ring.peer_eq] at hout
  exact hout

end Sys2Proof.Machine
end

section
/-! The issue of the column words (R174, R186, R190, R191, R212, R217, R220): what a word of VX, RX or FX puts in flight. -/

namespace Sys2Proof.Machine

/-! ### Operands and beats of a word that issues -/

theorem countUp_eq_range' (lo n : Nat) : countUp lo n = List.range' lo n := by
  induction n generalizing lo with
  | zero => rfl
  | succ n ih => rw [countUp, ih, List.range'_succ]

theorem countUp_zero_eq_range (n : Nat) : countUp 0 n = List.range n := by rw [countUp_eq_range', List.range_eq_range']

/-- Group g is read at I + g (R174). -/
theorem beats_of_groups (rd : Nat → List Nat) (i n : Nat) :
    ((countUp 0 n).map (fun g => (⟨g, i + g, rd g, []⟩ : Acc))).map (fun x => (x.tag, x.beat)) =
      (List.range n).map (fun g => (g, i + g)) := by
  rw [countUp_zero_eq_range, List.map_map]
  rfl

theorem yr_issueKeeps {s u : State} (h : issueKeeps s u) (n : Nat) : yr u n = yr s n := by
  rw [h]
  rfl

theorem mr_issueKeeps {s u : State} (h : issueKeeps s u) (n : Nat) : mr u n = mr s n := by
  rw [h]
  rfl

theorem vecBound_issueKeeps {s u : State} (h : issueKeeps s u) (op : VOp) (l : List Str) : vecBound u op l = vecBound s op l := by
  unfold vecBound
  simp only [bind_issueKeeps h]

theorem redBound_issueKeeps {s u : State} (h : issueKeeps s u) (l : List Str) : redBound u l = redBound s l := by
  simp only [redBound, bind_issueKeeps h]

theorem fnBound_issueKeeps {s u : State} (h : issueKeeps s u) (l : List Str) : fnBound u l = fnBound s l := by
  simp only [fnBound, bind_issueKeeps h]

/-! ### The vector column -/

section
variable (op : VOp)

/-- The groups that a vector word on the streams l moves (R174). -/
def vecGroups (l : List Str) : Nat := ceilDiv (vecCount op l) (lanes (vecDsts op l ++ vecSrcs op l))

/-- The reads that a vector word plans at its issue: of its indices, or of its operands (R174, R183). -/
def vecPlanned (l : List Str) (i : Nat) : List Acc :=
  let n := vecCount op l
  let w := lanes (vecDsts op l ++ vecSrcs op l)
  if decide (op = .gath) || decide (op = .scat) then indexAccs (listAt default l 1) n w i
  else vecAccs op (listAt default l 0) (listAt default l 1) (listAt default l 2) (l.drop 3) n w i

theorem vecPlanned_beats (l : List Str) (i : Nat) :
    (vecPlanned op l i).map (fun x => (x.tag, x.beat)) = (List.range (vecGroups op l)).map (fun g => (g, i + g)) := by
  unfold vecPlanned
  dsimp only
  split <;> exact beats_of_groups _ i _

theorem wr_of_mem_vecPlanned {l : List Str} {i : Nat} {x : Acc} (h : x ∈ vecPlanned op l i) : x.wr = [] := by
  unfold vecPlanned indexAccs vecAccs at h
  dsimp only at h
  split at h <;>
  · obtain ⟨g, -, rfl⟩ := List.mem_map.mp h
    rfl

/-- Word op is in flight as f on the streams l, with y as its scalar operand; its draws come off TXN (R174, R176, R186). -/
def vecIssued (s t : State) (q : QEntry) (pops pushes : List Nat) (y : Word64) (l : List Str) (f : Flight) : Prop :=
  let G := vecGroups op l
  t.vc.eng.flights = s.vc.eng.flights ++ [f] ∧ issuedFrom s t .vx q pops pushes 0 f ∧
    f.work = .vec op y s.vc.tx.k s.vc.tx.n ∧ f.strs = l ∧
    f.done = some (s.vc.now + 3 + (if op = .gath ∨ op = .scat then 2 * G else G)) ∧
    f.pops = ringsOf (vecSrcs op l) ∧ f.pushes = ringsOf (vecDsts op l) ∧
    f.accs.map (fun x => (x.tag, x.beat)) = (List.range G).map (fun g => (g, s.vc.now + g)) ∧
    (∀ x ∈ f.accs, x.wr = []) ∧
    engineStep { s with vc.tx.adv := drawCount op (listAt default l 0) } t ∧
    engineRest { s with vc.eng.vxCount := s.vc.eng.vxCount + 1 } t

variable {op} {s : State} {e : EngBits} {d a b : BitVec 4} {q : QEntry} {pops pushes : List Nat} {cls : EClass}

/-- A word of VX whose checks pass issues at its beat, on its streams and its scalar operand as they stand then (R157, R174,
R176). -/
theorem vecOp_issues {y : State → Word64} {v : Word64} (h : standsReady s .vx e q pops pushes) (hy : ∀ u, issueKeeps s u → y u = v)
    (hhead : vecHead s op d a b q = .ok) (hcheck : vecCheck s op d a b q = .ok) :
    ∃ t f, vecOp s op cls e d a b y = .next t ∧ vecIssued op s t q pops pushes v (vecBound s op (vecStrs op q d a b)) f := by
  obtain ⟨hat, htime⟩ := ready_of_standsReady h
  obtain ⟨-, -, hshared, -⟩ := h
  have hk := issueKeeps_issueLeave s .vx q pops 0 (some cls)
  have hnow := now_issueKeeps hk
  rw [← vecBound_issueKeeps hk, ← hy _ hk]
  refine ⟨_, _, issueWord_issues hat htime hhead hcheck,
    congrArg (· ++ [_]) (flights_issueKeeps hk : (issueLeave s .vx q pops 0 (some cls)).vc.eng.flights = s.vc.eng.flights),
    issuedFrom_of_leave hshared (fun k => ?queues) rfl rfl rfl ⟨rfl, rfl, hnow, rfl⟩, ?work, rfl, ?done, rfl, rfl, ?beats, ?writes,
    ?step, ?rest⟩
  case queues => cases k <;> rfl
  case work =>
    dsimp only
    rw [hk]
  case done =>
    rw [← hnow]
    by_cases hg : op = .gath <;> by_cases hc : op = .scat <;> simp [vecGroups, hg, hc]
  case beats =>
    rw [← hnow]
    exact vecPlanned_beats op _ _
  case writes => exact fun x hx => wr_of_mem_vecPlanned op hx
  case step =>
    unfold engineStep vecStart addFlight
    rw [hk]
  case rest =>
    unfold engineRest vecStart addFlight
    rw [hk]

end

/-- The word p.1 runs as the vector operation p.2.1 on the operand fields that follow it, and takes the scalar operand at the end
of p at its issue (R170, R176). -/
def runsVec (s : State) (e : EngBits) (d : BitVec 4) (p : Instr × VOp × BitVec 4 × BitVec 4 × Word64) : Prop :=
  ∃ cls y, exec p.1 s = vecOp s p.2.1 cls e d p.2.2.1 p.2.2.2.1 y ∧ ∀ u, issueKeeps s u → y u = p.2.2.2.2

section
variable {s : State} {e : EngBits} {d a b : BitVec 4} {i : Instr} {op : VOp} {cls : EClass}

theorem runsVec_noScalar (h : exec i s = vecOp s op cls e d a b noY) : runsVec s e d (i, op, a, b, 0) :=
  ⟨cls, noY, h, fun _ _ => rfl⟩

theorem runsVec_register {n : Nat} (h : exec i s = vecOp s op cls e d a 0 (fun t => yr t n)) : runsVec s e d (i, op, a, 0, yr s n) :=
  ⟨cls, _, h, fun _ hu => yr_issueKeeps hu n⟩

theorem runsVec_mailbox {n : Nat} (h : exec i s = vecOp s op cls e d a 0 (fun t => mr t n)) : runsVec s e d (i, op, a, 0, mr s n) :=
  ⟨cls, _, h, fun _ hu => mr_issueKeeps hu n⟩

end

/-- Settles O39: every word of VX runs as its vector operation, which issues. -/
theorem vectorIssue : Obligations.VectorIssue := by
  unfold Obligations.VectorIssue
  intro s e d a b q pops pushes h p hp
  have hruns : runsVec s e d p := by
    revert p
    simp only [List.forall_mem_cons, List.not_mem_nil, false_imp_iff, implies_true, and_true]
    exact ⟨runsVec_noScalar rfl, runsVec_noScalar rfl, runsVec_noScalar rfl, runsVec_noScalar rfl, runsVec_noScalar rfl,
      runsVec_noScalar rfl, runsVec_noScalar rfl, runsVec_noScalar rfl, runsVec_noScalar rfl, runsVec_noScalar rfl,
      runsVec_noScalar rfl, runsVec_noScalar rfl, runsVec_noScalar rfl, runsVec_noScalar rfl, runsVec_noScalar rfl,
      runsVec_noScalar rfl, runsVec_noScalar rfl, runsVec_noScalar rfl, runsVec_noScalar rfl, runsVec_noScalar rfl,
      runsVec_noScalar rfl, runsVec_noScalar rfl, runsVec_noScalar rfl, runsVec_noScalar rfl, runsVec_noScalar rfl,
      runsVec_noScalar rfl, runsVec_register rfl, runsVec_register rfl, runsVec_register rfl, runsVec_register rfl,
      runsVec_register rfl, runsVec_register rfl, runsVec_register rfl, runsVec_register rfl, runsVec_register rfl,
      runsVec_mailbox rfl, runsVec_register rfl, runsVec_noScalar rfl, runsVec_noScalar rfl⟩
  intro op l L G hhead hcheck
  obtain ⟨cls, y, hexec, hy⟩ := hruns
  rw [hexec]
  exact vecOp_issues h hy hhead hcheck

/-! ### The reduction and function columns -/

section
variable (s t : State) (q : QEntry) (pops pushes : List Nat) (l : List Str) (f : Flight)

/-- Word op of RX is in flight as f on the streams l, to write y register d unless it is a scan (R190, R191). -/
def redIssued (op : ROp) (d : BitVec 4) : Prop :=
  let G := ceilDiv (listAt default l 1).count (lanes (redDsts op l ++ redSrcs op l))
  t.vc.eng.flights = s.vc.eng.flights ++ [f] ∧ issuedFrom s t .rx q pops pushes 0 f ∧ f.work = .red op ∧ f.strs = l ∧
    f.done = some (s.vc.now + 6 + G) ∧
    f.accs.map (fun x => (x.tag, x.beat)) = (List.range G).map (fun g => (g, s.vc.now + g)) ∧
    f.y.map (fun x => x.1) = (if op = .scanSum ∨ op = .scanMax then none else some d.toNat) ∧ engineStep s t ∧ engineRest s t

/-- Function fn is in flight as f on the streams l, on FX or on the exact unit (R217, R220). -/
def fnIssued (exact : Bool) (fn : Fn) : Prop :=
  let G := ceilDiv (listAt default l 0).count (fnLanes exact l)
  t.vc.eng.flights = s.vc.eng.flights ++ [f] ∧ issuedFrom s t .fx q pops pushes 0 f ∧
    f.work = (if exact then .ef fn else .sf fn) ∧ f.strs = l ∧
    f.done = some (s.vc.now + (if exact then 16 * G + 8 else 5 + G)) ∧
    f.accs.map (fun x => (x.tag, x.beat)) = (List.range G).map (fun g => (g, s.vc.now + g)) ∧ engineStep s t ∧ engineRest s t

end

section
variable {s : State} {e : EngBits} {d a b : BitVec 4} {q : QEntry} {pops pushes : List Nat}

/-- A word of RX whose checks pass issues at its beat (R190, R191). -/
theorem redOp_issues (op : ROp) (h : standsReady s .rx e q pops pushes) (hhead : redHead s op d a b q = .ok)
    (hcheck : redCheck s op d a b q = .ok) :
    ∃ t f, redOp s op e d a b = .next t ∧ redIssued s t q pops pushes (redBound s (redStrs op q d a b)) f op d := by
  obtain ⟨hat, htime⟩ := ready_of_standsReady h
  obtain ⟨-, -, hshared, -⟩ := h
  have hk := issueKeeps_issueLeave s .rx q pops 0 (some .rx)
  have hnow := now_issueKeeps hk
  obtain ⟨hfl, hissued, hstep, hrest⟩ := addFlight_issued (s := s) (pops := pops) (pushes := pushes) (n := 0)
    (cls := some .rx) hshared (t := redStart op d a b q pushes _) rfl ⟨rfl, rfl, rfl, rfl⟩
  rw [← redBound_issueKeeps hk]
  refine ⟨_, _, issueWord_issues hat htime hhead hcheck, hfl, hissued, rfl, rfl, ?done, ?beats, ?result, hstep, hrest⟩
  case done => rw [← hnow]
  case beats =>
    rw [← hnow]
    exact beats_of_groups _ _ _
  case result => cases op <;> rfl

/-- A word of FX or of the exact unit whose checks pass issues at its beat (R212, R217, R220). -/
theorem fnOp_issues (exact : Bool) (fn : Fn) (h : standsReady s .fx e q pops pushes) (hhead : fnHead s d a q = .ok)
    (hcheck : fnCheck s exact d a q = .ok) :
    ∃ t f, fnOp s exact fn e d a = .next t ∧ fnIssued s t q pops pushes (fnBound s (fnStrs q d a)) f exact fn := by
  obtain ⟨hat, htime⟩ := ready_of_standsReady h
  obtain ⟨-, -, hshared, -⟩ := h
  have hk := issueKeeps_issueLeave s .fx q pops 0 (some (if exact then .ef else .fx))
  have hnow := now_issueKeeps hk
  obtain ⟨hfl, hissued, hstep, hrest⟩ := addFlight_issued (s := s) (pops := pops) (pushes := pushes) (n := 0)
    (cls := some (if exact then .ef else .fx)) hshared (t := fnStart exact fn d a q pushes _) rfl ⟨rfl, rfl, rfl, rfl⟩
  rw [← fnBound_issueKeeps hk]
  refine ⟨_, _, issueWord_issues hat htime hhead hcheck, hfl, hissued, rfl, rfl, ?done, ?beats, hstep, hrest⟩
  case done => rw [← hnow]
  case beats =>
    rw [← hnow]
    exact beats_of_groups _ _ _

end

/-- Settles O42: every word of RX and FX runs as its operation, which issues. -/
theorem reductionAndFunctionIssue : Obligations.ReductionAndFunctionIssue := by
  unfold Obligations.ReductionAndFunctionIssue
  refine ⟨fun s e d a b q pops pushes h p hp => ?reduction, fun s e d a q pops pushes h p hp => ?function⟩
  case reduction =>
    have hexec : exec p.1 s = redOp s p.2.1 e d a p.2.2 := by
      revert p
      simp only [List.forall_mem_cons, List.not_mem_nil, false_imp_iff, implies_true, and_true]
      exact ⟨rfl, rfl, rfl, rfl, rfl, rfl, rfl, rfl, rfl⟩
    rw [hexec]
    exact redOp_issues p.2.1 h
  case function =>
    have hexec : exec p.1 s = fnOp s p.2.2 p.2.1 e d a := by
      revert p
      simp only [List.forall_mem_cons, List.not_mem_nil, false_imp_iff, implies_true, and_true]
      exact ⟨rfl, rfl, rfl, rfl, rfl, rfl, rfl, rfl, rfl, rfl, rfl, rfl, rfl, rfl, rfl, rfl, rfl, rfl⟩
    rw [hexec]
    exact fnOp_issues p.2.2 p.2.1 h

end Sys2Proof.Machine
end

section
/-! The results of a vector word (R174, R179): what it writes when it has read a group. -/

namespace Sys2Proof.Machine

/-- The bytes that the result of element i writes; a masked element occupies its bytes and changes none of their bits (R179). -/
def elemWrites (z : Str) (i : Nat) : Option (Nat × Nat) → List (Nat × Byte × Byte)
  | some c => z.put i c.1
  | none => (z.put i 0).map (fun x => (x.1, 0, 0))

/-- A fold that appends each step's part to the first component collects the parts in order. -/
theorem foldl_fst_eq_flatMap {ι α β : Type} {step : List α × β → ι → List α × β} {part : ι → List α}
    (h : ∀ acc i, (step acc i).1 = acc.1 ++ part i) (is : List ι) (acc : List α × β) :
    (is.foldl step acc).1 = acc.1 ++ is.flatMap part := by
  induction is generalizing acc with
  | nil => exact (List.append_nil acc.1).symm
  | cons i is ih => rw [List.foldl_cons, ih, h, List.append_assoc, List.flatMap_cons]

section
variable (f : Flight) {op : VOp} (y key ctr : Word64) (g : Nat)

/-- A group's write is those of its elements, in their order. -/
theorem vecWrite_fst (h : op ≠ .split3) (is : List Nat) :
    (vecWrite f op y key ctr g is).1 =
      is.flatMap (fun i => elemWrites (strAt f 0) i (vecElem op (strAt f 0) (strAt f 1) (strAt f 2) y key ctr (bufRd f.buf g) i)) := by
  unfold vecWrite
  split
  · exact absurd rfl h
  · refine (foldl_fst_eq_flatMap (fun acc i => ?_) is _).trans (List.nil_append _)
    cases vecElem op (strAt f 0) (strAt f 1) (strAt f 2) y key ctr (bufRd f.buf g) i <;> rfl

/-- A word that moves no data by index plans the write of a group four beats after its read (R174). -/
theorem vecGroup_accs (hg : g < 8192) (hgath : op ≠ .gath) (hscat : op ≠ .scat) (now : Nat) :
    (vecGroup f op y key ctr g now).accs = f.accs ++ [⟨writeTag g, now + 4, [], (vecWrite f op y key ctr g
      (groupElems (vecCount op f.strs) (lanes (vecDsts op f.strs ++ vecSrcs op f.strs)) g)).1⟩] := by
  unfold vecGroup
  split
  · exact absurd rfl hgath
  · exact absurd rfl hscat
  · rw [if_pos hg]
    rfl

end

/-- Settles O41: the write that vecGroup plans, element by element. -/
theorem vectorGroups : Obligations.VectorGroups := by
  unfold Obligations.VectorGroups
  intro f op y key ctr g now hg hgath hscat hsplit z L
  refine ⟨_, vecGroup_accs f y key ctr g hg hgath hscat now, rfl, rfl, ?_⟩
  refine (vecWrite_fst f y key ctr g hsplit _).trans (congrArg (List.flatMap · _) (funext fun i => ?_))
  unfold strAt elemWrites
  cases vecElem op z (listAt default f.strs 1) (listAt default f.strs 2) y key ctr (bufRd f.buf g) i <;> rfl

end Sys2Proof.Machine
end

section
/-! The results of the integer reductions (R189, R190): the fixed tree and the fold over the groups combine every element, each once
and in order. -/

namespace Sys2Proof.Machine

/-! ### What the nodes of a tree stand for -/

section
variable {β : Type}

/-- The nodes stand for the elements of l in their order: each node for a stretch of l, by R. -/
def covers (R : List β → β → Prop) : List β → List β → Prop
  | [], l => l = []
  | x :: r, l => ∃ a b, l = a ++ b ∧ R a x ∧ covers R r b

variable {R : List β → β → Prop} {f : β → β → β}

theorem covers_append {x y l m : List β} (hx : covers R x l) (hy : covers R y m) : covers R (x ++ y) (l ++ m) := by
  induction x generalizing l with
  | nil =>
    rw [covers] at hx
    rw [hx]
    exact hy
  | cons n x ih =>
    obtain ⟨a, b, rfl, hn, hb⟩ := hx
    exact ⟨a, b ++ m, List.append_assoc .., hn, ih hb⟩

theorem covers_self (one : ∀ x, R [x] x) (l : List β) : covers R l l := by
  induction l with
  | nil => rfl
  | cons x l ih => exact ⟨[x], l, rfl, one x, ih⟩

section
variable (comb : ∀ {a b x y}, R a x → R b y → R (a ++ b) (f x y))
include comb

theorem covers_treePass {x l : List β} (h : covers R x l) : covers R (treePass f x) l := by
  induction x using treePass.induct generalizing l with
  | case1 x y r ih =>
    obtain ⟨a, -, rfl, hx, b, c, rfl, hy, hr⟩ := h
    exact ⟨a ++ b, c, (List.append_assoc ..).symm, comb hx hy, ih hr⟩
  | case2 x hx => rwa [treePass.eq_2 f x hx]

theorem foldl_of_covers {r a b : List β} {x : β} (hx : R a x) (hr : covers R r b) : R (a ++ b) (r.foldl f x) := by
  induction r generalizing a b x with
  | nil =>
    rw [covers] at hr
    rw [hr, List.append_nil]
    exact hx
  | cons y r ih =>
    obtain ⟨c, e, rfl, hy, he⟩ := hr
    rw [← List.append_assoc]
    exact ih (comb hx hy) he

variable (one : ∀ x, R [x] x)
include one

theorem covers_tree (l : List β) : covers R (tree f l) l :=
  covers_treePass comb (covers_treePass comb (covers_treePass comb (covers_treePass comb (covers_treePass comb (covers_self one l)))))

/-- The trees of the groups stand for all the elements (R189). -/
theorem covers_chunks {n : Nat} {l : List β} (h : l.length ≤ n) : covers R ((chunks l n).flatMap (fun c => tree f c)) l := by
  induction n generalizing l with
  | zero => exact List.length_eq_zero_iff.mp (Nat.le_zero.mp h)
  | succ n ih =>
    rw [chunks]
    split
    · next he => exact List.isEmpty_iff.mp he
    · next he =>
      have hlen : (l.drop 32).length ≤ n := by
        rw [List.length_drop]
        omega
      have hall := covers_append (covers_tree comb one (l.take 32)) (ih hlen)
      rwa [List.take_append_drop] at hall

/-- What holds of one element and is kept by the comb holds of a reduction (R189). -/
theorem reduceAll_spec {l : List β} (h : l ≠ []) : ∃ x, reduceAll f l = some x ∧ R l x := by
  have hall : covers R ((chunks l l.length).flatMap (fun c => tree f c)) l := covers_chunks comb one le_rfl
  rw [reduceAll]
  cases hn : (chunks l l.length).flatMap (fun c => tree f c) with
  | nil =>
    rw [hn] at hall
    exact absurd hall h
  | cons x r =>
    rw [hn] at hall
    obtain ⟨a, b, rfl, hx, hr⟩ := hall
    exact ⟨_, rfl, foldl_of_covers comb hx hr⟩

end

end

/-! ### Integer combs -/

/-- p is the sum of the elements. -/
def sumsTo (l : List Part32) (p : Part32) : Prop := p.v = (l.map (fun x => x.v)).sum

theorem sumsTo_one (x : Part32) : sumsTo [x] x := by simp [sumsTo]

theorem sumsTo_comb {a b : List Part32} {x y : Part32} (hx : sumsTo a x) (hy : sumsTo b y) :
    sumsTo (a ++ b) (combI (fun a b => a + b) x y) := by
  simp only [sumsTo, combI, List.map_append, List.sum_append] at *
  rw [hx, hy]

/-- p is an element than which none is further in the order le. -/
def extreme (le : Int → Int → Prop) (l : List Part32) (p : Part32) : Prop := (∃ x ∈ l, x.v = p.v) ∧ ∀ x ∈ l, le x.v p.v

theorem extreme_one {le : Int → Int → Prop} (hle : ∀ x, le x x) (x : Part32) : extreme le [x] x := by simp [extreme, hle]

theorem extreme_comb {le : Int → Int → Prop} {f : Int → Int → Int} (htrans : ∀ {a b c}, le a b → le b c → le a c)
    (hf : ∀ a b, (f a b = a ∧ le b a) ∨ (f a b = b ∧ le a b)) {a b : List Part32} {x y : Part32} (hx : extreme le a x)
    (hy : extreme le b y) : extreme le (a ++ b) (combI f x y) := by
  obtain ⟨⟨i, hi, hxi⟩, hxa⟩ := hx
  obtain ⟨⟨j, hj, hyj⟩, hyb⟩ := hy
  unfold extreme combI
  rcases hf x.v y.v with ⟨h, hle⟩ | ⟨h, hle⟩
  · rw [h]
    exact ⟨⟨i, List.mem_append_left b hi, hxi⟩, fun z hz =>
      (List.mem_append.mp hz).elim (hxa z) fun hz => htrans (hyb z hz) hle⟩
  · rw [h]
    exact ⟨⟨j, List.mem_append_right a hj, hyj⟩, fun z hz =>
      (List.mem_append.mp hz).elim (fun hz => htrans (hxa z hz) hle) (hyb z)⟩

/-! ### The words that combine -/

/-- The elements that enter a combination (R190). -/
def entered (op : ROp) (a b : Str) (rd : Nat → Nat → Byte) (n : Nat) : List Part32 :=
  (List.range n).map (fun i => redElem op a b (rd i) i)

section
variable {a b : Str} {rd : Nat → Nat → Byte} {n : Nat} (ha : a.fmt.cls = .integer)
include ha

theorem not_floating_of_integer : ¬a.fmt.cls = .floating := by simp [ha]

theorem redElem_value (op : ROp) (rd : Nat → Byte) (i : Nat) :
    (redElem op a b rd i).v =
      if op = .sumsq then a.int rd i * a.int rd i else if op = .dot then a.int rd i * b.int rd i else a.int rd i := by
  cases op <;> simp [redElem, ha]

/-- An integer reduction gives its combination mod 2^64 (R190). -/
theorem redResult_combined {op : ROp} (hcnt : op ≠ .cnt) (hmax : op ≠ .argmax) {p : Part32}
    (h : reduceAll (redComb op false) (entered op a b rd n) = some p) : (redResult op a b rd n).1 = BitVec.ofInt 64 p.v := by
  have hres : ¬a.fmt.cls = .residue := by simp [ha]
  unfold entered at h
  unfold redResult
  rw [decide_eq_false (not_floating_of_integer ha), countUp_zero_eq_range]
  dsimp only
  split
  · exact absurd rfl hcnt
  · exact absurd rfl hmax
  · rw [h]
    simp [hres, w64_pat]

/-- What holds of one element and is kept by the comb of a word holds of its result. -/
theorem redResult_spec {op : ROp} {R : List Part32 → Part32 → Prop} (hcnt : op ≠ .cnt) (hmax : op ≠ .argmax) (one : ∀ x, R [x] x)
    (comb : ∀ {a b x y}, R a x → R b y → R (a ++ b) (redComb op false x y)) (hn : 0 < n) :
    ∃ p, (redResult op a b rd n).1 = BitVec.ofInt 64 p.v ∧ R (entered op a b rd n) p := by
  have hne : entered op a b rd n ≠ [] := by simp [entered, Nat.pos_iff_ne_zero.mp hn]
  obtain ⟨p, hp, hR⟩ := reduceAll_spec comb one hne
  exact ⟨p, redResult_combined ha hcnt hmax hp, hR⟩

section
variable {v : Nat → Int} (op : ROp) (hcnt : op ≠ .cnt) (hmax : op ≠ .argmax) (hn : 0 < n)
  (hv : ∀ i, (redElem op a b (rd i) i).v = v i)
include hcnt hmax hn hv

/-- The words whose comb is addition (R190). -/
theorem redResult_sum (hop : redComb op false = combI (fun a b => a + b)) :
    (redResult op a b rd n).1 = BitVec.ofInt 64 ((List.range n).map v).sum := by
  obtain ⟨p, hp, hsum⟩ := redResult_spec (op := op) (b := b) (rd := rd) ha hcnt hmax sumsTo_one (hop ▸ sumsTo_comb) hn
  rw [hp, hsum, entered, List.map_map]
  exact congrArg (fun f => BitVec.ofInt 64 ((List.range n).map f).sum) (funext hv)

/-- The words whose comb takes the extreme of two (R190). -/
theorem redResult_extreme (le : Int → Int → Prop) (f : Int → Int → Int) (hop : redComb op false = combI f) (hrefl : ∀ x, le x x)
    (htrans : ∀ {a b c}, le a b → le b c → le a c) (hf : ∀ a b, (f a b = a ∧ le b a) ∨ (f a b = b ∧ le a b)) :
    ∃ m, m < n ∧ (redResult op a b rd n).1 = BitVec.ofInt 64 (v m) ∧ ∀ i, i < n → le (v i) (v m) := by
  obtain ⟨p, hp, ⟨x, hx, hxp⟩, hall⟩ := redResult_spec (op := op) (b := b) (rd := rd) ha hcnt hmax (extreme_one hrefl)
    (fun hx hy => hop ▸ extreme_comb (le := le) htrans hf hx hy) hn
  obtain ⟨m, hm, rfl⟩ := List.mem_map.mp hx
  rw [hv] at hxp
  refine ⟨m, List.mem_range.mp hm, by rw [hp, hxp], fun i hi => ?_⟩
  rw [hxp, ← hv]
  exact hall _ (List.mem_map.mpr ⟨i, List.mem_range.mpr hi, rfl⟩)

end

end

/-! ### rargmax -/

/-- m is the lowest index below n of a greatest value of v (R190). -/
def leads (v : Nat → Int) (n m : Nat) : Prop := m < n ∧ (∀ i, i < n → v i ≤ v m) ∧ ∀ i, i < m → v i < v m

theorem leads_one (v : Nat → Int) : leads v 1 0 :=
  ⟨Nat.one_pos, fun i hi => by rw [Nat.lt_one_iff.mp hi], fun i hi => absurd hi (Nat.not_lt_zero i)⟩

theorem leads_succ {v : Nat → Int} {n m : Nat} (h : leads v n m) : leads v (n + 1) (if v m < v n then n else m) := by
  obtain ⟨hm, hle, hlt⟩ := h
  by_cases hv : v m < v n
  · rw [if_pos hv]
    refine ⟨n.lt_succ_self, fun i hi => ?_, fun i hi => (hle i hi).trans_lt hv⟩
    rcases Nat.lt_succ_iff_lt_or_eq.mp hi with h | rfl
    · exact ((hle i h).trans_lt hv).le
    · exact le_rfl
  · rw [if_neg hv]
    refine ⟨hm.trans n.lt_succ_self, fun i hi => ?_, hlt⟩
    rcases Nat.lt_succ_iff_lt_or_eq.mp hi with h | rfl
    · exact hle i h
    · exact not_lt.mp hv

/-- The search goes on from the leader of the elements before it. -/
theorem argmaxGo_leads {v : Nat → Int} {g : Nat → Part32} (hg : ∀ i, (g i).v = v i) {i m : Nat} (h : leads v i m) (n : Nat) :
    ∃ k, argmaxGo (fun x y => decide (x < y)) (fun _ => false) ((countUp i n).map g) i (some (m, v m)) = some (k, v k) ∧
      leads v (i + n) k := by
  induction n generalizing i m with
  | zero => exact ⟨m, rfl, h⟩
  | succ n ih =>
    obtain ⟨k, hk, hlead⟩ := ih (leads_succ h)
    refine ⟨k, ?_, by rwa [Nat.add_right_comm] at hlead⟩
    rw [countUp, List.map_cons, argmaxGo, ← hk]
    by_cases hv : v m < v i <;> simp [hg, hv]

theorem argmax_leads {v : Nat → Int} {g : Nat → Part32} (hg : ∀ i, (g i).v = v i) {n : Nat} (hn : 0 < n) :
    leads v n (argmax false ((countUp 0 n).map g)) := by
  obtain ⟨k, rfl⟩ := Nat.exists_eq_add_of_lt hn
  obtain ⟨m, hm, hlead⟩ := argmaxGo_leads hg (leads_one v) k
  have hgo : argmax false ((countUp 0 (0 + k + 1)).map g) = m := by
    rw [Nat.zero_add, argmax, countUp, List.map_cons, argmaxGo]
    simp only [Bool.false_eq_true, if_false, Bool.false_and, hg]
    rw [hm]
  rw [hgo, Nat.zero_add, Nat.add_comm]
  exact hlead

/-- Settles O43: the tree combines the elements in their order, and each comb keeps what its word computes. -/
theorem reductionResults : Obligations.ReductionResults := by
  unfold Obligations.ReductionResults
  intro a b rd n ha _ hn x y
  have hv := redElem_value (a := a) (b := b) ha
  refine ⟨redResult_sum ha .sum nofun nofun hn (fun i => hv .sum (rd i) i) rfl,
    redResult_sum ha .sumsq nofun nofun hn (fun i => hv .sumsq (rd i) i) rfl,
    redResult_sum ha .dot nofun nofun hn (fun i => hv .dot (rd i) i) rfl, ?count, ?max, ?min, ?argmax⟩
  case count =>
    have hone (i : Nat) : countsOne a (rd i) i = decide (x i ≠ 0) := if_neg (not_floating_of_integer ha)
    simp only [redResult, countUp_zero_eq_range, hone]
  case max =>
    refine redResult_extreme ha .max nofun nofun hn (fun i => hv .max (rd i) i) (fun i j => i ≤ j)
      (fun i j => if i < j then j else i) rfl le_refl le_trans fun i j => ?_
    rcases lt_or_ge i j with h | h
    · exact .inr ⟨if_pos h, h.le⟩
    · exact .inl ⟨if_neg (not_lt.mpr h), h⟩
  case min =>
    refine redResult_extreme ha .min nofun nofun hn (fun i => hv .min (rd i) i) (fun i j => j ≤ i)
      (fun i j => if j < i then j else i) rfl le_refl (fun h k => k.trans h) fun i j => ?_
    rcases lt_or_ge j i with h | h
    · exact .inr ⟨if_pos h, h.le⟩
    · exact .inl ⟨if_neg (not_lt.mpr h), h⟩
  case argmax =>
    obtain ⟨hm, hle, hlt⟩ := argmax_leads (fun i => hv .argmax (rd i) i) hn
    refine ⟨_, hm, ?_, hle, hlt⟩
    rw [redResult, decide_eq_false (not_floating_of_integer ha)]

end Sys2Proof.Machine
end

section
/-! The words of MX (R200 to R202, R206, R208): what each puts in flight at its issue. -/

namespace Sys2Proof.Machine

open Sys2Proof.Laws

/-! ### What an issue leaves of the tiles and their blocks -/

theorem chip_issueKeeps {s u : State} (h : issueKeeps s u) : u.vc.chip = s.vc.chip := by rw [h]

theorem tpb_issueKeeps {s u : State} (h : issueKeeps s u) (t w : Nat) : u.vc.tpb t w = s.vc.tpb t w := by
  rw [VC.tpb, chip_issueKeeps h, VC.tpb]

theorem mmaCfg_issueKeeps {s u : State} (h : issueKeeps s u) (t a b : Nat) (mt : Option (BitVec 24)) :
    mmaCfg u t a b mt = mmaCfg s t a b mt := by
  rw [h]
  rfl

theorem charge_eq (s : State) (c : EClass) (n : Nat) : ∃ l, charge s c n = { s with part.charges := l } := by
  unfold charge chargeTo chargeFor
  split
  · exact ⟨s.part.charges, rfl⟩
  · exact ⟨_, rfl⟩

theorem charge_charge_eq (s : State) (c k : EClass) (n m : Nat) : ∃ l, charge (charge s c n) k m = { s with part.charges := l } := by
  obtain ⟨l, hl⟩ := charge_eq s c n
  obtain ⟨r, hr⟩ := charge_eq (charge s c n) k m
  exact ⟨r, hr.trans (by rw [hl])⟩

theorem leNat_mgets_lt (m : SMap Byte) (k n : Nat) : leNat (mgets byteDefault m k n) < 256 ^ n := by
  induction n generalizing k with
  | zero => exact Nat.one_pos
  | succ n ih =>
    have hbyte := (mget byteDefault m k).isLt
    have hrest := ih (k + 1)
    rw [mgets, leNat, pow_succ]
    omega

/-- A word of a block is the eight bytes that stand there (R195). -/
theorem toNat_tpb (v : VC) (t w : Nat) : (v.tpb t w).toNat = leNat (mgets byteDefault v.chip (tpbAt t w) 8) :=
  Nat.mod_eq_of_lt (leNat_mgets_lt v.chip (tpbAt t w) 8)

theorem foldl_b2n_eq_length_filter (p : Nat → Bool) (l : List Nat) (n : Nat) :
    l.foldl (fun x i => x + b2n (p i)) n = n + (l.filter p).length := by
  induction l generalizing n with
  | nil => rfl
  | cons i l ih =>
    rw [List.foldl_cons, ih, List.filter_cons]
    cases p i
    · rfl
    · exact Nat.add_right_comm n 1 _

theorem bit_eq_testBit (v i : Nat) : bit v i = v.testBit i := by rw [bit_eq_decide, Nat.testBit_eq_decide_div_mod_eq]

/-- The bits of a tile's lsf mask, counted (R208). -/
theorem lsfCount_eq (v : VC) (t : Nat) : lsfCount v t = ((List.range 256).filter (fun i =>
    (leNat (mgets byteDefault v.chip (tpbOff + 64 * t + 32) 32)).testBit i)).length := by
  rw [lsfCount, countUp_zero_eq_range, foldl_b2n_eq_length_filter, Nat.zero_add]
  exact congrArg (fun p => (List.filter p (List.range 256)).length) (funext fun i => bit_eq_testBit _ i)

/-! ### The issue of a word of MX -/

/-- Word i issues from MX at its beat and is in flight as a word that completes k beats later, of which P holds (R88, R90). -/
def matrixIssued (s : State) (q : QEntry) (pops pushes : List Nat) (i : Instr) (k : Nat) (P : Flight → Prop) : Prop :=
  ∃ u f, exec i s = .next u ∧ u.vc.eng.flights = s.vc.eng.flights ++ [f] ∧ issuedFrom s u .mx q pops pushes 0 f ∧
    f.done = some (s.vc.now + k) ∧ P f ∧ engineStep s u ∧ engineRest s u

/-- f is the word's flight as flightOf starts it, to complete k beats after its issue. -/
def startsAs (u : State) (q : QEntry) (toks : List Nat) (k : Nat) (f : Flight) : Prop :=
  (f.seq = q.seq ∧ f.q = .mx ∧ f.issued = u.vc.now ∧ f.toks = toks) ∧ f.done = some (u.vc.now + k)

section
variable {s : State} {e : EngBits} {t : BitVec 8} {z y : BitVec 4} {q : QEntry} {pops pushes : List Nat} {i : Instr} {k : Nat}
  {P : Flight → Prop}

/-- What holds of every word that `go` puts in flight where the word leaves its queue holds of the word that issues; it may charge
its account besides (R90, R359). -/
theorem matrixIssued_of_issueWord {head check : QEntry → Chk} {cls : Option EClass} {go : QEntry → List Nat → State → State}
    {fl : State → Flight} (h : standsReady s .mx e q pops pushes) (hexec : exec i s = issueWord s .mx e head check 0 cls go)
    (hhead : head q = .ok) (hcheck : check q = .ok)
    (hgo : ∀ u, ∃ l, go q pushes u = addFlight { u with part.charges := l } (fl u))
    (hfl : ∀ u, issueKeeps s u → startsAs u q pushes k (fl u) ∧ P (fl u)) : matrixIssued s q pops pushes i k P := by
  obtain ⟨hat, htime⟩ := ready_of_standsReady h
  obtain ⟨-, -, hshared, -⟩ := h
  have hk := issueKeeps_issueLeave s .mx q pops 0 cls
  have hnow := now_issueKeeps hk
  obtain ⟨l, hl⟩ := hgo (issueLeave s .mx q pops 0 cls)
  obtain ⟨⟨hf, hdone⟩, hP⟩ := hfl _ hk
  rw [hnow] at hf hdone
  obtain ⟨hflights, hstep, hrest⟩ := addFlight_issueKeeps
    (issueKeeps_trans (u := { issueLeave s .mx q pops 0 cls with part.charges := l }) hk rfl) (fl (issueLeave s .mx q pops 0 cls))
  refine ⟨_, fl (issueLeave s .mx q pops 0 cls), hexec.trans ((issueWord_issues hat htime hhead hcheck).trans (congrArg _ hl)),
    hflights, issuedFrom_of_leave hshared (fun c => ?_) rfl rfl rfl hf, hdone, hP, hstep, hrest⟩
  exact (q_addFlight _ _ c).trans rfl

/-! ### Words on a tile or its mask, and words that write y -/

theorem tileHead_ok (ht : t.toNat < s.tiles) : tileHead s t = .ok := if_pos (decide_eq_true ht)

/-- The effect of a tile word falls at its issue beat, where it completes (R208). -/
theorem tileWord_issued {eff : Effect} (h : standsReady s .mx e q pops pushes) (hexec : exec i s = tileWord s e t eff)
    (ht : t.toNat < s.tiles) : matrixIssued s q pops pushes i 0 (fun f => f.dues = [(s.vc.now, eff)]) := by
  refine matrixIssued_of_issueWord h hexec (tileHead_ok ht) rfl (fun u => ⟨u.part.charges, rfl⟩)
    fun u hk => ⟨⟨⟨rfl, rfl, rfl, rfl⟩, rfl⟩, ?_⟩
  rw [← now_issueKeeps hk]

/-- A word that writes y takes the value at its issue beat (R208). -/
theorem matrixY_issued {head : Chk} {val : VC → Word64} {v : Word64} (h : standsReady s .mx e q pops pushes)
    (hexec : exec i s = matrixY s e head y val) (hhead : head = .ok) (hval : ∀ u, issueKeeps s u → val u.vc = v) :
    matrixIssued s q pops pushes i 1 (fun f => f.y = some (y.toNat, v)) := by
  refine matrixIssued_of_issueWord h hexec hhead rfl (fun u => ⟨u.part.charges, rfl⟩)
    fun u hk => ⟨⟨⟨rfl, rfl, rfl, rfl⟩, rfl⟩, ?_⟩
  rw [← hval u hk]

/-! ### Words that move a block -/

/-- mtpb.ld reads its stream at I, for a write at I + 1 (R208). -/
theorem execMtpbLd_issued (h : standsReady s .mx e q pops pushes) (hhead : wordsHead s t z 8 q = .ok) :
    let src := (strOf q.zs z.toNat).bind s.vc false
    issueStreams s false [] [src] = .ok →
      matrixIssued s q pops pushes (.mtpbLd e t z) 1 (fun f => f.work = .tpb t.toNat ∧ f.strs = [src] ∧ f.pops = ringsOf [src]) := by
  intro src hcheck
  have hexec : exec (.mtpbLd e t z) s = execMtpbLd e t z s := rfl
  refine matrixIssued_of_issueWord h hexec hhead hcheck (fun u => ⟨u.part.charges, rfl⟩)
    fun u hk => ⟨⟨⟨rfl, rfl, rfl, rfl⟩, rfl⟩, rfl, ?_⟩
  have hsrc : (strOf q.zs z.toNat).bind u.vc false = src := bind_issueKeeps hk _ _
  exact ⟨congrArg (fun x => [x]) hsrc, congrArg (fun x => ringsOf [x]) hsrc⟩

/-- n words of a block, from word w on, are written to the stream at I + 1 as they stand at I (R208). -/
theorem blockOut_issued {w n : Nat} (h : standsReady s .mx e q pops pushes) (hexec : exec i s = blockOut s e t z w n)
    (hhead : wordsHead s t z n q = .ok) :
    let dst := (strOf q.zs z.toNat).bind s.vc true
    issueStreams s false [dst] [] = .ok →
      matrixIssued s q pops pushes i 1 (fun f => f.pushes = ringsOf [dst] ∧ ∃ x, f.accs = [x] ∧ x.beat = s.vc.now + 1 ∧
        x.wr = (List.range n).flatMap (fun j => dst.put j (leNat (mgets byteDefault s.vc.chip (tpbAt t.toNat (w + j)) 8)))) := by
  intro dst hcheck
  refine matrixIssued_of_issueWord h hexec hhead hcheck (fun u => ⟨u.part.charges, rfl⟩)
    fun u hk => ⟨⟨⟨rfl, rfl, rfl, rfl⟩, rfl⟩, ?_⟩
  have hdst : (strOf q.zs z.toNat).bind u.vc true = dst := bind_issueKeeps hk _ _
  refine ⟨congrArg (fun x => ringsOf [x]) hdst, _, rfl, congrArg (· + 1) (now_issueKeeps hk), ?_⟩
  dsimp only
  simp only [hdst, countUp_zero_eq_range, tpb_issueKeeps hk, toNat_tpb]

/-! ### mdrain -/

/-- A drain has taken its tile at I, and writes the last of its rows at I + 17 (R206). -/
theorem execMdrain_issued (h : standsReady s .mx e q pops pushes) (hhead : drainHead s t z q = .ok)
    (hmode : (s.vc.tpb t.toNat 0).toNat / 2 ^ 24 % 4 ≠ 3) :
    let dst := (strOf q.zs z.toNat).bind s.vc true
    issueStreams s false [dst] [] = .ok →
      matrixIssued s q pops pushes (.mdrain e t z) 17 (fun f => f.strs = [dst] ∧ f.pushes = ringsOf [dst] ∧
        f.got = mgets byteDefault s.vc.chip (tileOff + 1024 * t.toNat) 1024) := by
  intro dst hcheck
  have hexec : exec (.mdrain e t z) s = execMdrain e t z s := rfl
  have hround : need (decide (fld (s.vc.tpb t.toNat 0) 25 24 ≠ 3)) 8 = .ok := if_pos (decide_eq_true hmode)
  refine matrixIssued_of_issueWord h hexec hhead ?check (fun u => ⟨u.part.charges, rfl⟩) fun u hk => ?flight
  case check =>
    rw [hround, hcheck]
    rfl
  case flight =>
    have hdst : (strOf q.zs z.toNat).bind u.vc true = dst := bind_issueKeeps hk _ _
    rw [hdst, ← chip_issueKeeps hk]
    split <;> exact ⟨⟨⟨rfl, rfl, rfl, rfl⟩, rfl⟩, rfl, rfl, rfl⟩

end

/-- The words of a tile's mask stand behind the first four of its block (R195). -/
theorem tpbAt_mask (t j : Nat) : tpbAt t (4 + j) = tpbOff + 64 * t + 32 + 8 * j := by
  unfold tpbAt
  omega

/-- Settles O46: each word issues as its kind does. -/
theorem matrixWords : Obligations.MatrixWords := by
  unfold Obligations.MatrixWords
  intro s e t z y q pops pushes h src dst word
  refine ⟨fun ht => ⟨?zero, ?clear, ?test⟩, ?audit, execMtpbLd_issued h, ?store, ?mask, execMdrain_issued h⟩
  case zero => exact tileWord_issued (i := .mzero e t) h rfl ht
  case clear => exact tileWord_issued (i := .mlsfClr e t) h rfl ht
  case test =>
    have hexec : exec (.mlsfTest e t y) s = execMlsfTest e t y s := rfl
    refine matrixY_issued h hexec (tileHead_ok ht) fun u hk => ?_
    rw [lsfCount_eq, chip_issueKeeps hk]
  case audit =>
    refine matrixY_issued (i := .maudit e y) h rfl rfl fun u hk => ?_
    rw [hk]
  case store =>
    intro hhead hcheck
    have hout := blockOut_issued (i := .mtpbSt e t z) h rfl hhead hcheck
    simp only [Nat.zero_add] at hout
    exact hout
  case mask =>
    intro hhead hcheck
    have hout := blockOut_issued (i := .mlsfRd e t z) h rfl hhead hcheck
    simp only [tpbAt_mask] at hout
    exact hout

/-! ### mma and mma.kb -/

/-- Segment j is read at I + j, opcnt counts on at I, and the rings that the last read pops are noted (R200 to R202). -/
theorem mmaOp_issued {s : State} {e : EngBits} {t : BitVec 8} {a b : BitVec 4} {q : QEntry} {pops pushes : List Nat} {i : Instr}
    (keepB : Bool) (h : standsReady s .mx e q pops pushes) (hexec : exec i s = mmaOp s keepB e t a b)
    (hhead : mmaHead s t a b e.metaP q = .ok) (hcheck : mmaCheck s t a b e.metaP = .ok) :
    let c := mmaCfg s t.toNat a.toNat b.toNat e.metaP
    matrixIssued s q pops pushes i (c.n + 4) (fun f => f.work = .mma { c with segs := c.n } ∧
      f.accs.map (fun x => (x.tag, x.beat)) = (List.range c.n).map (fun j => (j, s.vc.now + j)) ∧
      f.dues = [(s.vc.now, .opcnt t.toNat)] ∧
      f.got.map (fun x => x.toNat) = (if keepB then [a] else [a, b]).map (fun x => x.toNat)) := by
  intro c
  refine matrixIssued_of_issueWord h hexec hhead hcheck
    (fun u => (charge_charge_eq u _ _ _ _).imp fun l hl => congrArg (fun v => addFlight v _) hl)
    fun u hk => ?_
  have hc : mmaCfg u t.toNat a.toNat b.toNat e.metaP = c := mmaCfg_issueKeeps hk _ _ _ _
  have hnow := now_issueKeeps hk
  rw [hc]
  refine ⟨⟨⟨rfl, rfl, rfl, rfl⟩, rfl⟩, rfl, ?reads, ?count, ?popped⟩
  case reads => exact hnow ▸ beats_of_groups _ _ _
  case count => rw [hnow]
  case popped =>
    have hwide (r : BitVec 4) : (r.setWidth 8).toNat = r.toNat := BitVec.toNat_setWidth_of_le (by decide)
    cases keepB <;> simp [hwide, -BitVec.toNat_setWidth]

/-- Settles O45: both words run as mmaOp, which issues. -/
theorem matrixIssue : Obligations.MatrixIssue := by
  unfold Obligations.MatrixIssue
  intro s e t a b q pops pushes h hhead hcheck c p hp
  have hruns : ∃ keepB, exec p.1 s = mmaOp s keepB e t a b ∧ p.2 = if keepB then [a] else [a, b] := by
    revert p
    simp only [List.forall_mem_cons, List.not_mem_nil, false_imp_iff, implies_true, and_true]
    exact ⟨⟨false, rfl, rfl⟩, ⟨true, rfl, rfl⟩⟩
  obtain ⟨keepB, hexec, hpop⟩ := hruns
  obtain ⟨u, f, hnext, hflights, hissued, hdone, ⟨hwork, hreads, hcount, hgot⟩, hstep, hrest⟩ :=
    mmaOp_issued keepB h hexec hhead hcheck
  exact ⟨u, f, hnext, hflights, hissued, hwork, hdone, hreads, hcount, hgot.trans (by rw [hpop]), hstep, hrest⟩

end Sys2Proof.Machine
end

section
/-! The special operands of the function units (R214): what both settle before any table or polynomial. -/

namespace Sys2Proof.Machine

/-- FX and the exact unit, for every destination format, take a special operand's value from the one table of R214. -/
theorem fnValue_of_fnSpecial {exact : Bool} {z : Fmt} {f : Fn} {x v : Val} (h : fnSpecial f x = some v) :
    fnValue exact z f x = v := by
  unfold fnValue
  rw [h]

theorem fnSpecial_negative {f : Fn} (hf : f ∈ [Fn.log2, .rsqrt, .sqrt]) {m : Nat} (hm : m ≠ 0) (e : Int) :
    fnSpecial f (.fin true m e) = some (.nan true) := by
  simp only [List.mem_cons, List.not_mem_nil, or_false] at hf
  obtain rfl | rfl | rfl := hf
  all_goals exact if_neg hm

theorem toRat_fin_one (n : Bool) : (Val.fin n 1 0).toRat = signOf n := by
  simp [toRat_fin]

theorem toRat_fin_half : (Val.fin false 1 (-1)).toRat = 1 / 2 := by
  simp [toRat_fin, signOf]

/-- Settles O44: every operand here has its value in the table of R214, the zeros whatever their exponent. -/
theorem functionCases : Obligations.FunctionCases := by
  unfold Obligations.FunctionCases
  intro exact z n e m r zero
  have value {f : Fn} {x v : Val} (h : fnSpecial f x = some v) : r f x = v := fnValue_of_fnSpecial h
  have number {f : Fn} {x v : Val} {q : ℚ} (h : fnSpecial f x = some v) (hv : v.toRat = q) : (r f x).toRat = q := by
    rw [value h, hv]
  have negative {f : Fn} (hf : f ∈ [Fn.log2, .rsqrt, .sqrt]) (hm : m ≠ 0) : r f (.fin true m e) = .nan true :=
    value (fnSpecial_negative hf hm e)
  exact ⟨fun _ _ => value rfl,
    /- exp2 -/ value rfl, value rfl, number rfl (toRat_fin_one false),
    /- log2 -/ value rfl, value rfl, value rfl,
    /- rcp -/ value rfl, value rfl,
    /- rsqrt -/ value rfl, value rfl, value rfl,
    /- sqrt -/ value rfl, value rfl, value rfl,
    /- sinpi, cospi -/ value rfl, value rfl, value rfl, number rfl (toRat_fin_one false),
    /- tanh -/ value rfl, number rfl (toRat_fin_one n),
    /- logistic -/ number rfl (toRat_fin_one false), value rfl, number rfl toRat_fin_half,
    fun hm => ⟨negative (by decide) hm, negative (by decide) hm, negative (by decide) hm⟩⟩

end Sys2Proof.Machine
end

section
/-! The copy-block words (R223): a store that waits for the Collie's match (R390, R395). -/

namespace Sys2Proof.Machine

open Sys2Proof.Laws

/-! ### A block that CTL cannot store at once -/

/-- Where the data cache does not take the first word of the block, ccb.st waits at it until the Collie has matched it (R390, R395). -/
theorem execCcbSt_waits {s u : State} {k : BitVec 4} {a : BitVec 6} {pa : Nat} {e : TlbE} (hh : s.vc.ctl.h = false)
    (hr : (xr s a).toNat < 2 ^ 56) (ha : (xr s a).toNat % 64 = 0) (hm : inMap (xr s a).toNat = false)
    (ht : translate s (xr s a).toNat .write = .ok u (pa, e)) (hv : e.vb = false) (hhaz : memHazard s (xr s a).toNat 4 = false)
    (hp : s.part.poison.contains (pa / 128) = false) (hb : dcBypass s (pa / 128) = true) (hc : matchedNow s = false) :
    execCcbSt k a s = .next (awaitMatch u) := by
  let ws := (mgets 0 s.vc.b (16 * k.toNat) 16).map (fun w => w.toNat)
  have hfirst (w : Nat) : ctlStore s (xr s a) (leBytes w 4) = .wait (awaitMatch u) := by
    have hlen : (leBytes w 4).length = 4 := length_leBytes w 4
    rw [ctlStore_page hr (by rw [hlen]; omega) hm ht hv (by rwa [hlen]) hp, if_pos ⟨hb, hc⟩]
  have hstores : storeWords32 s (xr s a) ws = .wait (awaitMatch u) := by
    show storeWords32 s (xr s a) (_ :: _) = _
    rw [storeWords32, hfirst]
  rw [execCcbSt, restricted_outside hh]
  refine (if_neg (not_not.mpr (fld_of_lt hr))).trans ((if_neg (not_not.mpr ha)).trans ?_)
  exact congrArg (fun r => memThen s _ r _) hstores

theorem awaitMatch_pc (s : State) : (awaitMatch s).vc.ctl.pc = s.vc.ctl.pc := by
  unfold awaitMatch
  split <;> rfl

/-- A page that holds the addresses below 64 KiB, unversioned, and grants everything. -/
def pageZero : TlbE := { page := 0, size := 16, frame := 0, vb := false, x := true, w := true, rd := true }

/-- The power-on state with that page in the core's lookaside buffer and the four ways of the first set of its data cache in the
line-disable bitmap (R395). -/
def firstSetDisabled : State :=
  { State.reset with vc.tlb := [pageZero], dev.ways := [2 ^ 40, 2 ^ 40 + 1, 2 ^ 40 + 2, 2 ^ 40 + 3] }

theorem translate_firstSetDisabled : translate firstSetDisabled 0 .write = .ok (lookup firstSetDisabled 0).1 (0, pageZero) :=
  translate_of_lookup (e := pageZero) (lookup_of_head rfl rfl) rfl

theorem storable_firstSetDisabled : storable firstSetDisabled 0 64 :=
  ⟨by decide, by decide, by decide, 0, by decide, by decide, ⟨_, _, translate_firstSetDisabled, rfl, le_rfl⟩, fun _ _ => rfl⟩

/-- Refutes O30: that a block is storable says nothing of the data cache; where the set of its first line is disabled, ccb.st waits for
the Collie's match (R390, R395) with pc as it was, and does not go on to pc + 4 at this beat. -/
theorem not_copyBlockWords : ¬ Obligations.CopyBlockWords := by
  unfold Obligations.CopyBlockWords
  intro h
  obtain ⟨-, -, -, -, hst, -⟩ := h firstSetDisabled 0 0 0 0 rfl
  obtain ⟨t, ht, -, -, hpc⟩ := hst rfl storable_firstSetDisabled
  have hwait : exec (.ccbSt 0 0) firstSetDisabled = .next (awaitMatch (lookup firstSetDisabled 0).1) :=
    execCcbSt_waits (k := 0) (a := 0) rfl (by decide) rfl (by decide) translate_firstSetDisabled rfl (by decide) rfl (by decide +kernel) rfl
  obtain rfl : awaitMatch (lookup firstSetDisabled 0).1 = t := Host.Outcome.next.inj (hwait.symm.trans ht)
  rw [awaitMatch_pc, ctl_translate translate_firstSetDisabled] at hpc
  exact absurd hpc (by decide)

end Sys2Proof.Machine
end

section
/-! The issue of copies (R225, R228, R230 to R232, R234): what a copy whose checks pass puts in flight. -/

namespace Sys2Proof.Machine

open Sys2Proof.Laws

/-! ### Lines of a copy -/

theorem done_of_mem_linesOf {a : Int} {len row : Nat} {second : Bool} {l : CLine} (h : l ∈ linesOf a len row second) :
    l.done = false := by
  unfold linesOf at h
  dsimp only at h
  split at h
  · exact absurd h List.not_mem_nil
  · obtain ⟨i, -, rfl⟩ := List.mem_map.mp h
    rfl

/-- No line of a descriptor has landed (R227). -/
theorem done_of_mem_ccbLines {c : List Word32} {idx : List Int} {op : Nat} {l : CLine} (h : l ∈ ccbLines c idx op) :
    l.done = false := by
  have rows {f : Nat → List CLine} (hf : ∀ r, ∀ x ∈ f r, x.done = false) {rs : List Nat} (hl : l ∈ rs.flatMap f) : l.done = false := by
    obtain ⟨r, -, hr⟩ := List.mem_flatMap.mp hl
    exact hf r l hr
  unfold ccbLines at h
  dsimp only at h
  split at h
  · rcases List.mem_append.mp h with h | h
    · exact rows (fun _ _ => done_of_mem_linesOf) h
    · exact rows (fun _ _ => done_of_mem_linesOf) h
  · exact rows (fun _ _ => done_of_mem_linesOf) h

theorem length_dueLines (s : State) (c : List Word32) (idx : List Int) (op d0 : Nat) :
    (dueLines s c idx op d0).length = (ccbLines c idx op).length := by
  rw [dueLines, List.length_map, List.length_zip, length_countUp, Nat.min_self]

theorem done_of_mem_dueLines {s : State} {c : List Word32} {idx : List Int} {op d0 : Nat} {l : CLine}
    (h : l ∈ dueLines s c idx op d0) : l.done = false := by
  obtain ⟨p, hp, rfl⟩ := List.mem_map.mp h
  exact done_of_mem_ccbLines (l := p.1) (List.of_mem_zip hp).1

/-! ### What a copy starts -/

/-- j is the job of a copy of n lines with control words c, of which none has landed or been performed. -/
def isFreshJob (op : Nat) (c : List Word32) (n : Nat) (j : CopyJob) : Prop :=
  j.op = op ∧ j.ccb = c ∧ j.lines.length = n ∧ ∀ l ∈ j.lines, l.done = false

theorem isFreshJob_copyJobOf (s : State) (op : Nat) (c : List Word32) (za : Option Str) (i0 : Nat) :
    isFreshJob op c (ccbLines c (idxNow s.vc za) op).length (copyJobOf s op c za i0) :=
  ⟨rfl, rfl, length_dueLines .., fun _ => done_of_mem_dueLines⟩

/-- When a copy of n lines that issues at this beat completes: at a beat that is known where its landings are, or with its last
source byte; else with its last line (R231, R232). -/
def copyDone (s : State) (op : Nat) (c : List Word32) (n base : Nat) : Option Nat :=
  if 4 ≤ op then some (s.vc.now + (outReads c base s.vc.now).length - 1)
  else if landFixed s c then some (s.vc.now + 600 + 8 * (n - 1))
  else none

/-- A copy that has its control words at its issue beat goes in flight with its lines, from a state w with the window memory and the
launch of s (R225, R228, R231, R232). -/
theorem copyStart_starts {s w : State} (hchip : w.vc.chip = s.vc.chip) (hlaunch : w.launch = s.launch)
    (op : Nat) (u : Queue) (c : List Word32) (za : Option Str) (q : QEntry) (toks : List Nat) :
    let n := (ccbLines c (idxNow s.vc za) op).length
    ∃ f j, copyStart op u c za s.vc.now 0 q toks w = addFlight w f ∧
      (f.seq = q.seq ∧ f.q = u ∧ f.issued = s.vc.now ∧ f.toks = toks) ∧
      f.work = .copy ∧ f.copy = some j ∧ isFreshJob op c n j ∧ f.done = copyDone s op c n j.base := by
  have hidx : idxNow w.vc za = idxNow s.vc za := by rw [idxNow, hchip, idxNow]
  have hfixed : landFixed w c = landFixed s c := by rw [landFixed, hlaunch, landFixed]
  have hjob := isFreshJob_copyJobOf w op c za s.vc.now
  rw [hidx] at hjob
  refine ⟨_, copyJobOf w op c za s.vc.now, rfl, ⟨rfl, rfl, rfl, rfl⟩, rfl, rfl, hjob, ?_⟩
  obtain ⟨-, -, hlen, -⟩ := hjob
  unfold copyDone
  rw [← hlen, ← hfixed]
  dsimp only [Nat.add_zero]
  by_cases hop : 4 ≤ op
  · rw [if_pos hop, if_pos hop, if_pos hop]
  · rw [if_neg hop, if_neg hop]

/-- The credit that is left when a copy of n lines has drawn its own (R230). -/
def creditAfter (s : State) (c : List Word32) (n : Nat) : Nat := if ccbTimed c then s.vc.eng.credit - 128 * n else s.vc.eng.credit

/-- The follow-on word of copy q as it enters MX (R234). -/
def followWord (s : State) (q : QEntry) (c : List Word32) : QEntry :=
  { q with seq := s.vc.eng.nextSeq, word := listAt 0 c 14, stamp := some (BitVec.ofNat 24 (ccbFld c 15 23 0)),
           metaP := none, placed := s.vc.now, ready := s.vc.now, shared := false, zv := [], retry := false,
           counted := false, stood := none, follow := some q.seq }

/-- The word stood in MX when a copy issues at this beat: it was placed before, or a table run has placed it at this beat (R234). -/
def stoodBefore (now : Nat) (x : QEntry) : Bool := decide (x.placed < now ∨ (x.placed = now ∧ x.run ≠ none))

/-- MX with the follow-on word of copy q behind the words that stood there (R234). -/
def followedMx (s : State) (q : QEntry) (c : List Word32) : List QEntry :=
  s.vc.eng.mx.entries.filter (stoodBefore s.vc.now) ++ [followWord s q c] ++
    s.vc.eng.mx.entries.filter (fun x => !stoodBefore s.vc.now x)

theorem copyDraw_alone {c : List Word32} (h : ccbFo c = false) (s : State) (q : QEntry) (n : Nat) :
    copyDraw s q c n = { s with vc.eng.credit := creditAfter s c n } := by
  have hfollow : placeFollow s q c s.vc.now = s := by
    unfold placeFollow
    exact if_neg (Bool.eq_false_iff.mp h)
  unfold copyDraw creditAfter
  rw [hfollow]
  cases ccbTimed c <;> rfl

theorem copyDraw_follow {c : List Word32} (h : ccbFo c = true) (s : State) (q : QEntry) (n : Nat) :
    copyDraw s q c n = { s with
      vc.eng.nextSeq := s.vc.eng.nextSeq + 1, vc.eng.mx := { s.vc.eng.mx with entries := followedMx s q c },
      vc.eng.credit := creditAfter s c n } := by
  have hstood : (fun x : QEntry => decide (x.placed < s.vc.now) || (x.placed == s.vc.now && x.run.isSome)) = stoodBefore s.vc.now := by
    funext x
    unfold stoodBefore
    cases x.run <;> simp [beq_eq_decide]
  have hfollow : placeFollow s q c s.vc.now = { s with
      vc.eng := { s.vc.eng with
        nextSeq := s.vc.eng.nextSeq + 1, mx := { s.vc.eng.mx with entries := followedMx s q c } } } := by
    unfold placeFollow followedMx
    rw [← hstood]
    exact if_pos h
  unfold copyDraw creditAfter
  rw [hfollow]
  cases ccbTimed c <;> rfl

/-! ### The words -/

/-- The eight copy words, with the queue, the operation and the index stream of each. -/
def copyForms (e : EngBits) (d a : BitVec 4) : List (Instr × Queue × Nat × Option (BitVec 4)) :=
  [(.cpyIn e d, .ld, 0, none), (.cpyInT e d, .ld, 1, none), (.cpyGath e d a, .ld, 2, some a),
   (.cpyPf e d, .ld, 3, none), (.cpyOut e d, .st, 4, none), (.cpyScat e d a, .st, 5, some a),
   (.stash e d, .st, 6, none), (.cpyXc e d, .st, 7, none)]

theorem exec_of_mem_copyForms {e : EngBits} {d a : BitVec 4} {p : Instr × Queue × Nat × Option (BitVec 4)}
    (h : p ∈ copyForms e d a) (s : State) : exec p.1 s = copyOp s p.2.2.1 p.2.1 e d p.2.2.2 ∧ p.2.1 ≠ .mx := by
  simp only [copyForms, List.mem_cons, List.not_mem_nil, or_false] at h
  rcases h with rfl | rfl | rfl | rfl | rfl | rfl | rfl | rfl <;> exact ⟨rfl, Queue.noConfusion⟩

section
variable {s : State} {u : Queue} {e : EngBits} {d : BitVec 4} {a : Option (BitVec 4)} {op : Nat} {q : QEntry} {pops pushes : List Nat}

theorem copyZa_issueKeeps {t : State} (h : issueKeeps s t) (b : Bool) : copyZa t q a b = copyZa s q a b := by
  unfold copyZa
  simp only [bind_issueKeeps h]

theorem idxNow_issueKeeps {t : State} (h : issueKeeps s t) (za : Option Str) : idxNow t.vc za = idxNow s.vc za := by
  rw [h]
  rfl

/-- A copy that meets no fault posts no record of one. -/
theorem mapRefused_of_no_fault {t : State} {n : Nat} (h : t.vc.faults.length = n) (c : List Word32) : mapRefused t n q c = t := by
  unfold mapRefused
  rw [List.getElem?_eq_none h.le]

theorem copyDraw_eng (s : State) (q : QEntry) (c : List Word32) (n : Nat) :
    copyDraw s q c n = { s with vc.eng := (copyDraw s q c n).vc.eng } := by
  cases h : ccbFo c with
  | false => rw [copyDraw_alone h]
  | true => rw [copyDraw_follow h]

/-- A copy whose checks pass leaves its queue, draws its credit, places its follow-on word and is in flight with its lines (R228, R230,
R234). -/
theorem copyOp_issues (h : standsReady s u e q pops pushes) (hmeta : e.metaP = none) :
    let c := copyWords s.vc d none
    let za := copyZa s q a true
    let n := (ccbLines c (idxNow s.vc za) op).length
    copyHead s e d (copyZa s q a false) = .ok →
    copyCheck s op (e.popP || e.popN || e.pushP || e.pushN) c za s.vc.eng.credit (copiesInFlight s.vc) = .ok →
      ∃ f j, copyOp s op u e d a = .next (addFlight (copyDraw (issueLeave s u q pops 0 (some .cpy)) q c n) f) ∧
        (f.seq = q.seq ∧ f.q = u ∧ f.issued = s.vc.now ∧ f.toks = pushes) ∧
        f.work = .copy ∧ f.copy = some j ∧ isFreshJob op c n j ∧ f.done = copyDone s op c n j.base := by
  intro c za n hhead hcheck
  have hk := issueKeeps_issueLeave s u q pops 0 (some .cpy)
  obtain ⟨hat, htime⟩ := ready_of_standsReady h
  obtain ⟨hq, -⟩ := id h
  have hexec := issueWord_issues (n := 0) (cls := some .cpy) (go := fun h toks t =>
      let za := copyZa t h a true
      copyStart op u c za t.vc.now 0 h toks (copyDraw t h c (copyJobOf t op c za t.vc.now).lines.length))
    (head := fun h => copyHead s e d (copyZa s h a false))
    (check := fun h => copyCheck s op (e.popP || e.popN || e.pushP || e.pushN) c (copyZa s h a true) s.vc.eng.credit
      (copiesInFlight s.vc)) hat htime hhead hcheck
  generalize issueLeave s u q pops 0 (some .cpy) = t at hk hexec
  have hlen : (copyJobOf t op c za s.vc.now).lines.length = n := by
    obtain ⟨-, -, hlen, -⟩ := isFreshJob_copyJobOf t op c za s.vc.now
    rw [hlen, idxNow_issueKeeps hk]
  dsimp only at hexec
  rw [copyZa_issueKeeps hk, now_issueKeeps hk, hlen] at hexec
  have hw := copyDraw_eng t q c n
  generalize copyDraw t q c n = w at hw hexec
  obtain ⟨f, j, hstart, hflight⟩ := copyStart_starts (s := s) (w := w) (by rw [hw, hk]) (by rw [hw, hk]) op u c za q pushes
  rw [hstart] at hexec
  refine ⟨f, j, ?_, hflight⟩
  unfold copyOp
  rw [hmeta]
  dsimp only
  rw [hexec, hq]
  dsimp only
  split
  · rw [mapRefused_of_no_fault]
    rw [addFlight, hw, hk]
  · rfl

/-- A word that has left its queue, and has drawn credit, goes in flight as f (R88, R90, R230). -/
theorem addFlight_drawn {cls : Option EClass} {f : Flight} (k : Nat) (hs : q.shared = false)
    (hf : f.seq = q.seq ∧ f.q = u ∧ f.issued = s.vc.now ∧ f.toks = pushes) :
    let t := addFlight { issueLeave s u q pops 0 cls with vc.eng.credit := k } f
    t.vc.eng.flights = s.vc.eng.flights ++ [f] ∧ issuedFrom s t u q pops pushes 0 f ∧ engineStep s t := by
  have hk := issueKeeps_issueLeave s u q pops 0 cls
  refine ⟨?flights, issuedFrom_of_leave hs (fun x => ?queue) rfl rfl rfl hf, ?step⟩
  case flights =>
    rw [← flights_issueKeeps hk]
    rfl
  case queue => cases x <;> rfl
  case step =>
    unfold engineStep addFlight
    rw [hk]

/-- The one read of a copy that takes its control words from image m: the 64 bytes of the image, at this beat (R38, R228). -/
def imageRead (s : State) (m : BitVec 24) : Acc := ⟨idxTag - 1, s.vc.now, countUp (imageAt m) 64, []⟩

/-- A copy whose image names no follow-on word reads the image; how much credit it draws by then is the model's choice (log 66). -/
theorem imageStart_reads {c : List Word32} (hfo : ccbFo c = false) (i : ImageJob) (m : BitVec 24) (u : Queue) (za : Option Str)
    (q : QEntry) (toks : List Nat) (w : State) :
    ∃ k f j, imageStart i m c u za q toks w = addFlight { w with vc.eng.credit := k } f ∧
      (f.seq = q.seq ∧ f.q = u ∧ f.issued = w.vc.now ∧ f.toks = toks) ∧
      f.work = .image j ∧ j.op = i.op ∧ f.copy = none ∧ f.done = none ∧ f.accs = [imageRead w m] := by
  obtain ⟨k, hk⟩ : ∃ k, (if decide (imageCheck w i toks c za = .ok) then
      copyDraw w q c (copyJobOf w i.op c za w.vc.now).lines.length else w) = { w with vc.eng.credit := k } := by
    split
    · exact ⟨_, copyDraw_alone hfo w q _⟩
    · exact ⟨w.vc.eng.credit, rfl⟩
  unfold imageStart
  dsimp only
  rw [hk]
  exact ⟨k, _, _, rfl, ⟨rfl, rfl, rfl, rfl⟩, rfl, rfl, rfl, rfl, rfl⟩

/-- What is kept of copy q while its image is read: what it takes to issue it anew (R156, R228). -/
def imageJob (s : State) (op : Nat) (u : Queue) (q : QEntry) (pops : List Nat) : ImageJob :=
  { op := op, credit := s.vc.eng.credit, copies := copiesInFlight s.vc, next := (s.vc.eng.q u).next, counted := q.counted,
    popped := pops, drawn := 0, source := none }

/-- A copy that META gives an image issues, and reads the image (R228). -/
theorem copyOp_reads_image {m : BitVec 24} (h : standsReady s u e q pops pushes) (hmeta : e.metaP = some m)
    (hhead : copyHead s e d (copyZa s q a false) = .ok) (hfo : ccbFo (copyWords s.vc d e.metaP) = false) :
    ∃ k f j, copyOp s op u e d a = .next (addFlight { issueLeave s u q pops 0 none with vc.eng.credit := k } f) ∧
      (f.seq = q.seq ∧ f.q = u ∧ f.issued = s.vc.now ∧ f.toks = pushes) ∧
      f.work = .image j ∧ j.op = op ∧ f.copy = none ∧ f.done = none ∧ f.accs = [imageRead s m] := by
  have hk := issueKeeps_issueLeave s u q pops 0 none
  obtain ⟨hat, htime⟩ := ready_of_standsReady h
  have hexec : copyOp s op u e d a = .next (imageStart (imageJob s op u q pops) m
      (copyWords (issueLeave s u q pops 0 none).vc d e.metaP) u (copyZa (issueLeave s u q pops 0 none) q a true) q pushes
      (issueLeave s u q pops 0 none)) := by
    obtain ⟨-, -, -, -, -, htok⟩ := id hat
    unfold copyOp
    simp only [hmeta, htok]
    rw [hmeta] at *
    exact issueWord_issues hat htime hhead rfl
  have hwords : copyWords (issueLeave s u q pops 0 none).vc d e.metaP = copyWords s.vc d e.metaP := by
    rw [hk]
    rfl
  rw [hwords] at hexec
  have hnow := now_issueKeeps hk
  obtain ⟨k, f, j, hstart, hf, hread⟩ := imageStart_reads hfo (imageJob s op u q pops) m u
    (copyZa (issueLeave s u q pops 0 none) q a true) q pushes (issueLeave s u q pops 0 none)
  rw [imageRead, hnow] at hread
  rw [hnow] at hf
  exact ⟨k, f, j, hexec.trans (congrArg Host.Outcome.next hstart), hf, hread⟩

/-! ### The queues of a copy with a follow-on word (R234) -/

theorem renew_of_absent {x : QEntry} {v : QState} (h : ∀ y ∈ v.entries, y.seq ≠ x.seq) : v.renew x = v := by
  have hmap : v.entries.map (fun y => if y.seq = x.seq then x else y) = v.entries :=
    (List.map_congr_left fun y hy => if_neg (h y hy)).trans (List.map_id' _)
  rw [QState.renew, hmap]

/-- The leaving of a copy changes nothing of MX where no word of MX has its number. -/
theorem mx_issueLeave {cls : Option EClass} (hs : q.shared = false) (hu : u ≠ .mx) (habsent : ∀ x ∈ (s.vc.eng.q .mx).entries, x.seq ≠ q.seq) :
    (issueLeave s u q pops 0 cls).vc.eng.mx = s.vc.eng.mx := by
  have hout : Queue.mx ∉ standsIn q.shared u := by simpa [standsIn, hs] using hu.symm
  exact (q_issueLeave_other s u q pops 0 cls hout).trans (renew_of_absent habsent)

theorem creditAfter_issueKeeps {t : State} (h : issueKeeps s t) (c : List Word32) (n : Nat) : creditAfter t c n = creditAfter s c n := by
  rw [h]
  rfl

end

/-- What O50 says of a copy whose image META gives. -/
theorem copyImage_spec {s : State} {e : EngBits} {d a : BitVec 4} {q : QEntry} {pops pushes : List Nat}
    {p : Instr × Queue × Nat × Option (BitVec 4)} (hp : p ∈ copyForms e d a) (h : standsReady s p.2.1 e q pops pushes)
    (hhead : copyHead s e d (copyZa s q p.2.2.2 false) = .ok) {m : BitVec 24} (hmeta : e.metaP = some m)
    (hfo : ccbFo (copyWords s.vc d e.metaP) = false) :
    ∃ t f i x, exec p.1 s = .next t ∧ t.vc.eng.flights = s.vc.eng.flights ++ [f] ∧ issuedFrom s t p.2.1 q pops pushes 0 f ∧
      f.work = .image i ∧ i.op = p.2.2.1 ∧ f.copy = none ∧ f.done = none ∧ f.accs = [x] ∧ x.beat = s.vc.now ∧ x.wr = [] ∧
      x.rd = (List.range 64).map (fun k => (m.extractLsb' 0 22).toNat * 64 + k) ∧ engineStep s t := by
  obtain ⟨hexec, -⟩ := exec_of_mem_copyForms hp s
  obtain ⟨k, f, i, hgo, hf, hwork, hop, hcopy, hdone, haccs⟩ := copyOp_reads_image (op := p.2.2.1) h hmeta hhead hfo
  obtain ⟨-, -, hshared, -⟩ := h
  obtain ⟨hflights, hissued, hstep⟩ := addFlight_drawn (cls := none) (pops := pops) k hshared hf
  refine ⟨_, f, i, _, hexec.trans hgo, hflights, hissued, hwork, hop, hcopy, hdone, haccs, rfl, rfl, ?_, hstep⟩
  rw [imageRead, countUp_eq_range', List.range'_eq_map_range]
  rfl

/-- What O50 says of a copy that places no follow-on word. -/
theorem copyAlone_spec {s : State} {e : EngBits} {d a : BitVec 4} {q : QEntry} {pops pushes : List Nat}
    {p : Instr × Queue × Nat × Option (BitVec 4)} (hp : p ∈ copyForms e d a) (h : standsReady s p.2.1 e q pops pushes) :
    let op := p.2.2.1
    let c := copyWords s.vc d none
    let za := copyZa s q p.2.2.2 true
    let n := (ccbLines c (idxNow s.vc za) op).length
    copyHead s e d (copyZa s q p.2.2.2 false) = .ok → e.metaP = none →
    copyCheck s op (e.popP || e.popN || e.pushP || e.pushN) c za s.vc.eng.credit (copiesInFlight s.vc) = .ok → ccbFo c = false →
      ∃ t f j, exec p.1 s = .next t ∧ t.vc.eng.flights = s.vc.eng.flights ++ [f] ∧ issuedFrom s t p.2.1 q pops pushes 0 f ∧
        f.work = .copy ∧ f.copy = some j ∧ isFreshJob op c n j ∧ f.done = copyDone s op c n j.base ∧
        t.vc.eng.credit = creditAfter s c n ∧ engineStep s t := by
  intro op c za n hhead hmeta hcheck hfo
  obtain ⟨hexec, -⟩ := exec_of_mem_copyForms hp s
  obtain ⟨f, j, hgo, hf, hwork, hcopy, hjob, hdone⟩ := copyOp_issues (op := op) h hmeta hhead hcheck
  obtain ⟨-, -, hshared, -⟩ := h
  rw [copyDraw_alone hfo] at hgo
  obtain ⟨hflights, hissued, hstep⟩ := addFlight_drawn (cls := some .cpy) (pops := pops)
    (creditAfter (issueLeave s p.2.1 q pops 0 (some .cpy)) c n) hshared hf
  exact ⟨_, f, j, hexec.trans hgo, hflights, hissued, hwork, hcopy, hjob, hdone,
    creditAfter_issueKeeps (issueKeeps_issueLeave ..) c n, hstep⟩

/-- What O50 says of a copy that places a follow-on word (R234). -/
theorem copyFollow_spec {s : State} {e : EngBits} {d a : BitVec 4} {q : QEntry} {pops pushes : List Nat}
    {p : Instr × Queue × Nat × Option (BitVec 4)} (hp : p ∈ copyForms e d a) (h : standsReady s p.2.1 e q pops pushes) :
    let op := p.2.2.1
    let c := copyWords s.vc d none
    let za := copyZa s q p.2.2.2 true
    let n := (ccbLines c (idxNow s.vc za) op).length
    copyHead s e d (copyZa s q p.2.2.2 false) = .ok → e.metaP = none →
    copyCheck s op (e.popP || e.popN || e.pushP || e.pushN) c za s.vc.eng.credit (copiesInFlight s.vc) = .ok → ccbFo c = true →
    (∀ x ∈ (s.vc.eng.q .mx).entries, x.seq ≠ q.seq) →
      ∃ (t : State) (f : Flight) (j : CopyJob) (w : QEntry), exec p.1 s = .next t ∧ t.vc.eng.flights = s.vc.eng.flights ++ [f] ∧
        (f.seq = q.seq ∧ f.q = p.2.1 ∧ f.issued = s.vc.now ∧ f.toks = pushes) ∧
        f.work = .copy ∧ f.copy = some j ∧ isFreshJob op c n j ∧
        t.vc.eng.q p.2.1 = { (s.vc.eng.q p.2.1).without q.seq with next := s.vc.now + 0 + 1 } ∧
        (t.vc.eng.q .mx).entries = s.vc.eng.mx.entries.filter (stoodBefore s.vc.now) ++ [w] ++
          s.vc.eng.mx.entries.filter (fun x => !stoodBefore s.vc.now x) ∧
        w.word = listAt 0 c 14 ∧ w.stamp = some (BitVec.ofNat 24 (ccbFld c 15 23 0)) ∧ w.ready = s.vc.now ∧ w.follow = some q.seq ∧
        t.vc.eng.credit = creditAfter s c n ∧ engineStep s t := by
  intro op c za n hhead hmeta hcheck hfo habsent
  obtain ⟨hexec, hu⟩ := exec_of_mem_copyForms hp s
  obtain ⟨f, j, hgo, hf, hwork, hcopy, hjob, -⟩ := copyOp_issues (op := op) h hmeta hhead hcheck
  obtain ⟨-, -, hshared, -⟩ := h
  have hk := issueKeeps_issueLeave s p.2.1 q pops 0 (some .cpy)
  have hnow := now_issueKeeps hk
  have hin : p.2.1 ∈ standsIn q.shared p.2.1 := by simp [standsIn, hshared]
  have hown := q_issueLeave s p.2.1 q pops 0 (some .cpy) hin
  have hmx := mx_issueLeave (cls := some .cpy) (pops := pops) hshared hu habsent
  rw [copyDraw_follow hfo] at hgo
  generalize issueLeave s p.2.1 q pops 0 (some .cpy) = v at hgo hk hnow hown hmx
  refine ⟨_, f, j, followWord v q c, hexec.trans hgo, ?flights, hf, hwork, hcopy, hjob, ?own,
    ?mx, rfl, rfl, hnow, rfl, creditAfter_issueKeeps hk c n, ?step⟩
  case flights =>
    rw [← flights_issueKeeps hk]
    rfl
  case own =>
    rw [← hown]
    revert hu
    cases p.2.1 <;> intro hu
    case mx => exact absurd rfl hu
    all_goals rfl
  case mx =>
    rw [← hmx, ← hnow]
    rfl
  case step =>
    unfold engineStep addFlight
    rw [hk]

/-- Bits 23:0 of a control word. -/
theorem ofNat_ccbFld_low (c : List Word32) (k : Nat) : BitVec.ofNat 24 (ccbFld c k 23 0) = (listAt (0 : Word32) c k).setWidth 24 := by
  apply BitVec.eq_of_toNat_eq
  rw [BitVec.toNat_ofNat, BitVec.toNat_setWidth]
  show (listAt (0 : Word32) c k).toNat / 2 ^ 0 % 2 ^ 24 % 2 ^ 24 = _
  rw [pow_zero, Nat.div_one, Nat.mod_mod]

/-- Settles O50: a copy reads its image, or is in flight with its lines, alone or with its follow-on word placed. -/
theorem copyIssue : Obligations.CopyIssue := by
  unfold Obligations.CopyIssue
  intro s e d a q pops pushes p hp op c za n tok h hhead
  have hcredit (ht : ccbTimed c = true) : creditAfter s c n = s.vc.eng.credit - 128 * n := if_pos ht
  refine ⟨fun m hmeta hfo => copyImage_spec hp h hhead hmeta hfo, fun hmeta hcheck hfo => ?alone,
    fun hmeta hcheck hfo habsent => ?follow⟩
  case alone =>
    obtain ⟨t, f, j, hexec, hflights, hissued, hwork, hcopy, ⟨hop, hccb, hlen, hlines⟩, hdone, hleft, hstep⟩ :=
      copyAlone_spec hp h hhead hmeta hcheck hfo
    unfold copyDone at hdone
    refine ⟨t, f, j, hexec, hflights, hissued, hwork, hcopy, hop, hccb, hlen, hlines, fun hin ht hm => ?fixed, fun hin hfree => ?untimed,
      fun hout => hdone.trans (if_pos hout), fun ht => hleft.trans (hcredit ht), hstep⟩
    case fixed =>
      have hfixed : landFixed s c = true := by rw [landFixed, ht, hm]; rfl
      exact hdone.trans ((if_neg (Nat.not_le.mpr hin)).trans (if_pos hfixed))
    case untimed =>
      have hfixed : ¬landFixed s c = true := by
        rw [landFixed]
        rcases hfree with ht | hm
        · simp [ht]
        · simp [hm]
      exact hdone.trans ((if_neg (Nat.not_le.mpr hin)).trans (if_neg hfixed))
  case follow =>
    obtain ⟨t, f, j, w, hexec, hflights, ⟨hseq, -, hissued, htoks⟩, hwork, hcopy, ⟨hop, hccb, hlen, -⟩, hown, hmx, hword, hstamp, hready,
      hfollow, hleft, hstep⟩ := copyFollow_spec hp h hhead hmeta hcheck hfo habsent
    exact ⟨t, f, j, w, hexec, hflights, hseq, hissued, htoks, hwork, hcopy, hop, hccb, hlen, congrArg QState.entries hown,
      congrArg QState.next hown, hmx, hword, hstamp.trans (congrArg some (ofNat_ccbFld_low c 15)), hready, hfollow,
      fun ht => hleft.trans (hcredit ht), hstep⟩

end Sys2Proof.Machine
end

section
/-! The events of memory (R241, R248, R252, R286 to R288, R406): walks, versions, invalidation, hash masks and link accesses. -/

namespace Sys2Proof.Machine

open Sys2Proof.Laws

/-! ### Bytes of memory -/

theorem length_mgets {α : Type} (d : α) (m : SMap α) (k n : Nat) : (mgets d m k n).length = n := by
  induction n generalizing k with
  | zero => rfl
  | succ n ih => rw [mgets, List.length_cons, ih]

theorem physByte_of_mem {s t : State} (h : t.part.mem = s.part.mem) (a : Nat) : physByte t a = physByte s a := by
  rw [physByte, h, physByte]

/-- A byte after n bytes that s holds at src have been written to dst. -/
theorem physByte_physWrite_physRead (u s : State) (dst src n a : Nat) :
    physByte (physWrite u dst (physRead s src n)) a =
      if dst ≤ a ∧ a < dst + n then physByte s (src + (a - dst)) else physByte u a := by
  rw [physByte_physWrite, physRead, length_mgets]
  split
  next h => exact listAt_mgets _ _ _ _ _ _ (by omega)
  · rfl

theorem physByte_physWrite_inside (s : State) (pa : Nat) {d : List Byte} {i : Nat} (h : i < d.length) :
    physByte (physWrite s pa d) (pa + i) = listAt 0 d i := by
  rw [physByte_physWrite, if_pos (by omega), Nat.add_sub_cancel_left]

theorem physByte_physWrite_outside (s : State) {pa a : Nat} {d : List Byte} (h : a < pa ∨ pa + d.length ≤ a) :
    physByte (physWrite s pa d) a = physByte s a := by
  rw [physByte_physWrite, if_neg (by omega)]

/-! ### A translation walk (R248, R249) -/

theorem mem_coreTlbPut {s : State} {e x : TlbE} (h : x ∈ coreTlbPut s e) : x = e ∨ x ∈ s.vc.tlb :=
  (List.mem_cons.mp (List.mem_of_mem_take h)).imp_right List.mem_of_mem_filter

/-- A lookup brings no translation into the core's lookaside buffer but the one that it finds. -/
theorem lookup_tlb {s : State} {va : Nat} {e x : TlbE} (h : (lookup s va).2 = .ok e) (hx : x ∈ (lookup s va).1.vc.tlb) :
    x = e ∨ x ∈ s.vc.tlb := by
  rcases hcore : s.vc.tlb.find? (fun e => e.hits va) with _ | c
  · rcases hclus : s.part.ctlb.find? (fun p => p.1 == clusterOf s && p.2.hits va) with _ | p
    · rcases hrun : walkOf s va with _ | w
      · obtain ⟨hvc, -⟩ := walk_keeps s va
        rcases hw : walk s va with ⟨s1, d | c⟩
        · rw [lookup_bad hcore hclus hrun hw] at h
          cases h
        · rw [hw] at hvc
          rw [lookup_walk hcore hclus hrun hw] at h hx
          cases h
          exact hvc ▸ mem_coreTlbPut (s := s1) hx
      · rw [lookup_shared hcore hclus hrun] at h hx
        cases hwe : w.entry with
        | none =>
          rw [hwe] at h
          cases h
        | some c =>
          rw [hwe] at h hx
          cases h
          exact mem_coreTlbPut hx
    · rw [lookup_cluster hcore hclus] at h hx
      cases h
      exact mem_coreTlbPut hx
  · rw [lookup_core hcore] at h hx
    cases h
    exact mem_coreTlbPut hx

/-- A walk that ends is a lookup, unless an invalidation runs. -/
theorem exec_translationWalkComplete (s : State) (va : Word64) : exec (.translationWalkComplete va) s =
    if fld va 63 56 ≠ 0 ∨ s.part.tlbBusy = true then .next s else .next (lookup s va.toNat).1 := rfl

theorem translationWalkComplete_fills {s : State} (va : Word64) (hq : s.dev.lq ≤ 4) :
    ∃ t, exec (.translationWalkComplete va) s = .next t ∧ (∀ a, physByte t a = physByte s a) ∧ t.vc.chip = s.vc.chip ∧
      t.vc.ctl = s.vc.ctl ∧ (s.part.tlbBusy = true → t = s) ∧
      ∀ e, va.toNat < 2 ^ 56 → s.part.tlbBusy = false → (lookup s va.toNat).2 = .ok e →
        t.vc.tlb.head? = some e ∧ (∀ x ∈ t.vc.tlb, x = e ∨ x ∈ s.vc.tlb) ∧ e.page = va.toNat / 2 ^ e.size := by
  rw [exec_translationWalkComplete]
  split
  next hskip =>
    refine ⟨s, rfl, fun _ => rfl, rfl, rfl, fun _ => rfl, fun e hva hbusy _ => ?_⟩
    rcases hskip with hhigh | hb
    · exact absurd (fld_of_lt hva) hhigh
    · rw [hb] at hbusy
      cases hbusy
  next hrun =>
    have hchip : (lookup s va.toNat).1.vc.chip = s.vc.chip := 
      show (memMask (lookup s va.toNat).1).vc.chip = (memMask s).vc.chip by rw [memMask_lookup]
    have hctl : (lookup s va.toNat).1.vc.ctl = s.vc.ctl := 
      show (memMask (lookup s va.toNat).1).vc.ctl = (memMask s).vc.ctl by rw [memMask_lookup]
    refine ⟨_, rfl, physByte_of_mem (lookup_part_mem s va.toNat), hchip, hctl, fun hb => absurd (Or.inr hb) hrun, fun e _ _ hlook => ?_⟩
    obtain ⟨hhits, hhead⟩ := lookup_head hq hlook
    exact ⟨hhead, fun x hx => lookup_tlb hlook hx, eq_of_beq hhits⟩

/-! ### Blocks and slots (R283, R286) -/

@[simp] theorem blockAt_setBlock (s : State) (bk : Nat) (b : Block) : blockAt (setBlock s bk b) bk = b :=
  mget_mput_same ..

theorem physByte_setBlock (s : State) (bk : Nat) (b : Block) (a : Nat) : physByte (setBlock s bk b) a = physByte s a := rfl

/-- The slots of a block lie apart. -/
theorem slots_apart (bk c : Nat) :
    slotAddr bk c + 2048 ≤ slotAddr bk (1 - c) ∨ slotAddr bk (1 - c) + 2048 ≤ slotAddr bk c := by
  unfold slotAddr
  omega

/-- A line that enters the map is in it. -/
theorem getLsbD_map_or (m : BitVec 16) {i : Nat} (h : i < 16) : (m ||| BitVec.ofNat 16 (2 ^ i)).getLsbD i = true := by
  rw [BitVec.getLsbD_or, BitVec.getLsbD_ofNat, Nat.testBit_two_pow_self, decide_eq_true h]
  simp

/-- One line of a copy: slot c's, unless the map has it. -/
def copyLine (bk : Nat) (b : Block) (t : State) (i : Nat) : State :=
  if b.map.getLsbD i then t
  else physWrite t (slotAddr bk (1 - b.c) + 128 * i) (physRead t (slotAddr bk b.c + 128 * i) 128)

theorem copyLines_eq (s : State) (bk : Nat) (b : Block) : copyLines s bk b = (countUp 0 16).foldl (copyLine bk b) s := rfl

theorem copyLine_of_mapped {bk i : Nat} {b : Block} {t : State} (h : b.map.getLsbD i = true) : copyLine bk b t i = t := if_pos h

theorem copyLine_of_unmapped {bk i : Nat} {b : Block} {t : State} (h : b.map.getLsbD i = false) : copyLine bk b t i =
    physWrite t (slotAddr bk (1 - b.c) + 128 * i) (physRead t (slotAddr bk b.c + 128 * i) 128) :=
  if_neg (Bool.eq_false_iff.mp h)

@[simp] theorem copyLine_vc (bk : Nat) (b : Block) (t : State) (i : Nat) : (copyLine bk b t i).vc = t.vc := by
  unfold copyLine
  split <;> simp

theorem physByte_copyLine (bk : Nat) (b : Block) (t : State) (k i : Nat) {j : Nat} (hj : j < 128) :
    physByte (copyLine bk b t k) (slotAddr bk (1 - b.c) + 128 * i + j) =
      if k = i ∧ b.map.getLsbD i = false then physByte t (slotAddr bk b.c + 128 * i + j)
      else physByte t (slotAddr bk (1 - b.c) + 128 * i + j) := by
  rcases hmap : b.map.getLsbD k with _ | _
  · rw [copyLine_of_unmapped hmap, physByte_physWrite_physRead]
    by_cases hk : k = i
    · subst hk
      rw [if_pos ⟨Nat.le_add_right .., Nat.add_lt_add_left hj _⟩, if_pos ⟨rfl, hmap⟩, Nat.add_sub_cancel_left]
    · rw [if_neg (by omega), if_neg (fun h => hk h.1)]
  · rw [copyLine_of_mapped hmap, if_neg]
    rintro ⟨rfl, hunmapped⟩
    exact Bool.noConfusion (hmap.symm.trans hunmapped)

/-- A copy leaves the slot that it reads. -/
theorem physByte_copyLine_source (bk : Nat) (b : Block) (t : State) {k a : Nat} (hk : k < 16) (ha : a < 2048) :
    physByte (copyLine bk b t k) (slotAddr bk b.c + a) = physByte t (slotAddr bk b.c + a) := by
  rcases hmap : b.map.getLsbD k with _ | _
  · have hapart := slots_apart bk b.c
    rw [copyLine_of_unmapped hmap, physByte_physWrite_physRead, if_neg (by omega)]
  · rw [copyLine_of_mapped hmap]

theorem physByte_copyLine_foldl (bk : Nat) (b : Block) {i j : Nat} (hi : i < 16) (hj : j < 128) {l : List Nat} (hl : ∀ k ∈ l, k < 16)
    (t : State) :
    physByte (l.foldl (copyLine bk b) t) (slotAddr bk (1 - b.c) + 128 * i + j) =
      if i ∈ l ∧ b.map.getLsbD i = false then physByte t (slotAddr bk b.c + 128 * i + j)
      else physByte t (slotAddr bk (1 - b.c) + 128 * i + j) := by
  induction l generalizing t with
  | nil => rw [List.foldl_nil, if_neg (fun h => List.not_mem_nil h.1)]
  | cons k l ih =>
    have hsource : physByte (copyLine bk b t k) (slotAddr bk b.c + 128 * i + j) = physByte t (slotAddr bk b.c + 128 * i + j) := by
      rw [Nat.add_assoc]
      exact physByte_copyLine_source bk b t (hl k List.mem_cons_self) (by omega)
    rw [List.foldl_cons, ih (fun x hx => hl x (List.mem_cons_of_mem _ hx)), hsource, physByte_copyLine bk b t k i hj]
    by_cases hlater : i ∈ l ∧ b.map.getLsbD i = false
    · rw [if_pos hlater, if_pos ⟨List.mem_cons_of_mem _ hlater.1, hlater.2⟩]
    · rw [if_neg hlater]
      refine if_congr ⟨fun ⟨hk, hmap⟩ => ⟨hk ▸ List.mem_cons_self, hmap⟩, fun ⟨hmem, hmap⟩ => ⟨?_, hmap⟩⟩ rfl rfl
      exact ((List.mem_cons.mp hmem).resolve_right (fun hi => hlater ⟨hi, hmap⟩)).symm

/-- A copy brings the lines that the map lacks into the other slot. -/
theorem physByte_copyLines (s : State) (bk : Nat) (b : Block) {i j : Nat} (hi : i < 16) (hj : j < 128) :
    physByte (copyLines s bk b) (slotAddr bk (1 - b.c) + 128 * i + j) =
      physByte s (slotAddr bk (if b.map.getLsbD i then 1 - b.c else b.c) + 128 * i + j) := by
  rw [copyLines_eq, physByte_copyLine_foldl bk b hi hj (fun k hk => by have := (mem_countUp.mp hk).2; omega)]
  cases b.map.getLsbD i
  · rw [if_pos ⟨mem_countUp.mpr ⟨Nat.zero_le _, by omega⟩, rfl⟩, if_neg Bool.false_ne_true]
  · rw [if_neg (fun h => Bool.noConfusion h.2), if_pos rfl]

@[simp] theorem copyLines_vc (s : State) (bk : Nat) (b : Block) : (copyLines s bk b).vc = s.vc :=
  foldl_keeps (f := fun u : State => u.vc) (copyLine_vc bk b) _ s

/-- Pins change neither the slot nor the epoch of a block. -/
theorem applyPins_keeps (s : State) (b : Block) : (applyPins s b).c = b.c ∧ (applyPins s b).e = b.e :=
  Prod.mk.inj (foldl_keeps (f := fun x : Block => (x.c, x.e))
    (g := fun (x : Block) (g : Nat) => { x with pin := (x.c, g) :: x.pin.filter (fun p => p.1 != x.c) }) (fun _ _ => rfl) _ b)

@[simp] theorem touch_vc (s : State) (bk : Nat) : (touch s bk).vc = s.vc := by
  unfold touch
  dsimp only
  rw [setBlock_vc]
  split
  · rfl
  · split <;> simp

/-! ### Resolution of a closed block (R286, R288) -/

/-- A block of an aborted epoch keeps its slot. -/
theorem touch_of_aborted {s : State} {bk ep : Nat} (he : (blockAt s bk).e = some ep) (ho : outcomeOf s ep = some false) :
    (blockAt (touch s bk) bk).e = none ∧ (blockAt (touch s bk) bk).c = (blockAt s bk).c ∧
      (touch s bk).part.mem = s.part.mem := by
  unfold touch
  simp only [he, ho, blockAt_setBlock, applyPins_keeps, setBlock_part_mem, and_self]

/-- A block of a committed epoch takes the other slot, with every line there. -/
theorem touch_of_committed {s : State} {bk ep : Nat} (he : (blockAt s bk).e = some ep) (ho : outcomeOf s ep = some true) :
    (blockAt (touch s bk) bk).e = none ∧ (blockAt (touch s bk) bk).c = 1 - (blockAt s bk).c ∧
      ∀ i j, i < 16 → j < 128 → physByte (touch s bk) (slotAddr bk (1 - (blockAt s bk).c) + 128 * i + j) =
        physByte s (slotAddr bk (readSlot (blockAt s bk) i) + 128 * i + j) := by
  unfold touch
  simp only [he, ho, blockAt_setBlock, applyPins_keeps, physByte_setBlock, true_and]
  intro i j hi hj
  rw [physByte_copyLines _ bk _ hi hj, readSlot, he, Option.isSome_some, Bool.true_and]
  exact physByte_of_mem (chargeTo_part_mem ..) _

theorem sweeperResolve_resolves {s : State} {bk ep : Nat} {ok : Bool} (he : (blockAt s bk).e = some ep)
    (ho : outcomeOf s ep = some ok) :
    ∃ t, exec (.sweeperResolve bk) s = .next t ∧ (blockAt t bk).e = none ∧
      (blockAt t bk).c = (if ok then 1 - (blockAt s bk).c else (blockAt s bk).c) ∧
      (ok = false → t.part.mem = s.part.mem) ∧
      (ok = true → ∀ i j, i < 16 → j < 128 → physByte t (slotAddr bk (1 - (blockAt s bk).c) + 128 * i + j) =
        physByte s (slotAddr bk (readSlot (blockAt s bk) i) + 128 * i + j)) := by
  have hexec : exec (.sweeperResolve bk) s = .next (touch s bk) := by
    show execSweeperResolve bk s = _
    simp only [execSweeperResolve, he, ho, Option.isSome_some, if_true]
  refine ⟨_, hexec, ?_⟩
  cases ok with
  | false =>
    obtain ⟨hnone, hslot, hmem⟩ := touch_of_aborted he ho
    exact ⟨hnone, hslot, fun _ => hmem, fun h => Bool.noConfusion h⟩
  | true =>
    obtain ⟨hnone, hslot, hbytes⟩ := touch_of_committed he ho
    exact ⟨hnone, hslot, fun h => Bool.noConfusion h, fun _ => hbytes⟩

/-! ### The copy of a first write (R287) -/

theorem missingLine_lt {b : Block} {i : Nat} (h : missingLine b = some i) : i < 16 := by
  have := (mem_countUp.mp (List.mem_of_find?_eq_some h)).2
  omega

/-- A block with an epoch whose copy is not complete is copied further. -/
theorem copy_goes_on {b : Block} (he : b.e.isSome = true) (hcopy : b.copy = true) : ¬ (b.e.isNone || !b.copy) = true := by
  rw [hcopy, Bool.not_true, Bool.or_false, Option.isNone_iff_eq_none]
  exact Option.isSome_iff_ne_none.mp he

theorem exec_firstWriteLineCopy_of_missing {s : State} {bk i : Nat} (he : (blockAt s bk).e.isSome = true)
    (hcopy : (blockAt s bk).copy = true) (hi : missingLine (blockAt s bk) = some i) :
    exec (.firstWriteLineCopy bk) s = .next (setBlock
      (physWrite (chargeFor s (blockAt s bk).owner (some (blockAt s bk).writer) .hbm 2)
        (slotAddr bk (1 - (blockAt s bk).c) + 128 * i) (physRead s (slotAddr bk (blockAt s bk).c + 128 * i) 128)) bk
      { blockAt s bk with map := (blockAt s bk).map ||| BitVec.ofNat 16 (2 ^ i) }) := by
  show execFirstWriteLineCopy bk s = _
  unfold execFirstWriteLineCopy
  dsimp only
  rw [if_neg (copy_goes_on he hcopy), hi]

theorem exec_firstWriteLineCopy_of_complete {s : State} {bk : Nat} (he : (blockAt s bk).e.isSome = true)
    (hcopy : (blockAt s bk).copy = true) (hi : missingLine (blockAt s bk) = none) :
    exec (.firstWriteLineCopy bk) s = .next (setBlock s bk { blockAt s bk with copy := false }) := by
  show execFirstWriteLineCopy bk s = _
  unfold execFirstWriteLineCopy
  dsimp only
  rw [if_neg (copy_goes_on he hcopy), hi]

theorem firstWriteLineCopy_copies {s : State} {bk i : Nat} (he : (blockAt s bk).e.isSome = true)
    (hcopy : (blockAt s bk).copy = true) (hi : missingLine (blockAt s bk) = some i) :
    let c := (blockAt s bk).c
    ∃ t, exec (.firstWriteLineCopy bk) s = .next t ∧ (blockAt t bk).map.getLsbD i = true ∧ (blockAt t bk).c = c ∧
      (∀ j, j < 128 → physByte t (slotAddr bk (1 - c) + 128 * i + j) = physByte s (slotAddr bk c + 128 * i + j)) ∧
      ∀ a, a < slotAddr bk (1 - c) + 128 * i ∨ slotAddr bk (1 - c) + 128 * i + 128 ≤ a → physByte t a = physByte s a := by
  intro c
  rw [exec_firstWriteLineCopy_of_missing he hcopy hi]
  refine ⟨_, rfl, ?_, ?_, fun j hj => ?_, fun a ha => ?_⟩
  · rw [blockAt_setBlock]
    exact getLsbD_map_or _ (missingLine_lt hi)
  · rw [blockAt_setBlock]
  · rw [physByte_setBlock, physByte_physWrite_physRead, if_pos ⟨Nat.le_add_right .., Nat.add_lt_add_left hj _⟩,
      Nat.add_sub_cancel_left]
  · rw [physByte_setBlock, physByte_physWrite_physRead, if_neg (fun h => ha.elim h.1.not_gt h.2.not_ge)]
    exact physByte_of_mem (chargeFor_part_mem ..) a

theorem firstWriteLineCopy_ends {s : State} {bk : Nat} (he : (blockAt s bk).e.isSome = true)
    (hcopy : (blockAt s bk).copy = true) (hi : missingLine (blockAt s bk) = none) :
    ∃ t, exec (.firstWriteLineCopy bk) s = .next t ∧ (blockAt t bk).copy = false ∧ t.part.mem = s.part.mem := by
  rw [exec_firstWriteLineCopy_of_complete he hcopy hi]
  exact ⟨_, rfl, by rw [blockAt_setBlock], rfl⟩

/-! ### Versioned accesses (R286, R287) -/

theorem versionedAccess_read {s : State} {x : VAccess} (hx : x.write = false) :
    ∃ t, exec (.versionedAccess x) s = .next t ∧ t.vc = s.vc ∧
      ∀ a, physByte t a = physByte (touch s (blockOf x.frame x.off)) a := by
  have hexec : exec (.versionedAccess x) s = .next (charge (touch s (blockOf x.frame x.off)) .hbm) := by
    show execVersionedAccess x s = _
    rw [execVersionedAccess, hx, if_neg Bool.false_ne_true, vRead]
  refine ⟨_, hexec, ?_, physByte_of_mem (charge_part_mem ..)⟩
  rw [charge_vc, touch_vc]

/-- A write whose epoch is not open counts alone (R287). -/
theorem versionedAccess_stale {s : State} {x : VAccess} {ep g : Nat} {dr : Bool} (hopen : s.part.openEp = some (ep, g, dr))
    (hx : x.write = true) (hep : x.epoch ≠ some ep) : exec (.versionedAccess x) s = .next (bumpCount s 0) := by
  show execVersionedAccess x s = _
  have hstale : vWrite s x.frame x.off x.data x.epoch = some (bumpCount s 0) := by
    unfold vWrite
    exact if_pos (Or.inr (by rw [hopen]; exact hep))
  rw [execVersionedAccess, hx, if_pos rfl, hstale]

/-- Reading the rest of a line into its place leaves every other byte (R286). -/
theorem physByte_fill (skip : Bool) (u : State) (src : Nat) {dst n a : Nat} (h : a < dst ∨ dst + n ≤ a) :
    physByte (if skip then u else physWrite (charge u .hbm) dst (physRead u src n)) a = physByte u a := by
  cases skip
  · rw [if_neg Bool.false_ne_true, physByte_physWrite_physRead, if_neg (by omega)]
    exact physByte_of_mem (charge_part_mem ..) a
  · rw [if_pos rfl]

/-- A write that is taken writes its bytes into the slot that is not the block's, and the line enters the map; the block's own slot
stands as the touch left it. -/
theorem vWrite_taken {s t : State} {frame off ep : Nat} {d : List Byte} (hep : s.part.openEp.map (fun o => o.1) = some ep)
    (h : vWrite s frame off d (some ep) = some t) :
    let bk := blockOf frame off
    let c := (blockAt (touch s bk) bk).c
    ∃ (u : State) (b : Block),
      t = setBlock (physWrite u (slotAddr bk (1 - c) + off % 2048) d) bk
        { b with map := b.map ||| BitVec.ofNat 16 (2 ^ (off % 2048 / 128)) } ∧
      b.e = some ep ∧ b.c = c ∧
      ∀ a, a < 2048 → physByte u (slotAddr bk c + a) = physByte (touch s bk) (slotAddr bk c + a) := by
  have hapart := slots_apart (blockOf frame off) (blockAt (touch s (blockOf frame off)) (blockOf frame off)).c
  unfold vWrite at h
  dsimp only at h ⊢
  rw [hep, if_neg (by simp)] at h
  split at h
  · cases h
  · have ht := Option.some.inj h
    refine ⟨_, _, ht.symm, ?_, ?_, fun a ha => ?_⟩
    · split
      · rfl
      next hfirst => exact not_not.mp (fun hne => hfirst (decide_eq_true hne))
    · split <;> rfl
    · rw [physByte_of_mem (charge_part_mem ..), physByte_fill _ _ _ (by omega)]
      split
      · exact physByte_of_mem (charge_part_mem ..) _
      · rfl

theorem versionedAccess_write {s : State} {x : VAccess} {ep g : Nat} {dr : Bool} (hopen : s.part.openEp = some (ep, g, dr))
    (hlen : x.off % 128 + x.data.length ≤ 128) (hx : x.write = true) (hep : x.epoch = some ep)
    (htaken : (vWrite s x.frame x.off x.data (some ep)).isSome = true) :
    let bk := blockOf x.frame x.off
    ∃ t, exec (.versionedAccess x) s = .next t ∧
      (blockAt t bk).e = some ep ∧ (blockAt t bk).map.getLsbD (x.off % 2048 / 128) = true ∧
      (∀ i, i < x.data.length → physByte t (slotAddr bk (1 - (blockAt t bk).c) + x.off % 2048 + i) = listAt 0 x.data i) ∧
      ∀ i, i < 2048 → physByte t (slotAddr bk (blockAt t bk).c + i) =
        physByte (touch s bk) (slotAddr bk (blockAt t bk).c + i) := by
  intro bk
  obtain ⟨t, ht⟩ := Option.isSome_iff_exists.mp htaken
  have hexec : exec (.versionedAccess x) s = .next t := by
    show execVersionedAccess x s = _
    rw [execVersionedAccess, hx, if_pos rfl, hep, ht]
  obtain ⟨u, b, rfl, he, hc, hslot⟩ := vWrite_taken (by rw [hopen]; rfl) ht
  refine ⟨_, hexec, ?_⟩
  simp only [bk, blockAt_setBlock, physByte_setBlock, hc]
  refine ⟨he, getLsbD_map_or _ (by omega), fun i hi => physByte_physWrite_inside u _ hi, fun i hi => ?_⟩
  have hapart := slots_apart (blockOf x.frame x.off) (blockAt (touch s (blockOf x.frame x.off)) (blockOf x.frame x.off)).c
  rw [physByte_physWrite_outside u (by omega), hslot i hi]

/-! ### Requests of the control link (R241, R252, R406) -/

theorem accept_of_true {s t : State} {ok : Bool} (h : ok = true) : accept s ok t = (t, .done) := if_pos h

theorem accept_of_false {s t : State} {ok : Bool} (h : ok = false) : accept s ok t = (s, .refused) :=
  if_neg (Bool.eq_false_iff.mp h)

/-- The state in which an accepted TLBINV leaves the partition (R252). -/
def invalidated (s : State) (v : Word64) : State :=
  let t := allVC s (fun c => { c with tlb := c.tlb.filter (fun e => !tlbDrops v e) })
  { t with part.ctlb := t.part.ctlb.filter (fun p => !tlbDrops v p.2), part.tlbBusy := true, part.tlbinv := v &&& ~~~4 }

theorem tlbinvWrite_accepted {s : State} {fn : BitVec 5} {v : Word64} (hfn : fn.toNat = s.part.idx + 1) (h : tlbinvOk s v = true) :
    tlbinvWrite s fn v = reply (invalidated s v) .done := by
  have haccept : accept s (tlbinvOk s v) (invalidated s v) = (invalidated s v, .done) := accept_of_true h
  exact (vfReply_self hfn (congrArg (fun r : State × Status => r.1.part.idx) haccept)).trans
    (congrArg (fun r : State × Status => reply r.1 r.2) haccept)

theorem tlbinvWrite_refused {s : State} {fn : BitVec 5} {v : Word64} (hfn : fn.toNat = s.part.idx + 1) (h : tlbinvOk s v = false) :
    tlbinvWrite s fn v = reply s .refused := by
  have haccept : accept s (tlbinvOk s v) (invalidated s v) = (s, .refused) := accept_of_false h
  exact (vfReply_self hfn (congrArg (fun r : State × Status => r.1.part.idx) haccept)).trans
    (congrArg (fun r : State × Status => reply r.1 r.2) haccept)

theorem tlbinv_invalidates {s : State} {fn : BitVec 5} {v : Word64} (hfn : fn.toNat = s.part.idx + 1) {i : Instr}
    (hi : i ∈ [Instr.tlbinvPartition fn v, .tlbinvPage fn v]) :
    (tlbinvOk s v = true →
      ∃ t, exec i s = .next t ∧ t.part.tlbBusy = true ∧ t.dev.replies = s.dev.replies ++ [(0, [])] ∧
        t.vc.tlb = s.vc.tlb.filter (fun e => !tlbDrops v e) ∧
        t.peers.map (fun (c : VC) => c.tlb) = s.peers.map (fun (c : VC) => c.tlb.filter (fun e => !tlbDrops v e)) ∧
        t.part.ctlb = s.part.ctlb.filter (fun p => !tlbDrops v p.2) ∧ t.part.mem = s.part.mem) ∧
    (tlbinvOk s v = false → exec i s = .next (reply s .refused)) := by
  have hexec : exec i s = .next (tlbinvWrite s fn v) := by
    rcases List.mem_pair.mp hi with rfl | rfl <;> rfl
  rw [hexec]
  refine ⟨fun hok => ?_, fun hok => by rw [tlbinvWrite_refused hfn hok]⟩
  rw [tlbinvWrite_accepted hfn hok]
  exact ⟨_, rfl, rfl, rfl, rfl, List.map_map, rfl, rfl⟩

/-! ### Hash masks (R241) -/

theorem find?_mdrop {α : Type} (m : SMap α) (k j : Nat) :
    (mdrop m k).find? (fun p => p.1 == j) = if j = k then none else m.find? (fun p => p.1 == j) := by
  induction m with
  | nil => simp [mdrop]
  | cons p m ih =>
    obtain ⟨k', v⟩ := p
    by_cases hk : k' = k
    · subst hk
      rw [mdrop, if_pos rfl, ih]
      split
      · rfl
      next hj => rw [List.find?_cons_of_neg (by simpa using Ne.symm hj)]
    · rw [mdrop, if_neg hk]
      by_cases hj : k' = j
      · subst hj
        rw [List.find?_cons_of_pos (by simp), List.find?_cons_of_pos (by simp), if_neg hk]
      · rw [List.find?_cons_of_neg (by simpa using hj), List.find?_cons_of_neg (by simpa using hj), ih]

/-- What a table lists at a key after a write. -/
theorem find?_mput {α : Type} [DecidableEq α] (d : α) (m : SMap α) (k j : Nat) (v : α) :
    (mput d m k v).find? (fun p => p.1 == j) =
      if j = k then (if v = d then none else some (k, v)) else m.find? (fun p => p.1 == j) := by
  induction m with
  | nil => by_cases hv : v = d <;> by_cases hj : j = k <;> simp [mput, hv, hj, eq_comm (a := k)]
  | cons p m ih =>
    obtain ⟨k', w⟩ := p
    by_cases hk : k' = k
    · subst hk
      rw [mput, if_pos rfl, ih]
      by_cases hj : j = k'
      · rw [if_pos hj, if_pos hj]
      · rw [if_neg hj, if_neg hj, List.find?_cons_of_neg (by simpa using Ne.symm hj)]
    · rw [mput, if_neg hk]
      by_cases hlt : k < k'
      · have hdrop : (k', w) :: mdrop m k = mdrop ((k', w) :: m) k := by rw [mdrop, if_neg hk]
        rw [if_pos hlt, hdrop]
        by_cases hv : v = d
        · rw [if_pos hv, if_pos hv, find?_mdrop]
        · rw [if_neg hv, if_neg hv]
          by_cases hj : j = k
          · rw [List.find?_cons_of_pos (by simpa using hj.symm), if_pos hj]
          · rw [List.find?_cons_of_neg (by simpa using Ne.symm hj), find?_mdrop, if_neg hj, if_neg hj]
      · rw [if_neg hlt]
        by_cases hj : k' = j
        · subst hj
          rw [List.find?_cons_of_pos (by simp), List.find?_cons_of_pos (by simp), if_neg hk]
        · rw [List.find?_cons_of_neg (by simpa using hj), List.find?_cons_of_neg (by simpa using hj), ih]

/-- The state in which an accepted write of HMASK i leaves the partition (R241). -/
def rehashed (s : State) (i : Nat) (v : Word64) : State :=
  { s with part.hmask := mput 0 s.part.hmask i v.toNat, part.mem := [], part.l2 := [], part.poison := [], part.blocks := [] }

/-- An accepted zero is the default of its mask: no mask of the hash is zero. -/
theorem defaultMask_of_hmaskOk_zero {s : State} {i : Nat} {v : Word64} (h : hmaskOk s i v = true) (hv : v.toNat = 0) :
    defaultMask (Nat.log2 s.np) i = 0 := by
  unfold hmaskOk at h
  dsimp only at h
  split at h
  next hi => exact if_neg (Nat.not_lt.mpr hi)
  · have hbits := eq_of_beq (Bool.and_eq_true_iff.mp h).2
    rw [hv, bits, Nat.zero_div, Nat.zero_mod] at hbits
    exact absurd hbits.symm (Nat.two_pow_pos i).ne'

theorem hmaskOf_rehashed_same {s : State} {i : Nat} {v : Word64} (h : hmaskOk s i v = true) :
    hmaskOf (rehashed s i v) i = v.toNat := by
  unfold hmaskOf rehashed
  dsimp only
  rw [find?_mput, if_pos rfl]
  split
  next hfind =>
    split at hfind
    · cases hfind
    · cases hfind
      rfl
  next hfind =>
    split at hfind
    next hv => exact (defaultMask_of_hmaskOk_zero h hv).trans hv.symm
    · cases hfind

theorem hmaskOf_rehashed_ne (s : State) {i k : Nat} (v : Word64) (h : k ≠ i) : hmaskOf (rehashed s i v) k = hmaskOf s k := by
  unfold hmaskOf rehashed
  dsimp only
  rw [find?_mput, if_neg h]
  rfl

theorem exec_hmaskWrite {s : State} {fn : BitVec 5} {i : BitVec 4} {v : Word64} (hfn : fn.toNat = s.part.idx + 1) (hi : i.toNat < 9) :
    exec (.hmaskWrite fn i v) s = .next (if partQuiet s && hmaskOk s i.toNat v then reply (rehashed s i.toNat v) .done
      else reply s .refused) := by
  show execHmaskWrite fn i v s = _
  rw [execHmaskWrite, if_neg (by omega), vfReply_self hfn (by unfold accept; split <;> rfl)]
  unfold accept
  split <;> rfl

theorem hmaskWrite_writes {s : State} {fn : BitVec 5} {i : BitVec 4} {v : Word64} (hfn : fn.toNat = s.part.idx + 1)
    (hi : i.toNat < 9) :
    (partQuiet s = true → hmaskOk s i.toNat v = true →
      ∃ t, exec (.hmaskWrite fn i v) s = .next t ∧ hmaskOf t i.toNat = v.toNat ∧
        t.dev.replies = s.dev.replies ++ [(0, [])] ∧ ∀ k, k ≠ i.toNat → hmaskOf t k = hmaskOf s k) ∧
    (partQuiet s = false ∨ hmaskOk s i.toNat v = false → exec (.hmaskWrite fn i v) s = .next (reply s .refused)) := by
  rw [exec_hmaskWrite hfn hi]
  constructor
  · intro hquiet hok
    rw [hquiet, hok]
    exact ⟨_, rfl, hmaskOf_rehashed_same hok, rfl, fun k hk => hmaskOf_rehashed_ne s v hk⟩
  · intro h
    rw [if_neg (by rcases h with h | h <;> simp [h])]

/-! ### Memory over the control link (R406) -/

theorem memMask_deviceRead (s : State) (pa n : Nat) : memMask (deviceRead s pa n).1 = memMask s :=
  memMask_foldl _ (fun t l => memMask_l2Access t none 1 l false) _ s

theorem deviceRead_part_mem (s : State) (pa n : Nat) : (deviceRead s pa n).1.part.mem = s.part.mem :=
  foldl_keeps (f := fun t : State => t.part.mem) (fun t l => l2Access_part_mem t none 1 l false) _ s

theorem memMask_deviceWrite (s : State) (pa : Nat) (d : List Byte) : memMask (deviceWrite s pa d) = memMask s :=
  memMask_foldl _ (fun t l => memMask_l2Access t none 1 l true) _ s

theorem deviceWrite_part_mem (s : State) (pa : Nat) (d : List Byte) :
    (deviceWrite s pa d).part.mem = mputs byteDefault s.part.mem pa d :=
  congrArg (fun m => mputs byteDefault m pa d)
    (foldl_keeps (f := fun t : State => t.part.mem) (fun t l => l2Access_part_mem t none 1 l true) _ s)

theorem physByte_deviceWrite (s : State) (pa : Nat) (d : List Byte) (a : Nat) :
    physByte (deviceWrite s pa d) a = physByte (physWrite s pa d) a :=
  physByte_of_mem (deviceWrite_part_mem s pa d) a

/-- What `memMask` keeps of the control link's accesses. -/
theorem idx_replies_of_memMask {s t : State} (h : memMask t = memMask s) :
    t.part.idx = s.part.idx ∧ t.dev.replies = s.dev.replies :=
  ⟨show (memMask t).part.idx = (memMask s).part.idx by rw [h], show (memMask t).dev.replies = (memMask s).dev.replies by rw [h]⟩

theorem exec_controlLinkMemoryWrite {s : State} {fn : BitVec 5} (pa : Nat) (d : List Byte) (hfn : fn.toNat = s.part.idx + 1) :
    exec (.controlLinkMemoryWrite fn pa d) s =
      .next (if pa + d.length ≤ s.cp then reply (deviceWrite s pa d) .done else reply s .notPermitted) := by
  have hkept : (if linkRange s pa d.length then (deviceWrite s pa d, Status.done) else (s, .notPermitted)).1.part.idx = s.part.idx := by
    split
    · exact (idx_replies_of_memMask (memMask_deviceWrite s pa d)).1
    · rfl
  show execControlLinkMemoryWrite fn pa d s = _
  rw [execControlLinkMemoryWrite, vfReply_self hfn hkept, linkRange]
  by_cases h : pa + d.length ≤ s.cp
  · rw [if_pos h, decide_eq_true h]
    rfl
  · rw [if_neg h, decide_eq_false h]
    rfl

theorem controlLinkMemoryWrite_writes {s : State} {fn : BitVec 5} {pa : Nat} {d : List Byte} (hfn : fn.toNat = s.part.idx + 1)
    (h : pa + d.length ≤ s.cp) :
    ∃ t, exec (.controlLinkMemoryWrite fn pa d) s = .next t ∧ t.dev.replies = s.dev.replies ++ [(0, [])] ∧
      (∀ i, i < d.length → physByte t (pa + i) = listAt 0 d i) ∧
      ∀ a, a < pa ∨ pa + d.length ≤ a → physByte t a = physByte s a := by
  have hreplies := (idx_replies_of_memMask (memMask_deviceWrite s pa d)).2
  rw [exec_controlLinkMemoryWrite pa d hfn, if_pos h]
  refine ⟨_, rfl, congrArg (fun l => l ++ [(0, [])]) hreplies, fun i hi => ?_, fun a ha => ?_⟩
  · exact (physByte_deviceWrite s pa d (pa + i)).trans (physByte_physWrite_inside s pa hi)
  · exact (physByte_deviceWrite s pa d a).trans (physByte_physWrite_outside s ha)

theorem exec_controlLinkMemoryRead {s : State} {fn : BitVec 5} (pa n : Nat) (hfn : fn.toNat = s.part.idx + 1) :
    exec (.controlLinkMemoryRead fn pa n) s =
      .next (if pa + n ≤ s.cp then reply (deviceRead s pa n).1 .done
          ((countUp 0 (ceilDiv n 8)).map (fun i => w64 (leNat (cut (physRead s pa n) (8 * i) 8))))
        else reply s .notPermitted) := by
  have hidx := (idx_replies_of_memMask (memMask_deviceRead s pa n)).1
  have hvf : isMgmt fn = false := by rw [isMgmt, hfn]; rfl
  have hq : fn.toNat - 1 = s.part.idx := by rw [hfn]; rfl
  show execControlLinkMemoryRead fn pa n s = _
  rw [execControlLinkMemoryRead, hvf, if_neg Bool.false_ne_true, hq, focusPart_self]
  dsimp only
  rw [inPart_self hidx, linkRange]
  by_cases h : pa + n ≤ s.cp
  · rw [if_pos h, if_pos (decide_eq_true h)]
  · rw [if_neg h, if_neg (by simpa using h)]

theorem controlLinkMemoryRead_reads {s : State} {fn : BitVec 5} {pa n : Nat} (hfn : fn.toNat = s.part.idx + 1)
    (h : pa + n ≤ s.cp) :
    ∃ t, exec (.controlLinkMemoryRead fn pa n) s = .next t ∧ t.part.mem = s.part.mem ∧
      t.dev.replies = s.dev.replies ++
        [(0, (countUp 0 (ceilDiv n 8)).map (fun i => w64 (leNat (cut (physRead s pa n) (8 * i) 8))))] := by
  have hreplies := (idx_replies_of_memMask (memMask_deviceRead s pa n)).2
  rw [exec_controlLinkMemoryRead pa n hfn, if_pos h]
  exact ⟨_, rfl, deviceRead_part_mem s pa n, congrArg (fun l => l ++ _) hreplies⟩

/-- Settles O52: a lemma per event, over the bytes of a block's two slots and the request of the VF of the partition in focus. -/
theorem memoryEvents : Obligations.MemoryEvents := by
  unfold Obligations.MemoryEvents
  refine ⟨fun s va hq => translationWalkComplete_fills va hq, fun s x ep g dr => ?_, fun s x hx => versionedAccess_read hx,
    fun s bk he hcopy => ?_, fun s bk ep ok he ho => sweeperResolve_resolves he ho, fun s fn v hfn i hi => tlbinv_invalidates hfn hi,
    fun s => ⟨_, rfl, rfl, rfl, rfl⟩, fun s fn i v hfn hi => hmaskWrite_writes hfn hi, fun s fn pa n d hfn => ?_⟩
  · intro bk hopen hlen hx
    exact ⟨fun hep htaken => versionedAccess_write hopen hlen hx hep htaken, fun hep => versionedAccess_stale hopen hx hep⟩
  · intro c
    exact ⟨fun i hi => firstWriteLineCopy_copies he hcopy hi, fun hi => firstWriteLineCopy_ends he hcopy hi⟩
  · refine ⟨fun h => controlLinkMemoryWrite_writes hfn h, fun h => ?_, fun h => controlLinkMemoryRead_reads hfn h, fun h => ?_⟩
    · rw [exec_controlLinkMemoryWrite pa d hfn, if_neg (Nat.not_le.mpr h)]
    · rw [exec_controlLinkMemoryRead pa n hfn, if_neg (Nat.not_le.mpr h)]

end Sys2Proof.Machine
end

section
/-! Support. Outcomes that keep memory in its canonical form: the operations on memory, traps, tables and words that issue. -/

set_option Elab.async false

namespace Sys2Proof.Machine

open Sys2Proof.Laws

/-- What a state's canonical form reads of it. -/
@[simp] theorem memWf_mk (vc : VC) (peers : List VC) (launch : Launch) (part : Part) (others : List Slice) (dev : Dev)
    (inbox : List Input) (upsets : List Hit) (mover : Mover) (fresh : Nat) :
    State.memWf ⟨vc, peers, launch, part, others, dev, inbox, upsets, mover, fresh⟩ =
      (Memory.wf part.mem && others.all (fun x => Memory.wf x.part.mem)) := rfl

@[simp] theorem memWf_fold (s : State) : (Memory.wf s.part.mem && s.others.all (fun x => Memory.wf x.part.mem)) = s.memWf := rfl

/-- The outcome, where it goes on, keeps memory in canonical form. -/
def OutWf : Out → Prop
  | .next t => t.memWf = true
  | _ => True

@[simp] theorem outWf_next (t : State) : OutWf (.next t) ↔ t.memWf = true := Iff.rfl

/-- The state that an access leaves. -/
def MemR.left {α : Type} : MemR α → State
  | .ok s _ => s
  | .fault s _ _ => s
  | .wait s => s

@[simp] theorem left_ok {α : Type} (s : State) (v : α) : (MemR.ok s v).left = s := rfl

@[simp] theorem left_fault {α : Type} (s : State) (c d : Nat) : (MemR.fault s c d : MemR α).left = s := rfl

@[simp] theorem left_wait {α : Type} (s : State) : (MemR.wait s : MemR α).left = s := rfl

theorem memWf_left_of_eq {α : Type} {r x : MemR α} (hr : r = x) (h : r.left.memWf = true) : x.left.memWf = true := hr ▸ h

theorem memWf_fst_of_eq {α : Type} {p q : State × α} (hp : p = q) (h : p.1.memWf = true) : q.1.memWf = true := hp ▸ h

theorem apply_ite_memWf {c : Prop} [Decidable c] {a b s : State} (ha : a.memWf = s.memWf) (hb : b.memWf = s.memWf) :
    (if c then a else b).memWf = s.memWf := by
  split
  · exact ha
  · exact hb

theorem memWf_congr {s t : State} (h : s.memWf = true) (hm : t.part.mem = s.part.mem) (ho : t.others = s.others) :
    t.memWf = true := (memWf_of hm ho).trans h

theorem outWf_ite {c : Prop} [Decidable c] {a b : Out} (ha : OutWf a) (hb : OutWf b) : OutWf (if c then a else b) := by
  split
  · exact ha
  · exact hb

@[simp] theorem memWf_setX (s : State) (r : BitVec 6) (v : Word64) : (setX s r v).memWf = s.memWf := by
  unfold setX
  split <;> rfl

@[simp] theorem memWf_setY (s : State) (n : Nat) (v : Word64) : (setY s n v).memWf = s.memWf := rfl

@[simp] theorem memWf_setM (s : State) (n : Nat) (v : Word64) : (setM s n v).memWf = s.memWf := rfl

@[simp] theorem memWf_orFlags (s : State) (f : Nat) : (orFlags s f).memWf = s.memWf := rfl

@[simp] theorem memWf_retireTo (s : State) (pc : Word64) : (retireTo s pc).memWf = s.memWf := rfl

@[simp] theorem memWf_retire (s : State) : (retire s).memWf = s.memWf := rfl

@[simp] theorem memWf_allVC (s : State) (f : VC → VC) : (allVC s f).memWf = s.memWf := rfl

theorem memWf_focusVC {s t : State} {n : Nat} (h : focusVC s n = some t) : t.memWf = s.memWf := by
  unfold focusVC at h
  split at h
  · cases h; rfl
  · split at h
    · cases h
    · cases h; rfl

theorem outWf_onVC {s : State} (h : s.memWf = true) (n : Nat) {f : State → Out} (hf : ∀ t, t.memWf = true → OutWf (f t)) :
    OutWf (onVC s n f) := by
  unfold onVC
  split
  · exact h
  next s1 h1 =>
    have hs := hf s1 ((memWf_focusVC h1).trans h)
    split
    next s2 h2 =>
      rw [h2] at hs
      split
      next h3 => exact (memWf_focusVC h3).trans hs
      · exact hs
    · exact hs

theorem memWf_inVC {s : State} (h : s.memWf = true) (n : Nat) {f : State → State} (hf : ∀ t, t.memWf = true → (f t).memWf = true) :
    (inVC s n f).memWf = true := by
  unfold inVC
  split
  · exact h
  next s1 h1 =>
    have hs := hf s1 ((memWf_focusVC h1).trans h)
    split
    next h3 => exact (memWf_focusVC h3).trans hs
    · exact hs

theorem memWf_iff (s : State) :
    s.memWf = true ↔ Memory.wf s.part.mem = true ∧ ∀ x ∈ s.others, Memory.wf x.part.mem = true := by
  rw [State.memWf, Bool.and_eq_true, List.all_eq_true]

/-- The partition that comes into focus and the one that takes its place change places only. -/
theorem memWf_focusPart {s t : State} {q : Nat} (hs : s.memWf = true) (h : focusPart s q = some t) : t.memWf = true := by
  unfold focusPart at h
  split at h
  · cases h
    exact hs
  · split at h
    · cases h
    next x hx =>
      cases h
      obtain ⟨hm, ho⟩ := (memWf_iff s).mp hs
      refine (memWf_iff _).mpr ⟨ho x (List.mem_of_find?_eq_some hx), fun y hy => ?_⟩
      obtain ⟨z, hz, rfl⟩ := List.mem_map.mp hy
      split
      · exact hm
      · exact ho z hz

theorem outWf_onPart {s : State} (h : s.memWf = true) (q : Nat) {f : State → Out} (hf : ∀ t, t.memWf = true → OutWf (f t)) :
    OutWf (onPart s q f) := by
  unfold onPart
  split
  · exact h
  next s1 h1 =>
    have hs := hf s1 (memWf_focusPart h h1)
    split
    next s2 h2 =>
      rw [h2] at hs
      split
      next h3 => exact memWf_focusPart hs h3
      · exact hs
    · exact hs

theorem memWf_inPart {s : State} (h : s.memWf = true) (q : Nat) {f : State → State} (hf : ∀ t, t.memWf = true → (f t).memWf = true) :
    (inPart s q f).memWf = true := by
  unfold inPart
  split
  · exact h
  next s1 h1 =>
    have hs := hf s1 (memWf_focusPart h h1)
    split
    next h3 => exact memWf_focusPart hs h3
    · exact hs

theorem memWf_inSaved {s : State} (h : s.memWf = true) (t : LaunchTag) {f : State → State}
    (hf : ∀ t, t.memWf = true → (f t).memWf = true) : (inSaved s t f).memWf = true := by
  unfold inSaved
  split
  · exact h
  · split
    · exact h
    next x _ _ v r _ => exact (memWf_of rfl rfl).trans (hf { s with vc := v, peers := r, launch := x.launch } h)

theorem memWf_inLaunch {s : State} (h : s.memWf = true) (o : Option LaunchTag) {f : State → State}
    (hf : ∀ t, t.memWf = true → (f t).memWf = true) : (inLaunch s o f).memWf = true := by
  refine memWf_ite (hf s h) ?_
  split
  · exact memWf_inSaved h _ hf
  · exact hf s h

@[simp] theorem memWf_popHead (s : State) (q : Queue) (e : QEntry) : (popHead s q e).memWf = s.memWf := by
  unfold popHead
  split <;> rfl

@[simp] theorem memWf_tokTake (s : State) (f : Nat) : (tokTake s f).memWf = s.memWf := rfl

@[simp] theorem memWf_tokPut (s : State) (f : Nat) : (tokPut s f).memWf = s.memWf := rfl

@[simp] theorem memWf_raiseFlags (s : State) (f : Nat) : (raiseFlags s f).memWf = s.memWf := rfl

@[simp] theorem memWf_postAt (s : State) (p : Poster) (b src status tag kind : Nat) (detail : Word64) :
    (postAt s p b src status tag kind detail).memWf = s.memWf := rfl

@[simp] theorem memWf_holdRecord (s : State) (p : Poster) (src status tag kind : Nat) (detail : Word64) (hold : Nat) :
    (holdRecord s p src status tag kind detail hold).memWf = s.memWf := rfl

@[simp] theorem memWf_bumpCount (s : State) (k : Nat) : (bumpCount s k).memWf = s.memWf := rfl

@[simp] theorem memWf_countError (s : State) (cause detail : Nat) : (countError s cause detail).memWf = s.memWf := by
  unfold countError
  split <;> rfl

@[simp] theorem memWf_eccOutside (s : State) (n cause : Nat) : (eccOutside s n cause).memWf = s.memWf := by
  unfold eccOutside
  split <;> rfl

@[simp] theorem memWf_raiseAt (s : State) (n : Nat) (f : FaultRec) : (raiseAt s n f).memWf = s.memWf := by
  unfold raiseAt
  dsimp only
  (repeat' split) <;> simp

@[simp] theorem memWf_queueFault (s : State) (q : Queue) (e : QEntry) (cause detail : Nat) (tval : Word64) :
    (queueFault s q e cause detail tval).memWf = s.memWf := by simp [queueFault]

@[simp] theorem memWf_countSilent (s : State) : (countSilent s).memWf = s.memWf := rfl

@[simp] theorem memWf_flightFault (s : State) (n cause detail : Nat) (tval : Word64) (name : Nat) (seq : Option Nat) :
    (flightFault s n cause detail tval name seq).memWf = s.memWf := by simp [flightFault]

@[simp] theorem memWf_awaitMatch (s : State) : (awaitMatch s).memWf = s.memWf := by
  unfold awaitMatch
  split <;> rfl

@[simp] theorem memWf_deviceRead (s : State) (pa n : Nat) : (deviceRead s pa n).1.memWf = s.memWf :=
  foldl_keeps (f := State.memWf) (fun t l => memWf_l2Access t none 1 l false) _ s

@[simp] theorem memWf_tlbFill (s : State) (e : TlbE) : (tlbFill s e).memWf = s.memWf := rfl

@[simp] theorem memWf_walkNote (s : State) (va : Nat) (e : Option TlbE) (cause detail : Nat) :
    (walkNote s va e cause detail).memWf = s.memWf := rfl

@[simp] theorem memWf_afterDenied {s s1 : State} (h : s1.memWf = true) (va : Nat) : (afterDenied s s1 va).memWf = true :=
  memWf_ite ((memWf_of rfl rfl).trans h) h

@[simp] theorem memWf_translate_left {s : State} (h : s.memWf = true) (va : Nat) (k : AccKind) :
    (translate s va k).left.memWf = true := by
  have hl := (memWf_lookup s va).trans h
  unfold translate
  split
  next hr => exact memWf_fst_of_eq hr hl
  next hr =>
    have hl := memWf_fst_of_eq hr hl
    split
    · exact memWf_afterDenied hl va
    · exact hl

@[simp] theorem memWf_ctlLoad_left {s : State} (h : s.memWf = true) (va : Word64) (n : Nat) : (ctlLoad s va n).left.memWf = true := by
  have hok := fun t v => memWf_ctlLoad (t := t) (v := v) (va := va) (n := n) h
  have hl := memWf_translate_left h va.toNat .read
  unfold ctlLoad at hok ⊢
  split
  · exact h
  · dsimp only
    split
    · split
      · exact h
      · split
        · exact h
        · split
          · exact h
          next v off w _ _ _ t _ =>
            have hm := memWf_mapRead s t off n w
            split
            next hr => exact memWf_fst_of_eq hr (hm.trans h)
            next hr => exact memWf_fst_of_eq hr (hm.trans h)
    · split
      next hr => exact (memWf_left_of_eq hr hl :)
      next hr => exact (memWf_left_of_eq hr hl :)
      next hr =>
        have hl := memWf_left_of_eq hr hl
        split
        · exact hl
        · split
          · exact hl
          · split
            · exact memWf_vRead hl _ _ _
            · exact memWf_dcLine hl _

@[simp] theorem memWf_ctlStore_left {s : State} (h : s.memWf = true) (va : Word64) (d : List Byte) :
    (ctlStore s va d).left.memWf = true := by
  have hl := memWf_translate_left h va.toNat .write
  unfold ctlStore
  split
  · exact h
  · dsimp only
    split
    · split
      · exact h
      · split <;> exact h
    · split
      next hr => exact (memWf_left_of_eq hr hl :)
      next hr => exact (memWf_left_of_eq hr hl :)
      next hr =>
        have hl := memWf_left_of_eq hr hl
        split
        · exact hl
        · split
          · split
            · exact hl
            · split
              · exact hl
              · split
                · exact (memWf_awaitMatch _).trans hl
                · split
                  next hv => exact memWf_vWrite hl hv
                  · exact hl
          · split
            · exact hl
            · split
              · exact (memWf_awaitMatch _).trans hl
              · exact memWf_dcStore hl _ _

@[simp] theorem memWf_ctlLoadWords {s : State} (h : s.memWf = true) (va : Word64) (n : Nat) :
    (ctlLoadWords s va n).left.memWf = true := by
  induction n generalizing s va with
  | zero => exact h
  | succ n ih =>
    have hl := memWf_ctlLoad_left h va 8
    unfold ctlLoadWords
    split
    next hr => exact (memWf_left_of_eq hr hl :)
    next hr => exact (memWf_left_of_eq hr hl :)
    next hr =>
      have h2 := ih (memWf_left_of_eq hr hl :) (va + 8)
      split
      next hr => exact (memWf_left_of_eq hr h2 :)
      next hr => exact (memWf_left_of_eq hr h2 :)
      next hr => exact (memWf_left_of_eq hr h2 :)

@[simp] theorem memWf_icLine (s : State) (line : Nat) : (icLine s line).1.memWf = s.memWf := by
  unfold icLine
  split
  · rfl
  · exact (memWf_of rfl rfl).trans (memWf_homeRead s (line * 128) 128)

@[simp] theorem memWf_fetchWord {s : State} (h : s.memWf = true) (va : Word64) : (fetchWord s va).left.memWf = true := by
  have hl := memWf_translate_left h va.toNat .fetch
  unfold fetchWord
  split
  · exact h
  · split
    · exact h
    · split
      next hr => exact (memWf_left_of_eq hr hl :)
      next hr => exact (memWf_left_of_eq hr hl :)
      next hr =>
        have hl := memWf_left_of_eq hr hl
        split
        · exact hl
        · exact (memWf_icLine ..).trans hl

@[simp] theorem memWf_storeWords {s : State} (h : s.memWf = true) (va : Word64) (ws : List Nat) :
    (storeWords s va ws).left.memWf = true := by
  induction ws generalizing s va with
  | nil => exact h
  | cons w r ih =>
    have hl := memWf_ctlStore_left h va (leBytes w 8)
    unfold storeWords
    split
    next hr => exact ih (memWf_left_of_eq hr hl :) _
    · exact hl

@[simp] theorem outWf_endLaunch {s : State} (h : s.memWf = true) (status cause detail : Nat) :
    OutWf (endLaunch s status cause detail) := by
  rcases he : endLaunch s status cause detail with t | f | r
  · exact memWf_endLaunch h he
  · trivial
  · trivial

@[simp] theorem outWf_enterTrap {s : State} (h : s.memWf = true) (f : FaultRec) : OutWf (enterTrap s f) := by
  unfold enterTrap
  split
  · exact outWf_endLaunch h _ _ _
  · dsimp only
    split
    next hr => exact (memWf_of rfl rfl).trans (memWf_left_of_eq hr (memWf_storeWords (by exact h) _ _))
    next hr => exact outWf_endLaunch (memWf_left_of_eq hr (memWf_storeWords (by exact h) _ _)) _ _ _
    · exact h

@[simp] theorem outWf_takeTrap {s : State} (h : s.memWf = true) : OutWf (takeTrap s) := by
  unfold takeTrap
  split
  · exact h
  · split
    · exact h
    · exact outWf_enterTrap h _

@[simp] theorem outWf_ctlFaultTo {s : State} (h : s.memWf = true) (cause detail : Nat) (tval tepc : Word64) :
    OutWf (ctlFaultTo s cause detail tval tepc) := by
  unfold ctlFaultTo
  split
  · exact outWf_endLaunch ((memWf_countError ..).trans h) _ _ _
  · dsimp only
    split
    · exact outWf_endLaunch ((memWf_raiseAt ..).trans h) _ _ _
    · split
      · exact outWf_takeTrap ((memWf_raiseAt ..).trans h)
      · exact (memWf_raiseAt ..).trans h

@[simp] theorem outWf_ctlFault {s : State} (h : s.memWf = true) (cause detail : Nat) (tval : Word64) :
    OutWf (ctlFault s cause detail tval) :=
  outWf_ctlFaultTo h _ _ _ _

@[simp] theorem outWf_illegal {s : State} (h : s.memWf = true) : OutWf (illegal s) := outWf_ctlFault h _ _ _

theorem outWf_memThen {α : Type} {s : State} {va : Word64} {r : MemR α} {k : State → α → Out} (hr : r.left.memWf = true)
    (hk : ∀ t v, t.memWf = true → OutWf (k t v)) : OutWf (memThen s va r k) := by
  cases r with
  | ok t v => exact hk t v hr
  | fault t c d => exact outWf_ctlFault hr _ _ _
  | wait t => exact hr

@[simp] theorem outWf_restricted {s : State} {k : Out} (h : s.memWf = true) (hk : OutWf k) : OutWf (restricted s k) := by
  unfold restricted
  split
  · exact outWf_endLaunch h _ _ _
  · exact hk

@[simp] theorem memWf_trapReturn (s : State) : (trapReturn s).memWf = s.memWf := rfl

@[simp] theorem outWf_sysNext (s : State) (h : s.memWf = true) : OutWf (sysNext s) := by simp [sysNext, h]

@[simp] theorem outWf_execTrap (n : BitVec 6) (s : State) (h : s.memWf = true) : OutWf (execTrap n s) := by simp [execTrap, h]

@[simp] theorem outWf_execTret (s : State) (h : s.memWf = true) : OutWf (execTret s) := by
  unfold execTret
  split <;> simp [h]

@[simp] theorem outWf_execHalt (s : State) (h : s.memWf = true) : OutWf (execHalt s) := by simp [execHalt, h]

theorem outWf_execFence {s : State} (h : s.memWf = true) : OutWf (execFence s) := by
  unfold execFence
  split
  · exact h
  · exact outWf_sysNext _ (memWf_flushFifo h)

@[simp] theorem outWf_execIfb (s : State) (h : s.memWf = true) : OutWf (execIfb s) := by simp [execIfb, h]

@[simp] theorem outWf_execQfence (m : BitVec 7) (s : State) (h : s.memWf = true) : OutWf (execQfence m s) := by
  unfold execQfence
  dsimp only
  (repeat' split) <;> simp [h]

theorem memWf_left_ite {α : Type} {c : Prop} [Decidable c] {a b : MemR α} (ha : a.left.memWf = true) (hb : b.left.memWf = true) :
    (if c then a else b).left.memWf = true := by
  split
  · exact ha
  · exact hb

theorem memWf_syncCheck {s : State} (h : s.memWf = true) (a : Word64) : (syncCheck s a).left.memWf = true := by
  have hl := memWf_translate_left h a.toNat .read
  unfold syncCheck
  split
  · exact h
  · split
    · exact h
    · split
      next hr =>
        have hl := memWf_left_of_eq hr hl
        split <;> exact hl
      · exact hl

theorem memWf_regionLines {s : State} (h : s.memWf = true) (b : Bind) : (regionLines s b).1.memWf = true := by
  unfold regionLines
  refine List.foldlRecOn _ _ (motive := fun x : State × List (Nat × Nat) => x.1.memWf = true) h fun x hx i _ => ?_
  dsimp only
  split
  · exact hx
  · have hl := memWf_translate_left hx (b.rbase / 65536 * 65536 + 65536 * i) .read
    split
    all_goals
      rename_i hr
      exact (memWf_left_of_eq hr hl :)

theorem memWf_acqRegions {s : State} (h : s.memWf = true) (a : Nat) : (acqRegions s a).1.memWf = true :=
  List.foldlRecOn _ _ (motive := fun x : State × List (Nat × Nat) => x.1.memWf = true) h
    fun _ hx b _ => memWf_regionLines hx b

theorem memWf_acqDiscard {s : State} (h : s.memWf = true) (a : Nat) : (acqDiscard s a).memWf = true :=
  memWf_foldl _ (fun _ _ ht => memWf_dropLine ht _) _ (memWf_acqRegions h a)

@[simp] theorem outWf_acqOp {s : State} (h : s.memWf = true) (ra : BitVec 6) : OutWf (acqOp s ra) := by
  refine outWf_memThen (s := s) (memWf_syncCheck h _) fun t p ht => ?_
  split
  · exact ht
  · split
    · exact outWf_ctlFault ht _ _ _
    · split
      · exact (memWf_awaitMatch t).trans ht
      · exact outWf_sysNext _ (memWf_acqDiscard ((memWf_homeRead ..).trans ht) _)

@[simp] theorem outWf_relOp {s : State} (h : s.memWf = true) (ra : BitVec 6) : OutWf (relOp s ra) := by
  refine outWf_memThen (s := s) (memWf_syncCheck h _) fun t p ht => ?_
  have hf := memWf_flushFifo ht
  split
  · exact (memWf_awaitMatch t).trans ht
  · dsimp only
    split
    · exact hf
    · exact outWf_sysNext _ hf

@[simp] theorem outWf_execYwr (y : BitVec 4) (ra : BitVec 6) (s : State) (h : s.memWf = true) :
    OutWf (execYwr y ra s) := by simp [execYwr, h]

@[simp] theorem outWf_execYrd (rd : BitVec 6) (y : BitVec 4) (s : State) (h : s.memWf = true) :
    OutWf (execYrd rd y s) := by simp [execYrd, h]

@[simp] theorem outWf_execMbrd (rd : BitVec 6) (m : BitVec 3) (s : State) (h : s.memWf = true) :
    OutWf (execMbrd rd m s) := by simp [execMbrd, h]

@[simp] theorem outWf_zsetOp {s : State} (h : s.memWf = true) (k : Nat) (z : BitVec 4) (ra : BitVec 6) : OutWf (zsetOp s k z ra) := by
  refine outWf_restricted h ?_
  split
  · exact outWf_ctlFault h _ _ _
  · split
    · exact h
    · exact outWf_sysNext _ h

@[simp] theorem outWf_execZget (rd : BitVec 6) (z : BitVec 4) (k : BitVec 3) (s : State) (h : s.memWf = true) :
    OutWf (execZget rd z k s) := by simp [execZget, h]

@[simp] theorem outWf_tableFault (s : State) (detail : Nat) (h : s.memWf = true) : OutWf (tableFault s detail) := by simp [tableFault, h]

@[simp] theorem outWf_tableBusy (s : State) (h : s.memWf = true) : OutWf (tableBusy s) := by simp [tableBusy, h]

theorem memWf_loadTable {s : State} (h : s.memWf = true) (va : Word64) (n : Nat) : (loadTable s va n).left.memWf = true := by
  induction n generalizing s va with
  | zero => exact h
  | succ n ih =>
    have hl := memWf_ctlLoad_left h va 4
    unfold loadTable
    split
    next hr => exact (memWf_left_of_eq hr hl :)
    next hr => exact (memWf_left_of_eq hr hl :)
    next hr =>
      have h2 := ih (memWf_left_of_eq hr hl :) (va + 4)
      split
      next hr => exact (memWf_left_of_eq hr h2 :)
      next hr => exact (memWf_left_of_eq hr h2 :)
      next hr => exact (memWf_left_of_eq hr h2 :)

theorem outWf_execTblLoad {s : State} (h : s.memWf = true) (n ra rb : BitVec 6) : OutWf (execTblLoad n ra rb s) := by
  refine outWf_restricted h ?_
  have hl := fun k => memWf_loadTable h (xr s ra) k
  dsimp only
  split
  · exact outWf_tableFault _ _ h
  · split
    · exact outWf_tableFault _ _ h
    · split
      · exact outWf_tableBusy _ h
      · split
        next hr => exact (memWf_left_of_eq hr (hl _) :)
        next s1 c d hr =>
          have h1 : s1.memWf = true := (memWf_left_of_eq hr (hl _) :)
          refine outWf_ctlFault ?_ _ _ _
          exact memWf_congr h1 rfl rfl
        next s1 ws hr =>
          have h1 : s1.memWf = true := (memWf_left_of_eq hr (hl _) :)
          have h2 : (charge (charge s1 .sys) .ld (fld (xr s rb) 28 16)).memWf = true := by simp [h1]
          refine (memWf_retire _).trans ?_
          exact (memWf_congr h2 rfl rfl)

theorem outWf_execTblRun {s : State} (h : s.memWf = true) (n ra : BitVec 6) : OutWf (execTblRun n ra s) := by
  refine outWf_restricted h ?_
  dsimp only
  split
  · exact outWf_tableFault _ _ h
  · split
    · exact outWf_tableFault _ _ h
    · split
      · split
        · exact outWf_tableBusy _ h
        · exact h
      · exact outWf_sysNext _ (memWf_congr h rfl rfl)

@[simp] theorem outWf_execTblStop (n : BitVec 6) (s : State) (h : s.memWf = true) : OutWf (execTblStop n s) := by simp [execTblStop, h]

@[simp] theorem outWf_execTblRebase (n ra : BitVec 6) (s : State) (h : s.memWf = true) : OutWf (execTblRebase n ra s) := by
  unfold execTblRebase
  dsimp only
  (repeat' split) <;> simp [h]

@[simp] theorem outWf_execTblParam (k : BitVec 2) (ra : BitVec 6) (s : State) (h : s.memWf = true) : OutWf (execTblParam k ra s) := by
  unfold execTblParam
  split <;> simp [h]

@[simp] theorem outWf_execTblWait (n : BitVec 6) (s : State) (h : s.memWf = true) : OutWf (execTblWait n s) := by
  unfold execTblWait
  split <;> simp [h]

theorem memWf_placeMicro (s : State) (r : TRun) : (placeMicro s r).memWf = s.memWf := by
  unfold placeMicro
  dsimp only
  generalize takeMicro _ _ _ = m
  exact apply_ite_memWf rfl rfl

theorem outWf_execTableEntryPlace {s : State} (h : s.memWf = true) (home : Engine) : OutWf (execTableEntryPlace home s) := by
  unfold execTableEntryPlace
  split
  · exact h
  · split
    · exact (memWf_placeMicro ..).trans h
    · exact h

theorem memWf_fetchWords {s : State} (h : s.memWf = true) (pc : Word64) (n : Nat) : (fetchWords s pc n).left.memWf = true := by
  induction n generalizing s pc with
  | zero => exact h
  | succ n ih =>
    have hl := memWf_fetchWord h pc
    unfold fetchWords
    split
    next hr => exact (memWf_left_of_eq hr hl :)
    next hr => exact (memWf_left_of_eq hr hl :)
    next hr =>
      have hl := memWf_left_of_eq hr hl
      split
      · have h2 := ih hl (pc + 4)
        split
        next hr => exact (memWf_left_of_eq hr h2 :)
        next hr => exact (memWf_left_of_eq hr h2 :)
        next hr => exact (memWf_left_of_eq hr h2 :)
      · exact hl

@[simp] theorem outWf_routeWord (s : State) (p : Prefixes) (w : Word32) (n : Nat) (h : s.memWf = true) : OutWf (routeWord s p w n) := by
  unfold routeWord
  dsimp only
  (repeat' split) <;> simp [h]

theorem outWf_execEngineWordRoute {s : State} (h : s.memWf = true) : OutWf (execEngineWordRoute s) := by
  refine outWf_restricted h ?_
  have hl := memWf_fetchWords h s.vc.ctl.pc 3
  split
  next hr => exact (memWf_left_of_eq hr hl :)
  next hr => exact outWf_ctlFault (memWf_left_of_eq hr hl :) _ _ _
  next hr =>
    split
    · exact outWf_illegal (memWf_left_of_eq hr hl :)
    · exact outWf_routeWord _ _ _ _ (memWf_left_of_eq hr hl :)

@[simp] theorem memWf_stallQueue (s : State) (q : Queue) : (stallQueue s q).memWf = s.memWf := rfl

@[simp] theorem memWf_overrun (s : State) (q : Queue) (e : QEntry) (sb reach fifo kind : Nat) :
    (overrun s q e sb reach fifo kind).memWf = s.memWf := by simp [overrun]

@[simp] theorem memWf_setEntry (s : State) (e : QEntry) : (setEntry s e).memWf = s.memWf := rfl

@[simp] theorem memWf_takeTokens (s : State) (fs : List Nat) : (takeTokens s fs).memWf = s.memWf := by
  unfold takeTokens
  exact foldl_keeps (f := State.memWf) (fun t f => by rfl) fs s

@[simp] theorem memWf_countStep (s : State) (q : Queue) (e : QEntry) : (countStep s q e).memWf = s.memWf := by
  unfold countStep
  split <;> rfl

@[simp] theorem memWf_setLast (s : State) (q : Queue) (shared : Bool) (n : Nat) : (setLast s q shared n).memWf = s.memWf := rfl

@[simp] theorem memWf_leaveQueue (s : State) (q : Queue) (e : QEntry) (pops : List Nat) (n : Nat) (cls : Option EClass) :
    (leaveQueue s q e pops n cls).memWf = s.memWf := by
  unfold leaveQueue
  split <;> simp

theorem outWf_issueGate {s : State} (h : s.memWf = true) (q : Queue) (e : QEntry) (c : Chk) {k : State → State}
    (hk : ∀ t, t.memWf = true → (k t).memWf = true) : OutWf (issueGate s q e c k) := by
  have hf : ∀ d x v, (queueFault s q e d x v).memWf = true := fun _ _ _ => (memWf_queueFault ..).trans h
  unfold issueGate
  split
  · exact hf ..
  · exact hf ..
  · split
    · exact hf ..
    · exact h
  · split
    · split
      · exact hf ..
      · exact h
    · exact hk s h

theorem memWf_overrunNow {s t : State} (h : s.memWf = true) {q : Queue} {e : QEntry} {sb stood : Nat} {behind late : Bool}
    {pops : List Nat} (ht : overrunNow s q e sb stood behind late pops = some t) : t.memWf = true := by
  have hf : ∀ a b c d, (overrun s q e a b c d).memWf = true := fun _ _ _ _ => (memWf_overrun ..).trans h
  unfold overrunNow at ht
  split at ht
  · cases ht
    exact hf ..
  · split at ht
    · cases ht
    · split at ht
      · cases ht
        exact hf ..
      · obtain ⟨_, -, rfl⟩ := Option.map_eq_some_iff.mp ht
        exact hf ..

/-- A word at the head of a queue keeps the form if what it does once issued does. -/
theorem outWf_issueWord {s : State} (h : s.memWf = true) (q : Queue) (b : EngBits) (head check : QEntry → Chk) (n : Nat)
    (cls : Option EClass) {go : QEntry → List Nat → State → State}
    (hgo : ∀ e l t, (go e l t).memWf = t.memWf) : OutWf (issueWord s q b head check n cls go) := by
  have hf : ∀ e d x v, (queueFault s q e d x v).memWf = true := fun _ _ _ _ => (memWf_queueFault ..).trans h
  have hs : ∀ e, (setEntry s e).memWf = true := fun e => (memWf_setEntry s e).trans h
  unfold issueWord
  split
  · exact h
  next e _ =>
    refine outWf_ite h ?_
    dsimp only
    split
    · exact hf ..
    · exact hf ..
    · exact hf ..
    · have hrun := fun e' c pops pushes => outWf_issueGate (hs e') q e c
        (k := fun t => go e pushes (leaveQueue t q e pops n cls)) fun t ht => (hgo ..).trans ((memWf_leaveQueue ..).trans ht)
      split
      · split
        next ht => exact memWf_overrunNow (hs _) ht
        · exact outWf_ite (hs _) (hrun ..)
      · exact outWf_ite (hs _) (hrun ..)

@[simp] theorem memWf_addFlight (s : State) (f : Flight) : (addFlight s f).memWf = s.memWf := rfl

@[simp] theorem memWf_plainFlight (s : State) (q : Queue) (e : QEntry) (toks : List Nat) (n : Nat) :
    (plainFlight s q e toks n).memWf = s.memWf := rfl

@[simp] theorem memWf_setFlight (s : State) (f : Flight) : (setFlight s f).memWf = s.memWf := rfl

@[simp] theorem memWf_dropFlight (s : State) (seq : Nat) : (dropFlight s seq).memWf = s.memWf := rfl

@[simp] theorem memWf_pushTokens (s : State) (f : Flight) (l : List Nat) : (pushTokens s f l).memWf = s.memWf := by
  induction l generalizing s with
  | nil => rfl
  | cons t r ih =>
    unfold pushTokens
    split
    · split
      · exact memWf_queueFault ..
      · rfl
    · exact (ih _).trans (memWf_tokPut s t)

@[simp] theorem memWf_releasePushes (s : State) : (releasePushes s).memWf = s.memWf := by
  unfold releasePushes
  exact foldl_keeps (f := State.memWf) (fun t p => by exact apply_ite_memWf rfl rfl) _ { s with vc.eng.heldPush := [] }

@[simp] theorem memWf_finishRuns (s : State) : (finishRuns s).memWf = s.memWf := by
  unfold finishRuns
  exact foldl_keeps (f := State.memWf) (fun t r => by rfl) _ s

@[simp] theorem memWf_followOn (s : State) (n : Nat) : (followOn s n).memWf = s.memWf := rfl

@[simp] theorem memWf_completeFlight (s : State) (f : Flight) : (completeFlight s f).memWf = s.memWf := by
  unfold completeFlight
  dsimp only
  (repeat' split) <;> simp

end Sys2Proof.Machine
end

section
/-! Support. The engines, the copies, the rings and the messages keep memory in its canonical form. -/

set_option Elab.async false

namespace Sys2Proof.Machine

open Sys2Proof.Laws

@[simp] theorem memWf_vecStart (op : VOp) (d a b : BitVec 4) (y : Word64) (e : QEntry) (toks : List Nat) (s : State) :
    (vecStart op d a b y e toks s).memWf = s.memWf := rfl

theorem outWf_vecOp {s : State} (h : s.memWf = true) (op : VOp) (cls : EClass) (e : EngBits) (d a b : BitVec 4)
    (y : State → Word64) : OutWf (vecOp s op cls e d a b y) :=
  outWf_issueWord h _ _ _ _ _ _ fun _ _ _ => memWf_vecStart ..

@[simp] theorem memWf_redStart (op : ROp) (d a b : BitVec 4) (e : QEntry) (toks : List Nat) (s : State) :
    (redStart op d a b e toks s).memWf = s.memWf := rfl

theorem outWf_redOp {s : State} (h : s.memWf = true) (op : ROp) (e : EngBits) (d a b : BitVec 4) : OutWf (redOp s op e d a b) :=
  outWf_issueWord h _ _ _ _ _ _ fun _ _ _ => memWf_redStart ..

@[simp] theorem memWf_fnStart (exact : Bool) (f : Fn) (d a : BitVec 4) (e : QEntry) (toks : List Nat) (s : State) :
    (fnStart exact f d a e toks s).memWf = s.memWf := rfl

theorem outWf_fnOp {s : State} (h : s.memWf = true) (exact : Bool) (f : Fn) (e : EngBits) (d a : BitVec 4) :
    OutWf (fnOp s exact f e d a) :=
  outWf_issueWord h _ _ _ _ _ _ fun _ _ _ => memWf_fnStart ..

@[simp] theorem memWf_mmaStart (keepB : Bool) (t : BitVec 8) (a b : BitVec 4) (mt : Option (BitVec 24)) (e : QEntry) (toks : List Nat)
    (s : State) : (mmaStart keepB t a b mt e toks s).memWf = s.memWf := by simp [mmaStart]

theorem outWf_mmaOp {s : State} (h : s.memWf = true) (keepB : Bool) (e : EngBits) (t : BitVec 8) (a b : BitVec 4) :
    OutWf (mmaOp s keepB e t a b) :=
  outWf_issueWord h _ _ _ _ _ _ fun _ _ _ => memWf_mmaStart ..

@[simp] theorem memWf_drainStart (t : BitVec 8) (z : BitVec 4) (e : QEntry) (toks : List Nat) (s : State) :
    (drainStart t z e toks s).memWf = s.memWf := rfl

theorem outWf_execMdrain {s : State} (h : s.memWf = true) (e : EngBits) (t : BitVec 8) (z : BitVec 4) : OutWf (execMdrain e t z s) :=
  outWf_issueWord h _ _ _ _ _ _ fun _ _ _ => memWf_drainStart ..

theorem outWf_tileWord {s : State} (h : s.memWf = true) (e : EngBits) (t : BitVec 8) (eff : Effect) : OutWf (tileWord s e t eff) :=
  outWf_issueWord h _ _ _ _ _ _ fun _ _ _ => rfl

theorem outWf_execMtpbLd {s : State} (h : s.memWf = true) (e : EngBits) (t : BitVec 8) (z : BitVec 4) : OutWf (execMtpbLd e t z s) :=
  outWf_issueWord h _ _ _ _ _ _ fun _ _ _ => rfl

theorem outWf_blockOut {s : State} (h : s.memWf = true) (e : EngBits) (t : BitVec 8) (z : BitVec 4) (w n : Nat) :
    OutWf (blockOut s e t z w n) :=
  outWf_issueWord h _ _ _ _ _ _ fun _ _ _ => rfl

theorem outWf_matrixY {s : State} (h : s.memWf = true) (e : EngBits) (head : Chk) (y : BitVec 4) (val : VC → Word64) :
    OutWf (matrixY s e head y val) :=
  outWf_issueWord h _ _ _ _ _ _ fun _ _ _ => rfl

@[simp] theorem memWf_placeFollow (s : State) (e : QEntry) (c : List Word32) (i0 : Nat) : (placeFollow s e c i0).memWf = s.memWf := by
  unfold placeFollow
  split <;> rfl

@[simp] theorem memWf_copyDraw (s : State) (e : QEntry) (c : List Word32) (n : Nat) : (copyDraw s e c n).memWf = s.memWf := by
  unfold copyDraw
  split <;> simp

@[simp] theorem memWf_copyStart (op : Nat) (q : Queue) (c : List Word32) (za : Option Str) (i0 late : Nat) (e : QEntry)
    (toks : List Nat) (s : State) : (copyStart op q c za i0 late e toks s).memWf = s.memWf := rfl

@[simp] theorem memWf_postRecord (s : State) (p : Poster) (b src status tag kind : Nat) (detail : Word64) (hold : Nat) :
    (postRecord s p b src status tag kind detail hold).memWf = s.memWf := by
  unfold postRecord
  split <;> rfl

@[simp] theorem memWf_copyPost (s : State) (e : QEntry) (op : Nat) (c : List Word32) (status detail hold : Nat) :
    (copyPost s e op c status detail hold).memWf = s.memWf := by simp [copyPost]

@[simp] theorem memWf_copyRecord (s : State) (f : Flight) (j : CopyJob) (status detail hold : Nat) :
    (copyRecord s f j status detail hold).memWf = s.memWf := by simp [copyRecord]

@[simp] theorem memWf_mapRefused (s : State) (n : Nat) (e : QEntry) (c : List Word32) : (mapRefused s n e c).memWf = s.memWf := by
  unfold mapRefused
  split
  · exact apply_ite_memWf (memWf_copyPost ..) rfl
  · rfl

@[simp] theorem memWf_imageStart (i : ImageJob) (m : BitVec 24) (c : List Word32) (q : Queue) (za : Option Str) (e : QEntry)
    (toks : List Nat) (s : State) : (imageStart i m c q za e toks s).memWf = s.memWf := by
  unfold imageStart
  dsimp only
  (repeat' split) <;> simp

@[simp] theorem memWf_unissue (s : State) (f : Flight) (i : ImageJob) : (unissue s f i).memWf = s.memWf := rfl

@[simp] theorem memWf_imageServed (s : State) (f : Flight) (i : ImageJob) : (imageServed s f i).memWf = s.memWf := by
  unfold imageServed
  dsimp only
  (repeat' split) <;> simp

theorem outWf_copyOp {s : State} (h : s.memWf = true) (op : Nat) (q : Queue) (e : EngBits) (d : BitVec 4) (a : Option (BitVec 4)) :
    OutWf (copyOp s op q e d a) := by
  unfold copyOp
  dsimp only
  split
  · exact outWf_issueWord h _ _ _ _ _ _ fun _ _ _ => memWf_imageStart ..
  · split
    next t _ hi _ =>
      have ht : t.memWf = true := by
        rw [← outWf_next, ← hi]
        exact outWf_issueWord h _ _ _ _ _ _ fun _ _ _ => (memWf_copyStart ..).trans (memWf_copyDraw ..)
      exact memWf_ite ((memWf_mapRefused ..).trans ht) ht
    · exact outWf_issueWord h _ _ _ _ _ _ fun _ _ _ => (memWf_copyStart ..).trans (memWf_copyDraw ..)

@[simp] theorem memWf_copyFault (s : State) (f : Flight) (j : CopyJob) (k cause detail : Nat) (va : Word64) :
    (copyFault s f j k cause detail va).memWf = s.memWf := by
  unfold copyFault
  split <;> simp

theorem memWf_lineTranslate {s : State} (h : s.memWf = true) (l : CLine) (k : AccKind) : (lineTranslate s l k).left.memWf = true := by
  have hl := memWf_translate_left h l.va.toNat k
  unfold lineTranslate
  split
  · exact h
  · split
    · exact h
    · split
      next hr =>
        have hl := memWf_left_of_eq hr hl
        exact memWf_left_ite hl hl
      · exact hl

@[simp] theorem memWf_landBytes (s : State) (f : Flight) (tag : Nat) (ws : List (Nat × Byte × Byte)) :
    (landBytes s f tag ws).memWf = s.memWf := by
  unfold landBytes
  dsimp only
  (repeat' split) <;> simp

theorem memWf_pcTake {s t : State} {line : Nat} (h : pcTake s line = some t) : t.memWf = s.memWf := by
  unfold pcTake at h
  dsimp only at h
  split at h
  · cases h; rfl
  · split at h <;> cases h
    rfl

theorem memWf_readLine {s : State} (h : s.memWf = true) (j : CopyJob) (l : CLine) : (readLine s j l).left.memWf = true := by
  have hl := memWf_lineTranslate h l .read
  unfold readLine
  split
  next hr => exact (memWf_left_of_eq hr hl :)
  next hr => exact (memWf_left_of_eq hr hl :)
  next s1 pa e hr =>
    have h1 : s1.memWf = true := memWf_left_of_eq hr hl
    have h2 : (if j.op = 3 then { s1 with part.ctlb := clusterTlbPut s1 e } else s1).memWf = true := memWf_ite h1 h1
    dsimp only
    generalize (if j.op = 3 then { s1 with part.ctlb := clusterTlbPut s1 e } else s1) = s2 at h2 ⊢
    split
    · exact h2
    · split
      · exact h2
      next s3 hp =>
        have h3 : s3.memWf = true := by
          split at hp
          · cases hp; exact h2
          · exact (memWf_pcTake hp).trans h2
        split
        · exact memWf_vRead h3 _ _ _
        · split
          · exact (memWf_l2Access ..).trans h3
          · exact (memWf_homeRead ..).trans h3

theorem memWf_readAhead {s : State} (h : s.memWf = true) (seq k : Nat) : (readAhead s seq k).1.memWf = true := by
  unfold readAhead
  split
  · exact h
  · split
    · exact h
    · split
      · exact h
      next j _ _ x _ =>
        have hl := memWf_readLine h j x
        split
        next hr => exact (memWf_setFlight ..).trans (memWf_left_of_eq hr hl :)
        next hr => exact (memWf_left_of_eq hr hl :)
        next hr => exact (memWf_left_of_eq hr hl :)

theorem memWf_readOlder {s : State} (h : s.memWf = true) (f : Flight) (l : CLine) : (readOlder s f l).1.memWf = true := by
  unfold readOlder
  refine List.foldlRecOn _ _ (motive := fun x : State × Bool => x.1.memWf = true) h fun x hx p _ => ?_
  split
  · exact memWf_readAhead hx _ _
  · exact hx

theorem outWf_execCopyLineLanding {s : State} (h : s.memWf = true) (id : Nat) : OutWf (execCopyLineLanding id s) := by
  unfold execCopyLineLanding
  split
  · exact h
  next f _ =>
    split
    · exact h
    next j _ =>
      split
      · exact h
      next l k _ =>
        refine outWf_ite h ?_
        have ho := memWf_readOlder h f l
        have hg : (if !l.data.isEmpty then MemR.ok s l.data else if (readOlder s f l).2 then readLine (readOlder s f l).1 j l
            else .wait (readOlder s f l).1).left.memWf = true := by
          split
          · exact h
          · split
            · exact memWf_readLine ho j l
            · exact ho
        dsimp only
        split
        next hr =>
          have h1 := memWf_left_of_eq hr hg
          exact outWf_ite ((memWf_copyFault ..).trans h1) ((memWf_setFlight ..).trans h1)
        next hr => exact (memWf_copyFault ..).trans (memWf_left_of_eq hr hg :)
        next hr =>
          have h1 := memWf_left_of_eq hr hg
          exact memWf_ite ((memWf_setFlight ..).trans h1) ((memWf_landBytes ..).trans h1)

@[simp] theorem memWf_outDone (s : State) (f : Flight) (j : CopyJob) : (outDone s f j).memWf = s.memWf := by
  unfold outDone
  split <;> simp

theorem outWf_execCopyMemoryWritePerform {s : State} (h : s.memWf = true) (id : Nat) : OutWf (execCopyMemoryWritePerform id s) := by
  unfold execCopyMemoryWritePerform
  split
  · exact h
  next f _ =>
    split
    · exact h
    next j _ =>
      refine outWf_ite h ?_
      split
      · exact (memWf_outDone ..).trans h
      next l k _ =>
        refine outWf_ite h ?_
        have hl := memWf_lineTranslate h l .write
        dsimp only
        split
        next hr => exact (memWf_left_of_eq hr hl :)
        next hr => exact (memWf_copyFault ..).trans (memWf_left_of_eq hr hl :)
        next s1 pa e hr =>
          have h1 : s1.memWf = true := memWf_left_of_eq hr hl
          split
          · split
            · exact (memWf_copyFault ..).trans h1
            · split
              next hv =>
                have h2 := memWf_vWrite h1 hv
                exact memWf_ite ((memWf_outDone ..).trans h2) ((memWf_setFlight ..).trans h2)
              · exact h1
          · split
            next hp =>
              have h2 := memWf_homeWrite ((memWf_pcTake hp).trans h1) pa (lineBytes f j l)
              exact memWf_ite ((memWf_outDone ..).trans h2) ((memWf_setFlight ..).trans h2)
            · exact h1

@[simp] theorem memWf_gpushStart (d a : BitVec 4) (e : QEntry) (toks : List Nat) (s : State) :
    (gpushStart d a e toks s).memWf = s.memWf := rfl

theorem outWf_execGpush {s : State} (h : s.memWf = true) (e : EngBits) (d a : BitVec 4) : OutWf (execGpush e d a s) :=
  outWf_issueWord h _ _ _ _ _ _ fun _ _ _ => memWf_gpushStart ..

@[simp] theorem memWf_ggathStart (d a b : BitVec 4) (e : QEntry) (toks : List Nat) (s : State) :
    (ggathStart d a b e toks s).memWf = s.memWf := rfl

theorem outWf_execGgath {s : State} (h : s.memWf = true) (e : EngBits) (d a b : BitVec 4) : OutWf (execGgath e d a b s) :=
  outWf_issueWord h _ _ _ _ _ _ fun _ _ _ => memWf_ggathStart ..

theorem outWf_execGreset {s : State} (h : s.memWf = true) (e : EngBits) (d : BitVec 4) : OutWf (execGreset e d s) :=
  outWf_issueWord h _ _ _ _ _ _ fun _ _ _ => rfl

theorem outWf_recvOp {s : State} (h : s.memWf = true) (e : EngBits) (head check : QEntry → Chk) (c kind mbox : Nat)
    (strs : QEntry → State → List Str) (rings : QEntry → List Nat) : OutWf (recvOp s e head check c kind mbox strs rings) :=
  outWf_issueWord h _ _ _ _ _ _ fun _ _ _ => rfl

@[simp] theorem memWf_sendStart (z : Str) (dst c : Nat) (pops : List Nat) (e : QEntry) (toks : List Nat) (s : State) :
    (sendStart z dst c pops e toks s).memWf = s.memWf := by
  unfold sendStart
  dsimp only
  (repeat' split) <;> simp

theorem outWf_execSend {s : State} (h : s.memWf = true) (e : EngBits) (a : BitVec 4) : OutWf (execSend e a s) :=
  outWf_issueWord h _ _ _ _ _ _ fun _ _ _ => memWf_sendStart ..

theorem outWf_execSendG {s : State} (h : s.memWf = true) (e : EngBits) (a : BitVec 4) : OutWf (execSendG e a s) := by
  unfold execSendG
  exact outWf_issueWord h _ _ _ _ _ _ fun e l t => by exact memWf_sendStart ..

@[simp] theorem memWf_sendGroup (s : State) (f : Flight) (tag : Nat) : (sendGroup s f tag).memWf = s.memWf := rfl

@[simp] theorem memWf_dropMsg (s : State) (m : Msg) : (dropMsg s m).memWf = s.memWf := rfl

@[simp] theorem memWf_setMsg (s : State) (m : Msg) : (setMsg s m).memWf = s.memWf := rfl

@[simp] theorem memWf_inboundBytes (s : State) (f : Flight) (a : Acc) : (inboundBytes s f a).1.memWf = s.memWf := by
  unfold inboundBytes
  dsimp only
  (repeat' split) <;> simp

@[simp] theorem memWf_delayPieces (s : State) (f : Flight) : (delayPieces s f).memWf = s.memWf := rfl

@[simp] theorem memWf_landPiece (s : State) (m : Msg) (f : Flight) : (landPiece s m f).memWf = s.memWf := by
  unfold landPiece
  dsimp only
  (repeat' split) <;> simp

@[simp] theorem memWf_unexpected (s : State) : (unexpected s).memWf = s.memWf := by simp [unexpected]

theorem outWf_execMessagePieceLanding {s : State} (h : s.memWf = true) (n : Nat) : OutWf (execMessagePieceLanding n s) := by
  unfold execMessagePieceLanding
  split
  · exact h
  · refine outWf_ite h ?_
    split
    · exact outWf_ite ((memWf_unexpected _).trans h) h
    · exact outWf_ite ((memWf_queueFault ..).trans h) ((memWf_landPiece ..).trans h)

theorem outWf_waitOp {s : State} (h : s.memWf = true) (q : Queue) (e : EngBits) (n : BitVec 12) : OutWf (waitOp s q e n) :=
  outWf_issueWord h _ _ _ _ _ _ fun _ _ _ => rfl

theorem outWf_qfenceOp {s : State} (h : s.memWf = true) (q : Queue) (e : EngBits) (m : BitVec 7) : OutWf (qfenceOp s q e m) :=
  outWf_issueWord h _ _ _ _ _ _ fun _ _ _ => rfl

@[simp] theorem memWf_evpostStart (e : QEntry) (toks : List Nat) (s : State) : (evpostStart e toks s).memWf = s.memWf := by
  unfold evpostStart
  dsimp only
  (repeat' split) <;> simp

theorem outWf_execEvpost {s : State} (h : s.memWf = true) (e : EngBits) : OutWf (execEvpost e s) :=
  outWf_issueWord h _ _ _ _ _ _ fun _ _ _ => memWf_evpostStart ..

@[simp] theorem memWf_groupDone (s : State) (f : Flight) (tag : Nat) : (groupDone s f tag).memWf = s.memWf := by
  unfold groupDone
  dsimp only
  (repeat' split) <;> simp

@[simp] theorem memWf_serveOne (s : State) (f : Flight) (a : Acc) : (serveOne s f a).memWf = s.memWf := by
  unfold serveOne
  dsimp only
  (repeat' split) <;> simp

@[simp] theorem memWf_serveFlight (s : State) (seq n : Nat) : (serveFlight s seq n).memWf = s.memWf := by
  induction n generalizing s with
  | zero => rfl
  | succ n ih =>
    unfold serveFlight
    split
    · rfl
    · refine apply_ite_memWf rfl ?_
      split
      · rfl
      · exact (ih _).trans (memWf_serveOne ..)

@[simp] theorem memWf_serveQueue (s : State) (q : Queue) : (serveQueue s q).memWf = s.memWf := by
  unfold serveQueue
  exact foldl_keeps (f := State.memWf) (fun t n => by exact memWf_serveFlight t n _) _ s

@[simp] theorem memWf_serveInbound (s : State) (src : Nat) : (serveInbound src s).memWf = s.memWf := by
  unfold serveInbound
  refine foldl_keeps (f := State.memWf) (fun t f => ?_) _ s
  have hin : (f.accs.foldl (fun (p : State × Flight) a =>
      inboundBytes p.1 { p.2 with accs := p.2.accs.erase a } { a with beat := p.1.vc.now }) (t, f)).1.memWf = t.memWf :=
    List.foldlRecOn _ _ (motive := fun x : State × Flight => x.1.memWf = t.memWf) rfl
      fun x hx a _ => (memWf_inboundBytes ..).trans hx
  exact (memWf_setFlight ..).trans (apply_ite_memWf hin ((memWf_delayPieces ..).trans hin))

@[simp] theorem memWf_applyEffect (s : State) (seq : Nat) (e : Effect) : (applyEffect s seq e).memWf = s.memWf := by
  unfold applyEffect
  dsimp only
  (repeat' split) <;> simp

@[simp] theorem memWf_applyDues (s : State) : (applyDues s).memWf = s.memWf := by
  unfold applyDues
  exact foldl_keeps (f := State.memWf) (fun t p => by exact memWf_applyEffect t p.1 p.2) _ { s with vc := dropDues s.vc }

@[simp] theorem memWf_dropHit (s : State) (h : Hit) : (dropHit s h).memWf = s.memWf := rfl

@[simp] theorem memWf_auditEnd (s : State) (f : Flight) (vx : Bool) (tile detail : Nat) :
    (auditEnd s f vx tile detail).memWf = s.memWf := by
  unfold auditEnd
  split
  · rfl
  · exact (memWf_queueFault ..).trans ((memWf_countSilent _).trans (memWf_of rfl rfl))

@[simp] theorem memWf_completeExtra (s : State) (f : Flight) : (completeExtra s f).memWf = s.memWf := by
  unfold completeExtra
  split
  · rfl
  · exact (memWf_auditEnd ..).trans (memWf_of rfl rfl)
  · exact memWf_auditEnd ..
  · rfl

@[simp] theorem memWf_completeWord (s : State) (f : Flight) : (completeWord s f).memWf = s.memWf := by
  unfold completeWord
  dsimp only
  (repeat' split) <;> simp

theorem outWf_execEngineWordCompletion {s : State} (h : s.memWf = true) (id : Nat) : OutWf (execEngineWordCompletion id s) := by
  unfold execEngineWordCompletion
  split
  · exact h
  · exact outWf_ite ((memWf_completeWord ..).trans h) h

@[simp] theorem memWf_finishXc (s : State) : (finishXc s).memWf = s.memWf := by
  unfold finishXc
  refine foldl_keeps (f := State.memWf) (fun t f => ?_) _ s
  dsimp only
  split
  · exact apply_ite_memWf (memWf_copyRecord ..) rfl
  · rfl

@[simp] theorem memWf_sweepEnded (s : State) : (sweepEnded s).memWf = s.memWf := rfl

@[simp] theorem outWf_execEventRecordHeldPost (s : State) (h : s.memWf = true) : OutWf (execEventRecordHeldPost s) := by
  unfold execEventRecordHeldPost
  dsimp only
  (repeat' split) <;> simp [h]

theorem outWf_execOverrun {s : State} (h : s.memWf = true) (u : Queue) : OutWf (execOverrun u s) := by
  unfold execOverrun
  split
  · exact h
  · refine outWf_ite h ?_
    split
    · exact h
    · dsimp only
      split
      next ht => exact memWf_overrunNow h ht
      · exact h

@[simp] theorem memWf_dropMap (s : State) (n : Nat) : (dropMap s n).memWf = s.memWf := rfl

@[simp] theorem memWf_mapBytes (s : State) (n : Nat) (a : MapAcc) : (mapBytes s n a).memWf = s.memWf := by
  unfold mapBytes
  dsimp only
  exact apply_ite_memWf ((memWf_charge ..).trans rfl) rfl

theorem outWf_execMapAccessLanding {s : State} (h : s.memWf = true) (n : Nat) : OutWf (execMapAccessLanding n s) := by
  unfold execMapAccessLanding
  split
  · exact h
  · refine outWf_ite h ?_
    split
    · exact h
    · exact outWf_ite ((memWf_mapBytes ..).trans h) ((memWf_charge ..).trans h)
    · exact outWf_ite h h
    · exact h

end Sys2Proof.Machine
end

section
/-! Support. The fabric, the atomics, the collectives, the windows and the steps keep memory in its canonical form. -/

set_option Elab.async false

namespace Sys2Proof.Machine

open Sys2Proof.Laws

@[simp] theorem memWf_sendFor (s : State) (owner : Option LaunchTag) (who : Option Nat) (h : Head) (d : List Byte) :
    (sendFor s owner who h d).memWf = s.memWf := by simp [sendFor]

@[simp] theorem memWf_sendMessage (s : State) (who : Option Nat) (h : Head) (d : List Byte) :
    (sendMessage s who h d).memWf = s.memWf := by simp [sendMessage]

@[simp] theorem memWf_windowAdd (s : State) (w : Window) (t : AType) (a v : Nat) : (windowAdd s w t a v).1.memWf = s.memWf := rfl

/-- What an atomic reads before it operates. -/
theorem memWf_atomicRead {s : State} (h : s.memWf = true) (c : Bool) (f o n line : Nat) (b : List Byte) :
    (if c then vRead s f o n else (l2Access s (some s.vc.id) 0 line false, b)).1.memWf = true := by
  split
  · exact memWf_vRead h _ _ _
  · exact (memWf_l2Access ..).trans h

theorem memWf_homeAtomic {s : State} (h : s.memWf = true) (pa : Nat) (e : TlbE) (op : AOp) (t : AType) (v cmp : Nat) (tag : Option Nat) :
    (homeAtomic s pa e op t v cmp tag).left.memWf = true := by
  have h1 := memWf_atomicRead h e.vb e.frame (pa - e.frame) (atomBytes t) (pa / 128) (physRead s pa (atomBytes t))
  unfold homeAtomic
  refine memWf_left_ite h ?_
  dsimp only
  generalize (if e.vb then vRead s e.frame (pa - e.frame) (atomBytes t)
      else (l2Access s (some s.vc.id) 0 (pa / 128) false, physRead s pa (atomBytes t))) = q at h1 ⊢
  refine memWf_left_ite h1 (memWf_left_ite ?_ ?_)
  · split
    next hv => exact memWf_vWrite h1 hv
    · exact h1
  · exact memWf_physWrite ((memWf_l2Access ..).trans h1) _ _

theorem memWf_atomicCheck {s : State} (h : s.memWf = true) (a : Word64) (n : Nat) : (atomicCheck s a n).left.memWf = true := by
  unfold atomicCheck
  split
  · exact h
  · exact memWf_left_ite h (memWf_translate_left h _ _)

theorem memWf_atomicDrop {s : State} (h : s.memWf = true) (pa : Nat) (e : TlbE) : (atomicDrop s pa e).memWf = true :=
  memWf_ite h (memWf_dropLine h _)

theorem outWf_atomicOp {s : State} (h : s.memWf = true) (ra : BitVec 6) (t : AType) (op : AOp) (ret : Bool) {k : State → Nat → TlbE → Out}
    (hk : ∀ s1 pa e, s1.memWf = true → OutWf (k s1 pa e)) : OutWf (atomicOp s ra t op ret k) := by
  refine outWf_memThen (s := s) (memWf_atomicCheck h _ _) fun s1 p h1 => ?_
  refine outWf_ite (outWf_ctlFault h1 _ _ _) (outWf_ite (outWf_ctlFault h1 _ _ _) (outWf_ite h1 (outWf_ite ?_ ?_)))
  · exact (memWf_awaitMatch s1).trans h1
  · exact hk _ _ _ (memWf_atomicDrop h1 _ _)

theorem outWf_aretOp {s : State} (h : s.memWf = true) (rd ra rb : BitVec 6) (t : AType) (op : AOp) : OutWf (aretOp s rd ra rb t op) := by
  unfold aretOp
  refine outWf_atomicOp h _ _ _ _ fun s1 _ _ h1 => outWf_memThen (s := s1) (memWf_homeAtomic h1 _ _ _ _ _ _ _) fun s2 _ h2 => ?_
  simp [h2]

theorem outWf_aredOp {s : State} (h : s.memWf = true) (ra rb : BitVec 6) (t : AType) (op : AOp) : OutWf (aredOp s ra rb t op) := by
  unfold aredOp
  refine outWf_atomicOp h _ _ _ _ fun s1 _ _ h1 => outWf_ite ?_ ?_
  · split
    · exact outWf_ctlFault h1 _ _ _
    · exact h1
  · exact memWf_congr ((memWf_charge s1 .atm 1).trans h1) rfl rfl

@[simp] theorem memWf_atomicDone (s : State) (n fl : Nat) : (atomicDone s n fl).memWf = s.memWf := rfl

theorem outWf_execAtomicHomePortPerform {s : State} (h : s.memWf = true) (n : Nat) : OutWf (execAtomicHomePortPerform n s) := by
  unfold execAtomicHomePortPerform
  split
  · exact h
  next p _ =>
    refine outWf_ite h ?_
    split
    next w _ => exact (memWf_atomicDone ..).trans ((memWf_windowAdd s w p.t p.va p.v).trans h)
    · have hl := fun e => memWf_homeAtomic h p.pa e (AOp.ofCode p.op) p.t p.v 0 p.epoch
      dsimp only
      split
      next hr => exact (memWf_atomicDone ..).trans (memWf_left_of_eq hr (hl _) :)
      next hr =>
        have h1 := memWf_left_of_eq hr (hl _)
        exact (memWf_flightFault ..).trans ((memWf_of rfl rfl).trans h1)
      next hr => exact (memWf_left_of_eq hr (hl _) :)

@[simp] theorem memWf_touchMember (s : State) (g i : Nat) : (touchMember s g i).memWf = s.memWf := by simp [touchMember]

@[simp] theorem memWf_touchMembers (s : State) (g n : Nat) : (touchMembers s g n).memWf = s.memWf := by
  unfold touchMembers
  exact foldl_keeps (f := State.memWf) (fun t l => by exact memWf_l2Access t _ 1 l false) _ s

@[simp] theorem memWf_setGroupWord (s : State) (g k : Nat) (v : Word64) : (setGroupWord s g k v).memWf = s.memWf := rfl

@[simp] theorem memWf_pruneClosed (s : State) (g : Nat) : (pruneClosed s g).memWf = s.memWf := rfl

@[simp] theorem memWf_setCseq (s : State) (g n : Nat) : (setCseq s g n).memWf = s.memWf := rfl

@[simp] theorem memWf_takeCseq (s : State) (g : Nat) : (takeCseq s g).memWf = s.memWf := rfl

@[simp] theorem memWf_sendPass (s : State) (c : Coll) (k dl : Nat) : (sendPass s c k dl).memWf = s.memWf := by simp [sendPass]

@[simp] theorem memWf_sendSum (s : State) (c : Coll) (k e dl : Nat) (after : Bool) :
    (sendSum s c k e dl after).memWf = s.memWf := by simp [sendSum]

@[simp] theorem memWf_sendData (s : State) (c : Coll) (k dl : Nat) : (sendData s c k dl).memWf = s.memWf := by simp [sendData]

theorem memWf_hintByte {s : State} (h : s.memWf = true) (a k : Nat) : (hintByte s a k).left.memWf = true := by
  have hl := memWf_translate_left h (a + k) .read
  unfold hintByte
  split
  · exact h
  · split
    · exact h
    · split
      next s1 pa e hr =>
        have h1 : s1.memWf = true := memWf_left_of_eq hr hl
        exact memWf_left_ite h1 (memWf_left_ite h1 ((memWf_homeRead s1 pa 1).trans h1))
      next hr => exact memWf_left_ite (memWf_left_of_eq hr hl :) (memWf_left_of_eq hr hl :)
      next hr => exact (memWf_left_of_eq hr hl :)

theorem memWf_hintBytes {s : State} (h : s.memWf = true) (a : Nat) (l : List Nat) : (hintBytes s a l).left.memWf = true := by
  induction l generalizing s with
  | nil => exact h
  | cons k r ih =>
    have hl := memWf_hintByte h a k
    unfold hintBytes
    split
    next hr => exact (memWf_left_of_eq hr hl :)
    next hr => exact (memWf_left_of_eq hr hl :)
    next hr =>
      have h2 := ih (memWf_left_of_eq hr hl :)
      split
      next hr => exact (memWf_left_of_eq hr h2 :)
      next hr => exact (memWf_left_of_eq hr h2 :)
      next hr => exact (memWf_left_of_eq hr h2 :)

theorem memWf_descCheck {s : State} (h : s.memWf = true) (op g : Nat) (d : List Word64) : (descCheck s op g d).left.memWf = true := by
  unfold descCheck
  refine memWf_left_ite h ?_
  have hl := fun l => memWf_hintBytes h (descHaddr d) l
  split
  next hr => exact (memWf_left_of_eq hr (hl _) :)
  next hr => exact (memWf_left_of_eq hr (hl _) :)
  next hr => exact memWf_left_ite (memWf_left_of_eq hr (hl _) :) (memWf_left_of_eq hr (hl _) :)

theorem outWf_groupChecks {s : State} (h : s.memWf = true) (xa xb : Word64) (n align : Nat) {k : State → Nat → List Word64 → Out}
    (hk : ∀ t g d, t.memWf = true → OutWf (k t g d)) : OutWf (groupChecks s xa xb n align k) := by
  refine outWf_ite (outWf_ctlFault h _ _ _) (outWf_ite (outWf_ctlFault h _ _ _) ?_)
  refine outWf_memThen (s := s) (memWf_ctlLoadWords h _ _) fun t d ht => ?_
  have h2 := (memWf_touchMember t xa.toNat (groupSelf s xa.toNat)).trans ht
  exact outWf_ite (outWf_ctlFault ht _ _ _) (outWf_ite (outWf_ctlFault h2 _ _ _) (hk _ _ _ h2))

theorem outWf_collOp {s : State} (h : s.memWf = true) (op : Nat) (ra rb : BitVec 6) : OutWf (collOp s op ra rb) := by
  refine outWf_restricted h (outWf_groupChecks h _ _ _ _ fun s1 g d h1 => ?_)
  have hl := memWf_descCheck h1 op g d
  split
  next hr => exact (memWf_left_of_eq hr hl :)
  next hr => exact outWf_ctlFault (memWf_left_of_eq hr hl :) _ _ _
  next s2 hints hr =>
    have h2 : s2.memWf = true := memWf_left_of_eq hr hl
    dsimp only
    split
    · split
      · exact outWf_ctlFault h2 _ _ _
      · exact h2
    · refine outWf_ite (outWf_ctlFault h2 _ _ _) ?_
      split
      · split
        · exact outWf_ctlFault h2 _ _ _
        · exact h2
      · have h3 := (memWf_takeCseq (charge s2 .coll) g).trans ((memWf_charge s2 .coll 1).trans h2)
        exact memWf_congr h3 rfl rfl

@[simp] theorem outWf_execCollWait (rd ra : BitVec 6) (s : State) (h : s.memWf = true) : OutWf (execCollWait rd ra s) := by
  unfold execCollWait
  dsimp only
  (repeat' split) <;> simp [h]

@[simp] theorem outWf_execMbclr (k : BitVec 3) (s : State) (h : s.memWf = true) : OutWf (execMbclr k s) := by simp [execMbclr, h]

@[simp] theorem memWf_setColl (s : State) (n : Nat) (c : Coll) : (setColl s n c).memWf = s.memWf := rfl

@[simp] theorem memWf_touchSelf (s : State) (c : Coll) : (touchSelf s c).memWf = s.memWf := by
  unfold touchSelf
  split <;> simp

@[simp] theorem memWf_sendAll (s : State) (c : Coll) : (sendAll s c).memWf = s.memWf := by
  have h0 := memWf_touchSelf s c
  unfold sendAll
  generalize touchSelf s c = s1 at h0 ⊢
  refine Eq.trans ?_ h0
  refine apply_ite_memWf (foldl_keeps (f := State.memWf) (fun t k => by exact memWf_sendData ..) _ _) ?_
  refine foldl_keeps (f := State.memWf) (fun t x => ?_) _ _
  split
  · have h1 := memWf_sendPass t c x.2 x.1.due
    dsimp only
    generalize sendPass t c x.2 x.1.due = t1 at h1 ⊢
    split
    · exact h1
    · exact h1
  · exact memWf_sendSum ..

@[simp] theorem outWf_execCollectiveSourceRead (n : Nat) (s : State) (h : s.memWf = true) : OutWf (execCollectiveSourceRead n s) := by
  unfold execCollectiveSourceRead
  dsimp only
  (repeat' split) <;> simp [h]

theorem memWf_writeHint {s : State} (h : s.memWf = true) (c : Coll) (k e : Nat) : (writeHint s c k e).memWf = true := by
  have hl := memWf_translate_left h (descHaddr c.desc + k) .write
  unfold writeHint
  refine memWf_ite h ?_
  split
  next s1 pa t hr =>
    have h1 : s1.memWf = true := memWf_left_of_eq hr hl
    exact memWf_ite h1 (memWf_homeWrite h1 _ _)
  next hr => exact (memWf_left_of_eq hr hl :)
  next hr => exact (memWf_left_of_eq hr hl :)

theorem memWf_saturate {s : State} (h : s.memWf = true) (n : Nat) (c : Coll) (k : Nat) (x : CChunk) :
    (saturate s n c k x).memWf = true :=
  memWf_congr (memWf_writeHint h c k 255) rfl rfl

theorem memWf_passDone {s : State} (h : s.memWf = true) (n : Nat) (c : Coll) (k : Nat) (x : CChunk) (ec : Nat) :
    (passDone s n c k x ec).memWf = true := by
  unfold passDone
  refine memWf_ite ((memWf_setColl ..).trans (memWf_writeHint h _ _ _)) (memWf_ite (memWf_saturate h _ _ _ _) ?_)
  exact (memWf_sendSum ..).trans ((memWf_setColl ..).trans h)

theorem memWf_sumDone {s : State} (h : s.memWf = true) (n : Nat) (c : Coll) (k : Nat) (x : CChunk) (lanes : List Nat) (ov : Bool) :
    (sumDone s n c k x lanes ov).memWf = true := by
  have h1 : (if collFloat c.op c.desc then writeHint s c k x.e else s).memWf = true := memWf_ite (memWf_writeHint h _ _ _) h
  unfold sumDone
  refine memWf_ite ((memWf_sendPass ..).trans (memWf_congr h rfl rfl)) (memWf_ite ?_ ?_)
  · exact memWf_congr h1 rfl rfl
  · exact memWf_congr h1 rfl rfl

@[simp] theorem memWf_dataDone (s : State) (n : Nat) (c : Coll) (i k : Nat) (d : List Byte) : (dataDone s n c i k d).memWf = s.memWf := by
  unfold dataDone
  dsimp only
  (repeat' split) <;> simp

@[simp] theorem memWf_collStatus (s : State) (c : Coll) (status : Nat) : (collStatus s c status).memWf = s.memWf := rfl

@[simp] theorem memWf_collRecord (s : State) (c : Coll) (status hold : Nat) :
    (collRecord s c status hold).memWf = s.memWf := by simp [collRecord]

@[simp] theorem memWf_collOver (s : State) (n : Nat) (c : Coll) : (collOver s n c).memWf = s.memWf := by
  unfold collOver
  dsimp only
  (repeat' split) <;> simp

@[simp] theorem memWf_collFails (s : State) (n : Nat) (c : Coll) : (collFails s n c).memWf = s.memWf := by simp [collFails]

@[simp] theorem memWf_landOne (s : State) (c : Coll) (p : CLand) : (landOne s c p).1.memWf = s.memWf := by
  unfold landOne
  dsimp only
  (repeat' split) <;> simp

@[simp] theorem memWf_collMailbox (s : State) (c : Coll) : (collMailbox s c).1.memWf = s.memWf := by
  unfold collMailbox
  split
  · split <;> rfl
  · rfl

theorem outWf_execCollectiveDelivery {s : State} (h : s.memWf = true) (n : Nat) : OutWf (execCollectiveDelivery n s) := by
  unfold execCollectiveDelivery
  split
  · exact h
  next c _ =>
    refine outWf_ite h ?_
    have hd : ∀ l : List CLand, (l.foldl (fun (q : State × Coll) p => landOne q.1 q.2 p) (s, c)).1.memWf = true := fun l =>
      List.foldlRecOn _ _ (motive := fun x : State × Coll => x.1.memWf = true) h
        fun x hx p _ => (memWf_landOne x.1 x.2 p).trans hx
    have h2 := fun c1 l => (memWf_collMailbox _ c1).trans (hd l)
    exact memWf_ite ((memWf_collOver ..).trans ((memWf_setColl ..).trans (h2 _ _))) ((memWf_setColl ..).trans (h2 _ _))

@[simp] theorem memWf_sendWinChunk (s : State) (w : Window) (x : Nat × Bool × SMap Nat) (k : Nat) :
    (sendWinChunk s w x k).memWf = s.memWf := by simp [sendWinChunk]

@[simp] theorem memWf_sendFlush (s : State) (w : Window) (x : Nat × Bool × SMap Nat) : (sendFlush s w x).memWf = s.memWf := by
  unfold sendFlush
  exact (foldl_keeps (f := State.memWf) (fun t k => by exact memWf_sendWinChunk t w x k) _ _).trans
    ((memWf_touchMember ..).trans (memWf_touchMember ..))

@[simp] theorem memWf_replayFlushes (s : State) (g : Nat) : (replayFlushes s g).memWf = s.memWf := by
  unfold replayFlushes
  exact foldl_keeps (f := State.memWf) (fun t w => foldl_keeps (f := State.memWf) (fun u x => memWf_sendFlush u w x) _ t) _ s

@[simp] theorem memWf_replayColl (s : State) (n : Nat) (c : Coll) : (replayColl s n c).memWf = s.memWf := by
  unfold replayColl
  split <;> simp

@[simp] theorem memWf_resendColl (s : State) (c : Coll) : (resendColl s c).memWf = s.memWf := by
  have h0 := memWf_touchSelf s c
  unfold resendColl
  refine (memWf_of rfl rfl).trans (apply_ite_memWf rfl (apply_ite_memWf (memWf_sendAll ..) ?_))
  generalize touchSelf s c = s1 at h0 ⊢
  refine Eq.trans ?_ h0
  refine foldl_keeps (f := State.memWf) (fun u x => ?_) _ _
  have h1 : State.memWf (if passFirst c.op c.desc x.1.hint then sendPass u c x.2 0 else u) = u.memWf :=
    apply_ite_memWf (memWf_sendPass ..) rfl
  dsimp only
  generalize (if passFirst c.op c.desc x.1.hint then sendPass u c x.2 0 else u) = u1 at h1 ⊢
  exact apply_ite_memWf h1 ((memWf_sendSum ..).trans h1)

/-- One virtual core's part of rebuilding a group's tree. -/
theorem memWf_replayAll {u : State} (h : u.memWf = true) (l : List Nat) (p : Coll → Prop) [DecidablePred p] :
    (l.foldl (fun w n => match w.vc.colls[n]? with
        | some c => if p c then replayColl w n c else w
        | none => w) u).memWf = true := by
  refine memWf_foldl _ (fun w n hw => ?_) _ h
  split
  · exact memWf_ite ((memWf_replayColl ..).trans hw) hw
  · exact hw

theorem memWf_treesRebuilt {s : State} (h : s.memWf = true) (g : Nat) : (treesRebuilt s g).memWf = true := by
  unfold treesRebuilt
  refine memWf_ite h (memWf_foldl _ (fun t v ht => memWf_inVC ht _ fun u hu => ?_) _ ?_)
  · exact memWf_foldl _ (fun w c hw => (memWf_resendColl w c).trans hw) _ (memWf_replayAll hu _ _)
  · exact (memWf_replayFlushes ..).trans (memWf_congr h rfl rfl)

@[simp] theorem memWf_plainPage (s : State) (va : Nat) : (plainPage s va).1.memWf = s.memWf := by
  have hl := memWf_lookup s va
  unfold plainPage
  split
  · rfl
  · split
    next hr => exact (congrArg (fun r => State.memWf r.1) hr).symm.trans hl
    next hr => exact (congrArg (fun r => State.memWf r.1) hr).symm.trans hl

@[simp] theorem memWf_shadowPlain (s : State) (g : Nat) (d : List Word64) : (shadowPlain s g d).1.memWf = s.memWf := by
  unfold shadowPlain
  split <;> simp

theorem outWf_execWinReg {s : State} (h : s.memWf = true) (ra rb : BitVec 6) : OutWf (execWinReg ra rb s) := by
  refine outWf_restricted h (outWf_groupChecks h _ _ _ _ fun s1 g d h1 => ?_)
  have h2 : (if winRecOk d (groupSize s1 g) then shadowPlain s1 g d else (s1, false)).1.memWf = true := by
    split
    · exact (memWf_shadowPlain ..).trans h1
    · exact h1
  refine outWf_ite (outWf_ctlFault h2 _ _ _) (outWf_ite (outWf_ctlFault h2 _ _ _) ?_)
  exact memWf_congr ((memWf_charge _ .coll 1).trans h2) rfl rfl

@[simp] theorem memWf_flushWindow (s : State) (w : Window) : (flushWindow s w).memWf = s.memWf := by simp [flushWindow]

@[simp] theorem outWf_execWinDrop (ra : BitVec 6) (s : State) (h : s.memWf = true) : OutWf (execWinDrop ra s) := by
  unfold execWinDrop
  dsimp only
  (repeat' split) <;> simp [h]

theorem outWf_execRelLaunch {s : State} (h : s.memWf = true) (ra : BitVec 6) : OutWf (execRelLaunch ra s) := by
  refine outWf_memThen (s := s) (memWf_syncCheck h _) fun s1 _ h1 => ?_
  split
  · exact outWf_ite h1 (outWf_sysNext _ h1)
  · refine outWf_ite ((memWf_awaitMatch s1).trans h1) ?_
    have h2 := memWf_flushFifo h1
    have h3 := (foldl_keeps (f := State.memWf) (fun t w => memWf_flushWindow t w) (myWindows (flushFifo s1)) (flushFifo s1)).trans h2
    exact outWf_ite h2 (outWf_ite h3 (outWf_sysNext _ h3))

theorem memWf_homeLoad {s : State} (h : s.memWf = true) (va n : Nat) : (homeLoad s va n).left.memWf = true := by
  have hl := memWf_translate_left h va .read
  unfold homeLoad
  split
  next s1 pa e hr =>
    have h1 : s1.memWf = true := memWf_left_of_eq hr hl
    refine memWf_left_ite h1 ?_
    change (if e.vb then vRead s1 e.frame (pa - e.frame) n else homeRead s1 pa n).1.memWf = true
    split
    · exact memWf_vRead h1 _ _ _
    · exact (memWf_homeRead ..).trans h1
  next hr => exact (memWf_left_of_eq hr hl :)
  next hr => exact (memWf_left_of_eq hr hl :)

theorem memWf_homeStore {s : State} (h : s.memWf = true) (va : Nat) (d : List Byte) : (homeStore s va d).left.memWf = true := by
  have hl := memWf_translate_left h va .write
  unfold homeStore
  split
  next s1 pa e hr =>
    have h1 : s1.memWf = true := memWf_left_of_eq hr hl
    refine memWf_left_ite (memWf_left_ite h1 (memWf_left_ite h1 ?_)) (memWf_left_ite h1 (memWf_homeWrite h1 _ _))
    split
    next hv => exact memWf_vWrite h1 hv
    · exact h1
  next hr => exact (memWf_left_of_eq hr hl :)
  next hr => exact (memWf_left_of_eq hr hl :)

theorem memWf_left_andThen {α β : Type} {r : MemR α} {k : State → α → MemR β} (hr : r.left.memWf = true)
    (hk : ∀ t v, t.memWf = true → (k t v).left.memWf = true) : (r.andThen k).left.memWf = true := by
  cases r with
  | ok t v => exact hk t v hr
  | fault t c d => exact hr
  | wait t => exact hr

theorem memWf_applyLane {s : State} (h : s.memWf = true) (w : Window) (q i : Nat) : (applyLane w s q i).left.memWf = true :=
  memWf_left_ite (memWf_left_andThen (memWf_homeLoad h _ _) fun _ _ ht => memWf_homeStore ht _ _)
    (memWf_left_andThen (memWf_homeLoad h _ _) fun _ _ ht =>
      memWf_left_andThen (memWf_homeStore ht _ _) fun _ _ hu => memWf_homeStore hu _ _)

theorem memWf_applyLanes {s : State} (h : s.memWf = true) (w : Window) (i : Nat) (l : List Nat) :
    (applyLanes w s i l).left.memWf = true := by
  induction l generalizing s i with
  | nil => exact h
  | cons q r ih => exact memWf_left_andThen (memWf_applyLane h w q i) fun _ _ ht => ih ht (i + 1)

@[simp] theorem memWf_freeFlush (s : State) (w : Window) (ds : List Darn) : (freeFlush s w ds).memWf = s.memWf := rfl

theorem memWf_applyFlush {s t : State} (h : s.memWf = true) {w : Window} {ds : List Darn} (ha : applyFlush s w ds = some t) :
    t.memWf = true := by
  have hl := memWf_applyLanes h w 0 ((flushLanes ds).take w.count)
  have hf : ∀ u : State, (freeFlush u w ds).memWf = u.memWf := fun _ => rfl
  unfold applyFlush at ha
  split at ha
  next hr =>
    have h1 := (hf _).trans (memWf_left_of_eq hr hl)
    cases ha
    exact memWf_ite ((memWf_updVC ..).trans h1) h1
  next =>
    cases ha
    exact (memWf_flightFault ..).trans ((hf _).trans h)
  next => cases ha

@[simp] theorem memWf_flushDone (s : State) (w : Window) : (flushDone s w).memWf = s.memWf := rfl

theorem outWf_execWindowFlushApply {s : State} (h : s.memWf = true) (n : Nat) : OutWf (execWindowFlushApply n s) := by
  unfold execWindowFlushApply
  split
  · exact h
  next w _ =>
    refine outWf_ite h (outWf_ite ?_ ((memWf_flushDone ..).trans h))
    refine memWf_inLaunch h _ fun t ht => ?_
    split
    · exact ht
    next hf =>
      obtain ⟨ds, _, ha⟩ := Option.bind_eq_some_iff.mp hf
      exact (memWf_flushDone ..).trans (memWf_applyFlush ht ha)

@[simp] theorem outWf_txFault (s : State) (d : Nat) (h : s.memWf = true) : OutWf (txFault s d) := by simp [txFault, h]

@[simp] theorem memWf_openEpoch (s : State) (g : Nat) (dr : Bool) : (openEpoch s g dr).memWf = s.memWf := rfl

@[simp] theorem memWf_openStep (s : State) (d : List Word64) : (openStep s d).memWf = s.memWf := rfl

@[simp] theorem outWf_txopenRest (s1 : State) (d : List Word64) (h : s1.memWf = true) : OutWf (txopenRest s1 d) := by
  unfold txopenRest
  dsimp only
  (repeat' split) <;> simp [h]

theorem outWf_execTxopen {s : State} (h : s.memWf = true) (ra : BitVec 6) : OutWf (execTxopen ra s) := by
  refine outWf_restricted h (outWf_ite (outWf_ctlFault h _ _ _) (outWf_ite (outWf_txFault _ _ h)
    (outWf_ite (outWf_ctlFault h _ _ _) (outWf_ite (outWf_ctlFault h _ _ _) ?_))))
  exact outWf_memThen (s := s) (memWf_ctlLoadWords h _ _) fun t d ht => outWf_ite (outWf_txopenRest _ _ ht) (outWf_txFault _ _ ht)

@[simp] theorem outWf_execTxvote (s : State) (h : s.memWf = true) : OutWf (execTxvote s) := by
  unfold execTxvote
  dsimp only
  (repeat' split) <;> simp [h]

@[simp] theorem outWf_execTxloss (ra : BitVec 6) (s : State) (h : s.memWf = true) : OutWf (execTxloss ra s) := by
  unfold execTxloss
  split <;> simp [h]

@[simp] theorem outWf_execTxabort (s : State) (h : s.memWf = true) : OutWf (execTxabort s) := by
  unfold execTxabort
  split <;> simp [h]

@[simp] theorem outWf_execTxwait (rd : BitVec 6) (s : State) (h : s.memWf = true) : OutWf (execTxwait rd s) := by
  unfold execTxwait
  split <;> simp [h]

@[simp] theorem outWf_execTxrd (rd : BitVec 6) (k : BitVec 4) (s : State) (h : s.memWf = true) : OutWf (execTxrd rd k s) := by
  unfold execTxrd
  dsimp only
  (repeat' split) <;> simp [h]

@[simp] theorem outWf_execRngk (ra : BitVec 6) (s : State) (h : s.memWf = true) : OutWf (execRngk ra s) := by simp [execRngk, h]

@[simp] theorem outWf_execRngn (ra : BitVec 6) (s : State) (h : s.memWf = true) : OutWf (execRngn ra s) := by simp [execRngn, h]

@[simp] theorem outWf_execDeviceVoteSend (s : State) (h : s.memWf = true) : OutWf (execDeviceVoteSend s) := by
  unfold execDeviceVoteSend
  dsimp only
  (repeat' split) <;> simp [h]

@[simp] theorem memWf_takeBackSeqs (s : State) : (takeBackSeqs s).memWf = s.memWf := by
  unfold takeBackSeqs
  exact foldl_keeps (f := State.memWf) (fun t g => by exact memWf_setCseq t g _) _ s

@[simp] theorem memWf_closeEpoch (s : State) (commit : Bool) : (closeEpoch s commit).memWf = s.memWf := by
  unfold closeEpoch
  dsimp only
  (repeat' split) <;> simp

@[simp] theorem memWf_outcomeAt (s : State) (w : Word64) : (outcomeAt s w).memWf = s.memWf := by
  unfold outcomeAt
  dsimp only
  (repeat' split) <;> simp

@[simp] theorem outWf_execOutcomeArrival (w : BitVec 64) (s : State) (h : s.memWf = true) :
    OutWf (execOutcomeArrival w s) := by simp [execOutcomeArrival, h]

@[simp] theorem memWf_drainClear (s : State) (bk g : Nat) (src : Bool × Nat × List Byte) : (drainClear s bk g src).memWf = s.memWf := by
  unfold drainClear
  dsimp only
  (repeat' split) <;> simp

@[simp] theorem memWf_drainMessage (owner : Option LaunchTag) (s : State) (d : List Byte) :
    (drainMessage owner s d).memWf = s.memWf := by simp [drainMessage]

@[simp] theorem memWf_setDrain (s : State) (d : Drain) : (setDrain s d).memWf = s.memWf := rfl

@[simp] theorem memWf_drainSend (s : State) (d : Drain) (data : List (List Byte)) : (drainSend s d data).memWf = s.memWf := by
  unfold drainSend
  exact (memWf_setDrain ..).trans (foldl_keeps (f := State.memWf) (fun t p => memWf_drainMessage d.owner t p) _ s)

theorem outWf_execDrainEngineTransfer {s : State} (h : s.memWf = true) : OutWf (execDrainEngineTransfer s) := by
  unfold execDrainEngineTransfer
  split
  · exact h
  · split
    · exact outWf_ite h ((memWf_drainSend ..).trans h)
    next d _ _ bk _ =>
      have h1 := memWf_touch h bk
      dsimp only
      split
      · exact (memWf_setDrain ..).trans h1
      · refine outWf_ite (memWf_inLaunch ?_ _ fun t ht => (memWf_flightFault ..).trans ht) ?_
        · exact (memWf_setDrain ..).trans ((memWf_drainClear ..).trans h1)
        · exact (memWf_drainSend ..).trans ((memWf_drainClear ..).trans ((memWf_chargeFor ..).trans h1))

@[simp] theorem memWf_drainAgain (s : State) (k : Nat) : (drainAgain s k).memWf = s.memWf := by
  unfold drainAgain
  split
  · rfl
  · split
    · exact memWf_drainMessage ..
    · rfl

theorem outWf_execDrainAcknowledge {s : State} (h : s.memWf = true) : OutWf (execDrainAcknowledge s) := by
  unfold execDrainAcknowledge
  split
  · exact h
  · refine outWf_ite (memWf_ite (memWf_inLaunch ?_ _ fun u hu => memWf_inVC hu _ fun t ht => ?_) h) h
    · exact memWf_congr h rfl rfl
    · exact (memWf_postRecord ..).trans ht

theorem outWf_execSweeperResolve {s : State} (h : s.memWf = true) (block : Nat) : OutWf (execSweeperResolve block s) := by
  unfold execSweeperResolve
  split
  · exact h
  · exact outWf_ite (memWf_touch h _) h

theorem outWf_execFirstWriteLineCopy {s : State} (h : s.memWf = true) (block : Nat) : OutWf (execFirstWriteLineCopy block s) := by
  unfold execFirstWriteLineCopy
  refine outWf_ite h ?_
  split
  · exact h
  · exact (memWf_setBlock ..).trans (memWf_physWrite ((memWf_chargeFor ..).trans h) _ _)

theorem outWf_execVersionedAccess {s : State} (h : s.memWf = true) (acc : VAccess) : OutWf (execVersionedAccess acc s) := by
  unfold execVersionedAccess
  split
  · split
    next hv => exact memWf_vWrite h hv
    · exact h
  · exact memWf_vRead h _ _ _

end Sys2Proof.Machine
end

section
/-! Support. Darning buffers, barriers, the scheduler, dispatch and the control link keep memory in its canonical form. -/

set_option Elab.async false

namespace Sys2Proof.Machine

open Sys2Proof.Laws

@[simp] theorem memWf_dispose (s : State) (die : Nat) (d : Disposal) : (dispose s die d).memWf = s.memWf := by simp [dispose]

@[simp] theorem memWf_chargeDarn (s : State) (b : Darn) : (chargeDarn s b).memWf = s.memWf := by simp [chargeDarn]

@[simp] theorem memWf_fillDarn (s : State) (b : Darn) (h : Head) (f : Fragment) : (fillDarn s b h f).memWf = s.memWf := by
  unfold fillDarn
  dsimp only
  (repeat' split) <;> simp

@[simp] theorem memWf_arrive (s : State) (f : Fragment) : (arrive s f).memWf = s.memWf := by
  unfold arrive
  dsimp only
  (repeat' split) <;> simp

theorem outWf_execFragmentArrival {s : State} (h : s.memWf = true) (f : Fragment) : OutWf (execFragmentArrival f s) := by
  unfold execFragmentArrival
  split
  · exact memWf_inPart h _ fun t ht => (memWf_arrive t f).trans ht
  · exact (memWf_dispose ..).trans h

@[simp] theorem outWf_execDarnDecode (n : Nat) (s : State) (h : s.memWf = true) : OutWf (execDarnDecode n s) := by
  unfold execDarnDecode
  dsimp only
  (repeat' split) <;> simp [h]

@[simp] theorem memWf_freeDarn (s : State) (b : Darn) (close : Bool) : (freeDarn s b close).memWf = s.memWf := rfl

@[simp] theorem memWf_startDelivery (s : State) (b : Darn) (again : Bool) : (startDelivery s b again).memWf = s.memWf := by
  unfold startDelivery
  split <;> rfl

theorem memWf_deliverColl {s : State} (h : s.memWf = true) (b : Darn) : (deliverColl s b).memWf = true := by
  have hf := (memWf_freeDarn s b true).trans h
  unfold deliverColl
  dsimp only
  split
  · exact memWf_ite hf h
  next n c _ =>
    split
    · exact hf
    next x _ =>
      refine memWf_ite ?_ h
      have h1 := fun again => (memWf_startDelivery s b again).trans h
      refine memWf_ite ((memWf_dataDone ..).trans ?_) (memWf_ite (memWf_passDone (h1 _) ..) (memWf_sumDone (h1 _) ..))
      exact memWf_ite ((memWf_touchMembers ..).trans (h1 _)) (h1 _)

@[simp] theorem memWf_freeDelivered (s : State) : (freeDelivered s).memWf = s.memWf := by
  unfold freeDelivered
  exact foldl_keeps (f := State.memWf) (fun t b => memWf_freeDarn t b true) _ s

@[simp] theorem memWf_requestReport (s : State) (q : Nat) : (requestReport s q).memWf = s.memWf := by
  unfold requestReport
  split <;> rfl

@[simp] theorem memWf_reportAt (s : State) (w : Nat) : (reportAt s w).memWf = s.memWf := by
  unfold reportAt
  dsimp only
  (repeat' split) <;> simp

@[simp] theorem memWf_commitPacket (s : State) (w : Nat) : (commitPacket s w).memWf = s.memWf := by
  unfold commitPacket
  split <;> simp

theorem outWf_execMessageDelivery {s : State} (h : s.memWf = true) (n : Nat) : OutWf (execMessageDelivery n s) := by
  unfold execMessageDelivery
  split
  · exact h
  next b _ =>
    have hf := (memWf_freeDarn s b true).trans h
    refine outWf_ite h ?_
    split
    · exact h
    · exact (memWf_commitPacket ..).trans hf
    · exact hf
    · exact hf
    · exact outWf_ite (memWf_inVC h _ fun t ht => memWf_deliverColl ht b) h

@[simp] theorem memWf_orphanFault (s : State) (cause : Nat) : (orphanFault s cause).memWf = s.memWf := rfl

@[simp] theorem memWf_lossFault (s : State) (n : Option (Nat × Coll)) : (lossFault s n).memWf = s.memWf := by
  unfold lossFault
  dsimp only
  (repeat' split) <;> simp

theorem outWf_execUnrecoverableLoss {s : State} (h : s.memWf = true) (n : Nat) : OutWf (execUnrecoverableLoss n s) := by
  unfold execUnrecoverableLoss
  split
  next b _ =>
    have hf := (memWf_freeDarn s b true).trans h
    refine outWf_ite h ?_
    dsimp only
    split
    · exact (memWf_orphanFault ..).trans hf
    · refine outWf_ite ((memWf_orphanFault ..).trans hf) ?_
      exact memWf_inVC hf _ fun t ht => (memWf_lossFault ..).trans ht
  next =>
    split
    · exact (memWf_drainAgain ..).trans h
    · exact outWf_ite ((memWf_lossFault ..).trans h) h

@[simp] theorem memWf_barrierReport (s : State) (l : Level) (b detail : Nat) : (barrierReport s l b detail).memWf = s.memWf := by
  unfold barrierReport
  split <;> rfl

@[simp] theorem memWf_reportArrivals (s : State) (l : Level) (b : Nat) : (reportArrivals s l b).memWf = s.memWf := by
  unfold reportArrivals
  split <;> simp

@[simp] theorem outWf_sstepLock (s : State) (l : Level) (h : s.memWf = true) : OutWf (sstepLock s l) := by
  unfold sstepLock
  dsimp only
  (repeat' split) <;> simp [h]

@[simp] theorem outWf_sstepElastic (s : State) (l : Level) (h : s.memWf = true) : OutWf (sstepElastic s l) := by
  unfold sstepElastic
  dsimp only
  (repeat' split) <;> simp [h]

@[simp] theorem outWf_sstepOp (s : State) (l : Level) (h : s.memWf = true) : OutWf (sstepOp s l) := by
  unfold sstepOp
  split <;> simp [h]

@[simp] theorem outWf_execDomSet (ra : BitVec 6) (s : State) (h : s.memWf = true) : OutWf (execDomSet ra s) := by simp [execDomSet, h]

@[simp] theorem outWf_execDomGet (rd : BitVec 6) (s : State) (h : s.memWf = true) : OutWf (execDomGet rd s) := by simp [execDomGet, h]

@[simp] theorem memWf_releaseDomain (s : State) (l : Level) (d b : Nat) : (releaseDomain s l d b).memWf = s.memWf := rfl

@[simp] theorem memWf_barrierFaults (s : State) (vs : List VC) (d : Nat) : (barrierFaults s vs d).memWf = s.memWf := by
  unfold barrierFaults
  exact foldl_keeps (f := State.memWf) (fun t v => by exact memWf_flightFault t _ _ _ _ _ _) _ s

@[simp] theorem memWf_takeLate (s : State) (l : Level) (b : Nat) : (takeLate s l b).memWf = s.memWf := rfl

@[simp] theorem memWf_checkLock (s : State) (l : Level) (d : Nat) : (checkLock s l d).memWf = s.memWf := by
  unfold checkLock
  dsimp only
  (repeat' split) <;> simp

@[simp] theorem memWf_checkElastic (s : State) (l : Level) (d : Nat) : (checkElastic s l d).memWf = s.memWf := by
  unfold checkElastic
  dsimp only
  (repeat' split) <;> simp

theorem outWf_execBarrierRelease {s : State} (h : s.memWf = true) (l : Level) : OutWf (execBarrierRelease l s) := by
  unfold execBarrierRelease
  refine memWf_foldl _ (fun t d ht => ?_) _ h
  split
  · exact (memWf_checkLock ..).trans ht
  · exact (memWf_checkElastic ..).trans ht

@[simp] theorem outWf_execOpeningAlignmentBarrier (s : State) (h : s.memWf = true) : OutWf (execOpeningAlignmentBarrier s) := by
  unfold execOpeningAlignmentBarrier
  split <;> simp [h]

@[simp] theorem memWf_sendReport (s : State) (w : Nat) : (sendReport s w).memWf = s.memWf := by simp [sendReport]

@[simp] theorem memWf_flushReports (s : State) : (flushReports s).memWf = s.memWf := by
  unfold flushReports
  exact foldl_keeps (f := State.memWf) (fun t w => by exact memWf_sendReport t w) _ { s with part.reports := [] }

@[simp] theorem memWf_requestAt (s : State) (b : Nat) : (requestAt s b).memWf = s.memWf := by
  unfold requestAt
  dsimp only
  (repeat' split) <;> simp

@[simp] theorem memWf_request (s : State) : (request s).memWf = s.memWf := by simp [request]

@[simp] theorem memWf_checkQuota (s : State) (b : Nat) : (checkQuota s b).memWf = s.memWf := by
  unfold checkQuota
  split <;> simp

@[simp] theorem memWf_addAccount (s : State) (owner : Option LaunchTag) (n amount : Nat) :
    (addAccount s owner n amount).memWf = s.memWf := by
  unfold addAccount
  dsimp only
  (repeat' split) <;> simp

@[simp] theorem memWf_enterCharge (s : State) (c : Charge) : (enterCharge s c).memWf = s.memWf := by
  unfold enterCharge
  split <;> simp

@[simp] theorem memWf_enterCharges (s : State) : (enterCharges s).memWf = s.memWf := by
  unfold enterCharges
  exact foldl_keeps (f := State.memWf) (fun t c => by exact memWf_enterCharge t c) _ { s with part.charges := [] }

@[simp] theorem outWf_execChargeEntry (s : State) (h : s.memWf = true) : OutWf (execChargeEntry s) := by
  unfold execChargeEntry
  split <;> simp [h]

theorem outWf_execAccountingIntervalEnd {s : State} (h : s.memWf = true) (ref leak pidle : Nat) :
    OutWf (execAccountingIntervalEnd ref leak pidle s) := by
  have h1 : (s.partIds.foldl (fun t q => inPart t q (fun u =>
      { u with part.shared := u.part.shared + sharesOf u u.part ref leak pidle })) s).memWf = true := by
    refine memWf_foldl _ (fun t q ht => memWf_inPart ht q fun u hu => ?_) _ h
    exact memWf_congr hu rfl rfl
  exact memWf_congr h1 rfl rfl

theorem outWf_closeInterval {s : State} (h : s.memWf = true) (before : Nat) : OutWf (closeInterval s before) :=
  outWf_ite h (outWf_execAccountingIntervalEnd h ..)

@[simp] theorem memWf_takeCoefs (s : State) : (takeCoefs s).memWf = s.memWf := by
  unfold takeCoefs
  split <;> rfl

@[simp] theorem outWf_execCoefficientSetEffect (s : State) (h : s.memWf = true) :
    OutWf (execCoefficientSetEffect s) := by simp [execCoefficientSetEffect, h]

@[simp] theorem memWf_endPartBeat (s : State) (b : Nat) : (endPartBeat s b).memWf = s.memWf := by simp [endPartBeat]

@[simp] theorem memWf_catchUpOne (old s : State) (q : Nat) : (catchUpOne old s q).memWf = s.memWf := by
  unfold catchUpOne
  refine apply_ite_memWf ?_ rfl
  dsimp only
  split
  · exact apply_ite_memWf rfl rfl
  · rfl

@[simp] theorem memWf_catchUp (old s : State) : (catchUp old s).memWf = s.memWf := by
  unfold catchUp
  exact foldl_keeps (f := State.memWf) (fun t q => by exact memWf_catchUpOne old t q) _ s

@[simp] theorem memWf_beginQuantum (s : State) (q : Nat) : (beginQuantum s q).memWf = s.memWf := by
  unfold beginQuantum
  split <;> rfl

@[simp] theorem memWf_resumeLaunch (s : State) : (resumeLaunch s).memWf = s.memWf := rfl

@[simp] theorem memWf_takeClasses (s : State) : (takeClasses s).memWf = s.memWf := rfl

@[simp] theorem memWf_runOn (s : State) (r : Nat) : (runOn s r).memWf = s.memWf := by
  unfold runOn
  dsimp only
  (repeat' split) <;> simp

@[simp] theorem memWf_decision (s : State) : (decision s).memWf = s.memWf := by
  unfold decision
  dsimp only
  (repeat' split) <;> simp

@[simp] theorem outWf_execSchedulerDecision (s : State) (h : s.memWf = true) :
    OutWf (execSchedulerDecision s) := by simp [execSchedulerDecision, h]

@[simp] theorem outWf_execQuantumEnd (s : State) (h : s.memWf = true) : OutWf (execQuantumEnd s) := by
  unfold execQuantumEnd
  split <;> simp [h]

@[simp] theorem memWf_reply (s : State) (st : Status) (d : List Word64) : (reply s st d).memWf = s.memWf := rfl

theorem memWf_inPartReply {s : State} (h : s.memWf = true) (q : Nat) {f : State → State × Status}
    (hf : ∀ t, t.memWf = true → (f t).1.memWf = true) : (inPartReply s q f).memWf = true := by
  unfold inPartReply
  split
  · exact (memWf_reply ..).trans h
  next s1 h1 =>
    have h2 := hf s1 (memWf_focusPart h h1)
    dsimp only
    split
    next h3 => exact (memWf_reply ..).trans (memWf_focusPart h2 h3)
    · exact (memWf_reply ..).trans h2

/-- A tail takes its value, or is refused. -/
theorem memWf_tailTaken {t : State} (h : t.memWf = true) (ok : Bool) (n : Nat) (w : Word64) :
    (if ok then (catchUp t (setQword t n 2 w), Status.done) else (t, Status.refused)).1.memWf = true := by
  split
  · exact (memWf_catchUp ..).trans ((memWf_setQword ..).trans h)
  · exact h

theorem outWf_tailWrite {s : State} (h : s.memWf = true) (c : Bool) (p n : Nat) (ok : State → Bool) (w : State → Word64) :
    OutWf (if c = false then .next (reply s .notPermitted)
      else .next (inPartReply s p (fun t => if ok t then (catchUp t (setQword t n 2 (w t)), .done) else (t, .refused)))) :=
  outWf_ite h (memWf_inPartReply h _ fun _ ht => memWf_tailTaken ht _ _ _)

theorem outWf_execQueueTailWrite {s : State} (h : s.memWf = true) (fn : BitVec 5) (q : BitVec 15) (v : BitVec 32) :
    OutWf (execQueueTailWrite fn q v s) :=
  outWf_tailWrite h _ _ _ (fun t => tailOk t q.toNat v.toNat) (fun t => w64 (qprogress t q.toNat * 2 ^ 32 + v.toNat))

@[simp] theorem outWf_execPreemptionRequest (s : State) (h : s.memWf = true) :
    OutWf (execPreemptionRequest s) := by simp [execPreemptionRequest, h]

@[simp] theorem memWf_park (s : State) (d : List Word64) : (park s d).memWf = s.memWf := by simp [park]

theorem outWf_safeGo {s : State} (h : s.memWf = true) (a : Word64) {done : State → State}
    (hd : ∀ t, t.memWf = true → (done t).memWf = true) : OutWf (safeGo s a done) := by
  refine outWf_ite (outWf_ctlFault h _ _ _) (outWf_ite (outWf_ctlFault h _ _ _) ?_)
  refine outWf_memThen (s := s) (memWf_ctlLoadWords h _ _) fun t d ht => ?_
  exact outWf_ite (outWf_ctlFault ht _ _ _) (outWf_ite (hd _ ((memWf_park ..).trans ht)) ht)

theorem outWf_execSafept {s : State} (h : s.memWf = true) (ra : BitVec 6) : OutWf (execSafept ra s) := by
  unfold execSafept
  refine outWf_restricted h ?_
  split
  · exact outWf_ite (outWf_safeGo h _ fun _ ht => ht) (outWf_sysNext _ h)
  · split
    · exact outWf_sysNext _ h
    · refine outWf_ite (outWf_safeGo h _ fun t ht => ?_) (outWf_sysNext _ ?_)
      · exact memWf_congr ht rfl rfl
      · exact memWf_congr h rfl rfl

@[simp] theorem outWf_execYield (s : State) (h : s.memWf = true) : OutWf (execYield s) := by
  unfold execYield
  dsimp only
  (repeat' split) <;> simp [h]

@[simp] theorem outWf_execPchk (rd : BitVec 6) (s : State) (h : s.memWf = true) : OutWf (execPchk rd s) := by simp [execPchk, h]

theorem memWf_leaveCore {s : State} (h : s.memWf = true) : (leaveCore s).memWf = true :=
  memWf_congr (memWf_flushFifo h) rfl rfl

theorem memWf_leaveCores {s : State} (h : s.memWf = true) (vs : List VC) :
    (vs.foldl (fun t v => inVC t v.id leaveCore) s).memWf = true :=
  memWf_foldl _ (fun _ _ ht => memWf_inVC ht _ fun _ hu => memWf_leaveCore hu) _ h

@[simp] theorem memWf_preemptStep (s : State) : (preemptStep s).memWf = s.memWf := by
  unfold preemptStep
  split <;> rfl

theorem memWf_switchOut {s : State} (h : s.memWf = true) (forced : Bool) : (switchOut s forced).memWf = true := by
  have h1 := (memWf_enterCharges _).trans (memWf_leaveCores h s.vcs)
  exact memWf_congr h1 rfl rfl

@[simp] theorem memWf_stayInPlace (s : State) : (stayInPlace s).memWf = s.memWf := by
  unfold stayInPlace
  split <;> rfl

theorem memWf_saveIfParked {s : State} (h : s.memWf = true) : (saveIfParked s).memWf = true := by
  have hs := memWf_switchOut h
  unfold saveIfParked
  refine memWf_ite (memWf_ite (hs _) h) (memWf_ite h (memWf_ite (memWf_ite (hs _) ?_) (memWf_ite ?_ h)))
  · exact (memWf_stayInPlace s).trans h
  · exact (memWf_preemptStep s).trans h

theorem outWf_execForcedSave {s : State} (h : s.memWf = true) : OutWf (execForcedSave s) := by
  have h1 : State.memWf (match s.launch.frozen with
      | none => { s with launch.frozen := some (s.vc.now - 1) }
      | some _ => s) = true := by
    split
    · exact h
    · exact h
  unfold execForcedSave
  refine outWf_ite h (outWf_ite ?_ (outWf_ite h1 (memWf_ite (memWf_switchOut h1 _) ?_)))
  · exact (memWf_preemptStep _).trans h1
  · exact (memWf_stayInPlace _).trans h1

@[simp] theorem memWf_thaw (s : State) : (thaw s).memWf = s.memWf := by
  unfold thaw
  split <;> rfl

@[simp] theorem memWf_asDevice (s t : State) : (asDevice s t).memWf = t.memWf := rfl

theorem memWf_schedLine {s : State} (h : s.memWf = true) (va n : Nat) : (schedLine s va n).1.memWf = true := by
  have hl := memWf_translate_left h va .read
  unfold schedLine
  split
  · exact h
  · split
    · exact h
    · split
      next s1 pa e hr =>
        have h1 : s1.memWf = true := memWf_left_of_eq hr hl
        split
        · exact h1
        · change (if e.vb then vRead s1 e.frame (pa - e.frame) n else homeRead s1 pa n).1.memWf = true
          split
          · exact memWf_vRead h1 _ _ _
          · exact (memWf_homeRead ..).trans h1
      next hr => exact (memWf_left_of_eq hr hl :)
      next hr => exact (memWf_left_of_eq hr hl :)

theorem memWf_schedLines {s : State} (h : s.memWf = true) (va n fuel : Nat) : (schedLines s va n fuel).1.memWf = true := by
  induction fuel generalizing s va n with
  | zero => exact h
  | succ fuel ih =>
    have hl := fun k => memWf_schedLine h va k
    unfold schedLines
    split
    · exact h
    · dsimp only
      split
      next hr => exact (memWf_fst_of_eq hr (hl _) :)
      next hr =>
        have h2 := fun a b => ih (memWf_fst_of_eq hr (hl _) :) a b
        split
        next hr => exact (memWf_fst_of_eq hr (h2 _ _) :)
        next hr => exact (memWf_fst_of_eq hr (h2 _ _) :)

theorem memWf_schedRead {s : State} (h : s.memWf = true) (va n : Nat) : (schedRead s va n).1.memWf = true := by
  have h1 := memWf_schedLines h va n (n / 128 + 2)
  unfold schedRead
  exact (memWf_asDevice s _).trans h1

theorem memWf_fst_ite {α : Type} {c : Prop} [Decidable c] {p q : State × α} (hp : p.1.memWf = true) (hq : q.1.memWf = true) :
    (if c then p else q).1.memWf = true := by
  split
  · exact hp
  · exact hq

theorem memWf_initEntry {s : State} (h : s.memWf = true) (base i bound : Nat) : (initEntry s base i bound).1.memWf = true := by
  have hl := memWf_schedRead h (base + 16 * i) 16
  unfold initEntry
  split
  next hr => exact (memWf_fst_of_eq hr hl :)
  next s1 b hr =>
    have h1 : s1.memWf = true := memWf_fst_of_eq hr hl
    have h2 := fun a n => memWf_schedRead h1 a n
    refine memWf_fst_ite h1 (memWf_fst_ite h1 ?_)
    dsimp only
    split
    next hr => exact (memWf_fst_of_eq hr (h2 _ _) :)
    next hr => exact (memWf_fst_of_eq hr (h2 _ _) :)

theorem memWf_initEntries {s : State} (h : s.memWf = true) (base i bound n : Nat) :
    (initEntries s base i bound n).1.memWf = true := by
  induction n generalizing s i bound with
  | zero => exact h
  | succ n ih =>
    have hl := memWf_initEntry h base i bound
    unfold initEntries
    split
    next hr => exact (memWf_fst_of_eq hr hl :)
    next hr => exact (memWf_fst_of_eq hr hl :)
    next hr =>
      have h2 := fun b => ih (memWf_fst_of_eq hr hl :) (i + 1) b
      split
      next hr => exact (memWf_fst_of_eq hr (h2 _) :)
      next hr => exact (memWf_fst_of_eq hr (h2 _) :)

@[simp] theorem memWf_startLaunch (s : State) (q c : Nat) (d : List Word64) (es : List InitE) :
    (startLaunch s q c d es).memWf = s.memWf := rfl

@[simp] theorem memWf_sendLaunchMsg (owner : Option LaunchTag) (s : State) (q dst : Nat) (d : List Byte) :
    (sendLaunchMsg owner s q dst d).memWf = s.memWf := by simp [sendLaunchMsg]

@[simp] theorem memWf_sendPackets (s : State) (q c : Nat) (d : List Word64) : (sendPackets s q c d).memWf = s.memWf := by
  unfold sendPackets
  exact apply_ite_memWf rfl (foldl_keeps (f := State.memWf) (fun t i => by exact memWf_sendLaunchMsg ..) _ s)

@[simp] theorem memWf_slotWords (s : State) (pa : Nat) : (slotWords s pa).1.memWf = s.memWf := by simp [slotWords]

theorem outWf_completeSlot {s : State} (h : s.memWf = true) (q c status cause detail : Nat) :
    OutWf (completeSlot s q c status cause detail) := by
  rcases hc : completeSlot s q c status cause detail with t | f | r
  · exact memWf_completeSlot h hc
  · trivial
  · trivial

/-- The entries of the init directory, where the record names one. -/
theorem memWf_initDir {s : State} (h : s.memWf = true) (base : Nat) :
    (if base = 0 then (s, .ok []) else initEntries s base 0 0 64 : State × Except (Nat × Nat) (List InitE)).1.memWf = true := by
  split
  · exact h
  · exact memWf_initEntries h ..

theorem outWf_dispatchSlot {s : State} (h : s.memWf = true) (q : Nat) : OutWf (dispatchSlot s q) := by
  have h0 : State.memWf { s with part.chosen := none } = true := h
  unfold dispatchSlot
  refine outWf_ite trivial (outWf_ite (outWf_completeSlot h0 _ _ _ _ _) ?_)
  have h1 := fun pa => (memWf_slotWords { s with part.chosen := none } pa).trans h0
  dsimp only
  split
  · exact outWf_completeSlot (h1 _) _ _ _ _ _
  · refine outWf_ite (outWf_completeSlot (h1 _) _ _ _ _ _) ?_
    have h2 := fun pa base => memWf_initDir (h1 pa) base
    split
    next hr => exact outWf_completeSlot (memWf_fst_of_eq hr (h2 _ _) :) _ _ _ _ _
    next hr =>
      have h3 := (memWf_fst_of_eq hr (h2 _ _) :)
      split
      · exact outWf_completeSlot h3 _ _ _ _ _
      · exact (memWf_sendPackets ..).trans ((memWf_beginQuantum ..).trans ((memWf_startLaunch ..).trans h3))

@[simp] theorem memWf_resumeSaved (s : State) (x : Saved) : (resumeSaved s x).memWf = s.memWf := by
  unfold resumeSaved
  split <;> simp

theorem outWf_execLaunchDispatch {s : State} (h : s.memWf = true) (q : BitVec 15) : OutWf (execLaunchDispatch q s) := by
  unfold execLaunchDispatch
  refine outWf_ite h (outWf_ite h ?_)
  split
  · exact (memWf_resumeSaved ..).trans h
  · exact outWf_dispatchSlot h _

theorem memWf_appendPacket {s : State} (h : s.memWf = true) (q : Nat) (d : List Byte) : (appendPacket s q d).memWf = true := by
  unfold appendPacket
  exact (memWf_catchUp ..).trans (memWf_congr (memWf_deviceWrite h (fld (qword s q 0) 55 0 + 64 * (qtail s q % qslots s q)) d) rfl rfl)

theorem outWf_execLaunchPacketReceive {s : State} (h : s.memWf = true) (q : BitVec 15) (ws : List (BitVec 64)) :
    OutWf (execLaunchPacketReceive q ws s) :=
  memWf_inPart h _ fun _ ht => memWf_ite (memWf_appendPacket ht _ _) ht

theorem outWf_packetRefused {s : State} (h : s.memWf = true) (q : Nat) : OutWf (packetRefused s q) := by
  unfold packetRefused
  refine outWf_ite (outWf_endLaunch h _ _ _) ?_
  split
  · refine outWf_completeSlot ((memWf_keepDrains ..).trans ?_) _ _ _ _ _
    exact h
  · exact h

theorem outWf_launchMsg {s : State} (h : s.memWf = true) (m : List Nat × List Byte) : OutWf (launchMsg s m) :=
  outWf_ite (outWf_packetRefused h _) (outWf_ite (memWf_appendPacket h _ _) ((memWf_sendLaunchMsg ..).trans h))

theorem outWf_packetsIn {s : State} (h : s.memWf = true) : OutWf (packetsIn s) := by
  unfold packetsIn
  split
  · exact h
  · refine outWf_launchMsg ?_ _
    exact h

/-- One more atomic of the virtual core in focus is performed. -/
theorem memWf_performOne {s : State} (h : s.memWf = true) (n : Nat) : State.memWf (match execAtomicHomePortPerform n s with
    | .next u => u
    | _ => s) = true := by
  have ho := outWf_execAtomicHomePortPerform h n
  split
  next hr => rw [hr] at ho; exact ho
  · exact h

theorem memWf_settleAtomics {s : State} (h : s.memWf = true) : (settleAtomics s).memWf = true :=
  memWf_foldl _ (fun _ _ ht => memWf_performOne ht _) _ h

theorem memWf_savedAtomics {s : State} (h : s.memWf = true) : (savedAtomics s).memWf = true := by
  unfold savedAtomics
  refine memWf_foldl _ (fun t x ht => memWf_inSaved ht _ fun u hu => ?_) _ h
  exact memWf_foldl _ (fun w v hw => memWf_inVC hw _ fun y hy => memWf_performOne hy _) _ hu

theorem outWf_execLaunchCompletion {s : State} (h : s.memWf = true) : OutWf (execLaunchCompletion s) := by
  have h1 : (s.vcs.foldl (fun t v => inVC t v.id settleAtomics) s).memWf = true :=
    memWf_foldl _ (fun _ _ ht => memWf_inVC ht _ fun _ hu => memWf_settleAtomics hu) _ h
  have h2 := fun vs => memWf_leaveCores h1 vs
  unfold execLaunchCompletion
  refine outWf_ite ?_ h
  dsimp only
  generalize s.vcs.foldl (fun t v => inVC t v.id settleAtomics) s = s0 at h1 h2 ⊢
  refine outWf_ite h1 (outWf_endLaunch ?_ _ _ _)
  exact memWf_congr (h2 s0.vcs) rfl rfl

theorem memWf_vfReply {s : State} (h : s.memWf = true) (fn : BitVec 5) {f : State → State × Status}
    (hf : ∀ t, t.memWf = true → (f t).1.memWf = true) : (vfReply s fn f).memWf = true :=
  memWf_ite h (memWf_inPartReply h _ hf)

theorem memWf_accept {s t : State} (h : s.memWf = true) (ok : Bool) (ht : t.memWf = true) : (accept s ok t).1.memWf = true := by
  cases ok
  · exact h
  · exact ht

/-- A memory in canonical form takes the place of one of the partition in focus. -/
theorem memWf_of_mem {s t : State} (h : s.memWf = true) (hm : Memory.wf t.part.mem = true) (ho : t.others = s.others) :
    t.memWf = true := by
  refine (memWf_iff t).mpr ⟨hm, ?_⟩
  rw [ho]
  exact ((memWf_iff s).mp h).2

theorem outWf_execHmaskWrite {s : State} (h : s.memWf = true) (fn : BitVec 5) (i : BitVec 4) (v : BitVec 64) :
    OutWf (execHmaskWrite fn i v s) :=
  outWf_ite h (memWf_vfReply h _ fun _ ht => memWf_accept ht _ (memWf_of_mem ht rfl rfl))

theorem memWf_tlbinvWrite {s : State} (h : s.memWf = true) (fn : BitVec 5) (v : Word64) : (tlbinvWrite s fn v).memWf = true :=
  memWf_vfReply h _ fun _ ht => memWf_accept ht _ (memWf_congr ht rfl rfl)

theorem outWf_execTlbinvPartition {s : State} (h : s.memWf = true) (fn : BitVec 5) (v : BitVec 64) : OutWf (execTlbinvPartition fn v s) :=
  memWf_tlbinvWrite h fn v

theorem outWf_execTlbinvPage {s : State} (h : s.memWf = true) (fn : BitVec 5) (v : BitVec 64) : OutWf (execTlbinvPage fn v s) :=
  memWf_tlbinvWrite h fn v

@[simp] theorem outWf_execTlbinvDone (s : State) (h : s.memWf = true) : OutWf (execTlbinvDone s) := by simp [execTlbinvDone, h]

@[simp] theorem outWf_execTranslationWalkComplete (va : BitVec 64) (s : State) (h : s.memWf = true) :
    OutWf (execTranslationWalkComplete va s) := by
  unfold execTranslationWalkComplete
  split <;> simp [h]

theorem memWf_setGroup {s : State} (h : s.memWf = true) (g : Nat) (d : List Word64) : (setGroup s g d).memWf = true := by
  have h1 : ((d.zip (countUp 0 8)).foldl (fun t p => setGroupWord t g p.2 p.1) s).memWf = true :=
    memWf_foldl _ (fun t (p : Word64 × Nat) ht => (memWf_setGroupWord t g p.2 p.1).trans ht) _ h
  unfold setGroup
  refine memWf_ite h1 (memWf_foldl _ (fun t x ht => ?_) _ (memWf_treesRebuilt h1 g))
  exact memWf_inSaved ht _ fun u hu => memWf_treesRebuilt hu g

@[simp] theorem memWf_setQuota (s : State) (v : Word64) : (setQuota s v).memWf = s.memWf :=
  apply_ite_memWf (memWf_catchUp ..) rfl

theorem memWf_writeVF {s : State} (h : s.memWf = true) (r : Reg) (v : Word64) : (writeVF s r v).1.memWf = true := by
  cases r with
  | group g rest =>
    unfold writeVF
    dsimp only
    split
    · exact h
    · exact memWf_accept h _ (memWf_setGroup h _ _)
  | equota => exact (memWf_setQuota ..).trans h
  | ctrBase => exact memWf_accept h _ ((memWf_updVC ..).trans h)
  | ctrSize => exact memWf_accept h _ ((memWf_updVC ..).trans h)
  | ctrWrap => exact memWf_accept h _ ((memWf_updVC ..).trans h)
  | ptroot => exact memWf_accept h _ h
  | vsbase => exact memWf_accept h _ h
  | vsize => exact memWf_accept h _ h
  | dlallow => exact memWf_accept h _ h
  | ctxbase => exact memWf_accept h _ h
  | ctxn => exact memWf_accept h _ h
  | estat => exact memWf_accept h _ h
  | bp => exact memWf_accept h _ h
  | _ => exact h

@[simp] theorem memWf_putQueueWord (s : State) (q w : Nat) (v : Word64) : (putQueueWord s q w v).memWf = s.memWf :=
  apply_ite_memWf rfl (apply_ite_memWf rfl rfl)

theorem memWf_queueRecWrite {s : State} (h : s.memWf = true) (q w : Nat) (v : Word64) : (queueRecWrite s q w v).memWf = true := by
  unfold queueRecWrite
  refine memWf_ite ?_ h
  dsimp only
  split
  · exact memWf_inPart h _ fun t ht => (memWf_catchUp ..).trans ((memWf_putQueueWord ..).trans ht)
  · exact (memWf_putQueueWord ..).trans h

theorem outWf_execRegisterWrite {s : State} (h : s.memWf = true) (fn : BitVec 5) (r : Reg) (v : BitVec 64) :
    OutWf (execRegisterWrite fn r v s) := by
  unfold execRegisterWrite
  split
  · exact h
  · exact h
  · exact h
  · exact h
  · exact outWf_ite h (outWf_ite h h)
  · exact outWf_ite (memWf_queueRecWrite h ..) h
  · exact outWf_ite h h
  · exact memWf_vfReply h _ fun t ht => memWf_writeVF ht _ _

theorem outWf_execEusedClear {s : State} (h : s.memWf = true) (fn : BitVec 5) (v : BitVec 64) : OutWf (execEusedClear fn v s) :=
  memWf_vfReply h _ fun _ ht => memWf_accept ht _ ((memWf_setQuota ..).trans ht)

theorem outWf_execCounterClear {s : State} (h : s.memWf = true) (fn : BitVec 5) (c : Counter) (v : BitVec 64) :
    OutWf (execCounterClear fn c v s) :=
  memWf_vfReply h _ fun _ ht => memWf_accept ht _ ht

theorem outWf_execControlLinkMemoryWrite {s : State} (h : s.memWf = true) (fn : BitVec 5) (pa : Nat) (d : List (BitVec 8)) :
    OutWf (execControlLinkMemoryWrite fn pa d s) := by
  refine memWf_vfReply h _ fun t ht => ?_
  split
  · exact memWf_deviceWrite ht _ _
  · exact ht

theorem outWf_execControlLinkMemoryRead {s : State} (h : s.memWf = true) (fn : BitVec 5) (pa n : Nat) :
    OutWf (execControlLinkMemoryRead fn pa n s) := by
  unfold execControlLinkMemoryRead
  refine outWf_ite h ?_
  split
  · exact h
  · exact outWf_ite (memWf_inPart h _ fun u hu => (memWf_deviceRead u pa n).trans hu) h

@[simp] theorem memWf_handAll (s : State) : (handAll s).memWf = s.memWf := rfl

@[simp] theorem memWf_handOut (s : State) : (handOut s).memWf = s.memWf := rfl

theorem memWf_loseLine {s : State} (h : s.memWf = true) (line : Nat) : (loseLine s line).memWf = true := by
  have h1 := fun d => memWf_physWrite h (128 * line) d
  unfold loseLine
  generalize (countUp 0 128).map (fun i => Config.lostByte s.fresh i) = d
  exact memWf_congr (h1 d) rfl rfl

theorem memWf_loseDirty {s : State} (h : s.memWf = true) : (loseDirty s).memWf = true :=
  memWf_foldl _ (fun _ _ ht => memWf_loseLine ht _) _ h

theorem memWf_repairRows {s : State} (h : s.memWf = true) : (repairRows s).memWf = true :=
  memWf_congr (memWf_foldl loseLine (fun _ _ ht => memWf_loseLine ht _) s.part.poison h) rfl rfl

@[simp] theorem memWf_replaceCore (s : State) (u k : Nat) : (replaceCore s u k).memWf = s.memWf := by
  unfold replaceCore
  dsimp only
  (repeat' split) <;> simp

@[simp] theorem memWf_replaceMarked (s : State) : (replaceMarked s).memWf = s.memWf := by
  unfold replaceMarked
  exact foldl_keeps (f := State.memWf) (fun t c => by exact memWf_replaceCore t _ _) _ s

/-- A marked row gives way to a spare one. -/
theorem memWf_replaceRow (t : State) (rows : List Nat) (k c used : Nat) : State.memWf
    (let t1 : State := { t with dev.rows := rows }
     if used < 8 then { t1 with dev.rowSpares := mput 0 t1.dev.rowSpares k (used + 1) }
     else if t1.dev.marked.contains c then t1
     else { t1 with dev.marked := t1.dev.marked ++ [c] }) = t.memWf :=
  apply_ite_memWf rfl (apply_ite_memWf rfl rfl)

@[simp] theorem memWf_replaceRows (s : State) : (replaceRows s).memWf = s.memWf := by
  unfold replaceRows
  exact foldl_keeps (f := State.memWf) (fun t k => by exact memWf_replaceRow t _ _ _ _) _ s

@[simp] theorem memWf_retireSlices (s : State) : (retireSlices s).memWf = s.memWf := rfl

/-- What a reset leaves of memory before the rest of the partition is cleared. -/
theorem memWf_wiped {s : State} (h : s.memWf = true) : State.memWf (if s.part.scrub then
      chargeTo { s with part.mem := [], part.poison := [], part.blocks := [] } none .hbm (s.cp / 128)
    else repairRows { loseDirty s with part.blocks := s.part.blocks.map (fun p => (p.1, { p.2 with copy := false })) }) = true := by
  split
  · exact (memWf_chargeTo ..).trans (memWf_of_mem h rfl rfl)
  · exact memWf_repairRows (memWf_congr (memWf_loseDirty h) rfl rfl)

theorem memWf_wipePart {s : State} (h : s.memWf = true) : (wipePart s).memWf = true := by
  have h1 := memWf_wiped h
  unfold wipePart
  exact (memWf_retireSlices _).trans ((memWf_replaceMarked _).trans ((memWf_replaceRows _).trans (memWf_congr h1 rfl rfl)))

@[simp] theorem memWf_clearValid (s : State) : (clearValid s).memWf = s.memWf := by
  unfold clearValid
  exact foldl_keeps (f := State.memWf) (fun t q => by exact memWf_setQword t q 3 _) _ s

theorem outWf_endAll {s : State} (h : s.memWf = true) : OutWf (endAll s) := by
  refine List.foldlRecOn _ _ (motive := OutWf) h fun o ho p _ => ?_
  split
  · exact outWf_completeSlot ho ..
  · exact ho

theorem wf_memFrom (np q : Nat) (l : List (Nat × Nat × Nat × Byte)) : Memory.wf (memFrom np q l) = true :=
  List.foldlRecOn _ _ (motive := fun m => Memory.wf m = true) rfl fun m hm x _ => mwf_mput byteDefault m _ _ hm

theorem memWf_resetBlock {s : State} (h : s.memWf = true) : (resetBlock s).memWf = true := by
  refine memWf_of_mem h ?_ rfl
  change Memory.wf (if s.part.hmask.isEmpty then s.part.mem else memFrom s.np s.part.idx (devBytes s)) = true
  split
  · exact ((memWf_iff s).mp h).1
  · exact wf_memFrom ..

theorem outWf_execFunctionResetComplete {s : State} (h : s.memWf = true) : OutWf (execFunctionResetComplete s) := by
  have ho := outWf_endAll (memWf_wipePart h)
  unfold execFunctionResetComplete
  refine outWf_ite h ?_
  split
  next t ht =>
    rw [ht] at ho
    exact memWf_congr (memWf_resetBlock ((memWf_clearValid t).trans ho)) rfl rfl
  · exact ho

theorem memWf_newLayout {s : State} (h : s.memWf = true) (lq : Nat) : (newLayout s lq).memWf = true := by
  have hw : ∀ (x : Slice) (r : List Slice) (np : Nat) (all : List (Nat × Nat × Nat × Byte)) (l : List Nat) (coefs : List Nat) (cset : Nat)
      (waiting : Option (Nat × List Nat)), l.map (fun i =>
        { freshSlice i (memFrom np i all) with part.coefs := coefs, part.cset := cset, part.nextCoefs := waiting }) = x :: r →
      ∀ y ∈ x :: r, Memory.wf y.part.mem = true := by
    intro x r np all l coefs cset waiting hx y hy
    rw [← hx] at hy
    obtain ⟨i, _, rfl⟩ := List.mem_map.mp hy
    exact wf_memFrom ..
  unfold newLayout
  dsimp only
  split
  · exact h
  next x r hx =>
    refine (memWf_iff _).mpr ⟨hw x r _ _ _ _ _ _ hx x (by simp), fun y hy => hw x r _ _ _ _ _ _ hx y (by simp [hy])⟩

theorem outWf_execPlayoutWrite {s : State} (h : s.memWf = true) (fn : BitVec 5) (v : BitVec 64) : OutWf (execPlayoutWrite fn v s) :=
  outWf_ite h (outWf_ite h (memWf_ite (memWf_newLayout h _) h))

theorem memWf_bindPart {s : State} (h : s.memWf = true) : (bindPart s).1.memWf = true :=
  memWf_accept h _ ((memWf_catchUp ..).trans h)

theorem memWf_unbindPart {s : State} (h : s.memWf = true) : (unbindPart s).1.memWf = true := memWf_accept h _ h

theorem memWf_startReset {s : State} (h : s.memWf = true) : (startReset s).memWf = true := by
  have hv := outWf_execDeviceVoteSend { s with part.outbox := [], part.reports := [], part.devVote := s.part.devVote ||| 512 } h
  unfold startReset
  refine memWf_congr (s := if s.part.openEp.isSome then _ else _) ?_ rfl rfl
  refine memWf_ite ?_ h
  split
  next t ht =>
    rw [ht] at hv
    exact memWf_congr ((memWf_closeEpoch ..).trans ((memWf_handAll t).trans hv)) rfl rfl
  · exact h

theorem memWf_resetPart {s : State} (h : s.memWf = true) : (resetPart s).1.memWf = true := memWf_accept h _ (memWf_startReset h)

/-- The command of a write of PCTL. -/
theorem memWf_pctlCommand {u : State} (h : u.memWf = true) (n : Nat) : (match n with
    | 0 => (u, Status.done)
    | 1 => bindPart u
    | 2 => unbindPart u
    | _ => resetPart u).1.memWf = true := by
  split
  · exact h
  · exact memWf_bindPart h
  · exact memWf_unbindPart h
  · exact memWf_resetPart h

theorem memWf_pctlWrite {s : State} (h : s.memWf = true) (fn : BitVec 5) (q : BitVec 4) (v : Word64) :
    (pctlWrite s fn q v).memWf = true := by
  unfold pctlWrite
  refine memWf_ite ?_ h
  split
  · exact h
  · refine memWf_inPartReply h _ fun t ht => ?_
    have hu : State.memWf { t with part.scrub := fld v 5 5 == 1 } = true := ht
    dsimp only
    split
    · exact ht
    · split
      · exact memWf_pctlCommand hu _
      · exact ht

theorem outWf_execPctlBind {s : State} (h : s.memWf = true) (fn : BitVec 5) (q : BitVec 4) (v : BitVec 64) :
    OutWf (execPctlBind fn q v s) :=
  memWf_pctlWrite h fn q v

theorem outWf_execPctlUnbind {s : State} (h : s.memWf = true) (fn : BitVec 5) (q : BitVec 4) (v : BitVec 64) :
    OutWf (execPctlUnbind fn q v s) :=
  memWf_pctlWrite h fn q v

theorem outWf_execPctlReset {s : State} (h : s.memWf = true) (fn : BitVec 5) (q : BitVec 4) (v : BitVec 64) :
    OutWf (execPctlReset fn q v s) :=
  memWf_pctlWrite h fn q v

@[simp] theorem outWf_execStretchChange (die : BitVec 2) (k : BitVec 5) (s : State) (h : s.memWf = true) :
    OutWf (execStretchChange die k s) := by
  unfold execStretchChange
  dsimp only
  (repeat' split) <;> simp [h]

@[simp] theorem memWf_stretchFaults (s : State) : (stretchFaults s).memWf = s.memWf := by
  unfold stretchFaults
  exact foldl_keeps (f := State.memWf) (fun t q => by exact memWf_raiseAt t _ _) _ s

theorem outWf_execStretchForced {s : State} (h : s.memWf = true) (die : BitVec 2) : OutWf (execStretchForced die s) := by
  unfold execStretchForced
  dsimp only
  split
  · exact h
  · refine outWf_ite h ?_
    refine memWf_foldl _ (fun t q ht => memWf_inPart ht _ fun u hu => memWf_ite ?_ hu) _ (memWf_congr h rfl rfl)
    exact memWf_foldl _ (fun w v hw => memWf_inVC hw _ fun y hy => (memWf_stretchFaults y).trans hy) _ hu

end Sys2Proof.Machine
end

section
/-! Support. The traces, the errors, the firmware, every instruction and the turn of an agent keep memory in its canonical form. -/

set_option Elab.async false

namespace Sys2Proof.Machine

open Sys2Proof.Laws

theorem outWf_execTrapEntry {s : State} (h : s.memWf = true) : OutWf (execTrapEntry s) :=
  outWf_ite h (outWf_ite (outWf_endLaunch h _ _ _) (outWf_takeTrap h))

theorem memWf_rollBack {s : State} (h : s.memWf = true) (p : Past) : (rollBack s p).memWf = true := by
  have h1 : ∀ l : List Coll, (l.foldl (fun t c =>
      if groupCseq t c.group = (c.seq + 1) % 2 ^ 32 then setCseq t c.group c.seq else t) s).memWf = true := fun l =>
    memWf_foldl _ (fun t c ht => memWf_ite ((memWf_setCseq ..).trans ht) ht) _ h
  exact memWf_congr (h1 _) rfl rfl

theorem outWf_execCollieCompare {s : State} (h : s.memWf = true) (bad : Option (BitVec 4)) : OutWf (execCollieCompare bad s) := by
  unfold execCollieCompare
  split
  · refine outWf_ite h (outWf_ctlFault ((memWf_countSilent _).trans ?_) _ _ _)
    exact memWf_congr (memWf_rollBack h _) rfl rfl
  · exact h

@[simp] theorem memWf_setTrace (s : State) (die : Nat) (t : Trace) : (setTrace s die t).memWf = s.memWf := rfl

@[simp] theorem outWf_execTrctlWrite (fn : BitVec 5) (die : BitVec 2) (v : BitVec 64) (s : State) (h : s.memWf = true) :
    OutWf (execTrctlWrite fn die v s) := by
  unfold execTrctlWrite
  dsimp only
  (repeat' split) <;> simp [h]

@[simp] theorem outWf_execTraceStop (die : BitVec 2) (s : State) (h : s.memWf = true) : OutWf (execTraceStop die s) := by
  unfold execTraceStop
  dsimp only
  (repeat' split) <;> simp [h]

@[simp] theorem memWf_traceBeat (s : State) : (traceBeat s).memWf = s.memWf := by
  unfold traceBeat
  dsimp only
  (repeat' split) <;> simp

@[simp] theorem memWf_traceTick (s : State) : (traceTick s).memWf = s.memWf := rfl

@[simp] theorem memWf_traceDrop (s : State) (n : Nat) : (traceDrop s n).memWf = s.memWf := rfl

theorem memWf_tracePlace {s t : State} (h : s.memWf = true) {p : Word64} {r : Except Unit Nat} (hp : tracePlace s p = some (t, r)) :
    t.memWf = true := by
  have hl := memWf_translate_left h p.toNat .write
  unfold tracePlace at hp
  split at hp
  · cases hp
    exact h
  · split at hp
    · cases hp
    next hr =>
      cases hp
      exact (memWf_asDevice s _).trans (memWf_left_of_eq hr hl :)
    next hr =>
      have h1 := (memWf_asDevice s _).trans (memWf_left_of_eq hr hl :)
      split at hp
      · cases hp
        exact h1
      · obtain ⟨u, hu, he⟩ := Option.map_eq_some_iff.mp hp
        cases he
        exact (memWf_pcTake hu).trans h1

/-- A full line goes to its place, or is lost. -/
theorem memWf_lineTaken {t : State} (h : t.memWf = true) (r : Except Unit Nat) (d : List Byte) (n : Nat) :
    State.memWf (match r with
      | .ok pa => deviceWrite t pa d
      | .error _ => traceDrop t n) = true := by
  cases r with
  | ok pa => exact memWf_deviceWrite h _ _
  | error _ => exact (memWf_traceDrop ..).trans h

theorem memWf_traceLine {s : State} (h : s.memWf = true) : (traceLine s).memWf = true := by
  unfold traceLine
  dsimp only
  split
  · exact h
  next hp => exact memWf_congr (memWf_lineTaken (memWf_tracePlace h hp) _ _ _) rfl rfl

@[simp] theorem memWf_tracePut (s : State) (e : Nat × Nat) : (tracePut s e).memWf = s.memWf := by
  unfold tracePut
  dsimp only
  (repeat' split) <;> simp

theorem memWf_compatTrace {s : State} (h : s.memWf = true) : (compatTrace s).memWf = true := by
  have h1 : ((traceEvents s.vc).foldl tracePut s).memWf = true := memWf_foldl _ (fun t e ht => (memWf_tracePut t e).trans ht) _ h
  exact memWf_ite h (memWf_ite (memWf_traceLine h1) h1)

@[simp] theorem memWf_beginStop (s : State) (unit name sb : Nat) : (beginStop s unit name sb).memWf = s.memWf := by
  unfold beginStop
  dsimp only
  (repeat' split) <;> simp

@[simp] theorem memWf_fillRecords (s : State) : (fillRecords s).memWf = s.memWf := rfl

@[simp] theorem outWf_execBreakpointHit (n : BitVec 3) (s : State) (h : s.memWf = true) : OutWf (execBreakpointHit n s) := by
  unfold execBreakpointHit
  dsimp only
  (repeat' split) <;> simp [h]

theorem outWf_execDebugResume {s : State} (h : s.memWf = true) (fn : BitVec 5) : OutWf (execDebugResume fn s) := by
  refine memWf_vfReply h _ fun t ht => memWf_fst_ite ht ?_
  have h1 := (memWf_allVC { t with part.dstops := [] } VC.resumeStop).trans ht
  exact memWf_ite h1 h1

@[simp] theorem memWf_queueError (s : State) (q : Queue) (res : Nat) : (queueError s q res).memWf = s.memWf := by
  unfold queueError
  split
  · split
    · exact memWf_copyFault ..
    · exact (memWf_setFlight ..).trans (memWf_queueFault ..)
  · split
    · exact memWf_queueFault ..
    · exact memWf_raiseAt ..

theorem outWf_unitError {s : State} (h : s.memWf = true) (res src : Nat) : OutWf (unitError s res src) := by
  unfold unitError
  refine outWf_ite h ?_
  split
  · exact outWf_ctlFault h _ _ _
  · exact (memWf_flightFault ..).trans h
  · exact (memWf_queueError ..).trans h
  · split
    · exact (memWf_queueError ..).trans h
    · exact h

@[simp] theorem memWf_eccVote (s : State) (b : Darn) : (eccVote s b).memWf = s.memWf := by
  unfold eccVote
  dsimp only
  (repeat' split) <;> simp

theorem outWf_storageError {s : State} (h : s.memWf = true) (res src place : Nat) : OutWf (storageError s res src place) := by
  unfold storageError
  split
  · exact outWf_ite ((memWf_bumpCount ..).trans h) h
  · split
    · exact h
    · exact outWf_ite ((memWf_bumpCount ..).trans h) (outWf_unitError h _ _)
  · exact outWf_unitError h _ _
  · exact outWf_ite h (outWf_unitError h _ _)
  · split
    · exact h
    · exact outWf_ite (outWf_unitError h _ _) ((memWf_bumpCount ..).trans ((memWf_chargeTo ..).trans h))
  · exact h
  · dsimp only
    refine outWf_ite ?_ h
    have he := outWf_endLaunch ((memWf_countError s 0x28 9).trans h) 3 0x28 9
    split
    next hr =>
      rw [hr] at he
      exact memWf_congr he rfl rfl
    · exact he
  · split
    · exact h
    · refine outWf_ite ((memWf_eccVote ..).trans ?_) h
      exact h
  · dsimp only
    split
    · exact h
    · exact (memWf_setTrace ..).trans h
  · exact outWf_unitError h _ _

@[simp] theorem memWf_disableL2 (s : State) (way : Nat) : (disableL2 s way).memWf = s.memWf := by simp [disableL2]

theorem memWf_disableCtl {s : State} (h : s.memWf = true) (cache way : Nat) : (disableCtl s cache way).memWf = true := by
  refine memWf_ite (memWf_foldl _ (fun t l ht => memWf_dropLine ht l) _ ?_) ?_
  · exact h
  · exact h

theorem memWf_correctedError {s : State} (h : s.memWf = true) (res place : Nat) : (correctedError s res place).memWf = true := by
  have h1 := (memWf_bumpCount s (0x100 + res)).trans h
  unfold correctedError
  dsimp only
  generalize bumpCount s (0x100 + res) = s1 at h1 ⊢
  split
  · exact h1
  next k _ =>
    have h2 : State.memWf { s1 with dev.corrected := mput 0 s1.dev.corrected k (mget 0 s1.dev.corrected k + 1) } = true := h1
    refine memWf_ite h2 ?_
    split
    · exact memWf_disableCtl h2 _ _
    · exact memWf_disableCtl h2 _ _
    · exact h2
    · exact (memWf_disableL2 ..).trans h2

theorem outWf_hitBeat {s : State} (h : s.memWf = true) : OutWf (hitBeat s) := by
  unfold hitBeat
  split
  · exact h
  next x _ =>
    have h1 := (memWf_dropHit s x).trans h
    dsimp only
    split
    · exact outWf_storageError h1 _ _ _
    · exact memWf_correctedError h1 _ _
    · exact h1

@[simp] theorem outWf_execCorrectedErrorWindowEnd (s : State) (h : s.memWf = true) :
    OutWf (execCorrectedErrorWindowEnd s) := by simp [execCorrectedErrorWindowEnd, h]

@[simp] theorem outWf_branchOp (s : State) (c : Bool) (off : BitVec 14) (ext : Option (BitVec 24)) (h : s.memWf = true) :
    OutWf (branchOp s c off ext) := by simp [branchOp, h]

@[simp] theorem outWf_execJ (off : BitVec 26) (ext : Option (BitVec 24)) (s : State) (h : s.memWf = true) :
    OutWf (execJ off ext s) := by simp [execJ, h]

@[simp] theorem outWf_execJal (off : BitVec 26) (ext : Option (BitVec 24)) (s : State) (h : s.memWf = true) :
    OutWf (execJal off ext s) := by simp [execJal, h]

@[simp] theorem outWf_execJalr (rd ra : BitVec 6) (imm : BitVec 14) (ext : Option (BitVec 24)) (s : State) (h : s.memWf = true) :
    OutWf (execJalr rd ra imm ext s) := by
  unfold execJalr
  dsimp only
  (repeat' split) <;> simp [h]

@[simp] theorem outWf_execCcbWr (k : BitVec 4) (ra : BitVec 6) (w : BitVec 4) (s : State) (h : s.memWf = true) :
    OutWf (execCcbWr k ra w s) := by simp [execCcbWr, h]

@[simp] theorem outWf_execCcbRd (rd : BitVec 6) (k : BitVec 4) (w : BitVec 4) (s : State) (h : s.memWf = true) :
    OutWf (execCcbRd rd k w s) := by simp [execCcbRd, h]

theorem memWf_loadWords32 {s : State} (h : s.memWf = true) (va : Word64) (n : Nat) : (loadWords32 s va n).left.memWf = true := by
  induction n generalizing s va with
  | zero => exact h
  | succ n ih =>
    have hl := memWf_ctlLoad_left h va 4
    unfold loadWords32
    split
    next hr => exact (memWf_left_of_eq hr hl :)
    next hr => exact (memWf_left_of_eq hr hl :)
    next hr =>
      have h2 := ih (memWf_left_of_eq hr hl :) (va + 4)
      split
      next hr => exact (memWf_left_of_eq hr h2 :)
      next hr => exact (memWf_left_of_eq hr h2 :)
      next hr => exact (memWf_left_of_eq hr h2 :)

theorem memWf_translated {s : State} (h : s.memWf = true) (va : Nat) : (translated s va).memWf = true := by
  have hl := memWf_translate_left h va .write
  unfold translated
  refine memWf_ite h ?_
  split
  next hr => exact (memWf_left_of_eq hr hl :)
  next hr => exact (memWf_left_of_eq hr hl :)
  next hr => exact (memWf_left_of_eq hr hl :)

theorem memWf_storeWords32 {s : State} (h : s.memWf = true) (va : Word64) (ws : List Nat) : (storeWords32 s va ws).left.memWf = true := by
  induction ws generalizing s va with
  | nil => exact h
  | cons w r ih =>
    have hl := memWf_ctlStore_left h va (leBytes w 4)
    have ht := memWf_translated h va.toNat
    unfold storeWords32
    split
    next hr =>
      have h2 := ih (memWf_left_of_eq hr hl :) (va + 4)
      split
      next hr => exact (memWf_left_of_eq hr h2 :)
      · exact ht
      · exact memWf_congr ht rfl rfl
    · exact hl

theorem outWf_execCcbLd {s : State} (h : s.memWf = true) (k : BitVec 4) (ra : BitVec 6) : OutWf (execCcbLd k ra s) := by
  refine outWf_restricted h (outWf_ite (outWf_ctlFault h _ _ _) (outWf_ite (outWf_ctlFault h _ _ _) ?_))
  refine outWf_memThen (s := s) (memWf_loadWords32 h _ _) fun t ws ht => outWf_sysNext _ ?_
  exact ht

theorem outWf_execCcbSt {s : State} (h : s.memWf = true) (k : BitVec 4) (ra : BitVec 6) : OutWf (execCcbSt k ra s) := by
  refine outWf_restricted h (outWf_ite (outWf_ctlFault h _ _ _) (outWf_ite (outWf_ctlFault h _ _ _) ?_))
  exact outWf_memThen (s := s) (memWf_storeWords32 h _ _) fun t _ ht => outWf_sysNext _ ht

@[simp] theorem memWf_csrSet (s : State) (c : BitVec 12) (v : Word64) : (csrSet s c v).memWf = s.memWf := by
  unfold csrSet
  split <;> rfl

@[simp] theorem outWf_csrOp (s : State) (rd : BitVec 6) (c : BitVec 12) (v : Word64) (h : s.memWf = true) : OutWf (csrOp s rd c v) := by
  unfold csrOp
  split <;> simp [h]

@[simp] theorem outWf_execCsrRd (rd : BitVec 6) (csr : BitVec 12) (s : State) (h : s.memWf = true) :
    OutWf (execCsrRd rd csr s) := by simp [execCsrRd, h]

@[simp] theorem memWf_extendMr (s : State) (i : Nat) (img : List Byte) : (extendMr s i img).memWf = s.memWf := rfl

@[simp] theorem memWf_setReady (s : State) (bit : Nat) (v : Bool) : (setReady s bit v).memWf = s.memWf := rfl

theorem memWf_installCoefs {s : State} (h : s.memWf = true) (img : Image) : (installCoefs s img).memWf = true := by
  refine memWf_foldl _ (fun t q ht => memWf_inPart ht _ fun u hu => ?_) _ h
  exact memWf_congr hu rfl rfl

theorem memWf_installImage {s : State} (h : s.memWf = true) (img : Image) : (installImage s img).memWf = true := by
  have h1 : (extendMr { s with dev.versions := mput 0 s.dev.versions (imageKind img.kind) img.version.toNat } (imageMr img.kind)
      img.bytes).memWf = true := (memWf_extendMr ..).trans h
  unfold installImage
  dsimp only
  split
  · exact h1
  · exact (memWf_setReady ..).trans (memWf_installCoefs h1 img)
  · exact memWf_congr h1 rfl rfl
  · exact (memWf_setReady ..).trans h1

@[simp] theorem outWf_execQuoteRequest (nonce : List (BitVec 8)) (s : State) (h : s.memWf = true) : OutWf (execQuoteRequest nonce s) := by
  unfold execQuoteRequest
  split <;> simp [h]

@[simp] theorem memWf_startTraining (s : State) : (startTraining s).memWf = s.memWf := rfl

theorem memWf_endTraining {s : State} (h : s.memWf = true) : (endTraining s).memWf = true := by
  unfold endTraining
  refine memWf_foldl _ (fun t i ht => memWf_installImage ht i) _ ?_
  exact h

theorem memWf_trainBeat {s : State} (h : s.memWf = true) : (trainBeat s).memWf = true := by
  unfold trainBeat
  split
  · exact h
  · exact memWf_endTraining h
  · exact h

theorem memWf_boot {s : State} (h : s.memWf = true) : (boot s).memWf = true := by
  have h1 : State.memWf { s with dev.mr := [], dev.powered := true } = true := h
  unfold boot
  dsimp only
  generalize ({ s with dev.mr := [], dev.powered := true } : State) = s1 at h1 ⊢
  split
  · exact h1
  · exact (memWf_startTraining _).trans (memWf_foldl _ (fun t i ht => memWf_installImage ht i) _ h1)

theorem outWf_execPowerOn {s : State} (h : s.memWf = true) : OutWf (execPowerOn s) := outWf_ite h (memWf_boot h)

theorem memWf_takeImage {s : State} (h : s.memWf = true) (img : Image) : (takeImage s img).memWf = true := by
  have h1 : State.memWf { s with dev.images := keepImage s.dev.images img } = true := h
  have h2 := memWf_installImage h1 img
  unfold takeImage
  dsimp only
  split
  · exact memWf_ite h2 ((memWf_startTraining _).trans h2)
  · exact memWf_ite h2 h1

theorem outWf_execFirmwareImage {s : State} (h : s.memWf = true) (img : Image) : OutWf (execFirmwareImage img s) := by
  refine outWf_ite h (outWf_ite ?_ (outWf_ite ?_ ?_))
  · exact (memWf_reply ..).trans h
  · exact (memWf_reply ..).trans (memWf_takeImage h img)
  · exact (memWf_reply ..).trans h

@[simp] theorem outWf_execLinkDown (port : BitVec 6) (s : State) (h : s.memWf = true) : OutWf (execLinkDown port s) := by
  unfold execLinkDown
  split <;> simp [h]

@[simp] theorem outWf_execLinkUp (port : BitVec 6) (s : State) (h : s.memWf = true) : OutWf (execLinkUp port s) := by
  unfold execLinkUp
  split <;> simp [h]

theorem outWf_execManagementResetRequest (s : State) : OutWf (execManagementResetRequest s) := by
  refine memWf_boot ?_
  exact memWf_congr memWf_reset rfl rfl

theorem outWf_loadOp {s : State} (h : s.memWf = true) (rd ra : BitVec 6) (imm : BitVec 14) (ext : Option (BitVec 24)) (n : Nat)
    (f : Nat → Word64) : OutWf (loadOp s rd ra imm ext n f) := by
  refine outWf_memThen (s := s) (memWf_ctlLoad_left h _ n) fun t v ht => ?_
  simp [ht]

theorem outWf_storeOp {s : State} (h : s.memWf = true) (rs ra : BitVec 6) (imm : BitVec 14) (ext : Option (BitVec 24)) (n : Nat) :
    OutWf (storeOp s rs ra imm ext n) := by
  refine outWf_memThen (s := s) (memWf_ctlStore_left h _ _) fun t _ ht => ?_
  simp [ht]

@[simp] theorem outWf_fpOp (s : State) (rd : BitVec 6) (c : EClass) (r : Nat × Nat) (h : s.memWf = true) :
    OutWf (fpOp s rd c r) := by simp [fpOp, h]

@[simp] theorem outWf_intOp (s : State) (rd : BitVec 6) (v : Word64) (h : s.memWf = true) : OutWf (intOp s rd v) := by simp [intOp, h]

@[simp] theorem outWf_intOpExt (s : State) (rd : BitVec 6) (v : Word64) (ext : Option (BitVec 24)) (h : s.memWf = true) :
    OutWf (intOpExt s rd v ext) := by simp [intOpExt, h]

@[simp] theorem outWf_mulOp (s : State) (rd : BitVec 6) (v : Word64) (h : s.memWf = true) : OutWf (mulOp s rd v) := by simp [mulOp, h]

@[simp] theorem outWf_divOp (s : State) (rd : BitVec 6) (border : Bool) (v : Word64) (h : s.memWf = true) :
    OutWf (divOp s rd border v) := by simp [divOp, h]

@[simp] theorem outWf_tokNext (s : State) (rd : BitVec 6) (v : Word64) (h : s.memWf = true) :
    OutWf (tokNext s rd v) := by simp [tokNext, h]

theorem outWf_execTokPush {s : State} (h : s.memWf = true) (f : BitVec 2) : OutWf (execTokPush f s) := by
  refine outWf_restricted h ?_
  split
  · split
    · exact outWf_ctlFault h _ _ _
    · exact h
  · exact outWf_sysNext _ ((memWf_tokPut ..).trans h)

@[simp] theorem outWf_execTokPop (f : BitVec 2) (s : State) (h : s.memWf = true) : OutWf (execTokPop f s) := by
  unfold execTokPop
  split <;> simp [h]

@[simp] theorem outWf_execTokRead (rd : BitVec 6) (f : BitVec 2) (s : State) (h : s.memWf = true) :
    OutWf (execTokRead rd f s) := by simp [execTokRead, h]

@[simp] theorem outWf_execEvWait (rd : BitVec 6) (s : State) (h : s.memWf = true) : OutWf (execEvWait rd s) := by
  unfold execEvWait
  split <;> simp [h]

@[simp] theorem outWf_execEvPop (rd : BitVec 6) (s : State) (h : s.memWf = true) : OutWf (execEvPop rd s) := by
  unfold execEvPop
  dsimp only
  (repeat' split) <;> simp [h]

@[simp] theorem outWf_execEvCount (rd : BitVec 6) (s : State) (h : s.memWf = true) : OutWf (execEvCount rd s) := by simp [execEvCount, h]

@[simp] theorem outWf_execFrame (rd : BitVec 6) (s : State) (h : s.memWf = true) : OutWf (execFrame rd s) := by simp [execFrame, h]

@[simp] theorem memWf_busRead (s : State) (r : BusReg) : (busRead s r).memWf = s.memWf := rfl

@[simp] theorem memWf_senseNow (s : State) (temps : List Nat) (power : Nat) : (senseNow s temps power).memWf = s.memWf := rfl

@[simp] theorem memWf_registerRead (s : State) (fn : BitVec 5) (r : ReadReg) : (registerRead s fn r).memWf = s.memWf := rfl

theorem outWf_execRecvG {s : State} (h : s.memWf = true) (e : EngBits) (d : BitVec 4) :
    OutWf (execRecvG e d s) := outWf_recvOp (h := h) ..

theorem outWf_execRecvM {s : State} (h : s.memWf = true) (e : EngBits) (d : BitVec 4) :
    OutWf (execRecvM e d s) := outWf_recvOp (h := h) ..

theorem outWf_execMlsfTest {s : State} (h : s.memWf = true) (e : EngBits) (t : BitVec 8) (y : BitVec 4) :
    OutWf (execMlsfTest e t y s) := outWf_matrixY (h := h) ..

theorem outWf_execMaudit {s : State} (h : s.memWf = true) (e : EngBits) (y : BitVec 4) :
    OutWf (execMaudit e y s) := outWf_matrixY (h := h) ..

theorem outWf_execVaddY {s : State} (h : s.memWf = true) (e : EngBits) (d a b : BitVec 4) :
    OutWf (execVaddY e d a b s) := outWf_vecOp (h := h) ..

theorem outWf_execVmulY {s : State} (h : s.memWf = true) (e : EngBits) (d a b : BitVec 4) :
    OutWf (execVmulY e d a b s) := outWf_vecOp (h := h) ..

theorem outWf_execVfmaY {s : State} (h : s.memWf = true) (e : EngBits) (d a b : BitVec 4) :
    OutWf (execVfmaY e d a b s) := outWf_vecOp (h := h) ..

theorem outWf_execVmulM {s : State} (h : s.memWf = true) (e : EngBits) (d a b : BitVec 4) :
    OutWf (execVmulM e d a b s) := outWf_vecOp (h := h) ..

theorem outWf_execVmaxY {s : State} (h : s.memWf = true) (e : EngBits) (d a b : BitVec 4) :
    OutWf (execVmaxY e d a b s) := outWf_vecOp (h := h) ..

theorem outWf_execVminY {s : State} (h : s.memWf = true) (e : EngBits) (d a b : BitVec 4) :
    OutWf (execVminY e d a b s) := outWf_vecOp (h := h) ..

theorem outWf_execVshl {s : State} (h : s.memWf = true) (e : EngBits) (d a b : BitVec 4) :
    OutWf (execVshl e d a b s) := outWf_vecOp (h := h) ..

theorem outWf_execVshr {s : State} (h : s.memWf = true) (e : EngBits) (d a b : BitVec 4) :
    OutWf (execVshr e d a b s) := outWf_vecOp (h := h) ..

theorem outWf_execVsra {s : State} (h : s.memWf = true) (e : EngBits) (d a b : BitVec 4) :
    OutWf (execVsra e d a b s) := outWf_vecOp (h := h) ..

theorem outWf_execVfillY {s : State} (h : s.memWf = true) (e : EngBits) (d b : BitVec 4) :
    OutWf (execVfillY e d b s) := outWf_vecOp (h := h) ..

theorem outWf_execVdrop {s : State} (h : s.memWf = true) (e : EngBits) (d a b : BitVec 4) :
    OutWf (execVdrop e d a b s) := outWf_vecOp (h := h) ..

theorem outWf_execRecv {s : State} (h : s.memWf = true) (e : EngBits) (d : BitVec 4) : OutWf (execRecv e d s) := outWf_recvOp (h := h) ..

/-- Every instruction and every event keeps memory in canonical form. -/
theorem outWf_exec {s : State} (h : s.memWf = true) (i : Instr) : OutWf (exec i s) := by
  cases i with
  | add | sub | and | or | xor | andn | sll | srl | sra | rol | ror | slt | sltn | min | max | minn | maxn | addw
  | subw | clz | ctz | popc | bswap | slli | srli | srai => exact outWf_intOp (h := h) ..
  | addi | andi | ori | xori | slti | lih | addpc => exact outWf_intOpExt (h := h) ..
  | mul | mulh | mulhn => exact outWf_mulOp (h := h) ..
  | div | divn | rem | remn => exact outWf_divOp (h := h) ..
  | fadd | fsub | fmul | fdiv | fsqrt | fmac | fmin | fmax | fceq | fclt | fcle | fclass | fabs | fneg | fcpys
  | fcvtI64T | fcvtN64T | fcvtTI64 | fcvtTN64 | fcvtF64F32 | fcvtF32F64 => exact outWf_fpOp (h := h) ..
  | ldI8 | ldN8 | ldI16 | ldN16 | ldI32 | ldN32 | ld64 => exact outWf_loadOp (h := h) ..
  | st8 | st16 | st32 | st64 => exact outWf_storeOp (h := h) ..
  | beq | bne | blt | bge | bltn | bgen => exact outWf_branchOp (h := h) ..
  | j => exact outWf_execJ (h := h) ..
  | jal => exact outWf_execJal (h := h) ..
  | jalr => exact outWf_execJalr (h := h) ..
  | csrRd => exact outWf_execCsrRd (h := h) ..
  | csrWr | csrOr | csrAndn => exact outWf_csrOp (h := h) ..
  | trap => exact outWf_execTrap (h := h) ..
  | acqCore | acqCluster | acqDie | acqDevice | acqLaunch => exact outWf_acqOp (h := h) ..
  | relCore | relCluster | relDie | relDevice => exact outWf_relOp (h := h) ..
  | relLaunch => exact outWf_execRelLaunch (h := h) ..
  | qfence => exact outWf_execQfence (h := h) ..
  | aadd | aand | aor | axor | amin | amax | aswap | acas => exact outWf_aretOp (h := h) ..
  | aredAdd | aredAnd | aredOr | aredXor | aredMin | aredMax => exact outWf_aredOp (h := h) ..
  | tokPush => exact outWf_execTokPush (h := h) ..
  | tokPop => exact outWf_execTokPop (h := h) ..
  | tokRead => exact outWf_execTokRead (h := h) ..
  | evWait => exact outWf_execEvWait (h := h) ..
  | evPop => exact outWf_execEvPop (h := h) ..
  | evCount => exact outWf_execEvCount (h := h) ..
  | frame => exact outWf_execFrame (h := h) ..
  | tblLoad => exact outWf_execTblLoad (h := h) ..
  | tblRun => exact outWf_execTblRun (h := h) ..
  | tblStop => exact outWf_execTblStop (h := h) ..
  | tblRebase => exact outWf_execTblRebase (h := h) ..
  | tblParam => exact outWf_execTblParam (h := h) ..
  | tblWait => exact outWf_execTblWait (h := h) ..
  | zsetBase | zsetStride | zsetCount | zsetFmt | zsetScale | zsetRing | zsetAdv => exact outWf_zsetOp (h := h) ..
  | zget => exact outWf_execZget (h := h) ..
  | txopen => exact outWf_execTxopen (h := h) ..
  | txloss => exact outWf_execTxloss (h := h) ..
  | txwait => exact outWf_execTxwait (h := h) ..
  | txrd => exact outWf_execTxrd (h := h) ..
  | rngk => exact outWf_execRngk (h := h) ..
  | rngn => exact outWf_execRngn (h := h) ..
  | domSet => exact outWf_execDomSet (h := h) ..
  | domGet => exact outWf_execDomGet (h := h) ..
  | collRed | collBcast | collGath | collNorm | collExp => exact outWf_collOp (h := h) ..
  | collWait => exact outWf_execCollWait (h := h) ..
  | winReg => exact outWf_execWinReg (h := h) ..
  | winDrop => exact outWf_execWinDrop (h := h) ..
  | mbclr => exact outWf_execMbclr (h := h) ..
  | ywr => exact outWf_execYwr (h := h) ..
  | yrd => exact outWf_execYrd (h := h) ..
  | mbrd => exact outWf_execMbrd (h := h) ..
  | ccbWr => exact outWf_execCcbWr (h := h) ..
  | ccbRd => exact outWf_execCcbRd (h := h) ..
  | ccbLd => exact outWf_execCcbLd (h := h) ..
  | ccbSt => exact outWf_execCcbSt (h := h) ..
  | safept => exact outWf_execSafept (h := h) ..
  | pchk => exact outWf_execPchk (h := h) ..
  | cpyIn | cpyInT | cpyGath | cpyPf | cpyOut | cpyScat | stash | cpyXc => exact outWf_copyOp (h := h) ..
  | gpush => exact outWf_execGpush (h := h) ..
  | ggath => exact outWf_execGgath (h := h) ..
  | greset => exact outWf_execGreset (h := h) ..
  | recv => exact outWf_execRecv (h := h) ..
  | recvG => exact outWf_execRecvG (h := h) ..
  | recvM => exact outWf_execRecvM (h := h) ..
  | waitLd | waitCmp | waitSt => exact outWf_waitOp (h := h) ..
  | qfenceLd | qfenceCmp | qfenceSt => exact outWf_qfenceOp (h := h) ..
  | mma | mmaKb => exact outWf_mmaOp (h := h) ..
  | mdrain => exact outWf_execMdrain (h := h) ..
  | mzero | mlsfClr => exact outWf_tileWord (h := h) ..
  | mtpbLd => exact outWf_execMtpbLd (h := h) ..
  | mtpbSt | mlsfRd => exact outWf_blockOut (h := h) ..
  | mlsfTest => exact outWf_execMlsfTest (h := h) ..
  | maudit => exact outWf_execMaudit (h := h) ..
  | vadd | vsub | vmul | vfma | vmin | vmax | vabs | vneg | vceq | vcne | vclt | vcle | vsel | vand | vor | vxor
  | vnot | vaddsat | vsubsat | vmulhi | vclass | vcvt | vmov | vgath | vscat | vrng | vsplit3 | viota => exact outWf_vecOp (h := h) ..
  | vaddY => exact outWf_execVaddY (h := h) ..
  | vmulY => exact outWf_execVmulY (h := h) ..
  | vfmaY => exact outWf_execVfmaY (h := h) ..
  | vmulM => exact outWf_execVmulM (h := h) ..
  | vmaxY => exact outWf_execVmaxY (h := h) ..
  | vminY => exact outWf_execVminY (h := h) ..
  | vshl => exact outWf_execVshl (h := h) ..
  | vshr => exact outWf_execVshr (h := h) ..
  | vsra => exact outWf_execVsra (h := h) ..
  | vfillY => exact outWf_execVfillY (h := h) ..
  | vdrop => exact outWf_execVdrop (h := h) ..
  | rsum | rmax | rmin | rsumsq | scanSum | scanMax | rdot | rargmax | rcnt => exact outWf_redOp (h := h) ..
  | send => exact outWf_execSend (h := h) ..
  | sendG => exact outWf_execSendG (h := h) ..
  | evpost => exact outWf_execEvpost (h := h) ..
  | tret => exact outWf_execTret (h := h) ..
  | halt => exact outWf_execHalt (h := h) ..
  | fence => exact outWf_execFence (h := h) ..
  | ifb => exact outWf_execIfb (h := h) ..
  | txvote => exact outWf_execTxvote (h := h) ..
  | txabort => exact outWf_execTxabort (h := h) ..
  | sstepCluster | sstepDie | sstepDevice | sstepHerd | sstepJob => exact outWf_sstepOp (h := h) ..
  | yield => exact outWf_execYield (h := h) ..
  | sfExp2 | sfLog2 | sfRcp | sfRsqrt | sfSqrt | sfSinpi | sfCospi | sfTanh | sfLogistic | efExp2 | efLog2 | efRcp
  | efRsqrt | efSqrt | efSinpi | efCospi | efTanh | efLogistic => exact outWf_fnOp (h := h) ..
  | atomicHomePortPerform => exact outWf_execAtomicHomePortPerform (h := h) ..
  | tableEntryPlace => exact outWf_execTableEntryPlace (h := h) ..
  | engineWordRoute => exact outWf_execEngineWordRoute (h := h) ..
  | overrun => exact outWf_execOverrun (h := h) ..
  | engineWordCompletion => exact outWf_execEngineWordCompletion (h := h) ..
  | eventRecordHeldPost => exact outWf_execEventRecordHeldPost (h := h) ..
  | copyLineLanding => exact outWf_execCopyLineLanding (h := h) ..
  | copyMemoryWritePerform => exact outWf_execCopyMemoryWritePerform (h := h) ..
  | messagePieceLanding => exact outWf_execMessagePieceLanding (h := h) ..
  | mapAccessLanding => exact outWf_execMapAccessLanding (h := h) ..
  | translationWalkComplete => exact outWf_execTranslationWalkComplete (h := h) ..
  | versionedAccess => exact outWf_execVersionedAccess (h := h) ..
  | firstWriteLineCopy => exact outWf_execFirstWriteLineCopy (h := h) ..
  | sweeperResolve => exact outWf_execSweeperResolve (h := h) ..
  | deviceVoteSend => exact outWf_execDeviceVoteSend (h := h) ..
  | outcomeArrival => exact outWf_execOutcomeArrival (h := h) ..
  | drainEngineTransfer => exact outWf_execDrainEngineTransfer (h := h) ..
  | drainAcknowledge => exact outWf_execDrainAcknowledge (h := h) ..
  | fragmentArrival => exact outWf_execFragmentArrival (h := h) ..
  | darnDecode => exact outWf_execDarnDecode (h := h) ..
  | messageDelivery => exact outWf_execMessageDelivery (h := h) ..
  | unrecoverableLoss => exact outWf_execUnrecoverableLoss (h := h) ..
  | collectiveSourceRead => exact outWf_execCollectiveSourceRead (h := h) ..
  | collectiveDelivery => exact outWf_execCollectiveDelivery (h := h) ..
  | windowFlushApply => exact outWf_execWindowFlushApply (h := h) ..
  | openingAlignmentBarrier => exact outWf_execOpeningAlignmentBarrier (h := h) ..
  | barrierRelease => exact outWf_execBarrierRelease (h := h) ..
  | queueTailWrite => exact outWf_execQueueTailWrite (h := h) ..
  | quantumEnd => exact outWf_execQuantumEnd (h := h) ..
  | schedulerDecision => exact outWf_execSchedulerDecision (h := h) ..
  | launchDispatch => exact outWf_execLaunchDispatch (h := h) ..
  | launchPacketReceive => exact outWf_execLaunchPacketReceive (h := h) ..
  | launchCompletion => exact outWf_execLaunchCompletion (h := h) ..
  | preemptionRequest => exact outWf_execPreemptionRequest (h := h) ..
  | forcedSave => exact outWf_execForcedSave (h := h) ..
  | trapEntry => exact outWf_execTrapEntry (h := h) ..
  | collieCompare => exact outWf_execCollieCompare (h := h) ..
  | stretchChange => exact outWf_execStretchChange (h := h) ..
  | stretchForced => exact outWf_execStretchForced (h := h) ..
  | chargeEntry => exact outWf_execChargeEntry (h := h) ..
  | accountingIntervalEnd => exact outWf_execAccountingIntervalEnd (h := h) ..
  | coefficientSetEffect => exact outWf_execCoefficientSetEffect (h := h) ..
  | breakpointHit => exact outWf_execBreakpointHit (h := h) ..
  | traceStop => exact outWf_execTraceStop (h := h) ..
  | debugResume => exact outWf_execDebugResume (h := h) ..
  | trctlWrite => exact outWf_execTrctlWrite (h := h) ..
  | tlbinvPartition => exact outWf_execTlbinvPartition (h := h) ..
  | tlbinvPage => exact outWf_execTlbinvPage (h := h) ..
  | tlbinvDone => exact outWf_execTlbinvDone (h := h) ..
  | hmaskWrite => exact outWf_execHmaskWrite (h := h) ..
  | playoutWrite => exact outWf_execPlayoutWrite (h := h) ..
  | pctlBind => exact outWf_execPctlBind (h := h) ..
  | pctlUnbind => exact outWf_execPctlUnbind (h := h) ..
  | pctlReset => exact outWf_execPctlReset (h := h) ..
  | functionResetComplete => exact outWf_execFunctionResetComplete (h := h) ..
  | eusedClear => exact outWf_execEusedClear (h := h) ..
  | counterClear => exact outWf_execCounterClear (h := h) ..
  | registerWrite => exact outWf_execRegisterWrite (h := h) ..
  | controlLinkMemoryWrite => exact outWf_execControlLinkMemoryWrite (h := h) ..
  | controlLinkMemoryRead => exact outWf_execControlLinkMemoryRead (h := h) ..
  | firmwareImage => exact outWf_execFirmwareImage (h := h) ..
  | quoteRequest => exact outWf_execQuoteRequest (h := h) ..
  | powerOn => exact outWf_execPowerOn (h := h) ..
  | linkDown => exact outWf_execLinkDown (h := h) ..
  | managementResetRequest => exact outWf_execManagementResetRequest s
  | linkUp => exact outWf_execLinkUp (h := h) ..
  | correctedErrorWindowEnd => exact outWf_execCorrectedErrorWindowEnd (h := h) ..

theorem outWf_andThen {o : Out} {k : State → Out} (ho : OutWf o) (hk : ∀ t, t.memWf = true → OutWf (k t)) : OutWf (andThen o k) := by
  cases o with
  | next t => exact hk t ho
  | fault f => trivial
  | refused r => trivial

theorem outWf_forEach {α : Type} {s : State} (h : s.memWf = true) {f : α → State → Out} (hf : ∀ a t, t.memWf = true → OutWf (f a t))
    (l : List α) : OutWf (forEach s f l) := by
  induction l generalizing s with
  | nil => exact h
  | cons a r ih => exact outWf_andThen (hf a s h) fun t ht => ih ht

theorem outWf_sweep {s : State} (h : s.memWf = true) (len : State → Nat) {f : Nat → State → Out}
    (hf : ∀ k t, t.memWf = true → OutWf (f k t)) (k n : Nat) : OutWf (sweep len f s k n) := by
  induction n generalizing s k with
  | zero => exact h
  | succ n ih => exact outWf_ite h (outWf_andThen (hf k s h) fun t ht => ih ht _)

theorem outWf_sweepAll {s : State} (h : s.memWf = true) (len : State → Nat) {f : Nat → State → Out}
    (hf : ∀ k t, t.memWf = true → OutWf (f k t)) : OutWf (sweepAll len f s) := outWf_sweep h len hf 0 _

theorem outWf_execBadHead {s : State} (h : s.memWf = true) (q : Queue) (e : QEntry) : OutWf (execBadHead q e s) :=
  outWf_issueWord h _ _ _ _ _ _ fun _ _ _ => rfl

theorem outWf_execFuncWord {s : State} (h : s.memWf = true) (q : Queue) (x : QEntry) : OutWf (execFuncWord q x s) := by
  have hb := outWf_execBadHead h q x
  refine outWf_ite hb ?_
  split
  iterate 18 next => exact outWf_fnOp (h := h) ..
  exact hb

theorem outWf_execHead {s : State} (h : s.memWf = true) (q : Queue) (x : QEntry) : OutWf (execHead q x s) := by
  have hb := outWf_execBadHead h q x
  refine outWf_ite hb (outWf_ite (outWf_execFuncWord h q x) ?_)
  split
  · exact outWf_exec h _
  · exact hb

theorem outWf_breakAt {s : State} (h : s.memWf = true) (x : Nat × Nat × Nat) : OutWf (breakAt x s) := by
  refine outWf_ite h (outWf_andThen (outWf_forEach ?_ (fun n t ht => outWf_execBreakpointHit _ t ht) _) fun t ht => ?_)
  · exact h
  · exact ht

theorem outWf_noteHead {t : State} (h : t.memWf = true) (q : Queue) (x : QEntry) (s : State) : OutWf (noteHead q x s t) := by
  have h1 : State.memWf (if (stillHead t q x).isNone then { t with vc.issuedNow := t.vc.issuedNow ||| issueBits q x } else t) = true :=
    memWf_ite h h
  exact outWf_ite (outWf_breakAt h1 _) h1

theorem outWf_queueBeat {s : State} (h : s.memWf = true) (q : Queue) : OutWf (queueBeat q s) := by
  unfold queueBeat
  split
  · exact h
  next x _ => exact outWf_ite h (outWf_andThen (outWf_execHead h q x) fun t ht => outWf_noteHead ht q x s)

theorem outWf_tableBeat {s : State} (h : s.memWf = true) (e : Engine) : OutWf (tableBeat e s) :=
  outWf_ite h (outWf_execTableEntryPlace h e)

theorem outWf_deliverBeat {s : State} (h : s.memWf = true) (hub : Bool) : OutWf (deliverBeat hub s) :=
  outWf_forEach h (fun _ _ ht => outWf_execMessageDelivery ht _) _

theorem outWf_pieceBeat {s : State} (h : s.memWf = true) (src : Nat) : OutWf (pieceBeat src s) :=
  outWf_forEach h (fun _ _ ht => outWf_execMessagePieceLanding ht _) _

theorem outWf_mapBeat {s : State} (h : s.memWf = true) (src : Option Nat) : OutWf (mapBeat src s) := by
  refine outWf_sweepAll h _ fun n t ht => ?_
  split
  · exact outWf_ite (outWf_execMapAccessLanding ht n) ht
  · exact ht

theorem outWf_inboundBeat {s : State} (h : s.memWf = true) : OutWf (inboundBeat s) := by
  refine outWf_ite h (outWf_andThen (outWf_deliverBeat h false) fun s1 h1 => outWf_andThen (outWf_forEach h1 (fun k t ht => ?_) _)
    fun s3 h3 => outWf_sweepAll h3 _ fun n t ht => outWf_execCollectiveDelivery ht n)
  exact outWf_andThen (outWf_pieceBeat ((memWf_serveInbound t k).trans ht) k) fun u hu => outWf_mapBeat hu _

theorem outWf_copyLand {s : State} (h : s.memWf = true) (id n : Nat) : OutWf (copyLand id s n) := by
  induction n generalizing s with
  | zero => exact h
  | succ n ih =>
    unfold copyLand
    split
    · exact h
    · split
      · exact h
      · exact outWf_ite h (outWf_andThen (outWf_execCopyLineLanding h id) fun t ht => ih ht)

theorem outWf_moveFirst {s : State} (h : s.memWf = true) {mv : Nat → State → Out} (hm : ∀ id t, t.memWf = true → OutWf (mv id t))
    (l : List Nat) : OutWf (moveFirst mv s l) := by
  induction l generalizing s with
  | nil => exact h
  | cons id r ih => exact outWf_andThen (hm id s h) fun t ht => outWf_ite (ih ht) ht

theorem outWf_landBeat {s : State} (h : s.memWf = true) : OutWf (landBeat s) := by
  have hm : ∀ id t, t.memWf = true → OutWf (execCopyMemoryWritePerform id t) := fun id t ht => outWf_execCopyMemoryWritePerform ht id
  refine outWf_ite h (outWf_andThen (outWf_forEach h (fun f t ht => outWf_copyLand ht _ _) _) fun s1 h1 => ?_)
  refine outWf_andThen (outWf_moveFirst h1 (fun id t ht => outWf_execCopyLineLanding ht id) _) fun s2 h2 => ?_
  have h3 := (memWf_serveQueue (serveQueue s2 .ld) .st).trans ((memWf_serveQueue s2 .ld).trans h2)
  refine outWf_andThen (outWf_sweepAll h3 _ fun n t ht => outWf_execCollectiveSourceRead n t ht) fun s4 h4 => ?_
  refine outWf_andThen (outWf_forEach h4 (fun f t ht => hm _ t ht) _) fun s5 h5 => ?_
  exact outWf_ite h5 (outWf_moveFirst h5 hm _)

@[simp] theorem memWf_recordFull (s : State) (r : EvRec) : (recordFull s r).memWf = s.memWf := by
  unfold recordFull
  split <;> simp

@[simp] theorem memWf_recordIn (s : State) (r : EvRec) : (recordIn s r).memWf = s.memWf := by
  unfold recordIn
  split <;> simp

@[simp] theorem memWf_recordsIn (s : State) : (recordsIn s).memWf = s.memWf := by
  unfold recordsIn
  exact foldl_keeps (f := State.memWf) (fun t r => by exact memWf_recordIn t r) _
    { s with vc.eng.evIn := s.vc.eng.evIn.filter (fun r => decide (s.vc.now < r.beat)) }

@[simp] theorem memWf_tellRetired (s t : State) : (tellRetired s t).memWf = t.memWf := apply_ite_memWf rfl rfl

theorem outWf_ctlWord {s s1 : State} (h : s.memWf = true) (h1 : s1.memWf = true) (ws : List Word32) : OutWf (ctlWord s s1 ws) := by
  unfold ctlWord
  split
  · exact outWf_illegal h1
  · refine outWf_ite (outWf_execEngineWordRoute h) (outWf_ite ?_ (outWf_illegal h1))
    split
    · exact outWf_andThen (outWf_exec h1 _) fun t ht => (memWf_tellRetired s t).trans ht
    · exact outWf_illegal h1

theorem outWf_ctlExec {s : State} (h : s.memWf = true) : OutWf (ctlExec s) := by
  have hl := memWf_fetchWords h s.vc.ctl.pc 3
  unfold ctlExec
  split
  next hr => exact (memWf_left_of_eq hr hl :)
  next hr => exact outWf_ctlFault (memWf_left_of_eq hr hl :) _ _ _
  next hr => exact outWf_ctlWord h (memWf_left_of_eq hr hl :) _

@[simp] theorem memWf_noteRetired (s t : State) : (noteRetired s t).memWf = t.memWf :=
  apply_ite_memWf rfl (apply_ite_memWf (apply_ite_memWf rfl rfl) (apply_ite_memWf rfl rfl))

theorem outWf_seeNext {s : State} (h : s.memWf = true) : OutWf (seeNext s) := by
  refine outWf_ite h (outWf_breakAt ?_ _)
  exact h

theorem outWf_ctlGoes {s : State} (h : s.memWf = true) : OutWf (ctlGoes s) :=
  outWf_andThen (outWf_seeNext h) fun t ht =>
    outWf_ite (outWf_andThen (outWf_ctlExec ht) fun u hu => (memWf_noteRetired t u).trans hu) ht

theorem outWf_ctlTurn {s : State} (h : s.memWf = true) : OutWf (ctlTurn s) :=
  outWf_andThen (outWf_ite h (outWf_hitBeat h)) fun _ h1 =>
    outWf_ite h1 (outWf_ite (outWf_execTrapEntry h1) (outWf_ite (outWf_ctlGoes h1) h1))

theorem outWf_newSource {s : State} (h : s.memWf = true) (n : Nat) : OutWf (newSource n s) := by
  unfold newSource
  split
  · exact outWf_ite (outWf_execCollectiveSourceRead n s h) h
  · exact h

theorem outWf_postBeat {s : State} (h : s.memWf = true) : OutWf (postBeat s) := by
  refine outWf_ite (outWf_execAtomicHomePortPerform h _) (outWf_andThen ?_ fun s1 h1 =>
    outWf_andThen (outWf_forEach h1 (fun id t ht => outWf_execEngineWordCompletion ht id) _) fun s2 h2 =>
    outWf_andThen (outWf_sweepAll h2 _ fun n t ht => outWf_ite (outWf_newSource ht n) ht) fun s3 h3 =>
    outWf_execAtomicHomePortPerform ?_ _)
  · exact outWf_execEventRecordHeldPost _ ((memWf_applyDues _).trans (memWf_compatTrace h))
  · exact (memWf_finishRuns _).trans ((memWf_releasePushes _).trans ((memWf_sweepEnded _).trans ((memWf_finishXc s3).trans h3)))

theorem outWf_lateBeat {s : State} (h : s.memWf = true) : OutWf (lateBeat s) := by
  refine outWf_ite h (outWf_andThen (outWf_mapBeat h none) fun s1 h1 => ?_)
  refine outWf_andThen (outWf_forEach h1 (fun n t ht => ?_) _) fun s2 h2 => ?_
  · exact outWf_ite (outWf_execDarnDecode n t ht) ht
  refine outWf_andThen (outWf_sweepAll h2 _ fun n t ht => outWf_ite (outWf_execUnrecoverableLoss ht n) ht) fun s3 h3 => ?_
  refine outWf_andThen (outWf_sweepAll h3 _ fun n t ht => outWf_execUnrecoverableLoss ht _) fun s4 h4 => ?_
  refine outWf_andThen (outWf_sweepAll h4 _ fun n t ht => outWf_execCollectiveDelivery ht n) fun s5 h5 => ?_
  exact outWf_sweepAll ((memWf_freeDelivered s5).trans h5) _ fun n t ht => outWf_ite (outWf_execWindowFlushApply ht n) ht

@[simp] theorem memWf_tick (s : State) : (tick s).memWf = s.memWf := by
  have h1 : (enterCharges (fillRecords (traceBeat s))).memWf = s.memWf :=
    (memWf_enterCharges _).trans ((memWf_fillRecords _).trans (memWf_traceBeat s))
  unfold tick
  dsimp only
  generalize enterCharges (fillRecords (traceBeat s)) = s1 at h1 ⊢
  rw [← h1]
  exact apply_ite_memWf rfl (memWf_recordsIn s1)

@[simp] theorem memWf_nextVC (s : State) : (nextVC s).memWf = s.memWf := by
  unfold nextVC
  split <;> rfl

/-- The partition that comes into focus and the one that leaves it keep their memories. -/
theorem memWf_nextPart {s : State} (h : s.memWf = true) : (nextPart s).memWf = true := by
  obtain ⟨hm, ho⟩ := (memWf_iff s).mp h
  unfold nextPart
  split
  · exact h
  next x r hx =>
    rw [hx] at ho
    refine (memWf_iff _).mpr ⟨ho x (List.mem_cons_self ..), fun y hy => ?_⟩
    rcases List.mem_append.mp hy with hy | hy
    · exact ho y (List.mem_cons_of_mem _ hy)
    · rw [List.mem_singleton.mp hy]
      exact hm

theorem memWf_handOver {s : State} (h : s.memWf = true) : (handOver s).memWf = true := by
  have h1 : (nextVC (tick s)).memWf = true := (memWf_nextVC _).trans ((memWf_tick s).trans h)
  unfold handOver
  dsimp only
  refine memWf_ite ?_ h1
  exact memWf_congr (memWf_nextPart ((memWf_endPartBeat _ _).trans h1)) rfl rfl

theorem outWf_inboxRow {s : State} (h : s.memWf = true) (r : Row) : OutWf (inboxRow r s) :=
  outWf_ite (outWf_onPart h _ fun _ ht => outWf_onVC ht _ fun _ hu => outWf_exec hu _) h

theorem outWf_barrierBeat {s : State} (h : s.memWf = true) : OutWf (barrierBeat s) := by
  refine outWf_ite h (outWf_andThen (outWf_ite h (outWf_execOpeningAlignmentBarrier s h)) fun s1 h1 => outWf_ite h1 ?_)
  refine outWf_forEach h1 (fun l t ht => ?_) _
  exact outWf_ite (outWf_execBarrierRelease ht l) ht

theorem outWf_schedulerBeat {s : State} (h : s.memWf = true) : OutWf (schedulerBeat s) := by
  refine outWf_andThen (outWf_ite (outWf_execQuantumEnd _ ?_) h) fun s1 h1 => ?_
  · exact h
  refine outWf_andThen (outWf_ite (outWf_execSchedulerDecision s1 h1) h1) fun s2 h2 => ?_
  refine outWf_andThen (outWf_execForcedSave (memWf_saveIfParked h2)) fun s3 h3 => ?_
  refine outWf_andThen (outWf_ite h3 (outWf_execLaunchCompletion h3)) fun s4 h4 => ?_
  split
  · exact outWf_execLaunchDispatch h4 _
  · exact h4

theorem outWf_versionBeat {s : State} (h : s.memWf = true) : OutWf (versionBeat s) := by
  refine outWf_andThen (outWf_execDrainEngineTransfer h) fun s1 h1 => outWf_andThen ?_ fun s2 h2 => ?_
  · split
    · exact outWf_execSweeperResolve h1 _
    · exact h1
  · split
    · exact outWf_execFirstWriteLineCopy h2 _
    · exact h2

theorem outWf_closeWindow {s : State} (h : s.memWf = true) (before : Nat) : OutWf (closeWindow s before) := outWf_ite h h

theorem outWf_deviceBeat {s : State} (h : s.memWf = true) : OutWf (deviceBeat s) := by
  refine outWf_ite h ?_
  have h1 : ((countUp 0 s.m).foldl (fun t _ => traceTick t) { s with dev.refbeat := s.dev.refbeat + s.m }).memWf = true := by
    refine memWf_foldl _ (fun t _ ht => (memWf_traceTick t).trans ht) _ ?_
    exact h
  refine outWf_andThen (outWf_closeInterval h1 _) fun s2 h2 => outWf_andThen (outWf_closeWindow h2 _) fun s3 h3 => ?_
  refine outWf_forEach (memWf_trainBeat h3) (fun d t ht => outWf_andThen (outWf_execTraceStop _ t ht) fun t1 h4 =>
    outWf_andThen ?_ fun t2 h5 => outWf_execStretchForced h5 _) _
  split
  · exact outWf_execStretchChange _ _ t1 h4
  · exact h4

theorem outWf_hubDarns {s : State} (h : s.memWf = true) : OutWf (hubDarns s) := by
  refine outWf_andThen (outWf_forEach h (fun n t ht => ?_) _) fun s1 h1 => ?_
  · exact outWf_ite (outWf_execDarnDecode n t ht) ht
  refine outWf_andThen (outWf_sweepAll h1 _ fun n t ht => outWf_ite (outWf_execUnrecoverableLoss ht n) ht) fun s2 h2 => ?_
  exact outWf_sweepAll h2 _ fun n t ht => outWf_ite (outWf_execWindowFlushApply ht n) ht

@[simp] theorem memWf_pauseBeat (s : State) : (pauseBeat s).memWf = s.memWf := by
  unfold pauseBeat
  split <;> rfl

@[simp] theorem memWf_askedBeat (s : State) : (askedBeat s).memWf = s.memWf := by
  unfold askedBeat
  split <;> simp

theorem outWf_partBeat {s : State} (h : s.memWf = true) : OutWf (partBeat s) := by
  refine outWf_andThen (outWf_deviceBeat h) fun s0 h0 => ?_
  have h1 : (handOut (flushReports (askedBeat (pauseBeat { s0 with part.walks := [] })))).memWf = true :=
    (memWf_handOut _).trans ((memWf_flushReports _).trans ((memWf_askedBeat _).trans ((memWf_pauseBeat _).trans h0)))
  dsimp only
  generalize handOut (flushReports (askedBeat (pauseBeat { s0 with part.walks := [] }))) = s1 at h1 ⊢
  refine outWf_ite (outWf_execFunctionResetComplete h1) ?_
  refine outWf_andThen (outWf_deliverBeat ((memWf_thaw s1).trans h1) true) fun s2 h2 => ?_
  refine outWf_andThen (outWf_packetsIn h2) fun s3 h3 => outWf_andThen (outWf_hubDarns h3) fun s4 h4 => ?_
  refine outWf_andThen (outWf_barrierBeat (memWf_savedAtomics h4)) fun s5 h5 => ?_
  refine outWf_andThen (outWf_execDeviceVoteSend s5 h5) fun s6 h6 => ?_
  exact outWf_andThen (outWf_ite (outWf_execTlbinvDone s6 h6) h6) fun s7 h7 =>
    outWf_andThen (outWf_versionBeat h7) fun s8 h8 => outWf_schedulerBeat h8

theorem outWf_hubBeat {s : State} (h : s.memWf = true) : OutWf (hubBeat s) := by
  unfold hubBeat
  split
  · refine outWf_inboxRow ?_ _
    exact h
  · exact (memWf_reply ..).trans h
  · exact h
  · exact h
  · exact h
  · exact outWf_andThen (outWf_partBeat h) fun t ht => ht

/-- What the agent whose turn it is does keeps memory in canonical form. -/
theorem outWf_agentBeat {s : State} (h : s.memWf = true) (m : Mover) : OutWf (agentBeat m s) := by
  cases m with
  | hub => exact outWf_hubBeat h
  | table e => exact outWf_tableBeat h e
  | queue q => exact outWf_queueBeat h q
  | inbound => exact outWf_inboundBeat h
  | serve =>
    refine outWf_ite h ?_
    exact (memWf_serveQueue _ _).trans ((memWf_serveQueue _ _).trans ((memWf_serveQueue _ _).trans ((memWf_serveQueue _ _).trans h)))
  | land => exact outWf_landBeat h
  | ctl => exact outWf_ctlTurn h
  | post => exact outWf_postBeat h
  | late => exact outWf_lateBeat h

theorem memWf_passOn {s : State} (h : s.memWf = true) (m : Mover) : (passOn m s).memWf = true := by
  unfold passOn
  split
  · exact h
  · exact memWf_handOver h
  · exact h

end Sys2Proof.Machine
end

section
/-! Every step keeps memory in its canonical form: the agent whose turn it is moves, and the turn passes on. -/

set_option Elab.async false

namespace Sys2Proof.Machine

/-- Settles O59: the agent whose turn it is keeps memory in its canonical form, and so does the passing on of the turn. -/
theorem memInvariant : Obligations.MemInvariant := by
  unfold Obligations.MemInvariant
  intro s t h hs
  have ha := outWf_agentBeat h s.mover
  unfold step at hs
  split at hs
  next u hu =>
    rw [hu] at ha
    cases hs
    exact memWf_passOn ha s.mover
  next hn => exact (hn t hs).elim

end Sys2Proof.Machine
end

section
/-! Return from a trap (R381): what the return leaves as it was, and what it drops of the replay queue and of the queues. -/

set_option Elab.async false

namespace Sys2Proof.Machine

open Sys2Proof.Laws

/-- Nothing of a virtual core but its engines, its atomics and its collectives differs. -/
def keepsOutside (v w : VC) : Prop := w = { v with eng := w.eng, atomics := w.atomics, colls := w.colls }

theorem keepsOutside_refl (v : VC) : keepsOutside v v := rfl

theorem keepsOutside_trans {u v w : VC} (h : keepsOutside u v) (k : keepsOutside v w) : keepsOutside u w := by
  unfold keepsOutside at *
  rw [k, h]

theorem dropFaulting_keeps (v : VC) (f : FaultRec) : keepsOutside v (dropFaulting v f) := by
  unfold dropFaulting
  split <;> rfl

theorem retryFaulting_keeps (v : VC) (f : FaultRec) : keepsOutside v (retryFaulting v f) := by
  unfold retryFaulting
  split <;> rfl

theorem resumeEntry_keeps (v : VC) (f : FaultRec) : keepsOutside v (resumeEntry v f) := by
  unfold resumeEntry
  split <;> rfl

/-- The entry that the fault names is dropped, or is to be taken again. -/
def entrySettled (skip : Bool) (v : VC) : VC :=
  match v.ctl.cur with
  | some f => if skip then dropFaulting v f else retryFaulting v f
  | none => v

/-- The replay entry that the fault in hand names resumes. -/
def entryResumed (cur : Option FaultRec) (v : VC) : VC :=
  match cur with
  | some f => resumeEntry v f
  | none => v

/-- The virtual core in focus once a return has settled the entries of its fault and of its replay queue. -/
def returned (s : State) (skip drop : Bool) : VC :=
  entryResumed s.vc.ctl.cur (if drop then dropReplay s (entrySettled skip s.vc) else entrySettled skip s.vc)

theorem trapReturn_eq (s : State) :
    trapReturn s = retireTo { s with vc := { returned s (s.vc.ctl.tepc.getLsbD 1) (s.vc.ctl.tepc.getLsbD 0) with
      ctl.h := false, ctl.cur := none, run := s.vc.ctl.was } } (handlerPc s.vc.ctl.tepc) := rfl

theorem entrySettled_keeps (skip : Bool) (v : VC) : keepsOutside v (entrySettled skip v) := by
  unfold entrySettled
  split
  · cases skip
    · exact retryFaulting_keeps ..
    · exact dropFaulting_keeps ..
  · rfl

theorem entryResumed_keeps (cur : Option FaultRec) (v : VC) : keepsOutside v (entryResumed cur v) := by
  cases cur with
  | none => rfl
  | some f => exact resumeEntry_keeps v f

theorem returned_keeps (s : State) (skip drop : Bool) : keepsOutside s.vc (returned s skip drop) := by
  refine keepsOutside_trans (entrySettled_keeps skip s.vc) (keepsOutside_trans ?_ (entryResumed_keeps ..))
  cases drop <;> rfl

/-! ### The flights and the queues of the virtual core that has returned -/

theorem flights_retryFaulting (v : VC) (f : FaultRec) : (retryFaulting v f).eng.flights = v.eng.flights := by
  unfold retryFaulting
  split <;> rfl

/-- A word marked to be taken again keeps its number. -/
theorem seqs_retryFaulting (v : VC) (f : FaultRec) (q : Queue) :
    ((retryFaulting v f).eng.q q).entries.map (fun e => e.seq) = (v.eng.q q).entries.map (fun e => e.seq) := by
  have hm : ∀ (n : Nat) (l : List QEntry),
      (l.map (fun e => if e.seq = n then { e with retry := true } else e)).map (fun e => e.seq) = l.map (fun e => e.seq) := by
    intro n l
    rw [List.map_map]
    refine List.map_congr_left fun e _ => ?_
    dsimp only [Function.comp]
    split <;> rfl
  unfold retryFaulting
  split
  · rfl
  · cases q <;> exact hm _ _

theorem flights_dropFaulting (v : VC) {f : FaultRec} {n : Nat} (h : f.seq = some n) :
    (dropFaulting v f).eng.flights = v.eng.flights.filter (fun x => x.seq != n) := by
  unfold dropFaulting
  rw [h]

theorem entries_dropFaulting (v : VC) {f : FaultRec} {n : Nat} (h : f.seq = some n) (q : Queue) :
    ((dropFaulting v f).eng.q q).entries = (v.eng.q q).entries.filter (fun e => e.seq != n) := by
  unfold dropFaulting
  rw [h]
  cases q <;> rfl

theorem flights_entrySettled_subset (skip : Bool) (v : VC) : (entrySettled skip v).eng.flights ⊆ v.eng.flights := by
  unfold entrySettled
  split
  next f _ =>
    cases skip with
    | false => exact fun x hx => flights_retryFaulting v f ▸ hx
    | true =>
      cases hf : f.seq with
      | none => simp [dropFaulting, hf]
      | some n =>
        rw [if_pos rfl, flights_dropFaulting v hf]
        exact List.filter_subset_self ..
  · exact List.Subset.refl _

/-- The replay entry that resumes keeps its number, and what has not faulted is as it was. -/
theorem mem_flights_entryResumed {cur : Option FaultRec} {v : VC} {x : Flight} (h : x ∈ (entryResumed cur v).eng.flights) :
    ∃ y ∈ v.eng.flights, y.seq = x.seq ∧ ∀ f n, cur = some f → f.seq = some n → x.seq = n → x.faulted = false := by
  cases cur with
  | none => exact ⟨x, h, rfl, fun _ _ hc => nomatch hc⟩
  | some f =>
    unfold entryResumed resumeEntry at h
    cases hf : f.seq with
    | none =>
      simp only [hf] at h
      refine ⟨x, h, rfl, fun g n hg hn => ?_⟩
      cases hg
      exact nomatch hf.symm.trans hn
    | some k =>
      simp only [hf] at h
      obtain ⟨y, hy, rfl⟩ := List.mem_map.mp h
      refine ⟨y, hy, by split <;> rfl, fun g n hg hn => ?_⟩
      cases hg
      cases hf.symm.trans hn
      split
      · exact fun _ => rfl
      next hk => exact fun hs => absurd hs hk

theorem seqs_entryResumed (cur : Option FaultRec) (v : VC) :
    (entryResumed cur v).eng.flights.map (fun x => x.seq) = v.eng.flights.map (fun x => x.seq) := by
  cases cur with
  | none => rfl
  | some f =>
    show (resumeEntry v f).eng.flights.map (fun x => x.seq) = _
    unfold resumeEntry
    split
    · rfl
    · rw [List.map_map]
      refine List.map_congr_left fun x _ => ?_
      dsimp only [Function.comp]
      split <;> rfl

theorem q_entryResumed (cur : Option FaultRec) (v : VC) (q : Queue) : (entryResumed cur v).eng.q q = v.eng.q q := by
  cases cur with
  | none => rfl
  | some f =>
    show (resumeEntry v f).eng.q q = _
    unfold resumeEntry
    split <;> rfl

theorem q_returned (s : State) (skip drop : Bool) (q : Queue) : (returned s skip drop).eng.q q = (entrySettled skip s.vc).eng.q q := by
  refine (q_entryResumed ..).trans ?_
  cases drop <;> rfl

/-- With the replay queue dropped no flight that was an entry of it is left. -/
theorem flights_returned_drop (s : State) (skip : Bool) {x : Flight} (h : x ∈ (returned s skip true).eng.flights) :
    ∃ y ∈ s.vc.eng.flights, y.seq = x.seq ∧ Flight.replay s y = false := by
  obtain ⟨y, hy, hs, -⟩ := mem_flights_entryResumed h
  have hy : y ∈ (entrySettled skip s.vc).eng.flights.filter (fun f => !Flight.replay s f) := hy
  obtain ⟨hm, hr⟩ := List.mem_filter.mp hy
  exact ⟨y, flights_entrySettled_subset skip s.vc hm, hs, by simpa using hr⟩

/-- With skip set the word that the fault names is gone from the flights and from the queues. -/
theorem returned_skip (s : State) (drop : Bool) {f : FaultRec} {n : Nat} (hf : s.vc.ctl.cur = some f) (hn : f.seq = some n) :
    (∀ x ∈ (returned s true drop).eng.flights, x.seq ≠ n) ∧
      ∀ q, ∀ e ∈ ((returned s true drop).eng.q q).entries, e.seq ≠ n := by
  have hset : entrySettled true s.vc = dropFaulting s.vc f := by
    unfold entrySettled
    rw [hf]
    rfl
  refine ⟨fun x hx => ?_, fun q e he => ?_⟩
  · obtain ⟨y, hy, hs, -⟩ := mem_flights_entryResumed hx
    have hy : y ∈ (entrySettled true s.vc).eng.flights := by
      cases drop with
      | false => exact hy
      | true => exact List.mem_of_mem_filter hy
    rw [hset, flights_dropFaulting _ hn] at hy
    rw [← hs]
    simpa using (List.mem_filter.mp hy).2
  · rw [q_returned, hset, entries_dropFaulting _ hn] at he
    simpa using (List.mem_filter.mp he).2

/-- Without skip and drop every word stays, and the one that the fault names is not faulted. -/
theorem returned_plain (s : State) :
    (returned s false false).eng.flights.map (fun x => x.seq) = s.vc.eng.flights.map (fun x => x.seq) ∧
      (∀ f n, s.vc.ctl.cur = some f → f.seq = some n → ∀ x ∈ (returned s false false).eng.flights, x.seq = n → x.faulted = false) ∧
      ∀ q, ((returned s false false).eng.q q).entries.map (fun e => e.seq) = (s.vc.eng.q q).entries.map (fun e => e.seq) := by
  refine ⟨(seqs_entryResumed ..).trans ?_, fun f n hf hn x hx => ?_, fun q => ?_⟩
  · show (entrySettled false s.vc).eng.flights.map (fun x => x.seq) = _
    unfold entrySettled
    split
    next f _ => exact congrArg _ (flights_retryFaulting s.vc f)
    · rfl
  · obtain ⟨-, -, -, h⟩ := mem_flights_entryResumed hx
    exact h f n hf hn
  · rw [q_returned]
    unfold entrySettled
    split
    next f _ => exact seqs_retryFaulting s.vc f q
    · rfl

/-- Settles O21: the virtual core that has returned is the one that it was but for its flights, its queues, its atomics and its
collectives, and what becomes of these is said of each of skip and drop. -/
theorem trapReturn_holds : Obligations.TrapReturn := by
  unfold Obligations.TrapReturn
  intro s
  refine ⟨fun h => ?_, fun h => ?_⟩
  · exact if_neg (by simp [h])
  obtain ⟨l, hl⟩ := charge_eq s .sys 1
  refine ⟨trapReturn (charge s .sys), if_pos h, ?_⟩
  rw [trapReturn_eq, hl]
  obtain ⟨v, hv⟩ : ∃ v, v = returned s (s.vc.ctl.tepc.getLsbD 1) (s.vc.ctl.tepc.getLsbD 0) := ⟨_, rfl⟩
  have hk : keepsOutside s.vc v := hv ▸ returned_keeps ..
  have hr : returned { s with part.charges := l } (s.vc.ctl.tepc.getLsbD 1) (s.vc.ctl.tepc.getLsbD 0) = v := hv.symm
  rw [hr]
  refine ⟨fun r => ?_, ⟨fun a => rfl, fun a => ?_⟩, ?_, rfl, rfl, rfl, rfl, fun f n hf hn hs => ?_, fun hd x hx => ?_, fun hd hs => ?_⟩
  · rw [xr_retireTo, xr, xr, hk]
  · show mget byteDefault v.chip a = _
    rw [hk]
  · rw [hk]
    simp only [retireTo, handlerPc, fld_pc]
  · rw [hs] at hv
    subst hv
    exact returned_skip s _ hf hn
  · rw [hd] at hv
    subst hv
    exact flights_returned_drop s _ hx
  · rw [hd, hs] at hv
    subst hv
    exact returned_plain s

end Sys2Proof.Machine
end

section
/-! The outcome of an open step (R299): what its commit and its abort leave of the partition and of the virtual cores in it. -/

set_option Elab.async false

namespace Sys2Proof.Machine

open Sys2Proof.Laws

/-- Sequence numbers that are taken back change no more than the group entries and the closed keys. -/
theorem setCseqs_eq (n : Nat → Nat) (l : List Nat) (s : State) :
    ∃ gs cl, l.foldl (fun t g => setCseq t g (n g)) s = { s with part.groups := gs, part.closed := cl } := by
  induction l generalizing s with
  | nil => exact ⟨_, _, rfl⟩
  | cons g l ih =>
    obtain ⟨gs, cl, h⟩ := ih (setCseq s g (n g))
    exact ⟨gs, cl, h⟩

theorem takeBackSeqs_keeps {α : Type} (f : State → α)
    (hf : ∀ (s : State) gs cl, f { s with part.groups := gs, part.closed := cl } = f s) (s : State) : f (takeBackSeqs s) = f s := by
  unfold takeBackSeqs
  obtain ⟨gs, cl, h⟩ := setCseqs_eq (fun g => mget 0 s.part.epSeqs g) (countUp 0 (groupCount s)) s
  rw [h, hf]

/-! ### The virtual cores in the step -/

theorem allVC_vcs (s : State) (f : VC → VC) : (allVC s f).vcs = s.vcs.map f := rfl

/-- What an outcome leaves of a virtual core that has opened the step. -/
theorem outcomeVC_open {u : VC} (h : u.tx.state = 1 ∨ u.tx.state = 2) (commit : Bool) (w : Word64) :
    (outcomeVC commit w u).tx.state = 3 ∧ (outcomeVC commit w u).tx.out = w ∧ (outcomeVC commit w u).ctl = u.ctl := by
  unfold outcomeVC
  rw [if_pos h]
  exact ⟨rfl, rfl, rfl⟩

/-- An abort takes back what the step drew. -/
theorem outcomeVC_abort {u : VC} (h : u.tx.state = 1 ∨ u.tx.state = 2) (w : Word64) {k m : Word64} {c : SMap Word64}
    (hr : u.tx.restore = some (k, m, c)) :
    (outcomeVC false w u).tx.k = k ∧ (outcomeVC false w u).tx.n = m ∧ (outcomeVC false w u).tx.c = c := by
  unfold outcomeVC takeBack
  rw [if_pos h, hr]
  exact ⟨rfl, rfl, rfl⟩

/-! ### The partition -/

section
variable {s : State} {ep g : Nat} {dr : Bool}

/-- A closed epoch keeps the virtual cores and the memory. -/
theorem closeEpoch_keeps (s : State) (commit : Bool) :
    (closeEpoch s commit).vcs = s.vcs ∧ (closeEpoch s commit).part.mem = s.part.mem := by
  unfold closeEpoch
  split
  · exact ⟨rfl, rfl⟩
  · cases commit with
    | true => exact ⟨rfl, rfl⟩
    | false => exact ⟨takeBackSeqs_keeps State.vcs (fun _ _ _ => rfl) _, takeBackSeqs_keeps (·.part.mem) (fun _ _ _ => rfl) _⟩

theorem closeEpoch_commit (h : s.part.openEp = some (ep, g, dr)) :
    (closeEpoch s true).part.openEp = none ∧ (closeEpoch s true).part.x = (g + 1) % 2 ^ 16 ∧
      (closeEpoch s true).part.commits = s.part.commits + 1 ∧ outcomeOf (closeEpoch s true) ep = some true := by
  unfold closeEpoch
  rw [h]
  refine ⟨rfl, rfl, rfl, ?_⟩
  simp [outcomeOf]

theorem closeEpoch_abort (h : s.part.openEp = some (ep, g, dr)) :
    (closeEpoch s false).part.openEp = none ∧ (closeEpoch s false).part.x = s.part.x ∧
      (closeEpoch s false).part.commits = s.part.commits ∧ outcomeOf (closeEpoch s false) ep = some false := by
  unfold closeEpoch
  rw [h]
  refine ⟨takeBackSeqs_keeps (·.part.openEp) (fun _ _ _ => rfl) _, takeBackSeqs_keeps (·.part.x) (fun _ _ _ => rfl) _,
    takeBackSeqs_keeps (·.part.commits) (fun _ _ _ => rfl) _,
    (takeBackSeqs_keeps (outcomeOf · ep) (fun _ _ _ => rfl) _).trans ?_⟩
  simp [outcomeOf]

end

/-! ### The packet of an outcome -/

theorem fld_isOutcome (w : Word64) : fld w 15 15 = w.toNat / 2 ^ 15 % 2 := rfl

theorem fld_outcomeGen (w : Word64) : fld w 31 16 = w.toNat / 2 ^ 16 % 2 ^ 16 := rfl

theorem fld_outcomeFlags (w : Word64) : fld w 12 0 = w.toNat % 2 ^ 13 := by simp only [fld, bits, pow_zero, Nat.div_one]

/-- Settles O36: an outcome of the open step closes its epoch once every virtual core in it has taken the outcome word. -/
theorem stepOutcome : Obligations.StepOutcome := by
  unfold Obligations.StepOutcome
  intro s w ep g dr hop
  have ho : exec (.outcomeArrival w) s = .next (outcomeAt s w) := rfl
  rw [ho, outcomeAt, hop, fld_isOutcome, fld_outcomeGen, fld_outcomeFlags]
  dsimp only
  refine ⟨fun h => by rw [if_pos h], fun hb hg => ?_⟩
  rw [if_neg (by omega)]
  obtain ⟨c, hc⟩ : ∃ c, c = decide (w.toNat % 2 ^ 13 = 0) := ⟨_, rfl⟩
  rw [← hc]
  obtain ⟨hv, hm⟩ := closeEpoch_keeps (allVC s (outcomeVC c w)) c
  have hop' : (allVC s (outcomeVC c w)).part.openEp = some (ep, g, dr) := hop
  refine ⟨_, rfl, ?_, hm, fun n u v hu hvn hst => ?_, fun hz => ?_, fun hz => ?_⟩
  · cases c
    · exact (closeEpoch_abort hop').1
    · exact (closeEpoch_commit hop').1
  · rw [hv, allVC_vcs, List.getElem?_map, hu] at hvn
    cases hvn
    obtain ⟨h1, h2, h3⟩ := outcomeVC_open hst c w
    refine ⟨h1, h2, h3, fun hz k m cs hr => ?_⟩
    rw [decide_eq_false hz] at hc
    subst hc
    exact outcomeVC_abort hst w hr
  · rw [decide_eq_true hz] at hc
    subst hc
    exact (closeEpoch_commit hop').2
  · rw [decide_eq_false hz] at hc
    subst hc
    exact (closeEpoch_abort hop').2

end Sys2Proof.Machine
end

section
/-! The words of an open step (R292 to R296): the words that go on at once, and the vote that a loss leaves. -/

set_option Elab.async false

namespace Sys2Proof.Machine

open Sys2Proof.Laws

/-! ### Words that change one register of the step and go on -/

/-- A word that goes on from u, which has the x registers and the bytes of s. -/
theorem sysNext_step {s u : State} (hx : u.vc.ctl.x = s.vc.ctl.x) (hm : u.part.mem = s.part.mem) (hc : u.vc.chip = s.vc.chip) :
    ∃ t, sysNext u = .next t ∧ keepsX s t ∧ keepsBytes s t ∧ ctlStep u t .sys 4 :=
  ⟨_, rfl, keepsX_sysNext hx, keepsBytes_sysNext hm hc, ctlStep_sysNext u⟩

theorem retire_setX_state (s : State) (d : BitVec 6) (n : Nat) (v : Word64) :
    (.next (retire (setX { charge s .sys with vc.tx.state := n } d v)) : Out) =
      .next (retire (setX (charge { s with vc.tx.state := n } .sys) d v)) := by
  rw [charge_vc_of_id s { s.vc with tx.state := n } rfl]
  simp only [charge_vc]

theorem retire_setX_cursors (s : State) (d : BitVec 6) (c : SMap Word64) (v : Word64) :
    (.next (retire (setX { charge s .sys with vc.tx.c := c } d v)) : Out) =
      .next (retire (setX (charge { s with vc.tx.c := c } .sys) d v)) := by
  rw [charge_vc_of_id s { s.vc with tx.c := c } rfl]
  simp only [charge_vc]

theorem tx_retire_setX_charge (s : State) (d : BitVec 6) (v : Word64) : (retire (setX (charge s .sys) d v)).vc.tx = s.vc.tx := by
  simp only [retire, retireTo, setX]
  split <;> simp

/-! ### The vote that a loss leaves (R293) -/

/-- The vote word v with the greater of its loss and the loss x. -/
def lossEntered (v : Word64) (x : Nat) : Word64 := w64 (lossMax (fld v 63 32) x * 2 ^ 32 + fld v 31 0)

/-- The loss x is a NaN or above the limit. -/
def lossSpikes (x lim : Nat) : Bool := (fpF32.decode x).isNan || (fpF32.clt lim x).1

/-- The vote word v after txloss of x. -/
def lossVote (v : Word64) (x lim : Nat) : Word64 := if lossSpikes x lim then lossEntered v x ||| w64 (2 ^ 0) else lossEntered v x

theorem std_fpF32 : fpF32.std := std_fpOf false

theorem fld_loss (v : Word64) : fld v 63 32 = v.toNat / 2 ^ 32 := by
  have := v.isLt
  rw [fld, bits, Nat.mod_eq_of_lt (by omega)]

theorem fld_low (v : Word64) : fld v 31 0 = v.toNat % 2 ^ 32 := by simp only [fld, bits, pow_zero, Nat.div_one]

theorem lossMax_lt (a b : Nat) : lossMax a b < 2 ^ 32 := minmax_lt std_fpF32 true a b

theorem toNat_lossEntered (v : Word64) (x : Nat) :
    (lossEntered v x).toNat = lossMax (v.toNat / 2 ^ 32) x * 2 ^ 32 + v.toNat % 2 ^ 32 := by
  have := lossMax_lt (v.toNat / 2 ^ 32) x
  rw [lossEntered, fld_loss, fld_low, w64, BitVec.toNat_ofNat, Nat.mod_eq_of_lt (by omega)]

theorem half_lossVote (v : Word64) (x lim : Nat) : (lossVote v x lim).toNat / 2 = (lossEntered v x).toNat / 2 := by
  unfold lossVote
  split
  · rw [BitVec.toNat_or, Nat.or_div_two]
    exact Nat.or_zero _
  · rfl

theorem loss_lossVote (v : Word64) (x lim : Nat) : (lossVote v x lim).toNat / 2 ^ 32 = lossMax (v.toNat / 2 ^ 32) x := by
  have h := half_lossVote v x lim
  rw [toNat_lossEntered] at h
  omega

theorem flags_lossVote (v : Word64) (x lim : Nat) : (lossVote v x lim).toNat / 2 % 2 ^ 31 = v.toNat / 2 % 2 ^ 31 := by
  have h := half_lossVote v x lim
  rw [toNat_lossEntered] at h
  omega

theorem lossVote_spike {x lim : Nat} (h : lossSpikes x lim = true) (v : Word64) : (lossVote v x lim).getLsbD 0 = true := by
  rw [lossVote, if_pos h, BitVec.getLsbD_or]
  exact Bool.or_true _

theorem lossVote_no_spike {x lim : Nat} (h : lossSpikes x lim = false) (v : Word64) :
    (lossVote v x lim).getLsbD 0 = v.getLsbD 0 := by
  rw [lossVote, if_neg (by rw [h]; exact Bool.false_ne_true), ← BitVec.testBit_toNat, ← BitVec.testBit_toNat, toNat_lossEntered,
    Nat.testBit_zero, Nat.testBit_zero, decide_eq_decide]
  omega

/-- Of two finite losses the greater is the greater number. -/
theorem lossMax_of_lt {a b : Nat} (ha : a < 2 ^ 32) (hb : b < 2 ^ 32) (fa : (fpF32.decode a).isFin = true)
    (fb : (fpF32.decode b).isFin = true) :
    ((fpF32.decode a).toRat < (fpF32.decode b).toRat → lossMax a b = b) ∧
      ((fpF32.decode b).toRat < (fpF32.decode a).toRat → lossMax a b = a) := by
  have hm := minmax_of_not_nan (f := fpF32) ha hb true (not_nan_of_isFin fa) (not_nan_of_isFin fb)
  obtain ⟨hle, hge⟩ := lessTotal_le fa fb
  rw [lossMax, hm, if_pos rfl]
  refine ⟨fun h => if_pos ?_, fun h => if_neg fun ht => absurd h (not_lt.mpr (hle ht))⟩
  by_contra ht
  exact absurd h (not_lt.mpr (hge (Bool.eq_false_iff.mpr ht)))

theorem lossSpikes_of_isFin {x lim : Nat} (hx : (fpF32.decode x).isFin = true) (hl : (fpF32.decode lim).isFin = true) :
    lossSpikes x lim = decide ((fpF32.decode lim).toRat < (fpF32.decode x).toRat) := by
  rw [lossSpikes, not_nan_of_isFin hx, Bool.false_or, clt_of_isFin fpF32 hl hx]

theorem voteFlag_loss {v : VC} (ht : v.tx.state = 1) (spikes : Bool) (e : Word64) :
    (if spikes then VC.voteFlag { v with tx.vote := e } 0 else { v with tx.vote := e }) =
      { v with tx.vote := if spikes then e ||| w64 (2 ^ 0) else e } := by
  cases spikes with
  | true => exact if_pos ht
  | false => rfl

theorem execTxloss_open {s : State} (hh : s.vc.ctl.h = false) (ht : s.vc.tx.state = 1) (a : BitVec 6) :
    execTxloss a s = sysNext { s with
      vc.tx.vote := lossVote s.vc.tx.vote ((xr s a).toNat % 2 ^ 32) (s.vc.ctl.lossLimit.toNat % 2 ^ 32) } := by
  rw [← fld_low, ← fld_low]
  exact (restricted_outside hh _).trans ((if_neg (not_not_intro ht)).trans
    (congrArg (fun v => sysNext { s with vc := v }) (voteFlag_loss ht ..)))

theorem lossVoted {s : State} (hh : s.vc.ctl.h = false) (ht : s.vc.tx.state = 1) (a : BitVec 6) :
    let x := (xr s a).toNat % 2 ^ 32
    ∃ t, exec (.txloss a) s = .next t ∧ keepsX s t ∧ keepsBytes s t ∧ ctlStep { s with vc.tx.vote := t.vc.tx.vote } t .sys 4 ∧
      t.vc.tx.vote = lossVote s.vc.tx.vote x (s.vc.ctl.lossLimit.toNat % 2 ^ 32) := by
  obtain ⟨v, hv⟩ : ∃ v, v = lossVote s.vc.tx.vote ((xr s a).toNat % 2 ^ 32) (s.vc.ctl.lossLimit.toNat % 2 ^ 32) := ⟨_, rfl⟩
  have he : exec (.txloss a) s = sysNext { s with vc.tx.vote := v } := hv ▸ execTxloss_open hh ht a
  obtain ⟨t, hn, hx, hb, hs⟩ := sysNext_step (s := s) (u := { s with vc.tx.vote := v }) rfl rfl rfl
  have hvote : t.vc.tx.vote = v := by rw [hs]; simp
  exact ⟨t, he.trans hn, hx, hb, hvote ▸ hs, hvote.trans hv⟩

/-! ### The other words of a step -/

section
variable {s : State} (hh : s.vc.ctl.h = false)
include hh

theorem stepWord_closed (ht : s.vc.tx.state ≠ 1) (a : BitVec 6) :
    exec .txvote s = ctlFault s 0x21 1 0 ∧ exec .txabort s = ctlFault s 0x21 1 0 ∧ exec (.txloss a) s = ctlFault s 0x21 1 0 :=
  ⟨(restricted_outside hh _).trans (if_pos ht), (restricted_outside hh _).trans (if_pos ht),
    (restricted_outside hh _).trans (if_pos ht)⟩

theorem txvote_open (ht : s.vc.tx.state = 1) :
    exec .txvote s = if voteReady s then sysNext { s with vc.tx.state := 2 } else .next s :=
  (restricted_outside hh _).trans (if_neg (not_not_intro ht))

theorem txabort_open (ht : s.vc.tx.state = 1) :
    exec .txabort s = sysNext { s with vc.tx.state := 2, vc.tx.vote := s.vc.tx.vote ||| 1024 } := by
  refine (restricted_outside hh _).trans ((if_neg (not_not_intro ht)).trans ?_)
  rw [VC.voteFlag, if_pos ht]
  rfl

theorem txwait_taken (ht : s.vc.tx.state = 0 ∨ s.vc.tx.state = 3) (d : BitVec 6) :
    exec (.txwait d) s = .next (retire (setX (charge { s with vc.tx.state := 0 } .sys) d s.vc.tx.out)) := by
  refine (restricted_outside hh _).trans ?_
  rcases ht with ht | ht
  · rw [show ({ s with vc.tx.state := 0 } : State) = s by rw [← ht], ht]
    rfl
  · rw [ht]
    exact retire_setX_state s d 0 _

theorem txrd_reads (d : BitVec 6) {k : BitVec 4} (hk : k.toNat < 10) :
    exec (.txrd d k) s = .next (retire (setX (charge s .sys) d (txReg s k.toNat))) :=
  (restricted_outside hh _).trans ((if_neg (by omega)).trans (if_neg (by omega)))

theorem txrd_fetches (d : BitVec 6) {k : BitVec 4} (hk : 10 ≤ k.toNat) (hk' : k.toNat < 14) :
    exec (.txrd d k) s = .next (retire (setX (charge { s with
      vc.tx.c := mput 0 s.vc.tx.c (k.toNat - 10) (mget 0 s.vc.tx.c (k.toNat - 10) + 1) } .sys) d (mget 0 s.vc.tx.c (k.toNat - 10)))) :=
  (restricted_outside hh _).trans ((if_neg (by omega)).trans ((if_pos hk).trans (retire_setX_cursors ..)))

theorem rngk_writes (a : BitVec 6) : exec (.rngk a) s = sysNext { s with vc.tx.k := xr s a } := restricted_outside hh _

theorem rngn_writes (a : BitVec 6) : exec (.rngn a) s = sysNext { s with vc.tx.n := xr s a, vc.tx.adv := 0 } :=
  restricted_outside hh _

end

/-- Settles O35: a word of the step goes on with one register of it changed, and the vote that txloss leaves is `lossVote`. -/
theorem stepWords : Obligations.StepWords := by
  unfold Obligations.StepWords
  refine ⟨fun s d a k hh => ⟨fun ht => stepWord_closed hh ht a, fun ht hr => ?_, fun ht hr => ?_, fun ht => ?_, fun ht => ?_, fun ht => ?_,
    fun ht => ?_, fun hk => ?_, fun hk hk' => ?_, ?_, ?_⟩, fun s a hh ht => ?_⟩
  · rw [txvote_open hh ht, if_neg (by rw [hr]; exact Bool.false_ne_true)]
  · rw [txvote_open hh ht, if_pos hr]
    exact sysNext_step rfl rfl rfl
  · rw [txabort_open hh ht]
    exact sysNext_step rfl rfl rfl
  · exact (restricted_outside hh _).trans (by rw [ht]; rfl)
  · exact (restricted_outside hh _).trans (by rw [ht]; rfl)
  · rw [txwait_taken hh ht]
    obtain ⟨t, hn, hw, hs, hb⟩ := sysMove_step { s with vc.tx.state := 0 } d s.vc.tx.out
    exact ⟨t, hn, hw, hb, hs⟩
  · rw [txrd_reads hh d hk]
    exact sysMove_step ..
  · intro i
    rw [txrd_fetches hh d hk hk']
    generalize hc : mput 0 s.vc.tx.c (k.toNat - 10) (mget 0 s.vc.tx.c (k.toNat - 10) + 1) = c
    have htx := tx_retire_setX_charge { s with vc.tx.c := c } d (mget 0 s.vc.tx.c (k.toNat - 10))
    rw [retire_setX_charge] at htx ⊢
    obtain ⟨hw, hs, hb⟩ := setX_step { s with vc.tx.c := c } .sys d (mget 0 s.vc.tx.c (k.toNat - 10)) 4
    refine ⟨_, rfl, hw, hb, ?_, fun j hj => ?_, ?_⟩
    · rw [htx, ← hc]
      exact mget_mput_same ..
    · rw [htx, ← hc]
      exact mget_mput_ne _ _ _ hj
    · rw [htx]
      exact hs
  · rw [rngk_writes hh]
    exact sysNext_step rfl rfl rfl
  · rw [rngn_writes hh]
    exact sysNext_step rfl rfl rfl
  · intro x was X L W
    obtain ⟨t, hn, hx, hb, hs, hv⟩ := lossVoted hh ht a
    refine ⟨t, hn, hx, hb, hs, ?_⟩
    rw [hv, loss_lossVote]
    have hxlt : x < 2 ^ 32 := Nat.mod_lt _ (by decide)
    have hwas : was < 2 ^ 32 := by have := s.vc.tx.vote.isLt; omega
    refine ⟨flags_lossVote .., fun h => lossVote_spike ?_ _, fun h l hlt => lossVote_spike ?_ _, fun h l hle => lossVote_no_spike ?_ _,
      fun h w hlt => (lossMax_of_lt hwas hxlt w h).1 hlt, fun h w hlt => (lossMax_of_lt hwas hxlt w h).2 hlt⟩
    · exact Bool.or_eq_true_iff.mpr (.inl h)
    · exact (lossSpikes_of_isFin h l).trans (decide_eq_true hlt)
    · exact (lossSpikes_of_isFin h l).trans (decide_eq_false (not_lt.mpr hle))

end Sys2Proof.Machine
end

section
/-! The release of a barrier in an Elastic launch (R350): each domain of the level is looked at by itself. -/

set_option Elab.async false

namespace Sys2Proof.Machine

open Sys2Proof.Laws

theorem allVC_id (s : State) : allVC s id = s := by simp [allVC]

theorem allVC_allVC (s : State) (f g : VC → VC) : allVC (allVC s f) g = allVC s (g ∘ f) := by
  simp [allVC, List.map_map]

theorem vcs_allVC (s : State) (f : VC → VC) : (allVC s f).vcs = s.vcs.map f := rfl

theorem inDomain_iff (l : Level) (d : Nat) (v : VC) : inDomain l d v = true ↔ v.id / domainSize l = d := beq_iff_eq

/-- f moves no virtual core from its domain and leaves those of domain d as they are. -/
def keepsDomain (l : Level) (d : Nat) (f : VC → VC) : Prop := ∀ v, (f v).id = v.id ∧ (inDomain l d v = true → f v = v)

theorem keepsDomain_id (l : Level) (d : Nat) : keepsDomain l d id := fun _ => ⟨rfl, fun _ => rfl⟩

theorem keepsDomain_comp {l : Level} {d : Nat} {f g : VC → VC} (hf : keepsDomain l d f) (hg : keepsDomain l d g) :
    keepsDomain l d (g ∘ f) := by
  refine fun v => ⟨((hg _).1).trans (hf v).1, fun hv => ?_⟩
  rw [Function.comp, (hf v).2 hv]
  exact (hg v).2 hv

/-- What a release of domain d does to a virtual core in an Elastic launch. -/
def releasedIn (l : Level) (d : Nat) (v : VC) : VC := if inDomain l d v then releaseVC false l 0 v else v

theorem keepsDomain_releasedIn (l : Level) {d e : Nat} (h : e ≠ d) : keepsDomain l d (releasedIn l e) := by
  refine fun v => ⟨?_, fun hv => if_neg fun he => h ?_⟩
  · unfold releasedIn
    split <;> rfl
  · rw [inDomain_iff] at hv he
    exact he.symm.trans hv

theorem releaseDomain_elastic {s : State} (hm : s.launch.mode = .elastic) (l : Level) (d : Nat) :
    releaseDomain s l d 0 = allVC s (releasedIn l d) := by
  unfold releaseDomain
  rw [hm]
  rfl

/-- A domain that is looked at leaves every other domain as it is. -/
theorem checkElastic_other {s : State} (hm : s.launch.mode = .elastic) (l : Level) {d e : Nat} (h : e ≠ d) :
    ∃ f, checkElastic s l e = allVC s f ∧ keepsDomain l d f := by
  unfold checkElastic
  dsimp only
  split
  · exact ⟨_, releaseDomain_elastic hm l e, keepsDomain_releasedIn l h⟩
  · exact ⟨id, (allVC_id s).symm, keepsDomain_id l d⟩

theorem foldl_checkElastic_other (l : Level) {d : Nat} (ds : List Nat) (hd : d ∉ ds) {s : State} (hm : s.launch.mode = .elastic) :
    ∃ f, ds.foldl (fun t e => checkElastic t l e) s = allVC s f ∧ keepsDomain l d f := by
  induction ds generalizing s with
  | nil => exact ⟨id, (allVC_id s).symm, keepsDomain_id l d⟩
  | cons e ds ih =>
    obtain ⟨he, hds⟩ := List.ne_and_not_mem_of_not_mem_cons hd
    obtain ⟨f, hf, kf⟩ := checkElastic_other hm l he.symm
    rw [List.foldl_cons, hf]
    obtain ⟨g, hg, kg⟩ := ih hds (s := allVC s f) hm
    exact ⟨g ∘ f, hg.trans (allVC_allVC s f g), keepsDomain_comp kf kg⟩

/-- Every member of domain d waits in its sstep. -/
def domainWaits (s : State) (l : Level) (d : Nat) : Prop :=
  ∀ v ∈ s.vcs, inDomain l d v = true → v.isMember l = true → ∃ a ∈ v.arrived, a.level = l ∧ a.done = false

theorem checkElastic_waits {s : State} (hm : s.launch.mode = .elastic) {l : Level} {d : Nat} (h : domainWaits s l d) :
    checkElastic s l d = allVC s (releasedIn l d) := by
  unfold checkElastic
  refine (if_pos ?_).trans (releaseDomain_elastic hm l d)
  rw [List.all_eq_true]
  intro v hv
  obtain ⟨hv, hmem⟩ := List.mem_filter.mp hv
  obtain ⟨hv, hdom⟩ := List.mem_filter.mp hv
  obtain ⟨a, ha, hl, hdone⟩ := h v hv hdom hmem
  rw [List.any_eq_true]
  exact ⟨a, ha, by simp [hl, hdone]⟩

theorem domainWaits_allVC {s : State} {l : Level} {d : Nat} {f : VC → VC} (hf : keepsDomain l d f) (h : domainWaits s l d) :
    domainWaits (allVC s f) l d := by
  intro v hv hdom hmem
  rw [vcs_allVC] at hv
  obtain ⟨u, hu, rfl⟩ := List.mem_map.mp hv
  have hdu : inDomain l d u = true := by rwa [inDomain, (hf u).1] at hdom
  rw [(hf u).2 hdu] at hmem ⊢
  exact h u hu hdu hmem

/-- The domains of a level, each looked at once: one whose members all wait is released. -/
theorem foldl_checkElastic {l : Level} {d : Nat} {ds : List Nat} (hd : d ∈ ds) (hn : ds.Nodup) {s : State}
    (hm : s.launch.mode = .elastic) (h : domainWaits s l d) :
    ∃ f, ds.foldl (fun t e => checkElastic t l e) s = allVC s f ∧ ∀ v, inDomain l d v = true → f v = releaseVC false l 0 v := by
  obtain ⟨pre, post, rfl⟩ := List.append_of_mem hd
  have hpre : d ∉ pre := fun hp => (List.disjoint_of_nodup_append hn) hp (List.mem_cons_self ..)
  have hpost : d ∉ post := (List.nodup_cons.mp (List.Nodup.of_append_right hn)).1
  obtain ⟨f, hf, kf⟩ := foldl_checkElastic_other l pre hpre hm
  obtain ⟨g, hg, kg⟩ := foldl_checkElastic_other l post hpost (s := allVC (allVC s f) (releasedIn l d)) hm
  refine ⟨g ∘ releasedIn l d ∘ f, ?_, fun v hv => ?_⟩
  · rw [List.foldl_append, hf, List.foldl_cons, checkElastic_waits (s := allVC s f) hm (domainWaits_allVC kf h), hg, allVC_allVC, allVC_allVC]
    rfl
  · have hr : releasedIn l d v = releaseVC false l 0 v := if_pos hv
    rw [Function.comp, Function.comp, (kf v).2 hv, hr]
    exact (kg _).2 hv

theorem barrierRelease_elastic {s : State} (hm : s.launch.mode = .elastic) (l : Level) :
    exec (.barrierRelease l) s = .next ((countUp 0 (1024 / domainSize l)).foldl (fun t e => checkElastic t l e) s) := by
  show execBarrierRelease l s = _
  unfold execBarrierRelease
  rw [hm]

/-- Settles O32: the domain's release is the only thing that an Elastic launch's check does to its virtual cores. -/
theorem barrierRelease : Obligations.BarrierRelease := by
  unfold Obligations.BarrierRelease
  intro s l d hd here hm hw
  have hds : d ∈ countUp 0 (1024 / domainSize l) := mem_countUp.mpr ⟨Nat.zero_le _, by omega⟩
  obtain ⟨f, hf, hr⟩ := foldl_checkElastic (l := l) hds (countUp_zero_eq_range _ ▸ List.nodup_range) hm
    (fun v hv hdom hmem => hw v hv ((inDomain_iff l d v).mp hdom) hmem)
  refine ⟨_, (barrierRelease_elastic hm l).trans (congrArg _ hf), rfl, ?_, fun n v w hv hwn hh => ?_⟩
  · rw [vcs_allVC, List.length_map]
  · rw [vcs_allVC, List.getElem?_map, hv] at hwn
    cases hwn
    rw [hr v ((inDomain_iff l d v).mpr hh)]
    refine ⟨fun a ha hl => ?_, rfl, rfl, rfl⟩
    obtain ⟨b, hb, rfl⟩ := List.mem_map.mp ha
    by_cases hb : b.level = l
    · rw [if_pos hb]
    · rw [if_neg hb] at hl
      exact absurd hl hb

end Sys2Proof.Machine
end

section
/-! The barrier words and the words of DOM outside a handler (R346, R348 to R350). -/

set_option Elab.async false

namespace Sys2Proof.Machine

open Sys2Proof.Laws

/-! ### DOM (R346) -/

theorem getLsbD_domMask (i : Nat) : domMask.getLsbD i = (decide (i < 5) || (decide (40 ≤ i) && decide (i < 64))) := by
  have hfin : ∀ j : Fin 64, domMask.getLsbD j = (decide (j.val < 5) || (decide (40 ≤ j.val) && decide (j.val < 64))) := by decide
  by_cases h : i < 64
  · exact hfin ⟨i, h⟩
  · rw [BitVec.getLsbD_of_ge _ _ (by omega)]
    simp [h]
    omega

/-- DOM once dom.set has written a over d. -/
def domWritten (d a : Word64) : Word64 := (d &&& ~~~domMask) ||| (a &&& domMask)

theorem testBit_domWritten (d a : Word64) {i : Nat} (h : i < 64) :
    (domWritten d a).toNat.testBit i = if i < 5 ∨ 40 ≤ i then a.toNat.testBit i else d.toNat.testBit i := by
  simp only [domWritten, BitVec.testBit_toNat, BitVec.getLsbD_or, BitVec.getLsbD_and, BitVec.getLsbD_not, getLsbD_domMask]
  by_cases h5 : i < 5 <;> by_cases h40 : 40 ≤ i <;> simp [h, h5, h40]

theorem domWritten_mem (d a : Word64) : (domWritten d a).toNat % 2 ^ 5 = a.toNat % 2 ^ 5 := by
  refine Nat.eq_of_testBit_eq fun i => ?_
  rw [Nat.testBit_mod_two_pow, Nat.testBit_mod_two_pow]
  by_cases h : i < 5
  · rw [testBit_domWritten d a (by omega), if_pos (.inl h)]
  · simp [h]

theorem domWritten_stamp (d a : Word64) : (domWritten d a).toNat / 2 ^ 40 = a.toNat / 2 ^ 40 := by
  refine Nat.eq_of_testBit_eq fun i => ?_
  rw [Nat.testBit_div_two_pow, Nat.testBit_div_two_pow]
  by_cases h : i + 40 < 64
  · rw [testBit_domWritten d a h, if_pos (.inr (by omega))]
  · rw [BitVec.testBit_toNat, BitVec.testBit_toNat, BitVec.getLsbD_of_ge _ _ (by omega), BitVec.getLsbD_of_ge _ _ (by omega)]

theorem domWritten_rest (d a : Word64) : (domWritten d a).toNat / 2 ^ 5 % 2 ^ 35 = d.toNat / 2 ^ 5 % 2 ^ 35 := by
  refine Nat.eq_of_testBit_eq fun i => ?_
  rw [Nat.testBit_mod_two_pow, Nat.testBit_mod_two_pow, Nat.testBit_div_two_pow, Nat.testBit_div_two_pow]
  by_cases h : i < 35
  · rw [testBit_domWritten d a (by omega), if_neg (by omega)]
  · simp [h]

theorem fld_stamp (d : Word64) : fld d 63 40 = d.toNat / 2 ^ 40 := by
  have := d.isLt
  rw [fld, bits, Nat.mod_eq_of_lt (by omega)]

/-! ### sstep -/

/-- A charge looks at nothing of a virtual core but its number, and at no report. -/
theorem charge_reports (s : State) (v : VC) (hv : v.id = s.vc.id) (r : List Nat) (c : EClass) :
    charge { s with vc := v, part.reports := r } c = { charge s c with vc := v, part.reports := r } := by
  have hcoef : coef { s with vc := v, part.reports := r } c = coef s c := rfl
  have htag : launchTag { s with vc := v, part.reports := r } = launchTag s := rfl
  unfold charge chargeTo chargeFor
  rw [hcoef, htag, hv]
  by_cases h : coef s c * 1 = 0
  · rw [if_pos h, if_pos h]
  · rw [if_neg h, if_neg h]

theorem acrossDevices_single {s : State} (h : s.launch.multi = false) (l : Level) : acrossDevices s l = false := by
  unfold acrossDevices
  rw [h]
  rfl

/-- A report adds to the reports of the partition alone, and to those only in a launch of several devices. -/
theorem barrierReport_eq (s : State) (l : Level) (b d : Nat) :
    ∃ r, barrierReport s l b d = { s with part.reports := r } ∧ (s.launch.multi = false → r = s.part.reports) := by
  unfold barrierReport
  split
  next h => exact ⟨_, rfl, fun hm => absurd h (by rw [acrossDevices_single hm]; exact Bool.false_ne_true)⟩
  · exact ⟨_, rfl, fun _ => rfl⟩

theorem reportArrivals_eq (s : State) (l : Level) (b : Nat) :
    ∃ r, reportArrivals s l b = { s with part.reports := r } ∧ (s.launch.multi = false → r = s.part.reports) := by
  unfold reportArrivals
  split
  · exact barrierReport_eq s l b 0
  · exact ⟨_, rfl, fun _ => rfl⟩

theorem sstepLock_short {s : State} {l : Level} (h : releaseBeat s < s.vc.now + notice l) : sstepLock s l = ctlFault s 0x26 1 0 := by
  unfold sstepLock
  refine if_pos ?_
  have : s.vc.now ≤ releaseBeat s := Nat.le_add_right ..
  omega

/-- The virtual core in focus after an sstep of a Lockstep launch. -/
def lockArrived (s : State) (l : Level) : VC :=
  { s.vc with
    ctl.pc := s.vc.ctl.pc + 4, ctl.instret := (s.vc.ctl.instret + 1) % 2 ^ 48,
    ctl.lastSstep := some { level := l, seq := s.vc.eng.nextSeq, b := releaseBeat s, instret := (s.vc.ctl.instret + 1) % 2 ^ 48, whole := allMembers s l },
    arrived := s.vc.arrived ++ [arrivalNow s l (releaseBeat s) true] }

theorem sstepLock_eq {s : State} {l : Level} (h : s.vc.now + notice l ≤ releaseBeat s) :
    sstepLock s l = .next (reportArrivals { charge s .sys with vc := lockArrived s l } l (releaseBeat s)) := by
  unfold sstepLock
  dsimp only
  rw [if_neg (by omega)]
  simp only [retire, retireTo, charge_vc, lockArrived]

/-- An sstep of a Lockstep launch whose notice is long enough goes on, with its arrival noted. -/
theorem sstepLock_arrives {s : State} {l : Level} (h : s.vc.now + notice l ≤ releaseBeat s) :
    ∃ t, sstepLock s l = .next t ∧ keepsX s t ∧ keepsBytes s t ∧ t.vc.arrived = s.vc.arrived ++ [arrivalNow s l (releaseBeat s) true] ∧
      (s.launch.multi = false → t.part.reports = s.part.reports) ∧
      ctlStep { s with vc.arrived := t.vc.arrived, vc.ctl.lastSstep := t.vc.ctl.lastSstep, part.reports := t.part.reports } t .sys 4 := by
  obtain ⟨r, hr, hm⟩ := reportArrivals_eq { charge s .sys with vc := lockArrived s l } l (releaseBeat s)
  rw [sstepLock_eq h, hr]
  refine ⟨_, rfl, fun x => rfl, ⟨fun a => by simp [physByte], fun a => rfl⟩, rfl, fun hs => ?_, ?_⟩
  · exact (hm (by simpa using hs)).trans (by simp)
  · have hv := charge_reports s { s.vc with arrived := (lockArrived s l).arrived, ctl.lastSstep := (lockArrived s l).ctl.lastSstep }
      rfl r .sys
    exact congrArg (fun u : State =>
      { u with vc.ctl.x := s.vc.ctl.x, vc.ctl.pc := s.vc.ctl.pc + 4, vc.ctl.instret := (s.vc.ctl.instret + 1) % 2 ^ 48 }) hv.symm

section
variable {s : State} {l : Level}

theorem sstepElastic_waits {r : Arrival} (hr : s.vc.arrived.find? (fun a => decide (a.level = l)) = some r) (hd : r.done = false) :
    sstepElastic s l = .next s := by
  rw [sstepElastic, hr]
  exact if_neg (by rw [hd]; exact Bool.false_ne_true)

theorem sstepElastic_released {r : Arrival} (hr : s.vc.arrived.find? (fun a => decide (a.level = l)) = some r) (hd : r.done = true) :
    ∃ t, sstepElastic s l = .next t ∧ keepsX s t ∧ keepsBytes s t ∧ t.vc.arrived = s.vc.arrived.filter (fun x => decide (x.level ≠ l)) ∧
      ctlStep { s with vc.arrived := t.vc.arrived } t .sys 4 := by
  rw [sstepElastic, hr]
  have hn : ∀ A, A = s.vc.arrived.filter (fun x => decide (x.level ≠ l)) →
      ∃ t, sysNext { s with vc.arrived := A } = .next t ∧ keepsX s t ∧ keepsBytes s t ∧
        t.vc.arrived = s.vc.arrived.filter (fun x => decide (x.level ≠ l)) ∧ ctlStep { s with vc.arrived := t.vc.arrived } t .sys 4 :=
    fun A hA => ⟨_, rfl, keepsX_sysNext rfl, keepsBytes_sysNext rfl rfl, by simp [hA], by simp [ctlStep, retire, retireTo]⟩
  obtain ⟨t, ht, h⟩ := hn _ rfl
  exact ⟨t, (if_pos hd).trans ht, h⟩

theorem sstepElastic_early (hr : s.vc.arrived.find? (fun a => decide (a.level = l)) = none) (hm : s.vc.isMember l = true)
    (ha : arrivedNow s = false) : sstepElastic s l = .next s := by
  rw [sstepElastic, hr]
  exact if_pos (by rw [hm, ha]; rfl)

theorem sstepElastic_arrives (hr : s.vc.arrived.find? (fun a => decide (a.level = l)) = none)
    (h : s.vc.isMember l = false ∨ arrivedNow s = true) :
    ∃ r, sstepElastic s l = .next { s with vc.arrived := s.vc.arrived ++ [r] } ∧ r.level = l ∧ r.done = false ∧
      r.member = s.vc.isMember l := by
  rw [sstepElastic, hr]
  exact ⟨_, if_neg (by rcases h with h | h <;> simp [h]), rfl, rfl, rfl⟩

end

/-! ### The barrier words at each level -/

/-- What an sstep at a level with notice n does. -/
theorem sstepWord {s : State} (hh : s.vc.ctl.h = false) (l : Level) {i : Instr} (hi : exec i s = sstepOp s l) :
    (s.launch.mode = .lockstep → releaseBeat s < s.vc.now + notice l → exec i s = ctlFault s 0x26 1 0) ∧
    (s.launch.mode = .lockstep → s.vc.now + notice l ≤ releaseBeat s →
      ∃ t, exec i s = .next t ∧ keepsX s t ∧ keepsBytes s t ∧ t.vc.arrived = s.vc.arrived ++ [arrivalNow s l (releaseBeat s) true] ∧
        (s.launch.multi = false → t.part.reports = s.part.reports) ∧
        ctlStep { s with vc.arrived := t.vc.arrived, vc.ctl.lastSstep := t.vc.ctl.lastSstep, part.reports := t.part.reports } t .sys 4) ∧
    (s.launch.mode = .elastic → exec i s = sstepElastic s l) := by
  have hs : ∀ m, s.launch.mode = m → sstepOp s l = match m with
      | .lockstep => sstepLock s l
      | .elastic => sstepElastic s l := by
    rintro m rfl
    exact restricted_outside hh _
  refine ⟨fun hm h => ?_, fun hm h => ?_, fun hm => ?_⟩
  · exact hi.trans ((hs _ hm).trans (sstepLock_short h))
  · rw [hi, hs _ hm]
    exact sstepLock_arrives h
  · exact hi.trans (hs _ hm)

/-- Settles O31: the words of DOM by the mask of R346, and each sstep by what its launch's mode asks for. -/
theorem barrierWords : Obligations.BarrierWords := by
  unfold Obligations.BarrierWords
  intro s d a hh
  refine ⟨?_, ?_, fun p hp => ?_⟩
  · rw [show exec (.domGet d) s = .next (retire (setX (charge s .sys) d s.vc.ctl.dom)) from restricted_outside hh _]
    exact sysMove_step ..
  · rw [show exec (.domSet a) s = sysNext { s with vc.ctl.dom := domWritten s.vc.ctl.dom (xr s a) } from restricted_outside hh _]
    have hd : (retire (charge { s with vc.ctl.dom := domWritten s.vc.ctl.dom (xr s a) } .sys)).vc.ctl.dom = domWritten s.vc.ctl.dom (xr s a) := by
      simp
    refine ⟨_, rfl, keepsX_sysNext rfl, keepsBytes_sysNext rfl rfl, ?_⟩
    rw [hd]
    exact ⟨domWritten_mem .., domWritten_stamp .., domWritten_rest .., ctlStep_sysNext _⟩
  · have hl : p.2.2 = notice p.2.1 ∧ exec p.1 s = sstepOp s p.2.1 := by
      simp only [List.mem_cons, List.not_mem_nil, or_false] at hp
      rcases hp with rfl | rfl | rfl | rfl | rfl <;> exact ⟨rfl, rfl⟩
    obtain ⟨hn, hi⟩ := hl
    intro l wait B
    have hB : B = releaseBeat s := by
      unfold releaseBeat
      rw [fld_stamp]
    rw [hn, hB]
    obtain ⟨hshort, harr, hel⟩ := sstepWord hh p.2.1 hi
    refine ⟨hshort, fun hm h => ?_, fun hm => ?_⟩
    · obtain ⟨t, ht, hx, hb, ha, hr⟩ := harr hm h
      exact ⟨t, ht, hx, hb, ⟨_, ha, rfl, rfl, rfl, rfl, rfl⟩, hr⟩
    · rw [hel hm]
      exact ⟨fun r hr => ⟨sstepElastic_waits hr, sstepElastic_released hr⟩, sstepElastic_early, sstepElastic_arrives⟩

end Sys2Proof.Machine
end

section
/-! A pending atomic at its home port (R275, R377, R378): the freeze holds nothing of an Elastic launch. -/

set_option Elab.async false

namespace Sys2Proof.Machine

open Sys2Proof.Laws

/-- A pending add of one to the word at address 0, which the Collie has matched. -/
def matchedAdd : PendAtomic :=
  { op := 0, t := .i32, va := 0, pa := 0, vb := false, v := 1, epoch := none, window := none, name := 0, seq := 0, issued := 0,
    after := 0, faulted := false }

/-- An Elastic launch that has a beat of a freeze, with that add pending. -/
def frozenElastic : State :=
  { vc := { VC.init 0 with run := .running, now := 1, atomics := [matchedAdd] }, peers := [],
    launch := { Launch.init with live := true, mode := .elastic, frozen := some 0 }, part := { Part.init with bound := true },
    others := [], dev := Dev.init, inbox := [], upsets := [], mover := .ctl, fresh := 0 }

/-- No atomic is pending in the state that a step leaves. -/
def atomicsGone : Out → Bool
  | .next t => t.vc.atomics.isEmpty
  | _ => false

/-- The add is performed although a freeze stands. -/
theorem frozenElastic_performs : atomicsGone (exec (.atomicHomePortPerform 0) frozenElastic) = true := by
  decide

/-- Refutes O26: that a freeze holds the atomic is asked of every launch, but only that of a Lockstep launch makes it a replay entry
(R378); in an Elastic launch with a beat of a freeze the atomic is performed and leaves the list. -/
theorem not_atomicPerforms : ¬ Obligations.AtomicPerforms := by
  unfold Obligations.AtomicPerforms
  intro h
  obtain ⟨hwaits, -⟩ := h frozenElastic matchedAdd [] rfl rfl rfl rfl
  have hnow : frozenNow frozenElastic = true := by decide
  have hf : ∀ f, frozenElastic.launch.frozen = some f → matchedAdd.issued ≤ f := fun f _ => Nat.zero_le f
  have hgo := frozenElastic_performs
  rw [hwaits (.inr ⟨hnow, hf⟩)] at hgo
  exact absurd hgo (by decide)

end Sys2Proof.Machine
end

section
/-! The words of the trap frame and the layout of TSTATUS (R376). -/

set_option Elab.async false

namespace Sys2Proof.Machine

open Sys2Proof.Laws

/-! ### TSTATUS -/

/-- A status word with a count from bit 16 on and five bits below. -/
def statusWord (n : Nat) (b9 b8 b3 b2 b0 : Bool) : Word64 :=
  w64 (n * 2 ^ 16 + b2n b9 * 2 ^ 9 + b2n b8 * 2 ^ 8 + b2n b3 * 8 + b2n b2 * 4 + b2n b0)

theorem tstatus_eq (s : State) :
    tstatus s = statusWord (replayHeads s).length (!s.vc.faults.isEmpty) s.vc.ctl.tstep s.launch.frozen.isSome
      (decide (s.launch.mode = .elastic)) s.vc.ctl.h := rfl

theorem b2n_le (b : Bool) : b2n b ≤ 1 := by cases b <;> decide

theorem b2n_beq (b : Bool) : decide (b2n b = 1) = b := by cases b <;> rfl

section
variable (n : Nat) (b9 b8 b3 b2 b0 : Bool)

theorem getLsbD_statusWord {i : Nat} (hi : i < 64) :
    (statusWord n b9 b8 b3 b2 b0).getLsbD i =
      decide ((n * 2 ^ 16 + b2n b9 * 2 ^ 9 + b2n b8 * 2 ^ 8 + b2n b3 * 8 + b2n b2 * 4 + b2n b0) / 2 ^ i % 2 = 1) := by
  rw [statusWord, w64, BitVec.getLsbD_ofNat, decide_eq_true hi, Bool.true_and, Nat.testBit_eq_decide_div_mod_eq]

/-- Each bit of a status word stands in its place. -/
theorem statusWord_bits :
    (statusWord n b9 b8 b3 b2 b0).getLsbD 0 = b0 ∧ (statusWord n b9 b8 b3 b2 b0).getLsbD 1 = false ∧
    (statusWord n b9 b8 b3 b2 b0).getLsbD 2 = b2 ∧ (statusWord n b9 b8 b3 b2 b0).getLsbD 3 = b3 ∧
    (statusWord n b9 b8 b3 b2 b0).getLsbD 8 = b8 ∧ (statusWord n b9 b8 b3 b2 b0).getLsbD 9 = b9 := by
  have h9 := b2n_le b9
  have h8 := b2n_le b8
  have h3 := b2n_le b3
  have h2 := b2n_le b2
  have h0 := b2n_le b0
  have bit (i : Nat) (hi : i < 64) (b : Bool)
      (h : (n * 2 ^ 16 + b2n b9 * 2 ^ 9 + b2n b8 * 2 ^ 8 + b2n b3 * 8 + b2n b2 * 4 + b2n b0) / 2 ^ i % 2 = b2n b) :
      (statusWord n b9 b8 b3 b2 b0).getLsbD i = b := by
    rw [getLsbD_statusWord n b9 b8 b3 b2 b0 hi, h, b2n_beq]
  exact ⟨bit 0 (by decide) b0 (by omega), bit 1 (by decide) false (by rw [show b2n false = 0 from rfl]; omega), bit 2 (by decide) b2 (by omega),
    bit 3 (by decide) b3 (by omega), bit 8 (by decide) b8 (by omega), bit 9 (by decide) b9 (by omega)⟩

theorem statusWord_count (hn : n < 2 ^ 16) : (statusWord n b9 b8 b3 b2 b0).toNat / 2 ^ 16 = n := by
  have h9 := b2n_le b9
  have h8 := b2n_le b8
  have h3 := b2n_le b3
  have h2 := b2n_le b2
  have h0 := b2n_le b0
  rw [statusWord, w64, BitVec.toNat_ofNat]
  omega

end

theorem tstatus_bits (s : State) :
    (tstatus s).getLsbD 0 = s.vc.ctl.h ∧ (tstatus s).getLsbD 1 = false ∧
    (tstatus s).getLsbD 2 = decide (s.launch.mode = .elastic) ∧ (tstatus s).getLsbD 3 = s.launch.frozen.isSome ∧
    (tstatus s).getLsbD 8 = s.vc.ctl.tstep ∧ (tstatus s).getLsbD 9 = !s.vc.faults.isEmpty := by
  rw [tstatus_eq]
  exact statusWord_bits ..

theorem tstatus_count (s : State) (h : (replayHeads s).length < 2 ^ 16) : (tstatus s).toNat / 2 ^ 16 = (replayHeads s).length := by
  rw [tstatus_eq]
  exact statusWord_count _ _ _ _ _ _ h

/-! ### The frame -/

theorem cutWord_empty {s : State} {q : Queue} (h : (s.vc.eng.q q).entries = []) : cutWord s q = 0 := by
  unfold cutWord
  rw [h]
  rfl

theorem cutWord_head {s : State} {q : Queue} {e : QEntry} {r : List QEntry} (h : (s.vc.eng.q q).entries = e :: r) :
    cutWord s q = (r.length + 1) * 2 ^ 56 + e.name := by
  unfold cutWord
  rw [h]
  rfl

/-- Word 10 in its parts. -/
theorem frameWord10_parts {s : State} (ht : ∀ i, mget 0 s.vc.eng.tokens i ≤ 15) (hp : recordsPosted s < 512) :
    (∀ i, i < 4 → frameWord10 s / 2 ^ (4 * i) % 16 = mget 0 s.vc.eng.tokens i) ∧ frameWord10 s / 2 ^ 16 % 512 = recordsPosted s := by
  have h0 := ht 0
  have h1 := ht 1
  have h2 := ht 2
  have h3 := ht 3
  unfold frameWord10 tokCount
  refine ⟨fun i hi => ?_, by omega⟩
  obtain rfl | rfl | rfl | rfl : i = 0 ∨ i = 1 ∨ i = 2 ∨ i = 3 := by omega
  all_goals omega

theorem listAt_take {α : Type} (d : α) (l : List α) {i n : Nat} (h : i < n) : listAt d (l.take n) i = listAt d l i := by
  induction l generalizing i n with
  | nil => rw [List.take_nil]
  | cons x l ih =>
    obtain ⟨n, rfl⟩ : ∃ m, n = m + 1 := ⟨n - 1, by omega⟩
    cases i with
    | zero => rfl
    | succ i => exact ih (by omega)

theorem listAt_replicate (n i : Nat) : listAt 0 (List.replicate n 0) i = 0 := by
  induction n generalizing i with
  | zero => rfl
  | succ n ih => cases i with
    | zero => rfl
    | succ i => exact ih i

theorem listAt_append_zeros (l : List Nat) (n i : Nat) : listAt 0 (l ++ List.replicate n 0) i = listAt 0 l i := by
  induction l generalizing i with
  | nil => exact listAt_replicate n i
  | cons x l ih => cases i with
    | zero => rfl
    | succ i => exact ih i

/-- Stated over any words, so that no word is computed where its place in the list is looked up. -/
theorem listAt_ten (a b c d e f g h i j k : Nat) (r : List Nat) :
    listAt 0 (a :: b :: c :: d :: e :: f :: g :: h :: i :: j :: k :: r) 10 = k := rfl

/-- The words of the frame in their places. -/
theorem frameWords_eq (s : State) (f : FaultRec) :
    frameWords s f = s.vc.ctl.tcause.toNat :: s.vc.ctl.tval.toNat :: f.name :: f.beat % 2 ^ 48 :: cutWord s .ld :: cutWord s .mx ::
      cutWord s .vx :: cutWord s .fx :: cutWord s .rx :: cutWord s .st :: frameWord10 s :: (tstatus s).toNat :: 0 :: 0 :: 0 :: 0 ::
      (replayHeads s ++ List.replicate 64 0).take 64 := rfl

section
variable (s : State) (f : FaultRec)

theorem frameWords_head :
    listAt 0 (frameWords s f) 0 = s.vc.ctl.tcause.toNat ∧ listAt 0 (frameWords s f) 1 = s.vc.ctl.tval.toNat ∧
      listAt 0 (frameWords s f) 2 = f.name ∧ listAt 0 (frameWords s f) 3 = f.beat % 2 ^ 48 := ⟨rfl, rfl, rfl, rfl⟩

theorem frameWords_cut {p : Nat × Queue} (hp : p ∈ ([(4, .ld), (5, .mx), (6, .vx), (7, .fx), (8, .rx), (9, .st)] : List (Nat × Queue))) :
    listAt 0 (frameWords s f) p.1 = cutWord s p.2 := by
  simp only [List.mem_cons, List.not_mem_nil, or_false] at hp
  rcases hp with rfl | rfl | rfl | rfl | rfl | rfl <;> rfl

theorem frameWords_ten : listAt 0 (frameWords s f) 10 = frameWord10 s :=
  (congrArg (fun w => listAt 0 w 10) (frameWords_eq s f)).trans (listAt_ten ..)

theorem frameWords_status : listAt 0 (frameWords s f) 11 = (tstatus s).toNat := rfl

theorem frameWords_zero {i : Nat} (h : 12 ≤ i) (h' : i < 16) : listAt 0 (frameWords s f) i = 0 := by
  obtain rfl | rfl | rfl | rfl : i = 12 ∨ i = 13 ∨ i = 14 ∨ i = 15 := by omega
  all_goals rfl

/-- The last 64 words hold the heads of the replay entries, and zeros behind them. -/
theorem frameWords_replay {i : Nat} (h : i < 64) : listAt 0 (frameWords s f) (16 + i) = listAt 0 (replayHeads s) i := by
  have hdrop : (frameWords s f).drop 16 = (replayHeads s ++ List.replicate 64 0).take 64 := rfl
  rw [← listAt_drop, hdrop, listAt_take 0 _ h, listAt_append_zeros]

end

/-- Settles O19: the words of the frame are read off its list, and TSTATUS is a status word. -/
theorem trapFrame : Obligations.TrapFrame := by
  unfold Obligations.TrapFrame
  intro s f w
  obtain ⟨h0, h1, h2, h3, h8, h9⟩ := tstatus_bits s
  obtain ⟨hcause, hval, hname, hbeat⟩ := frameWords_head s f
  refine ⟨length_frameWords s f, hcause, hval, hname, hbeat, fun p hp => ?_, fun ht hposted => ?_, frameWords_status s f,
    fun i => frameWords_zero s f, fun i => frameWords_replay s f, h0, h1, h2, h3, h8, h9, tstatus_count s⟩
  · rw [frameWords_cut s f hp]
    exact ⟨cutWord_empty, fun e r => cutWord_head⟩
  · rw [frameWords_ten]
    exact frameWord10_parts ht hposted

end Sys2Proof.Machine
end

section
/-! Traps that end a launch (R375, R379), and the completion record that the end writes (R336). -/

set_option Elab.async false

namespace Sys2Proof.Machine

open Sys2Proof.Laws

/-! ### The software trap -/

/-- The fault that trap n raises. -/
def trapRecord (s : State) (n : Nat) : FaultRec :=
  { src := 0, cause := 0x30, detail := n, tval := 0, beat := s.vc.now, name := nameOfPc s.vc.ctl.pc, seq := none,
    tepc := some (s.vc.ctl.pc + 4) }

/-- The state in which trap n has raised its fault. -/
def trapRaised (s : State) (n : Nat) : State := raiseAt (charge s .sys) s.vc.id (trapRecord s n)

theorem trap_inside {s : State} (hh : s.vc.ctl.h = true) (n : BitVec 6) : exec (.trap n) s = endLaunch (charge s .sys) 3 0x30 n.toNat := by
  have hh : (charge s .sys).vc.ctl.h = true := by rw [charge_vc]; exact hh
  exact ctlFaultTo_handler 0x30 n.toNat 0 (s.vc.ctl.pc + 4) hh

theorem trap_outside {s : State} (hh : s.vc.ctl.h = false) (n : BitVec 6) :
    exec (.trap n) s =
      if (trapRaised s n.toNat).launch.mode = .lockstep ∧ (trapRaised s n.toNat).launch.multi = true then
        endLaunch (trapRaised s n.toNat) 3 0x30 n.toNat
      else if stopFormedNow (trapRaised s n.toNat) then takeTrap (trapRaised s n.toNat) else .next (trapRaised s n.toNat) := by
  show ctlFaultTo (charge s .sys) 0x30 n.toNat 0 (s.vc.ctl.pc + 4) = _
  unfold ctlFaultTo trapRaised trapRecord
  rw [charge_vc, if_neg (by rw [hh]; exact Bool.false_ne_true)]
  rfl

theorem trapRaised_from (s : State) (n : Nat) : faultedFrom (charge s .sys) (trapRaised s n) (trapRecord s n) := by
  have h := raiseAt_self (charge s .sys) (trapRecord s n)
  rwa [charge_vc] at h

/-- Of the virtual core the trap's fault changes the vote, the faults and the first cause of the beat. -/
theorem trapRaised_vc (s : State) (n : Nat) :
    (trapRaised s n).vc = { s.vc with tx.vote := (trapRaised s n).vc.tx.vote, faults := s.vc.faults ++ [trapRecord s n],
                                      raised := (trapRaised s n).vc.raised } := by
  have h := congrArg State.vc (trapRaised_from s n)
  rwa [charge_vc] at h

theorem trapRaised_launch (s : State) (n : Nat) :
    (trapRaised s n).launch = { s.launch with frozen := (trapRaised s n).launch.frozen } := by
  have h := congrArg State.launch (trapRaised_from s n)
  rwa [charge_launch] at h

theorem trapRaised_mode (s : State) (n : Nat) : (trapRaised s n).launch.mode = s.launch.mode := by rw [trapRaised_launch]

theorem trapRaised_multi (s : State) (n : Nat) : (trapRaised s n).launch.multi = s.launch.multi := by
  rw [trapRaised_launch]
  rfl

/-- An Elastic launch with nothing queued and nothing in flight has its stop formed (R377). -/
theorem stopFormedNow_idle {s : State} (hm : s.launch.mode = .elastic) (hq : ∀ q, (s.vc.eng.q q).entries = []) (hf : s.vc.eng.flights = [])
    (hr : s.vc.tbl.runs = []) : stopFormedNow s = true := by
  have hall : allQueues.all (fun q => (s.vc.eng.q q).entries.isEmpty) = true := List.all_eq_true.mpr fun q _ => by rw [hq q]; rfl
  rw [stopFormedNow, hm]
  dsimp only
  rw [hall, hf, hr]
  rfl

theorem trap_elastic {s : State} {n : BitVec 6} (hh : s.vc.ctl.h = false) (hfaults : s.vc.faults = []) (hm : s.launch.mode = .elastic)
    (hq : ∀ q, (s.vc.eng.q q).entries = []) (hf : s.vc.eng.flights = []) (hr : s.vc.tbl.runs = []) :
    exec (.trap n) s = enterTrap (trapRaised s n.toNat) (trapRecord s n.toNat) := by
  have hvc := trapRaised_vc s n.toNat
  have hmode := (trapRaised_mode s n.toNat).trans hm
  have hstop : stopFormedNow (trapRaised s n.toNat) = true :=
    stopFormedNow_idle hmode (fun q => by rw [hvc]; exact hq q) (by rw [hvc]; exact hf) (by rw [hvc]; exact hr)
  have hone : (trapRaised s n.toNat).vc.faults = [trapRecord s n.toNat] := by rw [hvc, hfaults]; rfl
  have hin : (trapRaised s n.toNat).vc.ctl.h = false := by rw [hvc]; exact hh
  rw [trap_outside hh, if_neg (fun h => Mode.noConfusion (hmode.symm.trans h.1)), if_pos hstop, takeTrap, hone]
  exact if_neg (by rw [hin]; exact Bool.false_ne_true)

/-! ### Words that a handler may not execute -/

/-- Every word of majors 0x24 to 0x2F but those of 0x2A looks first whether a handler executes it. -/
theorem exec_restricted {i : Instr} {w : Word32} (hw : encodeWord i = some w) (hlo : 0x24 ≤ (majorOf w).toNat)
    (hhi : (majorOf w).toNat < 0x30) (hne : (majorOf w).toNat ≠ 0x2A) {s : State} (hh : s.vc.ctl.h = true) :
    exec i s = endLaunch s 3 0x01 0 := by
  cases i
  case tokPush | tokPop | tokRead | evWait | evPop | evCount | frame | tblLoad | tblRun | tblStop | tblRebase | tblParam | tblWait |
      zsetBase | zsetStride | zsetCount | zsetFmt | zsetScale | zsetRing | zsetAdv | zget | txopen | txloss | txwait | txrd | rngk | rngn |
      txvote | txabort | domSet | domGet | sstepCluster | sstepDie | sstepDevice | sstepHerd | sstepJob | collRed | collBcast | collGath |
      collNorm | collExp | collWait | winReg | winDrop | mbclr | ccbWr | ccbRd | ccbLd | ccbSt | safept | pchk | yield =>
    exact restricted_inside hh _
  all_goals cases hw <;> (revert hlo hhi hne; simp [mkF])

theorem encodeWord_of_last {i : Instr} {ws : List Word32} {w : Word32} (h : encode i = some ws) (hl : ws.getLast? = some w) :
    encodeWord i = some w := by
  unfold encode at h
  split at h
  next v hv =>
    cases h
    rw [List.getLast?_concat] at hl
    exact hv.trans hl
  · cases h

/-! ### The end of a launch -/

/-- Bytes that stand in memory one after another are read as their number. -/
theorem leNat_physRead {s : State} {pa n v : Nat} (h : ∀ i, i < n → physByte s (pa + i) = listAt 0 (leBytes v n) i) :
    leNat (physRead s pa n) = v % 256 ^ n := by
  unfold physRead
  induction n generalizing pa v with
  | zero => rw [Nat.pow_zero, Nat.mod_one]; rfl
  | succ n ih =>
    have hrest := ih (pa := pa + 1) (v := v / 256) fun i hi => by
      rw [Nat.add_assoc, Nat.add_comm 1 i]
      exact h (i + 1) (by omega)
    have hfirst : mget byteDefault s.part.mem pa = BitVec.ofNat 8 v := h 0 (Nat.succ_pos n)
    have hsplit : v % 256 ^ (n + 1) = v % 256 + 256 * (v / 256 % 256 ^ n) := by rw [Nat.pow_succ, Nat.mul_comm, Nat.mod_mul]
    rw [mgets, leNat, hrest, hfirst, BitVec.toNat_ofNat, hsplit]

theorem keepDrains_eq (s : State) (keep : Drain → Bool) :
    ∃ p, keepDrains s keep = { s with part := p } ∧ p.mem = s.part.mem := by
  unfold keepDrains
  dsimp only
  split
  · exact ⟨s.part, rfl, rfl⟩
  · exact ⟨_, rfl, rfl⟩

theorem keepStep_eq (s : State) (failed : Bool) : ∃ p, keepStep s failed = { s with part := p } ∧ p.mem = s.part.mem := by
  unfold keepStep
  dsimp only
  split
  · exact ⟨_, rfl, rfl⟩
  · split
    · exact ⟨_, rfl, rfl⟩
    · exact ⟨_, rfl, rfl⟩

theorem tellEnd_eq (s : State) : ∃ p, tellEnd s = { s with part := p } ∧ p.mem = s.part.mem := by
  unfold tellEnd
  split
  · exact ⟨_, rfl, rfl⟩
  · exact ⟨s.part, rfl, rfl⟩

/-- What a launch that a fault ends keeps for its completion is the partition's. -/
theorem beforeEnd_fault (s : State) (cause : Nat) :
    ∃ p, beforeEnd s 3 cause = { s with vc.raised := endCause s.vc cause, part := p } ∧ p.mem = s.part.mem := by
  obtain ⟨p, hp, hmem⟩ := keepStep_eq { s with vc.raised := endCause s.vc cause } true
  obtain ⟨r, hr, hmem'⟩ := tellEnd_eq (keepStep { s with vc.raised := endCause s.vc cause } true)
  refine ⟨r, (if_pos rfl).trans (hr.trans (by rw [hp])), ?_⟩
  rw [hmem', hp]
  exact hmem

/-- A failed launch is discarded: its virtual cores are cleared, and neither the memory nor the device changes (R375). -/
theorem discardLaunch_failed (s : State) :
    ∃ p, discardLaunch s true = { s with vc := s.vc.clear, peers := s.peers.map VC.clear, launch := .init, part := p } ∧
      p.mem = s.part.mem := by
  obtain ⟨p, hp, hmem⟩ := keepDrains_eq s (fun d => !decide (d.owner = launchTag s))
  unfold discardLaunch
  dsimp only
  rw [if_pos rfl, hp]
  exact ⟨_, rfl, hmem⟩

theorem discarded_fault (s : State) (cause : Nat) :
    ∃ p, discardLaunch (beforeEnd s 3 cause) (decide (3 ≠ 0)) =
        { s with vc := VC.clear { s.vc with raised := endCause s.vc cause }, peers := s.peers.map VC.clear, launch := .init, part := p } ∧
      p.mem = s.part.mem := by
  obtain ⟨p, hp, hmem⟩ := beforeEnd_fault s cause
  obtain ⟨r, hr, hmem'⟩ := discardLaunch_failed (beforeEnd s 3 cause)
  refine ⟨r, hr.trans (by rw [hp]), ?_⟩
  rw [hmem', hp]
  exact hmem

theorem chargeTo_eq (s : State) (who : Option Nat) (c : EClass) (n : Nat) : ∃ l, chargeTo s who c n = { s with part.charges := l } := by
  unfold chargeTo chargeFor
  split
  · exact ⟨s.part.charges, rfl⟩
  · exact ⟨_, rfl⟩

/-- An access through a home slice changes nothing outside the partition. -/
theorem l2Access_eq (s : State) (who : Option Nat) (moved line : Nat) (write : Bool) :
    ∃ p, l2Access s who moved line write = { s with part := p } := by
  obtain ⟨a, ha⟩ := chargeTo_eq s who .l2 moved
  obtain ⟨b, hb⟩ := chargeTo_eq { s with part.charges := a } who .hbm 1
  unfold l2Access
  rw [ha]
  split
  · exact ⟨_, hb⟩
  · dsimp only
    split
    · exact ⟨_, rfl⟩
    · generalize l2Fill s (l2SetOf s line) line write s.part.l2 = f
      obtain ⟨c, hc⟩ := chargeTo_eq { s with part.charges := a } who .hbm (1 + b2n f.2)
      exact ⟨_, congrArg (fun u : State => { u with part.l2 := f.1 }) hc⟩

theorem deviceWrite_eq (s : State) (pa : Nat) (d : List Byte) : ∃ p, deviceWrite s pa d = { s with part := p } := by
  have hlines : ∀ (ls : List Nat) (u : State), ∃ p, ls.foldl (fun t l => l2Access t none 1 l true) u = { u with part := p } := by
    intro ls
    induction ls with
    | nil => exact fun u => ⟨u.part, rfl⟩
    | cons l ls ih =>
      intro u
      obtain ⟨p, hp⟩ := l2Access_eq u none 1 l true
      obtain ⟨r, hr⟩ := ih { u with part := p }
      exact ⟨r, by rw [List.foldl_cons, hp, hr]⟩
  obtain ⟨p, hp⟩ := hlines (linesMet pa d.length) s
  unfold deviceWrite
  rw [hp]
  exact ⟨_, rfl⟩

/-- The record of slot c of queue q that says w, and progress past it. -/
def slotDone (s : State) (q c w : Nat) : State :=
  let s1 := deviceWrite s (fld (qword s q 1) 55 0 + 16 * (c % qslots s q)) (leBytes w 8 ++ leBytes 0 8)
  setQword s1 q 2 (w64 ((c + 1) % 2 ^ 32 * 2 ^ 32 + qtail s1 q))

theorem completeSlot_done {s : State} {q c : Nat} (h : fld (qword s q 1) 55 0 + 16 * (c % qslots s q) + 16 ≤ s.cp) (status cause detail : Nat) :
    completeSlot s q c status cause detail =
      .next (slotDone s q c (c % 2 ^ 32 * 2 ^ 32 + status * 2 ^ 24 + cause * 2 ^ 16 + detail)) := if_neg (Nat.not_lt.mpr h)

theorem slotDone_eq (s : State) (q c w : Nat) :
    ∃ p, slotDone s q c w = { s with
      part := p, dev.queues := mput 0 s.dev.queues (8 * q + 2) (w64 ((c + 1) % 2 ^ 32 * 2 ^ 32 + qtail s q)) } := by
  obtain ⟨p, hp⟩ := deviceWrite_eq s (fld (qword s q 1) 55 0 + 16 * (c % qslots s q)) (leBytes w 8 ++ leBytes 0 8)
  refine ⟨p, ?_⟩
  unfold slotDone
  rw [hp]
  rfl

theorem progressWord (c : Nat) {r : Nat} (h : r < 2 ^ 32) :
    fld (w64 (c % 2 ^ 32 * 2 ^ 32 + r)) 63 32 = c % 2 ^ 32 ∧ fld (w64 (c % 2 ^ 32 * 2 ^ 32 + r)) 31 0 = r := by
  simp only [fld, bits, w64, BitVec.toNat_ofNat]
  omega

theorem qtail_lt (s : State) (q : Nat) : qtail s q < 2 ^ 32 := Nat.mod_lt _ (by decide)

/-- Progress has passed the slot and the tail stands. -/
theorem slotDone_queue (s : State) (q c w : Nat) :
    qprogress (slotDone s q c w) q = (c + 1) % 2 ^ 32 ∧ qtail (slotDone s q c w) q = qtail s q := by
  obtain ⟨p, hp⟩ := slotDone_eq s q c w
  have hw : qword (slotDone s q c w) q 2 = w64 ((c + 1) % 2 ^ 32 * 2 ^ 32 + qtail s q) := by
    rw [hp]
    exact mget_mput_same ..
  have hfields := progressWord (c + 1) (qtail_lt s q)
  rw [← hw] at hfields
  exact hfields

/-- Where the record of slot c of queue q stands. -/
def slotAt (s : State) (q c : Nat) : Nat := fld (qword s q 1) 55 0 + 16 * (c % qslots s q)

theorem slotDone_mem (s : State) (q c w : Nat) :
    (slotDone s q c w).part.mem = mputs byteDefault s.part.mem (slotAt s q c) (leBytes w 8 ++ leBytes 0 8) :=
  (show (slotDone s q c w).part.mem = (deviceWrite s (slotAt s q c) (leBytes w 8 ++ leBytes 0 8)).part.mem from rfl).trans
    (deviceWrite_part_mem ..)

theorem listAt_append_left {α : Type} (d : α) (l r : List α) {i : Nat} (h : i < l.length) : listAt d (l ++ r) i = listAt d l i := by
  induction l generalizing i with
  | nil => exact absurd h (Nat.not_lt_zero i)
  | cons x l ih => cases i with
    | zero => rfl
    | succ i => exact ih (Nat.lt_of_succ_lt_succ h)

theorem listAt_append_right {α : Type} (d : α) (l r : List α) (i : Nat) : listAt d (l ++ r) (l.length + i) = listAt d r i := by
  induction l with
  | nil => rw [List.length_nil, Nat.zero_add, List.nil_append]
  | cons x l ih => rw [List.length_cons, Nat.add_right_comm]; exact ih

theorem physByte_of_mputs {s t : State} {pa : Nat} {d : List Byte} (h : t.part.mem = mputs byteDefault s.part.mem pa d) (a : Nat) :
    physByte t a = physByte (physWrite s pa d) a := physByte_of_mem h a

/-- The 16 bytes of a completion record, and the rest of the memory. -/
theorem record_read {s t : State} {pa w : Nat} (hm : t.part.mem = mputs byteDefault s.part.mem pa (leBytes w 8 ++ leBytes 0 8))
    (hw : w < 2 ^ 64) :
    leNat (physRead t pa 8) = w ∧ leNat (physRead t (pa + 8) 8) = 0 ∧ ∀ b, b < pa ∨ pa + 16 ≤ b → physByte t b = physByte s b := by
  have hlen : (leBytes w 8 ++ leBytes 0 8).length = 16 := by rw [List.length_append, length_leBytes, length_leBytes]
  have hbyte := physByte_of_mputs hm
  refine ⟨?_, ?_, fun b hb => ?_⟩
  · rw [leNat_physRead (v := w)]
    · exact Nat.mod_eq_of_lt hw
    · intro i hi
      rw [hbyte, physByte_physWrite_inside _ _ (by omega), listAt_append_left 0 _ _ (by rwa [length_leBytes])]
  · rw [leNat_physRead (v := 0)]
    · exact Nat.zero_mod _
    · intro i hi
      have hright := listAt_append_right 0 (leBytes w 8) (leBytes 0 8) i
      rw [length_leBytes] at hright
      rw [hbyte, Nat.add_assoc, physByte_physWrite_inside _ _ (by omega), hright]
  · rw [hbyte]
    exact physByte_physWrite_outside s (by omega)

/-- A launch that a fault ends has its record, and nothing of it is left (R336, R375). -/
theorem endLaunch_recorded {s : State} (hat : slotAt s s.launch.queue s.launch.slot + 16 ≤ s.cp) {c d : Nat} (hc : c < 256) (hd : d < 2 ^ 16) :
    ∃ t, endLaunch s 3 c d = .next t ∧
      leNat (physRead t (slotAt s s.launch.queue s.launch.slot) 8) = s.launch.slot % 2 ^ 32 * 2 ^ 32 + 3 * 2 ^ 24 + c * 2 ^ 16 + d ∧
      leNat (physRead t (slotAt s s.launch.queue s.launch.slot + 8) 8) = 0 ∧
      (∀ b, b < slotAt s s.launch.queue s.launch.slot ∨ slotAt s s.launch.queue s.launch.slot + 16 ≤ b → physByte t b = physByte s b) ∧
      qprogress t s.launch.queue = (s.launch.slot + 1) % 2 ^ 32 ∧ qtail t s.launch.queue = qtail s s.launch.queue ∧
      t.launch = .init ∧ t.vc = VC.clear { s.vc with raised := t.vc.raised } ∧ t.peers = s.peers.map VC.clear := by
  have hw : s.launch.slot % 2 ^ 32 * 2 ^ 32 + 3 * 2 ^ 24 + c * 2 ^ 16 + d < 2 ^ 64 := by omega
  generalize hword : s.launch.slot % 2 ^ 32 * 2 ^ 32 + 3 * 2 ^ 24 + c * 2 ^ 16 + d = w at hw ⊢
  have hdone := completeSlot_done hat 3 c d
  rw [hword] at hdone
  obtain ⟨p, hp, hmem⟩ := discarded_fault (slotDone s s.launch.queue s.launch.slot w) c
  have hend : endLaunch s 3 c d = .next (discardLaunch (beforeEnd (slotDone s s.launch.queue s.launch.slot w) 3 c) (decide (3 ≠ 0))) := by
    unfold endLaunch
    rw [hdone]
  obtain ⟨hprog, htail⟩ := slotDone_queue s s.launch.queue s.launch.slot w
  obtain ⟨p', hp'⟩ := slotDone_eq s s.launch.queue s.launch.slot w
  have hvc : (slotDone s s.launch.queue s.launch.slot w).vc = s.vc := by rw [hp']
  have hpeers : (slotDone s s.launch.queue s.launch.slot w).peers = s.peers := by rw [hp']
  refine ⟨_, hend, ?_⟩
  rw [hp]
  obtain ⟨hr, hz, hb⟩ := record_read (s := s) (pa := slotAt s s.launch.queue s.launch.slot) (hmem.trans (slotDone_mem ..)) hw
    (t := { slotDone s s.launch.queue s.launch.slot w with
      vc := VC.clear { (slotDone s s.launch.queue s.launch.slot w).vc with
        raised := endCause (slotDone s s.launch.queue s.launch.slot w).vc c },
      peers := (slotDone s s.launch.queue s.launch.slot w).peers.map VC.clear, launch := .init, part := p })
  refine ⟨hr, hz, hb, hprog, htail, rfl, ?_, ?_⟩
  · rw [hvc]
    rfl
  · rw [hpeers]

/-- Settles O20: the first three clauses are the ways to the end of a launch, the fourth the record that the end writes. -/
theorem trapsThatEndLaunches : Obligations.TrapsThatEndLaunches := by
  unfold Obligations.TrapsThatEndLaunches
  refine fun s => ⟨fun n hh => trap_inside hh n, fun i ws w _ hi hl hlo hhi hne hh => ?_, fun u n hh hfaults hcase hu => ?_, fun c d hc hd => ?_⟩
  · rw [← toNat_majorOf] at hlo hhi hne
    exact exec_restricted (encodeWord_of_last hi hl) hlo hhi hne hh
  · have hu : u = trapRaised s n.toNat := hu
    subst hu
    rcases hcase with ⟨hm, htvec, hq, hf, hr⟩ | ⟨hm, hmulti⟩
    · rw [trap_elastic hh hfaults hm hq hf hr]
      exact enterTrap_without_handler _ (by rw [trapRaised_vc]; exact htvec)
    · rw [trap_outside hh, if_pos ⟨(trapRaised_mode s n.toNat).trans hm, (trapRaised_multi s n.toNat).trans hmulti⟩]
  · intro q at_ hat
    exact endLaunch_recorded hat hc hd

end Sys2Proof.Machine
end

section
/-! What a translation reads (R248, R249): states that agree on it translate alike. -/

set_option Elab.async false

namespace Sys2Proof.Machine

open Sys2Proof.Laws

/-- The state without what no translation reads. -/
def walkView (s : State) : State :=
  { s with vc := { VC.init s.vc.id with tlb := s.vc.tlb }, peers := [], launch := .init,
           part.charges := [], part.counts := [], part.devVote := 0 }

theorem walkView_chargeTo (s : State) (who : Option Nat) (c : EClass) (n : Nat) : walkView (chargeTo s who c n) = walkView s := by
  obtain ⟨l, hl⟩ := chargeTo_eq s who c n
  rw [hl]
  rfl

theorem walkView_l2 {s t : State} (h : walkView s = walkView t) (l : List L2Line) :
    walkView { s with part.l2 := l } = walkView { t with part.l2 := l } :=
  congrArg (fun u : State => { u with part.l2 := l }) h

/-- An access through a home slice leaves alike what a translation reads. -/
theorem walkView_l2Access {s t : State} (h : walkView s = walkView t) (who who' : Option Nat) (moved line : Nat) (write : Bool) :
    walkView (l2Access s who moved line write) = walkView (l2Access t who' moved line write) := by
  have hways : l2Ways s (l2SetOf s line) = l2Ways t (l2SetOf t line) :=
    show l2Ways (walkView s) (l2SetOf (walkView s) line) = l2Ways (walkView t) (l2SetOf (walkView t) line) by rw [h]
  have hl2 : s.part.l2 = t.part.l2 := show (walkView s).part.l2 = (walkView t).part.l2 by rw [h]
  have hfill : l2Fill s (l2SetOf s line) line write s.part.l2 = l2Fill t (l2SetOf t line) line write t.part.l2 :=
    show l2Fill (walkView s) (l2SetOf (walkView s) line) line write (walkView s).part.l2 =
      l2Fill (walkView t) (l2SetOf (walkView t) line) line write (walkView t).part.l2 by rw [h]
  unfold l2Access
  rw [hways, hfill, hl2]
  split
  · rw [walkView_chargeTo, walkView_chargeTo, walkView_chargeTo, walkView_chargeTo]
    exact h
  · have hs (u v : State) (a b : Option Nat) (huv : walkView u = walkView v) (k n : Nat) (e f : EClass) :
        walkView (chargeTo (chargeTo u a e k) a f n) = walkView (chargeTo (chargeTo v b e k) b f n) := by
      rw [walkView_chargeTo, walkView_chargeTo, walkView_chargeTo, walkView_chargeTo, huv]
    dsimp only
    split
    · exact walkView_l2 (by rw [walkView_chargeTo, walkView_chargeTo, h]) _
    · exact walkView_l2 (hs s t who who' h _ _ _ _) _

theorem walkGo_of_view {s t : State} (h : walkView s = walkView t) (table va n : Nat) : (walkGo s table va n).2 = (walkGo t table va n).2 := by
  have hread {s t : State} (h : walkView s = walkView t) (level pa : Nat) (b : List Byte) : pteRead s level va pa b = pteRead t level va pa b :=
    show pteRead (walkView s) level va pa b = pteRead (walkView t) level va pa b by rw [h]
  have hbytes {s t : State} (h : walkView s = walkView t) (pa : Nat) : physRead s pa 8 = physRead t pa 8 :=
    show physRead (walkView s) pa 8 = physRead (walkView t) pa 8 by rw [h]
  induction n generalizing s t table with
  | zero =>
    rw [walkGo, walkGo]
    dsimp only [homeRead]
    rw [hbytes h, hread h]
    generalize pteRead t 0 va _ _ = r
    rcases r with d | ⟨x⟩ | e <;> rfl
  | succ n ih =>
    rw [walkGo, walkGo]
    dsimp only [homeRead]
    rw [hbytes h, hread h]
    generalize pteRead t (n + 1) va _ _ = r
    rcases r with d | ⟨x⟩ | e
    · rfl
    · exact ih (walkView_l2Access h ..) x
    · rfl

theorem walk_of_view {s t : State} (h : walkView s = walkView t) (va : Nat) : (walk s va).2 = (walk t va).2 := by
  have hcp : s.cp = t.cp := show (walkView s).cp = (walkView t).cp by rw [h]
  have hroot : s.part.ptroot = t.part.ptroot := show (walkView s).part.ptroot = (walkView t).part.ptroot by rw [h]
  unfold walk
  rw [hcp, hroot]
  dsimp only
  split
  · rfl
  · exact walkGo_of_view h ..

/-- States that agree on what a translation reads find the same translation of an address. -/
theorem lookup_of_view {s t : State} (h : walkView s = walkView t) (va : Nat) : (lookup s va).2 = (lookup t va).2 := by
  have htlb : s.vc.tlb = t.vc.tlb := show (walkView s).vc.tlb = (walkView t).vc.tlb by rw [h]
  have hclus : s.part.ctlb.find? (fun p => p.1 == clusterOf s && p.2.hits va) =
      t.part.ctlb.find? (fun p => p.1 == clusterOf t && p.2.hits va) :=
    show (walkView s).part.ctlb.find? (fun p => p.1 == clusterOf (walkView s) && p.2.hits va) =
      (walkView t).part.ctlb.find? (fun p => p.1 == clusterOf (walkView t) && p.2.hits va) by rw [h]
  have hrun : walkOf s va = walkOf t va := show walkOf (walkView s) va = walkOf (walkView t) va by rw [h]
  have hwalk := walk_of_view h va
  unfold lookup
  rw [htlb, hclus, hrun]
  split
  · rfl
  split
  · rfl
  split
  · split <;> rfl
  · rcases hs : walk s va with ⟨s1, a⟩
    rcases ht : walk t va with ⟨t1, b⟩
    rw [hs, ht] at hwalk
    cases hwalk
    cases a <;> rfl

/-- They also agree on where an access may go. -/
theorem translate_of_view {s t : State} (h : walkView s = walkView t) {va : Nat} {k : AccKind} {u : State} {x : Nat × TlbE}
    (hs : translate s va k = .ok u x) : ∃ v, translate t va k = .ok v x := by
  obtain ⟨-, hl, hd, hpa⟩ := translate_ok hs
  rw [lookup_of_view h va] at hl
  have ht := translate_of_lookup hl hd
  rw [← hpa] at ht
  exact ⟨_, ht⟩

theorem spanPlaces_of_view {s t : State} (h : walkView s = walkView t) {va n pa : Nat} {k : AccKind} (hs : spanPlaces s va n k pa) :
    spanPlaces t va n k pa := by
  obtain ⟨hlq, hspan, ⟨u, e, htr, hvb, hsize⟩, hpoison⟩ := hs
  have hq : t.dev.lq = s.dev.lq := show (walkView t).dev.lq = (walkView s).dev.lq by rw [h]
  have hp : t.part.poison = s.part.poison := show (walkView t).part.poison = (walkView s).part.poison by rw [h]
  obtain ⟨v, hv⟩ := translate_of_view h htr
  exact ⟨hq ▸ hlq, hspan, ⟨v, e, hv, hvb, hsize⟩, hp ▸ hpoison⟩

theorem storable_of_view {s t : State} (h : walkView s = walkView t) (he : t.vc.eng = s.vc.eng) {va : Word64} {n : Nat} (hs : storable s va n) :
    storable t va n := by
  obtain ⟨hrange, hmap, hhaz, pa, hspan⟩ := hs
  have hhaz' : memHazard t va.toNat n = false := by
    unfold memHazard at hhaz ⊢
    rw [he]
    exact hhaz
  exact ⟨hrange, hmap, hhaz', pa, spanPlaces_of_view h hspan⟩

end Sys2Proof.Machine
end

section
/-! The software trap (R374, R378): the trap that it enters, and the freeze that it begins. -/

set_option Elab.async false

namespace Sys2Proof.Machine

open Sys2Proof.Laws

/-! ### The fault of trap n -/

/-- A fault that is no uncorrectable error enters no counter. -/
theorem raiseAt_part {f : FaultRec} (h : f.cause ≠ 0x28) (s : State) (n : Nat) : (raiseAt s n f).part = s.part := by
  have hcount : eccOutside (countError s f.cause f.detail) n f.cause = s := by
    rw [countError, if_neg h, eccOutside, if_neg fun hc => h hc.1]
  rw [raiseAt_eq, faultNoted, hcount, updVC]
  split <;> rfl

theorem trapRaised_part (s : State) (n : Nat) : (trapRaised s n).part = (charge s .sys).part := raiseAt_part (by decide : 0x30 ≠ 0x28) ..

theorem trapRaised_dev (s : State) (n : Nat) : (trapRaised s n).dev = s.dev := (raiseAt_dev ..).trans (charge_dev ..)

theorem trapRaised_faults {s : State} (h : s.vc.faults = []) (n : Nat) : (trapRaised s n).vc.faults = [trapRecord s n] := by
  rw [trapRaised_vc, h]
  rfl

theorem trapRaised_keepsX (s : State) (n : Nat) : keepsX s (trapRaised s n) := fun r => by rw [xr, trapRaised_vc, xr]

theorem trapRaised_keepsBytes (s : State) (n : Nat) : keepsBytes s (trapRaised s n) := by
  refine ⟨fun a => ?_, fun a => by rw [trapRaised_vc]⟩
  rw [physByte, trapRaised_part, charge_part_mem, physByte]

/-- A Lockstep launch that is not frozen yet freezes at this beat (R378). -/
theorem raiseAt_frozen {s : State} (hm : s.launch.mode = .lockstep) (hf : s.launch.frozen = none) (f : FaultRec) :
    (raiseAt s s.vc.id f).launch.frozen = some s.vc.now := by
  have hmode : (faultNoted s s.vc.id f).launch.mode = .lockstep := by rw [faultNoted_launch, hm]
  have hfrozen : (faultNoted s s.vc.id f).launch.frozen = none := by rw [faultNoted_launch, hf]
  have hnow : (faultNoted s s.vc.id f).vc.now = s.vc.now := by rw [faultNoted_self, withFault_keeps]
  unfold raiseAt
  dsimp only
  split
  · exact congrArg some hnow
  next hf' => exact nomatch hf'.symm.trans hfrozen
  next he => exact nomatch he.symm.trans hmode

theorem trapRaised_freezes {s : State} (hm : s.launch.mode = .lockstep) (hf : s.launch.frozen = none) (n : Nat) :
    (trapRaised s n).launch.frozen = some s.vc.now := by
  have h := raiseAt_frozen (s := charge s .sys) (by rw [charge_launch, hm]) (by rw [charge_launch, hf]) (trapRecord s n)
  rwa [charge_vc] at h

theorem walkView_trapRaised (s : State) (n : Nat) : walkView s = walkView (trapRaised s n) := by
  have h := trapRaised_from s n
  have hp := trapRaised_part s n
  obtain ⟨l, hl⟩ := charge_eq s .sys 1
  generalize trapRaised s n = t at h hp
  unfold faultedFrom at h
  rw [hp, hl] at h
  rw [h]
  rfl

theorem tcause_trapRecord (s : State) (n : BitVec 6) : (trapRecord s n.toNat).tcause = w64 (0x30 + 256 * n.toNat) := by
  have hn : n.toNat % 256 = n.toNat := Nat.mod_eq_of_lt (by omega)
  have htiming : b2n (timingCause 0x30 n.toNat) = 0 := rfl
  unfold FaultRec.tcause trapRecord
  dsimp only
  rw [hn, htiming]
  congr 1
  omega

/-! ### The handler that an Elastic launch enters -/

/-- What the handler of trap n finds. -/
def softEntered (s : State) (n : BitVec 6) (t : State) : Prop :=
  keepsX s t ∧ t.vc.ctl.flags = s.vc.ctl.flags ∧ t.vc.ctl.frm = s.vc.ctl.frm ∧
  t.vc.ctl.tcause = w64 (0x30 + 256 * n.toNat) ∧ t.vc.ctl.tval = 0 ∧ t.vc.ctl.h = true ∧
  t.vc.ctl.tepc = w64 ((s.vc.ctl.pc + 4).toNat % 2 ^ 56 / 4 * 4) ∧ t.vc.run = .running ∧
  t.vc.ctl.pc = w64 (s.vc.ctl.tvec.toNat % 2 ^ 56 / 4 * 4)

section
variable {s : State} {n : BitVec 6}

theorem trapCtl_trapRaised (s : State) (n : BitVec 6) :
    trapCtl (trapRaised s n.toNat) (trapRecord s n.toNat) =
      { s.vc.ctl with tcause := w64 (0x30 + 256 * n.toNat), tval := 0, h := true, tstep := (trapRaised s n.toNat).vc.stepOpen,
                      tepc := w64 ((s.vc.ctl.pc + 4).toNat % 2 ^ 56 / 4 * 4), cur := some (trapRecord s n.toNat),
                      fenceSeq := none, matched := some 0, was := s.vc.run } := by
  have hctl : (trapRaised s n.toNat).vc.ctl = s.vc.ctl := by rw [trapRaised_vc]
  have hrun : (trapRaised s n.toNat).vc.run = s.vc.run := by rw [trapRaised_vc]
  unfold trapCtl
  rw [tcause_trapRecord, hctl, hrun]
  rfl

/-- The state in which the frame of trap n is stored. -/
theorem trapState_trapRaised (hfaults : s.vc.faults = []) :
    trapState (trapRaised s n.toNat) (trapRecord s n.toNat) =
      { trapRaised s n.toNat with
        vc.faults := [], vc.ctl := trapCtl (trapRaised s n.toNat) (trapRecord s n.toNat), vc.run := .running, vc.ctlSeen := false } := by
  have hnone : (trapRaised s n.toNat).vc.faults.filter (fun g => g != trapRecord s n.toNat) = [] := by
    rw [trapRaised_faults hfaults]
    simp
  unfold trapState
  rw [hnone]
  rfl

theorem softEntered_of_stored {u : State} {ws : List Nat} {va : Word64}
    (h : storeWords (trapState (trapRaised s n.toNat) (trapRecord s n.toNat)) va ws = .ok u ()) :
    softEntered s n { u with vc.ctl.pc := handlerPc u.vc.ctl.tvec, vc.ctl.matched := none } := by
  obtain ⟨hctl, hrun⟩ := storeWords_ctl h
  have hctl : u.vc.ctl = trapCtl (trapRaised s n.toNat) (trapRecord s n.toNat) := hctl
  rw [trapCtl_trapRaised] at hctl
  refine ⟨fun r => ?_, ?_, ?_, congrArg Ctl.tcause hctl, congrArg Ctl.tval hctl, congrArg Ctl.h hctl, congrArg Ctl.tepc hctl, hrun, ?_⟩
  · show (if r = 0 then 0 else mget 0 u.vc.ctl.x r.toNat) = _
    rw [hctl]
    rfl
  · show u.vc.ctl.flags = _
    rw [hctl]
  · show u.vc.ctl.frm = _
    rw [hctl]
  · show handlerPc u.vc.ctl.tvec = _
    rw [hctl, handlerPc, fld_pc]

theorem frameAddr_trapRaised (s : State) (n : Nat) : frameAddr (trapRaised s n) = w64 ((xr s 2).toNat / 64 * 64) - 640 := by
  rw [frameAddr, trapRaised_keepsX]

theorem frameAddr_aligned (s : State) : (frameAddr s).toNat % 8 = 0 := by
  have hw : (w64 ((xr s 2).toNat / 64 * 64)).toNat = (xr s 2).toNat / 64 * 64 := Nat.mod_eq_of_lt (by omega)
  rw [frameAddr, BitVec.toNat_sub, hw]
  show (2 ^ 64 - 640 + _) % 2 ^ 64 % 8 = 0
  omega

/-- Where a frame can be stored, its stores go through. -/
theorem frame_stored {f : FaultRec} {u : State} (h : storable u (frameAddr u) 640) :
    ∃ t, storeWords (trapState u f) (frameAddr u) (frameWords (trapState u f) f) = .ok t () := by
  obtain ⟨e, hcan, hl⟩ := canStore_trapping h (frameAddr_aligned u) (c := trapCtl u f) rfl (u.vc.faults.filter (fun g => g != f))
  have hlen : 8 * (frameWords (trapState u f) f).length = 640 := by rw [length_frameWords]
  rw [← hlen] at hcan
  obtain ⟨t, ht, -⟩ := storeWords_ok hcan fun _ => hl
  exact ⟨t, ht⟩

variable (hh : s.vc.ctl.h = false) (hfaults : s.vc.faults = []) (htvec : s.vc.ctl.tvec ≠ 0) (hm : s.launch.mode = .elastic)
  (hq : ∀ q, (s.vc.eng.q q).entries = []) (hf : s.vc.eng.flights = []) (hr : s.vc.tbl.runs = [])
include hh hfaults htvec hm hq hf hr

/-- With nothing to wait for, an Elastic launch enters the handler of trap n once the frame is stored. -/
theorem trap_enters {u : State} (h : storeWords (trapState (trapRaised s n.toNat) (trapRecord s n.toNat)) (frameAddr (trapRaised s n.toNat))
      (frameWords (trapState (trapRaised s n.toNat) (trapRecord s n.toNat)) (trapRecord s n.toNat)) = .ok u ()) :
    ∃ t, exec (.trap n) s = .next t ∧ softEntered s n t ∧ t.part.mem = u.part.mem ∧ t.vc.dcache = u.vc.dcache ∧
      t.launch.maps = u.launch.maps := by
  have htvec : (trapRaised s n.toNat).vc.ctl.tvec ≠ 0 := by rw [trapRaised_vc]; exact htvec
  exact ⟨_, (trap_elastic hh hfaults hm hq hf hr).trans (enterTrap_of_stored htvec h), softEntered_of_stored h, rfl, rfl, rfl⟩

theorem trap_enters_storable (h : storable s (w64 ((xr s 2).toNat / 64 * 64) - 640) 640) :
    ∃ t, exec (.trap n) s = .next t ∧ softEntered s n t := by
  rw [← frameAddr_trapRaised s n.toNat] at h
  have h := storable_of_view (walkView_trapRaised s n.toNat) (by rw [trapRaised_vc]) h
  obtain ⟨u, hu⟩ := frame_stored h
  obtain ⟨t, ht, he, -⟩ := trap_enters hh hfaults htvec hm hq hf hr hu
  exact ⟨t, ht, he⟩

end

/-! ### The freeze that a Lockstep launch begins -/

theorem trap_freezes {s : State} {n : BitVec 6} (hh : s.vc.ctl.h = false) (hm : s.launch.mode = .lockstep) (hmulti : s.launch.multi = false) :
    exec (.trap n) s = .next (trapRaised s n.toNat) := by
  have hmode := (trapRaised_mode s n.toNat).trans hm
  have hone : ¬((trapRaised s n.toNat).launch.mode = .lockstep ∧ (trapRaised s n.toNat).launch.multi = true) := fun h =>
    Bool.false_ne_true (hmulti.symm.trans ((trapRaised_multi s n.toNat).symm.trans h.2))
  rw [trap_outside hh, if_neg hone, if_neg (by rw [stopFormedNow, hmode]; exact Bool.false_ne_true)]

/-- Settles O18: an Elastic launch enters the trap through the stores of its frame, and a Lockstep launch freezes. -/
theorem softwareTrap : Obligations.SoftwareTrap := by
  unfold Obligations.SoftwareTrap
  intro s n f s0 s1 frame hh hfaults htvec
  refine ⟨fun hm hq hf hr => ?_, fun hm hmulti => ?_⟩
  · intro entered
    refine ⟨trap_enters_storable hh hfaults htvec hm hq hf hr, fun u hu => ?_⟩
    have hs1 : s1 = trapState (trapRaised s n.toNat) (trapRecord s n.toNat) := by
      have hrun : (trapRaised s n.toNat).vc.run = s.vc.run := by rw [trapRaised_vc]
      rw [trapState_trapRaised hfaults, trapCtl, tcause_trapRecord, hrun]
      rfl
    rw [hs1] at hu
    exact trap_enters hh hfaults htvec hm hq hf hr ((frameAddr_trapRaised s n.toNat).symm ▸ hu)
  · exact ⟨trap_freezes hh hm hmulti, trapRaised_faults hfaults n.toNat, trapRaised_keepsX s n.toNat, trapRaised_keepsBytes s n.toNat,
      fun hf => trapRaised_freezes hm hf n.toNat⟩

end Sys2Proof.Machine
end

section
/-! What the loads of CTL leave as it was (R121, R169, R254), and the words of a record that they read. -/

set_option Elab.async false

namespace Sys2Proof.Machine

open Sys2Proof.Laws

/-! ### A load that answers -/

/-- The state without what a load of CTL may change: what `memMask` hides, and the claims of the banks. -/
def loadView (s : State) : State :=
  { memMask s with vc.claims := [], peers := s.peers.map (fun v => { v with claims := [] }) }

theorem loadView_of_memMask {s t : State} (h : memMask t = memMask s) : loadView t = loadView s :=
  congrArg (fun u : State => { u with vc.claims := [], peers := u.peers.map (fun v : VC => { v with claims := [] }) }) h

theorem loadView_claims (s : State) (n : Nat) (cl : List Claim) : loadView (updVC s n (fun v => { v with claims := cl })) = loadView s := by
  unfold updVC
  split
  · rfl
  · unfold loadView memMask
    dsimp only
    rw [List.map_map]
    congr 1
    refine List.map_congr_left fun v _ => ?_
    dsimp only [Function.comp]
    split <;> rfl

theorem loadView_mapRead {s t : State} {v : VC} {off n : Nat} {w : MapWhat} {d : List Byte} (h : mapRead s v off n w = (t, some d)) :
    loadView t = loadView s := by
  unfold mapRead at h
  split at h
  · split at h
    · cases h
      exact loadView_claims ..
    · cases h
  · cases h
    rfl

theorem loadView_ctlLoad {s t : State} {va : Word64} {n v : Nat} (h : ctlLoad s va n = .ok t v) : loadView t = loadView s := by
  cases hm : inMap va.toNat with
  | false => exact loadView_of_memMask (memMask_ctlLoad hm h)
  | true =>
    unfold ctlLoad at h
    dsimp only at h
    rw [hm, if_pos rfl] at h
    split at h
    · cases h
    split at h
    · cases h
    split at h
    · cases h
    split at h
    · cases h
    split at h
    next hr =>
      cases h
      exact loadView_mapRead hr
    · cases h

theorem ctlLoadWords_succ {s t : State} {va : Word64} {n : Nat} {d : List Word64} :
    ctlLoadWords s va (n + 1) = .ok t d ↔
      ∃ u v r, ctlLoad s va 8 = .ok u v ∧ ctlLoadWords u (va + 8) n = .ok t r ∧ d = w64 v :: r := by
  rw [ctlLoadWords]
  constructor
  · intro h
    split at h
    · cases h
    · cases h
    next u v hu =>
      split at h
      · cases h
      · cases h
      next r hr =>
        cases h
        exact ⟨u, v, r, hu, hr, rfl⟩
  · rintro ⟨u, v, r, hu, hr, rfl⟩
    simp only [hu, hr]

theorem loadView_ctlLoadWords {s t : State} {va : Word64} {n : Nat} {d : List Word64} (h : ctlLoadWords s va n = .ok t d) :
    loadView t = loadView s := by
  induction n generalizing s va d with
  | zero =>
    cases h
    rfl
  | succ n ih =>
    obtain ⟨u, v, r, hu, hr, rfl⟩ := ctlLoadWords_succ.mp h
    exact (ih hr).trans (loadView_ctlLoad hu)

theorem ctlLoadWords_ctl {s t : State} {va : Word64} {n : Nat} {d : List Word64} (h : ctlLoadWords s va n = .ok t d) :
    t.vc.ctl = s.vc.ctl := by
  have hv := loadView_ctlLoadWords h
  show (loadView t).vc.ctl = (loadView s).vc.ctl
  rw [hv]

/-! ### The words of one line -/

/-- An access of a line leaves the bytes of the line that CTL reads as they are (R254). -/
theorem cachedByte_dcLine (s : State) {n a : Nat} (hn : a / 128 = n) : cachedByte (dcLine s n).1 a = cachedByte s a := by
  subst hn
  cases hb : dcBypass s (a / 128) with
  | false => rw [cachedByte_eq, lineIn_dcLine hb, ← listAt_dcLine]
  | true =>
    have hnone : lineIn s.vc.dcache (a / 128) = none := by
      have hholds : holds s.vc.dcache (a / 128) = false := by
        simp only [dcBypass, Bool.and_eq_true, Bool.not_eq_true'] at hb
        exact hb.2
      rw [holds, List.any_eq_false] at hholds
      exact List.find?_eq_none.mpr hholds
    obtain ⟨-, -, hcached⟩ := settles_dcLine s (a / 128) a
    have hphys : cachedByte s a = physByte s a := by rw [cachedByte_eq, hnone]
    rcases hcached with h | h
    · exact h
    · rw [h, hphys]

/-- The double word at a partition-physical address as CTL reads it. -/
def cachedWord (s : State) (pa : Nat) : Word64 := w64 (leNat ((List.range 8).map (fun i => cachedByte s (pa + i))))

/-- A double word that CTL can load is read, and no line but its own need be looked at again. -/
theorem ctlLoad_word {s : State} {e : TlbE} {va : Word64} {pa : Nat} (h : canLoad s e va 8) (ha : va.toNat % 8 = 0)
    (hl : (lookup s va.toNat).2 = .ok e) (hpa : pa = e.frame + va.toNat % 2 ^ e.size) (hline : pa % 128 + 8 ≤ 128) :
    ∃ t v, ctlLoad s va 8 = .ok t v ∧ w64 v = cachedWord s pa ∧ memMask t = memMask s ∧ versions t = versions s ∧
      t.vc.tlb.head? = some e ∧ (∀ a, settles s t a) ∧ ∀ a, a / 128 = pa / 128 → cachedByte t a = cachedByte s a := by
  obtain ⟨⟨hlq, hgrant, hvb, -⟩, ⟨-, hrange, -, -, hmap⟩, hbytes⟩ := h
  obtain ⟨hpoison, hfree⟩ := hbytes 0 (by decide)
  rw [Nat.add_zero, ← hpa] at hpoison hfree
  have htr := translate_of_lookup hl hgrant
  rw [← hpa] at htr
  obtain ⟨-, htlb⟩ := lookup_head hlq hl
  have hsame (a : Nat) : cachedByte (lookup s va.toNat).1 a = cachedByte s a :=
    settles_cachedByte_of_same (dcache_translate htr) (translate_part_mem htr) a
  refine ⟨_, _, ctlLoad_page (by omega) ha hmap htr hvb hfree hpoison, ?_, (memMask_dcLine ..).trans (memMask_translate htr),
    (versions_dcLine ..).trans (versions_translate htr), (congrArg List.head? (dcLine_tlb ..)).trans htlb,
    fun a => settles_trans (settles_translate htr a) (settles_dcLine _ _ a), fun a hline => (cachedByte_dcLine _ hline).trans (hsame a)⟩
  rw [leNat_dcLine hline]
  exact congrArg (fun l => w64 (leNat l)) (List.map_congr_left fun k _ => hsame (pa + k))

/-- n double words from a partition-physical address on as CTL reads them. -/
def cachedWords (s : State) (pa n : Nat) : List Word64 := (List.range n).map (fun k => cachedWord s (pa + 8 * k))

theorem cachedWords_succ (s : State) (pa n : Nat) : cachedWords s pa (n + 1) = cachedWord s pa :: cachedWords s (pa + 8) n := by
  unfold cachedWords
  rw [List.range_succ_eq_map, List.map_cons, List.map_map]
  refine congrArg _ (List.map_congr_left fun k _ => congrArg (cachedWord s) ?_)
  omega

theorem cachedWords_of_line {s t : State} {pa n : Nat} (h : ∀ a, a / 128 = pa / 128 → cachedByte t a = cachedByte s a)
    (hline : pa % 128 + 8 * n ≤ 128) : cachedWords t pa n = cachedWords s pa n := by
  refine List.map_congr_left fun k hk => congrArg (fun l => w64 (leNat l)) (List.map_congr_left fun i hi => h _ ?_)
  have := List.mem_range.mp hk
  have := List.mem_range.mp hi
  omega

theorem canLoad_next {s : State} {e : TlbE} {va : Word64} {n : Nat} (h : canLoad s e va (8 + n)) :
    canLoad s e va 8 ∧ (0 < n → canLoad s e (va + 8) n ∧ (va + 8).toNat = va.toNat + 8 ∧
      (va + 8).toNat % 2 ^ e.size = va.toNat % 2 ^ e.size + 8) := by
  obtain ⟨hpage, ⟨hhit, hrange, hspan, halign, hmap⟩, hbytes⟩ := h
  refine ⟨⟨hpage, ⟨hhit, by omega, by omega, halign, hmap⟩, fun i hi => hbytes i (by omega)⟩, fun hn => ?_⟩
  have hva : (va + 8).toNat = va.toNat + 8 := by bv_omega
  obtain ⟨hdiv, hmod⟩ := page_of_span (va := va.toNat) (n := 8) (by omega) hpage.2.2.2
  rw [hva]
  refine ⟨⟨hpage, ?_, fun i hi => ?_⟩, rfl, hmod⟩
  · rw [hva]
    refine ⟨?_, by omega, by omega, by omega, ?_⟩
    · rw [TlbE.hits, hdiv]
      exact hhit
    · rw [inMap_of_span (by omega)]
      exact hmap
  · rw [hva, hmod, ← Nat.add_assoc, Nat.add_assoc _ 8 i]
    exact hbytes (8 + i) (by omega)

/-- The double words of one line that CTL can load are read one after another (R121, R254). -/
theorem ctlLoadWords_line {s : State} {e : TlbE} {va : Word64} {pa n : Nat} (h : canLoad s e va (8 * n)) (ha : va.toNat % 8 = 0)
    (hl : n ≠ 0 → (lookup s va.toNat).2 = .ok e) (hpa : pa = e.frame + va.toNat % 2 ^ e.size) (hline : pa % 128 + 8 * n ≤ 128) :
    ∃ t, ctlLoadWords s va n = .ok t (cachedWords s pa n) ∧ memMask t = memMask s ∧ versions t = versions s ∧ ∀ a, settles s t a := by
  induction n generalizing s va pa with
  | zero => exact ⟨s, rfl, rfl, rfl, settles_refl s⟩
  | succ n ih =>
    rw [Nat.mul_succ, Nat.add_comm] at h
    obtain ⟨hfirst, hrest⟩ := canLoad_next h
    obtain ⟨u, v, hu, hv, hmask, hvers, htlb, hsettle, hsame⟩ := ctlLoad_word hfirst ha (hl (Nat.succ_ne_zero n)) hpa (by omega)
    rw [cachedWords_succ]
    obtain rfl | hn := Nat.eq_zero_or_pos n
    · exact ⟨u, ctlLoadWords_succ.mpr ⟨u, v, [], hu, rfl, by rw [hv]; rfl⟩, hmask, hvers, hsettle⟩
    · obtain ⟨hcan, hva, hmod⟩ := hrest (by omega)
      have hcan := canLoad_memMask hmask hcan
      obtain ⟨t, ht, hmask', hvers', hsettle'⟩ := ih hcan (by omega) (fun _ => lookup_of_head htlb hcan.2.1.1) (pa := pa + 8)
        (by rw [hmod, hpa, Nat.add_assoc]) (by omega)
      have hwords : cachedWords u (pa + 8) n = cachedWords s (pa + 8) n :=
        cachedWords_of_line (fun a hl => hsame a (by omega)) (by omega)
      rw [hwords] at ht
      exact ⟨t, ctlLoadWords_succ.mpr ⟨u, v, _, hu, ht, by rw [hv]⟩, hmask'.trans hmask, hvers'.trans hvers,
        fun a => settles_trans (hsettle a) (hsettle' a)⟩

theorem listAt_map_range {α : Type} (z : α) (f : Nat → α) {n k : Nat} (h : k < n) : listAt z ((List.range n).map f) k = f k := by
  rw [← countUp_zero_eq_range, listAt_map_countUp z f h, Nat.zero_add]

theorem ext_listAt {α : Type} (z : α) {l r : List α} (hlen : l.length = r.length) (h : ∀ k, k < l.length → listAt z l k = listAt z r k) :
    l = r := by
  induction l generalizing r with
  | nil => exact (List.eq_nil_of_length_eq_zero hlen.symm).symm
  | cons a l ih =>
    cases r with
    | nil => cases hlen
    | cons b r =>
      have hab : a = b := h 0 (Nat.succ_pos _)
      rw [hab, ih (Nat.succ.inj hlen) fun k hk => h (k + 1) (Nat.succ_lt_succ hk)]

/-- A record that stands in one line is loaded as it stands (R121, R254). -/
theorem ctlLoadWords_record {s : State} {va : Word64} {d : List Word64} (h : recordAt s va d) (ha : va.toNat % 8 = 0) :
    ∃ t, ctlLoadWords s va d.length = .ok t d ∧ memMask t = memMask s ∧ versions t = versions s ∧ ∀ a, settles s t a := by
  obtain ⟨hrange, hmap, hlen, pa, ⟨hlq, hspan, ⟨u, e, ht, hvb, hsize⟩, hpoison⟩, hpa64, hfree, hwords⟩ := h
  obtain ⟨-, hlook, hgrant, hpa⟩ := translate_ok ht
  dsimp only at hlook hgrant hpa
  obtain ⟨hhit, -⟩ := lookup_head hlq hlook
  have hcan : canLoad s e va (8 * d.length) :=
    ⟨⟨hlq, hgrant, hvb, hsize⟩, ⟨hhit, hrange, hspan, by omega, hmap⟩, fun i hi => hpa ▸ ⟨hpoison i hi, hfree i hi⟩⟩
  have hd : d = cachedWords s pa d.length := by
    refine ext_listAt 0 (by simp [cachedWords]) fun k hk => ?_
    rw [cachedWords, listAt_map_range 0 _ hk, hwords k hk]
    rfl
  have hgo := ctlLoadWords_line hcan ha (fun _ => hlook) hpa (by omega)
  rwa [← hd] at hgo

end Sys2Proof.Machine
end

section
/-! Safe points, yield and pchk (R351 to R353, R384). -/

set_option Elab.async false

namespace Sys2Proof.Machine

open Sys2Proof.Laws

/-! ### The live mask -/

/-- A table filtered by its keys lists what is kept, and the default elsewhere. -/
theorem mget_filter_key {α : Type} (z : α) (p : Nat → Bool) (m : SMap α) (k : Nat) :
    mget z (m.filter (fun e => p e.1)) k = if p k then mget z m k else z := by
  induction m with
  | nil => simp [mget]
  | cons e m ih =>
    obtain ⟨i, v⟩ := e
    rw [List.filter_cons]
    by_cases hk : i = k
    · subst hk
      cases hp : p i <;> simp [mget, ih, hp]
    · cases hp : p i <;> simp [mget, ih, hk]

section
variable (s : State) (m : List Word64)

theorem ctl_voteFlag (v : VC) (n : Nat) : (v.voteFlag n).ctl = v.ctl := by rw [voteFlag_keeps]

theorem ctl_preempt (v : VC) : v.preempt.ctl = v.ctl := by
  unfold VC.preempt
  split
  · exact ctl_voteFlag ..
  · rfl

/-- The control registers of a virtual core that parks. -/
theorem ctl_park : (park s m).vc.ctl = (keepLive (retire (charge s .sys)) m (retire (charge s .sys)).vc).ctl := ctl_preempt _

theorem park_run : (park s m).vc.run = .parked := rfl

theorem park_pc : (park s m).vc.ctl.pc = s.vc.ctl.pc + 4 := by
  rw [ctl_park]
  simp [keepLive, retire, retireTo]

/-- Of the x registers those that the mask names live keep what they hold. -/
theorem park_x (r : BitVec 6) : xr (park s m) r = if (listAt 0 m 0).getLsbD r.toNat then xr s r else 0 := by
  have hx : (park s m).vc.ctl.x = s.vc.ctl.x.filter (fun p => bit (descW m 0).toNat p.1) := by
    rw [ctl_park]
    simp [keepLive, retire, retireTo]
  rw [xr, xr, hx, mget_filter_key 0 (fun k => bit (descW m 0).toNat k), bit_eq_testBit, BitVec.testBit_toNat]
  by_cases hr : r = 0
  · simp [hr]
  · rw [if_neg hr, if_neg hr]
    rfl

theorem park_y (y : Nat) : mget 0 (park s m).vc.ctl.y y = if (listAt 0 m 1).toNat.testBit y then mget 0 s.vc.ctl.y y else 0 := by
  have hy : (park s m).vc.ctl.y = s.vc.ctl.y.filter (fun p => bit (descW m 1).toNat p.1) := by
    rw [ctl_park]
    simp [keepLive, retire, retireTo]
  rw [hy, mget_filter_key 0 (fun k => bit (descW m 1).toNat k), bit_eq_testBit]
  rfl

theorem park_launch : (park s m).launch = s.launch := by
  show (retire (charge s .sys)).launch = s.launch
  simp [retire, retireTo]

end

/-! ### safept -/

/-- What an honoured safe point checks, and what it leaves when its virtual core has arrived. -/
def safeChecked (o : Out) (s u : State) (a : Word64) (m : List Word64) (more : State → Prop) : Prop :=
  (2 ^ 56 ≤ a.toNat → o = ctlFault s 0x04 0 a) ∧
  (a.toNat < 2 ^ 56 → a.toNat % 64 ≠ 0 → o = ctlFault s 0x03 0 a) ∧
  (a.toNat < 2 ^ 56 → a.toNat % 64 = 0 → ctlLoadWords s a 8 = .ok u m →
    (maskSound u m = false → o = ctlFault u 0x08 0 0) ∧
    (maskSound u m = true →
      (arrivedNow s = false → o = .next u) ∧
      (arrivedNow s = true → ∃ t, o = .next t ∧ t.vc.run = .parked ∧ t.vc.ctl.pc = s.vc.ctl.pc + 4 ∧
        (∀ r : BitVec 6, xr t r = if (listAt 0 m 0).getLsbD r.toNat then xr s r else 0) ∧
        (∀ y, mget 0 t.vc.ctl.y y = if (listAt 0 m 1).toNat.testBit y then mget 0 s.vc.ctl.y y else 0) ∧ more t)))

theorem fld_beyond (v : Word64) : fld v 63 56 ≠ 0 ↔ 2 ^ 56 ≤ v.toNat := by
  have := v.isLt
  simp only [fld, bits]
  omega

theorem safeGo_checked (s u : State) (a : Word64) (m : List Word64) (more : State → Prop) (done : State → State)
    (hvc : ∀ t, (done t).vc = t.vc) (hmore : more (done (park u m))) : safeChecked (safeGo s a done) s u a m more := by
  refine ⟨fun h => if_pos ((fld_beyond a).mpr h), fun h ha => ?_, fun h ha hload => ?_⟩
  · exact (if_neg (fun hf => Nat.not_lt.mpr ((fld_beyond a).mp hf) h)).trans (if_pos ha)
  · have hgo : safeGo s a done = if maskSound u m = false then ctlFault u 8 0 0
        else if arrivedNow s then .next (done (park u m)) else .next u := by
      unfold safeGo
      rw [if_neg (fun hf => Nat.not_lt.mpr ((fld_beyond a).mp hf) h), if_neg (not_not_intro ha), hload]
      rfl
    have hctl := ctlLoadWords_ctl hload
    rw [hgo]
    refine ⟨fun hm => if_pos hm, fun hm => ?_⟩
    rw [if_neg (by rw [hm]; exact Bool.noConfusion)]
    refine ⟨fun harr => if_neg (by rw [harr]; exact Bool.false_ne_true), fun harr => ⟨_, if_pos harr, ?_, ?_, fun r => ?_, fun y => ?_, hmore⟩⟩
    · rw [hvc]
      exact park_run u m
    · rw [hvc, park_pc, hctl]
    · rw [show xr (done (park u m)) r = xr (park u m) r by rw [xr, hvc, xr], park_x, xr, hctl, xr]
    · rw [hvc, park_y, hctl]

section
variable {s : State} (hh : s.vc.ctl.h = false)
include hh

theorem pchk_reads (d : BitVec 6) : exec (.pchk d) s = .next (retire (setX (charge s .sys) d (if reqSet s then 1 else 0))) := by
  refine (restricted_outside hh _).trans ?_
  cases reqSet s <;> rfl

theorem safept_elastic (hm : s.launch.mode = .elastic) (a : BitVec 6) :
    exec (.safept a) s = if reqSet s then safeGo s (xr s a) id else sysNext s := by
  refine (restricted_outside hh _).trans ?_
  rw [hm]

theorem safept_lockstep (hm : s.launch.mode = .lockstep) (a : BitVec 6) :
    exec (.safept a) s = match safeB s with
      | none => sysNext s
      | some b => if lockHonoured s b then safeGo s (xr s a) (fun t => { t with launch.resume := some b, launch.req := none })
        else sysNext { s with launch.passed := Nat.max s.launch.passed b } := by
  refine (restricted_outside hh _).trans ?_
  rw [hm] <;> rfl

end

theorem lockHonoured_iff (s : State) (b : Nat) :
    lockHonoured s b = true ↔ s.launch.resume = some b ∨ ∃ q, s.launch.req = some q ∧ q < b ∧ s.launch.passed < b := by
  unfold lockHonoured
  cases s.launch.req <;> simp

/-! ### yield -/

theorem requestAt_eq (s : State) (b : Nat) :
    ∃ q r, requestAt s b = { s with launch.req := q, part.reports := r } ∧
      (s.launch.live = true → s.launch.req = none → s.launch.multi = false → q = some b ∧ r = s.part.reports) := by
  unfold requestAt
  split
  · split
    · exact ⟨_, _, rfl, fun _ _ _ => ⟨rfl, rfl⟩⟩
    next hm =>
      split
      · exact ⟨_, _, rfl, fun _ _ h => absurd (by rw [h]; rfl) hm⟩
      · exact ⟨_, _, rfl, fun _ _ h => absurd (by rw [h]; rfl) hm⟩
  next h => exact ⟨_, _, rfl, fun hl hr _ => absurd (by rw [hl, hr]; rfl) h⟩

/-- A word that goes on with a request, a decision and reports of its own. -/
theorem sysNext_asked (s : State) (q : Option Nat) (c : Option Nat) (r : List Nat) :
    ∃ t, sysNext { s with launch.req := q, part.chosen := c, part.reports := r } = .next t ∧ keepsX s t ∧ keepsBytes s t ∧
      (t.launch.req = q ∧ t.part.chosen = c ∧ t.part.reports = r) ∧
      ctlStep { s with launch.req := q, part.chosen := c, part.reports := r } t .sys 4 :=
  ⟨_, rfl, keepsX_sysNext rfl, keepsBytes_sysNext rfl rfl, ⟨by simp [retire, retireTo], by simp [retire, retireTo], by simp [retire, retireTo]⟩,
    ctlStep_sysNext _⟩

/-- What yield may change beside what every word does: the request, the decision and the reports of the partition. -/
theorem yield_step {s : State} (hh : s.vc.ctl.h = false) :
    ∃ t, exec .yield s = .next t ∧ keepsX s t ∧ keepsBytes s t ∧
      ctlStep { s with launch.req := t.launch.req, part.chosen := t.part.chosen, part.reports := t.part.reports } t .sys 4 ∧
      (choose s = none → ctlStep s t .sys 4) ∧
      ∀ q, choose s = some q →
        (runningQueue s = some q ∨ s.launch.req ≠ none → ctlStep s t .sys 4) ∧
        (s.launch.live = true → runningQueue s ≠ some q → s.launch.req = none → s.launch.multi = false →
          t.launch.req = some s.vc.now ∧ t.part.chosen = some q ∧ t.part.reports = s.part.reports) := by
  have hword : exec .yield s = match choose s with
      | none => sysNext s
      | some q => if runningQueue s = some q ∨ s.launch.req.isSome = true then sysNext s else sysNext { request s with part.chosen := some q } :=
    restricted_outside hh _
  rw [hword]
  obtain ⟨t, ht, hx, hb, ⟨hreq, hchosen, hreports⟩, hs⟩ := sysNext_asked s s.launch.req s.part.chosen s.part.reports
  have hplain : ctlStep { s with launch.req := t.launch.req, part.chosen := t.part.chosen, part.reports := t.part.reports } t .sys 4 := by
    rw [hreq, hchosen, hreports]
    exact hs
  cases hc : choose s with
  | none => exact ⟨t, ht, hx, hb, hplain, fun _ => hs, fun q hq => nomatch hq⟩
  | some q =>
    dsimp only
    by_cases hstay : runningQueue s = some q ∨ s.launch.req.isSome = true
    · rw [if_pos hstay]
      refine ⟨t, ht, hx, hb, hplain, fun _ => hs, fun p hp => ⟨fun _ => hs, fun hl hr hn _ => ?_⟩⟩
      cases hp
      rcases hstay with hstay | hstay
      · exact absurd hstay hr
      · rw [hn] at hstay
        exact absurd hstay Bool.false_ne_true
    · rw [if_neg hstay]
      obtain ⟨o, r, heq, hone⟩ := requestAt_eq s s.vc.now
      rw [request, heq]
      obtain ⟨v, hv, hx', hb', ⟨hreq', hchosen', hreports'⟩, hs'⟩ := sysNext_asked s o (some q) r
      refine ⟨v, hv, hx', hb', ?_, fun hnone => absurd hnone (Option.some_ne_none q), fun p hp => ⟨fun hst => absurd (hst.imp (fun h => ?_) Option.isSome_iff_ne_none.mpr) hstay,
        fun hl _ hn hm => ?_⟩⟩
      · rw [hreq', hchosen', hreports']
        exact hs'
      · cases hp
        exact h
      · cases hp
        obtain ⟨ho, hr⟩ := hone hl hn hm
        exact ⟨hreq'.trans ho, hchosen', hreports'.trans hr⟩

/-- Settles O33: an honoured safe point by `safeGo_checked`, and the words that only go on by what they change. -/
theorem safePoints : Obligations.SafePoints := by
  unfold Obligations.SafePoints
  intro s u d a m hh
  refine ⟨?_, ?_⟩
  · rw [pchk_reads hh]
    exact sysMove_step ..
  intro checked
  refine ⟨fun hm hr => ?_, fun hm hr => ?_, fun hm hb => ?_, fun hm b hb => ?_, yield_step hh⟩
  · rw [safept_elastic hh hm, if_neg (by rw [hr]; exact Bool.false_ne_true)]
    exact sysNext_step rfl rfl rfl
  · have h := safeGo_checked s u (xr s a) m (fun t => t.launch = u.launch) id (fun _ => rfl) (park_launch u m)
    rw [← show exec (.safept a) s = _ from (safept_elastic hh hm a).trans (if_pos hr)] at h
    exact h
  · rw [safept_lockstep hh hm, hb]
    exact sysNext_step rfl rfl rfl
  · intro honoured
    refine ⟨fun hn => ?_, fun hy => ?_⟩
    · rw [safept_lockstep hh hm, hb]
      dsimp only
      rw [if_neg (fun h => hn ((lockHonoured_iff s b).mp h))]
      exact sysNext_step rfl rfl rfl
    · have h := safeGo_checked s u (xr s a) m (fun t => t.launch = { u.launch with resume := some b, req := none })
        (fun t => { t with launch.resume := some b, launch.req := none }) (fun _ => rfl) (by
          show ({ (park u m).launch with resume := some b, req := none } : Launch) = _
          rw [park_launch])
      have hgo : exec (.safept a) s = safeGo s (xr s a) (fun t => { t with launch.resume := some b, launch.req := none }) := by
        rw [safept_lockstep hh hm, hb]
        exact if_pos ((lockHonoured_iff s b).mpr hy)
      rw [← hgo] at h
      exact h

end Sys2Proof.Machine
end

section
/-! The opening of a step (R291). -/

set_option Elab.async false

namespace Sys2Proof.Machine

open Sys2Proof.Laws

/-! ### The opening record -/

theorem openSound_iff (d : List Word64) : openSound d = true ↔ (listAt 0 d 0).toNat < 2 ^ 18 ∧ listAt 0 d 7 = 0 := by
  have := (descW d 0).isLt
  have hfld : fld (descW d 0) 63 18 = 0 ↔ (listAt 0 d 0).toNat < 2 ^ 18 := by
    show (listAt 0 d 0).toNat / 2 ^ 18 % 2 ^ 46 = 0 ↔ _
    have := (listAt 0 d 0).isLt
    omega
  rw [openSound, Bool.and_eq_true, beq_iff_eq, beq_iff_eq, hfld]
  rfl

theorem fld_openGen (d : List Word64) : fld (descW d 0) 15 0 = (listAt 0 d 0).toNat % 2 ^ 16 := by
  simp only [fld, bits, pow_zero, Nat.div_one, descW]

theorem fld_bit (w : Word64) (i : Nat) : (fld w i i == 1) = w.toNat.testBit i := by
  have hi : i + 1 - i = 1 := by omega
  rw [fld, bits, hi, Nat.testBit_eq_decide_div_mod_eq]
  rfl

/-! ### The state that the opening leaves -/

theorem enterFlags_keeps (v : VC) (f : Nat) (h : v.tx.state ≠ 1) :
    v.enterFlags f = { v with ctl.flags := v.ctl.flags ||| w64 f } := by
  have hfirst : (if f &&& (fNv ||| fOf) ≠ 0 ∧ v.tx.state = 1 then v.voteFlag 1 else v) = v := if_neg (fun hc => h hc.2)
  have hvote : v.voteFlagsOf f = v := by
    unfold VC.voteFlagsOf
    simp only [hfirst]
    exact if_neg (fun hc => h hc.2)
  rw [VC.enterFlags, hvote]

/-- Outside an open step the flags that enter change FLAGS alone. -/
theorem flagsEnter_keeps (v : VC) (h : v.tx.state ≠ 1) :
    ∃ f l, flagsEnter v = { v with ctl.flags := f, ctl.flagsIn := l } := by
  have hfold : ∀ (ps : List (Nat × Nat)) (u : VC), u.tx.state ≠ 1 →
      ∃ f, ps.foldl (fun u p => u.enterFlags p.2) u = { u with ctl.flags := f } := by
    intro ps
    induction ps with
    | nil => exact fun u _ => ⟨u.ctl.flags, rfl⟩
    | cons p ps ih =>
      intro u hu
      obtain ⟨f, hf⟩ := ih (u.enterFlags p.2) (by rw [enterFlags_keeps u p.2 hu]; exact hu)
      exact ⟨f, by rw [List.foldl_cons, hf, enterFlags_keeps u p.2 hu]⟩
  obtain ⟨f, hf⟩ := hfold (v.ctl.flagsIn.filter (fun p => decide (p.1 ≤ v.now)))
    { v with ctl.flagsIn := v.ctl.flagsIn.filter (fun p => decide (v.now < p.1)) } h
  exact ⟨f, _, hf⟩

/-- The registers of a step whose opening record sets them anew. -/
def openTx (t : Tx) (d : List Word64) : Tx :=
  if fld (descW d 0) 17 17 = 1 then
    { t with k := descW d 1, n := descW d 2, adv := 0, c := (countUp 0 4).foldl (fun m i => mput 0 m i (descW d (3 + i))) [] }
  else t

theorem openStep_vc (s : State) (d : List Word64) (h : s.vc.tx.state ≠ 1) :
    ∃ f l, (openStep s d) = { s with vc := { s.vc with
      ctl.flags := f, ctl.flagsIn := l,
      tx := { openTx s.vc.tx d with
        restore := some ((openTx s.vc.tx d).k, (openTx s.vc.tx d).n + w64 (openTx s.vc.tx d).adv, (openTx s.vc.tx d).c),
        vote := w64 (0xFF800000 * 2 ^ 32 + fld (descW d 0) 15 0 * 65536), g := fld (descW d 0) 15 0,
        dr := fld (descW d 0) 16 16 == 1, state := 1, openAt := some s.vc.ctl.pc, preempted := false } } } := by
  obtain ⟨f, l, hf⟩ := flagsEnter_keeps s.vc h
  refine ⟨f, l, ?_⟩
  unfold openStep
  rw [hf]
  rfl

/-- What the opening of a step of generation g leaves (R291). -/
def stepOpened (s t : State) (d : List Word64) : Prop :=
  let w0 := (listAt 0 d 0).toNat
  let g := w0 % 2 ^ 16
  keepsX s t ∧ t.vc.ctl.pc = s.vc.ctl.pc + 4 ∧ t.vc.tx.state = 1 ∧ t.vc.tx.g = g ∧ t.vc.tx.dr = w0.testBit 16 ∧
  t.vc.tx.vote = w64 (0xFF800000 * 2 ^ 32 + g * 2 ^ 16) ∧
  t.part.openEp = some (s.part.nextEp, g, w0.testBit 16) ∧ t.part.nextEp = (s.part.nextEp + 1) % 65536 ∧
  (w0.testBit 17 = true → t.vc.tx.k = listAt 0 d 1 ∧ t.vc.tx.n = listAt 0 d 2 ∧ ∀ i, i < 4 → mget 0 t.vc.tx.c i = listAt 0 d (3 + i)) ∧
  (w0.testBit 17 = false → t.vc.tx.k = s.vc.tx.k ∧ t.vc.tx.n = s.vc.tx.n ∧ t.vc.tx.c = s.vc.tx.c)

theorem openTx_set {t : Tx} {d : List Word64} (h : (listAt 0 d 0).toNat.testBit 17 = true) :
    (openTx t d).k = listAt 0 d 1 ∧ (openTx t d).n = listAt 0 d 2 ∧ ∀ i, i < 4 → mget 0 (openTx t d).c i = listAt 0 d (3 + i) := by
  have hset : fld (descW d 0) 17 17 = 1 := beq_iff_eq.mp ((fld_bit (descW d 0) 17).trans h)
  unfold openTx
  rw [if_pos hset]
  refine ⟨rfl, rfl, fun i hi => ?_⟩
  obtain rfl | rfl | rfl | rfl : i = 0 ∨ i = 1 ∨ i = 2 ∨ i = 3 := by omega
  all_goals
    simp only [countUp, List.foldl_cons, List.foldl_nil, mget_mput]
    rfl

theorem openTx_kept {t : Tx} {d : List Word64} (h : (listAt 0 d 0).toNat.testBit 17 = false) : openTx t d = t := by
  unfold openTx
  refine if_neg fun hset => ?_
  exact Bool.false_ne_true (h.symm.trans ((fld_bit (descW d 0) 17).symm.trans (beq_iff_eq.mpr hset)))

/-- The state in which the step of record d is open. -/
def openNow (u : State) (d : List Word64) : State :=
  retire (openStep (openEpoch (charge (charge u .sys) .ld 8) (fld (descW d 0) 15 0) (fld (descW d 0) 16 16 == 1)) d)

section
variable {s u : State} {d : List Word64}

theorem openNow_mem (hst : u.vc.tx.state ≠ 1) : (openNow u d).part.mem = u.part.mem := by
  have hvc : (openEpoch (charge (charge u .sys) .ld 8) (fld (descW d 0) 15 0) (fld (descW d 0) 16 16 == 1)).vc = u.vc := by
    simp [openEpoch]
  obtain ⟨f, l, h⟩ := openStep_vc (openEpoch (charge (charge u .sys) .ld 8) (fld (descW d 0) 15 0) (fld (descW d 0) 16 16 == 1)) d
    (by rw [hvc]; exact hst)
  unfold openNow
  rw [h]
  simp [openEpoch, retire, retireTo]

theorem openNow_opened (hctl : u.vc.ctl = s.vc.ctl) (htx : u.vc.tx = s.vc.tx) (hst : s.vc.tx.state ≠ 1)
    (hep : u.part.nextEp = s.part.nextEp) : stepOpened s (openNow u d) d := by
  generalize hw : openEpoch (charge (charge u .sys) .ld 8) (fld (descW d 0) 15 0) (fld (descW d 0) 16 16 == 1) = w
  have hvc : w.vc = u.vc := by rw [← hw]; simp [openEpoch]
  have hopen : w.part.openEp = some (s.part.nextEp, fld (descW d 0) 15 0, fld (descW d 0) 16 16 == 1) := by
    rw [← hw, ← hep]
    simp [openEpoch]
  have hnext : w.part.nextEp = (s.part.nextEp + 1) % 65536 := by
    rw [← hw, ← hep]
    simp [openEpoch]
  obtain ⟨f, l, h⟩ := openStep_vc w d (by rw [hvc, htx]; exact hst)
  have hnow : openNow u d = retire (openStep w d) := by rw [openNow, hw]
  rw [fld_openGen, fld_bit] at hopen
  unfold stepOpened
  rw [hnow, h]
  dsimp only [retire, retireTo]
  rw [hvc, htx, hctl, fld_openGen, fld_bit, ← hnext]
  refine ⟨fun r => ?_, rfl, rfl, rfl, rfl, rfl, hopen, rfl, fun hset => openTx_set hset, fun hkept => ?_⟩
  · rfl
  · rw [openTx_kept hkept]
    exact ⟨rfl, rfl, rfl⟩

theorem openSound_false {d : List Word64} (h : 2 ^ 18 ≤ (listAt 0 d 0).toNat ∨ listAt 0 d 7 ≠ 0) : openSound d = false := by
  rw [Bool.eq_false_iff, ne_eq, openSound_iff]
  rintro ⟨hlow, hzero⟩
  exact h.elim (fun hb => absurd hlow (Nat.not_lt.mpr hb)) (fun hne => hne hzero)

/-- A record that may open a step, with room for the launch's reserve and no block of the epoch 256 earlier, opens it. -/
theorem txopenRest_opens (hgen : (listAt 0 d 0).toNat % 2 ^ 16 = u.part.x) (hnone : u.part.openEp = none)
    (hfits : reserveFits u = true) (hfree : sweeperBusy u = false) : txopenRest u d = .next (openNow u d) := by
  unfold txopenRest
  rw [hnone]
  dsimp only
  rw [if_neg (not_not.mpr ((fld_openGen d).trans hgen)), if_neg (by rw [hfits]; exact Bool.noConfusion),
    if_neg (by rw [hfree]; exact Bool.false_ne_true)]
  rfl

theorem txopenRest_wrongGen (h : (listAt 0 d 0).toNat % 2 ^ 16 ≠ u.part.x) : txopenRest u d = ctlFault u 0x21 3 0 := by
  have hne : fld (descW d 0) 15 0 ≠ u.part.x := fun he => h ((fld_openGen d).symm.trans he)
  unfold txopenRest
  split
  · exact if_pos (Or.inl hne)
  · exact if_pos hne

theorem txopenRest_noReserve (hgen : (listAt 0 d 0).toNat % 2 ^ 16 = u.part.x) (hnone : u.part.openEp = none)
    (hfits : reserveFits u = false) : txopenRest u d = ctlFault u 0x22 0 0 := by
  unfold txopenRest
  rw [hnone]
  dsimp only
  rw [if_neg (not_not.mpr ((fld_openGen d).trans hgen)), if_pos hfits]

theorem execTxopen_loaded {ra : BitVec 6} (hh : s.vc.ctl.h = false) (hmode : s.launch.mode = .lockstep) (hst : s.vc.tx.state = 0)
    (hlow : (xr s ra).toNat < 2 ^ 56) (hal : (xr s ra).toNat % 64 = 0) (hload : ctlLoadWords s (xr s ra) 8 = .ok u d) :
    execTxopen ra s = if openSound d then txopenRest u d else txFault u 2 := by
  unfold execTxopen
  dsimp only
  rw [restricted_outside hh, if_neg (by rw [hmode]; exact nofun), if_neg (not_not.mpr hst),
    if_neg (fun h => Nat.not_lt.mpr ((fld_beyond _).mp h) hlow), if_neg (not_not.mpr hal), hload]
  rfl

end

/-- Settles O34: the checks of the instruction in their order, the record as the line of CTL or memory holds it, and the step that it
opens. -/
theorem txOpen : Obligations.TxOpen := by
  intro s u a d hh
  refine ⟨fun hmode => ?_, fun hmode => ⟨fun hst => ?_, fun hst hbig => ?_, fun hst hlow hal => ?_, fun hst hlow hal => ⟨?_, ?_⟩⟩⟩
  · show execTxopen a s = _
    unfold execTxopen
    dsimp only
    rw [restricted_outside hh, if_pos hmode]
  · show execTxopen a s = _
    unfold execTxopen
    dsimp only
    rw [restricted_outside hh, if_neg (by rw [hmode]; exact nofun), if_pos hst]
    rfl
  · show execTxopen a s = _
    unfold execTxopen
    dsimp only
    rw [restricted_outside hh, if_neg (by rw [hmode]; exact nofun), if_neg (not_not.mpr hst),
      if_pos ((fld_beyond _).mpr hbig)]
  · show execTxopen a s = _
    unfold execTxopen
    dsimp only
    rw [restricted_outside hh, if_neg (by rw [hmode]; exact nofun), if_neg (not_not.mpr hst),
      if_neg (fun h => Nat.not_lt.mpr ((fld_beyond _).mp h) hlow), if_pos hal]
  · intro hrec hlen hsound hzero hgen hnone hfits hfree
    obtain ⟨t, hload, hmask, hver, hsettles⟩ := ctlLoadWords_record hrec (by omega)
    rw [hlen] at hload
    have hview := loadView_of_memMask hmask
    have hpart : ∀ {α : Type} (f : State → α), f (loadView t) = f (loadView s) := fun f => congrArg f hview
    have hctl : t.vc.ctl = s.vc.ctl := hpart (·.vc.ctl)
    have htx : t.vc.tx = s.vc.tx := hpart (·.vc.tx)
    have hx : t.part.x = s.part.x := hpart (·.part.x)
    have hep : t.part.nextEp = s.part.nextEp := hpart (·.part.nextEp)
    have hblocks : t.part.blocks = s.part.blocks := congrArg Prod.fst hver
    have hfits' : reserveFits t = true := (hpart reserveFits).trans hfits
    have hfree' : sweeperBusy t = false := by rw [sweeperBusy, hblocks, hep]; exact hfree
    have hst' : s.vc.tx.state ≠ 1 := by rw [hst]; exact Nat.zero_ne_one
    have hmem := openNow_mem (u := t) (d := d) (by rw [htx]; exact hst')
    refine ⟨openNow t d, ?_, openNow_opened hctl htx hst' hep, fun b => ?_⟩
    · show execTxopen a s = _
      rw [execTxopen_loaded hh hmode hst hlow hal hload, if_pos ((openSound_iff d).mpr ⟨hsound, hzero⟩),
        txopenRest_opens (hgen.trans hx.symm) ((hpart (·.part.openEp)).trans hnone) hfits' hfree']
    · have hback := wroteBack_of_settles (hsettles b)
      unfold wroteBack at hback ⊢
      rw [physByte_of_mem hmem]
      exact hback
  · intro hload
    have hview := loadView_ctlLoadWords hload
    have hpart : ∀ {α : Type} (f : State → α), f (loadView u) = f (loadView s) := fun f => congrArg f hview
    have hctl : u.vc.ctl = s.vc.ctl := hpart (·.vc.ctl)
    have htx : u.vc.tx = s.vc.tx := hpart (·.vc.tx)
    have hep : u.part.nextEp = s.part.nextEp := hpart (·.part.nextEp)
    have hst' : s.vc.tx.state ≠ 1 := by rw [hst]; exact Nat.zero_ne_one
    have hexec : exec (.txopen a) s = if openSound d then txopenRest u d else txFault u 2 :=
      execTxopen_loaded hh hmode hst hlow hal hload
    rw [hexec]
    refine ⟨fun hbad => ?_, fun hsound hzero hgen => ?_, fun hsound hzero hgen hnone hfits => ?_,
      fun hsound hzero hgen hnone hfits hfree => ⟨openNow u d, ?_, openNow_opened hctl htx hst' hep, ?_⟩⟩
    · rw [if_neg (by rw [openSound_false hbad]; exact Bool.false_ne_true)]
      rfl
    · rw [if_pos ((openSound_iff d).mpr ⟨hsound, hzero⟩), txopenRest_wrongGen hgen]
    · rw [if_pos ((openSound_iff d).mpr ⟨hsound, hzero⟩), txopenRest_noReserve hgen hnone hfits]
    · rw [if_pos ((openSound_iff d).mpr ⟨hsound, hzero⟩), txopenRest_opens hgen hnone hfits hfree]
    · exact openNow_mem (by rw [htx]; exact hst')

end Sys2Proof.Machine
end

section
/-! The issue of a collective (R324, R325). -/

set_option Elab.async false

namespace Sys2Proof.Machine

open Sys2Proof.Laws

/-! ### The reads of a collective's checks -/

theorem memMask_touchMember (s : State) (g i : Nat) : memMask (touchMember s g i) = memMask s := memMask_l2Access ..

theorem memMask_hintByte {s t : State} {h k b : Nat} (hb : hintByte s h k = .ok t b) : memMask t = memMask s := by
  unfold hintByte at hb
  split at hb
  · cases hb
    rfl
  · split at hb
    · cases hb
    · split at hb
      next u pa e ht =>
        split at hb
        · cases hb
        · split at hb
          · cases hb
          · cases hb
            exact (memMask_homeRead u pa 1).trans (memMask_translate ht)
      · split at hb <;> cases hb
      · cases hb

theorem memMask_hintBytes {s t : State} {h : Nat} {ks l : List Nat} (hb : hintBytes s h ks = .ok t l) : memMask t = memMask s := by
  induction ks generalizing s l with
  | nil =>
    cases hb
    rfl
  | cons k ks ih =>
    unfold hintBytes at hb
    split at hb
    · cases hb
    · cases hb
    next u b hu =>
      split at hb
      · cases hb
      · cases hb
      next w r hr =>
        cases hb
        exact (ih hr).trans (memMask_hintByte hu)

theorem hintBytes_none (s : State) (ks : List Nat) : hintBytes s 0 ks = .ok s (ks.map (fun _ => 0)) := by
  induction ks with
  | nil => rfl
  | cons k ks ih =>
    have hk : hintByte s 0 k = .ok s 0 := if_pos rfl
    unfold hintBytes
    rw [hk]
    dsimp only
    rw [ih]
    rfl

theorem memMask_descCheck {s t : State} {op g : Nat} {d : List Word64} {l : List Nat} (h : descCheck s op g d = .ok t l) :
    memMask t = memMask s := by
  unfold descCheck at h
  split at h
  · cases h
  · split at h
    · cases h
    · cases h
    next u r hu =>
      split at h
      · cases h
        exact memMask_hintBytes hu
      · cases h

/-- A sound descriptor in the share, without a hint array, passes check 4 as it stands. -/
theorem descCheck_noHints {s : State} {op g : Nat} {d : List Word64} (hs : descSound d = true) (hf : descFormats op d = true)
    (hh : descHaddr d = 0) (hin : descInShare s op g d = true) : ∃ l, descCheck s op g d = .ok s l := by
  unfold descCheck
  rw [if_neg (by rw [hs, hf]; exact Bool.false_ne_true), hh, hintBytes_none]
  exact ⟨_, if_pos hin⟩

/-! ### The issue -/

/-- The collective that the word issues on a state that has passed its checks. -/
def collEntry (s v : State) (op g : Nat) (d : List Word64) (hints : List Nat) : Coll :=
  { op := op, group := g, seq := groupCseq v g, desc := d, start := (readBeat s (descStamp d)).1, read := 0, src := [],
    sent := !collSends op d (groupSelf v g),
    chunks := startChunks v op g d hints (watchFrom s (readBeat s (descStamp d)).1), lands := [],
    mbox := none, replayed := false, failed := false, name := nameOfPc s.vc.ctl.pc, num := s.vc.eng.nextSeq, issued := s.vc.now }

/-- The state once it is issued. -/
def collIssued (s v : State) (op g : Nat) (d : List Word64) (hints : List Nat) : State :=
  let w := takeCseq (charge v .coll) g
  retire { w with vc.colls := w.vc.colls ++ [collEntry s v op g d hints], vc.eng.nextSeq := w.vc.eng.nextSeq + 1,
                  vc.latestColl := mput 0 w.vc.latestColl g ((collEntry s v op g d hints).seq * 2 ^ 32) }

theorem takeCseq_eq (s : State) (g : Nat) : ∃ c, takeCseq s g =
    { s with part.groups := mput 0 s.part.groups (8 * g + 0)
                              (w64 ((groupCseq s g + 1) % 2 ^ 32 * 2 ^ 32 + fld (groupWord s g 0) 31 0)), part.closed := c } :=
  ⟨_, rfl⟩

/-- The high half of a word that is put together of halves. -/
theorem fld_high (n m : Nat) (hm : m < 2 ^ 32) : fld (w64 (n % 2 ^ 32 * 2 ^ 32 + m)) 63 32 = n % 2 ^ 32 := by
  have hn := Nat.mod_lt n (show 0 < 2 ^ 32 by decide)
  show (BitVec.ofNat 64 (n % 2 ^ 32 * 2 ^ 32 + m)).toNat / 2 ^ 32 % 2 ^ 32 = n % 2 ^ 32
  rw [BitVec.toNat_ofNat]
  omega

theorem groupCseq_takeCseq (s : State) (g : Nat) : groupCseq (takeCseq s g) g = (groupCseq s g + 1) % 2 ^ 32 := by
  obtain ⟨c, hc⟩ := takeCseq_eq s g
  have hm : fld (groupWord s g 0) 31 0 < 2 ^ 32 := by
    rw [fld_low]
    exact Nat.mod_lt _ (by decide)
  rw [hc]
  generalize fld (groupWord s g 0) 31 0 = m at hm
  generalize groupCseq s g + 1 = n
  unfold groupCseq groupWord
  dsimp only
  rw [mget_mput, if_pos rfl]
  exact fld_high n m hm

theorem collIssued_mem (s v : State) (op g : Nat) (d : List Word64) (hints : List Nat) :
    (collIssued s v op g d hints).part.mem = v.part.mem := by
  obtain ⟨c, hc⟩ := takeCseq_eq (charge v .coll) g
  unfold collIssued
  rw [hc]
  simp [retire, retireTo]

section
variable {s u v : State} {a b : BitVec 6} {op : Nat} {d : List Word64} {hints : List Nat}

/-- The checks of the operands of a collective, up to its record. -/
theorem collOp_record (hh : s.vc.ctl.h = false) (hlow : (xr s b).toNat < 2 ^ 56) (hal : (xr s b).toNat % 64 = 0)
    (hload : ctlLoadWords s (xr s b) 8 = .ok u d) :
    collOp s op a b =
      if groupCount s ≤ (xr s a).toNat ∨ groupValid s (xr s a).toNat = false then ctlFault u 0x25 1 0
      else if (groupMember s (xr s a).toNat (groupSelf s (xr s a).toNat)).1 ≠ s.vc.id then
        ctlFault (touchMember u (xr s a).toNat (groupSelf s (xr s a).toNat)) 0x25 2 0
      else
        match descCheck (touchMember u (xr s a).toNat (groupSelf s (xr s a).toNat)) op (xr s a).toNat d with
        | .wait s2 => .next s2
        | .fault s2 c x => ctlFault s2 c x (tvalOf c (w64 (descHaddr d)))
        | .ok v hints =>
          if 4 ≤ (s.vc.colls.filter (fun c => c.group == (xr s a).toNat && !c.failed)).length then
            (match s.launch.mode with
             | .lockstep => ctlFault v 0x25 5 0
             | .elastic => .next v)
          else if decide (s.launch.mode = .lockstep) && !(readBeat s (descStamp d)).2 then ctlFault v 0x25 4 0
          else if 128 ≤ inFlight s.vc then
            (match s.launch.mode with
             | .lockstep => ctlFault v 0x2B 0 0
             | .elastic => .next v)
          else .next (collIssued s v op (xr s a).toNat d hints) := by
  unfold collOp groupChecks
  rw [restricted_outside hh, if_neg (fun h => Nat.not_lt.mpr ((fld_beyond _).mp h) hlow), if_neg (not_not.mpr hal), hload]
  rfl

theorem collOp_badGroup (hh : s.vc.ctl.h = false) (hlow : (xr s b).toNat < 2 ^ 56) (hal : (xr s b).toNat % 64 = 0)
    (hload : ctlLoadWords s (xr s b) 8 = .ok u d) (hbad : 256 / s.m ≤ (xr s a).toNat ∨ groupValid s (xr s a).toNat = false) :
    collOp s op a b = ctlFault u 0x25 1 0 := by
  rw [collOp_record hh hlow hal hload]
  exact if_pos hbad

theorem collOp_otherMember (hh : s.vc.ctl.h = false) (hlow : (xr s b).toNat < 2 ^ 56) (hal : (xr s b).toNat % 64 = 0)
    (hload : ctlLoadWords s (xr s b) 8 = .ok u d) (hg : (xr s a).toNat < 256 / s.m) (hv : groupValid s (xr s a).toNat = true)
    (hm : (groupMember s (xr s a).toNat (groupSelf s (xr s a).toNat)).1 ≠ s.vc.id) :
    collOp s op a b = ctlFault (touchMember u (xr s a).toNat (groupSelf s (xr s a).toNat)) 0x25 2 0 := by
  have hgroup : ¬(groupCount s ≤ (xr s a).toNat ∨ groupValid s (xr s a).toNat = false) :=
    fun h => h.elim (fun h => Nat.not_lt.mpr h hg) (fun h => Bool.false_ne_true (h.symm.trans hv))
  rw [collOp_record hh hlow hal hload, if_neg hgroup, if_pos hm]

/-- A collective whose descriptor passes and which finds room: only the stamp is left to check (R324, step 4). -/
theorem collOp_checked (hh : s.vc.ctl.h = false) (hlow : (xr s b).toNat < 2 ^ 56) (hal : (xr s b).toNat % 64 = 0)
    (hload : ctlLoadWords s (xr s b) 8 = .ok u d) (hg : (xr s a).toNat < 256 / s.m) (hv : groupValid s (xr s a).toNat = true)
    (hm : (groupMember s (xr s a).toNat (groupSelf s (xr s a).toNat)).1 = s.vc.id)
    (hcheck : descCheck (touchMember u (xr s a).toNat (groupSelf s (xr s a).toNat)) op (xr s a).toNat d = .ok v hints)
    (hroom : (s.vc.colls.filter (fun c => c.group == (xr s a).toNat && !c.failed)).length < 4) (hfew : inFlight s.vc < 128) :
    collOp s op a b =
      if decide (s.launch.mode = .lockstep) && !(readBeat s (descStamp d)).2 then ctlFault v 0x25 4 0
      else .next (collIssued s v op (xr s a).toNat d hints) := by
  have hgroup : ¬(groupCount s ≤ (xr s a).toNat ∨ groupValid s (xr s a).toNat = false) :=
    fun h => h.elim (fun h => Nat.not_lt.mpr h hg) (fun h => Bool.false_ne_true (h.symm.trans hv))
  rw [collOp_record hh hlow hal hload, if_neg hgroup, if_neg (not_not.mpr hm), hcheck]
  dsimp only
  rw [if_neg (Nat.not_le.mpr hroom), if_neg (Nat.not_le.mpr hfew)]

/-- What the issue of a collective leaves (R325). -/
def collTaken (s t : State) (op g : Nat) (d : List Word64) (c : Coll) : Prop :=
  let ahead := ((listAt 0 d 5).toNat % 2 ^ 24 + 2 ^ 24 - s.vc.now % 2 ^ 24) % 2 ^ 24
  keepsX s t ∧ t.vc.ctl.pc = s.vc.ctl.pc + 4 ∧ t.vc.colls = s.vc.colls ++ [c] ∧ c.op = op ∧ c.group = g ∧
  c.seq = groupCseq s g ∧ c.desc = d ∧
  c.start = s.vc.now + (if ahead ≠ 0 ∧ ahead < 2 ^ 23 then ahead else 0) ∧
  groupCseq t g = (groupCseq s g + 1) % 2 ^ 32

theorem descStamp_eq (d : List Word64) : descStamp d = (listAt 0 d 5).toNat % 2 ^ 24 := by
  simp only [descStamp, fld, bits, pow_zero, Nat.div_one, descW]

/-- A state that differs in what an access may change takes the collective of the first one. -/
theorem collIssued_taken {g : Nat} (hview : loadView v = loadView s) :
    collTaken s (collIssued s v op g d hints) op g d (collEntry s v op g d hints) := by
  have hkeep : ∀ {α : Type} (f : State → α), f (loadView v) = f (loadView s) := fun f => congrArg f hview
  have hctl : v.vc.ctl = s.vc.ctl := hkeep (·.vc.ctl)
  have hcolls : v.vc.colls = s.vc.colls := hkeep (·.vc.colls)
  have hseq : groupCseq v g = groupCseq s g := hkeep (groupCseq · g)
  have hcseq := groupCseq_takeCseq (charge v .coll) g
  have hcharged : groupCseq (charge v .coll) g = groupCseq v g := by simp [groupCseq, groupWord]
  obtain ⟨c, hc⟩ := takeCseq_eq (charge v .coll) g
  have hvc : (takeCseq (charge v .coll) g).vc = v.vc := by
    rw [hc]
    exact charge_vc ..
  refine ⟨fun r => ?_, ?_, ?_, rfl, rfl, hseq, rfl, ?_, ?_⟩
  · show xr (takeCseq (charge v .coll) g) r = xr s r
    unfold xr
    rw [hvc, hctl]
  · show (takeCseq (charge v .coll) g).vc.ctl.pc + 4 = _
    rw [hvc, hctl]
  · show (takeCseq (charge v .coll) g).vc.colls ++ _ = _
    rw [hvc, hcolls]
  · show (readBeat s (descStamp d)).1 = _
    unfold readBeat
    dsimp only
    rw [descStamp_eq]
    generalize ((listAt 0 d 5).toNat % 2 ^ 24 + 2 ^ 24 - s.vc.now % 2 ^ 24) % 2 ^ 24 = n
    rw [← Bool.decide_and]
    split
    next h => rw [if_pos (of_decide_eq_true h)]
    next h => rw [if_neg (fun hn => h (decide_eq_true hn)), Nat.add_zero]
  · show groupCseq (takeCseq (charge v .coll) g) g = _
    rw [hcseq, hcharged, hseq]

end

theorem readBeat_ahead (s : State) (d : List Word64) :
    (readBeat s (descStamp d)).2 = true ↔
      ((listAt 0 d 5).toNat % 2 ^ 24 + 2 ^ 24 - s.vc.now % 2 ^ 24) % 2 ^ 24 ≠ 0 ∧
        ((listAt 0 d 5).toNat % 2 ^ 24 + 2 ^ 24 - s.vc.now % 2 ^ 24) % 2 ^ 24 < 2 ^ 23 := by
  unfold readBeat
  dsimp only
  rw [descStamp_eq, Bool.and_eq_true, decide_eq_true_iff, decide_eq_true_iff]

/-- In an Elastic launch, or with a stamp ahead, the stamp is no obstacle (R324, R325). -/
theorem stamp_passes {s : State} {d : List Word64}
    (h : s.launch.mode = .elastic ∨ (readBeat s (descStamp d)).2 = true) :
    ¬(decide (s.launch.mode = .lockstep) && !(readBeat s (descStamp d)).2) = true := by
  rw [Bool.and_eq_true, decide_eq_true_iff]
  rintro ⟨hl, hn⟩
  rcases h with he | hr
  · rw [he] at hl
    cases hl
  · rw [hr] at hn
    cases hn

/-- Settles O37: the five words are one operation; its checks in their order, and its issue on the state that they leave. -/
theorem collectiveIssue : Obligations.CollectiveIssue := by
  intro s u v a b d hints hh g p hp
  have hexec : exec p.1 s = collOp s p.2 a b := by
    simp only [List.mem_cons, List.not_mem_nil, or_false] at hp
    obtain rfl | rfl | rfl | rfl | rfl := hp <;> rfl
  rw [hexec]
  refine ⟨fun hbig => ?_, fun hlow hal => ?_, fun hlow hal => ⟨?_, fun hload => ⟨fun hbad => ?_, fun hg hvalid => ⟨fun hother => ?_,
    fun hself hcheck hfree => ⟨fun hmode hstamp => ?_, fun hstamp => ?_⟩⟩⟩⟩⟩
  · unfold collOp groupChecks
    rw [restricted_outside hh, if_pos ((fld_beyond _).mpr hbig)]
  · unfold collOp groupChecks
    rw [restricted_outside hh, if_neg (fun h => Nat.not_lt.mpr ((fld_beyond _).mp h) hlow), if_pos hal]
  · intro hrec hlen hg hvalid hself hsound hformats hhaddr hin hfree hstamp
    obtain ⟨hroom, hfew⟩ := hfree
    obtain ⟨t, hload, hmask, -, hsettles⟩ := ctlLoadWords_record hrec (by omega)
    rw [hlen] at hload
    generalize hw : touchMember t g (groupSelf s g) = w
    have hmaskw : memMask w = memMask s := by rw [← hw, memMask_touchMember, hmask]
    have hmem : w.part.mem = t.part.mem := by
      rw [← hw]
      exact l2Access_part_mem ..
    have hview := loadView_of_memMask hmaskw
    have hinw : descInShare w p.2 g d = true := (congrArg (descInShare · p.2 g d) hview).trans hin
    obtain ⟨l, hl⟩ := descCheck_noHints hsound hformats hhaddr hinw
    refine ⟨collIssued s w p.2 g d l, collEntry s w p.2 g d l, ?_, collIssued_taken hview, fun x => ?_⟩
    · rw [collOp_checked (v := w) (hints := l) hh hlow hal hload hg hvalid hself (by rw [← hl, ← hw]) hroom hfew,
        if_neg (stamp_passes (hstamp.imp_right (readBeat_ahead s d).mpr))]
    · have hback := wroteBack_of_settles (hsettles x)
      unfold wroteBack at hback ⊢
      rw [physByte_of_mem ((collIssued_mem ..).trans hmem)]
      exact hback
  · exact collOp_badGroup hh hlow hal hload hbad
  · exact collOp_otherMember hh hlow hal hload hg hvalid hother
  · obtain ⟨hroom, hfew⟩ := hfree
    have hbehind : (readBeat s (descStamp d)).2 = false := by
      rw [Bool.eq_false_iff, ne_eq, readBeat_ahead]
      omega
    rw [collOp_checked hh hlow hal hload hg hvalid hself hcheck hroom hfew]
    exact if_pos (by rw [hbehind, hmode]; rfl)
  · obtain ⟨hroom, hfew⟩ := hfree
    have hmask : memMask v = memMask u := (memMask_descCheck hcheck).trans (memMask_touchMember ..)
    have hview := (loadView_of_memMask hmask).trans (loadView_ctlLoadWords hload)
    refine ⟨collIssued s v p.2 g d hints, collEntry s v p.2 g d hints, ?_, collIssued_taken hview, collIssued_mem ..⟩
    rw [collOp_checked hh hlow hal hload hg hvalid hself hcheck hroom hfew,
      if_neg (stamp_passes (hstamp.imp_right (readBeat_ahead s d).mpr))]

end Sys2Proof.Machine
end

section
/-! The atomics of CTL on unversioned pages: their checks, and those without a return (R273, R275, R390). -/

set_option Elab.async false

namespace Sys2Proof.Machine

open Sys2Proof.Laws

/-! ### The checks (R273) -/

/-- A floating add that a Lockstep launch may not take outside a window (R273). -/
def addsInLockstep (s : State) (op : AOp) (t : AType) : Bool :=
  decide (op = .add) && (atomFp t).isSome && decide (s.launch.mode = .lockstep)

theorem atomFp_isSome (t : AType) : (atomFp t).isSome = true ↔ t = .f32 ∨ t = .f64 := by
  cases t <;> simp [atomFp]

theorem addsInLockstep_iff {s : State} {op : AOp} {t : AType} :
    addsInLockstep s op t = true ↔ op = .add ∧ (t = .f32 ∨ t = .f64) ∧ s.launch.mode = .lockstep := by
  rw [addsInLockstep, Bool.and_eq_true, Bool.and_eq_true, decide_eq_true_iff, decide_eq_true_iff, atomFp_isSome, and_assoc]

theorem orderFault_noWindow {s : State} {a : Nat} (h : windowAt s a = none) (op : AOp) (t : AType) (ret : Bool) :
    orderFault s a op t ret = addsInLockstep s op t := by
  unfold orderFault addsInLockstep
  rw [h]
  cases ret <;> simp

/-- An atomic on an unversioned page outside every window, whose address is sound: what is left of its checks (R273, R275, R390). -/
theorem atomicOp_page {s u : State} {ra : BitVec 6} {t : AType} {pa : Nat} {e : TlbE} (hr : (xr s ra).toNat < 2 ^ 56)
    (hm : inMap (xr s ra).toNat = false) (ha : (xr s ra).toNat % atomBytes t = 0)
    (ht : translate s (xr s ra).toNat .atomic = .ok u (pa, e)) (hv : e.vb = false) (hw : windowAt s (xr s ra).toNat = none)
    (op : AOp) (ret : Bool) (k : State → Nat → TlbE → Out) :
    atomicOp s ra t op ret k =
      if addsInLockstep s op t then ctlFault u 0x24 0 0
      else if granuleBusy s pa || (!ret && unmatchedLine s (pa / 128)) then .next u
      else if ret && !matchedNow s then .next (awaitMatch u)
      else k (dropLine u (pa / 128)) pa e := by
  have hmask := memMask_translate ht
  have hwin : windowAt u (xr s ra).toNat = none := by
    show windowAt (memMask u) _ = none
    rw [hmask]
    exact hw
  have hmode : addsInLockstep u op t = addsInLockstep s op t := by
    show addsInLockstep (memMask u) op t = addsInLockstep (memMask s) op t
    rw [hmask]
  have hline : unmatchedLine u (pa / 128) = unmatchedLine s (pa / 128) := by
    have hsettled : settled u = settled s := by
      show settled (memMask u) = settled (memMask s)
      rw [hmask]
    rw [unmatchedLine, unmatchedLine, dcache_translate ht, hsettled]
  unfold atomicOp atomicCheck
  dsimp only
  rw [addrCheck_ok hr ha]
  dsimp only
  rw [if_neg (by rw [hm]; exact Bool.false_ne_true), ht]
  dsimp only [memThen]
  rw [orderFault_noWindow hwin, hmode, hline, granuleBusy_translate ht, matchedNow_translate ht, hv, Bool.false_and,
    if_neg Bool.false_ne_true, atomicDrop, hv, if_neg Bool.false_ne_true]

/-! ### No-return atomics (R275) -/

/-- The entry of a no-return atomic on its way to its home port. -/
def pendingEntry (s : State) (t : AType) (op : Nat) (va pa v : Nat) : PendAtomic :=
  { op := op, t := t, va := va, pa := pa, vb := false, v := v, epoch := epochTag s, window := none, name := nameOfPc s.vc.ctl.pc,
    seq := s.vc.eng.nextSeq, issued := s.vc.now, after := s.vc.pulse + 3, faulted := false }

/-- The state in which an atomic without a return has retired, from the one in which its line has left the data cache. -/
def sentOff (w : State) (p : PendAtomic) : State :=
  retire { charge w .atm with vc.atomics := w.vc.atomics ++ [p], vc.eng.nextSeq := w.vc.eng.nextSeq + 1 }

theorem versions_dropLine (s : State) (line : Nat) : versions (dropLine s line) = versions s := versions_writeBack s line

theorem sentOff_keeps {s w : State} (h : cachesDiffer s w) (p : PendAtomic) :
    keepsX s (sentOff w p) ∧ (sentOff w p).part.mem = w.part.mem ∧ (sentOff w p).vc.atomics = s.vc.atomics ++ [p] ∧
      accessStep { s with vc.atomics := (sentOff w p).vc.atomics, vc.eng.nextSeq := s.vc.eng.nextSeq + 1 } (sentOff w p) 4 := by
  obtain ⟨dcache, fifo, tlb, mem, l2, ctlb, walks, charges, rfl⟩ := h
  generalize hw : ({ s with vc.dcache := dcache, vc.fifo := fifo, vc.tlb := tlb, part.mem := mem, part.l2 := l2, part.ctlb := ctlb,
                            part.walks := walks, part.charges := charges } : State) = w
  obtain ⟨l, hl⟩ := charge_eq w .atm 1
  unfold sentOff
  rw [hl, ← hw]
  exact ⟨fun _ => rfl, rfl, rfl, rfl⟩

theorem aredOp_page {s u : State} {ra rb : BitVec 6} {t : AType} {op : AOp} {pa : Nat} {e : TlbE} (hr : (xr s ra).toNat < 2 ^ 56)
    (hm : inMap (xr s ra).toNat = false) (ha : (xr s ra).toNat % atomBytes t = 0)
    (ht : translate s (xr s ra).toNat .atomic = .ok u (pa, e)) (hv : e.vb = false) (hw : windowAt s (xr s ra).toNat = none)
    (hfree : granuleBusy s pa = false) (hmatched : unmatchedLine s (pa / 128) = false) (hfew : inFlight s.vc < 128)
    (horder : addsInLockstep s op t = false) :
    aredOp s ra rb t op = .next (sentOff (dropLine u (pa / 128))
      (pendingEntry s t op.code (xr s ra).toNat pa ((xr s rb).toNat % 2 ^ (8 * atomBytes t)))) := by
  have hmask : memMask (dropLine u (pa / 128)) = memMask s := (memMask_dropLine ..).trans (memMask_translate ht)
  have hkeep : ∀ {α : Type} (f : State → α), f (memMask (dropLine u (pa / 128))) = f (memMask s) := fun f => congrArg f hmask
  have hwin : windowAt (dropLine u (pa / 128)) (xr s ra).toNat = none := (hkeep (windowAt · (xr s ra).toNat)).trans hw
  have hroom : inFlight (dropLine u (pa / 128)).vc = inFlight s.vc := hkeep (inFlight ·.vc)
  have hepoch : epochTag (dropLine u (pa / 128)) = epochTag s := hkeep epochTag
  have hseq : (dropLine u (pa / 128)).vc.eng.nextSeq = s.vc.eng.nextSeq := hkeep (·.vc.eng.nextSeq)
  have hnow : (dropLine u (pa / 128)).vc.now = s.vc.now := hkeep (·.vc.now)
  have hpulse : (dropLine u (pa / 128)).vc.pulse = s.vc.pulse := hkeep (·.vc.pulse)
  unfold aredOp
  dsimp only
  rw [atomicOp_page hr hm ha ht hv hw, if_neg (by rw [horder]; exact Bool.false_ne_true),
    if_neg (by rw [hfree, hmatched]; exact Bool.false_ne_true), Bool.false_and, if_neg Bool.false_ne_true,
    if_neg (by rw [hroom]; exact Nat.not_le.mpr hfew), hwin, hepoch, hnow, hpulse, hv]
  unfold sentOff pendingEntry
  rw [hseq]

/-- What O25 says of one operation. -/
theorem aredOp_sends {s : State} {ra rb : BitVec 6} {t : AType} {op : AOp} {pa : Nat} (hr : (xr s ra).toNat < 2 ^ 56)
    (hm : inMap (xr s ra).toNat = false) (ha : (xr s ra).toNat % atomBytes t = 0)
    (hplace : placesAt s (xr s ra).toNat .atomic pa false) (hw : windowAt s (xr s ra).toNat = none) :
    (addsInLockstep s op t = true →
      ∀ u x, translate s (xr s ra).toNat .atomic = .ok u x → aredOp s ra rb t op = ctlFault u 0x24 0 0) ∧
    (addsInLockstep s op t = false →
      (granuleBusy s pa = true ∨ unmatchedLine s (pa / 128) = true →
        ∃ u, aredOp s ra rb t op = .next u ∧ u.vc.ctl = s.vc.ctl ∧ keepsBytes s u) ∧
      (granuleBusy s pa = false → unmatchedLine s (pa / 128) = false → inFlight s.vc < 128 →
        ∃ u, aredOp s ra rb t op = .next u ∧ keepsX s u ∧ onlyWritesBack s u ∧
          u.vc.atomics = s.vc.atomics ++
            [pendingEntry s t op.code (xr s ra).toNat pa ((xr s rb).toNat % 2 ^ (8 * atomBytes t))] ∧
          accessStep { s with vc.atomics := u.vc.atomics, vc.eng.nextSeq := s.vc.eng.nextSeq + 1 } u 4)) := by
  obtain ⟨u, e, ht, hv⟩ := hplace
  refine ⟨fun horder w x hw' => ?_, fun horder => ⟨fun hwait => ?_, fun hfree hmatched hfew => ?_⟩⟩
  · obtain ⟨rfl, -⟩ : u = w ∧ (pa, e) = x := by
      rw [ht] at hw'
      exact ⟨(MemR.ok.inj hw').1, (MemR.ok.inj hw').2⟩
    unfold aredOp
    dsimp only
    rw [atomicOp_page hr hm ha ht hv hw, if_pos horder]
  · refine ⟨u, ?_, ctl_translate ht, keepsBytes_translate ht⟩
    unfold aredOp
    dsimp only
    rw [atomicOp_page hr hm ha ht hv hw, if_neg (by rw [horder]; exact Bool.false_ne_true), if_pos]
    rcases hwait with h | h <;> simp [h]
  · have hdiffer : cachesDiffer s (dropLine u (pa / 128)) := cachesDiffer_of_masks
      ((memMask_dropLine ..).trans (memMask_translate ht)) ((versions_dropLine ..).trans (versions_translate ht))
    obtain ⟨hx, hmem, hatomics, hstep⟩ := sentOff_keeps hdiffer
      (pendingEntry s t op.code (xr s ra).toNat pa ((xr s rb).toNat % 2 ^ (8 * atomBytes t)))
    refine ⟨_, aredOp_page hr hm ha ht hv hw hfree hmatched hfew horder, hx, fun b => ?_, hatomics, hstep⟩
    have hback := wroteBack_of_settles (settles_trans (settles_translate ht b) (settles_dropLine u (pa / 128) b))
    unfold wroteBack at hback ⊢
    rw [physByte_of_mem hmem]
    exact hback

/-- Settles O25: the six words are one operation, whose checks `atomicOp_page` puts in order. -/
theorem atomicsWithoutReturn : Obligations.AtomicsWithoutReturn := by
  intro s a b t pa va n float hr hm ha hplace hw p hp hlegal
  obtain ⟨op, hexec, hcode⟩ : ∃ op : AOp, exec p.1 s = aredOp s a b t op ∧ op.code = p.2 := by
    simp only [List.mem_cons, List.not_mem_nil, or_false] at hp
    obtain rfl | rfl | rfl | rfl | rfl | rfl := hp
    · exact ⟨.add, rfl, rfl⟩
    · exact ⟨.and, rfl, rfl⟩
    · exact ⟨.or, rfl, rfl⟩
    · exact ⟨.xor, rfl, rfl⟩
    · exact ⟨.min, rfl, rfl⟩
    · exact ⟨.max, rfl, rfl⟩
  have hadd : op = .add ↔ p.2 = 0 := by
    rw [← hcode]
    cases op <;> decide
  obtain ⟨hfault, hsends⟩ := aredOp_sends (rb := b) (op := op) hr hm ha hplace hw
  rw [hexec, ← hcode]
  refine ⟨fun hf hzero hmode => hfault (addsInLockstep_iff.mpr ⟨hadd.mpr (hcode ▸ hzero), hf, hmode⟩), fun helastic =>
    hsends (Bool.eq_false_iff.mpr fun h => ?_)⟩
  obtain ⟨hop, hf, hmode⟩ := addsInLockstep_iff.mp h
  have := helastic hf (hcode.trans (hadd.mp hop))
  rw [hmode] at this
  cases this

end Sys2Proof.Machine
end

section
/-! The atomics of CTL that return the old value, on unversioned pages (R272, R273, R275, R390). -/

set_option Elab.async false

namespace Sys2Proof.Machine

open Sys2Proof.Laws

/-! ### The granule at its home port (R273, R274) -/

theorem leNat_physRead_range (s : State) (pa n : Nat) :
    leNat (physRead s pa n) = leNat ((List.range n).map (fun k => physByte s (pa + k))) := by
  have htake : physRead s pa n = (physRead s pa n).take n := (List.take_of_length_le (length_mgets ..).le).symm
  rw [htake, leNat_take]
  exact congrArg leNat (List.map_congr_left fun k hk => listAt_mgets _ _ _ _ _ _ (List.mem_range.mp hk))

/-- A line that has left the data cache stands in memory as its dirty bytes had it (R254). -/
theorem physByte_dropLine (s : State) {line a : Nat} (h : a / 128 = line) : physByte (dropLine s line) a = homeByte s a := by
  have hhome := (settles_dropLine s line a).1
  rw [homeByte_eq (dropLine s line), h] at hhome
  have hnone : lineIn (dropLine s line).vc.dcache line = none := lineIn_drop_same ..
  rw [hnone] at hhome
  exact hhome

/-- The state in which an atomic on an unversioned granule has performed at its home port. -/
def performedAt (s : State) (pa n new : Nat) (writes : Bool) : State :=
  let t := l2Access s (some s.vc.id) 0 (pa / 128) false
  if writes then physWrite (l2Access t (some t.vc.id) 0 (pa / 128) true) pa (leBytes new n) else t

theorem homeAtomic_page {s : State} {pa : Nat} {e : TlbE} {op : AOp} {t : AType} {v cmp new fl : Nat} {writes : Bool} {tag : Option Nat}
    (hv : e.vb = false) (hp : poisoned s pa = false) (hr : atomNew op t (leNat (physRead s pa (atomBytes t))) v cmp = (new, fl, writes)) :
    homeAtomic s pa e op t v cmp tag =
      .ok (performedAt s pa (atomBytes t) new writes) (leNat (physRead s pa (atomBytes t)), fl) := by
  unfold homeAtomic
  dsimp only
  rw [hv, if_neg Bool.false_ne_true, hp, if_neg Bool.false_ne_true, if_neg Bool.false_ne_true]
  dsimp only
  rw [hr]
  dsimp only
  rw [if_neg Bool.false_ne_true]
  unfold performedAt
  cases writes
  · simp only [Bool.not_false, if_true, Bool.false_eq_true, if_false]
  · simp only [Bool.not_true, if_true, Bool.false_eq_true, if_false]

section
variable (s : State) (pa n new : Nat) (writes : Bool)

theorem memMask_performedAt : memMask (performedAt s pa n new writes) = memMask s := by
  unfold performedAt
  cases writes
  · exact memMask_l2Access ..
  · dsimp only
    rw [if_pos rfl, memMask_physWrite, memMask_l2Access, memMask_l2Access]

theorem versions_performedAt : versions (performedAt s pa n new writes) = versions s := by
  unfold performedAt
  cases writes
  · exact versions_l2Access ..
  · exact (versions_l2Access ..).trans (versions_l2Access ..)

theorem physByte_performedAt (a : Nat) : physByte (performedAt s pa n new writes) a =
    if writes = true ∧ pa ≤ a ∧ a < pa + n then listAt 0 (leBytes new n) (a - pa) else physByte s a := by
  unfold performedAt
  cases writes
  · rw [if_neg (fun h : false = true ∧ _ => Bool.false_ne_true h.1)]
    exact physByte_of_mem (l2Access_part_mem ..) a
  · dsimp only
    rw [if_pos rfl, physByte_physWrite, length_leBytes, physByte_of_mem ((l2Access_part_mem ..).trans (l2Access_part_mem ..))]
    exact if_congr (by simp) rfl rfl

/-- The granule holds the result where the operation writes it (R273). -/
theorem granule_performedAt : leNat (physRead (performedAt s pa n new writes) pa n) =
    if writes = true then new % 256 ^ n else leNat (physRead s pa n) := by
  cases writes
  · rw [if_neg Bool.false_ne_true, leNat_physRead_range, leNat_physRead_range]
    refine congrArg leNat (List.map_congr_left fun k _ => ?_)
    rw [physByte_performedAt, if_neg (fun h : false = true ∧ _ => Bool.false_ne_true h.1)]
  · rw [if_pos rfl]
    refine leNat_physRead fun i hi => ?_
    rw [physByte_performedAt, if_pos ⟨rfl, by omega⟩, Nat.add_sub_cancel_left]

end

/-! ### The word (R273) -/

/-- Flags enter FLAGS and the vote, and look at no cache of CTL. -/
theorem enterFlags_caches (v : VC) (dc : List CLn) (ff : List Nat) (tlb : List TlbE) (f : Nat) :
    ({ v with dcache := dc, fifo := ff, tlb := tlb } : VC).enterFlags f =
      { v.enterFlags f with dcache := dc, fifo := ff, tlb := tlb } := by
  unfold VC.enterFlags VC.voteFlagsOf VC.voteFlag
  dsimp only
  split_ifs <;> rfl

/-- A word of CTL that accesses memory, writes xd and enters flags. -/
theorem accessStep_flagsWord {s w : State} (h : cachesDiffer s w) (d : BitVec 6) (v : Word64) (fl : Nat) :
    accessStep { s with vc := s.vc.enterFlags fl } (flagsWord w .atm d v fl) 4 ∧
      (flagsWord w .atm d v fl).vc.ctl.flags = s.vc.ctl.flags ||| w64 fl ∧ (flagsWord w .atm d v fl).part.mem = w.part.mem ∧
      (flagsWord w .atm d v fl).vc.ctl.x = (setX w d v).vc.ctl.x := by
  obtain ⟨dcache, fifo, tlb, mem, l2, ctlb, walks, charges, rfl⟩ := h
  generalize hw : ({ s with vc.dcache := dcache, vc.fifo := fifo, vc.tlb := tlb, part.mem := mem, part.l2 := l2, part.ctlb := ctlb,
                            part.walks := walks, part.charges := charges } : State) = w
  have hvc : w.vc = { s.vc with dcache := dcache, fifo := fifo, tlb := tlb } := by rw [← hw]
  have hx : (setX (charge w .atm) d v).vc.ctl.x = (setX w d v).vc.ctl.x := by
    unfold setX
    split
    · rw [charge_vc]
    · dsimp only
      rw [charge_vc]
  have hkeep : (s.vc.enterFlags fl).ctl.pc = s.vc.ctl.pc ∧ (s.vc.enterFlags fl).ctl.instret = s.vc.ctl.instret := by
    unfold VC.enterFlags VC.voteFlagsOf VC.voteFlag
    dsimp only
    split_ifs <;> exact ⟨rfl, rfl⟩
  obtain ⟨l, hl⟩ := charge_eq w .atm 1
  have hflags : w.vc.enterFlags fl = { s.vc.enterFlags fl with dcache := dcache, fifo := fifo, tlb := tlb } := by
    rw [hvc]
    exact enterFlags_caches ..
  have hword := flagsWord_eq w .atm d v fl
  rw [hx, hl, hflags] at hword
  rw [hword]
  generalize (setX w d v).vc.ctl.x = x
  rw [← hw]
  refine ⟨?_, rfl, rfl, rfl⟩
  unfold accessStep
  dsimp only
  rw [hkeep.1, hkeep.2]

/-- The granule as memory holds it once the dirty bytes of CTL are written back. -/
def granuleAt (s : State) (pa n : Nat) : Nat := leNat ((List.range n).map (fun k => homeByte s (pa + k)))

theorem atomBytes_widths (t : AType) : atomBytes t = 4 ∨ atomBytes t = 8 := by cases t <;> simp [atomBytes]

/-- The granule after the operation: its result where it is written, else what it was (R273). -/
def granuleAfter (op : AOp) (t : AType) (old v cmp : Nat) : Nat :=
  if (atomNew op t old v cmp).2.2 = true then (atomNew op t old v cmp).1 % 256 ^ atomBytes t else old

theorem awaitMatch_ctl (s : State) : (awaitMatch s).vc.ctl =
    if s.vc.ctl.matched.isSome = true then s.vc.ctl else { s.vc.ctl with matched := some (s.vc.pulse + 3) } := by
  unfold awaitMatch
  split <;> rfl

theorem keepsBytes_awaitMatch {s t : State} (h : keepsBytes s t) : keepsBytes s (awaitMatch t) := by
  unfold awaitMatch
  split
  · exact h
  · exact h

/-- A state that an access has changed waits for the Collie as the one before it does. -/
theorem awaitMatch_ctl_of_memMask {s t : State} (h : memMask t = memMask s) : (awaitMatch t).vc.ctl = (awaitMatch s).vc.ctl := by
  have hctl : t.vc.ctl = s.vc.ctl := congrArg (fun x => x.vc.ctl) h
  have hpulse : t.vc.pulse = s.vc.pulse := congrArg (fun x => x.vc.pulse) h
  rw [awaitMatch_ctl, awaitMatch_ctl, hctl, hpulse]

/-- What O24 says of one operation on a granule: the old value, the result, the flags and what stays. -/
theorem aretOp_returns {s : State} {d a b : BitVec 6} {t : AType} {op : AOp} {pa : Nat} (hr : (xr s a).toNat < 2 ^ 56)
    (hm : inMap (xr s a).toNat = false) (ha : (xr s a).toNat % atomBytes t = 0)
    (hplace : placesAt s (xr s a).toNat .atomic pa false) (hpa : pa % atomBytes t = 0) (hw : windowAt s (xr s a).toNat = none)
    (hfree : granuleBusy s pa = false) (hp : s.part.poison.contains (pa / 128) = false) :
    let old := granuleAt s pa (atomBytes t)
    let v := (xr s b).toNat % 2 ^ (8 * atomBytes t)
    let cmp := (xr s d).toNat % 2 ^ (8 * atomBytes t)
    let fl := (atomNew op t old v cmp).2.1
    (addsInLockstep s op t = true →
      ∀ u x, translate s (xr s a).toNat .atomic = .ok u x → aretOp s d a b t op = ctlFault u 0x24 0 0) ∧
    (addsInLockstep s op t = false → matchedNow s = false →
      ∃ u, aretOp s d a b t op = .next u ∧ u.vc.ctl = (awaitMatch s).vc.ctl ∧ keepsBytes s u) ∧
    (addsInLockstep s op t = false → matchedNow s = true →
      ∃ u, aretOp s d a b t op = .next u ∧ writesX s u d (atomResult t old) ∧
        leNat (physRead u pa (atomBytes t)) = granuleAfter op t old v cmp ∧
        accessStep { s with vc := s.vc.enterFlags fl } u 4 ∧ u.vc.ctl.flags = s.vc.ctl.flags ||| w64 fl ∧
        ∀ c, c < pa ∨ pa + atomBytes t ≤ c → physByte u c = physByte s c ∨ physByte u c = homeByte s c) := by
  intro old v cmp fl
  obtain ⟨u, e, ht, hv⟩ := hplace
  refine ⟨fun horder w x hw' => ?_, fun horder hmatch => ?_, fun horder hmatch => ?_⟩
  · obtain ⟨rfl, -⟩ : u = w ∧ (pa, e) = x := by
      rw [ht] at hw'
      exact ⟨(MemR.ok.inj hw').1, (MemR.ok.inj hw').2⟩
    unfold aretOp
    dsimp only
    rw [atomicOp_page hr hm ha ht hv hw, if_pos horder]
  · refine ⟨awaitMatch u, ?_, ?_, ?_⟩
    · unfold aretOp
      dsimp only
      rw [atomicOp_page hr hm ha ht hv hw, if_neg (by rw [horder]; exact Bool.false_ne_true),
        if_neg (by rw [hfree]; exact Bool.false_ne_true), if_pos (by rw [hmatch]; rfl)]
    · exact awaitMatch_ctl_of_memMask (memMask_translate ht)
    · exact keepsBytes_awaitMatch (keepsBytes_translate ht)
  · generalize hdrop : dropLine u (pa / 128) = w
    have hmaskw : memMask w = memMask s := by rw [← hdrop, memMask_dropLine, memMask_translate ht]
    have hverw : versions w = versions s := by rw [← hdrop, versions_dropLine, versions_translate ht]
    have hsettles (c : Nat) : settles s w c := hdrop ▸ settles_trans (settles_translate ht c) (settles_dropLine u (pa / 128) c)
    have hpoison : poisoned w pa = false := by
      have hl : w.part.poison = s.part.poison := by
        show (memMask w).part.poison = (memMask s).part.poison
        rw [hmaskw]
      rw [poisoned, hl, hp, Bool.false_and]
    have hold : leNat (physRead w pa (atomBytes t)) = old := by
      rw [leNat_physRead_range]
      refine congrArg leNat (List.map_congr_left fun k hk => ?_)
      have hk := List.mem_range.mp hk
      have hline : (pa + k) / 128 = pa / 128 := by
        rcases atomBytes_widths t with h | h <;> rw [h] at hk hpa <;> omega
      rw [← hdrop, physByte_dropLine u hline]
      exact (settles_translate ht (pa + k)).1
    obtain ⟨new, fl', writes, hnew⟩ : ∃ new fl' writes, atomNew op t old v cmp = (new, fl', writes) := ⟨_, _, _, rfl⟩
    have hfl : fl = fl' := congrArg (fun r => r.2.1) hnew
    have hafter : granuleAfter op t old v cmp = if writes = true then new % 256 ^ atomBytes t else old := by
      rw [granuleAfter, hnew]
    have hhome : homeAtomic w pa e op t v cmp (epochTag w) = .ok (performedAt w pa (atomBytes t) new writes) (old, fl') := by
      rw [← hold] at hnew ⊢
      exact homeAtomic_page hv hpoison hnew
    have hdiffer : cachesDiffer s (performedAt w pa (atomBytes t) new writes) :=
      cachesDiffer_of_masks ((memMask_performedAt ..).trans hmaskw) ((versions_performedAt ..).trans hverw)
    have hctl : (performedAt w pa (atomBytes t) new writes).vc.ctl = s.vc.ctl := by
      show (memMask (performedAt w pa (atomBytes t) new writes)).vc.ctl = (memMask s).vc.ctl
      rw [memMask_performedAt, hmaskw]
    obtain ⟨hstep, hflags, hmem, hx⟩ := accessStep_flagsWord hdiffer d (atomResult t old) fl'
    refine ⟨flagsWord (performedAt w pa (atomBytes t) new writes) .atm d (atomResult t old) fl', ?_, ?_, ?_, hfl ▸ hstep, hfl ▸ hflags,
      fun c hc => ?_⟩
    · unfold aretOp
      dsimp only
      rw [atomicOp_page hr hm ha ht hv hw, if_neg (by rw [horder]; exact Bool.false_ne_true),
        if_neg (by rw [hfree]; exact Bool.false_ne_true), if_neg (by rw [hmatch]; exact Bool.false_ne_true), hdrop]
      show memThen s (xr s a) (homeAtomic w pa e op t v cmp (epochTag w)) _ = _
      rw [hhome]
      rfl
    · obtain ⟨⟨hd, hrest⟩, -, -⟩ := flagsWord_step (performedAt w pa (atomBytes t) new writes) .atm d (atomResult t old) fl'
      refine ⟨hd, fun r hne => (hrest r hne).trans ?_⟩
      unfold xr
      rw [hctl]
    · have hbytes := congrArg (fun m => leNat (mgets byteDefault m pa (atomBytes t))) hmem
      refine hbytes.trans ((granule_performedAt ..).trans ?_)
      rw [hold, hafter]
    · rw [physByte_of_mem hmem, physByte_performedAt, if_neg (by omega)]
      exact (hsettles c).2.1

/-! ### The results of the operations (R272, R273) -/

theorem leNat_lt_pow (l : List Byte) : leNat l < 256 ^ l.length := by
  induction l with
  | nil => exact one_pos
  | cons b l ih =>
    have hb : b.toNat < 256 := b.isLt
    rw [List.length_cons, pow_succ]
    show b.toNat + 256 * leNat l < _
    omega

theorem granuleAt_lt (s : State) (pa n : Nat) : granuleAt s pa n < 2 ^ (8 * n) := by
  have h := leNat_lt_pow ((List.range n).map (fun k => homeByte s (pa + k)))
  rw [List.length_map, List.length_range] at h
  rw [pow_mul]
  exact h

theorem atomSigned_iff (t : AType) : atomSigned t = true ↔ t = .i32 ∨ t = .i64 := by cases t <;> simp [atomSigned]

/-- One granule is below another by the type of the operation (R273). -/
def atomBelow (t : AType) (x y : Nat) : Bool :=
  if atomSigned t then decide (signed (8 * atomBytes t) x < signed (8 * atomBytes t) y) else decide (x < y)

theorem atomBelow_iff (t : AType) (x y : Nat) : atomBelow t x y = true ↔
    if t = .i32 ∨ t = .i64 then (BitVec.ofNat (8 * atomBytes t) x).toInt < (BitVec.ofNat (8 * atomBytes t) y).toInt else x < y := by
  have hpos : 0 < 8 * atomBytes t := by
    have := atomBytes_widths t
    omega
  unfold atomBelow
  by_cases ht : t = .i32 ∨ t = .i64
  · rw [if_pos ((atomSigned_iff t).mpr ht), if_pos ht, decide_eq_true_iff, signed_eq_bmod hpos, signed_eq_bmod hpos,
      BitVec.toInt_ofNat', BitVec.toInt_ofNat']
  · rw [if_neg (fun h => ht ((atomSigned_iff t).mp h)), if_neg ht, decide_eq_true_iff]

theorem atomFp_none {t : AType} (h : t ≠ .f32) (h' : t ≠ .f64) : atomFp t = none := by
  rw [← Option.not_isSome_iff_eq_none, atomFp_isSome]
  exact fun hf => hf.elim h h'

theorem granuleAfter_write {op : AOp} {t : AType} {old v cmp new fl : Nat} (h : atomNew op t old v cmp = (new, fl, true))
    (hnew : new < 2 ^ (8 * atomBytes t)) : granuleAfter op t old v cmp = new := by
  rw [granuleAfter, h, if_pos rfl]
  exact Nat.mod_eq_of_lt (by rwa [pow_mul] at hnew)

/-- The integer operations: they enter no flags (R272, R273). -/
theorem atomNew_flags {op : AOp} {t : AType} (ht : atomFp t = none) (old v cmp : Nat) : (atomNew op t old v cmp).2.1 = 0 := by
  unfold atomNew
  rw [ht]
  cases op <;> rfl

/-- The granule after each integer operation (R272, R273). -/
theorem granuleAfter_int {t : AType} {old v : Nat} (ht : atomFp t = none) (ho : old < 2 ^ (8 * atomBytes t))
    (hv : v < 2 ^ (8 * atomBytes t)) (cmp : Nat) :
    granuleAfter .add t old v cmp = (old + v) % 2 ^ (8 * atomBytes t) ∧ granuleAfter .and t old v cmp = old &&& v ∧
    granuleAfter .or t old v cmp = old ||| v ∧ granuleAfter .xor t old v cmp = old ^^^ v ∧
    granuleAfter .min t old v cmp = (if atomBelow t v old then v else old) ∧
    granuleAfter .max t old v cmp = (if atomBelow t old v then v else old) ∧
    granuleAfter .swap t old v cmp = v ∧ granuleAfter .cas t old v cmp = (if old = cmp then v else old) := by
  refine ⟨granuleAfter_write (fl := 0) ?_ (Nat.mod_lt _ (Nat.two_pow_pos _)), granuleAfter_write (fl := 0) rfl (Nat.and_lt_two_pow _ hv),
    granuleAfter_write (fl := 0) rfl (Nat.or_lt_two_pow ho hv), granuleAfter_write (fl := 0) rfl (Nat.xor_lt_two_pow ho hv),
    granuleAfter_write (fl := 0) ?_ (by split <;> assumption), granuleAfter_write (fl := 0) ?_ (by split <;> assumption),
    granuleAfter_write (fl := 0) rfl hv, ?_⟩
  · unfold atomNew
    rw [ht]
  · unfold atomNew
    rw [ht]
    rfl
  · unfold atomNew
    rw [ht]
    rfl
  · by_cases h : old = cmp
    · rw [if_pos h]
      exact granuleAfter_write (fl := 0) (by unfold atomNew; dsimp only; rw [decide_eq_true h]) hv
    · rw [if_neg h, granuleAfter]
      refine if_neg (fun hw => h ?_)
      exact of_decide_eq_true hw

/-- The sum that the floating adds take (R125, R126). -/
theorem add_sumsTo {f : Fp} (hf : f.std) (rm : Rm) (a b : Nat) : f.sumsTo rm a b (f.add rm a b).1 (f.add rm a b).2 := by
  refine ⟨fun ha hb => add_roundsTo hf ha hb, fun h => ?_, fun k ha hb => ?_, fun k h => ?_⟩
  · rw [add_of_nan rm h]
    exact ⟨rfl, rfl⟩
  · rw [add_inf_opposite rm ha hb]
    exact ⟨rfl, rfl⟩
  · have hsum : f.add rm a b = (f.infPat k, 0) := by
      rcases h with ⟨ha, hb, hne⟩ | ⟨hb, ha⟩
      · exact add_inf_left rm ha hb hne
      · exact add_inf_right rm ha hb
    rw [hsum]
    exact ⟨decode_infPat hf k, rfl⟩

/-- The format of a floating granule. -/
def floatOf (t : AType) : Fp := if t = .f64 then fpF64 else fpF32

theorem atomFp_float {t : AType} (h : t = .f32 ∨ t = .f64) :
    atomFp t = some (floatOf t) ∧ (floatOf t).std ∧ (floatOf t).width = 8 * atomBytes t ∧ ∀ v, atomResult t v = w64 v := by
  obtain rfl | rfl := h
  · exact ⟨rfl, std_fpF32, rfl, fun _ => rfl⟩
  · exact ⟨rfl, std_fpOf true, rfl, fun _ => rfl⟩

/-- The granule and the flags after each floating operation (R273). -/
theorem granuleAfter_float {t : AType} {old v : Nat} (ht : t = .f32 ∨ t = .f64) (ho : old < 2 ^ (8 * atomBytes t))
    (hv : v < 2 ^ (8 * atomBytes t)) (cmp : Nat) :
    (floatOf t).sumsTo .rne old v (granuleAfter .add t old v cmp) (atomNew .add t old v cmp).2.1 ∧
    (floatOf t).picks false old v (granuleAfter .min t old v cmp) (atomNew .min t old v cmp).2.1 ∧
    (floatOf t).picks true old v (granuleAfter .max t old v cmp) (atomNew .max t old v cmp).2.1 ∧
    (granuleAfter .swap t old v cmp = v ∧ (atomNew .swap t old v cmp).2.1 = 0) := by
  obtain ⟨hfp, hstd, hwidth, -⟩ := atomFp_float ht
  have hadd : atomNew .add t old v cmp = (((floatOf t).add .rne old v).1, ((floatOf t).add .rne old v).2, true) := by
    unfold atomNew
    rw [hfp]
  have hmin : atomNew .min t old v cmp = (((floatOf t).minmax false old v).1, ((floatOf t).minmax false old v).2, true) := by
    unfold atomNew
    rw [hfp]
  have hmax : atomNew .max t old v cmp = (((floatOf t).minmax true old v).1, ((floatOf t).minmax true old v).2, true) := by
    unfold atomNew
    rw [hfp]
  have ho' := ho
  have hv' := hv
  rw [← hwidth] at ho' hv'
  rw [granuleAfter_write hadd (hwidth ▸ add_lt hstd .rne old v), granuleAfter_write hmin (hwidth ▸ minmax_lt hstd false old v),
    granuleAfter_write hmax (hwidth ▸ minmax_lt hstd true old v), hadd, hmin, hmax]
  exact ⟨add_sumsTo hstd .rne old v, minmax_picks hstd ho' hv' false, minmax_picks hstd ho' hv' true,
    granuleAfter_write (fl := 0) rfl hv, rfl⟩

/-- Settles O24: the words are one operation, `aretOp_returns`; its results are those of `granuleAfter_int` and `granuleAfter_float`. -/
theorem returningAtomics : Obligations.ReturningAtomics := by
  intro s d a b t pa va n hr hm ha hplace hpa hw hfree hp old v cmp less others
  have hold : granuleAt s pa n = old := rfl
  have ho : old < 2 ^ (8 * n) := granuleAt_lt s pa n
  have hv : v < 2 ^ (8 * n) := Nat.mod_lt _ (Nat.two_pow_pos _)
  have hret (op : AOp) := aretOp_returns (d := d) (b := b) (op := op) hr hm ha hplace hpa hw hfree hp
  refine ⟨fun hmatch h32 h64 i hi => ?_, fun hmatch h32 h64 p hp' => ?_, fun hmatch hf => ?_⟩
  · have hint (op : AOp) : addsInLockstep s op t = false :=
      Bool.eq_false_iff.mpr fun h => (addsInLockstep_iff.mp h).2.1.elim h32 h64
    obtain ⟨op, hexec⟩ : ∃ op : AOp, exec i s = aretOp s d a b t op := by
      simp only [List.mem_cons, List.not_mem_nil, or_false] at hi
      obtain rfl | rfl | rfl | rfl | rfl | rfl | rfl | rfl := hi
      exacts [⟨.add, rfl⟩, ⟨.and, rfl⟩, ⟨.or, rfl⟩, ⟨.xor, rfl⟩, ⟨.min, rfl⟩, ⟨.max, rfl⟩, ⟨.swap, rfl⟩, ⟨.cas, rfl⟩]
    rw [hexec]
    exact (hret op).2.1 (hint op) hmatch
  · have hfp := atomFp_none h32 h64
    have hint (op : AOp) : addsInLockstep s op t = false :=
      Bool.eq_false_iff.mpr fun h => (addsInLockstep_iff.mp h).2.1.elim h32 h64
    have hresult : atomResult t old = if t = .i32 then BitVec.ofInt 64 (Int.bmod old (2 ^ 32)) else w64 old := by
      split
      next h =>
        rw [h]
        exact (extends_signed four_pos rfl old).trans (if_pos rfl)
      next h =>
        cases t with
        | i32 => exact absurd rfl h
        | _ => rfl
    have hless (x y : Nat) : atomBelow t x y = true ↔ less x y := atomBelow_iff t x y
    obtain ⟨hadd, hand, hor, hxor, hmin, hmax, hswap, hcas⟩ := granuleAfter_int hfp ho hv cmp
    obtain ⟨op, hexec, hnew⟩ : ∃ op : AOp, exec p.1 s = aretOp s d a b t op ∧ p.2 (granuleAfter op t old v cmp) := by
      simp only [List.mem_cons, List.not_mem_nil, or_false] at hp'
      obtain rfl | rfl | rfl | rfl | rfl | rfl | rfl | rfl := hp'
      · exact ⟨.add, rfl, hadd⟩
      · exact ⟨.and, rfl, hand⟩
      · exact ⟨.or, rfl, hor⟩
      · exact ⟨.xor, rfl, hxor⟩
      · exact ⟨.min, rfl, fun h => hmin.trans (if_pos ((hless v old).mpr h)),
          fun h => hmin.trans (if_neg fun hb => h ((hless v old).mp hb))⟩
      · exact ⟨.max, rfl, fun h => hmax.trans (if_pos ((hless old v).mpr h)),
          fun h => hmax.trans (if_neg fun hb => h ((hless old v).mp hb))⟩
      · exact ⟨.swap, rfl, hswap⟩
      · exact ⟨.cas, rfl, fun h => hcas.trans (if_pos h), fun h => hcas.trans (if_neg h)⟩
    obtain ⟨u, hu, hx, hgranule, hstep, -, hothers⟩ := (hret op).2.2 (hint op) hmatch
    rw [atomNew_flags hfp, enterFlags_zero] at hstep
    have hx' : writesX s u d (atomResult t old) := hx
    rw [hresult] at hx'
    rw [hexec]
    exact ⟨u, hu, hx', hgranule ▸ hnew, hstep, hothers⟩
  · dsimp only
    intro p hp'
    obtain ⟨-, -, -, hresult⟩ := atomFp_float hf
    obtain ⟨hadd, hmin, hmax, hswap⟩ := granuleAfter_float hf ho hv cmp
    obtain ⟨op, hexec, hisAdd, hnew⟩ : ∃ op : AOp, exec p.1 s = aretOp s d a b t op ∧ (op = .add ↔ p.1 = .aadd d a b t) ∧
        p.2 (granuleAfter op t old v cmp) (atomNew op t old v cmp).2.1 := by
      simp only [List.mem_cons, List.not_mem_nil, or_false] at hp'
      obtain rfl | rfl | rfl | rfl := hp'
      · exact ⟨.add, rfl, ⟨fun _ => rfl, fun _ => rfl⟩, hadd⟩
      · exact ⟨.min, rfl, ⟨nofun, nofun⟩, hmin⟩
      · exact ⟨.max, rfl, ⟨nofun, nofun⟩, hmax⟩
      · exact ⟨.swap, rfl, ⟨nofun, nofun⟩, hswap⟩
    rw [hexec]
    refine ⟨fun hi hmode => ?_, fun helastic => ?_⟩
    · exact (hret op).1 (addsInLockstep_iff.mpr ⟨hisAdd.mpr hi, hf, hmode⟩)
    · have horder : addsInLockstep s op t = false := Bool.eq_false_iff.mpr fun h => by
        obtain ⟨hop, -, hmode⟩ := addsInLockstep_iff.mp h
        rw [helastic (hisAdd.mp hop)] at hmode
        cases hmode
      obtain ⟨u, hu, hx, hgranule, hstep, hflags, hothers⟩ := (hret op).2.2 horder hmatch
      have hx' : writesX s u d (atomResult t old) := hx
      rw [hresult] at hx'
      exact ⟨u, _, hu, hx', hgranule ▸ hnew, hstep, hflags, hothers⟩

end Sys2Proof.Machine
end

section
/-! Acquire and release from core to device scope (R265 to R268, R390). -/

set_option Elab.async false

namespace Sys2Proof.Machine

open Sys2Proof.Laws

/-! ### States that accesses of CTL leave -/

/-- t is s after accesses of CTL that change no byte which CTL or the home slices read: lines move and dirty ones are written back. -/
def accessed (s t : State) : Prop := memMask t = memMask s ∧ versions t = versions s ∧ ∀ a, settles s t a

theorem accessed_refl (s : State) : accessed s s := ⟨rfl, rfl, settles_refl s⟩

theorem accessed_trans {s t u : State} (h : accessed s t) (k : accessed t u) : accessed s u := by
  obtain ⟨hm, hv, hs⟩ := h
  obtain ⟨km, kv, ks⟩ := k
  exact ⟨km.trans hm, kv.trans hv, fun a => settles_trans (hs a) (ks a)⟩

theorem accessed_translate {s t : State} {va : Nat} {k : AccKind} {r : Nat × TlbE} (h : translate s va k = .ok t r) : accessed s t :=
  ⟨memMask_translate h, versions_translate h, settles_translate h⟩

theorem accessed_homeRead (s : State) (pa n : Nat) : accessed s (homeRead s pa n).1 :=
  ⟨memMask_homeRead .., versions_homeRead .., settles_homeRead s pa n⟩

theorem accessed_dropLine (s : State) (n : Nat) : accessed s (dropLine s n) :=
  ⟨memMask_dropLine .., versions_dropLine .., settles_dropLine s n⟩

theorem accessed_flushFifo (s : State) : accessed s (flushFifo s) :=
  ⟨memMask_flushFifo s, versions_flushFifo s, settles_flushFifo s⟩

theorem ctl_accessed {s t : State} (h : accessed s t) : t.vc.ctl = s.vc.ctl := by
  show (memMask t).vc.ctl = (memMask s).vc.ctl
  rw [h.1]

theorem onlyWritesBack_accessed {s t : State} (h : accessed s t) : onlyWritesBack s t :=
  fun a => wroteBack_of_settles (h.2.2 a)

theorem onlyWritesBack_of_mem {s t u : State} (h : accessed s t) (hm : u.part.mem = t.part.mem) : onlyWritesBack s u := fun a => by
  have hback := onlyWritesBack_accessed h a
  unfold wroteBack at hback ⊢
  rw [physByte_of_mem hm]
  exact hback

/-- A word of CTL that goes on after its accesses. -/
theorem sysNext_accessed {s w : State} (h : accessed s w) :
    ∃ t, sysNext w = .next t ∧ keepsX s t ∧ accessStep s t 4 ∧ onlyWritesBack s t ∧ t.vc.dcache = w.vc.dcache ∧
      t.vc.fifo = w.vc.fifo := by
  have hctl := ctl_accessed h
  have hdiffer := cachesDiffer_of_masks h.1 h.2.1
  have hstep := accessStep_retireTo (cachesDiffer_charge hdiffer .sys) 4
  have hnext : retire (charge w .sys) = retireTo (charge w .sys) (s.vc.ctl.pc + 4) := by rw [retire, charge_vc, hctl]
  refine ⟨_, rfl, keepsX_sysNext (by rw [hctl]), hnext ▸ hstep, onlyWritesBack_of_mem h ?_, ?_, ?_⟩
  · simp [retire, retireTo]
  · simp [retire, retireTo]
  · simp [retire, retireTo]

/-! ### The lines that an acquire discards (R267) -/

/-- t is s but for lookaside buffers, L2 and the charges on their way. -/
def looked (s t : State) : Prop := accessed s t ∧ t.vc.dcache = s.vc.dcache

theorem looked_refl (s : State) : looked s s := ⟨accessed_refl s, rfl⟩

theorem looked_trans {s t u : State} (h : looked s t) (k : looked t u) : looked s u :=
  ⟨accessed_trans h.1 k.1, k.2.trans h.2⟩

theorem looked_lookup (s : State) (va : Nat) : looked s (lookup s va).1 := by
  obtain ⟨hd, -, hv⟩ := lookup_keeps s va
  exact ⟨⟨memMask_lookup s va, hv, settles_of_same hd (lookup_part_mem s va)⟩, hd⟩

theorem looked_afterDenied {s u t : State} {va : Nat} (h : looked s t) : looked s (afterDenied u t va) := by
  unfold afterDenied
  split
  · exact h
  · exact h

/-- The state that a translation leaves, whatever it answers. -/
def stateAfter {α : Type} : MemR α → State
  | .ok s _ => s
  | .fault s _ _ => s
  | .wait s => s

theorem looked_translate (s : State) (va : Nat) (k : AccKind) : looked s (stateAfter (translate s va k)) := by
  have hlook := looked_lookup s va
  unfold translate
  split
  next s1 c d h =>
    rw [h] at hlook
    exact hlook
  next s1 e h =>
    rw [h] at hlook
    split
    · exact looked_afterDenied hlook
    · exact hlook

/-- The state and the ranges after one page of a region. -/
def regionPage (b : Bind) (x : State × List (Nat × Nat)) (i : Nat) : State × List (Nat × Nat) :=
  let va := b.rbase / 65536 * 65536 + 65536 * i
  if b.rbase + b.rsize ≤ va then x
  else
    match translate x.1 va .read with
    | .ok t (pa, _) =>
      let page := pa / 128
      let first := (if va < b.rbase then b.rbase - va else 0) / 128
      let last := (if b.rbase + b.rsize < va + 65536 then b.rbase + b.rsize - va else 65536) / 128
      (t, (page + first, page + last) :: x.2)
    | .fault t _ _ => (t, x.2)
    | .wait t => (t, x.2)

theorem looked_regionPage {s : State} {b : Bind} {x : State × List (Nat × Nat)} (h : looked s x.1) (i : Nat) :
    looked s (regionPage b x i).1 := by
  have ht := looked_trans h (looked_translate x.1 (b.rbase / 65536 * 65536 + 65536 * i) .read)
  unfold regionPage
  dsimp only
  split
  · exact h
  · split
    all_goals
      next hr =>
        rw [hr] at ht
        exact ht

theorem looked_regionLines (s : State) (b : Bind) : looked s (regionLines s b).1 := by
  have hfold : ∀ (l : List Nat) (x : State × List (Nat × Nat)), looked s x.1 → looked s (l.foldl (regionPage b) x).1 := by
    intro l
    induction l with
    | nil => exact fun x h => h
    | cons i l ih => exact fun x h => ih _ (looked_regionPage h i)
  exact hfold _ (s, []) (looked_refl s)

/-- The state and the ranges after one region bound to the sync object. -/
def regionStep (x : State × List (Nat × Nat)) (b : Bind) : State × List (Nat × Nat) :=
  let (t, l) := regionLines x.1 b
  (t, x.2 ++ l)

theorem looked_regionStep {s : State} {x : State × List (Nat × Nat)} (h : looked s x.1) (b : Bind) : looked s (regionStep x b).1 := by
  have hlines := looked_trans h (looked_regionLines x.1 b)
  unfold regionStep
  generalize regionLines x.1 b = r at hlines ⊢
  exact hlines

theorem looked_acqRegions (s : State) (a : Nat) : looked s (acqRegions s a).1 := by
  have hfold : ∀ (l : List Bind) (x : State × List (Nat × Nat)), looked s x.1 → looked s (l.foldl regionStep x).1 := by
    intro l
    induction l with
    | nil => exact fun x h => h
    | cons b l ih => exact fun x h => ih _ (looked_regionStep h b)
  exact hfold (boundTo s a) (s, []) (looked_refl s)

/-- What a drop leaves in the data cache: no line of that number, and no other numbers than before. -/
theorem mem_dropLine {s : State} {n : Nat} {y : CLn} (h : y ∈ (dropLine s n).vc.dcache) :
    y.line ≠ n ∧ ∃ z ∈ s.vc.dcache, z.line = y.line := by
  have hdc : (dropLine s n).vc.dcache = (writeBack s n).vc.dcache.filter (fun l => l.line != n) := rfl
  rw [hdc, writeBack_dcache, List.mem_filter, List.mem_map] at h
  obtain ⟨⟨z, hz, hzy⟩, hne⟩ := h
  refine ⟨bne_iff_ne.mp hne, z, hz, ?_⟩
  rw [← hzy, cleaned_line]

theorem mem_dropLines (l : List CLn) (s : State) {y : CLn} (h : y ∈ (l.foldl (fun t x => dropLine t x.line) s).vc.dcache) :
    (∀ x ∈ l, y.line ≠ x.line) ∧ ∃ z ∈ s.vc.dcache, z.line = y.line := by
  induction l generalizing s with
  | nil => exact ⟨fun x hx => absurd hx (List.not_mem_nil), y, h, rfl⟩
  | cons x l ih =>
    obtain ⟨hrest, z, hz, hzy⟩ := ih _ h
    obtain ⟨hne, w, hw, hwz⟩ := mem_dropLine hz
    refine ⟨fun k hk => ?_, w, hw, hwz.trans hzy⟩
    obtain rfl | hk := List.mem_cons.mp hk
    · rw [← hzy]
      exact hne
    · exact hrest k hk

theorem accessed_dropLines (l : List CLn) (s : State) : accessed s (l.foldl (fun t x => dropLine t x.line) s) := by
  induction l generalizing s with
  | nil => exact accessed_refl s
  | cons x l ih => exact accessed_trans (accessed_dropLine s x.line) (ih _)

/-- An acquire leaves no line that meets a region bound to its sync object (R267). -/
theorem acqDiscard_spec (s : State) (a : Nat) : accessed s (acqDiscard s a) ∧
    ∀ l ∈ s.vc.dcache, (∃ r ∈ (acqRegions s a).2, r.1 ≤ l.line ∧ l.line < r.2) → ∀ y ∈ (acqDiscard s a).vc.dcache, y.line ≠ l.line := by
  obtain ⟨hacc, hdc⟩ := looked_acqRegions s a
  refine ⟨accessed_trans hacc (accessed_dropLines _ _), fun l hl ⟨r, hr, hlow, hhigh⟩ y hy => ?_⟩
  refine (mem_dropLines _ _ hy).1 l (List.mem_filter.mpr ⟨hdc.symm ▸ hl, List.any_eq_true.mpr ⟨r, hr, ?_⟩⟩)
  rw [decide_eq_true hlow, decide_eq_true hhigh]
  rfl

/-! ### The two words -/

section
variable {s u : State} {a : BitVec 6} {pa : Nat} {e : TlbE} (hr : (xr s a).toNat < 2 ^ 56) (hal : (xr s a).toNat % 8 = 0)
  (hm : inMap (xr s a).toNat = false) (ht : translate s (xr s a).toNat .read = .ok u (pa, e)) (hv : e.vb = false)
include hr hal hm ht hv

theorem syncCheck_page : syncCheck s (xr s a) = .ok u (pa, e) := by
  unfold syncCheck
  rw [addrCheck_ok hr hal]
  dsimp only
  rw [if_neg (by rw [hm]; exact Bool.false_ne_true), ht]
  dsimp only
  rw [hv]
  exact if_neg Bool.false_ne_true

theorem acqOp_page : acqOp s a =
    if granuleBusy s pa then .next u
    else if poisoned u pa then ctlFault u 0x28 8 0
    else if !matchedNow s then .next (awaitMatch u)
    else sysNext (acqDiscard (homeRead u pa 8).1 (xr s a).toNat) := by
  unfold acqOp
  dsimp only
  rw [syncCheck_page hr hal hm ht hv]
  dsimp only [memThen]
  rw [granuleBusy_translate ht, matchedNow_translate ht]

theorem relOp_page : relOp s a =
    if !matchedNow s then .next (awaitMatch u)
    else if ctlPending s || relCopies s (xr s a).toNat then .next (flushFifo u)
    else sysNext (flushFifo u) := by
  have hmask : memMask (flushFifo u) = memMask s := (memMask_flushFifo u).trans (memMask_translate ht)
  have hpend : ctlPending (flushFifo u) = ctlPending s := by
    show ctlPending (memMask (flushFifo u)) = ctlPending (memMask s)
    rw [hmask]
  have hcopies : relCopies (flushFifo u) (xr s a).toNat = relCopies s (xr s a).toNat := by
    show relCopies (memMask (flushFifo u)) _ = relCopies (memMask s) _
    rw [hmask]
  unfold relOp
  dsimp only
  rw [syncCheck_page hr hal hm ht hv]
  dsimp only [memThen]
  rw [matchedNow_translate ht, hpend, hcopies]

end

/-- Settles O17: the acquires are one operation and the releases another, on the state that the translation leaves. -/
theorem acquireRelease : Obligations.AcquireRelease := by
  intro s a pa va acqs rels hr hal hm ⟨u, e, ht, hv⟩
  have hacq : ∀ i ∈ acqs, exec i s = acqOp s a := by
    intro i hi
    simp only [acqs, List.mem_cons, List.not_mem_nil, or_false] at hi
    obtain rfl | rfl | rfl | rfl | rfl := hi <;> rfl
  have hrel : ∀ i ∈ rels, exec i s = relOp s a := by
    intro i hi
    simp only [rels, List.mem_cons, List.not_mem_nil, or_false] at hi
    obtain rfl | rfl | rfl | rfl := hi <;> rfl
  have hacqOp := acqOp_page hr hal hm ht hv
  have hrelOp := relOp_page hr hal hm ht hv
  have hflush := accessed_trans (accessed_translate ht) (accessed_flushFifo u)
  refine ⟨fun hfree hp hmatch i hi => ?_, fun hbusy i hi => ?_, fun hfree hp hmatch i hi => ?_,
    fun hpend hcopies hmatch i hi => ?_, fun hwait hmatch i hi => ?_⟩
  · have hhome := accessed_trans (accessed_translate ht) (accessed_homeRead u pa 8)
    obtain ⟨hdiscard, hgone⟩ := acqDiscard_spec (homeRead u pa 8).1 va.toNat
    obtain ⟨t, hnext, hx, hstep, hback, hdc, -⟩ := sysNext_accessed (accessed_trans hhome hdiscard)
    refine ⟨t, ?_, hx, hstep, hback, fun w x hw l hl hregion y hy => ?_⟩
    · rw [hacq i hi, hacqOp, if_neg (by rw [hfree]; exact Bool.false_ne_true),
        if_neg (by rw [not_poisoned_translate ht hp]; exact Bool.false_ne_true), if_neg (by rw [hmatch]; exact Bool.false_ne_true)]
      exact hnext
    · obtain rfl : u = w := by
        rw [ht] at hw
        exact (MemR.ok.inj hw).1
      rw [hdc] at hy
      refine hgone l ?_ hregion y hy
      rw [homeRead_vc, dcache_translate ht]
      exact hl
  · refine ⟨u, ?_, ctl_translate ht, keepsBytes_translate ht⟩
    rw [hacq i hi, hacqOp, if_pos hbusy]
  · refine ⟨awaitMatch u, ?_, awaitMatch_ctl_of_memMask (memMask_translate ht), keepsBytes_awaitMatch (keepsBytes_translate ht)⟩
    rcases List.mem_append.mp hi with hi | hi
    · rw [hacq i hi, hacqOp, if_neg (by rw [hfree]; exact Bool.false_ne_true),
        if_neg (by rw [not_poisoned_translate ht hp]; exact Bool.false_ne_true), if_pos (by rw [hmatch]; rfl)]
    · rw [hrel i hi, hrelOp, if_pos (by rw [hmatch]; rfl)]
  · obtain ⟨t, hnext, hx, hstep, hback, -, hfifo⟩ := sysNext_accessed hflush
    refine ⟨t, ?_, hx, hstep, hback, hfifo.trans (flushFifo_fifo u)⟩
    rw [hrel i hi, hrelOp, if_neg (by rw [hmatch]; exact Bool.false_ne_true),
      if_neg (by rw [hpend, hcopies]; exact Bool.false_ne_true)]
    exact hnext
  · refine ⟨flushFifo u, ?_, ctl_accessed hflush, onlyWritesBack_accessed hflush, flushFifo_fifo u⟩
    rw [hrel i hi, hrelOp, if_neg (by rw [hmatch]; exact Bool.false_ne_true), if_pos (Bool.or_eq_true_iff.mpr hwait)]

end Sys2Proof.Machine
end

section
/-! The words of collectives and of windows that do not start a collective, and the release at launch scope (R266, R325, R327 to
R329). -/

set_option Elab.async false

namespace Sys2Proof.Machine

open Sys2Proof.Laws

/-! ### Collectives and mailboxes (R325, R327) -/

section
variable {s : State} {d a : BitVec 6} (hh : s.vc.ctl.h = false)
include hh

theorem collWait_badGroup (hg : 256 / s.m ≤ (xr s a).toNat) : execCollWait d a s = ctlFault s 0x25 1 0 := by
  unfold execCollWait
  rw [restricted_outside hh]
  exact if_pos hg

theorem collWait_waits (hg : (xr s a).toNat < 256 / s.m) (h : ∃ c ∈ s.vc.colls, c.group = (xr s a).toNat ∧ c.failed = false) :
    execCollWait d a s = .next s := by
  obtain ⟨c, hc, hgroup, hfailed⟩ := h
  have hany : s.vc.colls.any (fun c => c.group == (xr s a).toNat && !c.failed) = true :=
    List.any_eq_true.mpr ⟨c, hc, by rw [hgroup, hfailed, beq_self_eq_true]; rfl⟩
  unfold execCollWait
  dsimp only
  rw [restricted_outside hh, if_neg (show ¬groupCount s ≤ (xr s a).toNat from Nat.not_le.mpr hg), if_pos hany]

theorem collWait_reads (hg : (xr s a).toNat < 256 / s.m) (h : ∀ c ∈ s.vc.colls, c.group = (xr s a).toNat → c.failed = true) :
    ∃ t, execCollWait d a s = .next t ∧ writesX s t d (w64 (mget 0 s.vc.latestColl (xr s a).toNat)) ∧ ctlStep s t .coll 4 ∧
      keepsBytes s t := by
  have hany : ¬s.vc.colls.any (fun c => c.group == (xr s a).toNat && !c.failed) = true := by
    rw [List.any_eq_true]
    rintro ⟨c, hc, hcond⟩
    obtain ⟨hgroup, hfailed⟩ := Bool.and_eq_true_iff.mp hcond
    rw [h c hc (beq_iff_eq.mp hgroup)] at hfailed
    cases hfailed
  obtain ⟨hx, hstep, hbytes⟩ := setX_step s .coll d (w64 (mget 0 s.vc.latestColl (xr s a).toNat)) 4
  refine ⟨_, ?_, hx, hstep, hbytes⟩
  unfold execCollWait
  dsimp only
  rw [restricted_outside hh, if_neg (show ¬groupCount s ≤ (xr s a).toNat from Nat.not_le.mpr hg), if_neg hany, retire_setX_charge]

theorem mbclr_clears (k : BitVec 3) : ∃ t, execMbclr k s = .next t ∧ keepsX s t ∧ keepsBytes s t ∧ mget 0 t.vc.ctl.m k.toNat = 0 ∧
    (∀ j, j ≠ k.toNat → mget 0 t.vc.ctl.m j = mget 0 s.vc.ctl.m j) ∧ t.vc.ctl.pc = s.vc.ctl.pc + 4 := by
  obtain ⟨l, hl⟩ := charge_eq s .coll 1
  unfold execMbclr
  rw [restricted_outside hh, hl]
  refine ⟨_, rfl, fun _ => rfl, ⟨fun _ => rfl, fun _ => rfl⟩, ?_, fun j hj => ?_, rfl⟩
  · exact (mget_mput ..).trans (if_pos rfl)
  · exact (mget_mput ..).trans (if_neg hj)

end

/-! ### Registration (R328) -/

theorem looked_plainPage (s : State) (va : Nat) : looked s (plainPage s va).1 := by
  have hlook := looked_lookup s va
  unfold plainPage
  split
  · exact looked_refl s
  · split
    all_goals
      next h =>
        rw [h] at hlook
        exact hlook

theorem looked_shadowPlain (s : State) (g : Nat) (d : List Word64) : looked s (shadowPlain s g d).1 := by
  unfold shadowPlain
  split
  · exact looked_trans (looked_plainPage ..) (looked_plainPage ..)
  · exact looked_refl s

/-- Fewer than 64 windows are registered, and none of them meets the new one (R328). -/
def fitsAmong (ws : List Window) (base size : Nat) : Prop :=
  ws.length < 64 ∧ ∀ x ∈ ws, x.base + x.size ≤ base ∨ base + size ≤ x.base

theorem fitsAmong_iff (ws : List Window) (base size : Nat) : fitsAmong ws base size ↔
    ¬(64 ≤ ws.length ∨ ws.any (fun x => decide (x.base < base + size) && decide (base < x.base + x.size)) = true) := by
  rw [not_or, Nat.not_le, List.any_eq_true, not_exists]
  refine and_congr_right fun _ => forall_congr' fun x => ?_
  rw [not_and]
  refine forall_congr' fun _ => ?_
  rw [Bool.and_eq_true, decide_eq_true_iff, decide_eq_true_iff]
  omega

/-- The state in which the window of record d has been registered. -/
def windowAdded (s x : State) (g : Nat) (d : List Word64) : State :=
  let t := charge x .coll
  retire { t with part.windows := t.part.windows ++ [winOf (launchTag s) g s.vc.id d],
                  part.closed := t.part.closed.filter (fun k => !winOwns t (winOf (launchTag s) g s.vc.id d) k) }

theorem windowAdded_keeps {s x : State} (hctl : x.vc.ctl = s.vc.ctl) (g : Nat) (d : List Word64) :
    keepsX s (windowAdded s x g d) ∧ (windowAdded s x g d).vc.ctl.pc = s.vc.ctl.pc + 4 ∧
      (windowAdded s x g d).part.windows = x.part.windows ++ [winOf (launchTag s) g s.vc.id d] ∧
      (windowAdded s x g d).part.mem = x.part.mem := by
  obtain ⟨l, hl⟩ := charge_eq x .coll 1
  unfold windowAdded
  rw [hl]
  refine ⟨fun r => ?_, ?_, rfl, rfl⟩
  · show (if r = 0 then 0 else mget 0 x.vc.ctl.x r.toNat) = _
    rw [hctl]
    rfl
  · show x.vc.ctl.pc + 4 = _
    rw [hctl]

section
variable {s u : State} {a b : BitVec 6} {d : List Word64} (hh : s.vc.ctl.h = false)
  (hlow : (xr s b).toNat < 2 ^ 56) (hal : (xr s b).toNat % 64 = 0) (hload : ctlLoadWords s (xr s b) 4 = .ok u d)
  (hg : (xr s a).toNat < 256 / s.m) (hvalid : groupValid s (xr s a).toNat = true)
  (hself : (groupMember s (xr s a).toNat (groupSelf s (xr s a).toNat)).1 = s.vc.id)
include hh hlow hal hload hg hvalid hself

/-- The registration of a window of a group of this virtual core: the checks that are left (R328). -/
theorem winReg_member :
    let y := touchMember u (xr s a).toNat (groupSelf s (xr s a).toNat)
    let w := winOf (launchTag s) (xr s a).toNat s.vc.id d
    let r := if winRecOk d (groupSize y (xr s a).toNat) then shadowPlain y (xr s a).toNat d else (y, false)
    execWinReg a b s =
      if r.2 = false then ctlFault r.1 0x25 3 0
      else if 64 ≤ (liveWindows r.1).length
          ∨ (liveWindows r.1).any (fun x => decide (x.base < w.base + w.size) && decide (w.base < x.base + x.size)) then
        ctlFault r.1 0x25 6 0
      else .next (windowAdded s r.1 (xr s a).toNat d) := by
  have hgroup : ¬(groupCount s ≤ (xr s a).toNat ∨ groupValid s (xr s a).toNat = false) :=
    fun h => h.elim (fun h => Nat.not_lt.mpr h hg) (fun h => Bool.false_ne_true (h.symm.trans hvalid))
  intro y w r
  unfold execWinReg groupChecks
  rw [restricted_outside hh, if_neg (fun h => Nat.not_lt.mpr ((fld_beyond _).mp h) hlow), if_neg (not_not.mpr hal), hload]
  dsimp only [memThen]
  rw [if_neg hgroup, if_neg (not_not.mpr hself)]
  rfl

end

/-! ### Flushes (R329) -/

/-- t is s but for the partition, of which memory and the windows are as they were. -/
def sentFrom (s t : State) : Prop := ∃ p, t = { s with part := p } ∧ p.mem = s.part.mem ∧ p.windows = s.part.windows

theorem sentFrom_refl (s : State) : sentFrom s s := ⟨s.part, rfl, rfl, rfl⟩

theorem sentFrom_trans {s t u : State} (h : sentFrom s t) (k : sentFrom t u) : sentFrom s u := by
  obtain ⟨p, rfl, hm, hw⟩ := h
  obtain ⟨q, rfl, km, kw⟩ := k
  exact ⟨q, rfl, km.trans hm, kw.trans hw⟩

theorem sentFrom_l2Access (s : State) (who : Option Nat) (moved line : Nat) (write : Bool) :
    sentFrom s (l2Access s who moved line write) := by
  obtain ⟨p, hp⟩ := l2Access_eq s who moved line write
  have hmem := l2Access_part_mem s who moved line write
  have hwin : (l2Access s who moved line write).part.windows = s.part.windows := by
    show (memMask (l2Access s who moved line write)).part.windows = (memMask s).part.windows
    rw [memMask_l2Access]
  rw [hp] at hmem hwin ⊢
  exact ⟨p, rfl, hmem, hwin⟩

theorem sentFrom_sendFor (s : State) (owner : Option LaunchTag) (who : Option Nat) (h : Head) (d : List Byte) :
    sentFrom s (sendFor s owner who h d) := by
  unfold sendFor chargeFor
  dsimp only
  split
  · exact ⟨_, rfl, rfl, rfl⟩
  · exact ⟨_, rfl, rfl, rfl⟩

theorem sentFrom_foldl {α : Type} {f : State → α → State} (hf : ∀ t x, sentFrom t (f t x)) (l : List α) (s : State) :
    sentFrom s (l.foldl f s) := by
  induction l generalizing s with
  | nil => exact sentFrom_refl s
  | cons x l ih => exact sentFrom_trans (hf s x) (ih _)

theorem sentFrom_sendFlush (s : State) (w : Window) (x : Nat × Bool × SMap Nat) : sentFrom s (sendFlush s w x) :=
  sentFrom_trans (sentFrom_trans (sentFrom_l2Access ..) (sentFrom_l2Access ..))
    (sentFrom_foldl (fun _ _ => sentFrom_sendFor ..) _ _)

/-- A window whose accumulators have been sent (R329). -/
def flushedWindow (w : Window) : Window :=
  { w with acc := [], ov := false, flush := w.flush + 1, sent := w.sent + 1, held := w.held ++ [(w.flush, w.ov, w.acc)] }

theorem flushWindow_eq (s : State) (w : Window) : ∃ p, flushWindow s w = { s with part := p } ∧ p.mem = s.part.mem ∧
    p.windows = s.part.windows.map (fun x => if x = w then flushedWindow w else x) := by
  obtain ⟨p, hp, hmem, hwin⟩ := sentFrom_sendFlush s w (w.flush, w.ov, w.acc)
  unfold flushWindow
  dsimp only
  rw [hp]
  exact ⟨_, rfl, hmem, by rw [← hwin]; rfl⟩

/-- Every window of a list is flushed: what stays of the state, and that no window of them holds contributions then. -/
theorem flushWindows_eq (l : List Window) (s : State) : ∃ p, l.foldl flushWindow s = { s with part := p } ∧ p.mem = s.part.mem := by
  induction l generalizing s with
  | nil => exact ⟨s.part, rfl, rfl⟩
  | cons w l ih =>
    obtain ⟨p, hp, hmem, -⟩ := flushWindow_eq s w
    obtain ⟨q, hq, hmem'⟩ := ih { s with part := p }
    exact ⟨q, by rw [List.foldl_cons, hp, hq], hmem'.trans hmem⟩

/-- The windows that a list of flushes leaves: those that meet c hold no contributions, if c's windows were in the list and a flush
leaves c as it is. -/
theorem flushWindows_acc (c : Window → Bool) (l : List Window) (s : State)
    (h : ∀ w ∈ s.part.windows, c w = true → w.acc = [] ∨ w ∈ l) :
    ∀ w ∈ (l.foldl flushWindow s).part.windows, c w = true → w.acc = [] := by
  induction l generalizing s with
  | nil => exact fun w hw hc => (h w hw hc).resolve_right List.not_mem_nil
  | cons y l ih =>
    obtain ⟨p, hp, -, hwin⟩ := flushWindow_eq s y
    refine ih (flushWindow s y) fun w hw hc => ?_
    rw [hp] at hw
    obtain ⟨x, hx, rfl⟩ := List.mem_map.mp (hwin ▸ hw)
    by_cases hxy : x = y
    · rw [if_pos hxy]
      exact Or.inl rfl
    · rw [if_neg hxy] at hc ⊢
      exact (h x hx hc).imp_right fun hm => (List.mem_cons.mp hm).resolve_left hxy

/-- A window of the list that has been flushed has a flush on its way. -/
theorem flushWindows_sent (c : Window → Bool) (hkeep : ∀ w, c (flushedWindow w) = c w) (l : List Window) (s : State)
    (h : ∃ w ∈ s.part.windows, c w = true ∧ w.sent ≠ 0) : ∃ w ∈ (l.foldl flushWindow s).part.windows, c w = true ∧ w.sent ≠ 0 := by
  induction l generalizing s with
  | nil => exact h
  | cons y l ih =>
    obtain ⟨w, hw, hc, hsent⟩ := h
    obtain ⟨p, hp, -, hwin⟩ := flushWindow_eq s y
    refine ih (flushWindow s y) ⟨if w = y then flushedWindow y else w, ?_, ?_⟩
    · rw [hp, hwin]
      exact List.mem_map.mpr ⟨w, hw, rfl⟩
    · split
      next hy => exact ⟨(hkeep y).trans (hy ▸ hc), Nat.succ_ne_zero _⟩
      next => exact ⟨hc, hsent⟩

theorem mine_flushedWindow (s : State) (w : Window) : (flushedWindow w).mine s = w.mine s := rfl

/-- The flush of every window of the virtual core: none of them holds contributions then, and one has a flush on its way. -/
theorem flushMine_spec (s : State) : ∃ p, (myWindows s).foldl flushWindow s = { s with part := p } ∧ p.mem = s.part.mem ∧
    (∀ w ∈ p.windows, w.mine s = true → w.dropped = false → w.acc = []) ∧
    ((∃ w ∈ s.part.windows, w.mine s = true ∧ w.dropped = false) → windowsOut { s with part := p } = true) := by
  obtain ⟨p, hp, hmem⟩ := flushWindows_eq (myWindows s) s
  refine ⟨p, hp, hmem, fun w hw hmine hlive => ?_, fun ⟨w, hw, hmine, hlive⟩ => ?_⟩
  · have hacc := flushWindows_acc (fun w => w.mine s && !w.dropped) (myWindows s) s fun x hx hc => by
      obtain ⟨hxm, hxl⟩ := Bool.and_eq_true_iff.mp hc
      exact Or.inr (List.mem_filter.mpr ⟨List.mem_filter.mpr ⟨hx, hxl⟩, hxm⟩)
    rw [hp] at hacc
    exact hacc w hw (by rw [hmine, hlive]; rfl)
  · have hin : w ∈ myWindows s := List.mem_filter.mpr ⟨List.mem_filter.mpr ⟨hw, by rw [hlive]; rfl⟩, hmine⟩
    have hsent : ∃ x ∈ p.windows, x.mine s = true ∧ x.sent ≠ 0 := by
      obtain ⟨y, l, hl⟩ := List.exists_cons_of_ne_nil (List.ne_nil_of_mem hin)
      have hy : y ∈ myWindows s := hl ▸ List.mem_cons_self
      obtain ⟨hylive, hymine⟩ := List.mem_filter.mp hy
      obtain ⟨q, hq, -, hwin⟩ := flushWindow_eq s y
      have hfirst : flushedWindow y ∈ (flushWindow s y).part.windows := by
        rw [hq, hwin]
        exact List.mem_map.mpr ⟨y, (List.mem_filter.mp hylive).1, if_pos rfl⟩
      have hout := flushWindows_sent (fun x => x.mine s) (fun _ => rfl) l (flushWindow s y)
        ⟨flushedWindow y, hfirst, hymine, Nat.succ_ne_zero _⟩
      rw [hl, List.foldl_cons] at hp
      rw [hp] at hout
      exact hout
    obtain ⟨x, hx, hxm, hxs⟩ := hsent
    refine List.any_eq_true.mpr ⟨x, hx, Bool.and_eq_true_iff.mpr ⟨hxm, bne_iff_ne.mpr hxs⟩⟩

/-! ### Removal (R328, R329) -/

/-- The registered window of this base is marked as dropped. -/
def markDropped (base : Nat) (x : Window) : Window := if x.dropped = false ∧ x.base = base then { x with dropped := true } else x

/-- The state in which it is. -/
def droppedWindow (s : State) (base : Nat) : State := { s with part.windows := s.part.windows.map (markDropped base) }

section
variable {s : State} {a : BitVec 6} (hh : s.vc.ctl.h = false)
include hh

theorem winDrop_none (h : ∀ w ∈ s.part.windows, w.dropped = true ∨ w.base ≠ (xr s a).toNat) :
    execWinDrop a s = ctlFault s 0x25 7 0 := by
  have hnone : (liveWindows s).find? (fun w => decide (w.base = (xr s a).toNat)) = none := by
    rw [List.find?_eq_none]
    intro w hw
    obtain ⟨hin, hlive⟩ := List.mem_filter.mp hw
    rw [decide_eq_true_iff]
    exact (h w hin).resolve_left fun hd => by rw [hd] at hlive; cases hlive
  unfold execWinDrop
  rw [restricted_outside hh, hnone]

variable {w : Window} (hin : w ∈ s.part.windows) (hlive : w.dropped = false) (hbase : w.base = (xr s a).toNat)
  (honly : ∀ y ∈ s.part.windows, y.dropped = false → y.base = (xr s a).toNat → y = w)
include hin hlive hbase honly

omit hh in
theorem find_window : (liveWindows s).find? (fun w => decide (w.base = (xr s a).toNat)) = some w := by
  have hmem : w ∈ liveWindows s := List.mem_filter.mpr ⟨hin, by rw [hlive]; rfl⟩
  cases hf : (liveWindows s).find? (fun w => decide (w.base = (xr s a).toNat)) with
  | none => exact absurd (decide_eq_true hbase) (List.find?_eq_none.mp hf w hmem)
  | some y =>
    obtain ⟨hy, hylive⟩ := List.mem_filter.mp (List.mem_of_find?_eq_some hf)
    have hybase := List.find?_some hf
    rw [honly y hy (by simpa using hylive) (of_decide_eq_true hybase)]

theorem winDrop_found : execWinDrop a s =
    if groupValid s w.group = false then ctlFault s 0x25 1 0
    else if (groupMember s w.group (groupSelf s w.group)).1 ≠ s.vc.id then
      ctlFault (touchMember s w.group (groupSelf s w.group)) 0x25 2 0
    else .next (retire (droppedWindow (flushWindow (charge s .coll) w) w.base)) := by
  unfold execWinDrop
  rw [restricted_outside hh, find_window hin hlive hbase honly]
  rfl

/-- The window is flushed and marked, and no other is touched (R329). -/
theorem winDrop_drops (hvalid : groupValid s w.group = true) (hself : (groupMember s w.group (groupSelf s w.group)).1 = s.vc.id) :
    ∃ t, execWinDrop a s = .next t ∧ keepsX s t ∧ t.part.mem = s.part.mem ∧ t.vc.ctl.pc = s.vc.ctl.pc + 4 ∧
      t.part.windows = s.part.windows.map (fun y => if y = w then { flushedWindow w with dropped := true } else y) := by
  obtain ⟨l, hl⟩ := charge_eq s .coll 1
  obtain ⟨p, hp, hmem, hwin⟩ := flushWindow_eq { s with part.charges := l } w
  have hexec := winDrop_found hh hin hlive hbase honly
  rw [if_neg (by rw [hvalid]; exact Bool.noConfusion), if_neg (not_not.mpr hself), hl, hp] at hexec
  refine ⟨_, hexec, fun _ => rfl, hmem, rfl, ?_⟩
  show p.windows.map (markDropped w.base) = _
  rw [hwin, List.map_map]
  refine List.map_congr_left fun y hy => ?_
  show markDropped w.base (if y = w then flushedWindow w else y) = _
  by_cases hyw : y = w
  · rw [if_pos hyw, if_pos hyw]
    exact if_pos ⟨hlive, rfl⟩
  · rw [if_neg hyw, if_neg hyw]
    exact if_neg fun hc => hyw (honly y hy hc.1 (hc.2.trans hbase))

end

/-! ### The release at launch scope (R266) -/

theorem windowsOut_accessed {s t : State} (h : accessed s t) : windowsOut t = windowsOut s := by
  show windowsOut (memMask t) = windowsOut (memMask s)
  rw [h.1]

section
variable {s u : State} {a : BitVec 6} {pa : Nat} {e : TlbE} (hr : (xr s a).toNat < 2 ^ 56) (hal : (xr s a).toNat % 8 = 0)
  (hm : inMap (xr s a).toNat = false) (ht : translate s (xr s a).toNat .read = .ok u (pa, e)) (hv : e.vb = false)
include hr hal hm ht hv

/-- The release starts as the other releases do (R266). -/
theorem relLaunch_starts (hnone : s.vc.ctl.fenceSeq = none) : execRelLaunch a s =
    if !matchedNow s then .next (awaitMatch u)
    else if ctlPending s || relCopies s (xr s a).toNat then .next (flushFifo u)
    else
      let t := (myWindows (flushFifo u)).foldl flushWindow (flushFifo u)
      if windowsOut t then .next { t with vc.ctl.fenceSeq := some (0, []) } else sysNext t := by
  have hacc := accessed_trans (accessed_translate ht) (accessed_flushFifo u)
  have hpend : ctlPending (flushFifo u) = ctlPending s := by
    show ctlPending (memMask (flushFifo u)) = ctlPending (memMask s)
    rw [hacc.1]
  have hcopies : relCopies (flushFifo u) (xr s a).toNat = relCopies s (xr s a).toNat := by
    show relCopies (memMask (flushFifo u)) _ = relCopies (memMask s) _
    rw [hacc.1]
  unfold execRelLaunch
  dsimp only
  rw [syncCheck_page hr hal hm ht hv]
  dsimp only [memThen]
  rw [hnone]
  dsimp only
  rw [matchedNow_translate ht, hpend, hcopies]

theorem relLaunch_waits (hsome : s.vc.ctl.fenceSeq ≠ none) :
    execRelLaunch a s = if windowsOut s then .next u else sysNext { u with vc.ctl.fenceSeq := none } := by
  obtain ⟨f, hf⟩ := Option.ne_none_iff_exists'.mp hsome
  unfold execRelLaunch
  dsimp only
  rw [syncCheck_page hr hal hm ht hv]
  dsimp only [memThen]
  rw [hf]
  dsimp only
  rw [windowsOut_accessed (accessed_translate ht)]

end

theorem windows_accessed {s t : State} (h : accessed s t) : t.part.windows = s.part.windows := by
  show (memMask t).part.windows = (memMask s).part.windows
  rw [h.1]

theorem mine_accessed {s t : State} (h : accessed s t) (w : Window) : w.mine t = w.mine s := by
  show w.mine (memMask t) = w.mine (memMask s)
  rw [h.1]

theorem flushed_none {s : State} (h : ∀ w ∈ s.part.windows, w.mine s = false) :
    (myWindows s).foldl flushWindow s = s ∧ windowsOut s = false := by
  have hnone : myWindows s = [] := List.filter_eq_nil_iff.mpr fun w hw => by
    rw [h w (List.mem_filter.mp hw).1]
    exact Bool.false_ne_true
  refine ⟨by rw [hnone]; rfl, List.any_eq_false.mpr fun w hw => ?_⟩
  rw [h w hw]
  exact Bool.false_ne_true

/-- What O38 says of the registration of a window. -/
theorem winReg_registers {s u : State} {a b : BitVec 6} {d : List Word64} (hh : s.vc.ctl.h = false) (hlow : (xr s b).toNat < 2 ^ 56)
    (hal : (xr s b).toNat % 64 = 0) (hg : (xr s a).toNat < 256 / s.m) (hvalid : groupValid s (xr s a).toNat = true)
    (hself : (groupMember s (xr s a).toNat (groupSelf s (xr s a).toNat)).1 = s.vc.id) (hload : ctlLoadWords s (xr s b) 4 = .ok u d) :
    let g := (xr s a).toNat
    let base := (listAt 0 d 0).toNat % 2 ^ 56
    let size := (listAt 0 d 1).toNat % 2 ^ 13
    let y := touchMember u g (groupSelf s g)
    (winRecOk d (groupSize u g) = false → execWinReg a b s = ctlFault y 0x25 3 0) ∧
    (winRecOk d (groupSize u g) = true → ∀ x,
      (shadowPlain y g d = (x, false) → execWinReg a b s = ctlFault x 0x25 3 0) ∧
      (shadowPlain y g d = (x, true) → ¬fitsAmong (liveWindows x) base size → execWinReg a b s = ctlFault x 0x25 6 0) ∧
      (shadowPlain y g d = (x, true) → fitsAmong (liveWindows x) base size →
        execWinReg a b s = .next (windowAdded s x g d) ∧ x.vc.ctl = s.vc.ctl)) := by
  intro g base size y
  have hmember := winReg_member hh hlow hal hload hg hvalid hself
  have hmasky : memMask y = memMask u := memMask_touchMember ..
  have hsize : groupSize y g = groupSize u g := by
    show groupSize (memMask y) g = groupSize (memMask u) g
    rw [hmasky]
  have hbase : (winOf (launchTag s) g s.vc.id d).base = base := by
    simp only [Window.base, winOf, fld, bits, pow_zero, Nat.div_one, base]
  have hsz : (winOf (launchTag s) g s.vc.id d).size = size := by
    simp only [Window.size, winOf, fld, bits, pow_zero, Nat.div_one, size]
  refine ⟨fun hbad => ?_, fun hok x => ⟨fun hshadow => ?_, fun hshadow hfit => ?_, fun hshadow hfit => ⟨?_, ?_⟩⟩⟩
  · rw [hmember, hsize, hbad]
    rfl
  · rw [hmember, hsize, if_pos hok, hshadow]
    rfl
  · rw [hmember, hsize, if_pos hok, hshadow, hbase, hsz]
    exact (if_neg Bool.noConfusion).trans (if_pos (not_not.mp fun h => hfit ((fitsAmong_iff ..).mpr h)))
  · rw [hmember, hsize, if_pos hok, hshadow, hbase, hsz]
    exact (if_neg Bool.noConfusion).trans (if_neg ((fitsAmong_iff ..).mp hfit))
  · have hlooked := looked_shadowPlain y g d
    rw [hshadow] at hlooked
    have hy : y.vc.ctl = u.vc.ctl := by
      show (memMask y).vc.ctl = (memMask u).vc.ctl
      rw [hmasky]
    exact (ctl_accessed hlooked.1).trans (hy.trans (ctlLoadWords_ctl hload))

/-- Settles O38: each word by its lemma; the release at launch scope on the state that its translation and the write-back leave. -/
theorem collectiveAndWindowWords : Obligations.CollectiveAndWindowWords := by
  refine ⟨fun s d a k hh => ⟨fun hg => collWait_badGroup hh hg, fun hg h => collWait_waits hh hg h, fun hg h => collWait_reads hh hg h,
    mbclr_clears hh k⟩, fun s u a b d hh => ⟨?_, fun h => winDrop_none hh h, fun w hin hlive hbase honly => ⟨fun hbad => ?_,
    fun hvalid hother => ?_, fun hvalid hself => winDrop_drops hh hin hlive hbase honly hvalid hself⟩,
    fun pa hr hal hm ⟨t, e, ht, hv⟩ => ⟨fun hnone => ⟨fun hmatch => ?_, fun hmatch hwait => ?_, fun hmatch hpend hcopies =>
      ⟨fun hmine => ?_, fun hsome => ?_⟩⟩, fun hsome => ⟨fun hout => ?_, fun hout => ?_⟩⟩⟩⟩
  · intro g base size fits added hlow hal hg hvalid hself
    refine ⟨fun hrec hlen hok hfit hhome => ?_, fun hload => ?_⟩
    · obtain ⟨t, hload, hmask, hver, hsettles⟩ := ctlLoadWords_record hrec (by omega)
      rw [hlen] at hload
      have hacc : accessed s t := ⟨hmask, hver, hsettles⟩
      generalize hy : touchMember t g (groupSelf s g) = y
      have hmasky : memMask y = memMask s := by rw [← hy, memMask_touchMember, hmask]
      have hkeep : ∀ {α : Type} (f : State → α), f (memMask y) = f (memMask s) := fun f => congrArg f hmasky
      have hmem : y.part.mem = t.part.mem := by
        rw [← hy]
        exact l2Access_part_mem ..
      have hself' : groupSelf y g = groupSelf s g := hkeep (groupSelf · g)
      have hsize : groupSize t g = groupSize s g := by
        show groupSize (memMask t) g = groupSize (memMask s) g
        rw [hmask]
      have hlive : liveWindows y = liveWindows s := hkeep liveWindows
      have hwin : y.part.windows = s.part.windows := hkeep (·.part.windows)
      have hshadow : shadowPlain y g d = (y, true) := by
        refine if_neg ?_
        rw [hself']
        exact fun hc => hhome.elim (fun h => h hc.1) (fun h => hc.2 h)
      obtain ⟨-, hreg⟩ := winReg_registers hh hlow hal hg hvalid hself hload
      obtain ⟨-, -, hadds⟩ := hreg (by rw [hsize]; exact hok) y
      obtain ⟨hnext, hctl⟩ := hadds (by rw [hy]; exact hshadow) (hlive ▸ hfit)
      obtain ⟨hx, hpc, hwins, hmem'⟩ := windowAdded_keeps hctl g d
      exact ⟨_, hnext, ⟨hx, hpc, _, hwin ▸ hwins, rfl, rfl, rfl, rfl, rfl, rfl, rfl, rfl⟩,
        onlyWritesBack_of_mem hacc (hmem'.trans hmem)⟩
    · obtain ⟨hbad, hreg⟩ := winReg_registers hh hlow hal hg hvalid hself hload
      refine ⟨hbad, fun hok => ⟨fun x hx => (hreg hok x).1 hx, fun x hx hfit => (hreg hok x).2.1 hx hfit, fun x hx hfit => ?_⟩⟩
      obtain ⟨hnext, hctl⟩ := (hreg hok x).2.2 hx hfit
      obtain ⟨hkeep, hpc, hwins, hmem⟩ := windowAdded_keeps hctl g d
      exact ⟨_, hnext, ⟨hkeep, hpc, _, hwins, rfl, rfl, rfl, rfl, rfl, rfl, rfl, rfl⟩, hmem⟩
  · exact (winDrop_found hh hin hlive hbase honly).trans (if_pos hbad)
  · exact (winDrop_found hh hin hlive hbase honly).trans ((if_neg (by rw [hvalid]; exact Bool.noConfusion)).trans (if_pos hother))
  · refine ⟨awaitMatch t, (relLaunch_starts hr hal hm ht hv hnone).trans (if_pos (by rw [hmatch]; rfl)),
      awaitMatch_ctl_of_memMask (memMask_translate ht), keepsBytes_awaitMatch (keepsBytes_translate ht)⟩
  · have hacc := accessed_trans (accessed_translate ht) (accessed_flushFifo t)
    refine ⟨flushFifo t, (relLaunch_starts hr hal hm ht hv hnone).trans ((if_neg (by rw [hmatch]; exact Bool.false_ne_true)).trans
      (if_pos (Bool.or_eq_true_iff.mpr hwait))), ctl_accessed hacc, onlyWritesBack_accessed hacc, flushFifo_fifo t⟩
  · have hacc := accessed_trans (accessed_translate ht) (accessed_flushFifo t)
    obtain ⟨hfold, hout⟩ := flushed_none (s := flushFifo t) fun w hw => by
      rw [mine_accessed hacc]
      exact hmine w (windows_accessed hacc ▸ hw)
    obtain ⟨v, hnext, hx, hstep, hback, -, hfifo⟩ := sysNext_accessed hacc
    refine ⟨v, ?_, hx, hstep, hback, hfifo.trans (flushFifo_fifo t)⟩
    refine (relLaunch_starts hr hal hm ht hv hnone).trans ((if_neg (by rw [hmatch]; exact Bool.false_ne_true)).trans
      ((if_neg (by rw [hpend, hcopies]; exact Bool.false_ne_true)).trans ?_))
    dsimp only
    rw [hfold, if_neg (by rw [hout]; exact Bool.false_ne_true)]
    exact hnext
  · have hacc := accessed_trans (accessed_translate ht) (accessed_flushFifo t)
    obtain ⟨p, hfold, hmem, hempty, hout⟩ := flushMine_spec (flushFifo t)
    have hwaits := hout (by
      obtain ⟨w, hw, hmine, hlive⟩ := hsome
      exact ⟨w, (windows_accessed hacc).symm ▸ hw, (mine_accessed hacc w).trans hmine, hlive⟩)
    refine ⟨{ flushFifo t with part := p, vc.ctl.fenceSeq := some (0, []) }, ?_, onlyWritesBack_of_mem hacc hmem, flushFifo_fifo t, ?_,
      nofun, fun w hw hmine hlive => hempty w hw ((mine_accessed hacc w).trans hmine) hlive⟩
    · refine (relLaunch_starts hr hal hm ht hv hnone).trans ((if_neg (by rw [hmatch]; exact Bool.false_ne_true)).trans
        ((if_neg (by rw [hpend, hcopies]; exact Bool.false_ne_true)).trans ?_))
      dsimp only
      rw [hfold, if_pos hwaits]
    · show { (flushFifo t).vc.ctl with fenceSeq := some (0, []) } = _
      rw [ctl_accessed hacc]
  · refine ⟨t, (relLaunch_waits hr hal hm ht hv hsome).trans (if_pos hout), ctl_translate ht, keepsBytes_translate ht⟩
  · have hctl := ctl_translate ht
    refine ⟨retire (charge { t with vc.ctl.fenceSeq := none } .sys), (relLaunch_waits hr hal hm ht hv hsome).trans
      (if_neg (by rw [hout]; exact Bool.false_ne_true)), keepsX_sysNext (by show t.vc.ctl.x = _; rw [hctl]), ?_, ?_⟩
    · have hchip : t.vc.chip = s.vc.chip := by
        show (memMask t).vc.chip = (memMask s).vc.chip
        rw [memMask_translate ht]
      have hmem : t.part.mem = s.part.mem := translate_part_mem ht
      exact keepsBytes_sysNext hmem hchip
    · rw [retire, retireTo, charge_vc]
      dsimp only
      rw [hctl]

end Sys2Proof.Machine
end

section
/-! The end of a launch in a partition whose virtual cores bear one number twice (R338). -/

set_option Elab.async false

namespace Sys2Proof.Machine

/-- A launch that has ended on three virtual cores: the one in focus, another that bears its number and holds a register, and a
third. -/
def twinCores : State :=
  { vc := { VC.init 1 with run := .halted },
    peers := [{ VC.init 1 with run := .halted, ctl := { (VC.init 1).ctl with x := [(1, 1)] } },
      { VC.init 2 with run := .halted }],
    launch := { Launch.init with live := true }, part := Part.init, others := [], dev := Dev.init, inbox := [], upsets := [],
    mover := .ctl, fresh := 0 }

/-- The virtual core in focus holds no register in the state that a step leaves. -/
def focusBlank : Out → Bool
  | .next t => t.vc.ctl.x.isEmpty
  | _ => false

/-- The end of that launch brings the second core that bears the number into focus, with its register. -/
theorem twinCores_focus : focusBlank (exec .launchCompletion twinCores) = false := by
  decide

/-- Every virtual core of it has ended and has nothing under way. -/
theorem twinCores_finished : ∀ v ∈ twinCores.vcs, v.finished twinCores = true ∧ v.atomics = [] ∧ v.fifo = [] := by
  have hall : twinCores.vcs.all (fun v => v.finished twinCores && v.atomics.isEmpty && v.fifo.isEmpty) = true := by decide
  intro v hv
  have hone := List.all_eq_true.mp hall v hv
  simp only [Bool.and_eq_true, List.isEmpty_iff] at hone
  exact ⟨hone.1.1, hone.1.2, hone.2⟩

/-- Refutes O54: the statement does not ask that no two virtual cores bear one number, and where two do, the end of a launch leaves
another of them in focus than before, whose registers are its own. -/
theorem not_launchEvents : ¬ Obligations.LaunchEvents := by
  unfold Obligations.LaunchEvents
  intro h
  obtain ⟨-, -, -, -, -, hend, -, -⟩ := h
  have hcb : fld (qword twinCores twinCores.launch.queue 1) 55 0 +
      16 * (twinCores.launch.slot % qslots twinCores twinCores.launch.queue) + 16 ≤ twinCores.cp := by decide
  obtain ⟨t, ht, -, -, -, -, -, hx, -⟩ := hend twinCores rfl
    (fun v hv => ⟨(twinCores_finished v hv).1, (twinCores_finished v hv).2.1, .inl (twinCores_finished v hv).2.2⟩) hcb
  have hfocus := twinCores_focus
  rw [ht] at hfocus
  have hblank : t.vc.ctl.x = [] := hx
  simp [focusBlank, hblank] at hfocus

end Sys2Proof.Machine
end

section
/-! The events of the fabric: fragments, buffers and links (R305 to R312, R409). -/

set_option Elab.async false

namespace Sys2Proof.Machine

open Sys2Proof.Laws

/-! ### Charges -/

theorem chargeFor_eq (s : State) (owner : Option LaunchTag) (who : Option Nat) (c : EClass) (n : Nat) :
    ∃ l, chargeFor s owner who c n = { s with part.charges := l } := by
  unfold chargeFor
  split
  · exact ⟨s.part.charges, rfl⟩
  · exact ⟨_, rfl⟩

/-! ### Fragments (R305, R309, R310) -/

theorem dispose_eq (s : State) (die : Nat) (d : Disposal) : ∃ l, dispose s die d = { s with
    dev.darnCounts := mput 0 s.dev.darnCounts (8 * die + d.code) (mget 0 s.dev.darnCounts (8 * die + d.code) + 1),
    part.charges := l } := chargeFor_eq ..

/-- A buffer that the partition does not have yet joins its buffers with the fragment. -/
theorem fillDarn_new {s : State} {b : Darn} (hnew : b ∉ s.part.darns) (h : Head) (f : Fragment) :
    ∃ l, fillDarn s b h f =
      { s with part.darns := s.part.darns ++ [b.add h (fragIdx f) f.payload], part.charges := l } := by
  have hno : s.part.darns.contains b = false := by simpa using hnew
  unfold fillDarn
  simp only [hno]
  split
  · exact chargeFor_eq ..
  · exact ⟨_, rfl⟩

/-- A sound fragment that nothing disposes of opens a buffer where its key has none. -/
theorem arrive_opens {s : State} {f : Fragment} (htc : (headOfFrag f).tc < 6) (hreset : s.part.reset = none)
    (hncon : (headOfFrag f).tc = 1 ∨ (headOfFrag f).tc = 5 → (headOfFrag f).ncon = groupSize s (localGroup s (headOfFrag f)))
    (hdl : dlPast (viewOf s (ownerOf s (headOfFrag f))) (headOfFrag f) = false)
    (hkeys : ∀ b ∈ s.part.darns, b.key ≠ keyOf (headOfFrag f) f.payload)
    (hopen : keyClosed (viewOf s (ownerOf s (headOfFrag f))) (headOfFrag f) f.payload = false)
    (hidx : fragIdx f < (headOfFrag f).k + (headOfFrag f).m)
    (hroom : (s.part.darns.filter (fun b => b.die == fragDie s (headOfFrag f))).length < darnShare s) :
    arrive s f = fillDarn s (newDarn s (headOfFrag f) f (fragDie s (headOfFrag f)) (ownerOf s (headOfFrag f))) (headOfFrag f) f := by
  have hstale : ¬ (6 ≤ (headOfFrag f).tc ∨ s.part.reset.isSome = true) := by simp [hreset, htc]
  have hpartial : ¬ (((headOfFrag f).tc = 1 ∨ (headOfFrag f).tc = 5) ∧
      (headOfFrag f).ncon ≠ groupSize s (localGroup s (headOfFrag f))) := fun hc => hc.2 (hncon hc.1)
  have hnone : s.part.darns.find? (fun b => b.key == keyOf (headOfFrag f) f.payload) = none :=
    List.find?_eq_none.mpr fun b hb => by simp [hkeys b hb]
  unfold arrive
  dsimp only
  rw [if_neg hstale, if_neg hpartial, hdl, if_neg Bool.false_ne_true, hnone]
  dsimp only
  rw [hopen, if_neg Bool.false_ne_true, if_neg (Nat.not_le.mpr hidx), if_neg (Nat.not_le.mpr hroom)]

theorem fragmentArrival_corrupt {s : State} {f : Fragment} (h : fragSound f = false) :
    ∃ t, exec (.fragmentArrival f) s = .next t ∧ t.part.darns = s.part.darns ∧
      mget 0 t.dev.darnCounts (8 * (f.port.toNat / 9) + 3) = mget 0 s.dev.darnCounts (8 * (f.port.toNat / 9) + 3) + 1 := by
  have hexec : exec (.fragmentArrival f) s = .next (dispose s (dieOfPort f.port.toNat) .corrupt) := by
    show execFragmentArrival f s = _
    rw [execFragmentArrival, h, if_neg Bool.false_ne_true]
  obtain ⟨l, hl⟩ := dispose_eq s (dieOfPort f.port.toNat) .corrupt
  rw [hl] at hexec
  exact ⟨_, hexec, rfl, mget_mput_same ..⟩

theorem fragmentArrival_opens {s : State} {f : Fragment} (hsound : fragSound f = true)
    (hpart : fragPart s (headOfFrag f) = s.part.idx) (htc : (headOfFrag f).tc < 6) (hreset : s.part.reset = none)
    (hncon : (headOfFrag f).tc = 1 ∨ (headOfFrag f).tc = 5 → (headOfFrag f).ncon = groupSize s (localGroup s (headOfFrag f)))
    (hdl : dlPast (viewOf s (ownerOf s (headOfFrag f))) (headOfFrag f) = false)
    (hkeys : ∀ b ∈ s.part.darns, b.key ≠ keyOf (headOfFrag f) f.payload)
    (hopen : keyClosed (viewOf s (ownerOf s (headOfFrag f))) (headOfFrag f) f.payload = false)
    (hidx : fragIdx f < (headOfFrag f).k + (headOfFrag f).m)
    (hroom : (s.part.darns.filter (fun b => b.die == fragDie s (headOfFrag f))).length < darnShare s) :
    ∃ t b, exec (.fragmentArrival f) s = .next t ∧ t.part.darns = s.part.darns ++ [b] ∧ b.key = keyOf (headOfFrag f) f.payload ∧
      b.frags = [(fragIdx f, f.payload)] ∧ b.ov = (headOfFrag f).ov ∧ b.state = fillState (headOfFrag f) 1 ∧
      b.die = fragDie s (headOfFrag f) ∧ b.owner = ownerOf s (headOfFrag f) := by
  have hnew : newDarn s (headOfFrag f) f (fragDie s (headOfFrag f)) (ownerOf s (headOfFrag f)) ∉ s.part.darns :=
    fun hmem => hkeys _ hmem rfl
  obtain ⟨l, hl⟩ := fillDarn_new hnew (headOfFrag f) f
  have harrive := (arrive_opens htc hreset hncon hdl hkeys hopen hidx hroom).trans hl
  have hexec : exec (.fragmentArrival f) s = .next (arrive s f) := by
    show execFragmentArrival f s = _
    rw [execFragmentArrival, hsound, if_pos rfl, hpart, inPart_self (by rw [harrive])]
  rw [harrive] at hexec
  refine ⟨_, _, hexec, rfl, ?_⟩
  unfold Darn.add
  dsimp only
  split <;> exact ⟨rfl, rfl, Bool.false_or _, rfl, rfl, rfl⟩

/-! ### Links (R409) -/

theorem linkDown_spec (s : State) {port : BitVec 6} (h : port.toNat < 36) :
    ∃ t, exec (.linkDown port) s = .next t ∧ mget false t.dev.ready (72 + port.toNat) = false ∧
      t.dev.links = s.dev.links.filter (fun p => p != port.toNat) ∧
      ∀ k, k ≠ 72 + port.toNat → mget false t.dev.ready k = mget false s.dev.ready k := by
  have hkey : 64 + (8 + port.toNat) = 72 + port.toNat := by omega
  refine ⟨_, if_neg (Nat.not_le.mpr h), ?_, rfl, fun k hk => ?_⟩
  · rw [← hkey]
    exact mget_mput_same ..
  · exact mget_mput_ne _ _ _ (hkey ▸ hk)

theorem linkUp_spec (s : State) {port : BitVec 6} (h : port.toNat < 36) :
    ∃ t, exec (.linkUp port) s = .next t ∧ mget false t.dev.ready (72 + port.toNat) = true ∧ port.toNat ∈ t.dev.links ∧
      ∀ k, k ≠ 72 + port.toNat → mget false t.dev.ready k = mget false s.dev.ready k := by
  have hkey : 64 + (8 + port.toNat) = 72 + port.toNat := by omega
  refine ⟨_, if_neg (Nat.not_le.mpr h), ?_, List.mem_cons_self, fun k hk => ?_⟩
  · rw [← hkey]
    exact mget_mput_same ..
  · exact mget_mput_ne _ _ _ (hkey ▸ hk)

/-! ### Buffers (R309, R311) -/

section
variable {s : State} {n : Nat} {b : Darn}

theorem darnDecode_ready (hb : s.part.darns[n]? = some b) (hst : b.state = .decoding) :
    ∃ t, exec (.darnDecode n) s = .next t ∧
      t.part.darns = s.part.darns.set n { b with state := .ready, data := darnMessage b } := by
  have hexec : exec (.darnDecode n) s =
      .next (chargeDarn { s with part.darns := s.part.darns.set n { b with state := .ready, data := darnMessage b } } b) := by
    show execDarnDecode n s = _
    unfold execDarnDecode
    simp only [hb, hst, ne_eq, not_true, if_false]
  obtain ⟨l, hl⟩ := chargeFor_eq { s with part.darns := s.part.darns.set n { b with state := .ready, data := darnMessage b } }
    b.owner b.vc .frag b.hd.k
  rw [chargeDarn, hl] at hexec
  exact ⟨_, hexec, rfl⟩

theorem messageDelivery_held (hb : s.part.darns[n]? = some b) (hst : b.state = .ready) (htc : b.hd.tc = 3 ∨ b.hd.tc = 4) :
    exec (.messageDelivery n) s = .next { freeDarn s b true with part.msgsIn := s.part.msgsIn ++ [(b.key, b.data)] } := by
  show execMessageDelivery n s = _
  unfold execMessageDelivery
  obtain htc | htc := htc <;> simp only [hb, hst, htc, ne_eq, not_true, if_false]

theorem messageDelivery_outcome (hb : s.part.darns[n]? = some b) (hst : b.state = .ready) (htc : b.hd.tc = 2)
    (hrep : isReport (leNat (b.data.take 8)) = false) :
    exec (.messageDelivery n) s = exec (.outcomeArrival (w64 (leNat (b.data.take 8)))) (freeDarn s b true) := by
  show execMessageDelivery n s = .next (outcomeAt _ _)
  unfold execMessageDelivery
  simp only [hb, hst, htc, ne_eq, not_true, if_false, commitPacket, hrep, Bool.false_eq_true]

/-- The virtual core in focus is brought into focus and back. -/
theorem inVC_self {s : State} {f : State → State} (h : (f s).vc.id = s.vc.id) : inVC s s.vc.id f = f s := by
  have hback : focusVC (f s) s.vc.id = some (f s) := if_pos h
  have hself : focusVC s s.vc.id = some s := if_pos rfl
  rw [inVC, hself]
  dsimp only
  rw [hback]

theorem memMask_touchMembers (s : State) (g k : Nat) : memMask (touchMembers s g k) = memMask s :=
  memMask_foldl _ (fun t line => memMask_l2Access t _ 1 line false) _ s

/-- Data for chunk k of member i enters the collective, in a state whose groups are those of `s`. -/
theorem dataDone_enters {s t : State} {j i : Nat} {c : Coll} {h : Head} {x : CChunk} (hmask : memMask t = memMask s)
    (hi : i = match memberOf s c.group h.src with
      | some i => i
      | none => 0)
    (hx : c.chunks[chunkPlace s c h]? = some x) (d : List Byte) :
    ∃ l, dataDone t j c i h.chunk d = setColl t j { setChunk c (chunkPlace s c h) { x with stage := 4 } with lands := c.lands ++ l } := by
  have hcount : chunkCount t c.op c.group c.desc = chunkCount s c.op c.group c.desc := by
    show chunkCount (memMask t) c.op c.group c.desc = chunkCount (memMask s) c.op c.group c.desc
    rw [hmask]
  have hplace : (if c.op = 2 then i * chunkCount t c.op c.group c.desc + h.chunk else h.chunk) = chunkPlace s c h := by
    rw [hcount, hi]
    rfl
  unfold dataDone
  dsimp only
  rw [hplace, hx]
  exact ⟨_, rfl⟩

theorem messageDelivery_data {i : Nat} {c : Coll} {x : CChunk} (hb : s.part.darns[n]? = some b) (hst : b.state = .ready)
    (htc : b.hd.tc = 0) (hvc : b.hd.dvc = s.vc.id) (howner : b.owner = launchTag s) (hcoll : collOf s b.hd = some (i, c))
    (hfailed : c.failed = false) (hx : c.chunks[chunkPlace s c b.hd]? = some x) (hwaits : chunkWaits s b.hd x = true) :
    ∃ t c2 l, exec (.messageDelivery n) s = .next t ∧
      t.part.darns = s.part.darns.map (fun y => if y = b then { b with state := .delivering } else y) ∧
      t.vc.colls = s.vc.colls.set i c2 ∧ c2.lands = c.lands ++ l ∧
      c2.chunks = listSet c.chunks (chunkPlace s c b.hd) { x with stage := 4 } := by
  let u := startDelivery s b false
  obtain ⟨w, hmask, hdeliver⟩ : ∃ w, memMask w = memMask u ∧ ∃ l, deliverColl s b =
      setColl w i { setChunk c (chunkPlace s c b.hd) { x with stage := 4 } with lands := c.lands ++ l } := by
    unfold deliverColl
    simp only [hcoll, hx, hwaits, hfailed, htc, Bool.not_false, Bool.and_self, if_true]
    have hagain : ((0 : Nat) == 1 && (if b.hd.field = 3 then passGoesOn c b else b.ov)) = false := rfl
    rw [hagain]
    by_cases hop : c.op = 2
    · rw [if_pos hop]
      exact ⟨_, memMask_touchMembers .., dataDone_enters (s := u) (memMask_touchMembers ..) rfl hx b.data⟩
    · rw [if_neg hop]
      exact ⟨_, rfl, dataDone_enters (s := u) rfl rfl hx b.data⟩
  obtain ⟨l, hdeliver⟩ := hdeliver
  have hid : w.vc.id = s.vc.id := by
    show (memMask w).vc.id = (memMask u).vc.id
    rw [hmask]
  have hexec : exec (.messageDelivery n) s = .next (deliverColl s b) := by
    show execMessageDelivery n s = _
    unfold execMessageDelivery
    simp only [hb, hst, htc, ne_eq, not_true, if_false]
    rw [if_pos howner, hvc, inVC_self (by rw [hdeliver]; exact hid)]
  rw [hdeliver] at hexec
  refine ⟨_, { setChunk c (chunkPlace s c b.hd) { x with stage := 4 } with lands := c.lands ++ l }, l, hexec, ?_, ?_, rfl, rfl⟩
  · show (memMask w).part.darns = (memMask u).part.darns
    rw [hmask]
  · show w.vc.colls.set i _ = _
    have hcolls : w.vc.colls = s.vc.colls := by
      show (memMask w).vc.colls = (memMask u).vc.colls
      rw [hmask]
    rw [hcolls]

/-! ### Losses (R311) -/

/-- A collective that fails is marked, and the faults and the partition stay. -/
theorem collFails_keeps (s : State) (i : Nat) (c : Coll) :
    (collFails s i c).part = s.part ∧ (collFails s i c).vc.id = s.vc.id ∧ (collFails s i c).vc.faults = s.vc.faults ∧
    (collFails s i c).vc.colls = s.vc.colls.set i { c with failed := true } := by
  unfold collFails collRecord postRecord
  split <;> exact ⟨rfl, rfl, rfl, rfl⟩

/-- The fault of a loss. -/
def lossRecord (beat name : Nat) (seq : Option Nat) : FaultRec :=
  { src := 7, cause := 0x27, detail := 0, tval := 0, beat := beat, name := name, seq := seq, tepc := none }

/-- Such a fault, recorded against the virtual core in focus, changes neither the partition nor the collectives. -/
theorem raiseLoss_keeps (u : State) (name : Nat) (seq : Option Nat) {t : State}
    (ht : t = raiseAt u u.vc.id (lossRecord u.vc.now name seq)) : t.part = u.part ∧ t.vc.id = u.vc.id ∧
    t.vc.faults = u.vc.faults ++ [lossRecord u.vc.now name seq] ∧ t.vc.colls = u.vc.colls := by
  have hpart : t.part = u.part := ht ▸ raiseAt_part (f := lossRecord u.vc.now name seq) (by decide : 0x27 ≠ 0x28) u u.vc.id
  have hfault : faultedFrom u t (lossRecord u.vc.now name seq) := ht ▸ raiseAt_self ..
  exact ⟨hpart, by rw [hfault], by rw [hfault], by rw [hfault]⟩

/-- What a loss against the virtual core in focus does before the collective fails. -/
def lossNoted (s : State) (name : Nat) (seq : Option Nat) : State :=
  flightFault { s with vc := s.vc.voteFlag 6 } (s.vc.voteFlag 6).id 0x27 0 0 name seq

theorem lossNoted_keeps (s : State) (name : Nat) (seq : Option Nat) :
    (lossNoted s name seq).part = s.part ∧ (lossNoted s name seq).vc.id = s.vc.id ∧
    (∃ b, (lossNoted s name seq).vc.faults = s.vc.faults ++ [lossRecord b name seq]) ∧
    (lossNoted s name seq).vc.colls = s.vc.colls := by
  obtain ⟨hpart, hid, hfaults, hcolls⟩ := raiseLoss_keeps { s with vc := s.vc.voteFlag 6 } name seq
    (t := lossNoted s name seq) rfl
  have hvote := voteFlag_keeps s.vc 6
  exact ⟨hpart, hid.trans (by rw [hvote]), ⟨_, hfaults.trans (by rw [hvote])⟩, hcolls.trans (by rw [hvote])⟩

theorem lossFault_none (s : State) : lossFault s none = lossNoted s 0 none := rfl

theorem lossFault_some (s : State) (i : Nat) (c : Coll) : lossFault s (some (i, c)) =
    if c.failed then lossNoted s c.name (some c.num) else collFails (lossNoted s c.name (some c.num)) i c := rfl

/-- A loss against the virtual core in focus is one fault more. -/
theorem lossFault_faults (s : State) (o : Option (Nat × Coll)) : (lossFault s o).part = s.part ∧ (lossFault s o).vc.id = s.vc.id ∧
    ∃ g, (lossFault s o).vc.faults = s.vc.faults ++ [g] ∧ g.cause = 0x27 ∧ g.src = 7 := by
  cases o with
  | none =>
    obtain ⟨hpart, hid, ⟨b, hfaults⟩, -⟩ := lossNoted_keeps s 0 none
    exact ⟨hpart, hid, _, hfaults, rfl, rfl⟩
  | some p =>
    obtain ⟨i, c⟩ := p
    obtain ⟨hpart, hid, ⟨b, hfaults⟩, -⟩ := lossNoted_keeps s c.name (some c.num)
    obtain ⟨kpart, kid, kfaults, -⟩ := collFails_keeps (lossNoted s c.name (some c.num)) i c
    rw [lossFault_some]
    split
    · exact ⟨hpart, hid, _, hfaults, rfl, rfl⟩
    · exact ⟨kpart.trans hpart, kid.trans hid, _, kfaults.trans hfaults, rfl, rfl⟩

theorem unrecoverableLoss_ofCore (hb : s.part.darns[n]? = some b) (hlost : darnFailed s b = true) (hvc : b.vc = some s.vc.id)
    (howner : b.owner = launchTag s) :
    ∃ t g, exec (.unrecoverableLoss n) s = .next t ∧ t.vc.faults = s.vc.faults ++ [g] ∧ g.cause = 0x27 ∧ g.src = 7 ∧
      t.part.darns = s.part.darns.filter (fun x => x.key != b.key) := by
  let o := if b.hd.tc < 2 then collOf (freeDarn s b true) b.hd else none
  obtain ⟨hpart, hid, g, hfaults, hcause, hsrc⟩ := lossFault_faults (freeDarn s b true) o
  have hexec : exec (.unrecoverableLoss n) s = .next (lossFault (freeDarn s b true) o) := by
    have hself : getVC (freeDarn s b true) s.vc.id = some s.vc := List.find?_cons_of_pos (beq_self_eq_true _)
    have hback : inVC (freeDarn s b true) s.vc.id (fun t => lossFault t (if b.hd.tc < 2 then collOf t b.hd else none)) =
      lossFault (freeDarn s b true) o := inVC_self (s := freeDarn s b true) hid
    show execUnrecoverableLoss n s = _
    unfold execUnrecoverableLoss
    simp only [hb, hlost, hvc, howner, ne_eq, not_true, and_false, or_self, Bool.true_eq_false, if_false, hself, hback,
      Option.isNone_some, Bool.false_eq_true]
  exact ⟨_, g, hexec, hfaults, hcause, hsrc, congrArg Part.darns hpart⟩

theorem unrecoverableLoss_ofDevice (hb : s.part.darns[n]? = some b) (hlost : darnFailed s b = true) (hvc : b.vc = none) :
    ∃ t, exec (.unrecoverableLoss n) s = .next t ∧ t.vc.faults = s.vc.faults ∧
      mget 0 t.part.counts 0x327 = Nat.min (2 ^ 64 - 1) (mget 0 s.part.counts 0x327 + 1) := by
  have hexec : exec (.unrecoverableLoss n) s = .next (orphanFault (freeDarn s b true) 0x27) := by
    show execUnrecoverableLoss n s = _
    unfold execUnrecoverableLoss
    simp only [hb, hlost, hvc, Bool.true_eq_false, Option.isSome_none, Bool.false_eq_true, false_and, or_self, if_false]
  exact ⟨_, hexec, rfl, mget_mput_same ..⟩

end

section
variable {s : State} {n : Nat} {c : Coll}

theorem unrecoverableLoss_ofColl (hc : s.vc.colls[n]? = some c) (hlost : collFailed s c = true) (hfailed : c.failed = false) :
    ∃ t g, exec (.unrecoverableLoss (s.part.darns.length + n)) s = .next t ∧ t.vc.faults = s.vc.faults ++ [g] ∧
      g.cause = 0x27 ∧ g.name = c.name ∧ t.vc.colls = s.vc.colls.set n { c with failed := true } := by
  have hexec : exec (.unrecoverableLoss (s.part.darns.length + n)) s = .next (lossFault s (some (n, c))) := by
    have hnone : s.part.darns[s.part.darns.length + n]? = none := List.getElem?_eq_none (Nat.le_add_right ..)
    show execUnrecoverableLoss (s.part.darns.length + n) s = _
    unfold execUnrecoverableLoss
    simp only [hnone, Nat.add_sub_cancel_left, hc, hlost, hfailed, Bool.not_false, Bool.and_self, if_true]
  obtain ⟨-, -, ⟨b, hfaults⟩, hcolls⟩ := lossNoted_keeps s c.name (some c.num)
  obtain ⟨-, -, kfaults, kcolls⟩ := collFails_keeps (lossNoted s c.name (some c.num)) n c
  rw [lossFault_some, hfailed, if_neg Bool.false_ne_true] at hexec
  exact ⟨_, _, hexec, kfaults.trans hfaults, rfl, rfl, by rw [kcolls, hcolls]⟩

end

end Sys2Proof.Machine
end

section
/-! The events of a collective: its source, its results and its mailbox (R153, R325). -/

set_option Elab.async false

namespace Sys2Proof.Machine

open Sys2Proof.Laws

/-! ### Banks that one access of 128 bytes takes (R153) -/

/-- The claims are those of bytes off to off + k − 1 of one access. -/
def runClaims (read : Bool) (owner off k : Nat) (cl : List Claim) : Prop :=
  ∀ c ∈ cl, c.read = read ∧ c.owner = owner ∧ ∃ a, off ≤ a ∧ a < off + k ∧ c.bank = bankOf a ∧ c.row = rowOf a

/-- Bytes less than 128 apart that share a bank share its row. -/
theorem row_of_bank {a b off : Nat} (ha : off ≤ a ∧ a < off + 128) (hb : off ≤ b ∧ b < off + 128) (h : bankOf a = bankOf b) :
    rowOf a = rowOf b := by
  unfold bankOf at h
  unfold rowOf
  omega

/-- The next byte of an access of at most 128 finds its bank free, or its own. -/
theorem claim_run {read : Bool} {owner off k : Nat} {cl : List Claim} (h : runClaims read owner off k cl) (hk : k < 128) :
    ∃ cl1, claim cl (off + k) read owner = some cl1 ∧ runClaims read owner off (k + 1) cl1 := by
  have hgrow : runClaims read owner off (k + 1) cl := fun c hc => by
    obtain ⟨hread, howner, a, hlo, hhi, hbank, hrow⟩ := h c hc
    exact ⟨hread, howner, a, hlo, Nat.lt_succ_of_lt hhi, hbank, hrow⟩
  unfold claim
  cases hfind : cl.find? (fun c => c.bank == bankOf (off + k)) with
  | none =>
    refine ⟨_, rfl, fun c hc => ?_⟩
    obtain rfl | hc := List.mem_cons.mp hc
    · exact ⟨rfl, rfl, off + k, Nat.le_add_right .., Nat.lt_succ_self _, rfl, rfl⟩
    · exact hgrow c hc
  | some c =>
    obtain ⟨hread, howner, a, hlo, hhi, hbank, hrow⟩ := h c (List.mem_of_find?_eq_some hfind)
    have hsame : c.bank = bankOf (off + k) := eq_of_beq (List.find?_some (p := fun c : Claim => c.bank == bankOf (off + k)) hfind)
    have hrows : c.row = rowOf (off + k) :=
      hrow.trans (row_of_bank ⟨hlo, by omega⟩ ⟨Nat.le_add_right .., by omega⟩ (hbank.symm.trans hsame))
    refine ⟨cl, ?_, hgrow⟩
    dsimp only
    rw [if_pos (.inr ⟨howner, hread, .inl hrows⟩)]

theorem runClaims_nil (read : Bool) (owner off : Nat) : runClaims read owner off 0 [] := fun _ hc => nomatch hc

/-- A read of at most 128 bytes of a scratchpad that nothing else is served from loses none. -/
theorem readAll_run (chip : SMap Byte) {off k n : Nat} (hn : k + n ≤ 128) {cl : List Claim}
    (h : runClaims true 0 off k cl) (buf : SMap Byte) :
    ∃ cl1 buf1, readAll chip 0 (countUp (off + k) n) cl buf = (cl1, buf1, []) := by
  induction n generalizing k cl buf with
  | zero => exact ⟨cl, buf, rfl⟩
  | succ n ih =>
    obtain ⟨cl1, hclaim, hrun⟩ := claim_run h (by omega)
    rw [countUp, readAll, hclaim]
    exact ih (by omega) hrun _

/-- A landing of at most 128 bytes where nothing else is served lands whole. -/
theorem writeAll_run {owner off k : Nat} {d : List Byte} (hd : k + d.length ≤ 128) {cl : List Claim}
    (h : runClaims false owner off k cl) (chip : SMap Byte) :
    ∃ cl1, writeAll owner (landing (off + k) d) cl chip = (cl1, mputs byteDefault chip (off + k) d, []) := by
  induction d generalizing k cl chip with
  | nil => exact ⟨cl, rfl⟩
  | cons v d ih =>
    have hlen : k + (d.length + 1) ≤ 128 := hd
    obtain ⟨cl1, hclaim, hrun⟩ := claim_run h (by omega)
    rw [landing_cons, writeAll, hclaim]
    simp only [mix_full]
    exact ih (k := k + 1) (by omega) hrun _

/-! ### What a collective sends (R318, R319) -/

/-- Of the virtual core in focus, what it sends changes at most the flags that are to enter; the rest is the partition's. -/
def sends (s t : State) : Prop := ∃ l p, t = { s with vc.ctl.flagsIn := l, part := p }

theorem sends_refl (s : State) : sends s s := ⟨s.vc.ctl.flagsIn, s.part, rfl⟩

theorem sends_trans {s t u : State} (h : sends s t) (k : sends t u) : sends s u := by
  obtain ⟨l, p, rfl⟩ := h
  obtain ⟨l', p', rfl⟩ := k
  exact ⟨l', p', rfl⟩

theorem sends_foldl {α : Type} {f : State → α → State} (hf : ∀ t x, sends t (f t x)) (l : List α) (s : State) :
    sends s (l.foldl f s) := by
  induction l generalizing s with
  | nil => exact sends_refl s
  | cons x r ih => exact sends_trans (hf s x) (ih _)

theorem sends_l2Access (s : State) (who : Option Nat) (moved line : Nat) (write : Bool) :
    sends s (l2Access s who moved line write) := by
  obtain ⟨p, hp⟩ := l2Access_eq s who moved line write
  exact ⟨s.vc.ctl.flagsIn, p, hp⟩

theorem sends_sendFor (s : State) (owner : Option LaunchTag) (who : Option Nat) (h : Head) (d : List Byte) :
    sends s (sendFor s owner who h d) := by
  unfold sendFor
  dsimp only
  obtain ⟨l, hl⟩ := chargeFor_eq { s with part.outbox := _ } owner who .frag _
  rw [hl]
  exact ⟨s.vc.ctl.flagsIn, _, rfl⟩

theorem sends_flagsAt {s t : State} (h : sends s t) (beat f : Nat) : sends s { t with vc := flagsAt t.vc beat f } := by
  unfold flagsAt
  split
  · exact h
  · obtain ⟨l, p, rfl⟩ := h
    exact ⟨_, _, rfl⟩

theorem sends_sendSum (s : State) (c : Coll) (k e dl : Nat) (after : Bool) : sends s (sendSum s c k e dl after) :=
  sends_flagsAt (sends_sendFor ..) ..

theorem sends_touchSelf (s : State) (c : Coll) : sends s (touchSelf s c) := by
  unfold touchSelf
  dsimp only
  split
  · exact sends_trans (sends_l2Access ..) (sends_l2Access ..)
  · exact sends_l2Access ..

theorem sends_sendAll (s : State) (c : Coll) : sends s (sendAll s c) := by
  unfold sendAll
  dsimp only
  split
  · exact sends_trans (sends_touchSelf s c) (sends_foldl (fun t k => sends_sendFor ..) _ _)
  · refine sends_trans (sends_touchSelf s c) (sends_foldl (fun t x => ?_) _ _)
    split
    · split
      · exact sends_sendFor ..
      · exact sends_flagsAt (sends_sendFor ..) ..
    · exact sends_sendSum ..

/-! ### The source (R325) -/

section
variable {s : State} {n : Nat} {c : Coll}

/-- The bytes of the source that the collective reads next. -/
def sourcePiece (c : Coll) : List Nat := countUp (descSoff c.desc + 128 * c.read) (Nat.min 128 (srcBytes c - 128 * c.read))

/-- The collective with that piece read. -/
def pieceRead (s : State) (c : Coll) : Coll :=
  { c with
    read := c.read + 1, src := c.src ++ (sourcePiece c).map (fun a => mget 0 s.vc.chip a),
    sent := decide (srcBytes c ≤ 128 * c.read + 128) }

theorem collectiveSourceRead_reads (hc : s.vc.colls[n]? = some c) (hsent : c.sent = false) (hfailed : c.failed = false)
    (hdue : c.start + c.read ≤ s.vc.now) (hfrozen : frozenNow s = false) (hcl : s.vc.claims = []) :
    ∃ cl l, exec (.collectiveSourceRead n) s =
      .next (let t : State := { s with vc.claims := cl, vc.colls := s.vc.colls.set n (pieceRead s c), part.charges := l }
        if srcBytes c ≤ 128 * c.read + 128 then sendAll t (pieceRead s c) else t) := by
  obtain ⟨cl, buf, hread⟩ : ∃ cl buf, readAll s.vc.chip 0 (sourcePiece c) [] [] = (cl, buf, []) :=
    readAll_run s.vc.chip (k := 0) (by rw [Nat.zero_add]; exact Nat.min_le_left ..) (runClaims_nil true 0 _) []
  have hpiece : countUp (descSoff c.desc + 128 * c.read) (Nat.min 128 (srcBytes c - 128 * c.read)) = sourcePiece c := rfl
  obtain ⟨l, hl⟩ := charge_eq { s with vc.claims := cl } .sp (sourcePiece c).length
  have hgo : (c.sent || c.failed || decide (s.vc.now < c.start + c.read) || frozenNow s) = false := by
    simp [hsent, hfailed, hfrozen, hdue]
  refine ⟨cl, l, ?_⟩
  show execCollectiveSourceRead n s = _
  unfold execCollectiveSourceRead
  simp only [hc, hgo, hcl, hpiece, hread, Bool.false_eq_true, if_false, List.isEmpty_nil, Bool.not_true, hl, setColl, decide_eq_true_eq]
  rfl

theorem collectiveSourceRead_spec (hc : s.vc.colls[n]? = some c) (hsent : c.sent = false) (hfailed : c.failed = false)
    (hdue : c.start + c.read ≤ s.vc.now) (hfrozen : frozenNow s = false) (hcl : s.vc.claims = []) :
    ∃ t, exec (.collectiveSourceRead n) s = .next t ∧ t.vc.colls = s.vc.colls.set n (pieceRead s c) ∧ t.vc.chip = s.vc.chip ∧
      (128 * c.read + 128 < srcBytes c → t.part.outbox = s.part.outbox) := by
  obtain ⟨cl, l, hexec⟩ := collectiveSourceRead_reads hc hsent hfailed hdue hfrozen hcl
  refine ⟨_, hexec, ?_⟩
  dsimp only
  split
  next hlast =>
    obtain ⟨fl, p, hp⟩ := sends_sendAll { s with vc.claims := cl, vc.colls := s.vc.colls.set n (pieceRead s c), part.charges := l }
      (pieceRead s c)
    rw [hp]
    exact ⟨rfl, rfl, fun hmore => absurd hlast (Nat.not_le.mpr hmore)⟩
  · exact ⟨rfl, rfl, fun _ => rfl⟩

/-! ### Results (R325) -/

/-- A collective that is over leaves the registers and the scratchpad as they are; without a record it leaves the list. -/
theorem collOver_keeps (s : State) (n : Nat) (c : Coll) : (collOver s n c).vc.ctl = s.vc.ctl ∧ (collOver s n c).vc.chip = s.vc.chip ∧
    (descEv c.desc = false → (collOver s n c).vc.colls = s.vc.colls.eraseIdx n) := by
  have hrecord (t : State) (status hold : Nat) :
      (collRecord t c status hold).vc.ctl = t.vc.ctl ∧ (collRecord t c status hold).vc.chip = t.vc.chip := by
    unfold collRecord postRecord
    split <;> exact ⟨rfl, rfl⟩
  unfold collOver
  dsimp only
  split
  next h =>
    simp only [Bool.and_eq_true] at h
    obtain ⟨hctl, hchip⟩ := hrecord (collStatus s c 0) 0 (c.num + 1)
    exact ⟨hctl, hchip, fun hev => absurd (hev.symm.trans h.1.1) Bool.false_ne_true⟩
  · have hkeep : ∀ v : VC, (v.keepColl c).ctl = v.ctl ∧ (v.keepColl c).chip = v.chip := fun _ => ⟨rfl, rfl⟩
    split
    next hev =>
      refine ⟨(hrecord _ 0 0).1.trans ?_, (hrecord _ 0 0).2.trans ?_, fun h => absurd (h.symm.trans hev) Bool.false_ne_true⟩
      · split <;> rfl
      · split <;> rfl
    · refine ⟨?_, ?_, fun _ => rfl⟩
      · split <;> rfl
      · split <;> rfl

/-- What the delivery of collective n leaves once its landings and its mailbox have been served. -/
def deliveredAs (n : Nat) (q : State × Coll) : State :=
  if collDelivered q.2 then collOver (setColl q.1 n q.2) n q.2 else setColl q.1 n q.2

theorem deliveredAs_keeps (n : Nat) (q : State × Coll) :
    (deliveredAs n q).vc.ctl = q.1.vc.ctl ∧ (deliveredAs n q).vc.chip = q.1.vc.chip := by
  obtain ⟨hctl, hchip, -⟩ := collOver_keeps (setColl q.1 n q.2) n q.2
  unfold deliveredAs
  split
  · exact ⟨hctl, hchip⟩
  · exact ⟨rfl, rfl⟩

theorem collectiveDelivery_eq (hc : s.vc.colls[n]? = some c) (hfrozen : frozenNow s = false) (hfailed : c.failed = false)
    (hheld : collHeld s c = false) : exec (.collectiveDelivery n) s = .next (deliveredAs n
      (let q := (c.lands.filter (fun p => decide (p.beat ≤ s.vc.now))).foldl (fun (q : State × Coll) p => landOne q.1 q.2 p) (s, c)
       collMailbox q.1 q.2)) := by
  show execCollectiveDelivery n s = _
  unfold execCollectiveDelivery
  simp only [hc, hfailed, hheld, hfrozen, Bool.or_self, Bool.false_eq_true, if_false]
  rfl

theorem collectiveDelivery_mailbox {b : Nat} {w : Word64} (hc : s.vc.colls[n]? = some c) (hfrozen : frozenNow s = false)
    (hfailed : c.failed = false) (hheld : collHeld s c = false) (hmover : s.mover ≠ .inbound) (hlands : c.lands = [])
    (hmbox : c.mbox = some (b, w)) (hb : b ≤ s.vc.now) :
    ∃ t, exec (.collectiveDelivery n) s = .next t ∧ mr t (descMbox c.desc) = w ∧ t.vc.chip = s.vc.chip := by
  have hmail : collMailbox s c = (setM s (descMbox c.desc) w, { c with mbox := none }) := by
    unfold collMailbox
    simp only [hmbox, hb, hmover, ne_eq, not_false_eq_true, and_self, if_true]
  have hexec := collectiveDelivery_eq hc hfrozen hfailed hheld
  have hdue : c.lands.filter (fun p => decide (p.beat ≤ s.vc.now)) = [] := by rw [hlands, List.filter_nil]
  simp only [hdue, List.foldl_nil, hmail] at hexec
  obtain ⟨hctl, hchip⟩ := deliveredAs_keeps n (setM s (descMbox c.desc) w, { c with mbox := none })
  refine ⟨_, hexec, ?_, hchip⟩
  rw [mr, hctl]
  exact mget_mput_same ..

/-- A landing of at most 128 bytes where nothing else is served lands whole. -/
theorem landOne_lands {p : CLand} (hcl : s.vc.claims = []) (hlen : p.data.length ≤ 128) (c : Coll) :
    ∃ t, landOne s c p = (t, { c with lands := c.lands.erase p }) ∧ t.vc.chip = mputs byteDefault s.vc.chip p.off p.data ∧
      t.vc.colls = s.vc.colls := by
  obtain ⟨cl, hw⟩ := writeAll_run (owner := 2 ^ 51 + 0) (off := p.off) (k := 0) (d := p.data) (by rwa [Nat.zero_add])
    (runClaims_nil false _ _) s.vc.chip
  rw [Nat.add_zero p.off] at hw
  obtain ⟨l, hl⟩ := charge_eq { s with vc.claims := cl, vc.chip := mputs byteDefault s.vc.chip p.off p.data } .sp
    (landing p.off p.data).length
  have hland : (p.data.zip (countUp p.off p.data.length)).map (fun q => (q.2, (0xFF : Byte), q.1)) = landing p.off p.data := rfl
  refine ⟨{ s with vc.claims := cl, vc.chip := mputs byteDefault s.vc.chip p.off p.data, part.charges := l }, ?_, rfl, rfl⟩
  unfold landOne
  simp only [hland, hcl, List.length_nil, hw, List.isEmpty_nil, if_true, hl]

theorem collectiveDelivery_lands {p : CLand} (hc : s.vc.colls[n]? = some c) (hfrozen : frozenNow s = false)
    (hfailed : c.failed = false) (hheld : collHeld s c = false) (hcl : s.vc.claims = []) (hlands : c.lands = [p])
    (hbeat : p.beat ≤ s.vc.now) (hlen : p.data.length ≤ 128) (hmbox : c.mbox = none) :
    ∃ t, exec (.collectiveDelivery n) s = .next t ∧
      (∀ i, i < p.data.length → mget 0 t.vc.chip (p.off + i) = listAt 0 p.data i) ∧
      (∀ o, o < p.off ∨ p.off + p.data.length ≤ o → mget 0 t.vc.chip o = mget 0 s.vc.chip o) ∧
      (c.sent = true → (∀ x ∈ c.chunks, x.stage = 4) → descEv c.desc = false → t.vc.colls = s.vc.colls.eraseIdx n) := by
  obtain ⟨u, hland, huchip, hucolls⟩ := landOne_lands hcl hlen c
  have hmail (u : State) : collMailbox u { c with lands := c.lands.erase p } = (u, { c with lands := c.lands.erase p }) := by
    unfold collMailbox
    simp only [hmbox]
  have hexec := collectiveDelivery_eq hc hfrozen hfailed hheld
  have hdue : c.lands.filter (fun p => decide (p.beat ≤ s.vc.now)) = [p] := by simp [hlands, hbeat]
  simp only [hdue, List.foldl_cons, List.foldl_nil, hland, hmail] at hexec
  obtain ⟨hin, hout⟩ := chip_mputs s.vc.chip p.off p.data
  have hchip := (deliveredAs_keeps n (u, { c with lands := c.lands.erase p })).2.trans huchip
  refine ⟨_, hexec, fun i hi => by rw [hchip]; exact hin i hi, fun o ho => by rw [hchip]; exact hout o ho, fun hsent hall hev => ?_⟩
  have hover : collDelivered { c with lands := c.lands.erase p } = true := by
    have hstages : c.chunks.all (fun x => x.stage == 4) = true := List.all_eq_true.mpr fun x hx => beq_iff_eq.mpr (hall x hx)
    simp [collDelivered, hsent, hlands, hmbox, hstages]
  have hgone := (collOver_keeps (setColl u n { c with lands := c.lands.erase p }) n { c with lands := c.lands.erase p }).2.2 hev
  rw [deliveredAs, if_pos hover, hgone]
  show (u.vc.colls.set n _).eraseIdx n = _
  rw [hucolls]
  exact List.eraseIdx_set_eq

end

end Sys2Proof.Machine
end

section
/-! Window flushes, drains and votes (R298, R301, R312, R329, R330). -/

set_option Elab.async false

namespace Sys2Proof.Machine

open Sys2Proof.Laws

/-! ### Flushes at their home (R329) -/

theorem memMask_homeLoad {s t : State} {va n v : Nat} (h : homeLoad s va n = .ok t v) : memMask t = memMask s := by
  unfold homeLoad at h
  split at h
  next s1 pa e htr =>
    have hmask := memMask_translate htr
    cases hvb : e.vb
    · simp only [hvb, Bool.false_eq_true, if_false] at h
      split at h
      · cases h
      · cases h
        rw [memMask_homeRead, hmask]
    · simp only [hvb, if_true] at h
      split at h
      · cases h
      · cases h
        rw [memMask_vRead, hmask]
  · cases h
  · cases h

theorem memMask_homeStore {s t : State} {va : Nat} {d : List Byte} {v : Unit} (h : homeStore s va d = .ok t v) :
    memMask t = memMask s := by
  unfold homeStore at h
  split at h
  next s1 pa e htr =>
    have hmask := memMask_translate htr
    split at h
    · split at h
      · cases h
      · split at h
        · cases h
        · split at h
          next s2 hw =>
            cases h
            rw [memMask_vWrite hw, hmask]
          · cases h
    · split at h
      · cases h
      · cases h
        rw [memMask_homeWrite, hmask]
  · cases h
  · cases h

theorem andThen_ok {α β : Type} {r : MemR α} {k : State → α → MemR β} {t : State} {y : β} (h : r.andThen k = .ok t y) :
    ∃ s1 x, r = .ok s1 x ∧ k s1 x = .ok t y := by
  cases r with
  | ok s1 x => exact ⟨s1, x, rfl, h⟩
  | fault => cases h
  | wait => cases h

theorem memMask_applyLane {s t : State} {w : Window} {q i : Nat} {v : Unit} (h : applyLane w s q i = .ok t v) :
    memMask t = memMask s := by
  unfold applyLane at h
  dsimp only at h
  split at h
  · obtain ⟨s1, x, hload, hstore⟩ := andThen_ok h
    rw [memMask_homeStore hstore, memMask_homeLoad hload]
  · obtain ⟨s1, x, hload, hrest⟩ := andThen_ok h
    obtain ⟨s2, y, hshadow, hstore⟩ := andThen_ok hrest
    rw [memMask_homeStore hstore, memMask_homeStore hshadow, memMask_homeLoad hload]

theorem memMask_applyLanes {w : Window} {l : List Nat} {s t : State} {i : Nat} {v : Unit} (h : applyLanes w s i l = .ok t v) :
    memMask t = memMask s := by
  induction l generalizing s i with
  | nil =>
    cases h
    rfl
  | cons q r ih =>
    obtain ⟨s1, x, hone, hrest⟩ := andThen_ok h
    rw [ih hrest, memMask_applyLane hone]

/-- A fault changes no window, buffer or closed key. -/
theorem raiseAt_fabric (s : State) (n : Nat) (f : FaultRec) : (raiseAt s n f).part.windows = s.part.windows ∧
    (raiseAt s n f).part.darns = s.part.darns ∧ (raiseAt s n f).part.closed = s.part.closed := by
  have hecc : (eccOutside (countError s f.cause f.detail) n f.cause).part.windows = s.part.windows ∧
      (eccOutside (countError s f.cause f.detail) n f.cause).part.darns = s.part.darns ∧
      (eccOutside (countError s f.cause f.detail) n f.cause).part.closed = s.part.closed := by
    unfold eccOutside countError bumpCount
    split <;> split <;> exact ⟨rfl, rfl, rfl⟩
  have hpart : (raiseAt s n f).part = (eccOutside (countError s f.cause f.detail) n f.cause).part := by
    rw [raiseAt_eq]
    show (updVC _ n _).part = _
    unfold updVC
    split <;> rfl
  rwa [hpart]

/-- A flush that its home has served frees its buffers and closes their keys; the windows stay. -/
theorem applyFlush_frees {s t : State} {w : Window} {ds : List Darn} (h : applyFlush s w ds = some t) :
    t.part.windows = s.part.windows ∧
    t.part.darns = s.part.darns.filter (fun d => !(ds.map (fun d => d.key)).contains d.key) ∧
    ∀ d ∈ ds, d.key ∈ t.part.closed := by
  have hclosed (u : State) : ∀ d ∈ ds, d.key ∈ (freeFlush u w ds).part.closed := fun d hd =>
    List.mem_append_right _ (List.mem_map_of_mem hd)
  unfold applyFlush at h
  split at h
  next s1 v hlanes =>
    have hmask := memMask_applyLanes hlanes
    have hwindows : (freeFlush s1 w ds).part.windows = s.part.windows := by
      show (memMask s1).part.windows = (memMask s).part.windows
      rw [hmask]
    have hdarns : s1.part.darns = s.part.darns := by
      show (memMask s1).part.darns = (memMask s).part.darns
      rw [hmask]
    have hfreed : (freeFlush s1 w ds).part.darns =
        s.part.darns.filter (fun d => !(ds.map (fun d => d.key)).contains d.key) := by rw [← hdarns]; rfl
    have hpart (f : VC → VC) : (updVC (freeFlush s1 w ds) w.vc f).part = (freeFlush s1 w ds).part := by
      unfold updVC
      split <;> rfl
    cases h
    split
    · rw [hpart]
      exact ⟨hwindows, hfreed, hclosed s1⟩
    · exact ⟨hwindows, hfreed, hclosed s1⟩
  next c d hfault =>
    cases h
    obtain ⟨hwindows, hdarns, hkeys⟩ := raiseAt_fabric (freeFlush s w ds) w.vc
      { src := 7, cause := c, detail := d, tval := tvalOf c (w64 w.base), beat := s.vc.now, name := 0, seq := none, tepc := none }
    exact ⟨hwindows, hdarns, fun d hd => by rw [flightFault]; exact hkeys ▸ hclosed s d hd⟩
  · cases h

section
variable {s : State} {n : Nat} {w : Window}

/-- The windows once a flush of w is done. -/
def windowsAfter (s : State) (w : Window) : List Window :=
  (s.part.windows.map (fun x => if x = w then { w with sent := w.sent - 1, held := w.held.drop 1 } else x)).filter
    (fun x => !(x.dropped && x.sent == 0))

theorem windowFlushApply_away (hw : s.part.windows[n]? = some w) (hsent : w.sent ≠ 0) (haway : w.atHome s = false) :
    ∃ t, exec (.windowFlushApply n) s = .next t ∧ t.part.windows = windowsAfter s w ∧ t.part.mem = s.part.mem := by
  have hexec : exec (.windowFlushApply n) s = .next (flushDone s w) := by
    show execWindowFlushApply n s = _
    unfold execWindowFlushApply
    simp only [hw, hsent, haway, if_false, Bool.false_eq_true]
  exact ⟨_, hexec, rfl, rfl⟩

theorem windowFlushApply_home {ds : List Darn} (hw : s.part.windows[n]? = some w) (hsent : w.sent ≠ 0) (hhome : w.atHome s = true)
    (howner : w.owner = launchTag s) (hready : readyFlush s w = some ds) (happly : (applyFlush s w ds).isSome = true) :
    ∃ t, exec (.windowFlushApply n) s = .next t ∧ t.part.windows = windowsAfter s w ∧
      t.part.darns = s.part.darns.filter (fun d => !(ds.map (fun d => d.key)).contains d.key) ∧ ∀ d ∈ ds, d.key ∈ t.part.closed := by
  obtain ⟨u, hu⟩ := Option.isSome_iff_exists.mp happly
  obtain ⟨hwindows, hdarns, hclosed⟩ := applyFlush_frees hu
  have hin (f : State → State) : inLaunch s w.owner f = f s := if_pos howner
  have hexec : exec (.windowFlushApply n) s = .next (flushDone u w) := by
    show execWindowFlushApply n s = _
    unfold execWindowFlushApply
    simp only [hw, hsent, hhome, if_false, if_true, hin, hready, hu, Option.bind_some]
  exact ⟨_, hexec, by unfold flushDone windowsAfter; rw [hwindows], hdarns, hclosed⟩

end

/-! ### Drains (R301, R312) -/

theorem sendFor_eq (s : State) (owner : Option LaunchTag) (who : Option Nat) (h : Head) (d : List Byte) :
    ∃ o l, sendFor s owner who h d = { s with part.outbox := o, part.charges := l } := by
  unfold sendFor
  dsimp only
  obtain ⟨l, hl⟩ := chargeFor_eq { s with part.outbox := _ } owner who .frag _
  rw [hl]
  exact ⟨_, l, rfl⟩

theorem drainMessage_drains (owner : Option LaunchTag) (s : State) (d : List Byte) :
    (drainMessage owner s d).part.drains = s.part.drains := by
  unfold drainMessage
  dsimp only
  obtain ⟨o, l, hl⟩ := sendFor_eq s owner _ _ d
  rw [hl]

/-- What the oldest drain sends it remembers, and nothing else of the drains changes. -/
theorem drainSend_drains (s : State) (d : Drain) (data : List (List Byte)) :
    (drainSend s d data).part.drains = { d with out := d.out ++ data.flatMap (drainPieces s) } :: s.part.drains.drop 1 := by
  have hsent : ((data.flatMap (drainPieces s)).foldl (drainMessage d.owner) s).part.drains = s.part.drains :=
    foldl_keeps (f := fun u : State => u.part.drains) (drainMessage_drains d.owner) _ s
  unfold drainSend setDrain
  rw [← hsent]

theorem drainClear_drains (s : State) (bk g : Nat) (src : Bool × Nat × List Byte) :
    (drainClear s bk g src).part.drains = s.part.drains := by
  unfold drainClear
  split
  · rfl
  · split <;> rfl

section
variable {s : State} {d : Drain} {rest : List Drain}

theorem drainEngineTransfer_block {bk : Nat} (hd : s.part.drains = d :: rest) (hnext : drainNext s d = some bk)
    (hsound : ∀ src, drainSource (touch s bk) bk d.gen = some src → drainPoisoned (touch s bk) bk src = false) :
    ∃ t d2, exec .drainEngineTransfer s = .next t ∧ t.part.drains = d2 :: rest ∧ d2.left = d.left.erase bk ∧
      d2.gen = d.gen ∧ d2.sent = d.sent + (if (drainSource (touch s bk) bk d.gen).isSome then 1 else 0) := by
  have htouch : (touch s bk).part.drains = d :: rest := by
    show (memMask (touch s bk)).part.drains = _
    rw [memMask_touch]
    exact hd
  show ∃ t d2, execDrainEngineTransfer s = .next t ∧ _
  unfold execDrainEngineTransfer
  simp only [hd, hnext]
  cases hsrc : drainSource (touch s bk) bk d.gen with
  | none =>
    refine ⟨_, { d with left := d.left.erase bk }, rfl, ?_, rfl, rfl, rfl⟩
    show { d with left := d.left.erase bk } :: (touch s bk).part.drains.drop 1 = _
    rw [htouch]
    rfl
  | some src =>
    dsimp only
    rw [hsound src hsrc, if_neg Bool.false_ne_true]
    obtain ⟨l, hl⟩ := chargeFor_eq (touch s bk) d.owner (some 0) .hbm 16
    have hdrains : (drainClear (chargeFor (touch s bk) d.owner (some 0) .hbm 16) bk d.gen src).part.drains = d :: rest := by
      rw [drainClear_drains, hl]
      exact htouch
    have hfirst := drainSend_drains (drainClear (chargeFor (touch s bk) d.owner (some 0) .hbm 16) bk d.gen src)
      { d with left := d.left.erase bk, sent := d.sent + 1 } [src.2.2]
    rw [hdrains] at hfirst
    exact ⟨_, _, rfl, hfirst, rfl, rfl, rfl⟩

theorem drainEngineTransfer_records (hd : s.part.drains = d :: rest) (hleft : d.left = []) (hrecs : d.recs ≠ [])
    (hnext : drainNext s d = none) :
    ∃ t d2, exec .drainEngineTransfer s = .next t ∧ t.part.drains = d2 :: rest ∧ d2.recs = [] ∧ d2.left = [] ∧
      d2.gen = d.gen ∧ d2.sent = d.sent ∧ d2.out = d.out ++ d.recs.flatMap (drainPieces s) := by
  have hexec : exec .drainEngineTransfer s = .next (drainSend s { d with recs := [] } d.recs) := by
    show execDrainEngineTransfer s = _
    unfold execDrainEngineTransfer
    simp only [hd, hnext, List.isEmpty_iff, hrecs, if_false]
  have hfirst := drainSend_drains s { d with recs := [] } d.recs
  rw [hd] at hfirst
  exact ⟨_, _, hexec, hfirst, rfl, hleft, rfl, rfl, rfl⟩

theorem drainAcknowledge_posts (hd : s.part.drains = d :: rest) (hleft : d.left = []) (hrecs : d.recs = [])
    (hid : s.vc.id = 0) (hlive : s.launch.live = true) (hmode : s.launch.mode = .lockstep) (howner : d.owner = launchTag s) :
    ∃ t x, exec .drainAcknowledge s = .next t ∧ t.part.drains = rest ∧ t.part.acked = s.part.acked ++ [d.gen] ∧
      t.vc.eng.evIn = s.vc.eng.evIn ++ [x] ∧ x.beat = s.vc.now ∧ x.w1 = w64 d.sent ∧ fld x.w0 15 12 = 4 ∧
      fld x.w0 7 0 = 1 ∧ fld x.w0 39 24 = d.gen % 2 ^ 16 := by
  let u : State := { s with part.drains := rest, part.acked := s.part.acked ++ [d.gen] }
  have htag : d.owner.isSome = true := by rw [howner, launchTag, hlive]; rfl
  have hpost : postRecord u (posterOf 0) u.vc.now 4 0 d.gen 1 (w64 d.sent) 0 =
      postAt u (posterOf 0) u.vc.now 4 0 d.gen 1 (w64 d.sent) := if_neg fun h => Mode.noConfusion (hmode.symm.trans h.1)
  have hin (f : State → State) : inLaunch u d.owner f = f u := if_pos howner
  have hself : inVC u 0 (fun t => postRecord t (posterOf 0) t.vc.now 4 0 d.gen 1 (w64 d.sent) 0) =
      postAt u (posterOf 0) u.vc.now 4 0 d.gen 1 (w64 d.sent) := by
    have h := inVC_self (s := u) (f := fun t => postRecord t (posterOf 0) t.vc.now 4 0 d.gen 1 (w64 d.sent) 0) (by rw [hpost]; rfl)
    rw [hpost] at h
    rwa [show u.vc.id = 0 from hid] at h
  have hexec : exec .drainAcknowledge s = .next (postAt u (posterOf 0) u.vc.now 4 0 d.gen 1 (w64 d.sent)) := by
    show execDrainAcknowledge s = _
    unfold execDrainAcknowledge
    simp only [hd, hleft, hrecs, List.isEmpty_nil, Bool.and_self, if_true, htag]
    rw [← hself]
    exact congrArg Host.Outcome.next (hin _)
  obtain ⟨hkind, hsrc, hgen⟩ := recWord_fields s.vc.now 4 d.gen 1 (by decide)
  exact ⟨_, _, hexec, rfl, rfl, rfl, rfl, rfl, hsrc, (congrArg (· % 2 ^ 8) (Nat.div_one _)).trans hkind, hgen⟩

end

/-! ### The device's vote (R298, R330) -/

/-- Fragments that combine with none that is still to be sent, and not with each other, leave behind those. -/
theorem foldl_joinOut {fs out : List Fragment} (h : ∀ f ∈ fs, ∀ x ∈ out ++ fs, combines f x = false) :
    fs.foldl joinOut out = out ++ fs := by
  induction fs generalizing out with
  | nil => exact (List.append_nil out).symm
  | cons f r ih =>
    have hone : joinOut out f = out ++ [f] := by
      have hnone : out.find? (combines f) = none := List.find?_eq_none.mpr fun x hx => by
        rw [h f List.mem_cons_self x (List.mem_append_left _ hx)]
        exact Bool.false_ne_true
      unfold joinOut
      rw [hnone]
    rw [List.foldl_cons, hone, ih fun g hg x hx => h g (List.mem_cons_of_mem _ hg) x (by simpa using hx), List.append_assoc]
    rfl

/-- The header of the device's vote on generation g. -/
def voteHead (s : State) (g : Nat) : Head :=
  { dst := s.dev.num, src := s.dev.num, dvc := 0, tc := 2, k := 1, msg := 0, m := 8, rot := g % 36,
    field := 3, len := 8, grp := partGrp s, cseq := 0, e := 0, ov := false, chunk := 0, dl := 0, ncon := 1 }

/-- The vote word of the device on generation g. -/
def voteWord (s : State) (g : Nat) : Nat := voteLoss s * 2 ^ 32 + g * 65536 + voteFlags s

/-- The payload of every fragment of a vote. -/
def votePayload (w : Nat) : List Byte := (countUp 0 256).map (listAt 0 (leBytes w 8))

theorem votePayload_take (w : Nat) : (votePayload w).take 8 = leBytes w 8 := rfl

theorem voteFragment_head (s : State) (g : Nat) (p : List Byte) {i : Nat} (hi : i < 9) :
    (headOfFrag (mkFrag (voteHead s g) i p)).tc = 2 ∧ (headOfFrag (mkFrag (voteHead s g) i p)).src = s.dev.num % 2 ^ 18 := by
  have hw : (mkFrag (voteHead s g) i p).w0 =
      w64 (s.dev.num % 2 ^ 18 * 2 ^ 46 + s.dev.num % 2 ^ 18 * 2 ^ 28 + 0 % 1024 * 2 ^ 18 + 2 % 16 * 2 ^ 14 + i * 256 + (1 - 1) * 8) := rfl
  simp only [headOfFrag, hw, fld, bits, w64, BitVec.toNat_ofNat]
  omega

/-- The fragments of the device's vote on generation g, each under the index that its plane follows from. -/
def voteFragments (s : State) (g : Nat) : List Fragment :=
  ((List.replicate 9 (votePayload (voteWord s g))).zip (countUp 0 9)).map (fun p => mkFrag (voteHead s g) p.2 p.1)

theorem voteFragments_spec {s : State} {g : Nat} {f : Fragment} (h : f ∈ voteFragments s g) :
    (headOfFrag f).tc = 2 ∧ (headOfFrag f).src = s.dev.num % 2 ^ 18 ∧ f.payload = votePayload (voteWord s g) := by
  obtain ⟨⟨p, i⟩, hmem, rfl⟩ := List.mem_map.mp h
  obtain ⟨hp, hi⟩ := List.of_mem_zip hmem
  obtain ⟨htc, hsrc⟩ := voteFragment_head s g p (i := i) (by have := (mem_countUp.mp hi).2; omega)
  exact ⟨htc, hsrc, List.eq_of_mem_replicate hp⟩

/-- The vote's fragments join what is to be sent, where none of that is of the commit tree. -/
theorem voteFragments_join {s : State} {g : Nat} (hout : ∀ f ∈ s.part.outbox, (headOfFrag f).tc ≠ 2) :
    ((voteFragments s g).filter (fun f => s.dev.links.contains f.port.toNat)).foldl joinOut s.part.outbox =
      s.part.outbox ++ (voteFragments s g).filter (fun f => s.dev.links.contains f.port.toNat) := by
  refine foldl_joinOut fun f hf x hx => ?_
  obtain ⟨htc, hsrc, -⟩ := voteFragments_spec (List.mem_of_mem_filter hf)
  obtain hx | hx := List.mem_append.mp hx
  · have hdiffer : ((headOfFrag f).tc == (headOfFrag x).tc) = false := beq_eq_false_iff_ne.mpr fun he => hout x hx (he.symm.trans htc)
    unfold combines
    simp only [hdiffer, Bool.false_and]
  · obtain ⟨-, hsrc2, -⟩ := voteFragments_spec (List.mem_of_mem_filter hx)
    have hsame : ((headOfFrag f).src != (headOfFrag x).src) = false := by rw [hsrc, hsrc2, bne_self_eq_false]
    unfold combines
    simp only [hsame, Bool.and_false]

section
variable {s : State} {ep g : Nat} {dr : Bool}

theorem deviceVoteSend_sends (hep : s.part.openEp = some (ep, g, dr)) (hvoted : s.part.voted = false) (hstops : s.part.dstops = [])
    (hgo : voteFlags s ≠ 0 ∨
      (s.launch.live = true ∧ (∀ v ∈ s.vcs, v.tx.state = 2 ∧ v.settled = true) ∧ drainHold s g = false))
    (hout : ∀ f ∈ s.part.outbox, (headOfFrag f).tc ≠ 2) :
    ∃ t fs, exec .deviceVoteSend s = .next t ∧ t.part.voted = true ∧ t.part.outbox = s.part.outbox ++ fs ∧
      ∀ f ∈ fs, (headOfFrag f).tc = 2 ∧ f.payload.take 8 = leBytes (voteLoss s * 2 ^ 32 + g * 65536 + voteFlags s) 8 := by
  let u : State := { s with part.voted := true }
  obtain ⟨l, hl⟩ := chargeFor_eq u s.part.stepTag (some 0) .vote 1
  have hall : (voteFlags s == 0 &&
      !((s.part.endVoted || (s.launch.live && s.vcs.all (fun v => v.tx.state == 2 && v.settled))) && !drainHold s g)) = false := by
    obtain hflag | ⟨hlive, hstates, hhold⟩ := hgo
    · rw [beq_eq_false_iff_ne.mpr hflag, Bool.false_and]
    · have hvcs : s.vcs.all (fun v => v.tx.state == 2 && v.settled) = true := List.all_eq_true.mpr fun v hv => by
        simp [hstates v hv]
      simp [hlive, hvcs, hhold]
  have hexec : exec .deviceVoteSend s = .next (sendFor (chargeFor u s.part.stepTag (some 0) .vote 1) s.part.stepTag (some 0)
      (voteHead s g) (leBytes (voteWord s g) 8)) := by
    have hguard : ¬ ((s.part.voted || !s.part.dstops.isEmpty || (voteFlags s == 0 &&
        !((s.part.endVoted || (s.launch.live && s.vcs.all (fun v => v.tx.state == 2 && v.settled))) && !drainHold s g))) = true) := by
      rw [hall, hvoted, hstops]
      exact Bool.false_ne_true
    show execDeviceVoteSend s = _
    rw [execDeviceVoteSend, hep]
    exact if_neg hguard
  have hsend : sendFor { u with part.charges := l } s.part.stepTag (some 0) (voteHead s g) (leBytes (voteWord s g) 8) =
      chargeFor { u with
        part.charges := l,
        part.outbox := ((voteFragments s g).filter (fun f => s.dev.links.contains f.port.toNat)).foldl joinOut s.part.outbox }
        s.part.stepTag (some 0) .frag 9 := rfl
  obtain ⟨l', hl'⟩ := chargeFor_eq { u with
    part.charges := l,
    part.outbox := ((voteFragments s g).filter (fun f => s.dev.links.contains f.port.toNat)).foldl joinOut s.part.outbox }
    s.part.stepTag (some 0) .frag 9
  rw [hl, hsend, hl'] at hexec
  refine ⟨_, _, hexec, rfl, voteFragments_join hout, fun f hf => ?_⟩
  obtain ⟨htc, -, hpay⟩ := voteFragments_spec (List.mem_of_mem_filter hf)
  exact ⟨htc, by rw [hpay, votePayload_take]; rfl⟩

theorem deviceVoteSend_waits (hep : s.part.openEp = some (ep, g, dr)) (hflags : voteFlags s = 0) (hend : s.part.endVoted = false)
    (hout : ∃ v ∈ s.vcs, v.tx.state ≠ 2) : exec .deviceVoteSend s = .next s := by
  have hall : s.vcs.all (fun v => v.tx.state == 2 && v.settled) = false := by
    obtain ⟨v, hv, hst⟩ := hout
    exact List.all_eq_false.mpr ⟨v, hv, by simp [hst]⟩
  show execDeviceVoteSend s = _
  unfold execDeviceVoteSend
  simp only [hep, hflags, hend, hall, Bool.and_false, Bool.or_self, Bool.false_and, Bool.not_false, beq_self_eq_true, Bool.and_self,
    Bool.or_true, if_true]

end

/-! ### The statement -/

/-- Settles O53: each event by its own lemma. -/
theorem fabricEvents : Obligations.FabricEvents := by
  unfold Obligations.FabricEvents
  refine ⟨fun s f => ?_, fun s n b hb => ⟨?_, ?_, ?_, ?_, ?_, ?_⟩, fun s n c hc => ⟨?_, ?_, ?_, ?_⟩, fun s n w hw hsent => ?_,
    fun s port hport => ⟨linkDown_spec s hport, linkUp_spec s hport⟩, fun s d rest hd => ⟨?_, ?_, ?_⟩,
    fun s ep g dr hep hvoted hstops => ⟨?_, ?_⟩⟩
  · exact ⟨fragmentArrival_corrupt, fun h1 h2 h3 h4 h5 h6 h7 h8 h9 h10 => fragmentArrival_opens h1 h2 h3 h4 h5 h6 h7 h8 h9 h10⟩
  · exact darnDecode_ready hb
  · exact fun hst htc => ⟨_, messageDelivery_held hb hst htc, rfl, rfl, rfl⟩
  · exact messageDelivery_outcome hb
  · exact fun i c x hst htc hvc howner hcoll hfailed hx hwaits => messageDelivery_data hb hst htc hvc howner hcoll hfailed hx hwaits
  · exact unrecoverableLoss_ofCore hb
  · exact unrecoverableLoss_ofDevice hb
  · exact unrecoverableLoss_ofColl hc
  · intro hsent hfailed hdue hfrozen hcl
    obtain ⟨t, ht, hcolls, hchip, hmore⟩ := collectiveSourceRead_spec hc hsent hfailed hdue hfrozen hcl
    exact ⟨t, _, ht, hcolls, rfl, rfl, rfl, hchip, hmore⟩
  · exact fun b w hfrozen hfailed hheld hmover hlands hmbox hb =>
      collectiveDelivery_mailbox hc hfrozen hfailed hheld hmover hlands hmbox hb
  · exact fun p hfrozen hfailed hheld hcl hlands hbeat hlen hmbox =>
      collectiveDelivery_lands hc hfrozen hfailed hheld hcl hlands hbeat hlen hmbox
  · exact ⟨windowFlushApply_away hw hsent, fun ds => windowFlushApply_home hw hsent⟩
  · exact fun bk => drainEngineTransfer_block hd
  · exact drainEngineTransfer_records hd
  · exact drainAcknowledge_posts hd
  · exact deviceVoteSend_sends hep hvoted hstops
  · exact deviceVoteSend_waits hep

end Sys2Proof.Machine
end

section
/-! The registers of a VF and of the device (R331, R365, R406, R408). -/

set_option Elab.async false

namespace Sys2Proof.Machine

open Sys2Proof.Laws

/-! ### Queues that become eligible (R341) -/

/-- A queue that becomes eligible has its pass raised, word 4 of its record, and may ask for a decision. -/
theorem catchUp_eq (old s : State) : ∃ m d, catchUp old s = { s with dev.queues := m, part.decision := d } ∧
    ∀ k, k % 8 ≠ 4 → mget 0 m k = mget 0 s.dev.queues k := by
  have hone (s : State) (q : Nat) : ∃ m d, catchUpOne old s q = { s with dev.queues := m, part.decision := d } ∧
      ∀ k, k % 8 ≠ 4 → mget 0 m k = mget 0 s.dev.queues k := by
    have hword (v : Word64) : ∀ k, k % 8 ≠ 4 → mget 0 (mput 0 s.dev.queues (8 * q + 4) v) k = mget 0 s.dev.queues k :=
      fun k hk => mget_mput_ne _ _ _ (by omega)
    unfold catchUpOne
    split
    · generalize (if qUrgent s q then s.part.vu else s.part.vn) = v
      dsimp only
      split
      · split
        · exact ⟨_, _, rfl, hword _⟩
        · exact ⟨_, _, rfl, hword _⟩
      · exact ⟨_, _, rfl, hword _⟩
    · exact ⟨s.dev.queues, s.part.decision, rfl, fun _ _ => rfl⟩
  unfold catchUp
  induction queueIds s generalizing s with
  | nil => exact ⟨s.dev.queues, s.part.decision, rfl, fun _ _ => rfl⟩
  | cons q r ih =>
    obtain ⟨m, d, h1, hm⟩ := hone s q
    obtain ⟨m', d', h2, hm'⟩ := ih (catchUpOne old s q)
    rw [h1] at h2 hm'
    refine ⟨m', d', ?_, fun k hk => (hm' k hk).trans (hm k hk)⟩
    rw [List.foldl_cons, h1]
    exact h2

theorem setQuota_eq (s : State) (v : Word64) : ∃ m x d, setQuota s v =
    { s with dev.queues := m, part.equota := v, part.ex := x, part.decision := d } := by
  unfold setQuota
  dsimp only
  split
  · obtain ⟨m, d, h, -⟩ := catchUp_eq s { s with
      part.equota := v, part.ex := false, part.decision := s.part.decision || s.launch.inPlace }
    exact ⟨m, false, d, h⟩
  · exact ⟨s.dev.queues, s.part.ex, s.part.decision, rfl⟩

/-! ### Words of a group (R315 to R317) -/

/-- What new trees of a group leave as it was: the group entries, memory, the partition's number and the device. -/
def groupView (s : State) : SMap Word64 × List Host.Cell × Nat × Dev := (s.part.groups, s.part.mem, s.part.idx, s.dev)

theorem groupView_chargeFor (s : State) (owner : Option LaunchTag) (who : Option Nat) (c : EClass) (n : Nat) :
    groupView (chargeFor s owner who c n) = groupView s := by
  obtain ⟨l, hl⟩ := chargeFor_eq s owner who c n
  rw [hl]
  rfl

theorem groupView_l2Access (s : State) (who : Option Nat) (moved line : Nat) (write : Bool) :
    groupView (l2Access s who moved line write) = groupView s := by
  unfold l2Access
  split
  · exact (groupView_chargeFor ..).trans (groupView_chargeFor ..)
  · dsimp only
    split
    · exact groupView_chargeFor ..
    · exact (groupView_chargeFor ..).trans (groupView_chargeFor ..)

theorem groupView_sendFor (s : State) (owner : Option LaunchTag) (who : Option Nat) (h : Head) (d : List Byte) :
    groupView (sendFor s owner who h d) = groupView s := by
  obtain ⟨o, l, hl⟩ := sendFor_eq s owner who h d
  rw [hl]
  rfl

theorem groupView_sendSum (s : State) (c : Coll) (k e dl : Nat) (after : Bool) :
    groupView (sendSum s c k e dl after) = groupView s := groupView_sendFor ..

theorem groupView_touchSelf (s : State) (c : Coll) : groupView (touchSelf s c) = groupView s := by
  unfold touchSelf
  dsimp only
  split
  · exact (groupView_l2Access ..).trans (groupView_l2Access ..)
  · exact groupView_l2Access ..

theorem groupView_foldl {α : Type} {f : State → α → State} (hf : ∀ t x, groupView (f t x) = groupView t) (l : List α) (s : State) :
    groupView (l.foldl f s) = groupView s := foldl_keeps hf l s

theorem groupView_sendAll (s : State) (c : Coll) : groupView (sendAll s c) = groupView s := by
  unfold sendAll
  dsimp only
  split
  · exact (groupView_foldl (fun t k => groupView_sendFor ..) _ _).trans (groupView_touchSelf s c)
  · refine (groupView_foldl (fun t x => ?_) _ _).trans (groupView_touchSelf s c)
    split
    · split
      · exact groupView_sendFor ..
      · exact groupView_sendFor ..
    · exact groupView_sendSum ..

theorem groupView_replayColl (s : State) (n : Nat) (c : Coll) : groupView (replayColl s n c) = groupView s := by
  unfold replayColl
  dsimp only
  split
  · exact groupView_sendAll ..
  · rfl

theorem groupView_resendColl (s : State) (c : Coll) : groupView (resendColl s c) = groupView s := by
  have hchunk (t : State) (x : CChunk × Nat) : groupView (let u1 := if passFirst c.op c.desc x.1.hint then sendPass t c x.2 0 else t
      if c.op = 4 then u1 else sendSum u1 c x.2 x.1.e 0 true) = groupView t := by
    have hpass : groupView (if passFirst c.op c.desc x.1.hint then sendPass t c x.2 0 else t) = groupView t := by
      split
      · exact groupView_sendFor ..
      · rfl
    dsimp only
    split
    · exact hpass
    · exact (groupView_sendSum ..).trans hpass
  unfold resendColl
  dsimp only
  show groupView (if _ then s else _) = _
  split
  · rfl
  · split
    · exact groupView_sendAll ..
    · exact (groupView_foldl hchunk _ _).trans (groupView_touchSelf s c)

theorem groupView_sendFlush (s : State) (w : Window) (x : Nat × Bool × SMap Nat) : groupView (sendFlush s w x) = groupView s :=
  (groupView_foldl (fun _ _ => groupView_sendFor ..) _ _).trans ((groupView_l2Access ..).trans (groupView_l2Access ..))

theorem groupView_replayFlushes (s : State) (g : Nat) : groupView (replayFlushes s g) = groupView s :=
  groupView_foldl (fun t w => groupView_foldl (fun u x => groupView_sendFlush u w x) w.held t) _ s

theorem groupView_focusVC {s t : State} {n : Nat} (h : focusVC s n = some t) : groupView t = groupView s := by
  unfold focusVC at h
  split at h
  · cases h
    rfl
  · split at h
    · cases h
    · cases h
      rfl

theorem groupView_inVC {f : State → State} (hf : ∀ u, groupView (f u) = groupView u) (s : State) (n : Nat) :
    groupView (inVC s n f) = groupView s := by
  unfold inVC
  split
  · rfl
  next s1 h1 =>
    have hs : groupView (f s1) = groupView s := (hf s1).trans (groupView_focusVC h1)
    split
    next s3 h3 => exact (groupView_focusVC h3).trans hs
    · exact hs

theorem groupView_inSaved {f : State → State} (hf : ∀ u, groupView (f u) = groupView u) (s : State) (t : LaunchTag) :
    groupView (inSaved s t f) = groupView s := by
  unfold inSaved
  split
  · rfl
  next x hx =>
    split
    · rfl
    next v r hv => exact hf { s with vc := v, peers := r, launch := x.launch }

theorem groupView_treesRebuilt (s : State) (g : Nat) : groupView (treesRebuilt s g) = groupView s := by
  unfold treesRebuilt
  split
  · rfl
  · refine (groupView_foldl (fun t (v : VC) => groupView_inVC (fun u => ?_) t v.id) _ _).trans (groupView_replayFlushes ..)
    refine (groupView_foldl groupView_resendColl _ _).trans (groupView_foldl (fun w n => ?_) _ u)
    split
    · split
      · exact groupView_replayColl ..
      · rfl
    · rfl

/-- Words lo, lo + 1, … of group g are written, and those of other numbers keep what they hold. -/
theorem setGroupWords (g : Nat) (d : List Word64) (lo : Nat) (s : State) :
    ∃ m, (d.zip (countUp lo d.length)).foldl (fun t p => setGroupWord t g p.2 p.1) s = { s with part.groups := m } ∧
      (∀ i, i < d.length → mget 0 m (8 * g + (lo + i)) = listAt 0 d i) ∧
      ∀ i, i < lo → mget 0 m (8 * g + i) = mget 0 s.part.groups (8 * g + i) := by
  induction d generalizing lo s with
  | nil => exact ⟨s.part.groups, rfl, fun i hi => absurd hi (Nat.not_lt_zero i), fun _ _ => rfl⟩
  | cons v d ih =>
    obtain ⟨m, hm, hin, hlow⟩ := ih (lo + 1) (setGroupWord s g lo v)
    refine ⟨m, hm, fun i hi => ?_, fun i hi => ?_⟩
    · cases i with
      | zero => exact (hlow lo (Nat.lt_succ_self lo)).trans (mget_mput_same ..)
      | succ i =>
        have hkey : lo + (i + 1) = lo + 1 + i := by omega
        rw [hkey]
        exact hin i (Nat.lt_of_succ_lt_succ hi)
    · exact (hlow i (Nat.lt_succ_of_lt hi)).trans (mget_mput_ne _ _ _ (by omega))

theorem setGroup_words (s : State) (g : Nat) {d : List Word64} (hd : d.length = 8) :
    (∀ i, i < 8 → groupWord (setGroup s g d) g i = listAt 0 d i) ∧ (setGroup s g d).part.mem = s.part.mem ∧
    (setGroup s g d).part.idx = s.part.idx ∧ (setGroup s g d).dev = s.dev := by
  obtain ⟨m, hm, hin, -⟩ := setGroupWords g d 0 s
  rw [hd] at hm
  have hview : groupView (setGroup s g d) = (m, s.part.mem, s.part.idx, s.dev) := by
    unfold setGroup
    dsimp only
    rw [hm]
    split
    · rfl
    · exact (groupView_foldl (fun t (x : Saved) => groupView_inSaved (fun u => groupView_treesRebuilt u g) t x.tag) _ _).trans
        (groupView_treesRebuilt ..)
  simp only [groupView, Prod.mk.injEq] at hview
  obtain ⟨hgroups, hmem, hidx, hdev⟩ := hview
  refine ⟨fun i hi => ?_, hmem, hidx, hdev⟩
  rw [groupWord, hgroups, ← hin i (hd ▸ hi), Nat.zero_add]

/-! ### Writes by a VF (R408) -/

section
variable {s : State} {fn : BitVec 5} {v : Word64} {r : Reg}

/-- The registers whose writes go to the VF that owns them. -/
def ofVF (r : Reg) : Prop := ∀ (s : State) (fn : BitVec 5) (v : Word64),
  exec (.registerWrite fn r v) s = .next (vfReply s fn (fun t => writeVF t r v))

/-- A value that the register takes: state t, and the answer. -/
theorem registerWrite_done {t : State} (hr : ofVF r) (hfn : fn.toNat = s.part.idx + 1) (hw : writeVF s r v = (t, .done))
    (hidx : t.part.idx = s.part.idx) : exec (.registerWrite fn r v) s = .next (reply t .done) := by
  rw [hr, vfReply_self hfn (by rw [hw]; exact hidx), hw]

theorem accept_true (s : State) {ok : Bool} (h : ok = true) (t : State) : accept s ok t = (t, .done) := if_pos h

theorem fld_top {v : Word64} (h : v.toNat < 2 ^ 56) : (fld v 63 56 == 0) = true := by
  simp only [fld, bits, Nat.div_eq_of_lt h]
  rfl

theorem fld_zero {v : Word64} {n : Nat} (h : v.toNat % 2 ^ (n + 1) = 0) : (fld v n 0 == 0) = true := by
  simp only [fld, bits, pow_zero, Nat.div_one]
  exact beq_iff_eq.mpr h

/-- A page-aligned address is taken, when no launch is bound to the partition. -/
theorem quietAddress {n : Nat} (hquiet : partQuiet s = true) (hlow : v.toNat < 2 ^ 56) (hal : v.toNat % 2 ^ (n + 1) = 0) :
    (partQuiet s && fld v 63 56 == 0 && fld v n 0 == 0) = true := by rw [hquiet, fld_top hlow, fld_zero hal]; rfl

theorem dlallow_taken (hquiet : partQuiet s = true) (hlo : 4096 ≤ v.toNat) (hhi : v.toNat < 2 ^ 24) :
    (partQuiet s && fld v 63 24 == 0 && decide (4096 ≤ v.toNat)) = true := by
  have hfld : fld v 63 24 = 0 := by simp only [fld, bits, Nat.div_eq_of_lt hhi, Nat.zero_mod]
  rw [hquiet, hfld, decide_eq_true hlo]
  rfl

/-- The answer of a write that is taken, with memory as it was. -/
def answered (s t : State) : Prop := t.dev.replies = s.dev.replies ++ [(0, [])] ∧ t.part.mem = s.part.mem

theorem equota_taken (hfn : fn.toNat = s.part.idx + 1) :
    ∃ t, exec (.registerWrite fn .equota v) s = .next t ∧ t.part.equota = v ∧ answered s t := by
  obtain ⟨m, x, d, h⟩ := setQuota_eq s v
  have hw : writeVF s .equota v = ({ s with dev.queues := m, part.equota := v, part.ex := x, part.decision := d }, .done) := by
    rw [← h]
    rfl
  exact ⟨_, registerWrite_done (fun _ _ _ => rfl) hfn hw rfl, rfl, rfl, rfl⟩

theorem group_taken {g : BitVec 8} {rest : List Word64} (hfn : fn.toNat = s.part.idx + 1) (hg : g.toNat < groupCount s)
    (hok : groupOk s g.toNat (v :: rest) = true) :
    ∃ t, exec (.registerWrite fn (.group g rest) v) s = .next t ∧
      (∀ i, i < 8 → groupWord t g.toNat i = listAt 0 (v :: rest) i) ∧ answered s t := by
  have hlen : (v :: rest).length = 8 := by
    simp only [groupOk, Bool.and_eq_true, beq_iff_eq] at hok
    tauto
  obtain ⟨hwords, hmem, hidx, hdev⟩ := setGroup_words s g.toNat hlen
  have hw : writeVF s (.group g rest) v = (setGroup s g.toNat (v :: rest), .done) := by
    show (if groupCount s ≤ g.toNat then (s, Status.notPermitted) else _) = _
    rw [if_neg (Nat.not_le.mpr hg), accept_true s hok]
  refine ⟨_, registerWrite_done (fun _ _ _ => rfl) hfn hw hidx, hwords, ?_, hmem⟩
  show (setGroup s g.toNat (v :: rest)).dev.replies ++ _ = _
  rw [hdev]
  rfl

/-- The registers that a VF's write enters, those that are read only, and those of the root (R408, R410). -/
theorem vfRegisters (hfn : fn.toNat = s.part.idx + 1) (hquiet : partQuiet s = true) :
    let takes (r : Reg) (P : State → Prop) : Prop :=
      ∃ t, exec (.registerWrite fn r v) s = .next t ∧ P t ∧ t.dev.replies = s.dev.replies ++ [(0, [])] ∧ t.part.mem = s.part.mem
    (v.toNat < 2 ^ 56 → v.toNat % 2 ^ 11 = 0 → takes .ptroot (fun t => t.part.ptroot = v)) ∧
    (v.toNat < 2 ^ 56 → v.toNat % 2 ^ 17 = 0 → takes .vsbase (fun t => t.part.vsbase = v)) ∧
    (v.toNat < 2 ^ 56 → v.toNat % 2 ^ 17 = 0 → takes .vsize (fun t => t.part.vsize = v)) ∧
    (4096 ≤ v.toNat → v.toNat < 2 ^ 24 → takes .dlallow (fun t => t.part.dlallow = v.toNat)) ∧
    (v.toNat < 2 ^ 56 → v.toNat % 2 ^ 16 = 0 → takes .ctxbase (fun t => t.part.ctxbase = v)) ∧
    takes .ctxn (fun t => t.part.ctxn = v &&& 0xFF) ∧
    takes .equota (fun t => t.part.equota = v) ∧
    (∀ n hi, bpOk hi v = true → takes (.bp n hi) (fun t => mget 0 t.part.bp (2 * n.toNat + b2n hi) = v &&& bpMask hi)) ∧
    (∀ g rest, g.toNat < groupCount s → groupOk s g.toNat (v :: rest) = true →
      (groupBusy s g.toNat = false →
        takes (.group g rest) (fun t => ∀ i, i < 8 → groupWord t g.toNat i = listAt 0 (v :: rest) i)) ∧
      ∃ t, exec (.registerWrite fn (.group g rest) v) s = .next t ∧
        ∀ i, i < 8 → groupWord t g.toNat i = listAt 0 (v :: rest) i) ∧
    (∀ r ∈ [Reg.ident, .ready false, .ready true], exec (.registerWrite fn r v) s = .next (reply s .refused)) ∧
    (∀ r ∈ [Reg.retire, .drainctl, .mr 0], exec (.registerWrite fn r v) s = .next (reply s .notPermitted)) := by
  have htakes {r : Reg} {t : State} (hr : ofVF r) (hw : writeVF s r v = (t, .done)) (hidx : t.part.idx = s.part.idx) :=
    registerWrite_done hr hfn hw hidx
  dsimp only
  refine ⟨fun hlow hal => ?_, fun hlow hal => ?_, fun hlow hal => ?_, fun hlo hhi => ?_, fun hlow hal => ?_, ?_, equota_taken hfn,
    fun n hi hok => ?_, fun g rest hg hok => ?_, fun r hr => ?_, fun r hr => ?_⟩
  · exact ⟨_, htakes (fun _ _ _ => rfl) (accept_true s (quietAddress hquiet hlow hal) _) rfl, rfl, rfl, rfl⟩
  · exact ⟨_, htakes (fun _ _ _ => rfl) (accept_true s (quietAddress hquiet hlow hal) _) rfl, rfl, rfl, rfl⟩
  · exact ⟨_, htakes (fun _ _ _ => rfl) (accept_true s (quietAddress hquiet hlow hal) _) rfl, rfl, rfl, rfl⟩
  · exact ⟨_, htakes (fun _ _ _ => rfl) (accept_true s (dlallow_taken hquiet hlo hhi) _) rfl, rfl, rfl, rfl⟩
  · exact ⟨_, htakes (fun _ _ _ => rfl) (accept_true s (quietAddress hquiet hlow hal) _) rfl, rfl, rfl, rfl⟩
  · exact ⟨_, htakes (fun _ _ _ => rfl) (accept_true s hquiet _) rfl, rfl, rfl, rfl⟩
  · exact ⟨_, htakes (fun _ _ _ => rfl) (accept_true s hok _) rfl, mget_mput_same .., rfl, rfl⟩
  · obtain ⟨t, ht, hwords, hreply, hmem⟩ := group_taken hfn hg hok
    exact ⟨fun _ => ⟨t, ht, hwords, hreply, hmem⟩, t, ht, hwords⟩
  · simp only [List.mem_cons, List.not_mem_nil, or_false] at hr
    obtain rfl | rfl | rfl := hr <;> rfl
  · have hvf : isMgmt fn = false := by rw [isMgmt, hfn]; rfl
    simp only [List.mem_cons, List.not_mem_nil, or_false] at hr
    obtain rfl | rfl | rfl := hr
    · rfl
    · exact if_pos hvf
    · rfl

end

/-! ### Writes by the management function (R312, R331) -/

section
variable {s : State} {v : Word64}

theorem drainctl_taken (hok : drainctlOk v = true) (hidle : anyDrain s = false) :
    ∃ t, exec (.registerWrite 0 .drainctl v) s = .next t ∧ t.dev.drainctl = v := by
  have hexec : exec (.registerWrite 0 .drainctl v) s = .next (reply { s with dev.drainctl := v } .done) := by
    have hgo : (drainctlOk v && !anyDrain s) = true := by rw [hok, hidle]; rfl
    exact if_pos hgo
  exact ⟨_, hexec, rfl⟩

theorem queueRec_taken {q : BitVec 15} (hq : qPart s q.toNat = s.part.idx) (hok : queueWordOk s q.toNat 0 v = true) :
    ∃ t, exec (.registerWrite 0 (.queueRec q 0) v) s = .next t ∧ qword t q.toNat 0 = v := by
  obtain ⟨m, d, hcatch, hm⟩ := catchUp_eq s (putQueueWord s q.toNat 0 v)
  have hfocus : focusPart s (qPart s q.toNat) = some s := by rw [hq, focusPart_self]
  have hput : putQueueWord s q.toNat 0 v = setQword s q.toNat 0 v := rfl
  have hself : inPart s (qPart s q.toNat) (fun t => catchUp t (putQueueWord t q.toNat 0 v)) =
      catchUp s (putQueueWord s q.toNat 0 v) := by
    rw [hq]
    exact inPart_self (by rw [hcatch]; rfl)
  have hexec : exec (.registerWrite 0 (.queueRec q 0) v) s = .next (reply (catchUp s (putQueueWord s q.toNat 0 v)) .done) := by
    show Host.Outcome.next (queueRecWrite s q.toNat 0 v) = _
    have hrec : recordOk s q.toNat 0 v = true := by rw [recordOk, hfocus]; exact hok
    have hword : ¬ (0 : Nat) = 3 := by decide
    simp only [queueRecWrite, hrec, if_true, hword, if_false, hfocus, hself]
  refine ⟨_, hexec, ?_⟩
  rw [hcatch]
  have hkey : (8 * q.toNat + 0) % 8 ≠ 4 := by omega
  exact (hm _ hkey).trans (mget_mput_same ..)

end

/-! ### Energy and counters (R365, R397) -/

section
variable {s : State} {fn : BitVec 5}

theorem eusedClear_clears (hfn : fn.toNat = s.part.idx + 1) :
    ∃ t, exec (.eusedClear fn 0) s = .next t ∧ t.part.spent = 0 ∧ t.part.shared = 0 ∧
      t.dev.replies = s.dev.replies ++ [(0, [])] := by
  obtain ⟨m, x, d, h⟩ := setQuota_eq { s with part.spent := 0, part.shared := 0 } s.part.equota
  have hexec : exec (.eusedClear fn 0) s =
      .next (reply (setQuota { s with part.spent := 0, part.shared := 0 } s.part.equota) .done) := by
    show Host.Outcome.next (vfReply s fn _) = _
    rw [vfReply_self hfn]
    · rfl
    · show (setQuota { s with part.spent := 0, part.shared := 0 } s.part.equota).part.idx = _
      rw [h]
  rw [h] at hexec
  exact ⟨_, hexec, rfl, rfl, rfl⟩

theorem counterClear_clears (hfn : fn.toNat = s.part.idx + 1) (c : Counter) :
    ∃ t, exec (.counterClear fn c 0) s = .next t ∧ mget 0 t.part.counts (counterKey c) = 0 ∧
      ∀ k, k ≠ counterKey c → mget 0 t.part.counts k = mget 0 s.part.counts k := by
  have hexec : exec (.counterClear fn c 0) s =
      .next (reply { s with part.counts := mput 0 s.part.counts (counterKey c) 0 } .done) := by
    show Host.Outcome.next (vfReply s fn _) = _
    rw [vfReply_self hfn] <;> rfl
  exact ⟨_, hexec, mget_mput_same .., fun k hk => mget_mput_ne _ _ _ hk⟩

/-- A value other than zero clears nothing. -/
theorem accept_nonzero {v : Word64} (hv : v ≠ 0) (s t : State) : accept s (v == 0) t = (s, .refused) := by
  rw [accept, beq_eq_false_iff_ne.mpr hv, if_neg Bool.false_ne_true]

theorem eusedClear_refused (hfn : fn.toNat = s.part.idx + 1) {v : Word64} (hv : v ≠ 0) :
    exec (.eusedClear fn v) s = .next (reply s .refused) := by
  show Host.Outcome.next (vfReply s fn _) = _
  rw [vfReply_self hfn] <;> rw [accept_nonzero hv]

theorem counterClear_refused (hfn : fn.toNat = s.part.idx + 1) (c : Counter) {v : Word64} (hv : v ≠ 0) :
    exec (.counterClear fn c v) s = .next (reply s .refused) := by
  show Host.Outcome.next (vfReply s fn _) = _
  rw [vfReply_self hfn] <;> rw [accept_nonzero hv]

end

end Sys2Proof.Machine
end

section
/-! Binding, resets and layouts (R354, R356, R357). -/

set_option Elab.async false

namespace Sys2Proof.Machine

open Sys2Proof.Laws

/-! ### Resets (R357) -/

/-- A virtual core as a reset leaves it. -/
def blankVC (v : VC) : Prop := v.run = .idle ∧ v.ctl.x = [] ∧ v.chip = []

/-- The virtual cores that a reset leaves. -/
theorem blankVC_init {v : VC} {n : Nat} {l : List VC} (h : v ∈ VC.init n :: l.map (fun x => VC.init x.id)) : blankVC v := by
  obtain rfl | h := List.mem_cons.mp h
  · exact ⟨rfl, rfl, rfl⟩
  · obtain ⟨x, -, rfl⟩ := List.mem_map.mp h
    exact ⟨rfl, rfl, rfl⟩

/-- What the steps of a reset that close an open epoch leave as it was. -/
def resetView (s : State) : VC × List VC × Nat × Bool × List (Nat × List Word64) :=
  (s.vc, s.peers, s.part.idx, s.part.bound, s.dev.replies)

theorem deviceVoteSend_eq (s : State) : ∃ x o l, exec .deviceVoteSend s =
    .next { s with part.voted := x, part.outbox := o, part.charges := l } := by
  have hstay : ∃ x o l, Host.Outcome.next s = (Host.Outcome.next { s with part.voted := x, part.outbox := o, part.charges := l } : Out) :=
    ⟨s.part.voted, s.part.outbox, s.part.charges, rfl⟩
  show ∃ x o l, execDeviceVoteSend s = _
  unfold execDeviceVoteSend
  split
  · exact hstay
  · dsimp only
    split
    · exact hstay
    · obtain ⟨l, hl⟩ := chargeFor_eq { s with part.voted := true } s.part.stepTag (some 0) .vote 1
      rw [hl]
      generalize leBytes _ 8 = d
      obtain ⟨o, l', hl'⟩ := sendFor_eq { s with part.voted := true, part.charges := l } s.part.stepTag (some 0) _ d
      exact ⟨_, _, _, congrArg Host.Outcome.next hl'⟩

theorem resetView_closeEpoch (s : State) : resetView (closeEpoch s false) = resetView s := by
  unfold closeEpoch
  split
  · rfl
  · exact takeBackSeqs_keeps resetView (fun _ _ _ => rfl) _

/-- The state of a reset that begins, with nothing of the partition's requests under way. -/
def quieted (s : State) : State := { s with part.outbox := [], part.reports := [] }

/-- The open step is voted down and aborted (R357, step 1). -/
def votedDown (s : State) : State :=
  if s.part.openEp.isSome then
    (match execDeviceVoteSend { quieted s with part.devVote := s.part.devVote ||| 512 } with
     | .next t => { closeEpoch (handAll t) false with part.epSeqs := [] }
     | _ => quieted s)
  else quieted s

/-- The partition is resetting (R357, steps 2 and 3). -/
def resetBegun (s : State) : State :=
  { s with
    part.reset := some s.vc.now, part.wasBound := s.part.bound, part.drains := [], part.drainQ := [],
    part.waits := [], launch.msgs := [], launch.maps := [], launch.req := none, launch.frozen := none,
    vc := VC.init s.vc.id, peers := s.peers.map (fun v => VC.init v.id) }

theorem startReset_eq (s : State) : startReset s = resetBegun (votedDown s) := rfl

theorem votedDown_spec (s : State) : resetView (votedDown s) = resetView s ∧ (votedDown s).part.openEp = none := by
  unfold votedDown
  cases hep : s.part.openEp with
  | none => exact ⟨rfl, hep⟩
  | some p =>
    obtain ⟨ep, g, dr⟩ := p
    obtain ⟨t, ht, hview, hopen⟩ : ∃ t, execDeviceVoteSend { quieted s with part.devVote := s.part.devVote ||| 512 } = .next t ∧
        resetView t = resetView s ∧ t.part.openEp = s.part.openEp := by
      obtain ⟨x, o, l, hvote⟩ := deviceVoteSend_eq { quieted s with part.devVote := s.part.devVote ||| 512 }
      exact ⟨_, hvote, rfl, rfl⟩
    rw [ht, Option.isSome_some, if_pos rfl]
    exact ⟨(resetView_closeEpoch (handAll t)).trans hview, (closeEpoch_abort (s := handAll t) (hopen.trans hep)).1⟩

theorem startReset_spec (s : State) : (startReset s).part.reset = some s.vc.now ∧ (startReset s).part.wasBound = s.part.bound ∧
    (startReset s).part.openEp = none ∧ (startReset s).part.drains = [] ∧ (∀ c ∈ (startReset s).vcs, blankVC c) ∧
    (startReset s).part.idx = s.part.idx ∧ (startReset s).dev.replies = s.dev.replies := by
  obtain ⟨hview, hep⟩ := votedDown_spec s
  simp only [resetView, Prod.mk.injEq] at hview
  obtain ⟨hvc, -, hidx, hbound, hreplies⟩ := hview
  rw [startReset_eq]
  exact ⟨congrArg (fun v : VC => some v.now) hvc, hbound, hep, rfl, fun c hc => blankVC_init hc, hidx, hreplies⟩

/-! ### Commands of PCTL (R356) -/

section
variable {s : State} {fn : BitVec 5} {q : BitVec 4} {v : Word64}

theorem inPartReply_self {f : State → State × Status} (h : (f s).1.part.idx = s.part.idx) :
    inPartReply s s.part.idx f = reply (f s).1 (f s).2 := by
  have hback : focusPart (f s).1 s.part.idx = some (f s).1 := if_pos h
  rw [inPartReply, focusPart_self]
  dsimp only
  rw [hback]

/-- The partition with the scrub bit of a command. -/
def scrubSet (s : State) (v : Word64) : State := { s with part.scrub := v.getLsbD 5 }

/-- What a command of PCTL does. -/
def pctlCommand (u : State) : Nat → State × Status
  | 0 => (u, .done)
  | 1 => bindPart u
  | 2 => unbindPart u
  | _ => resetPart u

/-- A write of PCTL in its partition, which takes it or is left as it was. -/
def pctlTake (v : Word64) (t : State) : State × Status :=
  if fld v 63 8 ≠ 0 ∨ fld v 4 2 ≠ 0 ∨ t.part.reset.isSome = true then (t, .refused)
  else
    match (pctlCommand { t with part.scrub := fld v 5 5 == 1 } (fld v 1 0)).2 with
    | .done => pctlCommand { t with part.scrub := fld v 5 5 == 1 } (fld v 1 0)
    | st => (t, st)

theorem pctlWrite_own (h : (isMgmt fn || isVF fn q.toNat) = true) (hq : q.toNat = s.part.idx) :
    pctlWrite s fn q v = inPartReply s s.part.idx (pctlTake v) := by
  unfold pctlWrite
  rw [if_pos h, hq, focusPart_self]
  rfl

/-- A command that the partition takes is answered. -/
theorem pctlWrite_done {t : State} (hfn : fn = 0 ∨ fn.toNat = q.toNat + 1) (hq : q.toNat = s.part.idx) (hv : v.toNat < 2 ^ 8)
    (hzero : v.toNat / 4 % 8 = 0) (hreset : s.part.reset = none) {k : Nat} (hk : v.toNat % 4 = k)
    (hrun : pctlCommand (scrubSet s v) k = (t, .done)) (hidx : t.part.idx = s.part.idx) :
    pctlWrite s fn q v = reply t .done := by
  have hallowed : (isMgmt fn || isVF fn q.toNat) = true := by
    obtain rfl | h := hfn
    · rfl
    · rw [isVF, h, beq_self_eq_true, Bool.or_true]
  have hfields : ¬ (fld v 63 8 ≠ 0 ∨ fld v 4 2 ≠ 0 ∨ s.part.reset.isSome = true) := by
    have hhigh : fld v 63 8 = 0 := by simp only [fld, bits, Nat.div_eq_of_lt hv, Nat.zero_mod]
    have hmid : fld v 4 2 = 0 := hzero
    simp [hhigh, hmid, hreset]
  have hscrub : { s with part.scrub := fld v 5 5 == 1 } = scrubSet s v := by rw [fld_bit]; rfl
  have hcmd : fld v 1 0 = k := (congrArg (· % 4) (Nat.div_one _)).trans hk
  have htake : pctlTake v s = (t, .done) := by
    rw [pctlTake, if_neg hfields, hscrub, hcmd, hrun]
  rw [pctlWrite_own hallowed hq, inPartReply_self (by rw [htake]; exact hidx), htake]

theorem pctlBind_binds (hfn : fn = 0 ∨ fn.toNat = q.toNat + 1) (hq : q.toNat = s.part.idx) (hv : v.toNat < 2 ^ 8)
    (hzero : v.toNat / 4 % 8 = 0) (hreset : s.part.reset = none) (hcmd : v.toNat % 4 = 1) (hbound : s.part.bound = false)
    (hready : partReady s = true) :
    ∃ t, exec (.pctlBind fn q v) s = .next t ∧ t.part.bound = true ∧ t.part.scrub = v.getLsbD 5 ∧
      t.part.pw = Nat.min (256 / s.m) (256 - otherWeights s) ∧ t.dev.replies = s.dev.replies ++ [(0, [])] := by
  have hok : (!(scrubSet s v).part.bound && (scrubSet s v).part.reset.isNone && partReady (scrubSet s v)) = true := by
    show (!s.part.bound && s.part.reset.isNone && partReady s) = true
    rw [hbound, hreset, hready]
    rfl
  obtain ⟨m, d, hcatch, -⟩ := catchUp_eq (scrubSet s v) { scrubSet s v with
    part.bound := true, part.pw := Nat.min (256 / s.m) (256 - otherWeights s) }
  have hrun : pctlCommand (scrubSet s v) 1 = _ := (accept_true (scrubSet s v) hok _).trans (congrArg (·, Status.done) hcatch)
  exact ⟨_, congrArg Host.Outcome.next (pctlWrite_done hfn hq hv hzero hreset hcmd hrun rfl), rfl, rfl, rfl, rfl⟩

theorem pctlUnbind_unbinds (hfn : fn = 0 ∨ fn.toNat = q.toNat + 1) (hq : q.toNat = s.part.idx) (hv : v.toNat < 2 ^ 8)
    (hzero : v.toNat / 4 % 8 = 0) (hreset : s.part.reset = none) (hcmd : v.toNat % 4 = 2) (hbound : s.part.bound = true)
    (hlive : s.launch.live = false) (hsaved : s.part.saved = []) :
    ∃ t, exec (.pctlUnbind fn q v) s = .next t ∧ t.part.bound = false ∧ t.dev.replies = s.dev.replies ++ [(0, [])] := by
  have hok : ((scrubSet s v).part.bound && (scrubSet s v).part.reset.isNone && !(scrubSet s v).launch.live &&
      (scrubSet s v).part.saved.isEmpty) = true := by
    show (s.part.bound && s.part.reset.isNone && !s.launch.live && s.part.saved.isEmpty) = true
    rw [hbound, hreset, hlive, hsaved]
    rfl
  have hrun : pctlCommand (scrubSet s v) 2 = _ := accept_true (scrubSet s v) hok _
  exact ⟨_, congrArg Host.Outcome.next (pctlWrite_done hfn hq hv hzero hreset hcmd hrun rfl), rfl, rfl⟩

theorem pctlReset_resets (hfn : fn = 0 ∨ fn.toNat = q.toNat + 1) (hq : q.toNat = s.part.idx) (hv : v.toNat < 2 ^ 8)
    (hzero : v.toNat / 4 % 8 = 0) (hreset : s.part.reset = none) (hcmd : v.toNat % 4 = 3) :
    ∃ t, exec (.pctlReset fn q v) s = .next t ∧ t.part.reset = some s.vc.now ∧ t.part.wasBound = s.part.bound ∧
      t.part.openEp = none ∧ t.part.drains = [] ∧ (∀ c ∈ t.vcs, blankVC c) ∧ t.dev.replies = s.dev.replies ++ [(0, [])] := by
  have hok : (scrubSet s v).part.reset.isNone = true := by
    show s.part.reset.isNone = true
    rw [hreset]
    rfl
  obtain ⟨hbegun, hwas, hep, hdrains, hvcs, hidx, hreplies⟩ := startReset_spec (scrubSet s v)
  have hrun : pctlCommand (scrubSet s v) 3 = _ := accept_true (scrubSet s v) hok (startReset (scrubSet s v))
  exact ⟨_, congrArg Host.Outcome.next (pctlWrite_done hfn hq hv hzero hreset hcmd hrun hidx), hbegun, hwas, hep, hdrains, hvcs,
    congrArg (· ++ [(0, [])]) hreplies⟩

end

/-! ### The end of a reset (R357) -/

/-- Nothing but the device differs, and its answers stand. -/
def deviceOnly (s t : State) : Prop := ∃ d, t = { s with dev := d } ∧ d.replies = s.dev.replies

theorem deviceOnly_refl (s : State) : deviceOnly s s := ⟨s.dev, rfl, rfl⟩

theorem deviceOnly_trans {s t u : State} (h : deviceOnly s t) (k : deviceOnly t u) : deviceOnly s u := by
  obtain ⟨d, rfl, hd⟩ := h
  obtain ⟨e, rfl, he⟩ := k
  exact ⟨e, rfl, he.trans hd⟩

theorem deviceOnly_foldl {α : Type} {f : State → α → State} (hf : ∀ t x, deviceOnly t (f t x)) (l : List α) (s : State) :
    deviceOnly s (l.foldl f s) := by
  induction l generalizing s with
  | nil => exact deviceOnly_refl s
  | cons x r ih => exact deviceOnly_trans (hf s x) (ih _)

theorem deviceOnly_replaceCore (s : State) (u k : Nat) : deviceOnly s (replaceCore s u k) := by
  unfold replaceCore
  dsimp only
  split <;> exact ⟨_, rfl, rfl⟩

theorem deviceOnly_replaceRows (s : State) : deviceOnly s (replaceRows s) := by
  refine deviceOnly_foldl (fun t k => ?_) _ s
  dsimp only
  split
  · exact ⟨_, rfl, rfl⟩
  · split <;> exact ⟨_, rfl, rfl⟩

/-- Repairs, replacements and retirements are the device's (R257, R393, R395). -/
theorem deviceOnly_repairs (s : State) : deviceOnly s (retireSlices (replaceMarked (replaceRows s))) :=
  deviceOnly_trans (deviceOnly_replaceRows s)
    (deviceOnly_trans (deviceOnly_foldl (fun t _ => deviceOnly_replaceCore t _ _) _ _) ⟨_, rfl, rfl⟩)

theorem deviceOnly_setQword (s : State) (q w : Nat) (v : Word64) : deviceOnly s (setQword s q w v) := ⟨_, rfl, rfl⟩

theorem deviceOnly_clearValid (s : State) : deviceOnly s (clearValid s) :=
  deviceOnly_foldl (fun t q => deviceOnly_setQword t q 3 _) _ s

/-- What the steps of a reset that drop lines of memory leave as it was. -/
def wipeView (s : State) : Launch × List Saved × Nat × List (Nat × List Word64) :=
  (s.launch, s.part.saved, s.part.idx, s.dev.replies)

theorem wipeView_loseLine (s : State) (line : Nat) : wipeView (loseLine s line) = wipeView s := by
  unfold loseLine
  generalize (countUp 0 128).map _ = d
  rfl

theorem wipeView_dropped (s : State) : wipeView (repairRows { loseDirty s with
    part.blocks := s.part.blocks.map (fun p => (p.1, { p.2 with copy := false })) }) = wipeView s := by
  have hlose (l : List Nat) (t : State) : wipeView (l.foldl loseLine t) = wipeView t := foldl_keeps wipeView_loseLine l t
  have hdirty : wipeView (loseDirty s) = wipeView s :=
    foldl_keeps (fun (t : State) (p : L2Line) => wipeView_loseLine t p.line) _ s
  exact (hlose _ _).trans hdirty

/-- The partition as its reset has wiped it. -/
def wipedAs (s t : State) : Prop :=
  wipeView t = wipeView s ∧ t.part.groups = [] ∧ t.part.windows = [] ∧ t.part.darns = [] ∧ t.part.counts = [] ∧
  (s.part.scrub = true → t.part.mem = []) ∧ ∀ c ∈ t.vcs, blankVC c

theorem wipedAs_deviceOnly {s t u : State} (h : wipedAs s t) (k : deviceOnly t u) : wipedAs s u := by
  obtain ⟨hview, hgroups, hwindows, hdarns, hcounts, hmem, hvcs⟩ := h
  obtain ⟨d, rfl, hd⟩ := k
  refine ⟨?_, hgroups, hwindows, hdarns, hcounts, hmem, hvcs⟩
  rw [← hview]
  exact congrArg (fun r => (t.launch, t.part.saved, t.part.idx, r)) hd

theorem wipedAs_wipePart (s : State) : wipedAs s (wipePart s) := by
  unfold wipePart
  dsimp only
  split
  next hscrub =>
    obtain ⟨l, hl⟩ := chargeTo_eq { s with part.mem := [], part.poison := [], part.blocks := [] } none .hbm (s.cp / 128)
    rw [hl]
    refine wipedAs_deviceOnly ?_ (deviceOnly_repairs _)
    exact ⟨rfl, rfl, rfl, rfl, rfl, fun _ => rfl, fun c hc => blankVC_init hc⟩
  next hscrub =>
    have hview := wipeView_dropped s
    generalize repairRows { loseDirty s with
      part.blocks := s.part.blocks.map (fun p => (p.1, { p.2 with copy := false })) } = u at hview ⊢
    refine wipedAs_deviceOnly ?_ (deviceOnly_repairs _)
    exact ⟨hview, rfl, rfl, rfl, rfl, fun h => absurd h hscrub, fun c hc => blankVC_init hc⟩

theorem endAll_none {s : State} (hlive : s.launch.live = false) (hsaved : s.part.saved = []) : endAll s = .next s := by
  unfold endAll
  rw [hlive, hsaved]
  rfl

theorem functionResetComplete_spec {s : State} {b : Nat} (hreset : s.part.reset = some b) (hlive : s.launch.live = false)
    (hsaved : s.part.saved = []) :
    ∃ t, exec .functionResetComplete s = .next t ∧ t.part.reset = none ∧ t.part.bound = s.part.wasBound ∧
      t.part.ptroot = 0 ∧ t.part.vsbase = 0 ∧ t.part.vsize = 0 ∧ t.part.hmask = [] ∧ t.part.groups = [] ∧
      t.part.windows = [] ∧ t.part.darns = [] ∧ t.part.counts = [] ∧
      (s.part.scrub = true → ∀ a, physByte t a = 0) ∧ ∀ c ∈ t.vcs, blankVC c := by
  have hwiped := wipedAs_wipePart s
  have hview := hwiped.1
  simp only [wipeView, Prod.mk.injEq] at hview
  obtain ⟨hlaunch, hslots, -, -⟩ := hview
  have hend : endAll (wipePart s) = .next (wipePart s) := endAll_none (hlaunch ▸ hlive) (hslots.trans hsaved)
  have hcleared := wipedAs_deviceOnly hwiped (deviceOnly_clearValid (wipePart s))
  have hexec : exec .functionResetComplete s = .next { resetBlock (clearValid (wipePart s)) with
      part.saved := [], part.outbox := [], launch := .init, part.reset := none, part.bound := s.part.wasBound,
      part.wasBound := false } := by
    show execFunctionResetComplete s = _
    unfold execFunctionResetComplete
    simp only [hreset, Option.isNone_some, Bool.false_eq_true, if_false, hend]
  generalize clearValid (wipePart s) = u at hcleared hexec
  obtain ⟨-, hgroups, hwindows, hdarns, hcounts, hmem, hvcs⟩ := hcleared
  have hblank (hscrub : s.part.scrub = true) : (resetBlock u).part.mem = [] := by
    unfold resetBlock
    dsimp only
    split
    · exact hmem hscrub
    · rw [devBytes, hmem hscrub]
      rfl
  refine ⟨_, hexec, rfl, rfl, rfl, rfl, rfl, rfl, hgroups, hwindows, hdarns, hcounts, fun hscrub a => ?_, hvcs⟩
  show mget byteDefault (resetBlock u).part.mem a = 0
  rw [hblank hscrub]
  rfl

/-! ### A new layout (R354) -/

theorem inPart_replies {f : State → State} (hf : ∀ u, (f u).dev.replies = u.dev.replies) (s : State) (q : Nat) :
    (inPart s q f).dev.replies = s.dev.replies := by
  unfold inPart
  split
  · rfl
  next s1 h1 =>
    have hs : (f s1).dev.replies = s.dev.replies := by rw [hf, focusPart_dev h1]
    split
    next s3 h3 => rw [focusPart_dev h3, hs]
    · exact hs

theorem enterCharges_replies (s : State) : (enterCharges s).dev.replies = s.dev.replies := by
  have hone (t : State) (c : Charge) : (enterCharge t c).dev.replies = t.dev.replies := by
    unfold enterCharge
    split
    · unfold addAccount
      dsimp only
      split
      · rfl
      · split
        · unfold updVC
          split <;> rfl
        · rfl
    · rfl
  exact foldl_keeps (f := fun t : State => t.dev.replies) hone s.part.charges { s with part.charges := [] }

/-- A partition that is torn down answers nothing. -/
theorem tornDown_replies (s : State) : (enterCharges (clearValid (wipePart (handAll s)))).dev.replies = s.dev.replies := by
  obtain ⟨hview, -⟩ := wipedAs_deviceOnly (wipedAs_wipePart (handAll s)) (deviceOnly_clearValid _)
  rw [enterCharges_replies]
  exact congrArg (fun p : Launch × List Saved × Nat × List (Nat × List Word64) => p.2.2.2) hview

theorem newLayout_spec (s : State) (lq : Nat) : (newLayout s lq).dev.lq = lq ∧ (newLayout s lq).others.length + 1 = 2 ^ lq ∧
    (newLayout s lq).part.bound = false ∧ (newLayout s lq).dev.replies = s.dev.replies := by
  have hreplies := foldl_keeps (f := fun t : State => t.dev.replies)
    (fun t q => inPart_replies tornDown_replies t q) s.partIds s
  unfold newLayout
  dsimp only
  generalize s.partIds.foldl _ s = wiped at hreplies ⊢
  generalize wiped.partIds.flatMap _ = bytes
  split
  next hnone =>
    have hlen := congrArg List.length hnone
    rw [List.length_map, length_countUp, List.length_nil] at hlen
    exact absurd hlen (Nat.two_pow_pos lq).ne'
  next x r hsome =>
    have hlen := congrArg List.length hsome
    rw [List.length_map, length_countUp, List.length_cons] at hlen
    have hx : x ∈ x :: r := List.mem_cons_self
    rw [← hsome] at hx
    obtain ⟨i, -, rfl⟩ := List.mem_map.mp hx
    exact ⟨rfl, hlen.symm, rfl, hreplies⟩

theorem playoutWrite_takes {s : State} {v : Word64} (hv : v.toNat < 5) (hidle : allIdle s = true)
    (hlive : slicesLive (newLayout s v.toNat) = true) :
    ∃ t, exec (.playoutWrite 0 v) s = .next t ∧ t.dev.lq = v.toNat ∧ t.others.length + 1 = 2 ^ v.toNat ∧
      t.part.bound = false ∧ t.dev.replies = s.dev.replies ++ [(0, [])] := by
  obtain ⟨hlq, hothers, hbound, hreplies⟩ := newLayout_spec s v.toNat
  have hexec : exec (.playoutWrite 0 v) s = .next (reply (newLayout s v.toNat) .done) := by
    show execPlayoutWrite 0 v s = _
    have hgo : ¬ (5 ≤ v.toNat ∨ allIdle s = false) := by simp [hv, hidle]
    rw [execPlayoutWrite, if_neg (by decide), if_neg hgo]
    dsimp only
    rw [hlive, if_pos rfl]
  exact ⟨_, hexec, hlq, hothers, hbound, congrArg (· ++ [(0, [])]) hreplies⟩

theorem playoutWrite_refused {s : State} {v : Word64}
    (h : 5 ≤ v.toNat ∨ allIdle s = false ∨ slicesLive (newLayout s v.toNat) = false) :
    exec (.playoutWrite 0 v) s = .next (reply s .refused) := by
  show execPlayoutWrite 0 v s = _
  rw [execPlayoutWrite, if_neg (by decide)]
  split
  · rfl
  next hgo =>
    obtain h | h | h := h
    · exact absurd (.inl h) hgo
    · exact absurd (.inr h) hgo
    · dsimp only
      rw [h, if_neg Bool.false_ne_true]

theorem playoutWrite_notPermitted {fn : BitVec 5} (h : fn ≠ 0) (s : State) (v : Word64) :
    exec (.playoutWrite fn v) s = .next (reply s .notPermitted) := by
  have hvf : isMgmt fn = false := beq_eq_false_iff_ne.mpr fun he => h (BitVec.eq_of_toNat_eq he)
  exact if_pos hvf

end Sys2Proof.Machine
end

section
/-! Images, power-on, quotes and reads (R356, R365, R406, R408, R411 to R413). -/

set_option Elab.async false

namespace Sys2Proof.Machine

open Sys2Proof.Laws

/-! ### Images (R411, R412) -/

theorem installCoefs_dev (s : State) (img : Image) : (installCoefs s img).dev = s.dev :=
  foldl_dev (fun t q => inPart_dev (f := fun u => { u with part.nextCoefs := some (img.cset.toNat, img.coefs) }) (fun _ => rfl) t q) _ s

/-- What an image that takes effect changes of the measurements and the versions, and what it leaves of the device. -/
theorem installImage_dev (s : State) (img : Image) : (installImage s img).dev.images = s.dev.images ∧
    (installImage s img).dev.replies = s.dev.replies ∧
    mget 0 (installImage s img).dev.versions (imageKind img.kind) = img.version.toNat ∧
    mrOf (installImage s img) (imageMr img.kind) = sha384 (mrOf s (imageMr img.kind) ++ sha384 img.bytes) := by
  let s1 := extendMr { s with dev.versions := mput 0 s.dev.versions (imageKind img.kind) img.version.toNat } (imageMr img.kind)
    img.bytes
  have hcoefs : (installCoefs s1 img).dev = s1.dev := installCoefs_dev s1 img
  have hfrom {t : State} (himages : t.dev.images = s1.dev.images) (hreplies : t.dev.replies = s1.dev.replies)
      (hversions : t.dev.versions = s1.dev.versions) (hmr : t.dev.mr = s1.dev.mr) :
      t.dev.images = s.dev.images ∧ t.dev.replies = s.dev.replies ∧
      mget 0 t.dev.versions (imageKind img.kind) = img.version.toNat ∧
      mrOf t (imageMr img.kind) = sha384 (mrOf s (imageMr img.kind) ++ sha384 img.bytes) := by
    refine ⟨himages, hreplies, ?_, ?_⟩
    · rw [hversions]
      exact mget_mput_same ..
    · rw [mrOf, hmr]
      exact mget_mput_same ..
  unfold installImage
  dsimp only
  split
  · exact hfrom rfl rfl rfl rfl
  · have himages : (installCoefs s1 img).dev.images = s1.dev.images := by rw [hcoefs]
    have hreplies : (installCoefs s1 img).dev.replies = s1.dev.replies := by rw [hcoefs]
    have hversions : (installCoefs s1 img).dev.versions = s1.dev.versions := by rw [hcoefs]
    have hmr : (installCoefs s1 img).dev.mr = s1.dev.mr := by rw [hcoefs]
    exact hfrom himages hreplies hversions hmr
  · exact hfrom rfl rfl rfl rfl
  · exact hfrom rfl rfl rfl rfl

/-- The state that keeps an image which the root has accepted. -/
def imageKept (s : State) (img : Image) : State := { s with dev.images := keepImage s.dev.images img }

/-- An accepted image is kept, and takes effect at once when the monitor is there to install it, or is a monitor itself. -/
theorem takeImage_cases (s : State) (img : Image) :
    takeImage s img = installImage (imageKept s img) img ∨ takeImage s img = startTraining (installImage (imageKept s img) img) ∨
    (takeImage s img = imageKept s img ∧ ¬ (img.kind = .monitor ∨ (bootImages s .monitor ≠ [] ∧ s.dev.training = none))) := by
  unfold takeImage
  dsimp only
  split
  next hkind =>
    split
    · exact .inl rfl
    · exact .inr (.inl rfl)
  next hkind =>
    split
    · exact .inl rfl
    next hwait =>
      refine .inr (.inr ⟨rfl, fun h => ?_⟩)
      obtain h | ⟨hboot, htrain⟩ := h
      · exact hkind h
      · exact hwait (by simp [hboot, htrain])

section
variable {s : State} {img : Image}

theorem firmwareImage_taken (hpow : s.dev.powered = true) (hfn : img.fn = 0) (hok : imageOkay img = true) :
    ∃ t, exec (.firmwareImage img) s = .next t ∧ img ∈ t.dev.images ∧ t.dev.replies = s.dev.replies ++ [(0, [])] ∧
      (img.kind = .monitor ∨ (bootImages s .monitor ≠ [] ∧ s.dev.training = none) →
        mget 0 t.dev.versions (imageKind img.kind) = img.version.toNat ∧
        mrOf t (imageMr img.kind) = sha384 (mrOf s (imageMr img.kind) ++ sha384 img.bytes)) := by
  have hexec : exec (.firmwareImage img) s = .next (reply (takeImage s img) .done) := by
    have hmgmt : isMgmt img.fn = true := by rw [hfn]; rfl
    show execFirmwareImage img s = _
    rw [execFirmwareImage, hpow, hmgmt, hok]
    rfl
  have hmem : img ∈ (imageKept s img).dev.images := List.mem_append_right _ List.mem_cons_self
  obtain ⟨himages, hreplies, hversion, hmr⟩ := installImage_dev (imageKept s img) img
  have hin : img ∈ (installImage (imageKept s img) img).dev.images := himages ▸ hmem
  have hanswer := congrArg (· ++ [((0 : Nat), ([] : List Word64))]) hreplies
  obtain h | h | ⟨h, hno⟩ := takeImage_cases s img
  · rw [h] at hexec
    exact ⟨_, hexec, hin, hanswer, fun _ => ⟨hversion, hmr⟩⟩
  · rw [h] at hexec
    exact ⟨_, hexec, hin, hanswer, fun _ => ⟨hversion, hmr⟩⟩
  · rw [h] at hexec
    exact ⟨_, hexec, hmem, rfl, fun hgo => absurd hgo hno⟩

theorem firmwareImage_refused (hpow : s.dev.powered = true) (hfn : img.fn = 0) (hok : imageOkay img = false) :
    exec (.firmwareImage img) s = .next (reply s .refused) := by
  have hmgmt : isMgmt img.fn = true := by rw [hfn]; rfl
  show execFirmwareImage img s = _
  rw [execFirmwareImage, hpow, hmgmt, hok]
  rfl

theorem firmwareImage_notPermitted (hpow : s.dev.powered = true) (hfn : img.fn ≠ 0) :
    exec (.firmwareImage img) s = .next (reply s .notPermitted) := by
  have hvf : isMgmt img.fn = false := beq_eq_false_iff_ne.mpr fun he => hfn (BitVec.eq_of_toNat_eq he)
  show execFirmwareImage img s = _
  rw [execFirmwareImage, hpow, hvf]
  rfl

end

/-! ### Power-on (R412, R413) -/

/-- The state at power-on, before the boot ROM looks for a monitor. -/
def poweredUp (s : State) : State := { s with dev.mr := [], dev.powered := true }

theorem boot_none {s : State} (h : bootImages s .monitor = []) : boot s = poweredUp s := by
  have h1 : bootImages (poweredUp s) .monitor = [] := h
  unfold boot
  show (match bootImages (poweredUp s) .monitor with
    | [] => poweredUp s
    | m => startTraining (m.foldl installImage (poweredUp s))) = _
  rw [h1]

theorem boot_some {s : State} {m : Image} {r : List Image} (h : bootImages s .monitor = m :: r) :
    boot s = startTraining ((m :: r).foldl installImage (poweredUp s)) := by
  have h1 : bootImages (poweredUp s) .monitor = m :: r := h
  unfold boot
  show (match bootImages (poweredUp s) .monitor with
    | [] => poweredUp s
    | m => startTraining (m.foldl installImage (poweredUp s))) = _
  rw [h1]

theorem kind_of_bootImages {s : State} {k : ImageKind} {m : Image} (h : m ∈ bootImages s k) : m.kind = k := by
  have hm := (List.mem_filter.mp h).2
  simp only [Bool.and_eq_true, decide_eq_true_eq] at hm
  exact hm.1

theorem installImage_monitor {s : State} {m : Image} (h : m.kind = .monitor) : installImage s m =
    { s with
      dev.versions := mput 0 s.dev.versions 0 m.version.toNat,
      dev.mr := mput (List.replicate 48 0) s.dev.mr 0 (sha384 (mrOf s 0 ++ sha384 m.bytes)) } := by
  unfold installImage
  rw [h]
  rfl

theorem powerOn_boots {s : State} (h : s.dev.powered = false) : exec .powerOn s = .next (boot s) := by
  show execPowerOn s = _
  rw [execPowerOn, h, if_neg Bool.false_ne_true]

theorem powerOn_monitor {s : State} {m : Image} (hpow : s.dev.powered = false) (hm : bootImages s .monitor = [m]) :
    ∃ t, exec .powerOn s = .next t ∧ t.dev.powered = true ∧ t.dev.ready = s.dev.ready ∧
      mrOf t 0 = sha384 (List.replicate 48 0 ++ sha384 m.bytes) ∧ (∀ i, i ≠ 0 → mrOf t i = List.replicate 48 0) ∧
      t.dev.training = some (countUp 64 8 ++ (countUp 0 64).filter (clusterSound s)) := by
  have hkind : m.kind = .monitor := kind_of_bootImages (hm ▸ List.mem_cons_self)
  have hexec := (powerOn_boots hpow).trans (congrArg Host.Outcome.next (boot_some hm))
  rw [List.foldl_cons, List.foldl_nil, installImage_monitor hkind] at hexec
  refine ⟨_, hexec, rfl, rfl, mget_mput_same .., fun i hi => ?_, rfl⟩
  exact mget_mput_ne _ _ _ hi

/-- What the monitor's installation leaves as it was. -/
def bootView (s : State) : Part × Launch × List Slice × List Input × Bool × Nat × BitVec 32 × List Image :=
  (s.part, s.launch, s.others, s.inbox, s.dev.powered, s.dev.lq, s.dev.ident, s.dev.images)

theorem bootView_monitors {l : List Image} (h : ∀ m ∈ l, m.kind = .monitor) (s : State) :
    bootView (l.foldl installImage s) = bootView s := by
  induction l generalizing s with
  | nil => rfl
  | cons m r ih =>
    rw [List.foldl_cons, ih (fun x hx => h x (List.mem_cons_of_mem _ hx)), installImage_monitor (h m List.mem_cons_self)]
    rfl

theorem bootView_boot (s : State) : bootView (boot s) = bootView (poweredUp s) := by
  cases h : bootImages s .monitor with
  | nil => rw [boot_none h]
  | cons m r =>
    rw [boot_some h]
    exact bootView_monitors (fun x hx => kind_of_bootImages (h ▸ hx)) _

theorem managementReset_spec (s : State) : ∃ t, exec .managementResetRequest s = .next t ∧ t.dev.powered = true ∧ t.dev.lq = 0 ∧
    t.dev.ident = 0x4E4C0B00 ∧ t.part.bound = false ∧ t.part.mem = [] ∧ t.launch.live = false ∧ t.others = [] ∧
    t.inbox = s.inbox ∧ t.dev.images = s.dev.images := by
  let u : State := { State.reset with
    dev := { Dev.init with
      num := s.dev.num, images := s.dev.images, ways := s.dev.ways, retired := s.dev.retired, rows := s.dev.rows,
      rowSpares := s.dev.rowSpares, enabled := s.dev.enabled, dead := s.dev.dead, marked := s.dev.marked, temps := s.dev.temps,
      power := s.dev.power },
    inbox := s.inbox, upsets := s.upsets, fresh := s.fresh }
  have hexec : exec .managementResetRequest s = .next (boot u) := rfl
  have hview := bootView_boot u
  generalize boot u = t at hexec hview
  simp only [bootView, Prod.mk.injEq] at hview
  obtain ⟨hpart, hlaunch, hothers, hinbox, hpow, hlq, hident, himages⟩ := hview
  exact ⟨t, hexec, hpow, hlq, hident, congrArg Part.bound hpart, congrArg Part.mem hpart, congrArg Launch.live hlaunch, hothers,
    hinbox, himages⟩

/-! ### Reads (R406, R408) -/

section
variable {s : State} {fn : BitVec 5}

/-- A VF reads a register of its own partition, when that is in focus. -/
theorem readReg_own (hfn : fn.toNat = s.part.idx + 1) : isMgmt fn = false ∧ focusPart s (fn.toNat - 1) = some s := by
  refine ⟨by rw [isMgmt, hfn]; rfl, ?_⟩
  rw [hfn, Nat.add_sub_cancel, focusPart_self]

theorem registerRead_pctl (hfn : fn.toNat = s.part.idx + 1) : registerRead s fn .pctl = reply s .done [pctlWord s.part] := by
  obtain ⟨hvf, hfocus⟩ := readReg_own hfn
  simp only [registerRead, readReg, hvf, Bool.false_eq_true, if_false, mgmtOnly, hfocus, readVF]

theorem registerRead_estat (hfn : fn.toNat = s.part.idx + 1) : registerRead s fn .estat = reply s .done [estatWord s.part] := by
  obtain ⟨hvf, hfocus⟩ := readReg_own hfn
  simp only [registerRead, readReg, hvf, Bool.false_eq_true, if_false, mgmtOnly, hfocus, readVF]

theorem registerRead_group {g : Nat} (hfn : fn.toNat = s.part.idx + 1) (hg : g < groupCount s) :
    registerRead s fn (.group g) = reply s .done ((List.range 8).map (groupWord s g)) := by
  obtain ⟨hvf, hfocus⟩ := readReg_own hfn
  simp only [registerRead, readReg, hvf, Bool.false_eq_true, if_false, mgmtOnly, hfocus, readVF, hg, if_true, countUp_zero_eq_range]

theorem registerRead_queue {q : Nat} (hfn : fn.toNat = qPart s q + 1) (hq : q < 32768) :
    registerRead s fn (.progress q) = reply s .done [w64 (qprogress s q)] ∧
    registerRead s fn (.tail q) = reply s .done [w64 (qtail s q)] := by
  have hvf : isVF fn (qPart s q) = true := by rw [isVF, hfn, beq_self_eq_true]
  constructor <;> simp only [registerRead, readReg, hq, hvf, and_self, if_true]

theorem pctlWord_fields (p : Part) : fld (pctlWord p) 7 6 = (if p.reset.isSome then 3 else if p.bound then 2 else 1) ∧
    fld (pctlWord p) 5 5 = b2n p.scrub ∧ fld (pctlWord p) 1 0 = 0 ∧ fld (pctlWord p) 4 2 = 0 ∧ fld (pctlWord p) 63 8 = 0 := by
  unfold pctlWord
  cases p.reset.isSome <;> cases p.bound <;> cases p.scrub <;> decide

theorem estatWord_fields (p : Part) : fld (estatWord p) 0 0 = b2n p.ex ∧ fld (estatWord p) 7 1 = 0 ∧ fld (estatWord p) 63 32 = 0 ∧
    (p.pw < 256 → fld (estatWord p) 15 8 = p.pw) ∧ (p.cset < 2 ^ 16 → fld (estatWord p) 31 16 = p.cset) := by
  have hex : b2n p.ex < 2 := by cases p.ex <;> decide
  have hw : (estatWord p).toNat = p.cset % 2 ^ 16 * 65536 + p.pw % 256 * 256 + b2n p.ex := by
    rw [estatWord, w64, BitVec.toNat_ofNat]
    omega
  simp only [fld, bits, hw]
  omega

end

/-! ### The statement -/

/-- Settles O55: each register and each event by its own lemma. -/
theorem registerEvents : Obligations.RegisterEvents := by
  unfold Obligations.RegisterEvents
  refine ⟨fun s fn v hfn hquiet => vfRegisters hfn hquiet, fun s fn v hfn => ⟨?_, ?_, ?_⟩,
    fun s fn q v hfn hq hv hzero hreset => ⟨?_, ?_, ?_⟩, fun s b => functionResetComplete_spec, fun s fn v => ⟨?_, ?_, ?_⟩,
    fun s fn c v hfn => ⟨?_, ?_⟩, fun s nonce => ⟨?_, ?_⟩, fun s img hpow => ⟨?_, ?_, ?_⟩, fun s img => ?_, fun s => ⟨?_, ?_, ?_, ?_, ?_, ?_, ?_⟩⟩
  · subst hfn
    exact drainctl_taken
  · subst hfn
    exact fun q => queueRec_taken
  · subst hfn
    rfl
  · exact fun hcmd hbound hready _ => pctlBind_binds hfn hq hv hzero hreset hcmd hbound hready
  · exact pctlUnbind_unbinds hfn hq hv hzero hreset
  · exact pctlReset_resets hfn hq hv hzero hreset
  · rintro rfl
    exact playoutWrite_takes
  · rintro rfl
    exact playoutWrite_refused
  · exact fun h => playoutWrite_notPermitted h s v
  · rintro rfl
    exact ⟨eusedClear_clears hfn, counterClear_clears hfn c⟩
  · exact fun hv => ⟨eusedClear_refused hfn hv, counterClear_refused hfn c hv⟩
  · exact fun h => if_pos h
  · exact fun h => if_neg h
  · exact firmwareImage_taken hpow
  · exact firmwareImage_refused hpow
  · exact firmwareImage_notPermitted hpow
  · exact fun hpow => if_pos hpow
  · exact fun hpow => ⟨fun h => (powerOn_boots hpow).trans (congrArg Host.Outcome.next (boot_none h)), fun m => powerOn_monitor hpow⟩
  · exact fun hpow => if_pos hpow
  · exact managementReset_spec s
  · exact ⟨_, rfl, rfl⟩
  · intro fn hfn
    obtain ⟨hstate, hscrub, hcmd, hmid, hhigh⟩ := pctlWord_fields s.part
    exact ⟨pctlWord s.part, estatWord s.part, registerRead_pctl hfn, hstate, hscrub, hcmd, hmid, hhigh, registerRead_estat hfn,
      estatWord_fields s.part⟩
  · exact fun fn q => registerRead_queue
  · exact fun fn g => registerRead_group

end Sys2Proof.Machine
end
